-- ==== Sys2Proof/Word.lean ====
section
/-! DEFINITION. The byte type and the plainest arithmetic on numbers read as bits (R7, R9). -/
namespace Sys2Proof

/-- One byte of any memory of the part. -/
abbrev Byte := BitVec 8

/-- A 32-bit register, index or counter. -/
abbrev Word := BitVec 32

/-- A 64-bit register or address as software sees it. -/
abbrev DWord := BitVec 64

/-- Field `lo + w - 1 : lo` of a number read as bits (R7). -/
def field (v lo w : Nat) : Nat := v / 2 ^ lo % 2 ^ w

/-- One bit of a number read as bits (R7). -/
def bit (v i : Nat) : Bool := field v i 1 == 1

/-- A number with its field `lo + w - 1 : lo` replaced. -/
def setField (v lo w x : Nat) : Nat :=
  v % 2 ^ lo + 2 ^ lo * (x % 2 ^ w) + 2 ^ (lo + w) * (v / 2 ^ (lo + w))

/-- Little-endian value of a list of bytes (R7). -/
def leNat : List Byte → Nat
  | [] => 0
  | b :: t => b.toNat + 256 * leNat t

/-- The `n` little-endian bytes of a number (R7). -/
def leBytes : Nat → Nat → List Byte
  | 0, _ => []
  | n + 1, v => BitVec.ofNat 8 v :: leBytes n (v / 256)

/-- `⌈a / b⌉` of the spec's tables, with 0 for a zero divisor. -/
def ceilDiv (a b : Nat) : Nat := if b = 0 then 0 else (a + b - 1) / b

/-- A counter that saturates at its `w`-bit maximum. -/
def satAdd (w a b : Nat) : Nat := min (a + b) (2 ^ w - 1)

/-- Bytes in one KiB, MiB and GiB (R9). -/
def KiB : Nat := 1024
def MiB : Nat := 1048576
def GiB : Nat := 1073741824

end Sys2Proof
end

