-- ==== Sys2Proof/Syntax.lean ====
section
/-! DEFINITION. The commands the block takes: one constructor of `Instr` per row of spec/opcode_table.json, and the
plain data they carry. -/
namespace Sys2Proof

/-- Who makes a register access (R512). -/
inductive Origin where
  | host | stageManager | fabric | item
  deriving DecidableEq, Repr

/-- The three words of a doorbell line that the Tesel reads (Table 2.6). -/
structure DoorbellLine where
  prod : Word
  cons : Word
  cancel : Word
  deriving DecidableEq, Repr

/-- A table announcement (Table 3.6). -/
structure Announce where
  valid : Bool
  gen : Nat
  target : Nat
  deriving DecidableEq, Repr

/-- A cue message (Table 3.2). -/
structure CueMsg where
  cue : Nat
  timeNs : Nat
  period : Nat
  blocking : Bool
  origin : Nat
  rank : Nat
  residenceNs : Nat
  annBlk : Announce
  annChorus : Announce
  annRoute : Announce
  deriving DecidableEq, Repr

/-- A checksum mismatch that the array hardware produces in one pass of an item, and what the two repetitions of
Table 15.1 find (R423, R425). -/
structure LaneFault where
  repeatPasses : Bool
  otherPasses : Bool
  deriving DecidableEq, Repr

/-- What one read meets in one lane of one codeword (HBM), or in one word (LPDDR, SRAM): symbols or bits in error and
whether the lane parity shows it (R255, R258, R259). -/
structure CellError where
  cw : Nat
  lane : Nat
  symbols : Nat
  parity : Bool
  deriving DecidableEq, Repr

/-- What a scrub read finds: its errors, whether a write reached the line since the scrub read it (R260), whether the cells
keep showing these errors, to every later read as well, and how many errors the stack's on-die code reports (R255). -/
structure EccFinding where
  errors : List CellError
  written : Bool
  stuck : Bool
  onDie : Nat
  deriving DecidableEq, Repr

/-- How a codeword of flash decodes where it does not at once: by a read retry, by soft decoding, or not at all (R283). -/
inductive Decode where
  | retry | soft | fails
  deriving DecidableEq, Repr

/-- One piece of background work of the translation layer (R290 to R294). -/
inductive FlashWork where
  /-- Collection of a block: its valid tiles are read, with the codewords (tile × 16 + codeword) that did not decode at once,
  and move elsewhere (R293). -/
  | collect (block : Nat) (found : List (Nat × Decode))
  /-- The relocation of a block's valid tiles that R291 or R292 asks for. -/
  | relocate (block : Nat)
  /-- Levelling of a LUN (R290). -/
  | level (lun : Nat)
  /-- The erase of a queued block: whether it succeeds, and whether a verify after it does (R292). -/
  | erase (block : Nat) (ok verified : Bool)
  /-- A program failure in a block: the tile is rewritten elsewhere and the block retired (R292). -/
  | programFail (block : Nat)
  /-- A journal commit, or a checkpoint of the map with a number of tile programs (R294). -/
  | journal
  | checkpoint (tiles : Nat)
  deriving DecidableEq, Repr

/-- A received flit (Table 13.1), with what a link control flit tells the sender (R356). -/
structure FlitIn where
  vc : Nat
  ctrl : Bool
  seq : Nat
  crcOk : Bool
  /-- Control flits: sequence number up to which the peer acknowledges. -/
  ack : Option Nat
  /-- Control flits: sequence number from which the peer asks for a replay. -/
  nak : Option Nat
  /-- Control flits: flit credits that the peer returns, by channel (R359). -/
  credits : List Nat
  content : List Byte
  deriving DecidableEq, Repr

/-- What training finds at the far end of a port (R358, R365, R388). -/
structure PeerInfo where
  isSwitch : Bool
  member : Nat
  port : Nat
  lanes : Nat
  delayNs : Nat
  deriving DecidableEq, Repr

/-- A fabric packet (Table 13.4) with its data or body. -/
structure Packet where
  type : Nat
  context : Nat
  gen : Nat
  status : Nat
  src : Nat
  dst : Nat
  birth : Nat
  tag : Nat
  length : Nat
  addr : Nat
  data : List Byte
  /-- Read epoch of a frame read (R181; log entry 30: Table 13.4 names no place for it). -/
  epoch : Option Nat := none
  deriving DecidableEq, Repr

/-- The profiles that Tables 11.1 and 11.2 tell apart. -/
inductive VideoProfile where
  | mpeg2Main | mpeg2Simple | mpeg2Snr | mpeg2Spatial | mpeg2High | mpeg2Four22 | mpeg1
  | avcConstrainedBaseline | avcMain | avcHigh | avcHigh422Intra | avcExtended | avcHigh10 | avcHigh422 | avcFour44 | avcSvc | avcMvc
  | hevcMain | hevcMain10 | hevcMain42210 | hevcRangeExtension | hevcScc | hevcShvc | hevcMv | hevc3d
  | av1Main | av1High | av1Professional
  | other
  deriving DecidableEq, Repr, Inhabited

/-- Tools of a stream that the decode engines do not support (Table 11.2). -/
inductive VideoTool where
  | macroblockOrdering | sliceOrder | redundantPictures | spSlice | siSlice | dataPartitioning | largeScaleTile | lengthDelimited
  | other
  deriving DecidableEq, Repr, Inhabited

/-- What a sequence-level header says (R307, R308, R315, R317, R325, R326): coded size, conformance cropping, chroma format
(0 monochrome, 1 4:2:0, 2 4:2:2, 3 4:4:4), bit depth, profile and level (MPEG-2: 1 Low to 4 High; AVC and HEVC in tenths; AV1:
`seq_level_idx`), whether the stream keeps within that level, the buffer count that Table 11.6 takes from it,
matrix_coefficients, full range, and the chroma siting in half luma samples, where the stream gives it. -/
structure SeqHeader where
  width : Nat
  height : Nat
  cropX : Nat
  cropY : Nat
  cropW : Nat
  cropH : Nat
  chroma : Nat
  depth : Nat
  profile : VideoProfile
  level : Nat
  inLevel : Bool
  dpb : Nat
  matrix : Nat
  full : Bool
  site : Option (Nat × Nat)
  deriving DecidableEq, Repr, Inhabited

/-- A reconstructed picture (R314, R323 to R325): coded luma size, chroma format (0 monochrome, 1 4:2:0, 2 4:2:2), bit
depth, planes as rows of samples, the damage byte of every 16 × 16 block, output order count, wholly lost; the sequence header
that it was coded under, and the film grain of its frame header, seed included. -/
structure Picture where
  width : Nat
  height : Nat
  chroma : Nat
  depth : Nat
  planes : List (List (List Nat))
  damage : List Nat
  order : Nat
  lost : Bool
  seq : SeqHeader
  grain : List Byte
  deriving DecidableEq, Repr, Inhabited

/-- A packet of a collective half (R396, R400): its match fields and one rank's contribution. -/
structure CollPacket where
  src : Nat
  rank : Nat
  context : Nat
  entry : Nat
  seq : Nat
  gen : Nat
  op : Nat
  count : Nat
  fmt : Nat
  tag : Nat
  /-- Generation of the context at its sender (R382). -/
  fabGen : Nat
  data : List Byte
  deriving DecidableEq, Repr

/-- An engine that recovers (R434, R435). -/
inductive Engine where
  | tile (n : Nat) | move (n : Nat) | decode (n : Nat) | encode (n : Nat)
  | ingest | collective | fabric | flash
  deriving DecidableEq, Repr

/-- An upset of a hardened register that a scan meets (R432). -/
structure RegUpset where
  off : Nat
  value : DWord
  parityBad : Bool
  deriving DecidableEq, Repr

/-- A resource that background calibration stalls (R446). -/
inductive CalResource where
  | hbmChannel (stack channel : Nat) | lpddrChannel (pkg channel : Nat) | port (n : Nat)
  deriving DecidableEq, Repr

/-- The path by which a security command arrives, with its input bytes where the mailbox does not hold them
(R459). -/
inductive SecPath where
  | mailbox | mctp (input : List Byte) | jtag (input : List Byte)
  deriving DecidableEq, Repr

/-- The boundary-scan instructions that hold the core in reset (R465). -/
inductive TapTest where
  | extest | clamp | highz
  deriving DecidableEq, Repr

/-- The transport of an SPDM request (R466). -/
inductive SpdmTransport where
  | doe | mctp
  deriving DecidableEq, Repr

/-- An SPDM request: transport, secured session if any, header parameters and body (R466). -/
structure SpdmReq where
  transport : SpdmTransport
  session : Option Nat
  version : Nat
  param1 : Nat
  param2 : Nat
  body : List Byte
  deriving DecidableEq, Repr

/-- The IDE streams of the host port (R468). -/
inductive IdeStream where
  | io | mem | link
  deriving DecidableEq, Repr

/-- What the hardware finds during one bring-up (R480, R482): packages and stacks that fail training; flash targets (channel
× 4 + chip enable) found and trained, and factory bad blocks marked on the devices, which a format reads; whether each
firmware copy passes the checks of R453 but for its SVN; copies of prompt book regions that fail their tag (region, whether
copy B) and NOR commands refused for want of a valid tag (R303); whether the current configuration image, repair map,
translation layer root and lifecycle record are good otherwise. -/
structure BootFindings where
  lpddrFailed : List Nat
  hbmFailed : List Nat
  flashFound : List Nat
  factoryBad : List Nat
  fwPassA : Bool
  fwPassB : Bool
  tagFails : List (Nat × Bool)
  norRefused : Nat
  configOk : Bool
  repairOk : Bool
  rootOk : Bool
  lifecycleOk : Bool
  deriving DecidableEq, Repr

/-- The paths of a device reset request (Table 17.2). -/
inductive ResetPath where
  | host | mctp
  deriving DecidableEq, Repr

/-- The commands of spec/opcode_table.json, one constructor per row, in the table's order. The operands are the
model's: the table gives none (log entry 6). -/
inductive Instr where
  /-- R36. A host read through a CXL.mem window segment returns data, or all-ones or poisoned data for unmapped or uncorrectable targets. -/
  | hostWindowRead (off len : Nat)
  /-- R36. A host write through a CXL.mem window segment replaces whole units, or is discarded for unmapped or partial-uncorrectable targets. -/
  | hostWindowWrite (off : Nat) (data : List Byte)
  /-- R38. Surprise removal or link-down of the host port halts host-resident rings, cancels their unstarted items and discards their records. -/
  | hostLinkDown
  /-- R38. After retraining, the host port writes each halted host-resident ring's status line once with state 1 and its discarded count. -/
  | hostLinkUp (cxl : Bool) (width rate : Nat)
  /-- R477. A fundamental reset of the host port takes it down and retrains it after deassertion, with setup and seal unchanged. -/
  | perstNAssert (low : Bool)
  /-- R40. Writing the seal key runs the seal checks and either seals every RWL register or reports the lowest failing check. -/
  | setupSeal (key : BitVec 32)
  /-- R12. A write to a register with no behaviour of its own acts on its fields according to their access codes. -/
  | registerWrite (origin : Origin) (off size : Nat) (value : BitVec 64)
  /-- R511. A 4-byte host read of the lower half of a 64-bit register latches the upper half for the next upper-half read. -/
  | registerHalfRead (off : Nat)
  /-- R49. A write to a ring's doorbell line wakes the ring unit, which re-reads the line and acts on its values. -/
  | doorbellWake (ring : Nat) (line : Option DoorbellLine)
  /-- R33. In PCIe endpoint operation, every enabled host-resident doorbell line is read by DMA every 2 µs. -/
  | doorbellPoll (lines : List (Nat × Option DoorbellLine))
  /-- R46. The ring unit reads a descriptor into the device once it has seen a producer index beyond it. -/
  | descriptorFetch (ring : Nat) (host : Option (List Byte)) (now : Nat)
  /-- R88. A descriptor at its ring head with fence-in met, completion space held, allowance and free claims is admitted and dispatched. -/
  | descriptorDispatch (ring now : Nat)
  /-- R58. A descriptor whose fence-in is not met within FENCE_WAIT_CUES completes every item TIMEOUT. -/
  | fenceWaitTimeout (ring : Nat)
  /-- R61. When a run's timeout expires its unfinished items complete TIMEOUT and the engine recovers. -/
  | descriptorTimeout (run now : Nat)
  /-- R63. At an item boundary the scheduler stops a run, completes unstarted items PREEMPTED and requeues a continuation. -/
  | preempt (run now : Nat)
  /-- R65. When a run's items have all ended its item records and summary are written and completion space released. -/
  | runComplete (run : Nat) (hostFails : List Nat) (now : Nat)
  /-- R70. DELAY_US after the first unsignalled record the status line is written and the vector raised. -/
  | irqDelayExpiry (ring now : Nat)
  /-- R60. Control opcode that does nothing and completes OK. -/
  | controlNop (run item : Nat)
  /-- R60. Control opcode that adds an increment to a fence counter. -/
  | fenceSignal (run item : Nat)
  /-- R60. Control opcode that sets a fence counter and clears its poison. -/
  | fenceReset (run item : Nat)
  /-- R60. Control opcode that copies listed ranges between host memory and device memory. -/
  | hostCopy (run item : Nat) (host : Option (List Byte))
  /-- R37. Control opcode that requests host or device bias for a range of window regions. -/
  | biasSet (run item : Nat)
  /-- R37. A bias change takes effect once every host access already in flight to the region has completed. -/
  | biasChangeEffect (run item : Nat)
  /-- R105. Control opcode that writes a consistent snapshot of a context's accounting block. -/
  | accountRead (run item : Nat)
  /-- R60. Managed control opcode that makes a context runnable and zeroes its accounting block. -/
  | contextStart (run item : Nat)
  /-- R383. Managed control opcode that cancels a context's work, advances its generation and sends TEARDOWN to its chorus. -/
  | contextTeardown (run item now : Nat)
  /-- R82. At each local cue edge the member suspends admission, handles slot ends, switches tables, releases pages, applies ceilings, computes budgets and resumes admission. -/
  | cueBoundary (now : Nat)
  /-- R78. A received cue message is validated and trims, steps or locks the follower's cue timer. -/
  | cueMessage (port : Nat) (msg : CueMsg) (now : Nat)
  /-- R78. A cue passes with no valid message or an excessive offset, moving the lock state. -/
  | cueMiss (offset : Option Int) (now : Nat)
  /-- R80. A standby of rank r that has heard no lower rank for r cues starts emitting cues. -/
  | standbyEmit (now : Nat)
  /-- R83. Writing GO on the emitter requests or is refused a table generation switch at a target cue. -/
  | cueSwitchReq (value : BitVec 32)
  /-- R92. At a slot's midpoint unused reserves join the pool and admission follows earliest deadline first. -/
  | slotMidpoint
  /-- R94. Once a step is fetched or its wait expires, the monitor predicts completion and chooses the program or its fallback. -/
  | deadlineDecision (ring now : Nat)
  /-- R95. After the fallback program's last summary the step's own descriptors complete OK_DEGRADED without running. -/
  | fallbackStepComplete (ring now : Nat)
  /-- R103. A write of a partition's CEILING requests a new operating point ceiling from the next boundary. -/
  | partOpCeiling (part : Nat) (value : BitVec 32)
  /-- R150. Weight-stationary matrix product of each item into Y. -/
  | mmWs (run item : Nat) (laneFault : Option LaneFault)
  /-- R162. Weight-stationary matrix product with a corner-turning loader for B in K rows of N. -/
  | mmWsT (run item : Nat) (laneFault : Option LaneFault)
  /-- R150. Output-stationary matrix product reducing over tokens. -/
  | mmOs (run item : Nat) (laneFault : Option LaneFault)
  /-- R166. Combines FP32 split partials into Y by the fixed tree or in format order. -/
  | splitSum (run item : Nat)
  /-- R161. Rebuilds backward-order weight copies from forward-order copies. -/
  | pairRefresh (run item : Nat)
  /-- R193. Attention over the pages a sightline lists for one query block and key/value head. -/
  | attn (run item : Nat) (laneFault : Option LaneFault)
  /-- R183. Appends keys and values to a page table, taking frames as needed. -/
  | kvAppend (run item : Nat)
  /-- R188. Queues a sequence's join with a frame request on its pool's pending list. -/
  | seqJoin (run item : Nat)
  /-- R186. Releases a leaving sequence's page table entries and its reservation. -/
  | seqLeave (run item : Nat)
  /-- R188. Adds frames to an active sequence's reservation at once or fails. -/
  | seqReserve (run item : Nat)
  /-- R185. Shares a prefix of one page table with another under copy-on-write. -/
  | pageShare (run item : Nat)
  /-- R198. Checks a bias image and writes it to every partition's standby buffer for a future cue. -/
  | biasLoad (run item : Nat)
  /-- R205. Runs a vector program over each element of an item, optionally writing a weight pair. -/
  | vprog (run item : Nat)
  /-- R221. RMS normalisation of rows with scaled accumulation. -/
  | rmsnorm (run item : Nat)
  /-- R224. Softmax of rows with running statistics. -/
  | softmaxRow (run item : Nat)
  /-- R226. Merges attention partials and statistics from several sources. -/
  | attnMerge (run item : Nat)
  /-- R220. Converts rows to a narrow format, placing outliers. -/
  | quant (run item : Nat)
  /-- R220. Converts rows from a narrow format back to FP32, BF16 or FP16. -/
  | dequant (run item : Nat)
  /-- R216. Checks a special-function image and writes it into each tile's free buffer, bringing its generation into force. -/
  | fnLoad (run item : Nat)
  /-- R168. A waiting function table load writes a tile's buffer once that buffer is released. -/
  | fnLoadResume (tile : Nat)
  /-- R236. Direct or Winograd convolution of one input tensor. -/
  | convolve (run item : Nat) (laneFault : Option LaneFault)
  /-- R242. Writes the patch matrix of one input tensor. -/
  | convPatch (run item : Nat)
  /-- R243. Maximum or average pooling of one input tensor. -/
  | poolWindows (run item : Nat)
  /-- R245. Decodes candidate boxes from deltas and anchors. -/
  | boxDecode (run item : Nat)
  /-- R246. Suppresses overlapping boxes and writes a keep record. -/
  | boxNms (run item : Nat)
  /-- R274. Takes ownership of a run of granules under the quota, optionally zeroing them. -/
  | grantGranules (run item : Nat)
  /-- R274. Gives up ownership of a run of granules. -/
  | releaseGranules (run item : Nat)
  /-- R277. Copies one tile between tiers, partition SRAM or the flash window. -/
  | tileMove (run item : Nat)
  /-- R275. Fills one tile with a repeated pattern. -/
  | tileFill (run item : Nat)
  /-- R279. Writes one context's quota and use block. -/
  | quotaRead (run item : Nat)
  /-- R266. Every 100 µs each stack's temperature is read and the thermal actions applied. -/
  | stackTempRead (readings : List (Option Int)) (now : Nat)
  /-- R257. A marked lane is remapped to the channel's spare and the mark cleared. -/
  | laneRemap (stack pc lane : Nat)
  /-- R260. The DRAM patrol reads each populated line once per period, correcting and writing back. -/
  | scrubPatrol (tier line : Nat) (found : EccFinding) (now : Nat)
  /-- R260. Every SRAM word is read once per 100 ms and corrected. -/
  | sramSweep (word : Nat) (found : EccFinding) (now : Nat)
  /-- R300. Unmaps runs of flash window slots at one map commit. -/
  | flTrim (run item : Nat)
  /-- R301. Writes the flash health block. -/
  | flHealth (run item : Nat)
  /-- R306. Managed opcode copying the current copy of a readable prompt book region out. -/
  | pbRead (run item : Nat)
  /-- R306. Managed opcode writing the configuration region from a signed image under the A/B update. -/
  | pbWrite (run item : Nat)
  /-- R288. A tile program's data and map commit become durable and the item completes. -/
  | flashMapCommit (run item : Nat)
  /-- R293. The translation layer runs collection, wear levelling and relocation in the background. -/
  | flashMaintenance (work : FlashWork)
  /-- R499. A HOLDUP_SENSE frame updates the bank voltage reading or sets STALE on error. -/
  | holdupFrame (bits : BitVec 32) (stop : Bool) (now : Nat)
  /-- R295. A reading older than 100 µs sets STALE and makes available energy zero. -/
  | holdupStale (now : Nat)
  /-- R298. PWR_FAIL_N low stops admission and new batches, cancels unissued flash work and sends detached notices. -/
  | pwrFail
  /-- R298. After the last started batch commits, flash activity stops and the device enters Ghost light. -/
  | flashQuiesced (now : Nat)
  /-- R298. After PWR_FAIL_N reads high for 10 ms, PWR_FAIL and QUIESCED clear and batches resume. -/
  | pwrFailClear
  /-- R318. Decodes one access unit and post-processes every picture the output process releases. -/
  | decAu (run item : Nat)
  /-- R327. Encodes one input picture into slices on the output ring. -/
  | encPicture (run item : Nat)
  /-- R331. A block row is read and coded once its row fence is met. -/
  | encBlockRow (run item : Nat)
  /-- R332. A finished slice is written to the output ring, listed and SLICE_FENCE advanced. -/
  | sliceEmit (run item : Nat)
  /-- R350. Starts a feed from its feed block and waits for its engines. -/
  | feedStart (run item : Nat)
  /-- R350. Stops a feed, abandoning undelivered batches and releasing engines. -/
  | feedStop (run item : Nat)
  /-- R351. Writes a feed's status block. -/
  | feedStatus (run item : Nat)
  /-- R349. Writes the clip indices of the keyed permutation for a range of positions. -/
  | permMap (run item : Nat)
  /-- R350. Once every named engine is held, the feed sets its fences and runs. -/
  | feedEnginesHeld (feed : Nat)
  /-- R344. A clip of a batch with a free buffer is given to the lowest idle held engine and fetched. -/
  | clipAssign (feed : Nat)
  /-- R345. A clip ends with the status of its first event, with frames written or zeroed. -/
  | clipDone (feed clip : Nat)
  /-- R346. When every clip of the next batch has its status, the batch record is written and FENCE_DONE advanced. -/
  | batchDeliver (feed : Nat)
  /-- R388. Writing EN of a fabric port makes it train and run. -/
  | portEnable (port : Nat) (value : BitVec 32)
  /-- R356. A received flit is checked, acknowledged or negatively acknowledged, and replay served. -/
  | flitReceive (port : Nat) (flit : FlitIn) (now : Nat)
  /-- R356. The receiver acknowledges good flits at least every 0.5 µs. -/
  | ackTimer (port : Nat)
  /-- R356. Repeated replay failure or 2 µs without a good flit starts a retrain keeping the replay buffer. -/
  | portRetrain (port now : Nat)
  /-- R356. A port completes training and resends held flits. -/
  | portTrained (port : Nat) (peer : PeerInfo) (now : Nat)
  /-- R356. A port with no good flit for 20 µs or three retrains in 1 ms is down, losing queued packets. -/
  | portDown (port now : Nat)
  /-- R357. A lane event stops new flits on a port that then degrades to two lanes. -/
  | laneDegrade (port lane : Nat) (now : Nat)
  /-- R357. FEC is reinterleaved over two lanes and replay resumes with the port up x2. -/
  | degradeComplete (port : Nat)
  /-- R357. Writing REWIDEN requests a four-lane retrain at the next allowed moment. -/
  | rewidenRequest (port : Nat) (value : BitVec 32)
  /-- R357. At the intermission or boundary the port retrains to four lanes if all pass. -/
  | rewidenRetrain (port : Nat) (allPass : Bool)
  /-- R358. Every 10 ms a port sends ECHO to measure its one-way delay. -/
  | echoTimer (port now : Nat)
  /-- R358. A received ECHO is answered with ECHO_REPLY carrying its turnaround. -/
  | echoRequest (port : Nat) (pkt : Packet) (now sendAt : Nat)
  /-- R358. A received ECHO_REPLY updates the port's measured delay. -/
  | echoReply (port : Nat) (pkt : Packet) (now : Nat)
  /-- R379. A remote read request is served with READ_DATA or an ERROR response. -/
  | readRequest (pkt : Packet) (now : Nat)
  /-- R379. A remote write request is performed and acknowledged, or answered with ERROR. -/
  | writeRequest (pkt : Packet) (now : Nat)
  /-- R375. A remote atomic is performed indivisibly and answered with its old value. -/
  | atomicRequest (pkt : Packet) (now : Nat)
  /-- R379. A bulk read request is served with bulk READ_DATA or an ERROR. -/
  | bulkReadRequest (pkt : Packet) (now : Nat)
  /-- R379. A bulk write is performed and acknowledged, or answered with ERROR. -/
  | bulkWriteRequest (pkt : Packet) (now : Nat)
  /-- R378. Returned read data completes its outstanding request, or is discarded if none matches. -/
  | readData (pkt : Packet)
  /-- R378. A write acknowledgement completes its outstanding write. -/
  | writeAck (pkt : Packet)
  /-- R378. An atomic result writes RESULT and completes its atomic. -/
  | atomicResult (pkt : Packet)
  /-- R379. An ERROR response completes the issuing item with its status. -/
  | errorResponse (pkt : Packet) (now : Nat)
  /-- R411. A received detached notice makes the member's buddy declare it lost. -/
  | detachedNotice (port : Nat) (pkt : Packet) (now : Nat)
  /-- R412. The first MEMBER_LOST for a member adds it to the lost set and ends the halves that need it. -/
  | memberLostMessage (port : Nat) (pkt : Packet) (now : Nat)
  /-- R377. A received STOP holds admission of a context's runs until its resume cue. -/
  | stopMessage (port : Nat) (pkt : Packet)
  /-- R376. A received DRAIN starts waiting for the context's earlier writes to be acknowledged. -/
  | drainMessage (pkt : Packet)
  /-- R376. A received DRAIN_RETURN counts toward a chorus fence or a teardown's reuse point. -/
  | drainReturn (pkt : Packet)
  /-- R383. A received TEARDOWN applies the local teardown steps with the new generation. -/
  | teardownMessage (pkt : Packet) (now : Nat)
  /-- R372. A received route patch writes the standby route buffer with added aliases; the emitter requests the switch. -/
  | routePatchMessage (port : Nat) (pkt : Packet)
  /-- R363. A held packet older than 500 µs is dropped and counted. -/
  | packetAged (pkt : Packet) (now : Nat)
  /-- R378. A request without response within FAB_RESP_TIMEOUT ends its item TIMEOUT or MEMBER_LOST. -/
  | responseTimeout (tag now : Nat)
  /-- R374. Copies listed ranges between any members through this member. -/
  | fabCopy (run item now : Nat)
  /-- R375. Performs listed atomics at any member. -/
  | fabAtomic (run item now : Nat)
  /-- R373. Stores up to 64 bytes of payload data at a global address. -/
  | fabPut (run item now : Nat)
  /-- R376. Completes when the context's earlier remote writes are visible at a member or chorus. -/
  | fabFence (run item now : Nat)
  /-- R377. Floods a STOP message for a context with a resume cue. -/
  | fabStop (run item now : Nat)
  /-- R373. Managed opcode that floods a route patch and completes when its generation is announced. -/
  | routePatch (run item now : Nat)
  /-- R376. Once the context's writes issued before the DRAIN are acknowledged, DRAIN_RETURN is sent. -/
  | fenceDrainDone (src drain : Nat)
  /-- R383. A receiving member with old traffic drained frees its granules and sends DRAIN_RETURN. -/
  | teardownDrainDone (context now : Nat)
  /-- R383. At all returns or cue n+4 the origin frees granules, reports unreturned members and completes the teardown. -/
  | teardownReusePoint (context now : Nat)
  /-- R402. Reduce-scatter of one buffer over a chorus. -/
  | rsHalf (run item now : Nat)
  /-- R401. All-gather of one buffer over a chorus. -/
  | agHalf (run item now : Nat)
  /-- R404. Broadcast of one buffer from the root rank. -/
  | bcastHalf (run item now : Nat)
  /-- R405. Completes once every rank has entered the barrier. -/
  | barrierHalf (run item now : Nat)
  /-- R406. Accumulates a gradient bucket and reduce-scatters it on reducing steps. -/
  | gradReduce (run item now : Nat)
  /-- R416. Mirrors committed state to the buddy's bank and manifest slot. -/
  | mirrorState (run item now : Nat)
  /-- R417. Restores a lost member's mirrored state onto its understudy. -/
  | restoreMirror (run item now : Nat)
  /-- R400. A collective packet is matched to its half, held, dropped as stale or answered with ERROR. -/
  | collectivePacket (pkt : CollPacket)
  /-- R407. A half with no packet from a needed rank within WAIT_CUES completes TIMEOUT. -/
  | halfWaitTimeout (run item : Nat)
  /-- R413. An understudy candidate floods a route patch taking the lost member's number at its turn. -/
  | understudyTakeover (lost entry now : Nat)
  /-- R433. Expiry of the stage manager watchdog restarts it from mask ROM. -/
  | watchdogExpiry (now : Nat)
  /-- R433. The restarted stage manager resumes coppices, repairs, flash maintenance and the scan. -/
  | stageManagerRestarted (now : Nat)
  /-- R435. An engine not ready 30 µs after an item's end escalates to a coppice or engine reset. -/
  | engineRecoveryTimeout (engine : Engine) (now : Nat)
  /-- R435. An I/O-die engine reset completes and the engine is ready again. -/
  | engineResetDone (engine : Engine)
  /-- R435. An engine reset not complete within 200 µs takes the device to curtain. -/
  | engineResetTimeout (engine : Engine) (now : Nat)
  /-- R438. A coppice finishes its reset, zeroing, repairs and restores and returns the partition to service. -/
  | coppiceComplete (part now : Nat)
  /-- R439. After a stack fault coppice the zero fill of the stack completes and access resumes. -/
  | stackFillDone (stack : Nat)
  /-- R442. Once every started item has ended, rings show state 2 and curtain is recorded. -/
  | curtainDrained
  /-- R449. Writing a partition bit requests a coppice of cause 0x07. -/
  | coppiceReq (value : BitVec 32) (now : Nat)
  /-- R432. Every 1 ms hardened registers are compared with the image and mismatches rewritten. -/
  | registerScan (upsets : List RegUpset) (tagOk : Bool) (now : Nat)
  /-- R449. Writing GO queues a self-test of a logical tile. -/
  | selftestReq (value : BitVec 32)
  /-- R445. A due self-test takes a tile in an intermission or at a boundary when its claims are free. -/
  | selftestStart (tile now : Nat)
  /-- R444. A self-test ends with a pass or a suspect event on the tile. -/
  | selftestDone (tile : Nat) (pass : Bool) (now : Nat)
  /-- R429. Powered time is written to the prompt book at least once per hour. -/
  | poweredTimeSave (now : Nat)
  /-- R430. Each hour summary records of transients and routine self-tests are written. -/
  | hourlySummary (now : Nat)
  /-- R446. Background calibration stalls each channel or port at most 2 µs per 100 ms. -/
  | calibrationStall (resource : CalResource)
  /-- R460. Draws a fresh nonce and writes the challenge to the mailbox. -/
  | getChallenge (path : SecPath) (now : Nat)
  /-- R464. Returns the debug level to none. -/
  | debugLock (path : SecPath)
  /-- R455. Writes a checked firmware image into the non-current firmware copy. -/
  | fwUpdate (path : SecPath)
  /-- R463. Token granting the non-invasive trace level. -/
  | debugTrace (path : SecPath) (now : Nat)
  /-- R464. Token granting the invasive level, ending sessions and suspending the register scan. -/
  | debugInvasive (path : SecPath) (now : Nat)
  /-- R457. Token enrolling an owner key and moving Provisioned to Deployed. -/
  | enrollOwner (path : SecPath) (now : Nat)
  /-- R457. Token moving Deployed to Service. -/
  | enterService (path : SecPath) (now : Nat)
  /-- R457. Token moving Service back to Deployed. -/
  | returnToken (path : SecPath) (now : Nat)
  /-- R457. Token erasing the owner and returning to Provisioned. -/
  | ownerRelease (path : SecPath) (now : Nat)
  /-- R457. Token retiring the part permanently. -/
  | retireToken (path : SecPath) (now : Nat)
  /-- R457. Token in Service clearing the curtain record and escalation counts. -/
  | clearCurtain (path : SecPath) (now : Nat)
  /-- R458. After started items end, the new lifecycle record is written, counter 3 raised and the device resets. -/
  | lifecycleReset (now : Nat)
  /-- R460. An unused nonce expires after 600 s of powered time. -/
  | nonceExpiry (now : Nat)
  /-- R464. The debug level returns to none when VALID_S expires. -/
  | debugExpiry (now : Nat)
  /-- R465. Selecting EXTEST, CLAMP or HIGHZ holds the core in device reset. -/
  | tapTestMode (ir : TapTest)
  /-- R478. Leaving EXTEST, CLAMP or HIGHZ starts a warm reset with a wipe. -/
  | tapTestExit (now : Nat)
  /-- R477. TRST_N resets the IEEE 1149.1 TAP only. -/
  | tapReset
  /-- R466. SPDM request returning the supported version. -/
  | getVersion (spdm : SpdmReq)
  /-- R466. SPDM request returning capabilities. -/
  | getCapabilities (spdm : SpdmReq)
  /-- R466. SPDM request negotiating algorithms. -/
  | negotiateAlgorithms (spdm : SpdmReq)
  /-- R466. SPDM request returning certificate chain digests. -/
  | getDigests (spdm : SpdmReq)
  /-- R466. SPDM request returning the slot 0 certificate chain. -/
  | getCertificate (spdm : SpdmReq)
  /-- R466. SPDM challenge signed with the alias key. -/
  | spdmChallenge (spdm : SpdmReq)
  /-- R467. SPDM request returning the measurements taken at the response. -/
  | getMeasurements (spdm : SpdmReq)
  /-- R466. SPDM ECDHE key exchange opening a session. -/
  | keyExchange (spdm : SpdmReq)
  /-- R466. SPDM request completing session establishment. -/
  | finishSession (spdm : SpdmReq)
  /-- R466. SPDM session heartbeat. -/
  | heartbeatRequest (spdm : SpdmReq)
  /-- R466. SPDM session key update. -/
  | keyUpdate (spdm : SpdmReq)
  /-- R466. SPDM request ending a session. -/
  | endSession (spdm : SpdmReq)
  /-- R466. SPDM chunked request transfer. -/
  | chunkSend (spdm : SpdmReq)
  /-- R466. SPDM chunked response transfer. -/
  | chunkGet (spdm : SpdmReq)
  /-- R466. SPDM vendor-defined request programming IDE keys. -/
  | vendorDefinedRequest (spdm : SpdmReq) (stream : IdeStream)
  /-- R468. An IDE integrity failure makes the stream insecure and is treated as host link-down. -/
  | ideIntegrityFailure (stream : IdeStream)
  /-- R470. A TARGET write or MCTP message requests the Full power state. -/
  | pwrTargetFull
  /-- R470. A TARGET write or MCTP message requests the Dark power state. -/
  | pwrTargetDark
  /-- R470. A TARGET write or MCTP message requests the Ghost light power state. -/
  | pwrTargetGhostLight
  /-- R470. After DIM_IDLE_US of idleness with DIM_AUTO set the device enters Dimmed. -/
  | dimIdleExpiry (now : Nat)
  /-- R471. A power state transition completes and any held request is applied. -/
  | powerTransitionDone (now : Nat)
  /-- R471. Runs not ended within 100 ms refuse entry to Dark and admission resumes. -/
  | darkEntryTimeout (now : Nat)
  /-- R501. Every 100 µs junction sensors are read and an over-limit reading raises an event. -/
  | junctionTempRead (readings : List Int)
  /-- R477. RST_N held low for 10 µs resets the device, ending running items without records. -/
  | rstNAssert (lowNs : Nat)
  /-- R480. RST_N deassertion starts bring-up: keys, firmware, prompt book, repairs and memory training. -/
  | bringUp (found : BootFindings) (now : Nat)
  /-- R480. Once memories are ready and PERST_N is high the host port is released for training. -/
  | hostPortRelease (now : Nat)
  /-- R480. The translation map is rebuilt from the journal and the flash tier becomes ready. -/
  | flashReady (journalOk : Bool)
  /-- R484. Writing the reset key starts a warm reset within 10 µs. -/
  | deviceReset (path : ResetPath) (key : BitVec 32)
  /-- R485. A pre-seal read through the setup aperture returns this member's device memory. -/
  | apertureRead (off size : Nat)
  /-- R485. A pre-seal write through the setup aperture writes this member's device memory. -/
  | apertureWrite (off size : Nat) (data : List Byte)
  /-- R470. The board removes power or the rails leave tolerance, ending all volatile state, cutting off unfinished flash programs before their map commit, and making the next reset cold. -/
  | powerRemoval
  /-- R362. A received packet carrying a reserved TYPE is dropped and counted in FAB_NOROUTE_DROPS. -/
  | reservedPacketType (pkt : Packet)
  /-- R464. At the invasive level, a debug-port write to an address of this member, including a hardened register, writes it and updates the configuration image. -/
  | debugPortWrite (addr : Nat) (data : List Byte)
  deriving DecidableEq, Repr

end Sys2Proof
end

