-- ==== Sys2Proof/Config.lean ====
section
/-! DEFINITION. What an implementation fixes and the spec leaves open: uninterpreted constants without a body, so that
no proof can depend on a value of them. -/
namespace Sys2Proof

/-- Which value within 1 ulp EXP2 gives for an FP32 operand code (R207; log entry 9). -/
opaque Config.exp2Choice : Nat → Nat

/-- Cycles an item spends beyond those its chapter computes: stalls, waits on slower endpoints, retries (R68, R152,
R278), by draw (log entry 12). -/
opaque Config.stallCycles : Nat → Nat

/-- DRAM row that holds a 64-byte line of device memory: the mapping of rows is not visible to software (R250, R252). -/
opaque Config.dramRow : Nat → Nat

/-- Bank of the wings that holds a line: the spec gives the wings no bank count (Table 15.2). -/
opaque Config.wingsBank : Nat → Nat

/-- Post-package repairs that a stack or a package still has (Table 15.2), by stack, or 8 + package. -/
opaque Config.pprSpares : Nat → Nat

/-- Bytes of a trace record beyond its subject, whose layout the spec does not give (R463; log entry 19). -/
opaque Config.tracePad : Nat → Nat

/-- Rank at which a ring reduction starts, by draw: the engine chooses it at run time (R403). -/
opaque Config.ringStart : Nat → Nat

/-- Bytes that an attention item leaves in its scratch (R190, R193: the spec says that pages are fetched there and not
where; log entry 33). -/
opaque Config.scratch : Nat → Nat

/-- FP32 code that a Winograd item with ACC converts, from the codes of its output transform and of the existing element
(R239 gives no rule for ACC; log entry 34). -/
opaque Config.winoAcc : Nat → Nat → Nat

/-- SHA-384, and the verification of an ECDSA P-384 signature by a public key over a digest, as the standards that R452
names define them (log entry 37). -/
opaque Config.sha384 : List Byte → List Byte
opaque Config.ecdsaOk : List Byte → List Byte → List Byte → Bool

/-- SHA-384 of the root key, and of the mask ROM itself (R453, Table 16.11). -/
opaque Config.rootHash : List Byte
opaque Config.romDigest : List Byte

/-- HKDF-SHA-384 of keying material, salt, info and length; the device secret that the SRAM PUF and its helper data give
(R450; log entry 37). -/
opaque Config.hkdf : List Byte → List Byte → List Byte → Nat → List Byte
opaque Config.deviceSecret : List Byte → List Byte

/-- The certificate chain of slot 0: the device certificate of region 0x05 and the alias certificate, which the identity key
signs for the alias key; the record of region 0x06, of the owner's key and of the owner seed wrapped under the storage
key, by draw; the parts of SPDM responses that this manual does not state, by draw (R302, R450, R466; log entry 52). -/
opaque Config.certChain : List Byte → List Byte → List Byte → List Byte
opaque Config.enrolment : List Byte → List Byte → List Byte → Nat → List Byte
opaque Config.spdmRest : Nat → List Byte

/-- Bytes of the security block's random generator (R450, R460), by draw. -/
opaque Config.random : Nat → Nat

/-- Whether a code detects a pattern of errors beyond those that Table 9.2, R258 and R259 name, by draw and place (log
entry 41). -/
opaque Config.eccDetects : Nat → Nat → Nat

/-- Channel of an LPDDR package that holds a 64-byte line: the interleave is not visible to software (R252; log entry 14). -/
opaque Config.lpddrChannel : Nat → Nat

/-- What the configuration image says of the LPDDR population, as `LPDDR_CFG` codes it, of `CXLMEM_SIZE`, of P_HOLD_W and of
T_PROG_US: the spec gives the image no layout (R302, R480; log entry 3). -/
opaque Config.cfgLpddr : List Byte → Nat
opaque Config.cfgWindow : List Byte → Nat
opaque Config.cfgHoldW : List Byte → Nat
opaque Config.cfgProgUs : List Byte → Nat

/-- The flash geometry in the configuration image (R282, R284, R290, R291, R302): recorded channels by bit, chip enables and
LUNs less 1, blocks per LUN, 64 KiB units per block, overprovisioning in percent, and the endurance and read-disturb
limits of a block. -/
opaque Config.cfgFlashMask : List Byte → Nat
opaque Config.cfgFlashCes : List Byte → Nat
opaque Config.cfgFlashLuns : List Byte → Nat
opaque Config.cfgFlashBlocks : List Byte → Nat
opaque Config.cfgFlashUnits : List Byte → Nat
opaque Config.cfgOpPct : List Byte → Nat
opaque Config.cfgEndurance : List Byte → Nat
opaque Config.cfgReadLimit : List Byte → Nat

/-- Trim of a partition's voltage in the prompt book, in mV above the lowest of −30 (R492; log entry 3). -/
opaque Config.cfgTrim : List Byte → Nat → Nat

/-- Bytes of the repair map region from the bindings, the repaired units and the remapped lanes that it records: the spec
gives the map no layout (R302). -/
opaque Config.repairMapBytes : List (Nat × Nat) → List (Nat × Nat × Nat) → List Nat → List Byte

/-- Bytes that the flash tier reads as under another media key than the one they were written under: by the two keys, draw
and place (R450, R457). -/
opaque Config.rekeyed : List Byte → List Byte → Nat → Nat → Nat

/-- A parameter set that an access unit carries: its number among those of its stream, its content, and whether it is
free of errors (R321). -/
structure ParamSet where
  id : Nat
  content : List Byte
  good : Bool
  deriving Inhabited

/-- What the video standards that R307 names make of an access unit: the sequence headers it activates, the unsupported tools
it uses, its parameter sets, what its parser carries on, how many pictures it gives, and luma samples and coded bits of each
coded picture (log entry 42). -/
structure AuInfo where
  seqs : List SeqHeader
  tools : List VideoTool
  sets : List ParamSet
  token : List Byte
  pics : Nat
  coded : List (Nat × Nat)
  deriving Inhabited

/-- The errors that a decode engine detects (R321). -/
inductive SyntaxFault where
  | forbiddenValue | outOfStep | addressOrder | parameterSet | container | missingReference
  deriving DecidableEq, Repr, Inhabited

/-- A slice, slice segment or tile of a picture: whether its picture or frame header lets it be placed; a dependent segment of
HEVC; first address and count in the order of its standard; the 16 × 16 blocks it codes; the parameter sets and pool buffers
that it refers to; the bytes it declares and those its container has for it; and where its own syntax or its entropy decoder
fails, with the blocks decoded before (R321, R322). -/
structure CodedUnit where
  placed : Bool
  dependent : Bool
  addr : Nat
  count : Nat
  blocks : List Nat
  sets : List Nat
  refs : List Nat
  size : Nat
  room : Nat
  fails : Option (Bool × Nat)
  deriving Inhabited

/-- One picture as its standard decodes it: samples of the blocks that are decoded, its two fields where it is coded as such,
its units and how many addresses it has, whether it is intra-only, AV1's LAST_FRAME, each block's motion vector (reference
order count, eighths of a luma sample), and the buffers and blocks that each block's prediction reads. -/
structure DecPic where
  pic : Picture
  fields : Option (List (List (List Nat)) × List (List (List Nat)))
  units : List CodedUnit
  span : Nat
  intra : Bool
  last : Option Nat
  mvs : List (Option (Nat × Int × Int))
  reads : List (List (Nat × Nat))
  deriving Inhabited

/-- What a standard's marking and output process does after a picture: the buffer that takes it, the marks of every
buffer, and the buffers released in output order. -/
structure DpbOut where
  store : Nat
  marks : List (Nat × Nat)
  release : List Nat
  deriving Inhabited

/-- The standards' parsing, decoding, marking and film grain, uninterpreted (log entry 42): by codec, parser state,
parameter sets in force, and access unit; of a picture, the planes with its grain. -/
opaque Config.parseAu : Nat → List Byte → List (Nat × List Byte) → List Byte → AuInfo
opaque Config.decodePic : Nat → List Byte → List (Nat × List Byte) → List (Nat × Picture) → List Byte → Nat → DecPic
opaque Config.dpb : Nat → List Byte → List (Nat × Nat × Nat) → List Byte → Nat → DpbOut
opaque Config.filmGrain : List Byte → Picture → List (List (List Nat))

/-- Bytes that an engine leaves in the internal part of a stream block and in pool buffers (R312, R314), by draw. -/
opaque Config.codecByte : Nat → Nat

/-- How a mean that is no whole sample, or a vector half way between two, is rounded in concealment (R323: not stated; log
entry 43). -/
opaque Config.concealRound : Nat → Nat → Nat

/-- Tools that the encode engines use (Table 11.3). -/
inductive EncTool where
  | ctb64 | codingUnit8to64 | transform4to32 | intra35 | merge | amvp | tmvp | quarterSample | deblocking | sao | cabac | iSlice | pSlice
  | superblock64 | directional | smooth | paeth | chromaFromLuma | singleReference | cdef
  | bSlice | tiles | wavefront | dependentSegments | scalingLists | pcm | transformSkip | longTerm | asymmetric
  | compound | loopRestoration | superres | filmGrain | intraBlockCopy | palette | switchFrame | superblock128
  deriving DecidableEq, Repr, Inhabited

/-- What a stream that the encode engines produce keeps to (R309, R328, R330): profile, level, bit depth, chroma format, the
tools it may use, block size, widest tile column, quantizer, siting and colour signalling, and the reference pictures. -/
structure EncRules where
  profile : VideoProfile
  level : Nat
  depth : Nat
  chroma : Nat
  tools : List EncTool
  tileColumn : Nat
  quantizer : Nat
  siting : Nat
  matrix : Nat
  full : Bool
  refs : Nat
  deriving DecidableEq, Repr, Inhabited

/-- The encoder's coding of one block row (rules of its stream, configuration, committed pictures, samples, rows before it),
its filler of a number of bits, its reconstruction, and whether a configuration keeps to the level it declares (R309, R328,
R335, R336; log entry 42). -/
opaque Config.encodeRow : EncRules → List Byte → List (Nat × Picture) → List (List (List Nat)) → List (List Byte) → List Byte
opaque Config.encodeFiller : Nat → Nat → List Byte
opaque Config.encodeRecon : Nat → List Byte → List (Nat × Picture) → List (List Byte) → List (Nat × Picture)
opaque Config.levelOk : Nat → List Byte → Bool

end Sys2Proof
end

