-- ==== Sys2Proof/Machine/Bits.lean ====
section
/-! DEFINITION. Checks and generators over bits that several chapters name: CRC-32 (R98, R212, R355), CRC-8 (R499) and
Philox-4x32-10 (R124, R338). -/
namespace Sys2Proof.Machine

/-- One shift of the reflected CRC-32 register. -/
def crc32Shift : Nat → Nat → Nat
  | 0, c => c
  | n + 1, c => crc32Shift n (if c % 2 = 1 then Nat.xor (c / 2) 0xEDB88320 else c / 2)

/-- CRC-32 with the IEEE 802.3 polynomial. PRESUMED (log entry 7): reflected, all-ones start and final inversion. -/
def crc32 (bs : List Byte) : Nat :=
  Nat.xor (bs.foldl (fun c b => crc32Shift 8 (Nat.xor c b.toNat)) 0xFFFFFFFF) 0xFFFFFFFF

/-- One shift of the CRC-8 register of R499. -/
def crc8Shift : Nat → Nat → Nat
  | 0, c => c
  | n + 1, c => crc8Shift n (if c ≥ 128 then Nat.xor (c * 2 % 256) 0x07 else c * 2)

/-- CRC-8 with polynomial 0x07 and initial value 0 over 24 data bits (R499). DEDUCED (log entry 8): the bytes are taken
in the order sent, low byte first, most significant bit first within a byte. -/
def crc8 (bs : List Byte) : Nat := bs.foldl (fun c b => crc8Shift 8 (Nat.xor c b.toNat)) 0

/-- The state of a Philox round: four counter words and two key words. -/
structure Philox where
  c0 : Nat
  c1 : Nat
  c2 : Nat
  c3 : Nat
  k0 : Nat
  k1 : Nat
  deriving DecidableEq, Repr

/-- One Philox-4x32 round, with the published multipliers. PRESUMED (log entry 7). -/
def Philox.round (p : Philox) : Philox :=
  let a := 0xD2511F53 * p.c0
  let b := 0xCD9E8D57 * p.c2
  { c0 := Nat.xor (Nat.xor (b / 2 ^ 32) p.c1) p.k0
    c1 := b % 2 ^ 32
    c2 := Nat.xor (Nat.xor (a / 2 ^ 32) p.c3) p.k1
    c3 := a % 2 ^ 32
    k0 := (p.k0 + 0x9E3779B9) % 2 ^ 32
    k1 := (p.k1 + 0xBB67AE85) % 2 ^ 32 }

/-- `n` rounds. -/
def Philox.rounds : Nat → Philox → Philox
  | 0, p => p
  | n + 1, p => Philox.rounds n p.round

/-- Word 0 of Philox-4x32-10 of a counter and a key (R124, R338). -/
def philox (c0 c1 c2 c3 k0 k1 : Nat) : Nat :=
  (Philox.rounds 10
    { c0 := c0 % 2 ^ 32, c1 := c1 % 2 ^ 32, c2 := c2 % 2 ^ 32, c3 := c3 % 2 ^ 32,
      k0 := k0 % 2 ^ 32, k1 := k1 % 2 ^ 32 }).c0

/-- The 16 random bits of stochastic rounding (R124). -/
def srDraw (seed tag idx : Nat) : Nat :=
  philox (idx % 2 ^ 32) (idx / 2 ^ 32) tag 0 (seed % 2 ^ 32) (seed / 2 ^ 32) % 65536

/-- ⌊log2 n⌋, 0 for 0: structural, so that the kernel evaluates it. -/
def ilog2 (n : Nat) : Nat := Nat.log2 n

/-- ⌈log2 n⌉ for n ≥ 1. -/
def clog2 (n : Nat) : Nat := if n ≤ 1 then 0 else Nat.log2 (n - 1) + 1

/-- Integer square root by bisection of bits, from bit `n - 1` down. -/
def isqrtBits : Nat → Nat → Nat → Nat
  | 0, _, r => r
  | n + 1, v, r => isqrtBits n v (if (r + 2 ^ n) * (r + 2 ^ n) ≤ v then r + 2 ^ n else r)

/-- ⌊√v⌋. -/
def isqrt (v : Nat) : Nat := isqrtBits (Nat.log2 v / 2 + 1) v 0

end Sys2Proof.Machine
end

