-- ==== Sys2Proof/Machine/Cells.lean ====
section
/-! DEFINITION. Sparse storage: lists of (key, value) pairs in one canonical form, keys strictly rising and no entry
equal to what an unlisted key reads as. Every memory of the part, and every sparse table, is held this way. -/
namespace Sys2Proof.Machine

/-- The value listed at a key, if any. -/
def cellFind {α : Type} (k : Nat) : List (Nat × α) → Option α
  | [] => none
  | (j, v) :: t => if j = k then some v else cellFind k t

/-- What a key reads as: its entry, or `d` where it is unlisted. -/
def cellGet {α : Type} (d : α) (l : List (Nat × α)) (k : Nat) : α :=
  match cellFind k l with
  | some v => v
  | none => d

/-- The entries of consecutive values from key `a`, leaving out those equal to `d`. -/
def cellBlock {α : Type} [DecidableEq α] (d : α) : Nat → List α → List (Nat × α)
  | _, [] => []
  | a, v :: t => if v = d then cellBlock d (a + 1) t else (a, v) :: cellBlock d (a + 1) t

/-- The list with keys `a .. a + vs.length - 1` replaced by `vs`. -/
def cellWrite {α : Type} [DecidableEq α] (d : α) (l : List (Nat × α)) (a : Nat) (vs : List α) : List (Nat × α) :=
  l.filter (fun c => decide (c.1 < a)) ++ cellBlock d a vs ++ l.filter (fun c => decide (a + vs.length ≤ c.1))

/-- The list with one key set. -/
def cellSet {α : Type} [DecidableEq α] (d : α) (l : List (Nat × α)) (k : Nat) (v : α) : List (Nat × α) :=
  cellWrite d l k [v]

/-- The list with one key listed with a value, or unlisted. -/
def cellPut {α : Type} (l : List (Nat × α)) (k : Nat) (v : Option α) : List (Nat × α) :=
  l.filter (fun c => decide (c.1 < k)) ++ (v.toList.map fun x => (k, x)) ++ l.filter (fun c => decide (k < c.1))

/-- The list with keys `a .. a + n - 1` unlisted. -/
def cellClear {α : Type} (l : List (Nat × α)) (a n : Nat) : List (Nat × α) :=
  l.filter (fun c => decide (c.1 < a) || decide (a + n ≤ c.1))

/-- `n` consecutive values from key `a`. -/
def cellRead {α : Type} (d : α) (l : List (Nat × α)) (a n : Nat) : List α :=
  let m := l.filter (fun c => decide (a ≤ c.1) && decide (c.1 < a + n))
  (List.range n).map fun i => cellGet d m (a + i)

/-- The canonical form: keys strictly rising, no entry equal to `d`. -/
def cellWf {α : Type} [DecidableEq α] (d : α) : List (Nat × α) → Bool
  | [] => true
  | [(_, v)] => decide (v ≠ d)
  | (a, v) :: (b, w) :: t => decide (v ≠ d) && decide (a < b) && cellWf d ((b, w) :: t)

/-- Removal of one value from a list of distinct values. -/
def dropVal {α : Type} [DecidableEq α] (x : α) (l : List α) : List α := l.filter fun y => decide (y ≠ x)

/-- Addition of one value to a list of distinct values. -/
def addVal {α : Type} [DecidableEq α] (x : α) (l : List α) : List α := if x ∈ l then l else l ++ [x]

/-- No value occurs twice. -/
def allDistinct : List Nat → Bool
  | [] => true
  | x :: t => !t.contains x && allDistinct t

/-- A list with its `i`-th element replaced by what `f` makes of it. -/
def modifyAt {α : Type} (f : α → α) : Nat → List α → List α
  | _, [] => []
  | 0, x :: t => f x :: t
  | i + 1, x :: t => x :: modifyAt f i t

end Sys2Proof.Machine
end

