-- ==== Sys2Proof/Machine/State.lean ====
section
/-! DEFINITION. The state of the block: plain data, everything the spec gives the Tesel, and the queue of commands that
wait. Registers are held in one register file at their own offsets (R509 to R518); what a register reports is held there
and nowhere else. -/
namespace Sys2Proof.Machine

/-- Why a step could stop with a fault. No rule of the spec stops the block, and no meaning raises this. -/
inductive Fault where
  /-- Raised by no one: a queue or a table that breaks the model's own form. Safe: it would only stop a run. -/
  | brokenModel
  deriving DecidableEq, Repr

/-- Why a command could have no meaning. -/
inductive Refusal where
  /-- Raised only by the dispatcher, for a command that has no meaning yet. Safe: it only stops a run. -/
  | notModelled (mnemonic : String)
  deriving DecidableEq, Repr

/-- The setup registers (R509 to R514). -/
structure RegFile where
  /-- Registers that differ from their reset value, by offset. -/
  vals : List (Nat × DWord)
  /-- Lower halves of 64-bit registers written since the last upper-half write (R511). -/
  lows : List (Nat × Word)
  /-- Upper halves latched by a host read of the lower half (R511). -/
  latch : List (Nat × Word)
  /-- The configuration image: value of every hardened register as the stage manager last took it (R431, R432). -/
  image : List (Nat × DWord)
  /-- Whether the image exists: it is taken at the seal (R432). -/
  imageHeld : Bool
  /-- Hardened registers whose parity has failed and that nothing has read since (R432). -/
  parityBad : List Nat
  /-- `SEC_MBOX`, by byte (R476). -/
  mbox : List Host.Cell
  /-- The MSI-X table, by 4-byte word (R509). -/
  msixTable : List (Nat × Word)
  /-- Vectors whose pending bit is set (R509). -/
  msixPending : List Nat
  deriving DecidableEq, Repr

/-- A change of bias waiting for host accesses in flight (R37). -/
structure BiasChange where
  run : Nat
  item : Nat
  first : Nat
  count : Nat
  device : Bool
  deriving DecidableEq, Repr

/-- The host port (R32 to R38, R468, R477). -/
structure HostPort where
  /-- The link trained CXL; otherwise PCIe endpoint operation (R33). -/
  cxl : Bool
  /-- Released for training (R480). -/
  released : Bool
  up : Bool
  /-- Host-resident rings are halted until the next device reset (R38). -/
  lost : Bool
  /-- Negotiated width (lanes) and rate (GT/s) of the link, 0 until it has trained (R33). -/
  width : Nat
  rate : Nat
  /-- The IDE streams that are up (R468). -/
  ide : List IdeStream
  /-- Window regions of 2 MiB in device bias; every other one is in host bias (R37). -/
  deviceBias : List Nat
  biasChanges : List BiasChange
  deriving DecidableEq, Repr

/-- A descriptor read into the device (R46), first run or continuation. -/
structure Fetched where
  /-- Free-running submission index. -/
  index : Word
  /-- The ring it was read from. -/
  ring : Nat
  /-- Its 128 bytes; empty when the fetch failed (R56). -/
  bytes : List Byte
  /-- Status every item takes without running (R55, R56, R58, R62, R87, R519), with its DETAIL. -/
  verdict : Option (Nat × Nat)
  /-- The fence-out is not applied (R59). -/
  noFence : Bool
  /-- The items this run is to run. -/
  todo : List Nat
  /-- A requeued continuation (R63). -/
  continuation : Bool
  /-- Its records carry FALLBACK (R95). -/
  fallback : Bool
  /-- A descriptor of a fallback program: the ring whose step runs it (R95). -/
  owner : Option Nat
  /-- Time of fetch or requeue, ns (R106). -/
  since : Nat
  /-- Largest final status of the items its earlier runs ended (R59). -/
  worst : Nat
  /-- FENCE_IN that this descriptor also waits for, 0 for none: the step's first descriptor's (R95). -/
  alsoFence : Nat
  /-- Order of fetching over all rings (R94). -/
  order : Nat
  /-- Cue in which it reached the ring head (R58). -/
  headCue : Option Nat
  /-- Time spent at the ring head with its fence-in unmet, ns (R106). -/
  fenceWait : Nat
  /-- Slot at whose edge it stood ready at its ring head and untouched allowance could be taken whole (R88). -/
  atEdge : Option Nat := none
  deriving DecidableEq, Repr

/-- What the monitor has chosen for a batch step (R94, R95). -/
inductive StepChoice where
  | undecided
  | program
  | fallback
  deriving DecidableEq, Repr

/-- A batch step of a ring (R93 to R95). -/
structure StepMon where
  /-- Index of its first descriptor, and of its last once that has been fetched. -/
  first : Word
  last : Option Word
  /-- Order of fetching of its first descriptor (R94). -/
  order : Nat := 0
  /-- Its descriptors that have written their final summaries. -/
  finished : List Word
  /-- Slot in which it arrived. -/
  arrived : Nat
  choice : StepChoice
  /-- Predicted at a boundary to miss its deadline. -/
  missPredicted : Bool
  /-- Largest status of the fallback program's runs, and the program's descriptors that have not finished (R95). -/
  worst : Nat
  programLeft : Nat
  /-- The last summary of the step fell, or would fall, in slot D or later (R105). -/
  late : Bool
  deriving DecidableEq, Repr

/-- One ring (R42 to R70, R520). -/
structure Ring where
  /-- P: last accepted producer index (R48). -/
  prod : Word
  /-- C: consumer index. -/
  cons : Word
  /-- Q: completion producer index. -/
  cqProd : Word
  /-- K: last accepted completion consumer index. -/
  cqCons : Word
  /-- Last cancel mark in force, and whether one has been written (R62). -/
  cancel : Word
  marked : Bool
  /-- Records discarded since reset (R38, R520). -/
  discarded : Nat
  /-- Distinct ignored values since reset (R48). -/
  ignored : Nat
  /-- Failing producer and consumer values already counted (R48). -/
  badProd : List Word
  badCons : List Word
  /-- 0 running, 1 halted by host loss, 2 halted by curtain (Table 2.6). -/
  state : Nat
  /-- Completion records held for executing runs (R66). -/
  held : Nat
  /-- Records written since the last interrupt, and the time of the first of them, ns (R70). -/
  sinceIrq : Nat
  firstRec : Option Nat
  /-- Vector-256 events of this ring already raised in this cue (R48, R520): ignored value, bad line, lost record. -/
  raised : List Nat
  /-- Fetched descriptors in dispatch order; the first is the ring head. -/
  fifo : List Fetched
  /-- Steps begun and not completed (R93). -/
  steps : List StepMon
  /-- The last step begun was predicted to miss at some boundary (R94). -/
  lastMissed : Bool
  /-- Doorbell values held while the device is in Dark or Ghost light (R472). -/
  heldLine : Option DoorbellLine
  deriving DecidableEq, Repr

/-- Where an item of a run stands. -/
inductive ItemPhase where
  | unstarted
  /-- Started, waiting for remote data, an engine or an event. -/
  | running
  /-- Its effect is made; it waits for acknowledgements of its remote writes (R378). -/
  | acking (status detail : Nat)
  | ended (status detail : Nat)
  deriving DecidableEq, Repr

/-- Lines widened and denied and outliers moved to groups by an item (Table 4.9). -/
structure Prec where
  widened : Nat
  denied : Nat
  overflowed : Nat
  deriving DecidableEq, Repr

/-- No line widened or denied. -/
def Prec.zero : Prec := ⟨0, 0, 0⟩

/-- One item of a run. -/
structure Item where
  index : Nat
  phase : ItemPhase
  /-- Its own cycles, once ended (R67). -/
  cycles : Nat
  /-- Lines that it has widened or denied, and outliers that it has moved (R129, R130). -/
  prec : Prec := Prec.zero
  /-- Remote ranges that have arrived for it: global address and bytes (R378). -/
  arrived : List (Nat × List Byte)
  /-- Where a multi-step item stands (fences, floods, slices, halves), as its home chapter uses it. -/
  stage : Nat
  /-- What it read once as it began and keeps while it waits (R156, R183, R193): by the reader's own key. -/
  noted : List (Nat × List Nat) := []
  /-- Steps and exchanges with other members that its work has come to, as it runs now (R178). -/
  cursor : Nat := 0
  /-- What of its run's used time it has spent waiting for partners' packets (R407). -/
  partners : Nat := 0
  /-- Once ended: when, ns, and where it stood before (R64). -/
  endedAt : Option (Nat × ItemPhase) := none
  deriving DecidableEq, Repr

/-- A run of a descriptor (R45, R61 to R69). -/
structure Run where
  id : Nat
  desc : Fetched
  items : List Item
  /-- Generations in force at dispatch (R69, R85). -/
  fnGen : Nat
  biasGen : Nat
  chorusGen : Nat
  /-- Slot in which it was dispatched: its epoch (R181). -/
  cue : Nat
  /-- Admitted, and waiting for its engines: not yet dispatched (R61, R138, R310). -/
  waiting : Bool := false
  /-- Time of dispatch, ns. -/
  startNs : Nat
  /-- What the run has used of its timeout, in ns × MHz (R61). -/
  used : Nat := 0
  /-- Its charge is of this group (Table 3.8), none for uncharged work. -/
  group : Option Nat
  /-- Charged from the pooled budget after the midpoint (R102). -/
  pooled : Bool
  charge : Nat
  spilled : Bool
  /-- Logical tiles and engines claimed (R138, R310). -/
  tiles : List Nat
  engines : List Nat
  /-- Generation of its context when dispatched (R382). -/
  ctxGen : Nat
  deriving DecidableEq, Repr

/-- The cue timer and the fabric-wide tables it switches (R72 to R85, R96 to R99). -/
structure Cue where
  /-- Consecutive valid messages (Table 3.3). -/
  lockCount : Nat
  /-- A route-table generation announced after the detach has taken effect (Table 3.3). -/
  routeSinceDetach : Bool
  /-- The route announcement now held was first received after the detach. -/
  routeNews : Bool
  /-- A master that stopped emitting is a follower until reset (R80). -/
  formerMaster : Bool
  /-- Period in force, µs, and mode being followed (R78). -/
  periodUs : Nat
  blocking : Bool
  /-- Announcements last received or, on the emitter, carried (R84). -/
  annBlk : Announce
  annChorus : Announce
  annRoute : Announce
  /-- Ranks heard and the cue of each one's last message (R76). -/
  heard : List (Nat × Nat)
  /-- Consecutive cues without a valid message from a lower rank (R80). -/
  quiet : Nat
  /-- A valid message has arrived for the present cue, as seen by the miss rule (R78). -/
  gotValid : Bool
  /-- Time of the last local edge, ns. -/
  edgeNs : Nat
  /-- Fabric time less block time, ns, as the last valid message gave it (R76). -/
  skewNs : Int
  /-- A charged run has been allowed: the member has locked since reset (R78). -/
  charged : Bool
  /-- Blocking generation in force, its cycle length and entries, and the buffer they came from (R96 to R99). -/
  blkGen : Nat
  blkCycle : Nat
  blkEntries : List DWord
  blkBuffer : Option Nat
  blkHold : Bool
  /-- Blocking generation that the hold waits for (R98). -/
  blkWant : Option Nat
  deriving DecidableEq, Repr

/-- One allowance of a slot (R88, R92, R100): a context's, or a context's on one ring, in every engine group. -/
structure Allowance where
  ctx : Nat
  ring : Option Nat
  whole : List Nat
  left : List Nat
  deriving DecidableEq, Repr

/-- Admission (R86 to R103). -/
structure Sched where
  /-- Group budgets as fixed at the last boundary (Table 3.8). -/
  budget : List Nat
  allowances : List Allowance
  /-- Unreserved remainder, or the pooled budget after the midpoint, by group (R92). -/
  pool : List Nat
  poolWhole : List Nat
  pastMid : Bool
  /-- The present slot is an intermission on this member (R101). -/
  intermission : Bool
  /-- The enabled deadline contexts' shares summed to more than 100 at the last boundary (R92). -/
  scaled : Bool
  /-- Rings in the order in which best-effort work is next admitted (R92). -/
  lastRing : Nat
  /-- Contexts that are runnable (R60, R486). -/
  runnable : List Nat
  /-- Contexts torn down and not restarted (R383). -/
  torn : List Nat
  /-- Holds of STOP: context, member that holds, resume cue (R377). -/
  stops : List (Nat × Nat)
  /-- Charge of the runs pre-empted since the last boundary, by group (R102). -/
  freed : List Nat
  nextRun : Nat
  nextOrder : Nat
  deriving DecidableEq, Repr

/-- A context's accounting block (Table 3.16). -/
structure Account where
  waitUs : Nat
  runs : Nat
  preemptions : Nat
  fallbacks : Nat
  overruns : Nat
  spills : Nat
  misses : Nat
  steps : Nat
  /-- Bins of the wait histogram, by bin (Table 3.17). -/
  hist : List (Nat × Nat)
  deriving DecidableEq, Repr

/-- The temperature history of a stack (R266). -/
structure Thermal where
  /-- Consecutive readings below 93.0 °C with a working sensor (Table 9.6). -/
  coolRun : Nat
  /-- Thermal point imposed, as an operating point code (Table 3.15). -/
  point : Nat
  deriving DecidableEq, Repr

/-- The memories of the part, their codes and their owners (R249 to R270). -/
structure Mem where
  /-- HBM and LPDDR by bits 44:0 of the global address (Table 1.9); an unlisted byte reads 0 (R479). -/
  dev : List Host.Cell
  /-- Tile stores and wings, keyed as `sramTile` and `sramWing` lay them out. -/
  sram : List Host.Cell
  /-- Uncorrectable units by first byte: 16 bytes of HBM, 8 of LPDDR, 8 of SRAM (R262). -/
  badDev : List Nat
  badSram : List Nat
  /-- Lanes marked and not remapped (R257): (stack × 64 + pseudo-channel) × 5 + lane. -/
  marked : List Nat
  /-- Lanes remapped to the channel's spare, by the same key. -/
  remapped : List Nat
  /-- Errors that the cells of a 64-byte line keep showing, by the key of the line (R256, R258), and bits in error in a
  64-bit word of SRAM (R259). -/
  stuck : List (Nat × List CellError)
  stuckSram : List (Nat × Nat)
  /-- Errors reported by the on-die codes (R255). -/
  onDieReports : Nat
  /-- Recent lane parity failures: lane key and time, ns (R257). -/
  laneFails : List (Nat × Nat)
  /-- Granule owners: granule, and 1 + context, or 65 for device-reserved (R270). A granule is named by its tier and
  offset bits as the key `dev` divided by 2 MiB. -/
  owners : List (Nat × Nat)
  /-- Corrected events not logged since the last entry, by type and unit (R265). -/
  corrected : List (Nat × Nat)
  /-- Types and units of corrected events logged in this cue. -/
  loggedNow : List Nat
  /-- Per-stack thermal state (R266). -/
  thermal : List (Nat × Thermal)
  /-- Contexts whose badly placed widening reserve has raised its device event (R128). -/
  widenRaised : List Nat
  /-- Accepted joins in link order, by the pool's tier and the record's address, and those of them that the last edge took
  for deciding (R188, R189). -/
  joins : List (Nat × Nat)
  deciding : List (Nat × Nat)
  /-- Calibration stalls taken by a resource in the present 100 ms (R446). -/
  calibrated : List (CalResource × Nat)
  deriving DecidableEq, Repr

/-- A tile program of an item. It is made when the item has passed its checks, gets its LUN and block when its batch passes,
and its data when the item has read its source; its map commit follows (R286, R288, R294). -/
structure Program where
  run : Nat
  item : Nat
  ctx : Nat
  tile : Nat
  /-- Its batch has passed the hold-up check. -/
  passed : Bool := false
  lun : Nat := 0
  /-- Block that takes it: none while no block is free (R293). -/
  block : Option Nat := none
  data : Option (List Byte) := none
  deriving DecidableEq, Repr

/-- A tile that another member programs, whose packets have begun to arrive (R277, R361; log entry 36). -/
structure RemoteTile where
  id : Nat
  src : Nat
  ctx : Nat
  tile : Nat
  packets : List Packet
  deriving DecidableEq, Repr

/-- A tile that another member reads part by part: its content as the read began, and the parts given (R286). -/
structure RemoteRead where
  src : Nat
  ctx : Nat
  tile : Nat
  bytes : List Byte
  given : List Nat
  deriving DecidableEq, Repr

/-- The flash population and limits that the configuration image in force records (R282, R284, R290, R291). -/
structure FlashGeom where
  /-- Recorded targets: channel × 4 + chip enable. -/
  recorded : List Nat
  ces : Nat
  luns : Nat
  /-- Blocks of a LUN and 64 KiB units of a block. -/
  blocks : Nat
  units : Nat
  opPct : Nat
  endurance : Nat
  readLimit : Nat
  deriving DecidableEq, Repr

/-- The flash tier and its translation layer (R281 to R298). A LUN is named by target × 8 + LUN, a block by LUN × 2^21 + its
place. -/
structure Flash where
  geom : FlashGeom
  /-- Targets in use: recorded, found and trained (R282). -/
  targets : List Nat
  /-- Contents of logical tiles: tile × 65536 + byte; an unlisted byte reads 0 (R286). -/
  cells : List Host.Cell
  /-- Mapped tiles and the context that owns each (R287). -/
  owners : List (Nat × Nat)
  /-- Codewords that stay uncorrectable, and those that need soft decoding: tile × 16 + codeword (R283, R292). -/
  badWords : List Nat
  softWords : List Nat
  /-- Tile programs that wait for their batch, their data or their map commit (R288, R296). -/
  programs : List Program
  /-- Trims behind their map commit: run, item, first tile, tile count (R300). -/
  trims : List (Nat × Nat × Nat × Nat)
  /-- Tiles that other members are programming, and reading; requests that came before the tier was ready. -/
  inbound : List RemoteTile
  nextInbound : Nat
  outbound : List RemoteRead
  early : List Packet
  /-- Stage manager batches deferred (R297). -/
  deferred : List FlashWork
  /-- Erase count by block (R290), and reads since the last erase (R291). -/
  erases : List (Nat × Nat)
  reads : List (Nat × Nat)
  /-- Block that holds a logical tile (R289). -/
  places : List (Nat × Nat)
  /-- Units programmed in a block since its last erase: a block not listed holds none. -/
  filled : List (Nat × Nat)
  /-- Factory bad blocks, and blocks retired since (R292). -/
  badFactory : List Nat
  badGrown : List Nat
  /-- Blocks whose tiles are to be relocated, and whether R291 asks for it; blocks queued for erase; retirement candidates
  (R283, R291, R292). -/
  wanted : List (Nat × Bool)
  queued : List Nat
  candidates : List Nat
  relocDisturb : Nat
  progFail : Nat
  uncorrectable : Nat
  /-- `HOLDUP_SENSE`: sequence count of the last frame and time of the last good one (R295, R499). -/
  senseSeq : Option Nat
  senseAt : Option Nat
  /-- `PWR_FAIL_N` is low, or has not yet been high for 10 ms (R298). -/
  failing : Bool
  deriving DecidableEq, Repr

/-- A unit that can be accused of a fault (Table 15.2): its kind, number and sub-unit as Table 15.3 codes them. -/
structure UnitId where
  kind : Nat
  unit : Nat
  sub : Nat
  deriving DecidableEq, Repr

/-- What the repair map records (R15, R441, Table 17.3): physical tiles bound by repair, repaired units, remapped lanes. -/
structure RepairMap where
  binding : List (Nat × Nat)
  repaired : List UnitId
  remapped : List Nat
  deriving DecidableEq, Repr

/-- An A/B region of the prompt book (R302, R304): both copies, which is current, and the header's sequence number. -/
structure PbRegion where
  id : Nat
  copyA : List Host.Cell
  copyB : List Host.Cell
  currentB : Bool
  seq : Nat
  /-- A copy fails its tag and is treated as absent (R303). -/
  badA : Bool
  badB : Bool
  deriving DecidableEq, Repr

/-- The prompt book (R302 to R306, R429, R430, R454). It keeps its contents over every reset and power loss. The owner seed
stands here unwrapped, as the flash controller holds it; no read gives it (R451). -/
structure PromptBook where
  regions : List PbRegion
  /-- Fault history: the ring of 65,536 records of 64 bytes, by ring index, and the SEQ of the next (R430). -/
  history : List (Nat × List Byte)
  historySeq : Nat
  /-- Region 0x05: the certificate part (R306), and the helper data of the SRAM PUF (R13, R302). -/
  certificate : List Byte
  helper : List Byte
  /-- Region 0x03: its two copies, of which the region's header names the current one (R302, R304). -/
  repairA : RepairMap
  repairB : RepairMap
  /-- Region 0x07, the translation layer's root: 64 KiB units in good blocks at the last format and the overprovisioning
  fixed then (R284); none before the first format. -/
  root : Option (Nat × Nat)
  /-- Monotonic counters 0 to 15 (R305). -/
  counters : List (Nat × Nat)
  /-- Commands refused for want of a valid tag (R303). -/
  refusedTags : Nat
  /-- Powered time as last saved, s (R429). -/
  savedS : Nat
  /-- Lifecycle state, owner key and its seed (R456, R457); curtain record (R442). -/
  lifecycle : Nat
  ownerKey : List Byte
  ownerSeed : List Byte
  curtain : Nat
  deriving DecidableEq, Repr

/-- One Izhel port (R352 to R358, R388). STATE, PEER and the counters are in its registers. -/
structure Port where
  /-- Lanes that have failed (R357). -/
  badLanes : List Nat
  /-- Sequence number of the next flit sent, and of the next one expected. -/
  txSeq : Nat
  rxSeq : Nat
  /-- Flits sent and not acknowledged, oldest first: sequence number, channel, content (R356). -/
  replay : List (Nat × Nat × List Byte)
  /-- Good flits received since the last acknowledgement sent (R356). -/
  unacked : Nat
  /-- Consecutive replays of the oldest flit that failed (R356). -/
  failedReplays : Nat
  /-- Times of retrains within the last 1 ms, ns (R356). -/
  retrains : List Nat
  lastGood : Nat
  /-- Has finished its first training since EN was set (R356). -/
  trained : Bool
  /-- New flits have stopped for a lane event (Table 13.2). -/
  paused : Bool
  rewiden : Bool
  /-- Has been up since reset (R388, R414). -/
  everUp : Bool
  /-- Packets that wait, with their channels: while the port retrains or is paused, and for credits (R356, R359). -/
  queue : List (Nat × Packet)
  /-- Flit credits held by channel, and those that the peer's flits have used here and are to be given back (R359). -/
  credits : List Nat
  owed : List Nat
  deriving DecidableEq, Repr

/-- What an outstanding request is for. -/
inductive ReqUse where
  /-- A read of `len` bytes from `addr` for an item. -/
  | read (run item : Nat)
  /-- A write an item waits to see acknowledged. -/
  | write (run item : Nat)
  /-- An atomic whose old value is written at `result` (R375). -/
  | atomic (run item result : Nat)
  /-- An exchange whose result an item notes under a key (R127, R178); it may write at its destination. -/
  | note (run item key : Nat) (writes : Bool)
  /-- A pool's read of a pending sequence record on another member, by the pool's tier (R189). -/
  | joinRec (tier : Nat)
  /-- A part of the function table image in force, read again for a partition that returns (R217). -/
  | fnImage
  /-- A write or an atomic that no item waits for. -/
  | post
  /-- A read of an item that has ended (R434). -/
  | late
  /-- A tile read for a clip of a feed: feed, batch, place. -/
  | feed (feed batch slot : Nat)
  deriving DecidableEq, Repr

/-- An outstanding request (R378). -/
structure Request where
  tag : Nat
  ctx : Nat
  /-- Destination member as addressed. -/
  dst : Nat
  addr : Nat
  len : Nat
  use : ReqUse
  /-- Time of issue, ns. -/
  startNs : Nat
  /-- What it has used of `FAB_RESP_TIMEOUT`, in ns × MHz (R61, R378). -/
  used : Nat := 0
  /-- Issued by a half of this chorus entry, for R411 cause 0x03. -/
  entry : Option Nat
  deriving DecidableEq, Repr

/-- A DRAIN being answered (R376). -/
structure DrainIn where
  src : Nat
  drain : Nat
  ctx : Nat
  gen : Nat
  /-- Tags of writes it waits for. -/
  waits : List Nat
  deriving DecidableEq, Repr

/-- A fence of this member waiting (R376). -/
structure FenceWait where
  run : Nat
  item : Nat
  drain : Nat
  /-- Tags of writes issued before it. -/
  waits : List Nat
  /-- Members whose DRAIN_RETURN has not arrived. -/
  members : List Nat
  deriving DecidableEq, Repr

/-- A teardown at its origin, or at a receiving member (R383). -/
structure Teardown where
  ctx : Nat
  /-- Origin: the run and item; none on a receiving member. -/
  item : Option (Nat × Nat)
  /-- Receiving member: who to answer, none where a request of a newer generation began it, and with which drain
  identifier. -/
  origin : Option Nat
  drain : Nat
  gen : Nat
  /-- Origin: members not yet returned. -/
  members : List Nat
  /-- Cue in which TEARDOWN was sent. -/
  cue : Nat
  /-- Requests of the context issued before the local steps. -/
  waits : List Nat
  /-- Receiving member: its granules of the context have been freed. -/
  freed : Bool
  deriving DecidableEq, Repr

/-- A route image in force (R366 to R372). -/
structure RouteImage where
  /-- Entries by member, those with VALID 1 only. -/
  entries : List (Nat × DWord)
  /-- Aliases in force: lost, substitute. -/
  aliases : List (Nat × Nat)
  /-- Buffer it was read from, 0 or 1. -/
  buffer : Option Nat
  deriving DecidableEq, Repr

/-- The Izhel fabric (R352 to R388). -/
structure Fabric where
  ports : List (Nat × Port)
  route : RouteImage
  /-- The standby buffer holds a patch of this generation, for ROUTE_STATUS.PATCHED (R372, R388). -/
  patchGen : Option Nat
  /-- Pairs of a patch announced and not yet in force (R413). -/
  patchPairs : List (Nat × Nat)
  /-- Pending generation required by a hold (R370). -/
  wantRoute : Option Nat
  requests : List Request
  nextTag : Nat
  nextDrain : Nat
  drains : List DrainIn
  fences : List FenceWait
  teardowns : List Teardown
  /-- Teardowns waiting for the next boundary, as the generation advanced in this cue (R382): context, origin, new
  generation, drain identifier. -/
  lateTeardowns : List (Nat × Nat × Nat × Nat)
  /-- Requests of a newer generation that wait for the next boundary, as the generation advanced in this cue. -/
  lateRequests : List Packet
  /-- Contexts whose generation advanced in this cue (R382). -/
  advanced : List Nat
  /-- Floods seen: origin, TYPE, identity, cue (R364). -/
  seen : List (Nat × Nat × Nat × Nat)
  /-- Prompter messages originated in this cue, and those that wait (R360). -/
  sent : Nat
  waiting : List Packet
  /-- ROUTE_PATCH items waiting for an announcement: run, item, generation (R377). -/
  patches : List (Nat × Nat × Nat)
  deriving DecidableEq, Repr

/-- A collective half that runs on this member (R397 to R410). -/
structure Half where
  run : Nat
  item : Nat
  ctx : Nat
  entry : Nat
  seq : Nat
  gen : Nat
  op : Nat
  count : Nat
  fmt : Nat
  /-- This member's rank, and where the item writes: its destination and its accumulator. -/
  rank : Nat
  dst : Nat
  aux : Nat
  /-- Contributions that have arrived, by rank. -/
  got : List (Nat × List Byte)
  /-- Cue of its start (R407). -/
  startCue : Nat
  /-- Cue boundaries met without a packet from a needed rank. -/
  waited : Nat
  deriving DecidableEq, Repr

/-- A chorus image in force (R389 to R395): directory entries and the slots they name. -/
structure ChorusImage where
  /-- Valid directory entries, by entry: first slot, size, understudies, guarded. -/
  dir : List (Nat × Nat × Nat × Nat × Bool)
  slots : List (Nat × Nat)
  buffer : Option Nat
  deriving DecidableEq, Repr

/-- An understudy's turn (R413): the lost member, the entry and the cue of the loss. -/
structure Takeover where
  lost : Nat
  entry : Nat
  cue : Nat
  /-- This member has sent its patch. -/
  acted : Bool
  deriving DecidableEq, Repr

/-- Choruses and collectives (R389 to R420). -/
structure Coll where
  image : ChorusImage
  /-- Images of earlier generations that runs are still bound to (R85, R396). -/
  kept : List (Nat × ChorusImage)
  wantGen : Option Nat
  /-- Members declared lost (R412). -/
  lost : List Nat
  halves : List Half
  /-- Packets of halves that have not started here (R400). -/
  early : List CollPacket
  /-- SEQ of the last half that ended, by context × 1024 + entry, and the status it ended with (R400, R409). -/
  ended : List (Nat × Nat × Nat)
  takeovers : List Takeover
  deriving DecidableEq, Repr

/-- Classes of a unit's events (R421). -/
structure UnitClass where
  id : UnitId
  /-- Powered time and record SEQ of the last suspect event, s. -/
  suspectAt : Option (Nat × Nat)
  confirmed : Bool
  deriving DecidableEq, Repr

/-- Work that waits until the stage manager is back (R25, R433): a coppice of a partition with its cause, the seal, a device
reset with its cause, the reset of an I/O-die engine, a firmware update, and the note of curtain in the prompt book. -/
inductive SmTask where
  | coppice (part cause : Nat)
  | seal
  | reset (cause : Nat)
  | engine (e : Engine)
  | firmware (path : SecPath)
  | curtain (cause : Nat)
  deriving DecidableEq, Repr

/-- Where a coppice of a partition stands (R436 to R439). -/
structure Coppice where
  part : Nat
  cause : Nat
  /-- Escalation forbids its return to service (R440). -/
  noReturn : Bool
  deriving DecidableEq, Repr

/-- A planned coppice (R437): partition and the cue of its announcement. -/
structure Planned where
  part : Nat
  cue : Nat
  deriving DecidableEq, Repr

/-- Reliability and recovery (R421 to R449). -/
structure Rel where
  units : List UnitClass
  /-- Events counted within 24 h at a unit: unit, powered time (Table 15.2). -/
  recent : List (UnitId × Nat)
  /-- Uncorrectable reads with no write to their line since: unit and key (Table 15.2). -/
  openReads : List (UnitId × Nat)
  /-- Powered time, s (R429), and the block time it was last counted at, ns. -/
  poweredS : Nat
  poweredNs : Nat
  /-- Transients and passed hedge or routine tests of this hour, by unit kind, for the summaries (R430). -/
  hourTransients : List (Nat × Nat)
  hourTests : List (Nat × Nat)
  /-- Logical tile to physical tile where it differs from the shipped binding (R15, R441). -/
  binding : List (Nat × Nat)
  /-- Spare rows used and repaired units (Table 15.2). -/
  repaired : List UnitId
  /-- Units whose repair is due. -/
  repairDue : List UnitId
  coppices : List Coppice
  planned : List Planned
  /-- Stacks whose zero fill runs (R439). -/
  fills : List Nat
  /-- Counted coppices and engine resets: partition (8 for an engine) and powered time (R440). -/
  escalations : List (Nat × Nat)
  /-- Curtain has been met and the device drains (Table 15.6). -/
  draining : Bool
  /-- Engines being reset, with the time of start (R435). -/
  resetting : List (Engine × Nat)
  /-- Self-tests queued by request and by suspicion, and running (R444, R445). -/
  testQueue : List Nat
  retests : List Nat
  testing : List Nat
  /-- Powered time of each logical tile's last test, s. -/
  lastTest : List (Nat × Nat)
  /-- A tile is under test outside an intermission (R445). -/
  testOut : Option Nat
  /-- The stage manager runs, and powered times of its restarts (R433). -/
  smUp : Bool
  smRestarts : List Nat
  /-- What was asked for while it was down, in order (R25, R433). -/
  smWaiting : List SmTask
  deriving DecidableEq, Repr

/-- An SPDM session (R466). -/
structure Session where
  id : Nat
  transport : SpdmTransport
  /-- FINISH has completed it. -/
  established : Bool
  /-- Number of the key in use, raised by KEY_UPDATE. -/
  key : Nat
  /-- IDE streams whose keys were programmed over it (R468). -/
  ide : List IdeStream
  deriving DecidableEq, Repr

/-- The security block (R450 to R468). LC_STATUS, SEC_STATUS and SEC_MBOX are registers. -/
structure Sec where
  /-- The unconsumed nonce, and the powered time it was drawn at, s (R460). -/
  nonce : Option (List Byte × Nat)
  /-- Powered time at which the debug level ends, and the signer of its token (R464, R467). -/
  debugUntil : Option Nat
  debugSigner : Nat
  /-- A lifecycle transition runs: the token's command and the state and owner key it leads to (R458). -/
  transition : Option (Nat × Nat × List Byte)
  /-- A wipe of volatile memory is due at the next bring-up (R457, R465). -/
  wipeDue : Bool
  /-- Flash is to be reformatted under a new owner seed at the next bring-up (R457). -/
  reformatDue : Bool
  /-- Running firmware: digest, SVN, copy B, and whether counter 0 has been raised (R454, R455). -/
  fwDigest : List Byte
  fwSvn : Nat
  fwCopyB : Bool
  fwRaised : Bool
  /-- Configuration in force: digest and SVN (R467). -/
  cfgDigest : List Byte
  cfgSvn : Nat
  /-- SPDM: version, capabilities with the requester's transfer size, and algorithms negotiated, by transport, and the
  sessions (R466). -/
  versionDone : List SpdmTransport
  capsDone : List (SpdmTransport × Nat)
  algoDone : List SpdmTransport
  sessions : List Session
  nextSession : Nat
  /-- Chunks of a request received so far (R466). -/
  chunkIn : List Byte
  /-- What is left of a response being sent in chunks. -/
  chunkOut : List Byte
  /-- The trace ring's free-running index (R463). -/
  traceProd : Nat
  deriving DecidableEq, Repr

/-- Power states (R469 to R473). STATE, BUSY and REFUSAL are in `PWR_STATUS`. -/
structure Power where
  /-- State the transition in progress leads to: 0 Full, 1 Dimmed, 2 Dark, 3 Ghost light. -/
  target : Option Nat
  /-- Request held while a transition runs (R470). -/
  heldRequest : Option Nat
  /-- Entry to Dark waits for executing runs (R471). -/
  draining : Bool
  /-- Ghost light entered on power failure is left only by a device reset (R473). -/
  ghostLatched : Bool
  /-- Curtain is due once the device is Full (R473). -/
  curtainDue : Option Nat
  /-- When the transition in progress began, and until when the device had work, ns (R470, R471). -/
  since : Nat
  busyUntil : Nat
  deriving DecidableEq, Repr

/-- Pins, reset and bring-up (R477 to R486, R502). -/
structure Boot where
  /-- Input levels: true is high. -/
  rstN : Bool
  perstN : Bool
  /-- `THERM_TRIP_N` asserted: every clock has stopped (R502). -/
  tripped : Bool
  /-- The core rails have been below their minimum since the last `RST_N` deassertion (R478). -/
  cold : Bool
  /-- Cause of the reset in progress (Table 17.2). -/
  cause : Nat
  /-- A TAP test instruction holds the core in reset (R465). -/
  tapHold : Option TapTest
  /-- Bring-up has trained the memories and the host port may be released (R480). -/
  ready : Bool
  /-- Bring-up ended in ERROR 0x02 or 0x03: a `SETUP_SEAL` write starts no checks (R482). -/
  sealBlocked : Bool
  /-- Curtain due once the host port is released (Table 17.4). -/
  curtainAtRelease : Bool
  /-- Cue in which the over-limit event was last raised: at most once per cue (R501). -/
  overLimit : List Nat
  deriving DecidableEq, Repr

/-- A function table image as a load brought it (R216): its generation, the run that loaded it, the global address it was
read from, and its bytes. -/
structure FnImage where
  gen : Nat
  run : Nat
  source : Nat
  bytes : List Byte
  deriving DecidableEq, Repr

/-- Function tables (R167, R168, R216, R217): two buffers on each tile. -/
structure FnTables where
  /-- Images that some buffer holds, by the model's own number, which counts from 1. -/
  images : List (Nat × FnImage)
  nextImage : Nat
  /-- Image of the load in force, 0 for generation 0. -/
  current : Nat
  /-- Tile × 2 + buffer: image held. Unlisted: generation 0, no function. -/
  buffers : List (Nat × Nat)
  /-- The load in progress: run, item, image and tiles still to be written (R168, R216). -/
  loading : Option (Nat × Nat × Nat × List Nat)
  /-- Parts of the image in force that have come back for a partition that returns (R217). -/
  reread : List (Nat × List Byte)
  deriving DecidableEq, Repr

/-- Distance bias (R197 to R200): images of the two buffers, which every partition holds alike, and the switch that is
pending. -/
structure BiasTables where
  /-- Image in force, empty for generation 0. -/
  image : List Byte
  /-- Generation, target cue, heads and image of the pending switch. -/
  standby : Option (Nat × Nat × Nat × List Byte)
  /-- Buffer in force, 0 or 1. -/
  front : Nat
  deriving DecidableEq, Repr

/-- A clip that a feed has given to an engine (R344, R345): batch counted from `FEED_START`, place in it, engine,
staging region, its status once it has one, frames, damaged blocks, and the packets of its tiles that have arrived. -/
structure Clip where
  batch : Nat
  slot : Nat
  engine : Nat
  region : Nat
  status : Option Nat
  frames : Nat
  damaged : Nat
  arrived : List (Nat × List Byte)
  deriving DecidableEq, Repr

/-- A feed of the ingest engine (R342 to R351): state of Table 12.8 (0 Idle, 1 Starting, 2 Running, 3 Paused), the run and
item that start it, the engines it holds, its feed block, batches delivered, clips given out, the clips in work, the
catalogue tile that each engine's cache holds, and the counts of R351. -/
structure Feed where
  state : Nat
  /-- It was lost with its work area or at a reset (Table 12.8). -/
  gone : Bool
  ctx : Nat
  run : Nat
  item : Nat
  engines : List Nat
  block : List Byte
  delivered : Nat
  given : Nat
  clips : List Clip
  cached : List (Nat × Nat)
  good : Nat
  failed : Nat
  paused : Nat
  deriving DecidableEq, Repr

/-- What a codec stream carries from one item to the next (R312, R335): what the standard's parser holds, its parameter
sets, the pictures of the pool's buffers; for an encoder its configuration, the buffer occupancy, the last coded
bits and quantizer of each picture type, and pictures since the last key picture. -/
structure StreamState where
  token : List Byte
  sets : List (Nat × List Byte)
  bufs : List (Nat × Picture)
  cfg : List Byte
  occ : Nat
  last : List (Nat × Nat × Nat)
  since : Option Nat
  deriving DecidableEq, Repr

/-- A slice that waits for the output ring (R332). -/
structure EncSlice where
  index : Nat
  flags : Nat
  q : Nat
  bytes : List Byte
  deriving DecidableEq, Repr

/-- An encode item at work (R327 to R335): its stream, slice list, picture number, quantizer and target bits, whether it
is a key and an intra picture, the rows coded, the slices that wait, those emitted, what it will commit, and the pictures
that the pool held as it began. -/
structure EncJob where
  run : Nat
  item : Nat
  stream : Nat
  list : Nat
  listLog2 : Nat
  picture : Nat
  isKey : Bool
  intra : Bool
  q : Nat
  target : Nat
  rows : List (Nat × List Byte)
  pending : List EncSlice
  emitted : Nat
  bits : Nat
  flags : Nat
  state : StreamState
  held : List (Nat × Picture)
  deriving DecidableEq, Repr

/-- Codec engines and streams (R307 to R337) and ingest (R338 to R351). -/
structure Media where
  feeds : List (Nat × Feed)
  /-- Engine claims: engine number (decode 0..31, encode 32..39) and the run that holds it, or 2^32 + feed. -/
  claims : List (Nat × Nat)
  /-- Streams, by the device memory key of their stream block. -/
  streams : List (Nat × StreamState)
  encodes : List EncJob
  deriving DecidableEq, Repr

/-- What leaves the block, newest first: the model's own observation list. -/
inductive Output where
  | msix (vector : Nat)
  | hostRead (data : List Byte) (poison : Bool)
  | hostWrite (addr : Nat) (data : List Byte)
  | packet (port : Nat) (p : Packet)
  | collective (member : Nat) (p : CollPacket)
  | cue (port : Nat) (message : List Byte)
  | ctrlFlit (port ack : Nat) (nak : Option Nat) (credits : List Nat)
  | flit (port vc seq : Nat) (content : List Byte)
  | spdm (t : SpdmTransport) (code : Nat) (body : List Byte)
  | mailbox (result : Nat) (body : List Byte)
  | pin (name : String) (high : Bool)
  /-- A voltage asked of a partition's regulator over AVSBus, in mV (R492). -/
  | avs (part mv : Nat)
  deriving DecidableEq, Repr

/-- The state of the Tesel. -/
structure State where
  regs : RegFile
  host : HostPort
  /-- The 256 rings; an unlisted ring is as reset leaves it. -/
  rings : List (Nat × Ring)
  runs : List Run
  cue : Cue
  sched : Sched
  /-- Accounting blocks by context; an unlisted one is zero (R105). -/
  accounts : List (Nat × Account)
  mem : Mem
  flash : Flash
  book : PromptBook
  fab : Fabric
  coll : Coll
  rel : Rel
  sec : Sec
  power : Power
  boot : Boot
  fn : FnTables
  bias : BiasTables
  media : Media
  outs : List Output
  /-- Commands waiting, first in first out. -/
  pending : List Instr
  /-- The model's own counter of free values drawn; no statement rests on its value (log entry 1). -/
  freeCtr : Nat
  /-- Block time in ns, as the commands carry it (log entry 5). -/
  now : Nat
  deriving DecidableEq, Repr

/-- A ring as reset leaves it (R47, R48). -/
def Ring.init : Ring :=
  { prod := 0, cons := 0, cqProd := 0, cqCons := 0, cancel := 0, marked := false, discarded := 0, ignored := 0, badProd := [],
    badCons := [], state := 0, held := 0, sinceIrq := 0, firstRec := none, raised := [], fifo := [], steps := [],
    lastMissed := false, heldLine := none }

/-- An announcement that says nothing (R84). -/
def Announce.none : Announce := { valid := false, gen := 0, target := 0 }

/-- The cue as reset leaves it: Unlocked, generation 0 of the blocking table (R78, R99). -/
def Cue.init : Cue :=
  { lockCount := 0, routeSinceDetach := false, routeNews := false, formerMaster := false, periodUs := 1000, blocking := false,
    annBlk := Announce.none, annChorus := Announce.none, annRoute := Announce.none, heard := [], quiet := 0,
    gotValid := false, edgeNs := 0, skewNs := 0, charged := false, blkGen := 0, blkCycle := 1, blkEntries := [],
    blkBuffer := Option.none, blkHold := false, blkWant := Option.none }

def Sched.init : Sched :=
  { budget := [0, 0, 0, 0, 0, 0, 0], allowances := [], pool := [0, 0, 0, 0, 0, 0, 0],
    poolWhole := [0, 0, 0, 0, 0, 0, 0], pastMid := false, intermission := false, scaled := false, lastRing := 0, runnable := [],
    torn := [], stops := [], freed := [0, 0, 0, 0, 0, 0, 0], nextRun := 0, nextOrder := 0 }

def Account.init : Account :=
  { waitUs := 0, runs := 0, preemptions := 0, fallbacks := 0, overruns := 0, spills := 0, misses := 0, steps := 0,
    hist := [] }

/-- Memory with nothing listed: every byte reads 0 (R479), every granule is free (R270). -/
def Mem.init : Mem :=
  { dev := [], sram := [], badDev := [], badSram := [], marked := [], remapped := [], stuck := [], stuckSram := [], onDieReports := 0, laneFails := [], owners := [],
    corrected := [], loggedNow := [], thermal := [], widenRaised := [], joins := [], deciding := [],
    calibrated := [] }

/-- Flash with no tile mapped (DESIGN CHOICE, log entry 3). -/
def Flash.init : Flash :=
  { geom := { recorded := [], ces := 0, luns := 0, blocks := 0, units := 0, opPct := 7, endurance := 0, readLimit := 0 },
    targets := [], cells := [], owners := [], badWords := [], softWords := [], programs := [], trims := [], inbound := [],
    nextInbound := 0, outbound := [], early := [], deferred := [], erases := [], reads := [],
    places := [], filled := [], badFactory := [], badGrown := [], wanted := [], queued := [], candidates := [],
    relocDisturb := 0, progFail := 0, uncorrectable := 0, senseSeq := none, senseAt := none, failing := false }

/-- The prompt book of a part as shipped: Provisioned, no owner, empty history (R16; DESIGN CHOICE, log entry 3). -/
def PromptBook.init : PromptBook :=
  { regions := [], history := [], historySeq := 0, certificate := [], helper := [],
    repairA := { binding := [], repaired := [], remapped := [] }, repairB := { binding := [], repaired := [], remapped := [] },
    root := none, counters := [], refusedTags := 0,
    savedS := 0, lifecycle := 1, ownerKey := [], ownerSeed := [], curtain := 0 }

/-- Route generation 0: only the member's own entry, which every number has (R370). -/
def Fabric.init : Fabric :=
  { ports := [], route := { entries := [], aliases := [], buffer := none }, patchGen := none, patchPairs := [],
    wantRoute := none, requests := [], nextTag := 0, nextDrain := 0, drains := [], fences := [], teardowns := [],
    lateTeardowns := [], lateRequests := [], advanced := [], seen := [], sent := 0, waiting := [], patches := [] }

/-- Chorus generation 0: no valid entry (R394). -/
def Coll.init : Coll :=
  { image := { dir := [], slots := [], buffer := none }, kept := [], wantGen := none, lost := [], halves := [], early := [],
    ended := [], takeovers := [] }

/-- Every unit healthy, every tile on its own physical tile (R16). -/
def Rel.init : Rel :=
  { units := [], recent := [], openReads := [], poweredS := 0, poweredNs := 0, hourTransients := [], hourTests := [],
    binding := [], repaired := [], repairDue := [], coppices := [], planned := [], fills := [], escalations := [],
    draining := false, resetting := [], testQueue := [], retests := [], testing := [],
    lastTest := [], testOut := none, smUp := true, smRestarts := [], smWaiting := [] }

def Sec.init : Sec :=
  { nonce := none, debugUntil := none, debugSigner := 0, transition := none, wipeDue := false, reformatDue := false,
    fwDigest := [], fwSvn := 0, fwCopyB := false, fwRaised := false, cfgDigest := [], cfgSvn := 0, versionDone := [],
    capsDone := [], algoDone := [], sessions := [], nextSession := 1, chunkIn := [], chunkOut := [], traceProd := 0 }

/-- Right after reset, before bring-up: the host port is not released, the reset is a cold one and the pins are high
(DESIGN CHOICE, log entry 4). Registers hold the reset values of R515 to R518, which the empty register file reads as. -/
def State.reset : State :=
  { regs := { vals := [], lows := [], latch := [], image := [], imageHeld := false, parityBad := [], mbox := [],
              msixTable := [], msixPending := [] }
    host := { cxl := true, released := false, up := false, lost := false, width := 0, rate := 0, ide := [], deviceBias := [],
              biasChanges := [] }
    rings := [], runs := [], cue := Cue.init, sched := Sched.init, accounts := [], mem := Mem.init,
    flash := Flash.init, book := PromptBook.init, fab := Fabric.init, coll := Coll.init, rel := Rel.init,
    sec := Sec.init
    power := { target := none, heldRequest := none, draining := false, ghostLatched := false, curtainDue := none, since := 0, busyUntil := 0 }
    boot := { rstN := true, perstN := true, tripped := false, cold := true, cause := 1, tapHold := none, ready := false,
              sealBlocked := false, curtainAtRelease := false, overLimit := [] }
    fn := { images := [], nextImage := 1, current := 0, buffers := [], loading := none, reread := [] }
    bias := { image := [], standby := none, front := 0 }
    media := { feeds := [], claims := [], streams := [], encodes := [] }
    outs := [], pending := [], freeCtr := 0, now := 0 }

end Sys2Proof.Machine
end

