-- ==== Sys2Proof/Machine/RegMap.lean ====
section
/-! DEFINITION. The setup register map (R509, R515 to R518): the offset of every register, its fields with their access
codes, and its reset value. -/
namespace Sys2Proof.Machine

/-- Access codes of register fields (R12). -/
inductive Access where
  | rw | ro | wo | rwl
  deriving DecidableEq, Repr

/-- A field of a register: offset of the register, low bit and width. -/
structure Fld where
  off : Nat
  lo : Nat
  w : Nat
  deriving DecidableEq, Repr

/-- A field of a row of the map: low bit, width and access. -/
structure FieldSpec where
  lo : Nat
  w : Nat
  acc : Access
  deriving DecidableEq, Repr

/-- A row of the map: `count` registers of `size` bytes from `base`, `stride` bytes apart. -/
structure RegRow where
  base : Nat
  stride : Nat
  count : Nat
  size : Nat
  fields : List FieldSpec
  deriving DecidableEq, Repr

/- Registers and fields, named as the spec names them (Tables 19.2 to 19.5 and the tables they cite). The two halves of
the cue number form one 64-bit register (R511). -/
def rIdPart : Nat := 0x0
def idPartPart : Fld := ⟨rIdPart, 0, 16⟩
def idPartStepping : Fld := ⟨rIdPart, 16, 4⟩
def idPartGrade : Fld := ⟨rIdPart, 20, 1⟩
def rIdSerial : Nat := 0x8
def idSerialSerial : Fld := ⟨rIdSerial, 0, 64⟩
def rBootStatus : Nat := 0x10
def bootStatusPhase : Fld := ⟨rBootStatus, 0, 3⟩
def bootStatusCold : Fld := ⟨rBootStatus, 3, 1⟩
def bootStatusWiped : Fld := ⟨rBootStatus, 4, 1⟩
def bootStatusFwCopy : Fld := ⟨rBootStatus, 5, 1⟩
def bootStatusFwFallback : Fld := ⟨rBootStatus, 6, 1⟩
def bootStatusError : Fld := ⟨rBootStatus, 8, 8⟩
def bootStatusCause : Fld := ⟨rBootStatus, 16, 8⟩
def rDeviceReset : Nat := 0x14
def deviceResetKey : Fld := ⟨rDeviceReset, 0, 32⟩
def rSetupApertureBase : Nat := 0x18
def setupApertureBaseBase : Fld := ⟨rSetupApertureBase, 0, 64⟩
def rSetupSeal : Nat := 0x20
def setupSealKey : Fld := ⟨rSetupSeal, 0, 32⟩
def rSealStatus : Nat := 0x24
def sealStatusState : Fld := ⟨rSealStatus, 0, 2⟩
def sealStatusCheck : Fld := ⟨rSealStatus, 8, 8⟩
def sealStatusIndex : Fld := ⟨rSealStatus, 16, 8⟩
def rSealViolationCount : Nat := 0x28
def sealViolationCountCount : Fld := ⟨rSealViolationCount, 0, 32⟩
def rMgmtContext : Nat := 0x2C
def mgmtContextContext : Fld := ⟨rMgmtContext, 0, 6⟩
def rJunctionTemp : Nat := 0x30
def junctionTempMax : Fld := ⟨rJunctionTemp, 0, 10⟩
def junctionTempSource : Fld := ⟨rJunctionTemp, 10, 4⟩
def junctionTempOver : Fld := ⟨rJunctionTemp, 14, 1⟩
def rCxlmemSize : Nat := 0x1000
def cxlmemSizeSize : Fld := ⟨rCxlmemSize, 0, 7⟩
def rCxlmemUnmappedCount : Nat := 0x1004
def cxlmemUnmappedCountCount : Fld := ⟨rCxlmemUnmappedCount, 0, 32⟩
def rBiasAutoflipCount : Nat := 0x1008
def biasAutoflipCountCount : Fld := ⟨rBiasAutoflipCount, 0, 32⟩
def rHostLostRecords : Nat := 0x100C
def hostLostRecordsCount : Fld := ⟨rHostLostRecords, 0, 32⟩
def rCxlmemSeg (n : Nat) : Nat := 0x1100 + 4 * n
def cxlmemSegValid (n : Nat) : Fld := ⟨rCxlmemSeg n, 0, 1⟩
def cxlmemSegTier (n : Nat) : Fld := ⟨rCxlmemSeg n, 1, 1⟩
def cxlmemSegOffset (n : Nat) : Fld := ⟨rCxlmemSeg n, 2, 11⟩
def rCueCtrl : Nat := 0x2000
def cueCtrlPeriodUs : Fld := ⟨rCueCtrl, 0, 15⟩
def cueCtrlMode : Fld := ⟨rCueCtrl, 15, 1⟩
def cueCtrlRole : Fld := ⟨rCueCtrl, 16, 2⟩
def cueCtrlRank : Fld := ⟨rCueCtrl, 18, 2⟩
def rCueStatus : Nat := 0x2004
def cueStatusLock : Fld := ⟨rCueStatus, 0, 3⟩
def cueStatusMisses : Fld := ⟨rCueStatus, 3, 2⟩
def cueStatusMismatch : Fld := ⟨rCueStatus, 5, 1⟩
def cueStatusSwitchReject : Fld := ⟨rCueStatus, 6, 1⟩
def cueStatusEmitter : Fld := ⟨rCueStatus, 7, 12⟩
def cueStatusOffsetNs : Fld := ⟨rCueStatus, 19, 13⟩
def rCueNumber : Nat := 0x2008
def cueNumberValue : Fld := ⟨rCueNumber, 0, 64⟩
def rCueSwitchReq : Nat := 0x2010
def cueSwitchReqKind : Fld := ⟨rCueSwitchReq, 0, 2⟩
def cueSwitchReqLead : Fld := ⟨rCueSwitchReq, 2, 6⟩
def cueSwitchReqGen : Fld := ⟨rCueSwitchReq, 8, 16⟩
def cueSwitchReqGo : Fld := ⟨rCueSwitchReq, 31, 1⟩
def rBlkTableBase : Nat := 0x2018
def blkTableBaseValue : Fld := ⟨rBlkTableBase, 0, 64⟩
def rPartOp (n : Nat) : Nat := 0x2040 + 4 * n
def partOpCeiling (n : Nat) : Fld := ⟨rPartOp n, 0, 2⟩
def partOpEffective (n : Nat) : Fld := ⟨rPartOp n, 2, 2⟩
def partOpThermal (n : Nat) : Fld := ⟨rPartOp n, 4, 1⟩
def rLpddrCfg : Nat := 0x3000
def lpddrCfgFitted : Fld := ⟨rLpddrCfg, 0, 16⟩
def lpddrCfgDensity : Fld := ⟨rLpddrCfg, 16, 32⟩
def rScrubCtrl : Nat := 0x3008
def scrubCtrlDramHours : Fld := ⟨rScrubCtrl, 0, 8⟩
def rMemerrLogBase : Nat := 0x3010
def memerrLogBaseBase : Fld := ⟨rMemerrLogBase, 0, 64⟩
def rMemerrLogCtrl : Nat := 0x3018
def memerrLogCtrlLog2 : Fld := ⟨rMemerrLogCtrl, 0, 5⟩
def rMemerrLogProd : Nat := 0x301C
def memerrLogProdProd : Fld := ⟨rMemerrLogProd, 0, 32⟩
def rMemerrLogCons : Nat := 0x3020
def memerrLogConsCons : Fld := ⟨rMemerrLogCons, 0, 32⟩
def rMemerrLogLost : Nat := 0x3024
def memerrLogLostLost : Fld := ⟨rMemerrLogLost, 0, 32⟩
def rKvpool0Base : Nat := 0x3028
def kvpool0BaseBase : Fld := ⟨rKvpool0Base, 0, 64⟩
def rKvpool1Base : Nat := 0x3030
def kvpool1BaseBase : Fld := ⟨rKvpool1Base, 0, 64⟩
def rFnStatus : Nat := 0x3038
def fnStatusGen : Fld := ⟨rFnStatus, 0, 8⟩
def fnStatusLoadGen : Fld := ⟨rFnStatus, 8, 8⟩
def fnStatusLoading : Fld := ⟨rFnStatus, 16, 1⟩
def fnStatusWaiting : Fld := ⟨rFnStatus, 17, 1⟩
def rBiasStatus : Nat := 0x303C
def biasStatusGen : Fld := ⟨rBiasStatus, 0, 8⟩
def biasStatusPendingGen : Fld := ⟨rBiasStatus, 8, 8⟩
def biasStatusPending : Fld := ⟨rBiasStatus, 16, 1⟩
def biasStatusHeads : Fld := ⟨rBiasStatus, 17, 6⟩
def rStackTemp (n : Nat) : Nat := 0x3040 + 4 * n
def stackTempTemp (n : Nat) : Fld := ⟨rStackTemp n, 0, 10⟩
def stackTempRefreshX2 (n : Nat) : Fld := ⟨rStackTemp n, 10, 1⟩
def stackTempSteps (n : Nat) : Fld := ⟨rStackTemp n, 11, 2⟩
def stackTempDrained (n : Nat) : Fld := ⟨rStackTemp n, 13, 1⟩
def stackTempTrip (n : Nat) : Fld := ⟨rStackTemp n, 14, 1⟩
def stackTempSensorFail (n : Nat) : Fld := ⟨rStackTemp n, 15, 1⟩
def rFlashCfg : Nat := 0x4000
def flashCfgChMask : Fld := ⟨rFlashCfg, 0, 16⟩
def flashCfgCePerCh : Fld := ⟨rFlashCfg, 16, 2⟩
def flashCfgLunPerCe : Fld := ⟨rFlashCfg, 18, 3⟩
def flashCfgOpPctM7 : Fld := ⟨rFlashCfg, 26, 5⟩
def rFlashLogicalTiles : Nat := 0x4004
def flashLogicalTilesTiles : Fld := ⟨rFlashLogicalTiles, 0, 32⟩
def rFlashStatus : Nat := 0x4008
def flashStatusReady : Fld := ⟨rFlashStatus, 0, 1⟩
def flashStatusQuiesced : Fld := ⟨rFlashStatus, 1, 1⟩
def flashStatusPwrFail : Fld := ⟨rFlashStatus, 2, 1⟩
def flashStatusLowFree : Fld := ⟨rFlashStatus, 3, 1⟩
def rFtlMapSize : Nat := 0x400C
def ftlMapSizeGranules : Fld := ⟨rFtlMapSize, 0, 32⟩
def rFtlMapBase : Nat := 0x4010
def ftlMapBaseBase : Fld := ⟨rFtlMapBase, 0, 64⟩
def rHoldupCap : Nat := 0x4018
def holdupCapCapUf : Fld := ⟨rHoldupCap, 0, 24⟩
def rHoldupVmin : Nat := 0x401C
def holdupVminVminMv : Fld := ⟨rHoldupVmin, 0, 16⟩
def rHoldupParam : Nat := 0x4020
def holdupParamPHoldW : Fld := ⟨rHoldupParam, 0, 16⟩
def holdupParamTProgUs : Fld := ⟨rHoldupParam, 16, 16⟩
def rHoldupStatus : Nat := 0x4024
def holdupStatusVMv : Fld := ⟨rHoldupStatus, 0, 16⟩
def holdupStatusStale : Fld := ⟨rHoldupStatus, 16, 1⟩
def rHoldupDeferred : Nat := 0x4028
def holdupDeferredCount : Fld := ⟨rHoldupDeferred, 0, 32⟩
def rFabMember : Nat := 0x5000
def fabMemberMember : Fld := ⟨rFabMember, 0, 12⟩
def rFabRespTimeout : Nat := 0x5004
def fabRespTimeoutUs : Fld := ⟨rFabRespTimeout, 0, 14⟩
def rRouteTableBase : Nat := 0x5008
def routeTableBaseBase : Fld := ⟨rRouteTableBase, 0, 64⟩
def rRouteStatus : Nat := 0x5010
def routeStatusGen : Fld := ⟨rRouteStatus, 0, 16⟩
def routeStatusHold : Fld := ⟨rRouteStatus, 16, 1⟩
def routeStatusPending : Fld := ⟨rRouteStatus, 17, 1⟩
def routeStatusPatched : Fld := ⟨rRouteStatus, 18, 1⟩
def rFabStaleDrops : Nat := 0x5014
def fabStaleDropsCount : Fld := ⟨rFabStaleDrops, 0, 32⟩
def rFabAgedDrops : Nat := 0x5018
def fabAgedDropsCount : Fld := ⟨rFabAgedDrops, 0, 32⟩
def rFabNorouteDrops : Nat := 0x501C
def fabNorouteDropsCount : Fld := ⟨rFabNorouteDrops, 0, 32⟩
def rTeardownReportBase : Nat := 0x5020
def teardownReportBaseBase : Fld := ⟨rTeardownReportBase, 0, 64⟩
def rFabPortCtrl (n : Nat) : Nat := 0x5100 + 16 * n
def fabPortCtrlEn (n : Nat) : Fld := ⟨rFabPortCtrl n, 0, 1⟩
def fabPortCtrlDegradeEn (n : Nat) : Fld := ⟨rFabPortCtrl n, 1, 1⟩
def fabPortCtrlRewiden (n : Nat) : Fld := ⟨rFabPortCtrl n, 2, 1⟩
def rFabPortStatus (n : Nat) : Nat := 0x5104 + 16 * n
def fabPortStatusState (n : Nat) : Fld := ⟨rFabPortStatus n, 0, 3⟩
def fabPortStatusPeerSwitch (n : Nat) : Fld := ⟨rFabPortStatus n, 3, 1⟩
def fabPortStatusPeer (n : Nat) : Fld := ⟨rFabPortStatus n, 4, 12⟩
def fabPortStatusPeerPort (n : Nat) : Fld := ⟨rFabPortStatus n, 16, 4⟩
def fabPortStatusDelayNs (n : Nat) : Fld := ⟨rFabPortStatus n, 20, 12⟩
def rFabPortErr (n : Nat) : Nat := 0x5108 + 16 * n
def fabPortErrReplays (n : Nat) : Fld := ⟨rFabPortErr n, 0, 16⟩
def fabPortErrDegrades (n : Nat) : Fld := ⟨rFabPortErr n, 16, 8⟩
def fabPortErrDowns (n : Nat) : Fld := ⟨rFabPortErr n, 24, 8⟩
def rChorusTableBase : Nat := 0x6000
def chorusTableBaseBase : Fld := ⟨rChorusTableBase, 0, 64⟩
def rChorusStatus : Nat := 0x6008
def chorusStatusGen : Fld := ⟨rChorusStatus, 0, 8⟩
def chorusStatusHold : Fld := ⟨rChorusStatus, 8, 1⟩
def chorusStatusPending : Fld := ⟨rChorusStatus, 9, 1⟩
def chorusStatusLostCount : Fld := ⟨rChorusStatus, 10, 12⟩
def rCollStaleDrops : Nat := 0x600C
def collStaleDropsCount : Fld := ⟨rCollStaleDrops, 0, 32⟩
def rChorusLogBase : Nat := 0x6010
def chorusLogBaseBase : Fld := ⟨rChorusLogBase, 0, 64⟩
def rChorusLogCtrl : Nat := 0x6018
def chorusLogCtrlLog2 : Fld := ⟨rChorusLogCtrl, 0, 5⟩
def rChorusLogProd : Nat := 0x601C
def chorusLogProdProd : Fld := ⟨rChorusLogProd, 0, 32⟩
def rChorusLogCons : Nat := 0x6020
def chorusLogConsCons : Fld := ⟨rChorusLogCons, 0, 32⟩
def rChorusLogLost : Nat := 0x6024
def chorusLogLostLost : Fld := ⟨rChorusLogLost, 0, 32⟩
def rHealthStatus : Nat := 0x7000
def healthStatusCurtain : Fld := ⟨rHealthStatus, 0, 1⟩
def healthStatusCurtainCause : Fld := ⟨rHealthStatus, 1, 3⟩
def healthStatusCoppice : Fld := ⟨rHealthStatus, 4, 8⟩
def healthStatusPlanned : Fld := ⟨rHealthStatus, 12, 8⟩
def healthStatusSmRestarts : Fld := ⟨rHealthStatus, 20, 4⟩
def rHedgeStatus : Nat := 0x7004
def hedgeStatusHedge : Fld := ⟨rHedgeStatus, 0, 16⟩
def rEscalateCtrl : Nat := 0x7008
def escalateCtrlBurst : Fld := ⟨rEscalateCtrl, 0, 2⟩
def escalateCtrlDaily : Fld := ⟨rEscalateCtrl, 2, 4⟩
def rHealthCtrl : Nat := 0x700C
def healthCtrlPlanWaitCues : Fld := ⟨rHealthCtrl, 0, 8⟩
def rCoppiceReq : Nat := 0x7010
def coppiceReqPart : Fld := ⟨rCoppiceReq, 0, 8⟩
def rSelftestCtrl : Nat := 0x7014
def selftestCtrlPeriodH : Fld := ⟨rSelftestCtrl, 0, 8⟩
def selftestCtrlIntermissionOnly : Fld := ⟨rSelftestCtrl, 8, 1⟩
def rSelftestReq : Nat := 0x7018
def selftestReqTile : Fld := ⟨rSelftestReq, 0, 8⟩
def selftestReqGo : Fld := ⟨rSelftestReq, 31, 1⟩
def rCheckTransients : Nat := 0x701C
def checkTransientsCount : Fld := ⟨rCheckTransients, 0, 32⟩
def rCheckSkips : Nat := 0x7020
def checkSkipsCount : Fld := ⟨rCheckSkips, 0, 32⟩
def rFaultLogBase : Nat := 0x7028
def faultLogBaseBase : Fld := ⟨rFaultLogBase, 0, 64⟩
def rFaultLogCtrl : Nat := 0x7030
def faultLogCtrlLog2 : Fld := ⟨rFaultLogCtrl, 0, 5⟩
def rFaultLogProd : Nat := 0x7034
def faultLogProdProd : Fld := ⟨rFaultLogProd, 0, 32⟩
def rFaultLogCons : Nat := 0x7038
def faultLogConsCons : Fld := ⟨rFaultLogCons, 0, 32⟩
def rFaultLogLost : Nat := 0x703C
def faultLogLostLost : Fld := ⟨rFaultLogLost, 0, 32⟩
def rLcStatus : Nat := 0x8000
def lcStatusState : Fld := ⟨rLcStatus, 0, 3⟩
def lcStatusDebug : Fld := ⟨rLcStatus, 3, 2⟩
def lcStatusOwner : Fld := ⟨rLcStatus, 5, 1⟩
def lcStatusIdeReq : Fld := ⟨rLcStatus, 6, 1⟩
def lcStatusIdeUp : Fld := ⟨rLcStatus, 7, 1⟩
def rSecCmd : Nat := 0x8004
def secCmdOp : Fld := ⟨rSecCmd, 0, 8⟩
def secCmdGo : Fld := ⟨rSecCmd, 31, 1⟩
def rSecStatus : Nat := 0x8008
def secStatusBusy : Fld := ⟨rSecStatus, 0, 1⟩
def secStatusResult : Fld := ⟨rSecStatus, 8, 8⟩
def rPwrCtrl : Nat := 0x800C
def pwrCtrlTarget : Fld := ⟨rPwrCtrl, 0, 2⟩
def pwrCtrlDimAuto : Fld := ⟨rPwrCtrl, 2, 1⟩
def pwrCtrlDimIdleUs : Fld := ⟨rPwrCtrl, 3, 16⟩
def rPwrStatus : Nat := 0x8010
def pwrStatusState : Fld := ⟨rPwrStatus, 0, 3⟩
def pwrStatusBusy : Fld := ⟨rPwrStatus, 3, 1⟩
def pwrStatusRefusal : Fld := ⟨rPwrStatus, 4, 4⟩
def rTraceBase : Nat := 0x8018
def traceBaseBase : Fld := ⟨rTraceBase, 0, 64⟩
def rTraceCtrl : Nat := 0x8020
def traceCtrlLog2 : Fld := ⟨rTraceCtrl, 0, 5⟩
def traceCtrlEn : Fld := ⟨rTraceCtrl, 5, 1⟩
def rRingCtrl (n : Nat) : Nat := 0x10000 + 64 * n
def ringCtrlEn (n : Nat) : Fld := ⟨rRingCtrl n, 0, 1⟩
def ringCtrlLoc (n : Nat) : Fld := ⟨rRingCtrl n, 1, 1⟩
def ringCtrlContext (n : Nat) : Fld := ⟨rRingCtrl n, 2, 6⟩
def ringCtrlSqLog2 (n : Nat) : Fld := ⟨rRingCtrl n, 8, 5⟩
def ringCtrlCqLog2 (n : Nat) : Fld := ⟨rRingCtrl n, 13, 5⟩
def ringCtrlCtrlAllowed (n : Nat) : Fld := ⟨rRingCtrl n, 18, 1⟩
def rRingTimeout (n : Nat) : Nat := 0x10004 + 64 * n
def ringTimeoutDefaultTimeoutUs (n : Nat) : Fld := ⟨rRingTimeout n, 0, 20⟩
def ringTimeoutFenceWaitCues (n : Nat) : Fld := ⟨rRingTimeout n, 20, 8⟩
def rRingIrq (n : Nat) : Nat := 0x10008 + 64 * n
def ringIrqCount (n : Nat) : Fld := ⟨rRingIrq n, 0, 16⟩
def ringIrqDelayUs (n : Nat) : Fld := ⟨rRingIrq n, 16, 16⟩
def rRingSqBase (n : Nat) : Nat := 0x10010 + 64 * n
def ringSqBaseValue (n : Nat) : Fld := ⟨rRingSqBase n, 0, 64⟩
def rRingCqBase (n : Nat) : Nat := 0x10018 + 64 * n
def ringCqBaseValue (n : Nat) : Fld := ⟨rRingCqBase n, 0, 64⟩
def rRingDbAddr (n : Nat) : Nat := 0x10020 + 64 * n
def ringDbAddrValue (n : Nat) : Fld := ⟨rRingDbAddr n, 0, 64⟩
def rRingStatusAddr (n : Nat) : Nat := 0x10028 + 64 * n
def ringStatusAddrValue (n : Nat) : Fld := ⟨rRingStatusAddr n, 0, 64⟩
def rCtxCtrl (n : Nat) : Nat := 0x20000 + 128 * n
def ctxCtrlEn (n : Nat) : Fld := ⟨rCtxCtrl n, 0, 1⟩
def rCtxSched (n : Nat) : Nat := 0x20004 + 128 * n
def ctxSchedDeadlineCues (n : Nat) : Fld := ⟨rCtxSched n, 0, 10⟩
def ctxSchedSharePct (n : Nat) : Fld := ⟨rCtxSched n, 10, 7⟩
def rCtxFallback (n : Nat) : Nat := 0x20008 + 128 * n
def ctxFallbackEn (n : Nat) : Fld := ⟨rCtxFallback n, 0, 1⟩
def ctxFallbackRing (n : Nat) : Fld := ⟨rCtxFallback n, 1, 8⟩
def ctxFallbackCount (n : Nat) : Fld := ⟨rCtxFallback n, 9, 8⟩
def rCtxArith (n : Nat) : Nat := 0x2000C + 128 * n
def ctxArithFormatOrder (n : Nat) : Fld := ⟨rCtxArith n, 0, 1⟩
def ctxArithRoundSr (n : Nat) : Fld := ⟨rCtxArith n, 1, 1⟩
def ctxArithCompat (n : Nat) : Fld := ⟨rCtxArith n, 2, 1⟩
def rCtxSrSeedLo (n : Nat) : Nat := 0x20010 + 128 * n
def ctxSrSeedLoSeedLo (n : Nat) : Fld := ⟨rCtxSrSeedLo n, 0, 32⟩
def rCtxSrSeedHi (n : Nat) : Nat := 0x20014 + 128 * n
def ctxSrSeedHiSeedHi (n : Nat) : Fld := ⟨rCtxSrSeedHi n, 0, 32⟩
def rCtxWidenBase (n : Nat) : Nat := 0x20018 + 128 * n
def ctxWidenBaseBase (n : Nat) : Fld := ⟨rCtxWidenBase n, 0, 64⟩
def rCtxFenceBase (n : Nat) : Nat := 0x20020 + 128 * n
def ctxFenceBaseBase (n : Nat) : Fld := ⟨rCtxFenceBase n, 0, 64⟩
def rCtxKvpages (n : Nat) : Nat := 0x20028 + 128 * n
def ctxKvpagesLimit (n : Nat) : Fld := ⟨rCtxKvpages n, 0, 24⟩
def rCtxKvheld (n : Nat) : Nat := 0x2002C + 128 * n
def ctxKvheldHeld (n : Nat) : Fld := ⟨rCtxKvheld n, 0, 24⟩
def rCtxQuotaHbm (n : Nat) : Nat := 0x20030 + 128 * n
def ctxQuotaHbmGranules (n : Nat) : Fld := ⟨rCtxQuotaHbm n, 0, 20⟩
def rCtxQuotaLpddr (n : Nat) : Nat := 0x20034 + 128 * n
def ctxQuotaLpddrGranules (n : Nat) : Fld := ⟨rCtxQuotaLpddr n, 0, 20⟩
def rCtxQuotaFlash (n : Nat) : Nat := 0x20038 + 128 * n
def ctxQuotaFlashTiles (n : Nat) : Fld := ⟨rCtxQuotaFlash n, 0, 32⟩
def rCtxUseHbm (n : Nat) : Nat := 0x2003C + 128 * n
def ctxUseHbmGranules (n : Nat) : Fld := ⟨rCtxUseHbm n, 0, 20⟩
def rCtxUseLpddr (n : Nat) : Nat := 0x20040 + 128 * n
def ctxUseLpddrGranules (n : Nat) : Fld := ⟨rCtxUseLpddr n, 0, 20⟩
def rCtxUseFlash (n : Nat) : Nat := 0x20044 + 128 * n
def ctxUseFlashTiles (n : Nat) : Fld := ⟨rCtxUseFlash n, 0, 32⟩
def rCtxFlashBase (n : Nat) : Nat := 0x20048 + 128 * n
def ctxFlashBaseFirst (n : Nat) : Fld := ⟨rCtxFlashBase n, 0, 32⟩
def rCtxFlashSlots (n : Nat) : Nat := 0x2004C + 128 * n
def ctxFlashSlotsSlots (n : Nat) : Fld := ⟨rCtxFlashSlots n, 0, 32⟩
def rCtxFabric (n : Nat) : Nat := 0x20050 + 128 * n
def ctxFabricChorus (n : Nat) : Fld := ⟨rCtxFabric n, 0, 10⟩
def ctxFabricChorusEn (n : Nat) : Fld := ⟨rCtxFabric n, 10, 1⟩
def ctxFabricGen (n : Nat) : Fld := ⟨rCtxFabric n, 16, 8⟩
def ctxFabricTearing (n : Nat) : Fld := ⟨rCtxFabric n, 24, 1⟩

/-- Rows of the map, part 1. -/
def regRows1 : List RegRow := [
  { base := 0x0, stride := 1, count := 1, size := 4, fields := [⟨0, 16, .ro⟩, ⟨16, 4, .ro⟩, ⟨20, 1, .ro⟩] },
  { base := 0x8, stride := 1, count := 1, size := 8, fields := [⟨0, 64, .ro⟩] },
  { base := 0x10, stride := 1, count := 1, size := 4, fields := [⟨0, 3, .ro⟩, ⟨3, 1, .ro⟩, ⟨4, 1, .ro⟩, ⟨5, 1, .ro⟩, ⟨6, 1, .ro⟩, ⟨8, 8, .ro⟩, ⟨16, 8, .ro⟩] },
  { base := 0x14, stride := 1, count := 1, size := 4, fields := [⟨0, 32, .wo⟩] },
  { base := 0x18, stride := 1, count := 1, size := 8, fields := [⟨0, 64, .rwl⟩] },
  { base := 0x20, stride := 1, count := 1, size := 4, fields := [⟨0, 32, .wo⟩] },
  { base := 0x24, stride := 1, count := 1, size := 4, fields := [⟨0, 2, .ro⟩, ⟨8, 8, .ro⟩, ⟨16, 8, .ro⟩] },
  { base := 0x28, stride := 1, count := 1, size := 4, fields := [⟨0, 32, .ro⟩] },
  { base := 0x2C, stride := 1, count := 1, size := 4, fields := [⟨0, 6, .rwl⟩] },
  { base := 0x30, stride := 1, count := 1, size := 4, fields := [⟨0, 10, .ro⟩, ⟨10, 4, .ro⟩, ⟨14, 1, .ro⟩] },
  { base := 0x1000, stride := 1, count := 1, size := 4, fields := [⟨0, 7, .ro⟩] },
  { base := 0x1004, stride := 1, count := 1, size := 4, fields := [⟨0, 32, .ro⟩] },
  { base := 0x1008, stride := 1, count := 1, size := 4, fields := [⟨0, 32, .ro⟩] },
  { base := 0x100C, stride := 1, count := 1, size := 4, fields := [⟨0, 32, .ro⟩] },
  { base := 0x1100, stride := 4, count := 64, size := 4, fields := [⟨0, 1, .rwl⟩, ⟨1, 1, .rwl⟩, ⟨2, 11, .rwl⟩] },
  { base := 0x2000, stride := 1, count := 1, size := 4, fields := [⟨0, 15, .rwl⟩, ⟨15, 1, .rwl⟩, ⟨16, 2, .rwl⟩, ⟨18, 2, .rwl⟩] },
  { base := 0x2004, stride := 1, count := 1, size := 4, fields := [⟨0, 3, .ro⟩, ⟨3, 2, .ro⟩, ⟨5, 1, .ro⟩, ⟨6, 1, .ro⟩, ⟨7, 12, .ro⟩, ⟨19, 13, .ro⟩] },
  { base := 0x2008, stride := 1, count := 1, size := 8, fields := [⟨0, 64, .ro⟩] },
  { base := 0x2010, stride := 1, count := 1, size := 4, fields := [⟨0, 2, .rw⟩, ⟨2, 6, .rw⟩, ⟨8, 16, .rw⟩, ⟨31, 1, .wo⟩] },
  { base := 0x2018, stride := 1, count := 1, size := 8, fields := [⟨0, 64, .rwl⟩] },
  { base := 0x2040, stride := 4, count := 8, size := 4, fields := [⟨0, 2, .rw⟩, ⟨2, 2, .ro⟩, ⟨4, 1, .ro⟩] },
  { base := 0x3000, stride := 1, count := 1, size := 8, fields := [⟨0, 16, .ro⟩, ⟨16, 32, .ro⟩] },
  { base := 0x3008, stride := 1, count := 1, size := 4, fields := [⟨0, 8, .rwl⟩] },
  { base := 0x3010, stride := 1, count := 1, size := 8, fields := [⟨0, 64, .rwl⟩] }]

/-- Rows of the map, part 2. -/
def regRows2 : List RegRow := [
  { base := 0x3018, stride := 1, count := 1, size := 4, fields := [⟨0, 5, .rwl⟩] },
  { base := 0x301C, stride := 1, count := 1, size := 4, fields := [⟨0, 32, .ro⟩] },
  { base := 0x3020, stride := 1, count := 1, size := 4, fields := [⟨0, 32, .rw⟩] },
  { base := 0x3024, stride := 1, count := 1, size := 4, fields := [⟨0, 32, .ro⟩] },
  { base := 0x3028, stride := 1, count := 1, size := 8, fields := [⟨0, 64, .rwl⟩] },
  { base := 0x3030, stride := 1, count := 1, size := 8, fields := [⟨0, 64, .rwl⟩] },
  { base := 0x3038, stride := 1, count := 1, size := 4, fields := [⟨0, 8, .ro⟩, ⟨8, 8, .ro⟩, ⟨16, 1, .ro⟩, ⟨17, 1, .ro⟩] },
  { base := 0x303C, stride := 1, count := 1, size := 4, fields := [⟨0, 8, .ro⟩, ⟨8, 8, .ro⟩, ⟨16, 1, .ro⟩, ⟨17, 6, .ro⟩] },
  { base := 0x3040, stride := 4, count := 8, size := 4, fields := [⟨0, 10, .ro⟩, ⟨10, 1, .ro⟩, ⟨11, 2, .ro⟩, ⟨13, 1, .ro⟩, ⟨14, 1, .ro⟩, ⟨15, 1, .ro⟩] },
  { base := 0x4000, stride := 1, count := 1, size := 4, fields := [⟨0, 16, .ro⟩, ⟨16, 2, .ro⟩, ⟨18, 3, .ro⟩, ⟨26, 5, .ro⟩] },
  { base := 0x4004, stride := 1, count := 1, size := 4, fields := [⟨0, 32, .ro⟩] },
  { base := 0x4008, stride := 1, count := 1, size := 4, fields := [⟨0, 1, .ro⟩, ⟨1, 1, .ro⟩, ⟨2, 1, .ro⟩, ⟨3, 1, .ro⟩] },
  { base := 0x400C, stride := 1, count := 1, size := 4, fields := [⟨0, 32, .ro⟩] },
  { base := 0x4010, stride := 1, count := 1, size := 8, fields := [⟨0, 64, .ro⟩] },
  { base := 0x4018, stride := 1, count := 1, size := 4, fields := [⟨0, 24, .rwl⟩] },
  { base := 0x401C, stride := 1, count := 1, size := 4, fields := [⟨0, 16, .rwl⟩] },
  { base := 0x4020, stride := 1, count := 1, size := 4, fields := [⟨0, 16, .ro⟩, ⟨16, 16, .ro⟩] },
  { base := 0x4024, stride := 1, count := 1, size := 4, fields := [⟨0, 16, .ro⟩, ⟨16, 1, .ro⟩] },
  { base := 0x4028, stride := 1, count := 1, size := 4, fields := [⟨0, 32, .ro⟩] },
  { base := 0x5000, stride := 1, count := 1, size := 4, fields := [⟨0, 12, .rwl⟩] },
  { base := 0x5004, stride := 1, count := 1, size := 4, fields := [⟨0, 14, .rwl⟩] },
  { base := 0x5008, stride := 1, count := 1, size := 8, fields := [⟨0, 64, .rwl⟩] },
  { base := 0x5010, stride := 1, count := 1, size := 4, fields := [⟨0, 16, .ro⟩, ⟨16, 1, .ro⟩, ⟨17, 1, .ro⟩, ⟨18, 1, .ro⟩] },
  { base := 0x5014, stride := 1, count := 1, size := 4, fields := [⟨0, 32, .ro⟩] }]

/-- Rows of the map, part 3. -/
def regRows3 : List RegRow := [
  { base := 0x5018, stride := 1, count := 1, size := 4, fields := [⟨0, 32, .ro⟩] },
  { base := 0x501C, stride := 1, count := 1, size := 4, fields := [⟨0, 32, .ro⟩] },
  { base := 0x5020, stride := 1, count := 1, size := 8, fields := [⟨0, 64, .rwl⟩] },
  { base := 0x5100, stride := 16, count := 12, size := 4, fields := [⟨0, 1, .rwl⟩, ⟨1, 1, .rwl⟩, ⟨2, 1, .wo⟩] },
  { base := 0x5104, stride := 16, count := 12, size := 4, fields := [⟨0, 3, .ro⟩, ⟨3, 1, .ro⟩, ⟨4, 12, .ro⟩, ⟨16, 4, .ro⟩, ⟨20, 12, .ro⟩] },
  { base := 0x5108, stride := 16, count := 12, size := 4, fields := [⟨0, 16, .ro⟩, ⟨16, 8, .ro⟩, ⟨24, 8, .ro⟩] },
  { base := 0x6000, stride := 1, count := 1, size := 8, fields := [⟨0, 64, .rwl⟩] },
  { base := 0x6008, stride := 1, count := 1, size := 4, fields := [⟨0, 8, .ro⟩, ⟨8, 1, .ro⟩, ⟨9, 1, .ro⟩, ⟨10, 12, .ro⟩] },
  { base := 0x600C, stride := 1, count := 1, size := 4, fields := [⟨0, 32, .ro⟩] },
  { base := 0x6010, stride := 1, count := 1, size := 8, fields := [⟨0, 64, .rwl⟩] },
  { base := 0x6018, stride := 1, count := 1, size := 4, fields := [⟨0, 5, .rwl⟩] },
  { base := 0x601C, stride := 1, count := 1, size := 4, fields := [⟨0, 32, .ro⟩] },
  { base := 0x6020, stride := 1, count := 1, size := 4, fields := [⟨0, 32, .rw⟩] },
  { base := 0x6024, stride := 1, count := 1, size := 4, fields := [⟨0, 32, .ro⟩] },
  { base := 0x7000, stride := 1, count := 1, size := 4, fields := [⟨0, 1, .ro⟩, ⟨1, 3, .ro⟩, ⟨4, 8, .ro⟩, ⟨12, 8, .ro⟩, ⟨20, 4, .ro⟩] },
  { base := 0x7004, stride := 1, count := 1, size := 4, fields := [⟨0, 16, .ro⟩] },
  { base := 0x7008, stride := 1, count := 1, size := 4, fields := [⟨0, 2, .rwl⟩, ⟨2, 4, .rwl⟩] },
  { base := 0x700C, stride := 1, count := 1, size := 4, fields := [⟨0, 8, .rwl⟩] },
  { base := 0x7010, stride := 1, count := 1, size := 4, fields := [⟨0, 8, .wo⟩] },
  { base := 0x7014, stride := 1, count := 1, size := 4, fields := [⟨0, 8, .rwl⟩, ⟨8, 1, .rwl⟩] },
  { base := 0x7018, stride := 1, count := 1, size := 4, fields := [⟨0, 8, .wo⟩, ⟨31, 1, .wo⟩] },
  { base := 0x701C, stride := 1, count := 1, size := 4, fields := [⟨0, 32, .ro⟩] },
  { base := 0x7020, stride := 1, count := 1, size := 4, fields := [⟨0, 32, .ro⟩] },
  { base := 0x7028, stride := 1, count := 1, size := 8, fields := [⟨0, 64, .rwl⟩] }]

/-- Rows of the map, part 4. -/
def regRows4 : List RegRow := [
  { base := 0x7030, stride := 1, count := 1, size := 4, fields := [⟨0, 5, .rwl⟩] },
  { base := 0x7034, stride := 1, count := 1, size := 4, fields := [⟨0, 32, .ro⟩] },
  { base := 0x7038, stride := 1, count := 1, size := 4, fields := [⟨0, 32, .rw⟩] },
  { base := 0x703C, stride := 1, count := 1, size := 4, fields := [⟨0, 32, .ro⟩] },
  { base := 0x8000, stride := 1, count := 1, size := 4, fields := [⟨0, 3, .ro⟩, ⟨3, 2, .ro⟩, ⟨5, 1, .ro⟩, ⟨6, 1, .ro⟩, ⟨7, 1, .ro⟩] },
  { base := 0x8004, stride := 1, count := 1, size := 4, fields := [⟨0, 8, .wo⟩, ⟨31, 1, .wo⟩] },
  { base := 0x8008, stride := 1, count := 1, size := 4, fields := [⟨0, 1, .ro⟩, ⟨8, 8, .ro⟩] },
  { base := 0x800C, stride := 1, count := 1, size := 4, fields := [⟨0, 2, .rw⟩, ⟨2, 1, .rw⟩, ⟨3, 16, .rw⟩] },
  { base := 0x8010, stride := 1, count := 1, size := 4, fields := [⟨0, 3, .ro⟩, ⟨3, 1, .ro⟩, ⟨4, 4, .ro⟩] },
  { base := 0x8018, stride := 1, count := 1, size := 8, fields := [⟨0, 64, .rw⟩] },
  { base := 0x8020, stride := 1, count := 1, size := 4, fields := [⟨0, 5, .rw⟩, ⟨5, 1, .rw⟩] },
  { base := 0x10000, stride := 64, count := 256, size := 4, fields := [⟨0, 1, .rwl⟩, ⟨1, 1, .rwl⟩, ⟨2, 6, .rwl⟩, ⟨8, 5, .rwl⟩, ⟨13, 5, .rwl⟩, ⟨18, 1, .rwl⟩] },
  { base := 0x10004, stride := 64, count := 256, size := 4, fields := [⟨0, 20, .rwl⟩, ⟨20, 8, .rwl⟩] },
  { base := 0x10008, stride := 64, count := 256, size := 4, fields := [⟨0, 16, .rwl⟩, ⟨16, 16, .rwl⟩] },
  { base := 0x10010, stride := 64, count := 256, size := 8, fields := [⟨0, 64, .rwl⟩] },
  { base := 0x10018, stride := 64, count := 256, size := 8, fields := [⟨0, 64, .rwl⟩] },
  { base := 0x10020, stride := 64, count := 256, size := 8, fields := [⟨0, 64, .rwl⟩] },
  { base := 0x10028, stride := 64, count := 256, size := 8, fields := [⟨0, 64, .rwl⟩] },
  { base := 0x20000, stride := 128, count := 64, size := 4, fields := [⟨0, 1, .rwl⟩] },
  { base := 0x20004, stride := 128, count := 64, size := 4, fields := [⟨0, 10, .rwl⟩, ⟨10, 7, .rwl⟩] },
  { base := 0x20008, stride := 128, count := 64, size := 4, fields := [⟨0, 1, .rwl⟩, ⟨1, 8, .rwl⟩, ⟨9, 8, .rwl⟩] },
  { base := 0x2000C, stride := 128, count := 64, size := 4, fields := [⟨0, 1, .rwl⟩, ⟨1, 1, .rwl⟩, ⟨2, 1, .rwl⟩] },
  { base := 0x20010, stride := 128, count := 64, size := 4, fields := [⟨0, 32, .rwl⟩] },
  { base := 0x20014, stride := 128, count := 64, size := 4, fields := [⟨0, 32, .rwl⟩] }]

/-- Rows of the map, part 5. -/
def regRows5 : List RegRow := [
  { base := 0x20018, stride := 128, count := 64, size := 8, fields := [⟨0, 64, .rwl⟩] },
  { base := 0x20020, stride := 128, count := 64, size := 8, fields := [⟨0, 64, .rwl⟩] },
  { base := 0x20028, stride := 128, count := 64, size := 4, fields := [⟨0, 24, .rwl⟩] },
  { base := 0x2002C, stride := 128, count := 64, size := 4, fields := [⟨0, 24, .ro⟩] },
  { base := 0x20030, stride := 128, count := 64, size := 4, fields := [⟨0, 20, .rwl⟩] },
  { base := 0x20034, stride := 128, count := 64, size := 4, fields := [⟨0, 20, .rwl⟩] },
  { base := 0x20038, stride := 128, count := 64, size := 4, fields := [⟨0, 32, .rwl⟩] },
  { base := 0x2003C, stride := 128, count := 64, size := 4, fields := [⟨0, 20, .ro⟩] },
  { base := 0x20040, stride := 128, count := 64, size := 4, fields := [⟨0, 20, .ro⟩] },
  { base := 0x20044, stride := 128, count := 64, size := 4, fields := [⟨0, 32, .ro⟩] },
  { base := 0x20048, stride := 128, count := 64, size := 4, fields := [⟨0, 32, .rwl⟩] },
  { base := 0x2004C, stride := 128, count := 64, size := 4, fields := [⟨0, 32, .rwl⟩] },
  { base := 0x20050, stride := 128, count := 64, size := 4, fields := [⟨0, 10, .rwl⟩, ⟨10, 1, .rwl⟩, ⟨16, 8, .ro⟩, ⟨24, 1, .ro⟩] }]

/-- The whole map. -/
def regRows : List RegRow := regRows1 ++ regRows2 ++ regRows3 ++ regRows4 ++ regRows5

/-- The register that a row holds at an offset, if it holds one. -/
def RegRow.holds (r : RegRow) (off : Nat) : Bool :=
  r.base ≤ off && (off - r.base) % r.stride == 0 && (off - r.base) / r.stride < r.count

/-- The row of the register at an offset. -/
def regRowAt (off : Nat) : Option RegRow := regRows.find? fun r => r.holds off

/-- Reset values (R515 to R518); every other register resets to 0. Per-unit bits reset to 0 (log entry 2). -/
def regReset (off : Nat) : Nat :=
  if off = 0x0 then 0x4216 else
  if off = 0x2000 then 0x3e8 else
  if off = 0x3008 then 0x18 else
  if off = 0x3018 then 0xa else
  if off = 0x4024 then 0x10000 else
  if off = 0x5004 then 0xc8 else
  if 0x5100 ≤ off ∧ off < 0x5100 + 16 * 12 ∧ off % 16 = 0 then 0x2 else
  if 0x5100 ≤ off ∧ off < 0x5100 + 16 * 12 ∧ off % 16 = 4 then 0x4 else
  if off = 0x6018 then 0x8 else
  if off = 0x7008 then 0x23 else
  if off = 0x700c then 0x40 else
  if off = 0x7014 then 0x18 else
  if off = 0x7030 then 0x8 else
  if off = 0x800c then 0x324 else
  if off = 0x8020 then 0xc else
  if 0x10000 ≤ off ∧ off < 0x14000 ∧ off % 64 = 4 then 0x1002710 else
  0

end Sys2Proof.Machine
end

