-- ==== Sys2Proof/Machine/Regs.lean ====
section
/-! DEFINITION. Reading and writing registers (R12, R41, R432, R510 to R514), the MSI-X vectors, and who the host port
answers. -/
namespace Sys2Proof.Machine

/-- Value of a register. A hardened register whose parity fails reads as its configuration image value (R432). -/
def State.reg (s : State) (off : Nat) : Nat :=
  if s.regs.imageHeld && s.regs.parityBad.contains off then
    match cellFind off s.regs.image with
    | some v => v.toNat
    | none => regReset off
  else
    match cellFind off s.regs.vals with
    | some v => v.toNat
    | none => regReset off

/-- Value of a field of a register. -/
def State.fld (s : State) (f : Fld) : Nat := field (s.reg f.off) f.lo f.w

/-- A one-bit field as a truth value. -/
def State.flag (s : State) (f : Fld) : Bool := s.fld f == 1

/-- The register file with one register set; a register at its reset value is not listed. -/
def RegFile.put (r : RegFile) (off v : Nat) : RegFile :=
  { r with
    vals := cellPut r.vals off (if v = regReset off then none else some (BitVec.ofNat 64 v))
    parityBad := r.parityBad.filter fun x => decide (x ≠ off) }

/-- A register set to a value. -/
def State.setReg (s : State) (off v : Nat) : State := { s with regs := s.regs.put off v }

/-- A field set to a value. -/
def State.setFld (s : State) (f : Fld) (v : Nat) : State := s.setReg f.off (setField (s.reg f.off) f.lo f.w v)

/-- A one-bit field set or cleared. -/
def State.setFlag (s : State) (f : Fld) (b : Bool) : State := s.setFld f (if b then 1 else 0)

/-- A counter field raised, saturating at its maximum. -/
def State.bump (s : State) (f : Fld) (n : Nat := 1) : State := s.setFld f (satAdd f.w (s.fld f) n)

/-- The seal has passed (R40). -/
def State.isSealed (s : State) : Bool := s.fld sealStatusState == 1

/-- The current cue number (R81). -/
def State.cueNo (s : State) : Nat := s.reg rCueNumber

/-- This member's number (R365). -/
def State.member (s : State) : Nat := s.fld fabMemberMember

/-- One output added to what leaves the block. -/
def State.emit (s : State) (o : Output) : State := { s with outs := o :: s.outs }

/-- The next free value's index, and the state that has used it up (log entry 1). -/
def State.draw (s : State) : State := { s with freeCtr := s.freeCtr + 1 }

/-- Word `i` of the MSI-X table. Vector control words reset to masked, as PCIe Base 5.0 has them (R510; log
entry 11). -/
def State.msixWord (s : State) (i : Nat) : Nat :=
  match cellFind i s.regs.msixTable with
  | some v => v.toNat
  | none => if i % 4 = 3 then 1 else 0

/-- A vector is masked by its table entry. -/
def State.msixMasked (s : State) (v : Nat) : Bool := bit (s.msixWord (4 * v + 3)) 0

/-- An MSI-X vector is raised: its message is sent, or its pending bit is set while it is masked or the host port is
down (R510; log entry 11). -/
def State.raise (s : State) (v : Nat) : State :=
  if s.msixMasked v || !s.host.up then
    { s with regs := { s.regs with msixPending := addVal v s.regs.msixPending } }
  else s.emit (.msix v)

/-- A device event: vector 256 (R70). -/
def State.event (s : State) : State := s.raise 256

/-- The IDE streams that the link needs are up (R468). -/
def State.ideUp (s : State) : Bool :=
  if s.host.cxl then s.host.ide.contains .io && s.host.ide.contains .mem else s.host.ide.contains .link

/-- Host IDE is required: the Deployed state (R468). -/
def State.ideRequired (s : State) : Bool := s.fld lcStatusState == 2

/-- An offset that answers the host in every state: identification, and the security, power and mailbox blocks (R514,
R482). -/
def alwaysServed (off : Nat) : Bool :=
  (0x8000 ≤ off && off < 0xA000) || off == rIdPart || off == rIdSerial || off == rIdSerial + 4

/-- The host port answers a BAR access at an offset (R480, R482, R514). -/
def State.hostServes (s : State) (off : Nat) : Bool :=
  s.host.released && s.host.up &&
    (alwaysServed off && !((s.boot.sealBlocked) && (off == rIdPart || off == rIdSerial || off == rIdSerial + 4)) ||
      !(s.ideRequired && !s.ideUp) && !s.boot.sealBlocked)

/-- Some field of a row has this access. -/
def RegRow.has (r : RegRow) (a : Access) : Bool := r.fields.any fun f => f.acc == a

/-- What a write of `v` leaves in a register that holds `old`: RW fields take the new value, RWL fields do so while the
device is not sealed, WO fields hold nothing, RO fields keep theirs (R12, R41). -/
def RegRow.merged (r : RegRow) (isSealed : Bool) (old v : Nat) : Nat :=
  r.fields.foldl (fun acc f =>
    if f.acc == .rw || (f.acc == .rwl && !isSealed) then setField acc f.lo f.w (field v f.lo f.w) else acc) old

/-- A write after the seal that counts as a violation (R41): any write to a register whose writable fields are all RWL;
otherwise one that would change an RWL field. -/
def RegRow.violates (r : RegRow) (old v : Nat) : Bool :=
  r.has .rwl &&
    (!(r.has .rw || r.has .wo) ||
      r.fields.any fun f => f.acc == .rwl && field v f.lo f.w != field old f.lo f.w)

/-- The count and event of R41. -/
def State.sealViolation (s : State) : State := (s.bump sealViolationCountCount).event

/-- A whole register written from outside, by its fields' access codes (R12, R41). -/
def State.writeWhole (s : State) (r : RegRow) (off v : Nat) : State :=
  let old := s.reg off
  let t := if s.isSealed && r.violates old v then s.sealViolation else s
  if r.merged s.isSealed old v = old then t else t.setReg off (r.merged s.isSealed old v)

/-- Offset of the register that holds a 4-byte word: the word's own, or that of the 64-bit register it is the upper half
of. -/
def regBase (off : Nat) : Nat :=
  match regRowAt off with
  | some _ => off
  | none => if off % 8 = 4 then off - 4 else off

/-- A register write of 4 or 8 bytes resolved by R511: the whole value to be written and the register it goes to, if the
write takes effect now; otherwise only the lower half is kept. -/
inductive RegWrite where
  | whole (row : RegRow) (off value : Nat)
  | lower (off value : Nat)
  | nothing
  deriving DecidableEq, Repr

/-- Resolution of a write under R510 and R511. -/
def State.resolveWrite (s : State) (off size v : Nat) : RegWrite :=
  if size = 8 && off % 8 = 0 then
    match regRowAt off with
    | some r => if r.size = 8 then .whole r off v else .whole r off (v % 2 ^ 32)
    | none => .nothing
  else if size = 4 && off % 4 = 0 then
    match regRowAt off with
    | some r => if r.size = 8 then .lower off v else .whole r off v
    | none =>
      match regRowAt (regBase off) with
      | some r =>
        if r.size = 8 then
          let lo := match cellFind (regBase off) s.regs.lows with
            | some x => x.toNat
            | none => s.reg (regBase off) % 2 ^ 32
          .whole r (regBase off) (v % 2 ^ 32 * 2 ^ 32 + lo)
        else .nothing
      | none => .nothing
  else .nothing

/-- The lower half of a 64-bit register kept until the upper half is written (R511). -/
def State.keepLower (s : State) (off v : Nat) : State :=
  { s with regs := { s.regs with lows := cellPut s.regs.lows off (some (BitVec.ofNat 32 v)) } }

/-- The kept lower half used up by an upper-half write. -/
def State.dropLower (s : State) (off : Nat) : State :=
  { s with regs := { s.regs with lows := cellPut s.regs.lows off none } }

/-- One access to one register as the register block performs it (R511, R12, R41). After the seal the lower half of an `RWL`
register is kept, and is no violation before its upper half comes (DESIGN CHOICE, log entry 75). -/
def State.writeOne (s : State) (off size v : Nat) : State :=
  match s.resolveWrite off size v with
  | .whole r o x => (s.writeWhole r o x).dropLower o
  | .lower o x => s.keepLower o x
  | .nothing => s

/-- A register at an offset is 64 bits wide. -/
def isWide (off : Nat) : Bool :=
  match regRowAt off with
  | some r => r.size == 8
  | none => false

/-- A write of 4 or 8 bytes. One of 8 bytes over two 4-byte registers writes both, the lower first. -/
def State.writeReg (s : State) (off size v : Nat) : State :=
  if size = 8 && !isWide off then (s.writeOne off 4 (v % 2 ^ 32)).writeOne (off + 4) 4 (v / 2 ^ 32)
  else s.writeOne off size v

/-- WO and reserved bits of a register read 0: the value as a read returns it (R510, R515). -/
def RegRow.readable (r : RegRow) (v : Nat) : Nat :=
  r.fields.foldl (fun acc f => if f.acc == .wo then acc else setField acc f.lo f.w (field v f.lo f.w)) 0

/-- Restarts of the stage manager within the last 24 h of powered time. -/
def State.recentRestarts (s : State) : List Nat := s.rel.smRestarts.filter fun t => decide (s.rel.poweredS ≤ t + 86400)

/-- Value of a register as a read finds it: `HEALTH_STATUS.SM_RESTARTS` counts anew each time (Table 15.10). -/
def State.live (s : State) (off : Nat) : Nat :=
  if off = rHealthStatus then
    setField (s.reg off) healthStatusSmRestarts.lo healthStatusSmRestarts.w (min s.recentRestarts.length 15)
  else s.reg off

/-- A read of 4 or 8 bytes by the device or the fabric (R510, R511): reserved offsets read 0. -/
def State.readReg (s : State) (off size : Nat) : Nat :=
  if size = 8 then
    match regRowAt off with
    | some r =>
      if r.size = 8 then r.readable (s.live off)
      else r.readable (s.live off) + 2 ^ 32 *
        (match regRowAt (off + 4) with
         | some q => q.readable (s.live (off + 4))
         | none => 0)
    | none =>
      match regRowAt (off + 4) with
      | some q => 2 ^ 32 * q.readable (s.live (off + 4))
      | none => 0
  else
    match regRowAt off with
    | some r => r.readable (s.live off) % 2 ^ 32
    | none =>
      match regRowAt (regBase off) with
      | some r => if r.size = 8 then r.readable (s.live (regBase off)) / 2 ^ 32 else 0
      | none => 0

/-- The widths a register access splits into: 8 bytes where aligned and at least 8 remain, else 4 (R510). -/
def regAccesses : Nat → Nat → Nat → List (Nat × Nat)
  | 0, _, _ => []
  | n + 1, off, len =>
    if len = 0 then []
    else if off % 8 = 0 ∧ 8 ≤ len then (off, 8) :: regAccesses n (off + 8) (len - 8)
    else (off, 4) :: regAccesses n (off + 4) (len - 4)

/-- Bytes of a register-tier load (R510, R514): the mailbox and the aperture read 0. -/
def State.loadRegs (s : State) (off len : Nat) : List Byte :=
  (regAccesses (len / 4 + 1) off len).flatMap fun (o, n) =>
    if (0x9000 ≤ o && o < 0xA000) || (0x100000 ≤ o && o < 0x200000) then leBytes n 0
    else if 0x30000 ≤ o && o < 0x31010 then leBytes 4 (s.msixWord ((o - 0x30000) / 4)) ++
      (if n = 8 then leBytes 4 (s.msixWord ((o - 0x30000) / 4 + 1)) else [])
    else if 0x32000 ≤ o && o < 0x32040 then
      leBytes n (s.regs.msixPending.foldl (fun acc v =>
        if (o - 0x32000) * 8 ≤ v ∧ v < (o - 0x32000) * 8 + 8 * n then acc + 2 ^ (v - (o - 0x32000) * 8) else acc) 0)
    else leBytes n (s.readReg o n)

/-- The parity failures that a datapath read heals: every one is given its image value back (R432). Without an image a
device event is raised instead. -/
def State.healParity (s : State) : State :=
  if s.regs.parityBad.isEmpty then s
  else if s.regs.imageHeld then
    s.regs.parityBad.foldl (fun t off => t.setReg off
      (match cellFind off s.regs.image with
       | some v => v.toNat
       | none => regReset off)) s
  else s.event

end Sys2Proof.Machine
end

