-- ==== Sys2Proof/Machine/Ops.lean ====
section
/-! DEFINITION. The named operations that the meanings share: addresses, memory with its codes, the logs, rings and
records, and the running of an item. -/
namespace Sys2Proof.Machine

/- ## The cue message (Tables 3.2 and 3.6) -/

/-- A table announcement (Table 3.6). -/
def announceBytes (a : Announce) : List Byte :=
  leBytes 1 (if a.valid then 1 else 0) ++ leBytes 1 0 ++ leBytes 2 a.gen ++ leBytes 4 a.target

/-- The 48 bytes of a cue message (Table 3.2). -/
def cueBytes (m : CueMsg) : List Byte :=
  leBytes 8 m.cue ++ leBytes 8 m.timeNs ++ leBytes 2 (m.period + if m.blocking then 2 ^ 15 else 0) ++
    leBytes 2 (m.origin + 2 ^ 12 * m.rank) ++ leBytes 4 m.residenceNs ++ announceBytes m.annBlk ++ announceBytes m.annChorus ++
    announceBytes m.annRoute

/- ## Status codes (Table 2.17) -/

def stOk : Nat := 0x00
def stDegraded : Nat := 0x01
def stEmpty : Nat := 0x02
def stConcealed : Nat := 0x03
def stOverPlan : Nat := 0x10
def stBad : Nat := 0x11
def stQuota : Nat := 0x12
def stNoPage : Nat := 0x13
def stTimeout : Nat := 0x20
def stCancelled : Nat := 0x21
def stPreempted : Nat := 0x22
def stOverrun : Nat := 0x23
def stUncorrectable : Nat := 0x30
def stMismatch : Nat := 0x31
def stPartReset : Nat := 0x32
def stMemberLost : Nat := 0x33
def stUnsupported : Nat := 0x41
def stHoldup : Nat := 0x50
def stNotAuth : Nat := 0x60

/- ## Global addresses (R27 to R31) -/

/-- Member, tier and offset of a global address (Table 1.9), and the key of `Mem.dev`. -/
def addrMember (a : Nat) : Nat := field a 45 12
def addrTier (a : Nat) : Nat := field a 43 2
def addrOff (a : Nat) : Nat := field a 0 43
def addrKey (a : Nat) : Nat := field a 0 45

/-- A global address from its fields. -/
def mkAddr (member key : Nat) : Nat := member * 2 ^ 45 + key

/-- A member whose addresses this member serves as its own: its own number, or the LOST of an alias in force whose
SUBSTITUTE it is (R31, R369). -/
def State.isOwn (s : State) (m : Nat) : Bool :=
  m == s.member || s.fab.route.aliases.any fun (l, sub) => l == m && sub == s.member

/-- Usable bytes of LPDDR package `d`, 0 where it is unfitted (Table 9.1, R252). -/
def State.lpddrUsable (s : State) (d : Nat) : Nat :=
  if s.fld ⟨rLpddrCfg, d, 1⟩ = 1 then
    match s.fld ⟨rLpddrCfg, 16 + 2 * d, 2⟩ with
    | 0 => 0x380000000
    | 1 => 0x700000000
    | 2 => 0xE00000000
    | _ => 0
  else 0

/-- A range of offsets of a tier lies in one populated stack or package (R29). -/
def State.populated (s : State) (tier off len : Nat) : Bool :=
  let u := off / 2 ^ 36
  let o := off % 2 ^ 36
  if tier = 0 then decide (u < 8) && decide (o + len ≤ 0xC00000000)
  else if tier = 1 then decide (u < 16) && decide (o + len ≤ s.lpddrUsable u) && decide (o < s.lpddrUsable u)
  else false

/-- A range that no board populates (R29): used of other members, whose population only they know. -/
def neverPopulated (tier off len : Nat) : Bool :=
  let u := off / 2 ^ 36
  let o := off % 2 ^ 36
  if tier = 0 then decide (8 ≤ u) || decide (0xC00000000 < o + len)
  else if tier = 1 then decide (16 ≤ u) || decide (0xE00000000 < o + len)
  else if tier = 3 then decide (0x400000 < off + len)
  else false

/-- A range of this member's HBM or LPDDR, by its global address (the placement rule of many registers). -/
def State.ownMem (s : State) (a len : Nat) : Bool :=
  decide (a / 2 ^ 57 = 0) && s.isOwn (addrMember a) && decide (addrTier a < 2) &&
    s.populated (addrTier a) (addrOff a) len

/- ## Units of protection and uncorrectable data (R255 to R262) -/

/-- Bytes of the unit of protection that holds a key of `Mem.dev`. -/
def devUnit (key : Nat) : Nat := if key < 2 ^ 43 then 16 else 8

/-- What the codes make of one codeword or word. -/
inductive EccVerdict where
  | clean
  | corrected
  | uncorrectable
  /-- More errors than the code is said to detect: the spec states no outcome. -/
  | beyond
  deriving DecidableEq, Repr

/-- Table 9.2, for one codeword with its errors and the lanes already marked. -/
def hbmVerdict (marked : List Nat) (errs : List CellError) : EccVerdict :=
  let erased := (errs.filter fun x => x.parity).foldl (fun l x => addVal x.lane l) marked
  let others := errs.filter fun x => decide (x.symbols ≠ 0) && !erased.contains x.lane
  let n : Nat := others.foldl (fun a x => a + x.symbols) 0
  if 2 ≤ erased.length then .uncorrectable
  else if erased.length = 1 then (if n = 0 then (if errs.isEmpty then .clean else .corrected) else .beyond)
  else if n = 0 then .clean
  else if n = 1 then .corrected
  else if n ≤ 3 then .uncorrectable
  else .beyond

/-- A SECDED or Hsiao word with `n` bits in error (R258, R259). -/
def wordVerdict (n : Nat) : EccVerdict :=
  if n = 0 then .clean else if n = 1 then .corrected else if n = 2 then .uncorrectable else .beyond

/-- Outcome where the spec states none: by free value the pattern is detected, or it passes for correct data
(log entry 41). -/
def State.resolved (s : State) (place : Nat) (v : EccVerdict) : EccVerdict :=
  if v = .beyond then (if Config.eccDetects s.freeCtr place % 2 = 0 then .uncorrectable else .clean) else v

/-- Stack × 64 + pseudo-channel of an HBM key (R250). -/
def pcOf (key : Nat) : Nat := key / 2 ^ 36 * 64 + Nat.xor (field key 8 6) (field key 20 6)

/-- Marked lanes of a pseudo-channel (R257). -/
def State.markedLanes (s : State) (pc : Nat) : List Nat := (List.range 5).filter fun l => s.mem.marked.contains (pc * 5 + l)

/-- Bits in error in one word of a line: words 8 to 15 are those of its check line (R258). -/
def wordErrors (errs : List CellError) (j : Nat) : Nat := (errs.filter fun x => x.cw == j).foldl (fun a x => a + x.symbols) 0

/-- What the codes make of codeword or word `j` of a line that shows errors. -/
def State.lineVerdict (s : State) (line : Nat) (errs : List CellError) (j : Nat) : EccVerdict :=
  s.resolved (line + j) (if line < 2 ^ 43 then hbmVerdict (s.markedLanes (pcOf line)) (errs.filter fun x => x.cw == j)
    else wordVerdict (wordErrors errs j))

/-- Units that word or codeword `j` of a line makes uncorrectable where it cannot be corrected: its own, or with a check word
that word of each of the eight lines (R258). -/
def unitsOf (line j : Nat) : List Nat :=
  if line < 2 ^ 43 then [line + 16 * j]
  else if j < 8 then [line + 8 * j]
  else (List.range 8).map fun l => line - (line - 2 ^ 43) % 512 + 64 * l + 8 * (j - 8)

/-- Units that stuck cells make uncorrectable. -/
def State.stuckUnits (s : State) : List Nat :=
  s.mem.stuck.flatMap fun (line, errs) =>
    ((List.range (if line < 2 ^ 43 then 4 else 16)).filter fun j => s.lineVerdict line errs j == .uncorrectable).flatMap (unitsOf line)

/-- Pseudo-channels with two marked lanes or more: every codeword of theirs is uncorrectable (Table 9.2). -/
def State.deadPcs (s : State) : List Nat :=
  ((s.mem.marked.map fun k => k / 5).filter fun q => decide (2 ≤ (s.markedLanes q).length)).eraseDups

/-- Codewords of a range of HBM that lie in such a pseudo-channel. -/
def State.deadUnits (s : State) (key len : Nat) : List Nat :=
  if s.deadPcs.isEmpty || decide (2 ^ 43 ≤ key) then []
  else ((List.range ((key + len + 15) / 16 - key / 16)).map fun i => (key / 16 + i) * 16).filter fun u => s.deadPcs.contains (pcOf u)

/-- Uncorrectable units that a range of device memory meets. -/
def State.badUnits (s : State) (key len : Nat) : List Nat :=
  (s.mem.badDev ++ s.stuckUnits ++ s.deadUnits key len).filter fun u => decide (u < key + len) && decide (key < u + devUnit u)

/-- What a read of a range reads through the codes: the range itself of HBM, whole lines of LPDDR, each of which is
uncorrectable to its reader where one of its words is (R258). -/
def readSpan (key len : Nat) : Nat × Nat :=
  if key < 2 ^ 43 then (key, len) else (key / 64 * 64, (key + len + 63) / 64 * 64 - key / 64 * 64)

/-- A read of a range of device memory meets an uncorrectable unit. -/
def State.devBad (s : State) (key len : Nat) : Bool := !(s.badUnits (readSpan key len).1 (readSpan key len).2).isEmpty

/-- A write over a range would cover only part of an uncorrectable unit (R262). -/
def State.devPartBad (s : State) (key len : Nat) : Bool :=
  (s.badUnits key len).any fun u => !(decide (key ≤ u) && decide (u + devUnit u ≤ key + len))

/-- The bytes of device memory. -/
def State.devRead (s : State) (key len : Nat) : List Byte := cellRead 0 s.mem.dev key len

/-- Uncorrectable reads still open after a write: those on other lines (Table 15.2). SRAM reads are those of kinds 2 and
3. -/
def openAfter (sram : Bool) (l : List (UnitId × Nat)) (key len : Nat) : List (UnitId × Nat) :=
  l.filter fun (u, k) => (u.kind == 2 || u.kind == 3) != sram || decide (key + len ≤ k / 64 * 64) || decide (k / 64 * 64 + 64 ≤ key)

/-- A write to device memory: whole uncorrectable units it covers are correct again (R262). -/
def State.devWrite (s : State) (key : Nat) (bs : List Byte) : State :=
  { s with mem := { s.mem with
      dev := cellWrite 0 s.mem.dev key bs
      badDev := s.mem.badDev.filter fun u => !(decide (key ≤ u) && decide (u + devUnit u ≤ key + bs.length)) }
           rel := { s.rel with openReads := openAfter false s.rel.openReads key bs.length } }

/-- A zero fill of device memory. -/
def State.devZero (s : State) (key len : Nat) : State :=
  { s with mem := { s.mem with
      dev := cellClear s.mem.dev key len
      badDev := s.mem.badDev.filter fun u => !(decide (key ≤ u) && decide (u + devUnit u ≤ key + len)) }
           rel := { s.rel with openReads := openAfter false s.rel.openReads key len } }

/-- SRAM keys, the model's own (log entry 13): the 144 tile stores first, then the wings, then 1 MiB of control state a
partition, the two bias buffers of a partition, the two function table buffers of a tile, and the granule owner table. -/
def sramTile (t : Nat) : Nat := t * 0x400000
def sramWing (p : Nat) : Nat := 0x40000000 + p * 0x1800000
def sramControl : Nat := 0x50000000
def sramBias (p b : Nat) : Nat := 0x51000000 + p * 0x100000 + b * 0x80000
def sramFn (t b : Nat) : Nat := 0x52000000 + (2 * t + b) * 0x10000
def sramOwner (g : Nat) : Nat := 0x54000000 + g

/-- Partition of an SRAM key; none (8) for the granule owner table, which lies in an I/O die. -/
def sramPart (key : Nat) : Nat :=
  if key < 0x40000000 then key / 0x400000 / 18
  else if key < sramControl then (key - 0x40000000) / 0x1800000
  else if key < 0x51000000 then (key - sramControl) / 0x100000
  else if key < 0x52000000 then (key - 0x51000000) / 0x100000
  else if key < 0x54000000 then (key - 0x52000000) / 0x20000 / 18
  else 8

/-- Byte offset of an SRAM key in its store, which log entries carry (Table 9.5; log entry 13). -/
def sramOffset (key : Nat) : Nat :=
  if key < 0x40000000 then key % 0x400000
  else if key < sramControl then (key - 0x40000000) % 0x1800000
  else if key < 0x54000000 then key % 0x100000
  else key - 0x54000000

/-- Uncorrectable words that a range of SRAM meets. -/
def State.badWords (s : State) (key len : Nat) : List Nat :=
  (s.mem.badSram ++ (s.mem.stuckSram.filter fun (k, n) => s.resolved k (wordVerdict n) == .uncorrectable).map Prod.fst).filter
    fun u => decide (u < key + len) && decide (key < u + 8)

/-- A range of SRAM meets an uncorrectable word. -/
def State.sramBad (s : State) (key len : Nat) : Bool := !(s.badWords key len).isEmpty

/-- A write over a range would cover only part of an uncorrectable word (R262). -/
def State.sramPartBad (s : State) (key len : Nat) : Bool :=
  (s.badWords key len).any fun u => !(decide (key ≤ u) && decide (u + 8 ≤ key + len))

/-- Words written anew with valid codes. -/
def State.sramFresh (s : State) (key len : Nat) : State :=
  { s with mem := { s.mem with badSram := s.mem.badSram.filter fun u => !(decide (key ≤ u) && decide (u + 8 ≤ key + len)) } }

def State.sramRead (s : State) (key len : Nat) : List Byte := cellRead 0 s.mem.sram key len

def State.sramWrite (s : State) (key : Nat) (bs : List Byte) : State :=
  { s with mem := { s.mem with
      sram := cellWrite 0 s.mem.sram key bs
      badSram := s.mem.badSram.filter fun u => !(decide (key ≤ u) && decide (u + 8 ≤ key + bs.length)) }
           rel := { s.rel with openReads := openAfter true s.rel.openReads key bs.length } }

/-- Tile stores and wings of a partition written to zero with valid codes (R137). -/
def State.sramZeroPart (s : State) (p : Nat) : State :=
  { s with mem := { s.mem with
      sram := s.mem.sram.filter fun c => decide (sramPart c.1 ≠ p)
      badSram := s.mem.badSram.filter fun u => decide (sramPart u ≠ p) }
           rel := { s.rel with openReads := s.rel.openReads.filter fun (u, k) =>
             !((u.kind == 2 || u.kind == 3) && sramPart k == p) } }

/-- Physical tile of a logical tile. -/
def State.physical (s : State) (t : Nat) : Nat :=
  match cellFind t s.rel.binding with
  | some p => p
  | none => t / 18 * 19 + t % 18

/- ## Log rings in memory (R264, R419, R449) -/

/-- The five registers of a log ring. -/
structure LogRegs where
  base : Fld
  log2 : Fld
  prod : Fld
  cons : Fld
  lost : Fld
  deriving DecidableEq, Repr

def memerrLog : LogRegs :=
  ⟨memerrLogBaseBase, memerrLogCtrlLog2, memerrLogProdProd, memerrLogConsCons, memerrLogLostLost⟩
def chorusLog : LogRegs :=
  ⟨chorusLogBaseBase, chorusLogCtrlLog2, chorusLogProdProd, chorusLogConsCons, chorusLogLostLost⟩
def faultLog : LogRegs :=
  ⟨faultLogBaseBase, faultLogCtrlLog2, faultLogProdProd, faultLogConsCons, faultLogLostLost⟩

/-- The log takes an entry now: it lies where its rule puts it and is not full (R264). -/
def State.logOpen (s : State) (l : LogRegs) : Bool :=
  let b := s.fld l.base
  let n := s.fld l.log2
  decide (6 ≤ n) && decide (n ≤ 16) && s.ownMem b (64 * 2 ^ n) && decide (b % (64 * 2 ^ n) = 0) &&
    decide ((s.fld l.prod + 2 ^ 32 - s.fld l.cons) % 2 ^ 32 < 2 ^ n)

/-- One 64-byte entry posted, or counted as lost; a base of 0 does neither (R264). -/
def State.logPost (s : State) (l : LogRegs) (entry : List Byte) : State :=
  if s.fld l.base = 0 then s
  else if s.logOpen l then
    (s.devWrite (addrKey (s.fld l.base) + 64 * (s.fld l.prod % 2 ^ s.fld l.log2)) entry).setFld l.prod
      ((s.fld l.prod + 1) % 2 ^ 32)
  else s.bump l.lost

/-- Where a memory error event comes from (Table 9.5). -/
structure ErrSource where
  source : Nat
  ctx : Nat
  ring : Nat
  desc : Nat
  item : Nat
  requester : Nat
  deriving DecidableEq, Repr

/-- The place of a memory error: address field, unit, channel and lane bytes (Table 9.5). -/
structure ErrPlace where
  addr : Nat
  unit : Nat
  channel : Nat
  pcLane : Nat
  deriving DecidableEq, Repr

/-- Place of a key of device memory (R250, Table 9.5). The LPDDR channel is a free value (log entry 14). -/
def State.devPlace (s : State) (key lane : Nat) : ErrPlace :=
  if key < 2 ^ 43 then
    let q := Nat.xor (field key 8 6) (field key 20 6)
    { addr := mkAddr s.member (key / 64 * 64), unit := field key 36 3, channel := q / 2,
      pcLane := q % 2 + 2 * lane + 16 * (key % 64 / 16) }
  else
    { addr := mkAddr s.member (key / 64 * 64), unit := 128 + field key 36 4, channel := Config.lpddrChannel (key / 64) % 4,
      pcLane := 16 * (key % 64 / 8) }

/-- Place of an SRAM key (Table 9.5). -/
def State.sramPlace (s : State) (key : Nat) : ErrPlace :=
  { addr := mkAddr s.member (3 * 2 ^ 43 + sramOffset key / 64 * 64), unit := sramPart key % 8,
    channel := (if key < 0x40000000 then key / 0x400000 % 18
      else if 0x52000000 ≤ key ∧ key < 0x54000000 then (key - 0x52000000) / 0x20000 % 18 else 0x20), pcLane := 16 * (key % 64 / 8) }

/-- A memory error log entry (Table 9.5). -/
def memErrEntry (type : Nat) (src : ErrSource) (pl : ErrPlace) (cue count : Nat) : List Byte :=
  leBytes 8 pl.addr ++ leBytes 1 type ++ leBytes 1 src.source ++ leBytes 1 src.ctx ++ leBytes 1 src.ring ++
    leBytes 2 src.desc ++ leBytes 1 src.item ++ leBytes 1 0 ++ leBytes 8 cue ++ leBytes 2 src.requester ++
    leBytes 1 pl.unit ++ leBytes 1 pl.channel ++ leBytes 1 pl.pcLane ++ leBytes 3 0 ++ leBytes 8 count ++ leBytes 24 0

/-- A memory error event: its log entry, and a device event for the uncorrectable types and a lane with no spare
(R264). -/
def State.memErr (s : State) (type : Nat) (src : ErrSource) (pl : ErrPlace) (count : Nat := 0) : State :=
  let t := s.logPost memerrLog (memErrEntry type src pl s.cueNo count)
  if type = 2 || type = 4 || type = 6 || type = 8 then t.event else t

/-- Unit at which corrected events are counted and logged at most once per cue (R265): pseudo-channel, LPDDR channel or
SRAM unit, with the type. -/
def corrUnit (type : Nat) (pl : ErrPlace) : Nat :=
  ((type * 256 + pl.unit) * 64 + pl.channel) * 2 + (if type = 1 then pl.pcLane % 2 else 0)

/-- First uncorrectable unit that a read of a range of device memory meets. -/
def State.firstBad (s : State) (key len : Nat) : Nat :=
  (s.badUnits (readSpan key len).1 (readSpan key len).2).foldl (fun a u => if u < a then u else a) (key + len)

/-- First uncorrectable word that a range of SRAM meets. -/
def State.firstBadSram (s : State) (key len : Nat) : Nat :=
  (s.badWords key len).foldl (fun a u => if u < a then u else a) (key + len)

/-- Type of an uncorrectable event at a key of device memory (Table 9.5). -/
def devBadType (key : Nat) : Nat := if key < 2 ^ 43 then 0x02 else 0x04

/-- A write refused over a part of an uncorrectable unit: logged, and nothing written (R262, R264). -/
def State.partRefused (s : State) (src : ErrSource) (key len : Nat) : State :=
  s.memErr (devBadType key) src (s.devPlace (s.firstBad key len) 0)

/-- A partial write that the hardware makes for a source: refused and logged over an uncorrectable unit (R262). -/
def State.putPart (s : State) (src : ErrSource) (key : Nat) (bs : List Byte) : State :=
  if s.devPartBad key bs.length then s.partRefused src key bs.length else s.devWrite key bs

/- ## Partitions out of reach -/

/-- A coppice of a partition is in progress (HEALTH_STATUS.COPPICE, R436). -/
def State.inCoppice (s : State) (p : Nat) : Bool := s.fld ⟨rHealthStatus, 4 + p, 1⟩ == 1

/-- Power state: 0 Full, 1 Dimmed, 2 Dark, 3 Ghost light. -/
def State.powerState (s : State) : Nat := s.fld pwrStatusState

/-- Stack `n` is out of reach: a coppice of its partition, or its zero fill (R23, R439). -/
def State.stackShut (s : State) (n : Nat) : Bool := s.inCoppice n || s.rel.fills.contains n

/-- A range of device memory lies in a stack that is out of reach. -/
def State.devShut (s : State) (key : Nat) : Bool := decide (key < 2 ^ 43) && s.stackShut (key / 2 ^ 36)

/- ## Rings -/

def State.ring (s : State) (n : Nat) : Ring :=
  match cellFind n s.rings with
  | some r => r
  | none => Ring.init

def State.setRing (s : State) (n : Nat) (r : Ring) : State :=
  { s with rings := cellPut s.rings n (if r = Ring.init then none else some r) }

/-- A ring changed by `f`. -/
def State.onRing (s : State) (n : Nat) (f : Ring → Ring) : State := s.setRing n (f (s.ring n))

def State.ringEnabled (s : State) (n : Nat) : Bool := decide (n < 256) && s.flag (ringCtrlEn n)

/-- The ring is device-resident (Table 2.4). -/
def State.ringDevice (s : State) (n : Nat) : Bool := s.flag (ringCtrlLoc n)

def State.ringCtx (s : State) (n : Nat) : Nat := s.fld (ringCtrlContext n)
def State.sqSize (s : State) (n : Nat) : Nat := 2 ^ s.fld (ringCtrlSqLog2 n)
def State.cqSize (s : State) (n : Nat) : Nat := 2 ^ s.fld (ringCtrlCqLog2 n)

/-- The ring may submit managed opcodes: CTRL_ALLOWED on a ring of MGMT_CONTEXT (R60). -/
def State.managed (s : State) (n : Nat) : Bool :=
  s.flag (ringCtrlCtrlAllowed n) && s.ringCtx n == s.fld mgmtContextContext

/- ## Accounting -/

def State.account (s : State) (c : Nat) : Account :=
  match cellFind c s.accounts with
  | some a => a
  | none => Account.init

def State.onAccount (s : State) (c : Nat) (f : Account → Account) : State :=
  let a := f (s.account c)
  { s with accounts := cellPut s.accounts c (if a = Account.init then none else some a) }

/- ## Descriptors (R52 to R57) -/

/-- Field of a descriptor's bytes, little-endian. -/
def leAt (bs : List Byte) (off n : Nat) : Nat := leNat ((bs.drop off).take n)

def hdrOp (d : List Byte) : Nat := leAt d 0 1
def hdrClass (d : List Byte) : Nat := leAt d 1 1
def hdrFlags (d : List Byte) : Nat := leAt d 2 2
def hdrCtx (d : List Byte) : Nat := leAt d 4 1 % 64
def hdrItems (d : List Byte) : Nat := leAt d 5 1
def hdrSlotPos (d : List Byte) : Nat := leAt d 6 2 % 64
def hdrSlotEn (d : List Byte) : Bool := bit (leAt d 6 2) 15
def hdrTimeout (d : List Byte) : Nat := leAt d 8 4 % 2 ^ 20
def hdrCost (d : List Byte) : Nat := leAt d 12 4
def hdrFenceIn (d : List Byte) : Nat := leAt d 16 4
def hdrFenceOut (d : List Byte) : Nat := leAt d 20 4

/-- Header flags (Table 2.9). -/
def flIrq (d : List Byte) : Bool := bit (hdrFlags d) 0
def flProceed (d : List Byte) : Bool := bit (hdrFlags d) 1
def flOverrunFail (d : List Byte) : Bool := bit (hdrFlags d) 2
def flStepFirst (d : List Byte) : Bool := bit (hdrFlags d) 3
def flStepLast (d : List Byte) : Bool := bit (hdrFlags d) 4
def flRecordAll (d : List Byte) : Bool := bit (hdrFlags d) 5

/-- The 96-byte payload. -/
def payloadOf (d : List Byte) : List Byte := d.drop 32

/-- Every byte of a part of the payload is zero: its reserved bytes (R10). -/
def zeroAt (p : List Byte) (off n : Nat) : Bool := leAt p off n == 0

/- ## Fences (R57 to R59) -/

/-- The context's fence table is where Table 19.5 puts it (R519). -/
def State.fenceTableOk (s : State) (c : Nat) : Bool :=
  let b := s.fld (ctxFenceBaseBase c)
  decide (b ≠ 0) && decide (b % 16384 = 0) && s.ownMem b 16384

/-- Key of a fence word. -/
def State.fenceKey (s : State) (c i : Nat) : Nat := addrKey (s.fld (ctxFenceBaseBase c)) + 4 * i

/-- A fence word as the Tesel reads it: bits 31:17 read as 0 (Table 19.5). -/
def State.fenceWord (s : State) (c i : Nat) : Nat := leNat (s.devRead (s.fenceKey c i) 4) % 2 ^ 17

/-- A fence condition: (c − v) mod 2^16 below 2^15 (R58). -/
def fenceMet (counter target : Nat) : Bool := decide ((counter % 2 ^ 16 + 2 ^ 16 - target) % 2 ^ 16 < 2 ^ 15)

/-- What a fence-in says. -/
inductive FenceIn where
  | met | unmet | poisoned | bad
  deriving DecidableEq, Repr

/-- One fence-in word of a context (R58, R261). A fence out of reach in a coppice is not met. -/
def State.fenceIn (s : State) (ctx fi : Nat) : FenceIn :=
  if !bit fi 15 then .met
  else
    let k := s.fenceKey ctx (fi % 4096)
    if s.devShut k then .unmet
    else if s.devBad k 4 then .bad
    else
      let w := s.fenceWord ctx (fi % 4096)
      if !fenceMet w (fi / 65536) then .unmet
      else if bit w 16 then .poisoned
      else .met

/-- The worse of two fence-ins: uncorrectable, then unmet, then poisoned. -/
def FenceIn.and (a b : FenceIn) : FenceIn :=
  if a = .bad ∨ b = .bad then .bad
  else if a = .unmet ∨ b = .unmet then .unmet
  else if a = .poisoned ∨ b = .poisoned then .poisoned
  else .met

/-- The fence-in of a waiting descriptor, with the one that it also waits for. A continuation's was met before its first
run. -/
def State.fenceState (s : State) (f : Fetched) : FenceIn :=
  if f.continuation then .met
  else
    let c := hdrCtx f.bytes
    let x := (s.fenceIn c (hdrFenceIn f.bytes)).and (s.fenceIn c f.alsoFence)
    if x = .poisoned ∧ flProceed f.bytes then .met else x

/- ## Runs and items -/

def State.findRun (s : State) (id : Nat) : Option Run := s.runs.find? fun r => r.id == id

/-- The run's ring and context. -/
def Run.ctx (r : Run) : Nat := hdrCtx r.desc.bytes

/-- A run changed by `f`. -/
def State.onRun (s : State) (id : Nat) (f : Run → Run) : State :=
  { s with runs := s.runs.map fun r => if r.id = id then f r else r }

def Run.item (r : Run) (i : Nat) : Option Item := r.items.find? fun x => x.index == i

/-- An item of a run changed by `f`. -/
def State.onItem (s : State) (id i : Nat) (f : Item → Item) : State :=
  s.onRun id fun r => { r with items := r.items.map fun x => if x.index = i then f x else x }

def Item.hasEnded (x : Item) : Bool :=
  match x.phase with
  | .ended _ _ => true
  | _ => false

/-- Started and not ended (R89). -/
def Item.isRunning (x : Item) : Bool :=
  match x.phase with
  | .running => true
  | .acking _ _ => true
  | _ => false

def Item.isUnstarted (x : Item) : Bool := x.phase == .unstarted

/-- Rank of a status among ends that coincide (Table 2.13); 0 for a status that the table does not rank. -/
def endRank (status : Nat) : Nat :=
  if status = stPartReset then 1
  else if status = stMemberLost then 2
  else if status = stUncorrectable then 3
  else if status = stTimeout then 4
  else if status = stCancelled then 5
  else if status = stOverrun then 6
  else if status = stPreempted then 7
  else 0

/-- The item ended at this very time with a status that gives way to another (R64). Ends at one block time fall in one clock
cycle (DESIGN CHOICE, log entry 65). -/
def Item.yields (x : Item) (now status : Nat) : Bool :=
  match x.phase, x.endedAt with
  | .ended st _, some (t, _) => t == now && decide (0 < endRank status) && decide (endRank status < endRank st)
  | _, _ => false

/-- The item as it stood before an end that gives way to another (R64). -/
def Item.before (x : Item) : Item :=
  match x.endedAt with
  | some (_, ph) => { x with phase := ph }
  | none => x

/-- An item ends with a status and DETAIL. One that has ended keeps its status (R61, R71), unless the ends coincide and the
new status is the earlier of Table 2.13 (R64). -/
def Item.finish (x : Item) (now status detail : Nat) : Item :=
  if x.hasEnded then (if x.yields now status then { x with phase := .ended status detail } else x)
  else { x with phase := .ended status detail, endedAt := some (now, x.phase) }

/- ## The engines and the timeout of a run (R61, R310) -/

/-- Frequency of an operating point, MHz (Table 3.15). -/
def opMhz (c : Nat) : Nat := ([1750, 1500, 1200, 900] : List Nat).getD c 1750

/-- Codec engines of a class, as claims number them: decode 0..31, encode 32..39. -/
def codecEngines (cls : Nat) : List Nat := if cls = 7 then List.range 32 else (List.range 8).map fun i => 32 + i

/-- The holder of a codec engine, if any: a run, or 2^32 + a feed. -/
def State.engineHolder (s : State) (e : Nat) : Option Nat := cellFind e s.media.claims

/-- A codec descriptor: classes 0x07 and 0x08. -/
def isCodec (d : List Byte) : Bool := hdrClass d == 7 || hdrClass d == 8

/-- A codec payload names an engine that exists, or any. One that does not ends its items BAD_DESCRIPTOR and needs no
engine. -/
def codecNamed (d : List Byte) : Bool :=
  leAt d 32 1 == 0xFF || decide (leAt d 32 1 < (codecEngines (hdrClass d)).length)

/-- Frequency that counts for a run's timeout: the lowest of the partitions of its tiles, of every partition for a
collective (R407), 1.75 GHz elsewhere. -/
def State.runMhz (s : State) (r : Run) : Nat :=
  (if hdrClass r.desc.bytes = 0xB then List.range 8 else r.tiles.map fun t => t / 18).foldl
    (fun m p => min m (opMhz (s.fld (partOpEffective p)))) 1750

/-- The timeout runs: from dispatch on, and while a run waits for an engine that a feed holds (R348). -/
def State.timeRuns (s : State) (r : Run) : Bool :=
  !r.waiting || (isCodec r.desc.bytes && codecNamed r.desc.bytes && leAt r.desc.bytes 32 1 != 0xFF &&
    (s.engineHolder (if hdrClass r.desc.bytes = 7 then leAt r.desc.bytes 32 1 else 32 + leAt r.desc.bytes 32 1)).any fun h =>
      decide (2 ^ 32 ≤ h))

/-- A run after `d` ns: its timeout is used up in ns × MHz, so more slowly at a lower operating point (R61). -/
def State.runAfter (s : State) (d : Nat) (r : Run) : Run :=
  if s.timeRuns r then
    { r with
      used := r.used + d * s.runMhz r
      items := r.items.map fun x =>
        if (s.coll.halves.any fun h => h.run == r.id && h.item == x.index) = true then
          { x with partners := x.partners + d * s.runMhz r }
        else x }
  else r

/-- The run that a request is for. -/
def ReqUse.run : ReqUse → Option Nat
  | .read r _ | .write r _ | .atomic r _ _ | .note r _ _ _ => some r
  | _ => none

/-- A request after `d` ns: its timeout is stretched as its run's is (R61, R378). -/
def State.requestAfter (s : State) (d : Nat) (q : Request) : Request :=
  { q with used := q.used + d * (((q.use.run.bind s.findRun).map s.runMhz).getD 1750) }

/-- Requests an item waits for. -/
def Request.of (q : Request) (run item : Nat) : Bool :=
  match q.use with
  | .read r i => r == run && i == item
  | .write r i => r == run && i == item
  | .atomic r i _ => r == run && i == item
  | .note r i _ _ => r == run && i == item
  | .joinRec _ => false
  | .fnImage => false
  | .post => false
  | .late => false
  | .feed _ _ _ => false

/-- A request that writes at its destination. -/
def Request.writes (q : Request) : Bool :=
  match q.use with
  | .write _ _ => true
  | .atomic _ _ _ => true
  | .post => true
  | .note _ _ _ w => w
  | _ => false

/-- The requests of an item are abandoned (R434): nothing is done with their responses. They stay outstanding only for
the fences and teardowns that wait for the context's requests (R376, R383). -/
def State.abandon (s : State) (run item : Nat) : State :=
  { s with fab := { s.fab with requests := s.fab.requests.map fun q =>
      if (q.of run item) = true then
        { q with use := (match q.use with
                   | .read _ _ => .late
                   | .note _ _ _ w => if w then .post else .late
                   | _ => .post)
                 entry := none }
      else q } }

/-- A slice list entry (Table 11.12). -/
def sliceEntry (start len picture index flags q cue : Nat) : List Byte :=
  leBytes 8 start ++ leBytes 4 len ++ leBytes 4 picture ++ leBytes 2 index ++ leBytes 1 flags ++ leBytes 1 q ++
    leBytes 4 cue ++ leBytes 8 0

/-- Error source of a write that a run's item makes as it ends. -/
def State.runSource (s : State) (r : Run) (item : Nat := 0) : ErrSource :=
  { source := 4, ctx := r.ctx, ring := r.desc.ring, desc := r.desc.index.toNat % s.sqSize r.desc.ring, item := item,
    requester := s.member }

/-- An encode item that ends without success writes one entry with ABORT set after the slices it emitted (R333). -/
def State.encAbort (s : State) (src : ErrSource) (j : EncJob) : State :=
  let n := leNat (s.devRead (j.stream + 24) 8)
  let prod := leNat (s.devRead (j.stream + 16) 8)
  (s.putPart src (j.list + 32 * (n % 2 ^ j.listLog2)) (sliceEntry prod 0 j.picture j.emitted 4 j.q s.cueNo)).putPart src
    (j.stream + 24) (leBytes 8 (n + 1))

/-- A codec item that ends releases its stream block, which it holds from stage 1 on (R313). -/
def State.releaseCodec (s : State) (run item status : Nat) : State :=
  match s.findRun run with
  | none => s
  | some r =>
    if hdrClass r.desc.bytes = 7 || hdrClass r.desc.bytes = 8 then
      match r.item item with
      | none => s
      | some x =>
        if x.hasEnded || x.stage = 0 then s
        else
          let t := match s.media.encodes.find? fun j => j.run == run && j.item == item with
            | some j => if 0x10 ≤ status then s.encAbort (s.runSource r item) j else s
            | none => s
          let t : State := { t with media := { t.media with
            encodes := t.media.encodes.filter fun j => !(j.run == run && j.item == item) } }
          t.putPart (s.runSource r item) (addrKey (leAt r.desc.bytes (32 + 8) 8) + 4) (leBytes 4 0)
    else s

/-- Images that no buffer holds and that are not in force, being loaded or of a run not yet ended are dropped. -/
def State.fnPrune (s : State) : State :=
  let held := fun g => g == s.fn.current || s.fn.buffers.any (fun b => b.2 == g) ||
    s.fn.loading.any fun x => x.2.2.1 == g
  { s with fn := { s.fn with images := s.fn.images.filter fun x => held x.1 || s.runs.any fun r => r.id == x.2.run } }

/-- The load ended, its flags cleared. -/
def State.fnLoadEnd (s : State) : State :=
  ((({ s with fn := { s.fn with loading := none } } : State).setFlag fnStatusLoading false).setFlag fnStatusWaiting
    false).fnPrune

/-- A feed that was still waiting for its engines when its FEED_START ended otherwise becomes Idle (Table 12.8). -/
def State.releaseFeed (s : State) (run item status : Nat) : State :=
  if status < 0x10 then s
  else
    let gone := (s.media.feeds.filter fun (_, f) => f.state == 1 && f.run == run && f.item == item).map Prod.fst
    if gone.isEmpty then s
    else
      { s with media := { s.media with
          feeds := s.media.feeds.filter fun (n, _) => !gone.contains n
          claims := s.media.claims.filter fun (_, h) => !(gone.any fun n => h == 2 ^ 32 + n) } }

/-- SEQ and status of a half that ends here, by context × 1024 + entry (R400, R409). -/
def State.noteHalf (s : State) (h : Half) (status : Nat) : State :=
  let k := h.ctx * 1024 + h.entry
  { s with coll := { s.coll with ended := (k, h.seq, status) :: s.coll.ended.filter fun x => x.1 != k } }

/-- Everything that waits on behalf of an item is given up as it ends: its bias change, table load, fence, patch, trims,
programs and collective half. -/
def State.leaveItem (s : State) (run item status : Nat) : State :=
  let mine := fun (r i : Nat) => r == run && i == item
  let t : State := { s with
    host := { s.host with biasChanges := s.host.biasChanges.filter fun c => !mine c.run c.item }
    fab := { s.fab with
      fences := s.fab.fences.filter fun f => !mine f.run f.item
      patches := s.fab.patches.filter fun x => !mine x.1 x.2.1 }
    flash := { s.flash with
      programs := s.flash.programs.filter fun x => !mine x.run x.item
      trims := s.flash.trims.filter fun x => !mine x.1 x.2.1 } }
  let t := if t.fn.loading.any fun x => mine x.1 x.2.1 then t.fnLoadEnd else t
  let hs := t.coll.halves.filter fun h => mine h.run h.item
  let t : State := { t with coll := { t.coll with halves := t.coll.halves.filter fun h => !mine h.run h.item } }
  hs.foldl (fun (u : State) h => u.noteHalf h status) t

/-- The item of a run is there and has not ended. -/
def State.itemOpen (s : State) (run item : Nat) : Bool :=
  ((s.findRun run).bind fun r => r.item item).any fun x => !x.hasEnded

/-- An item ends at once: it abandons its requests and gives up what it holds and waits for (R313, R434). Of one that has
ended only the status may change, by R64. -/
def State.endItem (s : State) (run item status detail : Nat) : State :=
  if !s.itemOpen run item then s.onItem run item fun x => x.finish s.now status detail
  else
    ((((s.releaseCodec run item status).releaseFeed run item status).leaveItem run item status).abandon run item).onItem run item
      fun x => x.finish s.now status detail

/-- Cycles of an item: those its chapter computes and its stalls (log entry 12), saturating (R67). -/
def State.cyclesOf (s : State) (base : Nat) : Nat := satAdd 32 base (Config.stallCycles s.freeCtr)

/-- The item's cycles noted. -/
def State.noteCycles (s : State) (run item base : Nat) : State :=
  (s.onItem run item fun x => { x with cycles := s.cyclesOf base }).draw

/- ## DETAIL of an item that ends early (R129, R155, R183, R277, R319, R334, R410) -/

/-- DETAIL of Table 4.9. -/
def Prec.detail (p : Prec) : Nat := min p.widened 0xFFFF + 2 ^ 16 * min p.denied 0xFFFF + 2 ^ 32 * min p.overflowed 0xFFFF

/-- The destination's DETAIL is that of Table 4.9: a packed line or an MX format (R129). -/
def precFmt (code : Nat) : Bool := decide (5 ≤ code) && decide (code ≤ 0xB)

/-- DETAIL of a decode item (R319). -/
def decDetail (first count reason damaged : Nat) : Nat :=
  first % 2 ^ 32 + 2 ^ 32 * (count % 256) + 2 ^ 40 * reason + 2 ^ 48 * min damaged 65535

/-- DETAIL of an encode item (R334). -/
def encDetail (bits q slices flags reason : Nat) : Nat :=
  bits % 2 ^ 32 + 2 ^ 32 * (q % 256) + 2 ^ 40 * (slices % 256) + 2 ^ 48 * flags + 2 ^ 56 * reason

/-- DETAIL of a collective item (R410). -/
def collDetail (seq member flags : Nat) : Nat := seq % 2 ^ 32 + 2 ^ 32 * (member % 4096) + 2 ^ 48 * (flags % 16)

/-- SEQ of an item's half, 0 before it has read its entry. -/
def State.halfSeq (s : State) (run item : Nat) : Nat :=
  match s.coll.halves.find? fun h => h.run == run && h.item == item with
  | some h => h.seq
  | none => 0

/-- A descriptor whose items report rows: the matrix products and sums, and class 0x03 but for `FN_LOAD` (R155, R204). -/
def reportsRows (d : List Byte) : Bool :=
  (hdrClass d == 1 && decide (hdrOp d < 4)) || (hdrClass d == 3 && decide (hdrOp d < 6))

/-- Planned value of the varying dimension: K of `MM_OS`, otherwise the planned rows. -/
def plannedRows (d : List Byte) : Nat := if hdrClass d = 1 ∧ hdrOp d = 2 then leAt d 40 2 else leAt d 36 2

/-- The destination reference names a packed line or an MX format; that of `VPROG` is not in its payload. -/
def precDest (d : List Byte) : Bool := !(hdrClass d == 3 && hdrOp d == 0) && precFmt (leAt d 88 1 % 16)

/-- DETAIL of an item that ends without having run. -/
def plannedDetail (d : List Byte) : Nat :=
  if reportsRows d then (if precDest d then 0 else plannedRows d)
  else if hdrClass d = 7 then decDetail 0xFFFFFFFF 0 0 0
  else 0

/-- What an item has noted under a key. -/
def Item.note (x : Item) (k : Nat) : List Nat := (cellFind k x.noted).getD []

/-- Keys of what items note: the run-time shape, LENGTH, that `VPROG` stores a packed line or an MX format, and what it has
counted; from `nkTrail` on, the results of its steps and exchanges in their order. -/
def nkShape : Nat := 0
def nkLength : Nat := 1
def nkPrec : Nat := 2
def nkCount : Nat := 3
def nkTrail : Nat := 256

/-- The item copies lines from a source (R277, R374). -/
def Run.copies (r : Run) : Bool :=
  let d := r.desc.bytes
  (hdrClass d == 5 && hdrOp d == 2) || (hdrClass d == 0xA && hdrOp d == 0)

/-- DETAIL of an item that ends early: what its class reports of what it has read or done so far. -/
def State.earlyDetail (s : State) (r : Run) (x : Item) : Nat :=
  let d := r.desc.bytes
  if reportsRows d then
    if precDest d || x.note nkPrec == [1] then x.prec.detail else (x.note nkShape).headD (plannedRows d)
  else if hdrClass d = 8 then
    match s.media.encodes.find? fun j => j.run == r.id && j.item == x.index with
    | some j => encDetail 0 j.q j.emitted 0 0
    | none => 0
  else if hdrClass d = 0xB then collDetail ((x.note nkCount).headD 0) 0 0
  else if hdrClass d = 2 ∧ hdrOp d = 1 then 2 ^ 32 * (x.note nkCount).headD 0
  else if r.copies then
    match x.phase with
    | .acking _ dt => dt
    | _ => 0
  else plannedDetail d

/-- DETAIL with which an item's end goes on record: its own, or where it gives none its class's. `EMPTY` reports the 0 that
it read (R155). -/
def State.detailFor (s : State) (run item status detail : Nat) : Nat :=
  if detail ≠ 0 ∨ status = stEmpty then detail
  else
    match s.findRun run with
    | some r => (r.item item).elim 0 (s.earlyDetail r)
    | none => 0

/-- An item cut short ends; one that was running records the cycles elapsed, which the spec does not compute (R67). -/
def State.endEarly (s : State) (run item status : Nat) (detail : Nat := 0) : State :=
  let dt := s.detailFor run item status detail
  (if ((s.findRun run).bind fun r => r.item item).any fun x => x.phase == .running then s.noteCycles run item 0
    else s).endItem run item status dt

/-- The item waits for acknowledgements of remote writes. -/
def State.waitsAck (s : State) (run item : Nat) : Bool := s.fab.requests.any fun q => q.of run item

/-- An item's effect is made. With a success it ends once its remote writes are acknowledged (R381); with any other
status it ends now. -/
def State.closeItem (s : State) (run item status detail : Nat) : State :=
  if status < 0x10 && s.waitsAck run item then
    s.onItem run item fun x => if x.hasEnded then x else { x with phase := .acking status detail }
  else s.endItem run item status detail

/-- What an item's work needs to know of its descriptor. -/
structure ItemEnv where
  run : Nat
  item : Nat
  ring : Nat
  ctx : Nat
  desc : List Byte
  /-- Submission slot (R67). -/
  slot : Nat
  /-- Slot of dispatch (R181). -/
  epoch : Nat
  count : Nat
  deriving DecidableEq, Repr

/-- How an item's work stops short of a plain end. -/
inductive Stop where
  /-- It ends with this status and DETAIL; what it wrote stays written (R170, R263). -/
  | ended (status detail : Nat)
  /-- It needs remote ranges that have not arrived; the work is begun again when they have. -/
  | need (ranges : List (Nat × Nat)) (frame : Bool := false)
  /-- It needs the result of an exchange with another member, which it notes under a key; it is begun again with it. -/
  | ask (key type addr len : Nat) (data : List Byte)
  /-- It goes on waiting for an event; what it did stays done. -/
  | hold
  deriving DecidableEq, Repr

/-- The work of an item: it may read and change the state, and stop. -/
abbrev ItemM := ReaderT ItemEnv (ExceptT Stop (StateM State))

/-- The work stops with a status. -/
def stopWith {α : Type} (status : Nat) (detail : Nat := 0) : ItemM α := throw (.ended status detail)

/-- The work stops with a status where a condition fails. -/
def require (ok : Bool) (status : Nat) (detail : Nat := 0) : ItemM Unit := if ok then pure () else stopWith status detail

/-- The end of an item's work: status, DETAIL and the cycles its chapter computes. -/
structure Done where
  status : Nat
  detail : Nat
  cycles : Nat
  deriving DecidableEq, Repr

/-- Payload field of the item's descriptor. -/
def pay (off n : Nat) : ItemM Nat := do return leAt (← read).desc (32 + off) n

/-- Reserved payload bytes must be zero (R10). -/
def payZero (off n : Nat) : ItemM Unit := do
  require ((← pay off n) == 0) stBad

/-- Error source of an item's own access: 0x00 for a read, 0x04 for a refused write (Table 9.5). -/
def ItemEnv.source (e : ItemEnv) (s : State) (src : Nat) : ErrSource :=
  { source := src, ctx := e.ctx, ring := e.ring, desc := e.slot, item := e.item, requester := s.member }

/-- The work of an item on one state. -/
def ItemM.on {α : Type} (m : ItemM α) (e : ItemEnv) (s : State) : Except Stop α × State := (m.run e).run s

/-- Environment of an item of a run. -/
def Run.env (r : Run) (s : State) (i : Nat) : ItemEnv :=
  { run := r.id, item := i, ring := r.desc.ring, ctx := r.ctx, desc := r.desc.bytes,
    slot := r.desc.index.toNat % s.sqSize r.desc.ring, epoch := r.cue, count := hdrItems r.desc.bytes + 1 }

end Sys2Proof.Machine
end

