-- ==== Sys2Proof/Machine/Net.lean ====
section
/-! DEFINITION. Sending on the Izhel fabric (R354 to R368, R378): which members can be reached and by which port, packets,
prompter messages and outstanding requests. -/
namespace Sys2Proof.Machine

/- ## Packet types (Table 13.5) -/

def ptRead : Nat := 0x01
def ptWrite : Nat := 0x02
def ptAtomic : Nat := 0x03
def ptBulkRead : Nat := 0x04
def ptBulkWrite : Nat := 0x05
def ptReadData : Nat := 0x08
def ptWriteAck : Nat := 0x09
def ptAtomicResult : Nat := 0x0A
def ptError : Nat := 0x0B
def ptDetached : Nat := 0x11
def ptMemberLost : Nat := 0x12
def ptStop : Nat := 0x13
def ptDrain : Nat := 0x14
def ptDrainReturn : Nat := 0x15
def ptTeardown : Nat := 0x16
def ptRoutePatch : Nat := 0x17
def ptEcho : Nat := 0x18
def ptEchoReply : Nat := 0x19

/-- Virtual channel of a packet (Tables 13.3 and 13.5): 0 prompter, 1 request, 2 response, 3 bulk. -/
def packetVc (p : Packet) : Nat :=
  if 0x10 ≤ p.type then 0
  else if p.type = ptBulkWrite then 3
  else if 0x08 ≤ p.type then 2
  else 1

/-- Virtual channel of a response to a request: READ_DATA of a bulk read travels on the bulk channel (Table 13.5). -/
def answerVc (req : Packet) (type : Nat) : Nat := if type = ptReadData ∧ req.type = ptBulkRead then 3 else 2

/- ## Ports -/

/-- Flits reserved for each channel at a receiving port (Table 13.3). -/
def reservedCredits : List Nat := [16, 64, 64, 128]

def Port.init : Port :=
  { badLanes := [], txSeq := 0, rxSeq := 0, replay := [], unacked := 0, failedReplays := 0, retrains := [],
    lastGood := 0, trained := false, paused := false, rewiden := false, everUp := false, queue := [],
    credits := reservedCredits, owed := [0, 0, 0, 0] }

def State.port (s : State) (n : Nat) : Port :=
  match cellFind n s.fab.ports with
  | some p => p
  | none => Port.init

def State.setPort (s : State) (n : Nat) (p : Port) : State :=
  { s with fab := { s.fab with ports := cellPut s.fab.ports n (if p = Port.init then none else some p) } }

def State.onPort (s : State) (n : Nat) (f : Port → Port) : State := s.setPort n (f (s.port n))

def State.portState (s : State) (n : Nat) : Nat := s.fld (fabPortStatusState n)

/-- A port that carries traffic, or that retrains and counts as up for queueing (R356). -/
def State.portUp (s : State) (n : Nat) : Bool :=
  s.portState n == 2 || s.portState n == 3 || (s.portState n == 1 && (s.port n).trained)

/-- The twelve ports. -/
def allPorts : List Nat := List.range 12

/- ## Routes (R366 to R368) -/

/-- The member that the lookup uses in place of `m`: an alias's SUBSTITUTE (R368). -/
def State.lookupMember (s : State) (m : Nat) : Nat :=
  match s.fab.route.aliases.find? fun (l, _) => l == m with
  | some (_, sub) => sub
  | none => m

/-- The route entry used for a member, if it is valid and is not the member's own. -/
def State.routeEntry (s : State) (m : Nat) : Option Nat :=
  match cellFind (s.lookupMember m) s.fab.route.entries with
  | some e => if bit e.toNat 63 && !bit e.toNat 23 then some e.toNat else none
  | none => none

/-- Flit credits of a channel that a port holds (R359). -/
def State.credits (s : State) (n vc : Nat) : Nat := (s.port n).credits.getD vc 0

/-- The port with the most free credits in a channel, lower numbers winning ties (R368). -/
def State.bestPort (s : State) (vc : Nat) (l : List Nat) : Option Nat :=
  l.foldl (fun acc n =>
    match acc with
    | none => some n
    | some b => if s.credits b vc < s.credits n vc then some n else acc) none

/-- The port by which a packet leaves for member `m` (R368): FIXED_PORT or ALT_PORT, or for adaptive traffic the best up
port of ADAPT_MASK. None where there is no valid entry or every usable port is down. -/
def State.choosePort (s : State) (adaptive : Bool) (vc m : Nat) : Option Nat :=
  match s.routeEntry m with
  | none => none
  | some e =>
    if adaptive then s.bestPort vc (allPorts.filter fun n => bit (field e 8 12) n && s.portUp n)
    else if s.portUp (field e 0 4) then some (field e 0 4)
    else if s.portUp (field e 4 4) then some (field e 4 4)
    else none

/-- Traffic of a format-order context may be adaptive; a fixed-order context's never is (R368). -/
def State.adaptiveCtx (s : State) (c : Nat) : Bool := s.flag (ctxArithFormatOrder c)

/-- Flits of a packet, 250 bytes of content each (R355): sequence number, channel, content. -/
def flitsOf : Nat → Nat → Nat → List Byte → List (Nat × Nat × List Byte)
  | 0, _, _, _ => []
  | n + 1, seq, vc, bs =>
    if bs.isEmpty then []
    else (seq % 1024, vc, bs.take 250) :: flitsOf n (seq + 1) vc (bs.drop 250)

/-- Bytes of a packet: the 24-byte header of Table 13.4, then its data. -/
def packetBytes (p : Packet) : List Byte :=
  leBytes 1 p.type ++ leBytes 1 p.context ++ leBytes 1 p.gen ++ leBytes 1 p.status ++ leBytes 2 p.src ++
    leBytes 2 p.dst ++ leBytes 2 p.birth ++ leBytes 2 p.tag ++ leBytes 4 p.length ++ leBytes 8 p.addr ++ p.data

/-- A packet sent on a port in a channel: its flits take credits and enter the replay buffer. It is queued on a port that
retrains or has stopped new flits, behind others of its channel, and where the channel lacks the credits (R356, R357, R359). -/
def State.sendVia (s : State) (n vc : Nat) (p : Packet) : State :=
  let q := s.port n
  let fl := flitsOf ((packetBytes p).length / 250 + 1) q.txSeq vc (packetBytes p)
  if s.portState n == 1 || q.paused || q.queue.any (fun x => x.1 == vc) || decide (q.credits.getD vc 0 < fl.length) then
    s.setPort n { q with queue := q.queue ++ [(vc, p)] }
  else
    (s.setPort n { q with
      replay := q.replay ++ fl
      txSeq := (q.txSeq + fl.length) % 1024
      credits := modifyAt (fun c => c - fl.length) vc q.credits }).emit (.packet n p)

/-- A packet sent on a port in its type's channel. -/
def State.sendOn (s : State) (n : Nat) (p : Packet) : State := s.sendVia n (packetVc p) p

/-- Fabric time, ns: the emitter's, as the cue messages carry it (R76; log entry 58). -/
def State.fabricNs (s : State) : Nat := (s.now + s.cue.skewNs).toNat

/-- Fabric time of issue in a packet (Table 13.4). -/
def State.birth (s : State) : Nat := s.fabricNs / 64 % 65536

/-- A context's generation on this member (R382). -/
def State.ctxGen (s : State) (c : Nat) : Nat := s.fld (ctxFabricGen c)

/-- The member is Detached (R79). -/
def State.detached (s : State) : Bool := s.fld cueStatusLock == 3

/-- Whether requests to a member can be sent at all: not while Detached (R79) or in route hold (R370), not to a lost
member (R412), and only along a valid route with a port up (R31, R368). -/
def State.sendPort (s : State) (adaptive : Bool) (vc m : Nat) : Option Nat :=
  if s.detached || s.flag routeStatusHold || s.coll.lost.contains m then none
  else s.choosePort adaptive vc m

/-- A response or an error answer to a request, sent by the route to its issuer (R378, R379). Without a route it is
lost. -/
def State.respond (s : State) (req : Packet) (type status : Nat) (data : List Byte) : State :=
  let p : Packet :=
    { type := type, context := req.context, gen := req.gen, status := status, src := s.member, dst := req.src,
      birth := s.birth, tag := req.tag, length := data.length, addr := req.addr, data := data }
  let vc := answerVc req type
  match s.choosePort (s.adaptiveCtx req.context) vc req.src with
  | some n => s.sendVia n vc p
  | none => s

/- ## Prompter messages (R360, R364) -/

/-- A prompter packet from this member. -/
def State.prompter (s : State) (type dst : Nat) (isFlood : Bool) (body : List Byte) : Packet :=
  { type := type, context := 0, gen := 0, status := if isFlood then 1 else 0, src := s.member, dst := dst,
    birth := s.birth, tag := 0, length := body.length, addr := 0, data := body }

/-- A prompter packet put on the wire: a flood on every up port, another on its route. -/
def State.promptNow (s : State) (p : Packet) : State :=
  if p.status % 2 = 1 then (allPorts.filter fun n => s.portUp n).foldl (fun t n => t.sendOn n p) s
  else
    match s.choosePort false 0 p.dst with
    | some n => s.sendOn n p
    | none => s

/-- A prompter message originated: at most 256 per cue, the rest wait in order (R360). -/
def State.originate (s : State) (p : Packet) : State :=
  if s.fab.sent < 256 && s.fab.waiting.isEmpty then
    ({ s with fab := { s.fab with sent := s.fab.sent + 1 } }).promptNow p
  else { s with fab := { s.fab with waiting := s.fab.waiting ++ [p] } }

/-- Identity of a flooded message: its body (R364). -/
def packetIdentity (p : Packet) : Nat := leNat p.data

/-- The flood has been seen in the last two cues (R364). -/
def State.seenFlood (s : State) (p : Packet) : Bool :=
  s.fab.seen.any fun (o, t, i, c) => o == p.src && t == p.type && i == packetIdentity p && decide (s.cueNo ≤ c + 2)

/-- The flood noted, older notes forgotten. -/
def State.noteFlood (s : State) (p : Packet) : State :=
  { s with fab := { s.fab with
      seen := (p.src, p.type, packetIdentity p, s.cueNo) ::
        s.fab.seen.filter fun (_, _, _, c) => decide (s.cueNo ≤ c + 2) } }

/- ## Requests (R378) -/

/-- A request from an item, recorded as outstanding. None where the member cannot be reached. -/
def State.sendRequest (s : State) (p : Packet) (adaptive : Bool) (use : ReqUse) (entry : Option Nat) : Option State :=
  match s.sendPort adaptive (packetVc p) p.dst with
  | none => none
  | some n =>
    let tag := s.fab.nextTag
    let t := s.sendOn n { p with tag := tag }
    some { t with fab := { t.fab with
      nextTag := (tag + 1) % 65536
      requests := t.fab.requests ++
        [{ tag := tag, ctx := p.context, dst := p.dst, addr := p.addr, len := p.length, use := use, startNs := s.now,
           entry := entry }] } }

/-- A request packet of a context to the member that an address names. -/
def State.request (s : State) (type ctx addr len : Nat) (data : List Byte) : Packet :=
  { type := type, context := ctx, gen := s.ctxGen ctx, status := 0, src := s.member, dst := addrMember addr,
    birth := s.birth, tag := 0, length := len, addr := addr, data := data }

/-- A range cut into packets of at most `size` bytes. -/
def chunks : Nat → Nat → Nat → Nat → List (Nat × Nat)
  | 0, _, _, _ => []
  | n + 1, a, len, size =>
    if len = 0 then [] else (a, min len size) :: chunks n (a + min len size) (len - min len size) size

/-- A range goes in bulk packets: whole 64-byte lines, more than 256 bytes (R361, Table 13.5). -/
def isBulk (a len : Nat) : Bool := decide (256 < len) && decide (a % 64 = 0) && decide (len % 64 = 0)

/-- The packets of a remote range: bulk packets of 4 KiB, or READ and WRITE packets of at most 256 bytes. -/
def packetRanges (a len : Nat) : List (Nat × Nat) :=
  if isBulk a len then chunks (len / 4096 + 1) a len 4096 else chunks (len / 256 + 1) a len 256

end Sys2Proof.Machine
end

