-- ==== Sys2Proof/Machine/Recover.lean ====
section
/-! DEFINITION. Recovery shared by many commands (15_reliability.md): powered time, the fault history, classes of units,
cutting and cancelling of work, the start of a coppice, escalation and entry to curtain. -/
namespace Sys2Proof.Machine

/-- Time that has passed with the head of a ring waiting for its fence-in (R106). -/
def State.headWaits (s : State) (d : Nat) (r : Ring) : Ring :=
  match r.fifo with
  | f :: rest =>
    if f.verdict.isNone && s.fenceState f == .unmet then { r with fifo := { f with fenceWait := f.fenceWait + d } :: rest } else r
  | [] => r

/-- A feed is running: any state but Idle (Table 12.8). -/
def State.anyFeed (s : State) : Bool := s.media.feeds.any fun x => x.2.state != 0

/-- Nothing has work: no run executes, no descriptor is at a ring head, no feed runs (R470). -/
def State.idle (s : State) : Bool := s.runs.isEmpty && (s.rings.all fun x => x.2.fifo.isEmpty) && !s.anyFeed

/-- Block time moved on to `now`, with powered time in whole seconds (R429), the time that ring heads wait for their
fence-ins (R106), the time that runs and requests use of their timeouts (R61, R378), and how long the device has had work
(R470). A time in the past changes nothing. -/
def State.tick (s : State) (now : Nat) : State :=
  if now ≤ s.now then s
  else
    let d := (now - s.rel.poweredNs) / 1000000000
    { s with now := now
             rings := s.rings.map fun x => (x.1, s.headWaits (now - s.now) x.2)
             runs := s.runs.map (s.runAfter (now - s.now))
             fab := { s.fab with requests := s.fab.requests.map (s.requestAfter (now - s.now)) }
             power := { s.power with busyUntil := if s.idle then s.power.busyUntil else now }
             rel := { s.rel with poweredS := s.rel.poweredS + d
                                 poweredNs := s.rel.poweredNs + d * 1000000000 } }

/-- Work that waits until the stage manager is back (R25, R433). -/
def State.smLater (s : State) (x : SmTask) : State := { s with rel := { s.rel with smWaiting := s.rel.smWaiting ++ [x] } }

/- ## Cutting and cancelling work -/

/-- The item is one that `q` picks: open, or ended at this very time in a way that gives way to `status` (R64). -/
def State.cuts (s : State) (q : Item → Bool) (status : Nat) (x : Item) : Bool :=
  (q x && !x.hasEnded) || (x.yields s.now status && q x.before)

/-- Items of the runs that `p` picks, and that `q` picks, end with a status. -/
def State.cutItems (s : State) (p : Run → Bool) (q : Item → Bool) (status detail : Nat) : State :=
  s.runs.foldl (fun t r =>
    if p r then r.items.foldl (fun u x => if s.cuts q status x then u.endEarly r.id x.index status detail else u) t
    else t) s

/-- A verdict on a descriptor none of whose items runs: where it gives no DETAIL, that of an item that has read nothing
(R155, R319). -/
def verdictOn (d : List Byte) (v : Nat × Nat) : Nat × Nat := (v.1, if v.2 = 0 then plannedDetail d else v.2)

/-- A fetched descriptor whose unstarted items will all end with a status. -/
def Fetched.cut (f : Fetched) (status : Nat) : Fetched :=
  match f.verdict with
  | some _ => f
  | none => { f with verdict := some (verdictOn f.bytes (status, 0)) }

/-- Fetched descriptors that `p` picks, on every ring, are to end with a status without running. -/
def State.cutFetched (s : State) (p : Fetched → Bool) (status : Nat) : State :=
  { s with rings := s.rings.map fun (n, r) =>
      (n, { r with fifo := r.fifo.map fun f => if p f then f.cut status else f }) }

/-- Unstarted items of every ring complete CANCELLED (R442, R458, R473). -/
def State.cancelUnstarted (s : State) : State :=
  (s.cutItems (fun _ => true) Item.isUnstarted stCancelled 0).cutFetched (fun _ => true) stCancelled

/-- Feeds that `p` picks stop as under FEED_STOP (R350): their engines are released and undelivered batches
abandoned. -/
def State.stopFeeds (s : State) (p : Feed → Bool) : State :=
  let gone := (s.media.feeds.filter fun (_, f) => p f).map fun (n, _) => n
  let t := { s with media := { s.media with
      feeds := s.media.feeds.map fun (n, f) => if p f then (n, { f with state := 0, engines := [], clips := [] }) else (n, f)
      claims := s.media.claims.filter fun (_, h) => !(gone.any fun n => h == 2 ^ 32 + n) } }
  (s.media.feeds.filter fun (_, f) => p f && f.state == 1).foldl
    (fun u (_, f) => u.endEarly f.run f.item stCancelled 0) t

/-- A detached notice on the prompter channel of every up port (R79, R442, R458, R473): bytes 0..7 the local cue
number. -/
def State.sendDetached (s : State) : State := s.originate (s.prompter ptDetached 0 true (leBytes 8 s.cueNo))

/-- The member stops emitting cues if it was emitting (R442, R458, R473). DEDUCED (log entry 18): it is then an Unlocked
follower. -/
def State.stopEmitting (s : State) : State :=
  if s.fld cueStatusLock = 4 then
    { s.setFld cueStatusLock 0 with cue := { s.cue with formerMaster := true, lockCount := 0 } }
  else s

/- ## The fault history (R430) -/

/-- What a history record says beyond its sequence, time and cue (Table 15.3). -/
structure HistInfo where
  type : Nat
  unit : UnitId
  cause : Nat
  detector : Nat
  count : Nat
  link : Nat
  data : List Byte
  deriving DecidableEq, Repr

/-- The 64 bytes of a history record (Table 15.3). -/
def State.histBytes (s : State) (h : HistInfo) : List Byte :=
  let head := leBytes 8 (s.book.historySeq + 1) ++ leBytes 8 s.rel.poweredS ++
    leBytes 8 (if s.cue.charged then s.cueNo else 0) ++ leBytes 1 h.type ++ leBytes 1 h.unit.kind ++ leBytes 2 h.unit.unit ++
    leBytes 4 h.unit.sub ++ leBytes 1 h.cause ++ leBytes 1 h.detector ++ leBytes 2 h.count ++ leBytes 4 h.link ++
    (h.data ++ List.replicate 16 0).take 16 ++ leBytes 4 0
  head ++ leBytes 4 (crc32 head)

/-- Record types that raise a device event (R449). -/
def histEvents (type : Nat) : Bool := type == 2 || type == 3 || type == 5 || type == 6 || type == 9 || type == 0xD

/-- A record posted to the fault log only: types that go to the ring as hourly summaries (R430). -/
def State.histPost (s : State) (h : HistInfo) : State :=
  let t := s.logPost faultLog (s.histBytes h)
  if histEvents h.type then t.event else t

/-- A record written to the prompt book ring of 65,536 and posted to the fault log (R430). -/
def State.record (s : State) (h : HistInfo) : State :=
  let bs := s.histBytes h
  let seq := s.book.historySeq + 1
  ({ s with book := { s.book with
      history := cellPut s.book.history (seq % 65536) (some bs)
      historySeq := seq } }).histPost { h with data := h.data }

def HistInfo.plain (type : Nat) (u : UnitId) (cause detector : Nat) : HistInfo :=
  { type := type, unit := u, cause := cause, detector := detector, count := 1, link := 0, data := [] }

/- ## Tiles and their binding (R15, R441) -/

/-- Hedge status of a partition (Table 15.10). -/
def hedgeFld (p : Nat) : Fld := ⟨rHedgeStatus, 2 * p, 2⟩

/-- Partition that a unit belongs to, if it belongs to one (Table 15.2). -/
def UnitId.part (u : UnitId) : Option Nat :=
  if u.kind = 1 || u.kind = 2 then some (u.unit / 19)
  else if u.kind = 3 || u.kind = 4 then some u.unit
  else none

/-- The unbound hedge of a partition as a unit. -/
def State.isHedge (s : State) (u : UnitId) : Bool :=
  u.kind == 1 && u.unit % 19 == 18 && s.fld (hedgeFld (u.unit / 19)) != 2

/- ## Curtain (R442) -/

/-- Curtain entered: no further run, unstarted items CANCELLED, feeds stopped, detached notices, a record of type 0x09.
In Dark or Ghost light the device first returns to Full (R473). -/
def State.enterCurtain (s : State) (cause : Nat) : State :=
  if s.flag healthStatusCurtain then s
  else if 2 ≤ s.powerState then
    let t : State := { s with power := { s.power with curtainDue := some cause } }
    if t.power.ghostLatched then t
    else ({ t with power := { t.power with target := some 0 } } : State).setFlag pwrStatusBusy true
  else
    let t := (s.setFlag healthStatusCurtain true).setFld healthStatusCurtainCause cause
    let t : State := { t with rel := { t.rel with draining := true } }
    let t := ((t.cancelUnstarted).stopFeeds fun _ => true).sendDetached.stopEmitting
    t.record (.plain 0x09 ⟨0x0C, 0, 0⟩ cause 0)

/- ## Coppices (R436 to R440) -/

/-- Causes that count toward escalation (Table 15.4). -/
def causeCounts (cause : Nat) : Bool := decide (1 ≤ cause) && decide (cause ≤ 5)

/-- BURST and DAILY as they apply: 0, or a value above the limit, takes the limit (R440). -/
def State.burst (s : State) : Nat := let b := s.fld escalateCtrlBurst; if b = 0 then 3 else b
def State.daily (s : State) : Nat := let d := s.fld escalateCtrlDaily; if d = 0 || 8 < d then 8 else d

/-- A counted event at `who` (a partition, or 8 for an I/O-die engine) noted; whether a count of R440 is reached. -/
def State.escalated (s : State) (who : Nat) : Bool :=
  decide (s.burst ≤ ((s.rel.escalations.filter fun (_, t) => decide (s.rel.poweredS ≤ t + 10)).length)) ||
    (decide (who < 8) && decide (s.daily ≤
      ((s.rel.escalations.filter fun (w, t) => w == who && decide (s.rel.poweredS ≤ t + 86400)).length)))

def State.countEscalation (s : State) (who : Nat) : State :=
  let t := { s with rel := { s.rel with escalations := (who, s.rel.poweredS) :: s.rel.escalations } }
  if t.escalated who then t.enterCurtain 3 else t

/-- Logical tiles of a partition. -/
def partTiles (p : Nat) : List Nat := (List.range 18).map fun i => 18 * p + i

/-- An item of a move or a fill runs on a move engine of a partition: engines 2n and 2n + 1 sit on Pn (R272, R275). -/
def Run.movesOn (r : Run) (p i : Nat) : Bool :=
  let d := r.desc.bytes
  hdrClass d == 5 && (hdrOp d == 2 || hdrOp d == 3) && (leAt d 32 1 + i % (leAt d 33 1 % 16 + 1)) / 2 == p

/-- An end of a move, at a distance from its first, lies in the wings, the tile stores or the stack of a partition. -/
def State.moveEndIn (s : State) (b : List Byte) (dist p : Nat) : Bool :=
  if leAt b 8 1 = 1 then leAt b 9 1 == p
  else
    let a := leAt b 0 8 + dist
    s.isOwn (addrMember a) && decide (addrTier a = 0) && addrOff a / 2 ^ 36 == p

/-- Item `x` of a run is a move under way between places of which one is out of reach in a coppice of a partition: it reads
or holds what was staged there (R23). -/
def State.stagedIn (s : State) (r : Run) (p : Nat) (x : Item) : Bool :=
  let d := payloadOf r.desc.bytes
  x.phase == .running && hdrClass r.desc.bytes == 5 && hdrOp r.desc.bytes == 2 &&
    (s.moveEndIn (d.drop 8) (x.index * leAt d 40 8) p || s.moveEndIn (d.drop 24) (x.index * leAt d 48 8) p)

/-- The run holds a tile of a partition. -/
def Run.inPart (r : Run) (p : Nat) : Bool := r.tiles.any fun t => t / 18 == p

/-- Feeds whose work area lies in the stack of a partition are lost (Table 12.8). -/
def State.loseFeeds (s : State) (p : Nat) : State :=
  let lost := fun (f : Feed) => f.state != 0 && decide (addrTier (leAt f.block 72 8) = 0) &&
    addrKey (leAt f.block 72 8) / 2 ^ 36 == p
  let starting := s.media.feeds.filter fun (_, f) => lost f && f.state == 1
  let ids := (s.media.feeds.filter fun (_, f) => lost f).map Prod.fst
  let t : State := { s with media := { s.media with
    feeds := s.media.feeds.map fun (n, f) => if lost f then (n, { f with state := 0, gone := true, engines := [], clips := [] }) else (n, f)
    claims := s.media.claims.filter fun (_, h) => !(ids.any fun n => h == 2 ^ 32 + n) } }
  starting.foldl (fun u (_, f) => u.endEarly f.run f.item stPartReset 0) t

/-- A coppice of a partition starts (R436): it is fenced, its items end PARTITION_RESET, a record of type 0x05 is
written, and escalation is counted. While the stage manager restarts it waits (R433). -/
def State.startCoppice (s : State) (p cause : Nat) : State :=
  if s.inCoppice p then s
  else if !s.rel.smUp then s.smLater (.coppice p cause)
  else
    let t := (s.setFld ⟨rHealthStatus, 4 + p, 1⟩ 1).setFld ⟨rHealthStatus, 12 + p, 1⟩ 0
    let t : State := { t with
      rel := { t.rel with
        coppices := t.rel.coppices ++ [{ part := p, cause := cause, noReturn := false }]
        planned := t.rel.planned.filter fun x => x.part != p
        testing := t.rel.testing.filter fun x => x / 18 != p
        testOut := if t.rel.testOut.any (fun x => x / 18 == p) then none else t.rel.testOut }
      fn := { t.fn with loading := t.fn.loading.map fun (r, i, g, l) => (r, i, g, l.filter fun x => decide (x / 18 ≠ p)) } }
    let t := t.cutItems (fun r => r.inPart p && !r.waiting) (fun _ => true) stPartReset 0
    let t := t.loseFeeds p
    let t := t.runs.foldl (fun u r => u.cutItems (fun x => x.id == r.id) (fun i => r.movesOn p i.index || s.stagedIn r p i) stPartReset 0) t
    let t := t.record (.plain 0x05 ⟨0x0B, p, 0⟩ cause (if cause = 5 then 7 else if cause = 2 then 5 else if cause = 1 then 4 else 0))
    if causeCounts cause then
      let u := t.countEscalation p
      if u.flag healthStatusCurtain && !t.flag healthStatusCurtain then
        { u with rel := { u.rel with coppices := u.rel.coppices.map fun c =>
            if c.part = p then { c with noReturn := true } else c } }
      else u
    else t

/-- A planned coppice of a partition is announced (R437). -/
def State.planCoppice (s : State) (p : Nat) : State :=
  if s.rel.planned.any (fun x => x.part == p) || s.inCoppice p then s
  else
    let t : State := { s with rel := { s.rel with planned := s.rel.planned ++ [{ part := p, cue := s.cueNo }] } }
    (t.setFld ⟨rHealthStatus, 12 + p, 1⟩ 1).event

/- ## Classes of units (R421, R422, R427) -/

def State.unitClass (s : State) (u : UnitId) : UnitClass :=
  match s.rel.units.find? fun c => c.id == u with
  | some c => c
  | none => { id := u, suspectAt := none, confirmed := false }

def State.setClass (s : State) (c : UnitClass) : State :=
  { s with rel := { s.rel with units := s.rel.units.filter (fun d => d.id != c.id) ++ [c] } }

/-- What a confirmation sets going (Table 15.2): a repair at a planned coppice or at a boundary, or curtain at once. -/
def State.confirmed (s : State) (u : UnitId) : State :=
  if s.isHedge u then s.setFld (hedgeFld (u.unit / 19)) 3
  else if u.kind = 5 || u.kind = 7 then s.enterCurtain 2
  else if u.kind = 0xA then s.enterCurtain 6
  else
    let t := { s with rel := { s.rel with repairDue := addVal u s.rel.repairDue } }
    match u.part with
    | some p => t.planCoppice p
    | none => t

/-- A unit confirmed: a record of type 0x03 with LINK to the first suspect record. -/
def State.confirm (s : State) (u : UnitId) (detector link : Nat) (data : List Byte) : State :=
  ((s.setClass { s.unitClass u with confirmed := true }).record
    { type := 0x03, unit := u, cause := 0, detector := detector, count := 1, link := link % 2 ^ 32, data := data }).confirmed u

/-- A suspect event on a unit: the first makes it suspect, a second within 30 days of powered time confirms it (R421). -/
def State.suspect (s : State) (u : UnitId) (detector : Nat) (data : List Byte) : State :=
  let c := s.unitClass u
  match c.suspectAt with
  | some (t0, seq0) =>
    if !c.confirmed && s.rel.poweredS ≤ t0 + 2592000 then s.confirm u detector seq0 data
    else
      let t := s.record { type := 0x02, unit := u, cause := 0, detector := detector, count := 1, link := 0, data := data }
      t.setClass { c with suspectAt := some (t.rel.poweredS, t.book.historySeq) }
  | none =>
    let t := s.record { type := 0x02, unit := u, cause := 0, detector := detector, count := 1, link := 0, data := data }
    let t := t.setClass { c with suspectAt := some (t.rel.poweredS, t.book.historySeq) }
    let t := if u.kind = 1 then { t with rel := { t.rel with retests := addVal u.unit t.rel.retests } } else t
    if t.isHedge u && t.fld (hedgeFld (u.unit / 19)) = 0 then t.setFld (hedgeFld (u.unit / 19)) 1 else t

/-- A transient: counters and logs only; the ring receives it in an hourly summary (R422, R430). -/
def State.transient (s : State) (u : UnitId) (detector : Nat) (data : List Byte) : State :=
  let t := { s with rel := { s.rel with
      hourTransients := cellSet 0 s.rel.hourTransients u.kind (cellGet 0 s.rel.hourTransients u.kind + 1) } }
  let t := if detector = 1 then t.bump checkTransientsCount else t
  t.histPost { type := 0x01, unit := u, cause := 0, detector := detector, count := 1, link := 0, data := data }

/-- Events of a unit counted over the last 24 h of powered time, this one included (R427). -/
def State.countRecent (s : State) (u : UnitId) : State × Nat :=
  let l := (u, s.rel.poweredS) :: s.rel.recent.filter fun (_, t) => decide (s.rel.poweredS ≤ t + 86400)
  ({ s with rel := { s.rel with recent := l } }, (l.filter fun (v, _) => v == u).length)

/- ## Errors in memory as the stage manager sees them (R265, R427, R428) -/

/-- Unit of a key of device memory: its row (Table 15.2). -/
def devUnitId (key : Nat) : UnitId :=
  if key < 2 ^ 43 then ⟨4, key / 2 ^ 36 % 8, Config.dramRow (key / 64) % 2 ^ 32⟩
  else ⟨6, (key - 2 ^ 43) / 2 ^ 36, Config.dramRow (key / 64) % 2 ^ 32⟩

/-- Unit of a key of SRAM: its line in a tile store, or in the wings (Table 15.2). -/
def State.sramUnitId (s : State) (key : Nat) : UnitId :=
  if key < 0x40000000 then ⟨2, s.physical (key / 0x400000), key % 0x400000 / 64⟩
  else ⟨3, sramPart key, (key - 0x40000000) % 0x1800000 / 64⟩

/-- SRAM whose lines are units of Table 15.2: tile stores and wings. -/
def sramCounted (key : Nat) : Bool := decide (key < sramControl)

/-- An uncorrectable read at a unit: a second one with no write to the line between makes a suspect event, and uses the
pair up (log entry 39). -/
def State.openRead (s : State) (u : UnitId) (key : Nat) : State :=
  if s.rel.openReads.any fun x => x.1 == u then
    ({ s with rel := { s.rel with openReads := s.rel.openReads.filter fun x => x.1 != u } } : State).suspect u 2 []
  else { s with rel := { s.rel with openReads := (u, key) :: s.rel.openReads } }

/-- Rows of a package with uncorrectable data within 24 h: the third confirms the package (Table 15.2). -/
def State.badPackageRow (s : State) (u : UnitId) : State :=
  let p : UnitId := ⟨7, u.unit, 0⟩
  let l := s.rel.recent.filter fun (_, t) => decide (s.rel.poweredS ≤ t + 86400)
  let rows := (l.filter fun (v, _) => v.kind == 7 && v.unit == u.unit).map fun (v, _) => v.sub
  let t : State := { s with rel := { s.rel with recent := (⟨7, u.unit, u.sub⟩, s.rel.poweredS) :: l } }
  if 3 ≤ (addVal u.sub (rows.foldl (fun a x => addVal x a) [])).length && !(s.unitClass p).confirmed then t.confirm p 2 0 [] else t

/-- A read that no code can correct, by any reader: its log entry, and its count at the row (R261, R264, Table 15.2). -/
def State.badDevRead (s : State) (src : ErrSource) (key : Nat) : State :=
  let t := (s.memErr (devBadType key) src (s.devPlace key 0)).openRead (devUnitId key) key
  if (devUnitId key).kind = 6 then t.badPackageRow (devUnitId key) else t

/-- A read of SRAM that no code can correct. Only reads of items count at the line (Table 15.2). -/
def State.badSramRead (s : State) (src : ErrSource) (key : Nat) : State :=
  let t := s.memErr 6 src (s.sramPlace key)
  if src.source = 0 && sramCounted key then t.openRead (s.sramUnitId key) key else t

/-- Corrected reads that make a suspect event within 24 h (Table 15.2). -/
def correctedLimit (u : UnitId) : Nat := if u.kind = 2 || u.kind = 3 then 16 else 256

/-- Corrected events of a log entry counted at the unit of its address (R428); a threshold that is reached makes a suspect
event, and the count begins again (log entry 39). -/
def State.countCorrected (s : State) (u : UnitId) (n : Nat) : State :=
  let keep := s.rel.recent.filter fun (_, t) => decide (s.rel.poweredS ≤ t + 86400)
  let l := List.replicate (min n (correctedLimit u)) (u, s.rel.poweredS) ++ keep
  if correctedLimit u ≤ (l.filter fun (v, _) => v == u).length then
    ({ s with rel := { s.rel with recent := l.filter fun (v, _) => v != u } } : State).suspect u 2 []
  else { s with rel := { s.rel with recent := l } }

/-- A corrected event: logged with its count, or counted for the next entry of this cue's successors (R265). -/
def State.memCorrected (s : State) (type : Nat) (src : ErrSource) (pl : ErrPlace) (u : UnitId) : State :=
  let k := corrUnit type pl
  let n := cellGet 0 s.mem.corrected k + 1
  if s.mem.loggedNow.contains k then
    { s with mem := { s.mem with corrected := cellSet 0 s.mem.corrected k n } }
  else
    (({ s with mem := { s.mem with
        corrected := cellSet 0 s.mem.corrected k 0
        loggedNow := addVal k s.mem.loggedNow } } : State).memErr type src pl n).countCorrected u n

/-- The same where no unit of Table 15.2 is counted: on-die reports, and SRAM outside the tile stores and the wings. -/
def State.memNoted (s : State) (type : Nat) (src : ErrSource) (pl : ErrPlace) (count : Nat) : State :=
  let k := corrUnit type pl
  let n := cellGet 0 s.mem.corrected k + count
  if s.mem.loggedNow.contains k then
    { s with mem := { s.mem with corrected := cellSet 0 s.mem.corrected k n } }
  else
    ({ s with mem := { s.mem with
        corrected := cellSet 0 s.mem.corrected k 0
        loggedNow := addVal k s.mem.loggedNow } } : State).memErr type src pl n

/- ## Lanes (R257) -/

/-- Key of a lane: stack, pseudo-channel and lane. -/
def laneKey (stack pc lane : Nat) : Nat := (stack * 64 + pc) * 5 + lane

/-- Place of a lane in a log entry (Table 9.5). -/
def State.lanePlace (s : State) (stack pc lane line : Nat) : ErrPlace :=
  { addr := mkAddr s.member (line / 64 * 64), unit := stack, channel := pc / 2, pcLane := pc % 2 + 2 * lane }

/-- Source of a scrub's events (Table 9.5). -/
def State.scrubSource (s : State) : ErrSource := { source := 1, ctx := 0xFF, ring := 0, desc := 0, item := 0, requester := s.member }

/-- The channel's spare lane is in use. -/
def State.spareUsed (s : State) (stack pc : Nat) : Bool :=
  s.mem.remapped.any fun k => k / 5 / 2 == (stack * 64 + pc) / 2

/-- A lane with no spare: logged, and the unit is confirmed at once (R257, Table 15.2). -/
def State.noSpare (s : State) (src : ErrSource) (stack pc lane line : Nat) : State :=
  let u : UnitId := ⟨5, stack, pc * 8 + lane⟩
  let t := s.memErr 8 src (s.lanePlace stack pc lane line)
  if (s.unitClass u).confirmed then t else t.confirm u 2 0 []

/-- A lane parity failure in one codeword that some read meets: the fourth within 1 ms marks the lane (Table 9.3). -/
def State.laneFail (s : State) (src : ErrSource) (stack pc lane line : Nat) : State :=
  let k := laneKey stack pc lane
  let l := (k, s.now) :: s.mem.laneFails.filter fun (_, t) => decide (s.now < t + 1000000)
  let t : State := { s with mem := { s.mem with laneFails := l } }
  if 4 ≤ (l.filter fun x => x.1 == k).length ∧ !s.mem.marked.contains k then
    let t : State := { t with mem := { t.mem with marked := addVal k t.mem.marked } }
    if s.spareUsed stack pc then t.noSpare src stack pc lane line
    else t.memErr 7 src (s.lanePlace stack pc lane line)
  else t

/- ## Reads of memory through the codes (R255 to R261) -/

/-- What a read meets in codeword or word `j` of a line that shows errors: corrected errors are counted, and lanes whose
parity fails (R256, R257, R265). -/
def State.meetWord (s : State) (src : ErrSource) (line : Nat) (errs : List CellError) (j : Nat) : State :=
  let mine := errs.filter fun x => x.cw == j
  let t := if s.lineVerdict line errs j = .corrected then
      s.memCorrected (if line < 2 ^ 43 then 1 else 3) src
        (s.devPlace (if line < 2 ^ 43 then line + 16 * j else line + 8 * (j % 8)) ((mine.map fun x => x.lane).headD 0)) (devUnitId line)
    else s
  if line < 2 ^ 43 then
    (mine.filter fun x => x.parity && decide (x.lane < 5)).foldl
      (fun (u : State) x => u.laneFail src (line / 2 ^ 36) (pcOf line % 64) x.lane line) t
  else t

/-- What a read of a range of device memory meets in the cells that show errors. -/
def State.meetCells (s : State) (src : ErrSource) (key len : Nat) : State :=
  (s.mem.stuck.filter fun x => decide (x.1 < key + len) && decide (key < x.1 + 64)).foldl (fun (t : State) x =>
    (List.range (if x.1 < 2 ^ 43 then 4 else 16)).foldl (fun (u : State) j =>
      if x.1 < 2 ^ 43 && !(decide (x.1 + 16 * j < key + len) && decide (key < x.1 + 16 * j + 16)) then u
      else u.meetWord src x.1 x.2 j) t) s

/-- A read of device memory through the codes, by any reader: its bytes, or nothing where they are uncorrectable, with what
it counts and logs (R256 to R261). -/
def State.readMem (s : State) (src : ErrSource) (key len : Nat) : State × Option (List Byte) :=
  let t := s.meetCells src key len
  if s.devBad key len then (t.badDevRead src (s.firstBad key len), none) else (t, some (s.devRead key len))

/-- What a read of SRAM meets in words that show one error: corrected and counted (R259). -/
def State.meetSram (s : State) (src : ErrSource) (key len : Nat) : State :=
  (s.mem.stuckSram.filter fun x => decide (x.1 < key + len) && decide (key < x.1 + 8) && s.resolved x.1 (wordVerdict x.2) == .corrected).foldl
    (fun (t : State) x =>
      if sramCounted x.1 then t.memCorrected 5 src (t.sramPlace x.1) (t.sramUnitId x.1) else t.memNoted 5 src (t.sramPlace x.1) 1) s

/-- A read of SRAM through its code. -/
def State.readSram (s : State) (src : ErrSource) (key len : Nat) : State × Option (List Byte) :=
  let t := s.meetSram src key len
  if s.sramBad key len then (t.badSramRead src (s.firstBadSram key len), none) else (t, some (s.sramRead key len))

/- ## Power (R470) -/

/-- A wake with work returns a Dimmed device to Full (R470). -/
def State.wakeDimmed (s : State) : State := if s.powerState = 1 then s.setFld pwrStatusState 0 else s

/-- No run is admitted: curtain (for charged work the caller says so), power failure, a lifecycle transition, Dark or
Ghost light and their entry. -/
def State.admissionShut (s : State) : Bool :=
  s.rel.draining || s.flash.failing || s.sec.transition.isSome || decide (2 ≤ s.powerState) || s.power.draining ||
    s.power.ghostLatched || s.boot.tripped

end Sys2Proof.Machine
end

