-- ==== Sys2Proof/Machine/Items.lean ====
section
/-! DEFINITION. What every item shares: its reads and writes of memory and SRAM, local and remote, with the checks of
R30, R31, R261 to R263, and the running of its work (R65, R139, R378, R381, R434). -/
namespace Sys2Proof.Machine

/- ## Reading and writing global addresses -/

/-- The checks of R30 that hold on any member: bits 63:57, a population that no board has, and the flash window, which
only whole-tile copies may name. -/
def addrBad (a len : Nat) : Bool :=
  decide (a / 2 ^ 57 ≠ 0) || decide (addrTier a = 2) || neverPopulated (addrTier a) (addrOff a) len

/-- Stops as R31 and R412 say where an address of another member cannot be used. -/
def remoteOk (m vc : Nat) (atomic : Bool) : ItemM Unit := do
  let s ← get
  let e ← read
  require (s.sendPort (s.adaptiveCtx e.ctx && !atomic) vc m).isSome stMemberLost

/-- A check of an address range for reading, touching nothing (R30): local ranges must be populated here, register loads
must be whole 4-byte words (R510). What makes an address of another member bad comes before a missing route to it (DESIGN
CHOICE, log entry 67). -/
def checkRead (a len : Nat) : ItemM Unit := do
  let s ← get
  require (!addrBad a len) stBad
  if addrTier a = 3 then require (a % 4 = 0 && len % 4 = 0) stBad
  if s.isOwn (addrMember a) then
    if addrTier a < 2 then require (s.populated (addrTier a) (addrOff a) len) stBad
  else remoteOk (addrMember a) 1 false

/-- A check of an address range for writing, touching nothing (R30): the register tier is refused first. -/
def checkWrite (a len : Nat) : ItemM Unit := do
  let s ← get
  require (!(decide (a / 2 ^ 57 = 0) && decide (addrTier a = 3))) stNotAuth
  require (!addrBad a len) stBad
  if s.isOwn (addrMember a) then require (s.populated (addrTier a) (addrOff a) len) stBad
  else remoteOk (addrMember a) 1 false

/-- A read of this member's device memory by key (R23, R261). -/
def readDev (key len : Nat) : ItemM (List Byte) := do
  let s ← get
  let e ← read
  require (!s.devShut key) stPartReset
  let (t, bs) := s.readMem (e.source s 0) key len
  set t
  match bs with
  | some bs => return bs
  | none => stopWith stUncorrectable

/-- A write of this member's device memory by key (R23, R262). -/
def writeDev (key : Nat) (bs : List Byte) : ItemM Unit := do
  let s ← get
  let e ← read
  require (!s.devShut key) stPartReset
  if s.devPartBad key bs.length then
    set (s.partRefused (e.source s 4) key bs.length)
    stopWith stUncorrectable
  set (s.devWrite key bs)

/-- The bytes of a remote range, if every packet of it has arrived. -/
def arrivedRange (arr : List (Nat × List Byte)) (a len : Nat) : Option (List Byte) :=
  (packetRanges a len).foldl (fun acc (x, n) =>
    match acc, arr.find? (fun r => r.1 == x && r.2.length == n) with
    | some bs, some r => some (bs ++ r.2)
    | _, _ => none) (some [])

/-- The present item as the run holds it. -/
def theItem : ItemM (Option Item) := do
  let e ← read
  return ((← get).findRun e.run).bind fun r => r.item e.item

/-- The present item changed. -/
def modifyItem (f : Item → Item) : ItemM Unit := do
  let e ← read
  modify fun s => s.onItem e.run e.item f

/-- Numbers that an item reads once (R156, R183, R193): they stay noted while it waits for something else, so that a write to
where they stood does not change them. -/
def once (k : Nat) (m : ItemM (List Nat)) : ItemM (List Nat) := do
  match (← theItem).bind fun x => cellFind k x.noted with
  | some l => return l
  | none =>
    let l ← m
    modifyItem fun x => { x with noted := cellPut x.noted k (some l) }
    return l

/-- An exchange with another member: a request whose result the item notes, to be done once though the work is begun again
(R178). Its result is a number, as the bytes that come back spell it. -/
def exchange (a type len : Nat) (data : List Byte) : ItemM Nat := do
  match ← theItem with
  | none => throw .hold
  | some x =>
    modifyItem fun y => { y with cursor := x.cursor + 1 }
    match cellFind (nkTrail + x.cursor) x.noted with
    | some l => return l.headD 0
    | none => throw (.ask (nkTrail + x.cursor) type a len data)

/-- A read at a global address, local or remote; the range has been checked. `frame` says that it reads a key/value frame
and carries the run's epoch (R181). -/
def loadAt (a len : Nat) (frame : Bool := false) : ItemM (List Byte) := do
  let s ← get
  if len = 0 then return []
  if s.isOwn (addrMember a) then
    if addrTier a = 3 then return s.loadRegs (addrOff a) len else readDev (addrKey a) len
  else
    match (← theItem).bind fun x => arrivedRange x.arrived a len with
    | some bs => return bs
    | none =>
      remoteOk (addrMember a) 1 false
      throw (.need [(a, len)] frame)

/-- A read at a global address with the checks of R30. -/
def load (a len : Nat) : ItemM (List Byte) := do
  checkRead a len
  loadAt a len

/-- Requests for the packets of a remote range that neither wait nor have arrived. A range that cannot be asked for ends
the item MEMBER_LOST. -/
def State.askRange (s : State) (e : ItemEnv) (a len : Nat) (frame : Bool) : State :=
  (packetRanges a len).foldl (fun t (x, n) =>
    if t.fab.requests.any (fun q => q.of e.run e.item && q.addr == x && q.len == n) then t
    else if ((t.findRun e.run).bind fun r => r.item e.item).any fun i => i.arrived.any fun r =>
        r.1 == x && r.2.length == n then t
    else
      let p : Packet := { t.request (if isBulk a len then ptBulkRead else ptRead) e.ctx x n [] with
        epoch := if frame then some (e.epoch % 65536) else none }
      match t.sendRequest p (t.adaptiveCtx e.ctx) (.read e.run e.item) none with
      | some u => u
      | none => t.endEarly e.run e.item stMemberLost 0) s

/-- The item waits for what its work needs, from the state in which that work began; what it has noted stays noted. A
request that cannot be sent ends it MEMBER_LOST. -/
def State.again (s0 t : State) (e : ItemEnv) (stop : Stop) : State :=
  let u := s0.onItem e.run e.item fun x =>
    { x with noted := (((t.findRun e.run).bind fun r => r.item e.item).map fun y => y.noted).getD x.noted }
  match stop with
  | .need rs frame => rs.foldl (fun v (a, n) => v.askRange e a n frame) u
  | .ask key type a len data =>
    let use : ReqUse := .note e.run e.item key (type == ptAtomic)
    if u.fab.requests.any fun q => q.use == use then u
    else
      match u.sendRequest (u.request type e.ctx a len data) (u.adaptiveCtx e.ctx && type != ptAtomic) use none with
      | some v => v
      | none => u.endEarly e.run e.item stMemberLost
  | _ => u

/-- One step of an item: all of it is done, or none of it yet. Its result is noted, so that it is done once though the work
begins again when what a later step needs has come (R178, R183). -/
def inStep (m : ItemM (List Nat)) : ItemM (List Nat) := do
  match ← theItem with
  | none => throw .hold
  | some x =>
    match cellFind (nkTrail + x.cursor) x.noted with
    | some l =>
      modifyItem fun y => { y with cursor := x.cursor + 1 }
      return l
    | none =>
      let e ← read
      let s0 ← get
      modifyItem fun y => { y with cursor := x.cursor + 1 }
      let l ← tryCatch m fun stop =>
        match stop with
        | .ended st dt => throw (.ended st dt)
        | stop => do
          modify fun t => s0.again t e stop
          throw .hold
      modifyItem fun y => { y with
        cursor := x.cursor + 1
        noted := cellPut (y.noted.filter fun c => decide (c.1 < nkTrail + x.cursor)) (nkTrail + x.cursor) (some l) }
      return l

/-- A step without a result. -/
def inStepDo (m : ItemM Unit) : ItemM Unit := do
  let _ ← inStep do
    m
    return []
  return ()

/-- A step whose result is a number. -/
def inStepNat (m : ItemM Nat) : ItemM Nat := do
  return (← inStep do return [← m]).headD 0

/-- A step whose result is bytes. -/
def inStepBytes (m : ItemM (List Byte)) : ItemM (List Byte) := do
  return (← inStep do return (← m).map BitVec.toNat).map (BitVec.ofNat 8)

/-- The item waits until its writes to other members are acknowledged (R183, R184). -/
def waitWrites : ItemM Unit := do
  let e ← read
  if (← get).fab.requests.any fun q => q.of e.run e.item && q.writes then throw .hold

/-- A read whose missing packets are asked for while the item waits with what it did kept. -/
def loadKeep (a len : Nat) : ItemM (List Byte) := do
  checkRead a len
  let e ← read
  if (← get).isOwn (addrMember a) then loadAt a len
  else
    match (← theItem).bind fun x => arrivedRange x.arrived a len with
    | some bs => return bs
    | none =>
      modify fun s => s.askRange e a len false
      throw .hold

/-- The same of a location that changes: what has arrived is used once. -/
def loadFresh (a len : Nat) : ItemM (List Byte) := do
  let bs ← loadKeep a len
  modifyItem fun x => { x with arrived := x.arrived.filter fun r => decide (r.1 < a) || decide (a + len ≤ r.1) }
  return bs

/-- A little-endian number read at a global address. -/
def loadNat (a len : Nat) : ItemM Nat := do return leNat (← load a len)

/-- The same of a number that others change: another member is asked anew each time the work comes here. -/
def freshNat (a len : Nat) : ItemM Nat := do
  checkRead a len
  if (← get).isOwn (addrMember a) then return leNat (← loadAt a len) else exchange a ptRead len []

/-- An atomic at another member: the old value (R375). -/
def remoteAtomic (a op operand compare : Nat) : ItemM Nat := do
  remoteOk (addrMember a) 1 true
  exchange a ptAtomic 24 (leBytes 8 op ++ leBytes 8 operand ++ leBytes 8 compare)

/-- Bytes of a list replaced from a position. -/
def patchBytes (bs : List Byte) (i : Nat) (new : List Byte) : List Byte :=
  bs.take i ++ new ++ bs.drop (i + new.length)

/-- What has arrived for the present item with its own writes put over it, so that it reads back what it wrote. -/
def patchArrived (a : Nat) (new : List Byte) : ItemM Unit :=
  modifyItem fun x => { x with arrived := x.arrived.map fun (b, bs) =>
    if b ≤ a ∧ a + new.length ≤ b + bs.length then (b, patchBytes bs (a - b) new) else (b, bs) }

/-- One write packet of an item to another member (R378, R381). -/
def sendWrite (a : Nat) (bs : List Byte) (bulk : Bool) : ItemM Unit := do
  let s ← get
  let e ← read
  let p := s.request (if bulk then ptBulkWrite else ptWrite) e.ctx a bs.length bs
  match s.sendRequest p (s.adaptiveCtx e.ctx) (.write e.run e.item) none with
  | some t => set t
  | none => stopWith stMemberLost

/-- A write at a global address, local or remote; the range has been checked. -/
def storeAt (a : Nat) (bs : List Byte) : ItemM Unit := do
  let s ← get
  if bs.isEmpty then return
  if s.isOwn (addrMember a) then writeDev (addrKey a) bs
  else
    (packetRanges a bs.length).forM fun (x, n) => sendWrite x ((bs.drop (x - a)).take n) (isBulk a bs.length)
    patchArrived a bs

/-- A write at a global address with the checks of R30. -/
def store (a : Nat) (bs : List Byte) : ItemM Unit := do
  checkWrite a bs.length
  storeAt a bs

/- ## Partition SRAM -/

/-- A read of SRAM by key (R23, R137, R261). -/
def sramLoad (key len : Nat) : ItemM (List Byte) := do
  let s ← get
  let e ← read
  require (!s.inCoppice (sramPart key)) stPartReset
  let (t, bs) := s.readSram (e.source s 0) key len
  set t
  match bs with
  | some bs => return bs
  | none => stopWith stUncorrectable

/-- A table that an engine reads from its own SRAM must be readable (R259, R261). -/
def sramTable (key len : Nat) : ItemM Unit := do
  let _ ← sramLoad key len
  return ()

/-- A range of SRAM can be written (R23, R262). -/
def sramClear (key len : Nat) : ItemM Unit := do
  let s ← get
  let e ← read
  require (!s.inCoppice (sramPart key)) stPartReset
  if s.sramPartBad key len then
    set (s.memErr 6 (e.source s 4) (s.sramPlace (s.firstBadSram key len)))
    stopWith stUncorrectable

/-- A write of SRAM by key. -/
def sramStore (key : Nat) (bs : List Byte) : ItemM Unit := do
  sramClear key bs.length
  modify fun s => s.sramWrite key bs

/- ## Running an item -/

/-- Items of one tile, and items of a codec run, run one at a time, in ascending index (R139, R310). Items of other engines
start in any order. -/
def Run.mayStart (r : Run) (i : Nat) : Bool :=
  (if hdrClass r.desc.bytes = 7 || hdrClass r.desc.bytes = 8 then
    r.items.all fun x => x.hasEnded || decide (i ≤ x.index) else true) &&
  (r.tiles.isEmpty || r.items.all fun x =>
    x.hasEnded || decide (i ≤ x.index) || decide (x.index % r.tiles.length ≠ i % r.tiles.length))

/-- The item is of this class and opcode, has been dispatched, and has started or may start. -/
def State.itemReady (s : State) (cls op run item : Nat) : Option Run :=
  match s.findRun run with
  | none => none
  | some r =>
    match r.item item with
    | none => none
    | some x =>
      if !r.waiting && (x.isUnstarted || x.phase == .running) && hdrClass r.desc.bytes == cls && hdrOp r.desc.bytes == op &&
          r.mayStart item then some r
      else none

/-- What becomes of an item whose work has stopped or ended. -/
def settle (e : ItemEnv) (start : State) (res : Except Stop Done × State) : State :=
  match res with
  | (.ok d, t) => (t.noteCycles e.run e.item d.cycles).closeItem e.run e.item d.status d.detail
  | (.error (.ended st dt), t) =>
    (t.noteCycles e.run e.item 0).closeItem e.run e.item st (t.detailFor e.run e.item st dt)
  | (.error .hold, t) => t
  | (.error stop, t) => start.again t e stop

/-- An item under way. -/
def State.beginItem (s : State) (run item : Nat) : State :=
  s.onItem run item fun x => { x with phase := .running, cursor := 0 }

/-- One item command: the item starts, or goes on, and its work is done on the present state. An item that is not there
to run leaves the state as it is (log entry 16). -/
def State.runItem (s : State) (cls op : Nat) (work : ItemM Done) (run item : Nat) : State :=
  match s.itemReady cls op run item with
  | none => s
  | some r =>
    let e := r.env s item
    settle e (s.beginItem run item) (work.on e (s.beginItem run item))

/-- What the item has counted or read, for its DETAIL. -/
def noteCount (n : Nat) : ItemM Unit := modifyItem fun x => { x with noted := cellPut x.noted nkCount (some [n]) }

/-- A plain end. -/
def done (status : Nat := 0) (detail : Nat := 0) (cycles : Nat := 0) : Done := ⟨status, detail, cycles⟩

end Sys2Proof.Machine
end

