-- ==== Sys2Proof/Machine/RingOps.lean ====
section
/-! DEFINITION. Rings as operations: doorbell lines, status lines, interrupts, fetching with its header checks, batch
steps, completion records and fence-outs (02_host_and_rings.md, R93, R463). -/
namespace Sys2Proof.Machine

/- ## Status lines and interrupts (R47, R70) -/

/-- The 64 bytes of a status line (Table 2.6). -/
def Ring.statusLine (r : Ring) : List Byte :=
  leBytes 4 r.cons.toNat ++ leBytes 4 r.cqProd.toNat ++ leBytes 4 r.discarded ++ leBytes 4 r.state ++
    leBytes 4 r.ignored ++ leBytes 44 0

/-- Status lines and vectors of a ring go out. Those of a host-resident ring do not while the port is down, nor, but for
one line as the port comes up again, once the loss of the host has halted the ring (R38, R70). -/
def State.signals (s : State) (n : Nat) : Bool := s.ringDevice n || (s.host.up && (s.ring n).state != 1)

/-- The status line put where it stands. One that cannot be written, in a stack that is out of reach, is lost (R520). -/
def State.putStatus (s : State) (n : Nat) : State :=
  let a := s.reg (rRingStatusAddr n)
  if s.ringDevice n then (if s.devShut (addrKey a) then s else s.devWrite (addrKey a) (s.ring n).statusLine)
  else s.emit (.hostWrite a (s.ring n).statusLine)

/-- The status line of a ring written, where it may be. -/
def State.writeStatus (s : State) (n : Nat) : State := if s.signals n then s.putStatus n else s

/-- The ring's vector raised, where it may be; count and timer restart (R70). -/
def State.interrupt (s : State) (n : Nat) : State :=
  let t := s.onRing n fun r => { r with sinceIrq := 0, firstRec := none }
  if s.signals n then t.raise n else t

/-- A device event of a ring, at most once per cue and kind (R48, R520). -/
def State.ringEvent (s : State) (n kind : Nat) : State :=
  if (s.ring n).raised.contains kind then s
  else (s.onRing n fun r => { r with raised := addVal kind r.raised }).event

/- ## Trace (R463) -/

/-- One 64-byte record for the trace ring, when trace is on. The record's layout beyond its subject is not given: the
rest is a free value (log entry 19). -/
def State.trace (s : State) (subject : List Byte) : State :=
  let n := s.fld traceCtrlLog2
  let b := s.reg rTraceBase
  if 1 ≤ s.fld lcStatusDebug && s.flag traceCtrlEn && decide (6 ≤ n) && decide (n ≤ 20) && b != 0 &&
      s.ownMem b (64 * 2 ^ n) && decide (b % (64 * 2 ^ n) = 0) then
    let rest := (List.range (64 - subject.length)).map fun i => BitVec.ofNat 8 (Config.tracePad (s.freeCtr + i))
    let t := s.devWrite (addrKey b + 64 * (s.sec.traceProd % 2 ^ n)) (subject.take 64 ++ rest)
    { t with freeCtr := t.freeCtr + 64, sec := { t.sec with traceProd := t.sec.traceProd + 1 } }
  else s

/- ## Doorbells (R48, R49, R62) -/

/-- The ring unit acts on this ring: sealed, enabled and not halted (R38, R39, R442). -/
def State.ringLive (s : State) (n : Nat) : Bool :=
  s.isSealed && s.ringEnabled n && decide ((s.ring n).state = 0) && !s.boot.tripped

/-- The ring that holds a context's fallback program: enabled, device-resident, of the same context, and with room for the
program. None where the registration breaks these conditions (R95). -/
def State.fallbackRing (s : State) (c : Nat) : Option Nat :=
  let n := s.fld (ctxFallbackRing c)
  if s.ringEnabled n && s.ringDevice n && s.ringCtx n == c && decide (s.fld (ctxFallbackCount c) + 1 ≤ s.sqSize n) then some n
  else none

/-- The ring holds a context's fallback program, so its doorbell is ignored (R91, R95). -/
def State.isFallbackRing (s : State) (n : Nat) : Bool :=
  !s.flag cueCtrlMode && (List.range 64).any fun c =>
    s.flag (ctxCtrlEn c) && s.flag (ctxFallbackEn c) && s.fallbackRing c == some n

/-- A new producer value passes (R48). -/
def Ring.prodOk (r : Ring) (sq : Nat) (p : Word) : Bool :=
  decide ((p - r.cons).toNat ≤ sq) && decide ((p - r.prod).toNat < 2 ^ 31)

/-- A new completion consumer value passes (R48). -/
def Ring.consOk (r : Ring) (cq : Nat) (k : Word) : Bool :=
  decide ((k - r.cqCons).toNat < 2 ^ 31) && decide ((r.cqProd - k).toNat ≤ cq)

/-- The producer index taken, or its failing value noted once (R48). -/
def Ring.takeProd (r : Ring) (sq : Nat) (p : Word) : Ring :=
  if r.prodOk sq p then { r with prod := p }
  else if r.badProd.contains p then r
  else { r with badProd := r.badProd ++ [p], ignored := satAdd 32 r.ignored 1 }

/-- The completion consumer index taken, or its failing value noted once (R48). Failing values are kept for each of the two
indices, so that one number failing as both counts twice (DESIGN CHOICE, log entry 76). -/
def Ring.takeCons (r : Ring) (cq : Nat) (k : Word) : Ring :=
  if r.consOk cq k then { r with cqCons := k }
  else if r.badCons.contains k then r
  else { r with badCons := r.badCons ++ [k], ignored := satAdd 32 r.ignored 1 }

/-- Index `i` lies below a cancel mark (R62). -/
def belowMark (m i : Word) : Bool := decide (1 ≤ (m - i).toNat) && decide ((m - i).toNat ≤ 2 ^ 31)

/-- A cancel mark acted on: unstarted items of every earlier unfinished descriptor complete CANCELLED; a mark lower than
the one before it is ignored (R62). -/
def State.takeMark (s : State) (n : Nat) (m : Word) : State :=
  let r := s.ring n
  if m = r.cancel || belowMark r.cancel m && r.marked then s
  else
    let t := s.setRing n { r with cancel := m, marked := true }
    let t := t.cutItems (fun x => x.desc.ring == n && belowMark m x.desc.index) Item.isUnstarted stCancelled 0
    t.cutFetched (fun f => f.ring == n && belowMark m f.index) stCancelled

/-- A doorbell line that has been read, acted on (R48, R62). -/
def State.takeLine (s : State) (n : Nat) (l : DoorbellLine) : State :=
  let r := s.ring n
  let bad := !(r.prodOk (s.sqSize n) l.prod) || !(r.consOk (s.cqSize n) l.cons)
  let t := s.setRing n ((r.takeProd (s.sqSize n) l.prod).takeCons (s.cqSize n) l.cons)
  (if bad then t.ringEvent n 0 else t).takeMark n l.cancel

/-- What a read of a device-resident doorbell line returns: none where it cannot be corrected. -/
def State.readLine (s : State) (n : Nat) : Option DoorbellLine :=
  let k := addrKey (s.reg (rRingDbAddr n))
  if s.devBad k 64 || s.devShut k then none
  else
    let b := s.devRead k 64
    some { prod := BitVec.ofNat 32 (leAt b 0 4), cons := BitVec.ofNat 32 (leAt b 4 4), cancel := BitVec.ofNat 32 (leAt b 8 4) }

/-- One read of a doorbell line: ignored before the seal, on a halted ring and on a fallback ring; held in Dark and Ghost
light; a line that cannot be corrected is no change and raises an event (R39, R48, R95, R472). -/
def State.wakeRing (s : State) (n : Nat) (line : Option DoorbellLine) : State :=
  if !s.ringLive n || s.isFallbackRing n then s
  else if 2 ≤ s.powerState then
    (match line with
     | some l => s.onRing n fun r => { r with heldLine := some l }
     | none => s)
  else
    match line with
    | none => (s.wakeDimmed).ringEvent n 1
    | some l => (s.wakeDimmed).takeLine n l

/- ## Batch steps (R93) -/

/-- A descriptor delimits steps by its flags; one whose fetch failed carries neither. -/
def Fetched.first (f : Fetched) : Bool := flStepFirst f.bytes && !(f.verdict == some (stUncorrectable, 0) && f.noFence)
def Fetched.lastFlag (f : Fetched) : Bool := flStepLast f.bytes && !(f.verdict == some (stUncorrectable, 0) && f.noFence)

/-- A step that a descriptor index belongs to. -/
def StepMon.holds (m : StepMon) (i : Word) : Bool :=
  match m.last with
  | some l => decide ((i - m.first).toNat ≤ (l - m.first).toNat)
  | none => decide ((i - m.first).toNat < 2 ^ 31)

/-- The last descriptor of the step begun by `f`, among those fetched. -/
def stepEnd (f : Fetched) (fifo : List Fetched) : Option Word :=
  if f.first && !f.lastFlag then
    (fifo.find? fun g => g.lastFlag && decide (1 ≤ (g.index - f.index).toNat) && decide ((g.index - f.index).toNat < 2 ^ 31)).map
      fun g => g.index
  else some f.index

/-- The ring head seen: its arrival is noted, and the step it begins (R58, R93). -/
def State.noteHead (s : State) (n : Nat) : State :=
  s.onRing n fun r =>
    match r.fifo with
    | [] => r
    | f :: rest =>
      let r := if f.headCue.isNone then { r with fifo := { f with headCue := some s.cueNo } :: rest } else r
      let steps := r.steps.map fun m =>
        if m.last.isNone then { m with last := (r.fifo.find? fun g => g.lastFlag && m.holds g.index).map fun g => g.index } else m
      if f.continuation || f.owner.isSome || steps.any (fun m => m.holds f.index) then { r with steps := steps }
      else
        { r with steps := steps ++
          [{ first := f.index, last := stepEnd f r.fifo, order := f.order, finished := [], arrived := s.cueNo, choice := .undecided,
             missPredicted := false, worst := 0, programLeft := 0, late := false }] }

/- ## Fetching (R46, R55, R56, R519) -/

/-- Opcodes that each class defines (R54 and the opcode tables of the home chapters). -/
def opCount (cls : Nat) : Nat := ([8, 5, 7, 7, 5, 5, 4, 1, 1, 4, 6, 7] : List Nat).getD cls 0

/-- The header holds a reserved value (R10, R52 to R57). -/
def hdrReserved (d : List Byte) : Bool :=
  decide (opCount (hdrClass d) ≤ hdrOp d) || decide (field (leAt d 2 2) 6 10 ≠ 0) || decide (leAt d 4 1 / 64 ≠ 0) ||
    decide (field (leAt d 6 2) 6 9 ≠ 0) || decide (leAt d 8 4 / 2 ^ 20 ≠ 0) || decide (field (hdrFenceIn d) 12 3 ≠ 0) ||
    decide (field (hdrFenceOut d) 12 3 ≠ 0) || (bit (hdrFenceOut d) 15 && decide (hdrFenceOut d / 65536 = 0)) ||
    decide (leAt d 24 8 ≠ 0)

/-- The descriptor names a fence (R519). -/
def usesFence (d : List Byte) : Bool :=
  bit (hdrFenceIn d) 15 || bit (hdrFenceOut d) 15 || (decide (hdrClass d = 0) && (hdrOp d == 1 || hdrOp d == 2))

/-- The ring unit may fetch: not in Dark or Ghost light, not in Deployed without IDE, not while work is shut out (R38,
R468, R472). -/
def State.mayFetch (s : State) (n : Nat) : Bool :=
  s.ringLive n && !s.admissionShut && !(s.ideRequired && !s.ideUp) && !s.isFallbackRing n &&
    (s.ringDevice n || (s.host.up && !s.host.lost))

/- ## Completion records (R65 to R69, R520) -/

/-- Reproducibility stamp (Table 2.16). -/
def State.stamp (s : State) (r : Run) (widened : Bool) : Nat :=
  r.fnGen % 256 + 256 * (r.biasGen % 256) + 65536 * (r.chorusGen % 256) +
    (if s.flag (ctxArithFormatOrder r.ctx) then 0 else 2 ^ 24) + (if s.flag (ctxArithCompat r.ctx) then 2 ^ 25 else 0) +
    (if s.flag (ctxArithRoundSr r.ctx) then 2 ^ 26 else 0) + (if widened then 2 ^ 28 else 0)

/-- RFLAGS but for PHASE (Table 2.15). -/
def rflags (summary continues fallback denied spilled : Bool) : Nat :=
  (if summary then 2 else 0) + (if continues then 4 else 0) + (if fallback then 8 else 0) + (if denied then 16 else 0) +
    (if spilled then 32 else 0)

/-- A record but for its phase (Table 2.14). -/
structure RecInfo where
  flags : Nat
  desc : Nat
  item : Nat
  status : Nat
  ctx : Nat
  stamp : Nat
  cycles : Nat
  detail : Nat
  deriving DecidableEq, Repr

/-- Phase of the record at a free-running completion index (R68). -/
def phaseAt (i : Word) (log2 : Nat) : Nat := if i.toNat / 2 ^ log2 % 2 = 0 then 1 else 0

/-- The 32 bytes of a record. -/
def State.recordBytes (s : State) (n : Nat) (i : Word) (x : RecInfo) : List Byte :=
  leBytes 1 n ++ leBytes 1 (x.flags + phaseAt i (s.fld (ringCtrlCqLog2 n))) ++ leBytes 2 x.desc ++ leBytes 2 x.item ++
    leBytes 1 x.status ++ leBytes 1 x.ctx ++ leBytes 4 s.cueNo ++ leBytes 4 x.stamp ++ leBytes 4 x.cycles ++
    leBytes 8 x.detail ++ leBytes 4 0

/-- One record of a ring: written at its slot, lost where the write fails (R520), discarded where the host was lost
(R38). -/
def State.writeRecord (s : State) (n : Nat) (x : RecInfo) (fails : Bool) : State :=
  let r := s.ring n
  if !s.ringDevice n && s.host.lost then
    (s.setRing n { r with discarded := satAdd 32 r.discarded 1 }).bump hostLostRecordsCount
  else
    let bs := s.recordBytes n r.cqProd x
    let a := s.reg (rRingCqBase n) + 32 * (r.cqProd.toNat % s.cqSize n)
    let lost := if s.ringDevice n then s.devShut (addrKey a) || s.devPartBad (addrKey a) 32 else fails || !s.host.up
    let r := { r with cqProd := r.cqProd + 1, sinceIrq := r.sinceIrq + 1, firstRec := some (r.firstRec.getD s.now) }
    if lost then (s.setRing n { r with discarded := satAdd 32 r.discarded 1 }).ringEvent n 2
    else
      let t := s.setRing n r
      (if s.ringDevice n then t.devWrite (addrKey a) bs else t.emit (.hostWrite a bs)).trace bs

/-- Status and DETAIL of an ended item. -/
def Item.result (x : Item) : Nat × Nat :=
  match x.phase with
  | .ended st dt => (st, dt)
  | _ => (stOk, 0)

/-- The item of a run has been pre-empted (R63). -/
def Item.isPreempted (x : Item) : Bool := x.result.1 == stPreempted && x.hasEnded

/-- The run's summary carries CONTINUES (R63). -/
def Run.continues (r : Run) : Bool := r.items.any Item.isPreempted

/-- Item records of a run: every item that is not OK, or every item under RECORD_ALL (R65). -/
def Run.recorded (r : Run) : List Item := r.items.filter fun x => flRecordAll r.desc.bytes || x.result.1 != stOk

def State.itemRecord (s : State) (r : Run) (x : Item) : RecInfo :=
  { flags := rflags false false r.desc.fallback (x.prec.denied != 0) r.spilled, desc := r.desc.index.toNat % s.sqSize r.desc.ring,
    item := x.index, status := x.result.1, ctx := r.ctx, stamp := s.stamp r (x.prec.widened != 0), cycles := x.cycles,
    detail := x.result.2 }

/-- Cycles of a run's items without further stalls (R67): items of one tile, and items of a codec run, follow one another
(R139, R310); those of other engines may run together. -/
def Run.cycles (r : Run) : Nat :=
  let n := if hdrClass r.desc.bytes = 7 || hdrClass r.desc.bytes = 8 then 1 else r.tiles.length
  let spans : List Nat := if n = 0 then r.items.map fun x => x.cycles
    else (List.range n).map fun k => ((r.items.filter fun x => decide (x.index % n = k)).map fun x => x.cycles).sum
  spans.foldl max 0

/-- Largest status of a run. -/
def Run.worst (r : Run) : Nat := r.items.foldl (fun a x => max a x.result.1) 0

def State.summary (s : State) (r : Run) : RecInfo :=
  { flags := rflags true r.continues r.desc.fallback (r.items.any fun x => x.prec.denied != 0) r.spilled,
    desc := r.desc.index.toNat % s.sqSize r.desc.ring, item := r.recorded.length, status := r.worst, ctx := r.ctx,
    stamp := s.stamp r (r.items.any fun x => x.prec.widened != 0),
    cycles := if r.desc.verdict.isSome then 0 else s.cyclesOf r.cycles,
    detail := match r.items with
      | [x] => x.result.2
      | _ => 0 }

/-- The records of a run, item records in ascending order and then the summary, contiguously (R65). `hostFails` names
those whose write host memory answers with an error. -/
def State.writeRecords (s : State) (r : Run) (hostFails : List Nat) : State :=
  let recs := (r.recorded.map fun x => s.itemRecord r x) ++ [s.summary r]
  (recs.foldl (fun (t, k) x => (t.writeRecord r.desc.ring x (hostFails.contains k), k + 1)) (s, 0)).1.draw

/- ## Fence-outs (R59) -/

/-- A fence word set by a partial write of its unit: refused and logged over an uncorrectable unit (R59, R262). Into a stack
that is out of reach it is written through (DESIGN CHOICE, log entry 77). -/
def State.putFence (s : State) (c i word : Nat) (src : ErrSource) : State :=
  let k := s.fenceKey c i
  if s.devPartBad k 4 then s.partRefused src k 4
  else (s.devWrite k (leBytes 4 (word % 2 ^ 17))).wakeDimmed

/-- An increment of a fence counter modulo 2^16, setting poison if asked (R59). -/
def State.addFence (s : State) (c i inc : Nat) (poison : Bool) (src : ErrSource) : State :=
  let w := s.fenceWord c i
  s.putFence c i ((w % 65536 + inc) % 65536 + (if poison || bit w 16 then 65536 else 0)) src

/-- The fence-out of a descriptor whose final summary has been written (R59). -/
def State.fenceOut (s : State) (r : Run) : State :=
  let fo := hdrFenceOut r.desc.bytes
  if bit fo 15 && !r.desc.noFence && s.fenceTableOk r.ctx then
    s.addFence r.ctx (fo % 4096) (fo / 65536) (decide (0x10 ≤ max r.desc.worst r.worst)) (s.runSource r)
  else s

end Sys2Proof.Machine
end

