-- ==== Sys2Proof/Machine/Atomic.lean ====
section
/-! DEFINITION. Atomics on device memory (R375) and the frame pools they change (R176 to R179, R189). -/
namespace Sys2Proof.Machine

/- ## Pools (R176, R177) -/

/-- Base of the pool of a tier. -/
def rKvpoolBase (t : Nat) : Nat := if t = 0 then rKvpool0Base else rKvpool1Base

/-- Key of the header of this member's pool in a tier, if it has one in its place (Table 6.4). -/
def State.poolKey (s : State) (t : Nat) : Option Nat :=
  let b := s.reg (rKvpoolBase t)
  if b ≠ 0 ∧ b % 64 = 0 ∧ s.ownMem b 64 ∧ addrTier b = t then some (addrKey b) else none

/-- A 4-byte word of device memory. -/
def State.word (s : State) (key : Nat) : Nat := leNat (s.devRead key 4)

/-- Source of what a pool's member writes on its own account, for no context. -/
def State.poolSource (s : State) (src : Nat) : ErrSource :=
  { source := src, ctx := 0xFF, ring := 0, desc := 0, item := 0, requester := s.member }

/-- A store of a pool's word by the hardware itself, for no context: refused over part of an uncorrectable unit (R262). -/
def State.setWord (s : State) (key v : Nat) : State :=
  s.putPart (s.poolSource 4) key (leBytes 4 v)

/-- No frame (Tables 6.5 and 6.6). -/
def noFrame : Nat := 0xFFFFFFFF

/-- Fields of a frame record (Table 6.6). -/
def frRef (r : Nat) : Nat := field r 0 16
def frOwner (r : Nat) : Nat := field r 16 6
def frState (r : Nat) : Nat := field r 22 2

/-- The low word of a record from its fields. -/
def frWord (refs owner st : Nat) : Nat := refs + 2 ^ 16 * owner + 2 ^ 22 * st

/-- HELD of a context raised and lowered (Table 6.4). -/
def State.heldUp (s : State) (c n : Nat) : State := s.bump (ctxKvheldHeld c) n
def State.heldDown (s : State) (c n : Nat) : State := s.setFld (ctxKvheldHeld c) (s.fld (ctxKvheldHeld c) - n)

/-- Steps 1 and 2 of R179: frame `k` of the pool at `key` goes to the end of the returning list. -/
def State.returnFrame (s : State) (key k : Nat) : State :=
  let r := key + 64 + 8 * k
  let w := s.word r
  let t := (s.setWord r (frWord 0 (frOwner w) 2)).setWord (r + 4) noFrame
  let t := if t.word (key + 20) = noFrame then t.setWord (key + 20) k
    else t.setWord (key + 64 + 8 * t.word (key + 24) + 4) k
  (t.setWord (key + 24) k).setWord (key + 12) (t.word (key + 12) + 1)

/-- Frames of the returning list from `k`, at most `n`. -/
def State.returningFrom (s : State) (key : Nat) : Nat → Nat → List Nat
  | 0, _ => []
  | n + 1, k => if k = noFrame then [] else k :: s.returningFrom key n (s.word (key + 64 + 8 * k + 4))

/-- Step 3 of R179: the returning list is spliced onto the free list. -/
def State.splicePool (s : State) (key : Nat) : State :=
  let l := s.returningFrom key (s.word (key + 12)) (s.word (key + 20))
  if l.isEmpty then s
  else
    let t := l.foldl (fun t k =>
      let r := key + 64 + 8 * k
      let w := t.word r
      (t.setWord r (frWord (frRef w) (frOwner w) 0)).heldDown (frOwner w) 1) s
    let t := t.setWord (key + 64 + 8 * l.getLastD 0 + 4) (t.word (key + 16))
    let t := (t.setWord (key + 16) (l.headD 0)).setWord (key + 4) (t.word (key + 4) + l.length)
    ((t.setWord (key + 12) 0).setWord (key + 20) noFrame).setWord (key + 24) noFrame

/- ## Joins at a boundary (R189) -/

/-- The 64 bytes of a sequence record as its decided join leaves it, and the state of the pool: admitted if the pool has
REQ frames uncommitted and the context's limit allows them, otherwise refused with its reason. -/
def State.decideJoin (s : State) (key : Nat) (b : List Byte) : State × List Byte :=
  let c := leAt b 2 1 % 64
  let req := leAt b 24 4
  let free := s.word (key + 4) - s.word (key + 8)
  let tail := leBytes 2 0 ++ leBytes 4 (s.cueNo % 2 ^ 32) ++ leBytes 8 0 ++ (b.drop 24)
  if req ≤ free ∧ s.fld (ctxKvheldHeld c) + req ≤ s.fld (ctxKvpagesLimit c) then
    ((s.setWord (key + 8) (s.word (key + 8) + req)).heldUp c req,
      leBytes 2 2 ++ (b.drop 2).take 2 ++ leBytes 4 (leAt b 4 4 + req) ++ (b.drop 8).take 2 ++ tail)
  else
    (s.setWord (key + 44) (satAdd 32 (s.word (key + 44)) 1),
      leBytes 1 3 ++ leBytes 1 (if free < req then stNoPage else stQuota) ++ (b.drop 2).take 8 ++
        leBytes 2 0 ++ (b.drop 12).take 4 ++ leBytes 8 0 ++ b.drop 24)

/-- Joins that a pool has accepted and not decided, in link order. -/
def State.pendingJoins (s : State) (t : Nat) : List Nat :=
  ((s.mem.deciding ++ s.mem.joins).filter fun x => x.1 == t).map Prod.snd

/-- JOIN_HEAD names the first pending record (Table 6.5). -/
def State.setJoinHead (s : State) (t : Nat) : State :=
  match s.poolKey t with
  | some key => s.putPart (s.poolSource 4) (key + 32) (leBytes 8 ((s.pendingJoins t).headD 0))
  | none => s

/-- Bytes of a sequence record written by the pool's member, here or on another member. -/
def State.putRecord (s : State) (a : Nat) (bs : List Byte) : State :=
  if s.ownMem a bs.length then s.putPart (s.poolSource 4) (addrKey a) bs
  else
    match s.sendRequest (s.request ptWrite (s.fld mgmtContextContext) a bs.length bs) false .post none with
    | some u => u
    | none => s

/-- A pool accepts a link: the record goes to the end of its list, whose last record names it in NEXT (R187, R188). -/
def State.acceptJoin (s : State) (t a : Nat) : State :=
  let u := match (s.pendingJoins t).getLast? with
    | some l => s.putRecord (l + 16) (leBytes 8 a)
    | none => s
  ({ u with mem := { u.mem with joins := u.mem.joins ++ [(t, a)] } } : State).setJoinHead t

/-- The first record that a pool was to decide leaves its list. -/
def State.dropJoin (s : State) (t a : Nat) : State :=
  ({ s with mem := { s.mem with deciding := s.mem.deciding.erase (t, a) } } : State).setJoinHead t

/-- A pending record decided and written back (R189). -/
def State.decideRecord (s : State) (t key a : Nat) (b : List Byte) : State :=
  let (u, b') := s.decideJoin key b
  (u.putRecord a b').dropJoin t a

/-- The joins that an edge took for deciding, in link order, at most `n`. A record on another member is first read over the
fabric; the rest of the list waits for it. One that cannot be read here leaves the list undecided (log entry 31). -/
def State.decideFront (s : State) (t key : Nat) : Nat → State
  | 0 => s
  | n + 1 =>
    match s.mem.deciding.find? fun x => x.1 == t with
    | none => s
    | some (_, a) =>
      if s.ownMem a 64 then
        if s.devShut (addrKey a) then s
        else
          match s.readMem (s.poolSource 0) (addrKey a) 64 with
          | (u, some b) => (u.decideRecord t key a b).decideFront t key n
          | (u, none) => (u.dropJoin t a).decideFront t key n
      else if s.fab.requests.any fun q => q.use == .joinRec t then s
      else
        match s.sendRequest (s.request ptRead (s.fld mgmtContextContext) a 64 []) false (.joinRec t) none with
        | some u => u
        | none => s

/-- A pool's read of a pending record has come back: it is decided, and the next one follows (R189). -/
def State.joinArrived (s : State) (t a : Nat) (b : List Byte) : State :=
  match s.poolKey t with
  | none => s
  | some key =>
    if b.length = 64 ∧ (s.mem.deciding.find? fun x => x.1 == t) = some (t, a) then
      (s.decideRecord t key a b).decideFront t key 256
    else s

/-- The pool's header can be read at a boundary. -/
def State.poolReadable (s : State) (key : Nat) : Bool := !s.devShut key && !s.devBad key 64

/-- The accepted joins of a pool that an edge takes for deciding, so that 256 are (R189). -/
def State.takeJoins (s : State) (t : Nat) : State :=
  let l := (s.mem.joins.filter fun x => x.1 == t).take (256 - (s.mem.deciding.filter fun x => x.1 == t).length)
  { s with mem := { s.mem with joins := s.mem.joins.filter fun x => !l.contains x, deciding := s.mem.deciding ++ l } }

/-- The pool rows of Table 6.11 for both tiers: returning frames spliced. -/
def State.splicePools (s : State) : State :=
  [0, 1].foldl (fun u t =>
    match u.poolKey t with
    | some key => if u.poolReadable key then u.splicePool key else u
    | none => u) s

/-- Up to 256 joins of each pool decided. -/
def State.decideJoins (s : State) : State :=
  [0, 1].foldl (fun u t =>
    match u.poolKey t with
    | some key => if u.poolReadable key then (u.takeJoins t).decideFront t key 257 else u
    | none => u) s

/- ## Atomics (R375) -/

/-- A key lies in some context's fence table. -/
def State.inFenceTable (s : State) (key : Nat) : Bool :=
  (List.range 64).any fun c =>
    s.fenceTableOk c && decide (s.fenceKey c 0 ≤ key) && decide (key < s.fenceKey c 0 + 16384)

/-- Pool and frame whose record's first word lies at a key. -/
def State.recordAt (s : State) (key : Nat) : Option (Nat × Nat) :=
  [0, 1].foldl (fun acc t =>
    match acc, s.poolKey t with
    | none, some p =>
      if p + 64 ≤ key ∧ key < p + 64 + 8 * s.word p ∧ (key - p) % 8 = 0 then some (p, (key - p - 64) / 8) else none
    | x, _ => x) none

/-- Operand width of an atomic. -/
def atomicSize (op : Nat) : Nat := if op % 2 = 1 then 8 else 4

/-- What an atomic leaves at a location that holds `old` (R375). -/
def State.atomicNew (s : State) (key op operand compare old : Nat) : Nat :=
  let n := atomicSize op
  if op < 2 then
    if n = 4 ∧ s.inFenceTable key then old / 65536 * 65536 + (old + operand) % 65536
    else (old + operand) % 2 ^ (8 * n)
  else if old = compare % 2 ^ (8 * n) then operand % 2 ^ (8 * n) else old

/-- What an atomic of a context on a pool brings with it (log entry 32): RESERVED raises and lowers HELD of the context, a
frame record that goes from free to in use raises its owner's (R178), and a swap of JOIN_HEAD is a link that the pool
accepts (R188). -/
def State.poolNote (s t : State) (ctx key n old new : Nat) : State :=
  let u := [0, 1].foldl (fun (u : State) tier =>
    match s.poolKey tier with
    | some p =>
      let a := s.word (p + 8)
      let b := t.word (p + 8)
      let u := if key ≤ p + 8 ∧ p + 12 ≤ key + n then (if a ≤ b then u.heldUp ctx (b - a) else u.heldDown ctx (a - b)) else u
      if key = p + 32 ∧ n = 8 ∧ old ≠ new ∧ new ≠ 0 then u.acceptJoin tier new else u
    | none => u) t
  match s.recordAt key with
  | some (p, k) =>
    if frRef old ≠ 0 ∧ frRef new = 0 then u.returnFrame p k
    else if frState old = 0 ∧ frState new = 1 then u.heldUp (frOwner new) 1
    else u
  | none => u

/-- An atomic of a context performed on device memory: the old value. A count of a frame record brought to zero returns the
frame (R179); a fence change wakes a Dimmed device (R470). -/
def State.atomic (s : State) (ctx key op operand compare : Nat) : State × Nat :=
  let n := atomicSize op
  let old := leNat (s.devRead key n)
  let new := s.atomicNew key op operand compare old
  let t := s.devWrite key (leBytes n new)
  let t := if s.inFenceTable key then t.wakeDimmed else t
  (s.poolNote t ctx key n old new, old)

end Sys2Proof.Machine
end

