-- ==== Sys2Proof/Machine/Num.lean ====
section
/-! DEFINITION. Numbers and their formats (04_number_formats.md): element encodings of Table 4.2, conversions of R109
and R110 in both rounding modes, the FP32 lane arithmetic of R201, EXP2 and the array accumulation of R121. -/
namespace Sys2Proof.Machine

/-- An exact value: NaN, a signed infinity, or `±m × 2^e` with the sign of a zero kept. -/
inductive FVal where
  | nan
  | inf (neg : Bool)
  | num (neg : Bool) (m : Nat) (e : Int)
  deriving DecidableEq, Repr, Inhabited

/-- +0. -/
def FVal.zero : FVal := .num false 0 0

/-- An integer as a value. -/
def FVal.ofNat (n : Nat) : FVal := .num false n 0

def FVal.isNan : FVal → Bool
  | .nan => true
  | _ => false

def FVal.isFinite : FVal → Bool
  | .num _ _ _ => true
  | _ => false

def FVal.isZero : FVal → Bool
  | .num _ 0 _ => true
  | _ => false

def FVal.isNeg : FVal → Bool
  | .nan => false
  | .inf n => n
  | .num n _ _ => n

def FVal.neg : FVal → FVal
  | .nan => .nan
  | .inf n => .inf !n
  | .num n m e => .num (!n) m e

def FVal.abs : FVal → FVal
  | .nan => .nan
  | .inf _ => .inf false
  | .num _ m e => .num false m e

/-- A float format: field widths, bias, and which codes are special (Table 4.2). -/
structure FloatFmt where
  ebits : Nat
  mbits : Nat
  bias : Nat
  /-- All-ones exponent holds infinity and NaN, as in IEEE 754. -/
  ieee : Bool
  /-- The one code S.1111.111 is NaN (E4M3). -/
  topNan : Bool
  deriving DecidableEq, Repr

def fp32 : FloatFmt := ⟨8, 23, 127, true, false⟩
def bf16 : FloatFmt := ⟨8, 7, 127, true, false⟩
def fp16 : FloatFmt := ⟨5, 10, 15, true, false⟩
def e4m3 : FloatFmt := ⟨4, 3, 7, false, true⟩
def e5m2 : FloatFmt := ⟨5, 2, 15, true, false⟩
def e2m3 : FloatFmt := ⟨2, 3, 1, false, false⟩
def e3m2 : FloatFmt := ⟨3, 2, 3, false, false⟩
def e2m1 : FloatFmt := ⟨2, 1, 1, false, false⟩

/-- Width of a code in bits. -/
def FloatFmt.width (f : FloatFmt) : Nat := 1 + f.ebits + f.mbits

/-- Exponent of the smallest unit: that of a subnormal's last bit. -/
def FloatFmt.qmin (f : FloatFmt) : Int := 1 - (f.bias : Int) - (f.mbits : Int)

/-- Magnitude code of the largest finite value (Table 4.2). -/
def FloatFmt.maxCode (f : FloatFmt) : Nat :=
  if f.ieee then (2 ^ f.ebits - 1) * 2 ^ f.mbits - 1
  else if f.topNan then 2 ^ (f.ebits + f.mbits) - 2
  else 2 ^ (f.ebits + f.mbits) - 1

/-- The value of a code (R108). -/
def FloatFmt.decode (f : FloatFmt) (code : Nat) : FVal :=
  let neg := code / 2 ^ (f.ebits + f.mbits) % 2 == 1
  let ex := code / 2 ^ f.mbits % 2 ^ f.ebits
  let ma := code % 2 ^ f.mbits
  if f.ieee && ex == 2 ^ f.ebits - 1 then (if ma = 0 then .inf neg else .nan)
  else if f.topNan && ex == 2 ^ f.ebits - 1 && ma == 2 ^ f.mbits - 1 then .nan
  else if ex = 0 then .num neg ma f.qmin
  else .num neg (2 ^ f.mbits + ma) (f.qmin + (ex : Int) - 1)

/-- The two rounding modes (R123): to nearest even, or stochastic with its 16 random bits (R124). -/
inductive Rounding where
  | rne
  | sr (r : Nat)
  deriving DecidableEq, Repr

/-- `m × 2^e` in units of `2^u`, rounded. -/
def roundUnits (mode : Rounding) (m : Nat) (e u : Int) : Nat :=
  if u ≤ e then m * 2 ^ (e - u).toNat
  else
    let sh := (u - e).toNat
    let q := m / 2 ^ sh
    let rem := m % 2 ^ sh
    match mode with
    | .rne => if 2 * rem > 2 ^ sh || (2 * rem == 2 ^ sh && q % 2 == 1) then q + 1 else q
    | .sr r => if rem * 65536 / 2 ^ sh > r then q + 1 else q

/-- Magnitude code of `m × 2^e` rounded in a format, not yet limited to its range. -/
def FloatFmt.magCode (f : FloatFmt) (mode : Rounding) (m : Nat) (e : Int) : Nat :=
  if m = 0 then 0
  else
    let p : Int := (Nat.log2 m : Int) + e
    let u : Int := max (p - (f.mbits : Int)) f.qmin
    (u - f.qmin).toNat * 2 ^ f.mbits + roundUnits mode m e u

/-- The sign bit of a format, at its place. -/
def FloatFmt.signBit (f : FloatFmt) (neg : Bool) : Nat := if neg then 2 ^ (f.ebits + f.mbits) else 0

/-- The canonical NaN (R110): quiet bit only for FP32, BF16, FP16 and E5M2, all ones for E4M3. -/
def FloatFmt.canonicalNan (f : FloatFmt) : Nat :=
  if f.topNan then 2 ^ (f.ebits + f.mbits) - 1
  else (2 ^ f.ebits - 1) * 2 ^ f.mbits + 2 ^ (f.mbits - 1)

/-- Code of an infinity in an IEEE-like format. -/
def FloatFmt.infCode (f : FloatFmt) : Nat := (2 ^ f.ebits - 1) * 2 ^ f.mbits

/-- Conversion of an exact value to a format (R109, R110). The formats without NaN take 0 for NaN and infinity: their
blocks are marked by the scale (R109). -/
def FloatFmt.encode (f : FloatFmt) (mode : Rounding) (v : FVal) : Nat :=
  match v with
  | .nan => if f.ieee || f.topNan then f.canonicalNan else 0
  | .inf neg =>
    if f.ieee then f.signBit neg + f.infCode
    else if f.topNan then f.signBit neg + f.canonicalNan
    else 0
  | .num neg m e =>
    let c := f.magCode mode m e
    if c ≤ f.maxCode then f.signBit neg + c
    else if f.ieee && f.mbits != 2 then
      match mode with
      | .rne => f.signBit neg + f.infCode
      | .sr _ => f.signBit neg + f.maxCode
    else f.signBit neg + f.maxCode

/-- The value rounded to FP32, to nearest even (R201). -/
def r32 (v : FVal) : FVal := fp32.decode (fp32.encode .rne v)

/-- FP32 value of a code, and code of a value. -/
def ofF32 (c : Nat) : FVal := fp32.decode c
def toF32 (v : FVal) : Nat := fp32.encode .rne v

/-- Signed integer of `±m` scaled to exponent `g`, for `g ≤ e`. -/
def signedAt (neg : Bool) (m : Nat) (e g : Int) : Int :=
  let x : Int := (m * 2 ^ (e - g).toNat : Nat)
  if neg then -x else x

/-- Exact sum, with the IEEE sign of a zero sum under round to nearest even. -/
def FVal.addExact (a b : FVal) : FVal :=
  match a, b with
  | .nan, _ => .nan
  | _, .nan => .nan
  | .inf x, .inf y => if x == y then .inf x else .nan
  | .inf x, _ => .inf x
  | _, .inf y => .inf y
  | .num na ma ea, .num nb mb eb =>
    let g := min ea eb
    let s := signedAt na ma ea g + signedAt nb mb eb g
    if s = 0 then .num (na && nb) 0 0 else .num (decide (s < 0)) s.natAbs g

/-- Exact product. -/
def FVal.mulExact (a b : FVal) : FVal :=
  match a, b with
  | .nan, _ => .nan
  | _, .nan => .nan
  | .inf x, .inf y => .inf (x != y)
  | .inf x, .num n m _ => if m = 0 then .nan else .inf (x != n)
  | .num n m _, .inf x => if m = 0 then .nan else .inf (x != n)
  | .num na ma ea, .num nb mb eb => .num (na != nb) (ma * mb) (ea + eb)

/-- FP32 operations with round to nearest even (R201). -/
def fadd (a b : FVal) : FVal := r32 (a.addExact b)
def fsub (a b : FVal) : FVal := r32 (a.addExact b.neg)
def fmul (a b : FVal) : FVal := r32 (a.mulExact b)
def ffma (a b c : FVal) : FVal := r32 ((a.mulExact b).addExact c)

/-- Quotient to well beyond FP32 precision, with a sticky last bit, so that one rounding of it is correct. -/
def FVal.divWide (a b : FVal) : FVal :=
  match a, b with
  | .nan, _ => .nan
  | _, .nan => .nan
  | .inf _, .inf _ => .nan
  | .inf x, .num n _ _ => .inf (x != n)
  | .num n _ _, .inf x => .num (n != x) 0 0
  | .num na ma ea, .num nb mb eb =>
    if mb = 0 then (if ma = 0 then .nan else .inf (na != nb))
    else if ma = 0 then .num (na != nb) 0 0
    else
      let k := 64 + Nat.log2 mb
      let q := ma * 2 ^ k / mb
      let st := if ma * 2 ^ k % mb = 0 then 0 else 1
      .num (na != nb) (2 * q + st) (ea - eb - (k : Int) - 1)

/-- Correctly rounded FP32 division (R201). -/
def fdiv (a b : FVal) : FVal := r32 (a.divWide b)

/-- Correctly rounded FP32 square root (R201, Table 7.4): NaN below −0. -/
def fsqrt (a : FVal) : FVal :=
  match a with
  | .nan => .nan
  | .inf neg => if neg then .nan else .inf false
  | .num neg m e =>
    if m = 0 then .num neg 0 0
    else if neg then .nan
    else
      let odd : Nat := if e % 2 = 0 then 0 else 1
      let v := m * 2 ^ (64 + odd)
      let r := isqrt v
      let st := if r * r = v then 0 else 1
      r32 (.num false (2 * r + st) ((e - (odd : Int)) / 2 - 32 - 1))

/-- Exact comparison of magnitudes and signs: −1, 0 or 1; NaN is compared by the callers. −0 equals +0. -/
def FVal.cmp (a b : FVal) : Int :=
  match a, b with
  | .nan, _ => 0
  | _, .nan => 0
  | .inf x, .inf y => if x == y then 0 else if x then -1 else 1
  | .inf x, _ => if x then -1 else 1
  | _, .inf y => if y then 1 else -1
  | .num na ma ea, .num nb mb eb =>
    let g := min ea eb
    let d := signedAt na ma ea g - signedAt nb mb eb g
    if d < 0 then -1 else if d = 0 then 0 else 1

def FVal.lt (a b : FVal) : Bool := !a.isNan && !b.isNan && a.cmp b == -1
def FVal.le (a b : FVal) : Bool := !a.isNan && !b.isNan && a.cmp b ≤ 0

/-- MAX of Table 7.4: NaN if either is NaN, −0 below +0. -/
def fmax (a b : FVal) : FVal :=
  if a.isNan || b.isNan then .nan
  else if a.cmp b == 0 then (if a.isNeg then b else a)
  else if a.cmp b == 1 then a else b

/-- MIN of Table 7.4. -/
def fmin (a b : FVal) : FVal :=
  if a.isNan || b.isNan then .nan
  else if a.cmp b == 0 then (if a.isNeg then a else b)
  else if a.cmp b == -1 then a else b

/-- Exact scaling by a power of two. -/
def FVal.scale (a : FVal) (k : Int) : FVal :=
  match a with
  | .num n m e => .num n m (e + k)
  | x => x

/-- ⌊log2 |v|⌋ of a finite nonzero value. -/
def FVal.ilog (v : FVal) : Int :=
  match v with
  | .num _ m e => (Nat.log2 m : Int) + e
  | _ => 0

/-- `2^(fr / 2^n)` in units of `2^-256`, cut off: the product of the roots of 2 that the bits of `fr` select, from the top
one down. `r` is the root above and `y` the product so far. -/
def exp2Frac : Nat → Nat → Nat → Nat → Nat
  | 0, _, _, y => y
  | n + 1, fr, r, y =>
    if fr = 0 then y
    else
      let q := isqrt (r * 2 ^ 256)
      exp2Frac n (fr % 2 ^ n) q (if 2 ^ n ≤ fr then y * q / 2 ^ 256 else y)

/-- FP32 code of the largest value not above `y × 2^(i − 256)`, for `y` from `2^256` up to twice that. -/
def exp2Floor (i : Int) (y : Nat) : Nat :=
  if i < -126 then y / 2 ^ (107 - i).toNat
  else (i + 127).toNat * 2 ^ 23 + (y / 2 ^ 233 - 2 ^ 23)

/-- EXP2 of Table 7.4: 2^x within 1 ulp, the same function everywhere. Which value within 1 ulp is a free value of the
operand (`Config.exp2Choice`, log entry 9). -/
def exp2 (x : FVal) : FVal :=
  match x with
  | .nan => .nan
  | .inf neg => if neg then .zero else .inf false
  | .num neg m e =>
    if m ≠ 0 ∧ 7 ≤ (Nat.log2 m : Int) + e ∧ !neg then .inf false
    else if m ≠ 0 ∧ 8 ≤ (Nat.log2 m : Int) + e then .zero
    else
      let n := (-e).toNat
      let k : Int := signedAt neg m e (min e 0)
      let i : Int := k / 2 ^ n
      let fr := (k % 2 ^ n).toNat
      let f := exp2Floor i (exp2Frac n fr (2 ^ 257) (2 ^ 256))
      let choice := Config.exp2Choice (toF32 x)
      if fr = 0 ∧ -149 ≤ i then
        (match choice % 3 with
         | 0 => fp32.decode f
         | 1 => fp32.decode (f + 1)
         | _ => fp32.decode (f - 1))
      else fp32.decode (f + choice % 2)

/-- One term of an accumulation: sign, magnitude and exponent. -/
def FVal.term (v : FVal) : Option (Bool × Nat × Int) :=
  match v with
  | .num n m e => some (n, m, e)
  | _ => none

/-- The weight of the most significant bit among nonzero terms (R121). -/
def topWeight : List FVal → Option Int
  | [] => none
  | .num _ m e :: t =>
    let r := topWeight t
    if m = 0 then r
    else
      let w : Int := (Nat.log2 m : Int) + e
      match r with
      | none => some w
      | some x => some (max w x)
  | _ :: t => topWeight t

/-- Sum of the terms truncated in magnitude to multiples of `2^g`, and whether any bit was removed (R121). -/
def truncSum (g : Int) : List FVal → Int × Bool
  | [] => (0, false)
  | .num n m e :: t =>
    let (s, st) := truncSum g t
    if g ≤ e then (s + signedAt n m e g, st)
    else
      let sh := (g - e).toNat
      let q : Int := (m / 2 ^ sh : Nat)
      (s + (if n then -q else q), st || m % 2 ^ sh != 0)
  | _ :: t => truncSum g t

/-- Special values in a sum (DEDUCED, log entry 10): NaN, or infinities of both signs, give NaN. -/
def specialSum : List FVal → Option FVal
  | [] => none
  | .nan :: _ => some .nan
  | .inf n :: t =>
    match specialSum t with
    | none => some (.inf n)
    | some (.inf k) => if k == n then some (.inf n) else some .nan
    | some _ => some .nan
  | .num _ _ _ :: t => specialSum t

/-- One array pass on one output element (R121): the running partial and the products, each exact. `w` is 48 when both
operands are 8 bits or narrower, else 64. -/
def accumulate (w : Nat) (p : FVal) (prods : List FVal) : FVal :=
  let terms := p :: prods
  match specialSum terms with
  | some v => v
  | none =>
    match topWeight terms with
    | none => .num (terms.all FVal.isNeg) 0 0
    | some top =>
      let g : Int := top - (w : Int) + 1
      let (s, st) := truncSum g terms
      if s = 0 then .num (terms.all fun t => t.isZero && t.isNeg) 0 0
      else r32 (.num (decide (s < 0)) (s.natAbs * 2 ^ 64 + (if st then 1 else 0)) (g - 64))

/-- The BF16 high part of R122: nearest even, held at the largest finite value. -/
def splitHi (a : FVal) : FVal :=
  match a with
  | .num neg m e =>
    let c := bf16.magCode .rne m e
    bf16.decode (bf16.signBit neg + min c bf16.maxCode)
  | x => x

/-- The BF16 low part of R122. -/
def splitLo (a : FVal) : FVal :=
  match a with
  | .num _ _ _ => bf16.decode (bf16.encode .rne (a.addExact (splitHi a).neg))
  | x => x

/-- The pairing tree of R166 over any combining step: pairs 2i and 2i + 1 at each level; the last rises unpaired. -/
def pairLevel {α : Type} (f : α → α → α) : List α → List α
  | a :: b :: t => f a b :: pairLevel f t
  | l => l

/-- `pairLevel` until one value is left, for at most `fuel` levels. -/
def pairTree {α : Type} (f : α → α → α) : Nat → List α → List α
  | 0, l => l
  | n + 1, l => if l.length ≤ 1 then l else pairTree f n (pairLevel f l)

/-- The fixed tree of R132 and R166. -/
def fixedTree {α : Type} (f : α → α → α) (d : α) (l : List α) : α :=
  (pairTree f (clog2 l.length + 1) l).headD d

/-- Elements of a row that belong to lane `j` of 512 (R202). -/
def laneElems {α : Type} (l : List α) (j : Nat) : List α :=
  (List.range ((l.length + 511) / 512)).filterMap fun k => l[k * 512 + j]?

/-- The lane tree of R202: each lane folds its elements in ascending order from `init`, then the 512 lanes combine by
the pairing tree. -/
def laneTree {α β : Type} (step : β → α → β) (init : β) (merge : β → β → β) (l : List α) : β :=
  fixedTree merge init ((List.range 512).map fun j => (laneElems l j).foldl step init)

/-- E8M0 scale exponent of a block from the largest finite magnitude (R112): the code, 0 for an all-zero block. -/
def scaleCode (amax : Option Int) (eel : Int) : Nat :=
  match amax with
  | none => 0
  | some l =>
    let x := l - eel
    if x < -127 then 0 else if x > 127 then 0xFE else (x + 127).toNat

/-- Value of an E8M0 scale: none for NaN (0xFF). -/
def scaleExp (code : Nat) : Option Int := if code = 255 then none else some ((code : Int) - 127)

/-- Largest ⌊log2⌋ among the finite nonzero magnitudes of a block, none when all are zero (R112). The largest magnitude
has the largest ⌊log2⌋. -/
def amaxLog (l : List FVal) : Option Int :=
  l.foldl (fun acc v =>
    match v with
    | .num _ m e =>
      if m = 0 then acc
      else
        let w : Int := (Nat.log2 m : Int) + e
        match acc with
        | none => some w
        | some x => some (max x w)
    | _ => acc) none

end Sys2Proof.Machine
end

