-- ==== Sys2Proof/Machine/Rows.lean ====
section
/-! DEFINITION. Rows of elements as bytes, in every format but the packed line (R107 to R112, R117, R143). -/
namespace Sys2Proof.Machine

/- ## Format codes (Table 4.1) -/

/-- Element encoding of a float format code. -/
def elemFmt (code : Nat) : Option FloatFmt :=
  match code with
  | 0 => some fp32
  | 1 => some bf16
  | 2 => some fp16
  | 3 => some e4m3
  | 4 => some e5m2
  | 5 => some e4m3
  | 6 => some e5m2
  | 7 => some e2m3
  | 8 => some e3m2
  | 9 => some e2m1
  | _ => none

/-- The format is defined (R107). -/
def fmtKnown (code : Nat) : Bool := decide (code ≤ 0xC)

/-- An MX format: elements and scales apart (R111). -/
def isMx (code : Nat) : Bool := decide (5 ≤ code) && decide (code ≤ 0xA)

/-- Narrower than FP8 (R119). -/
def isNarrow (code : Nat) : Bool := decide (7 ≤ code)

/-- Width of an element in bits. -/
def elemBits (code : Nat) : Nat := ([32, 16, 16, 8, 8, 8, 8, 6, 6, 4, 8, 4, 2] : List Nat).getD code 8

/-- Exponent of the element format's largest finite value (R112). -/
def elemExp (code : Nat) : Int :=
  match code with
  | 5 => 8
  | 6 => 15
  | 7 => 2
  | 8 => 4
  | 9 => 2
  | _ => 0

/-- Bytes of a row of `n` elements, padded as its format says (R111, R113, R117, R143). -/
def rowBytes (code n : Nat) : Nat :=
  if isMx code then 4 * elemBits code * ceilDiv n 32
  else if code = 0xB then 128 * ceilDiv n 224
  else if code = 0xC then 72 * ceilDiv n 256
  else elemBits code / 8 * n

/-- Bytes of a row's scales: one a block in the MX formats, none otherwise. -/
def scaleBytes (code n : Nat) : Nat := if isMx code then ceilDiv n 32 else 0

/-- A number rounded up to a multiple of 64. -/
def up64 (n : Nat) : Nat := ceilDiv n 64 * 64

/- ## Reading -/

/-- Elements of a packed row: element `i` lies at bits `w × i` of the bytes read little-endian (R111). Elements go by
groups of four, which are whole bytes. -/
def unpackBits (w : Nat) : Nat → List Byte → List Nat
  | 0, _ => []
  | n + 1, bs =>
    let g := leNat (bs.take (w / 2))
    [field g 0 w, field g w w, field g (2 * w) w, field g (3 * w) w] ++ unpackBits w n (bs.drop (w / 2))

/-- The first `n` element codes of a row. -/
def unpackRow (w n : Nat) (bs : List Byte) : List Nat := (unpackBits w (n / 4 + 1) bs).take n

/-- Value of an element code, without its block's scale. An MXINT8 element is a two's-complement integer times 2^-6. -/
def elemValue (code c : Nat) : FVal :=
  match elemFmt code with
  | some f => f.decode c
  | none => if c < 128 then .num false c (-6) else .num true (256 - c) (-6)

/-- A value under a block's E8M0 scale. -/
def scaled (scale : Nat) (v : FVal) : FVal :=
  match scaleExp scale with
  | some e => v.scale e
  | none => .nan

/-- Values of a 2-bit unit's codes (R117). -/
def level2 (c : Nat) : FVal :=
  match c with
  | 0 => .num true 3 (-1)
  | 1 => .num true 1 (-1)
  | 2 => .num false 1 (-1)
  | _ => .num false 3 (-1)

/-- The values of a row of 2-bit units. -/
def units2 : Nat → List Byte → List FVal
  | 0, _ => []
  | n + 1, bs =>
    ((unpackRow 2 256 (bs.take 64)).zipIdx.map fun (c, i) =>
      (level2 c).mulExact (bf16.decode (leAt2 bs (64 + 2 * (i / 64))))) ++ units2 n (bs.drop 72)
where
  /-- Two bytes at an offset. -/
  leAt2 (bs : List Byte) (o : Nat) : Nat := leNat ((bs.drop o).take 2)

/-- The `n` values of a row in every format but the packed line, from its bytes and scale bytes. -/
def rowValues (code n : Nat) (bs scales : List Byte) : List FVal :=
  if code = 0xC then (units2 (ceilDiv n 256) bs).take n
  else if isMx code then
    (unpackRow (elemBits code) n bs).zipIdx.map fun (c, i) =>
      scaled (match scales[i / 32]? with | some b => b.toNat | none => 0) (elemValue code c)
  else (unpackRow (elemBits code) n bs).map (elemValue code)

/- ## Writing -/

/-- Element codes as bytes, by groups of four. -/
def packBits (w : Nat) : List Nat → List Byte
  | a :: b :: c :: d :: t => leBytes (w / 2) (a + 2 ^ w * b + 2 ^ (2 * w) * c + 2 ^ (3 * w) * d) ++ packBits w t
  | [] => []
  | l => leBytes (ceilDiv (w * l.length) 8) (l.foldr (fun x acc => x + 2 ^ w * acc) 0)

/-- MXINT8 code of a value (Table 4.2): rounded to a multiple of 2^-6, saturating at ±127, never 0x80. -/
def int8Code (mode : Rounding) (v : FVal) : Nat :=
  match v with
  | .num neg m e =>
    let q := min (roundUnits mode m e (-6)) 127
    if neg && q != 0 then 256 - q else q
  | _ => 0

/-- Element code of a value already divided by its block's scale (R109). -/
def elemCode (code : Nat) (mode : Rounding) (v : FVal) : Nat :=
  match elemFmt code with
  | some f => f.encode mode v
  | none => int8Code mode v

/-- One MX block: scale byte and element codes (R109, R112). `mode` gives the rounding of each element. -/
def mxBlock (code : Nat) (vals : List (Rounding × FVal)) : Nat × List Nat :=
  let marks := decide (7 ≤ code) && vals.any fun (_, v) => !v.isFinite
  if marks then (0xFF, vals.map fun _ => 0)
  else
    let sc := scaleCode (amaxLog (vals.map fun (_, v) => v)) (elemExp code)
    (sc, vals.map fun (m, v) => elemCode code m (v.scale (127 - (sc : Int))))

/-- A list in pieces of `n`. -/
def pieces {α : Type} (n : Nat) : Nat → List α → List (List α)
  | 0, _ => []
  | k + 1, l => if l.isEmpty then [] else l.take n :: pieces n k (l.drop n)

/-- Elements padded with zeros to a multiple of `n`. -/
def padTo (n : Nat) (vals : List (Rounding × FVal)) : List (Rounding × FVal) :=
  vals ++ List.replicate (ceilDiv vals.length n * n - vals.length) (.rne, FVal.zero)

/-- A row's bytes and scale bytes in every format but the packed line and the 2-bit unit, which is never written
(R118). -/
def rowEncode (code : Nat) (vals : List (Rounding × FVal)) : List Byte × List Byte :=
  if isMx code then
    let bl := (pieces 32 (ceilDiv vals.length 32) (padTo 32 vals)).map (mxBlock code)
    (bl.flatMap fun (_, cs) => packBits (elemBits code) cs, bl.map fun (sc, _) => BitVec.ofNat 8 sc)
  else
    (vals.flatMap fun (m, v) => leBytes (elemBits code / 8) (elemCode code m v), [])

end Sys2Proof.Machine
end

