-- ==== Sys2Proof/Machine/Operands.lean ====
section
/-! DEFINITION. Operand forms that several classes share: location words, operand references, shape vectors, rows in
every format, packed lines with overflow and widening, clip values and rounding (R107 to R131, R141 to R143, R156). -/
namespace Sys2Proof.Machine

/- ## Location words (R141) -/

/-- Start and size of the place that a location word names, on a tile. -/
def locPlace (tile w : Nat) : Option (Nat × Nat) :=
  let loc := w % 4
  let t := field w 2 5
  if loc = 0 ∧ t = 0 then some (sramTile tile, 0x400000)
  else if loc = 1 ∧ t = 0 then some (sramWing (tile / 18), 0x1800000)
  else if loc = 2 ∧ t < 18 then some (sramTile (tile / 18 * 18 + t), 0x400000)
  else none

/-- Byte offset of a location word within its place. -/
def locOff (w : Nat) : Nat := w / 128 * 64

/-- The location word keeps the form of Table 5.2. -/
def locOk (w : Nat) : Bool :=
  match locPlace 0 w with
  | some (_, size) => decide (locOff w < size)
  | none => false

/-- SRAM key of `len` bytes at `at_` bytes beyond a location word, in bounds of its place. -/
def locKey (tile w at_ len : Nat) : Option Nat :=
  match locPlace tile w with
  | some (base, size) =>
    if locOff w < size ∧ locOff w + at_ + len ≤ size then some (base + locOff w + at_) else none
  | none => none

/-- Bytes at a location word; out of bounds ends the item BAD_DESCRIPTOR. -/
def locLoad (tile w at_ len : Nat) : ItemM (List Byte) := do
  match locKey tile w at_ len with
  | some k => sramLoad k len
  | none => stopWith stBad

/-- Bytes stored at a location word. -/
def locStore (tile w at_ : Nat) (bs : List Byte) : ItemM Unit := do
  match locKey tile w at_ bs.length with
  | some k => sramStore k bs
  | none => stopWith stBad

/- ## Operand references (R142) -/

/-- An operand reference (Table 5.3). -/
structure OpRef where
  base : Nat
  itemRows : Nat
  pitch : Nat
  fmtByte : Nat
  spitch : Nat
  rsvd : Nat
  scales : Nat
  deriving DecidableEq, Repr

/-- The reference in 16 bytes. -/
def opRef (b : List Byte) : OpRef :=
  { base := leAt b 0 4, itemRows := leAt b 4 2, pitch := leAt b 6 2, fmtByte := leAt b 8 1, spitch := leAt b 9 1,
    rsvd := leAt b 10 2, scales := leAt b 12 4 }

/-- Format code, and the mark of sensitive data (R119). -/
def OpRef.fmt (o : OpRef) : Nat := o.fmtByte % 16
def OpRef.sens (o : OpRef) : Bool := bit o.fmtByte 4

/-- A format byte holds no reserved value. -/
def fmtByteOk (b : Nat) : Bool := decide (b / 32 = 0) && fmtKnown (b % 16)

/-- A reference keeps Tables 4.6, 5.2 and 5.3 (R147). -/
def OpRef.formOk (o : OpRef) : Bool :=
  fmtByteOk o.fmtByte && decide (o.rsvd = 0) && decide (1 ≤ o.pitch) && locOk o.base &&
    (if isMx o.fmt then decide (1 ≤ o.spitch) && locOk o.scales else decide (o.spitch = 0) && decide (o.scales = 0))

/-- It does, and rows of `n` elements fit its pitches (R143, R147). -/
def OpRef.ok (o : OpRef) (n : Nat) : Bool :=
  o.formOk && decide (up64 (rowBytes o.fmt n) ≤ 64 * o.pitch) &&
    (!isMx o.fmt || decide (up64 (scaleBytes o.fmt n) ≤ 64 * o.spitch))

/-- Row number of row `r` of item `i` (R142). -/
def OpRef.row (o : OpRef) (i r : Nat) : Nat := i * o.itemRows + r

/-- Byte range of `rows` planned rows of item `i` in their place: key of the first byte and one beyond the last, if it
stays in the place (R148). -/
def OpRef.extent (o : OpRef) (tile i rows n : Nat) : Option (Nat × Nat) :=
  let first := o.row i 0 * 64 * o.pitch
  match locKey tile o.base first ((rows - 1) * 64 * o.pitch + rowBytes o.fmt n) with
  | some k => some (k, k + (rows - 1) * 64 * o.pitch + rowBytes o.fmt n)
  | none => none

/-- The same of the scale rows. -/
def OpRef.scaleExtent (o : OpRef) (tile i rows n : Nat) : Option (Nat × Nat) :=
  let first := o.row i 0 * 64 * o.spitch
  match locKey tile o.scales first ((rows - 1) * 64 * o.spitch + scaleBytes o.fmt n) with
  | some k => some (k, k + (rows - 1) * 64 * o.spitch + scaleBytes o.fmt n)
  | none => none

/-- Every range that an operand's planned rows cover, none if one leaves its place. -/
def OpRef.ranges (o : OpRef) (tile i rows n : Nat) : Option (List (Nat × Nat)) :=
  if rows = 0 then some []
  else
    match o.extent tile i rows n with
    | none => none
    | some e =>
      if isMx o.fmt then
        match o.scaleExtent tile i rows n with
        | some x => some [e, x]
        | none => none
      else some [e]

/-- Two lists of ranges meet. -/
def rangesMeet (a b : List (Nat × Nat)) : Bool := a.any fun (x, y) => b.any fun (u, v) => decide (x < v) && decide (u < y)

/-- Planned rows stay in their place, else BAD_DESCRIPTOR (R148). -/
def planned (o : OpRef) (tile i rows n : Nat) : ItemM (List (Nat × Nat)) :=
  match o.ranges tile i rows n with
  | some l => pure l
  | none => stopWith stBad

/- ## Shapes (R156) -/

/-- Entry of the shape vector of the present item: read once, at the item's start. -/
def shapeEntry (tile w : Nat) : ItemM Nat := do
  return (← once nkShape do return [leNat (← locLoad tile w (4 * (← read).item) 4)]).headD 0

/-- The run-time dimension (Table 5.9): the planned value, or the item's shape entry; 0 ends the item EMPTY and a value
above the plan SHAPE_OVER_PLAN. -/
def runTime (en : Bool) (tile shape plan : Nat) : ItemM Nat := do
  if en then
    let v ← shapeEntry tile shape
    require (decide (v ≠ 0)) stEmpty
    require (decide (v ≤ plan)) stOverPlan
    return v
  else return plan

/- ## Rounding (R123, R124) -/

/-- The rounding of the context at a linear index, with an operator tag. -/
def State.rounding (s : State) (ctx tag idx : Nat) : Rounding :=
  if s.flag (ctxArithRoundSr ctx) then
    .sr (srDraw (s.reg (rCtxSrSeedLo ctx) + 2 ^ 32 * s.reg (rCtxSrSeedHi ctx)) tag idx)
  else .rne

/-- An FP32 clip value: positive and finite (R125). -/
def clipOk (c : Nat) : Bool := (ofF32 c).isFinite && !(ofF32 c).isZero && !(ofF32 c).isNeg

/- ## Sensitive data and 2-bit weights (R118, R120) -/

/-- REASON of a refusal, in DETAIL byte 6 (Table 4.9). -/
def reason (r : Nat) : Nat := r * 2 ^ 48

/-- Sensitive data would be quantized (R120): a sensitive destination, or a sensitive source that feeds a destination,
in a format narrower than FP8. -/
def sensRefused (srcs dsts : List OpRef) : Bool :=
  (dsts.any fun d => d.sens && isNarrow d.fmt) || ((srcs.any OpRef.sens) && dsts.any fun d => isNarrow d.fmt)

/-- The two refusals of R118 and R120 where code 0xC has no place at all. -/
def refuseFormats (srcs dsts : List OpRef) : ItemM Unit := do
  require (!((srcs ++ dsts).any fun o => o.fmt == 0xC)) stBad (reason 2)
  require (!sensRefused srcs dsts) stBad (reason 1)

/- ## Precision events (R129, R130) -/

/-- Lines and outliers counted for the present item. -/
def countPrec (p : Prec) : ItemM Unit :=
  modifyItem fun x => { x with prec := ⟨x.prec.widened + p.widened, x.prec.denied + p.denied, x.prec.overflowed + p.overflowed⟩ }

/-- The end of an item that reports `v` rows, or by Table 4.9 where its destination is a packed line or an MX format:
OK_DEGRADED if it denied a line (R129, R130, R155). -/
def doneRows (prec : Bool) (v cycles : Nat) : ItemM Done := do
  let p := ((← theItem).map Item.prec).getD Prec.zero
  return done (if p.denied = 0 then stOk else stDegraded) (if prec then p.detail else v) cycles

/- ## Reading packed lines (R113 to R116, R127) -/

/-- An overflow region's capacity as it counts: 0 where it is out of range (R127). -/
def regionCap (h : List Byte) : Nat := let c := leAt h 0 4; if c ≤ 65536 then c else 0

/-- Entries of a line or group: position and E4M3 code. -/
def lineEntries (bs : List Byte) (n : Nat) : List (Nat × Nat) :=
  (List.range n).map fun i => (leAt bs (2 * i) 1, leAt bs (2 * i + 1) 1)

/-- Entries of the overflow group that a line names (R116, R127). -/
def groupEntries (ovf g line : Nat) : ItemM (List (Nat × Nat)) := do
  require (decide (ovf ≠ 0)) stUncorrectable
  let h ← load ovf 8
  require (decide (g < regionCap h)) stUncorrectable
  let b ← load (ovf + 64 + 32 * g) 32
  require (decide (leAt b 0 4 = line) && decide (2 ≤ leAt b 4 1) && decide (leAt b 4 1 ≤ 13)) stUncorrectable
  return lineEntries (b.drop 6) (leAt b 4 1)

/-- The 224 values of a packed line (R113 to R116). `line` is its index in its tensor, `ovf` the region that the payload
names for the operand. -/
def readLineValues (bs : List Byte) (line ovf : Nat) : ItemM (List FVal) := do
  let h := leAt bs 0 1
  let form := h % 4
  let count := field h 2 3
  require (decide (h / 64 = 0) && decide (form ≠ 3)) stUncorrectable
  if form = 2 then
    require (decide (count = 0)) stUncorrectable
    let slot ← load (leAt bs 1 7 * 256) 256
    return rowValues 5 224 (slot.take 224) ((slot.drop 224).take 7)
  require (if form = 0 then decide (count ≤ 4) else decide (count = 3)) stUncorrectable
  let own := lineEntries (bs.drop 120) count
  let more ← if form = 1 then groupEntries ovf (leAt bs 126 2) line else pure []
  let ents := own ++ more
  require ((ents.all fun (q, _) => decide (q < 224)) && allDistinct (ents.map fun (q, _) => q)) stUncorrectable
  let scales := (bs.drop 1).take 7
  return (rowValues 9 224 ((bs.drop 8).take 112) scales).zipIdx.map fun (v, i) =>
    match ents.find? fun (q, _) => q == i with
    | some (_, c) => (scaled (leAt scales (i / 32) 1) (e4m3.decode c)).scale 6
    | none => v

/-- The values of a row of packed lines. -/
def readLines (line0 ovf : Nat) : Nat → List Byte → ItemM (List FVal)
  | 0, _ => pure []
  | n + 1, bs => do
    let v ← readLineValues (bs.take 128) line0 ovf
    return v ++ (← readLines (line0 + 1) ovf n (bs.drop 128))

/-- Elements of the units that a format's rows are made of: packed lines, 2-bit units, MX blocks, elements. -/
def unitLen (code : Nat) : Nat := if code = 0xB then 224 else if code = 0xC then 256 else if isMx code then 32 else 1

/-- Elements `c .. c + n - 1` of row `r` of item `i` of an operand whose rows have `w` elements (R142, R143). -/
def readPart (o : OpRef) (tile i r w c n ovf : Nat) : ItemM (List FVal) := do
  let u := unitLen o.fmt
  let u0 := c / u
  let k := ceilDiv (c + n) u - u0
  let bs ← locLoad tile o.base (o.row i r * 64 * o.pitch + rowBytes o.fmt (u0 * u)) (rowBytes o.fmt (k * u))
  let vals ← if o.fmt = 0xB then readLines (o.row i r * ceilDiv w 224 + u0) ovf k bs
    else do
      let sc ← if isMx o.fmt then locLoad tile o.scales (o.row i r * 64 * o.spitch + u0) k else pure []
      return rowValues o.fmt (k * u) bs sc
  return (vals.drop (c - u0 * u)).take n

/-- Row `r` of item `i` of an operand: its `n` values. -/
def readRow (o : OpRef) (tile i r n ovf : Nat) : ItemM (List FVal) := readPart o tile i r n 0 n ovf

/-- Rows `0 .. m - 1` of item `i`. -/
def readRows (o : OpRef) (tile i n ovf m : Nat) : ItemM (List (List FVal)) :=
  (List.range m).mapM fun r => readRow o tile i r n ovf

/- ## Writing packed lines (R125 to R128) -/

/-- An outlier: position, value, whether it can be encoded, and its entry code. -/
structure Outlier where
  pos : Nat
  val : FVal
  encodable : Bool
  code : Nat
  deriving DecidableEq, Repr

/-- Outliers rank by magnitude, infinite and NaN above all, lower positions first among equals (R126). -/
def Outlier.before (a b : Outlier) : Bool :=
  match a.val.isFinite, b.val.isFinite with
  | false, true => true
  | true, false => false
  | false, false => decide (a.pos < b.pos)
  | true, true =>
    let c := a.val.abs.cmp b.val.abs
    c == 1 || (c == 0 && decide (a.pos < b.pos))

/-- Insertion in a list sorted by `before`. -/
def insertBy {α : Type} (before : α → α → Bool) (x : α) : List α → List α
  | [] => [x]
  | y :: t => if before x y then x :: y :: t else y :: insertBy before x t

/-- A list sorted by `before`. -/
def sortBy {α : Type} (before : α → α → Bool) : List α → List α
  | [] => []
  | x :: t => insertBy before x (sortBy before t)

/-- Entry bytes of outliers, by ascending position, padded with unused entries to `n` (R115). -/
def entryBytes (n : Nat) (l : List Outlier) : List Byte :=
  ((sortBy (fun a b => decide (a.pos < b.pos)) l).flatMap fun o => leBytes 1 o.pos ++ leBytes 1 o.code) ++
    (List.replicate (n - l.length) [0xFF, 0x00]).flatten

/-- What a line holds before its outliers are placed: values with their rounding, clip, and the scales of its blocks,
which leave the outliers out (R125). -/
def lineScales (c : FVal) (vals : List (Rounding × FVal)) : List Nat :=
  (pieces 32 7 vals).map fun b =>
    scaleCode (amaxLog ((b.map fun (_, v) => v).filter fun v => v.isFinite && v.abs.cmp c != 1)) 2

/-- The outliers of a line (R125). -/
def lineOutliers (c : FVal) (vals : List (Rounding × FVal)) (scales : List Nat) : List Outlier :=
  (vals.zipIdx.filter fun ((_, v), _) => !v.isFinite || v.abs.cmp c == 1).map fun ((m, v), q) =>
    let x := v.scale (127 - (scales.getD (q / 32) 0 : Int) - 6)
    { pos := q, val := v, encodable := !v.isFinite || x.abs.cmp (FVal.ofNat 448) != 1, code := e4m3.encode m x }

/-- Element code of a line element: zero where its outlier stands in an entry, ±6 where it saturates, otherwise its
value over the block's scale. -/
def lineCode (scales : List Nat) (inEntry saturated : List Nat) (q : Nat) (m : Rounding) (v : FVal) : Nat :=
  if inEntry.contains q then 0
  else if saturated.contains q then (if v.isNeg then 0xF else 0x7)
  else elemCode 9 m (v.scale (127 - (scales.getD (q / 32) 0 : Int)))

/-- The 128 bytes of a narrow line (Table 4.3). Blocks marked NaN store zero codes (R109). -/
def narrowLine (header : Nat) (scales marked : List Nat) (inEntry saturated : List Nat) (vals : List (Rounding × FVal))
    (tail : List Byte) : List Byte :=
  let codes := vals.zipIdx.map fun ((m, v), q) =>
    if marked.contains (q / 32) then 0 else lineCode scales inEntry saturated q m v
  leBytes 1 header ++
    (scales.zipIdx.flatMap fun (x, b) => leBytes 1 (if marked.contains b then 0xFF else x)) ++ packBits 4 codes ++ tail

/-- Key of the context's widening reserve, if it has one in its place (R128). -/
def State.reserveBase (s : State) (c : Nat) : Option Nat :=
  let b := s.fld (ctxWidenBaseBase c)
  if b ≠ 0 ∧ b % 256 = 0 ∧ s.ownMem b 256 then some b else none

/-- The first widening attempted with a base that breaks its placement rule raises one device event (R128). -/
def State.reserveEvent (s : State) (c : Nat) : State :=
  if s.fld (ctxWidenBaseBase c) ≠ 0 ∧ s.reserveBase c = none ∧ !s.mem.widenRaised.contains c then
    ({ s with mem := { s.mem with widenRaised := s.mem.widenRaised ++ [c] } } : State).event
  else s

/-- Global address of a slot taken from the context's widening reserve (R128). -/
def takeSlot : ItemM (Option Nat) := do
  let e ← read
  modify fun s => s.reserveEvent e.ctx
  match (← get).reserveBase e.ctx with
  | none => return none
  | some b =>
    let h ← load b 8
    if leAt h 4 4 < leAt h 0 4 then
      store (b + 4) (leBytes 4 (leAt h 4 4 + 1))
      return some (b + 256 * (leAt h 4 4 + 1))
    else return none

/-- A denied line counted in DENIED_TOTAL, saturating (R130). -/
def countDenied : ItemM Unit := do
  match (← get).reserveBase (← read).ctx with
  | none => return
  | some b =>
    let n := leNat (← load (b + 8) 8)
    store (b + 8) (leBytes 8 (satAdd 64 n 1))

/-- USED of another member's overflow region raised by one, if it has a group free: read and compare-swapped until no other
taker comes between (R127). -/
def raiseUsed (ovf : Nat) : Nat → ItemM (Option Nat)
  | 0 => return none
  | n + 1 => do
    let h ← freshNat ovf 8
    let used := h / 2 ^ 32
    if used < regionCap (leBytes 8 h) then
      if (← remoteAtomic (ovf + 4) 2 (used + 1) used) = used then return some used else raiseUsed ovf n
    else return none

/-- A group taken from an overflow region, if it has one free (R127). -/
def takeGroup (ovf : Nat) : ItemM (Option Nat) := do
  if ovf = 0 then return none
  if (← get).isOwn (addrMember ovf) then
    let h ← load ovf 8
    if leAt h 4 4 < regionCap h then
      store (ovf + 4) (leBytes 4 (leAt h 4 4 + 1))
      return some (leAt h 4 4)
    else return none
  else
    checkWrite ovf 8
    raiseUsed ovf 65537

/-- Step 4 of R126: the line is written narrow and saturated. -/
def denyLine (vals : List (Rounding × FVal)) (scales : List Nat) (outs : List Outlier) : ItemM (List Byte) := do
  countDenied
  countPrec ⟨0, 1, 0⟩
  let ranked := sortBy Outlier.before (outs.filter Outlier.encodable)
  let kept := ranked.take 4
  let keptPos := kept.map Outlier.pos
  let rest := outs.filter fun o => !keptPos.contains o.pos
  let nan := rest.filter fun o => o.val.isNan
  return narrowLine (4 * kept.length + 32) scales (nan.map fun o => o.pos / 32) keptPos
    (rest.map Outlier.pos) vals (entryBytes 4 kept)

/-- Step 3 of R126, or step 4: the whole line goes to a widened slot as MXFP8, or is denied. -/
def widenLine (vals : List (Rounding × FVal)) (scales : List Nat) (outs : List Outlier) : ItemM (List Byte) := do
  match ← takeSlot with
  | none => denyLine vals scales outs
  | some a =>
    let (el, sc) := rowEncode 5 vals
    store a (el ++ sc ++ List.replicate 25 0)
    countPrec ⟨1, 0, 0⟩
    return leBytes 1 2 ++ leBytes 7 (a / 256) ++ List.replicate 120 0

/-- One packed line of 224 values (R125, R126): the first step that holds its outliers places them. -/
def writeLine (c : FVal) (ovf line : Nat) (vals : List (Rounding × FVal)) : ItemM (List Byte) := do
  let scales := lineScales c vals
  let outs := lineOutliers c vals scales
  let pos := outs.map Outlier.pos
  let all := outs.all Outlier.encodable
  if all && decide (outs.length ≤ 4) then
    return narrowLine (4 * outs.length) scales [] pos [] vals (entryBytes 4 outs)
  if all && decide (outs.length ≤ 16) then
    match ← takeGroup ovf with
    | some g =>
      let ranked := sortBy Outlier.before outs
      store (ovf + 64 + 32 * g) (leBytes 4 line ++ leBytes 1 (outs.length - 3) ++ leBytes 1 0 ++ entryBytes 13 (ranked.drop 3))
      countPrec ⟨0, 0, outs.length - 3⟩
      return narrowLine 0x0D scales [] pos [] vals (entryBytes 3 (ranked.take 3) ++ leBytes 2 g)
    | none => widenLine vals scales outs
  else widenLine vals scales outs

/-- A row as packed lines, from line index `line`. -/
def writeLines (c : FVal) (ovf : Nat) : Nat → Nat → List (Rounding × FVal) → ItemM (List Byte)
  | 0, _, _ => pure []
  | n + 1, line, vals => do
    let b ← writeLine c ovf line (padTo 224 (vals.take 224))
    return b ++ (← writeLines c ovf n (line + 1) (vals.drop 224))

/-- Elements from column `c`, a multiple of 32, of row `r` of item `i` of a destination in any format but the packed line
(R153): each value with its rounding. -/
def writePart (o : OpRef) (tile i r c : Nat) (vals : List (Rounding × FVal)) : ItemM Unit := do
  let (bs, sc) := rowEncode o.fmt vals
  locStore tile o.base (o.row i r * 64 * o.pitch + rowBytes o.fmt c) bs
  if isMx o.fmt then locStore tile o.scales (o.row i r * 64 * o.spitch + c / 32) sc

/-- A whole row written. -/
def writeRow (o : OpRef) (tile i r ovf clip : Nat) (vals : List (Rounding × FVal)) : ItemM Unit := do
  let n := vals.length
  if o.fmt = 0xB then
    let bs ← writeLines (ofF32 clip) ovf (ceilDiv n 224) (o.row i r * ceilDiv n 224) vals
    locStore tile o.base (o.row i r * 64 * o.pitch) bs
  else writePart o tile i r 0 vals

/-- Values paired with the context's rounding at consecutive linear indices from `idx` (R124). -/
def withRounding (tag idx : Nat) (vals : List FVal) : ItemM (List (Rounding × FVal)) := do
  let s ← get
  let e ← read
  return vals.zipIdx.map fun (v, c) => (s.rounding e.ctx tag (idx + c), v)

/-- The tile that the present item runs on (R139). -/
def itemTile (d : List Byte) (i : Nat) : Nat := leAt d 32 1 + i % (leAt d 33 1 + 1)

/-- TILE_FIRST and TILE_SPAN name tiles of one partition (R147). -/
def tileRangeOk (d : List Byte) : Bool :=
  let f := leAt d 32 1
  let n := leAt d 33 1
  decide (n < 18) && decide (f + n < 144) && decide (f / 18 = (f + n) / 18)

/-- An overflow region field: 64-byte aligned, and 0 unless its operand is a packed line (Table 5.5). -/
def ovfOk (fmt ovf : Nat) : Bool := decide (ovf % 64 = 0) && (fmt == 0xB || ovf == 0)

/-- A clip field: positive and finite for a packed line, 0 otherwise. -/
def clipFieldOk (fmt clip : Nat) : Bool := if fmt = 0xB then clipOk clip else clip == 0

end Sys2Proof.Machine
end

