-- ==== Sys2Proof/Machine/Kv.lean ====
section
/-! DEFINITION. Page tables, frames and sequence records as items of class 0x02 use them (R171 to R188): KV_APPEND,
SEQ_JOIN, SEQ_LEAVE, SEQ_RESERVE and PAGE_SHARE. -/
namespace Sys2Proof.Machine

/- ## Page tables (R172 to R175) -/

/-- Bytes of a row of a page and of its scales (R171). -/
def kvRow (fmt dim : Nat) : Nat := elemBits fmt / 8 * dim
def kvScale (fmt dim : Nat) : Nat := if fmt = 5 then dim / 32 else 0

/-- log2 of the tokens of a page (R172). -/
def kvLogTokens (fmt dim : Nat) : Nat := Nat.log2 (65536 / (kvRow fmt dim + kvScale fmt dim))

/-- A head dimension of Table 6.1. -/
def kvDimOk (d : Nat) : Bool := d == 64 || d == 96 || d == 128 || d == 192 || d == 256

/-- A page table header (Table 6.2) with the table's address. -/
structure PageTable where
  addr : Nat
  length : Nat
  logT : Nat
  fmtByte : Nat
  dim : Nat
  heads : Nat
  pages : Nat
  seqRec : Nat
  deriving DecidableEq, Repr

def PageTable.fmt (p : PageTable) : Nat := p.fmtByte % 16
def PageTable.tokens (p : PageTable) : Nat := 2 ^ p.logT
def PageTable.row (p : PageTable) : Nat := kvRow p.fmt p.dim
def PageTable.scale (p : PageTable) : Nat := kvScale p.fmt p.dim

/-- A page table from its address and header; a header that breaks R172 or R173 ends the item BAD_DESCRIPTOR (log entry
31). -/
def tableOf (a : Nat) (b : List Byte) : ItemM PageTable := do
  let p : PageTable :=
    { addr := a, length := leAt b 0 4, logT := leAt b 4 1, fmtByte := leAt b 5 1, dim := leAt b 6 2, heads := leAt b 8 1,
      pages := leAt b 12 4, seqRec := leAt b 16 8 }
  require (decide (p.fmtByte / 32 = 0) && decide (1 ≤ p.fmt) && decide (p.fmt ≤ 5) && kvDimOk p.dim &&
    p.logT == kvLogTokens p.fmt p.dim && decide (1 ≤ p.heads) && decide (p.heads ≤ 48) && zeroAt b 9 3 &&
    decide (1 ≤ p.pages) && decide (p.pages * p.tokens ≤ 16777216) && decide (p.length ≤ p.pages * p.tokens) &&
    zeroAt b 24 40) stBad
  return p

/-- An address where page tables and sequence records may lie (R173, R187). -/
def kvPlace (a : Nat) : ItemM Unit := require (decide (a % 64 = 0) && decide (addrTier a < 2)) stBad

/-- The table at an address, for a reader: its LENGTH is read once, as the item starts (R193). -/
def loadTable (a : Nat) : ItemM PageTable := do
  kvPlace a
  let p ← tableOf a (← load a 64)
  let l ← once nkLength do return [p.length]
  return { p with length := l.headD 0 }

/-- The table that a step of the item reads: what it says then holds for the item (R183). -/
def stepTable (a : Nat) : ItemM PageTable := do
  kvPlace a
  tableOf a (← inStepBytes (load a 64))

/-- Address of an entry (R174). -/
def PageTable.entry (p : PageTable) (kind head page : Nat) : Nat :=
  p.addr + 64 + 8 * ((kind * p.heads + head) * p.pages + page)

def enValid (e : Nat) : Bool := bit e 14
def enCow (e : Nat) : Bool := bit e 15

/-- A reserved tier or reserved bits of an entry (Table 6.3). -/
def enBad (e : Nat) : Bool := decide (2 ≤ field e 12 2) || decide (e / 2 ^ 43 ≠ 0)

/-- Global address of an entry's frame (R174). -/
def enFrame (e : Nat) : Nat := mkAddr (e % 4096) (field e 12 2 * 2 ^ 43 + field e 16 27 * 65536)

/-- A valid entry, COW 0, of a frame. -/
def enOf (frame : Nat) : Nat := addrMember frame + 2 ^ 12 * addrTier frame + 2 ^ 14 + addrOff frame / 65536 * 65536

/-- The frame of a page that a reader needs (R175). -/
def pageFrame (p : PageTable) (kind head page : Nat) : ItemM Nat := do
  let e ← loadNat (p.entry kind head page) 8
  require (enValid e && !enBad e) stBad
  return enFrame e

/-- A read of a frame, carrying the run's epoch: refused once the epoch has closed (R181). -/
def frameLoad (a len : Nat) : ItemM (List Byte) := do
  let s ← get
  let e ← read
  checkRead a len
  if s.isOwn (addrMember a) then
    let d := (s.cueNo % 65536 + 65536 - e.epoch % 65536) % 65536
    require (!(decide (1 ≤ d) && decide (d ≤ 32767))) stOverrun
  loadAt a len true

/- ## Sequence records (R187) -/

/-- A record's 64 bytes keep Table 6.10; one that does not ends the item BAD_DESCRIPTOR (log entry 31). -/
def seqOk (b : List Byte) : Bool :=
  decide (leAt b 0 1 ≤ 4) && (leAt b 1 1 == 0 || leAt b 1 1 == stQuota || leAt b 1 1 == stNoPage) &&
    decide (leAt b 8 2 / 2 ^ 14 = 0) && decide (field (leAt b 8 2) 12 2 < 2)

/-- The record at an address, read in a step; the item may also write it. -/
def stepSeq (a : Nat) : ItemM (List Byte) := do
  kvPlace a
  checkWrite a 64
  let b ← inStepBytes (load a 64)
  require (seqOk b) stBad
  return b

def seqState (b : List Byte) : Nat := leAt b 0 1
def seqOwner (b : List Byte) : Nat := leAt b 2 1 % 64
def seqMember (b : List Byte) : Nat := leAt b 8 2 % 4096
def seqTier (b : List Byte) : Nat := field (leAt b 8 2) 12 2

/-- Status of an operation on a sequence that is not active: REASON, or NO_PAGE where it is 0 (R187). -/
def seqReason (b : List Byte) : Nat := if leAt b 1 1 = 0 then stNoPage else leAt b 1 1

/-- RESV of the record at an address changed: by `f` of what it holds, where that is something. Its old value. On another
member by compare-swap, tried again while others come between. -/
def changeResv (a : Nat) (f : Nat → Option Nat) : Nat → ItemM Nat
  | 0 => return 0
  | n + 1 => do
    if (← get).isOwn (addrMember a) then
      inStepNat do
        let r ← loadNat (a + 4) 4
        match f r with
        | some v => store (a + 4) (leBytes 4 v)
        | none => pure ()
        return r
    else
      let r ← freshNat (a + 4) 4
      match f r with
      | none => return r
      | some v => if (← remoteAtomic (a + 4) 2 v r) = r then return r else changeResv a f n

/- ## Pools as items reach them (R178, R179) -/

/-- Tries of a compare-swap before an item gives up. -/
def swapTries : Nat := 65536

/-- A pool: its member and tier, and the global address of its header. -/
structure PoolAt where
  member : Nat
  tier : Nat
  base : Nat
  own : Bool
  deriving DecidableEq, Repr

/-- The pool of a member and tier; another member's is named by its registers, read over the fabric (log entry 32). -/
def poolOf (m t : Nat) : ItemM (Option PoolAt) := do
  let s ← get
  if s.isOwn m then
    return (s.poolKey t).map fun k => { member := m, tier := t, base := mkAddr m k, own := true }
  else
    let b ← inStepNat (loadNat (mkAddr m (3 * 2 ^ 43 + rKvpoolBase t)) 8)
    return if b = 0 then none else some { member := m, tier := t, base := b, own := false }

/-- HELD and LIMIT of a context on the pool's member. -/
def PoolAt.quota (p : PoolAt) (c : Nat) : ItemM (Nat × Nat) := do
  let s ← get
  if p.own then return (s.fld (ctxKvheldHeld c), s.fld (ctxKvpagesLimit c))
  else
    let l ← freshNat (mkAddr p.member (3 * 2 ^ 43 + rCtxKvpages c)) 4
    let h ← freshNat (mkAddr p.member (3 * 2 ^ 43 + rCtxKvheld c)) 4
    return (h % 2 ^ 24, l % 2 ^ 24)

/-- Why `n` frames cannot be committed to a context: NO_PAGE or QUOTA, under the test of R178. -/
def PoolAt.refusal (p : PoolAt) (free reserved c n : Nat) : ItemM (Option Nat) := do
  if free < reserved + n then return some stNoPage
  let (held, limit) ← p.quota c
  return if limit < held + n then some stQuota else none

/-- Frames committed to a context at another member's pool: RESERVED raised at one point (R178), the member raising HELD with
it; or the status of the refusal. -/
def PoolAt.commit (p : PoolAt) (c n : Nat) : Nat → ItemM (Option Nat)
  | 0 => return some stNoPage
  | k + 1 => do
    let h ← freshNat p.base 16
    match ← p.refusal (field h 32 32) (field h 64 32) c n with
    | some st => return some st
    | none =>
      let w := h / 2 ^ 64
      if (← remoteAtomic (p.base + 8) 3 (w + n) w) = w then return none else p.commit c n k

/-- NO_PAGE_COUNT of a pool raised. -/
def PoolAt.countRefusal (p : PoolAt) : Nat → ItemM Unit
  | 0 => return ()
  | k + 1 => do
    if p.own then inStepDo do store (p.base + 40) (leBytes 4 (satAdd 32 (← loadNat (p.base + 40) 4) 1))
    else
      let v ← freshNat (p.base + 40) 4
      if (← remoteAtomic (p.base + 40) 2 (satAdd 32 v 1) v) = v then return () else p.countRefusal k

/-- Frame `k` of a pool as a global address. -/
def PoolAt.frame (p : PoolAt) (first k : Nat) : Nat := mkAddr p.member (p.tier * 2 ^ 43 + (first % 2 ^ 27 + k) * 65536)

/-- A frame taken from this member's pool, at one point: 0 and its address, or the status of the refusal. -/
def PoolAt.takeOwn (p : PoolAt) (c : Nat) (reserved : Bool) : ItemM (List Nat) := do
  let h ← load p.base 64
  let k := leAt h 16 4
  let no ← if reserved then pure none else p.refusal (leAt h 4 4) (leAt h 8 4) c 1
  let no := if no.isNone && (k == noFrame || decide (leAt h 0 4 ≤ k)) then some stNoPage else no
  match no with
  | some st =>
    store (p.base + 40) (leBytes 4 (satAdd 32 (leAt h 40 4) 1))
    return [st, 0]
  | none =>
    let r := p.base + 64 + 8 * k
    let old ← loadNat r 8
    store (p.base + 16) (leBytes 4 (old / 2 ^ 32))
    store (p.base + 4) (leBytes 4 (leAt h 4 4 - 1))
    if reserved then store (p.base + 8) (leBytes 4 (leAt h 8 4 - 1)) else modify fun s => s.heldUp c 1
    store r (leBytes 8 (frWord 1 c 1 + 2 ^ 32 * noFrame))
    return [0, p.frame (leAt h 28 4) k]

/-- The first free frame of another member's pool, unlinked: its number and its record's word. -/
def PoolAt.pop (p : PoolAt) : Nat → ItemM (Option (Nat × Nat))
  | 0 => return none
  | n + 1 => do
    let k ← freshNat (p.base + 16) 4
    let cap ← freshNat p.base 4
    if k = noFrame || decide (cap ≤ k) then return none
    let w ← freshNat (p.base + 64 + 8 * k) 8
    if (← remoteAtomic (p.base + 16) 2 (w / 2 ^ 32) k) = k then return some (k, w) else p.pop n

/-- A frame taken from another member's pool: it is committed, unless it has been reserved, then unlinked, marked in use and
counted off FREE and RESERVED (log entry 32). -/
def PoolAt.takeRemote (p : PoolAt) (c : Nat) (reserved : Bool) : ItemM (List Nat) := do
  let no ← if reserved then pure none else p.commit c 1 swapTries
  match no with
  | some st =>
    p.countRefusal swapTries
    return [st, 0]
  | none =>
    match ← p.pop swapTries with
    | none =>
      if !reserved then
        let _ ← remoteAtomic (p.base + 8) 0 (2 ^ 32 - 1) 0
      p.countRefusal swapTries
      return [stNoPage, 0]
    | some (k, w) =>
      let _ ← remoteAtomic (p.base + 64 + 8 * k) 3 (frWord 1 c 1 + 2 ^ 32 * noFrame) w
      let _ ← remoteAtomic (p.base + 4) 0 (2 ^ 32 - 1) 0
      let _ ← remoteAtomic (p.base + 8) 0 (2 ^ 32 - 1) 0
      return [0, p.frame (← freshNat (p.base + 28) 4) k]

/-- A frame taken for a context, from its reservation or from the free list (R178): 0 and its global address, or the status of
the refusal. -/
def takeFrame (m t c : Nat) (reserved : Bool) : ItemM (List Nat) := do
  match ← poolOf m t with
  | none => return [stNoPage, 0]
  | some p => if p.own then inStep (p.takeOwn c reserved) else p.takeRemote c reserved

/-- Pool and record address of a frame, where a pool holds it. -/
def frameRecord (frame : Nat) : ItemM (Option (PoolAt × Nat)) := do
  match ← poolOf (addrMember frame) (addrTier frame) with
  | none => return none
  | some p =>
    let h ← inStepBytes (load p.base 64)
    let n := addrOff frame / 65536
    let f := leAt h 28 4 % 2 ^ 27
    return if f ≤ n ∧ n < f + leAt h 0 4 then some (p, p.base + 64 + 8 * (n - f)) else none

/-- REFCOUNT of a frame; none where no pool holds it. -/
def frameCount (frame : Nat) : ItemM (Option Nat) := do
  match ← frameRecord frame with
  | none => return none
  | some (p, r) =>
    let w ← if p.own then inStepNat (loadNat r 8) else freshNat r 8
    return some (frRef w)

/-- REFCOUNT of a frame raised or lowered by one atomic add. A count brought to zero returns the frame (R179); a count of
0 is not lowered, nor one of 65,535 raised. -/
def frameAdd (frame : Nat) (up : Bool) : ItemM Unit := do
  match ← frameRecord frame with
  | none => return
  | some (p, r) =>
    let d := if up then 1 else 2 ^ 32 - 1
    let stuck := fun (w : Nat) => if up then frRef w == 65535 else frRef w == 0
    if p.own then
      inStepDo do
        let w ← loadNat r 8
        if !stuck w then
          let e ← read
          modify fun s => (s.atomic e.ctx (addrKey r) 0 d 0).1
    else
      let w ← freshNat r 8
      if !stuck w then
        let _ ← remoteAtomic r 0 d 0

/-- A frame for a page of a table, charged to the sequence whose record is at `a` (R178); a failure ends the item with the
page and the frames taken in its DETAIL (R183). -/
def takeForPage (a : Nat) (b : List Byte) (page took : Nat) : ItemM Nat := do
  let r ← changeResv a (fun r => if r = 0 then none else some (r - 1)) swapTries
  let x ← takeFrame (seqMember b) (seqTier b) (seqOwner b) (decide (r ≠ 0))
  if x.headD 0 ≠ 0 then
    if r ≠ 0 then
      let _ ← changeResv a (fun r => some (r + 1)) swapTries
    stopWith (x.headD 0) (page + 2 ^ 32 * took)
  noteCount (took + 1)
  return x.getD 1 0

/- ## KV_APPEND (R182 to R184) -/

/-- The whole-descriptor checks of `KV_APPEND` (R10, R118, R182). -/
def kvAppendCheck (d : List Byte) : ItemM Unit := do
  let z := payloadOf d
  let mode := leAt z 2 1
  let ks := opRef ((z.drop 24).take 16)
  let vs := opRef ((z.drop 40).take 16)
  require (tileRangeOk d && (mode == 0 || mode == 2) && zeroAt z 3 1 && leAt z 4 2 != 0 && zeroAt z 6 2 &&
    decide (leAt z 16 8 % 64 = 0) && zeroAt z 60 36 &&
    (if mode = 2 then locOk (leAt z 56 4) else leAt z 56 4 == 0)) stBad
  require (fmtByteOk ks.fmtByte && fmtByteOk vs.fmtByte) stBad
  refuseFormats [ks, vs] []
  require (ks.formOk && vs.formOk) stBad

/-- Copy-on-write of an entry (R184): the frame to write in, and frames taken. -/
def copyOnWrite (p : PageTable) (b : List Byte) (ea e page took : Nat) : ItemM (Nat × Nat) := do
  let old := enFrame e
  if (← frameCount old) = some 1 then
    inStepDo (store ea (leBytes 8 (e - 2 ^ 15)))
    return (old, took)
  let new ← takeForPage p.seqRec b page took
  inStepDo do store new (← frameLoad old 65536)
  waitWrites
  inStepDo (store ea (leBytes 8 (enOf new)))
  frameAdd old false
  return (new, took + 1)

/-- The frame to append to for one entry `e` at `ea`, and frames taken so far. -/
def appendFrame (p : PageTable) (b : List Byte) (ea e page took : Nat) : ItemM (Nat × Nat) := do
  if !enValid e then
    let f ← takeForPage p.seqRec b page took
    inStepDo (store ea (leBytes 8 (enOf f)))
    return (f, took + 1)
  if enCow e then copyOnWrite p b ea e page took else return (enFrame e, took)

/-- Rows of a head for tokens `n0 .. n1 - 1` put into their page: element bytes and scales (R171). -/
def appendRows (p : PageTable) (frame head page n0 n1 : Nat) (rows : List (List Byte × List Byte)) : ItemM Unit := do
  let j := n0 - page * p.tokens
  let part := (rows.drop (n0 - p.length)).take (n1 - n0)
  store (frame + j * p.row) (part.flatMap fun (b, _) => (b.drop (head * p.row)).take p.row)
  if p.scale ≠ 0 then
    store (frame + p.tokens * p.row + j * p.scale) (part.flatMap fun (_, c) => (c.drop (head * p.scale)).take p.scale)

/-- Source rows of an item, as bytes and scale bytes. -/
def sourceRows (o : OpRef) (tile i n v : Nat) : ItemM (List (List Byte × List Byte)) :=
  (List.range v).mapM fun r => do
    let b ← locLoad tile o.base (o.row i r * 64 * o.pitch) (rowBytes o.fmt n)
    let c ← if isMx o.fmt then locLoad tile o.scales (o.row i r * 64 * o.spitch) (scaleBytes o.fmt n) else pure []
    return (b, c)

/-- Entries of a table: kind, head and page of those that a range of pages meets, keys before values, heads and pages
ascending. -/
def entryPlaces (p : PageTable) (page0 count : Nat) : List (Nat × Nat × Nat) :=
  (List.range 2).flatMap fun k => (List.range p.heads).flatMap fun h => (List.range count).map fun i => (k, h, page0 + i)

/-- What those entries hold. -/
def stepEntries (p : PageTable) (l : List (Nat × Nat × Nat)) : ItemM (List ((Nat × Nat × Nat) × Nat)) := do
  checkWrite p.addr (64 + 16 * p.heads * p.pages)
  return l.zip (← inStep (l.mapM fun (k, h, i) => loadNat (p.entry k h i) 8))

/-- An entry that may be used: a valid one has no reserved value and a frame that may be written, and one below LENGTH is
valid (R30, R175). -/
def entryOk (p : PageTable) (page e : Nat) : ItemM Unit := do
  if enValid e then
    require (!enBad e) stBad
    checkWrite (enFrame e) 65536
  else require (decide (p.length ≤ page * p.tokens)) stBad

/-- `v` rows put behind LENGTH in every page that they meet (R183): frames taken. -/
def appendPages (p : PageTable) (b : List Byte) (v : Nat) (ents : List ((Nat × Nat × Nat) × Nat))
    (kRows vRows : List (List Byte × List Byte)) : ItemM Nat :=
  ents.foldlM (fun took ((k, h, page), e) => do
    let (frame, took) ← appendFrame p b (p.entry k h page) e page took
    inStepDo (appendRows p frame h page (max p.length (page * p.tokens)) (min (p.length + v) ((page + 1) * p.tokens))
      (if k = 0 then kRows else vRows))
    return took) 0

/-- The work of `KV_APPEND`. Its DETAIL is that of R183 for pages of an MX format too (DESIGN CHOICE, log entry 82). -/
def kvAppendWork : ItemM Done := do
  let e ← read
  let z := payloadOf e.desc
  kvAppendCheck e.desc
  let ks := opRef ((z.drop 24).take 16)
  let vs := opRef ((z.drop 40).take 16)
  let tile := itemTile e.desc e.item
  let v ← runTime (leAt z 2 1 == 2) tile (leAt z 56 4) (leAt z 4 2)
  let p ← stepTable (leAt z 8 8 + e.item * leAt z 16 8)
  require (decide (p.length + v ≤ p.pages * p.tokens)) stOverPlan
  require ([ks, vs].all fun o => o.fmtByte == p.fmtByte && o.ok (p.heads * p.dim)) stBad
  let b ← stepSeq p.seqRec
  require (seqState b == 2) (seqReason b)
  let ents ← stepEntries p (entryPlaces p (p.length / p.tokens) ((p.length + v - 1) / p.tokens + 1 - p.length / p.tokens))
  ents.forM fun ((_, _, page), e) => entryOk p page e
  let kRows ← sourceRows ks tile e.item (p.heads * p.dim) v
  let vRows ← sourceRows vs tile e.item (p.heads * p.dim) v
  let took ← appendPages p b v ents kRows vRows
  waitWrites
  inStepDo (store p.addr (leBytes 4 (p.length + v)))
  return done stOk (2 ^ 32 * took)

/-- KV_APPEND. -/
def execKvAppend (run item : Nat) (s : State) : Host.Outcome State Fault Refusal := .next (s.runItem 2 1 kvAppendWork run item)

/- ## SEQ_JOIN and SEQ_RESERVE (R188) -/

/-- The whole-descriptor checks of both. -/
def seqCheck (d : List Byte) : ItemM Unit := do
  let z := payloadOf d
  let mode := leAt z 2 1
  require (tileRangeOk d && (mode == 0 || mode == 2) && zeroAt z 3 5 && zeroAt z 32 64 &&
    (if mode = 2 then locOk (leAt z 28 4) else leAt z 28 4 == 0)) stBad

/-- The record that an item acts on, its address and the frames it asks for. -/
def seqOperand : ItemM (Nat × List Byte × Nat) := do
  let e ← read
  let z := payloadOf e.desc
  seqCheck e.desc
  let frames ← if leAt z 2 1 = 2 then shapeEntry (itemTile e.desc e.item) (leAt z 28 4) else pure (leAt z 24 4)
  let a := leAt z 8 8 + e.item * leAt z 16 8
  let b ← stepSeq a
  require (seqOwner b == e.ctx) stNotAuth
  return (a, b, frames)

/-- A record swapped into another member's JOIN_HEAD: the member then has accepted the link. -/
def PoolAt.link (p : PoolAt) (a : Nat) : Nat → ItemM Unit
  | 0 => stopWith stNoPage
  | n + 1 => do
    let head ← freshNat (p.base + 32) 8
    if (← remoteAtomic (p.base + 32) 3 a head) = head then return () else p.link a n

/-- The work of `SEQ_JOIN`. A record that is joining or active ends the item BAD_DESCRIPTOR, and a member without the
pool NO_PAGE (log entry 31). -/
def seqJoinWork : ItemM Done := do
  let (a, b, frames) ← seqOperand
  require (seqState b == 0 || seqState b == 3 || seqState b == 4) stBad
  match ← poolOf (seqMember b) (seqTier b) with
  | none => stopWith stNoPage
  | some p =>
    inStepDo (store a (leBytes 2 1 ++ (b.drop 2).take 14 ++ leBytes 8 0 ++ leBytes 4 frames))
    waitWrites
    if p.own then
      let c ← inStepNat do
        modify fun s => s.acceptJoin p.tier a
        return (← get).cueNo
      return done stOk ((c + 1) % 2 ^ 32)
    else
      p.link a swapTries
      return done stOk (((← freshNat (mkAddr p.member (3 * 2 ^ 43 + rCueNumber)) 4) + 1) % 2 ^ 32)

/-- SEQ_JOIN. -/
def execSeqJoin (run item : Nat) (s : State) : Host.Outcome State Fault Refusal := .next (s.runItem 2 2 seqJoinWork run item)

/-- Frames reserved at this member's pool, at one point: 0, or the status of the refusal. -/
def PoolAt.reserveOwn (p : PoolAt) (c n : Nat) : ItemM Nat := do
  let h ← load p.base 64
  match ← p.refusal (leAt h 4 4) (leAt h 8 4) c n with
  | some st => return st
  | none =>
    store (p.base + 8) (leBytes 4 (leAt h 8 4 + n))
    modify fun s => s.heldUp c n
    return 0

/-- The work of `SEQ_RESERVE`. -/
def seqReserveWork : ItemM Done := do
  let (a, b, frames) ← seqOperand
  require (seqState b == 2) (seqReason b)
  match ← poolOf (seqMember b) (seqTier b) with
  | none => stopWith stNoPage
  | some p =>
    let st ← if p.own then inStepNat (p.reserveOwn (seqOwner b) frames)
      else do pure ((← p.commit (seqOwner b) frames swapTries).getD 0)
    require (decide (st = 0)) st
    let _ ← changeResv a (fun r => some (r + frames)) swapTries
    return done

/-- SEQ_RESERVE. -/
def execSeqReserve (run item : Nat) (s : State) : Host.Outcome State Fault Refusal :=
  .next (s.runItem 2 4 seqReserveWork run item)

/- ## SEQ_LEAVE (R186) -/

/-- The whole-descriptor checks of `SEQ_LEAVE`. -/
def seqLeaveCheck (d : List Byte) : ItemM Unit :=
  require (tileRangeOk d && zeroAt (payloadOf d) 2 6 && zeroAt (payloadOf d) 24 72) stBad

/-- The valid entries of a table released, ascending: the count lowered, then the entry cleared. -/
def releaseEntries (p : PageTable) (ents : List ((Nat × Nat × Nat) × Nat)) : ItemM Unit :=
  ents.forM fun ((k, h, page), e) => do
    if enValid e then
      frameAdd (enFrame e) false
      inStepDo (store (p.entry k h page) (leBytes 8 0))

/-- What a sequence's reservation held given back to its pool: RESERVED and HELD lowered. -/
def returnReserve (b : List Byte) (n : Nat) : ItemM Unit := do
  if n ≠ 0 then
    match ← poolOf (seqMember b) (seqTier b) with
    | none => pure ()
    | some q =>
      if q.own then
        inStepDo do
          store (q.base + 8) (leBytes 4 ((← loadNat (q.base + 8) 4) - n))
          modify fun s => s.heldDown (seqOwner b) n
      else
        let _ ← remoteAtomic (q.base + 8) 0 (2 ^ 32 - n) 0

/-- The work of `SEQ_LEAVE`. -/
def seqLeaveWork : ItemM Done := do
  let e ← read
  let z := payloadOf e.desc
  seqLeaveCheck e.desc
  let p ← stepTable (leAt z 8 8 + e.item * leAt z 16 8)
  let b ← stepSeq p.seqRec
  let ents ← stepEntries p (entryPlaces p 0 p.pages)
  ents.forM fun (_, e) => do
    if enValid e then
      require (!enBad e) stBad
      checkWrite (enFrame e) 65536
  releaseEntries p ents
  inStepDo (store p.addr (leBytes 4 0))
  returnReserve b (← changeResv p.seqRec (fun r => if r = 0 then none else some 0) swapTries)
  inStepDo do
    store p.seqRec (leBytes 2 4)
    store (p.seqRec + 12) (leBytes 4 (((← get).cueNo + 1) % 2 ^ 32))
  return done

/-- SEQ_LEAVE. -/
def execSeqLeave (run item : Nat) (s : State) : Host.Outcome State Fault Refusal := .next (s.runItem 2 3 seqLeaveWork run item)

/- ## PAGE_SHARE (R185) -/

/-- The whole-descriptor checks of `PAGE_SHARE`. -/
def pageShareCheck (d : List Byte) : ItemM Unit :=
  require (tileRangeOk d && zeroAt (payloadOf d) 2 2 && zeroAt (payloadOf d) 32 64) stBad

/-- One entry to be shared: where it stands in both tables, and its value. -/
structure ShareEntry where
  src : Nat
  dst : Nat
  val : Nat
  deriving DecidableEq, Repr

/-- The checks on the entries, before anything is touched. -/
def shareEntries (s d : PageTable) (pages : Nat) : ItemM (List ShareEntry) := do
  let xs ← stepEntries s (entryPlaces s 0 pages)
  let ys ← stepEntries d (entryPlaces d 0 pages)
  (xs.zip ys).mapM fun (((k, h, p), v), (_, w)) => do
    require (enValid v && !enBad v && !enValid w) stBad
    checkRead (enFrame v) 65536
    return { src := s.entry k h p, dst := d.entry k h p, val := v }

/-- No count would pass 65,535. -/
def shareCounts (l : List ShareEntry) : ItemM Unit :=
  l.forM fun x => do
    match ← frameCount (enFrame x.val) with
    | none => pure ()
    | some n => require (decide (n + (l.filter fun y => enFrame y.val == enFrame x.val).length ≤ 65535)) stBad

/-- Every entry shared: both entries marked copy-on-write and the frame counted. -/
def shareAll (l : List ShareEntry) : ItemM Unit :=
  l.forM fun x => do
    let v := x.val % 2 ^ 15 + 2 ^ 15 + x.val / 2 ^ 16 * 2 ^ 16
    inStepDo do
      store x.src (leBytes 8 v)
      store x.dst (leBytes 8 v)
    frameAdd (enFrame x.val) true

/-- The work of `PAGE_SHARE`. -/
def pageShareWork : ItemM Done := do
  let e ← read
  let z := payloadOf e.desc
  pageShareCheck e.desc
  let len := leAt z 4 4
  let s ← stepTable (leAt z 8 8 + e.item * leAt z 24 8)
  let d ← stepTable (leAt z 16 8 + e.item * leAt z 24 8)
  require (s.logT == d.logT && s.fmtByte == d.fmtByte && s.dim == d.dim && s.heads == d.heads && decide (len ≤ s.length) &&
    d.length == 0 && decide (ceilDiv len s.tokens ≤ d.pages)) stBad
  let l ← shareEntries s d (ceilDiv len s.tokens)
  shareCounts l
  shareAll l
  inStepDo (store d.addr (leBytes 4 len))
  return done

/-- PAGE_SHARE. -/
def execPageShare (run item : Nat) (s : State) : Host.Outcome State Fault Refusal := .next (s.runItem 2 5 pageShareWork run item)

end Sys2Proof.Machine
end

