-- ==== Sys2Proof/Machine/Flags.lean ====
section
/-! DEFINITION. Array passes and what their checks flag: the pass of R121 and R122 with its skipped rows (R424), and the
outcome of a checksum mismatch (R425, Table 15.1). -/
namespace Sys2Proof.Machine

/- ## One row of a pass -/

/-- Products of a pass: the three BF16 passes of R122 take `hi × hi`, `hi × lo` and `lo × hi`; a product with an infinite
or NaN operand is formed directly, in the first of them. -/
inductive PassKind where
  | plain
  | hiHi
  | hiLo
  | loHi
  deriving DecidableEq, Repr

/-- One product of a pass, none where the pass forms none. -/
def passProduct (k : PassKind) (a b : FVal) : Option FVal :=
  match k with
  | .plain => some (a.mulExact b)
  | .hiHi => if a.isFinite && b.isFinite then some ((splitHi a).mulExact (splitHi b)) else some (a.mulExact b)
  | .hiLo => if a.isFinite && b.isFinite then some ((splitHi a).mulExact (splitLo b)) else none
  | .loHi => if a.isFinite && b.isFinite then some ((splitLo a).mulExact (splitHi b)) else none

/-- The passes that a pair of formats runs (R122): three where either operand is FP32. -/
def passKinds (isF32 : Bool) : List PassKind := if isF32 then [.hiHi, .hiLo, .loHi] else [.plain]

/-- One output element of one pass: `w` is the width of R121. -/
def passElem (w : Nat) (k : PassKind) (p : FVal) (as bs : List FVal) : FVal :=
  accumulate w p ((as.zip bs).filterMap fun (a, b) => passProduct k a b)

/-- One row of one pass over the columns of a block: the new partials. -/
def passRow (w : Nat) (k : PassKind) (as : List FVal) (cols : List (List FVal)) (ps : List FVal) : List FVal :=
  (ps.zip cols).map fun (p, bs) => passElem w k p as bs

/-- A value that keeps a row from being checked (R424). -/
def FVal.odd (v : FVal) : Bool := !v.isFinite

/-- The row of a pass is skipped by the checker: an input, a stationary element, a starting or a new partial is infinite
or NaN (R424). -/
def rowSkipped (as : List FVal) (cols : List (List FVal)) (ps ys : List FVal) : Bool :=
  as.any FVal.odd || cols.any (fun c => c.any FVal.odd) || ps.any FVal.odd || ys.any FVal.odd

/-- All passes of one reduction block on one row, in order, with the rows skipped. -/
def blockRow (w : Nat) (isF32 : Bool) (as : List FVal) (cols : List (List FVal)) (ps : List FVal) : List FVal × Nat :=
  (passKinds isF32).foldl (fun (p, n) k =>
    let y := passRow w k as cols p
    (y, if rowSkipped as cols p y then n + 1 else n)) (ps, 0)

/-- Piece `j` of a reduction, `kp` elements long, filled with zeros beyond its end (R150). -/
def redBlock (kp j : Nat) (l : List FVal) : List FVal :=
  let x := (l.drop (j * kp)).take kp
  x ++ List.replicate (kp - x.length) FVal.zero

/-- One row of outputs over all reduction blocks, ascending (R150). `b` holds each column's whole reduction. -/
def rowPasses (w : Nat) (isF32 : Bool) (kp nblocks : Nat) (as : List FVal) (b : List (List FVal)) (ps : List FVal) :
    List FVal × Nat :=
  (List.range nblocks).foldl (fun (p, n) j =>
    let (y, m) := blockRow w isF32 (redBlock kp j as) (b.map (redBlock kp j)) p
    (y, n + m)) (ps, 0)

/-- Rows skipped by the checker are counted (R424). -/
def State.countSkips (s : State) (n : Nat) : State := if n = 0 then s else s.bump checkSkipsCount n

/- ## Geometry (Table 5.7) -/

/-- Rate class of a format: 0 the FP4 row, 1 the FP8 row, 2 the 16-bit row, 3 FP32. -/
def fmtRate (code : Nat) : Nat :=
  if code = 0 then 3 else if code ≤ 2 then 2 else if code = 9 || code = 0xB || code = 0xC then 0 else 1

/-- Row of Table 5.7 for two operands: the slower one's, and the FP4 row for 2-bit weights. -/
def pairRate (a b : Nat) : Nat := if b = 0xC then 0 else max (fmtRate a) (fmtRate b)

def passDepth (rate : Nat) : Nat := if rate ≤ 1 then 128 else 64
def passWidth (rate : Nat) : Nat := if rate = 0 then 256 else 128
def wsCycles (rate : Nat) : Nat := if rate = 3 then 3 else 1
def osCycles (rate : Nat) : Nat := if rate = 3 then 6 else if rate = 2 then 2 else 1

/-- Width of the accumulator sum (R121): 48 bits when both operands are 8 bits or narrower, else 64. -/
def sumWidth (a b : Nat) : Nat := if 3 ≤ a ∧ 3 ≤ b then 48 else 64

/- ## A checksum mismatch (R425) -/

/-- Hedge of a partition as a unit, and a logical tile as one. -/
def hedgeUnit (p : Nat) : UnitId := ⟨1, 19 * p + 18, 0⟩
def State.tileUnit (s : State) (t : Nat) : UnitId := ⟨1, s.physical t, 0⟩

/-- The repeat tile X of R425. -/
def State.repeatTile (s : State) (t : Nat) : UnitId :=
  let p := t / 18
  let h := s.fld (hedgeFld p)
  if h ≠ 2 ∧ h ≠ 3 ∧ !s.rel.retests.contains (19 * p + 18) then hedgeUnit p
  else s.tileUnit (18 * p + (t % 18 + 1) % 18)

/-- DATA of a checksum event's record: the context, ring, descriptor slot and item (Table 15.3; log entry 27). -/
def checkData (e : ItemEnv) : List Byte := leBytes 1 e.ctx ++ leBytes 1 e.ring ++ leBytes 2 e.slot ++ leBytes 2 e.item

/-- Outcome of a mismatch on a logical tile (Table 15.1). -/
def State.mismatch (s : State) (e : ItemEnv) (tile : Nat) (f : LaneFault) : State :=
  let d := checkData e
  match f.repeatPasses, f.otherPasses with
  | true, true => s.transient (s.tileUnit tile) 1 d
  | true, false => (s.transient (s.tileUnit tile) 1 d).suspect (s.repeatTile tile) 1 d
  | false, true => s.suspect (s.tileUnit tile) 1 d
  | false, false =>
    s.record { type := 0x0C, unit := ⟨0x0C, 0, 0⟩, cause := 0, detector := 1, count := 1, link := 0, data := d }

/-- A mismatch met by an item: it ends CHECK_MISMATCH only where neither repetition resolves it. -/
def laneCheck (tile : Nat) (f : Option LaneFault) : ItemM Unit := do
  match f with
  | none => return
  | some x =>
    let e ← read
    modify fun s => s.mismatch e tile x
    require (x.repeatPasses || x.otherPasses) stMismatch

end Sys2Proof.Machine
end

