-- ==== Sys2Proof/Machine/Matrix.lean ====
section
/-! DEFINITION. The matrix class (R144 to R170): MM_WS, MM_WS_T, MM_OS, SPLIT_SUM and PAIR_REFRESH. -/
namespace Sys2Proof.Machine

/- ## Matrix products -/

/-- The fields of Table 5.5. -/
structure MmPay where
  mode : Nat
  m : Nat
  n : Nat
  k : Nat
  shape : Nat
  a : OpRef
  b : OpRef
  y : OpRef
  ovf : Nat
  clip : Nat
  tag : Nat
  ovfA : Nat
  ovfB : Nat
  deriving DecidableEq, Repr

def mmPay (d : List Byte) : MmPay :=
  let p := payloadOf d
  { mode := leAt p 2 1, m := leAt p 4 2, n := leAt p 6 2, k := leAt p 8 2, shape := leAt p 12 4,
    a := opRef ((p.drop 16).take 16), b := opRef ((p.drop 32).take 16), y := opRef ((p.drop 48).take 16),
    ovf := leAt p 64 8, clip := leAt p 72 4, tag := leAt p 76 4, ovfA := leAt p 80 8, ovfB := leAt p 88 8 }

def MmPay.acc (p : MmPay) : Bool := bit p.mode 2
def MmPay.shapeEn (p : MmPay) : Bool := bit p.mode 3

/-- Rows and row length of the three operands, by opcode (Table 5.4). -/
def MmPay.dims (p : MmPay) (op : Nat) : (Nat × Nat) × (Nat × Nat) × (Nat × Nat) :=
  if op = 0 then ((p.m, p.k), (p.n, p.k), (p.m, p.n))
  else if op = 1 then ((p.m, p.k), (p.k, p.n), (p.m, p.n))
  else ((p.k, p.m), (p.k, p.n), (p.m, p.n))

/-- 2-bit weights stand only as operand B of `MM_WS` and `MM_WS_T`, against FP8 or MXFP8 (R118). -/
def MmPay.twoBitOk (p : MmPay) (op : Nat) : Bool :=
  p.a.fmt != 0xC && p.y.fmt != 0xC &&
    (p.b.fmt != 0xC || (decide (op < 2) && decide (3 ≤ p.a.fmt) && decide (p.a.fmt ≤ 6)))

/-- The descriptor checks of R147. -/
def mmCheck (d : List Byte) (op : Nat) : ItemM Unit := do
  let p := mmPay d
  let (da, db, dy) := p.dims op
  let z := payloadOf d
  require (tileRangeOk d && decide (p.mode / 16 = 0) && decide (p.mode % 4 ≠ 3) && zeroAt z 3 1 && zeroAt z 10 2 &&
    decide (p.m ≠ 0) && decide (p.n ≠ 0) && decide (p.k ≠ 0)) stBad
  require (if p.shapeEn then locOk p.shape else decide (p.shape = 0)) stBad
  require (fmtByteOk p.a.fmtByte && fmtByteOk p.b.fmtByte && fmtByteOk p.y.fmtByte) stBad
  require (p.twoBitOk op) stBad (reason 2)
  require (!sensRefused [p.a, p.b] [p.y]) stBad (reason 1)
  require (p.a.ok da.2 && p.b.ok db.2 && p.y.ok dy.2) stBad
  require (!p.acc || decide (p.y.fmt ≤ 2)) stBad
  require (ovfOk p.y.fmt p.ovf && ovfOk p.a.fmt p.ovfA && ovfOk p.b.fmt p.ovfB && clipFieldOk p.y.fmt p.clip) stBad

/-- The item checks of R148. -/
def mmPlanned (p : MmPay) (op tile i : Nat) : ItemM Unit := do
  let (da, db, dy) := p.dims op
  let ra ← planned p.a tile i da.1 da.2
  let rb ← planned p.b tile i db.1 db.2
  let ry ← planned p.y tile i dy.1 dy.2
  require (!rangesMeet ry ra && !rangesMeet ry rb) stBad

/-- Column `c` of rows. -/
def column (rows : List (List FVal)) (c : Nat) : List FVal := rows.map fun r => r.getD c FVal.zero

/-- Rows turned into columns, `n` of them. -/
def transpose (rows : List (List FVal)) (n : Nat) : List (List FVal) := (List.range n).map (column rows)

/-- A count cut into blocks of `size`: start and length of each. -/
def blocks (size n : Nat) : List (Nat × Nat) := (List.range (ceilDiv n size)).map fun b => (b * size, min size (n - b * size))

/-- Starting partials of `rows` rows from `r0` in columns `c .. c + n - 1`: the existing Y under ACC, else zeros (R150,
R153). -/
def startBlock (p : MmPay) (tile i r0 rows c n : Nat) : ItemM (List (List FVal)) :=
  (List.range rows).mapM fun r =>
    if p.acc then readPart p.y tile i (r0 + r) p.n c n p.ovf else pure (List.replicate n FVal.zero)

/-- Columns `c .. c + n - 1` of `rows` rows of an operand whose rows have `w` elements. -/
def readBlock (o : OpRef) (tile i rows w c n ovf : Nat) : ItemM (List (List FVal)) :=
  (List.range rows).mapM fun r => readPart o tile i r w c n ovf

/-- Rows from `r0` written to Y from column `c`, with the linear index of R153. -/
def writeBlock (o : OpRef) (m n tag tile i c : Nat) : Nat → List (List FVal) → ItemM Unit
  | _, [] => pure ()
  | r, y :: t => do
    writePart o tile i r c (← withRounding tag ((i * m + r) * n + c) y)
    writeBlock o m n tag tile i c (r + 1) t

/-- Whole rows from `r` written to Y, with the linear index of R153. -/
def writeY (o : OpRef) (m n ovf clip tag tile i : Nat) : Nat → List (List FVal) → ItemM Unit
  | _, [] => pure ()
  | r, y :: t => do
    writeRow o tile i r ovf clip (← withRounding tag ((i * m + r) * n) y)
    writeY o m n ovf clip tag tile i (r + 1) t

/-- Column blocks of a band of rows computed one after another by `f`, each written to Y as it is done (R150). Packed lines,
which reach over column blocks, are written once the band is whole (DESIGN CHOICE, log entry 66). -/
def bandOf (p : MmPay) (tile i r0 rows : Nat) (f : Nat → Nat → ItemM (List (List FVal))) : ItemM Unit := do
  let parts ← (blocks (passWidth (pairRate p.a.fmt p.b.fmt)) p.n).mapM fun (c, n) => do
    let ys ← f c n
    if p.y.fmt ≠ 0xB then writeBlock p.y p.m p.n p.tag tile i c r0 ys
    return ys
  if p.y.fmt = 0xB then
    writeY p.y p.m p.n p.ovf p.clip p.tag tile i r0 ((List.range rows).map fun r => parts.flatMap fun ys => ys.getD r [])

/-- Rows of a block through all passes of their reduction, with the checker's skips counted by `skips` (R121, R150, R424):
`as` and `b` hold the reduction of each row and of each column. -/
def blockPasses (p : MmPay) (k : Nat) (skips : List FVal → List FVal → List FVal → Nat → Nat) (as b ps : List (List FVal)) :
    ItemM (List (List FVal)) :=
  as.zipIdx.mapM fun (row, r) => do
    let rate := pairRate p.a.fmt p.b.fmt
    let start := ps.getD r []
    let (ys, n) := rowPasses (sumWidth p.a.fmt p.b.fmt) (rate == 3) (passDepth rate) (ceilDiv k (passDepth rate)) row b start
    modify fun s => s.countSkips (skips row start ys n)
    return ys

/-- Array cycles of an item (Table 5.8), on the busier array (R151). -/
def mmCycles (p : MmPay) (op v : Nat) : Nat :=
  let rate := pairRate p.a.fmt p.b.fmt
  let half := fun n => if p.mode % 4 = 0 then ceilDiv n 2 else n
  192 + (if p.acc then 128 else 0) +
    (if op = 2 then half (ceilDiv p.m 128 * ceilDiv p.n (passWidth rate)) * (v * osCycles rate + 132)
     else
       let pass := fun rows =>
         let c := max (rows * wsCycles rate) 128 + 4
         if op = 1 then ceilDiv (c * 50) 31 else c
       half (ceilDiv p.n (passWidth rate)) * ceilDiv p.k (passDepth rate) *
         ((v / 1024) * pass 1024 + (if v % 1024 = 0 then 0 else pass (v % 1024))))

/-- `MM_WS` and `MM_WS_T`: bands of 1,024 rows, the most that the accumulator holds; in each, one column block after another
(R150). -/
def wsBands (p : MmPay) (op tile i v : Nat) : ItemM Unit :=
  (blocks 1024 v).forM fun (r0, rows) =>
    bandOf p tile i r0 rows fun c n => do
      let ps ← startBlock p tile i r0 rows c n
      let b ← if op = 0 then (List.range n).mapM fun x => readRow p.b tile i (c + x) p.k p.ovfB
        else do pure (transpose (← readBlock p.b tile i p.k p.n c n p.ovfB) n)
      let as ← (List.range rows).mapM fun r => readRow p.a tile i (r0 + r) p.k p.ovfA
      blockPasses p p.k (fun _ _ _ n => n) as b ps

/-- The work of `MM_WS` (op 0) and `MM_WS_T` (op 1). -/
def mmWsWork (op : Nat) (lf : Option LaneFault) : ItemM Done := do
  let e ← read
  let p := mmPay e.desc
  let tile := itemTile e.desc e.item
  mmCheck e.desc op
  mmPlanned p op tile e.item
  let v ← runTime p.shapeEn tile p.shape p.m
  laneCheck tile lf
  wsBands p op tile e.item v
  doneRows (precFmt p.y.fmt) v (mmCycles p op v)

/-- MM_WS. -/
def execMmWs (run item : Nat) (laneFault : Option LaneFault) (s : State) : Host.Outcome State Fault Refusal :=
  .next (s.runItem 1 0 (mmWsWork 0 laneFault) run item)

/-- MM_WS_T. -/
def execMmWsT (run item : Nat) (laneFault : Option LaneFault) (s : State) : Host.Outcome State Fault Refusal :=
  .next (s.runItem 1 1 (mmWsWork 1 laneFault) run item)

/-- `MM_OS`: bands of 128 rows; in each, one output block after another, summed over the `v` tokens. Each row of an output
block is checked once (R150, R423, R424). -/
def osBands (p : MmPay) (tile i v : Nat) : ItemM Unit :=
  (blocks 128 p.m).forM fun (r0, rows) =>
    bandOf p tile i r0 rows fun c n => do
      let ps ← startBlock p tile i r0 rows c n
      let as := transpose (← readBlock p.a tile i v p.m r0 rows p.ovfA) rows
      let b := transpose (← readBlock p.b tile i v p.n c n p.ovfB) n
      let k := if pairRate p.a.fmt p.b.fmt = 3 then 3 else 1
      blockPasses p v (fun a s y _ => if rowSkipped a b s y then k else 0) as b ps

/-- The work of `MM_OS`. -/
def mmOsWork (lf : Option LaneFault) : ItemM Done := do
  let e ← read
  let p := mmPay e.desc
  let tile := itemTile e.desc e.item
  mmCheck e.desc 2
  mmPlanned p 2 tile e.item
  let v ← runTime p.shapeEn tile p.shape p.k
  laneCheck tile lf
  osBands p tile e.item v
  doneRows (precFmt p.y.fmt) v (mmCycles p 2 v)

/-- MM_OS. -/
def execMmOs (run item : Nat) (laneFault : Option LaneFault) (s : State) : Host.Outcome State Fault Refusal :=
  .next (s.runItem 1 2 (mmOsWork laneFault) run item)

/- ## Split sums (R165, R166, R133) -/

/-- The fields of Table 5.13. -/
structure SplitPay where
  mode : Nat
  splits : Nat
  m : Nat
  n : Nat
  splitRows : Nat
  shape : Nat
  p : OpRef
  tileStep : Nat
  y : OpRef
  ovf : Nat
  clip : Nat
  tag : Nat
  deriving DecidableEq, Repr

def splitPay (d : List Byte) : SplitPay :=
  let p := payloadOf d
  { mode := leAt p 2 1, splits := leAt p 3 1 + 1, m := leAt p 4 2, n := leAt p 6 2, splitRows := leAt p 8 4,
    shape := leAt p 12 4, p := opRef ((p.drop 16).take 16), tileStep := leAt p 32 1,
    y := opRef ((p.drop 48).take 16), ovf := leAt p 64 8, clip := leAt p 72 4, tag := leAt p 76 4 }

/-- The splits lie in consecutive tiles: TILE_STEP = 1 with a base in a named tile (R165). -/
def SplitPay.steps (q : SplitPay) : Bool := q.tileStep == 1 && q.p.base % 4 == 2

/-- Reference of split `k`: in consecutive tiles, or `SPLIT_ROWS` rows apart in one place (R165). -/
def SplitPay.splitRef (q : SplitPay) (k : Nat) : OpRef :=
  if q.steps then { q.p with base := q.p.base + 4 * k } else q.p

/-- Row of split `k` for row `r` of item `i`. -/
def SplitPay.splitRow (q : SplitPay) (i k r : Nat) : Nat := (if q.steps then 0 else k * q.splitRows) + q.p.row i r

/-- The descriptor checks of R147 and R165. -/
def splitCheck (d : List Byte) : ItemM Unit := do
  let q := splitPay d
  let z := payloadOf d
  require (tileRangeOk d && decide (q.mode % 8 = 0) && decide (q.mode / 16 = 0) && decide (q.m ≠ 0) && decide (q.n ≠ 0) &&
    decide (q.tileStep < 2) && zeroAt z 33 15 && zeroAt z 80 16) stBad
  require (if bit q.mode 3 then locOk q.shape else decide (q.shape = 0)) stBad
  require (fmtByteOk q.p.fmtByte && fmtByteOk q.y.fmtByte) stBad
  refuseFormats [q.p] [q.y]
  require (decide (q.p.fmt = 0) && q.p.ok q.n && q.y.ok q.n && ovfOk q.y.fmt q.ovf && clipFieldOk q.y.fmt q.clip) stBad
  require ((q.tileStep == 0 || q.splitRows == 0) && (!q.steps || decide (field q.p.base 2 5 + q.splits ≤ 18))) stBad

/-- Range of the planned rows of every split. -/
def splitRanges (q : SplitPay) (tile i : Nat) : ItemM (List (Nat × Nat)) :=
  (List.range q.splits).mapM fun k =>
    match locKey tile (q.splitRef k).base (q.splitRow i k 0 * 64 * q.p.pitch) ((q.m - 1) * 64 * q.p.pitch + 4 * q.n) with
    | some x => pure (x, x + (q.m - 1) * 64 * q.p.pitch + 4 * q.n)
    | none => stopWith stBad

/-- Format in which a format-order sum is made (R133). -/
def orderFmt (code : Nat) : FloatFmt :=
  if 5 ≤ code then bf16 else match elemFmt code with | some f => f | none => bf16

/-- One rounding of a format-order sum. -/
def FloatFmt.near (f : FloatFmt) (v : FVal) : FVal := f.decode (f.encode .rne v)

/-- The sum of an element's partials: by the fixed tree, or in the destination's format one after another. -/
def splitTotal (formatOrder : Bool) (fmt : Nat) (vs : List FVal) : FVal :=
  if formatOrder then
    let f := orderFmt fmt
    match vs with
    | [] => FVal.zero
    | v :: t => t.foldl (fun acc x => f.near (acc.addExact (f.near x))) (f.near v)
  else fixedTree fadd FVal.zero vs

/-- Partials of row `r`: one list of elements for each split. -/
def splitParts (q : SplitPay) (tile i r : Nat) : ItemM (List (List FVal)) :=
  (List.range q.splits).mapM fun k => do
    return rowValues 0 q.n (← locLoad tile (q.splitRef k).base (q.splitRow i k r * 64 * q.p.pitch) (4 * q.n)) []

/-- Rows of the sum, ascending. -/
def splitRowsOf (q : SplitPay) (tile i : Nat) : Nat → Nat → ItemM Unit
  | 0, _ => pure ()
  | n + 1, r => do
    let parts ← splitParts q tile i r
    let fo := (← get).flag (ctxArithFormatOrder (← read).ctx)
    let ys := (List.range q.n).map fun c => splitTotal fo q.y.fmt (column parts c)
    writeY q.y q.m q.n q.ovf q.clip q.tag tile i r [ys]
    splitRowsOf q tile i n (r + 1)

/-- The work of `SPLIT_SUM`. -/
def splitSumWork : ItemM Done := do
  let e ← read
  let q := splitPay e.desc
  let tile := itemTile e.desc e.item
  splitCheck e.desc
  let rp ← splitRanges q tile e.item
  let ry ← planned q.y tile e.item q.m q.n
  require (!rangesMeet ry rp) stBad
  let v ← runTime (bit q.mode 3) tile q.shape q.m
  splitRowsOf q tile e.item v 0
  doneRows (precFmt q.y.fmt) v (192 + max (ceilDiv (v * q.n * (q.splits - 1)) 512) (ceilDiv (v * q.n * q.splits) 256))

/-- SPLIT_SUM. -/
def execSplitSum (run item : Nat) (s : State) : Host.Outcome State Fault Refusal := .next (s.runItem 1 3 splitSumWork run item)

/- ## Weight pairs (R158 to R161) -/

/-- A pair record (Table 5.10). -/
structure PairRec where
  addr : Nat
  fwd : Nat
  bwd : Nat
  rows : Nat
  cols : Nat
  fmtByte : Nat
  state : Nat
  seq : Nat
  deriving DecidableEq, Repr

def pairRec (addr : Nat) (b : List Byte) : PairRec :=
  { addr := addr, fwd := leAt b 0 8, bwd := leAt b 8 8, rows := leAt b 16 2, cols := leAt b 18 2, fmtByte := leAt b 20 1,
    state := leAt b 21 1, seq := leAt b 24 8 }

/-- Bytes from one element row of a copy to the next, and from one scale row to the next (R158). -/
def copyPitch (fmt n : Nat) : Nat := up64 (rowBytes fmt n)
def copyScalePitch (fmt n : Nat) : Nat := up64 (scaleBytes fmt n)

/-- STATE of a pair stored (R159). -/
def setPairState (r : PairRec) (v : Nat) : ItemM Unit := store (r.addr + 21) (leBytes 1 v)

/-- Steps 4 of R159: STATE 0x01, SEQ raised by 1. -/
def commitPair (r : PairRec) : ItemM Unit := do
  setPairState r 1
  store (r.addr + 24) (leBytes 8 ((r.seq + 1) % 2 ^ 64))

/-- Element codes of a row of a copy. -/
def pairRow (base fmt n r : Nat) : ItemM (List Nat) := do
  return unpackRow (elemBits fmt) n (← load (base + r * copyPitch fmt n) (rowBytes fmt n))

/-- The backward-order copy written from the element codes of the forward-order copy, padded with zeros. -/
def writeBwd (r : PairRec) (fmt : Nat) (codes : List (List Nat)) : Nat → ItemM Unit
  | 0 => pure ()
  | n + 1 => do
    writeBwd r fmt codes n
    store (r.bwd + n * copyPitch fmt r.rows) (packBits (elemBits fmt) (codes.map fun l => l.getD n 0))

/-- The whole-descriptor checks of `PAIR_REFRESH`. -/
def pairCheck (d : List Byte) : ItemM Unit :=
  require (tileRangeOk d && zeroAt (payloadOf d) 2 14 && zeroAt (payloadOf d) 24 72) stBad

/-- The work of `PAIR_REFRESH` (R161). -/
def pairRefreshWork : ItemM Done := do
  let e ← read
  pairCheck e.desc
  let base ← pay 16 8
  require (decide (base % 32 = 0) && (← get).ownMem base 32) stBad
  let addr := base + 32 * e.item
  require ((← get).ownMem addr 32) stBad
  let r := pairRec addr (← load addr 32)
  let f := r.fmtByte % 16
  require (decide (f ≤ 4) && decide (r.fmtByte / 32 = 0)) stBad
  require (r.state == 1 || r.state == 2) stBad
  require (decide (r.rows ≠ 0) && decide (r.cols ≠ 0)) stBad
  checkRead r.fwd (r.rows * copyPitch f r.cols)
  checkWrite r.bwd (r.cols * copyPitch f r.rows)
  setPairState r 2
  let codes ← (List.range r.rows).mapM fun i => pairRow r.fwd f r.cols i
  writeBwd r f codes r.cols
  commitPair r
  return done stOk 0 192

/-- PAIR_REFRESH. -/
def execPairRefresh (run item : Nat) (s : State) : Host.Outcome State Fault Refusal :=
  .next (s.runItem 1 4 pairRefreshWork run item)

end Sys2Proof.Machine
end

