-- ==== Sys2Proof/Machine/Rowops.lean ====
section
/-! DEFINITION. Row operators of the vector class (R203, R204, R219 to R227): RMSNORM, SOFTMAX_ROW, QUANT, DEQUANT and
ATTN_MERGE. -/
namespace Sys2Proof.Machine

/- ## The shared payload (Table 7.9) -/

structure RowPay where
  op : Nat
  mode : Nat
  m : Nat
  n : Nat
  shape : Nat
  stat : Nat
  x : OpRef
  g : OpRef
  y : OpRef
  ovf : Nat
  clip : Nat
  tag : Nat
  param : Nat
  ovfX : Nat
  deriving DecidableEq, Repr

def rowPay (d : List Byte) : RowPay :=
  let p := payloadOf d
  { op := hdrOp d, mode := leAt p 2 1, m := leAt p 4 2, n := leAt p 6 2, shape := leAt p 8 4, stat := leAt p 12 4,
    x := opRef ((p.drop 16).take 16), g := opRef ((p.drop 32).take 16), y := opRef ((p.drop 48).take 16),
    ovf := leAt p 64 8, clip := leAt p 72 4, tag := leAt p 76 4, param := leAt p 80 4, ovfX := leAt p 84 8 }

def RowPay.shapeEn (p : RowPay) : Bool := bit p.mode 1
def RowPay.gammaEn (p : RowPay) : Bool := bit p.mode 2
def RowPay.statEn (p : RowPay) : Bool := bit p.mode 3

/-- Bytes of a statistic row (R219). -/
def RowPay.statSize (p : RowPay) : Nat := if p.op = 2 then 8 else 4

/-- The formats of Table 7.10. -/
def RowPay.formatsOk (p : RowPay) : Bool :=
  let x := p.x.fmt
  let y := p.y.fmt
  match p.op with
  | 1 => decide (x ≤ 0xB) && decide (y ≤ 0xB)
  | 2 => decide (x ≤ 2) && decide (y ≤ 6)
  | 4 => decide (x ≤ 2) && decide (3 ≤ y) && decide (y ≤ 0xB)
  | _ => decide (3 ≤ x) && decide (x ≤ 0xB) && decide (y ≤ 2)

/-- Overflow region of the output, and of the input. -/
def RowPay.ovfOut (p : RowPay) : Nat := if p.op = 5 then 0 else p.ovf
def RowPay.ovfIn (p : RowPay) : Nat := if p.op = 5 then p.ovf else p.ovfX

/-- ε of `RMSNORM` is finite and at least 0; PARAM is 0 where it has no meaning (Table 7.9). -/
def RowPay.paramOk (p : RowPay) : Bool :=
  match p.op with
  | 1 => (ofF32 p.param).isFinite && (!(ofF32 p.param).isNeg || (ofF32 p.param).isZero)
  | 2 => true
  | _ => p.param == 0

/-- The descriptor checks (R147, R204, R219, R220). -/
def rowCheck (d : List Byte) : ItemM Unit := do
  let p := rowPay d
  let z := payloadOf d
  require (tileRangeOk d && decide (p.mode / 16 = 0) && decide (p.mode % 2 = 0) && (p.op == 1 || !p.gammaEn) &&
    zeroAt z 3 1 && zeroAt z 92 4 && p.m != 0 && p.n != 0) stBad
  require (if p.shapeEn then locOk p.shape else p.shape == 0) stBad
  require (if p.statEn then locOk p.stat else p.stat == 0) stBad
  require (fmtByteOk p.x.fmtByte && fmtByteOk p.y.fmtByte && (!p.gammaEn || fmtByteOk p.g.fmtByte)) stBad
  refuseFormats (if p.gammaEn then [p.x, p.g] else [p.x]) [p.y]
  require (p.formatsOk && p.x.ok p.n && p.y.ok p.n) stBad
  require (if p.gammaEn then p.g.ok p.n && p.g.itemRows == 0 else zeroAt z 32 16) stBad
  require (ovfOk (if p.op = 5 then p.x.fmt else p.y.fmt) p.ovf && clipFieldOk p.y.fmt p.clip &&
    (if p.op = 1 then ovfOk p.x.fmt p.ovfX else p.ovfX == 0) && p.paramOk) stBad

/-- Range of the planned statistic rows of an item. -/
def statPlanned (p : RowPay) (tile i : Nat) : ItemM Unit := do
  if p.statEn then
    require (locKey tile p.stat (i * p.m * p.statSize) (p.m * p.statSize)).isSome stBad

/-- The item checks of R148 with the payload's own operands. -/
def rowPlanned (p : RowPay) (tile i : Nat) : ItemM Unit := do
  let rx ← planned p.x tile i p.m p.n
  let rg ← if p.gammaEn then planned p.g tile i 1 p.n else pure []
  let ry ← planned p.y tile i p.m p.n
  statPlanned p tile i
  require (!rangesMeet ry rx && !rangesMeet ry rg) stBad

/- ## Rows -/

/-- Largest finite magnitude of a row, +0 where there is none. -/
def rowMax (l : List FVal) : FVal := l.foldl (fun acc v => if v.isFinite && v.abs.cmp acc == 1 then v.abs else acc) FVal.zero

/-- ⌊log2⌋ of a magnitude, 0 for zero. -/
def log2Or0 (v : FVal) : Int := if v.isZero then 0 else v.ilog

/-- One row of `RMSNORM` (R221): r, and y before its conversion. -/
def rmsRow (eps : FVal) (xs g : List FVal) : FVal × List FVal :=
  if xs.any fun v => !v.isFinite then (.nan, xs.map fun _ => .nan)
  else
    let e := log2Or0 (rowMax xs)
    let k := if eps.isZero then e else max e ((eps.ilog + 1) / 2)
    let sc := xs.map fun v => r32 (v.scale (-k))
    let s := laneTree (fun acc v => ffma v v acc) FVal.zero fadd sc
    let t := fadd (fdiv s (FVal.ofNat xs.length)) (r32 (eps.scale (-2 * k)))
    if t.isZero then (FVal.zero, xs.map fun _ => FVal.zero)
    else
      let rt := fsqrt t
      let up := r32 (rt.scale k)
      let q := fdiv (FVal.ofNat 1) rt
      (if up.isFinite then up else ofF32 fp32.maxCode, (sc.zip g).map fun (v, w) => fmul (fmul v q) w)

/-- Statistics of a softmax: maximum and scaled sum (R223). -/
abbrev Stat := FVal × FVal

/-- The neutral statistic. -/
def statNone : Stat := (.inf true, FVal.zero)

/-- Weight 2^(m − M) of a term, none for a maximum of −∞, which contributes 0 (R223). -/
def statWeight (m top : FVal) : Option FVal := if m = .inf true then none else some (exp2 (fsub m top))

/-- A term under its weight. -/
def weighted (w : Option FVal) (v : FVal) : FVal :=
  match w with
  | none => FVal.zero
  | some x => fmul v x

/-- Merge of two statistics (Table 7.11). -/
def statMerge (a b : Stat) : Stat :=
  let top := fmax a.1 b.1
  if top = .inf true then statNone
  else (top, fadd (weighted (statWeight a.1 top) a.2) (weighted (statWeight b.1 top) b.2))

/-- One row of `SOFTMAX_ROW` (R224): the statistics, and y before its conversion. -/
def softmaxRow (scale : FVal) (xs : List FVal) : Stat × List FVal :=
  let sc := xs.map (fmul scale)
  let st := laneTree (fun acc v => statMerge acc (v, FVal.ofNat 1)) statNone statMerge sc
  if st.1 = .inf true then (st, xs.map fun _ => FVal.zero)
  else (st, sc.map fun v => fdiv (exp2 (fsub v st.1)) st.2)

/-- Amax statistic of `QUANT` and `DEQUANT` (R220). -/
def amaxStat (xs : List FVal) : FVal := if xs.any FVal.isNan then .nan else rowMax xs

/-- What an operator makes of a row: the statistic's words, and y before its conversion. -/
def rowResult (p : RowPay) (xs g : List FVal) : List FVal × List FVal :=
  match p.op with
  | 1 => let (r, y) := rmsRow (ofF32 p.param) xs g; ([r], y)
  | 2 => let (st, y) := softmaxRow (ofF32 p.param) xs; ([st.1, st.2], y)
  | _ => ([amaxStat xs], xs)

/-- Rows of an item, ascending. -/
def rowsOf (p : RowPay) (tile i : Nat) (g : List FVal) : Nat → Nat → ItemM Unit
  | 0, _ => pure ()
  | n + 1, r => do
    let xs ← readRow p.x tile i r p.n p.ovfIn
    let (st, ys) := rowResult p xs g
    writeY p.y p.m p.n p.ovfOut p.clip p.tag tile i r [ys]
    if p.statEn then locStore tile p.stat ((i * p.m + r) * p.statSize) (st.flatMap fun v => leBytes 4 (toF32 v))
    rowsOf p tile i g n (r + 1)

/-- Cycles of a row operator (Table 7.13). -/
def rowCycles (p : RowPay) (v : Nat) : Nat :=
  let g := ceilDiv p.n 512
  64 + v * (if p.op = 1 then 3 * g + 24 else if p.op = 2 then 5 * g + 24 else 2 * g + 8)

/-- The work of a row operator. -/
def rowWork : ItemM Done := do
  let e ← read
  let p := rowPay e.desc
  let tile := itemTile e.desc e.item
  rowCheck e.desc
  rowPlanned p tile e.item
  let v ← runTime p.shapeEn tile p.shape p.m
  let g ← if p.gammaEn then readRow p.g tile e.item 0 p.n 0 else pure (List.replicate p.n (FVal.ofNat 1))
  rowsOf p tile e.item g v 0
  doneRows (precFmt p.y.fmt) v (rowCycles p v)

/-- RMSNORM. -/
def execRmsnorm (run item : Nat) (s : State) : Host.Outcome State Fault Refusal := .next (s.runItem 3 1 rowWork run item)

/-- SOFTMAX_ROW. -/
def execSoftmaxRow (run item : Nat) (s : State) : Host.Outcome State Fault Refusal := .next (s.runItem 3 2 rowWork run item)

/-- QUANT. -/
def execQuant (run item : Nat) (s : State) : Host.Outcome State Fault Refusal := .next (s.runItem 3 4 rowWork run item)

/-- DEQUANT. -/
def execDequant (run item : Nat) (s : State) : Host.Outcome State Fault Refusal := .next (s.runItem 3 5 rowWork run item)

/- ## Merging attention partials (R225, R226) -/

structure MergePay where
  mode : Nat
  sources : Nat
  m : Nat
  heads : Nat
  dim : Nat
  shape : Nat
  o : OpRef
  sin : Nat
  srcRows : Nat
  sout : Nat
  y : OpRef
  ovf : Nat
  clip : Nat
  tag : Nat
  deriving DecidableEq, Repr

def mergePay (d : List Byte) : MergePay :=
  let p := payloadOf d
  { mode := leAt p 2 1, sources := leAt p 3 1 + 1, m := leAt p 4 2, heads := leAt p 6 2, dim := leAt p 8 2,
    shape := leAt p 12 4, o := opRef ((p.drop 16).take 16), sin := leAt p 32 4, srcRows := leAt p 36 4,
    sout := leAt p 40 4, y := opRef ((p.drop 48).take 16), ovf := leAt p 64 8, clip := leAt p 72 4, tag := leAt p 76 4 }

def MergePay.norm (p : MergePay) : Bool := bit p.mode 0
def MergePay.shapeEn (p : MergePay) : Bool := bit p.mode 1

/-- Bytes from one row of statistics to the next: `n` pairs of FP32 values (R190). -/
def statPitch (n : Nat) : Nat := up64 (8 * n)

/-- A head dimension that attention supports. -/
def headDimOk (d : Nat) : Bool := d == 64 || d == 96 || d == 128 || d == 192 || d == 256

/-- Row of source `k` for row `r` of item `i` (R225). -/
def MergePay.srcRow (p : MergePay) (i k r : Nat) : Nat := k * p.srcRows + p.o.row i r

/-- The descriptor checks (R147, R204, R225). -/
def mergeCheck (d : List Byte) : ItemM Unit := do
  let p := mergePay d
  let z := payloadOf d
  let n := p.heads * p.dim
  require (tileRangeOk d && decide (p.mode / 4 = 0) && decide (p.sources ≤ 64) && p.m != 0 && decide (1 ≤ p.heads) &&
    decide (p.heads ≤ 48) && headDimOk p.dim && zeroAt z 10 2 && zeroAt z 44 4 && zeroAt z 80 16) stBad
  require (if p.shapeEn then locOk p.shape else p.shape == 0) stBad
  require (locOk p.sin && (if p.norm then p.sout == 0 else locOk p.sout)) stBad
  require (fmtByteOk p.o.fmtByte && fmtByteOk p.y.fmtByte) stBad
  refuseFormats [p.o] [p.y]
  require (p.o.fmt == 0 && (if p.norm then decide (p.y.fmt ≤ 4) else p.y.fmt == 0) && p.o.ok n && p.y.ok n &&
    ovfOk p.y.fmt p.ovf && clipFieldOk p.y.fmt p.clip) stBad

/-- Ranges of the planned source rows and statistics; those that leave their place end the item BAD_DESCRIPTOR. -/
def mergePlanned (p : MergePay) (tile i : Nat) : ItemM Unit := do
  let n := p.heads * p.dim
  let ry ← planned p.y tile i p.m n
  let ranges ← (List.range p.sources).mapM fun k => do
    match locKey tile p.o.base (p.srcRow i k 0 * 64 * p.o.pitch) ((p.m - 1) * 64 * p.o.pitch + 4 * n),
        locKey tile p.sin (p.srcRow i k 0 * statPitch p.heads) (p.m * statPitch p.heads) with
    | some a, some _ => return (a, a + (p.m - 1) * 64 * p.o.pitch + 4 * n)
    | _, _ => stopWith stBad
  require (!rangesMeet ry ranges) stBad
  if !p.norm then
    require (locKey tile p.sout (p.y.row i 0 * statPitch p.heads) (p.m * statPitch p.heads)).isSome stBad

/-- An accumulator with its statistics. -/
abbrev Partial := List FVal × Stat

/-- One step of a merge (R226). -/
def partMerge (a b : Partial) : Partial :=
  let st := statMerge a.2 b.2
  if st.1 = .inf true then (a.1.map fun _ => FVal.zero, statNone)
  else
    let wa := statWeight a.2.1 st.1
    let wb := statWeight b.2.1 st.1
    ((a.1.zip b.1).map fun (x, y) => fadd (weighted wa x) (weighted wb y), st)

/-- Partials of the sources combined in the context's order (R226). -/
def mergeAll (formatOrder : Bool) (l : List Partial) : Partial :=
  if formatOrder then
    match l with
    | [] => ([], statNone)
    | x :: t => t.foldl partMerge x
  else fixedTree partMerge ([], statNone) l

/-- Partials of one row: by source, its heads. -/
def mergeSources (p : MergePay) (tile i r : Nat) : ItemM (List (List Partial)) :=
  (List.range p.sources).mapM fun k => do
    let n := p.heads * p.dim
    let acc := rowValues 0 n (← locLoad tile p.o.base (p.srcRow i k r * 64 * p.o.pitch) (4 * n)) []
    let st ← locLoad tile p.sin (p.srcRow i k r * statPitch p.heads) (8 * p.heads)
    return (List.range p.heads).map fun h =>
      ((acc.drop (h * p.dim)).take p.dim, (ofF32 (leAt st (8 * h) 4), ofF32 (leAt st (8 * h + 4) 4)))

/-- The normalised output of a partial: acc / L, 0 where no key was reached (R226). -/
def normalised (x : Partial) : List FVal :=
  if x.2.1 = .inf true then x.1.map fun _ => FVal.zero else x.1.map fun v => fdiv v x.2.2

/-- Values of `n` heads of one row with the rounding of R226's index. -/
def headRounding (tag row dim : Nat) (l : List FVal) : ItemM (List (Rounding × FVal)) := do
  let s ← get
  let e ← read
  return l.zipIdx.map fun (v, c) => (s.rounding e.ctx tag ((row * 48 + c / dim) * dim + c % dim), v)

/-- Rows of the merge, ascending. -/
def mergeRows (p : MergePay) (tile i : Nat) : Nat → Nat → ItemM Unit
  | 0, _ => pure ()
  | n + 1, r => do
    let src ← mergeSources p tile i r
    let fo := (← get).flag (ctxArithFormatOrder (← read).ctx)
    let heads := (List.range p.heads).map fun h => mergeAll fo (src.map fun l => l.getD h ([], statNone))
    let ys := if p.norm then heads.flatMap normalised else heads.flatMap fun x => x.1
    writeRow p.y tile i r p.ovf p.clip (← headRounding p.tag (i * p.m + r) p.dim ys)
    if !p.norm then
      locStore tile p.sout (p.y.row i r * statPitch p.heads)
        (heads.flatMap fun x => leBytes 4 (toF32 x.2.1) ++ leBytes 4 (toF32 x.2.2))
    mergeRows p tile i n (r + 1)

/-- The work of `ATTN_MERGE`. -/
def attnMergeWork : ItemM Done := do
  let e ← read
  let p := mergePay e.desc
  let tile := itemTile e.desc e.item
  mergeCheck e.desc
  mergePlanned p tile e.item
  let v ← runTime p.shapeEn tile p.shape p.m
  mergeRows p tile e.item v 0
  return done stOk v (64 + v * ceilDiv (p.heads * p.dim) 512 * 4 * p.sources)

/-- ATTN_MERGE. -/
def execAttnMerge (run item : Nat) (s : State) : Host.Outcome State Fault Refusal := .next (s.runItem 3 3 attnMergeWork run item)

end Sys2Proof.Machine
end

