-- ==== Sys2Proof/Machine/Attn.lean ====
section
/-! DEFINITION. The attention operator and the distance bias (R181, R190 to R200): ATTN and BIAS_LOAD. -/
namespace Sys2Proof.Machine

/- ## The payload (Table 6.12) -/

structure AttnPay where
  mode : Nat
  gqa : Nat
  qbFirst : Nat
  kvhFirst : Nat
  nk : Nat
  pt : Nat
  q : OpRef
  o : OpRef
  stats : Nat
  scratch : Nat
  sight : Nat
  scale : Nat
  gridX : Nat
  gridY : Nat
  shape : Nat
  qpos : Nat
  deriving DecidableEq, Repr

def attnPay (d : List Byte) : AttnPay :=
  let p := payloadOf d
  { mode := leAt p 2 1, gqa := leAt p 3 1, qbFirst := leAt p 4 2, kvhFirst := leAt p 6 1, nk := leAt p 7 1 + 1,
    pt := leAt p 8 8, q := opRef ((p.drop 16).take 16), o := opRef ((p.drop 32).take 16), stats := leAt p 48 4,
    scratch := leAt p 52 4, sight := leAt p 56 8, scale := leAt p 64 4, gridX := leAt p 68 2, gridY := leAt p 70 2,
    shape := leAt p 72 4, qpos := leAt p 76 4 }

def AttnPay.norm (p : AttnPay) : Bool := bit p.mode 0
def AttnPay.shapeEn (p : AttnPay) : Bool := bit p.mode 1
def AttnPay.biasEn (p : AttnPay) : Bool := bit p.mode 2

/-- Query heads for each key/value head. -/
def AttnPay.g (p : AttnPay) : Nat := p.gqa % 8 + 1

/-- Block, relative and absolute key/value head of item `i` (R190). -/
def AttnPay.blk (p : AttnPay) (i : Nat) : Nat := i / p.nk
def AttnPay.qb (p : AttnPay) (i : Nat) : Nat := p.qbFirst + i / p.nk
def AttnPay.rel (p : AttnPay) (i : Nat) : Nat := i % p.nk
def AttnPay.head (p : AttnPay) (i : Nat) : Nat := p.kvhFirst + i % p.nk

/-- Bytes of the scratch. -/
def scratchSize : Nat := 262144

/-- The descriptor checks of R192 on the payload. -/
def attnCheck (d : List Byte) : ItemM Unit := do
  let p := attnPay d
  let s ← get
  require (tileRangeOk d && decide (p.mode / 8 = 0) && decide (p.gqa / 8 = 0) && zeroAt (payloadOf d) 80 16 &&
    fmtByteOk p.q.fmtByte && fmtByteOk p.o.fmtByte && p.q.itemRows == 256 && p.o.itemRows == 256 && p.gridX != 0 &&
    p.gridY != 0) stBad
  require (if p.shapeEn then locOk p.shape else p.shape == 0) stBad
  refuseFormats [p.q] [p.o]
  require (decide (1 ≤ p.q.fmt) && decide (p.q.fmt ≤ 5)) stBad
  require (if p.norm then decide (p.o.fmt ≤ 4) && p.stats == 0 else p.o.fmt == 0 && locOk p.stats) stBad
  require (p.q.formOk && p.o.formOk) stBad
  require (decide (p.g * (p.kvhFirst + p.nk) ≤ 48)) stBad
  require (decide (p.scratch % 128 = 0) && decide (locOff p.scratch + scratchSize ≤ 0x400000)) stBad
  require (decide (p.sight / 2 ^ 57 = 0) && s.isOwn (addrMember p.sight) && decide (addrTier p.sight < 2)) stBad

/-- The descriptor check of R192 and R200 against the bias table in force. -/
def attnBias (d : List Byte) : ItemM Unit := do
  let p := attnPay d
  let heads := (← get).fld biasStatusHeads
  require (!p.biasEn || (heads != 0 && decide (p.g * (p.kvhFirst + p.nk) ≤ heads))) stBad

/- ## The sightline (R191) -/

/-- Ranges ascend, do not overlap and keep their reserved bits zero. -/
def rangesOk : Nat → List Nat → Bool
  | _, [] => true
  | low, e :: t =>
    decide (e / 2 ^ 48 = 0) && decide (1 ≤ field e 24 24) && decide (low ≤ field e 0 24) &&
      rangesOk (field e 0 24 + field e 24 24) t

/-- Pages that a block sees, in table order. -/
def sightPages (sight qb : Nat) : ItemM (List (Nat × Nat)) := do
  let h ← load sight 64
  let blocks := leAt h 0 4
  let ranges := leAt h 4 4
  require (decide (qb < blocks) && zeroAt h 8 56) stBad
  let d ← loadNat (sight + 64 + 8 * qb) 8
  let first := d % 2 ^ 32
  let n := field d 32 13
  require (decide (d / 2 ^ 45 = 0) && decide (n ≤ 4096) && decide (first + n ≤ ranges)) stBad
  let b ← load (sight + 64 + 8 * blocks + 8 * first) (8 * n)
  let l := (List.range n).map fun i => leAt b (8 * i) 8
  require (rangesOk 0 l) stBad
  return l.map fun e => (field e 0 24, field e 24 24)

/-- The visited pages: those at or beyond `last` are skipped. -/
def visited (last : Nat) (l : List (Nat × Nat)) : List Nat :=
  l.flatMap fun (a, n) => (List.range (min (a + n) last - a)).map fun i => a + i

/- ## The distance bias (R196, R197) -/

/-- A number read as a signed 32-bit value. -/
def signed32 (x : Int) : Int := let m := x % 2 ^ 32; if m < 2 ^ 31 then m else m - 2 ^ 32

/-- Bucket of a distance, as bucket + 8 (R196). -/
def bucket (d : Int) : Nat :=
  if d < -4 then (8 - (4 + min 4 ((Nat.log2 (-d).toNat : Int) - 1))).toNat
  else if d ≤ 4 then (8 + d).toNat
  else (8 + (4 + min 3 ((Nat.log2 d.toNat : Int) - 1))).toNat

/-- Byte offset of the bias of a query head between two token positions (R196, R197). -/
def biasOffset (gx gy hq key query : Nat) : Nat :=
  let b := fun (f : Nat → Nat) => bucket (signed32 ((f key : Int) - (f query : Int)))
  let bt := b fun n => n / (gx * gy)
  let by_ := b fun n => n / gx % gy
  let bx := b fun n => n % gx
  64 + 2 * (((hq * 16 + bt) * 16 + by_) * 16 + bx)

/- ## One page (R193) -/

/-- What an item needs for its arithmetic. -/
structure AttnCtx where
  scale : FVal
  qFmt : Nat
  kvFmt : Nat
  dim : Nat
  deriving DecidableEq, Repr

/-- Running statistics and accumulator of one query and head. -/
structure AttnAcc where
  m : FVal
  l : FVal
  acc : List FVal
  deriving DecidableEq, Repr

def AttnAcc.init (dim : Nat) : AttnAcc := ⟨.inf true, FVal.zero, List.replicate dim FVal.zero⟩

/-- Array passes of one row against columns, in the geometry of two formats (R149, R150). -/
def attnPasses (fa fb len : Nat) (as : List FVal) (cols : List (List FVal)) (ps : List FVal) : List FVal × Nat :=
  let rate := pairRate fa fb
  (pieces (passWidth rate) (ceilDiv cols.length (passWidth rate)) (cols.zip ps)).foldl (fun (ys, n) part =>
    let (y, m) := rowPasses (sumWidth fa fb) false (passDepth rate) (ceilDiv len (passDepth rate)) as
      (part.map fun (c, _) => c) (part.map fun (_, p) => p)
    (ys ++ y, n + m)) ([], 0)

/-- Format of the rounded probabilities: E4M3 against 8-bit values, the values' own against 16-bit ones. -/
def probFmt (kvFmt : Nat) : Nat := if kvFmt ≤ 2 then kvFmt else 3

/-- A value rounded to nearest even in a plain format. -/
def roundTo (code : Nat) (v : FVal) : FVal :=
  match elemFmt code with
  | some f => f.near v
  | none => v

/-- One page on one query and head: keys, value columns and biases in, statistics and accumulator out, with the rows the
checker skips. A page whose running maximum is −∞ adds nothing. -/
def attnPage (c : AttnCtx) (keys vcols : List (List FVal)) (bias : Option (List FVal)) (q : List FVal) (st : AttnAcc) :
    AttnAcc × Nat :=
  let (dots, n1) := attnPasses c.qFmt c.kvFmt c.dim q keys (keys.map fun _ => FVal.zero)
  let s0 := dots.map (fmul c.scale)
  let s := match bias with
    | some b => (s0.zip b).map fun (x, y) => fadd x y
    | none => s0
  let mp := s.foldl fmax st.m
  if mp = .inf true then (st, n1)
  else
    let w := s.map fun x => exp2 (fsub x mp)
    let f := statWeight st.m mp
    let (acc, n2) := attnPasses (probFmt c.kvFmt) c.kvFmt w.length (w.map (roundTo (probFmt c.kvFmt))) vcols
      (st.acc.map (weighted f))
    (⟨mp, w.foldl fadd (weighted f st.l), acc⟩, n1 + n2)

/- ## The item -/

/-- Keys or values of a page below LENGTH, as rows. -/
def pageRows (p : PageTable) (kind head page t : Nat) : ItemM (List (List FVal)) := do
  let a ← pageFrame p kind head page
  let b ← frameLoad a (t * p.row)
  let c ← if p.scale = 0 then pure [] else frameLoad (a + p.tokens * p.row) (t * p.scale)
  return (List.range t).map fun j => rowValues p.fmt p.dim ((b.drop (j * p.row)).take p.row) ((c.drop (j * p.scale)).take p.scale)

/-- The queries of an item: by row, by head of the group. -/
def attnQueries (p : AttnPay) (tile i dim v : Nat) : ItemM (List (List (List FVal))) :=
  (List.range v).mapM fun r => do
    let row ← readRow p.q tile (p.blk i) r (p.nk * p.g * dim) 0
    return (List.range p.g).map fun j => (row.drop ((p.rel i * p.g + j) * dim)).take dim

/-- Biases of one query and head against the keys of a page. -/
def pageBias (p : AttnPay) (img : List Byte) (i r hq first t : Nat) : Option (List FVal) :=
  if p.biasEn then
    some ((List.range t).map fun j =>
      bf16.decode (leAt img (biasOffset p.gridX p.gridY hq (first + j) (p.qpos + p.qb i * 256 + r)) 2))
  else none

/-- One page on every query and head of an item. -/
def attnStep (p : AttnPay) (c : AttnCtx) (img : List Byte) (i first : Nat) (keys vcols : List (List FVal))
    (qs : List (List (List FVal))) (sts : List (List AttnAcc)) : List (List AttnAcc) × Nat :=
  let out := (qs.zip sts).zipIdx.map fun ((qr, sr), r) =>
    (qr.zip sr).zipIdx.map fun ((q, st), j) =>
      attnPage c keys vcols (pageBias p img i r (p.head i * p.g + j) first keys.length) q st
  (out.map fun l => l.map fun (st, _) => st, out.foldl (fun n l => l.foldl (fun n (_, k) => n + k) n) 0)

/-- Every visited page, in order. -/
def attnPages (p : AttnPay) (t : PageTable) (c : AttnCtx) (i : Nat) (qs : List (List (List FVal))) :
    List Nat → List (List AttnAcc) → ItemM (List (List AttnAcc))
  | [], sts => pure sts
  | page :: rest, sts => do
    let n := min t.tokens (t.length - page * t.tokens)
    let keys ← pageRows t 0 (p.head i) page n
    let vals ← pageRows t 1 (p.head i) page n
    let (sts, k) := attnStep p c (← get).bias.image i (page * t.tokens) keys (transpose vals t.dim) qs sts
    modify fun s => s.countSkips k
    attnPages p t c i qs rest sts

/-- The scratch of an item that fetched pages holds bytes that the spec does not give (log entry 33). -/
def fillScratch (tile w : Nat) : ItemM Unit := do
  let s ← get
  let n := s.freeCtr
  locStore tile w 0 ((List.range scratchSize).map fun i => BitVec.ofNat 8 (Config.scratch (n + i)))
  modify fun t => { t with freeCtr := t.freeCtr + scratchSize }

/-- Output of one query and head: acc / l, or the accumulator (R194). -/
def AttnAcc.out (a : AttnAcc) (norm : Bool) : List FVal := if norm then normalised (a.acc, (a.m, a.l)) else a.acc

/-- Rows of O and STATS written (R194): row `r` holds the heads of the item's group at their columns. -/
def attnWrite (p : AttnPay) (tile i dim : Nat) : Nat → List (List AttnAcc) → ItemM Unit
  | _, [] => pure ()
  | r, l :: t => do
    let s ← get
    let e ← read
    let bytes := l.zipIdx.flatMap fun (a, j) => (a.out p.norm).zipIdx.flatMap fun (v, d) =>
      leBytes (elemBits p.o.fmt / 8) (elemCode p.o.fmt
        (s.rounding e.ctx 0 (((p.qb i * 256 + r) * 48 + p.head i * p.g + j) * dim + d)) v)
    locStore tile p.o.base (p.o.row (p.blk i) r * 64 * p.o.pitch + p.rel i * p.g * dim * (elemBits p.o.fmt / 8)) bytes
    if !p.norm then
      locStore tile p.stats ((p.blk i * 256 + r) * statPitch (p.nk * p.g) + 8 * (p.rel i * p.g))
        (l.flatMap fun a => leBytes 4 (toF32 a.m) ++ leBytes 4 (toF32 a.l))
    attnWrite p tile i dim (r + 1) t

/-- Cycles of one page (R195). -/
def pageCycles (p : AttnPay) (t : PageTable) (n : Nat) : Nat :=
  let rate := if p.q.fmt ≤ 2 || t.fmt ≤ 2 then 8192 else 16384
  max (ceilDiv (p.g * 256 * n * t.dim) rate) (ceilDiv (2 * n * (t.row + t.scale)) 256) + 64

/-- Planned rows of Q, O and STATS stay in their places (R148; log entry 31). -/
def attnPlanned (p : AttnPay) (tile i n : Nat) : ItemM Unit := do
  require (p.q.ok n && p.o.ok n) stBad
  let _ ← planned p.q tile (p.blk i) 256 n
  let _ ← planned p.o tile (p.blk i) 256 n
  if !p.norm then
    require (locKey tile p.stats (p.blk i * 256 * statPitch (p.nk * p.g)) (256 * statPitch (p.nk * p.g))).isSome stBad

/-- The work of `ATTN`. -/
def attnWork (lf : Option LaneFault) : ItemM Done := do
  let e ← read
  let p := attnPay e.desc
  let i := e.item
  let tile := itemTile e.desc i
  attnCheck e.desc
  attnBias e.desc
  let v ← runTime p.shapeEn tile p.shape 256
  let t ← loadTable p.pt
  require (decide (p.head i < t.heads)) stBad
  attnPlanned p tile i (p.nk * p.g * t.dim)
  let pages := visited (ceilDiv t.length t.tokens) (← sightPages p.sight (p.qb i))
  laneCheck tile lf
  let qs ← attnQueries p tile i t.dim v
  if p.biasEn && !pages.isEmpty then
    let s ← get
    sramTable (sramBias (tile / 18) s.bias.front) s.bias.image.length
  let c : AttnCtx := { scale := ofF32 p.scale, qFmt := p.q.fmt, kvFmt := t.fmt, dim := t.dim }
  let sts ← attnPages p t c i qs pages (List.replicate v (List.replicate p.g (AttnAcc.init t.dim)))
  if !pages.isEmpty then fillScratch tile p.scratch
  attnWrite p tile i t.dim 0 sts
  return done stOk 0 (256 + pages.foldl (fun a g => a + pageCycles p t (min t.tokens (t.length - g * t.tokens))) 0)

/-- ATTN. -/
def execAttn (run item : Nat) (laneFault : Option LaneFault) (s : State) : Host.Outcome State Fault Refusal :=
  .next (s.runItem 2 0 (attnWork laneFault) run item)

/- ## BIAS_LOAD (R198, R200) -/

/-- The whole-descriptor checks of `BIAS_LOAD` (R10, R180, R198). -/
def biasLoadCheck (d : List Byte) : ItemM Unit := do
  let z := payloadOf d
  let lead := leAt z 17 1
  require (tileRangeOk d && zeroAt z 2 6 && zeroAt z 18 78 && decide (2 ≤ lead) && decide (lead ≤ 63) &&
    decide (leAt z 8 8 % 64 = 0) && hdrItems d == 0) stBad

/-- An earlier `BIAS_LOAD` has not ended: they run one at a time (R198). -/
def State.biasBusy (s : State) (run : Nat) : Bool :=
  s.runs.any fun r => decide (r.id < run) && hdrClass r.desc.bytes == 2 && hdrOp r.desc.bytes == 6 &&
    r.items.any fun x => !x.hasEnded

/-- The work of `BIAS_LOAD`. The writing takes no time of the model's: the target is the announced cue, or the next
boundary where that cue has passed. -/
def biasLoadWork : ItemM Done := do
  let e ← read
  let z := payloadOf e.desc
  let src := leAt z 8 8
  let gen := leAt z 16 1
  let lead := leAt z 17 1
  biasLoadCheck e.desc
  if (← get).biasBusy e.run then throw .hold
  let h ← load src 64
  let heads := leAt h 0 1
  require (decide (1 ≤ heads) && decide (heads ≤ 48)) stBad
  let img ← load src (64 + 8192 * heads)
  let s ← get
  require (leAt img 4 4 == crc32 (img.drop 64) && gen != s.fld biasStatusGen) stBad
  let target := if s.cueNo < e.epoch + lead then e.epoch + lead else s.cueNo + 1
  let t : State := { s with bias := { s.bias with standby := some (gen, target, heads, img) } }
  let t := (List.range 8).foldl (fun (u : State) q => u.sramFresh (sramBias q (1 - s.bias.front)) 0x80000) t
  set ((t.setFld biasStatusPendingGen gen).setFlag biasStatusPending true)
  return done stOk (target % 2 ^ 32)

/-- BIAS_LOAD. -/
def execBiasLoad (run item : Nat) (s : State) : Host.Outcome State Fault Refusal := .next (s.runItem 2 6 biasLoadWork run item)

/-- The pending bias generation comes into force at the boundary of its cue (R198). -/
def State.biasSwitch (s : State) (c : Nat) : State :=
  match s.bias.standby with
  | some (gen, target, heads, img) =>
    if target ≤ c then
      (({ s with bias := { s.bias with image := img, standby := none, front := 1 - s.bias.front } } : State).setFld biasStatusGen gen
        |>.setFlag biasStatusPending false |>.setFld biasStatusHeads heads)
    else s
  | none => s

end Sys2Proof.Machine
end

