-- ==== Sys2Proof/Machine/Control.lean ====
section
/-! DEFINITION. The control class (R37, R60, R105) but for CONTEXT_TEARDOWN. -/
namespace Sys2Proof.Machine

/-- Every payload byte outside `n` bytes from the start is zero (R60). -/
def payTail (n : Nat) : ItemM Unit := payZero n (96 - n)

/-- The ring may act on other contexts (R60). -/
def requireManaged : ItemM Unit := do
  require ((← get).managed (← read).ring) stNotAuth

/-- `NOP`. -/
def nopWork : ItemM Done := do
  payTail 0
  return done

/-- NOP. -/
def execControlNop (run item : Nat) (s : State) : Host.Outcome State Fault Refusal := .next (s.runItem 0 0 nopWork run item)

/-- A fence word stored by an item: refused over part of an uncorrectable unit (R262). A fence change wakes a Dimmed
device (R470). -/
def writeFence (i word : Nat) : ItemM Unit := do
  let e ← read
  writeDev ((← get).fenceKey e.ctx i) (leBytes 4 (word % 2 ^ 17))
  modify State.wakeDimmed

/-- `FENCE_SIGNAL`: the increment is added modulo 2^16 (R59, R60). It is a write of part of a unit (R262). -/
def fenceSignalWork : ItemM Done := do
  payTail 4
  let i ← pay 0 2
  require (decide (i < 4096)) stBad
  let w := (← get).fenceWord (← read).ctx i
  writeFence i ((w % 65536 + (← pay 2 2)) % 65536 + (if bit w 16 then 65536 else 0))
  return done

/-- FENCE_SIGNAL. -/
def execFenceSignal (run item : Nat) (s : State) : Host.Outcome State Fault Refusal :=
  .next (s.runItem 0 1 fenceSignalWork run item)

/-- `FENCE_RESET`: the counter set and poison cleared (R59, R60). -/
def fenceResetWork : ItemM Done := do
  payTail 4
  let i ← pay 0 2
  require (decide (i < 4096)) stBad
  writeFence i (← pay 2 2)
  return done

/-- FENCE_RESET. -/
def execFenceReset (run item : Nat) (s : State) : Host.Outcome State Fault Refusal :=
  .next (s.runItem 0 2 fenceResetWork run item)

/-- `HOST_COPY`: one copy between host memory and device memory. The bytes read from host memory come with the command,
none where host memory answers with an error or poison (R60; log entry 6). An item that runs while the port is down, or in
Deployed without IDE, ends CANCELLED (DESIGN CHOICE, log entry 26). -/
def hostCopyWork (host : Option (List Byte)) : ItemM Done := do
  payTail 8
  let e ← read
  let list ← pay 0 8
  let ent ← load (list + 32 * e.item) 32
  let addr := leAt ent 8 8
  let len := leAt ent 16 4
  require (decide (len % 64 = 0) && decide (len ≤ GiB) && decide (leAt ent 20 1 < 2) && zeroAt ent 21 11) stBad
  let s ← get
  require (s.host.up && s.host.released && !(s.ideRequired && !s.ideUp)) stCancelled
  if leAt ent 20 1 = 0 then
    checkWrite addr len
    match host with
    | none => stopWith stUncorrectable
    | some bs =>
      require (decide (bs.length = len)) stUncorrectable
      storeAt addr bs
      return done
  else
    let bs ← load addr len
    modify fun t => t.emit (.hostWrite (leAt ent 0 8) bs)
    return done

/-- HOST_COPY. -/
def execHostCopy (run item : Nat) (host : Option (List Byte)) (s : State) : Host.Outcome State Fault Refusal :=
  .next (s.runItem 0 3 (hostCopyWork host) run item)

/-- `BIAS_SET`: one region range asked for; the change waits for host accesses in flight (R37). In PCIe operation there
is no window (Table 2.2). A count of 0, an offset off its 2 MiB, or a range beyond the window ends the item BAD_DESCRIPTOR
(DESIGN CHOICE, log entry 74). -/
def biasSetWork : ItemM Done := do
  require (← get).host.cxl stBad
  payTail 13
  let off ← pay 0 8
  let n ← pay 8 4
  let e ← read
  let s ← get
  require (decide ((← pay 12 1) < 2) && decide (off % 2 ^ 21 = 0) && decide (n ≠ 0) &&
    decide (off + n * 2 ^ 21 ≤ s.fld cxlmemSizeSize * 2 ^ 32)) stBad
  let dev ← pay 12 1
  set { s with host := { s.host with biasChanges := s.host.biasChanges.filter (fun (c : BiasChange) => !(c.run == e.run && c.item == e.item)) ++
    [({ run := e.run, item := e.item, first := off / 2 ^ 21, count := n, device := decide (dev = 1) } : BiasChange)] } }
  throw .hold

/-- BIAS_SET. -/
def execBiasSet (run item : Nat) (s : State) : Host.Outcome State Fault Refusal := .next (s.runItem 0 4 biasSetWork run item)

/-- Regions of a change set to a bias. -/
def setBias (l : List Nat) (c : BiasChange) : List Nat :=
  let regions := (List.range c.count).map fun i => c.first + i
  let rest := l.filter fun r => !(decide (c.first ≤ r) && decide (r < c.first + c.count))
  if c.device then rest ++ regions else rest

/-- BIAS_CHANGE_EFFECT (R37): every host access in flight to the regions has completed; the change is made and its item
ends. -/
def State.biasEffect (s : State) (run item : Nat) : State :=
  match s.host.biasChanges.find? fun c => c.run == run && c.item == item with
  | none => s
  | some c =>
    let t : State := { s with host := { s.host with
      biasChanges := s.host.biasChanges.filter fun d => !(d.run == run && d.item == item)
      deviceBias := setBias s.host.deviceBias c } }
    (t.noteCycles run item 0).closeItem run item stOk 0

/-- BIAS_CHANGE_EFFECT. -/
def execBiasChangeEffect (run item : Nat) (s : State) : Host.Outcome State Fault Refusal := .next (s.biasEffect run item)

/-- The 256 bytes of an accounting block (Table 3.16). -/
def Account.bytes (a : Account) (cue : Nat) : List Byte :=
  leBytes 8 a.waitUs ++ leBytes 8 a.runs ++ leBytes 4 a.preemptions ++ leBytes 4 a.fallbacks ++ leBytes 4 a.overruns ++
    leBytes 4 a.spills ++ leBytes 4 a.misses ++ leBytes 4 a.steps ++ leBytes 8 cue ++ leBytes 16 0 ++
    ((List.range 32).flatMap fun i => leBytes 4 (cellGet 0 a.hist i)) ++ leBytes 64 0

/-- `ACCOUNT_READ`: a snapshot of one context's block. Any context may be read (log entry 23). -/
def accountReadWork : ItemM Done := do
  payZero 1 7
  payTail 16
  let c ← pay 0 1
  require (decide (c < 64)) stBad
  let s ← get
  store (← pay 8 8) ((s.account c).bytes s.cueNo)
  return done

/-- ACCOUNT_READ. -/
def execAccountRead (run item : Nat) (s : State) : Host.Outcome State Fault Refusal :=
  .next (s.runItem 0 5 accountReadWork run item)

/-- A context made runnable, with a zeroed accounting block (R60, R105). -/
def State.startContext (s : State) (c : Nat) : State :=
  { s with
    sched := { s.sched with runnable := addVal c s.sched.runnable, torn := dropVal c s.sched.torn }
    accounts := cellPut s.accounts c none }

/-- `CONTEXT_START` (R60, R385): refused for a context that is not enabled or whose teardown still runs (log entry 24). Its
authority is looked at before its reserved payload bits (DESIGN CHOICE, log entry 73). -/
def contextStartWork : ItemM Done := do
  requireManaged
  payTail 1
  let c ← pay 0 1
  require (decide (c < 64)) stBad
  let s ← get
  require (s.flag (ctxCtrlEn c) && !s.flag (ctxFabricTearing c)) stBad
  set (s.startContext c)
  return done

/-- CONTEXT_START. -/
def execContextStart (run item : Nat) (s : State) : Host.Outcome State Fault Refusal :=
  .next (s.runItem 0 6 contextStartWork run item)

end Sys2Proof.Machine
end

