-- ==== Sys2Proof/Machine/HostPort.lean ====
section
/-! DEFINITION. The host port: the CXL.mem window, its link, the setup aperture, half-register reads and the seal
(R32 to R41, R477, R485, R486, R511, R514). -/
namespace Sys2Proof.Machine

/- ## The window (R35 to R37) -/

/-- Key of device memory that a window offset maps to: inside `CXLMEM_SIZE`, in one valid segment, and populated here
(R35, R36; log entry 20). -/
def State.windowKey (s : State) (off len : Nat) : Option Nat :=
  let n := off / 2 ^ 32
  if off + len ≤ s.fld cxlmemSizeSize * 2 ^ 32 ∧ n < 64 ∧ off % 2 ^ 32 + len ≤ 2 ^ 32 then
    if s.flag (cxlmemSegValid n) then
      let t := s.fld (cxlmemSegTier n)
      let o := s.fld (cxlmemSegOffset n) * 2 ^ 32 + off % 2 ^ 32
      if s.populated t o len then some (t * 2 ^ 43 + o) else none
    else none
  else none

/-- A key of device memory is out of the host's reach: its tier is not served in Dark or Ghost light (R472), or its stack
is in a coppice (R23, R439). -/
def State.hostShut (s : State) (key : Nat) : Bool :=
  (s.powerState == 3) || (s.powerState == 2 && decide (key < 2 ^ 43)) || s.devShut key

/-- The window answers the host: CXL operation, link up, and in Deployed both IDE streams (R33, R468, R482). -/
def State.windowServes (s : State) : Bool :=
  s.host.cxl && s.host.released && s.host.up && !(s.ideRequired && !s.ideUp) && !s.boot.sealBlocked

/-- A host access to a region in device bias returns it to host bias and is counted (R37). DESIGN CHOICE (log entry 126): the
coherence requests over CXL.cache are left out. -/
def State.touchBias (s : State) (off : Nat) : State :=
  if s.host.deviceBias.contains (off / 2 ^ 21) then
    ({ s with host := { s.host with deviceBias := dropVal (off / 2 ^ 21) s.host.deviceBias } } : State).bump
      biasAutoflipCountCount
  else s

/-- Source of a host access in the memory error log (R36). -/
def State.hostSource (s : State) : ErrSource :=
  { source := 3, ctx := 0xFF, ring := 0, desc := 0, item := 0, requester := s.member }

/-- All-ones data with poison. -/
def allOnes (len : Nat) : Output := .hostRead (List.replicate len 0xFF) true

/-- A host read of device memory: data that cannot be corrected is returned with poison, left as it is and logged
(R36). -/
def State.hostReadDev (s : State) (key len : Nat) : State :=
  let (t, bs) := s.readMem s.hostSource key len
  t.emit (.hostRead (s.devRead key len) bs.isNone)

/-- A host write of device memory: one that covers part of an uncorrectable unit is discarded and logged (R36). -/
def State.hostWriteDev (s : State) (key : Nat) (bs : List Byte) : State :=
  if s.devPartBad key bs.length then
    s.partRefused s.hostSource key bs.length
  else s.devWrite key bs

/-- HOST_WINDOW_READ (R36, R37). -/
def State.windowRead (s : State) (off len : Nat) : State :=
  if !s.host.cxl || !s.host.released || !s.host.up then s
  else if !s.windowServes then s.emit (allOnes len)
  else
    match s.windowKey off len with
    | none => (s.bump cxlmemUnmappedCountCount).emit (allOnes len)
    | some k => if s.hostShut k then s.emit (allOnes len) else (s.touchBias off).hostReadDev k len

/-- HOST_WINDOW_WRITE (R36, R37). -/
def State.windowWrite (s : State) (off : Nat) (data : List Byte) : State :=
  if !s.windowServes then s
  else
    match s.windowKey off data.length with
    | none => s.bump cxlmemUnmappedCountCount
    | some k => if s.hostShut k then s else (s.touchBias off).hostWriteDev k data

/-- HOST_WINDOW_READ. -/
def execHostWindowRead (off len : Nat) (s : State) : Host.Outcome State Fault Refusal := .next (s.windowRead off len)

/-- HOST_WINDOW_WRITE. -/
def execHostWindowWrite (off : Nat) (data : List Byte) (s : State) : Host.Outcome State Fault Refusal :=
  .next (s.windowWrite off data)

/- ## The link (R38, R477) -/

/-- Enabled host-resident rings. -/
def State.hostRings (s : State) : List Nat :=
  (List.range 256).filter fun n => s.ringEnabled n && !s.ringDevice n

/-- Every enabled host-resident ring is halted by the loss of the host. -/
def State.haltHostRings (s : State) : State :=
  s.hostRings.foldl (fun u n => u.onRing n fun r => if r.state = 0 then { r with state := 1 } else r) s

/-- The port goes down (R38): host-resident rings halt until the next device reset, and their unstarted items end CANCELLED.
The IDE streams end with the link. -/
def State.linkDown (s : State) : State :=
  if !s.host.up then s
  else
    let t : State := ({ s with host := { s.host with up := false, lost := true, ide := [] } } : State).setFlag lcStatusIdeUp false
    let t := t.haltHostRings
    let t := t.cutItems (fun r => !t.ringDevice r.desc.ring) Item.isUnstarted stCancelled 0
    t.cutFetched (fun f => !t.ringDevice f.ring) stCancelled

/-- A width and a rate that the port trains at (R33). -/
def linkTrains (width rate : Nat) : Bool :=
  (width == 16 || width == 8 || width == 4) && (rate == 32 || rate == 16 || rate == 8)

/-- The port is up, at first or again, with the protocol, width and rate that training gave (R33); each halted
host-resident ring's status line is written once, with no vector (R38). -/
def State.linkUp (s : State) (cxl : Bool) (width rate : Nat) : State :=
  if s.host.up || !s.host.released || !s.boot.perstN || !linkTrains width rate then s
  else
    let t : State := { s with host := { s.host with up := true, cxl := cxl, width := width, rate := rate } }
    (t.hostRings.filter fun n => (t.ring n).state == 1).foldl (fun u n => u.putStatus n) t

/-- The CXL features that the port advertises (Table 2.1). -/
structure Dvsec where
  io : Bool
  cache : Bool
  mem : Bool
  /-- Bytes of the one memory range. -/
  rangeBytes : Nat
  multiLogical : Bool
  persistentFlows : Bool
  actsAsSwitch : Bool
  deriving DecidableEq, Repr

/-- The DVSEC capabilities: Type 2, with the window's size in its range, and no unsupported feature (R32, R35). Without the
CXL alternate protocol there are none (R33). -/
def State.dvsec (s : State) : Option Dvsec :=
  if s.host.cxl then
    some { io := true, cache := true, mem := true, rangeBytes := s.fld cxlmemSizeSize * 2 ^ 32, multiLogical := false,
           persistentFlows := false, actsAsSwitch := false }
  else none

/-- Memory ranges that the CDAT mailbox reports, base and bytes: the window, and none in PCIe endpoint operation
(Table 2.2). -/
def State.cdatRanges (s : State) : List (Nat × Nat) :=
  if s.host.cxl && decide (s.fld cxlmemSizeSize ≠ 0) then [(0, s.fld cxlmemSizeSize * 2 ^ 32)] else []

/-- HOST_LINK_DOWN. -/
def execHostLinkDown (s : State) : Host.Outcome State Fault Refusal := .next s.linkDown

/-- HOST_LINK_UP. -/
def execHostLinkUp (cxl : Bool) (width rate : Nat) (s : State) : Host.Outcome State Fault Refusal :=
  .next (s.linkUp cxl width rate)

/-- PERST_N_ASSERT (R477): low takes the host port down; after deassertion HOST_LINK_UP retrains it. -/
def execPerstNAssert (low : Bool) (s : State) : Host.Outcome State Fault Refusal :=
  .next (if low then
      ({ s with boot := { s.boot with perstN := false } } : State).linkDown
    else { s with boot := { s.boot with perstN := true } })

/- ## Seal checks (Table 2.3) -/

/-- Enabled rings in ascending order. -/
def State.enabledRings (s : State) : List Nat := (List.range 256).filter s.ringEnabled

/-- The first of a list that a check picks. -/
def firstBadOf (l : List Nat) (bad : Nat → Bool) : Option Nat := l.find? bad

/-- Check 0x01. -/
def State.badRingSize (s : State) (n : Nat) : Bool :=
  let a := s.fld (ringCtrlSqLog2 n)
  let b := s.fld (ringCtrlCqLog2 n)
  !(decide (4 ≤ a) && decide (a ≤ 16) && decide (9 ≤ b) && decide (b ≤ 20))

/-- Check 0x02. -/
def State.badRingAlign (s : State) (n : Nat) : Bool :=
  decide (s.reg (rRingSqBase n) % (128 * s.sqSize n) ≠ 0) || decide (s.reg (rRingCqBase n) % (32 * s.cqSize n) ≠ 0) ||
    decide (s.reg (rRingDbAddr n) % 64 ≠ 0) || decide (s.reg (rRingStatusAddr n) % 64 ≠ 0)

/-- Check 0x03: a lower-numbered enabled ring of the same residence has the same doorbell line, or the same status line;
the ring reported is the later one of the pair (log entry 22). -/
def State.badRingShared (s : State) (n : Nat) : Bool :=
  s.enabledRings.any fun m => decide (m < n) && (s.ringDevice m == s.ringDevice n) &&
    (s.reg (rRingDbAddr m) == s.reg (rRingDbAddr n) || s.reg (rRingStatusAddr m) == s.reg (rRingStatusAddr n))

/-- Check 0x04. -/
def State.badRingCtx (s : State) (n : Nat) : Bool := !s.flag (ctxCtrlEn (s.ringCtx n))

/-- Check 0x05. -/
def State.badRingTimeout (s : State) (n : Nat) : Bool :=
  s.fld (ringTimeoutDefaultTimeoutUs n) == 0 || s.fld (ringTimeoutFenceWaitCues n) == 0

/-- Check 0x06 holds. -/
def State.mgmtOk (s : State) : Bool :=
  let c := s.fld mgmtContextContext
  s.flag (ctxCtrlEn c) && s.enabledRings.any fun n => s.ringCtx n == c && s.flag (ringCtrlCtrlAllowed n)

/-- Valid segments with the piece each maps onto, in 4 GiB units over both tiers. -/
def State.segTargets (s : State) : List Nat :=
  ((List.range 64).filter fun n => s.flag (cxlmemSegValid n)).map fun n =>
    s.fld (cxlmemSegTier n) * 2 ^ 11 + s.fld (cxlmemSegOffset n)

/-- Check 0x07 holds (R35). -/
def State.segsOk (s : State) : Bool :=
  (s.segTargets.all fun x => s.populated (x / 2 ^ 11) (x % 2 ^ 11 * 2 ^ 32) (2 ^ 32)) && allDistinct s.segTargets

/-- Check 0x08: an address of a device-resident ring is not one of this member's HBM or LPDDR. -/
def State.badRingAddr (s : State) (n : Nat) : Bool :=
  s.ringDevice n &&
    ([rRingSqBase n, rRingCqBase n, rRingDbAddr n, rRingStatusAddr n].any fun o =>
      !(decide (s.reg o / 2 ^ 57 = 0) && s.isOwn (addrMember (s.reg o)) && decide (addrTier (s.reg o) < 2)))

/-- The failing seal check with the lowest code, and its ring or context (R40; log entry 22). -/
def State.sealCheck (s : State) : Option (Nat × Nat) :=
  let l := s.enabledRings
  let all := List.range 256
  match firstBadOf l s.badRingSize with
  | some n => some (1, n)
  | none =>
  match firstBadOf all s.badRingAlign with
  | some n => some (2, n)
  | none =>
  match firstBadOf l s.badRingShared with
  | some n => some (3, n)
  | none =>
  match firstBadOf l s.badRingCtx with
  | some n => some (4, n)
  | none =>
  match firstBadOf l s.badRingTimeout with
  | some n => some (5, n)
  | none =>
  if !s.mgmtOk then some (6, 0)
  else if !s.segsOk then some (7, 0)
  else
  match firstBadOf all s.badRingAddr with
  | some n => some (8, n)
  | none => none

/-- Offsets of every hardened register: those with an RWL field (R431). -/
def hardenedOffsets : List Nat :=
  (regRows.filter fun r => r.has .rwl).flatMap fun r => (List.range r.count).map fun i => r.base + r.stride * i

/-- The configuration image taken at the seal (R432): the value of every hardened register that is not at its reset
value; every other one is in the image at its reset value. -/
def State.takeImage (s : State) : State :=
  { s with regs := { s.regs with
      image := s.regs.vals.filter fun c =>
        match regRowAt c.1 with
        | some r => r.has .rwl
        | none => false
      imageHeld := true } }

/-- Enabled contexts. -/
def State.enabledCtxs (s : State) : List Nat := (List.range 64).filter fun c => s.flag (ctxCtrlEn c)

/-- What a seal that passes does (R40, R432, R486): sealed, phase 6, the image taken, every enabled context runnable with
a zeroed account and fabric generation 0, rings of a lost host halted (R38), and the doorbell lines read. Lines in host
memory come with DOORBELL_WAKE. -/
def State.sealed (s : State) : State :=
  let t := ((s.setFld sealStatusState 1).setFld sealStatusCheck 0).setFld sealStatusIndex 0
  let t := (t.setFld bootStatusPhase 6).takeImage
  let t := t.enabledCtxs.foldl (fun u c => u.setFld (ctxFabricGen c) 0) t
  let t : State := { t with
    sched := { t.sched with runnable := t.enabledCtxs, torn := [] }
    accounts := t.accounts.filter fun a => !t.enabledCtxs.contains a.1 }
  let t := if t.host.lost then t.haltHostRings else t
  (t.enabledRings.filter t.ringDevice).foldl (fun u n => u.wakeRing n (u.readLine n)) t

/-- A seal that a check refuses (R40). -/
def State.sealRefused (s : State) (code index : Nat) : State :=
  ((s.setFld sealStatusState 2).setFld sealStatusCheck code).setFld sealStatusIndex index

/-- Counter 0 raised to the running firmware's SVN at the first `SETUP_SEAL` write (Table 16.2). -/
def State.raiseFirmwareCounter (s : State) : State :=
  if s.sec.fwRaised then s
  else
    { s with
      sec := { s.sec with fwRaised := true }
      book := { s.book with
        counters := cellSet 0 s.book.counters 0 (min (max (cellGet 0 s.book.counters 0) s.sec.fwSvn) (2 ^ 32 - 1)) } }

/-- SETUP_SEAL as a write by any origin performs it (R39 to R41). A Retired part and one whose bring-up ended in ERROR
0x02 or 0x03 start no checks (R456, R482). While the stage manager is down the seal waits (R25). -/
def State.writeSeal (s : State) (key : Nat) : State :=
  if key ≠ 0x5EA15EA1 || s.isSealed then s
  else if !s.rel.smUp then s.smLater .seal
  else
    let t := s.raiseFirmwareCounter
    if t.boot.sealBlocked || t.fld lcStatusState == 4 then t
    else
      match t.sealCheck with
      | some (c, n) => t.sealRefused c n
      | none => t.sealed

/-- SETUP_SEAL, by the host. -/
def execSetupSeal (key : BitVec 32) (s : State) : Host.Outcome State Fault Refusal :=
  .next (if s.hostServes rSetupSeal then s.writeSeal key.toNat else s)

/- ## Host reads of registers (R511, R514) -/

/-- What the host reads at a 4-byte offset: the mailbox serves it, the aperture is read by its own command. -/
def State.hostLoad (s : State) (off n : Nat) : List Byte :=
  if 0x9000 ≤ off && off < 0xA000 then cellRead 0 s.regs.mbox (off - 0x9000) n else s.loadRegs off n

/-- A 4-byte host read (R511): of the lower half of a 64-bit register it latches the upper half, and of the upper half
it returns what is latched, once. -/
def State.halfRead (s : State) (off : Nat) : State :=
  if !s.hostServes off then s
  else if off % 4 ≠ 0 then s.emit (.hostRead (leBytes 4 0xFFFFFFFF) false)
  else if isWide off then
    let hi := s.readReg off 8 / 2 ^ 32
    ({ s with regs := { s.regs with latch := cellPut s.regs.latch off (some (BitVec.ofNat 32 hi)) } } : State).emit
      (.hostRead (leBytes 4 (s.readReg off 4)) false)
  else
    match cellFind (regBase off) s.regs.latch with
    | some h =>
      if regBase off ≠ off then
        ({ s with regs := { s.regs with latch := cellPut s.regs.latch (regBase off) none } } : State).emit
          (.hostRead (leBytes 4 h.toNat) false)
      else s.emit (.hostRead (s.hostLoad off 4) false)
    | none => s.emit (.hostRead (s.hostLoad off 4) false)

/-- REGISTER_HALF_READ. -/
def execRegisterHalfRead (off : Nat) (s : State) : Host.Outcome State Fault Refusal := .next (s.halfRead off)

/- ## The setup aperture (R485) -/

/-- Key that an aperture offset shows, none where the base is at an unpopulated offset or outside HBM and LPDDR. -/
def State.apertureKey (s : State) (off size : Nat) : Option Nat :=
  let b := s.reg rSetupApertureBase
  if decide (b / 2 ^ 57 = 0) && decide (addrTier b < 2) && s.populated (addrTier b) (addrOff b) 1 &&
      s.populated (addrTier b) (addrOff b + off) size then some (addrKey b + off) else none

/-- A naturally aligned access of 4, 8 or 64 bytes in the aperture (R485, R510). -/
def apertureSized (off size : Nat) : Bool :=
  (size == 4 || size == 8 || size == 64) && off % size == 0 && decide (off + size ≤ 0x100000)

/-- APERTURE_READ. -/
def State.apertureLoad (s : State) (off size : Nat) : State :=
  if !s.hostServes (0x100000 + off) then s
  else if !apertureSized off size then s.emit (.hostRead (List.replicate size 0xFF) false)
  else if s.isSealed then s.emit (.hostRead (List.replicate size 0) false)
  else
    match s.apertureKey off size with
    | none => s.emit (.hostRead (List.replicate size 0xFF) false)
    | some k => if s.hostShut k then s.emit (allOnes size) else s.hostReadDev k size

/-- APERTURE_WRITE. -/
def State.apertureStore (s : State) (off : Nat) (data : List Byte) : State :=
  if !s.hostServes (0x100000 + off) || s.isSealed || !apertureSized off data.length then s
  else
    match s.apertureKey off data.length with
    | none => s
    | some k => if s.hostShut k then s else s.hostWriteDev k data

/-- APERTURE_READ. -/
def execApertureRead (off size : Nat) (s : State) : Host.Outcome State Fault Refusal := .next (s.apertureLoad off size)

/-- APERTURE_WRITE: `size` bytes of data. -/
def execApertureWrite (off size : Nat) (data : List Byte) (s : State) : Host.Outcome State Fault Refusal :=
  .next (s.apertureStore off (data.take size))

end Sys2Proof.Machine
end

