-- ==== Sys2Proof/Machine/Admit.lean ====
section
/-! DEFINITION. Admission: engine groups, charges, budgets, allowances, claims and the monitor's predictions
(R86 to R102, R138, R310, R348). -/
namespace Sys2Proof.Machine

/- ## Groups and charges (R86, R87) -/

/-- Engine group that a descriptor is charged to (Table 3.8): 0 tiles, 1 moves, 2 flash, 3 decode, 4 encode, 5 ingest,
6 collectives; none for uncharged control work. -/
def groupOf (d : List Byte) : Option Nat :=
  let c := hdrClass d
  if c = 0 then (if hdrOp d = 3 || hdrOp d = 4 then some 1 else none)
  else if c ≤ 4 then some 0
  else if c = 5 || c = 0xA then some 1
  else if c = 6 then some 2
  else if c = 7 then some 3
  else if c = 8 then some 4
  else if c = 9 then some 5
  else if c = 0xB then some 6
  else none

/-- COST, with 256 cycles for a cost of 0 (R87). -/
def effCost (d : List Byte) : Nat := if hdrCost d = 0 then 256 else hdrCost d

/-- Charge of a fetched descriptor: its cost, or the part of it that a continuation runs (R87). -/
def Fetched.charge (f : Fetched) : Nat :=
  if f.continuation then ceilDiv (effCost f.bytes * f.todo.length) (hdrItems f.bytes + 1) else effCost f.bytes

/-- The cue period in force, µs: the member's own while it emits as master, else the emitter's, which a standby carries on
(R73, R78, R80). -/
def State.period (s : State) : Nat :=
  if s.fld cueStatusLock = 4 ∧ s.fld cueCtrlRole = 1 then s.fld cueCtrlPeriodUs else s.cue.periodUs

/-- Partition `p` is in service: neither drained nor in a coppice (R23, R267). -/
def State.partServes (s : State) (p : Nat) : Bool := !s.flag (stackTempDrained p) && !s.inCoppice p

/-- Budget of a group over one slot of `t` µs with the tile group given (Table 3.8). -/
def groupBudgets (t tiles : Nat) : List Nat :=
  [tiles, 16 * t * 1750, 16 * t * 1750, 32 * t * 1750, 8 * t * 1750, t * 1750, t * 1750]

/-- Whole group budgets at 1.75 GHz with all tiles in service (R87). -/
def State.wholeBudget (s : State) : List Nat := groupBudgets s.period (144 * s.period * 1750)

/-- Cycles of one tile of a partition in the slot that opens: none out of service (R86). -/
def State.tileShare (s : State) (p : Nat) : Nat := if s.partServes p then s.period * opMhz (s.fld (partOpEffective p)) else 0

/-- Tile budget of the slot that opens: partitions in service at their effective points, less the share of a tile taken for
a test outside an intermission (R445); none in Dark and Ghost light (R86, R472). -/
def State.tileBudget (s : State) : Nat :=
  if 2 ≤ s.powerState then 0
  else (List.range 8).foldl (fun (a : Nat) p => a + 18 * s.tileShare p) 0 - (match s.rel.testOut with
    | some t => s.tileShare (t / 18)
    | none => 0)

/-- An element of a list by group. -/
def grp (l : List Nat) (g : Nat) : Nat := l.getD g 0

/-- A list by group with one element lowered. -/
def takeGrp (l : List Nat) (g n : Nat) : List Nat := modifyAt (fun x => x - n) g l

/- ## Modes and contexts (R73, R92) -/

/-- This member's mode is blocking. -/
def State.blockingMode (s : State) : Bool := s.flag cueCtrlMode

/-- A deadline context (R92). -/
def State.deadlineCtx (s : State) (c : Nat) : Bool :=
  !s.blockingMode && s.fld (ctxSchedDeadlineCues c) != 0 && s.fld (ctxSchedSharePct c) != 0

/-- Enabled deadline contexts. -/
def State.deadlineCtxs (s : State) : List Nat := (List.range 64).filter fun c => s.flag (ctxCtrlEn c) && s.deadlineCtx c

/-- Sum of their shares. -/
def State.shareSum (s : State) : Nat := s.deadlineCtxs.foldl (fun a c => a + s.fld (ctxSchedSharePct c)) 0

/-- Share of a deadline context in percent, scaled down where the sum exceeds 100 (R92). -/
def State.share (s : State) (c : Nat) : Nat :=
  if 100 < s.shareSum then s.fld (ctxSchedSharePct c) * 100 / s.shareSum else s.fld (ctxSchedSharePct c)

/- ## The blocking table (R96 to R100) -/

/-- Position of a slot in the cycle (R97). -/
def State.slotPos (s : State) (c : Nat) : Nat := c % (if s.cue.blkCycle = 0 then 1 else s.cue.blkCycle)

/-- An entry covers a member and position (Table 3.13). -/
def blkCovers (e : Nat) (m pos : Nat) : Bool :=
  bit e 63 && decide (field e 0 12 ≤ m) && decide (m ≤ field e 12 12) && decide (field e 24 6 ≤ pos) &&
    decide (pos ≤ field e 30 6)

/-- Entries that cover this member in slot `c`. -/
def State.blkNow (s : State) (c : Nat) : List Nat :=
  (s.cue.blkEntries.map BitVec.toNat).filter fun e => blkCovers e s.member (s.slotPos c)

/-- Slot `c` is an intermission on this member (R101): in blocking mode, outside blocking hold, an intermission entry
covers it. -/
def State.isIntermission (s : State) (c : Nat) : Bool :=
  s.blockingMode && !s.cue.blkHold && (s.blkNow c).any fun e => bit e 51

/-- Context and ring that an entry grants, and its share (R100). -/
def blkCtx (e : Nat) : Nat := field e 36 6
def blkRing (e : Nat) : Option Nat := if bit e 50 then none else some (field e 42 8)
def blkShare (e : Nat) : Nat := field e 52 7

/-- The next slot grants a context and ring something (R100). -/
def State.grants (s : State) (c ctx ring : Nat) : Bool :=
  !s.cue.blkHold && (s.blkNow c).any fun e =>
    !bit e 51 && blkCtx e == ctx && (blkRing e).all fun r => r == ring

/- ## Allowances (R88, R92, R100) -/

/-- An allowance that a context's descriptor on a ring may draw on. -/
def Allowance.serves (a : Allowance) (ctx ring : Nat) : Bool := a.ctx == ctx && a.ring.all fun r => r == ring

/-- What is left of, and the whole of, the allowances of a context on a ring in a group. -/
def State.allowLeft (s : State) (ctx ring g : Nat) : Nat :=
  s.sched.allowances.foldl (fun n a => if a.serves ctx ring then n + grp a.left g else n) 0

def State.allowWhole (s : State) (ctx ring g : Nat) : Nat :=
  s.sched.allowances.foldl (fun n a => if a.serves ctx ring then n + grp a.whole g else n) 0

/-- A charge drawn from the allowances of a context on a ring: first from those of the ring alone, then from those of
every ring (log entry 25). -/
def drawAllow (ctx ring g : Nat) : List Allowance → Nat → List Allowance
  | [], _ => []
  | a :: t, n =>
    if a.serves ctx ring then
      { a with left := takeGrp a.left g n } :: drawAllow ctx ring g t (n - grp a.left g)
    else a :: drawAllow ctx ring g t n

/-- Allowances with those of one ring before those of every ring. -/
def sortAllow (l : List Allowance) : List Allowance := l.filter (fun a => a.ring.isSome) ++ l.filter fun a => a.ring.isNone

/-- A context has an allowance of its own in this slot: a reserve in deadline mode, a grant in blocking mode. -/
def State.hasAllowance (s : State) (ctx ring : Nat) : Bool := s.sched.allowances.any fun a => a.serves ctx ring

/-- Where admission draws a charge from now: the pooled budget, for best-effort contexts and for everyone after the
midpoint in deadline mode; otherwise the context's allowance (R92, R100). -/
def State.fromPool (s : State) (ctx : Nat) : Bool := !s.blockingMode && (s.sched.pastMid || !s.deadlineCtx ctx)

/-- What is left for a context on a ring in a group, and its whole for the slot. -/
def State.funds (s : State) (ctx ring g : Nat) : Nat × Nat :=
  if s.fromPool ctx then (grp s.sched.pool g, grp s.sched.poolWhole g)
  else (s.allowLeft ctx ring g, s.allowWhole ctx ring g)

/-- A charge taken from those funds. -/
def State.spend (s : State) (ctx ring g n : Nat) : State :=
  if s.fromPool ctx then { s with sched := { s.sched with pool := takeGrp s.sched.pool g n } }
  else { s with sched := { s.sched with allowances := drawAllow ctx ring g (sortAllow s.sched.allowances) n } }

/-- The charge that admission takes now, if the slot can pay (R88): the whole charge where the allowance covers it; the
whole allowance where the charge exceeds it, the descriptor stood ready at its ring head at the boundary, and the allowance
is untouched. -/
def State.affords (s : State) (f : Fetched) (g : Nat) : Option Nat :=
  let (left, whole) := s.funds (hdrCtx f.bytes) f.ring g
  if f.charge ≤ left then some f.charge
  else if whole < f.charge ∧ left = whole ∧ 0 < whole ∧ !s.sched.pastMid ∧ f.atEdge = some s.cueNo then some whole
  else none

/- ## Claims (R138, R310) -/

/-- Tile range of a payload, where its first two bytes are TILE_FIRST and TILE_SPAN and lie in one partition (R147). -/
def tileRange (d : List Byte) : List Nat :=
  let f := leAt d 32 1
  let n := leAt d 33 1
  if f + n < 144 ∧ f / 18 = (f + n) / 18 then (List.range (n + 1)).map fun i => f + i else []

/-- Engines of Table 5.1 that a descriptor claims on each of its tiles: 0 AL, 1 AR, 2 VX, 3 AT, 4 CV. -/
def claimsOf (d : List Byte) : List Nat :=
  let arr := match leAt d 34 1 % 4 with
    | 0 => [0, 1]
    | 1 => [0]
    | 2 => [1]
    | _ => []
  match hdrClass d, hdrOp d with
  | 1, 3 => [2]
  | 1, 4 => [0]
  | 1, _ => arr
  | 2, 0 => [3, 0, 1, 2]
  | 2, _ => [3]
  | 3, 6 => []
  | 3, _ => [2]
  | 4, 0 => 4 :: arr
  | 4, _ => [4]
  | _, _ => []

/-- Tiles that a descriptor claims. `FN_LOAD` claims none; `BIAS_LOAD` claims TILE_FIRST. -/
def tilesOf (d : List Byte) : List Nat :=
  if claimsOf d = [] then []
  else if hdrClass d = 2 && hdrOp d = 6 then (if leAt d 32 1 < 144 then [leAt d 32 1] else [])
  else tileRange d

/-- Claims are held in `Run.engines` as tile × 8 + claim. -/
def tileClaims (d : List Byte) : List Nat := (tilesOf d).flatMap fun t => (claimsOf d).map fun c => t * 8 + c

/-- A run still holds a tile's part of its claim: until its summary, or until the tile's own last item has ended (R138). -/
def Run.holdsTile (r : Run) (t : Nat) : Bool :=
  let own := r.items.filter fun x => r.tiles.getD (x.index % r.tiles.length) 1000 == t
  r.tiles.contains t && (own.isEmpty || own.any fun x => !x.hasEnded)

/-- The tile claims of a descriptor are free: no other run holds them and no self-test holds the tile (R138, R444). -/
def State.claimsFree (s : State) (d : List Byte) : Bool :=
  (tilesOf d).all fun t =>
    !s.rel.testing.contains t && s.rel.testOut != some t &&
      s.runs.all fun r => r.waiting || !(r.holdsTile t && (claimsOf d).any fun c => r.engines.contains (t * 8 + c))

/-- The tiles of a descriptor are in service (R23, R267). -/
def State.tilesServe (s : State) (d : List Byte) : Bool := (tilesOf d).all fun t => s.partServes (t / 18)

/-- An engine is being reset (R435). -/
def State.engineResetting (s : State) (e : Nat) : Bool :=
  s.rel.resetting.any fun (x, _) =>
    match x with
    | .decode n => n == e
    | .encode n => 32 + n == e
    | _ => false

/-- Engine that a codec run takes at its dispatch (R310): the named one, unless another run holds it, or the lowest idle
one; none where it must wait, for a run or a feed to release the engine (R348). -/
def State.codecEngine (s : State) (d : List Byte) : Option Nat :=
  let eng := leAt d 32 1
  if eng = 0xFF then
    (codecEngines (hdrClass d)).find? fun e => (s.engineHolder e).isNone && !s.engineResetting e
  else
    let e := if hdrClass d = 7 then eng else 32 + eng
    if (s.engineHolder e).isSome || s.engineResetting e then none else some e

/- ## Predictions (R94) -/

/-- Fetched descriptors waiting in every ring. -/
def State.waiting (s : State) : List Fetched := s.rings.flatMap fun (_, r) => r.fifo

/-- Charge of a waiting descriptor in a group, for the monitor: a failed fetch counts 256 tile cycles (R93, R94). -/
def Fetched.chargeIn (f : Fetched) (g : Nat) : Nat :=
  if f.verdict == some (stUncorrectable, 0) && f.noFence then (if g = 0 then 256 else 0)
  else if groupOf f.bytes = some g then f.charge else 0

/-- The waiting descriptors of a step. -/
def State.ownWaiting (s : State) (n : Nat) (m : StepMon) : List Fetched :=
  (s.ring n).fifo.filter fun f => f.owner.isNone && m.holds f.index

/-- Work of the context ahead of a step: descriptors fetched before its first that are not admitted, and every requeued
continuation, none of them the step's own or its fallback program's (R94). -/
def State.aheadOf (s : State) (n ctx : Nat) (m : StepMon) : List Fetched :=
  s.waiting.filter fun f =>
    hdrCtx f.bytes == ctx && !(f.ring == n && f.owner.isNone && m.holds f.index) &&
      !(m.choice == .fallback && f.owner == some n) && (f.continuation || decide (f.order < m.order))

/-- Sum of charges in a group. -/
def chargeSum (l : List Fetched) (g : Nat) : Nat := l.foldl (fun a f => a + f.chargeIn g) 0

/-- Slots, counted from the present one, after which `w` cycles of work are paid for by what is left `a` and `r` a slot.
None: never. -/
def slotsFor (w a r : Nat) : Option Nat :=
  if w ≤ a then some 0 else if r = 0 then none else some (ceilDiv (w - a) r)

/-- The later of two predictions. -/
def laterOf (a b : Option Nat) : Option Nat :=
  match a, b with
  | some x, some y => some (max x y)
  | _, _ => none

/-- Work that a step has still to be admitted: its own, or its fallback program's (R94). -/
def State.stepWork (s : State) (n : Nat) (m : StepMon) : List Fetched :=
  if m.choice = .fallback then s.waiting.filter fun f => f.owner == some n else s.ownWaiting n m

/-- Prediction of a step whose own work is `own`, as slots from the present one (R94). -/
def State.predict (s : State) (n ctx : Nat) (m : StepMon) (own : List Fetched) : Option Nat :=
  let ahead := s.aheadOf n ctx m
  (List.range 7).foldl (fun acc g =>
    laterOf acc (slotsFor (chargeSum ahead g + chargeSum own g) (if s.sched.pastMid then 0 else s.allowLeft ctx n g)
      (grp s.sched.budget g * s.share ctx / 100))) (some 0)

/-- Deadline of a step: the slot before which its last summary must fall (R93). -/
def State.deadline (s : State) (n : Nat) (m : StepMon) : Nat := m.arrived + s.fld (ctxSchedDeadlineCues (s.ringCtx n))

/-- A prediction reaches or passes a deadline. -/
def State.late (s : State) (p : Option Nat) (d : Nat) : Bool :=
  match p with
  | none => true
  | some x => decide (d ≤ s.cueNo + x)

/-- One prediction is earlier than another. -/
def earlier (a b : Option Nat) : Bool :=
  match a, b with
  | some x, some y => decide (x < y)
  | some _, none => true
  | none, _ => false

/-- The step that a waiting descriptor of a ring belongs to. -/
def Ring.stepOf (r : Ring) (i : Word) : Option StepMon := r.steps.find? fun m => m.holds i

/-- A change to the step of a ring that begins with an index. -/
def Ring.onStep (r : Ring) (first : Word) (f : StepMon → StepMon) : Ring :=
  { r with steps := r.steps.map fun m => if m.first = first then f m else m }

end Sys2Proof.Machine
end

