-- ==== Sys2Proof/Machine/Flash.lean ====
section
/-! DEFINITION. The flash tier and the prompt book (R281 to R306, R452 to R455): logical tiles, program batches, the
hold-up check, class 0x06, map commits and maintenance. -/
namespace Sys2Proof.Machine

/- ## Windows and tiles (R284 to R286) -/

/-- Logical tile of a slot of a context's window, none where the slot is unpopulated (R285). -/
def State.flashTile (s : State) (ctx slot : Nat) : Option Nat :=
  let t := s.fld (ctxFlashBaseFirst ctx) + slot
  if slot < s.fld (ctxFlashSlotsSlots ctx) ∧ t < s.fld flashLogicalTilesTiles then some t else none

/-- Logical tiles of whole slots from an offset of the window. -/
def State.flashRange (s : State) (ctx off len : Nat) : Option (List Nat) :=
  if off % 65536 = 0 ∧ len % 65536 = 0 then
    (List.range (len / 65536)).mapM fun i => s.flashTile ctx (off / 65536 + i)
  else none

/-- A logical tile is mapped, and who owns it. -/
def State.tileOwner (s : State) (t : Nat) : Option Nat := cellFind t s.flash.owners

/-- Content of a logical tile: what was never programmed, or was trimmed, reads 0 (R286). -/
def State.tileBytes (s : State) (t : Nat) : List Byte := cellRead 0 s.flash.cells (65536 * t) 65536

/-- Bytes of logical tiles. -/
def State.flashBytes (s : State) (tiles : List Nat) : List Byte := tiles.flatMap s.tileBytes

/- ## Blocks (R282, R289 to R293) -/

/-- LUNs in use: those of the targets that are recorded, found and trained (R282). -/
def State.lunList (s : State) : List Nat := s.flash.targets.flatMap fun x => (List.range s.flash.geom.luns).map fun l => 8 * x + l

/-- LUN of a block, and its target. -/
def blockLun (b : Nat) : Nat := b / 2 ^ 21
def blockTarget (b : Nat) : Nat := b / 2 ^ 24

/-- Blocks of a LUN. -/
def State.lunBlocks (s : State) (l : Nat) : List Nat := (List.range s.flash.geom.blocks).map fun i => l * 2 ^ 21 + i

/-- The block is good: neither marked at the factory, nor retired, nor of a dropped target (R282, R292). -/
def State.blockGood (s : State) (b : Nat) : Bool :=
  !s.flash.badFactory.contains b && !s.flash.badGrown.contains b && s.flash.targets.contains (blockTarget b)

/-- Units programmed in a block since its last erase, and its erase count. -/
def State.blockFilled (s : State) (b : Nat) : Nat := cellGet 0 s.flash.filled b
def State.blockErases (s : State) (b : Nat) : Nat := cellGet 0 s.flash.erases b

/-- Free blocks of a LUN. -/
def State.freeIn (s : State) (l : Nat) : List Nat := (s.lunBlocks l).filter fun b => s.blockGood b && s.blockFilled b == 0

/-- Free blocks of all LUNs (Table 10.7). -/
def State.freeBlocks (s : State) : Nat := s.lunList.foldl (fun (n : Nat) l => n + (s.freeIn l).length) 0

/-- Of a list of blocks the one with the lowest erase count, the first of equals. -/
def State.leastErased (s : State) (l : List Nat) : Option Nat :=
  l.foldl (fun b x =>
    match b with
    | none => some x
    | some y => if s.blockErases x < s.blockErases y then some x else some y) none

/-- Block of a LUN that its next program goes to: the good one it has begun to fill, else the free block with the lowest
erase count (R290). -/
def State.nextBlock (s : State) (l : Nat) : Option Nat :=
  match (s.lunBlocks l).find? fun b => s.blockGood b && decide (0 < s.blockFilled b) && decide (s.blockFilled b < s.flash.geom.units) &&
      !s.flash.queued.contains b && !s.flash.wanted.any (fun x => x.1 == b) with
  | some b => some b
  | none => s.leastErased (s.freeIn l)

/-- A unit of a block programmed. -/
def State.fillUnit (s : State) (b : Nat) : State :=
  { s with flash := { s.flash with filled := cellSet 0 s.flash.filled b (s.blockFilled b + 1) } }

/-- `FLASH_STATUS.LOW_FREE` as the free blocks have it: some LUN has fewer than 2 % of its blocks free (R293). -/
def State.showFree (s : State) : State :=
  s.setFlag flashStatusLowFree (s.lunList.any fun l => decide (50 * (s.freeIn l).length < s.flash.geom.blocks))

/-- A block for a program on a LUN, or on any LUN where that one has none; none where every LUN is full (R293). -/
def State.takeBlock (s : State) (l : Nat) : Option Nat := (l :: s.lunList).findSome? s.nextBlock

/-- Programs whose batch has passed and that have no block get one, as far as blocks are free. -/
def State.placePrograms (s : State) : State :=
  s.flash.programs.zipIdx.foldl (fun (t : State) (p, i) =>
    if p.passed && p.block.isNone then
      match t.takeBlock p.lun with
      | some b => (({ t with flash := { t.flash with programs := modifyAt (fun q => { q with block := some b }) i t.flash.programs } } :
          State).fillUnit b).showFree
      | none => t
    else t) s

/-- Tiles mapped to a block. -/
def State.blockTiles (s : State) (b : Nat) : List Nat := (s.flash.places.filter fun x => x.2 == b).map Prod.fst

/-- Block of a tile. -/
def State.flashBlock (s : State) (t : Nat) : Nat := cellGet 0 s.flash.places t

/-- Codewords of a tile that cannot be read: those that stay uncorrectable, or all of them where its target was dropped
(R282, R292). -/
def State.tileBad (s : State) (t : Nat) : List Nat :=
  if (cellFind t s.flash.places).any fun b => !s.flash.targets.contains (blockTarget b) then List.range 16
  else (List.range 16).filter fun i => s.flash.badWords.contains (16 * t + i)

/- ## The hold-up check (R294 to R297) -/

/-- Tile programs queued or in flight on a LUN, with those already chosen for a batch. -/
def lunLoad (chosen : List Nat) (progs : List Program) (n : Nat) : Nat :=
  (progs.filter fun p => p.passed && p.lun == n).length + (chosen.filter fun x => x == n).length

/-- LUNs for `k` programs: each goes to the LUN with the fewest queued (R296; log entry 38). -/
def State.chooseLuns (s : State) : Nat → List Nat
  | 0 => []
  | k + 1 =>
    let c := s.chooseLuns k
    let load := lunLoad c s.flash.programs
    c ++ [s.lunList.foldl (fun b n => if load n < load b then n else b) (s.lunList.headD 0)]

/-- D of R296 once `k` more programs are queued. -/
def State.lunDepth (s : State) (k : Nat) : Nat :=
  let c := s.chooseLuns k
  s.lunList.foldl (fun m n => max m (lunLoad c s.flash.programs n)) 0

/-- E_avail in µJ (R296). -/
def State.eAvail (s : State) : Nat :=
  let v := if s.flag holdupStatusStale then 0 else s.fld holdupStatusVMv
  let m := s.fld holdupVminVminMv
  if m < v then s.fld holdupCapCapUf * (v * v - m * m) / 2000000 else 0

/-- E_need in µJ of a depth (R296). -/
def State.eNeed (s : State) (d : Nat) : Nat := s.fld holdupParamPHoldW * (400 + s.fld holdupParamTProgUs * d)

/-- The hold-up check of a batch with `k` tile programs (R296, R298). A bank of 0 µF passes no batch. -/
def State.batchPasses (s : State) (k : Nat) : Bool :=
  !s.flash.failing && s.fld holdupCapCapUf != 0 && decide (5 * s.eNeed (s.lunDepth k) ≤ 4 * s.eAvail)

/-- A deferred batch counted. -/
def State.countDeferred (s : State) : State := s.bump holdupDeferredCount

/- ## Maintenance (R290 to R294) -/

/-- A block retired as grown bad; it is erased no more. -/
def State.retireBlock (s : State) (b : Nat) : State :=
  ({ s with flash := { s.flash with
      badGrown := addVal b s.flash.badGrown
      queued := dropVal b s.flash.queued
      candidates := dropVal b s.flash.candidates } } : State).showFree

/-- Tiles moved to new blocks, each to the LUN with the fewest programs; none where some tile finds no free block. -/
def State.moveTiles (s : State) (tiles : List Nat) : Option State :=
  tiles.foldl (fun (o : Option State) x =>
    o.bind fun t => (t.takeBlock ((t.chooseLuns 1).headD 0)).map fun b =>
      (({ t with flash := { t.flash with
          places := cellPut t.flash.places x (some b)
          softWords := t.flash.softWords.filter fun w => w / 16 != x } } : State).fillUnit b).showFree) (some s)

/-- The valid tiles of a block that can be read and so relocated (R292). -/
def State.movable (s : State) (b : Nat) : List Nat := (s.blockTiles b).filter fun x => (s.tileBad x).isEmpty

/-- A block whose tiles have been relocated: it is queued for erase unless it is retired or still holds a tile. -/
def State.vacated (s : State) (b : Nat) : State :=
  let due := s.flash.wanted.any fun x => x.1 == b && x.2
  { s with flash := { s.flash with
      wanted := s.flash.wanted.filter fun x => x.1 != b
      queued := if (s.blockTiles b).isEmpty && s.blockGood b then addVal b s.flash.queued else s.flash.queued
      relocDisturb := if due then satAdd 32 s.flash.relocDisturb 1 else s.flash.relocDisturb } }

/-- The relocation of a block's tiles; none where it must wait for a free block. -/
def State.relocate (s : State) (b : Nat) : Option State := (s.moveTiles (s.movable b)).map fun t => t.vacated b

/-- What the stage manager's reads of a block meet: codewords that from now on decode softly or not at all (R283). -/
def State.noteDecodes (s : State) (b : Nat) (found : List (Nat × Decode)) : State :=
  let mine := found.filter fun x => (cellFind (x.1 / 16) s.flash.places).any fun c => c == b
  let bad := (mine.filter fun x => x.2 == .fails && !s.flash.badWords.contains x.1).map Prod.fst
  let soft := (mine.filter fun x => x.2 == .soft).map Prod.fst
  { s with flash := { s.flash with
      badWords := bad.foldl (fun l w => addVal w l) s.flash.badWords
      softWords := soft.foldl (fun l w => addVal w l) s.flash.softWords
      uncorrectable := satAdd 32 s.flash.uncorrectable bad.length
      candidates := if bad.isEmpty then s.flash.candidates else addVal b s.flash.candidates } }

/-- The good blocks of a LUN differ by more than 256 erases: the block with the lowest count that holds tiles, and the free
block with the highest count (R290). -/
def State.levelPair (s : State) (l : Nat) : Option (Nat × Nat) :=
  let good := (s.lunBlocks l).filter s.blockGood
  let top := good.foldl (fun n b => max n (s.blockErases b)) 0
  let high := (s.freeIn l).foldl (fun (o : Option Nat) b =>
    match o with
    | none => some b
    | some c => if s.blockErases c < s.blockErases b then some b else some c) none
  match s.leastErased good, high with
  | some x, some y => if 256 < top - s.blockErases x ∧ !(s.movable x).isEmpty then some (x, y) else none
  | _, _ => none

/-- Tiles of a block moved to one given free block, which holds as many. -/
def State.levelMove (s : State) (b c : Nat) : State :=
  let l := s.movable b
  (({ s with flash := { s.flash with
      places := l.foldl (fun p x => cellPut p x (some c)) s.flash.places
      softWords := s.flash.softWords.filter fun w => !l.contains (w / 16)
      filled := cellSet 0 s.flash.filled c l.length } } : State).vacated b).showFree

/-- Tile programs of a piece of work. -/
def State.workPrograms (s : State) : FlashWork → Nat
  | .collect b _ => (s.movable b).length
  | .relocate b => (s.movable b).length
  | .level l => ((s.levelPair l).map fun x => (s.movable x.1).length).getD 0
  | .checkpoint n => n
  | _ => 0

/-- The work is one that can be done now: a block to relocate or erase is one that the rules name. -/
def State.workStands (s : State) : FlashWork → Bool
  | .collect b _ => s.blockGood b && decide (0 < s.blockFilled b) && !s.flash.queued.contains b
  | .relocate b => s.flash.wanted.any fun x => x.1 == b
  | .level l => (s.levelPair l).isSome
  | .erase b _ _ => s.flash.queued.contains b && (s.blockTiles b).isEmpty
  | .programFail b => s.flash.programs.any fun p => p.block == some b
  | .journal => true
  | .checkpoint _ => true

/-- A queued block erased: retired where the erase fails, where a retirement candidate fails its verify, or at its endurance
(R290, R292). -/
def State.eraseBlock (s : State) (b : Nat) (ok verified : Bool) : State :=
  if !ok || (s.flash.candidates.contains b && !verified) then s.retireBlock b
  else
    let n := s.blockErases b + 1
    let t : State := { s with flash := { s.flash with
      erases := cellSet 0 s.flash.erases b n
      reads := cellPut s.flash.reads b none
      filled := cellPut s.flash.filled b none
      queued := dropVal b s.flash.queued
      candidates := dropVal b s.flash.candidates } }
    if s.flash.geom.endurance ≤ n then t.retireBlock b else t.showFree.placePrograms

/-- A program failure: the tile is rewritten to another block from the staging copy, and the block is retired and its other
tiles are to be relocated (R292). -/
def State.failProgram (s : State) (b : Nat) : State :=
  let t := ({ s with flash := { s.flash with
    progFail := satAdd 32 s.flash.progFail 1
    programs := s.flash.programs.map fun p => if p.block = some b then { p with block := none } else p
    wanted := if s.flash.wanted.any (fun x => x.1 == b) then s.flash.wanted else s.flash.wanted ++ [(b, false)] } } : State).retireBlock b
  t.placePrograms

/-- Work of the translation layer done, its batch having passed; none where it waits for a free block. -/
def State.flashWork (s : State) (w : FlashWork) : Option State :=
  match w with
  | .collect b found => (s.noteDecodes b found).relocate b
  | .relocate b => s.relocate b
  | .level l => some (match s.levelPair l with
    | some (b, c) => s.levelMove b c
    | none => s)
  | .erase b ok v => some (s.eraseBlock b ok v)
  | .programFail b => some (s.failProgram b)
  | .journal => some s
  | .checkpoint _ => some s

/-- The work needs the hold-up check: it programs or erases (R294). A program failure is met inside a batch. -/
def workBatch : FlashWork → Bool
  | .programFail _ => false
  | _ => true

/-- Work put off to a later cue boundary. -/
def State.deferWork (s : State) (w : FlashWork) : State :=
  { s with flash := { s.flash with deferred := if s.flash.deferred.contains w then s.flash.deferred else s.flash.deferred ++ [w] } }

/-- A batch of the stage manager: one that fails the check, finds no free block, or meets a stage manager that is down or
Ghost light, is deferred and tried again at each boundary (R25, R293, R297, R433, Table 16.12). -/
def State.maintain (s : State) (w : FlashWork) : State :=
  if !s.flag flashStatusReady || !s.workStands w then s
  else if workBatch w && (!s.rel.smUp || s.powerState == 3) then s.deferWork w
  else if workBatch w && !s.batchPasses (s.workPrograms w) then (s.deferWork w).countDeferred
  else (s.flashWork w).getD (s.deferWork w)

/-- A block's tiles are to be relocated, for R291 where `disturb`: the stage manager's batch is tried at once. -/
def State.wantBlock (s : State) (b : Nat) (disturb : Bool) : State :=
  if s.flash.wanted.any (fun x => x.1 == b) || s.flash.queued.contains b || !s.blockGood b then s
  else ({ s with flash := { s.flash with wanted := s.flash.wanted ++ [(b, disturb)] } } : State).maintain (.relocate b)

/-- What follows an erase or a program failure: levelling of the block's LUN, and the relocation of a retired block. -/
def State.afterWork (s : State) (w : FlashWork) : State :=
  match w with
  | .erase b _ _ => s.maintain (.level (blockLun b))
  | .programFail b => s.maintain (.relocate b)
  | _ => s

/-- FLASH_MAINTENANCE. -/
def execFlashMaintenance (work : FlashWork) (s : State) : Host.Outcome State Fault Refusal :=
  .next ((s.maintain work).afterWork work)

/-- Deferred stage manager batches tried again at a boundary (R297). -/
def State.retryBatches (s : State) : State :=
  s.flash.deferred.foldl State.maintain { s with flash := { s.flash with deferred := [] } }

/- ## Reads (R283, R286, R291, R292) -/

/-- A read of a tile: counted at its block, which is to be relocated once it reaches the limit or where decoding was soft
(R291); a codeword that cannot be read is counted, and makes the block a retirement candidate whose other tiles are to
be relocated (R283, R292). A tile that is not mapped is read from no block. -/
def State.flashCount (s : State) (t : Nat) : State :=
  match cellFind t s.flash.places with
  | none => s
  | some b =>
    let n := cellGet 0 s.flash.reads b + 1
    let bad := (s.tileBad t).length
    let u : State := { s with flash := { s.flash with
      reads := cellSet 0 s.flash.reads b n
      uncorrectable := satAdd 32 s.flash.uncorrectable bad
      candidates := if bad = 0 then s.flash.candidates else addVal b s.flash.candidates } }
    let soft := s.flash.softWords.any fun w => w / 16 == t
    if soft || decide (s.flash.geom.readLimit ≤ n) then u.wantBlock b true
    else if bad ≠ 0 then u.wantBlock b false
    else u

/-- A read of whole tiles by an item: the bytes before the first codeword that cannot be read, and whether there is one
(R277). It waits until the tier is ready (R483); while power fails or the interface is quiesced it is abandoned
(R298). -/
def flashLoad (tiles : List Nat) : ItemM (List Byte × Bool) := do
  let s ← get
  require (!s.flash.failing && !s.flag flashStatusQuiesced) stCancelled
  if !s.flag flashStatusReady then throw .hold
  let good := tiles.takeWhile fun t => (s.tileBad t).isEmpty
  match tiles.drop good.length with
  | [] =>
    set (tiles.foldl State.flashCount s)
    return (s.flashBytes tiles, false)
  | x :: _ =>
    set ((good ++ [x]).foldl State.flashCount s)
    return (s.flashBytes good ++ (s.tileBytes x).take (4096 * (s.tileBad x).headD 0), true)

/- ## Program batches of items (R287, R288, R294 to R297) -/

/-- Tiles of a list that would be charged to a context: unmapped, and not already in a program of its (R287). -/
def State.newTiles (s : State) (ctx : Nat) (tiles : List Nat) : Nat :=
  (tiles.filter fun t => (s.tileOwner t).isNone && !s.flash.programs.any fun p => p.tile == t && p.ctx == ctx).eraseDups.length

/-- Unmapped tiles that a context's programs may come to map. -/
def State.pendingTiles (s : State) (ctx : Nat) : Nat :=
  (((s.flash.programs.filter fun p => p.ctx == ctx && (s.tileOwner p.tile).isNone).map fun p => p.tile).eraseDups).length

/-- The flash quota allows a context to program tiles (R287). -/
def State.flashQuota (s : State) (ctx : Nat) (tiles : List Nat) : Bool :=
  decide (s.fld (ctxUseFlashTiles ctx) + s.pendingTiles ctx + s.newTiles ctx tiles ≤ s.fld (ctxQuotaFlashTiles ctx))

/-- Programs of an item entered for its batch. -/
def State.enterPrograms (s : State) (run item ctx : Nat) (tiles : List Nat) : State :=
  { s with flash := { s.flash with programs := s.flash.programs ++ tiles.map fun t =>
      ({ run := run, item := item, ctx := ctx, tile := t } : Program) } }

/-- Programs of a run that `p` picks pass with their batch: each gets its LUN, and a block if one is free (R294). -/
def State.passPrograms (s : State) (p : Program → Bool) : State :=
  let luns := s.chooseLuns (s.flash.programs.filter p).length
  ({ s with flash := { s.flash with
      programs := (s.flash.programs.foldl (fun (x : List Program × Nat) g =>
        if p g then (x.1 ++ [{ g with passed := true, lun := luns.getD x.2 0 }], x.2 + 1) else (x.1 ++ [g], x.2)) ([], 0)).1 } } :
    State).placePrograms

/-- The data of an item's programs. -/
def State.giveData (s : State) (run item : Nat) (data : List Byte) : State :=
  { s with flash := { s.flash with
      programs := (s.flash.programs.foldl (fun (x : List Program × Nat) g =>
        if g.run = run ∧ g.item = item then (x.1 ++ [{ g with data := some ((data.drop (65536 * x.2)).take 65536) }], x.2 + 1)
        else (x.1 ++ [g], x.2)) ([], 0)).1 } }

/-- One program's map commit (R286, R287): the tile takes its new content, is charged if it was unmapped, and is
correct. -/
def State.commitProgram (s : State) (p : Program) : State :=
  let t := if (s.tileOwner p.tile).isNone then s.bump (ctxUseFlashTiles p.ctx) else s
  let own := match s.tileOwner p.tile with
    | some c => c
    | none => p.ctx
  { t with
    flash := { t.flash with
      cells := cellWrite 0 t.flash.cells (65536 * p.tile) (p.data.getD [])
      owners := cellPut t.flash.owners p.tile (some own)
      badWords := t.flash.badWords.filter fun w => w / 16 != p.tile
      softWords := t.flash.softWords.filter fun w => w / 16 != p.tile
      places := cellPut t.flash.places p.tile p.block } }

/-- One tile unmapped and uncharged (R287). -/
def State.unmapTile (s : State) (t : Nat) : State :=
  match s.tileOwner t with
  | none => s
  | some c =>
    let u := s.setFld (ctxUseFlashTiles c) (s.fld (ctxUseFlashTiles c) - 1)
    { u with flash := { u.flash with
        cells := cellClear u.flash.cells (65536 * t) 65536
        owners := cellPut u.flash.owners t none
        badWords := u.flash.badWords.filter fun w => w / 16 != t
        softWords := u.flash.softWords.filter fun w => w / 16 != t
        places := cellPut u.flash.places t none } }

/-- Run number under which a tile programmed by another member waits for its commit. -/
def remoteRun (id : Nat) : Nat := 2 ^ 64 + id

/-- Packets of a tile that another member programmed, acknowledged at its commit. -/
def State.ackInbound (s : State) (run : Nat) : State :=
  let l := s.flash.inbound.filter fun x => remoteRun x.id == run
  let t : State := { s with flash := { s.flash with
    inbound := s.flash.inbound.filter fun x => remoteRun x.id != run } }
  l.foldl (fun u x => x.packets.foldl (fun v p => v.respond p ptWriteAck 0 []) u) t

/-- DETAIL of a move: 64-byte lines written (R277). -/
def moveLines (len : Nat) : Nat := len / 64

/-- FLASH_MAP_COMMIT (R288): the programs, or the trims, of an item are durable; the item completes. Programs that have no
block, no data or no batch yet are not. -/
def State.mapCommit (s : State) (run item : Nat) : State :=
  let ps := s.flash.programs.filter fun p => p.run == run && p.item == item
  let ts := s.flash.trims.filter fun (r, i, _, _) => r == run && i == item
  if (ps.isEmpty && ts.isEmpty) || ps.any fun p => p.block.isNone || p.data.isNone then s
  else
    let t : State := { s with flash := { s.flash with
      programs := s.flash.programs.filter fun p => !(p.run == run && p.item == item)
      trims := s.flash.trims.filter fun (r, i, _, _) => !(r == run && i == item) } }
    let t := ps.foldl State.commitProgram t
    let t := ts.foldl (fun u (_, _, a, n) => (List.range n).foldl (fun v k => v.unmapTile (a + k)) u) t
    let t := t.ackInbound run
    if ps.isEmpty then (t.noteCycles run item (64 + (ts.foldl (fun n (_, _, _, k) => n + k) 0) / 64)).closeItem run item stOk 0
    else (t.noteCycles run item (256 + 1024 * ps.length)).closeItem run item stOk (moveLines (65536 * ps.length))

/-- FLASH_MAP_COMMIT. -/
def execFlashMapCommit (run item : Nat) (s : State) : Host.Outcome State Fault Refusal := .next (s.mapCommit run item)

/-- The present item's stage. -/
def itemStage : ItemM Nat := do
  return match ← theItem with
    | some x => x.stage
    | none => 0

/-- An item that programs flash on this member: a trim, or a move whose destination lies in the flash window. Of such an item
stage 1 says that it has passed its checks, 2 that its batch has passed, 3 that it waits for its map commit. -/
def State.programsFlash (s : State) (r : Run) (i : Nat) : Bool :=
  let p := payloadOf r.desc.bytes
  let a := (leAt p 24 8 + i * leAt p 48 8) % 2 ^ 64
  (hdrClass r.desc.bytes == 6 && hdrOp r.desc.bytes == 0) ||
    (hdrClass r.desc.bytes == 5 && hdrOp r.desc.bytes == 2 && leAt p 32 1 == 0 && decide (addrTier a = 2) && s.isOwn (addrMember a))

/-- The items of a run that its batch waits for: they may still pass their checks. -/
def State.unchecked (s : State) (r : Run) : List Item :=
  r.items.filter fun x => !x.hasEnded && x.stage == 0 && s.programsFlash r x.index

/-- The items that form a run's batch: those that have passed their checks. -/
def Run.batch (r : Run) : List Nat := (r.items.filter fun x => !x.hasEnded && x.stage == 1).map fun x => x.index

/-- A batch deferred: counted, and its items end HOLDUP_LOW (R297). -/
def State.deferBatch (s : State) (run : Nat) (items : List Nat) : State :=
  items.foldl (fun t i => t.endEarly run i stHoldup 0) s.countDeferred

/-- A run's batch judged (R294, R296, R297): it passes, its programs are queued and its items go on, or it is deferred. -/
def State.judgeBatch (s : State) (run : Nat) (items : List Nat) : State :=
  let mine := fun (p : Program) => p.run == run && !p.passed
  if s.batchPasses (s.flash.programs.filter mine).length then
    items.foldl (fun t i => t.onItem run i fun x => { x with stage := 2 }) (s.passPrograms mine)
  else s.deferBatch run items

/-- The present item, its checks passed, joins its run's batch, which is judged once no other item has its checks before it.
The item goes on only where the batch has passed. Batches wait while the stage manager is down (R25, R433), and until the
tier is ready (R483). -/
def joinBatch (tiles : List Nat) : ItemM Unit := do
  let e ← read
  if (← itemStage) = 0 then
    modify fun s => s.enterPrograms e.run e.item e.ctx tiles
    modifyItem fun x => { x with stage := 1 }
  if (← itemStage) = 1 then
    let s ← get
    match s.findRun e.run with
    | none => throw .hold
    | some r =>
      if !s.rel.smUp || !s.flag flashStatusReady || !(s.unchecked r).isEmpty then throw .hold
      set (s.judgeBatch e.run r.batch)
      if (← itemStage) ≠ 2 then throw .hold

/- ## FL_TRIM and FL_HEALTH (R300, R301) -/

/-- Tiles of entry `i` of a trim list, none for a run that leaves the window. -/
def trimRange (s : State) (ctx e : Nat) : Option (Nat × Nat) :=
  let first := field e 0 27
  let n := field e 27 27
  if e / 2 ^ 54 = 0 ∧ n ≠ 0 ∧ (s.flashTile ctx first).isSome ∧ (s.flashTile ctx (first + n - 1)).isSome then
    some (s.fld (ctxFlashBaseFirst ctx) + first, n)
  else none

/-- The work of `FL_TRIM`. -/
def flTrimWork : ItemM Done := do
  payTail 8
  let e ← read
  if (← itemStage) = 3 then throw .hold
  let list ← pay 0 8
  require (decide (list % 8 = 0)) stBad
  let ent ← once 0 do return [← loadNat (list + 8 * e.item) 8]
  match trimRange (← get) e.ctx (ent.headD 0) with
  | none => stopWith stBad
  | some (a, n) =>
    joinBatch []
    modify fun s => { s with flash := { s.flash with trims := s.flash.trims ++ [(e.run, e.item, a, n)] } }
    modifyItem fun x => { x with stage := 3 }
    throw .hold

/-- FL_TRIM. -/
def execFlTrim (run item : Nat) (s : State) : Host.Outcome State Fault Refusal := .next (s.runItem 6 0 flTrimWork run item)

/-- Lowest and highest erase counts among good blocks (Table 10.7). -/
def State.goodErases (s : State) : List Nat := (s.lunList.flatMap s.lunBlocks).filterMap fun b => if s.blockGood b then some (s.blockErases b) else none
def State.eraseMin (s : State) : Nat := s.goodErases.foldl min (s.goodErases.headD 0)
def State.eraseMax (s : State) : Nat := s.goodErases.foldl max 0

/-- Blocks counted as bad since the format: retired ones, and those of dropped targets (R282, Table 10.7). -/
def State.grownBad (s : State) : Nat :=
  s.flash.badGrown.length +
    (s.flash.geom.recorded.filter fun x => !s.flash.targets.contains x).length * s.flash.geom.luns * s.flash.geom.blocks

/-- The health block (Table 10.7). -/
def State.healthBlock (s : State) : List Byte :=
  let f := s.flash
  leBytes 4 (s.fld flashLogicalTilesTiles) ++ leBytes 4 f.owners.length ++ leBytes 4 s.freeBlocks ++
    leBytes 4 f.badFactory.length ++ leBytes 4 s.grownBad ++ leBytes 2 s.eraseMin ++ leBytes 2 s.eraseMax ++
    leBytes 4 f.relocDisturb ++ leBytes 4 f.progFail ++ leBytes 4 f.uncorrectable ++ leBytes 4 (s.fld holdupDeferredCount) ++
    leBytes 8 s.cueNo ++ leBytes 16 0

/-- The work of `FL_HEALTH`. -/
def flHealthWork : ItemM Done := do
  payTail 8
  let a ← pay 0 8
  require (decide (a % 64 = 0) && decide ((← read).count = 1)) stBad
  store a (← get).healthBlock
  return done stOk 0 64

/-- FL_HEALTH. -/
def execFlHealth (run item : Nat) (s : State) : Host.Outcome State Fault Refusal := .next (s.runItem 6 1 flHealthWork run item)

/- ## Regions of the prompt book (R302 to R304) -/

/-- A region as the state holds it. -/
def State.pbRegion (s : State) (id : Nat) : PbRegion :=
  match s.book.regions.find? fun r => r.id == id with
  | some r => r
  | none => { id := id, copyA := [], copyB := [], currentB := false, seq := 0, badA := false, badB := false }

/-- Copy B is the one in use: a copy that fails its tag is treated as absent (R303). -/
def PbRegion.useB (r : PbRegion) : Bool := (r.currentB && !r.badB) || (!r.currentB && r.badA && !r.badB)

/-- Cells of the copy in use. -/
def PbRegion.current (r : PbRegion) : List Host.Cell := if r.useB then r.copyB else r.copyA

/-- An A/B region after the update of R304: the other copy holds the bytes and is current. -/
def PbRegion.update (r : PbRegion) (bs : List Byte) : PbRegion :=
  let cells := cellWrite 0 [] 0 bs
  if r.useB then { r with copyA := cells, badA := false, currentB := false, seq := r.seq + 1 }
  else { r with copyB := cells, badB := false, currentB := true, seq := r.seq + 1 }

def State.setRegion (s : State) (r : PbRegion) : State :=
  { s with book := { s.book with regions := s.book.regions.filter (fun x => x.id != r.id) ++ [r] } }

/-- The repair map in the book: that of the current copy (R15, R302). -/
def State.repairMap (s : State) : RepairMap := if (s.pbRegion 3).useB then s.book.repairB else s.book.repairA

/-- The repair map rewritten from the repairs in force: the copy that is not current takes it and becomes current (R304,
Table 15.5). -/
def State.saveRepairs (s : State) : State :=
  let m : RepairMap := { binding := s.rel.binding, repaired := s.rel.repaired, remapped := s.mem.remapped }
  let r := s.pbRegion 3
  let t : State := { s with book := (if r.useB then { s.book with repairA := m } else { s.book with repairB := m }) }
  t.setRegion (if r.useB then { r with badA := false, currentB := false, seq := r.seq + 1 }
    else { r with badB := false, currentB := true, seq := r.seq + 1 })

/-- A region rewritten by the stage manager. -/
def State.pbUpdate (s : State) (id : Nat) (bs : List Byte) : State := s.setRegion ((s.pbRegion id).update bs)

/-- Size of a region (Table 10.8). -/
def pbSize (id : Nat) : Nat := ([65536, 8388608, 262144, 262144, 4194304, 262144, 65536, 1048576] : List Nat).getD id 0

/-- Bytes of a readable region (Table 10.8): of region 0x05 its certificate part only. -/
def State.pbBytes (s : State) (id : Nat) : List Byte :=
  if id = 4 then (List.range 65536).flatMap fun i =>
    match cellFind i s.book.history with
    | some b => b
    | none => List.replicate 64 0
  else if id = 3 then
    let m := s.repairMap
    (Config.repairMapBytes m.binding (m.repaired.map fun (u : UnitId) => (u.kind, u.unit, u.sub)) m.remapped ++ List.replicate 262144 0).take 262144
  else if id = 5 then s.book.certificate
  else cellRead 0 (s.pbRegion id).current 0 (pbSize id)

/-- Counter `n` (R305). -/
def State.counter (s : State) (n : Nat) : Nat := cellGet 0 s.book.counters n

/-- A counter raised by increments, staying at its maximum (R305). -/
def State.raiseCounter (s : State) (n v : Nat) : State :=
  { s with book := { s.book with counters := cellSet 0 s.book.counters n (min (max (s.counter n) v) (2 ^ 32 - 1)) } }

/- ## Signed images (R452, R453) -/

/-- Lifecycle state. -/
def State.lifecycle (s : State) : Nat := s.fld lcStatusState

/-- Serial number of the unit. -/
def State.serial (s : State) : Nat := s.reg rIdSerial

/-- A key identifies its signer (check 2 of R453). -/
def State.signerKey (s : State) (signer : Nat) (key : List Byte) : Bool :=
  if signer = 1 then Config.sha384 key == Config.rootHash
  else signer == 2 && !s.book.ownerKey.isEmpty && key == s.book.ownerKey

/-- The signer may sign this type of image in the present state (check 2 of R453). -/
def State.signerAllowed (s : State) (type signer : Nat) : Bool :=
  s.lifecycle != 4 &&
    (if type = 1 then signer == 1 else if s.lifecycle ≤ 1 then signer == 1 else signer == 2)

/-- Result code of an image (Table 16.6): 0 where every check of R453 passes, in order. -/
def State.imageResult (s : State) (img : List Byte) (type : Nat) : Nat :=
  let len := leAt img 8 4
  let svn := leAt img 4 4
  let limit := if type = 1 then 8388608 else 262144
  let key := (img.drop 72).take 96
  if !(decide (320 ≤ img.length) && leAt img 0 2 == 1 && leAt img 2 1 == type && (leAt img 3 1 == 1 || leAt img 3 1 == 2) &&
      decide (len + 320 ≤ limit) && decide (len + 320 ≤ img.length) && zeroAt img 12 4 && zeroAt img 168 56 &&
      (img.drop 24).take 48 == Config.sha384 ((img.drop 320).take len)) then 6
  else if s.lifecycle = 4 then 4
  else if !(s.signerAllowed type (leAt img 3 1) && s.signerKey (leAt img 3 1) key) then 1
  else if !Config.ecdsaOk key (Config.sha384 (img.take 224)) ((img.drop 224).take 96) then 1
  else if !(leAt img 16 8 == 0 || leAt img 16 8 == s.serial) then 2
  else if !(decide (s.counter (type - 1) ≤ svn) && decide (svn ≤ s.counter (type - 1) + 64)) then 5
  else 0

/- ## PB_READ and PB_WRITE (R306) -/

/-- The fields and checks that both opcodes share: region, address, LEN. -/
def pbOperand : ItemM (Nat × Nat × Nat) := do
  requireManaged
  payZero 1 7
  payZero 20 76
  let id ← pay 0 1
  let a ← pay 8 8
  let len ← pay 16 4
  let s ← get
  if decide (a / 2 ^ 57 = 0) && decide (addrTier a = 3) then stopWith stNotAuth
  require (decide (a % 64 = 0) && decide ((← read).count = 1) && decide (a / 2 ^ 57 = 0) && s.isOwn (addrMember a) &&
    decide (addrTier a < 2)) stBad
  return (id, a, len)

/-- A prompt book item waits while another one runs before it, and while the stage manager, which alone reaches the book, is
down or has work of its own for it (R306, R433). -/
def bookFree : ItemM Unit := do
  let e ← read
  let s ← get
  let busy := s.runs.any fun r => decide (r.id < e.run) && !r.waiting && hdrClass r.desc.bytes == 6 &&
    (hdrOp r.desc.bytes == 2 || hdrOp r.desc.bytes == 3) && r.items.any Item.isRunning
  if busy || !s.rel.smUp then throw .hold

/-- The work of `PB_READ`. -/
def pbReadWork : ItemM Done := do
  let (id, a, len) ← pbOperand
  require ([2, 3, 4, 5, 6].contains id && decide (pbSize id ≤ len)) stBad
  bookFree
  let s ← get
  store a (s.pbBytes id)
  return done stOk ((s.pbRegion id).seq % 2 ^ 32) 64

/-- PB_READ. -/
def execPbRead (run item : Nat) (s : State) : Host.Outcome State Fault Refusal := .next (s.runItem 6 2 pbReadWork run item)

/-- The work of `PB_WRITE`: region 0x02 from a signed image; counter 1 is raised at step 3 of R304 (R454). -/
def pbWriteWork : ItemM Done := do
  let (id, a, len) ← pbOperand
  require (decide (id = 2) && decide (len ≤ 262144)) stBad
  bookFree
  let img ← load a len
  require (decide ((← get).imageResult img 2 = 0)) stNotAuth
  modify fun s => (s.pbUpdate 2 img).raiseCounter 1 (leAt img 4 4)
  return done stOk 0 64

/-- PB_WRITE. -/
def execPbWrite (run item : Nat) (s : State) : Host.Outcome State Fault Refusal := .next (s.runItem 6 3 pbWriteWork run item)

end Sys2Proof.Machine
end

