-- ==== Sys2Proof/Machine/Codec.lean ====
section
/-! DEFINITION. Video decode and encode (11_video_codec.md). What the video standards themselves define (parsing, sample
reconstruction, marking, coding of rows) is uninterpreted (log entry 42); streams, pools, support and geometry checks,
concealment, damage maps, post-processing, input conversion, rate control, the output ring and the statuses are here. -/
namespace Sys2Proof.Machine

/- ## Pictures -/

/-- Subsampling of chroma in each direction. -/
def chromaX (c : Nat) : Nat := if c = 0 then 1 else 2
def chromaY (c : Nat) : Nat := if c = 1 then 2 else 1

/-- One sample of a plane. -/
def smp (pl : List (List Nat)) (x y : Nat) : Nat := (pl.getD y []).getD x 0

/-- A coordinate clamped to `0 .. n - 1`. -/
def clampTo (v : Int) (n : Nat) : Nat := min (max v 0).toNat (n - 1)

/-- Width and height of plane `i`. -/
def planeSize (p : Picture) (i : Nat) : Nat × Nat :=
  if i = 0 then (p.width, p.height) else (ceilDiv p.width (chromaX p.chroma), ceilDiv p.height (chromaY p.chroma))

/-- 16 × 16 luma blocks across and down. -/
def blockCols (p : Picture) : Nat := ceilDiv p.width 16
def blockRows (p : Picture) : Nat := ceilDiv p.height 16

/-- Block that a sample of plane `i` belongs to. -/
def blockOf (p : Picture) (i x y : Nat) : Nat :=
  if i = 0 then y / 16 * blockCols p + x / 16
  else y * chromaY p.chroma / 16 * blockCols p + x * chromaX p.chroma / 16

/-- A mean that is exact where it divides, and otherwise rounded as the device rounds it (log entry 43). -/
def meanOf (n d : Nat) : Nat := if d = 0 then 0 else if n % d = 0 then n / d else n / d + Config.concealRound n d % 2

/- ## Concealment (R323, R324) -/

/-- Component-wise median of three, mean of two, the one, or zero, in sixteenths of a sample. -/
def medianOf (l : List Int) : Int :=
  match l with
  | [a, b, c] => 2 * max (min a b) (min (max a b) c)
  | [a, b] => a + b
  | [a] => 2 * a
  | _ => 0

/-- Sixteenths of a sample rounded to whole samples. -/
def wholeOf (v : Int) : Int :=
  if v % 16 < 8 then v / 16 else if v % 16 = 8 then v / 16 + ((Config.concealRound v.natAbs 16 % 2 : Nat) : Int) else v / 16 + 1

/- ## Errors and lost blocks (R321, R322) -/

/-- The error that a unit shows, by the parameter sets in force, the buffers that hold a reference, the addresses of the
picture, and the end of the unit before it (R321). -/
def unitFault (u : CodedUnit) (sets held : List Nat) (span prev : Nat) : Option SyntaxFault :=
  if u.sets.any fun k => !sets.contains k then some .parameterSet
  else if u.room < u.size then some .container
  else if u.addr < prev ∨ span < u.addr + u.count then some .addressOrder
  else if u.refs.any fun k => !held.contains k then some .missingReference
  else u.fails.map fun (step, _) => if step then .outOfStep else .forbiddenValue

/-- Blocks of a unit that are decoded: all of them, those before its error, or none where it cannot begin. -/
def unitDecoded (u : CodedUnit) : Option SyntaxFault → List Nat
  | none => u.blocks
  | some .outOfStep | some .forbiddenValue => u.blocks.take (u.fails.elim 0 Prod.snd)
  | some _ => []

/-- The blocks that a picture's units decode, one unit after another: what is left of a unit in error is abandoned, and with it
the dependent segments that follow it (R322). `broken` says that such a segment would follow a broken one. -/
def decodedBlocks (sets held : List Nat) (span : Nat) : Nat → Bool → List CodedUnit → List Nat
  | _, _, [] => []
  | prev, broken, u :: rest =>
    if !u.placed || (u.dependent && broken) then decodedBlocks sets held span prev (broken || !u.placed) rest
    else
      let f := unitFault u sets held span prev
      unitDecoded u f ++ decodedBlocks sets held span (if f = some .addressOrder then prev else max prev (u.addr + u.count)) f.isSome rest

/-- No slice of the picture can be placed: the whole of it is lost (R322). -/
def wholeLost (d : DecPic) : Bool := d.units.all fun u => !u.placed

/-- The lost blocks of a picture. -/
def lostBlocks (d : DecPic) (sets held : List Nat) : List Nat :=
  let good := decodedBlocks sets held d.span 0 false d.units
  (List.range (blockCols d.pic * blockRows d.pic)).filter fun b => !good.contains b

/-- Two fields woven into the rows of a frame (R307). -/
def weave (top bottom : List (List Nat)) : List (List Nat) := (top.zip bottom).flatMap fun (a, b) => [a, b]

/-- The picture as it is put out: a frame coded as two fields has them woven, in MPEG-2 and AVC. -/
def frameOf (d : DecPic) (codec : Nat) : Picture :=
  match d.fields with
  | some (t, b) => if codec < 2 then { d.pic with planes := List.zipWith weave t b } else d.pic
  | none => d.pic

/-- Vector at which a lost block is copied: from its left, above and above-right neighbours that were decoded and point
into the concealment reference. -/
def concealVector (d : DecPic) (lost : List Nat) (ref b : Nat) : Int × Int :=
  let cols := blockCols d.pic
  let near := (if b % cols = 0 then [] else [b - 1]) ++ (if b < cols then [] else [b - cols]) ++
    (if b < cols ∨ b % cols = cols - 1 then [] else [b - cols + 1])
  let vs := near.filterMap fun n =>
    if lost.contains n then none
    else match d.mvs.getD n none with
      | some (o, v) => if o = ref then some v else none
      | none => none
  (wholeOf (medianOf (vs.map Prod.fst)), wholeOf (medianOf (vs.map Prod.snd)))

/-- Source positions of a displacement in units of `s` luma samples: one, or the two it lies between. -/
def displaced (x v s : Int) : List Int := if v % s = 0 then [x + v / s] else [x + v / s, x + v / s + 1]

/-- One sample of a lost block copied from its concealment reference, with edge clamping. -/
def copySample (ref : Picture) (i x y : Nat) (v : Int × Int) : Nat :=
  let sx : Int := if i = 0 then 1 else (chromaX ref.chroma : Int)
  let sy : Int := if i = 0 then 1 else (chromaY ref.chroma : Int)
  let pl := ref.planes.getD i []
  let (w, h) := planeSize ref i
  let pts := (displaced y v.2 sy).flatMap fun yy => (displaced x v.1 sx).map fun xx => smp pl (clampTo xx w) (clampTo yy h)
  meanOf (pts.foldl (fun a b => a + b) 0) pts.length

/-- Nearest decoded samples above, below, left and right: distance and value. -/
def nearestDecoded (pic : Picture) (lost : List Nat) (i x y : Nat) : List (Nat × Nat) :=
  let (w, h) := planeSize pic i
  let pl := pic.planes.getD i []
  let good := fun (p : Nat × Nat) => !lost.contains (blockOf pic i p.1 p.2)
  let dirs := [(List.range y).reverse.map fun k => (x, k), (List.range (h - y - 1)).map fun k => (x, y + 1 + k),
    (List.range x).reverse.map fun k => (k, y), (List.range (w - x - 1)).map fun k => (x + 1 + k, y)]
  dirs.filterMap fun l => (l.find? good).map fun p => ((p.1 - x) + (x - p.1) + (p.2 - y) + (y - p.2), smp pl p.1 p.2)

/-- Inverse-distance-weighted mean, or mid-range where nothing was decoded. -/
def spatialSample (pic : Picture) (lost : List Nat) (i x y : Nat) : Nat :=
  let l := nearestDecoded pic lost i x y
  if l.isEmpty then 2 ^ (pic.depth - 1)
  else
    let prod := l.foldl (fun a p => a * p.1) 1
    meanOf (l.foldl (fun a p => a + p.2 * (prod / p.1)) 0) (l.foldl (fun a p => a + prod / p.1) 0)

/-- A mark that keeps a buffer's picture as a reference, short or long (Table 11.5). -/
def markRef (m : Nat) : Bool := decide (m % 4 ≠ 0)

/-- Buffers that hold a reference picture. -/
def heldRefs (marks : List (Nat × Nat)) : List Nat := (marks.filter fun x => markRef x.2).map Prod.fst

/-- The concealment reference of a picture among the pool's reference pictures, with its buffer: LAST_FRAME in AV1 if it is
held, else the one nearest below in output order. -/
def concealRef (codec : Nat) (bufs : List (Nat × Picture)) (marks : List (Nat × Nat)) (d : DecPic) : Option (Nat × Picture) :=
  if d.intra then none
  else
    let refs := bufs.filter fun x => (heldRefs marks).contains x.1 && !x.2.lost
    let near := (refs.filter fun x => decide (x.2.order < d.pic.order)).foldl (fun (a : Option (Nat × Picture)) x =>
      if a.all fun y => decide (y.2.order < x.2.order) then some x else a) none
    if codec = 3 then
      match d.last.bind fun k => refs.find? fun x => x.1 == k with
      | some x => some x
      | none => near
    else near

/-- A picture with its lost blocks concealed from a reference and its damage map (R323, R324). -/
def concealed (codec : Nat) (bufs : List (Nat × Picture)) (lost : List Nat) (ref : Option Picture) (d : DecPic) : Picture :=
  let pic := frameOf d codec
  let vecs := match ref with
    | some r => lost.map fun b => (b, concealVector d lost r.order b)
    | none => []
  let sample := fun (i x y v : Nat) =>
    let b := blockOf pic i x y
    if !lost.contains b then v
    else match ref with
      | some r => copySample r i x y (match cellFind b vecs with | some u => u | none => (0, 0))
      | none => spatialSample pic lost i x y
  let inherited := fun (b : Nat) => (d.reads.getD b []).any fun (k, rb) =>
    match cellFind k bufs with
    | some p => p.damage.getD rb 0 != 0
    | none => false
  { pic with
    planes := pic.planes.zipIdx.map fun (pl, i) => pl.zipIdx.map fun (row, y) => row.zipIdx.map fun (v, x) => sample i x y v
    damage := (List.range (blockCols pic * blockRows pic)).map fun b =>
      (if lost.contains b then (if ref.isSome then 3 else 5) else 0) + (if inherited b then 8 else 0)
    lost := wholeLost d }

/-- A damage map slot (R324). -/
def damageMap (p : Picture) (pictures : Nat) : List Byte :=
  leBytes 2 (blockCols p) ++ leBytes 2 (blockRows p) ++ leBytes 4 (p.damage.filter fun b => bit b 0).length ++
    leBytes 4 (p.damage.filter fun b => bit b 3).length ++ leBytes 4 pictures ++ p.damage.map (BitVec.ofNat 8)

/-- Damaged blocks of a picture. -/
def damagedOf (p : Picture) : Nat := (p.damage.filter fun b => b != 0).length

/- ## Post-processing (R325, R326) -/

/-- Post-processing fields of a payload or a feed block. -/
structure PostProc where
  pp : Nat
  fmt : Nat
  fx : Nat
  fy : Nat
  cropX : Nat
  cropY : Nat
  cropW : Nat
  cropH : Nat
  outW : Nat
  outH : Nat
  pitch : Nat
  deriving DecidableEq, Repr

/-- Channels of an output slot. -/
def PostProc.chans (c : PostProc) : Nat := if bit c.pp 4 then 1 else 3

/-- Bytes of an output slot. -/
def PostProc.slot (c : PostProc) : Nat := c.chans * c.outH * 64 * c.pitch

/-- The crop rectangle's size: 0 takes the whole direction. -/
def PostProc.cw (c : PostProc) (q : SeqHeader) : Nat := if c.cropW = 0 then q.cropW else c.cropW
def PostProc.ch (c : PostProc) (q : SeqHeader) : Nat := if c.cropH = 0 then q.cropH else c.cropH

/-- The geometry rules of R317, with a slot's stride. -/
def PostProc.fits (c : PostProc) (q : SeqHeader) (stride : Nat) : Bool :=
  decide (c.cropX + c.cw q ≤ q.cropW) && decide (c.cropY + c.ch q ≤ q.cropH) &&
    (q.chroma == 0 || (c.cropX % 2 == 0 && c.cropW % 2 == 0)) && (q.chroma != 1 || (c.cropY % 2 == 0 && c.cropH % 2 == 0)) &&
    decide (c.cw q = c.fx * c.outW) && decide (c.ch q = c.fy * c.outH) && decide (rowBytes c.fmt c.outW ≤ 64 * c.pitch) &&
    decide (c.slot ≤ stride)

/-- A decimal constant in FP32. -/
def ratio (a b : Nat) : FVal := fdiv (FVal.ofNat a) (FVal.ofNat b)

/-- Kr and Kb of a MATRIX code (R326). -/
def matrixK (m : Nat) : FVal × FVal :=
  if m = 1 then (ratio 299 1000, ratio 114 1000) else if m = 2 then (ratio 2126 10000, ratio 722 10000)
  else (ratio 2627 10000, ratio 593 10000)

/-- MATRIX code of a stream where the payload leaves it to the stream (R326). -/
def streamMatrix (q : SeqHeader) : Nat :=
  if q.matrix = 5 ∨ q.matrix = 6 then 1
  else if q.matrix = 9 then 3
  else if q.matrix = 2 then (if 720 ≤ q.height then 2 else 1)
  else 2

/-- Normalised luma and chroma of a sample (Table 11.9 inverted). -/
def normY (full : Bool) (b v : Nat) : FVal :=
  if full then fdiv (FVal.ofNat v) (FVal.ofNat (2 ^ b - 1))
  else fdiv (fsub (FVal.ofNat v) (FVal.ofNat (16 * 2 ^ (b - 8)))) (FVal.ofNat (219 * 2 ^ (b - 8)))

def normC (full : Bool) (b v : Nat) : FVal :=
  if full then fdiv (fsub (FVal.ofNat v) (FVal.ofNat (2 ^ (b - 1)))) (FVal.ofNat (2 ^ b - 1))
  else fdiv (fsub (FVal.ofNat v) (FVal.ofNat (128 * 2 ^ (b - 8)))) (FVal.ofNat (224 * 2 ^ (b - 8)))

/-- The two chroma samples that a luma position lies between in one direction, and its fraction: `x` luma samples from
the crop's edge, `s` the subsampling, `site` in half luma samples. -/
def between (x s site n : Nat) : Nat × Nat × FVal :=
  let t : Int := 2 * (x : Int) - (if s = 1 then 0 else (site : Int))
  let d : Int := 2 * (s : Int)
  (clampTo (t / d) n, clampTo (t / d + 1) n, fdiv (FVal.ofNat (t % d).toNat) (FVal.ofNat (2 * s)))

/-- The chroma siting: where the stream is silent, co-sited horizontally and centred vertically. -/
def sitingOf (q : SeqHeader) : Nat × Nat := q.site.getD (0, 1)

/-- Linear interpolation. -/
def lerp (a b f : FVal) : FVal := fadd (fmul a (fsub (FVal.ofNat 1) f)) (fmul b f)

/-- Chroma of one plane at a luma position of the crop, bilinear, with edge samples replicated (step 3). -/
def chromaAt (c : PostProc) (q : SeqHeader) (p : Picture) (i x y : Nat) : FVal :=
  if p.chroma = 0 then FVal.zero
  else
    let sx := chromaX p.chroma
    let sy := chromaY p.chroma
    let x0 := (q.cropX + c.cropX) / sx
    let y0 := (q.cropY + c.cropY) / sy
    let pl := p.planes.getD i []
    let v := fun (a b : Nat) => normC q.full p.depth (smp pl (x0 + a) (y0 + b))
    let (xa, xb, fx) := between x sx (sitingOf q).1 (ceilDiv (c.cw q) sx)
    let (ya, yb, fy) := between y sy (sitingOf q).2 (ceilDiv (c.ch q) sy)
    lerp (lerp (v xa ya) (v xb ya) fx) (lerp (v xa yb) (v xb yb) fx) fy

/-- A value clipped to 0..1. -/
def clip01 (v : FVal) : FVal := fmin (fmax v FVal.zero) (FVal.ofNat 1)

/-- The channels of one pixel of the crop (steps 2 to 4). -/
def pixel (c : PostProc) (q : SeqHeader) (p : Picture) (x y : Nat) : List FVal :=
  let l := normY q.full p.depth (smp (p.planes.getD 0 []) (q.cropX + c.cropX + x) (q.cropY + c.cropY + y))
  let cb := chromaAt c q p 1 x y
  let cr := chromaAt c q p 2 x y
  if bit c.pp 4 then [l]
  else if bit c.pp 2 then
    let (kr, kb) := matrixK (if c.pp % 4 = 0 then streamMatrix q else c.pp % 4)
    let one := FVal.ofNat 1
    let two := FVal.ofNat 2
    let r := fadd l (fmul (fmul two (fsub one kr)) cr)
    let b := fadd l (fmul (fmul two (fsub one kb)) cb)
    let g := fdiv (fsub (fsub l (fmul kr r)) (fmul kb b)) (fsub (fsub one kr) kb)
    [clip01 r, clip01 g, clip01 b]
  else [l, cb, cr]

/-- One output element: the mean of its source elements in raster order (step 5). -/
def outElem (c : PostProc) (q : SeqHeader) (p : Picture) (ch x y : Nat) : FVal :=
  let vals := (List.range c.fy).flatMap fun dy => (List.range c.fx).map fun dx =>
    (pixel c q p (x * c.fx + dx) (y * c.fy + dy)).getD ch FVal.zero
  match vals with
  | [] => FVal.zero
  | v :: t => fdiv (t.foldl fadd v) (FVal.ofNat (c.fx * c.fy))

/-- A picture with the film grain that its frame header asks for, where AV1 grain is applied (step 1). -/
def PostProc.grained (c : PostProc) (codec : Nat) (p : Picture) : Picture :=
  if bit c.pp 3 && codec == 3 then { p with planes := Config.filmGrain p.grain p } else p

/-- Bytes of an output picture, under the sequence header that it was coded under, row by row, with each row's offset in its
slot (step 6). `n` is the number that the stochastic-rounding index takes. -/
def outRows (s : State) (c : PostProc) (p : Picture) (ctx tag n : Nat) : List (Nat × List Byte) :=
  (List.range (c.chans * c.outH)).map fun k =>
    let idx := (n * c.chans * c.outH + k) * c.outW
    let vals := (List.range c.outW).map fun x => (s.rounding ctx tag (idx + x), outElem c p.seq p (k / c.outH) x (k % c.outH))
    (k * 64 * c.pitch, (rowEncode c.fmt vals).1)

/- ## Stream blocks and pools (R312 to R315) -/

/-- The fields of a stream block's header. -/
structure StreamHdr where
  kind : Nat
  state : Nat
  codec : Nat
  reason : Nat
  busy : Nat
  pictures : Nat
  producer : Nat
  slices : Nat
  deriving DecidableEq, Repr

def streamHdr (b : List Byte) : StreamHdr :=
  ⟨leAt b 0 1, leAt b 1 1, leAt b 2 1, leAt b 3 1, leAt b 4 4, leAt b 8 8, leAt b 16 8, leAt b 24 8⟩

def StreamState.empty : StreamState :=
  { token := [], sets := [], bufs := [], cfg := [], occ := 0, last := [], since := none }

/-- Bytes that an engine leaves in the internal part of a stream block at its `n`th draw: they are the engine's own (log
entry 42). -/
def blockImage (n : Nat) : List Byte := (List.range 262016).map fun i => BitVec.ofNat 8 (Config.codecByte (n + i))

/-- The state that the internal part of a stream block spells: the last one that was committed with these bytes, wherever the
block now stands. -/
def State.streamOf (s : State) (bs : List Byte) : StreamState :=
  match s.media.streams.find? fun x => blockImage x.1 == bs with
  | some x => x.2
  | none => StreamState.empty

/-- The internal state of a stream read from its block (R312). -/
def loadStream (key : Nat) : ItemM StreamState := do
  let bs ← readDev (key + 128) 262016
  return (← get).streamOf bs

/-- A stream's state committed. -/
def State.putStream (s : State) (key : Nat) (x : StreamState) : State :=
  let t := s.devWrite (key + 128) (blockImage s.freeCtr)
  { t with freeCtr := t.freeCtr + 262144, media := { t.media with streams := (s.freeCtr, x) :: t.media.streams } }

/-- A reference pool as memory holds it: buffer count, buffer size, and each buffer's address, mark and order count. -/
structure Pool where
  count : Nat
  bytes : Nat
  bufs : List (Nat × Nat × Nat)
  deriving DecidableEq, Repr

def poolOfBytes (b : List Byte) : Pool :=
  { count := leAt b 0 2, bytes := leAt b 4 4,
    bufs := (List.range (min (leAt b 0 2) 32)).map fun k =>
      (leAt b (64 + 32 * k) 8, leAt b (64 + 32 * k + 8) 1, leAt b (64 + 32 * k + 16) 8) }

/-- Marks and order counts written back, and the engine's own bytes left in the buffers that took a picture. -/
def State.putPool (s : State) (key : Nat) (p : Pool) (marks : List (Nat × Nat)) (bufs : List (Nat × Picture))
    (stored : List Nat) : State :=
  let t := (List.range p.bufs.length).foldl (fun (t : State) k =>
    let m := match cellFind k marks with | some x => x | none => 0
    let o := match cellFind k bufs with | some x => x.order | none => 0
    (t.devWrite (key + 64 + 32 * k + 8) (leBytes 1 m)).devWrite (key + 64 + 32 * k + 16) (leBytes 8 o)) s
  stored.foldl (fun (t : State) k =>
    match p.bufs[k]? with
    | some (a, _, _) =>
      let u := t.devWrite (addrKey a) ((List.range p.bytes).map fun i => BitVec.ofNat 8 (Config.codecByte (t.freeCtr + i)))
      { u with freeCtr := u.freeCtr + p.bytes }
    | none => t) t

/-- Width and height rounded up to multiples of 64. -/
def up64x (w h : Nat) : Nat := up64 w * up64 h

/-- BUF_BYTES that a picture needs (R314). -/
def bufNeed (w h chroma depth : Nat) : Nat :=
  let b := if depth = 8 then 1 else 2
  up64x w h * b * (if chroma = 0 then 2 else if chroma = 1 then 3 else 4) / 2 + up64x w h / 16

/-- Buffers that a decode stream needs (Table 11.6). -/
def buffersFor (codec : Nat) (q : SeqHeader) : Nat :=
  if codec = 0 then 3 else if codec = 1 then q.dpb + 1 else if codec = 2 then q.dpb + 2 else 9

/-- The profiles of Table 11.1. -/
def profileOk (codec : Nat) (p : VideoProfile) : Bool :=
  if codec = 0 then p == .mpeg2Main
  else if codec = 1 then p == .avcConstrainedBaseline || p == .avcMain || p == .avcHigh || p == .avcHigh422Intra
  else if codec = 2 then p == .hevcMain || p == .hevcMain10 || p == .hevcMain42210
  else p == .av1Main

/-- The levels of Table 11.1: High; 5.2; 6.1; 17, and 31 within the size limits. -/
def levelOk (codec level : Nat) : Bool :=
  if codec = 0 then decide (level ≤ 4) else if codec = 1 then decide (level ≤ 52) else if codec = 2 then decide (level ≤ 61)
  else decide (level ≤ 17) || level == 31

/-- The chroma formats and bit depths of Table 11.1. -/
def formatOk (codec : Nat) (q : SeqHeader) : Bool :=
  if codec = 0 then q.chroma == 1 && q.depth == 8
  else if codec = 1 then
    (q.chroma == 1 || (q.chroma == 2 && q.profile == .avcHigh422Intra)) && (q.depth == 8 || (q.depth == 10 && q.profile == .avcHigh422Intra))
  else if codec = 2 then
    (q.chroma == 1 || (q.chroma == 2 && q.profile == .hevcMain42210)) && (q.depth == 8 || q.depth == 10)
  else (q.chroma == 0 || q.chroma == 1) && (q.depth == 8 || q.depth == 10)

/-- A coded size within the limits of R307. -/
def sizeOk (w h : Nat) : Bool :=
  decide (16 ≤ w) && decide (w ≤ 8192) && decide (16 ≤ h) && decide (h ≤ 4352) && decide (w * h ≤ 35651584)

/-- Reason of Table 11.8 that a sequence header gives (R307, R308), 0 where it is supported; of several the lowest (log entry
71). -/
def headerReason (codec : Nat) (q : SeqHeader) : Nat :=
  if !profileOk codec q.profile then 0x10
  else if !levelOk codec q.level || !q.inLevel then 0x11
  else if !formatOk codec q then 0x12
  else if !sizeOk q.width q.height then 0x13
  else 0

/- ## Decoding (R318) -/

/-- What decoding an access unit has made so far. -/
structure DecAcc where
  bufs : List (Nat × Picture)
  marks : List (Nat × Nat)
  stored : List Nat
  used : List Nat
  outs : List Picture
  damaged : Nat
  deriving DecidableEq, Repr

/-- Buffers added to those that an item reads. -/
def addAll (l : List Nat) (new : List Nat) : List Nat := new.foldl (fun l x => addVal x l) l

/-- The mark of a buffer after a picture: a free one has none, and a wholly lost picture stays marked as such while it is held
(R314, R322). -/
def newMark (old : List (Nat × Nat)) (store : Nat) (whole : Bool) (b m : Nat) : Nat :=
  if m % 8 = 0 then 0
  else m % 8 + (if if b = store then whole else bit (cellGet 0 old b) 3 then 8 else 0)

/-- One picture of an access unit: decoded, concealed, stored, and the pictures its output process releases. -/
def decodeStep (codec : Nat) (token : List Byte) (sets : List (Nat × List Byte)) (au : List Byte) (a : DecAcc) (k : Nat) : DecAcc :=
  let d := Config.decodePic codec token sets a.bufs au k
  let lost := lostBlocks d (sets.map Prod.fst) (heldRefs a.marks)
  let ref := if lost.isEmpty then none else concealRef codec a.bufs a.marks d
  let pic := concealed codec a.bufs lost (ref.map Prod.snd) d
  let o := Config.dpb codec token (a.marks.map fun (b, m) =>
    (b, m, match cellFind b a.bufs with | some p => p.order | none => 0)) au k
  let bufs := cellPut a.bufs o.store (some pic)
  { bufs := bufs, marks := o.marks.map fun (b, m) => (b, newMark a.marks o.store (wholeLost d) b m), stored := addVal o.store a.stored
    used := addAll (addAll (addAll a.used o.release) (d.reads.flatMap fun l => l.map Prod.fst)) (ref.toList.map Prod.fst)
    outs := a.outs ++ o.release.filterMap fun b => cellFind b bufs
    damaged := a.damaged + damagedOf pic }

/-- Pictures that still await output, in output order, and the marks without them (END). -/
def flushed (a : DecAcc) : DecAcc :=
  let held := a.marks.filter fun x => bit x.2 2
  let l := held.filterMap fun (b, _) => cellFind b a.bufs
  { a with
    outs := a.outs ++ sortBy (fun (p q : Picture) => decide (p.order < q.order)) l
    used := addAll a.used (held.map Prod.fst)
    marks := a.marks.map fun (b, m) => (b, if bit m 2 then (if m % 4 = 0 then 0 else m - 4) else m) }

/-- Result of decoding one access unit: a status and reason, or the new stream state with what was decoded, and luma samples and
bits of its coded pictures. -/
inductive DecRes where
  | stop (status reason : Nat)
  | ok (st : StreamState) (acc : DecAcc) (coded : List (Nat × Nat))
  deriving DecidableEq, Repr

/-- The headers that an access unit activates, checked in the order of R318. -/
def checkHeaders (codec : Nat) (c : PostProc) (stride : Nat) (pool : Pool) (info : AuInfo) : Option (Nat × Nat) :=
  match info.seqs.find? fun q => headerReason codec q != 0 with
  | some q => some (stUnsupported, headerReason codec q)
  | none =>
    if !info.tools.isEmpty then some (stUnsupported, 0x14)
    else if info.seqs.any fun q => decide (pool.count < buffersFor codec q) ||
        decide (pool.bytes < bufNeed q.width q.height q.chroma q.depth) then some (stBad, 4)
    else if info.seqs.any fun q => !c.fits q stride then some (stBad, 3)
    else none

/-- Parameter sets in force after those that an access unit carries: one that contains an error is discarded, and the one before
it stays (R321). -/
def newSets (sets : List (Nat × List Byte)) (l : List ParamSet) : List (Nat × List Byte) :=
  l.foldl (fun acc x => if x.good then cellPut acc x.id (some x.content) else acc) sets

/-- One access unit decoded from a stream state (R318). -/
def decodeUnit (codec : Nat) (c : PostProc) (stride : Nat) (pool : Pool) (st : StreamState) (marks : List (Nat × Nat))
    (last : Bool) (au : List Byte) : DecRes :=
  let info := Config.parseAu codec st.token st.sets au
  match checkHeaders codec c stride pool info with
  | some (x, r) => .stop x r
  | none =>
    let sets := newSets st.sets info.sets
    let acc := (List.range info.pics).foldl (decodeStep codec info.token sets au)
      { bufs := st.bufs, marks := marks, stored := [], used := [], outs := [], damaged := 0 }
    .ok { st with token := info.token, sets := sets, bufs := acc.bufs } (if last then flushed acc else acc) info.coded

/-- Cycles of decoded pictures, each from its luma samples and coded bits (R311). -/
def decodeCycles (coded : List (Nat × Nat)) : Nat :=
  (coded.map fun (l, b) => 2048 + max (ceilDiv (7 * l) 4) (ceilDiv (35 * b) 16)).sum

/-- A decode item that ends early with a reason: it output nothing. -/
def decStop {α : Type} (status reason : Nat) : ItemM α := stopWith status (decDetail 0xFFFFFFFF 0 reason 0)

/-- Post-processing fields of a `DEC_AU` payload (Table 11.7). -/
def decPost (p : List Byte) : PostProc :=
  { pp := leAt p 2 1, fmt := leAt p 3 1 % 16, fx := leAt p 4 1, fy := leAt p 5 1, cropX := leAt p 48 2, cropY := leAt p 50 2,
    cropW := leAt p 52 2, cropH := leAt p 54 2, outW := leAt p 56 2, outH := leAt p 58 2, pitch := leAt p 46 2 }

/-- A stream block or pool address: 4 KiB aligned, in this member's memory (R312, R314). -/
def State.blockOk (s : State) (a len : Nat) : Bool := decide (a % 4096 = 0) && s.ownMem a len

/-- The payload rules of Table 11.7. -/
def decCheck : ItemM Unit := do
  payZero 6 2
  payZero 76 20
  let p := payloadOf (← read).desc
  let c := decPost p
  let s ← get
  refuseFormats [] [{ opRef [] with fmtByte := leAt p 3 1 }]
  require ((leAt p 0 1 == 0xFF || decide (leAt p 0 1 < 32)) && decide (leAt p 1 1 < 4) && decide (c.pp < 32) &&
    fmtByteOk (leAt p 3 1) && decide (c.fmt < 3) && decide (1 ≤ c.fx) && decide (c.fx ≤ 8) && decide (1 ≤ c.fy) &&
    decide (c.fy ≤ 8) && decide (1 ≤ leAt p 44 2) && decide (1 ≤ c.pitch) && decide (1 ≤ c.outW) && decide (1 ≤ c.outH) &&
    s.blockOk (leAt p 8 8) 262144 && s.blockOk (leAt p 24 8) 1088 && decide (leAt p 16 8 % 16 = 0) &&
    decide (leAt p 32 8 % 64 = 0) && decide (addrTier (leAt p 32 8) < 2) && decide (leAt p 64 8 % 64 = 0)) stBad

/-- The stream block taken by the present item, once (R313): BUSY already held ends the item with reason 0x01. -/
def takeStream (key : Nat) (stop : Nat → Nat → ItemM Unit) : ItemM Unit := do
  if (← itemStage) = 0 then
    let e ← read
    if leNat (← readDev (key + 4) 4) ≠ 0 then stop stBad 1
    writeDev (key + 4) (leBytes 4 (0x80000000 + 256 * e.ring + e.ctx))
    modifyItem fun x => { x with stage := 1 }

/-- One output picture written to its slot, with its damage map. -/
def writeOut (p : List Byte) (n : Nat) (pic : Picture) : ItemM Unit := do
  let e ← read
  let c := decPost p
  let s ← get
  let slot := n % leAt p 44 2
  (outRows s c (c.grained (leAt p 1 1) pic) e.ctx (leAt p 60 4) (n % 2 ^ 32)).forM fun (off, bs) =>
    store (leAt p 32 8 + slot * leAt p 40 4 + off) bs
  if leAt p 64 8 ≠ 0 then store (leAt p 64 8 + slot * leAt p 72 4) (damageMap pic n)

/-- A range in HBM or LPDDR of some member, populated as far as this member knows. -/
def State.mediaRange (s : State) (a len : Nat) : Bool :=
  decide (addrTier a < 2) && !addrBad a len && (!s.isOwn (addrMember a) || s.populated (addrTier a) (addrOff a) len)

/-- An access unit list entry keeps the rules of R316. -/
def State.entryOk (s : State) (ent : List Byte) : Bool :=
  decide (1 ≤ leAt ent 8 4) && decide (leAt ent 8 4 ≤ 67108864) && decide (leAt ent 12 1 < 4) && zeroAt ent 13 3 &&
    s.mediaRange (leAt ent 0 8) (leAt ent 8 4)

/-- The stream taken, and the entry, header and access unit of an item of `DEC_AU` read (R313, R317). -/
def decUnit (p : List Byte) : ItemM (List Byte × StreamHdr × List Byte) := do
  let e ← read
  let key := addrKey (leAt p 8 8)
  takeStream key decStop
  let ent ← loadKeep (leAt p 16 8 + 16 * e.item) 16
  let h := streamHdr (← readDev key 64)
  if !(← get).entryOk ent then decStop stBad 5
  if !bit (leAt ent 12 1) 0 then
    if h.state = 0 then decStop stBad 2
    if h.state = 2 then decStop stUnsupported h.reason
    if h.kind ≠ 1 ∨ h.codec ≠ leAt p 1 1 then decStop stBad 2
  return (ent, h, ← loadKeep (leAt ent 0 8) (leAt ent 8 4))

/-- The buffers that an item reads must be readable (R320). -/
def readBuffers (pool : Pool) (used : List Nat) : ItemM Unit :=
  used.forM fun k =>
    match pool.bufs[k]? with
    | some (a, _, _) => do
      let _ ← readDev (addrKey a) pool.bytes
      return ()
    | none => pure ()

/-- The commit of a decode item in one step (R313): internal state, pool marks, PICTURES and COMMIT_CUE, and what `START` and
`END` make of the block. -/
def decCommit (p : List Byte) (pool : Pool) (st : StreamState) (acc : DecAcc) (last : Bool) (pictures : Nat) : ItemM Unit := do
  let key := addrKey (leAt p 8 8)
  modify fun t => (t.putPool (addrKey (leAt p 24 8)) pool acc.marks acc.bufs acc.stored).putStream key st
  writeDev key (leBytes 1 1 ++ leBytes 1 (if last then 0 else 1) ++ leBytes 1 (leAt p 1 1))
  writeDev (key + 8) (leBytes 8 pictures)
  writeDev (key + 32) (leBytes 8 (← get).cueNo)

/-- An access unit decoded, its pictures written, and, once all of them are visible, the stream block and pool brought in line
(R313, R318 to R325). -/
def decOutput (p ent : List Byte) (h : StreamHdr) (au : List Byte) : ItemM Done := do
  let key := addrKey (leAt p 8 8)
  let flags := leAt ent 12 1
  let start := bit flags 0
  let pool := poolOfBytes (← readDev (addrKey (leAt p 24 8)) 1088)
  let st ← if start then pure StreamState.empty else loadStream key
  let marks := pool.bufs.zipIdx.map fun ((_, m, _), k) => (k, if start then 0 else m)
  match decodeUnit (leAt p 1 1) (decPost p) (leAt p 40 4) pool st marks (bit flags 1) au with
  | .stop x r =>
    if x = stUnsupported then writeDev (key + 1) (leBytes 1 2) *> writeDev (key + 3) (leBytes 1 r)
    decStop x r
  | .ok st acc coded =>
    readBuffers pool acc.used
    inStepDo (acc.outs.zipIdx.forM fun (pic, i) => writeOut p (h.pictures + i) pic)
    waitWrites
    decCommit p pool st acc (bit flags 1) (h.pictures + acc.outs.length)
    return done (if acc.damaged = 0 then stOk else stConcealed)
      (decDetail (if acc.outs.isEmpty then 0xFFFFFFFF else h.pictures) acc.outs.length 0 acc.damaged) (decodeCycles coded)

/-- The work of `DEC_AU` (R318). -/
def decAuWork : ItemM Done := do
  decCheck
  let p := payloadOf (← read).desc
  let (ent, h, au) ← decUnit p
  decOutput p ent h au

/-- DEC_AU. -/
def execDecAu (run item : Nat) (s : State) : Host.Outcome State Fault Refusal := .next (s.runItem 7 0 decAuWork run item)

/- ## Encoding: configuration (R328) -/

/-- Fields of an encode configuration by their place in the stream block (Table 11.11): `cfg` holds bytes 64..127. -/
def cfgAt (cfg : List Byte) (off n : Nat) : Nat := leAt cfg (off - 64) n
def cfgW (c : List Byte) : Nat := cfgAt c 64 2
def cfgH (c : List Byte) : Nat := cfgAt c 66 2
def cfgDepth (c : List Byte) : Nat := cfgAt c 68 1

/-- The highest level that an encoded stream may declare, 6.1: its `general_level_idc`, 30 times the level (PRESUMED, log entry
125), or its `seq_level_idx` (R309). -/
def topLevel (codec : Nat) : Nat := if codec = 0 then 183 else 17

/-- The configuration keeps Table 11.11 and the level it declares. -/
def cfgOk (codec : Nat) (c : List Byte) : Bool :=
  sizeOk (cfgW c) (cfgH c) && cfgW c % 2 == 0 && cfgH c % 2 == 0 && (cfgDepth c == 8 || cfgDepth c == 10) &&
    decide (cfgAt c 69 1 < 2) && (cfgAt c 69 1 == 0 || (decide (1 ≤ cfgAt c 70 1) && decide (cfgAt c 70 1 ≤ 4))) &&
    decide (1 ≤ cfgAt c 76 4) && decide (1 ≤ cfgAt c 80 4) && decide (cfgAt c 84 1 < 3) && decide (cfgAt c 87 1 < 64) &&
    decide (cfgAt c 86 1 ≤ cfgAt c 85 1) && decide (cfgAt c 85 1 ≤ cfgAt c 87 1) &&
    (cfgAt c 84 1 != 2 || decide (cfgAt c 88 4 ≤ cfgAt c 92 4)) && decide (1 ≤ cfgAt c 96 4) && decide (1 ≤ cfgAt c 100 1) &&
    decide (cfgAt c 100 1 < 4) && decide (cfgAt c 101 1 < 2) && zeroAt c 38 26 && decide (cfgAt c 71 1 ≤ topLevel codec) &&
    Config.levelOk codec c

/-- The tools of Table 11.3. -/
def encTools (codec : Nat) (intra : Bool) : List EncTool :=
  if codec = 0 then
    [.ctb64, .codingUnit8to64, .transform4to32, .intra35, .merge, .amvp, .tmvp, .quarterSample, .deblocking, .sao, .cabac, .iSlice] ++
      (if intra then [] else [.pSlice])
  else [.superblock64, .directional, .smooth, .paeth, .chromaFromLuma, .deblocking, .cdef] ++ (if intra then [] else [.singleReference])

/-- What the stream of a configuration keeps to at quantizer index `q` (R309, R328, R330): HEVC signals Main 10 and QP = Q − 12,
0 at least at bit depth 8, AV1 Main and base_q_idx = 4 × Q. HEVC's QP is given from its lowest value, −12. -/
def encRules (codec : Nat) (c : List Byte) (intra : Bool) (q : Nat) : EncRules :=
  { profile := if codec = 0 then .hevcMain10 else .av1Main, level := cfgAt c 71 1, depth := cfgDepth c, chroma := 1,
    tools := encTools codec intra, tileColumn := if codec = 0 then cfgW c else 4096,
    quantizer := if codec = 0 then (if cfgDepth c = 8 then max q 12 else q) else 4 * q,
    siting := if codec = 0 then 0 else 1, matrix := cfgAt c 100 1, full := cfgAt c 101 1 == 1,
    refs := if intra then 0 else cfgAt c 70 1 }

/-- Block rows of a picture (R330). -/
def blockRowCount (c : List Byte) : Nat := ceilDiv (cfgH c) 64

/- ## Input conversion (R329) -/

/-- NaN becomes 0. -/
def noNan (v : FVal) : FVal := if v.isNan then FVal.zero else v

/-- y, cb and cr of an input element. -/
def toYcc (rgb : Bool) (k : FVal × FVal) (v : List FVal) : List FVal :=
  let r := noNan (v.getD 0 FVal.zero)
  let g := noNan (v.getD 1 FVal.zero)
  let b := noNan (v.getD 2 FVal.zero)
  if rgb then
    let (kr, kb) := k
    let one := FVal.ofNat 1
    let two := FVal.ofNat 2
    let y := fadd (fadd (fmul kr r) (fmul (fsub (fsub one kr) kb) g)) (fmul kb b)
    [y, fdiv (fsub b y) (fmul two (fsub one kb)), fdiv (fsub r y) (fmul two (fsub one kr))]
  else [r, g, b]

/-- A value rounded to an integer, to nearest even, and clipped to `0 .. top`. An undefined sum of infinities is a free
value (log entry 43). -/
def toSample (top : Nat) (v : FVal) : Nat :=
  match v with
  | .nan => Config.concealRound top 0 % (top + 1)
  | .inf neg => if neg then 0 else top
  | .num neg m e => if neg then 0 else min (roundUnits .rne m e 0) top

/-- Samples of Table 11.9. -/
def lumaSample (full : Bool) (b : Nat) (v : FVal) : Nat :=
  toSample (2 ^ b - 1) (if full then fmul (FVal.ofNat (2 ^ b - 1)) v
    else fadd (FVal.ofNat (16 * 2 ^ (b - 8))) (fmul (FVal.ofNat (219 * 2 ^ (b - 8))) v))

def chromaSample (full : Bool) (b : Nat) (v : FVal) : Nat :=
  toSample (2 ^ b - 1) (if full then fadd (FVal.ofNat (2 ^ (b - 1))) (fmul (FVal.ofNat (2 ^ b - 1)) v)
    else fadd (FVal.ofNat (128 * 2 ^ (b - 8))) (fmul (FVal.ofNat (224 * 2 ^ (b - 8))) v))

/-- [1, 2, 1] / 4 centred on an even column, edge samples replicated. -/
def filter121 (row : List FVal) (x : Nat) : FVal :=
  let v := fun (i : Nat) => row.getD i FVal.zero
  fmul (ratio 1 4) (fadd (fadd (v (2 * x - 1)) (fmul (FVal.ofNat 2) (v (2 * x)))) (v (min (2 * x + 1) (row.length - 1))))

/-- A row of samples, or a list of rows, extended to `n` by its last entry. -/
def extendTo {α : Type} (n : Nat) (l : List α) : List α :=
  match l.getLast? with
  | some x => l ++ List.replicate (n - l.length) x
  | none => l

/-- The samples of a block row: its luma rows and the two chroma planes at half size, extended to the coded size. `rows`
holds, for each row of the input, its three channels. -/
def blockRowSamples (cfg : List Byte) (rgb : Bool) (rows : List (List (List FVal))) : List (List (List Nat)) :=
  let full := cfgAt cfg 101 1 == 1
  let b := cfgDepth cfg
  let ycc := rows.map fun chans => (List.range (cfgW cfg)).map fun x =>
    toYcc rgb (matrixK (cfgAt cfg 100 1)) (chans.map fun (r : List FVal) => r.getD x FVal.zero)
  let plane := fun (i : Nat) => ycc.map fun row => row.map fun (v : List FVal) => v.getD i FVal.zero
  let luma := (plane 0).map fun row => extendTo (up64 (cfgW cfg)) (row.map (lumaSample full b))
  let chroma := fun (i : Nat) =>
    let half := (plane i).map fun row => (List.range (cfgW cfg / 2)).map (filter121 row)
    (List.range (rows.length / 2)).map fun y => extendTo (up64 (cfgW cfg) / 2) ((List.range (cfgW cfg / 2)).map fun x =>
      chromaSample full b (fmul (ratio 1 2) (fadd ((half.getD (2 * y) []).getD x FVal.zero) ((half.getD (2 * y + 1) []).getD x FVal.zero))))
  [extendTo 64 luma, extendTo 32 (chroma 1), extendTo 32 (chroma 2)]

/- ## Rate control (R335) -/

/-- rne(6 log2(n / d)) held to −4 .. 4, as an exact real comparison (log entry 44). -/
def sixLog (n d : Nat) : Int :=
  if d = 0 then 4
  else (((List.range 8).filter fun i => decide (d ^ 12 * 2 ^ (2 * i) < n ^ 12 * 2 ^ 7)).length : Int) - 4

/-- Rb, and D per picture, in bits. -/
def rateOf (cfg : List Byte) (kbps : Nat) : Nat := kbps * 1000 * cfgAt cfg 80 4 / cfgAt cfg 76 4
def drainOf (cfg : List Byte) : Nat := rateOf cfg (if cfgAt cfg 84 1 = 2 then cfgAt cfg 92 4 else cfgAt cfg 88 4)
def vbvBits (cfg : List Byte) : Nat := cfgAt cfg 96 4 * 1000

/-- B of a picture. -/
def targetBits (cfg : List Byte) (occ : Nat) (intra : Bool) : Nat :=
  let rb := rateOf cfg (cfgAt cfg 88 4)
  let v := vbvBits cfg
  let b : Int := ((if intra then 3 * rb else rb : Nat) : Int) - (((occ : Int) - ((v / 2 : Nat) : Int)).tdiv 8)
  (min (max b ((rb / 8 : Nat) : Int)) (((v - occ : Nat) : Int))).toNat

/-- q of a picture. -/
def pictureQ (cfg : List Byte) (st : StreamState) (intra : Bool) (b : Nat) : Nat :=
  let ty := if intra then 0 else 1
  let q : Int := match st.last.find? fun x => x.1 == ty with
    | none => (cfgAt cfg 85 1 : Int)
    | some (_, bits, ql) => (ql : Int) + sixLog bits b
  (min (max q (cfgAt cfg 86 1 : Int)) (cfgAt cfg 87 1 : Int)).toNat

/-- Quantizer of block row `j` with `u` bits spent. -/
def rowQ (cfg : List Byte) (job : EncJob) (j u : Nat) : Nat :=
  if cfgAt cfg 84 1 = 0 then cfgAt cfg 85 1
  else
    let e := job.target * j / blockRowCount cfg
    let d : Int := if j = 0 then 0 else if 8 * u > 10 * e then 2 else if 8 * u > 9 * e then 1
      else if 8 * u < 6 * e then -2 else if 8 * u < 7 * e then -1 else 0
    let v := vbvBits cfg
    if v - v / 8 < job.state.occ + u then cfgAt cfg 87 1
    else (min (max ((job.q : Int) + d) (cfgAt cfg 86 1 : Int)) (cfgAt cfg 87 1 : Int)).toNat

/- ## ENC_PICTURE (R327, R331 to R334) -/

/-- The present item's job. -/
def theJob : ItemM (Option EncJob) := do
  let e ← read
  return (← get).media.encodes.find? fun j => j.run == e.run && j.item == e.item

/-- An encode item that ends early with a reason, and what it emitted. -/
def encStop {α : Type} (status reason : Nat) : ItemM α := do
  match ← theJob with
  | some j => stopWith status (encDetail 0 j.q j.emitted 0 reason)
  | none => stopWith status (encDetail 0 0 0 0 reason)

def modifyJob (f : EncJob → EncJob) : ItemM Unit := do
  let e ← read
  modify fun s => { s with media := { s.media with
    encodes := s.media.encodes.map fun j => if j.run = e.run ∧ j.item = e.item then f j else j } }

/-- A fence field of a payload keeps its layout, and names a table that is there (R519). -/
def fenceFieldOk (s : State) (ctx v : Nat) : Bool :=
  decide (field v 12 3 = 0) && (!bit v 15 || s.fenceTableOk ctx)

/-- Address of row `y` of channel `c` of the item's input (R327). -/
def inputRow (p : List Byte) (item h c y : Nat) : Nat :=
  leAt p 24 8 + item * leAt p 32 4 + (c * h + y) * 64 * leAt p 36 2

/-- The payload rules of Table 11.10. -/
def encCheck : ItemM Unit := do
  payZero 4 4
  payZero 38 2
  payZero 50 2
  payZero 76 20
  let e ← read
  let p := payloadOf e.desc
  let s ← get
  refuseFormats [{ opRef [] with fmtByte := leAt p 3 1 }] []
  require ((leAt p 0 1 == 0xFF || decide (leAt p 0 1 < 8)) && decide (leAt p 1 1 < 2) && decide (leAt p 2 1 < 16) &&
    fmtByteOk (leAt p 3 1) && decide (leAt p 3 1 % 16 < 3) && s.blockOk (leAt p 8 8) 262144 && s.blockOk (leAt p 16 8) 1088 &&
    decide (leAt p 24 8 % 64 = 0) && decide (addrTier (leAt p 24 8) < 2) && fenceFieldOk s e.ctx (leAt p 68 4) &&
    fenceFieldOk s e.ctx (leAt p 72 4)) stBad

/-- The output ring and slice list are valid (R327). -/
def State.encRingOk (s : State) (p : List Byte) : Bool :=
  let a := leAt p 48 1
  let b := leAt p 49 1
  decide (16 ≤ a) && decide (a ≤ 30) && decide (4 ≤ b) && decide (b ≤ 16) && decide (leAt p 40 8 % 2 ^ a = 0) &&
    s.ownMem (leAt p 40 8) (2 ^ a) && decide (leAt p 52 8 % (32 * 2 ^ b) = 0) && s.ownMem (leAt p 52 8) (32 * 2 ^ b)

/-- The stream taken for a picture, with its header and configuration (R313, R328): what `START` reads, or what the stream
holds. -/
def encOpen (p : List Byte) : ItemM (StreamHdr × StreamState) := do
  let e ← read
  let key := addrKey (leAt p 8 8)
  let codec := leAt p 1 1
  takeStream key encStop
  let s ← get
  if !s.encRingOk p then encStop stBad 7
  let h := streamHdr (← readDev key 64)
  let start := bit (leAt p 2 1) 1 && e.item == 0
  let st ← if start then do pure { StreamState.empty with cfg := ← readDev (key + 64) 64 } else loadStream key
  let cfg := st.cfg
  if start then
    if !cfgOk codec cfg then encStop stBad 6
    let pool := poolOfBytes (← readDev (addrKey (leAt p 16 8)) 1088)
    let refs := if cfgAt cfg 69 1 = 0 then 1 else cfgAt cfg 70 1 + 1
    if pool.count < refs ∨ pool.bytes < bufNeed (cfgW cfg) (cfgH cfg) 1 (cfgDepth cfg) then encStop stBad 4
  else if h.kind ≠ 2 ∨ h.state ≠ 1 ∨ h.codec ≠ codec then encStop stBad 2
  let len := rowBytes (leAt p 3 1 % 16) (cfgW cfg)
  if (List.range 3).any fun c => !s.mediaRange (inputRow p e.item (cfgH cfg) c 0) ((cfgH cfg - 1) * 64 * leAt p 36 2 + len) then
    encStop stBad 5
  return (h, st)

/-- A picture about to be coded: its type, target and quantizer (R333 to R335). -/
def encJob (e : ItemEnv) (p : List Byte) (h : StreamHdr) (st : StreamState) : EncJob :=
  let key := addrKey (leAt p 8 8)
  let cfg := st.cfg
  let isKey := st.since.isNone || (bit (leAt p 2 1) 3 && e.item == 0) ||
    (cfgAt cfg 72 4 != 0 && st.since.any fun n => decide (cfgAt cfg 72 4 ≤ n))
  let intra := isKey || cfgAt cfg 69 1 == 0
  let b := targetBits cfg st.occ intra
  let q := if cfgAt cfg 84 1 = 0 then cfgAt cfg 85 1 else pictureQ cfg st intra b
  { run := e.run, item := e.item, stream := key, list := addrKey (leAt p 52 8), listLog2 := leAt p 49 1, picture := h.pictures,
    isKey := isKey, intra := intra, q := q, target := b, rows := [], pending := [], emitted := 0, bits := 0, flags := 0,
    state := st, held := st.bufs }

/-- The work of `ENC_PICTURE`: it takes the stream, reads the configuration at START, and begins the picture. Its rows and
slices follow as ENC_BLOCK_ROW and SLICE_EMIT. -/
def encPictureWork : ItemM Done := do
  encCheck
  let e ← read
  let p := payloadOf e.desc
  if (← theJob).isSome then throw .hold
  let (h, st) ← encOpen p
  modify fun t => { t with media := { t.media with encodes := t.media.encodes ++ [encJob e p h st] } }
  throw .hold

/-- ENC_PICTURE. -/
def execEncPicture (run item : Nat) (s : State) : Host.Outcome State Fault Refusal := .next (s.runItem 8 0 encPictureWork run item)

/-- Block rows of one slice (R330): the whole picture in frame mode; one CTB row, or one AV1 tile row, in sub-frame mode. -/
def sliceRows (p : List Byte) (r : Nat) : Nat :=
  if !bit (leAt p 2 1) 0 then r else if leAt p 1 1 = 0 then 1 else ceilDiv r 64

/-- Bits of coded rows. -/
def rowBits (l : List (Nat × List Byte)) : Nat := l.foldl (fun a r => a + 8 * r.2.length) 0

/-- The end of a picture of `b` bits: filler, occupancy and violation (R335): bits with filler, filler bits, new
occupancy, DETAIL flags. -/
def afterPicture (cfg : List Byte) (occ b : Nat) : Nat × Nat × Nat × Nat :=
  let d := drainOf cfg
  let fill := if cfgAt cfg 84 1 = 1 ∧ occ + b < d then d - occ - b else 0
  let o := occ + (b + fill) - d
  let v := vbvBits cfg
  (b + fill, fill, min o v, (if v < o then 1 else 0) + (if fill = 0 then 0 else 2))

/-- The rows coded so far with one more: a slice is finished after its last row. -/
def addRow (p cfg : List Byte) (job : EncJob) (q : Nat) (bytes : List Byte) : EncJob :=
  let r := blockRowCount cfg
  let rows := job.rows ++ [(q, bytes)]
  let n := sliceRows p r
  let j := rows.length
  let ends := decide (j = r)
  if j % n = 0 ∨ ends then
    let first := (j - 1) / n * n
    let (bits, fill, occ, fl) := if cfgAt cfg 84 1 = 0 then (rowBits rows, 0, job.state.occ, 0)
      else afterPicture cfg job.state.occ (rowBits rows)
    let body := ((rows.drop first).flatMap Prod.snd) ++ (if ends && fill != 0 then Config.encodeFiller (leAt p 1 1) fill else [])
    let slice : EncSlice :=
      { index := (j - 1) / n, q := ((rows.drop first).headD (q, [])).1, bytes := body,
        flags := (if ends then 1 else 0) + (if job.isKey then 2 else 0) + (if job.isKey && first == 0 then 8 else 0) }
    if ends then
      let st := { job.state with
        occ := occ
        last := (if job.intra then 0 else 1, bits, job.q) :: job.state.last.filter fun x => x.1 != (if job.intra then 0 else 1)
        since := some (if job.isKey then 1 else (match job.state.since with | some k => k + 1 | none => 1))
        bufs := Config.encodeRecon (leAt p 1 1) cfg job.state.bufs (rows.map Prod.snd) }
      { job with rows := rows, pending := job.pending ++ [slice], bits := bits, flags := fl, state := st }
    else { job with rows := rows, pending := job.pending ++ [slice] }
  else { job with rows := rows }

/-- ENC_BLOCK_ROW (R331): the next block row is read and coded once its row fence is met. -/
def encBlockRowWork : ItemM Done := do
  match ← theJob with
  | none => throw .hold
  | some job =>
    let e ← read
    let p := payloadOf e.desc
    let cfg := job.state.cfg
    let r := blockRowCount cfg
    let j := job.rows.length
    if r ≤ j then throw .hold
    let f := leAt p 68 4
    if bit f 15 then
      let w := leNat (← readDev ((← get).fenceKey e.ctx (f % 4096)) 4) % 2 ^ 17
      if bit w 16 && !flProceed e.desc then encStop stCancelled 0
      if !fenceMet w ((f / 65536 + e.item * r + j + 1) % 2 ^ 16) then throw .hold
    let n := min 64 (cfgH cfg - 64 * j)
    let fmt := leAt p 3 1 % 16
    let rows ← (List.range n).mapM fun y => (List.range 3).mapM fun c => do
      let bs ← loadKeep (inputRow p e.item (cfgH cfg) c (64 * j + y)) (rowBytes fmt (cfgW cfg))
      return rowValues fmt (cfgW cfg) bs []
    let q := rowQ cfg job j (rowBits job.rows)
    let bytes := Config.encodeRow (encRules (leAt p 1 1) cfg job.intra q) cfg job.state.bufs
      (blockRowSamples cfg (bit (leAt p 2 1) 2) rows) (job.rows.map Prod.snd)
    modifyJob fun x => addRow p cfg x q bytes
    throw .hold

/-- An encode command on an item that has begun. -/
def State.onEncode (s : State) (run item : Nat) (work : ItemM Done) : State :=
  if s.media.encodes.any fun j => j.run == run && j.item == item then s.runItem 8 0 work run item else s

/-- ENC_BLOCK_ROW. -/
def execEncBlockRow (run item : Nat) (s : State) : Host.Outcome State Fault Refusal := .next (s.onEncode run item encBlockRowWork)

/-- Bytes written at a free-running position of the output ring, wrapping past its end (R332). -/
def ringStore (base log2 pos : Nat) (bs : List Byte) : ItemM Unit := do
  let o := pos % 2 ^ log2
  let n := 2 ^ log2 - o
  writeDev (base + o) (bs.take n)
  if n < bs.length then writeDev base (bs.drop n)

/-- One finished slice written to the output ring, with its list entry and its fence, where both have room (R332): the
header of the stream block before it. -/
def sliceOut (p : List Byte) (job : EncJob) (sl : EncSlice) (rest : List EncSlice) : ItemM StreamHdr := do
  let e ← read
  let key := job.stream
  let h := streamHdr (← readDev key 64)
  let cons ← loadFresh (leAt p 60 8) 16
  if 2 ^ leAt p 48 1 < h.producer + sl.bytes.length - leAt cons 0 8 ∨ 2 ^ job.listLog2 < h.slices + 1 - leAt cons 8 8 then
    throw .hold
  ringStore (addrKey (leAt p 40 8)) (leAt p 48 1) h.producer sl.bytes
  writeDev (job.list + 32 * (h.slices % 2 ^ job.listLog2))
    (sliceEntry h.producer sl.bytes.length job.picture sl.index sl.flags sl.q (← get).cueNo)
  writeDev (key + 16) (leBytes 8 (h.producer + sl.bytes.length) ++ leBytes 8 (h.slices + 1))
  let f := leAt p 72 4
  if bit f 15 then modify fun s => s.addFence e.ctx (f % 4096) (f / 65536) false (e.source s 4)
  modifyJob fun x => { x with pending := rest, emitted := x.emitted + 1 }
  return h

/-- A picture committed after its last slice: its pool, its stream state and its block (R313). -/
def pictureCommit (p : List Byte) (job : EncJob) (h : StreamHdr) : ItemM Done := do
  let e ← read
  let key := job.stream
  let start := bit (leAt p 2 1) 1 && e.item == 0
  let pool := poolOfBytes (← readDev (addrKey (leAt p 16 8)) 1088)
  let new := (job.state.bufs.filter fun x => !job.held.contains x).map Prod.fst
  modify fun s => (s.putPool (addrKey (leAt p 16 8)) pool (job.state.bufs.map fun x => (x.1, 1)) job.state.bufs new).putStream
    key job.state
  if start then writeDev key (leBytes 1 2 ++ leBytes 1 1 ++ leBytes 1 (leAt p 1 1))
  writeDev (key + 8) (leBytes 8 (h.pictures + 1))
  writeDev (key + 32) (leBytes 8 (← get).cueNo)
  let cfg := job.state.cfg
  return done stOk (encDetail job.bits job.q (job.emitted + 1) job.flags 0)
    (4096 + ceilDiv (7 * up64x (cfgW cfg) (cfgH cfg)) 2)

/-- SLICE_EMIT (R332): one finished slice, its list entry and its fence; after the last the picture is committed (R313). -/
def sliceEmitWork : ItemM Done := do
  match ← theJob with
  | none => throw .hold
  | some job =>
    match job.pending with
    | [] => throw .hold
    | sl :: rest =>
      let p := payloadOf (← read).desc
      let h ← sliceOut p job sl rest
      if !bit sl.flags 0 then throw .hold
      pictureCommit p job h

/-- SLICE_EMIT. -/
def execSliceEmit (run item : Nat) (s : State) : Host.Outcome State Fault Refusal := .next (s.onEncode run item sliceEmitWork)

end Sys2Proof.Machine
end

