-- ==== Sys2Proof/Machine/Ingest.lean ====
section
/-! DEFINITION. The ingest path (12_ingest.md): the keyed permutation, feeds, clips, batches, and class 0x09. -/
namespace Sys2Proof.Machine

/- ## The clip order (R338, R339) -/

/-- Half the bits of the permutation's domain. -/
def permHalf (n : Nat) : Nat := ceilDiv (max 2 (clog2 n)) 2

/-- The eight rounds of `perm`. -/
def permRounds (seed epoch h : Nat) : Nat → Nat → Nat → Nat × Nat
  | 0, hi, lo => (hi, lo)
  | k + 1, hi, lo =>
    permRounds seed epoch h k lo (Nat.xor hi (philox lo (7 - k) epoch 0 (seed % 2 ^ 32) (seed / 2 ^ 32) % 2 ^ h))

/-- One evaluation of `perm`. -/
def perm (seed epoch h x : Nat) : Nat :=
  let (hi, lo) := permRounds seed epoch h 8 (x / 2 ^ h) (x % 2 ^ h)
  hi * 2 ^ h + lo

/-- Cycle walking from the first evaluation: the index, and the evaluations made. The walk is bounded by the domain. -/
def permWalk (seed epoch h n : Nat) : Nat → Nat → Nat → Nat × Nat
  | 0, y, k => (y, k)
  | f + 1, y, k => if y < n then (y, k) else permWalk seed epoch h n f (perm seed epoch h y) (k + 1)

/-- σ of a position, with its evaluations of `perm` (R338). -/
def sigma (seed epoch n p : Nat) : Nat × Nat :=
  let h := permHalf n
  permWalk seed epoch h n (2 ^ (2 * h)) (perm seed epoch h p) 1

/- ## The feed block (R342, R343) -/

/-- Fields of a feed block (Table 12.3). -/
structure FeedCfg where
  seed : Nat
  clips : Nat
  epoch : Nat
  step : Nat
  width : Nat
  rank : Nat
  batch : Nat
  post : PostProc
  frames : Nat
  cat : Nat
  stage : Nat
  stageTiles : Nat
  maxTiles : Nat
  work : Nat
  bufBytes : Nat
  bufs : Nat
  slots : Nat
  hand : Nat
  handStride : Nat
  clipStride : Nat
  fenceDone : Nat
  fenceRet : Nat
  deriving DecidableEq, Repr

def feedCfg (b : List Byte) : FeedCfg :=
  { seed := leAt b 0 8, clips := leAt b 8 8, epoch := leAt b 16 4, step := leAt b 20 4, width := leAt b 24 2, rank := leAt b 26 2,
    batch := leAt b 28 1 + 1
    post := { pp := leAt b 29 1, fmt := leAt b 30 1 % 16, fx := leAt b 31 1 % 8 + 1, fy := leAt b 31 1 / 16 % 8 + 1,
              cropX := leAt b 40 2, cropY := leAt b 42 2, cropW := leAt b 44 2, cropH := leAt b 46 2, outW := leAt b 34 2,
              outH := leAt b 36 2, pitch := leAt b 38 2 }
    frames := leAt b 32 2, cat := leAt b 48 8, stage := leAt b 56 8, stageTiles := leAt b 64 4, maxTiles := leAt b 68 4,
    work := leAt b 72 8, bufBytes := leAt b 80 4, bufs := leAt b 84 1, slots := leAt b 85 1, hand := leAt b 88 8,
    handStride := leAt b 96 4, clipStride := leAt b 100 4, fenceDone := leAt b 104 2, fenceRet := leAt b 106 2 }

/-- Steps of an epoch (R339). -/
def FeedCfg.steps (c : FeedCfg) : Nat := c.clips / (c.width * c.batch)

/-- Global step number of the first batch. -/
def FeedCfg.first (c : FeedCfg) : Nat := c.epoch * c.steps + c.step

/-- Bytes of one engine's region of the work area. -/
def FeedCfg.region (c : FeedCfg) : Nat := ceilDiv (331776 + c.bufs * c.bufBytes) 4096 * 4096

/-- The block keeps Table 12.3 and R343, for `h` engines (R350). -/
def State.feedOk (s : State) (b : List Byte) (ctx h : Nat) : Bool :=
  let c := feedCfg b
  decide (1 ≤ c.clips) && decide (c.clips ≤ 2 ^ 40) && decide (1 ≤ c.width) && decide (c.width ≤ 4096) &&
    decide (c.rank < c.width) && decide (1 ≤ c.steps) && decide (c.step < c.steps) && decide (c.post.pp < 32) &&
    !bit c.post.pp 3 && fmtByteOk (leAt b 30 1) && decide (c.post.fmt < 3) && !bit (leAt b 31 1) 3 && !bit (leAt b 31 1) 7 &&
    decide (1 ≤ c.frames) && decide (c.frames ≤ 1024) && decide (1 ≤ c.post.outW) && decide (1 ≤ c.post.outH) &&
    decide (1 ≤ c.post.pitch) && decide (rowBytes c.post.fmt c.post.outW ≤ 64 * c.post.pitch) &&
    decide (c.cat / 2 ^ 57 = 0) && decide (addrTier c.cat = 2) && decide (c.cat % 65536 = 0) &&
    (!s.isOwn (addrMember c.cat) || (s.flashRange ctx (addrOff c.cat) 65536).isSome) &&
    decide (c.stage % 65536 = 0) && s.ownMem c.stage (65536 * c.stageTiles) && decide (1 ≤ c.maxTiles) &&
    decide (c.maxTiles ≤ 16384) && decide (c.maxTiles * (h + 1) ≤ c.stageTiles) && decide (c.work % 4096 = 0) &&
    s.ownMem c.work (h * c.region) && decide (c.bufBytes % 64 = 0) && decide (1 ≤ c.bufs) && decide (c.bufs ≤ 32) &&
    decide (1 ≤ c.slots) && decide (c.slots ≤ 16) && zeroAt b 86 2 && decide (c.hand % 4096 = 0) &&
    s.ownMem c.hand (c.slots * c.handStride) && decide (c.clipStride % 64 = 0) &&
    decide (c.frames * c.post.slot ≤ c.clipStride) && decide (8192 + c.batch * c.clipStride ≤ c.handStride) &&
    decide (c.fenceDone < 4096) && decide (c.fenceRet < 4096) && zeroAt b 108 20 && s.fenceTableOk ctx

/- ## Feeds -/

def Feed.idle : Feed :=
  { state := 0, gone := false, ctx := 0, run := 0, item := 0, engines := [], block := [], delivered := 0, given := 0, clips := [],
    cached := [], good := 0, failed := 0, paused := 0 }

def State.feed (s : State) (n : Nat) : Feed :=
  match cellFind n s.media.feeds with
  | some f => f
  | none => Feed.idle

def State.setFeed (s : State) (n : Nat) (f : Feed) : State :=
  { s with media := { s.media with feeds := cellPut s.media.feeds n (if f = Feed.idle then none else some f) } }

/-- Engines that a mask names. -/
def maskEngines (m : Nat) : List Nat := (List.range 32).filter fun v => bit m v

/-- Each engine of a starting feed that no run holds is claimed for it (Table 12.8). -/
def State.claimFor (s : State) (n : Nat) (engines : List Nat) : State :=
  { s with media := { s.media with claims := engines.foldl (fun cl e =>
      if (cellFind e cl).isNone then cellPut cl e (some (2 ^ 32 + n)) else cl) s.media.claims } }

/-- Every engine of a feed is held by it. -/
def State.feedHolds (s : State) (n : Nat) (engines : List Nat) : Bool := engines.all fun e => s.engineHolder e == some (2 ^ 32 + n)

/-- FEED of the payload, and exactly one item (R349). -/
def feedOperand : ItemM Nat := do
  let n ← pay 0 1
  require (decide (n < 4) && decide ((← read).count = 1)) stBad
  return n

/-- The work of `FEED_START` (R350): the block is read and checked once; the item then waits for its engines. -/
def feedStartWork : ItemM Done := do
  payZero 1 3
  payTail 16
  let n ← feedOperand
  let e ← read
  let engines := maskEngines (← pay 4 4)
  if (← itemStage) = 1 then throw .hold
  let a ← pay 8 8
  let s ← get
  require (decide (a % 64 = 0) && s.ownMem a 128) stBad
  let b ← load a 128
  require (decide ((s.feed n).state = 0) && !engines.isEmpty && s.feedOk b e.ctx engines.length &&
    !(s.media.feeds.any fun (m, f) => m != n && f.engines.any fun x => engines.contains x)) stBad
  modify fun t => (t.setFeed n { Feed.idle with
    state := 1, ctx := e.ctx, run := e.run, item := e.item, engines := engines, block := b }).claimFor n engines
  modifyItem fun x => { x with stage := 1 }
  throw .hold

/-- FEED_START. -/
def execFeedStart (run item : Nat) (s : State) : Host.Outcome State Fault Refusal := .next (s.runItem 9 0 feedStartWork run item)

/-- The pool header of an engine's region, with its buffers' addresses (R314, R342). -/
def poolHeader (base count bytes : Nat) : List Byte :=
  leBytes 2 count ++ leBytes 2 0 ++ leBytes 4 bytes ++ leBytes 56 0 ++
    (List.range count).flatMap fun k => leBytes 8 (base + 331776 + k * bytes) ++ leBytes 24 0

/-- A region of the work area as the feed first writes it: an empty stream block and a pool whose buffers are free. -/
def State.initRegion (s : State) (base count bytes : Nat) : State :=
  ((s.devZero (addrKey base) 266240).devWrite (addrKey base + 262144) (poolHeader base count bytes))

/-- FEED_ENGINES_HELD (R347, R350): once every named engine is held the fences are set and the feed runs. -/
def State.enginesHeld (s : State) (n : Nat) : State :=
  let f := s.feed n
  if f.state ≠ 1 then s
  else
    let t := s.claimFor n f.engines
    if !t.feedHolds n f.engines then t
    else
      let c := feedCfg f.block
      let src : ErrSource := { source := 4, ctx := f.ctx, ring := 0, desc := 0, item := f.item, requester := t.member }
      let t := (t.putFence f.ctx c.fenceDone 0 src).putFence f.ctx c.fenceRet 0 src
      let t := f.engines.zipIdx.foldl (fun (u : State) (_, i) => u.initRegion (c.work + i * c.region) c.bufs c.bufBytes) t
      let t := t.setFeed n { f with state := 2 }
      (t.noteCycles f.run f.item 256).closeItem f.run f.item stOk c.first

/-- FEED_ENGINES_HELD. -/
def execFeedEnginesHeld (feed : Nat) (s : State) : Host.Outcome State Fault Refusal := .next (s.enginesHeld feed)

/-- The work of `FEED_STOP` (R350). Of a feed that is Idle and was not lost, or still Starting, the spec says nothing: the
item completes BAD_DESCRIPTOR (log entry 45). -/
def feedStopWork : ItemM Done := do
  payTail 1
  let n ← feedOperand
  let s ← get
  let f := s.feed n
  if f.state = 0 && f.gone then
    set (s.setFeed n { f with gone := false })
    return done stOk 0xFFFFFFFFFFFFFFFF 256
  require (decide (2 ≤ f.state)) stBad
  let t := s.setFeed n Feed.idle
  set { t with media := { t.media with claims := t.media.claims.filter fun (_, h) => h != 2 ^ 32 + n } }
  return done stOk ((feedCfg f.block).first + f.delivered) 256

/-- FEED_STOP. -/
def execFeedStop (run item : Nat) (s : State) : Host.Outcome State Fault Refusal := .next (s.runItem 9 1 feedStopWork run item)

/-- Epoch and step of a global step number. -/
def FeedCfg.at_ (c : FeedCfg) (g : Nat) : Nat × Nat := (g / c.steps, g % c.steps)

/-- The status block of a feed (R351). -/
def State.feedStatus (s : State) (f : Feed) : List Byte :=
  let c := feedCfg f.block
  let (ep, st) := if f.state = 0 then (0, 0) else c.at_ (c.first + f.delivered)
  leBytes 1 f.state ++ leBytes 3 0 ++ leBytes 4 ep ++ leBytes 4 st ++ leBytes 4 0 ++ leBytes 8 f.delivered ++ leBytes 8 f.good ++
    leBytes 8 f.failed ++ leBytes 4 f.paused ++ leBytes 4 0 ++ leBytes 8 s.cueNo ++ leBytes 8 0

/-- The work of `FEED_STATUS`. -/
def feedStatusWork : ItemM Done := do
  payZero 1 7
  payTail 16
  let n ← feedOperand
  let a ← pay 8 8
  require (decide (a % 64 = 0)) stBad
  let s ← get
  store a (s.feedStatus (s.feed n))
  return done stOk 0 64

/-- FEED_STATUS. -/
def execFeedStatus (run item : Nat) (s : State) : Host.Outcome State Fault Refusal := .next (s.runItem 9 2 feedStatusWork run item)

/-- The work of `PERM_MAP` (R349). -/
def permMapWork : ItemM Done := do
  payZero 20 4
  payTail 44
  let seed ← pay 0 8
  let n ← pay 8 8
  let epoch ← pay 16 4
  let dest ← pay 24 8
  let first ← pay 32 8
  let count ← pay 40 4
  require (decide (1 ≤ count) && decide (count ≤ 65536)) stBad
  let p0 := first + (← read).item * count
  require (decide (p0 + count ≤ n)) stBad
  let l := (List.range count).map fun j => sigma seed epoch n (p0 + j)
  store (dest + 8 * (p0 - first)) (l.flatMap fun x => leBytes 8 x.1)
  return done stOk 0 (64 + 10 * (l.foldl (fun a x => a + x.2) 0))

/-- PERM_MAP. -/
def execPermMap (run item : Nat) (s : State) : Host.Outcome State Fault Refusal := .next (s.runItem 9 3 permMapWork run item)

/- ## Charging (R348) -/

/-- Both charges of a feed fall on a context's allowances, or on the pool. -/
def State.feedFunds (s : State) (ctx g : Nat) : Nat :=
  if s.blockingMode || s.deadlineCtx ctx then
    s.sched.allowances.foldl (fun n a => if a.ctx = ctx then n + grp a.left g else n) 0
  else grp s.sched.pool g

def drawCtx (ctx g : Nat) : List Allowance → Nat → List Allowance
  | [], _ => []
  | a :: t, n =>
    if a.ctx = ctx then { a with left := takeGrp a.left g n } :: drawCtx ctx g t (n - grp a.left g) else a :: drawCtx ctx g t n

def State.feedSpend (s : State) (ctx g n : Nat) : State :=
  if s.blockingMode || s.deadlineCtx ctx then { s with sched := { s.sched with allowances := drawCtx ctx g s.sched.allowances n } }
  else { s with sched := { s.sched with pool := takeGrp s.sched.pool g n } }

/-- One running or paused feed charged for the slot that opens, or paused in it. -/
def State.chargeFeed (s : State) (n : Nat) : State :=
  let f := s.feed n
  let d := f.engines.length * s.period * 1750
  let i := s.period * 4375 / 10
  if f.state < 2 then s
  else if s.sched.intermission || s.feedFunds f.ctx 3 < d || s.feedFunds f.ctx 5 < i then
    s.setFeed n { f with state := 3, paused := satAdd 32 f.paused 1 }
  else ((s.feedSpend f.ctx 3 d).feedSpend f.ctx 5 i).setFeed n { f with state := 2 }

/-- FEED_CHARGE at a boundary. -/
def State.chargeFeeds (s : State) : State := (List.range 4).foldl State.chargeFeed s

/- ## Clips (R340, R341, R344, R345) -/

/-- A read of tiles for a clip. -/
inductive ClipRead where
  | bytes (bs : List Byte)
  | fails (status : Nat)
  /-- Remote tiles are still to come. -/
  | waits
  deriving DecidableEq, Repr

/-- Requests for the packets of a remote range that a clip has not been sent and has not got. -/
def State.askClip (s : State) (n : Nat) (f : Feed) (k : Clip) (a len : Nat) : State :=
  (packetRanges a len).foldl (fun (t : State) (x, m) =>
    let u : ReqUse := .feed n k.batch k.slot
    if (t.fab.requests.any fun q => q.use == u && q.addr == x) || k.arrived.any (fun r => r.1 == x) then t
    else
      match t.sendRequest (t.request ptBulkRead f.ctx x m []) (t.adaptiveCtx f.ctx) u none with
      | some v => v
      | none => t) s

/-- Whole tiles of a flash window read for a clip, from this member or another (R341, R345). -/
def State.clipTiles (s : State) (n : Nat) (f : Feed) (k : Clip) (a len : Nat) : State × ClipRead :=
  if s.isOwn (addrMember a) then
    match s.flashRange f.ctx (addrOff a) len with
    | none => (s, .fails stBad)
    | some tiles =>
      if !s.flag flashStatusReady || s.flash.failing then (s, .waits)
      else
        (tiles.foldl State.flashCount s,
          if tiles.all fun t => (s.tileBad t).isEmpty then .bytes (s.flashBytes tiles) else .fails stUncorrectable)
  else if (s.sendPort (s.adaptiveCtx f.ctx) 1 (addrMember a)).isNone then (s, .fails stMemberLost)
  else
    match arrivedRange k.arrived a len with
    | some bs => (s, .bytes bs)
    | none => (s.askClip n f k a len, .waits)

/-- Position in the feed's engines, which places an engine's region. -/
def Feed.rank (f : Feed) (engine : Nat) : Nat := (f.engines.takeWhile fun e => e != engine).length

/-- Work region of a clip's engine. -/
def Feed.base (f : Feed) (k : Clip) : Nat := let c := feedCfg f.block; c.work + f.rank k.engine * c.region

/-- Clip index of a clip (R339). -/
def Feed.index (f : Feed) (k : Clip) : Nat :=
  let c := feedCfg f.block
  let (ep, st) := c.at_ (c.first + k.batch)
  (sigma c.seed ep c.clips ((st * c.width + c.rank) * c.batch + k.slot)).1

/-- Error source of a feed's own reads: its context, and no descriptor. -/
def State.feedSource (s : State) (f : Feed) : ErrSource :=
  { source := 0, ctx := f.ctx, ring := 0, desc := 0, item := 0, requester := s.member }

/-- The catalogue entry of a clip (step 1 of R344): from the engine's cache, or by a copy of its tile into it. -/
def State.clipEntry (s : State) (n : Nat) (f : Feed) (k : Clip) : State × ClipRead :=
  let c := feedCfg f.block
  let off := 32 * f.index k
  let tile := off / 65536
  let cache := addrKey (f.base k) + 266240
  if cellFind k.engine f.cached = some tile then
    match s.readMem (s.feedSource f) (cache + off % 65536) 32 with
    | (t, some bs) => (t, .bytes bs)
    | (t, none) => (t, .fails stUncorrectable)
  else
    match s.clipTiles n f k (c.cat + 65536 * tile) 65536 with
    | (t, .bytes bs) =>
      ((t.devWrite cache bs).setFeed n { t.feed n with cached := cellPut (t.feed n).cached k.engine (some tile) },
        .bytes ((bs.drop (off % 65536)).take 32))
    | x => x

/-- Status that a catalogue entry gives by itself (Table 12.6), 0 where it is good. -/
def entryStatus (e : List Byte) (maxTiles : Nat) : Nat :=
  if !(leAt e 13 1 == 1) || decide (2 ^ 27 ≤ leAt e 0 4) || decide (4096 ≤ leAt e 4 2) || !zeroAt e 6 2 || !zeroAt e 14 18 ||
      decide (4 ≤ leAt e 12 1) || leAt e 8 4 == 0 then stBad
  else if maxTiles < leAt e 8 4 then stOverPlan
  else 0

/-- The container keeps R341. -/
def containerOk (b : List Byte) (tiles codec : Nat) : Bool :=
  let n := leAt b 0 4
  decide (1 ≤ n) && decide (n ≤ 65536) && leAt b 4 1 == codec && zeroAt b 5 3 && decide (leAt b 8 8 ≤ 65536 * tiles) &&
    zeroAt b 16 48 && decide (64 + 8 * n ≤ 65536 * tiles) &&
    (List.range n).all fun a =>
      let x := leAt b (64 + 8 * a) 8
      decide (1 ≤ x / 2 ^ 38) && decide (x / 2 ^ 38 ≤ 67108863) && decide (x % 2 ^ 38 + x / 2 ^ 38 ≤ 65536 * tiles)

/-- Bytes of access unit `a` of a container. -/
def containerUnit (b : List Byte) (a : Nat) : List Byte :=
  let x := leAt b (64 + 8 * a) 8
  (b.drop (x % 2 ^ 38)).take (x / 2 ^ 38)

/-- What decoding a clip has made so far. -/
structure ClipAcc where
  st : StreamState
  marks : List (Nat × Nat)
  outs : List Picture
  concealed : Bool
  status : Nat
  stored : List Nat
  deriving DecidableEq, Repr

/-- Units decoded in order until enough pictures are out (step 3 of R344). -/
def clipUnits (codec frames count : Nat) (c : PostProc) (stride : Nat) (pool : Pool) (b : List Byte) : Nat → ClipAcc → ClipAcc
  | 0, x => x
  | k + 1, x =>
    let a := count - (k + 1)
    if x.status ≠ 0 ∨ frames ≤ x.outs.length then x
    else
      match decodeUnit codec c stride pool x.st x.marks (decide (a + 1 = count)) (containerUnit b a) with
      | .stop st _ => { x with status := st }
      | .ok st acc _ =>
        clipUnits codec frames count c stride pool b k
          { st := st, marks := acc.marks, concealed := x.concealed || acc.damaged != 0, status := 0,
            stored := acc.stored.foldl (fun l v => addVal v l) x.stored
            outs := x.outs ++ acc.outs }

/-- A clip ended: its status, frames and damage noted (R345). -/
def State.endClip (s : State) (n : Nat) (k : Clip) (status frames damaged : Nat) : State :=
  let f := s.feed n
  s.setFeed n { f with clips := f.clips.map fun x =>
    if x.batch = k.batch ∧ x.slot = k.slot then { x with status := some status, frames := frames, damaged := damaged, arrived := [] } else x }

/-- Key of a clip's frames in its batch buffer (R343). -/
def FeedCfg.framesKey (c : FeedCfg) (k : Clip) : Nat :=
  addrKey c.hand + (k.batch % c.slots) * c.handStride + 8192 + k.slot * c.clipStride

/-- The frames of a clip written, those it lacks as zero (R343 to R345). -/
def State.writeFrames (s : State) (f : Feed) (k : Clip) (outs : List Picture) : State :=
  let c := feedCfg f.block
  let key := c.framesKey k
  let t := s.devZero key (c.frames * c.post.slot)
  outs.zipIdx.foldl (fun (t : State) (p, i) =>
    (outRows t c.post p f.ctx (f.index k % 2 ^ 32) i).foldl (fun (u : State) (off, bs) =>
      u.devWrite (key + i * c.post.slot + off) bs) t) t

/-- A clip that ends without pictures: every frame zero. -/
def State.failClip (s : State) (n : Nat) (f : Feed) (k : Clip) (status : Nat) : State :=
  ((if s.devShut ((feedCfg f.block).framesKey k) then s else s.writeFrames f k [])).endClip n k status 0 0

/-- A clip's container decoded and its frames written (R344, R345). -/
def State.decodeClip (s : State) (n : Nat) (f : Feed) (k : Clip) (codec tiles : Nat) (b : List Byte) : State :=
  let c := feedCfg f.block
  let base := addrKey (f.base k)
  let stage := addrKey c.stage + k.region * c.maxTiles * 65536
  let s := if s.devShut stage then s else s.devWrite stage b
  if !containerOk b tiles codec then s.failClip n f k stBad
  else if s.devShut stage || s.devShut base || s.devShut (c.framesKey k) then s.failClip n f k stPartReset
  else
    let pool := poolOfBytes (s.devRead (base + 262144) 1088)
    let count := leAt b 0 4
    let acc := clipUnits codec c.frames count c.post c.post.slot pool b count
      { st := StreamState.empty, marks := (List.range c.bufs).map fun i => (i, 0), outs := [], concealed := false, status := 0, stored := [] }
    let outs := acc.outs.take c.frames
    let t := (s.putPool (base + 262144) pool acc.marks acc.st.bufs acc.stored).putStream base acc.st
    let t := (t.devWrite base (leBytes 4 (1 + 256 * (if acc.status = stUnsupported then 2 else 1) + 65536 * codec))).devWrite (base + 8)
      (leBytes 8 (leNat (t.devRead (base + 8) 8) + outs.length))
    if acc.status ≠ 0 then t.failClip n f k acc.status
    else
      (t.writeFrames f k outs).endClip n k
        (if outs.length < c.frames then stDegraded else if acc.concealed then stConcealed else stOk) outs.length
        (min (outs.foldl (fun a x => a + damagedOf x) 0) (2 ^ 32 - 1))

/-- A clip's data fetched as far as it has come, and the clip decoded once it is whole. -/
def State.workClip (s : State) (n : Nat) (f : Feed) (k : Clip) (finish : Bool) : State :=
  if s.devBad (addrKey (f.base k)) 266240 then
    (s.badDevRead (s.feedSource f) (s.firstBad (addrKey (f.base k)) 266240)).failClip n f k stUncorrectable
  else
    match s.clipEntry n f k with
    | (t, .waits) => t
    | (t, .fails st) => if finish then t.failClip n f k st else t
    | (t, .bytes e) =>
      let st := entryStatus e (feedCfg f.block).maxTiles
      if st ≠ 0 then (if finish then t.failClip n f k st else t)
      else
        match t.clipTiles n f k (mkAddr (leAt e 4 2) (2 * 2 ^ 43 + 65536 * leAt e 0 4)) (65536 * leAt e 8 4) with
        | (u, .waits) => u
        | (u, .fails st) => if finish then u.failClip n f k st else u
        | (u, .bytes b) => if finish then u.decodeClip n f k (leAt e 12 1) (leAt e 8 4) b else u

/-- The buffer of a batch is free (R347). -/
def State.batchFree (s : State) (f : Feed) (d : Nat) : Bool :=
  let c := feedCfg f.block
  decide (d < c.slots) || fenceMet (s.fenceWord f.ctx c.fenceRet) ((d + 1 - c.slots) % 2 ^ 16)

/-- An engine of a feed works on no clip and is not being reset. -/
def State.feedEngineIdle (s : State) (f : Feed) (e : Nat) : Bool :=
  !s.engineResetting e && !(f.clips.any fun k => k.engine == e && k.status.isNone)

/-- Staging regions that no clip in work holds, lowest first (log entry 45). -/
def Feed.freeRegion (f : Feed) : Nat :=
  ((List.range (f.engines.length + 1)).find? fun r => !(f.clips.any fun k => k.region == r && k.status.isNone)).getD 0

/-- CLIP_ASSIGN (R344): the next clip goes to the lowest idle engine, and its fetching begins. -/
def State.assignClip (s : State) (n : Nat) : State :=
  let f := s.feed n
  let c := feedCfg f.block
  if f.state ≠ 2 ∨ !s.batchFree f (f.given / c.batch) then s
  else
    match f.engines.find? fun e => s.feedEngineIdle f e with
    | none => s
    | some e =>
      let k : Clip := { batch := f.given / c.batch, slot := f.given % c.batch, engine := e, region := f.freeRegion, status := none,
                        frames := 0, damaged := 0, arrived := [] }
      let f' := { f with given := f.given + 1, clips := f.clips ++ [k] }
      (s.setFeed n f').workClip n f' k false

/-- CLIP_ASSIGN. -/
def execClipAssign (feed : Nat) (s : State) : Host.Outcome State Fault Refusal := .next (s.assignClip feed)

/-- CLIP_DONE (R345): clip number `clip` since `FEED_START`, with its data there, is decoded to its end. A paused feed
gives no new access unit to an engine. -/
def State.doneClip (s : State) (n clip : Nat) : State :=
  let f := s.feed n
  if f.state ≠ 2 then s
  else
    match f.clips.find? fun k => k.batch * (feedCfg f.block).batch + k.slot == clip && k.status.isNone with
    | some k => s.workClip n f k true
    | none => s

/-- CLIP_DONE. -/
def execClipDone (feed clip : Nat) (s : State) : Host.Outcome State Fault Refusal := .next (s.doneClip feed clip)

/-- A tile packet arrives for a clip (R378). -/
def State.clipArrived (s : State) (n batch slot a : Nat) (bs : List Byte) : State :=
  let f := s.feed n
  s.setFeed n { f with clips := f.clips.map fun k =>
    if k.batch = batch ∧ k.slot = slot ∧ k.status.isNone then { k with arrived := k.arrived ++ [(a, bs)] } else k }

/-- A request of a clip was answered with a status. -/
def State.clipRefused (s : State) (n batch slot status : Nat) : State :=
  let f := s.feed n
  match f.clips.find? fun k => k.batch == batch && k.slot == slot && k.status.isNone with
  | some k => s.failClip n f k status
  | none => s

/-- A clip entry (Table 12.5). -/
def Feed.entry (f : Feed) (k : Clip) : List Byte :=
  leBytes 5 (f.index k) ++ leBytes 1 (k.status.getD 0) ++ leBytes 2 k.frames ++ leBytes 4 k.damaged ++ leBytes 4 0

/-- BATCH_DELIVER (R346): entries and record of the next batch written, then FENCE_DONE advanced. A buffer whose stack is
out of reach is written once it returns. -/
def State.deliver (s : State) (n : Nat) : State :=
  let f := s.feed n
  let c := feedCfg f.block
  let d := f.delivered
  let l := (List.range c.batch).filterMap fun j => f.clips.find? fun k => k.batch == d && k.slot == j && k.status.isSome
  let key := addrKey c.hand + d % c.slots * c.handStride
  if f.state < 2 || decide (l.length < c.batch) || s.devShut key then s
  else
    let good := (l.filter fun k => decide (k.status.getD 0 < 0x10)).length
    let (ep, st) := c.at_ (c.first + d)
    let t := (s.devZero (key + 64) 8128).devWrite (key + 64) (l.flatMap f.entry)
    let t := t.devWrite key (leBytes 4 ep ++ leBytes 4 st ++ leBytes 8 (c.first + d) ++ leBytes 4 s.cueNo ++ leBytes 2 good ++
      leBytes 2 (c.batch - good) ++ leBytes 40 0)
    let src : ErrSource := { source := 4, ctx := f.ctx, ring := 0, desc := 0, item := 0, requester := s.member }
    let t := t.addFence f.ctx c.fenceDone 1 false src
    t.setFeed n { f with delivered := d + 1, good := f.good + good, failed := f.failed + (c.batch - good),
                         clips := f.clips.filter fun k => k.batch != d }

/-- BATCH_DELIVER. -/
def execBatchDeliver (feed : Nat) (s : State) : Host.Outcome State Fault Refusal := .next (s.deliver feed)

end Sys2Proof.Machine
end

