-- ==== Sys2Proof/Machine/Loss.lean ====
section
/-! DEFINITION. Choruses as every chapter reads them (R391 to R396), the chorus log (R419) and the loss of a member
(R411 to R413). -/
namespace Sys2Proof.Machine

/- ## Chorus images (R391 to R393) -/

/-- The image of a generation: the one in force, or one that runs are still bound to. -/
def State.chorusAt (s : State) (gen : Nat) : ChorusImage :=
  if gen = s.fld chorusStatusGen then s.coll.image
  else
    match cellFind gen s.coll.kept with
    | some i => i
    | none => { dir := [], slots := [], buffer := none }

/-- Rank slots of an entry, in rank order; none where the entry is not valid. -/
def ChorusImage.rankSlots (i : ChorusImage) (e : Nat) : List Nat :=
  match cellFind e i.dir with
  | some (first, size, _, _) => (List.range size).map fun r => cellGet 0 i.slots (first + r)
  | none => []

/-- Understudies of an entry, in order of preference. -/
def ChorusImage.understudies (i : ChorusImage) (e : Nat) : List Nat :=
  match cellFind e i.dir with
  | some (first, size, n, _) => (List.range n).map fun r => field (cellGet 0 i.slots (first + size + r)) 0 12
  | none => []

def ChorusImage.valid (i : ChorusImage) (e : Nat) : Bool := (cellFind e i.dir).isSome

def ChorusImage.guarded (i : ChorusImage) (e : Nat) : Bool := (cellFind e i.dir).any fun x => x.2.2.2

/-- Member, buddy and BUDDY_EN of a rank slot (Table 14.3). -/
def slotMember (v : Nat) : Nat := field v 0 12
def slotBuddy (v : Nat) : Nat := field v 12 12
def slotWatched (v : Nat) : Bool := bit v 24

/-- Member `m` holds the rank of a slot: the slot names it, or a member that an alias in force gives to it (R393). -/
def State.slotHeld (s : State) (m v : Nat) : Bool := slotMember v == m || s.lookupMember (slotMember v) == m

/-- Rank that a member holds in an entry. -/
def State.rankOf (s : State) (i : ChorusImage) (e m : Nat) : Option Nat :=
  (i.rankSlots e).findIdx? fun v => s.slotHeld m v

/-- Guarded entries in force in which a member holds a rank, in ascending order. -/
def State.guardedWith (s : State) (m : Nat) : List Nat :=
  (s.coll.image.dir.filter fun d => d.2.2.2.2 && (s.rankOf s.coll.image d.1 m).isSome).map fun d => d.1

/-- Slot of the rank that a member holds in an entry in force. -/
def State.slotOf (s : State) (e m : Nat) : Option Nat := (s.coll.image.rankSlots e).find? fun v => s.slotHeld m v

/-- This member is the buddy of another in an entry in force. -/
def State.watches (s : State) (e m : Nat) : Bool :=
  (s.slotOf e m).any fun v => slotWatched v && slotBuddy v == s.member

/- ## The chorus log (R419) -/

/-- What a chorus log entry says. -/
structure ChorusEvent where
  type : Nat
  cause : Nat
  lost : Nat
  substitute : Nat
  reporter : Nat
  entry : Nat
  deriving DecidableEq, Repr

/-- A chorus event: its log entry, and a device event for the types that raise one. -/
def State.chorusEvent (s : State) (x : ChorusEvent) : State :=
  let t := s.logPost chorusLog (leBytes 1 x.type ++ leBytes 1 x.cause ++ leBytes 2 x.lost ++ leBytes 2 x.substitute ++
    leBytes 2 x.reporter ++ leBytes 2 x.entry ++ leBytes 6 0 ++ leBytes 8 s.cueNo ++ leBytes 40 0)
  if x.type = 1 || x.type = 5 || x.type = 6 then t.event else t

/- ## Floods (R364) -/

/-- A flooded message acted on once: nothing is done for this member's own, or for one seen in the last two cues. -/
def State.onFlood (s : State) (p : Packet) (act : State → State) : State :=
  if p.src = s.member || s.seenFlood p then s else act (s.noteFlood p)

/- ## Halves that need a member (R410, R412) -/

/-- Step 2 of R412. -/
def State.failHalves (s : State) (m : Nat) : State :=
  s.runs.foldl (fun t r =>
    let d := r.desc.bytes
    if hdrClass d = 0xB && decide (hdrOp d ≤ 4) &&
        (s.rankOf (s.chorusAt r.chorusGen) (field (leAt d 32 2) 0 10) m).isSome then
      r.items.foldl (fun u x => u.endEarly r.id x.index stMemberLost (collDetail (s.halfSeq r.id x.index) m 0)) t
    else t) s

/- ## Understudies (R413) -/

/-- Pairs of a patch that the cue messages announce and that is not in force. -/
def State.announcedPairs (s : State) : List (Nat × Nat) :=
  if s.cue.annRoute.valid && s.fab.patchGen == some s.cue.annRoute.gen && s.cue.annRoute.gen != s.fld routeStatusGen then
    s.fab.patchPairs
  else []

/-- Candidates for the number of a lost member, in order. -/
def State.candidates (s : State) (e : Nat) : List Nat :=
  (s.coll.image.understudies e).filter fun u =>
    !(s.coll.lost.contains u || s.fab.route.aliases.any (fun (l, x) => l == u || x == u) ||
      s.announcedPairs.any fun (_, x) => x == u)

/-- A loss for which no candidate remains is logged, and no takeover is awaited any more. -/
def State.noCandidate (s : State) : State :=
  let (gone, left) := s.coll.takeovers.partition fun t =>
    (s.candidates t.entry).isEmpty && !s.fab.route.aliases.any (fun a => a.1 == t.lost) &&
      !s.announcedPairs.any fun a => a.1 == t.lost
  gone.foldl (fun u t => u.chorusEvent ⟨5, 0, t.lost, 0, 0, t.entry⟩)
    ({ s with coll := { s.coll with takeovers := left } } : State)

/- ## Loss (R411, R412) -/

/-- A member declared lost: the lost set, the log, the halves that need it, its understudies. The first message for it
counts. -/
def State.loseMember (s : State) (lost reporter cause entry cue : Nat) : State :=
  if s.coll.lost.contains lost then s
  else
    let t : State := { s with coll := { s.coll with
      lost := s.coll.lost ++ [lost]
      takeovers := s.coll.takeovers ++ [{ lost := lost, entry := entry, cue := cue, acted := false }] } }
    let t := t.setFld chorusStatusLostCount t.coll.lost.length
    ((t.chorusEvent ⟨1, cause, lost, 0, reporter, entry⟩).failHalves lost).noCandidate

/-- Body of a MEMBER_LOST message (Table 14.7). -/
def lostBody (lost reporter cause entry cue : Nat) : List Byte :=
  leBytes 2 lost ++ leBytes 2 reporter ++ leBytes 1 cause ++ leBytes 1 0 ++ leBytes 2 entry ++ leBytes 8 cue ++ leBytes 48 0

/-- The device is in curtain and has drained: it originates no fabric traffic but responses (R443). -/
def State.muted (s : State) : Bool := s.flag healthStatusCurtain && !s.rel.draining

/-- LOSS_DECLARATION (R411): a member that holds a rank of a guarded entry in force, of which `needs` holds, is declared
lost by this member, once. -/
def State.declareLost (s : State) (m cause : Nat) (needs : Nat → Bool) : State :=
  match s.guardedWith m, (s.guardedWith m).filter needs with
  | e :: _, _ :: _ =>
    if s.coll.lost.contains m || s.muted then s
    else
      (s.originate (s.prompter ptMemberLost 0 true (lostBody m s.member cause e s.cueNo))).loseMember m s.member cause e s.cueNo
  | _, _ => s

/-- MEMBER_LOST_MESSAGE (R412). -/
def State.memberLostMsg (s : State) (p : Packet) : State :=
  if p.type ≠ ptMemberLost then s
  else
    s.onFlood p fun t =>
      t.loseMember (leAt p.data 0 2 % 4096) (leAt p.data 2 2 % 4096) (leAt p.data 4 1) (leAt p.data 6 2 % 1024) (leAt p.data 8 8)

/-- MEMBER_LOST_MESSAGE. -/
def execMemberLostMessage (_port : Nat) (pkt : Packet) (now : Nat) (s : State) : Host.Outcome State Fault Refusal :=
  .next ((s.tick now).memberLostMsg pkt)

end Sys2Proof.Machine
end

