-- ==== Sys2Proof/Machine/Link.lean ====
section
/-! DEFINITION. The Izhel ports (R352 to R365, R388): flits, acknowledgements and replay, training and loss, lane
degradation, the delay measurement, and packets that die of age or type. -/
namespace Sys2Proof.Machine

/-- The port carries flits. -/
def State.linkUp2 (s : State) (n : Nat) : Bool := s.portState n == 2 || s.portState n == 3

/-- A control flit that acknowledges every good flit so far, gives back the credits that they used, and may ask for a replay
(R356, R359; log entry 84). -/
def State.sendAck (s : State) (n : Nat) (nak : Option Nat) : State :=
  let q := s.port n
  (s.setPort n { q with unacked := 0, owed := [0, 0, 0, 0] }).emit (.ctrlFlit n ((q.rxSeq + 1023) % 1024) nak q.owed)

/-- Everything in the replay buffer sent again in order, counted once (R356). -/
def State.replayAll (s : State) (n : Nat) : State :=
  ((s.port n).replay.foldl (fun (t : State) f => t.emit (.flit n f.2.1 f.1 f.2.2)) s).bump (fabPortErrReplays n)

/-- Packets that waited sent, after the replay buffer: the prompter channel first, and each channel in order as far as its
credits go (R359). -/
def State.flushQueue (s : State) (n : Nat) : State :=
  let l := (s.port n).queue
  (l.filter (fun x => x.1 == 0) ++ l.filter (fun x => x.1 != 0)).foldl (fun (t : State) x => t.sendVia n x.1 x.2)
    (s.onPort n fun q => { q with queue := [] })

/-- `a` lies at or before `b` in the order of sequence numbers. -/
def seqLe (a b : Nat) : Bool := decide ((b + 1024 - a) % 1024 < 512)

/-- Credits that the peer gives back, and the packets that waited for them (R359). -/
def State.takeCredits (s : State) (n : Nat) (l : List Nat) : State :=
  if l.all fun x => x == 0 then s
  else
    let t := s.onPort n fun q => { q with credits := q.credits.zipIdx.map fun (c, vc) => c + l.getD vc 0 }
    if (t.port n).paused then t else t.flushQueue n

/-- What a control flit tells the sender: flits up to ACK leave the replay buffer, a negative acknowledgement replays the
rest, and credits come back. -/
def State.takeCtrl (s : State) (n : Nat) (f : FlitIn) : State :=
  let t := match f.ack with
    | some a =>
      s.onPort n fun q =>
        let left := q.replay.filter fun (x : Nat × Nat × List Byte) => !seqLe x.1 a
        { q with replay := left, failedReplays := if left.length < q.replay.length then 0 else q.failedReplays }
    | none => s
  let u := match f.nak with
    | some _ => (t.onPort n fun q => { q with failedReplays := q.failedReplays + 1 }).replayAll n
    | none => t
  u.takeCredits n f.credits

/-- FLIT_RECEIVE at the link level (R355, R356): packets that flits carry arrive as commands of their own. -/
def State.flitIn (s : State) (n : Nat) (f : FlitIn) : State :=
  if !s.linkUp2 n then s
  else if !f.crcOk then s.sendAck n (some (s.port n).rxSeq)
  else
    let t := s.onPort n fun q => { q with lastGood := s.now }
    if f.ctrl then t.takeCtrl n f
    else if f.seq = (t.port n).rxSeq then
      let u := t.onPort n fun q => { q with
        rxSeq := (q.rxSeq + 1) % 1024, unacked := q.unacked + 1, owed := modifyAt (fun c => c + 1) f.vc q.owed }
      if 64 ≤ (u.port n).unacked then u.sendAck n none else u
    else if seqLe f.seq (t.port n).rxSeq then t.sendAck n none
    else t.sendAck n (some (t.port n).rxSeq)

/-- FLIT_RECEIVE. -/
def execFlitReceive (port : Nat) (flit : FlitIn) (now : Nat) (s : State) : Host.Outcome State Fault Refusal :=
  .next ((s.tick now).flitIn port flit)

/-- ACK_TIMER (R356). -/
def execAckTimer (port : Nat) (s : State) : Host.Outcome State Fault Refusal :=
  .next (if s.linkUp2 port && decide ((s.port port).unacked ≠ 0) then s.sendAck port none else s)

/- ## Training and loss (R356) -/

/-- Retrains within the last 1 ms. -/
def recentRetrains (l : List Nat) (now : Nat) : List Nat := l.filter fun t => decide (now < t + 1000000)

/-- PORT_RETRAIN: eight failed replays of one flit, or 2 µs without a good flit. -/
def State.retrain (s : State) (n : Nat) : State :=
  let q := s.port n
  if s.linkUp2 n && (decide (8 ≤ q.failedReplays) || decide (q.lastGood + 2000 ≤ s.now)) then
    (s.setPort n { q with failedReplays := 0, retrains := s.now :: recentRetrains q.retrains s.now }).setFld
      (fabPortStatusState n) 1
  else s

/-- PORT_RETRAIN. -/
def execPortRetrain (port now : Nat) (s : State) : Host.Outcome State Fault Refusal := .next ((s.tick now).retrain port)

/-- The port is down: its unacknowledged flits and queued packets are lost, and the peer of a direct link is declared lost
where this member watches it (R356, R411). -/
def State.dropPort (s : State) (n : Nat) : State :=
  let q := s.port n
  let t := (s.setPort n { Port.init with everUp := q.everUp }).setFld (fabPortStatusState n) 0
  let t := t.bump (fabPortErrDowns n)
  if s.flag (fabPortStatusPeerSwitch n) || !q.everUp then t
  else t.declareLost (s.fld (fabPortStatusPeer n)) 1 fun e => t.watches e (s.fld (fabPortStatusPeer n))

/-- PORT_DOWN: no good flit for 20 µs, or three retrains within 1 ms. -/
def State.portLost (s : State) (n : Nat) : State :=
  let q := s.port n
  if s.portUp n && (decide (q.lastGood + 20000 ≤ s.now) || decide (3 ≤ (recentRetrains q.retrains s.now).length)) then s.dropPort n
  else s

/-- PORT_DOWN. -/
def execPortDown (port now : Nat) (s : State) : Host.Outcome State Fault Refusal := .next ((s.tick now).portLost port)

/-- The peer is a lost member whose buddy this member is: its return is logged (R414). -/
def State.logReturn (s : State) (m : Nat) : State :=
  if (s.coll.lost.contains m || s.fab.route.aliases.any fun a => a.1 == m) &&
      s.coll.image.dir.any fun d => d.2.2.2.2 && (s.coll.image.rankSlots d.1).any fun v =>
        slotMember v == m && slotWatched v && slotBuddy v == s.member then
    s.chorusEvent ⟨4, 0, m, 0, 0, 0⟩
  else s

/-- PORT_TRAINED (R356 to R358, R365): the port is up on four lanes or, where it may degrade, on two; what it held is
sent. A direct peer with this member's own number keeps it down. -/
def State.trainPort (s : State) (n : Nat) (p : PeerInfo) : State :=
  let q := s.port n
  if !(s.portState n == 0 || s.portState n == 1) then s
  else if !p.isSwitch && p.member = s.member then (s.setFld (fabPortStatusState n) 0).event
  else if p.lanes < 4 && !(s.flag (fabPortCtrlDegradeEn n) && decide (2 ≤ p.lanes)) then
    (if q.trained then s.dropPort n else s)
  else
    let x4 := decide (4 ≤ p.lanes)
    let t := s.setPort n { q with trained := true, everUp := true, paused := false, failedReplays := 0, lastGood := s.now }
    let t := (t.setFld (fabPortStatusState n) (if x4 then 2 else 3)).setFlag (fabPortStatusPeerSwitch n) p.isSwitch
    let t := (t.setFld (fabPortStatusPeer n) (if p.isSwitch then 0 else p.member)).setFld (fabPortStatusPeerPort n) p.port
    let t := t.setFld (fabPortStatusDelayNs n) (min p.delayNs 4095)
    let t := if x4 then t else t.bump (fabPortErrDegrades n)
    let t := if q.replay.isEmpty then t else t.replayAll n
    let t := t.flushQueue n
    if p.isSwitch then t else t.logReturn p.member

/-- PORT_TRAINED. -/
def execPortTrained (port : Nat) (peer : PeerInfo) (now : Nat) (s : State) : Host.Outcome State Fault Refusal :=
  .next ((s.tick now).trainPort port peer)

/- ## The control register (R357, R388) -/

/-- A write of `FAB_PORTn_CTRL`: EN starts training or disables the port, REWIDEN asks for four lanes. -/
def State.writePortCtrl (s : State) (n v : Nat) : State :=
  let t := s.writeReg (rFabPortCtrl n) 4 v
  let on := t.flag (fabPortCtrlEn n)
  let t := if on && !s.flag (fabPortCtrlEn n) then (t.setPort n Port.init).setFld (fabPortStatusState n) 1
    else if !on && s.flag (fabPortCtrlEn n) then (t.setPort n Port.init).setFld (fabPortStatusState n) 4
    else t
  if bit v 2 && t.portState n == 3 then t.onPort n fun q => { q with rewiden := true } else t

/-- PORT_ENABLE. -/
def execPortEnable (port : Nat) (value : BitVec 32) (s : State) : Host.Outcome State Fault Refusal :=
  .next (if port < 12 && s.hostServes (rFabPortCtrl port) then s.writePortCtrl port value.toNat else s)

/-- REWIDEN_REQUEST. -/
def execRewidenRequest (port : Nat) (value : BitVec 32) (s : State) : Host.Outcome State Fault Refusal :=
  .next (if port < 12 && s.hostServes (rFabPortCtrl port) then s.writePortCtrl port value.toNat else s)

/-- A slot position of the table in force is an intermission on this member. -/
def State.hasIntermission (s : State) : Bool :=
  !s.cue.blkHold && s.cue.blkEntries.any fun e => bit e.toNat 63 && bit e.toNat 51 && decide (field e.toNat 0 12 ≤ s.member) &&
    decide (s.member ≤ field e.toNat 12 12)

/-- REWIDEN_RETRAIN (Table 13.2): in an intermission slot, or at a boundary where there is none. -/
def State.rewiden (s : State) (n : Nat) (allPass : Bool) : State :=
  let q := s.port n
  if !(q.rewiden && s.portState n == 3) || (s.blockingMode && s.hasIntermission && !s.sched.intermission) then s
  else
    let t := s.setPort n { q with rewiden := false, badLanes := if allPass then [] else q.badLanes }
    if allPass then t.setFld (fabPortStatusState n) 2 else t

/-- REWIDEN_RETRAIN. -/
def execRewidenRetrain (port : Nat) (allPass : Bool) (s : State) : Host.Outcome State Fault Refusal :=
  .next (s.rewiden port allPass)

/- ## Lane events (R357) -/

/-- LANE_DEGRADE: an event on an active lane. New flits stop and the port will run on two lanes; on a port that may not
degrade, or that already runs on two, it takes the port down. -/
def State.laneEvent (s : State) (n lane : Nat) : State :=
  let q := s.port n
  if !(s.linkUp2 n) || q.badLanes.contains lane || 4 ≤ lane then s
  else if s.portState n == 2 && !q.paused && s.flag (fabPortCtrlDegradeEn n) then
    (s.setPort n { q with badLanes := q.badLanes ++ [lane], paused := true }).bump (fabPortErrDegrades n)
  else s.dropPort n

/-- LANE_DEGRADE. -/
def execLaneDegrade (port lane : Nat) (now : Nat) (s : State) : Host.Outcome State Fault Refusal :=
  .next ((s.tick now).laneEvent port lane)

/-- DEGRADE_COMPLETE: up on two lanes; the replay buffer is sent again and new flits follow. -/
def State.degraded (s : State) (n : Nat) : State :=
  if !(s.port n).paused then s
  else
    let t := (s.onPort n fun q => { q with paused := false }).setFld (fabPortStatusState n) 3
    (if (t.port n).replay.isEmpty then t else t.replayAll n).flushQueue n

/-- DEGRADE_COMPLETE. -/
def execDegradeComplete (port : Nat) (s : State) : Host.Outcome State Fault Refusal := .next (s.degraded port)

/- ## The delay of a port (R358) -/

/-- A packet of the link only. -/
def State.linkPacket (s : State) (type : Nat) (body : List Byte) : Packet :=
  { type := type, context := 0, gen := 0, status := 0, src := s.member, dst := 0, birth := s.birth, tag := 0,
    length := body.length, addr := 0, data := body }

/-- ECHO_TIMER. -/
def State.echo (s : State) (n : Nat) : State :=
  if s.linkUp2 n then s.sendOn n (s.linkPacket ptEcho (leBytes 8 s.fabricNs)) else s

/-- ECHO_TIMER. -/
def execEchoTimer (port now : Nat) (s : State) : Host.Outcome State Fault Refusal := .next ((s.tick now).echo port)

/-- ECHO_REQUEST: the answer carries the time echoed and the turnaround until it is sent. -/
def State.answerEcho (s : State) (n : Nat) (p : Packet) (now sendAt : Nat) : State :=
  if p.type = ptEcho && s.linkUp2 n then
    s.sendOn n (s.linkPacket ptEchoReply (leBytes 8 (leAt p.data 0 8) ++ leBytes 4 (sendAt - now)))
  else s

/-- ECHO_REQUEST. -/
def execEchoRequest (port : Nat) (pkt : Packet) (now sendAt : Nat) (s : State) : Host.Outcome State Fault Refusal :=
  .next (((s.tick now).tick sendAt).answerEcho port pkt now sendAt)

/-- ECHO_REPLY: half the round trip less the far end's turnaround. -/
def State.takeEcho (s : State) (n : Nat) (p : Packet) : State :=
  if p.type = ptEchoReply && s.linkUp2 n then
    s.setFld (fabPortStatusDelayNs n) (min ((s.fabricNs - leAt p.data 0 8 - leAt p.data 8 4) / 2) 4095)
  else s

/-- ECHO_REPLY. -/
def execEchoReply (port : Nat) (pkt : Packet) (now : Nat) (s : State) : Host.Outcome State Fault Refusal :=
  .next ((s.tick now).takeEcho port pkt)

/- ## Packets that are dropped (R362, R363) -/

/-- A TYPE of Table 13.5. -/
def typeKnown (t : Nat) : Bool :=
  (decide (1 ≤ t) && decide (t ≤ 5)) || (decide (8 ≤ t) && decide (t ≤ 0xB)) || (decide (0x10 ≤ t) && decide (t ≤ 0x19))

/-- RESERVED_PACKET_TYPE. -/
def execReservedPacketType (pkt : Packet) (s : State) : Host.Outcome State Fault Refusal :=
  .next (if typeKnown pkt.type then s else s.bump fabNorouteDropsCount)

/-- BIRTH lies more than 500 µs in the past, by fabric time in units of 64 ns. -/
def State.aged (s : State) (p : Packet) : Bool := decide (p.type < 0x10) && decide (7812 < (s.birth + 65536 - p.birth) % 65536)

/-- PACKET_AGED: a packet that has died of age is dropped, from a port's queue or as it arrives, and counted. -/
def State.dropAged (s : State) (p : Packet) : State :=
  if s.aged p then
    ({ s with fab := { s.fab with ports := s.fab.ports.map fun (n, q) =>
        (n, { q with queue := q.queue.filter fun x => decide (x.2 ≠ p) }) } } : State).bump fabAgedDropsCount
  else s

/-- PACKET_AGED. -/
def execPacketAged (pkt : Packet) (now : Nat) (s : State) : Host.Outcome State Fault Refusal :=
  .next ((s.tick now).dropAged pkt)

end Sys2Proof.Machine
end

