-- ==== Sys2Proof/Machine/Route.lean ====
section
/-! DEFINITION. Route tables (R366 to R372): images, their checks and their switch, patches, and switch requests at the
emitter (R83, R84). -/
namespace Sys2Proof.Machine

/- ## Requests at the emitter (R83) -/

/-- Announcement of a table: 1 blocking, 2 chorus, 3 route. -/
def State.announced (s : State) (kind : Nat) : Announce :=
  if kind = 1 then s.cue.annBlk else if kind = 2 then s.cue.annChorus else s.cue.annRoute

def State.setAnnounced (s : State) (kind : Nat) (a : Announce) : State :=
  if kind = 1 then { s with cue := { s.cue with annBlk := a } }
  else if kind = 2 then
    ({ s with cue := { s.cue with annChorus := a } } : State).setFlag chorusStatusPending (a.valid && a.gen % 256 != s.fld chorusStatusGen)
  else
    ({ s with cue := { s.cue with annRoute := a } } : State).setFlag routeStatusPending (a.valid && a.gen != s.fld routeStatusGen)

/-- The cues from the present one to a target, by the low 32 bits that an announcement carries. -/
def State.cuesTo (s : State) (target : Nat) : Nat := (target + 2 ^ 32 - s.cueNo % 2 ^ 32) % 2 ^ 32

/-- A switch of a kind is pending: announced with a target ahead. -/
def State.switchPending (s : State) (kind : Nat) : Bool :=
  (s.announced kind).valid && decide (0 < s.cuesTo (s.announced kind).target) &&
    decide (s.cuesTo (s.announced kind).target < 2 ^ 31)

/-- A switch request on a member (R83): ignored where it does not emit and for kind 0; rejected for a bad LEAD and within
one cue of a pending switch's target. A chorus generation is announced in bits 7:0 (R394). -/
def State.switchRequest (s : State) (kind gen lead : Nat) : State :=
  if s.fld cueStatusLock ≠ 4 ∨ kind = 0 then s
  else if lead < 2 ∨ 63 < lead ∨ (s.switchPending kind ∧ s.cuesTo (s.announced kind).target ≤ 1) then
    s.setFlag cueStatusSwitchReject true
  else
    (s.setAnnounced kind { valid := true, gen := if kind = 2 then gen % 256 else gen,
                           target := (s.cueNo + lead) % 2 ^ 32 }).setFlag cueStatusSwitchReject false

/- ## Images (R366, R367, R370) -/

/-- Bytes of a route image. -/
def routeBytes : Nat := 32896

/-- Key of route buffer 0 (A) or 1 (B), where the base obeys its rule (R366). -/
def State.routeKey (s : State) (buf : Nat) : Option Nat :=
  let b := s.fld routeTableBaseBase
  if b % 65536 = 0 && s.ownMem (b + 65536 * buf) 65536 then some (addrKey (b + 65536 * buf)) else none

/-- A route entry obeys Table 13.7. -/
def routeEntryOk (member m e : Nat) : Bool :=
  if bit e 63 then
    if bit e 23 then decide (e = 2 ^ 63 + 2 ^ 23) && m == member
    else decide (field e 0 4 < 12) && decide (field e 4 4 < 12) && bit e (8 + field e 0 4) && bit e (8 + field e 4 4) &&
      decide (field e 20 3 ≤ 5) && decide (field e 24 39 = 0)
  else decide (e = 0)

/-- Aliases of an image, by slot. -/
def aliasOf (b : List Byte) (a : Nat) : Nat := leAt b (64 + 4 * a) 4

/-- The checks of R370 on the image of a generation. -/
def State.routeImageOk (s : State) (b : List Byte) (gen : Nat) : Bool :=
  let n := leAt b 2 2
  let al := (List.range n).map (aliasOf b)
  leAt b 0 2 == gen && decide (gen ≠ 0) && decide (n ≤ 16) && leAt b 4 4 == crc32 ((b.drop 64).take 32832) &&
    leAt b 8 2 == s.member && zeroAt b 10 54 &&
    al.all (fun a => bit a 31 && decide (field a 24 7 = 0) && decide (field a 0 12 ≠ field a 12 12)) &&
    allDistinct (al.map fun a => field a 0 12) && (List.range 16).all (fun a => decide (a < n) || aliasOf b a == 0) &&
    (List.range 4096).all (fun m => routeEntryOk s.member m (leAt b (128 + 8 * m) 8)) &&
    leAt b (128 + 8 * s.member) 8 == 2 ^ 63 + 2 ^ 23

/-- The image that bytes hold. -/
def routeImage (b : List Byte) (buf : Nat) : RouteImage :=
  { entries := (List.range 4096).filterMap fun m =>
      let e := leAt b (128 + 8 * m) 8
      if bit e 63 then some (m, BitVec.ofNat 64 e) else none
    aliases := (List.range (leAt b 2 2)).map fun a => (field (aliasOf b a) 0 12, field (aliasOf b a) 12 12)
    buffer := some buf }

/-- The image of a generation in one of the buffers, buffer A looked at first. Uncorrectable data fails the check. -/
def State.findRoute (s : State) (gen : Nat) : Option RouteImage :=
  [0, 1].findSome? fun buf =>
    match s.routeKey buf with
    | some k =>
      if !s.devShut k && !s.devBad k routeBytes && s.routeImageOk (s.devRead k routeBytes) gen then
        some (routeImage (s.devRead k routeBytes) buf)
      else none
    | none => none

/-- A route generation comes into force at a boundary, or the member enters or stays in route hold (R370, R412). A new
alias is logged (R419); one that takes a lost member's number ends the wait for a takeover, and so does an image that is no
patch. -/
def State.switchRoute (s : State) (gen : Nat) : State :=
  match s.findRoute gen with
  | none =>
    let t : State := { s with fab := { s.fab with wantRoute := some gen } }
    if s.flag routeStatusHold then t else (t.setFlag routeStatusHold true).event
  | some i =>
    let patched := s.fab.patchGen == some gen
    let fresh := i.aliases.filter fun a => !s.fab.route.aliases.contains a
    let t : State := { s with
      fab := { s.fab with route := i, wantRoute := none, patchGen := none, patchPairs := [] }
      coll := { s.coll with
        lost := []
        takeovers := if patched then s.coll.takeovers.filter fun x => !i.aliases.any fun a => a.1 == x.lost else [] }
      cue := { s.cue with routeSinceDetach := s.cue.routeSinceDetach || s.cue.routeNews } }
    let t := ((((t.setFld routeStatusGen gen).setFlag routeStatusHold false).setFlag routeStatusPatched patched).setFld
      chorusStatusLostCount 0).setFlag routeStatusPending false
    fresh.foldl (fun u a => u.chorusEvent ⟨3, 0, a.1, a.2, 0, 0⟩) t

/- ## Patches (R372) -/

/-- Aliases after one pair is added: it replaces one with the same LOST, or takes the next slot. -/
def addAlias (l : List (Nat × Nat)) (p : Nat × Nat) : List (Nat × Nat) :=
  if l.any fun a => a.1 == p.1 then l.map fun a => if a.1 = p.1 then p else a else l ++ [p]

/-- The bytes of an image. -/
def State.imageBytes (s : State) (gen : Nat) (i : RouteImage) : List Byte :=
  let al := i.aliases.flatMap fun (l, x) => leBytes 4 (l + 2 ^ 12 * x + 2 ^ 31)
  let ent := (List.range 4096).flatMap fun m => leBytes 8 (match cellFind m i.entries with
    | some e => e.toNat
    | none => if m = s.member then 2 ^ 63 + 2 ^ 23 else 0)
  let body := (al ++ List.replicate 64 0).take 64 ++ ent
  leBytes 2 gen ++ leBytes 2 i.aliases.length ++ leBytes 4 (crc32 body) ++ leBytes 2 s.member ++ leBytes 54 0 ++ body

/-- The standby route buffer: the one that does not hold the image in force. -/
def State.standbyRoute (s : State) : Nat := if s.fab.route.buffer = some 0 then 1 else 0

/-- A patch of a generation received, or sent by this member: the standby buffer takes the image in force with the pairs
added. One that would need more than 16 aliases changes nothing and is no request. A buffer that cannot be written raises a
device event. -/
def State.takePatch (s : State) (gen : Nat) (pairs : List (Nat × Nat)) : State :=
  let al := pairs.foldl addAlias s.fab.route.aliases
  if 16 < al.length then (if s.fld cueStatusLock = 4 then s.setFlag cueStatusSwitchReject true else s)
  else
    let t : State := { s with fab := { s.fab with patchGen := some gen, patchPairs := pairs } }
    let u := match s.routeKey s.standbyRoute with
      | some k => if s.devShut k then t.event else t.devWrite k (s.imageBytes gen { s.fab.route with aliases := al })
      | none => t.event
    u.switchRequest 3 gen 2

/-- Body of a ROUTE_PATCH message (Table 13.5). -/
def patchBody (gen : Nat) (pairs : List (Nat × Nat)) : List Byte :=
  (leBytes 2 gen ++ leBytes 1 pairs.length ++ leBytes 1 0 ++ (pairs.flatMap fun (l, x) => leBytes 2 l ++ leBytes 2 x) ++
    List.replicate 32 0).take 36

/-- Pairs of a body. -/
def patchPairsOf (b : List Byte) (n : Nat) : List (Nat × Nat) :=
  (List.range n).map fun k => (leAt b (4 + 4 * k) 2 % 4096, leAt b (6 + 4 * k) 2 % 4096)

/-- A patch flooded by this member, which takes it too (R372). -/
def State.floodPatch (s : State) (gen : Nat) (pairs : List (Nat × Nat)) : State :=
  (s.originate (s.prompter ptRoutePatch 0 true (patchBody gen pairs))).takePatch gen pairs

/-- ROUTE_PATCH_MESSAGE. -/
def State.routePatchMsg (s : State) (p : Packet) : State :=
  if p.type ≠ ptRoutePatch ∨ leAt p.data 2 1 = 0 ∨ 8 < leAt p.data 2 1 then s
  else s.onFlood p fun t => t.takePatch (leAt p.data 0 2) (patchPairsOf p.data (leAt p.data 2 1))

/-- ROUTE_PATCH_MESSAGE. -/
def execRoutePatchMessage (_port : Nat) (pkt : Packet) (s : State) : Host.Outcome State Fault Refusal :=
  .next (s.routePatchMsg pkt)

/-- UNDERSTUDY_TAKEOVER (R413): this member, candidate `k` for a lost member, sends its patch at or after the boundary of
cue `c + 3k`, once no alias for the lost member is in force or announced. It does so once. -/
def State.takeover (s : State) (lost entry : Nat) : State :=
  match s.coll.takeovers.find? fun t => t.lost == lost && t.entry == entry, (s.candidates entry).findIdx? fun u => u == s.member with
  | some t, some k =>
    if t.acted || s.muted || s.cueNo < t.cue + 3 * k || s.fab.route.aliases.any (fun a => a.1 == lost) ||
        s.announcedPairs.any (fun a => a.1 == lost) then s
    else
      let gen := if s.fld routeStatusGen = 65535 then 1 else s.fld routeStatusGen + 1
      let u : State := { s with coll := { s.coll with takeovers := s.coll.takeovers.map fun x =>
        if x.lost = lost ∧ x.entry = entry then { x with acted := true } else x } }
      (u.chorusEvent ⟨2, 0, lost, s.member, 0, entry⟩).floodPatch gen [(lost, s.member)]
  | _, _ => s

/-- UNDERSTUDY_TAKEOVER. -/
def execUnderstudyTakeover (lost entry now : Nat) (s : State) : Host.Outcome State Fault Refusal :=
  .next ((s.tick now).takeover lost entry)

end Sys2Proof.Machine
end

