-- ==== Sys2Proof/Machine/Tier.lean ====
section
/-! DEFINITION. The memory system (09_memory_system.md): granules and quotas, tile moves and fills, temperatures, lanes,
the patrol and the sweep. -/
namespace Sys2Proof.Machine

/- ## Granules (R270 to R274) -/

/-- Use and quota registers of a context in a tier. -/
def useFld (tier c : Nat) : Fld := if tier = 0 then ctxUseHbmGranules c else ctxUseLpddrGranules c
def quotaFld (tier c : Nat) : Fld := if tier = 0 then ctxQuotaHbmGranules c else ctxQuotaLpddrGranules c

/-- Owners of the granules of a run, by granule key tier × 2^22 + granule: 0 free, 1 + context, 65 device-reserved. -/
def State.granules (s : State) (tier first count : Nat) : List (Nat × Nat) :=
  s.mem.owners.filter fun g => decide (tier * 2 ^ 22 + first ≤ g.1) && decide (g.1 < tier * 2 ^ 22 + first + count)

/-- A granule entry's tier, first and count (R273). -/
structure Granules where
  tier : Nat
  first : Nat
  count : Nat
  deriving DecidableEq, Repr

/-- The present item's run of granules, after check 1 of R274. -/
def granuleItem (isGrant : Bool) : ItemM Granules := do
  payTail 9
  let list ← pay 0 8
  require (decide (list % 8 = 0) && decide ((← pay 8 1) < (if isGrant then 2 else 1))) stBad
  let e ← loadNat (list + 8 * (← read).item) 8
  let g : Granules := ⟨field e 0 2, field e 2 22, field e 24 20⟩
  require (decide (e / 2 ^ 44 = 0) && decide (g.tier < 2) && decide (g.count ≠ 0) &&
    (← get).populated g.tier (g.first * 2 ^ 21) (g.count * 2 ^ 21)) stBad
  return g

/-- Every granule of a run given one owner, or none. -/
def State.setOwners (s : State) (g : Granules) (owner : Nat) : State :=
  { s with mem := { (s.sramFresh (sramOwner (g.tier * 2 ^ 22 + g.first)) g.count).mem with
    owners := if owner = 0 then cellClear s.mem.owners (g.tier * 2 ^ 22 + g.first) g.count
      else cellWrite 0 s.mem.owners (g.tier * 2 ^ 22 + g.first) (List.replicate g.count owner) } }

/-- The owner table's words for a run of granules must be readable (R259, R261). -/
def ownerWords (g : Granules) : ItemM Unit := sramTable (sramOwner (g.tier * 2 ^ 22 + g.first)) g.count

/-- The work of `GRANT` (R273, R274). DETAIL is the use of the tier after the item, also where the item changes nothing. -/
def grantWork : ItemM Done := do
  let g ← granuleItem true
  ownerWords g
  let s ← get
  let c := (← read).ctx
  let zero := (← pay 8 1) = 1
  let used := s.fld (useFld g.tier c)
  require (s.granules g.tier g.first g.count).isEmpty stBad used
  require (decide (used + g.count ≤ s.fld (quotaFld g.tier c))) stQuota used
  let key := g.tier * 2 ^ 43 + g.first * 2 ^ 21
  if zero then require (!s.devShut key) stPartReset used
  let t := (s.setOwners g (1 + c)).bump (useFld g.tier c) g.count
  set (if zero then t.devZero key (g.count * 2 ^ 21) else t)
  return done stOk (t.fld (useFld g.tier c)) (64 + if zero then g.count * 32768 else 0)

/-- GRANT. -/
def execGrantGranules (run item : Nat) (s : State) : Host.Outcome State Fault Refusal := .next (s.runItem 5 0 grantWork run item)

/-- The work of `RELEASE` (R273, R274). -/
def releaseWork : ItemM Done := do
  let g ← granuleItem false
  ownerWords g
  let s ← get
  let c := (← read).ctx
  let l := s.granules g.tier g.first g.count
  require (decide (l.length = g.count) && l.all fun x => x.2 == 1 + c) stBad (s.fld (useFld g.tier c))
  let t := s.setOwners g 0
  set (t.setFld (useFld g.tier c) (s.fld (useFld g.tier c) - g.count))
  return done stOk ((← get).fld (useFld g.tier c)) 64

/-- RELEASE. -/
def execReleaseGranules (run item : Nat) (s : State) : Host.Outcome State Fault Refusal := .next (s.runItem 5 1 releaseWork run item)

/-- A context's granules on this member all freed, with its use (R270, R383). -/
def State.freeGranules (s : State) (c : Nat) : State :=
  let t : State := { s with mem := { s.mem with owners := s.mem.owners.filter fun g => g.2 != 1 + c } }
  (t.setFld (ctxUseHbmGranules c) 0).setFld (ctxUseLpddrGranules c) 0

/- ## Copies (R275 to R278, R374) -/

/-- One end of a copy. -/
inductive Place where
  | mem (addr : Nat)
  | flash (addr : Nat)
  | sram (key : Nat)
  deriving DecidableEq, Repr

/-- A global address names the register tier, which no copy may (R30, R276). -/
def regTier (a : Nat) : Bool := decide (a / 2 ^ 57 = 0) && decide (addrTier a = 3)

/-- End of a copy at a global address. -/
def globPlace (a : Nat) : Place := if addrTier a = 2 then .flash a else .mem a

/-- An end lies in the flash window. -/
def placeFlash : Place → Bool
  | .flash _ => true
  | _ => false

/-- An end lies on this member. -/
def State.placeOwn (s : State) : Place → Bool
  | .mem a => s.isOwn (addrMember a)
  | .flash a => s.isOwn (addrMember a)
  | .sram _ => true

/-- The checks of R276 and R374 on one end that need no route; nothing is touched. -/
def placeCheck (p : Place) (len : Nat) : ItemM Unit := do
  let s ← get
  match p with
  | .sram _ => pure ()
  | .mem a =>
    require (decide (a % 64 = 0) && !addrBad a len && decide (addrTier a < 2)) stBad
    if s.isOwn (addrMember a) then require (s.populated (addrTier a) (addrOff a) len) stBad
  | .flash a =>
    require (decide (a / 2 ^ 57 = 0) && decide (a % 65536 = 0) && decide (len % 65536 = 0)) stBad
    if s.isOwn (addrMember a) then require (s.flashRange (← read).ctx (addrOff a) len).isSome stBad

/-- An end on another member must have a route (R31, R412). -/
def placeRoute (p : Place) : ItemM Unit := do
  match p with
  | .sram _ => pure ()
  | .mem a => if !(← get).isOwn (addrMember a) then remoteOk (addrMember a) 1 false
  | .flash a => if !(← get).isOwn (addrMember a) then remoteOk (addrMember a) 3 false

/-- The checks of both ends of a copy: what makes the descriptor bad comes before a missing route (R276; log entry 67). -/
def placesCheck (src dst : Place) (len : Nat) : ItemM Unit := do
  placeCheck src len
  placeCheck dst len
  placeRoute src
  placeRoute dst

/-- Two ranges of one length meet in one place. -/
def State.placesMeet (s : State) (len : Nat) : Place → Place → Bool
  | .sram a, .sram b => decide (a < b + len) && decide (b < a + len)
  | .mem a, .mem b | .flash a, .flash b =>
    (s.lookupMember (addrMember a) == s.lookupMember (addrMember b) || (s.isOwn (addrMember a) && s.isOwn (addrMember b))) &&
      decide (addrKey a < addrKey b + len) && decide (addrKey b < addrKey a + len)
  | _, _ => false

/-- Bytes of a remote range before its first packet that was answered with uncorrectable data, all of them where none was:
such an answer leaves an empty packet among what has arrived (R277, R379). -/
def badFrom (arr : List (Nat × List Byte)) (a len : Nat) : Nat :=
  arr.foldl (fun n (x, bs) => if bs.isEmpty && decide (a ≤ x) && decide (x < a + n) then x - a else n) len

/-- Bytes of a source up to the line that holds its first uncorrectable data, and whether there is such a line (R263,
R277). -/
def readPlace (p : Place) (len : Nat) : ItemM (List Byte × Bool) := do
  let s ← get
  let e ← read
  match p with
  | .sram k =>
    require (!s.inCoppice (sramPart k)) stPartReset
    let (t, bs) := s.readSram (e.source s 0) k len
    set t
    match bs with
    | some bs => return (bs, false)
    | none => return (s.sramRead k ((s.firstBadSram k len - k) / 64 * 64), true)
  | .mem a =>
    if s.isOwn (addrMember a) then
      require (!s.devShut (addrKey a)) stPartReset
      let (t, bs) := s.readMem (e.source s 0) (addrKey a) len
      set t
      match bs with
      | some bs => return (bs, false)
      | none => return (s.devRead (addrKey a) ((s.firstBad (addrKey a) len - addrKey a) / 64 * 64), true)
    else
      let n := badFrom ((← theItem).elim [] fun x => x.arrived) a len
      return (← loadAt a n, decide (n < len))
  | .flash a =>
    if s.isOwn (addrMember a) then
      match s.flashRange e.ctx (addrOff a) len with
      | some tiles => flashLoad tiles
      | none => stopWith stBad
    else
      let n := badFrom ((← theItem).elim [] fun x => x.arrived) a len
      return (← loadAt a n, decide (n < len))

/-- A copy after its checks. A destination in this member's flash window joins its run's batch (R294), and waits for its map
commit (R288); where its source cannot be read whole nothing is programmed (log entry 40). -/
def copyRange (src dst : Place) (len : Nat) : ItemM Done := do
  let e ← read
  let s0 ← get
  let stage ← itemStage
  if stage = 3 then throw .hold
  match dst with
  | .flash a =>
    if s0.isOwn (addrMember a) then
      match s0.flashRange e.ctx (addrOff a) len with
      | none => stopWith stBad
      | some tiles =>
        if stage = 0 then require (s0.flashQuota e.ctx tiles) stQuota
        joinBatch tiles
        let (bs, bad) ← readPlace src len
        if bad then return done stUncorrectable 0 0
        modify fun s => s.giveData e.run e.item bs
        modifyItem fun x => { x with stage := 3 }
        throw .hold
    else
      let (bs, bad) ← readPlace src len
      if bad then return done stUncorrectable 0 0
      storeAt a bs
      return done stOk (moveLines len) (256 + len / 64)
  | .mem a =>
    let (bs, bad) ← readPlace src len
    storeAt a bs
    return done (if bad then stUncorrectable else stOk) (moveLines bs.length) (256 + bs.length / 64)
  | .sram key =>
    let (bs, bad) ← readPlace src len
    sramStore key bs
    return done (if bad then stUncorrectable else stOk) (moveLines bs.length) (256 + bs.length / 64)

/- ## TILE_MOVE and TILE_FILL (R275 to R278) -/

/-- Global address of item `i` at an endpoint, if it is of KIND 0. -/
def endAddr (b : List Byte) (i stride : Nat) : Option Nat :=
  if leAt b 8 1 = 0 then some ((leAt b 0 8 + i * stride) % 2 ^ 64) else none

/-- An endpoint's fixed bytes (Table 9.12). -/
def endOk (b : List Byte) : Bool :=
  zeroAt b 10 6 && (if leAt b 8 1 = 0 then leAt b 9 1 == 0
    else leAt b 8 1 == 1 && decide (leAt b 9 1 < 8) && zeroAt b 4 4)

/-- End of item `i` of a move, none where an SRAM range is misaligned or out of its place. -/
def endPlace (b : List Byte) (i stride len : Nat) : Option Place :=
  match endAddr b i stride with
  | some a => some (globPlace a)
  | none =>
    let w := leAt b 0 4
    if w % 4 = 0 ∨ w % 4 = 3 ∨ (i * stride) % 64 ≠ 0 ∨ field w 2 5 * (w % 2) ≠ 0 then none
    else (locKey (18 * leAt b 9 1) w (i * stride) len).map Place.sram

/-- The payload rules that both opcodes share (Table 9.11). -/
def moveCheck (fill : Bool) : ItemM Unit := do
  payZero 2 2
  payZero 5 3
  payZero 60 36
  let d := (← read).desc
  let p := payloadOf d
  let len := leAt p 4 1
  require (decide (leAt p 0 1 ≤ 15) && decide (leAt p 1 1 < 16) && decide (leAt p 0 1 + leAt p 1 1 ≤ 15) && decide (1 ≤ len) &&
    decide (len ≤ 16) && endOk (p.drop 24) &&
    ((← read).count == 1 || decide (len * 65536 ≤ leAt p 48 8)) &&
    (if fill then zeroAt p 8 16 && zeroAt p 40 8 else zeroAt p 56 4 && endOk (p.drop 8))) stBad

/-- The work of `TILE_MOVE`. -/
def tileMoveWork : ItemM Done := do
  moveCheck false
  let e ← read
  let p := payloadOf e.desc
  let len := leAt p 4 1 * 65536
  let src := (p.drop 8).take 16
  let dst := (p.drop 24).take 16
  require (!((endAddr src e.item (leAt p 40 8)).any regTier || (endAddr dst e.item (leAt p 48 8)).any regTier)) stNotAuth
  match endPlace src e.item (leAt p 40 8) len, endPlace dst e.item (leAt p 48 8) len with
  | some a, some b =>
    require (!(← get).placesMeet len a b) stBad
    placesCheck a b len
    copyRange a b len
  | _, _ => stopWith stBad

/-- TILE_MOVE. -/
def execTileMove (run item : Nat) (s : State) : Host.Outcome State Fault Refusal := .next (s.runItem 5 2 tileMoveWork run item)

/-- The work of `TILE_FILL`. -/
def tileFillWork : ItemM Done := do
  moveCheck true
  let e ← read
  let p := payloadOf e.desc
  let len := leAt p 4 1 * 65536
  let dst := (p.drop 24).take 16
  let bs := (List.replicate (len / 4) (leBytes 4 (leAt p 56 4))).flatMap id
  require (!(endAddr dst e.item (leAt p 48 8)).any regTier) stNotAuth
  match endPlace dst e.item (leAt p 48 8) len with
  | some (.mem a) =>
    placeCheck (.mem a) len
    placeRoute (.mem a)
    storeAt a bs
    return done stOk (moveLines len) (256 + len / 64)
  | some (.sram k) =>
    sramStore k bs
    return done stOk (moveLines len) (256 + len / 64)
  | _ => stopWith stBad

/-- TILE_FILL. -/
def execTileFill (run item : Nat) (s : State) : Host.Outcome State Fault Refusal := .next (s.runItem 5 3 tileFillWork run item)

/-- The work of `QUOTA_READ` (R279). -/
def quotaReadWork : ItemM Done := do
  let e ← read
  let c ← pay 0 1
  if c ≠ e.ctx then requireManaged
  payZero 1 7
  payTail 16
  let a ← pay 8 8
  require (decide (c < 64) && decide (a % 64 = 0) && decide (e.count = 1)) stBad
  let s ← get
  store a (leBytes 4 (s.fld (ctxQuotaHbmGranules c)) ++ leBytes 4 (s.fld (ctxUseHbmGranules c)) ++
    leBytes 4 (s.fld (ctxQuotaLpddrGranules c)) ++ leBytes 4 (s.fld (ctxUseLpddrGranules c)) ++
    leBytes 4 (s.fld (ctxQuotaFlashTiles c)) ++ leBytes 4 (s.fld (ctxUseFlashTiles c)) ++
    leBytes 4 (s.fld (ctxKvpagesLimit c)) ++ leBytes 4 (s.fld (ctxKvheldHeld c)) ++ leBytes 8 s.cueNo ++ leBytes 24 0)
  return done stOk 0 64

/-- QUOTA_READ. -/
def execQuotaRead (run item : Nat) (s : State) : Host.Outcome State Fault Refusal := .next (s.runItem 5 4 quotaReadWork run item)

/- ## Temperatures (R266 to R268), in units of 0.25 °C -/

/-- Thermal point of a reading (Table 9.6): each row holds from its threshold until the reading is below its end. -/
def thermalPoint (old t : Nat) : Nat :=
  if 376 ≤ t ∨ (3 ≤ old ∧ 372 ≤ t) then 3
  else if 368 ≤ t ∨ (2 ≤ old ∧ 364 ≤ t) then 2
  else if 360 ≤ t ∨ (1 ≤ old ∧ 356 ≤ t) then 1
  else 0

def State.thermal (s : State) (n : Nat) : Thermal :=
  match cellFind n s.mem.thermal with
  | some x => x
  | none => { coolRun := 0, point := 0 }

/-- Point that thermal coupling asks of a partition: 0.90 GHz while it is drained (R267). -/
def State.thermalWant (s : State) (n : Nat) : Nat := if s.flag (stackTempDrained n) then 3 else (s.thermal n).point

/-- The voltage that an operating point needs, with the unit's trim of −30 to +10 mV, asked of the regulator (R492, Table
18.4). -/
def State.askVolts (s : State) (n point : Nat) : State :=
  s.emit (.avs n ((([750, 700, 640, 580] : List Nat).getD point 750) + Config.cfgTrim (s.pbBytes 2) n % 41 - 30))

/-- The point in force and `PARTn_OP` brought in line with STEPS `p` and an effective point, with the voltage of a new one. -/
def State.setPoint (s : State) (n steps effective : Nat) : State :=
  let t := ((s.setFld (stackTempSteps n) steps).setFld (partOpEffective n) effective).setFlag (partOpThermal n)
    (decide (s.fld (partOpCeiling n) < steps))
  if s.fld (partOpEffective n) = effective then t else t.askVolts n effective

/-- A step down at once (R90, R266); a step up waits for the boundary. -/
def State.stepDown (s : State) (n : Nat) : State :=
  if s.fld (stackTempSteps n) < s.thermalWant n then
    s.setPoint n (s.thermalWant n) (max (s.fld (partOpEffective n)) (s.thermalWant n))
  else s

/-- Ceilings and steps up at a boundary (Table 3.5, R103). -/
def State.applyPoints (s : State) : State :=
  (List.range 8).foldl (fun t n => t.setPoint n (t.thermalWant n) (max (t.fld (partOpCeiling n)) (t.thermalWant n))) s

/-- One stack's reading: none where the sensor fails (Table 9.6). -/
def State.readStack (s : State) (n : Nat) (reading : Option Int) : State :=
  match reading with
  | none =>
    let t := (s.setFlag (stackTempSensorFail n) true).setFlag (stackTempDrained n) true
    ({ t with mem := { t.mem with thermal := cellPut t.mem.thermal n (some { t.thermal n with coolRun := 0 }) } } : State).stepDown n
  | some r =>
    let v := min r.toNat 1023
    let old := s.thermal n
    let cool := if v < 372 then old.coolRun + 1 else 0
    let drained := decide (380 ≤ v) || (s.flag (stackTempDrained n) && decide (cool < 10))
    let t := ((s.setFlag (stackTempSensorFail n) false).setFld (stackTempTemp n) v).setFlag (stackTempDrained n) drained
    let t := t.setFlag (stackTempRefreshX2 n) (decide (352 ≤ v) || (s.flag (stackTempRefreshX2 n) && decide (344 ≤ v)))
    let t : State := { t with mem := { t.mem with
      thermal := cellPut t.mem.thermal n (some { coolRun := cool, point := thermalPoint old.point v }) } }
    let t := t.stepDown n
    if 400 ≤ v ∧ !s.flag (stackTempTrip n) then (t.setFlag (stackTempTrip n) true).startCoppice n 5
    else if v < 360 then t.setFlag (stackTempTrip n) false
    else t

/-- STACK_TEMP_READ. -/
def execStackTempRead (readings : List (Option Int)) (now : Nat) (s : State) : Host.Outcome State Fault Refusal :=
  .next (((readings.take 8).zipIdx.foldl (fun (t : State) (r, n) => t.readStack n r) (s.tick now)))

/- ## Lanes (R257) -/

/-- LANE_REMAP (Table 9.3): the marked lane moves to the channel's spare. It waits while the stack is in self-refresh or
the stage manager is down (R433, R446). -/
def State.remapLane (s : State) (stack pc lane : Nat) : State :=
  let k := laneKey stack pc lane
  if !s.mem.marked.contains k || s.stackShut stack || !s.rel.smUp then s
  else if s.spareUsed stack pc then
    (if (s.unitClass ⟨5, stack, pc * 8 + lane⟩).confirmed then s else s.noSpare s.scrubSource stack pc lane 0)
  else
    let t : State := { s with mem := { s.mem with
      marked := dropVal k s.mem.marked, remapped := addVal k s.mem.remapped,
      laneFails := s.mem.laneFails.filter fun x => x.1 != k } }
    ((t.memErr 9 t.scrubSource (t.lanePlace stack pc lane 0)).record
      { type := 4, unit := ⟨5, stack, pc * 8 + lane⟩, cause := 4, detector := 2, count := 1, link := 0, data := [] }).saveRepairs

/-- LANE_REMAP. -/
def execLaneRemap (stack pc lane : Nat) (s : State) : Host.Outcome State Fault Refusal := .next (s.remapLane stack pc lane)

/- ## The patrol and the sweep (R255 to R260) -/

/-- What the patrol's read of a line finds is what its cells show from now on, or no longer (R256, R258). -/
def State.noteStuck (s : State) (key : Nat) (f : EccFinding) : State :=
  { s with mem := { s.mem with stuck := cellPut s.mem.stuck key (if f.stuck then some f.errors else none) } }

/-- Units that codeword or word `j` of a line, and for LPDDR the word of its check line that guards it, make
uncorrectable. -/
def State.patrolBad (s : State) (key : Nat) (errs : List CellError) (j : Nat) : List Nat :=
  (if key < 2 ^ 43 then [j] else [j, j + 8]).flatMap fun i =>
    if s.lineVerdict key errs i = .uncorrectable then unitsOf key i else []

/-- The patrol's read of codeword or word `j` of a line: what is corrected is counted; what is not is uncorrectable from now
on, unless the line has been written since the read (R260), and is logged, as is what was uncorrectable before. -/
def State.patrolWord (s : State) (key : Nat) (f : EccFinding) (t : State) (j : Nat) : State :=
  let bad := s.patrolBad key f.errors j
  let u := (if key < 2 ^ 43 then [j] else [j, j + 8]).foldl (fun (x : State) i => x.meetWord x.scrubSource key f.errors i) t
  let u : State := if f.written then u
    else { u with mem := { u.mem with badDev := bad.foldl (fun l b => addVal b l) u.mem.badDev } }
  let own := key + (if key < 2 ^ 43 then 16 else 8) * j
  if bad.isEmpty && !s.mem.badDev.contains own then u else u.badDevRead u.scrubSource own

/-- The patrol's read of one line, with lanes whose parity fails counted (Table 9.2, R257, R258). -/
def State.patrolLine (s : State) (key : Nat) (f : EccFinding) : State :=
  (List.range (if key < 2 ^ 43 then 4 else 8)).foldl (s.patrolWord key f) s

/-- On-die code reports met by a scrub read: counted, and logged once a cue with their count (R255, R265; log
entry 68). -/
def State.noteOnDie (s : State) (key : Nat) (f : EccFinding) : State :=
  if f.onDie = 0 || decide (2 ^ 43 ≤ key) then s
  else ({ s with mem := { s.mem with onDieReports := s.mem.onDieReports + f.onDie } } : State).memNoted 0xA s.scrubSource
    (s.devPlace key 0) f.onDie

/-- The memory is in self-refresh, so that no scrub reads it (R436, R472). -/
def State.scrubHeld (s : State) (key : Nat) : Bool :=
  s.devShut key || (s.powerState == 3) || (s.powerState == 2 && decide (key < 2 ^ 43))

/-- SCRUB_PATROL (R260): one populated line that its stack or package can give. -/
def State.patrol (s : State) (tier line : Nat) (f : EccFinding) : State :=
  let key := tier * 2 ^ 43 + line * 64
  if !s.populated tier (line * 64) 64 || s.scrubHeld key then s
  else (((s.patrolLine key f).noteOnDie key f).draw).noteStuck key f

/-- SCRUB_PATROL. -/
def execScrubPatrol (tier line : Nat) (found : EccFinding) (now : Nat) (s : State) : Host.Outcome State Fault Refusal :=
  .next ((s.tick now).patrol tier line found)

/-- SRAM_SWEEP (R259, R260): one 8-byte word. A word of a partition's control state that cannot be corrected starts its
coppice (Table 15.4). -/
def State.sweep (s : State) (word : Nat) (f : EccFinding) : State :=
  let key := 8 * word
  let n := wordErrors f.errors 0
  let t : State := { s.draw with mem := { s.mem with stuckSram := cellPut s.mem.stuckSram key (if f.stuck ∧ n ≠ 0 then some n else none) } }
  match s.resolved key (wordVerdict n) with
  | .uncorrectable =>
    if sramControl ≤ key ∧ key < 0x51000000 then
      let u := t.memErr 6 t.scrubSource (t.sramPlace key)
      if sramPart key < 8 then u.startCoppice (sramPart key) 3 else u
    else
      let u : State := if f.written then t else { t with mem := { t.mem with badSram := addVal key t.mem.badSram } }
      u.badSramRead u.scrubSource key
  | .corrected =>
    if sramCounted key then t.memCorrected 5 t.scrubSource (t.sramPlace key) (t.sramUnitId key)
    else t.memNoted 5 t.scrubSource (t.sramPlace key) 1
  | _ => if t.sramBad key 8 then t.badSramRead t.scrubSource key else t

/-- SRAM_SWEEP. -/
def execSramSweep (word : Nat) (found : EccFinding) (now : Nat) (s : State) : Host.Outcome State Fault Refusal :=
  .next ((s.tick now).sweep word found)

end Sys2Proof.Machine
end

