-- ==== Sys2Proof/Machine/Remote.lean ====
section
/-! DEFINITION. Requests of other members and the responses to this one's (R375 to R383): generations and teardown steps,
Table 13.9, reads, writes, atomics and bulk packets, and what each response completes. -/
namespace Sys2Proof.Machine

/- ## Generations and the teardown steps (R382, Table 13.11) -/

/-- (h − g) mod 256 of a packet's generation against this member's. -/
def State.genBehind (s : State) (c g : Nat) : Nat := (s.ctxGen c + 256 - g % 256) % 256

/-- Tags of a context's requests that have no answer yet, those that `p` picks. -/
def State.openTags (s : State) (c : Nat) (p : Request → Bool) : List Nat :=
  (s.fab.requests.filter fun q => q.ctx == c && p q).map fun q => q.tag

/-- Every item of a context's runs ends CANCELLED, but for one. -/
def State.cancelContext (s : State) (c : Nat) (but : Option (Nat × Nat)) : State :=
  s.runs.foldl (fun t r =>
    if r.ctx = c then
      r.items.foldl (fun u x => if but = some (r.id, x.index) then u else u.endEarly r.id x.index stCancelled 0) t
    else t) s

/-- The local steps of a teardown: no run of the context is admitted, its items are cancelled, its feeds stop, its
generation is `g`. -/
def State.teardownSteps (s : State) (c g : Nat) (but : Option (Nat × Nat)) : State :=
  let t : State := { s with
    sched := { s.sched with runnable := dropVal c s.sched.runnable, torn := addVal c s.sched.torn }
    fab := { s.fab with advanced := addVal c s.fab.advanced } }
  let t := (t.cancelContext c but).cutFetched (fun f => hdrCtx f.bytes == c) stCancelled
  (t.stopFeeds fun f => f.ctx == c).setFld (ctxFabricGen c) g

/-- A teardown at a receiving member: the steps, and the drain that is to follow. -/
def State.beginTeardown (s : State) (c g : Nat) (origin : Option Nat) (drain : Nat) : State :=
  let waits := s.openTags c fun _ => true
  let t := s.teardownSteps c g none
  { t with fab := { t.fab with teardowns := t.fab.teardowns.filter (fun x => x.ctx != c || x.item.isSome) ++
      [{ ctx := c, item := none, origin := origin, drain := drain, gen := g % 256, members := [], cue := s.cueNo, waits := waits,
         freed := false }] } }

/-- TEARDOWN_MESSAGE. One whose generation a request has brought already only names whom to answer; a stale one changes
nothing; one that would advance the generation a second time in a cue waits for the boundary (R382). -/
def State.teardownMsg (s : State) (p : Packet) : State :=
  let c := leAt p.data 0 1 % 64
  let g := leAt p.data 1 1
  let drain := leAt p.data 4 4
  if p.type ≠ ptTeardown then s
  else if s.fab.teardowns.any fun x => x.ctx == c && x.item.isNone && x.gen == g && x.origin.isNone then
    { s with fab := { s.fab with teardowns := s.fab.teardowns.map fun x =>
        if x.ctx = c ∧ x.item.isNone then { x with origin := some p.src, drain := drain } else x } }
  else if 1 ≤ s.genBehind c g ∧ s.genBehind c g ≤ 128 then s
  else if s.fab.advanced.contains c then
    { s with fab := { s.fab with lateTeardowns := s.fab.lateTeardowns ++ [(c, p.src, g, drain)] } }
  else s.beginTeardown c g (some p.src) drain

/-- TEARDOWN_MESSAGE. -/
def execTeardownMessage (pkt : Packet) (now : Nat) (s : State) : Host.Outcome State Fault Refusal :=
  .next ((s.tick now).teardownMsg pkt)

/-- A request that has been answered or has outlived every packet of it (R363, R383). -/
def State.drained (s : State) (tags : List Nat) : Bool :=
  s.fab.requests.all fun q => !tags.contains q.tag || decide (q.startNs + 500000 ≤ s.now)

/-- Every request of a context that this member accepted has been performed: tiles whose programs are not committed are
the only ones that take time. -/
def State.acceptedDone (s : State) (c : Nat) : Bool :=
  s.flash.inbound.all fun x => x.ctx != c

/-- TEARDOWN_DRAIN_DONE: a receiving member frees the context's granules and answers. -/
def State.teardownDrained (s : State) (c : Nat) : State :=
  match s.fab.teardowns.find? fun x => x.ctx == c && x.item.isNone with
  | none => s
  | some x =>
    if !s.drained x.waits || !s.acceptedDone c then s
    else
      let t := if x.freed then s else s.freeGranules c
      let rest := t.fab.teardowns.filter fun y => y.ctx != c || y.item.isSome
      match x.origin with
      | none => { t with fab := { t.fab with teardowns := rest ++ [{ x with freed := true }] } }
      | some m =>
        ({ t with fab := { t.fab with teardowns := rest } } : State).originate
          (t.prompter ptDrainReturn m false (leBytes 1 c ++ leBytes 1 x.gen ++ leBytes 2 0 ++ leBytes 4 x.drain))

/-- TEARDOWN_DRAIN_DONE. -/
def execTeardownDrainDone (context now : Nat) (s : State) : Host.Outcome State Fault Refusal :=
  .next ((s.tick now).teardownDrained context)

/- ## Accepting requests (R379, R382, R472) -/


/-- An ERROR response (Table 13.9). -/
def State.refuse (s : State) (p : Packet) (status : Nat) : State := s.respond p ptError status []

/-- Source of a request in the memory error log (Table 9.5). -/
def requestSource (p : Packet) : ErrSource :=
  { source := 2, ctx := p.context % 64, ring := 0, desc := 0, item := 0, requester := p.src }

/-- The member takes a packet as addressed to it (R354, R369). -/
def State.addressed (s : State) (p : Packet) : Bool := s.isOwn (addrMember p.addr) && decide (p.addr / 2 ^ 57 = 0)

/-- A request judged by age, destination and generation, and then served. One of a newer generation first applies the
teardown steps; in a cue in which the generation has advanced it waits for the boundary. A request whose response has no
route performs nothing (Table 13.9). -/
def State.onRequest (s : State) (p : Packet) (serve : State → State) : State :=
  let c := p.context % 64
  if s.aged p then s.dropAged p
  else if !s.isOwn p.dst then s.bump fabNorouteDropsCount
  else if 1 ≤ s.genBehind c p.gen ∧ s.genBehind c p.gen ≤ 128 then s.bump fabStaleDropsCount
  else
    let go := fun (t : State) =>
      if (t.choosePort (t.adaptiveCtx c) 2 p.src).isNone then t.refuse p stMemberLost
      else if t.powerState = 3 then t.refuse p stPartReset
      else if !t.flag (ctxCtrlEn c) then t.refuse p stNotAuth
      else if !t.addressed p then t.refuse p stBad
      else serve t
    if s.genBehind c p.gen = 0 then go s
    else if s.fab.advanced.contains c then { s with fab := { s.fab with lateRequests := s.fab.lateRequests ++ [p] } }
    else go (s.beginTeardown c p.gen none 0)

/-- A read of memory or registers served (Table 13.9, R181). -/
def State.serveRead (s : State) (p : Packet) : State :=
  let k := addrKey p.addr
  let closed := p.epoch.any fun e => decide (1 ≤ (s.cueNo + 65536 - e) % 65536) && decide ((s.cueNo + 65536 - e) % 65536 ≤ 32767)
  if addrTier p.addr = 3 then
    (if neverPopulated 3 (addrOff p.addr) p.length || decide (p.addr % 4 ≠ 0) || decide (p.length % 4 ≠ 0) then s.refuse p stBad
     else s.respond p ptReadData 0 (s.loadRegs (addrOff p.addr) p.length))
  else if !s.populated (addrTier p.addr) (addrOff p.addr) p.length then s.refuse p stBad
  else if closed then s.refuse p stOverrun
  else if s.hostShut k then s.refuse p stPartReset
  else
    match s.readMem (requestSource p) k p.length with
    | (t, some bs) => t.respond p ptReadData 0 bs
    | (t, none) => t.refuse p stUncorrectable

/-- A write of memory performed and acknowledged (Table 13.9). A fence written wakes a Dimmed device (R470). -/
def State.serveWrite (s : State) (p : Packet) : State :=
  let k := addrKey p.addr
  let n := p.data.length
  if addrTier p.addr = 3 then s.refuse p stNotAuth
  else if !s.populated (addrTier p.addr) (addrOff p.addr) n then s.refuse p stBad
  else if s.hostShut k then s.refuse p stPartReset
  else if s.devPartBad k n then
    (s.partRefused (requestSource p) k n).refuse p stUncorrectable
  else
    let t := s.devWrite k p.data
    (if t.inFenceTable k then t.wakeDimmed else t).respond p ptWriteAck 0 []

/-- READ (R379). -/
def State.readReq (s : State) (p : Packet) : State :=
  if p.type ≠ ptRead then s
  else s.onRequest p fun t => if 1 ≤ p.length ∧ p.length ≤ 256 ∧ addrTier p.addr ≠ 2 then t.serveRead p else t.refuse p stBad

/-- READ. -/
def execReadRequest (pkt : Packet) (now : Nat) (s : State) : Host.Outcome State Fault Refusal := .next ((s.tick now).readReq pkt)

/-- WRITE (R379). -/
def State.writeReq (s : State) (p : Packet) : State :=
  if p.type ≠ ptWrite then s
  else s.onRequest p fun t =>
    if 1 ≤ p.data.length ∧ p.data.length ≤ 256 ∧ addrTier p.addr ≠ 2 then t.serveWrite p else t.refuse p stBad

/-- WRITE. -/
def execWriteRequest (pkt : Packet) (now : Nat) (s : State) : Host.Outcome State Fault Refusal := .next ((s.tick now).writeReq pkt)

/-- ATOMIC (R375): the operation, operand and compare value are the three 8-byte words of the body. -/
def State.serveAtomic (s : State) (p : Packet) : State :=
  let k := addrKey p.addr
  let op := leAt p.data 0 8
  let n := atomicSize op
  if addrTier p.addr = 3 then s.refuse p stNotAuth
  else if 4 ≤ op ∨ p.data.length ≠ 24 ∨ p.addr % n ≠ 0 ∨ !s.populated (addrTier p.addr) (addrOff p.addr) n then s.refuse p stBad
  else if s.hostShut k then s.refuse p stPartReset
  else if s.devBad k n then
    (s.partRefused (requestSource p) k n).refuse p stUncorrectable
  else
    let (t, old) := s.atomic (p.context % 64) k op (leAt p.data 8 8) (leAt p.data 16 8)
    t.respond p ptAtomicResult 0 (leBytes 8 old)

/-- ATOMIC. -/
def State.atomicReq (s : State) (p : Packet) : State := if p.type ≠ ptAtomic then s else s.onRequest p fun t => t.serveAtomic p

/-- ATOMIC. -/
def execAtomicRequest (pkt : Packet) (now : Nat) (s : State) : Host.Outcome State Fault Refusal := .next ((s.tick now).atomicReq pkt)

/-- A bulk packet's place in the flash window: its logical tile and its 4 KiB part (R361; log entry 36). -/
def State.flashPart (s : State) (p : Packet) (len : Nat) : Option (Nat × Nat) :=
  if p.addr % 4096 = 0 ∧ len = 4096 then
    (s.flashTile (p.context % 64) (addrOff p.addr / 65536)).map fun t => (t, addrOff p.addr % 65536 / 4096)
  else none

/-- A read of a part of a tile by another member: the reads of one tile by one member and context give one content, that of
the first of them, until a part is asked for again (R286). -/
def State.readOf (s : State) (p : Packet) (t i : Nat) : Option RemoteRead :=
  s.flash.outbound.find? fun x => x.src == p.src && x.ctx == p.context && x.tile == t && !x.given.contains i

/-- BULK_READ of a part of a tile (R283, R286, R291, R292). Each read of a tile counts at its block once. It waits until the tier
is ready (R483); while power fails it is abandoned (R298). -/
def State.serveFlashRead (s : State) (p : Packet) : State :=
  match s.flashPart p p.length with
  | none => s.refuse p stBad
  | some (t, i) =>
    if s.flash.failing || s.flag flashStatusQuiesced then s.refuse p stCancelled
    else if !s.flag flashStatusReady then { s with flash := { s.flash with early := s.flash.early ++ [p] } }
    else
      let old := s.readOf p t i
      let x : RemoteRead := old.getD { src := p.src, ctx := p.context, tile := t, bytes := s.tileBytes t, given := [] }
      let y : RemoteRead := { x with given := addVal i x.given }
      let u : State := if old.isSome then s else s.flashCount t
      let rest := u.flash.outbound.filter fun z => !(z.src == p.src && z.ctx == p.context && z.tile == t)
      let u : State := { u with flash := { u.flash with outbound := if y.given.length < 16 then rest ++ [y] else rest } }
      if (s.tileBad t).contains i then u.refuse p stUncorrectable
      else u.respond p ptReadData 0 ((x.bytes.drop (4096 * i)).take 4096)

/-- BULK_READ (R379). -/
def State.bulkReadReq (s : State) (p : Packet) : State :=
  if p.type ≠ ptBulkRead then s
  else s.onRequest p fun t =>
    if !(decide (64 ≤ p.length) && decide (p.length ≤ 4096) && decide (p.length % 64 = 0)) then t.refuse p stBad
    else if addrTier p.addr = 2 then t.serveFlashRead p
    else t.serveRead p

/-- BULK_READ. -/
def execBulkReadRequest (pkt : Packet) (now : Nat) (s : State) : Host.Outcome State Fault Refusal :=
  .next ((s.tick now).bulkReadReq pkt)

/-- A tile that another member programs, whole: judged by quota and the hold-up check, and queued (R287, R296). While the
stage manager is down it waits (R25, R433). -/
def State.judgeInbound (s : State) (x : RemoteTile) : State :=
  let drop : State := { s with flash := { s.flash with inbound := s.flash.inbound.filter fun y => y.id != x.id } }
  let run := remoteRun x.id
  if x.packets.length < 16 || (s.flash.programs.any fun g => g.run == run) then s
  else if s.flash.failing then x.packets.foldl (fun t p => t.refuse p stHoldup) drop.countDeferred
  else if !s.rel.smUp || !s.flag flashStatusReady then s
  else if !s.flashQuota x.ctx [x.tile] then x.packets.foldl (fun t p => t.refuse p stQuota) drop
  else if !s.batchPasses 1 then x.packets.foldl (fun t p => t.refuse p stHoldup) drop.countDeferred
  else
    ((s.enterPrograms run 0 x.ctx [x.tile]).passPrograms fun g => g.run == run).giveData run 0 ((List.range 16).flatMap fun i =>
      match x.packets.find? fun p => addrOff p.addr % 65536 / 4096 == i with
      | some p => p.data
      | none => [])

/-- BULK_WRITE of a part of a tile: kept until the sixteen parts of one program are there (log entry 36). -/
def State.serveFlashWrite (s : State) (p : Packet) : State :=
  match s.flashPart p p.data.length with
  | none => s.refuse p stBad
  | some (t, i) =>
    match s.flash.inbound.find? fun y => y.src == p.src && y.ctx == p.context % 64 && y.tile == t &&
        !(y.packets.any fun q => addrOff q.addr % 65536 / 4096 == i) with
    | some y =>
      let x : RemoteTile := { y with packets := y.packets ++ [p] }
      ({ s with flash := { s.flash with inbound := s.flash.inbound.map fun z => if z.id = x.id then x else z } } : State).judgeInbound x
    | none =>
      { s with flash := { s.flash with
        inbound := s.flash.inbound ++ [{ id := s.flash.nextInbound, src := p.src, ctx := p.context % 64, tile := t, packets := [p] }]
        nextInbound := s.flash.nextInbound + 1 } }

/-- BULK_WRITE (R379). -/
def State.bulkWriteReq (s : State) (p : Packet) : State :=
  if p.type ≠ ptBulkWrite then s
  else s.onRequest p fun t =>
    if !(decide (64 ≤ p.data.length) && decide (p.data.length ≤ 4096) && decide (p.data.length % 64 = 0)) then t.refuse p stBad
    else if addrTier p.addr = 2 then t.serveFlashWrite p
    else t.serveWrite p

/-- BULK_WRITE. -/
def execBulkWriteRequest (pkt : Packet) (now : Nat) (s : State) : Host.Outcome State Fault Refusal :=
  .next ((s.tick now).bulkWriteReq pkt)

/-- What waited for the boundary because a generation had advanced in the cue is done (R382). -/
def State.lateWork (s : State) : State :=
  let t : State := { s with fab := { s.fab with advanced := [], lateTeardowns := [], lateRequests := [] } }
  let t := s.fab.lateTeardowns.foldl (fun (u : State) (c, o, g, d) => u.teardownMsg
    { (u.prompter ptTeardown u.member false (leBytes 1 c ++ leBytes 1 g ++ leBytes 2 0 ++ leBytes 4 d)) with src := o }) t
  s.fab.lateRequests.foldl (fun (u : State) p =>
    ((((u.readReq p).writeReq p).atomicReq p).bulkReadReq p).bulkWriteReq p) t

/- ## Responses (R378, R379) -/

/-- Fences that wait for nothing more complete (R376). -/
def State.checkFences (s : State) : State :=
  let l := s.fab.fences.filter fun f => f.waits.isEmpty && f.members.isEmpty
  l.foldl (fun t f => (t.noteCycles f.run f.item 64).closeItem f.run f.item stOk 0)
    { s with fab := { s.fab with fences := s.fab.fences.filter fun f => !(f.waits.isEmpty && f.members.isEmpty) } }

/-- An outstanding request is over: nothing waits for its tag any more. -/
def State.endRequest (s : State) (tag : Nat) : State :=
  ({ s with fab := { s.fab with
      requests := s.fab.requests.filter fun q => q.tag != tag
      fences := s.fab.fences.map fun f => { f with waits := f.waits.filter fun x => x != tag }
      drains := s.fab.drains.map fun d => { d with waits := d.waits.filter fun x => x != tag }
      teardowns := s.fab.teardowns.map fun t => { t with waits := t.waits.filter fun x => x != tag } } } : State).checkFences

/-- The outstanding request that a response answers. -/
def State.asked (s : State) (tag : Nat) : Option Request := s.fab.requests.find? fun q => q.tag == tag

/-- An item whose effect is made ends once nothing of its writes is outstanding (R381). -/
def State.ackItem (s : State) (run item : Nat) : State :=
  match (s.findRun run).bind fun r => r.item item with
  | some x =>
    (match x.phase with
     | .acking st dt => if s.waitsAck run item then s else s.endItem run item st dt
     | _ => s)
  | none => s

/-- READ_DATA: the data goes to what asked for it. -/
def State.takeData (s : State) (p : Packet) : State :=
  match s.asked p.tag with
  | none => s
  | some q =>
    let t := s.endRequest p.tag
    match q.use with
    | .read r i => t.onItem r i fun x => { x with arrived := x.arrived ++ [(q.addr, p.data)] }
    | .note r i k _ => t.onItem r i fun x => { x with noted := cellPut x.noted k (some [leNat p.data]) }
    | .joinRec tier => t.joinArrived tier q.addr p.data
    | .fnImage => { t with fn := { t.fn with reread := t.fn.reread ++ [(q.addr, p.data)] } }
    | .feed n b k => t.clipArrived n b k q.addr p.data
    | .late => t
    | _ => s

/-- READ_DATA. -/
def execReadData (pkt : Packet) (s : State) : Host.Outcome State Fault Refusal :=
  .next (if pkt.type = ptReadData then s.takeData pkt else s)

/-- WRITE_ACK: the write is visible. -/
def State.takeAck (s : State) (p : Packet) : State :=
  match s.asked p.tag with
  | none => s
  | some q =>
    match q.use with
    | .write r i => (s.endRequest p.tag).ackItem r i
    | .post => s.endRequest p.tag
    | _ => s

/-- WRITE_ACK. -/
def execWriteAck (pkt : Packet) (s : State) : Host.Outcome State Fault Refusal :=
  .next (if pkt.type = ptWriteAck then s.takeAck pkt else s)

/-- The old value written into RESULT, and the item ended (R375). -/
def State.putResult (s : State) (r i a old : Nat) : State :=
  match s.findRun r with
  | none => s
  | some run =>
    let e := run.env s i
    if s.isOwn (addrMember a) then
      if s.devShut (addrKey a) then s.endEarly r i stPartReset 0
      else if s.devPartBad (addrKey a) 8 then
        (s.partRefused (e.source s 4) (addrKey a) 8).endEarly r i stUncorrectable 0
      else ((s.devWrite (addrKey a) (leBytes 8 old)).noteCycles r i 64).closeItem r i stOk 0
    else
      match s.sendRequest (s.request ptWrite e.ctx a 8 (leBytes 8 old)) (s.adaptiveCtx e.ctx) (.write r i) none with
      | some t => (t.noteCycles r i 64).closeItem r i stOk 0
      | none => s.endEarly r i stMemberLost 0

/-- ATOMIC_RESULT. -/
def State.takeResult (s : State) (p : Packet) : State :=
  match s.asked p.tag with
  | none => s
  | some q =>
    match q.use with
    | .atomic r i a =>
      let t := s.endRequest p.tag
      if t.itemOpen r i then t.putResult r i a (leAt p.data 0 8) else t
    | .note r i k _ =>
      (s.endRequest p.tag).onItem r i fun x => { x with noted := cellPut x.noted k (some [leAt p.data 0 8]) }
    | .write r i => (s.endRequest p.tag).ackItem r i
    | .post => s.endRequest p.tag
    | _ => s

/-- ATOMIC_RESULT. -/
def execAtomicResult (pkt : Packet) (s : State) : Host.Outcome State Fault Refusal :=
  .next (if pkt.type = ptAtomicResult then s.takeResult pkt else s)

/-- An item's request has failed with a status. A copy that meets uncorrectable data keeps what it can write: an empty
packet marks where it stops (R277). A half's DETAIL names the member (R410). -/
def State.failItem (s : State) (q : Request) (r i status : Nat) (isRead : Bool) : State :=
  match s.findRun r with
  | none => s
  | some run =>
    if isRead && status == stUncorrectable && run.copies && decide (q.len % 64 = 0) then
      s.onItem r i fun x => { x with arrived := x.arrived ++ [(q.addr, [])] }
    else if hdrClass run.desc.bytes = 0xB && decide (hdrOp run.desc.bytes ≤ 4) then
      s.endEarly r i status (collDetail (s.halfSeq r i) (s.lookupMember q.dst) 0)
    else s.endEarly r i status 0

/-- A request has failed: what it was for ends with the status. A half's request that ends MEMBER_LOST, or that is never
answered, declares the destination lost (R411). -/
def State.failRequest (s : State) (q : Request) (status : Nat) (silent : Bool) : State :=
  let t := s.endRequest q.tag
  let t := match q.use with
    | .read r i => t.failItem q r i status true
    | .write r i => t.failItem q r i status false
    | .atomic r i _ => t.failItem q r i status false
    | .note r i _ _ => t.failItem q r i status false
    | .feed n b k => t.clipRefused n b k status
    | _ => t
  if q.entry.isSome && (silent || status == stMemberLost) then
    t.declareLost (t.lookupMember q.dst) 3 fun e => (t.rankOf t.coll.image e t.member).isSome
  else t

/-- The failing codes of Table 2.17 with which a peer may answer. -/
def peerStatuses : List Nat :=
  [stOverPlan, stBad, stQuota, stNoPage, stTimeout, stCancelled, stOverrun, stUncorrectable, stMismatch, stPartReset, stMemberLost,
    stUnsupported, stHoldup, stNotAuth]

/-- Status of a request that a peer has refused: the peer's, or CANCELLED where that is no code of Table 2.17 that says so
(DESIGN CHOICE, log entry 69). -/
def peerStatus (status : Nat) : Nat := if peerStatuses.contains status then status else stCancelled

/-- ERROR_RESPONSE. -/
def State.takeError (s : State) (p : Packet) : State :=
  match s.asked p.tag with
  | none => s
  | some q => s.failRequest q (peerStatus p.status) false

/-- ERROR_RESPONSE. -/
def execErrorResponse (pkt : Packet) (now : Nat) (s : State) : Host.Outcome State Fault Refusal :=
  .next (if pkt.type = ptError then (s.tick now).takeError pkt else s.tick now)

/-- RESPONSE_TIMEOUT: not before `FAB_RESP_TIMEOUT` µs at 1.75 GHz. -/
def State.timeOut (s : State) (tag : Nat) : State :=
  match s.asked tag with
  | none => s
  | some q =>
    if q.used < 1000 * s.fld fabRespTimeoutUs * 1750 then s
    else s.failRequest q (if s.coll.lost.contains q.dst then stMemberLost else stTimeout) true

/-- RESPONSE_TIMEOUT. -/
def execResponseTimeout (tag now : Nat) (s : State) : Host.Outcome State Fault Refusal := .next ((s.tick now).timeOut tag)

/- ## Prompter messages (R376, R377, R411) -/

/-- DETACHED_NOTICE: a member that watches the sender declares it lost. -/
def State.detachedMsg (s : State) (p : Packet) : State :=
  if p.type ≠ ptDetached then s else s.onFlood p fun t => t.declareLost p.src 2 fun e => t.watches e p.src

/-- DETACHED_NOTICE. -/
def execDetachedNotice (_port : Nat) (pkt : Packet) (now : Nat) (s : State) : Host.Outcome State Fault Refusal :=
  .next ((s.tick now).detachedMsg pkt)

/-- A context is held by STOP: its resume cue, by its low 32 bits, is ahead (R377). -/
def State.stopHeld (s : State) (c : Nat) : Bool :=
  s.sched.stops.any fun (x, r) => x == c && decide (1 ≤ s.cuesTo r) && decide (s.cuesTo r < 2 ^ 31)

/-- A STOP taken: it replaces the context's resume cue. -/
def State.takeStop (s : State) (c resume : Nat) : State :=
  let t : State := { s with sched := { s.sched with stops := s.sched.stops.filter (fun x => x.1 != c) ++ [(c, resume)] } }
  if t.stopHeld c then t else { s with sched := { s.sched with stops := s.sched.stops.filter fun x => x.1 != c } }

/-- STOP_MESSAGE. -/
def State.stopMsg (s : State) (p : Packet) : State :=
  if p.type ≠ ptStop then s else s.onFlood p fun t => t.takeStop (leAt p.data 0 1 % 64) (leAt p.data 4 4)

/-- STOP_MESSAGE. -/
def execStopMessage (_port : Nat) (pkt : Packet) (s : State) : Host.Outcome State Fault Refusal := .next (s.stopMsg pkt)

/-- DRAIN_MESSAGE: the context's writes issued before it are waited for. -/
def State.drainMsg (s : State) (p : Packet) : State :=
  let c := leAt p.data 0 1 % 64
  if p.type ≠ ptDrain then s
  else
    { s with fab := { s.fab with drains := s.fab.drains ++
        [{ src := p.src, drain := leAt p.data 4 4, ctx := c, gen := s.ctxGen c, waits := s.openTags c Request.writes }] } }

/-- DRAIN_MESSAGE. -/
def execDrainMessage (pkt : Packet) (s : State) : Host.Outcome State Fault Refusal := .next (s.drainMsg pkt)

/-- FENCE_DRAIN_DONE. -/
def State.drainDone (s : State) (src drain : Nat) : State :=
  match s.fab.drains.find? fun d => d.src == src && d.drain == drain && d.waits.isEmpty with
  | none => s
  | some d =>
    ({ s with fab := { s.fab with drains := s.fab.drains.filter fun x => !(x.src == src && x.drain == drain) } } : State).originate
      (s.prompter ptDrainReturn src false (leBytes 1 d.ctx ++ leBytes 1 d.gen ++ leBytes 2 0 ++ leBytes 4 drain))

/-- FENCE_DRAIN_DONE. -/
def execFenceDrainDone (src drain : Nat) (s : State) : Host.Outcome State Fault Refusal := .next (s.drainDone src drain)

/-- A list of awaited members without the one that answered, under its own number or a lost one that it stands for. -/
def State.dropMember (s : State) (m : Nat) (l : List Nat) : List Nat := l.filter fun x => x != m && s.lookupMember x != m

/-- DRAIN_RETURN: counted at the fence, or at the teardown, that its drain identifier names. -/
def State.drainReturned (s : State) (p : Packet) : State :=
  let c := leAt p.data 0 1 % 64
  let drain := leAt p.data 4 4
  if p.type ≠ ptDrainReturn then s
  else
    ({ s with fab := { s.fab with
        fences := s.fab.fences.map fun f => if f.drain = drain then { f with members := s.dropMember p.src f.members } else f
        teardowns := s.fab.teardowns.map fun t =>
          if t.item.isSome ∧ t.ctx = c ∧ t.drain = drain ∧ t.gen = leAt p.data 1 1 then
            { t with members := s.dropMember p.src t.members }
          else t } } : State).checkFences

/-- DRAIN_RETURN. -/
def execDrainReturn (pkt : Packet) (s : State) : Host.Outcome State Fault Refusal := .next (s.drainReturned pkt)

end Sys2Proof.Machine
end

