-- ==== Sys2Proof/Machine/Fabric.lean ====
section
/-! DEFINITION. Items of class 0x0A (R373 to R377) and CONTEXT_TEARDOWN with its reuse point (R383 to R386). -/
namespace Sys2Proof.Machine

/- ## The fabric engine (R79, R373) -/

/-- Items of class 0x0A that run. -/
def State.fabRunning (s : State) : Nat :=
  s.runs.foldl (fun (n : Nat) r => if hdrClass r.desc.bytes = 0xA then n + (r.items.filter Item.isRunning).length else n) 0

/-- The engine takes an unstarted item: at most 64 run, in admission order and then in item order (R373). -/
def State.fabTurn (s : State) (run item : Nat) : Bool :=
  match (s.findRun run).bind fun r => r.item item with
  | none => false
  | some x =>
    if x.isUnstarted then
      decide (s.fabRunning < 64) && s.runs.all fun r =>
        hdrClass r.desc.bytes != 0xA || decide (run < r.id) ||
          r.items.all fun y => !y.isUnstarted || (r.id == run && decide (item ≤ y.index))
    else true

/-- An item of class 0x0A. -/
def State.runFab (s : State) (op : Nat) (work : ItemM Done) (run item : Nat) : State :=
  if s.fabTurn run item then s.runItem 0xA op work run item else s

/-- A Detached member completes every item of the class MEMBER_LOST (R79). -/
def notDetached : ItemM Unit := do
  require (!(← get).detached) stMemberLost

/-- ITEMS must be 0 (Table 13.8). -/
def oneItem : ItemM Unit := do
  require (decide ((← read).count = 1)) stBad

/- ## FAB_COPY (R374) -/

/-- Entry `i` of a list of 32-byte entries. -/
def fabEntry : ItemM (List Byte) := do
  let list ← pay 0 8
  load (list + 32 * (← read).item) 32

/-- The work of `FAB_COPY`. -/
def fabCopyWork : ItemM Done := do
  notDetached
  payTail 8
  require (decide ((← pay 0 8) % 32 = 0)) stBad
  let b ← fabEntry
  let src := leAt b 0 8
  let dst := leAt b 8 8
  let len := leAt b 16 4
  require (!regTier dst) stNotAuth
  require (!regTier src && decide (64 ≤ len) && decide (len ≤ GiB) && decide (len % 64 = 0) && zeroAt b 20 12 &&
    !(← get).placesMeet len (globPlace src) (globPlace dst)) stBad
  placesCheck (globPlace src) (globPlace dst) len
  copyRange (globPlace src) (globPlace dst) len

/-- FAB_COPY. -/
def execFabCopy (run item now : Nat) (s : State) : Host.Outcome State Fault Refusal :=
  .next ((s.tick now).runFab 0 fabCopyWork run item)

/- ## FAB_ATOMIC (R375) -/

/-- The work of `FAB_ATOMIC`: at this member at once, at another by one ATOMIC packet. -/
def fabAtomicWork : ItemM Done := do
  notDetached
  payTail 9
  let op ← pay 8 1
  require (decide (op < 4)) stBad
  if (← itemStage) = 1 then throw .hold
  let b ← fabEntry
  let e ← read
  let a := leAt b 0 8
  let n := atomicSize op
  let res := (← pay 0 8) + 32 * e.item + 24
  require (!regTier a) stNotAuth
  require (decide (a % n = 0) && !addrBad a n) stBad
  checkWrite res 8
  let s ← get
  if s.isOwn (addrMember a) then
    require (s.populated (addrTier a) (addrOff a) n) stBad
    require (!s.devShut (addrKey a)) stPartReset
    if s.devBad (addrKey a) n then
      set (s.partRefused (e.source s 4) (addrKey a) n)
      stopWith stUncorrectable
    let r := s.atomic e.ctx (addrKey a) op (leAt b 8 8) (leAt b 16 8)
    set r.1
    storeAt res (leBytes 8 r.2)
    return done stOk 0 64
  else
    remoteOk (addrMember a) 1 true
    match s.sendRequest (s.request ptAtomic e.ctx a 24 (leBytes 8 op ++ leBytes 8 (leAt b 8 8) ++ leBytes 8 (leAt b 16 8)))
        false (.atomic e.run e.item res) none with
    | none => stopWith stMemberLost
    | some t =>
      set t
      modifyItem fun x => { x with stage := 1 }
      throw .hold

/-- FAB_ATOMIC. -/
def execFabAtomic (run item now : Nat) (s : State) : Host.Outcome State Fault Refusal :=
  .next ((s.tick now).runFab 1 fabAtomicWork run item)

/- ## FAB_PUT (R373) -/

/-- The work of `FAB_PUT`: a store to a fence word wakes a Dimmed device (R470). -/
def fabPutWork : ItemM Done := do
  notDetached
  oneItem
  payZero 9 7
  payZero 80 16
  let a ← pay 0 8
  let n ← pay 8 1
  require (decide (1 ≤ n) && decide (n ≤ 64)) stBad
  store a (((payloadOf (← read).desc).drop 16).take n)
  modify fun s => if s.isOwn (addrMember a) && s.inFenceTable (addrKey a) then s.wakeDimmed else s
  return done stOk 0 64

/-- FAB_PUT. -/
def execFabPut (run item now : Nat) (s : State) : Host.Outcome State Fault Refusal :=
  .next ((s.tick now).runFab 2 fabPutWork run item)

/- ## FAB_FENCE (R376) -/

/-- A DRAIN sent to a member. -/
def State.sendDrain (s : State) (m ctx drain : Nat) : State :=
  s.originate (s.prompter ptDrain m false (leBytes 1 ctx ++ leBytes 3 0 ++ leBytes 4 drain))

/-- The fence waits: for the context's writes to the members that `p` picks, and for the answers of `members`. -/
def fenceOn (p : Nat → Bool) (members : List Nat) : ItemM Done := do
  let e ← read
  let s ← get
  let waits := s.openTags e.ctx fun q => q.writes && p q.dst
  if waits.isEmpty && members.isEmpty then return done stOk 0 64
  let drain := s.fab.nextDrain
  let f : FenceWait := { run := e.run, item := e.item, drain := drain, waits := waits, members := members }
  let t : State := { s with fab := { s.fab with
    nextDrain := if members.isEmpty then drain else (drain + 1) % 2 ^ 32
    fences := s.fab.fences ++ [f] } }
  set (members.foldl (fun (u : State) m => u.sendDrain m e.ctx drain) t)
  modifyItem fun x => { x with stage := 1 }
  throw .hold

/-- The work of `FAB_FENCE`. The chorus entry is read from the generation that the run is bound to (R85). -/
def fabFenceWork : ItemM Done := do
  notDetached
  if (← itemStage) = 1 then throw .hold
  payZero 1 7
  payZero 10 2
  payTail 14
  let mode ← pay 0 1
  let m ← pay 8 2
  let entry ← pay 12 2
  require (decide (mode < 2) && decide (m < 4096) && decide (entry < 1024)) stBad
  let s ← get
  if mode = 0 then
    if !s.isOwn m then remoteOk m 1 false
    fenceOn (fun d => d == m || s.lookupMember d == s.lookupMember m) []
  else
    let gen := match s.findRun (← read).run with
      | some r => r.chorusGen
      | none => 0
    let i := s.chorusAt gen
    require (i.valid entry) stBad
    let others := ((i.rankSlots entry).map slotMember).filter fun x => !s.isOwn x
    others.forM fun x => remoteOk x 0 true
    fenceOn (fun d => others.any fun x => x == d || s.lookupMember x == s.lookupMember d) others

/-- FAB_FENCE. -/
def execFabFence (run item now : Nat) (s : State) : Host.Outcome State Fault Refusal :=
  .next ((s.tick now).runFab 3 fabFenceWork run item)

/- ## FAB_STOP and ROUTE_PATCH (R372, R377) -/

/-- A message of this member still waits to be sent (R360). -/
def State.stillWaiting (s : State) (type : Nat) (body : List Byte) : Bool :=
  s.fab.waiting.any fun p => p.type == type && p.data == body && p.src == s.member

/-- The work of `FAB_STOP`: the member that sends it holds the context too. It ends once the message has left. -/
def fabStopWork : ItemM Done := do
  notDetached
  oneItem
  let c ← pay 0 1
  if c ≠ (← read).ctx then requireManaged
  payZero 1 3
  payTail 8
  let n ← pay 4 4
  require (decide (c < 64) && decide (1 ≤ n) && decide (n ≤ 64)) stBad
  let s ← get
  let stage ← itemStage
  let resume := if stage = 0 then (s.cueNo + n) % 2 ^ 32 else stage - 1
  let body := leBytes 1 c ++ leBytes 3 0 ++ leBytes 4 resume
  if stage = 0 then
    set ((s.originate (s.prompter ptStop 0 true body)).takeStop c resume)
    modifyItem fun x => { x with stage := resume + 1 }
  if (← get).stillWaiting ptStop body then throw .hold
  return done stOk 0 64

/-- FAB_STOP. -/
def execFabStop (run item now : Nat) (s : State) : Host.Outcome State Fault Refusal :=
  .next ((s.tick now).runFab 4 fabStopWork run item)

/-- The work of `ROUTE_PATCH`: it ends when a cue message announces its generation. -/
def routePatchWork : ItemM Done := do
  notDetached
  requireManaged
  oneItem
  if (← itemStage) = 1 then throw .hold
  let gen ← pay 0 2
  let n ← pay 2 1
  require (decide (gen ≠ 0) && decide (1 ≤ n) && decide (n ≤ 8)) stBad
  payZero 3 1
  payTail (4 + 4 * n)
  let b := payloadOf (← read).desc
  require ((List.range (2 * n)).all fun k => decide (leAt b (4 + 2 * k) 2 < 4096)) stBad
  let e ← read
  modify fun s => s.floodPatch gen (patchPairsOf b n)
  modify fun s => { s with fab := { s.fab with patches := s.fab.patches ++ [(e.run, e.item, gen)] } }
  modifyItem fun x => { x with stage := 1 }
  throw .hold

/-- ROUTE_PATCH. -/
def execRoutePatch (run item now : Nat) (s : State) : Host.Outcome State Fault Refusal :=
  .next ((s.tick now).runFab 5 routePatchWork run item)

/-- A cue message announces a route generation: the patches that wait for it complete, with the target in DETAIL
(R377). -/
def State.patchesAnnounced (s : State) (a : Announce) : State :=
  if a.valid then
    (s.fab.patches.filter fun x => x.2.2 == a.gen).foldl
      (fun t (r, i, _) => (t.noteCycles r i 64).closeItem r i stOk (a.target % 2 ^ 32)) s
  else s

/- ## CONTEXT_TEARDOWN (R383 to R386) -/

/-- Members that a teardown of a context goes to: those of its chorus entry in the generation that the run is bound to,
other than this one. -/
def State.teardownMembers (s : State) (c gen : Nat) : List Nat :=
  if s.flag (ctxFabricChorusEn c) then
    (((s.chorusAt gen).rankSlots (s.fld (ctxFabricChorus c))).map slotMember).filter fun m => !s.isOwn m
  else []

/-- The work of `CONTEXT_TEARDOWN` up to its waiting. A generation advances at most once per cue: the item then waits for
the boundary (R382). -/
def contextTeardownWork : ItemM Done := do
  requireManaged
  payTail 1
  let c ← pay 0 1
  require (decide (c < 64)) stBad
  if (← itemStage) = 1 then throw .hold
  let s ← get
  let e ← read
  require (!s.flag (ctxFabricTearing c)) stBad
  if s.fab.advanced.contains c then throw .hold
  let g := (s.ctxGen c + 1) % 256
  let gen := match s.findRun e.run with
    | some r => r.chorusGen
    | none => 0
  let ms := s.teardownMembers c gen
  let waits := s.openTags c fun _ => true
  let drain := s.fab.nextDrain
  let t := (s.setFlag (ctxFabricTearing c) true).teardownSteps c g (some (e.run, e.item))
  let t := ms.foldl (fun (u : State) m => u.originate
    (u.prompter ptTeardown m false (leBytes 1 c ++ leBytes 1 g ++ leBytes 2 0 ++ leBytes 4 drain))) t
  set { t with fab := { t.fab with
    nextDrain := (drain + 1) % 2 ^ 32
    teardowns := t.fab.teardowns.filter (fun (x : Teardown) => x.ctx != c) ++
      [({ ctx := c, item := some (e.run, e.item), origin := none, drain := drain, gen := g, members := ms, cue := s.cueNo,
          waits := waits, freed := false } : Teardown)] } }
  modifyItem fun x => { x with stage := 1 }
  throw .hold

/-- CONTEXT_TEARDOWN. -/
def execContextTeardown (run item now : Nat) (s : State) : Host.Outcome State Fault Refusal :=
  .next ((s.tick now).runItem 0 7 contextTeardownWork run item)

/-- Frames in use by a context in this member's pools (R384). -/
def State.framesOwned (s : State) (c : Nat) : Nat :=
  [0, 1].foldl (fun (n : Nat) t =>
    match s.poolKey t with
    | some k => n + ((List.range (s.word k)).filter fun i =>
        frState (s.word (k + 64 + 8 * i)) == 1 && frOwner (s.word (k + 64 + 8 * i)) == c).length
    | none => n) 0

/-- The 512-byte bitmap of unreturned members (R384). -/
def unreturned (ms : List Nat) : List Byte :=
  (List.range 512).map fun i => BitVec.ofNat 8 ((List.range 8).foldl (fun (a : Nat) j => if ms.contains (8 * i + j) then a + 2 ^ j else a) 0)

/-- The report block written, unless its base breaks its rule. -/
def State.writeReport (s : State) (c : Nat) (ms : List Nat) : State :=
  let b := s.fld teardownReportBaseBase
  if b ≠ 0 ∧ b % 512 = 0 ∧ s.ownMem b (512 * 64) ∧ !s.devShut (addrKey b + 512 * c) then
    s.devWrite (addrKey b + 512 * c) (unreturned ms)
  else s

/-- TEARDOWN_REUSE_POINT: every member has returned, or the boundary of cue n + 4 has come, and this member's own requests
are drained. -/
def State.reusePoint (s : State) (c : Nat) : State :=
  match s.fab.teardowns.find? fun x => x.ctx == c && x.item.isSome with
  | none => s
  | some x =>
    if !(x.members.isEmpty || decide (x.cue + 4 ≤ s.cueNo)) || !s.drained x.waits then s
    else
      let t : State := { s with fab := { s.fab with teardowns := s.fab.teardowns.filter fun y => decide (y ≠ x) } }
      let t := ((t.freeGranules c).writeReport c x.members).setFlag (ctxFabricTearing c) false
      let n := x.members.length
      let first := x.members.foldl min (x.members.headD 0)
      let t := if n = 0 then t else t.event
      match x.item with
      | some (r, i) => (t.noteCycles r i 0).closeItem r i stOk (n % 65536 + 2 ^ 16 * first + 2 ^ 32 * t.framesOwned c)
      | none => t

/-- TEARDOWN_REUSE_POINT. -/
def execTeardownReusePoint (context now : Nat) (s : State) : Host.Outcome State Fault Refusal :=
  .next ((s.tick now).reusePoint context)

end Sys2Proof.Machine
end

