-- ==== Sys2Proof/Machine/Coll.lean ====
section
/-! DEFINITION. Class 0x0B (R396 to R417): collective halves, gradient buckets, mirrors and restores, and the packets and
waits of halves. -/
namespace Sys2Proof.Machine

/- ## Payload and entries (R398 to R401) -/

/-- The payload of opcodes 0x00 to 0x04 (Table 14.5). -/
structure CollPay where
  entry : Nat
  fmtIn : Nat
  fmtOut : Nat
  root : Nat
  wait : Nat
  thin : Nat
  list : Nat
  step : Nat
  tag : Nat
  deriving DecidableEq, Repr

def collPay (d : List Byte) : CollPay :=
  { entry := leAt d 32 2, fmtIn := leAt d 34 1, fmtOut := leAt d 35 1, root := leAt d 36 2, wait := leAt d 38 1, thin := leAt d 39 1,
    list := leAt d 40 8, step := leAt d 48 8, tag := leAt d 56 4 }

/-- A format byte of FP32, BF16 or FP16 (R119, R399). -/
def collFmt (b : Nat) : Bool := decide (b / 32 = 0) && decide (b % 16 < 3)

/-- An opcode that reduces. -/
def reduces (op : Nat) : Bool := op == 0 || op == 4

/-- The checks of R399 on the payload alone, with the refusals of R118 and R120 first. -/
def collCheck (d : List Byte) (op : Nat) : ItemM Unit := do
  let p := collPay d
  refuseFormats [{ opRef [] with fmtByte := p.fmtIn }] [{ opRef [] with fmtByte := p.fmtOut }]
  require (decide (p.entry < 1024) &&
    (if reduces op then collFmt p.fmtIn && collFmt p.fmtOut else p.fmtIn == 0 && p.fmtOut == 0) &&
    (op == 2 || p.root == 0) && decide (p.wait ≠ 0) &&
    (if op = 4 then decide (p.thin < 64) else p.thin == 0 && p.step == 0) && decide (p.list % 32 = 0) && zeroAt d 60 68) stBad

/-- The checks of R399 against the directory of the bound generation: the entry is valid, this member holds a rank of it, and
`ROOT` is one. -/
def collBound (d : List Byte) (op gen : Nat) : ItemM Unit := do
  let s ← get
  let p := collPay d
  let i := s.chorusAt gen
  require ((s.rankOf i p.entry s.member).isSome && (op != 2 || decide (p.root < (i.rankSlots p.entry).length))) stBad

/-- An item entry (Table 14.6). -/
structure CollItem where
  src : Nat
  dst : Nat
  aux : Nat
  count : Nat
  seq : Nat
  deriving DecidableEq, Repr

def collItem (b : List Byte) : CollItem :=
  { src := leAt b 0 8, dst := leAt b 8 8, aux := leAt b 16 8, count := leAt b 24 4, seq := leAt b 28 4 }

/-- Shard length of `S` ranks: elements of a reduction, bytes of a gather (R401). -/
def shardLen (op s count : Nat) : Nat := if reduces op then 32 * ceilDiv count (32 * s) else 64 * ceilDiv count (64 * s)

/-- First position of shard `j`, and its length. -/
def shardAt (op s count j : Nat) : Nat × Nat :=
  let q := shardLen op s count
  (min (j * q) count, min ((j + 1) * q) count - min (j * q) count)

/-- Bytes of an element. -/
def collSize (fmt : Nat) : Nat := elemBits (fmt % 16) / 8

/-- Ranges that an item reads and writes on this member, as address and length. -/
def CollItem.ranges (x : CollItem) (op s me : Nat) (p : CollPay) : List (Nat × Nat) :=
  let sh := (shardAt op s x.count me).2
  if op = 0 then [(x.src, x.count * collSize p.fmtIn), (x.dst, sh * collSize p.fmtOut)]
  else if op = 1 then [(x.src, sh), (x.dst, x.count)]
  else if op = 2 then (if me = p.root then [(x.src, x.count)] else [(x.dst, x.count)])
  else if op = 4 then
    [(x.src, x.count * collSize p.fmtIn), (x.dst, sh * collSize p.fmtOut)] ++ (if x.aux = 0 then [] else [(x.aux, 4 * x.count)])
  else []

/-- No two ranges of a list meet. -/
def rangesApart : List (Nat × Nat) → Bool
  | [] => true
  | (a, n) :: t => t.all (fun (b, m) => decide (a + n ≤ b) || decide (b + m ≤ a) || n == 0 || m == 0) && rangesApart t

/-- A range lies in this member's HBM or LPDDR, on a 64-byte boundary. -/
def State.collRange (s : State) (a n : Nat) : Bool :=
  decide (a / 2 ^ 57 = 0) && decide (addrTier a < 2) && decide (a % 64 = 0) && s.ownMem a n

/-- The checks of R399 on an entry that is not empty. -/
def State.collItemOk (s : State) (x : CollItem) (op ranks me : Nat) (p : CollPay) : Bool :=
  let rs := x.ranges op ranks me p
  (rs.all fun (a, n) => s.collRange a n) && rangesApart rs &&
    (if op = 3 then x.src == 0 && x.dst == 0 && x.aux == 0 && x.count == 0
     else if op = 1 then x.aux == 0 && decide (x.count % 64 = 0)
     else if op = 2 then x.aux == 0 && decide (x.count % 64 = 0) && (me == p.root || x.src == 0)
     else if op = 4 then (x.aux == 0 && p.thin == 0) || (decide (x.aux ≠ 0) && decide (MiB ≤ x.count) && decide (x.count ≤ 16 * MiB))
     else x.aux == 0)

/-- GRAD_REDUCE reduces at this step (R406). -/
def CollPay.reducing (p : CollPay) (op : Nat) : Bool := op != 4 || (p.step + 1) % (p.thin + 1) == 0

/- ## Contributions -/

/-- `a` is above `b` by the comparison of R62. -/
def seqAbove (a b : Nat) : Bool := let d := (a + 2 ^ 32 - b % 2 ^ 32) % 2 ^ 32; decide (1 ≤ d) && decide (d ≤ 2 ^ 31)

/-- The half of an item. -/
def State.halfOf (s : State) (run item : Nat) : Option Half := s.coll.halves.find? fun h => h.run == run && h.item == item

/-- Format of the elements of a contribution: a gradient bucket sends FP32 sums. -/
def wireFmt (op fmt : Nat) : Nat := if op = 4 then 0 else fmt

/-- A half's own contribution to shard `j`, from the bytes it contributes: all of them, or the part of the shard. -/
def partFor (op s count fmt j : Nat) (bs : List Byte) : List Byte :=
  if op = 0 ∨ op = 4 then
    let sh := shardAt op s count j
    let n := collSize (wireFmt op fmt)
    (bs.drop (sh.1 * n)).take (sh.2 * n)
  else bs

/-- A packet of a half sent to the holder of rank `r`, as a request that the item waits for. None where the member cannot
be reached. -/
def State.sendColl (s : State) (run item : Nat) (h : Half) (member : Nat) (data : List Byte) : Option State :=
  match s.sendPort (s.adaptiveCtx h.ctx) 3 member with
  | none => none
  | some _ =>
    let tag := s.fab.nextTag
    let q : Request := { tag := tag, ctx := h.ctx, dst := member, addr := 0, len := data.length, use := .write run item,
                         startNs := s.now, entry := some h.entry }
    let t : State := { s with fab := { s.fab with nextTag := (tag + 1) % 65536, requests := s.fab.requests ++ [q] } }
    some (t.emit (.collective (s.lookupMember member)
      { src := s.member, rank := h.rank, context := h.ctx, entry := h.entry, seq := h.seq, gen := h.gen, op := h.op, count := h.count,
        fmt := h.fmt, tag := tag, fabGen := s.ctxGen h.ctx, data := data }))

/-- Packets of a half to every other rank that takes one. A rank that cannot be reached ends the item (R31, R412). -/
def sendParts (h : Half) (slots : List Nat) (bs : List Byte) : ItemM Unit := do
  let e ← read
  slots.zipIdx.forM fun (v, r) => do
    if r ≠ h.rank then
      match (← get).sendColl e.run e.item h (slotMember v) (partFor h.op slots.length h.count h.fmt r bs) with
      | some t => set t
      | none => stopWith stMemberLost (collDetail h.seq (slotMember v) 0)

/-- Elements of an array of a format. -/
def collValues (fmt : Nat) (bs : List Byte) : List FVal := rowValues (fmt % 16) (bs.length / collSize fmt) bs []

/-- Gradient added into the accumulator (R406): what the item contributes, in FP32. -/
def gradBytes (x : CollItem) (p : CollPay) : ItemM (List Byte) := do
  let s ← get
  let g := collValues p.fmtIn (← readDev (addrKey x.src) (x.count * collSize p.fmtIn))
  if p.thin = 0 then return g.flatMap fun v => leBytes 4 (toF32 v)
  let acc := collValues 0 (← readDev (addrKey x.aux) (4 * x.count))
  let bs := (List.zipWith fadd acc g).flatMap fun v => leBytes 4 (toF32 v)
  require (!s.devShut (addrKey x.aux)) stPartReset
  writeDev (addrKey x.aux) bs
  return bs

/-- What an item contributes, from its own memory. -/
def ownBytes (op me ranks : Nat) (x : CollItem) (p : CollPay) : ItemM (List Byte) := do
  if op = 0 then readDev (addrKey x.src) (x.count * collSize p.fmtIn)
  else if op = 1 then readDev (addrKey x.src) (shardAt op ranks x.count me).2
  else if op = 2 then (if me = p.root then readDev (addrKey x.src) x.count else return [])
  else if op = 4 then gradBytes x p
  else return []

/- ## Sums (R402, R403, R406) -/

/-- One element of a ring sum that starts at rank `k`, in the data's own format. -/
def ringSum (fmt k : Nat) (vs : List FVal) : FVal :=
  let f := orderFmt (fmt % 16)
  match vs.drop k ++ vs.take k with
  | [] => FVal.zero
  | v :: t => t.foldl (fun a x => f.near (a.addExact x)) v

/-- The sums of a shard's elements: by the tree of R402, or around rings whose start the engine chooses for each chunk of
4 KiB (R403). -/
def State.shardSums (s : State) (tree : Bool) (fmt : Nat) (cols : List (List FVal)) : List FVal :=
  cols.zipIdx.map fun (vs, i) =>
    if tree then fixedTree fadd FVal.zero vs
    else ringSum fmt (Config.ringStart (s.freeCtr + i * collSize fmt / 4096) % vs.length) vs

/-- Column `i` of equally long lists. -/
def elemsAt (rows : List (List FVal)) (i : Nat) : List FVal := rows.map fun r => r.getD i FVal.zero

/- ## The halves -/

/-- Every packet that a half needs has arrived: one from each other rank, or from the root alone; a root needs none. -/
def Half.whole (h : Half) (ranks root : Nat) : Bool :=
  if h.op = 2 then h.rank == root || h.got.any (fun g => g.1 == root)
  else (List.range ranks).all fun r => r == h.rank || h.got.any fun g => g.1 == r

/-- Bytes that a rank has contributed. -/
def Half.from_ (h : Half) (r : Nat) : List Byte := cellGet [] h.got r

/-- A complete half writes its result: a reduced shard, a gathered buffer, a broadcast one. -/
def finishHalf (h : Half) (ranks : Nat) (p : CollPay) : ItemM Done := do
  let e ← read
  let s ← get
  let sh := shardAt h.op ranks h.count h.rank
  if reduces h.op then
    let fmt := wireFmt h.op h.fmt
    let rows := (List.range ranks).map fun r => collValues fmt (h.from_ r)
    let tree := h.op == 4 || !s.flag (ctxArithFormatOrder e.ctx)
    let sums := s.shardSums tree fmt ((List.range sh.2).map (elemsAt rows))
    set { s with freeCtr := s.freeCtr + sh.2 * collSize fmt / 4096 + 1 }
    let out ← withRounding p.tag sh.1 sums
    writeDev (addrKey h.dst) (rowEncode (p.fmtOut % 16) out).1
    if h.op = 4 ∧ p.thin ≠ 0 then
      writeDev (addrKey h.aux) (List.replicate (4 * h.count) 0)
    return done stOk (collDetail h.seq 0 (if h.op = 4 then 2 else 0)) (64 + h.count / 16)
  else if h.op = 1 then
    writeDev (addrKey h.dst) ((List.range ranks).flatMap h.from_)
    return done stOk (collDetail h.seq 0 0) (64 + h.count / 64)
  else
    if h.op = 2 ∧ h.rank ≠ p.root then writeDev (addrKey h.dst) (h.from_ p.root)
    return done stOk (collDetail h.seq 0 0) (64 + h.count / 64)

/-- Early packets of a half: context, entry and SEQ alike (R400). -/
def meetsHalf (k : CollPacket) (h : Half) : Bool := k.context == h.ctx && k.entry == h.entry && k.seq == h.seq

/-- What a packet that meets a half gives against it: 0 nothing, else the DETAIL flag (R396, R400, R410). -/
def Half.skew (h : Half) (k : CollPacket) : Nat :=
  if k.gen ≠ h.gen then 4 else if k.op ≠ h.op ∨ k.count ≠ h.count ∨ k.fmt ≠ h.fmt then 8 else 0

/-- A half begins: its own parts are sent, and early packets are matched (log entry 64). -/
def startHalf (h : Half) (slots : List Nat) (root : Nat) (bs : List Byte) : ItemM Half := do
  let s ← get
  let mine := s.coll.early.filter fun k => meetsHalf k h
  let h := { h with got := (h.rank, partFor h.op slots.length h.count h.fmt h.rank bs) :: mine.map fun k => (k.rank, k.data) }
  set { s with coll := { s.coll with halves := s.coll.halves ++ [h], early := s.coll.early.filter fun k => !meetsHalf k h } }
  modifyItem fun x => { x with stage := 1 }
  if h.op ≠ 2 ∨ h.rank = root then sendParts h slots bs
  match mine.find? fun k => h.skew k != 0 with
  | some k => stopWith stBad (collDetail h.seq k.src (h.skew k))
  | none => return h

/-- Work of a half that is not under way: a status with which it ends is the answer to later packets of the half (R409). -/
def notingHalf (h : Half) (w : ItemM Done) : ItemM Done :=
  tryCatch w fun x => do
    match x with
    | .ended st _ => modify fun s => s.noteHalf h st
    | _ => pure ()
    throw x

/-- The half of an item that starts now. -/
def State.newHalf (s : State) (e : ItemEnv) (p : CollPay) (x : CollItem) (gen op me : Nat) : Half :=
  { run := e.run, item := e.item, ctx := e.ctx, entry := p.entry, seq := x.seq, gen := gen, op := op, count := x.count,
    fmt := p.fmtIn, rank := me, dst := x.dst, aux := x.aux, got := [], startCue := s.cueNo, waited := 0 }

/-- The work of opcodes 0x00 to 0x04. A half under way waits for its packets and is finished by the last. -/
def halfWork (op : Nat) : ItemM Done := do
  notDetached
  let e ← read
  let s ← get
  let gen := match s.findRun e.run with
    | some r => r.chorusGen
    | none => 0
  let p := collPay e.desc
  let i := s.chorusAt gen
  let slots := i.rankSlots p.entry
  match s.halfOf e.run e.item with
  | some h => if h.whole slots.length p.root then finishHalf h slots.length p else throw .hold
  | none =>
    collCheck e.desc op
    collBound e.desc op gen
    let me := (s.rankOf i p.entry s.member).getD 0
    let x := collItem (← load (p.list + 32 * e.item) 32)
    let h0 := s.newHalf e p x gen op me
    noteCount x.seq
    notingHalf h0 do
      require (s.collItemOk x op slots.length me p) stBad
      if x.count = 0 ∧ op ≠ 3 then
        modify fun s => s.noteHalf h0 stEmpty
        return done stEmpty (collDetail x.seq 0 0)
      let bs ← ownBytes op me slots.length x p
      if !p.reducing op then
        modify fun s => s.noteHalf h0 stOk
        return done stOk (collDetail x.seq 0 1) (64 + x.count / 16)
      let h ← startHalf h0 slots p.root bs
      if h.whole slots.length p.root then finishHalf h slots.length p else throw .hold

/-- RS_HALF. -/
def execRsHalf (run item now : Nat) (s : State) : Host.Outcome State Fault Refusal :=
  .next ((s.tick now).runItem 0xB 0 (halfWork 0) run item)

/-- AG_HALF. -/
def execAgHalf (run item now : Nat) (s : State) : Host.Outcome State Fault Refusal :=
  .next ((s.tick now).runItem 0xB 1 (halfWork 1) run item)

/-- BCAST. -/
def execBcastHalf (run item now : Nat) (s : State) : Host.Outcome State Fault Refusal :=
  .next ((s.tick now).runItem 0xB 2 (halfWork 2) run item)

/-- BARRIER. -/
def execBarrierHalf (run item now : Nat) (s : State) : Host.Outcome State Fault Refusal :=
  .next ((s.tick now).runItem 0xB 3 (halfWork 3) run item)

/-- GRAD_REDUCE. -/
def execGradReduce (run item now : Nat) (s : State) : Host.Outcome State Fault Refusal :=
  .next ((s.tick now).runItem 0xB 4 (halfWork 4) run item)

/- ## Packets of halves (R400, R409) -/

/-- A packet as the request it is, for its answer. -/
def collRequest (k : CollPacket) (m : Nat) : Packet :=
  { type := ptBulkWrite, context := k.context, gen := k.fabGen, status := 0, src := k.src, dst := m, birth := 0, tag := k.tag,
    length := k.data.length, addr := 0, data := [] }

/-- The last half that ended here for a context and entry: SEQ and status. -/
def State.lastEnded (s : State) (c e : Nat) : Option (Nat × Nat) :=
  (s.coll.ended.find? fun x => x.1 == c * 1024 + e).map fun x => x.2

/-- Bytes of early packets (R400). -/
def State.earlyBytes (s : State) : Nat := s.coll.early.foldl (fun (n : Nat) k => n + k.data.length) 0

/-- A packet that is not stale. -/
def State.placeColl (s : State) (k : CollPacket) (req : Packet) : State :=
  match s.coll.halves.find? fun h => meetsHalf k h with
  | some h =>
    if h.skew k ≠ 0 then (s.endEarly h.run h.item stBad (collDetail h.seq k.src (h.skew k))).refuse req stBad
    else
      let t : State := { s with coll := { s.coll with halves := s.coll.halves.map fun g =>
        if g.run = h.run ∧ g.item = h.item ∧ !(g.got.any fun x => x.1 == k.rank) then { g with got := g.got ++ [(k.rank, k.data)] }
        else g } }
      (t.respond req ptWriteAck 0 []).runItem 0xB h.op (halfWork h.op) h.run h.item
  | none =>
    if 64 * MiB < s.earlyBytes + k.data.length then s
    else ({ s with coll := { s.coll with early := s.coll.early ++ [k] } } : State).respond req ptWriteAck 0 []

/-- Held packets whose SEQ is not above the last half that has ended are dropped and counted (R400): they are looked at as
the next packet comes (DEDUCED, log entry 85). -/
def State.dropHeld (s : State) : State :=
  let (old, left) := s.coll.early.partition fun k =>
    (s.lastEnded k.context k.entry).any fun x => !seqAbove k.seq x.1
  if old.isEmpty then s
  else ({ s with coll := { s.coll with early := left } } : State).bump collStaleDropsCount old.length

/-- A packet of an accepted context matched to its half, held, dropped as stale, or answered with the status that its half
has ended with. -/
def State.matchColl (s : State) (k : CollPacket) : State :=
  let req := collRequest k s.member
  match s.lastEnded k.context k.entry with
  | some (q, st) =>
    if k.seq = q ∧ 0x10 ≤ st then s.refuse req st
    else if (!seqAbove k.seq q) = true then s.bump collStaleDropsCount
    else s.placeColl k req
  | none => s.placeColl k req
/-- COLLECTIVE_PACKET, under the generations of R382. One of a newer generation in a cue in which the context's generation
has advanced stays with its sender, held back by credit, and so does one that finds the store full. -/
def State.takeColl (s : State) (k : CollPacket) : State :=
  let d := s.genBehind k.context k.fabGen
  if 1 ≤ d ∧ d ≤ 128 then s.bump fabStaleDropsCount
  else if d ≠ 0 ∧ s.fab.advanced.contains k.context then s
  else
    let t := if d = 0 then s else s.beginTeardown k.context k.fabGen none 0
    if t.powerState = 3 then t.refuse (collRequest k t.member) stPartReset
    else if !t.flag (ctxCtrlEn k.context) then t.refuse (collRequest k t.member) stNotAuth
    else t.dropHeld.matchColl k

/-- COLLECTIVE_PACKET. -/
def execCollectivePacket (pkt : CollPacket) (s : State) : Host.Outcome State Fault Refusal := .next (s.takeColl pkt)

/-- HALF_WAIT_TIMEOUT (R407): WAIT_CUES boundaries since the item's start without a packet from a rank it needs. -/
def State.halfWait (s : State) (run item : Nat) : State :=
  match s.halfOf run item, s.findRun run with
  | some h, some r =>
    let p := collPay r.desc.bytes
    let slots := (s.chorusAt h.gen).rankSlots h.entry
    let needed := if h.op = 2 then [p.root] else List.range slots.length
    match needed.find? fun k => !(h.got.any fun g => g.1 == k) with
    | some k =>
      if p.wait ≤ h.waited then s.endEarly run item stTimeout (collDetail h.seq (slotMember (slots.getD k 0)) 0) else s
    | none => s
  | _, _ => s

/-- HALF_WAIT_TIMEOUT. -/
def execHalfWaitTimeout (run item : Nat) (s : State) : Host.Outcome State Fault Refusal := .next (s.halfWait run item)

/- ## Mirrors (R415, R416) -/

/-- Header of a manifest, and one extent (Table 14.8). -/
structure Manifest where
  extents : Nat
  origin : Nat
  state : Nat
  seq : Nat
  crc : Nat
  deriving DecidableEq, Repr

def manifest (b : List Byte) : Manifest :=
  { extents := leAt b 0 4, origin := leAt b 4 2, state := leAt b 6 1, seq := leAt b 8 8, crc := leAt b 24 4 }

structure Extent where
  addr : Nat
  bank0 : Nat
  bank1 : Nat
  len : Nat
  deriving DecidableEq, Repr

def extentOf (b : List Byte) (k : Nat) : Extent :=
  { addr := leAt b (32 * k) 8, bank0 := leAt b (32 * k + 8) 8, bank1 := leAt b (32 * k + 16) 8, len := leAt b (32 * k + 24) 4 }

/-- An extent obeys Table 14.8; `own` checks the local range. -/
def extentOk (own : Nat → Nat → Bool) (b : List Byte) (k : Nat) : Bool :=
  let x := extentOf b k
  zeroAt b (32 * k + 28) 4 && decide (64 ≤ x.len) && decide (x.len ≤ GiB) && decide (x.len % 64 = 0) && decide (x.addr % 64 = 0) &&
    own x.addr x.len &&
    [x.bank0, x.bank1].all fun a => decide (a / 2 ^ 45 = 0) && decide (addrTier a < 2) && decide (a % 64 = 0) &&
      !neverPopulated (addrTier a) (addrOff a) x.len

/-- A header's fixed bytes are as Table 14.8 has them. -/
def manifestOk (b : List Byte) : Bool :=
  let m := manifest b
  decide (1 ≤ m.extents) && decide (m.extents ≤ 2046) && decide (m.origin < 4096) && zeroAt b 7 1 && zeroAt b 28 36

/-- An address of a bank on the buddy. -/
def onBuddy (buddy a : Nat) : Nat := mkAddr buddy (a % 2 ^ 45)

/-- The buddy's header address in the payload, in tier and offset form. -/
def buddyHdr : ItemM Nat := do
  let a ← pay 16 8
  require (decide (a / 2 ^ 45 = 0) && decide (addrTier a < 2) && decide (a % 64 = 0)) stBad
  return a

/-- The payload rules that MIRROR and RESTORE share: its entry, valid in the bound generation, with the directory image. -/
def mirrorEntry : ItemM (Nat × ChorusImage) := do
  let e ← read
  let s ← get
  notDetached
  oneItem
  payTail 24
  let entry ← pay 0 2
  let i := s.chorusAt (match s.findRun e.run with
    | some r => r.chorusGen
    | none => 0)
  require (decide (entry < 1024) && i.valid entry) stBad
  return (entry, i)

/-- Where an extent of a manifest lies on the buddy: its bank takes turns with the manifest's SEQ. -/
def mirrorBank (buddy seq : Nat) (x : Extent) : Nat := onBuddy buddy (if seq % 2 = 0 then x.bank0 else x.bank1)

/-- The extents of a manifest copied to their banks on the buddy. -/
def mirrorCopy (buddy seq : Nat) (ext : List Byte) (n : Nat) : ItemM Unit :=
  (List.range n).forM fun k => do
    let x := extentOf ext k
    store (mirrorBank buddy seq x) (← load x.addr x.len)

/-- Header of a complete slot on the buddy (Table 14.8). -/
def mirrorHeader (m : Manifest) (cue : Nat) (ext : List Byte) : List Byte :=
  leBytes 4 m.extents ++ leBytes 2 m.origin ++ leBytes 1 1 ++ leBytes 1 0 ++ leBytes 8 m.seq ++ leBytes 8 cue ++
    leBytes 4 (crc32 ext) ++ leBytes 36 0

/-- Bytes of a manifest's extents. -/
def extentBytes (ext : List Byte) (n : Nat) : Nat := (List.range n).foldl (fun (b : Nat) k => b + (extentOf ext k).len) 0

/-- The work of `MIRROR`, step by step: each waits until the one before is visible at the buddy. -/
def mirrorWork : ItemM Done := do
  let (entry, i) ← mirrorEntry
  payZero 2 6
  let e ← read
  let s ← get
  let man ← pay 8 8
  let hdr ← buddyHdr
  match (i.rankSlots entry).find? fun v => s.slotHeld s.member v with
  | none => stopWith stBad
  | some v =>
    require (slotWatched v && s.collRange man 64) stBad
    let buddy := slotBuddy v
    let h ← load man 64
    let m := manifest h
    require (manifestOk h && m.state == 0 && m.origin == s.member && s.collRange man (64 + 32 * m.extents)) stBad
    let ext ← load (man + 64) (32 * m.extents)
    require ((List.range m.extents).all (extentOk s.collRange ext)) stBad
    let slot := onBuddy buddy hdr + 65536 * (m.seq % 2)
    let stage ← itemStage
    if s.waitsAck e.run e.item then throw .hold
    if stage = 0 then
      store (slot + 6) (leBytes 1 0)
      modifyItem fun x => { x with stage := 1 }
      throw .hold
    else if stage = 1 then
      mirrorCopy buddy m.seq ext m.extents
      modifyItem fun x => { x with stage := 2 }
      throw .hold
    else if stage = 2 then
      store (slot + 64) ext
      modifyItem fun x => { x with stage := 3 }
      throw .hold
    else
      store slot (mirrorHeader m s.cueNo ext)
      return done stOk m.seq (256 + extentBytes ext m.extents / 64)

/-- MIRROR. -/
def execMirrorState (run item now : Nat) (s : State) : Host.Outcome State Fault Refusal :=
  .next ((s.tick now).runItem 0xB 5 mirrorWork run item)

/- ## Restores (R417) -/

/-- This member may restore a lost member's state: it is candidate 0 for its number, or its substitute (R413, R417). -/
def State.mayRestore (s : State) (lost entry : Nat) : Bool :=
  s.fab.route.aliases.any (fun a => a == (lost, s.member)) ||
    ((s.coll.takeovers.any fun t => t.lost == lost && t.entry == entry) && (s.candidates entry).head? == some s.member)

/-- A slot on the buddy, if it is complete: its header and extents. -/
def readSlot (a lost : Nat) : ItemM (Option (Manifest × List Byte)) := do
  let h ← load a 64
  let m := manifest h
  if !(manifestOk h && m.state == 1 && m.origin == lost) then return none
  let ext ← load (a + 64) (32 * m.extents)
  return if crc32 ext = m.crc then some (m, ext) else none

/-- The newer of the two slots on the buddy that are complete. -/
def bestSlot : Option (Manifest × List Byte) → Option (Manifest × List Byte) → Option (Manifest × List Byte)
  | some x, some y => if x.1.seq < y.1.seq then some y else some x
  | some x, none => some x
  | none, y => y

/-- The extents of a slot as their banks on the buddy hold them. -/
def bankParts (buddy : Nat) (m : Manifest) (ext : List Byte) : ItemM (List (Extent × List Byte)) :=
  (List.range m.extents).mapM fun k => do
    let x := extentOf ext k
    return (x, ← load (mirrorBank buddy m.seq x) x.len)

/-- Extents stored where they belong, on this member. -/
def storeParts (member : Nat) (parts : List (Extent × List Byte)) : ItemM Unit :=
  parts.forM fun (x, bs) => store (onBuddy member x.addr) bs

/-- The work of `RESTORE`. -/
def restoreWork : ItemM Done := do
  let (entry, i) ← mirrorEntry
  payZero 4 12
  let s ← get
  let lost ← pay 2 2
  let hdr ← buddyHdr
  require (decide (lost < 4096)) stBad
  match (i.rankSlots entry).find? fun v => slotMember v == lost with
  | none => stopWith stBad
  | some v =>
    require (slotWatched v) stBad
    require (s.mayRestore lost entry) stNotAuth
    let buddy := slotBuddy v
    let a ← readSlot (onBuddy buddy hdr) lost
    let b ← readSlot (onBuddy buddy hdr + 65536) lost
    match bestSlot a b with
    | none => stopWith stUncorrectable
    | some (m, ext) =>
      let parts ← bankParts buddy m ext
      require (parts.all fun (x, _) => s.collRange (onBuddy s.member x.addr) x.len) stBad
      storeParts s.member parts
      return done stOk m.seq (256 + extentBytes ext m.extents / 64)

/-- RESTORE. -/
def execRestoreMirror (run item now : Nat) (s : State) : Host.Outcome State Fault Refusal :=
  .next ((s.tick now).runItem 0xB 6 restoreWork run item)

end Sys2Proof.Machine
end

