-- ==== Sys2Proof/Machine/Fn.lean ====
section
/-! DEFINITION. Special-function tables (R167, R168, R212 to R218): images, evaluation, loading and generations. -/
namespace Sys2Proof.Machine

/- ## Images (R212, R213) -/

/-- A directory entry (Table 7.6). -/
structure FnDir where
  segBase : Nat
  emin : Int
  emax : Int
  segBits : Nat
  flags : Nat
  psmall : Nat
  pbig : Nat
  nsmall : Nat
  nbig : Nat
  tails : Nat
  deriving DecidableEq, Repr

/-- A byte read as a signed number. -/
def signed8 (b : Nat) : Int := if b < 128 then b else (b : Int) - 256

def fnDir (img : List Byte) (f : Nat) : FnDir :=
  let b := (img.drop (64 + 32 * f)).take 32
  { segBase := leAt b 0 4, emin := signed8 (leAt b 4 1), emax := signed8 (leAt b 5 1), segBits := leAt b 6 1,
    flags := leAt b 7 1, psmall := leAt b 8 4, pbig := leAt b 12 4, nsmall := leAt b 16 4, nbig := leAt b 20 4,
    tails := leAt b 24 1 }

def FnDir.valid (d : FnDir) : Bool := bit d.flags 0
def FnDir.sym (d : FnDir) : Nat := field d.flags 1 2
def FnDir.ska (d : FnDir) : Bool := bit d.flags 3

/-- Segments of one side (R213). -/
def FnDir.cnt (d : FnDir) : Nat := (d.emax - d.emin + 1).toNat * 2 ^ d.segBits

/-- Segment `n` of an image: its coefficients c0, c1, c2, and its last four bytes. -/
def fnSeg (img : List Byte) (n : Nat) : FVal × FVal × FVal × Nat :=
  let b := (img.drop (1088 + 16 * n)).take 16
  (ofF32 (leAt b 0 4), ofF32 (leAt b 4 4), ofF32 (leAt b 8 4), leAt b 12 4)

/-- An entry keeps Table 7.6, its segments lie in the image, and an SKA entry has no c2 (R213, R216). -/
def fnDirOk (img : List Byte) (len f : Nat) : Bool :=
  let raw := (img.drop (64 + 32 * f)).take 32
  let d := fnDir img f
  if !d.valid then leNat raw == 0
  else
    let segs := if d.sym = 2 then 2 * d.cnt else d.cnt
    decide (-126 ≤ d.emin) && decide (d.emin ≤ d.emax) && decide (d.segBits ≤ 6) && decide (d.sym ≠ 3) &&
      decide (d.flags / 16 = 0) && (d.sym == 2 || (d.nsmall == 0 && d.nbig == 0)) && decide (d.tails / 16 = 0) &&
      decide (leAt raw 25 7 = 0) && decide (1088 + 16 * (d.segBase + segs) ≤ len) &&
      (!d.ska || (List.range segs).all fun i => (fnSeg img (d.segBase + i)).2.2.1.isZero)

/-- An image passes the checks of R216 that rest on it alone. -/
def fnImageOk (img : List Byte) : Bool :=
  let len := leAt img 0 4
  decide (1088 ≤ len) && decide (len ≤ 65536) && decide (len % 16 = 0) && decide (img.length = len) &&
    decide (leAt img 4 4 = crc32 (img.drop 64)) && decide (leAt img 8 56 = 0) &&
    (List.range 32).all fun f => fnDirOk img len f

/- ## Evaluation (R214) -/

/-- A tail: its value, or its value times |x|. -/
def fnTail (value : Nat) (linear : Bool) (a : FVal) : FVal := if linear then fmul (ofF32 value) a else ofF32 value

/-- The value of a segment at its offset `d`, on the native or the SKA line. -/
def fnLine (c0 c1 c2 d : FVal) (ska : Bool) : FVal :=
  if ska then
    let q := match d with
      | .num n m e => .num n (roundDown m e) (-12)
      | x => x
    fadd (fmul c1 q) c0
  else ffma (ffma c2 d c1) d c0
where
  /-- ⌊m × 2^e × 4096⌋. -/
  roundDown (m : Nat) (e : Int) : Nat := if 0 ≤ e + 12 then m * 2 ^ (e + 12).toNat else m / 2 ^ (-(e + 12)).toNat

/-- Function `f` of an image at x (R214). -/
def fnEval (img : List Byte) (f : Nat) (compat : Bool) (x : FVal) : FVal :=
  if x.isNan then .nan
  else
    let d := fnDir img f
    let a := x.abs
    let two := d.sym == 2 && x.isNeg
    let t :=
      if a.lt (.num false 1 d.emin) then
        if two then fnTail d.nsmall (bit d.tails 2) a else fnTail d.psmall (bit d.tails 0) a
      else if !a.lt (.num false 1 (d.emax + 1)) then
        if two then fnTail d.nbig (bit d.tails 3) a else fnTail d.pbig (bit d.tails 1) a
      else
        let code := toF32 a
        let e : Int := (code / 2 ^ 23 : Nat) - 127
        let m := code % 2 ^ 23
        let n := d.segBase + (if two then d.cnt else 0) + (e - d.emin).toNat * 2 ^ d.segBits + m / 2 ^ (23 - d.segBits)
        let (c0, c1, c2, _) := fnSeg img n
        fnLine c0 c1 c2 (.num false (m % 2 ^ (23 - d.segBits)) (-(23 - (d.segBits : Int)))) compat
    if d.sym == 1 && x.isNeg then t.neg else t

/- ## Buffers and generations (R167, R168) -/

/-- An image by the model's number; none for 0, which stands for generation 0. -/
def State.fnById (s : State) (id : Nat) : Option FnImage := cellFind id s.fn.images

/-- Generation of an image. -/
def State.fnGenOf (s : State) (id : Nat) : Nat := (s.fnById id).elim 0 FnImage.gen

/-- Image held in a buffer of a tile: 0 after reset. -/
def State.fnHeld (s : State) (tile b : Nat) : Nat := cellGet 0 s.fn.buffers (2 * tile + b)

/-- The buffer of a tile that holds a generation, and its bytes (R167). -/
def State.fnBuffer (s : State) (tile gen : Nat) : Option (Nat × List Byte) :=
  [0, 1].findSome? fun b =>
    match s.fnById (s.fnHeld tile b) with
    | some x => if x.gen = gen then some (b, x.bytes) else none
    | none => none

/-- What a tile evaluates from for a generation: nothing where it holds none. -/
def State.fnBytes (s : State) (tile gen : Nat) : List Byte :=
  match s.fnBuffer tile gen with
  | some (_, bs) => bs
  | none => []

/-- Function `f` is valid in a generation on a tile, and carries its SKA flag where the context needs it (R208, R215). -/
def State.fnUsable (s : State) (tile gen f : Nat) (compat : Bool) : Bool :=
  let img := s.fnBytes tile gen
  !img.isEmpty && (fnDir img f).valid && (!compat || (fnDir img f).ska)

/-- An image must stay readable on a tile: it is in force, or its generation is bound to a run that has not ended there (R167;
log entry 28). -/
def State.fnBound (s : State) (tile id : Nat) : Bool :=
  id == s.fn.current || s.runs.any fun r => r.tiles.contains tile && r.fnGen == s.fnGenOf id

/-- The buffer that a load may write on a tile (R168). -/
def State.fnFree (s : State) (tile : Nat) : Option Nat :=
  if s.fnHeld tile 0 = s.fnHeld tile 1 then some 1
  else if !s.fnBound tile (s.fnHeld tile 0) then some 0
  else if !s.fnBound tile (s.fnHeld tile 1) then some 1
  else none

/-- A buffer of a tile written with an image, all of it with valid codes. -/
def State.fnPut (s : State) (tile b id : Nat) : State :=
  ({ s with fn := { s.fn with buffers := cellSet 0 s.fn.buffers (2 * tile + b) id } } : State).sramFresh (sramFn tile b) 65536

/-- Tiles of partitions in service. -/
def State.servingTiles (s : State) : List Nat :=
  (List.range 144).filter fun t => !s.inCoppice (t / 18) && !s.flag (stackTempDrained (t / 18))

/-- Each tile of a list written where it has a free buffer; the tiles left waiting (R168). -/
def State.fnWriteTiles (s : State) (id : Nat) (tiles : List Nat) : State × List Nat :=
  tiles.foldl (fun (t, left) x =>
    match t.fnFree x with
    | some b => (t.fnPut x b id, left)
    | none => (t, left ++ [x])) (s, [])

/-- Whether an earlier `FN_LOAD` has not ended: loads run one at a time in admission order (R216). -/
def State.fnBusy (s : State) (run : Nat) : Bool :=
  s.runs.any fun r => decide (r.id < run) && hdrClass r.desc.bytes == 3 && hdrOp r.desc.bytes == 6 &&
    r.items.any fun x => !x.hasEnded

/-- The load in progress belongs to this item. -/
def State.fnLoadingBy (s : State) (run item : Nat) : Option (Nat × List Nat) :=
  match s.fn.loading with
  | some (r, i, g, l) => if r = run ∧ i = item then some (g, l) else none
  | none => none

/-- The whole-descriptor checks of `FN_LOAD` (R10, R216). -/
def fnLoadCheck (d : List Byte) : ItemM Unit := do
  require (zeroAt (payloadOf d) 9 87 && hdrItems d == 0) stBad
  require (decide (leAt d 32 8 % 64 = 0) && decide (addrTier (leAt d 32 8) < 2)) stBad

/-- The work of `FN_LOAD` (R216): the image is read and checked once and written into every free buffer; the item waits
while a tile has none. -/
def fnLoadWork : ItemM Done := do
  let e ← read
  if ((← get).fnLoadingBy e.run e.item).isSome then throw .hold
  fnLoadCheck e.desc
  let src ← pay 0 8
  let gen ← pay 8 1
  if (← get).fnBusy e.run then throw .hold
  let len ← loadNat src 4
  require (decide (1088 ≤ len) && decide (len ≤ 65536) && decide (len % 16 = 0)) stBad
  let img ← load src len
  let s ← get
  require (fnImageOk img &&
    !(s.servingTiles.any fun t => s.fnGenOf (s.fnHeld t 0) == gen || s.fnGenOf (s.fnHeld t 1) == gen)) stBad
  let id := s.fn.nextImage
  let t : State := { s with fn := { s.fn with
    images := cellPut s.fn.images id (some { gen := gen, run := e.run, source := src, bytes := img }), nextImage := id + 1 } }
  let (u, left) := t.fnWriteTiles id s.servingTiles
  let u := (u.setFld fnStatusLoadGen gen).setFlag fnStatusLoading true
  if left.isEmpty then
    set u.fnLoadEnd
    return done
  set (({ u with fn := { u.fn with loading := some (e.run, e.item, id, left) } } : State).setFlag fnStatusWaiting true)
  throw .hold

/-- FN_LOAD. -/
def execFnLoad (run item : Nat) (s : State) : Host.Outcome State Fault Refusal := .next (s.runItem 3 6 fnLoadWork run item)

/-- FN_LOAD_RESUME (R168): a tile whose buffer has been released is written. -/
def State.fnResume (s : State) (tile : Nat) : State :=
  match s.fn.loading with
  | none => s
  | some (run, item, id, left) =>
    let (t, still) :=
      if left.contains tile then
        (match s.fnFree tile with
         | some b => (s.fnPut tile b id, dropVal tile left)
         | none => (s, left))
      else (s, left)
    if still.isEmpty then (t.fnLoadEnd.noteCycles run item 0).closeItem run item stOk 0
    else { t with fn := { t.fn with loading := some (run, item, id, still) } }

/-- FN_LOAD_RESUME. -/
def execFnLoadResume (tile : Nat) (s : State) : Host.Outcome State Fault Refusal := .next (s.fnResume tile)

/-- The image that a run loaded comes into force, as the load's summary is written (R216). -/
def State.fnInForce (s : State) (run : Nat) : State :=
  match s.fn.images.find? fun x => x.2.run == run with
  | some (id, x) => (({ s with fn := { s.fn with current := id } } : State).setFld fnStatusGen x.gen).fnPrune
  | none => s

/- ## The image in force read again (R217) -/

/-- How a reading of the image in force stands: its parts are to come, it cannot be read, or its bytes. -/
inductive FnReread where
  | waiting
  | failed
  | done (bytes : List Byte)
  deriving DecidableEq, Repr

/-- Requests for the parts of an image on another member that neither wait nor have come. -/
def State.askImage (s : State) (x : FnImage) : State :=
  (packetRanges x.source x.bytes.length).foldl (fun t (a, n) =>
    if t.fab.requests.any (fun q => q.use == .fnImage && q.addr == a) || t.fn.reread.any (fun r => r.1 == a) then t
    else
      match t.sendRequest (t.request (if isBulk x.source x.bytes.length then ptBulkRead else ptRead) (t.fld mgmtContextContext) a n [])
          false .fnImage none with
      | some u => u
      | none => t) s

/-- The image in force read at the SRC of the load that brought it into force. -/
def State.rereadFn (s : State) : State × FnReread :=
  match s.fnById s.fn.current with
  | none => (s, .done [])
  | some x =>
    if s.isOwn (addrMember x.source) then
      if s.devShut (addrKey x.source) then (s, .waiting)
      else
        match s.readMem { source := 0, ctx := 0xFF, ring := 0, desc := 0, item := 0, requester := s.member } (addrKey x.source)
            x.bytes.length with
        | (t, some bs) => (t, .done bs)
        | (t, none) => (t, .failed)
    else
      match arrivedRange s.fn.reread x.source x.bytes.length with
      | some bs => ({ s with fn := { s.fn with reread := [] } }, .done bs)
      | none => (s.askImage x, .waiting)

/-- Tiles that receive the image in force as it has been read again; their other buffers hold no generation. -/
def State.putReread (s : State) (bytes : List Byte) (tiles : List Nat) : State :=
  match s.fnById s.fn.current with
  | none => tiles.foldl (fun t i => (t.fnPut i 0 0).fnPut i 1 0) s
  | some x =>
    let id := s.fn.nextImage
    let t : State := { s with fn := { s.fn with
      images := cellPut s.fn.images id (some { x with bytes := bytes }), nextImage := id + 1, current := id } }
    (tiles.foldl (fun t i => (t.fnPut i 0 id).fnPut i 1 0) t).fnPrune

end Sys2Proof.Machine
end

