-- ==== Sys2Proof/Machine/Reliab.lean ====
section
/-! DEFINITION. Reliability (15_reliability.md): the stage manager's watchdog, engines that do not recover, coppices and
their repairs, curtain, the register scan, self-test results, powered time and summaries, and calibration. -/
namespace Sys2Proof.Machine

/- ## The stage manager (R433) -/

/-- The stage manager as a unit. -/
def smUnit : UnitId := ⟨0xA, 0, 0⟩

/-- WATCHDOG_EXPIRY: the stage manager restarts. Each restart is a suspect event; the third within 24 h confirms it and takes
the device to curtain (Table 15.2). -/
def State.watchdog (s : State) : State :=
  if !s.rel.smUp then s
  else
    let l := s.rel.poweredS :: s.recentRestarts
    let t : State := { s with rel := { s.rel with smUp := false, smRestarts := l, testing := [], testOut := none } }
    let t := t.record (.plain 0x08 smUnit 0 6)
    let t := t.record (.plain 0x02 smUnit 0 6)
    let t := t.setClass { t.unitClass smUnit with suspectAt := some (t.rel.poweredS, t.book.historySeq) }
    if 3 ≤ l.length then t.confirm smUnit 6 t.book.historySeq [] else t

/-- WATCHDOG_EXPIRY. -/
def execWatchdogExpiry (now : Nat) (s : State) : Host.Outcome State Fault Refusal := .next (s.tick now).watchdog

/- ## Engines (R435) -/

/-- Number of an I/O-die engine in the fault history: decode 0 to 31, encode 32 to 39, then ingest, collective, fabric and
flash. PRESUMED (log entry 46): the spec numbers engines within a kind only. -/
def engineNumber : Engine → Nat
  | .tile n => n
  | .move n => n
  | .decode n => n
  | .encode n => 32 + n
  | .ingest => 40
  | .collective => 41
  | .fabric => 42
  | .flash => 43

/-- The run is on the engine. -/
def State.runsOn (s : State) (e : Engine) (r : Run) : Bool :=
  match e with
  | .decode n => s.engineHolder n == some r.id
  | .encode n => s.engineHolder (32 + n) == some r.id
  | .ingest => hdrClass r.desc.bytes == 9
  | .collective => hdrClass r.desc.bytes == 0xB
  | .fabric => hdrClass r.desc.bytes == 0xA
  | .flash => hdrClass r.desc.bytes == 6
  | _ => false

/-- An engine reset of an I/O die: its runs end TIMEOUT, it is recorded, counted and suspect. While the stage manager is
down it waits (R25). -/
def State.resetEngine (s : State) (e : Engine) : State :=
  if s.rel.resetting.any fun x => x.1 == e then s
  else if !s.rel.smUp then s.smLater (.engine e)
  else
    let u : UnitId := ⟨9, engineNumber e, 0⟩
    let t := s.cutItems (fun r => s.runsOn e r) (fun _ => true) stTimeout 0
    let t : State := { t with rel := { t.rel with resetting := t.rel.resetting ++ [(e, t.now)] } }
    ((t.record (.plain 0x06 u 0 4)).suspect u 4 []).countEscalation 8

/-- ENGINE_RECOVERY_TIMEOUT. -/
def State.engineStuck (s : State) (e : Engine) : State :=
  match e with
  | .tile n => if n < 144 then s.startCoppice (n / 18) 1 else s
  | .move n => if n < 16 then s.startCoppice (n / 2) 1 else s
  | e => s.resetEngine e

/-- ENGINE_RECOVERY_TIMEOUT. -/
def execEngineRecoveryTimeout (engine : Engine) (now : Nat) (s : State) : Host.Outcome State Fault Refusal :=
  .next ((s.tick now).engineStuck engine)

/-- ENGINE_RESET_DONE. -/
def execEngineResetDone (engine : Engine) (s : State) : Host.Outcome State Fault Refusal :=
  .next { s with rel := { s.rel with resetting := s.rel.resetting.filter fun x => x.1 != engine } }

/-- ENGINE_RESET_TIMEOUT: not complete within 200 µs. -/
def State.resetLate (s : State) (e : Engine) : State :=
  if s.rel.resetting.any fun x => x.1 == e && decide (x.2 + 200000 ≤ s.now) then
    ({ s with rel := { s.rel with resetting := s.rel.resetting.filter fun x => x.1 != e } } : State).enterCurtain 5
  else s

/-- ENGINE_RESET_TIMEOUT. -/
def execEngineResetTimeout (engine : Engine) (now : Nat) (s : State) : Host.Outcome State Fault Refusal :=
  .next ((s.tick now).resetLate engine)

/- ## Repairs (Table 15.2, R441) -/

/-- A repair recorded: the unit is healthy again, and a second unit of its kind is spent. -/
def State.repairedWith (s : State) (u : UnitId) (how : Nat) (data : List Byte) : State :=
  let t := s.record { type := 0x04, unit := u, cause := how, detector := 0, count := 1, link := 0, data := data }
  ({ t with rel := { t.rel with
      repaired := t.rel.repaired ++ [u]
      units := if u.kind = 1 then t.rel.units else t.rel.units.filter fun c => c.id != u
      repairDue := t.rel.repairDue.filter fun v => v != u } } : State).saveRepairs

/-- Logical tile bound to a physical one, if any. -/
def State.logicalOf (s : State) (x : Nat) : Option Nat := (List.range 144).find? fun t => s.physical t == x

/-- A confirmed tile's repair: the hedge takes its logical number, or the device enters curtain. -/
def State.repairTile (s : State) (u : UnitId) : State :=
  let p := u.unit / 19
  let h := 19 * p + 18
  let gone : State := { s with rel := { s.rel with repairDue := s.rel.repairDue.filter fun v => v != u } }
  match s.logicalOf u.unit with
  | none => gone
  | some t =>
    if 2 ≤ s.fld (hedgeFld p) || (s.unitClass ⟨1, h, 0⟩).confirmed then gone.enterCurtain 1
    else
      (({ s with rel := { s.rel with binding := cellPut s.rel.binding t (some h) } } : State).setFld (hedgeFld p) 2).repairedWith u 1
        (leBytes 2 h)

/-- Repairs already made in a bank. -/
def State.spareRows (s : State) (u : UnitId) : Nat :=
  (s.rel.repaired.filter fun v => v.kind == u.kind && v.unit == u.unit &&
    (if u.kind = 2 then v.sub % 32 == u.sub % 32
     else Config.wingsBank (v.unit * 0x60000 + v.sub) == Config.wingsBank (u.unit * 0x60000 + u.sub))).length

/-- Post-package repairs made in a stack or a package. -/
def State.rowsRepaired (s : State) (u : UnitId) : Nat :=
  (s.rel.repaired.filter fun v => v.kind == u.kind && v.unit == u.unit).length

/-- One unit's repair; where its resource is used up, what Table 15.2 says. -/
def State.repairUnit (s : State) (u : UnitId) : State :=
  let gone : State := { s with rel := { s.rel with repairDue := s.rel.repairDue.filter fun v => v != u } }
  if u.kind = 1 then s.repairTile u
  else if u.kind = 2 then
    (if s.spareRows u < 4 then s.repairedWith u 2 []
     else (gone.confirm ⟨1, u.unit, 0⟩ 2 0 []).repairTile ⟨1, u.unit, 0⟩)
  else if u.kind = 3 then (if s.spareRows u < 8 then s.repairedWith u 2 [] else gone.enterCurtain 2)
  else if u.kind = 4 then
    (if s.rowsRepaired u < Config.pprSpares u.unit then s.repairedWith u 3 [] else gone.enterCurtain 2)
  else if u.kind = 6 then
    (if s.rowsRepaired u < Config.pprSpares (8 + u.unit) then s.repairedWith u 3 [] else gone.enterCurtain 2)
  else gone

/-- Repairs due at a coppice of a partition: lines and rows first, then tiles. -/
def State.repairPart (s : State) (p : Nat) : State :=
  let l := s.rel.repairDue.filter fun u => u.part == some p
  (l.filter (fun u => u.kind != 1) ++ l.filter fun u => u.kind == 1).foldl State.repairUnit s

/-- LPDDR5X rows repaired at a boundary, while the stage manager runs (R433, Table 15.2). -/
def State.repairRows (s : State) : State :=
  if s.rel.smUp then (s.rel.repairDue.filter fun u => u.kind == 6).foldl State.repairUnit s else s

/- ## Coppices (R438, R439) -/

/-- Function table buffers of a returning partition: both from a tile of another partition in service, else the one in
force, read again (R217). The partition does not return while that cannot be read. -/
def State.restoreFn (s : State) (p : Nat) : State × Bool :=
  match (List.range 8).find? fun q => q != p && s.partServes q with
  | some q =>
    ((partTiles p).foldl (fun (t : State) i =>
      (t.fnPut i 0 (t.fnHeld (18 * q) 0)).fnPut i 1 (t.fnHeld (18 * q) 1)) s, true)
  | none =>
    match s.rereadFn with
    | (t, .done bs) => (t.putReread bs (partTiles p), true)
    | (t, _) => (t, false)

/-- COPPICE_COMPLETE (Table 15.5): SRAM zeroed, repairs made, tables restored, the partition back in service; after a
channel fault the stack's contents are lost and its fill runs. While the stage manager is down the repairs wait, and the
binding stays as it was (R433). A coppice that reached an escalation count does not
complete, and one whose stack has met a thermal trip, whatever began it, waits for the stack to cool (R266). -/
def State.coppiceDone (s : State) (p : Nat) : State :=
  match s.rel.coppices.find? fun c => c.part == p with
  | none => s
  | some c =>
    if c.noReturn || s.flag (stackTempTrip p) then s
    else
      let (t, ready) := if s.flag healthStatusCurtain then (s, true) else s.restoreFn p
      if !ready then t
      else
      let t := t.sramZeroPart p
      let t := if s.rel.smUp then t.repairPart p else t
      let t : State := { t with rel := { t.rel with coppices := t.rel.coppices.filter fun x => x.part != p } }
      let t := t.setFld ⟨rHealthStatus, 4 + p, 1⟩ 0
      if c.cause = 4 then
        ({ t with rel := { t.rel with fills := addVal p t.rel.fills } } : State).record (.plain 0x0D ⟨0x0B, p, 0⟩ 0 2)
      else t

/-- COPPICE_COMPLETE. -/
def execCoppiceComplete (part now : Nat) (s : State) : Host.Outcome State Fault Refusal := .next ((s.tick now).coppiceDone part)

/-- STACK_FILL_DONE (R439): every line of the stack reads zero with valid codes. -/
def State.fillDone (s : State) (n : Nat) : State :=
  if s.rel.fills.contains n then
    ({ s with rel := { s.rel with fills := dropVal n s.rel.fills } } : State).devZero (n * 2 ^ 36) 0xC00000000
  else s

/-- STACK_FILL_DONE. -/
def execStackFillDone (stack : Nat) (s : State) : Host.Outcome State Fault Refusal := .next (s.fillDone stack)

/-- COPPICE_REQ (R449): accepted after the seal; a partition in a coppice is passed over. -/
def State.requestCoppices (s : State) (v : Nat) : State :=
  if s.isSealed then (List.range 8).foldl (fun (t : State) p => if bit v p then t.startCoppice p 7 else t) s else s

/-- COPPICE_REQ. -/
def execCoppiceReq (value : BitVec 32) (now : Nat) (s : State) : Host.Outcome State Fault Refusal :=
  .next (if s.hostServes rCoppiceReq then (s.tick now).requestCoppices value.toNat else s.tick now)

/- ## Curtain (R442) -/

/-- The prompt book records curtain; the write waits for the stage manager (R433). -/
def State.noteCurtain (s : State) (cause : Nat) : State :=
  if s.rel.smUp then { s with book := { s.book with curtain := cause } } else s.smLater (.curtain cause)

/-- CURTAIN_DRAINED: every started item has ended; the rings show it and the prompt book records it. -/
def State.curtainDrained (s : State) : State :=
  if !s.rel.draining || s.runs.any (fun r => r.items.any Item.isRunning) then s
  else
    let t : State := { s with rel := { s.rel with draining := false } }
    let t := t.noteCurtain (s.fld healthStatusCurtainCause)
    let l := (List.range 256).filter t.ringEnabled
    (l.foldl (fun (u : State) n => (u.onRing n fun r => { r with state := 2 }).writeStatus n) t).event

/-- CURTAIN_DRAINED. -/
def execCurtainDrained (s : State) : Host.Outcome State Fault Refusal := .next s.curtainDrained

/- ## The register scan (R432) -/

/-- Offsets under which a scan reports internal control registers, which have no offset of their own: partition `n`'s, then
the device's (log entry 47). -/
def internalReg : Nat := 2 ^ 32

/-- Partition of a hardened register whose scope is one partition: the internal ones alone have such a scope. -/
def hardenedPart (off : Nat) : Option Nat := if internalReg ≤ off ∧ off < internalReg + 8 then some (off - internalReg) else none

/-- The register at an offset is hardened: it has RWL fields, or is internal (R431). -/
def isHardened (off : Nat) : Bool := decide (internalReg ≤ off) || (regRowAt off).any fun r => r.has .rwl

/-- One upset met by the scan: the register differs from the image and is rewritten. With good parity it is a suspect event
on the register, and its scope decides whether a partition enters a coppice or a device event is raised. -/
def State.scanUpset (s : State) (u : RegUpset) : State :=
  if !isHardened u.off then s
  else
    let id : UnitId := ⟨8, u.off / 4 % 65536, 0⟩
    let t := if u.off < internalReg then
        s.setReg u.off (match cellFind u.off s.regs.image with
          | some v => v.toNat
          | none => regReset u.off)
      else s
    let t := t.record (.plain 0x07 id 0 5)
    if u.parityBad then t
    else
      let t := t.suspect id 5 []
      match hardenedPart u.off with
      | some p => t.startCoppice p 2
      | none => t.event

/-- REGISTER_SCAN: while the stage manager runs, an image exists and no invasive debug is on (R432, R433, R464). An image
whose tag fails is not used: the device enters curtain. -/
def State.scanRegs (s : State) (l : List RegUpset) (tagOk : Bool) : State :=
  if !s.rel.smUp || !s.regs.imageHeld || s.fld lcStatusDebug == 2 then s
  else if !tagOk then s.enterCurtain 4
  else (l.foldl State.scanUpset s).healParity

/-- REGISTER_SCAN. -/
def execRegisterScan (upsets : List RegUpset) (tagOk : Bool) (now : Nat) (s : State) : Host.Outcome State Fault Refusal :=
  .next ((s.tick now).scanRegs upsets tagOk)

/- ## Self-tests (R444, R449) -/

/-- SELFTEST_REQ: accepted after the seal; a tile above 143 is ignored. -/
def State.requestTest (s : State) (v : Nat) : State :=
  if s.isSealed && bit v 31 && decide (v % 256 < 144) then
    { s with rel := { s.rel with testQueue := addVal (v % 256) s.rel.testQueue } }
  else s

/-- SELFTEST_REQ. -/
def execSelftestReq (value : BitVec 32) (s : State) : Host.Outcome State Fault Refusal :=
  .next (if s.hostServes rSelftestReq then s.requestTest value.toNat else s)

/-- Physical tile of a test's number: a logical tile, or 144 + partition for an unbound hedge (log entry 48). -/
def State.testedUnit (s : State) (n : Nat) : UnitId := ⟨1, if n < 144 then s.physical n else 19 * (n - 144) + 18, 0⟩

/-- SELFTEST_DONE: a pass is recorded when it occurs if the test was a retest or was asked for, else it is counted for the
hour's summary; a failure is a suspect event. -/
def State.testDone (s : State) (n : Nat) (pass : Bool) : State :=
  let u := s.testedUnit n
  let hedge := decide (144 ≤ n)
  if !(s.rel.testing.contains n || (hedge && decide (n < 152) && decide (s.fld (hedgeFld (n - 144)) < 2))) then s
  else
    let retest := s.rel.retests.contains u.unit
    let asked := s.rel.testQueue.contains n
    let t : State := { s with rel := { s.rel with
      testing := dropVal n s.rel.testing
      testOut := if s.rel.testOut = some n then none else s.rel.testOut
      retests := dropVal u.unit s.rel.retests
      testQueue := if retest then s.rel.testQueue else dropVal n s.rel.testQueue
      lastTest := if hedge then s.rel.lastTest else cellPut s.rel.lastTest n (some s.rel.poweredS) } }
    if !pass then t.suspect u 3 []
    else if retest || asked then t.record (.plain 0x0B u 0 3)
    else
      ({ t with rel := { t.rel with hourTests := cellSet 0 t.rel.hourTests u.kind (cellGet 0 t.rel.hourTests u.kind + 1) } } : State).histPost
        (.plain 0x0B u 0 3)

/-- SELFTEST_DONE. -/
def execSelftestDone (tile : Nat) (pass : Bool) (now : Nat) (s : State) : Host.Outcome State Fault Refusal :=
  .next ((s.tick now).testDone tile pass)

/- ## Powered time, summaries and calibration (R429, R430, R446) -/

/-- POWERED_TIME_SAVE. -/
def State.saveTime (s : State) : State :=
  if s.rel.smUp then { s with book := { s.book with savedS := s.rel.poweredS } } else s

/-- POWERED_TIME_SAVE. -/
def execPoweredTimeSave (now : Nat) (s : State) : Host.Outcome State Fault Refusal := .next (s.tick now).saveTime

/-- One hourly summary record: a unit kind, a summarised type and its count. -/
def State.summarise (s : State) (type : Nat) (x : Nat × Nat) : State :=
  s.record { type := 0x0A, unit := ⟨x.1, 0, 0⟩, cause := 0, detector := 0, count := min x.2 65535, link := 0, data := leBytes 1 type }

/-- HOURLY_SUMMARY. -/
def State.hourly (s : State) : State :=
  if !s.rel.smUp then s
  else
    let t := s.rel.hourTransients.foldl (fun (u : State) x => u.summarise 1 x) s
    let t := s.rel.hourTests.foldl (fun (u : State) x => u.summarise 0x0B x) t
    { t with rel := { t.rel with hourTransients := [], hourTests := [] } }

/-- HOURLY_SUMMARY. -/
def execHourlySummary (now : Nat) (s : State) : Host.Outcome State Fault Refusal := .next (s.tick now).hourly

/-- The resource can be calibrated now: its stack is not in self-refresh, its port is not down. -/
def State.calibratable (s : State) (r : CalResource) : Bool :=
  match r with
  | .hbmChannel stack _ => !s.scrubHeld (stack * 2 ^ 36)
  | .lpddrChannel _ _ => s.powerState != 3
  | .port n => s.portUp n

/-- CALIBRATION_STALL: at most one of 2 µs in each 100 ms. It changes no result. -/
def State.calibrate (s : State) (r : CalResource) : State :=
  let w := s.now / 100000000
  if !s.calibratable r || s.mem.calibrated.any (fun x => x.1 == r && x.2 == w) then s
  else { s with mem := { s.mem with calibrated := (r, w) :: s.mem.calibrated.filter fun x => x.1 != r } }

/-- CALIBRATION_STALL. -/
def execCalibrationStall (resource : CalResource) (s : State) : Host.Outcome State Fault Refusal := .next (s.calibrate resource)

end Sys2Proof.Machine
end

