-- ==== Sys2Proof/Machine/Boot.lean ====
section
/-! DEFINITION. Reset, bring-up and the pins (R477 to R488, R501, R502): device resets and what outlives them, the boot
sequence and its failures, and the junction sensors. -/
namespace Sys2Proof.Machine

/- ## Device reset (R477 to R479) -/

/-- The device is held in reset, or has not been brought up (Table 17.3, R482, R502). -/
def State.inReset (s : State) : Bool := s.fld bootStatusPhase == 0 || s.boot.tripped

/-- What a device reset leaves (R479): HBM and LPDDR with their codes, the flash and the prompt book, the identification of
the unit, and what the stage manager rebuilds from the prompt book: classes of units, repairs due and escalation counts (R430, R441;
log entry 49). Marks last until their lanes are remapped (R257), and cells that show errors go on showing them. Bindings and
remaps come back from the repair map at the bring-up (R15, R480). Items that run end without a record. -/
def State.afterReset (s : State) (cause : Nat) : State :=
  { State.reset with
    regs := { State.reset.regs with vals := s.regs.vals.filter fun c => c.1 == rIdPart || c.1 == rIdSerial }
    host := { State.reset.host with cxl := s.host.cxl }
    mem := { Mem.init with dev := s.mem.dev, badDev := s.mem.badDev, marked := s.mem.marked, stuck := s.mem.stuck, stuckSram := s.mem.stuckSram }
    flash := { s.flash with
      programs := [], trims := [], inbound := [], outbound := [], early := [], deferred := [], senseSeq := none, senseAt := none, failing := false }
    book := s.book
    rel := { Rel.init with
      units := s.rel.units, repairDue := s.rel.repairDue, escalations := s.rel.escalations, smRestarts := s.rel.smRestarts, lastTest := s.rel.lastTest,
      poweredS := s.rel.poweredS, poweredNs := s.rel.poweredNs }
    sec := { Sec.init with wipeDue := s.sec.wipeDue, reformatDue := s.sec.reformatDue }
    boot := { State.reset.boot with
      rstN := s.boot.rstN, perstN := s.boot.perstN, tripped := s.boot.tripped, cold := s.boot.cold
      cause := (if s.boot.cold then 1 else cause), tapHold := s.boot.tapHold }
    outs := s.outs, pending := s.pending, freeCtr := s.freeCtr, now := s.now }

/-- RST_N_ASSERT: a pulse of less than 10 µs is ignored. The pin is high again with BRING_UP. -/
def State.pulseReset (s : State) (lowNs : Nat) : State :=
  if lowNs < 10000 || s.boot.tripped then s
  else { s.afterReset 2 with boot := { (s.afterReset 2).boot with rstN := false } }

/-- RST_N_ASSERT. -/
def execRstNAssert (lowNs : Nat) (s : State) : Host.Outcome State Fault Refusal := .next (s.pulseReset lowNs)

/-- The value that starts a warm reset (R484). -/
def resetKey : Nat := 0xD1E50FF0

/-- `DEVICE_RESET` written with the key, by a path (R484, Table 17.2). -/
def State.keyReset (s : State) (path : ResetPath) (key : Nat) : State :=
  let cause := match path with
    | .host => 3
    | .mctp => 4
  if key ≠ resetKey || s.inReset then s
  else if !s.rel.smUp then s.smLater (.reset cause)
  else s.afterReset cause

/-- DEVICE_RESET: from the host port it must answer there. -/
def State.askReset (s : State) (path : ResetPath) (key : Nat) : State :=
  match path with
  | .host => if s.hostServes rDeviceReset then s.keyReset .host key else s
  | .mctp => s.keyReset .mctp key

/-- DEVICE_RESET. -/
def execDeviceReset (path : ResetPath) (key : BitVec 32) (s : State) : Host.Outcome State Fault Refusal :=
  .next (s.askReset path key.toNat)

/- ## The TAP (R465, R477) -/

/-- TAP_TEST_MODE: the core is held in device reset. -/
def State.tapTest (s : State) (ir : TapTest) : State :=
  if s.boot.tripped then s
  else { s.afterReset 6 with boot := { (s.afterReset 6).boot with tapHold := some ir } }

/-- TAP_TEST_MODE. -/
def execTapTestMode (ir : TapTest) (s : State) : Host.Outcome State Fault Refusal := .next (s.tapTest ir)

/-- The TAP is in Test-Logic-Reset again: a held core leaves by a warm reset whose bring-up wipes volatile memory in every
state except Blank. -/
def State.tapLeave (s : State) : State :=
  match s.boot.tapHold with
  | none => s
  | some _ =>
    { s with
      boot := { s.boot with tapHold := none, cause := if s.boot.cold then 1 else 6 }
      sec := { s.sec with wipeDue := s.sec.wipeDue || decide (s.book.lifecycle ≠ 0) } }

/-- TAP_TEST_EXIT. -/
def execTapTestExit (now : Nat) (s : State) : Host.Outcome State Fault Refusal := .next (s.tick now).tapLeave

/-- TAP_RESET: `TRST_N` resets the TAP only, which takes it to Test-Logic-Reset and so ends a hold (R465). -/
def execTapReset (s : State) : Host.Outcome State Fault Refusal := .next s.tapLeave

/- ## Power (R470, R479, R502) -/

/-- POWER_REMOVAL: every volatile state ends, and the next reset is cold. Powered time since the last save is lost (R429). -/
def State.powerOff (s : State) : State :=
  let t := s.afterReset 1
  { t with
    mem := { t.mem with dev := [], badDev := [] }
    boot := { t.boot with tripped := false, cold := true, cause := 1, tapHold := none, rstN := false }
    rel := { t.rel with poweredS := t.book.savedS } }

/-- POWER_REMOVAL. -/
def execPowerRemoval (s : State) : Host.Outcome State Fault Refusal := .next s.powerOff

/- ## Bring-up (R480, R482, Tables 17.3 and 17.4) -/

/-- Payload of a signed image as it stands in a region's copy: header fields (Table 16.2). -/
def imageOf (cells : List Host.Cell) (size : Nat) : List Byte := cellRead 0 cells 0 size

/-- Bytes of a copy of the firmware region. -/
def State.fwCopy (s : State) (b : Bool) : List Byte :=
  imageOf (if b then (s.pbRegion 1).copyB else (s.pbRegion 1).copyA) 320

/-- A firmware copy passes: the findings say so of every check of R453 but the SVN's; the fallback copy needs only an SVN
at or above counter 0 (R453, R455). -/
def State.fwPasses (s : State) (f : BootFindings) (b fallback : Bool) : Bool :=
  let svn := leAt (s.fwCopy b) 4 4
  (if b then f.fwPassB else f.fwPassA) && decide (s.counter 0 ≤ svn) && (fallback || decide (svn ≤ s.counter 0 + 64))

/-- The firmware copy that boots, and whether it is the fallback; none where neither passes (R455). -/
def State.bootCopy (s : State) (f : BootFindings) : Option (Bool × Bool) :=
  let cur := (s.pbRegion 1).useB
  if s.fwPasses f cur false then some (cur, false)
  else if s.fwPasses f (!cur) true then some (!cur, true)
  else none

/-- The running firmware noted (R455, R467). -/
def State.runFirmware (s : State) (c : Bool × Bool) : State :=
  let img := s.fwCopy c.1
  let t := (s.setFlag bootStatusFwCopy c.1).setFlag bootStatusFwFallback c.2
  { t with sec := { t.sec with
      fwDigest := (img.drop 24).take 48, fwSvn := leAt img 4 4, fwCopyB := c.1, fwRaised := false } }

/-- `LC_STATUS` of the lifecycle in force (Table 16.17). -/
def State.showLifecycle (s : State) (lc : Nat) : State :=
  (((s.setFld lcStatusState lc).setFld lcStatusDebug 0).setFlag lcStatusOwner (!s.book.ownerKey.isEmpty)).setFlag
    lcStatusIdeReq (lc == 2)

/-- The flash geometry that a configuration image records, within the limits of Table 10.1, R282 and R284: 16 channels of at
most 4 targets of 8 LUNs, 128 GiB a LUN (so 512 LUNs and 64 TiB), an overprovisioning of 7 to 28 percent. -/
def flashGeomOf (img : List Byte) : FlashGeom :=
  let ces := Config.cfgFlashCes img % 4 + 1
  let units := min (max (Config.cfgFlashUnits img) 1) (2 ^ 21)
  { recorded := ((List.range 16).filter fun c => bit (Config.cfgFlashMask img) c).flatMap fun c => (List.range ces).map fun e => 4 * c + e
    ces := ces, luns := Config.cfgFlashLuns img % 8 + 1
    blocks := min (Config.cfgFlashBlocks img) (2 ^ 21 / units), units := units
    opPct := 7 + Config.cfgOpPct img % 22, endurance := Config.cfgEndurance img, readLimit := Config.cfgReadLimit img }

/-- The flash targets compared with the recorded population (R282): one that is recorded and not found is dropped, its blocks
count as bad, and a device event is raised. -/
def State.identifyFlash (s : State) (found : List Nat) : State :=
  let g := flashGeomOf (s.pbBytes 2)
  let here := g.recorded.filter fun x => found.contains x
  let t : State := { s with flash := { s.flash with geom := g, targets := here } }
  let t := (((t.setFld flashCfgChMask (here.foldl (fun m x => m ||| 2 ^ (x / 4)) 0)).setFld flashCfgCePerCh (g.ces - 1)).setFld
    flashCfgLunPerCe (g.luns - 1))
  (g.recorded.filter fun x => !found.contains x).foldl (fun (u : State) _ => u.event) t

/-- The configuration loaded (R302, R480): population, window size, hold-up parameters; the digest and SVN in force. -/
def State.loadConfig (s : State) (f : BootFindings) : State :=
  let img := s.pbBytes 2
  let t := (s.setReg rLpddrCfg (Config.cfgLpddr img % 2 ^ 48)).setFld cxlmemSizeSize (min (Config.cfgWindow img) 64)
  let t := (f.lpddrFailed.filter fun d => decide (d < 16)).foldl (fun (u : State) d => (u.setFld ⟨rLpddrCfg, d, 1⟩ 0).event) t
  let t := (t.setFld holdupParamPHoldW (Config.cfgHoldW img % 65536)).setFld holdupParamTProgUs (Config.cfgProgUs img % 65536)
  ({ t with sec := { t.sec with cfgDigest := (img.drop 24).take 48, cfgSvn := leAt img 4 4 } } : State).identifyFlash f.flashFound

/-- The repair map applied (R15, Table 17.3): bindings, spare rows and lane remaps. -/
def State.applyRepairs (s : State) : State :=
  let m := s.repairMap
  { s with
    rel := { s.rel with binding := m.binding, repaired := m.repaired }
    mem := { s.mem with remapped := m.remapped, marked := s.mem.marked.filter fun k => !m.remapped.contains k } }

/-- Copies of regions that fail their tag are absent; refused commands are counted (R303). -/
def State.checkTags (s : State) (f : BootFindings) : State :=
  let t := f.tagFails.foldl (fun (u : State) x =>
    let r := u.pbRegion x.1
    u.setRegion (if x.2 then { r with badB := true } else { r with badA := true })) s
  { t with book := { t.book with refusedTags := t.book.refusedTags + f.norRefused } }

/-- Region `id` has a copy that passes its tag (R303). -/
def State.regionThere (s : State) (id : Nat) : Bool := !((s.pbRegion id).badA && (s.pbRegion id).badB)

/-- Hedge status rebuilt from the repair map and the classes of units (Table 15.10, R441). -/
def State.showHedges (s : State) : State :=
  (List.range 8).foldl (fun (t : State) p =>
    let h := 19 * p + 18
    let c := t.unitClass ⟨1, h, 0⟩
    t.setFld (hedgeFld p)
      (if t.rel.binding.any (fun x => x.2 == h) then 2
       else if c.confirmed then 3
       else if c.suspectAt.isSome then 1
       else 0)) s

/-- Highest-numbered fitted LPDDR package. -/
def State.topPackage (s : State) : Option Nat :=
  ((List.range 16).reverse).find? fun d => decide (s.lpddrUsable d ≠ 0)

/-- A format of the flash tier (R284, R292, Table 16.5): no tile is mapped, the factory marks are taken from the devices, and
the good units and the overprovisioning are recorded. Retired blocks stay retired. -/
def State.format (s : State) (f : BootFindings) : State :=
  let t : State := { s with flash := { s.flash with
    cells := [], owners := [], badWords := [], softWords := [], places := [], filled := [], wanted := [], queued := []
    badFactory := if s.book.root.isNone then f.factoryBad else s.flash.badFactory } }
  let good := t.lunList.foldl (fun (n : Nat) l => n + ((t.lunBlocks l).filter t.blockGood).length) 0
  { t with book := { t.book with root := some (good * t.flash.geom.units, t.flash.geom.opPct) } }

/-- The tier formatted where it never was, or where a new owner's key asks for it (Table 16.5). -/
def State.formatDue (s : State) (f : BootFindings) : State :=
  let t := if s.book.root.isNone || s.sec.reformatDue then s.format f else s
  let t : State := { t with sec := { t.sec with reformatDue := false } }
  (t.setFld flashCfgOpPctM7 ((t.book.root.map fun x => x.2 - 7).getD 0)).showFree

/-- Logical tiles of the tier: none without a usable map region, in Service, in Retired, or with no good root (R284, R289,
Table 16.4, Table 17.4). -/
def State.tierTiles (s : State) (f : BootFindings) : Nat :=
  if s.topPackage.isNone || !f.rootOk || !s.regionThere 7 || s.lifecycle == 3 || s.lifecycle == 4 then 0
  else (s.book.root.map fun x => x.1 * (100 - x.2) / 100).getD 0

/-- The map region placed, and its granules marked device-reserved (R270, R289). -/
def State.placeMap (s : State) (f : BootFindings) : State :=
  let n := s.tierTiles f
  match s.topPackage with
  | none => s
  | some d =>
    if n = 0 then s
    else
      let g := (8 * n + 2 ^ 21 - 1) / 2 ^ 21
      let key := 2 ^ 43 + d * 2 ^ 36 + s.lpddrUsable d - g * 2 ^ 21
      let t := ((s.setFld flashLogicalTilesTiles n).setFld ftlMapBaseBase (mkAddr s.member key)).setFld ftlMapSizeGranules g
      { t with mem := { t.mem with
          owners := (List.range g).foldl (fun l i => cellPut l (key / 2 ^ 21 + i) (some 65)) t.mem.owners } }

/-- Volatile memory written to zero with valid codes, all SRAM with it (R457, R479). -/
def State.wipeMemory (s : State) : State :=
  { s with
    mem := { s.mem with dev := [], badDev := [], sram := [], badSram := [] }
    fn := { s.fn with buffers := [] }
    bias := { image := [], standby := none, front := 0 }
    rel := { s.rel with openReads := [] } }

/-- The memories ready (R479, R482): a cold reset or a wipe that is due zeroes them; a stack that failed stays out of
reach (log entry 50). -/
def State.readyMemories (s : State) (f : BootFindings) : State :=
  let t := if s.boot.cold || s.sec.wipeDue then s.wipeMemory.setFlag bootStatusWiped true else s
  let t : State := { t with sec := { t.sec with wipeDue := false }, rel := { t.rel with fills := f.hbmFailed } }
  let t := (t.setFld bootStatusPhase 4)
  { t with boot := { t.boot with ready := true, cold := false } }

/-- Curtain as the prompt book records it (R443, Table 17.4). -/
def State.resumeCurtain (s : State) : State :=
  if s.book.curtain = 0 then s
  else (s.setFlag healthStatusCurtain true).setFld healthStatusCurtainCause s.book.curtain

/-- Bring-up from the firmware on. -/
def State.bringOn (s : State) (f : BootFindings) : State :=
  let lc := if f.lifecycleOk then s.book.lifecycle else 4
  let t := s.showLifecycle lc
  let t := ((t.checkTags f).loadConfig f).applyRepairs
  let t := (List.range 8).foldl (fun (u : State) p => u.askVolts p 0) t
  let t : State := { t with rel := { t.rel with poweredS := t.book.savedS, poweredNs := t.now } }
  let t := t.showHedges
  let err := if !f.lifecycleOk then 3 else if !(f.configOk && f.repairOk && t.regionThere 2 && t.regionThere 3) then 2
    else if !f.hbmFailed.isEmpty then 4 else if !(f.rootOk && t.regionThere 7) then 5 else 0
  let t := ((t.setFld bootStatusError err).formatDue f).placeMap f
  let t := t.readyMemories f
  let t : State := { t with boot := { t.boot with
    sealBlocked := err == 2 || err == 3, curtainAtRelease := !f.hbmFailed.isEmpty } }
  let t := t.resumeCurtain
  ((t.rel.repairDue.filterMap UnitId.part).foldl (fun (u : State) p => u.planCoppice p) t)

/-- BRING_UP: `RST_N` deasserted, or a warm reset without the pin. Without a firmware copy that passes the device stays in
reset. -/
def State.bringUp (s : State) (f : BootFindings) : State :=
  if s.inReset && s.boot.tapHold.isNone && s.fld bootStatusError == 0 && !s.boot.tripped then
    let t := ((s.setFlag bootStatusCold s.boot.cold).setFld bootStatusCause s.boot.cause)
    let t : State := { t with boot := { t.boot with rstN := true } }
    match t.bootCopy f with
    | none => { t.setFld bootStatusError 1 with boot := { t.boot with cold := false } }
    | some c => (t.runFirmware c).bringOn f
  else s

/-- BRING_UP. -/
def execBringUp (found : BootFindings) (now : Nat) (s : State) : Host.Outcome State Fault Refusal :=
  .next ((s.tick now).bringUp found)

/-- HOST_PORT_RELEASE: the port is released for training; curtain that a failed stack makes due follows. -/
def State.releasePort (s : State) : State :=
  if !s.boot.ready || s.host.released || !s.boot.perstN then s
  else
    let t := ({ s with host := { s.host with released := true } } : State).setFld bootStatusPhase 5
    if s.boot.curtainAtRelease then
      ({ t with boot := { t.boot with curtainAtRelease := false } } : State).enterCurtain 2
    else t

/-- HOST_PORT_RELEASE. -/
def execHostPortRelease (now : Nat) (s : State) : Host.Outcome State Fault Refusal :=
  .next ((s.tick now).releasePort)

/-- Requests of other members that came before the tier was ready, and tiles that they program, go on (R483). -/
def State.flashOpen (s : State) : State :=
  let t := s.flash.early.foldl (fun (u : State) p => u.serveFlashRead p) { s with flash := { s.flash with early := [] } }
  t.flash.inbound.foldl (fun (u : State) x => u.judgeInbound x) t

/-- FLASH_READY: the map is rebuilt from the journal, or the tier is unavailable (R480, Table 17.4). -/
def State.flashUp (s : State) (journalOk : Bool) : State :=
  if !s.boot.ready || s.fld flashLogicalTilesTiles = 0 || s.flag flashStatusReady then s
  else if journalOk then (s.setFlag flashStatusReady true).flashOpen
  else (s.setFld flashLogicalTilesTiles 0).setFld bootStatusError (if s.fld bootStatusError = 0 then 5 else s.fld bootStatusError)

/-- FLASH_READY. -/
def execFlashReady (journalOk : Bool) (s : State) : Host.Outcome State Fault Refusal := .next (s.flashUp journalOk)

/- ## Junction sensors (R1, R501, R502) -/

/-- The grade's junction maximum, and the limit at which the part trips, in units of 0.25 °C. -/
def State.junctionMax (s : State) : Int := if s.flag idPartGrade then 420 else 380
def State.junctionTrip (s : State) : Int := if s.flag idPartGrade then 460 else 420

/-- The highest reading and its sensor, the lowest-numbered of equals. -/
def hottest (l : List Int) : Int × Nat :=
  match l with
  | [] => (0, 0)
  | x :: t => (t.zipIdx 1).foldl (fun (b : Int × Nat) y => if b.1 < y.1 then y else b) (x, 0)

/-- JUNCTION_TEMP_READ: the registers, an event at most once per cue, and the trip. -/
def State.readJunctions (s : State) (l : List Int) : State :=
  if s.inReset then s
  else
    let m := hottest l
    let hot := decide (s.junctionMax < m.1)
    let t := ((s.setFld junctionTempMax (min m.1.toNat 1023)).setFld junctionTempSource m.2).setFlag junctionTempOver hot
    let t := if hot && !t.boot.overLimit.contains t.cueNo then
        ({ t with boot := { t.boot with overLimit := [t.cueNo] } } : State).event
      else t
    if s.junctionTrip < m.1 then
      let u := t.afterReset 1
      ({ u with boot := { u.boot with tripped := true } } : State).emit (.pin "THERM_TRIP_N" false)
    else t

/-- JUNCTION_TEMP_READ. -/
def execJunctionTempRead (readings : List Int) (s : State) : Host.Outcome State Fault Refusal :=
  .next (s.readJunctions readings)

end Sys2Proof.Machine
end

