-- ==== Sys2Proof/Machine/Conv.lean ====
section
/-! DEFINITION. Convolution, pooling and detection (R228 to R248): CONV, CONV_PATCH, POOL, BOX_DECODE and BOX_NMS. -/
namespace Sys2Proof.Machine

/- ## Tensors (R229, R230) -/

/-- A tensor: layout code and extents. -/
structure Tensor where
  lay : Nat
  c : Nat
  t : Nat
  h : Nat
  w : Nat
  deriving DecidableEq, Repr

/-- Channels of a block: 16, 32, or 1 for the planar layout (Table 8.2). -/
def Tensor.blk (x : Tensor) : Nat := if x.lay = 0 then 16 else if x.lay = 1 then 32 else 1

/-- Blocks of channels, rows of the tensor and elements of a row. -/
def Tensor.blocks (x : Tensor) : Nat := ceilDiv x.c x.blk
def Tensor.rows (x : Tensor) : Nat := x.blocks * x.t * x.h
def Tensor.len (x : Tensor) : Nat := x.w * x.blk

/-- Row of block `cb`, frame `t` and line `y` (Table 8.2). -/
def Tensor.row (x : Tensor) (cb t y : Nat) : Nat := (cb * x.t + t) * x.h + y

/-- The layout takes the format (R230). -/
def layoutOk (lay fmt : Nat) : Bool := if lay = 1 then decide (fmt ≤ 0xA) else decide (lay ≠ 3) && decide (fmt ≤ 4)

/- ## The payload (Tables 8.4 and 8.5) -/

/-- One dimension: input extent, kernel, stride, dilation, input dilation and paddings. -/
structure ConvDim where
  n : Nat
  k : Nat
  s : Nat
  d : Nat
  e : Nat
  p0 : Nat
  p1 : Nat
  deriving DecidableEq, Repr

def convDim (n kb e p0 p1 : Nat) : ConvDim :=
  { n := n, k := kb % 16, s := field kb 4 2 + 1, d := field kb 6 2 + 1, e := e + 1, p0 := p0, p1 := p1 }

/-- Output extent (R233). -/
def ConvDim.out (x : ConvDim) : Nat :=
  let a := (x.n - 1) * x.e + 1 + x.p0 + x.p1
  if x.n = 0 ∨ a < x.d * (x.k - 1) + 1 then 0 else (a - x.d * (x.k - 1) - 1) / x.s + 1

/-- Input element at a padded position, none for a zero element (R233). -/
def ConvDim.source (x : ConvDim) (q : Nat) : Option Nat :=
  if q < x.p0 ∨ x.p0 + (x.n - 1) * x.e + 1 ≤ q ∨ (q - x.p0) % x.e ≠ 0 then none else some ((q - x.p0) / x.e)

/-- Input element of tap `j` at output position `o`. -/
def ConvDim.tap (x : ConvDim) (o j : Nat) : Option Nat := x.source (o * x.s + x.d * j)

/-- Size, padding and planned output are in range (R234). -/
def ConvDim.ok (x : ConvDim) : Bool :=
  decide (1 ≤ x.k) && decide (x.k ≤ 7) && decide (x.n ≠ 0) && decide (x.p0 ≤ 6) && decide (x.p1 ≤ 6) &&
    decide (x.p0 ≤ x.d * (x.k - 1)) && decide (x.p1 ≤ x.d * (x.k - 1)) && decide (1 ≤ x.out)

structure ConvPay where
  op : Nat
  mode : Nat
  layX : Nat
  layY : Nat
  cin : Nat
  cout : Nat
  dt : ConvDim
  dy : ConvDim
  dx : ConvDim
  idil : Nat
  shape : Nat
  x : OpRef
  k : OpRef
  y : OpRef
  tag : Nat
  deriving DecidableEq, Repr

def convPay (d : List Byte) : ConvPay :=
  let p := payloadOf d
  let il := leAt p 23 1
  { op := hdrOp d, mode := leAt p 2 1, layX := leAt p 3 1 % 4, layY := field (leAt p 3 1) 2 2, cin := leAt p 4 2,
    cout := leAt p 6 2, dt := convDim (leAt p 8 2) (leAt p 14 1) (field il 0 2) (leAt p 17 1) (leAt p 18 1),
    dy := convDim (leAt p 10 2) (leAt p 15 1) (field il 2 2) (leAt p 19 1) (leAt p 20 1),
    dx := convDim (leAt p 12 2) (leAt p 16 1) (field il 4 2) (leAt p 21 1) (leAt p 22 1), idil := il,
    shape := leAt p 24 4, x := opRef ((p.drop 32).take 16), k := opRef ((p.drop 48).take 16),
    y := opRef ((p.drop 64).take 16), tag := leAt p 92 4 }

def ConvPay.acc (p : ConvPay) : Bool := bit p.mode 2
def ConvPay.shapeEn (p : ConvPay) : Bool := bit p.mode 3
def ConvPay.wino (p : ConvPay) : Bool := bit p.mode 4
def ConvPay.avg (p : ConvPay) : Bool := bit p.mode 5
def ConvPay.countPad (p : ConvPay) : Bool := bit p.mode 6

/-- The input and output tensors at their planned extents. -/
def ConvPay.xT (p : ConvPay) : Tensor := ⟨p.layX, p.cin, p.dt.n, p.dy.n, p.dx.n⟩
def ConvPay.yT (p : ConvPay) : Tensor := ⟨p.layY, p.cout, p.dt.out, p.dy.out, p.dx.out⟩

/-- Taps of a window, and elements of a patch row. -/
def ConvPay.taps (p : ConvPay) : Nat := p.dt.k * p.dy.k * p.dx.k
def ConvPay.kTotal (p : ConvPay) : Nat := p.taps * p.cin

/-- Output tile edge of the Winograd variant (Table 8.6): 4 for the 16-bit formats, 2 for the 8-bit ones. -/
def ConvPay.winoM (p : ConvPay) : Nat := if p.x.fmt ≤ 2 then 4 else 2

/-- Points of the transformed tile. -/
def ConvPay.points (p : ConvPay) : Nat := (p.winoM + 2) * (p.winoM + 2)

/-- Elements of a kernel row: direct, or transformed (R236, R239). -/
def ConvPay.kLen (p : ConvPay) : Nat := if p.wino then p.points * p.dt.k * p.cin else p.kTotal

/-- Rows and row length of Y: a tensor's, or the patch matrix's. -/
def ConvPay.yRows (p : ConvPay) : Nat := if p.op = 1 then p.dt.out * p.dy.out * p.dx.out else p.yT.rows
def ConvPay.yLen (p : ConvPay) : Nat := if p.op = 1 then p.kTotal else p.yT.len

/-- Bits of MODE that belong to an opcode (Table 8.4). -/
def ConvPay.modeOk (p : ConvPay) : Bool :=
  match p.op with
  | 0 => decide (p.mode / 32 = 0) && decide (p.mode % 4 ≠ 3)
  | 1 => p.mode == 0 || p.mode == 8
  | _ => decide (p.mode % 8 = 0) && decide (p.mode / 128 = 0) && !bit p.mode 4

/-- The Winograd conditions of R238. -/
def ConvPay.winoOk (p : ConvPay) : Bool :=
  p.dy.k == 3 && p.dx.k == 3 && p.dy.s == 1 && p.dx.s == 1 && p.dy.d == 1 && p.dx.d == 1 && p.idil == 0 &&
    decide (p.layX < 2) && decide (p.layY < 2) && p.x.fmt == p.k.fmt && decide (1 ≤ p.x.fmt) && decide (p.x.fmt ≤ 4)

/-- The descriptor checks of R147 and R234. -/
def convCheck (d : List Byte) : ItemM Unit := do
  let p := convPay d
  let z := payloadOf d
  let conv := p.op == 0
  require (tileRangeOk d && p.modeOk && decide (leAt z 3 1 / 16 = 0) && zeroAt z 28 4 && decide (p.idil / 64 = 0) &&
    p.cin != 0 && p.cout != 0) stBad
  require (if p.shapeEn then locOk p.shape else p.shape == 0) stBad
  require (fmtByteOk p.x.fmtByte && fmtByteOk p.y.fmtByte && (!conv || fmtByteOk p.k.fmtByte)) stBad
  refuseFormats (if conv then [p.x, p.k] else [p.x]) [p.y]
  require (!(p.wino && (p.x.fmt == 3 || p.x.fmt == 4) && (p.x.sens || p.k.sens))) stBad (reason 1)
  require (p.dt.ok && p.dy.ok && p.dx.ok && zeroAt z 80 12) stBad
  require (layoutOk p.layX p.x.fmt && (if p.op = 1 then p.x.fmt == p.y.fmt && decide (p.x.fmt ≤ 4)
    else layoutOk p.layY p.y.fmt) && (!conv || decide (p.k.fmt ≤ 0xA))) stBad
  require (conv || (p.cin == p.cout && p.idil == 0 && zeroAt z 48 16)) stBad
  require (p.op != 2 || p.layX == p.layY) stBad
  require (p.x.ok p.xT.len && p.y.ok p.yLen && (!conv || p.k.ok p.kLen)) stBad
  require (!p.acc || decide (p.y.fmt ≤ 2)) stBad
  require (!p.wino || p.winoOk) stBad

/-- The item checks of R148. -/
def convPlanned (p : ConvPay) (tile i : Nat) : ItemM Unit := do
  let rx ← planned p.x tile i p.xT.rows p.xT.len
  let rk ← if p.op = 0 then planned p.k tile i p.cout p.kLen else pure []
  let ry ← planned p.y tile i p.yRows p.yLen
  require (!rangesMeet ry rx && !rangesMeet ry rk) stBad

/-- Input frames of an item (R235): the dimension at run time. -/
def convFrames (p : ConvPay) (tile : Nat) : ItemM ConvDim := do
  if p.shapeEn then
    let v ← shapeEntry tile p.shape
    require (decide (v ≠ 0)) stEmpty
    require (decide (v ≤ p.dt.n)) stOverPlan
    let d := { p.dt with n := v }
    require (decide (1 ≤ d.out)) stEmpty
    return d
  else return p.dt

/- ## Elements -/

/-- Rows of a tensor's frames `0 .. v - 1`, by block, frame and line, each read by `f`. -/
def tensorRows {α : Type} (x : Tensor) (v : Nat) (f : Nat → ItemM (List α)) : ItemM (List (List α)) :=
  ((List.range x.blocks).flatMap fun cb => (List.range v).flatMap fun t =>
    (List.range x.h).map fun y => x.row cb t y).mapM f

/-- Element (c, t, y, x) of rows so read. -/
def tensorAt {α : Type} (x : Tensor) (v : Nat) (zero : α) (rows : List (List α)) (c t y col : Nat) : α :=
  (rows.getD ((c / x.blk * v + t) * x.h + y) []).getD (col * x.blk + c % x.blk) zero

/-- Taps of a window in ascending (jt, jy, jx). -/
def ConvPay.tapList (p : ConvPay) : List (Nat × Nat × Nat) :=
  (List.range p.dt.k).flatMap fun jt => (List.range p.dy.k).flatMap fun jy => (List.range p.dx.k).map fun jx => (jt, jy, jx)

/-- Input position of a tap at an output position, none for a zero element. -/
def ConvPay.tapAt (p : ConvPay) (dt : ConvDim) (o : Nat × Nat × Nat) (j : Nat × Nat × Nat) : Option (Nat × Nat × Nat) :=
  match dt.tap o.1 j.1, p.dy.tap o.2.1 j.2.1, p.dx.tap o.2.2 j.2.2 with
  | some t, some y, some x => some (t, y, x)
  | _, _, _ => none

/-- Row of the patch matrix at an output position (R236), from an element reader. -/
def ConvPay.patch {α : Type} (p : ConvPay) (dt : ConvDim) (zero : α) (at_ : Nat → Nat → Nat → Nat → α)
    (o : Nat × Nat × Nat) : List α :=
  p.tapList.flatMap fun j =>
    match p.tapAt dt o j with
    | some (t, y, x) => (List.range p.cin).map fun c => at_ c t y x
    | none => List.replicate p.cin zero

/-- Output positions (to, yo, xo) of an item. -/
def ConvPay.positions (p : ConvPay) (dt : ConvDim) : List (Nat × Nat × Nat) :=
  (List.range dt.out).flatMap fun t => (List.range p.dy.out).flatMap fun y => (List.range p.dx.out).map fun x => (t, y, x)

/-- Stochastic-rounding index of an output element (R236). -/
def ConvPay.index (p : ConvPay) (i co t y x : Nat) : Nat :=
  ((i * p.cout + co) * p.dt.out + t) * (p.dy.out * p.dx.out) + y * p.dx.out + x

/-- One row of Y: channels beyond COUT are written as zero (R230). -/
def ConvPay.yRow (p : ConvPay) (s : State) (ctx i cb t y : Nat) (val : Nat → Nat → Nat → Nat → FVal) :
    List (Rounding × FVal) :=
  (List.range p.yT.len).map fun q =>
    let x := q / p.yT.blk
    let co := cb * p.yT.blk + q % p.yT.blk
    if co < p.cout then (s.rounding ctx p.tag (p.index i co t y x), val co t y x) else (.rne, FVal.zero)

/-- Lines of Y at run time: every block, each frame, every line (R235). -/
def ConvPay.lines (p : ConvPay) (frames : Nat) : List (Nat × Nat × Nat) :=
  (List.range p.yT.blocks).flatMap fun cb => (List.range frames).flatMap fun t => (List.range p.yT.h).map fun y => (cb, t, y)

/-- Y written. -/
def writeTensor (p : ConvPay) (tile i frames : Nat) (val : Nat → Nat → Nat → Nat → FVal) : ItemM Unit :=
  (p.lines frames).forM fun (cb, t, y) => do
    writeRow p.y tile i (p.yT.row cb t y) 0 0 (p.yRow (← get) (← read).ctx i cb t y val)

/-- Rows of Y of `n` elements can all be written: an operator that writes only after its last read writes all or nothing
(R248). -/
def rowsClear (o : OpRef) (tile i n : Nat) (rows : List Nat) : ItemM Unit :=
  rows.forM fun r => do
    match locKey tile o.base (o.row i r * 64 * o.pitch) (rowBytes o.fmt n) with
    | some k => sramClear k (rowBytes o.fmt n)
    | none => stopWith stBad
    if isMx o.fmt then
      match locKey tile o.scales (o.row i r * 64 * o.spitch) (scaleBytes o.fmt n) with
      | some k => sramClear k (scaleBytes o.fmt n)
      | none => stopWith stBad

/- ## Direct convolution (R236, R237) -/

/-- Start of the accumulation at an output position: existing Y under ACC. -/
def ConvPay.start (p : ConvPay) (frames : Nat) (old : List (List FVal)) (o : Nat × Nat × Nat) : List FVal :=
  (List.range p.cout).map fun co =>
    if p.acc then tensorAt p.yT frames FVal.zero old co o.1 o.2.1 o.2.2 else FVal.zero

/-- Outputs of one row, one column block after another (R150). -/
def productRow (w : Nat) (isF32 : Bool) (kp np nk : Nat) (as : List FVal) (b : List (List FVal)) (ps : List FVal) :
    List FVal × Nat :=
  let blocks := (pieces np (ceilDiv b.length np) b).zip (pieces np (ceilDiv b.length np) ps)
  blocks.foldl (fun (ys, n) (bb, pp) =>
    let (y, m) := rowPasses w isF32 kp nk as bb pp
    (ys ++ y, n + m)) ([], 0)

/-- Products of one streamed row against the kernel rows, in the geometry of the two formats. -/
def ConvPay.product (p : ConvPay) (len : Nat) (row : List FVal) (kernel : List (List FVal)) (ps : List FVal) :
    List FVal × Nat :=
  let rate := pairRate p.x.fmt p.k.fmt
  productRow (sumWidth p.x.fmt p.k.fmt) (rate == 3) (passDepth rate) (passWidth rate) (ceilDiv len (passDepth rate)) row
    kernel ps

/-- Outputs of a direct item, by position. -/
def directOut (p : ConvPay) (dt : ConvDim) (xs old kernel : List (List FVal)) : List (List FVal × Nat) :=
  (p.positions dt).map fun o =>
    p.product p.kTotal (p.patch dt FVal.zero (tensorAt p.xT dt.n FVal.zero xs) o) kernel (p.start dt.out old o)

/-- Value at (co, to, yo, xo) of outputs by position. -/
def ConvPay.outAt (p : ConvPay) (l : List (List FVal)) (co t y x : Nat) : FVal :=
  (l.getD ((t * p.dy.out + y) * p.dx.out + x) []).getD co FVal.zero

/- ## Winograd convolution (R238 to R241) -/

/-- A matrix of small integers over a common denominator, by rows. -/
def winoB (m : Nat) : List (List Int) :=
  if m = 4 then
    [[4, 0, -5, 0, 1, 0], [0, -4, -4, 1, 1, 0], [0, 4, -4, -1, 1, 0], [0, -2, -1, 2, 1, 0], [0, 2, -1, -2, 1, 0],
      [0, 4, 0, -5, 0, 1]]
  else [[1, 0, -1, 0], [0, 1, 1, 0], [0, -1, 1, 0], [0, 1, 0, -1]]

def winoA (m : Nat) : List (List Int) :=
  if m = 4 then [[1, 1, 1, 1, 1, 0], [0, 1, -1, 2, -2, 0], [0, 1, 1, 4, 4, 0], [0, 1, -1, 8, -8, 1]]
  else [[1, 1, 1, 0], [0, 1, -1, -1]]

/-- An integer as a value. -/
def ofInt (z : Int) : FVal := .num (decide (z < 0)) z.natAbs 0

/-- FP32 sum of the terms with a nonzero coefficient, ascending (R239; log entry 35). -/
def winoDot (cs : List Int) (xs : List FVal) : FVal :=
  match (cs.zip xs).filter fun (c, _) => decide (c ≠ 0) with
  | [] => FVal.zero
  | (c, x) :: t => t.foldl (fun acc (c, x) => fadd acc (fmul (ofInt c) x)) (fmul (ofInt c) x)

/-- L d Lᵀ for a matrix L and a square d. -/
def winoTransform (l : List (List Int)) (d : List (List FVal)) : List (List FVal) :=
  let n := d.length
  let ld := l.map fun r => (List.range n).map fun c => winoDot r (column d c)
  ld.map fun r => l.map fun q => winoDot q r

/-- Transformed input of a tile for each temporal tap and channel: by point, its K_w elements. -/
def winoInput (p : ConvPay) (dt : ConvDim) (xs : List (List FVal)) (t ty tx : Nat) : List (List FVal) :=
  let m := p.winoM
  let fmt := match elemFmt p.x.fmt with
    | some f => f
    | none => bf16
  let parts := (List.range p.dt.k).flatMap fun jt => (List.range p.cin).map fun c =>
    let d := (List.range (m + 2)).map fun a => (List.range (m + 2)).map fun b =>
      match dt.tap t jt, p.dy.source (ty * m + a), p.dx.source (tx * m + b) with
      | some f, some y, some x => tensorAt p.xT dt.n FVal.zero xs c f y x
      | _, _, _ => FVal.zero
    (winoTransform (winoB m) d).flatten.map fun v => fmt.near v
  (List.range p.points).map fun q => parts.map fun l => l.getD q FVal.zero

/-- Outputs of one tile: by channel, its m × m values, with the rows the checker skips. -/
def winoTile (p : ConvPay) (dt : ConvDim) (xs kernel : List (List FVal)) (t ty tx : Nat) : List (List (List FVal)) × Nat :=
  let kw := p.dt.k * p.cin
  let pts := (winoInput p dt xs t ty tx).zipIdx.map fun (row, q) =>
    p.product kw row (kernel.map fun (k : List FVal) => (k.drop (q * kw)).take kw) (List.replicate p.cout FVal.zero)
  let n := p.winoM + 2
  ((List.range p.cout).map fun co =>
    winoTransform (winoA p.winoM) (pieces n n (pts.map fun (l, _) => l.getD co FVal.zero)),
    pts.foldl (fun a (_, k) => a + k) 0)

/-- All tiles of an item: by frame, tile row and tile column. -/
def winoTiles (p : ConvPay) (dt : ConvDim) (xs kernel : List (List FVal)) : List (List (List (List FVal)) × Nat) :=
  (List.range dt.out).flatMap fun t => (List.range (ceilDiv p.dy.out p.winoM)).flatMap fun ty =>
    (List.range (ceilDiv p.dx.out p.winoM)).map fun tx => winoTile p dt xs kernel t ty tx

/-- Value at (co, to, yo, xo) of tiles. With ACC the existing element enters in a way that the spec does not give (log
entry 34). -/
def ConvPay.winoAt (p : ConvPay) (frames : Nat) (tiles : List (List (List (List FVal)))) (old : List (List FVal))
    (co t y x : Nat) : FVal :=
  let m := p.winoM
  let i := (t * ceilDiv p.dy.out m + y / m) * ceilDiv p.dx.out m + x / m
  let v := (((tiles.getD i []).getD co []).getD (y % m) []).getD (x % m) FVal.zero
  if p.acc then ofF32 (Config.winoAcc (toF32 v) (toF32 (tensorAt p.yT frames FVal.zero old co t y x))) else v

/-- Cycles of a convolution (R237, R241). -/
def convCycles (p : ConvPay) (frames : Nat) : Nat :=
  let rate := pairRate p.x.fmt p.k.fmt
  let m := if p.wino then frames * ceilDiv p.dy.out p.winoM * ceilDiv p.dx.out p.winoM
    else frames * p.dy.out * p.dx.out
  let cols := ceilDiv p.cout (passWidth rate)
  let half := if p.mode % 4 = 0 then ceilDiv cols 2 else cols
  let phi := if !p.wino && p.layX = 2 then 2 else 1
  let passes := half * (if p.wino then p.points * ceilDiv (p.dt.k * p.cin) (passDepth rate)
    else ceilDiv p.kTotal (passDepth rate))
  let chunk := fun rows => passes * (max (rows * wsCycles rate * phi) 128 + 4) + (if p.wino then 256 else 0)
  192 + (if p.acc then 128 else 0) + m / 1024 * chunk 1024 + (if m % 1024 = 0 then 0 else chunk (m % 1024))

/-- The work of `CONV`. -/
def convWork (lf : Option LaneFault) : ItemM Done := do
  let e ← read
  let p := convPay e.desc
  let i := e.item
  let tile := itemTile e.desc i
  convCheck e.desc
  convPlanned p tile i
  let dt ← convFrames p tile
  let xs ← tensorRows p.xT dt.n fun r => readRow p.x tile i r p.xT.len 0
  let kernel ← readRows p.k tile i p.kLen 0 p.cout
  let old ← if p.acc then tensorRows p.yT dt.out fun r => readRow p.y tile i r p.yT.len 0 else pure []
  laneCheck tile lf
  if p.wino then
    let tiles := winoTiles p dt xs kernel
    modify fun s => s.countSkips (tiles.foldl (fun a (_, n) => a + n) 0)
    writeTensor p tile i dt.out (p.winoAt dt.out (tiles.map fun (x, _) => x) old)
  else
    let outs := directOut p dt xs old kernel
    modify fun s => s.countSkips (outs.foldl (fun a (_, n) => a + n) 0)
    writeTensor p tile i dt.out (p.outAt (outs.map fun (x, _) => x))
  return done stOk 0 (convCycles p dt.out)

/-- CONV. -/
def execConvolve (run item : Nat) (laneFault : Option LaneFault) (s : State) : Host.Outcome State Fault Refusal :=
  .next (s.runItem 4 0 (convWork laneFault) run item)

/- ## Patches and pooling (R242, R243) -/

/-- The work of `CONV_PATCH`: element codes copied. -/
def convPatchWork : ItemM Done := do
  let e ← read
  let p := convPay e.desc
  let i := e.item
  let tile := itemTile e.desc i
  convCheck e.desc
  convPlanned p tile i
  let dt ← convFrames p tile
  let w := elemBits p.x.fmt
  let xs ← tensorRows p.xT dt.n fun r => do
    return unpackRow w p.xT.len (← locLoad tile p.x.base (p.x.row i r * 64 * p.x.pitch) (rowBytes p.x.fmt p.xT.len))
  rowsClear p.y tile i p.yLen (List.range (p.positions dt).length)
  (p.positions dt).zipIdx.forM fun (o, n) =>
    locStore tile p.y.base (p.y.row i n * 64 * p.y.pitch) (packBits w (p.patch dt 0 (tensorAt p.xT dt.n 0 xs) o))
  return done stOk 0 (64 + ceilDiv (dt.out * p.dy.out * p.dx.out * p.kTotal * (w / 8)) 512)

/-- CONV_PATCH. -/
def execConvPatch (run item : Nat) (s : State) : Host.Outcome State Fault Refusal :=
  .next (s.runItem 4 1 convPatchWork run item)

/-- One pooled element from its taps inside the input. -/
def poolValue (p : ConvPay) (l : List FVal) : FVal :=
  match l with
  | [] => FVal.zero
  | v :: t =>
    if p.avg then fdiv (t.foldl fadd v) (FVal.ofNat (if p.countPad then p.taps else l.length)) else t.foldl fmax v

/-- The work of `POOL`. -/
def poolWork : ItemM Done := do
  let e ← read
  let p := convPay e.desc
  let i := e.item
  let tile := itemTile e.desc i
  convCheck e.desc
  convPlanned p tile i
  let dt ← convFrames p tile
  let xs ← tensorRows p.xT dt.n fun r => readRow p.x tile i r p.xT.len 0
  rowsClear p.y tile i p.yLen ((p.lines dt.out).map fun (cb, t, y) => p.yT.row cb t y)
  writeTensor p tile i dt.out fun c t y x =>
    poolValue p (p.tapList.filterMap fun j => (p.tapAt dt (t, y, x) j).map fun (a, b, d) =>
      tensorAt p.xT dt.n FVal.zero xs c a b d)
  return done stOk 0 (64 + ceilDiv (p.cout * dt.out * p.dy.out * p.dx.out) 256 * p.taps)

/-- POOL. -/
def execPoolWindows (run item : Nat) (s : State) : Host.Outcome State Fault Refusal := .next (s.runItem 4 2 poolWork run item)

/- ## Boxes (R244 to R247) -/

structure BoxPay where
  mode : Nat
  n : Nat
  keepMax : Nat
  shape : Nat
  srcA : Nat
  srcB : Nat
  dst : Nat
  p0 : Nat
  p1 : Nat
  p2 : Nat
  p3 : Nat
  p4 : Nat
  deriving DecidableEq, Repr

def boxPay (d : List Byte) : BoxPay :=
  let p := payloadOf d
  { mode := leAt p 2 1, n := leAt p 4 2, keepMax := leAt p 6 2, shape := leAt p 8 4, srcA := leAt p 12 4,
    srcB := leAt p 16 4, dst := leAt p 20 4, p0 := leAt p 24 4, p1 := leAt p 28 4, p2 := leAt p 32 4, p3 := leAt p 36 4,
    p4 := leAt p 40 4 }

def BoxPay.shapeEn (p : BoxPay) : Bool := bit p.mode 3

/-- The checks of Table 8.8. -/
def boxCheck (d : List Byte) (nms : Bool) : ItemM Unit := do
  let p := boxPay d
  let z := payloadOf d
  require (tileRangeOk d && decide (p.mode / 16 = 0) && zeroAt z 3 1 && zeroAt z 44 52 && decide (1 ≤ p.n) &&
    decide (p.n ≤ 4096) && locOk p.srcA && locOk p.srcB && locOk p.dst) stBad
  require (if p.shapeEn then locOk p.shape else p.shape == 0) stBad
  if nms then
    require (decide (p.mode % 8 = 0) && zeroAt z 32 12 && decide (1 ≤ p.keepMax) && decide (p.keepMax ≤ p.n) &&
      FVal.zero.le (ofF32 p.p0) && (ofF32 p.p0).le (FVal.ofNat 1) && (ofF32 p.p1).isFinite) stBad
  else
    require (decide (p.mode % 8 < 2) && p.keepMax == 0 &&
      [p.p0, p.p1, p.p2, p.p3, p.p4].all fun x => !(ofF32 x).isNan) stBad

/-- FP32 values at a location word. -/
def loadF32s (tile w at_ n : Nat) : ItemM (List FVal) := do
  let b ← locLoad tile w at_ (4 * n)
  return (List.range n).map fun i => ofF32 (leAt b (4 * i) 4)

/-- One decoded box (R245). -/
def decodeBox (p : BoxPay) (dl an : List FVal) : List FVal :=
  let at_ := fun (l : List FVal) i => l.getD i FVal.zero
  let half := ofF32 0x3F000000
  let log2e := ofF32 0x3FB8AA3B
  let size := fun i => fmul (at_ an i) (exp2 (fmul (fmin (fmul (at_ dl i) (ofF32 p.p1)) (ofF32 p.p2)) log2e))
  let centre := fun i => fadd (at_ an i) (fmul (fmul (at_ dl i) (ofF32 p.p0)) (at_ an (i + 2)))
  let lo := fun i => fsub (centre i) (fmul (size (i + 2)) half)
  let hi := fun i => fadd (centre i) (fmul (size (i + 2)) half)
  let clip := fun v m => if bit p.mode 0 then fmin (fmax v FVal.zero) (ofF32 m) else v
  [clip (lo 0) p.p3, clip (lo 1) p.p4, clip (hi 0) p.p3, clip (hi 1) p.p4]

/-- The work of `BOX_DECODE`. -/
def boxDecodeWork : ItemM Done := do
  let e ← read
  let p := boxPay e.desc
  let tile := itemTile e.desc e.item
  boxCheck e.desc false
  let v ← runTime p.shapeEn tile p.shape p.n
  let ds ← loadF32s tile p.srcA (e.item * p.n * 16) (4 * v)
  let as ← loadF32s tile p.srcB (e.item * p.n * 16) (4 * v)
  let out := (List.range v).flatMap fun c => decodeBox p ((ds.drop (4 * c)).take 4) ((as.drop (4 * c)).take 4)
  locStore tile p.dst (e.item * p.n * 16) (out.flatMap fun x => leBytes 4 (toF32 x))
  return done stOk 0 (64 + ceilDiv v 16 * 6)

/-- BOX_DECODE. -/
def execBoxDecode (run item : Nat) (s : State) : Host.Outcome State Fault Refusal :=
  .next (s.runItem 4 3 boxDecodeWork run item)

/-- Area of a box, at least 0. -/
def boxArea (b : List FVal) : FVal :=
  let at_ := fun i => b.getD i FVal.zero
  fmul (fmax FVal.zero (fsub (at_ 2) (at_ 0))) (fmax FVal.zero (fsub (at_ 3) (at_ 1)))

/-- Intersection over union in FP32 (R246). -/
def boxIou (a b : List FVal) : FVal :=
  let x := fun (l : List FVal) i => l.getD i FVal.zero
  let side := fun i => fmax FVal.zero (fsub (fmin (x a (i + 2)) (x b (i + 2))) (fmax (x a i) (x b i)))
  let inter := fmul (side 0) (side 1)
  let u := fsub (fadd (boxArea a) (boxArea b)) inter
  if u.le FVal.zero then FVal.zero else fdiv inter u

/-- Candidates in order taken; those kept, in keep order, at most `n` (R246). -/
def nmsKeep (iou : FVal) (n : Nat) (box : Nat → List FVal) : List Nat → List Nat → List Nat
  | [], kept => kept
  | c :: t, kept =>
    if n ≤ kept.length then kept
    else if kept.any fun k => iou.lt (boxIou (box c) (box k)) then nmsKeep iou n box t kept
    else nmsKeep iou n box t (kept ++ [c])

/-- The work of `BOX_NMS`. -/
def boxNmsWork : ItemM Done := do
  let e ← read
  let p := boxPay e.desc
  let tile := itemTile e.desc e.item
  boxCheck e.desc true
  let v ← runTime p.shapeEn tile p.shape p.n
  let bs ← loadF32s tile p.srcA (e.item * p.n * 16) (4 * v)
  let sc ← loadF32s tile p.srcB (e.item * p.n * 4) v
  let score := fun c => sc.getD c .nan
  let cand := (List.range v).filter fun c => (ofF32 p.p1).le (score c)
  let order := sortBy (fun a b => (score b).lt (score a) || (!(score a).lt (score b) && decide (a < b))) cand
  let kept := nmsKeep (ofF32 p.p0) p.keepMax (fun c => (bs.drop (4 * c)).take 4) order []
  locStore tile p.dst (e.item * 64 * ceilDiv (4 + 2 * p.keepMax) 64)
    (leBytes 4 kept.length ++ (kept.flatMap (leBytes 2)) ++
      (List.replicate (p.keepMax - kept.length) [0xFF, 0xFF]).flatten)
  return done stOk (kept.length + 2 ^ 32 * cand.length)
    (128 + 12 * cand.length + 2 * kept.length * ceilDiv cand.length 64)

/-- BOX_NMS. -/
def execBoxNms (run item : Nat) (s : State) : Host.Outcome State Fault Refusal := .next (s.runItem 4 4 boxNmsWork run item)

end Sys2Proof.Machine
end

