-- ==== Sys2Proof/Machine/Vprog.lean ====
section
/-! DEFINITION. Vector programs and weight-pair writes (R201, R205 to R211). -/
namespace Sys2Proof.Machine

/- ## The program (R205 to R208) -/

/-- The fields of Table 7.2. -/
structure VpPay where
  mode : Nat
  len : Nat
  rows : Nat
  cols : Nat
  prog : Nat
  streams : Nat
  const : Nat
  shape : Nat
  ovf : Nat
  clip : Nat
  tag : Nat
  pairAddr : Nat
  deriving DecidableEq, Repr

def vpPay (d : List Byte) : VpPay :=
  let p := payloadOf d
  { mode := leAt p 2 1, len := leAt p 3 1, rows := leAt p 4 2, cols := leAt p 6 2, prog := leAt p 8 4,
    streams := leAt p 12 4, const := leAt p 16 4, shape := leAt p 20 4, ovf := leAt p 24 8, clip := leAt p 32 4,
    tag := leAt p 36 4, pairAddr := leAt p 40 8 }

def VpPay.pair (p : VpPay) : Bool := bit p.mode 0
def VpPay.shapeEn (p : VpPay) : Bool := bit p.mode 1

/-- An instruction word (Table 7.3). -/
structure VInstr where
  opc : Nat
  d : Nat
  a : Nat
  b : Nat
  c : Nat
  st : Nat
  rsvd : Nat
  imm : Nat
  deriving DecidableEq, Repr

def vInstr (w : Nat) : VInstr :=
  { opc := field w 0 8, d := field w 8 4, a := field w 12 4, b := field w 16 4, c := field w 20 4, st := field w 24 3,
    rsvd := field w 27 5, imm := field w 32 32 }

/-- The instruction keeps Tables 7.3 and 7.4. -/
def VInstr.ok (i : VInstr) : Bool :=
  ((decide (1 ≤ i.opc) && decide (i.opc ≤ 5)) || (decide (8 ≤ i.opc) && decide (i.opc ≤ 0x16))) && i.rsvd == 0 &&
    (i.opc == 3 ||
      (if i.opc = 4 then decide (i.imm < 16)
       else if i.opc = 0x15 then decide (i.imm < 32)
       else if i.opc = 0x16 then decide (1 ≤ i.imm) && decide (i.imm ≤ 4)
       else i.imm == 0))

/-- Cycles per group of 512 elements (Table 7.4). -/
def VInstr.cycles (i : VInstr) : Nat :=
  if i.opc = 0x11 || i.opc = 0x12 then 4 else if i.opc = 0x13 then 8 else if i.opc = 0x14 || i.opc = 0x15 then 2 else 1

/-- Streams that a program loads, and stores. -/
def loadedOf (l : List VInstr) : List Nat := (l.filter fun i => i.opc == 1).map VInstr.st
def storedOf (l : List VInstr) : List Nat := (l.filter fun i => i.opc == 2).map VInstr.st

/-- Each value of a list once, in the order of first standing. -/
def onceEach (l : List Nat) : List Nat := l.foldl (fun acc x => addVal x acc) []

/-- No `LD` of a stream stands after an `ST` to it (R208). -/
def loadsFirst : List VInstr → Bool
  | [] => true
  | i :: t => (i.opc != 2 || !(loadedOf t).contains i.st) && loadsFirst t

/-- What an item reads at its start: program, streams and constants (R205), and the pair record of pair mode. -/
structure VpCtx where
  pay : VpPay
  instrs : List VInstr
  streams : List OpRef
  consts : List FVal
  pair : PairRec
  deriving DecidableEq, Repr

/-- A stream of the table. -/
def VpCtx.stream (c : VpCtx) (k : Nat) : OpRef := c.streams.getD k (opRef [])

/-- An entry that is all zero is unused (Table 7.2). -/
def OpRef.unused (o : OpRef) : Bool := o == opRef []

/-- The operands that sensitive data and 2-bit checks judge (R118, R120): loaded streams, and stored ones, with stream 7
in the pair record's format in pair mode. -/
def VpCtx.sources (c : VpCtx) : List OpRef := (loadedOf c.instrs).map c.stream
def VpCtx.dests (c : VpCtx) : List OpRef :=
  (storedOf c.instrs).map fun k =>
    if c.pay.pair && k == 7 then { c.stream 7 with fmtByte := c.pair.fmtByte } else c.stream k

/-- The descriptor checks of R147, R208 and R210 on what the item has read. -/
def vpCheck (c : VpCtx) (tile gen count : Nat) (compat : Bool) : ItemM Unit := do
  let s ← get
  let p := c.pay
  require (c.instrs.all VInstr.ok) stBad
  let lds := loadedOf c.instrs
  let sts := storedOf c.instrs
  let used := fun k => !(c.stream k).unused || (p.pair && k == 7)
  require ((lds ++ sts).all used && allDistinct sts && loadsFirst c.instrs) stBad
  require (c.streams.zipIdx.all fun (o, _) => o.unused || fmtByteOk o.fmtByte) stBad
  refuseFormats c.sources c.dests
  require (c.streams.zipIdx.all fun (o, k) => o.unused || (o.ok p.cols && (o.fmt != 0xB || k == 7))) stBad
  require (c.instrs.all fun i => i.opc != 0x15 || s.fnUsable tile gen i.imm compat) stBad
  require (c.instrs.all fun i => i.opc != 4 || p.const != 0) stBad
  let f7 := if p.pair then c.pair.fmtByte % 16 else (c.stream 7).fmt
  require (ovfOk f7 p.ovf && clipFieldOk f7 p.clip) stBad
  if p.pair then
    let r := c.pair
    require (p.rows == 128 && p.cols == 128 && !p.shapeEn && (c.stream 7).unused && sts.contains 7 && !lds.contains 7 &&
      decide (r.fmtByte / 32 = 0) && decide (r.fmtByte % 16 ≤ 0xA) && decide (r.state ≤ 2) && r.rows != 0 && r.cols != 0 &&
      count == ceilDiv r.rows 128 * ceilDiv r.cols 128) stBad

/-- The fields of the payload that the program does not decide. -/
def vpPayCheck (d : List Byte) : ItemM Unit := do
  let p := vpPay d
  require (tileRangeOk d && decide (p.mode / 4 = 0) && decide (1 ≤ p.len) && decide (p.len ≤ 64) && p.rows != 0 &&
    p.cols != 0 && zeroAt (payloadOf d) 48 48 && locOk p.prog && locOk p.streams && (p.const == 0 || locOk p.const)) stBad
  require (if p.shapeEn then locOk p.shape else p.shape == 0) stBad
  let s ← get
  require (if p.pair then decide (p.pairAddr % 32 = 0) && s.ownMem p.pairAddr 32 else p.pairAddr == 0) stBad

/-- Program, streams, constants and pair record read for an item on a tile. -/
def vpRead (p : VpPay) (tile : Nat) : ItemM VpCtx := do
  let code ← locLoad tile p.prog 0 (8 * p.len)
  let tbl ← locLoad tile p.streams 0 128
  let cs ← if p.const = 0 then pure [] else locLoad tile p.const 0 64
  let rc ← if p.pair then load p.pairAddr 32 else pure []
  return { pay := p
           instrs := (List.range p.len).map fun i => vInstr (leAt code (8 * i) 8)
           streams := (List.range 8).map fun i => opRef ((tbl.drop (16 * i)).take 16)
           consts := (List.range 16).map fun i => ofF32 (leAt cs (4 * i) 4)
           pair := pairRec p.pairAddr rc }

/- ## Evaluation (R207, R209) -/

/-- What an instruction needs beyond its registers. -/
structure VEnv where
  consts : List FVal
  img : List Byte
  compat : Bool
  mode : Rounding
  deriving DecidableEq, Repr

/-- The value an instruction gives to its destination, from the loaded element and the registers. -/
def VInstr.value (i : VInstr) (e : VEnv) (loaded : FVal) (v : List FVal) : FVal :=
  let a := v.getD i.a FVal.zero
  let b := v.getD i.b FVal.zero
  let c := v.getD i.c FVal.zero
  match i.opc with
  | 0x01 => loaded
  | 0x03 => ofF32 i.imm
  | 0x04 => e.consts.getD i.imm FVal.zero
  | 0x05 => a
  | 0x08 => fadd a b
  | 0x09 => fsub a b
  | 0x0A => fmul a b
  | 0x0B => ffma a b c
  | 0x0C => fmin a b
  | 0x0D => fmax a b
  | 0x0E => a.abs
  | 0x0F => a.neg
  | 0x10 => if FVal.zero.le a then b else c
  | 0x11 => fdiv a b
  | 0x12 => fsqrt a
  | 0x13 => fdiv (FVal.ofNat 1) (fsqrt a)
  | 0x14 => exp2 a
  | 0x15 => fnEval e.img i.imm e.compat a
  | 0x16 =>
    match elemFmt i.imm with
    | some f => f.decode (f.encode e.mode a)
    | none => a
  | _ => a

/-- One instruction on an element: registers and stored elements. -/
def VInstr.run (i : VInstr) (e : VEnv) (elems : List (Nat × FVal)) (st : List FVal × List (Nat × FVal)) :
    List FVal × List (Nat × FVal) :=
  if i.opc = 2 then (st.1, st.2 ++ [(i.st, st.1.getD i.a FVal.zero)])
  else
    let x := match cellFind i.st elems with
      | some v => v
      | none => FVal.zero
    (modifyAt (fun _ => i.value e x st.1) i.d st.1, st.2)

/-- The program on one element: what it stores, by stream. Every register starts at +0. -/
def vElem (l : List VInstr) (e : VEnv) (elems : List (Nat × FVal)) : List (Nat × FVal) :=
  (l.foldl (fun st i => i.run e elems st) (List.replicate 16 FVal.zero, [])).2

/-- What the program stores in one row: by stream, its elements. `idx` gives each element's linear index. -/
def vRow (c : VpCtx) (s : State) (ctx tile gen : Nat) (loaded : List (Nat × List FVal)) (n : Nat) (idx : Nat → Nat) :
    List (Nat × List FVal) :=
  let compat := s.flag (ctxArithCompat ctx)
  let img := s.fnBytes tile gen
  let outs := (List.range n).map fun col =>
    vElem c.instrs { consts := c.consts, img := img, compat := compat, mode := s.rounding ctx c.pay.tag (idx col) }
      (loaded.map fun (k, l) => (k, l.getD col FVal.zero))
  (storedOf c.instrs).map fun k => (k, outs.map fun o =>
    match cellFind k o with
    | some v => v
    | none => FVal.zero)

/-- Row `r` of every loaded stream. -/
def vLoads (c : VpCtx) (tile i r : Nat) : ItemM (List (Nat × List FVal)) :=
  (onceEach (loadedOf c.instrs)).mapM fun k => do
    return (k, ← readRow (c.stream k) tile i r c.pay.cols (if k = 7 then c.pay.ovf else 0))

/-- Rows run in ascending order; each row's stores are made once its elements are computed. -/
def vRows (c : VpCtx) (tile i gen : Nat) : Nat → Nat → ItemM Unit
  | 0, _ => pure ()
  | n + 1, r => do
    let e ← read
    let ld ← vLoads c tile i r
    let idx := (i * c.pay.rows + r) * c.pay.cols
    let outs := vRow c (← get) e.ctx tile gen ld c.pay.cols (fun col => idx + col)
    outs.forM fun (k, l) => do
      writeRow (c.stream k) tile i r (if k = 7 then c.pay.ovf else 0) c.pay.clip (← withRounding c.pay.tag idx l)
    vRows c tile i gen n (r + 1)

/-- Planned ranges of the streams that a program stores, and of those that it loads; none where one leaves its place. -/
def VpCtx.ranges (c : VpCtx) (tile i : Nat) (l : List Nat) : Option (List (Nat × List (Nat × Nat))) :=
  l.mapM fun k => ((c.stream k).ranges tile i c.pay.rows c.pay.cols).map fun r => (k, r)

/-- Streams stored to memory of the partition: all but the pair write. -/
def VpCtx.stored (c : VpCtx) : List Nat := (storedOf c.instrs).filter fun k => !(c.pay.pair && k == 7)

/-- No stored stream's planned extent meets another's, or that of a different loaded stream (R208). -/
def VpCtx.apart (c : VpCtx) (tile i : Nat) : Bool :=
  match c.ranges tile i c.stored, c.ranges tile i (onceEach (loadedOf c.instrs)) with
  | some sts, some lds => sts.all fun (k, a) => (sts ++ lds).all fun (j, b) => k == j || !rangesMeet a b
  | _, _ => true

/-- Planned rows stay in their places (R148), and apart (R208). -/
def vPlanned (c : VpCtx) (tile i : Nat) : ItemM Unit := do
  require ((c.ranges tile i c.stored).isSome && (c.ranges tile i (onceEach (loadedOf c.instrs))).isSome && c.apart tile i) stBad

/-- What one item brings to the checks of the whole descriptor (R208, R210): its tile's program. -/
def vpJudge (gen : Nat) : ItemM Unit := do
  let e ← read
  let tile := itemTile e.desc e.item
  vpPayCheck e.desc
  let c ← vpRead (vpPay e.desc) tile
  vpCheck c tile gen e.count ((← get).flag (ctxArithCompat e.ctx))
  require (c.apart tile e.item) stBad

/- ## Pair mode (R210, R211) -/

/-- A stored square: rows of 128 elements with their rounding, which is that of the forward copy's index. -/
def pairSquare (c : VpCtx) (tile i gen a b : Nat) : ItemM (List (List (Rounding × FVal))) := do
  let e ← read
  (List.range 128).mapM fun r => do
    let ld ← vLoads c tile i r
    let idx := fun col => (128 * a + r) * c.pair.cols + 128 * b + col
    let outs := vRow c (← get) e.ctx tile gen ld 128 idx
    for (k, l) in outs do
      if k ≠ 7 then
        let s ← get
        writeRow (c.stream k) tile i r 0 0 (l.zipIdx.map fun (v, col) => (s.rounding e.ctx c.pay.tag (idx col), v))
    let s ← get
    let l := match cellFind 7 outs with
      | some l => l
      | none => []
    return l.zipIdx.map fun (v, col) => (s.rounding e.ctx c.pay.tag (idx col), v)

/-- Scale of a 32 × 32 sub-square (R210): from the amax of its 1,024 elements; NaN where the format has no NaN and one of
them is not finite (R109). -/
def subScale (fmt : Nat) (sq : List (List (Rounding × FVal))) (p q : Nat) : Nat :=
  let l := ((sq.drop (32 * p)).take 32).flatMap fun row => ((row.drop (32 * q)).take 32).map fun (_, v) => v
  if decide (7 ≤ fmt) && l.any (fun v => !v.isFinite) then 0xFF else scaleCode (amaxLog l) (elemExp fmt)

/-- Element codes of a square, with its sixteen scales for an MX format. -/
def squareCodes (fmt : Nat) (sq : List (List (Rounding × FVal))) : List (List Nat) × List (List Nat) :=
  if isMx fmt then
    let sc := (List.range 4).map fun p => (List.range 4).map fun q => subScale fmt sq p q
    (sq.zipIdx.map fun (row, r) => row.zipIdx.map fun ((m, v), col) =>
      let x := (sc.getD (r / 32) []).getD (col / 32) 0
      if x = 0xFF then 0 else elemCode fmt m (v.scale (127 - (x : Int))), sc)
  else (sq.map fun row => row.map fun (m, v) => elemCode fmt m v, [])

/-- One copy's part of a square stored: `nr` rows from `r0` and `nc` columns from `c0` of a copy of `rows` rows of `cols`
elements at `base`; MX blocks at the copy's edge are filled with zero elements (R111). -/
def storeCopy (fmt base rows cols r0 c0 : Nat) (codes sc : List (List Nat)) : ItemM Unit := do
  let nr := min 128 (rows - r0)
  let nc := min 128 (cols - c0)
  let cut := fun (l : List Nat) =>
    l.take nc ++ List.replicate (if isMx fmt then ceilDiv nc 32 * 32 - nc else 0) 0
  (List.range nr).forM fun r => do
    store (base + (r0 + r) * copyPitch fmt cols + c0 * elemBits fmt / 8) (packBits (elemBits fmt) (cut (codes.getD r [])))
    if isMx fmt then
      store (base + rows * copyPitch fmt cols + (r0 + r) * copyScalePitch fmt cols + c0 / 32)
        (((sc.getD (r / 32) []).take (ceilDiv nc 32)).map fun x => BitVec.ofNat 8 x)

/-- Rows and columns exchanged. -/
def swapRows (l : List (List Nat)) (n : Nat) : List (List Nat) := (List.range n).map fun c => l.map fun r => r.getD c 0

/-- A square written to both copies with the same codes (R210). -/
def storeSquare (r : PairRec) (a b : Nat) (sq : List (List (Rounding × FVal))) : ItemM Unit := do
  let fmt := r.fmtByte % 16
  let (codes, sc) := squareCodes fmt sq
  storeCopy fmt r.fwd r.rows r.cols (128 * a) (128 * b) codes sc
  storeCopy fmt r.bwd r.cols r.rows (128 * b) (128 * a) (swapRows codes 128) (swapRows sc 4)

/-- The pair record of a descriptor in pair mode. -/
def pairMode (d : List Byte) : Bool := hdrClass d == 3 && hdrOp d == 0 && (vpPay d).pair

/-- Step 1 of R159, at the dispatch of a pair write's first run: STATE 0x02. Its descriptor has passed its checks (R211). -/
def State.pairBegin (s : State) (r : Run) : State :=
  if pairMode r.desc.bytes && !r.desc.continuation then
    let work : ItemM Unit := store ((vpPay r.desc.bytes).pairAddr + 21) (leBytes 1 2)
    (work.on (r.env s 0) s).2
  else s

/-- Step 4 of R159, when the final summary is written: STATE 0x01 and SEQ raised, if the descriptor ran and no item of any of
its runs failed (R211). -/
def State.pairCommit (s : State) (r : Run) : State :=
  if pairMode r.desc.bytes && r.desc.verdict.isNone && decide (max r.desc.worst r.worst < 0x10) then
    let work : ItemM Unit := do
      let a := (vpPay r.desc.bytes).pairAddr
      commitPair (pairRec a (← load a 32))
    match work.on (r.env s 0) s with
    | (.ok _, t) => t
    | (.error _, t) => t
  else s

/-- Cycles of a `VPROG` item (Table 7.13). -/
def vpCycles (c : VpCtx) (v : Nat) : Nat :=
  64 + v * ceilDiv c.pay.cols 512 * (c.instrs.foldl (fun a i => a + i.cycles) 0)

/-- The generation that the present run has bound (R167). -/
def boundGen : ItemM Nat := do
  return match (← get).findRun (← read).run with
    | some r => r.fnGen
    | none => 0

/-- Whether some stored stream is a packed line or an MX format (R129). -/
def VpCtx.prec (c : VpCtx) : Bool := c.dests.any fun o => precFmt o.fmt

/-- Function tables that a program evaluates must be readable on its tile (R259, R261). -/
def fnReadable (c : VpCtx) (tile gen : Nat) : ItemM Unit := do
  match (← get).fnBuffer tile gen with
  | some (b, bs) => if c.instrs.any fun i => i.opc == 0x15 then sramTable (sramFn tile b) bs.length
  | none => pure ()

/-- The work of `VPROG`. -/
def vprogWork : ItemM Done := do
  let e ← read
  let gen ← boundGen
  let p := vpPay e.desc
  let tile := itemTile e.desc e.item
  vpPayCheck e.desc
  let c ← vpRead p tile
  vpCheck c tile gen e.count ((← get).flag (ctxArithCompat e.ctx))
  if c.prec then modifyItem fun x => { x with noted := cellPut x.noted nkPrec (some [1]) }
  vPlanned c tile e.item
  fnReadable c tile gen
  if p.pair then
    let b := ceilDiv c.pair.cols 128
    let sq ← pairSquare c tile e.item gen (e.item / b) (e.item % b)
    storeSquare c.pair (e.item / b) (e.item % b) sq
    doneRows c.prec p.rows (vpCycles c 128)
  else
    let v ← runTime p.shapeEn tile p.shape p.rows
    vRows c tile e.item gen v 0
    doneRows c.prec v (vpCycles c v)

/-- VPROG. -/
def execVprog (run item : Nat) (s : State) : Host.Outcome State Fault Refusal := .next (s.runItem 3 0 vprogWork run item)

end Sys2Proof.Machine
end

