-- ==== Sys2Proof/Machine/Checks.lean ====
section
/-! DEFINITION. The checks that judge a descriptor whole, before any of its items runs: those made at the fetch on its header
and payload (R55, R118, R120, R147, R192, R204, R234, R399), and those made at the dispatch on the tables and programs that the run
is bound to (R192, R208, R399). Fetching itself stands here for that reason (R46, R55, R56). -/
namespace Sys2Proof.Machine

/- ## At the fetch (R46, R55, R56, R519) -/

/-- The payload rules of a descriptor that touch no memory and need no table (log entry 70). Those of the classes that are not
here are looked at by each item's own work. -/
def payloadCheck (d : List Byte) : ItemM Unit :=
  match hdrClass d, hdrOp d with
  | 1, 3 => splitCheck d
  | 1, 4 => pairCheck d
  | 1, op => mmCheck d op
  | 2, 0 => attnCheck d
  | 2, 1 => kvAppendCheck d
  | 2, 2 => seqCheck d
  | 2, 3 => seqLeaveCheck d
  | 2, 4 => seqCheck d
  | 2, 5 => pageShareCheck d
  | 2, _ => biasLoadCheck d
  | 3, 0 => vpPayCheck d
  | 3, 3 => mergeCheck d
  | 3, 6 => fnLoadCheck d
  | 3, _ => rowCheck d
  | 4, 3 => boxCheck d false
  | 4, 4 => boxCheck d true
  | 4, _ => convCheck d
  | 5, 2 => moveCheck false
  | 5, 3 => moveCheck true
  | 7, _ => decCheck
  | 8, _ => encCheck
  | 0xB, op => if op < 5 then collCheck d op else pure ()
  | _, _ => pure ()

/-- The descriptor as the checks at the fetch see it, before it has a run. -/
def State.fetchEnv (s : State) (n : Nat) (d : List Byte) : ItemEnv :=
  { run := s.sched.nextRun, item := 0, ring := n, ctx := s.ringCtx n, desc := d, slot := 0, epoch := s.cueNo, count := hdrItems d + 1 }

/-- What the payload's checks decide: the status and DETAIL with which every item ends, or nothing. -/
def State.payloadVerdict (s : State) (n : Nat) (d : List Byte) : Option (Nat × Nat) :=
  match (payloadCheck d).on (s.fetchEnv n d) s with
  | (.error (.ended st dt), _) => some (verdictOn d (st, dt))
  | _ => none

/-- What the checks made at the fetch decide: a status for every item, and whether the fence-out is withheld (R55, R59,
R118, R120, R147, R383, R519). -/
def State.fetchVerdict (s : State) (n : Nat) (d : List Byte) : Option (Nat × Nat) × Bool :=
  if leAt d 4 1 % 64 ≠ s.ringCtx n then (some (verdictOn d (stNotAuth, 0)), true)
  else if hdrReserved d then (some (verdictOn d (stBad, 0)), true)
  else if usesFence d && !s.fenceTableOk (s.ringCtx n) then (some (verdictOn d (stBad, 0)), true)
  else if s.sched.torn.contains (s.ringCtx n) then (some (verdictOn d (stCancelled, 0)), false)
  else (s.payloadVerdict n d, false)

/-- A descriptor as it waits in the device. -/
def State.newFetched (s : State) (n : Nat) (index : Word) (d : List Byte) (owner : Option Nat) : Fetched :=
  let v := s.fetchVerdict n d
  { index := index, ring := n, bytes := d, verdict := v.1, noFence := v.2, todo := List.range (hdrItems d + 1),
    continuation := false, fallback := owner.isSome, owner := owner, since := s.now, worst := 0, alsoFence := 0,
    order := s.sched.nextOrder, headCue := none, fenceWait := 0 }

/-- A descriptor whose fetch failed: one item, DATA_UNCORRECTABLE, no fence-out (R56, R59). Its record carries the ring's
context. -/
def State.failedFetch (s : State) (n : Nat) (index : Word) (owner : Option Nat) : Fetched :=
  { index := index, ring := n, bytes := leBytes 4 0 ++ leBytes 1 (s.ringCtx n) ++ leBytes 123 0,
    verdict := some (stUncorrectable, 0), noFence := true, todo := [0], continuation := false, fallback := owner.isSome, owner := owner,
    since := s.now, worst := 0, alsoFence := 0, order := s.sched.nextOrder, headCue := none, fenceWait := 0 }

/-- A read of the descriptor in a slot of a device-resident ring, with the log entry of a failing read (R56, R261). -/
def State.fetchDevice (s : State) (n slot : Nat) (index : Word) (owner : Option Nat) : State × Fetched :=
  let k := addrKey (s.reg (rRingSqBase n)) + 128 * slot
  if s.devShut k then (s, s.failedFetch n index owner)
  else
    match s.readMem { source := 0, ctx := s.ringCtx n, ring := n, desc := slot, item := 0, requester := s.member } k 128 with
    | (t, some bs) => (t, t.newFetched n index bs owner)
    | (t, none) => (t, s.failedFetch n index owner)

/-- A fetched descriptor taken into the ring: a cancel mark above it cuts it, its header goes to the trace (R62,
R463). -/
def State.pushFetched (s : State) (n : Nat) (f : Fetched) : State :=
  let r := s.ring n
  let f := if r.marked && belowMark r.cancel f.index && f.owner.isNone then f.cut stCancelled else f
  let t := (s.setRing n { r with fifo := r.fifo ++ [f] }).trace (f.bytes.take 32)
  ({ t with sched := { t.sched with nextOrder := t.sched.nextOrder + 1 } }).noteHead n

/- ## At the dispatch -/

/-- What an item brings to the checks of its whole descriptor against the tables and programs that the run is bound to: the
bias table's heads, the entry and rank in the directory, and the vector program (R192, R208, R399). -/
def boundCheck (r : Run) : ItemM Unit :=
  match hdrClass r.desc.bytes, hdrOp r.desc.bytes with
  | 2, 0 => attnBias r.desc.bytes
  | 3, 0 => vpJudge r.fnGen
  | 0xB, op => if op < 5 then collBound r.desc.bytes op r.chorusGen else pure ()
  | _, _ => pure ()

/-- DETAIL with which every item of a run that begins a descriptor ends BAD_DESCRIPTOR, if one of its items fails a check of
the whole descriptor. An item that cannot read what it brings is judged when it runs. -/
def State.judgeRun (s : State) (r : Run) : Option Nat :=
  if r.desc.continuation then none
  else r.items.findSome? fun x =>
    match (boundCheck r).on (r.env s x.index) s with
    | (.error (.ended st dt), _) => if st = stBad then some dt else none
    | _ => none

end Sys2Proof.Machine
end

