-- ==== Sys2Proof/Machine/Power.lean ====
section
/-! DEFINITION. Power states and power failure (R295, R298, R469 to R473, R499): requests and their refusals, entry and exit,
the automatic Dimmed state, `PWR_FAIL_N` and the hold-up sense input. -/
namespace Sys2Proof.Machine

/- ## Requests (R470, R471) -/

/-- A coppice of some partition is in progress. -/
def State.anyCoppice (s : State) : Bool := (List.range 8).any s.inCoppice

/-- REFUSAL of a way into Dark or Ghost light (Table 16.13): the lowest code that applies, 0 for none. From Dark only
curtain and power failure refuse. -/
def State.darkRefusal (s : State) : Nat :=
  if s.flag healthStatusCurtain then 1
  else if s.powerState < 2 && s.anyFeed then 2
  else if s.powerState < 2 && s.anyCoppice then 3
  else if s.flash.failing then 6
  else 0

/-- A transition begins. Into Dark or Ghost light from Full or Dimmed admission stops at once. -/
def State.beginPower (s : State) (t : Nat) : State :=
  ({ s with power := { s.power with
      target := some t, draining := decide (t ≠ 0) && decide (s.powerState < 2), since := s.now } } : State).setFlag pwrStatusBusy true

/-- A request judged while no transition runs: 0 Full, 2 Dark, 3 Ghost light. From Ghost light to Dark there is no row of
Table 16.13. -/
def State.judgePower (s : State) (t : Nat) : State :=
  if t = 0 then
    if s.powerState = 1 then s.wakeDimmed
    else if s.powerState = 0 then s
    else s.beginPower 0
  else if t ≤ s.powerState then s
  else if s.darkRefusal ≠ 0 then s.setFld pwrStatusRefusal s.darkRefusal
  else s.beginPower t

/-- A power request by register or MCTP message (R470): held during a transition, the later one replacing the earlier.
Ghost light entered on power failure is left only by a device reset (R473). -/
def State.requestPower (s : State) (t : Nat) : State :=
  if s.inReset || s.power.ghostLatched then s
  else if s.flag pwrStatusBusy then { s with power := { s.power with heldRequest := some t } }
  else s.judgePower t

/-- PWR_TARGET_FULL. -/
def execPwrTargetFull (s : State) : Host.Outcome State Fault Refusal := .next (s.requestPower 0)

/-- PWR_TARGET_DARK. -/
def execPwrTargetDark (s : State) : Host.Outcome State Fault Refusal := .next (s.requestPower 2)

/-- PWR_TARGET_GHOST_LIGHT. -/
def execPwrTargetGhostLight (s : State) : Host.Outcome State Fault Refusal := .next (s.requestPower 3)

/- ## Transitions (R469 to R473) -/

/-- The transition is over: BUSY clears and a held request is judged. -/
def State.endPower (s : State) : State :=
  let t := ({ s with power := { s.power with target := none, heldRequest := none, draining := false } } : State).setFlag
    pwrStatusBusy false
  match s.power.heldRequest with
  | some r => if t.power.ghostLatched then t else t.judgePower r
  | none => t

/-- Dark (Table 16.12, R472): tile stores and wings are lost, and no partition contributes to this slot's tile budget. -/
def State.enterDark (s : State) : State :=
  let t := (List.range 8).foldl (fun (u : State) p => u.sramZeroPart p) (s.setFld pwrStatusState 2)
  { t with sched := { t.sched with
      budget := modifyAt (fun _ => 0) 0 t.sched.budget
      pool := modifyAt (fun _ => 0) 0 t.sched.pool
      allowances := t.sched.allowances.map fun a => { a with left := modifyAt (fun _ => 0) 0 a.left } } }

/-- Ghost light: function and bias buffers are lost as well (Table 16.12). -/
def State.enterGhost (s : State) : State :=
  let t := s.setFld pwrStatusState 3
  { t with
    fn := { t.fn with buffers := [] }
    bias := { image := [], standby := none, front := 0 } }

/-- Function tables back from Ghost light: every tile's buffer in force from the image of the load that brought the
generation into force, read again; bias generation 0 (Table 16.13, R217). None while the image is to come; where it cannot be
read the tiles hold no function (DESIGN CHOICE, log entry 72). -/
def State.restoreTables (s : State) : State × Bool :=
  let bias := fun (t : State) =>
    (((t.setFld biasStatusGen 0).setFld biasStatusPendingGen 0).setFlag biasStatusPending false).setFld biasStatusHeads 0
  match s.rereadFn with
  | (t, .done bs) => (bias (t.putReread bs (List.range 144)), true)
  | (t, .failed) => (bias t, true)
  | (t, .waiting) => (t, false)

/-- Doorbell lines held in Dark and Ghost light acted on at exit (R472). -/
def State.releaseLines (s : State) : State :=
  s.rings.foldl (fun (t : State) x =>
    match x.2.heldLine with
    | none => t
    | some l => (t.onRing x.1 fun r => { r with heldLine := none }).wakeRing x.1 (some l)) s

/-- Full again; curtain that came due meanwhile follows (R473). -/
def State.enterFull (s : State) : State :=
  let (t, ready) := if s.powerState = 3 then s.restoreTables else (s, true)
  if !ready then t
  else
    let t := (t.setFld pwrStatusState 0).endPower.releaseLines
    match s.power.curtainDue with
    | some c => ({ t with power := { t.power with curtainDue := none } } : State).enterCurtain c
    | none => t

/-- POWER_TRANSITION_DONE. Dark waits for every run to end, Ghost light for the flash programs as well; the way from Full to
Ghost light passes through Dark. -/
def State.powerDone (s : State) : State :=
  match s.power.target with
  | none => s
  | some t =>
    if t = 0 then s.enterFull
    else if !s.runs.isEmpty then s
    else if s.powerState < 2 then
      let u := s.enterDark
      if t = 2 then u.endPower else u
    else if !s.flash.programs.isEmpty then s
    else s.enterGhost.endPower

/-- POWER_TRANSITION_DONE. -/
def execPowerTransitionDone (now : Nat) (s : State) : Host.Outcome State Fault Refusal := .next (s.tick now).powerDone

/-- DARK_ENTRY_TIMEOUT: runs have not ended within 100 ms. -/
def State.darkLate (s : State) : State :=
  if s.power.draining && !s.runs.isEmpty && !s.power.ghostLatched && decide (s.power.since + 100000000 ≤ s.now) then
    (s.setFld pwrStatusRefusal 4).endPower
  else s

/-- DARK_ENTRY_TIMEOUT. -/
def execDarkEntryTimeout (now : Nat) (s : State) : Host.Outcome State Fault Refusal := .next (s.tick now).darkLate

/-- DIM_IDLE_EXPIRY: nothing has had work for DIM_IDLE_US µs. -/
def State.dim (s : State) : State :=
  if s.flag pwrCtrlDimAuto && s.powerState == 0 && !s.flag pwrStatusBusy && s.idle && !s.inReset &&
      decide (s.power.busyUntil + 1000 * s.fld pwrCtrlDimIdleUs ≤ s.now) then s.setFld pwrStatusState 1
  else s

/-- DIM_IDLE_EXPIRY. -/
def execDimIdleExpiry (now : Nat) (s : State) : Host.Outcome State Fault Refusal := .next (s.tick now).dim

/- ## Power failure (R298, R473) -/

/-- Batches that have not started as power fails are deferred: their items end HOLDUP_LOW, and each counts (Table 10.5). -/
def State.deferBatches (s : State) : State :=
  let t := s.runs.foldl (fun (u : State) r =>
    let l := (r.items.filter fun x => !x.hasEnded && decide (x.stage < 2) && u.programsFlash r x.index).map fun x => x.index
    if r.waiting || l.isEmpty then u else u.deferBatch r.id l) s
  t.flash.inbound.foldl (fun (u : State) x => u.judgeInbound x) t

/-- PWR_FAIL: no run is admitted, unstarted items end CANCELLED, every feed stops, detached notices leave, cue emission
stops. No batch starts, those not started are deferred, and flash reads end CANCELLED as they are met. -/
def State.powerFail (s : State) : State :=
  if s.inReset then s
  else
    let t := ({ s with flash := { s.flash with failing := true } } : State).setFlag flashStatusPwrFail true
    (((t.deferBatches).cancelUnstarted).stopFeeds fun _ => true).sendDetached.stopEmitting

/-- PWR_FAIL. -/
def execPwrFail (s : State) : Host.Outcome State Fault Refusal := .next s.powerFail

/-- FLASH_QUIESCED: every started batch has committed. The device enters Ghost light, at once where nothing runs, else when
its started items have ended. -/
def State.quiesced (s : State) : State :=
  if !s.flash.failing || !s.flash.programs.isEmpty || !s.flash.trims.isEmpty || s.flag flashStatusQuiesced then s
  else
    let t := s.setFlag flashStatusQuiesced true
    let t : State := { t with power := { t.power with
      ghostLatched := true, target := some 3, heldRequest := none, draining := true, curtainDue := none } }
    if t.runs.isEmpty then
      (if t.powerState < 2 then t.enterDark else t).enterGhost.endPower
    else t.setFlag pwrStatusBusy true

/-- FLASH_QUIESCED. -/
def execFlashQuiesced (now : Nat) (s : State) : Host.Outcome State Fault Refusal := .next (s.tick now).quiesced

/-- PWR_FAIL_CLEAR: high for 10 ms without interruption. -/
def State.powerGood (s : State) : State :=
  if s.flash.failing then
    (({ s with flash := { s.flash with failing := false } } : State).setFlag flashStatusPwrFail false).setFlag
      flashStatusQuiesced false
  else s

/-- PWR_FAIL_CLEAR. -/
def execPwrFailClear (s : State) : Host.Outcome State Fault Refusal := .next s.powerGood

/- ## The hold-up sense input (R295, R499) -/

/-- A frame is good: its CRC and stop bit hold, and its count is one above the last frame's, which is not asked of a frame
before the first good one. -/
def State.frameGood (s : State) (bits : Nat) (stop : Bool) : Bool :=
  stop && field bits 24 8 == crc8 (leBytes 3 (bits % 2 ^ 24)) &&
    (match s.flash.senseSeq with
     | none => true
     | some q => field bits 16 8 == (q + 1) % 256)

/-- HOLDUP_FRAME. The last frame's count is the one it carries, good or not, once a good frame has come (log entry 51). -/
def State.holdupFrame (s : State) (bits : Nat) (stop : Bool) : State :=
  if s.inReset then s
  else if s.frameGood bits stop then
    (({ s with flash := { s.flash with senseSeq := some (field bits 16 8), senseAt := some s.now } } : State).setFld
      holdupStatusVMv (field bits 0 16)).setFlag holdupStatusStale false
  else
    ({ s with flash := { s.flash with senseSeq := s.flash.senseSeq.map fun _ => field bits 16 8 } } : State).setFlag
      holdupStatusStale true

/-- HOLDUP_FRAME. -/
def execHoldupFrame (bits : BitVec 32) (stop : Bool) (now : Nat) (s : State) : Host.Outcome State Fault Refusal :=
  .next ((s.tick now).holdupFrame bits.toNat stop)

/-- HOLDUP_STALE: no good reading, or one older than 100 µs. -/
def State.holdupStale (s : State) : State :=
  match s.flash.senseAt with
  | none => s.setFlag holdupStatusStale true
  | some t => if t + 100000 < s.now then s.setFlag holdupStatusStale true else s

/-- HOLDUP_STALE. -/
def execHoldupStale (now : Nat) (s : State) : Host.Outcome State Fault Refusal := .next (s.tick now).holdupStale

end Sys2Proof.Machine
end

