-- ==== Sys2Proof/Machine/Sec.lean ====
section
/-! DEFINITION. Security (R450 to R465): the mailbox commands, tokens, debug levels, lifecycle transitions and firmware
updates. -/
namespace Sys2Proof.Machine

/- ## Keys (R450, R451) -/

/-- A key of Table 16.1: HKDF-SHA-384 of the device secret, with a salt and the label as info. -/
def State.derived (s : State) (salt : List Byte) (label : List Nat) (len : Nat) : List Byte :=
  Config.hkdf (Config.deviceSecret s.book.helper) salt (label.map (BitVec.ofNat 8)) len

/-- Labels "IDENTITY", "ALIAS", "STORE" and "MEDIA". -/
def State.identityKey (s : State) : List Byte := s.derived [] [73, 68, 69, 78, 84, 73, 84, 89] 48
def State.aliasKey (s : State) : List Byte :=
  s.derived (Config.sha384 (Config.romDigest ++ s.sec.fwDigest ++ leBytes 4 s.sec.fwSvn)) [65, 76, 73, 65, 83] 48
def State.storageKey (s : State) : List Byte := s.derived [] [83, 84, 79, 82, 69] 32

/-- The media key: without an owner seed, that of a zero seed (Table 16.4). -/
def State.mediaKey (s : State) : List Byte :=
  s.derived (if s.book.ownerSeed.isEmpty then List.replicate 32 0 else s.book.ownerSeed) [77, 69, 68, 73, 65] 64

/- ## Commands and their results (R459) -/

/-- Input of a command: `SEC_MBOX` for the mailbox, else the bytes it carries. -/
def State.secInput (s : State) (p : SecPath) (n : Nat) : List Byte :=
  match p with
  | .mailbox => cellRead 0 s.regs.mbox 0 n
  | .mctp b => b
  | .jtag b => b

/-- A command's result and output by its path; `SEC_STATUS.RESULT` shows every last result. A command is performed at once,
so BUSY is never seen (log entry 53). -/
def State.secResult (s : State) (p : SecPath) (result : Nat) (out : List Byte) : State :=
  let t := s.setFld secStatusResult result
  match p with
  | .mailbox => { t with regs := { t.regs with mbox := cellWrite 0 t.regs.mbox 0 out } }
  | .mctp _ => t.emit (.mailbox result out)
  | .jtag _ => t.emit (.mailbox result out)

/-- The debug port takes tokens only (R459). -/
def isJtag (p : SecPath) : Bool :=
  match p with
  | .jtag _ => true
  | _ => false

/-- Fresh random bytes (R450, R460). -/
def State.randomBytes (s : State) (n : Nat) : List Byte := (List.range n).map fun i => BitVec.ofNat 8 (Config.random (s.freeCtr + i))

/-- The challenge (Table 16.7). -/
def State.challenge (s : State) (nonce : List Byte) : List Byte :=
  leBytes 8 s.serial ++ leBytes 4 (s.counter 3) ++ leBytes 1 s.lifecycle ++ leBytes 1 (s.fld lcStatusDebug) ++ leBytes 2 0 ++
    nonce ++ leBytes 16 0

/-- GET_CHALLENGE: a fresh nonce replaces any earlier one. -/
def State.getChallenge (s : State) (p : SecPath) : State :=
  if s.inReset || isJtag p then s
  else
    let nonce := s.randomBytes 32
    let t : State := { s with freeCtr := s.freeCtr + 32, sec := { s.sec with nonce := some (nonce, s.rel.poweredS) } }
    t.secResult p 0 (t.challenge nonce)

/-- GET_CHALLENGE. -/
def execGetChallenge (path : SecPath) (now : Nat) (s : State) : Host.Outcome State Fault Refusal :=
  .next ((s.tick now).getChallenge path)

/-- NONCE_EXPIRY: 600 s of powered time. -/
def State.expireNonce (s : State) : State :=
  match s.sec.nonce with
  | some (_, t) => if t + 600 ≤ s.rel.poweredS then { s with sec := { s.sec with nonce := none } } else s
  | none => s

/-- NONCE_EXPIRY. -/
def execNonceExpiry (now : Nat) (s : State) : Host.Outcome State Fault Refusal := .next (s.tick now).expireNonce

/- ## Debug levels (R463, R464) -/

/-- The level back to none: the register scan resumes and the seal stays. -/
def State.debugNone (s : State) : State :=
  ({ s with sec := { s.sec with debugUntil := none, debugSigner := 0 } } : State).setFld lcStatusDebug 0

/-- DEBUG_LOCK. -/
def State.debugLock (s : State) (p : SecPath) : State := if s.inReset || isJtag p then s else s.debugNone.secResult p 0 []

/-- DEBUG_LOCK. -/
def execDebugLock (path : SecPath) (s : State) : Host.Outcome State Fault Refusal := .next (s.debugLock path)

/-- DEBUG_EXPIRY: VALID_S has passed. -/
def State.expireDebug (s : State) : State :=
  match s.sec.debugUntil with
  | some t => if t ≤ s.rel.poweredS then s.debugNone else s
  | none => s

/-- DEBUG_EXPIRY. -/
def execDebugExpiry (now : Nat) (s : State) : Host.Outcome State Fault Refusal := .next (s.tick now).expireDebug

/-- `LC_STATUS.IDE_UP`: the streams that the link needs are up. -/
def State.showIde (s : State) : State := s.setFlag lcStatusIdeUp s.ideUp

/-- Every SPDM session ends and every IDE key is discarded (R464). -/
def State.endSessions (s : State) : State :=
  ({ s with sec := { s.sec with sessions := [] }, host := { s.host with ide := [] } } : State).showIde

/-- The later of two expiries: none is until reset. -/
def laterExpiry (a b : Option Nat) : Option Nat :=
  match a, b with
  | some x, some y => some (max x y)
  | _, _ => none

/-- A level granted by a signer until a time (R463, R464). Invasive ends the sessions, and in Provisioned wipes volatile
memory before it takes effect. -/
def State.grantDebug (s : State) (level signer : Nat) (expiry : Option Nat) : State :=
  if level ≤ s.fld lcStatusDebug then
    { s with sec := { s.sec with debugUntil := laterExpiry s.sec.debugUntil expiry } }
  else
    let t := if level = 2 then (let u := s.endSessions; if u.lifecycle = 1 then u.wipeMemory else u) else s
    ({ t with sec := { t.sec with debugUntil := expiry, debugSigner := signer } } : State).setFld lcStatusDebug level

/- ## Tokens (R461, R462) -/

def tokCommand (k : List Byte) : Nat := leAt k 2 1
def tokSigner (k : List Byte) : Nat := leAt k 3 1
def tokValid (k : List Byte) : Nat := leAt k 48 4
def tokNewKey (k : List Byte) : List Byte := (k.drop 160).take 96

/-- A token keeps Table 16.8 and carries the command it is submitted as. -/
def tokenOk (k : List Byte) (cmd : Nat) : Bool :=
  decide (352 ≤ k.length) && leAt k 0 2 == 1 && tokCommand k == cmd && ([1, 2, 0x10, 0x11, 0x12, 0x13, 0x14, 0x15] : List Nat).contains cmd && (tokSigner k == 1 || tokSigner k == 2) &&
    zeroAt k 52 12 && (decide (cmd ≤ 2) || tokValid k == 0) && (cmd == 0x10 || zeroAt k 160 96)

/-- State and owner key that a lifecycle token leads to, if Table 16.5 has a row for it. -/
def State.transitionOf (s : State) (cmd signer : Nat) (newKey : List Byte) : Option (Nat × List Byte) :=
  let lc := s.lifecycle
  if cmd = 0x10 ∧ lc = 1 ∧ signer = 1 then some (2, newKey)
  else if cmd = 0x11 ∧ lc = 2 ∧ signer = 2 then some (3, s.book.ownerKey)
  else if cmd = 0x12 ∧ lc = 3 ∧ signer = 2 then some (2, s.book.ownerKey)
  else if cmd = 0x15 ∧ lc = 3 ∧ signer = 2 then some (3, s.book.ownerKey)
  else if cmd = 0x13 ∧ (lc = 2 ∨ lc = 3) ∧ signer = 2 then some (1, [])
  else if cmd = 0x14 ∧ ((lc = 1 ∧ signer = 1) ∨ ((lc = 2 ∨ lc = 3) ∧ signer = 2)) then some (4, [])
  else none

/-- A debug level's cell of Table 16.9 for a signer, where a token grants it. -/
def State.debugAllowed (s : State) (level signer : Nat) : Bool :=
  match s.lifecycle with
  | 1 => signer == 1
  | 2 => level == 1 && signer == 2
  | 3 => signer == 2
  | 4 => signer == 1
  | _ => false

/-- The command, signer and present state are permitted. While a transition runs none is (log entry 53). -/
def State.tokenPermitted (s : State) (k : List Byte) : Bool :=
  if tokCommand k ≤ 2 then s.debugAllowed (tokCommand k) (tokSigner k)
  else s.sec.transition.isNone && (s.transitionOf (tokCommand k) (tokSigner k) (tokNewKey k)).isSome

/-- The unconsumed nonce, unless it has expired. -/
def State.liveNonce (s : State) : Option (List Byte) :=
  match s.sec.nonce with
  | some (n, t) => if s.rel.poweredS ≤ t + 600 then some n else none
  | none => none

/-- Result of a token: 0 where every condition of R462 holds, taken in its order after the layout (log entry 53). -/
def State.tokenResult (s : State) (k : List Byte) (cmd : Nat) : Nat :=
  let key := (k.drop 64).take 96
  if !tokenOk k cmd then 6
  else if !s.signerKey (tokSigner k) key then 1
  else if !Config.ecdsaOk key (Config.sha384 (k.take 256)) ((k.drop 256).take 96) then 1
  else if !(leAt k 4 8 == s.serial && leAt k 12 4 == s.counter 3) then 2
  else if s.liveNonce ≠ some ((k.drop 16).take 32) then 3
  else if !s.tokenPermitted k then 4
  else 0

/-- Steps 1 to 3 of R458: no run is admitted, unstarted items end CANCELLED, feeds stop, detached notices leave, cue emission
stops. -/
def State.beginTransition (s : State) (cmd next : Nat) (key : List Byte) : State :=
  let t : State := { s with sec := { s.sec with transition := some (cmd, next, key) } }
  ((t.cancelUnstarted).stopFeeds fun _ => true).sendDetached.stopEmitting

/-- Expiry that a debug token gives: VALID_S seconds of powered time, 0 until reset. -/
def State.tokenExpiry (s : State) (k : List Byte) : Option Nat := if tokValid k = 0 then none else some (s.rel.poweredS + tokValid k)

/-- What an accepted token does. -/
def State.applyToken (s : State) (k : List Byte) : State :=
  if tokCommand k ≤ 2 then s.grantDebug (tokCommand k) (tokSigner k) (s.tokenExpiry k)
  else
    match s.transitionOf (tokCommand k) (tokSigner k) (tokNewKey k) with
    | some (n, key) => s.beginTransition (tokCommand k) n key
    | none => s

/-- SUBMIT_TOKEN with a token of one command: the nonce is consumed whatever comes of it. In Blank a debug level needs no
token (Table 16.9; log entry 53). -/
def State.submitToken (s : State) (p : SecPath) (cmd : Nat) : State :=
  if s.inReset then s
  else
    let k := s.secInput p 352
    let t : State := { s with sec := { s.sec with nonce := none } }
    if s.lifecycle = 0 ∧ cmd ≤ 2 then (t.grantDebug cmd 0 none).secResult p 0 []
    else if s.tokenResult k cmd = 0 then (t.applyToken k).secResult p 0 []
    else t.secResult p (s.tokenResult k cmd) []

/-- DEBUG_TRACE. -/
def execDebugTrace (path : SecPath) (now : Nat) (s : State) : Host.Outcome State Fault Refusal :=
  .next ((s.tick now).submitToken path 0x01)

/-- DEBUG_INVASIVE. -/
def execDebugInvasive (path : SecPath) (now : Nat) (s : State) : Host.Outcome State Fault Refusal :=
  .next ((s.tick now).submitToken path 0x02)

/-- ENROLL_OWNER. -/
def execEnrollOwner (path : SecPath) (now : Nat) (s : State) : Host.Outcome State Fault Refusal :=
  .next ((s.tick now).submitToken path 0x10)

/-- ENTER_SERVICE. -/
def execEnterService (path : SecPath) (now : Nat) (s : State) : Host.Outcome State Fault Refusal :=
  .next ((s.tick now).submitToken path 0x11)

/-- RETURN. -/
def execReturnToken (path : SecPath) (now : Nat) (s : State) : Host.Outcome State Fault Refusal :=
  .next ((s.tick now).submitToken path 0x12)

/-- OWNER_RELEASE. -/
def execOwnerRelease (path : SecPath) (now : Nat) (s : State) : Host.Outcome State Fault Refusal :=
  .next ((s.tick now).submitToken path 0x13)

/-- RETIRE. -/
def execRetireToken (path : SecPath) (now : Nat) (s : State) : Host.Outcome State Fault Refusal :=
  .next ((s.tick now).submitToken path 0x14)

/-- CLEAR_CURTAIN. -/
def execClearCurtain (path : SecPath) (now : Nat) (s : State) : Host.Outcome State Fault Refusal :=
  .next ((s.tick now).submitToken path 0x15)

/- ## The end of a transition (R454, R457, R458) -/

/-- The owner seed gone (R457). -/
def State.dropSeed (s : State) : State := { s with book := { s.book with ownerSeed := [] } }

/-- Tiles written under another media key than the present one: what they read as is a free value (log entry 54). -/
def State.rekeyFlash (s : State) (old : List Byte) : State :=
  { s with
    freeCtr := s.freeCtr + 1
    flash := { s.flash with cells := (s.flash.owners.map Prod.fst).foldl (fun l t =>
      cellWrite 0 l (65536 * t) ((List.range 65536).map fun i => BitVec.ofNat 8 (Config.rekeyed old s.mediaKey s.freeCtr (65536 * t + i)))) [] } }

/-- The owner's records after a transition: key, seed, region 0x06, and counter 2 at enrolment and owner release. -/
def State.setOwner (s : State) (cmd : Nat) (key : List Byte) : State :=
  let t : State := { s with book := { s.book with ownerKey := key } }
  if cmd = 0x10 then
    let seed := t.randomBytes 32
    let u := (t.raiseCounter 2 (t.counter 2 + 1)).pbUpdate 6 (Config.enrolment key t.storageKey seed t.freeCtr)
    { u with freeCtr := u.freeCtr + 32, book := { u.book with ownerSeed := seed }, sec := { u.sec with reformatDue := true } }
  else if (cmd = 0x13 || cmd = 0x14) && !s.book.ownerSeed.isEmpty then
    let u := (if cmd = 0x13 then t.raiseCounter 2 (t.counter 2 + 1) else t).pbUpdate 6 []
    u.dropSeed.rekeyFlash u.mediaKey
  else if cmd = 0x13 then t.raiseCounter 2 (t.counter 2 + 1)
  else t

/-- LIFECYCLE_RESET: once every started item has ended, the record is written, counter 3 raised, and the device resets. -/
def State.lifecycleReset (s : State) : State :=
  match s.sec.transition with
  | none => s
  | some (cmd, next, key) =>
    if s.runs.any (fun r => r.items.any Item.isRunning) || s.flash.failing || !s.rel.smUp then s
    else
      let t := (s.setOwner cmd key).raiseCounter 3 (s.counter 3 + 1)
      let t : State := { t with
        book := { t.book with lifecycle := next, curtain := if cmd = 0x15 then 0 else t.book.curtain }
        rel := { t.rel with escalations := if cmd = 0x15 then [] else t.rel.escalations }
        sec := { t.sec with wipeDue := t.sec.wipeDue || cmd != 0x15 } }
      t.afterReset 5

/-- LIFECYCLE_RESET. -/
def execLifecycleReset (now : Nat) (s : State) : Host.Outcome State Fault Refusal := .next (s.tick now).lifecycleReset

/- ## Firmware update (R455) -/

/-- FW_UPDATE: the image is read from this member's memory, checked and written into the copy that is not current. It waits
while the stage manager is down, and is not permitted while `PWR_FAIL_N` is low (log entry 53). -/
def State.fwUpdate (s : State) (p : SecPath) : State :=
  if s.inReset || isJtag p then s
  else if !s.rel.smUp then s.smLater (.firmware p)
  else
    let i := s.secInput p 12
    let a := leAt i 0 8
    let n := leAt i 8 4
    if !s.ownMem a n || decide (8388608 < n) || s.hostShut (addrKey a) || s.devBad (addrKey a) n then s.secResult p 6 []
    else
      let img := s.devRead (addrKey a) n
      let r := s.imageResult img 1
      if r ≠ 0 then s.secResult p r []
      else if s.flash.failing then s.secResult p 4 []
      else (s.pbUpdate 1 img).secResult p 0 []

/-- FW_UPDATE. -/
def execFwUpdate (path : SecPath) (s : State) : Host.Outcome State Fault Refusal := .next (s.fwUpdate path)

/-- A `SEC_CMD` write with GO set: the mailbox command of its OP (Table 16.6). A reserved OP starts nothing (log entry
53). -/
def State.secCommand (s : State) (op : Nat) : State :=
  if s.flag secStatusBusy then s
  else if op = 1 then s.getChallenge .mailbox
  else if op = 2 then s.submitToken .mailbox (tokCommand (s.secInput .mailbox 352))
  else if op = 3 then s.debugLock .mailbox
  else if op = 4 then s.fwUpdate .mailbox
  else s

/- ## The stage manager's return (R25, R433) -/

/-- A repair that a coppice left undone is planned anew. -/
def State.replan (s : State) : State :=
  s.rel.repairDue.foldl (fun (u : State) x =>
    match x.part with
    | some p => u.planCoppice p
    | none => u) s

/-- One piece of work that waited. -/
def State.smTask (s : State) (x : SmTask) : State :=
  match x with
  | .coppice p c => s.startCoppice p c
  | .seal => s.writeSeal 0x5EA15EA1
  | .reset c => if s.inReset then s else s.afterReset c
  | .engine e => s.resetEngine e
  | .firmware p => s.fwUpdate p
  | .curtain c => s.noteCurtain c

/-- STAGE_MANAGER_RESTARTED: what waited goes on, in order; a device reset among it drops the rest. -/
def State.smBack (s : State) : State :=
  if s.rel.smUp then s
  else
    let t : State := { s with rel := { s.rel with smUp := true, smWaiting := [] } }
    let t := s.rel.smWaiting.foldl (fun (u : State) x => if u.inReset then u else u.smTask x) t.replan
    t.flash.inbound.foldl (fun (u : State) x => u.judgeInbound x) t

/-- STAGE_MANAGER_RESTARTED. -/
def execStageManagerRestarted (now : Nat) (s : State) : Host.Outcome State Fault Refusal := .next (s.tick now).smBack

end Sys2Proof.Machine
end

