-- ==== Sys2Proof/Machine/Spdm.lean ====
section
/-! DEFINITION. Attestation and IDE (R466 to R468): the SPDM 1.2 responder over DOE and MCTP, its measurements, sessions and
chunks, and the IDE streams of the host port. PRESUMED (log entry 52): codes, header use and message layouts are those of
DMTF DSP0274 1.2, which R466 names; what this manual does not state of a body is a free value. -/
namespace Sys2Proof.Machine

/- ## Codes of DSP0274 -/

def spErrInvalid : Nat := 0x01
def spErrUnexpected : Nat := 0x04
def spErrUnsupported : Nat := 0x07
def spErrSessions : Nat := 0x0A
def spErrSession : Nat := 0x0B
def spErrLarge : Nat := 0x0F
def spErrVersion : Nat := 0x41

/-- An answer: response code and body. -/
abbrev SpAnswer := Nat × List Byte

/-- An ERROR response with a code. -/
def spError (code : Nat) : SpAnswer := (0x7F, leBytes 1 code ++ leBytes 1 0)

/-- The parts of a body that the manual does not state. -/
def State.spRest (s : State) : List Byte := Config.spdmRest s.freeCtr

/- ## Certificates and measurements (R466, R467) -/

/-- The chain of slot 0. -/
def State.certChain (s : State) : List Byte := Config.certChain s.book.certificate s.identityKey s.aliasKey

/-- Content of measurement `i` (Table 16.11), taken now. -/
def State.measurement (s : State) (i : Nat) : List Byte :=
  match i with
  | 1 => Config.romDigest
  | 2 => s.sec.fwDigest ++ leBytes 4 s.sec.fwSvn ++ leBytes 1 (if s.sec.fwCopyB then 1 else 0)
  | 3 => s.sec.cfgDigest ++ leBytes 4 s.sec.cfgSvn
  | 4 => if s.book.ownerKey.isEmpty then List.replicate 48 0 else Config.sha384 s.book.ownerKey
  | 5 => leBytes 1 s.lifecycle ++ leBytes 1 (s.fld lcStatusDebug) ++ leBytes 1 s.sec.debugSigner ++ leBytes 1 s.powerState ++
      leBytes 1 (if s.ideRequired then 1 else 0) ++ leBytes 1 (if s.ideUp then 1 else 0) ++
      leBytes 1 (s.fld healthStatusCurtainCause) ++ leBytes 1 0
  | 6 => leBytes 4 (s.live rHealthStatus) ++ leBytes 4 (s.reg rHedgeStatus) ++ leBytes 8 s.rel.poweredS
  | 7 => leBytes 4 (s.counter 0) ++ leBytes 4 (s.counter 1) ++ leBytes 4 (s.counter 2) ++ leBytes 4 (s.counter 3)
  | _ => []

/-- A measurement block in the DMTF format, a raw bit stream. -/
def State.measurementBlock (s : State) (i : Nat) : List Byte :=
  let v := s.measurement i
  leBytes 1 i ++ leBytes 1 1 ++ leBytes 2 (v.length + 3) ++ leBytes 1 (128 + min (i - 1) 3) ++ leBytes 2 v.length ++ v

/-- Number and bytes of the blocks that an index asks for: 0 the count alone, 0xFF all. -/
def State.measurementRecord (s : State) (idx : Nat) : Nat × List Byte :=
  if idx = 0 then (0, [])
  else if idx = 0xFF then (7, [1, 2, 3, 4, 5, 6, 7].flatMap s.measurementBlock)
  else (1, s.measurementBlock idx)

/- ## Connection and sessions -/

/-- The connection of a transport has negotiated its algorithms. -/
def State.spReady (s : State) (t : SpdmTransport) : Bool := s.sec.algoDone.contains t

/-- A session by its identifier, on the transport the request came by. -/
def State.session (s : State) (r : SpdmReq) : Option Session :=
  match r.session with
  | none => none
  | some n => s.sec.sessions.find? fun x => x.id == n && x.transport == r.transport

def State.setSession (s : State) (x : Session) : State :=
  { s with sec := { s.sec with sessions := s.sec.sessions.map fun y => if y.id = x.id then x else y } }

/-- IDE streams lost: the register shows it, and a stream lost in Deployed after the seal is a link-down (R468; log
entry 55). -/
def State.loseIde (s : State) (l : List IdeStream) : State :=
  let had := s.ideUp
  let t := ({ s with host := { s.host with ide := s.host.ide.filter fun x => !l.contains x } } : State).showIde
  if had && !t.ideUp && t.ideRequired && t.isSealed then t.linkDown else t

/-- A session ended with the IDE keys programmed over it (Table 16.1). -/
def State.endSession (s : State) (x : Session) : State :=
  ({ s with sec := { s.sec with sessions := s.sec.sessions.filter fun y => y.id != x.id } } : State).loseIde x.ide

/- ## The requests (Table 16.10) -/

/-- GET_VERSION: the connection begins again; the one supported version is 1.2. -/
def State.spVersion (s : State) (r : SpdmReq) : State × SpAnswer :=
  ({ s with sec := { s.sec with
      versionDone := addVal r.transport s.sec.versionDone
      capsDone := s.sec.capsDone.filter fun x => x.1 != r.transport
      algoDone := dropVal r.transport s.sec.algoDone } },
   (0x04, leBytes 1 0 ++ leBytes 1 1 ++ leBytes 2 0x1200))

/-- GET_CAPABILITIES: certificate, challenge, signed measurement, encryption, MAC, key exchange, heartbeat, key update and
chunks. -/
def State.spCapabilities (s : State) (r : SpdmReq) : State × SpAnswer :=
  if !s.sec.versionDone.contains r.transport then (s, spError spErrUnexpected)
  else
    let flags := 2 ^ 1 + 2 ^ 2 + 2 ^ 4 + 2 ^ 6 + 2 ^ 7 + 2 ^ 9 + 2 ^ 13 + 2 ^ 14 + 2 ^ 17
    ({ s with sec := { s.sec with capsDone :=
        (r.transport, leAt r.body 8 4) :: s.sec.capsDone.filter fun x => x.1 != r.transport } },
     (0x61, leBytes 4 0 ++ leBytes 4 flags ++ s.spRest))

/-- NEGOTIATE_ALGORITHMS. -/
def State.spAlgorithms (s : State) (r : SpdmReq) : State × SpAnswer :=
  if !s.sec.capsDone.any (fun x => x.1 == r.transport) then (s, spError spErrUnexpected)
  else ({ s with sec := { s.sec with algoDone := addVal r.transport s.sec.algoDone } }, (0x63, s.spRest))

/-- GET_DIGESTS: slot 0 alone; in Blank no slot. -/
def State.spDigests (s : State) (r : SpdmReq) : State × SpAnswer :=
  if !s.spReady r.transport then (s, spError spErrUnexpected)
  else if s.lifecycle = 0 then (s, (0x01, []))
  else (s, (0x01, Config.sha384 s.certChain))

/-- GET_CERTIFICATE: a portion of the chain of slot 0. -/
def State.spCertificate (s : State) (r : SpdmReq) : State × SpAnswer :=
  let c := s.certChain
  let off := leAt r.body 0 2
  let n := min (leAt r.body 2 2) (c.length - off)
  if !s.spReady r.transport then (s, spError spErrUnexpected)
  else if s.lifecycle = 0 || r.param1 % 16 ≠ 0 || decide (c.length < off) then (s, spError spErrInvalid)
  else (s, (0x02, leBytes 2 n ++ leBytes 2 (c.length - off - n) ++ (c.drop off).take n))

/-- CHALLENGE. -/
def State.spChallenge (s : State) (r : SpdmReq) : State × SpAnswer :=
  if !s.spReady r.transport then (s, spError spErrUnexpected)
  else if s.lifecycle = 0 then (s, spError spErrUnsupported)
  else if r.param1 % 16 ≠ 0 then (s, spError spErrInvalid)
  else (s, (0x03, Config.sha384 s.certChain ++ s.spRest))

/-- GET_MEASUREMENTS, taken now. Blank returns them unsigned only. -/
def State.spMeasurements (s : State) (r : SpdmReq) : State × SpAnswer :=
  if !s.spReady r.transport then (s, spError spErrUnexpected)
  else if s.lifecycle = 0 && bit r.param1 0 then (s, spError spErrUnsupported)
  else if 7 < r.param2 ∧ r.param2 ≠ 0xFF then (s, spError spErrInvalid)
  else
    let m := s.measurementRecord r.param2
    (s, (0x60, leBytes 1 m.1 ++ leBytes 3 m.2.length ++ m.2 ++ s.spRest))

/-- KEY_EXCHANGE: up to four sessions at once. -/
def State.spKeyExchange (s : State) (r : SpdmReq) : State × SpAnswer :=
  if !s.spReady r.transport then (s, spError spErrUnexpected)
  else if s.lifecycle = 0 then (s, spError spErrUnsupported)
  else if 4 ≤ s.sec.sessions.length then (s, spError spErrSessions)
  else if r.param2 ≠ 0 then (s, spError spErrInvalid)
  else
    let n := s.sec.nextSession
    ({ s with sec := { s.sec with
        nextSession := n + 1
        sessions := s.sec.sessions ++ [{ id := n, transport := r.transport, established := false, key := 0, ide := [] }] } },
     (0x64, leBytes 2 n ++ s.spRest))

/-- FINISH. -/
def State.spFinish (s : State) (r : SpdmReq) : State × SpAnswer :=
  match s.session r with
  | none => (s, spError spErrSession)
  | some x =>
    if x.established then (s, spError spErrUnexpected)
    else (s.setSession { x with established := true }, (0x65, s.spRest))

/-- A request that needs an established session. -/
def State.inSession (s : State) (r : SpdmReq) (f : Session → State × SpAnswer) : State × SpAnswer :=
  match s.session r with
  | none => (s, spError spErrSession)
  | some x => if x.established then f x else (s, spError spErrUnexpected)

/-- HEARTBEAT. -/
def State.spHeartbeat (s : State) (r : SpdmReq) : State × SpAnswer := s.inSession r fun _ => (s, (0x68, []))

/-- KEY_UPDATE: one direction, both, or the new key verified. -/
def State.spKeyUpdate (s : State) (r : SpdmReq) : State × SpAnswer :=
  s.inSession r fun x =>
    if r.param1 = 1 ∨ r.param1 = 2 then (s.setSession { x with key := x.key + 1 }, (0x69, []))
    else if r.param1 = 3 then (s, (0x69, []))
    else (s, spError spErrInvalid)

/-- END_SESSION. -/
def State.spEnd (s : State) (r : SpdmReq) : State × SpAnswer := s.inSession r fun x => (s.endSession x, (0x6C, []))

/-- The streams that the link has (R468). -/
def State.linkStreams (s : State) : List IdeStream := if s.host.cxl then [.io, .mem] else [.link]

/-- VENDOR_DEFINED_REQUEST that programs the keys of a stream, over a session held through DOE (R468). -/
def State.spIde (s : State) (r : SpdmReq) (stream : IdeStream) : State × SpAnswer :=
  s.inSession r fun x =>
    if r.transport = .doe ∧ s.host.up ∧ s.linkStreams.contains stream then
      ((({ s with host := { s.host with ide := addVal stream s.host.ide } } : State).setSession
          { x with ide := addVal stream x.ide }).showIde, (0x7E, s.spRest))
    else (s, spError spErrInvalid)

/-- Any request that stands alone, by its code. Requests that Table 16.10 does not support are answered so. -/
def State.spdmDo (s : State) (code : Nat) (r : SpdmReq) : State × SpAnswer :=
  if code = 0x84 then s.spVersion r
  else if r.version ≠ 0x12 then (s, spError spErrVersion)
  else if code = 0xE1 then s.spCapabilities r
  else if code = 0xE3 then s.spAlgorithms r
  else if code = 0x81 then s.spDigests r
  else if code = 0x82 then s.spCertificate r
  else if code = 0x83 then s.spChallenge r
  else if code = 0xE0 then s.spMeasurements r
  else if code = 0xE4 then s.spKeyExchange r
  else if code = 0xE5 then s.spFinish r
  else if code = 0xE8 then s.spHeartbeat r
  else if code = 0xE9 then s.spKeyUpdate r
  else if code = 0xEC then s.spEnd r
  else (s, spError spErrUnsupported)

/- ## Sending and chunks -/

/-- The transport carries requests: MCTP whenever the part runs, DOE while the host port is up (Table 16.14). -/
def State.spReaches (s : State) (t : SpdmTransport) : Bool :=
  !s.inReset && (t == .mctp || (s.host.released && s.host.up))

/-- The largest message that the requester takes, 0 for no limit stated. -/
def State.spLimit (s : State) (t : SpdmTransport) : Nat :=
  match s.sec.capsDone.find? fun x => x.1 == t with
  | some x => x.2
  | none => 0

/-- An answer sent; one too large for the requester waits for CHUNK_GET. -/
def State.spSend (s : State) (t : SpdmTransport) (a : SpAnswer) : State :=
  let s := s.draw
  if s.spLimit t ≠ 0 ∧ s.spLimit t < a.2.length + 4 then
    ({ s with sec := { s.sec with chunkOut := leBytes 1 a.1 ++ a.2 } } : State).emit (.spdm t 0x7F (leBytes 1 spErrLarge ++ leBytes 1 0))
  else s.emit (.spdm t a.1 a.2)

/-- A request handled whole. -/
def State.spdm (s : State) (code : Nat) (r : SpdmReq) : State :=
  if !s.spReaches r.transport then s
  else
    let x := s.spdmDo code r
    x.1.spSend r.transport x.2

/-- CHUNK_SEND: a chunk is kept; with the last one the request it completes is handled, and its answer rides in the
acknowledgement. -/
def State.chunkSend (s : State) (r : SpdmReq) : State :=
  if !s.spReaches r.transport then s
  else
    let first := leAt r.body 0 2 == 0
    let n := leAt r.body 4 4
    let data := (r.body.drop (if first then 12 else 8)).take n
    let all := if first then data else s.sec.chunkIn ++ data
    let ack := leBytes 1 0 ++ leBytes 1 r.param2 ++ leBytes 2 (leAt r.body 0 2)
    if r.version ≠ 0x12 then s.spSend r.transport (spError spErrVersion)
    else if bit r.param1 0 then
      let q : SpdmReq := { r with version := leAt all 0 1, param1 := leAt all 2 1, param2 := leAt all 3 1, body := all.drop 4 }
      let x := ({ s with sec := { s.sec with chunkIn := [] } } : State).spdmDo (leAt all 1 1) q
      x.1.spSend r.transport (0x05, ack ++ leBytes 1 0x12 ++ leBytes 1 x.2.1 ++ x.2.2)
    else ({ s with sec := { s.sec with chunkIn := all } } : State).spSend r.transport (0x05, ack)

/-- CHUNK_GET: the next part of a response that was too large. -/
def State.chunkGet (s : State) (r : SpdmReq) : State :=
  if !s.spReaches r.transport then s
  else if r.version ≠ 0x12 then s.spSend r.transport (spError spErrVersion)
  else if s.sec.chunkOut.isEmpty then s.spSend r.transport (spError spErrUnexpected)
  else
    let n := s.spLimit r.transport - 16
    let part := if n = 0 then s.sec.chunkOut else s.sec.chunkOut.take n
    let rest := if n = 0 then [] else s.sec.chunkOut.drop n
    ({ s with sec := { s.sec with chunkOut := rest } } : State).spSend r.transport
      (0x06, leBytes 1 (if rest.isEmpty then 1 else 0) ++ leBytes 1 r.param2 ++ leBytes 2 (leAt r.body 0 2) ++ leBytes 2 0 ++
        leBytes 4 part.length ++ part)

/-- GET_VERSION. -/
def execGetVersion (spdm : SpdmReq) (s : State) : Host.Outcome State Fault Refusal := .next (s.spdm 0x84 spdm)

/-- GET_CAPABILITIES. -/
def execGetCapabilities (spdm : SpdmReq) (s : State) : Host.Outcome State Fault Refusal := .next (s.spdm 0xE1 spdm)

/-- NEGOTIATE_ALGORITHMS. -/
def execNegotiateAlgorithms (spdm : SpdmReq) (s : State) : Host.Outcome State Fault Refusal := .next (s.spdm 0xE3 spdm)

/-- GET_DIGESTS. -/
def execGetDigests (spdm : SpdmReq) (s : State) : Host.Outcome State Fault Refusal := .next (s.spdm 0x81 spdm)

/-- GET_CERTIFICATE. -/
def execGetCertificate (spdm : SpdmReq) (s : State) : Host.Outcome State Fault Refusal := .next (s.spdm 0x82 spdm)

/-- CHALLENGE. -/
def execSpdmChallenge (spdm : SpdmReq) (s : State) : Host.Outcome State Fault Refusal := .next (s.spdm 0x83 spdm)

/-- GET_MEASUREMENTS. -/
def execGetMeasurements (spdm : SpdmReq) (s : State) : Host.Outcome State Fault Refusal := .next (s.spdm 0xE0 spdm)

/-- KEY_EXCHANGE. -/
def execKeyExchange (spdm : SpdmReq) (s : State) : Host.Outcome State Fault Refusal := .next (s.spdm 0xE4 spdm)

/-- FINISH. -/
def execFinishSession (spdm : SpdmReq) (s : State) : Host.Outcome State Fault Refusal := .next (s.spdm 0xE5 spdm)

/-- HEARTBEAT. -/
def execHeartbeatRequest (spdm : SpdmReq) (s : State) : Host.Outcome State Fault Refusal := .next (s.spdm 0xE8 spdm)

/-- KEY_UPDATE. -/
def execKeyUpdate (spdm : SpdmReq) (s : State) : Host.Outcome State Fault Refusal := .next (s.spdm 0xE9 spdm)

/-- END_SESSION. -/
def execEndSession (spdm : SpdmReq) (s : State) : Host.Outcome State Fault Refusal := .next (s.spdm 0xEC spdm)

/-- CHUNK_SEND. -/
def execChunkSend (spdm : SpdmReq) (s : State) : Host.Outcome State Fault Refusal := .next (s.chunkSend spdm)

/-- CHUNK_GET. -/
def execChunkGet (spdm : SpdmReq) (s : State) : Host.Outcome State Fault Refusal := .next (s.chunkGet spdm)

/-- VENDOR_DEFINED_REQUEST. -/
def State.vendorRequest (s : State) (r : SpdmReq) (stream : IdeStream) : State :=
  if !s.spReaches r.transport then s
  else
    let x := if r.version ≠ 0x12 then (s, spError spErrVersion) else s.spIde r stream
    x.1.spSend r.transport x.2

/-- VENDOR_DEFINED_REQUEST. -/
def execVendorDefinedRequest (spdm : SpdmReq) (stream : IdeStream) (s : State) : Host.Outcome State Fault Refusal :=
  .next (s.vendorRequest spdm stream)

/-- IDE_INTEGRITY_FAILURE (R468): the stream is insecure, and the port treats it as a link-down. -/
def State.ideFailure (s : State) (stream : IdeStream) : State :=
  if s.host.ide.contains stream then
    ({ s with host := { s.host with ide := dropVal stream s.host.ide } } : State).showIde.linkDown
  else s

/-- IDE_INTEGRITY_FAILURE. -/
def execIdeIntegrityFailure (stream : IdeStream) (s : State) : Host.Outcome State Fault Refusal := .next (s.ideFailure stream)

end Sys2Proof.Machine
end

