-- ==== Sys2Proof/Machine/Registers.lean ====
section
/-! DEFINITION. Register writes with the behaviour that the spec gives each register (R12, R39 to R41, R83, R103, R388, R449,
R459, R464, R470, R484, R509 to R514). -/
namespace Sys2Proof.Machine

/- ## Registers with a behaviour of their own -/

/-- `PWR_CTRL`: TARGET 0b11 leaves TARGET and requests nothing (Table 16.17). -/
def State.writePower (s : State) (r : RegRow) (v : Nat) : State :=
  if v % 4 = 3 then s.writeWhole r rPwrCtrl (v / 4 * 4 + s.fld pwrCtrlTarget)
  else (s.writeWhole r rPwrCtrl v).requestPower (if v % 4 = 0 then 0 else v % 4 + 1)

/-- `FTL_MAP_BASE` under the member's number as it now is (R289). -/
def State.nameMap (s : State) : State :=
  if s.fld ftlMapSizeGranules = 0 then s else s.setFld ftlMapBaseBase (mkAddr s.member (addrKey (s.fld ftlMapBaseBase)))

/-- Port of a `FAB_PORTn_CTRL` offset. -/
def portOfCtrl (off : Nat) : Option Nat := allPorts.find? fun n => rFabPortCtrl n == off

/-- A 4-byte register written with its behaviour. -/
def State.writeWord (s : State) (off v : Nat) : State :=
  match regRowAt off with
  | none => s.writeOne off 4 v
  | some r =>
    if off = rSetupSeal then s.writeSeal v
    else if off = rDeviceReset then s.keyReset .host v
    else if off = rCueSwitchReq then
      (if s.fld cueStatusLock ≠ 4 || (bit v 31 && decide (v % 4 = 0)) then s
       else
         let t := s.writeWhole r off v
         if bit v 31 then t.switchRequest (v % 4) (field v 8 16) (field v 2 6) else t)
    else if off = rFabMember then (s.writeOne off 4 v).nameMap
    else if off = rCoppiceReq then s.requestCoppices v
    else if off = rSelftestReq then s.requestTest v
    else if off = rSecCmd then (if bit v 31 then s.secCommand (v % 256) else s)
    else if off = rPwrCtrl then s.writePower r v
    else
      match portOfCtrl off with
      | some n => s.writePortCtrl n v
      | none => s.writeOne off 4 v

/- ## MSI-X and the mailbox (R509, R510, R514) -/

/-- One word of the MSI-X table written; a vector that becomes unmasked while pending is sent (PCIe Base 5.0; log
entry 11). -/
def State.writeMsix (s : State) (i v : Nat) : State :=
  let w := if i % 4 = 3 then v % 2 else v
  let t : State := { s with regs := { s.regs with
    msixTable := cellPut s.regs.msixTable i (if w = (if i % 4 = 3 then 1 else 0) then none else some (BitVec.ofNat 32 w)) } }
  let n := i / 4
  if t.regs.msixPending.contains n && !t.msixMasked n && t.host.up then
    ({ t with regs := { t.regs with msixPending := dropVal n t.regs.msixPending } } : State).emit (.msix n)
  else t

/-- Bytes of the mailbox written (R476). -/
def State.writeMbox (s : State) (off : Nat) (bs : List Byte) : State :=
  { s with regs := { s.regs with mbox := cellWrite 0 s.regs.mbox (off - 0x9000) bs } }

/-- A write of 4 or 8 naturally aligned bytes that the register block performs, or of 64 to the mailbox; any other is ignored
(R510). The aperture has its own command, and the pending bits are read-only. -/
def State.writeBlock (s : State) (off size v : Nat) : State :=
  if !((size == 4 || size == 8 || (size == 64 && decide (0x9000 ≤ off) && decide (off < 0xA000))) && off % size == 0) then s
  else if 0x9000 ≤ off && off < 0xA000 then s.writeMbox off (leBytes size v)
  else if 0x30000 ≤ off && off < 0x31010 then
    (let t := s.writeMsix ((off - 0x30000) / 4) (v % 2 ^ 32)
     if size = 8 then t.writeMsix ((off - 0x30000) / 4 + 1) (v / 2 ^ 32) else t)
  else if size = 8 && isWide off then s.writeOne off 8 v
  else if size = 8 then (s.writeWord off (v % 2 ^ 32)).writeWord (off + 4) (v / 2 ^ 32)
  else s.writeWord off v

/-- REGISTER_WRITE: the host as far as the port answers it, the stage manager except in the host's own blocks; a store from
an item or over the fabric never reaches the register block (R30, R512, R514). -/
def State.registerWrite (s : State) (o : Origin) (off size v : Nat) : State :=
  match o with
  | .host => if s.hostServes off then s.writeBlock off size v else s
  | .stageManager =>
    if s.inReset || !s.rel.smUp || (decide (0x9000 ≤ off) && decide (off < 0xA000)) then s else s.writeBlock off size v
  | .fabric => s
  | .item => s

/-- REGISTER_WRITE. -/
def execRegisterWrite (origin : Origin) (off size : Nat) (value : BitVec 64) (s : State) : Host.Outcome State Fault Refusal :=
  .next (s.registerWrite origin off size value.toNat)

/-- CUE_SWITCH_REQ: the register written by the host. -/
def execCueSwitchReq (value : BitVec 32) (s : State) : Host.Outcome State Fault Refusal :=
  .next (s.registerWrite .host rCueSwitchReq 4 value.toNat)

/-- PART_OP_CEILING: CEILING holds the request; EFFECTIVE follows at the next boundary (R103). -/
def execPartOpCeiling (part : Nat) (value : BitVec 32) (s : State) : Host.Outcome State Fault Refusal :=
  .next (if part < 8 then s.registerWrite .host (rPartOp part) 4 value.toNat else s)

/- ## The debug port (R464) -/

/-- A hardened register written by the debug port: its fields take the value although the device is sealed, and the
configuration image follows. -/
def State.debugHardened (s : State) (r : RegRow) (off v : Nat) : State :=
  let t := s.setReg off (r.merged false (s.reg off) v)
  let t := if off = rFabMember then t.nameMap else t
  let x := if t.reg off = regReset off then none else some (BitVec.ofNat 64 (t.reg off))
  if t.regs.imageHeld then { t with regs := { t.regs with image := cellPut t.regs.image off x } } else t

/-- A 4- or 8-byte register write by the debug port. -/
def State.debugReg (s : State) (off size v : Nat) : State :=
  match regRowAt off with
  | some r =>
    if r.has .rwl then
      s.debugHardened r off (if r.size = 8 && size = 4 then s.reg off / 2 ^ 32 * 2 ^ 32 + v % 2 ^ 32 else v)
    else s.writeBlock off size v
  | none =>
    match regRowAt (regBase off) with
    | some r =>
      if r.has .rwl && r.size == 8 then s.debugHardened r (regBase off) (v % 2 ^ 32 * 2 ^ 32 + s.reg (regBase off) % 2 ^ 32)
      else s.writeBlock off size v
    | none => s.writeBlock off size v

/-- Register accesses of a debug-port write. -/
def State.debugRegs (s : State) (off : Nat) (data : List Byte) : State :=
  (regAccesses (data.length / 4 + 1) off data.length).foldl (fun t (o, n) =>
    let d := (data.drop (o - off)).take n
    if n = 8 && !isWide o then (t.debugReg o 4 (leNat (d.take 4))).debugReg (o + 4) 4 (leNat (d.drop 4))
    else t.debugReg o n (leNat d)) s

/-- DEBUG_PORT_WRITE: at the invasive level only, to an address of this member. A write that covers part of an uncorrectable
unit is discarded as one of the host's is; the flash window has no context here and takes none (log entry 56). -/
def State.debugWrite (s : State) (addr : Nat) (data : List Byte) : State :=
  if s.inReset || s.fld lcStatusDebug ≠ 2 || !s.isOwn (addrMember addr) || addr / 2 ^ 57 ≠ 0 then s
  else if addrTier addr = 3 then
    (if addr % 4 = 0 && data.length % 4 = 0 then s.debugRegs (addrOff addr) data else s)
  else if addrTier addr < 2 && s.populated (addrTier addr) (addrOff addr) data.length && !s.hostShut (addrKey addr) then
    (if s.devPartBad (addrKey addr) data.length then s else s.devWrite (addrKey addr) data)
  else s

/-- DEBUG_PORT_WRITE. -/
def execDebugPortWrite (addr : Nat) (data : List Byte) (s : State) : Host.Outcome State Fault Refusal :=
  .next (s.debugWrite addr data)

end Sys2Proof.Machine
end

