-- ==== Sys2Proof/Machine/Rings.lean ====
section
/-! DEFINITION. The ring commands (R46 to R70) and the deadline monitor (R92 to R95): doorbells, fetching, admission and
dispatch, timeouts, pre-emption, and the end of a run with its records. -/
namespace Sys2Proof.Machine

/- ## Doorbells and fetching (R46, R49 to R51) -/

/-- DOORBELL_WAKE: a store to a device-resident line is read from memory; a snoop of a host-resident one, over CXL, brings
the line. -/
def State.doorbell (s : State) (n : Nat) (line : Option DoorbellLine) : State :=
  if s.ringDevice n then s.wakeRing n (s.readLine n)
  else if s.host.cxl && s.host.up then s.wakeRing n line
  else s

/-- DOORBELL_WAKE. -/
def execDoorbellWake (ring : Nat) (line : Option DoorbellLine) (s : State) : Host.Outcome State Fault Refusal :=
  .next (s.doorbell ring line)

/-- DOORBELL_POLL: in PCIe endpoint operation every enabled host-resident line (R33). -/
def State.poll (s : State) (lines : List (Nat × Option DoorbellLine)) : State :=
  if s.host.cxl || !s.host.up then s
  else (lines.filter fun x => !s.ringDevice x.1).foldl (fun (t : State) x => t.wakeRing x.1 x.2) s

/-- DOORBELL_POLL. -/
def execDoorbellPoll (lines : List (Nat × Option DoorbellLine)) (s : State) : Host.Outcome State Fault Refusal :=
  .next (s.poll lines)

/-- DESCRIPTOR_FETCH: the next slot below the accepted producer index. Host memory gives the bytes, or fails. -/
def State.fetch (s : State) (n : Nat) (host : Option (List Byte)) : State :=
  let r := s.ring n
  if !s.mayFetch n || r.cons = r.prod then s
  else
    let slot := r.cons.toNat % s.sqSize n
    let x :=
      if s.ringDevice n then s.fetchDevice n slot r.cons none
      else
        match host with
        | some b => if b.length = 128 then (s, s.newFetched n r.cons b none) else (s, s.failedFetch n r.cons none)
        | none => (s, s.failedFetch n r.cons none)
    (x.1.onRing n fun q => { q with cons := q.cons + 1 }).pushFetched n x.2

/-- DESCRIPTOR_FETCH. -/
def execDescriptorFetch (ring : Nat) (host : Option (List Byte)) (now : Nat) (s : State) :
    Host.Outcome State Fault Refusal :=
  .next ((s.tick now).fetch ring host)

/- ## Runs (R45, R65, R66) -/

/-- Records free in a completion ring beyond those held (R66). -/
def State.cqFree (s : State) (n : Nat) : Nat := s.cqSize n - (s.ring n).held - ((s.ring n).cqProd - (s.ring n).cqCons).toNat

/-- The ring can hold the records of a run of `k` items. Records of a lost host are discarded and need no room (R38). -/
def State.roomFor (s : State) (n k : Nat) : Bool := decide (1 + k ≤ s.cqFree n) || (!s.ringDevice n && s.host.lost)

/-- The runs of a ring (R45). -/
def State.ringRuns (s : State) (n : Nat) : List Run := s.runs.filter fun r => r.desc.ring == n

/-- A run of the descriptor at a ring head: the items it is to run, unstarted, or ended as the verdict says. -/
def State.newRun (s : State) (f : Fetched) (group : Option Nat) (charge : Nat) : Run :=
  { id := s.sched.nextRun, desc := f,
    items := f.todo.map fun i =>
      { index := i, phase := match f.verdict with
          | some (st, dt) => .ended st dt
          | none => .unstarted
        cycles := 0, arrived := [], stage := 0 },
    fnGen := s.fld fnStatusGen, biasGen := s.fld biasStatusGen, chorusGen := s.fld chorusStatusGen, cue := s.cueNo,
    startNs := s.now, group := group,
    pooled := group.isSome && s.fromPool (hdrCtx f.bytes) && s.sched.pastMid, charge := charge, spilled := false,
    tiles := if f.verdict.isSome then [] else tilesOf f.bytes, engines := if f.verdict.isSome then [] else tileClaims f.bytes,
    ctxGen := s.ctxGen (hdrCtx f.bytes) }

/-- The head taken from its ring into a run, with its completion space held. -/
def State.startRun (s : State) (n : Nat) (r : Run) : State :=
  let t := s.onRing n fun q => { q with fifo := q.fifo.drop 1, held := q.held + 1 + r.items.length }
  ({ t with runs := t.runs ++ [r], sched := { t.sched with nextRun := t.sched.nextRun + 1 } } : State).noteHead n

/-- Bin of the wait histogram (Table 3.17). -/
def waitBin (k : Nat) : Nat := if k < 16 then k else min 31 (16 + ilog2 (k / 16))

/-- Queue waiting time of a descriptor that is dispatched now, in ns (R106). -/
def State.waitNs (s : State) (f : Fetched) : Nat :=
  s.now - f.since - f.fenceWait

/-- The context's account at a dispatch (R105, R106): each run's wait is rounded down to whole microseconds before it is added
(DESIGN CHOICE, log entry 81). -/
def State.accountDispatch (s : State) (f : Fetched) : State :=
  let w := s.waitNs f / 1000
  let b := waitBin (w / max s.period 1)
  s.onAccount (hdrCtx f.bytes) fun a =>
    { a with waitUs := satAdd 64 a.waitUs w, runs := satAdd 64 a.runs 1,
             hist := cellSet 0 a.hist b (satAdd 32 (cellGet 0 a.hist b) 1) }

/- ## Admission (R87, R88, R92, R100) -/

/-- The head breaks a limit of admission: a cost above the whole group budget, or a position beyond the cycle. -/
def State.headBreaks (s : State) (f : Fetched) : Option (Nat × Nat) :=
  if !f.continuation && (groupOf f.bytes).any fun g => decide (grp s.wholeBudget g < hdrCost f.bytes) then some (stBad, 1)
  else if s.blockingMode && s.cue.blkGen != 0 && hdrSlotEn f.bytes && decide (s.cue.blkCycle ≤ hdrSlotPos f.bytes) then
    some (stBad, 0)
  else none

/-- The monitor decides on the steps of a ring: deadline mode, a deadline context, a fallback registered. -/
def State.monitored (s : State) (n : Nat) : Bool :=
  !s.blockingMode && s.deadlineCtx (s.ringCtx n) && s.flag (ctxFallbackEn (s.ringCtx n))

/-- Choice made for the step that a waiting descriptor belongs to: its own program where nothing is to be decided. -/
def State.choiceOf (s : State) (f : Fetched) : StepChoice :=
  if f.owner.isSome || f.continuation then .program
  else
    match (s.ring f.ring).stepOf f.index with
    | some m => if m.choice = .undecided && !s.monitored f.ring then .program else m.choice
    | none => .program

/-- Work of a group may be charged now: the member has a cue, no curtain, no intermission, no hold, and the position is the
descriptor's (R78, R98, R100, R101, R443). -/
def State.chargeOpen (s : State) (f : Fetched) : Bool :=
  s.fld cueStatusLock != 0 && !s.flag healthStatusCurtain && !s.sched.intermission && !(s.blockingMode && s.cue.blkHold) &&
    !(s.blockingMode && hdrSlotEn f.bytes && s.slotPos s.cueNo != hdrSlotPos f.bytes)

/-- The engines that a descriptor needs are free (R138, R310). -/
def State.enginesFree (s : State) (d : List Byte) : Bool :=
  s.claimsFree d && (!isCodec d || !codecNamed d || (s.codecEngine d).isSome)

/-- Everything but fences, room and order that a head without a verdict needs: its group and the charge that admission
takes; none for uncharged work (R86 to R88). A head that names tiles out of service waits here (R23, R267); one whose engines
are busy is admitted, and waits for them as a run (R138). -/
def State.admits (s : State) (f : Fetched) : Option (Option (Nat × Nat)) :=
  if !s.ringLive f.ring || s.admissionShut || s.stopHeld (hdrCtx f.bytes) || s.choiceOf f != .program then none
  else
    match groupOf f.bytes with
    | none => some none
    | some g =>
      if s.chargeOpen f && s.tilesServe f.bytes then (s.affords f g).map fun n => some (g, n) else none

/-- A ring's head that could be dispatched at once. -/
def State.ready (s : State) (n : Nat) : Option (Fetched × Option (Nat × Nat)) :=
  match (s.ring n).fifo with
  | [] => none
  | f :: _ =>
    if f.verdict.isSome || 32 ≤ (s.ringRuns n).length || !s.roomFor n f.todo.length || s.fenceState f != .met ||
        (s.headBreaks f).isSome then none
    else (s.admits f).map fun x => (f, x)

/-- Order of a ring in which pooled work is admitted: deadline contexts by their step's deadline, then best effort round
robin from the ring admitted last (R92). -/
def State.poolRank (s : State) (n : Nat) (f : Fetched) : Nat × Nat :=
  if s.deadlineCtx (hdrCtx f.bytes) then
    match (s.ring n).stepOf f.index with
    | some m => (0, s.deadline n m)
    | none => (0, s.cueNo + s.fld (ctxSchedDeadlineCues (hdrCtx f.bytes)))
  else (1, (n + 255 - s.sched.lastRing) % 256)

/-- It is the ring's turn: no other ready ring that draws on the pool comes before it. -/
def State.turn (s : State) (n : Nat) (f : Fetched) (g : Nat) : Bool :=
  if !s.fromPool (hdrCtx f.bytes) then true
  else
    let a := s.poolRank n f
    s.rings.all fun x =>
      x.1 == n ||
        match s.ready x.1 with
        | some (h, some (k, _)) =>
          let b := s.poolRank x.1 h
          k != g || !s.fromPool (hdrCtx h.bytes) || decide (a.1 < b.1) || (a.1 == b.1 && decide (a.2 ≤ b.2))
        | _ => true

/- ## Dispatch (R45, R88, R138) -/

/-- The head gets a status for every item instead of running. -/
def State.judgeHead (s : State) (n : Nat) (st dt : Nat) : State :=
  s.onRing n fun r =>
    match r.fifo with
    | f :: rest => { r with fifo := { f with verdict := some (verdictOn f.bytes (st, dt)) } :: rest }
    | [] => r

/-- A head whose verdict is made takes its run, all of it ended. -/
def State.startJudged (s : State) (n : Nat) (f : Fetched) : State :=
  if s.roomFor n f.todo.length then s.startRun n (s.newRun f none 0) else s

/-- An admitted head's charge spent in its group and slot; a head from the pool leaves its ring as the last one served. -/
def State.spendFor (s : State) (n c : Nat) : Option (Nat × Nat) → State
  | some (g, k) =>
    if s.fromPool c && !s.deadlineCtx c then
      { s.spend c n g k with sched := { (s.spend c n g k).sched with lastRing := n } }
    else s.spend c n g k
  | none => s

/-- The codec engine that a descriptor's item will run on, where it is a codec's. -/
def State.codecFor (s : State) (f : Fetched) : Option Nat :=
  if isCodec f.bytes && codecNamed f.bytes then s.codecEngine f.bytes else none

/-- A free codec engine claimed for a run. -/
def State.claimCodec (s : State) (id : Nat) : Option Nat → State
  | some k =>
    if (s.engineHolder k).isNone then { s with media := { s.media with claims := cellPut s.media.claims k (some id) } } else s
  | none => s

/-- The run as its dispatch makes it: the generations, the slot and the context's generation in force then (R69, R85, R181,
R382), and its engines. -/
def State.dispatched (s : State) (r : Run) (e : Option Nat) : Run :=
  { r with
    waiting := false, startNs := s.now, cue := s.cueNo, fnGen := s.fld fnStatusGen,
    biasGen := s.fld biasStatusGen, chorusGen := s.fld chorusStatusGen, ctxGen := s.ctxGen r.ctx,
    engines := (e.map fun k => [2000 + k]).getD r.engines }

/-- The work of a dispatched run begins, unless a check of its whole descriptor fails: then every item ends BAD_DESCRIPTOR. -/
def State.beginRun (s : State) (r : Run) : State :=
  match s.judgeRun r with
  | some dt => s.cutItems (fun x => x.id == r.id) (fun _ => true) stBad dt
  | none => s.pairBegin r

/-- A waiting run dispatched to its engines: its account is kept, and its work may begin. -/
def State.dispatchRun (s : State) (r : Run) : State :=
  let e := s.codecFor r.desc
  let q := s.dispatched r e
  (((s.accountDispatch r.desc).onRun r.id fun _ => q).claimCodec r.id e).healParity.beginRun q

/-- Two runs want the same engine, or are of one ring. -/
def Run.before (q r : Run) : Bool :=
  q.desc.ring == r.desc.ring ||
    (isCodec q.desc.bytes && hdrClass q.desc.bytes == hdrClass r.desc.bytes) ||
    (tileClaims q.desc.bytes).any fun c => (tileClaims r.desc.bytes).contains c

/-- A waiting run's turn has come: its tiles are in service and its engines free, and none admitted before it on its ring or
for one of its engines still waits (R45, R138, R310). -/
def State.mayDispatch (s : State) (r : Run) : Bool :=
  r.waiting && s.tilesServe r.desc.bytes && s.enginesFree r.desc.bytes &&
    s.runs.all fun q => !(q.waiting && decide (q.id < r.id) && q.before r)

/-- Waiting runs dispatched in order of admission, as far as their engines are free. One whose items have all been cut is
left to its records. -/
def State.dispatchRuns (s : State) : State :=
  (s.runs.filter Run.waiting).foldl (fun (t : State) r =>
    match t.findRun r.id with
    | some q => if t.mayDispatch q && q.items.any (fun x => !x.hasEnded) then t.dispatchRun q else t
    | none => t) s

/-- A head admitted: its charge is spent, and its run waits for its engines. -/
def State.startAdmitted (s : State) (n : Nat) (f : Fetched) (x : Option (Nat × Nat)) : State :=
  let t := s.spendFor n (hdrCtx f.bytes) x
  (t.startRun n { t.newRun f (x.map Prod.fst) ((x.map Prod.snd).getD 0) with waiting := true }).dispatchRuns

/-- DESCRIPTOR_DISPATCH: the runs that wait for engines are dispatched as far as may be, then one try is made at a ring's
head. -/
def State.dispatch (s : State) (n : Nat) : State :=
  let s := s.dispatchRuns.noteHead n
  match (s.ring n).fifo with
  | [] => s
  | f :: _ =>
    if 32 ≤ (s.ringRuns n).length || s.choiceOf f = .fallback then s
    else if f.verdict.isSome then s.startJudged n f
    else
      match s.headBreaks f with
      | some (st, dt) => s.judgeHead n st dt
      | none =>
        match s.fenceState f with
        | .bad =>
          let k := s.fenceKey (hdrCtx f.bytes) (hdrFenceIn f.bytes % 4096)
          (s.badDevRead { source := 0, ctx := hdrCtx f.bytes, ring := n, desc := f.index.toNat % s.sqSize n, item := 0,
                          requester := s.member } (s.firstBad k 4)).judgeHead n stUncorrectable 0
        | .unmet => s
        | .poisoned => s.judgeHead n stCancelled 0
        | .met =>
          match s.ready n with
          | some (h, some (g, k)) => if s.turn n h g then s.startAdmitted n h (some (g, k)) else s
          | some (h, none) => s.startAdmitted n h none
          | none => s

/-- DESCRIPTOR_DISPATCH. -/
def execDescriptorDispatch (ring now : Nat) (s : State) : Host.Outcome State Fault Refusal :=
  .next ((s.tick now).wakeDimmed.dispatch ring)

/-- FENCE_WAIT_TIMEOUT (R58): the head's fence-in has stayed unmet for FENCE_WAIT_CUES cues. -/
def State.fenceLate (s : State) (n : Nat) : State :=
  match (s.ring n).fifo with
  | [] => s
  | f :: _ =>
    if f.verdict.isNone && s.fenceState f == .unmet &&
        f.headCue.any (fun c => decide (c + s.fld (ringTimeoutFenceWaitCues n) ≤ s.cueNo)) then s.judgeHead n stTimeout 0
    else s

/-- FENCE_WAIT_TIMEOUT. -/
def execFenceWaitTimeout (ring : Nat) (s : State) : Host.Outcome State Fault Refusal := .next (s.fenceLate ring)

/- ## Timeouts and pre-emption (R61, R63, R102) -/

/-- Timeout of a run in ns × MHz at 1.75 GHz: the header's, or where that is 0 its ring's default (R61). -/
def State.timeLimit (s : State) (r : Run) : Nat :=
  (if hdrTimeout r.desc.bytes = 0 then s.fld (ringTimeoutDefaultTimeoutUs r.desc.ring) else hdrTimeout r.desc.bytes) *
    1000 * 1750

/-- DESCRIPTOR_TIMEOUT: once the run has used its time, unfinished items end TIMEOUT. What an item has waited for partners'
packets does not count (R407). -/
def State.runTimeout (s : State) (id : Nat) : State :=
  match s.findRun id with
  | none => s
  | some r =>
    r.items.foldl (fun (t : State) x =>
      if r.used < s.timeLimit r + x.partners then t else t.endEarly id x.index stTimeout) s

/-- DESCRIPTOR_TIMEOUT. -/
def execDescriptorTimeout (run now : Nat) (s : State) : Host.Outcome State Fault Refusal :=
  .next ((s.tick now).runTimeout run)

/-- Unstarted items of a run end PREEMPTED; they are requeued as a continuation once the run's records are written. -/
def State.preemptItems (s : State) (id : Nat) : State := s.cutItems (fun r => r.id == id) Item.isUnstarted stPreempted 0

/-- A run that may be pre-empted for a deadline context (Table 3.14): best effort, charged from the pool after the midpoint,
with unstarted items; of a collective, none that has started. -/
def State.preemptible (s : State) (r : Run) : Bool :=
  r.pooled && !s.deadlineCtx r.ctx && r.items.any Item.isUnstarted &&
    !(hdrClass r.desc.bytes == 0xB && r.items.any Item.isRunning)

/-- Charge of a run's unstarted items. -/
def Run.unstartedCharge (r : Run) : Nat :=
  if r.items.isEmpty then 0 else r.charge * (r.items.filter Item.isUnstarted).length / r.items.length

/-- Steps of deadline contexts that are predicted to miss, by ring (R94). -/
def State.missing (s : State) : List (Nat × StepMon) :=
  s.rings.flatMap fun x =>
    if s.deadlineCtx (s.ringCtx x.1) then
      (x.2.steps.filter fun m =>
        s.late (s.predict x.1 (s.ringCtx x.1) m (s.stepWork x.1 m)) (s.deadline x.1 m)).map fun m => (x.1, m)
    else []

/-- The charge of a step that is predicted to miss is not covered in a group, by the pool and the runs pre-empted in this
slot (R102). -/
def State.lacks (s : State) (g : Nat) : Bool :=
  s.missing.any fun x => decide (grp s.sched.pool g + grp s.sched.freed g < chargeSum (s.stepWork x.1 x.2) g)

/-- PREEMPT: the newest preemptible run of a group that a missing step lacks is stopped at an item boundary. The charge of
its unstarted items counts as cover; nothing is refunded (R87, R102; log entry 57). -/
def State.preempt (s : State) (id : Nat) : State :=
  match s.findRun id with
  | none => s
  | some r =>
    match r.group with
    | none => s
    | some g =>
      if s.blockingMode || !s.sched.pastMid || !s.preemptible r || !s.lacks g ||
          s.runs.any (fun q => q.group == some g && s.preemptible q && decide (r.id < q.id)) then s
      else
        ({ s with sched := { s.sched with
            freed := modifyAt (fun x => x + r.unstartedCharge) g s.sched.freed } } : State).preemptItems id

/-- PREEMPT. -/
def execPreempt (run now : Nat) (s : State) : Host.Outcome State Fault Refusal := .next ((s.tick now).preempt run)

/- ## Steps (R93, R105) -/

/-- Every descriptor of a step has written its final summary. -/
def StepMon.complete (m : StepMon) : Bool :=
  match m.last with
  | some l => decide ((l - m.first).toNat + 1 ≤ m.finished.length)
  | none => false

/-- A step completed: counted, with its miss in deadline mode, and remembered as a predecessor (R94, R105). -/
def State.stepDone (s : State) (n : Nat) (m : StepMon) : State :=
  let c := s.ringCtx n
  let missed := s.deadlineCtx c && decide (s.deadline n m ≤ s.cueNo)
  let t := s.onAccount c fun a =>
    { a with steps := satAdd 32 a.steps 1, misses := if missed then satAdd 32 a.misses 1 else a.misses }
  t.onRing n fun r => { r with steps := r.steps.filter (fun x => x.first != m.first), lastMissed := m.missPredicted }

/-- A descriptor's final summary noted at its step. -/
def State.stepNote (s : State) (n : Nat) (i : Word) : State :=
  match (s.ring n).stepOf i with
  | none => s
  | some m =>
    let m' := { m with finished := if m.finished.contains i then m.finished else m.finished ++ [i] }
    let t := s.onRing n fun r => r.onStep m.first fun _ => m'
    if m'.complete then t.stepDone n m' else t

/-- A fallback program's descriptor has finished: its worst status, and one fewer to come (R95). -/
def State.programNote (s : State) (n worst : Nat) : State :=
  match (s.ring n).steps.find? fun m => m.choice == .fallback && decide (0 < m.programLeft) with
  | none => s
  | some m => s.onRing n fun r => r.onStep m.first fun x => { x with programLeft := x.programLeft - 1, worst := max x.worst worst }

/- ## The end of a run (R59, R63, R65, R70) -/

/-- Work waiting on a ring is cancelled as it comes back: a mark above it, a halted ring, a torn context, or a device that
takes no more work (R38, R62, R383, R442, R458, R473). -/
def State.cancelsBack (s : State) (f : Fetched) : Bool :=
  let r := s.ring f.ring
  (r.marked && belowMark r.cancel f.index && f.owner.isNone) || r.state != 0 || s.rel.draining || s.flash.failing ||
    s.sec.transition.isSome || s.sched.torn.contains (hdrCtx f.bytes)

/-- The continuation of a pre-empted run at its ring's head. One requeued at its slot's end counts in `PREEMPTIONS` too (DESIGN
CHOICE, log entry 80). -/
def State.requeue (s : State) (r : Run) : State :=
  let ended := r.items.filter fun x => !x.isPreempted
  let f : Fetched := { r.desc with
    todo := (r.items.filter Item.isPreempted).map Item.index
    continuation := true
    since := s.now
    worst := ended.foldl (fun a x => max a x.result.1) r.desc.worst
    headCue := some s.cueNo
    fenceWait := 0
    atEdge := none }
  let f := if s.cancelsBack f then f.cut stCancelled else f
  (s.onRing r.desc.ring fun q => { q with fifo := f :: q.fifo }).onAccount r.ctx fun a =>
    { a with preemptions := satAdd 32 a.preemptions 1 }

/-- What a final summary brings: the fence-out, a pair's commit, and the step's end. -/
def State.finishDesc (s : State) (r : Run) : State :=
  let t := (s.fenceOut r).pairCommit r
  match r.desc.owner with
  | some n => t.programNote n (max r.desc.worst r.worst)
  | none => t.stepNote r.desc.ring r.desc.index

/-- DETAIL of an `FN_LOAD` that ended OK, as its summary is written, and its generation in force (R216). -/
def State.fnSummary (s : State) (r : Run) : State × Run :=
  if hdrClass r.desc.bytes = 3 && hdrOp r.desc.bytes = 6 && r.worst == stOk && r.desc.verdict.isNone && !r.items.isEmpty then
    (s.fnInForce r.id,
     { r with items := r.items.map fun x => { x with phase := .ended stOk (s.cueNo % 2 ^ 32) } })
  else (s, r)

/-- The status line after a summary, and the interrupt (R70). -/
def State.signal (s : State) (r : Run) : State :=
  let n := r.desc.ring
  let t := s.writeStatus n
  if flIrq r.desc.bytes ||
      (decide (t.fld (ringIrqCount n) ≠ 0) && decide (t.fld (ringIrqCount n) ≤ (t.ring n).sinceIrq)) then t.interrupt n
  else t

/-- A run leaves: its records are written, its space and engines are released, and its descriptor goes on or is
finished. -/
def State.endRun (s : State) (r : Run) (hostFails : List Nat) : State :=
  let (t, r) := s.fnSummary r
  let t := t.writeRecords r hostFails
  let t := t.onRing r.desc.ring fun q => { q with held := q.held - (1 + r.items.length) }
  let t : State := { t with
    runs := t.runs.filter fun x => x.id != r.id
    media := { t.media with claims := t.media.claims.filter fun x => x.2 != r.id } }
  ((if r.continues then t.requeue r else t.finishDesc r).signal r).noteHead r.desc.ring

/-- RUN_COMPLETE: every item has ended. -/
def State.runComplete (s : State) (id : Nat) (hostFails : List Nat) : State :=
  match s.findRun id with
  | none => s
  | some r => if r.items.all Item.hasEnded then s.endRun r hostFails else s

/-- RUN_COMPLETE. -/
def execRunComplete (run : Nat) (hostFails : List Nat) (now : Nat) (s : State) : Host.Outcome State Fault Refusal :=
  .next ((s.tick now).runComplete run hostFails)

/-- IRQ_DELAY_EXPIRY (R70): DELAY_US, not 0, have passed since the first record after the last interrupt. -/
def State.irqDelay (s : State) (n : Nat) : State :=
  let d := s.fld (ringIrqDelayUs n)
  if s.signals n && decide (d ≠ 0) && (s.ring n).firstRec.any fun t => decide (t + 1000 * d ≤ s.now) then
    (s.writeStatus n).interrupt n
  else s

/-- IRQ_DELAY_EXPIRY. -/
def execIrqDelayExpiry (ring now : Nat) (s : State) : Host.Outcome State Fault Refusal := .next ((s.tick now).irqDelay ring)

/- ## The midpoint and the monitor (R92, R94, R95) -/

/-- SLOT_MIDPOINT: in deadline mode unused reserves join the pool. -/
def State.midpoint (s : State) : State :=
  if s.blockingMode || s.sched.pastMid then s
  else
    let left := fun g => s.sched.allowances.foldl (fun (n : Nat) a => n + grp a.left g) 0
    { s with sched := { s.sched with
        pastMid := true
        pool := s.sched.pool.zipIdx.map fun (x, g) => x + left g
        allowances := s.sched.allowances.map fun a => { a with left := a.left.map fun _ => 0 } } }

/-- SLOT_MIDPOINT. -/
def execSlotMidpoint (s : State) : Host.Outcome State Fault Refusal := .next s.midpoint

/-- The program's descriptors read afresh from slots 0..COUNT of the fallback ring `m`, for a step of ring `n`. -/
def State.readProgram (s : State) (n m : Nat) : State × List Fetched :=
  (List.range (s.fld (ctxFallbackCount (s.ringCtx n)) + 1)).foldl (fun (x : State × List Fetched) i =>
    let y := x.1.fetchDevice m i (BitVec.ofNat 32 i) (some n)
    (y.1, x.2 ++ [y.2])) (s, [])

/-- The predecessor of a step on its ring was predicted at some boundary to miss. -/
def State.predecessorMissed (s : State) (n : Nat) (m : StepMon) : Bool :=
  match ((s.ring n).steps.takeWhile fun x => x.first != m.first).getLast? with
  | some p => p.missPredicted
  | none => (s.ring n).lastMissed

/-- The step runs its fallback: the program goes to its ring, and the step's own descriptors wait for it. -/
def State.takeFallback (s : State) (n m : Nat) (step : StepMon) (prog : List Fetched) : State :=
  let own := s.ownWaiting n step
  let also := match own with
    | f :: _ => hdrFenceIn f.bytes
    | [] => 0
  let t := s.onRing n fun r => r.onStep step.first fun x => { x with choice := .fallback, programLeft := prog.length, worst := 0 }
  let t := prog.zipIdx.foldl (fun (u : State) x =>
    u.pushFetched m { x.1 with alsoFence := if x.2 = 0 then also else 0, order := u.sched.nextOrder }) t
  t.onAccount (s.ringCtx n) fun a => { a with fallbacks := satAdd 32 a.fallbacks 1 }

/-- The step runs its own program. -/
def State.takeProgram (s : State) (n : Nat) (step : StepMon) : State :=
  s.onRing n fun r => r.onStep step.first fun x => { x with choice := .program }

/-- The monitor's decision on the step at a ring's head. -/
def State.decideStep (s : State) (n : Nat) (step : StepMon) : State :=
  let c := s.ringCtx n
  let own := s.ownWaiting n step
  let p := s.predict n c step own
  let misses := s.late p (s.deadline n step)
  match s.fallbackRing c with
  | none => if misses || s.predecessorMissed n step then (s.takeProgram n step).event else s.takeProgram n step
  | some m =>
    let (t, prog) := s.readProgram n m
    if (misses && earlier (s.predict n c step prog) p) || s.predecessorMissed n step then t.takeFallback n m step prog
    else t.takeProgram n step

/-- DEADLINE_DECISION: once the step at the head is fetched, or FENCE_WAIT_CUES have passed since it arrived. -/
def State.deadlineDecision (s : State) (n : Nat) : State :=
  let s := s.noteHead n
  match (s.ring n).fifo with
  | [] => s
  | f :: _ =>
    if !s.monitored n || !s.ringLive n || f.owner.isSome then s
    else
      match (s.ring n).stepOf f.index with
      | none => s
      | some m =>
        if m.choice = .undecided ∧ (m.last.isSome ∨ m.arrived + s.fld (ringTimeoutFenceWaitCues n) ≤ s.cueNo) then
          s.decideStep n m
        else s

/-- DEADLINE_DECISION. -/
def execDeadlineDecision (ring now : Nat) (s : State) : Host.Outcome State Fault Refusal :=
  .next ((s.tick now).deadlineDecision ring)

/-- The head of a ring completes without running, as its step's fallback did (R95). A verdict of its own stands. -/
def State.degradeHead (s : State) (n : Nat) (m : StepMon) (f : Fetched) : State :=
  let st := if 0x10 ≤ m.worst then m.worst else stDegraded
  let g : Fetched := { f with
    fallback := true
    verdict := match f.verdict with
      | some v => some v
      | none => some (verdictOn f.bytes (st, 0)) }
  let r := s.newRun g none 0
  (s.startRun n r).endRun r []

/-- FALLBACK_STEP_COMPLETE: the step's own descriptors at the head complete in order, as far as the completion ring has
room. -/
def State.fallbackDone (s : State) (n : Nat) : State :=
  match (s.ring n).steps.find? fun m => m.choice == .fallback && m.programLeft == 0 with
  | none => s
  | some m =>
    (List.range (s.ring n).fifo.length).foldl (fun (t : State) _ =>
      match (t.ring n).fifo with
      | [] => t
      | f :: _ => if m.holds f.index && f.owner.isNone && t.roomFor n f.todo.length then t.degradeHead n m f else t) s

/-- FALLBACK_STEP_COMPLETE. -/
def execFallbackStepComplete (ring now : Nat) (s : State) : Host.Outcome State Fault Refusal :=
  .next ((s.tick now).fallbackDone ring)

end Sys2Proof.Machine
end

