-- ==== Sys2Proof/Machine/Tables.lean ====
section
/-! DEFINITION. The blocking table and the chorus table (R96 to R99, R389 to R395): images, their checks and their switch,
and the switch of every fabric-wide table at a boundary (R85, R487). -/
namespace Sys2Proof.Machine

/- ## The generation that a table is to take (R84, R85) -/

/-- Generation that a table is to have from this boundary on: the one announced, once its target is reached; until then the
one that a hold still waits for. -/
def State.dueGen (s : State) (kind : Nat) (want : Option Nat) : Option Nat :=
  if (s.announced kind).valid && (s.cuesTo (s.announced kind).target == 0 || decide (2 ^ 31 ≤ s.cuesTo (s.announced kind).target)) then
    some (s.announced kind).gen
  else want

/-- Buffers in the order in which they are read: the one not in force first. -/
def bufferOrder (inForce : Option Nat) : List Nat := if inForce = some 0 then [1, 0] else [0, 1]

/- ## The blocking table (R96 to R99) -/

/-- Key of blocking buffer 0 (A) or 1 (B), where the base obeys its rule (R96). -/
def State.blkKey (s : State) (buf : Nat) : Option Nat :=
  let b := s.fld blkTableBaseValue
  if b % 4096 = 0 && s.ownMem (b + 4096 * buf) 4096 then some (addrKey (b + 4096 * buf)) else none

/-- An entry obeys Table 3.13 under a cycle length. -/
def blkEntryOk (cycle e : Nat) : Bool :=
  if bit e 63 then
    decide (field e 59 4 = 0) && decide (field e 0 12 ≤ field e 12 12) && decide (field e 24 6 ≤ field e 30 6) &&
      decide (field e 30 6 < cycle) &&
      (if bit e 51 then decide (field e 36 15 = 0) && decide (blkShare e = 0)
       else decide (1 ≤ blkShare e) && decide (blkShare e ≤ 100))
  else decide (e = 0)

/-- The rules that hold for every member and position: shares of at most 100 in all, and an intermission entry alone. They
are looked at where some entry's first member meets some entry's first position: entries that cover one point in common
also cover the point of their largest first member and largest first position. -/
def blkTableOk (es : List Nat) : Bool :=
  let vs := es.filter fun e => bit e 63
  vs.all fun a => vs.all fun b =>
    let c := vs.filter fun e => blkCovers e (field a 0 12) (field b 24 6)
    decide (c.foldl (fun (n : Nat) e => n + blkShare e) 0 ≤ 100) && (decide (c.length ≤ 1) || c.all fun e => !bit e 51)

/-- Entries of an image. -/
def blkEntriesOf (b : List Byte) : List Nat := (List.range (leAt b 4 2)).map fun i => leAt b (64 + 8 * i) 8

/-- The checks of R98 on the image of a generation. -/
def blkImageOk (b : List Byte) (gen : Nat) : Bool :=
  leAt b 0 2 == gen && decide (gen ≠ 0) && decide (1 ≤ leAt b 2 1) && decide (leAt b 2 1 ≤ 64) && zeroAt b 3 1 &&
    decide (leAt b 4 2 ≤ 256) && zeroAt b 6 2 && zeroAt b 12 52 &&
    leAt b 8 4 == crc32 ((b.drop 64).take (8 * leAt b 4 2)) &&
    (blkEntriesOf b).all (blkEntryOk (leAt b 2 1)) && blkTableOk (blkEntriesOf b)

/-- Buffer and bytes of a passing image of a generation. Data that cannot be read fails the check. -/
def State.findBlk (s : State) (gen : Nat) : Option (Nat × List Byte) :=
  (bufferOrder s.cue.blkBuffer).findSome? fun buf =>
    match s.blkKey buf with
    | some k =>
      if !s.devShut k && !s.devBad k 2112 && blkImageOk (s.devRead k 2112) gen then some (buf, s.devRead k 2112) else none
    | none => none

/-- The blocking table switched to a generation, or blocking hold entered, with a device event, or kept (R98). -/
def State.switchBlk (s : State) (gen : Nat) : State :=
  match s.findBlk gen with
  | none =>
    let t : State := { s with cue := { s.cue with blkHold := true, blkWant := some gen } }
    if s.cue.blkHold then t else t.event
  | some (buf, b) =>
    { s with cue := { s.cue with
      blkGen := gen, blkCycle := leAt b 2 1, blkEntries := (blkEntriesOf b).map (BitVec.ofNat 64), blkBuffer := some buf,
      blkHold := false, blkWant := none } }

/-- The blocking table at a boundary. Deadline mode ignores it (R99). -/
def State.boundaryBlk (s : State) : State :=
  if !s.blockingMode then s
  else
    match s.dueGen 1 s.cue.blkWant with
    | none => s
    | some g =>
      if g = s.cue.blkGen then { s with cue := { s.cue with blkHold := false, blkWant := none } } else s.switchBlk g

/- ## The chorus table (R389 to R395) -/

/-- Key of chorus buffer 0 (A) or 1 (B), where the base obeys its rule (R389). -/
def State.chorusKey (s : State) (buf : Nat) : Option Nat :=
  let b := s.fld chorusTableBaseBase
  if b % 0x400000 = 0 && s.ownMem (b + 0x400000 * buf) 0x400000 then some (addrKey (b + 0x400000 * buf)) else none

/-- Directory entry `e` of an image, as its number and its parts: first slot, size, understudies, guarded. -/
def dirEntry (b : List Byte) (e : Nat) : Option (Nat × Nat × Nat × Nat × Bool) :=
  let x := leAt b (64 + 16 * e) 16
  if bit x 56 then some (e, field x 0 32, field x 32 13, field x 48 4, bit x 57) else none

/-- A directory entry obeys Table 14.2 and its slots lie in an image of `n` slots. -/
def dirOk (b : List Byte) (n e : Nat) : Bool :=
  let x := leAt b (64 + 16 * e) 16
  if bit x 56 then
    decide (x / 2 ^ 58 = 0) && decide (field x 45 3 = 0) && decide (field x 52 4 = 0) && decide (1 ≤ field x 32 13) &&
      decide (field x 32 13 ≤ 4096) && decide (field x 48 4 ≤ 8) && decide (field x 0 32 + field x 32 13 + field x 48 4 ≤ n)
  else decide (x = 0)

/-- Slot `i` of an image. -/
def chorusSlot (b : List Byte) (i : Nat) : Nat := leAt b (16448 + 4 * i) 4

/-- The slots of one valid entry obey Table 14.3 and R395. -/
def dirSlotsOk (b : List Byte) (d : Nat × Nat × Nat × Nat × Bool) : Bool :=
  let (_, first, size, under, guarded) := d
  let ranks := (List.range size).map fun r => chorusSlot b (first + r)
  let subs := (List.range under).map fun r => chorusSlot b (first + size + r)
  ranks.all (fun v => decide (v / 2 ^ 25 = 0) && (!guarded || (slotWatched v && slotBuddy v != slotMember v))) &&
    subs.all (fun v => decide (v / 2 ^ 12 = 0) && !(ranks.any fun r => slotMember r == v)) && allDistinct (ranks.map slotMember)

/-- No two entries of a directory share a slot. -/
def dirApart : List (Nat × Nat × Nat × Nat × Bool) → Bool
  | [] => true
  | (_, f, n, u, _) :: t =>
    t.all (fun (_, g, m, v, _) => decide (f + n + u ≤ g) || decide (g + m + v ≤ f)) && dirApart t

/-- Valid entries of an image. -/
def chorusDir (b : List Byte) : List (Nat × Nat × Nat × Nat × Bool) := (List.range 1024).filterMap (dirEntry b)

/-- The checks of R395 on the image of a generation. `b` holds its first LENGTH bytes. -/
def chorusImageOk (b : List Byte) (gen : Nat) : Bool :=
  leAt b 0 1 == gen && zeroAt b 1 3 && zeroAt b 12 52 && leAt b 4 4 == crc32 (b.drop 64) &&
    (List.range 1024).all (dirOk b ((b.length - 16448) / 4)) && (chorusDir b).all (dirSlotsOk b) && dirApart (chorusDir b)

/-- The image that bytes hold. -/
def chorusImage (b : List Byte) (buf : Nat) : ChorusImage :=
  { dir := chorusDir b
    slots := (chorusDir b).flatMap fun (_, first, size, under, _) =>
      (List.range (size + under)).map fun r => (first + r, chorusSlot b (first + r))
    buffer := some buf }

/-- The image of a generation in one buffer, if it is there and passes. Data that cannot be read fails the check. -/
def State.readChorus (s : State) (gen buf : Nat) : Option ChorusImage :=
  match s.chorusKey buf with
  | none => none
  | some k =>
    let len := leAt (s.devRead k 64) 8 4
    if s.devShut k || len < 16448 || 0x400000 < len || len % 4 ≠ 0 || s.devBad k len || leAt (s.devRead k 64) 0 1 ≠ gen then none
    else if chorusImageOk (s.devRead k len) gen then some (chorusImage (s.devRead k len) buf) else none

/-- Images that runs are still bound to, with the one that leaves (R85, R396). -/
def State.keptImages (s : State) : List (Nat × ChorusImage) :=
  ((s.fld chorusStatusGen, s.coll.image) :: s.coll.kept.filter fun x => x.1 != s.fld chorusStatusGen).filter fun x =>
    s.runs.any fun r => r.chorusGen == x.1

/-- The chorus table switched to a generation, or chorus hold entered, with its event, or kept (R395, R419). -/
def State.switchChorus (s : State) (gen : Nat) : State :=
  match (bufferOrder s.coll.image.buffer).findSome? (s.readChorus gen) with
  | none =>
    let t : State := { s with coll := { s.coll with wantGen := some gen } }
    if s.flag chorusStatusHold then t else (t.setFlag chorusStatusHold true).chorusEvent ⟨6, 0, 0, 0, 0, 0⟩
  | some i =>
    let t : State := { s with coll := { s.coll with image := i, kept := s.keptImages, wantGen := none } }
    ((t.setFld chorusStatusGen gen).setFlag chorusStatusHold false).setFlag chorusStatusPending false

/-- The chorus table at a boundary. -/
def State.boundaryChorus (s : State) : State :=
  match s.dueGen 2 s.coll.wantGen with
  | none => s
  | some g =>
    if g = s.fld chorusStatusGen then
      ({ s with coll := { s.coll with wantGen := none } } : State).setFlag chorusStatusHold false
    else s.switchChorus g

/-- The route table at a boundary. -/
def State.boundaryRoute (s : State) : State :=
  match s.dueGen 3 s.fab.wantRoute with
  | none => s
  | some g =>
    if g = s.fld routeStatusGen then ({ s with fab := { s.fab with wantRoute := none } } : State).setFlag routeStatusHold false
    else s.switchRoute g

/- ## The table row of a boundary (Table 3.5) -/

/-- Fabric-wide tables switch once the member is sealed and has locked (R487). -/
def State.mayTable (s : State) : Bool := s.isSealed && s.fld cueStatusLock != 0

/-- The blocking table as it will stand in the slot that opens. -/
def State.tableView (s : State) : State := if s.mayTable then s.boundaryBlk else s

/-- TABLE_SWITCH: blocking, chorus and route tables, and the distance bias (R198). -/
def State.switchTables (s : State) : State :=
  let t := if s.mayTable then s.boundaryBlk.boundaryChorus.boundaryRoute.noCandidate else s
  t.biasSwitch t.cueNo

end Sys2Proof.Machine
end

