-- ==== Sys2Proof/Machine/Cue.lean ====
section
/-! DEFINITION. The cue (R72 to R103): emitting and following, the boundary with its slot ends, budgets and predictions, and
the self-tests that a boundary takes (R437, R444, R445). -/
namespace Sys2Proof.Machine

/- ## Emitting (R74, R75, R80) -/

/-- A configuration under which a member emits no cue (R74). -/
def State.cueMismatch (s : State) : Bool :=
  let p := s.fld cueCtrlPeriodUs
  let role := s.fld cueCtrlRole
  let rank := s.fld cueCtrlRank
  decide (p < 200) || decide (20000 < p) || role == 3 || (!s.blockingMode && decide (64 < s.fab.route.entries.length)) ||
    (role == 2 && rank == 0) || (decide (role < 2) && rank != 0)

/-- Rank at which the member emits: 0 for the master, and for one that never emits (R73, R75). -/
def State.ownRank (s : State) : Nat := if s.fld cueCtrlRole = 2 then s.fld cueCtrlRank else 0

/-- Nothing stops the member from emitting: sealed, no mismatch, no curtain, power failure or lifecycle transition. -/
def State.mayEmit (s : State) : Bool :=
  s.isSealed && !s.cueMismatch && !s.flag healthStatusCurtain && !s.flash.failing && !s.power.ghostLatched &&
    s.sec.transition.isNone

/-- The present slot is given a number; what was noted under higher local numbers is noted under the new one, and the ranks
heard are given anew (R72, R78). -/
def State.renumber (s : State) (n : Nat) (heard : List (Nat × Nat)) : State :=
  let t : State := { s.setReg rCueNumber n with
    cue := { s.cue with heard := heard }
    fab := { s.fab with seen := s.fab.seen.map fun (o, y, i, c) => (o, y, i, min c n) }
    rel := { s.rel with planned := s.rel.planned.map fun p => { p with cue := min p.cue n } } }
  { t with rings := t.rings.map fun (k, r) =>
      (k, { r with fifo := r.fifo.map fun f => { f with headCue := f.headCue.map (min n) },
                   steps := r.steps.map fun x => { x with arrived := min x.arrived n } }) }

/-- The emitter's number adopted (R78). -/
def State.adoptCue (s : State) (m : CueMsg) : State := s.renumber m.cue [(m.rank, m.cue)]

/-- The member emits from now on (log entry 59). -/
def State.beginEmitting (s : State) : State :=
  let t := ((s.setFld cueStatusLock 4).setFld cueStatusMisses 0).setFld cueStatusEmitter s.member
  { t with cue := { t.cue with lockCount := 0, charged := true } }

/-- The message of the present edge (Table 3.2). -/
def State.cueMessage (s : State) : CueMsg :=
  { cue := s.cueNo, timeNs := s.fabricNs, period := s.period, blocking := s.blockingMode, origin := s.member, rank := s.ownRank,
    residenceNs := 0, annBlk := s.cue.annBlk, annChorus := s.cue.annChorus, annRoute := s.cue.annRoute }

/-- CUE_EMIT at a local edge: a master that may emit does so from its first edge after the seal, which opens cue 0 where it
has had no cue before, a member under R74 falls silent, and an emitter sends its message on every up port. -/
def State.emitEdge (s : State) : State :=
  let t := if s.isSealed && s.cueMismatch then s.setFlag cueStatusMismatch true else s
  let t :=
    if t.fld cueStatusLock = 4 then
      (if t.mayEmit then t else { t.setFld cueStatusLock 0 with cue := { t.cue with lockCount := 0 } })
    else if t.fld cueCtrlRole = 1 ∧ t.mayEmit ∧ !t.cue.formerMaster then
      (if t.cue.charged then t else t.renumber 0 []).beginEmitting
    else t
  if t.fld cueStatusLock = 4 then
    ((allPorts.filter t.portUp).foldl (fun (u : State) n => u.emit (.cue n (cueBytes t.cueMessage))) t).patchesAnnounced t.cue.annRoute
  else t

/-- STANDBY_EMIT (R80): the standby has heard no valid message of a lower rank for as many cues as its rank, the present one
included. It emits from its next local edge. -/
def State.standby (s : State) : State :=
  if s.fld cueCtrlRole = 2 ∧ s.mayEmit ∧ !s.cue.formerMaster ∧ s.fld cueStatusLock ≠ 4 ∧ s.ownRank ≤ s.cue.quiet ∧ s.cue.edgeNs + 500 * s.period ≤ s.now then s.beginEmitting
  else s

/-- STANDBY_EMIT. -/
def execStandbyEmit (now : Nat) (s : State) : Host.Outcome State Fault Refusal := .next (s.tick now).standby

/- ## Following (R76 to R80) -/

/-- An offset as `OFFSET_NS` holds it: two's complement in 13 bits, saturating at ±4,095 ns (R81). -/
def offsetCode (x : Int) : Nat :=
  let y := if x < -4095 then -4095 else if 4095 < x then 4095 else x
  (if y < 0 then y + 8192 else y).toNat

/-- Ranks heard in the last two cues, with this one (R76). -/
def State.hearRank (s : State) (rank : Nat) : State :=
  { s with cue := { s.cue with heard := (rank, s.cueNo) :: s.cue.heard.filter fun x => decide (s.cueNo ≤ x.2 + 1) } }

/-- Fabric time as a message arrives: the edge's, with the port's delay and the residence (R76). -/
def State.fabricAt (s : State) (port : Nat) (m : CueMsg) : Nat :=
  m.timeNs + s.fld (fabPortStatusDelayNs port) + m.residenceNs

/-- The emitter's edge in this member's own time: as long before the arrival as TIME_NS lies before the fabric time of the
arrival (R76; log entry 58). -/
def State.derivedEdge (s : State) (port : Nat) (m : CueMsg) : Int :=
  (s.now : Int) - ((s.fabricAt port m : Int) - m.timeNs)

/-- What a valid message tells: the period and mode, the emitter, the offset, fabric time, the announcements (R78, R84,
R377). `CUE_STATUS.MISMATCH` stays until a reset (DESIGN CHOICE, log entry 78). -/
def State.learnCue (s : State) (port : Nat) (m : CueMsg) (offset : Int) : State :=
  let t := (s.setFld cueStatusEmitter m.origin).setFld cueStatusOffsetNs (offsetCode offset)
  let t := if m.blocking = s.blockingMode then t else t.setFlag cueStatusMismatch true
  let t : State := { t with cue := { t.cue with
    periodUs := m.period
    blocking := m.blocking
    quiet := if m.rank < s.ownRank ∨ s.fld cueCtrlRole ≠ 2 then 0 else s.cue.quiet
    routeNews := s.cue.routeNews || (s.fld cueStatusLock == 3 && decide (m.annRoute ≠ s.cue.annRoute))
    skewNs := (s.fabricAt port m : Int) - s.now } }
  (((t.setAnnounced 1 m.annBlk).setAnnounced 2 m.annChorus).setAnnounced 3 m.annRoute).patchesAnnounced m.annRoute

/-- Locked: charged admission begins (Table 3.3). -/
def State.lockOn (s : State) : State :=
  let t := (s.setFld cueStatusLock 1).setFld cueStatusMisses 0
  { t with cue := { t.cue with lockCount := 0, charged := true, gotValid := true } }

/-- The timer stepped to the derived edge, with a lock count of 1; or trimmed, with one more (Table 3.3). -/
def State.countMsg (s : State) (within : Bool) (derived : Int) : State :=
  { s with cue := { s.cue with
      lockCount := if within then min 3 (s.cue.lockCount + 1) else 1
      edgeNs := if within then s.cue.edgeNs else derived.toNat
      gotValid := true } }

/-- Table 3.3 on a valid message; `within` says that its offset lies within ±65 ns. In the Locked and Holdover states one
beyond it is a miss, which CUE_MISS makes. -/
def State.followCue (s : State) (m : CueMsg) (within : Bool) (derived : Int) : State :=
  match s.fld cueStatusLock with
  | 0 =>
    if within && decide (3 ≤ s.cue.lockCount) && m.blocking == s.blockingMode then (s.adoptCue m).lockOn
    else s.countMsg within derived
  | 3 =>
    if within && decide (3 ≤ s.cue.lockCount) && s.cue.routeSinceDetach then (s.adoptCue m).lockOn
    else s.countMsg within derived
  | 4 =>
    let t : State := { s with cue := { s.cue with formerMaster := s.cue.formerMaster || s.fld cueCtrlRole == 1 } }
    if within then t.lockOn else (t.setFld cueStatusLock 0).countMsg false derived
  | _ => if within then s.lockOn else s

/-- A cue message as a flooded packet, for its duplicates (R364). -/
def State.cuePacket (s : State) (m : CueMsg) : Packet := { s.prompter 0x10 0 true (leBytes 8 m.cue) with src := m.origin }

/-- CUE_MESSAGE (R76, R78, R80): validity, then Table 3.3. A member that has yet to lock cannot ask for its own number or
for a time after its own edge (log entry 60). An emitter follows lower ranks only. -/
def State.takeCue (s : State) (port : Nat) (m : CueMsg) : State :=
  if s.inReset || !s.portUp port || m.origin == s.member || s.seenFlood (s.cuePacket m) then s
  else
    let t := (s.noteFlood (s.cuePacket m)).hearRank m.rank
    let lock := s.fld cueStatusLock
    if m.period < 200 ∨ 20000 < m.period then t.setFlag cueStatusMismatch true
    else if (t.cue.heard.any fun x => decide (x.1 < m.rank)) ∨ (lock = 4 ∧ s.ownRank ≤ m.rank) then t
    else if (lock = 1 ∨ lock = 2 ∨ lock = 4) ∧ (m.cue ≠ s.cueNo ∨ s.now < s.cue.edgeNs ∨ s.cue.edgeNs + 500 * s.period < s.now) then t
    else
      let d := s.derivedEdge port m
      let off := (s.cue.edgeNs : Int) - d
      (t.learnCue port m off).followCue m (decide (-65 ≤ off) && decide (off ≤ 65)) d

/-- CUE_MESSAGE. -/
def execCueMessage (port : Nat) (msg : CueMsg) (now : Nat) (s : State) : Host.Outcome State Fault Refusal :=
  .next ((s.tick now).takeCue port msg)

/-- DETACH (R79): a detached notice, and MEMBER_LOST for every item of the fabric and collective classes and every item that
waits for another member. -/
def State.detach (s : State) : State :=
  let t := s.setFld cueStatusLock 3
  let t : State := { t with cue := { t.cue with lockCount := 0, routeSinceDetach := false, routeNews := false } }
  let t := t.sendDetached
  t.runs.foldl (fun (u : State) r =>
    let all := hdrClass r.desc.bytes == 0xA || hdrClass r.desc.bytes == 0xB
    r.items.foldl (fun (v : State) x =>
      if all || v.waitsAck r.id x.index then v.endEarly r.id x.index stMemberLost else v) u) t

/-- Table 3.3 on a miss. -/
def State.missCue (s : State) (offset : Option Int) : State :=
  let t : State := { s with cue := { s.cue with gotValid := true } }
  match s.fld cueStatusLock with
  | 1 =>
    let u := (t.setFld cueStatusLock 2).setFld cueStatusMisses 1
    (match offset with
     | some x => { u with cue := { u.cue with edgeNs := ((u.cue.edgeNs : Int) - x).toNat } }
     | none => u)
  | 2 => if s.fld cueStatusMisses < 3 then t.bump cueStatusMisses else t.detach
  | _ => { t with cue := { t.cue with lockCount := 0 } }

/-- CUE_MISS: judged once a cue, after half a period without a valid message, or with a valid one whose offset exceeds
±65 ns in the Locked and Holdover states (R76, R78). -/
def State.cueMiss (s : State) (offset : Option Int) : State :=
  let lock := s.fld cueStatusLock
  if s.inReset || lock == 4 || s.cue.gotValid then s
  else
    match offset with
    | none => if s.cue.edgeNs + 500 * s.period < s.now then s.missCue none else s
    | some x =>
      if (lock = 1 ∨ lock = 2) ∧ (x < -65 ∨ 65 < x) then (s.setFld cueStatusOffsetNs (offsetCode x)).missCue (some x) else s

/-- CUE_MISS. -/
def execCueMiss (offset : Option Int) (now : Nat) (s : State) : Host.Outcome State Fault Refusal :=
  .next ((s.tick now).cueMiss offset)

/- ## The slot's end (R89, R100 to R102, R181, R408) -/

/-- The run goes on into the next slot: its records carry SPILLED, and it counts one spill. -/
def State.spillRun (s : State) (r : Run) : State :=
  let t := s.onRun r.id fun x => { x with spilled := true, pooled := false }
  if r.spilled then t else t.onAccount r.ctx fun a => { a with spills := satAdd 32 a.spills 1 }

/-- Some item of a run has not ended. -/
def State.runOpen (s : State) (id : Nat) : Bool := (s.findRun id).any fun r => !(r.items.all Item.hasEnded)

/-- SLOT_END for one charged run that is still executing. `view` holds the blocking table of the slot that opens (log
entry 61). A started item of class 0x0B is never cut. A run that waits for its engines is not executing: it is pre-empted
where the slot that opens has no place for it, and waits on otherwise (R89, R100, R101). -/
def State.slotEndRun (view : State) (s : State) (r : Run) : State :=
  let inter := view.isIntermission view.cueNo
  let nogrant := view.blockingMode && !view.grants view.cueNo r.ctx r.desc.ring
  if r.group.isNone || r.items.all Item.hasEnded then s
  else if r.waiting then (if inter || nogrant then s.preemptItems r.id else s)
  else
    let cut := flOverrunFail r.desc.bytes || r.spilled || inter || hdrClass r.desc.bytes == 2
    let t := s.onAccount r.ctx fun a => { a with overruns := satAdd 32 a.overruns 1 }
    let t := if cut || nogrant then t.preemptItems r.id else t
    let t := if cut && hdrClass r.desc.bytes != 0xB then t.cutItems (fun x => x.id == r.id) Item.isRunning stOverrun 0 else t
    if t.runOpen r.id then t.spillRun r else t

/-- SLOT_END. -/
def State.slotEnd (view s : State) : State := s.runs.foldl (State.slotEndRun view) s

/- ## Budgets and predictions (R86, R89, R92, R94, R100) -/

/-- What a spilled run is charged in the slot that opens. -/
structure SpillCharge where
  ctx : Nat
  ring : Nat
  group : Nat
  cycles : Nat
  deriving DecidableEq, Repr

/-- Charges of the runs that have spilled into this slot, by their unfinished items (R89). -/
def State.spillCharges (s : State) : List SpillCharge :=
  s.runs.filterMap fun r =>
    match r.group with
    | none => none
    | some g =>
      let u := (r.items.filter fun x => !x.hasEnded).length
      if r.spilled && decide (u ≠ 0) then
        some { ctx := r.ctx, ring := r.desc.ring, group := g,
               cycles := ceilDiv (effCost r.desc.bytes * u) (hdrItems r.desc.bytes + 1) }
      else none

/-- The charge falls on an allowance of the context's own. -/
def State.spillOwn (s : State) (x : SpillCharge) : Bool :=
  if s.blockingMode then s.grants s.cueNo x.ctx x.ring && !s.sched.intermission else s.deadlineCtxs.contains x.ctx

/-- Percentages of a budget, by group, rounded down (DESIGN CHOICE, log entry 79). -/
def percent (l : List Nat) (p : Nat) : List Nat := l.map fun b => b * p / 100

/-- An allowance of a whole slot. -/
def newAllowance (ctx : Nat) (ring : Option Nat) (whole : List Nat) : Allowance :=
  { ctx := ctx, ring := ring, whole := whole, left := whole }

/-- Allowances of the slot that opens: reserves of deadline contexts, or what the blocking table grants (R92, R100). -/
def State.newAllowances (s : State) (budget : List Nat) : List Allowance :=
  if s.blockingMode then
    (if s.cue.blkHold || s.sched.intermission then []
     else ((s.blkNow s.cueNo).filter fun e => !bit e 51).map fun e => newAllowance (blkCtx e) (blkRing e) (percent budget (blkShare e)))
  else s.deadlineCtxs.map fun c => newAllowance c none (percent budget (s.share c))

/-- BUDGET_COMPUTE: group budgets less the charges of spilled runs without an allowance, then allowances and the remainder,
then the other spilled charges. Shares above 100 in all raise a device event as they come to be scaled (log entry 62). -/
def State.openBudget (s : State) : State :=
  let sp := s.spillCharges
  let budget := (sp.filter fun x => !s.spillOwn x).foldl (fun b x => takeGrp b x.group x.cycles) (groupBudgets s.period s.tileBudget)
  let al := s.newAllowances budget
  let pool := if s.blockingMode then budget.map fun _ => 0
    else budget.zipIdx.map fun (b, g) => b - al.foldl (fun (n : Nat) a => n + grp a.whole g) 0
  let tooMuch := !s.blockingMode && decide (100 < s.shareSum)
  let t : State := { s with sched := { s.sched with
    budget := budget, allowances := al, pool := pool, poolWhole := pool, pastMid := false, scaled := tooMuch,
    freed := budget.map fun _ => 0 } }
  let t := if tooMuch && !s.sched.scaled then t.event else t
  (sp.filter s.spillOwn).foldl (fun (u : State) x =>
    { u with sched := { u.sched with
        allowances := drawAllow x.ctx x.ring x.group (sortAllow u.sched.allowances) x.cycles } }) t

/-- Deadline predictions of a boundary: the steps of deadline contexts that are predicted to miss are marked (R94). -/
def State.predictSteps (s : State) : State :=
  { s with rings := s.rings.map fun (n, r) =>
      if s.deadlineCtx (s.ringCtx n) then
        (n, { r with steps := r.steps.map fun m =>
          { m with missPredicted := m.missPredicted ||
              s.late (s.predict n (s.ringCtx n) m (s.stepWork n m)) (s.deadline n m) } })
      else (n, r) }

/- ## Coppices and self-tests at a boundary (R437, R444, R445) -/

/-- PLANNED_COPPICE: at an intermission at least 4 cues after the announcement, or, without intermissions, PLAN_WAIT_CUES
after it (R437). -/
def State.startPlanned (s : State) : State :=
  let due := fun (x : Planned) =>
    if s.hasIntermission then s.sched.intermission && decide (x.cue + 4 ≤ s.cueNo)
    else decide (x.cue + max 4 (s.fld healthCtrlPlanWaitCues) ≤ s.cueNo)
  if s.rel.smUp then (s.rel.planned.filter due).foldl (fun (t : State) x => t.startCoppice x.part 6) s else s

/-- A tile is due for a routine test (log entry 63). -/
def State.routineDue (s : State) (t : Nat) : Bool :=
  decide (cellGet 0 s.rel.lastTest t + 1800 * s.fld selftestCtrlPeriodH ≤ s.rel.poweredS)

/-- Due tiles in order: suspects, requests, routine (R444). -/
def State.dueTests (s : State) : List Nat :=
  (s.rel.retests.filterMap s.logicalOf) ++ s.rel.testQueue ++ (List.range 144).filter s.routineDue

/-- Every claim of a tile is free, and its partition is in service. -/
def State.testable (s : State) (t : Nat) : Bool :=
  decide (t < 144) && s.partServes (t / 18) && !s.rel.testing.contains t &&
    s.runs.all fun r => r.waiting || !(r.holdsTile t && (List.range 5).any fun c => r.engines.contains (t * 8 + c))

/-- Self-tests can run: the stage manager is up, and the compute dies are in neither Dark nor Ghost light. -/
def State.testsRun (s : State) : Bool := !s.inReset && s.rel.smUp && decide (s.powerState < 2)

/-- The tile taken at a boundary outside an intermission, one on the device at a time (R445). One that is still under test
is kept. -/
def State.takeTest (s : State) : State :=
  if s.rel.testOut.any fun t => s.rel.testing.contains t then s
  else
    let ok := s.testsRun && !s.sched.intermission && !(s.flag selftestCtrlIntermissionOnly && s.hasIntermission) &&
      s.rel.testing.isEmpty
    { s with rel := { s.rel with testOut := if ok then s.dueTests.find? s.testable else none } }

/-- SELFTEST_START: any due tile in an intermission; outside one, the tile that the boundary took. -/
def State.startTest (s : State) (tile : Nat) : State :=
  if s.testsRun && s.testable tile &&
      ((s.sched.intermission && s.dueTests.contains tile) || s.rel.testOut == some tile) then
    { s with rel := { s.rel with testing := addVal tile s.rel.testing } }
  else s

/-- SELFTEST_START. -/
def execSelftestStart (tile now : Nat) (s : State) : Host.Outcome State Fault Refusal := .next ((s.tick now).startTest tile)

/- ## The boundary (Table 3.5) -/

/-- The local edge: the next number, and everything that is kept by the cue begins anew. -/
def State.newSlot (s : State) : State :=
  let t := s.setReg rCueNumber ((s.cueNo + 1) % 2 ^ 64)
  let t : State := { t with
    cue := { t.cue with edgeNs := t.now, gotValid := false, quiet := t.cue.quiet + 1 }
    mem := { t.mem with loggedNow := [] }
    sched := { t.sched with stops := t.sched.stops.filter fun x => t.stopHeld x.1 } }
  t.rings.foldl (fun (u : State) x => u.onRing x.1 fun r => { r with raised := [] }) t

/-- Prompter messages that waited for this cue are sent, at most 256 (R360). -/
def State.sendWaiting (s : State) : State :=
  let now := s.fab.waiting.take 256
  now.foldl State.promptNow { s with fab := { s.fab with sent := now.length, waiting := s.fab.waiting.drop 256 } }

/-- One more boundary met by every half that waits (R407). -/
def State.countHalves (s : State) : State :=
  { s with coll := { s.coll with halves := s.coll.halves.map fun h => { h with waited := h.waited + 1 } } }

/-- Work that waits at a boundary returns a Dimmed device to Full (R470). -/
def State.boundaryWake (s : State) : State := if s.rings.any fun x => !x.2.fifo.isEmpty then s.wakeDimmed else s

/-- The rows of Table 3.5 up to the ceilings: slot end, table switches, page release, operating points. -/
def State.boundaryRows (s : State) : State := ((s.tableView.slotEnd s).switchTables.splicePools).applyPoints

/-- The budget row: the kind of slot, planned coppices and row repairs, the tile that a test takes, budgets, feeds,
predictions and joins. -/
def State.budgetRow (s : State) : State :=
  let t : State := { s with sched := { s.sched with intermission := s.isIntermission s.cueNo } }
  t.startPlanned.repairRows.takeTest.openBudget.chargeFeeds.predictSteps.decideJoins

/-- Heads that stand ready as the slot opens: with the fence-in met and completion space, at the head since before this edge
(R88). -/
def State.markHeads (s : State) : State :=
  { s with rings := s.rings.map fun (n, r) =>
      match r.fifo with
      | f :: rest =>
        if f.verdict.isNone && s.fenceState f == .met && s.roomFor n f.todo.length && f.headCue.any (fun c => decide (c < s.cueNo))
        then (n, { r with fifo := { f with atEdge := some s.cueNo } :: rest }) else (n, r)
      | [] => (n, r) }

/-- CUE_BOUNDARY. -/
def State.boundary (s : State) : State :=
  if s.inReset then s
  else s.newSlot.emitEdge.boundaryRows.budgetRow.lateWork.retryBatches.countHalves.sendWaiting.boundaryWake.markHeads

/-- CUE_BOUNDARY. -/
def execCueBoundary (now : Nat) (s : State) : Host.Outcome State Fault Refusal := .next (s.tick now).boundary

end Sys2Proof.Machine
end

