-- ==== Sys2Proof/Machine/Dispatch.lean ====
section
/-! DEFINITION. The dispatcher: one arm per command, each a direct call of its meaning. -/
namespace Sys2Proof.Machine

/-- The meaning of every command (R11): its effect on everything but the queue. -/
def exec (i : Instr) (s : State) : Host.Outcome State Fault Refusal :=
  match i with
  | .hostWindowRead off len => Sys2Proof.Machine.execHostWindowRead off len s
  | .hostWindowWrite off data => Sys2Proof.Machine.execHostWindowWrite off data s
  | .hostLinkDown => Sys2Proof.Machine.execHostLinkDown s
  | .hostLinkUp cxl width rate => Sys2Proof.Machine.execHostLinkUp cxl width rate s
  | .perstNAssert low => Sys2Proof.Machine.execPerstNAssert low s
  | .setupSeal key => Sys2Proof.Machine.execSetupSeal key s
  | .registerWrite origin off size value => Sys2Proof.Machine.execRegisterWrite origin off size value s
  | .registerHalfRead off => Sys2Proof.Machine.execRegisterHalfRead off s
  | .doorbellWake ring line => Sys2Proof.Machine.execDoorbellWake ring line s
  | .doorbellPoll lines => Sys2Proof.Machine.execDoorbellPoll lines s
  | .descriptorFetch ring host now => Sys2Proof.Machine.execDescriptorFetch ring host now s
  | .descriptorDispatch ring now => Sys2Proof.Machine.execDescriptorDispatch ring now s
  | .fenceWaitTimeout ring => Sys2Proof.Machine.execFenceWaitTimeout ring s
  | .descriptorTimeout run now => Sys2Proof.Machine.execDescriptorTimeout run now s
  | .preempt run now => Sys2Proof.Machine.execPreempt run now s
  | .runComplete run hostFails now => Sys2Proof.Machine.execRunComplete run hostFails now s
  | .irqDelayExpiry ring now => Sys2Proof.Machine.execIrqDelayExpiry ring now s
  | .controlNop run item => Sys2Proof.Machine.execControlNop run item s
  | .fenceSignal run item => Sys2Proof.Machine.execFenceSignal run item s
  | .fenceReset run item => Sys2Proof.Machine.execFenceReset run item s
  | .hostCopy run item host => Sys2Proof.Machine.execHostCopy run item host s
  | .biasSet run item => Sys2Proof.Machine.execBiasSet run item s
  | .biasChangeEffect run item => Sys2Proof.Machine.execBiasChangeEffect run item s
  | .accountRead run item => Sys2Proof.Machine.execAccountRead run item s
  | .contextStart run item => Sys2Proof.Machine.execContextStart run item s
  | .contextTeardown run item now => Sys2Proof.Machine.execContextTeardown run item now s
  | .cueBoundary now => Sys2Proof.Machine.execCueBoundary now s
  | .cueMessage port msg now => Sys2Proof.Machine.execCueMessage port msg now s
  | .cueMiss offset now => Sys2Proof.Machine.execCueMiss offset now s
  | .standbyEmit now => Sys2Proof.Machine.execStandbyEmit now s
  | .cueSwitchReq value => Sys2Proof.Machine.execCueSwitchReq value s
  | .slotMidpoint => Sys2Proof.Machine.execSlotMidpoint s
  | .deadlineDecision ring now => Sys2Proof.Machine.execDeadlineDecision ring now s
  | .fallbackStepComplete ring now => Sys2Proof.Machine.execFallbackStepComplete ring now s
  | .partOpCeiling part value => Sys2Proof.Machine.execPartOpCeiling part value s
  | .mmWs run item laneFault => Sys2Proof.Machine.execMmWs run item laneFault s
  | .mmWsT run item laneFault => Sys2Proof.Machine.execMmWsT run item laneFault s
  | .mmOs run item laneFault => Sys2Proof.Machine.execMmOs run item laneFault s
  | .splitSum run item => Sys2Proof.Machine.execSplitSum run item s
  | .pairRefresh run item => Sys2Proof.Machine.execPairRefresh run item s
  | .attn run item laneFault => Sys2Proof.Machine.execAttn run item laneFault s
  | .kvAppend run item => Sys2Proof.Machine.execKvAppend run item s
  | .seqJoin run item => Sys2Proof.Machine.execSeqJoin run item s
  | .seqLeave run item => Sys2Proof.Machine.execSeqLeave run item s
  | .seqReserve run item => Sys2Proof.Machine.execSeqReserve run item s
  | .pageShare run item => Sys2Proof.Machine.execPageShare run item s
  | .biasLoad run item => Sys2Proof.Machine.execBiasLoad run item s
  | .vprog run item => Sys2Proof.Machine.execVprog run item s
  | .rmsnorm run item => Sys2Proof.Machine.execRmsnorm run item s
  | .softmaxRow run item => Sys2Proof.Machine.execSoftmaxRow run item s
  | .attnMerge run item => Sys2Proof.Machine.execAttnMerge run item s
  | .quant run item => Sys2Proof.Machine.execQuant run item s
  | .dequant run item => Sys2Proof.Machine.execDequant run item s
  | .fnLoad run item => Sys2Proof.Machine.execFnLoad run item s
  | .fnLoadResume tile => Sys2Proof.Machine.execFnLoadResume tile s
  | .convolve run item laneFault => Sys2Proof.Machine.execConvolve run item laneFault s
  | .convPatch run item => Sys2Proof.Machine.execConvPatch run item s
  | .poolWindows run item => Sys2Proof.Machine.execPoolWindows run item s
  | .boxDecode run item => Sys2Proof.Machine.execBoxDecode run item s
  | .boxNms run item => Sys2Proof.Machine.execBoxNms run item s
  | .grantGranules run item => Sys2Proof.Machine.execGrantGranules run item s
  | .releaseGranules run item => Sys2Proof.Machine.execReleaseGranules run item s
  | .tileMove run item => Sys2Proof.Machine.execTileMove run item s
  | .tileFill run item => Sys2Proof.Machine.execTileFill run item s
  | .quotaRead run item => Sys2Proof.Machine.execQuotaRead run item s
  | .stackTempRead readings now => Sys2Proof.Machine.execStackTempRead readings now s
  | .laneRemap stack pc lane => Sys2Proof.Machine.execLaneRemap stack pc lane s
  | .scrubPatrol tier line found now => Sys2Proof.Machine.execScrubPatrol tier line found now s
  | .sramSweep word found now => Sys2Proof.Machine.execSramSweep word found now s
  | .flTrim run item => Sys2Proof.Machine.execFlTrim run item s
  | .flHealth run item => Sys2Proof.Machine.execFlHealth run item s
  | .pbRead run item => Sys2Proof.Machine.execPbRead run item s
  | .pbWrite run item => Sys2Proof.Machine.execPbWrite run item s
  | .flashMapCommit run item => Sys2Proof.Machine.execFlashMapCommit run item s
  | .flashMaintenance work => Sys2Proof.Machine.execFlashMaintenance work s
  | .holdupFrame bits stop now => Sys2Proof.Machine.execHoldupFrame bits stop now s
  | .holdupStale now => Sys2Proof.Machine.execHoldupStale now s
  | .pwrFail => Sys2Proof.Machine.execPwrFail s
  | .flashQuiesced now => Sys2Proof.Machine.execFlashQuiesced now s
  | .pwrFailClear => Sys2Proof.Machine.execPwrFailClear s
  | .decAu run item => Sys2Proof.Machine.execDecAu run item s
  | .encPicture run item => Sys2Proof.Machine.execEncPicture run item s
  | .encBlockRow run item => Sys2Proof.Machine.execEncBlockRow run item s
  | .sliceEmit run item => Sys2Proof.Machine.execSliceEmit run item s
  | .feedStart run item => Sys2Proof.Machine.execFeedStart run item s
  | .feedStop run item => Sys2Proof.Machine.execFeedStop run item s
  | .feedStatus run item => Sys2Proof.Machine.execFeedStatus run item s
  | .permMap run item => Sys2Proof.Machine.execPermMap run item s
  | .feedEnginesHeld feed => Sys2Proof.Machine.execFeedEnginesHeld feed s
  | .clipAssign feed => Sys2Proof.Machine.execClipAssign feed s
  | .clipDone feed clip => Sys2Proof.Machine.execClipDone feed clip s
  | .batchDeliver feed => Sys2Proof.Machine.execBatchDeliver feed s
  | .portEnable port value => Sys2Proof.Machine.execPortEnable port value s
  | .flitReceive port flit now => Sys2Proof.Machine.execFlitReceive port flit now s
  | .ackTimer port => Sys2Proof.Machine.execAckTimer port s
  | .portRetrain port now => Sys2Proof.Machine.execPortRetrain port now s
  | .portTrained port peer now => Sys2Proof.Machine.execPortTrained port peer now s
  | .portDown port now => Sys2Proof.Machine.execPortDown port now s
  | .laneDegrade port lane now => Sys2Proof.Machine.execLaneDegrade port lane now s
  | .degradeComplete port => Sys2Proof.Machine.execDegradeComplete port s
  | .rewidenRequest port value => Sys2Proof.Machine.execRewidenRequest port value s
  | .rewidenRetrain port allPass => Sys2Proof.Machine.execRewidenRetrain port allPass s
  | .echoTimer port now => Sys2Proof.Machine.execEchoTimer port now s
  | .echoRequest port pkt now sendAt => Sys2Proof.Machine.execEchoRequest port pkt now sendAt s
  | .echoReply port pkt now => Sys2Proof.Machine.execEchoReply port pkt now s
  | .readRequest pkt now => Sys2Proof.Machine.execReadRequest pkt now s
  | .writeRequest pkt now => Sys2Proof.Machine.execWriteRequest pkt now s
  | .atomicRequest pkt now => Sys2Proof.Machine.execAtomicRequest pkt now s
  | .bulkReadRequest pkt now => Sys2Proof.Machine.execBulkReadRequest pkt now s
  | .bulkWriteRequest pkt now => Sys2Proof.Machine.execBulkWriteRequest pkt now s
  | .readData pkt => Sys2Proof.Machine.execReadData pkt s
  | .writeAck pkt => Sys2Proof.Machine.execWriteAck pkt s
  | .atomicResult pkt => Sys2Proof.Machine.execAtomicResult pkt s
  | .errorResponse pkt now => Sys2Proof.Machine.execErrorResponse pkt now s
  | .detachedNotice port pkt now => Sys2Proof.Machine.execDetachedNotice port pkt now s
  | .memberLostMessage port pkt now => Sys2Proof.Machine.execMemberLostMessage port pkt now s
  | .stopMessage port pkt => Sys2Proof.Machine.execStopMessage port pkt s
  | .drainMessage pkt => Sys2Proof.Machine.execDrainMessage pkt s
  | .drainReturn pkt => Sys2Proof.Machine.execDrainReturn pkt s
  | .teardownMessage pkt now => Sys2Proof.Machine.execTeardownMessage pkt now s
  | .routePatchMessage port pkt => Sys2Proof.Machine.execRoutePatchMessage port pkt s
  | .packetAged pkt now => Sys2Proof.Machine.execPacketAged pkt now s
  | .responseTimeout tag now => Sys2Proof.Machine.execResponseTimeout tag now s
  | .fabCopy run item now => Sys2Proof.Machine.execFabCopy run item now s
  | .fabAtomic run item now => Sys2Proof.Machine.execFabAtomic run item now s
  | .fabPut run item now => Sys2Proof.Machine.execFabPut run item now s
  | .fabFence run item now => Sys2Proof.Machine.execFabFence run item now s
  | .fabStop run item now => Sys2Proof.Machine.execFabStop run item now s
  | .routePatch run item now => Sys2Proof.Machine.execRoutePatch run item now s
  | .fenceDrainDone src drain => Sys2Proof.Machine.execFenceDrainDone src drain s
  | .teardownDrainDone context now => Sys2Proof.Machine.execTeardownDrainDone context now s
  | .teardownReusePoint context now => Sys2Proof.Machine.execTeardownReusePoint context now s
  | .rsHalf run item now => Sys2Proof.Machine.execRsHalf run item now s
  | .agHalf run item now => Sys2Proof.Machine.execAgHalf run item now s
  | .bcastHalf run item now => Sys2Proof.Machine.execBcastHalf run item now s
  | .barrierHalf run item now => Sys2Proof.Machine.execBarrierHalf run item now s
  | .gradReduce run item now => Sys2Proof.Machine.execGradReduce run item now s
  | .mirrorState run item now => Sys2Proof.Machine.execMirrorState run item now s
  | .restoreMirror run item now => Sys2Proof.Machine.execRestoreMirror run item now s
  | .collectivePacket pkt => Sys2Proof.Machine.execCollectivePacket pkt s
  | .halfWaitTimeout run item => Sys2Proof.Machine.execHalfWaitTimeout run item s
  | .understudyTakeover lost entry now => Sys2Proof.Machine.execUnderstudyTakeover lost entry now s
  | .watchdogExpiry now => Sys2Proof.Machine.execWatchdogExpiry now s
  | .stageManagerRestarted now => Sys2Proof.Machine.execStageManagerRestarted now s
  | .engineRecoveryTimeout engine now => Sys2Proof.Machine.execEngineRecoveryTimeout engine now s
  | .engineResetDone engine => Sys2Proof.Machine.execEngineResetDone engine s
  | .engineResetTimeout engine now => Sys2Proof.Machine.execEngineResetTimeout engine now s
  | .coppiceComplete part now => Sys2Proof.Machine.execCoppiceComplete part now s
  | .stackFillDone stack => Sys2Proof.Machine.execStackFillDone stack s
  | .curtainDrained => Sys2Proof.Machine.execCurtainDrained s
  | .coppiceReq value now => Sys2Proof.Machine.execCoppiceReq value now s
  | .registerScan upsets tagOk now => Sys2Proof.Machine.execRegisterScan upsets tagOk now s
  | .selftestReq value => Sys2Proof.Machine.execSelftestReq value s
  | .selftestStart tile now => Sys2Proof.Machine.execSelftestStart tile now s
  | .selftestDone tile pass now => Sys2Proof.Machine.execSelftestDone tile pass now s
  | .poweredTimeSave now => Sys2Proof.Machine.execPoweredTimeSave now s
  | .hourlySummary now => Sys2Proof.Machine.execHourlySummary now s
  | .calibrationStall resource => Sys2Proof.Machine.execCalibrationStall resource s
  | .getChallenge path now => Sys2Proof.Machine.execGetChallenge path now s
  | .debugLock path => Sys2Proof.Machine.execDebugLock path s
  | .fwUpdate path => Sys2Proof.Machine.execFwUpdate path s
  | .debugTrace path now => Sys2Proof.Machine.execDebugTrace path now s
  | .debugInvasive path now => Sys2Proof.Machine.execDebugInvasive path now s
  | .enrollOwner path now => Sys2Proof.Machine.execEnrollOwner path now s
  | .enterService path now => Sys2Proof.Machine.execEnterService path now s
  | .returnToken path now => Sys2Proof.Machine.execReturnToken path now s
  | .ownerRelease path now => Sys2Proof.Machine.execOwnerRelease path now s
  | .retireToken path now => Sys2Proof.Machine.execRetireToken path now s
  | .clearCurtain path now => Sys2Proof.Machine.execClearCurtain path now s
  | .lifecycleReset now => Sys2Proof.Machine.execLifecycleReset now s
  | .nonceExpiry now => Sys2Proof.Machine.execNonceExpiry now s
  | .debugExpiry now => Sys2Proof.Machine.execDebugExpiry now s
  | .tapTestMode ir => Sys2Proof.Machine.execTapTestMode ir s
  | .tapTestExit now => Sys2Proof.Machine.execTapTestExit now s
  | .tapReset => Sys2Proof.Machine.execTapReset s
  | .getVersion spdm => Sys2Proof.Machine.execGetVersion spdm s
  | .getCapabilities spdm => Sys2Proof.Machine.execGetCapabilities spdm s
  | .negotiateAlgorithms spdm => Sys2Proof.Machine.execNegotiateAlgorithms spdm s
  | .getDigests spdm => Sys2Proof.Machine.execGetDigests spdm s
  | .getCertificate spdm => Sys2Proof.Machine.execGetCertificate spdm s
  | .spdmChallenge spdm => Sys2Proof.Machine.execSpdmChallenge spdm s
  | .getMeasurements spdm => Sys2Proof.Machine.execGetMeasurements spdm s
  | .keyExchange spdm => Sys2Proof.Machine.execKeyExchange spdm s
  | .finishSession spdm => Sys2Proof.Machine.execFinishSession spdm s
  | .heartbeatRequest spdm => Sys2Proof.Machine.execHeartbeatRequest spdm s
  | .keyUpdate spdm => Sys2Proof.Machine.execKeyUpdate spdm s
  | .endSession spdm => Sys2Proof.Machine.execEndSession spdm s
  | .chunkSend spdm => Sys2Proof.Machine.execChunkSend spdm s
  | .chunkGet spdm => Sys2Proof.Machine.execChunkGet spdm s
  | .vendorDefinedRequest spdm stream => Sys2Proof.Machine.execVendorDefinedRequest spdm stream s
  | .ideIntegrityFailure stream => Sys2Proof.Machine.execIdeIntegrityFailure stream s
  | .pwrTargetFull => Sys2Proof.Machine.execPwrTargetFull s
  | .pwrTargetDark => Sys2Proof.Machine.execPwrTargetDark s
  | .pwrTargetGhostLight => Sys2Proof.Machine.execPwrTargetGhostLight s
  | .dimIdleExpiry now => Sys2Proof.Machine.execDimIdleExpiry now s
  | .powerTransitionDone now => Sys2Proof.Machine.execPowerTransitionDone now s
  | .darkEntryTimeout now => Sys2Proof.Machine.execDarkEntryTimeout now s
  | .junctionTempRead readings => Sys2Proof.Machine.execJunctionTempRead readings s
  | .rstNAssert lowNs => Sys2Proof.Machine.execRstNAssert lowNs s
  | .bringUp found now => Sys2Proof.Machine.execBringUp found now s
  | .hostPortRelease now => Sys2Proof.Machine.execHostPortRelease now s
  | .flashReady journalOk => Sys2Proof.Machine.execFlashReady journalOk s
  | .deviceReset path key => Sys2Proof.Machine.execDeviceReset path key s
  | .apertureRead off size => Sys2Proof.Machine.execApertureRead off size s
  | .apertureWrite off size data => Sys2Proof.Machine.execApertureWrite off size data s
  | .powerRemoval => Sys2Proof.Machine.execPowerRemoval s
  | .reservedPacketType pkt => Sys2Proof.Machine.execReservedPacketType pkt s
  | .debugPortWrite addr data => Sys2Proof.Machine.execDebugPortWrite addr data s

end Sys2Proof.Machine
end

