-- ==== Sys2Proof/Safety.lean ====
section
/-! DEFINITION. What counts as a sound state, and how an item's end is seen, in the terms that claims use. -/
namespace Sys2Proof.Machine

/-- Device memory and SRAM in canonical form: keys strictly rising, no listed byte equal to what an unlisted one reads as. -/
abbrev Mem.wf (m : Mem) : Prop := cellWf (0 : Byte) m.dev = true ∧ cellWf (0 : Byte) m.sram = true

/-- Every memory of the part in canonical form: device memory, SRAM, the granule owner table and the flash, so that equal
memories are equal data. -/
def State.Canonical (s : State) : Prop :=
  s.mem.wf ∧ cellWf 0 s.mem.owners = true ∧ cellWf (0 : Byte) s.flash.cells = true

/-- An item as its run holds it. -/
def State.itemOf (s : State) (run item : Nat) : Option Item := (s.findRun run).bind fun r => r.item item

/-- Unstarted, running, waiting for acknowledgements, or ended with a status and DETAIL. -/
def State.phaseOf (s : State) (run item : Nat) : Option ItemPhase := (s.itemOf run item).map Item.phase

/-- No function table load of this item is under way (R216). -/
def State.notLoader (s : State) (run item : Nat) : Prop := ∀ x, s.fn.loading = some x → ¬(x.1 = run ∧ x.2.1 = item)

/-- `t` is `u` with one item ended: its status, DETAIL and cycles (R61, R67, R71), its requests and what waited on its
behalf given up (R434), and nothing else changed. The codec classes release their stream block as well, and are not meant
here. -/
structure ItemEnds (u t : State) (run item status detail base : Nat) : Prop where
  phase : t.phaseOf run item = some (.ended status detail)
  cycles : (t.itemOf run item).map Item.cycles = some (u.cyclesOf base)
  others : ∀ r i, r ≠ run ∨ i ≠ item → t.itemOf r i = u.itemOf r i
  regs : u.notLoader run item → t.regs = u.regs ∧ t.fn = u.fn
  host : t.host = { u.host with biasChanges := t.host.biasChanges }
  fab : t.fab = { u.fab with requests := t.fab.requests, fences := t.fab.fences, patches := t.fab.patches }
  flash : t.flash = { u.flash with programs := t.flash.programs, trims := t.flash.trims }
  coll : t.coll = { u.coll with halves := t.coll.halves, ended := t.coll.ended }
  mem : t.mem = u.mem
  rings : t.rings = u.rings
  cue : t.cue = u.cue
  sched : t.sched = u.sched
  accounts : t.accounts = u.accounts
  book : t.book = u.book
  rel : t.rel = u.rel
  sec : t.sec = u.sec
  power : t.power = u.power
  boot : t.boot = u.boot
  bias : t.bias = u.bias
  media : t.media = u.media
  outs : t.outs = u.outs
  pending : t.pending = u.pending
  now : t.now = u.now

/-- `len` bytes at a global address lie in this member's HBM or LPDDR and can be read: the range is populated, its stack is
not out of reach, and no unit that it meets is uncorrectable (R23, R29, R30, R261). -/
def State.ReadableHere (s : State) (a len : Nat) : Prop :=
  a / 2 ^ 57 = 0 ∧ addrTier a < 2 ∧ s.isOwn (addrMember a) = true ∧ s.populated (addrTier a) (addrOff a) len = true ∧
    s.devShut (addrKey a) = false ∧ s.devBad (addrKey a) len = false

/-- The same for a write, which may cover uncorrectable units as a whole (R262). -/
def State.WritableHere (s : State) (a len : Nat) : Prop :=
  a / 2 ^ 57 = 0 ∧ addrTier a < 2 ∧ s.isOwn (addrMember a) = true ∧ s.populated (addrTier a) (addrOff a) len = true ∧
    s.devShut (addrKey a) = false ∧ s.devPartBad (addrKey a) len = false

/-- What reading `len` bytes at a global address of this member leaves: what the codes of the memory counted and logged (R256
to R265). -/
def State.afterRead (s : State) (e : ItemEnv) (a len : Nat) : State :=
  if len = 0 then s else s.meetCells (e.source s 0) (addrKey a) len

/-- A piece of an item's work goes well on a state: it answers `a` and leaves `t`. -/
def ItemM.Gives {α : Type} (m : ItemM α) (e : ItemEnv) (s : State) (a : α) (t : State) : Prop := m.on e s = (.ok a, t)

/-- The same for an item that reports `v` rows, or Table 4.9 where it writes a packed line or an MX format (`prec`):
OK_DEGRADED if it denied a line (R129, R130, R155). -/
def RowsEnd (u t : State) (run item : Nat) (prec : Bool) (v cycles : Nat) : Prop :=
  ∃ x, u.itemOf run item = some x ∧
    ItemEnds u t run item (if x.prec.denied = 0 then stOk else stDegraded) (if prec then x.prec.detail else v) cycles

/-- The item that a run works on is there, open, and waits for no acknowledgement, and the run holds its descriptor. -/
structure State.CanEnd (u : State) (run item : Nat) (r : Run) : Prop where
  isOpen : u.itemOpen run item = true
  quiet : u.waitsAck run item = false
  same : ∀ q, u.findRun run = some q → q.desc = r.desc

end Sys2Proof.Machine
end

