-- ==== Sys2Proof/Certificates/Slice0/Obligations.lean ====
section
/-! DEFINITION. The statements for the provers. -/

open Sys2Proof Sys2Proof.Machine

/- ## The queue, and what holds of every command -/

/-- A step carries out the command at the front of the queue on the state with the rest of the queue.

With no command waiting the block idles (log entry 17: the model's choice). -/
def Obligations.StepRunsFront : Prop :=
  (∀ (s : State) (c : Instr) (rest : List Instr),
    step { s with pending := c :: rest } = exec c { s with pending := rest }) ∧
  (∀ s : State, s.pending = [] → step s = .next s)

/-- From every state whose memories are canonical, every step leaves them so. -/
def Obligations.StepKeepsCanonical : Prop := ∀ s t : State, s.Canonical → step s = .next t → t.Canonical

/-- The memories of the machine after reset are canonical, and nothing waits.

R39, R478, R513, R515 to R518: a device reset by any path gives every register but the two of the unit's identification its
reset value: the values of Tables 19.2 to 19.5, 0 for every other; the queue is left as it is. -/
def Obligations.ResetLeavesItsValues : Prop :=
  (State.reset.Canonical ∧ State.reset.pending = []) ∧
  ((∀ off, State.reset.reg off = regReset off) ∧
  regReset rCueCtrl = 1000 ∧ (∀ n, n < 256 → regReset (rRingTimeout n) = 0x01002710 ∧ regReset (rRingCtrl n) = 0) ∧
  (∀ n, n < 64 → regReset (rCtxCtrl n) = 0) ∧ regReset rBootStatus = 0 ∧ regReset rSealStatus = 0 ∧
  State.reset.isSealed = false ∧
  ∀ (s : State) (c : Instr),
    (∃ lowNs, 10000 ≤ lowNs ∧ s.boot.tripped = false ∧ c = .rstNAssert lowNs) ∨ (s.inReset = false ∧ s.rel.smUp = true ∧ c = .deviceReset .mctp 0xD1E50FF0) ∨
      (s.boot.tripped = false ∧ ∃ ir, c = .tapTestMode ir) ∨ c = .powerRemoval →
    ∃ t, exec c s = .next t ∧ t.pending = s.pending ∧ ∀ off, off ≠ rIdPart → off ≠ rIdSerial → t.reg off = regReset off)

/-- Every command answers a next state, from every state whose memories are canonical, and none touches the queue of the commands
that wait behind it. (That none faults or is refused is the model's own totality; log entry 16 says what one that does not apply
does.) -/
def Obligations.ExecAnswersAndKeepsQueue : Prop :=
  ∀ (c : Instr) (s : State), s.Canonical → ∃ t, exec c s = .next t ∧ t.pending = s.pending

/-- R305: no command takes a monotonic counter of 32 bits back, and one at 0xFFFF_FFFF stays there.

R430: the sequence number of the fault history never goes back, whatever is commanded, resets and power removal among
it. -/
def Obligations.RecordsNeverGoBack : Prop :=
  (∀ (c : Instr) (s t : State) (n : Nat), s.Canonical → exec c s = .next t →
    min (s.counter n) (2 ^ 32 - 1) ≤ t.counter n) ∧
  (∀ (c : Instr) (s t : State), s.Canonical → exec c s = .next t → s.book.historySeq ≤ t.book.historySeq)

/-- Device memory: a write reads back, and every byte outside what it wrote reads as before. -/
def Obligations.DeviceMemoryReadsBack : Prop :=
  ∀ (s : State) (key : Nat) (bs : List Byte),
    (s.devWrite key bs).devRead key bs.length = bs ∧
    ∀ k, k < key ∨ key + bs.length ≤ k → (s.devWrite key bs).devRead k 1 = s.devRead k 1

/- ## The control class (Table 2.11) -/

/-- R60: `NOP` with every payload byte zero ends OK and changes nothing else.

R60, R105: `ACCOUNT_READ` stores the 256 bytes of one context's accounting block at the address it names.

R60, R105: on a managed ring, `CONTEXT_START` makes an enabled context whose teardown does not run runnable and zeroes its
accounting block. -/
def Obligations.ControlItemsEnd : Prop :=
  (∀ (s : State) (run item : Nat) (r : Run),
    s.itemReady 0 0 run item = some r → leAt r.desc.bytes 32 96 = 0 → s.waitsAck run item = false →
    ∃ t, exec (.controlNop run item) s = .next t ∧ ItemEnds (s.beginItem run item) t run item stOk 0 0) ∧
  (∀ (s : State) (run item c a : Nat) (r : Run),
    s.itemReady 0 5 run item = some r → c = leAt r.desc.bytes 32 1 → a = leAt r.desc.bytes 40 8 → c < 64 →
    leAt r.desc.bytes 33 7 = 0 → leAt r.desc.bytes 48 80 = 0 → s.waitsAck run item = false → s.WritableHere a 256 →
    ∃ t, exec (.accountRead run item) s = .next t ∧
      ItemEnds ((s.beginItem run item).devWrite (addrKey a) ((s.account c).bytes s.cueNo)) t run item stOk 0 0) ∧
  (∀ (s : State) (run item c : Nat) (r : Run),
    s.itemReady 0 6 run item = some r → c = leAt r.desc.bytes 32 1 → c < 64 → leAt r.desc.bytes 33 95 = 0 →
    s.waitsAck run item = false → s.managed r.desc.ring = true → s.flag (ctxCtrlEn c) = true →
    s.flag (ctxFabricTearing c) = false →
    ∃ t, exec (.contextStart run item) s = .next t ∧
      ItemEnds ((s.beginItem run item).startContext c) t run item stOk 0 0 ∧
      c ∈ t.sched.runnable ∧ c ∉ t.sched.torn ∧ t.account c = Account.init)

/-- R59, R60: `FENCE_SIGNAL` adds its increment to the counter modulo 2^16 and keeps poison; `FENCE_RESET` stores a value and
clears poison. The four bytes of the fence word are all that is stored, and the store wakes a Dimmed device.

R60: `HOST_COPY` reads one 32-byte entry of its list and copies between host memory and this member's memory: the bytes
that host memory answered are stored, or the bytes of device memory are sent to the host. The reads meet the codes of the
memory, which may correct and log (`afterRead`). -/
def Obligations.FencesAndHostCopiesEnd : Prop :=
  (∀ (s : State) (run item i v : Nat) (r : Run),
    i = leAt r.desc.bytes 32 2 → v = leAt r.desc.bytes 34 2 → i < 4096 → leAt r.desc.bytes 36 92 = 0 →
    s.waitsAck run item = false → s.devShut (s.fenceKey r.ctx i) = false →
    s.devPartBad (s.fenceKey r.ctx i) 4 = false →
    (s.itemReady 0 1 run item = some r →
      ∃ t, exec (.fenceSignal run item) s = .next t ∧
        ItemEnds (((s.beginItem run item).devWrite (s.fenceKey r.ctx i)
          (leBytes 4 ((s.fenceWord r.ctx i % 65536 + v) % 65536 +
            (if bit (s.fenceWord r.ctx i) 16 then 65536 else 0)))).wakeDimmed) t run item stOk 0 0) ∧
    (s.itemReady 0 2 run item = some r →
      ∃ t, exec (.fenceReset run item) s = .next t ∧
        ItemEnds (((s.beginItem run item).devWrite (s.fenceKey r.ctx i) (leBytes 4 v)).wakeDimmed) t run item stOk 0 0)) ∧
  (∀ (s s1 : State) (run item a : Nat) (r : Run) (ent bs : List Byte),
    s.itemReady 0 3 run item = some r → leAt r.desc.bytes 40 88 = 0 → a = leAt r.desc.bytes 32 8 + 32 * item →
    s.ReadableHere a 32 → ent = s.devRead (addrKey a) 32 → s1 = (s.beginItem run item).afterRead (r.env s item) a 32 →
    s1.host.up = true → s1.host.released = true → (s1.ideRequired = false ∨ s1.ideUp = true) →
    leAt ent 16 4 % 64 = 0 → leAt ent 16 4 ≤ 2 ^ 30 → leAt ent 21 11 = 0 → bs.length = leAt ent 16 4 →
    (leAt ent 20 1 = 0 → s1.WritableHere (leAt ent 8 8) bs.length → s1.CanEnd run item r →
      ∃ t, exec (.hostCopy run item (some bs)) s = .next t ∧
        ItemEnds (s1.devWrite (addrKey (leAt ent 8 8)) bs) t run item stOk 0 0) ∧
    (leAt ent 20 1 = 1 → s1.ReadableHere (leAt ent 8 8) bs.length → bs = s1.devRead (addrKey (leAt ent 8 8)) bs.length →
      (s1.afterRead (r.env s item) (leAt ent 8 8) bs.length).CanEnd run item r →
      ∃ t, exec (.hostCopy run item none) s = .next t ∧
        ItemEnds ((s1.afterRead (r.env s item) (leAt ent 8 8) bs.length).emit (.hostWrite (leAt ent 0 8) bs)) t run item
          stOk 0 0))

/-- R37: `BIAS_SET` with a range of regions inside the window asks for the change and goes on; when the accesses in flight have
completed, `BIAS_CHANGE_EFFECT` sets the bias of those regions and ends the item. -/
def Obligations.BiasChangesWhenAccessesComplete : Prop :=
  (∀ (s : State) (run item off n dev : Nat) (r : Run),
    s.itemReady 0 4 run item = some r → off = leAt r.desc.bytes 32 8 → n = leAt r.desc.bytes 40 4 →
    dev = leAt r.desc.bytes 44 1 → leAt r.desc.bytes 45 83 = 0 → s.host.cxl = true → dev < 2 → off % 2 ^ 21 = 0 → n ≠ 0 →
    off + n * 2 ^ 21 ≤ s.fld cxlmemSizeSize * 2 ^ 32 →
    exec (.biasSet run item) s = .next
      { s.beginItem run item with host := { s.host with
          biasChanges := s.host.biasChanges.filter (fun c => !(c.run == run && c.item == item)) ++
            [{ run := run, item := item, first := off / 2 ^ 21, count := n, device := decide (dev = 1) }] } }) ∧
  (∀ (s : State) (run item : Nat) (c : BiasChange) (r : Run),
    s.host.biasChanges.find? (fun c => c.run == run && c.item == item) = some c → s.findRun run = some r →
    hdrClass r.desc.bytes = 0 → s.itemOpen run item = true → s.waitsAck run item = false →
    ∃ t u, exec (.biasChangeEffect run item) s = .next t ∧ ItemEnds u t run item stOk 0 0 ∧
      u = { s with host := { s.host with
        biasChanges := s.host.biasChanges.filter fun d => !(d.run == run && d.item == item)
        deviceBias := u.host.deviceBias } } ∧
      (∀ g, c.first ≤ g ∧ g < c.first + c.count → (g ∈ u.host.deviceBias ↔ c.device = true)) ∧
      (∀ g, ¬(c.first ≤ g ∧ g < c.first + c.count) → (g ∈ u.host.deviceBias ↔ g ∈ s.host.deviceBias)))

/- ## Rings, descriptors and completion (02_host_and_rings.md) -/

/-- R48: a doorbell line whose two indices pass their checks, and whose cancel mark has not moved, gives the ring its producer
index and its completion consumer index, wakes a Dimmed device and changes nothing else; `DOORBELL_WAKE` reads a device-resident
line from memory, `DOORBELL_POLL` brings a host-resident one in PCIe operation.

R48: a producer index that fails its check is not taken: the ring keeps its indices, the value counts once in the status
line's ignored updates, and a device event follows at most once in a cue. -/
def Obligations.DoorbellTakesIndices : Prop :=
  (∀ (s w : State) (n : Nat) (l : DoorbellLine),
    w = s.wakeDimmed → s.ringLive n = true → s.isFallbackRing n = false → s.powerState < 2 →
    (w.ring n).prodOk (w.sqSize n) l.prod = true → (w.ring n).consOk (w.cqSize n) l.cons = true →
    l.cancel = (w.ring n).cancel →
    (∀ given, s.ringDevice n = true → s.readLine n = some l →
      exec (.doorbellWake n given) s = .next (w.setRing n { w.ring n with prod := l.prod, cqCons := l.cons })) ∧
    (s.ringDevice n = false → s.host.cxl = false → s.host.up = true →
      exec (.doorbellPoll [(n, some l)]) s = .next (w.setRing n { w.ring n with prod := l.prod, cqCons := l.cons }))) ∧
  (∀ (s w : State) (n : Nat) (l : DoorbellLine) (given : Option DoorbellLine),
    w = s.wakeDimmed → s.ringLive n = true → s.isFallbackRing n = false → s.powerState < 2 → s.ringDevice n = true →
    s.readLine n = some l → (w.ring n).prodOk (w.sqSize n) l.prod = false → (w.ring n).consOk (w.cqSize n) l.cons = true →
    l.prod ∉ (w.ring n).badProd → l.cancel = (w.ring n).cancel →
    exec (.doorbellWake n given) s = .next
      ((w.setRing n { w.ring n with
          badProd := (w.ring n).badProd ++ [l.prod], ignored := satAdd 32 (w.ring n).ignored 1, cqCons := l.cons }).ringEvent n 0))

/-- R46: `DESCRIPTOR_FETCH` on a device-resident ring whose producer is ahead reads the 128 bytes in the slot of the consumer
index, appends them to what waits, and advances the consumer index by one; no run is begun. -/
def Obligations.FetchTakesNextSlot : Prop :=
  ∀ (s w : State) (n now : Nat) (given : Option (List Byte)),
    w = s.tick now → w.mayFetch n = true → w.ringDevice n = true → (w.ring n).cons ≠ (w.ring n).prod →
    w.devShut (addrKey (w.reg (rRingSqBase n)) + 128 * ((w.ring n).cons.toNat % w.sqSize n)) = false →
    w.devBad (addrKey (w.reg (rRingSqBase n)) + 128 * ((w.ring n).cons.toNat % w.sqSize n)) 128 = false →
    ∃ t, exec (.descriptorFetch n given now) s = .next t ∧
      (t.ring n).cons = (w.ring n).cons + 1 ∧
      (t.ring n).fifo.map (fun f => f.bytes) = (w.ring n).fifo.map (fun f => f.bytes) ++
        [w.devRead (addrKey (w.reg (rRingSqBase n)) + 128 * ((w.ring n).cons.toNat % w.sqSize n)) 128] ∧
      t.runs.map (fun r => r.id) = w.runs.map (fun r => r.id) ∧ t.pending = s.pending

/-- R45, R88, R138: `DESCRIPTOR_DISPATCH` first dispatches the runs that wait for engines, as far as these are free. Then, if
the head of a ring is ready and it is the ring's turn, it is admitted: a new run of the descriptor holds every item it is to
run, unstarted as long as the run waits for its engines; the head leaves what waits. A head that has its verdict becomes a run
whose items have all ended with it. -/
def Obligations.DispatchBeginsRun : Prop :=
  ∀ (s w : State) (n now : Nat) (f : Fetched) (rest : List Fetched),
    w = ((s.tick now).wakeDimmed).dispatchRuns.noteHead n → (w.ring n).fifo = f :: rest → (w.ringRuns n).length < 32 →
    w.choiceOf f ≠ .fallback →
    (∀ x, w.ready n = some (f, x) →
      (∀ a, x = some a → w.turn n f a.1 = true) → (∀ r ∈ w.runs, r.id ≠ w.sched.nextRun) →
      ∃ t, exec (.descriptorDispatch n now) s = .next t ∧
        (∃ r ∈ t.runs, r.id = w.sched.nextRun ∧ r.desc = f ∧ r.items.map (fun x => x.index) = f.todo ∧
          (r.waiting = true → ∀ x ∈ r.items, x.phase = .unstarted)) ∧
        t.sched.nextRun = w.sched.nextRun + 1 ∧
        (t.ring n).fifo.map (fun f => f.bytes) = rest.map (fun f => f.bytes)) ∧
    (∀ st dt, f.verdict = some (st, dt) → w.roomFor n f.todo.length = true →
      ∃ t, exec (.descriptorDispatch n now) s = .next t ∧
        (∃ r ∈ t.runs, r.id = w.sched.nextRun ∧ r.desc = f ∧ r.items.map (fun x => x.index) = f.todo ∧
          ∀ x ∈ r.items, x.phase = .ended st dt) ∧
        (t.ring n).fifo.map (fun f => f.bytes) = rest.map (fun f => f.bytes))

/-- R58: `FENCE_WAIT_TIMEOUT` on a head whose fence-in has stayed unmet for FENCE_WAIT_CUES cues marks its every item TIMEOUT,
with the DETAIL of an item that never ran, and changes nothing else.

R61, R64: `DESCRIPTOR_TIMEOUT` ends TIMEOUT every unfinished item of the run whose time has run out: the run's timeout, at
1.75 GHz stretched by the operating points it ran at, and what the item waited for partners' packets. An item that ended
before is left as it is, one that ended at this very time with a status that Table 2.13 ranks later becomes TIMEOUT, and the
items of every other run are left alone.

R63, R102, Table 3.14: `PREEMPT` of the newest pre-emptible run of a group that a step predicted to miss lacks ends its
unstarted items PREEMPTED; its started items go on. Their charge counts as cover for the step, and nothing is refunded. -/
def Obligations.RunsCutShort : Prop :=
  (∀ (s : State) (n c : Nat) (f : Fetched) (rest : List Fetched),
    (s.ring n).fifo = f :: rest → f.verdict = none → s.fenceState f = .unmet → f.headCue = some c →
    c + s.fld (ringTimeoutFenceWaitCues n) ≤ s.cueNo →
    exec (.fenceWaitTimeout n) s =
      .next (s.setRing n { s.ring n with fifo := { f with verdict := some (verdictOn f.bytes (stTimeout, 0)) } :: rest })) ∧
  (∀ (s w : State) (run now : Nat) (r : Run), w = s.tick now → w.findRun run = some r →
    ∃ t, exec (.descriptorTimeout run now) s = .next t ∧
      (∀ i x, w.itemOf run i = some x → x.hasEnded = false → w.timeLimit r + x.partners ≤ r.used →
        ∃ dt, t.phaseOf run i = some (.ended stTimeout dt)) ∧
      (∀ i x, w.itemOf run i = some x → x.yields w.now stTimeout = true → w.timeLimit r + x.partners ≤ r.used →
        ∃ dt, t.phaseOf run i = some (.ended stTimeout dt)) ∧
      (∀ i, (∀ y ∈ r.items, y.index = i → r.used < w.timeLimit r + y.partners) → t.itemOf run i = w.itemOf run i) ∧
      (∀ i x, w.itemOf run i = some x → x.hasEnded = true → x.yields w.now stTimeout = false → t.itemOf run i = some x) ∧
      (∀ k i, k ≠ run → t.itemOf k i = w.itemOf k i) ∧ t.pending = s.pending) ∧
  (∀ (s w : State) (run now g : Nat) (r : Run),
    w = s.tick now → w.findRun run = some r → r.group = some g → w.blockingMode = false → w.sched.pastMid = true →
    w.preemptible r = true → w.lacks g = true → (∀ q ∈ w.runs, q.group = some g → w.preemptible q = true → q.id ≤ r.id) →
    ∃ t, exec (.preempt run now) s = .next t ∧
      (∀ i x, w.itemOf run i = some x → x.phase = .unstarted → ∃ dt, t.phaseOf run i = some (.ended stPreempted dt)) ∧
      (∀ i, (∀ q ∈ w.runs, q.id = run → ∀ y ∈ q.items, y.index = i →
        y.phase ≠ .unstarted ∧ y.yields w.now stPreempted = false) → t.itemOf run i = w.itemOf run i) ∧
      t.sched = { w.sched with freed := modifyAt (fun x => x + r.unstartedCharge) g w.sched.freed })

/-- R65, R66: once every item of a run has ended, `RUN_COMPLETE` writes a record for each item that is not OK, or for every
item where the descriptor asks for it, and then one summary, and the run is gone: the completion ring's producer advances by
that many, but for a host-resident ring whose host is lost, where the records are discarded (R38).

R70: when DELAY_US have passed since the first record that no interrupt has told of, the ring's status line is written, its
vector raised, and its count and timer start afresh. A device-resident line in a stack that is out of reach is lost (R520); a
host-resident one goes to host memory. -/
def Obligations.RecordsAndInterrupts : Prop :=
  (∀ (s w : State) (run now : Nat) (fails : List Nat) (r : Run),
    w = s.tick now → w.findRun run = some r → r.items.all Item.hasEnded = true →
    ∃ t, exec (.runComplete run fails now) s = .next t ∧ t.findRun run = none ∧ t.pending = s.pending ∧
      (w.ringDevice r.desc.ring = true ∨ w.host.lost = false →
        (t.ring r.desc.ring).cqProd = (w.ring r.desc.ring).cqProd + BitVec.ofNat 32 (r.recorded.length + 1)) ∧
      (w.ringDevice r.desc.ring = false → w.host.lost = true →
        (t.ring r.desc.ring).cqProd = (w.ring r.desc.ring).cqProd)) ∧
  (∀ (s w u : State) (n now t0 : Nat),
    w = s.tick now → w.signals n = true → w.fld (ringIrqDelayUs n) ≠ 0 → (w.ring n).firstRec = some t0 →
    t0 + 1000 * w.fld (ringIrqDelayUs n) ≤ w.now →
    u = (if w.ringDevice n then
        (if w.devShut (addrKey (w.reg (rRingStatusAddr n))) then w
          else w.devWrite (addrKey (w.reg (rRingStatusAddr n))) (w.ring n).statusLine)
      else w.emit (.hostWrite (w.reg (rRingStatusAddr n)) (w.ring n).statusLine)) →
    exec (.irqDelayExpiry n now) s = .next ((u.setRing n { w.ring n with sinceIrq := 0, firstRec := none }).raise n))

/- ## The deadline monitor (R92 to R95) -/

/-- R92: at the midpoint of a slot in deadline mode every unused reserve joins the pool of its group and is spent; nothing
else changes, and a second midpoint in the slot, or one in blocking mode, changes nothing.

R94, R95: `DEADLINE_DECISION` decides on the step at the head of a monitored ring once the step is fetched, or after
FENCE_WAIT_CUES. Without a fallback ring the step keeps its own program, with a device event where it is predicted late or its
predecessor was. With one, the program is read afresh, and the step takes it where its predecessor missed, or where it is
predicted late and its fallback earlier. `s1` is the state with the head's arrival noted.

`FALLBACK_STEP_COMPLETE` completes the step's own descriptors at the head once its fallback program has finished; a head that
is none of them, or finds no room for its records, stays. -/
def Obligations.DeadlineMonitorDecides : Prop :=
  (∀ s : State,
    (s.blockingMode = true ∨ s.sched.pastMid = true → exec .slotMidpoint s = .next s) ∧
    (s.blockingMode = false → s.sched.pastMid = false → exec .slotMidpoint s = .next
      { s with sched := { s.sched with
          pastMid := true
          pool := s.sched.pool.zipIdx.map fun (x, g) => x + (s.sched.allowances.map fun a => grp a.left g).sum
          allowances := s.sched.allowances.map fun a => { a with left := a.left.map fun _ => 0 } } })) ∧
  ((∀ (s s1 : State) (n now : Nat) (f : Fetched) (rest : List Fetched) (m : StepMon) (p : Option Nat),
    s1 = (s.tick now).noteHead n → (s1.ring n).fifo = f :: rest → s1.monitored n = true → s1.ringLive n = true →
    f.owner = none → (s1.ring n).stepOf f.index = some m → m.choice = .undecided →
    (m.last.isSome = true ∨ m.arrived + s1.fld (ringTimeoutFenceWaitCues n) ≤ s1.cueNo) →
    p = s1.predict n (s1.ringCtx n) m (s1.ownWaiting n m) →
    (s1.fallbackRing (s1.ringCtx n) = none → s1.late p (s1.deadline n m) = false → s1.predecessorMissed n m = false →
      exec (.deadlineDecision n now) s = .next (s1.takeProgram n m)) ∧
    (s1.fallbackRing (s1.ringCtx n) = none → s1.late p (s1.deadline n m) = true ∨ s1.predecessorMissed n m = true →
      exec (.deadlineDecision n now) s = .next (s1.takeProgram n m).event) ∧
    (∀ k u prog, s1.fallbackRing (s1.ringCtx n) = some k → s1.readProgram n k = (u, prog) →
      exec (.deadlineDecision n now) s = .next
        (if (s1.late p (s1.deadline n m) && earlier (s1.predict n (s1.ringCtx n) m prog) p) || s1.predecessorMissed n m
          then u.takeFallback n k m prog else u.takeProgram n m))) ∧
  (∀ (s w : State) (n now : Nat) (m : StepMon),
    w = s.tick now → (w.ring n).steps.find? (fun m => m.choice == .fallback && m.programLeft == 0) = some m →
    ((∀ f rest, (w.ring n).fifo = f :: rest →
        m.holds f.index = false ∨ f.owner.isSome = true ∨ w.roomFor n f.todo.length = false) →
      exec (.fallbackStepComplete n now) s = .next w) ∧
    (∀ f rest, (w.ring n).fifo = f :: rest → m.holds f.index = true → f.owner = none →
      w.roomFor n f.todo.length = true →
      (∀ g l, ((w.degradeHead n m f).ring n).fifo = g :: l →
        m.holds g.index = false ∨ g.owner.isSome = true ∨ (w.degradeHead n m f).roomFor n g.todo.length = false) →
      exec (.fallbackStepComplete n now) s = .next (w.degradeHead n m f))))

/- ## Host register, window, aperture and seal (R12, R32 to R41, R485, R510 to R514) -/

/-- R36, R37: the CXL.mem window. An access to a mapped, reachable line, whose region it returns to host bias, returns the data
of device memory, as the codes of the memory find it, or stores it; a write reads back through the window.

R35, R36: an access that no valid segment maps is counted; a read of it returns all-ones with poison and a write is
discarded.

R485: before the seal the setup aperture shows device memory from its base; after it, reads return zero and writes do
nothing. -/
def Obligations.HostWindowsServeMemory : Prop :=
  (∀ (s u v : State) (off len k : Nat) (data : List Byte),
    s.windowServes = true → s.windowKey off len = some k → s.hostShut k = false → data.length = len →
    u = s.touchBias off → v = u.devWrite k data →
    (u.devBad k len = false → exec (.hostWindowRead off len) s =
      .next ((u.meetCells u.hostSource k len).emit (.hostRead (u.devRead k len) false))) ∧
    (u.devBad k len = true → ∃ t, exec (.hostWindowRead off len) s = .next t ∧
      t.outs.head? = some (.hostRead (u.devRead k len) true)) ∧
    (u.devPartBad k len = false → exec (.hostWindowWrite off data) s = .next v ∧
      (v.devBad k len = false → exec (.hostWindowRead off len) v =
        .next ((v.meetCells v.hostSource k len).emit (.hostRead data false))))) ∧
  (∀ (s : State) (off len : Nat) (data : List Byte),
    s.windowServes = true → s.windowKey off len = none → data.length = len →
    exec (.hostWindowRead off len) s = .next
      ((s.bump cxlmemUnmappedCountCount).emit (.hostRead (List.replicate len 0xFF) true)) ∧
    exec (.hostWindowWrite off data) s = .next (s.bump cxlmemUnmappedCountCount)) ∧
  (∀ (s : State) (off size k : Nat) (data : List Byte),
    s.hostServes (0x100000 + off) = true → apertureSized off size = true → data.length = size →
    (s.isSealed = false → s.apertureKey off size = some k → s.hostShut k = false →
      (s.devBad k size = false → exec (.apertureRead off size) s =
        .next ((s.meetCells s.hostSource k size).emit (.hostRead (s.devRead k size) false))) ∧
      (s.devPartBad k size = false → exec (.apertureWrite off size data) s = .next (s.devWrite k data))) ∧
    (s.isSealed = true →
      exec (.apertureRead off size) s = .next (s.emit (.hostRead (List.replicate size 0) false)) ∧
      exec (.apertureWrite off size data) s = .next s))

/-- R12, R41, R511: a host write of a plain register of 4 bytes leaves in each field what its access code says: RW fields take
the value, RWL fields do so before the seal, RO fields keep theirs, WO fields hold nothing; no other register changes. After
the seal a write that would change an RWL field is a violation, counted with a device event.

R12, R41: of one field, by its access code, when a value is merged into a register of disjoint fields.

R511: a 4-byte host read of the lower half of a 64-bit register returns it and holds the upper half, and the next 4-byte
read of the upper half returns what was held, once. Any other aligned 4-byte read returns what stands there; one that is not
aligned reads all-ones. -/
def Obligations.RegistersFollowTheirAccess : Prop :=
  (∀ (s : State) (off : Nat) (v : BitVec 64) (r : RegRow),
    s.hostServes off = true → off % 4 = 0 → off < 0x9000 ∨ 0xA000 ≤ off → off < 0x30000 → regRowAt off = some r → r.size = 4 →
    off ∉ [rSetupSeal, rDeviceReset, rCueSwitchReq, rFabMember, rCoppiceReq, rSelftestReq, rSecCmd, rPwrCtrl] → portOfCtrl off = none →
    (s.isSealed && r.violates (s.reg off) v.toNat) = false → r.merged s.isSealed (s.reg off) v.toNat < 2 ^ 64 →
    ∃ t, exec (.registerWrite .host off 4 v) s = .next t ∧
      t.reg off = r.merged s.isSealed (s.reg off) v.toNat ∧ (∀ o, o ≠ off → t.reg o = s.reg o) ∧
      t.mem = s.mem ∧ t.rings = s.rings ∧ t.runs = s.runs ∧ t.outs = s.outs) ∧
  (∀ (r : RegRow) (f : FieldSpec) (old v : Nat) (isSealed : Bool),
    r.fields.Pairwise (fun a b => a.lo + a.w ≤ b.lo ∨ b.lo + b.w ≤ a.lo) → f ∈ r.fields →
    field (r.merged isSealed old v) f.lo f.w =
      if f.acc = .rw ∨ (f.acc = .rwl ∧ isSealed = false) then field v f.lo f.w else field old f.lo f.w) ∧
  (∀ (s : State) (off : Nat), s.hostServes off = true →
    (off % 4 ≠ 0 → exec (.registerHalfRead off) s = .next (s.emit (.hostRead (leBytes 4 0xFFFFFFFF) false))) ∧
    (off % 4 = 0 → isWide off = true → ∃ t, exec (.registerHalfRead off) s = .next t ∧
      t.outs = .hostRead (leBytes 4 (s.readReg off 4)) false :: s.outs ∧ t.regs.vals = s.regs.vals ∧
      cellFind off t.regs.latch = some (BitVec.ofNat 32 (s.readReg off 8 / 2 ^ 32))) ∧
    (∀ h, off % 4 = 0 → isWide off = false → regBase off ≠ off → cellFind (regBase off) s.regs.latch = some h →
      ∃ t, exec (.registerHalfRead off) s = .next t ∧ t.outs = .hostRead (leBytes 4 h.toNat) false :: s.outs ∧
        t.regs.vals = s.regs.vals ∧ cellFind (regBase off) t.regs.latch = none) ∧
    (off % 4 = 0 → isWide off = false → regBase off = off ∨ cellFind (regBase off) s.regs.latch = none →
      exec (.registerHalfRead off) s = .next (s.emit (.hostRead (s.hostLoad off 4) false))))

/-- R39: until `SETUP_SEAL` is written a host write gives every RWL field its value, a doorbell changes nothing, and no ring
fetches. Its key starts the seal checks: one that fails is recorded with its index, and with none the device is sealed, phase 6,
with every enabled context runnable (R40). Any other value has no effect. While the stage manager is down the checks wait for
it (R25). -/
def Obligations.SealGatesTheDevice : Prop :=
  ∀ s : State, s.isSealed = false →
    (∀ (off : Nat) (v : BitVec 64) (r : RegRow) (f : FieldSpec), s.hostServes off = true → regRowAt off = some r →
      f ∈ r.fields → f.acc = .rwl →
      ∃ t, exec (.registerWrite .host off r.size v) s = .next t ∧ t.fld ⟨off, f.lo, f.w⟩ = field v.toNat f.lo f.w) ∧
    (∀ n line lines, exec (.doorbellWake n line) s = .next s ∧ exec (.doorbellPoll lines) s = .next s) ∧
    (∀ n given now, exec (.descriptorFetch n given now) s = .next (s.tick now)) ∧
    (∀ key : BitVec 32, key ≠ 0x5EA15EA1 → exec (.setupSeal key) s = .next s) ∧
    (s.hostServes rSetupSeal = true → s.rel.smUp = false → exec (.setupSeal 0x5EA15EA1) s = .next (s.smLater .seal)) ∧
    (∀ s1 : State, s.hostServes rSetupSeal = true → s.rel.smUp = true → s.boot.sealBlocked = false →
      s.fld lcStatusState ≠ 4 → s1 = s.raiseFirmwareCounter →
      (∀ c n, s1.sealCheck = some (c, n) → c < 16 → n < 256 →
        ∃ t, exec (.setupSeal 0x5EA15EA1) s = .next t ∧ t.isSealed = false ∧ t.fld sealStatusCheck = c ∧
          t.fld sealStatusIndex = n ∧ t.mem = s.mem ∧ t.rings = s.rings) ∧
      (s1.sealCheck = none → exec (.setupSeal 0x5EA15EA1) s = .next s1.sealed ∧
        ((∀ n, n < 256 → s.ringEnabled n = true → s.ringDevice n = false) →
          s1.sealed.isSealed = true ∧ s1.sealed.fld bootStatusPhase = 6 ∧ s1.sealed.regs.imageHeld = true ∧
            s1.sealed.sched.runnable = s.enabledCtxs ∧ s1.sealed.mem = s.mem)))

/-- R33, R38, R477: the host link. Going down takes the port and its IDE streams down, halts every enabled host-resident ring,
and cancels the unstarted items of those rings' runs; PERST_N low does the same and holds the port. Coming up, a port that was
released and whose PERST_N is high serves again with the protocol, width and rate that training gave, and each halted
host-resident ring's status line is written once, with no vector. -/
def Obligations.HostLinkGoesDownAndUp : Prop :=
  (∀ s : State, s.host.up = false → exec .hostLinkDown s = .next s) ∧
  (∀ s : State, s.host.up = true → ∃ t, exec .hostLinkDown s = .next t ∧
    t.host = { s.host with up := false, lost := true, ide := [], biasChanges := t.host.biasChanges } ∧
    t.flag lcStatusIdeUp = false ∧
    (∀ n, n < 256 → s.ringEnabled n = true → s.ringDevice n = false → (s.ring n).state = 0 → (t.ring n).state = 1) ∧
    (∀ n, s.ringEnabled n = false ∨ s.ringDevice n = true → (t.ring n).state = (s.ring n).state) ∧
    (∀ run i r x, s.findRun run = some r → s.ringDevice r.desc.ring = false → s.itemOf run i = some x →
      x.phase = .unstarted → ∃ dt, t.phaseOf run i = some (.ended stCancelled dt))) ∧
  (∀ s : State, exec (.perstNAssert true) s = exec .hostLinkDown { s with boot := { s.boot with perstN := false } }) ∧
  (∀ s : State, exec (.perstNAssert false) s = .next { s with boot := { s.boot with perstN := true } }) ∧
  (∀ (s : State) (cxl : Bool) (width rate : Nat), s.host.up = false → s.host.released = true → s.boot.perstN = true →
    (linkTrains width rate = false → exec (.hostLinkUp cxl width rate) s = .next s) ∧
    (linkTrains width rate = true → ∃ t, exec (.hostLinkUp cxl width rate) s = .next t ∧
      t.host = { s.host with up := true, cxl := cxl, width := width, rate := rate } ∧
      t.outs = ((s.hostRings.filter fun n => (s.ring n).state == 1).map fun n =>
        Output.hostWrite (s.reg (rRingStatusAddr n)) (s.ring n).statusLine).reverse ++ s.outs ∧
      t.rings = s.rings ∧ t.mem = s.mem ∧ t.regs = s.regs))

/- ## The cue and the fabric-wide tables (03_cue_and_scheduling.md) -/

/-- R72, R81: `CUE_BOUNDARY` on a member out of reset opens the next slot before anything else: the cue number rises by one,
the edge is now, no message has yet been heard in the slot; then the rows of the boundary follow in their order (Table 3.5). -/
def Obligations.BoundaryOpensNextSlot : Prop :=
  ∀ (s : State) (now : Nat), s.inReset = false →
    ∃ t, t = (s.tick now).newSlot ∧ t.cueNo = (s.cueNo + 1) % 2 ^ 64 ∧ t.cue.edgeNs = (s.tick now).now ∧
      t.cue.gotValid = false ∧ t.mem.dev = s.mem.dev ∧ t.runs = (s.tick now).runs ∧
      exec (.cueBoundary now) s = .next
        t.emitEdge.boundaryRows.budgetRow.lateWork.retryBatches.countHalves.sendWaiting.boundaryWake.markHeads

/-- R76, R78, R80, Table 3.3: a valid message whose offset lies within ±65 ns locks a member that is Unlocked, or Detached and
has had news of routes since, with a lock count of 3, which takes the emitter's cue number; keeps a Locked or Holdover member
Locked with its misses cleared; and makes a follower of an emitter that hears a lower rank than its own.

R78, R79, Table 3.3: half a period without a valid message is a miss: a Locked member goes to Holdover with one miss, a
Holdover member with fewer than three counts it, one with three detaches, and a member that is not locked begins its count
anew. Detaching ends every item of the fabric and collective classes MEMBER_LOST. A Locked member whose message lies beyond
±65 ns has a miss too, and steps its edge. -/
def Obligations.CueLockFollowsMessages : Prop :=
  (∀ (s u : State) (port now : Nat) (m : CueMsg), u = s.tick now →
    u.inReset = false → u.portUp port = true → m.origin ≠ s.member → u.seenFlood (u.cuePacket m) = false →
    200 ≤ m.period → m.period ≤ 20000 → m.blocking = s.blockingMode → m.cue < 2 ^ 64 →
    (∀ x ∈ s.cue.heard, s.cueNo ≤ x.2 + 1 → m.rank ≤ x.1) →
    -65 ≤ (s.cue.edgeNs : Int) - u.derivedEdge port m → (s.cue.edgeNs : Int) - u.derivedEdge port m ≤ 65 →
    (s.fld cueStatusLock = 0 ∨ (s.fld cueStatusLock = 3 ∧ s.cue.routeSinceDetach = true) → 3 ≤ s.cue.lockCount →
      ∃ t, exec (.cueMessage port m now) s = .next t ∧ t.fld cueStatusLock = 1 ∧ t.fld cueStatusMisses = 0 ∧
        t.cueNo = m.cue ∧ t.cue.periodUs = m.period ∧ t.cue.gotValid = true) ∧
    (s.fld cueStatusLock = 1 ∨ s.fld cueStatusLock = 2 ∨ (s.fld cueStatusLock = 4 ∧ m.rank < s.ownRank) → m.cue = s.cueNo →
      s.cue.edgeNs ≤ u.now → u.now ≤ s.cue.edgeNs + 500 * s.period →
      ∃ t, exec (.cueMessage port m now) s = .next t ∧ t.fld cueStatusLock = 1 ∧ t.fld cueStatusMisses = 0 ∧
        t.cueNo = s.cueNo ∧ t.cue.gotValid = true)) ∧
  (∀ (s w : State) (now : Nat), w = s.tick now → w.inReset = false → s.cue.gotValid = false →
    (s.cue.edgeNs + 500 * s.period < w.now →
      (s.fld cueStatusLock = 1 → ∃ t, exec (.cueMiss none now) s = .next t ∧ t.fld cueStatusLock = 2 ∧
        t.fld cueStatusMisses = 1 ∧ t.runs = w.runs ∧ t.mem = s.mem) ∧
      (s.fld cueStatusLock = 2 → s.fld cueStatusMisses < 3 → ∃ t, exec (.cueMiss none now) s = .next t ∧
        t.fld cueStatusLock = 2 ∧ t.fld cueStatusMisses = s.fld cueStatusMisses + 1 ∧ t.runs = w.runs ∧ t.mem = s.mem) ∧
      (s.fld cueStatusLock = 2 → s.fld cueStatusMisses = 3 → ∃ t, exec (.cueMiss none now) s = .next t ∧
        t.fld cueStatusLock = 3 ∧ t.cue.lockCount = 0 ∧
        ∀ run i r x, w.findRun run = some r → hdrClass r.desc.bytes = 0xA ∨ hdrClass r.desc.bytes = 0xB →
          w.itemOf run i = some x → x.hasEnded = false → ∃ dt, t.phaseOf run i = some (.ended stMemberLost dt)) ∧
      (s.fld cueStatusLock = 0 → ∃ t, exec (.cueMiss none now) s = .next t ∧ t.fld cueStatusLock = 0 ∧
        t.cue.lockCount = 0 ∧ t.runs = w.runs ∧ t.mem = s.mem)) ∧
    (∀ x : Int, x < -65 ∨ 65 < x → s.fld cueStatusLock = 1 → ∃ t, exec (.cueMiss (some x) now) s = .next t ∧
      t.fld cueStatusLock = 2 ∧ t.fld cueStatusMisses = 1 ∧ t.cue.edgeNs = ((s.cue.edgeNs : Int) - x).toNat ∧
      t.runs = w.runs ∧ t.mem = s.mem))

/-- R80: a standby that may emit and has heard no valid message of a lower rank for as many cues as its rank becomes the
emitter half a period after the edge, whatever its lock.

R83, R84: on an emitter with no switch pending, `CUE_SWITCH_REQ` with GO set announces the generation for the cue that lies
LEAD ahead; a LEAD below 2 is rejected and announces nothing. On a member that does not emit, and with GO set and KIND 0, the
write is ignored.

R103: a write of `PART_OP` sets the ceiling that is asked for and leaves the operating point in effect as it is.

R444, R445: `SELFTEST_START` takes the tile that the boundary chose, or in an intermission any tile that is due, where its
claims are free and its partition serves: the tile is under test, and nothing else changes. -/
def Obligations.StandbySwitchesAndTests : Prop :=
  (∀ (s : State) (now : Nat), s.fld cueCtrlRole = 2 → s.mayEmit = true → s.cue.formerMaster = false →
    s.fld cueStatusLock ≠ 4 → s.ownRank ≤ s.cue.quiet →
    s.cue.edgeNs + 500 * s.period ≤ (s.tick now).now → s.member < 2 ^ 12 →
    ∃ t, exec (.standbyEmit now) s = .next t ∧ t.fld cueStatusLock = 4 ∧ t.fld cueStatusMisses = 0 ∧
      t.fld cueStatusEmitter = s.member ∧ t.cueNo = s.cueNo ∧ t.mem = s.mem ∧ t.runs = (s.tick now).runs) ∧
  (∀ (s : State) (kind gen lead : Nat) (v : BitVec 32),
    s.hostServes rCueSwitchReq = true → kind = v.toNat % 4 → gen = field v.toNat 8 16 → lead = field v.toNat 2 6 →
    (s.fld cueStatusLock ≠ 4 ∨ (bit v.toNat 31 = true ∧ kind = 0) → exec (.cueSwitchReq v) s = .next s) ∧
    (s.fld cueStatusLock = 4 → 1 ≤ kind → bit v.toNat 31 = true → s.switchPending kind = false → 2 ≤ lead →
      ∃ t, exec (.cueSwitchReq v) s = .next t ∧
        t.announced kind = { valid := true, gen := if kind = 2 then gen % 256 else gen, target := (s.cueNo + lead) % 2 ^ 32 } ∧
        t.flag cueStatusSwitchReject = false ∧ t.cueNo = s.cueNo ∧ t.mem = s.mem) ∧
    (s.fld cueStatusLock = 4 → 1 ≤ kind → bit v.toNat 31 = true → lead < 2 →
      ∃ t, exec (.cueSwitchReq v) s = .next t ∧ t.flag cueStatusSwitchReject = true ∧
        t.announced kind = s.announced kind ∧ t.cueNo = s.cueNo ∧ t.mem = s.mem)) ∧
  (∀ (s : State) (part : Nat) (v : BitVec 32), part < 8 → s.hostServes (rPartOp part) = true →
    ∃ t, exec (.partOpCeiling part v) s = .next t ∧ t.fld (partOpCeiling part) = v.toNat % 4 ∧
      t.fld (partOpEffective part) = s.fld (partOpEffective part) ∧ t.mem = s.mem ∧ t.runs = s.runs) ∧
  (∀ (s w : State) (tile now : Nat), w = s.tick now → w.testsRun = true → w.testable tile = true →
    w.rel.testOut = some tile ∨ (w.sched.intermission = true ∧ tile ∈ w.dueTests) →
    exec (.selftestStart tile now) s = .next { w with rel := { w.rel with testing := addVal tile w.rel.testing } })

/- ## Items of the matrix, attention, vector and convolution classes

An item of these classes ends well where each piece of its work, as the model names them, goes well in turn: its checks, its
reads, its arithmetic and its writes, each on the state that the one before it leaves. `s0` is the state with the item under
way, `u` the one that the last piece leaves; `ItemEnds u t …` says that `t` is `u` with the item ended and nothing else
changed. -/

/-- R147 to R155: `MM_WS`, `MM_WS_T` and `MM_OS`. Where the descriptor passes its checks, the planned rows keep their places and
the run-time dimension is `v`, the bands of rows are read, summed block by block in ascending order and written; the item ends
OK, or OK_DEGRADED if a line was denied, with its DETAIL and array cycles.

R159, R161, R165, R166: `SPLIT_SUM` sums the partials of its splits row by row; `PAIR_REFRESH` marks the pair stale, writes
the backward-order copy from the element codes of the forward-order copy, and commits. -/
def Obligations.MatrixItemsEnd : Prop :=
  (∀ (s s0 s1 s2 u : State) (run item op tile v : Nat) (r : Run) (e : ItemEnv) (p : MmPay) (lf : Option LaneFault),
    s.itemReady 1 op run item = some r → s0 = s.beginItem run item → e = r.env s item → p = mmPay r.desc.bytes →
    tile = itemTile r.desc.bytes item → u.CanEnd run item r →
    (mmCheck r.desc.bytes op).Gives e s0 () s0 → (mmPlanned p op tile item).Gives e s0 () s0 →
    (runTime p.shapeEn tile p.shape (if op = 2 then p.k else p.m)).Gives e s0 v s1 → (laneCheck tile lf).Gives e s1 () s2 →
    (if op = 2 then osBands p tile item v else wsBands p op tile item v).Gives e s2 () u →
    ∃ t, RowsEnd u t run item (precFmt p.y.fmt) v (mmCycles p op v) ∧ (op = 0 → exec (.mmWs run item lf) s = .next t) ∧
      (op = 1 → exec (.mmWsT run item lf) s = .next t) ∧ (op = 2 → exec (.mmOs run item lf) s = .next t)) ∧
  ((∀ (s s0 s1 u : State) (run item tile v : Nat) (r : Run) (e : ItemEnv) (p : SplitPay) (rp ry : List (Nat × Nat)),
    s.itemReady 1 3 run item = some r → s0 = s.beginItem run item → e = r.env s item → p = splitPay r.desc.bytes →
    tile = itemTile r.desc.bytes item → u.CanEnd run item r →
    (splitCheck r.desc.bytes).Gives e s0 () s0 → (splitRanges p tile item).Gives e s0 rp s0 →
    (planned p.y tile item p.m p.n).Gives e s0 ry s0 → rangesMeet ry rp = false →
    (runTime (bit p.mode 3) tile p.shape p.m).Gives e s0 v s1 → (splitRowsOf p tile item v 0).Gives e s1 () u →
    ∃ t, exec (.splitSum run item) s = .next t ∧
      RowsEnd u t run item (precFmt p.y.fmt) v
        (192 + max (ceilDiv (v * p.n * (p.splits - 1)) 512) (ceilDiv (v * p.n * p.splits) 256))) ∧
  (∀ (s s0 s1 s2 s3 s4 u : State) (run item base a f : Nat) (r : Run) (e : ItemEnv) (p : PairRec) (b : List Byte)
      (codes : List (List Nat)),
    s.itemReady 1 4 run item = some r → s0 = s.beginItem run item → e = r.env s item → u.CanEnd run item r →
    tileRangeOk r.desc.bytes = true → zeroAt (payloadOf r.desc.bytes) 2 14 = true →
    zeroAt (payloadOf r.desc.bytes) 24 72 = true → base = leAt r.desc.bytes 48 8 → base % 32 = 0 →
    a = base + 32 * item → s0.ownMem base 32 = true → s0.ownMem a 32 = true → (load a 32).Gives e s0 b s1 →
    p = pairRec a b → f = p.fmtByte % 16 → f ≤ 4 → p.fmtByte / 32 = 0 → p.state = 1 ∨ p.state = 2 → p.rows ≠ 0 →
    p.cols ≠ 0 → (checkRead p.fwd (p.rows * copyPitch f p.cols)).Gives e s1 () s1 →
    (checkWrite p.bwd (p.cols * copyPitch f p.rows)).Gives e s1 () s1 → (setPairState p 2).Gives e s1 () s2 →
    ((List.range p.rows).mapM fun i => pairRow p.fwd f p.cols i).Gives e s2 codes s3 →
    (writeBwd p f codes p.cols).Gives e s3 () s4 → (commitPair p).Gives e s4 () u →
    ∃ t, exec (.pairRefresh run item) s = .next t ∧ ItemEnds u t run item stOk 0 192))

/-- R181 to R195: `ATTN` reads its queries, visits the pages that its block sees in table order, and writes its rows of O and
STATS. With a bias it first reads the table in force of its tile's partition; an item that fetched pages leaves unstated bytes
in its scratch. -/
def Obligations.AttentionEnds : Prop :=
  ∀ (s s0 s1 s2 s3 s4 s5 s6 s7 s8 u : State) (run item tile v : Nat) (r : Run) (e : ItemEnv) (p : AttnPay)
      (lf : Option LaneFault) (pt : PageTable) (sight : List (Nat × Nat)) (pages : List Nat) (qs : List (List (List FVal)))
      (sts : List (List AttnAcc)),
    s.itemReady 2 0 run item = some r → s0 = s.beginItem run item → e = r.env s item → p = attnPay r.desc.bytes →
    tile = itemTile r.desc.bytes item → u.CanEnd run item r →
    (attnCheck r.desc.bytes).Gives e s0 () s0 → (attnBias r.desc.bytes).Gives e s0 () s0 →
    (runTime p.shapeEn tile p.shape 256).Gives e s0 v s1 → (loadTable p.pt).Gives e s1 pt s2 → p.head item < pt.heads →
    (attnPlanned p tile item (p.nk * p.g * pt.dim)).Gives e s2 () s2 →
    (sightPages p.sight (p.qb item)).Gives e s2 sight s3 → pages = visited (ceilDiv pt.length pt.tokens) sight →
    (laneCheck tile lf).Gives e s3 () s4 → (attnQueries p tile item pt.dim v).Gives e s4 qs s5 →
    (p.biasEn = true ∧ pages ≠ [] →
      (sramTable (sramBias (tile / 18) s5.bias.front) s5.bias.image.length).Gives e s5 () s6) →
    (¬(p.biasEn = true ∧ pages ≠ []) → s6 = s5) →
    (attnPages p pt { scale := ofF32 p.scale, qFmt := p.q.fmt, kvFmt := pt.fmt, dim := pt.dim } item qs pages
      (List.replicate v (List.replicate p.g (AttnAcc.init pt.dim)))).Gives e s6 sts s7 →
    (pages = [] → s8 = s7) → (pages ≠ [] → (fillScratch tile p.scratch).Gives e s7 () s8) →
    (attnWrite p tile item pt.dim 0 sts).Gives e s8 () u →
    ∃ t, exec (.attn run item lf) s = .next t ∧
      ItemEnds u t run item stOk 0
        (256 + pages.foldl (fun a g => a + pageCycles p pt (min pt.tokens (pt.length - g * pt.tokens))) 0)

/-- R182 to R188: the five opcodes that keep page tables and sequences. `KV_APPEND` puts rows behind LENGTH and, once they are
acknowledged, raises it, with the frames it took in DETAIL; `SEQ_JOIN` links a sequence to its pool's pending list, with the
next cue of that member in DETAIL; `SEQ_LEAVE` releases a table's entries and ends the sequence; `SEQ_RESERVE` commits frames
to it; `PAGE_SHARE` shares entries. -/
def Obligations.SequenceItemsEnd : Prop :=
  ∀ (s s0 s1 s2 s3 s4 s5 s6 s7 s8 u : State) (run item : Nat) (r : Run) (e : ItemEnv) (z : List Byte),
    s0 = s.beginItem run item → e = r.env s item → z = payloadOf r.desc.bytes → u.CanEnd run item r →
    (∀ (tile v took : Nat) (p : PageTable) (sq : List Byte) (ks vs : OpRef) (ents : List ((Nat × Nat × Nat) × Nat))
        (kr vr : List (List Byte × List Byte)),
      s.itemReady 2 1 run item = some r → tile = itemTile r.desc.bytes item → (kvAppendCheck r.desc.bytes).Gives e s0 () s0 →
      ks = opRef ((z.drop 24).take 16) → vs = opRef ((z.drop 40).take 16) →
      (runTime (leAt z 2 1 == 2) tile (leAt z 56 4) (leAt z 4 2)).Gives e s0 v s1 →
      (stepTable (leAt z 8 8 + item * leAt z 16 8)).Gives e s1 p s2 → p.length + v ≤ p.pages * p.tokens →
      ks.fmtByte = p.fmtByte → vs.fmtByte = p.fmtByte → ks.ok (p.heads * p.dim) = true → vs.ok (p.heads * p.dim) = true →
      (stepSeq p.seqRec).Gives e s2 sq s3 → seqState sq = 2 →
      (stepEntries p (entryPlaces p (p.length / p.tokens)
        ((p.length + v - 1) / p.tokens + 1 - p.length / p.tokens))).Gives e s3 ents s4 →
      (ents.forM fun x => entryOk p x.1.2.2 x.2).Gives e s4 () s4 →
      (sourceRows ks tile item (p.heads * p.dim) v).Gives e s4 kr s5 →
      (sourceRows vs tile item (p.heads * p.dim) v).Gives e s5 vr s6 → (appendPages p sq v ents kr vr).Gives e s6 took s7 →
      waitWrites.Gives e s7 () s8 → (inStepDo (store p.addr (leBytes 4 (p.length + v)))).Gives e s8 () u →
      ∃ t, exec (.kvAppend run item) s = .next t ∧ ItemEnds u t run item stOk (2 ^ 32 * took) 0) ∧
    (∀ (a frames c : Nat) (b : List Byte) (p : PoolAt),
      s.itemReady 2 2 run item = some r → seqOperand.Gives e s0 (a, b, frames) s1 →
      seqState b = 0 ∨ seqState b = 3 ∨ seqState b = 4 → (poolOf (seqMember b) (seqTier b)).Gives e s1 (some p) s2 →
      (inStepDo (store a (leBytes 2 1 ++ (b.drop 2).take 14 ++ leBytes 8 0 ++ leBytes 4 frames))).Gives e s2 () s3 →
      waitWrites.Gives e s3 () s4 →
      (p.own = true → (inStepNat (modify (fun s => s.acceptJoin p.tier a) >>= fun _ => do return (← get).cueNo)).Gives e s4 c u) →
      (p.own = false → (p.link a swapTries).Gives e s4 () s5 ∧
        (freshNat (mkAddr p.member (3 * 2 ^ 43 + rCueNumber)) 4).Gives e s5 c u) →
      ∃ t, exec (.seqJoin run item) s = .next t ∧ ItemEnds u t run item stOk ((c + 1) % 2 ^ 32) 0) ∧
    (∀ (n : Nat) (p : PageTable) (b : List Byte) (ents : List ((Nat × Nat × Nat) × Nat)),
      s.itemReady 2 3 run item = some r → (seqLeaveCheck r.desc.bytes).Gives e s0 () s0 →
      (stepTable (leAt z 8 8 + item * leAt z 16 8)).Gives e s0 p s1 → (stepSeq p.seqRec).Gives e s1 b s2 →
      (stepEntries p (entryPlaces p 0 p.pages)).Gives e s2 ents s3 →
      (∀ x ∈ ents, enValid x.2 = true → enBad x.2 = false ∧ (checkWrite (enFrame x.2) 65536).Gives e s3 () s3) →
      (releaseEntries p ents).Gives e s3 () s4 → (inStepDo (store p.addr (leBytes 4 0))).Gives e s4 () s5 →
      (changeResv p.seqRec (fun r => if r = 0 then none else some 0) swapTries).Gives e s5 n s6 →
      (returnReserve b n).Gives e s6 () s7 →
      (inStepDo (store p.seqRec (leBytes 2 4) >>= fun _ => do
        store (p.seqRec + 12) (leBytes 4 (((← get).cueNo + 1) % 2 ^ 32)))).Gives e s7 () u →
      ∃ t, exec (.seqLeave run item) s = .next t ∧ ItemEnds u t run item stOk 0 0) ∧
    (∀ (a frames n : Nat) (b : List Byte) (p : PoolAt),
      s.itemReady 2 4 run item = some r → seqOperand.Gives e s0 (a, b, frames) s1 → seqState b = 2 →
      (poolOf (seqMember b) (seqTier b)).Gives e s1 (some p) s2 →
      (p.own = true → (inStepNat (p.reserveOwn (seqOwner b) frames)).Gives e s2 0 s3) →
      (p.own = false → (p.commit (seqOwner b) frames swapTries).Gives e s2 none s3) →
      (changeResv a (fun r => some (r + frames)) swapTries).Gives e s3 n u →
      ∃ t, exec (.seqReserve run item) s = .next t ∧ ItemEnds u t run item stOk 0 0) ∧
    (∀ (p d : PageTable) (l : List ShareEntry),
      s.itemReady 2 5 run item = some r → (pageShareCheck r.desc.bytes).Gives e s0 () s0 →
      (stepTable (leAt z 8 8 + item * leAt z 24 8)).Gives e s0 p s1 →
      (stepTable (leAt z 16 8 + item * leAt z 24 8)).Gives e s1 d s2 →
      p.logT = d.logT → p.fmtByte = d.fmtByte → p.dim = d.dim → p.heads = d.heads → leAt z 4 4 ≤ p.length → d.length = 0 →
      ceilDiv (leAt z 4 4) p.tokens ≤ d.pages → (shareEntries p d (ceilDiv (leAt z 4 4) p.tokens)).Gives e s2 l s3 →
      (shareCounts l).Gives e s3 () s4 → (shareAll l).Gives e s4 () s5 →
      (inStepDo (store d.addr (leBytes 4 (leAt z 4 4)))).Gives e s5 () u →
      ∃ t, exec (.pageShare run item) s = .next t ∧ ItemEnds u t run item stOk 0 0)

/-- R198: `BIAS_LOAD`, where no earlier one is unended, with an image whose checksum holds and a generation other than the one
in force makes that generation pending, and takes LEAD cues from its dispatch; the image comes into force at that cue's
boundary, from the standby buffers of the partitions.

R168, R216: `FN_LOAD`, where no other load runs and the image passes its checks, keeps the image and writes it into a free
buffer of every serving tile. Where every tile has one the item ends; otherwise it waits, and `FN_LOAD_RESUME` of the last tile
that was waited for ends it. -/
def Obligations.BiasAndFunctionTablesLoad : Prop :=
  (∀ (s s0 s1 s2 v u : State) (run item src gen lead heads target : Nat) (r : Run) (e : ItemEnv) (z h img : List Byte),
    s.itemReady 2 6 run item = some r → s0 = s.beginItem run item → e = r.env s item → z = payloadOf r.desc.bytes →
    src = leAt z 8 8 → gen = leAt z 16 1 → lead = leAt z 17 1 → (biasLoadCheck r.desc.bytes).Gives e s0 () s0 →
    s0.biasBusy e.run = false → (load src 64).Gives e s0 h s1 → heads = leAt h 0 1 → 1 ≤ heads → heads ≤ 48 →
    (load src (64 + 8192 * heads)).Gives e s1 img s2 → leAt img 4 4 = crc32 (img.drop 64) → gen ≠ s2.fld biasStatusGen →
    target = (if s2.cueNo < r.cue + lead then r.cue + lead else s2.cueNo + 1) →
    v = (List.range 8).foldl (fun (t : State) q => t.sramFresh (sramBias q (1 - s2.bias.front)) 0x80000)
      ({ s2 with bias := { s2.bias with standby := some (gen, target, heads, img) } } : State) →
    u = (v.setFld biasStatusPendingGen gen).setFlag biasStatusPending true → u.CanEnd run item r →
    (∃ t, exec (.biasLoad run item) s = .next t ∧ ItemEnds u t run item stOk (target % 2 ^ 32) 0) ∧
    ∀ c, (target ≤ c → (u.biasSwitch c).bias.image = img ∧ (u.biasSwitch c).bias.standby = none ∧
        (u.biasSwitch c).bias.front = 1 - u.bias.front ∧ (u.biasSwitch c).flag biasStatusPending = false) ∧
      (c < target → u.biasSwitch c = u)) ∧
  ((∀ (s s0 s1 s2 w x : State) (run item src gen len id : Nat) (r : Run) (e : ItemEnv) (img : List Byte) (left : List Nat),
    s.itemReady 3 6 run item = some r → s0 = s.beginItem run item → e = r.env s item →
    s0.fnLoadingBy e.run e.item = none → (fnLoadCheck r.desc.bytes).Gives e s0 () s0 → src = leAt r.desc.bytes 32 8 →
    gen = leAt r.desc.bytes 40 1 → s0.fnBusy e.run = false → (loadNat src 4).Gives e s0 len s1 → 1088 ≤ len → len ≤ 65536 →
    len % 16 = 0 → (load src len).Gives e s1 img s2 → fnImageOk img = true →
    (∀ b ∈ s2.servingTiles, s2.fnGenOf (s2.fnHeld b 0) ≠ gen ∧ s2.fnGenOf (s2.fnHeld b 1) ≠ gen) → id = s2.fn.nextImage →
    (w, left) = ({ s2 with fn := { s2.fn with
      images := cellPut s2.fn.images id (some { gen := gen, run := e.run, source := src, bytes := img }),
      nextImage := id + 1 } } : State).fnWriteTiles id s2.servingTiles →
    x = (w.setFld fnStatusLoadGen gen).setFlag fnStatusLoading true →
    (left = [] → x.fnLoadEnd.CanEnd run item r →
      ∃ t, exec (.fnLoad run item) s = .next t ∧ ItemEnds x.fnLoadEnd t run item stOk 0 0) ∧
    (left ≠ [] → exec (.fnLoad run item) s = .next
      (({ x with fn := { x.fn with loading := some (e.run, e.item, id, left) } } : State).setFlag fnStatusWaiting true))) ∧
  (∀ (s : State) (tile b run item id : Nat) (left : List Nat),
    s.fn.loading = some (run, item, id, left) → tile ∈ left → s.fnFree tile = some b →
    (dropVal tile left ≠ [] → exec (.fnLoadResume tile) s = .next
      { s.fnPut tile b id with fn := { (s.fnPut tile b id).fn with
        loading := some (run, item, id, dropVal tile left) } }) ∧
    (dropVal tile left = [] → s.waitsAck run item = false → s.itemOpen run item = true →
      (∀ q, s.findRun run = some q → hdrClass q.desc.bytes = 3) →
      ∃ t, exec (.fnLoadResume tile) s = .next t ∧ ItemEnds (s.fnPut tile b id).fnLoadEnd t run item stOk 0 0)))

/-- R204 to R211: `VPROG`. A program that is well-formed for its streams runs row by row and its stored streams are written;
in pair mode an item computes one square of 128 by 128 elements and writes it into both copies of the pair.

R219 to R226: `RMSNORM`, `SOFTMAX_ROW`, `QUANT` and `DEQUANT` take each row through their operator, write it in its format
and, where asked, its statistic; `ATTN_MERGE` merges the partials of its sources. -/
def Obligations.VectorItemsEnd : Prop :=
  (∀ (s s0 s1 s2 s3 u : State) (run item tile : Nat) (r : Run) (e : ItemEnv) (p : VpPay) (c : VpCtx),
    s.itemReady 3 0 run item = some r → s0 = s.beginItem run item → e = r.env s item → p = vpPay r.desc.bytes →
    tile = itemTile r.desc.bytes item → u.CanEnd run item r → boundGen.Gives e s0 r.fnGen s0 →
    (vpPayCheck r.desc.bytes).Gives e s0 () s0 → (vpRead p tile).Gives e s0 c s1 →
    (vpCheck c tile r.fnGen (hdrItems r.desc.bytes + 1) (s1.flag (ctxArithCompat r.ctx))).Gives e s1 () s1 →
    (c.prec = false → s2 = s1) →
    (c.prec = true → (modifyItem fun x => { x with noted := cellPut x.noted nkPrec (some [1]) }).Gives e s1 () s2) →
    (vPlanned c tile item).Gives e s2 () s2 → (fnReadable c tile r.fnGen).Gives e s2 () s3 →
    (∀ (v : Nat) (s4 : State), p.pair = false → (runTime p.shapeEn tile p.shape p.rows).Gives e s3 v s4 →
      (vRows c tile item r.fnGen v 0).Gives e s4 () u →
      ∃ t, exec (.vprog run item) s = .next t ∧ RowsEnd u t run item c.prec v (vpCycles c v)) ∧
    (∀ (s4 : State) (b : Nat) (sq : List (List (Rounding × FVal))), p.pair = true → b = ceilDiv c.pair.cols 128 →
      (pairSquare c tile item r.fnGen (item / b) (item % b)).Gives e s3 sq s4 →
      (storeSquare c.pair (item / b) (item % b) sq).Gives e s4 () u →
      ∃ t, exec (.vprog run item) s = .next t ∧ RowsEnd u t run item c.prec p.rows (vpCycles c 128))) ∧
  ((∀ (s s0 s1 s2 u : State) (run item op tile v : Nat) (r : Run) (e : ItemEnv) (p : RowPay) (g : List FVal),
    s.itemReady 3 op run item = some r → s0 = s.beginItem run item → e = r.env s item → p = rowPay r.desc.bytes →
    tile = itemTile r.desc.bytes item → u.CanEnd run item r → (rowCheck r.desc.bytes).Gives e s0 () s0 →
    (rowPlanned p tile item).Gives e s0 () s0 → (runTime p.shapeEn tile p.shape p.m).Gives e s0 v s1 →
    (p.gammaEn = true → (readRow p.g tile item 0 p.n 0).Gives e s1 g s2) →
    (p.gammaEn = false → g = List.replicate p.n (FVal.ofNat 1) ∧ s2 = s1) → (rowsOf p tile item g v 0).Gives e s2 () u →
    ∃ t, RowsEnd u t run item (precFmt p.y.fmt) v (rowCycles p v) ∧
      (op = 1 → exec (.rmsnorm run item) s = .next t) ∧ (op = 2 → exec (.softmaxRow run item) s = .next t) ∧
      (op = 4 → exec (.quant run item) s = .next t) ∧ (op = 5 → exec (.dequant run item) s = .next t)) ∧
  (∀ (s s0 s1 u : State) (run item tile v : Nat) (r : Run) (e : ItemEnv) (p : MergePay),
    s.itemReady 3 3 run item = some r → s0 = s.beginItem run item → e = r.env s item → p = mergePay r.desc.bytes →
    tile = itemTile r.desc.bytes item → u.CanEnd run item r → (mergeCheck r.desc.bytes).Gives e s0 () s0 →
    (mergePlanned p tile item).Gives e s0 () s0 → (runTime p.shapeEn tile p.shape p.m).Gives e s0 v s1 →
    (mergeRows p tile item v 0).Gives e s1 () u →
    ∃ t, exec (.attnMerge run item) s = .next t ∧
      ItemEnds u t run item stOk v (64 + v * ceilDiv (p.heads * p.dim) 512 * 4 * p.sources)))

/-- R234 to R243: `CONV`, `CONV_PATCH` and `POOL` read their tensor, compute every output position and write Y, the last two
only where the whole of Y can be written; none of them gives a DETAIL.

R244 to R247: `BOX_DECODE` stores the decoded boxes of its `v` candidates; `BOX_NMS` stores the count and the indices of those
kept, in keep order, padded with 0xFFFF, and gives both counts in DETAIL. -/
def Obligations.ConvolutionItemsEnd : Prop :=
  (∀ (s s0 s1 u : State) (run item tile : Nat) (r : Run) (e : ItemEnv) (p : ConvPay) (dt : ConvDim),
    s0 = s.beginItem run item → e = r.env s item → p = convPay r.desc.bytes → tile = itemTile r.desc.bytes item →
    u.CanEnd run item r → (convCheck r.desc.bytes).Gives e s0 () s0 → (convPlanned p tile item).Gives e s0 () s0 →
    (convFrames p tile).Gives e s0 dt s1 →
    (∀ (lf : Option LaneFault) (s2 s3 s4 s5 : State) (xs kernel old : List (List FVal)),
      s.itemReady 4 0 run item = some r →
      (tensorRows p.xT dt.n fun k => readRow p.x tile item k p.xT.len 0).Gives e s1 xs s2 →
      (readRows p.k tile item p.kLen 0 p.cout).Gives e s2 kernel s3 →
      (p.acc = true → (tensorRows p.yT dt.out fun k => readRow p.y tile item k p.yT.len 0).Gives e s3 old s4) →
      (p.acc = false → old = [] ∧ s4 = s3) → (laneCheck tile lf).Gives e s4 () s5 →
      (p.wino = false → (writeTensor p tile item dt.out (p.outAt ((directOut p dt xs old kernel).map Prod.fst))).Gives e
        (s5.countSkips ((directOut p dt xs old kernel).foldl (fun a x => a + x.2) 0)) () u) →
      (p.wino = true → (writeTensor p tile item dt.out
          (p.winoAt dt.out ((winoTiles p dt xs kernel).map Prod.fst) old)).Gives e
        (s5.countSkips ((winoTiles p dt xs kernel).foldl (fun a x => a + x.2) 0)) () u) →
      ∃ t, exec (.convolve run item lf) s = .next t ∧ ItemEnds u t run item stOk 0 (convCycles p dt.out)) ∧
    (∀ (w : Nat) (s2 s3 : State) (xs : List (List Nat)), s.itemReady 4 1 run item = some r → w = elemBits p.x.fmt →
      (tensorRows p.xT dt.n fun k => do
        return unpackRow w p.xT.len (← locLoad tile p.x.base (p.x.row item k * 64 * p.x.pitch) (rowBytes p.x.fmt p.xT.len))).Gives
          e s1 xs s2 →
      (rowsClear p.y tile item p.yLen (List.range (p.positions dt).length)).Gives e s2 () s3 →
      ((p.positions dt).zipIdx.forM fun (o, n) => locStore tile p.y.base (p.y.row item n * 64 * p.y.pitch)
        (packBits w (p.patch dt 0 (tensorAt p.xT dt.n 0 xs) o))).Gives e s3 () u →
      ∃ t, exec (.convPatch run item) s = .next t ∧
        ItemEnds u t run item stOk 0 (64 + ceilDiv (dt.out * p.dy.out * p.dx.out * p.kTotal * (w / 8)) 512)) ∧
    (∀ (s2 s3 : State) (xs : List (List FVal)), s.itemReady 4 2 run item = some r →
      (tensorRows p.xT dt.n fun k => readRow p.x tile item k p.xT.len 0).Gives e s1 xs s2 →
      (rowsClear p.y tile item p.yLen ((p.lines dt.out).map fun (cb, t, y) => p.yT.row cb t y)).Gives e s2 () s3 →
      (writeTensor p tile item dt.out fun c f y x => poolValue p (p.tapList.filterMap fun j =>
        (p.tapAt dt (f, y, x) j).map fun (a, b, d) => tensorAt p.xT dt.n FVal.zero xs c a b d)).Gives e s3 () u →
      ∃ t, exec (.poolWindows run item) s = .next t ∧
        ItemEnds u t run item stOk 0 (64 + ceilDiv (p.cout * dt.out * p.dy.out * p.dx.out) 256 * p.taps))) ∧
  (∀ (s s0 s1 s2 s3 u : State) (run item tile v : Nat) (r : Run) (e : ItemEnv) (p : BoxPay),
    s0 = s.beginItem run item → e = r.env s item → p = boxPay r.desc.bytes → tile = itemTile r.desc.bytes item →
    (runTime p.shapeEn tile p.shape p.n).Gives e s0 v s1 → u.CanEnd run item r →
    (∀ ds as : List FVal, s.itemReady 4 3 run item = some r → (boxCheck r.desc.bytes false).Gives e s0 () s0 →
      (loadF32s tile p.srcA (item * p.n * 16) (4 * v)).Gives e s1 ds s2 →
      (loadF32s tile p.srcB (item * p.n * 16) (4 * v)).Gives e s2 as s3 →
      (locStore tile p.dst (item * p.n * 16) (((List.range v).flatMap fun c =>
        decodeBox p ((ds.drop (4 * c)).take 4) ((as.drop (4 * c)).take 4)).flatMap fun x => leBytes 4 (toF32 x))).Gives e
          s3 () u →
      ∃ t, exec (.boxDecode run item) s = .next t ∧ ItemEnds u t run item stOk 0 (64 + ceilDiv v 16 * 6)) ∧
    (∀ (bs sc : List FVal) (cand kept : List Nat), s.itemReady 4 4 run item = some r →
      (boxCheck r.desc.bytes true).Gives e s0 () s0 →
      (loadF32s tile p.srcA (item * p.n * 16) (4 * v)).Gives e s1 bs s2 →
      (loadF32s tile p.srcB (item * p.n * 4) v).Gives e s2 sc s3 →
      cand = (List.range v).filter (fun c => (ofF32 p.p1).le (sc.getD c .nan)) →
      kept = nmsKeep (ofF32 p.p0) p.keepMax (fun c => (bs.drop (4 * c)).take 4)
        (sortBy (fun a b => (sc.getD b .nan).lt (sc.getD a .nan) ||
          (!(sc.getD a .nan).lt (sc.getD b .nan) && decide (a < b))) cand) [] →
      (locStore tile p.dst (item * 64 * ceilDiv (4 + 2 * p.keepMax) 64) (leBytes 4 kept.length ++
        (kept.flatMap (leBytes 2)) ++ (List.replicate (p.keepMax - kept.length) [0xFF, 0xFF]).flatten)).Gives e s3 () u →
      ∃ t, exec (.boxNms run item) s = .next t ∧
        ItemEnds u t run item stOk (kept.length + 2 ^ 32 * cand.length)
          (128 + 12 * cand.length + 2 * kept.length * ceilDiv cand.length 64)))

/- ## Granules, tiles, flash and the prompt book (09 and 10) -/

/-- R273, R274, R279: `GRANT` of free granules within the quota gives them to the ring's context, raises its use and, where asked,
writes them to zero; `RELEASE` of granules that the context owns frees them; `QUOTA_READ` stores the 64-byte quota block.

R275 to R278, R294: `TILE_MOVE` copies whole tiles between memory and SRAM, `TILE_FILL` stores a repeated word; DETAIL counts the
64-byte lines written. A move to another member's flash waits for its acknowledgements; one to this member's flash gives its
programs their data once its batch has passed, and waits for its map commit. -/
def Obligations.TierItemsEnd : Prop :=
  ((∀ (s s0 s1 s2 u : State) (run item : Nat) (r : Run) (e : ItemEnv) (g : Granules),
    s0 = s.beginItem run item → e = r.env s item → (ownerWords g).Gives e s1 () s2 → u.CanEnd run item r →
    (∀ zero : Bool, s.itemReady 5 0 run item = some r → (granuleItem true).Gives e s0 g s1 →
      leAt r.desc.bytes 40 1 = (if zero then 1 else 0) → s2.granules g.tier g.first g.count = [] →
      s2.fld (useFld g.tier r.ctx) + g.count ≤ s2.fld (quotaFld g.tier r.ctx) →
      (zero = true → s2.devShut (g.tier * 2 ^ 43 + g.first * 2 ^ 21) = false) →
      u = (if zero then ((s2.setOwners g (1 + r.ctx)).bump (useFld g.tier r.ctx) g.count).devZero
          (g.tier * 2 ^ 43 + g.first * 2 ^ 21) (g.count * 2 ^ 21)
        else (s2.setOwners g (1 + r.ctx)).bump (useFld g.tier r.ctx) g.count) →
      ∃ t, exec (.grantGranules run item) s = .next t ∧
        ItemEnds u t run item stOk (((s2.setOwners g (1 + r.ctx)).bump (useFld g.tier r.ctx) g.count).fld (useFld g.tier r.ctx))
          (64 + if zero then g.count * 32768 else 0) ∧
        ∀ k, k < g.count → cellGet 0 t.mem.owners (g.tier * 2 ^ 22 + g.first + k) = 1 + r.ctx) ∧
    (s.itemReady 5 1 run item = some r → (granuleItem false).Gives e s0 g s1 →
      (s2.granules g.tier g.first g.count).length = g.count →
      (∀ x ∈ s2.granules g.tier g.first g.count, x.2 = 1 + r.ctx) →
      u = (s2.setOwners g 0).setFld (useFld g.tier r.ctx) (s2.fld (useFld g.tier r.ctx) - g.count) →
      ∃ t, exec (.releaseGranules run item) s = .next t ∧
        ItemEnds u t run item stOk (u.fld (useFld g.tier r.ctx)) 64)) ∧
  (∀ (s : State) (run item c a : Nat) (r : Run),
    s.itemReady 5 4 run item = some r → s.waitsAck run item = false → c = leAt r.desc.bytes 32 1 → c < 64 →
    c = r.ctx ∨ s.managed r.desc.ring = true → leAt r.desc.bytes 33 7 = 0 → leAt r.desc.bytes 48 80 = 0 →
    a = leAt r.desc.bytes 40 8 → a % 64 = 0 → hdrItems r.desc.bytes = 0 → s.WritableHere a 64 →
    ∃ t, exec (.quotaRead run item) s = .next t ∧
      ItemEnds ((s.beginItem run item).devWrite (addrKey a)
        (leBytes 4 (s.fld (ctxQuotaHbmGranules c)) ++ leBytes 4 (s.fld (ctxUseHbmGranules c)) ++
          leBytes 4 (s.fld (ctxQuotaLpddrGranules c)) ++ leBytes 4 (s.fld (ctxUseLpddrGranules c)) ++
          leBytes 4 (s.fld (ctxQuotaFlashTiles c)) ++ leBytes 4 (s.fld (ctxUseFlashTiles c)) ++
          leBytes 4 (s.fld (ctxKvpagesLimit c)) ++ leBytes 4 (s.fld (ctxKvheldHeld c)) ++ leBytes 8 s.cueNo ++ leBytes 24 0))
        t run item stOk 0 64)) ∧
  (∀ (s s0 : State) (run item len : Nat) (r : Run) (e : ItemEnv) (z : List Byte),
    s0 = s.beginItem run item → e = r.env s item → z = payloadOf r.desc.bytes → len = leAt z 4 1 * 65536 →
    (∀ (u : State) (bs : List Byte) (src dst : Place) (st : Nat),
      s.itemReady 5 2 run item = some r → (moveCheck false).Gives e s0 () s0 →
      (endAddr ((z.drop 8).take 16) item (leAt z 40 8)).any regTier = false →
      (endAddr ((z.drop 24).take 16) item (leAt z 48 8)).any regTier = false →
      endPlace ((z.drop 8).take 16) item (leAt z 40 8) len = some src →
      endPlace ((z.drop 24).take 16) item (leAt z 48 8) len = some dst → s0.placesMeet len src dst = false →
      (placesCheck src dst len).Gives e s0 () s0 → itemStage.Gives e s0 st s0 → st ≠ 3 →
      (∀ k s1, dst = .sram k → u.CanEnd run item r → (readPlace src len).Gives e s0 (bs, false) s1 →
        (sramStore k bs).Gives e s1 () u →
        ∃ t, exec (.tileMove run item) s = .next t ∧
          ItemEnds u t run item stOk (moveLines bs.length) (256 + bs.length / 64)) ∧
      (∀ a s1, dst = .flash a → s0.isOwn (addrMember a) = false → (readPlace src len).Gives e s0 (bs, false) s1 →
        (storeAt a bs).Gives e s1 () u → u.itemOpen run item = true → u.waitsAck run item = true →
        ∃ t, exec (.tileMove run item) s = .next t ∧ t.phaseOf run item = some (.acking stOk (moveLines len)) ∧ t.mem = u.mem) ∧
      (∀ a s1, dst = .mem a → u.CanEnd run item r → (readPlace src len).Gives e s0 (bs, false) s1 →
        (storeAt a bs).Gives e s1 () u →
        ∃ t, exec (.tileMove run item) s = .next t ∧
          ItemEnds u t run item stOk (moveLines bs.length) (256 + bs.length / 64)) ∧
      (∀ a tiles s1 s2, dst = .flash a → s0.isOwn (addrMember a) = true →
        s0.flashRange r.ctx (addrOff a) len = some tiles → (st = 0 → s0.flashQuota r.ctx tiles = true) →
        (joinBatch tiles).Gives e s0 () s1 → (readPlace src len).Gives e s1 (bs, false) s2 →
        exec (.tileMove run item) s = .next ((s2.giveData e.run item bs).onItem e.run item fun x => { x with stage := 3 }))) ∧
    (∀ (u : State) (bs : List Byte) (dst : Place), s.itemReady 5 3 run item = some r → u.CanEnd run item r →
      (moveCheck true).Gives e s0 () s0 → (endAddr ((z.drop 24).take 16) item (leAt z 48 8)).any regTier = false →
      endPlace ((z.drop 24).take 16) item (leAt z 48 8) len = some dst →
      bs = (List.replicate (len / 4) (leBytes 4 (leAt z 56 4))).flatMap id →
      (∃ k, dst = .sram k ∧ (sramStore k bs).Gives e s0 () u) ∨
        (∃ a, dst = .mem a ∧ (placeCheck dst len).Gives e s0 () s0 ∧ (placeRoute dst).Gives e s0 () s0 ∧
          (storeAt a bs).Gives e s0 () u) →
      ∃ t, exec (.tileFill run item) s = .next t ∧ ItemEnds u t run item stOk (moveLines len) (256 + len / 64)))

/-- R286 to R288, R294, R300: `FL_TRIM` of a range of mapped slots, whose batch passes the hold-up check, waits; at
`FLASH_MAP_COMMIT` the programs of an item, each with its block and data, take effect in order, or its trims do, and the item
ends.

R301, R306: `FL_HEALTH` stores the health block, `PB_READ` the bytes of a readable region of the prompt book with the
region's sequence number in DETAIL; `PB_WRITE` of a signed image whose checks pass updates region 0x02 and raises counter 1.
Both wait while an earlier one runs or the stage manager is down. -/
def Obligations.FlashAndPromptBookItemsEnd : Prop :=
  ((∀ (s s0 s1 s2 : State) (run item list ent a n st : Nat) (r : Run) (e : ItemEnv),
    s.itemReady 6 0 run item = some r → s0 = s.beginItem run item → e = r.env s item → leAt r.desc.bytes 40 88 = 0 →
    itemStage.Gives e s0 st s0 → st ≠ 3 → list = leAt r.desc.bytes 32 8 → list % 8 = 0 →
    (once 0 do return [← loadNat (list + 8 * item) 8]).Gives e s0 [ent] s1 → trimRange s1 r.ctx ent = some (a, n) →
    (joinBatch []).Gives e s1 () s2 →
    exec (.flTrim run item) s = .next (({ s2 with flash := { s2.flash with
      trims := s2.flash.trims ++ [(e.run, item, a, n)] } } : State).onItem e.run item fun x => { x with stage := 3 })) ∧
  (∀ (s w : State) (run item : Nat) (ps : List Program) (ts : List (Nat × Nat × Nat × Nat)),
    ps = s.flash.programs.filter (fun p => p.run == run && p.item == item) →
    ts = s.flash.trims.filter (fun x => x.1 == run && x.2.1 == item) →
    w = { s with flash := { s.flash with
      programs := (s.flash.programs.filter fun p => !(p.run == run && p.item == item)),
      trims := s.flash.trims.filter fun x => !(x.1 == run && x.2.1 == item) } } →
    (∀ p ∈ ps, p.block ≠ none ∧ p.data ≠ none) →
    (∀ x ∈ s.flash.inbound, remoteRun x.id ≠ run) → s.itemOpen run item = true → s.waitsAck run item = false →
    (∀ q, s.findRun run = some q → hdrClass q.desc.bytes = 5 ∨ hdrClass q.desc.bytes = 6) →
    (ps ≠ [] → ts = [] → ∃ t, exec (.flashMapCommit run item) s = .next t ∧
      ItemEnds (ps.foldl State.commitProgram w) t run item stOk (moveLines (65536 * ps.length)) (256 + 1024 * ps.length)) ∧
    (∀ a n, ps = [] → ts = [(run, item, a, n)] → ∃ t, exec (.flashMapCommit run item) s = .next t ∧
      ItemEnds ((List.range n).foldl (fun v k => v.unmapTile (a + k)) w) t run item stOk 0 (64 + n / 64)))) ∧
  ((∀ (s : State) (run item a : Nat) (r : Run),
    s.itemReady 6 1 run item = some r → s.waitsAck run item = false → a = leAt r.desc.bytes 32 8 →
    leAt r.desc.bytes 40 88 = 0 → a % 64 = 0 → hdrItems r.desc.bytes = 0 → s.WritableHere a 64 →
    ∃ t, exec (.flHealth run item) s = .next t ∧
      ItemEnds ((s.beginItem run item).devWrite (addrKey a) s.healthBlock) t run item stOk 0 64) ∧
  (∀ (s s0 u : State) (run item id a len : Nat) (r : Run) (e : ItemEnv),
    s0 = s.beginItem run item → e = r.env s item → pbOperand.Gives e s0 (id, a, len) s0 → bookFree.Gives e s0 () s0 →
    u.CanEnd run item r →
    (s.itemReady 6 2 run item = some r → id ∈ [2, 3, 4, 5, 6] → pbSize id ≤ len → (store a (s0.pbBytes id)).Gives e s0 () u →
      ∃ t, exec (.pbRead run item) s = .next t ∧ ItemEnds u t run item stOk ((s.pbRegion id).seq % 2 ^ 32) 64) ∧
    (∀ (s1 : State) (img : List Byte), s.itemReady 6 3 run item = some r → id = 2 → len ≤ 262144 →
      (load a len).Gives e s0 img s1 → s1.imageResult img 2 = 0 → u = (s1.pbUpdate 2 img).raiseCounter 1 (leAt img 4 4) →
      ∃ t, exec (.pbWrite run item) s = .next t ∧ ItemEnds u t run item stOk 0 64 ∧
        min (leAt img 4 4) (2 ^ 32 - 1) ≤ t.counter 1)))

/-- R257 to R260, R266 to R268, R290 to R293: the stage manager's upkeep of the memories. A stack's reading sets its temperature and
the doubled refresh; a marked lane moves to a spare; a patrol read or a sweep of a unit without an error corrects and marks
nothing, one with two bits in error makes it uncorrectable; an erase of a queued block counts and frees it. -/
def Obligations.MemoriesKeptUp : Prop :=
  (∀ (s : State) (readings : List (Option Int)) (now n : Nat) (v : Int),
    n < 8 → readings[n]? = some (some v) → (∀ w, some w ∈ readings → w < 400) →
    ∃ t, exec (.stackTempRead readings now) s = .next t ∧ t.fld (stackTempTemp n) = v.toNat ∧
      t.flag (stackTempSensorFail n) = false ∧
      t.flag (stackTempRefreshX2 n) = (decide (352 ≤ v.toNat) || (s.flag (stackTempRefreshX2 n) && decide (344 ≤ v.toNat))) ∧
      t.mem.dev = s.mem.dev ∧ t.runs = (s.tick now).runs ∧ t.rings = (s.tick now).rings) ∧
  (∀ (s : State) (stack pc lane : Nat), laneKey stack pc lane ∈ s.mem.marked → s.stackShut stack = false →
    s.rel.smUp = true → s.spareUsed stack pc = false →
    ∃ t, exec (.laneRemap stack pc lane) s = .next t ∧ laneKey stack pc lane ∉ t.mem.marked ∧
      laneKey stack pc lane ∈ t.mem.remapped ∧ t.runs = s.runs ∧ t.rings = s.rings ∧
      t.book.historySeq = s.book.historySeq + 1) ∧
  (∀ (s : State) (tier line now key : Nat) (w : Bool), tier < 2 → s.populated tier (line * 64) 64 = true →
    key = tier * 2 ^ 43 + line * 64 → s.scrubHeld key = false → s.mem.marked = [] → s.devBad key 64 = false →
    exec (.scrubPatrol tier line ⟨[], w, false, 0⟩ now) s = .next ((s.tick now).draw.noteStuck key ⟨[], w, false, 0⟩) ∧
    ∀ j lane, tier = 1 → j < 8 → w = false → s.fld memerrLogBaseBase = 0 → s.fld faultLogBaseBase = 0 →
      ∃ t, exec (.scrubPatrol 1 line ⟨[⟨j, lane, 2, false⟩], w, false, 0⟩ now) s = .next t ∧ key + 8 * j ∈ t.mem.badDev ∧
        t.mem.dev = s.mem.dev ∧ t.runs = (s.tick now).runs ∧ t.rings = (s.tick now).rings) ∧
  (∀ (s t : State) (word now lane : Nat), 8 * word < sramControl → s.sramBad (8 * word) 8 = false →
    t = { (s.tick now).draw with mem := { s.mem with stuckSram := cellPut s.mem.stuckSram (8 * word) none } } →
    exec (.sramSweep word ⟨[], false, false, 0⟩ now) s = .next t ∧
    exec (.sramSweep word ⟨[⟨0, lane, 1, false⟩], false, false, 0⟩ now) s = .next
      (t.memCorrected 5 t.scrubSource (t.sramPlace (8 * word)) (t.sramUnitId (8 * word))) ∧
    ∃ u, exec (.sramSweep word ⟨[⟨0, lane, 2, false⟩], false, false, 0⟩ now) s = .next u ∧ 8 * word ∈ u.mem.badSram) ∧
  (∀ (s : State) (b : Nat), s.flag flashStatusReady = true → s.rel.smUp = true → s.powerState ≠ 3 → s.batchPasses 0 = true →
    b ∈ s.flash.queued → s.blockTiles b = [] → s.blockErases b + 1 < s.flash.geom.endurance →
    ∃ t, exec (.flashMaintenance (.erase b true true)) s = .next t ∧ t.blockErases b = s.blockErases b + 1 ∧
      b ∉ t.flash.queued ∧ b ∉ t.flash.candidates ∧ t.runs = s.runs ∧ t.flash.cells = s.flash.cells ∧
      t.flash.owners = s.flash.owners ∧ t.mem = s.mem ∧ t.book = s.book)

/- ## Codecs and ingest (11 and 12) -/

/-- R313, R318, R327 to R335: the codec items. `DEC_AU` whose unit is read and decoded ends with its pictures' number and
damage and releases its stream block; `ENC_PICTURE` takes the stream and begins a picture; `ENC_BLOCK_ROW` codes the next block
row once its row fence is met and its input is read; `SLICE_EMIT` writes a finished slice, and after the last commits the
picture and ends the item, releasing the block. -/
def Obligations.CodecItemsEnd : Prop :=
  (∀ (s s0 s1 u : State) (run item : Nat) (r : Run) (e : ItemEnv) (z ent au : List Byte) (h : StreamHdr) (d : Done) (x : Item),
    s.itemReady 7 0 run item = some r → s0 = s.beginItem run item → e = r.env s item → z = payloadOf r.desc.bytes →
    decCheck.Gives e s0 () s0 → (decUnit z).Gives e s0 (ent, h, au) s1 → (decOutput z ent h au).Gives e s1 d u →
    d.status < 16 → u.CanEnd run item r → u.itemOf run item = some x → x.stage ≠ 0 →
    u.devShut (addrKey (leAt z 8 8) + 4) = false → u.devPartBad (addrKey (leAt z 8 8) + 4) 4 = false →
    (∀ j ∈ u.media.encodes, ¬(j.run = run ∧ j.item = item)) →
    ∃ t, exec (.decAu run item) s = .next t ∧ t.phaseOf run item = some (.ended d.status d.detail) ∧
      t.mem = (u.devWrite (addrKey (leAt z 8 8) + 4) (leBytes 4 0)).mem ∧ t.rings = u.rings ∧ t.outs = u.outs ∧
      ∀ k i, k ≠ run ∨ i ≠ item → t.itemOf k i = u.itemOf k i) ∧
  (∀ (s s0 s1 : State) (run item : Nat) (r : Run) (e : ItemEnv) (z : List Byte) (h : StreamHdr) (st : StreamState),
    s.itemReady 8 0 run item = some r → s0 = s.beginItem run item → e = r.env s item → z = payloadOf r.desc.bytes →
    encCheck.Gives e s0 () s0 → theJob.Gives e s0 none s0 → (encOpen z).Gives e s0 (h, st) s1 →
    exec (.encPicture run item) s = .next
      { s1 with media := { s1.media with encodes := s1.media.encodes ++ [encJob e z h st] } }) ∧
  (∀ (s s0 s1 s2 : State) (run item y q : Nat) (r : Run) (e : ItemEnv) (z cfg fence bytes : List Byte) (job : EncJob)
      (rows : List (List (List FVal))),
    s.itemReady 8 0 run item = some r → s0 = s.beginItem run item → e = r.env s item → z = payloadOf r.desc.bytes →
    (∃ j ∈ s.media.encodes, j.run = run ∧ j.item = item) → theJob.Gives e s0 (some job) s0 → cfg = job.state.cfg →
    y = job.rows.length → y < blockRowCount cfg → (bit (leAt z 68 4) 15 = false → s1 = s0) →
    (bit (leAt z 68 4) 15 = true → (readDev (s0.fenceKey r.ctx (leAt z 68 4 % 4096)) 4).Gives e s0 fence s1 ∧
      (bit (leNat fence) 16 = false ∨ flProceed r.desc.bytes = true) ∧
      fenceMet (leNat fence % 2 ^ 17) ((leAt z 68 4 / 65536 + item * blockRowCount cfg + y + 1) % 2 ^ 16) = true) →
    ((List.range (min 64 (cfgH cfg - 64 * y))).mapM fun k => (List.range 3).mapM fun c =>
      (loadKeep (inputRow z item (cfgH cfg) c (64 * y + k)) (rowBytes (leAt z 3 1 % 16) (cfgW cfg)) >>= fun bs =>
        pure (rowValues (leAt z 3 1 % 16) (cfgW cfg) bs []))).Gives e s1 rows s2 →
    q = rowQ cfg job y (rowBits job.rows) →
    bytes = Config.encodeRow (encRules (leAt z 1 1) cfg job.intra q) cfg job.state.bufs
      (blockRowSamples cfg (bit (leAt z 2 1) 2) rows) (job.rows.map Prod.snd) →
    exec (.encBlockRow run item) s = .next { s2 with media := { s2.media with
      encodes := (s2.media.encodes.map fun j => if j.run = e.run ∧ j.item = e.item then addRow z cfg j q bytes else j) } }) ∧
  (∀ (s s0 s1 : State) (run item : Nat) (r : Run) (e : ItemEnv) (z : List Byte) (job : EncJob) (sl : EncSlice)
      (rest : List EncSlice) (h : StreamHdr),
    s.itemReady 8 0 run item = some r → s0 = s.beginItem run item → e = r.env s item → z = payloadOf r.desc.bytes →
    (∃ j ∈ s.media.encodes, j.run = run ∧ j.item = item) → theJob.Gives e s0 (some job) s0 → job.pending = sl :: rest →
    (sliceOut z job sl rest).Gives e s0 h s1 →
    (bit sl.flags 0 = false → exec (.sliceEmit run item) s = .next s1) ∧
    (∀ (u : State) (d : Done) (x : Item), bit sl.flags 0 = true → (pictureCommit z job h).Gives e s1 d u →
      u.CanEnd run item r → u.itemOf run item = some x → x.stage ≠ 0 → d.status < 16 →
      u.devShut (addrKey (leAt z 8 8) + 4) = false → u.devPartBad (addrKey (leAt z 8 8) + 4) 4 = false →
      ∃ t, exec (.sliceEmit run item) s = .next t ∧ t.phaseOf run item = some (.ended d.status d.detail) ∧
        t.mem = (u.devWrite (addrKey (leAt z 8 8) + 4) (leBytes 4 0)).mem ∧ t.rings = u.rings ∧ t.outs = u.outs))

/-- R342 to R350: a feed. `FEED_START` reads and checks the block and waits for its engines; once all are held
`FEED_ENGINES_HELD` clears its fences, runs the feed and ends the item with the first global step in DETAIL; `FEED_STOP` releases
the engines, with the next step in DETAIL.

R338, R349, R351: `PERM_MAP` stores the clip indices of its positions under the keyed permutation, eight bytes each;
`FEED_STATUS` stores a feed's 64-byte status block. -/
def Obligations.FeedItemsEnd : Prop :=
  ((∀ (s s0 s1 : State) (run item n a : Nat) (r : Run) (e : ItemEnv) (engines : List Nat) (b : List Byte),
    s.itemReady 9 0 run item = some r → s0 = s.beginItem run item → e = r.env s item → leAt r.desc.bytes 33 3 = 0 →
    leAt r.desc.bytes 48 80 = 0 → n = leAt r.desc.bytes 32 1 → n < 4 → hdrItems r.desc.bytes = 0 →
    engines = maskEngines (leAt r.desc.bytes 36 4) → itemStage.Gives e s0 0 s0 → a = leAt r.desc.bytes 40 8 → a % 64 = 0 →
    s.ownMem a 128 = true → (load a 128).Gives e s0 b s1 → (s.feed n).state = 0 → engines ≠ [] →
    s.feedOk b r.ctx engines.length = true →
    (∀ x ∈ s.media.feeds, x.1 ≠ n → ∀ v ∈ x.2.engines, v ∉ engines) →
    exec (.feedStart run item) s = .next (((s1.setFeed n { Feed.idle with
        state := 1, ctx := r.ctx, run := e.run, item := item, engines := engines, block := b }).claimFor n engines).onItem e.run
      item fun x => { x with stage := 1 })) ∧
  (∀ (s w u : State) (n : Nat) (f : Feed) (c : FeedCfg) (src : ErrSource),
    f = s.feed n → f.state = 1 → w = s.claimFor n f.engines → c = feedCfg f.block →
    src = { source := 4, ctx := f.ctx, ring := 0, desc := 0, item := f.item, requester := s.member } →
    u = (f.engines.zipIdx.foldl (fun (u : State) (_, i) => u.initRegion (c.work + i * c.region) c.bufs c.bufBytes)
      ((w.putFence f.ctx c.fenceDone 0 src).putFence f.ctx c.fenceRet 0 src)).setFeed n { f with state := 2 } →
    (w.feedHolds n f.engines = false → exec (.feedEnginesHeld n) s = .next w) ∧
    (w.feedHolds n f.engines = true → s.itemOpen f.run f.item = true → s.waitsAck f.run f.item = false →
      (∀ q, s.findRun f.run = some q → hdrClass q.desc.bytes = 9) →
      ∃ t, exec (.feedEnginesHeld n) s = .next t ∧ ItemEnds u t f.run f.item stOk c.first 256 ∧ (t.feed n).state = 2)) ∧
  (∀ (s s0 : State) (run item n : Nat) (r : Run),
    s.itemReady 9 1 run item = some r → s0 = s.beginItem run item → leAt r.desc.bytes 33 95 = 0 →
    n = leAt r.desc.bytes 32 1 → n < 4 → hdrItems r.desc.bytes = 0 → s.waitsAck run item = false →
    (2 ≤ (s.feed n).state → ∃ t, exec (.feedStop run item) s = .next t ∧
      ItemEnds { s0.setFeed n Feed.idle with media := { (s0.setFeed n Feed.idle).media with
          claims := s.media.claims.filter fun x => x.2 != 2 ^ 32 + n } } t run item stOk
        ((feedCfg (s.feed n).block).first + (s.feed n).delivered) 256) ∧
    ((s.feed n).state = 0 → (s.feed n).gone = true → ∃ t, exec (.feedStop run item) s = .next t ∧
      ItemEnds (s0.setFeed n { s.feed n with gone := false }) t run item stOk 0xFFFFFFFFFFFFFFFF 256))) ∧
  ((∀ (s : State) (run item seed n epoch dest first count : Nat) (r : Run) (l : List (Nat × Nat)),
    s.itemReady 9 3 run item = some r → s.waitsAck run item = false → leAt r.desc.bytes 52 4 = 0 →
    leAt r.desc.bytes 76 52 = 0 → seed = leAt r.desc.bytes 32 8 → n = leAt r.desc.bytes 40 8 →
    epoch = leAt r.desc.bytes 48 4 → dest = leAt r.desc.bytes 56 8 → first = leAt r.desc.bytes 64 8 →
    count = leAt r.desc.bytes 72 4 → 1 ≤ n → n ≤ 2 ^ 40 → 1 ≤ count → count ≤ 65536 → first + item * count + count ≤ n →
    s.WritableHere (dest + 8 * (item * count)) (8 * count) →
    l = (List.range count).map (fun j => sigma seed epoch n (first + item * count + j)) →
    ∃ t, exec (.permMap run item) s = .next t ∧
      ItemEnds ((s.beginItem run item).devWrite (addrKey (dest + 8 * (item * count))) (l.flatMap fun x => leBytes 8 x.1)) t
        run item stOk 0 (64 + 10 * (l.foldl (fun a x => a + x.2) 0))) ∧
  (∀ (s : State) (run item n a : Nat) (r : Run),
    s.itemReady 9 2 run item = some r → s.waitsAck run item = false → leAt r.desc.bytes 33 7 = 0 →
    leAt r.desc.bytes 48 80 = 0 → n = leAt r.desc.bytes 32 1 → n < 4 → hdrItems r.desc.bytes = 0 →
    a = leAt r.desc.bytes 40 8 → a % 64 = 0 → s.WritableHere a 64 →
    ∃ t, exec (.feedStatus run item) s = .next t ∧
      ItemEnds ((s.beginItem run item).devWrite (addrKey a) (s.feedStatus (s.feed n))) t run item stOk 0 64))

/-- R344 to R346: the clips of a running feed. `CLIP_ASSIGN` gives the next clip of a batch whose buffer is free to the lowest
idle engine; `CLIP_DONE` ends a clip whose catalogue entry is bad with the entry's status, and decodes one whose tiles are
there; `BATCH_DELIVER` delivers the next batch once each of its clips has its status. -/
def Obligations.ClipsAssignedAndDelivered : Prop :=
  (∀ (s : State) (n v : Nat) (f f' : Feed) (c : FeedCfg) (k : Clip),
    f = s.feed n → c = feedCfg f.block → f.state = 2 → s.batchFree f (f.given / c.batch) = true →
    f.engines.find? (fun x => s.feedEngineIdle f x) = some v →
    k = { batch := f.given / c.batch, slot := f.given % c.batch, engine := v, region := f.freeRegion, status := none,
          frames := 0, damaged := 0, arrived := [] } →
    f' = { f with given := f.given + 1, clips := f.clips ++ [k] } →
    ∃ t, exec (.clipAssign n) s = .next t ∧ t = (s.setFeed n f').workClip n f' k false ∧ (t.feed n).given = f.given + 1) ∧
  (∀ (s w : State) (n clip : Nat) (f : Feed) (k : Clip) (ent : List Byte),
    f = s.feed n → f.state = 2 →
    f.clips.find? (fun k => k.batch * (feedCfg f.block).batch + k.slot == clip && k.status.isNone) = some k →
    s.devBad (addrKey (f.base k)) 266240 = false → s.clipEntry n f k = (w, .bytes ent) →
    (entryStatus ent (feedCfg f.block).maxTiles ≠ 0 →
      exec (.clipDone n clip) s = .next (w.failClip n f k (entryStatus ent (feedCfg f.block).maxTiles))) ∧
    (∀ x b, entryStatus ent (feedCfg f.block).maxTiles = 0 →
      w.clipTiles n f k (mkAddr (leAt ent 4 2) (2 * 2 ^ 43 + 65536 * leAt ent 0 4)) (65536 * leAt ent 8 4) = (x, .bytes b) →
      exec (.clipDone n clip) s = .next (x.decodeClip n f k (leAt ent 12 1) (leAt ent 8 4) b))) ∧
  (∀ (s : State) (n good : Nat) (f : Feed) (c : FeedCfg) (l : List Clip),
    f = s.feed n → c = feedCfg f.block → 2 ≤ f.state →
    s.devShut (addrKey c.hand + f.delivered % c.slots * c.handStride) = false →
    l = (List.range c.batch).filterMap (fun j => f.clips.find? fun k => k.batch == f.delivered && k.slot == j && k.status.isSome) →
    l.length = c.batch → good = (l.filter fun k => decide (k.status.getD 0 < 0x10)).length →
    ∃ t, exec (.batchDeliver n) s = .next t ∧
      t.feed n = { f with delivered := f.delivered + 1, good := f.good + good, failed := f.failed + (c.batch - good),
                          clips := f.clips.filter fun k => k.batch != f.delivered } ∧
      t.runs = s.runs ∧ t.rings = s.rings)

/- ## The fabric engine and teardown (13)

`w` is the state with block time moved on to the command's, with what the passing of time alone changes. -/

/-- R373 to R375: `FAB_COPY`, `FAB_ATOMIC` and `FAB_PUT` in the engine's turn. A copy between two ranges of this member moves
its bytes; an atomic on this member is performed at once and its old value stored, one on another member is sent and waited for;
a put stores its bytes, and waits for its acknowledgement where it goes to another member. -/
def Obligations.FabricTransfersEnd : Prop :=
  ∀ (s w s0 : State) (run item now : Nat) (r : Run) (e : ItemEnv) (d : List Byte),
    w = s.tick now → s0 = w.beginItem run item → e = r.env w item → d = r.desc.bytes → w.fabTurn run item = true →
    w.detached = false →
    (∀ (b : List Byte) (src dst len st : Nat) (s1 s2 : State), w.itemReady 0xA 0 run item = some r → leAt d 40 88 = 0 →
      leAt d 32 8 % 32 = 0 → fabEntry.Gives e s0 b s1 → src = leAt b 0 8 → dst = leAt b 8 8 → len = leAt b 16 4 →
      regTier src = false → regTier dst = false → 64 ≤ len → len ≤ 2 ^ 30 → len % 64 = 0 → zeroAt b 20 12 = true →
      s1.placesMeet len (globPlace src) (globPlace dst) = false → itemStage.Gives e s1 st s1 → st ≠ 3 →
      s2 = s1.afterRead (r.env w item) src len →
      (src % 64 = 0 → dst % 64 = 0 → s1.ReadableHere src len → s1.WritableHere dst len → s2.WritableHere dst len →
        s2.CanEnd run item r →
        ∃ t, exec (.fabCopy run item now) s = .next t ∧
          ItemEnds (s2.devWrite (addrKey dst) (s1.devRead (addrKey src) len)) t run item stOk (moveLines len) (256 + len / 64)) ∧
      (∀ c u, (placesCheck (globPlace src) (globPlace dst) len).Gives e s1 () s1 →
        (copyRange (globPlace src) (globPlace dst) len).Gives e s1 c u → c.status < 16 →
        (u.CanEnd run item r →
          ∃ t, exec (.fabCopy run item now) s = .next t ∧ ItemEnds u t run item c.status c.detail c.cycles) ∧
        (u.itemOpen run item = true → u.waitsAck run item = true →
          ∃ t, exec (.fabCopy run item now) s = .next t ∧ t.phaseOf run item = some (.acking c.status c.detail) ∧
            t.mem = u.mem))) ∧
    (∀ (b : List Byte) (op a n res st : Nat) (s1 : State), w.itemReady 0xA 1 run item = some r → leAt d 41 87 = 0 →
      op = leAt d 40 1 → op < 4 → itemStage.Gives e s0 st s0 → st ≠ 1 → fabEntry.Gives e s0 b s1 → a = leAt b 0 8 →
      n = atomicSize op → res = leAt d 32 8 + 32 * item + 24 → regTier a = false → a % n = 0 → addrBad a n = false →
      (checkWrite res 8).Gives e s1 () s1 →
      (∀ u, s1.isOwn (addrMember a) = true → s1.populated (addrTier a) (addrOff a) n = true → s1.devShut (addrKey a) = false →
        s1.devBad (addrKey a) n = false →
        (storeAt res (leBytes 8 (s1.atomic r.ctx (addrKey a) op (leAt b 8 8) (leAt b 16 8)).2)).Gives e
          (s1.atomic r.ctx (addrKey a) op (leAt b 8 8) (leAt b 16 8)).1 () u → u.CanEnd run item r →
        ∃ t, exec (.fabAtomic run item now) s = .next t ∧ ItemEnds u t run item stOk 0 64) ∧
      (∀ x, s1.isOwn (addrMember a) = false → (remoteOk (addrMember a) 1 true).Gives e s1 () s1 →
        s1.sendRequest (s1.request ptAtomic r.ctx a 24
          (leBytes 8 op ++ leBytes 8 (leAt b 8 8) ++ leBytes 8 (leAt b 16 8))) false (.atomic r.id item res) none = some x →
        exec (.fabAtomic run item now) s = .next (x.onItem r.id item fun y => { y with stage := 1 }))) ∧
    (∀ (a n : Nat) (s1 u : State), w.itemReady 0xA 2 run item = some r → leAt d 41 7 = 0 → leAt d 112 16 = 0 →
      hdrItems d = 0 → a = leAt d 32 8 → n = leAt d 40 1 → 1 ≤ n → n ≤ 64 →
      (store a (((payloadOf d).drop 16).take n)).Gives e s0 () s1 →
      u = (if s1.isOwn (addrMember a) && s1.inFenceTable (addrKey a) then s1.wakeDimmed else s1) →
      (u.CanEnd run item r → ∃ t, exec (.fabPut run item now) s = .next t ∧ ItemEnds u t run item stOk 0 64) ∧
      (u.itemOpen run item = true → u.waitsAck run item = true →
        ∃ t, exec (.fabPut run item now) s = .next t ∧ t.phaseOf run item = some (.acking stOk 0) ∧ t.mem = u.mem))

/-- R372, R376, R377: `FAB_FENCE` ends at once where the context has no earlier write to its members outstanding, and otherwise waits for
them (and, in chorus mode, for the DRAIN_RETURN of every other member); `FAB_STOP` floods its message, holds the context on this member too, and ends once the message has left; `ROUTE_PATCH`
floods its pairs and waits for its generation to be announced. -/
def Obligations.FabricOrderingItems : Prop :=
  ∀ (s w s0 : State) (run item now : Nat) (r : Run) (e : ItemEnv) (d : List Byte),
    w = s.tick now → s0 = w.beginItem run item → e = r.env w item → d = r.desc.bytes → w.fabTurn run item = true →
    w.detached = false → w.waitsAck run item = false →
    (∀ (m st : Nat) (tags : List Nat), w.itemReady 0xA 3 run item = some r → itemStage.Gives e s0 st s0 → st ≠ 1 →
      leAt d 33 7 = 0 → leAt d 42 2 = 0 → leAt d 46 82 = 0 → leAt d 32 1 = 0 → m = leAt d 40 2 → m < 4096 →
      leAt d 44 2 < 1024 → (w.isOwn m = true ∨ (remoteOk m 1 false).Gives e s0 () s0) →
      tags = w.openTags r.ctx (fun q => q.writes && (q.dst == m || w.lookupMember q.dst == w.lookupMember m)) →
      (tags = [] → ∃ t, exec (.fabFence run item now) s = .next t ∧ ItemEnds s0 t run item stOk 0 64) ∧
      (tags ≠ [] → exec (.fabFence run item now) s = .next
        (({ s0 with fab := { s0.fab with fences := s0.fab.fences ++
            [{ run := r.id, item := item, drain := s0.fab.nextDrain, waits := tags, members := [] }] } } : State).onItem r.id item
          fun x => { x with stage := 1 }))) ∧
    (∀ (st : Nat) (tags others : List Nat) (x : State), w.itemReady 0xA 3 run item = some r → itemStage.Gives e s0 st s0 →
      st ≠ 1 → leAt d 33 7 = 0 → leAt d 42 2 = 0 → leAt d 46 82 = 0 → leAt d 32 1 = 1 → leAt d 40 2 < 4096 →
      leAt d 44 2 < 1024 → (w.chorusAt r.chorusGen).valid (leAt d 44 2) = true →
      others = (((w.chorusAt r.chorusGen).rankSlots (leAt d 44 2)).map slotMember).filter (fun m => !w.isOwn m) → others ≠ [] →
      (∀ m ∈ others, (remoteOk m 0 true).Gives e s0 () s0) →
      tags = w.openTags r.ctx (fun q => q.writes &&
        others.any fun m => m == q.dst || w.lookupMember m == w.lookupMember q.dst) →
      x = { s0 with fab := { s0.fab with
        nextDrain := (s0.fab.nextDrain + 1) % 2 ^ 32,
        fences := s0.fab.fences ++
          [{ run := r.id, item := item, drain := s0.fab.nextDrain, waits := tags, members := others }] } } →
      exec (.fabFence run item now) s = .next
        ((others.foldl (fun (u : State) m => u.sendDrain m r.ctx s0.fab.nextDrain) x).onItem r.id item fun y =>
          { y with stage := 1 })) ∧
    (∀ (c n resume : Nat) (body : List Byte) (x : State), w.itemReady 0xA 4 run item = some r → itemStage.Gives e s0 0 s0 →
      hdrItems d = 0 → c = leAt d 32 1 → c = r.ctx ∨ w.managed r.desc.ring = true → leAt d 33 3 = 0 → leAt d 40 88 = 0 →
      n = leAt d 36 4 → c < 64 → 1 ≤ n → n ≤ 64 → resume = (w.cueNo + n) % 2 ^ 32 →
      body = leBytes 1 c ++ leBytes 3 0 ++ leBytes 4 resume →
      x = ((s0.originate (s0.prompter ptStop 0 true body)).takeStop c resume).onItem r.id item
        (fun y => { y with stage := resume + 1 }) →
      x.stopHeld c = true ∧
      (x.stillWaiting ptStop body = true → exec (.fabStop run item now) s = .next x) ∧
      (x.stillWaiting ptStop body = false → ∃ t, exec (.fabStop run item now) s = .next t ∧
        ItemEnds x t run item stOk 0 64)) ∧
    (∀ (gen n st : Nat), w.itemReady 0xA 5 run item = some r → w.managed r.desc.ring = true → hdrItems d = 0 →
      itemStage.Gives e s0 st s0 → st ≠ 1 → gen = leAt d 32 2 → n = leAt d 34 1 → gen ≠ 0 → 1 ≤ n → n ≤ 8 → leAt d 35 1 = 0 →
      leAt d (36 + 4 * n) (92 - 4 * n) = 0 → (∀ k, k < 2 * n → leAt (payloadOf d) (4 + 2 * k) 2 < 4096) →
      exec (.routePatch run item now) s = .next
        (({ s0.floodPatch gen (patchPairsOf (payloadOf d) n) with fab := { (s0.floodPatch gen (patchPairsOf (payloadOf d) n)).fab with
            patches := (s0.floodPatch gen (patchPairsOf (payloadOf d) n)).fab.patches ++ [(r.id, item, gen)] } } : State).onItem
          r.id item fun x => { x with stage := 1 }))

/-- R382 to R386: `CONTEXT_TEARDOWN` marks the context tearing, advances its generation and records the members whose return it
awaits; at the reuse point (no member left, or the fourth cue after it, and this member's requests drained) the context's
granules are free, the teardown is over, and the item ends with the number and the lowest of the members that did not return. -/
def Obligations.ContextsTornDown : Prop :=
  (∀ (s w s0 : State) (run item now c st : Nat) (r : Run) (e : ItemEnv),
    w = s.tick now → s0 = w.beginItem run item → e = r.env w item → w.itemReady 0 7 run item = some r →
    w.managed r.desc.ring = true → leAt r.desc.bytes 33 95 = 0 → c = leAt r.desc.bytes 32 1 → c < 64 →
    itemStage.Gives e s0 st s0 → st ≠ 1 → w.flag (ctxFabricTearing c) = false → c ∉ w.fab.advanced →
    ∃ t, exec (.contextTeardown run item now) s = .next t ∧ t.flag (ctxFabricTearing c) = true ∧
      t.ctxGen c = (s.ctxGen c + 1) % 256 ∧ c ∉ t.sched.runnable ∧
      ∃ x ∈ t.fab.teardowns, x.ctx = c ∧ x.item = some (r.id, item) ∧ x.gen = (s.ctxGen c + 1) % 256 ∧
        x.members = w.teardownMembers c r.chorusGen ∧ x.cue = s.cueNo) ∧
  (∀ (s w x y u : State) (now c run item n first : Nat) (d : Teardown),
    w = s.tick now → w.fab.teardowns.find? (fun x => x.ctx == c && x.item.isSome) = some d → d.item = some (run, item) →
    d.members = [] ∨ d.cue + 4 ≤ s.cueNo → w.drained d.waits = true → n = d.members.length →
    first = d.members.foldl min (d.members.headD 0) →
    x = { w with fab := { w.fab with teardowns := w.fab.teardowns.filter fun y => decide (y ≠ d) } } →
    y = ((x.freeGranules c).writeReport c d.members).setFlag (ctxFabricTearing c) false → u = (if n = 0 then y else y.event) →
    s.itemOpen run item = true → s.waitsAck run item = false →
    (∀ q, s.findRun run = some q → hdrClass q.desc.bytes = 0) →
    ∃ t, exec (.teardownReusePoint c now) s = .next t ∧
      ItemEnds u t run item stOk (n % 65536 + 2 ^ 16 * first + 2 ^ 32 * u.framesOwned c) 0 ∧
      (∀ g ∈ t.mem.owners, g.2 ≠ 1 + c) ∧ t.flag (ctxFabricTearing c) = false)

/- ## Collectives (14_collectives.md) -/

/-- R397 to R406: the halves `RS_HALF`, `AG_HALF`, `BCAST`, `BARRIER` and the gradient bucket `GRAD_REDUCE`, on a rank of a valid
entry with a payload that passes its checks. A half with nothing to do ends EMPTY, a bucket that only accumulates ends at once;
any other sends its parts, and ends with its result written once a part from every rank it needs is there. -/
def Obligations.CollectiveHalvesEnd : Prop :=
  ∀ (s w s0 : State) (run item now op ranks : Nat) (c : Instr) (r : Run) (e : ItemEnv) (i : ChorusImage) (p : CollPay),
    (op = 0 ∧ c = .rsHalf run item now) ∨ (op = 1 ∧ c = .agHalf run item now) ∨ (op = 2 ∧ c = .bcastHalf run item now) ∨
      (op = 3 ∧ c = .barrierHalf run item now) ∨ (op = 4 ∧ c = .gradReduce run item now) →
    w = s.tick now → w.itemReady 0xB op run item = some r → s0 = w.beginItem run item → e = r.env w item →
    w.detached = false → i = w.chorusAt r.chorusGen → p = collPay r.desc.bytes → ranks = (i.rankSlots p.entry).length →
    (∀ (h : Half) (u : State) (dt cy : Nat), w.halfOf run item = some h → h.whole ranks p.root = true →
      (finishHalf h ranks p).Gives e s0 ⟨stOk, dt, cy⟩ u → u.CanEnd run item r →
      ∃ t, exec c s = .next t ∧ ItemEnds u t run item stOk dt cy) ∧
    (∀ (me : Nat) (b : List Byte) (x : CollItem) (h0 : Half) (s1 s2 : State), s0.halfOf e.run e.item = none →
      (collCheck r.desc.bytes op).Gives e s0 () s0 → (collBound r.desc.bytes op r.chorusGen).Gives e s0 () s0 →
      s0.rankOf i p.entry s0.member = some me → (load (p.list + 32 * item) 32).Gives e s0 b s1 → x = collItem b →
      (noteCount x.seq).Gives e s1 () s2 → s0.collItemOk x op ranks me p = true →
      h0 = s0.newHalf e p x r.chorusGen op me →
      (x.count = 0 → op ≠ 3 → (s2.noteHalf h0 stEmpty).CanEnd run item r →
        ∃ t, exec c s = .next t ∧ ItemEnds (s2.noteHalf h0 stEmpty) t run item stEmpty (collDetail x.seq 0 0) 0) ∧
      (x.count ≠ 0 ∨ op = 3 → ∀ (bs : List Byte) (s3 : State), (ownBytes op me ranks x p).Gives e s2 bs s3 →
        (p.reducing op = false → (s3.noteHalf h0 stOk).CanEnd run item r →
          ∃ t, exec c s = .next t ∧
            ItemEnds (s3.noteHalf h0 stOk) t run item stOk (collDetail x.seq 0 1) (64 + x.count / 16)) ∧
        (∀ (h : Half) (s4 : State), p.reducing op = true →
          (startHalf h0 (i.rankSlots p.entry) p.root bs).Gives e s3 h s4 →
          (h.whole ranks p.root = false → exec c s = .next s4) ∧
          (∀ (u : State) (dt cy : Nat), h.whole ranks p.root = true →
            (finishHalf h ranks p).Gives e s4 ⟨stOk, dt, cy⟩ u → u.CanEnd run item r →
            ∃ t, exec c s = .next t ∧ ItemEnds u t run item stOk dt cy))))

/-- R415, R416, R417: `MIRROR` makes its slot on the buddy incomplete, copies the extents to the banks of the manifest's SEQ, then
writes the extents and last the header, each once the one before is visible there; `RESTORE` reads the newer complete slot and
writes its extents back. -/
def Obligations.MirrorsWrittenAndRestored : Prop :=
  (∀ (s w s0 s1 s2 u : State) (run item now entry man hdr v buddy slot stage : Nat) (r : Run) (e : ItemEnv) (i : ChorusImage)
      (m : Manifest) (h ext : List Byte),
    w = s.tick now → w.itemReady 0xB 5 run item = some r → s0 = w.beginItem run item → e = r.env w item →
    mirrorEntry.Gives e s0 (entry, i) s0 → leAt r.desc.bytes 34 6 = 0 → man = leAt r.desc.bytes 40 8 → buddyHdr.Gives e s0 hdr s0 →
    (i.rankSlots entry).find? (fun v => s0.slotHeld s0.member v) = some v → slotWatched v = true → w.collRange man 64 = true →
    buddy = slotBuddy v → (load man 64).Gives e s0 h s1 → m = manifest h → manifestOk h = true → m.state = 0 →
    m.origin = w.member → w.collRange man (64 + 32 * m.extents) = true → (load (man + 64) (32 * m.extents)).Gives e s1 ext s2 →
    (∀ k, k < m.extents → extentOk w.collRange ext k = true) → slot = onBuddy buddy hdr + 65536 * (m.seq % 2) →
    itemStage.Gives e s2 stage s2 → w.waitsAck run item = false →
    (stage = 0 → (store (slot + 6) (leBytes 1 0)).Gives e s2 () u →
      exec (.mirrorState run item now) s = .next (u.onItem r.id item fun x => { x with stage := 1 })) ∧
    (stage = 1 → (mirrorCopy buddy m.seq ext m.extents).Gives e s2 () u →
      exec (.mirrorState run item now) s = .next (u.onItem r.id item fun x => { x with stage := 2 })) ∧
    (stage = 2 → (store (slot + 64) ext).Gives e s2 () u →
      exec (.mirrorState run item now) s = .next (u.onItem r.id item fun x => { x with stage := 3 })) ∧
    (stage = 3 → (store slot (mirrorHeader m w.cueNo ext)).Gives e s2 () u → u.itemOpen run item = true →
      ∃ t, exec (.mirrorState run item now) s = .next t ∧
        (u.waitsAck run item = true → t.phaseOf run item = some (.acking stOk m.seq) ∧ t.mem = u.mem) ∧
        (u.CanEnd run item r → ItemEnds u t run item stOk m.seq (256 + extentBytes ext m.extents / 64)))) ∧
  (∀ (s w s0 s1 s2 s3 u : State) (run item now entry lost hdr v : Nat) (r : Run) (e : ItemEnv) (i : ChorusImage) (m : Manifest)
      (ext : List Byte) (a b : Option (Manifest × List Byte)) (parts : List (Extent × List Byte)),
    w = s.tick now → w.itemReady 0xB 6 run item = some r → s0 = w.beginItem run item → e = r.env w item →
    mirrorEntry.Gives e s0 (entry, i) s0 → leAt r.desc.bytes 36 12 = 0 → lost = leAt r.desc.bytes 34 2 → lost < 4096 →
    buddyHdr.Gives e s0 hdr s0 → (i.rankSlots entry).find? (fun v => slotMember v == lost) = some v → slotWatched v = true →
    w.mayRestore lost entry = true → (readSlot (onBuddy (slotBuddy v) hdr) lost).Gives e s0 a s1 →
    (readSlot (onBuddy (slotBuddy v) hdr + 65536) lost).Gives e s1 b s2 → bestSlot a b = some (m, ext) →
    (bankParts (slotBuddy v) m ext).Gives e s2 parts s3 →
    (∀ q ∈ parts, w.collRange (onBuddy w.member q.1.addr) q.1.len = true) → (storeParts w.member parts).Gives e s3 () u →
    u.CanEnd run item r →
    ∃ t, exec (.restoreMirror run item now) s = .next t ∧
      ItemEnds u t run item stOk m.seq (256 + extentBytes ext m.extents / 64))

/-- R400, R407, R409, R413: a packet of a collective of this member's generation is acknowledged and held for a half that has not
begun, joined to the half under way, or dropped as stale; a half that has waited WAIT_CUES boundaries ends TIMEOUT with the first
rank that it lacks; and a candidate whose turn has come takes a lost member over. -/
def Obligations.PacketsMeetTheirHalves : Prop :=
  (∀ (s u : State) (k : CollPacket) (q : Packet),
    s.ctxGen k.context = k.fabGen → k.fabGen < 256 → s.powerState ≠ 3 → s.flag (ctxCtrlEn k.context) = true → u = s.dropHeld →
    q = collRequest k u.member → (∀ y, u.lastEnded k.context k.entry = some y → seqAbove k.seq y.1 = true ∧ k.seq ≠ y.1) →
    (u.coll.halves.find? (fun h => meetsHalf k h) = none → u.earlyBytes + k.data.length ≤ 64 * MiB →
      exec (.collectivePacket k) s = .next
        (({ u with coll := { u.coll with early := u.coll.early ++ [k] } } : State).respond q ptWriteAck 0 [])) ∧
    (∀ h, u.coll.halves.find? (fun h => meetsHalf k h) = some h → h.skew k = 0 →
      exec (.collectivePacket k) s = .next
        ((({ u with coll := { u.coll with halves := u.coll.halves.map fun g =>
          if g.run = h.run ∧ g.item = h.item ∧ !(g.got.any fun x => x.1 == k.rank) then { g with got := g.got ++ [(k.rank, k.data)] }
          else g } } : State).respond q ptWriteAck 0 []).runItem 0xB h.op (halfWork h.op) h.run h.item))) ∧
  (∀ (s : State) (k : CollPacket) (q st : Nat),
    s.ctxGen k.context = k.fabGen → k.fabGen < 256 → s.powerState ≠ 3 → s.flag (ctxCtrlEn k.context) = true →
    s.dropHeld.lastEnded k.context k.entry = some (q, st) → seqAbove k.seq q = false → ¬(k.seq = q ∧ 0x10 ≤ st) →
    exec (.collectivePacket k) s = .next (s.dropHeld.bump collStaleDropsCount)) ∧
  (∀ (s : State) (run item k : Nat) (h : Half) (r : Run) (y : Item) (slots : List Nat),
    s.halfOf run item = some h → s.findRun run = some r → slots = (s.chorusAt h.gen).rankSlots h.entry →
    (if h.op = 2 then [(collPay r.desc.bytes).root] else List.range slots.length).find?
      (fun k => !(h.got.any fun g => g.1 == k)) = some k →
    (collPay r.desc.bytes).wait ≤ h.waited → hdrClass r.desc.bytes = 0xB → s.itemOpen run item = true →
    s.itemOf run item = some y → y.note nkCount = [h.seq] →
    ∃ t, exec (.halfWaitTimeout run item) s = .next t ∧
      t.phaseOf run item = some (.ended stTimeout (collDetail h.seq (slotMember (slots.getD k 0)) 0)) ∧ t.mem = s.mem ∧
      t.rings = s.rings) ∧
  (∀ (s w : State) (lost entry now k : Nat) (x : Takeover),
    w = s.tick now → w.coll.takeovers.find? (fun t => t.lost == lost && t.entry == entry) = some x →
    (w.candidates entry).findIdx? (fun u => u == w.member) = some k → x.acted = false → w.muted = false → x.cue + 3 * k ≤ w.cueNo →
    (∀ a ∈ w.fab.route.aliases, a.1 ≠ lost) → (∀ a ∈ w.announcedPairs, a.1 ≠ lost) →
    exec (.understudyTakeover lost entry now) s = .next
      ((({ w with coll := { w.coll with takeovers := w.coll.takeovers.map fun x =>
        if x.lost = lost ∧ x.entry = entry then { x with acted := true } else x } } : State).chorusEvent
          ⟨2, 0, lost, w.member, 0, entry⟩).floodPatch
        (if w.fld routeStatusGen = 65535 then 1 else w.fld routeStatusGen + 1) [(lost, w.member)]))

/- ## The ports (R352 to R365, R388) -/

/-- R356, R357: `PORT_ENABLE` starts training; a port that trains on four lanes is up, knows its peer and its delay, and one that
trains on two where it may degrade is up on two; eight failed replays or 2 µs without a good flit retrain it, and 20 µs or three
retrains within 1 ms take it down. -/
def Obligations.PortsTrainAndGoDown : Prop :=
  (∀ (s : State) (n : Nat) (v : BitVec 32), n < 12 → s.hostServes (rFabPortCtrl n) = true → s.isSealed = false →
    s.flag (fabPortCtrlEn n) = false → bit v.toNat 0 = true →
    ∃ t, exec (.portEnable n v) s = .next t ∧ t.flag (fabPortCtrlEn n) = true ∧ t.portState n = 1 ∧ t.port n = Port.init ∧ (∀ k, k < 12 → k ≠ n → t.port k = s.port k ∧ t.portState k = s.portState k) ∧ t.mem = s.mem) ∧
  (∀ (s w : State) (n now : Nat) (p : PeerInfo), n < 12 → w = s.tick now → w.portState n = 0 ∨ w.portState n = 1 →
    p.isSwitch = true ∨ p.member ≠ w.member → p.member < 4096 → p.port < 16 → 4 ≤ p.lanes ∨ (2 ≤ p.lanes ∧
      w.flag (fabPortCtrlDegradeEn n) = true) →
    ∃ t, exec (.portTrained n p now) s = .next t ∧ t.portState n = (if 4 ≤ p.lanes then 2 else 3) ∧
      (t.port n).trained = true ∧ (t.port n).everUp = true ∧ t.flag (fabPortStatusPeerSwitch n) = p.isSwitch ∧
      t.fld (fabPortStatusPeer n) = (if p.isSwitch then 0 else p.member) ∧ t.fld (fabPortStatusPeerPort n) = p.port ∧
      t.fld (fabPortStatusDelayNs n) = min p.delayNs 4095) ∧
  (∀ (s w : State) (n now : Nat), w = s.tick now → w.linkUp2 n = true →
    8 ≤ (w.port n).failedReplays ∨ (w.port n).lastGood + 2000 ≤ w.now →
    exec (.portRetrain n now) s = .next
      ((w.setPort n { w.port n with failedReplays := 0, retrains := w.now :: recentRetrains (w.port n).retrains w.now }).setFld
        (fabPortStatusState n) 1)) ∧
  (∀ (s w : State) (n now : Nat), n < 12 → w = s.tick now → w.portUp n = true →
    (w.port n).lastGood + 20000 ≤ w.now ∨ 3 ≤ (recentRetrains (w.port n).retrains w.now).length →
    ∃ t, exec (.portDown n now) s = .next t ∧ t.portState n = 0 ∧ t.port n = { Port.init with everUp := (w.port n).everUp })

/-- R355, R356: `FLIT_RECEIVE` of the flit that is due counts it and, at the 64th, acknowledges; one with a bad CRC asks for a
replay; an acknowledgement gives back credits and frees the flits up to it in the replay buffer; and `ACK_TIMER` acknowledges what is not yet
acknowledged.

R357, R388: an event on a lane of a port on four lanes that may degrade stops new flits, and once that is done the port is
up on two; `REWIDEN_REQUEST` is noted, and the retraining of an intermission, or of a boundary where there is none, brings back
four lanes if all pass.

R358, R362, R363: an ECHO carries fabric time and its answer gives it back with the turnaround; the reply sets the port's
delay to half the round trip less the turnaround; a packet of a reserved type, and one whose age is past 500 µs, is dropped and
counted. -/
def Obligations.LinksCarryFlits : Prop :=
  ((∀ (s w : State) (n now : Nat) (f : FlitIn), w = s.tick now → w.linkUp2 n = true →
    (f.crcOk = false → exec (.flitReceive n f now) s = .next ((w.setPort n { w.port n with unacked := 0, owed := [0, 0, 0, 0] }).emit
      (.ctrlFlit n (((w.port n).rxSeq + 1023) % 1024) (some (w.port n).rxSeq) (w.port n).owed))) ∧
    (f.crcOk = true → f.ctrl = false → f.seq = (w.port n).rxSeq →
      ∃ t, exec (.flitReceive n f now) s = .next t ∧ (t.port n).rxSeq = ((w.port n).rxSeq + 1) % 1024 ∧
        (t.port n).lastGood = w.now ∧ (t.port n).unacked = (if (w.port n).unacked + 1 < 64 then (w.port n).unacked + 1 else 0) ∧
        t.outs = (if (w.port n).unacked + 1 < 64 then s.outs else .ctrlFlit n ((w.port n).rxSeq % 1024) none
          (modifyAt (fun c => c + 1) f.vc (w.port n).owed) :: s.outs) ∧
        t.regs = s.regs ∧ t.mem = s.mem ∧ t.runs = w.runs) ∧
    (∀ a, f.crcOk = true → f.ctrl = true → f.ack = some a → f.nak = none → (w.port n).queue = [] →
      ∃ t, exec (.flitReceive n f now) s = .next t ∧ (t.port n).lastGood = w.now ∧
        (t.port n).replay = (w.port n).replay.filter (fun x => !seqLe x.1 a) ∧
        (t.port n).credits = ((w.port n).credits.zipIdx.map fun (c, vc) => c + f.credits.getD vc 0) ∧ t.outs = s.outs ∧ t.regs = s.regs)) ∧
  (∀ (s : State) (n : Nat), s.linkUp2 n = true → (s.port n).unacked ≠ 0 →
    exec (.ackTimer n) s = .next ((s.setPort n { s.port n with unacked := 0, owed := [0, 0, 0, 0] }).emit
      (.ctrlFlit n (((s.port n).rxSeq + 1023) % 1024) none (s.port n).owed)))) ∧
  ((∀ (s w : State) (n lane now : Nat), w = s.tick now → w.portState n = 2 → lane < 4 → lane ∉ (w.port n).badLanes →
    (w.port n).paused = false → w.flag (fabPortCtrlDegradeEn n) = true →
    exec (.laneDegrade n lane now) s = .next ((w.setPort n { w.port n with
      badLanes := (w.port n).badLanes ++ [lane], paused := true }).bump (fabPortErrDegrades n))) ∧
  (∀ (s : State) (n : Nat), n < 12 → (s.port n).paused = true →
    ∃ t, exec (.degradeComplete n) s = .next t ∧ t.portState n = 3 ∧ (t.port n).paused = false ∧
      ((s.port n).queue = [] → (t.port n).queue = []) ∧ t.mem = s.mem ∧ t.runs = s.runs) ∧
  (∀ (s : State) (n : Nat) (v : BitVec 32), n < 12 → s.hostServes (rFabPortCtrl n) = true → s.portState n = 3 →
    bit v.toNat 0 = s.flag (fabPortCtrlEn n) → bit v.toNat 1 = s.flag (fabPortCtrlDegradeEn n) → bit v.toNat 2 = true →
    ∃ t, exec (.rewidenRequest n v) s = .next t ∧ t.port n = { s.port n with rewiden := true } ∧ t.portState n = 3 ∧
      t.mem = s.mem) ∧
  (∀ (s : State) (n : Nat) (allPass : Bool), (s.port n).rewiden = true → s.portState n = 3 →
    s.blockingMode = false ∨ s.hasIntermission = false ∨ s.sched.intermission = true →
    ∃ t, exec (.rewidenRetrain n allPass) s = .next t ∧ t.portState n = (if allPass then 2 else 3) ∧
      t.port n = { s.port n with rewiden := false, badLanes := if allPass then [] else (s.port n).badLanes } ∧ t.mem = s.mem)) ∧
  ((∀ (s w : State) (n now : Nat), w = s.tick now → w.linkUp2 n = true →
    exec (.echoTimer n now) s = .next (w.sendOn n (w.linkPacket ptEcho (leBytes 8 w.fabricNs)))) ∧
  (∀ (s w : State) (n now sendAt : Nat) (p : Packet), w = (s.tick now).tick sendAt → p.type = ptEcho → w.linkUp2 n = true →
    exec (.echoRequest n p now sendAt) s = .next
      (w.sendOn n (w.linkPacket ptEchoReply (leBytes 8 (leAt p.data 0 8) ++ leBytes 4 (sendAt - now))))) ∧
  (∀ (s w : State) (n now : Nat) (p : Packet), w = s.tick now → p.type = ptEchoReply → w.linkUp2 n = true →
    ∃ t, exec (.echoReply n p now) s = .next t ∧
      t.fld (fabPortStatusDelayNs n) = min ((w.fabricNs - leAt p.data 0 8 - leAt p.data 8 4) / 2) 4095 ∧
      t.fab = w.fab ∧ t.mem = s.mem ∧ ∀ o, o ≠ rFabPortStatus n → t.reg o = s.reg o) ∧
  (∀ (s : State) (p : Packet), typeKnown p.type = false →
    exec (.reservedPacketType p) s = .next (s.bump fabNorouteDropsCount)) ∧
  (∀ (s w : State) (p : Packet) (now : Nat), w = s.tick now → w.aged p = true →
    ∃ t, exec (.packetAged p now) s = .next t ∧ t.fld fabAgedDropsCount = satAdd 32 (s.fld fabAgedDropsCount) 1 ∧
      (∀ n x, x ∈ (t.port n).queue → x.2 ≠ p) ∧ t.mem = s.mem ∧ t.runs = w.runs))

/- ## Requests of other members and the responses to this member's (13_remote_memory) -/

/-- R361, R375, R379, R382, Table 13.9: a request of the context's own generation, addressed to this member, of an enabled context
and within the packet's time, is performed at once and answered: a read with the data, a write with WRITE_ACK, an atomic with
the old value. -/
def Obligations.RequestsPerformedAndAnswered : Prop :=
  ∀ (s w : State) (p : Packet) (now k n : Nat),
    w = s.tick now → w.aged p = false → w.isOwn p.dst = true → w.genBehind (p.context % 64) p.gen = 0 →
    (w.choosePort (w.adaptiveCtx (p.context % 64)) 2 p.src).isSome = true → w.powerState ≠ 3 →
    w.flag (ctxCtrlEn (p.context % 64)) = true → w.addressed p = true → addrTier p.addr < 2 → k = addrKey p.addr →
    w.populated (addrTier p.addr) (addrOff p.addr) n = true → w.hostShut k = false →
    (p.length = n → p.epoch = none → w.devBad k n = false →
      (p.type = ptRead → 1 ≤ n → n ≤ 256 → exec (.readRequest p now) s = .next
        ((w.meetCells (requestSource p) k n).respond p ptReadData 0 (w.devRead k n))) ∧
      (p.type = ptBulkRead → 64 ≤ n → n ≤ 4096 → n % 64 = 0 →
        exec (.bulkReadRequest p now) s = .next
          ((w.meetCells (requestSource p) k n).respond p ptReadData 0 (w.devRead k n)))) ∧
    (∀ t, t = (if w.inFenceTable k then (w.devWrite k p.data).wakeDimmed else w.devWrite k p.data) → p.data.length = n →
      w.devPartBad k n = false →
      (p.type = ptWrite → 1 ≤ n → n ≤ 256 → exec (.writeRequest p now) s = .next (t.respond p ptWriteAck 0 [])) ∧
      (p.type = ptBulkWrite → 64 ≤ n → n ≤ 4096 → n % 64 = 0 →
        exec (.bulkWriteRequest p now) s = .next (t.respond p ptWriteAck 0 []))) ∧
    (∀ op t, op = leAt p.data 0 8 → op < 4 → n = atomicSize op → p.data.length = 24 → p.addr % n = 0 → w.devBad k n = false →
      p.type = ptAtomic → t = w.atomic (p.context % 64) k op (leAt p.data 8 8) (leAt p.data 16 8) →
      exec (.atomicRequest p now) s = .next (t.1.respond p ptAtomicResult 0 (leBytes 8 t.2)))

/-- R374, R375, R378, R381: a response ends the request that its tag names. Read data goes to the item that asked for it;
the last acknowledgement of an item whose effect is made ends it; an atomic's result is stored and ends its item; an ERROR
ends the item with its status, and so does a request that has had no response for FAB_RESP_TIMEOUT µs at 1.75 GHz, with
TIMEOUT. -/
def Obligations.ResponsesEndRequests : Prop :=
  (∀ (s t : State) (p : Packet) (q : Request) (run item : Nat) (x : Item) (r : Run),
    s.asked p.tag = some q → t = s.endRequest p.tag → t.findRun run = some r → r.item item = some x →
    hdrClass r.desc.bytes ∉ [7, 8] →
    (q.use = .read run item → p.type = ptReadData →
      exec (.readData p) s = .next (t.onItem run item fun x => { x with arrived := x.arrived ++ [(q.addr, p.data)] })) ∧
    (∀ st dt, q.use = .write run item → p.type = ptWriteAck → x.phase = .acking st dt →
      (t.waitsAck run item = false → ∃ u, exec (.writeAck p) s = .next u ∧ u.phaseOf run item = some (.ended st dt) ∧
        u.mem = t.mem ∧ u.rings = t.rings) ∧
      (t.waitsAck run item = true → exec (.writeAck p) s = .next t)) ∧
    (∀ a, q.use = .atomic run item a → p.type = ptAtomicResult → x.hasEnded = false → t.isOwn (addrMember a) = true →
      t.devShut (addrKey a) = false → t.devPartBad (addrKey a) 8 = false → t.waitsAck run item = false →
      ∃ u, exec (.atomicResult p) s = .next u ∧ u.phaseOf run item = some (.ended stOk 0) ∧
        u.mem = (t.devWrite (addrKey a) (leBytes 8 (leAt p.data 0 8))).mem)) ∧
  (∀ (s w t : State) (tag now run item : Nat) (q : Request) (x : Item) (r : Run),
    w = s.tick now → w.asked tag = some q → t = w.endRequest q.tag → t.findRun run = some r → r.item item = some x →
    hdrClass r.desc.bytes ∉ [7, 8, 0xB] → x.hasEnded = false → q.entry = none →
    (∀ (p : Packet) (st : Nat), p.type = ptError → p.tag = tag → st = peerStatus p.status →
      q.use = .write run item ∨ (q.use = .read run item ∧ st ≠ stUncorrectable) →
      ∃ u, exec (.errorResponse p now) s = .next u ∧ u.phaseOf run item = some (.ended st (t.detailFor run item st 0)) ∧
        u.mem = t.mem ∧ u.rings = t.rings) ∧
    (q.use = .write run item ∨ q.use = .read run item → 1000 * w.fld fabRespTimeoutUs * 1750 ≤ q.used →
      q.dst ∉ w.coll.lost →
      ∃ u, exec (.responseTimeout tag now) s = .next u ∧
        u.phaseOf run item = some (.ended stTimeout (t.detailFor run item stTimeout 0)) ∧ u.mem = t.mem ∧ u.rings = t.rings))

/- ## Prompter messages (R364, R372, R376, R377, R382 to R386, R411 to R414) -/

/-- R411, R412: a DETACHED message, taken once, has a buddy of its sender declare it lost; a MEMBER_LOST message, taken once,
adds the member to the lost set, counts it, and awaits its understudies.

R376, R377: a STOP message holds its context until the cue it names; a DRAIN message waits for the context's writes that are
outstanding, and is answered with DRAIN_RETURN once they are; a DRAIN_RETURN that was the last thing a fence waited for ends
the fence's item. -/
def Obligations.PrompterMessagesTaken : Prop :=
  (∀ (s w : State) (port now lost : Nat) (p : Packet), w = s.tick now → p.src ≠ w.member → w.seenFlood p = false →
    lost ∉ s.coll.lost → s.coll.lost.length + 1 < 4096 → w.muted = false →
    (∀ e l, p.type = ptDetached → lost = p.src → (w.noteFlood p).guardedWith lost = e :: l →
      (∃ g ∈ e :: l, (w.noteFlood p).watches g lost = true) →
      ∃ t, exec (.detachedNotice port p now) s = .next t ∧ t.coll.lost = s.coll.lost ++ [lost] ∧
        t.fld chorusStatusLostCount = s.coll.lost.length + 1 ∧ t.rings = w.rings ∧ t.pending = s.pending) ∧
    (p.type = ptMemberLost → lost = leAt p.data 0 2 % 4096 →
      ∃ t, exec (.memberLostMessage port p now) s = .next t ∧ t.coll.lost = s.coll.lost ++ [lost] ∧
        t.fld chorusStatusLostCount = s.coll.lost.length + 1 ∧ t.rings = w.rings ∧
        ∀ x ∈ t.coll.takeovers, x ∈ s.coll.takeovers ∨ (x.lost = lost ∧ x.acted = false))) ∧
  ((∀ (s : State) (port c resume : Nat) (p : Packet), p.type = ptStop → p.src ≠ s.member → s.seenFlood p = false →
    c = leAt p.data 0 1 % 64 → resume = leAt p.data 4 4 →
    ∃ t, exec (.stopMessage port p) s = .next t ∧
      (t.stopHeld c = true ↔ 1 ≤ s.cuesTo resume ∧ s.cuesTo resume < 2 ^ 31) ∧
      (∀ d, d ≠ c → t.stopHeld d = s.stopHeld d) ∧ t.runs = s.runs ∧ t.mem = s.mem ∧ t.regs = s.regs) ∧
  (∀ (s : State) (c : Nat) (p : Packet), p.type = ptDrain → c = leAt p.data 0 1 % 64 →
    exec (.drainMessage p) s = .next { s with fab := { s.fab with drains := s.fab.drains ++
      [{ src := p.src, drain := leAt p.data 4 4, ctx := c, gen := s.ctxGen c, waits := s.openTags c Request.writes }] } }) ∧
  (∀ (s : State) (src drain : Nat) (d : DrainIn),
    s.fab.drains.find? (fun d => d.src == src && d.drain == drain && d.waits.isEmpty) = some d →
    exec (.fenceDrainDone src drain) s = .next
      (({ s with fab := { s.fab with drains := s.fab.drains.filter fun x => !(x.src == src && x.drain == drain) } } : State).originate
        (s.prompter ptDrainReturn src false (leBytes 1 d.ctx ++ leBytes 1 d.gen ++ leBytes 2 0 ++ leBytes 4 drain)))) ∧
  (∀ (s : State) (p : Packet) (f : FenceWait) (r : Run), p.type = ptDrainReturn → s.fab.fences = [f] → f.drain = leAt p.data 4 4 →
    f.waits = [] → s.dropMember p.src f.members = [] → s.fab.teardowns = [] → s.CanEnd f.run f.item r →
    s.findRun f.run = some r → hdrClass r.desc.bytes = 0xA →
    ∃ t, exec (.drainReturn p) s = .next t ∧ ItemEnds s t f.run f.item stOk 0 64))

/-- R382 to R386: a TEARDOWN message of a newer generation takes the context down on this member: no run of it is admitted, its
items end CANCELLED, its generation is the message's; once its requests are drained its granules are free and the sender is
answered. R372: a ROUTE_PATCH message puts the image in force, with its pairs, into the standby buffer. -/
def Obligations.TeardownsAndPatchesTaken : Prop :=
  (∀ (s w : State) (now c g drain : Nat) (p : Packet), w = s.tick now → p.type = ptTeardown → c = leAt p.data 0 1 % 64 →
    g = leAt p.data 1 1 → drain = leAt p.data 4 4 → 128 < w.genBehind c g → c ∉ s.fab.advanced →
    (∀ x ∈ s.fab.teardowns, x.ctx ≠ c) →
    ∃ t, exec (.teardownMessage p now) s = .next t ∧ t.ctxGen c = g ∧ c ∉ t.sched.runnable ∧ c ∈ t.fab.advanced ∧
      (∀ run r i x, s.findRun run = some r → r.ctx = c → s.itemOf run i = some x → x.hasEnded = false →
        ∃ dt, t.phaseOf run i = some (.ended stCancelled dt)) ∧
      ∃ x ∈ t.fab.teardowns, x.ctx = c ∧ x.gen = g ∧ x.origin = some p.src ∧ x.drain = drain ∧
        x.waits = s.openTags c fun _ => true) ∧
  (∀ (s w : State) (now c m : Nat) (x : Teardown), w = s.tick now →
    w.fab.teardowns.find? (fun x => x.ctx == c && x.item.isNone) = some x → w.drained x.waits = true →
    w.acceptedDone c = true → x.origin = some m → x.freed = false →
    ∃ t, exec (.teardownDrainDone c now) s = .next t ∧ (∀ o ∈ t.mem.owners, o.2 ≠ 1 + c) ∧
      (∀ y ∈ t.fab.teardowns, y.ctx ≠ c ∨ y.item.isSome = true) ∧ t.runs = w.runs ∧ t.rings = w.rings ∧
      t = ({ w.freeGranules c with fab := { w.fab with
          teardowns := w.fab.teardowns.filter fun y => y.ctx != c || y.item.isSome } } : State).originate
        ((w.freeGranules c).prompter ptDrainReturn m false (leBytes 1 c ++ leBytes 1 x.gen ++ leBytes 2 0 ++ leBytes 4 x.drain))) ∧
  (∀ (s : State) (port gen n k : Nat) (p : Packet) (al : List (Nat × Nat)), p.type = ptRoutePatch → n = leAt p.data 2 1 →
    1 ≤ n → n ≤ 8 → gen = leAt p.data 0 2 → p.src ≠ s.member → s.seenFlood p = false →
    al = (patchPairsOf p.data n).foldl addAlias s.fab.route.aliases → al.length ≤ 16 → s.routeKey s.standbyRoute = some k →
    s.devShut k = false →
    ∃ t, exec (.routePatchMessage port p) s = .next t ∧ t.fab.patchGen = some gen ∧ t.fab.patchPairs = patchPairsOf p.data n ∧
      t.devRead k routeBytes = s.imageBytes gen { s.fab.route with aliases := al } ∧ t.fab.route = s.fab.route ∧
      t.runs = s.runs)

/- ## Reliability (15_reliability.md) -/

/-- R433, Table 15.2: `WATCHDOG_EXPIRY` restarts the stage manager and counts the restart in the last 24 h; the third takes the
device to curtain. When it is back, the coppices that waited start, unless a device reset waits among them.

R432: `REGISTER_SCAN` rewrites a hardened register from its configuration image and records the upset; with good parity it
is a suspect event on the register, with a device event, or a coppice of the partition that the register serves. An image
whose tag fails takes the device to curtain. -/
def Obligations.StageManagerAndScan : Prop :=
  ((∀ (s w : State) (now n : Nat), w = s.tick now → s.rel.smUp = true → n = w.recentRestarts.length + 1 →
    (n < 3 → ∃ t, exec (.watchdogExpiry now) s = .next t ∧ t.rel.smUp = false ∧ t.rel.testing = [] ∧
      t.rel.smRestarts = w.rel.poweredS :: w.recentRestarts ∧ t.book.historySeq = s.book.historySeq + 2 ∧
      t.runs = w.runs ∧ t.rings = w.rings) ∧
    (3 ≤ n → s.flag healthStatusCurtain = false → s.powerState < 2 →
      ∃ t, exec (.watchdogExpiry now) s = .next t ∧ t.rel.smUp = false ∧
        t.rel.smRestarts = w.rel.poweredS :: w.recentRestarts ∧
        t.flag healthStatusCurtain = true ∧ t.fld healthStatusCurtainCause = 6 ∧ t.rel.draining = true)) ∧
  (∀ (s : State) (now : Nat), s.rel.smUp = false → s.inReset = false → (∀ c, SmTask.reset c ∉ s.rel.smWaiting) →
    ∃ t, exec (.stageManagerRestarted now) s = .next t ∧ t.rel.smUp = true ∧ t.rel.smWaiting = [] ∧
      ∀ p c, SmTask.coppice p c ∈ s.rel.smWaiting → p < 8 → t.inCoppice p = true)) ∧
  ((∀ (s w : State) (now v : Nat) (u : RegUpset) (id : UnitId), w = s.tick now → s.rel.smUp = true → s.regs.imageHeld = true →
    s.fld lcStatusDebug ≠ 2 → isHardened u.off = true → id = ⟨8, u.off / 4 % 65536, 0⟩ →
    v = (match cellFind u.off s.regs.image with | some b => b.toNat | none => regReset u.off) →
    (u.off < internalReg → u.parityBad = true → exec (.registerScan [u] true now) s = .next
      ((w.setReg u.off v).record (.plain 0x07 id 0 5)).healParity) ∧
    (u.off < internalReg → u.parityBad = false → exec (.registerScan [u] true now) s = .next
      (((w.setReg u.off v).record (.plain 0x07 id 0 5)).suspect id 5 []).event.healParity) ∧
    (∀ p, u.off = internalReg + p → p < 8 → u.parityBad = false → exec (.registerScan [u] true now) s = .next
      (((w.record (.plain 0x07 id 0 5)).suspect id 5 []).startCoppice p 2).healParity)) ∧
  (∀ (s w : State) (now : Nat) (l : List RegUpset), w = s.tick now → s.rel.smUp = true → s.regs.imageHeld = true →
    s.fld lcStatusDebug ≠ 2 → exec (.registerScan l false now) s = .next (w.enterCurtain 4)))

/-- R435, R436, R438, R439, R449: a tile engine that does not recover, and a bit of `COPPICE_REQ` after the seal, start a coppice
of the partition: it is fenced and the items on its tiles end PARTITION_RESET. When the coppice completes its SRAM reads zero
and it serves again, unless its stack has met a thermal trip (R266); a stack whose fill is done reads zero.

R435, R442: an I/O-die engine that does not recover is reset and its runs end TIMEOUT; a reset that takes 200 µs takes the
device to curtain, whose unstarted items end CANCELLED; and once every started item has ended the rings show it and the prompt
book holds its cause, at once or when the stage manager is back (R433). -/
def Obligations.EnginesAndCoppicesRecover : Prop :=
  ((∀ (s w : State) (now p n : Nat) (v : BitVec 32) (c : Instr), w = s.tick now → p < 8 → s.rel.smUp = true → s.inCoppice p = false →
    (n < 144 ∧ p = n / 18 ∧ c = .engineRecoveryTimeout (.tile n) now) ∨
      (s.hostServes rCoppiceReq = true ∧ s.isSealed = true ∧ v.toNat = 2 ^ p ∧ c = .coppiceReq v now) →
    ∃ t, exec c s = .next t ∧ t.inCoppice p = true ∧
      (∀ run r i x, s.findRun run = some r → r.inPart p = true → r.waiting = false → s.itemOf run i = some x → x.hasEnded = false →
        ∃ dt, t.phaseOf run i = some (.ended stPartReset dt))) ∧
  (∀ (s : State) (now p : Nat) (c : Coppice), p < 8 → s.rel.coppices.find? (fun c => c.part == p) = some c → c.noReturn = false →
    s.flag (stackTempTrip p) = false →
    (s.flag healthStatusCurtain = true ∨ ∃ q, q < 8 ∧ q ≠ p ∧ s.partServes q = true) →
    ∃ t, exec (.coppiceComplete p now) s = .next t ∧ t.inCoppice p = false ∧ (∀ x ∈ t.rel.coppices, x.part ≠ p) ∧
      ∀ k, sramPart k = p → t.sramRead k 1 = [0]) ∧
  (∀ (s : State) (now p : Nat), s.flag (stackTempTrip p) = true → exec (.coppiceComplete p now) s = .next (s.tick now)) ∧
  (∀ (s : State) (n : Nat), n ∈ s.rel.fills → n < 8 →
    ∃ t, exec (.stackFillDone n) s = .next t ∧ n ∉ t.rel.fills ∧
      (∀ a, a < 0xC00000000 → t.devRead (n * 2 ^ 36 + a) 1 = [0]) ∧
      (∀ k, k < n * 2 ^ 36 ∨ n * 2 ^ 36 + 0xC00000000 ≤ k → t.devRead k 1 = s.devRead k 1))) ∧
  ((∀ (s w : State) (now : Nat) (e : Engine), w = s.tick now → s.rel.smUp = true → (∀ x ∈ s.rel.resetting, x.1 ≠ e) →
    (∀ n, e ≠ .tile n ∧ e ≠ .move n) →
    ∃ t, exec (.engineRecoveryTimeout e now) s = .next t ∧ (e, w.now) ∈ t.rel.resetting ∧
      ∀ run r i x, s.findRun run = some r → s.runsOn e r = true → s.itemOf run i = some x → x.hasEnded = false →
        ∃ dt, t.phaseOf run i = some (.ended stTimeout dt)) ∧
  (∀ (s : State) (e : Engine), exec (.engineResetDone e) s = .next
    { s with rel := { s.rel with resetting := s.rel.resetting.filter fun x => x.1 != e } }) ∧
  (∀ (s w : State) (now t0 : Nat) (e : Engine), w = s.tick now → (e, t0) ∈ s.rel.resetting → t0 + 200000 ≤ w.now →
    s.flag healthStatusCurtain = false → s.powerState < 2 →
    ∃ t, exec (.engineResetTimeout e now) s = .next t ∧ (∀ x ∈ t.rel.resetting, x.1 ≠ e) ∧ t.flag healthStatusCurtain = true ∧
      t.fld healthStatusCurtainCause = 5 ∧ t.rel.draining = true ∧
      ∀ run i x, s.itemOf run i = some x → x.phase = .unstarted → ∃ dt, t.phaseOf run i = some (.ended stCancelled dt)) ∧
  (∀ (s : State), s.rel.draining = true → (∀ r ∈ s.runs, ∀ x ∈ r.items, x.isRunning = false) →
    ∃ t, exec .curtainDrained s = .next t ∧ t.rel.draining = false ∧
      (s.rel.smUp = true → t.book.curtain = s.fld healthStatusCurtainCause) ∧
      (s.rel.smUp = false → t.rel.smWaiting = s.rel.smWaiting ++ [.curtain (s.fld healthStatusCurtainCause)]) ∧
      (∀ n, s.ringEnabled n = true → (t.ring n).state = 2) ∧ t.runs = s.runs))

/-- R430, R444, R446, R449: `SELFTEST_REQ` after the seal queues a logical tile; a test that passes frees its tile, and is
recorded at once if it was asked for; one that fails is a suspect event on the physical tile. Powered time is saved, the hour's
counts become history records, and a calibration stall is noted for its 100 ms. -/
def Obligations.TestsAndUpkeepRecorded : Prop :=
  (∀ (s : State) (v : BitVec 32), s.hostServes rSelftestReq = true → s.isSealed = true → bit v.toNat 31 = true →
    v.toNat % 256 < 144 → exec (.selftestReq v) s = .next
      { s with rel := { s.rel with testQueue := addVal (v.toNat % 256) s.rel.testQueue } }) ∧
  (∀ (s w x : State) (n now : Nat) (pass : Bool) (u : UnitId), w = s.tick now → n < 144 → n ∈ s.rel.testing →
    u = s.testedUnit n → u.unit ∉ s.rel.retests →
    x = { w with rel := { w.rel with
      testing := dropVal n w.rel.testing,
      testOut := if w.rel.testOut = some n then none else w.rel.testOut,
      retests := dropVal u.unit w.rel.retests,
      testQueue := dropVal n w.rel.testQueue,
      lastTest := cellPut w.rel.lastTest n (some w.rel.poweredS) } } →
    (pass = false → exec (.selftestDone n pass now) s = .next (x.suspect u 3 [])) ∧
    (pass = true → n ∈ s.rel.testQueue → exec (.selftestDone n pass now) s = .next (x.record (.plain 0x0B u 0 3)) ∧
      ∃ t, exec (.selftestDone n pass now) s = .next t ∧ n ∉ t.rel.testing ∧ t.book.historySeq = s.book.historySeq + 1)) ∧
  (∀ (s : State) (now : Nat), s.rel.smUp = true → exec (.poweredTimeSave now) s = .next
    { s.tick now with book := { s.book with savedS := (s.tick now).rel.poweredS } }) ∧
  (∀ (s : State) (now : Nat), s.rel.smUp = true →
    ∃ t, exec (.hourlySummary now) s = .next t ∧ t.rel.hourTransients = [] ∧ t.rel.hourTests = [] ∧
      t.book.historySeq = s.book.historySeq + s.rel.hourTransients.length + s.rel.hourTests.length ∧
      t.runs = (s.tick now).runs) ∧
  (∀ (s : State) (r : CalResource), s.calibratable r = true → (∀ x ∈ s.mem.calibrated, x.1 = r → x.2 ≠ s.now / 100000000) →
    exec (.calibrationStall r) s = .next { s with mem := { s.mem with
      calibrated := (r, s.now / 100000000) :: s.mem.calibrated.filter fun x => x.1 != r } })

/- ## Security (16_security.md) -/

/-- R450, R459, R460, R463, R464: GET_CHALLENGE answers with a fresh nonce, which replaces any earlier one and expires after 600 s;
DEBUG_LOCK and the end of a level's time take debug back to none; at the invasive level the debug port writes memory.

R454, R455, R457, R458: once every started item has ended, `LIFECYCLE_RESET` writes the state that the transition leads to,
raises counter 3, and resets the device; an accepted firmware image is written into the copy that is not current. -/
def Obligations.SecurityCommandsAnswered : Prop :=
  ((∀ (s w : State) (now : Nat) (path : SecPath), w = s.tick now → w.inReset = false → isJtag path = false →
    exec (.getChallenge path now) s = .next
      (({ w with freeCtr := w.freeCtr + 32, sec := { w.sec with nonce := some (w.randomBytes 32, w.rel.poweredS) } } :
        State).secResult path 0 (w.challenge (w.randomBytes 32)))) ∧
  (∀ (s w : State) (now t0 : Nat) (n : List Byte), w = s.tick now → s.sec.nonce = some (n, t0) →
    exec (.nonceExpiry now) s = .next
      (if t0 + 600 ≤ w.rel.poweredS then { w with sec := { w.sec with nonce := none } } else w)) ∧
  (∀ (s : State) (path : SecPath), s.inReset = false → isJtag path = false →
    ∃ t, exec (.debugLock path) s = .next t ∧ t.fld lcStatusDebug = 0 ∧ t.sec.debugUntil = none ∧
      t.fld secStatusResult = 0 ∧ t.mem = s.mem ∧ t.runs = s.runs) ∧
  (∀ (s w : State) (now t0 : Nat), w = s.tick now → s.sec.debugUntil = some t0 → t0 ≤ w.rel.poweredS →
    ∃ t, exec (.debugExpiry now) s = .next t ∧ t.fld lcStatusDebug = 0 ∧ t.sec.debugUntil = none ∧ t.mem = s.mem) ∧
  (∀ (s : State) (a : Nat) (data : List Byte), s.inReset = false → s.fld lcStatusDebug = 2 → s.isOwn (addrMember a) = true →
    a / 2 ^ 57 = 0 → addrTier a < 2 → s.populated (addrTier a) (addrOff a) data.length = true →
    s.hostShut (addrKey a) = false → s.devPartBad (addrKey a) data.length = false →
    exec (.debugPortWrite a data) s = .next (s.devWrite (addrKey a) data))) ∧
  ((∀ (s : State) (now cmd next : Nat) (key : List Byte), s.sec.transition = some (cmd, next, key) →
    (∀ r ∈ s.runs, ∀ x ∈ r.items, x.isRunning = false) → s.flash.failing = false → s.rel.smUp = true →
    ∃ t, exec (.lifecycleReset now) s = .next t ∧ t.book.lifecycle = next ∧
      t.counter 3 = min (s.counter 3 + 1) (2 ^ 32 - 1) ∧ t.inReset = true ∧ t.runs = [] ∧ t.rings = [] ∧
      (cmd ≠ 0x15 → t.sec.wipeDue = true) ∧ (cmd = 0x15 → t.book.curtain = 0) ∧
      (cmd = 0x10 → t.book.ownerKey = key ∧ t.sec.reformatDue = true)) ∧
  (∀ (s : State) (path : SecPath) (a n : Nat), s.inReset = false → isJtag path = false → s.rel.smUp = true →
    s.flash.failing = false → a = leAt (s.secInput path 12) 0 8 → n = leAt (s.secInput path 12) 8 4 → s.ownMem a n = true →
    n ≤ 8388608 → s.hostShut (addrKey a) = false → s.devBad (addrKey a) n = false →
    s.imageResult (s.devRead (addrKey a) n) 1 = 0 →
    exec (.fwUpdate path) s = .next ((s.pbUpdate 1 (s.devRead (addrKey a) n)).secResult path 0 [])))

/-- R458, R461, R462, R463: a token is judged by the conditions of R462 in their order, and the nonce is consumed whatever comes of
it. One that fails shows its result and does nothing else; an accepted debug token raises the level; an accepted lifecycle token
begins the transition of Table 16.5, under which unstarted items end CANCELLED and cue emission stops. -/
def Obligations.TokensAppliedOrRefused : Prop :=
  ∀ (s w : State) (now cmd : Nat) (path : SecPath) (c : Instr) (k : List Byte),
    (cmd, c) ∈ [(0x01, Instr.debugTrace path now), (0x02, .debugInvasive path now), (0x10, .enrollOwner path now),
      (0x11, .enterService path now), (0x12, .returnToken path now), (0x13, .ownerRelease path now),
      (0x14, .retireToken path now), (0x15, .clearCurtain path now)] →
    w = s.tick now → w.inReset = false → k = w.secInput path 352 →
    (w.tokenResult k cmd ≠ 0 → ¬(w.lifecycle = 0 ∧ cmd ≤ 2) → exec c s = .next
      (({ w with sec := { w.sec with nonce := none } } : State).secResult path (w.tokenResult k cmd) [])) ∧
    (w.tokenResult k cmd = 0 ∨ w.lifecycle = 0 → cmd ≤ 2 → w.fld lcStatusDebug < cmd →
      ∃ t, exec c s = .next t ∧ t.fld lcStatusDebug = cmd ∧ t.fld secStatusResult = 0 ∧ t.sec.nonce = none ∧
        (cmd = 2 → t.sec.sessions = [] ∧ t.host.ide = []) ∧ t.runs = w.runs ∧ t.rings = w.rings) ∧
    (∀ next key, w.tokenResult k cmd = 0 → 2 < cmd → w.transitionOf cmd (tokSigner k) (tokNewKey k) = some (next, key) →
      ∃ t, exec c s = .next t ∧ t.sec.transition = some (cmd, next, key) ∧ t.sec.nonce = none ∧ t.fld secStatusResult = 0 ∧
        t.fld cueStatusLock ≠ 4 ∧
        ∀ run i x, s.itemOf run i = some x → x.phase = .unstarted → ∃ dt, t.phaseOf run i = some (.ended stCancelled dt))

/- ## Attestation (R466 to R468). Codes and body layouts are DSP0274's, which R466 names (log entry 52). -/

/-- R466, R467, Table 16.10: the requests outside a session, on a transport that carries them: version, capabilities and algorithms
in turn, and once they are agreed the digests, the certificate chain, the challenge and the measurements taken now. -/
def Obligations.AttestationAnswered : Prop :=
  ∀ (s : State) (r : SpdmReq), s.spReaches r.transport = true →
    (∀ (u : State) (a : Nat × List Byte), u.spLimit r.transport = 0 ∨ a.2.length + 4 ≤ u.spLimit r.transport →
      (u.spSend r.transport a).outs = .spdm r.transport a.1 a.2 :: u.outs) ∧
    (exec (.getVersion r) s = .next (({ s with sec := { s.sec with
      versionDone := addVal r.transport s.sec.versionDone
      capsDone := s.sec.capsDone.filter fun x => x.1 != r.transport
      algoDone := dropVal r.transport s.sec.algoDone } } : State).spSend r.transport
        (0x04, leBytes 1 0 ++ leBytes 1 1 ++ leBytes 2 0x1200))) ∧
    (r.version = 0x12 →
      (r.transport ∈ s.sec.versionDone → ∃ (t : State) (b : List Byte), exec (.getCapabilities r) s = .next (t.spSend r.transport (0x61, b)) ∧
        t = { s with sec := { s.sec with capsDone :=
          (r.transport, leAt r.body 8 4) :: s.sec.capsDone.filter fun x => x.1 != r.transport } } ∧
        leAt b 4 4 = 0x262D6) ∧
      ((∃ x ∈ s.sec.capsDone, x.1 = r.transport) → exec (.negotiateAlgorithms r) s = .next
        (({ s with sec := { s.sec with algoDone := addVal r.transport s.sec.algoDone } } : State).spSend r.transport
          (0x63, s.spRest))) ∧
      (s.spReady r.transport = true → s.lifecycle ≠ 0 → r.param1 % 16 = 0 →
        exec (.getDigests r) s = .next (s.spSend r.transport (0x01, Config.sha384 s.certChain)) ∧
        (∀ o n, o = leAt r.body 0 2 → n = min (leAt r.body 2 2) (s.certChain.length - o) → o ≤ s.certChain.length →
          exec (.getCertificate r) s = .next (s.spSend r.transport
            (0x02, leBytes 2 n ++ leBytes 2 (s.certChain.length - o - n) ++ (s.certChain.drop o).take n))) ∧
        exec (.spdmChallenge r) s = .next (s.spSend r.transport (0x03, Config.sha384 s.certChain ++ s.spRest))) ∧
      (∀ m, s.spReady r.transport = true → s.lifecycle ≠ 0 ∨ bit r.param1 0 = false → r.param2 ≤ 7 ∨ r.param2 = 0xFF →
        m = s.measurementRecord r.param2 →
        exec (.getMeasurements r) s = .next (s.spSend r.transport
          (0x60, leBytes 1 m.1 ++ leBytes 3 m.2.length ++ m.2 ++ s.spRest))))

/-- R466, R468: up to four sessions are opened by KEY_EXCHANGE, established by FINISH, kept by HEARTBEAT and KEY_UPDATE and ended by
END_SESSION. Over a session held through DOE the keys of the link's IDE streams are programmed; a stream that fails takes the
link down. A request sent in chunks is handled with its last, and an answer that is too large is fetched in chunks. -/
def Obligations.SessionsKept : Prop :=
  (∀ (s : State) (r : SpdmReq), s.spReaches r.transport = true → r.version = 0x12 →
    (s.spReady r.transport = true → s.lifecycle ≠ 0 → s.sec.sessions.length < 4 → r.param2 = 0 →
      exec (.keyExchange r) s = .next (({ s with sec := { s.sec with
        nextSession := s.sec.nextSession + 1
        sessions := s.sec.sessions ++
          [{ id := s.sec.nextSession, transport := r.transport, established := false, key := 0, ide := [] }] } } :
        State).spSend r.transport (0x64, leBytes 2 s.sec.nextSession ++ s.spRest))) ∧
    (∀ x, s.session r = some x → x.established = false →
      exec (.finishSession r) s = .next ((s.setSession { x with established := true }).spSend r.transport (0x65, s.spRest))) ∧
    (∀ x, s.session r = some x → x.established = true →
      exec (.heartbeatRequest r) s = .next (s.spSend r.transport (0x68, [])) ∧
      (r.param1 = 1 ∨ r.param1 = 2 →
        exec (.keyUpdate r) s = .next ((s.setSession { x with key := x.key + 1 }).spSend r.transport (0x69, []))) ∧
      (r.param1 = 3 → exec (.keyUpdate r) s = .next (s.spSend r.transport (0x69, []))) ∧
      exec (.endSession r) s = .next ((s.endSession x).spSend r.transport (0x6C, [])) ∧
      (∀ stream, r.transport = .doe → s.host.up = true → stream ∈ s.linkStreams →
        ∃ t : State, exec (.vendorDefinedRequest r stream) s = .next (t.spSend .doe (0x7E, s.spRest)) ∧ stream ∈ t.host.ide ∧
          (∀ y, y ≠ stream → (y ∈ t.host.ide ↔ y ∈ s.host.ide)))) ∧
    (∀ part, s.sec.chunkOut ≠ [] → s.spLimit r.transport = 0 ∨ 16 < s.spLimit r.transport →
      part = (if s.spLimit r.transport = 0 then s.sec.chunkOut else s.sec.chunkOut.take (s.spLimit r.transport - 16)) →
      ∃ (t : State) (b : List Byte), exec (.chunkGet r) s = .next (t.spSend r.transport (0x06, b)) ∧ part ++ t.sec.chunkOut = s.sec.chunkOut ∧
        b.drop 10 = part) ∧
    (∀ (all ack : List Byte), ack = leBytes 1 0 ++ leBytes 1 r.param2 ++ leBytes 2 (leAt r.body 0 2) →
      all = (if leAt r.body 0 2 = 0 then (r.body.drop 12).take (leAt r.body 4 4)
        else s.sec.chunkIn ++ (r.body.drop 8).take (leAt r.body 4 4)) →
      (bit r.param1 0 = false → exec (.chunkSend r) s = .next
        (({ s with sec := { s.sec with chunkIn := all } } : State).spSend r.transport (0x05, ack))) ∧
      (∀ x, bit r.param1 0 = true → x = ({ s with sec := { s.sec with chunkIn := [] } } : State).spdmDo (leAt all 1 1)
          { r with version := leAt all 0 1, param1 := leAt all 2 1, param2 := leAt all 3 1, body := all.drop 4 } →
        exec (.chunkSend r) s = .next
          (x.1.spSend r.transport (0x05, ack ++ leBytes 1 0x12 ++ leBytes 1 x.2.1 ++ x.2.2))))) ∧
  (∀ (s : State) (stream : IdeStream), stream ∈ s.host.ide → s.host.up = true →
    ∃ t, exec (.ideIntegrityFailure stream) s = .next t ∧ t.host.up = false ∧ t.host.ide = [])

/- ## Power (R295, R298, R469 to R473, R499) -/

/-- R470 to R472: requests are judged while no transition runs and held while one does; one that nothing refuses begins a
transition. Dark is entered once every run has ended, and its SRAM is lost; the way to Full from Ghost light waits for the
function table image (R217). Where runs have not ended within 100 ms Dark is given up. A device that may dim and has had no
work for `DIM_IDLE_US` does so. -/
def Obligations.PowerStatesChange : Prop :=
  (∀ (s : State) (t : Nat) (c : Instr), (t = 0 ∧ c = .pwrTargetFull) ∨ (t = 2 ∧ c = .pwrTargetDark) ∨ (t = 3 ∧ c = .pwrTargetGhostLight) →
    s.inReset = false → s.power.ghostLatched = false →
    (s.flag pwrStatusBusy = true → exec c s = .next { s with power := { s.power with heldRequest := some t } }) ∧
    (s.flag pwrStatusBusy = false →
      (t = 0 → s.powerState = 1 → exec c s = .next (s.setFld pwrStatusState 0)) ∧
      (t = 0 → 2 ≤ s.powerState → exec c s = .next
        (({ s with power := { s.power with target := some 0, draining := false, since := s.now } } : State).setFlag pwrStatusBusy true)) ∧
      (s.powerState < t → s.darkRefusal = 0 → exec c s = .next
        (({ s with power := { s.power with
          target := some t, draining := decide (s.powerState < 2), since := s.now } } : State).setFlag pwrStatusBusy true)) ∧
      (s.powerState < t → s.darkRefusal ≠ 0 → exec c s = .next (s.setFld pwrStatusRefusal s.darkRefusal)))) ∧
  (∀ (s : State) (now : Nat), s.runs = [] → s.power.heldRequest = none →
    (s.power.target = some 2 → s.powerState < 2 → ∃ t, exec (.powerTransitionDone now) s = .next t ∧ t.powerState = 2 ∧
      t.flag pwrStatusBusy = false ∧ t.power.target = none ∧ (∀ k, sramPart k < 8 → t.sramRead k 1 = [0]) ∧
      t.mem.dev = s.mem.dev) ∧
    (s.power.target = some 3 → 2 ≤ s.powerState → s.flash.programs = [] →
      ∃ t, exec (.powerTransitionDone now) s = .next t ∧ t.powerState = 3 ∧ t.flag pwrStatusBusy = false ∧ t.fn.buffers = [] ∧
        t.bias.image = [] ∧ t.mem = s.mem) ∧
    (s.power.target = some 0 → s.powerState = 3 → ∀ u, (s.tick now).restoreTables = (u, false) →
      exec (.powerTransitionDone now) s = .next u) ∧
    (s.power.target = some 0 → s.powerState ≠ 3 → s.power.curtainDue = none → (∀ x ∈ s.rings, x.2.heldLine = none) →
      ∃ t, exec (.powerTransitionDone now) s = .next t ∧ t.powerState = 0 ∧ t.flag pwrStatusBusy = false ∧
        t.power.target = none ∧ t.mem = s.mem)) ∧
  (∀ (s w : State) (now : Nat), w = s.tick now → s.power.draining = true → s.runs ≠ [] → s.power.ghostLatched = false →
    s.power.heldRequest = none → s.power.since + 100000000 ≤ w.now →
    ∃ t, exec (.darkEntryTimeout now) s = .next t ∧ t.fld pwrStatusRefusal = 4 ∧ t.powerState = s.powerState ∧
      t.flag pwrStatusBusy = false ∧ t.power.target = none ∧ t.power.draining = false ∧ t.runs = w.runs) ∧
  (∀ (s w : State) (now : Nat), w = s.tick now → s.flag pwrCtrlDimAuto = true → s.powerState = 0 →
    s.flag pwrStatusBusy = false → s.idle = true → s.inReset = false →
    s.power.busyUntil + 1000 * s.fld pwrCtrlDimIdleUs ≤ w.now →
    exec (.dimIdleExpiry now) s = .next (w.setFld pwrStatusState 1))

/-- R295, R298, R473, R499: `PWR_FAIL` ends unstarted items CANCELLED, or HOLDUP_LOW where they program flash and their batch
has not started, and stops cue emission; once every started batch has
committed the device quiesces and, with nothing running, enters Ghost light for good. A good hold-up frame gives the voltage it
carries, any other and an old reading make it stale. -/
def Obligations.PowerFailureQuiesces : Prop :=
  (∀ s : State, s.inReset = false →
    ∃ t, exec .pwrFail s = .next t ∧ t.flash.failing = true ∧ t.flag flashStatusPwrFail = true ∧ t.fld cueStatusLock ≠ 4 ∧
      (∀ n, (t.feed n).state = 0) ∧
      ∀ run r i x, s.findRun run = some r → (∀ q ∈ s.runs, q.id = run → q = r) → r.item i = some x →
        (x.phase = .unstarted → s.programsFlash r i = false → ∃ dt, t.phaseOf run i = some (.ended stCancelled dt)) ∧
        (x.hasEnded = false → x.stage < 2 → r.waiting = false → s.programsFlash r i = true →
          ∃ dt, t.phaseOf run i = some (.ended stHoldup dt))) ∧
  (∀ (s : State) (now : Nat), s.flash.failing = true → s.flash.programs = [] → s.flash.trims = [] →
    s.flag flashStatusQuiesced = false →
    ∃ t, exec (.flashQuiesced now) s = .next t ∧ t.flag flashStatusQuiesced = true ∧ t.power.ghostLatched = true ∧
      (s.runs = [] → t.powerState = 3 ∧ t.flag pwrStatusBusy = false ∧ t.power.target = none) ∧
      (s.runs ≠ [] → t.powerState = s.powerState ∧ t.flag pwrStatusBusy = true ∧ t.power.target = some 3)) ∧
  (∀ s : State, s.flash.failing = true → ∃ t, exec .pwrFailClear s = .next t ∧ t.flash.failing = false ∧
    t.flag flashStatusPwrFail = false ∧ t.flag flashStatusQuiesced = false ∧ t.mem = s.mem) ∧
  (∀ (s w : State) (bits : BitVec 32) (stop : Bool) (now : Nat), w = s.tick now → w.inReset = false →
    (stop = true → field bits.toNat 24 8 = crc8 (leBytes 3 (bits.toNat % 2 ^ 24)) →
      (∀ q, s.flash.senseSeq = some q → field bits.toNat 16 8 = (q + 1) % 256) →
      ∃ t, exec (.holdupFrame bits stop now) s = .next t ∧ t.fld holdupStatusVMv = bits.toNat % 65536 ∧
        t.flag holdupStatusStale = false ∧ t.flash.senseSeq = some (field bits.toNat 16 8) ∧
        t.flash.senseAt = some w.now) ∧
    (stop = false ∨ field bits.toNat 24 8 ≠ crc8 (leBytes 3 (bits.toNat % 2 ^ 24)) →
      ∃ t, exec (.holdupFrame bits stop now) s = .next t ∧ t.flag holdupStatusStale = true ∧
        t.fld holdupStatusVMv = s.fld holdupStatusVMv ∧ t.flash.senseAt = s.flash.senseAt)) ∧
  (∀ (s w : State) (now : Nat), w = s.tick now → (∀ t0, s.flash.senseAt = some t0 → t0 + 100000 < w.now) →
    exec (.holdupStale now) s = .next (w.setFlag holdupStatusStale true))

/- ## Reset and bring-up (R465, R477 to R488, R501, R502) -/

/-- R477 to R479, R484, R465, R502: a long enough `RST_N` pulse, `DEVICE_RESET` with its key and a TAP test instruction reset the
device, the last once the stage manager runs (R25): runs end without a record, device memory, the prompt book and programmed
tiles stay; removal of power loses memory as
well. The TAP's way out wipes memory except in Blank, and a junction above its limit trips the part. -/
def Obligations.ResetsKeepWhatTheyKeep : Prop :=
  (∀ (s : State) (lowNs : Nat), s.boot.tripped = false →
    (lowNs < 10000 → exec (.rstNAssert lowNs) s = .next s) ∧
    (10000 ≤ lowNs → ∃ t, exec (.rstNAssert lowNs) s = .next t ∧ t.boot.rstN = false ∧ t.fld bootStatusPhase = 0 ∧
      t.isSealed = false ∧ t.runs = [] ∧ t.rings = [] ∧ t.mem.dev = s.mem.dev ∧ t.mem.sram = [] ∧ t.book = s.book ∧
      t.flash.cells = s.flash.cells ∧ t.rel.poweredS = s.rel.poweredS ∧ t.pending = s.pending)) ∧
  (∀ (s : State) (path : ResetPath) (n : Nat), s.inReset = false → (path = .host → s.hostServes rDeviceReset = true) →
    n = (if path = .host then 3 else 4) →
    (s.rel.smUp = false → exec (.deviceReset path 0xD1E50FF0) s = .next (s.smLater (.reset n))) ∧
    (s.rel.smUp = true → ∃ t, exec (.deviceReset path 0xD1E50FF0) s = .next t ∧ t.fld bootStatusPhase = 0 ∧ t.isSealed = false ∧ t.runs = [] ∧
      t.boot.cause = (if s.boot.cold then 1 else n) ∧ t.mem.dev = s.mem.dev ∧ t.book = s.book)) ∧
  (∀ (s : State) (ir : TapTest), s.boot.tripped = false →
    ∃ t, exec (.tapTestMode ir) s = .next t ∧ t.boot.tapHold = some ir ∧ t.fld bootStatusPhase = 0 ∧ t.runs = [] ∧
      t.mem.dev = s.mem.dev ∧ t.book = s.book) ∧
  (∀ (s : State) (now : Nat) (ir : TapTest), s.boot.tapHold = some ir →
    ∃ t u, exec (.tapTestExit now) s = .next t ∧ exec .tapReset s = .next u ∧ t.boot.tapHold = none ∧ u.boot = t.boot ∧
      u.sec = t.sec ∧ t.mem = s.mem ∧ (s.book.lifecycle ≠ 0 → t.sec.wipeDue = true)) ∧
  (∀ s : State, ∃ t, exec .powerRemoval s = .next t ∧ t.boot.cold = true ∧ t.boot.tripped = false ∧ t.mem.dev = [] ∧
    t.mem.sram = [] ∧ t.runs = [] ∧ t.book = s.book ∧ t.flash.cells = s.flash.cells ∧ t.rel.poweredS = s.book.savedS) ∧
  (∀ (s : State) (l : List Int), s.inReset = false →
    ((hottest l).1 ≤ s.junctionMax → ∃ t, exec (.junctionTempRead l) s = .next t ∧
      t.fld junctionTempMax = min (hottest l).1.toNat 1023 ∧ t.flag junctionTempOver = false ∧ t.outs = s.outs ∧ t.mem = s.mem) ∧
    (s.junctionTrip < (hottest l).1 → ∃ t, exec (.junctionTempRead l) s = .next t ∧ t.boot.tripped = true ∧ t.runs = [] ∧
      t.outs.head? = some (.pin "THERM_TRIP_N" false)))

/-- R480, R482, R486, Tables 17.3 and 17.4: `BRING_UP` boots the firmware copy that passes, zeroes the memories after a cold
reset or where a wipe is due, and stays in reset where no copy passes; then the host port is released, and the flash tier comes
up with a good journal. -/
def Obligations.BringUpReadiesTheDevice : Prop :=
  (∀ (s w : State) (f : BootFindings) (now : Nat), w = s.tick now → s.fld bootStatusPhase = 0 → s.boot.tapHold = none →
    s.fld bootStatusError = 0 → s.boot.tripped = false →
    (w.bootCopy f = none → ∃ t, exec (.bringUp f now) s = .next t ∧ t.fld bootStatusError = 1 ∧ t.fld bootStatusPhase = 0 ∧
      t.boot.rstN = true ∧ t.mem = s.mem) ∧
    (∀ c, w.bootCopy f = some c → f.lifecycleOk = true → f.configOk = true → f.repairOk = true → f.hbmFailed = [] →
      s.book.lifecycle < 8 →
      ∃ t, exec (.bringUp f now) s = .next t ∧ t.fld bootStatusPhase = 4 ∧ t.boot.ready = true ∧ t.boot.cold = false ∧
        t.lifecycle = s.book.lifecycle ∧ t.fld bootStatusCause = s.boot.cause % 256 ∧
        (s.boot.cold = true ∨ s.sec.wipeDue = true → t.mem.dev = [] ∧ t.mem.sram = [] ∧ t.flag bootStatusWiped = true) ∧
        (s.boot.cold = false → s.sec.wipeDue = false → t.mem.dev = s.mem.dev))) ∧
  (∀ (s w : State) (now : Nat), w = s.tick now → s.boot.ready = true → s.host.released = false →
    s.boot.perstN = true → s.boot.curtainAtRelease = false →
    exec (.hostPortRelease now) s = .next
      (({ w with host := { w.host with released := true } } : State).setFld bootStatusPhase 5)) ∧
  (∀ s : State, s.boot.ready = true → s.fld flashLogicalTilesTiles ≠ 0 → s.flag flashStatusReady = false →
    (s.flash.early = [] → s.flash.inbound = [] → exec (.flashReady true) s = .next (s.setFlag flashStatusReady true)) ∧
    exec (.flashReady true) s = .next (s.setFlag flashStatusReady true).flashOpen ∧
    ∃ t, exec (.flashReady false) s = .next t ∧ t.fld flashLogicalTilesTiles = 0 ∧
      t.fld bootStatusError = (if s.fld bootStatusError = 0 then 5 else s.fld bootStatusError))

/- ## Rules stated whole -/

/-- R55: a descriptor is checked as it is fetched, before any item runs: one whose CONTEXT is not the ring's is judged
NOT_AUTHORIZED (0x60), and one with a reserved value in its header BAD_DESCRIPTOR (0x11), the CONTEXT first. Every item of a
descriptor so judged has that status when its run begins, and no memory is touched. -/
def Obligations.DescriptorsCheckedFirst : Prop :=
  (∀ (s w : State) (n now k : Nat) (given : Option (List Byte)) (d : List Byte), w = s.tick now →
    s.mayFetch n = true → (s.ring n).cons ≠ (s.ring n).prod →
    k = addrKey (s.reg (rRingSqBase n)) + 128 * ((s.ring n).cons.toNat % s.sqSize n) →
    (s.ringDevice n = true ∧ s.devShut k = false ∧ s.devBad k 128 = false ∧ d = s.devRead k 128) ∨
      (s.ringDevice n = false ∧ given = some d ∧ d.length = 128) →
    ∃ t f, exec (.descriptorFetch n given now) s = .next t ∧ (t.ring n).fifo.getLast? = some f ∧ f.bytes = d ∧
      f.todo = List.range (leAt d 5 1 + 1) ∧
      (hdrCtx d ≠ s.ringCtx n → f.verdict.map Prod.fst = some 0x60) ∧
      (hdrCtx d = s.ringCtx n → hdrReserved d = true → f.verdict.map Prod.fst = some 0x11) ∧
      (s.flag traceCtrlEn = false → (∀ x ∈ s.mem.stuck, x.1 + 64 ≤ k ∨ k + 128 ≤ x.1) → t.mem = s.mem)) ∧
  (∀ (s s1 : State) (n now st dt : Nat) (f : Fetched) (rest : List Fetched),
    s1 = ((s.tick now).wakeDimmed).dispatchRuns.noteHead n →
    (s1.ring n).fifo = f :: rest → (s1.ringRuns n).length < 32 → s1.choiceOf f ≠ .fallback → f.verdict = some (st, dt) →
    s1.roomFor n f.todo.length = true →
    ∃ t r, exec (.descriptorDispatch n now) s = .next t ∧ t.runs = s1.runs ++ [r] ∧ r.desc = f ∧
      r.items.map (fun x => x.index) = f.todo ∧ (∀ x ∈ r.items, x.phase = .ended st dt) ∧ t.mem = s1.mem)

/-- R62: a new cancel mark `m` cancels every descriptor of the ring whose index lies below it: unstarted items end CANCELLED, started
ones are left to run, and what waits or is fetched later is judged CANCELLED. A mark lower than the one before it is ignored. -/
def Obligations.CancelMarksCancelEarlierWork : Prop :=
  (∀ (s u : State) (n : Nat) (l : DoorbellLine) (given : Option DoorbellLine) (low : Word → Prop),
    s.ringLive n = true → s.isFallbackRing n = false → s.powerState = 0 → s.ringDevice n = true → s.readLine n = some l →
    (s.ring n).prodOk (s.sqSize n) l.prod = true → (s.ring n).consOk (s.cqSize n) l.cons = true →
    u = s.setRing n { s.ring n with prod := l.prod, cqCons := l.cons } →
    (∀ i, low i ↔ 1 ≤ (l.cancel - i).toNat ∧ (l.cancel - i).toNat ≤ 2 ^ 31) → l.cancel ≠ (s.ring n).cancel →
    ((s.ring n).marked = true → 1 ≤ ((s.ring n).cancel - l.cancel).toNat →
      ((s.ring n).cancel - l.cancel).toNat ≤ 2 ^ 31 → exec (.doorbellWake n given) s = .next u) ∧
    ((s.ring n).marked = false ∨ 2 ^ 31 < ((s.ring n).cancel - l.cancel).toNat →
      ∃ t, exec (.doorbellWake n given) s = .next t ∧ (t.ring n).marked = true ∧ (t.ring n).cancel = l.cancel ∧
        (∀ run r i x, s.findRun run = some r → r.desc.ring = n → low r.desc.index → s.itemOf run i = some x →
          x.phase = .unstarted → ∃ dt, t.phaseOf run i = some (.ended stCancelled dt)) ∧
        (∀ run i, (∀ q ∈ s.runs, q.id = run → ∀ y ∈ q.items, y.index = i →
          y.phase ≠ .unstarted ∧ y.yields s.now stCancelled = false) →
          t.itemOf run i = s.itemOf run i) ∧
        (∀ f ∈ (t.ring n).fifo, f.ring = n → low f.index → f.verdict.isSome = true) ∧
        (∀ f ∈ (s.ring n).fifo, f.ring = n → low f.index → f.verdict = none →
          { f with verdict := some (verdictOn f.bytes (stCancelled, 0)) } ∈ (t.ring n).fifo))) ∧
  (∀ (s w : State) (n now : Nat) (d : List Byte), w = s.tick now → s.mayFetch n = true → s.ringDevice n = false →
    (s.ring n).cons ≠ (s.ring n).prod → d.length = 128 → (w.fetchVerdict n d).1 = none → (s.ring n).marked = true →
    1 ≤ ((s.ring n).cancel - (s.ring n).cons).toNat → ((s.ring n).cancel - (s.ring n).cons).toNat ≤ 2 ^ 31 →
    ∃ t f, exec (.descriptorFetch n (some d) now) s = .next t ∧ (t.ring n).fifo.getLast? = some f ∧ f.bytes = d ∧
      f.verdict = some (verdictOn d (stCancelled, 0)))
end

