-- ==== Sys2Proof/Laws/Bytes.lean ====
section
/-! SUPPORT. Numbers as bytes and as fields of bits. -/
namespace Sys2Proof

@[simp] theorem leBytes_length (n v : Nat) : (leBytes n v).length = n := by
  induction n generalizing v with
  | zero => rfl
  | succ n ih => simp [leBytes, ih]

theorem leNat_lt (bs : List Byte) : leNat bs < 256 ^ bs.length := by
  induction bs with
  | nil => simp [leNat]
  | cons b t ih =>
    have hb : b.toNat < 256 := b.isLt
    simp only [leNat, List.length_cons, Nat.pow_succ]
    omega

/-- The bytes of a number read back as the number, as far as they reach. -/
theorem leNat_leBytes (n v : Nat) : leNat (leBytes n v) = v % 256 ^ n := by
  induction n generalizing v with
  | zero => simp [leBytes, leNat, Nat.mod_one]
  | succ n ih =>
    simp only [leBytes, leNat, ih, BitVec.toNat_ofNat]
    rw [show 256 ^ (n + 1) = 256 * 256 ^ n by rw [Nat.pow_succ, Nat.mul_comm], Nat.mod_mul]

theorem field_lt (v lo w : Nat) : field v lo w < 2 ^ w := Nat.mod_lt _ (Nat.two_pow_pos w)

/-- A field that has been set reads as what it was set to. -/
theorem field_setField (v lo w x : Nat) : field (setField v lo w x) lo w = x % 2 ^ w := by
  unfold field setField
  have h1 : v % 2 ^ lo < 2 ^ lo := Nat.mod_lt _ (Nat.two_pow_pos lo)
  rw [Nat.pow_add, Nat.mul_assoc (2 ^ lo) (2 ^ w), Nat.add_assoc, ← Nat.mul_add,
    Nat.add_mul_div_left _ _ (Nat.two_pow_pos lo), Nat.div_eq_of_lt h1, Nat.zero_add, Nat.add_mul_mod_self_left, Nat.mod_mod]

/-- A field below the one that is set. -/
theorem field_setField_below (v lo w x a b : Nat) (h : a + b ≤ lo) : field (setField v lo w x) a b = field v a b := by
  unfold field setField
  obtain ⟨k, rfl⟩ := Nat.exists_eq_add_of_le h
  have e1 : 2 ^ (a + b + k) * (x % 2 ^ w) + 2 ^ (a + b + k + w) * (v / 2 ^ (a + b + k + w)) =
      2 ^ a * (2 ^ b * (2 ^ k * (x % 2 ^ w) + 2 ^ (k + w) * (v / 2 ^ (a + b + k + w)))) := by
    rw [show a + b + k + w = a + (b + (k + w)) by omega, show a + b + k = a + (b + k) by omega, Nat.pow_add 2 a (b + k),
      Nat.pow_add 2 b k, Nat.pow_add 2 a, Nat.pow_add 2 b (k + w)]
    simp only [Nat.mul_add, Nat.mul_assoc]
  rw [Nat.add_assoc, e1, Nat.add_mul_div_left _ _ (Nat.two_pow_pos a), Nat.add_mul_mod_self_left]
  have e2 : 2 ^ (a + b + k) = 2 ^ a * (2 ^ b * 2 ^ k) := by rw [Nat.pow_add, Nat.pow_add, Nat.mul_assoc]
  rw [e2, Nat.mod_mul_right_div_self, Nat.mod_mul_right_mod]

/-- A field above the one that is set. -/
theorem field_setField_above (v lo w x a b : Nat) (h : lo + w ≤ a) : field (setField v lo w x) a b = field v a b := by
  unfold field setField
  obtain ⟨k, rfl⟩ := Nat.exists_eq_add_of_le h
  have h1 : v % 2 ^ lo + 2 ^ lo * (x % 2 ^ w) < 2 ^ (lo + w) := by
    have ha : v % 2 ^ lo < 2 ^ lo := Nat.mod_lt _ (Nat.two_pow_pos lo)
    have hb : x % 2 ^ w + 1 ≤ 2 ^ w := Nat.mod_lt _ (Nat.two_pow_pos w)
    have hc : 2 ^ lo * (x % 2 ^ w + 1) ≤ 2 ^ lo * 2 ^ w := Nat.mul_le_mul_left _ hb
    rw [Nat.mul_add, Nat.mul_one] at hc
    rw [Nat.pow_add]
    omega
  rw [Nat.pow_add 2 (lo + w) k, ← Nat.div_div_eq_div_mul, ← Nat.div_div_eq_div_mul,
    Nat.add_mul_div_left _ _ (Nat.two_pow_pos (lo + w)), Nat.div_eq_of_lt h1, Nat.zero_add]

theorem setField_lt {v lo w x n : Nat} (hv : v < 2 ^ n) (h : lo + w ≤ n) : setField v lo w x < 2 ^ n := by
  unfold setField
  obtain ⟨k, rfl⟩ := Nat.exists_eq_add_of_le h
  have h1 : v % 2 ^ lo + 2 ^ lo * (x % 2 ^ w) < 2 ^ (lo + w) := by
    have ha : v % 2 ^ lo < 2 ^ lo := Nat.mod_lt _ (Nat.two_pow_pos lo)
    have hb : x % 2 ^ w + 1 ≤ 2 ^ w := Nat.mod_lt _ (Nat.two_pow_pos w)
    have hc : 2 ^ lo * (x % 2 ^ w + 1) ≤ 2 ^ lo * 2 ^ w := Nat.mul_le_mul_left _ hb
    rw [Nat.mul_add, Nat.mul_one] at hc
    rw [Nat.pow_add]
    omega
  have h2 : v / 2 ^ (lo + w) + 1 ≤ 2 ^ k := by
    have : v / 2 ^ (lo + w) < 2 ^ k := by
      rw [Nat.div_lt_iff_lt_mul (Nat.two_pow_pos _), Nat.mul_comm, ← Nat.pow_add]
      exact hv
    omega
  have h3 : 2 ^ (lo + w) * (v / 2 ^ (lo + w) + 1) ≤ 2 ^ (lo + w) * 2 ^ k := Nat.mul_le_mul_left _ h2
  rw [Nat.mul_add, Nat.mul_one] at h3
  rw [Nat.pow_add 2 (lo + w) k]
  omega

namespace Machine

theorem leAt_lt (bs : List Byte) (o n : Nat) : leAt bs o n < 256 ^ n := by
  unfold leAt
  refine Nat.lt_of_lt_of_le (leNat_lt _) (Nat.pow_le_pow_right (by decide) ?_)
  rw [List.length_take]
  exact Nat.min_le_left _ _

end Machine
end Sys2Proof
end

