-- ==== Sys2Proof/Laws/Cells.lean ====
section
/-! SUPPORT. Laws of sparse storage: the canonical form as an order, what each operation does to a reading, and that each
keeps the form. -/
namespace Sys2Proof.Machine

/-- The canonical form says: keys strictly rising, and no listed value equal to `d`. -/
theorem cellWf_iff {α : Type} [DecidableEq α] (d : α) (l : List (Nat × α)) :
    cellWf d l = true ↔ l.Pairwise (fun x y => x.1 < y.1) ∧ ∀ c ∈ l, c.2 ≠ d := by
  induction l with
  | nil => simp [cellWf]
  | cons x t ih =>
    obtain ⟨a, v⟩ := x
    cases t with
    | nil => simp [cellWf]
    | cons y t =>
      obtain ⟨b, w⟩ := y
      simp only [cellWf, Bool.and_eq_true, decide_eq_true_eq, ih]
      constructor
      · rintro ⟨⟨hv, hab⟩, hp, hn⟩
        refine ⟨List.pairwise_cons.2 ⟨?_, hp⟩, ?_⟩
        · intro c hc
          rcases List.mem_cons.1 hc with rfl | hc
          · exact hab
          · exact Nat.lt_trans hab ((List.pairwise_cons.1 hp).1 c hc)
        · intro c hc
          rcases List.mem_cons.1 hc with rfl | hc
          · exact hv
          · exact hn c hc
      · rintro ⟨hp, hn⟩
        obtain ⟨h1, h2⟩ := List.pairwise_cons.1 hp
        exact ⟨⟨hn (a, v) (by simp), h1 (b, w) (by simp)⟩, h2, fun c hc => hn c (List.mem_cons_of_mem _ hc)⟩

theorem cellWf_nil {α : Type} [DecidableEq α] (d : α) : cellWf d ([] : List (Nat × α)) = true := rfl

/-- Leaving entries out keeps the form. -/
theorem cellWf_filter {α : Type} [DecidableEq α] {d : α} {l : List (Nat × α)} (p : Nat × α → Bool) (h : cellWf d l = true) :
    cellWf d (l.filter p) = true := by
  obtain ⟨h1, h2⟩ := (cellWf_iff d l).1 h
  exact (cellWf_iff d _).2 ⟨h1.filter p, fun c hc => h2 c ((List.mem_filter.1 hc).1)⟩

theorem cellBlock_mem {α : Type} [DecidableEq α] (d : α) (vs : List α) (a : Nat) :
    ∀ c ∈ cellBlock d a vs, a ≤ c.1 ∧ c.1 < a + vs.length ∧ c.2 ≠ d := by
  induction vs generalizing a with
  | nil => simp [cellBlock]
  | cons v t ih =>
    intro c hc
    simp only [cellBlock] at hc
    split at hc
    · obtain ⟨h1, h2, h3⟩ := ih (a + 1) c hc
      exact ⟨by omega, by simp only [List.length_cons]; omega, h3⟩
    · rcases List.mem_cons.1 hc with rfl | hc
      · simp_all
      · obtain ⟨h1, h2, h3⟩ := ih (a + 1) c hc
        exact ⟨by omega, by simp only [List.length_cons]; omega, h3⟩

theorem cellBlock_pairwise {α : Type} [DecidableEq α] (d : α) (vs : List α) (a : Nat) :
    (cellBlock d a vs).Pairwise (fun x y => x.1 < y.1) := by
  induction vs generalizing a with
  | nil => simp [cellBlock]
  | cons v t ih =>
    simp only [cellBlock]
    split
    · exact ih (a + 1)
    · refine List.pairwise_cons.2 ⟨fun c hc => ?_, ih (a + 1)⟩
      have := cellBlock_mem d t (a + 1) c hc
      omega

/-- A write of consecutive values keeps the form. -/
theorem cellWf_write {α : Type} [DecidableEq α] {d : α} {l : List (Nat × α)} (a : Nat) (vs : List α) (h : cellWf d l = true) :
    cellWf d (cellWrite d l a vs) = true := by
  obtain ⟨h1, h2⟩ := (cellWf_iff d l).1 h
  refine (cellWf_iff d _).2 ⟨?_, ?_⟩
  · unfold cellWrite
    refine List.pairwise_append.2 ⟨List.pairwise_append.2 ⟨h1.filter _, cellBlock_pairwise d vs a, ?_⟩, h1.filter _, ?_⟩
    · intro x hx y hy
      have := cellBlock_mem d vs a y hy
      have := (List.mem_filter.1 hx).2
      simp only [decide_eq_true_eq] at this
      omega
    · intro x hx y hy
      have hy := (List.mem_filter.1 hy).2
      simp only [decide_eq_true_eq] at hy
      rcases List.mem_append.1 hx with hx | hx
      · have := (List.mem_filter.1 hx).2
        simp only [decide_eq_true_eq] at this
        omega
      · have := cellBlock_mem d vs a x hx
        omega
  · intro c hc
    unfold cellWrite at hc
    rcases List.mem_append.1 hc with hc | hc
    · rcases List.mem_append.1 hc with hc | hc
      · exact h2 c ((List.mem_filter.1 hc).1)
      · exact (cellBlock_mem d vs a c hc).2.2
    · exact h2 c ((List.mem_filter.1 hc).1)

theorem cellWf_set {α : Type} [DecidableEq α] {d : α} {l : List (Nat × α)} (k : Nat) (v : α) (h : cellWf d l = true) :
    cellWf d (cellSet d l k v) = true := cellWf_write k [v] h

/-- Listing a key with a value that is not `d`, or unlisting it, keeps the form. -/
theorem cellWf_put {α : Type} [DecidableEq α] {d : α} {l : List (Nat × α)} (k : Nat) (v : Option α) (hv : v ≠ some d)
    (h : cellWf d l = true) : cellWf d (cellPut l k v) = true := by
  cases v with
  | none =>
    obtain ⟨h1, h2⟩ := (cellWf_iff d l).1 h
    refine (cellWf_iff d _).2 ⟨?_, ?_⟩
    · simp only [cellPut, Option.toList, List.map_nil, List.append_nil]
      refine List.pairwise_append.2 ⟨h1.filter _, h1.filter _, ?_⟩
      intro x hx y hy
      have hx := (List.mem_filter.1 hx).2
      have hy := (List.mem_filter.1 hy).2
      simp only [decide_eq_true_eq] at hx hy
      omega
    · intro c hc
      simp only [cellPut, Option.toList, List.map_nil, List.append_nil] at hc
      rcases List.mem_append.1 hc with hc | hc <;> exact h2 c ((List.mem_filter.1 hc).1)
  | some x =>
    have hx : x ≠ d := fun e => hv (by rw [e])
    have he : cellPut l k (some x) = cellWrite d l k [x] := by
      have e : (fun c : Nat × α => decide (k < c.1)) = fun c => decide (k + [x].length ≤ c.1) := by
        funext c; rfl
      simp only [cellPut, cellWrite, cellBlock, if_neg hx, Option.toList, List.map_cons, List.map_nil]
      rw [e]
    rw [he]
    exact cellWf_write k [x] h

/-- Unlisting consecutive keys keeps the form. -/
theorem cellWf_clear {α : Type} [DecidableEq α] {d : α} {l : List (Nat × α)} (a n : Nat) (h : cellWf d l = true) :
    cellWf d (cellClear l a n) = true := cellWf_filter _ h

/-- What a filter by keys leaves at a key that it picks. -/
theorem cellFind_filter {α : Type} (p : Nat → Bool) (k : Nat) (hk : p k = true) (l : List (Nat × α)) :
    cellFind k (l.filter fun c => p c.1) = cellFind k l := by
  induction l with
  | nil => rfl
  | cons x t ih =>
    obtain ⟨j, v⟩ := x
    by_cases hj : j = k
    · subst hj; simp [hk, cellFind]
    · by_cases hp : p j = true
      · simp [hp, cellFind, hj, ih]
      · simp [hp, cellFind, hj, ih]

/-- A filter that leaves a key out lists nothing at it. -/
theorem cellFind_filter_none {α : Type} (p : Nat → Bool) (k : Nat) (hk : p k = false) (l : List (Nat × α)) :
    cellFind k (l.filter fun c => p c.1) = none := by
  induction l with
  | nil => rfl
  | cons x t ih =>
    obtain ⟨j, v⟩ := x
    by_cases hj : j = k
    · subst hj; simp [hk, ih]
    · by_cases hp : p j = true
      · simp [hp, cellFind, hj, ih]
      · simp [hp, ih]

theorem cellFind_append {α : Type} (k : Nat) (l m : List (Nat × α)) :
    cellFind k (l ++ m) = (cellFind k l).or (cellFind k m) := by
  induction l with
  | nil => rfl
  | cons x t ih =>
    obtain ⟨j, v⟩ := x
    by_cases hj : j = k <;> simp [cellFind, hj, ih]

/-- What a block of values lists. -/
theorem cellFind_block {α : Type} [DecidableEq α] (d : α) (vs : List α) (a k : Nat) :
    cellFind k (cellBlock d a vs) =
      if a ≤ k ∧ k < a + vs.length then (if vs.getD (k - a) d = d then none else some (vs.getD (k - a) d)) else none := by
  induction vs generalizing a with
  | nil => simp [cellBlock, cellFind]
  | cons v t ih =>
    simp only [cellBlock]
    by_cases hk : k = a
    · subst hk
      by_cases hv : v = d
      · rw [if_pos hv, ih, if_neg (by omega), if_pos ⟨Nat.le_refl k, by simp only [List.length_cons]; omega⟩, if_pos]
        simpa using hv
      · rw [if_neg hv, if_pos ⟨Nat.le_refl k, by simp only [List.length_cons]; omega⟩, if_neg (by simpa using hv)]
        simp [cellFind]
    · by_cases hr : a ≤ k
      · obtain ⟨i, rfl⟩ : ∃ i, k = a + 1 + i := ⟨k - a - 1, by omega⟩
        have e1 : a + 1 + i - a = i + 1 := by omega
        have e2 : a + 1 + i - (a + 1) = i := by omega
        have c1 : (a + 1 ≤ a + 1 + i ∧ a + 1 + i < a + 1 + t.length) ↔ i < t.length := by omega
        have c2 : (a ≤ a + 1 + i ∧ a + 1 + i < a + (t.length + 1)) ↔ i < t.length := by omega
        by_cases hv : v = d
        · simp only [hv, if_true, ih, List.length_cons, e1, e2, List.getD_cons_succ, c1, c2]
        · simp only [hv, if_false, cellFind, ih, List.length_cons, e1, e2, List.getD_cons_succ, c1, c2]
          rw [if_neg (by omega)]
      · by_cases hv : v = d
        · simp only [hv, if_true, ih]
          rw [if_neg (by omega), if_neg (by omega)]
        · simp only [hv, if_false, cellFind, ih]
          rw [if_neg (by omega), if_neg (by omega), if_neg (by omega)]

/-- Reading after a write: the written values at the written keys, the old reading at every other. -/
theorem cellGet_write {α : Type} [DecidableEq α] (d : α) (l : List (Nat × α)) (a : Nat) (vs : List α) (k : Nat) :
    cellGet d (cellWrite d l a vs) k = if a ≤ k ∧ k < a + vs.length then vs.getD (k - a) d else cellGet d l k := by
  unfold cellGet cellWrite
  rw [cellFind_append, cellFind_append, cellFind_block]
  by_cases hk : a ≤ k ∧ k < a + vs.length
  · rw [cellFind_filter_none (fun c => decide (c < a)) k (by simp; omega),
      cellFind_filter_none (fun c => decide (a + vs.length ≤ c)) k (by simp; omega)]
    simp only [if_pos hk]
    by_cases hv : vs.getD (k - a) d = d
    · rw [if_pos hv, hv]; rfl
    · rw [if_neg hv]; rfl
  · simp only [if_neg hk]
    by_cases hl : k < a
    · rw [cellFind_filter (fun c => decide (c < a)) k (by simpa using hl),
        cellFind_filter_none (fun c => decide (a + vs.length ≤ c)) k (by simp; omega)]
      simp
    · rw [cellFind_filter_none (fun c => decide (c < a)) k (by simp; omega),
        cellFind_filter (fun c => decide (a + vs.length ≤ c)) k (by simp; omega)]
      simp

/-- Reading after a clearing. -/
theorem cellGet_clear {α : Type} (d : α) (l : List (Nat × α)) (a n k : Nat) :
    cellGet d (cellClear l a n) k = if a ≤ k ∧ k < a + n then d else cellGet d l k := by
  unfold cellGet cellClear
  by_cases hk : a ≤ k ∧ k < a + n
  · rw [cellFind_filter_none (fun c => decide (c < a) || decide (a + n ≤ c)) k (by simp; omega), if_pos hk]
  · rw [cellFind_filter (fun c => decide (c < a) || decide (a + n ≤ c)) k (by simp; omega), if_neg hk]

/-- What is listed after a key is put. -/
theorem cellFind_put {α : Type} (l : List (Nat × α)) (k : Nat) (v : Option α) (j : Nat) :
    cellFind j (cellPut l k v) = if j = k then v else cellFind j l := by
  unfold cellPut
  rw [cellFind_append, cellFind_append]
  by_cases hj : j = k
  · subst hj
    rw [cellFind_filter_none (fun c => decide (c < j)) j (by simp), cellFind_filter_none (fun c => decide (j < c)) j (by simp)]
    cases v <;> simp [cellFind]
  · have hm : cellFind j (v.toList.map fun x => (k, x)) = none := by
      cases v with
      | none => rfl
      | some x => simp [cellFind, Ne.symm hj]
    rw [hm, if_neg hj]
    by_cases hl : j < k
    · rw [cellFind_filter (fun c => decide (c < k)) j (by simpa using hl),
        cellFind_filter_none (fun c => decide (k < c)) j (by simp; omega)]
      simp
    · rw [cellFind_filter_none (fun c => decide (c < k)) j (by simp; omega),
        cellFind_filter (fun c => decide (k < c)) j (by simp; omega)]
      simp

/-- A read of consecutive keys is the readings of the keys. -/
theorem cellRead_eq {α : Type} (d : α) (l : List (Nat × α)) (a n : Nat) :
    cellRead d l a n = (List.range n).map fun i => cellGet d l (a + i) := by
  unfold cellRead
  refine List.map_congr_left fun i hi => ?_
  unfold cellGet
  rw [cellFind_filter (fun c => decide (a ≤ c) && decide (c < a + n)) (a + i) (by simp; exact List.mem_range.1 hi)]

theorem cellRead_length {α : Type} (d : α) (l : List (Nat × α)) (a n : Nat) : (cellRead d l a n).length = n := by
  simp [cellRead]

/-- A read of what has just been written. -/
theorem cellRead_write {α : Type} [DecidableEq α] (d : α) (l : List (Nat × α)) (a : Nat) (vs : List α) :
    cellRead d (cellWrite d l a vs) a vs.length = vs := by
  rw [cellRead_eq]
  refine List.ext_getElem (by simp) fun i h1 h2 => ?_
  simp only [List.getElem_map, List.getElem_range]
  rw [cellGet_write, if_pos ⟨by omega, by omega⟩]
  simp [h2]

/-- A read apart from a write. -/
theorem cellRead_write_apart {α : Type} [DecidableEq α] (d : α) (l : List (Nat × α)) (a : Nat) (vs : List α) (b n : Nat)
    (h : b + n ≤ a ∨ a + vs.length ≤ b) : cellRead d (cellWrite d l a vs) b n = cellRead d l b n := by
  rw [cellRead_eq, cellRead_eq]
  refine List.map_congr_left fun i hi => ?_
  have := List.mem_range.1 hi
  rw [cellGet_write, if_neg (by omega)]

end Sys2Proof.Machine
end

