-- ==== Sys2Proof/Laws/Ending.lean ====
section
/-! SUPPORT. What ending an item does, said once (R61, R67, R71, R434). -/
namespace Sys2Proof.Machine

theorem find_map_id {l : List Run} {id k : Nat} {f : Run → Run} (hf : ∀ r, (f r).id = r.id) :
    (l.map fun r => if r.id = id then f r else r).find? (fun r => r.id == k) =
      (l.find? (fun r => r.id == k)).map fun r => if r.id = id then f r else r := by
  induction l with
  | nil => rfl
  | cons x t ih =>
    have hx : (if x.id = id then f x else x).id = x.id := by split <;> simp [hf]
    simp only [List.map_cons, List.find?_cons, hx]
    split
    · rfl
    · exact ih

theorem find_map_index {l : List Item} {i k : Nat} {f : Item → Item} (hf : ∀ x, (f x).index = x.index) :
    (l.map fun x => if x.index = i then f x else x).find? (fun x => x.index == k) =
      (l.find? (fun x => x.index == k)).map fun x => if x.index = i then f x else x := by
  induction l with
  | nil => rfl
  | cons x t ih =>
    have hx : (if x.index = i then f x else x).index = x.index := by split <;> simp [hf]
    simp only [List.map_cons, List.find?_cons, hx]
    split
    · rfl
    · exact ih

theorem findRun_onRun (s : State) (id k : Nat) (f : Run → Run) (hf : ∀ r, (f r).id = r.id) :
    (s.onRun id f).findRun k = (s.findRun k).map fun r => if r.id = id then f r else r := find_map_id hf

theorem findRun_id {s : State} {k : Nat} {r : Run} (h : s.findRun k = some r) : r.id = k := by
  have := List.find?_some h
  simpa using this

theorem item_index {r : Run} {i : Nat} {x : Item} (h : r.item i = some x) : x.index = i := by
  have := List.find?_some h
  simpa using this

/-- An item changed is changed, and no other. -/
theorem itemOf_onItem (s : State) (run item r i : Nat) (f : Item → Item) (hf : ∀ x, (f x).index = x.index) :
    (s.onItem run item f).itemOf r i = if r = run ∧ i = item then (s.itemOf r i).map f else s.itemOf r i := by
  unfold State.onItem State.itemOf
  have hg := findRun_onRun s run r (fun q => { q with items := q.items.map fun x => if x.index = item then f x else x })
    (fun _ => rfl)
  rw [hg]
  cases h : s.findRun r with
  | none => simp
  | some x =>
    have hx := findRun_id h
    by_cases hr : r = run
    · subst hr
      simp only [Option.map_some, hx, if_true, Option.bind_some, true_and]
      unfold Run.item
      rw [find_map_index hf]
      cases h2 : x.items.find? (fun y => y.index == i) with
      | none => simp
      | some y =>
        have hy : y.index = i := by simpa using List.find?_some h2
        simp [hy]
        split <;> rfl
    · have : x.id ≠ run := by omega
      simp [this, hr]

/-- The run's descriptor, and all of the run but its items, is kept. -/
theorem desc_onItem (s : State) (run item k : Nat) (f : Item → Item) :
    ((s.onItem run item f).findRun k).map Run.desc = (s.findRun k).map Run.desc := by
  unfold State.onItem
  have hg := findRun_onRun s run k (fun q => { q with items := q.items.map fun x => if x.index = item then f x else x })
    (fun _ => rfl)
  rw [hg]
  cases s.findRun k with
  | none => rfl
  | some x => simp; split <;> rfl

theorem itemOf_congr {s t : State} (h : t.runs = s.runs) (r i : Nat) : t.itemOf r i = s.itemOf r i := by
  unfold State.itemOf State.findRun
  rw [h]

theorem itemOpen_iff {s : State} {run item : Nat} :
    s.itemOpen run item = true ↔ ∃ x, s.itemOf run item = some x ∧ x.hasEnded = false := by
  unfold State.itemOpen State.itemOf
  cases (s.findRun run).bind fun r => r.item item <;> simp

theorem finish_index (x : Item) (t st dt : Nat) : (x.finish t st dt).index = x.index := by
  unfold Item.finish
  split
  · split <;> rfl
  · rfl

/-- What giving up the work of an item leaves as it is. -/
structure Leaves (u t : State) (run item : Nat) : Prop where
  runs : t.runs = u.runs
  regs : u.notLoader run item → t.regs = u.regs ∧ t.fn = u.fn
  host : t.host = { u.host with biasChanges := t.host.biasChanges }
  fab : t.fab = { u.fab with requests := t.fab.requests, fences := t.fab.fences, patches := t.fab.patches }
  flash : t.flash = { u.flash with programs := t.flash.programs, trims := t.flash.trims }
  coll : t.coll = { u.coll with halves := t.coll.halves, ended := t.coll.ended }
  mem : t.mem = u.mem
  rings : t.rings = u.rings
  cue : t.cue = u.cue
  sched : t.sched = u.sched
  accounts : t.accounts = u.accounts
  book : t.book = u.book
  rel : t.rel = u.rel
  sec : t.sec = u.sec
  power : t.power = u.power
  boot : t.boot = u.boot
  bias : t.bias = u.bias
  media : t.media = u.media
  outs : t.outs = u.outs
  pending : t.pending = u.pending
  freeCtr : t.freeCtr = u.freeCtr
  now : t.now = u.now

theorem noteHalves_leaves (hs : List Half) (u t : State) (run item status : Nat) (h : Leaves u t run item) :
    Leaves u (hs.foldl (fun (v : State) h => v.noteHalf h status) t) run item := by
  induction hs generalizing t with
  | nil => exact h
  | cons x l ih =>
    refine ih (t.noteHalf x status) ?_
    obtain ⟨h1, h2, h3, h4, h5, h6, h7, h8, h9, h10, h11, h12, h13, h14, h15, h16, h17, h18, h19, h20, h21, h22⟩ := h
    refine ⟨h1, h2, h3, h4, h5, ?_, h7, h8, h9, h10, h11, h12, h13, h14, h15, h16, h17, h18, h19, h20, h21, h22⟩
    unfold State.noteHalf
    dsimp only
    rw [h6]

theorem fnLoadEnd_leaves (u t : State) (run item : Nat) (h : Leaves u t run item) (hu : ¬u.notLoader run item) :
    Leaves u t.fnLoadEnd run item := by
  obtain ⟨h1, h2, h3, h4, h5, h6, h7, h8, h9, h10, h11, h12, h13, h14, h15, h16, h17, h18, h19, h20, h21, h22⟩ := h
  exact ⟨h1, fun h => absurd h hu, h3, h4, h5, h6, h7, h8, h9, h10, h11, h12, h13, h14, h15, h16, h17, h18, h19, h20, h21, h22⟩

theorem leaveItem_leaves (u : State) (run item status : Nat) : Leaves u (u.leaveItem run item status) run item := by
  unfold State.leaveItem
  dsimp only
  refine noteHalves_leaves _ _ _ _ _ _ ?_
  have key : ∀ (v : State) (l : List Half), Leaves u v run item →
      Leaves u ({ v with coll := { v.coll with halves := l } } : State) run item := by
    intro v l h
    obtain ⟨h1, h2, h3, h4, h5, h6, h7, h8, h9, h10, h11, h12, h13, h14, h15, h16, h17, h18, h19, h20, h21, h22⟩ := h
    refine ⟨h1, h2, h3, h4, h5, ?_, h7, h8, h9, h10, h11, h12, h13, h14, h15, h16, h17, h18, h19, h20, h21, h22⟩
    dsimp only
    rw [h6]
  refine key _ _ ?_
  split
  · next hl =>
    refine fnLoadEnd_leaves _ _ _ _ ?_ ?_
    · constructor <;> first | rfl | exact fun _ => ⟨rfl, rfl⟩
    · intro hn
      simp only [Option.any_eq_true] at hl
      obtain ⟨x, hx, hm⟩ := hl
      simp at hm
      exact hn x hx hm
  · constructor <;> first | rfl | exact fun _ => ⟨rfl, rfl⟩

/-- No codec item, or none that holds a stream: nothing to release. -/
theorem releaseCodec_of_class {s : State} {run item status : Nat}
    (h : ∀ r, s.findRun run = some r → hdrClass r.desc.bytes ≠ 7 ∧ hdrClass r.desc.bytes ≠ 8) :
    s.releaseCodec run item status = s := by
  unfold State.releaseCodec
  cases hr : s.findRun run with
  | none => rfl
  | some r =>
    have := h r hr
    simp [this.1, this.2]

theorem releaseFeed_of_ok {s : State} {run item status : Nat} (h : status < 16) : s.releaseFeed run item status = s := by
  unfold State.releaseFeed
  rw [if_pos h]

theorem abandon_leaves (u : State) (run item : Nat) : Leaves u (u.abandon run item) run item := by
  unfold State.abandon
  constructor <;> first | rfl | exact fun _ => ⟨rfl, rfl⟩

/-- An item that ends with a success. -/
theorem closeItem_ends {u : State} {run item status detail base : Nat} (hs : status < 16)
    (hw : u.waitsAck run item = false) (ho : u.itemOpen run item = true)
    (hc : ∀ r, u.findRun run = some r → hdrClass r.desc.bytes ≠ 7 ∧ hdrClass r.desc.bytes ≠ 8) :
    ItemEnds u ((u.noteCycles run item base).closeItem run item status detail) run item status detail base := by
  obtain ⟨x, hx, he⟩ := itemOpen_iff.mp ho
  have hv : ∀ r i, (u.noteCycles run item base).itemOf r i =
      if r = run ∧ i = item then (u.itemOf r i).map (fun x => { x with cycles := u.cyclesOf base }) else u.itemOf r i := by
    intro r i
    exact itemOf_onItem u run item r i (fun x => { x with cycles := u.cyclesOf base }) (fun _ => rfl)
  have hvw : (u.noteCycles run item base).waitsAck run item = false := hw
  have hvo : (u.noteCycles run item base).itemOpen run item = true := by
    refine itemOpen_iff.mpr ⟨{ x with cycles := u.cyclesOf base }, ?_, he⟩
    rw [hv, hx]
    simp
  have hvc : ∀ r, (u.noteCycles run item base).findRun run = some r → hdrClass r.desc.bytes ≠ 7 ∧ hdrClass r.desc.bytes ≠ 8 := by
    intro r hr
    have hd : ((u.noteCycles run item base).findRun run).map Run.desc = (u.findRun run).map Run.desc :=
      desc_onItem u run item run (fun x => { x with cycles := u.cyclesOf base })
    rw [hr] at hd
    cases hu : u.findRun run with
    | none => simp [hu] at hd
    | some r' =>
      simp [hu] at hd
      rw [hd]
      exact hc r' hu
  have hl : Leaves u (u.noteCycles run item base) run item → True := fun _ => trivial
  generalize hg : u.noteCycles run item base = v at *
  have hvp : ∀ {P : State → Prop}, P (u.noteCycles run item base) → P v := fun h => hg ▸ h
  have hclose : v.closeItem run item status detail =
      ((v.leaveItem run item status).abandon run item).onItem run item fun x => x.finish v.now status detail := by
    unfold State.closeItem State.endItem
    rw [hvw, hvo, releaseCodec_of_class hvc, releaseFeed_of_ok hs]
    simp
  rw [hclose]
  obtain ⟨h1, h2, h3, h4, h5, h6, h7, h8, h9, h10, h11, h12, h13, h14, h15, h16, h17, h18, h19, h20, h21, h22⟩ :=
    leaveItem_leaves v run item status
  have hit : ∀ r i, ((((v.leaveItem run item status).abandon run item).onItem run item fun x => x.finish v.now status detail)).itemOf r i =
      if r = run ∧ i = item then (v.itemOf r i).map (fun x => x.finish v.now status detail) else v.itemOf r i := by
    intro r i
    rw [itemOf_onItem _ _ _ _ _ _ (fun x => finish_index x _ _ _)]
    rw [itemOf_congr (s := v) (t := (v.leaveItem run item status).abandon run item) h1]
  have hvi : v.itemOf run item = some { x with cycles := u.cyclesOf base } := by rw [hv, hx]; simp
  have hfin : ({ x with cycles := u.cyclesOf base } : Item).finish v.now status detail =
      { x with cycles := u.cyclesOf base, phase := .ended status detail, endedAt := some (v.now, x.phase) } := by
    unfold Item.finish
    have : ({ x with cycles := u.cyclesOf base } : Item).hasEnded = false := he
    rw [this]
    rfl
  subst hg
  refine ⟨?_, ?_, ?_, ?_, h3, ?_, h5, h6, h7, h8, h9, h10, h11, h12, h13, h14, h15, h16, h17, h18, h19, h20, h22⟩
  · unfold State.phaseOf
    rw [hit, hvi]
    simp [hfin]
  · rw [hit, hvi]
    simp [hfin]
  · intro r i hne
    have hno : ¬(r = run ∧ i = item) := by omega
    rw [hit, if_neg hno, hv, if_neg hno]
  · exact h2
  · show ({ (State.leaveItem _ run item status).fab with requests := _ } : Fabric) = _
    rw [h4]
    rfl

end Sys2Proof.Machine
end

