-- ==== Sys2Proof/Laws/Registers.lean ====
section
/-! SUPPORT. Reading registers and fields after they are set. -/
namespace Sys2Proof.Machine

theorem regReset_lt (off : Nat) : regReset off < 2 ^ 64 := by
  unfold regReset
  have hi : ∀ (c : Prop) [Decidable c] (a b : Nat), a < 2 ^ 64 → b < 2 ^ 64 → (if c then a else b) < 2 ^ 64 := by
    intro c _ a b ha hb
    split <;> assumption
  repeat' first
    | exact hi _ _ _ (by decide) (by decide)
    | refine hi _ _ _ (by decide) ?_

theorem reg_lt (s : State) (off : Nat) : s.reg off < 2 ^ 64 := by
  unfold State.reg
  repeat' split
  all_goals first | exact regReset_lt off | exact BitVec.isLt _

theorem cellFind_put_same {α : Type} (l : List (Nat × α)) (k : Nat) (v : Option α) : cellFind k (cellPut l k v) = v := by
  rw [cellFind_put, if_pos rfl]

theorem cellFind_put_other {α : Type} (l : List (Nat × α)) (k j : Nat) (v : Option α) (h : j ≠ k) :
    cellFind j (cellPut l k v) = cellFind j l := by
  rw [cellFind_put, if_neg h]

/-- A register that has been set reads as what it was set to. -/
theorem reg_setReg (s : State) (off v : Nat) (hv : v < 2 ^ 64) : (s.setReg off v).reg off = v := by
  have hp : (s.regs.put off v).parityBad.contains off = false := by
    unfold RegFile.put
    simp
  show (if (s.regs.put off v).imageHeld && (s.regs.put off v).parityBad.contains off then _ else _) = v
  rw [hp, Bool.and_false, if_neg (by decide)]
  show (match cellFind off (cellPut s.regs.vals off (if v = regReset off then none else some (BitVec.ofNat 64 v))) with
    | some v => v.toNat
    | none => regReset off) = v
  rw [cellFind_put_same]
  split
  · next h =>
    split at h
    · cases h
    · cases h
      rw [BitVec.toNat_ofNat, Nat.mod_eq_of_lt hv]
  · next h =>
    split at h
    · next h1 => exact h1.symm
    · cases h

/-- No other register changes. -/
theorem reg_setReg_other (s : State) (off v b : Nat) (h : b ≠ off) : (s.setReg off v).reg b = s.reg b := by
  have hp : (s.regs.put off v).parityBad.contains b = s.regs.parityBad.contains b := by
    unfold RegFile.put
    simp [h]
  show (if (s.regs.put off v).imageHeld && (s.regs.put off v).parityBad.contains b then
      (match cellFind b s.regs.image with
      | some v => v.toNat
      | none => regReset b) else
      (match cellFind b (cellPut s.regs.vals off (if v = regReset off then none else some (BitVec.ofNat 64 v))) with
      | some v => v.toNat
      | none => regReset b)) = _
  rw [hp, cellFind_put_other _ _ _ _ h]
  rfl

/-- A field inside its register that has been set reads as what it was set to. -/
theorem fld_setFld (s : State) (f : Fld) (v : Nat) (hf : f.lo + f.w ≤ 64) (hv : v < 2 ^ f.w) : (s.setFld f v).fld f = v := by
  unfold State.fld State.setFld
  rw [reg_setReg _ _ _ (setField_lt (reg_lt s f.off) hf), field_setField, Nat.mod_eq_of_lt hv]

/-- A field that does not meet the one that was set keeps its value. -/
theorem fld_setFld_other (s : State) (f g : Fld) (v : Nat) (hf : f.lo + f.w ≤ 64)
    (h : g.off ≠ f.off ∨ g.lo + g.w ≤ f.lo ∨ f.lo + f.w ≤ g.lo) : (s.setFld f v).fld g = s.fld g := by
  unfold State.fld State.setFld
  by_cases ho : g.off = f.off
  · rw [ho, reg_setReg _ _ _ (setField_lt (reg_lt s f.off) hf)]
    rcases h with h | h | h
    · exact absurd ho h
    · exact field_setField_below _ _ _ _ _ _ h
    · exact field_setField_above _ _ _ _ _ _ h
  · rw [reg_setReg_other _ _ _ _ ho]

theorem flag_setFlag (s : State) (f : Fld) (b : Bool) (hf : f.lo + f.w ≤ 64) (hw : f.w ≠ 0) : (s.setFlag f b).flag f = b := by
  have h1 : 1 < 2 ^ f.w := Nat.one_lt_two_pow hw
  unfold State.flag State.setFlag
  cases b
  · rw [if_neg (by decide), fld_setFld _ _ _ hf (by omega)]
    rfl
  · rw [if_pos rfl, fld_setFld _ _ _ hf h1]
    rfl

end Sys2Proof.Machine
end

