-- ==== Sys2Proof/Laws/Cut.lean ====
section
/-! SUPPORT. What ending items early does, said once: what it leaves as it is, and the status that the items get (R61, R62,
R434, R436, R442). -/
namespace Sys2Proof.Machine

/-- `y` is an ended item `x`, or `x` with the status and DETAIL of an end that coincides with its own (R64). -/
def Item.Settled (x y : Item) (now : Nat) : Prop :=
  y = x ∨ ∃ ph st dt, x.endedAt = some (now, ph) ∧ y = { x with phase := .ended st dt }

theorem Item.Settled.trans {x y z : Item} {now : Nat} (h : x.Settled y now) (k : y.Settled z now) : x.Settled z now := by
  rcases h with rfl | ⟨ph, st, dt, he, rfl⟩
  · exact k
  · rcases k with rfl | ⟨ph', st', dt', he', rfl⟩
    · exact .inr ⟨ph, st, dt, he, rfl⟩
    · exact .inr ⟨ph, st', dt', he, rfl⟩

theorem Item.Settled.ended {x y : Item} {now : Nat} (h : x.Settled y now) (e : x.hasEnded = true) : y.hasEnded = true := by
  rcases h with rfl | ⟨_, _, _, _, rfl⟩
  · exact e
  · rfl

theorem finish_settled (x : Item) (now st dt : Nat) (e : x.hasEnded = true) : x.Settled (x.finish now st dt) now := by
  unfold Item.finish
  rw [if_pos e]
  split
  · next h =>
    unfold Item.yields at h
    split at h
    · next hph hea =>
      simp at h
      obtain ⟨⟨rfl, _⟩, _⟩ := h
      exact .inr ⟨_, st, dt, hea, rfl⟩
    · cases h
  · exact .inl rfl

theorem finish_ended (x : Item) (now st dt : Nat) : (x.finish now st dt).hasEnded = true := by
  unfold Item.finish
  split
  · split
    · rfl
    · assumption
  · rfl

/-- Registers that an item's end may change: `FN_STATUS`, where a table load is given up, and those of the memory error log,
where a codec item cannot give its stream block up. -/
def cutRegs (off : Nat) : Prop := off = rFnStatus ∨ off = rMemerrLogProd ∨ off = rMemerrLogLost

/-- `t` is `s` with items ended: nothing that does not belong to an item changes. A codec item gives its stream block up, which
writes to memory; a table load that is given up shows in `FN_STATUS`. -/
structure Cuts (s t : State) : Prop where
  desc : ∀ k, (t.findRun k).map Run.desc = (s.findRun k).map Run.desc
  kept : ∀ r i x, s.itemOf r i = some x → x.hasEnded = true → ∃ y, t.itemOf r i = some y ∧ x.Settled y s.now
  gone : ∀ r i, s.itemOf r i = none → t.itemOf r i = none
  reg : ∀ off, ¬cutRegs off → t.reg off = s.reg off
  host : t.host = { s.host with biasChanges := t.host.biasChanges }
  fab : t.fab = { s.fab with requests := t.fab.requests, fences := t.fab.fences, patches := t.fab.patches }
  flash : t.flash = { s.flash with programs := t.flash.programs, trims := t.flash.trims }
  coll : t.coll = { s.coll with halves := t.coll.halves, ended := t.coll.ended }
  rel : t.rel = { s.rel with openReads := t.rel.openReads }
  sram : t.mem.sram = s.mem.sram
  rings : t.rings = s.rings
  cue : t.cue = s.cue
  sched : t.sched = s.sched
  accounts : t.accounts = s.accounts
  book : t.book = s.book
  sec : t.sec = s.sec
  power : t.power = s.power
  boot : t.boot = s.boot
  bias : t.bias = s.bias
  outs : ∃ l, t.outs = l ++ s.outs
  pending : t.pending = s.pending
  now : t.now = s.now

theorem Cuts.refl (s : State) : Cuts s s := by
  constructor <;> first | rfl | exact ⟨[], rfl⟩ | exact fun _ => rfl | exact fun _ _ => rfl |
    exact fun _ _ x h _ => ⟨x, h, .inl rfl⟩ | exact fun _ _ h => h

theorem Cuts.trans {s t u : State} (a : Cuts s t) (b : Cuts t u) : Cuts s u where
  desc k := (b.desc k).trans (a.desc k)
  kept r i x h e := by
    obtain ⟨y, hy, hs⟩ := a.kept r i x h e
    obtain ⟨z, hz, ht⟩ := b.kept r i y hy (hs.ended e)
    exact ⟨z, hz, hs.trans (a.now ▸ ht)⟩
  gone r i h := b.gone r i (a.gone r i h)
  reg off h := (b.reg off h).trans (a.reg off h)
  host := by rw [b.host, a.host]
  fab := by rw [b.fab, a.fab]
  flash := by rw [b.flash, a.flash]
  coll := by rw [b.coll, a.coll]
  rel := by rw [b.rel, a.rel]
  sram := b.sram.trans a.sram
  rings := b.rings.trans a.rings
  cue := b.cue.trans a.cue
  sched := b.sched.trans a.sched
  accounts := b.accounts.trans a.accounts
  book := b.book.trans a.book
  sec := b.sec.trans a.sec
  power := b.power.trans a.power
  boot := b.boot.trans a.boot
  bias := b.bias.trans a.bias
  outs := by
    obtain ⟨l, hl⟩ := a.outs
    obtain ⟨k, hk⟩ := b.outs
    exact ⟨k ++ l, by rw [hk, hl, List.append_assoc]⟩
  pending := b.pending.trans a.pending
  now := b.now.trans a.now

/-- A change of nothing but an item, its index kept, which settles it if it has ended. -/
theorem cuts_onItem (s : State) (run item : Nat) (f : Item → Item) (hf : ∀ x, (f x).index = x.index)
    (he : ∀ x, s.itemOf run item = some x → x.hasEnded = true → x.Settled (f x) s.now) : Cuts s (s.onItem run item f) := by
  refine ⟨fun k => desc_onItem s run item k f, ?_, ?_, fun _ _ => rfl, rfl, rfl, rfl, rfl, rfl, rfl, rfl, rfl, rfl, rfl, rfl, rfl,
    rfl, rfl, rfl, ⟨[], rfl⟩, rfl, rfl⟩
  · intro r i x h e
    rw [itemOf_onItem _ _ _ _ _ _ hf]
    split
    · next hri =>
      obtain ⟨rfl, rfl⟩ := hri
      rw [h]
      exact ⟨f x, rfl, he x h e⟩
    · exact ⟨x, h, .inl rfl⟩
  · intro r i h
    rw [itemOf_onItem _ _ _ _ _ _ hf, h]
    split <;> rfl

/-- Changes that leave the runs and registers alone. -/
theorem cuts_of {s t : State} (hr : t.runs = s.runs) (hg : ∀ off, ¬cutRegs off → t.reg off = s.reg off)
    (h1 : t.host = { s.host with biasChanges := t.host.biasChanges })
    (h2 : t.fab = { s.fab with requests := t.fab.requests, fences := t.fab.fences, patches := t.fab.patches })
    (h3 : t.flash = { s.flash with programs := t.flash.programs, trims := t.flash.trims })
    (h4 : t.coll = { s.coll with halves := t.coll.halves, ended := t.coll.ended })
    (h5 : t.rel = { s.rel with openReads := t.rel.openReads }) (h6 : t.mem.sram = s.mem.sram)
    (h : t.rings = s.rings ∧ t.cue = s.cue ∧ t.sched = s.sched ∧ t.accounts = s.accounts ∧ t.book = s.book ∧ t.sec = s.sec ∧
      t.power = s.power ∧ t.boot = s.boot ∧ t.bias = s.bias ∧ (∃ l, t.outs = l ++ s.outs) ∧ t.pending = s.pending ∧ t.now = s.now) :
    Cuts s t := by
  obtain ⟨a1, a2, a3, a4, a5, a6, a7, a8, a9, a10, a11, a12⟩ := h
  refine ⟨fun k => ?_, fun r i x e _ => ⟨x, ?_, .inl rfl⟩, fun r i e => ?_, hg, h1, h2, h3, h4, h5, h6, a1, a2, a3, a4, a5, a6, a7, a8, a9, a10,
    a11, a12⟩
  · unfold State.findRun
    rw [hr]
  · rw [itemOf_congr hr, e]
  · rw [itemOf_congr hr, e]

theorem fnStatus_reg (s : State) (f : Fld) (b : Bool) (h : f.off = rFnStatus) (off : Nat) (ho : off ≠ rFnStatus) :
    (s.setFlag f b).reg off = s.reg off := reg_setReg_other _ _ _ _ (h ▸ ho)

theorem fnLoadEnd_cuts (s : State) : Cuts s s.fnLoadEnd := by
  refine cuts_of rfl ?_ rfl rfl rfl rfl rfl rfl ⟨rfl, rfl, rfl, rfl, rfl, rfl, rfl, rfl, rfl, ⟨[], rfl⟩, rfl, rfl⟩
  intro off ho
  show (((({ s with fn := _ } : State).setFlag fnStatusLoading false).setFlag fnStatusWaiting false)).reg off = s.reg off
  have h : off ≠ rFnStatus := fun h => ho (.inl h)
  rw [fnStatus_reg _ _ _ rfl _ h, fnStatus_reg _ _ _ rfl _ h]
  rfl

theorem noteHalves_cuts (hs : List Half) (s : State) (status : Nat) :
    Cuts s (hs.foldl (fun (v : State) h => v.noteHalf h status) s) := by
  induction hs generalizing s with
  | nil => exact Cuts.refl s
  | cons x l ih =>
    have h1 : Cuts s (s.noteHalf x status) := cuts_of rfl (fun _ _ => rfl) rfl rfl rfl rfl rfl rfl
      ⟨rfl, rfl, rfl, rfl, rfl, rfl, rfl, rfl, rfl, ⟨[], rfl⟩, rfl, rfl⟩
    exact h1.trans (ih (s.noteHalf x status))

theorem leaveItem_cuts (s : State) (run item status : Nat) : Cuts s (s.leaveItem run item status) := by
  unfold State.leaveItem
  dsimp only
  refine Cuts.trans ?_ (noteHalves_cuts _ _ _)
  have key : ∀ (v : State) (l : List Half), Cuts s v → Cuts s ({ v with coll := { v.coll with halves := l } } : State) :=
    fun v l h => h.trans (cuts_of rfl (fun _ _ => rfl) rfl rfl rfl rfl rfl rfl
      ⟨rfl, rfl, rfl, rfl, rfl, rfl, rfl, rfl, rfl, ⟨[], rfl⟩, rfl, rfl⟩)
  refine key _ _ ?_
  split
  · refine Cuts.trans ?_ (fnLoadEnd_cuts _)
    exact cuts_of rfl (fun _ _ => rfl) rfl rfl rfl rfl rfl rfl ⟨rfl, rfl, rfl, rfl, rfl, rfl, rfl, rfl, rfl, ⟨[], rfl⟩, rfl, rfl⟩
  · exact cuts_of rfl (fun _ _ => rfl) rfl rfl rfl rfl rfl rfl ⟨rfl, rfl, rfl, rfl, rfl, rfl, rfl, rfl, rfl, ⟨[], rfl⟩, rfl, rfl⟩

theorem devWrite_cuts (s : State) (k : Nat) (bs : List Byte) : Cuts s (s.devWrite k bs) :=
  cuts_of rfl (fun _ _ => rfl) rfl rfl rfl rfl rfl rfl ⟨rfl, rfl, rfl, rfl, rfl, rfl, rfl, rfl, rfl, ⟨[], rfl⟩, rfl, rfl⟩

theorem cutReg_setFld (s : State) (f : Fld) (v : Nat) (h : cutRegs f.off) (off : Nat) (ho : ¬cutRegs off) :
    (s.setFld f v).reg off = s.reg off := reg_setReg_other _ _ _ _ fun e => ho (e ▸ h)

theorem event_cuts (s : State) : Cuts s s.event := by
  unfold State.event State.raise
  split
  · exact cuts_of rfl (fun _ _ => rfl) rfl rfl rfl rfl rfl rfl ⟨rfl, rfl, rfl, rfl, rfl, rfl, rfl, rfl, rfl, ⟨[], rfl⟩, rfl, rfl⟩
  · exact cuts_of rfl (fun _ _ => rfl) rfl rfl rfl rfl rfl rfl ⟨rfl, rfl, rfl, rfl, rfl, rfl, rfl, rfl, rfl, ⟨[_], rfl⟩, rfl, rfl⟩

theorem memErr_cuts (s : State) (type : Nat) (src : ErrSource) (pl : ErrPlace) (n : Nat) : Cuts s (s.memErr type src pl n) := by
  have post : Cuts s (s.logPost memerrLog (memErrEntry type src pl s.cueNo n)) := by
    unfold State.logPost
    split
    · exact Cuts.refl s
    · split
      · refine (devWrite_cuts s _ _).trans (cuts_of rfl (fun off ho => cutReg_setFld _ _ _ (.inr (.inl rfl)) off ho) rfl rfl rfl rfl
          rfl rfl ⟨rfl, rfl, rfl, rfl, rfl, rfl, rfl, rfl, rfl, ⟨[], rfl⟩, rfl, rfl⟩)
      · exact cuts_of rfl (fun off ho => cutReg_setFld _ _ _ (.inr (.inr rfl)) off ho) rfl rfl rfl rfl rfl rfl
          ⟨rfl, rfl, rfl, rfl, rfl, rfl, rfl, rfl, rfl, ⟨[], rfl⟩, rfl, rfl⟩
  unfold State.memErr
  split
  · exact post.trans (event_cuts _)
  · exact post

theorem putPart_cuts (s : State) (src : ErrSource) (k : Nat) (bs : List Byte) : Cuts s (s.putPart src k bs) := by
  unfold State.putPart
  split
  · exact memErr_cuts _ _ _ _ _
  · exact devWrite_cuts _ _ _

theorem event_runs (s : State) : s.event.runs = s.runs := by
  unfold State.event State.raise
  split <;> rfl

theorem putPart_runs (s : State) (src : ErrSource) (k : Nat) (bs : List Byte) : (s.putPart src k bs).runs = s.runs := by
  have post : ∀ (e : List Byte), (s.logPost memerrLog e).runs = s.runs := by
    intro e
    unfold State.logPost
    split
    · rfl
    · split <;> rfl
  unfold State.putPart State.partRefused State.memErr
  split
  · split
    · exact (event_runs _).trans (post _)
    · exact post _
  · rfl

theorem releaseCodec_cuts (s : State) (run item status : Nat) : Cuts s (s.releaseCodec run item status) := by
  unfold State.releaseCodec
  split
  · exact Cuts.refl s
  · split
    · split
      · exact Cuts.refl s
      · split
        · exact Cuts.refl s
        · refine Cuts.trans ?_ (putPart_cuts _ _ _ _)
          have key : ∀ (v : State) (l : List EncJob), Cuts s v →
              Cuts s ({ v with media := { v.media with encodes := l } } : State) :=
            fun v l h => h.trans (cuts_of rfl (fun _ _ => rfl) rfl rfl rfl rfl rfl rfl
              ⟨rfl, rfl, rfl, rfl, rfl, rfl, rfl, rfl, rfl, ⟨[], rfl⟩, rfl, rfl⟩)
          refine key _ _ ?_
          split
          · split
            · exact (putPart_cuts _ _ _ _).trans (putPart_cuts _ _ _ _)
            · exact Cuts.refl s
          · exact Cuts.refl s
    · exact Cuts.refl s

theorem releaseFeed_cuts (s : State) (run item status : Nat) : Cuts s (s.releaseFeed run item status) := by
  unfold State.releaseFeed
  split
  · exact Cuts.refl s
  · dsimp only
    split
    · exact Cuts.refl s
    · exact cuts_of rfl (fun _ _ => rfl) rfl rfl rfl rfl rfl rfl ⟨rfl, rfl, rfl, rfl, rfl, rfl, rfl, rfl, rfl, ⟨[], rfl⟩, rfl, rfl⟩

theorem abandon_cuts (s : State) (run item : Nat) : Cuts s (s.abandon run item) :=
  cuts_of rfl (fun _ _ => rfl) rfl rfl rfl rfl rfl rfl ⟨rfl, rfl, rfl, rfl, rfl, rfl, rfl, rfl, rfl, ⟨[], rfl⟩, rfl, rfl⟩

/-- Everything that a cut of one item changes before its phase does: no run. -/
theorem release_runs (s : State) (run item status : Nat) :
    (((s.releaseCodec run item status).releaseFeed run item status).leaveItem run item status |>.abandon run item).runs =
      s.runs := by
  have h1 : (s.releaseCodec run item status).runs = s.runs := by
    unfold State.releaseCodec State.encAbort
    repeat' split
    all_goals first | rfl | simp [putPart_runs]
  have h2 : ∀ v : State, (v.releaseFeed run item status).runs = v.runs := by
    intro v
    unfold State.releaseFeed
    split
    · rfl
    · dsimp only
      split <;> rfl
  exact (leaveItem_leaves _ _ _ _).runs.trans ((h2 _).trans h1)

/-- An item that is there ends with the status and DETAIL, and no other item changes. -/
theorem itemOf_endItem (s : State) (run item st dt r i : Nat) :
    (s.endItem run item st dt).itemOf r i =
      if r = run ∧ i = item then (s.itemOf r i).map fun x => x.finish s.now st dt else s.itemOf r i := by
  unfold State.endItem
  split
  · rw [itemOf_onItem _ _ _ _ _ _ (fun x => finish_index x _ st dt)]
  · rw [itemOf_onItem _ _ _ _ _ _ (fun x => finish_index x _ st dt), itemOf_congr (release_runs s run item st)]

theorem endItem_cuts (s : State) (run item st dt : Nat) : Cuts s (s.endItem run item st dt) := by
  unfold State.endItem
  split
  · exact cuts_onItem _ _ _ _ (fun x => finish_index x _ st dt) fun x _ e => finish_settled x _ st dt e
  · have h := (((releaseCodec_cuts s run item st).trans (releaseFeed_cuts _ run item st)).trans
      (leaveItem_cuts _ run item st)).trans (abandon_cuts _ run item)
    refine h.trans (cuts_onItem _ _ _ _ (fun x => finish_index x _ st dt) fun x _ e => ?_)
    rw [h.now]
    exact finish_settled x _ st dt e

/-- The same of an item cut short, whose cycles are noted if it was running: its phase. -/
theorem phaseOf_endEarly (s : State) (run item st dt : Nat) {x : Item} (hx : s.itemOf run item = some x)
    (he : x.hasEnded = false) :
    (s.endEarly run item st dt).phaseOf run item = some (.ended st (s.detailFor run item st dt)) := by
  unfold State.endEarly State.phaseOf
  rw [itemOf_endItem, if_pos ⟨rfl, rfl⟩]
  split
  · have hn : (s.noteCycles run item 0).itemOf run item = some { x with cycles := s.cyclesOf 0 } := by
      have := itemOf_onItem s run item run item (fun x => { x with cycles := s.cyclesOf 0 }) (fun _ => rfl)
      rw [if_pos ⟨rfl, rfl⟩, hx] at this
      exact this
    rw [hn]
    have : ({ x with cycles := s.cyclesOf 0 } : Item).hasEnded = false := he
    simp [Item.finish, this]
  · rw [hx]
    simp [Item.finish, he]

theorem itemOf_endEarly_other (s : State) (run item st dt r i : Nat) (h : r ≠ run ∨ i ≠ item) :
    (s.endEarly run item st dt).itemOf r i = s.itemOf r i := by
  have hn : ¬(r = run ∧ i = item) := by omega
  unfold State.endEarly
  rw [itemOf_endItem, if_neg hn]
  split
  · have := itemOf_onItem s run item r i (fun x => { x with cycles := s.cyclesOf 0 }) (fun _ => rfl)
    rw [if_neg hn] at this
    exact this
  · rfl

theorem endEarly_cuts (s : State) (run item st dt : Nat) : Cuts s (s.endEarly run item st dt) := by
  unfold State.endEarly
  split
  · next h =>
    refine Cuts.trans ?_ (endItem_cuts _ _ _ _ _)
    refine Cuts.trans (cuts_onItem s run item (fun x => { x with cycles := s.cyclesOf 0 }) (fun _ => rfl) ?_)
      (cuts_of rfl (fun _ _ => rfl) rfl rfl rfl rfl rfl rfl ⟨rfl, rfl, rfl, rfl, rfl, rfl, rfl, rfl, rfl, ⟨[], rfl⟩, rfl, rfl⟩)
    intro x hx e
    unfold State.itemOf at hx
    rw [hx] at h
    simp at h
    unfold Item.hasEnded at e
    rw [h] at e
    cases e
  · exact endItem_cuts _ _ _ _ _

/-- A fold of cuts is a cut. -/
theorem cuts_foldl {α : Type} {f : State → α → State} (hf : ∀ s a, Cuts s (f s a)) (l : List α) (s : State) :
    Cuts s (l.foldl f s) := by
  induction l generalizing s with
  | nil => exact Cuts.refl s
  | cons a l ih => exact (hf s a).trans (ih _)

theorem cutItems_cuts (s : State) (p : Run → Bool) (q : Item → Bool) (st dt : Nat) : Cuts s (s.cutItems p q st dt) := by
  refine cuts_foldl (fun t r => ?_) _ _
  split
  · refine cuts_foldl (fun u x => ?_) _ _
    split
    · exact endEarly_cuts _ _ _ _ _
    · exact Cuts.refl _
  · exact Cuts.refl _

/-- An item has ended with this status, or is as it was. -/
def CutTo (s t : State) (run item st : Nat) : Prop :=
  (∃ dt, t.phaseOf run item = some (.ended st dt)) ∨ t.itemOf run item = s.itemOf run item

theorem endEarly_cutTo (s : State) (run item st dt r i : Nat) : CutTo s (s.endEarly run item st dt) r i st := by
  by_cases h : r = run ∧ i = item
  · obtain ⟨rfl, rfl⟩ := h
    cases hx : s.itemOf r i with
    | none => exact .inr (by rw [hx]; exact (endEarly_cuts s r i st dt).gone r i hx)
    | some x =>
      cases he : x.hasEnded with
      | true =>
        have hrun : ¬(((s.findRun r).bind fun q => q.item i).any fun x => x.phase == .running) = true := by
          intro h
          unfold State.itemOf at hx
          rw [hx] at h
          simp at h
          unfold Item.hasEnded at he
          rw [h] at he
          cases he
        have key : (s.endEarly r i st dt).itemOf r i = some (x.finish s.now st (s.detailFor r i st dt)) := by
          unfold State.endEarly
          rw [itemOf_endItem, if_pos ⟨rfl, rfl⟩]
          simp only [hrun, if_false, hx, Option.map_some, Bool.false_eq_true]
        unfold Item.finish at key
        rw [if_pos he] at key
        split at key
        · exact .inl ⟨_, by unfold State.phaseOf; rw [key]; rfl⟩
        · exact .inr (key.trans hx.symm)
      | false => exact .inl ⟨_, phaseOf_endEarly s r i st dt hx he⟩
  · exact .inr (itemOf_endEarly_other s run item st dt r i (by omega))

theorem CutTo.trans {s t u : State} {run item st : Nat} (a : CutTo s t run item st) (b : CutTo t u run item st) :
    CutTo s u run item st := by
  rcases b with b | b
  · exact .inl b
  · rcases a with ⟨dt, a⟩ | a
    · refine .inl ⟨dt, ?_⟩
      unfold State.phaseOf at a ⊢
      rw [b]
      exact a
    · exact .inr (b.trans a)

theorem cutTo_foldl {α : Type} {f : State → α → State} {run item st : Nat} (hf : ∀ s a, CutTo s (f s a) run item st)
    (l : List α) (s : State) : CutTo s (l.foldl f s) run item st := by
  induction l generalizing s with
  | nil => exact .inr rfl
  | cons a l ih => exact (hf s a).trans (ih _)

theorem cutItems_cutTo (s : State) (p : Run → Bool) (q : Item → Bool) (st dt r i : Nat) :
    CutTo s (s.cutItems p q st dt) r i st := by
  refine cutTo_foldl (fun t a => ?_) _ _
  split
  · refine cutTo_foldl (fun u x => ?_) _ _
    split
    · exact endEarly_cutTo _ _ _ _ _ _ _
    · exact .inr rfl
  · exact .inr rfl

/-- An item that is cut in the course of a fold has ended with its status at the end, if nothing else of the fold ends it
otherwise. -/
theorem foldl_ends {α : Type} {f : State → α → State} {run item st : Nat} (hf : ∀ s a, CutTo s (f s a) run item st)
    (l : List α) (s : State) (x : Item) (hx : s.itemOf run item = some x) (he : x.hasEnded = false)
    (a : α) (ha : a ∈ l) (hd : ∀ t y, t.itemOf run item = some y → y.hasEnded = false →
      ∃ dt, (f t a).phaseOf run item = some (.ended st dt)) :
    ∃ dt, (l.foldl f s).phaseOf run item = some (.ended st dt) := by
  have after : ∀ (l : List α) (t : State), (∃ dt, t.phaseOf run item = some (.ended st dt)) →
      ∃ dt, (l.foldl f t).phaseOf run item = some (.ended st dt) := by
    intro l t h
    rcases cutTo_foldl hf l t with k | k
    · exact k
    · obtain ⟨dt, h⟩ := h
      exact ⟨dt, by unfold State.phaseOf at h ⊢; rw [k]; exact h⟩
  induction l generalizing s with
  | nil => cases ha
  | cons b l ih =>
    rcases hf s b with h | h
    · exact after l _ h
    · by_cases hb : a ∈ l
      · exact ih _ (h.trans hx) hb
      · have : a = b := by
          cases ha with
          | head => rfl
          | tail _ h => exact absurd h hb
        subst this
        exact after l _ (hd s x hx he)

/-- `cutItems` ends every item that it picks of every run that it picks, if it has not ended (the run is the first of its
number, as `itemOf` finds it). -/
theorem cutItems_ends (s : State) (p : Run → Bool) (q : Item → Bool) (st dt run item : Nat) {r : Run} {x : Item}
    (hr : s.findRun run = some r) (hp : p r = true) (hx : s.itemOf run item = some x) (hq : q x = true)
    (he : x.hasEnded = false) : ∃ dt', (s.cutItems p q st dt).phaseOf run item = some (.ended st dt') := by
  have hid : r.id = run := findRun_id hr
  have hxr : r.item item = some x := by
    unfold State.itemOf at hx
    rwa [hr] at hx
  have hxi : x.index = item := item_index hxr
  refine foldl_ends (a := r) ?_ _ _ x hx he (List.mem_of_find?_eq_some hr) ?_
  · intro t a
    split
    · refine cutTo_foldl (fun u y => ?_) _ _
      split
      · exact endEarly_cutTo _ _ _ _ _ _ _
      · exact .inr rfl
    · exact .inr rfl
  · intro t y hy hye
    rw [if_pos hp]
    refine foldl_ends (a := x) ?_ _ _ y hy hye (List.mem_of_find?_eq_some hxr) ?_
    · intro u z
      split
      · exact endEarly_cutTo _ _ _ _ _ _ _
      · exact .inr rfl
    · intro u z hz hze
      have hc : s.cuts q st x = true := by
        unfold State.cuts
        simp [hq, he]
      rw [if_pos hc, hid, hxi]
      exact ⟨_, phaseOf_endEarly u run item st dt hz hze⟩

end Sys2Proof.Machine
end

