-- ==== Sys2Proof/Laws/Sound.lean ====
section
/-! SUPPORT. What every command keeps: the memories in canonical form, and the queue of waiting commands. The rules by which
the files `Laws/Keep*.lean` prove it of each operation. -/
namespace Sys2Proof.Machine

/-- What a run of operations begins with: the waiting commands, the monotonic counters and the last history number. -/
structure Base where
  queue : List Instr
  counters : Nat → Nat
  seq : Nat

/-- The memories are in canonical form, the queue is that of `q`, and no counter and no history number has gone back since
`q`. -/
structure Sound (q : Base) (s : State) : Prop where
  queue : s.pending = q.queue
  canon : s.Canonical
  counters : ∀ n, min (q.counters n) (2 ^ 32 - 1) ≤ cellGet 0 s.book.counters n
  seq : q.seq ≤ s.book.historySeq

/-- A canonical state is sound with respect to itself. -/
theorem sound_self {s : State} (h : s.Canonical) :
    Sound ⟨s.pending, fun n => cellGet 0 s.book.counters n, s.book.historySeq⟩ s :=
  ⟨rfl, h, fun _ => Nat.min_le_left _ _, Nat.le_refl _⟩

/-- Only some parts of a state count. -/
theorem Sound.of_eq {q : Base} {s t : State} (h : Sound q s) (h1 : t.pending = s.pending) (h2 : t.mem.dev = s.mem.dev)
    (h3 : t.mem.sram = s.mem.sram) (h4 : t.mem.owners = s.mem.owners) (h5 : t.flash.cells = s.flash.cells)
    (h6 : t.book.counters = s.book.counters) (h7 : t.book.historySeq = s.book.historySeq) : Sound q t := by
  obtain ⟨hp, ⟨⟨ha, hb⟩, hc, hd⟩, he, hf⟩ := h
  exact ⟨h1.trans hp, ⟨⟨by rw [h2]; exact ha, by rw [h3]; exact hb⟩, by rw [h4]; exact hc, by rw [h5]; exact hd⟩,
    by rw [h6]; exact he, by rw [h7]; exact hf⟩

/-- A record update of a sound state. -/
theorem sound_mk {q : Base} {s : State} {regs host rings runs cue sched accounts mem flash book fab coll rel sec power boot
    fn bias media outs pending freeCtr now} (h : Sound q s) (h1 : pending = s.pending) (h2 : mem.dev = s.mem.dev)
    (h3 : mem.sram = s.mem.sram) (h4 : mem.owners = s.mem.owners) (h5 : flash.cells = s.flash.cells)
    (h6 : book.counters = s.book.counters) (h7 : book.historySeq = s.book.historySeq) :
    Sound q (State.mk regs host rings runs cue sched accounts mem flash book fab coll rel sec power boot fn bias media outs
      pending freeCtr now) := Sound.of_eq h h1 h2 h3 h4 h5 h6 h7

/-- A record update that changes memories and keeps their form. -/
theorem sound_mk_wf {q : Base} {s : State} {regs host rings runs cue sched accounts mem flash book fab coll rel sec power boot
    fn bias media outs pending freeCtr now} (h : Sound q s) (h1 : pending = s.pending)
    (h2 : cellWf (0 : Byte) s.mem.dev = true → cellWf (0 : Byte) mem.dev = true)
    (h3 : cellWf (0 : Byte) s.mem.sram = true → cellWf (0 : Byte) mem.sram = true)
    (h4 : cellWf 0 s.mem.owners = true → cellWf 0 mem.owners = true)
    (h5 : cellWf (0 : Byte) s.flash.cells = true → cellWf (0 : Byte) flash.cells = true)
    (h6 : book.counters = s.book.counters) (h7 : book.historySeq = s.book.historySeq) :
    Sound q (State.mk regs host rings runs cue sched accounts mem flash book fab coll rel sec power boot fn bias media outs
      pending freeCtr now) :=
  ⟨h1.trans h.queue, ⟨⟨h2 h.canon.1.1, h3 h.canon.1.2⟩, h4 h.canon.2.1, h5 h.canon.2.2⟩, by rw [h6]; exact h.counters,
    by rw [h7]; exact h.seq⟩

/-- A state that differs from a sound one by a counter that rose. -/
theorem Sound.raise {q : Base} {s t : State} {n v : Nat} (h : Sound q s) (h1 : t.pending = s.pending) (h2 : t.mem = s.mem)
    (h3 : t.flash = s.flash) (h4 : t.book.historySeq = s.book.historySeq)
    (h5 : t.book.counters = cellSet 0 s.book.counters n (min (max (cellGet 0 s.book.counters n) v) (2 ^ 32 - 1))) :
    Sound q t := by
  refine ⟨h1.trans h.queue, ?_, fun k => ?_, h4 ▸ h.seq⟩
  · have := h.canon
    unfold State.Canonical at *
    rw [h2, h3]
    exact this
  · have hk := h.counters k
    rw [h5]
    unfold cellSet
    rw [cellGet_write]
    split
    · next hx =>
      obtain rfl : k = n := by simp at hx; omega
      simp
      omega
    · exact hk

theorem sound_foldl {q : Base} {α : Type} {g : State → α → State} {l : List α} {s : State}
    (hg : ∀ t x, Sound q t → Sound q (g t x)) (h : Sound q s) : Sound q (l.foldl g s) := by
  induction l generalizing s with
  | nil => exact h
  | cons x l ih => exact ih (hg s x h)

/-- A fold that carries a state beside something else. -/
theorem sound_foldl_fst {q : Base} {α β : Type} {g : State × β → α → State × β} {l : List α} {p : State × β}
    (hg : ∀ t x, Sound q t.1 → Sound q (g t x).1) (h : Sound q p.1) : Sound q (l.foldl g p).1 := by
  induction l generalizing p with
  | nil => exact h
  | cons x l ih => exact ih (hg p x h)

/-- Work keeps soundness, however it stops. -/
structure Keeps {α : Type} (q : Base) (m : ItemM α) : Prop where
  on : ∀ e s, Sound q s → Sound q (m.on e s).2

theorem keeps_pure {q : Base} {α : Type} {a : α} : Keeps q (pure a : ItemM α) := ⟨fun _ _ h => h⟩

theorem keeps_throw {q : Base} {α : Type} {x : Stop} : Keeps q (throw x : ItemM α) := ⟨fun _ _ h => h⟩

theorem keeps_read {q : Base} : Keeps q (read : ItemM ItemEnv) := ⟨fun _ _ h => h⟩

theorem keeps_get {q : Base} : Keeps q (get : ItemM State) := ⟨fun _ _ h => h⟩

theorem keeps_set {q : Base} {t : State} (h : Sound q t) : Keeps q (set t : ItemM PUnit) := ⟨fun _ _ _ => h⟩

theorem keeps_modify {q : Base} {f : State → State} (h : ∀ s, Sound q s → Sound q (f s)) :
    Keeps q (modify f : ItemM PUnit) := ⟨fun _ s hs => h s hs⟩

theorem keeps_bind {q : Base} {α β : Type} {m : ItemM α} {k : α → ItemM β} (hm : Keeps q m) (hk : ∀ a, Keeps q (k a)) :
    Keeps q (m >>= k) := by
  constructor
  intro e s h
  have hm := hm.on e s h
  show Sound q ((m >>= k).on e s).2
  simp only [ItemM.on, ReaderT.run, bind, ReaderT.bind, ExceptT.bind, ExceptT.mk, StateT.bind, ExceptT.bindCont, ExceptT.run] at *
  generalize m e s = r at *
  obtain ⟨x, t⟩ := r
  cases x with
  | error _ => exact hm
  | ok a => exact (hk a).on e t hm

theorem keeps_get_bind {q : Base} {β : Type} {k : State → ItemM β} (hk : ∀ s, Sound q s → Keeps q (k s)) :
    Keeps q (get >>= k) := ⟨fun e s h => (hk s h).on e s h⟩

theorem keeps_map {q : Base} {α β : Type} {f : α → β} {m : ItemM α} (hm : Keeps q m) : Keeps q (f <$> m) := by
  constructor
  intro e s h
  have hm := hm.on e s h
  simp only [ItemM.on, ReaderT.run, Functor.map, ExceptT.map, ExceptT.mk, StateT.bind, bind, ExceptT.run] at *
  generalize m e s = r at *
  obtain ⟨x, t⟩ := r
  cases x <;> exact hm

theorem keeps_tryCatch {q : Base} {α : Type} {m : ItemM α} {k : Stop → ItemM α} (hm : Keeps q m) (hk : ∀ x, Keeps q (k x)) :
    Keeps q (tryCatch m k) := by
  constructor
  intro e s h
  have hm := hm.on e s h
  simp only [ItemM.on, ReaderT.run, tryCatch, tryCatchThe, MonadExceptOf.tryCatch, ExceptT.tryCatch, ExceptT.mk, StateT.bind, bind,
    ExceptT.run] at *
  generalize m e s = r at *
  obtain ⟨x, t⟩ := r
  cases x with
  | error x => exact (hk x).on e t hm
  | ok a => exact hm

theorem keeps_forM {q : Base} {α : Type} {l : List α} {f : α → ItemM PUnit} (hf : ∀ a, Keeps q (f a)) :
    Keeps q (l.forM f) := by
  induction l with
  | nil => exact keeps_pure
  | cons x l ih => exact keeps_bind (hf x) fun _ => ih

theorem keeps_mapM {q : Base} {α β : Type} {l : List α} {f : α → ItemM β} (hf : ∀ a, Keeps q (f a)) :
    Keeps q (l.mapM f) := by
  induction l with
  | nil => exact keeps_pure
  | cons x l ih => rw [List.mapM_cons]; exact keeps_bind (hf x) fun _ => keeps_bind ih fun _ => keeps_pure

theorem keeps_foldlM {q : Base} {α β : Type} {l : List α} {f : β → α → ItemM β} {b : β} (hf : ∀ b a, Keeps q (f b a)) :
    Keeps q (l.foldlM f b) := by
  induction l generalizing b with
  | nil => exact keeps_pure
  | cons x l ih => rw [List.foldlM_cons]; exact keeps_bind (hf b x) fun _ => ih

theorem keeps_forIn {q : Base} {α β : Type} {l : List α} {f : α → β → ItemM (ForInStep β)} {b : β}
    (hf : ∀ a b, Keeps q (f a b)) : Keeps q (forIn l b f) := by
  induction l generalizing b with
  | nil => exact keeps_pure
  | cons x l ih =>
    rw [List.forIn_cons]
    refine keeps_bind (hf x b) fun y => ?_
    cases y with
    | done c => exact keeps_pure
    | yield c => exact ih

theorem keeps_seq {q : Base} {α β : Type} {m : ItemM α} {k : ItemM β} (hm : Keeps q m) (hk : Keeps q k) :
    Keeps q (m *> k) := keeps_bind hm fun _ => hk

theorem keeps_ite {q : Base} {α : Type} {c : Prop} [Decidable c] {m n : ItemM α} (h : c → Keeps q m) (k : ¬c → Keeps q n) :
    Keeps q (if c then m else n) := by
  by_cases x : c
  · rw [if_pos x]; exact h x
  · rw [if_neg x]; exact k x

theorem sound_ite {q : Base} {c : Prop} [Decidable c] {m n : State} (h : c → Sound q m) (k : ¬c → Sound q n) :
    Sound q (if c then m else n) := by
  by_cases x : c
  · rw [if_pos x]; exact h x
  · rw [if_neg x]; exact k x

theorem sound_ite_fst {q : Base} {β : Type} {c : Prop} [Decidable c] {m n : State × β} (h : c → Sound q m.1)
    (k : ¬c → Sound q n.1) : Sound q (if c then m else n).1 := by
  by_cases x : c
  · rw [if_pos x]; exact h x
  · rw [if_neg x]; exact k x

/-- An outcome whose next state, if it has one, is sound. -/
structure OutSound (q : Base) (o : Host.Outcome State Fault Refusal) : Prop where
  next : ∀ t, o = .next t → Sound q t

theorem outSound_next {q : Base} {t : State} (h : Sound q t) : OutSound q (.next t) := by
  constructor
  intro u hu
  cases hu
  exact h

/-- A state that may be there. -/
structure SomeSound (q : Base) (o : Option State) : Prop where
  some_ : ∀ t, o = some t → Sound q t

theorem someSound_none {q : Base} : SomeSound q none := ⟨fun _ h => by cases h⟩

theorem someSound_some {q : Base} {t : State} (h : Sound q t) : SomeSound q (some t) := ⟨fun _ e => by cases e; exact h⟩

theorem someSound_map {q : Base} {o : Option State} {f : State → State} (h : SomeSound q o)
    (hf : ∀ t, Sound q t → Sound q (f t)) : SomeSound q (o.map f) := by
  constructor
  intro t e
  cases o with
  | none => cases e
  | some u =>
    obtain rfl := Option.some.inj e
    exact hf u (h.some_ u rfl)

theorem someSound_map_of {q : Base} {α : Type} {o : Option α} {f : α → State} (hf : ∀ a, Sound q (f a)) :
    SomeSound q (o.map f) := by
  constructor
  intro t e
  cases o with
  | none => cases e
  | some a =>
    obtain rfl := Option.some.inj e
    exact hf a

theorem someSound_bind {q : Base} {o : Option State} {f : State → Option State} (h : SomeSound q o)
    (hf : ∀ t, Sound q t → SomeSound q (f t)) : SomeSound q (o.bind f) := by
  constructor
  intro t e
  cases o with
  | none => cases e
  | some u => exact (hf u (h.some_ u rfl)).some_ t e

theorem someSound_foldl {q : Base} {α : Type} {g : Option State → α → Option State} {l : List α} {o : Option State}
    (hg : ∀ o x, SomeSound q o → SomeSound q (g o x)) (h : SomeSound q o) : SomeSound q (l.foldl g o) := by
  induction l generalizing o with
  | nil => exact h
  | cons x l ih => exact ih (hg o x h)

theorem sound_getD {q : Base} {o : Option State} {s : State} (h : SomeSound q o) (hs : Sound q s) : Sound q (o.getD s) := by
  cases o with
  | none => exact hs
  | some t => exact h.some_ t rfl

theorem sound_of_some {q : Base} {o : Option State} {t : State} (he : o = some t) (h : SomeSound q o) : Sound q t :=
  h.some_ t he

theorem sound_of_fst {q : Base} {β : Type} {p : State × β} {t : State} {v : β} (he : p = (t, v)) (h : Sound q p.1) :
    Sound q t := by
  subst he
  exact h

theorem sound_of_snd {q : Base} {β : Type} {p : β × State} {t : State} {v : β} (he : p = (v, t)) (h : Sound q p.2) :
    Sound q t := by
  subst he
  exact h

theorem sound_on {q : Base} {α : Type} {m : ItemM α} {e : ItemEnv} {s : State} (hm : Keeps q m) (h : Sound q s) :
    Sound q (m.on e s).2 := hm.on e s h

end Sys2Proof.Machine
end

