-- ==== Sys2Proof/Laws/KeepRegs.lean ====
section
/-! SUPPORT. What the operations of `Machine/Regs.lean` keep: the memories in canonical form and the queue. -/

set_option linter.unusedTactic false
set_option linter.unreachableTactic false

namespace Sys2Proof.Machine

theorem State.setReg_sound {q : Base} : ∀ {s : State} a1 a2, Sound q s → Sound q (State.setReg s a1 a2) := by
  intros
  unfold State.setReg
  repeat' first
    | with_reducible assumption
    | with_reducible apply sound_foldl
    | with_reducible apply sound_foldl_fst
    | intro _
    | with_reducible apply sound_ite
    | with_reducible apply sound_of_fst (by assumption)
    | with_reducible apply sound_of_some (by assumption)
    | with_reducible apply sound_of_snd (by assumption)
    | with_reducible apply sound_on
    | with_reducible apply sound_getD
    | (with_reducible refine sound_mk ?_ rfl rfl rfl rfl rfl rfl rfl; first | with_reducible assumption | with_reducible apply sound_foldl | with_reducible apply sound_foldl_fst)
    | dsimp only
    | split

theorem State.setFld_sound {q : Base} : ∀ {s : State} a1 a2, Sound q s → Sound q (State.setFld s a1 a2) := by
  intros
  unfold State.setFld
  repeat' first
    | with_reducible assumption
    | with_reducible apply State.setReg_sound
    | with_reducible apply sound_foldl
    | with_reducible apply sound_foldl_fst
    | intro _
    | with_reducible apply sound_ite
    | with_reducible apply sound_of_fst (by assumption)
    | with_reducible apply sound_of_some (by assumption)
    | with_reducible apply sound_of_snd (by assumption)
    | with_reducible apply sound_on
    | with_reducible apply sound_getD
    | (with_reducible refine sound_mk ?_ rfl rfl rfl rfl rfl rfl rfl; first | with_reducible assumption | with_reducible apply State.setReg_sound | with_reducible apply sound_foldl | with_reducible apply sound_foldl_fst)
    | dsimp only
    | split

theorem State.setFlag_sound {q : Base} : ∀ {s : State} a1 a2, Sound q s → Sound q (State.setFlag s a1 a2) := by
  intros
  unfold State.setFlag
  repeat' first
    | with_reducible assumption
    | with_reducible apply State.setFld_sound
    | with_reducible apply sound_foldl
    | with_reducible apply sound_foldl_fst
    | intro _
    | with_reducible apply sound_ite
    | with_reducible apply sound_of_fst (by assumption)
    | with_reducible apply sound_of_some (by assumption)
    | with_reducible apply sound_of_snd (by assumption)
    | with_reducible apply sound_on
    | with_reducible apply sound_getD
    | (with_reducible refine sound_mk ?_ rfl rfl rfl rfl rfl rfl rfl; first | with_reducible assumption | with_reducible apply State.setFld_sound | with_reducible apply sound_foldl | with_reducible apply sound_foldl_fst)
    | dsimp only
    | split

theorem State.bump_sound {q : Base} : ∀ {s : State} a1 a2, Sound q s → Sound q (State.bump s a1 a2) := by
  intros
  unfold State.bump
  repeat' first
    | with_reducible assumption
    | with_reducible apply State.setFld_sound
    | with_reducible apply sound_foldl
    | with_reducible apply sound_foldl_fst
    | intro _
    | with_reducible apply sound_ite
    | with_reducible apply sound_of_fst (by assumption)
    | with_reducible apply sound_of_some (by assumption)
    | with_reducible apply sound_of_snd (by assumption)
    | with_reducible apply sound_on
    | with_reducible apply sound_getD
    | (with_reducible refine sound_mk ?_ rfl rfl rfl rfl rfl rfl rfl; first | with_reducible assumption | with_reducible apply State.setFld_sound | with_reducible apply sound_foldl | with_reducible apply sound_foldl_fst)
    | dsimp only
    | split

theorem State.emit_sound {q : Base} : ∀ {s : State} a1, Sound q s → Sound q (State.emit s a1) := by
  intros
  unfold State.emit
  repeat' first
    | with_reducible assumption
    | with_reducible apply sound_foldl
    | with_reducible apply sound_foldl_fst
    | intro _
    | with_reducible apply sound_ite
    | with_reducible apply sound_of_fst (by assumption)
    | with_reducible apply sound_of_some (by assumption)
    | with_reducible apply sound_of_snd (by assumption)
    | with_reducible apply sound_on
    | with_reducible apply sound_getD
    | (with_reducible refine sound_mk ?_ rfl rfl rfl rfl rfl rfl rfl; first | with_reducible assumption | with_reducible apply sound_foldl | with_reducible apply sound_foldl_fst)
    | dsimp only
    | split

theorem State.draw_sound {q : Base} : ∀ {s : State}, Sound q s → Sound q (State.draw s) := by
  intros
  unfold State.draw
  repeat' first
    | with_reducible assumption
    | with_reducible apply sound_foldl
    | with_reducible apply sound_foldl_fst
    | intro _
    | with_reducible apply sound_ite
    | with_reducible apply sound_of_fst (by assumption)
    | with_reducible apply sound_of_some (by assumption)
    | with_reducible apply sound_of_snd (by assumption)
    | with_reducible apply sound_on
    | with_reducible apply sound_getD
    | (with_reducible refine sound_mk ?_ rfl rfl rfl rfl rfl rfl rfl; first | with_reducible assumption | with_reducible apply sound_foldl | with_reducible apply sound_foldl_fst)
    | dsimp only
    | split

theorem State.raise_sound {q : Base} : ∀ {s : State} a1, Sound q s → Sound q (State.raise s a1) := by
  intros
  unfold State.raise
  repeat' first
    | with_reducible assumption
    | with_reducible apply State.emit_sound
    | with_reducible apply sound_foldl
    | with_reducible apply sound_foldl_fst
    | intro _
    | with_reducible apply sound_ite
    | with_reducible apply sound_of_fst (by assumption)
    | with_reducible apply sound_of_some (by assumption)
    | with_reducible apply sound_of_snd (by assumption)
    | with_reducible apply sound_on
    | with_reducible apply sound_getD
    | (with_reducible refine sound_mk ?_ rfl rfl rfl rfl rfl rfl rfl; first | with_reducible assumption | with_reducible apply State.emit_sound | with_reducible apply sound_foldl | with_reducible apply sound_foldl_fst)
    | dsimp only
    | split

theorem State.event_sound {q : Base} : ∀ {s : State}, Sound q s → Sound q (State.event s) := by
  intros
  unfold State.event
  repeat' first
    | with_reducible assumption
    | with_reducible apply State.raise_sound
    | with_reducible apply sound_foldl
    | with_reducible apply sound_foldl_fst
    | intro _
    | with_reducible apply sound_ite
    | with_reducible apply sound_of_fst (by assumption)
    | with_reducible apply sound_of_some (by assumption)
    | with_reducible apply sound_of_snd (by assumption)
    | with_reducible apply sound_on
    | with_reducible apply sound_getD
    | (with_reducible refine sound_mk ?_ rfl rfl rfl rfl rfl rfl rfl; first | with_reducible assumption | with_reducible apply State.raise_sound | with_reducible apply sound_foldl | with_reducible apply sound_foldl_fst)
    | dsimp only
    | split

theorem State.sealViolation_sound {q : Base} : ∀ {s : State}, Sound q s → Sound q (State.sealViolation s) := by
  intros
  unfold State.sealViolation
  repeat' first
    | with_reducible assumption
    | with_reducible apply State.bump_sound
    | with_reducible apply State.event_sound
    | with_reducible apply sound_foldl
    | with_reducible apply sound_foldl_fst
    | intro _
    | with_reducible apply sound_ite
    | with_reducible apply sound_of_fst (by assumption)
    | with_reducible apply sound_of_some (by assumption)
    | with_reducible apply sound_of_snd (by assumption)
    | with_reducible apply sound_on
    | with_reducible apply sound_getD
    | (with_reducible refine sound_mk ?_ rfl rfl rfl rfl rfl rfl rfl; first | with_reducible assumption | with_reducible apply State.bump_sound | with_reducible apply State.event_sound | with_reducible apply sound_foldl | with_reducible apply sound_foldl_fst)
    | dsimp only
    | split

theorem State.writeWhole_sound {q : Base} : ∀ {s : State} a1 a2 a3, Sound q s → Sound q (State.writeWhole s a1 a2 a3) := by
  intros
  unfold State.writeWhole
  repeat' first
    | with_reducible assumption
    | with_reducible apply State.setReg_sound
    | with_reducible apply State.sealViolation_sound
    | with_reducible apply sound_foldl
    | with_reducible apply sound_foldl_fst
    | intro _
    | with_reducible apply sound_ite
    | with_reducible apply sound_of_fst (by assumption)
    | with_reducible apply sound_of_some (by assumption)
    | with_reducible apply sound_of_snd (by assumption)
    | with_reducible apply sound_on
    | with_reducible apply sound_getD
    | (with_reducible refine sound_mk ?_ rfl rfl rfl rfl rfl rfl rfl; first | with_reducible assumption | with_reducible apply State.setReg_sound | with_reducible apply State.sealViolation_sound | with_reducible apply sound_foldl | with_reducible apply sound_foldl_fst)
    | dsimp only
    | split

theorem State.keepLower_sound {q : Base} : ∀ {s : State} a1 a2, Sound q s → Sound q (State.keepLower s a1 a2) := by
  intros
  unfold State.keepLower
  repeat' first
    | with_reducible assumption
    | with_reducible apply sound_foldl
    | with_reducible apply sound_foldl_fst
    | intro _
    | with_reducible apply sound_ite
    | with_reducible apply sound_of_fst (by assumption)
    | with_reducible apply sound_of_some (by assumption)
    | with_reducible apply sound_of_snd (by assumption)
    | with_reducible apply sound_on
    | with_reducible apply sound_getD
    | (with_reducible refine sound_mk ?_ rfl rfl rfl rfl rfl rfl rfl; first | with_reducible assumption | with_reducible apply sound_foldl | with_reducible apply sound_foldl_fst)
    | dsimp only
    | split

theorem State.dropLower_sound {q : Base} : ∀ {s : State} a1, Sound q s → Sound q (State.dropLower s a1) := by
  intros
  unfold State.dropLower
  repeat' first
    | with_reducible assumption
    | with_reducible apply sound_foldl
    | with_reducible apply sound_foldl_fst
    | intro _
    | with_reducible apply sound_ite
    | with_reducible apply sound_of_fst (by assumption)
    | with_reducible apply sound_of_some (by assumption)
    | with_reducible apply sound_of_snd (by assumption)
    | with_reducible apply sound_on
    | with_reducible apply sound_getD
    | (with_reducible refine sound_mk ?_ rfl rfl rfl rfl rfl rfl rfl; first | with_reducible assumption | with_reducible apply sound_foldl | with_reducible apply sound_foldl_fst)
    | dsimp only
    | split

theorem State.writeOne_sound {q : Base} : ∀ {s : State} a1 a2 a3, Sound q s → Sound q (State.writeOne s a1 a2 a3) := by
  intros
  unfold State.writeOne
  repeat' first
    | with_reducible assumption
    | with_reducible apply State.dropLower_sound
    | with_reducible apply State.keepLower_sound
    | with_reducible apply State.writeWhole_sound
    | with_reducible apply sound_foldl
    | with_reducible apply sound_foldl_fst
    | intro _
    | with_reducible apply sound_ite
    | with_reducible apply sound_of_fst (by assumption)
    | with_reducible apply sound_of_some (by assumption)
    | with_reducible apply sound_of_snd (by assumption)
    | with_reducible apply sound_on
    | with_reducible apply sound_getD
    | (with_reducible refine sound_mk ?_ rfl rfl rfl rfl rfl rfl rfl; first | with_reducible assumption | with_reducible apply State.dropLower_sound | with_reducible apply State.keepLower_sound | with_reducible apply State.writeWhole_sound | with_reducible apply sound_foldl | with_reducible apply sound_foldl_fst)
    | dsimp only
    | split

theorem State.writeReg_sound {q : Base} : ∀ {s : State} a1 a2 a3, Sound q s → Sound q (State.writeReg s a1 a2 a3) := by
  intros
  unfold State.writeReg
  repeat' first
    | with_reducible assumption
    | with_reducible apply State.writeOne_sound
    | with_reducible apply sound_foldl
    | with_reducible apply sound_foldl_fst
    | intro _
    | with_reducible apply sound_ite
    | with_reducible apply sound_of_fst (by assumption)
    | with_reducible apply sound_of_some (by assumption)
    | with_reducible apply sound_of_snd (by assumption)
    | with_reducible apply sound_on
    | with_reducible apply sound_getD
    | (with_reducible refine sound_mk ?_ rfl rfl rfl rfl rfl rfl rfl; first | with_reducible assumption | with_reducible apply State.writeOne_sound | with_reducible apply sound_foldl | with_reducible apply sound_foldl_fst)
    | dsimp only
    | split

theorem State.healParity_sound {q : Base} : ∀ {s : State}, Sound q s → Sound q (State.healParity s) := by
  intros
  unfold State.healParity
  repeat' first
    | with_reducible assumption
    | with_reducible apply State.setReg_sound
    | with_reducible apply State.event_sound
    | with_reducible apply sound_foldl
    | with_reducible apply sound_foldl_fst
    | intro _
    | with_reducible apply sound_ite
    | with_reducible apply sound_of_fst (by assumption)
    | with_reducible apply sound_of_some (by assumption)
    | with_reducible apply sound_of_snd (by assumption)
    | with_reducible apply sound_on
    | with_reducible apply sound_getD
    | (with_reducible refine sound_mk ?_ rfl rfl rfl rfl rfl rfl rfl; first | with_reducible assumption | with_reducible apply State.setReg_sound | with_reducible apply State.event_sound | with_reducible apply sound_foldl | with_reducible apply sound_foldl_fst)
    | dsimp only
    | split

end Sys2Proof.Machine
end

