-- ==== Sys2Proof/Laws/KeepOps.lean ====
section
/-! SUPPORT. What the operations of `Machine/Ops.lean` keep: the memories in canonical form and the queue. -/

set_option linter.unusedTactic false
set_option linter.unreachableTactic false

namespace Sys2Proof.Machine

theorem State.devWrite_sound {q : Base} : ∀ {s : State} key bs, Sound q s → Sound q (State.devWrite s key bs) :=
  fun _ _ h => ⟨h.queue, ⟨⟨cellWf_write _ _ h.canon.1.1, h.canon.1.2⟩, h.canon.2⟩, h.counters, h.seq⟩

theorem State.devZero_sound {q : Base} : ∀ {s : State} key len, Sound q s → Sound q (State.devZero s key len) :=
  fun _ _ h => ⟨h.queue, ⟨⟨cellWf_clear _ _ h.canon.1.1, h.canon.1.2⟩, h.canon.2⟩, h.counters, h.seq⟩

theorem State.sramFresh_sound {q : Base} : ∀ {s : State} a1 a2, Sound q s → Sound q (State.sramFresh s a1 a2) := by
  intros
  unfold State.sramFresh
  repeat' first
    | with_reducible assumption
    | with_reducible apply sound_foldl
    | with_reducible apply sound_foldl_fst
    | intro _
    | with_reducible apply sound_ite
    | with_reducible apply sound_of_fst (by assumption)
    | with_reducible apply sound_of_some (by assumption)
    | with_reducible apply sound_of_snd (by assumption)
    | with_reducible apply sound_on
    | with_reducible apply sound_getD
    | (with_reducible refine sound_mk ?_ rfl rfl rfl rfl rfl rfl rfl; first | with_reducible assumption | with_reducible apply sound_foldl | with_reducible apply sound_foldl_fst)
    | dsimp only
    | split

theorem State.sramWrite_sound {q : Base} : ∀ {s : State} key bs, Sound q s → Sound q (State.sramWrite s key bs) :=
  fun _ _ h => ⟨h.queue, ⟨⟨h.canon.1.1, cellWf_write _ _ h.canon.1.2⟩, h.canon.2⟩, h.counters, h.seq⟩

theorem State.sramZeroPart_sound {q : Base} : ∀ {s : State} p, Sound q s → Sound q (State.sramZeroPart s p) :=
  fun _ h => ⟨h.queue, ⟨⟨h.canon.1.1, cellWf_filter _ h.canon.1.2⟩, h.canon.2⟩, h.counters, h.seq⟩

theorem State.logPost_sound {q : Base} : ∀ {s : State} a1 a2, Sound q s → Sound q (State.logPost s a1 a2) := by
  intros
  unfold State.logPost
  repeat' first
    | with_reducible assumption
    | with_reducible apply State.bump_sound
    | with_reducible apply State.setFld_sound
    | with_reducible apply State.devWrite_sound
    | with_reducible apply sound_foldl
    | with_reducible apply sound_foldl_fst
    | intro _
    | with_reducible apply sound_ite
    | with_reducible apply sound_of_fst (by assumption)
    | with_reducible apply sound_of_some (by assumption)
    | with_reducible apply sound_of_snd (by assumption)
    | with_reducible apply sound_on
    | with_reducible apply sound_getD
    | (with_reducible refine sound_mk ?_ rfl rfl rfl rfl rfl rfl rfl; first | with_reducible assumption | with_reducible apply State.bump_sound | with_reducible apply State.setFld_sound | with_reducible apply State.devWrite_sound | with_reducible apply sound_foldl | with_reducible apply sound_foldl_fst)
    | dsimp only
    | split

theorem State.memErr_sound {q : Base} : ∀ {s : State} a1 a2 a3 a4, Sound q s → Sound q (State.memErr s a1 a2 a3 a4) := by
  intros
  unfold State.memErr
  repeat' first
    | with_reducible assumption
    | with_reducible apply State.logPost_sound
    | with_reducible apply State.event_sound
    | with_reducible apply sound_foldl
    | with_reducible apply sound_foldl_fst
    | intro _
    | with_reducible apply sound_ite
    | with_reducible apply sound_of_fst (by assumption)
    | with_reducible apply sound_of_some (by assumption)
    | with_reducible apply sound_of_snd (by assumption)
    | with_reducible apply sound_on
    | with_reducible apply sound_getD
    | (with_reducible refine sound_mk ?_ rfl rfl rfl rfl rfl rfl rfl; first | with_reducible assumption | with_reducible apply State.logPost_sound | with_reducible apply State.event_sound | with_reducible apply sound_foldl | with_reducible apply sound_foldl_fst)
    | dsimp only
    | split

theorem State.partRefused_sound {q : Base} : ∀ {s : State} a1 a2 a3, Sound q s → Sound q (State.partRefused s a1 a2 a3) := by
  intros
  unfold State.partRefused
  repeat' first
    | with_reducible assumption
    | with_reducible apply State.memErr_sound
    | with_reducible apply sound_foldl
    | with_reducible apply sound_foldl_fst
    | intro _
    | with_reducible apply sound_ite
    | with_reducible apply sound_of_fst (by assumption)
    | with_reducible apply sound_of_some (by assumption)
    | with_reducible apply sound_of_snd (by assumption)
    | with_reducible apply sound_on
    | with_reducible apply sound_getD
    | (with_reducible refine sound_mk ?_ rfl rfl rfl rfl rfl rfl rfl; first | with_reducible assumption | with_reducible apply State.memErr_sound | with_reducible apply sound_foldl | with_reducible apply sound_foldl_fst)
    | dsimp only
    | split

theorem State.putPart_sound {q : Base} : ∀ {s : State} a1 a2 a3, Sound q s → Sound q (State.putPart s a1 a2 a3) := by
  intros
  unfold State.putPart
  repeat' first
    | with_reducible assumption
    | with_reducible apply State.partRefused_sound
    | with_reducible apply State.devWrite_sound
    | with_reducible apply sound_foldl
    | with_reducible apply sound_foldl_fst
    | intro _
    | with_reducible apply sound_ite
    | with_reducible apply sound_of_fst (by assumption)
    | with_reducible apply sound_of_some (by assumption)
    | with_reducible apply sound_of_snd (by assumption)
    | with_reducible apply sound_on
    | with_reducible apply sound_getD
    | (with_reducible refine sound_mk ?_ rfl rfl rfl rfl rfl rfl rfl; first | with_reducible assumption | with_reducible apply State.partRefused_sound | with_reducible apply State.devWrite_sound | with_reducible apply sound_foldl | with_reducible apply sound_foldl_fst)
    | dsimp only
    | split

theorem State.setRing_sound {q : Base} : ∀ {s : State} a1 a2, Sound q s → Sound q (State.setRing s a1 a2) := by
  intros
  unfold State.setRing
  repeat' first
    | with_reducible assumption
    | with_reducible apply sound_foldl
    | with_reducible apply sound_foldl_fst
    | intro _
    | with_reducible apply sound_ite
    | with_reducible apply sound_of_fst (by assumption)
    | with_reducible apply sound_of_some (by assumption)
    | with_reducible apply sound_of_snd (by assumption)
    | with_reducible apply sound_on
    | with_reducible apply sound_getD
    | (with_reducible refine sound_mk ?_ rfl rfl rfl rfl rfl rfl rfl; first | with_reducible assumption | with_reducible apply sound_foldl | with_reducible apply sound_foldl_fst)
    | dsimp only
    | split

theorem State.onRing_sound {q : Base} : ∀ {s : State} a1 a2, Sound q s → Sound q (State.onRing s a1 a2) := by
  intros
  unfold State.onRing
  repeat' first
    | with_reducible assumption
    | with_reducible apply State.setRing_sound
    | with_reducible apply sound_foldl
    | with_reducible apply sound_foldl_fst
    | intro _
    | with_reducible apply sound_ite
    | with_reducible apply sound_of_fst (by assumption)
    | with_reducible apply sound_of_some (by assumption)
    | with_reducible apply sound_of_snd (by assumption)
    | with_reducible apply sound_on
    | with_reducible apply sound_getD
    | (with_reducible refine sound_mk ?_ rfl rfl rfl rfl rfl rfl rfl; first | with_reducible assumption | with_reducible apply State.setRing_sound | with_reducible apply sound_foldl | with_reducible apply sound_foldl_fst)
    | dsimp only
    | split

theorem State.onAccount_sound {q : Base} : ∀ {s : State} a1 a2, Sound q s → Sound q (State.onAccount s a1 a2) := by
  intros
  unfold State.onAccount
  repeat' first
    | with_reducible assumption
    | with_reducible apply sound_foldl
    | with_reducible apply sound_foldl_fst
    | intro _
    | with_reducible apply sound_ite
    | with_reducible apply sound_of_fst (by assumption)
    | with_reducible apply sound_of_some (by assumption)
    | with_reducible apply sound_of_snd (by assumption)
    | with_reducible apply sound_on
    | with_reducible apply sound_getD
    | (with_reducible refine sound_mk ?_ rfl rfl rfl rfl rfl rfl rfl; first | with_reducible assumption | with_reducible apply sound_foldl | with_reducible apply sound_foldl_fst)
    | dsimp only
    | split

theorem State.onRun_sound {q : Base} : ∀ {s : State} a1 a2, Sound q s → Sound q (State.onRun s a1 a2) := by
  intros
  unfold State.onRun
  repeat' first
    | with_reducible assumption
    | with_reducible apply sound_foldl
    | with_reducible apply sound_foldl_fst
    | intro _
    | with_reducible apply sound_ite
    | with_reducible apply sound_of_fst (by assumption)
    | with_reducible apply sound_of_some (by assumption)
    | with_reducible apply sound_of_snd (by assumption)
    | with_reducible apply sound_on
    | with_reducible apply sound_getD
    | (with_reducible refine sound_mk ?_ rfl rfl rfl rfl rfl rfl rfl; first | with_reducible assumption | with_reducible apply sound_foldl | with_reducible apply sound_foldl_fst)
    | dsimp only
    | split

theorem State.onItem_sound {q : Base} : ∀ {s : State} a1 a2 a3, Sound q s → Sound q (State.onItem s a1 a2 a3) := by
  intros
  unfold State.onItem
  repeat' first
    | with_reducible assumption
    | with_reducible apply State.onRun_sound
    | with_reducible apply sound_foldl
    | with_reducible apply sound_foldl_fst
    | intro _
    | with_reducible apply sound_ite
    | with_reducible apply sound_of_fst (by assumption)
    | with_reducible apply sound_of_some (by assumption)
    | with_reducible apply sound_of_snd (by assumption)
    | with_reducible apply sound_on
    | with_reducible apply sound_getD
    | (with_reducible refine sound_mk ?_ rfl rfl rfl rfl rfl rfl rfl; first | with_reducible assumption | with_reducible apply State.onRun_sound | with_reducible apply sound_foldl | with_reducible apply sound_foldl_fst)
    | dsimp only
    | split

theorem State.abandon_sound {q : Base} : ∀ {s : State} a1 a2, Sound q s → Sound q (State.abandon s a1 a2) := by
  intros
  unfold State.abandon
  repeat' first
    | with_reducible assumption
    | with_reducible apply sound_foldl
    | with_reducible apply sound_foldl_fst
    | intro _
    | with_reducible apply sound_ite
    | with_reducible apply sound_of_fst (by assumption)
    | with_reducible apply sound_of_some (by assumption)
    | with_reducible apply sound_of_snd (by assumption)
    | with_reducible apply sound_on
    | with_reducible apply sound_getD
    | (with_reducible refine sound_mk ?_ rfl rfl rfl rfl rfl rfl rfl; first | with_reducible assumption | with_reducible apply sound_foldl | with_reducible apply sound_foldl_fst)
    | dsimp only
    | split

theorem State.encAbort_sound {q : Base} : ∀ {s : State} a1 a2, Sound q s → Sound q (State.encAbort s a1 a2) := by
  intros
  unfold State.encAbort
  repeat' first
    | with_reducible assumption
    | with_reducible apply State.putPart_sound
    | with_reducible apply sound_foldl
    | with_reducible apply sound_foldl_fst
    | intro _
    | with_reducible apply sound_ite
    | with_reducible apply sound_of_fst (by assumption)
    | with_reducible apply sound_of_some (by assumption)
    | with_reducible apply sound_of_snd (by assumption)
    | with_reducible apply sound_on
    | with_reducible apply sound_getD
    | (with_reducible refine sound_mk ?_ rfl rfl rfl rfl rfl rfl rfl; first | with_reducible assumption | with_reducible apply State.putPart_sound | with_reducible apply sound_foldl | with_reducible apply sound_foldl_fst)
    | dsimp only
    | split

theorem State.releaseCodec_sound {q : Base} : ∀ {s : State} a1 a2 a3, Sound q s → Sound q (State.releaseCodec s a1 a2 a3) := by
  intros
  unfold State.releaseCodec
  repeat' first
    | with_reducible assumption
    | with_reducible apply State.encAbort_sound
    | with_reducible apply State.putPart_sound
    | with_reducible apply sound_foldl
    | with_reducible apply sound_foldl_fst
    | intro _
    | with_reducible apply sound_ite
    | with_reducible apply sound_of_fst (by assumption)
    | with_reducible apply sound_of_some (by assumption)
    | with_reducible apply sound_of_snd (by assumption)
    | with_reducible apply sound_on
    | with_reducible apply sound_getD
    | (with_reducible refine sound_mk ?_ rfl rfl rfl rfl rfl rfl rfl; first | with_reducible assumption | with_reducible apply State.encAbort_sound | with_reducible apply State.putPart_sound | with_reducible apply sound_foldl | with_reducible apply sound_foldl_fst)
    | dsimp only
    | split

theorem State.fnPrune_sound {q : Base} : ∀ {s : State}, Sound q s → Sound q (State.fnPrune s) := by
  intros
  unfold State.fnPrune
  repeat' first
    | with_reducible assumption
    | with_reducible apply sound_foldl
    | with_reducible apply sound_foldl_fst
    | intro _
    | with_reducible apply sound_ite
    | with_reducible apply sound_of_fst (by assumption)
    | with_reducible apply sound_of_some (by assumption)
    | with_reducible apply sound_of_snd (by assumption)
    | with_reducible apply sound_on
    | with_reducible apply sound_getD
    | (with_reducible refine sound_mk ?_ rfl rfl rfl rfl rfl rfl rfl; first | with_reducible assumption | with_reducible apply sound_foldl | with_reducible apply sound_foldl_fst)
    | dsimp only
    | split

theorem State.fnLoadEnd_sound {q : Base} : ∀ {s : State}, Sound q s → Sound q (State.fnLoadEnd s) := by
  intros
  unfold State.fnLoadEnd
  repeat' first
    | with_reducible assumption
    | with_reducible apply State.setFlag_sound
    | with_reducible apply State.fnPrune_sound
    | with_reducible apply sound_foldl
    | with_reducible apply sound_foldl_fst
    | intro _
    | with_reducible apply sound_ite
    | with_reducible apply sound_of_fst (by assumption)
    | with_reducible apply sound_of_some (by assumption)
    | with_reducible apply sound_of_snd (by assumption)
    | with_reducible apply sound_on
    | with_reducible apply sound_getD
    | (with_reducible refine sound_mk ?_ rfl rfl rfl rfl rfl rfl rfl; first | with_reducible assumption | with_reducible apply State.setFlag_sound | with_reducible apply State.fnPrune_sound | with_reducible apply sound_foldl | with_reducible apply sound_foldl_fst)
    | dsimp only
    | split

theorem State.releaseFeed_sound {q : Base} : ∀ {s : State} a1 a2 a3, Sound q s → Sound q (State.releaseFeed s a1 a2 a3) := by
  intros
  unfold State.releaseFeed
  repeat' first
    | with_reducible assumption
    | with_reducible apply sound_foldl
    | with_reducible apply sound_foldl_fst
    | intro _
    | with_reducible apply sound_ite
    | with_reducible apply sound_of_fst (by assumption)
    | with_reducible apply sound_of_some (by assumption)
    | with_reducible apply sound_of_snd (by assumption)
    | with_reducible apply sound_on
    | with_reducible apply sound_getD
    | (with_reducible refine sound_mk ?_ rfl rfl rfl rfl rfl rfl rfl; first | with_reducible assumption | with_reducible apply sound_foldl | with_reducible apply sound_foldl_fst)
    | dsimp only
    | split

theorem State.noteHalf_sound {q : Base} : ∀ {s : State} a1 a2, Sound q s → Sound q (State.noteHalf s a1 a2) := by
  intros
  unfold State.noteHalf
  repeat' first
    | with_reducible assumption
    | with_reducible apply sound_foldl
    | with_reducible apply sound_foldl_fst
    | intro _
    | with_reducible apply sound_ite
    | with_reducible apply sound_of_fst (by assumption)
    | with_reducible apply sound_of_some (by assumption)
    | with_reducible apply sound_of_snd (by assumption)
    | with_reducible apply sound_on
    | with_reducible apply sound_getD
    | (with_reducible refine sound_mk ?_ rfl rfl rfl rfl rfl rfl rfl; first | with_reducible assumption | with_reducible apply sound_foldl | with_reducible apply sound_foldl_fst)
    | dsimp only
    | split

theorem State.leaveItem_sound {q : Base} : ∀ {s : State} a1 a2 a3, Sound q s → Sound q (State.leaveItem s a1 a2 a3) := by
  intros
  unfold State.leaveItem
  repeat' first
    | with_reducible assumption
    | with_reducible apply State.noteHalf_sound
    | with_reducible apply State.fnLoadEnd_sound
    | with_reducible apply sound_foldl
    | with_reducible apply sound_foldl_fst
    | intro _
    | with_reducible apply sound_ite
    | with_reducible apply sound_of_fst (by assumption)
    | with_reducible apply sound_of_some (by assumption)
    | with_reducible apply sound_of_snd (by assumption)
    | with_reducible apply sound_on
    | with_reducible apply sound_getD
    | (with_reducible refine sound_mk ?_ rfl rfl rfl rfl rfl rfl rfl; first | with_reducible assumption | with_reducible apply State.noteHalf_sound | with_reducible apply State.fnLoadEnd_sound | with_reducible apply sound_foldl | with_reducible apply sound_foldl_fst)
    | dsimp only
    | split

theorem State.endItem_sound {q : Base} : ∀ {s : State} a1 a2 a3 a4, Sound q s → Sound q (State.endItem s a1 a2 a3 a4) := by
  intros
  unfold State.endItem
  repeat' first
    | with_reducible assumption
    | with_reducible apply State.releaseCodec_sound
    | with_reducible apply State.leaveItem_sound
    | with_reducible apply State.onItem_sound
    | with_reducible apply State.releaseFeed_sound
    | with_reducible apply State.abandon_sound
    | with_reducible apply sound_foldl
    | with_reducible apply sound_foldl_fst
    | intro _
    | with_reducible apply sound_ite
    | with_reducible apply sound_of_fst (by assumption)
    | with_reducible apply sound_of_some (by assumption)
    | with_reducible apply sound_of_snd (by assumption)
    | with_reducible apply sound_on
    | with_reducible apply sound_getD
    | (with_reducible refine sound_mk ?_ rfl rfl rfl rfl rfl rfl rfl; first | with_reducible assumption | with_reducible apply State.releaseCodec_sound | with_reducible apply State.leaveItem_sound | with_reducible apply State.onItem_sound | with_reducible apply State.releaseFeed_sound | with_reducible apply State.abandon_sound | with_reducible apply sound_foldl | with_reducible apply sound_foldl_fst)
    | dsimp only
    | split

theorem State.noteCycles_sound {q : Base} : ∀ {s : State} a1 a2 a3, Sound q s → Sound q (State.noteCycles s a1 a2 a3) := by
  intros
  unfold State.noteCycles
  repeat' first
    | with_reducible assumption
    | with_reducible apply State.draw_sound
    | with_reducible apply State.onItem_sound
    | with_reducible apply sound_foldl
    | with_reducible apply sound_foldl_fst
    | intro _
    | with_reducible apply sound_ite
    | with_reducible apply sound_of_fst (by assumption)
    | with_reducible apply sound_of_some (by assumption)
    | with_reducible apply sound_of_snd (by assumption)
    | with_reducible apply sound_on
    | with_reducible apply sound_getD
    | (with_reducible refine sound_mk ?_ rfl rfl rfl rfl rfl rfl rfl; first | with_reducible assumption | with_reducible apply State.draw_sound | with_reducible apply State.onItem_sound | with_reducible apply sound_foldl | with_reducible apply sound_foldl_fst)
    | dsimp only
    | split

theorem State.endEarly_sound {q : Base} : ∀ {s : State} a1 a2 a3 a4, Sound q s → Sound q (State.endEarly s a1 a2 a3 a4) := by
  intros
  unfold State.endEarly
  repeat' first
    | with_reducible assumption
    | with_reducible apply State.endItem_sound
    | with_reducible apply State.noteCycles_sound
    | with_reducible apply sound_foldl
    | with_reducible apply sound_foldl_fst
    | intro _
    | with_reducible apply sound_ite
    | with_reducible apply sound_of_fst (by assumption)
    | with_reducible apply sound_of_some (by assumption)
    | with_reducible apply sound_of_snd (by assumption)
    | with_reducible apply sound_on
    | with_reducible apply sound_getD
    | (with_reducible refine sound_mk ?_ rfl rfl rfl rfl rfl rfl rfl; first | with_reducible assumption | with_reducible apply State.endItem_sound | with_reducible apply State.noteCycles_sound | with_reducible apply sound_foldl | with_reducible apply sound_foldl_fst)
    | dsimp only
    | split

theorem State.closeItem_sound {q : Base} : ∀ {s : State} a1 a2 a3 a4, Sound q s → Sound q (State.closeItem s a1 a2 a3 a4) := by
  intros
  unfold State.closeItem
  repeat' first
    | with_reducible assumption
    | with_reducible apply State.onItem_sound
    | with_reducible apply State.endItem_sound
    | with_reducible apply sound_foldl
    | with_reducible apply sound_foldl_fst
    | intro _
    | with_reducible apply sound_ite
    | with_reducible apply sound_of_fst (by assumption)
    | with_reducible apply sound_of_some (by assumption)
    | with_reducible apply sound_of_snd (by assumption)
    | with_reducible apply sound_on
    | with_reducible apply sound_getD
    | (with_reducible refine sound_mk ?_ rfl rfl rfl rfl rfl rfl rfl; first | with_reducible assumption | with_reducible apply State.onItem_sound | with_reducible apply State.endItem_sound | with_reducible apply sound_foldl | with_reducible apply sound_foldl_fst)
    | dsimp only
    | split

theorem stopWith_keeps {q : Base} : ∀ {a0 : Type} a1 a2, Keeps q (@stopWith a0 a1 a2) := by
  intros
  unfold stopWith
  repeat' first
    | with_reducible assumption
    | with_reducible exact keeps_pure
    | with_reducible exact keeps_throw
    | with_reducible exact keeps_read
    | with_reducible apply keeps_get_bind
    | with_reducible exact keeps_get
    | with_reducible apply keeps_bind
    | with_reducible apply keeps_set
    | with_reducible apply keeps_modify
    | with_reducible apply keeps_forM
    | with_reducible apply keeps_mapM
    | with_reducible apply keeps_foldlM
    | with_reducible apply keeps_forIn
    | with_reducible apply keeps_tryCatch
    | with_reducible apply keeps_map
    | with_reducible apply keeps_seq
    | with_reducible apply sound_foldl
    | with_reducible apply sound_foldl_fst
    | intro _
    | with_reducible apply keeps_ite
    | with_reducible apply sound_of_fst (by assumption)
    | with_reducible apply sound_of_some (by assumption)
    | with_reducible apply sound_of_snd (by assumption)
    | with_reducible apply sound_on
    | with_reducible apply sound_getD
    | (with_reducible refine sound_mk ?_ rfl rfl rfl rfl rfl rfl rfl; first | with_reducible assumption | with_reducible apply sound_foldl | with_reducible apply sound_foldl_fst)
    | dsimp only
    | split

theorem require_keeps {q : Base} : ∀ a0 a1 a2, Keeps q (require a0 a1 a2) := by
  intros
  unfold require
  repeat' first
    | with_reducible assumption
    | with_reducible exact keeps_pure
    | with_reducible exact keeps_throw
    | with_reducible exact keeps_read
    | with_reducible apply keeps_get_bind
    | with_reducible exact keeps_get
    | with_reducible apply keeps_bind
    | with_reducible apply keeps_set
    | with_reducible apply keeps_modify
    | with_reducible apply keeps_forM
    | with_reducible apply keeps_mapM
    | with_reducible apply keeps_foldlM
    | with_reducible apply keeps_forIn
    | with_reducible apply keeps_tryCatch
    | with_reducible apply keeps_map
    | with_reducible apply keeps_seq
    | with_reducible apply stopWith_keeps
    | with_reducible apply sound_foldl
    | with_reducible apply sound_foldl_fst
    | intro _
    | with_reducible apply keeps_ite
    | with_reducible apply sound_of_fst (by assumption)
    | with_reducible apply sound_of_some (by assumption)
    | with_reducible apply sound_of_snd (by assumption)
    | with_reducible apply sound_on
    | with_reducible apply sound_getD
    | (with_reducible refine sound_mk ?_ rfl rfl rfl rfl rfl rfl rfl; first | with_reducible assumption | with_reducible apply stopWith_keeps | with_reducible apply sound_foldl | with_reducible apply sound_foldl_fst)
    | dsimp only
    | split

theorem pay_keeps {q : Base} : ∀ a0 a1, Keeps q (pay a0 a1) := by
  intros
  unfold pay
  repeat' first
    | with_reducible assumption
    | with_reducible exact keeps_pure
    | with_reducible exact keeps_throw
    | with_reducible exact keeps_read
    | with_reducible apply keeps_get_bind
    | with_reducible exact keeps_get
    | with_reducible apply keeps_bind
    | with_reducible apply keeps_set
    | with_reducible apply keeps_modify
    | with_reducible apply keeps_forM
    | with_reducible apply keeps_mapM
    | with_reducible apply keeps_foldlM
    | with_reducible apply keeps_forIn
    | with_reducible apply keeps_tryCatch
    | with_reducible apply keeps_map
    | with_reducible apply keeps_seq
    | with_reducible apply sound_foldl
    | with_reducible apply sound_foldl_fst
    | intro _
    | with_reducible apply keeps_ite
    | with_reducible apply sound_of_fst (by assumption)
    | with_reducible apply sound_of_some (by assumption)
    | with_reducible apply sound_of_snd (by assumption)
    | with_reducible apply sound_on
    | with_reducible apply sound_getD
    | (with_reducible refine sound_mk ?_ rfl rfl rfl rfl rfl rfl rfl; first | with_reducible assumption | with_reducible apply sound_foldl | with_reducible apply sound_foldl_fst)
    | dsimp only
    | split

theorem payZero_keeps {q : Base} : ∀ a0 a1, Keeps q (payZero a0 a1) := by
  intros
  unfold payZero
  repeat' first
    | with_reducible assumption
    | with_reducible exact keeps_pure
    | with_reducible exact keeps_throw
    | with_reducible exact keeps_read
    | with_reducible apply keeps_get_bind
    | with_reducible exact keeps_get
    | with_reducible apply keeps_bind
    | with_reducible apply keeps_set
    | with_reducible apply keeps_modify
    | with_reducible apply keeps_forM
    | with_reducible apply keeps_mapM
    | with_reducible apply keeps_foldlM
    | with_reducible apply keeps_forIn
    | with_reducible apply keeps_tryCatch
    | with_reducible apply keeps_map
    | with_reducible apply keeps_seq
    | with_reducible apply require_keeps
    | with_reducible apply pay_keeps
    | with_reducible apply sound_foldl
    | with_reducible apply sound_foldl_fst
    | intro _
    | with_reducible apply keeps_ite
    | with_reducible apply sound_of_fst (by assumption)
    | with_reducible apply sound_of_some (by assumption)
    | with_reducible apply sound_of_snd (by assumption)
    | with_reducible apply sound_on
    | with_reducible apply sound_getD
    | (with_reducible refine sound_mk ?_ rfl rfl rfl rfl rfl rfl rfl; first | with_reducible assumption | with_reducible apply require_keeps | with_reducible apply pay_keeps | with_reducible apply sound_foldl | with_reducible apply sound_foldl_fst)
    | dsimp only
    | split

end Sys2Proof.Machine
end

