-- ==== Sys2Proof/Laws/KeepNet.lean ====
section
/-! SUPPORT. What the operations of `Machine/Net.lean` keep: the memories in canonical form and the queue. -/

set_option linter.unusedTactic false
set_option linter.unreachableTactic false

namespace Sys2Proof.Machine

theorem State.setPort_sound {q : Base} : ∀ {s : State} a1 a2, Sound q s → Sound q (State.setPort s a1 a2) := by
  intros
  unfold State.setPort
  repeat' first
    | with_reducible assumption
    | with_reducible apply sound_foldl
    | with_reducible apply sound_foldl_fst
    | intro _
    | with_reducible apply sound_ite
    | with_reducible apply sound_of_fst (by assumption)
    | with_reducible apply sound_of_some (by assumption)
    | with_reducible apply sound_of_snd (by assumption)
    | with_reducible apply sound_on
    | with_reducible apply sound_getD
    | (with_reducible refine sound_mk ?_ rfl rfl rfl rfl rfl rfl rfl; first | with_reducible assumption | with_reducible apply sound_foldl | with_reducible apply sound_foldl_fst)
    | dsimp only
    | split

theorem State.onPort_sound {q : Base} : ∀ {s : State} a1 a2, Sound q s → Sound q (State.onPort s a1 a2) := by
  intros
  unfold State.onPort
  repeat' first
    | with_reducible assumption
    | with_reducible apply State.setPort_sound
    | with_reducible apply sound_foldl
    | with_reducible apply sound_foldl_fst
    | intro _
    | with_reducible apply sound_ite
    | with_reducible apply sound_of_fst (by assumption)
    | with_reducible apply sound_of_some (by assumption)
    | with_reducible apply sound_of_snd (by assumption)
    | with_reducible apply sound_on
    | with_reducible apply sound_getD
    | (with_reducible refine sound_mk ?_ rfl rfl rfl rfl rfl rfl rfl; first | with_reducible assumption | with_reducible apply State.setPort_sound | with_reducible apply sound_foldl | with_reducible apply sound_foldl_fst)
    | dsimp only
    | split

theorem State.sendVia_sound {q : Base} : ∀ {s : State} a1 a2 a3, Sound q s → Sound q (State.sendVia s a1 a2 a3) := by
  intros
  unfold State.sendVia
  repeat' first
    | with_reducible assumption
    | with_reducible apply State.setPort_sound
    | with_reducible apply State.emit_sound
    | with_reducible apply sound_foldl
    | with_reducible apply sound_foldl_fst
    | intro _
    | with_reducible apply sound_ite
    | with_reducible apply sound_of_fst (by assumption)
    | with_reducible apply sound_of_some (by assumption)
    | with_reducible apply sound_of_snd (by assumption)
    | with_reducible apply sound_on
    | with_reducible apply sound_getD
    | (with_reducible refine sound_mk ?_ rfl rfl rfl rfl rfl rfl rfl; first | with_reducible assumption | with_reducible apply State.setPort_sound | with_reducible apply State.emit_sound | with_reducible apply sound_foldl | with_reducible apply sound_foldl_fst)
    | dsimp only
    | split

theorem State.sendOn_sound {q : Base} : ∀ {s : State} a1 a2, Sound q s → Sound q (State.sendOn s a1 a2) := by
  intros
  unfold State.sendOn
  repeat' first
    | with_reducible assumption
    | with_reducible apply State.sendVia_sound
    | with_reducible apply sound_foldl
    | with_reducible apply sound_foldl_fst
    | intro _
    | with_reducible apply sound_ite
    | with_reducible apply sound_of_fst (by assumption)
    | with_reducible apply sound_of_some (by assumption)
    | with_reducible apply sound_of_snd (by assumption)
    | with_reducible apply sound_on
    | with_reducible apply sound_getD
    | (with_reducible refine sound_mk ?_ rfl rfl rfl rfl rfl rfl rfl; first | with_reducible assumption | with_reducible apply State.sendVia_sound | with_reducible apply sound_foldl | with_reducible apply sound_foldl_fst)
    | dsimp only
    | split

theorem State.respond_sound {q : Base} : ∀ {s : State} a1 a2 a3 a4, Sound q s → Sound q (State.respond s a1 a2 a3 a4) := by
  intros
  unfold State.respond
  repeat' first
    | with_reducible assumption
    | with_reducible apply State.sendVia_sound
    | with_reducible apply sound_foldl
    | with_reducible apply sound_foldl_fst
    | intro _
    | with_reducible apply sound_ite
    | with_reducible apply sound_of_fst (by assumption)
    | with_reducible apply sound_of_some (by assumption)
    | with_reducible apply sound_of_snd (by assumption)
    | with_reducible apply sound_on
    | with_reducible apply sound_getD
    | (with_reducible refine sound_mk ?_ rfl rfl rfl rfl rfl rfl rfl; first | with_reducible assumption | with_reducible apply State.sendVia_sound | with_reducible apply sound_foldl | with_reducible apply sound_foldl_fst)
    | dsimp only
    | split

theorem State.promptNow_sound {q : Base} : ∀ {s : State} a1, Sound q s → Sound q (State.promptNow s a1) := by
  intros
  unfold State.promptNow
  repeat' first
    | with_reducible assumption
    | with_reducible apply State.sendOn_sound
    | with_reducible apply sound_foldl
    | with_reducible apply sound_foldl_fst
    | intro _
    | with_reducible apply sound_ite
    | with_reducible apply sound_of_fst (by assumption)
    | with_reducible apply sound_of_some (by assumption)
    | with_reducible apply sound_of_snd (by assumption)
    | with_reducible apply sound_on
    | with_reducible apply sound_getD
    | (with_reducible refine sound_mk ?_ rfl rfl rfl rfl rfl rfl rfl; first | with_reducible assumption | with_reducible apply State.sendOn_sound | with_reducible apply sound_foldl | with_reducible apply sound_foldl_fst)
    | dsimp only
    | split

theorem State.originate_sound {q : Base} : ∀ {s : State} a1, Sound q s → Sound q (State.originate s a1) := by
  intros
  unfold State.originate
  repeat' first
    | with_reducible assumption
    | with_reducible apply State.promptNow_sound
    | with_reducible apply sound_foldl
    | with_reducible apply sound_foldl_fst
    | intro _
    | with_reducible apply sound_ite
    | with_reducible apply sound_of_fst (by assumption)
    | with_reducible apply sound_of_some (by assumption)
    | with_reducible apply sound_of_snd (by assumption)
    | with_reducible apply sound_on
    | with_reducible apply sound_getD
    | (with_reducible refine sound_mk ?_ rfl rfl rfl rfl rfl rfl rfl; first | with_reducible assumption | with_reducible apply State.promptNow_sound | with_reducible apply sound_foldl | with_reducible apply sound_foldl_fst)
    | dsimp only
    | split

theorem State.noteFlood_sound {q : Base} : ∀ {s : State} a1, Sound q s → Sound q (State.noteFlood s a1) := by
  intros
  unfold State.noteFlood
  repeat' first
    | with_reducible assumption
    | with_reducible apply sound_foldl
    | with_reducible apply sound_foldl_fst
    | intro _
    | with_reducible apply sound_ite
    | with_reducible apply sound_of_fst (by assumption)
    | with_reducible apply sound_of_some (by assumption)
    | with_reducible apply sound_of_snd (by assumption)
    | with_reducible apply sound_on
    | with_reducible apply sound_getD
    | (with_reducible refine sound_mk ?_ rfl rfl rfl rfl rfl rfl rfl; first | with_reducible assumption | with_reducible apply sound_foldl | with_reducible apply sound_foldl_fst)
    | dsimp only
    | split

theorem State.sendRequest_sound {q : Base} : ∀ {s : State} a1 a2 a3 a4, Sound q s → SomeSound q (State.sendRequest s a1 a2 a3 a4) := by
  intros
  unfold State.sendRequest
  repeat' first
    | with_reducible assumption
    | with_reducible apply State.sendOn_sound
    | with_reducible apply sound_foldl
    | with_reducible apply sound_foldl_fst
    | intro _
    | with_reducible exact someSound_none
    | with_reducible apply someSound_some
    | with_reducible apply someSound_map
    | with_reducible apply someSound_map_of
    | with_reducible apply someSound_bind
    | with_reducible apply someSound_foldl
    | with_reducible apply sound_of_fst (by assumption)
    | with_reducible apply sound_of_some (by assumption)
    | with_reducible apply sound_of_snd (by assumption)
    | with_reducible apply sound_on
    | with_reducible apply sound_getD
    | (with_reducible refine sound_mk ?_ rfl rfl rfl rfl rfl rfl rfl; first | with_reducible assumption | with_reducible apply State.sendOn_sound | with_reducible apply sound_foldl | with_reducible apply sound_foldl_fst)
    | dsimp only
    | split

end Sys2Proof.Machine
end

