-- ==== Sys2Proof/Laws/KeepRecover.lean ====
section
/-! SUPPORT. What the operations of `Machine/Recover.lean` keep: the memories in canonical form and the queue. -/

set_option linter.unusedTactic false
set_option linter.unreachableTactic false

namespace Sys2Proof.Machine

theorem State.tick_sound {q : Base} : ∀ {s : State} a1, Sound q s → Sound q (State.tick s a1) := by
  intros
  unfold State.tick
  repeat' first
    | with_reducible assumption
    | with_reducible apply sound_foldl
    | with_reducible apply sound_foldl_fst
    | intro _
    | with_reducible apply sound_ite
    | with_reducible apply sound_of_fst (by assumption)
    | with_reducible apply sound_of_some (by assumption)
    | with_reducible apply sound_of_snd (by assumption)
    | with_reducible apply sound_on
    | with_reducible apply sound_getD
    | (with_reducible refine sound_mk ?_ rfl rfl rfl rfl rfl rfl rfl; first | with_reducible assumption | with_reducible apply sound_foldl | with_reducible apply sound_foldl_fst)
    | dsimp only
    | split

theorem State.smLater_sound {q : Base} : ∀ {s : State} a1, Sound q s → Sound q (State.smLater s a1) := by
  intros
  unfold State.smLater
  repeat' first
    | with_reducible assumption
    | with_reducible apply sound_foldl
    | with_reducible apply sound_foldl_fst
    | intro _
    | with_reducible apply sound_ite
    | with_reducible apply sound_of_fst (by assumption)
    | with_reducible apply sound_of_some (by assumption)
    | with_reducible apply sound_of_snd (by assumption)
    | with_reducible apply sound_on
    | with_reducible apply sound_getD
    | (with_reducible refine sound_mk ?_ rfl rfl rfl rfl rfl rfl rfl; first | with_reducible assumption | with_reducible apply sound_foldl | with_reducible apply sound_foldl_fst)
    | dsimp only
    | split

theorem State.cutItems_sound {q : Base} : ∀ {s : State} a1 a2 a3 a4, Sound q s → Sound q (State.cutItems s a1 a2 a3 a4) := by
  intros
  unfold State.cutItems
  repeat' first
    | with_reducible assumption
    | with_reducible apply State.endEarly_sound
    | with_reducible apply sound_foldl
    | with_reducible apply sound_foldl_fst
    | intro _
    | with_reducible apply sound_ite
    | with_reducible apply sound_of_fst (by assumption)
    | with_reducible apply sound_of_some (by assumption)
    | with_reducible apply sound_of_snd (by assumption)
    | with_reducible apply sound_on
    | with_reducible apply sound_getD
    | (with_reducible refine sound_mk ?_ rfl rfl rfl rfl rfl rfl rfl; first | with_reducible assumption | with_reducible apply State.endEarly_sound | with_reducible apply sound_foldl | with_reducible apply sound_foldl_fst)
    | dsimp only
    | split

theorem State.cutFetched_sound {q : Base} : ∀ {s : State} a1 a2, Sound q s → Sound q (State.cutFetched s a1 a2) := by
  intros
  unfold State.cutFetched
  repeat' first
    | with_reducible assumption
    | with_reducible apply sound_foldl
    | with_reducible apply sound_foldl_fst
    | intro _
    | with_reducible apply sound_ite
    | with_reducible apply sound_of_fst (by assumption)
    | with_reducible apply sound_of_some (by assumption)
    | with_reducible apply sound_of_snd (by assumption)
    | with_reducible apply sound_on
    | with_reducible apply sound_getD
    | (with_reducible refine sound_mk ?_ rfl rfl rfl rfl rfl rfl rfl; first | with_reducible assumption | with_reducible apply sound_foldl | with_reducible apply sound_foldl_fst)
    | dsimp only
    | split

theorem State.cancelUnstarted_sound {q : Base} : ∀ {s : State}, Sound q s → Sound q (State.cancelUnstarted s) := by
  intros
  unfold State.cancelUnstarted
  repeat' first
    | with_reducible assumption
    | with_reducible apply State.cutItems_sound
    | with_reducible apply State.cutFetched_sound
    | with_reducible apply sound_foldl
    | with_reducible apply sound_foldl_fst
    | intro _
    | with_reducible apply sound_ite
    | with_reducible apply sound_of_fst (by assumption)
    | with_reducible apply sound_of_some (by assumption)
    | with_reducible apply sound_of_snd (by assumption)
    | with_reducible apply sound_on
    | with_reducible apply sound_getD
    | (with_reducible refine sound_mk ?_ rfl rfl rfl rfl rfl rfl rfl; first | with_reducible assumption | with_reducible apply State.cutItems_sound | with_reducible apply State.cutFetched_sound | with_reducible apply sound_foldl | with_reducible apply sound_foldl_fst)
    | dsimp only
    | split

theorem State.stopFeeds_sound {q : Base} : ∀ {s : State} a1, Sound q s → Sound q (State.stopFeeds s a1) := by
  intros
  unfold State.stopFeeds
  repeat' first
    | with_reducible assumption
    | with_reducible apply State.endEarly_sound
    | with_reducible apply sound_foldl
    | with_reducible apply sound_foldl_fst
    | intro _
    | with_reducible apply sound_ite
    | with_reducible apply sound_of_fst (by assumption)
    | with_reducible apply sound_of_some (by assumption)
    | with_reducible apply sound_of_snd (by assumption)
    | with_reducible apply sound_on
    | with_reducible apply sound_getD
    | (with_reducible refine sound_mk ?_ rfl rfl rfl rfl rfl rfl rfl; first | with_reducible assumption | with_reducible apply State.endEarly_sound | with_reducible apply sound_foldl | with_reducible apply sound_foldl_fst)
    | dsimp only
    | split

theorem State.sendDetached_sound {q : Base} : ∀ {s : State}, Sound q s → Sound q (State.sendDetached s) := by
  intros
  unfold State.sendDetached
  repeat' first
    | with_reducible assumption
    | with_reducible apply State.originate_sound
    | with_reducible apply sound_foldl
    | with_reducible apply sound_foldl_fst
    | intro _
    | with_reducible apply sound_ite
    | with_reducible apply sound_of_fst (by assumption)
    | with_reducible apply sound_of_some (by assumption)
    | with_reducible apply sound_of_snd (by assumption)
    | with_reducible apply sound_on
    | with_reducible apply sound_getD
    | (with_reducible refine sound_mk ?_ rfl rfl rfl rfl rfl rfl rfl; first | with_reducible assumption | with_reducible apply State.originate_sound | with_reducible apply sound_foldl | with_reducible apply sound_foldl_fst)
    | dsimp only
    | split

theorem State.stopEmitting_sound {q : Base} : ∀ {s : State}, Sound q s → Sound q (State.stopEmitting s) := by
  intros
  unfold State.stopEmitting
  repeat' first
    | with_reducible assumption
    | with_reducible apply State.setFld_sound
    | with_reducible apply sound_foldl
    | with_reducible apply sound_foldl_fst
    | intro _
    | with_reducible apply sound_ite
    | with_reducible apply sound_of_fst (by assumption)
    | with_reducible apply sound_of_some (by assumption)
    | with_reducible apply sound_of_snd (by assumption)
    | with_reducible apply sound_on
    | with_reducible apply sound_getD
    | (with_reducible refine sound_mk ?_ rfl rfl rfl rfl rfl rfl rfl; first | with_reducible assumption | with_reducible apply State.setFld_sound | with_reducible apply sound_foldl | with_reducible apply sound_foldl_fst)
    | dsimp only
    | split

theorem State.histPost_sound {q : Base} : ∀ {s : State} a1, Sound q s → Sound q (State.histPost s a1) := by
  intros
  unfold State.histPost
  repeat' first
    | with_reducible assumption
    | with_reducible apply State.logPost_sound
    | with_reducible apply State.event_sound
    | with_reducible apply sound_foldl
    | with_reducible apply sound_foldl_fst
    | intro _
    | with_reducible apply sound_ite
    | with_reducible apply sound_of_fst (by assumption)
    | with_reducible apply sound_of_some (by assumption)
    | with_reducible apply sound_of_snd (by assumption)
    | with_reducible apply sound_on
    | with_reducible apply sound_getD
    | (with_reducible refine sound_mk ?_ rfl rfl rfl rfl rfl rfl rfl; first | with_reducible assumption | with_reducible apply State.logPost_sound | with_reducible apply State.event_sound | with_reducible apply sound_foldl | with_reducible apply sound_foldl_fst)
    | dsimp only
    | split

theorem State.record_sound {q : Base} : ∀ {s : State} a1, Sound q s → Sound q (State.record s a1) := by
  intro s a h
  unfold State.record
  apply State.histPost_sound
  exact ⟨h.queue, h.canon, h.counters, Nat.le_succ_of_le h.seq⟩

theorem State.enterCurtain_sound {q : Base} : ∀ {s : State} a1, Sound q s → Sound q (State.enterCurtain s a1) := by
  intros
  unfold State.enterCurtain
  repeat' first
    | with_reducible assumption
    | with_reducible apply State.setFlag_sound
    | with_reducible apply State.sendDetached_sound
    | with_reducible apply State.stopFeeds_sound
    | with_reducible apply State.setFld_sound
    | with_reducible apply State.record_sound
    | with_reducible apply State.cancelUnstarted_sound
    | with_reducible apply State.stopEmitting_sound
    | with_reducible apply sound_foldl
    | with_reducible apply sound_foldl_fst
    | intro _
    | with_reducible apply sound_ite
    | with_reducible apply sound_of_fst (by assumption)
    | with_reducible apply sound_of_some (by assumption)
    | with_reducible apply sound_of_snd (by assumption)
    | with_reducible apply sound_on
    | with_reducible apply sound_getD
    | (with_reducible refine sound_mk ?_ rfl rfl rfl rfl rfl rfl rfl; first | with_reducible assumption | with_reducible apply State.setFlag_sound | with_reducible apply State.sendDetached_sound | with_reducible apply State.stopFeeds_sound | with_reducible apply State.setFld_sound | with_reducible apply State.record_sound | with_reducible apply State.cancelUnstarted_sound | with_reducible apply State.stopEmitting_sound | with_reducible apply sound_foldl | with_reducible apply sound_foldl_fst)
    | dsimp only
    | split

theorem State.countEscalation_sound {q : Base} : ∀ {s : State} a1, Sound q s → Sound q (State.countEscalation s a1) := by
  intros
  unfold State.countEscalation
  repeat' first
    | with_reducible assumption
    | with_reducible apply State.enterCurtain_sound
    | with_reducible apply sound_foldl
    | with_reducible apply sound_foldl_fst
    | intro _
    | with_reducible apply sound_ite
    | with_reducible apply sound_of_fst (by assumption)
    | with_reducible apply sound_of_some (by assumption)
    | with_reducible apply sound_of_snd (by assumption)
    | with_reducible apply sound_on
    | with_reducible apply sound_getD
    | (with_reducible refine sound_mk ?_ rfl rfl rfl rfl rfl rfl rfl; first | with_reducible assumption | with_reducible apply State.enterCurtain_sound | with_reducible apply sound_foldl | with_reducible apply sound_foldl_fst)
    | dsimp only
    | split

theorem State.loseFeeds_sound {q : Base} : ∀ {s : State} a1, Sound q s → Sound q (State.loseFeeds s a1) := by
  intros
  unfold State.loseFeeds
  repeat' first
    | with_reducible assumption
    | with_reducible apply State.endEarly_sound
    | with_reducible apply sound_foldl
    | with_reducible apply sound_foldl_fst
    | intro _
    | with_reducible apply sound_ite
    | with_reducible apply sound_of_fst (by assumption)
    | with_reducible apply sound_of_some (by assumption)
    | with_reducible apply sound_of_snd (by assumption)
    | with_reducible apply sound_on
    | with_reducible apply sound_getD
    | (with_reducible refine sound_mk ?_ rfl rfl rfl rfl rfl rfl rfl; first | with_reducible assumption | with_reducible apply State.endEarly_sound | with_reducible apply sound_foldl | with_reducible apply sound_foldl_fst)
    | dsimp only
    | split

theorem State.startCoppice_sound {q : Base} : ∀ {s : State} a1 a2, Sound q s → Sound q (State.startCoppice s a1 a2) := by
  intros
  unfold State.startCoppice
  repeat' first
    | with_reducible assumption
    | with_reducible apply State.cutItems_sound
    | with_reducible apply State.setFld_sound
    | with_reducible apply State.countEscalation_sound
    | with_reducible apply State.record_sound
    | with_reducible apply State.loseFeeds_sound
    | with_reducible apply State.smLater_sound
    | with_reducible apply sound_foldl
    | with_reducible apply sound_foldl_fst
    | intro _
    | with_reducible apply sound_ite
    | with_reducible apply sound_of_fst (by assumption)
    | with_reducible apply sound_of_some (by assumption)
    | with_reducible apply sound_of_snd (by assumption)
    | with_reducible apply sound_on
    | with_reducible apply sound_getD
    | (with_reducible refine sound_mk ?_ rfl rfl rfl rfl rfl rfl rfl; first | with_reducible assumption | with_reducible apply State.cutItems_sound | with_reducible apply State.setFld_sound | with_reducible apply State.countEscalation_sound | with_reducible apply State.record_sound | with_reducible apply State.loseFeeds_sound | with_reducible apply State.smLater_sound | with_reducible apply sound_foldl | with_reducible apply sound_foldl_fst)
    | dsimp only
    | split

theorem State.planCoppice_sound {q : Base} : ∀ {s : State} a1, Sound q s → Sound q (State.planCoppice s a1) := by
  intros
  unfold State.planCoppice
  repeat' first
    | with_reducible assumption
    | with_reducible apply State.setFld_sound
    | with_reducible apply State.event_sound
    | with_reducible apply sound_foldl
    | with_reducible apply sound_foldl_fst
    | intro _
    | with_reducible apply sound_ite
    | with_reducible apply sound_of_fst (by assumption)
    | with_reducible apply sound_of_some (by assumption)
    | with_reducible apply sound_of_snd (by assumption)
    | with_reducible apply sound_on
    | with_reducible apply sound_getD
    | (with_reducible refine sound_mk ?_ rfl rfl rfl rfl rfl rfl rfl; first | with_reducible assumption | with_reducible apply State.setFld_sound | with_reducible apply State.event_sound | with_reducible apply sound_foldl | with_reducible apply sound_foldl_fst)
    | dsimp only
    | split

theorem State.setClass_sound {q : Base} : ∀ {s : State} a1, Sound q s → Sound q (State.setClass s a1) := by
  intros
  unfold State.setClass
  repeat' first
    | with_reducible assumption
    | with_reducible apply sound_foldl
    | with_reducible apply sound_foldl_fst
    | intro _
    | with_reducible apply sound_ite
    | with_reducible apply sound_of_fst (by assumption)
    | with_reducible apply sound_of_some (by assumption)
    | with_reducible apply sound_of_snd (by assumption)
    | with_reducible apply sound_on
    | with_reducible apply sound_getD
    | (with_reducible refine sound_mk ?_ rfl rfl rfl rfl rfl rfl rfl; first | with_reducible assumption | with_reducible apply sound_foldl | with_reducible apply sound_foldl_fst)
    | dsimp only
    | split

theorem State.confirmed_sound {q : Base} : ∀ {s : State} a1, Sound q s → Sound q (State.confirmed s a1) := by
  intros
  unfold State.confirmed
  repeat' first
    | with_reducible assumption
    | with_reducible apply State.setFld_sound
    | with_reducible apply State.planCoppice_sound
    | with_reducible apply State.enterCurtain_sound
    | with_reducible apply sound_foldl
    | with_reducible apply sound_foldl_fst
    | intro _
    | with_reducible apply sound_ite
    | with_reducible apply sound_of_fst (by assumption)
    | with_reducible apply sound_of_some (by assumption)
    | with_reducible apply sound_of_snd (by assumption)
    | with_reducible apply sound_on
    | with_reducible apply sound_getD
    | (with_reducible refine sound_mk ?_ rfl rfl rfl rfl rfl rfl rfl; first | with_reducible assumption | with_reducible apply State.setFld_sound | with_reducible apply State.planCoppice_sound | with_reducible apply State.enterCurtain_sound | with_reducible apply sound_foldl | with_reducible apply sound_foldl_fst)
    | dsimp only
    | split

theorem State.confirm_sound {q : Base} : ∀ {s : State} a1 a2 a3 a4, Sound q s → Sound q (State.confirm s a1 a2 a3 a4) := by
  intros
  unfold State.confirm
  repeat' first
    | with_reducible assumption
    | with_reducible apply State.record_sound
    | with_reducible apply State.confirmed_sound
    | with_reducible apply State.setClass_sound
    | with_reducible apply sound_foldl
    | with_reducible apply sound_foldl_fst
    | intro _
    | with_reducible apply sound_ite
    | with_reducible apply sound_of_fst (by assumption)
    | with_reducible apply sound_of_some (by assumption)
    | with_reducible apply sound_of_snd (by assumption)
    | with_reducible apply sound_on
    | with_reducible apply sound_getD
    | (with_reducible refine sound_mk ?_ rfl rfl rfl rfl rfl rfl rfl; first | with_reducible assumption | with_reducible apply State.record_sound | with_reducible apply State.confirmed_sound | with_reducible apply State.setClass_sound | with_reducible apply sound_foldl | with_reducible apply sound_foldl_fst)
    | dsimp only
    | split

theorem State.suspect_sound {q : Base} : ∀ {s : State} a1 a2 a3, Sound q s → Sound q (State.suspect s a1 a2 a3) := by
  intros
  unfold State.suspect
  repeat' first
    | with_reducible assumption
    | with_reducible apply State.setFld_sound
    | with_reducible apply State.record_sound
    | with_reducible apply State.confirm_sound
    | with_reducible apply State.setClass_sound
    | with_reducible apply sound_foldl
    | with_reducible apply sound_foldl_fst
    | intro _
    | with_reducible apply sound_ite
    | with_reducible apply sound_of_fst (by assumption)
    | with_reducible apply sound_of_some (by assumption)
    | with_reducible apply sound_of_snd (by assumption)
    | with_reducible apply sound_on
    | with_reducible apply sound_getD
    | (with_reducible refine sound_mk ?_ rfl rfl rfl rfl rfl rfl rfl; first | with_reducible assumption | with_reducible apply State.setFld_sound | with_reducible apply State.record_sound | with_reducible apply State.confirm_sound | with_reducible apply State.setClass_sound | with_reducible apply sound_foldl | with_reducible apply sound_foldl_fst)
    | dsimp only
    | split

theorem State.transient_sound {q : Base} : ∀ {s : State} a1 a2 a3, Sound q s → Sound q (State.transient s a1 a2 a3) := by
  intros
  unfold State.transient
  repeat' first
    | with_reducible assumption
    | with_reducible apply State.bump_sound
    | with_reducible apply State.histPost_sound
    | with_reducible apply sound_foldl
    | with_reducible apply sound_foldl_fst
    | intro _
    | with_reducible apply sound_ite
    | with_reducible apply sound_of_fst (by assumption)
    | with_reducible apply sound_of_some (by assumption)
    | with_reducible apply sound_of_snd (by assumption)
    | with_reducible apply sound_on
    | with_reducible apply sound_getD
    | (with_reducible refine sound_mk ?_ rfl rfl rfl rfl rfl rfl rfl; first | with_reducible assumption | with_reducible apply State.bump_sound | with_reducible apply State.histPost_sound | with_reducible apply sound_foldl | with_reducible apply sound_foldl_fst)
    | dsimp only
    | split

theorem State.countRecent_sound {q : Base} : ∀ {s : State} a1, Sound q s → Sound q (State.countRecent s a1).1 := by
  intros
  unfold State.countRecent
  repeat' first
    | with_reducible assumption
    | with_reducible apply sound_foldl
    | with_reducible apply sound_foldl_fst
    | intro _
    | with_reducible apply sound_ite_fst
    | with_reducible apply sound_of_fst (by assumption)
    | with_reducible apply sound_of_some (by assumption)
    | with_reducible apply sound_of_snd (by assumption)
    | with_reducible apply sound_on
    | with_reducible apply sound_getD
    | (with_reducible refine sound_mk ?_ rfl rfl rfl rfl rfl rfl rfl; first | with_reducible assumption | with_reducible apply sound_foldl | with_reducible apply sound_foldl_fst)
    | dsimp only
    | split

theorem State.openRead_sound {q : Base} : ∀ {s : State} a1 a2, Sound q s → Sound q (State.openRead s a1 a2) := by
  intros
  unfold State.openRead
  repeat' first
    | with_reducible assumption
    | with_reducible apply State.suspect_sound
    | with_reducible apply sound_foldl
    | with_reducible apply sound_foldl_fst
    | intro _
    | with_reducible apply sound_ite
    | with_reducible apply sound_of_fst (by assumption)
    | with_reducible apply sound_of_some (by assumption)
    | with_reducible apply sound_of_snd (by assumption)
    | with_reducible apply sound_on
    | with_reducible apply sound_getD
    | (with_reducible refine sound_mk ?_ rfl rfl rfl rfl rfl rfl rfl; first | with_reducible assumption | with_reducible apply State.suspect_sound | with_reducible apply sound_foldl | with_reducible apply sound_foldl_fst)
    | dsimp only
    | split

theorem State.badPackageRow_sound {q : Base} : ∀ {s : State} a1, Sound q s → Sound q (State.badPackageRow s a1) := by
  intros
  unfold State.badPackageRow
  repeat' first
    | with_reducible assumption
    | with_reducible apply State.confirm_sound
    | with_reducible apply sound_foldl
    | with_reducible apply sound_foldl_fst
    | intro _
    | with_reducible apply sound_ite
    | with_reducible apply sound_of_fst (by assumption)
    | with_reducible apply sound_of_some (by assumption)
    | with_reducible apply sound_of_snd (by assumption)
    | with_reducible apply sound_on
    | with_reducible apply sound_getD
    | (with_reducible refine sound_mk ?_ rfl rfl rfl rfl rfl rfl rfl; first | with_reducible assumption | with_reducible apply State.confirm_sound | with_reducible apply sound_foldl | with_reducible apply sound_foldl_fst)
    | dsimp only
    | split

theorem State.badDevRead_sound {q : Base} : ∀ {s : State} a1 a2, Sound q s → Sound q (State.badDevRead s a1 a2) := by
  intros
  unfold State.badDevRead
  repeat' first
    | with_reducible assumption
    | with_reducible apply State.openRead_sound
    | with_reducible apply State.memErr_sound
    | with_reducible apply State.badPackageRow_sound
    | with_reducible apply sound_foldl
    | with_reducible apply sound_foldl_fst
    | intro _
    | with_reducible apply sound_ite
    | with_reducible apply sound_of_fst (by assumption)
    | with_reducible apply sound_of_some (by assumption)
    | with_reducible apply sound_of_snd (by assumption)
    | with_reducible apply sound_on
    | with_reducible apply sound_getD
    | (with_reducible refine sound_mk ?_ rfl rfl rfl rfl rfl rfl rfl; first | with_reducible assumption | with_reducible apply State.openRead_sound | with_reducible apply State.memErr_sound | with_reducible apply State.badPackageRow_sound | with_reducible apply sound_foldl | with_reducible apply sound_foldl_fst)
    | dsimp only
    | split

theorem State.badSramRead_sound {q : Base} : ∀ {s : State} a1 a2, Sound q s → Sound q (State.badSramRead s a1 a2) := by
  intros
  unfold State.badSramRead
  repeat' first
    | with_reducible assumption
    | with_reducible apply State.openRead_sound
    | with_reducible apply State.memErr_sound
    | with_reducible apply sound_foldl
    | with_reducible apply sound_foldl_fst
    | intro _
    | with_reducible apply sound_ite
    | with_reducible apply sound_of_fst (by assumption)
    | with_reducible apply sound_of_some (by assumption)
    | with_reducible apply sound_of_snd (by assumption)
    | with_reducible apply sound_on
    | with_reducible apply sound_getD
    | (with_reducible refine sound_mk ?_ rfl rfl rfl rfl rfl rfl rfl; first | with_reducible assumption | with_reducible apply State.openRead_sound | with_reducible apply State.memErr_sound | with_reducible apply sound_foldl | with_reducible apply sound_foldl_fst)
    | dsimp only
    | split

theorem State.countCorrected_sound {q : Base} : ∀ {s : State} a1 a2, Sound q s → Sound q (State.countCorrected s a1 a2) := by
  intros
  unfold State.countCorrected
  repeat' first
    | with_reducible assumption
    | with_reducible apply State.suspect_sound
    | with_reducible apply sound_foldl
    | with_reducible apply sound_foldl_fst
    | intro _
    | with_reducible apply sound_ite
    | with_reducible apply sound_of_fst (by assumption)
    | with_reducible apply sound_of_some (by assumption)
    | with_reducible apply sound_of_snd (by assumption)
    | with_reducible apply sound_on
    | with_reducible apply sound_getD
    | (with_reducible refine sound_mk ?_ rfl rfl rfl rfl rfl rfl rfl; first | with_reducible assumption | with_reducible apply State.suspect_sound | with_reducible apply sound_foldl | with_reducible apply sound_foldl_fst)
    | dsimp only
    | split

theorem State.memCorrected_sound {q : Base} : ∀ {s : State} a1 a2 a3 a4, Sound q s → Sound q (State.memCorrected s a1 a2 a3 a4) := by
  intros
  unfold State.memCorrected
  repeat' first
    | with_reducible assumption
    | with_reducible apply State.countCorrected_sound
    | with_reducible apply State.memErr_sound
    | with_reducible apply sound_foldl
    | with_reducible apply sound_foldl_fst
    | intro _
    | with_reducible apply sound_ite
    | with_reducible apply sound_of_fst (by assumption)
    | with_reducible apply sound_of_some (by assumption)
    | with_reducible apply sound_of_snd (by assumption)
    | with_reducible apply sound_on
    | with_reducible apply sound_getD
    | (with_reducible refine sound_mk ?_ rfl rfl rfl rfl rfl rfl rfl; first | with_reducible assumption | with_reducible apply State.countCorrected_sound | with_reducible apply State.memErr_sound | with_reducible apply sound_foldl | with_reducible apply sound_foldl_fst)
    | dsimp only
    | split

theorem State.memNoted_sound {q : Base} : ∀ {s : State} a1 a2 a3 a4, Sound q s → Sound q (State.memNoted s a1 a2 a3 a4) := by
  intros
  unfold State.memNoted
  repeat' first
    | with_reducible assumption
    | with_reducible apply State.memErr_sound
    | with_reducible apply sound_foldl
    | with_reducible apply sound_foldl_fst
    | intro _
    | with_reducible apply sound_ite
    | with_reducible apply sound_of_fst (by assumption)
    | with_reducible apply sound_of_some (by assumption)
    | with_reducible apply sound_of_snd (by assumption)
    | with_reducible apply sound_on
    | with_reducible apply sound_getD
    | (with_reducible refine sound_mk ?_ rfl rfl rfl rfl rfl rfl rfl; first | with_reducible assumption | with_reducible apply State.memErr_sound | with_reducible apply sound_foldl | with_reducible apply sound_foldl_fst)
    | dsimp only
    | split

theorem State.noSpare_sound {q : Base} : ∀ {s : State} a1 a2 a3 a4 a5, Sound q s → Sound q (State.noSpare s a1 a2 a3 a4 a5) := by
  intros
  unfold State.noSpare
  repeat' first
    | with_reducible assumption
    | with_reducible apply State.memErr_sound
    | with_reducible apply State.confirm_sound
    | with_reducible apply sound_foldl
    | with_reducible apply sound_foldl_fst
    | intro _
    | with_reducible apply sound_ite
    | with_reducible apply sound_of_fst (by assumption)
    | with_reducible apply sound_of_some (by assumption)
    | with_reducible apply sound_of_snd (by assumption)
    | with_reducible apply sound_on
    | with_reducible apply sound_getD
    | (with_reducible refine sound_mk ?_ rfl rfl rfl rfl rfl rfl rfl; first | with_reducible assumption | with_reducible apply State.memErr_sound | with_reducible apply State.confirm_sound | with_reducible apply sound_foldl | with_reducible apply sound_foldl_fst)
    | dsimp only
    | split

theorem State.laneFail_sound {q : Base} : ∀ {s : State} a1 a2 a3 a4 a5, Sound q s → Sound q (State.laneFail s a1 a2 a3 a4 a5) := by
  intros
  unfold State.laneFail
  repeat' first
    | with_reducible assumption
    | with_reducible apply State.memErr_sound
    | with_reducible apply State.noSpare_sound
    | with_reducible apply sound_foldl
    | with_reducible apply sound_foldl_fst
    | intro _
    | with_reducible apply sound_ite
    | with_reducible apply sound_of_fst (by assumption)
    | with_reducible apply sound_of_some (by assumption)
    | with_reducible apply sound_of_snd (by assumption)
    | with_reducible apply sound_on
    | with_reducible apply sound_getD
    | (with_reducible refine sound_mk ?_ rfl rfl rfl rfl rfl rfl rfl; first | with_reducible assumption | with_reducible apply State.memErr_sound | with_reducible apply State.noSpare_sound | with_reducible apply sound_foldl | with_reducible apply sound_foldl_fst)
    | dsimp only
    | split

theorem State.meetWord_sound {q : Base} : ∀ {s : State} a1 a2 a3 a4, Sound q s → Sound q (State.meetWord s a1 a2 a3 a4) := by
  intros
  unfold State.meetWord
  repeat' first
    | with_reducible assumption
    | with_reducible apply State.memCorrected_sound
    | with_reducible apply State.laneFail_sound
    | with_reducible apply sound_foldl
    | with_reducible apply sound_foldl_fst
    | intro _
    | with_reducible apply sound_ite
    | with_reducible apply sound_of_fst (by assumption)
    | with_reducible apply sound_of_some (by assumption)
    | with_reducible apply sound_of_snd (by assumption)
    | with_reducible apply sound_on
    | with_reducible apply sound_getD
    | (with_reducible refine sound_mk ?_ rfl rfl rfl rfl rfl rfl rfl; first | with_reducible assumption | with_reducible apply State.memCorrected_sound | with_reducible apply State.laneFail_sound | with_reducible apply sound_foldl | with_reducible apply sound_foldl_fst)
    | dsimp only
    | split

theorem State.meetCells_sound {q : Base} : ∀ {s : State} a1 a2 a3, Sound q s → Sound q (State.meetCells s a1 a2 a3) := by
  intros
  unfold State.meetCells
  repeat' first
    | with_reducible assumption
    | with_reducible apply State.meetWord_sound
    | with_reducible apply sound_foldl
    | with_reducible apply sound_foldl_fst
    | intro _
    | with_reducible apply sound_ite
    | with_reducible apply sound_of_fst (by assumption)
    | with_reducible apply sound_of_some (by assumption)
    | with_reducible apply sound_of_snd (by assumption)
    | with_reducible apply sound_on
    | with_reducible apply sound_getD
    | (with_reducible refine sound_mk ?_ rfl rfl rfl rfl rfl rfl rfl; first | with_reducible assumption | with_reducible apply State.meetWord_sound | with_reducible apply sound_foldl | with_reducible apply sound_foldl_fst)
    | dsimp only
    | split

theorem State.readMem_sound {q : Base} : ∀ {s : State} a1 a2 a3, Sound q s → Sound q (State.readMem s a1 a2 a3).1 := by
  intros
  unfold State.readMem
  repeat' first
    | with_reducible assumption
    | with_reducible apply State.badDevRead_sound
    | with_reducible apply State.meetCells_sound
    | with_reducible apply sound_foldl
    | with_reducible apply sound_foldl_fst
    | intro _
    | with_reducible apply sound_ite_fst
    | with_reducible apply sound_of_fst (by assumption)
    | with_reducible apply sound_of_some (by assumption)
    | with_reducible apply sound_of_snd (by assumption)
    | with_reducible apply sound_on
    | with_reducible apply sound_getD
    | (with_reducible refine sound_mk ?_ rfl rfl rfl rfl rfl rfl rfl; first | with_reducible assumption | with_reducible apply State.badDevRead_sound | with_reducible apply State.meetCells_sound | with_reducible apply sound_foldl | with_reducible apply sound_foldl_fst)
    | dsimp only
    | split

theorem State.meetSram_sound {q : Base} : ∀ {s : State} a1 a2 a3, Sound q s → Sound q (State.meetSram s a1 a2 a3) := by
  intros
  unfold State.meetSram
  repeat' first
    | with_reducible assumption
    | with_reducible apply State.memCorrected_sound
    | with_reducible apply State.memNoted_sound
    | with_reducible apply sound_foldl
    | with_reducible apply sound_foldl_fst
    | intro _
    | with_reducible apply sound_ite
    | with_reducible apply sound_of_fst (by assumption)
    | with_reducible apply sound_of_some (by assumption)
    | with_reducible apply sound_of_snd (by assumption)
    | with_reducible apply sound_on
    | with_reducible apply sound_getD
    | (with_reducible refine sound_mk ?_ rfl rfl rfl rfl rfl rfl rfl; first | with_reducible assumption | with_reducible apply State.memCorrected_sound | with_reducible apply State.memNoted_sound | with_reducible apply sound_foldl | with_reducible apply sound_foldl_fst)
    | dsimp only
    | split

theorem State.readSram_sound {q : Base} : ∀ {s : State} a1 a2 a3, Sound q s → Sound q (State.readSram s a1 a2 a3).1 := by
  intros
  unfold State.readSram
  repeat' first
    | with_reducible assumption
    | with_reducible apply State.badSramRead_sound
    | with_reducible apply State.meetSram_sound
    | with_reducible apply sound_foldl
    | with_reducible apply sound_foldl_fst
    | intro _
    | with_reducible apply sound_ite_fst
    | with_reducible apply sound_of_fst (by assumption)
    | with_reducible apply sound_of_some (by assumption)
    | with_reducible apply sound_of_snd (by assumption)
    | with_reducible apply sound_on
    | with_reducible apply sound_getD
    | (with_reducible refine sound_mk ?_ rfl rfl rfl rfl rfl rfl rfl; first | with_reducible assumption | with_reducible apply State.badSramRead_sound | with_reducible apply State.meetSram_sound | with_reducible apply sound_foldl | with_reducible apply sound_foldl_fst)
    | dsimp only
    | split

theorem State.wakeDimmed_sound {q : Base} : ∀ {s : State}, Sound q s → Sound q (State.wakeDimmed s) := by
  intros
  unfold State.wakeDimmed
  repeat' first
    | with_reducible assumption
    | with_reducible apply State.setFld_sound
    | with_reducible apply sound_foldl
    | with_reducible apply sound_foldl_fst
    | intro _
    | with_reducible apply sound_ite
    | with_reducible apply sound_of_fst (by assumption)
    | with_reducible apply sound_of_some (by assumption)
    | with_reducible apply sound_of_snd (by assumption)
    | with_reducible apply sound_on
    | with_reducible apply sound_getD
    | (with_reducible refine sound_mk ?_ rfl rfl rfl rfl rfl rfl rfl; first | with_reducible assumption | with_reducible apply State.setFld_sound | with_reducible apply sound_foldl | with_reducible apply sound_foldl_fst)
    | dsimp only
    | split

end Sys2Proof.Machine
end

