-- ==== Sys2Proof/Laws/KeepItems.lean ====
section
/-! SUPPORT. What the operations of `Machine/Items.lean` keep: the memories in canonical form and the queue. -/

set_option linter.unusedTactic false
set_option linter.unreachableTactic false

namespace Sys2Proof.Machine

theorem remoteOk_keeps {q : Base} : ∀ a0 a1 a2, Keeps q (remoteOk a0 a1 a2) := by
  intros
  unfold remoteOk
  repeat' first
    | with_reducible assumption
    | with_reducible exact keeps_pure
    | with_reducible exact keeps_throw
    | with_reducible exact keeps_read
    | with_reducible apply keeps_get_bind
    | with_reducible exact keeps_get
    | with_reducible apply keeps_bind
    | with_reducible apply keeps_set
    | with_reducible apply keeps_modify
    | with_reducible apply keeps_forM
    | with_reducible apply keeps_mapM
    | with_reducible apply keeps_foldlM
    | with_reducible apply keeps_forIn
    | with_reducible apply keeps_tryCatch
    | with_reducible apply keeps_map
    | with_reducible apply keeps_seq
    | with_reducible apply require_keeps
    | with_reducible apply sound_foldl
    | with_reducible apply sound_foldl_fst
    | intro _
    | with_reducible apply keeps_ite
    | with_reducible apply sound_of_fst (by assumption)
    | with_reducible apply sound_of_some (by assumption)
    | with_reducible apply sound_of_snd (by assumption)
    | with_reducible apply sound_on
    | with_reducible apply sound_getD
    | (with_reducible refine sound_mk ?_ rfl rfl rfl rfl rfl rfl rfl; first | with_reducible assumption | with_reducible apply require_keeps | with_reducible apply sound_foldl | with_reducible apply sound_foldl_fst)
    | dsimp only
    | split

theorem checkRead_keeps {q : Base} : ∀ a0 a1, Keeps q (checkRead a0 a1) := by
  intros
  unfold checkRead
  repeat' first
    | with_reducible assumption
    | with_reducible exact keeps_pure
    | with_reducible exact keeps_throw
    | with_reducible exact keeps_read
    | with_reducible apply keeps_get_bind
    | with_reducible exact keeps_get
    | with_reducible apply keeps_bind
    | with_reducible apply keeps_set
    | with_reducible apply keeps_modify
    | with_reducible apply keeps_forM
    | with_reducible apply keeps_mapM
    | with_reducible apply keeps_foldlM
    | with_reducible apply keeps_forIn
    | with_reducible apply keeps_tryCatch
    | with_reducible apply keeps_map
    | with_reducible apply keeps_seq
    | with_reducible apply require_keeps
    | with_reducible apply remoteOk_keeps
    | with_reducible apply sound_foldl
    | with_reducible apply sound_foldl_fst
    | intro _
    | with_reducible apply keeps_ite
    | with_reducible apply sound_of_fst (by assumption)
    | with_reducible apply sound_of_some (by assumption)
    | with_reducible apply sound_of_snd (by assumption)
    | with_reducible apply sound_on
    | with_reducible apply sound_getD
    | (with_reducible refine sound_mk ?_ rfl rfl rfl rfl rfl rfl rfl; first | with_reducible assumption | with_reducible apply require_keeps | with_reducible apply remoteOk_keeps | with_reducible apply sound_foldl | with_reducible apply sound_foldl_fst)
    | dsimp only
    | split

theorem checkWrite_keeps {q : Base} : ∀ a0 a1, Keeps q (checkWrite a0 a1) := by
  intros
  unfold checkWrite
  repeat' first
    | with_reducible assumption
    | with_reducible exact keeps_pure
    | with_reducible exact keeps_throw
    | with_reducible exact keeps_read
    | with_reducible apply keeps_get_bind
    | with_reducible exact keeps_get
    | with_reducible apply keeps_bind
    | with_reducible apply keeps_set
    | with_reducible apply keeps_modify
    | with_reducible apply keeps_forM
    | with_reducible apply keeps_mapM
    | with_reducible apply keeps_foldlM
    | with_reducible apply keeps_forIn
    | with_reducible apply keeps_tryCatch
    | with_reducible apply keeps_map
    | with_reducible apply keeps_seq
    | with_reducible apply require_keeps
    | with_reducible apply remoteOk_keeps
    | with_reducible apply sound_foldl
    | with_reducible apply sound_foldl_fst
    | intro _
    | with_reducible apply keeps_ite
    | with_reducible apply sound_of_fst (by assumption)
    | with_reducible apply sound_of_some (by assumption)
    | with_reducible apply sound_of_snd (by assumption)
    | with_reducible apply sound_on
    | with_reducible apply sound_getD
    | (with_reducible refine sound_mk ?_ rfl rfl rfl rfl rfl rfl rfl; first | with_reducible assumption | with_reducible apply require_keeps | with_reducible apply remoteOk_keeps | with_reducible apply sound_foldl | with_reducible apply sound_foldl_fst)
    | dsimp only
    | split

theorem readDev_keeps {q : Base} : ∀ a0 a1, Keeps q (readDev a0 a1) := by
  intros
  unfold readDev
  repeat' first
    | with_reducible assumption
    | with_reducible exact keeps_pure
    | with_reducible exact keeps_throw
    | with_reducible exact keeps_read
    | with_reducible apply keeps_get_bind
    | with_reducible exact keeps_get
    | with_reducible apply keeps_bind
    | with_reducible apply keeps_set
    | with_reducible apply keeps_modify
    | with_reducible apply keeps_forM
    | with_reducible apply keeps_mapM
    | with_reducible apply keeps_foldlM
    | with_reducible apply keeps_forIn
    | with_reducible apply keeps_tryCatch
    | with_reducible apply keeps_map
    | with_reducible apply keeps_seq
    | with_reducible apply stopWith_keeps
    | with_reducible apply require_keeps
    | with_reducible apply State.readMem_sound
    | with_reducible apply sound_foldl
    | with_reducible apply sound_foldl_fst
    | intro _
    | with_reducible apply keeps_ite
    | with_reducible apply sound_of_fst (by assumption)
    | with_reducible apply sound_of_some (by assumption)
    | with_reducible apply sound_of_snd (by assumption)
    | with_reducible apply sound_on
    | with_reducible apply sound_getD
    | (with_reducible refine sound_mk ?_ rfl rfl rfl rfl rfl rfl rfl; first | with_reducible assumption | with_reducible apply stopWith_keeps | with_reducible apply require_keeps | with_reducible apply State.readMem_sound | with_reducible apply sound_foldl | with_reducible apply sound_foldl_fst)
    | dsimp only
    | split

theorem writeDev_keeps {q : Base} : ∀ a0 a1, Keeps q (writeDev a0 a1) := by
  intros
  unfold writeDev
  repeat' first
    | with_reducible assumption
    | with_reducible exact keeps_pure
    | with_reducible exact keeps_throw
    | with_reducible exact keeps_read
    | with_reducible apply keeps_get_bind
    | with_reducible exact keeps_get
    | with_reducible apply keeps_bind
    | with_reducible apply keeps_set
    | with_reducible apply keeps_modify
    | with_reducible apply keeps_forM
    | with_reducible apply keeps_mapM
    | with_reducible apply keeps_foldlM
    | with_reducible apply keeps_forIn
    | with_reducible apply keeps_tryCatch
    | with_reducible apply keeps_map
    | with_reducible apply keeps_seq
    | with_reducible apply State.partRefused_sound
    | with_reducible apply stopWith_keeps
    | with_reducible apply require_keeps
    | with_reducible apply State.devWrite_sound
    | with_reducible apply sound_foldl
    | with_reducible apply sound_foldl_fst
    | intro _
    | with_reducible apply keeps_ite
    | with_reducible apply sound_of_fst (by assumption)
    | with_reducible apply sound_of_some (by assumption)
    | with_reducible apply sound_of_snd (by assumption)
    | with_reducible apply sound_on
    | with_reducible apply sound_getD
    | (with_reducible refine sound_mk ?_ rfl rfl rfl rfl rfl rfl rfl; first | with_reducible assumption | with_reducible apply State.partRefused_sound | with_reducible apply stopWith_keeps | with_reducible apply require_keeps | with_reducible apply State.devWrite_sound | with_reducible apply sound_foldl | with_reducible apply sound_foldl_fst)
    | dsimp only
    | split

theorem theItem_keeps {q : Base} : Keeps q theItem := by
  intros
  unfold theItem
  repeat' first
    | with_reducible assumption
    | with_reducible exact keeps_pure
    | with_reducible exact keeps_throw
    | with_reducible exact keeps_read
    | with_reducible apply keeps_get_bind
    | with_reducible exact keeps_get
    | with_reducible apply keeps_bind
    | with_reducible apply keeps_set
    | with_reducible apply keeps_modify
    | with_reducible apply keeps_forM
    | with_reducible apply keeps_mapM
    | with_reducible apply keeps_foldlM
    | with_reducible apply keeps_forIn
    | with_reducible apply keeps_tryCatch
    | with_reducible apply keeps_map
    | with_reducible apply keeps_seq
    | with_reducible apply sound_foldl
    | with_reducible apply sound_foldl_fst
    | intro _
    | with_reducible apply keeps_ite
    | with_reducible apply sound_of_fst (by assumption)
    | with_reducible apply sound_of_some (by assumption)
    | with_reducible apply sound_of_snd (by assumption)
    | with_reducible apply sound_on
    | with_reducible apply sound_getD
    | (with_reducible refine sound_mk ?_ rfl rfl rfl rfl rfl rfl rfl; first | with_reducible assumption | with_reducible apply sound_foldl | with_reducible apply sound_foldl_fst)
    | dsimp only
    | split

theorem modifyItem_keeps {q : Base} : ∀ a0, Keeps q (modifyItem a0) := by
  intros
  unfold modifyItem
  repeat' first
    | with_reducible assumption
    | with_reducible exact keeps_pure
    | with_reducible exact keeps_throw
    | with_reducible exact keeps_read
    | with_reducible apply keeps_get_bind
    | with_reducible exact keeps_get
    | with_reducible apply keeps_bind
    | with_reducible apply keeps_set
    | with_reducible apply keeps_modify
    | with_reducible apply keeps_forM
    | with_reducible apply keeps_mapM
    | with_reducible apply keeps_foldlM
    | with_reducible apply keeps_forIn
    | with_reducible apply keeps_tryCatch
    | with_reducible apply keeps_map
    | with_reducible apply keeps_seq
    | with_reducible apply State.onItem_sound
    | with_reducible apply sound_foldl
    | with_reducible apply sound_foldl_fst
    | intro _
    | with_reducible apply keeps_ite
    | with_reducible apply sound_of_fst (by assumption)
    | with_reducible apply sound_of_some (by assumption)
    | with_reducible apply sound_of_snd (by assumption)
    | with_reducible apply sound_on
    | with_reducible apply sound_getD
    | (with_reducible refine sound_mk ?_ rfl rfl rfl rfl rfl rfl rfl; first | with_reducible assumption | with_reducible apply State.onItem_sound | with_reducible apply sound_foldl | with_reducible apply sound_foldl_fst)
    | dsimp only
    | split

theorem once_keeps {q : Base} : ∀ a0 {a1}, Keeps q a1 → Keeps q (once a0 a1) := by
  intros
  unfold once
  repeat' first
    | with_reducible assumption
    | with_reducible exact keeps_pure
    | with_reducible exact keeps_throw
    | with_reducible exact keeps_read
    | with_reducible apply keeps_get_bind
    | with_reducible exact keeps_get
    | with_reducible apply keeps_bind
    | with_reducible apply keeps_set
    | with_reducible apply keeps_modify
    | with_reducible apply keeps_forM
    | with_reducible apply keeps_mapM
    | with_reducible apply keeps_foldlM
    | with_reducible apply keeps_forIn
    | with_reducible apply keeps_tryCatch
    | with_reducible apply keeps_map
    | with_reducible apply keeps_seq
    | with_reducible apply modifyItem_keeps
    | with_reducible apply theItem_keeps
    | with_reducible apply sound_foldl
    | with_reducible apply sound_foldl_fst
    | intro _
    | with_reducible apply keeps_ite
    | with_reducible apply sound_of_fst (by assumption)
    | with_reducible apply sound_of_some (by assumption)
    | with_reducible apply sound_of_snd (by assumption)
    | with_reducible apply sound_on
    | with_reducible apply sound_getD
    | (with_reducible refine sound_mk ?_ rfl rfl rfl rfl rfl rfl rfl; first | with_reducible assumption | with_reducible apply modifyItem_keeps | with_reducible apply theItem_keeps | with_reducible apply sound_foldl | with_reducible apply sound_foldl_fst)
    | dsimp only
    | split

theorem exchange_keeps {q : Base} : ∀ a0 a1 a2 a3, Keeps q (exchange a0 a1 a2 a3) := by
  intros
  unfold exchange
  repeat' first
    | with_reducible assumption
    | with_reducible exact keeps_pure
    | with_reducible exact keeps_throw
    | with_reducible exact keeps_read
    | with_reducible apply keeps_get_bind
    | with_reducible exact keeps_get
    | with_reducible apply keeps_bind
    | with_reducible apply keeps_set
    | with_reducible apply keeps_modify
    | with_reducible apply keeps_forM
    | with_reducible apply keeps_mapM
    | with_reducible apply keeps_foldlM
    | with_reducible apply keeps_forIn
    | with_reducible apply keeps_tryCatch
    | with_reducible apply keeps_map
    | with_reducible apply keeps_seq
    | with_reducible apply modifyItem_keeps
    | with_reducible apply theItem_keeps
    | with_reducible apply sound_foldl
    | with_reducible apply sound_foldl_fst
    | intro _
    | with_reducible apply keeps_ite
    | with_reducible apply sound_of_fst (by assumption)
    | with_reducible apply sound_of_some (by assumption)
    | with_reducible apply sound_of_snd (by assumption)
    | with_reducible apply sound_on
    | with_reducible apply sound_getD
    | (with_reducible refine sound_mk ?_ rfl rfl rfl rfl rfl rfl rfl; first | with_reducible assumption | with_reducible apply modifyItem_keeps | with_reducible apply theItem_keeps | with_reducible apply sound_foldl | with_reducible apply sound_foldl_fst)
    | dsimp only
    | split

theorem loadAt_keeps {q : Base} : ∀ a0 a1 a2, Keeps q (loadAt a0 a1 a2) := by
  intros
  unfold loadAt
  repeat' first
    | with_reducible assumption
    | with_reducible exact keeps_pure
    | with_reducible exact keeps_throw
    | with_reducible exact keeps_read
    | with_reducible apply keeps_get_bind
    | with_reducible exact keeps_get
    | with_reducible apply keeps_bind
    | with_reducible apply keeps_set
    | with_reducible apply keeps_modify
    | with_reducible apply keeps_forM
    | with_reducible apply keeps_mapM
    | with_reducible apply keeps_foldlM
    | with_reducible apply keeps_forIn
    | with_reducible apply keeps_tryCatch
    | with_reducible apply keeps_map
    | with_reducible apply keeps_seq
    | with_reducible apply remoteOk_keeps
    | with_reducible apply theItem_keeps
    | with_reducible apply readDev_keeps
    | with_reducible apply sound_foldl
    | with_reducible apply sound_foldl_fst
    | intro _
    | with_reducible apply keeps_ite
    | with_reducible apply sound_of_fst (by assumption)
    | with_reducible apply sound_of_some (by assumption)
    | with_reducible apply sound_of_snd (by assumption)
    | with_reducible apply sound_on
    | with_reducible apply sound_getD
    | (with_reducible refine sound_mk ?_ rfl rfl rfl rfl rfl rfl rfl; first | with_reducible assumption | with_reducible apply remoteOk_keeps | with_reducible apply theItem_keeps | with_reducible apply readDev_keeps | with_reducible apply sound_foldl | with_reducible apply sound_foldl_fst)
    | dsimp only
    | split

theorem load_keeps {q : Base} : ∀ a0 a1, Keeps q (load a0 a1) := by
  intros
  unfold load
  repeat' first
    | with_reducible assumption
    | with_reducible exact keeps_pure
    | with_reducible exact keeps_throw
    | with_reducible exact keeps_read
    | with_reducible apply keeps_get_bind
    | with_reducible exact keeps_get
    | with_reducible apply keeps_bind
    | with_reducible apply keeps_set
    | with_reducible apply keeps_modify
    | with_reducible apply keeps_forM
    | with_reducible apply keeps_mapM
    | with_reducible apply keeps_foldlM
    | with_reducible apply keeps_forIn
    | with_reducible apply keeps_tryCatch
    | with_reducible apply keeps_map
    | with_reducible apply keeps_seq
    | with_reducible apply loadAt_keeps
    | with_reducible apply checkRead_keeps
    | with_reducible apply sound_foldl
    | with_reducible apply sound_foldl_fst
    | intro _
    | with_reducible apply keeps_ite
    | with_reducible apply sound_of_fst (by assumption)
    | with_reducible apply sound_of_some (by assumption)
    | with_reducible apply sound_of_snd (by assumption)
    | with_reducible apply sound_on
    | with_reducible apply sound_getD
    | (with_reducible refine sound_mk ?_ rfl rfl rfl rfl rfl rfl rfl; first | with_reducible assumption | with_reducible apply loadAt_keeps | with_reducible apply checkRead_keeps | with_reducible apply sound_foldl | with_reducible apply sound_foldl_fst)
    | dsimp only
    | split

theorem State.askRange_sound {q : Base} : ∀ {s : State} a1 a2 a3 a4, Sound q s → Sound q (State.askRange s a1 a2 a3 a4) := by
  intros
  unfold State.askRange
  repeat' first
    | with_reducible assumption
    | with_reducible apply State.endEarly_sound
    | with_reducible apply State.sendRequest_sound
    | with_reducible apply sound_foldl
    | with_reducible apply sound_foldl_fst
    | intro _
    | with_reducible apply sound_ite
    | with_reducible apply sound_of_fst (by assumption)
    | with_reducible apply sound_of_some (by assumption)
    | with_reducible apply sound_of_snd (by assumption)
    | with_reducible apply sound_on
    | with_reducible apply sound_getD
    | (with_reducible refine sound_mk ?_ rfl rfl rfl rfl rfl rfl rfl; first | with_reducible assumption | with_reducible apply State.endEarly_sound | with_reducible apply State.sendRequest_sound | with_reducible apply sound_foldl | with_reducible apply sound_foldl_fst)
    | dsimp only
    | split

theorem State.again_sound {q : Base} : ∀ {a0 : State} {a1 : State} a2 a3, Sound q a0 → Sound q a1 → Sound q (State.again a0 a1 a2 a3) := by
  intros
  unfold State.again
  repeat' first
    | with_reducible assumption
    | with_reducible apply State.askRange_sound
    | with_reducible apply State.endEarly_sound
    | with_reducible apply State.onItem_sound
    | with_reducible apply State.sendRequest_sound
    | with_reducible apply sound_foldl
    | with_reducible apply sound_foldl_fst
    | intro _
    | with_reducible apply sound_ite
    | with_reducible apply sound_of_fst (by assumption)
    | with_reducible apply sound_of_some (by assumption)
    | with_reducible apply sound_of_snd (by assumption)
    | with_reducible apply sound_on
    | with_reducible apply sound_getD
    | (with_reducible refine sound_mk ?_ rfl rfl rfl rfl rfl rfl rfl; first | with_reducible assumption | with_reducible apply State.askRange_sound | with_reducible apply State.endEarly_sound | with_reducible apply State.onItem_sound | with_reducible apply State.sendRequest_sound | with_reducible apply sound_foldl | with_reducible apply sound_foldl_fst)
    | dsimp only
    | split

theorem inStep_keeps {q : Base} : ∀ {a0}, Keeps q a0 → Keeps q (inStep a0) := by
  intros
  unfold inStep
  repeat' first
    | with_reducible assumption
    | with_reducible exact keeps_pure
    | with_reducible exact keeps_throw
    | with_reducible exact keeps_read
    | with_reducible apply keeps_get_bind
    | with_reducible exact keeps_get
    | with_reducible apply keeps_bind
    | with_reducible apply keeps_set
    | with_reducible apply keeps_modify
    | with_reducible apply keeps_forM
    | with_reducible apply keeps_mapM
    | with_reducible apply keeps_foldlM
    | with_reducible apply keeps_forIn
    | with_reducible apply keeps_tryCatch
    | with_reducible apply keeps_map
    | with_reducible apply keeps_seq
    | with_reducible apply modifyItem_keeps
    | with_reducible apply State.again_sound
    | with_reducible apply theItem_keeps
    | with_reducible apply sound_foldl
    | with_reducible apply sound_foldl_fst
    | intro _
    | with_reducible apply keeps_ite
    | with_reducible apply sound_of_fst (by assumption)
    | with_reducible apply sound_of_some (by assumption)
    | with_reducible apply sound_of_snd (by assumption)
    | with_reducible apply sound_on
    | with_reducible apply sound_getD
    | (with_reducible refine sound_mk ?_ rfl rfl rfl rfl rfl rfl rfl; first | with_reducible assumption | with_reducible apply modifyItem_keeps | with_reducible apply State.again_sound | with_reducible apply theItem_keeps | with_reducible apply sound_foldl | with_reducible apply sound_foldl_fst)
    | dsimp only
    | split

theorem inStepDo_keeps {q : Base} : ∀ {a0}, Keeps q a0 → Keeps q (inStepDo a0) := by
  intros
  unfold inStepDo
  repeat' first
    | with_reducible assumption
    | with_reducible exact keeps_pure
    | with_reducible exact keeps_throw
    | with_reducible exact keeps_read
    | with_reducible apply keeps_get_bind
    | with_reducible exact keeps_get
    | with_reducible apply keeps_bind
    | with_reducible apply keeps_set
    | with_reducible apply keeps_modify
    | with_reducible apply keeps_forM
    | with_reducible apply keeps_mapM
    | with_reducible apply keeps_foldlM
    | with_reducible apply keeps_forIn
    | with_reducible apply keeps_tryCatch
    | with_reducible apply keeps_map
    | with_reducible apply keeps_seq
    | with_reducible apply inStep_keeps
    | with_reducible apply sound_foldl
    | with_reducible apply sound_foldl_fst
    | intro _
    | with_reducible apply keeps_ite
    | with_reducible apply sound_of_fst (by assumption)
    | with_reducible apply sound_of_some (by assumption)
    | with_reducible apply sound_of_snd (by assumption)
    | with_reducible apply sound_on
    | with_reducible apply sound_getD
    | (with_reducible refine sound_mk ?_ rfl rfl rfl rfl rfl rfl rfl; first | with_reducible assumption | with_reducible apply inStep_keeps | with_reducible apply sound_foldl | with_reducible apply sound_foldl_fst)
    | dsimp only
    | split

theorem inStepNat_keeps {q : Base} : ∀ {a0}, Keeps q a0 → Keeps q (inStepNat a0) := by
  intros
  unfold inStepNat
  repeat' first
    | with_reducible assumption
    | with_reducible exact keeps_pure
    | with_reducible exact keeps_throw
    | with_reducible exact keeps_read
    | with_reducible apply keeps_get_bind
    | with_reducible exact keeps_get
    | with_reducible apply keeps_bind
    | with_reducible apply keeps_set
    | with_reducible apply keeps_modify
    | with_reducible apply keeps_forM
    | with_reducible apply keeps_mapM
    | with_reducible apply keeps_foldlM
    | with_reducible apply keeps_forIn
    | with_reducible apply keeps_tryCatch
    | with_reducible apply keeps_map
    | with_reducible apply keeps_seq
    | with_reducible apply inStep_keeps
    | with_reducible apply sound_foldl
    | with_reducible apply sound_foldl_fst
    | intro _
    | with_reducible apply keeps_ite
    | with_reducible apply sound_of_fst (by assumption)
    | with_reducible apply sound_of_some (by assumption)
    | with_reducible apply sound_of_snd (by assumption)
    | with_reducible apply sound_on
    | with_reducible apply sound_getD
    | (with_reducible refine sound_mk ?_ rfl rfl rfl rfl rfl rfl rfl; first | with_reducible assumption | with_reducible apply inStep_keeps | with_reducible apply sound_foldl | with_reducible apply sound_foldl_fst)
    | dsimp only
    | split

theorem inStepBytes_keeps {q : Base} : ∀ {a0}, Keeps q a0 → Keeps q (inStepBytes a0) := by
  intros
  unfold inStepBytes
  repeat' first
    | with_reducible assumption
    | with_reducible exact keeps_pure
    | with_reducible exact keeps_throw
    | with_reducible exact keeps_read
    | with_reducible apply keeps_get_bind
    | with_reducible exact keeps_get
    | with_reducible apply keeps_bind
    | with_reducible apply keeps_set
    | with_reducible apply keeps_modify
    | with_reducible apply keeps_forM
    | with_reducible apply keeps_mapM
    | with_reducible apply keeps_foldlM
    | with_reducible apply keeps_forIn
    | with_reducible apply keeps_tryCatch
    | with_reducible apply keeps_map
    | with_reducible apply keeps_seq
    | with_reducible apply inStep_keeps
    | with_reducible apply sound_foldl
    | with_reducible apply sound_foldl_fst
    | intro _
    | with_reducible apply keeps_ite
    | with_reducible apply sound_of_fst (by assumption)
    | with_reducible apply sound_of_some (by assumption)
    | with_reducible apply sound_of_snd (by assumption)
    | with_reducible apply sound_on
    | with_reducible apply sound_getD
    | (with_reducible refine sound_mk ?_ rfl rfl rfl rfl rfl rfl rfl; first | with_reducible assumption | with_reducible apply inStep_keeps | with_reducible apply sound_foldl | with_reducible apply sound_foldl_fst)
    | dsimp only
    | split

theorem waitWrites_keeps {q : Base} : Keeps q waitWrites := by
  intros
  unfold waitWrites
  repeat' first
    | with_reducible assumption
    | with_reducible exact keeps_pure
    | with_reducible exact keeps_throw
    | with_reducible exact keeps_read
    | with_reducible apply keeps_get_bind
    | with_reducible exact keeps_get
    | with_reducible apply keeps_bind
    | with_reducible apply keeps_set
    | with_reducible apply keeps_modify
    | with_reducible apply keeps_forM
    | with_reducible apply keeps_mapM
    | with_reducible apply keeps_foldlM
    | with_reducible apply keeps_forIn
    | with_reducible apply keeps_tryCatch
    | with_reducible apply keeps_map
    | with_reducible apply keeps_seq
    | with_reducible apply sound_foldl
    | with_reducible apply sound_foldl_fst
    | intro _
    | with_reducible apply keeps_ite
    | with_reducible apply sound_of_fst (by assumption)
    | with_reducible apply sound_of_some (by assumption)
    | with_reducible apply sound_of_snd (by assumption)
    | with_reducible apply sound_on
    | with_reducible apply sound_getD
    | (with_reducible refine sound_mk ?_ rfl rfl rfl rfl rfl rfl rfl; first | with_reducible assumption | with_reducible apply sound_foldl | with_reducible apply sound_foldl_fst)
    | dsimp only
    | split

theorem loadKeep_keeps {q : Base} : ∀ a0 a1, Keeps q (loadKeep a0 a1) := by
  intros
  unfold loadKeep
  repeat' first
    | with_reducible assumption
    | with_reducible exact keeps_pure
    | with_reducible exact keeps_throw
    | with_reducible exact keeps_read
    | with_reducible apply keeps_get_bind
    | with_reducible exact keeps_get
    | with_reducible apply keeps_bind
    | with_reducible apply keeps_set
    | with_reducible apply keeps_modify
    | with_reducible apply keeps_forM
    | with_reducible apply keeps_mapM
    | with_reducible apply keeps_foldlM
    | with_reducible apply keeps_forIn
    | with_reducible apply keeps_tryCatch
    | with_reducible apply keeps_map
    | with_reducible apply keeps_seq
    | with_reducible apply State.askRange_sound
    | with_reducible apply loadAt_keeps
    | with_reducible apply checkRead_keeps
    | with_reducible apply theItem_keeps
    | with_reducible apply sound_foldl
    | with_reducible apply sound_foldl_fst
    | intro _
    | with_reducible apply keeps_ite
    | with_reducible apply sound_of_fst (by assumption)
    | with_reducible apply sound_of_some (by assumption)
    | with_reducible apply sound_of_snd (by assumption)
    | with_reducible apply sound_on
    | with_reducible apply sound_getD
    | (with_reducible refine sound_mk ?_ rfl rfl rfl rfl rfl rfl rfl; first | with_reducible assumption | with_reducible apply State.askRange_sound | with_reducible apply loadAt_keeps | with_reducible apply checkRead_keeps | with_reducible apply theItem_keeps | with_reducible apply sound_foldl | with_reducible apply sound_foldl_fst)
    | dsimp only
    | split

theorem loadFresh_keeps {q : Base} : ∀ a0 a1, Keeps q (loadFresh a0 a1) := by
  intros
  unfold loadFresh
  repeat' first
    | with_reducible assumption
    | with_reducible exact keeps_pure
    | with_reducible exact keeps_throw
    | with_reducible exact keeps_read
    | with_reducible apply keeps_get_bind
    | with_reducible exact keeps_get
    | with_reducible apply keeps_bind
    | with_reducible apply keeps_set
    | with_reducible apply keeps_modify
    | with_reducible apply keeps_forM
    | with_reducible apply keeps_mapM
    | with_reducible apply keeps_foldlM
    | with_reducible apply keeps_forIn
    | with_reducible apply keeps_tryCatch
    | with_reducible apply keeps_map
    | with_reducible apply keeps_seq
    | with_reducible apply loadKeep_keeps
    | with_reducible apply modifyItem_keeps
    | with_reducible apply sound_foldl
    | with_reducible apply sound_foldl_fst
    | intro _
    | with_reducible apply keeps_ite
    | with_reducible apply sound_of_fst (by assumption)
    | with_reducible apply sound_of_some (by assumption)
    | with_reducible apply sound_of_snd (by assumption)
    | with_reducible apply sound_on
    | with_reducible apply sound_getD
    | (with_reducible refine sound_mk ?_ rfl rfl rfl rfl rfl rfl rfl; first | with_reducible assumption | with_reducible apply loadKeep_keeps | with_reducible apply modifyItem_keeps | with_reducible apply sound_foldl | with_reducible apply sound_foldl_fst)
    | dsimp only
    | split

theorem loadNat_keeps {q : Base} : ∀ a0 a1, Keeps q (loadNat a0 a1) := by
  intros
  unfold loadNat
  repeat' first
    | with_reducible assumption
    | with_reducible exact keeps_pure
    | with_reducible exact keeps_throw
    | with_reducible exact keeps_read
    | with_reducible apply keeps_get_bind
    | with_reducible exact keeps_get
    | with_reducible apply keeps_bind
    | with_reducible apply keeps_set
    | with_reducible apply keeps_modify
    | with_reducible apply keeps_forM
    | with_reducible apply keeps_mapM
    | with_reducible apply keeps_foldlM
    | with_reducible apply keeps_forIn
    | with_reducible apply keeps_tryCatch
    | with_reducible apply keeps_map
    | with_reducible apply keeps_seq
    | with_reducible apply load_keeps
    | with_reducible apply sound_foldl
    | with_reducible apply sound_foldl_fst
    | intro _
    | with_reducible apply keeps_ite
    | with_reducible apply sound_of_fst (by assumption)
    | with_reducible apply sound_of_some (by assumption)
    | with_reducible apply sound_of_snd (by assumption)
    | with_reducible apply sound_on
    | with_reducible apply sound_getD
    | (with_reducible refine sound_mk ?_ rfl rfl rfl rfl rfl rfl rfl; first | with_reducible assumption | with_reducible apply load_keeps | with_reducible apply sound_foldl | with_reducible apply sound_foldl_fst)
    | dsimp only
    | split

theorem freshNat_keeps {q : Base} : ∀ a0 a1, Keeps q (freshNat a0 a1) := by
  intros
  unfold freshNat
  repeat' first
    | with_reducible assumption
    | with_reducible exact keeps_pure
    | with_reducible exact keeps_throw
    | with_reducible exact keeps_read
    | with_reducible apply keeps_get_bind
    | with_reducible exact keeps_get
    | with_reducible apply keeps_bind
    | with_reducible apply keeps_set
    | with_reducible apply keeps_modify
    | with_reducible apply keeps_forM
    | with_reducible apply keeps_mapM
    | with_reducible apply keeps_foldlM
    | with_reducible apply keeps_forIn
    | with_reducible apply keeps_tryCatch
    | with_reducible apply keeps_map
    | with_reducible apply keeps_seq
    | with_reducible apply loadAt_keeps
    | with_reducible apply checkRead_keeps
    | with_reducible apply exchange_keeps
    | with_reducible apply sound_foldl
    | with_reducible apply sound_foldl_fst
    | intro _
    | with_reducible apply keeps_ite
    | with_reducible apply sound_of_fst (by assumption)
    | with_reducible apply sound_of_some (by assumption)
    | with_reducible apply sound_of_snd (by assumption)
    | with_reducible apply sound_on
    | with_reducible apply sound_getD
    | (with_reducible refine sound_mk ?_ rfl rfl rfl rfl rfl rfl rfl; first | with_reducible assumption | with_reducible apply loadAt_keeps | with_reducible apply checkRead_keeps | with_reducible apply exchange_keeps | with_reducible apply sound_foldl | with_reducible apply sound_foldl_fst)
    | dsimp only
    | split

theorem remoteAtomic_keeps {q : Base} : ∀ a0 a1 a2 a3, Keeps q (remoteAtomic a0 a1 a2 a3) := by
  intros
  unfold remoteAtomic
  repeat' first
    | with_reducible assumption
    | with_reducible exact keeps_pure
    | with_reducible exact keeps_throw
    | with_reducible exact keeps_read
    | with_reducible apply keeps_get_bind
    | with_reducible exact keeps_get
    | with_reducible apply keeps_bind
    | with_reducible apply keeps_set
    | with_reducible apply keeps_modify
    | with_reducible apply keeps_forM
    | with_reducible apply keeps_mapM
    | with_reducible apply keeps_foldlM
    | with_reducible apply keeps_forIn
    | with_reducible apply keeps_tryCatch
    | with_reducible apply keeps_map
    | with_reducible apply keeps_seq
    | with_reducible apply remoteOk_keeps
    | with_reducible apply exchange_keeps
    | with_reducible apply sound_foldl
    | with_reducible apply sound_foldl_fst
    | intro _
    | with_reducible apply keeps_ite
    | with_reducible apply sound_of_fst (by assumption)
    | with_reducible apply sound_of_some (by assumption)
    | with_reducible apply sound_of_snd (by assumption)
    | with_reducible apply sound_on
    | with_reducible apply sound_getD
    | (with_reducible refine sound_mk ?_ rfl rfl rfl rfl rfl rfl rfl; first | with_reducible assumption | with_reducible apply remoteOk_keeps | with_reducible apply exchange_keeps | with_reducible apply sound_foldl | with_reducible apply sound_foldl_fst)
    | dsimp only
    | split

theorem patchArrived_keeps {q : Base} : ∀ a0 a1, Keeps q (patchArrived a0 a1) := by
  intros
  unfold patchArrived
  repeat' first
    | with_reducible assumption
    | with_reducible exact keeps_pure
    | with_reducible exact keeps_throw
    | with_reducible exact keeps_read
    | with_reducible apply keeps_get_bind
    | with_reducible exact keeps_get
    | with_reducible apply keeps_bind
    | with_reducible apply keeps_set
    | with_reducible apply keeps_modify
    | with_reducible apply keeps_forM
    | with_reducible apply keeps_mapM
    | with_reducible apply keeps_foldlM
    | with_reducible apply keeps_forIn
    | with_reducible apply keeps_tryCatch
    | with_reducible apply keeps_map
    | with_reducible apply keeps_seq
    | with_reducible apply modifyItem_keeps
    | with_reducible apply sound_foldl
    | with_reducible apply sound_foldl_fst
    | intro _
    | with_reducible apply keeps_ite
    | with_reducible apply sound_of_fst (by assumption)
    | with_reducible apply sound_of_some (by assumption)
    | with_reducible apply sound_of_snd (by assumption)
    | with_reducible apply sound_on
    | with_reducible apply sound_getD
    | (with_reducible refine sound_mk ?_ rfl rfl rfl rfl rfl rfl rfl; first | with_reducible assumption | with_reducible apply modifyItem_keeps | with_reducible apply sound_foldl | with_reducible apply sound_foldl_fst)
    | dsimp only
    | split

theorem sendWrite_keeps {q : Base} : ∀ a0 a1 a2, Keeps q (sendWrite a0 a1 a2) := by
  intros
  unfold sendWrite
  repeat' first
    | with_reducible assumption
    | with_reducible exact keeps_pure
    | with_reducible exact keeps_throw
    | with_reducible exact keeps_read
    | with_reducible apply keeps_get_bind
    | with_reducible exact keeps_get
    | with_reducible apply keeps_bind
    | with_reducible apply keeps_set
    | with_reducible apply keeps_modify
    | with_reducible apply keeps_forM
    | with_reducible apply keeps_mapM
    | with_reducible apply keeps_foldlM
    | with_reducible apply keeps_forIn
    | with_reducible apply keeps_tryCatch
    | with_reducible apply keeps_map
    | with_reducible apply keeps_seq
    | with_reducible apply stopWith_keeps
    | with_reducible apply State.sendRequest_sound
    | with_reducible apply sound_foldl
    | with_reducible apply sound_foldl_fst
    | intro _
    | with_reducible apply keeps_ite
    | with_reducible apply sound_of_fst (by assumption)
    | with_reducible apply sound_of_some (by assumption)
    | with_reducible apply sound_of_snd (by assumption)
    | with_reducible apply sound_on
    | with_reducible apply sound_getD
    | (with_reducible refine sound_mk ?_ rfl rfl rfl rfl rfl rfl rfl; first | with_reducible assumption | with_reducible apply stopWith_keeps | with_reducible apply State.sendRequest_sound | with_reducible apply sound_foldl | with_reducible apply sound_foldl_fst)
    | dsimp only
    | split

theorem storeAt_keeps {q : Base} : ∀ a0 a1, Keeps q (storeAt a0 a1) := by
  intros
  unfold storeAt
  repeat' first
    | with_reducible assumption
    | with_reducible exact keeps_pure
    | with_reducible exact keeps_throw
    | with_reducible exact keeps_read
    | with_reducible apply keeps_get_bind
    | with_reducible exact keeps_get
    | with_reducible apply keeps_bind
    | with_reducible apply keeps_set
    | with_reducible apply keeps_modify
    | with_reducible apply keeps_forM
    | with_reducible apply keeps_mapM
    | with_reducible apply keeps_foldlM
    | with_reducible apply keeps_forIn
    | with_reducible apply keeps_tryCatch
    | with_reducible apply keeps_map
    | with_reducible apply keeps_seq
    | with_reducible apply writeDev_keeps
    | with_reducible apply sendWrite_keeps
    | with_reducible apply patchArrived_keeps
    | with_reducible apply sound_foldl
    | with_reducible apply sound_foldl_fst
    | intro _
    | with_reducible apply keeps_ite
    | with_reducible apply sound_of_fst (by assumption)
    | with_reducible apply sound_of_some (by assumption)
    | with_reducible apply sound_of_snd (by assumption)
    | with_reducible apply sound_on
    | with_reducible apply sound_getD
    | (with_reducible refine sound_mk ?_ rfl rfl rfl rfl rfl rfl rfl; first | with_reducible assumption | with_reducible apply writeDev_keeps | with_reducible apply sendWrite_keeps | with_reducible apply patchArrived_keeps | with_reducible apply sound_foldl | with_reducible apply sound_foldl_fst)
    | dsimp only
    | split

theorem store_keeps {q : Base} : ∀ a0 a1, Keeps q (store a0 a1) := by
  intros
  unfold store
  repeat' first
    | with_reducible assumption
    | with_reducible exact keeps_pure
    | with_reducible exact keeps_throw
    | with_reducible exact keeps_read
    | with_reducible apply keeps_get_bind
    | with_reducible exact keeps_get
    | with_reducible apply keeps_bind
    | with_reducible apply keeps_set
    | with_reducible apply keeps_modify
    | with_reducible apply keeps_forM
    | with_reducible apply keeps_mapM
    | with_reducible apply keeps_foldlM
    | with_reducible apply keeps_forIn
    | with_reducible apply keeps_tryCatch
    | with_reducible apply keeps_map
    | with_reducible apply keeps_seq
    | with_reducible apply checkWrite_keeps
    | with_reducible apply storeAt_keeps
    | with_reducible apply sound_foldl
    | with_reducible apply sound_foldl_fst
    | intro _
    | with_reducible apply keeps_ite
    | with_reducible apply sound_of_fst (by assumption)
    | with_reducible apply sound_of_some (by assumption)
    | with_reducible apply sound_of_snd (by assumption)
    | with_reducible apply sound_on
    | with_reducible apply sound_getD
    | (with_reducible refine sound_mk ?_ rfl rfl rfl rfl rfl rfl rfl; first | with_reducible assumption | with_reducible apply checkWrite_keeps | with_reducible apply storeAt_keeps | with_reducible apply sound_foldl | with_reducible apply sound_foldl_fst)
    | dsimp only
    | split

theorem sramLoad_keeps {q : Base} : ∀ a0 a1, Keeps q (sramLoad a0 a1) := by
  intros
  unfold sramLoad
  repeat' first
    | with_reducible assumption
    | with_reducible exact keeps_pure
    | with_reducible exact keeps_throw
    | with_reducible exact keeps_read
    | with_reducible apply keeps_get_bind
    | with_reducible exact keeps_get
    | with_reducible apply keeps_bind
    | with_reducible apply keeps_set
    | with_reducible apply keeps_modify
    | with_reducible apply keeps_forM
    | with_reducible apply keeps_mapM
    | with_reducible apply keeps_foldlM
    | with_reducible apply keeps_forIn
    | with_reducible apply keeps_tryCatch
    | with_reducible apply keeps_map
    | with_reducible apply keeps_seq
    | with_reducible apply stopWith_keeps
    | with_reducible apply require_keeps
    | with_reducible apply State.readSram_sound
    | with_reducible apply sound_foldl
    | with_reducible apply sound_foldl_fst
    | intro _
    | with_reducible apply keeps_ite
    | with_reducible apply sound_of_fst (by assumption)
    | with_reducible apply sound_of_some (by assumption)
    | with_reducible apply sound_of_snd (by assumption)
    | with_reducible apply sound_on
    | with_reducible apply sound_getD
    | (with_reducible refine sound_mk ?_ rfl rfl rfl rfl rfl rfl rfl; first | with_reducible assumption | with_reducible apply stopWith_keeps | with_reducible apply require_keeps | with_reducible apply State.readSram_sound | with_reducible apply sound_foldl | with_reducible apply sound_foldl_fst)
    | dsimp only
    | split

theorem sramTable_keeps {q : Base} : ∀ a0 a1, Keeps q (sramTable a0 a1) := by
  intros
  unfold sramTable
  repeat' first
    | with_reducible assumption
    | with_reducible exact keeps_pure
    | with_reducible exact keeps_throw
    | with_reducible exact keeps_read
    | with_reducible apply keeps_get_bind
    | with_reducible exact keeps_get
    | with_reducible apply keeps_bind
    | with_reducible apply keeps_set
    | with_reducible apply keeps_modify
    | with_reducible apply keeps_forM
    | with_reducible apply keeps_mapM
    | with_reducible apply keeps_foldlM
    | with_reducible apply keeps_forIn
    | with_reducible apply keeps_tryCatch
    | with_reducible apply keeps_map
    | with_reducible apply keeps_seq
    | with_reducible apply sramLoad_keeps
    | with_reducible apply sound_foldl
    | with_reducible apply sound_foldl_fst
    | intro _
    | with_reducible apply keeps_ite
    | with_reducible apply sound_of_fst (by assumption)
    | with_reducible apply sound_of_some (by assumption)
    | with_reducible apply sound_of_snd (by assumption)
    | with_reducible apply sound_on
    | with_reducible apply sound_getD
    | (with_reducible refine sound_mk ?_ rfl rfl rfl rfl rfl rfl rfl; first | with_reducible assumption | with_reducible apply sramLoad_keeps | with_reducible apply sound_foldl | with_reducible apply sound_foldl_fst)
    | dsimp only
    | split

theorem sramClear_keeps {q : Base} : ∀ a0 a1, Keeps q (sramClear a0 a1) := by
  intros
  unfold sramClear
  repeat' first
    | with_reducible assumption
    | with_reducible exact keeps_pure
    | with_reducible exact keeps_throw
    | with_reducible exact keeps_read
    | with_reducible apply keeps_get_bind
    | with_reducible exact keeps_get
    | with_reducible apply keeps_bind
    | with_reducible apply keeps_set
    | with_reducible apply keeps_modify
    | with_reducible apply keeps_forM
    | with_reducible apply keeps_mapM
    | with_reducible apply keeps_foldlM
    | with_reducible apply keeps_forIn
    | with_reducible apply keeps_tryCatch
    | with_reducible apply keeps_map
    | with_reducible apply keeps_seq
    | with_reducible apply stopWith_keeps
    | with_reducible apply require_keeps
    | with_reducible apply State.memErr_sound
    | with_reducible apply sound_foldl
    | with_reducible apply sound_foldl_fst
    | intro _
    | with_reducible apply keeps_ite
    | with_reducible apply sound_of_fst (by assumption)
    | with_reducible apply sound_of_some (by assumption)
    | with_reducible apply sound_of_snd (by assumption)
    | with_reducible apply sound_on
    | with_reducible apply sound_getD
    | (with_reducible refine sound_mk ?_ rfl rfl rfl rfl rfl rfl rfl; first | with_reducible assumption | with_reducible apply stopWith_keeps | with_reducible apply require_keeps | with_reducible apply State.memErr_sound | with_reducible apply sound_foldl | with_reducible apply sound_foldl_fst)
    | dsimp only
    | split

theorem sramStore_keeps {q : Base} : ∀ a0 a1, Keeps q (sramStore a0 a1) := by
  intros
  unfold sramStore
  repeat' first
    | with_reducible assumption
    | with_reducible exact keeps_pure
    | with_reducible exact keeps_throw
    | with_reducible exact keeps_read
    | with_reducible apply keeps_get_bind
    | with_reducible exact keeps_get
    | with_reducible apply keeps_bind
    | with_reducible apply keeps_set
    | with_reducible apply keeps_modify
    | with_reducible apply keeps_forM
    | with_reducible apply keeps_mapM
    | with_reducible apply keeps_foldlM
    | with_reducible apply keeps_forIn
    | with_reducible apply keeps_tryCatch
    | with_reducible apply keeps_map
    | with_reducible apply keeps_seq
    | with_reducible apply sramClear_keeps
    | with_reducible apply State.sramWrite_sound
    | with_reducible apply sound_foldl
    | with_reducible apply sound_foldl_fst
    | intro _
    | with_reducible apply keeps_ite
    | with_reducible apply sound_of_fst (by assumption)
    | with_reducible apply sound_of_some (by assumption)
    | with_reducible apply sound_of_snd (by assumption)
    | with_reducible apply sound_on
    | with_reducible apply sound_getD
    | (with_reducible refine sound_mk ?_ rfl rfl rfl rfl rfl rfl rfl; first | with_reducible assumption | with_reducible apply sramClear_keeps | with_reducible apply State.sramWrite_sound | with_reducible apply sound_foldl | with_reducible apply sound_foldl_fst)
    | dsimp only
    | split

theorem settle_sound {q : Base} : ∀ {e} {s : State} {res}, Sound q s → Sound q res.2 → Sound q (settle e s res) := by
  intro e s res hs h
  obtain ⟨x, t⟩ := res
  have h : Sound q t := h
  rcases x with (⟨_, _⟩ | _ | _ | _) | d
  all_goals unfold settle
  all_goals repeat' first
    | with_reducible assumption
    | with_reducible apply State.closeItem_sound
    | with_reducible apply State.noteCycles_sound
    | with_reducible apply State.again_sound

theorem State.beginItem_sound {q : Base} : ∀ {s : State} a1 a2, Sound q s → Sound q (State.beginItem s a1 a2) := by
  intros
  unfold State.beginItem
  repeat' first
    | with_reducible assumption
    | with_reducible apply State.onItem_sound
    | with_reducible apply sound_foldl
    | with_reducible apply sound_foldl_fst
    | intro _
    | with_reducible apply sound_ite
    | with_reducible apply sound_of_fst (by assumption)
    | with_reducible apply sound_of_some (by assumption)
    | with_reducible apply sound_of_snd (by assumption)
    | with_reducible apply sound_on
    | with_reducible apply sound_getD
    | (with_reducible refine sound_mk ?_ rfl rfl rfl rfl rfl rfl rfl; first | with_reducible assumption | with_reducible apply State.onItem_sound | with_reducible apply sound_foldl | with_reducible apply sound_foldl_fst)
    | dsimp only
    | split

theorem State.runItem_sound {q : Base} : ∀ {s : State} a1 a2 {a3} a4 a5, Sound q s → Keeps q a3 → Sound q (State.runItem s a1 a2 a3 a4 a5) := by
  intros
  unfold State.runItem
  repeat' first
    | with_reducible assumption
    | with_reducible exact keeps_pure
    | with_reducible exact keeps_throw
    | with_reducible exact keeps_read
    | with_reducible apply keeps_get_bind
    | with_reducible exact keeps_get
    | with_reducible apply keeps_bind
    | with_reducible apply keeps_set
    | with_reducible apply keeps_modify
    | with_reducible apply keeps_forM
    | with_reducible apply keeps_mapM
    | with_reducible apply keeps_foldlM
    | with_reducible apply keeps_forIn
    | with_reducible apply keeps_tryCatch
    | with_reducible apply keeps_map
    | with_reducible apply keeps_seq
    | with_reducible apply settle_sound
    | with_reducible apply State.beginItem_sound
    | with_reducible apply sound_foldl
    | with_reducible apply sound_foldl_fst
    | intro _
    | with_reducible apply sound_ite
    | with_reducible apply sound_of_fst (by assumption)
    | with_reducible apply sound_of_some (by assumption)
    | with_reducible apply sound_of_snd (by assumption)
    | with_reducible apply sound_on
    | with_reducible apply sound_getD
    | (with_reducible refine sound_mk ?_ rfl rfl rfl rfl rfl rfl rfl; first | with_reducible assumption | with_reducible apply settle_sound | with_reducible apply State.beginItem_sound | with_reducible apply sound_foldl | with_reducible apply sound_foldl_fst)
    | dsimp only
    | split

theorem noteCount_keeps {q : Base} : ∀ a0, Keeps q (noteCount a0) := by
  intros
  unfold noteCount
  repeat' first
    | with_reducible assumption
    | with_reducible exact keeps_pure
    | with_reducible exact keeps_throw
    | with_reducible exact keeps_read
    | with_reducible apply keeps_get_bind
    | with_reducible exact keeps_get
    | with_reducible apply keeps_bind
    | with_reducible apply keeps_set
    | with_reducible apply keeps_modify
    | with_reducible apply keeps_forM
    | with_reducible apply keeps_mapM
    | with_reducible apply keeps_foldlM
    | with_reducible apply keeps_forIn
    | with_reducible apply keeps_tryCatch
    | with_reducible apply keeps_map
    | with_reducible apply keeps_seq
    | with_reducible apply modifyItem_keeps
    | with_reducible apply sound_foldl
    | with_reducible apply sound_foldl_fst
    | intro _
    | with_reducible apply keeps_ite
    | with_reducible apply sound_of_fst (by assumption)
    | with_reducible apply sound_of_some (by assumption)
    | with_reducible apply sound_of_snd (by assumption)
    | with_reducible apply sound_on
    | with_reducible apply sound_getD
    | (with_reducible refine sound_mk ?_ rfl rfl rfl rfl rfl rfl rfl; first | with_reducible assumption | with_reducible apply modifyItem_keeps | with_reducible apply sound_foldl | with_reducible apply sound_foldl_fst)
    | dsimp only
    | split

end Sys2Proof.Machine
end

