-- ==== Sys2Proof/Laws/KeepRingOps.lean ====
section
/-! SUPPORT. What the operations of `Machine/RingOps.lean` keep: the memories in canonical form and the queue. -/

set_option linter.unusedTactic false
set_option linter.unreachableTactic false

namespace Sys2Proof.Machine

theorem State.putStatus_sound {q : Base} : ∀ {s : State} a1, Sound q s → Sound q (State.putStatus s a1) := by
  intros
  unfold State.putStatus
  repeat' first
    | with_reducible assumption
    | with_reducible apply State.devWrite_sound
    | with_reducible apply State.emit_sound
    | with_reducible apply sound_foldl
    | with_reducible apply sound_foldl_fst
    | intro _
    | with_reducible apply sound_ite
    | with_reducible apply sound_of_fst (by assumption)
    | with_reducible apply sound_of_some (by assumption)
    | with_reducible apply sound_of_snd (by assumption)
    | with_reducible apply sound_on
    | with_reducible apply sound_getD
    | (with_reducible refine sound_mk ?_ rfl rfl rfl rfl rfl rfl rfl; first | with_reducible assumption | with_reducible apply State.devWrite_sound | with_reducible apply State.emit_sound | with_reducible apply sound_foldl | with_reducible apply sound_foldl_fst)
    | dsimp only
    | split

theorem State.writeStatus_sound {q : Base} : ∀ {s : State} a1, Sound q s → Sound q (State.writeStatus s a1) := by
  intros
  unfold State.writeStatus
  repeat' first
    | with_reducible assumption
    | with_reducible apply State.putStatus_sound
    | with_reducible apply sound_foldl
    | with_reducible apply sound_foldl_fst
    | intro _
    | with_reducible apply sound_ite
    | with_reducible apply sound_of_fst (by assumption)
    | with_reducible apply sound_of_some (by assumption)
    | with_reducible apply sound_of_snd (by assumption)
    | with_reducible apply sound_on
    | with_reducible apply sound_getD
    | (with_reducible refine sound_mk ?_ rfl rfl rfl rfl rfl rfl rfl; first | with_reducible assumption | with_reducible apply State.putStatus_sound | with_reducible apply sound_foldl | with_reducible apply sound_foldl_fst)
    | dsimp only
    | split

theorem State.interrupt_sound {q : Base} : ∀ {s : State} a1, Sound q s → Sound q (State.interrupt s a1) := by
  intros
  unfold State.interrupt
  repeat' first
    | with_reducible assumption
    | with_reducible apply State.onRing_sound
    | with_reducible apply State.raise_sound
    | with_reducible apply sound_foldl
    | with_reducible apply sound_foldl_fst
    | intro _
    | with_reducible apply sound_ite
    | with_reducible apply sound_of_fst (by assumption)
    | with_reducible apply sound_of_some (by assumption)
    | with_reducible apply sound_of_snd (by assumption)
    | with_reducible apply sound_on
    | with_reducible apply sound_getD
    | (with_reducible refine sound_mk ?_ rfl rfl rfl rfl rfl rfl rfl; first | with_reducible assumption | with_reducible apply State.onRing_sound | with_reducible apply State.raise_sound | with_reducible apply sound_foldl | with_reducible apply sound_foldl_fst)
    | dsimp only
    | split

theorem State.ringEvent_sound {q : Base} : ∀ {s : State} a1 a2, Sound q s → Sound q (State.ringEvent s a1 a2) := by
  intros
  unfold State.ringEvent
  repeat' first
    | with_reducible assumption
    | with_reducible apply State.onRing_sound
    | with_reducible apply State.event_sound
    | with_reducible apply sound_foldl
    | with_reducible apply sound_foldl_fst
    | intro _
    | with_reducible apply sound_ite
    | with_reducible apply sound_of_fst (by assumption)
    | with_reducible apply sound_of_some (by assumption)
    | with_reducible apply sound_of_snd (by assumption)
    | with_reducible apply sound_on
    | with_reducible apply sound_getD
    | (with_reducible refine sound_mk ?_ rfl rfl rfl rfl rfl rfl rfl; first | with_reducible assumption | with_reducible apply State.onRing_sound | with_reducible apply State.event_sound | with_reducible apply sound_foldl | with_reducible apply sound_foldl_fst)
    | dsimp only
    | split

theorem State.trace_sound {q : Base} : ∀ {s : State} a1, Sound q s → Sound q (State.trace s a1) := by
  intros
  unfold State.trace
  repeat' first
    | with_reducible assumption
    | with_reducible apply State.devWrite_sound
    | with_reducible apply sound_foldl
    | with_reducible apply sound_foldl_fst
    | intro _
    | with_reducible apply sound_ite
    | with_reducible apply sound_of_fst (by assumption)
    | with_reducible apply sound_of_some (by assumption)
    | with_reducible apply sound_of_snd (by assumption)
    | with_reducible apply sound_on
    | with_reducible apply sound_getD
    | (with_reducible refine sound_mk ?_ rfl rfl rfl rfl rfl rfl rfl; first | with_reducible assumption | with_reducible apply State.devWrite_sound | with_reducible apply sound_foldl | with_reducible apply sound_foldl_fst)
    | dsimp only
    | split

theorem State.takeMark_sound {q : Base} : ∀ {s : State} a1 a2, Sound q s → Sound q (State.takeMark s a1 a2) := by
  intros
  unfold State.takeMark
  repeat' first
    | with_reducible assumption
    | with_reducible apply State.cutItems_sound
    | with_reducible apply State.cutFetched_sound
    | with_reducible apply State.setRing_sound
    | with_reducible apply sound_foldl
    | with_reducible apply sound_foldl_fst
    | intro _
    | with_reducible apply sound_ite
    | with_reducible apply sound_of_fst (by assumption)
    | with_reducible apply sound_of_some (by assumption)
    | with_reducible apply sound_of_snd (by assumption)
    | with_reducible apply sound_on
    | with_reducible apply sound_getD
    | (with_reducible refine sound_mk ?_ rfl rfl rfl rfl rfl rfl rfl; first | with_reducible assumption | with_reducible apply State.cutItems_sound | with_reducible apply State.cutFetched_sound | with_reducible apply State.setRing_sound | with_reducible apply sound_foldl | with_reducible apply sound_foldl_fst)
    | dsimp only
    | split

theorem State.takeLine_sound {q : Base} : ∀ {s : State} a1 a2, Sound q s → Sound q (State.takeLine s a1 a2) := by
  intros
  unfold State.takeLine
  repeat' first
    | with_reducible assumption
    | with_reducible apply State.ringEvent_sound
    | with_reducible apply State.takeMark_sound
    | with_reducible apply State.setRing_sound
    | with_reducible apply sound_foldl
    | with_reducible apply sound_foldl_fst
    | intro _
    | with_reducible apply sound_ite
    | with_reducible apply sound_of_fst (by assumption)
    | with_reducible apply sound_of_some (by assumption)
    | with_reducible apply sound_of_snd (by assumption)
    | with_reducible apply sound_on
    | with_reducible apply sound_getD
    | (with_reducible refine sound_mk ?_ rfl rfl rfl rfl rfl rfl rfl; first | with_reducible assumption | with_reducible apply State.ringEvent_sound | with_reducible apply State.takeMark_sound | with_reducible apply State.setRing_sound | with_reducible apply sound_foldl | with_reducible apply sound_foldl_fst)
    | dsimp only
    | split

theorem State.wakeRing_sound {q : Base} : ∀ {s : State} a1 a2, Sound q s → Sound q (State.wakeRing s a1 a2) := by
  intros
  unfold State.wakeRing
  repeat' first
    | with_reducible assumption
    | with_reducible apply State.ringEvent_sound
    | with_reducible apply State.onRing_sound
    | with_reducible apply State.takeLine_sound
    | with_reducible apply State.wakeDimmed_sound
    | with_reducible apply sound_foldl
    | with_reducible apply sound_foldl_fst
    | intro _
    | with_reducible apply sound_ite
    | with_reducible apply sound_of_fst (by assumption)
    | with_reducible apply sound_of_some (by assumption)
    | with_reducible apply sound_of_snd (by assumption)
    | with_reducible apply sound_on
    | with_reducible apply sound_getD
    | (with_reducible refine sound_mk ?_ rfl rfl rfl rfl rfl rfl rfl; first | with_reducible assumption | with_reducible apply State.ringEvent_sound | with_reducible apply State.onRing_sound | with_reducible apply State.takeLine_sound | with_reducible apply State.wakeDimmed_sound | with_reducible apply sound_foldl | with_reducible apply sound_foldl_fst)
    | dsimp only
    | split

theorem State.noteHead_sound {q : Base} : ∀ {s : State} a1, Sound q s → Sound q (State.noteHead s a1) := by
  intros
  unfold State.noteHead
  repeat' first
    | with_reducible assumption
    | with_reducible apply State.onRing_sound
    | with_reducible apply sound_foldl
    | with_reducible apply sound_foldl_fst
    | intro _
    | with_reducible apply sound_ite
    | with_reducible apply sound_of_fst (by assumption)
    | with_reducible apply sound_of_some (by assumption)
    | with_reducible apply sound_of_snd (by assumption)
    | with_reducible apply sound_on
    | with_reducible apply sound_getD
    | (with_reducible refine sound_mk ?_ rfl rfl rfl rfl rfl rfl rfl; first | with_reducible assumption | with_reducible apply State.onRing_sound | with_reducible apply sound_foldl | with_reducible apply sound_foldl_fst)
    | dsimp only
    | split

theorem State.writeRecord_sound {q : Base} : ∀ {s : State} a1 a2 a3, Sound q s → Sound q (State.writeRecord s a1 a2 a3) := by
  intros
  unfold State.writeRecord
  repeat' first
    | with_reducible assumption
    | with_reducible apply State.bump_sound
    | with_reducible apply State.ringEvent_sound
    | with_reducible apply State.trace_sound
    | with_reducible apply State.setRing_sound
    | with_reducible apply State.devWrite_sound
    | with_reducible apply State.emit_sound
    | with_reducible apply sound_foldl
    | with_reducible apply sound_foldl_fst
    | intro _
    | with_reducible apply sound_ite
    | with_reducible apply sound_of_fst (by assumption)
    | with_reducible apply sound_of_some (by assumption)
    | with_reducible apply sound_of_snd (by assumption)
    | with_reducible apply sound_on
    | with_reducible apply sound_getD
    | (with_reducible refine sound_mk ?_ rfl rfl rfl rfl rfl rfl rfl; first | with_reducible assumption | with_reducible apply State.bump_sound | with_reducible apply State.ringEvent_sound | with_reducible apply State.trace_sound | with_reducible apply State.setRing_sound | with_reducible apply State.devWrite_sound | with_reducible apply State.emit_sound | with_reducible apply sound_foldl | with_reducible apply sound_foldl_fst)
    | dsimp only
    | split

theorem State.writeRecords_sound {q : Base} : ∀ {s : State} a1 a2, Sound q s → Sound q (State.writeRecords s a1 a2) := by
  intros
  unfold State.writeRecords
  repeat' first
    | with_reducible assumption
    | with_reducible apply State.writeRecord_sound
    | with_reducible apply State.draw_sound
    | with_reducible apply sound_foldl
    | with_reducible apply sound_foldl_fst
    | intro _
    | with_reducible apply sound_ite
    | with_reducible apply sound_of_fst (by assumption)
    | with_reducible apply sound_of_some (by assumption)
    | with_reducible apply sound_of_snd (by assumption)
    | with_reducible apply sound_on
    | with_reducible apply sound_getD
    | (with_reducible refine sound_mk ?_ rfl rfl rfl rfl rfl rfl rfl; first | with_reducible assumption | with_reducible apply State.writeRecord_sound | with_reducible apply State.draw_sound | with_reducible apply sound_foldl | with_reducible apply sound_foldl_fst)
    | dsimp only
    | split

theorem State.putFence_sound {q : Base} : ∀ {s : State} a1 a2 a3 a4, Sound q s → Sound q (State.putFence s a1 a2 a3 a4) := by
  intros
  unfold State.putFence
  repeat' first
    | with_reducible assumption
    | with_reducible apply State.partRefused_sound
    | with_reducible apply State.wakeDimmed_sound
    | with_reducible apply State.devWrite_sound
    | with_reducible apply sound_foldl
    | with_reducible apply sound_foldl_fst
    | intro _
    | with_reducible apply sound_ite
    | with_reducible apply sound_of_fst (by assumption)
    | with_reducible apply sound_of_some (by assumption)
    | with_reducible apply sound_of_snd (by assumption)
    | with_reducible apply sound_on
    | with_reducible apply sound_getD
    | (with_reducible refine sound_mk ?_ rfl rfl rfl rfl rfl rfl rfl; first | with_reducible assumption | with_reducible apply State.partRefused_sound | with_reducible apply State.wakeDimmed_sound | with_reducible apply State.devWrite_sound | with_reducible apply sound_foldl | with_reducible apply sound_foldl_fst)
    | dsimp only
    | split

theorem State.addFence_sound {q : Base} : ∀ {s : State} a1 a2 a3 a4 a5, Sound q s → Sound q (State.addFence s a1 a2 a3 a4 a5) := by
  intros
  unfold State.addFence
  repeat' first
    | with_reducible assumption
    | with_reducible apply State.putFence_sound
    | with_reducible apply sound_foldl
    | with_reducible apply sound_foldl_fst
    | intro _
    | with_reducible apply sound_ite
    | with_reducible apply sound_of_fst (by assumption)
    | with_reducible apply sound_of_some (by assumption)
    | with_reducible apply sound_of_snd (by assumption)
    | with_reducible apply sound_on
    | with_reducible apply sound_getD
    | (with_reducible refine sound_mk ?_ rfl rfl rfl rfl rfl rfl rfl; first | with_reducible assumption | with_reducible apply State.putFence_sound | with_reducible apply sound_foldl | with_reducible apply sound_foldl_fst)
    | dsimp only
    | split

theorem State.fenceOut_sound {q : Base} : ∀ {s : State} a1, Sound q s → Sound q (State.fenceOut s a1) := by
  intros
  unfold State.fenceOut
  repeat' first
    | with_reducible assumption
    | with_reducible apply State.addFence_sound
    | with_reducible apply sound_foldl
    | with_reducible apply sound_foldl_fst
    | intro _
    | with_reducible apply sound_ite
    | with_reducible apply sound_of_fst (by assumption)
    | with_reducible apply sound_of_some (by assumption)
    | with_reducible apply sound_of_snd (by assumption)
    | with_reducible apply sound_on
    | with_reducible apply sound_getD
    | (with_reducible refine sound_mk ?_ rfl rfl rfl rfl rfl rfl rfl; first | with_reducible assumption | with_reducible apply State.addFence_sound | with_reducible apply sound_foldl | with_reducible apply sound_foldl_fst)
    | dsimp only
    | split

end Sys2Proof.Machine
end

