-- ==== Sys2Proof/Laws/KeepAdmit.lean ====
section
/-! SUPPORT. What the operations of `Machine/Admit.lean` keep: the memories in canonical form and the queue. -/

set_option linter.unusedTactic false
set_option linter.unreachableTactic false

namespace Sys2Proof.Machine

theorem State.spend_sound {q : Base} : ∀ {s : State} a1 a2 a3 a4, Sound q s → Sound q (State.spend s a1 a2 a3 a4) := by
  intros
  unfold State.spend
  repeat' first
    | with_reducible assumption
    | with_reducible apply sound_foldl
    | with_reducible apply sound_foldl_fst
    | intro _
    | with_reducible apply sound_ite
    | with_reducible apply sound_of_fst (by assumption)
    | with_reducible apply sound_of_some (by assumption)
    | with_reducible apply sound_of_snd (by assumption)
    | with_reducible apply sound_on
    | with_reducible apply sound_getD
    | (with_reducible refine sound_mk ?_ rfl rfl rfl rfl rfl rfl rfl; first | with_reducible assumption | with_reducible apply sound_foldl | with_reducible apply sound_foldl_fst)
    | dsimp only
    | split

end Sys2Proof.Machine
end

