-- ==== Sys2Proof/Laws/KeepAtomic.lean ====
section
/-! SUPPORT. What the operations of `Machine/Atomic.lean` keep: the memories in canonical form and the queue. -/

set_option linter.unusedTactic false
set_option linter.unreachableTactic false

namespace Sys2Proof.Machine

theorem State.setWord_sound {q : Base} : ∀ {s : State} a1 a2, Sound q s → Sound q (State.setWord s a1 a2) := by
  intros
  unfold State.setWord
  repeat' first
    | with_reducible assumption
    | with_reducible apply State.putPart_sound
    | with_reducible apply sound_foldl
    | with_reducible apply sound_foldl_fst
    | intro _
    | with_reducible apply sound_ite
    | with_reducible apply sound_of_fst (by assumption)
    | with_reducible apply sound_of_some (by assumption)
    | with_reducible apply sound_of_snd (by assumption)
    | with_reducible apply sound_on
    | with_reducible apply sound_getD
    | (with_reducible refine sound_mk ?_ rfl rfl rfl rfl rfl rfl rfl; first | with_reducible assumption | with_reducible apply State.putPart_sound | with_reducible apply sound_foldl | with_reducible apply sound_foldl_fst)
    | dsimp only
    | split

theorem State.heldUp_sound {q : Base} : ∀ {s : State} a1 a2, Sound q s → Sound q (State.heldUp s a1 a2) := by
  intros
  unfold State.heldUp
  repeat' first
    | with_reducible assumption
    | with_reducible apply State.bump_sound
    | with_reducible apply sound_foldl
    | with_reducible apply sound_foldl_fst
    | intro _
    | with_reducible apply sound_ite
    | with_reducible apply sound_of_fst (by assumption)
    | with_reducible apply sound_of_some (by assumption)
    | with_reducible apply sound_of_snd (by assumption)
    | with_reducible apply sound_on
    | with_reducible apply sound_getD
    | (with_reducible refine sound_mk ?_ rfl rfl rfl rfl rfl rfl rfl; first | with_reducible assumption | with_reducible apply State.bump_sound | with_reducible apply sound_foldl | with_reducible apply sound_foldl_fst)
    | dsimp only
    | split

theorem State.heldDown_sound {q : Base} : ∀ {s : State} a1 a2, Sound q s → Sound q (State.heldDown s a1 a2) := by
  intros
  unfold State.heldDown
  repeat' first
    | with_reducible assumption
    | with_reducible apply State.setFld_sound
    | with_reducible apply sound_foldl
    | with_reducible apply sound_foldl_fst
    | intro _
    | with_reducible apply sound_ite
    | with_reducible apply sound_of_fst (by assumption)
    | with_reducible apply sound_of_some (by assumption)
    | with_reducible apply sound_of_snd (by assumption)
    | with_reducible apply sound_on
    | with_reducible apply sound_getD
    | (with_reducible refine sound_mk ?_ rfl rfl rfl rfl rfl rfl rfl; first | with_reducible assumption | with_reducible apply State.setFld_sound | with_reducible apply sound_foldl | with_reducible apply sound_foldl_fst)
    | dsimp only
    | split

theorem State.returnFrame_sound {q : Base} : ∀ {s : State} a1 a2, Sound q s → Sound q (State.returnFrame s a1 a2) := by
  intros
  unfold State.returnFrame
  repeat' first
    | with_reducible assumption
    | with_reducible apply State.setWord_sound
    | with_reducible apply sound_foldl
    | with_reducible apply sound_foldl_fst
    | intro _
    | with_reducible apply sound_ite
    | with_reducible apply sound_of_fst (by assumption)
    | with_reducible apply sound_of_some (by assumption)
    | with_reducible apply sound_of_snd (by assumption)
    | with_reducible apply sound_on
    | with_reducible apply sound_getD
    | (with_reducible refine sound_mk ?_ rfl rfl rfl rfl rfl rfl rfl; first | with_reducible assumption | with_reducible apply State.setWord_sound | with_reducible apply sound_foldl | with_reducible apply sound_foldl_fst)
    | dsimp only
    | split

theorem State.splicePool_sound {q : Base} : ∀ {s : State} a1, Sound q s → Sound q (State.splicePool s a1) := by
  intros
  unfold State.splicePool
  repeat' first
    | with_reducible assumption
    | with_reducible apply State.setWord_sound
    | with_reducible apply State.heldDown_sound
    | with_reducible apply sound_foldl
    | with_reducible apply sound_foldl_fst
    | intro _
    | with_reducible apply sound_ite
    | with_reducible apply sound_of_fst (by assumption)
    | with_reducible apply sound_of_some (by assumption)
    | with_reducible apply sound_of_snd (by assumption)
    | with_reducible apply sound_on
    | with_reducible apply sound_getD
    | (with_reducible refine sound_mk ?_ rfl rfl rfl rfl rfl rfl rfl; first | with_reducible assumption | with_reducible apply State.setWord_sound | with_reducible apply State.heldDown_sound | with_reducible apply sound_foldl | with_reducible apply sound_foldl_fst)
    | dsimp only
    | split

theorem State.decideJoin_sound {q : Base} : ∀ {s : State} a1 a2, Sound q s → Sound q (State.decideJoin s a1 a2).1 := by
  intros
  unfold State.decideJoin
  repeat' first
    | with_reducible assumption
    | with_reducible apply State.heldUp_sound
    | with_reducible apply State.setWord_sound
    | with_reducible apply sound_foldl
    | with_reducible apply sound_foldl_fst
    | intro _
    | with_reducible apply sound_ite_fst
    | with_reducible apply sound_of_fst (by assumption)
    | with_reducible apply sound_of_some (by assumption)
    | with_reducible apply sound_of_snd (by assumption)
    | with_reducible apply sound_on
    | with_reducible apply sound_getD
    | (with_reducible refine sound_mk ?_ rfl rfl rfl rfl rfl rfl rfl; first | with_reducible assumption | with_reducible apply State.heldUp_sound | with_reducible apply State.setWord_sound | with_reducible apply sound_foldl | with_reducible apply sound_foldl_fst)
    | dsimp only
    | split

theorem State.setJoinHead_sound {q : Base} : ∀ {s : State} a1, Sound q s → Sound q (State.setJoinHead s a1) := by
  intros
  unfold State.setJoinHead
  repeat' first
    | with_reducible assumption
    | with_reducible apply State.putPart_sound
    | with_reducible apply sound_foldl
    | with_reducible apply sound_foldl_fst
    | intro _
    | with_reducible apply sound_ite
    | with_reducible apply sound_of_fst (by assumption)
    | with_reducible apply sound_of_some (by assumption)
    | with_reducible apply sound_of_snd (by assumption)
    | with_reducible apply sound_on
    | with_reducible apply sound_getD
    | (with_reducible refine sound_mk ?_ rfl rfl rfl rfl rfl rfl rfl; first | with_reducible assumption | with_reducible apply State.putPart_sound | with_reducible apply sound_foldl | with_reducible apply sound_foldl_fst)
    | dsimp only
    | split

theorem State.putRecord_sound {q : Base} : ∀ {s : State} a1 a2, Sound q s → Sound q (State.putRecord s a1 a2) := by
  intros
  unfold State.putRecord
  repeat' first
    | with_reducible assumption
    | with_reducible apply State.sendRequest_sound
    | with_reducible apply State.putPart_sound
    | with_reducible apply sound_foldl
    | with_reducible apply sound_foldl_fst
    | intro _
    | with_reducible apply sound_ite
    | with_reducible apply sound_of_fst (by assumption)
    | with_reducible apply sound_of_some (by assumption)
    | with_reducible apply sound_of_snd (by assumption)
    | with_reducible apply sound_on
    | with_reducible apply sound_getD
    | (with_reducible refine sound_mk ?_ rfl rfl rfl rfl rfl rfl rfl; first | with_reducible assumption | with_reducible apply State.sendRequest_sound | with_reducible apply State.putPart_sound | with_reducible apply sound_foldl | with_reducible apply sound_foldl_fst)
    | dsimp only
    | split

theorem State.acceptJoin_sound {q : Base} : ∀ {s : State} a1 a2, Sound q s → Sound q (State.acceptJoin s a1 a2) := by
  intros
  unfold State.acceptJoin
  repeat' first
    | with_reducible assumption
    | with_reducible apply State.setJoinHead_sound
    | with_reducible apply State.putRecord_sound
    | with_reducible apply sound_foldl
    | with_reducible apply sound_foldl_fst
    | intro _
    | with_reducible apply sound_ite
    | with_reducible apply sound_of_fst (by assumption)
    | with_reducible apply sound_of_some (by assumption)
    | with_reducible apply sound_of_snd (by assumption)
    | with_reducible apply sound_on
    | with_reducible apply sound_getD
    | (with_reducible refine sound_mk ?_ rfl rfl rfl rfl rfl rfl rfl; first | with_reducible assumption | with_reducible apply State.setJoinHead_sound | with_reducible apply State.putRecord_sound | with_reducible apply sound_foldl | with_reducible apply sound_foldl_fst)
    | dsimp only
    | split

theorem State.dropJoin_sound {q : Base} : ∀ {s : State} a1 a2, Sound q s → Sound q (State.dropJoin s a1 a2) := by
  intros
  unfold State.dropJoin
  repeat' first
    | with_reducible assumption
    | with_reducible apply State.setJoinHead_sound
    | with_reducible apply sound_foldl
    | with_reducible apply sound_foldl_fst
    | intro _
    | with_reducible apply sound_ite
    | with_reducible apply sound_of_fst (by assumption)
    | with_reducible apply sound_of_some (by assumption)
    | with_reducible apply sound_of_snd (by assumption)
    | with_reducible apply sound_on
    | with_reducible apply sound_getD
    | (with_reducible refine sound_mk ?_ rfl rfl rfl rfl rfl rfl rfl; first | with_reducible assumption | with_reducible apply State.setJoinHead_sound | with_reducible apply sound_foldl | with_reducible apply sound_foldl_fst)
    | dsimp only
    | split

theorem State.decideRecord_sound {q : Base} : ∀ {s : State} a1 a2 a3 a4, Sound q s → Sound q (State.decideRecord s a1 a2 a3 a4) := by
  intros
  unfold State.decideRecord
  repeat' first
    | with_reducible assumption
    | with_reducible apply State.dropJoin_sound
    | with_reducible apply State.decideJoin_sound
    | with_reducible apply State.putRecord_sound
    | with_reducible apply sound_foldl
    | with_reducible apply sound_foldl_fst
    | intro _
    | with_reducible apply sound_ite
    | with_reducible apply sound_of_fst (by assumption)
    | with_reducible apply sound_of_some (by assumption)
    | with_reducible apply sound_of_snd (by assumption)
    | with_reducible apply sound_on
    | with_reducible apply sound_getD
    | (with_reducible refine sound_mk ?_ rfl rfl rfl rfl rfl rfl rfl; first | with_reducible assumption | with_reducible apply State.dropJoin_sound | with_reducible apply State.decideJoin_sound | with_reducible apply State.putRecord_sound | with_reducible apply sound_foldl | with_reducible apply sound_foldl_fst)
    | dsimp only
    | split

theorem State.decideFront_sound {q : Base} : ∀ {s : State} a1 a2 a3, Sound q s → Sound q (State.decideFront s a1 a2 a3) := by
  intro s a1 a2 a3
  induction a3 generalizing s a1 a2 with
  | zero =>
    intros
    unfold State.decideFront
    repeat' first
      | with_reducible assumption
      | with_reducible apply State.dropJoin_sound
      | with_reducible apply State.decideRecord_sound
      | with_reducible apply State.sendRequest_sound
      | with_reducible apply State.readMem_sound
      | with_reducible apply sound_foldl
      | with_reducible apply sound_foldl_fst
      | intro _
      | with_reducible apply sound_ite
      | with_reducible apply sound_of_fst (by assumption)
      | with_reducible apply sound_of_some (by assumption)
      | with_reducible apply sound_of_snd (by assumption)
      | with_reducible apply sound_on
      | with_reducible apply sound_getD
      | (with_reducible refine sound_mk ?_ rfl rfl rfl rfl rfl rfl rfl; first | with_reducible assumption | with_reducible apply State.dropJoin_sound | with_reducible apply State.decideRecord_sound | with_reducible apply State.sendRequest_sound | with_reducible apply State.readMem_sound | with_reducible apply sound_foldl | with_reducible apply sound_foldl_fst)
      | dsimp only
      | split
  | succ n ih =>
    intros
    unfold State.decideFront
    repeat' first
      | with_reducible assumption
      | with_reducible apply ih
      | with_reducible apply State.dropJoin_sound
      | with_reducible apply State.decideRecord_sound
      | with_reducible apply State.sendRequest_sound
      | with_reducible apply State.readMem_sound
      | with_reducible apply sound_foldl
      | with_reducible apply sound_foldl_fst
      | intro _
      | with_reducible apply sound_ite
      | with_reducible apply sound_of_fst (by assumption)
      | with_reducible apply sound_of_some (by assumption)
      | with_reducible apply sound_of_snd (by assumption)
      | with_reducible apply sound_on
      | with_reducible apply sound_getD
      | (with_reducible refine sound_mk ?_ rfl rfl rfl rfl rfl rfl rfl; first | with_reducible assumption | with_reducible apply State.dropJoin_sound | with_reducible apply State.decideRecord_sound | with_reducible apply State.sendRequest_sound | with_reducible apply State.readMem_sound | with_reducible apply sound_foldl | with_reducible apply sound_foldl_fst)
      | dsimp only
      | split

theorem State.joinArrived_sound {q : Base} : ∀ {s : State} a1 a2 a3, Sound q s → Sound q (State.joinArrived s a1 a2 a3) := by
  intros
  unfold State.joinArrived
  repeat' first
    | with_reducible assumption
    | with_reducible apply State.decideFront_sound
    | with_reducible apply State.decideRecord_sound
    | with_reducible apply sound_foldl
    | with_reducible apply sound_foldl_fst
    | intro _
    | with_reducible apply sound_ite
    | with_reducible apply sound_of_fst (by assumption)
    | with_reducible apply sound_of_some (by assumption)
    | with_reducible apply sound_of_snd (by assumption)
    | with_reducible apply sound_on
    | with_reducible apply sound_getD
    | (with_reducible refine sound_mk ?_ rfl rfl rfl rfl rfl rfl rfl; first | with_reducible assumption | with_reducible apply State.decideFront_sound | with_reducible apply State.decideRecord_sound | with_reducible apply sound_foldl | with_reducible apply sound_foldl_fst)
    | dsimp only
    | split

theorem State.takeJoins_sound {q : Base} : ∀ {s : State} a1, Sound q s → Sound q (State.takeJoins s a1) := by
  intros
  unfold State.takeJoins
  repeat' first
    | with_reducible assumption
    | with_reducible apply sound_foldl
    | with_reducible apply sound_foldl_fst
    | intro _
    | with_reducible apply sound_ite
    | with_reducible apply sound_of_fst (by assumption)
    | with_reducible apply sound_of_some (by assumption)
    | with_reducible apply sound_of_snd (by assumption)
    | with_reducible apply sound_on
    | with_reducible apply sound_getD
    | (with_reducible refine sound_mk ?_ rfl rfl rfl rfl rfl rfl rfl; first | with_reducible assumption | with_reducible apply sound_foldl | with_reducible apply sound_foldl_fst)
    | dsimp only
    | split

theorem State.splicePools_sound {q : Base} : ∀ {s : State}, Sound q s → Sound q (State.splicePools s) := by
  intros
  unfold State.splicePools
  repeat' first
    | with_reducible assumption
    | with_reducible apply State.splicePool_sound
    | with_reducible apply sound_foldl
    | with_reducible apply sound_foldl_fst
    | intro _
    | with_reducible apply sound_ite
    | with_reducible apply sound_of_fst (by assumption)
    | with_reducible apply sound_of_some (by assumption)
    | with_reducible apply sound_of_snd (by assumption)
    | with_reducible apply sound_on
    | with_reducible apply sound_getD
    | (with_reducible refine sound_mk ?_ rfl rfl rfl rfl rfl rfl rfl; first | with_reducible assumption | with_reducible apply State.splicePool_sound | with_reducible apply sound_foldl | with_reducible apply sound_foldl_fst)
    | dsimp only
    | split

theorem State.decideJoins_sound {q : Base} : ∀ {s : State}, Sound q s → Sound q (State.decideJoins s) := by
  intros
  unfold State.decideJoins
  repeat' first
    | with_reducible assumption
    | with_reducible apply State.decideFront_sound
    | with_reducible apply State.takeJoins_sound
    | with_reducible apply sound_foldl
    | with_reducible apply sound_foldl_fst
    | intro _
    | with_reducible apply sound_ite
    | with_reducible apply sound_of_fst (by assumption)
    | with_reducible apply sound_of_some (by assumption)
    | with_reducible apply sound_of_snd (by assumption)
    | with_reducible apply sound_on
    | with_reducible apply sound_getD
    | (with_reducible refine sound_mk ?_ rfl rfl rfl rfl rfl rfl rfl; first | with_reducible assumption | with_reducible apply State.decideFront_sound | with_reducible apply State.takeJoins_sound | with_reducible apply sound_foldl | with_reducible apply sound_foldl_fst)
    | dsimp only
    | split

theorem State.poolNote_sound {q : Base} : ∀ {a0 : State} {a1 : State} a2 a3 a4 a5 a6, Sound q a0 → Sound q a1 → Sound q (State.poolNote a0 a1 a2 a3 a4 a5 a6) := by
  intros
  unfold State.poolNote
  repeat' first
    | with_reducible assumption
    | with_reducible apply State.returnFrame_sound
    | with_reducible apply State.heldUp_sound
    | with_reducible apply State.heldDown_sound
    | with_reducible apply State.acceptJoin_sound
    | with_reducible apply sound_foldl
    | with_reducible apply sound_foldl_fst
    | intro _
    | with_reducible apply sound_ite
    | with_reducible apply sound_of_fst (by assumption)
    | with_reducible apply sound_of_some (by assumption)
    | with_reducible apply sound_of_snd (by assumption)
    | with_reducible apply sound_on
    | with_reducible apply sound_getD
    | (with_reducible refine sound_mk ?_ rfl rfl rfl rfl rfl rfl rfl; first | with_reducible assumption | with_reducible apply State.returnFrame_sound | with_reducible apply State.heldUp_sound | with_reducible apply State.heldDown_sound | with_reducible apply State.acceptJoin_sound | with_reducible apply sound_foldl | with_reducible apply sound_foldl_fst)
    | dsimp only
    | split

theorem State.atomic_sound {q : Base} : ∀ {s : State} a1 a2 a3 a4 a5, Sound q s → Sound q (State.atomic s a1 a2 a3 a4 a5).1 := by
  intros
  unfold State.atomic
  repeat' first
    | with_reducible assumption
    | with_reducible apply State.poolNote_sound
    | with_reducible apply State.wakeDimmed_sound
    | with_reducible apply State.devWrite_sound
    | with_reducible apply sound_foldl
    | with_reducible apply sound_foldl_fst
    | intro _
    | with_reducible apply sound_ite_fst
    | with_reducible apply sound_of_fst (by assumption)
    | with_reducible apply sound_of_some (by assumption)
    | with_reducible apply sound_of_snd (by assumption)
    | with_reducible apply sound_on
    | with_reducible apply sound_getD
    | (with_reducible refine sound_mk ?_ rfl rfl rfl rfl rfl rfl rfl; first | with_reducible assumption | with_reducible apply State.poolNote_sound | with_reducible apply State.wakeDimmed_sound | with_reducible apply State.devWrite_sound | with_reducible apply sound_foldl | with_reducible apply sound_foldl_fst)
    | dsimp only
    | split

end Sys2Proof.Machine
end

