-- ==== Sys2Proof/Laws/KeepOperands.lean ====
section
/-! SUPPORT. What the operations of `Machine/Operands.lean` keep: the memories in canonical form and the queue. -/

set_option linter.unusedTactic false
set_option linter.unreachableTactic false

namespace Sys2Proof.Machine

theorem locLoad_keeps {q : Base} : ∀ a0 a1 a2 a3, Keeps q (locLoad a0 a1 a2 a3) := by
  intros
  unfold locLoad
  repeat' first
    | with_reducible assumption
    | with_reducible exact keeps_pure
    | with_reducible exact keeps_throw
    | with_reducible exact keeps_read
    | with_reducible apply keeps_get_bind
    | with_reducible exact keeps_get
    | with_reducible apply keeps_bind
    | with_reducible apply keeps_set
    | with_reducible apply keeps_modify
    | with_reducible apply keeps_forM
    | with_reducible apply keeps_mapM
    | with_reducible apply keeps_foldlM
    | with_reducible apply keeps_forIn
    | with_reducible apply keeps_tryCatch
    | with_reducible apply keeps_map
    | with_reducible apply keeps_seq
    | with_reducible apply stopWith_keeps
    | with_reducible apply sramLoad_keeps
    | with_reducible apply sound_foldl
    | with_reducible apply sound_foldl_fst
    | intro _
    | with_reducible apply keeps_ite
    | with_reducible apply sound_of_fst (by assumption)
    | with_reducible apply sound_of_some (by assumption)
    | with_reducible apply sound_of_snd (by assumption)
    | with_reducible apply sound_on
    | with_reducible apply sound_getD
    | (with_reducible refine sound_mk ?_ rfl rfl rfl rfl rfl rfl rfl; first | with_reducible assumption | with_reducible apply stopWith_keeps | with_reducible apply sramLoad_keeps | with_reducible apply sound_foldl | with_reducible apply sound_foldl_fst)
    | dsimp only
    | split

theorem locStore_keeps {q : Base} : ∀ a0 a1 a2 a3, Keeps q (locStore a0 a1 a2 a3) := by
  intros
  unfold locStore
  repeat' first
    | with_reducible assumption
    | with_reducible exact keeps_pure
    | with_reducible exact keeps_throw
    | with_reducible exact keeps_read
    | with_reducible apply keeps_get_bind
    | with_reducible exact keeps_get
    | with_reducible apply keeps_bind
    | with_reducible apply keeps_set
    | with_reducible apply keeps_modify
    | with_reducible apply keeps_forM
    | with_reducible apply keeps_mapM
    | with_reducible apply keeps_foldlM
    | with_reducible apply keeps_forIn
    | with_reducible apply keeps_tryCatch
    | with_reducible apply keeps_map
    | with_reducible apply keeps_seq
    | with_reducible apply stopWith_keeps
    | with_reducible apply sramStore_keeps
    | with_reducible apply sound_foldl
    | with_reducible apply sound_foldl_fst
    | intro _
    | with_reducible apply keeps_ite
    | with_reducible apply sound_of_fst (by assumption)
    | with_reducible apply sound_of_some (by assumption)
    | with_reducible apply sound_of_snd (by assumption)
    | with_reducible apply sound_on
    | with_reducible apply sound_getD
    | (with_reducible refine sound_mk ?_ rfl rfl rfl rfl rfl rfl rfl; first | with_reducible assumption | with_reducible apply stopWith_keeps | with_reducible apply sramStore_keeps | with_reducible apply sound_foldl | with_reducible apply sound_foldl_fst)
    | dsimp only
    | split

theorem planned_keeps {q : Base} : ∀ a0 a1 a2 a3 a4, Keeps q (planned a0 a1 a2 a3 a4) := by
  intros
  unfold planned
  repeat' first
    | with_reducible assumption
    | with_reducible exact keeps_pure
    | with_reducible exact keeps_throw
    | with_reducible exact keeps_read
    | with_reducible apply keeps_get_bind
    | with_reducible exact keeps_get
    | with_reducible apply keeps_bind
    | with_reducible apply keeps_set
    | with_reducible apply keeps_modify
    | with_reducible apply keeps_forM
    | with_reducible apply keeps_mapM
    | with_reducible apply keeps_foldlM
    | with_reducible apply keeps_forIn
    | with_reducible apply keeps_tryCatch
    | with_reducible apply keeps_map
    | with_reducible apply keeps_seq
    | with_reducible apply stopWith_keeps
    | with_reducible apply sound_foldl
    | with_reducible apply sound_foldl_fst
    | intro _
    | with_reducible apply keeps_ite
    | with_reducible apply sound_of_fst (by assumption)
    | with_reducible apply sound_of_some (by assumption)
    | with_reducible apply sound_of_snd (by assumption)
    | with_reducible apply sound_on
    | with_reducible apply sound_getD
    | (with_reducible refine sound_mk ?_ rfl rfl rfl rfl rfl rfl rfl; first | with_reducible assumption | with_reducible apply stopWith_keeps | with_reducible apply sound_foldl | with_reducible apply sound_foldl_fst)
    | dsimp only
    | split

theorem shapeEntry_keeps {q : Base} : ∀ a0 a1, Keeps q (shapeEntry a0 a1) := by
  intros
  unfold shapeEntry
  repeat' first
    | with_reducible assumption
    | with_reducible exact keeps_pure
    | with_reducible exact keeps_throw
    | with_reducible exact keeps_read
    | with_reducible apply keeps_get_bind
    | with_reducible exact keeps_get
    | with_reducible apply keeps_bind
    | with_reducible apply keeps_set
    | with_reducible apply keeps_modify
    | with_reducible apply keeps_forM
    | with_reducible apply keeps_mapM
    | with_reducible apply keeps_foldlM
    | with_reducible apply keeps_forIn
    | with_reducible apply keeps_tryCatch
    | with_reducible apply keeps_map
    | with_reducible apply keeps_seq
    | with_reducible apply locLoad_keeps
    | with_reducible apply once_keeps
    | with_reducible apply sound_foldl
    | with_reducible apply sound_foldl_fst
    | intro _
    | with_reducible apply keeps_ite
    | with_reducible apply sound_of_fst (by assumption)
    | with_reducible apply sound_of_some (by assumption)
    | with_reducible apply sound_of_snd (by assumption)
    | with_reducible apply sound_on
    | with_reducible apply sound_getD
    | (with_reducible refine sound_mk ?_ rfl rfl rfl rfl rfl rfl rfl; first | with_reducible assumption | with_reducible apply locLoad_keeps | with_reducible apply once_keeps | with_reducible apply sound_foldl | with_reducible apply sound_foldl_fst)
    | dsimp only
    | split

theorem runTime_keeps {q : Base} : ∀ a0 a1 a2 a3, Keeps q (runTime a0 a1 a2 a3) := by
  intros
  unfold runTime
  repeat' first
    | with_reducible assumption
    | with_reducible exact keeps_pure
    | with_reducible exact keeps_throw
    | with_reducible exact keeps_read
    | with_reducible apply keeps_get_bind
    | with_reducible exact keeps_get
    | with_reducible apply keeps_bind
    | with_reducible apply keeps_set
    | with_reducible apply keeps_modify
    | with_reducible apply keeps_forM
    | with_reducible apply keeps_mapM
    | with_reducible apply keeps_foldlM
    | with_reducible apply keeps_forIn
    | with_reducible apply keeps_tryCatch
    | with_reducible apply keeps_map
    | with_reducible apply keeps_seq
    | with_reducible apply require_keeps
    | with_reducible apply shapeEntry_keeps
    | with_reducible apply sound_foldl
    | with_reducible apply sound_foldl_fst
    | intro _
    | with_reducible apply keeps_ite
    | with_reducible apply sound_of_fst (by assumption)
    | with_reducible apply sound_of_some (by assumption)
    | with_reducible apply sound_of_snd (by assumption)
    | with_reducible apply sound_on
    | with_reducible apply sound_getD
    | (with_reducible refine sound_mk ?_ rfl rfl rfl rfl rfl rfl rfl; first | with_reducible assumption | with_reducible apply require_keeps | with_reducible apply shapeEntry_keeps | with_reducible apply sound_foldl | with_reducible apply sound_foldl_fst)
    | dsimp only
    | split

theorem refuseFormats_keeps {q : Base} : ∀ a0 a1, Keeps q (refuseFormats a0 a1) := by
  intros
  unfold refuseFormats
  repeat' first
    | with_reducible assumption
    | with_reducible exact keeps_pure
    | with_reducible exact keeps_throw
    | with_reducible exact keeps_read
    | with_reducible apply keeps_get_bind
    | with_reducible exact keeps_get
    | with_reducible apply keeps_bind
    | with_reducible apply keeps_set
    | with_reducible apply keeps_modify
    | with_reducible apply keeps_forM
    | with_reducible apply keeps_mapM
    | with_reducible apply keeps_foldlM
    | with_reducible apply keeps_forIn
    | with_reducible apply keeps_tryCatch
    | with_reducible apply keeps_map
    | with_reducible apply keeps_seq
    | with_reducible apply require_keeps
    | with_reducible apply sound_foldl
    | with_reducible apply sound_foldl_fst
    | intro _
    | with_reducible apply keeps_ite
    | with_reducible apply sound_of_fst (by assumption)
    | with_reducible apply sound_of_some (by assumption)
    | with_reducible apply sound_of_snd (by assumption)
    | with_reducible apply sound_on
    | with_reducible apply sound_getD
    | (with_reducible refine sound_mk ?_ rfl rfl rfl rfl rfl rfl rfl; first | with_reducible assumption | with_reducible apply require_keeps | with_reducible apply sound_foldl | with_reducible apply sound_foldl_fst)
    | dsimp only
    | split

theorem countPrec_keeps {q : Base} : ∀ a0, Keeps q (countPrec a0) := by
  intros
  unfold countPrec
  repeat' first
    | with_reducible assumption
    | with_reducible exact keeps_pure
    | with_reducible exact keeps_throw
    | with_reducible exact keeps_read
    | with_reducible apply keeps_get_bind
    | with_reducible exact keeps_get
    | with_reducible apply keeps_bind
    | with_reducible apply keeps_set
    | with_reducible apply keeps_modify
    | with_reducible apply keeps_forM
    | with_reducible apply keeps_mapM
    | with_reducible apply keeps_foldlM
    | with_reducible apply keeps_forIn
    | with_reducible apply keeps_tryCatch
    | with_reducible apply keeps_map
    | with_reducible apply keeps_seq
    | with_reducible apply modifyItem_keeps
    | with_reducible apply sound_foldl
    | with_reducible apply sound_foldl_fst
    | intro _
    | with_reducible apply keeps_ite
    | with_reducible apply sound_of_fst (by assumption)
    | with_reducible apply sound_of_some (by assumption)
    | with_reducible apply sound_of_snd (by assumption)
    | with_reducible apply sound_on
    | with_reducible apply sound_getD
    | (with_reducible refine sound_mk ?_ rfl rfl rfl rfl rfl rfl rfl; first | with_reducible assumption | with_reducible apply modifyItem_keeps | with_reducible apply sound_foldl | with_reducible apply sound_foldl_fst)
    | dsimp only
    | split

theorem doneRows_keeps {q : Base} : ∀ a0 a1 a2, Keeps q (doneRows a0 a1 a2) := by
  intros
  unfold doneRows
  repeat' first
    | with_reducible assumption
    | with_reducible exact keeps_pure
    | with_reducible exact keeps_throw
    | with_reducible exact keeps_read
    | with_reducible apply keeps_get_bind
    | with_reducible exact keeps_get
    | with_reducible apply keeps_bind
    | with_reducible apply keeps_set
    | with_reducible apply keeps_modify
    | with_reducible apply keeps_forM
    | with_reducible apply keeps_mapM
    | with_reducible apply keeps_foldlM
    | with_reducible apply keeps_forIn
    | with_reducible apply keeps_tryCatch
    | with_reducible apply keeps_map
    | with_reducible apply keeps_seq
    | with_reducible apply theItem_keeps
    | with_reducible apply sound_foldl
    | with_reducible apply sound_foldl_fst
    | intro _
    | with_reducible apply keeps_ite
    | with_reducible apply sound_of_fst (by assumption)
    | with_reducible apply sound_of_some (by assumption)
    | with_reducible apply sound_of_snd (by assumption)
    | with_reducible apply sound_on
    | with_reducible apply sound_getD
    | (with_reducible refine sound_mk ?_ rfl rfl rfl rfl rfl rfl rfl; first | with_reducible assumption | with_reducible apply theItem_keeps | with_reducible apply sound_foldl | with_reducible apply sound_foldl_fst)
    | dsimp only
    | split

theorem groupEntries_keeps {q : Base} : ∀ a0 a1 a2, Keeps q (groupEntries a0 a1 a2) := by
  intros
  unfold groupEntries
  repeat' first
    | with_reducible assumption
    | with_reducible exact keeps_pure
    | with_reducible exact keeps_throw
    | with_reducible exact keeps_read
    | with_reducible apply keeps_get_bind
    | with_reducible exact keeps_get
    | with_reducible apply keeps_bind
    | with_reducible apply keeps_set
    | with_reducible apply keeps_modify
    | with_reducible apply keeps_forM
    | with_reducible apply keeps_mapM
    | with_reducible apply keeps_foldlM
    | with_reducible apply keeps_forIn
    | with_reducible apply keeps_tryCatch
    | with_reducible apply keeps_map
    | with_reducible apply keeps_seq
    | with_reducible apply require_keeps
    | with_reducible apply load_keeps
    | with_reducible apply sound_foldl
    | with_reducible apply sound_foldl_fst
    | intro _
    | with_reducible apply keeps_ite
    | with_reducible apply sound_of_fst (by assumption)
    | with_reducible apply sound_of_some (by assumption)
    | with_reducible apply sound_of_snd (by assumption)
    | with_reducible apply sound_on
    | with_reducible apply sound_getD
    | (with_reducible refine sound_mk ?_ rfl rfl rfl rfl rfl rfl rfl; first | with_reducible assumption | with_reducible apply require_keeps | with_reducible apply load_keeps | with_reducible apply sound_foldl | with_reducible apply sound_foldl_fst)
    | dsimp only
    | split

theorem readLineValues_keeps {q : Base} : ∀ a0 a1 a2, Keeps q (readLineValues a0 a1 a2) := by
  intros
  unfold readLineValues
  repeat' first
    | with_reducible assumption
    | with_reducible exact keeps_pure
    | with_reducible exact keeps_throw
    | with_reducible exact keeps_read
    | with_reducible apply keeps_get_bind
    | with_reducible exact keeps_get
    | with_reducible apply keeps_bind
    | with_reducible apply keeps_set
    | with_reducible apply keeps_modify
    | with_reducible apply keeps_forM
    | with_reducible apply keeps_mapM
    | with_reducible apply keeps_foldlM
    | with_reducible apply keeps_forIn
    | with_reducible apply keeps_tryCatch
    | with_reducible apply keeps_map
    | with_reducible apply keeps_seq
    | with_reducible apply groupEntries_keeps
    | with_reducible apply require_keeps
    | with_reducible apply load_keeps
    | with_reducible apply sound_foldl
    | with_reducible apply sound_foldl_fst
    | intro _
    | with_reducible apply keeps_ite
    | with_reducible apply sound_of_fst (by assumption)
    | with_reducible apply sound_of_some (by assumption)
    | with_reducible apply sound_of_snd (by assumption)
    | with_reducible apply sound_on
    | with_reducible apply sound_getD
    | (with_reducible refine sound_mk ?_ rfl rfl rfl rfl rfl rfl rfl; first | with_reducible assumption | with_reducible apply groupEntries_keeps | with_reducible apply require_keeps | with_reducible apply load_keeps | with_reducible apply sound_foldl | with_reducible apply sound_foldl_fst)
    | dsimp only
    | split

theorem readLines_keeps {q : Base} : ∀ a0 a1 a2 a3, Keeps q (readLines a0 a1 a2 a3) := by
  intro a0 a1 a2 a3
  induction a2 generalizing a0 a1 a3 with
  | zero =>
    intros
    unfold readLines
    repeat' first
      | with_reducible assumption
      | with_reducible exact keeps_pure
      | with_reducible exact keeps_throw
      | with_reducible exact keeps_read
      | with_reducible apply keeps_get_bind
      | with_reducible exact keeps_get
      | with_reducible apply keeps_bind
      | with_reducible apply keeps_set
      | with_reducible apply keeps_modify
      | with_reducible apply keeps_forM
      | with_reducible apply keeps_mapM
      | with_reducible apply keeps_foldlM
      | with_reducible apply keeps_forIn
      | with_reducible apply keeps_tryCatch
      | with_reducible apply keeps_map
      | with_reducible apply keeps_seq
      | with_reducible apply readLineValues_keeps
      | with_reducible apply sound_foldl
      | with_reducible apply sound_foldl_fst
      | intro _
      | with_reducible apply keeps_ite
      | with_reducible apply sound_of_fst (by assumption)
      | with_reducible apply sound_of_some (by assumption)
      | with_reducible apply sound_of_snd (by assumption)
      | with_reducible apply sound_on
      | with_reducible apply sound_getD
      | (with_reducible refine sound_mk ?_ rfl rfl rfl rfl rfl rfl rfl; first | with_reducible assumption | with_reducible apply readLineValues_keeps | with_reducible apply sound_foldl | with_reducible apply sound_foldl_fst)
      | dsimp only
      | split
  | succ n ih =>
    intros
    unfold readLines
    repeat' first
      | with_reducible assumption
      | with_reducible apply ih
      | with_reducible exact keeps_pure
      | with_reducible exact keeps_throw
      | with_reducible exact keeps_read
      | with_reducible apply keeps_get_bind
      | with_reducible exact keeps_get
      | with_reducible apply keeps_bind
      | with_reducible apply keeps_set
      | with_reducible apply keeps_modify
      | with_reducible apply keeps_forM
      | with_reducible apply keeps_mapM
      | with_reducible apply keeps_foldlM
      | with_reducible apply keeps_forIn
      | with_reducible apply keeps_tryCatch
      | with_reducible apply keeps_map
      | with_reducible apply keeps_seq
      | with_reducible apply readLineValues_keeps
      | with_reducible apply sound_foldl
      | with_reducible apply sound_foldl_fst
      | intro _
      | with_reducible apply keeps_ite
      | with_reducible apply sound_of_fst (by assumption)
      | with_reducible apply sound_of_some (by assumption)
      | with_reducible apply sound_of_snd (by assumption)
      | with_reducible apply sound_on
      | with_reducible apply sound_getD
      | (with_reducible refine sound_mk ?_ rfl rfl rfl rfl rfl rfl rfl; first | with_reducible assumption | with_reducible apply readLineValues_keeps | with_reducible apply sound_foldl | with_reducible apply sound_foldl_fst)
      | dsimp only
      | split

theorem readPart_keeps {q : Base} : ∀ a0 a1 a2 a3 a4 a5 a6 a7, Keeps q (readPart a0 a1 a2 a3 a4 a5 a6 a7) := by
  intros
  unfold readPart
  repeat' first
    | with_reducible assumption
    | with_reducible exact keeps_pure
    | with_reducible exact keeps_throw
    | with_reducible exact keeps_read
    | with_reducible apply keeps_get_bind
    | with_reducible exact keeps_get
    | with_reducible apply keeps_bind
    | with_reducible apply keeps_set
    | with_reducible apply keeps_modify
    | with_reducible apply keeps_forM
    | with_reducible apply keeps_mapM
    | with_reducible apply keeps_foldlM
    | with_reducible apply keeps_forIn
    | with_reducible apply keeps_tryCatch
    | with_reducible apply keeps_map
    | with_reducible apply keeps_seq
    | with_reducible apply locLoad_keeps
    | with_reducible apply readLines_keeps
    | with_reducible apply sound_foldl
    | with_reducible apply sound_foldl_fst
    | intro _
    | with_reducible apply keeps_ite
    | with_reducible apply sound_of_fst (by assumption)
    | with_reducible apply sound_of_some (by assumption)
    | with_reducible apply sound_of_snd (by assumption)
    | with_reducible apply sound_on
    | with_reducible apply sound_getD
    | (with_reducible refine sound_mk ?_ rfl rfl rfl rfl rfl rfl rfl; first | with_reducible assumption | with_reducible apply locLoad_keeps | with_reducible apply readLines_keeps | with_reducible apply sound_foldl | with_reducible apply sound_foldl_fst)
    | dsimp only
    | split

theorem readRow_keeps {q : Base} : ∀ a0 a1 a2 a3 a4 a5, Keeps q (readRow a0 a1 a2 a3 a4 a5) := by
  intros
  unfold readRow
  repeat' first
    | with_reducible assumption
    | with_reducible exact keeps_pure
    | with_reducible exact keeps_throw
    | with_reducible exact keeps_read
    | with_reducible apply keeps_get_bind
    | with_reducible exact keeps_get
    | with_reducible apply keeps_bind
    | with_reducible apply keeps_set
    | with_reducible apply keeps_modify
    | with_reducible apply keeps_forM
    | with_reducible apply keeps_mapM
    | with_reducible apply keeps_foldlM
    | with_reducible apply keeps_forIn
    | with_reducible apply keeps_tryCatch
    | with_reducible apply keeps_map
    | with_reducible apply keeps_seq
    | with_reducible apply readPart_keeps
    | with_reducible apply sound_foldl
    | with_reducible apply sound_foldl_fst
    | intro _
    | with_reducible apply keeps_ite
    | with_reducible apply sound_of_fst (by assumption)
    | with_reducible apply sound_of_some (by assumption)
    | with_reducible apply sound_of_snd (by assumption)
    | with_reducible apply sound_on
    | with_reducible apply sound_getD
    | (with_reducible refine sound_mk ?_ rfl rfl rfl rfl rfl rfl rfl; first | with_reducible assumption | with_reducible apply readPart_keeps | with_reducible apply sound_foldl | with_reducible apply sound_foldl_fst)
    | dsimp only
    | split

theorem readRows_keeps {q : Base} : ∀ a0 a1 a2 a3 a4 a5, Keeps q (readRows a0 a1 a2 a3 a4 a5) := by
  intros
  unfold readRows
  repeat' first
    | with_reducible assumption
    | with_reducible exact keeps_pure
    | with_reducible exact keeps_throw
    | with_reducible exact keeps_read
    | with_reducible apply keeps_get_bind
    | with_reducible exact keeps_get
    | with_reducible apply keeps_bind
    | with_reducible apply keeps_set
    | with_reducible apply keeps_modify
    | with_reducible apply keeps_forM
    | with_reducible apply keeps_mapM
    | with_reducible apply keeps_foldlM
    | with_reducible apply keeps_forIn
    | with_reducible apply keeps_tryCatch
    | with_reducible apply keeps_map
    | with_reducible apply keeps_seq
    | with_reducible apply readRow_keeps
    | with_reducible apply sound_foldl
    | with_reducible apply sound_foldl_fst
    | intro _
    | with_reducible apply keeps_ite
    | with_reducible apply sound_of_fst (by assumption)
    | with_reducible apply sound_of_some (by assumption)
    | with_reducible apply sound_of_snd (by assumption)
    | with_reducible apply sound_on
    | with_reducible apply sound_getD
    | (with_reducible refine sound_mk ?_ rfl rfl rfl rfl rfl rfl rfl; first | with_reducible assumption | with_reducible apply readRow_keeps | with_reducible apply sound_foldl | with_reducible apply sound_foldl_fst)
    | dsimp only
    | split

theorem State.reserveEvent_sound {q : Base} : ∀ {s : State} a1, Sound q s → Sound q (State.reserveEvent s a1) := by
  intros
  unfold State.reserveEvent
  repeat' first
    | with_reducible assumption
    | with_reducible apply State.event_sound
    | with_reducible apply sound_foldl
    | with_reducible apply sound_foldl_fst
    | intro _
    | with_reducible apply sound_ite
    | with_reducible apply sound_of_fst (by assumption)
    | with_reducible apply sound_of_some (by assumption)
    | with_reducible apply sound_of_snd (by assumption)
    | with_reducible apply sound_on
    | with_reducible apply sound_getD
    | (with_reducible refine sound_mk ?_ rfl rfl rfl rfl rfl rfl rfl; first | with_reducible assumption | with_reducible apply State.event_sound | with_reducible apply sound_foldl | with_reducible apply sound_foldl_fst)
    | dsimp only
    | split

theorem takeSlot_keeps {q : Base} : Keeps q takeSlot := by
  intros
  unfold takeSlot
  repeat' first
    | with_reducible assumption
    | with_reducible exact keeps_pure
    | with_reducible exact keeps_throw
    | with_reducible exact keeps_read
    | with_reducible apply keeps_get_bind
    | with_reducible exact keeps_get
    | with_reducible apply keeps_bind
    | with_reducible apply keeps_set
    | with_reducible apply keeps_modify
    | with_reducible apply keeps_forM
    | with_reducible apply keeps_mapM
    | with_reducible apply keeps_foldlM
    | with_reducible apply keeps_forIn
    | with_reducible apply keeps_tryCatch
    | with_reducible apply keeps_map
    | with_reducible apply keeps_seq
    | with_reducible apply State.reserveEvent_sound
    | with_reducible apply store_keeps
    | with_reducible apply load_keeps
    | with_reducible apply sound_foldl
    | with_reducible apply sound_foldl_fst
    | intro _
    | with_reducible apply keeps_ite
    | with_reducible apply sound_of_fst (by assumption)
    | with_reducible apply sound_of_some (by assumption)
    | with_reducible apply sound_of_snd (by assumption)
    | with_reducible apply sound_on
    | with_reducible apply sound_getD
    | (with_reducible refine sound_mk ?_ rfl rfl rfl rfl rfl rfl rfl; first | with_reducible assumption | with_reducible apply State.reserveEvent_sound | with_reducible apply store_keeps | with_reducible apply load_keeps | with_reducible apply sound_foldl | with_reducible apply sound_foldl_fst)
    | dsimp only
    | split

theorem countDenied_keeps {q : Base} : Keeps q countDenied := by
  intros
  unfold countDenied
  repeat' first
    | with_reducible assumption
    | with_reducible exact keeps_pure
    | with_reducible exact keeps_throw
    | with_reducible exact keeps_read
    | with_reducible apply keeps_get_bind
    | with_reducible exact keeps_get
    | with_reducible apply keeps_bind
    | with_reducible apply keeps_set
    | with_reducible apply keeps_modify
    | with_reducible apply keeps_forM
    | with_reducible apply keeps_mapM
    | with_reducible apply keeps_foldlM
    | with_reducible apply keeps_forIn
    | with_reducible apply keeps_tryCatch
    | with_reducible apply keeps_map
    | with_reducible apply keeps_seq
    | with_reducible apply store_keeps
    | with_reducible apply load_keeps
    | with_reducible apply sound_foldl
    | with_reducible apply sound_foldl_fst
    | intro _
    | with_reducible apply keeps_ite
    | with_reducible apply sound_of_fst (by assumption)
    | with_reducible apply sound_of_some (by assumption)
    | with_reducible apply sound_of_snd (by assumption)
    | with_reducible apply sound_on
    | with_reducible apply sound_getD
    | (with_reducible refine sound_mk ?_ rfl rfl rfl rfl rfl rfl rfl; first | with_reducible assumption | with_reducible apply store_keeps | with_reducible apply load_keeps | with_reducible apply sound_foldl | with_reducible apply sound_foldl_fst)
    | dsimp only
    | split

theorem raiseUsed_keeps {q : Base} : ∀ a0 a1, Keeps q (raiseUsed a0 a1) := by
  intro a0 a1
  induction a1 generalizing a0 with
  | zero =>
    intros
    unfold raiseUsed
    repeat' first
      | with_reducible assumption
      | with_reducible exact keeps_pure
      | with_reducible exact keeps_throw
      | with_reducible exact keeps_read
      | with_reducible apply keeps_get_bind
      | with_reducible exact keeps_get
      | with_reducible apply keeps_bind
      | with_reducible apply keeps_set
      | with_reducible apply keeps_modify
      | with_reducible apply keeps_forM
      | with_reducible apply keeps_mapM
      | with_reducible apply keeps_foldlM
      | with_reducible apply keeps_forIn
      | with_reducible apply keeps_tryCatch
      | with_reducible apply keeps_map
      | with_reducible apply keeps_seq
      | with_reducible apply freshNat_keeps
      | with_reducible apply remoteAtomic_keeps
      | with_reducible apply sound_foldl
      | with_reducible apply sound_foldl_fst
      | intro _
      | with_reducible apply keeps_ite
      | with_reducible apply sound_of_fst (by assumption)
      | with_reducible apply sound_of_some (by assumption)
      | with_reducible apply sound_of_snd (by assumption)
      | with_reducible apply sound_on
      | with_reducible apply sound_getD
      | (with_reducible refine sound_mk ?_ rfl rfl rfl rfl rfl rfl rfl; first | with_reducible assumption | with_reducible apply freshNat_keeps | with_reducible apply remoteAtomic_keeps | with_reducible apply sound_foldl | with_reducible apply sound_foldl_fst)
      | dsimp only
      | split
  | succ n ih =>
    intros
    unfold raiseUsed
    repeat' first
      | with_reducible assumption
      | with_reducible apply ih
      | with_reducible exact keeps_pure
      | with_reducible exact keeps_throw
      | with_reducible exact keeps_read
      | with_reducible apply keeps_get_bind
      | with_reducible exact keeps_get
      | with_reducible apply keeps_bind
      | with_reducible apply keeps_set
      | with_reducible apply keeps_modify
      | with_reducible apply keeps_forM
      | with_reducible apply keeps_mapM
      | with_reducible apply keeps_foldlM
      | with_reducible apply keeps_forIn
      | with_reducible apply keeps_tryCatch
      | with_reducible apply keeps_map
      | with_reducible apply keeps_seq
      | with_reducible apply freshNat_keeps
      | with_reducible apply remoteAtomic_keeps
      | with_reducible apply sound_foldl
      | with_reducible apply sound_foldl_fst
      | intro _
      | with_reducible apply keeps_ite
      | with_reducible apply sound_of_fst (by assumption)
      | with_reducible apply sound_of_some (by assumption)
      | with_reducible apply sound_of_snd (by assumption)
      | with_reducible apply sound_on
      | with_reducible apply sound_getD
      | (with_reducible refine sound_mk ?_ rfl rfl rfl rfl rfl rfl rfl; first | with_reducible assumption | with_reducible apply freshNat_keeps | with_reducible apply remoteAtomic_keeps | with_reducible apply sound_foldl | with_reducible apply sound_foldl_fst)
      | dsimp only
      | split

theorem takeGroup_keeps {q : Base} : ∀ a0, Keeps q (takeGroup a0) := by
  intros
  unfold takeGroup
  repeat' first
    | with_reducible assumption
    | with_reducible exact keeps_pure
    | with_reducible exact keeps_throw
    | with_reducible exact keeps_read
    | with_reducible apply keeps_get_bind
    | with_reducible exact keeps_get
    | with_reducible apply keeps_bind
    | with_reducible apply keeps_set
    | with_reducible apply keeps_modify
    | with_reducible apply keeps_forM
    | with_reducible apply keeps_mapM
    | with_reducible apply keeps_foldlM
    | with_reducible apply keeps_forIn
    | with_reducible apply keeps_tryCatch
    | with_reducible apply keeps_map
    | with_reducible apply keeps_seq
    | with_reducible apply raiseUsed_keeps
    | with_reducible apply store_keeps
    | with_reducible apply checkWrite_keeps
    | with_reducible apply load_keeps
    | with_reducible apply sound_foldl
    | with_reducible apply sound_foldl_fst
    | intro _
    | with_reducible apply keeps_ite
    | with_reducible apply sound_of_fst (by assumption)
    | with_reducible apply sound_of_some (by assumption)
    | with_reducible apply sound_of_snd (by assumption)
    | with_reducible apply sound_on
    | with_reducible apply sound_getD
    | (with_reducible refine sound_mk ?_ rfl rfl rfl rfl rfl rfl rfl; first | with_reducible assumption | with_reducible apply raiseUsed_keeps | with_reducible apply store_keeps | with_reducible apply checkWrite_keeps | with_reducible apply load_keeps | with_reducible apply sound_foldl | with_reducible apply sound_foldl_fst)
    | dsimp only
    | split

theorem denyLine_keeps {q : Base} : ∀ a0 a1 a2, Keeps q (denyLine a0 a1 a2) := by
  intros
  unfold denyLine
  repeat' first
    | with_reducible assumption
    | with_reducible exact keeps_pure
    | with_reducible exact keeps_throw
    | with_reducible exact keeps_read
    | with_reducible apply keeps_get_bind
    | with_reducible exact keeps_get
    | with_reducible apply keeps_bind
    | with_reducible apply keeps_set
    | with_reducible apply keeps_modify
    | with_reducible apply keeps_forM
    | with_reducible apply keeps_mapM
    | with_reducible apply keeps_foldlM
    | with_reducible apply keeps_forIn
    | with_reducible apply keeps_tryCatch
    | with_reducible apply keeps_map
    | with_reducible apply keeps_seq
    | with_reducible apply countPrec_keeps
    | with_reducible apply countDenied_keeps
    | with_reducible apply sound_foldl
    | with_reducible apply sound_foldl_fst
    | intro _
    | with_reducible apply keeps_ite
    | with_reducible apply sound_of_fst (by assumption)
    | with_reducible apply sound_of_some (by assumption)
    | with_reducible apply sound_of_snd (by assumption)
    | with_reducible apply sound_on
    | with_reducible apply sound_getD
    | (with_reducible refine sound_mk ?_ rfl rfl rfl rfl rfl rfl rfl; first | with_reducible assumption | with_reducible apply countPrec_keeps | with_reducible apply countDenied_keeps | with_reducible apply sound_foldl | with_reducible apply sound_foldl_fst)
    | dsimp only
    | split

theorem widenLine_keeps {q : Base} : ∀ a0 a1 a2, Keeps q (widenLine a0 a1 a2) := by
  intros
  unfold widenLine
  repeat' first
    | with_reducible assumption
    | with_reducible exact keeps_pure
    | with_reducible exact keeps_throw
    | with_reducible exact keeps_read
    | with_reducible apply keeps_get_bind
    | with_reducible exact keeps_get
    | with_reducible apply keeps_bind
    | with_reducible apply keeps_set
    | with_reducible apply keeps_modify
    | with_reducible apply keeps_forM
    | with_reducible apply keeps_mapM
    | with_reducible apply keeps_foldlM
    | with_reducible apply keeps_forIn
    | with_reducible apply keeps_tryCatch
    | with_reducible apply keeps_map
    | with_reducible apply keeps_seq
    | with_reducible apply countPrec_keeps
    | with_reducible apply takeSlot_keeps
    | with_reducible apply store_keeps
    | with_reducible apply denyLine_keeps
    | with_reducible apply sound_foldl
    | with_reducible apply sound_foldl_fst
    | intro _
    | with_reducible apply keeps_ite
    | with_reducible apply sound_of_fst (by assumption)
    | with_reducible apply sound_of_some (by assumption)
    | with_reducible apply sound_of_snd (by assumption)
    | with_reducible apply sound_on
    | with_reducible apply sound_getD
    | (with_reducible refine sound_mk ?_ rfl rfl rfl rfl rfl rfl rfl; first | with_reducible assumption | with_reducible apply countPrec_keeps | with_reducible apply takeSlot_keeps | with_reducible apply store_keeps | with_reducible apply denyLine_keeps | with_reducible apply sound_foldl | with_reducible apply sound_foldl_fst)
    | dsimp only
    | split

theorem writeLine_keeps {q : Base} : ∀ a0 a1 a2 a3, Keeps q (writeLine a0 a1 a2 a3) := by
  intros
  unfold writeLine
  repeat' first
    | with_reducible assumption
    | with_reducible exact keeps_pure
    | with_reducible exact keeps_throw
    | with_reducible exact keeps_read
    | with_reducible apply keeps_get_bind
    | with_reducible exact keeps_get
    | with_reducible apply keeps_bind
    | with_reducible apply keeps_set
    | with_reducible apply keeps_modify
    | with_reducible apply keeps_forM
    | with_reducible apply keeps_mapM
    | with_reducible apply keeps_foldlM
    | with_reducible apply keeps_forIn
    | with_reducible apply keeps_tryCatch
    | with_reducible apply keeps_map
    | with_reducible apply keeps_seq
    | with_reducible apply countPrec_keeps
    | with_reducible apply takeGroup_keeps
    | with_reducible apply store_keeps
    | with_reducible apply widenLine_keeps
    | with_reducible apply sound_foldl
    | with_reducible apply sound_foldl_fst
    | intro _
    | with_reducible apply keeps_ite
    | with_reducible apply sound_of_fst (by assumption)
    | with_reducible apply sound_of_some (by assumption)
    | with_reducible apply sound_of_snd (by assumption)
    | with_reducible apply sound_on
    | with_reducible apply sound_getD
    | (with_reducible refine sound_mk ?_ rfl rfl rfl rfl rfl rfl rfl; first | with_reducible assumption | with_reducible apply countPrec_keeps | with_reducible apply takeGroup_keeps | with_reducible apply store_keeps | with_reducible apply widenLine_keeps | with_reducible apply sound_foldl | with_reducible apply sound_foldl_fst)
    | dsimp only
    | split

theorem writeLines_keeps {q : Base} : ∀ a0 a1 a2 a3 a4, Keeps q (writeLines a0 a1 a2 a3 a4) := by
  intro a0 a1 a2 a3 a4
  induction a2 generalizing a0 a1 a3 a4 with
  | zero =>
    intros
    unfold writeLines
    repeat' first
      | with_reducible assumption
      | with_reducible exact keeps_pure
      | with_reducible exact keeps_throw
      | with_reducible exact keeps_read
      | with_reducible apply keeps_get_bind
      | with_reducible exact keeps_get
      | with_reducible apply keeps_bind
      | with_reducible apply keeps_set
      | with_reducible apply keeps_modify
      | with_reducible apply keeps_forM
      | with_reducible apply keeps_mapM
      | with_reducible apply keeps_foldlM
      | with_reducible apply keeps_forIn
      | with_reducible apply keeps_tryCatch
      | with_reducible apply keeps_map
      | with_reducible apply keeps_seq
      | with_reducible apply writeLine_keeps
      | with_reducible apply sound_foldl
      | with_reducible apply sound_foldl_fst
      | intro _
      | with_reducible apply keeps_ite
      | with_reducible apply sound_of_fst (by assumption)
      | with_reducible apply sound_of_some (by assumption)
      | with_reducible apply sound_of_snd (by assumption)
      | with_reducible apply sound_on
      | with_reducible apply sound_getD
      | (with_reducible refine sound_mk ?_ rfl rfl rfl rfl rfl rfl rfl; first | with_reducible assumption | with_reducible apply writeLine_keeps | with_reducible apply sound_foldl | with_reducible apply sound_foldl_fst)
      | dsimp only
      | split
  | succ n ih =>
    intros
    unfold writeLines
    repeat' first
      | with_reducible assumption
      | with_reducible apply ih
      | with_reducible exact keeps_pure
      | with_reducible exact keeps_throw
      | with_reducible exact keeps_read
      | with_reducible apply keeps_get_bind
      | with_reducible exact keeps_get
      | with_reducible apply keeps_bind
      | with_reducible apply keeps_set
      | with_reducible apply keeps_modify
      | with_reducible apply keeps_forM
      | with_reducible apply keeps_mapM
      | with_reducible apply keeps_foldlM
      | with_reducible apply keeps_forIn
      | with_reducible apply keeps_tryCatch
      | with_reducible apply keeps_map
      | with_reducible apply keeps_seq
      | with_reducible apply writeLine_keeps
      | with_reducible apply sound_foldl
      | with_reducible apply sound_foldl_fst
      | intro _
      | with_reducible apply keeps_ite
      | with_reducible apply sound_of_fst (by assumption)
      | with_reducible apply sound_of_some (by assumption)
      | with_reducible apply sound_of_snd (by assumption)
      | with_reducible apply sound_on
      | with_reducible apply sound_getD
      | (with_reducible refine sound_mk ?_ rfl rfl rfl rfl rfl rfl rfl; first | with_reducible assumption | with_reducible apply writeLine_keeps | with_reducible apply sound_foldl | with_reducible apply sound_foldl_fst)
      | dsimp only
      | split

theorem writePart_keeps {q : Base} : ∀ a0 a1 a2 a3 a4 a5, Keeps q (writePart a0 a1 a2 a3 a4 a5) := by
  intros
  unfold writePart
  repeat' first
    | with_reducible assumption
    | with_reducible exact keeps_pure
    | with_reducible exact keeps_throw
    | with_reducible exact keeps_read
    | with_reducible apply keeps_get_bind
    | with_reducible exact keeps_get
    | with_reducible apply keeps_bind
    | with_reducible apply keeps_set
    | with_reducible apply keeps_modify
    | with_reducible apply keeps_forM
    | with_reducible apply keeps_mapM
    | with_reducible apply keeps_foldlM
    | with_reducible apply keeps_forIn
    | with_reducible apply keeps_tryCatch
    | with_reducible apply keeps_map
    | with_reducible apply keeps_seq
    | with_reducible apply locStore_keeps
    | with_reducible apply sound_foldl
    | with_reducible apply sound_foldl_fst
    | intro _
    | with_reducible apply keeps_ite
    | with_reducible apply sound_of_fst (by assumption)
    | with_reducible apply sound_of_some (by assumption)
    | with_reducible apply sound_of_snd (by assumption)
    | with_reducible apply sound_on
    | with_reducible apply sound_getD
    | (with_reducible refine sound_mk ?_ rfl rfl rfl rfl rfl rfl rfl; first | with_reducible assumption | with_reducible apply locStore_keeps | with_reducible apply sound_foldl | with_reducible apply sound_foldl_fst)
    | dsimp only
    | split

theorem writeRow_keeps {q : Base} : ∀ a0 a1 a2 a3 a4 a5 a6, Keeps q (writeRow a0 a1 a2 a3 a4 a5 a6) := by
  intros
  unfold writeRow
  repeat' first
    | with_reducible assumption
    | with_reducible exact keeps_pure
    | with_reducible exact keeps_throw
    | with_reducible exact keeps_read
    | with_reducible apply keeps_get_bind
    | with_reducible exact keeps_get
    | with_reducible apply keeps_bind
    | with_reducible apply keeps_set
    | with_reducible apply keeps_modify
    | with_reducible apply keeps_forM
    | with_reducible apply keeps_mapM
    | with_reducible apply keeps_foldlM
    | with_reducible apply keeps_forIn
    | with_reducible apply keeps_tryCatch
    | with_reducible apply keeps_map
    | with_reducible apply keeps_seq
    | with_reducible apply locStore_keeps
    | with_reducible apply writeLines_keeps
    | with_reducible apply writePart_keeps
    | with_reducible apply sound_foldl
    | with_reducible apply sound_foldl_fst
    | intro _
    | with_reducible apply keeps_ite
    | with_reducible apply sound_of_fst (by assumption)
    | with_reducible apply sound_of_some (by assumption)
    | with_reducible apply sound_of_snd (by assumption)
    | with_reducible apply sound_on
    | with_reducible apply sound_getD
    | (with_reducible refine sound_mk ?_ rfl rfl rfl rfl rfl rfl rfl; first | with_reducible assumption | with_reducible apply locStore_keeps | with_reducible apply writeLines_keeps | with_reducible apply writePart_keeps | with_reducible apply sound_foldl | with_reducible apply sound_foldl_fst)
    | dsimp only
    | split

theorem withRounding_keeps {q : Base} : ∀ a0 a1 a2, Keeps q (withRounding a0 a1 a2) := by
  intros
  unfold withRounding
  repeat' first
    | with_reducible assumption
    | with_reducible exact keeps_pure
    | with_reducible exact keeps_throw
    | with_reducible exact keeps_read
    | with_reducible apply keeps_get_bind
    | with_reducible exact keeps_get
    | with_reducible apply keeps_bind
    | with_reducible apply keeps_set
    | with_reducible apply keeps_modify
    | with_reducible apply keeps_forM
    | with_reducible apply keeps_mapM
    | with_reducible apply keeps_foldlM
    | with_reducible apply keeps_forIn
    | with_reducible apply keeps_tryCatch
    | with_reducible apply keeps_map
    | with_reducible apply keeps_seq
    | with_reducible apply sound_foldl
    | with_reducible apply sound_foldl_fst
    | intro _
    | with_reducible apply keeps_ite
    | with_reducible apply sound_of_fst (by assumption)
    | with_reducible apply sound_of_some (by assumption)
    | with_reducible apply sound_of_snd (by assumption)
    | with_reducible apply sound_on
    | with_reducible apply sound_getD
    | (with_reducible refine sound_mk ?_ rfl rfl rfl rfl rfl rfl rfl; first | with_reducible assumption | with_reducible apply sound_foldl | with_reducible apply sound_foldl_fst)
    | dsimp only
    | split

end Sys2Proof.Machine
end

