-- ==== Sys2Proof/Laws/KeepKv.lean ====
section
/-! SUPPORT. What the operations of `Machine/Kv.lean` keep: the memories in canonical form and the queue. -/

set_option linter.unusedTactic false
set_option linter.unreachableTactic false

namespace Sys2Proof.Machine

theorem tableOf_keeps {q : Base} : ∀ a0 a1, Keeps q (tableOf a0 a1) := by
  intros
  unfold tableOf
  repeat' first
    | with_reducible assumption
    | with_reducible exact keeps_pure
    | with_reducible exact keeps_throw
    | with_reducible exact keeps_read
    | with_reducible apply keeps_get_bind
    | with_reducible exact keeps_get
    | with_reducible apply keeps_bind
    | with_reducible apply keeps_set
    | with_reducible apply keeps_modify
    | with_reducible apply keeps_forM
    | with_reducible apply keeps_mapM
    | with_reducible apply keeps_foldlM
    | with_reducible apply keeps_forIn
    | with_reducible apply keeps_tryCatch
    | with_reducible apply keeps_map
    | with_reducible apply keeps_seq
    | with_reducible apply require_keeps
    | with_reducible apply sound_foldl
    | with_reducible apply sound_foldl_fst
    | intro _
    | with_reducible apply keeps_ite
    | with_reducible apply sound_of_fst (by assumption)
    | with_reducible apply sound_of_some (by assumption)
    | with_reducible apply sound_of_snd (by assumption)
    | with_reducible apply sound_on
    | with_reducible apply sound_getD
    | (with_reducible refine sound_mk ?_ rfl rfl rfl rfl rfl rfl rfl; first | with_reducible assumption | with_reducible apply require_keeps | with_reducible apply sound_foldl | with_reducible apply sound_foldl_fst)
    | dsimp only
    | split

theorem kvPlace_keeps {q : Base} : ∀ a0, Keeps q (kvPlace a0) := by
  intros
  unfold kvPlace
  repeat' first
    | with_reducible assumption
    | with_reducible exact keeps_pure
    | with_reducible exact keeps_throw
    | with_reducible exact keeps_read
    | with_reducible apply keeps_get_bind
    | with_reducible exact keeps_get
    | with_reducible apply keeps_bind
    | with_reducible apply keeps_set
    | with_reducible apply keeps_modify
    | with_reducible apply keeps_forM
    | with_reducible apply keeps_mapM
    | with_reducible apply keeps_foldlM
    | with_reducible apply keeps_forIn
    | with_reducible apply keeps_tryCatch
    | with_reducible apply keeps_map
    | with_reducible apply keeps_seq
    | with_reducible apply require_keeps
    | with_reducible apply sound_foldl
    | with_reducible apply sound_foldl_fst
    | intro _
    | with_reducible apply keeps_ite
    | with_reducible apply sound_of_fst (by assumption)
    | with_reducible apply sound_of_some (by assumption)
    | with_reducible apply sound_of_snd (by assumption)
    | with_reducible apply sound_on
    | with_reducible apply sound_getD
    | (with_reducible refine sound_mk ?_ rfl rfl rfl rfl rfl rfl rfl; first | with_reducible assumption | with_reducible apply require_keeps | with_reducible apply sound_foldl | with_reducible apply sound_foldl_fst)
    | dsimp only
    | split

theorem loadTable_keeps {q : Base} : ∀ a0, Keeps q (loadTable a0) := by
  intros
  unfold loadTable
  repeat' first
    | with_reducible assumption
    | with_reducible exact keeps_pure
    | with_reducible exact keeps_throw
    | with_reducible exact keeps_read
    | with_reducible apply keeps_get_bind
    | with_reducible exact keeps_get
    | with_reducible apply keeps_bind
    | with_reducible apply keeps_set
    | with_reducible apply keeps_modify
    | with_reducible apply keeps_forM
    | with_reducible apply keeps_mapM
    | with_reducible apply keeps_foldlM
    | with_reducible apply keeps_forIn
    | with_reducible apply keeps_tryCatch
    | with_reducible apply keeps_map
    | with_reducible apply keeps_seq
    | with_reducible apply tableOf_keeps
    | with_reducible apply once_keeps
    | with_reducible apply kvPlace_keeps
    | with_reducible apply load_keeps
    | with_reducible apply sound_foldl
    | with_reducible apply sound_foldl_fst
    | intro _
    | with_reducible apply keeps_ite
    | with_reducible apply sound_of_fst (by assumption)
    | with_reducible apply sound_of_some (by assumption)
    | with_reducible apply sound_of_snd (by assumption)
    | with_reducible apply sound_on
    | with_reducible apply sound_getD
    | (with_reducible refine sound_mk ?_ rfl rfl rfl rfl rfl rfl rfl; first | with_reducible assumption | with_reducible apply tableOf_keeps | with_reducible apply once_keeps | with_reducible apply kvPlace_keeps | with_reducible apply load_keeps | with_reducible apply sound_foldl | with_reducible apply sound_foldl_fst)
    | dsimp only
    | split

theorem stepTable_keeps {q : Base} : ∀ a0, Keeps q (stepTable a0) := by
  intros
  unfold stepTable
  repeat' first
    | with_reducible assumption
    | with_reducible exact keeps_pure
    | with_reducible exact keeps_throw
    | with_reducible exact keeps_read
    | with_reducible apply keeps_get_bind
    | with_reducible exact keeps_get
    | with_reducible apply keeps_bind
    | with_reducible apply keeps_set
    | with_reducible apply keeps_modify
    | with_reducible apply keeps_forM
    | with_reducible apply keeps_mapM
    | with_reducible apply keeps_foldlM
    | with_reducible apply keeps_forIn
    | with_reducible apply keeps_tryCatch
    | with_reducible apply keeps_map
    | with_reducible apply keeps_seq
    | with_reducible apply tableOf_keeps
    | with_reducible apply kvPlace_keeps
    | with_reducible apply inStepBytes_keeps
    | with_reducible apply load_keeps
    | with_reducible apply sound_foldl
    | with_reducible apply sound_foldl_fst
    | intro _
    | with_reducible apply keeps_ite
    | with_reducible apply sound_of_fst (by assumption)
    | with_reducible apply sound_of_some (by assumption)
    | with_reducible apply sound_of_snd (by assumption)
    | with_reducible apply sound_on
    | with_reducible apply sound_getD
    | (with_reducible refine sound_mk ?_ rfl rfl rfl rfl rfl rfl rfl; first | with_reducible assumption | with_reducible apply tableOf_keeps | with_reducible apply kvPlace_keeps | with_reducible apply inStepBytes_keeps | with_reducible apply load_keeps | with_reducible apply sound_foldl | with_reducible apply sound_foldl_fst)
    | dsimp only
    | split

theorem pageFrame_keeps {q : Base} : ∀ a0 a1 a2 a3, Keeps q (pageFrame a0 a1 a2 a3) := by
  intros
  unfold pageFrame
  repeat' first
    | with_reducible assumption
    | with_reducible exact keeps_pure
    | with_reducible exact keeps_throw
    | with_reducible exact keeps_read
    | with_reducible apply keeps_get_bind
    | with_reducible exact keeps_get
    | with_reducible apply keeps_bind
    | with_reducible apply keeps_set
    | with_reducible apply keeps_modify
    | with_reducible apply keeps_forM
    | with_reducible apply keeps_mapM
    | with_reducible apply keeps_foldlM
    | with_reducible apply keeps_forIn
    | with_reducible apply keeps_tryCatch
    | with_reducible apply keeps_map
    | with_reducible apply keeps_seq
    | with_reducible apply loadNat_keeps
    | with_reducible apply require_keeps
    | with_reducible apply sound_foldl
    | with_reducible apply sound_foldl_fst
    | intro _
    | with_reducible apply keeps_ite
    | with_reducible apply sound_of_fst (by assumption)
    | with_reducible apply sound_of_some (by assumption)
    | with_reducible apply sound_of_snd (by assumption)
    | with_reducible apply sound_on
    | with_reducible apply sound_getD
    | (with_reducible refine sound_mk ?_ rfl rfl rfl rfl rfl rfl rfl; first | with_reducible assumption | with_reducible apply loadNat_keeps | with_reducible apply require_keeps | with_reducible apply sound_foldl | with_reducible apply sound_foldl_fst)
    | dsimp only
    | split

theorem frameLoad_keeps {q : Base} : ∀ a0 a1, Keeps q (frameLoad a0 a1) := by
  intros
  unfold frameLoad
  repeat' first
    | with_reducible assumption
    | with_reducible exact keeps_pure
    | with_reducible exact keeps_throw
    | with_reducible exact keeps_read
    | with_reducible apply keeps_get_bind
    | with_reducible exact keeps_get
    | with_reducible apply keeps_bind
    | with_reducible apply keeps_set
    | with_reducible apply keeps_modify
    | with_reducible apply keeps_forM
    | with_reducible apply keeps_mapM
    | with_reducible apply keeps_foldlM
    | with_reducible apply keeps_forIn
    | with_reducible apply keeps_tryCatch
    | with_reducible apply keeps_map
    | with_reducible apply keeps_seq
    | with_reducible apply require_keeps
    | with_reducible apply loadAt_keeps
    | with_reducible apply checkRead_keeps
    | with_reducible apply sound_foldl
    | with_reducible apply sound_foldl_fst
    | intro _
    | with_reducible apply keeps_ite
    | with_reducible apply sound_of_fst (by assumption)
    | with_reducible apply sound_of_some (by assumption)
    | with_reducible apply sound_of_snd (by assumption)
    | with_reducible apply sound_on
    | with_reducible apply sound_getD
    | (with_reducible refine sound_mk ?_ rfl rfl rfl rfl rfl rfl rfl; first | with_reducible assumption | with_reducible apply require_keeps | with_reducible apply loadAt_keeps | with_reducible apply checkRead_keeps | with_reducible apply sound_foldl | with_reducible apply sound_foldl_fst)
    | dsimp only
    | split

theorem stepSeq_keeps {q : Base} : ∀ a0, Keeps q (stepSeq a0) := by
  intros
  unfold stepSeq
  repeat' first
    | with_reducible assumption
    | with_reducible exact keeps_pure
    | with_reducible exact keeps_throw
    | with_reducible exact keeps_read
    | with_reducible apply keeps_get_bind
    | with_reducible exact keeps_get
    | with_reducible apply keeps_bind
    | with_reducible apply keeps_set
    | with_reducible apply keeps_modify
    | with_reducible apply keeps_forM
    | with_reducible apply keeps_mapM
    | with_reducible apply keeps_foldlM
    | with_reducible apply keeps_forIn
    | with_reducible apply keeps_tryCatch
    | with_reducible apply keeps_map
    | with_reducible apply keeps_seq
    | with_reducible apply require_keeps
    | with_reducible apply checkWrite_keeps
    | with_reducible apply kvPlace_keeps
    | with_reducible apply inStepBytes_keeps
    | with_reducible apply load_keeps
    | with_reducible apply sound_foldl
    | with_reducible apply sound_foldl_fst
    | intro _
    | with_reducible apply keeps_ite
    | with_reducible apply sound_of_fst (by assumption)
    | with_reducible apply sound_of_some (by assumption)
    | with_reducible apply sound_of_snd (by assumption)
    | with_reducible apply sound_on
    | with_reducible apply sound_getD
    | (with_reducible refine sound_mk ?_ rfl rfl rfl rfl rfl rfl rfl; first | with_reducible assumption | with_reducible apply require_keeps | with_reducible apply checkWrite_keeps | with_reducible apply kvPlace_keeps | with_reducible apply inStepBytes_keeps | with_reducible apply load_keeps | with_reducible apply sound_foldl | with_reducible apply sound_foldl_fst)
    | dsimp only
    | split

theorem changeResv_keeps {q : Base} : ∀ a0 a1 a2, Keeps q (changeResv a0 a1 a2) := by
  intro a0 a1 a2
  induction a2 generalizing a0 a1 with
  | zero =>
    intros
    unfold changeResv
    repeat' first
      | with_reducible assumption
      | with_reducible exact keeps_pure
      | with_reducible exact keeps_throw
      | with_reducible exact keeps_read
      | with_reducible apply keeps_get_bind
      | with_reducible exact keeps_get
      | with_reducible apply keeps_bind
      | with_reducible apply keeps_set
      | with_reducible apply keeps_modify
      | with_reducible apply keeps_forM
      | with_reducible apply keeps_mapM
      | with_reducible apply keeps_foldlM
      | with_reducible apply keeps_forIn
      | with_reducible apply keeps_tryCatch
      | with_reducible apply keeps_map
      | with_reducible apply keeps_seq
      | with_reducible apply loadNat_keeps
      | with_reducible apply freshNat_keeps
      | with_reducible apply store_keeps
      | with_reducible apply remoteAtomic_keeps
      | with_reducible apply inStepNat_keeps
      | with_reducible apply sound_foldl
      | with_reducible apply sound_foldl_fst
      | intro _
      | with_reducible apply keeps_ite
      | with_reducible apply sound_of_fst (by assumption)
      | with_reducible apply sound_of_some (by assumption)
      | with_reducible apply sound_of_snd (by assumption)
      | with_reducible apply sound_on
      | with_reducible apply sound_getD
      | (with_reducible refine sound_mk ?_ rfl rfl rfl rfl rfl rfl rfl; first | with_reducible assumption | with_reducible apply loadNat_keeps | with_reducible apply freshNat_keeps | with_reducible apply store_keeps | with_reducible apply remoteAtomic_keeps | with_reducible apply inStepNat_keeps | with_reducible apply sound_foldl | with_reducible apply sound_foldl_fst)
      | dsimp only
      | split
  | succ n ih =>
    intros
    unfold changeResv
    repeat' first
      | with_reducible assumption
      | with_reducible apply ih
      | with_reducible exact keeps_pure
      | with_reducible exact keeps_throw
      | with_reducible exact keeps_read
      | with_reducible apply keeps_get_bind
      | with_reducible exact keeps_get
      | with_reducible apply keeps_bind
      | with_reducible apply keeps_set
      | with_reducible apply keeps_modify
      | with_reducible apply keeps_forM
      | with_reducible apply keeps_mapM
      | with_reducible apply keeps_foldlM
      | with_reducible apply keeps_forIn
      | with_reducible apply keeps_tryCatch
      | with_reducible apply keeps_map
      | with_reducible apply keeps_seq
      | with_reducible apply loadNat_keeps
      | with_reducible apply freshNat_keeps
      | with_reducible apply store_keeps
      | with_reducible apply remoteAtomic_keeps
      | with_reducible apply inStepNat_keeps
      | with_reducible apply sound_foldl
      | with_reducible apply sound_foldl_fst
      | intro _
      | with_reducible apply keeps_ite
      | with_reducible apply sound_of_fst (by assumption)
      | with_reducible apply sound_of_some (by assumption)
      | with_reducible apply sound_of_snd (by assumption)
      | with_reducible apply sound_on
      | with_reducible apply sound_getD
      | (with_reducible refine sound_mk ?_ rfl rfl rfl rfl rfl rfl rfl; first | with_reducible assumption | with_reducible apply loadNat_keeps | with_reducible apply freshNat_keeps | with_reducible apply store_keeps | with_reducible apply remoteAtomic_keeps | with_reducible apply inStepNat_keeps | with_reducible apply sound_foldl | with_reducible apply sound_foldl_fst)
      | dsimp only
      | split

theorem poolOf_keeps {q : Base} : ∀ a0 a1, Keeps q (poolOf a0 a1) := by
  intros
  unfold poolOf
  repeat' first
    | with_reducible assumption
    | with_reducible exact keeps_pure
    | with_reducible exact keeps_throw
    | with_reducible exact keeps_read
    | with_reducible apply keeps_get_bind
    | with_reducible exact keeps_get
    | with_reducible apply keeps_bind
    | with_reducible apply keeps_set
    | with_reducible apply keeps_modify
    | with_reducible apply keeps_forM
    | with_reducible apply keeps_mapM
    | with_reducible apply keeps_foldlM
    | with_reducible apply keeps_forIn
    | with_reducible apply keeps_tryCatch
    | with_reducible apply keeps_map
    | with_reducible apply keeps_seq
    | with_reducible apply loadNat_keeps
    | with_reducible apply inStepNat_keeps
    | with_reducible apply sound_foldl
    | with_reducible apply sound_foldl_fst
    | intro _
    | with_reducible apply keeps_ite
    | with_reducible apply sound_of_fst (by assumption)
    | with_reducible apply sound_of_some (by assumption)
    | with_reducible apply sound_of_snd (by assumption)
    | with_reducible apply sound_on
    | with_reducible apply sound_getD
    | (with_reducible refine sound_mk ?_ rfl rfl rfl rfl rfl rfl rfl; first | with_reducible assumption | with_reducible apply loadNat_keeps | with_reducible apply inStepNat_keeps | with_reducible apply sound_foldl | with_reducible apply sound_foldl_fst)
    | dsimp only
    | split

theorem PoolAt.quota_keeps {q : Base} : ∀ a0 a1, Keeps q (PoolAt.quota a0 a1) := by
  intros
  unfold PoolAt.quota
  repeat' first
    | with_reducible assumption
    | with_reducible exact keeps_pure
    | with_reducible exact keeps_throw
    | with_reducible exact keeps_read
    | with_reducible apply keeps_get_bind
    | with_reducible exact keeps_get
    | with_reducible apply keeps_bind
    | with_reducible apply keeps_set
    | with_reducible apply keeps_modify
    | with_reducible apply keeps_forM
    | with_reducible apply keeps_mapM
    | with_reducible apply keeps_foldlM
    | with_reducible apply keeps_forIn
    | with_reducible apply keeps_tryCatch
    | with_reducible apply keeps_map
    | with_reducible apply keeps_seq
    | with_reducible apply freshNat_keeps
    | with_reducible apply sound_foldl
    | with_reducible apply sound_foldl_fst
    | intro _
    | with_reducible apply keeps_ite
    | with_reducible apply sound_of_fst (by assumption)
    | with_reducible apply sound_of_some (by assumption)
    | with_reducible apply sound_of_snd (by assumption)
    | with_reducible apply sound_on
    | with_reducible apply sound_getD
    | (with_reducible refine sound_mk ?_ rfl rfl rfl rfl rfl rfl rfl; first | with_reducible assumption | with_reducible apply freshNat_keeps | with_reducible apply sound_foldl | with_reducible apply sound_foldl_fst)
    | dsimp only
    | split

theorem PoolAt.refusal_keeps {q : Base} : ∀ a0 a1 a2 a3 a4, Keeps q (PoolAt.refusal a0 a1 a2 a3 a4) := by
  intros
  unfold PoolAt.refusal
  repeat' first
    | with_reducible assumption
    | with_reducible exact keeps_pure
    | with_reducible exact keeps_throw
    | with_reducible exact keeps_read
    | with_reducible apply keeps_get_bind
    | with_reducible exact keeps_get
    | with_reducible apply keeps_bind
    | with_reducible apply keeps_set
    | with_reducible apply keeps_modify
    | with_reducible apply keeps_forM
    | with_reducible apply keeps_mapM
    | with_reducible apply keeps_foldlM
    | with_reducible apply keeps_forIn
    | with_reducible apply keeps_tryCatch
    | with_reducible apply keeps_map
    | with_reducible apply keeps_seq
    | with_reducible apply PoolAt.quota_keeps
    | with_reducible apply sound_foldl
    | with_reducible apply sound_foldl_fst
    | intro _
    | with_reducible apply keeps_ite
    | with_reducible apply sound_of_fst (by assumption)
    | with_reducible apply sound_of_some (by assumption)
    | with_reducible apply sound_of_snd (by assumption)
    | with_reducible apply sound_on
    | with_reducible apply sound_getD
    | (with_reducible refine sound_mk ?_ rfl rfl rfl rfl rfl rfl rfl; first | with_reducible assumption | with_reducible apply PoolAt.quota_keeps | with_reducible apply sound_foldl | with_reducible apply sound_foldl_fst)
    | dsimp only
    | split

theorem PoolAt.commit_keeps {q : Base} : ∀ a0 a1 a2 a3, Keeps q (PoolAt.commit a0 a1 a2 a3) := by
  intro a0 a1 a2 a3
  induction a3 generalizing a0 a1 a2 with
  | zero =>
    intros
    unfold PoolAt.commit
    repeat' first
      | with_reducible assumption
      | with_reducible exact keeps_pure
      | with_reducible exact keeps_throw
      | with_reducible exact keeps_read
      | with_reducible apply keeps_get_bind
      | with_reducible exact keeps_get
      | with_reducible apply keeps_bind
      | with_reducible apply keeps_set
      | with_reducible apply keeps_modify
      | with_reducible apply keeps_forM
      | with_reducible apply keeps_mapM
      | with_reducible apply keeps_foldlM
      | with_reducible apply keeps_forIn
      | with_reducible apply keeps_tryCatch
      | with_reducible apply keeps_map
      | with_reducible apply keeps_seq
      | with_reducible apply freshNat_keeps
      | with_reducible apply remoteAtomic_keeps
      | with_reducible apply PoolAt.refusal_keeps
      | with_reducible apply sound_foldl
      | with_reducible apply sound_foldl_fst
      | intro _
      | with_reducible apply keeps_ite
      | with_reducible apply sound_of_fst (by assumption)
      | with_reducible apply sound_of_some (by assumption)
      | with_reducible apply sound_of_snd (by assumption)
      | with_reducible apply sound_on
      | with_reducible apply sound_getD
      | (with_reducible refine sound_mk ?_ rfl rfl rfl rfl rfl rfl rfl; first | with_reducible assumption | with_reducible apply freshNat_keeps | with_reducible apply remoteAtomic_keeps | with_reducible apply PoolAt.refusal_keeps | with_reducible apply sound_foldl | with_reducible apply sound_foldl_fst)
      | dsimp only
      | split
  | succ n ih =>
    intros
    unfold PoolAt.commit
    repeat' first
      | with_reducible assumption
      | with_reducible apply ih
      | with_reducible exact keeps_pure
      | with_reducible exact keeps_throw
      | with_reducible exact keeps_read
      | with_reducible apply keeps_get_bind
      | with_reducible exact keeps_get
      | with_reducible apply keeps_bind
      | with_reducible apply keeps_set
      | with_reducible apply keeps_modify
      | with_reducible apply keeps_forM
      | with_reducible apply keeps_mapM
      | with_reducible apply keeps_foldlM
      | with_reducible apply keeps_forIn
      | with_reducible apply keeps_tryCatch
      | with_reducible apply keeps_map
      | with_reducible apply keeps_seq
      | with_reducible apply freshNat_keeps
      | with_reducible apply remoteAtomic_keeps
      | with_reducible apply PoolAt.refusal_keeps
      | with_reducible apply sound_foldl
      | with_reducible apply sound_foldl_fst
      | intro _
      | with_reducible apply keeps_ite
      | with_reducible apply sound_of_fst (by assumption)
      | with_reducible apply sound_of_some (by assumption)
      | with_reducible apply sound_of_snd (by assumption)
      | with_reducible apply sound_on
      | with_reducible apply sound_getD
      | (with_reducible refine sound_mk ?_ rfl rfl rfl rfl rfl rfl rfl; first | with_reducible assumption | with_reducible apply freshNat_keeps | with_reducible apply remoteAtomic_keeps | with_reducible apply PoolAt.refusal_keeps | with_reducible apply sound_foldl | with_reducible apply sound_foldl_fst)
      | dsimp only
      | split

theorem PoolAt.countRefusal_keeps {q : Base} : ∀ a0 a1, Keeps q (PoolAt.countRefusal a0 a1) := by
  intro a0 a1
  induction a1 generalizing a0 with
  | zero =>
    intros
    unfold PoolAt.countRefusal
    repeat' first
      | with_reducible assumption
      | with_reducible exact keeps_pure
      | with_reducible exact keeps_throw
      | with_reducible exact keeps_read
      | with_reducible apply keeps_get_bind
      | with_reducible exact keeps_get
      | with_reducible apply keeps_bind
      | with_reducible apply keeps_set
      | with_reducible apply keeps_modify
      | with_reducible apply keeps_forM
      | with_reducible apply keeps_mapM
      | with_reducible apply keeps_foldlM
      | with_reducible apply keeps_forIn
      | with_reducible apply keeps_tryCatch
      | with_reducible apply keeps_map
      | with_reducible apply keeps_seq
      | with_reducible apply loadNat_keeps
      | with_reducible apply freshNat_keeps
      | with_reducible apply inStepDo_keeps
      | with_reducible apply store_keeps
      | with_reducible apply remoteAtomic_keeps
      | with_reducible apply sound_foldl
      | with_reducible apply sound_foldl_fst
      | intro _
      | with_reducible apply keeps_ite
      | with_reducible apply sound_of_fst (by assumption)
      | with_reducible apply sound_of_some (by assumption)
      | with_reducible apply sound_of_snd (by assumption)
      | with_reducible apply sound_on
      | with_reducible apply sound_getD
      | (with_reducible refine sound_mk ?_ rfl rfl rfl rfl rfl rfl rfl; first | with_reducible assumption | with_reducible apply loadNat_keeps | with_reducible apply freshNat_keeps | with_reducible apply inStepDo_keeps | with_reducible apply store_keeps | with_reducible apply remoteAtomic_keeps | with_reducible apply sound_foldl | with_reducible apply sound_foldl_fst)
      | dsimp only
      | split
  | succ n ih =>
    intros
    unfold PoolAt.countRefusal
    repeat' first
      | with_reducible assumption
      | with_reducible apply ih
      | with_reducible exact keeps_pure
      | with_reducible exact keeps_throw
      | with_reducible exact keeps_read
      | with_reducible apply keeps_get_bind
      | with_reducible exact keeps_get
      | with_reducible apply keeps_bind
      | with_reducible apply keeps_set
      | with_reducible apply keeps_modify
      | with_reducible apply keeps_forM
      | with_reducible apply keeps_mapM
      | with_reducible apply keeps_foldlM
      | with_reducible apply keeps_forIn
      | with_reducible apply keeps_tryCatch
      | with_reducible apply keeps_map
      | with_reducible apply keeps_seq
      | with_reducible apply loadNat_keeps
      | with_reducible apply freshNat_keeps
      | with_reducible apply inStepDo_keeps
      | with_reducible apply store_keeps
      | with_reducible apply remoteAtomic_keeps
      | with_reducible apply sound_foldl
      | with_reducible apply sound_foldl_fst
      | intro _
      | with_reducible apply keeps_ite
      | with_reducible apply sound_of_fst (by assumption)
      | with_reducible apply sound_of_some (by assumption)
      | with_reducible apply sound_of_snd (by assumption)
      | with_reducible apply sound_on
      | with_reducible apply sound_getD
      | (with_reducible refine sound_mk ?_ rfl rfl rfl rfl rfl rfl rfl; first | with_reducible assumption | with_reducible apply loadNat_keeps | with_reducible apply freshNat_keeps | with_reducible apply inStepDo_keeps | with_reducible apply store_keeps | with_reducible apply remoteAtomic_keeps | with_reducible apply sound_foldl | with_reducible apply sound_foldl_fst)
      | dsimp only
      | split

theorem PoolAt.takeOwn_keeps {q : Base} : ∀ a0 a1 a2, Keeps q (PoolAt.takeOwn a0 a1 a2) := by
  intros
  unfold PoolAt.takeOwn
  repeat' first
    | with_reducible assumption
    | with_reducible exact keeps_pure
    | with_reducible exact keeps_throw
    | with_reducible exact keeps_read
    | with_reducible apply keeps_get_bind
    | with_reducible exact keeps_get
    | with_reducible apply keeps_bind
    | with_reducible apply keeps_set
    | with_reducible apply keeps_modify
    | with_reducible apply keeps_forM
    | with_reducible apply keeps_mapM
    | with_reducible apply keeps_foldlM
    | with_reducible apply keeps_forIn
    | with_reducible apply keeps_tryCatch
    | with_reducible apply keeps_map
    | with_reducible apply keeps_seq
    | with_reducible apply loadNat_keeps
    | with_reducible apply State.heldUp_sound
    | with_reducible apply store_keeps
    | with_reducible apply PoolAt.refusal_keeps
    | with_reducible apply load_keeps
    | with_reducible apply sound_foldl
    | with_reducible apply sound_foldl_fst
    | intro _
    | with_reducible apply keeps_ite
    | with_reducible apply sound_of_fst (by assumption)
    | with_reducible apply sound_of_some (by assumption)
    | with_reducible apply sound_of_snd (by assumption)
    | with_reducible apply sound_on
    | with_reducible apply sound_getD
    | (with_reducible refine sound_mk ?_ rfl rfl rfl rfl rfl rfl rfl; first | with_reducible assumption | with_reducible apply loadNat_keeps | with_reducible apply State.heldUp_sound | with_reducible apply store_keeps | with_reducible apply PoolAt.refusal_keeps | with_reducible apply load_keeps | with_reducible apply sound_foldl | with_reducible apply sound_foldl_fst)
    | dsimp only
    | split

theorem PoolAt.pop_keeps {q : Base} : ∀ a0 a1, Keeps q (PoolAt.pop a0 a1) := by
  intro a0 a1
  induction a1 generalizing a0 with
  | zero =>
    intros
    unfold PoolAt.pop
    repeat' first
      | with_reducible assumption
      | with_reducible exact keeps_pure
      | with_reducible exact keeps_throw
      | with_reducible exact keeps_read
      | with_reducible apply keeps_get_bind
      | with_reducible exact keeps_get
      | with_reducible apply keeps_bind
      | with_reducible apply keeps_set
      | with_reducible apply keeps_modify
      | with_reducible apply keeps_forM
      | with_reducible apply keeps_mapM
      | with_reducible apply keeps_foldlM
      | with_reducible apply keeps_forIn
      | with_reducible apply keeps_tryCatch
      | with_reducible apply keeps_map
      | with_reducible apply keeps_seq
      | with_reducible apply freshNat_keeps
      | with_reducible apply remoteAtomic_keeps
      | with_reducible apply sound_foldl
      | with_reducible apply sound_foldl_fst
      | intro _
      | with_reducible apply keeps_ite
      | with_reducible apply sound_of_fst (by assumption)
      | with_reducible apply sound_of_some (by assumption)
      | with_reducible apply sound_of_snd (by assumption)
      | with_reducible apply sound_on
      | with_reducible apply sound_getD
      | (with_reducible refine sound_mk ?_ rfl rfl rfl rfl rfl rfl rfl; first | with_reducible assumption | with_reducible apply freshNat_keeps | with_reducible apply remoteAtomic_keeps | with_reducible apply sound_foldl | with_reducible apply sound_foldl_fst)
      | dsimp only
      | split
  | succ n ih =>
    intros
    unfold PoolAt.pop
    repeat' first
      | with_reducible assumption
      | with_reducible apply ih
      | with_reducible exact keeps_pure
      | with_reducible exact keeps_throw
      | with_reducible exact keeps_read
      | with_reducible apply keeps_get_bind
      | with_reducible exact keeps_get
      | with_reducible apply keeps_bind
      | with_reducible apply keeps_set
      | with_reducible apply keeps_modify
      | with_reducible apply keeps_forM
      | with_reducible apply keeps_mapM
      | with_reducible apply keeps_foldlM
      | with_reducible apply keeps_forIn
      | with_reducible apply keeps_tryCatch
      | with_reducible apply keeps_map
      | with_reducible apply keeps_seq
      | with_reducible apply freshNat_keeps
      | with_reducible apply remoteAtomic_keeps
      | with_reducible apply sound_foldl
      | with_reducible apply sound_foldl_fst
      | intro _
      | with_reducible apply keeps_ite
      | with_reducible apply sound_of_fst (by assumption)
      | with_reducible apply sound_of_some (by assumption)
      | with_reducible apply sound_of_snd (by assumption)
      | with_reducible apply sound_on
      | with_reducible apply sound_getD
      | (with_reducible refine sound_mk ?_ rfl rfl rfl rfl rfl rfl rfl; first | with_reducible assumption | with_reducible apply freshNat_keeps | with_reducible apply remoteAtomic_keeps | with_reducible apply sound_foldl | with_reducible apply sound_foldl_fst)
      | dsimp only
      | split

theorem PoolAt.takeRemote_keeps {q : Base} : ∀ a0 a1 a2, Keeps q (PoolAt.takeRemote a0 a1 a2) := by
  intros
  unfold PoolAt.takeRemote
  repeat' first
    | with_reducible assumption
    | with_reducible exact keeps_pure
    | with_reducible exact keeps_throw
    | with_reducible exact keeps_read
    | with_reducible apply keeps_get_bind
    | with_reducible exact keeps_get
    | with_reducible apply keeps_bind
    | with_reducible apply keeps_set
    | with_reducible apply keeps_modify
    | with_reducible apply keeps_forM
    | with_reducible apply keeps_mapM
    | with_reducible apply keeps_foldlM
    | with_reducible apply keeps_forIn
    | with_reducible apply keeps_tryCatch
    | with_reducible apply keeps_map
    | with_reducible apply keeps_seq
    | with_reducible apply freshNat_keeps
    | with_reducible apply PoolAt.commit_keeps
    | with_reducible apply PoolAt.pop_keeps
    | with_reducible apply PoolAt.countRefusal_keeps
    | with_reducible apply remoteAtomic_keeps
    | with_reducible apply sound_foldl
    | with_reducible apply sound_foldl_fst
    | intro _
    | with_reducible apply keeps_ite
    | with_reducible apply sound_of_fst (by assumption)
    | with_reducible apply sound_of_some (by assumption)
    | with_reducible apply sound_of_snd (by assumption)
    | with_reducible apply sound_on
    | with_reducible apply sound_getD
    | (with_reducible refine sound_mk ?_ rfl rfl rfl rfl rfl rfl rfl; first | with_reducible assumption | with_reducible apply freshNat_keeps | with_reducible apply PoolAt.commit_keeps | with_reducible apply PoolAt.pop_keeps | with_reducible apply PoolAt.countRefusal_keeps | with_reducible apply remoteAtomic_keeps | with_reducible apply sound_foldl | with_reducible apply sound_foldl_fst)
    | dsimp only
    | split

theorem takeFrame_keeps {q : Base} : ∀ a0 a1 a2 a3, Keeps q (takeFrame a0 a1 a2 a3) := by
  intros
  unfold takeFrame
  repeat' first
    | with_reducible assumption
    | with_reducible exact keeps_pure
    | with_reducible exact keeps_throw
    | with_reducible exact keeps_read
    | with_reducible apply keeps_get_bind
    | with_reducible exact keeps_get
    | with_reducible apply keeps_bind
    | with_reducible apply keeps_set
    | with_reducible apply keeps_modify
    | with_reducible apply keeps_forM
    | with_reducible apply keeps_mapM
    | with_reducible apply keeps_foldlM
    | with_reducible apply keeps_forIn
    | with_reducible apply keeps_tryCatch
    | with_reducible apply keeps_map
    | with_reducible apply keeps_seq
    | with_reducible apply PoolAt.takeOwn_keeps
    | with_reducible apply PoolAt.takeRemote_keeps
    | with_reducible apply inStep_keeps
    | with_reducible apply poolOf_keeps
    | with_reducible apply sound_foldl
    | with_reducible apply sound_foldl_fst
    | intro _
    | with_reducible apply keeps_ite
    | with_reducible apply sound_of_fst (by assumption)
    | with_reducible apply sound_of_some (by assumption)
    | with_reducible apply sound_of_snd (by assumption)
    | with_reducible apply sound_on
    | with_reducible apply sound_getD
    | (with_reducible refine sound_mk ?_ rfl rfl rfl rfl rfl rfl rfl; first | with_reducible assumption | with_reducible apply PoolAt.takeOwn_keeps | with_reducible apply PoolAt.takeRemote_keeps | with_reducible apply inStep_keeps | with_reducible apply poolOf_keeps | with_reducible apply sound_foldl | with_reducible apply sound_foldl_fst)
    | dsimp only
    | split

theorem frameRecord_keeps {q : Base} : ∀ a0, Keeps q (frameRecord a0) := by
  intros
  unfold frameRecord
  repeat' first
    | with_reducible assumption
    | with_reducible exact keeps_pure
    | with_reducible exact keeps_throw
    | with_reducible exact keeps_read
    | with_reducible apply keeps_get_bind
    | with_reducible exact keeps_get
    | with_reducible apply keeps_bind
    | with_reducible apply keeps_set
    | with_reducible apply keeps_modify
    | with_reducible apply keeps_forM
    | with_reducible apply keeps_mapM
    | with_reducible apply keeps_foldlM
    | with_reducible apply keeps_forIn
    | with_reducible apply keeps_tryCatch
    | with_reducible apply keeps_map
    | with_reducible apply keeps_seq
    | with_reducible apply inStepBytes_keeps
    | with_reducible apply load_keeps
    | with_reducible apply poolOf_keeps
    | with_reducible apply sound_foldl
    | with_reducible apply sound_foldl_fst
    | intro _
    | with_reducible apply keeps_ite
    | with_reducible apply sound_of_fst (by assumption)
    | with_reducible apply sound_of_some (by assumption)
    | with_reducible apply sound_of_snd (by assumption)
    | with_reducible apply sound_on
    | with_reducible apply sound_getD
    | (with_reducible refine sound_mk ?_ rfl rfl rfl rfl rfl rfl rfl; first | with_reducible assumption | with_reducible apply inStepBytes_keeps | with_reducible apply load_keeps | with_reducible apply poolOf_keeps | with_reducible apply sound_foldl | with_reducible apply sound_foldl_fst)
    | dsimp only
    | split

theorem frameCount_keeps {q : Base} : ∀ a0, Keeps q (frameCount a0) := by
  intros
  unfold frameCount
  repeat' first
    | with_reducible assumption
    | with_reducible exact keeps_pure
    | with_reducible exact keeps_throw
    | with_reducible exact keeps_read
    | with_reducible apply keeps_get_bind
    | with_reducible exact keeps_get
    | with_reducible apply keeps_bind
    | with_reducible apply keeps_set
    | with_reducible apply keeps_modify
    | with_reducible apply keeps_forM
    | with_reducible apply keeps_mapM
    | with_reducible apply keeps_foldlM
    | with_reducible apply keeps_forIn
    | with_reducible apply keeps_tryCatch
    | with_reducible apply keeps_map
    | with_reducible apply keeps_seq
    | with_reducible apply loadNat_keeps
    | with_reducible apply freshNat_keeps
    | with_reducible apply frameRecord_keeps
    | with_reducible apply inStepNat_keeps
    | with_reducible apply sound_foldl
    | with_reducible apply sound_foldl_fst
    | intro _
    | with_reducible apply keeps_ite
    | with_reducible apply sound_of_fst (by assumption)
    | with_reducible apply sound_of_some (by assumption)
    | with_reducible apply sound_of_snd (by assumption)
    | with_reducible apply sound_on
    | with_reducible apply sound_getD
    | (with_reducible refine sound_mk ?_ rfl rfl rfl rfl rfl rfl rfl; first | with_reducible assumption | with_reducible apply loadNat_keeps | with_reducible apply freshNat_keeps | with_reducible apply frameRecord_keeps | with_reducible apply inStepNat_keeps | with_reducible apply sound_foldl | with_reducible apply sound_foldl_fst)
    | dsimp only
    | split

theorem frameAdd_keeps {q : Base} : ∀ a0 a1, Keeps q (frameAdd a0 a1) := by
  intros
  unfold frameAdd
  repeat' first
    | with_reducible assumption
    | with_reducible exact keeps_pure
    | with_reducible exact keeps_throw
    | with_reducible exact keeps_read
    | with_reducible apply keeps_get_bind
    | with_reducible exact keeps_get
    | with_reducible apply keeps_bind
    | with_reducible apply keeps_set
    | with_reducible apply keeps_modify
    | with_reducible apply keeps_forM
    | with_reducible apply keeps_mapM
    | with_reducible apply keeps_foldlM
    | with_reducible apply keeps_forIn
    | with_reducible apply keeps_tryCatch
    | with_reducible apply keeps_map
    | with_reducible apply keeps_seq
    | with_reducible apply loadNat_keeps
    | with_reducible apply freshNat_keeps
    | with_reducible apply inStepDo_keeps
    | with_reducible apply frameRecord_keeps
    | with_reducible apply remoteAtomic_keeps
    | with_reducible apply State.atomic_sound
    | with_reducible apply sound_foldl
    | with_reducible apply sound_foldl_fst
    | intro _
    | with_reducible apply keeps_ite
    | with_reducible apply sound_of_fst (by assumption)
    | with_reducible apply sound_of_some (by assumption)
    | with_reducible apply sound_of_snd (by assumption)
    | with_reducible apply sound_on
    | with_reducible apply sound_getD
    | (with_reducible refine sound_mk ?_ rfl rfl rfl rfl rfl rfl rfl; first | with_reducible assumption | with_reducible apply loadNat_keeps | with_reducible apply freshNat_keeps | with_reducible apply inStepDo_keeps | with_reducible apply frameRecord_keeps | with_reducible apply remoteAtomic_keeps | with_reducible apply State.atomic_sound | with_reducible apply sound_foldl | with_reducible apply sound_foldl_fst)
    | dsimp only
    | split

theorem takeForPage_keeps {q : Base} : ∀ a0 a1 a2 a3, Keeps q (takeForPage a0 a1 a2 a3) := by
  intros
  unfold takeForPage
  repeat' first
    | with_reducible assumption
    | with_reducible exact keeps_pure
    | with_reducible exact keeps_throw
    | with_reducible exact keeps_read
    | with_reducible apply keeps_get_bind
    | with_reducible exact keeps_get
    | with_reducible apply keeps_bind
    | with_reducible apply keeps_set
    | with_reducible apply keeps_modify
    | with_reducible apply keeps_forM
    | with_reducible apply keeps_mapM
    | with_reducible apply keeps_foldlM
    | with_reducible apply keeps_forIn
    | with_reducible apply keeps_tryCatch
    | with_reducible apply keeps_map
    | with_reducible apply keeps_seq
    | with_reducible apply noteCount_keeps
    | with_reducible apply changeResv_keeps
    | with_reducible apply stopWith_keeps
    | with_reducible apply takeFrame_keeps
    | with_reducible apply sound_foldl
    | with_reducible apply sound_foldl_fst
    | intro _
    | with_reducible apply keeps_ite
    | with_reducible apply sound_of_fst (by assumption)
    | with_reducible apply sound_of_some (by assumption)
    | with_reducible apply sound_of_snd (by assumption)
    | with_reducible apply sound_on
    | with_reducible apply sound_getD
    | (with_reducible refine sound_mk ?_ rfl rfl rfl rfl rfl rfl rfl; first | with_reducible assumption | with_reducible apply noteCount_keeps | with_reducible apply changeResv_keeps | with_reducible apply stopWith_keeps | with_reducible apply takeFrame_keeps | with_reducible apply sound_foldl | with_reducible apply sound_foldl_fst)
    | dsimp only
    | split

theorem kvAppendCheck_keeps {q : Base} : ∀ a0, Keeps q (kvAppendCheck a0) := by
  intros
  unfold kvAppendCheck
  repeat' first
    | with_reducible assumption
    | with_reducible exact keeps_pure
    | with_reducible exact keeps_throw
    | with_reducible exact keeps_read
    | with_reducible apply keeps_get_bind
    | with_reducible exact keeps_get
    | with_reducible apply keeps_bind
    | with_reducible apply keeps_set
    | with_reducible apply keeps_modify
    | with_reducible apply keeps_forM
    | with_reducible apply keeps_mapM
    | with_reducible apply keeps_foldlM
    | with_reducible apply keeps_forIn
    | with_reducible apply keeps_tryCatch
    | with_reducible apply keeps_map
    | with_reducible apply keeps_seq
    | with_reducible apply require_keeps
    | with_reducible apply refuseFormats_keeps
    | with_reducible apply sound_foldl
    | with_reducible apply sound_foldl_fst
    | intro _
    | with_reducible apply keeps_ite
    | with_reducible apply sound_of_fst (by assumption)
    | with_reducible apply sound_of_some (by assumption)
    | with_reducible apply sound_of_snd (by assumption)
    | with_reducible apply sound_on
    | with_reducible apply sound_getD
    | (with_reducible refine sound_mk ?_ rfl rfl rfl rfl rfl rfl rfl; first | with_reducible assumption | with_reducible apply require_keeps | with_reducible apply refuseFormats_keeps | with_reducible apply sound_foldl | with_reducible apply sound_foldl_fst)
    | dsimp only
    | split

theorem copyOnWrite_keeps {q : Base} : ∀ a0 a1 a2 a3 a4 a5, Keeps q (copyOnWrite a0 a1 a2 a3 a4 a5) := by
  intros
  unfold copyOnWrite
  repeat' first
    | with_reducible assumption
    | with_reducible exact keeps_pure
    | with_reducible exact keeps_throw
    | with_reducible exact keeps_read
    | with_reducible apply keeps_get_bind
    | with_reducible exact keeps_get
    | with_reducible apply keeps_bind
    | with_reducible apply keeps_set
    | with_reducible apply keeps_modify
    | with_reducible apply keeps_forM
    | with_reducible apply keeps_mapM
    | with_reducible apply keeps_foldlM
    | with_reducible apply keeps_forIn
    | with_reducible apply keeps_tryCatch
    | with_reducible apply keeps_map
    | with_reducible apply keeps_seq
    | with_reducible apply takeForPage_keeps
    | with_reducible apply inStepDo_keeps
    | with_reducible apply frameLoad_keeps
    | with_reducible apply waitWrites_keeps
    | with_reducible apply frameAdd_keeps
    | with_reducible apply store_keeps
    | with_reducible apply frameCount_keeps
    | with_reducible apply sound_foldl
    | with_reducible apply sound_foldl_fst
    | intro _
    | with_reducible apply keeps_ite
    | with_reducible apply sound_of_fst (by assumption)
    | with_reducible apply sound_of_some (by assumption)
    | with_reducible apply sound_of_snd (by assumption)
    | with_reducible apply sound_on
    | with_reducible apply sound_getD
    | (with_reducible refine sound_mk ?_ rfl rfl rfl rfl rfl rfl rfl; first | with_reducible assumption | with_reducible apply takeForPage_keeps | with_reducible apply inStepDo_keeps | with_reducible apply frameLoad_keeps | with_reducible apply waitWrites_keeps | with_reducible apply frameAdd_keeps | with_reducible apply store_keeps | with_reducible apply frameCount_keeps | with_reducible apply sound_foldl | with_reducible apply sound_foldl_fst)
    | dsimp only
    | split

theorem appendFrame_keeps {q : Base} : ∀ a0 a1 a2 a3 a4 a5, Keeps q (appendFrame a0 a1 a2 a3 a4 a5) := by
  intros
  unfold appendFrame
  repeat' first
    | with_reducible assumption
    | with_reducible exact keeps_pure
    | with_reducible exact keeps_throw
    | with_reducible exact keeps_read
    | with_reducible apply keeps_get_bind
    | with_reducible exact keeps_get
    | with_reducible apply keeps_bind
    | with_reducible apply keeps_set
    | with_reducible apply keeps_modify
    | with_reducible apply keeps_forM
    | with_reducible apply keeps_mapM
    | with_reducible apply keeps_foldlM
    | with_reducible apply keeps_forIn
    | with_reducible apply keeps_tryCatch
    | with_reducible apply keeps_map
    | with_reducible apply keeps_seq
    | with_reducible apply takeForPage_keeps
    | with_reducible apply inStepDo_keeps
    | with_reducible apply store_keeps
    | with_reducible apply copyOnWrite_keeps
    | with_reducible apply sound_foldl
    | with_reducible apply sound_foldl_fst
    | intro _
    | with_reducible apply keeps_ite
    | with_reducible apply sound_of_fst (by assumption)
    | with_reducible apply sound_of_some (by assumption)
    | with_reducible apply sound_of_snd (by assumption)
    | with_reducible apply sound_on
    | with_reducible apply sound_getD
    | (with_reducible refine sound_mk ?_ rfl rfl rfl rfl rfl rfl rfl; first | with_reducible assumption | with_reducible apply takeForPage_keeps | with_reducible apply inStepDo_keeps | with_reducible apply store_keeps | with_reducible apply copyOnWrite_keeps | with_reducible apply sound_foldl | with_reducible apply sound_foldl_fst)
    | dsimp only
    | split

theorem appendRows_keeps {q : Base} : ∀ a0 a1 a2 a3 a4 a5 a6, Keeps q (appendRows a0 a1 a2 a3 a4 a5 a6) := by
  intros
  unfold appendRows
  repeat' first
    | with_reducible assumption
    | with_reducible exact keeps_pure
    | with_reducible exact keeps_throw
    | with_reducible exact keeps_read
    | with_reducible apply keeps_get_bind
    | with_reducible exact keeps_get
    | with_reducible apply keeps_bind
    | with_reducible apply keeps_set
    | with_reducible apply keeps_modify
    | with_reducible apply keeps_forM
    | with_reducible apply keeps_mapM
    | with_reducible apply keeps_foldlM
    | with_reducible apply keeps_forIn
    | with_reducible apply keeps_tryCatch
    | with_reducible apply keeps_map
    | with_reducible apply keeps_seq
    | with_reducible apply store_keeps
    | with_reducible apply sound_foldl
    | with_reducible apply sound_foldl_fst
    | intro _
    | with_reducible apply keeps_ite
    | with_reducible apply sound_of_fst (by assumption)
    | with_reducible apply sound_of_some (by assumption)
    | with_reducible apply sound_of_snd (by assumption)
    | with_reducible apply sound_on
    | with_reducible apply sound_getD
    | (with_reducible refine sound_mk ?_ rfl rfl rfl rfl rfl rfl rfl; first | with_reducible assumption | with_reducible apply store_keeps | with_reducible apply sound_foldl | with_reducible apply sound_foldl_fst)
    | dsimp only
    | split

theorem sourceRows_keeps {q : Base} : ∀ a0 a1 a2 a3 a4, Keeps q (sourceRows a0 a1 a2 a3 a4) := by
  intros
  unfold sourceRows
  repeat' first
    | with_reducible assumption
    | with_reducible exact keeps_pure
    | with_reducible exact keeps_throw
    | with_reducible exact keeps_read
    | with_reducible apply keeps_get_bind
    | with_reducible exact keeps_get
    | with_reducible apply keeps_bind
    | with_reducible apply keeps_set
    | with_reducible apply keeps_modify
    | with_reducible apply keeps_forM
    | with_reducible apply keeps_mapM
    | with_reducible apply keeps_foldlM
    | with_reducible apply keeps_forIn
    | with_reducible apply keeps_tryCatch
    | with_reducible apply keeps_map
    | with_reducible apply keeps_seq
    | with_reducible apply locLoad_keeps
    | with_reducible apply sound_foldl
    | with_reducible apply sound_foldl_fst
    | intro _
    | with_reducible apply keeps_ite
    | with_reducible apply sound_of_fst (by assumption)
    | with_reducible apply sound_of_some (by assumption)
    | with_reducible apply sound_of_snd (by assumption)
    | with_reducible apply sound_on
    | with_reducible apply sound_getD
    | (with_reducible refine sound_mk ?_ rfl rfl rfl rfl rfl rfl rfl; first | with_reducible assumption | with_reducible apply locLoad_keeps | with_reducible apply sound_foldl | with_reducible apply sound_foldl_fst)
    | dsimp only
    | split

theorem stepEntries_keeps {q : Base} : ∀ a0 a1, Keeps q (stepEntries a0 a1) := by
  intros
  unfold stepEntries
  repeat' first
    | with_reducible assumption
    | with_reducible exact keeps_pure
    | with_reducible exact keeps_throw
    | with_reducible exact keeps_read
    | with_reducible apply keeps_get_bind
    | with_reducible exact keeps_get
    | with_reducible apply keeps_bind
    | with_reducible apply keeps_set
    | with_reducible apply keeps_modify
    | with_reducible apply keeps_forM
    | with_reducible apply keeps_mapM
    | with_reducible apply keeps_foldlM
    | with_reducible apply keeps_forIn
    | with_reducible apply keeps_tryCatch
    | with_reducible apply keeps_map
    | with_reducible apply keeps_seq
    | with_reducible apply loadNat_keeps
    | with_reducible apply inStep_keeps
    | with_reducible apply checkWrite_keeps
    | with_reducible apply sound_foldl
    | with_reducible apply sound_foldl_fst
    | intro _
    | with_reducible apply keeps_ite
    | with_reducible apply sound_of_fst (by assumption)
    | with_reducible apply sound_of_some (by assumption)
    | with_reducible apply sound_of_snd (by assumption)
    | with_reducible apply sound_on
    | with_reducible apply sound_getD
    | (with_reducible refine sound_mk ?_ rfl rfl rfl rfl rfl rfl rfl; first | with_reducible assumption | with_reducible apply loadNat_keeps | with_reducible apply inStep_keeps | with_reducible apply checkWrite_keeps | with_reducible apply sound_foldl | with_reducible apply sound_foldl_fst)
    | dsimp only
    | split

theorem entryOk_keeps {q : Base} : ∀ a0 a1 a2, Keeps q (entryOk a0 a1 a2) := by
  intros
  unfold entryOk
  repeat' first
    | with_reducible assumption
    | with_reducible exact keeps_pure
    | with_reducible exact keeps_throw
    | with_reducible exact keeps_read
    | with_reducible apply keeps_get_bind
    | with_reducible exact keeps_get
    | with_reducible apply keeps_bind
    | with_reducible apply keeps_set
    | with_reducible apply keeps_modify
    | with_reducible apply keeps_forM
    | with_reducible apply keeps_mapM
    | with_reducible apply keeps_foldlM
    | with_reducible apply keeps_forIn
    | with_reducible apply keeps_tryCatch
    | with_reducible apply keeps_map
    | with_reducible apply keeps_seq
    | with_reducible apply require_keeps
    | with_reducible apply checkWrite_keeps
    | with_reducible apply sound_foldl
    | with_reducible apply sound_foldl_fst
    | intro _
    | with_reducible apply keeps_ite
    | with_reducible apply sound_of_fst (by assumption)
    | with_reducible apply sound_of_some (by assumption)
    | with_reducible apply sound_of_snd (by assumption)
    | with_reducible apply sound_on
    | with_reducible apply sound_getD
    | (with_reducible refine sound_mk ?_ rfl rfl rfl rfl rfl rfl rfl; first | with_reducible assumption | with_reducible apply require_keeps | with_reducible apply checkWrite_keeps | with_reducible apply sound_foldl | with_reducible apply sound_foldl_fst)
    | dsimp only
    | split

theorem appendPages_keeps {q : Base} : ∀ a0 a1 a2 a3 a4 a5, Keeps q (appendPages a0 a1 a2 a3 a4 a5) := by
  intros
  unfold appendPages
  repeat' first
    | with_reducible assumption
    | with_reducible exact keeps_pure
    | with_reducible exact keeps_throw
    | with_reducible exact keeps_read
    | with_reducible apply keeps_get_bind
    | with_reducible exact keeps_get
    | with_reducible apply keeps_bind
    | with_reducible apply keeps_set
    | with_reducible apply keeps_modify
    | with_reducible apply keeps_forM
    | with_reducible apply keeps_mapM
    | with_reducible apply keeps_foldlM
    | with_reducible apply keeps_forIn
    | with_reducible apply keeps_tryCatch
    | with_reducible apply keeps_map
    | with_reducible apply keeps_seq
    | with_reducible apply inStepDo_keeps
    | with_reducible apply appendFrame_keeps
    | with_reducible apply appendRows_keeps
    | with_reducible apply sound_foldl
    | with_reducible apply sound_foldl_fst
    | intro _
    | with_reducible apply keeps_ite
    | with_reducible apply sound_of_fst (by assumption)
    | with_reducible apply sound_of_some (by assumption)
    | with_reducible apply sound_of_snd (by assumption)
    | with_reducible apply sound_on
    | with_reducible apply sound_getD
    | (with_reducible refine sound_mk ?_ rfl rfl rfl rfl rfl rfl rfl; first | with_reducible assumption | with_reducible apply inStepDo_keeps | with_reducible apply appendFrame_keeps | with_reducible apply appendRows_keeps | with_reducible apply sound_foldl | with_reducible apply sound_foldl_fst)
    | dsimp only
    | split

theorem kvAppendWork_keeps {q : Base} : Keeps q kvAppendWork := by
  intros
  unfold kvAppendWork
  repeat' first
    | with_reducible assumption
    | with_reducible exact keeps_pure
    | with_reducible exact keeps_throw
    | with_reducible exact keeps_read
    | with_reducible apply keeps_get_bind
    | with_reducible exact keeps_get
    | with_reducible apply keeps_bind
    | with_reducible apply keeps_set
    | with_reducible apply keeps_modify
    | with_reducible apply keeps_forM
    | with_reducible apply keeps_mapM
    | with_reducible apply keeps_foldlM
    | with_reducible apply keeps_forIn
    | with_reducible apply keeps_tryCatch
    | with_reducible apply keeps_map
    | with_reducible apply keeps_seq
    | with_reducible apply entryOk_keeps
    | with_reducible apply sourceRows_keeps
    | with_reducible apply stepTable_keeps
    | with_reducible apply inStepDo_keeps
    | with_reducible apply require_keeps
    | with_reducible apply waitWrites_keeps
    | with_reducible apply kvAppendCheck_keeps
    | with_reducible apply stepEntries_keeps
    | with_reducible apply store_keeps
    | with_reducible apply runTime_keeps
    | with_reducible apply appendPages_keeps
    | with_reducible apply stepSeq_keeps
    | with_reducible apply sound_foldl
    | with_reducible apply sound_foldl_fst
    | intro _
    | with_reducible apply keeps_ite
    | with_reducible apply sound_of_fst (by assumption)
    | with_reducible apply sound_of_some (by assumption)
    | with_reducible apply sound_of_snd (by assumption)
    | with_reducible apply sound_on
    | with_reducible apply sound_getD
    | (with_reducible refine sound_mk ?_ rfl rfl rfl rfl rfl rfl rfl; first | with_reducible assumption | with_reducible apply entryOk_keeps | with_reducible apply sourceRows_keeps | with_reducible apply stepTable_keeps | with_reducible apply inStepDo_keeps | with_reducible apply require_keeps | with_reducible apply waitWrites_keeps | with_reducible apply kvAppendCheck_keeps | with_reducible apply stepEntries_keeps | with_reducible apply store_keeps | with_reducible apply runTime_keeps | with_reducible apply appendPages_keeps | with_reducible apply stepSeq_keeps | with_reducible apply sound_foldl | with_reducible apply sound_foldl_fst)
    | dsimp only
    | split

theorem execKvAppend_sound {q : Base} : ∀ a0 a1 {s : State}, Sound q s → OutSound q (execKvAppend a0 a1 s) := by
  intros
  unfold execKvAppend
  repeat' first
    | with_reducible assumption
    | with_reducible apply outSound_next
    | with_reducible apply State.runItem_sound
    | with_reducible apply kvAppendWork_keeps
    | with_reducible apply sound_foldl
    | with_reducible apply sound_foldl_fst
    | intro _
    | with_reducible apply sound_of_fst (by assumption)
    | with_reducible apply sound_of_some (by assumption)
    | with_reducible apply sound_of_snd (by assumption)
    | with_reducible apply sound_on
    | with_reducible apply sound_getD
    | (with_reducible refine sound_mk ?_ rfl rfl rfl rfl rfl rfl rfl; first | with_reducible assumption | with_reducible apply State.runItem_sound | with_reducible apply kvAppendWork_keeps | with_reducible apply sound_foldl | with_reducible apply sound_foldl_fst)
    | dsimp only
    | split

theorem seqCheck_keeps {q : Base} : ∀ a0, Keeps q (seqCheck a0) := by
  intros
  unfold seqCheck
  repeat' first
    | with_reducible assumption
    | with_reducible exact keeps_pure
    | with_reducible exact keeps_throw
    | with_reducible exact keeps_read
    | with_reducible apply keeps_get_bind
    | with_reducible exact keeps_get
    | with_reducible apply keeps_bind
    | with_reducible apply keeps_set
    | with_reducible apply keeps_modify
    | with_reducible apply keeps_forM
    | with_reducible apply keeps_mapM
    | with_reducible apply keeps_foldlM
    | with_reducible apply keeps_forIn
    | with_reducible apply keeps_tryCatch
    | with_reducible apply keeps_map
    | with_reducible apply keeps_seq
    | with_reducible apply require_keeps
    | with_reducible apply sound_foldl
    | with_reducible apply sound_foldl_fst
    | intro _
    | with_reducible apply keeps_ite
    | with_reducible apply sound_of_fst (by assumption)
    | with_reducible apply sound_of_some (by assumption)
    | with_reducible apply sound_of_snd (by assumption)
    | with_reducible apply sound_on
    | with_reducible apply sound_getD
    | (with_reducible refine sound_mk ?_ rfl rfl rfl rfl rfl rfl rfl; first | with_reducible assumption | with_reducible apply require_keeps | with_reducible apply sound_foldl | with_reducible apply sound_foldl_fst)
    | dsimp only
    | split

theorem seqOperand_keeps {q : Base} : Keeps q seqOperand := by
  intros
  unfold seqOperand
  repeat' first
    | with_reducible assumption
    | with_reducible exact keeps_pure
    | with_reducible exact keeps_throw
    | with_reducible exact keeps_read
    | with_reducible apply keeps_get_bind
    | with_reducible exact keeps_get
    | with_reducible apply keeps_bind
    | with_reducible apply keeps_set
    | with_reducible apply keeps_modify
    | with_reducible apply keeps_forM
    | with_reducible apply keeps_mapM
    | with_reducible apply keeps_foldlM
    | with_reducible apply keeps_forIn
    | with_reducible apply keeps_tryCatch
    | with_reducible apply keeps_map
    | with_reducible apply keeps_seq
    | with_reducible apply require_keeps
    | with_reducible apply shapeEntry_keeps
    | with_reducible apply seqCheck_keeps
    | with_reducible apply stepSeq_keeps
    | with_reducible apply sound_foldl
    | with_reducible apply sound_foldl_fst
    | intro _
    | with_reducible apply keeps_ite
    | with_reducible apply sound_of_fst (by assumption)
    | with_reducible apply sound_of_some (by assumption)
    | with_reducible apply sound_of_snd (by assumption)
    | with_reducible apply sound_on
    | with_reducible apply sound_getD
    | (with_reducible refine sound_mk ?_ rfl rfl rfl rfl rfl rfl rfl; first | with_reducible assumption | with_reducible apply require_keeps | with_reducible apply shapeEntry_keeps | with_reducible apply seqCheck_keeps | with_reducible apply stepSeq_keeps | with_reducible apply sound_foldl | with_reducible apply sound_foldl_fst)
    | dsimp only
    | split

theorem PoolAt.link_keeps {q : Base} : ∀ a0 a1 a2, Keeps q (PoolAt.link a0 a1 a2) := by
  intro a0 a1 a2
  induction a2 generalizing a0 a1 with
  | zero =>
    intros
    unfold PoolAt.link
    repeat' first
      | with_reducible assumption
      | with_reducible exact keeps_pure
      | with_reducible exact keeps_throw
      | with_reducible exact keeps_read
      | with_reducible apply keeps_get_bind
      | with_reducible exact keeps_get
      | with_reducible apply keeps_bind
      | with_reducible apply keeps_set
      | with_reducible apply keeps_modify
      | with_reducible apply keeps_forM
      | with_reducible apply keeps_mapM
      | with_reducible apply keeps_foldlM
      | with_reducible apply keeps_forIn
      | with_reducible apply keeps_tryCatch
      | with_reducible apply keeps_map
      | with_reducible apply keeps_seq
      | with_reducible apply freshNat_keeps
      | with_reducible apply stopWith_keeps
      | with_reducible apply remoteAtomic_keeps
      | with_reducible apply sound_foldl
      | with_reducible apply sound_foldl_fst
      | intro _
      | with_reducible apply keeps_ite
      | with_reducible apply sound_of_fst (by assumption)
      | with_reducible apply sound_of_some (by assumption)
      | with_reducible apply sound_of_snd (by assumption)
      | with_reducible apply sound_on
      | with_reducible apply sound_getD
      | (with_reducible refine sound_mk ?_ rfl rfl rfl rfl rfl rfl rfl; first | with_reducible assumption | with_reducible apply freshNat_keeps | with_reducible apply stopWith_keeps | with_reducible apply remoteAtomic_keeps | with_reducible apply sound_foldl | with_reducible apply sound_foldl_fst)
      | dsimp only
      | split
  | succ n ih =>
    intros
    unfold PoolAt.link
    repeat' first
      | with_reducible assumption
      | with_reducible apply ih
      | with_reducible exact keeps_pure
      | with_reducible exact keeps_throw
      | with_reducible exact keeps_read
      | with_reducible apply keeps_get_bind
      | with_reducible exact keeps_get
      | with_reducible apply keeps_bind
      | with_reducible apply keeps_set
      | with_reducible apply keeps_modify
      | with_reducible apply keeps_forM
      | with_reducible apply keeps_mapM
      | with_reducible apply keeps_foldlM
      | with_reducible apply keeps_forIn
      | with_reducible apply keeps_tryCatch
      | with_reducible apply keeps_map
      | with_reducible apply keeps_seq
      | with_reducible apply freshNat_keeps
      | with_reducible apply stopWith_keeps
      | with_reducible apply remoteAtomic_keeps
      | with_reducible apply sound_foldl
      | with_reducible apply sound_foldl_fst
      | intro _
      | with_reducible apply keeps_ite
      | with_reducible apply sound_of_fst (by assumption)
      | with_reducible apply sound_of_some (by assumption)
      | with_reducible apply sound_of_snd (by assumption)
      | with_reducible apply sound_on
      | with_reducible apply sound_getD
      | (with_reducible refine sound_mk ?_ rfl rfl rfl rfl rfl rfl rfl; first | with_reducible assumption | with_reducible apply freshNat_keeps | with_reducible apply stopWith_keeps | with_reducible apply remoteAtomic_keeps | with_reducible apply sound_foldl | with_reducible apply sound_foldl_fst)
      | dsimp only
      | split

theorem seqJoinWork_keeps {q : Base} : Keeps q seqJoinWork := by
  intros
  unfold seqJoinWork
  repeat' first
    | with_reducible assumption
    | with_reducible exact keeps_pure
    | with_reducible exact keeps_throw
    | with_reducible exact keeps_read
    | with_reducible apply keeps_get_bind
    | with_reducible exact keeps_get
    | with_reducible apply keeps_bind
    | with_reducible apply keeps_set
    | with_reducible apply keeps_modify
    | with_reducible apply keeps_forM
    | with_reducible apply keeps_mapM
    | with_reducible apply keeps_foldlM
    | with_reducible apply keeps_forIn
    | with_reducible apply keeps_tryCatch
    | with_reducible apply keeps_map
    | with_reducible apply keeps_seq
    | with_reducible apply freshNat_keeps
    | with_reducible apply stopWith_keeps
    | with_reducible apply inStepDo_keeps
    | with_reducible apply require_keeps
    | with_reducible apply seqOperand_keeps
    | with_reducible apply waitWrites_keeps
    | with_reducible apply store_keeps
    | with_reducible apply State.acceptJoin_sound
    | with_reducible apply inStepNat_keeps
    | with_reducible apply poolOf_keeps
    | with_reducible apply PoolAt.link_keeps
    | with_reducible apply sound_foldl
    | with_reducible apply sound_foldl_fst
    | intro _
    | with_reducible apply keeps_ite
    | with_reducible apply sound_of_fst (by assumption)
    | with_reducible apply sound_of_some (by assumption)
    | with_reducible apply sound_of_snd (by assumption)
    | with_reducible apply sound_on
    | with_reducible apply sound_getD
    | (with_reducible refine sound_mk ?_ rfl rfl rfl rfl rfl rfl rfl; first | with_reducible assumption | with_reducible apply freshNat_keeps | with_reducible apply stopWith_keeps | with_reducible apply inStepDo_keeps | with_reducible apply require_keeps | with_reducible apply seqOperand_keeps | with_reducible apply waitWrites_keeps | with_reducible apply store_keeps | with_reducible apply State.acceptJoin_sound | with_reducible apply inStepNat_keeps | with_reducible apply poolOf_keeps | with_reducible apply PoolAt.link_keeps | with_reducible apply sound_foldl | with_reducible apply sound_foldl_fst)
    | dsimp only
    | split

theorem execSeqJoin_sound {q : Base} : ∀ a0 a1 {s : State}, Sound q s → OutSound q (execSeqJoin a0 a1 s) := by
  intros
  unfold execSeqJoin
  repeat' first
    | with_reducible assumption
    | with_reducible apply outSound_next
    | with_reducible apply State.runItem_sound
    | with_reducible apply seqJoinWork_keeps
    | with_reducible apply sound_foldl
    | with_reducible apply sound_foldl_fst
    | intro _
    | with_reducible apply sound_of_fst (by assumption)
    | with_reducible apply sound_of_some (by assumption)
    | with_reducible apply sound_of_snd (by assumption)
    | with_reducible apply sound_on
    | with_reducible apply sound_getD
    | (with_reducible refine sound_mk ?_ rfl rfl rfl rfl rfl rfl rfl; first | with_reducible assumption | with_reducible apply State.runItem_sound | with_reducible apply seqJoinWork_keeps | with_reducible apply sound_foldl | with_reducible apply sound_foldl_fst)
    | dsimp only
    | split

theorem PoolAt.reserveOwn_keeps {q : Base} : ∀ a0 a1 a2, Keeps q (PoolAt.reserveOwn a0 a1 a2) := by
  intros
  unfold PoolAt.reserveOwn
  repeat' first
    | with_reducible assumption
    | with_reducible exact keeps_pure
    | with_reducible exact keeps_throw
    | with_reducible exact keeps_read
    | with_reducible apply keeps_get_bind
    | with_reducible exact keeps_get
    | with_reducible apply keeps_bind
    | with_reducible apply keeps_set
    | with_reducible apply keeps_modify
    | with_reducible apply keeps_forM
    | with_reducible apply keeps_mapM
    | with_reducible apply keeps_foldlM
    | with_reducible apply keeps_forIn
    | with_reducible apply keeps_tryCatch
    | with_reducible apply keeps_map
    | with_reducible apply keeps_seq
    | with_reducible apply State.heldUp_sound
    | with_reducible apply store_keeps
    | with_reducible apply PoolAt.refusal_keeps
    | with_reducible apply load_keeps
    | with_reducible apply sound_foldl
    | with_reducible apply sound_foldl_fst
    | intro _
    | with_reducible apply keeps_ite
    | with_reducible apply sound_of_fst (by assumption)
    | with_reducible apply sound_of_some (by assumption)
    | with_reducible apply sound_of_snd (by assumption)
    | with_reducible apply sound_on
    | with_reducible apply sound_getD
    | (with_reducible refine sound_mk ?_ rfl rfl rfl rfl rfl rfl rfl; first | with_reducible assumption | with_reducible apply State.heldUp_sound | with_reducible apply store_keeps | with_reducible apply PoolAt.refusal_keeps | with_reducible apply load_keeps | with_reducible apply sound_foldl | with_reducible apply sound_foldl_fst)
    | dsimp only
    | split

theorem seqReserveWork_keeps {q : Base} : Keeps q seqReserveWork := by
  intros
  unfold seqReserveWork
  repeat' first
    | with_reducible assumption
    | with_reducible exact keeps_pure
    | with_reducible exact keeps_throw
    | with_reducible exact keeps_read
    | with_reducible apply keeps_get_bind
    | with_reducible exact keeps_get
    | with_reducible apply keeps_bind
    | with_reducible apply keeps_set
    | with_reducible apply keeps_modify
    | with_reducible apply keeps_forM
    | with_reducible apply keeps_mapM
    | with_reducible apply keeps_foldlM
    | with_reducible apply keeps_forIn
    | with_reducible apply keeps_tryCatch
    | with_reducible apply keeps_map
    | with_reducible apply keeps_seq
    | with_reducible apply PoolAt.commit_keeps
    | with_reducible apply changeResv_keeps
    | with_reducible apply stopWith_keeps
    | with_reducible apply require_keeps
    | with_reducible apply seqOperand_keeps
    | with_reducible apply PoolAt.reserveOwn_keeps
    | with_reducible apply inStepNat_keeps
    | with_reducible apply poolOf_keeps
    | with_reducible apply sound_foldl
    | with_reducible apply sound_foldl_fst
    | intro _
    | with_reducible apply keeps_ite
    | with_reducible apply sound_of_fst (by assumption)
    | with_reducible apply sound_of_some (by assumption)
    | with_reducible apply sound_of_snd (by assumption)
    | with_reducible apply sound_on
    | with_reducible apply sound_getD
    | (with_reducible refine sound_mk ?_ rfl rfl rfl rfl rfl rfl rfl; first | with_reducible assumption | with_reducible apply PoolAt.commit_keeps | with_reducible apply changeResv_keeps | with_reducible apply stopWith_keeps | with_reducible apply require_keeps | with_reducible apply seqOperand_keeps | with_reducible apply PoolAt.reserveOwn_keeps | with_reducible apply inStepNat_keeps | with_reducible apply poolOf_keeps | with_reducible apply sound_foldl | with_reducible apply sound_foldl_fst)
    | dsimp only
    | split

theorem execSeqReserve_sound {q : Base} : ∀ a0 a1 {s : State}, Sound q s → OutSound q (execSeqReserve a0 a1 s) := by
  intros
  unfold execSeqReserve
  repeat' first
    | with_reducible assumption
    | with_reducible apply outSound_next
    | with_reducible apply State.runItem_sound
    | with_reducible apply seqReserveWork_keeps
    | with_reducible apply sound_foldl
    | with_reducible apply sound_foldl_fst
    | intro _
    | with_reducible apply sound_of_fst (by assumption)
    | with_reducible apply sound_of_some (by assumption)
    | with_reducible apply sound_of_snd (by assumption)
    | with_reducible apply sound_on
    | with_reducible apply sound_getD
    | (with_reducible refine sound_mk ?_ rfl rfl rfl rfl rfl rfl rfl; first | with_reducible assumption | with_reducible apply State.runItem_sound | with_reducible apply seqReserveWork_keeps | with_reducible apply sound_foldl | with_reducible apply sound_foldl_fst)
    | dsimp only
    | split

theorem seqLeaveCheck_keeps {q : Base} : ∀ a0, Keeps q (seqLeaveCheck a0) := by
  intros
  unfold seqLeaveCheck
  repeat' first
    | with_reducible assumption
    | with_reducible exact keeps_pure
    | with_reducible exact keeps_throw
    | with_reducible exact keeps_read
    | with_reducible apply keeps_get_bind
    | with_reducible exact keeps_get
    | with_reducible apply keeps_bind
    | with_reducible apply keeps_set
    | with_reducible apply keeps_modify
    | with_reducible apply keeps_forM
    | with_reducible apply keeps_mapM
    | with_reducible apply keeps_foldlM
    | with_reducible apply keeps_forIn
    | with_reducible apply keeps_tryCatch
    | with_reducible apply keeps_map
    | with_reducible apply keeps_seq
    | with_reducible apply require_keeps
    | with_reducible apply sound_foldl
    | with_reducible apply sound_foldl_fst
    | intro _
    | with_reducible apply keeps_ite
    | with_reducible apply sound_of_fst (by assumption)
    | with_reducible apply sound_of_some (by assumption)
    | with_reducible apply sound_of_snd (by assumption)
    | with_reducible apply sound_on
    | with_reducible apply sound_getD
    | (with_reducible refine sound_mk ?_ rfl rfl rfl rfl rfl rfl rfl; first | with_reducible assumption | with_reducible apply require_keeps | with_reducible apply sound_foldl | with_reducible apply sound_foldl_fst)
    | dsimp only
    | split

theorem releaseEntries_keeps {q : Base} : ∀ a0 a1, Keeps q (releaseEntries a0 a1) := by
  intros
  unfold releaseEntries
  repeat' first
    | with_reducible assumption
    | with_reducible exact keeps_pure
    | with_reducible exact keeps_throw
    | with_reducible exact keeps_read
    | with_reducible apply keeps_get_bind
    | with_reducible exact keeps_get
    | with_reducible apply keeps_bind
    | with_reducible apply keeps_set
    | with_reducible apply keeps_modify
    | with_reducible apply keeps_forM
    | with_reducible apply keeps_mapM
    | with_reducible apply keeps_foldlM
    | with_reducible apply keeps_forIn
    | with_reducible apply keeps_tryCatch
    | with_reducible apply keeps_map
    | with_reducible apply keeps_seq
    | with_reducible apply inStepDo_keeps
    | with_reducible apply frameAdd_keeps
    | with_reducible apply store_keeps
    | with_reducible apply sound_foldl
    | with_reducible apply sound_foldl_fst
    | intro _
    | with_reducible apply keeps_ite
    | with_reducible apply sound_of_fst (by assumption)
    | with_reducible apply sound_of_some (by assumption)
    | with_reducible apply sound_of_snd (by assumption)
    | with_reducible apply sound_on
    | with_reducible apply sound_getD
    | (with_reducible refine sound_mk ?_ rfl rfl rfl rfl rfl rfl rfl; first | with_reducible assumption | with_reducible apply inStepDo_keeps | with_reducible apply frameAdd_keeps | with_reducible apply store_keeps | with_reducible apply sound_foldl | with_reducible apply sound_foldl_fst)
    | dsimp only
    | split

theorem returnReserve_keeps {q : Base} : ∀ a0 a1, Keeps q (returnReserve a0 a1) := by
  intros
  unfold returnReserve
  repeat' first
    | with_reducible assumption
    | with_reducible exact keeps_pure
    | with_reducible exact keeps_throw
    | with_reducible exact keeps_read
    | with_reducible apply keeps_get_bind
    | with_reducible exact keeps_get
    | with_reducible apply keeps_bind
    | with_reducible apply keeps_set
    | with_reducible apply keeps_modify
    | with_reducible apply keeps_forM
    | with_reducible apply keeps_mapM
    | with_reducible apply keeps_foldlM
    | with_reducible apply keeps_forIn
    | with_reducible apply keeps_tryCatch
    | with_reducible apply keeps_map
    | with_reducible apply keeps_seq
    | with_reducible apply loadNat_keeps
    | with_reducible apply inStepDo_keeps
    | with_reducible apply State.heldDown_sound
    | with_reducible apply store_keeps
    | with_reducible apply remoteAtomic_keeps
    | with_reducible apply poolOf_keeps
    | with_reducible apply sound_foldl
    | with_reducible apply sound_foldl_fst
    | intro _
    | with_reducible apply keeps_ite
    | with_reducible apply sound_of_fst (by assumption)
    | with_reducible apply sound_of_some (by assumption)
    | with_reducible apply sound_of_snd (by assumption)
    | with_reducible apply sound_on
    | with_reducible apply sound_getD
    | (with_reducible refine sound_mk ?_ rfl rfl rfl rfl rfl rfl rfl; first | with_reducible assumption | with_reducible apply loadNat_keeps | with_reducible apply inStepDo_keeps | with_reducible apply State.heldDown_sound | with_reducible apply store_keeps | with_reducible apply remoteAtomic_keeps | with_reducible apply poolOf_keeps | with_reducible apply sound_foldl | with_reducible apply sound_foldl_fst)
    | dsimp only
    | split

theorem seqLeaveWork_keeps {q : Base} : Keeps q seqLeaveWork := by
  intros
  unfold seqLeaveWork
  repeat' first
    | with_reducible assumption
    | with_reducible exact keeps_pure
    | with_reducible exact keeps_throw
    | with_reducible exact keeps_read
    | with_reducible apply keeps_get_bind
    | with_reducible exact keeps_get
    | with_reducible apply keeps_bind
    | with_reducible apply keeps_set
    | with_reducible apply keeps_modify
    | with_reducible apply keeps_forM
    | with_reducible apply keeps_mapM
    | with_reducible apply keeps_foldlM
    | with_reducible apply keeps_forIn
    | with_reducible apply keeps_tryCatch
    | with_reducible apply keeps_map
    | with_reducible apply keeps_seq
    | with_reducible apply stepTable_keeps
    | with_reducible apply changeResv_keeps
    | with_reducible apply releaseEntries_keeps
    | with_reducible apply inStepDo_keeps
    | with_reducible apply require_keeps
    | with_reducible apply stepEntries_keeps
    | with_reducible apply store_keeps
    | with_reducible apply returnReserve_keeps
    | with_reducible apply seqLeaveCheck_keeps
    | with_reducible apply checkWrite_keeps
    | with_reducible apply stepSeq_keeps
    | with_reducible apply sound_foldl
    | with_reducible apply sound_foldl_fst
    | intro _
    | with_reducible apply keeps_ite
    | with_reducible apply sound_of_fst (by assumption)
    | with_reducible apply sound_of_some (by assumption)
    | with_reducible apply sound_of_snd (by assumption)
    | with_reducible apply sound_on
    | with_reducible apply sound_getD
    | (with_reducible refine sound_mk ?_ rfl rfl rfl rfl rfl rfl rfl; first | with_reducible assumption | with_reducible apply stepTable_keeps | with_reducible apply changeResv_keeps | with_reducible apply releaseEntries_keeps | with_reducible apply inStepDo_keeps | with_reducible apply require_keeps | with_reducible apply stepEntries_keeps | with_reducible apply store_keeps | with_reducible apply returnReserve_keeps | with_reducible apply seqLeaveCheck_keeps | with_reducible apply checkWrite_keeps | with_reducible apply stepSeq_keeps | with_reducible apply sound_foldl | with_reducible apply sound_foldl_fst)
    | dsimp only
    | split

theorem execSeqLeave_sound {q : Base} : ∀ a0 a1 {s : State}, Sound q s → OutSound q (execSeqLeave a0 a1 s) := by
  intros
  unfold execSeqLeave
  repeat' first
    | with_reducible assumption
    | with_reducible apply outSound_next
    | with_reducible apply State.runItem_sound
    | with_reducible apply seqLeaveWork_keeps
    | with_reducible apply sound_foldl
    | with_reducible apply sound_foldl_fst
    | intro _
    | with_reducible apply sound_of_fst (by assumption)
    | with_reducible apply sound_of_some (by assumption)
    | with_reducible apply sound_of_snd (by assumption)
    | with_reducible apply sound_on
    | with_reducible apply sound_getD
    | (with_reducible refine sound_mk ?_ rfl rfl rfl rfl rfl rfl rfl; first | with_reducible assumption | with_reducible apply State.runItem_sound | with_reducible apply seqLeaveWork_keeps | with_reducible apply sound_foldl | with_reducible apply sound_foldl_fst)
    | dsimp only
    | split

theorem pageShareCheck_keeps {q : Base} : ∀ a0, Keeps q (pageShareCheck a0) := by
  intros
  unfold pageShareCheck
  repeat' first
    | with_reducible assumption
    | with_reducible exact keeps_pure
    | with_reducible exact keeps_throw
    | with_reducible exact keeps_read
    | with_reducible apply keeps_get_bind
    | with_reducible exact keeps_get
    | with_reducible apply keeps_bind
    | with_reducible apply keeps_set
    | with_reducible apply keeps_modify
    | with_reducible apply keeps_forM
    | with_reducible apply keeps_mapM
    | with_reducible apply keeps_foldlM
    | with_reducible apply keeps_forIn
    | with_reducible apply keeps_tryCatch
    | with_reducible apply keeps_map
    | with_reducible apply keeps_seq
    | with_reducible apply require_keeps
    | with_reducible apply sound_foldl
    | with_reducible apply sound_foldl_fst
    | intro _
    | with_reducible apply keeps_ite
    | with_reducible apply sound_of_fst (by assumption)
    | with_reducible apply sound_of_some (by assumption)
    | with_reducible apply sound_of_snd (by assumption)
    | with_reducible apply sound_on
    | with_reducible apply sound_getD
    | (with_reducible refine sound_mk ?_ rfl rfl rfl rfl rfl rfl rfl; first | with_reducible assumption | with_reducible apply require_keeps | with_reducible apply sound_foldl | with_reducible apply sound_foldl_fst)
    | dsimp only
    | split

theorem shareEntries_keeps {q : Base} : ∀ a0 a1 a2, Keeps q (shareEntries a0 a1 a2) := by
  intros
  unfold shareEntries
  repeat' first
    | with_reducible assumption
    | with_reducible exact keeps_pure
    | with_reducible exact keeps_throw
    | with_reducible exact keeps_read
    | with_reducible apply keeps_get_bind
    | with_reducible exact keeps_get
    | with_reducible apply keeps_bind
    | with_reducible apply keeps_set
    | with_reducible apply keeps_modify
    | with_reducible apply keeps_forM
    | with_reducible apply keeps_mapM
    | with_reducible apply keeps_foldlM
    | with_reducible apply keeps_forIn
    | with_reducible apply keeps_tryCatch
    | with_reducible apply keeps_map
    | with_reducible apply keeps_seq
    | with_reducible apply require_keeps
    | with_reducible apply stepEntries_keeps
    | with_reducible apply checkRead_keeps
    | with_reducible apply sound_foldl
    | with_reducible apply sound_foldl_fst
    | intro _
    | with_reducible apply keeps_ite
    | with_reducible apply sound_of_fst (by assumption)
    | with_reducible apply sound_of_some (by assumption)
    | with_reducible apply sound_of_snd (by assumption)
    | with_reducible apply sound_on
    | with_reducible apply sound_getD
    | (with_reducible refine sound_mk ?_ rfl rfl rfl rfl rfl rfl rfl; first | with_reducible assumption | with_reducible apply require_keeps | with_reducible apply stepEntries_keeps | with_reducible apply checkRead_keeps | with_reducible apply sound_foldl | with_reducible apply sound_foldl_fst)
    | dsimp only
    | split

theorem shareCounts_keeps {q : Base} : ∀ a0, Keeps q (shareCounts a0) := by
  intros
  unfold shareCounts
  repeat' first
    | with_reducible assumption
    | with_reducible exact keeps_pure
    | with_reducible exact keeps_throw
    | with_reducible exact keeps_read
    | with_reducible apply keeps_get_bind
    | with_reducible exact keeps_get
    | with_reducible apply keeps_bind
    | with_reducible apply keeps_set
    | with_reducible apply keeps_modify
    | with_reducible apply keeps_forM
    | with_reducible apply keeps_mapM
    | with_reducible apply keeps_foldlM
    | with_reducible apply keeps_forIn
    | with_reducible apply keeps_tryCatch
    | with_reducible apply keeps_map
    | with_reducible apply keeps_seq
    | with_reducible apply require_keeps
    | with_reducible apply frameCount_keeps
    | with_reducible apply sound_foldl
    | with_reducible apply sound_foldl_fst
    | intro _
    | with_reducible apply keeps_ite
    | with_reducible apply sound_of_fst (by assumption)
    | with_reducible apply sound_of_some (by assumption)
    | with_reducible apply sound_of_snd (by assumption)
    | with_reducible apply sound_on
    | with_reducible apply sound_getD
    | (with_reducible refine sound_mk ?_ rfl rfl rfl rfl rfl rfl rfl; first | with_reducible assumption | with_reducible apply require_keeps | with_reducible apply frameCount_keeps | with_reducible apply sound_foldl | with_reducible apply sound_foldl_fst)
    | dsimp only
    | split

theorem shareAll_keeps {q : Base} : ∀ a0, Keeps q (shareAll a0) := by
  intros
  unfold shareAll
  repeat' first
    | with_reducible assumption
    | with_reducible exact keeps_pure
    | with_reducible exact keeps_throw
    | with_reducible exact keeps_read
    | with_reducible apply keeps_get_bind
    | with_reducible exact keeps_get
    | with_reducible apply keeps_bind
    | with_reducible apply keeps_set
    | with_reducible apply keeps_modify
    | with_reducible apply keeps_forM
    | with_reducible apply keeps_mapM
    | with_reducible apply keeps_foldlM
    | with_reducible apply keeps_forIn
    | with_reducible apply keeps_tryCatch
    | with_reducible apply keeps_map
    | with_reducible apply keeps_seq
    | with_reducible apply inStepDo_keeps
    | with_reducible apply frameAdd_keeps
    | with_reducible apply store_keeps
    | with_reducible apply sound_foldl
    | with_reducible apply sound_foldl_fst
    | intro _
    | with_reducible apply keeps_ite
    | with_reducible apply sound_of_fst (by assumption)
    | with_reducible apply sound_of_some (by assumption)
    | with_reducible apply sound_of_snd (by assumption)
    | with_reducible apply sound_on
    | with_reducible apply sound_getD
    | (with_reducible refine sound_mk ?_ rfl rfl rfl rfl rfl rfl rfl; first | with_reducible assumption | with_reducible apply inStepDo_keeps | with_reducible apply frameAdd_keeps | with_reducible apply store_keeps | with_reducible apply sound_foldl | with_reducible apply sound_foldl_fst)
    | dsimp only
    | split

theorem pageShareWork_keeps {q : Base} : Keeps q pageShareWork := by
  intros
  unfold pageShareWork
  repeat' first
    | with_reducible assumption
    | with_reducible exact keeps_pure
    | with_reducible exact keeps_throw
    | with_reducible exact keeps_read
    | with_reducible apply keeps_get_bind
    | with_reducible exact keeps_get
    | with_reducible apply keeps_bind
    | with_reducible apply keeps_set
    | with_reducible apply keeps_modify
    | with_reducible apply keeps_forM
    | with_reducible apply keeps_mapM
    | with_reducible apply keeps_foldlM
    | with_reducible apply keeps_forIn
    | with_reducible apply keeps_tryCatch
    | with_reducible apply keeps_map
    | with_reducible apply keeps_seq
    | with_reducible apply shareEntries_keeps
    | with_reducible apply stepTable_keeps
    | with_reducible apply shareAll_keeps
    | with_reducible apply shareCounts_keeps
    | with_reducible apply inStepDo_keeps
    | with_reducible apply require_keeps
    | with_reducible apply store_keeps
    | with_reducible apply pageShareCheck_keeps
    | with_reducible apply sound_foldl
    | with_reducible apply sound_foldl_fst
    | intro _
    | with_reducible apply keeps_ite
    | with_reducible apply sound_of_fst (by assumption)
    | with_reducible apply sound_of_some (by assumption)
    | with_reducible apply sound_of_snd (by assumption)
    | with_reducible apply sound_on
    | with_reducible apply sound_getD
    | (with_reducible refine sound_mk ?_ rfl rfl rfl rfl rfl rfl rfl; first | with_reducible assumption | with_reducible apply shareEntries_keeps | with_reducible apply stepTable_keeps | with_reducible apply shareAll_keeps | with_reducible apply shareCounts_keeps | with_reducible apply inStepDo_keeps | with_reducible apply require_keeps | with_reducible apply store_keeps | with_reducible apply pageShareCheck_keeps | with_reducible apply sound_foldl | with_reducible apply sound_foldl_fst)
    | dsimp only
    | split

theorem execPageShare_sound {q : Base} : ∀ a0 a1 {s : State}, Sound q s → OutSound q (execPageShare a0 a1 s) := by
  intros
  unfold execPageShare
  repeat' first
    | with_reducible assumption
    | with_reducible apply outSound_next
    | with_reducible apply State.runItem_sound
    | with_reducible apply pageShareWork_keeps
    | with_reducible apply sound_foldl
    | with_reducible apply sound_foldl_fst
    | intro _
    | with_reducible apply sound_of_fst (by assumption)
    | with_reducible apply sound_of_some (by assumption)
    | with_reducible apply sound_of_snd (by assumption)
    | with_reducible apply sound_on
    | with_reducible apply sound_getD
    | (with_reducible refine sound_mk ?_ rfl rfl rfl rfl rfl rfl rfl; first | with_reducible assumption | with_reducible apply State.runItem_sound | with_reducible apply pageShareWork_keeps | with_reducible apply sound_foldl | with_reducible apply sound_foldl_fst)
    | dsimp only
    | split

end Sys2Proof.Machine
end

