-- ==== Sys2Proof/Laws/KeepFlags.lean ====
section
/-! SUPPORT. What the operations of `Machine/Flags.lean` keep: the memories in canonical form and the queue. -/

set_option linter.unusedTactic false
set_option linter.unreachableTactic false

namespace Sys2Proof.Machine

theorem State.countSkips_sound {q : Base} : ∀ {s : State} a1, Sound q s → Sound q (State.countSkips s a1) := by
  intros
  unfold State.countSkips
  repeat' first
    | with_reducible assumption
    | with_reducible apply State.bump_sound
    | with_reducible apply sound_foldl
    | with_reducible apply sound_foldl_fst
    | intro _
    | with_reducible apply sound_ite
    | with_reducible apply sound_of_fst (by assumption)
    | with_reducible apply sound_of_some (by assumption)
    | with_reducible apply sound_of_snd (by assumption)
    | with_reducible apply sound_on
    | with_reducible apply sound_getD
    | (with_reducible refine sound_mk ?_ rfl rfl rfl rfl rfl rfl rfl; first | with_reducible assumption | with_reducible apply State.bump_sound | with_reducible apply sound_foldl | with_reducible apply sound_foldl_fst)
    | dsimp only
    | split

theorem State.mismatch_sound {q : Base} : ∀ {s : State} a1 a2 a3, Sound q s → Sound q (State.mismatch s a1 a2 a3) := by
  intros
  unfold State.mismatch
  repeat' first
    | with_reducible assumption
    | with_reducible apply State.record_sound
    | with_reducible apply State.transient_sound
    | with_reducible apply State.suspect_sound
    | with_reducible apply sound_foldl
    | with_reducible apply sound_foldl_fst
    | intro _
    | with_reducible apply sound_ite
    | with_reducible apply sound_of_fst (by assumption)
    | with_reducible apply sound_of_some (by assumption)
    | with_reducible apply sound_of_snd (by assumption)
    | with_reducible apply sound_on
    | with_reducible apply sound_getD
    | (with_reducible refine sound_mk ?_ rfl rfl rfl rfl rfl rfl rfl; first | with_reducible assumption | with_reducible apply State.record_sound | with_reducible apply State.transient_sound | with_reducible apply State.suspect_sound | with_reducible apply sound_foldl | with_reducible apply sound_foldl_fst)
    | dsimp only
    | split

theorem laneCheck_keeps {q : Base} : ∀ a0 a1, Keeps q (laneCheck a0 a1) := by
  intros
  unfold laneCheck
  repeat' first
    | with_reducible assumption
    | with_reducible exact keeps_pure
    | with_reducible exact keeps_throw
    | with_reducible exact keeps_read
    | with_reducible apply keeps_get_bind
    | with_reducible exact keeps_get
    | with_reducible apply keeps_bind
    | with_reducible apply keeps_set
    | with_reducible apply keeps_modify
    | with_reducible apply keeps_forM
    | with_reducible apply keeps_mapM
    | with_reducible apply keeps_foldlM
    | with_reducible apply keeps_forIn
    | with_reducible apply keeps_tryCatch
    | with_reducible apply keeps_map
    | with_reducible apply keeps_seq
    | with_reducible apply require_keeps
    | with_reducible apply State.mismatch_sound
    | with_reducible apply sound_foldl
    | with_reducible apply sound_foldl_fst
    | intro _
    | with_reducible apply keeps_ite
    | with_reducible apply sound_of_fst (by assumption)
    | with_reducible apply sound_of_some (by assumption)
    | with_reducible apply sound_of_snd (by assumption)
    | with_reducible apply sound_on
    | with_reducible apply sound_getD
    | (with_reducible refine sound_mk ?_ rfl rfl rfl rfl rfl rfl rfl; first | with_reducible assumption | with_reducible apply require_keeps | with_reducible apply State.mismatch_sound | with_reducible apply sound_foldl | with_reducible apply sound_foldl_fst)
    | dsimp only
    | split

end Sys2Proof.Machine
end

