-- ==== Sys2Proof/Laws/KeepMatrix.lean ====
section
/-! SUPPORT. What the operations of `Machine/Matrix.lean` keep: the memories in canonical form and the queue. -/

set_option linter.unusedTactic false
set_option linter.unreachableTactic false

namespace Sys2Proof.Machine

theorem mmCheck_keeps {q : Base} : ∀ a0 a1, Keeps q (mmCheck a0 a1) := by
  intros
  unfold mmCheck
  repeat' first
    | with_reducible assumption
    | with_reducible exact keeps_pure
    | with_reducible exact keeps_throw
    | with_reducible exact keeps_read
    | with_reducible apply keeps_get_bind
    | with_reducible exact keeps_get
    | with_reducible apply keeps_bind
    | with_reducible apply keeps_set
    | with_reducible apply keeps_modify
    | with_reducible apply keeps_forM
    | with_reducible apply keeps_mapM
    | with_reducible apply keeps_foldlM
    | with_reducible apply keeps_forIn
    | with_reducible apply keeps_tryCatch
    | with_reducible apply keeps_map
    | with_reducible apply keeps_seq
    | with_reducible apply require_keeps
    | with_reducible apply sound_foldl
    | with_reducible apply sound_foldl_fst
    | intro _
    | with_reducible apply keeps_ite
    | with_reducible apply sound_of_fst (by assumption)
    | with_reducible apply sound_of_some (by assumption)
    | with_reducible apply sound_of_snd (by assumption)
    | with_reducible apply sound_on
    | with_reducible apply sound_getD
    | (with_reducible refine sound_mk ?_ rfl rfl rfl rfl rfl rfl rfl; first | with_reducible assumption | with_reducible apply require_keeps | with_reducible apply sound_foldl | with_reducible apply sound_foldl_fst)
    | dsimp only
    | split

theorem mmPlanned_keeps {q : Base} : ∀ a0 a1 a2 a3, Keeps q (mmPlanned a0 a1 a2 a3) := by
  intros
  unfold mmPlanned
  repeat' first
    | with_reducible assumption
    | with_reducible exact keeps_pure
    | with_reducible exact keeps_throw
    | with_reducible exact keeps_read
    | with_reducible apply keeps_get_bind
    | with_reducible exact keeps_get
    | with_reducible apply keeps_bind
    | with_reducible apply keeps_set
    | with_reducible apply keeps_modify
    | with_reducible apply keeps_forM
    | with_reducible apply keeps_mapM
    | with_reducible apply keeps_foldlM
    | with_reducible apply keeps_forIn
    | with_reducible apply keeps_tryCatch
    | with_reducible apply keeps_map
    | with_reducible apply keeps_seq
    | with_reducible apply require_keeps
    | with_reducible apply planned_keeps
    | with_reducible apply sound_foldl
    | with_reducible apply sound_foldl_fst
    | intro _
    | with_reducible apply keeps_ite
    | with_reducible apply sound_of_fst (by assumption)
    | with_reducible apply sound_of_some (by assumption)
    | with_reducible apply sound_of_snd (by assumption)
    | with_reducible apply sound_on
    | with_reducible apply sound_getD
    | (with_reducible refine sound_mk ?_ rfl rfl rfl rfl rfl rfl rfl; first | with_reducible assumption | with_reducible apply require_keeps | with_reducible apply planned_keeps | with_reducible apply sound_foldl | with_reducible apply sound_foldl_fst)
    | dsimp only
    | split

theorem startBlock_keeps {q : Base} : ∀ a0 a1 a2 a3 a4 a5 a6, Keeps q (startBlock a0 a1 a2 a3 a4 a5 a6) := by
  intros
  unfold startBlock
  repeat' first
    | with_reducible assumption
    | with_reducible exact keeps_pure
    | with_reducible exact keeps_throw
    | with_reducible exact keeps_read
    | with_reducible apply keeps_get_bind
    | with_reducible exact keeps_get
    | with_reducible apply keeps_bind
    | with_reducible apply keeps_set
    | with_reducible apply keeps_modify
    | with_reducible apply keeps_forM
    | with_reducible apply keeps_mapM
    | with_reducible apply keeps_foldlM
    | with_reducible apply keeps_forIn
    | with_reducible apply keeps_tryCatch
    | with_reducible apply keeps_map
    | with_reducible apply keeps_seq
    | with_reducible apply readPart_keeps
    | with_reducible apply sound_foldl
    | with_reducible apply sound_foldl_fst
    | intro _
    | with_reducible apply keeps_ite
    | with_reducible apply sound_of_fst (by assumption)
    | with_reducible apply sound_of_some (by assumption)
    | with_reducible apply sound_of_snd (by assumption)
    | with_reducible apply sound_on
    | with_reducible apply sound_getD
    | (with_reducible refine sound_mk ?_ rfl rfl rfl rfl rfl rfl rfl; first | with_reducible assumption | with_reducible apply readPart_keeps | with_reducible apply sound_foldl | with_reducible apply sound_foldl_fst)
    | dsimp only
    | split

theorem readBlock_keeps {q : Base} : ∀ a0 a1 a2 a3 a4 a5 a6 a7, Keeps q (readBlock a0 a1 a2 a3 a4 a5 a6 a7) := by
  intros
  unfold readBlock
  repeat' first
    | with_reducible assumption
    | with_reducible exact keeps_pure
    | with_reducible exact keeps_throw
    | with_reducible exact keeps_read
    | with_reducible apply keeps_get_bind
    | with_reducible exact keeps_get
    | with_reducible apply keeps_bind
    | with_reducible apply keeps_set
    | with_reducible apply keeps_modify
    | with_reducible apply keeps_forM
    | with_reducible apply keeps_mapM
    | with_reducible apply keeps_foldlM
    | with_reducible apply keeps_forIn
    | with_reducible apply keeps_tryCatch
    | with_reducible apply keeps_map
    | with_reducible apply keeps_seq
    | with_reducible apply readPart_keeps
    | with_reducible apply sound_foldl
    | with_reducible apply sound_foldl_fst
    | intro _
    | with_reducible apply keeps_ite
    | with_reducible apply sound_of_fst (by assumption)
    | with_reducible apply sound_of_some (by assumption)
    | with_reducible apply sound_of_snd (by assumption)
    | with_reducible apply sound_on
    | with_reducible apply sound_getD
    | (with_reducible refine sound_mk ?_ rfl rfl rfl rfl rfl rfl rfl; first | with_reducible assumption | with_reducible apply readPart_keeps | with_reducible apply sound_foldl | with_reducible apply sound_foldl_fst)
    | dsimp only
    | split

theorem writeBlock_keeps {q : Base} : ∀ a0 a1 a2 a3 a4 a5 a6 a7 a8, Keeps q (writeBlock a0 a1 a2 a3 a4 a5 a6 a7 a8) := by
  intro a0 a1 a2 a3 a4 a5 a6 a7 a8
  induction a8 generalizing a0 a1 a2 a3 a4 a5 a6 a7 with
  | nil =>
    intros
    unfold writeBlock
    repeat' first
      | with_reducible assumption
      | with_reducible exact keeps_pure
      | with_reducible exact keeps_throw
      | with_reducible exact keeps_read
      | with_reducible apply keeps_get_bind
      | with_reducible exact keeps_get
      | with_reducible apply keeps_bind
      | with_reducible apply keeps_set
      | with_reducible apply keeps_modify
      | with_reducible apply keeps_forM
      | with_reducible apply keeps_mapM
      | with_reducible apply keeps_foldlM
      | with_reducible apply keeps_forIn
      | with_reducible apply keeps_tryCatch
      | with_reducible apply keeps_map
      | with_reducible apply keeps_seq
      | with_reducible apply withRounding_keeps
      | with_reducible apply writePart_keeps
      | with_reducible apply sound_foldl
      | with_reducible apply sound_foldl_fst
      | intro _
      | with_reducible apply keeps_ite
      | with_reducible apply sound_of_fst (by assumption)
      | with_reducible apply sound_of_some (by assumption)
      | with_reducible apply sound_of_snd (by assumption)
      | with_reducible apply sound_on
      | with_reducible apply sound_getD
      | (with_reducible refine sound_mk ?_ rfl rfl rfl rfl rfl rfl rfl; first | with_reducible assumption | with_reducible apply withRounding_keeps | with_reducible apply writePart_keeps | with_reducible apply sound_foldl | with_reducible apply sound_foldl_fst)
      | dsimp only
      | split
  | cons x xs ih =>
    intros
    unfold writeBlock
    repeat' first
      | with_reducible assumption
      | with_reducible apply ih
      | with_reducible exact keeps_pure
      | with_reducible exact keeps_throw
      | with_reducible exact keeps_read
      | with_reducible apply keeps_get_bind
      | with_reducible exact keeps_get
      | with_reducible apply keeps_bind
      | with_reducible apply keeps_set
      | with_reducible apply keeps_modify
      | with_reducible apply keeps_forM
      | with_reducible apply keeps_mapM
      | with_reducible apply keeps_foldlM
      | with_reducible apply keeps_forIn
      | with_reducible apply keeps_tryCatch
      | with_reducible apply keeps_map
      | with_reducible apply keeps_seq
      | with_reducible apply withRounding_keeps
      | with_reducible apply writePart_keeps
      | with_reducible apply sound_foldl
      | with_reducible apply sound_foldl_fst
      | intro _
      | with_reducible apply keeps_ite
      | with_reducible apply sound_of_fst (by assumption)
      | with_reducible apply sound_of_some (by assumption)
      | with_reducible apply sound_of_snd (by assumption)
      | with_reducible apply sound_on
      | with_reducible apply sound_getD
      | (with_reducible refine sound_mk ?_ rfl rfl rfl rfl rfl rfl rfl; first | with_reducible assumption | with_reducible apply withRounding_keeps | with_reducible apply writePart_keeps | with_reducible apply sound_foldl | with_reducible apply sound_foldl_fst)
      | dsimp only
      | split

theorem writeY_keeps {q : Base} : ∀ a0 a1 a2 a3 a4 a5 a6 a7 a8 a9, Keeps q (writeY a0 a1 a2 a3 a4 a5 a6 a7 a8 a9) := by
  intro a0 a1 a2 a3 a4 a5 a6 a7 a8 a9
  induction a9 generalizing a0 a1 a2 a3 a4 a5 a6 a7 a8 with
  | nil =>
    intros
    unfold writeY
    repeat' first
      | with_reducible assumption
      | with_reducible exact keeps_pure
      | with_reducible exact keeps_throw
      | with_reducible exact keeps_read
      | with_reducible apply keeps_get_bind
      | with_reducible exact keeps_get
      | with_reducible apply keeps_bind
      | with_reducible apply keeps_set
      | with_reducible apply keeps_modify
      | with_reducible apply keeps_forM
      | with_reducible apply keeps_mapM
      | with_reducible apply keeps_foldlM
      | with_reducible apply keeps_forIn
      | with_reducible apply keeps_tryCatch
      | with_reducible apply keeps_map
      | with_reducible apply keeps_seq
      | with_reducible apply writeRow_keeps
      | with_reducible apply withRounding_keeps
      | with_reducible apply sound_foldl
      | with_reducible apply sound_foldl_fst
      | intro _
      | with_reducible apply keeps_ite
      | with_reducible apply sound_of_fst (by assumption)
      | with_reducible apply sound_of_some (by assumption)
      | with_reducible apply sound_of_snd (by assumption)
      | with_reducible apply sound_on
      | with_reducible apply sound_getD
      | (with_reducible refine sound_mk ?_ rfl rfl rfl rfl rfl rfl rfl; first | with_reducible assumption | with_reducible apply writeRow_keeps | with_reducible apply withRounding_keeps | with_reducible apply sound_foldl | with_reducible apply sound_foldl_fst)
      | dsimp only
      | split
  | cons x xs ih =>
    intros
    unfold writeY
    repeat' first
      | with_reducible assumption
      | with_reducible apply ih
      | with_reducible exact keeps_pure
      | with_reducible exact keeps_throw
      | with_reducible exact keeps_read
      | with_reducible apply keeps_get_bind
      | with_reducible exact keeps_get
      | with_reducible apply keeps_bind
      | with_reducible apply keeps_set
      | with_reducible apply keeps_modify
      | with_reducible apply keeps_forM
      | with_reducible apply keeps_mapM
      | with_reducible apply keeps_foldlM
      | with_reducible apply keeps_forIn
      | with_reducible apply keeps_tryCatch
      | with_reducible apply keeps_map
      | with_reducible apply keeps_seq
      | with_reducible apply writeRow_keeps
      | with_reducible apply withRounding_keeps
      | with_reducible apply sound_foldl
      | with_reducible apply sound_foldl_fst
      | intro _
      | with_reducible apply keeps_ite
      | with_reducible apply sound_of_fst (by assumption)
      | with_reducible apply sound_of_some (by assumption)
      | with_reducible apply sound_of_snd (by assumption)
      | with_reducible apply sound_on
      | with_reducible apply sound_getD
      | (with_reducible refine sound_mk ?_ rfl rfl rfl rfl rfl rfl rfl; first | with_reducible assumption | with_reducible apply writeRow_keeps | with_reducible apply withRounding_keeps | with_reducible apply sound_foldl | with_reducible apply sound_foldl_fst)
      | dsimp only
      | split

theorem bandOf_keeps {q : Base} {a5 : Nat → Nat → ItemM (List (List FVal))} (hF : ∀ x y, Keeps q (a5 x y)) : ∀ a0 a1 a2 a3 a4, Keeps q (bandOf a0 a1 a2 a3 a4 a5) := by
  intros
  unfold bandOf
  repeat' first
    | with_reducible assumption
    | with_reducible exact keeps_pure
    | with_reducible exact keeps_throw
    | with_reducible exact keeps_read
    | with_reducible apply keeps_get_bind
    | with_reducible exact keeps_get
    | with_reducible apply keeps_bind
    | with_reducible apply keeps_set
    | with_reducible apply keeps_modify
    | with_reducible apply keeps_forM
    | with_reducible apply keeps_mapM
    | with_reducible apply keeps_foldlM
    | with_reducible apply keeps_forIn
    | with_reducible apply keeps_tryCatch
    | with_reducible apply keeps_map
    | with_reducible apply keeps_seq
    | with_reducible apply writeBlock_keeps
    | with_reducible apply writeY_keeps
    | with_reducible apply sound_foldl
    | with_reducible apply sound_foldl_fst
    | with_reducible apply hF
    | intro _
    | with_reducible apply keeps_ite
    | with_reducible apply sound_of_fst (by assumption)
    | with_reducible apply sound_of_some (by assumption)
    | with_reducible apply sound_of_snd (by assumption)
    | with_reducible apply sound_on
    | with_reducible apply sound_getD
    | (with_reducible refine sound_mk ?_ rfl rfl rfl rfl rfl rfl rfl; first | with_reducible assumption | with_reducible apply writeBlock_keeps | with_reducible apply writeY_keeps | with_reducible apply sound_foldl | with_reducible apply sound_foldl_fst)
    | dsimp only
    | split

theorem blockPasses_keeps {q : Base} : ∀ a0 a1 a2 a3 a4 a5, Keeps q (blockPasses a0 a1 a2 a3 a4 a5) := by
  intros
  unfold blockPasses
  repeat' first
    | with_reducible assumption
    | with_reducible exact keeps_pure
    | with_reducible exact keeps_throw
    | with_reducible exact keeps_read
    | with_reducible apply keeps_get_bind
    | with_reducible exact keeps_get
    | with_reducible apply keeps_bind
    | with_reducible apply keeps_set
    | with_reducible apply keeps_modify
    | with_reducible apply keeps_forM
    | with_reducible apply keeps_mapM
    | with_reducible apply keeps_foldlM
    | with_reducible apply keeps_forIn
    | with_reducible apply keeps_tryCatch
    | with_reducible apply keeps_map
    | with_reducible apply keeps_seq
    | with_reducible apply State.countSkips_sound
    | with_reducible apply sound_foldl
    | with_reducible apply sound_foldl_fst
    | intro _
    | with_reducible apply keeps_ite
    | with_reducible apply sound_of_fst (by assumption)
    | with_reducible apply sound_of_some (by assumption)
    | with_reducible apply sound_of_snd (by assumption)
    | with_reducible apply sound_on
    | with_reducible apply sound_getD
    | (with_reducible refine sound_mk ?_ rfl rfl rfl rfl rfl rfl rfl; first | with_reducible assumption | with_reducible apply State.countSkips_sound | with_reducible apply sound_foldl | with_reducible apply sound_foldl_fst)
    | dsimp only
    | split

theorem wsBands_keeps {q : Base} : ∀ a0 a1 a2 a3 a4, Keeps q (wsBands a0 a1 a2 a3 a4) := by
  intros
  unfold wsBands
  repeat' first
    | with_reducible assumption
    | with_reducible exact keeps_pure
    | with_reducible exact keeps_throw
    | with_reducible exact keeps_read
    | with_reducible apply keeps_get_bind
    | with_reducible exact keeps_get
    | with_reducible apply keeps_bind
    | with_reducible apply keeps_set
    | with_reducible apply keeps_modify
    | with_reducible apply keeps_forM
    | with_reducible apply keeps_mapM
    | with_reducible apply keeps_foldlM
    | with_reducible apply keeps_forIn
    | with_reducible apply keeps_tryCatch
    | with_reducible apply keeps_map
    | with_reducible apply keeps_seq
    | with_reducible apply readBlock_keeps
    | with_reducible apply readRow_keeps
    | with_reducible apply blockPasses_keeps
    | with_reducible apply startBlock_keeps
    | with_reducible apply bandOf_keeps
    | with_reducible apply sound_foldl
    | with_reducible apply sound_foldl_fst
    | intro _
    | with_reducible apply keeps_ite
    | with_reducible apply sound_of_fst (by assumption)
    | with_reducible apply sound_of_some (by assumption)
    | with_reducible apply sound_of_snd (by assumption)
    | with_reducible apply sound_on
    | with_reducible apply sound_getD
    | (with_reducible refine sound_mk ?_ rfl rfl rfl rfl rfl rfl rfl; first | with_reducible assumption | with_reducible apply readBlock_keeps | with_reducible apply readRow_keeps | with_reducible apply blockPasses_keeps | with_reducible apply startBlock_keeps | with_reducible apply bandOf_keeps | with_reducible apply sound_foldl | with_reducible apply sound_foldl_fst)
    | dsimp only
    | split

theorem mmWsWork_keeps {q : Base} : ∀ a0 a1, Keeps q (mmWsWork a0 a1) := by
  intros
  unfold mmWsWork
  repeat' first
    | with_reducible assumption
    | with_reducible exact keeps_pure
    | with_reducible exact keeps_throw
    | with_reducible exact keeps_read
    | with_reducible apply keeps_get_bind
    | with_reducible exact keeps_get
    | with_reducible apply keeps_bind
    | with_reducible apply keeps_set
    | with_reducible apply keeps_modify
    | with_reducible apply keeps_forM
    | with_reducible apply keeps_mapM
    | with_reducible apply keeps_foldlM
    | with_reducible apply keeps_forIn
    | with_reducible apply keeps_tryCatch
    | with_reducible apply keeps_map
    | with_reducible apply keeps_seq
    | with_reducible apply laneCheck_keeps
    | with_reducible apply doneRows_keeps
    | with_reducible apply runTime_keeps
    | with_reducible apply mmCheck_keeps
    | with_reducible apply wsBands_keeps
    | with_reducible apply mmPlanned_keeps
    | with_reducible apply sound_foldl
    | with_reducible apply sound_foldl_fst
    | intro _
    | with_reducible apply keeps_ite
    | with_reducible apply sound_of_fst (by assumption)
    | with_reducible apply sound_of_some (by assumption)
    | with_reducible apply sound_of_snd (by assumption)
    | with_reducible apply sound_on
    | with_reducible apply sound_getD
    | (with_reducible refine sound_mk ?_ rfl rfl rfl rfl rfl rfl rfl; first | with_reducible assumption | with_reducible apply laneCheck_keeps | with_reducible apply doneRows_keeps | with_reducible apply runTime_keeps | with_reducible apply mmCheck_keeps | with_reducible apply wsBands_keeps | with_reducible apply mmPlanned_keeps | with_reducible apply sound_foldl | with_reducible apply sound_foldl_fst)
    | dsimp only
    | split

theorem execMmWs_sound {q : Base} : ∀ a0 a1 a2 {s : State}, Sound q s → OutSound q (execMmWs a0 a1 a2 s) := by
  intros
  unfold execMmWs
  repeat' first
    | with_reducible assumption
    | with_reducible apply outSound_next
    | with_reducible apply State.runItem_sound
    | with_reducible apply mmWsWork_keeps
    | with_reducible apply sound_foldl
    | with_reducible apply sound_foldl_fst
    | intro _
    | with_reducible apply sound_of_fst (by assumption)
    | with_reducible apply sound_of_some (by assumption)
    | with_reducible apply sound_of_snd (by assumption)
    | with_reducible apply sound_on
    | with_reducible apply sound_getD
    | (with_reducible refine sound_mk ?_ rfl rfl rfl rfl rfl rfl rfl; first | with_reducible assumption | with_reducible apply State.runItem_sound | with_reducible apply mmWsWork_keeps | with_reducible apply sound_foldl | with_reducible apply sound_foldl_fst)
    | dsimp only
    | split

theorem execMmWsT_sound {q : Base} : ∀ a0 a1 a2 {s : State}, Sound q s → OutSound q (execMmWsT a0 a1 a2 s) := by
  intros
  unfold execMmWsT
  repeat' first
    | with_reducible assumption
    | with_reducible apply outSound_next
    | with_reducible apply State.runItem_sound
    | with_reducible apply mmWsWork_keeps
    | with_reducible apply sound_foldl
    | with_reducible apply sound_foldl_fst
    | intro _
    | with_reducible apply sound_of_fst (by assumption)
    | with_reducible apply sound_of_some (by assumption)
    | with_reducible apply sound_of_snd (by assumption)
    | with_reducible apply sound_on
    | with_reducible apply sound_getD
    | (with_reducible refine sound_mk ?_ rfl rfl rfl rfl rfl rfl rfl; first | with_reducible assumption | with_reducible apply State.runItem_sound | with_reducible apply mmWsWork_keeps | with_reducible apply sound_foldl | with_reducible apply sound_foldl_fst)
    | dsimp only
    | split

theorem osBands_keeps {q : Base} : ∀ a0 a1 a2 a3, Keeps q (osBands a0 a1 a2 a3) := by
  intros
  unfold osBands
  repeat' first
    | with_reducible assumption
    | with_reducible exact keeps_pure
    | with_reducible exact keeps_throw
    | with_reducible exact keeps_read
    | with_reducible apply keeps_get_bind
    | with_reducible exact keeps_get
    | with_reducible apply keeps_bind
    | with_reducible apply keeps_set
    | with_reducible apply keeps_modify
    | with_reducible apply keeps_forM
    | with_reducible apply keeps_mapM
    | with_reducible apply keeps_foldlM
    | with_reducible apply keeps_forIn
    | with_reducible apply keeps_tryCatch
    | with_reducible apply keeps_map
    | with_reducible apply keeps_seq
    | with_reducible apply readBlock_keeps
    | with_reducible apply blockPasses_keeps
    | with_reducible apply startBlock_keeps
    | with_reducible apply bandOf_keeps
    | with_reducible apply sound_foldl
    | with_reducible apply sound_foldl_fst
    | intro _
    | with_reducible apply keeps_ite
    | with_reducible apply sound_of_fst (by assumption)
    | with_reducible apply sound_of_some (by assumption)
    | with_reducible apply sound_of_snd (by assumption)
    | with_reducible apply sound_on
    | with_reducible apply sound_getD
    | (with_reducible refine sound_mk ?_ rfl rfl rfl rfl rfl rfl rfl; first | with_reducible assumption | with_reducible apply readBlock_keeps | with_reducible apply blockPasses_keeps | with_reducible apply startBlock_keeps | with_reducible apply bandOf_keeps | with_reducible apply sound_foldl | with_reducible apply sound_foldl_fst)
    | dsimp only
    | split

theorem mmOsWork_keeps {q : Base} : ∀ a0, Keeps q (mmOsWork a0) := by
  intros
  unfold mmOsWork
  repeat' first
    | with_reducible assumption
    | with_reducible exact keeps_pure
    | with_reducible exact keeps_throw
    | with_reducible exact keeps_read
    | with_reducible apply keeps_get_bind
    | with_reducible exact keeps_get
    | with_reducible apply keeps_bind
    | with_reducible apply keeps_set
    | with_reducible apply keeps_modify
    | with_reducible apply keeps_forM
    | with_reducible apply keeps_mapM
    | with_reducible apply keeps_foldlM
    | with_reducible apply keeps_forIn
    | with_reducible apply keeps_tryCatch
    | with_reducible apply keeps_map
    | with_reducible apply keeps_seq
    | with_reducible apply laneCheck_keeps
    | with_reducible apply doneRows_keeps
    | with_reducible apply osBands_keeps
    | with_reducible apply runTime_keeps
    | with_reducible apply mmCheck_keeps
    | with_reducible apply mmPlanned_keeps
    | with_reducible apply sound_foldl
    | with_reducible apply sound_foldl_fst
    | intro _
    | with_reducible apply keeps_ite
    | with_reducible apply sound_of_fst (by assumption)
    | with_reducible apply sound_of_some (by assumption)
    | with_reducible apply sound_of_snd (by assumption)
    | with_reducible apply sound_on
    | with_reducible apply sound_getD
    | (with_reducible refine sound_mk ?_ rfl rfl rfl rfl rfl rfl rfl; first | with_reducible assumption | with_reducible apply laneCheck_keeps | with_reducible apply doneRows_keeps | with_reducible apply osBands_keeps | with_reducible apply runTime_keeps | with_reducible apply mmCheck_keeps | with_reducible apply mmPlanned_keeps | with_reducible apply sound_foldl | with_reducible apply sound_foldl_fst)
    | dsimp only
    | split

theorem execMmOs_sound {q : Base} : ∀ a0 a1 a2 {s : State}, Sound q s → OutSound q (execMmOs a0 a1 a2 s) := by
  intros
  unfold execMmOs
  repeat' first
    | with_reducible assumption
    | with_reducible apply outSound_next
    | with_reducible apply State.runItem_sound
    | with_reducible apply mmOsWork_keeps
    | with_reducible apply sound_foldl
    | with_reducible apply sound_foldl_fst
    | intro _
    | with_reducible apply sound_of_fst (by assumption)
    | with_reducible apply sound_of_some (by assumption)
    | with_reducible apply sound_of_snd (by assumption)
    | with_reducible apply sound_on
    | with_reducible apply sound_getD
    | (with_reducible refine sound_mk ?_ rfl rfl rfl rfl rfl rfl rfl; first | with_reducible assumption | with_reducible apply State.runItem_sound | with_reducible apply mmOsWork_keeps | with_reducible apply sound_foldl | with_reducible apply sound_foldl_fst)
    | dsimp only
    | split

theorem splitCheck_keeps {q : Base} : ∀ a0, Keeps q (splitCheck a0) := by
  intros
  unfold splitCheck
  repeat' first
    | with_reducible assumption
    | with_reducible exact keeps_pure
    | with_reducible exact keeps_throw
    | with_reducible exact keeps_read
    | with_reducible apply keeps_get_bind
    | with_reducible exact keeps_get
    | with_reducible apply keeps_bind
    | with_reducible apply keeps_set
    | with_reducible apply keeps_modify
    | with_reducible apply keeps_forM
    | with_reducible apply keeps_mapM
    | with_reducible apply keeps_foldlM
    | with_reducible apply keeps_forIn
    | with_reducible apply keeps_tryCatch
    | with_reducible apply keeps_map
    | with_reducible apply keeps_seq
    | with_reducible apply require_keeps
    | with_reducible apply refuseFormats_keeps
    | with_reducible apply sound_foldl
    | with_reducible apply sound_foldl_fst
    | intro _
    | with_reducible apply keeps_ite
    | with_reducible apply sound_of_fst (by assumption)
    | with_reducible apply sound_of_some (by assumption)
    | with_reducible apply sound_of_snd (by assumption)
    | with_reducible apply sound_on
    | with_reducible apply sound_getD
    | (with_reducible refine sound_mk ?_ rfl rfl rfl rfl rfl rfl rfl; first | with_reducible assumption | with_reducible apply require_keeps | with_reducible apply refuseFormats_keeps | with_reducible apply sound_foldl | with_reducible apply sound_foldl_fst)
    | dsimp only
    | split

theorem splitRanges_keeps {q : Base} : ∀ a0 a1 a2, Keeps q (splitRanges a0 a1 a2) := by
  intros
  unfold splitRanges
  repeat' first
    | with_reducible assumption
    | with_reducible exact keeps_pure
    | with_reducible exact keeps_throw
    | with_reducible exact keeps_read
    | with_reducible apply keeps_get_bind
    | with_reducible exact keeps_get
    | with_reducible apply keeps_bind
    | with_reducible apply keeps_set
    | with_reducible apply keeps_modify
    | with_reducible apply keeps_forM
    | with_reducible apply keeps_mapM
    | with_reducible apply keeps_foldlM
    | with_reducible apply keeps_forIn
    | with_reducible apply keeps_tryCatch
    | with_reducible apply keeps_map
    | with_reducible apply keeps_seq
    | with_reducible apply stopWith_keeps
    | with_reducible apply sound_foldl
    | with_reducible apply sound_foldl_fst
    | intro _
    | with_reducible apply keeps_ite
    | with_reducible apply sound_of_fst (by assumption)
    | with_reducible apply sound_of_some (by assumption)
    | with_reducible apply sound_of_snd (by assumption)
    | with_reducible apply sound_on
    | with_reducible apply sound_getD
    | (with_reducible refine sound_mk ?_ rfl rfl rfl rfl rfl rfl rfl; first | with_reducible assumption | with_reducible apply stopWith_keeps | with_reducible apply sound_foldl | with_reducible apply sound_foldl_fst)
    | dsimp only
    | split

theorem splitParts_keeps {q : Base} : ∀ a0 a1 a2 a3, Keeps q (splitParts a0 a1 a2 a3) := by
  intros
  unfold splitParts
  repeat' first
    | with_reducible assumption
    | with_reducible exact keeps_pure
    | with_reducible exact keeps_throw
    | with_reducible exact keeps_read
    | with_reducible apply keeps_get_bind
    | with_reducible exact keeps_get
    | with_reducible apply keeps_bind
    | with_reducible apply keeps_set
    | with_reducible apply keeps_modify
    | with_reducible apply keeps_forM
    | with_reducible apply keeps_mapM
    | with_reducible apply keeps_foldlM
    | with_reducible apply keeps_forIn
    | with_reducible apply keeps_tryCatch
    | with_reducible apply keeps_map
    | with_reducible apply keeps_seq
    | with_reducible apply locLoad_keeps
    | with_reducible apply sound_foldl
    | with_reducible apply sound_foldl_fst
    | intro _
    | with_reducible apply keeps_ite
    | with_reducible apply sound_of_fst (by assumption)
    | with_reducible apply sound_of_some (by assumption)
    | with_reducible apply sound_of_snd (by assumption)
    | with_reducible apply sound_on
    | with_reducible apply sound_getD
    | (with_reducible refine sound_mk ?_ rfl rfl rfl rfl rfl rfl rfl; first | with_reducible assumption | with_reducible apply locLoad_keeps | with_reducible apply sound_foldl | with_reducible apply sound_foldl_fst)
    | dsimp only
    | split

theorem splitRowsOf_keeps {q : Base} : ∀ a0 a1 a2 a3 a4, Keeps q (splitRowsOf a0 a1 a2 a3 a4) := by
  intro a0 a1 a2 a3 a4
  induction a3 generalizing a0 a1 a2 a4 with
  | zero =>
    intros
    unfold splitRowsOf
    repeat' first
      | with_reducible assumption
      | with_reducible exact keeps_pure
      | with_reducible exact keeps_throw
      | with_reducible exact keeps_read
      | with_reducible apply keeps_get_bind
      | with_reducible exact keeps_get
      | with_reducible apply keeps_bind
      | with_reducible apply keeps_set
      | with_reducible apply keeps_modify
      | with_reducible apply keeps_forM
      | with_reducible apply keeps_mapM
      | with_reducible apply keeps_foldlM
      | with_reducible apply keeps_forIn
      | with_reducible apply keeps_tryCatch
      | with_reducible apply keeps_map
      | with_reducible apply keeps_seq
      | with_reducible apply splitParts_keeps
      | with_reducible apply writeY_keeps
      | with_reducible apply sound_foldl
      | with_reducible apply sound_foldl_fst
      | intro _
      | with_reducible apply keeps_ite
      | with_reducible apply sound_of_fst (by assumption)
      | with_reducible apply sound_of_some (by assumption)
      | with_reducible apply sound_of_snd (by assumption)
      | with_reducible apply sound_on
      | with_reducible apply sound_getD
      | (with_reducible refine sound_mk ?_ rfl rfl rfl rfl rfl rfl rfl; first | with_reducible assumption | with_reducible apply splitParts_keeps | with_reducible apply writeY_keeps | with_reducible apply sound_foldl | with_reducible apply sound_foldl_fst)
      | dsimp only
      | split
  | succ n ih =>
    intros
    unfold splitRowsOf
    repeat' first
      | with_reducible assumption
      | with_reducible apply ih
      | with_reducible exact keeps_pure
      | with_reducible exact keeps_throw
      | with_reducible exact keeps_read
      | with_reducible apply keeps_get_bind
      | with_reducible exact keeps_get
      | with_reducible apply keeps_bind
      | with_reducible apply keeps_set
      | with_reducible apply keeps_modify
      | with_reducible apply keeps_forM
      | with_reducible apply keeps_mapM
      | with_reducible apply keeps_foldlM
      | with_reducible apply keeps_forIn
      | with_reducible apply keeps_tryCatch
      | with_reducible apply keeps_map
      | with_reducible apply keeps_seq
      | with_reducible apply splitParts_keeps
      | with_reducible apply writeY_keeps
      | with_reducible apply sound_foldl
      | with_reducible apply sound_foldl_fst
      | intro _
      | with_reducible apply keeps_ite
      | with_reducible apply sound_of_fst (by assumption)
      | with_reducible apply sound_of_some (by assumption)
      | with_reducible apply sound_of_snd (by assumption)
      | with_reducible apply sound_on
      | with_reducible apply sound_getD
      | (with_reducible refine sound_mk ?_ rfl rfl rfl rfl rfl rfl rfl; first | with_reducible assumption | with_reducible apply splitParts_keeps | with_reducible apply writeY_keeps | with_reducible apply sound_foldl | with_reducible apply sound_foldl_fst)
      | dsimp only
      | split

theorem splitSumWork_keeps {q : Base} : Keeps q splitSumWork := by
  intros
  unfold splitSumWork
  repeat' first
    | with_reducible assumption
    | with_reducible exact keeps_pure
    | with_reducible exact keeps_throw
    | with_reducible exact keeps_read
    | with_reducible apply keeps_get_bind
    | with_reducible exact keeps_get
    | with_reducible apply keeps_bind
    | with_reducible apply keeps_set
    | with_reducible apply keeps_modify
    | with_reducible apply keeps_forM
    | with_reducible apply keeps_mapM
    | with_reducible apply keeps_foldlM
    | with_reducible apply keeps_forIn
    | with_reducible apply keeps_tryCatch
    | with_reducible apply keeps_map
    | with_reducible apply keeps_seq
    | with_reducible apply doneRows_keeps
    | with_reducible apply splitRanges_keeps
    | with_reducible apply require_keeps
    | with_reducible apply splitRowsOf_keeps
    | with_reducible apply runTime_keeps
    | with_reducible apply planned_keeps
    | with_reducible apply splitCheck_keeps
    | with_reducible apply sound_foldl
    | with_reducible apply sound_foldl_fst
    | intro _
    | with_reducible apply keeps_ite
    | with_reducible apply sound_of_fst (by assumption)
    | with_reducible apply sound_of_some (by assumption)
    | with_reducible apply sound_of_snd (by assumption)
    | with_reducible apply sound_on
    | with_reducible apply sound_getD
    | (with_reducible refine sound_mk ?_ rfl rfl rfl rfl rfl rfl rfl; first | with_reducible assumption | with_reducible apply doneRows_keeps | with_reducible apply splitRanges_keeps | with_reducible apply require_keeps | with_reducible apply splitRowsOf_keeps | with_reducible apply runTime_keeps | with_reducible apply planned_keeps | with_reducible apply splitCheck_keeps | with_reducible apply sound_foldl | with_reducible apply sound_foldl_fst)
    | dsimp only
    | split

theorem execSplitSum_sound {q : Base} : ∀ a0 a1 {s : State}, Sound q s → OutSound q (execSplitSum a0 a1 s) := by
  intros
  unfold execSplitSum
  repeat' first
    | with_reducible assumption
    | with_reducible apply outSound_next
    | with_reducible apply State.runItem_sound
    | with_reducible apply splitSumWork_keeps
    | with_reducible apply sound_foldl
    | with_reducible apply sound_foldl_fst
    | intro _
    | with_reducible apply sound_of_fst (by assumption)
    | with_reducible apply sound_of_some (by assumption)
    | with_reducible apply sound_of_snd (by assumption)
    | with_reducible apply sound_on
    | with_reducible apply sound_getD
    | (with_reducible refine sound_mk ?_ rfl rfl rfl rfl rfl rfl rfl; first | with_reducible assumption | with_reducible apply State.runItem_sound | with_reducible apply splitSumWork_keeps | with_reducible apply sound_foldl | with_reducible apply sound_foldl_fst)
    | dsimp only
    | split

theorem setPairState_keeps {q : Base} : ∀ a0 a1, Keeps q (setPairState a0 a1) := by
  intros
  unfold setPairState
  repeat' first
    | with_reducible assumption
    | with_reducible exact keeps_pure
    | with_reducible exact keeps_throw
    | with_reducible exact keeps_read
    | with_reducible apply keeps_get_bind
    | with_reducible exact keeps_get
    | with_reducible apply keeps_bind
    | with_reducible apply keeps_set
    | with_reducible apply keeps_modify
    | with_reducible apply keeps_forM
    | with_reducible apply keeps_mapM
    | with_reducible apply keeps_foldlM
    | with_reducible apply keeps_forIn
    | with_reducible apply keeps_tryCatch
    | with_reducible apply keeps_map
    | with_reducible apply keeps_seq
    | with_reducible apply store_keeps
    | with_reducible apply sound_foldl
    | with_reducible apply sound_foldl_fst
    | intro _
    | with_reducible apply keeps_ite
    | with_reducible apply sound_of_fst (by assumption)
    | with_reducible apply sound_of_some (by assumption)
    | with_reducible apply sound_of_snd (by assumption)
    | with_reducible apply sound_on
    | with_reducible apply sound_getD
    | (with_reducible refine sound_mk ?_ rfl rfl rfl rfl rfl rfl rfl; first | with_reducible assumption | with_reducible apply store_keeps | with_reducible apply sound_foldl | with_reducible apply sound_foldl_fst)
    | dsimp only
    | split

theorem commitPair_keeps {q : Base} : ∀ a0, Keeps q (commitPair a0) := by
  intros
  unfold commitPair
  repeat' first
    | with_reducible assumption
    | with_reducible exact keeps_pure
    | with_reducible exact keeps_throw
    | with_reducible exact keeps_read
    | with_reducible apply keeps_get_bind
    | with_reducible exact keeps_get
    | with_reducible apply keeps_bind
    | with_reducible apply keeps_set
    | with_reducible apply keeps_modify
    | with_reducible apply keeps_forM
    | with_reducible apply keeps_mapM
    | with_reducible apply keeps_foldlM
    | with_reducible apply keeps_forIn
    | with_reducible apply keeps_tryCatch
    | with_reducible apply keeps_map
    | with_reducible apply keeps_seq
    | with_reducible apply setPairState_keeps
    | with_reducible apply store_keeps
    | with_reducible apply sound_foldl
    | with_reducible apply sound_foldl_fst
    | intro _
    | with_reducible apply keeps_ite
    | with_reducible apply sound_of_fst (by assumption)
    | with_reducible apply sound_of_some (by assumption)
    | with_reducible apply sound_of_snd (by assumption)
    | with_reducible apply sound_on
    | with_reducible apply sound_getD
    | (with_reducible refine sound_mk ?_ rfl rfl rfl rfl rfl rfl rfl; first | with_reducible assumption | with_reducible apply setPairState_keeps | with_reducible apply store_keeps | with_reducible apply sound_foldl | with_reducible apply sound_foldl_fst)
    | dsimp only
    | split

theorem pairRow_keeps {q : Base} : ∀ a0 a1 a2 a3, Keeps q (pairRow a0 a1 a2 a3) := by
  intros
  unfold pairRow
  repeat' first
    | with_reducible assumption
    | with_reducible exact keeps_pure
    | with_reducible exact keeps_throw
    | with_reducible exact keeps_read
    | with_reducible apply keeps_get_bind
    | with_reducible exact keeps_get
    | with_reducible apply keeps_bind
    | with_reducible apply keeps_set
    | with_reducible apply keeps_modify
    | with_reducible apply keeps_forM
    | with_reducible apply keeps_mapM
    | with_reducible apply keeps_foldlM
    | with_reducible apply keeps_forIn
    | with_reducible apply keeps_tryCatch
    | with_reducible apply keeps_map
    | with_reducible apply keeps_seq
    | with_reducible apply load_keeps
    | with_reducible apply sound_foldl
    | with_reducible apply sound_foldl_fst
    | intro _
    | with_reducible apply keeps_ite
    | with_reducible apply sound_of_fst (by assumption)
    | with_reducible apply sound_of_some (by assumption)
    | with_reducible apply sound_of_snd (by assumption)
    | with_reducible apply sound_on
    | with_reducible apply sound_getD
    | (with_reducible refine sound_mk ?_ rfl rfl rfl rfl rfl rfl rfl; first | with_reducible assumption | with_reducible apply load_keeps | with_reducible apply sound_foldl | with_reducible apply sound_foldl_fst)
    | dsimp only
    | split

theorem writeBwd_keeps {q : Base} : ∀ a0 a1 a2 a3, Keeps q (writeBwd a0 a1 a2 a3) := by
  intro a0 a1 a2 a3
  induction a3 generalizing a0 a1 a2 with
  | zero =>
    intros
    unfold writeBwd
    repeat' first
      | with_reducible assumption
      | with_reducible exact keeps_pure
      | with_reducible exact keeps_throw
      | with_reducible exact keeps_read
      | with_reducible apply keeps_get_bind
      | with_reducible exact keeps_get
      | with_reducible apply keeps_bind
      | with_reducible apply keeps_set
      | with_reducible apply keeps_modify
      | with_reducible apply keeps_forM
      | with_reducible apply keeps_mapM
      | with_reducible apply keeps_foldlM
      | with_reducible apply keeps_forIn
      | with_reducible apply keeps_tryCatch
      | with_reducible apply keeps_map
      | with_reducible apply keeps_seq
      | with_reducible apply store_keeps
      | with_reducible apply sound_foldl
      | with_reducible apply sound_foldl_fst
      | intro _
      | with_reducible apply keeps_ite
      | with_reducible apply sound_of_fst (by assumption)
      | with_reducible apply sound_of_some (by assumption)
      | with_reducible apply sound_of_snd (by assumption)
      | with_reducible apply sound_on
      | with_reducible apply sound_getD
      | (with_reducible refine sound_mk ?_ rfl rfl rfl rfl rfl rfl rfl; first | with_reducible assumption | with_reducible apply store_keeps | with_reducible apply sound_foldl | with_reducible apply sound_foldl_fst)
      | dsimp only
      | split
  | succ n ih =>
    intros
    unfold writeBwd
    repeat' first
      | with_reducible assumption
      | with_reducible apply ih
      | with_reducible exact keeps_pure
      | with_reducible exact keeps_throw
      | with_reducible exact keeps_read
      | with_reducible apply keeps_get_bind
      | with_reducible exact keeps_get
      | with_reducible apply keeps_bind
      | with_reducible apply keeps_set
      | with_reducible apply keeps_modify
      | with_reducible apply keeps_forM
      | with_reducible apply keeps_mapM
      | with_reducible apply keeps_foldlM
      | with_reducible apply keeps_forIn
      | with_reducible apply keeps_tryCatch
      | with_reducible apply keeps_map
      | with_reducible apply keeps_seq
      | with_reducible apply store_keeps
      | with_reducible apply sound_foldl
      | with_reducible apply sound_foldl_fst
      | intro _
      | with_reducible apply keeps_ite
      | with_reducible apply sound_of_fst (by assumption)
      | with_reducible apply sound_of_some (by assumption)
      | with_reducible apply sound_of_snd (by assumption)
      | with_reducible apply sound_on
      | with_reducible apply sound_getD
      | (with_reducible refine sound_mk ?_ rfl rfl rfl rfl rfl rfl rfl; first | with_reducible assumption | with_reducible apply store_keeps | with_reducible apply sound_foldl | with_reducible apply sound_foldl_fst)
      | dsimp only
      | split

theorem pairCheck_keeps {q : Base} : ∀ a0, Keeps q (pairCheck a0) := by
  intros
  unfold pairCheck
  repeat' first
    | with_reducible assumption
    | with_reducible exact keeps_pure
    | with_reducible exact keeps_throw
    | with_reducible exact keeps_read
    | with_reducible apply keeps_get_bind
    | with_reducible exact keeps_get
    | with_reducible apply keeps_bind
    | with_reducible apply keeps_set
    | with_reducible apply keeps_modify
    | with_reducible apply keeps_forM
    | with_reducible apply keeps_mapM
    | with_reducible apply keeps_foldlM
    | with_reducible apply keeps_forIn
    | with_reducible apply keeps_tryCatch
    | with_reducible apply keeps_map
    | with_reducible apply keeps_seq
    | with_reducible apply require_keeps
    | with_reducible apply sound_foldl
    | with_reducible apply sound_foldl_fst
    | intro _
    | with_reducible apply keeps_ite
    | with_reducible apply sound_of_fst (by assumption)
    | with_reducible apply sound_of_some (by assumption)
    | with_reducible apply sound_of_snd (by assumption)
    | with_reducible apply sound_on
    | with_reducible apply sound_getD
    | (with_reducible refine sound_mk ?_ rfl rfl rfl rfl rfl rfl rfl; first | with_reducible assumption | with_reducible apply require_keeps | with_reducible apply sound_foldl | with_reducible apply sound_foldl_fst)
    | dsimp only
    | split

theorem pairRefreshWork_keeps {q : Base} : Keeps q pairRefreshWork := by
  intros
  unfold pairRefreshWork
  repeat' first
    | with_reducible assumption
    | with_reducible exact keeps_pure
    | with_reducible exact keeps_throw
    | with_reducible exact keeps_read
    | with_reducible apply keeps_get_bind
    | with_reducible exact keeps_get
    | with_reducible apply keeps_bind
    | with_reducible apply keeps_set
    | with_reducible apply keeps_modify
    | with_reducible apply keeps_forM
    | with_reducible apply keeps_mapM
    | with_reducible apply keeps_foldlM
    | with_reducible apply keeps_forIn
    | with_reducible apply keeps_tryCatch
    | with_reducible apply keeps_map
    | with_reducible apply keeps_seq
    | with_reducible apply setPairState_keeps
    | with_reducible apply pairRow_keeps
    | with_reducible apply require_keeps
    | with_reducible apply checkRead_keeps
    | with_reducible apply writeBwd_keeps
    | with_reducible apply checkWrite_keeps
    | with_reducible apply pairCheck_keeps
    | with_reducible apply pay_keeps
    | with_reducible apply load_keeps
    | with_reducible apply commitPair_keeps
    | with_reducible apply sound_foldl
    | with_reducible apply sound_foldl_fst
    | intro _
    | with_reducible apply keeps_ite
    | with_reducible apply sound_of_fst (by assumption)
    | with_reducible apply sound_of_some (by assumption)
    | with_reducible apply sound_of_snd (by assumption)
    | with_reducible apply sound_on
    | with_reducible apply sound_getD
    | (with_reducible refine sound_mk ?_ rfl rfl rfl rfl rfl rfl rfl; first | with_reducible assumption | with_reducible apply setPairState_keeps | with_reducible apply pairRow_keeps | with_reducible apply require_keeps | with_reducible apply checkRead_keeps | with_reducible apply writeBwd_keeps | with_reducible apply checkWrite_keeps | with_reducible apply pairCheck_keeps | with_reducible apply pay_keeps | with_reducible apply load_keeps | with_reducible apply commitPair_keeps | with_reducible apply sound_foldl | with_reducible apply sound_foldl_fst)
    | dsimp only
    | split

theorem execPairRefresh_sound {q : Base} : ∀ a0 a1 {s : State}, Sound q s → OutSound q (execPairRefresh a0 a1 s) := by
  intros
  unfold execPairRefresh
  repeat' first
    | with_reducible assumption
    | with_reducible apply outSound_next
    | with_reducible apply State.runItem_sound
    | with_reducible apply pairRefreshWork_keeps
    | with_reducible apply sound_foldl
    | with_reducible apply sound_foldl_fst
    | intro _
    | with_reducible apply sound_of_fst (by assumption)
    | with_reducible apply sound_of_some (by assumption)
    | with_reducible apply sound_of_snd (by assumption)
    | with_reducible apply sound_on
    | with_reducible apply sound_getD
    | (with_reducible refine sound_mk ?_ rfl rfl rfl rfl rfl rfl rfl; first | with_reducible assumption | with_reducible apply State.runItem_sound | with_reducible apply pairRefreshWork_keeps | with_reducible apply sound_foldl | with_reducible apply sound_foldl_fst)
    | dsimp only
    | split

end Sys2Proof.Machine
end

