-- ==== Sys2Proof/Laws/KeepRowops.lean ====
section
/-! SUPPORT. What the operations of `Machine/Rowops.lean` keep: the memories in canonical form and the queue. -/

set_option linter.unusedTactic false
set_option linter.unreachableTactic false

namespace Sys2Proof.Machine

theorem rowCheck_keeps {q : Base} : ∀ a0, Keeps q (rowCheck a0) := by
  intros
  unfold rowCheck
  repeat' first
    | with_reducible assumption
    | with_reducible exact keeps_pure
    | with_reducible exact keeps_throw
    | with_reducible exact keeps_read
    | with_reducible apply keeps_get_bind
    | with_reducible exact keeps_get
    | with_reducible apply keeps_bind
    | with_reducible apply keeps_set
    | with_reducible apply keeps_modify
    | with_reducible apply keeps_forM
    | with_reducible apply keeps_mapM
    | with_reducible apply keeps_foldlM
    | with_reducible apply keeps_forIn
    | with_reducible apply keeps_tryCatch
    | with_reducible apply keeps_map
    | with_reducible apply keeps_seq
    | with_reducible apply require_keeps
    | with_reducible apply refuseFormats_keeps
    | with_reducible apply sound_foldl
    | with_reducible apply sound_foldl_fst
    | intro _
    | with_reducible apply keeps_ite
    | with_reducible apply sound_of_fst (by assumption)
    | with_reducible apply sound_of_some (by assumption)
    | with_reducible apply sound_of_snd (by assumption)
    | with_reducible apply sound_on
    | with_reducible apply sound_getD
    | (with_reducible refine sound_mk ?_ rfl rfl rfl rfl rfl rfl rfl; first | with_reducible assumption | with_reducible apply require_keeps | with_reducible apply refuseFormats_keeps | with_reducible apply sound_foldl | with_reducible apply sound_foldl_fst)
    | dsimp only
    | split

theorem statPlanned_keeps {q : Base} : ∀ a0 a1 a2, Keeps q (statPlanned a0 a1 a2) := by
  intros
  unfold statPlanned
  repeat' first
    | with_reducible assumption
    | with_reducible exact keeps_pure
    | with_reducible exact keeps_throw
    | with_reducible exact keeps_read
    | with_reducible apply keeps_get_bind
    | with_reducible exact keeps_get
    | with_reducible apply keeps_bind
    | with_reducible apply keeps_set
    | with_reducible apply keeps_modify
    | with_reducible apply keeps_forM
    | with_reducible apply keeps_mapM
    | with_reducible apply keeps_foldlM
    | with_reducible apply keeps_forIn
    | with_reducible apply keeps_tryCatch
    | with_reducible apply keeps_map
    | with_reducible apply keeps_seq
    | with_reducible apply require_keeps
    | with_reducible apply sound_foldl
    | with_reducible apply sound_foldl_fst
    | intro _
    | with_reducible apply keeps_ite
    | with_reducible apply sound_of_fst (by assumption)
    | with_reducible apply sound_of_some (by assumption)
    | with_reducible apply sound_of_snd (by assumption)
    | with_reducible apply sound_on
    | with_reducible apply sound_getD
    | (with_reducible refine sound_mk ?_ rfl rfl rfl rfl rfl rfl rfl; first | with_reducible assumption | with_reducible apply require_keeps | with_reducible apply sound_foldl | with_reducible apply sound_foldl_fst)
    | dsimp only
    | split

theorem rowPlanned_keeps {q : Base} : ∀ a0 a1 a2, Keeps q (rowPlanned a0 a1 a2) := by
  intros
  unfold rowPlanned
  repeat' first
    | with_reducible assumption
    | with_reducible exact keeps_pure
    | with_reducible exact keeps_throw
    | with_reducible exact keeps_read
    | with_reducible apply keeps_get_bind
    | with_reducible exact keeps_get
    | with_reducible apply keeps_bind
    | with_reducible apply keeps_set
    | with_reducible apply keeps_modify
    | with_reducible apply keeps_forM
    | with_reducible apply keeps_mapM
    | with_reducible apply keeps_foldlM
    | with_reducible apply keeps_forIn
    | with_reducible apply keeps_tryCatch
    | with_reducible apply keeps_map
    | with_reducible apply keeps_seq
    | with_reducible apply statPlanned_keeps
    | with_reducible apply require_keeps
    | with_reducible apply planned_keeps
    | with_reducible apply sound_foldl
    | with_reducible apply sound_foldl_fst
    | intro _
    | with_reducible apply keeps_ite
    | with_reducible apply sound_of_fst (by assumption)
    | with_reducible apply sound_of_some (by assumption)
    | with_reducible apply sound_of_snd (by assumption)
    | with_reducible apply sound_on
    | with_reducible apply sound_getD
    | (with_reducible refine sound_mk ?_ rfl rfl rfl rfl rfl rfl rfl; first | with_reducible assumption | with_reducible apply statPlanned_keeps | with_reducible apply require_keeps | with_reducible apply planned_keeps | with_reducible apply sound_foldl | with_reducible apply sound_foldl_fst)
    | dsimp only
    | split

theorem rowsOf_keeps {q : Base} : ∀ a0 a1 a2 a3 a4 a5, Keeps q (rowsOf a0 a1 a2 a3 a4 a5) := by
  intro a0 a1 a2 a3 a4 a5
  induction a4 generalizing a0 a1 a2 a3 a5 with
  | zero =>
    intros
    unfold rowsOf
    repeat' first
      | with_reducible assumption
      | with_reducible exact keeps_pure
      | with_reducible exact keeps_throw
      | with_reducible exact keeps_read
      | with_reducible apply keeps_get_bind
      | with_reducible exact keeps_get
      | with_reducible apply keeps_bind
      | with_reducible apply keeps_set
      | with_reducible apply keeps_modify
      | with_reducible apply keeps_forM
      | with_reducible apply keeps_mapM
      | with_reducible apply keeps_foldlM
      | with_reducible apply keeps_forIn
      | with_reducible apply keeps_tryCatch
      | with_reducible apply keeps_map
      | with_reducible apply keeps_seq
      | with_reducible apply locStore_keeps
      | with_reducible apply readRow_keeps
      | with_reducible apply writeY_keeps
      | with_reducible apply sound_foldl
      | with_reducible apply sound_foldl_fst
      | intro _
      | with_reducible apply keeps_ite
      | with_reducible apply sound_of_fst (by assumption)
      | with_reducible apply sound_of_some (by assumption)
      | with_reducible apply sound_of_snd (by assumption)
      | with_reducible apply sound_on
      | with_reducible apply sound_getD
      | (with_reducible refine sound_mk ?_ rfl rfl rfl rfl rfl rfl rfl; first | with_reducible assumption | with_reducible apply locStore_keeps | with_reducible apply readRow_keeps | with_reducible apply writeY_keeps | with_reducible apply sound_foldl | with_reducible apply sound_foldl_fst)
      | dsimp only
      | split
  | succ n ih =>
    intros
    unfold rowsOf
    repeat' first
      | with_reducible assumption
      | with_reducible apply ih
      | with_reducible exact keeps_pure
      | with_reducible exact keeps_throw
      | with_reducible exact keeps_read
      | with_reducible apply keeps_get_bind
      | with_reducible exact keeps_get
      | with_reducible apply keeps_bind
      | with_reducible apply keeps_set
      | with_reducible apply keeps_modify
      | with_reducible apply keeps_forM
      | with_reducible apply keeps_mapM
      | with_reducible apply keeps_foldlM
      | with_reducible apply keeps_forIn
      | with_reducible apply keeps_tryCatch
      | with_reducible apply keeps_map
      | with_reducible apply keeps_seq
      | with_reducible apply locStore_keeps
      | with_reducible apply readRow_keeps
      | with_reducible apply writeY_keeps
      | with_reducible apply sound_foldl
      | with_reducible apply sound_foldl_fst
      | intro _
      | with_reducible apply keeps_ite
      | with_reducible apply sound_of_fst (by assumption)
      | with_reducible apply sound_of_some (by assumption)
      | with_reducible apply sound_of_snd (by assumption)
      | with_reducible apply sound_on
      | with_reducible apply sound_getD
      | (with_reducible refine sound_mk ?_ rfl rfl rfl rfl rfl rfl rfl; first | with_reducible assumption | with_reducible apply locStore_keeps | with_reducible apply readRow_keeps | with_reducible apply writeY_keeps | with_reducible apply sound_foldl | with_reducible apply sound_foldl_fst)
      | dsimp only
      | split

theorem rowWork_keeps {q : Base} : Keeps q rowWork := by
  intros
  unfold rowWork
  repeat' first
    | with_reducible assumption
    | with_reducible exact keeps_pure
    | with_reducible exact keeps_throw
    | with_reducible exact keeps_read
    | with_reducible apply keeps_get_bind
    | with_reducible exact keeps_get
    | with_reducible apply keeps_bind
    | with_reducible apply keeps_set
    | with_reducible apply keeps_modify
    | with_reducible apply keeps_forM
    | with_reducible apply keeps_mapM
    | with_reducible apply keeps_foldlM
    | with_reducible apply keeps_forIn
    | with_reducible apply keeps_tryCatch
    | with_reducible apply keeps_map
    | with_reducible apply keeps_seq
    | with_reducible apply doneRows_keeps
    | with_reducible apply rowsOf_keeps
    | with_reducible apply readRow_keeps
    | with_reducible apply runTime_keeps
    | with_reducible apply rowCheck_keeps
    | with_reducible apply rowPlanned_keeps
    | with_reducible apply sound_foldl
    | with_reducible apply sound_foldl_fst
    | intro _
    | with_reducible apply keeps_ite
    | with_reducible apply sound_of_fst (by assumption)
    | with_reducible apply sound_of_some (by assumption)
    | with_reducible apply sound_of_snd (by assumption)
    | with_reducible apply sound_on
    | with_reducible apply sound_getD
    | (with_reducible refine sound_mk ?_ rfl rfl rfl rfl rfl rfl rfl; first | with_reducible assumption | with_reducible apply doneRows_keeps | with_reducible apply rowsOf_keeps | with_reducible apply readRow_keeps | with_reducible apply runTime_keeps | with_reducible apply rowCheck_keeps | with_reducible apply rowPlanned_keeps | with_reducible apply sound_foldl | with_reducible apply sound_foldl_fst)
    | dsimp only
    | split

theorem execRmsnorm_sound {q : Base} : ∀ a0 a1 {s : State}, Sound q s → OutSound q (execRmsnorm a0 a1 s) := by
  intros
  unfold execRmsnorm
  repeat' first
    | with_reducible assumption
    | with_reducible apply outSound_next
    | with_reducible apply State.runItem_sound
    | with_reducible apply rowWork_keeps
    | with_reducible apply sound_foldl
    | with_reducible apply sound_foldl_fst
    | intro _
    | with_reducible apply sound_of_fst (by assumption)
    | with_reducible apply sound_of_some (by assumption)
    | with_reducible apply sound_of_snd (by assumption)
    | with_reducible apply sound_on
    | with_reducible apply sound_getD
    | (with_reducible refine sound_mk ?_ rfl rfl rfl rfl rfl rfl rfl; first | with_reducible assumption | with_reducible apply State.runItem_sound | with_reducible apply rowWork_keeps | with_reducible apply sound_foldl | with_reducible apply sound_foldl_fst)
    | dsimp only
    | split

theorem execSoftmaxRow_sound {q : Base} : ∀ a0 a1 {s : State}, Sound q s → OutSound q (execSoftmaxRow a0 a1 s) := by
  intros
  unfold execSoftmaxRow
  repeat' first
    | with_reducible assumption
    | with_reducible apply outSound_next
    | with_reducible apply State.runItem_sound
    | with_reducible apply rowWork_keeps
    | with_reducible apply sound_foldl
    | with_reducible apply sound_foldl_fst
    | intro _
    | with_reducible apply sound_of_fst (by assumption)
    | with_reducible apply sound_of_some (by assumption)
    | with_reducible apply sound_of_snd (by assumption)
    | with_reducible apply sound_on
    | with_reducible apply sound_getD
    | (with_reducible refine sound_mk ?_ rfl rfl rfl rfl rfl rfl rfl; first | with_reducible assumption | with_reducible apply State.runItem_sound | with_reducible apply rowWork_keeps | with_reducible apply sound_foldl | with_reducible apply sound_foldl_fst)
    | dsimp only
    | split

theorem execQuant_sound {q : Base} : ∀ a0 a1 {s : State}, Sound q s → OutSound q (execQuant a0 a1 s) := by
  intros
  unfold execQuant
  repeat' first
    | with_reducible assumption
    | with_reducible apply outSound_next
    | with_reducible apply State.runItem_sound
    | with_reducible apply rowWork_keeps
    | with_reducible apply sound_foldl
    | with_reducible apply sound_foldl_fst
    | intro _
    | with_reducible apply sound_of_fst (by assumption)
    | with_reducible apply sound_of_some (by assumption)
    | with_reducible apply sound_of_snd (by assumption)
    | with_reducible apply sound_on
    | with_reducible apply sound_getD
    | (with_reducible refine sound_mk ?_ rfl rfl rfl rfl rfl rfl rfl; first | with_reducible assumption | with_reducible apply State.runItem_sound | with_reducible apply rowWork_keeps | with_reducible apply sound_foldl | with_reducible apply sound_foldl_fst)
    | dsimp only
    | split

theorem execDequant_sound {q : Base} : ∀ a0 a1 {s : State}, Sound q s → OutSound q (execDequant a0 a1 s) := by
  intros
  unfold execDequant
  repeat' first
    | with_reducible assumption
    | with_reducible apply outSound_next
    | with_reducible apply State.runItem_sound
    | with_reducible apply rowWork_keeps
    | with_reducible apply sound_foldl
    | with_reducible apply sound_foldl_fst
    | intro _
    | with_reducible apply sound_of_fst (by assumption)
    | with_reducible apply sound_of_some (by assumption)
    | with_reducible apply sound_of_snd (by assumption)
    | with_reducible apply sound_on
    | with_reducible apply sound_getD
    | (with_reducible refine sound_mk ?_ rfl rfl rfl rfl rfl rfl rfl; first | with_reducible assumption | with_reducible apply State.runItem_sound | with_reducible apply rowWork_keeps | with_reducible apply sound_foldl | with_reducible apply sound_foldl_fst)
    | dsimp only
    | split

theorem mergeCheck_keeps {q : Base} : ∀ a0, Keeps q (mergeCheck a0) := by
  intros
  unfold mergeCheck
  repeat' first
    | with_reducible assumption
    | with_reducible exact keeps_pure
    | with_reducible exact keeps_throw
    | with_reducible exact keeps_read
    | with_reducible apply keeps_get_bind
    | with_reducible exact keeps_get
    | with_reducible apply keeps_bind
    | with_reducible apply keeps_set
    | with_reducible apply keeps_modify
    | with_reducible apply keeps_forM
    | with_reducible apply keeps_mapM
    | with_reducible apply keeps_foldlM
    | with_reducible apply keeps_forIn
    | with_reducible apply keeps_tryCatch
    | with_reducible apply keeps_map
    | with_reducible apply keeps_seq
    | with_reducible apply require_keeps
    | with_reducible apply refuseFormats_keeps
    | with_reducible apply sound_foldl
    | with_reducible apply sound_foldl_fst
    | intro _
    | with_reducible apply keeps_ite
    | with_reducible apply sound_of_fst (by assumption)
    | with_reducible apply sound_of_some (by assumption)
    | with_reducible apply sound_of_snd (by assumption)
    | with_reducible apply sound_on
    | with_reducible apply sound_getD
    | (with_reducible refine sound_mk ?_ rfl rfl rfl rfl rfl rfl rfl; first | with_reducible assumption | with_reducible apply require_keeps | with_reducible apply refuseFormats_keeps | with_reducible apply sound_foldl | with_reducible apply sound_foldl_fst)
    | dsimp only
    | split

theorem mergePlanned_keeps {q : Base} : ∀ a0 a1 a2, Keeps q (mergePlanned a0 a1 a2) := by
  intros
  unfold mergePlanned
  repeat' first
    | with_reducible assumption
    | with_reducible exact keeps_pure
    | with_reducible exact keeps_throw
    | with_reducible exact keeps_read
    | with_reducible apply keeps_get_bind
    | with_reducible exact keeps_get
    | with_reducible apply keeps_bind
    | with_reducible apply keeps_set
    | with_reducible apply keeps_modify
    | with_reducible apply keeps_forM
    | with_reducible apply keeps_mapM
    | with_reducible apply keeps_foldlM
    | with_reducible apply keeps_forIn
    | with_reducible apply keeps_tryCatch
    | with_reducible apply keeps_map
    | with_reducible apply keeps_seq
    | with_reducible apply stopWith_keeps
    | with_reducible apply require_keeps
    | with_reducible apply planned_keeps
    | with_reducible apply sound_foldl
    | with_reducible apply sound_foldl_fst
    | intro _
    | with_reducible apply keeps_ite
    | with_reducible apply sound_of_fst (by assumption)
    | with_reducible apply sound_of_some (by assumption)
    | with_reducible apply sound_of_snd (by assumption)
    | with_reducible apply sound_on
    | with_reducible apply sound_getD
    | (with_reducible refine sound_mk ?_ rfl rfl rfl rfl rfl rfl rfl; first | with_reducible assumption | with_reducible apply stopWith_keeps | with_reducible apply require_keeps | with_reducible apply planned_keeps | with_reducible apply sound_foldl | with_reducible apply sound_foldl_fst)
    | dsimp only
    | split

theorem mergeSources_keeps {q : Base} : ∀ a0 a1 a2 a3, Keeps q (mergeSources a0 a1 a2 a3) := by
  intros
  unfold mergeSources
  repeat' first
    | with_reducible assumption
    | with_reducible exact keeps_pure
    | with_reducible exact keeps_throw
    | with_reducible exact keeps_read
    | with_reducible apply keeps_get_bind
    | with_reducible exact keeps_get
    | with_reducible apply keeps_bind
    | with_reducible apply keeps_set
    | with_reducible apply keeps_modify
    | with_reducible apply keeps_forM
    | with_reducible apply keeps_mapM
    | with_reducible apply keeps_foldlM
    | with_reducible apply keeps_forIn
    | with_reducible apply keeps_tryCatch
    | with_reducible apply keeps_map
    | with_reducible apply keeps_seq
    | with_reducible apply locLoad_keeps
    | with_reducible apply sound_foldl
    | with_reducible apply sound_foldl_fst
    | intro _
    | with_reducible apply keeps_ite
    | with_reducible apply sound_of_fst (by assumption)
    | with_reducible apply sound_of_some (by assumption)
    | with_reducible apply sound_of_snd (by assumption)
    | with_reducible apply sound_on
    | with_reducible apply sound_getD
    | (with_reducible refine sound_mk ?_ rfl rfl rfl rfl rfl rfl rfl; first | with_reducible assumption | with_reducible apply locLoad_keeps | with_reducible apply sound_foldl | with_reducible apply sound_foldl_fst)
    | dsimp only
    | split

theorem headRounding_keeps {q : Base} : ∀ a0 a1 a2 a3, Keeps q (headRounding a0 a1 a2 a3) := by
  intros
  unfold headRounding
  repeat' first
    | with_reducible assumption
    | with_reducible exact keeps_pure
    | with_reducible exact keeps_throw
    | with_reducible exact keeps_read
    | with_reducible apply keeps_get_bind
    | with_reducible exact keeps_get
    | with_reducible apply keeps_bind
    | with_reducible apply keeps_set
    | with_reducible apply keeps_modify
    | with_reducible apply keeps_forM
    | with_reducible apply keeps_mapM
    | with_reducible apply keeps_foldlM
    | with_reducible apply keeps_forIn
    | with_reducible apply keeps_tryCatch
    | with_reducible apply keeps_map
    | with_reducible apply keeps_seq
    | with_reducible apply sound_foldl
    | with_reducible apply sound_foldl_fst
    | intro _
    | with_reducible apply keeps_ite
    | with_reducible apply sound_of_fst (by assumption)
    | with_reducible apply sound_of_some (by assumption)
    | with_reducible apply sound_of_snd (by assumption)
    | with_reducible apply sound_on
    | with_reducible apply sound_getD
    | (with_reducible refine sound_mk ?_ rfl rfl rfl rfl rfl rfl rfl; first | with_reducible assumption | with_reducible apply sound_foldl | with_reducible apply sound_foldl_fst)
    | dsimp only
    | split

theorem mergeRows_keeps {q : Base} : ∀ a0 a1 a2 a3 a4, Keeps q (mergeRows a0 a1 a2 a3 a4) := by
  intro a0 a1 a2 a3 a4
  induction a3 generalizing a0 a1 a2 a4 with
  | zero =>
    intros
    unfold mergeRows
    repeat' first
      | with_reducible assumption
      | with_reducible exact keeps_pure
      | with_reducible exact keeps_throw
      | with_reducible exact keeps_read
      | with_reducible apply keeps_get_bind
      | with_reducible exact keeps_get
      | with_reducible apply keeps_bind
      | with_reducible apply keeps_set
      | with_reducible apply keeps_modify
      | with_reducible apply keeps_forM
      | with_reducible apply keeps_mapM
      | with_reducible apply keeps_foldlM
      | with_reducible apply keeps_forIn
      | with_reducible apply keeps_tryCatch
      | with_reducible apply keeps_map
      | with_reducible apply keeps_seq
      | with_reducible apply locStore_keeps
      | with_reducible apply writeRow_keeps
      | with_reducible apply headRounding_keeps
      | with_reducible apply mergeSources_keeps
      | with_reducible apply sound_foldl
      | with_reducible apply sound_foldl_fst
      | intro _
      | with_reducible apply keeps_ite
      | with_reducible apply sound_of_fst (by assumption)
      | with_reducible apply sound_of_some (by assumption)
      | with_reducible apply sound_of_snd (by assumption)
      | with_reducible apply sound_on
      | with_reducible apply sound_getD
      | (with_reducible refine sound_mk ?_ rfl rfl rfl rfl rfl rfl rfl; first | with_reducible assumption | with_reducible apply locStore_keeps | with_reducible apply writeRow_keeps | with_reducible apply headRounding_keeps | with_reducible apply mergeSources_keeps | with_reducible apply sound_foldl | with_reducible apply sound_foldl_fst)
      | dsimp only
      | split
  | succ n ih =>
    intros
    unfold mergeRows
    repeat' first
      | with_reducible assumption
      | with_reducible apply ih
      | with_reducible exact keeps_pure
      | with_reducible exact keeps_throw
      | with_reducible exact keeps_read
      | with_reducible apply keeps_get_bind
      | with_reducible exact keeps_get
      | with_reducible apply keeps_bind
      | with_reducible apply keeps_set
      | with_reducible apply keeps_modify
      | with_reducible apply keeps_forM
      | with_reducible apply keeps_mapM
      | with_reducible apply keeps_foldlM
      | with_reducible apply keeps_forIn
      | with_reducible apply keeps_tryCatch
      | with_reducible apply keeps_map
      | with_reducible apply keeps_seq
      | with_reducible apply locStore_keeps
      | with_reducible apply writeRow_keeps
      | with_reducible apply headRounding_keeps
      | with_reducible apply mergeSources_keeps
      | with_reducible apply sound_foldl
      | with_reducible apply sound_foldl_fst
      | intro _
      | with_reducible apply keeps_ite
      | with_reducible apply sound_of_fst (by assumption)
      | with_reducible apply sound_of_some (by assumption)
      | with_reducible apply sound_of_snd (by assumption)
      | with_reducible apply sound_on
      | with_reducible apply sound_getD
      | (with_reducible refine sound_mk ?_ rfl rfl rfl rfl rfl rfl rfl; first | with_reducible assumption | with_reducible apply locStore_keeps | with_reducible apply writeRow_keeps | with_reducible apply headRounding_keeps | with_reducible apply mergeSources_keeps | with_reducible apply sound_foldl | with_reducible apply sound_foldl_fst)
      | dsimp only
      | split

theorem attnMergeWork_keeps {q : Base} : Keeps q attnMergeWork := by
  intros
  unfold attnMergeWork
  repeat' first
    | with_reducible assumption
    | with_reducible exact keeps_pure
    | with_reducible exact keeps_throw
    | with_reducible exact keeps_read
    | with_reducible apply keeps_get_bind
    | with_reducible exact keeps_get
    | with_reducible apply keeps_bind
    | with_reducible apply keeps_set
    | with_reducible apply keeps_modify
    | with_reducible apply keeps_forM
    | with_reducible apply keeps_mapM
    | with_reducible apply keeps_foldlM
    | with_reducible apply keeps_forIn
    | with_reducible apply keeps_tryCatch
    | with_reducible apply keeps_map
    | with_reducible apply keeps_seq
    | with_reducible apply mergeRows_keeps
    | with_reducible apply runTime_keeps
    | with_reducible apply mergeCheck_keeps
    | with_reducible apply mergePlanned_keeps
    | with_reducible apply sound_foldl
    | with_reducible apply sound_foldl_fst
    | intro _
    | with_reducible apply keeps_ite
    | with_reducible apply sound_of_fst (by assumption)
    | with_reducible apply sound_of_some (by assumption)
    | with_reducible apply sound_of_snd (by assumption)
    | with_reducible apply sound_on
    | with_reducible apply sound_getD
    | (with_reducible refine sound_mk ?_ rfl rfl rfl rfl rfl rfl rfl; first | with_reducible assumption | with_reducible apply mergeRows_keeps | with_reducible apply runTime_keeps | with_reducible apply mergeCheck_keeps | with_reducible apply mergePlanned_keeps | with_reducible apply sound_foldl | with_reducible apply sound_foldl_fst)
    | dsimp only
    | split

theorem execAttnMerge_sound {q : Base} : ∀ a0 a1 {s : State}, Sound q s → OutSound q (execAttnMerge a0 a1 s) := by
  intros
  unfold execAttnMerge
  repeat' first
    | with_reducible assumption
    | with_reducible apply outSound_next
    | with_reducible apply State.runItem_sound
    | with_reducible apply attnMergeWork_keeps
    | with_reducible apply sound_foldl
    | with_reducible apply sound_foldl_fst
    | intro _
    | with_reducible apply sound_of_fst (by assumption)
    | with_reducible apply sound_of_some (by assumption)
    | with_reducible apply sound_of_snd (by assumption)
    | with_reducible apply sound_on
    | with_reducible apply sound_getD
    | (with_reducible refine sound_mk ?_ rfl rfl rfl rfl rfl rfl rfl; first | with_reducible assumption | with_reducible apply State.runItem_sound | with_reducible apply attnMergeWork_keeps | with_reducible apply sound_foldl | with_reducible apply sound_foldl_fst)
    | dsimp only
    | split

end Sys2Proof.Machine
end

