-- ==== Sys2Proof/Laws/KeepAttn.lean ====
section
/-! SUPPORT. What the operations of `Machine/Attn.lean` keep: the memories in canonical form and the queue. -/

set_option linter.unusedTactic false
set_option linter.unreachableTactic false

namespace Sys2Proof.Machine

theorem attnCheck_keeps {q : Base} : ∀ a0, Keeps q (attnCheck a0) := by
  intros
  unfold attnCheck
  repeat' first
    | with_reducible assumption
    | with_reducible exact keeps_pure
    | with_reducible exact keeps_throw
    | with_reducible exact keeps_read
    | with_reducible apply keeps_get_bind
    | with_reducible exact keeps_get
    | with_reducible apply keeps_bind
    | with_reducible apply keeps_set
    | with_reducible apply keeps_modify
    | with_reducible apply keeps_forM
    | with_reducible apply keeps_mapM
    | with_reducible apply keeps_foldlM
    | with_reducible apply keeps_forIn
    | with_reducible apply keeps_tryCatch
    | with_reducible apply keeps_map
    | with_reducible apply keeps_seq
    | with_reducible apply require_keeps
    | with_reducible apply refuseFormats_keeps
    | with_reducible apply sound_foldl
    | with_reducible apply sound_foldl_fst
    | intro _
    | with_reducible apply keeps_ite
    | with_reducible apply sound_of_fst (by assumption)
    | with_reducible apply sound_of_some (by assumption)
    | with_reducible apply sound_of_snd (by assumption)
    | with_reducible apply sound_on
    | with_reducible apply sound_getD
    | (with_reducible refine sound_mk ?_ rfl rfl rfl rfl rfl rfl rfl; first | with_reducible assumption | with_reducible apply require_keeps | with_reducible apply refuseFormats_keeps | with_reducible apply sound_foldl | with_reducible apply sound_foldl_fst)
    | dsimp only
    | split

theorem attnBias_keeps {q : Base} : ∀ a0, Keeps q (attnBias a0) := by
  intros
  unfold attnBias
  repeat' first
    | with_reducible assumption
    | with_reducible exact keeps_pure
    | with_reducible exact keeps_throw
    | with_reducible exact keeps_read
    | with_reducible apply keeps_get_bind
    | with_reducible exact keeps_get
    | with_reducible apply keeps_bind
    | with_reducible apply keeps_set
    | with_reducible apply keeps_modify
    | with_reducible apply keeps_forM
    | with_reducible apply keeps_mapM
    | with_reducible apply keeps_foldlM
    | with_reducible apply keeps_forIn
    | with_reducible apply keeps_tryCatch
    | with_reducible apply keeps_map
    | with_reducible apply keeps_seq
    | with_reducible apply require_keeps
    | with_reducible apply sound_foldl
    | with_reducible apply sound_foldl_fst
    | intro _
    | with_reducible apply keeps_ite
    | with_reducible apply sound_of_fst (by assumption)
    | with_reducible apply sound_of_some (by assumption)
    | with_reducible apply sound_of_snd (by assumption)
    | with_reducible apply sound_on
    | with_reducible apply sound_getD
    | (with_reducible refine sound_mk ?_ rfl rfl rfl rfl rfl rfl rfl; first | with_reducible assumption | with_reducible apply require_keeps | with_reducible apply sound_foldl | with_reducible apply sound_foldl_fst)
    | dsimp only
    | split

theorem sightPages_keeps {q : Base} : ∀ a0 a1, Keeps q (sightPages a0 a1) := by
  intros
  unfold sightPages
  repeat' first
    | with_reducible assumption
    | with_reducible exact keeps_pure
    | with_reducible exact keeps_throw
    | with_reducible exact keeps_read
    | with_reducible apply keeps_get_bind
    | with_reducible exact keeps_get
    | with_reducible apply keeps_bind
    | with_reducible apply keeps_set
    | with_reducible apply keeps_modify
    | with_reducible apply keeps_forM
    | with_reducible apply keeps_mapM
    | with_reducible apply keeps_foldlM
    | with_reducible apply keeps_forIn
    | with_reducible apply keeps_tryCatch
    | with_reducible apply keeps_map
    | with_reducible apply keeps_seq
    | with_reducible apply loadNat_keeps
    | with_reducible apply require_keeps
    | with_reducible apply load_keeps
    | with_reducible apply sound_foldl
    | with_reducible apply sound_foldl_fst
    | intro _
    | with_reducible apply keeps_ite
    | with_reducible apply sound_of_fst (by assumption)
    | with_reducible apply sound_of_some (by assumption)
    | with_reducible apply sound_of_snd (by assumption)
    | with_reducible apply sound_on
    | with_reducible apply sound_getD
    | (with_reducible refine sound_mk ?_ rfl rfl rfl rfl rfl rfl rfl; first | with_reducible assumption | with_reducible apply loadNat_keeps | with_reducible apply require_keeps | with_reducible apply load_keeps | with_reducible apply sound_foldl | with_reducible apply sound_foldl_fst)
    | dsimp only
    | split

theorem pageRows_keeps {q : Base} : ∀ a0 a1 a2 a3 a4, Keeps q (pageRows a0 a1 a2 a3 a4) := by
  intros
  unfold pageRows
  repeat' first
    | with_reducible assumption
    | with_reducible exact keeps_pure
    | with_reducible exact keeps_throw
    | with_reducible exact keeps_read
    | with_reducible apply keeps_get_bind
    | with_reducible exact keeps_get
    | with_reducible apply keeps_bind
    | with_reducible apply keeps_set
    | with_reducible apply keeps_modify
    | with_reducible apply keeps_forM
    | with_reducible apply keeps_mapM
    | with_reducible apply keeps_foldlM
    | with_reducible apply keeps_forIn
    | with_reducible apply keeps_tryCatch
    | with_reducible apply keeps_map
    | with_reducible apply keeps_seq
    | with_reducible apply frameLoad_keeps
    | with_reducible apply pageFrame_keeps
    | with_reducible apply sound_foldl
    | with_reducible apply sound_foldl_fst
    | intro _
    | with_reducible apply keeps_ite
    | with_reducible apply sound_of_fst (by assumption)
    | with_reducible apply sound_of_some (by assumption)
    | with_reducible apply sound_of_snd (by assumption)
    | with_reducible apply sound_on
    | with_reducible apply sound_getD
    | (with_reducible refine sound_mk ?_ rfl rfl rfl rfl rfl rfl rfl; first | with_reducible assumption | with_reducible apply frameLoad_keeps | with_reducible apply pageFrame_keeps | with_reducible apply sound_foldl | with_reducible apply sound_foldl_fst)
    | dsimp only
    | split

theorem attnQueries_keeps {q : Base} : ∀ a0 a1 a2 a3 a4, Keeps q (attnQueries a0 a1 a2 a3 a4) := by
  intros
  unfold attnQueries
  repeat' first
    | with_reducible assumption
    | with_reducible exact keeps_pure
    | with_reducible exact keeps_throw
    | with_reducible exact keeps_read
    | with_reducible apply keeps_get_bind
    | with_reducible exact keeps_get
    | with_reducible apply keeps_bind
    | with_reducible apply keeps_set
    | with_reducible apply keeps_modify
    | with_reducible apply keeps_forM
    | with_reducible apply keeps_mapM
    | with_reducible apply keeps_foldlM
    | with_reducible apply keeps_forIn
    | with_reducible apply keeps_tryCatch
    | with_reducible apply keeps_map
    | with_reducible apply keeps_seq
    | with_reducible apply readRow_keeps
    | with_reducible apply sound_foldl
    | with_reducible apply sound_foldl_fst
    | intro _
    | with_reducible apply keeps_ite
    | with_reducible apply sound_of_fst (by assumption)
    | with_reducible apply sound_of_some (by assumption)
    | with_reducible apply sound_of_snd (by assumption)
    | with_reducible apply sound_on
    | with_reducible apply sound_getD
    | (with_reducible refine sound_mk ?_ rfl rfl rfl rfl rfl rfl rfl; first | with_reducible assumption | with_reducible apply readRow_keeps | with_reducible apply sound_foldl | with_reducible apply sound_foldl_fst)
    | dsimp only
    | split

theorem attnPages_keeps {q : Base} : ∀ a0 a1 a2 a3 a4 a5 a6, Keeps q (attnPages a0 a1 a2 a3 a4 a5 a6) := by
  intro a0 a1 a2 a3 a4 a5 a6
  induction a5 generalizing a0 a1 a2 a3 a4 a6 with
  | nil =>
    intros
    unfold attnPages
    repeat' first
      | with_reducible assumption
      | with_reducible exact keeps_pure
      | with_reducible exact keeps_throw
      | with_reducible exact keeps_read
      | with_reducible apply keeps_get_bind
      | with_reducible exact keeps_get
      | with_reducible apply keeps_bind
      | with_reducible apply keeps_set
      | with_reducible apply keeps_modify
      | with_reducible apply keeps_forM
      | with_reducible apply keeps_mapM
      | with_reducible apply keeps_foldlM
      | with_reducible apply keeps_forIn
      | with_reducible apply keeps_tryCatch
      | with_reducible apply keeps_map
      | with_reducible apply keeps_seq
      | with_reducible apply pageRows_keeps
      | with_reducible apply State.countSkips_sound
      | with_reducible apply sound_foldl
      | with_reducible apply sound_foldl_fst
      | intro _
      | with_reducible apply keeps_ite
      | with_reducible apply sound_of_fst (by assumption)
      | with_reducible apply sound_of_some (by assumption)
      | with_reducible apply sound_of_snd (by assumption)
      | with_reducible apply sound_on
      | with_reducible apply sound_getD
      | (with_reducible refine sound_mk ?_ rfl rfl rfl rfl rfl rfl rfl; first | with_reducible assumption | with_reducible apply pageRows_keeps | with_reducible apply State.countSkips_sound | with_reducible apply sound_foldl | with_reducible apply sound_foldl_fst)
      | dsimp only
      | split
  | cons x xs ih =>
    intros
    unfold attnPages
    repeat' first
      | with_reducible assumption
      | with_reducible apply ih
      | with_reducible exact keeps_pure
      | with_reducible exact keeps_throw
      | with_reducible exact keeps_read
      | with_reducible apply keeps_get_bind
      | with_reducible exact keeps_get
      | with_reducible apply keeps_bind
      | with_reducible apply keeps_set
      | with_reducible apply keeps_modify
      | with_reducible apply keeps_forM
      | with_reducible apply keeps_mapM
      | with_reducible apply keeps_foldlM
      | with_reducible apply keeps_forIn
      | with_reducible apply keeps_tryCatch
      | with_reducible apply keeps_map
      | with_reducible apply keeps_seq
      | with_reducible apply pageRows_keeps
      | with_reducible apply State.countSkips_sound
      | with_reducible apply sound_foldl
      | with_reducible apply sound_foldl_fst
      | intro _
      | with_reducible apply keeps_ite
      | with_reducible apply sound_of_fst (by assumption)
      | with_reducible apply sound_of_some (by assumption)
      | with_reducible apply sound_of_snd (by assumption)
      | with_reducible apply sound_on
      | with_reducible apply sound_getD
      | (with_reducible refine sound_mk ?_ rfl rfl rfl rfl rfl rfl rfl; first | with_reducible assumption | with_reducible apply pageRows_keeps | with_reducible apply State.countSkips_sound | with_reducible apply sound_foldl | with_reducible apply sound_foldl_fst)
      | dsimp only
      | split

theorem fillScratch_keeps {q : Base} : ∀ a0 a1, Keeps q (fillScratch a0 a1) := by
  intros
  unfold fillScratch
  repeat' first
    | with_reducible assumption
    | with_reducible exact keeps_pure
    | with_reducible exact keeps_throw
    | with_reducible exact keeps_read
    | with_reducible apply keeps_get_bind
    | with_reducible exact keeps_get
    | with_reducible apply keeps_bind
    | with_reducible apply keeps_set
    | with_reducible apply keeps_modify
    | with_reducible apply keeps_forM
    | with_reducible apply keeps_mapM
    | with_reducible apply keeps_foldlM
    | with_reducible apply keeps_forIn
    | with_reducible apply keeps_tryCatch
    | with_reducible apply keeps_map
    | with_reducible apply keeps_seq
    | with_reducible apply locStore_keeps
    | with_reducible apply sound_foldl
    | with_reducible apply sound_foldl_fst
    | intro _
    | with_reducible apply keeps_ite
    | with_reducible apply sound_of_fst (by assumption)
    | with_reducible apply sound_of_some (by assumption)
    | with_reducible apply sound_of_snd (by assumption)
    | with_reducible apply sound_on
    | with_reducible apply sound_getD
    | (with_reducible refine sound_mk ?_ rfl rfl rfl rfl rfl rfl rfl; first | with_reducible assumption | with_reducible apply locStore_keeps | with_reducible apply sound_foldl | with_reducible apply sound_foldl_fst)
    | dsimp only
    | split

theorem attnWrite_keeps {q : Base} : ∀ a0 a1 a2 a3 a4 a5, Keeps q (attnWrite a0 a1 a2 a3 a4 a5) := by
  intro a0 a1 a2 a3 a4 a5
  induction a5 generalizing a0 a1 a2 a3 a4 with
  | nil =>
    intros
    unfold attnWrite
    repeat' first
      | with_reducible assumption
      | with_reducible exact keeps_pure
      | with_reducible exact keeps_throw
      | with_reducible exact keeps_read
      | with_reducible apply keeps_get_bind
      | with_reducible exact keeps_get
      | with_reducible apply keeps_bind
      | with_reducible apply keeps_set
      | with_reducible apply keeps_modify
      | with_reducible apply keeps_forM
      | with_reducible apply keeps_mapM
      | with_reducible apply keeps_foldlM
      | with_reducible apply keeps_forIn
      | with_reducible apply keeps_tryCatch
      | with_reducible apply keeps_map
      | with_reducible apply keeps_seq
      | with_reducible apply locStore_keeps
      | with_reducible apply sound_foldl
      | with_reducible apply sound_foldl_fst
      | intro _
      | with_reducible apply keeps_ite
      | with_reducible apply sound_of_fst (by assumption)
      | with_reducible apply sound_of_some (by assumption)
      | with_reducible apply sound_of_snd (by assumption)
      | with_reducible apply sound_on
      | with_reducible apply sound_getD
      | (with_reducible refine sound_mk ?_ rfl rfl rfl rfl rfl rfl rfl; first | with_reducible assumption | with_reducible apply locStore_keeps | with_reducible apply sound_foldl | with_reducible apply sound_foldl_fst)
      | dsimp only
      | split
  | cons x xs ih =>
    intros
    unfold attnWrite
    repeat' first
      | with_reducible assumption
      | with_reducible apply ih
      | with_reducible exact keeps_pure
      | with_reducible exact keeps_throw
      | with_reducible exact keeps_read
      | with_reducible apply keeps_get_bind
      | with_reducible exact keeps_get
      | with_reducible apply keeps_bind
      | with_reducible apply keeps_set
      | with_reducible apply keeps_modify
      | with_reducible apply keeps_forM
      | with_reducible apply keeps_mapM
      | with_reducible apply keeps_foldlM
      | with_reducible apply keeps_forIn
      | with_reducible apply keeps_tryCatch
      | with_reducible apply keeps_map
      | with_reducible apply keeps_seq
      | with_reducible apply locStore_keeps
      | with_reducible apply sound_foldl
      | with_reducible apply sound_foldl_fst
      | intro _
      | with_reducible apply keeps_ite
      | with_reducible apply sound_of_fst (by assumption)
      | with_reducible apply sound_of_some (by assumption)
      | with_reducible apply sound_of_snd (by assumption)
      | with_reducible apply sound_on
      | with_reducible apply sound_getD
      | (with_reducible refine sound_mk ?_ rfl rfl rfl rfl rfl rfl rfl; first | with_reducible assumption | with_reducible apply locStore_keeps | with_reducible apply sound_foldl | with_reducible apply sound_foldl_fst)
      | dsimp only
      | split

theorem attnPlanned_keeps {q : Base} : ∀ a0 a1 a2 a3, Keeps q (attnPlanned a0 a1 a2 a3) := by
  intros
  unfold attnPlanned
  repeat' first
    | with_reducible assumption
    | with_reducible exact keeps_pure
    | with_reducible exact keeps_throw
    | with_reducible exact keeps_read
    | with_reducible apply keeps_get_bind
    | with_reducible exact keeps_get
    | with_reducible apply keeps_bind
    | with_reducible apply keeps_set
    | with_reducible apply keeps_modify
    | with_reducible apply keeps_forM
    | with_reducible apply keeps_mapM
    | with_reducible apply keeps_foldlM
    | with_reducible apply keeps_forIn
    | with_reducible apply keeps_tryCatch
    | with_reducible apply keeps_map
    | with_reducible apply keeps_seq
    | with_reducible apply require_keeps
    | with_reducible apply planned_keeps
    | with_reducible apply sound_foldl
    | with_reducible apply sound_foldl_fst
    | intro _
    | with_reducible apply keeps_ite
    | with_reducible apply sound_of_fst (by assumption)
    | with_reducible apply sound_of_some (by assumption)
    | with_reducible apply sound_of_snd (by assumption)
    | with_reducible apply sound_on
    | with_reducible apply sound_getD
    | (with_reducible refine sound_mk ?_ rfl rfl rfl rfl rfl rfl rfl; first | with_reducible assumption | with_reducible apply require_keeps | with_reducible apply planned_keeps | with_reducible apply sound_foldl | with_reducible apply sound_foldl_fst)
    | dsimp only
    | split

theorem attnWork_keeps {q : Base} : ∀ a0, Keeps q (attnWork a0) := by
  intros
  unfold attnWork
  repeat' first
    | with_reducible assumption
    | with_reducible exact keeps_pure
    | with_reducible exact keeps_throw
    | with_reducible exact keeps_read
    | with_reducible apply keeps_get_bind
    | with_reducible exact keeps_get
    | with_reducible apply keeps_bind
    | with_reducible apply keeps_set
    | with_reducible apply keeps_modify
    | with_reducible apply keeps_forM
    | with_reducible apply keeps_mapM
    | with_reducible apply keeps_foldlM
    | with_reducible apply keeps_forIn
    | with_reducible apply keeps_tryCatch
    | with_reducible apply keeps_map
    | with_reducible apply keeps_seq
    | with_reducible apply attnCheck_keeps
    | with_reducible apply laneCheck_keeps
    | with_reducible apply attnPages_keeps
    | with_reducible apply attnBias_keeps
    | with_reducible apply require_keeps
    | with_reducible apply sightPages_keeps
    | with_reducible apply attnPlanned_keeps
    | with_reducible apply attnQueries_keeps
    | with_reducible apply runTime_keeps
    | with_reducible apply sramTable_keeps
    | with_reducible apply fillScratch_keeps
    | with_reducible apply loadTable_keeps
    | with_reducible apply attnWrite_keeps
    | with_reducible apply sound_foldl
    | with_reducible apply sound_foldl_fst
    | intro _
    | with_reducible apply keeps_ite
    | with_reducible apply sound_of_fst (by assumption)
    | with_reducible apply sound_of_some (by assumption)
    | with_reducible apply sound_of_snd (by assumption)
    | with_reducible apply sound_on
    | with_reducible apply sound_getD
    | (with_reducible refine sound_mk ?_ rfl rfl rfl rfl rfl rfl rfl; first | with_reducible assumption | with_reducible apply attnCheck_keeps | with_reducible apply laneCheck_keeps | with_reducible apply attnPages_keeps | with_reducible apply attnBias_keeps | with_reducible apply require_keeps | with_reducible apply sightPages_keeps | with_reducible apply attnPlanned_keeps | with_reducible apply attnQueries_keeps | with_reducible apply runTime_keeps | with_reducible apply sramTable_keeps | with_reducible apply fillScratch_keeps | with_reducible apply loadTable_keeps | with_reducible apply attnWrite_keeps | with_reducible apply sound_foldl | with_reducible apply sound_foldl_fst)
    | dsimp only
    | split

theorem execAttn_sound {q : Base} : ∀ a0 a1 a2 {s : State}, Sound q s → OutSound q (execAttn a0 a1 a2 s) := by
  intros
  unfold execAttn
  repeat' first
    | with_reducible assumption
    | with_reducible apply outSound_next
    | with_reducible apply State.runItem_sound
    | with_reducible apply attnWork_keeps
    | with_reducible apply sound_foldl
    | with_reducible apply sound_foldl_fst
    | intro _
    | with_reducible apply sound_of_fst (by assumption)
    | with_reducible apply sound_of_some (by assumption)
    | with_reducible apply sound_of_snd (by assumption)
    | with_reducible apply sound_on
    | with_reducible apply sound_getD
    | (with_reducible refine sound_mk ?_ rfl rfl rfl rfl rfl rfl rfl; first | with_reducible assumption | with_reducible apply State.runItem_sound | with_reducible apply attnWork_keeps | with_reducible apply sound_foldl | with_reducible apply sound_foldl_fst)
    | dsimp only
    | split

theorem biasLoadCheck_keeps {q : Base} : ∀ a0, Keeps q (biasLoadCheck a0) := by
  intros
  unfold biasLoadCheck
  repeat' first
    | with_reducible assumption
    | with_reducible exact keeps_pure
    | with_reducible exact keeps_throw
    | with_reducible exact keeps_read
    | with_reducible apply keeps_get_bind
    | with_reducible exact keeps_get
    | with_reducible apply keeps_bind
    | with_reducible apply keeps_set
    | with_reducible apply keeps_modify
    | with_reducible apply keeps_forM
    | with_reducible apply keeps_mapM
    | with_reducible apply keeps_foldlM
    | with_reducible apply keeps_forIn
    | with_reducible apply keeps_tryCatch
    | with_reducible apply keeps_map
    | with_reducible apply keeps_seq
    | with_reducible apply require_keeps
    | with_reducible apply sound_foldl
    | with_reducible apply sound_foldl_fst
    | intro _
    | with_reducible apply keeps_ite
    | with_reducible apply sound_of_fst (by assumption)
    | with_reducible apply sound_of_some (by assumption)
    | with_reducible apply sound_of_snd (by assumption)
    | with_reducible apply sound_on
    | with_reducible apply sound_getD
    | (with_reducible refine sound_mk ?_ rfl rfl rfl rfl rfl rfl rfl; first | with_reducible assumption | with_reducible apply require_keeps | with_reducible apply sound_foldl | with_reducible apply sound_foldl_fst)
    | dsimp only
    | split

theorem biasLoadWork_keeps {q : Base} : Keeps q biasLoadWork := by
  intros
  unfold biasLoadWork
  repeat' first
    | with_reducible assumption
    | with_reducible exact keeps_pure
    | with_reducible exact keeps_throw
    | with_reducible exact keeps_read
    | with_reducible apply keeps_get_bind
    | with_reducible exact keeps_get
    | with_reducible apply keeps_bind
    | with_reducible apply keeps_set
    | with_reducible apply keeps_modify
    | with_reducible apply keeps_forM
    | with_reducible apply keeps_mapM
    | with_reducible apply keeps_foldlM
    | with_reducible apply keeps_forIn
    | with_reducible apply keeps_tryCatch
    | with_reducible apply keeps_map
    | with_reducible apply keeps_seq
    | with_reducible apply State.setFlag_sound
    | with_reducible apply require_keeps
    | with_reducible apply State.setFld_sound
    | with_reducible apply State.sramFresh_sound
    | with_reducible apply biasLoadCheck_keeps
    | with_reducible apply load_keeps
    | with_reducible apply sound_foldl
    | with_reducible apply sound_foldl_fst
    | intro _
    | with_reducible apply keeps_ite
    | with_reducible apply sound_of_fst (by assumption)
    | with_reducible apply sound_of_some (by assumption)
    | with_reducible apply sound_of_snd (by assumption)
    | with_reducible apply sound_on
    | with_reducible apply sound_getD
    | (with_reducible refine sound_mk ?_ rfl rfl rfl rfl rfl rfl rfl; first | with_reducible assumption | with_reducible apply State.setFlag_sound | with_reducible apply require_keeps | with_reducible apply State.setFld_sound | with_reducible apply State.sramFresh_sound | with_reducible apply biasLoadCheck_keeps | with_reducible apply load_keeps | with_reducible apply sound_foldl | with_reducible apply sound_foldl_fst)
    | dsimp only
    | split

theorem execBiasLoad_sound {q : Base} : ∀ a0 a1 {s : State}, Sound q s → OutSound q (execBiasLoad a0 a1 s) := by
  intros
  unfold execBiasLoad
  repeat' first
    | with_reducible assumption
    | with_reducible apply outSound_next
    | with_reducible apply State.runItem_sound
    | with_reducible apply biasLoadWork_keeps
    | with_reducible apply sound_foldl
    | with_reducible apply sound_foldl_fst
    | intro _
    | with_reducible apply sound_of_fst (by assumption)
    | with_reducible apply sound_of_some (by assumption)
    | with_reducible apply sound_of_snd (by assumption)
    | with_reducible apply sound_on
    | with_reducible apply sound_getD
    | (with_reducible refine sound_mk ?_ rfl rfl rfl rfl rfl rfl rfl; first | with_reducible assumption | with_reducible apply State.runItem_sound | with_reducible apply biasLoadWork_keeps | with_reducible apply sound_foldl | with_reducible apply sound_foldl_fst)
    | dsimp only
    | split

theorem State.biasSwitch_sound {q : Base} : ∀ {s : State} a1, Sound q s → Sound q (State.biasSwitch s a1) := by
  intros
  unfold State.biasSwitch
  repeat' first
    | with_reducible assumption
    | with_reducible apply State.setFlag_sound
    | with_reducible apply State.setFld_sound
    | with_reducible apply sound_foldl
    | with_reducible apply sound_foldl_fst
    | intro _
    | with_reducible apply sound_ite
    | with_reducible apply sound_of_fst (by assumption)
    | with_reducible apply sound_of_some (by assumption)
    | with_reducible apply sound_of_snd (by assumption)
    | with_reducible apply sound_on
    | with_reducible apply sound_getD
    | (with_reducible refine sound_mk ?_ rfl rfl rfl rfl rfl rfl rfl; first | with_reducible assumption | with_reducible apply State.setFlag_sound | with_reducible apply State.setFld_sound | with_reducible apply sound_foldl | with_reducible apply sound_foldl_fst)
    | dsimp only
    | split

end Sys2Proof.Machine
end

