-- ==== Sys2Proof/Laws/KeepFlash.lean ====
section
/-! SUPPORT. What the operations of `Machine/Flash.lean` keep: the memories in canonical form and the queue. -/

set_option linter.unusedTactic false
set_option linter.unreachableTactic false

namespace Sys2Proof.Machine

theorem State.fillUnit_sound {q : Base} : ∀ {s : State} a1, Sound q s → Sound q (State.fillUnit s a1) := by
  intros
  unfold State.fillUnit
  repeat' first
    | with_reducible assumption
    | with_reducible apply sound_foldl
    | with_reducible apply sound_foldl_fst
    | intro _
    | with_reducible apply sound_ite
    | with_reducible apply sound_of_fst (by assumption)
    | with_reducible apply sound_of_some (by assumption)
    | with_reducible apply sound_of_snd (by assumption)
    | with_reducible apply sound_on
    | with_reducible apply sound_getD
    | (with_reducible refine sound_mk ?_ rfl rfl rfl rfl rfl rfl rfl; first | with_reducible assumption | with_reducible apply sound_foldl | with_reducible apply sound_foldl_fst)
    | (with_reducible refine sound_mk_wf ?_ rfl ?_ ?_ ?_ ?_ rfl rfl <;> first | with_reducible assumption | with_reducible apply sound_foldl | with_reducible apply sound_foldl_fst | exact id | exact fun _ => cellWf_nil _ | exact cellWf_write _ _ | exact cellWf_clear _ _ | exact cellWf_filter _)
    | dsimp only
    | split

theorem State.showFree_sound {q : Base} : ∀ {s : State}, Sound q s → Sound q (State.showFree s) := by
  intros
  unfold State.showFree
  repeat' first
    | with_reducible assumption
    | with_reducible apply State.setFlag_sound
    | with_reducible apply sound_foldl
    | with_reducible apply sound_foldl_fst
    | intro _
    | with_reducible apply sound_ite
    | with_reducible apply sound_of_fst (by assumption)
    | with_reducible apply sound_of_some (by assumption)
    | with_reducible apply sound_of_snd (by assumption)
    | with_reducible apply sound_on
    | with_reducible apply sound_getD
    | (with_reducible refine sound_mk ?_ rfl rfl rfl rfl rfl rfl rfl; first | with_reducible assumption | with_reducible apply State.setFlag_sound | with_reducible apply sound_foldl | with_reducible apply sound_foldl_fst)
    | (with_reducible refine sound_mk_wf ?_ rfl ?_ ?_ ?_ ?_ rfl rfl <;> first | with_reducible assumption | with_reducible apply State.setFlag_sound | with_reducible apply sound_foldl | with_reducible apply sound_foldl_fst | exact id | exact fun _ => cellWf_nil _ | exact cellWf_write _ _ | exact cellWf_clear _ _ | exact cellWf_filter _)
    | dsimp only
    | split

theorem State.placePrograms_sound {q : Base} : ∀ {s : State}, Sound q s → Sound q (State.placePrograms s) := by
  intros
  unfold State.placePrograms
  repeat' first
    | with_reducible assumption
    | with_reducible apply State.showFree_sound
    | with_reducible apply State.fillUnit_sound
    | with_reducible apply sound_foldl
    | with_reducible apply sound_foldl_fst
    | intro _
    | with_reducible apply sound_ite
    | with_reducible apply sound_of_fst (by assumption)
    | with_reducible apply sound_of_some (by assumption)
    | with_reducible apply sound_of_snd (by assumption)
    | with_reducible apply sound_on
    | with_reducible apply sound_getD
    | (with_reducible refine sound_mk ?_ rfl rfl rfl rfl rfl rfl rfl; first | with_reducible assumption | with_reducible apply State.showFree_sound | with_reducible apply State.fillUnit_sound | with_reducible apply sound_foldl | with_reducible apply sound_foldl_fst)
    | (with_reducible refine sound_mk_wf ?_ rfl ?_ ?_ ?_ ?_ rfl rfl <;> first | with_reducible assumption | with_reducible apply State.showFree_sound | with_reducible apply State.fillUnit_sound | with_reducible apply sound_foldl | with_reducible apply sound_foldl_fst | exact id | exact fun _ => cellWf_nil _ | exact cellWf_write _ _ | exact cellWf_clear _ _ | exact cellWf_filter _)
    | dsimp only
    | split

theorem State.countDeferred_sound {q : Base} : ∀ {s : State}, Sound q s → Sound q (State.countDeferred s) := by
  intros
  unfold State.countDeferred
  repeat' first
    | with_reducible assumption
    | with_reducible apply State.bump_sound
    | with_reducible apply sound_foldl
    | with_reducible apply sound_foldl_fst
    | intro _
    | with_reducible apply sound_ite
    | with_reducible apply sound_of_fst (by assumption)
    | with_reducible apply sound_of_some (by assumption)
    | with_reducible apply sound_of_snd (by assumption)
    | with_reducible apply sound_on
    | with_reducible apply sound_getD
    | (with_reducible refine sound_mk ?_ rfl rfl rfl rfl rfl rfl rfl; first | with_reducible assumption | with_reducible apply State.bump_sound | with_reducible apply sound_foldl | with_reducible apply sound_foldl_fst)
    | (with_reducible refine sound_mk_wf ?_ rfl ?_ ?_ ?_ ?_ rfl rfl <;> first | with_reducible assumption | with_reducible apply State.bump_sound | with_reducible apply sound_foldl | with_reducible apply sound_foldl_fst | exact id | exact fun _ => cellWf_nil _ | exact cellWf_write _ _ | exact cellWf_clear _ _ | exact cellWf_filter _)
    | dsimp only
    | split

theorem State.retireBlock_sound {q : Base} : ∀ {s : State} a1, Sound q s → Sound q (State.retireBlock s a1) := by
  intros
  unfold State.retireBlock
  repeat' first
    | with_reducible assumption
    | with_reducible apply State.showFree_sound
    | with_reducible apply sound_foldl
    | with_reducible apply sound_foldl_fst
    | intro _
    | with_reducible apply sound_ite
    | with_reducible apply sound_of_fst (by assumption)
    | with_reducible apply sound_of_some (by assumption)
    | with_reducible apply sound_of_snd (by assumption)
    | with_reducible apply sound_on
    | with_reducible apply sound_getD
    | (with_reducible refine sound_mk ?_ rfl rfl rfl rfl rfl rfl rfl; first | with_reducible assumption | with_reducible apply State.showFree_sound | with_reducible apply sound_foldl | with_reducible apply sound_foldl_fst)
    | (with_reducible refine sound_mk_wf ?_ rfl ?_ ?_ ?_ ?_ rfl rfl <;> first | with_reducible assumption | with_reducible apply State.showFree_sound | with_reducible apply sound_foldl | with_reducible apply sound_foldl_fst | exact id | exact fun _ => cellWf_nil _ | exact cellWf_write _ _ | exact cellWf_clear _ _ | exact cellWf_filter _)
    | dsimp only
    | split

theorem State.moveTiles_sound {q : Base} : ∀ {s : State} a1, Sound q s → SomeSound q (State.moveTiles s a1) := by
  intros
  unfold State.moveTiles
  repeat' first
    | with_reducible assumption
    | with_reducible apply State.showFree_sound
    | with_reducible apply State.fillUnit_sound
    | with_reducible apply sound_foldl
    | with_reducible apply sound_foldl_fst
    | intro _
    | with_reducible exact someSound_none
    | with_reducible apply someSound_some
    | with_reducible apply someSound_map
    | with_reducible apply someSound_map_of
    | with_reducible apply someSound_bind
    | with_reducible apply someSound_foldl
    | with_reducible apply sound_of_fst (by assumption)
    | with_reducible apply sound_of_some (by assumption)
    | with_reducible apply sound_of_snd (by assumption)
    | with_reducible apply sound_on
    | with_reducible apply sound_getD
    | (with_reducible refine sound_mk ?_ rfl rfl rfl rfl rfl rfl rfl; first | with_reducible assumption | with_reducible apply State.showFree_sound | with_reducible apply State.fillUnit_sound | with_reducible apply sound_foldl | with_reducible apply sound_foldl_fst)
    | (with_reducible refine sound_mk_wf ?_ rfl ?_ ?_ ?_ ?_ rfl rfl <;> first | with_reducible assumption | with_reducible apply State.showFree_sound | with_reducible apply State.fillUnit_sound | with_reducible apply sound_foldl | with_reducible apply sound_foldl_fst | exact id | exact fun _ => cellWf_nil _ | exact cellWf_write _ _ | exact cellWf_clear _ _ | exact cellWf_filter _)
    | dsimp only
    | split

theorem State.vacated_sound {q : Base} : ∀ {s : State} a1, Sound q s → Sound q (State.vacated s a1) := by
  intros
  unfold State.vacated
  repeat' first
    | with_reducible assumption
    | with_reducible apply sound_foldl
    | with_reducible apply sound_foldl_fst
    | intro _
    | with_reducible apply sound_ite
    | with_reducible apply sound_of_fst (by assumption)
    | with_reducible apply sound_of_some (by assumption)
    | with_reducible apply sound_of_snd (by assumption)
    | with_reducible apply sound_on
    | with_reducible apply sound_getD
    | (with_reducible refine sound_mk ?_ rfl rfl rfl rfl rfl rfl rfl; first | with_reducible assumption | with_reducible apply sound_foldl | with_reducible apply sound_foldl_fst)
    | (with_reducible refine sound_mk_wf ?_ rfl ?_ ?_ ?_ ?_ rfl rfl <;> first | with_reducible assumption | with_reducible apply sound_foldl | with_reducible apply sound_foldl_fst | exact id | exact fun _ => cellWf_nil _ | exact cellWf_write _ _ | exact cellWf_clear _ _ | exact cellWf_filter _)
    | dsimp only
    | split

theorem State.relocate_sound {q : Base} : ∀ {s : State} a1, Sound q s → SomeSound q (State.relocate s a1) := by
  intros
  unfold State.relocate
  repeat' first
    | with_reducible assumption
    | with_reducible apply State.vacated_sound
    | with_reducible apply State.moveTiles_sound
    | with_reducible apply sound_foldl
    | with_reducible apply sound_foldl_fst
    | intro _
    | with_reducible exact someSound_none
    | with_reducible apply someSound_some
    | with_reducible apply someSound_map
    | with_reducible apply someSound_map_of
    | with_reducible apply someSound_bind
    | with_reducible apply someSound_foldl
    | with_reducible apply sound_of_fst (by assumption)
    | with_reducible apply sound_of_some (by assumption)
    | with_reducible apply sound_of_snd (by assumption)
    | with_reducible apply sound_on
    | with_reducible apply sound_getD
    | (with_reducible refine sound_mk ?_ rfl rfl rfl rfl rfl rfl rfl; first | with_reducible assumption | with_reducible apply State.vacated_sound | with_reducible apply State.moveTiles_sound | with_reducible apply sound_foldl | with_reducible apply sound_foldl_fst)
    | (with_reducible refine sound_mk_wf ?_ rfl ?_ ?_ ?_ ?_ rfl rfl <;> first | with_reducible assumption | with_reducible apply State.vacated_sound | with_reducible apply State.moveTiles_sound | with_reducible apply sound_foldl | with_reducible apply sound_foldl_fst | exact id | exact fun _ => cellWf_nil _ | exact cellWf_write _ _ | exact cellWf_clear _ _ | exact cellWf_filter _)
    | dsimp only
    | split

theorem State.noteDecodes_sound {q : Base} : ∀ {s : State} a1 a2, Sound q s → Sound q (State.noteDecodes s a1 a2) := by
  intros
  unfold State.noteDecodes
  repeat' first
    | with_reducible assumption
    | with_reducible apply sound_foldl
    | with_reducible apply sound_foldl_fst
    | intro _
    | with_reducible apply sound_ite
    | with_reducible apply sound_of_fst (by assumption)
    | with_reducible apply sound_of_some (by assumption)
    | with_reducible apply sound_of_snd (by assumption)
    | with_reducible apply sound_on
    | with_reducible apply sound_getD
    | (with_reducible refine sound_mk ?_ rfl rfl rfl rfl rfl rfl rfl; first | with_reducible assumption | with_reducible apply sound_foldl | with_reducible apply sound_foldl_fst)
    | (with_reducible refine sound_mk_wf ?_ rfl ?_ ?_ ?_ ?_ rfl rfl <;> first | with_reducible assumption | with_reducible apply sound_foldl | with_reducible apply sound_foldl_fst | exact id | exact fun _ => cellWf_nil _ | exact cellWf_write _ _ | exact cellWf_clear _ _ | exact cellWf_filter _)
    | dsimp only
    | split

theorem State.levelMove_sound {q : Base} : ∀ {s : State} a1 a2, Sound q s → Sound q (State.levelMove s a1 a2) := by
  intros
  unfold State.levelMove
  repeat' first
    | with_reducible assumption
    | with_reducible apply State.vacated_sound
    | with_reducible apply State.showFree_sound
    | with_reducible apply sound_foldl
    | with_reducible apply sound_foldl_fst
    | intro _
    | with_reducible apply sound_ite
    | with_reducible apply sound_of_fst (by assumption)
    | with_reducible apply sound_of_some (by assumption)
    | with_reducible apply sound_of_snd (by assumption)
    | with_reducible apply sound_on
    | with_reducible apply sound_getD
    | (with_reducible refine sound_mk ?_ rfl rfl rfl rfl rfl rfl rfl; first | with_reducible assumption | with_reducible apply State.vacated_sound | with_reducible apply State.showFree_sound | with_reducible apply sound_foldl | with_reducible apply sound_foldl_fst)
    | (with_reducible refine sound_mk_wf ?_ rfl ?_ ?_ ?_ ?_ rfl rfl <;> first | with_reducible assumption | with_reducible apply State.vacated_sound | with_reducible apply State.showFree_sound | with_reducible apply sound_foldl | with_reducible apply sound_foldl_fst | exact id | exact fun _ => cellWf_nil _ | exact cellWf_write _ _ | exact cellWf_clear _ _ | exact cellWf_filter _)
    | dsimp only
    | split

theorem State.eraseBlock_sound {q : Base} : ∀ {s : State} a1 a2 a3, Sound q s → Sound q (State.eraseBlock s a1 a2 a3) := by
  intros
  unfold State.eraseBlock
  repeat' first
    | with_reducible assumption
    | with_reducible apply State.retireBlock_sound
    | with_reducible apply State.placePrograms_sound
    | with_reducible apply State.showFree_sound
    | with_reducible apply sound_foldl
    | with_reducible apply sound_foldl_fst
    | intro _
    | with_reducible apply sound_ite
    | with_reducible apply sound_of_fst (by assumption)
    | with_reducible apply sound_of_some (by assumption)
    | with_reducible apply sound_of_snd (by assumption)
    | with_reducible apply sound_on
    | with_reducible apply sound_getD
    | (with_reducible refine sound_mk ?_ rfl rfl rfl rfl rfl rfl rfl; first | with_reducible assumption | with_reducible apply State.retireBlock_sound | with_reducible apply State.placePrograms_sound | with_reducible apply State.showFree_sound | with_reducible apply sound_foldl | with_reducible apply sound_foldl_fst)
    | (with_reducible refine sound_mk_wf ?_ rfl ?_ ?_ ?_ ?_ rfl rfl <;> first | with_reducible assumption | with_reducible apply State.retireBlock_sound | with_reducible apply State.placePrograms_sound | with_reducible apply State.showFree_sound | with_reducible apply sound_foldl | with_reducible apply sound_foldl_fst | exact id | exact fun _ => cellWf_nil _ | exact cellWf_write _ _ | exact cellWf_clear _ _ | exact cellWf_filter _)
    | dsimp only
    | split

theorem State.failProgram_sound {q : Base} : ∀ {s : State} a1, Sound q s → Sound q (State.failProgram s a1) := by
  intros
  unfold State.failProgram
  repeat' first
    | with_reducible assumption
    | with_reducible apply State.retireBlock_sound
    | with_reducible apply State.placePrograms_sound
    | with_reducible apply sound_foldl
    | with_reducible apply sound_foldl_fst
    | intro _
    | with_reducible apply sound_ite
    | with_reducible apply sound_of_fst (by assumption)
    | with_reducible apply sound_of_some (by assumption)
    | with_reducible apply sound_of_snd (by assumption)
    | with_reducible apply sound_on
    | with_reducible apply sound_getD
    | (with_reducible refine sound_mk ?_ rfl rfl rfl rfl rfl rfl rfl; first | with_reducible assumption | with_reducible apply State.retireBlock_sound | with_reducible apply State.placePrograms_sound | with_reducible apply sound_foldl | with_reducible apply sound_foldl_fst)
    | (with_reducible refine sound_mk_wf ?_ rfl ?_ ?_ ?_ ?_ rfl rfl <;> first | with_reducible assumption | with_reducible apply State.retireBlock_sound | with_reducible apply State.placePrograms_sound | with_reducible apply sound_foldl | with_reducible apply sound_foldl_fst | exact id | exact fun _ => cellWf_nil _ | exact cellWf_write _ _ | exact cellWf_clear _ _ | exact cellWf_filter _)
    | dsimp only
    | split

theorem State.flashWork_sound {q : Base} : ∀ {s : State} a1, Sound q s → SomeSound q (State.flashWork s a1) := by
  intros
  unfold State.flashWork
  repeat' first
    | with_reducible assumption
    | with_reducible apply State.noteDecodes_sound
    | with_reducible apply State.eraseBlock_sound
    | with_reducible apply State.levelMove_sound
    | with_reducible apply State.relocate_sound
    | with_reducible apply State.failProgram_sound
    | with_reducible apply sound_foldl
    | with_reducible apply sound_foldl_fst
    | intro _
    | with_reducible exact someSound_none
    | with_reducible apply someSound_some
    | with_reducible apply someSound_map
    | with_reducible apply someSound_map_of
    | with_reducible apply someSound_bind
    | with_reducible apply someSound_foldl
    | with_reducible apply sound_of_fst (by assumption)
    | with_reducible apply sound_of_some (by assumption)
    | with_reducible apply sound_of_snd (by assumption)
    | with_reducible apply sound_on
    | with_reducible apply sound_getD
    | (with_reducible refine sound_mk ?_ rfl rfl rfl rfl rfl rfl rfl; first | with_reducible assumption | with_reducible apply State.noteDecodes_sound | with_reducible apply State.eraseBlock_sound | with_reducible apply State.levelMove_sound | with_reducible apply State.relocate_sound | with_reducible apply State.failProgram_sound | with_reducible apply sound_foldl | with_reducible apply sound_foldl_fst)
    | (with_reducible refine sound_mk_wf ?_ rfl ?_ ?_ ?_ ?_ rfl rfl <;> first | with_reducible assumption | with_reducible apply State.noteDecodes_sound | with_reducible apply State.eraseBlock_sound | with_reducible apply State.levelMove_sound | with_reducible apply State.relocate_sound | with_reducible apply State.failProgram_sound | with_reducible apply sound_foldl | with_reducible apply sound_foldl_fst | exact id | exact fun _ => cellWf_nil _ | exact cellWf_write _ _ | exact cellWf_clear _ _ | exact cellWf_filter _)
    | dsimp only
    | split

theorem State.deferWork_sound {q : Base} : ∀ {s : State} a1, Sound q s → Sound q (State.deferWork s a1) := by
  intros
  unfold State.deferWork
  repeat' first
    | with_reducible assumption
    | with_reducible apply sound_foldl
    | with_reducible apply sound_foldl_fst
    | intro _
    | with_reducible apply sound_ite
    | with_reducible apply sound_of_fst (by assumption)
    | with_reducible apply sound_of_some (by assumption)
    | with_reducible apply sound_of_snd (by assumption)
    | with_reducible apply sound_on
    | with_reducible apply sound_getD
    | (with_reducible refine sound_mk ?_ rfl rfl rfl rfl rfl rfl rfl; first | with_reducible assumption | with_reducible apply sound_foldl | with_reducible apply sound_foldl_fst)
    | (with_reducible refine sound_mk_wf ?_ rfl ?_ ?_ ?_ ?_ rfl rfl <;> first | with_reducible assumption | with_reducible apply sound_foldl | with_reducible apply sound_foldl_fst | exact id | exact fun _ => cellWf_nil _ | exact cellWf_write _ _ | exact cellWf_clear _ _ | exact cellWf_filter _)
    | dsimp only
    | split

theorem State.maintain_sound {q : Base} : ∀ {s : State} a1, Sound q s → Sound q (State.maintain s a1) := by
  intros
  unfold State.maintain
  repeat' first
    | with_reducible assumption
    | with_reducible apply State.flashWork_sound
    | with_reducible apply State.countDeferred_sound
    | with_reducible apply State.deferWork_sound
    | with_reducible apply sound_foldl
    | with_reducible apply sound_foldl_fst
    | intro _
    | with_reducible apply sound_ite
    | with_reducible apply sound_of_fst (by assumption)
    | with_reducible apply sound_of_some (by assumption)
    | with_reducible apply sound_of_snd (by assumption)
    | with_reducible apply sound_on
    | with_reducible apply sound_getD
    | (with_reducible refine sound_mk ?_ rfl rfl rfl rfl rfl rfl rfl; first | with_reducible assumption | with_reducible apply State.flashWork_sound | with_reducible apply State.countDeferred_sound | with_reducible apply State.deferWork_sound | with_reducible apply sound_foldl | with_reducible apply sound_foldl_fst)
    | (with_reducible refine sound_mk_wf ?_ rfl ?_ ?_ ?_ ?_ rfl rfl <;> first | with_reducible assumption | with_reducible apply State.flashWork_sound | with_reducible apply State.countDeferred_sound | with_reducible apply State.deferWork_sound | with_reducible apply sound_foldl | with_reducible apply sound_foldl_fst | exact id | exact fun _ => cellWf_nil _ | exact cellWf_write _ _ | exact cellWf_clear _ _ | exact cellWf_filter _)
    | dsimp only
    | split

theorem State.wantBlock_sound {q : Base} : ∀ {s : State} a1 a2, Sound q s → Sound q (State.wantBlock s a1 a2) := by
  intros
  unfold State.wantBlock
  repeat' first
    | with_reducible assumption
    | with_reducible apply State.maintain_sound
    | with_reducible apply sound_foldl
    | with_reducible apply sound_foldl_fst
    | intro _
    | with_reducible apply sound_ite
    | with_reducible apply sound_of_fst (by assumption)
    | with_reducible apply sound_of_some (by assumption)
    | with_reducible apply sound_of_snd (by assumption)
    | with_reducible apply sound_on
    | with_reducible apply sound_getD
    | (with_reducible refine sound_mk ?_ rfl rfl rfl rfl rfl rfl rfl; first | with_reducible assumption | with_reducible apply State.maintain_sound | with_reducible apply sound_foldl | with_reducible apply sound_foldl_fst)
    | (with_reducible refine sound_mk_wf ?_ rfl ?_ ?_ ?_ ?_ rfl rfl <;> first | with_reducible assumption | with_reducible apply State.maintain_sound | with_reducible apply sound_foldl | with_reducible apply sound_foldl_fst | exact id | exact fun _ => cellWf_nil _ | exact cellWf_write _ _ | exact cellWf_clear _ _ | exact cellWf_filter _)
    | dsimp only
    | split

theorem State.afterWork_sound {q : Base} : ∀ {s : State} a1, Sound q s → Sound q (State.afterWork s a1) := by
  intros
  unfold State.afterWork
  repeat' first
    | with_reducible assumption
    | with_reducible apply State.maintain_sound
    | with_reducible apply sound_foldl
    | with_reducible apply sound_foldl_fst
    | intro _
    | with_reducible apply sound_ite
    | with_reducible apply sound_of_fst (by assumption)
    | with_reducible apply sound_of_some (by assumption)
    | with_reducible apply sound_of_snd (by assumption)
    | with_reducible apply sound_on
    | with_reducible apply sound_getD
    | (with_reducible refine sound_mk ?_ rfl rfl rfl rfl rfl rfl rfl; first | with_reducible assumption | with_reducible apply State.maintain_sound | with_reducible apply sound_foldl | with_reducible apply sound_foldl_fst)
    | (with_reducible refine sound_mk_wf ?_ rfl ?_ ?_ ?_ ?_ rfl rfl <;> first | with_reducible assumption | with_reducible apply State.maintain_sound | with_reducible apply sound_foldl | with_reducible apply sound_foldl_fst | exact id | exact fun _ => cellWf_nil _ | exact cellWf_write _ _ | exact cellWf_clear _ _ | exact cellWf_filter _)
    | dsimp only
    | split

theorem execFlashMaintenance_sound {q : Base} : ∀ a0 {s : State}, Sound q s → OutSound q (execFlashMaintenance a0 s) := by
  intros
  unfold execFlashMaintenance
  repeat' first
    | with_reducible assumption
    | with_reducible apply outSound_next
    | with_reducible apply State.afterWork_sound
    | with_reducible apply State.maintain_sound
    | with_reducible apply sound_foldl
    | with_reducible apply sound_foldl_fst
    | intro _
    | with_reducible apply sound_of_fst (by assumption)
    | with_reducible apply sound_of_some (by assumption)
    | with_reducible apply sound_of_snd (by assumption)
    | with_reducible apply sound_on
    | with_reducible apply sound_getD
    | (with_reducible refine sound_mk ?_ rfl rfl rfl rfl rfl rfl rfl; first | with_reducible assumption | with_reducible apply State.afterWork_sound | with_reducible apply State.maintain_sound | with_reducible apply sound_foldl | with_reducible apply sound_foldl_fst)
    | (with_reducible refine sound_mk_wf ?_ rfl ?_ ?_ ?_ ?_ rfl rfl <;> first | with_reducible assumption | with_reducible apply State.afterWork_sound | with_reducible apply State.maintain_sound | with_reducible apply sound_foldl | with_reducible apply sound_foldl_fst | exact id | exact fun _ => cellWf_nil _ | exact cellWf_write _ _ | exact cellWf_clear _ _ | exact cellWf_filter _)
    | dsimp only
    | split

theorem State.retryBatches_sound {q : Base} : ∀ {s : State}, Sound q s → Sound q (State.retryBatches s) := by
  intros
  unfold State.retryBatches
  repeat' first
    | with_reducible assumption
    | with_reducible apply State.maintain_sound
    | with_reducible apply sound_foldl
    | with_reducible apply sound_foldl_fst
    | intro _
    | with_reducible apply sound_ite
    | with_reducible apply sound_of_fst (by assumption)
    | with_reducible apply sound_of_some (by assumption)
    | with_reducible apply sound_of_snd (by assumption)
    | with_reducible apply sound_on
    | with_reducible apply sound_getD
    | (with_reducible refine sound_mk ?_ rfl rfl rfl rfl rfl rfl rfl; first | with_reducible assumption | with_reducible apply State.maintain_sound | with_reducible apply sound_foldl | with_reducible apply sound_foldl_fst)
    | (with_reducible refine sound_mk_wf ?_ rfl ?_ ?_ ?_ ?_ rfl rfl <;> first | with_reducible assumption | with_reducible apply State.maintain_sound | with_reducible apply sound_foldl | with_reducible apply sound_foldl_fst | exact id | exact fun _ => cellWf_nil _ | exact cellWf_write _ _ | exact cellWf_clear _ _ | exact cellWf_filter _)
    | dsimp only
    | split

theorem State.flashCount_sound {q : Base} : ∀ {s : State} a1, Sound q s → Sound q (State.flashCount s a1) := by
  intros
  unfold State.flashCount
  repeat' first
    | with_reducible assumption
    | with_reducible apply State.wantBlock_sound
    | with_reducible apply sound_foldl
    | with_reducible apply sound_foldl_fst
    | intro _
    | with_reducible apply sound_ite
    | with_reducible apply sound_of_fst (by assumption)
    | with_reducible apply sound_of_some (by assumption)
    | with_reducible apply sound_of_snd (by assumption)
    | with_reducible apply sound_on
    | with_reducible apply sound_getD
    | (with_reducible refine sound_mk ?_ rfl rfl rfl rfl rfl rfl rfl; first | with_reducible assumption | with_reducible apply State.wantBlock_sound | with_reducible apply sound_foldl | with_reducible apply sound_foldl_fst)
    | (with_reducible refine sound_mk_wf ?_ rfl ?_ ?_ ?_ ?_ rfl rfl <;> first | with_reducible assumption | with_reducible apply State.wantBlock_sound | with_reducible apply sound_foldl | with_reducible apply sound_foldl_fst | exact id | exact fun _ => cellWf_nil _ | exact cellWf_write _ _ | exact cellWf_clear _ _ | exact cellWf_filter _)
    | dsimp only
    | split

theorem flashLoad_keeps {q : Base} : ∀ a0, Keeps q (flashLoad a0) := by
  intros
  unfold flashLoad
  repeat' first
    | with_reducible assumption
    | with_reducible exact keeps_pure
    | with_reducible exact keeps_throw
    | with_reducible exact keeps_read
    | with_reducible apply keeps_get_bind
    | with_reducible exact keeps_get
    | with_reducible apply keeps_bind
    | with_reducible apply keeps_set
    | with_reducible apply keeps_modify
    | with_reducible apply keeps_forM
    | with_reducible apply keeps_mapM
    | with_reducible apply keeps_foldlM
    | with_reducible apply keeps_forIn
    | with_reducible apply keeps_tryCatch
    | with_reducible apply keeps_map
    | with_reducible apply keeps_seq
    | with_reducible apply require_keeps
    | with_reducible apply State.flashCount_sound
    | with_reducible apply sound_foldl
    | with_reducible apply sound_foldl_fst
    | intro _
    | with_reducible apply keeps_ite
    | with_reducible apply sound_of_fst (by assumption)
    | with_reducible apply sound_of_some (by assumption)
    | with_reducible apply sound_of_snd (by assumption)
    | with_reducible apply sound_on
    | with_reducible apply sound_getD
    | (with_reducible refine sound_mk ?_ rfl rfl rfl rfl rfl rfl rfl; first | with_reducible assumption | with_reducible apply require_keeps | with_reducible apply State.flashCount_sound | with_reducible apply sound_foldl | with_reducible apply sound_foldl_fst)
    | (with_reducible refine sound_mk_wf ?_ rfl ?_ ?_ ?_ ?_ rfl rfl <;> first | with_reducible assumption | with_reducible apply require_keeps | with_reducible apply State.flashCount_sound | with_reducible apply sound_foldl | with_reducible apply sound_foldl_fst | exact id | exact fun _ => cellWf_nil _ | exact cellWf_write _ _ | exact cellWf_clear _ _ | exact cellWf_filter _)
    | dsimp only
    | split

theorem State.enterPrograms_sound {q : Base} : ∀ {s : State} a1 a2 a3 a4, Sound q s → Sound q (State.enterPrograms s a1 a2 a3 a4) := by
  intros
  unfold State.enterPrograms
  repeat' first
    | with_reducible assumption
    | with_reducible apply sound_foldl
    | with_reducible apply sound_foldl_fst
    | intro _
    | with_reducible apply sound_ite
    | with_reducible apply sound_of_fst (by assumption)
    | with_reducible apply sound_of_some (by assumption)
    | with_reducible apply sound_of_snd (by assumption)
    | with_reducible apply sound_on
    | with_reducible apply sound_getD
    | (with_reducible refine sound_mk ?_ rfl rfl rfl rfl rfl rfl rfl; first | with_reducible assumption | with_reducible apply sound_foldl | with_reducible apply sound_foldl_fst)
    | (with_reducible refine sound_mk_wf ?_ rfl ?_ ?_ ?_ ?_ rfl rfl <;> first | with_reducible assumption | with_reducible apply sound_foldl | with_reducible apply sound_foldl_fst | exact id | exact fun _ => cellWf_nil _ | exact cellWf_write _ _ | exact cellWf_clear _ _ | exact cellWf_filter _)
    | dsimp only
    | split

theorem State.passPrograms_sound {q : Base} : ∀ {s : State} a1, Sound q s → Sound q (State.passPrograms s a1) := by
  intros
  unfold State.passPrograms
  repeat' first
    | with_reducible assumption
    | with_reducible apply State.placePrograms_sound
    | with_reducible apply sound_foldl
    | with_reducible apply sound_foldl_fst
    | intro _
    | with_reducible apply sound_ite
    | with_reducible apply sound_of_fst (by assumption)
    | with_reducible apply sound_of_some (by assumption)
    | with_reducible apply sound_of_snd (by assumption)
    | with_reducible apply sound_on
    | with_reducible apply sound_getD
    | (with_reducible refine sound_mk ?_ rfl rfl rfl rfl rfl rfl rfl; first | with_reducible assumption | with_reducible apply State.placePrograms_sound | with_reducible apply sound_foldl | with_reducible apply sound_foldl_fst)
    | (with_reducible refine sound_mk_wf ?_ rfl ?_ ?_ ?_ ?_ rfl rfl <;> first | with_reducible assumption | with_reducible apply State.placePrograms_sound | with_reducible apply sound_foldl | with_reducible apply sound_foldl_fst | exact id | exact fun _ => cellWf_nil _ | exact cellWf_write _ _ | exact cellWf_clear _ _ | exact cellWf_filter _)
    | dsimp only
    | split

theorem State.giveData_sound {q : Base} : ∀ {s : State} a1 a2 a3, Sound q s → Sound q (State.giveData s a1 a2 a3) := by
  intros
  unfold State.giveData
  repeat' first
    | with_reducible assumption
    | with_reducible apply sound_foldl
    | with_reducible apply sound_foldl_fst
    | intro _
    | with_reducible apply sound_ite
    | with_reducible apply sound_of_fst (by assumption)
    | with_reducible apply sound_of_some (by assumption)
    | with_reducible apply sound_of_snd (by assumption)
    | with_reducible apply sound_on
    | with_reducible apply sound_getD
    | (with_reducible refine sound_mk ?_ rfl rfl rfl rfl rfl rfl rfl; first | with_reducible assumption | with_reducible apply sound_foldl | with_reducible apply sound_foldl_fst)
    | (with_reducible refine sound_mk_wf ?_ rfl ?_ ?_ ?_ ?_ rfl rfl <;> first | with_reducible assumption | with_reducible apply sound_foldl | with_reducible apply sound_foldl_fst | exact id | exact fun _ => cellWf_nil _ | exact cellWf_write _ _ | exact cellWf_clear _ _ | exact cellWf_filter _)
    | dsimp only
    | split

theorem State.commitProgram_sound {q : Base} : ∀ {s : State} a1, Sound q s → Sound q (State.commitProgram s a1) := by
  intros
  unfold State.commitProgram
  repeat' first
    | with_reducible assumption
    | with_reducible apply State.bump_sound
    | with_reducible apply sound_foldl
    | with_reducible apply sound_foldl_fst
    | intro _
    | with_reducible apply sound_ite
    | with_reducible apply sound_of_fst (by assumption)
    | with_reducible apply sound_of_some (by assumption)
    | with_reducible apply sound_of_snd (by assumption)
    | with_reducible apply sound_on
    | with_reducible apply sound_getD
    | (with_reducible refine sound_mk ?_ rfl rfl rfl rfl rfl rfl rfl; first | with_reducible assumption | with_reducible apply State.bump_sound | with_reducible apply sound_foldl | with_reducible apply sound_foldl_fst)
    | (with_reducible refine sound_mk_wf ?_ rfl ?_ ?_ ?_ ?_ rfl rfl <;> first | with_reducible assumption | with_reducible apply State.bump_sound | with_reducible apply sound_foldl | with_reducible apply sound_foldl_fst | exact id | exact fun _ => cellWf_nil _ | exact cellWf_write _ _ | exact cellWf_clear _ _ | exact cellWf_filter _)
    | dsimp only
    | split

theorem State.unmapTile_sound {q : Base} : ∀ {s : State} a1, Sound q s → Sound q (State.unmapTile s a1) := by
  intros
  unfold State.unmapTile
  repeat' first
    | with_reducible assumption
    | with_reducible apply State.setFld_sound
    | with_reducible apply sound_foldl
    | with_reducible apply sound_foldl_fst
    | intro _
    | with_reducible apply sound_ite
    | with_reducible apply sound_of_fst (by assumption)
    | with_reducible apply sound_of_some (by assumption)
    | with_reducible apply sound_of_snd (by assumption)
    | with_reducible apply sound_on
    | with_reducible apply sound_getD
    | (with_reducible refine sound_mk ?_ rfl rfl rfl rfl rfl rfl rfl; first | with_reducible assumption | with_reducible apply State.setFld_sound | with_reducible apply sound_foldl | with_reducible apply sound_foldl_fst)
    | (with_reducible refine sound_mk_wf ?_ rfl ?_ ?_ ?_ ?_ rfl rfl <;> first | with_reducible assumption | with_reducible apply State.setFld_sound | with_reducible apply sound_foldl | with_reducible apply sound_foldl_fst | exact id | exact fun _ => cellWf_nil _ | exact cellWf_write _ _ | exact cellWf_clear _ _ | exact cellWf_filter _)
    | dsimp only
    | split

theorem State.ackInbound_sound {q : Base} : ∀ {s : State} a1, Sound q s → Sound q (State.ackInbound s a1) := by
  intros
  unfold State.ackInbound
  repeat' first
    | with_reducible assumption
    | with_reducible apply State.respond_sound
    | with_reducible apply sound_foldl
    | with_reducible apply sound_foldl_fst
    | intro _
    | with_reducible apply sound_ite
    | with_reducible apply sound_of_fst (by assumption)
    | with_reducible apply sound_of_some (by assumption)
    | with_reducible apply sound_of_snd (by assumption)
    | with_reducible apply sound_on
    | with_reducible apply sound_getD
    | (with_reducible refine sound_mk ?_ rfl rfl rfl rfl rfl rfl rfl; first | with_reducible assumption | with_reducible apply State.respond_sound | with_reducible apply sound_foldl | with_reducible apply sound_foldl_fst)
    | (with_reducible refine sound_mk_wf ?_ rfl ?_ ?_ ?_ ?_ rfl rfl <;> first | with_reducible assumption | with_reducible apply State.respond_sound | with_reducible apply sound_foldl | with_reducible apply sound_foldl_fst | exact id | exact fun _ => cellWf_nil _ | exact cellWf_write _ _ | exact cellWf_clear _ _ | exact cellWf_filter _)
    | dsimp only
    | split

theorem State.mapCommit_sound {q : Base} : ∀ {s : State} a1 a2, Sound q s → Sound q (State.mapCommit s a1 a2) := by
  intros
  unfold State.mapCommit
  repeat' first
    | with_reducible assumption
    | with_reducible apply State.unmapTile_sound
    | with_reducible apply State.ackInbound_sound
    | with_reducible apply State.commitProgram_sound
    | with_reducible apply State.closeItem_sound
    | with_reducible apply State.noteCycles_sound
    | with_reducible apply sound_foldl
    | with_reducible apply sound_foldl_fst
    | intro _
    | with_reducible apply sound_ite
    | with_reducible apply sound_of_fst (by assumption)
    | with_reducible apply sound_of_some (by assumption)
    | with_reducible apply sound_of_snd (by assumption)
    | with_reducible apply sound_on
    | with_reducible apply sound_getD
    | (with_reducible refine sound_mk ?_ rfl rfl rfl rfl rfl rfl rfl; first | with_reducible assumption | with_reducible apply State.unmapTile_sound | with_reducible apply State.ackInbound_sound | with_reducible apply State.commitProgram_sound | with_reducible apply State.closeItem_sound | with_reducible apply State.noteCycles_sound | with_reducible apply sound_foldl | with_reducible apply sound_foldl_fst)
    | (with_reducible refine sound_mk_wf ?_ rfl ?_ ?_ ?_ ?_ rfl rfl <;> first | with_reducible assumption | with_reducible apply State.unmapTile_sound | with_reducible apply State.ackInbound_sound | with_reducible apply State.commitProgram_sound | with_reducible apply State.closeItem_sound | with_reducible apply State.noteCycles_sound | with_reducible apply sound_foldl | with_reducible apply sound_foldl_fst | exact id | exact fun _ => cellWf_nil _ | exact cellWf_write _ _ | exact cellWf_clear _ _ | exact cellWf_filter _)
    | dsimp only
    | split

theorem execFlashMapCommit_sound {q : Base} : ∀ a0 a1 {s : State}, Sound q s → OutSound q (execFlashMapCommit a0 a1 s) := by
  intros
  unfold execFlashMapCommit
  repeat' first
    | with_reducible assumption
    | with_reducible apply outSound_next
    | with_reducible apply State.mapCommit_sound
    | with_reducible apply sound_foldl
    | with_reducible apply sound_foldl_fst
    | intro _
    | with_reducible apply sound_of_fst (by assumption)
    | with_reducible apply sound_of_some (by assumption)
    | with_reducible apply sound_of_snd (by assumption)
    | with_reducible apply sound_on
    | with_reducible apply sound_getD
    | (with_reducible refine sound_mk ?_ rfl rfl rfl rfl rfl rfl rfl; first | with_reducible assumption | with_reducible apply State.mapCommit_sound | with_reducible apply sound_foldl | with_reducible apply sound_foldl_fst)
    | (with_reducible refine sound_mk_wf ?_ rfl ?_ ?_ ?_ ?_ rfl rfl <;> first | with_reducible assumption | with_reducible apply State.mapCommit_sound | with_reducible apply sound_foldl | with_reducible apply sound_foldl_fst | exact id | exact fun _ => cellWf_nil _ | exact cellWf_write _ _ | exact cellWf_clear _ _ | exact cellWf_filter _)
    | dsimp only
    | split

theorem itemStage_keeps {q : Base} : Keeps q itemStage := by
  intros
  unfold itemStage
  repeat' first
    | with_reducible assumption
    | with_reducible exact keeps_pure
    | with_reducible exact keeps_throw
    | with_reducible exact keeps_read
    | with_reducible apply keeps_get_bind
    | with_reducible exact keeps_get
    | with_reducible apply keeps_bind
    | with_reducible apply keeps_set
    | with_reducible apply keeps_modify
    | with_reducible apply keeps_forM
    | with_reducible apply keeps_mapM
    | with_reducible apply keeps_foldlM
    | with_reducible apply keeps_forIn
    | with_reducible apply keeps_tryCatch
    | with_reducible apply keeps_map
    | with_reducible apply keeps_seq
    | with_reducible apply theItem_keeps
    | with_reducible apply sound_foldl
    | with_reducible apply sound_foldl_fst
    | intro _
    | with_reducible apply keeps_ite
    | with_reducible apply sound_of_fst (by assumption)
    | with_reducible apply sound_of_some (by assumption)
    | with_reducible apply sound_of_snd (by assumption)
    | with_reducible apply sound_on
    | with_reducible apply sound_getD
    | (with_reducible refine sound_mk ?_ rfl rfl rfl rfl rfl rfl rfl; first | with_reducible assumption | with_reducible apply theItem_keeps | with_reducible apply sound_foldl | with_reducible apply sound_foldl_fst)
    | (with_reducible refine sound_mk_wf ?_ rfl ?_ ?_ ?_ ?_ rfl rfl <;> first | with_reducible assumption | with_reducible apply theItem_keeps | with_reducible apply sound_foldl | with_reducible apply sound_foldl_fst | exact id | exact fun _ => cellWf_nil _ | exact cellWf_write _ _ | exact cellWf_clear _ _ | exact cellWf_filter _)
    | dsimp only
    | split

theorem State.deferBatch_sound {q : Base} : ∀ {s : State} a1 a2, Sound q s → Sound q (State.deferBatch s a1 a2) := by
  intros
  unfold State.deferBatch
  repeat' first
    | with_reducible assumption
    | with_reducible apply State.endEarly_sound
    | with_reducible apply State.countDeferred_sound
    | with_reducible apply sound_foldl
    | with_reducible apply sound_foldl_fst
    | intro _
    | with_reducible apply sound_ite
    | with_reducible apply sound_of_fst (by assumption)
    | with_reducible apply sound_of_some (by assumption)
    | with_reducible apply sound_of_snd (by assumption)
    | with_reducible apply sound_on
    | with_reducible apply sound_getD
    | (with_reducible refine sound_mk ?_ rfl rfl rfl rfl rfl rfl rfl; first | with_reducible assumption | with_reducible apply State.endEarly_sound | with_reducible apply State.countDeferred_sound | with_reducible apply sound_foldl | with_reducible apply sound_foldl_fst)
    | (with_reducible refine sound_mk_wf ?_ rfl ?_ ?_ ?_ ?_ rfl rfl <;> first | with_reducible assumption | with_reducible apply State.endEarly_sound | with_reducible apply State.countDeferred_sound | with_reducible apply sound_foldl | with_reducible apply sound_foldl_fst | exact id | exact fun _ => cellWf_nil _ | exact cellWf_write _ _ | exact cellWf_clear _ _ | exact cellWf_filter _)
    | dsimp only
    | split

theorem State.judgeBatch_sound {q : Base} : ∀ {s : State} a1 a2, Sound q s → Sound q (State.judgeBatch s a1 a2) := by
  intros
  unfold State.judgeBatch
  repeat' first
    | with_reducible assumption
    | with_reducible apply State.onItem_sound
    | with_reducible apply State.deferBatch_sound
    | with_reducible apply State.passPrograms_sound
    | with_reducible apply sound_foldl
    | with_reducible apply sound_foldl_fst
    | intro _
    | with_reducible apply sound_ite
    | with_reducible apply sound_of_fst (by assumption)
    | with_reducible apply sound_of_some (by assumption)
    | with_reducible apply sound_of_snd (by assumption)
    | with_reducible apply sound_on
    | with_reducible apply sound_getD
    | (with_reducible refine sound_mk ?_ rfl rfl rfl rfl rfl rfl rfl; first | with_reducible assumption | with_reducible apply State.onItem_sound | with_reducible apply State.deferBatch_sound | with_reducible apply State.passPrograms_sound | with_reducible apply sound_foldl | with_reducible apply sound_foldl_fst)
    | (with_reducible refine sound_mk_wf ?_ rfl ?_ ?_ ?_ ?_ rfl rfl <;> first | with_reducible assumption | with_reducible apply State.onItem_sound | with_reducible apply State.deferBatch_sound | with_reducible apply State.passPrograms_sound | with_reducible apply sound_foldl | with_reducible apply sound_foldl_fst | exact id | exact fun _ => cellWf_nil _ | exact cellWf_write _ _ | exact cellWf_clear _ _ | exact cellWf_filter _)
    | dsimp only
    | split

theorem joinBatch_keeps {q : Base} : ∀ a0, Keeps q (joinBatch a0) := by
  intros
  unfold joinBatch
  repeat' first
    | with_reducible assumption
    | with_reducible exact keeps_pure
    | with_reducible exact keeps_throw
    | with_reducible exact keeps_read
    | with_reducible apply keeps_get_bind
    | with_reducible exact keeps_get
    | with_reducible apply keeps_bind
    | with_reducible apply keeps_set
    | with_reducible apply keeps_modify
    | with_reducible apply keeps_forM
    | with_reducible apply keeps_mapM
    | with_reducible apply keeps_foldlM
    | with_reducible apply keeps_forIn
    | with_reducible apply keeps_tryCatch
    | with_reducible apply keeps_map
    | with_reducible apply keeps_seq
    | with_reducible apply itemStage_keeps
    | with_reducible apply State.enterPrograms_sound
    | with_reducible apply modifyItem_keeps
    | with_reducible apply State.judgeBatch_sound
    | with_reducible apply sound_foldl
    | with_reducible apply sound_foldl_fst
    | intro _
    | with_reducible apply keeps_ite
    | with_reducible apply sound_of_fst (by assumption)
    | with_reducible apply sound_of_some (by assumption)
    | with_reducible apply sound_of_snd (by assumption)
    | with_reducible apply sound_on
    | with_reducible apply sound_getD
    | (with_reducible refine sound_mk ?_ rfl rfl rfl rfl rfl rfl rfl; first | with_reducible assumption | with_reducible apply itemStage_keeps | with_reducible apply State.enterPrograms_sound | with_reducible apply modifyItem_keeps | with_reducible apply State.judgeBatch_sound | with_reducible apply sound_foldl | with_reducible apply sound_foldl_fst)
    | (with_reducible refine sound_mk_wf ?_ rfl ?_ ?_ ?_ ?_ rfl rfl <;> first | with_reducible assumption | with_reducible apply itemStage_keeps | with_reducible apply State.enterPrograms_sound | with_reducible apply modifyItem_keeps | with_reducible apply State.judgeBatch_sound | with_reducible apply sound_foldl | with_reducible apply sound_foldl_fst | exact id | exact fun _ => cellWf_nil _ | exact cellWf_write _ _ | exact cellWf_clear _ _ | exact cellWf_filter _)
    | dsimp only
    | split

theorem flTrimWork_keeps {q : Base} : Keeps q flTrimWork := by
  intros
  unfold flTrimWork
  repeat' first
    | with_reducible assumption
    | with_reducible exact keeps_pure
    | with_reducible exact keeps_throw
    | with_reducible exact keeps_read
    | with_reducible apply keeps_get_bind
    | with_reducible exact keeps_get
    | with_reducible apply keeps_bind
    | with_reducible apply keeps_set
    | with_reducible apply keeps_modify
    | with_reducible apply keeps_forM
    | with_reducible apply keeps_mapM
    | with_reducible apply keeps_foldlM
    | with_reducible apply keeps_forIn
    | with_reducible apply keeps_tryCatch
    | with_reducible apply keeps_map
    | with_reducible apply keeps_seq
    | with_reducible apply loadNat_keeps
    | with_reducible apply stopWith_keeps
    | with_reducible apply itemStage_keeps
    | with_reducible apply require_keeps
    | with_reducible apply joinBatch_keeps
    | with_reducible apply payTail_keeps
    | with_reducible apply modifyItem_keeps
    | with_reducible apply once_keeps
    | with_reducible apply pay_keeps
    | with_reducible apply sound_foldl
    | with_reducible apply sound_foldl_fst
    | intro _
    | with_reducible apply keeps_ite
    | with_reducible apply sound_of_fst (by assumption)
    | with_reducible apply sound_of_some (by assumption)
    | with_reducible apply sound_of_snd (by assumption)
    | with_reducible apply sound_on
    | with_reducible apply sound_getD
    | (with_reducible refine sound_mk ?_ rfl rfl rfl rfl rfl rfl rfl; first | with_reducible assumption | with_reducible apply loadNat_keeps | with_reducible apply stopWith_keeps | with_reducible apply itemStage_keeps | with_reducible apply require_keeps | with_reducible apply joinBatch_keeps | with_reducible apply payTail_keeps | with_reducible apply modifyItem_keeps | with_reducible apply once_keeps | with_reducible apply pay_keeps | with_reducible apply sound_foldl | with_reducible apply sound_foldl_fst)
    | (with_reducible refine sound_mk_wf ?_ rfl ?_ ?_ ?_ ?_ rfl rfl <;> first | with_reducible assumption | with_reducible apply loadNat_keeps | with_reducible apply stopWith_keeps | with_reducible apply itemStage_keeps | with_reducible apply require_keeps | with_reducible apply joinBatch_keeps | with_reducible apply payTail_keeps | with_reducible apply modifyItem_keeps | with_reducible apply once_keeps | with_reducible apply pay_keeps | with_reducible apply sound_foldl | with_reducible apply sound_foldl_fst | exact id | exact fun _ => cellWf_nil _ | exact cellWf_write _ _ | exact cellWf_clear _ _ | exact cellWf_filter _)
    | dsimp only
    | split

theorem execFlTrim_sound {q : Base} : ∀ a0 a1 {s : State}, Sound q s → OutSound q (execFlTrim a0 a1 s) := by
  intros
  unfold execFlTrim
  repeat' first
    | with_reducible assumption
    | with_reducible apply outSound_next
    | with_reducible apply State.runItem_sound
    | with_reducible apply flTrimWork_keeps
    | with_reducible apply sound_foldl
    | with_reducible apply sound_foldl_fst
    | intro _
    | with_reducible apply sound_of_fst (by assumption)
    | with_reducible apply sound_of_some (by assumption)
    | with_reducible apply sound_of_snd (by assumption)
    | with_reducible apply sound_on
    | with_reducible apply sound_getD
    | (with_reducible refine sound_mk ?_ rfl rfl rfl rfl rfl rfl rfl; first | with_reducible assumption | with_reducible apply State.runItem_sound | with_reducible apply flTrimWork_keeps | with_reducible apply sound_foldl | with_reducible apply sound_foldl_fst)
    | (with_reducible refine sound_mk_wf ?_ rfl ?_ ?_ ?_ ?_ rfl rfl <;> first | with_reducible assumption | with_reducible apply State.runItem_sound | with_reducible apply flTrimWork_keeps | with_reducible apply sound_foldl | with_reducible apply sound_foldl_fst | exact id | exact fun _ => cellWf_nil _ | exact cellWf_write _ _ | exact cellWf_clear _ _ | exact cellWf_filter _)
    | dsimp only
    | split

theorem flHealthWork_keeps {q : Base} : Keeps q flHealthWork := by
  intros
  unfold flHealthWork
  repeat' first
    | with_reducible assumption
    | with_reducible exact keeps_pure
    | with_reducible exact keeps_throw
    | with_reducible exact keeps_read
    | with_reducible apply keeps_get_bind
    | with_reducible exact keeps_get
    | with_reducible apply keeps_bind
    | with_reducible apply keeps_set
    | with_reducible apply keeps_modify
    | with_reducible apply keeps_forM
    | with_reducible apply keeps_mapM
    | with_reducible apply keeps_foldlM
    | with_reducible apply keeps_forIn
    | with_reducible apply keeps_tryCatch
    | with_reducible apply keeps_map
    | with_reducible apply keeps_seq
    | with_reducible apply require_keeps
    | with_reducible apply payTail_keeps
    | with_reducible apply store_keeps
    | with_reducible apply pay_keeps
    | with_reducible apply sound_foldl
    | with_reducible apply sound_foldl_fst
    | intro _
    | with_reducible apply keeps_ite
    | with_reducible apply sound_of_fst (by assumption)
    | with_reducible apply sound_of_some (by assumption)
    | with_reducible apply sound_of_snd (by assumption)
    | with_reducible apply sound_on
    | with_reducible apply sound_getD
    | (with_reducible refine sound_mk ?_ rfl rfl rfl rfl rfl rfl rfl; first | with_reducible assumption | with_reducible apply require_keeps | with_reducible apply payTail_keeps | with_reducible apply store_keeps | with_reducible apply pay_keeps | with_reducible apply sound_foldl | with_reducible apply sound_foldl_fst)
    | (with_reducible refine sound_mk_wf ?_ rfl ?_ ?_ ?_ ?_ rfl rfl <;> first | with_reducible assumption | with_reducible apply require_keeps | with_reducible apply payTail_keeps | with_reducible apply store_keeps | with_reducible apply pay_keeps | with_reducible apply sound_foldl | with_reducible apply sound_foldl_fst | exact id | exact fun _ => cellWf_nil _ | exact cellWf_write _ _ | exact cellWf_clear _ _ | exact cellWf_filter _)
    | dsimp only
    | split

theorem execFlHealth_sound {q : Base} : ∀ a0 a1 {s : State}, Sound q s → OutSound q (execFlHealth a0 a1 s) := by
  intros
  unfold execFlHealth
  repeat' first
    | with_reducible assumption
    | with_reducible apply outSound_next
    | with_reducible apply State.runItem_sound
    | with_reducible apply flHealthWork_keeps
    | with_reducible apply sound_foldl
    | with_reducible apply sound_foldl_fst
    | intro _
    | with_reducible apply sound_of_fst (by assumption)
    | with_reducible apply sound_of_some (by assumption)
    | with_reducible apply sound_of_snd (by assumption)
    | with_reducible apply sound_on
    | with_reducible apply sound_getD
    | (with_reducible refine sound_mk ?_ rfl rfl rfl rfl rfl rfl rfl; first | with_reducible assumption | with_reducible apply State.runItem_sound | with_reducible apply flHealthWork_keeps | with_reducible apply sound_foldl | with_reducible apply sound_foldl_fst)
    | (with_reducible refine sound_mk_wf ?_ rfl ?_ ?_ ?_ ?_ rfl rfl <;> first | with_reducible assumption | with_reducible apply State.runItem_sound | with_reducible apply flHealthWork_keeps | with_reducible apply sound_foldl | with_reducible apply sound_foldl_fst | exact id | exact fun _ => cellWf_nil _ | exact cellWf_write _ _ | exact cellWf_clear _ _ | exact cellWf_filter _)
    | dsimp only
    | split

theorem State.setRegion_sound {q : Base} : ∀ {s : State} a1, Sound q s → Sound q (State.setRegion s a1) := by
  intros
  unfold State.setRegion
  repeat' first
    | with_reducible assumption
    | with_reducible apply sound_foldl
    | with_reducible apply sound_foldl_fst
    | intro _
    | with_reducible apply sound_ite
    | with_reducible apply sound_of_fst (by assumption)
    | with_reducible apply sound_of_some (by assumption)
    | with_reducible apply sound_of_snd (by assumption)
    | with_reducible apply sound_on
    | with_reducible apply sound_getD
    | (with_reducible refine sound_mk ?_ rfl rfl rfl rfl rfl rfl rfl; first | with_reducible assumption | with_reducible apply sound_foldl | with_reducible apply sound_foldl_fst)
    | (with_reducible refine sound_mk_wf ?_ rfl ?_ ?_ ?_ ?_ rfl rfl <;> first | with_reducible assumption | with_reducible apply sound_foldl | with_reducible apply sound_foldl_fst | exact id | exact fun _ => cellWf_nil _ | exact cellWf_write _ _ | exact cellWf_clear _ _ | exact cellWf_filter _)
    | dsimp only
    | split

theorem State.saveRepairs_sound {q : Base} : ∀ {s : State}, Sound q s → Sound q (State.saveRepairs s) := by
  intros
  unfold State.saveRepairs
  repeat' first
    | with_reducible assumption
    | with_reducible apply State.setRegion_sound
    | with_reducible apply sound_foldl
    | with_reducible apply sound_foldl_fst
    | intro _
    | with_reducible apply sound_ite
    | with_reducible apply sound_of_fst (by assumption)
    | with_reducible apply sound_of_some (by assumption)
    | with_reducible apply sound_of_snd (by assumption)
    | with_reducible apply sound_on
    | with_reducible apply sound_getD
    | (with_reducible refine sound_mk ?_ rfl rfl rfl rfl rfl rfl rfl; first | with_reducible assumption | with_reducible apply State.setRegion_sound | with_reducible apply sound_foldl | with_reducible apply sound_foldl_fst)
    | (with_reducible refine sound_mk_wf ?_ rfl ?_ ?_ ?_ ?_ rfl rfl <;> first | with_reducible assumption | with_reducible apply State.setRegion_sound | with_reducible apply sound_foldl | with_reducible apply sound_foldl_fst | exact id | exact fun _ => cellWf_nil _ | exact cellWf_write _ _ | exact cellWf_clear _ _ | exact cellWf_filter _)
    | dsimp only
    | split

theorem State.pbUpdate_sound {q : Base} : ∀ {s : State} a1 a2, Sound q s → Sound q (State.pbUpdate s a1 a2) := by
  intros
  unfold State.pbUpdate
  repeat' first
    | with_reducible assumption
    | with_reducible apply State.setRegion_sound
    | with_reducible apply sound_foldl
    | with_reducible apply sound_foldl_fst
    | intro _
    | with_reducible apply sound_ite
    | with_reducible apply sound_of_fst (by assumption)
    | with_reducible apply sound_of_some (by assumption)
    | with_reducible apply sound_of_snd (by assumption)
    | with_reducible apply sound_on
    | with_reducible apply sound_getD
    | (with_reducible refine sound_mk ?_ rfl rfl rfl rfl rfl rfl rfl; first | with_reducible assumption | with_reducible apply State.setRegion_sound | with_reducible apply sound_foldl | with_reducible apply sound_foldl_fst)
    | (with_reducible refine sound_mk_wf ?_ rfl ?_ ?_ ?_ ?_ rfl rfl <;> first | with_reducible assumption | with_reducible apply State.setRegion_sound | with_reducible apply sound_foldl | with_reducible apply sound_foldl_fst | exact id | exact fun _ => cellWf_nil _ | exact cellWf_write _ _ | exact cellWf_clear _ _ | exact cellWf_filter _)
    | dsimp only
    | split

theorem State.raiseCounter_sound {q : Base} : ∀ {s : State} a1 a2, Sound q s → Sound q (State.raiseCounter s a1 a2) :=
  fun _ _ h => h.raise rfl rfl rfl rfl rfl

theorem pbOperand_keeps {q : Base} : Keeps q pbOperand := by
  intros
  unfold pbOperand
  repeat' first
    | with_reducible assumption
    | with_reducible exact keeps_pure
    | with_reducible exact keeps_throw
    | with_reducible exact keeps_read
    | with_reducible apply keeps_get_bind
    | with_reducible exact keeps_get
    | with_reducible apply keeps_bind
    | with_reducible apply keeps_set
    | with_reducible apply keeps_modify
    | with_reducible apply keeps_forM
    | with_reducible apply keeps_mapM
    | with_reducible apply keeps_foldlM
    | with_reducible apply keeps_forIn
    | with_reducible apply keeps_tryCatch
    | with_reducible apply keeps_map
    | with_reducible apply keeps_seq
    | with_reducible apply stopWith_keeps
    | with_reducible apply require_keeps
    | with_reducible apply requireManaged_keeps
    | with_reducible apply payZero_keeps
    | with_reducible apply pay_keeps
    | with_reducible apply sound_foldl
    | with_reducible apply sound_foldl_fst
    | intro _
    | with_reducible apply keeps_ite
    | with_reducible apply sound_of_fst (by assumption)
    | with_reducible apply sound_of_some (by assumption)
    | with_reducible apply sound_of_snd (by assumption)
    | with_reducible apply sound_on
    | with_reducible apply sound_getD
    | (with_reducible refine sound_mk ?_ rfl rfl rfl rfl rfl rfl rfl; first | with_reducible assumption | with_reducible apply stopWith_keeps | with_reducible apply require_keeps | with_reducible apply requireManaged_keeps | with_reducible apply payZero_keeps | with_reducible apply pay_keeps | with_reducible apply sound_foldl | with_reducible apply sound_foldl_fst)
    | (with_reducible refine sound_mk_wf ?_ rfl ?_ ?_ ?_ ?_ rfl rfl <;> first | with_reducible assumption | with_reducible apply stopWith_keeps | with_reducible apply require_keeps | with_reducible apply requireManaged_keeps | with_reducible apply payZero_keeps | with_reducible apply pay_keeps | with_reducible apply sound_foldl | with_reducible apply sound_foldl_fst | exact id | exact fun _ => cellWf_nil _ | exact cellWf_write _ _ | exact cellWf_clear _ _ | exact cellWf_filter _)
    | dsimp only
    | split

theorem bookFree_keeps {q : Base} : Keeps q bookFree := by
  intros
  unfold bookFree
  repeat' first
    | with_reducible assumption
    | with_reducible exact keeps_pure
    | with_reducible exact keeps_throw
    | with_reducible exact keeps_read
    | with_reducible apply keeps_get_bind
    | with_reducible exact keeps_get
    | with_reducible apply keeps_bind
    | with_reducible apply keeps_set
    | with_reducible apply keeps_modify
    | with_reducible apply keeps_forM
    | with_reducible apply keeps_mapM
    | with_reducible apply keeps_foldlM
    | with_reducible apply keeps_forIn
    | with_reducible apply keeps_tryCatch
    | with_reducible apply keeps_map
    | with_reducible apply keeps_seq
    | with_reducible apply sound_foldl
    | with_reducible apply sound_foldl_fst
    | intro _
    | with_reducible apply keeps_ite
    | with_reducible apply sound_of_fst (by assumption)
    | with_reducible apply sound_of_some (by assumption)
    | with_reducible apply sound_of_snd (by assumption)
    | with_reducible apply sound_on
    | with_reducible apply sound_getD
    | (with_reducible refine sound_mk ?_ rfl rfl rfl rfl rfl rfl rfl; first | with_reducible assumption | with_reducible apply sound_foldl | with_reducible apply sound_foldl_fst)
    | (with_reducible refine sound_mk_wf ?_ rfl ?_ ?_ ?_ ?_ rfl rfl <;> first | with_reducible assumption | with_reducible apply sound_foldl | with_reducible apply sound_foldl_fst | exact id | exact fun _ => cellWf_nil _ | exact cellWf_write _ _ | exact cellWf_clear _ _ | exact cellWf_filter _)
    | dsimp only
    | split

theorem pbReadWork_keeps {q : Base} : Keeps q pbReadWork := by
  intros
  unfold pbReadWork
  repeat' first
    | with_reducible assumption
    | with_reducible exact keeps_pure
    | with_reducible exact keeps_throw
    | with_reducible exact keeps_read
    | with_reducible apply keeps_get_bind
    | with_reducible exact keeps_get
    | with_reducible apply keeps_bind
    | with_reducible apply keeps_set
    | with_reducible apply keeps_modify
    | with_reducible apply keeps_forM
    | with_reducible apply keeps_mapM
    | with_reducible apply keeps_foldlM
    | with_reducible apply keeps_forIn
    | with_reducible apply keeps_tryCatch
    | with_reducible apply keeps_map
    | with_reducible apply keeps_seq
    | with_reducible apply bookFree_keeps
    | with_reducible apply require_keeps
    | with_reducible apply pbOperand_keeps
    | with_reducible apply store_keeps
    | with_reducible apply sound_foldl
    | with_reducible apply sound_foldl_fst
    | intro _
    | with_reducible apply keeps_ite
    | with_reducible apply sound_of_fst (by assumption)
    | with_reducible apply sound_of_some (by assumption)
    | with_reducible apply sound_of_snd (by assumption)
    | with_reducible apply sound_on
    | with_reducible apply sound_getD
    | (with_reducible refine sound_mk ?_ rfl rfl rfl rfl rfl rfl rfl; first | with_reducible assumption | with_reducible apply bookFree_keeps | with_reducible apply require_keeps | with_reducible apply pbOperand_keeps | with_reducible apply store_keeps | with_reducible apply sound_foldl | with_reducible apply sound_foldl_fst)
    | (with_reducible refine sound_mk_wf ?_ rfl ?_ ?_ ?_ ?_ rfl rfl <;> first | with_reducible assumption | with_reducible apply bookFree_keeps | with_reducible apply require_keeps | with_reducible apply pbOperand_keeps | with_reducible apply store_keeps | with_reducible apply sound_foldl | with_reducible apply sound_foldl_fst | exact id | exact fun _ => cellWf_nil _ | exact cellWf_write _ _ | exact cellWf_clear _ _ | exact cellWf_filter _)
    | dsimp only
    | split

theorem execPbRead_sound {q : Base} : ∀ a0 a1 {s : State}, Sound q s → OutSound q (execPbRead a0 a1 s) := by
  intros
  unfold execPbRead
  repeat' first
    | with_reducible assumption
    | with_reducible apply outSound_next
    | with_reducible apply State.runItem_sound
    | with_reducible apply pbReadWork_keeps
    | with_reducible apply sound_foldl
    | with_reducible apply sound_foldl_fst
    | intro _
    | with_reducible apply sound_of_fst (by assumption)
    | with_reducible apply sound_of_some (by assumption)
    | with_reducible apply sound_of_snd (by assumption)
    | with_reducible apply sound_on
    | with_reducible apply sound_getD
    | (with_reducible refine sound_mk ?_ rfl rfl rfl rfl rfl rfl rfl; first | with_reducible assumption | with_reducible apply State.runItem_sound | with_reducible apply pbReadWork_keeps | with_reducible apply sound_foldl | with_reducible apply sound_foldl_fst)
    | (with_reducible refine sound_mk_wf ?_ rfl ?_ ?_ ?_ ?_ rfl rfl <;> first | with_reducible assumption | with_reducible apply State.runItem_sound | with_reducible apply pbReadWork_keeps | with_reducible apply sound_foldl | with_reducible apply sound_foldl_fst | exact id | exact fun _ => cellWf_nil _ | exact cellWf_write _ _ | exact cellWf_clear _ _ | exact cellWf_filter _)
    | dsimp only
    | split

theorem pbWriteWork_keeps {q : Base} : Keeps q pbWriteWork := by
  intros
  unfold pbWriteWork
  repeat' first
    | with_reducible assumption
    | with_reducible exact keeps_pure
    | with_reducible exact keeps_throw
    | with_reducible exact keeps_read
    | with_reducible apply keeps_get_bind
    | with_reducible exact keeps_get
    | with_reducible apply keeps_bind
    | with_reducible apply keeps_set
    | with_reducible apply keeps_modify
    | with_reducible apply keeps_forM
    | with_reducible apply keeps_mapM
    | with_reducible apply keeps_foldlM
    | with_reducible apply keeps_forIn
    | with_reducible apply keeps_tryCatch
    | with_reducible apply keeps_map
    | with_reducible apply keeps_seq
    | with_reducible apply bookFree_keeps
    | with_reducible apply State.pbUpdate_sound
    | with_reducible apply require_keeps
    | with_reducible apply pbOperand_keeps
    | with_reducible apply load_keeps
    | with_reducible apply State.raiseCounter_sound
    | with_reducible apply sound_foldl
    | with_reducible apply sound_foldl_fst
    | intro _
    | with_reducible apply keeps_ite
    | with_reducible apply sound_of_fst (by assumption)
    | with_reducible apply sound_of_some (by assumption)
    | with_reducible apply sound_of_snd (by assumption)
    | with_reducible apply sound_on
    | with_reducible apply sound_getD
    | (with_reducible refine sound_mk ?_ rfl rfl rfl rfl rfl rfl rfl; first | with_reducible assumption | with_reducible apply bookFree_keeps | with_reducible apply State.pbUpdate_sound | with_reducible apply require_keeps | with_reducible apply pbOperand_keeps | with_reducible apply load_keeps | with_reducible apply State.raiseCounter_sound | with_reducible apply sound_foldl | with_reducible apply sound_foldl_fst)
    | (with_reducible refine sound_mk_wf ?_ rfl ?_ ?_ ?_ ?_ rfl rfl <;> first | with_reducible assumption | with_reducible apply bookFree_keeps | with_reducible apply State.pbUpdate_sound | with_reducible apply require_keeps | with_reducible apply pbOperand_keeps | with_reducible apply load_keeps | with_reducible apply State.raiseCounter_sound | with_reducible apply sound_foldl | with_reducible apply sound_foldl_fst | exact id | exact fun _ => cellWf_nil _ | exact cellWf_write _ _ | exact cellWf_clear _ _ | exact cellWf_filter _)
    | dsimp only
    | split

theorem execPbWrite_sound {q : Base} : ∀ a0 a1 {s : State}, Sound q s → OutSound q (execPbWrite a0 a1 s) := by
  intros
  unfold execPbWrite
  repeat' first
    | with_reducible assumption
    | with_reducible apply outSound_next
    | with_reducible apply State.runItem_sound
    | with_reducible apply pbWriteWork_keeps
    | with_reducible apply sound_foldl
    | with_reducible apply sound_foldl_fst
    | intro _
    | with_reducible apply sound_of_fst (by assumption)
    | with_reducible apply sound_of_some (by assumption)
    | with_reducible apply sound_of_snd (by assumption)
    | with_reducible apply sound_on
    | with_reducible apply sound_getD
    | (with_reducible refine sound_mk ?_ rfl rfl rfl rfl rfl rfl rfl; first | with_reducible assumption | with_reducible apply State.runItem_sound | with_reducible apply pbWriteWork_keeps | with_reducible apply sound_foldl | with_reducible apply sound_foldl_fst)
    | (with_reducible refine sound_mk_wf ?_ rfl ?_ ?_ ?_ ?_ rfl rfl <;> first | with_reducible assumption | with_reducible apply State.runItem_sound | with_reducible apply pbWriteWork_keeps | with_reducible apply sound_foldl | with_reducible apply sound_foldl_fst | exact id | exact fun _ => cellWf_nil _ | exact cellWf_write _ _ | exact cellWf_clear _ _ | exact cellWf_filter _)
    | dsimp only
    | split

end Sys2Proof.Machine
end

