-- ==== Sys2Proof/Laws/KeepLoss.lean ====
section
/-! SUPPORT. What the operations of `Machine/Loss.lean` keep: the memories in canonical form and the queue. -/

set_option linter.unusedTactic false
set_option linter.unreachableTactic false

namespace Sys2Proof.Machine

theorem State.chorusEvent_sound {q : Base} : ∀ {s : State} a1, Sound q s → Sound q (State.chorusEvent s a1) := by
  intros
  unfold State.chorusEvent
  repeat' first
    | with_reducible assumption
    | with_reducible apply State.logPost_sound
    | with_reducible apply State.event_sound
    | with_reducible apply sound_foldl
    | with_reducible apply sound_foldl_fst
    | intro _
    | with_reducible apply sound_ite
    | with_reducible apply sound_of_fst (by assumption)
    | with_reducible apply sound_of_some (by assumption)
    | with_reducible apply sound_of_snd (by assumption)
    | with_reducible apply sound_on
    | with_reducible apply sound_getD
    | (with_reducible refine sound_mk ?_ rfl rfl rfl rfl rfl rfl rfl; first | with_reducible assumption | with_reducible apply State.logPost_sound | with_reducible apply State.event_sound | with_reducible apply sound_foldl | with_reducible apply sound_foldl_fst)
    | dsimp only
    | split

theorem State.onFlood_sound {q : Base} {a2 : State → State} (hF : ∀ t, Sound q t → Sound q (a2 t)) : ∀ {s : State} a1, Sound q s → Sound q (State.onFlood s a1 a2) := by
  intros
  unfold State.onFlood
  repeat' first
    | with_reducible assumption
    | with_reducible apply State.noteFlood_sound
    | with_reducible apply sound_foldl
    | with_reducible apply sound_foldl_fst
    | with_reducible apply hF
    | intro _
    | with_reducible apply sound_ite
    | with_reducible apply sound_of_fst (by assumption)
    | with_reducible apply sound_of_some (by assumption)
    | with_reducible apply sound_of_snd (by assumption)
    | with_reducible apply sound_on
    | with_reducible apply sound_getD
    | (with_reducible refine sound_mk ?_ rfl rfl rfl rfl rfl rfl rfl; first | with_reducible assumption | with_reducible apply State.noteFlood_sound | with_reducible apply sound_foldl | with_reducible apply sound_foldl_fst)
    | dsimp only
    | split

theorem State.failHalves_sound {q : Base} : ∀ {s : State} a1, Sound q s → Sound q (State.failHalves s a1) := by
  intros
  unfold State.failHalves
  repeat' first
    | with_reducible assumption
    | with_reducible apply State.endEarly_sound
    | with_reducible apply sound_foldl
    | with_reducible apply sound_foldl_fst
    | intro _
    | with_reducible apply sound_ite
    | with_reducible apply sound_of_fst (by assumption)
    | with_reducible apply sound_of_some (by assumption)
    | with_reducible apply sound_of_snd (by assumption)
    | with_reducible apply sound_on
    | with_reducible apply sound_getD
    | (with_reducible refine sound_mk ?_ rfl rfl rfl rfl rfl rfl rfl; first | with_reducible assumption | with_reducible apply State.endEarly_sound | with_reducible apply sound_foldl | with_reducible apply sound_foldl_fst)
    | dsimp only
    | split

theorem State.noCandidate_sound {q : Base} : ∀ {s : State}, Sound q s → Sound q (State.noCandidate s) := by
  intros
  unfold State.noCandidate
  repeat' first
    | with_reducible assumption
    | with_reducible apply State.chorusEvent_sound
    | with_reducible apply sound_foldl
    | with_reducible apply sound_foldl_fst
    | intro _
    | with_reducible apply sound_ite
    | with_reducible apply sound_of_fst (by assumption)
    | with_reducible apply sound_of_some (by assumption)
    | with_reducible apply sound_of_snd (by assumption)
    | with_reducible apply sound_on
    | with_reducible apply sound_getD
    | (with_reducible refine sound_mk ?_ rfl rfl rfl rfl rfl rfl rfl; first | with_reducible assumption | with_reducible apply State.chorusEvent_sound | with_reducible apply sound_foldl | with_reducible apply sound_foldl_fst)
    | dsimp only
    | split

theorem State.loseMember_sound {q : Base} : ∀ {s : State} a1 a2 a3 a4 a5, Sound q s → Sound q (State.loseMember s a1 a2 a3 a4 a5) := by
  intros
  unfold State.loseMember
  repeat' first
    | with_reducible assumption
    | with_reducible apply State.chorusEvent_sound
    | with_reducible apply State.noCandidate_sound
    | with_reducible apply State.setFld_sound
    | with_reducible apply State.failHalves_sound
    | with_reducible apply sound_foldl
    | with_reducible apply sound_foldl_fst
    | intro _
    | with_reducible apply sound_ite
    | with_reducible apply sound_of_fst (by assumption)
    | with_reducible apply sound_of_some (by assumption)
    | with_reducible apply sound_of_snd (by assumption)
    | with_reducible apply sound_on
    | with_reducible apply sound_getD
    | (with_reducible refine sound_mk ?_ rfl rfl rfl rfl rfl rfl rfl; first | with_reducible assumption | with_reducible apply State.chorusEvent_sound | with_reducible apply State.noCandidate_sound | with_reducible apply State.setFld_sound | with_reducible apply State.failHalves_sound | with_reducible apply sound_foldl | with_reducible apply sound_foldl_fst)
    | dsimp only
    | split

theorem State.declareLost_sound {q : Base} : ∀ {s : State} a1 a2 a3, Sound q s → Sound q (State.declareLost s a1 a2 a3) := by
  intros
  unfold State.declareLost
  repeat' first
    | with_reducible assumption
    | with_reducible apply State.originate_sound
    | with_reducible apply State.loseMember_sound
    | with_reducible apply sound_foldl
    | with_reducible apply sound_foldl_fst
    | intro _
    | with_reducible apply sound_ite
    | with_reducible apply sound_of_fst (by assumption)
    | with_reducible apply sound_of_some (by assumption)
    | with_reducible apply sound_of_snd (by assumption)
    | with_reducible apply sound_on
    | with_reducible apply sound_getD
    | (with_reducible refine sound_mk ?_ rfl rfl rfl rfl rfl rfl rfl; first | with_reducible assumption | with_reducible apply State.originate_sound | with_reducible apply State.loseMember_sound | with_reducible apply sound_foldl | with_reducible apply sound_foldl_fst)
    | dsimp only
    | split

theorem State.memberLostMsg_sound {q : Base} : ∀ {s : State} a1, Sound q s → Sound q (State.memberLostMsg s a1) := by
  intros
  unfold State.memberLostMsg
  repeat' first
    | with_reducible assumption
    | with_reducible apply State.onFlood_sound
    | with_reducible apply State.loseMember_sound
    | with_reducible apply sound_foldl
    | with_reducible apply sound_foldl_fst
    | intro _
    | with_reducible apply sound_ite
    | with_reducible apply sound_of_fst (by assumption)
    | with_reducible apply sound_of_some (by assumption)
    | with_reducible apply sound_of_snd (by assumption)
    | with_reducible apply sound_on
    | with_reducible apply sound_getD
    | (with_reducible refine sound_mk ?_ rfl rfl rfl rfl rfl rfl rfl; first | with_reducible assumption | with_reducible apply State.onFlood_sound | with_reducible apply State.loseMember_sound | with_reducible apply sound_foldl | with_reducible apply sound_foldl_fst)
    | dsimp only
    | split

theorem execMemberLostMessage_sound {q : Base} : ∀ a0 a1 a2 {s : State}, Sound q s → OutSound q (execMemberLostMessage a0 a1 a2 s) := by
  intros
  unfold execMemberLostMessage
  repeat' first
    | with_reducible assumption
    | with_reducible apply outSound_next
    | with_reducible apply State.tick_sound
    | with_reducible apply State.memberLostMsg_sound
    | with_reducible apply sound_foldl
    | with_reducible apply sound_foldl_fst
    | intro _
    | with_reducible apply sound_of_fst (by assumption)
    | with_reducible apply sound_of_some (by assumption)
    | with_reducible apply sound_of_snd (by assumption)
    | with_reducible apply sound_on
    | with_reducible apply sound_getD
    | (with_reducible refine sound_mk ?_ rfl rfl rfl rfl rfl rfl rfl; first | with_reducible assumption | with_reducible apply State.tick_sound | with_reducible apply State.memberLostMsg_sound | with_reducible apply sound_foldl | with_reducible apply sound_foldl_fst)
    | dsimp only
    | split

end Sys2Proof.Machine
end

