-- ==== Sys2Proof/Laws/KeepTier.lean ====
section
/-! SUPPORT. What the operations of `Machine/Tier.lean` keep: the memories in canonical form and the queue. -/

set_option linter.unusedTactic false
set_option linter.unreachableTactic false

namespace Sys2Proof.Machine

theorem granuleItem_keeps {q : Base} : ∀ a0, Keeps q (granuleItem a0) := by
  intros
  unfold granuleItem
  repeat' first
    | with_reducible assumption
    | with_reducible exact keeps_pure
    | with_reducible exact keeps_throw
    | with_reducible exact keeps_read
    | with_reducible apply keeps_get_bind
    | with_reducible exact keeps_get
    | with_reducible apply keeps_bind
    | with_reducible apply keeps_set
    | with_reducible apply keeps_modify
    | with_reducible apply keeps_forM
    | with_reducible apply keeps_mapM
    | with_reducible apply keeps_foldlM
    | with_reducible apply keeps_forIn
    | with_reducible apply keeps_tryCatch
    | with_reducible apply keeps_map
    | with_reducible apply keeps_seq
    | with_reducible apply loadNat_keeps
    | with_reducible apply require_keeps
    | with_reducible apply payTail_keeps
    | with_reducible apply pay_keeps
    | with_reducible apply sound_foldl
    | with_reducible apply sound_foldl_fst
    | intro _
    | with_reducible apply keeps_ite
    | with_reducible apply sound_of_fst (by assumption)
    | with_reducible apply sound_of_some (by assumption)
    | with_reducible apply sound_of_snd (by assumption)
    | with_reducible apply sound_on
    | with_reducible apply sound_getD
    | (with_reducible refine sound_mk ?_ rfl rfl rfl rfl rfl rfl rfl; first | with_reducible assumption | with_reducible apply loadNat_keeps | with_reducible apply require_keeps | with_reducible apply payTail_keeps | with_reducible apply pay_keeps | with_reducible apply sound_foldl | with_reducible apply sound_foldl_fst)
    | (with_reducible refine sound_mk_wf ?_ rfl ?_ ?_ ?_ ?_ rfl rfl <;> first | with_reducible assumption | with_reducible apply loadNat_keeps | with_reducible apply require_keeps | with_reducible apply payTail_keeps | with_reducible apply pay_keeps | with_reducible apply sound_foldl | with_reducible apply sound_foldl_fst | exact id | exact fun _ => cellWf_nil _ | exact cellWf_write _ _ | exact cellWf_clear _ _ | exact cellWf_filter _)
    | dsimp only
    | split

theorem State.setOwners_sound {q : Base} : ∀ {s : State} a1 a2, Sound q s → Sound q (State.setOwners s a1 a2) := by
  intro s g o h
  refine ⟨h.queue, ⟨h.canon.1, ?_, h.canon.2.2⟩, h.counters, h.seq⟩
  unfold State.setOwners
  dsimp only
  split
  · exact cellWf_clear _ _ h.canon.2.1
  · exact cellWf_write _ _ h.canon.2.1

theorem ownerWords_keeps {q : Base} : ∀ a0, Keeps q (ownerWords a0) := by
  intros
  unfold ownerWords
  repeat' first
    | with_reducible assumption
    | with_reducible exact keeps_pure
    | with_reducible exact keeps_throw
    | with_reducible exact keeps_read
    | with_reducible apply keeps_get_bind
    | with_reducible exact keeps_get
    | with_reducible apply keeps_bind
    | with_reducible apply keeps_set
    | with_reducible apply keeps_modify
    | with_reducible apply keeps_forM
    | with_reducible apply keeps_mapM
    | with_reducible apply keeps_foldlM
    | with_reducible apply keeps_forIn
    | with_reducible apply keeps_tryCatch
    | with_reducible apply keeps_map
    | with_reducible apply keeps_seq
    | with_reducible apply sramTable_keeps
    | with_reducible apply sound_foldl
    | with_reducible apply sound_foldl_fst
    | intro _
    | with_reducible apply keeps_ite
    | with_reducible apply sound_of_fst (by assumption)
    | with_reducible apply sound_of_some (by assumption)
    | with_reducible apply sound_of_snd (by assumption)
    | with_reducible apply sound_on
    | with_reducible apply sound_getD
    | (with_reducible refine sound_mk ?_ rfl rfl rfl rfl rfl rfl rfl; first | with_reducible assumption | with_reducible apply sramTable_keeps | with_reducible apply sound_foldl | with_reducible apply sound_foldl_fst)
    | (with_reducible refine sound_mk_wf ?_ rfl ?_ ?_ ?_ ?_ rfl rfl <;> first | with_reducible assumption | with_reducible apply sramTable_keeps | with_reducible apply sound_foldl | with_reducible apply sound_foldl_fst | exact id | exact fun _ => cellWf_nil _ | exact cellWf_write _ _ | exact cellWf_clear _ _ | exact cellWf_filter _)
    | dsimp only
    | split

theorem grantWork_keeps {q : Base} : Keeps q grantWork := by
  intros
  unfold grantWork
  repeat' first
    | with_reducible assumption
    | with_reducible exact keeps_pure
    | with_reducible exact keeps_throw
    | with_reducible exact keeps_read
    | with_reducible apply keeps_get_bind
    | with_reducible exact keeps_get
    | with_reducible apply keeps_bind
    | with_reducible apply keeps_set
    | with_reducible apply keeps_modify
    | with_reducible apply keeps_forM
    | with_reducible apply keeps_mapM
    | with_reducible apply keeps_foldlM
    | with_reducible apply keeps_forIn
    | with_reducible apply keeps_tryCatch
    | with_reducible apply keeps_map
    | with_reducible apply keeps_seq
    | with_reducible apply State.bump_sound
    | with_reducible apply State.devZero_sound
    | with_reducible apply require_keeps
    | with_reducible apply ownerWords_keeps
    | with_reducible apply pay_keeps
    | with_reducible apply State.setOwners_sound
    | with_reducible apply granuleItem_keeps
    | with_reducible apply sound_foldl
    | with_reducible apply sound_foldl_fst
    | intro _
    | with_reducible apply keeps_ite
    | with_reducible apply sound_of_fst (by assumption)
    | with_reducible apply sound_of_some (by assumption)
    | with_reducible apply sound_of_snd (by assumption)
    | with_reducible apply sound_on
    | with_reducible apply sound_getD
    | (with_reducible refine sound_mk ?_ rfl rfl rfl rfl rfl rfl rfl; first | with_reducible assumption | with_reducible apply State.bump_sound | with_reducible apply State.devZero_sound | with_reducible apply require_keeps | with_reducible apply ownerWords_keeps | with_reducible apply pay_keeps | with_reducible apply State.setOwners_sound | with_reducible apply granuleItem_keeps | with_reducible apply sound_foldl | with_reducible apply sound_foldl_fst)
    | (with_reducible refine sound_mk_wf ?_ rfl ?_ ?_ ?_ ?_ rfl rfl <;> first | with_reducible assumption | with_reducible apply State.bump_sound | with_reducible apply State.devZero_sound | with_reducible apply require_keeps | with_reducible apply ownerWords_keeps | with_reducible apply pay_keeps | with_reducible apply State.setOwners_sound | with_reducible apply granuleItem_keeps | with_reducible apply sound_foldl | with_reducible apply sound_foldl_fst | exact id | exact fun _ => cellWf_nil _ | exact cellWf_write _ _ | exact cellWf_clear _ _ | exact cellWf_filter _)
    | dsimp only
    | split

theorem execGrantGranules_sound {q : Base} : ∀ a0 a1 {s : State}, Sound q s → OutSound q (execGrantGranules a0 a1 s) := by
  intros
  unfold execGrantGranules
  repeat' first
    | with_reducible assumption
    | with_reducible apply outSound_next
    | with_reducible apply State.runItem_sound
    | with_reducible apply grantWork_keeps
    | with_reducible apply sound_foldl
    | with_reducible apply sound_foldl_fst
    | intro _
    | with_reducible apply sound_of_fst (by assumption)
    | with_reducible apply sound_of_some (by assumption)
    | with_reducible apply sound_of_snd (by assumption)
    | with_reducible apply sound_on
    | with_reducible apply sound_getD
    | (with_reducible refine sound_mk ?_ rfl rfl rfl rfl rfl rfl rfl; first | with_reducible assumption | with_reducible apply State.runItem_sound | with_reducible apply grantWork_keeps | with_reducible apply sound_foldl | with_reducible apply sound_foldl_fst)
    | (with_reducible refine sound_mk_wf ?_ rfl ?_ ?_ ?_ ?_ rfl rfl <;> first | with_reducible assumption | with_reducible apply State.runItem_sound | with_reducible apply grantWork_keeps | with_reducible apply sound_foldl | with_reducible apply sound_foldl_fst | exact id | exact fun _ => cellWf_nil _ | exact cellWf_write _ _ | exact cellWf_clear _ _ | exact cellWf_filter _)
    | dsimp only
    | split

theorem releaseWork_keeps {q : Base} : Keeps q releaseWork := by
  intros
  unfold releaseWork
  repeat' first
    | with_reducible assumption
    | with_reducible exact keeps_pure
    | with_reducible exact keeps_throw
    | with_reducible exact keeps_read
    | with_reducible apply keeps_get_bind
    | with_reducible exact keeps_get
    | with_reducible apply keeps_bind
    | with_reducible apply keeps_set
    | with_reducible apply keeps_modify
    | with_reducible apply keeps_forM
    | with_reducible apply keeps_mapM
    | with_reducible apply keeps_foldlM
    | with_reducible apply keeps_forIn
    | with_reducible apply keeps_tryCatch
    | with_reducible apply keeps_map
    | with_reducible apply keeps_seq
    | with_reducible apply require_keeps
    | with_reducible apply State.setFld_sound
    | with_reducible apply ownerWords_keeps
    | with_reducible apply State.setOwners_sound
    | with_reducible apply granuleItem_keeps
    | with_reducible apply sound_foldl
    | with_reducible apply sound_foldl_fst
    | intro _
    | with_reducible apply keeps_ite
    | with_reducible apply sound_of_fst (by assumption)
    | with_reducible apply sound_of_some (by assumption)
    | with_reducible apply sound_of_snd (by assumption)
    | with_reducible apply sound_on
    | with_reducible apply sound_getD
    | (with_reducible refine sound_mk ?_ rfl rfl rfl rfl rfl rfl rfl; first | with_reducible assumption | with_reducible apply require_keeps | with_reducible apply State.setFld_sound | with_reducible apply ownerWords_keeps | with_reducible apply State.setOwners_sound | with_reducible apply granuleItem_keeps | with_reducible apply sound_foldl | with_reducible apply sound_foldl_fst)
    | (with_reducible refine sound_mk_wf ?_ rfl ?_ ?_ ?_ ?_ rfl rfl <;> first | with_reducible assumption | with_reducible apply require_keeps | with_reducible apply State.setFld_sound | with_reducible apply ownerWords_keeps | with_reducible apply State.setOwners_sound | with_reducible apply granuleItem_keeps | with_reducible apply sound_foldl | with_reducible apply sound_foldl_fst | exact id | exact fun _ => cellWf_nil _ | exact cellWf_write _ _ | exact cellWf_clear _ _ | exact cellWf_filter _)
    | dsimp only
    | split

theorem execReleaseGranules_sound {q : Base} : ∀ a0 a1 {s : State}, Sound q s → OutSound q (execReleaseGranules a0 a1 s) := by
  intros
  unfold execReleaseGranules
  repeat' first
    | with_reducible assumption
    | with_reducible apply outSound_next
    | with_reducible apply State.runItem_sound
    | with_reducible apply releaseWork_keeps
    | with_reducible apply sound_foldl
    | with_reducible apply sound_foldl_fst
    | intro _
    | with_reducible apply sound_of_fst (by assumption)
    | with_reducible apply sound_of_some (by assumption)
    | with_reducible apply sound_of_snd (by assumption)
    | with_reducible apply sound_on
    | with_reducible apply sound_getD
    | (with_reducible refine sound_mk ?_ rfl rfl rfl rfl rfl rfl rfl; first | with_reducible assumption | with_reducible apply State.runItem_sound | with_reducible apply releaseWork_keeps | with_reducible apply sound_foldl | with_reducible apply sound_foldl_fst)
    | (with_reducible refine sound_mk_wf ?_ rfl ?_ ?_ ?_ ?_ rfl rfl <;> first | with_reducible assumption | with_reducible apply State.runItem_sound | with_reducible apply releaseWork_keeps | with_reducible apply sound_foldl | with_reducible apply sound_foldl_fst | exact id | exact fun _ => cellWf_nil _ | exact cellWf_write _ _ | exact cellWf_clear _ _ | exact cellWf_filter _)
    | dsimp only
    | split

theorem State.freeGranules_sound {q : Base} : ∀ {s : State} a1, Sound q s → Sound q (State.freeGranules s a1) := by
  intros
  unfold State.freeGranules
  repeat' first
    | with_reducible assumption
    | with_reducible apply State.setFld_sound
    | with_reducible apply sound_foldl
    | with_reducible apply sound_foldl_fst
    | intro _
    | with_reducible apply sound_ite
    | with_reducible apply sound_of_fst (by assumption)
    | with_reducible apply sound_of_some (by assumption)
    | with_reducible apply sound_of_snd (by assumption)
    | with_reducible apply sound_on
    | with_reducible apply sound_getD
    | (with_reducible refine sound_mk ?_ rfl rfl rfl rfl rfl rfl rfl; first | with_reducible assumption | with_reducible apply State.setFld_sound | with_reducible apply sound_foldl | with_reducible apply sound_foldl_fst)
    | (with_reducible refine sound_mk_wf ?_ rfl ?_ ?_ ?_ ?_ rfl rfl <;> first | with_reducible assumption | with_reducible apply State.setFld_sound | with_reducible apply sound_foldl | with_reducible apply sound_foldl_fst | exact id | exact fun _ => cellWf_nil _ | exact cellWf_write _ _ | exact cellWf_clear _ _ | exact cellWf_filter _)
    | dsimp only
    | split

theorem placeCheck_keeps {q : Base} : ∀ a0 a1, Keeps q (placeCheck a0 a1) := by
  intros
  unfold placeCheck
  repeat' first
    | with_reducible assumption
    | with_reducible exact keeps_pure
    | with_reducible exact keeps_throw
    | with_reducible exact keeps_read
    | with_reducible apply keeps_get_bind
    | with_reducible exact keeps_get
    | with_reducible apply keeps_bind
    | with_reducible apply keeps_set
    | with_reducible apply keeps_modify
    | with_reducible apply keeps_forM
    | with_reducible apply keeps_mapM
    | with_reducible apply keeps_foldlM
    | with_reducible apply keeps_forIn
    | with_reducible apply keeps_tryCatch
    | with_reducible apply keeps_map
    | with_reducible apply keeps_seq
    | with_reducible apply require_keeps
    | with_reducible apply sound_foldl
    | with_reducible apply sound_foldl_fst
    | intro _
    | with_reducible apply keeps_ite
    | with_reducible apply sound_of_fst (by assumption)
    | with_reducible apply sound_of_some (by assumption)
    | with_reducible apply sound_of_snd (by assumption)
    | with_reducible apply sound_on
    | with_reducible apply sound_getD
    | (with_reducible refine sound_mk ?_ rfl rfl rfl rfl rfl rfl rfl; first | with_reducible assumption | with_reducible apply require_keeps | with_reducible apply sound_foldl | with_reducible apply sound_foldl_fst)
    | (with_reducible refine sound_mk_wf ?_ rfl ?_ ?_ ?_ ?_ rfl rfl <;> first | with_reducible assumption | with_reducible apply require_keeps | with_reducible apply sound_foldl | with_reducible apply sound_foldl_fst | exact id | exact fun _ => cellWf_nil _ | exact cellWf_write _ _ | exact cellWf_clear _ _ | exact cellWf_filter _)
    | dsimp only
    | split

theorem placeRoute_keeps {q : Base} : ∀ a0, Keeps q (placeRoute a0) := by
  intros
  unfold placeRoute
  repeat' first
    | with_reducible assumption
    | with_reducible exact keeps_pure
    | with_reducible exact keeps_throw
    | with_reducible exact keeps_read
    | with_reducible apply keeps_get_bind
    | with_reducible exact keeps_get
    | with_reducible apply keeps_bind
    | with_reducible apply keeps_set
    | with_reducible apply keeps_modify
    | with_reducible apply keeps_forM
    | with_reducible apply keeps_mapM
    | with_reducible apply keeps_foldlM
    | with_reducible apply keeps_forIn
    | with_reducible apply keeps_tryCatch
    | with_reducible apply keeps_map
    | with_reducible apply keeps_seq
    | with_reducible apply remoteOk_keeps
    | with_reducible apply sound_foldl
    | with_reducible apply sound_foldl_fst
    | intro _
    | with_reducible apply keeps_ite
    | with_reducible apply sound_of_fst (by assumption)
    | with_reducible apply sound_of_some (by assumption)
    | with_reducible apply sound_of_snd (by assumption)
    | with_reducible apply sound_on
    | with_reducible apply sound_getD
    | (with_reducible refine sound_mk ?_ rfl rfl rfl rfl rfl rfl rfl; first | with_reducible assumption | with_reducible apply remoteOk_keeps | with_reducible apply sound_foldl | with_reducible apply sound_foldl_fst)
    | (with_reducible refine sound_mk_wf ?_ rfl ?_ ?_ ?_ ?_ rfl rfl <;> first | with_reducible assumption | with_reducible apply remoteOk_keeps | with_reducible apply sound_foldl | with_reducible apply sound_foldl_fst | exact id | exact fun _ => cellWf_nil _ | exact cellWf_write _ _ | exact cellWf_clear _ _ | exact cellWf_filter _)
    | dsimp only
    | split

theorem placesCheck_keeps {q : Base} : ∀ a0 a1 a2, Keeps q (placesCheck a0 a1 a2) := by
  intros
  unfold placesCheck
  repeat' first
    | with_reducible assumption
    | with_reducible exact keeps_pure
    | with_reducible exact keeps_throw
    | with_reducible exact keeps_read
    | with_reducible apply keeps_get_bind
    | with_reducible exact keeps_get
    | with_reducible apply keeps_bind
    | with_reducible apply keeps_set
    | with_reducible apply keeps_modify
    | with_reducible apply keeps_forM
    | with_reducible apply keeps_mapM
    | with_reducible apply keeps_foldlM
    | with_reducible apply keeps_forIn
    | with_reducible apply keeps_tryCatch
    | with_reducible apply keeps_map
    | with_reducible apply keeps_seq
    | with_reducible apply placeCheck_keeps
    | with_reducible apply placeRoute_keeps
    | with_reducible apply sound_foldl
    | with_reducible apply sound_foldl_fst
    | intro _
    | with_reducible apply keeps_ite
    | with_reducible apply sound_of_fst (by assumption)
    | with_reducible apply sound_of_some (by assumption)
    | with_reducible apply sound_of_snd (by assumption)
    | with_reducible apply sound_on
    | with_reducible apply sound_getD
    | (with_reducible refine sound_mk ?_ rfl rfl rfl rfl rfl rfl rfl; first | with_reducible assumption | with_reducible apply placeCheck_keeps | with_reducible apply placeRoute_keeps | with_reducible apply sound_foldl | with_reducible apply sound_foldl_fst)
    | (with_reducible refine sound_mk_wf ?_ rfl ?_ ?_ ?_ ?_ rfl rfl <;> first | with_reducible assumption | with_reducible apply placeCheck_keeps | with_reducible apply placeRoute_keeps | with_reducible apply sound_foldl | with_reducible apply sound_foldl_fst | exact id | exact fun _ => cellWf_nil _ | exact cellWf_write _ _ | exact cellWf_clear _ _ | exact cellWf_filter _)
    | dsimp only
    | split

theorem readPlace_keeps {q : Base} : ∀ a0 a1, Keeps q (readPlace a0 a1) := by
  intros
  unfold readPlace
  repeat' first
    | with_reducible assumption
    | with_reducible exact keeps_pure
    | with_reducible exact keeps_throw
    | with_reducible exact keeps_read
    | with_reducible apply keeps_get_bind
    | with_reducible exact keeps_get
    | with_reducible apply keeps_bind
    | with_reducible apply keeps_set
    | with_reducible apply keeps_modify
    | with_reducible apply keeps_forM
    | with_reducible apply keeps_mapM
    | with_reducible apply keeps_foldlM
    | with_reducible apply keeps_forIn
    | with_reducible apply keeps_tryCatch
    | with_reducible apply keeps_map
    | with_reducible apply keeps_seq
    | with_reducible apply stopWith_keeps
    | with_reducible apply require_keeps
    | with_reducible apply loadAt_keeps
    | with_reducible apply State.readSram_sound
    | with_reducible apply theItem_keeps
    | with_reducible apply flashLoad_keeps
    | with_reducible apply State.readMem_sound
    | with_reducible apply sound_foldl
    | with_reducible apply sound_foldl_fst
    | intro _
    | with_reducible apply keeps_ite
    | with_reducible apply sound_of_fst (by assumption)
    | with_reducible apply sound_of_some (by assumption)
    | with_reducible apply sound_of_snd (by assumption)
    | with_reducible apply sound_on
    | with_reducible apply sound_getD
    | (with_reducible refine sound_mk ?_ rfl rfl rfl rfl rfl rfl rfl; first | with_reducible assumption | with_reducible apply stopWith_keeps | with_reducible apply require_keeps | with_reducible apply loadAt_keeps | with_reducible apply State.readSram_sound | with_reducible apply theItem_keeps | with_reducible apply flashLoad_keeps | with_reducible apply State.readMem_sound | with_reducible apply sound_foldl | with_reducible apply sound_foldl_fst)
    | (with_reducible refine sound_mk_wf ?_ rfl ?_ ?_ ?_ ?_ rfl rfl <;> first | with_reducible assumption | with_reducible apply stopWith_keeps | with_reducible apply require_keeps | with_reducible apply loadAt_keeps | with_reducible apply State.readSram_sound | with_reducible apply theItem_keeps | with_reducible apply flashLoad_keeps | with_reducible apply State.readMem_sound | with_reducible apply sound_foldl | with_reducible apply sound_foldl_fst | exact id | exact fun _ => cellWf_nil _ | exact cellWf_write _ _ | exact cellWf_clear _ _ | exact cellWf_filter _)
    | dsimp only
    | split

theorem copyRange_keeps {q : Base} : ∀ a0 a1 a2, Keeps q (copyRange a0 a1 a2) := by
  intros
  unfold copyRange
  repeat' first
    | with_reducible assumption
    | with_reducible exact keeps_pure
    | with_reducible exact keeps_throw
    | with_reducible exact keeps_read
    | with_reducible apply keeps_get_bind
    | with_reducible exact keeps_get
    | with_reducible apply keeps_bind
    | with_reducible apply keeps_set
    | with_reducible apply keeps_modify
    | with_reducible apply keeps_forM
    | with_reducible apply keeps_mapM
    | with_reducible apply keeps_foldlM
    | with_reducible apply keeps_forIn
    | with_reducible apply keeps_tryCatch
    | with_reducible apply keeps_map
    | with_reducible apply keeps_seq
    | with_reducible apply stopWith_keeps
    | with_reducible apply itemStage_keeps
    | with_reducible apply sramStore_keeps
    | with_reducible apply require_keeps
    | with_reducible apply joinBatch_keeps
    | with_reducible apply modifyItem_keeps
    | with_reducible apply State.giveData_sound
    | with_reducible apply storeAt_keeps
    | with_reducible apply readPlace_keeps
    | with_reducible apply sound_foldl
    | with_reducible apply sound_foldl_fst
    | intro _
    | with_reducible apply keeps_ite
    | with_reducible apply sound_of_fst (by assumption)
    | with_reducible apply sound_of_some (by assumption)
    | with_reducible apply sound_of_snd (by assumption)
    | with_reducible apply sound_on
    | with_reducible apply sound_getD
    | (with_reducible refine sound_mk ?_ rfl rfl rfl rfl rfl rfl rfl; first | with_reducible assumption | with_reducible apply stopWith_keeps | with_reducible apply itemStage_keeps | with_reducible apply sramStore_keeps | with_reducible apply require_keeps | with_reducible apply joinBatch_keeps | with_reducible apply modifyItem_keeps | with_reducible apply State.giveData_sound | with_reducible apply storeAt_keeps | with_reducible apply readPlace_keeps | with_reducible apply sound_foldl | with_reducible apply sound_foldl_fst)
    | (with_reducible refine sound_mk_wf ?_ rfl ?_ ?_ ?_ ?_ rfl rfl <;> first | with_reducible assumption | with_reducible apply stopWith_keeps | with_reducible apply itemStage_keeps | with_reducible apply sramStore_keeps | with_reducible apply require_keeps | with_reducible apply joinBatch_keeps | with_reducible apply modifyItem_keeps | with_reducible apply State.giveData_sound | with_reducible apply storeAt_keeps | with_reducible apply readPlace_keeps | with_reducible apply sound_foldl | with_reducible apply sound_foldl_fst | exact id | exact fun _ => cellWf_nil _ | exact cellWf_write _ _ | exact cellWf_clear _ _ | exact cellWf_filter _)
    | dsimp only
    | split

theorem moveCheck_keeps {q : Base} : ∀ a0, Keeps q (moveCheck a0) := by
  intros
  unfold moveCheck
  repeat' first
    | with_reducible assumption
    | with_reducible exact keeps_pure
    | with_reducible exact keeps_throw
    | with_reducible exact keeps_read
    | with_reducible apply keeps_get_bind
    | with_reducible exact keeps_get
    | with_reducible apply keeps_bind
    | with_reducible apply keeps_set
    | with_reducible apply keeps_modify
    | with_reducible apply keeps_forM
    | with_reducible apply keeps_mapM
    | with_reducible apply keeps_foldlM
    | with_reducible apply keeps_forIn
    | with_reducible apply keeps_tryCatch
    | with_reducible apply keeps_map
    | with_reducible apply keeps_seq
    | with_reducible apply require_keeps
    | with_reducible apply payZero_keeps
    | with_reducible apply sound_foldl
    | with_reducible apply sound_foldl_fst
    | intro _
    | with_reducible apply keeps_ite
    | with_reducible apply sound_of_fst (by assumption)
    | with_reducible apply sound_of_some (by assumption)
    | with_reducible apply sound_of_snd (by assumption)
    | with_reducible apply sound_on
    | with_reducible apply sound_getD
    | (with_reducible refine sound_mk ?_ rfl rfl rfl rfl rfl rfl rfl; first | with_reducible assumption | with_reducible apply require_keeps | with_reducible apply payZero_keeps | with_reducible apply sound_foldl | with_reducible apply sound_foldl_fst)
    | (with_reducible refine sound_mk_wf ?_ rfl ?_ ?_ ?_ ?_ rfl rfl <;> first | with_reducible assumption | with_reducible apply require_keeps | with_reducible apply payZero_keeps | with_reducible apply sound_foldl | with_reducible apply sound_foldl_fst | exact id | exact fun _ => cellWf_nil _ | exact cellWf_write _ _ | exact cellWf_clear _ _ | exact cellWf_filter _)
    | dsimp only
    | split

theorem tileMoveWork_keeps {q : Base} : Keeps q tileMoveWork := by
  intros
  unfold tileMoveWork
  repeat' first
    | with_reducible assumption
    | with_reducible exact keeps_pure
    | with_reducible exact keeps_throw
    | with_reducible exact keeps_read
    | with_reducible apply keeps_get_bind
    | with_reducible exact keeps_get
    | with_reducible apply keeps_bind
    | with_reducible apply keeps_set
    | with_reducible apply keeps_modify
    | with_reducible apply keeps_forM
    | with_reducible apply keeps_mapM
    | with_reducible apply keeps_foldlM
    | with_reducible apply keeps_forIn
    | with_reducible apply keeps_tryCatch
    | with_reducible apply keeps_map
    | with_reducible apply keeps_seq
    | with_reducible apply moveCheck_keeps
    | with_reducible apply stopWith_keeps
    | with_reducible apply require_keeps
    | with_reducible apply copyRange_keeps
    | with_reducible apply placesCheck_keeps
    | with_reducible apply sound_foldl
    | with_reducible apply sound_foldl_fst
    | intro _
    | with_reducible apply keeps_ite
    | with_reducible apply sound_of_fst (by assumption)
    | with_reducible apply sound_of_some (by assumption)
    | with_reducible apply sound_of_snd (by assumption)
    | with_reducible apply sound_on
    | with_reducible apply sound_getD
    | (with_reducible refine sound_mk ?_ rfl rfl rfl rfl rfl rfl rfl; first | with_reducible assumption | with_reducible apply moveCheck_keeps | with_reducible apply stopWith_keeps | with_reducible apply require_keeps | with_reducible apply copyRange_keeps | with_reducible apply placesCheck_keeps | with_reducible apply sound_foldl | with_reducible apply sound_foldl_fst)
    | (with_reducible refine sound_mk_wf ?_ rfl ?_ ?_ ?_ ?_ rfl rfl <;> first | with_reducible assumption | with_reducible apply moveCheck_keeps | with_reducible apply stopWith_keeps | with_reducible apply require_keeps | with_reducible apply copyRange_keeps | with_reducible apply placesCheck_keeps | with_reducible apply sound_foldl | with_reducible apply sound_foldl_fst | exact id | exact fun _ => cellWf_nil _ | exact cellWf_write _ _ | exact cellWf_clear _ _ | exact cellWf_filter _)
    | dsimp only
    | split

theorem execTileMove_sound {q : Base} : ∀ a0 a1 {s : State}, Sound q s → OutSound q (execTileMove a0 a1 s) := by
  intros
  unfold execTileMove
  repeat' first
    | with_reducible assumption
    | with_reducible apply outSound_next
    | with_reducible apply State.runItem_sound
    | with_reducible apply tileMoveWork_keeps
    | with_reducible apply sound_foldl
    | with_reducible apply sound_foldl_fst
    | intro _
    | with_reducible apply sound_of_fst (by assumption)
    | with_reducible apply sound_of_some (by assumption)
    | with_reducible apply sound_of_snd (by assumption)
    | with_reducible apply sound_on
    | with_reducible apply sound_getD
    | (with_reducible refine sound_mk ?_ rfl rfl rfl rfl rfl rfl rfl; first | with_reducible assumption | with_reducible apply State.runItem_sound | with_reducible apply tileMoveWork_keeps | with_reducible apply sound_foldl | with_reducible apply sound_foldl_fst)
    | (with_reducible refine sound_mk_wf ?_ rfl ?_ ?_ ?_ ?_ rfl rfl <;> first | with_reducible assumption | with_reducible apply State.runItem_sound | with_reducible apply tileMoveWork_keeps | with_reducible apply sound_foldl | with_reducible apply sound_foldl_fst | exact id | exact fun _ => cellWf_nil _ | exact cellWf_write _ _ | exact cellWf_clear _ _ | exact cellWf_filter _)
    | dsimp only
    | split

theorem tileFillWork_keeps {q : Base} : Keeps q tileFillWork := by
  intros
  unfold tileFillWork
  repeat' first
    | with_reducible assumption
    | with_reducible exact keeps_pure
    | with_reducible exact keeps_throw
    | with_reducible exact keeps_read
    | with_reducible apply keeps_get_bind
    | with_reducible exact keeps_get
    | with_reducible apply keeps_bind
    | with_reducible apply keeps_set
    | with_reducible apply keeps_modify
    | with_reducible apply keeps_forM
    | with_reducible apply keeps_mapM
    | with_reducible apply keeps_foldlM
    | with_reducible apply keeps_forIn
    | with_reducible apply keeps_tryCatch
    | with_reducible apply keeps_map
    | with_reducible apply keeps_seq
    | with_reducible apply moveCheck_keeps
    | with_reducible apply stopWith_keeps
    | with_reducible apply sramStore_keeps
    | with_reducible apply require_keeps
    | with_reducible apply placeCheck_keeps
    | with_reducible apply placeRoute_keeps
    | with_reducible apply storeAt_keeps
    | with_reducible apply sound_foldl
    | with_reducible apply sound_foldl_fst
    | intro _
    | with_reducible apply keeps_ite
    | with_reducible apply sound_of_fst (by assumption)
    | with_reducible apply sound_of_some (by assumption)
    | with_reducible apply sound_of_snd (by assumption)
    | with_reducible apply sound_on
    | with_reducible apply sound_getD
    | (with_reducible refine sound_mk ?_ rfl rfl rfl rfl rfl rfl rfl; first | with_reducible assumption | with_reducible apply moveCheck_keeps | with_reducible apply stopWith_keeps | with_reducible apply sramStore_keeps | with_reducible apply require_keeps | with_reducible apply placeCheck_keeps | with_reducible apply placeRoute_keeps | with_reducible apply storeAt_keeps | with_reducible apply sound_foldl | with_reducible apply sound_foldl_fst)
    | (with_reducible refine sound_mk_wf ?_ rfl ?_ ?_ ?_ ?_ rfl rfl <;> first | with_reducible assumption | with_reducible apply moveCheck_keeps | with_reducible apply stopWith_keeps | with_reducible apply sramStore_keeps | with_reducible apply require_keeps | with_reducible apply placeCheck_keeps | with_reducible apply placeRoute_keeps | with_reducible apply storeAt_keeps | with_reducible apply sound_foldl | with_reducible apply sound_foldl_fst | exact id | exact fun _ => cellWf_nil _ | exact cellWf_write _ _ | exact cellWf_clear _ _ | exact cellWf_filter _)
    | dsimp only
    | split

theorem execTileFill_sound {q : Base} : ∀ a0 a1 {s : State}, Sound q s → OutSound q (execTileFill a0 a1 s) := by
  intros
  unfold execTileFill
  repeat' first
    | with_reducible assumption
    | with_reducible apply outSound_next
    | with_reducible apply State.runItem_sound
    | with_reducible apply tileFillWork_keeps
    | with_reducible apply sound_foldl
    | with_reducible apply sound_foldl_fst
    | intro _
    | with_reducible apply sound_of_fst (by assumption)
    | with_reducible apply sound_of_some (by assumption)
    | with_reducible apply sound_of_snd (by assumption)
    | with_reducible apply sound_on
    | with_reducible apply sound_getD
    | (with_reducible refine sound_mk ?_ rfl rfl rfl rfl rfl rfl rfl; first | with_reducible assumption | with_reducible apply State.runItem_sound | with_reducible apply tileFillWork_keeps | with_reducible apply sound_foldl | with_reducible apply sound_foldl_fst)
    | (with_reducible refine sound_mk_wf ?_ rfl ?_ ?_ ?_ ?_ rfl rfl <;> first | with_reducible assumption | with_reducible apply State.runItem_sound | with_reducible apply tileFillWork_keeps | with_reducible apply sound_foldl | with_reducible apply sound_foldl_fst | exact id | exact fun _ => cellWf_nil _ | exact cellWf_write _ _ | exact cellWf_clear _ _ | exact cellWf_filter _)
    | dsimp only
    | split

theorem quotaReadWork_keeps {q : Base} : Keeps q quotaReadWork := by
  intros
  unfold quotaReadWork
  repeat' first
    | with_reducible assumption
    | with_reducible exact keeps_pure
    | with_reducible exact keeps_throw
    | with_reducible exact keeps_read
    | with_reducible apply keeps_get_bind
    | with_reducible exact keeps_get
    | with_reducible apply keeps_bind
    | with_reducible apply keeps_set
    | with_reducible apply keeps_modify
    | with_reducible apply keeps_forM
    | with_reducible apply keeps_mapM
    | with_reducible apply keeps_foldlM
    | with_reducible apply keeps_forIn
    | with_reducible apply keeps_tryCatch
    | with_reducible apply keeps_map
    | with_reducible apply keeps_seq
    | with_reducible apply require_keeps
    | with_reducible apply payTail_keeps
    | with_reducible apply store_keeps
    | with_reducible apply requireManaged_keeps
    | with_reducible apply payZero_keeps
    | with_reducible apply pay_keeps
    | with_reducible apply sound_foldl
    | with_reducible apply sound_foldl_fst
    | intro _
    | with_reducible apply keeps_ite
    | with_reducible apply sound_of_fst (by assumption)
    | with_reducible apply sound_of_some (by assumption)
    | with_reducible apply sound_of_snd (by assumption)
    | with_reducible apply sound_on
    | with_reducible apply sound_getD
    | (with_reducible refine sound_mk ?_ rfl rfl rfl rfl rfl rfl rfl; first | with_reducible assumption | with_reducible apply require_keeps | with_reducible apply payTail_keeps | with_reducible apply store_keeps | with_reducible apply requireManaged_keeps | with_reducible apply payZero_keeps | with_reducible apply pay_keeps | with_reducible apply sound_foldl | with_reducible apply sound_foldl_fst)
    | (with_reducible refine sound_mk_wf ?_ rfl ?_ ?_ ?_ ?_ rfl rfl <;> first | with_reducible assumption | with_reducible apply require_keeps | with_reducible apply payTail_keeps | with_reducible apply store_keeps | with_reducible apply requireManaged_keeps | with_reducible apply payZero_keeps | with_reducible apply pay_keeps | with_reducible apply sound_foldl | with_reducible apply sound_foldl_fst | exact id | exact fun _ => cellWf_nil _ | exact cellWf_write _ _ | exact cellWf_clear _ _ | exact cellWf_filter _)
    | dsimp only
    | split

theorem execQuotaRead_sound {q : Base} : ∀ a0 a1 {s : State}, Sound q s → OutSound q (execQuotaRead a0 a1 s) := by
  intros
  unfold execQuotaRead
  repeat' first
    | with_reducible assumption
    | with_reducible apply outSound_next
    | with_reducible apply State.runItem_sound
    | with_reducible apply quotaReadWork_keeps
    | with_reducible apply sound_foldl
    | with_reducible apply sound_foldl_fst
    | intro _
    | with_reducible apply sound_of_fst (by assumption)
    | with_reducible apply sound_of_some (by assumption)
    | with_reducible apply sound_of_snd (by assumption)
    | with_reducible apply sound_on
    | with_reducible apply sound_getD
    | (with_reducible refine sound_mk ?_ rfl rfl rfl rfl rfl rfl rfl; first | with_reducible assumption | with_reducible apply State.runItem_sound | with_reducible apply quotaReadWork_keeps | with_reducible apply sound_foldl | with_reducible apply sound_foldl_fst)
    | (with_reducible refine sound_mk_wf ?_ rfl ?_ ?_ ?_ ?_ rfl rfl <;> first | with_reducible assumption | with_reducible apply State.runItem_sound | with_reducible apply quotaReadWork_keeps | with_reducible apply sound_foldl | with_reducible apply sound_foldl_fst | exact id | exact fun _ => cellWf_nil _ | exact cellWf_write _ _ | exact cellWf_clear _ _ | exact cellWf_filter _)
    | dsimp only
    | split

theorem State.askVolts_sound {q : Base} : ∀ {s : State} a1 a2, Sound q s → Sound q (State.askVolts s a1 a2) := by
  intros
  unfold State.askVolts
  repeat' first
    | with_reducible assumption
    | with_reducible apply State.emit_sound
    | with_reducible apply sound_foldl
    | with_reducible apply sound_foldl_fst
    | intro _
    | with_reducible apply sound_ite
    | with_reducible apply sound_of_fst (by assumption)
    | with_reducible apply sound_of_some (by assumption)
    | with_reducible apply sound_of_snd (by assumption)
    | with_reducible apply sound_on
    | with_reducible apply sound_getD
    | (with_reducible refine sound_mk ?_ rfl rfl rfl rfl rfl rfl rfl; first | with_reducible assumption | with_reducible apply State.emit_sound | with_reducible apply sound_foldl | with_reducible apply sound_foldl_fst)
    | (with_reducible refine sound_mk_wf ?_ rfl ?_ ?_ ?_ ?_ rfl rfl <;> first | with_reducible assumption | with_reducible apply State.emit_sound | with_reducible apply sound_foldl | with_reducible apply sound_foldl_fst | exact id | exact fun _ => cellWf_nil _ | exact cellWf_write _ _ | exact cellWf_clear _ _ | exact cellWf_filter _)
    | dsimp only
    | split

theorem State.setPoint_sound {q : Base} : ∀ {s : State} a1 a2 a3, Sound q s → Sound q (State.setPoint s a1 a2 a3) := by
  intros
  unfold State.setPoint
  repeat' first
    | with_reducible assumption
    | with_reducible apply State.setFlag_sound
    | with_reducible apply State.setFld_sound
    | with_reducible apply State.askVolts_sound
    | with_reducible apply sound_foldl
    | with_reducible apply sound_foldl_fst
    | intro _
    | with_reducible apply sound_ite
    | with_reducible apply sound_of_fst (by assumption)
    | with_reducible apply sound_of_some (by assumption)
    | with_reducible apply sound_of_snd (by assumption)
    | with_reducible apply sound_on
    | with_reducible apply sound_getD
    | (with_reducible refine sound_mk ?_ rfl rfl rfl rfl rfl rfl rfl; first | with_reducible assumption | with_reducible apply State.setFlag_sound | with_reducible apply State.setFld_sound | with_reducible apply State.askVolts_sound | with_reducible apply sound_foldl | with_reducible apply sound_foldl_fst)
    | (with_reducible refine sound_mk_wf ?_ rfl ?_ ?_ ?_ ?_ rfl rfl <;> first | with_reducible assumption | with_reducible apply State.setFlag_sound | with_reducible apply State.setFld_sound | with_reducible apply State.askVolts_sound | with_reducible apply sound_foldl | with_reducible apply sound_foldl_fst | exact id | exact fun _ => cellWf_nil _ | exact cellWf_write _ _ | exact cellWf_clear _ _ | exact cellWf_filter _)
    | dsimp only
    | split

theorem State.stepDown_sound {q : Base} : ∀ {s : State} a1, Sound q s → Sound q (State.stepDown s a1) := by
  intros
  unfold State.stepDown
  repeat' first
    | with_reducible assumption
    | with_reducible apply State.setPoint_sound
    | with_reducible apply sound_foldl
    | with_reducible apply sound_foldl_fst
    | intro _
    | with_reducible apply sound_ite
    | with_reducible apply sound_of_fst (by assumption)
    | with_reducible apply sound_of_some (by assumption)
    | with_reducible apply sound_of_snd (by assumption)
    | with_reducible apply sound_on
    | with_reducible apply sound_getD
    | (with_reducible refine sound_mk ?_ rfl rfl rfl rfl rfl rfl rfl; first | with_reducible assumption | with_reducible apply State.setPoint_sound | with_reducible apply sound_foldl | with_reducible apply sound_foldl_fst)
    | (with_reducible refine sound_mk_wf ?_ rfl ?_ ?_ ?_ ?_ rfl rfl <;> first | with_reducible assumption | with_reducible apply State.setPoint_sound | with_reducible apply sound_foldl | with_reducible apply sound_foldl_fst | exact id | exact fun _ => cellWf_nil _ | exact cellWf_write _ _ | exact cellWf_clear _ _ | exact cellWf_filter _)
    | dsimp only
    | split

theorem State.applyPoints_sound {q : Base} : ∀ {s : State}, Sound q s → Sound q (State.applyPoints s) := by
  intros
  unfold State.applyPoints
  repeat' first
    | with_reducible assumption
    | with_reducible apply State.setPoint_sound
    | with_reducible apply sound_foldl
    | with_reducible apply sound_foldl_fst
    | intro _
    | with_reducible apply sound_ite
    | with_reducible apply sound_of_fst (by assumption)
    | with_reducible apply sound_of_some (by assumption)
    | with_reducible apply sound_of_snd (by assumption)
    | with_reducible apply sound_on
    | with_reducible apply sound_getD
    | (with_reducible refine sound_mk ?_ rfl rfl rfl rfl rfl rfl rfl; first | with_reducible assumption | with_reducible apply State.setPoint_sound | with_reducible apply sound_foldl | with_reducible apply sound_foldl_fst)
    | (with_reducible refine sound_mk_wf ?_ rfl ?_ ?_ ?_ ?_ rfl rfl <;> first | with_reducible assumption | with_reducible apply State.setPoint_sound | with_reducible apply sound_foldl | with_reducible apply sound_foldl_fst | exact id | exact fun _ => cellWf_nil _ | exact cellWf_write _ _ | exact cellWf_clear _ _ | exact cellWf_filter _)
    | dsimp only
    | split

theorem State.readStack_sound {q : Base} : ∀ {s : State} a1 a2, Sound q s → Sound q (State.readStack s a1 a2) := by
  intros
  unfold State.readStack
  repeat' first
    | with_reducible assumption
    | with_reducible apply State.setFlag_sound
    | with_reducible apply State.setFld_sound
    | with_reducible apply State.startCoppice_sound
    | with_reducible apply State.stepDown_sound
    | with_reducible apply sound_foldl
    | with_reducible apply sound_foldl_fst
    | intro _
    | with_reducible apply sound_ite
    | with_reducible apply sound_of_fst (by assumption)
    | with_reducible apply sound_of_some (by assumption)
    | with_reducible apply sound_of_snd (by assumption)
    | with_reducible apply sound_on
    | with_reducible apply sound_getD
    | (with_reducible refine sound_mk ?_ rfl rfl rfl rfl rfl rfl rfl; first | with_reducible assumption | with_reducible apply State.setFlag_sound | with_reducible apply State.setFld_sound | with_reducible apply State.startCoppice_sound | with_reducible apply State.stepDown_sound | with_reducible apply sound_foldl | with_reducible apply sound_foldl_fst)
    | (with_reducible refine sound_mk_wf ?_ rfl ?_ ?_ ?_ ?_ rfl rfl <;> first | with_reducible assumption | with_reducible apply State.setFlag_sound | with_reducible apply State.setFld_sound | with_reducible apply State.startCoppice_sound | with_reducible apply State.stepDown_sound | with_reducible apply sound_foldl | with_reducible apply sound_foldl_fst | exact id | exact fun _ => cellWf_nil _ | exact cellWf_write _ _ | exact cellWf_clear _ _ | exact cellWf_filter _)
    | dsimp only
    | split

theorem execStackTempRead_sound {q : Base} : ∀ a0 a1 {s : State}, Sound q s → OutSound q (execStackTempRead a0 a1 s) := by
  intros
  unfold execStackTempRead
  repeat' first
    | with_reducible assumption
    | with_reducible apply outSound_next
    | with_reducible apply State.tick_sound
    | with_reducible apply State.readStack_sound
    | with_reducible apply sound_foldl
    | with_reducible apply sound_foldl_fst
    | intro _
    | with_reducible apply sound_of_fst (by assumption)
    | with_reducible apply sound_of_some (by assumption)
    | with_reducible apply sound_of_snd (by assumption)
    | with_reducible apply sound_on
    | with_reducible apply sound_getD
    | (with_reducible refine sound_mk ?_ rfl rfl rfl rfl rfl rfl rfl; first | with_reducible assumption | with_reducible apply State.tick_sound | with_reducible apply State.readStack_sound | with_reducible apply sound_foldl | with_reducible apply sound_foldl_fst)
    | (with_reducible refine sound_mk_wf ?_ rfl ?_ ?_ ?_ ?_ rfl rfl <;> first | with_reducible assumption | with_reducible apply State.tick_sound | with_reducible apply State.readStack_sound | with_reducible apply sound_foldl | with_reducible apply sound_foldl_fst | exact id | exact fun _ => cellWf_nil _ | exact cellWf_write _ _ | exact cellWf_clear _ _ | exact cellWf_filter _)
    | dsimp only
    | split

theorem State.remapLane_sound {q : Base} : ∀ {s : State} a1 a2 a3, Sound q s → Sound q (State.remapLane s a1 a2 a3) := by
  intros
  unfold State.remapLane
  repeat' first
    | with_reducible assumption
    | with_reducible apply State.memErr_sound
    | with_reducible apply State.saveRepairs_sound
    | with_reducible apply State.record_sound
    | with_reducible apply State.noSpare_sound
    | with_reducible apply sound_foldl
    | with_reducible apply sound_foldl_fst
    | intro _
    | with_reducible apply sound_ite
    | with_reducible apply sound_of_fst (by assumption)
    | with_reducible apply sound_of_some (by assumption)
    | with_reducible apply sound_of_snd (by assumption)
    | with_reducible apply sound_on
    | with_reducible apply sound_getD
    | (with_reducible refine sound_mk ?_ rfl rfl rfl rfl rfl rfl rfl; first | with_reducible assumption | with_reducible apply State.memErr_sound | with_reducible apply State.saveRepairs_sound | with_reducible apply State.record_sound | with_reducible apply State.noSpare_sound | with_reducible apply sound_foldl | with_reducible apply sound_foldl_fst)
    | (with_reducible refine sound_mk_wf ?_ rfl ?_ ?_ ?_ ?_ rfl rfl <;> first | with_reducible assumption | with_reducible apply State.memErr_sound | with_reducible apply State.saveRepairs_sound | with_reducible apply State.record_sound | with_reducible apply State.noSpare_sound | with_reducible apply sound_foldl | with_reducible apply sound_foldl_fst | exact id | exact fun _ => cellWf_nil _ | exact cellWf_write _ _ | exact cellWf_clear _ _ | exact cellWf_filter _)
    | dsimp only
    | split

theorem execLaneRemap_sound {q : Base} : ∀ a0 a1 a2 {s : State}, Sound q s → OutSound q (execLaneRemap a0 a1 a2 s) := by
  intros
  unfold execLaneRemap
  repeat' first
    | with_reducible assumption
    | with_reducible apply outSound_next
    | with_reducible apply State.remapLane_sound
    | with_reducible apply sound_foldl
    | with_reducible apply sound_foldl_fst
    | intro _
    | with_reducible apply sound_of_fst (by assumption)
    | with_reducible apply sound_of_some (by assumption)
    | with_reducible apply sound_of_snd (by assumption)
    | with_reducible apply sound_on
    | with_reducible apply sound_getD
    | (with_reducible refine sound_mk ?_ rfl rfl rfl rfl rfl rfl rfl; first | with_reducible assumption | with_reducible apply State.remapLane_sound | with_reducible apply sound_foldl | with_reducible apply sound_foldl_fst)
    | (with_reducible refine sound_mk_wf ?_ rfl ?_ ?_ ?_ ?_ rfl rfl <;> first | with_reducible assumption | with_reducible apply State.remapLane_sound | with_reducible apply sound_foldl | with_reducible apply sound_foldl_fst | exact id | exact fun _ => cellWf_nil _ | exact cellWf_write _ _ | exact cellWf_clear _ _ | exact cellWf_filter _)
    | dsimp only
    | split

theorem State.noteStuck_sound {q : Base} : ∀ {s : State} a1 a2, Sound q s → Sound q (State.noteStuck s a1 a2) := by
  intros
  unfold State.noteStuck
  repeat' first
    | with_reducible assumption
    | with_reducible apply sound_foldl
    | with_reducible apply sound_foldl_fst
    | intro _
    | with_reducible apply sound_ite
    | with_reducible apply sound_of_fst (by assumption)
    | with_reducible apply sound_of_some (by assumption)
    | with_reducible apply sound_of_snd (by assumption)
    | with_reducible apply sound_on
    | with_reducible apply sound_getD
    | (with_reducible refine sound_mk ?_ rfl rfl rfl rfl rfl rfl rfl; first | with_reducible assumption | with_reducible apply sound_foldl | with_reducible apply sound_foldl_fst)
    | (with_reducible refine sound_mk_wf ?_ rfl ?_ ?_ ?_ ?_ rfl rfl <;> first | with_reducible assumption | with_reducible apply sound_foldl | with_reducible apply sound_foldl_fst | exact id | exact fun _ => cellWf_nil _ | exact cellWf_write _ _ | exact cellWf_clear _ _ | exact cellWf_filter _)
    | dsimp only
    | split

theorem State.patrolWord_sound {q : Base} : ∀ {a0 : State} a1 a2 {a3 : State} a4, Sound q a0 → Sound q a3 → Sound q (State.patrolWord a0 a1 a2 a3 a4) := by
  intros
  unfold State.patrolWord
  repeat' first
    | with_reducible assumption
    | with_reducible apply State.badDevRead_sound
    | with_reducible apply State.meetWord_sound
    | with_reducible apply sound_foldl
    | with_reducible apply sound_foldl_fst
    | intro _
    | with_reducible apply sound_ite
    | with_reducible apply sound_of_fst (by assumption)
    | with_reducible apply sound_of_some (by assumption)
    | with_reducible apply sound_of_snd (by assumption)
    | with_reducible apply sound_on
    | with_reducible apply sound_getD
    | (with_reducible refine sound_mk ?_ rfl rfl rfl rfl rfl rfl rfl; first | with_reducible assumption | with_reducible apply State.badDevRead_sound | with_reducible apply State.meetWord_sound | with_reducible apply sound_foldl | with_reducible apply sound_foldl_fst)
    | (with_reducible refine sound_mk_wf ?_ rfl ?_ ?_ ?_ ?_ rfl rfl <;> first | with_reducible assumption | with_reducible apply State.badDevRead_sound | with_reducible apply State.meetWord_sound | with_reducible apply sound_foldl | with_reducible apply sound_foldl_fst | exact id | exact fun _ => cellWf_nil _ | exact cellWf_write _ _ | exact cellWf_clear _ _ | exact cellWf_filter _)
    | dsimp only
    | split

theorem State.patrolLine_sound {q : Base} : ∀ {s : State} a1 a2, Sound q s → Sound q (State.patrolLine s a1 a2) := by
  intros
  unfold State.patrolLine
  repeat' first
    | with_reducible assumption
    | with_reducible apply State.patrolWord_sound
    | with_reducible apply sound_foldl
    | with_reducible apply sound_foldl_fst
    | intro _
    | with_reducible apply sound_ite
    | with_reducible apply sound_of_fst (by assumption)
    | with_reducible apply sound_of_some (by assumption)
    | with_reducible apply sound_of_snd (by assumption)
    | with_reducible apply sound_on
    | with_reducible apply sound_getD
    | (with_reducible refine sound_mk ?_ rfl rfl rfl rfl rfl rfl rfl; first | with_reducible assumption | with_reducible apply State.patrolWord_sound | with_reducible apply sound_foldl | with_reducible apply sound_foldl_fst)
    | (with_reducible refine sound_mk_wf ?_ rfl ?_ ?_ ?_ ?_ rfl rfl <;> first | with_reducible assumption | with_reducible apply State.patrolWord_sound | with_reducible apply sound_foldl | with_reducible apply sound_foldl_fst | exact id | exact fun _ => cellWf_nil _ | exact cellWf_write _ _ | exact cellWf_clear _ _ | exact cellWf_filter _)
    | dsimp only
    | split

theorem State.noteOnDie_sound {q : Base} : ∀ {s : State} a1 a2, Sound q s → Sound q (State.noteOnDie s a1 a2) := by
  intros
  unfold State.noteOnDie
  repeat' first
    | with_reducible assumption
    | with_reducible apply State.memNoted_sound
    | with_reducible apply sound_foldl
    | with_reducible apply sound_foldl_fst
    | intro _
    | with_reducible apply sound_ite
    | with_reducible apply sound_of_fst (by assumption)
    | with_reducible apply sound_of_some (by assumption)
    | with_reducible apply sound_of_snd (by assumption)
    | with_reducible apply sound_on
    | with_reducible apply sound_getD
    | (with_reducible refine sound_mk ?_ rfl rfl rfl rfl rfl rfl rfl; first | with_reducible assumption | with_reducible apply State.memNoted_sound | with_reducible apply sound_foldl | with_reducible apply sound_foldl_fst)
    | (with_reducible refine sound_mk_wf ?_ rfl ?_ ?_ ?_ ?_ rfl rfl <;> first | with_reducible assumption | with_reducible apply State.memNoted_sound | with_reducible apply sound_foldl | with_reducible apply sound_foldl_fst | exact id | exact fun _ => cellWf_nil _ | exact cellWf_write _ _ | exact cellWf_clear _ _ | exact cellWf_filter _)
    | dsimp only
    | split

theorem State.patrol_sound {q : Base} : ∀ {s : State} a1 a2 a3, Sound q s → Sound q (State.patrol s a1 a2 a3) := by
  intros
  unfold State.patrol
  repeat' first
    | with_reducible assumption
    | with_reducible apply State.draw_sound
    | with_reducible apply State.patrolLine_sound
    | with_reducible apply State.noteOnDie_sound
    | with_reducible apply State.noteStuck_sound
    | with_reducible apply sound_foldl
    | with_reducible apply sound_foldl_fst
    | intro _
    | with_reducible apply sound_ite
    | with_reducible apply sound_of_fst (by assumption)
    | with_reducible apply sound_of_some (by assumption)
    | with_reducible apply sound_of_snd (by assumption)
    | with_reducible apply sound_on
    | with_reducible apply sound_getD
    | (with_reducible refine sound_mk ?_ rfl rfl rfl rfl rfl rfl rfl; first | with_reducible assumption | with_reducible apply State.draw_sound | with_reducible apply State.patrolLine_sound | with_reducible apply State.noteOnDie_sound | with_reducible apply State.noteStuck_sound | with_reducible apply sound_foldl | with_reducible apply sound_foldl_fst)
    | (with_reducible refine sound_mk_wf ?_ rfl ?_ ?_ ?_ ?_ rfl rfl <;> first | with_reducible assumption | with_reducible apply State.draw_sound | with_reducible apply State.patrolLine_sound | with_reducible apply State.noteOnDie_sound | with_reducible apply State.noteStuck_sound | with_reducible apply sound_foldl | with_reducible apply sound_foldl_fst | exact id | exact fun _ => cellWf_nil _ | exact cellWf_write _ _ | exact cellWf_clear _ _ | exact cellWf_filter _)
    | dsimp only
    | split

theorem execScrubPatrol_sound {q : Base} : ∀ a0 a1 a2 a3 {s : State}, Sound q s → OutSound q (execScrubPatrol a0 a1 a2 a3 s) := by
  intros
  unfold execScrubPatrol
  repeat' first
    | with_reducible assumption
    | with_reducible apply outSound_next
    | with_reducible apply State.tick_sound
    | with_reducible apply State.patrol_sound
    | with_reducible apply sound_foldl
    | with_reducible apply sound_foldl_fst
    | intro _
    | with_reducible apply sound_of_fst (by assumption)
    | with_reducible apply sound_of_some (by assumption)
    | with_reducible apply sound_of_snd (by assumption)
    | with_reducible apply sound_on
    | with_reducible apply sound_getD
    | (with_reducible refine sound_mk ?_ rfl rfl rfl rfl rfl rfl rfl; first | with_reducible assumption | with_reducible apply State.tick_sound | with_reducible apply State.patrol_sound | with_reducible apply sound_foldl | with_reducible apply sound_foldl_fst)
    | (with_reducible refine sound_mk_wf ?_ rfl ?_ ?_ ?_ ?_ rfl rfl <;> first | with_reducible assumption | with_reducible apply State.tick_sound | with_reducible apply State.patrol_sound | with_reducible apply sound_foldl | with_reducible apply sound_foldl_fst | exact id | exact fun _ => cellWf_nil _ | exact cellWf_write _ _ | exact cellWf_clear _ _ | exact cellWf_filter _)
    | dsimp only
    | split

theorem State.sweep_sound {q : Base} : ∀ {s : State} a1 a2, Sound q s → Sound q (State.sweep s a1 a2) := by
  intros
  unfold State.sweep
  repeat' first
    | with_reducible assumption
    | with_reducible apply State.draw_sound
    | with_reducible apply State.badSramRead_sound
    | with_reducible apply State.memErr_sound
    | with_reducible apply State.memCorrected_sound
    | with_reducible apply State.startCoppice_sound
    | with_reducible apply State.memNoted_sound
    | with_reducible apply sound_foldl
    | with_reducible apply sound_foldl_fst
    | intro _
    | with_reducible apply sound_ite
    | with_reducible apply sound_of_fst (by assumption)
    | with_reducible apply sound_of_some (by assumption)
    | with_reducible apply sound_of_snd (by assumption)
    | with_reducible apply sound_on
    | with_reducible apply sound_getD
    | (with_reducible refine sound_mk ?_ rfl rfl rfl rfl rfl rfl rfl; first | with_reducible assumption | with_reducible apply State.draw_sound | with_reducible apply State.badSramRead_sound | with_reducible apply State.memErr_sound | with_reducible apply State.memCorrected_sound | with_reducible apply State.startCoppice_sound | with_reducible apply State.memNoted_sound | with_reducible apply sound_foldl | with_reducible apply sound_foldl_fst)
    | (with_reducible refine sound_mk_wf ?_ rfl ?_ ?_ ?_ ?_ rfl rfl <;> first | with_reducible assumption | with_reducible apply State.draw_sound | with_reducible apply State.badSramRead_sound | with_reducible apply State.memErr_sound | with_reducible apply State.memCorrected_sound | with_reducible apply State.startCoppice_sound | with_reducible apply State.memNoted_sound | with_reducible apply sound_foldl | with_reducible apply sound_foldl_fst | exact id | exact fun _ => cellWf_nil _ | exact cellWf_write _ _ | exact cellWf_clear _ _ | exact cellWf_filter _)
    | dsimp only
    | split

theorem execSramSweep_sound {q : Base} : ∀ a0 a1 a2 {s : State}, Sound q s → OutSound q (execSramSweep a0 a1 a2 s) := by
  intros
  unfold execSramSweep
  repeat' first
    | with_reducible assumption
    | with_reducible apply outSound_next
    | with_reducible apply State.sweep_sound
    | with_reducible apply State.tick_sound
    | with_reducible apply sound_foldl
    | with_reducible apply sound_foldl_fst
    | intro _
    | with_reducible apply sound_of_fst (by assumption)
    | with_reducible apply sound_of_some (by assumption)
    | with_reducible apply sound_of_snd (by assumption)
    | with_reducible apply sound_on
    | with_reducible apply sound_getD
    | (with_reducible refine sound_mk ?_ rfl rfl rfl rfl rfl rfl rfl; first | with_reducible assumption | with_reducible apply State.sweep_sound | with_reducible apply State.tick_sound | with_reducible apply sound_foldl | with_reducible apply sound_foldl_fst)
    | (with_reducible refine sound_mk_wf ?_ rfl ?_ ?_ ?_ ?_ rfl rfl <;> first | with_reducible assumption | with_reducible apply State.sweep_sound | with_reducible apply State.tick_sound | with_reducible apply sound_foldl | with_reducible apply sound_foldl_fst | exact id | exact fun _ => cellWf_nil _ | exact cellWf_write _ _ | exact cellWf_clear _ _ | exact cellWf_filter _)
    | dsimp only
    | split

end Sys2Proof.Machine
end

