-- ==== Sys2Proof/Laws/KeepRemote.lean ====
section
/-! SUPPORT. What the operations of `Machine/Remote.lean` keep: the memories in canonical form and the queue. -/

set_option linter.unusedTactic false
set_option linter.unreachableTactic false

namespace Sys2Proof.Machine

theorem State.cancelContext_sound {q : Base} : ∀ {s : State} a1 a2, Sound q s → Sound q (State.cancelContext s a1 a2) := by
  intros
  unfold State.cancelContext
  repeat' first
    | with_reducible assumption
    | with_reducible apply State.endEarly_sound
    | with_reducible apply sound_foldl
    | with_reducible apply sound_foldl_fst
    | intro _
    | with_reducible apply sound_ite
    | with_reducible apply sound_of_fst (by assumption)
    | with_reducible apply sound_of_some (by assumption)
    | with_reducible apply sound_of_snd (by assumption)
    | with_reducible apply sound_on
    | with_reducible apply sound_getD
    | (with_reducible refine sound_mk ?_ rfl rfl rfl rfl rfl rfl rfl; first | with_reducible assumption | with_reducible apply State.endEarly_sound | with_reducible apply sound_foldl | with_reducible apply sound_foldl_fst)
    | dsimp only
    | split

theorem State.teardownSteps_sound {q : Base} : ∀ {s : State} a1 a2 a3, Sound q s → Sound q (State.teardownSteps s a1 a2 a3) := by
  intros
  unfold State.teardownSteps
  repeat' first
    | with_reducible assumption
    | with_reducible apply State.stopFeeds_sound
    | with_reducible apply State.cutFetched_sound
    | with_reducible apply State.setFld_sound
    | with_reducible apply State.cancelContext_sound
    | with_reducible apply sound_foldl
    | with_reducible apply sound_foldl_fst
    | intro _
    | with_reducible apply sound_ite
    | with_reducible apply sound_of_fst (by assumption)
    | with_reducible apply sound_of_some (by assumption)
    | with_reducible apply sound_of_snd (by assumption)
    | with_reducible apply sound_on
    | with_reducible apply sound_getD
    | (with_reducible refine sound_mk ?_ rfl rfl rfl rfl rfl rfl rfl; first | with_reducible assumption | with_reducible apply State.stopFeeds_sound | with_reducible apply State.cutFetched_sound | with_reducible apply State.setFld_sound | with_reducible apply State.cancelContext_sound | with_reducible apply sound_foldl | with_reducible apply sound_foldl_fst)
    | dsimp only
    | split

theorem State.beginTeardown_sound {q : Base} : ∀ {s : State} a1 a2 a3 a4, Sound q s → Sound q (State.beginTeardown s a1 a2 a3 a4) := by
  intros
  unfold State.beginTeardown
  repeat' first
    | with_reducible assumption
    | with_reducible apply State.teardownSteps_sound
    | with_reducible apply sound_foldl
    | with_reducible apply sound_foldl_fst
    | intro _
    | with_reducible apply sound_ite
    | with_reducible apply sound_of_fst (by assumption)
    | with_reducible apply sound_of_some (by assumption)
    | with_reducible apply sound_of_snd (by assumption)
    | with_reducible apply sound_on
    | with_reducible apply sound_getD
    | (with_reducible refine sound_mk ?_ rfl rfl rfl rfl rfl rfl rfl; first | with_reducible assumption | with_reducible apply State.teardownSteps_sound | with_reducible apply sound_foldl | with_reducible apply sound_foldl_fst)
    | dsimp only
    | split

theorem State.teardownMsg_sound {q : Base} : ∀ {s : State} a1, Sound q s → Sound q (State.teardownMsg s a1) := by
  intros
  unfold State.teardownMsg
  repeat' first
    | with_reducible assumption
    | with_reducible apply State.beginTeardown_sound
    | with_reducible apply sound_foldl
    | with_reducible apply sound_foldl_fst
    | intro _
    | with_reducible apply sound_ite
    | with_reducible apply sound_of_fst (by assumption)
    | with_reducible apply sound_of_some (by assumption)
    | with_reducible apply sound_of_snd (by assumption)
    | with_reducible apply sound_on
    | with_reducible apply sound_getD
    | (with_reducible refine sound_mk ?_ rfl rfl rfl rfl rfl rfl rfl; first | with_reducible assumption | with_reducible apply State.beginTeardown_sound | with_reducible apply sound_foldl | with_reducible apply sound_foldl_fst)
    | dsimp only
    | split

theorem execTeardownMessage_sound {q : Base} : ∀ a0 a1 {s : State}, Sound q s → OutSound q (execTeardownMessage a0 a1 s) := by
  intros
  unfold execTeardownMessage
  repeat' first
    | with_reducible assumption
    | with_reducible apply outSound_next
    | with_reducible apply State.teardownMsg_sound
    | with_reducible apply State.tick_sound
    | with_reducible apply sound_foldl
    | with_reducible apply sound_foldl_fst
    | intro _
    | with_reducible apply sound_of_fst (by assumption)
    | with_reducible apply sound_of_some (by assumption)
    | with_reducible apply sound_of_snd (by assumption)
    | with_reducible apply sound_on
    | with_reducible apply sound_getD
    | (with_reducible refine sound_mk ?_ rfl rfl rfl rfl rfl rfl rfl; first | with_reducible assumption | with_reducible apply State.teardownMsg_sound | with_reducible apply State.tick_sound | with_reducible apply sound_foldl | with_reducible apply sound_foldl_fst)
    | dsimp only
    | split

theorem State.teardownDrained_sound {q : Base} : ∀ {s : State} a1, Sound q s → Sound q (State.teardownDrained s a1) := by
  intros
  unfold State.teardownDrained
  repeat' first
    | with_reducible assumption
    | with_reducible apply State.originate_sound
    | with_reducible apply State.freeGranules_sound
    | with_reducible apply sound_foldl
    | with_reducible apply sound_foldl_fst
    | intro _
    | with_reducible apply sound_ite
    | with_reducible apply sound_of_fst (by assumption)
    | with_reducible apply sound_of_some (by assumption)
    | with_reducible apply sound_of_snd (by assumption)
    | with_reducible apply sound_on
    | with_reducible apply sound_getD
    | (with_reducible refine sound_mk ?_ rfl rfl rfl rfl rfl rfl rfl; first | with_reducible assumption | with_reducible apply State.originate_sound | with_reducible apply State.freeGranules_sound | with_reducible apply sound_foldl | with_reducible apply sound_foldl_fst)
    | dsimp only
    | split

theorem execTeardownDrainDone_sound {q : Base} : ∀ a0 a1 {s : State}, Sound q s → OutSound q (execTeardownDrainDone a0 a1 s) := by
  intros
  unfold execTeardownDrainDone
  repeat' first
    | with_reducible assumption
    | with_reducible apply outSound_next
    | with_reducible apply State.tick_sound
    | with_reducible apply State.teardownDrained_sound
    | with_reducible apply sound_foldl
    | with_reducible apply sound_foldl_fst
    | intro _
    | with_reducible apply sound_of_fst (by assumption)
    | with_reducible apply sound_of_some (by assumption)
    | with_reducible apply sound_of_snd (by assumption)
    | with_reducible apply sound_on
    | with_reducible apply sound_getD
    | (with_reducible refine sound_mk ?_ rfl rfl rfl rfl rfl rfl rfl; first | with_reducible assumption | with_reducible apply State.tick_sound | with_reducible apply State.teardownDrained_sound | with_reducible apply sound_foldl | with_reducible apply sound_foldl_fst)
    | dsimp only
    | split

theorem State.refuse_sound {q : Base} : ∀ {s : State} a1 a2, Sound q s → Sound q (State.refuse s a1 a2) := by
  intros
  unfold State.refuse
  repeat' first
    | with_reducible assumption
    | with_reducible apply State.respond_sound
    | with_reducible apply sound_foldl
    | with_reducible apply sound_foldl_fst
    | intro _
    | with_reducible apply sound_ite
    | with_reducible apply sound_of_fst (by assumption)
    | with_reducible apply sound_of_some (by assumption)
    | with_reducible apply sound_of_snd (by assumption)
    | with_reducible apply sound_on
    | with_reducible apply sound_getD
    | (with_reducible refine sound_mk ?_ rfl rfl rfl rfl rfl rfl rfl; first | with_reducible assumption | with_reducible apply State.respond_sound | with_reducible apply sound_foldl | with_reducible apply sound_foldl_fst)
    | dsimp only
    | split

theorem State.onRequest_sound {q : Base} {a2 : State → State} (hF : ∀ t, Sound q t → Sound q (a2 t)) : ∀ {s : State} a1, Sound q s → Sound q (State.onRequest s a1 a2) := by
  intros
  unfold State.onRequest
  repeat' first
    | with_reducible assumption
    | with_reducible apply State.dropAged_sound
    | with_reducible apply State.bump_sound
    | with_reducible apply State.refuse_sound
    | with_reducible apply State.beginTeardown_sound
    | with_reducible apply sound_foldl
    | with_reducible apply sound_foldl_fst
    | with_reducible apply hF
    | intro _
    | with_reducible apply sound_ite
    | with_reducible apply sound_of_fst (by assumption)
    | with_reducible apply sound_of_some (by assumption)
    | with_reducible apply sound_of_snd (by assumption)
    | with_reducible apply sound_on
    | with_reducible apply sound_getD
    | (with_reducible refine sound_mk ?_ rfl rfl rfl rfl rfl rfl rfl; first | with_reducible assumption | with_reducible apply State.dropAged_sound | with_reducible apply State.bump_sound | with_reducible apply State.refuse_sound | with_reducible apply State.beginTeardown_sound | with_reducible apply sound_foldl | with_reducible apply sound_foldl_fst)
    | dsimp only
    | split

theorem State.serveRead_sound {q : Base} : ∀ {s : State} a1, Sound q s → Sound q (State.serveRead s a1) := by
  intros
  unfold State.serveRead
  repeat' first
    | with_reducible assumption
    | with_reducible apply State.refuse_sound
    | with_reducible apply State.respond_sound
    | with_reducible apply State.readMem_sound
    | with_reducible apply sound_foldl
    | with_reducible apply sound_foldl_fst
    | intro _
    | with_reducible apply sound_ite
    | with_reducible apply sound_of_fst (by assumption)
    | with_reducible apply sound_of_some (by assumption)
    | with_reducible apply sound_of_snd (by assumption)
    | with_reducible apply sound_on
    | with_reducible apply sound_getD
    | (with_reducible refine sound_mk ?_ rfl rfl rfl rfl rfl rfl rfl; first | with_reducible assumption | with_reducible apply State.refuse_sound | with_reducible apply State.respond_sound | with_reducible apply State.readMem_sound | with_reducible apply sound_foldl | with_reducible apply sound_foldl_fst)
    | dsimp only
    | split

theorem State.serveWrite_sound {q : Base} : ∀ {s : State} a1, Sound q s → Sound q (State.serveWrite s a1) := by
  intros
  unfold State.serveWrite
  repeat' first
    | with_reducible assumption
    | with_reducible apply State.partRefused_sound
    | with_reducible apply State.refuse_sound
    | with_reducible apply State.respond_sound
    | with_reducible apply State.wakeDimmed_sound
    | with_reducible apply State.devWrite_sound
    | with_reducible apply sound_foldl
    | with_reducible apply sound_foldl_fst
    | intro _
    | with_reducible apply sound_ite
    | with_reducible apply sound_of_fst (by assumption)
    | with_reducible apply sound_of_some (by assumption)
    | with_reducible apply sound_of_snd (by assumption)
    | with_reducible apply sound_on
    | with_reducible apply sound_getD
    | (with_reducible refine sound_mk ?_ rfl rfl rfl rfl rfl rfl rfl; first | with_reducible assumption | with_reducible apply State.partRefused_sound | with_reducible apply State.refuse_sound | with_reducible apply State.respond_sound | with_reducible apply State.wakeDimmed_sound | with_reducible apply State.devWrite_sound | with_reducible apply sound_foldl | with_reducible apply sound_foldl_fst)
    | dsimp only
    | split

theorem State.readReq_sound {q : Base} : ∀ {s : State} a1, Sound q s → Sound q (State.readReq s a1) := by
  intros
  unfold State.readReq
  repeat' first
    | with_reducible assumption
    | with_reducible apply State.onRequest_sound
    | with_reducible apply State.refuse_sound
    | with_reducible apply State.serveRead_sound
    | with_reducible apply sound_foldl
    | with_reducible apply sound_foldl_fst
    | intro _
    | with_reducible apply sound_ite
    | with_reducible apply sound_of_fst (by assumption)
    | with_reducible apply sound_of_some (by assumption)
    | with_reducible apply sound_of_snd (by assumption)
    | with_reducible apply sound_on
    | with_reducible apply sound_getD
    | (with_reducible refine sound_mk ?_ rfl rfl rfl rfl rfl rfl rfl; first | with_reducible assumption | with_reducible apply State.onRequest_sound | with_reducible apply State.refuse_sound | with_reducible apply State.serveRead_sound | with_reducible apply sound_foldl | with_reducible apply sound_foldl_fst)
    | dsimp only
    | split

theorem execReadRequest_sound {q : Base} : ∀ a0 a1 {s : State}, Sound q s → OutSound q (execReadRequest a0 a1 s) := by
  intros
  unfold execReadRequest
  repeat' first
    | with_reducible assumption
    | with_reducible apply outSound_next
    | with_reducible apply State.tick_sound
    | with_reducible apply State.readReq_sound
    | with_reducible apply sound_foldl
    | with_reducible apply sound_foldl_fst
    | intro _
    | with_reducible apply sound_of_fst (by assumption)
    | with_reducible apply sound_of_some (by assumption)
    | with_reducible apply sound_of_snd (by assumption)
    | with_reducible apply sound_on
    | with_reducible apply sound_getD
    | (with_reducible refine sound_mk ?_ rfl rfl rfl rfl rfl rfl rfl; first | with_reducible assumption | with_reducible apply State.tick_sound | with_reducible apply State.readReq_sound | with_reducible apply sound_foldl | with_reducible apply sound_foldl_fst)
    | dsimp only
    | split

theorem State.writeReq_sound {q : Base} : ∀ {s : State} a1, Sound q s → Sound q (State.writeReq s a1) := by
  intros
  unfold State.writeReq
  repeat' first
    | with_reducible assumption
    | with_reducible apply State.onRequest_sound
    | with_reducible apply State.serveWrite_sound
    | with_reducible apply State.refuse_sound
    | with_reducible apply sound_foldl
    | with_reducible apply sound_foldl_fst
    | intro _
    | with_reducible apply sound_ite
    | with_reducible apply sound_of_fst (by assumption)
    | with_reducible apply sound_of_some (by assumption)
    | with_reducible apply sound_of_snd (by assumption)
    | with_reducible apply sound_on
    | with_reducible apply sound_getD
    | (with_reducible refine sound_mk ?_ rfl rfl rfl rfl rfl rfl rfl; first | with_reducible assumption | with_reducible apply State.onRequest_sound | with_reducible apply State.serveWrite_sound | with_reducible apply State.refuse_sound | with_reducible apply sound_foldl | with_reducible apply sound_foldl_fst)
    | dsimp only
    | split

theorem execWriteRequest_sound {q : Base} : ∀ a0 a1 {s : State}, Sound q s → OutSound q (execWriteRequest a0 a1 s) := by
  intros
  unfold execWriteRequest
  repeat' first
    | with_reducible assumption
    | with_reducible apply outSound_next
    | with_reducible apply State.writeReq_sound
    | with_reducible apply State.tick_sound
    | with_reducible apply sound_foldl
    | with_reducible apply sound_foldl_fst
    | intro _
    | with_reducible apply sound_of_fst (by assumption)
    | with_reducible apply sound_of_some (by assumption)
    | with_reducible apply sound_of_snd (by assumption)
    | with_reducible apply sound_on
    | with_reducible apply sound_getD
    | (with_reducible refine sound_mk ?_ rfl rfl rfl rfl rfl rfl rfl; first | with_reducible assumption | with_reducible apply State.writeReq_sound | with_reducible apply State.tick_sound | with_reducible apply sound_foldl | with_reducible apply sound_foldl_fst)
    | dsimp only
    | split

theorem State.serveAtomic_sound {q : Base} : ∀ {s : State} a1, Sound q s → Sound q (State.serveAtomic s a1) := by
  intros
  unfold State.serveAtomic
  repeat' first
    | with_reducible assumption
    | with_reducible apply State.partRefused_sound
    | with_reducible apply State.refuse_sound
    | with_reducible apply State.respond_sound
    | with_reducible apply State.atomic_sound
    | with_reducible apply sound_foldl
    | with_reducible apply sound_foldl_fst
    | intro _
    | with_reducible apply sound_ite
    | with_reducible apply sound_of_fst (by assumption)
    | with_reducible apply sound_of_some (by assumption)
    | with_reducible apply sound_of_snd (by assumption)
    | with_reducible apply sound_on
    | with_reducible apply sound_getD
    | (with_reducible refine sound_mk ?_ rfl rfl rfl rfl rfl rfl rfl; first | with_reducible assumption | with_reducible apply State.partRefused_sound | with_reducible apply State.refuse_sound | with_reducible apply State.respond_sound | with_reducible apply State.atomic_sound | with_reducible apply sound_foldl | with_reducible apply sound_foldl_fst)
    | dsimp only
    | split

theorem State.atomicReq_sound {q : Base} : ∀ {s : State} a1, Sound q s → Sound q (State.atomicReq s a1) := by
  intros
  unfold State.atomicReq
  repeat' first
    | with_reducible assumption
    | with_reducible apply State.onRequest_sound
    | with_reducible apply State.serveAtomic_sound
    | with_reducible apply sound_foldl
    | with_reducible apply sound_foldl_fst
    | intro _
    | with_reducible apply sound_ite
    | with_reducible apply sound_of_fst (by assumption)
    | with_reducible apply sound_of_some (by assumption)
    | with_reducible apply sound_of_snd (by assumption)
    | with_reducible apply sound_on
    | with_reducible apply sound_getD
    | (with_reducible refine sound_mk ?_ rfl rfl rfl rfl rfl rfl rfl; first | with_reducible assumption | with_reducible apply State.onRequest_sound | with_reducible apply State.serveAtomic_sound | with_reducible apply sound_foldl | with_reducible apply sound_foldl_fst)
    | dsimp only
    | split

theorem execAtomicRequest_sound {q : Base} : ∀ a0 a1 {s : State}, Sound q s → OutSound q (execAtomicRequest a0 a1 s) := by
  intros
  unfold execAtomicRequest
  repeat' first
    | with_reducible assumption
    | with_reducible apply outSound_next
    | with_reducible apply State.atomicReq_sound
    | with_reducible apply State.tick_sound
    | with_reducible apply sound_foldl
    | with_reducible apply sound_foldl_fst
    | intro _
    | with_reducible apply sound_of_fst (by assumption)
    | with_reducible apply sound_of_some (by assumption)
    | with_reducible apply sound_of_snd (by assumption)
    | with_reducible apply sound_on
    | with_reducible apply sound_getD
    | (with_reducible refine sound_mk ?_ rfl rfl rfl rfl rfl rfl rfl; first | with_reducible assumption | with_reducible apply State.atomicReq_sound | with_reducible apply State.tick_sound | with_reducible apply sound_foldl | with_reducible apply sound_foldl_fst)
    | dsimp only
    | split

theorem State.serveFlashRead_sound {q : Base} : ∀ {s : State} a1, Sound q s → Sound q (State.serveFlashRead s a1) := by
  intros
  unfold State.serveFlashRead
  repeat' first
    | with_reducible assumption
    | with_reducible apply State.refuse_sound
    | with_reducible apply State.flashCount_sound
    | with_reducible apply State.respond_sound
    | with_reducible apply sound_foldl
    | with_reducible apply sound_foldl_fst
    | intro _
    | with_reducible apply sound_ite
    | with_reducible apply sound_of_fst (by assumption)
    | with_reducible apply sound_of_some (by assumption)
    | with_reducible apply sound_of_snd (by assumption)
    | with_reducible apply sound_on
    | with_reducible apply sound_getD
    | (with_reducible refine sound_mk ?_ rfl rfl rfl rfl rfl rfl rfl; first | with_reducible assumption | with_reducible apply State.refuse_sound | with_reducible apply State.flashCount_sound | with_reducible apply State.respond_sound | with_reducible apply sound_foldl | with_reducible apply sound_foldl_fst)
    | dsimp only
    | split

theorem State.bulkReadReq_sound {q : Base} : ∀ {s : State} a1, Sound q s → Sound q (State.bulkReadReq s a1) := by
  intros
  unfold State.bulkReadReq
  repeat' first
    | with_reducible assumption
    | with_reducible apply State.onRequest_sound
    | with_reducible apply State.serveFlashRead_sound
    | with_reducible apply State.refuse_sound
    | with_reducible apply State.serveRead_sound
    | with_reducible apply sound_foldl
    | with_reducible apply sound_foldl_fst
    | intro _
    | with_reducible apply sound_ite
    | with_reducible apply sound_of_fst (by assumption)
    | with_reducible apply sound_of_some (by assumption)
    | with_reducible apply sound_of_snd (by assumption)
    | with_reducible apply sound_on
    | with_reducible apply sound_getD
    | (with_reducible refine sound_mk ?_ rfl rfl rfl rfl rfl rfl rfl; first | with_reducible assumption | with_reducible apply State.onRequest_sound | with_reducible apply State.serveFlashRead_sound | with_reducible apply State.refuse_sound | with_reducible apply State.serveRead_sound | with_reducible apply sound_foldl | with_reducible apply sound_foldl_fst)
    | dsimp only
    | split

theorem execBulkReadRequest_sound {q : Base} : ∀ a0 a1 {s : State}, Sound q s → OutSound q (execBulkReadRequest a0 a1 s) := by
  intros
  unfold execBulkReadRequest
  repeat' first
    | with_reducible assumption
    | with_reducible apply outSound_next
    | with_reducible apply State.bulkReadReq_sound
    | with_reducible apply State.tick_sound
    | with_reducible apply sound_foldl
    | with_reducible apply sound_foldl_fst
    | intro _
    | with_reducible apply sound_of_fst (by assumption)
    | with_reducible apply sound_of_some (by assumption)
    | with_reducible apply sound_of_snd (by assumption)
    | with_reducible apply sound_on
    | with_reducible apply sound_getD
    | (with_reducible refine sound_mk ?_ rfl rfl rfl rfl rfl rfl rfl; first | with_reducible assumption | with_reducible apply State.bulkReadReq_sound | with_reducible apply State.tick_sound | with_reducible apply sound_foldl | with_reducible apply sound_foldl_fst)
    | dsimp only
    | split

theorem State.judgeInbound_sound {q : Base} : ∀ {s : State} a1, Sound q s → Sound q (State.judgeInbound s a1) := by
  intros
  unfold State.judgeInbound
  repeat' first
    | with_reducible assumption
    | with_reducible apply State.refuse_sound
    | with_reducible apply State.enterPrograms_sound
    | with_reducible apply State.giveData_sound
    | with_reducible apply State.countDeferred_sound
    | with_reducible apply State.passPrograms_sound
    | with_reducible apply sound_foldl
    | with_reducible apply sound_foldl_fst
    | intro _
    | with_reducible apply sound_ite
    | with_reducible apply sound_of_fst (by assumption)
    | with_reducible apply sound_of_some (by assumption)
    | with_reducible apply sound_of_snd (by assumption)
    | with_reducible apply sound_on
    | with_reducible apply sound_getD
    | (with_reducible refine sound_mk ?_ rfl rfl rfl rfl rfl rfl rfl; first | with_reducible assumption | with_reducible apply State.refuse_sound | with_reducible apply State.enterPrograms_sound | with_reducible apply State.giveData_sound | with_reducible apply State.countDeferred_sound | with_reducible apply State.passPrograms_sound | with_reducible apply sound_foldl | with_reducible apply sound_foldl_fst)
    | dsimp only
    | split

theorem State.serveFlashWrite_sound {q : Base} : ∀ {s : State} a1, Sound q s → Sound q (State.serveFlashWrite s a1) := by
  intros
  unfold State.serveFlashWrite
  repeat' first
    | with_reducible assumption
    | with_reducible apply State.judgeInbound_sound
    | with_reducible apply State.refuse_sound
    | with_reducible apply sound_foldl
    | with_reducible apply sound_foldl_fst
    | intro _
    | with_reducible apply sound_ite
    | with_reducible apply sound_of_fst (by assumption)
    | with_reducible apply sound_of_some (by assumption)
    | with_reducible apply sound_of_snd (by assumption)
    | with_reducible apply sound_on
    | with_reducible apply sound_getD
    | (with_reducible refine sound_mk ?_ rfl rfl rfl rfl rfl rfl rfl; first | with_reducible assumption | with_reducible apply State.judgeInbound_sound | with_reducible apply State.refuse_sound | with_reducible apply sound_foldl | with_reducible apply sound_foldl_fst)
    | dsimp only
    | split

theorem State.bulkWriteReq_sound {q : Base} : ∀ {s : State} a1, Sound q s → Sound q (State.bulkWriteReq s a1) := by
  intros
  unfold State.bulkWriteReq
  repeat' first
    | with_reducible assumption
    | with_reducible apply State.onRequest_sound
    | with_reducible apply State.serveWrite_sound
    | with_reducible apply State.refuse_sound
    | with_reducible apply State.serveFlashWrite_sound
    | with_reducible apply sound_foldl
    | with_reducible apply sound_foldl_fst
    | intro _
    | with_reducible apply sound_ite
    | with_reducible apply sound_of_fst (by assumption)
    | with_reducible apply sound_of_some (by assumption)
    | with_reducible apply sound_of_snd (by assumption)
    | with_reducible apply sound_on
    | with_reducible apply sound_getD
    | (with_reducible refine sound_mk ?_ rfl rfl rfl rfl rfl rfl rfl; first | with_reducible assumption | with_reducible apply State.onRequest_sound | with_reducible apply State.serveWrite_sound | with_reducible apply State.refuse_sound | with_reducible apply State.serveFlashWrite_sound | with_reducible apply sound_foldl | with_reducible apply sound_foldl_fst)
    | dsimp only
    | split

theorem execBulkWriteRequest_sound {q : Base} : ∀ a0 a1 {s : State}, Sound q s → OutSound q (execBulkWriteRequest a0 a1 s) := by
  intros
  unfold execBulkWriteRequest
  repeat' first
    | with_reducible assumption
    | with_reducible apply outSound_next
    | with_reducible apply State.tick_sound
    | with_reducible apply State.bulkWriteReq_sound
    | with_reducible apply sound_foldl
    | with_reducible apply sound_foldl_fst
    | intro _
    | with_reducible apply sound_of_fst (by assumption)
    | with_reducible apply sound_of_some (by assumption)
    | with_reducible apply sound_of_snd (by assumption)
    | with_reducible apply sound_on
    | with_reducible apply sound_getD
    | (with_reducible refine sound_mk ?_ rfl rfl rfl rfl rfl rfl rfl; first | with_reducible assumption | with_reducible apply State.tick_sound | with_reducible apply State.bulkWriteReq_sound | with_reducible apply sound_foldl | with_reducible apply sound_foldl_fst)
    | dsimp only
    | split

theorem State.lateWork_sound {q : Base} : ∀ {s : State}, Sound q s → Sound q (State.lateWork s) := by
  intros
  unfold State.lateWork
  repeat' first
    | with_reducible assumption
    | with_reducible apply State.teardownMsg_sound
    | with_reducible apply State.atomicReq_sound
    | with_reducible apply State.bulkReadReq_sound
    | with_reducible apply State.writeReq_sound
    | with_reducible apply State.bulkWriteReq_sound
    | with_reducible apply State.readReq_sound
    | with_reducible apply sound_foldl
    | with_reducible apply sound_foldl_fst
    | intro _
    | with_reducible apply sound_ite
    | with_reducible apply sound_of_fst (by assumption)
    | with_reducible apply sound_of_some (by assumption)
    | with_reducible apply sound_of_snd (by assumption)
    | with_reducible apply sound_on
    | with_reducible apply sound_getD
    | (with_reducible refine sound_mk ?_ rfl rfl rfl rfl rfl rfl rfl; first | with_reducible assumption | with_reducible apply State.teardownMsg_sound | with_reducible apply State.atomicReq_sound | with_reducible apply State.bulkReadReq_sound | with_reducible apply State.writeReq_sound | with_reducible apply State.bulkWriteReq_sound | with_reducible apply State.readReq_sound | with_reducible apply sound_foldl | with_reducible apply sound_foldl_fst)
    | dsimp only
    | split

theorem State.checkFences_sound {q : Base} : ∀ {s : State}, Sound q s → Sound q (State.checkFences s) := by
  intros
  unfold State.checkFences
  repeat' first
    | with_reducible assumption
    | with_reducible apply State.closeItem_sound
    | with_reducible apply State.noteCycles_sound
    | with_reducible apply sound_foldl
    | with_reducible apply sound_foldl_fst
    | intro _
    | with_reducible apply sound_ite
    | with_reducible apply sound_of_fst (by assumption)
    | with_reducible apply sound_of_some (by assumption)
    | with_reducible apply sound_of_snd (by assumption)
    | with_reducible apply sound_on
    | with_reducible apply sound_getD
    | (with_reducible refine sound_mk ?_ rfl rfl rfl rfl rfl rfl rfl; first | with_reducible assumption | with_reducible apply State.closeItem_sound | with_reducible apply State.noteCycles_sound | with_reducible apply sound_foldl | with_reducible apply sound_foldl_fst)
    | dsimp only
    | split

theorem State.endRequest_sound {q : Base} : ∀ {s : State} a1, Sound q s → Sound q (State.endRequest s a1) := by
  intros
  unfold State.endRequest
  repeat' first
    | with_reducible assumption
    | with_reducible apply State.checkFences_sound
    | with_reducible apply sound_foldl
    | with_reducible apply sound_foldl_fst
    | intro _
    | with_reducible apply sound_ite
    | with_reducible apply sound_of_fst (by assumption)
    | with_reducible apply sound_of_some (by assumption)
    | with_reducible apply sound_of_snd (by assumption)
    | with_reducible apply sound_on
    | with_reducible apply sound_getD
    | (with_reducible refine sound_mk ?_ rfl rfl rfl rfl rfl rfl rfl; first | with_reducible assumption | with_reducible apply State.checkFences_sound | with_reducible apply sound_foldl | with_reducible apply sound_foldl_fst)
    | dsimp only
    | split

theorem State.ackItem_sound {q : Base} : ∀ {s : State} a1 a2, Sound q s → Sound q (State.ackItem s a1 a2) := by
  intros
  unfold State.ackItem
  repeat' first
    | with_reducible assumption
    | with_reducible apply State.endItem_sound
    | with_reducible apply sound_foldl
    | with_reducible apply sound_foldl_fst
    | intro _
    | with_reducible apply sound_ite
    | with_reducible apply sound_of_fst (by assumption)
    | with_reducible apply sound_of_some (by assumption)
    | with_reducible apply sound_of_snd (by assumption)
    | with_reducible apply sound_on
    | with_reducible apply sound_getD
    | (with_reducible refine sound_mk ?_ rfl rfl rfl rfl rfl rfl rfl; first | with_reducible assumption | with_reducible apply State.endItem_sound | with_reducible apply sound_foldl | with_reducible apply sound_foldl_fst)
    | dsimp only
    | split

theorem State.takeData_sound {q : Base} : ∀ {s : State} a1, Sound q s → Sound q (State.takeData s a1) := by
  intros
  unfold State.takeData
  repeat' first
    | with_reducible assumption
    | with_reducible apply State.joinArrived_sound
    | with_reducible apply State.onItem_sound
    | with_reducible apply State.clipArrived_sound
    | with_reducible apply State.endRequest_sound
    | with_reducible apply sound_foldl
    | with_reducible apply sound_foldl_fst
    | intro _
    | with_reducible apply sound_ite
    | with_reducible apply sound_of_fst (by assumption)
    | with_reducible apply sound_of_some (by assumption)
    | with_reducible apply sound_of_snd (by assumption)
    | with_reducible apply sound_on
    | with_reducible apply sound_getD
    | (with_reducible refine sound_mk ?_ rfl rfl rfl rfl rfl rfl rfl; first | with_reducible assumption | with_reducible apply State.joinArrived_sound | with_reducible apply State.onItem_sound | with_reducible apply State.clipArrived_sound | with_reducible apply State.endRequest_sound | with_reducible apply sound_foldl | with_reducible apply sound_foldl_fst)
    | dsimp only
    | split

theorem execReadData_sound {q : Base} : ∀ a0 {s : State}, Sound q s → OutSound q (execReadData a0 s) := by
  intros
  unfold execReadData
  repeat' first
    | with_reducible assumption
    | with_reducible apply outSound_next
    | with_reducible apply State.takeData_sound
    | with_reducible apply sound_foldl
    | with_reducible apply sound_foldl_fst
    | intro _
    | with_reducible apply sound_of_fst (by assumption)
    | with_reducible apply sound_of_some (by assumption)
    | with_reducible apply sound_of_snd (by assumption)
    | with_reducible apply sound_on
    | with_reducible apply sound_getD
    | (with_reducible refine sound_mk ?_ rfl rfl rfl rfl rfl rfl rfl; first | with_reducible assumption | with_reducible apply State.takeData_sound | with_reducible apply sound_foldl | with_reducible apply sound_foldl_fst)
    | dsimp only
    | split

theorem State.takeAck_sound {q : Base} : ∀ {s : State} a1, Sound q s → Sound q (State.takeAck s a1) := by
  intros
  unfold State.takeAck
  repeat' first
    | with_reducible assumption
    | with_reducible apply State.ackItem_sound
    | with_reducible apply State.endRequest_sound
    | with_reducible apply sound_foldl
    | with_reducible apply sound_foldl_fst
    | intro _
    | with_reducible apply sound_ite
    | with_reducible apply sound_of_fst (by assumption)
    | with_reducible apply sound_of_some (by assumption)
    | with_reducible apply sound_of_snd (by assumption)
    | with_reducible apply sound_on
    | with_reducible apply sound_getD
    | (with_reducible refine sound_mk ?_ rfl rfl rfl rfl rfl rfl rfl; first | with_reducible assumption | with_reducible apply State.ackItem_sound | with_reducible apply State.endRequest_sound | with_reducible apply sound_foldl | with_reducible apply sound_foldl_fst)
    | dsimp only
    | split

theorem execWriteAck_sound {q : Base} : ∀ a0 {s : State}, Sound q s → OutSound q (execWriteAck a0 s) := by
  intros
  unfold execWriteAck
  repeat' first
    | with_reducible assumption
    | with_reducible apply outSound_next
    | with_reducible apply State.takeAck_sound
    | with_reducible apply sound_foldl
    | with_reducible apply sound_foldl_fst
    | intro _
    | with_reducible apply sound_of_fst (by assumption)
    | with_reducible apply sound_of_some (by assumption)
    | with_reducible apply sound_of_snd (by assumption)
    | with_reducible apply sound_on
    | with_reducible apply sound_getD
    | (with_reducible refine sound_mk ?_ rfl rfl rfl rfl rfl rfl rfl; first | with_reducible assumption | with_reducible apply State.takeAck_sound | with_reducible apply sound_foldl | with_reducible apply sound_foldl_fst)
    | dsimp only
    | split

theorem State.putResult_sound {q : Base} : ∀ {s : State} a1 a2 a3 a4, Sound q s → Sound q (State.putResult s a1 a2 a3 a4) := by
  intros
  unfold State.putResult
  repeat' first
    | with_reducible assumption
    | with_reducible apply State.endEarly_sound
    | with_reducible apply State.partRefused_sound
    | with_reducible apply State.closeItem_sound
    | with_reducible apply State.sendRequest_sound
    | with_reducible apply State.devWrite_sound
    | with_reducible apply State.noteCycles_sound
    | with_reducible apply sound_foldl
    | with_reducible apply sound_foldl_fst
    | intro _
    | with_reducible apply sound_ite
    | with_reducible apply sound_of_fst (by assumption)
    | with_reducible apply sound_of_some (by assumption)
    | with_reducible apply sound_of_snd (by assumption)
    | with_reducible apply sound_on
    | with_reducible apply sound_getD
    | (with_reducible refine sound_mk ?_ rfl rfl rfl rfl rfl rfl rfl; first | with_reducible assumption | with_reducible apply State.endEarly_sound | with_reducible apply State.partRefused_sound | with_reducible apply State.closeItem_sound | with_reducible apply State.sendRequest_sound | with_reducible apply State.devWrite_sound | with_reducible apply State.noteCycles_sound | with_reducible apply sound_foldl | with_reducible apply sound_foldl_fst)
    | dsimp only
    | split

theorem State.takeResult_sound {q : Base} : ∀ {s : State} a1, Sound q s → Sound q (State.takeResult s a1) := by
  intros
  unfold State.takeResult
  repeat' first
    | with_reducible assumption
    | with_reducible apply State.onItem_sound
    | with_reducible apply State.putResult_sound
    | with_reducible apply State.ackItem_sound
    | with_reducible apply State.endRequest_sound
    | with_reducible apply sound_foldl
    | with_reducible apply sound_foldl_fst
    | intro _
    | with_reducible apply sound_ite
    | with_reducible apply sound_of_fst (by assumption)
    | with_reducible apply sound_of_some (by assumption)
    | with_reducible apply sound_of_snd (by assumption)
    | with_reducible apply sound_on
    | with_reducible apply sound_getD
    | (with_reducible refine sound_mk ?_ rfl rfl rfl rfl rfl rfl rfl; first | with_reducible assumption | with_reducible apply State.onItem_sound | with_reducible apply State.putResult_sound | with_reducible apply State.ackItem_sound | with_reducible apply State.endRequest_sound | with_reducible apply sound_foldl | with_reducible apply sound_foldl_fst)
    | dsimp only
    | split

theorem execAtomicResult_sound {q : Base} : ∀ a0 {s : State}, Sound q s → OutSound q (execAtomicResult a0 s) := by
  intros
  unfold execAtomicResult
  repeat' first
    | with_reducible assumption
    | with_reducible apply outSound_next
    | with_reducible apply State.takeResult_sound
    | with_reducible apply sound_foldl
    | with_reducible apply sound_foldl_fst
    | intro _
    | with_reducible apply sound_of_fst (by assumption)
    | with_reducible apply sound_of_some (by assumption)
    | with_reducible apply sound_of_snd (by assumption)
    | with_reducible apply sound_on
    | with_reducible apply sound_getD
    | (with_reducible refine sound_mk ?_ rfl rfl rfl rfl rfl rfl rfl; first | with_reducible assumption | with_reducible apply State.takeResult_sound | with_reducible apply sound_foldl | with_reducible apply sound_foldl_fst)
    | dsimp only
    | split

theorem State.failItem_sound {q : Base} : ∀ {s : State} a1 a2 a3 a4 a5, Sound q s → Sound q (State.failItem s a1 a2 a3 a4 a5) := by
  intros
  unfold State.failItem
  repeat' first
    | with_reducible assumption
    | with_reducible apply State.endEarly_sound
    | with_reducible apply State.onItem_sound
    | with_reducible apply sound_foldl
    | with_reducible apply sound_foldl_fst
    | intro _
    | with_reducible apply sound_ite
    | with_reducible apply sound_of_fst (by assumption)
    | with_reducible apply sound_of_some (by assumption)
    | with_reducible apply sound_of_snd (by assumption)
    | with_reducible apply sound_on
    | with_reducible apply sound_getD
    | (with_reducible refine sound_mk ?_ rfl rfl rfl rfl rfl rfl rfl; first | with_reducible assumption | with_reducible apply State.endEarly_sound | with_reducible apply State.onItem_sound | with_reducible apply sound_foldl | with_reducible apply sound_foldl_fst)
    | dsimp only
    | split

theorem State.failRequest_sound {q : Base} : ∀ {s : State} a1 a2 a3, Sound q s → Sound q (State.failRequest s a1 a2 a3) := by
  intros
  unfold State.failRequest
  repeat' first
    | with_reducible assumption
    | with_reducible apply State.failItem_sound
    | with_reducible apply State.declareLost_sound
    | with_reducible apply State.clipRefused_sound
    | with_reducible apply State.endRequest_sound
    | with_reducible apply sound_foldl
    | with_reducible apply sound_foldl_fst
    | intro _
    | with_reducible apply sound_ite
    | with_reducible apply sound_of_fst (by assumption)
    | with_reducible apply sound_of_some (by assumption)
    | with_reducible apply sound_of_snd (by assumption)
    | with_reducible apply sound_on
    | with_reducible apply sound_getD
    | (with_reducible refine sound_mk ?_ rfl rfl rfl rfl rfl rfl rfl; first | with_reducible assumption | with_reducible apply State.failItem_sound | with_reducible apply State.declareLost_sound | with_reducible apply State.clipRefused_sound | with_reducible apply State.endRequest_sound | with_reducible apply sound_foldl | with_reducible apply sound_foldl_fst)
    | dsimp only
    | split

theorem State.takeError_sound {q : Base} : ∀ {s : State} a1, Sound q s → Sound q (State.takeError s a1) := by
  intros
  unfold State.takeError
  repeat' first
    | with_reducible assumption
    | with_reducible apply State.failRequest_sound
    | with_reducible apply sound_foldl
    | with_reducible apply sound_foldl_fst
    | intro _
    | with_reducible apply sound_ite
    | with_reducible apply sound_of_fst (by assumption)
    | with_reducible apply sound_of_some (by assumption)
    | with_reducible apply sound_of_snd (by assumption)
    | with_reducible apply sound_on
    | with_reducible apply sound_getD
    | (with_reducible refine sound_mk ?_ rfl rfl rfl rfl rfl rfl rfl; first | with_reducible assumption | with_reducible apply State.failRequest_sound | with_reducible apply sound_foldl | with_reducible apply sound_foldl_fst)
    | dsimp only
    | split

theorem execErrorResponse_sound {q : Base} : ∀ a0 a1 {s : State}, Sound q s → OutSound q (execErrorResponse a0 a1 s) := by
  intros
  unfold execErrorResponse
  repeat' first
    | with_reducible assumption
    | with_reducible apply outSound_next
    | with_reducible apply State.takeError_sound
    | with_reducible apply State.tick_sound
    | with_reducible apply sound_foldl
    | with_reducible apply sound_foldl_fst
    | intro _
    | with_reducible apply sound_of_fst (by assumption)
    | with_reducible apply sound_of_some (by assumption)
    | with_reducible apply sound_of_snd (by assumption)
    | with_reducible apply sound_on
    | with_reducible apply sound_getD
    | (with_reducible refine sound_mk ?_ rfl rfl rfl rfl rfl rfl rfl; first | with_reducible assumption | with_reducible apply State.takeError_sound | with_reducible apply State.tick_sound | with_reducible apply sound_foldl | with_reducible apply sound_foldl_fst)
    | dsimp only
    | split

theorem State.timeOut_sound {q : Base} : ∀ {s : State} a1, Sound q s → Sound q (State.timeOut s a1) := by
  intros
  unfold State.timeOut
  repeat' first
    | with_reducible assumption
    | with_reducible apply State.failRequest_sound
    | with_reducible apply sound_foldl
    | with_reducible apply sound_foldl_fst
    | intro _
    | with_reducible apply sound_ite
    | with_reducible apply sound_of_fst (by assumption)
    | with_reducible apply sound_of_some (by assumption)
    | with_reducible apply sound_of_snd (by assumption)
    | with_reducible apply sound_on
    | with_reducible apply sound_getD
    | (with_reducible refine sound_mk ?_ rfl rfl rfl rfl rfl rfl rfl; first | with_reducible assumption | with_reducible apply State.failRequest_sound | with_reducible apply sound_foldl | with_reducible apply sound_foldl_fst)
    | dsimp only
    | split

theorem execResponseTimeout_sound {q : Base} : ∀ a0 a1 {s : State}, Sound q s → OutSound q (execResponseTimeout a0 a1 s) := by
  intros
  unfold execResponseTimeout
  repeat' first
    | with_reducible assumption
    | with_reducible apply outSound_next
    | with_reducible apply State.tick_sound
    | with_reducible apply State.timeOut_sound
    | with_reducible apply sound_foldl
    | with_reducible apply sound_foldl_fst
    | intro _
    | with_reducible apply sound_of_fst (by assumption)
    | with_reducible apply sound_of_some (by assumption)
    | with_reducible apply sound_of_snd (by assumption)
    | with_reducible apply sound_on
    | with_reducible apply sound_getD
    | (with_reducible refine sound_mk ?_ rfl rfl rfl rfl rfl rfl rfl; first | with_reducible assumption | with_reducible apply State.tick_sound | with_reducible apply State.timeOut_sound | with_reducible apply sound_foldl | with_reducible apply sound_foldl_fst)
    | dsimp only
    | split

theorem State.detachedMsg_sound {q : Base} : ∀ {s : State} a1, Sound q s → Sound q (State.detachedMsg s a1) := by
  intros
  unfold State.detachedMsg
  repeat' first
    | with_reducible assumption
    | with_reducible apply State.onFlood_sound
    | with_reducible apply State.declareLost_sound
    | with_reducible apply sound_foldl
    | with_reducible apply sound_foldl_fst
    | intro _
    | with_reducible apply sound_ite
    | with_reducible apply sound_of_fst (by assumption)
    | with_reducible apply sound_of_some (by assumption)
    | with_reducible apply sound_of_snd (by assumption)
    | with_reducible apply sound_on
    | with_reducible apply sound_getD
    | (with_reducible refine sound_mk ?_ rfl rfl rfl rfl rfl rfl rfl; first | with_reducible assumption | with_reducible apply State.onFlood_sound | with_reducible apply State.declareLost_sound | with_reducible apply sound_foldl | with_reducible apply sound_foldl_fst)
    | dsimp only
    | split

theorem execDetachedNotice_sound {q : Base} : ∀ a0 a1 a2 {s : State}, Sound q s → OutSound q (execDetachedNotice a0 a1 a2 s) := by
  intros
  unfold execDetachedNotice
  repeat' first
    | with_reducible assumption
    | with_reducible apply outSound_next
    | with_reducible apply State.detachedMsg_sound
    | with_reducible apply State.tick_sound
    | with_reducible apply sound_foldl
    | with_reducible apply sound_foldl_fst
    | intro _
    | with_reducible apply sound_of_fst (by assumption)
    | with_reducible apply sound_of_some (by assumption)
    | with_reducible apply sound_of_snd (by assumption)
    | with_reducible apply sound_on
    | with_reducible apply sound_getD
    | (with_reducible refine sound_mk ?_ rfl rfl rfl rfl rfl rfl rfl; first | with_reducible assumption | with_reducible apply State.detachedMsg_sound | with_reducible apply State.tick_sound | with_reducible apply sound_foldl | with_reducible apply sound_foldl_fst)
    | dsimp only
    | split

theorem State.takeStop_sound {q : Base} : ∀ {s : State} a1 a2, Sound q s → Sound q (State.takeStop s a1 a2) := by
  intros
  unfold State.takeStop
  repeat' first
    | with_reducible assumption
    | with_reducible apply sound_foldl
    | with_reducible apply sound_foldl_fst
    | intro _
    | with_reducible apply sound_ite
    | with_reducible apply sound_of_fst (by assumption)
    | with_reducible apply sound_of_some (by assumption)
    | with_reducible apply sound_of_snd (by assumption)
    | with_reducible apply sound_on
    | with_reducible apply sound_getD
    | (with_reducible refine sound_mk ?_ rfl rfl rfl rfl rfl rfl rfl; first | with_reducible assumption | with_reducible apply sound_foldl | with_reducible apply sound_foldl_fst)
    | dsimp only
    | split

theorem State.stopMsg_sound {q : Base} : ∀ {s : State} a1, Sound q s → Sound q (State.stopMsg s a1) := by
  intros
  unfold State.stopMsg
  repeat' first
    | with_reducible assumption
    | with_reducible apply State.onFlood_sound
    | with_reducible apply State.takeStop_sound
    | with_reducible apply sound_foldl
    | with_reducible apply sound_foldl_fst
    | intro _
    | with_reducible apply sound_ite
    | with_reducible apply sound_of_fst (by assumption)
    | with_reducible apply sound_of_some (by assumption)
    | with_reducible apply sound_of_snd (by assumption)
    | with_reducible apply sound_on
    | with_reducible apply sound_getD
    | (with_reducible refine sound_mk ?_ rfl rfl rfl rfl rfl rfl rfl; first | with_reducible assumption | with_reducible apply State.onFlood_sound | with_reducible apply State.takeStop_sound | with_reducible apply sound_foldl | with_reducible apply sound_foldl_fst)
    | dsimp only
    | split

theorem execStopMessage_sound {q : Base} : ∀ a0 a1 {s : State}, Sound q s → OutSound q (execStopMessage a0 a1 s) := by
  intros
  unfold execStopMessage
  repeat' first
    | with_reducible assumption
    | with_reducible apply outSound_next
    | with_reducible apply State.stopMsg_sound
    | with_reducible apply sound_foldl
    | with_reducible apply sound_foldl_fst
    | intro _
    | with_reducible apply sound_of_fst (by assumption)
    | with_reducible apply sound_of_some (by assumption)
    | with_reducible apply sound_of_snd (by assumption)
    | with_reducible apply sound_on
    | with_reducible apply sound_getD
    | (with_reducible refine sound_mk ?_ rfl rfl rfl rfl rfl rfl rfl; first | with_reducible assumption | with_reducible apply State.stopMsg_sound | with_reducible apply sound_foldl | with_reducible apply sound_foldl_fst)
    | dsimp only
    | split

theorem State.drainMsg_sound {q : Base} : ∀ {s : State} a1, Sound q s → Sound q (State.drainMsg s a1) := by
  intros
  unfold State.drainMsg
  repeat' first
    | with_reducible assumption
    | with_reducible apply sound_foldl
    | with_reducible apply sound_foldl_fst
    | intro _
    | with_reducible apply sound_ite
    | with_reducible apply sound_of_fst (by assumption)
    | with_reducible apply sound_of_some (by assumption)
    | with_reducible apply sound_of_snd (by assumption)
    | with_reducible apply sound_on
    | with_reducible apply sound_getD
    | (with_reducible refine sound_mk ?_ rfl rfl rfl rfl rfl rfl rfl; first | with_reducible assumption | with_reducible apply sound_foldl | with_reducible apply sound_foldl_fst)
    | dsimp only
    | split

theorem execDrainMessage_sound {q : Base} : ∀ a0 {s : State}, Sound q s → OutSound q (execDrainMessage a0 s) := by
  intros
  unfold execDrainMessage
  repeat' first
    | with_reducible assumption
    | with_reducible apply outSound_next
    | with_reducible apply State.drainMsg_sound
    | with_reducible apply sound_foldl
    | with_reducible apply sound_foldl_fst
    | intro _
    | with_reducible apply sound_of_fst (by assumption)
    | with_reducible apply sound_of_some (by assumption)
    | with_reducible apply sound_of_snd (by assumption)
    | with_reducible apply sound_on
    | with_reducible apply sound_getD
    | (with_reducible refine sound_mk ?_ rfl rfl rfl rfl rfl rfl rfl; first | with_reducible assumption | with_reducible apply State.drainMsg_sound | with_reducible apply sound_foldl | with_reducible apply sound_foldl_fst)
    | dsimp only
    | split

theorem State.drainDone_sound {q : Base} : ∀ {s : State} a1 a2, Sound q s → Sound q (State.drainDone s a1 a2) := by
  intros
  unfold State.drainDone
  repeat' first
    | with_reducible assumption
    | with_reducible apply State.originate_sound
    | with_reducible apply sound_foldl
    | with_reducible apply sound_foldl_fst
    | intro _
    | with_reducible apply sound_ite
    | with_reducible apply sound_of_fst (by assumption)
    | with_reducible apply sound_of_some (by assumption)
    | with_reducible apply sound_of_snd (by assumption)
    | with_reducible apply sound_on
    | with_reducible apply sound_getD
    | (with_reducible refine sound_mk ?_ rfl rfl rfl rfl rfl rfl rfl; first | with_reducible assumption | with_reducible apply State.originate_sound | with_reducible apply sound_foldl | with_reducible apply sound_foldl_fst)
    | dsimp only
    | split

theorem execFenceDrainDone_sound {q : Base} : ∀ a0 a1 {s : State}, Sound q s → OutSound q (execFenceDrainDone a0 a1 s) := by
  intros
  unfold execFenceDrainDone
  repeat' first
    | with_reducible assumption
    | with_reducible apply outSound_next
    | with_reducible apply State.drainDone_sound
    | with_reducible apply sound_foldl
    | with_reducible apply sound_foldl_fst
    | intro _
    | with_reducible apply sound_of_fst (by assumption)
    | with_reducible apply sound_of_some (by assumption)
    | with_reducible apply sound_of_snd (by assumption)
    | with_reducible apply sound_on
    | with_reducible apply sound_getD
    | (with_reducible refine sound_mk ?_ rfl rfl rfl rfl rfl rfl rfl; first | with_reducible assumption | with_reducible apply State.drainDone_sound | with_reducible apply sound_foldl | with_reducible apply sound_foldl_fst)
    | dsimp only
    | split

theorem State.drainReturned_sound {q : Base} : ∀ {s : State} a1, Sound q s → Sound q (State.drainReturned s a1) := by
  intros
  unfold State.drainReturned
  repeat' first
    | with_reducible assumption
    | with_reducible apply State.checkFences_sound
    | with_reducible apply sound_foldl
    | with_reducible apply sound_foldl_fst
    | intro _
    | with_reducible apply sound_ite
    | with_reducible apply sound_of_fst (by assumption)
    | with_reducible apply sound_of_some (by assumption)
    | with_reducible apply sound_of_snd (by assumption)
    | with_reducible apply sound_on
    | with_reducible apply sound_getD
    | (with_reducible refine sound_mk ?_ rfl rfl rfl rfl rfl rfl rfl; first | with_reducible assumption | with_reducible apply State.checkFences_sound | with_reducible apply sound_foldl | with_reducible apply sound_foldl_fst)
    | dsimp only
    | split

theorem execDrainReturn_sound {q : Base} : ∀ a0 {s : State}, Sound q s → OutSound q (execDrainReturn a0 s) := by
  intros
  unfold execDrainReturn
  repeat' first
    | with_reducible assumption
    | with_reducible apply outSound_next
    | with_reducible apply State.drainReturned_sound
    | with_reducible apply sound_foldl
    | with_reducible apply sound_foldl_fst
    | intro _
    | with_reducible apply sound_of_fst (by assumption)
    | with_reducible apply sound_of_some (by assumption)
    | with_reducible apply sound_of_snd (by assumption)
    | with_reducible apply sound_on
    | with_reducible apply sound_getD
    | (with_reducible refine sound_mk ?_ rfl rfl rfl rfl rfl rfl rfl; first | with_reducible assumption | with_reducible apply State.drainReturned_sound | with_reducible apply sound_foldl | with_reducible apply sound_foldl_fst)
    | dsimp only
    | split

end Sys2Proof.Machine
end

