-- ==== Sys2Proof/Laws/KeepBoot.lean ====
section
/-! SUPPORT. What the operations of `Machine/Boot.lean` keep: the memories in canonical form and the queue. -/

set_option linter.unusedTactic false
set_option linter.unreachableTactic false

namespace Sys2Proof.Machine

theorem State.afterReset_sound {q : Base} : ∀ {s : State} a1, Sound q s → Sound q (State.afterReset s a1) :=
  fun _ h => ⟨h.queue, ⟨⟨h.canon.1.1, cellWf_nil _⟩, cellWf_nil _, h.canon.2.2⟩, h.counters, h.seq⟩

theorem State.pulseReset_sound {q : Base} : ∀ {s : State} a1, Sound q s → Sound q (State.pulseReset s a1) := by
  intros
  unfold State.pulseReset
  repeat' first
    | with_reducible assumption
    | with_reducible apply State.afterReset_sound
    | with_reducible apply sound_foldl
    | with_reducible apply sound_foldl_fst
    | intro _
    | with_reducible apply sound_ite
    | with_reducible apply sound_of_fst (by assumption)
    | with_reducible apply sound_of_some (by assumption)
    | with_reducible apply sound_of_snd (by assumption)
    | with_reducible apply sound_on
    | with_reducible apply sound_getD
    | (with_reducible refine sound_mk ?_ rfl rfl rfl rfl rfl rfl rfl; first | with_reducible assumption | with_reducible apply State.afterReset_sound | with_reducible apply sound_foldl | with_reducible apply sound_foldl_fst)
    | (with_reducible refine sound_mk_wf ?_ rfl ?_ ?_ ?_ ?_ rfl rfl <;> first | with_reducible assumption | with_reducible apply State.afterReset_sound | with_reducible apply sound_foldl | with_reducible apply sound_foldl_fst | exact id | exact fun _ => cellWf_nil _ | exact cellWf_write _ _ | exact cellWf_clear _ _ | exact cellWf_filter _)
    | dsimp only
    | split

theorem execRstNAssert_sound {q : Base} : ∀ a0 {s : State}, Sound q s → OutSound q (execRstNAssert a0 s) := by
  intros
  unfold execRstNAssert
  repeat' first
    | with_reducible assumption
    | with_reducible apply outSound_next
    | with_reducible apply State.pulseReset_sound
    | with_reducible apply sound_foldl
    | with_reducible apply sound_foldl_fst
    | intro _
    | with_reducible apply sound_of_fst (by assumption)
    | with_reducible apply sound_of_some (by assumption)
    | with_reducible apply sound_of_snd (by assumption)
    | with_reducible apply sound_on
    | with_reducible apply sound_getD
    | (with_reducible refine sound_mk ?_ rfl rfl rfl rfl rfl rfl rfl; first | with_reducible assumption | with_reducible apply State.pulseReset_sound | with_reducible apply sound_foldl | with_reducible apply sound_foldl_fst)
    | (with_reducible refine sound_mk_wf ?_ rfl ?_ ?_ ?_ ?_ rfl rfl <;> first | with_reducible assumption | with_reducible apply State.pulseReset_sound | with_reducible apply sound_foldl | with_reducible apply sound_foldl_fst | exact id | exact fun _ => cellWf_nil _ | exact cellWf_write _ _ | exact cellWf_clear _ _ | exact cellWf_filter _)
    | dsimp only
    | split

theorem State.keyReset_sound {q : Base} : ∀ {s : State} a1 a2, Sound q s → Sound q (State.keyReset s a1 a2) := by
  intros
  unfold State.keyReset
  repeat' first
    | with_reducible assumption
    | with_reducible apply State.afterReset_sound
    | with_reducible apply State.smLater_sound
    | with_reducible apply sound_foldl
    | with_reducible apply sound_foldl_fst
    | intro _
    | with_reducible apply sound_ite
    | with_reducible apply sound_of_fst (by assumption)
    | with_reducible apply sound_of_some (by assumption)
    | with_reducible apply sound_of_snd (by assumption)
    | with_reducible apply sound_on
    | with_reducible apply sound_getD
    | (with_reducible refine sound_mk ?_ rfl rfl rfl rfl rfl rfl rfl; first | with_reducible assumption | with_reducible apply State.afterReset_sound | with_reducible apply State.smLater_sound | with_reducible apply sound_foldl | with_reducible apply sound_foldl_fst)
    | (with_reducible refine sound_mk_wf ?_ rfl ?_ ?_ ?_ ?_ rfl rfl <;> first | with_reducible assumption | with_reducible apply State.afterReset_sound | with_reducible apply State.smLater_sound | with_reducible apply sound_foldl | with_reducible apply sound_foldl_fst | exact id | exact fun _ => cellWf_nil _ | exact cellWf_write _ _ | exact cellWf_clear _ _ | exact cellWf_filter _)
    | dsimp only
    | split

theorem State.askReset_sound {q : Base} : ∀ {s : State} a1 a2, Sound q s → Sound q (State.askReset s a1 a2) := by
  intros
  unfold State.askReset
  repeat' first
    | with_reducible assumption
    | with_reducible apply State.keyReset_sound
    | with_reducible apply sound_foldl
    | with_reducible apply sound_foldl_fst
    | intro _
    | with_reducible apply sound_ite
    | with_reducible apply sound_of_fst (by assumption)
    | with_reducible apply sound_of_some (by assumption)
    | with_reducible apply sound_of_snd (by assumption)
    | with_reducible apply sound_on
    | with_reducible apply sound_getD
    | (with_reducible refine sound_mk ?_ rfl rfl rfl rfl rfl rfl rfl; first | with_reducible assumption | with_reducible apply State.keyReset_sound | with_reducible apply sound_foldl | with_reducible apply sound_foldl_fst)
    | (with_reducible refine sound_mk_wf ?_ rfl ?_ ?_ ?_ ?_ rfl rfl <;> first | with_reducible assumption | with_reducible apply State.keyReset_sound | with_reducible apply sound_foldl | with_reducible apply sound_foldl_fst | exact id | exact fun _ => cellWf_nil _ | exact cellWf_write _ _ | exact cellWf_clear _ _ | exact cellWf_filter _)
    | dsimp only
    | split

theorem execDeviceReset_sound {q : Base} : ∀ a0 a1 {s : State}, Sound q s → OutSound q (execDeviceReset a0 a1 s) := by
  intros
  unfold execDeviceReset
  repeat' first
    | with_reducible assumption
    | with_reducible apply outSound_next
    | with_reducible apply State.askReset_sound
    | with_reducible apply sound_foldl
    | with_reducible apply sound_foldl_fst
    | intro _
    | with_reducible apply sound_of_fst (by assumption)
    | with_reducible apply sound_of_some (by assumption)
    | with_reducible apply sound_of_snd (by assumption)
    | with_reducible apply sound_on
    | with_reducible apply sound_getD
    | (with_reducible refine sound_mk ?_ rfl rfl rfl rfl rfl rfl rfl; first | with_reducible assumption | with_reducible apply State.askReset_sound | with_reducible apply sound_foldl | with_reducible apply sound_foldl_fst)
    | (with_reducible refine sound_mk_wf ?_ rfl ?_ ?_ ?_ ?_ rfl rfl <;> first | with_reducible assumption | with_reducible apply State.askReset_sound | with_reducible apply sound_foldl | with_reducible apply sound_foldl_fst | exact id | exact fun _ => cellWf_nil _ | exact cellWf_write _ _ | exact cellWf_clear _ _ | exact cellWf_filter _)
    | dsimp only
    | split

theorem State.tapTest_sound {q : Base} : ∀ {s : State} a1, Sound q s → Sound q (State.tapTest s a1) := by
  intros
  unfold State.tapTest
  repeat' first
    | with_reducible assumption
    | with_reducible apply State.afterReset_sound
    | with_reducible apply sound_foldl
    | with_reducible apply sound_foldl_fst
    | intro _
    | with_reducible apply sound_ite
    | with_reducible apply sound_of_fst (by assumption)
    | with_reducible apply sound_of_some (by assumption)
    | with_reducible apply sound_of_snd (by assumption)
    | with_reducible apply sound_on
    | with_reducible apply sound_getD
    | (with_reducible refine sound_mk ?_ rfl rfl rfl rfl rfl rfl rfl; first | with_reducible assumption | with_reducible apply State.afterReset_sound | with_reducible apply sound_foldl | with_reducible apply sound_foldl_fst)
    | (with_reducible refine sound_mk_wf ?_ rfl ?_ ?_ ?_ ?_ rfl rfl <;> first | with_reducible assumption | with_reducible apply State.afterReset_sound | with_reducible apply sound_foldl | with_reducible apply sound_foldl_fst | exact id | exact fun _ => cellWf_nil _ | exact cellWf_write _ _ | exact cellWf_clear _ _ | exact cellWf_filter _)
    | dsimp only
    | split

theorem execTapTestMode_sound {q : Base} : ∀ a0 {s : State}, Sound q s → OutSound q (execTapTestMode a0 s) := by
  intros
  unfold execTapTestMode
  repeat' first
    | with_reducible assumption
    | with_reducible apply outSound_next
    | with_reducible apply State.tapTest_sound
    | with_reducible apply sound_foldl
    | with_reducible apply sound_foldl_fst
    | intro _
    | with_reducible apply sound_of_fst (by assumption)
    | with_reducible apply sound_of_some (by assumption)
    | with_reducible apply sound_of_snd (by assumption)
    | with_reducible apply sound_on
    | with_reducible apply sound_getD
    | (with_reducible refine sound_mk ?_ rfl rfl rfl rfl rfl rfl rfl; first | with_reducible assumption | with_reducible apply State.tapTest_sound | with_reducible apply sound_foldl | with_reducible apply sound_foldl_fst)
    | (with_reducible refine sound_mk_wf ?_ rfl ?_ ?_ ?_ ?_ rfl rfl <;> first | with_reducible assumption | with_reducible apply State.tapTest_sound | with_reducible apply sound_foldl | with_reducible apply sound_foldl_fst | exact id | exact fun _ => cellWf_nil _ | exact cellWf_write _ _ | exact cellWf_clear _ _ | exact cellWf_filter _)
    | dsimp only
    | split

theorem State.tapLeave_sound {q : Base} : ∀ {s : State}, Sound q s → Sound q (State.tapLeave s) := by
  intros
  unfold State.tapLeave
  repeat' first
    | with_reducible assumption
    | with_reducible apply sound_foldl
    | with_reducible apply sound_foldl_fst
    | intro _
    | with_reducible apply sound_ite
    | with_reducible apply sound_of_fst (by assumption)
    | with_reducible apply sound_of_some (by assumption)
    | with_reducible apply sound_of_snd (by assumption)
    | with_reducible apply sound_on
    | with_reducible apply sound_getD
    | (with_reducible refine sound_mk ?_ rfl rfl rfl rfl rfl rfl rfl; first | with_reducible assumption | with_reducible apply sound_foldl | with_reducible apply sound_foldl_fst)
    | (with_reducible refine sound_mk_wf ?_ rfl ?_ ?_ ?_ ?_ rfl rfl <;> first | with_reducible assumption | with_reducible apply sound_foldl | with_reducible apply sound_foldl_fst | exact id | exact fun _ => cellWf_nil _ | exact cellWf_write _ _ | exact cellWf_clear _ _ | exact cellWf_filter _)
    | dsimp only
    | split

theorem execTapTestExit_sound {q : Base} : ∀ a0 {s : State}, Sound q s → OutSound q (execTapTestExit a0 s) := by
  intros
  unfold execTapTestExit
  repeat' first
    | with_reducible assumption
    | with_reducible apply outSound_next
    | with_reducible apply State.tapLeave_sound
    | with_reducible apply State.tick_sound
    | with_reducible apply sound_foldl
    | with_reducible apply sound_foldl_fst
    | intro _
    | with_reducible apply sound_of_fst (by assumption)
    | with_reducible apply sound_of_some (by assumption)
    | with_reducible apply sound_of_snd (by assumption)
    | with_reducible apply sound_on
    | with_reducible apply sound_getD
    | (with_reducible refine sound_mk ?_ rfl rfl rfl rfl rfl rfl rfl; first | with_reducible assumption | with_reducible apply State.tapLeave_sound | with_reducible apply State.tick_sound | with_reducible apply sound_foldl | with_reducible apply sound_foldl_fst)
    | (with_reducible refine sound_mk_wf ?_ rfl ?_ ?_ ?_ ?_ rfl rfl <;> first | with_reducible assumption | with_reducible apply State.tapLeave_sound | with_reducible apply State.tick_sound | with_reducible apply sound_foldl | with_reducible apply sound_foldl_fst | exact id | exact fun _ => cellWf_nil _ | exact cellWf_write _ _ | exact cellWf_clear _ _ | exact cellWf_filter _)
    | dsimp only
    | split

theorem execTapReset_sound {q : Base} : ∀ {s : State}, Sound q s → OutSound q (execTapReset s) := by
  intros
  unfold execTapReset
  repeat' first
    | with_reducible assumption
    | with_reducible apply outSound_next
    | with_reducible apply State.tapLeave_sound
    | with_reducible apply sound_foldl
    | with_reducible apply sound_foldl_fst
    | intro _
    | with_reducible apply sound_of_fst (by assumption)
    | with_reducible apply sound_of_some (by assumption)
    | with_reducible apply sound_of_snd (by assumption)
    | with_reducible apply sound_on
    | with_reducible apply sound_getD
    | (with_reducible refine sound_mk ?_ rfl rfl rfl rfl rfl rfl rfl; first | with_reducible assumption | with_reducible apply State.tapLeave_sound | with_reducible apply sound_foldl | with_reducible apply sound_foldl_fst)
    | (with_reducible refine sound_mk_wf ?_ rfl ?_ ?_ ?_ ?_ rfl rfl <;> first | with_reducible assumption | with_reducible apply State.tapLeave_sound | with_reducible apply sound_foldl | with_reducible apply sound_foldl_fst | exact id | exact fun _ => cellWf_nil _ | exact cellWf_write _ _ | exact cellWf_clear _ _ | exact cellWf_filter _)
    | dsimp only
    | split

theorem State.powerOff_sound {q : Base} : ∀ {s : State}, Sound q s → Sound q (State.powerOff s) :=
  fun h => ⟨h.queue, ⟨⟨cellWf_nil _, cellWf_nil _⟩, cellWf_nil _, h.canon.2.2⟩, h.counters, h.seq⟩

theorem execPowerRemoval_sound {q : Base} : ∀ {s : State}, Sound q s → OutSound q (execPowerRemoval s) := by
  intros
  unfold execPowerRemoval
  repeat' first
    | with_reducible assumption
    | with_reducible apply outSound_next
    | with_reducible apply State.powerOff_sound
    | with_reducible apply sound_foldl
    | with_reducible apply sound_foldl_fst
    | intro _
    | with_reducible apply sound_of_fst (by assumption)
    | with_reducible apply sound_of_some (by assumption)
    | with_reducible apply sound_of_snd (by assumption)
    | with_reducible apply sound_on
    | with_reducible apply sound_getD
    | (with_reducible refine sound_mk ?_ rfl rfl rfl rfl rfl rfl rfl; first | with_reducible assumption | with_reducible apply State.powerOff_sound | with_reducible apply sound_foldl | with_reducible apply sound_foldl_fst)
    | (with_reducible refine sound_mk_wf ?_ rfl ?_ ?_ ?_ ?_ rfl rfl <;> first | with_reducible assumption | with_reducible apply State.powerOff_sound | with_reducible apply sound_foldl | with_reducible apply sound_foldl_fst | exact id | exact fun _ => cellWf_nil _ | exact cellWf_write _ _ | exact cellWf_clear _ _ | exact cellWf_filter _)
    | dsimp only
    | split

theorem State.runFirmware_sound {q : Base} : ∀ {s : State} a1, Sound q s → Sound q (State.runFirmware s a1) := by
  intros
  unfold State.runFirmware
  repeat' first
    | with_reducible assumption
    | with_reducible apply State.setFlag_sound
    | with_reducible apply sound_foldl
    | with_reducible apply sound_foldl_fst
    | intro _
    | with_reducible apply sound_ite
    | with_reducible apply sound_of_fst (by assumption)
    | with_reducible apply sound_of_some (by assumption)
    | with_reducible apply sound_of_snd (by assumption)
    | with_reducible apply sound_on
    | with_reducible apply sound_getD
    | (with_reducible refine sound_mk ?_ rfl rfl rfl rfl rfl rfl rfl; first | with_reducible assumption | with_reducible apply State.setFlag_sound | with_reducible apply sound_foldl | with_reducible apply sound_foldl_fst)
    | (with_reducible refine sound_mk_wf ?_ rfl ?_ ?_ ?_ ?_ rfl rfl <;> first | with_reducible assumption | with_reducible apply State.setFlag_sound | with_reducible apply sound_foldl | with_reducible apply sound_foldl_fst | exact id | exact fun _ => cellWf_nil _ | exact cellWf_write _ _ | exact cellWf_clear _ _ | exact cellWf_filter _)
    | dsimp only
    | split

theorem State.showLifecycle_sound {q : Base} : ∀ {s : State} a1, Sound q s → Sound q (State.showLifecycle s a1) := by
  intros
  unfold State.showLifecycle
  repeat' first
    | with_reducible assumption
    | with_reducible apply State.setFlag_sound
    | with_reducible apply State.setFld_sound
    | with_reducible apply sound_foldl
    | with_reducible apply sound_foldl_fst
    | intro _
    | with_reducible apply sound_ite
    | with_reducible apply sound_of_fst (by assumption)
    | with_reducible apply sound_of_some (by assumption)
    | with_reducible apply sound_of_snd (by assumption)
    | with_reducible apply sound_on
    | with_reducible apply sound_getD
    | (with_reducible refine sound_mk ?_ rfl rfl rfl rfl rfl rfl rfl; first | with_reducible assumption | with_reducible apply State.setFlag_sound | with_reducible apply State.setFld_sound | with_reducible apply sound_foldl | with_reducible apply sound_foldl_fst)
    | (with_reducible refine sound_mk_wf ?_ rfl ?_ ?_ ?_ ?_ rfl rfl <;> first | with_reducible assumption | with_reducible apply State.setFlag_sound | with_reducible apply State.setFld_sound | with_reducible apply sound_foldl | with_reducible apply sound_foldl_fst | exact id | exact fun _ => cellWf_nil _ | exact cellWf_write _ _ | exact cellWf_clear _ _ | exact cellWf_filter _)
    | dsimp only
    | split

theorem State.identifyFlash_sound {q : Base} : ∀ {s : State} a1, Sound q s → Sound q (State.identifyFlash s a1) := by
  intros
  unfold State.identifyFlash
  repeat' first
    | with_reducible assumption
    | with_reducible apply State.setFld_sound
    | with_reducible apply State.event_sound
    | with_reducible apply sound_foldl
    | with_reducible apply sound_foldl_fst
    | intro _
    | with_reducible apply sound_ite
    | with_reducible apply sound_of_fst (by assumption)
    | with_reducible apply sound_of_some (by assumption)
    | with_reducible apply sound_of_snd (by assumption)
    | with_reducible apply sound_on
    | with_reducible apply sound_getD
    | (with_reducible refine sound_mk ?_ rfl rfl rfl rfl rfl rfl rfl; first | with_reducible assumption | with_reducible apply State.setFld_sound | with_reducible apply State.event_sound | with_reducible apply sound_foldl | with_reducible apply sound_foldl_fst)
    | (with_reducible refine sound_mk_wf ?_ rfl ?_ ?_ ?_ ?_ rfl rfl <;> first | with_reducible assumption | with_reducible apply State.setFld_sound | with_reducible apply State.event_sound | with_reducible apply sound_foldl | with_reducible apply sound_foldl_fst | exact id | exact fun _ => cellWf_nil _ | exact cellWf_write _ _ | exact cellWf_clear _ _ | exact cellWf_filter _)
    | dsimp only
    | split

theorem State.loadConfig_sound {q : Base} : ∀ {s : State} a1, Sound q s → Sound q (State.loadConfig s a1) := by
  intros
  unfold State.loadConfig
  repeat' first
    | with_reducible assumption
    | with_reducible apply State.setReg_sound
    | with_reducible apply State.setFld_sound
    | with_reducible apply State.identifyFlash_sound
    | with_reducible apply State.event_sound
    | with_reducible apply sound_foldl
    | with_reducible apply sound_foldl_fst
    | intro _
    | with_reducible apply sound_ite
    | with_reducible apply sound_of_fst (by assumption)
    | with_reducible apply sound_of_some (by assumption)
    | with_reducible apply sound_of_snd (by assumption)
    | with_reducible apply sound_on
    | with_reducible apply sound_getD
    | (with_reducible refine sound_mk ?_ rfl rfl rfl rfl rfl rfl rfl; first | with_reducible assumption | with_reducible apply State.setReg_sound | with_reducible apply State.setFld_sound | with_reducible apply State.identifyFlash_sound | with_reducible apply State.event_sound | with_reducible apply sound_foldl | with_reducible apply sound_foldl_fst)
    | (with_reducible refine sound_mk_wf ?_ rfl ?_ ?_ ?_ ?_ rfl rfl <;> first | with_reducible assumption | with_reducible apply State.setReg_sound | with_reducible apply State.setFld_sound | with_reducible apply State.identifyFlash_sound | with_reducible apply State.event_sound | with_reducible apply sound_foldl | with_reducible apply sound_foldl_fst | exact id | exact fun _ => cellWf_nil _ | exact cellWf_write _ _ | exact cellWf_clear _ _ | exact cellWf_filter _)
    | dsimp only
    | split

theorem State.applyRepairs_sound {q : Base} : ∀ {s : State}, Sound q s → Sound q (State.applyRepairs s) := by
  intros
  unfold State.applyRepairs
  repeat' first
    | with_reducible assumption
    | with_reducible apply sound_foldl
    | with_reducible apply sound_foldl_fst
    | intro _
    | with_reducible apply sound_ite
    | with_reducible apply sound_of_fst (by assumption)
    | with_reducible apply sound_of_some (by assumption)
    | with_reducible apply sound_of_snd (by assumption)
    | with_reducible apply sound_on
    | with_reducible apply sound_getD
    | (with_reducible refine sound_mk ?_ rfl rfl rfl rfl rfl rfl rfl; first | with_reducible assumption | with_reducible apply sound_foldl | with_reducible apply sound_foldl_fst)
    | (with_reducible refine sound_mk_wf ?_ rfl ?_ ?_ ?_ ?_ rfl rfl <;> first | with_reducible assumption | with_reducible apply sound_foldl | with_reducible apply sound_foldl_fst | exact id | exact fun _ => cellWf_nil _ | exact cellWf_write _ _ | exact cellWf_clear _ _ | exact cellWf_filter _)
    | dsimp only
    | split

theorem State.checkTags_sound {q : Base} : ∀ {s : State} a1, Sound q s → Sound q (State.checkTags s a1) := by
  intros
  unfold State.checkTags
  repeat' first
    | with_reducible assumption
    | with_reducible apply State.setRegion_sound
    | with_reducible apply sound_foldl
    | with_reducible apply sound_foldl_fst
    | intro _
    | with_reducible apply sound_ite
    | with_reducible apply sound_of_fst (by assumption)
    | with_reducible apply sound_of_some (by assumption)
    | with_reducible apply sound_of_snd (by assumption)
    | with_reducible apply sound_on
    | with_reducible apply sound_getD
    | (with_reducible refine sound_mk ?_ rfl rfl rfl rfl rfl rfl rfl; first | with_reducible assumption | with_reducible apply State.setRegion_sound | with_reducible apply sound_foldl | with_reducible apply sound_foldl_fst)
    | (with_reducible refine sound_mk_wf ?_ rfl ?_ ?_ ?_ ?_ rfl rfl <;> first | with_reducible assumption | with_reducible apply State.setRegion_sound | with_reducible apply sound_foldl | with_reducible apply sound_foldl_fst | exact id | exact fun _ => cellWf_nil _ | exact cellWf_write _ _ | exact cellWf_clear _ _ | exact cellWf_filter _)
    | dsimp only
    | split

theorem State.showHedges_sound {q : Base} : ∀ {s : State}, Sound q s → Sound q (State.showHedges s) := by
  intros
  unfold State.showHedges
  repeat' first
    | with_reducible assumption
    | with_reducible apply State.setFld_sound
    | with_reducible apply sound_foldl
    | with_reducible apply sound_foldl_fst
    | intro _
    | with_reducible apply sound_ite
    | with_reducible apply sound_of_fst (by assumption)
    | with_reducible apply sound_of_some (by assumption)
    | with_reducible apply sound_of_snd (by assumption)
    | with_reducible apply sound_on
    | with_reducible apply sound_getD
    | (with_reducible refine sound_mk ?_ rfl rfl rfl rfl rfl rfl rfl; first | with_reducible assumption | with_reducible apply State.setFld_sound | with_reducible apply sound_foldl | with_reducible apply sound_foldl_fst)
    | (with_reducible refine sound_mk_wf ?_ rfl ?_ ?_ ?_ ?_ rfl rfl <;> first | with_reducible assumption | with_reducible apply State.setFld_sound | with_reducible apply sound_foldl | with_reducible apply sound_foldl_fst | exact id | exact fun _ => cellWf_nil _ | exact cellWf_write _ _ | exact cellWf_clear _ _ | exact cellWf_filter _)
    | dsimp only
    | split

theorem State.format_sound {q : Base} : ∀ {s : State} a1, Sound q s → Sound q (State.format s a1) := by
  intros
  unfold State.format
  repeat' first
    | with_reducible assumption
    | with_reducible apply sound_foldl
    | with_reducible apply sound_foldl_fst
    | intro _
    | with_reducible apply sound_ite
    | with_reducible apply sound_of_fst (by assumption)
    | with_reducible apply sound_of_some (by assumption)
    | with_reducible apply sound_of_snd (by assumption)
    | with_reducible apply sound_on
    | with_reducible apply sound_getD
    | (with_reducible refine sound_mk ?_ rfl rfl rfl rfl rfl rfl rfl; first | with_reducible assumption | with_reducible apply sound_foldl | with_reducible apply sound_foldl_fst)
    | (with_reducible refine sound_mk_wf ?_ rfl ?_ ?_ ?_ ?_ rfl rfl <;> first | with_reducible assumption | with_reducible apply sound_foldl | with_reducible apply sound_foldl_fst | exact id | exact fun _ => cellWf_nil _ | exact cellWf_write _ _ | exact cellWf_clear _ _ | exact cellWf_filter _)
    | dsimp only
    | split

theorem State.formatDue_sound {q : Base} : ∀ {s : State} a1, Sound q s → Sound q (State.formatDue s a1) := by
  intros
  unfold State.formatDue
  repeat' first
    | with_reducible assumption
    | with_reducible apply State.showFree_sound
    | with_reducible apply State.setFld_sound
    | with_reducible apply State.format_sound
    | with_reducible apply sound_foldl
    | with_reducible apply sound_foldl_fst
    | intro _
    | with_reducible apply sound_ite
    | with_reducible apply sound_of_fst (by assumption)
    | with_reducible apply sound_of_some (by assumption)
    | with_reducible apply sound_of_snd (by assumption)
    | with_reducible apply sound_on
    | with_reducible apply sound_getD
    | (with_reducible refine sound_mk ?_ rfl rfl rfl rfl rfl rfl rfl; first | with_reducible assumption | with_reducible apply State.showFree_sound | with_reducible apply State.setFld_sound | with_reducible apply State.format_sound | with_reducible apply sound_foldl | with_reducible apply sound_foldl_fst)
    | (with_reducible refine sound_mk_wf ?_ rfl ?_ ?_ ?_ ?_ rfl rfl <;> first | with_reducible assumption | with_reducible apply State.showFree_sound | with_reducible apply State.setFld_sound | with_reducible apply State.format_sound | with_reducible apply sound_foldl | with_reducible apply sound_foldl_fst | exact id | exact fun _ => cellWf_nil _ | exact cellWf_write _ _ | exact cellWf_clear _ _ | exact cellWf_filter _)
    | dsimp only
    | split

theorem cellWf_puts {k : Nat} : ∀ (n : List Nat) (l : List (Nat × Nat)), cellWf 0 l = true →
    cellWf 0 (n.foldl (fun l i => cellPut l (k + i) (some 65)) l) = true
  | [], _, h => h
  | _ :: n, _, h => cellWf_puts n _ (cellWf_put _ _ (by simp) h)

theorem State.placeMap_sound {q : Base} : ∀ {s : State} a1, Sound q s → Sound q (State.placeMap s a1) := by
  intro s a1 h
  unfold State.placeMap
  dsimp only
  split
  · exact h
  · split
    · exact h
    · with_reducible refine sound_mk_wf (State.setFld_sound _ _ (State.setFld_sound _ _ (State.setFld_sound _ _ h))) rfl ?_ ?_ ?_ ?_ rfl rfl
      · exact id
      · exact id
      · exact cellWf_puts _ _
      · exact id

theorem State.wipeMemory_sound {q : Base} : ∀ {s : State}, Sound q s → Sound q (State.wipeMemory s) := by
  intros
  unfold State.wipeMemory
  repeat' first
    | with_reducible assumption
    | with_reducible apply sound_foldl
    | with_reducible apply sound_foldl_fst
    | intro _
    | with_reducible apply sound_ite
    | with_reducible apply sound_of_fst (by assumption)
    | with_reducible apply sound_of_some (by assumption)
    | with_reducible apply sound_of_snd (by assumption)
    | with_reducible apply sound_on
    | with_reducible apply sound_getD
    | (with_reducible refine sound_mk ?_ rfl rfl rfl rfl rfl rfl rfl; first | with_reducible assumption | with_reducible apply sound_foldl | with_reducible apply sound_foldl_fst)
    | (with_reducible refine sound_mk_wf ?_ rfl ?_ ?_ ?_ ?_ rfl rfl <;> first | with_reducible assumption | with_reducible apply sound_foldl | with_reducible apply sound_foldl_fst | exact id | exact fun _ => cellWf_nil _ | exact cellWf_write _ _ | exact cellWf_clear _ _ | exact cellWf_filter _)
    | dsimp only
    | split

theorem State.readyMemories_sound {q : Base} : ∀ {s : State} a1, Sound q s → Sound q (State.readyMemories s a1) := by
  intros
  unfold State.readyMemories
  repeat' first
    | with_reducible assumption
    | with_reducible apply State.setFlag_sound
    | with_reducible apply State.wipeMemory_sound
    | with_reducible apply State.setFld_sound
    | with_reducible apply sound_foldl
    | with_reducible apply sound_foldl_fst
    | intro _
    | with_reducible apply sound_ite
    | with_reducible apply sound_of_fst (by assumption)
    | with_reducible apply sound_of_some (by assumption)
    | with_reducible apply sound_of_snd (by assumption)
    | with_reducible apply sound_on
    | with_reducible apply sound_getD
    | (with_reducible refine sound_mk ?_ rfl rfl rfl rfl rfl rfl rfl; first | with_reducible assumption | with_reducible apply State.setFlag_sound | with_reducible apply State.wipeMemory_sound | with_reducible apply State.setFld_sound | with_reducible apply sound_foldl | with_reducible apply sound_foldl_fst)
    | (with_reducible refine sound_mk_wf ?_ rfl ?_ ?_ ?_ ?_ rfl rfl <;> first | with_reducible assumption | with_reducible apply State.setFlag_sound | with_reducible apply State.wipeMemory_sound | with_reducible apply State.setFld_sound | with_reducible apply sound_foldl | with_reducible apply sound_foldl_fst | exact id | exact fun _ => cellWf_nil _ | exact cellWf_write _ _ | exact cellWf_clear _ _ | exact cellWf_filter _)
    | dsimp only
    | split

theorem State.resumeCurtain_sound {q : Base} : ∀ {s : State}, Sound q s → Sound q (State.resumeCurtain s) := by
  intros
  unfold State.resumeCurtain
  repeat' first
    | with_reducible assumption
    | with_reducible apply State.setFlag_sound
    | with_reducible apply State.setFld_sound
    | with_reducible apply sound_foldl
    | with_reducible apply sound_foldl_fst
    | intro _
    | with_reducible apply sound_ite
    | with_reducible apply sound_of_fst (by assumption)
    | with_reducible apply sound_of_some (by assumption)
    | with_reducible apply sound_of_snd (by assumption)
    | with_reducible apply sound_on
    | with_reducible apply sound_getD
    | (with_reducible refine sound_mk ?_ rfl rfl rfl rfl rfl rfl rfl; first | with_reducible assumption | with_reducible apply State.setFlag_sound | with_reducible apply State.setFld_sound | with_reducible apply sound_foldl | with_reducible apply sound_foldl_fst)
    | (with_reducible refine sound_mk_wf ?_ rfl ?_ ?_ ?_ ?_ rfl rfl <;> first | with_reducible assumption | with_reducible apply State.setFlag_sound | with_reducible apply State.setFld_sound | with_reducible apply sound_foldl | with_reducible apply sound_foldl_fst | exact id | exact fun _ => cellWf_nil _ | exact cellWf_write _ _ | exact cellWf_clear _ _ | exact cellWf_filter _)
    | dsimp only
    | split

theorem State.bringOn_sound {q : Base} : ∀ {s : State} a1, Sound q s → Sound q (State.bringOn s a1) := by
  intros
  unfold State.bringOn
  repeat' first
    | with_reducible assumption
    | with_reducible apply State.loadConfig_sound
    | with_reducible apply State.applyRepairs_sound
    | with_reducible apply State.placeMap_sound
    | with_reducible apply State.formatDue_sound
    | with_reducible apply State.setFld_sound
    | with_reducible apply State.planCoppice_sound
    | with_reducible apply State.askVolts_sound
    | with_reducible apply State.showLifecycle_sound
    | with_reducible apply State.readyMemories_sound
    | with_reducible apply State.checkTags_sound
    | with_reducible apply State.resumeCurtain_sound
    | with_reducible apply State.showHedges_sound
    | with_reducible apply sound_foldl
    | with_reducible apply sound_foldl_fst
    | intro _
    | with_reducible apply sound_ite
    | with_reducible apply sound_of_fst (by assumption)
    | with_reducible apply sound_of_some (by assumption)
    | with_reducible apply sound_of_snd (by assumption)
    | with_reducible apply sound_on
    | with_reducible apply sound_getD
    | (with_reducible refine sound_mk ?_ rfl rfl rfl rfl rfl rfl rfl; first | with_reducible assumption | with_reducible apply State.loadConfig_sound | with_reducible apply State.applyRepairs_sound | with_reducible apply State.placeMap_sound | with_reducible apply State.formatDue_sound | with_reducible apply State.setFld_sound | with_reducible apply State.planCoppice_sound | with_reducible apply State.askVolts_sound | with_reducible apply State.showLifecycle_sound | with_reducible apply State.readyMemories_sound | with_reducible apply State.checkTags_sound | with_reducible apply State.resumeCurtain_sound | with_reducible apply State.showHedges_sound | with_reducible apply sound_foldl | with_reducible apply sound_foldl_fst)
    | (with_reducible refine sound_mk_wf ?_ rfl ?_ ?_ ?_ ?_ rfl rfl <;> first | with_reducible assumption | with_reducible apply State.loadConfig_sound | with_reducible apply State.applyRepairs_sound | with_reducible apply State.placeMap_sound | with_reducible apply State.formatDue_sound | with_reducible apply State.setFld_sound | with_reducible apply State.planCoppice_sound | with_reducible apply State.askVolts_sound | with_reducible apply State.showLifecycle_sound | with_reducible apply State.readyMemories_sound | with_reducible apply State.checkTags_sound | with_reducible apply State.resumeCurtain_sound | with_reducible apply State.showHedges_sound | with_reducible apply sound_foldl | with_reducible apply sound_foldl_fst | exact id | exact fun _ => cellWf_nil _ | exact cellWf_write _ _ | exact cellWf_clear _ _ | exact cellWf_filter _)
    | dsimp only
    | split

theorem State.bringUp_sound {q : Base} : ∀ {s : State} a1, Sound q s → Sound q (State.bringUp s a1) := by
  intros
  unfold State.bringUp
  repeat' first
    | with_reducible assumption
    | with_reducible apply State.setFlag_sound
    | with_reducible apply State.runFirmware_sound
    | with_reducible apply State.setFld_sound
    | with_reducible apply State.bringOn_sound
    | with_reducible apply sound_foldl
    | with_reducible apply sound_foldl_fst
    | intro _
    | with_reducible apply sound_ite
    | with_reducible apply sound_of_fst (by assumption)
    | with_reducible apply sound_of_some (by assumption)
    | with_reducible apply sound_of_snd (by assumption)
    | with_reducible apply sound_on
    | with_reducible apply sound_getD
    | (with_reducible refine sound_mk ?_ rfl rfl rfl rfl rfl rfl rfl; first | with_reducible assumption | with_reducible apply State.setFlag_sound | with_reducible apply State.runFirmware_sound | with_reducible apply State.setFld_sound | with_reducible apply State.bringOn_sound | with_reducible apply sound_foldl | with_reducible apply sound_foldl_fst)
    | (with_reducible refine sound_mk_wf ?_ rfl ?_ ?_ ?_ ?_ rfl rfl <;> first | with_reducible assumption | with_reducible apply State.setFlag_sound | with_reducible apply State.runFirmware_sound | with_reducible apply State.setFld_sound | with_reducible apply State.bringOn_sound | with_reducible apply sound_foldl | with_reducible apply sound_foldl_fst | exact id | exact fun _ => cellWf_nil _ | exact cellWf_write _ _ | exact cellWf_clear _ _ | exact cellWf_filter _)
    | dsimp only
    | split

theorem execBringUp_sound {q : Base} : ∀ a0 a1 {s : State}, Sound q s → OutSound q (execBringUp a0 a1 s) := by
  intros
  unfold execBringUp
  repeat' first
    | with_reducible assumption
    | with_reducible apply outSound_next
    | with_reducible apply State.tick_sound
    | with_reducible apply State.bringUp_sound
    | with_reducible apply sound_foldl
    | with_reducible apply sound_foldl_fst
    | intro _
    | with_reducible apply sound_of_fst (by assumption)
    | with_reducible apply sound_of_some (by assumption)
    | with_reducible apply sound_of_snd (by assumption)
    | with_reducible apply sound_on
    | with_reducible apply sound_getD
    | (with_reducible refine sound_mk ?_ rfl rfl rfl rfl rfl rfl rfl; first | with_reducible assumption | with_reducible apply State.tick_sound | with_reducible apply State.bringUp_sound | with_reducible apply sound_foldl | with_reducible apply sound_foldl_fst)
    | (with_reducible refine sound_mk_wf ?_ rfl ?_ ?_ ?_ ?_ rfl rfl <;> first | with_reducible assumption | with_reducible apply State.tick_sound | with_reducible apply State.bringUp_sound | with_reducible apply sound_foldl | with_reducible apply sound_foldl_fst | exact id | exact fun _ => cellWf_nil _ | exact cellWf_write _ _ | exact cellWf_clear _ _ | exact cellWf_filter _)
    | dsimp only
    | split

theorem State.releasePort_sound {q : Base} : ∀ {s : State}, Sound q s → Sound q (State.releasePort s) := by
  intros
  unfold State.releasePort
  repeat' first
    | with_reducible assumption
    | with_reducible apply State.setFld_sound
    | with_reducible apply State.enterCurtain_sound
    | with_reducible apply sound_foldl
    | with_reducible apply sound_foldl_fst
    | intro _
    | with_reducible apply sound_ite
    | with_reducible apply sound_of_fst (by assumption)
    | with_reducible apply sound_of_some (by assumption)
    | with_reducible apply sound_of_snd (by assumption)
    | with_reducible apply sound_on
    | with_reducible apply sound_getD
    | (with_reducible refine sound_mk ?_ rfl rfl rfl rfl rfl rfl rfl; first | with_reducible assumption | with_reducible apply State.setFld_sound | with_reducible apply State.enterCurtain_sound | with_reducible apply sound_foldl | with_reducible apply sound_foldl_fst)
    | (with_reducible refine sound_mk_wf ?_ rfl ?_ ?_ ?_ ?_ rfl rfl <;> first | with_reducible assumption | with_reducible apply State.setFld_sound | with_reducible apply State.enterCurtain_sound | with_reducible apply sound_foldl | with_reducible apply sound_foldl_fst | exact id | exact fun _ => cellWf_nil _ | exact cellWf_write _ _ | exact cellWf_clear _ _ | exact cellWf_filter _)
    | dsimp only
    | split

theorem execHostPortRelease_sound {q : Base} : ∀ a0 {s : State}, Sound q s → OutSound q (execHostPortRelease a0 s) := by
  intros
  unfold execHostPortRelease
  repeat' first
    | with_reducible assumption
    | with_reducible apply outSound_next
    | with_reducible apply State.releasePort_sound
    | with_reducible apply State.tick_sound
    | with_reducible apply sound_foldl
    | with_reducible apply sound_foldl_fst
    | intro _
    | with_reducible apply sound_of_fst (by assumption)
    | with_reducible apply sound_of_some (by assumption)
    | with_reducible apply sound_of_snd (by assumption)
    | with_reducible apply sound_on
    | with_reducible apply sound_getD
    | (with_reducible refine sound_mk ?_ rfl rfl rfl rfl rfl rfl rfl; first | with_reducible assumption | with_reducible apply State.releasePort_sound | with_reducible apply State.tick_sound | with_reducible apply sound_foldl | with_reducible apply sound_foldl_fst)
    | (with_reducible refine sound_mk_wf ?_ rfl ?_ ?_ ?_ ?_ rfl rfl <;> first | with_reducible assumption | with_reducible apply State.releasePort_sound | with_reducible apply State.tick_sound | with_reducible apply sound_foldl | with_reducible apply sound_foldl_fst | exact id | exact fun _ => cellWf_nil _ | exact cellWf_write _ _ | exact cellWf_clear _ _ | exact cellWf_filter _)
    | dsimp only
    | split

theorem State.flashOpen_sound {q : Base} : ∀ {s : State}, Sound q s → Sound q (State.flashOpen s) := by
  intros
  unfold State.flashOpen
  repeat' first
    | with_reducible assumption
    | with_reducible apply State.judgeInbound_sound
    | with_reducible apply State.serveFlashRead_sound
    | with_reducible apply sound_foldl
    | with_reducible apply sound_foldl_fst
    | intro _
    | with_reducible apply sound_ite
    | with_reducible apply sound_of_fst (by assumption)
    | with_reducible apply sound_of_some (by assumption)
    | with_reducible apply sound_of_snd (by assumption)
    | with_reducible apply sound_on
    | with_reducible apply sound_getD
    | (with_reducible refine sound_mk ?_ rfl rfl rfl rfl rfl rfl rfl; first | with_reducible assumption | with_reducible apply State.judgeInbound_sound | with_reducible apply State.serveFlashRead_sound | with_reducible apply sound_foldl | with_reducible apply sound_foldl_fst)
    | (with_reducible refine sound_mk_wf ?_ rfl ?_ ?_ ?_ ?_ rfl rfl <;> first | with_reducible assumption | with_reducible apply State.judgeInbound_sound | with_reducible apply State.serveFlashRead_sound | with_reducible apply sound_foldl | with_reducible apply sound_foldl_fst | exact id | exact fun _ => cellWf_nil _ | exact cellWf_write _ _ | exact cellWf_clear _ _ | exact cellWf_filter _)
    | dsimp only
    | split

theorem State.flashUp_sound {q : Base} : ∀ {s : State} a1, Sound q s → Sound q (State.flashUp s a1) := by
  intros
  unfold State.flashUp
  repeat' first
    | with_reducible assumption
    | with_reducible apply State.setFlag_sound
    | with_reducible apply State.setFld_sound
    | with_reducible apply State.flashOpen_sound
    | with_reducible apply sound_foldl
    | with_reducible apply sound_foldl_fst
    | intro _
    | with_reducible apply sound_ite
    | with_reducible apply sound_of_fst (by assumption)
    | with_reducible apply sound_of_some (by assumption)
    | with_reducible apply sound_of_snd (by assumption)
    | with_reducible apply sound_on
    | with_reducible apply sound_getD
    | (with_reducible refine sound_mk ?_ rfl rfl rfl rfl rfl rfl rfl; first | with_reducible assumption | with_reducible apply State.setFlag_sound | with_reducible apply State.setFld_sound | with_reducible apply State.flashOpen_sound | with_reducible apply sound_foldl | with_reducible apply sound_foldl_fst)
    | (with_reducible refine sound_mk_wf ?_ rfl ?_ ?_ ?_ ?_ rfl rfl <;> first | with_reducible assumption | with_reducible apply State.setFlag_sound | with_reducible apply State.setFld_sound | with_reducible apply State.flashOpen_sound | with_reducible apply sound_foldl | with_reducible apply sound_foldl_fst | exact id | exact fun _ => cellWf_nil _ | exact cellWf_write _ _ | exact cellWf_clear _ _ | exact cellWf_filter _)
    | dsimp only
    | split

theorem execFlashReady_sound {q : Base} : ∀ a0 {s : State}, Sound q s → OutSound q (execFlashReady a0 s) := by
  intros
  unfold execFlashReady
  repeat' first
    | with_reducible assumption
    | with_reducible apply outSound_next
    | with_reducible apply State.flashUp_sound
    | with_reducible apply sound_foldl
    | with_reducible apply sound_foldl_fst
    | intro _
    | with_reducible apply sound_of_fst (by assumption)
    | with_reducible apply sound_of_some (by assumption)
    | with_reducible apply sound_of_snd (by assumption)
    | with_reducible apply sound_on
    | with_reducible apply sound_getD
    | (with_reducible refine sound_mk ?_ rfl rfl rfl rfl rfl rfl rfl; first | with_reducible assumption | with_reducible apply State.flashUp_sound | with_reducible apply sound_foldl | with_reducible apply sound_foldl_fst)
    | (with_reducible refine sound_mk_wf ?_ rfl ?_ ?_ ?_ ?_ rfl rfl <;> first | with_reducible assumption | with_reducible apply State.flashUp_sound | with_reducible apply sound_foldl | with_reducible apply sound_foldl_fst | exact id | exact fun _ => cellWf_nil _ | exact cellWf_write _ _ | exact cellWf_clear _ _ | exact cellWf_filter _)
    | dsimp only
    | split

theorem State.readJunctions_sound {q : Base} : ∀ {s : State} a1, Sound q s → Sound q (State.readJunctions s a1) := by
  intros
  unfold State.readJunctions
  repeat' first
    | with_reducible assumption
    | with_reducible apply State.setFlag_sound
    | with_reducible apply State.setFld_sound
    | with_reducible apply State.afterReset_sound
    | with_reducible apply State.emit_sound
    | with_reducible apply State.event_sound
    | with_reducible apply sound_foldl
    | with_reducible apply sound_foldl_fst
    | intro _
    | with_reducible apply sound_ite
    | with_reducible apply sound_of_fst (by assumption)
    | with_reducible apply sound_of_some (by assumption)
    | with_reducible apply sound_of_snd (by assumption)
    | with_reducible apply sound_on
    | with_reducible apply sound_getD
    | (with_reducible refine sound_mk ?_ rfl rfl rfl rfl rfl rfl rfl; first | with_reducible assumption | with_reducible apply State.setFlag_sound | with_reducible apply State.setFld_sound | with_reducible apply State.afterReset_sound | with_reducible apply State.emit_sound | with_reducible apply State.event_sound | with_reducible apply sound_foldl | with_reducible apply sound_foldl_fst)
    | (with_reducible refine sound_mk_wf ?_ rfl ?_ ?_ ?_ ?_ rfl rfl <;> first | with_reducible assumption | with_reducible apply State.setFlag_sound | with_reducible apply State.setFld_sound | with_reducible apply State.afterReset_sound | with_reducible apply State.emit_sound | with_reducible apply State.event_sound | with_reducible apply sound_foldl | with_reducible apply sound_foldl_fst | exact id | exact fun _ => cellWf_nil _ | exact cellWf_write _ _ | exact cellWf_clear _ _ | exact cellWf_filter _)
    | dsimp only
    | split

theorem execJunctionTempRead_sound {q : Base} : ∀ a0 {s : State}, Sound q s → OutSound q (execJunctionTempRead a0 s) := by
  intros
  unfold execJunctionTempRead
  repeat' first
    | with_reducible assumption
    | with_reducible apply outSound_next
    | with_reducible apply State.readJunctions_sound
    | with_reducible apply sound_foldl
    | with_reducible apply sound_foldl_fst
    | intro _
    | with_reducible apply sound_of_fst (by assumption)
    | with_reducible apply sound_of_some (by assumption)
    | with_reducible apply sound_of_snd (by assumption)
    | with_reducible apply sound_on
    | with_reducible apply sound_getD
    | (with_reducible refine sound_mk ?_ rfl rfl rfl rfl rfl rfl rfl; first | with_reducible assumption | with_reducible apply State.readJunctions_sound | with_reducible apply sound_foldl | with_reducible apply sound_foldl_fst)
    | (with_reducible refine sound_mk_wf ?_ rfl ?_ ?_ ?_ ?_ rfl rfl <;> first | with_reducible assumption | with_reducible apply State.readJunctions_sound | with_reducible apply sound_foldl | with_reducible apply sound_foldl_fst | exact id | exact fun _ => cellWf_nil _ | exact cellWf_write _ _ | exact cellWf_clear _ _ | exact cellWf_filter _)
    | dsimp only
    | split

end Sys2Proof.Machine
end

