-- ==== Sys2Proof/Laws/KeepChecks.lean ====
section
/-! SUPPORT. What the operations of `Machine/Checks.lean` keep: the memories in canonical form and the queue. -/

set_option linter.unusedTactic false
set_option linter.unreachableTactic false

namespace Sys2Proof.Machine

theorem payloadCheck_keeps {q : Base} : ∀ a0, Keeps q (payloadCheck a0) := by
  intros
  unfold payloadCheck
  repeat' first
    | with_reducible assumption
    | with_reducible exact keeps_pure
    | with_reducible exact keeps_throw
    | with_reducible exact keeps_read
    | with_reducible apply keeps_get_bind
    | with_reducible exact keeps_get
    | with_reducible apply keeps_bind
    | with_reducible apply keeps_set
    | with_reducible apply keeps_modify
    | with_reducible apply keeps_forM
    | with_reducible apply keeps_mapM
    | with_reducible apply keeps_foldlM
    | with_reducible apply keeps_forIn
    | with_reducible apply keeps_tryCatch
    | with_reducible apply keeps_map
    | with_reducible apply keeps_seq
    | with_reducible apply attnCheck_keeps
    | with_reducible apply moveCheck_keeps
    | with_reducible apply fnLoadCheck_keeps
    | with_reducible apply convCheck_keeps
    | with_reducible apply kvAppendCheck_keeps
    | with_reducible apply seqCheck_keeps
    | with_reducible apply collCheck_keeps
    | with_reducible apply decCheck_keeps
    | with_reducible apply rowCheck_keeps
    | with_reducible apply seqLeaveCheck_keeps
    | with_reducible apply mmCheck_keeps
    | with_reducible apply vpPayCheck_keeps
    | with_reducible apply pairCheck_keeps
    | with_reducible apply mergeCheck_keeps
    | with_reducible apply pageShareCheck_keeps
    | with_reducible apply boxCheck_keeps
    | with_reducible apply biasLoadCheck_keeps
    | with_reducible apply splitCheck_keeps
    | with_reducible apply encCheck_keeps
    | with_reducible apply sound_foldl
    | with_reducible apply sound_foldl_fst
    | intro _
    | with_reducible apply keeps_ite
    | with_reducible apply sound_of_fst (by assumption)
    | with_reducible apply sound_of_some (by assumption)
    | with_reducible apply sound_of_snd (by assumption)
    | with_reducible apply sound_on
    | with_reducible apply sound_getD
    | (with_reducible refine sound_mk ?_ rfl rfl rfl rfl rfl rfl rfl; first | with_reducible assumption | with_reducible apply attnCheck_keeps | with_reducible apply moveCheck_keeps | with_reducible apply fnLoadCheck_keeps | with_reducible apply convCheck_keeps | with_reducible apply kvAppendCheck_keeps | with_reducible apply seqCheck_keeps | with_reducible apply collCheck_keeps | with_reducible apply decCheck_keeps | with_reducible apply rowCheck_keeps | with_reducible apply seqLeaveCheck_keeps | with_reducible apply mmCheck_keeps | with_reducible apply vpPayCheck_keeps | with_reducible apply pairCheck_keeps | with_reducible apply mergeCheck_keeps | with_reducible apply pageShareCheck_keeps | with_reducible apply boxCheck_keeps | with_reducible apply biasLoadCheck_keeps | with_reducible apply splitCheck_keeps | with_reducible apply encCheck_keeps | with_reducible apply sound_foldl | with_reducible apply sound_foldl_fst)
    | dsimp only
    | split

theorem State.fetchDevice_sound {q : Base} : ∀ {s : State} a1 a2 a3 a4, Sound q s → Sound q (State.fetchDevice s a1 a2 a3 a4).1 := by
  intros
  unfold State.fetchDevice
  repeat' first
    | with_reducible assumption
    | with_reducible apply State.readMem_sound
    | with_reducible apply sound_foldl
    | with_reducible apply sound_foldl_fst
    | intro _
    | with_reducible apply sound_ite_fst
    | with_reducible apply sound_of_fst (by assumption)
    | with_reducible apply sound_of_some (by assumption)
    | with_reducible apply sound_of_snd (by assumption)
    | with_reducible apply sound_on
    | with_reducible apply sound_getD
    | (with_reducible refine sound_mk ?_ rfl rfl rfl rfl rfl rfl rfl; first | with_reducible assumption | with_reducible apply State.readMem_sound | with_reducible apply sound_foldl | with_reducible apply sound_foldl_fst)
    | dsimp only
    | split

theorem State.pushFetched_sound {q : Base} : ∀ {s : State} a1 a2, Sound q s → Sound q (State.pushFetched s a1 a2) := by
  intros
  unfold State.pushFetched
  repeat' first
    | with_reducible assumption
    | with_reducible apply State.noteHead_sound
    | with_reducible apply State.trace_sound
    | with_reducible apply State.setRing_sound
    | with_reducible apply sound_foldl
    | with_reducible apply sound_foldl_fst
    | intro _
    | with_reducible apply sound_ite
    | with_reducible apply sound_of_fst (by assumption)
    | with_reducible apply sound_of_some (by assumption)
    | with_reducible apply sound_of_snd (by assumption)
    | with_reducible apply sound_on
    | with_reducible apply sound_getD
    | (with_reducible refine sound_mk ?_ rfl rfl rfl rfl rfl rfl rfl; first | with_reducible assumption | with_reducible apply State.noteHead_sound | with_reducible apply State.trace_sound | with_reducible apply State.setRing_sound | with_reducible apply sound_foldl | with_reducible apply sound_foldl_fst)
    | dsimp only
    | split

theorem boundCheck_keeps {q : Base} : ∀ a0, Keeps q (boundCheck a0) := by
  intros
  unfold boundCheck
  repeat' first
    | with_reducible assumption
    | with_reducible exact keeps_pure
    | with_reducible exact keeps_throw
    | with_reducible exact keeps_read
    | with_reducible apply keeps_get_bind
    | with_reducible exact keeps_get
    | with_reducible apply keeps_bind
    | with_reducible apply keeps_set
    | with_reducible apply keeps_modify
    | with_reducible apply keeps_forM
    | with_reducible apply keeps_mapM
    | with_reducible apply keeps_foldlM
    | with_reducible apply keeps_forIn
    | with_reducible apply keeps_tryCatch
    | with_reducible apply keeps_map
    | with_reducible apply keeps_seq
    | with_reducible apply attnBias_keeps
    | with_reducible apply vpJudge_keeps
    | with_reducible apply collBound_keeps
    | with_reducible apply sound_foldl
    | with_reducible apply sound_foldl_fst
    | intro _
    | with_reducible apply keeps_ite
    | with_reducible apply sound_of_fst (by assumption)
    | with_reducible apply sound_of_some (by assumption)
    | with_reducible apply sound_of_snd (by assumption)
    | with_reducible apply sound_on
    | with_reducible apply sound_getD
    | (with_reducible refine sound_mk ?_ rfl rfl rfl rfl rfl rfl rfl; first | with_reducible assumption | with_reducible apply attnBias_keeps | with_reducible apply vpJudge_keeps | with_reducible apply collBound_keeps | with_reducible apply sound_foldl | with_reducible apply sound_foldl_fst)
    | dsimp only
    | split

end Sys2Proof.Machine
end

