-- ==== Sys2Proof/Laws/KeepSec.lean ====
section
/-! SUPPORT. What the operations of `Machine/Sec.lean` keep: the memories in canonical form and the queue. -/

set_option linter.unusedTactic false
set_option linter.unreachableTactic false

namespace Sys2Proof.Machine

theorem State.secResult_sound {q : Base} : ∀ {s : State} a1 a2 a3, Sound q s → Sound q (State.secResult s a1 a2 a3) := by
  intros
  unfold State.secResult
  repeat' first
    | with_reducible assumption
    | with_reducible apply State.setFld_sound
    | with_reducible apply State.emit_sound
    | with_reducible apply sound_foldl
    | with_reducible apply sound_foldl_fst
    | intro _
    | with_reducible apply sound_ite
    | with_reducible apply sound_of_fst (by assumption)
    | with_reducible apply sound_of_some (by assumption)
    | with_reducible apply sound_of_snd (by assumption)
    | with_reducible apply sound_on
    | with_reducible apply sound_getD
    | (with_reducible refine sound_mk ?_ rfl rfl rfl rfl rfl rfl rfl; first | with_reducible assumption | with_reducible apply State.setFld_sound | with_reducible apply State.emit_sound | with_reducible apply sound_foldl | with_reducible apply sound_foldl_fst)
    | (with_reducible refine sound_mk_wf ?_ rfl ?_ ?_ ?_ ?_ rfl rfl <;> first | with_reducible assumption | with_reducible apply State.setFld_sound | with_reducible apply State.emit_sound | with_reducible apply sound_foldl | with_reducible apply sound_foldl_fst | exact id | exact fun _ => cellWf_nil _ | exact cellWf_write _ _ | exact cellWf_clear _ _ | exact cellWf_filter _)
    | dsimp only
    | split

theorem State.getChallenge_sound {q : Base} : ∀ {s : State} a1, Sound q s → Sound q (State.getChallenge s a1) := by
  intros
  unfold State.getChallenge
  repeat' first
    | with_reducible assumption
    | with_reducible apply State.secResult_sound
    | with_reducible apply sound_foldl
    | with_reducible apply sound_foldl_fst
    | intro _
    | with_reducible apply sound_ite
    | with_reducible apply sound_of_fst (by assumption)
    | with_reducible apply sound_of_some (by assumption)
    | with_reducible apply sound_of_snd (by assumption)
    | with_reducible apply sound_on
    | with_reducible apply sound_getD
    | (with_reducible refine sound_mk ?_ rfl rfl rfl rfl rfl rfl rfl; first | with_reducible assumption | with_reducible apply State.secResult_sound | with_reducible apply sound_foldl | with_reducible apply sound_foldl_fst)
    | (with_reducible refine sound_mk_wf ?_ rfl ?_ ?_ ?_ ?_ rfl rfl <;> first | with_reducible assumption | with_reducible apply State.secResult_sound | with_reducible apply sound_foldl | with_reducible apply sound_foldl_fst | exact id | exact fun _ => cellWf_nil _ | exact cellWf_write _ _ | exact cellWf_clear _ _ | exact cellWf_filter _)
    | dsimp only
    | split

theorem execGetChallenge_sound {q : Base} : ∀ a0 a1 {s : State}, Sound q s → OutSound q (execGetChallenge a0 a1 s) := by
  intros
  unfold execGetChallenge
  repeat' first
    | with_reducible assumption
    | with_reducible apply outSound_next
    | with_reducible apply State.getChallenge_sound
    | with_reducible apply State.tick_sound
    | with_reducible apply sound_foldl
    | with_reducible apply sound_foldl_fst
    | intro _
    | with_reducible apply sound_of_fst (by assumption)
    | with_reducible apply sound_of_some (by assumption)
    | with_reducible apply sound_of_snd (by assumption)
    | with_reducible apply sound_on
    | with_reducible apply sound_getD
    | (with_reducible refine sound_mk ?_ rfl rfl rfl rfl rfl rfl rfl; first | with_reducible assumption | with_reducible apply State.getChallenge_sound | with_reducible apply State.tick_sound | with_reducible apply sound_foldl | with_reducible apply sound_foldl_fst)
    | (with_reducible refine sound_mk_wf ?_ rfl ?_ ?_ ?_ ?_ rfl rfl <;> first | with_reducible assumption | with_reducible apply State.getChallenge_sound | with_reducible apply State.tick_sound | with_reducible apply sound_foldl | with_reducible apply sound_foldl_fst | exact id | exact fun _ => cellWf_nil _ | exact cellWf_write _ _ | exact cellWf_clear _ _ | exact cellWf_filter _)
    | dsimp only
    | split

theorem State.expireNonce_sound {q : Base} : ∀ {s : State}, Sound q s → Sound q (State.expireNonce s) := by
  intros
  unfold State.expireNonce
  repeat' first
    | with_reducible assumption
    | with_reducible apply sound_foldl
    | with_reducible apply sound_foldl_fst
    | intro _
    | with_reducible apply sound_ite
    | with_reducible apply sound_of_fst (by assumption)
    | with_reducible apply sound_of_some (by assumption)
    | with_reducible apply sound_of_snd (by assumption)
    | with_reducible apply sound_on
    | with_reducible apply sound_getD
    | (with_reducible refine sound_mk ?_ rfl rfl rfl rfl rfl rfl rfl; first | with_reducible assumption | with_reducible apply sound_foldl | with_reducible apply sound_foldl_fst)
    | (with_reducible refine sound_mk_wf ?_ rfl ?_ ?_ ?_ ?_ rfl rfl <;> first | with_reducible assumption | with_reducible apply sound_foldl | with_reducible apply sound_foldl_fst | exact id | exact fun _ => cellWf_nil _ | exact cellWf_write _ _ | exact cellWf_clear _ _ | exact cellWf_filter _)
    | dsimp only
    | split

theorem execNonceExpiry_sound {q : Base} : ∀ a0 {s : State}, Sound q s → OutSound q (execNonceExpiry a0 s) := by
  intros
  unfold execNonceExpiry
  repeat' first
    | with_reducible assumption
    | with_reducible apply outSound_next
    | with_reducible apply State.expireNonce_sound
    | with_reducible apply State.tick_sound
    | with_reducible apply sound_foldl
    | with_reducible apply sound_foldl_fst
    | intro _
    | with_reducible apply sound_of_fst (by assumption)
    | with_reducible apply sound_of_some (by assumption)
    | with_reducible apply sound_of_snd (by assumption)
    | with_reducible apply sound_on
    | with_reducible apply sound_getD
    | (with_reducible refine sound_mk ?_ rfl rfl rfl rfl rfl rfl rfl; first | with_reducible assumption | with_reducible apply State.expireNonce_sound | with_reducible apply State.tick_sound | with_reducible apply sound_foldl | with_reducible apply sound_foldl_fst)
    | (with_reducible refine sound_mk_wf ?_ rfl ?_ ?_ ?_ ?_ rfl rfl <;> first | with_reducible assumption | with_reducible apply State.expireNonce_sound | with_reducible apply State.tick_sound | with_reducible apply sound_foldl | with_reducible apply sound_foldl_fst | exact id | exact fun _ => cellWf_nil _ | exact cellWf_write _ _ | exact cellWf_clear _ _ | exact cellWf_filter _)
    | dsimp only
    | split

theorem State.debugNone_sound {q : Base} : ∀ {s : State}, Sound q s → Sound q (State.debugNone s) := by
  intros
  unfold State.debugNone
  repeat' first
    | with_reducible assumption
    | with_reducible apply State.setFld_sound
    | with_reducible apply sound_foldl
    | with_reducible apply sound_foldl_fst
    | intro _
    | with_reducible apply sound_ite
    | with_reducible apply sound_of_fst (by assumption)
    | with_reducible apply sound_of_some (by assumption)
    | with_reducible apply sound_of_snd (by assumption)
    | with_reducible apply sound_on
    | with_reducible apply sound_getD
    | (with_reducible refine sound_mk ?_ rfl rfl rfl rfl rfl rfl rfl; first | with_reducible assumption | with_reducible apply State.setFld_sound | with_reducible apply sound_foldl | with_reducible apply sound_foldl_fst)
    | (with_reducible refine sound_mk_wf ?_ rfl ?_ ?_ ?_ ?_ rfl rfl <;> first | with_reducible assumption | with_reducible apply State.setFld_sound | with_reducible apply sound_foldl | with_reducible apply sound_foldl_fst | exact id | exact fun _ => cellWf_nil _ | exact cellWf_write _ _ | exact cellWf_clear _ _ | exact cellWf_filter _)
    | dsimp only
    | split

theorem State.debugLock_sound {q : Base} : ∀ {s : State} a1, Sound q s → Sound q (State.debugLock s a1) := by
  intros
  unfold State.debugLock
  repeat' first
    | with_reducible assumption
    | with_reducible apply State.secResult_sound
    | with_reducible apply State.debugNone_sound
    | with_reducible apply sound_foldl
    | with_reducible apply sound_foldl_fst
    | intro _
    | with_reducible apply sound_ite
    | with_reducible apply sound_of_fst (by assumption)
    | with_reducible apply sound_of_some (by assumption)
    | with_reducible apply sound_of_snd (by assumption)
    | with_reducible apply sound_on
    | with_reducible apply sound_getD
    | (with_reducible refine sound_mk ?_ rfl rfl rfl rfl rfl rfl rfl; first | with_reducible assumption | with_reducible apply State.secResult_sound | with_reducible apply State.debugNone_sound | with_reducible apply sound_foldl | with_reducible apply sound_foldl_fst)
    | (with_reducible refine sound_mk_wf ?_ rfl ?_ ?_ ?_ ?_ rfl rfl <;> first | with_reducible assumption | with_reducible apply State.secResult_sound | with_reducible apply State.debugNone_sound | with_reducible apply sound_foldl | with_reducible apply sound_foldl_fst | exact id | exact fun _ => cellWf_nil _ | exact cellWf_write _ _ | exact cellWf_clear _ _ | exact cellWf_filter _)
    | dsimp only
    | split

theorem execDebugLock_sound {q : Base} : ∀ a0 {s : State}, Sound q s → OutSound q (execDebugLock a0 s) := by
  intros
  unfold execDebugLock
  repeat' first
    | with_reducible assumption
    | with_reducible apply outSound_next
    | with_reducible apply State.debugLock_sound
    | with_reducible apply sound_foldl
    | with_reducible apply sound_foldl_fst
    | intro _
    | with_reducible apply sound_of_fst (by assumption)
    | with_reducible apply sound_of_some (by assumption)
    | with_reducible apply sound_of_snd (by assumption)
    | with_reducible apply sound_on
    | with_reducible apply sound_getD
    | (with_reducible refine sound_mk ?_ rfl rfl rfl rfl rfl rfl rfl; first | with_reducible assumption | with_reducible apply State.debugLock_sound | with_reducible apply sound_foldl | with_reducible apply sound_foldl_fst)
    | (with_reducible refine sound_mk_wf ?_ rfl ?_ ?_ ?_ ?_ rfl rfl <;> first | with_reducible assumption | with_reducible apply State.debugLock_sound | with_reducible apply sound_foldl | with_reducible apply sound_foldl_fst | exact id | exact fun _ => cellWf_nil _ | exact cellWf_write _ _ | exact cellWf_clear _ _ | exact cellWf_filter _)
    | dsimp only
    | split

theorem State.expireDebug_sound {q : Base} : ∀ {s : State}, Sound q s → Sound q (State.expireDebug s) := by
  intros
  unfold State.expireDebug
  repeat' first
    | with_reducible assumption
    | with_reducible apply State.debugNone_sound
    | with_reducible apply sound_foldl
    | with_reducible apply sound_foldl_fst
    | intro _
    | with_reducible apply sound_ite
    | with_reducible apply sound_of_fst (by assumption)
    | with_reducible apply sound_of_some (by assumption)
    | with_reducible apply sound_of_snd (by assumption)
    | with_reducible apply sound_on
    | with_reducible apply sound_getD
    | (with_reducible refine sound_mk ?_ rfl rfl rfl rfl rfl rfl rfl; first | with_reducible assumption | with_reducible apply State.debugNone_sound | with_reducible apply sound_foldl | with_reducible apply sound_foldl_fst)
    | (with_reducible refine sound_mk_wf ?_ rfl ?_ ?_ ?_ ?_ rfl rfl <;> first | with_reducible assumption | with_reducible apply State.debugNone_sound | with_reducible apply sound_foldl | with_reducible apply sound_foldl_fst | exact id | exact fun _ => cellWf_nil _ | exact cellWf_write _ _ | exact cellWf_clear _ _ | exact cellWf_filter _)
    | dsimp only
    | split

theorem execDebugExpiry_sound {q : Base} : ∀ a0 {s : State}, Sound q s → OutSound q (execDebugExpiry a0 s) := by
  intros
  unfold execDebugExpiry
  repeat' first
    | with_reducible assumption
    | with_reducible apply outSound_next
    | with_reducible apply State.expireDebug_sound
    | with_reducible apply State.tick_sound
    | with_reducible apply sound_foldl
    | with_reducible apply sound_foldl_fst
    | intro _
    | with_reducible apply sound_of_fst (by assumption)
    | with_reducible apply sound_of_some (by assumption)
    | with_reducible apply sound_of_snd (by assumption)
    | with_reducible apply sound_on
    | with_reducible apply sound_getD
    | (with_reducible refine sound_mk ?_ rfl rfl rfl rfl rfl rfl rfl; first | with_reducible assumption | with_reducible apply State.expireDebug_sound | with_reducible apply State.tick_sound | with_reducible apply sound_foldl | with_reducible apply sound_foldl_fst)
    | (with_reducible refine sound_mk_wf ?_ rfl ?_ ?_ ?_ ?_ rfl rfl <;> first | with_reducible assumption | with_reducible apply State.expireDebug_sound | with_reducible apply State.tick_sound | with_reducible apply sound_foldl | with_reducible apply sound_foldl_fst | exact id | exact fun _ => cellWf_nil _ | exact cellWf_write _ _ | exact cellWf_clear _ _ | exact cellWf_filter _)
    | dsimp only
    | split

theorem State.showIde_sound {q : Base} : ∀ {s : State}, Sound q s → Sound q (State.showIde s) := by
  intros
  unfold State.showIde
  repeat' first
    | with_reducible assumption
    | with_reducible apply State.setFlag_sound
    | with_reducible apply sound_foldl
    | with_reducible apply sound_foldl_fst
    | intro _
    | with_reducible apply sound_ite
    | with_reducible apply sound_of_fst (by assumption)
    | with_reducible apply sound_of_some (by assumption)
    | with_reducible apply sound_of_snd (by assumption)
    | with_reducible apply sound_on
    | with_reducible apply sound_getD
    | (with_reducible refine sound_mk ?_ rfl rfl rfl rfl rfl rfl rfl; first | with_reducible assumption | with_reducible apply State.setFlag_sound | with_reducible apply sound_foldl | with_reducible apply sound_foldl_fst)
    | (with_reducible refine sound_mk_wf ?_ rfl ?_ ?_ ?_ ?_ rfl rfl <;> first | with_reducible assumption | with_reducible apply State.setFlag_sound | with_reducible apply sound_foldl | with_reducible apply sound_foldl_fst | exact id | exact fun _ => cellWf_nil _ | exact cellWf_write _ _ | exact cellWf_clear _ _ | exact cellWf_filter _)
    | dsimp only
    | split

theorem State.endSessions_sound {q : Base} : ∀ {s : State}, Sound q s → Sound q (State.endSessions s) := by
  intros
  unfold State.endSessions
  repeat' first
    | with_reducible assumption
    | with_reducible apply State.showIde_sound
    | with_reducible apply sound_foldl
    | with_reducible apply sound_foldl_fst
    | intro _
    | with_reducible apply sound_ite
    | with_reducible apply sound_of_fst (by assumption)
    | with_reducible apply sound_of_some (by assumption)
    | with_reducible apply sound_of_snd (by assumption)
    | with_reducible apply sound_on
    | with_reducible apply sound_getD
    | (with_reducible refine sound_mk ?_ rfl rfl rfl rfl rfl rfl rfl; first | with_reducible assumption | with_reducible apply State.showIde_sound | with_reducible apply sound_foldl | with_reducible apply sound_foldl_fst)
    | (with_reducible refine sound_mk_wf ?_ rfl ?_ ?_ ?_ ?_ rfl rfl <;> first | with_reducible assumption | with_reducible apply State.showIde_sound | with_reducible apply sound_foldl | with_reducible apply sound_foldl_fst | exact id | exact fun _ => cellWf_nil _ | exact cellWf_write _ _ | exact cellWf_clear _ _ | exact cellWf_filter _)
    | dsimp only
    | split

theorem State.grantDebug_sound {q : Base} : ∀ {s : State} a1 a2 a3, Sound q s → Sound q (State.grantDebug s a1 a2 a3) := by
  intros
  unfold State.grantDebug
  repeat' first
    | with_reducible assumption
    | with_reducible apply State.endSessions_sound
    | with_reducible apply State.wipeMemory_sound
    | with_reducible apply State.setFld_sound
    | with_reducible apply sound_foldl
    | with_reducible apply sound_foldl_fst
    | intro _
    | with_reducible apply sound_ite
    | with_reducible apply sound_of_fst (by assumption)
    | with_reducible apply sound_of_some (by assumption)
    | with_reducible apply sound_of_snd (by assumption)
    | with_reducible apply sound_on
    | with_reducible apply sound_getD
    | (with_reducible refine sound_mk ?_ rfl rfl rfl rfl rfl rfl rfl; first | with_reducible assumption | with_reducible apply State.endSessions_sound | with_reducible apply State.wipeMemory_sound | with_reducible apply State.setFld_sound | with_reducible apply sound_foldl | with_reducible apply sound_foldl_fst)
    | (with_reducible refine sound_mk_wf ?_ rfl ?_ ?_ ?_ ?_ rfl rfl <;> first | with_reducible assumption | with_reducible apply State.endSessions_sound | with_reducible apply State.wipeMemory_sound | with_reducible apply State.setFld_sound | with_reducible apply sound_foldl | with_reducible apply sound_foldl_fst | exact id | exact fun _ => cellWf_nil _ | exact cellWf_write _ _ | exact cellWf_clear _ _ | exact cellWf_filter _)
    | dsimp only
    | split

theorem State.beginTransition_sound {q : Base} : ∀ {s : State} a1 a2 a3, Sound q s → Sound q (State.beginTransition s a1 a2 a3) := by
  intros
  unfold State.beginTransition
  repeat' first
    | with_reducible assumption
    | with_reducible apply State.sendDetached_sound
    | with_reducible apply State.stopFeeds_sound
    | with_reducible apply State.cancelUnstarted_sound
    | with_reducible apply State.stopEmitting_sound
    | with_reducible apply sound_foldl
    | with_reducible apply sound_foldl_fst
    | intro _
    | with_reducible apply sound_ite
    | with_reducible apply sound_of_fst (by assumption)
    | with_reducible apply sound_of_some (by assumption)
    | with_reducible apply sound_of_snd (by assumption)
    | with_reducible apply sound_on
    | with_reducible apply sound_getD
    | (with_reducible refine sound_mk ?_ rfl rfl rfl rfl rfl rfl rfl; first | with_reducible assumption | with_reducible apply State.sendDetached_sound | with_reducible apply State.stopFeeds_sound | with_reducible apply State.cancelUnstarted_sound | with_reducible apply State.stopEmitting_sound | with_reducible apply sound_foldl | with_reducible apply sound_foldl_fst)
    | (with_reducible refine sound_mk_wf ?_ rfl ?_ ?_ ?_ ?_ rfl rfl <;> first | with_reducible assumption | with_reducible apply State.sendDetached_sound | with_reducible apply State.stopFeeds_sound | with_reducible apply State.cancelUnstarted_sound | with_reducible apply State.stopEmitting_sound | with_reducible apply sound_foldl | with_reducible apply sound_foldl_fst | exact id | exact fun _ => cellWf_nil _ | exact cellWf_write _ _ | exact cellWf_clear _ _ | exact cellWf_filter _)
    | dsimp only
    | split

theorem State.applyToken_sound {q : Base} : ∀ {s : State} a1, Sound q s → Sound q (State.applyToken s a1) := by
  intros
  unfold State.applyToken
  repeat' first
    | with_reducible assumption
    | with_reducible apply State.grantDebug_sound
    | with_reducible apply State.beginTransition_sound
    | with_reducible apply sound_foldl
    | with_reducible apply sound_foldl_fst
    | intro _
    | with_reducible apply sound_ite
    | with_reducible apply sound_of_fst (by assumption)
    | with_reducible apply sound_of_some (by assumption)
    | with_reducible apply sound_of_snd (by assumption)
    | with_reducible apply sound_on
    | with_reducible apply sound_getD
    | (with_reducible refine sound_mk ?_ rfl rfl rfl rfl rfl rfl rfl; first | with_reducible assumption | with_reducible apply State.grantDebug_sound | with_reducible apply State.beginTransition_sound | with_reducible apply sound_foldl | with_reducible apply sound_foldl_fst)
    | (with_reducible refine sound_mk_wf ?_ rfl ?_ ?_ ?_ ?_ rfl rfl <;> first | with_reducible assumption | with_reducible apply State.grantDebug_sound | with_reducible apply State.beginTransition_sound | with_reducible apply sound_foldl | with_reducible apply sound_foldl_fst | exact id | exact fun _ => cellWf_nil _ | exact cellWf_write _ _ | exact cellWf_clear _ _ | exact cellWf_filter _)
    | dsimp only
    | split

theorem State.submitToken_sound {q : Base} : ∀ {s : State} a1 a2, Sound q s → Sound q (State.submitToken s a1 a2) := by
  intros
  unfold State.submitToken
  repeat' first
    | with_reducible assumption
    | with_reducible apply State.applyToken_sound
    | with_reducible apply State.secResult_sound
    | with_reducible apply State.grantDebug_sound
    | with_reducible apply sound_foldl
    | with_reducible apply sound_foldl_fst
    | intro _
    | with_reducible apply sound_ite
    | with_reducible apply sound_of_fst (by assumption)
    | with_reducible apply sound_of_some (by assumption)
    | with_reducible apply sound_of_snd (by assumption)
    | with_reducible apply sound_on
    | with_reducible apply sound_getD
    | (with_reducible refine sound_mk ?_ rfl rfl rfl rfl rfl rfl rfl; first | with_reducible assumption | with_reducible apply State.applyToken_sound | with_reducible apply State.secResult_sound | with_reducible apply State.grantDebug_sound | with_reducible apply sound_foldl | with_reducible apply sound_foldl_fst)
    | (with_reducible refine sound_mk_wf ?_ rfl ?_ ?_ ?_ ?_ rfl rfl <;> first | with_reducible assumption | with_reducible apply State.applyToken_sound | with_reducible apply State.secResult_sound | with_reducible apply State.grantDebug_sound | with_reducible apply sound_foldl | with_reducible apply sound_foldl_fst | exact id | exact fun _ => cellWf_nil _ | exact cellWf_write _ _ | exact cellWf_clear _ _ | exact cellWf_filter _)
    | dsimp only
    | split

theorem execDebugTrace_sound {q : Base} : ∀ a0 a1 {s : State}, Sound q s → OutSound q (execDebugTrace a0 a1 s) := by
  intros
  unfold execDebugTrace
  repeat' first
    | with_reducible assumption
    | with_reducible apply outSound_next
    | with_reducible apply State.submitToken_sound
    | with_reducible apply State.tick_sound
    | with_reducible apply sound_foldl
    | with_reducible apply sound_foldl_fst
    | intro _
    | with_reducible apply sound_of_fst (by assumption)
    | with_reducible apply sound_of_some (by assumption)
    | with_reducible apply sound_of_snd (by assumption)
    | with_reducible apply sound_on
    | with_reducible apply sound_getD
    | (with_reducible refine sound_mk ?_ rfl rfl rfl rfl rfl rfl rfl; first | with_reducible assumption | with_reducible apply State.submitToken_sound | with_reducible apply State.tick_sound | with_reducible apply sound_foldl | with_reducible apply sound_foldl_fst)
    | (with_reducible refine sound_mk_wf ?_ rfl ?_ ?_ ?_ ?_ rfl rfl <;> first | with_reducible assumption | with_reducible apply State.submitToken_sound | with_reducible apply State.tick_sound | with_reducible apply sound_foldl | with_reducible apply sound_foldl_fst | exact id | exact fun _ => cellWf_nil _ | exact cellWf_write _ _ | exact cellWf_clear _ _ | exact cellWf_filter _)
    | dsimp only
    | split

theorem execDebugInvasive_sound {q : Base} : ∀ a0 a1 {s : State}, Sound q s → OutSound q (execDebugInvasive a0 a1 s) := by
  intros
  unfold execDebugInvasive
  repeat' first
    | with_reducible assumption
    | with_reducible apply outSound_next
    | with_reducible apply State.submitToken_sound
    | with_reducible apply State.tick_sound
    | with_reducible apply sound_foldl
    | with_reducible apply sound_foldl_fst
    | intro _
    | with_reducible apply sound_of_fst (by assumption)
    | with_reducible apply sound_of_some (by assumption)
    | with_reducible apply sound_of_snd (by assumption)
    | with_reducible apply sound_on
    | with_reducible apply sound_getD
    | (with_reducible refine sound_mk ?_ rfl rfl rfl rfl rfl rfl rfl; first | with_reducible assumption | with_reducible apply State.submitToken_sound | with_reducible apply State.tick_sound | with_reducible apply sound_foldl | with_reducible apply sound_foldl_fst)
    | (with_reducible refine sound_mk_wf ?_ rfl ?_ ?_ ?_ ?_ rfl rfl <;> first | with_reducible assumption | with_reducible apply State.submitToken_sound | with_reducible apply State.tick_sound | with_reducible apply sound_foldl | with_reducible apply sound_foldl_fst | exact id | exact fun _ => cellWf_nil _ | exact cellWf_write _ _ | exact cellWf_clear _ _ | exact cellWf_filter _)
    | dsimp only
    | split

theorem execEnrollOwner_sound {q : Base} : ∀ a0 a1 {s : State}, Sound q s → OutSound q (execEnrollOwner a0 a1 s) := by
  intros
  unfold execEnrollOwner
  repeat' first
    | with_reducible assumption
    | with_reducible apply outSound_next
    | with_reducible apply State.submitToken_sound
    | with_reducible apply State.tick_sound
    | with_reducible apply sound_foldl
    | with_reducible apply sound_foldl_fst
    | intro _
    | with_reducible apply sound_of_fst (by assumption)
    | with_reducible apply sound_of_some (by assumption)
    | with_reducible apply sound_of_snd (by assumption)
    | with_reducible apply sound_on
    | with_reducible apply sound_getD
    | (with_reducible refine sound_mk ?_ rfl rfl rfl rfl rfl rfl rfl; first | with_reducible assumption | with_reducible apply State.submitToken_sound | with_reducible apply State.tick_sound | with_reducible apply sound_foldl | with_reducible apply sound_foldl_fst)
    | (with_reducible refine sound_mk_wf ?_ rfl ?_ ?_ ?_ ?_ rfl rfl <;> first | with_reducible assumption | with_reducible apply State.submitToken_sound | with_reducible apply State.tick_sound | with_reducible apply sound_foldl | with_reducible apply sound_foldl_fst | exact id | exact fun _ => cellWf_nil _ | exact cellWf_write _ _ | exact cellWf_clear _ _ | exact cellWf_filter _)
    | dsimp only
    | split

theorem execEnterService_sound {q : Base} : ∀ a0 a1 {s : State}, Sound q s → OutSound q (execEnterService a0 a1 s) := by
  intros
  unfold execEnterService
  repeat' first
    | with_reducible assumption
    | with_reducible apply outSound_next
    | with_reducible apply State.submitToken_sound
    | with_reducible apply State.tick_sound
    | with_reducible apply sound_foldl
    | with_reducible apply sound_foldl_fst
    | intro _
    | with_reducible apply sound_of_fst (by assumption)
    | with_reducible apply sound_of_some (by assumption)
    | with_reducible apply sound_of_snd (by assumption)
    | with_reducible apply sound_on
    | with_reducible apply sound_getD
    | (with_reducible refine sound_mk ?_ rfl rfl rfl rfl rfl rfl rfl; first | with_reducible assumption | with_reducible apply State.submitToken_sound | with_reducible apply State.tick_sound | with_reducible apply sound_foldl | with_reducible apply sound_foldl_fst)
    | (with_reducible refine sound_mk_wf ?_ rfl ?_ ?_ ?_ ?_ rfl rfl <;> first | with_reducible assumption | with_reducible apply State.submitToken_sound | with_reducible apply State.tick_sound | with_reducible apply sound_foldl | with_reducible apply sound_foldl_fst | exact id | exact fun _ => cellWf_nil _ | exact cellWf_write _ _ | exact cellWf_clear _ _ | exact cellWf_filter _)
    | dsimp only
    | split

theorem execReturnToken_sound {q : Base} : ∀ a0 a1 {s : State}, Sound q s → OutSound q (execReturnToken a0 a1 s) := by
  intros
  unfold execReturnToken
  repeat' first
    | with_reducible assumption
    | with_reducible apply outSound_next
    | with_reducible apply State.submitToken_sound
    | with_reducible apply State.tick_sound
    | with_reducible apply sound_foldl
    | with_reducible apply sound_foldl_fst
    | intro _
    | with_reducible apply sound_of_fst (by assumption)
    | with_reducible apply sound_of_some (by assumption)
    | with_reducible apply sound_of_snd (by assumption)
    | with_reducible apply sound_on
    | with_reducible apply sound_getD
    | (with_reducible refine sound_mk ?_ rfl rfl rfl rfl rfl rfl rfl; first | with_reducible assumption | with_reducible apply State.submitToken_sound | with_reducible apply State.tick_sound | with_reducible apply sound_foldl | with_reducible apply sound_foldl_fst)
    | (with_reducible refine sound_mk_wf ?_ rfl ?_ ?_ ?_ ?_ rfl rfl <;> first | with_reducible assumption | with_reducible apply State.submitToken_sound | with_reducible apply State.tick_sound | with_reducible apply sound_foldl | with_reducible apply sound_foldl_fst | exact id | exact fun _ => cellWf_nil _ | exact cellWf_write _ _ | exact cellWf_clear _ _ | exact cellWf_filter _)
    | dsimp only
    | split

theorem execOwnerRelease_sound {q : Base} : ∀ a0 a1 {s : State}, Sound q s → OutSound q (execOwnerRelease a0 a1 s) := by
  intros
  unfold execOwnerRelease
  repeat' first
    | with_reducible assumption
    | with_reducible apply outSound_next
    | with_reducible apply State.submitToken_sound
    | with_reducible apply State.tick_sound
    | with_reducible apply sound_foldl
    | with_reducible apply sound_foldl_fst
    | intro _
    | with_reducible apply sound_of_fst (by assumption)
    | with_reducible apply sound_of_some (by assumption)
    | with_reducible apply sound_of_snd (by assumption)
    | with_reducible apply sound_on
    | with_reducible apply sound_getD
    | (with_reducible refine sound_mk ?_ rfl rfl rfl rfl rfl rfl rfl; first | with_reducible assumption | with_reducible apply State.submitToken_sound | with_reducible apply State.tick_sound | with_reducible apply sound_foldl | with_reducible apply sound_foldl_fst)
    | (with_reducible refine sound_mk_wf ?_ rfl ?_ ?_ ?_ ?_ rfl rfl <;> first | with_reducible assumption | with_reducible apply State.submitToken_sound | with_reducible apply State.tick_sound | with_reducible apply sound_foldl | with_reducible apply sound_foldl_fst | exact id | exact fun _ => cellWf_nil _ | exact cellWf_write _ _ | exact cellWf_clear _ _ | exact cellWf_filter _)
    | dsimp only
    | split

theorem execRetireToken_sound {q : Base} : ∀ a0 a1 {s : State}, Sound q s → OutSound q (execRetireToken a0 a1 s) := by
  intros
  unfold execRetireToken
  repeat' first
    | with_reducible assumption
    | with_reducible apply outSound_next
    | with_reducible apply State.submitToken_sound
    | with_reducible apply State.tick_sound
    | with_reducible apply sound_foldl
    | with_reducible apply sound_foldl_fst
    | intro _
    | with_reducible apply sound_of_fst (by assumption)
    | with_reducible apply sound_of_some (by assumption)
    | with_reducible apply sound_of_snd (by assumption)
    | with_reducible apply sound_on
    | with_reducible apply sound_getD
    | (with_reducible refine sound_mk ?_ rfl rfl rfl rfl rfl rfl rfl; first | with_reducible assumption | with_reducible apply State.submitToken_sound | with_reducible apply State.tick_sound | with_reducible apply sound_foldl | with_reducible apply sound_foldl_fst)
    | (with_reducible refine sound_mk_wf ?_ rfl ?_ ?_ ?_ ?_ rfl rfl <;> first | with_reducible assumption | with_reducible apply State.submitToken_sound | with_reducible apply State.tick_sound | with_reducible apply sound_foldl | with_reducible apply sound_foldl_fst | exact id | exact fun _ => cellWf_nil _ | exact cellWf_write _ _ | exact cellWf_clear _ _ | exact cellWf_filter _)
    | dsimp only
    | split

theorem execClearCurtain_sound {q : Base} : ∀ a0 a1 {s : State}, Sound q s → OutSound q (execClearCurtain a0 a1 s) := by
  intros
  unfold execClearCurtain
  repeat' first
    | with_reducible assumption
    | with_reducible apply outSound_next
    | with_reducible apply State.submitToken_sound
    | with_reducible apply State.tick_sound
    | with_reducible apply sound_foldl
    | with_reducible apply sound_foldl_fst
    | intro _
    | with_reducible apply sound_of_fst (by assumption)
    | with_reducible apply sound_of_some (by assumption)
    | with_reducible apply sound_of_snd (by assumption)
    | with_reducible apply sound_on
    | with_reducible apply sound_getD
    | (with_reducible refine sound_mk ?_ rfl rfl rfl rfl rfl rfl rfl; first | with_reducible assumption | with_reducible apply State.submitToken_sound | with_reducible apply State.tick_sound | with_reducible apply sound_foldl | with_reducible apply sound_foldl_fst)
    | (with_reducible refine sound_mk_wf ?_ rfl ?_ ?_ ?_ ?_ rfl rfl <;> first | with_reducible assumption | with_reducible apply State.submitToken_sound | with_reducible apply State.tick_sound | with_reducible apply sound_foldl | with_reducible apply sound_foldl_fst | exact id | exact fun _ => cellWf_nil _ | exact cellWf_write _ _ | exact cellWf_clear _ _ | exact cellWf_filter _)
    | dsimp only
    | split

theorem State.dropSeed_sound {q : Base} : ∀ {s : State}, Sound q s → Sound q (State.dropSeed s) := by
  intros
  unfold State.dropSeed
  repeat' first
    | with_reducible assumption
    | with_reducible apply sound_foldl
    | with_reducible apply sound_foldl_fst
    | intro _
    | with_reducible apply sound_ite
    | with_reducible apply sound_of_fst (by assumption)
    | with_reducible apply sound_of_some (by assumption)
    | with_reducible apply sound_of_snd (by assumption)
    | with_reducible apply sound_on
    | with_reducible apply sound_getD
    | (with_reducible refine sound_mk ?_ rfl rfl rfl rfl rfl rfl rfl; first | with_reducible assumption | with_reducible apply sound_foldl | with_reducible apply sound_foldl_fst)
    | (with_reducible refine sound_mk_wf ?_ rfl ?_ ?_ ?_ ?_ rfl rfl <;> first | with_reducible assumption | with_reducible apply sound_foldl | with_reducible apply sound_foldl_fst | exact id | exact fun _ => cellWf_nil _ | exact cellWf_write _ _ | exact cellWf_clear _ _ | exact cellWf_filter _)
    | dsimp only
    | split

theorem cellWf_writes {f : Nat → List Byte} {g : Nat → Nat} : ∀ (n : List Nat) (l : List (Nat × Byte)), cellWf 0 l = true →
    cellWf (0 : Byte) (n.foldl (fun l t => cellWrite 0 l (g t) (f t)) l) = true
  | [], _, h => h
  | _ :: n, _, h => cellWf_writes n _ (cellWf_write _ _ h)

theorem State.rekeyFlash_sound {q : Base} : ∀ {s : State} a1, Sound q s → Sound q (State.rekeyFlash s a1) :=
  fun _ h => ⟨h.queue, ⟨h.canon.1, h.canon.2.1, cellWf_writes (g := fun t => 65536 * t) _ _ (cellWf_nil _)⟩, h.counters, h.seq⟩

theorem State.setOwner_sound {q : Base} : ∀ {s : State} a1 a2, Sound q s → Sound q (State.setOwner s a1 a2) := by
  intros
  unfold State.setOwner
  repeat' first
    | with_reducible assumption
    | with_reducible apply State.pbUpdate_sound
    | with_reducible apply State.rekeyFlash_sound
    | with_reducible apply State.dropSeed_sound
    | with_reducible apply State.raiseCounter_sound
    | with_reducible apply sound_foldl
    | with_reducible apply sound_foldl_fst
    | intro _
    | with_reducible apply sound_ite
    | with_reducible apply sound_of_fst (by assumption)
    | with_reducible apply sound_of_some (by assumption)
    | with_reducible apply sound_of_snd (by assumption)
    | with_reducible apply sound_on
    | with_reducible apply sound_getD
    | (with_reducible refine sound_mk ?_ rfl rfl rfl rfl rfl rfl rfl; first | with_reducible assumption | with_reducible apply State.pbUpdate_sound | with_reducible apply State.rekeyFlash_sound | with_reducible apply State.dropSeed_sound | with_reducible apply State.raiseCounter_sound | with_reducible apply sound_foldl | with_reducible apply sound_foldl_fst)
    | (with_reducible refine sound_mk_wf ?_ rfl ?_ ?_ ?_ ?_ rfl rfl <;> first | with_reducible assumption | with_reducible apply State.pbUpdate_sound | with_reducible apply State.rekeyFlash_sound | with_reducible apply State.dropSeed_sound | with_reducible apply State.raiseCounter_sound | with_reducible apply sound_foldl | with_reducible apply sound_foldl_fst | exact id | exact fun _ => cellWf_nil _ | exact cellWf_write _ _ | exact cellWf_clear _ _ | exact cellWf_filter _)
    | dsimp only
    | split

theorem State.lifecycleReset_sound {q : Base} : ∀ {s : State}, Sound q s → Sound q (State.lifecycleReset s) := by
  intros
  unfold State.lifecycleReset
  repeat' first
    | with_reducible assumption
    | with_reducible apply State.afterReset_sound
    | with_reducible apply State.setOwner_sound
    | with_reducible apply State.raiseCounter_sound
    | with_reducible apply sound_foldl
    | with_reducible apply sound_foldl_fst
    | intro _
    | with_reducible apply sound_ite
    | with_reducible apply sound_of_fst (by assumption)
    | with_reducible apply sound_of_some (by assumption)
    | with_reducible apply sound_of_snd (by assumption)
    | with_reducible apply sound_on
    | with_reducible apply sound_getD
    | (with_reducible refine sound_mk ?_ rfl rfl rfl rfl rfl rfl rfl; first | with_reducible assumption | with_reducible apply State.afterReset_sound | with_reducible apply State.setOwner_sound | with_reducible apply State.raiseCounter_sound | with_reducible apply sound_foldl | with_reducible apply sound_foldl_fst)
    | (with_reducible refine sound_mk_wf ?_ rfl ?_ ?_ ?_ ?_ rfl rfl <;> first | with_reducible assumption | with_reducible apply State.afterReset_sound | with_reducible apply State.setOwner_sound | with_reducible apply State.raiseCounter_sound | with_reducible apply sound_foldl | with_reducible apply sound_foldl_fst | exact id | exact fun _ => cellWf_nil _ | exact cellWf_write _ _ | exact cellWf_clear _ _ | exact cellWf_filter _)
    | dsimp only
    | split

theorem execLifecycleReset_sound {q : Base} : ∀ a0 {s : State}, Sound q s → OutSound q (execLifecycleReset a0 s) := by
  intros
  unfold execLifecycleReset
  repeat' first
    | with_reducible assumption
    | with_reducible apply outSound_next
    | with_reducible apply State.tick_sound
    | with_reducible apply State.lifecycleReset_sound
    | with_reducible apply sound_foldl
    | with_reducible apply sound_foldl_fst
    | intro _
    | with_reducible apply sound_of_fst (by assumption)
    | with_reducible apply sound_of_some (by assumption)
    | with_reducible apply sound_of_snd (by assumption)
    | with_reducible apply sound_on
    | with_reducible apply sound_getD
    | (with_reducible refine sound_mk ?_ rfl rfl rfl rfl rfl rfl rfl; first | with_reducible assumption | with_reducible apply State.tick_sound | with_reducible apply State.lifecycleReset_sound | with_reducible apply sound_foldl | with_reducible apply sound_foldl_fst)
    | (with_reducible refine sound_mk_wf ?_ rfl ?_ ?_ ?_ ?_ rfl rfl <;> first | with_reducible assumption | with_reducible apply State.tick_sound | with_reducible apply State.lifecycleReset_sound | with_reducible apply sound_foldl | with_reducible apply sound_foldl_fst | exact id | exact fun _ => cellWf_nil _ | exact cellWf_write _ _ | exact cellWf_clear _ _ | exact cellWf_filter _)
    | dsimp only
    | split

theorem State.fwUpdate_sound {q : Base} : ∀ {s : State} a1, Sound q s → Sound q (State.fwUpdate s a1) := by
  intros
  unfold State.fwUpdate
  repeat' first
    | with_reducible assumption
    | with_reducible apply State.pbUpdate_sound
    | with_reducible apply State.secResult_sound
    | with_reducible apply State.smLater_sound
    | with_reducible apply sound_foldl
    | with_reducible apply sound_foldl_fst
    | intro _
    | with_reducible apply sound_ite
    | with_reducible apply sound_of_fst (by assumption)
    | with_reducible apply sound_of_some (by assumption)
    | with_reducible apply sound_of_snd (by assumption)
    | with_reducible apply sound_on
    | with_reducible apply sound_getD
    | (with_reducible refine sound_mk ?_ rfl rfl rfl rfl rfl rfl rfl; first | with_reducible assumption | with_reducible apply State.pbUpdate_sound | with_reducible apply State.secResult_sound | with_reducible apply State.smLater_sound | with_reducible apply sound_foldl | with_reducible apply sound_foldl_fst)
    | (with_reducible refine sound_mk_wf ?_ rfl ?_ ?_ ?_ ?_ rfl rfl <;> first | with_reducible assumption | with_reducible apply State.pbUpdate_sound | with_reducible apply State.secResult_sound | with_reducible apply State.smLater_sound | with_reducible apply sound_foldl | with_reducible apply sound_foldl_fst | exact id | exact fun _ => cellWf_nil _ | exact cellWf_write _ _ | exact cellWf_clear _ _ | exact cellWf_filter _)
    | dsimp only
    | split

theorem execFwUpdate_sound {q : Base} : ∀ a0 {s : State}, Sound q s → OutSound q (execFwUpdate a0 s) := by
  intros
  unfold execFwUpdate
  repeat' first
    | with_reducible assumption
    | with_reducible apply outSound_next
    | with_reducible apply State.fwUpdate_sound
    | with_reducible apply sound_foldl
    | with_reducible apply sound_foldl_fst
    | intro _
    | with_reducible apply sound_of_fst (by assumption)
    | with_reducible apply sound_of_some (by assumption)
    | with_reducible apply sound_of_snd (by assumption)
    | with_reducible apply sound_on
    | with_reducible apply sound_getD
    | (with_reducible refine sound_mk ?_ rfl rfl rfl rfl rfl rfl rfl; first | with_reducible assumption | with_reducible apply State.fwUpdate_sound | with_reducible apply sound_foldl | with_reducible apply sound_foldl_fst)
    | (with_reducible refine sound_mk_wf ?_ rfl ?_ ?_ ?_ ?_ rfl rfl <;> first | with_reducible assumption | with_reducible apply State.fwUpdate_sound | with_reducible apply sound_foldl | with_reducible apply sound_foldl_fst | exact id | exact fun _ => cellWf_nil _ | exact cellWf_write _ _ | exact cellWf_clear _ _ | exact cellWf_filter _)
    | dsimp only
    | split

theorem State.secCommand_sound {q : Base} : ∀ {s : State} a1, Sound q s → Sound q (State.secCommand s a1) := by
  intros
  unfold State.secCommand
  repeat' first
    | with_reducible assumption
    | with_reducible apply State.getChallenge_sound
    | with_reducible apply State.debugLock_sound
    | with_reducible apply State.submitToken_sound
    | with_reducible apply State.fwUpdate_sound
    | with_reducible apply sound_foldl
    | with_reducible apply sound_foldl_fst
    | intro _
    | with_reducible apply sound_ite
    | with_reducible apply sound_of_fst (by assumption)
    | with_reducible apply sound_of_some (by assumption)
    | with_reducible apply sound_of_snd (by assumption)
    | with_reducible apply sound_on
    | with_reducible apply sound_getD
    | (with_reducible refine sound_mk ?_ rfl rfl rfl rfl rfl rfl rfl; first | with_reducible assumption | with_reducible apply State.getChallenge_sound | with_reducible apply State.debugLock_sound | with_reducible apply State.submitToken_sound | with_reducible apply State.fwUpdate_sound | with_reducible apply sound_foldl | with_reducible apply sound_foldl_fst)
    | (with_reducible refine sound_mk_wf ?_ rfl ?_ ?_ ?_ ?_ rfl rfl <;> first | with_reducible assumption | with_reducible apply State.getChallenge_sound | with_reducible apply State.debugLock_sound | with_reducible apply State.submitToken_sound | with_reducible apply State.fwUpdate_sound | with_reducible apply sound_foldl | with_reducible apply sound_foldl_fst | exact id | exact fun _ => cellWf_nil _ | exact cellWf_write _ _ | exact cellWf_clear _ _ | exact cellWf_filter _)
    | dsimp only
    | split

theorem State.replan_sound {q : Base} : ∀ {s : State}, Sound q s → Sound q (State.replan s) := by
  intros
  unfold State.replan
  repeat' first
    | with_reducible assumption
    | with_reducible apply State.planCoppice_sound
    | with_reducible apply sound_foldl
    | with_reducible apply sound_foldl_fst
    | intro _
    | with_reducible apply sound_ite
    | with_reducible apply sound_of_fst (by assumption)
    | with_reducible apply sound_of_some (by assumption)
    | with_reducible apply sound_of_snd (by assumption)
    | with_reducible apply sound_on
    | with_reducible apply sound_getD
    | (with_reducible refine sound_mk ?_ rfl rfl rfl rfl rfl rfl rfl; first | with_reducible assumption | with_reducible apply State.planCoppice_sound | with_reducible apply sound_foldl | with_reducible apply sound_foldl_fst)
    | (with_reducible refine sound_mk_wf ?_ rfl ?_ ?_ ?_ ?_ rfl rfl <;> first | with_reducible assumption | with_reducible apply State.planCoppice_sound | with_reducible apply sound_foldl | with_reducible apply sound_foldl_fst | exact id | exact fun _ => cellWf_nil _ | exact cellWf_write _ _ | exact cellWf_clear _ _ | exact cellWf_filter _)
    | dsimp only
    | split

theorem State.smTask_sound {q : Base} : ∀ {s : State} a1, Sound q s → Sound q (State.smTask s a1) := by
  intros
  unfold State.smTask
  repeat' first
    | with_reducible assumption
    | with_reducible apply State.writeSeal_sound
    | with_reducible apply State.noteCurtain_sound
    | with_reducible apply State.afterReset_sound
    | with_reducible apply State.startCoppice_sound
    | with_reducible apply State.fwUpdate_sound
    | with_reducible apply State.resetEngine_sound
    | with_reducible apply sound_foldl
    | with_reducible apply sound_foldl_fst
    | intro _
    | with_reducible apply sound_ite
    | with_reducible apply sound_of_fst (by assumption)
    | with_reducible apply sound_of_some (by assumption)
    | with_reducible apply sound_of_snd (by assumption)
    | with_reducible apply sound_on
    | with_reducible apply sound_getD
    | (with_reducible refine sound_mk ?_ rfl rfl rfl rfl rfl rfl rfl; first | with_reducible assumption | with_reducible apply State.writeSeal_sound | with_reducible apply State.noteCurtain_sound | with_reducible apply State.afterReset_sound | with_reducible apply State.startCoppice_sound | with_reducible apply State.fwUpdate_sound | with_reducible apply State.resetEngine_sound | with_reducible apply sound_foldl | with_reducible apply sound_foldl_fst)
    | (with_reducible refine sound_mk_wf ?_ rfl ?_ ?_ ?_ ?_ rfl rfl <;> first | with_reducible assumption | with_reducible apply State.writeSeal_sound | with_reducible apply State.noteCurtain_sound | with_reducible apply State.afterReset_sound | with_reducible apply State.startCoppice_sound | with_reducible apply State.fwUpdate_sound | with_reducible apply State.resetEngine_sound | with_reducible apply sound_foldl | with_reducible apply sound_foldl_fst | exact id | exact fun _ => cellWf_nil _ | exact cellWf_write _ _ | exact cellWf_clear _ _ | exact cellWf_filter _)
    | dsimp only
    | split

theorem State.smBack_sound {q : Base} : ∀ {s : State}, Sound q s → Sound q (State.smBack s) := by
  intros
  unfold State.smBack
  repeat' first
    | with_reducible assumption
    | with_reducible apply State.replan_sound
    | with_reducible apply State.judgeInbound_sound
    | with_reducible apply State.smTask_sound
    | with_reducible apply sound_foldl
    | with_reducible apply sound_foldl_fst
    | intro _
    | with_reducible apply sound_ite
    | with_reducible apply sound_of_fst (by assumption)
    | with_reducible apply sound_of_some (by assumption)
    | with_reducible apply sound_of_snd (by assumption)
    | with_reducible apply sound_on
    | with_reducible apply sound_getD
    | (with_reducible refine sound_mk ?_ rfl rfl rfl rfl rfl rfl rfl; first | with_reducible assumption | with_reducible apply State.replan_sound | with_reducible apply State.judgeInbound_sound | with_reducible apply State.smTask_sound | with_reducible apply sound_foldl | with_reducible apply sound_foldl_fst)
    | (with_reducible refine sound_mk_wf ?_ rfl ?_ ?_ ?_ ?_ rfl rfl <;> first | with_reducible assumption | with_reducible apply State.replan_sound | with_reducible apply State.judgeInbound_sound | with_reducible apply State.smTask_sound | with_reducible apply sound_foldl | with_reducible apply sound_foldl_fst | exact id | exact fun _ => cellWf_nil _ | exact cellWf_write _ _ | exact cellWf_clear _ _ | exact cellWf_filter _)
    | dsimp only
    | split

theorem execStageManagerRestarted_sound {q : Base} : ∀ a0 {s : State}, Sound q s → OutSound q (execStageManagerRestarted a0 s) := by
  intros
  unfold execStageManagerRestarted
  repeat' first
    | with_reducible assumption
    | with_reducible apply outSound_next
    | with_reducible apply State.tick_sound
    | with_reducible apply State.smBack_sound
    | with_reducible apply sound_foldl
    | with_reducible apply sound_foldl_fst
    | intro _
    | with_reducible apply sound_of_fst (by assumption)
    | with_reducible apply sound_of_some (by assumption)
    | with_reducible apply sound_of_snd (by assumption)
    | with_reducible apply sound_on
    | with_reducible apply sound_getD
    | (with_reducible refine sound_mk ?_ rfl rfl rfl rfl rfl rfl rfl; first | with_reducible assumption | with_reducible apply State.tick_sound | with_reducible apply State.smBack_sound | with_reducible apply sound_foldl | with_reducible apply sound_foldl_fst)
    | (with_reducible refine sound_mk_wf ?_ rfl ?_ ?_ ?_ ?_ rfl rfl <;> first | with_reducible assumption | with_reducible apply State.tick_sound | with_reducible apply State.smBack_sound | with_reducible apply sound_foldl | with_reducible apply sound_foldl_fst | exact id | exact fun _ => cellWf_nil _ | exact cellWf_write _ _ | exact cellWf_clear _ _ | exact cellWf_filter _)
    | dsimp only
    | split

end Sys2Proof.Machine
end

