-- ==== Sys2Proof/Laws/KeepRegisters.lean ====
section
/-! SUPPORT. What the operations of `Machine/Registers.lean` keep: the memories in canonical form and the queue. -/

set_option linter.unusedTactic false
set_option linter.unreachableTactic false

namespace Sys2Proof.Machine

theorem State.writePower_sound {q : Base} : ∀ {s : State} a1 a2, Sound q s → Sound q (State.writePower s a1 a2) := by
  intros
  unfold State.writePower
  repeat' first
    | with_reducible assumption
    | with_reducible apply State.requestPower_sound
    | with_reducible apply State.writeWhole_sound
    | with_reducible apply sound_foldl
    | with_reducible apply sound_foldl_fst
    | intro _
    | with_reducible apply sound_ite
    | with_reducible apply sound_of_fst (by assumption)
    | with_reducible apply sound_of_some (by assumption)
    | with_reducible apply sound_of_snd (by assumption)
    | with_reducible apply sound_on
    | with_reducible apply sound_getD
    | (with_reducible refine sound_mk ?_ rfl rfl rfl rfl rfl rfl rfl; first | with_reducible assumption | with_reducible apply State.requestPower_sound | with_reducible apply State.writeWhole_sound | with_reducible apply sound_foldl | with_reducible apply sound_foldl_fst)
    | dsimp only
    | split

theorem State.nameMap_sound {q : Base} : ∀ {s : State}, Sound q s → Sound q (State.nameMap s) := by
  intros
  unfold State.nameMap
  repeat' first
    | with_reducible assumption
    | with_reducible apply State.setFld_sound
    | with_reducible apply sound_foldl
    | with_reducible apply sound_foldl_fst
    | intro _
    | with_reducible apply sound_ite
    | with_reducible apply sound_of_fst (by assumption)
    | with_reducible apply sound_of_some (by assumption)
    | with_reducible apply sound_of_snd (by assumption)
    | with_reducible apply sound_on
    | with_reducible apply sound_getD
    | (with_reducible refine sound_mk ?_ rfl rfl rfl rfl rfl rfl rfl; first | with_reducible assumption | with_reducible apply State.setFld_sound | with_reducible apply sound_foldl | with_reducible apply sound_foldl_fst)
    | dsimp only
    | split

theorem State.writeWord_sound {q : Base} : ∀ {s : State} a1 a2, Sound q s → Sound q (State.writeWord s a1 a2) := by
  intros
  unfold State.writeWord
  repeat' first
    | with_reducible assumption
    | with_reducible apply State.nameMap_sound
    | with_reducible apply State.writeSeal_sound
    | with_reducible apply State.writeOne_sound
    | with_reducible apply State.writePortCtrl_sound
    | with_reducible apply State.requestTest_sound
    | with_reducible apply State.requestCoppices_sound
    | with_reducible apply State.secCommand_sound
    | with_reducible apply State.switchRequest_sound
    | with_reducible apply State.keyReset_sound
    | with_reducible apply State.writePower_sound
    | with_reducible apply State.writeWhole_sound
    | with_reducible apply sound_foldl
    | with_reducible apply sound_foldl_fst
    | intro _
    | with_reducible apply sound_ite
    | with_reducible apply sound_of_fst (by assumption)
    | with_reducible apply sound_of_some (by assumption)
    | with_reducible apply sound_of_snd (by assumption)
    | with_reducible apply sound_on
    | with_reducible apply sound_getD
    | (with_reducible refine sound_mk ?_ rfl rfl rfl rfl rfl rfl rfl; first | with_reducible assumption | with_reducible apply State.nameMap_sound | with_reducible apply State.writeSeal_sound | with_reducible apply State.writeOne_sound | with_reducible apply State.writePortCtrl_sound | with_reducible apply State.requestTest_sound | with_reducible apply State.requestCoppices_sound | with_reducible apply State.secCommand_sound | with_reducible apply State.switchRequest_sound | with_reducible apply State.keyReset_sound | with_reducible apply State.writePower_sound | with_reducible apply State.writeWhole_sound | with_reducible apply sound_foldl | with_reducible apply sound_foldl_fst)
    | dsimp only
    | split

theorem State.writeMsix_sound {q : Base} : ∀ {s : State} a1 a2, Sound q s → Sound q (State.writeMsix s a1 a2) := by
  intros
  unfold State.writeMsix
  repeat' first
    | with_reducible assumption
    | with_reducible apply State.emit_sound
    | with_reducible apply sound_foldl
    | with_reducible apply sound_foldl_fst
    | intro _
    | with_reducible apply sound_ite
    | with_reducible apply sound_of_fst (by assumption)
    | with_reducible apply sound_of_some (by assumption)
    | with_reducible apply sound_of_snd (by assumption)
    | with_reducible apply sound_on
    | with_reducible apply sound_getD
    | (with_reducible refine sound_mk ?_ rfl rfl rfl rfl rfl rfl rfl; first | with_reducible assumption | with_reducible apply State.emit_sound | with_reducible apply sound_foldl | with_reducible apply sound_foldl_fst)
    | dsimp only
    | split

theorem State.writeMbox_sound {q : Base} : ∀ {s : State} a1 a2, Sound q s → Sound q (State.writeMbox s a1 a2) := by
  intros
  unfold State.writeMbox
  repeat' first
    | with_reducible assumption
    | with_reducible apply sound_foldl
    | with_reducible apply sound_foldl_fst
    | intro _
    | with_reducible apply sound_ite
    | with_reducible apply sound_of_fst (by assumption)
    | with_reducible apply sound_of_some (by assumption)
    | with_reducible apply sound_of_snd (by assumption)
    | with_reducible apply sound_on
    | with_reducible apply sound_getD
    | (with_reducible refine sound_mk ?_ rfl rfl rfl rfl rfl rfl rfl; first | with_reducible assumption | with_reducible apply sound_foldl | with_reducible apply sound_foldl_fst)
    | dsimp only
    | split

theorem State.writeBlock_sound {q : Base} : ∀ {s : State} a1 a2 a3, Sound q s → Sound q (State.writeBlock s a1 a2 a3) := by
  intros
  unfold State.writeBlock
  repeat' first
    | with_reducible assumption
    | with_reducible apply State.writeWord_sound
    | with_reducible apply State.writeMsix_sound
    | with_reducible apply State.writeOne_sound
    | with_reducible apply State.writeMbox_sound
    | with_reducible apply sound_foldl
    | with_reducible apply sound_foldl_fst
    | intro _
    | with_reducible apply sound_ite
    | with_reducible apply sound_of_fst (by assumption)
    | with_reducible apply sound_of_some (by assumption)
    | with_reducible apply sound_of_snd (by assumption)
    | with_reducible apply sound_on
    | with_reducible apply sound_getD
    | (with_reducible refine sound_mk ?_ rfl rfl rfl rfl rfl rfl rfl; first | with_reducible assumption | with_reducible apply State.writeWord_sound | with_reducible apply State.writeMsix_sound | with_reducible apply State.writeOne_sound | with_reducible apply State.writeMbox_sound | with_reducible apply sound_foldl | with_reducible apply sound_foldl_fst)
    | dsimp only
    | split

theorem State.registerWrite_sound {q : Base} : ∀ {s : State} a1 a2 a3 a4, Sound q s → Sound q (State.registerWrite s a1 a2 a3 a4) := by
  intros
  unfold State.registerWrite
  repeat' first
    | with_reducible assumption
    | with_reducible apply State.writeBlock_sound
    | with_reducible apply sound_foldl
    | with_reducible apply sound_foldl_fst
    | intro _
    | with_reducible apply sound_ite
    | with_reducible apply sound_of_fst (by assumption)
    | with_reducible apply sound_of_some (by assumption)
    | with_reducible apply sound_of_snd (by assumption)
    | with_reducible apply sound_on
    | with_reducible apply sound_getD
    | (with_reducible refine sound_mk ?_ rfl rfl rfl rfl rfl rfl rfl; first | with_reducible assumption | with_reducible apply State.writeBlock_sound | with_reducible apply sound_foldl | with_reducible apply sound_foldl_fst)
    | dsimp only
    | split

theorem execRegisterWrite_sound {q : Base} : ∀ a0 a1 a2 a3 {s : State}, Sound q s → OutSound q (execRegisterWrite a0 a1 a2 a3 s) := by
  intros
  unfold execRegisterWrite
  repeat' first
    | with_reducible assumption
    | with_reducible apply outSound_next
    | with_reducible apply State.registerWrite_sound
    | with_reducible apply sound_foldl
    | with_reducible apply sound_foldl_fst
    | intro _
    | with_reducible apply sound_of_fst (by assumption)
    | with_reducible apply sound_of_some (by assumption)
    | with_reducible apply sound_of_snd (by assumption)
    | with_reducible apply sound_on
    | with_reducible apply sound_getD
    | (with_reducible refine sound_mk ?_ rfl rfl rfl rfl rfl rfl rfl; first | with_reducible assumption | with_reducible apply State.registerWrite_sound | with_reducible apply sound_foldl | with_reducible apply sound_foldl_fst)
    | dsimp only
    | split

theorem execCueSwitchReq_sound {q : Base} : ∀ a0 {s : State}, Sound q s → OutSound q (execCueSwitchReq a0 s) := by
  intros
  unfold execCueSwitchReq
  repeat' first
    | with_reducible assumption
    | with_reducible apply outSound_next
    | with_reducible apply State.registerWrite_sound
    | with_reducible apply sound_foldl
    | with_reducible apply sound_foldl_fst
    | intro _
    | with_reducible apply sound_of_fst (by assumption)
    | with_reducible apply sound_of_some (by assumption)
    | with_reducible apply sound_of_snd (by assumption)
    | with_reducible apply sound_on
    | with_reducible apply sound_getD
    | (with_reducible refine sound_mk ?_ rfl rfl rfl rfl rfl rfl rfl; first | with_reducible assumption | with_reducible apply State.registerWrite_sound | with_reducible apply sound_foldl | with_reducible apply sound_foldl_fst)
    | dsimp only
    | split

theorem execPartOpCeiling_sound {q : Base} : ∀ a0 a1 {s : State}, Sound q s → OutSound q (execPartOpCeiling a0 a1 s) := by
  intros
  unfold execPartOpCeiling
  repeat' first
    | with_reducible assumption
    | with_reducible apply outSound_next
    | with_reducible apply State.registerWrite_sound
    | with_reducible apply sound_foldl
    | with_reducible apply sound_foldl_fst
    | intro _
    | with_reducible apply sound_of_fst (by assumption)
    | with_reducible apply sound_of_some (by assumption)
    | with_reducible apply sound_of_snd (by assumption)
    | with_reducible apply sound_on
    | with_reducible apply sound_getD
    | (with_reducible refine sound_mk ?_ rfl rfl rfl rfl rfl rfl rfl; first | with_reducible assumption | with_reducible apply State.registerWrite_sound | with_reducible apply sound_foldl | with_reducible apply sound_foldl_fst)
    | dsimp only
    | split

theorem State.debugHardened_sound {q : Base} : ∀ {s : State} a1 a2 a3, Sound q s → Sound q (State.debugHardened s a1 a2 a3) := by
  intros
  unfold State.debugHardened
  repeat' first
    | with_reducible assumption
    | with_reducible apply State.nameMap_sound
    | with_reducible apply State.setReg_sound
    | with_reducible apply sound_foldl
    | with_reducible apply sound_foldl_fst
    | intro _
    | with_reducible apply sound_ite
    | with_reducible apply sound_of_fst (by assumption)
    | with_reducible apply sound_of_some (by assumption)
    | with_reducible apply sound_of_snd (by assumption)
    | with_reducible apply sound_on
    | with_reducible apply sound_getD
    | (with_reducible refine sound_mk ?_ rfl rfl rfl rfl rfl rfl rfl; first | with_reducible assumption | with_reducible apply State.nameMap_sound | with_reducible apply State.setReg_sound | with_reducible apply sound_foldl | with_reducible apply sound_foldl_fst)
    | dsimp only
    | split

theorem State.debugReg_sound {q : Base} : ∀ {s : State} a1 a2 a3, Sound q s → Sound q (State.debugReg s a1 a2 a3) := by
  intros
  unfold State.debugReg
  repeat' first
    | with_reducible assumption
    | with_reducible apply State.writeBlock_sound
    | with_reducible apply State.debugHardened_sound
    | with_reducible apply sound_foldl
    | with_reducible apply sound_foldl_fst
    | intro _
    | with_reducible apply sound_ite
    | with_reducible apply sound_of_fst (by assumption)
    | with_reducible apply sound_of_some (by assumption)
    | with_reducible apply sound_of_snd (by assumption)
    | with_reducible apply sound_on
    | with_reducible apply sound_getD
    | (with_reducible refine sound_mk ?_ rfl rfl rfl rfl rfl rfl rfl; first | with_reducible assumption | with_reducible apply State.writeBlock_sound | with_reducible apply State.debugHardened_sound | with_reducible apply sound_foldl | with_reducible apply sound_foldl_fst)
    | dsimp only
    | split

theorem State.debugRegs_sound {q : Base} : ∀ {s : State} a1 a2, Sound q s → Sound q (State.debugRegs s a1 a2) := by
  intros
  unfold State.debugRegs
  repeat' first
    | with_reducible assumption
    | with_reducible apply State.debugReg_sound
    | with_reducible apply sound_foldl
    | with_reducible apply sound_foldl_fst
    | intro _
    | with_reducible apply sound_ite
    | with_reducible apply sound_of_fst (by assumption)
    | with_reducible apply sound_of_some (by assumption)
    | with_reducible apply sound_of_snd (by assumption)
    | with_reducible apply sound_on
    | with_reducible apply sound_getD
    | (with_reducible refine sound_mk ?_ rfl rfl rfl rfl rfl rfl rfl; first | with_reducible assumption | with_reducible apply State.debugReg_sound | with_reducible apply sound_foldl | with_reducible apply sound_foldl_fst)
    | dsimp only
    | split

theorem State.debugWrite_sound {q : Base} : ∀ {s : State} a1 a2, Sound q s → Sound q (State.debugWrite s a1 a2) := by
  intros
  unfold State.debugWrite
  repeat' first
    | with_reducible assumption
    | with_reducible apply State.debugRegs_sound
    | with_reducible apply State.devWrite_sound
    | with_reducible apply sound_foldl
    | with_reducible apply sound_foldl_fst
    | intro _
    | with_reducible apply sound_ite
    | with_reducible apply sound_of_fst (by assumption)
    | with_reducible apply sound_of_some (by assumption)
    | with_reducible apply sound_of_snd (by assumption)
    | with_reducible apply sound_on
    | with_reducible apply sound_getD
    | (with_reducible refine sound_mk ?_ rfl rfl rfl rfl rfl rfl rfl; first | with_reducible assumption | with_reducible apply State.debugRegs_sound | with_reducible apply State.devWrite_sound | with_reducible apply sound_foldl | with_reducible apply sound_foldl_fst)
    | dsimp only
    | split

theorem execDebugPortWrite_sound {q : Base} : ∀ a0 a1 {s : State}, Sound q s → OutSound q (execDebugPortWrite a0 a1 s) := by
  intros
  unfold execDebugPortWrite
  repeat' first
    | with_reducible assumption
    | with_reducible apply outSound_next
    | with_reducible apply State.debugWrite_sound
    | with_reducible apply sound_foldl
    | with_reducible apply sound_foldl_fst
    | intro _
    | with_reducible apply sound_of_fst (by assumption)
    | with_reducible apply sound_of_some (by assumption)
    | with_reducible apply sound_of_snd (by assumption)
    | with_reducible apply sound_on
    | with_reducible apply sound_getD
    | (with_reducible refine sound_mk ?_ rfl rfl rfl rfl rfl rfl rfl; first | with_reducible assumption | with_reducible apply State.debugWrite_sound | with_reducible apply sound_foldl | with_reducible apply sound_foldl_fst)
    | dsimp only
    | split

end Sys2Proof.Machine
end

