-- ==== Sys2Proof/Laws/KeepRings.lean ====
section
/-! SUPPORT. What the operations of `Machine/Rings.lean` keep: the memories in canonical form and the queue. -/

set_option linter.unusedTactic false
set_option linter.unreachableTactic false

namespace Sys2Proof.Machine

theorem State.doorbell_sound {q : Base} : ∀ {s : State} a1 a2, Sound q s → Sound q (State.doorbell s a1 a2) := by
  intros
  unfold State.doorbell
  repeat' first
    | with_reducible assumption
    | with_reducible apply State.wakeRing_sound
    | with_reducible apply sound_foldl
    | with_reducible apply sound_foldl_fst
    | intro _
    | with_reducible apply sound_ite
    | with_reducible apply sound_of_fst (by assumption)
    | with_reducible apply sound_of_some (by assumption)
    | with_reducible apply sound_of_snd (by assumption)
    | with_reducible apply sound_on
    | with_reducible apply sound_getD
    | (with_reducible refine sound_mk ?_ rfl rfl rfl rfl rfl rfl rfl; first | with_reducible assumption | with_reducible apply State.wakeRing_sound | with_reducible apply sound_foldl | with_reducible apply sound_foldl_fst)
    | dsimp only
    | split

theorem execDoorbellWake_sound {q : Base} : ∀ a0 a1 {s : State}, Sound q s → OutSound q (execDoorbellWake a0 a1 s) := by
  intros
  unfold execDoorbellWake
  repeat' first
    | with_reducible assumption
    | with_reducible apply outSound_next
    | with_reducible apply State.doorbell_sound
    | with_reducible apply sound_foldl
    | with_reducible apply sound_foldl_fst
    | intro _
    | with_reducible apply sound_of_fst (by assumption)
    | with_reducible apply sound_of_some (by assumption)
    | with_reducible apply sound_of_snd (by assumption)
    | with_reducible apply sound_on
    | with_reducible apply sound_getD
    | (with_reducible refine sound_mk ?_ rfl rfl rfl rfl rfl rfl rfl; first | with_reducible assumption | with_reducible apply State.doorbell_sound | with_reducible apply sound_foldl | with_reducible apply sound_foldl_fst)
    | dsimp only
    | split

theorem State.poll_sound {q : Base} : ∀ {s : State} a1, Sound q s → Sound q (State.poll s a1) := by
  intros
  unfold State.poll
  repeat' first
    | with_reducible assumption
    | with_reducible apply State.wakeRing_sound
    | with_reducible apply sound_foldl
    | with_reducible apply sound_foldl_fst
    | intro _
    | with_reducible apply sound_ite
    | with_reducible apply sound_of_fst (by assumption)
    | with_reducible apply sound_of_some (by assumption)
    | with_reducible apply sound_of_snd (by assumption)
    | with_reducible apply sound_on
    | with_reducible apply sound_getD
    | (with_reducible refine sound_mk ?_ rfl rfl rfl rfl rfl rfl rfl; first | with_reducible assumption | with_reducible apply State.wakeRing_sound | with_reducible apply sound_foldl | with_reducible apply sound_foldl_fst)
    | dsimp only
    | split

theorem execDoorbellPoll_sound {q : Base} : ∀ a0 {s : State}, Sound q s → OutSound q (execDoorbellPoll a0 s) := by
  intros
  unfold execDoorbellPoll
  repeat' first
    | with_reducible assumption
    | with_reducible apply outSound_next
    | with_reducible apply State.poll_sound
    | with_reducible apply sound_foldl
    | with_reducible apply sound_foldl_fst
    | intro _
    | with_reducible apply sound_of_fst (by assumption)
    | with_reducible apply sound_of_some (by assumption)
    | with_reducible apply sound_of_snd (by assumption)
    | with_reducible apply sound_on
    | with_reducible apply sound_getD
    | (with_reducible refine sound_mk ?_ rfl rfl rfl rfl rfl rfl rfl; first | with_reducible assumption | with_reducible apply State.poll_sound | with_reducible apply sound_foldl | with_reducible apply sound_foldl_fst)
    | dsimp only
    | split

theorem State.fetch_sound {q : Base} : ∀ {s : State} a1 a2, Sound q s → Sound q (State.fetch s a1 a2) := by
  intros
  unfold State.fetch
  repeat' first
    | with_reducible assumption
    | with_reducible apply State.fetchDevice_sound
    | with_reducible apply State.onRing_sound
    | with_reducible apply State.pushFetched_sound
    | with_reducible apply sound_foldl
    | with_reducible apply sound_foldl_fst
    | intro _
    | with_reducible apply sound_ite
    | with_reducible apply sound_of_fst (by assumption)
    | with_reducible apply sound_of_some (by assumption)
    | with_reducible apply sound_of_snd (by assumption)
    | with_reducible apply sound_on
    | with_reducible apply sound_getD
    | (with_reducible refine sound_mk ?_ rfl rfl rfl rfl rfl rfl rfl; first | with_reducible assumption | with_reducible apply State.fetchDevice_sound | with_reducible apply State.onRing_sound | with_reducible apply State.pushFetched_sound | with_reducible apply sound_foldl | with_reducible apply sound_foldl_fst)
    | dsimp only
    | split

theorem execDescriptorFetch_sound {q : Base} : ∀ a0 a1 a2 {s : State}, Sound q s → OutSound q (execDescriptorFetch a0 a1 a2 s) := by
  intros
  unfold execDescriptorFetch
  repeat' first
    | with_reducible assumption
    | with_reducible apply outSound_next
    | with_reducible apply State.tick_sound
    | with_reducible apply State.fetch_sound
    | with_reducible apply sound_foldl
    | with_reducible apply sound_foldl_fst
    | intro _
    | with_reducible apply sound_of_fst (by assumption)
    | with_reducible apply sound_of_some (by assumption)
    | with_reducible apply sound_of_snd (by assumption)
    | with_reducible apply sound_on
    | with_reducible apply sound_getD
    | (with_reducible refine sound_mk ?_ rfl rfl rfl rfl rfl rfl rfl; first | with_reducible assumption | with_reducible apply State.tick_sound | with_reducible apply State.fetch_sound | with_reducible apply sound_foldl | with_reducible apply sound_foldl_fst)
    | dsimp only
    | split

theorem State.startRun_sound {q : Base} : ∀ {s : State} a1 a2, Sound q s → Sound q (State.startRun s a1 a2) := by
  intros
  unfold State.startRun
  repeat' first
    | with_reducible assumption
    | with_reducible apply State.noteHead_sound
    | with_reducible apply State.onRing_sound
    | with_reducible apply sound_foldl
    | with_reducible apply sound_foldl_fst
    | intro _
    | with_reducible apply sound_ite
    | with_reducible apply sound_of_fst (by assumption)
    | with_reducible apply sound_of_some (by assumption)
    | with_reducible apply sound_of_snd (by assumption)
    | with_reducible apply sound_on
    | with_reducible apply sound_getD
    | (with_reducible refine sound_mk ?_ rfl rfl rfl rfl rfl rfl rfl; first | with_reducible assumption | with_reducible apply State.noteHead_sound | with_reducible apply State.onRing_sound | with_reducible apply sound_foldl | with_reducible apply sound_foldl_fst)
    | dsimp only
    | split

theorem State.accountDispatch_sound {q : Base} : ∀ {s : State} a1, Sound q s → Sound q (State.accountDispatch s a1) := by
  intros
  unfold State.accountDispatch
  repeat' first
    | with_reducible assumption
    | with_reducible apply State.onAccount_sound
    | with_reducible apply sound_foldl
    | with_reducible apply sound_foldl_fst
    | intro _
    | with_reducible apply sound_ite
    | with_reducible apply sound_of_fst (by assumption)
    | with_reducible apply sound_of_some (by assumption)
    | with_reducible apply sound_of_snd (by assumption)
    | with_reducible apply sound_on
    | with_reducible apply sound_getD
    | (with_reducible refine sound_mk ?_ rfl rfl rfl rfl rfl rfl rfl; first | with_reducible assumption | with_reducible apply State.onAccount_sound | with_reducible apply sound_foldl | with_reducible apply sound_foldl_fst)
    | dsimp only
    | split

theorem State.judgeHead_sound {q : Base} : ∀ {s : State} a1 a2 a3, Sound q s → Sound q (State.judgeHead s a1 a2 a3) := by
  intros
  unfold State.judgeHead
  repeat' first
    | with_reducible assumption
    | with_reducible apply State.onRing_sound
    | with_reducible apply sound_foldl
    | with_reducible apply sound_foldl_fst
    | intro _
    | with_reducible apply sound_ite
    | with_reducible apply sound_of_fst (by assumption)
    | with_reducible apply sound_of_some (by assumption)
    | with_reducible apply sound_of_snd (by assumption)
    | with_reducible apply sound_on
    | with_reducible apply sound_getD
    | (with_reducible refine sound_mk ?_ rfl rfl rfl rfl rfl rfl rfl; first | with_reducible assumption | with_reducible apply State.onRing_sound | with_reducible apply sound_foldl | with_reducible apply sound_foldl_fst)
    | dsimp only
    | split

theorem State.startJudged_sound {q : Base} : ∀ {s : State} a1 a2, Sound q s → Sound q (State.startJudged s a1 a2) := by
  intros
  unfold State.startJudged
  repeat' first
    | with_reducible assumption
    | with_reducible apply State.startRun_sound
    | with_reducible apply sound_foldl
    | with_reducible apply sound_foldl_fst
    | intro _
    | with_reducible apply sound_ite
    | with_reducible apply sound_of_fst (by assumption)
    | with_reducible apply sound_of_some (by assumption)
    | with_reducible apply sound_of_snd (by assumption)
    | with_reducible apply sound_on
    | with_reducible apply sound_getD
    | (with_reducible refine sound_mk ?_ rfl rfl rfl rfl rfl rfl rfl; first | with_reducible assumption | with_reducible apply State.startRun_sound | with_reducible apply sound_foldl | with_reducible apply sound_foldl_fst)
    | dsimp only
    | split

theorem State.spendFor_sound {q : Base} : ∀ {s : State} a1 a2 a3, Sound q s → Sound q (State.spendFor s a1 a2 a3) := by
  intros
  unfold State.spendFor
  repeat' first
    | with_reducible assumption
    | with_reducible apply State.spend_sound
    | with_reducible apply sound_foldl
    | with_reducible apply sound_foldl_fst
    | intro _
    | with_reducible apply sound_ite
    | with_reducible apply sound_of_fst (by assumption)
    | with_reducible apply sound_of_some (by assumption)
    | with_reducible apply sound_of_snd (by assumption)
    | with_reducible apply sound_on
    | with_reducible apply sound_getD
    | (with_reducible refine sound_mk ?_ rfl rfl rfl rfl rfl rfl rfl; first | with_reducible assumption | with_reducible apply State.spend_sound | with_reducible apply sound_foldl | with_reducible apply sound_foldl_fst)
    | dsimp only
    | split

theorem State.claimCodec_sound {q : Base} : ∀ {s : State} a1 a2, Sound q s → Sound q (State.claimCodec s a1 a2) := by
  intros
  unfold State.claimCodec
  repeat' first
    | with_reducible assumption
    | with_reducible apply sound_foldl
    | with_reducible apply sound_foldl_fst
    | intro _
    | with_reducible apply sound_ite
    | with_reducible apply sound_of_fst (by assumption)
    | with_reducible apply sound_of_some (by assumption)
    | with_reducible apply sound_of_snd (by assumption)
    | with_reducible apply sound_on
    | with_reducible apply sound_getD
    | (with_reducible refine sound_mk ?_ rfl rfl rfl rfl rfl rfl rfl; first | with_reducible assumption | with_reducible apply sound_foldl | with_reducible apply sound_foldl_fst)
    | dsimp only
    | split

theorem State.beginRun_sound {q : Base} : ∀ {s : State} a1, Sound q s → Sound q (State.beginRun s a1) := by
  intros
  unfold State.beginRun
  repeat' first
    | with_reducible assumption
    | with_reducible apply State.cutItems_sound
    | with_reducible apply State.pairBegin_sound
    | with_reducible apply sound_foldl
    | with_reducible apply sound_foldl_fst
    | intro _
    | with_reducible apply sound_ite
    | with_reducible apply sound_of_fst (by assumption)
    | with_reducible apply sound_of_some (by assumption)
    | with_reducible apply sound_of_snd (by assumption)
    | with_reducible apply sound_on
    | with_reducible apply sound_getD
    | (with_reducible refine sound_mk ?_ rfl rfl rfl rfl rfl rfl rfl; first | with_reducible assumption | with_reducible apply State.cutItems_sound | with_reducible apply State.pairBegin_sound | with_reducible apply sound_foldl | with_reducible apply sound_foldl_fst)
    | dsimp only
    | split

theorem State.dispatchRun_sound {q : Base} : ∀ {s : State} a1, Sound q s → Sound q (State.dispatchRun s a1) := by
  intros
  unfold State.dispatchRun
  repeat' first
    | with_reducible assumption
    | with_reducible apply State.beginRun_sound
    | with_reducible apply State.accountDispatch_sound
    | with_reducible apply State.claimCodec_sound
    | with_reducible apply State.onRun_sound
    | with_reducible apply State.healParity_sound
    | with_reducible apply sound_foldl
    | with_reducible apply sound_foldl_fst
    | intro _
    | with_reducible apply sound_ite
    | with_reducible apply sound_of_fst (by assumption)
    | with_reducible apply sound_of_some (by assumption)
    | with_reducible apply sound_of_snd (by assumption)
    | with_reducible apply sound_on
    | with_reducible apply sound_getD
    | (with_reducible refine sound_mk ?_ rfl rfl rfl rfl rfl rfl rfl; first | with_reducible assumption | with_reducible apply State.beginRun_sound | with_reducible apply State.accountDispatch_sound | with_reducible apply State.claimCodec_sound | with_reducible apply State.onRun_sound | with_reducible apply State.healParity_sound | with_reducible apply sound_foldl | with_reducible apply sound_foldl_fst)
    | dsimp only
    | split

theorem State.dispatchRuns_sound {q : Base} : ∀ {s : State}, Sound q s → Sound q (State.dispatchRuns s) := by
  intros
  unfold State.dispatchRuns
  repeat' first
    | with_reducible assumption
    | with_reducible apply State.dispatchRun_sound
    | with_reducible apply sound_foldl
    | with_reducible apply sound_foldl_fst
    | intro _
    | with_reducible apply sound_ite
    | with_reducible apply sound_of_fst (by assumption)
    | with_reducible apply sound_of_some (by assumption)
    | with_reducible apply sound_of_snd (by assumption)
    | with_reducible apply sound_on
    | with_reducible apply sound_getD
    | (with_reducible refine sound_mk ?_ rfl rfl rfl rfl rfl rfl rfl; first | with_reducible assumption | with_reducible apply State.dispatchRun_sound | with_reducible apply sound_foldl | with_reducible apply sound_foldl_fst)
    | dsimp only
    | split

theorem State.startAdmitted_sound {q : Base} : ∀ {s : State} a1 a2 a3, Sound q s → Sound q (State.startAdmitted s a1 a2 a3) := by
  intros
  unfold State.startAdmitted
  repeat' first
    | with_reducible assumption
    | with_reducible apply State.spendFor_sound
    | with_reducible apply State.startRun_sound
    | with_reducible apply State.dispatchRuns_sound
    | with_reducible apply sound_foldl
    | with_reducible apply sound_foldl_fst
    | intro _
    | with_reducible apply sound_ite
    | with_reducible apply sound_of_fst (by assumption)
    | with_reducible apply sound_of_some (by assumption)
    | with_reducible apply sound_of_snd (by assumption)
    | with_reducible apply sound_on
    | with_reducible apply sound_getD
    | (with_reducible refine sound_mk ?_ rfl rfl rfl rfl rfl rfl rfl; first | with_reducible assumption | with_reducible apply State.spendFor_sound | with_reducible apply State.startRun_sound | with_reducible apply State.dispatchRuns_sound | with_reducible apply sound_foldl | with_reducible apply sound_foldl_fst)
    | dsimp only
    | split

theorem State.dispatch_sound {q : Base} : ∀ {s : State} a1, Sound q s → Sound q (State.dispatch s a1) := by
  intros
  unfold State.dispatch
  repeat' first
    | with_reducible assumption
    | with_reducible apply State.noteHead_sound
    | with_reducible apply State.judgeHead_sound
    | with_reducible apply State.badDevRead_sound
    | with_reducible apply State.startJudged_sound
    | with_reducible apply State.dispatchRuns_sound
    | with_reducible apply State.startAdmitted_sound
    | with_reducible apply sound_foldl
    | with_reducible apply sound_foldl_fst
    | intro _
    | with_reducible apply sound_ite
    | with_reducible apply sound_of_fst (by assumption)
    | with_reducible apply sound_of_some (by assumption)
    | with_reducible apply sound_of_snd (by assumption)
    | with_reducible apply sound_on
    | with_reducible apply sound_getD
    | (with_reducible refine sound_mk ?_ rfl rfl rfl rfl rfl rfl rfl; first | with_reducible assumption | with_reducible apply State.noteHead_sound | with_reducible apply State.judgeHead_sound | with_reducible apply State.badDevRead_sound | with_reducible apply State.startJudged_sound | with_reducible apply State.dispatchRuns_sound | with_reducible apply State.startAdmitted_sound | with_reducible apply sound_foldl | with_reducible apply sound_foldl_fst)
    | dsimp only
    | split

theorem execDescriptorDispatch_sound {q : Base} : ∀ a0 a1 {s : State}, Sound q s → OutSound q (execDescriptorDispatch a0 a1 s) := by
  intros
  unfold execDescriptorDispatch
  repeat' first
    | with_reducible assumption
    | with_reducible apply outSound_next
    | with_reducible apply State.dispatch_sound
    | with_reducible apply State.tick_sound
    | with_reducible apply State.wakeDimmed_sound
    | with_reducible apply sound_foldl
    | with_reducible apply sound_foldl_fst
    | intro _
    | with_reducible apply sound_of_fst (by assumption)
    | with_reducible apply sound_of_some (by assumption)
    | with_reducible apply sound_of_snd (by assumption)
    | with_reducible apply sound_on
    | with_reducible apply sound_getD
    | (with_reducible refine sound_mk ?_ rfl rfl rfl rfl rfl rfl rfl; first | with_reducible assumption | with_reducible apply State.dispatch_sound | with_reducible apply State.tick_sound | with_reducible apply State.wakeDimmed_sound | with_reducible apply sound_foldl | with_reducible apply sound_foldl_fst)
    | dsimp only
    | split

theorem State.fenceLate_sound {q : Base} : ∀ {s : State} a1, Sound q s → Sound q (State.fenceLate s a1) := by
  intros
  unfold State.fenceLate
  repeat' first
    | with_reducible assumption
    | with_reducible apply State.judgeHead_sound
    | with_reducible apply sound_foldl
    | with_reducible apply sound_foldl_fst
    | intro _
    | with_reducible apply sound_ite
    | with_reducible apply sound_of_fst (by assumption)
    | with_reducible apply sound_of_some (by assumption)
    | with_reducible apply sound_of_snd (by assumption)
    | with_reducible apply sound_on
    | with_reducible apply sound_getD
    | (with_reducible refine sound_mk ?_ rfl rfl rfl rfl rfl rfl rfl; first | with_reducible assumption | with_reducible apply State.judgeHead_sound | with_reducible apply sound_foldl | with_reducible apply sound_foldl_fst)
    | dsimp only
    | split

theorem execFenceWaitTimeout_sound {q : Base} : ∀ a0 {s : State}, Sound q s → OutSound q (execFenceWaitTimeout a0 s) := by
  intros
  unfold execFenceWaitTimeout
  repeat' first
    | with_reducible assumption
    | with_reducible apply outSound_next
    | with_reducible apply State.fenceLate_sound
    | with_reducible apply sound_foldl
    | with_reducible apply sound_foldl_fst
    | intro _
    | with_reducible apply sound_of_fst (by assumption)
    | with_reducible apply sound_of_some (by assumption)
    | with_reducible apply sound_of_snd (by assumption)
    | with_reducible apply sound_on
    | with_reducible apply sound_getD
    | (with_reducible refine sound_mk ?_ rfl rfl rfl rfl rfl rfl rfl; first | with_reducible assumption | with_reducible apply State.fenceLate_sound | with_reducible apply sound_foldl | with_reducible apply sound_foldl_fst)
    | dsimp only
    | split

theorem State.runTimeout_sound {q : Base} : ∀ {s : State} a1, Sound q s → Sound q (State.runTimeout s a1) := by
  intros
  unfold State.runTimeout
  repeat' first
    | with_reducible assumption
    | with_reducible apply State.endEarly_sound
    | with_reducible apply sound_foldl
    | with_reducible apply sound_foldl_fst
    | intro _
    | with_reducible apply sound_ite
    | with_reducible apply sound_of_fst (by assumption)
    | with_reducible apply sound_of_some (by assumption)
    | with_reducible apply sound_of_snd (by assumption)
    | with_reducible apply sound_on
    | with_reducible apply sound_getD
    | (with_reducible refine sound_mk ?_ rfl rfl rfl rfl rfl rfl rfl; first | with_reducible assumption | with_reducible apply State.endEarly_sound | with_reducible apply sound_foldl | with_reducible apply sound_foldl_fst)
    | dsimp only
    | split

theorem execDescriptorTimeout_sound {q : Base} : ∀ a0 a1 {s : State}, Sound q s → OutSound q (execDescriptorTimeout a0 a1 s) := by
  intros
  unfold execDescriptorTimeout
  repeat' first
    | with_reducible assumption
    | with_reducible apply outSound_next
    | with_reducible apply State.runTimeout_sound
    | with_reducible apply State.tick_sound
    | with_reducible apply sound_foldl
    | with_reducible apply sound_foldl_fst
    | intro _
    | with_reducible apply sound_of_fst (by assumption)
    | with_reducible apply sound_of_some (by assumption)
    | with_reducible apply sound_of_snd (by assumption)
    | with_reducible apply sound_on
    | with_reducible apply sound_getD
    | (with_reducible refine sound_mk ?_ rfl rfl rfl rfl rfl rfl rfl; first | with_reducible assumption | with_reducible apply State.runTimeout_sound | with_reducible apply State.tick_sound | with_reducible apply sound_foldl | with_reducible apply sound_foldl_fst)
    | dsimp only
    | split

theorem State.preemptItems_sound {q : Base} : ∀ {s : State} a1, Sound q s → Sound q (State.preemptItems s a1) := by
  intros
  unfold State.preemptItems
  repeat' first
    | with_reducible assumption
    | with_reducible apply State.cutItems_sound
    | with_reducible apply sound_foldl
    | with_reducible apply sound_foldl_fst
    | intro _
    | with_reducible apply sound_ite
    | with_reducible apply sound_of_fst (by assumption)
    | with_reducible apply sound_of_some (by assumption)
    | with_reducible apply sound_of_snd (by assumption)
    | with_reducible apply sound_on
    | with_reducible apply sound_getD
    | (with_reducible refine sound_mk ?_ rfl rfl rfl rfl rfl rfl rfl; first | with_reducible assumption | with_reducible apply State.cutItems_sound | with_reducible apply sound_foldl | with_reducible apply sound_foldl_fst)
    | dsimp only
    | split

theorem State.preempt_sound {q : Base} : ∀ {s : State} a1, Sound q s → Sound q (State.preempt s a1) := by
  intros
  unfold State.preempt
  repeat' first
    | with_reducible assumption
    | with_reducible apply State.preemptItems_sound
    | with_reducible apply sound_foldl
    | with_reducible apply sound_foldl_fst
    | intro _
    | with_reducible apply sound_ite
    | with_reducible apply sound_of_fst (by assumption)
    | with_reducible apply sound_of_some (by assumption)
    | with_reducible apply sound_of_snd (by assumption)
    | with_reducible apply sound_on
    | with_reducible apply sound_getD
    | (with_reducible refine sound_mk ?_ rfl rfl rfl rfl rfl rfl rfl; first | with_reducible assumption | with_reducible apply State.preemptItems_sound | with_reducible apply sound_foldl | with_reducible apply sound_foldl_fst)
    | dsimp only
    | split

theorem execPreempt_sound {q : Base} : ∀ a0 a1 {s : State}, Sound q s → OutSound q (execPreempt a0 a1 s) := by
  intros
  unfold execPreempt
  repeat' first
    | with_reducible assumption
    | with_reducible apply outSound_next
    | with_reducible apply State.preempt_sound
    | with_reducible apply State.tick_sound
    | with_reducible apply sound_foldl
    | with_reducible apply sound_foldl_fst
    | intro _
    | with_reducible apply sound_of_fst (by assumption)
    | with_reducible apply sound_of_some (by assumption)
    | with_reducible apply sound_of_snd (by assumption)
    | with_reducible apply sound_on
    | with_reducible apply sound_getD
    | (with_reducible refine sound_mk ?_ rfl rfl rfl rfl rfl rfl rfl; first | with_reducible assumption | with_reducible apply State.preempt_sound | with_reducible apply State.tick_sound | with_reducible apply sound_foldl | with_reducible apply sound_foldl_fst)
    | dsimp only
    | split

theorem State.stepDone_sound {q : Base} : ∀ {s : State} a1 a2, Sound q s → Sound q (State.stepDone s a1 a2) := by
  intros
  unfold State.stepDone
  repeat' first
    | with_reducible assumption
    | with_reducible apply State.onAccount_sound
    | with_reducible apply State.onRing_sound
    | with_reducible apply sound_foldl
    | with_reducible apply sound_foldl_fst
    | intro _
    | with_reducible apply sound_ite
    | with_reducible apply sound_of_fst (by assumption)
    | with_reducible apply sound_of_some (by assumption)
    | with_reducible apply sound_of_snd (by assumption)
    | with_reducible apply sound_on
    | with_reducible apply sound_getD
    | (with_reducible refine sound_mk ?_ rfl rfl rfl rfl rfl rfl rfl; first | with_reducible assumption | with_reducible apply State.onAccount_sound | with_reducible apply State.onRing_sound | with_reducible apply sound_foldl | with_reducible apply sound_foldl_fst)
    | dsimp only
    | split

theorem State.stepNote_sound {q : Base} : ∀ {s : State} a1 a2, Sound q s → Sound q (State.stepNote s a1 a2) := by
  intros
  unfold State.stepNote
  repeat' first
    | with_reducible assumption
    | with_reducible apply State.stepDone_sound
    | with_reducible apply State.onRing_sound
    | with_reducible apply sound_foldl
    | with_reducible apply sound_foldl_fst
    | intro _
    | with_reducible apply sound_ite
    | with_reducible apply sound_of_fst (by assumption)
    | with_reducible apply sound_of_some (by assumption)
    | with_reducible apply sound_of_snd (by assumption)
    | with_reducible apply sound_on
    | with_reducible apply sound_getD
    | (with_reducible refine sound_mk ?_ rfl rfl rfl rfl rfl rfl rfl; first | with_reducible assumption | with_reducible apply State.stepDone_sound | with_reducible apply State.onRing_sound | with_reducible apply sound_foldl | with_reducible apply sound_foldl_fst)
    | dsimp only
    | split

theorem State.programNote_sound {q : Base} : ∀ {s : State} a1 a2, Sound q s → Sound q (State.programNote s a1 a2) := by
  intros
  unfold State.programNote
  repeat' first
    | with_reducible assumption
    | with_reducible apply State.onRing_sound
    | with_reducible apply sound_foldl
    | with_reducible apply sound_foldl_fst
    | intro _
    | with_reducible apply sound_ite
    | with_reducible apply sound_of_fst (by assumption)
    | with_reducible apply sound_of_some (by assumption)
    | with_reducible apply sound_of_snd (by assumption)
    | with_reducible apply sound_on
    | with_reducible apply sound_getD
    | (with_reducible refine sound_mk ?_ rfl rfl rfl rfl rfl rfl rfl; first | with_reducible assumption | with_reducible apply State.onRing_sound | with_reducible apply sound_foldl | with_reducible apply sound_foldl_fst)
    | dsimp only
    | split

theorem State.requeue_sound {q : Base} : ∀ {s : State} a1, Sound q s → Sound q (State.requeue s a1) := by
  intros
  unfold State.requeue
  repeat' first
    | with_reducible assumption
    | with_reducible apply State.onAccount_sound
    | with_reducible apply State.onRing_sound
    | with_reducible apply sound_foldl
    | with_reducible apply sound_foldl_fst
    | intro _
    | with_reducible apply sound_ite
    | with_reducible apply sound_of_fst (by assumption)
    | with_reducible apply sound_of_some (by assumption)
    | with_reducible apply sound_of_snd (by assumption)
    | with_reducible apply sound_on
    | with_reducible apply sound_getD
    | (with_reducible refine sound_mk ?_ rfl rfl rfl rfl rfl rfl rfl; first | with_reducible assumption | with_reducible apply State.onAccount_sound | with_reducible apply State.onRing_sound | with_reducible apply sound_foldl | with_reducible apply sound_foldl_fst)
    | dsimp only
    | split

theorem State.finishDesc_sound {q : Base} : ∀ {s : State} a1, Sound q s → Sound q (State.finishDesc s a1) := by
  intros
  unfold State.finishDesc
  repeat' first
    | with_reducible assumption
    | with_reducible apply State.fenceOut_sound
    | with_reducible apply State.pairCommit_sound
    | with_reducible apply State.stepNote_sound
    | with_reducible apply State.programNote_sound
    | with_reducible apply sound_foldl
    | with_reducible apply sound_foldl_fst
    | intro _
    | with_reducible apply sound_ite
    | with_reducible apply sound_of_fst (by assumption)
    | with_reducible apply sound_of_some (by assumption)
    | with_reducible apply sound_of_snd (by assumption)
    | with_reducible apply sound_on
    | with_reducible apply sound_getD
    | (with_reducible refine sound_mk ?_ rfl rfl rfl rfl rfl rfl rfl; first | with_reducible assumption | with_reducible apply State.fenceOut_sound | with_reducible apply State.pairCommit_sound | with_reducible apply State.stepNote_sound | with_reducible apply State.programNote_sound | with_reducible apply sound_foldl | with_reducible apply sound_foldl_fst)
    | dsimp only
    | split

theorem State.fnSummary_sound {q : Base} : ∀ {s : State} a1, Sound q s → Sound q (State.fnSummary s a1).1 := by
  intros
  unfold State.fnSummary
  repeat' first
    | with_reducible assumption
    | with_reducible apply State.fnInForce_sound
    | with_reducible apply sound_foldl
    | with_reducible apply sound_foldl_fst
    | intro _
    | with_reducible apply sound_ite_fst
    | with_reducible apply sound_of_fst (by assumption)
    | with_reducible apply sound_of_some (by assumption)
    | with_reducible apply sound_of_snd (by assumption)
    | with_reducible apply sound_on
    | with_reducible apply sound_getD
    | (with_reducible refine sound_mk ?_ rfl rfl rfl rfl rfl rfl rfl; first | with_reducible assumption | with_reducible apply State.fnInForce_sound | with_reducible apply sound_foldl | with_reducible apply sound_foldl_fst)
    | dsimp only
    | split

theorem State.signal_sound {q : Base} : ∀ {s : State} a1, Sound q s → Sound q (State.signal s a1) := by
  intros
  unfold State.signal
  repeat' first
    | with_reducible assumption
    | with_reducible apply State.writeStatus_sound
    | with_reducible apply State.interrupt_sound
    | with_reducible apply sound_foldl
    | with_reducible apply sound_foldl_fst
    | intro _
    | with_reducible apply sound_ite
    | with_reducible apply sound_of_fst (by assumption)
    | with_reducible apply sound_of_some (by assumption)
    | with_reducible apply sound_of_snd (by assumption)
    | with_reducible apply sound_on
    | with_reducible apply sound_getD
    | (with_reducible refine sound_mk ?_ rfl rfl rfl rfl rfl rfl rfl; first | with_reducible assumption | with_reducible apply State.writeStatus_sound | with_reducible apply State.interrupt_sound | with_reducible apply sound_foldl | with_reducible apply sound_foldl_fst)
    | dsimp only
    | split

theorem State.endRun_sound {q : Base} : ∀ {s : State} a1 a2, Sound q s → Sound q (State.endRun s a1 a2) := by
  intros
  unfold State.endRun
  repeat' first
    | with_reducible assumption
    | with_reducible apply State.noteHead_sound
    | with_reducible apply State.writeRecords_sound
    | with_reducible apply State.onRing_sound
    | with_reducible apply State.finishDesc_sound
    | with_reducible apply State.requeue_sound
    | with_reducible apply State.fnSummary_sound
    | with_reducible apply State.signal_sound
    | with_reducible apply sound_foldl
    | with_reducible apply sound_foldl_fst
    | intro _
    | with_reducible apply sound_ite
    | with_reducible apply sound_of_fst (by assumption)
    | with_reducible apply sound_of_some (by assumption)
    | with_reducible apply sound_of_snd (by assumption)
    | with_reducible apply sound_on
    | with_reducible apply sound_getD
    | (with_reducible refine sound_mk ?_ rfl rfl rfl rfl rfl rfl rfl; first | with_reducible assumption | with_reducible apply State.noteHead_sound | with_reducible apply State.writeRecords_sound | with_reducible apply State.onRing_sound | with_reducible apply State.finishDesc_sound | with_reducible apply State.requeue_sound | with_reducible apply State.fnSummary_sound | with_reducible apply State.signal_sound | with_reducible apply sound_foldl | with_reducible apply sound_foldl_fst)
    | dsimp only
    | split

theorem State.runComplete_sound {q : Base} : ∀ {s : State} a1 a2, Sound q s → Sound q (State.runComplete s a1 a2) := by
  intros
  unfold State.runComplete
  repeat' first
    | with_reducible assumption
    | with_reducible apply State.endRun_sound
    | with_reducible apply sound_foldl
    | with_reducible apply sound_foldl_fst
    | intro _
    | with_reducible apply sound_ite
    | with_reducible apply sound_of_fst (by assumption)
    | with_reducible apply sound_of_some (by assumption)
    | with_reducible apply sound_of_snd (by assumption)
    | with_reducible apply sound_on
    | with_reducible apply sound_getD
    | (with_reducible refine sound_mk ?_ rfl rfl rfl rfl rfl rfl rfl; first | with_reducible assumption | with_reducible apply State.endRun_sound | with_reducible apply sound_foldl | with_reducible apply sound_foldl_fst)
    | dsimp only
    | split

theorem execRunComplete_sound {q : Base} : ∀ a0 a1 a2 {s : State}, Sound q s → OutSound q (execRunComplete a0 a1 a2 s) := by
  intros
  unfold execRunComplete
  repeat' first
    | with_reducible assumption
    | with_reducible apply outSound_next
    | with_reducible apply State.runComplete_sound
    | with_reducible apply State.tick_sound
    | with_reducible apply sound_foldl
    | with_reducible apply sound_foldl_fst
    | intro _
    | with_reducible apply sound_of_fst (by assumption)
    | with_reducible apply sound_of_some (by assumption)
    | with_reducible apply sound_of_snd (by assumption)
    | with_reducible apply sound_on
    | with_reducible apply sound_getD
    | (with_reducible refine sound_mk ?_ rfl rfl rfl rfl rfl rfl rfl; first | with_reducible assumption | with_reducible apply State.runComplete_sound | with_reducible apply State.tick_sound | with_reducible apply sound_foldl | with_reducible apply sound_foldl_fst)
    | dsimp only
    | split

theorem State.irqDelay_sound {q : Base} : ∀ {s : State} a1, Sound q s → Sound q (State.irqDelay s a1) := by
  intros
  unfold State.irqDelay
  repeat' first
    | with_reducible assumption
    | with_reducible apply State.writeStatus_sound
    | with_reducible apply State.interrupt_sound
    | with_reducible apply sound_foldl
    | with_reducible apply sound_foldl_fst
    | intro _
    | with_reducible apply sound_ite
    | with_reducible apply sound_of_fst (by assumption)
    | with_reducible apply sound_of_some (by assumption)
    | with_reducible apply sound_of_snd (by assumption)
    | with_reducible apply sound_on
    | with_reducible apply sound_getD
    | (with_reducible refine sound_mk ?_ rfl rfl rfl rfl rfl rfl rfl; first | with_reducible assumption | with_reducible apply State.writeStatus_sound | with_reducible apply State.interrupt_sound | with_reducible apply sound_foldl | with_reducible apply sound_foldl_fst)
    | dsimp only
    | split

theorem execIrqDelayExpiry_sound {q : Base} : ∀ a0 a1 {s : State}, Sound q s → OutSound q (execIrqDelayExpiry a0 a1 s) := by
  intros
  unfold execIrqDelayExpiry
  repeat' first
    | with_reducible assumption
    | with_reducible apply outSound_next
    | with_reducible apply State.irqDelay_sound
    | with_reducible apply State.tick_sound
    | with_reducible apply sound_foldl
    | with_reducible apply sound_foldl_fst
    | intro _
    | with_reducible apply sound_of_fst (by assumption)
    | with_reducible apply sound_of_some (by assumption)
    | with_reducible apply sound_of_snd (by assumption)
    | with_reducible apply sound_on
    | with_reducible apply sound_getD
    | (with_reducible refine sound_mk ?_ rfl rfl rfl rfl rfl rfl rfl; first | with_reducible assumption | with_reducible apply State.irqDelay_sound | with_reducible apply State.tick_sound | with_reducible apply sound_foldl | with_reducible apply sound_foldl_fst)
    | dsimp only
    | split

theorem State.midpoint_sound {q : Base} : ∀ {s : State}, Sound q s → Sound q (State.midpoint s) := by
  intros
  unfold State.midpoint
  repeat' first
    | with_reducible assumption
    | with_reducible apply sound_foldl
    | with_reducible apply sound_foldl_fst
    | intro _
    | with_reducible apply sound_ite
    | with_reducible apply sound_of_fst (by assumption)
    | with_reducible apply sound_of_some (by assumption)
    | with_reducible apply sound_of_snd (by assumption)
    | with_reducible apply sound_on
    | with_reducible apply sound_getD
    | (with_reducible refine sound_mk ?_ rfl rfl rfl rfl rfl rfl rfl; first | with_reducible assumption | with_reducible apply sound_foldl | with_reducible apply sound_foldl_fst)
    | dsimp only
    | split

theorem execSlotMidpoint_sound {q : Base} : ∀ {s : State}, Sound q s → OutSound q (execSlotMidpoint s) := by
  intros
  unfold execSlotMidpoint
  repeat' first
    | with_reducible assumption
    | with_reducible apply outSound_next
    | with_reducible apply State.midpoint_sound
    | with_reducible apply sound_foldl
    | with_reducible apply sound_foldl_fst
    | intro _
    | with_reducible apply sound_of_fst (by assumption)
    | with_reducible apply sound_of_some (by assumption)
    | with_reducible apply sound_of_snd (by assumption)
    | with_reducible apply sound_on
    | with_reducible apply sound_getD
    | (with_reducible refine sound_mk ?_ rfl rfl rfl rfl rfl rfl rfl; first | with_reducible assumption | with_reducible apply State.midpoint_sound | with_reducible apply sound_foldl | with_reducible apply sound_foldl_fst)
    | dsimp only
    | split

theorem State.readProgram_sound {q : Base} : ∀ {s : State} a1 a2, Sound q s → Sound q (State.readProgram s a1 a2).1 := by
  intros
  unfold State.readProgram
  repeat' first
    | with_reducible assumption
    | with_reducible apply State.fetchDevice_sound
    | with_reducible apply sound_foldl
    | with_reducible apply sound_foldl_fst
    | intro _
    | with_reducible apply sound_ite_fst
    | with_reducible apply sound_of_fst (by assumption)
    | with_reducible apply sound_of_some (by assumption)
    | with_reducible apply sound_of_snd (by assumption)
    | with_reducible apply sound_on
    | with_reducible apply sound_getD
    | (with_reducible refine sound_mk ?_ rfl rfl rfl rfl rfl rfl rfl; first | with_reducible assumption | with_reducible apply State.fetchDevice_sound | with_reducible apply sound_foldl | with_reducible apply sound_foldl_fst)
    | dsimp only
    | split

theorem State.takeFallback_sound {q : Base} : ∀ {s : State} a1 a2 a3 a4, Sound q s → Sound q (State.takeFallback s a1 a2 a3 a4) := by
  intros
  unfold State.takeFallback
  repeat' first
    | with_reducible assumption
    | with_reducible apply State.onAccount_sound
    | with_reducible apply State.onRing_sound
    | with_reducible apply State.pushFetched_sound
    | with_reducible apply sound_foldl
    | with_reducible apply sound_foldl_fst
    | intro _
    | with_reducible apply sound_ite
    | with_reducible apply sound_of_fst (by assumption)
    | with_reducible apply sound_of_some (by assumption)
    | with_reducible apply sound_of_snd (by assumption)
    | with_reducible apply sound_on
    | with_reducible apply sound_getD
    | (with_reducible refine sound_mk ?_ rfl rfl rfl rfl rfl rfl rfl; first | with_reducible assumption | with_reducible apply State.onAccount_sound | with_reducible apply State.onRing_sound | with_reducible apply State.pushFetched_sound | with_reducible apply sound_foldl | with_reducible apply sound_foldl_fst)
    | dsimp only
    | split

theorem State.takeProgram_sound {q : Base} : ∀ {s : State} a1 a2, Sound q s → Sound q (State.takeProgram s a1 a2) := by
  intros
  unfold State.takeProgram
  repeat' first
    | with_reducible assumption
    | with_reducible apply State.onRing_sound
    | with_reducible apply sound_foldl
    | with_reducible apply sound_foldl_fst
    | intro _
    | with_reducible apply sound_ite
    | with_reducible apply sound_of_fst (by assumption)
    | with_reducible apply sound_of_some (by assumption)
    | with_reducible apply sound_of_snd (by assumption)
    | with_reducible apply sound_on
    | with_reducible apply sound_getD
    | (with_reducible refine sound_mk ?_ rfl rfl rfl rfl rfl rfl rfl; first | with_reducible assumption | with_reducible apply State.onRing_sound | with_reducible apply sound_foldl | with_reducible apply sound_foldl_fst)
    | dsimp only
    | split

theorem State.decideStep_sound {q : Base} : ∀ {s : State} a1 a2, Sound q s → Sound q (State.decideStep s a1 a2) := by
  intros
  unfold State.decideStep
  repeat' first
    | with_reducible assumption
    | with_reducible apply State.takeFallback_sound
    | with_reducible apply State.readProgram_sound
    | with_reducible apply State.takeProgram_sound
    | with_reducible apply State.event_sound
    | with_reducible apply sound_foldl
    | with_reducible apply sound_foldl_fst
    | intro _
    | with_reducible apply sound_ite
    | with_reducible apply sound_of_fst (by assumption)
    | with_reducible apply sound_of_some (by assumption)
    | with_reducible apply sound_of_snd (by assumption)
    | with_reducible apply sound_on
    | with_reducible apply sound_getD
    | (with_reducible refine sound_mk ?_ rfl rfl rfl rfl rfl rfl rfl; first | with_reducible assumption | with_reducible apply State.takeFallback_sound | with_reducible apply State.readProgram_sound | with_reducible apply State.takeProgram_sound | with_reducible apply State.event_sound | with_reducible apply sound_foldl | with_reducible apply sound_foldl_fst)
    | dsimp only
    | split

theorem State.deadlineDecision_sound {q : Base} : ∀ {s : State} a1, Sound q s → Sound q (State.deadlineDecision s a1) := by
  intros
  unfold State.deadlineDecision
  repeat' first
    | with_reducible assumption
    | with_reducible apply State.noteHead_sound
    | with_reducible apply State.decideStep_sound
    | with_reducible apply sound_foldl
    | with_reducible apply sound_foldl_fst
    | intro _
    | with_reducible apply sound_ite
    | with_reducible apply sound_of_fst (by assumption)
    | with_reducible apply sound_of_some (by assumption)
    | with_reducible apply sound_of_snd (by assumption)
    | with_reducible apply sound_on
    | with_reducible apply sound_getD
    | (with_reducible refine sound_mk ?_ rfl rfl rfl rfl rfl rfl rfl; first | with_reducible assumption | with_reducible apply State.noteHead_sound | with_reducible apply State.decideStep_sound | with_reducible apply sound_foldl | with_reducible apply sound_foldl_fst)
    | dsimp only
    | split

theorem execDeadlineDecision_sound {q : Base} : ∀ a0 a1 {s : State}, Sound q s → OutSound q (execDeadlineDecision a0 a1 s) := by
  intros
  unfold execDeadlineDecision
  repeat' first
    | with_reducible assumption
    | with_reducible apply outSound_next
    | with_reducible apply State.deadlineDecision_sound
    | with_reducible apply State.tick_sound
    | with_reducible apply sound_foldl
    | with_reducible apply sound_foldl_fst
    | intro _
    | with_reducible apply sound_of_fst (by assumption)
    | with_reducible apply sound_of_some (by assumption)
    | with_reducible apply sound_of_snd (by assumption)
    | with_reducible apply sound_on
    | with_reducible apply sound_getD
    | (with_reducible refine sound_mk ?_ rfl rfl rfl rfl rfl rfl rfl; first | with_reducible assumption | with_reducible apply State.deadlineDecision_sound | with_reducible apply State.tick_sound | with_reducible apply sound_foldl | with_reducible apply sound_foldl_fst)
    | dsimp only
    | split

theorem State.degradeHead_sound {q : Base} : ∀ {s : State} a1 a2 a3, Sound q s → Sound q (State.degradeHead s a1 a2 a3) := by
  intros
  unfold State.degradeHead
  repeat' first
    | with_reducible assumption
    | with_reducible apply State.startRun_sound
    | with_reducible apply State.endRun_sound
    | with_reducible apply sound_foldl
    | with_reducible apply sound_foldl_fst
    | intro _
    | with_reducible apply sound_ite
    | with_reducible apply sound_of_fst (by assumption)
    | with_reducible apply sound_of_some (by assumption)
    | with_reducible apply sound_of_snd (by assumption)
    | with_reducible apply sound_on
    | with_reducible apply sound_getD
    | (with_reducible refine sound_mk ?_ rfl rfl rfl rfl rfl rfl rfl; first | with_reducible assumption | with_reducible apply State.startRun_sound | with_reducible apply State.endRun_sound | with_reducible apply sound_foldl | with_reducible apply sound_foldl_fst)
    | dsimp only
    | split

theorem State.fallbackDone_sound {q : Base} : ∀ {s : State} a1, Sound q s → Sound q (State.fallbackDone s a1) := by
  intros
  unfold State.fallbackDone
  repeat' first
    | with_reducible assumption
    | with_reducible apply State.degradeHead_sound
    | with_reducible apply sound_foldl
    | with_reducible apply sound_foldl_fst
    | intro _
    | with_reducible apply sound_ite
    | with_reducible apply sound_of_fst (by assumption)
    | with_reducible apply sound_of_some (by assumption)
    | with_reducible apply sound_of_snd (by assumption)
    | with_reducible apply sound_on
    | with_reducible apply sound_getD
    | (with_reducible refine sound_mk ?_ rfl rfl rfl rfl rfl rfl rfl; first | with_reducible assumption | with_reducible apply State.degradeHead_sound | with_reducible apply sound_foldl | with_reducible apply sound_foldl_fst)
    | dsimp only
    | split

theorem execFallbackStepComplete_sound {q : Base} : ∀ a0 a1 {s : State}, Sound q s → OutSound q (execFallbackStepComplete a0 a1 s) := by
  intros
  unfold execFallbackStepComplete
  repeat' first
    | with_reducible assumption
    | with_reducible apply outSound_next
    | with_reducible apply State.fallbackDone_sound
    | with_reducible apply State.tick_sound
    | with_reducible apply sound_foldl
    | with_reducible apply sound_foldl_fst
    | intro _
    | with_reducible apply sound_of_fst (by assumption)
    | with_reducible apply sound_of_some (by assumption)
    | with_reducible apply sound_of_snd (by assumption)
    | with_reducible apply sound_on
    | with_reducible apply sound_getD
    | (with_reducible refine sound_mk ?_ rfl rfl rfl rfl rfl rfl rfl; first | with_reducible assumption | with_reducible apply State.fallbackDone_sound | with_reducible apply State.tick_sound | with_reducible apply sound_foldl | with_reducible apply sound_foldl_fst)
    | dsimp only
    | split

end Sys2Proof.Machine
end

