-- ==== Sys2Proof/WellFormed.lean ====
section
/-! DEFINITION. Well-formed commands: operands that name something the spec gives the part (rings, ports, partitions,
items, packet fields). A meaning does not assume them; an ill-formed command stands for nothing that can happen. -/
namespace Sys2Proof

/-- A packet whose header fields fit Table 13.4 and whose data is as long as LENGTH says, or absent. -/
def packetOk (p : Packet) : Bool :=
  decide (p.type < 256) && decide (p.context < 64) && decide (p.gen < 256) && decide (p.status < 256) &&
    decide (p.src < 4096) && decide (p.dst < 4096) && decide (p.birth < 65536) && decide (p.tag < 65536) &&
    decide (p.length < 2 ^ 32) && decide (p.addr < 2 ^ 64) &&
    (decide (p.data.length = p.length) || p.data.isEmpty)

/-- A collective packet whose match fields fit Tables 14.2 and 14.5. -/
def collOk (p : CollPacket) : Bool :=
  decide (p.src < 4096) && decide (p.rank < 4096) && decide (p.context < 64) && decide (p.entry < 1024) &&
    decide (p.seq < 2 ^ 32) && decide (p.gen < 256) && decide (p.op < 256) && decide (p.count < 2 ^ 32)

/-- An announcement that fits Table 3.6. -/
def announceOk (a : Announce) : Bool := decide (a.gen < 65536) && decide (a.target < 2 ^ 32)

/-- A cue message that fits Table 3.2. -/
def cueMsgOk (m : CueMsg) : Bool :=
  decide (m.cue < 2 ^ 64) && decide (m.timeNs < 2 ^ 64) && decide (m.period < 32768) && decide (m.origin < 4096) &&
    decide (m.rank < 4) && decide (m.residenceNs < 2 ^ 32) && announceOk m.annBlk && announceOk m.annChorus &&
    announceOk m.annRoute

/-- A flit that fits Table 13.1. -/
def flitOk (f : FlitIn) : Bool := decide (f.vc < 4) && decide (f.seq < 1024) && decide (f.content.length ≤ 250)

/-- SPDM header bytes. -/
def spdmOk (r : SpdmReq) : Bool := decide (r.version < 256) && decide (r.param1 < 256) && decide (r.param2 < 256)

/-- An access width of a register (R510). -/
def widthOk (size : Nat) : Bool := size == 4 || size == 8

/-- A width of an aperture access (R485). -/
def apertureWidthOk (size : Nat) : Bool := size == 4 || size == 8 || size == 64

/-- Well-formed commands. -/
def Instr.wellFormed : Instr → Bool
  | .hostWindowRead off len => decide (0 < len) && decide (off % 64 + len ≤ 64)
  | .hostWindowWrite off data => !data.isEmpty && decide (off % 64 + data.length ≤ 64)
  | .hostLinkDown => true
  | .hostLinkUp _ width rate => [16, 8, 4].contains width && [32, 16, 8].contains rate
  | .perstNAssert _ => true
  | .setupSeal _ => true
  | .registerWrite _ off size _ => (widthOk size || (size == 64 && decide (0x9000 ≤ off) && decide (off < 0xA000))) && decide (off % size = 0) && decide (off < 0x400000)
  | .registerHalfRead off => decide (off % 4 = 0) && decide (off < 0x400000)
  | .doorbellWake ring _ => decide (ring < 256)
  | .doorbellPoll lines => lines.all fun l => decide (l.1 < 256)
  | .descriptorFetch ring host _ => decide (ring < 256) && (match host with | some d => decide (d.length = 128) | none => true)
  | .descriptorDispatch ring _ => decide (ring < 256)
  | .fenceWaitTimeout ring => decide (ring < 256)
  | .descriptorTimeout _ _ => true
  | .preempt _ _ => true
  | .runComplete _ _ _ => true
  | .irqDelayExpiry ring _ => decide (ring < 256)
  | .controlNop _ item => decide (item < 256)
  | .fenceSignal _ item => decide (item < 256)
  | .fenceReset _ item => decide (item < 256)
  | .hostCopy _ item _ => decide (item < 256)
  | .biasSet _ item => decide (item < 256)
  | .biasChangeEffect _ item => decide (item < 256)
  | .accountRead _ item => decide (item < 256)
  | .contextStart _ item => decide (item < 256)
  | .contextTeardown _ item _ => decide (item < 256)
  | .cueBoundary _ => true
  | .cueMessage port msg _ => decide (port < 12) && cueMsgOk msg
  | .cueMiss _ _ => true
  | .standbyEmit _ => true
  | .cueSwitchReq _ => true
  | .slotMidpoint => true
  | .deadlineDecision ring _ => decide (ring < 256)
  | .fallbackStepComplete ring _ => decide (ring < 256)
  | .partOpCeiling part _ => decide (part < 8)
  | .mmWs _ item _ => decide (item < 256)
  | .mmWsT _ item _ => decide (item < 256)
  | .mmOs _ item _ => decide (item < 256)
  | .splitSum _ item => decide (item < 256)
  | .pairRefresh _ item => decide (item < 256)
  | .attn _ item _ => decide (item < 256)
  | .kvAppend _ item => decide (item < 256)
  | .seqJoin _ item => decide (item < 256)
  | .seqLeave _ item => decide (item < 256)
  | .seqReserve _ item => decide (item < 256)
  | .pageShare _ item => decide (item < 256)
  | .biasLoad _ item => decide (item < 256)
  | .vprog _ item => decide (item < 256)
  | .rmsnorm _ item => decide (item < 256)
  | .softmaxRow _ item => decide (item < 256)
  | .attnMerge _ item => decide (item < 256)
  | .quant _ item => decide (item < 256)
  | .dequant _ item => decide (item < 256)
  | .fnLoad _ item => decide (item < 256)
  | .fnLoadResume tile => decide (tile < 144)
  | .convolve _ item _ => decide (item < 256)
  | .convPatch _ item => decide (item < 256)
  | .poolWindows _ item => decide (item < 256)
  | .boxDecode _ item => decide (item < 256)
  | .boxNms _ item => decide (item < 256)
  | .grantGranules _ item => decide (item < 256)
  | .releaseGranules _ item => decide (item < 256)
  | .tileMove _ item => decide (item < 256)
  | .tileFill _ item => decide (item < 256)
  | .quotaRead _ item => decide (item < 256)
  | .stackTempRead readings _ => decide (readings.length = 8)
  | .laneRemap stack pc lane => decide (stack < 8) && decide (pc < 64) && decide (lane < 5)
  | .scrubPatrol tier _ _ _ => decide (tier < 2)
  | .sramSweep word _ _ => decide (word < 0xA100000)
  | .flTrim _ item => decide (item < 256)
  | .flHealth _ item => decide (item < 256)
  | .pbRead _ item => decide (item < 256)
  | .pbWrite _ item => decide (item < 256)
  | .flashMapCommit _ item => decide (item < 256)
  | .flashMaintenance _ => true
  | .holdupFrame _ _ _ => true
  | .holdupStale _ => true
  | .pwrFail => true
  | .flashQuiesced _ => true
  | .pwrFailClear => true
  | .decAu _ item => decide (item < 256)
  | .encPicture _ item => decide (item < 256)
  | .encBlockRow _ item => decide (item < 256)
  | .sliceEmit _ item => decide (item < 256)
  | .feedStart _ item => decide (item < 256)
  | .feedStop _ item => decide (item < 256)
  | .feedStatus _ item => decide (item < 256)
  | .permMap _ item => decide (item < 256)
  | .feedEnginesHeld feed => decide (feed < 4)
  | .clipAssign feed => decide (feed < 4)
  | .clipDone feed _ => decide (feed < 4)
  | .batchDeliver feed => decide (feed < 4)
  | .portEnable port _ => decide (port < 12)
  | .flitReceive port flit _ => decide (port < 12) && flitOk flit
  | .ackTimer port => decide (port < 12)
  | .portRetrain port _ => decide (port < 12)
  | .portTrained port _ _ => decide (port < 12)
  | .portDown port _ => decide (port < 12)
  | .laneDegrade port lane _ => decide (port < 12) && decide (lane < 4)
  | .degradeComplete port => decide (port < 12)
  | .rewidenRequest port _ => decide (port < 12)
  | .rewidenRetrain port _ => decide (port < 12)
  | .echoTimer port _ => decide (port < 12)
  | .echoRequest port pkt _ _ => decide (port < 12) && packetOk pkt
  | .echoReply port pkt _ => decide (port < 12) && packetOk pkt
  | .readRequest pkt _ => packetOk pkt
  | .writeRequest pkt _ => packetOk pkt
  | .atomicRequest pkt _ => packetOk pkt
  | .bulkReadRequest pkt _ => packetOk pkt
  | .bulkWriteRequest pkt _ => packetOk pkt
  | .readData pkt => packetOk pkt
  | .writeAck pkt => packetOk pkt
  | .atomicResult pkt => packetOk pkt
  | .errorResponse pkt _ => packetOk pkt
  | .detachedNotice port pkt _ => decide (port < 12) && packetOk pkt
  | .memberLostMessage port pkt _ => decide (port < 12) && packetOk pkt
  | .stopMessage port pkt => decide (port < 12) && packetOk pkt
  | .drainMessage pkt => packetOk pkt
  | .drainReturn pkt => packetOk pkt
  | .teardownMessage pkt _ => packetOk pkt
  | .routePatchMessage port pkt => decide (port < 12) && packetOk pkt
  | .packetAged pkt _ => packetOk pkt
  | .responseTimeout tag _ => decide (tag < 65536)
  | .fabCopy _ item _ => decide (item < 256)
  | .fabAtomic _ item _ => decide (item < 256)
  | .fabPut _ item _ => decide (item < 256)
  | .fabFence _ item _ => decide (item < 256)
  | .fabStop _ item _ => decide (item < 256)
  | .routePatch _ item _ => decide (item < 256)
  | .fenceDrainDone src _ => decide (src < 4096)
  | .teardownDrainDone context _ => decide (context < 64)
  | .teardownReusePoint context _ => decide (context < 64)
  | .rsHalf _ item _ => decide (item < 256)
  | .agHalf _ item _ => decide (item < 256)
  | .bcastHalf _ item _ => decide (item < 256)
  | .barrierHalf _ item _ => decide (item < 256)
  | .gradReduce _ item _ => decide (item < 256)
  | .mirrorState _ item _ => decide (item < 256)
  | .restoreMirror _ item _ => decide (item < 256)
  | .collectivePacket pkt => collOk pkt
  | .halfWaitTimeout _ item => decide (item < 256)
  | .understudyTakeover lost entry _ => decide (lost < 4096) && decide (entry < 1024)
  | .watchdogExpiry _ => true
  | .stageManagerRestarted _ => true
  | .engineRecoveryTimeout _ _ => true
  | .engineResetDone _ => true
  | .engineResetTimeout _ _ => true
  | .coppiceComplete part _ => decide (part < 8)
  | .stackFillDone stack => decide (stack < 8)
  | .curtainDrained => true
  | .coppiceReq _ _ => true
  | .registerScan _ _ _ => true
  | .selftestReq _ => true
  | .selftestStart tile _ => decide (tile < 144)
  | .selftestDone tile _ _ => decide (tile < 152)
  | .poweredTimeSave _ => true
  | .hourlySummary _ => true
  | .calibrationStall _ => true
  | .getChallenge _ _ => true
  | .debugLock _ => true
  | .fwUpdate _ => true
  | .debugTrace _ _ => true
  | .debugInvasive _ _ => true
  | .enrollOwner _ _ => true
  | .enterService _ _ => true
  | .returnToken _ _ => true
  | .ownerRelease _ _ => true
  | .retireToken _ _ => true
  | .clearCurtain _ _ => true
  | .lifecycleReset _ => true
  | .nonceExpiry _ => true
  | .debugExpiry _ => true
  | .tapTestMode _ => true
  | .tapTestExit _ => true
  | .tapReset => true
  | .getVersion spdm => spdmOk spdm
  | .getCapabilities spdm => spdmOk spdm
  | .negotiateAlgorithms spdm => spdmOk spdm
  | .getDigests spdm => spdmOk spdm
  | .getCertificate spdm => spdmOk spdm
  | .spdmChallenge spdm => spdmOk spdm
  | .getMeasurements spdm => spdmOk spdm
  | .keyExchange spdm => spdmOk spdm
  | .finishSession spdm => spdmOk spdm
  | .heartbeatRequest spdm => spdmOk spdm
  | .keyUpdate spdm => spdmOk spdm
  | .endSession spdm => spdmOk spdm
  | .chunkSend spdm => spdmOk spdm
  | .chunkGet spdm => spdmOk spdm
  | .vendorDefinedRequest spdm _ => spdmOk spdm
  | .ideIntegrityFailure _ => true
  | .pwrTargetFull => true
  | .pwrTargetDark => true
  | .pwrTargetGhostLight => true
  | .dimIdleExpiry _ => true
  | .powerTransitionDone _ => true
  | .darkEntryTimeout _ => true
  | .junctionTempRead _ => true
  | .rstNAssert _ => true
  | .bringUp _ _ => true
  | .hostPortRelease _ => true
  | .flashReady _ => true
  | .deviceReset _ _ => true
  | .apertureRead off size => apertureWidthOk size && decide (off % size = 0) && decide (off < 0x100000)
  | .apertureWrite off size data => apertureWidthOk size && decide (off % size = 0) && decide (off < 0x100000) && decide (data.length = size)
  | .powerRemoval => true
  | .reservedPacketType pkt => packetOk pkt
  | .debugPortWrite _ _ => true

end Sys2Proof
end

