-- ==== Sys2Proof/Laws/PerInstr.lean ====
section
/-! SUPPORT. One lemma per command: what its form alone says. -/
namespace Sys2Proof.Laws.Form

/-- No word of the table's bits spells the command: the table gives no row any bits. -/
def Statement (i : Instr) : Prop := ∀ nbits w : Nat, decodeTableWord nbits w ≠ some i

theorem no_word (i : Instr) : Statement i := fun _ _ h => by cases h

theorem hostWindowRead (off : Nat) (len : Nat) : Statement (.hostWindowRead off len) := no_word _
theorem hostWindowWrite (off : Nat) (data : List Byte) : Statement (.hostWindowWrite off data) := no_word _
theorem hostLinkDown  : Statement (.hostLinkDown) := no_word _
theorem hostLinkUp (cxl : Bool) (width : Nat) (rate : Nat) : Statement (.hostLinkUp cxl width rate) := no_word _
theorem perstNAssert (low : Bool) : Statement (.perstNAssert low) := no_word _
theorem setupSeal (key : BitVec 32) : Statement (.setupSeal key) := no_word _
theorem registerWrite (origin : Origin) (off : Nat) (size : Nat) (value : BitVec 64) : Statement (.registerWrite origin off size value) := no_word _
theorem registerHalfRead (off : Nat) : Statement (.registerHalfRead off) := no_word _
theorem doorbellWake (ring : Nat) (line : Option DoorbellLine) : Statement (.doorbellWake ring line) := no_word _
theorem doorbellPoll (lines : List (Nat × Option DoorbellLine)) : Statement (.doorbellPoll lines) := no_word _
theorem descriptorFetch (ring : Nat) (host : Option (List Byte)) (now : Nat) : Statement (.descriptorFetch ring host now) := no_word _
theorem descriptorDispatch (ring : Nat) (now : Nat) : Statement (.descriptorDispatch ring now) := no_word _
theorem fenceWaitTimeout (ring : Nat) : Statement (.fenceWaitTimeout ring) := no_word _
theorem descriptorTimeout (run : Nat) (now : Nat) : Statement (.descriptorTimeout run now) := no_word _
theorem preempt (run : Nat) (now : Nat) : Statement (.preempt run now) := no_word _
theorem runComplete (run : Nat) (hostFails : List Nat) (now : Nat) : Statement (.runComplete run hostFails now) := no_word _
theorem irqDelayExpiry (ring : Nat) (now : Nat) : Statement (.irqDelayExpiry ring now) := no_word _
theorem controlNop (run : Nat) (item : Nat) : Statement (.controlNop run item) := no_word _
theorem fenceSignal (run : Nat) (item : Nat) : Statement (.fenceSignal run item) := no_word _
theorem fenceReset (run : Nat) (item : Nat) : Statement (.fenceReset run item) := no_word _
theorem hostCopy (run : Nat) (item : Nat) (host : Option (List Byte)) : Statement (.hostCopy run item host) := no_word _
theorem biasSet (run : Nat) (item : Nat) : Statement (.biasSet run item) := no_word _
theorem biasChangeEffect (run : Nat) (item : Nat) : Statement (.biasChangeEffect run item) := no_word _
theorem accountRead (run : Nat) (item : Nat) : Statement (.accountRead run item) := no_word _
theorem contextStart (run : Nat) (item : Nat) : Statement (.contextStart run item) := no_word _
theorem contextTeardown (run : Nat) (item : Nat) (now : Nat) : Statement (.contextTeardown run item now) := no_word _
theorem cueBoundary (now : Nat) : Statement (.cueBoundary now) := no_word _
theorem cueMessage (port : Nat) (msg : CueMsg) (now : Nat) : Statement (.cueMessage port msg now) := no_word _
theorem cueMiss (offset : Option Int) (now : Nat) : Statement (.cueMiss offset now) := no_word _
theorem standbyEmit (now : Nat) : Statement (.standbyEmit now) := no_word _
theorem cueSwitchReq (value : BitVec 32) : Statement (.cueSwitchReq value) := no_word _
theorem slotMidpoint  : Statement (.slotMidpoint) := no_word _
theorem deadlineDecision (ring : Nat) (now : Nat) : Statement (.deadlineDecision ring now) := no_word _
theorem fallbackStepComplete (ring : Nat) (now : Nat) : Statement (.fallbackStepComplete ring now) := no_word _
theorem partOpCeiling (part : Nat) (value : BitVec 32) : Statement (.partOpCeiling part value) := no_word _
theorem mmWs (run : Nat) (item : Nat) (laneFault : Option LaneFault) : Statement (.mmWs run item laneFault) := no_word _
theorem mmWsT (run : Nat) (item : Nat) (laneFault : Option LaneFault) : Statement (.mmWsT run item laneFault) := no_word _
theorem mmOs (run : Nat) (item : Nat) (laneFault : Option LaneFault) : Statement (.mmOs run item laneFault) := no_word _
theorem splitSum (run : Nat) (item : Nat) : Statement (.splitSum run item) := no_word _
theorem pairRefresh (run : Nat) (item : Nat) : Statement (.pairRefresh run item) := no_word _
theorem attn (run : Nat) (item : Nat) (laneFault : Option LaneFault) : Statement (.attn run item laneFault) := no_word _
theorem kvAppend (run : Nat) (item : Nat) : Statement (.kvAppend run item) := no_word _
theorem seqJoin (run : Nat) (item : Nat) : Statement (.seqJoin run item) := no_word _
theorem seqLeave (run : Nat) (item : Nat) : Statement (.seqLeave run item) := no_word _
theorem seqReserve (run : Nat) (item : Nat) : Statement (.seqReserve run item) := no_word _
theorem pageShare (run : Nat) (item : Nat) : Statement (.pageShare run item) := no_word _
theorem biasLoad (run : Nat) (item : Nat) : Statement (.biasLoad run item) := no_word _
theorem vprog (run : Nat) (item : Nat) : Statement (.vprog run item) := no_word _
theorem rmsnorm (run : Nat) (item : Nat) : Statement (.rmsnorm run item) := no_word _
theorem softmaxRow (run : Nat) (item : Nat) : Statement (.softmaxRow run item) := no_word _
theorem attnMerge (run : Nat) (item : Nat) : Statement (.attnMerge run item) := no_word _
theorem quant (run : Nat) (item : Nat) : Statement (.quant run item) := no_word _
theorem dequant (run : Nat) (item : Nat) : Statement (.dequant run item) := no_word _
theorem fnLoad (run : Nat) (item : Nat) : Statement (.fnLoad run item) := no_word _
theorem fnLoadResume (tile : Nat) : Statement (.fnLoadResume tile) := no_word _
theorem convolve (run : Nat) (item : Nat) (laneFault : Option LaneFault) : Statement (.convolve run item laneFault) := no_word _
theorem convPatch (run : Nat) (item : Nat) : Statement (.convPatch run item) := no_word _
theorem poolWindows (run : Nat) (item : Nat) : Statement (.poolWindows run item) := no_word _
theorem boxDecode (run : Nat) (item : Nat) : Statement (.boxDecode run item) := no_word _
theorem boxNms (run : Nat) (item : Nat) : Statement (.boxNms run item) := no_word _
theorem grantGranules (run : Nat) (item : Nat) : Statement (.grantGranules run item) := no_word _
theorem releaseGranules (run : Nat) (item : Nat) : Statement (.releaseGranules run item) := no_word _
theorem tileMove (run : Nat) (item : Nat) : Statement (.tileMove run item) := no_word _
theorem tileFill (run : Nat) (item : Nat) : Statement (.tileFill run item) := no_word _
theorem quotaRead (run : Nat) (item : Nat) : Statement (.quotaRead run item) := no_word _
theorem stackTempRead (readings : List (Option Int)) (now : Nat) : Statement (.stackTempRead readings now) := no_word _
theorem laneRemap (stack : Nat) (pc : Nat) (lane : Nat) : Statement (.laneRemap stack pc lane) := no_word _
theorem scrubPatrol (tier : Nat) (line : Nat) (found : EccFinding) (now : Nat) : Statement (.scrubPatrol tier line found now) := no_word _
theorem sramSweep (word : Nat) (found : EccFinding) (now : Nat) : Statement (.sramSweep word found now) := no_word _
theorem flTrim (run : Nat) (item : Nat) : Statement (.flTrim run item) := no_word _
theorem flHealth (run : Nat) (item : Nat) : Statement (.flHealth run item) := no_word _
theorem pbRead (run : Nat) (item : Nat) : Statement (.pbRead run item) := no_word _
theorem pbWrite (run : Nat) (item : Nat) : Statement (.pbWrite run item) := no_word _
theorem flashMapCommit (run : Nat) (item : Nat) : Statement (.flashMapCommit run item) := no_word _
theorem flashMaintenance (work : FlashWork) : Statement (.flashMaintenance work) := no_word _
theorem holdupFrame (bits : BitVec 32) (stop : Bool) (now : Nat) : Statement (.holdupFrame bits stop now) := no_word _
theorem holdupStale (now : Nat) : Statement (.holdupStale now) := no_word _
theorem pwrFail  : Statement (.pwrFail) := no_word _
theorem flashQuiesced (now : Nat) : Statement (.flashQuiesced now) := no_word _
theorem pwrFailClear  : Statement (.pwrFailClear) := no_word _
theorem decAu (run : Nat) (item : Nat) : Statement (.decAu run item) := no_word _
theorem encPicture (run : Nat) (item : Nat) : Statement (.encPicture run item) := no_word _
theorem encBlockRow (run : Nat) (item : Nat) : Statement (.encBlockRow run item) := no_word _
theorem sliceEmit (run : Nat) (item : Nat) : Statement (.sliceEmit run item) := no_word _
theorem feedStart (run : Nat) (item : Nat) : Statement (.feedStart run item) := no_word _
theorem feedStop (run : Nat) (item : Nat) : Statement (.feedStop run item) := no_word _
theorem feedStatus (run : Nat) (item : Nat) : Statement (.feedStatus run item) := no_word _
theorem permMap (run : Nat) (item : Nat) : Statement (.permMap run item) := no_word _
theorem feedEnginesHeld (feed : Nat) : Statement (.feedEnginesHeld feed) := no_word _
theorem clipAssign (feed : Nat) : Statement (.clipAssign feed) := no_word _
theorem clipDone (feed : Nat) (clip : Nat) : Statement (.clipDone feed clip) := no_word _
theorem batchDeliver (feed : Nat) : Statement (.batchDeliver feed) := no_word _
theorem portEnable (port : Nat) (value : BitVec 32) : Statement (.portEnable port value) := no_word _
theorem flitReceive (port : Nat) (flit : FlitIn) (now : Nat) : Statement (.flitReceive port flit now) := no_word _
theorem ackTimer (port : Nat) : Statement (.ackTimer port) := no_word _
theorem portRetrain (port : Nat) (now : Nat) : Statement (.portRetrain port now) := no_word _
theorem portTrained (port : Nat) (peer : PeerInfo) (now : Nat) : Statement (.portTrained port peer now) := no_word _
theorem portDown (port : Nat) (now : Nat) : Statement (.portDown port now) := no_word _
theorem laneDegrade (port : Nat) (lane : Nat) (now : Nat) : Statement (.laneDegrade port lane now) := no_word _
theorem degradeComplete (port : Nat) : Statement (.degradeComplete port) := no_word _
theorem rewidenRequest (port : Nat) (value : BitVec 32) : Statement (.rewidenRequest port value) := no_word _
theorem rewidenRetrain (port : Nat) (allPass : Bool) : Statement (.rewidenRetrain port allPass) := no_word _
theorem echoTimer (port : Nat) (now : Nat) : Statement (.echoTimer port now) := no_word _
theorem echoRequest (port : Nat) (pkt : Packet) (now : Nat) (sendAt : Nat) : Statement (.echoRequest port pkt now sendAt) := no_word _
theorem echoReply (port : Nat) (pkt : Packet) (now : Nat) : Statement (.echoReply port pkt now) := no_word _
theorem readRequest (pkt : Packet) (now : Nat) : Statement (.readRequest pkt now) := no_word _
theorem writeRequest (pkt : Packet) (now : Nat) : Statement (.writeRequest pkt now) := no_word _
theorem atomicRequest (pkt : Packet) (now : Nat) : Statement (.atomicRequest pkt now) := no_word _
theorem bulkReadRequest (pkt : Packet) (now : Nat) : Statement (.bulkReadRequest pkt now) := no_word _
theorem bulkWriteRequest (pkt : Packet) (now : Nat) : Statement (.bulkWriteRequest pkt now) := no_word _
theorem readData (pkt : Packet) : Statement (.readData pkt) := no_word _
theorem writeAck (pkt : Packet) : Statement (.writeAck pkt) := no_word _
theorem atomicResult (pkt : Packet) : Statement (.atomicResult pkt) := no_word _
theorem errorResponse (pkt : Packet) (now : Nat) : Statement (.errorResponse pkt now) := no_word _
theorem detachedNotice (port : Nat) (pkt : Packet) (now : Nat) : Statement (.detachedNotice port pkt now) := no_word _
theorem memberLostMessage (port : Nat) (pkt : Packet) (now : Nat) : Statement (.memberLostMessage port pkt now) := no_word _
theorem stopMessage (port : Nat) (pkt : Packet) : Statement (.stopMessage port pkt) := no_word _
theorem drainMessage (pkt : Packet) : Statement (.drainMessage pkt) := no_word _
theorem drainReturn (pkt : Packet) : Statement (.drainReturn pkt) := no_word _
theorem teardownMessage (pkt : Packet) (now : Nat) : Statement (.teardownMessage pkt now) := no_word _
theorem routePatchMessage (port : Nat) (pkt : Packet) : Statement (.routePatchMessage port pkt) := no_word _
theorem packetAged (pkt : Packet) (now : Nat) : Statement (.packetAged pkt now) := no_word _
theorem responseTimeout (tag : Nat) (now : Nat) : Statement (.responseTimeout tag now) := no_word _
theorem fabCopy (run : Nat) (item : Nat) (now : Nat) : Statement (.fabCopy run item now) := no_word _
theorem fabAtomic (run : Nat) (item : Nat) (now : Nat) : Statement (.fabAtomic run item now) := no_word _
theorem fabPut (run : Nat) (item : Nat) (now : Nat) : Statement (.fabPut run item now) := no_word _
theorem fabFence (run : Nat) (item : Nat) (now : Nat) : Statement (.fabFence run item now) := no_word _
theorem fabStop (run : Nat) (item : Nat) (now : Nat) : Statement (.fabStop run item now) := no_word _
theorem routePatch (run : Nat) (item : Nat) (now : Nat) : Statement (.routePatch run item now) := no_word _
theorem fenceDrainDone (src : Nat) (drain : Nat) : Statement (.fenceDrainDone src drain) := no_word _
theorem teardownDrainDone (context : Nat) (now : Nat) : Statement (.teardownDrainDone context now) := no_word _
theorem teardownReusePoint (context : Nat) (now : Nat) : Statement (.teardownReusePoint context now) := no_word _
theorem rsHalf (run : Nat) (item : Nat) (now : Nat) : Statement (.rsHalf run item now) := no_word _
theorem agHalf (run : Nat) (item : Nat) (now : Nat) : Statement (.agHalf run item now) := no_word _
theorem bcastHalf (run : Nat) (item : Nat) (now : Nat) : Statement (.bcastHalf run item now) := no_word _
theorem barrierHalf (run : Nat) (item : Nat) (now : Nat) : Statement (.barrierHalf run item now) := no_word _
theorem gradReduce (run : Nat) (item : Nat) (now : Nat) : Statement (.gradReduce run item now) := no_word _
theorem mirrorState (run : Nat) (item : Nat) (now : Nat) : Statement (.mirrorState run item now) := no_word _
theorem restoreMirror (run : Nat) (item : Nat) (now : Nat) : Statement (.restoreMirror run item now) := no_word _
theorem collectivePacket (pkt : CollPacket) : Statement (.collectivePacket pkt) := no_word _
theorem halfWaitTimeout (run : Nat) (item : Nat) : Statement (.halfWaitTimeout run item) := no_word _
theorem understudyTakeover (lost : Nat) (entry : Nat) (now : Nat) : Statement (.understudyTakeover lost entry now) := no_word _
theorem watchdogExpiry (now : Nat) : Statement (.watchdogExpiry now) := no_word _
theorem stageManagerRestarted (now : Nat) : Statement (.stageManagerRestarted now) := no_word _
theorem engineRecoveryTimeout (engine : Engine) (now : Nat) : Statement (.engineRecoveryTimeout engine now) := no_word _
theorem engineResetDone (engine : Engine) : Statement (.engineResetDone engine) := no_word _
theorem engineResetTimeout (engine : Engine) (now : Nat) : Statement (.engineResetTimeout engine now) := no_word _
theorem coppiceComplete (part : Nat) (now : Nat) : Statement (.coppiceComplete part now) := no_word _
theorem stackFillDone (stack : Nat) : Statement (.stackFillDone stack) := no_word _
theorem curtainDrained  : Statement (.curtainDrained) := no_word _
theorem coppiceReq (value : BitVec 32) (now : Nat) : Statement (.coppiceReq value now) := no_word _
theorem registerScan (upsets : List RegUpset) (tagOk : Bool) (now : Nat) : Statement (.registerScan upsets tagOk now) := no_word _
theorem selftestReq (value : BitVec 32) : Statement (.selftestReq value) := no_word _
theorem selftestStart (tile : Nat) (now : Nat) : Statement (.selftestStart tile now) := no_word _
theorem selftestDone (tile : Nat) (pass : Bool) (now : Nat) : Statement (.selftestDone tile pass now) := no_word _
theorem poweredTimeSave (now : Nat) : Statement (.poweredTimeSave now) := no_word _
theorem hourlySummary (now : Nat) : Statement (.hourlySummary now) := no_word _
theorem calibrationStall (resource : CalResource) : Statement (.calibrationStall resource) := no_word _
theorem getChallenge (path : SecPath) (now : Nat) : Statement (.getChallenge path now) := no_word _
theorem debugLock (path : SecPath) : Statement (.debugLock path) := no_word _
theorem fwUpdate (path : SecPath) : Statement (.fwUpdate path) := no_word _
theorem debugTrace (path : SecPath) (now : Nat) : Statement (.debugTrace path now) := no_word _
theorem debugInvasive (path : SecPath) (now : Nat) : Statement (.debugInvasive path now) := no_word _
theorem enrollOwner (path : SecPath) (now : Nat) : Statement (.enrollOwner path now) := no_word _
theorem enterService (path : SecPath) (now : Nat) : Statement (.enterService path now) := no_word _
theorem returnToken (path : SecPath) (now : Nat) : Statement (.returnToken path now) := no_word _
theorem ownerRelease (path : SecPath) (now : Nat) : Statement (.ownerRelease path now) := no_word _
theorem retireToken (path : SecPath) (now : Nat) : Statement (.retireToken path now) := no_word _
theorem clearCurtain (path : SecPath) (now : Nat) : Statement (.clearCurtain path now) := no_word _
theorem lifecycleReset (now : Nat) : Statement (.lifecycleReset now) := no_word _
theorem nonceExpiry (now : Nat) : Statement (.nonceExpiry now) := no_word _
theorem debugExpiry (now : Nat) : Statement (.debugExpiry now) := no_word _
theorem tapTestMode (ir : TapTest) : Statement (.tapTestMode ir) := no_word _
theorem tapTestExit (now : Nat) : Statement (.tapTestExit now) := no_word _
theorem tapReset  : Statement (.tapReset) := no_word _
theorem getVersion (spdm : SpdmReq) : Statement (.getVersion spdm) := no_word _
theorem getCapabilities (spdm : SpdmReq) : Statement (.getCapabilities spdm) := no_word _
theorem negotiateAlgorithms (spdm : SpdmReq) : Statement (.negotiateAlgorithms spdm) := no_word _
theorem getDigests (spdm : SpdmReq) : Statement (.getDigests spdm) := no_word _
theorem getCertificate (spdm : SpdmReq) : Statement (.getCertificate spdm) := no_word _
theorem spdmChallenge (spdm : SpdmReq) : Statement (.spdmChallenge spdm) := no_word _
theorem getMeasurements (spdm : SpdmReq) : Statement (.getMeasurements spdm) := no_word _
theorem keyExchange (spdm : SpdmReq) : Statement (.keyExchange spdm) := no_word _
theorem finishSession (spdm : SpdmReq) : Statement (.finishSession spdm) := no_word _
theorem heartbeatRequest (spdm : SpdmReq) : Statement (.heartbeatRequest spdm) := no_word _
theorem keyUpdate (spdm : SpdmReq) : Statement (.keyUpdate spdm) := no_word _
theorem endSession (spdm : SpdmReq) : Statement (.endSession spdm) := no_word _
theorem chunkSend (spdm : SpdmReq) : Statement (.chunkSend spdm) := no_word _
theorem chunkGet (spdm : SpdmReq) : Statement (.chunkGet spdm) := no_word _
theorem vendorDefinedRequest (spdm : SpdmReq) (stream : IdeStream) : Statement (.vendorDefinedRequest spdm stream) := no_word _
theorem ideIntegrityFailure (stream : IdeStream) : Statement (.ideIntegrityFailure stream) := no_word _
theorem pwrTargetFull  : Statement (.pwrTargetFull) := no_word _
theorem pwrTargetDark  : Statement (.pwrTargetDark) := no_word _
theorem pwrTargetGhostLight  : Statement (.pwrTargetGhostLight) := no_word _
theorem dimIdleExpiry (now : Nat) : Statement (.dimIdleExpiry now) := no_word _
theorem powerTransitionDone (now : Nat) : Statement (.powerTransitionDone now) := no_word _
theorem darkEntryTimeout (now : Nat) : Statement (.darkEntryTimeout now) := no_word _
theorem junctionTempRead (readings : List Int) : Statement (.junctionTempRead readings) := no_word _
theorem rstNAssert (lowNs : Nat) : Statement (.rstNAssert lowNs) := no_word _
theorem bringUp (found : BootFindings) (now : Nat) : Statement (.bringUp found now) := no_word _
theorem hostPortRelease (now : Nat) : Statement (.hostPortRelease now) := no_word _
theorem flashReady (journalOk : Bool) : Statement (.flashReady journalOk) := no_word _
theorem deviceReset (path : ResetPath) (key : BitVec 32) : Statement (.deviceReset path key) := no_word _
theorem apertureRead (off : Nat) (size : Nat) : Statement (.apertureRead off size) := no_word _
theorem apertureWrite (off : Nat) (size : Nat) (data : List Byte) : Statement (.apertureWrite off size data) := no_word _
theorem powerRemoval  : Statement (.powerRemoval) := no_word _
theorem reservedPacketType (pkt : Packet) : Statement (.reservedPacketType pkt) := no_word _
theorem debugPortWrite (addr : Nat) (data : List Byte) : Statement (.debugPortWrite addr data) := no_word _

end Sys2Proof.Laws.Form
end

