-- ==== Sys2Proof/Laws/State.lean ====
section
/-! SUPPORT. What each update of the state leaves alone, field by field; and what a time that a command carries changes. -/
namespace Sys2Proof.Machine

variable (s : State)

@[simp] theorem State.setReg_host (o v : Nat) : (s.setReg o v).host = s.host := (rfl)
@[simp] theorem State.setReg_rings (o v : Nat) : (s.setReg o v).rings = s.rings := (rfl)
@[simp] theorem State.setReg_runs (o v : Nat) : (s.setReg o v).runs = s.runs := (rfl)
@[simp] theorem State.setReg_cue (o v : Nat) : (s.setReg o v).cue = s.cue := (rfl)
@[simp] theorem State.setReg_sched (o v : Nat) : (s.setReg o v).sched = s.sched := (rfl)
@[simp] theorem State.setReg_accounts (o v : Nat) : (s.setReg o v).accounts = s.accounts := (rfl)
@[simp] theorem State.setReg_mem (o v : Nat) : (s.setReg o v).mem = s.mem := (rfl)
@[simp] theorem State.setReg_flash (o v : Nat) : (s.setReg o v).flash = s.flash := (rfl)
@[simp] theorem State.setReg_book (o v : Nat) : (s.setReg o v).book = s.book := (rfl)
@[simp] theorem State.setReg_fab (o v : Nat) : (s.setReg o v).fab = s.fab := (rfl)
@[simp] theorem State.setReg_coll (o v : Nat) : (s.setReg o v).coll = s.coll := (rfl)
@[simp] theorem State.setReg_rel (o v : Nat) : (s.setReg o v).rel = s.rel := (rfl)
@[simp] theorem State.setReg_sec (o v : Nat) : (s.setReg o v).sec = s.sec := (rfl)
@[simp] theorem State.setReg_power (o v : Nat) : (s.setReg o v).power = s.power := (rfl)
@[simp] theorem State.setReg_boot (o v : Nat) : (s.setReg o v).boot = s.boot := (rfl)
@[simp] theorem State.setReg_fn (o v : Nat) : (s.setReg o v).fn = s.fn := (rfl)
@[simp] theorem State.setReg_bias (o v : Nat) : (s.setReg o v).bias = s.bias := (rfl)
@[simp] theorem State.setReg_media (o v : Nat) : (s.setReg o v).media = s.media := (rfl)
@[simp] theorem State.setReg_outs (o v : Nat) : (s.setReg o v).outs = s.outs := (rfl)
@[simp] theorem State.setReg_pending (o v : Nat) : (s.setReg o v).pending = s.pending := (rfl)
@[simp] theorem State.setReg_freeCtr (o v : Nat) : (s.setReg o v).freeCtr = s.freeCtr := (rfl)
@[simp] theorem State.setReg_now (o v : Nat) : (s.setReg o v).now = s.now := (rfl)

@[simp] theorem State.setFld_host (f : Fld) (v : Nat) : (s.setFld f v).host = s.host := (rfl)
@[simp] theorem State.setFld_rings (f : Fld) (v : Nat) : (s.setFld f v).rings = s.rings := (rfl)
@[simp] theorem State.setFld_runs (f : Fld) (v : Nat) : (s.setFld f v).runs = s.runs := (rfl)
@[simp] theorem State.setFld_cue (f : Fld) (v : Nat) : (s.setFld f v).cue = s.cue := (rfl)
@[simp] theorem State.setFld_sched (f : Fld) (v : Nat) : (s.setFld f v).sched = s.sched := (rfl)
@[simp] theorem State.setFld_accounts (f : Fld) (v : Nat) : (s.setFld f v).accounts = s.accounts := (rfl)
@[simp] theorem State.setFld_mem (f : Fld) (v : Nat) : (s.setFld f v).mem = s.mem := (rfl)
@[simp] theorem State.setFld_flash (f : Fld) (v : Nat) : (s.setFld f v).flash = s.flash := (rfl)
@[simp] theorem State.setFld_book (f : Fld) (v : Nat) : (s.setFld f v).book = s.book := (rfl)
@[simp] theorem State.setFld_fab (f : Fld) (v : Nat) : (s.setFld f v).fab = s.fab := (rfl)
@[simp] theorem State.setFld_coll (f : Fld) (v : Nat) : (s.setFld f v).coll = s.coll := (rfl)
@[simp] theorem State.setFld_rel (f : Fld) (v : Nat) : (s.setFld f v).rel = s.rel := (rfl)
@[simp] theorem State.setFld_sec (f : Fld) (v : Nat) : (s.setFld f v).sec = s.sec := (rfl)
@[simp] theorem State.setFld_power (f : Fld) (v : Nat) : (s.setFld f v).power = s.power := (rfl)
@[simp] theorem State.setFld_boot (f : Fld) (v : Nat) : (s.setFld f v).boot = s.boot := (rfl)
@[simp] theorem State.setFld_fn (f : Fld) (v : Nat) : (s.setFld f v).fn = s.fn := (rfl)
@[simp] theorem State.setFld_bias (f : Fld) (v : Nat) : (s.setFld f v).bias = s.bias := (rfl)
@[simp] theorem State.setFld_media (f : Fld) (v : Nat) : (s.setFld f v).media = s.media := (rfl)
@[simp] theorem State.setFld_outs (f : Fld) (v : Nat) : (s.setFld f v).outs = s.outs := (rfl)
@[simp] theorem State.setFld_pending (f : Fld) (v : Nat) : (s.setFld f v).pending = s.pending := (rfl)
@[simp] theorem State.setFld_freeCtr (f : Fld) (v : Nat) : (s.setFld f v).freeCtr = s.freeCtr := (rfl)
@[simp] theorem State.setFld_now (f : Fld) (v : Nat) : (s.setFld f v).now = s.now := (rfl)

@[simp] theorem State.setFlag_host (f : Fld) (b : Bool) : (s.setFlag f b).host = s.host := (rfl)
@[simp] theorem State.setFlag_rings (f : Fld) (b : Bool) : (s.setFlag f b).rings = s.rings := (rfl)
@[simp] theorem State.setFlag_runs (f : Fld) (b : Bool) : (s.setFlag f b).runs = s.runs := (rfl)
@[simp] theorem State.setFlag_cue (f : Fld) (b : Bool) : (s.setFlag f b).cue = s.cue := (rfl)
@[simp] theorem State.setFlag_sched (f : Fld) (b : Bool) : (s.setFlag f b).sched = s.sched := (rfl)
@[simp] theorem State.setFlag_accounts (f : Fld) (b : Bool) : (s.setFlag f b).accounts = s.accounts := (rfl)
@[simp] theorem State.setFlag_mem (f : Fld) (b : Bool) : (s.setFlag f b).mem = s.mem := (rfl)
@[simp] theorem State.setFlag_flash (f : Fld) (b : Bool) : (s.setFlag f b).flash = s.flash := (rfl)
@[simp] theorem State.setFlag_book (f : Fld) (b : Bool) : (s.setFlag f b).book = s.book := (rfl)
@[simp] theorem State.setFlag_fab (f : Fld) (b : Bool) : (s.setFlag f b).fab = s.fab := (rfl)
@[simp] theorem State.setFlag_coll (f : Fld) (b : Bool) : (s.setFlag f b).coll = s.coll := (rfl)
@[simp] theorem State.setFlag_rel (f : Fld) (b : Bool) : (s.setFlag f b).rel = s.rel := (rfl)
@[simp] theorem State.setFlag_sec (f : Fld) (b : Bool) : (s.setFlag f b).sec = s.sec := (rfl)
@[simp] theorem State.setFlag_power (f : Fld) (b : Bool) : (s.setFlag f b).power = s.power := (rfl)
@[simp] theorem State.setFlag_boot (f : Fld) (b : Bool) : (s.setFlag f b).boot = s.boot := (rfl)
@[simp] theorem State.setFlag_fn (f : Fld) (b : Bool) : (s.setFlag f b).fn = s.fn := (rfl)
@[simp] theorem State.setFlag_bias (f : Fld) (b : Bool) : (s.setFlag f b).bias = s.bias := (rfl)
@[simp] theorem State.setFlag_media (f : Fld) (b : Bool) : (s.setFlag f b).media = s.media := (rfl)
@[simp] theorem State.setFlag_outs (f : Fld) (b : Bool) : (s.setFlag f b).outs = s.outs := (rfl)
@[simp] theorem State.setFlag_pending (f : Fld) (b : Bool) : (s.setFlag f b).pending = s.pending := (rfl)
@[simp] theorem State.setFlag_freeCtr (f : Fld) (b : Bool) : (s.setFlag f b).freeCtr = s.freeCtr := (rfl)
@[simp] theorem State.setFlag_now (f : Fld) (b : Bool) : (s.setFlag f b).now = s.now := (rfl)

@[simp] theorem State.bump_host (f : Fld) (n : Nat) : (s.bump f n).host = s.host := (rfl)
@[simp] theorem State.bump_rings (f : Fld) (n : Nat) : (s.bump f n).rings = s.rings := (rfl)
@[simp] theorem State.bump_runs (f : Fld) (n : Nat) : (s.bump f n).runs = s.runs := (rfl)
@[simp] theorem State.bump_cue (f : Fld) (n : Nat) : (s.bump f n).cue = s.cue := (rfl)
@[simp] theorem State.bump_sched (f : Fld) (n : Nat) : (s.bump f n).sched = s.sched := (rfl)
@[simp] theorem State.bump_accounts (f : Fld) (n : Nat) : (s.bump f n).accounts = s.accounts := (rfl)
@[simp] theorem State.bump_mem (f : Fld) (n : Nat) : (s.bump f n).mem = s.mem := (rfl)
@[simp] theorem State.bump_flash (f : Fld) (n : Nat) : (s.bump f n).flash = s.flash := (rfl)
@[simp] theorem State.bump_book (f : Fld) (n : Nat) : (s.bump f n).book = s.book := (rfl)
@[simp] theorem State.bump_fab (f : Fld) (n : Nat) : (s.bump f n).fab = s.fab := (rfl)
@[simp] theorem State.bump_coll (f : Fld) (n : Nat) : (s.bump f n).coll = s.coll := (rfl)
@[simp] theorem State.bump_rel (f : Fld) (n : Nat) : (s.bump f n).rel = s.rel := (rfl)
@[simp] theorem State.bump_sec (f : Fld) (n : Nat) : (s.bump f n).sec = s.sec := (rfl)
@[simp] theorem State.bump_power (f : Fld) (n : Nat) : (s.bump f n).power = s.power := (rfl)
@[simp] theorem State.bump_boot (f : Fld) (n : Nat) : (s.bump f n).boot = s.boot := (rfl)
@[simp] theorem State.bump_fn (f : Fld) (n : Nat) : (s.bump f n).fn = s.fn := (rfl)
@[simp] theorem State.bump_bias (f : Fld) (n : Nat) : (s.bump f n).bias = s.bias := (rfl)
@[simp] theorem State.bump_media (f : Fld) (n : Nat) : (s.bump f n).media = s.media := (rfl)
@[simp] theorem State.bump_outs (f : Fld) (n : Nat) : (s.bump f n).outs = s.outs := (rfl)
@[simp] theorem State.bump_pending (f : Fld) (n : Nat) : (s.bump f n).pending = s.pending := (rfl)
@[simp] theorem State.bump_freeCtr (f : Fld) (n : Nat) : (s.bump f n).freeCtr = s.freeCtr := (rfl)
@[simp] theorem State.bump_now (f : Fld) (n : Nat) : (s.bump f n).now = s.now := (rfl)

@[simp] theorem State.emit_regs (x : Output) : (s.emit x).regs = s.regs := (rfl)
@[simp] theorem State.emit_host (x : Output) : (s.emit x).host = s.host := (rfl)
@[simp] theorem State.emit_rings (x : Output) : (s.emit x).rings = s.rings := (rfl)
@[simp] theorem State.emit_runs (x : Output) : (s.emit x).runs = s.runs := (rfl)
@[simp] theorem State.emit_cue (x : Output) : (s.emit x).cue = s.cue := (rfl)
@[simp] theorem State.emit_sched (x : Output) : (s.emit x).sched = s.sched := (rfl)
@[simp] theorem State.emit_accounts (x : Output) : (s.emit x).accounts = s.accounts := (rfl)
@[simp] theorem State.emit_mem (x : Output) : (s.emit x).mem = s.mem := (rfl)
@[simp] theorem State.emit_flash (x : Output) : (s.emit x).flash = s.flash := (rfl)
@[simp] theorem State.emit_book (x : Output) : (s.emit x).book = s.book := (rfl)
@[simp] theorem State.emit_fab (x : Output) : (s.emit x).fab = s.fab := (rfl)
@[simp] theorem State.emit_coll (x : Output) : (s.emit x).coll = s.coll := (rfl)
@[simp] theorem State.emit_rel (x : Output) : (s.emit x).rel = s.rel := (rfl)
@[simp] theorem State.emit_sec (x : Output) : (s.emit x).sec = s.sec := (rfl)
@[simp] theorem State.emit_power (x : Output) : (s.emit x).power = s.power := (rfl)
@[simp] theorem State.emit_boot (x : Output) : (s.emit x).boot = s.boot := (rfl)
@[simp] theorem State.emit_fn (x : Output) : (s.emit x).fn = s.fn := (rfl)
@[simp] theorem State.emit_bias (x : Output) : (s.emit x).bias = s.bias := (rfl)
@[simp] theorem State.emit_media (x : Output) : (s.emit x).media = s.media := (rfl)
@[simp] theorem State.emit_pending (x : Output) : (s.emit x).pending = s.pending := (rfl)
@[simp] theorem State.emit_freeCtr (x : Output) : (s.emit x).freeCtr = s.freeCtr := (rfl)
@[simp] theorem State.emit_now (x : Output) : (s.emit x).now = s.now := (rfl)

@[simp] theorem State.draw_regs : (s.draw).regs = s.regs := (rfl)
@[simp] theorem State.draw_host : (s.draw).host = s.host := (rfl)
@[simp] theorem State.draw_rings : (s.draw).rings = s.rings := (rfl)
@[simp] theorem State.draw_runs : (s.draw).runs = s.runs := (rfl)
@[simp] theorem State.draw_cue : (s.draw).cue = s.cue := (rfl)
@[simp] theorem State.draw_sched : (s.draw).sched = s.sched := (rfl)
@[simp] theorem State.draw_accounts : (s.draw).accounts = s.accounts := (rfl)
@[simp] theorem State.draw_mem : (s.draw).mem = s.mem := (rfl)
@[simp] theorem State.draw_flash : (s.draw).flash = s.flash := (rfl)
@[simp] theorem State.draw_book : (s.draw).book = s.book := (rfl)
@[simp] theorem State.draw_fab : (s.draw).fab = s.fab := (rfl)
@[simp] theorem State.draw_coll : (s.draw).coll = s.coll := (rfl)
@[simp] theorem State.draw_rel : (s.draw).rel = s.rel := (rfl)
@[simp] theorem State.draw_sec : (s.draw).sec = s.sec := (rfl)
@[simp] theorem State.draw_power : (s.draw).power = s.power := (rfl)
@[simp] theorem State.draw_boot : (s.draw).boot = s.boot := (rfl)
@[simp] theorem State.draw_fn : (s.draw).fn = s.fn := (rfl)
@[simp] theorem State.draw_bias : (s.draw).bias = s.bias := (rfl)
@[simp] theorem State.draw_media : (s.draw).media = s.media := (rfl)
@[simp] theorem State.draw_outs : (s.draw).outs = s.outs := (rfl)
@[simp] theorem State.draw_pending : (s.draw).pending = s.pending := (rfl)
@[simp] theorem State.draw_now : (s.draw).now = s.now := (rfl)

@[simp] theorem State.setRing_regs (n : Nat) (r : Ring) : (s.setRing n r).regs = s.regs := (rfl)
@[simp] theorem State.setRing_host (n : Nat) (r : Ring) : (s.setRing n r).host = s.host := (rfl)
@[simp] theorem State.setRing_runs (n : Nat) (r : Ring) : (s.setRing n r).runs = s.runs := (rfl)
@[simp] theorem State.setRing_cue (n : Nat) (r : Ring) : (s.setRing n r).cue = s.cue := (rfl)
@[simp] theorem State.setRing_sched (n : Nat) (r : Ring) : (s.setRing n r).sched = s.sched := (rfl)
@[simp] theorem State.setRing_accounts (n : Nat) (r : Ring) : (s.setRing n r).accounts = s.accounts := (rfl)
@[simp] theorem State.setRing_mem (n : Nat) (r : Ring) : (s.setRing n r).mem = s.mem := (rfl)
@[simp] theorem State.setRing_flash (n : Nat) (r : Ring) : (s.setRing n r).flash = s.flash := (rfl)
@[simp] theorem State.setRing_book (n : Nat) (r : Ring) : (s.setRing n r).book = s.book := (rfl)
@[simp] theorem State.setRing_fab (n : Nat) (r : Ring) : (s.setRing n r).fab = s.fab := (rfl)
@[simp] theorem State.setRing_coll (n : Nat) (r : Ring) : (s.setRing n r).coll = s.coll := (rfl)
@[simp] theorem State.setRing_rel (n : Nat) (r : Ring) : (s.setRing n r).rel = s.rel := (rfl)
@[simp] theorem State.setRing_sec (n : Nat) (r : Ring) : (s.setRing n r).sec = s.sec := (rfl)
@[simp] theorem State.setRing_power (n : Nat) (r : Ring) : (s.setRing n r).power = s.power := (rfl)
@[simp] theorem State.setRing_boot (n : Nat) (r : Ring) : (s.setRing n r).boot = s.boot := (rfl)
@[simp] theorem State.setRing_fn (n : Nat) (r : Ring) : (s.setRing n r).fn = s.fn := (rfl)
@[simp] theorem State.setRing_bias (n : Nat) (r : Ring) : (s.setRing n r).bias = s.bias := (rfl)
@[simp] theorem State.setRing_media (n : Nat) (r : Ring) : (s.setRing n r).media = s.media := (rfl)
@[simp] theorem State.setRing_outs (n : Nat) (r : Ring) : (s.setRing n r).outs = s.outs := (rfl)
@[simp] theorem State.setRing_pending (n : Nat) (r : Ring) : (s.setRing n r).pending = s.pending := (rfl)
@[simp] theorem State.setRing_freeCtr (n : Nat) (r : Ring) : (s.setRing n r).freeCtr = s.freeCtr := (rfl)
@[simp] theorem State.setRing_now (n : Nat) (r : Ring) : (s.setRing n r).now = s.now := (rfl)

@[simp] theorem State.onRing_regs (n : Nat) (f : Ring → Ring) : (s.onRing n f).regs = s.regs := (rfl)
@[simp] theorem State.onRing_host (n : Nat) (f : Ring → Ring) : (s.onRing n f).host = s.host := (rfl)
@[simp] theorem State.onRing_runs (n : Nat) (f : Ring → Ring) : (s.onRing n f).runs = s.runs := (rfl)
@[simp] theorem State.onRing_cue (n : Nat) (f : Ring → Ring) : (s.onRing n f).cue = s.cue := (rfl)
@[simp] theorem State.onRing_sched (n : Nat) (f : Ring → Ring) : (s.onRing n f).sched = s.sched := (rfl)
@[simp] theorem State.onRing_accounts (n : Nat) (f : Ring → Ring) : (s.onRing n f).accounts = s.accounts := (rfl)
@[simp] theorem State.onRing_mem (n : Nat) (f : Ring → Ring) : (s.onRing n f).mem = s.mem := (rfl)
@[simp] theorem State.onRing_flash (n : Nat) (f : Ring → Ring) : (s.onRing n f).flash = s.flash := (rfl)
@[simp] theorem State.onRing_book (n : Nat) (f : Ring → Ring) : (s.onRing n f).book = s.book := (rfl)
@[simp] theorem State.onRing_fab (n : Nat) (f : Ring → Ring) : (s.onRing n f).fab = s.fab := (rfl)
@[simp] theorem State.onRing_coll (n : Nat) (f : Ring → Ring) : (s.onRing n f).coll = s.coll := (rfl)
@[simp] theorem State.onRing_rel (n : Nat) (f : Ring → Ring) : (s.onRing n f).rel = s.rel := (rfl)
@[simp] theorem State.onRing_sec (n : Nat) (f : Ring → Ring) : (s.onRing n f).sec = s.sec := (rfl)
@[simp] theorem State.onRing_power (n : Nat) (f : Ring → Ring) : (s.onRing n f).power = s.power := (rfl)
@[simp] theorem State.onRing_boot (n : Nat) (f : Ring → Ring) : (s.onRing n f).boot = s.boot := (rfl)
@[simp] theorem State.onRing_fn (n : Nat) (f : Ring → Ring) : (s.onRing n f).fn = s.fn := (rfl)
@[simp] theorem State.onRing_bias (n : Nat) (f : Ring → Ring) : (s.onRing n f).bias = s.bias := (rfl)
@[simp] theorem State.onRing_media (n : Nat) (f : Ring → Ring) : (s.onRing n f).media = s.media := (rfl)
@[simp] theorem State.onRing_outs (n : Nat) (f : Ring → Ring) : (s.onRing n f).outs = s.outs := (rfl)
@[simp] theorem State.onRing_pending (n : Nat) (f : Ring → Ring) : (s.onRing n f).pending = s.pending := (rfl)
@[simp] theorem State.onRing_freeCtr (n : Nat) (f : Ring → Ring) : (s.onRing n f).freeCtr = s.freeCtr := (rfl)
@[simp] theorem State.onRing_now (n : Nat) (f : Ring → Ring) : (s.onRing n f).now = s.now := (rfl)

@[simp] theorem State.onRun_regs (n : Nat) (f : Run → Run) : (s.onRun n f).regs = s.regs := (rfl)
@[simp] theorem State.onRun_host (n : Nat) (f : Run → Run) : (s.onRun n f).host = s.host := (rfl)
@[simp] theorem State.onRun_rings (n : Nat) (f : Run → Run) : (s.onRun n f).rings = s.rings := (rfl)
@[simp] theorem State.onRun_cue (n : Nat) (f : Run → Run) : (s.onRun n f).cue = s.cue := (rfl)
@[simp] theorem State.onRun_sched (n : Nat) (f : Run → Run) : (s.onRun n f).sched = s.sched := (rfl)
@[simp] theorem State.onRun_accounts (n : Nat) (f : Run → Run) : (s.onRun n f).accounts = s.accounts := (rfl)
@[simp] theorem State.onRun_mem (n : Nat) (f : Run → Run) : (s.onRun n f).mem = s.mem := (rfl)
@[simp] theorem State.onRun_flash (n : Nat) (f : Run → Run) : (s.onRun n f).flash = s.flash := (rfl)
@[simp] theorem State.onRun_book (n : Nat) (f : Run → Run) : (s.onRun n f).book = s.book := (rfl)
@[simp] theorem State.onRun_fab (n : Nat) (f : Run → Run) : (s.onRun n f).fab = s.fab := (rfl)
@[simp] theorem State.onRun_coll (n : Nat) (f : Run → Run) : (s.onRun n f).coll = s.coll := (rfl)
@[simp] theorem State.onRun_rel (n : Nat) (f : Run → Run) : (s.onRun n f).rel = s.rel := (rfl)
@[simp] theorem State.onRun_sec (n : Nat) (f : Run → Run) : (s.onRun n f).sec = s.sec := (rfl)
@[simp] theorem State.onRun_power (n : Nat) (f : Run → Run) : (s.onRun n f).power = s.power := (rfl)
@[simp] theorem State.onRun_boot (n : Nat) (f : Run → Run) : (s.onRun n f).boot = s.boot := (rfl)
@[simp] theorem State.onRun_fn (n : Nat) (f : Run → Run) : (s.onRun n f).fn = s.fn := (rfl)
@[simp] theorem State.onRun_bias (n : Nat) (f : Run → Run) : (s.onRun n f).bias = s.bias := (rfl)
@[simp] theorem State.onRun_media (n : Nat) (f : Run → Run) : (s.onRun n f).media = s.media := (rfl)
@[simp] theorem State.onRun_outs (n : Nat) (f : Run → Run) : (s.onRun n f).outs = s.outs := (rfl)
@[simp] theorem State.onRun_pending (n : Nat) (f : Run → Run) : (s.onRun n f).pending = s.pending := (rfl)
@[simp] theorem State.onRun_freeCtr (n : Nat) (f : Run → Run) : (s.onRun n f).freeCtr = s.freeCtr := (rfl)
@[simp] theorem State.onRun_now (n : Nat) (f : Run → Run) : (s.onRun n f).now = s.now := (rfl)

@[simp] theorem State.onItem_regs (n i : Nat) (f : Item → Item) : (s.onItem n i f).regs = s.regs := (rfl)
@[simp] theorem State.onItem_host (n i : Nat) (f : Item → Item) : (s.onItem n i f).host = s.host := (rfl)
@[simp] theorem State.onItem_rings (n i : Nat) (f : Item → Item) : (s.onItem n i f).rings = s.rings := (rfl)
@[simp] theorem State.onItem_cue (n i : Nat) (f : Item → Item) : (s.onItem n i f).cue = s.cue := (rfl)
@[simp] theorem State.onItem_sched (n i : Nat) (f : Item → Item) : (s.onItem n i f).sched = s.sched := (rfl)
@[simp] theorem State.onItem_accounts (n i : Nat) (f : Item → Item) : (s.onItem n i f).accounts = s.accounts := (rfl)
@[simp] theorem State.onItem_mem (n i : Nat) (f : Item → Item) : (s.onItem n i f).mem = s.mem := (rfl)
@[simp] theorem State.onItem_flash (n i : Nat) (f : Item → Item) : (s.onItem n i f).flash = s.flash := (rfl)
@[simp] theorem State.onItem_book (n i : Nat) (f : Item → Item) : (s.onItem n i f).book = s.book := (rfl)
@[simp] theorem State.onItem_fab (n i : Nat) (f : Item → Item) : (s.onItem n i f).fab = s.fab := (rfl)
@[simp] theorem State.onItem_coll (n i : Nat) (f : Item → Item) : (s.onItem n i f).coll = s.coll := (rfl)
@[simp] theorem State.onItem_rel (n i : Nat) (f : Item → Item) : (s.onItem n i f).rel = s.rel := (rfl)
@[simp] theorem State.onItem_sec (n i : Nat) (f : Item → Item) : (s.onItem n i f).sec = s.sec := (rfl)
@[simp] theorem State.onItem_power (n i : Nat) (f : Item → Item) : (s.onItem n i f).power = s.power := (rfl)
@[simp] theorem State.onItem_boot (n i : Nat) (f : Item → Item) : (s.onItem n i f).boot = s.boot := (rfl)
@[simp] theorem State.onItem_fn (n i : Nat) (f : Item → Item) : (s.onItem n i f).fn = s.fn := (rfl)
@[simp] theorem State.onItem_bias (n i : Nat) (f : Item → Item) : (s.onItem n i f).bias = s.bias := (rfl)
@[simp] theorem State.onItem_media (n i : Nat) (f : Item → Item) : (s.onItem n i f).media = s.media := (rfl)
@[simp] theorem State.onItem_outs (n i : Nat) (f : Item → Item) : (s.onItem n i f).outs = s.outs := (rfl)
@[simp] theorem State.onItem_pending (n i : Nat) (f : Item → Item) : (s.onItem n i f).pending = s.pending := (rfl)
@[simp] theorem State.onItem_freeCtr (n i : Nat) (f : Item → Item) : (s.onItem n i f).freeCtr = s.freeCtr := (rfl)
@[simp] theorem State.onItem_now (n i : Nat) (f : Item → Item) : (s.onItem n i f).now = s.now := (rfl)

@[simp] theorem State.onAccount_regs (c : Nat) (f : Account → Account) : (s.onAccount c f).regs = s.regs := (rfl)
@[simp] theorem State.onAccount_host (c : Nat) (f : Account → Account) : (s.onAccount c f).host = s.host := (rfl)
@[simp] theorem State.onAccount_rings (c : Nat) (f : Account → Account) : (s.onAccount c f).rings = s.rings := (rfl)
@[simp] theorem State.onAccount_runs (c : Nat) (f : Account → Account) : (s.onAccount c f).runs = s.runs := (rfl)
@[simp] theorem State.onAccount_cue (c : Nat) (f : Account → Account) : (s.onAccount c f).cue = s.cue := (rfl)
@[simp] theorem State.onAccount_sched (c : Nat) (f : Account → Account) : (s.onAccount c f).sched = s.sched := (rfl)
@[simp] theorem State.onAccount_mem (c : Nat) (f : Account → Account) : (s.onAccount c f).mem = s.mem := (rfl)
@[simp] theorem State.onAccount_flash (c : Nat) (f : Account → Account) : (s.onAccount c f).flash = s.flash := (rfl)
@[simp] theorem State.onAccount_book (c : Nat) (f : Account → Account) : (s.onAccount c f).book = s.book := (rfl)
@[simp] theorem State.onAccount_fab (c : Nat) (f : Account → Account) : (s.onAccount c f).fab = s.fab := (rfl)
@[simp] theorem State.onAccount_coll (c : Nat) (f : Account → Account) : (s.onAccount c f).coll = s.coll := (rfl)
@[simp] theorem State.onAccount_rel (c : Nat) (f : Account → Account) : (s.onAccount c f).rel = s.rel := (rfl)
@[simp] theorem State.onAccount_sec (c : Nat) (f : Account → Account) : (s.onAccount c f).sec = s.sec := (rfl)
@[simp] theorem State.onAccount_power (c : Nat) (f : Account → Account) : (s.onAccount c f).power = s.power := (rfl)
@[simp] theorem State.onAccount_boot (c : Nat) (f : Account → Account) : (s.onAccount c f).boot = s.boot := (rfl)
@[simp] theorem State.onAccount_fn (c : Nat) (f : Account → Account) : (s.onAccount c f).fn = s.fn := (rfl)
@[simp] theorem State.onAccount_bias (c : Nat) (f : Account → Account) : (s.onAccount c f).bias = s.bias := (rfl)
@[simp] theorem State.onAccount_media (c : Nat) (f : Account → Account) : (s.onAccount c f).media = s.media := (rfl)
@[simp] theorem State.onAccount_outs (c : Nat) (f : Account → Account) : (s.onAccount c f).outs = s.outs := (rfl)
@[simp] theorem State.onAccount_pending (c : Nat) (f : Account → Account) : (s.onAccount c f).pending = s.pending := (rfl)
@[simp] theorem State.onAccount_freeCtr (c : Nat) (f : Account → Account) : (s.onAccount c f).freeCtr = s.freeCtr := (rfl)
@[simp] theorem State.onAccount_now (c : Nat) (f : Account → Account) : (s.onAccount c f).now = s.now := (rfl)

@[simp] theorem State.devWrite_regs (k : Nat) (b : List Byte) : (s.devWrite k b).regs = s.regs := (rfl)
@[simp] theorem State.devWrite_host (k : Nat) (b : List Byte) : (s.devWrite k b).host = s.host := (rfl)
@[simp] theorem State.devWrite_rings (k : Nat) (b : List Byte) : (s.devWrite k b).rings = s.rings := (rfl)
@[simp] theorem State.devWrite_runs (k : Nat) (b : List Byte) : (s.devWrite k b).runs = s.runs := (rfl)
@[simp] theorem State.devWrite_cue (k : Nat) (b : List Byte) : (s.devWrite k b).cue = s.cue := (rfl)
@[simp] theorem State.devWrite_sched (k : Nat) (b : List Byte) : (s.devWrite k b).sched = s.sched := (rfl)
@[simp] theorem State.devWrite_accounts (k : Nat) (b : List Byte) : (s.devWrite k b).accounts = s.accounts := (rfl)
@[simp] theorem State.devWrite_flash (k : Nat) (b : List Byte) : (s.devWrite k b).flash = s.flash := (rfl)
@[simp] theorem State.devWrite_book (k : Nat) (b : List Byte) : (s.devWrite k b).book = s.book := (rfl)
@[simp] theorem State.devWrite_fab (k : Nat) (b : List Byte) : (s.devWrite k b).fab = s.fab := (rfl)
@[simp] theorem State.devWrite_coll (k : Nat) (b : List Byte) : (s.devWrite k b).coll = s.coll := (rfl)
@[simp] theorem State.devWrite_sec (k : Nat) (b : List Byte) : (s.devWrite k b).sec = s.sec := (rfl)
@[simp] theorem State.devWrite_power (k : Nat) (b : List Byte) : (s.devWrite k b).power = s.power := (rfl)
@[simp] theorem State.devWrite_boot (k : Nat) (b : List Byte) : (s.devWrite k b).boot = s.boot := (rfl)
@[simp] theorem State.devWrite_fn (k : Nat) (b : List Byte) : (s.devWrite k b).fn = s.fn := (rfl)
@[simp] theorem State.devWrite_bias (k : Nat) (b : List Byte) : (s.devWrite k b).bias = s.bias := (rfl)
@[simp] theorem State.devWrite_media (k : Nat) (b : List Byte) : (s.devWrite k b).media = s.media := (rfl)
@[simp] theorem State.devWrite_outs (k : Nat) (b : List Byte) : (s.devWrite k b).outs = s.outs := (rfl)
@[simp] theorem State.devWrite_pending (k : Nat) (b : List Byte) : (s.devWrite k b).pending = s.pending := (rfl)
@[simp] theorem State.devWrite_freeCtr (k : Nat) (b : List Byte) : (s.devWrite k b).freeCtr = s.freeCtr := (rfl)
@[simp] theorem State.devWrite_now (k : Nat) (b : List Byte) : (s.devWrite k b).now = s.now := (rfl)

@[simp] theorem State.devZero_regs (k n : Nat) : (s.devZero k n).regs = s.regs := (rfl)
@[simp] theorem State.devZero_host (k n : Nat) : (s.devZero k n).host = s.host := (rfl)
@[simp] theorem State.devZero_rings (k n : Nat) : (s.devZero k n).rings = s.rings := (rfl)
@[simp] theorem State.devZero_runs (k n : Nat) : (s.devZero k n).runs = s.runs := (rfl)
@[simp] theorem State.devZero_cue (k n : Nat) : (s.devZero k n).cue = s.cue := (rfl)
@[simp] theorem State.devZero_sched (k n : Nat) : (s.devZero k n).sched = s.sched := (rfl)
@[simp] theorem State.devZero_accounts (k n : Nat) : (s.devZero k n).accounts = s.accounts := (rfl)
@[simp] theorem State.devZero_flash (k n : Nat) : (s.devZero k n).flash = s.flash := (rfl)
@[simp] theorem State.devZero_book (k n : Nat) : (s.devZero k n).book = s.book := (rfl)
@[simp] theorem State.devZero_fab (k n : Nat) : (s.devZero k n).fab = s.fab := (rfl)
@[simp] theorem State.devZero_coll (k n : Nat) : (s.devZero k n).coll = s.coll := (rfl)
@[simp] theorem State.devZero_sec (k n : Nat) : (s.devZero k n).sec = s.sec := (rfl)
@[simp] theorem State.devZero_power (k n : Nat) : (s.devZero k n).power = s.power := (rfl)
@[simp] theorem State.devZero_boot (k n : Nat) : (s.devZero k n).boot = s.boot := (rfl)
@[simp] theorem State.devZero_fn (k n : Nat) : (s.devZero k n).fn = s.fn := (rfl)
@[simp] theorem State.devZero_bias (k n : Nat) : (s.devZero k n).bias = s.bias := (rfl)
@[simp] theorem State.devZero_media (k n : Nat) : (s.devZero k n).media = s.media := (rfl)
@[simp] theorem State.devZero_outs (k n : Nat) : (s.devZero k n).outs = s.outs := (rfl)
@[simp] theorem State.devZero_pending (k n : Nat) : (s.devZero k n).pending = s.pending := (rfl)
@[simp] theorem State.devZero_freeCtr (k n : Nat) : (s.devZero k n).freeCtr = s.freeCtr := (rfl)
@[simp] theorem State.devZero_now (k n : Nat) : (s.devZero k n).now = s.now := (rfl)

@[simp] theorem State.sramWrite_regs (k : Nat) (b : List Byte) : (s.sramWrite k b).regs = s.regs := (rfl)
@[simp] theorem State.sramWrite_host (k : Nat) (b : List Byte) : (s.sramWrite k b).host = s.host := (rfl)
@[simp] theorem State.sramWrite_rings (k : Nat) (b : List Byte) : (s.sramWrite k b).rings = s.rings := (rfl)
@[simp] theorem State.sramWrite_runs (k : Nat) (b : List Byte) : (s.sramWrite k b).runs = s.runs := (rfl)
@[simp] theorem State.sramWrite_cue (k : Nat) (b : List Byte) : (s.sramWrite k b).cue = s.cue := (rfl)
@[simp] theorem State.sramWrite_sched (k : Nat) (b : List Byte) : (s.sramWrite k b).sched = s.sched := (rfl)
@[simp] theorem State.sramWrite_accounts (k : Nat) (b : List Byte) : (s.sramWrite k b).accounts = s.accounts := (rfl)
@[simp] theorem State.sramWrite_flash (k : Nat) (b : List Byte) : (s.sramWrite k b).flash = s.flash := (rfl)
@[simp] theorem State.sramWrite_book (k : Nat) (b : List Byte) : (s.sramWrite k b).book = s.book := (rfl)
@[simp] theorem State.sramWrite_fab (k : Nat) (b : List Byte) : (s.sramWrite k b).fab = s.fab := (rfl)
@[simp] theorem State.sramWrite_coll (k : Nat) (b : List Byte) : (s.sramWrite k b).coll = s.coll := (rfl)
@[simp] theorem State.sramWrite_sec (k : Nat) (b : List Byte) : (s.sramWrite k b).sec = s.sec := (rfl)
@[simp] theorem State.sramWrite_power (k : Nat) (b : List Byte) : (s.sramWrite k b).power = s.power := (rfl)
@[simp] theorem State.sramWrite_boot (k : Nat) (b : List Byte) : (s.sramWrite k b).boot = s.boot := (rfl)
@[simp] theorem State.sramWrite_fn (k : Nat) (b : List Byte) : (s.sramWrite k b).fn = s.fn := (rfl)
@[simp] theorem State.sramWrite_bias (k : Nat) (b : List Byte) : (s.sramWrite k b).bias = s.bias := (rfl)
@[simp] theorem State.sramWrite_media (k : Nat) (b : List Byte) : (s.sramWrite k b).media = s.media := (rfl)
@[simp] theorem State.sramWrite_outs (k : Nat) (b : List Byte) : (s.sramWrite k b).outs = s.outs := (rfl)
@[simp] theorem State.sramWrite_pending (k : Nat) (b : List Byte) : (s.sramWrite k b).pending = s.pending := (rfl)
@[simp] theorem State.sramWrite_freeCtr (k : Nat) (b : List Byte) : (s.sramWrite k b).freeCtr = s.freeCtr := (rfl)
@[simp] theorem State.sramWrite_now (k : Nat) (b : List Byte) : (s.sramWrite k b).now = s.now := (rfl)

@[simp] theorem State.sramZeroPart_regs (p : Nat) : (s.sramZeroPart p).regs = s.regs := (rfl)
@[simp] theorem State.sramZeroPart_host (p : Nat) : (s.sramZeroPart p).host = s.host := (rfl)
@[simp] theorem State.sramZeroPart_rings (p : Nat) : (s.sramZeroPart p).rings = s.rings := (rfl)
@[simp] theorem State.sramZeroPart_runs (p : Nat) : (s.sramZeroPart p).runs = s.runs := (rfl)
@[simp] theorem State.sramZeroPart_cue (p : Nat) : (s.sramZeroPart p).cue = s.cue := (rfl)
@[simp] theorem State.sramZeroPart_sched (p : Nat) : (s.sramZeroPart p).sched = s.sched := (rfl)
@[simp] theorem State.sramZeroPart_accounts (p : Nat) : (s.sramZeroPart p).accounts = s.accounts := (rfl)
@[simp] theorem State.sramZeroPart_flash (p : Nat) : (s.sramZeroPart p).flash = s.flash := (rfl)
@[simp] theorem State.sramZeroPart_book (p : Nat) : (s.sramZeroPart p).book = s.book := (rfl)
@[simp] theorem State.sramZeroPart_fab (p : Nat) : (s.sramZeroPart p).fab = s.fab := (rfl)
@[simp] theorem State.sramZeroPart_coll (p : Nat) : (s.sramZeroPart p).coll = s.coll := (rfl)
@[simp] theorem State.sramZeroPart_sec (p : Nat) : (s.sramZeroPart p).sec = s.sec := (rfl)
@[simp] theorem State.sramZeroPart_power (p : Nat) : (s.sramZeroPart p).power = s.power := (rfl)
@[simp] theorem State.sramZeroPart_boot (p : Nat) : (s.sramZeroPart p).boot = s.boot := (rfl)
@[simp] theorem State.sramZeroPart_fn (p : Nat) : (s.sramZeroPart p).fn = s.fn := (rfl)
@[simp] theorem State.sramZeroPart_bias (p : Nat) : (s.sramZeroPart p).bias = s.bias := (rfl)
@[simp] theorem State.sramZeroPart_media (p : Nat) : (s.sramZeroPart p).media = s.media := (rfl)
@[simp] theorem State.sramZeroPart_outs (p : Nat) : (s.sramZeroPart p).outs = s.outs := (rfl)
@[simp] theorem State.sramZeroPart_pending (p : Nat) : (s.sramZeroPart p).pending = s.pending := (rfl)
@[simp] theorem State.sramZeroPart_freeCtr (p : Nat) : (s.sramZeroPart p).freeCtr = s.freeCtr := (rfl)
@[simp] theorem State.sramZeroPart_now (p : Nat) : (s.sramZeroPart p).now = s.now := (rfl)

@[simp] theorem State.setPort_regs (n : Nat) (p : Port) : (s.setPort n p).regs = s.regs := (rfl)
@[simp] theorem State.setPort_host (n : Nat) (p : Port) : (s.setPort n p).host = s.host := (rfl)
@[simp] theorem State.setPort_rings (n : Nat) (p : Port) : (s.setPort n p).rings = s.rings := (rfl)
@[simp] theorem State.setPort_runs (n : Nat) (p : Port) : (s.setPort n p).runs = s.runs := (rfl)
@[simp] theorem State.setPort_cue (n : Nat) (p : Port) : (s.setPort n p).cue = s.cue := (rfl)
@[simp] theorem State.setPort_sched (n : Nat) (p : Port) : (s.setPort n p).sched = s.sched := (rfl)
@[simp] theorem State.setPort_accounts (n : Nat) (p : Port) : (s.setPort n p).accounts = s.accounts := (rfl)
@[simp] theorem State.setPort_mem (n : Nat) (p : Port) : (s.setPort n p).mem = s.mem := (rfl)
@[simp] theorem State.setPort_flash (n : Nat) (p : Port) : (s.setPort n p).flash = s.flash := (rfl)
@[simp] theorem State.setPort_book (n : Nat) (p : Port) : (s.setPort n p).book = s.book := (rfl)
@[simp] theorem State.setPort_coll (n : Nat) (p : Port) : (s.setPort n p).coll = s.coll := (rfl)
@[simp] theorem State.setPort_rel (n : Nat) (p : Port) : (s.setPort n p).rel = s.rel := (rfl)
@[simp] theorem State.setPort_sec (n : Nat) (p : Port) : (s.setPort n p).sec = s.sec := (rfl)
@[simp] theorem State.setPort_power (n : Nat) (p : Port) : (s.setPort n p).power = s.power := (rfl)
@[simp] theorem State.setPort_boot (n : Nat) (p : Port) : (s.setPort n p).boot = s.boot := (rfl)
@[simp] theorem State.setPort_fn (n : Nat) (p : Port) : (s.setPort n p).fn = s.fn := (rfl)
@[simp] theorem State.setPort_bias (n : Nat) (p : Port) : (s.setPort n p).bias = s.bias := (rfl)
@[simp] theorem State.setPort_media (n : Nat) (p : Port) : (s.setPort n p).media = s.media := (rfl)
@[simp] theorem State.setPort_outs (n : Nat) (p : Port) : (s.setPort n p).outs = s.outs := (rfl)
@[simp] theorem State.setPort_pending (n : Nat) (p : Port) : (s.setPort n p).pending = s.pending := (rfl)
@[simp] theorem State.setPort_freeCtr (n : Nat) (p : Port) : (s.setPort n p).freeCtr = s.freeCtr := (rfl)
@[simp] theorem State.setPort_now (n : Nat) (p : Port) : (s.setPort n p).now = s.now := (rfl)

@[simp] theorem State.onPort_regs (n : Nat) (f : Port → Port) : (s.onPort n f).regs = s.regs := (rfl)
@[simp] theorem State.onPort_host (n : Nat) (f : Port → Port) : (s.onPort n f).host = s.host := (rfl)
@[simp] theorem State.onPort_rings (n : Nat) (f : Port → Port) : (s.onPort n f).rings = s.rings := (rfl)
@[simp] theorem State.onPort_runs (n : Nat) (f : Port → Port) : (s.onPort n f).runs = s.runs := (rfl)
@[simp] theorem State.onPort_cue (n : Nat) (f : Port → Port) : (s.onPort n f).cue = s.cue := (rfl)
@[simp] theorem State.onPort_sched (n : Nat) (f : Port → Port) : (s.onPort n f).sched = s.sched := (rfl)
@[simp] theorem State.onPort_accounts (n : Nat) (f : Port → Port) : (s.onPort n f).accounts = s.accounts := (rfl)
@[simp] theorem State.onPort_mem (n : Nat) (f : Port → Port) : (s.onPort n f).mem = s.mem := (rfl)
@[simp] theorem State.onPort_flash (n : Nat) (f : Port → Port) : (s.onPort n f).flash = s.flash := (rfl)
@[simp] theorem State.onPort_book (n : Nat) (f : Port → Port) : (s.onPort n f).book = s.book := (rfl)
@[simp] theorem State.onPort_coll (n : Nat) (f : Port → Port) : (s.onPort n f).coll = s.coll := (rfl)
@[simp] theorem State.onPort_rel (n : Nat) (f : Port → Port) : (s.onPort n f).rel = s.rel := (rfl)
@[simp] theorem State.onPort_sec (n : Nat) (f : Port → Port) : (s.onPort n f).sec = s.sec := (rfl)
@[simp] theorem State.onPort_power (n : Nat) (f : Port → Port) : (s.onPort n f).power = s.power := (rfl)
@[simp] theorem State.onPort_boot (n : Nat) (f : Port → Port) : (s.onPort n f).boot = s.boot := (rfl)
@[simp] theorem State.onPort_fn (n : Nat) (f : Port → Port) : (s.onPort n f).fn = s.fn := (rfl)
@[simp] theorem State.onPort_bias (n : Nat) (f : Port → Port) : (s.onPort n f).bias = s.bias := (rfl)
@[simp] theorem State.onPort_media (n : Nat) (f : Port → Port) : (s.onPort n f).media = s.media := (rfl)
@[simp] theorem State.onPort_outs (n : Nat) (f : Port → Port) : (s.onPort n f).outs = s.outs := (rfl)
@[simp] theorem State.onPort_pending (n : Nat) (f : Port → Port) : (s.onPort n f).pending = s.pending := (rfl)
@[simp] theorem State.onPort_freeCtr (n : Nat) (f : Port → Port) : (s.onPort n f).freeCtr = s.freeCtr := (rfl)
@[simp] theorem State.onPort_now (n : Nat) (f : Port → Port) : (s.onPort n f).now = s.now := (rfl)

@[simp] theorem State.noteFlood_regs (p : Packet) : (s.noteFlood p).regs = s.regs := (rfl)
@[simp] theorem State.noteFlood_host (p : Packet) : (s.noteFlood p).host = s.host := (rfl)
@[simp] theorem State.noteFlood_rings (p : Packet) : (s.noteFlood p).rings = s.rings := (rfl)
@[simp] theorem State.noteFlood_runs (p : Packet) : (s.noteFlood p).runs = s.runs := (rfl)
@[simp] theorem State.noteFlood_cue (p : Packet) : (s.noteFlood p).cue = s.cue := (rfl)
@[simp] theorem State.noteFlood_sched (p : Packet) : (s.noteFlood p).sched = s.sched := (rfl)
@[simp] theorem State.noteFlood_accounts (p : Packet) : (s.noteFlood p).accounts = s.accounts := (rfl)
@[simp] theorem State.noteFlood_mem (p : Packet) : (s.noteFlood p).mem = s.mem := (rfl)
@[simp] theorem State.noteFlood_flash (p : Packet) : (s.noteFlood p).flash = s.flash := (rfl)
@[simp] theorem State.noteFlood_book (p : Packet) : (s.noteFlood p).book = s.book := (rfl)
@[simp] theorem State.noteFlood_coll (p : Packet) : (s.noteFlood p).coll = s.coll := (rfl)
@[simp] theorem State.noteFlood_rel (p : Packet) : (s.noteFlood p).rel = s.rel := (rfl)
@[simp] theorem State.noteFlood_sec (p : Packet) : (s.noteFlood p).sec = s.sec := (rfl)
@[simp] theorem State.noteFlood_power (p : Packet) : (s.noteFlood p).power = s.power := (rfl)
@[simp] theorem State.noteFlood_boot (p : Packet) : (s.noteFlood p).boot = s.boot := (rfl)
@[simp] theorem State.noteFlood_fn (p : Packet) : (s.noteFlood p).fn = s.fn := (rfl)
@[simp] theorem State.noteFlood_bias (p : Packet) : (s.noteFlood p).bias = s.bias := (rfl)
@[simp] theorem State.noteFlood_media (p : Packet) : (s.noteFlood p).media = s.media := (rfl)
@[simp] theorem State.noteFlood_outs (p : Packet) : (s.noteFlood p).outs = s.outs := (rfl)
@[simp] theorem State.noteFlood_pending (p : Packet) : (s.noteFlood p).pending = s.pending := (rfl)
@[simp] theorem State.noteFlood_freeCtr (p : Packet) : (s.noteFlood p).freeCtr = s.freeCtr := (rfl)
@[simp] theorem State.noteFlood_now (p : Packet) : (s.noteFlood p).now = s.now := (rfl)

@[simp] theorem State.beginItem_regs (r i : Nat) : (s.beginItem r i).regs = s.regs := (rfl)
@[simp] theorem State.beginItem_host (r i : Nat) : (s.beginItem r i).host = s.host := (rfl)
@[simp] theorem State.beginItem_rings (r i : Nat) : (s.beginItem r i).rings = s.rings := (rfl)
@[simp] theorem State.beginItem_cue (r i : Nat) : (s.beginItem r i).cue = s.cue := (rfl)
@[simp] theorem State.beginItem_sched (r i : Nat) : (s.beginItem r i).sched = s.sched := (rfl)
@[simp] theorem State.beginItem_accounts (r i : Nat) : (s.beginItem r i).accounts = s.accounts := (rfl)
@[simp] theorem State.beginItem_mem (r i : Nat) : (s.beginItem r i).mem = s.mem := (rfl)
@[simp] theorem State.beginItem_flash (r i : Nat) : (s.beginItem r i).flash = s.flash := (rfl)
@[simp] theorem State.beginItem_book (r i : Nat) : (s.beginItem r i).book = s.book := (rfl)
@[simp] theorem State.beginItem_fab (r i : Nat) : (s.beginItem r i).fab = s.fab := (rfl)
@[simp] theorem State.beginItem_coll (r i : Nat) : (s.beginItem r i).coll = s.coll := (rfl)
@[simp] theorem State.beginItem_rel (r i : Nat) : (s.beginItem r i).rel = s.rel := (rfl)
@[simp] theorem State.beginItem_sec (r i : Nat) : (s.beginItem r i).sec = s.sec := (rfl)
@[simp] theorem State.beginItem_power (r i : Nat) : (s.beginItem r i).power = s.power := (rfl)
@[simp] theorem State.beginItem_boot (r i : Nat) : (s.beginItem r i).boot = s.boot := (rfl)
@[simp] theorem State.beginItem_fn (r i : Nat) : (s.beginItem r i).fn = s.fn := (rfl)
@[simp] theorem State.beginItem_bias (r i : Nat) : (s.beginItem r i).bias = s.bias := (rfl)
@[simp] theorem State.beginItem_media (r i : Nat) : (s.beginItem r i).media = s.media := (rfl)
@[simp] theorem State.beginItem_outs (r i : Nat) : (s.beginItem r i).outs = s.outs := (rfl)
@[simp] theorem State.beginItem_pending (r i : Nat) : (s.beginItem r i).pending = s.pending := (rfl)
@[simp] theorem State.beginItem_freeCtr (r i : Nat) : (s.beginItem r i).freeCtr = s.freeCtr := (rfl)
@[simp] theorem State.beginItem_now (r i : Nat) : (s.beginItem r i).now = s.now := (rfl)

@[simp] theorem State.noteCycles_regs (r i b : Nat) : (s.noteCycles r i b).regs = s.regs := (rfl)
@[simp] theorem State.noteCycles_host (r i b : Nat) : (s.noteCycles r i b).host = s.host := (rfl)
@[simp] theorem State.noteCycles_rings (r i b : Nat) : (s.noteCycles r i b).rings = s.rings := (rfl)
@[simp] theorem State.noteCycles_cue (r i b : Nat) : (s.noteCycles r i b).cue = s.cue := (rfl)
@[simp] theorem State.noteCycles_sched (r i b : Nat) : (s.noteCycles r i b).sched = s.sched := (rfl)
@[simp] theorem State.noteCycles_accounts (r i b : Nat) : (s.noteCycles r i b).accounts = s.accounts := (rfl)
@[simp] theorem State.noteCycles_mem (r i b : Nat) : (s.noteCycles r i b).mem = s.mem := (rfl)
@[simp] theorem State.noteCycles_flash (r i b : Nat) : (s.noteCycles r i b).flash = s.flash := (rfl)
@[simp] theorem State.noteCycles_book (r i b : Nat) : (s.noteCycles r i b).book = s.book := (rfl)
@[simp] theorem State.noteCycles_fab (r i b : Nat) : (s.noteCycles r i b).fab = s.fab := (rfl)
@[simp] theorem State.noteCycles_coll (r i b : Nat) : (s.noteCycles r i b).coll = s.coll := (rfl)
@[simp] theorem State.noteCycles_rel (r i b : Nat) : (s.noteCycles r i b).rel = s.rel := (rfl)
@[simp] theorem State.noteCycles_sec (r i b : Nat) : (s.noteCycles r i b).sec = s.sec := (rfl)
@[simp] theorem State.noteCycles_power (r i b : Nat) : (s.noteCycles r i b).power = s.power := (rfl)
@[simp] theorem State.noteCycles_boot (r i b : Nat) : (s.noteCycles r i b).boot = s.boot := (rfl)
@[simp] theorem State.noteCycles_fn (r i b : Nat) : (s.noteCycles r i b).fn = s.fn := (rfl)
@[simp] theorem State.noteCycles_bias (r i b : Nat) : (s.noteCycles r i b).bias = s.bias := (rfl)
@[simp] theorem State.noteCycles_media (r i b : Nat) : (s.noteCycles r i b).media = s.media := (rfl)
@[simp] theorem State.noteCycles_outs (r i b : Nat) : (s.noteCycles r i b).outs = s.outs := (rfl)
@[simp] theorem State.noteCycles_pending (r i b : Nat) : (s.noteCycles r i b).pending = s.pending := (rfl)
@[simp] theorem State.noteCycles_now (r i b : Nat) : (s.noteCycles r i b).now = s.now := (rfl)

@[simp] theorem State.tick_regs (t : Nat) : (s.tick t).regs = s.regs := by unfold State.tick; split <;> rfl
@[simp] theorem State.tick_host (t : Nat) : (s.tick t).host = s.host := by unfold State.tick; split <;> rfl
@[simp] theorem State.tick_cue (t : Nat) : (s.tick t).cue = s.cue := by unfold State.tick; split <;> rfl
@[simp] theorem State.tick_sched (t : Nat) : (s.tick t).sched = s.sched := by unfold State.tick; split <;> rfl
@[simp] theorem State.tick_accounts (t : Nat) : (s.tick t).accounts = s.accounts := by unfold State.tick; split <;> rfl
@[simp] theorem State.tick_mem (t : Nat) : (s.tick t).mem = s.mem := by unfold State.tick; split <;> rfl
@[simp] theorem State.tick_flash (t : Nat) : (s.tick t).flash = s.flash := by unfold State.tick; split <;> rfl
@[simp] theorem State.tick_book (t : Nat) : (s.tick t).book = s.book := by unfold State.tick; split <;> rfl
@[simp] theorem State.tick_coll (t : Nat) : (s.tick t).coll = s.coll := by unfold State.tick; split <;> rfl
@[simp] theorem State.tick_sec (t : Nat) : (s.tick t).sec = s.sec := by unfold State.tick; split <;> rfl
@[simp] theorem State.tick_boot (t : Nat) : (s.tick t).boot = s.boot := by unfold State.tick; split <;> rfl
@[simp] theorem State.tick_fn (t : Nat) : (s.tick t).fn = s.fn := by unfold State.tick; split <;> rfl
@[simp] theorem State.tick_bias (t : Nat) : (s.tick t).bias = s.bias := by unfold State.tick; split <;> rfl
@[simp] theorem State.tick_media (t : Nat) : (s.tick t).media = s.media := by unfold State.tick; split <;> rfl
@[simp] theorem State.tick_outs (t : Nat) : (s.tick t).outs = s.outs := by unfold State.tick; split <;> rfl
@[simp] theorem State.tick_pending (t : Nat) : (s.tick t).pending = s.pending := by unfold State.tick; split <;> rfl
@[simp] theorem State.tick_freeCtr (t : Nat) : (s.tick t).freeCtr = s.freeCtr := by unfold State.tick; split <;> rfl

@[simp] theorem State.tick_reg (t off : Nat) : (s.tick t).reg off = s.reg off := by unfold State.tick; split <;> rfl
@[simp] theorem State.tick_fld (t : Nat) (f : Fld) : (s.tick t).fld f = s.fld f := by unfold State.tick; split <;> rfl
@[simp] theorem State.tick_flag (t : Nat) (f : Fld) : (s.tick t).flag f = s.flag f := by unfold State.tick; split <;> rfl

/-- A time moves the block's time on, never back. -/
theorem State.tick_now (t : Nat) : (s.tick t).now = max s.now t := by
  unfold State.tick
  split
  · omega
  · show t = _
    omega

/-- What a register update leaves of the registers' other parts. -/
@[simp] theorem State.setReg_msixPending (o v : Nat) : (s.setReg o v).regs.msixPending = s.regs.msixPending := (rfl)
@[simp] theorem State.setReg_msixTable (o v : Nat) : (s.setReg o v).regs.msixTable = s.regs.msixTable := (rfl)
@[simp] theorem State.setReg_image (o v : Nat) : (s.setReg o v).regs.image = s.regs.image := (rfl)
@[simp] theorem State.setReg_imageHeld (o v : Nat) : (s.setReg o v).regs.imageHeld = s.regs.imageHeld := (rfl)

end Sys2Proof.Machine
end

