-- ==== Sys2Proof/Laws/Work.lean ====
section
/-! SUPPORT. How the work of an item runs, one step at a time, and how an item command ends where its work does. -/
namespace Sys2Proof.Machine

variable {α β : Type} {e : ItemEnv} {s : State}

@[simp] theorem on_pure (a : α) : ItemM.on (pure a) e s = (.ok a, s) := (rfl)

theorem on_bind (m : ItemM α) (k : α → ItemM β) : ItemM.on (m >>= k) e s =
    match m.on e s with
    | (.ok a, t) => (k a).on e t
    | (.error x, t) => (.error x, t) := by
  simp only [ItemM.on, ReaderT.run, bind, ReaderT.bind, ExceptT.bind, ExceptT.mk, StateT.bind, ExceptT.bindCont,
    ExceptT.run]
  generalize m e s = r
  obtain ⟨x, t⟩ := r
  cases x <;> rfl

/-- A step that goes well hands its value and state on. -/
theorem on_bind_ok {m : ItemM α} {k : α → ItemM β} {a : α} {t : State} (h : m.on e s = (.ok a, t)) :
    ItemM.on (m >>= k) e s = (k a).on e t := by
  rw [on_bind, h]

/-- A step that stops ends the work. -/
theorem on_bind_error {m : ItemM α} {k : α → ItemM β} {x : Stop} {t : State} (h : m.on e s = (.error x, t)) :
    ItemM.on (m >>= k) e s = (.error x, t) := by
  rw [on_bind, h]

@[simp] theorem on_read_bind (k : ItemEnv → ItemM β) : ItemM.on (read >>= k) e s = (k e).on e s := (rfl)
@[simp] theorem on_get_bind (k : State → ItemM β) : ItemM.on (get >>= k) e s = (k s).on e s := (rfl)
@[simp] theorem on_set_bind (t : State) (k : PUnit → ItemM β) : ItemM.on (set t >>= k) e s = (k ⟨⟩).on e t := (rfl)
@[simp] theorem on_modify_bind (f : State → State) (k : PUnit → ItemM β) :
    ItemM.on (modify f >>= k) e s = (k ⟨⟩).on e (f s) := (rfl)
@[simp] theorem on_pure_bind (a : α) (k : α → ItemM β) : ItemM.on (pure a >>= k) e s = (k a).on e s := (rfl)
@[simp] theorem on_set (t : State) : ItemM.on (set t) e s = (.ok ⟨⟩, t) := (rfl)
@[simp] theorem on_modify (f : State → State) : ItemM.on (modify f) e s = (.ok ⟨⟩, f s) := (rfl)
@[simp] theorem on_throw (x : Stop) : ItemM.on (throw x : ItemM α) e s = (.error x, s) := (rfl)
@[simp] theorem on_stopWith (st dt : Nat) : ItemM.on (stopWith st dt : ItemM α) e s = (.error (.ended st dt), s) := (rfl)

theorem on_require {ok : Bool} {st dt : Nat} : ItemM.on (require ok st dt) e s =
    if ok then (.ok (), s) else (.error (.ended st dt), s) := by
  cases ok <;> rfl

theorem on_require_bind {ok : Bool} {st dt : Nat} (k : Unit → ItemM β) (h : ok = true) :
    ItemM.on (require ok st dt >>= k) e s = (k ()).on e s := by
  subst h
  rfl

@[simp] theorem on_pay_bind (o n : Nat) (k : Nat → ItemM β) : ItemM.on (pay o n >>= k) e s = (k (leAt e.desc (32 + o) n)).on e s := (rfl)

theorem on_payZero_bind {o n : Nat} (k : Unit → ItemM β) (h : leAt e.desc (32 + o) n = 0) :
    ItemM.on (payZero o n >>= k) e s = (k ()).on e s := by
  have : payZero o n = (pay o n >>= fun x => require (x == 0) stBad) := (rfl)
  rw [on_bind_ok (a := ()) (t := s)]
  rw [this, on_pay_bind, h]
  rfl

/-- A read of device memory that nothing stands in the way of: its bytes, and what its codes counted. -/
theorem readDev_on {key len : Nat} (h1 : s.devShut key = false) (h2 : s.devBad key len = false) :
    (readDev key len).on e s = (.ok (s.devRead key len), s.meetCells (e.source s 0) key len) := by
  unfold readDev
  rw [on_get_bind, on_read_bind, on_require_bind _ (by rw [h1]; rfl)]
  unfold State.readMem
  rw [h2]
  rfl

theorem on_readDev_bind {key len : Nat} (k : List Byte → ItemM β) (h1 : s.devShut key = false) (h2 : s.devBad key len = false) :
    ItemM.on (readDev key len >>= k) e s = (k (s.devRead key len)).on e (s.meetCells (e.source s 0) key len) :=
  on_bind_ok (readDev_on h1 h2)

/-- A write of device memory that nothing stands in the way of. -/
theorem on_writeDev_bind {key : Nat} {bs : List Byte} (k : Unit → ItemM β) (h1 : s.devShut key = false)
    (h2 : s.devPartBad key bs.length = false) :
    ItemM.on (writeDev key bs >>= k) e s = (k ()).on e (s.devWrite key bs) := by
  refine on_bind_ok ?_
  unfold writeDev
  simp [h1, h2, require]

theorem lpddrUsable_le (s : State) (d : Nat) : s.lpddrUsable d ≤ 0xE00000000 := by
  unfold State.lpddrUsable
  split
  · split <;> decide
  · decide

/-- What is populated here is populated on some board. -/
theorem neverPopulated_of {t o n : Nat} (ht : t < 2) (h : s.populated t o n = true) : neverPopulated t o n = false := by
  have hl := lpddrUsable_le s (o / 2 ^ 36)
  unfold State.populated at h
  dsimp only at h
  generalize s.lpddrUsable (o / 2 ^ 36) = x at *
  unfold neverPopulated
  have : t = 0 ∨ t = 1 := by omega
  rcases this with rfl | rfl
  · simp at h ⊢
    omega
  · simp at h ⊢
    omega

theorem addrBad_of {a n : Nat} (h0 : a / 2 ^ 57 = 0) (ht : addrTier a < 2) (h : s.populated (addrTier a) (addrOff a) n = true) :
    addrBad a n = false := by
  have hn := neverPopulated_of ht h
  have : addrTier a ≠ 2 := by omega
  unfold addrBad
  simp only [hn, h0, this, Bool.or_eq_false_iff, decide_eq_false_iff_not]
  simp

/-- A read at a global address of this member. -/
theorem load_on {a n : Nat} (h : s.ReadableHere a n) :
    (load a n).on e s = (.ok (s.devRead (addrKey a) n), s.afterRead e a n) := by
  obtain ⟨h0, ht, ho, hp, hs, hb⟩ := h
  have h3 : addrTier a ≠ 3 := by omega
  have hc : (checkRead a n).on e s = (.ok (), s) := by
    unfold checkRead
    rw [on_get_bind, on_require_bind _ (by rw [addrBad_of h0 ht hp]; rfl)]
    rw [if_neg h3]
    show ((if s.isOwn (addrMember a) = true then _ else _ : ItemM Unit)).on e s = _
    rw [if_pos ho, if_pos ht, on_require, if_pos hp]
  unfold load
  rw [on_bind_ok hc]
  unfold loadAt
  rw [on_get_bind]
  by_cases hn : n = 0
  · subst hn
    unfold State.afterRead
    rw [if_pos rfl, if_pos rfl]
    show (Except.ok [], s) = _
    congr
  · rw [if_neg hn]
    unfold State.afterRead
    rw [if_neg hn]
    show ((if s.isOwn (addrMember a) = true then _ else _ : ItemM (List Byte))).on e s = _
    rw [if_pos ho, if_neg h3]
    exact readDev_on hs hb

theorem load_on_bind {a n : Nat} (k : List Byte → ItemM β) (h : s.ReadableHere a n) :
    ItemM.on (load a n >>= k) e s = (k (s.devRead (addrKey a) n)).on e (s.afterRead e a n) := on_bind_ok (load_on h)

/-- A write at a global address of this member. -/
theorem store_on {a : Nat} {bs : List Byte} (h : s.WritableHere a bs.length) (hb : bs ≠ []) :
    (store a bs).on e s = (.ok (), s.devWrite (addrKey a) bs) := by
  obtain ⟨h0, ht, ho, hp, hs, hq⟩ := h
  have h3 : addrTier a ≠ 3 := by omega
  have hc : (checkWrite a bs.length).on e s = (.ok (), s) := by
    unfold checkWrite
    rw [on_get_bind, on_require_bind _ (by simp [h3]), on_require_bind _ (by rw [addrBad_of h0 ht hp]; rfl)]
    show ((if s.isOwn (addrMember a) = true then _ else _ : ItemM Unit)).on e s = _
    rw [if_pos ho, on_require, if_pos hp]
  unfold store
  rw [on_bind_ok hc]
  unfold storeAt
  rw [on_get_bind, if_neg (by simpa using hb)]
  show ((if s.isOwn (addrMember a) = true then _ else _ : ItemM Unit)).on e s = _
  rw [if_pos ho]
  unfold writeDev
  rw [on_get_bind, on_read_bind, on_require_bind _ (by rw [hs]; rfl), if_neg (by rw [hq]; simp)]
  rfl

theorem store_on_bind {a : Nat} {bs : List Byte} (k : Unit → ItemM β) (h : s.WritableHere a bs.length) (hb : bs ≠ []) :
    ItemM.on (store a bs >>= k) e s = (k ()).on e (s.devWrite (addrKey a) bs) := on_bind_ok (store_on h hb)

/-- A read of SRAM that no coppice and no uncorrectable unit meets (R23, R261). -/
theorem sramLoad_on {key len : Nat} (h1 : s.inCoppice (sramPart key) = false) (h2 : s.sramBad key len = false) :
    (sramLoad key len).on e s = (.ok (s.sramRead key len), s.meetSram (e.source s 0) key len) := by
  unfold sramLoad
  rw [on_get_bind, on_read_bind, on_require_bind _ (by rw [h1]; rfl)]
  unfold State.readSram
  rw [h2]
  rfl

/-- A write of SRAM that no coppice meets and that covers no part of an uncorrectable unit (R23, R262). -/
theorem sramStore_on {key : Nat} {bs : List Byte} (h1 : s.inCoppice (sramPart key) = false)
    (h2 : s.sramPartBad key bs.length = false) : (sramStore key bs).on e s = (.ok (), s.sramWrite key bs) := by
  have hc : (sramClear key bs.length).on e s = (.ok (), s) := by
    unfold sramClear
    rw [on_get_bind, on_read_bind, on_require_bind _ (by rw [h1]; rfl), if_neg (by rw [h2]; simp)]
    rfl
  unfold sramStore
  rw [on_bind_ok hc]
  rfl

/-- What an item sees of its descriptor. -/
@[simp] theorem Run.env_desc (r : Run) (s : State) (i : Nat) : (r.env s i).desc = r.desc.bytes := (rfl)
@[simp] theorem Run.env_item (r : Run) (s : State) (i : Nat) : (r.env s i).item = i := (rfl)
@[simp] theorem Run.env_ctx (r : Run) (s : State) (i : Nat) : (r.env s i).ctx = r.ctx := (rfl)
@[simp] theorem Run.env_run (r : Run) (s : State) (i : Nat) : (r.env s i).run = r.id := (rfl)
@[simp] theorem Run.env_ring (r : Run) (s : State) (i : Nat) : (r.env s i).ring = r.desc.ring := (rfl)
@[simp] theorem Run.env_epoch (r : Run) (s : State) (i : Nat) : (r.env s i).epoch = r.cue := (rfl)
@[simp] theorem Run.env_count (r : Run) (s : State) (i : Nat) : (r.env s i).count = hdrItems r.desc.bytes + 1 := (rfl)

/- An item under way reads everything but its run as before. -/
@[simp] theorem beginItem_reg (s : State) (run item : Nat) (off : Nat) : (s.beginItem run item).reg off = s.reg off := (rfl)
@[simp] theorem beginItem_fld (s : State) (run item : Nat) (f : Fld) : (s.beginItem run item).fld f = s.fld f := (rfl)
@[simp] theorem beginItem_flag (s : State) (run item : Nat) (f : Fld) : (s.beginItem run item).flag f = s.flag f := (rfl)
@[simp] theorem beginItem_member (s : State) (run item : Nat) : (s.beginItem run item).member = s.member := (rfl)
@[simp] theorem beginItem_cueNo (s : State) (run item : Nat) : (s.beginItem run item).cueNo = s.cueNo := (rfl)
@[simp] theorem beginItem_isSealed (s : State) (run item : Nat) : (s.beginItem run item).isSealed = s.isSealed := (rfl)
@[simp] theorem beginItem_isOwn (s : State) (run item : Nat) (m : Nat) : (s.beginItem run item).isOwn m = s.isOwn m := (rfl)
@[simp] theorem beginItem_populated (s : State) (run item : Nat) (t : Nat) (o : Nat) (n : Nat) : (s.beginItem run item).populated t o n = s.populated t o n := (rfl)
@[simp] theorem beginItem_devBad (s : State) (run item : Nat) (k : Nat) (n : Nat) : (s.beginItem run item).devBad k n = s.devBad k n := (rfl)
@[simp] theorem beginItem_devPartBad (s : State) (run item : Nat) (k : Nat) (n : Nat) : (s.beginItem run item).devPartBad k n = s.devPartBad k n := (rfl)
@[simp] theorem beginItem_devRead (s : State) (run item : Nat) (k : Nat) (n : Nat) : (s.beginItem run item).devRead k n = s.devRead k n := (rfl)
@[simp] theorem beginItem_devShut (s : State) (run item : Nat) (k : Nat) : (s.beginItem run item).devShut k = s.devShut k := (rfl)
@[simp] theorem beginItem_inCoppice (s : State) (run item : Nat) (k : Nat) : (s.beginItem run item).inCoppice k = s.inCoppice k := (rfl)
@[simp] theorem beginItem_stackShut (s : State) (run item : Nat) (k : Nat) : (s.beginItem run item).stackShut k = s.stackShut k := (rfl)
@[simp] theorem beginItem_sramRead (s : State) (run item : Nat) (k : Nat) (n : Nat) : (s.beginItem run item).sramRead k n = s.sramRead k n := (rfl)
@[simp] theorem beginItem_sramBad (s : State) (run item : Nat) (k : Nat) (n : Nat) : (s.beginItem run item).sramBad k n = s.sramBad k n := (rfl)
@[simp] theorem beginItem_sramPartBad (s : State) (run item : Nat) (k : Nat) (n : Nat) : (s.beginItem run item).sramPartBad k n = s.sramPartBad k n := (rfl)
@[simp] theorem beginItem_firstBad (s : State) (run item : Nat) (k : Nat) (n : Nat) : (s.beginItem run item).firstBad k n = s.firstBad k n := (rfl)
@[simp] theorem beginItem_fenceKey (s : State) (run item : Nat) (c : Nat) (i : Nat) : (s.beginItem run item).fenceKey c i = s.fenceKey c i := (rfl)
@[simp] theorem beginItem_fenceWord (s : State) (run item : Nat) (c : Nat) (i : Nat) : (s.beginItem run item).fenceWord c i = s.fenceWord c i := (rfl)
@[simp] theorem beginItem_managed (s : State) (run item : Nat) (n : Nat) : (s.beginItem run item).managed n = s.managed n := (rfl)
@[simp] theorem beginItem_ringDevice (s : State) (run item : Nat) (n : Nat) : (s.beginItem run item).ringDevice n = s.ringDevice n := (rfl)
@[simp] theorem beginItem_ring (s : State) (run item : Nat) (n : Nat) : (s.beginItem run item).ring n = s.ring n := (rfl)
@[simp] theorem beginItem_sqSize (s : State) (run item : Nat) (n : Nat) : (s.beginItem run item).sqSize n = s.sqSize n := (rfl)
@[simp] theorem beginItem_account (s : State) (run item : Nat) (c : Nat) : (s.beginItem run item).account c = s.account c := (rfl)
@[simp] theorem beginItem_ideUp (s : State) (run item : Nat) : (s.beginItem run item).ideUp = s.ideUp := (rfl)
@[simp] theorem beginItem_ideRequired (s : State) (run item : Nat) : (s.beginItem run item).ideRequired = s.ideRequired := (rfl)
@[simp] theorem beginItem_powerState (s : State) (run item : Nat) : (s.beginItem run item).powerState = s.powerState := (rfl)
@[simp] theorem beginItem_waitsAck (s : State) (run item : Nat) (r : Nat) (i : Nat) : (s.beginItem run item).waitsAck r i = s.waitsAck r i := (rfl)
@[simp] theorem beginItem_ownMem (s : State) (run item : Nat) (a : Nat) (n : Nat) : (s.beginItem run item).ownMem a n = s.ownMem a n := (rfl)
@[simp] theorem beginItem_adaptiveCtx (s : State) (run item : Nat) (c : Nat) : (s.beginItem run item).adaptiveCtx c = s.adaptiveCtx c := (rfl)
@[simp] theorem beginItem_ReadableHere (s : State) (run item : Nat) (a : Nat) (n : Nat) : (s.beginItem run item).ReadableHere a n = s.ReadableHere a n := (rfl)
@[simp] theorem beginItem_WritableHere (s : State) (run item : Nat) (a : Nat) (n : Nat) : (s.beginItem run item).WritableHere a n = s.WritableHere a n := (rfl)
@[simp] theorem beginItem_at_regs (s : State) (run item : Nat) : (s.beginItem run item).regs = s.regs := (rfl)
@[simp] theorem beginItem_at_host (s : State) (run item : Nat) : (s.beginItem run item).host = s.host := (rfl)
@[simp] theorem beginItem_at_rings (s : State) (run item : Nat) : (s.beginItem run item).rings = s.rings := (rfl)
@[simp] theorem beginItem_at_cue (s : State) (run item : Nat) : (s.beginItem run item).cue = s.cue := (rfl)
@[simp] theorem beginItem_at_sched (s : State) (run item : Nat) : (s.beginItem run item).sched = s.sched := (rfl)
@[simp] theorem beginItem_at_accounts (s : State) (run item : Nat) : (s.beginItem run item).accounts = s.accounts := (rfl)
@[simp] theorem beginItem_at_mem (s : State) (run item : Nat) : (s.beginItem run item).mem = s.mem := (rfl)
@[simp] theorem beginItem_at_flash (s : State) (run item : Nat) : (s.beginItem run item).flash = s.flash := (rfl)
@[simp] theorem beginItem_at_book (s : State) (run item : Nat) : (s.beginItem run item).book = s.book := (rfl)
@[simp] theorem beginItem_at_fab (s : State) (run item : Nat) : (s.beginItem run item).fab = s.fab := (rfl)
@[simp] theorem beginItem_at_coll (s : State) (run item : Nat) : (s.beginItem run item).coll = s.coll := (rfl)
@[simp] theorem beginItem_at_rel (s : State) (run item : Nat) : (s.beginItem run item).rel = s.rel := (rfl)
@[simp] theorem beginItem_at_sec (s : State) (run item : Nat) : (s.beginItem run item).sec = s.sec := (rfl)
@[simp] theorem beginItem_at_power (s : State) (run item : Nat) : (s.beginItem run item).power = s.power := (rfl)
@[simp] theorem beginItem_at_boot (s : State) (run item : Nat) : (s.beginItem run item).boot = s.boot := (rfl)
@[simp] theorem beginItem_at_fn (s : State) (run item : Nat) : (s.beginItem run item).fn = s.fn := (rfl)
@[simp] theorem beginItem_at_bias (s : State) (run item : Nat) : (s.beginItem run item).bias = s.bias := (rfl)
@[simp] theorem beginItem_at_media (s : State) (run item : Nat) : (s.beginItem run item).media = s.media := (rfl)
@[simp] theorem beginItem_at_outs (s : State) (run item : Nat) : (s.beginItem run item).outs = s.outs := (rfl)
@[simp] theorem beginItem_at_pending (s : State) (run item : Nat) : (s.beginItem run item).pending = s.pending := (rfl)
@[simp] theorem beginItem_at_freeCtr (s : State) (run item : Nat) : (s.beginItem run item).freeCtr = s.freeCtr := (rfl)
@[simp] theorem beginItem_at_now (s : State) (run item : Nat) : (s.beginItem run item).now = s.now := (rfl)

/-- An item that may run is there and open, and its run is the one named. -/
theorem itemReady_spec {cls op run item : Nat} {r : Run} (h : s.itemReady cls op run item = some r) :
    s.findRun run = some r ∧ hdrClass r.desc.bytes = cls ∧ hdrOp r.desc.bytes = op ∧ s.itemOpen run item = true := by
  unfold State.itemReady at h
  split at h
  · cases h
  · next r' hr =>
    split at h
    · cases h
    · next x hx =>
      split at h
      · next hc =>
        cases h
        simp at hc
        refine ⟨hr, hc.1.1.2, hc.1.2, itemOpen_iff.mpr ⟨x, by unfold State.itemOf; rw [hr]; exact hx, ?_⟩⟩
        have hp := hc.1.1.1
        unfold Item.isUnstarted at hp
        unfold Item.hasEnded
        revert hp
        cases x.phase <;> simp
      · cases h

/-- An item under way is open. -/
theorem beginItem_open {run item : Nat} (h : s.itemOpen run item = true) : (s.beginItem run item).itemOpen run item = true := by
  obtain ⟨x, hx, _⟩ := itemOpen_iff.mp h
  refine itemOpen_iff.mpr ⟨{ x with phase := .running, cursor := 0 }, ?_, rfl⟩
  unfold State.beginItem
  rw [itemOf_onItem s run item run item (fun x => { x with phase := .running, cursor := 0 }) (fun _ => rfl), hx]
  simp

/-- The run of an item under way keeps its descriptor. -/
theorem beginItem_desc {run item : Nat} {r r' : Run} (h : s.findRun run = some r) (h' : (s.beginItem run item).findRun run = some r') :
    r'.desc = r.desc := by
  have := desc_onItem s run item run (fun x => { x with phase := .running, cursor := 0 })
  unfold State.beginItem at h'
  rw [h, h'] at this
  simpa using this

/-- An item whose work ends with a success, and waits for nothing, ends with it. -/
theorem runItem_gives {cls op run item : Nat} {w : ItemM Done} {r : Run} {d : Done} {u : State}
    (hr : s.itemReady cls op run item = some r) (h7 : cls ≠ 7) (h8 : cls ≠ 8)
    (hw : w.Gives (r.env s item) (s.beginItem run item) d u) (hs : d.status < 16) (hu : u.CanEnd run item r) :
    ItemEnds u (s.runItem cls op w run item) run item d.status d.detail d.cycles := by
  obtain ⟨hf, hcl, _, _⟩ := itemReady_spec hr
  have hid := findRun_id hf
  unfold ItemM.Gives at hw
  have hrun : s.runItem cls op w run item = (u.noteCycles run item d.cycles).closeItem run item d.status d.detail := by
    unfold State.runItem
    rw [hr]
    dsimp only
    rw [hw]
    unfold settle
    dsimp only [Run.env]
    rw [hid]
  rw [hrun]
  refine closeItem_ends hs hu.quiet hu.isOpen ?_
  intro r' hr'
  rw [hu.same r' hr', hcl]
  exact ⟨h7, h8⟩

/-- The same where the work leaves the runs as they were. -/
theorem runItem_ends {cls op run item : Nat} {w : ItemM Done} {r : Run} {d : Done} {u : State}
    (hr : s.itemReady cls op run item = some r) (h7 : cls ≠ 7) (h8 : cls ≠ 8)
    (hw : w.on (r.env s item) (s.beginItem run item) = (.ok d, u)) (hs : d.status < 16)
    (hq : u.waitsAck run item = false) (hu : u.runs = (s.beginItem run item).runs) :
    ItemEnds u (s.runItem cls op w run item) run item d.status d.detail d.cycles := by
  obtain ⟨hf, _, _, ho⟩ := itemReady_spec hr
  refine runItem_gives hr h7 h8 hw hs ⟨?_, hq, ?_⟩
  · obtain ⟨x, hx, he⟩ := itemOpen_iff.mp (beginItem_open ho)
    exact itemOpen_iff.mpr ⟨x, by rw [itemOf_congr hu]; exact hx, he⟩
  · intro r' hr'
    refine beginItem_desc (item := item) hf ?_
    unfold State.findRun at *
    rw [← hu]
    exact hr'

/-- A piece that goes well hands its value and state on. -/
theorem gives_bind {m : ItemM α} {k : α → ItemM β} {a : α} {b : β} {t u : State} (h : m.Gives e s a t)
    (hk : (k a).Gives e t b u) : (m >>= k).Gives e s b u := by
  unfold ItemM.Gives at *
  rw [on_bind_ok h, hk]

/- ### The same, for the pieces that every work begins with -/

theorem gives_pure (a : α) : (pure a : ItemM α).Gives e s a s := (rfl)
theorem gives_read {k : ItemEnv → ItemM β} {b : β} {u : State} (h : (k e).Gives e s b u) : (read >>= k).Gives e s b u := h
theorem gives_get {k : State → ItemM β} {b : β} {u : State} (h : (k s).Gives e s b u) : (get >>= k).Gives e s b u := h
theorem gives_set {t : State} {k : PUnit → ItemM β} {b : β} {u : State} (h : (k ⟨⟩).Gives e t b u) :
    (set t >>= k).Gives e s b u := h
theorem gives_modify {f : State → State} {k : PUnit → ItemM β} {b : β} {u : State} (h : (k ⟨⟩).Gives e (f s) b u) :
    (modify f >>= k).Gives e s b u := h
theorem gives_require {c : Bool} {st dt : Nat} {k : PUnit → ItemM β} {b : β} {u : State} (hc : c = true)
    (h : (k ⟨⟩).Gives e s b u) : (require c st dt >>= k).Gives e s b u := by
  unfold ItemM.Gives at *
  rw [on_require_bind _ hc]
  exact h

end Sys2Proof.Machine
end

