-- ==== Sys2Proof/Tests/Setup.lean ====
section
/-! SUPPORT. Small states for the tests and witnesses, and how a witness shows that a piece of an item's work goes well. -/

set_option Elab.async false
namespace Sys2Proof.Tests
open Sys2Proof.Machine

/- ## Bytes -/

/-- `n` bytes, zero but for the fields named: offset, bytes and value. -/
def blob (n : Nat) (fs : List (Nat × Nat × Nat)) : List Byte :=
  leBytes n (fs.foldl (fun v (o, w, x) => v + x % 256 ^ w * 256 ^ o) 0)

/-- A descriptor of class `cls` and opcode `op` of context 0, with `n` items. -/
def desc (cls op n : Nat) (fs : List (Nat × Nat × Nat)) : List Byte :=
  blob 128 ([(0, 1, op), (1, 1, cls), (5, 1, n - 1)] ++ fs)

/-- An operand reference at offset `o` of a descriptor: base, rows of an item, pitch and format. -/
def opAt (o base rows pitch fmt : Nat) : List (Nat × Nat × Nat) :=
  [(o, 4, base), (o + 4, 2, rows), (o + 6, 2, pitch), (o + 8, 1, fmt)]

/- ## States -/

/-- A state with some fields of registers set. -/
def sets (l : List (Fld × Nat)) (s : State) : State := l.foldl (fun s p => s.setFld p.1 p.2) s

/-- A state with bytes placed in device memory. -/
def place (a : Nat) (bs : List Byte) (s : State) : State := s.devWrite (addrKey a) bs

/-- The host port released and up. -/
def linked (s : State) : State := { s with host := { s.host with released := true, up := true } }

/-- A device out of reset with its host port up, not sealed. -/
def booted : State := linked (sets [(bootStatusPhase, 5)] State.reset)

/-- A sealed device: context 0 enabled, ring 0 enabled, device-resident and managed, with 64 slots in each of its rings. -/
def device : State :=
  sets [(bootStatusPhase, 6), (sealStatusState, 1), (ctxCtrlEn 0, 1), (ringCtrlEn 0, 1), (ringCtrlLoc 0, 1),
    (ringCtrlSqLog2 0, 6), (ringCtrlCqLog2 0, 6), (ringCtrlCtrlAllowed 0, 1)] booted

/-- A fetched descriptor of ring 0. -/
def fetched (d : List Byte) : Fetched :=
  { index := 0, ring := 0, bytes := d, verdict := none, noFence := false, todo := List.range (hdrItems d + 1),
    continuation := false, fallback := false, owner := none, since := 0, worst := 0, alsoFence := 0, order := 0,
    headCue := none, fenceWait := 0 }

/-- An item that has not started. -/
def anItem (i : Nat) : Item :=
  { index := i, phase := .unstarted, cycles := 0, arrived := [], stage := 0 }

/-- Run 1: a descriptor of ring 0 just dispatched. -/
def aRun (d : List Byte) : Run :=
  { id := 1, desc := fetched d, items := (List.range (hdrItems d + 1)).map anItem, fnGen := 0, biasGen := 0, chorusGen := 0,
    cue := 0, startNs := 0, group := none, pooled := false, charge := 0, spilled := false, tiles := [], engines := [],
    ctxGen := 0 }

/-- A state with one run. -/
def runs (r : Run) (s : State) : State := { s with runs := [r] }

/-- A run of a descriptor whose items run on logical tile 0. -/
def onTile (d : List Byte) : Run := { aRun d with tiles := [0] }

/-- `device` with a route to member 7 by port 11, whose channels are paused. -/
def routed : State :=
  let s := sets [(fabPortCtrlEn 11, 1), (fabPortStatusState 11, 2)] device
  { s with fab := { s.fab with
    route := { s.fab.route with entries := [(7, BitVec.ofNat 64 (2 ^ 63 + 11))] }
    ports := [(11, { Port.init with paused := true })] } }

/-- `device` with ready flash of 16 logical tiles, of which context 0 has two slots and a quota of one tile, and a charged bank. -/
def flashed : State :=
  sets [(flashStatusReady, 1), (flashLogicalTilesTiles, 16), (ctxFlashBaseFirst 0, 5), (ctxFlashSlotsSlots 0, 2),
    (ctxQuotaFlashTiles 0, 1), (holdupCapCapUf, 100), (holdupStatusVMv, 12000)] device

/-- An outstanding write of context 0 to a member. -/
def aWrite (dst : Nat) : Request :=
  { tag := 9, ctx := 0, dst := dst, addr := 0, len := 8, use := .write 2 0, startNs := 0, entry := none }

def writing (s : State) : State := { s with fab := { s.fab with requests := [aWrite 7] } }

/-- A chorus entry of `size` ranks: member 0, then member 7, each the other's buddy; member 0 is its understudy. -/
def chorused (size : Nat) : State :=
  { routed with coll := { routed.coll with
    image := { routed.coll.image with
      dir := [(0, 0, size, 1, true)], slots := [(0, 7 * 2 ^ 12 + 2 ^ 24), (1, 7 + 2 ^ 24)] } } }

/-- A packet of a type, from member 7 to member 0. -/
def aPkt (type addr len : Nat) (data : List Byte) : Packet :=
  { type := type, context := 0, gen := 0, status := 0, src := 7, dst := 0, birth := 0, tag := 9, length := len, addr := addr,
    data := data }

/-- `device` with a doorbell line placed for ring 0. -/
def rung (p k c : Nat) : State := place 0x4000 (leBytes 4 p ++ leBytes 4 k ++ leBytes 4 c) (device.setReg (rRingDbAddr 0) 0x4000)

/-- Ring 255 as ring 0 of `device`, but in host memory. -/
def devHost : State :=
  sets [(ringCtrlEn 255, 1), (ringCtrlSqLog2 255, 6), (ringCtrlCqLog2 255, 6)] device

/-- A fabric item. -/
def fabItem : List Byte := desc 0xA 0 1 []

/-- `device` with the coppice of partition 7. -/
def coppiced : State :=
  { sets [(⟨rHealthStatus, 11, 1⟩, 1)] device with rel := { device.rel with
      coppices := [{ part := 7, cause := 1, noReturn := false }] } }

/- ## Checking hypotheses one after another

A witness checks all its hypotheses in one evaluation: each of these takes one of them, and goes on with what it gives. -/

theorem and_of {p : Prop} [Decidable p] {b : Bool} (h : (decide p && b) = true) : p ∧ b = true := by
  rw [Bool.and_eq_true] at h
  exact ⟨of_decide_eq_true h.1, h.2⟩

/-- Something is found, and the rest holds of it. -/
def onSome {α : Type} (o : Option α) (f : α → Bool) : Bool :=
  match o with
  | some a => f a
  | none => false

theorem of_some {α : Type} {o : Option α} {f : α → Bool} (h : onSome o f = true) : ∃ a, o = some a ∧ f a = true := by
  cases o with
  | none => exact Bool.noConfusion h
  | some a => exact ⟨a, rfl, h⟩

/-- The rest holds of what something is. -/
def onThe {α : Type} (x : α) (f : α → Bool) : Bool := f x

theorem of_the {α : Type} {x : α} {f : α → Bool} (h : onThe x f = true) : ∃ y, x = y ∧ f y = true := ⟨x, rfl, h⟩

/-- Nothing is at the head of an empty list. -/
theorem no_head {α : Type} {l : List α} {P : α → List α → Prop} (h : l.isEmpty = true) : ∀ g t, l = g :: t → P g t := by
  intro g t hl
  rw [hl] at h
  exact Bool.noConfusion h

/-- The work ends well, and the rest holds of what it answers and leaves. -/
def onOk {α : Type} (r : Except Stop α × State) (f : α → State → Bool) : Bool :=
  match r with
  | (.ok a, t) => f a t
  | (.error _, _) => false

theorem of_ok {α : Type} {m : ItemM α} {e : ItemEnv} {s : State} {f : α → State → Bool} (h : onOk (m.on e s) f = true) :
    ∃ a t, m.Gives e s a t ∧ f a t = true := by
  unfold ItemM.Gives
  rcases hm : m.on e s with ⟨a | a, t⟩
  · rw [hm] at h
    exact Bool.noConfusion h
  · rw [hm] at h
    exact ⟨a, t, rfl, h⟩

/-- The same of work that leaves a state it was given. -/
def onOkSame {α : Type} (r : Except Stop α × State) (t : State) (f : α → Bool) : Bool := onOk r fun a u => decide (u = t) && f a

theorem of_okSame {α : Type} {m : ItemM α} {e : ItemEnv} {s t : State} {f : α → Bool}
    (h : onOkSame (m.on e s) t f = true) : ∃ a, m.Gives e s a t ∧ f a = true := by
  obtain ⟨a, u, h1, h2⟩ := of_ok h
  obtain ⟨rfl, h3⟩ := and_of h2
  exact ⟨a, h1, h3⟩

/-- The same of work that answers nothing. -/
def onOkUnit (r : Except Stop Unit × State) (f : State → Bool) : Bool := onOk r fun _ t => f t

theorem of_okUnit {m : ItemM Unit} {e : ItemEnv} {s : State} {f : State → Bool} (h : onOkUnit (m.on e s) f = true) :
    ∃ t, m.Gives e s () t ∧ f t = true := by
  obtain ⟨_, t, h1, h⟩ := of_ok h
  exact ⟨t, h1, h⟩

/-- The same of work whose answer is given. -/
def onOkLit {α : Type} [DecidableEq α] (a : α) (r : Except Stop α × State) (f : State → Bool) : Bool :=
  onOk r fun x t => decide (x = a) && f t

theorem of_okLit {α : Type} [DecidableEq α] {m : ItemM α} {e : ItemEnv} {s : State} {a : α} {f : State → Bool}
    (h : onOkLit a (m.on e s) f = true) : ∃ t, m.Gives e s a t ∧ f t = true := by
  obtain ⟨x, t, h1, h2⟩ := of_ok h
  obtain ⟨rfl, h3⟩ := and_of h2
  exact ⟨t, h1, h3⟩

/-- The same of work that finds something. -/
def onOkSome {α : Type} (r : Except Stop (Option α) × State) (t : State) (f : α → Bool) : Bool :=
  onOkSame r t fun a => onSome a f

theorem of_okSome {α : Type} {m : ItemM (Option α)} {e : ItemEnv} {s t : State} {f : α → Bool}
    (h : onOkSome (m.on e s) t f = true) : ∃ a, m.Gives e s (some a) t ∧ f a = true := by
  obtain ⟨o, h1, h⟩ := of_okSame h
  obtain ⟨a, rfl, h⟩ := of_some h
  exact ⟨a, h1, h⟩

/-- The same of work that finds something and changes the state. -/
def onOkSomeT {α : Type} (r : Except Stop (Option α) × State) (f : α → State → Bool) : Bool :=
  onOk r fun a t => onSome a fun x => f x t

theorem of_okSomeT {α : Type} {m : ItemM (Option α)} {e : ItemEnv} {s : State} {f : α → State → Bool}
    (h : onOkSomeT (m.on e s) f = true) : ∃ a t, m.Gives e s (some a) t ∧ f a t = true := by
  obtain ⟨o, t, h1, h⟩ := of_ok h
  obtain ⟨a, rfl, h⟩ := of_some h
  exact ⟨a, t, h1, h⟩

/-- The work ends well with the answer and the state given. -/
def givesLit {α : Type} [DecidableEq α] (a : α) (r : Except Stop α × State) (t : State) : Bool :=
  onOk r fun x u => decide (x = a) && decide (u = t)

theorem and_lit {α : Type} [DecidableEq α] {m : ItemM α} {e : ItemEnv} {s t : State} {a : α} {b : Bool}
    (h : (givesLit a (m.on e s) t && b) = true) : m.Gives e s a t ∧ b = true := by
  rw [Bool.and_eq_true] at h
  obtain ⟨x, u, h1, h2⟩ := of_ok h.1
  rw [Bool.and_eq_true] at h2
  rw [of_decide_eq_true h2.1, of_decide_eq_true h2.2] at h1
  exact ⟨h1, h.2⟩

theorem all_gives {α β : Type} [DecidableEq α] {l : List β} {m : β → ItemM α} {e : ItemEnv} {s t : State} {a : α} {b : Bool}
    (h : (l.all (fun x => givesLit a ((m x).on e s) t) && b) = true) : (∀ x ∈ l, (m x).Gives e s a t) ∧ b = true := by
  rw [Bool.and_eq_true, List.all_eq_true] at h
  exact ⟨fun x hx => (and_lit (b := true) (by rw [h.1 x hx]; rfl)).1, h.2⟩

theorem all_imp_gives {α β : Type} [DecidableEq α] {l : List β} {m : β → ItemM α} {e : ItemEnv} {s t : State} {a : α}
    {C D : β → Prop} [DecidablePred C] [DecidablePred D] {b : Bool}
    (h : (l.all (fun x => decide (¬C x) || (decide (D x) && givesLit a ((m x).on e s) t)) && b) = true) :
    (∀ x ∈ l, C x → D x ∧ (m x).Gives e s a t) ∧ b = true := by
  rw [Bool.and_eq_true, List.all_eq_true] at h
  refine ⟨fun x hx hc => ?_, h.2⟩
  have := h.1 x hx
  rw [Bool.or_eq_true, Bool.and_eq_true] at this
  rcases this with h1 | ⟨h1, h2⟩
  · exact absurd hc (of_decide_eq_true h1)
  · exact ⟨of_decide_eq_true h1, (and_lit (b := true) (by rw [h2]; rfl)).1⟩

theorem pair_eta {α β : Type} (x : α × β) : (x.1, x.2) = x := rfl

theorem below_of {n : Nat} {P : Nat → Prop} [DecidablePred P] (h : ((List.range n).all fun k => decide (P k)) = true) :
    ∀ k, k < n → P k := by
  intro k hk
  exact of_decide_eq_true (List.all_eq_true.mp h k (List.mem_range.mpr hk))

theorem forall_some {α : Type} {o : Option α} {P : α → Prop} [DecidablePred P] (h : o.all (fun q => decide (P q)) = true) :
    ∀ q, o = some q → P q := by
  intro q hq
  subst hq
  simpa using h

/-- An item can end, as a check. -/
def canEnd (u : State) (run item : Nat) (r : Run) : Bool :=
  u.itemOpen run item && !u.waitsAck run item && (u.findRun run).all fun q => decide (q.desc = r.desc)

theorem canEnd_of {u : State} {run item : Nat} {r : Run} (h : canEnd u run item r = true) : u.CanEnd run item r := by
  simp only [canEnd, Bool.and_eq_true, Bool.not_eq_true'] at h
  refine ⟨h.1.1, h.1.2, fun q hq => ?_⟩
  have := h.2
  rw [hq] at this
  simpa using this

/-- A range can be read here, and written here, as checks. -/
def readableB (s : State) (a len : Nat) : Bool :=
  decide (a / 2 ^ 57 = 0 ∧ addrTier a < 2 ∧ s.isOwn (addrMember a) = true ∧
    s.populated (addrTier a) (addrOff a) len = true ∧ s.devShut (addrKey a) = false ∧ s.devBad (addrKey a) len = false)

theorem readable_of {s : State} {a len : Nat} (h : readableB s a len = true) : s.ReadableHere a len := by
  unfold readableB at h
  unfold State.ReadableHere
  exact of_decide_eq_true h

def writableB (s : State) (a len : Nat) : Bool :=
  decide (a / 2 ^ 57 = 0 ∧ addrTier a < 2 ∧ s.isOwn (addrMember a) = true ∧
    s.populated (addrTier a) (addrOff a) len = true ∧ s.devShut (addrKey a) = false ∧ s.devPartBad (addrKey a) len = false)

theorem writable_of {s : State} {a len : Nat} (h : writableB s a len = true) : s.WritableHere a len := by
  unfold writableB at h
  unfold State.WritableHere
  exact of_decide_eq_true h

/-- Work that ends well, told from what it leaves. -/
theorem gives_of {m : ItemM Unit} {e : ItemEnv} {s : State} (h : onOkUnit (m.on e s) (fun _ => true) = true) :
    m.Gives e s () (m.on e s).2 := by
  obtain ⟨t, h, -⟩ := of_okUnit h
  have h' : m.on e s = (.ok (), t) := h
  rw [h']
  exact h'

/-- Bytes where none is listed. -/
theorem cellRead_nil {α : Type} (d : α) (a n : Nat) : cellRead d [] a n = List.replicate n d := by
  rw [cellRead_eq, List.eq_replicate_iff]
  refine ⟨by rw [List.length_map, List.length_range], fun b hb => ?_⟩
  obtain ⟨i, -, rfl⟩ := List.mem_map.mp hb
  rfl

/-- No cell of device memory shows an error. -/
def clean (s : State) : Bool := s.mem.badDev.isEmpty && s.mem.stuck.isEmpty && s.mem.marked.isEmpty

theorem clean_units {s : State} (h : clean s = true) (k n : Nat) : s.badUnits k n = [] := by
  simp only [clean, Bool.and_eq_true, List.isEmpty_iff] at h
  obtain ⟨⟨h1, h2⟩, h3⟩ := h
  have h4 : s.deadUnits k n = [] := by simp [State.deadUnits, State.deadPcs, h3]
  simp [State.badUnits, State.stuckUnits, h1, h2, h4]

theorem clean_readMem {s : State} (h : clean s = true) (src : ErrSource) (k n : Nat) :
    s.readMem src k n = (s, some (s.devRead k n)) := by
  have hb : s.devBad k n = false := by simp [State.devBad, clean_units h]
  have h2 : s.mem.stuck = [] := by
    simp only [clean, Bool.and_eq_true, List.isEmpty_iff] at h
    exact h.1.2
  have hm : s.meetCells src k n = s := by simp [State.meetCells, h2]
  simp [State.readMem, hb, hm]

theorem clean_afterRead {s : State} (h : clean s = true) (e : ItemEnv) (a n : Nat) : s.afterRead e a n = s := by
  have h2 : s.mem.stuck = [] := by
    simp only [clean, Bool.and_eq_true, List.isEmpty_iff] at h
    exact h.1.2
  unfold State.afterRead
  split
  · rfl
  · simp [State.meetCells, h2]

/-- A store to SRAM that holds no bad word. -/
theorem sramStore_gives {k : Nat} {bs : List Byte} {e : ItemEnv} {s : State} (h : s.inCoppice (sramPart k) = false)
    (hb : (s.mem.badSram.isEmpty && s.mem.stuckSram.isEmpty) = true) :
    (sramStore k bs).Gives e s () (s.sramWrite k bs) := by
  simp only [Bool.and_eq_true, List.isEmpty_iff] at hb
  refine sramStore_on h ?_
  simp [State.sramPartBad, State.badWords, hb.1, hb.2]

/-- A source of this member's memory where nothing is listed. -/
theorem readPlace_zero {a n : Nat} {e : ItemEnv} {s : State} (h1 : s.isOwn (addrMember a) = true)
    (h2 : s.devShut (addrKey a) = false) (h3 : clean s = true) (h4 : s.mem.dev = []) :
    (readPlace (.mem a) n).Gives e s (List.replicate n 0, false) s := by
  have hr : s.devRead (addrKey a) n = List.replicate n 0 := by
    unfold State.devRead
    rw [h4]
    exact cellRead_nil _ _ _
  unfold ItemM.Gives readPlace
  rw [on_get_bind, on_read_bind]
  dsimp only
  rw [if_pos h1, on_require_bind _ (by rw [h2]; rfl), clean_readMem h3]
  dsimp only
  rw [on_set_bind, hr]
  rfl

theorem storeAt_remote {a n : Nat} {bs : List Byte} {e : ItemEnv} {s t : State} (h1 : s.isOwn (addrMember a) = false)
    (h2 : bs.isEmpty = false) (h3 : bs.length = n)
    (h : (((packetRanges a n).forM fun (x, m) => sendWrite x ((bs.drop (x - a)).take m) (isBulk a n)) >>= fun _ =>
      patchArrived a bs).Gives e s () t) : (storeAt a bs).Gives e s () t := by
  unfold ItemM.Gives storeAt
  rw [on_get_bind, if_neg (by rw [h2]; decide), if_neg (by rw [h1]; decide), h3]
  exact h

theorem storeAt_own {a : Nat} {bs : List Byte} {e : ItemEnv} {s : State} (h1 : s.isOwn (addrMember a) = true)
    (h2 : bs.isEmpty = false) (h3 : s.devShut (addrKey a) = false) (h4 : clean s = true) :
    (storeAt a bs).Gives e s () (s.devWrite (addrKey a) bs) := by
  have h5 : s.devPartBad (addrKey a) bs.length = false := by simp [State.devPartBad, clean_units h4]
  unfold ItemM.Gives storeAt
  rw [on_get_bind, if_neg (by rw [h2]; decide), if_pos h1]
  unfold writeDev
  simp [h3, h5, require]

def zeros : List Byte := List.replicate 65536 0
theorem zeros_not_empty : zeros.isEmpty = false := rfl
theorem zeros_length : zeros.length = 65536 := List.length_replicate

end Sys2Proof.Tests
end

