-- ==== Sys2Proof/Tests/Witness02.lean ====
section
/-! SUPPORT. States that meet the hypotheses of the statements. -/

set_option Elab.async false
namespace Sys2Proof.Tests
open Sys2Proof.Machine

/-- `device` with a window of 4 GiB whose one segment lies in HBM. -/
def windowed : State := sets [(cxlmemSizeSize, 1), (cxlmemSegValid 0, 1)] device

/-- States that meet the hypotheses of `Obligations.HostWindowsServeMemory`, one for each clause. -/
theorem witness_HostWindowsServeMemory :
    (∃ (s u v : State) (off len k : Nat) (data : List Byte), s.windowServes = true ∧
      s.windowKey off len = some k ∧
      s.hostShut k = false ∧
      data.length = len ∧
      u = s.touchBias off ∧
      v = u.devWrite k data ∧
      u.devBad k len = false) ∧
    (∃ (s u v : State) (off len k : Nat) (data : List Byte), s.windowServes = true ∧
      s.windowKey off len = some k ∧
      s.hostShut k = false ∧
      data.length = len ∧
      u = s.touchBias off ∧
      v = u.devWrite k data ∧
      u.devBad k len = true) ∧
    (∃ (s u v : State) (off len k : Nat) (data : List Byte), s.windowServes = true ∧
      s.windowKey off len = some k ∧
      s.hostShut k = false ∧
      data.length = len ∧
      u = s.touchBias off ∧
      v = u.devWrite k data ∧
      u.devPartBad k len = false ∧
      v.devBad k len = false) ∧
    (∃ (s : State) (off len : Nat) (data : List Byte), s.windowServes = true ∧
      s.windowKey off len = none ∧
      data.length = len) ∧
    (∃ (s : State) (off size k : Nat) (data : List Byte), s.hostServes (0x100000 + off) = true ∧
      apertureSized off size = true ∧
      data.length = size ∧
      s.isSealed = false ∧
      s.apertureKey off size = some k ∧
      s.hostShut k = false ∧
      s.devBad k size = false) ∧
    (∃ (s : State) (off size k : Nat) (data : List Byte), s.hostServes (0x100000 + off) = true ∧
      apertureSized off size = true ∧
      data.length = size ∧
      s.isSealed = false ∧
      s.apertureKey off size = some k ∧
      s.hostShut k = false ∧
      s.devPartBad k size = false) ∧
    (∃ (s : State) (off size : Nat) (data : List Byte), s.hostServes (0x100000 + off) = true ∧
      apertureSized off size = true ∧
      data.length = size ∧
      s.isSealed = true) :=
  ⟨(by
    have H : ((fun (s : State) (off : Nat) (len : Nat) (k : Nat) (data : List Byte) => decide (s.windowServes = true) &&
        (decide (s.windowKey off len = some k) && (decide (s.hostShut k = false) && (decide (data.length = len) &&
        ((fun (u : State) => (fun (v : State) => decide (u.devBad k len = false) &&
        (true)) (u.devWrite k data)) (s.touchBias off)))))) (windowed) (2 ^ 32 - 64) (64) (2 ^ 32 - 64) (List.replicate 64 7)) =
        true := by decide +kernel
    obtain ⟨h0, H⟩ := and_of H
    obtain ⟨h1, H⟩ := and_of H
    obtain ⟨h2, H⟩ := and_of H
    obtain ⟨h3, H⟩ := and_of H
    obtain ⟨h6, H⟩ := and_of H
    exact ⟨windowed, _, _, (2 ^ 32 - 64), 64, (2 ^ 32 - 64), (List.replicate 64 7), h0, h1, h2, h3, rfl, rfl, h6⟩),
   (by
    have H : ((fun (s : State) (off : Nat) (len : Nat) (k : Nat) (data : List Byte) => decide (s.windowServes = true) &&
        (decide (s.windowKey off len = some k) && (decide (s.hostShut k = false) && (decide (data.length = len) &&
        ((fun (u : State) => (fun (v : State) => decide (u.devBad k len = true) &&
        (true)) (u.devWrite k data)) (s.touchBias off)))))) ({ windowed with mem := { windowed.mem with badDev := [0] } }) (0)
        (64) (0) (List.replicate 64 7)) = true := by decide +kernel
    obtain ⟨h0, H⟩ := and_of H
    obtain ⟨h1, H⟩ := and_of H
    obtain ⟨h2, H⟩ := and_of H
    obtain ⟨h3, H⟩ := and_of H
    obtain ⟨h6, H⟩ := and_of H
    exact ⟨({ windowed with mem := { windowed.mem with badDev := [0] } }), _, _, 0, 64, 0, (List.replicate 64 7), h0, h1, h2,
        h3, rfl, rfl, h6⟩),
   (by
    have H : ((fun (s : State) (off : Nat) (len : Nat) (k : Nat) (data : List Byte) => decide (s.windowServes = true) &&
        (decide (s.windowKey off len = some k) && (decide (s.hostShut k = false) && (decide (data.length = len) &&
        ((fun (u : State) => (fun (v : State) => decide (u.devPartBad k len = false) && (decide (v.devBad k len = false) &&
        (true))) (u.devWrite k data)) (s.touchBias off)))))) ({ windowed with mem := { windowed.mem with badDev := [48] } }) (0)
        (64) (0) (List.replicate 64 7)) = true := by decide +kernel
    obtain ⟨h0, H⟩ := and_of H
    obtain ⟨h1, H⟩ := and_of H
    obtain ⟨h2, H⟩ := and_of H
    obtain ⟨h3, H⟩ := and_of H
    obtain ⟨h6, H⟩ := and_of H
    obtain ⟨h7, H⟩ := and_of H
    exact ⟨({ windowed with mem := { windowed.mem with badDev := [48] } }), _, _, 0, 64, 0, (List.replicate 64 7), h0, h1, h2,
        h3, rfl, rfl, h6, h7⟩),
   (by
    have H : ((fun (s : State) (off : Nat) (len : Nat) (data : List Byte) => decide (s.windowServes = true) &&
        (decide (s.windowKey off len = none) && (decide (data.length = len) && (true)))) (windowed) (2 ^ 32) (64) (List.replicate
        64 7)) = true := by decide +kernel
    obtain ⟨h0, H⟩ := and_of H
    obtain ⟨h1, H⟩ := and_of H
    obtain ⟨h2, H⟩ := and_of H
    exact ⟨windowed, (2 ^ 32), 64, (List.replicate 64 7), h0, h1, h2⟩),
   (by
    have H : ((fun (s : State) (off : Nat) (size : Nat) (k : Nat) (data : List Byte) =>
        decide (s.hostServes (0x100000 + off) = true) && (decide (apertureSized off size = true) &&
        (decide (data.length = size) && (decide (s.isSealed = false) && (decide (s.apertureKey off size = some k) &&
        (decide (s.hostShut k = false) && (decide (s.devBad k size = false) && (true)))))))) (booted) (0) (8) (0) (List.replicate
        8 7)) = true := by decide +kernel
    obtain ⟨h0, H⟩ := and_of H
    obtain ⟨h1, H⟩ := and_of H
    obtain ⟨h2, H⟩ := and_of H
    obtain ⟨h3, H⟩ := and_of H
    obtain ⟨h4, H⟩ := and_of H
    obtain ⟨h5, H⟩ := and_of H
    obtain ⟨h6, H⟩ := and_of H
    exact ⟨booted, 0, 8, 0, (List.replicate 8 7), h0, h1, h2, h3, h4, h5, h6⟩),
   (by
    have H : ((fun (s : State) (off : Nat) (size : Nat) (k : Nat) (data : List Byte) =>
        decide (s.hostServes (0x100000 + off) = true) && (decide (apertureSized off size = true) &&
        (decide (data.length = size) && (decide (s.isSealed = false) && (decide (s.apertureKey off size = some k) &&
        (decide (s.hostShut k = false) && (decide (s.devPartBad k size = false) &&
        (true)))))))) (booted) (0) (8) (0) (List.replicate 8 7)) = true := by decide +kernel
    obtain ⟨h0, H⟩ := and_of H
    obtain ⟨h1, H⟩ := and_of H
    obtain ⟨h2, H⟩ := and_of H
    obtain ⟨h3, H⟩ := and_of H
    obtain ⟨h4, H⟩ := and_of H
    obtain ⟨h5, H⟩ := and_of H
    obtain ⟨h6, H⟩ := and_of H
    exact ⟨booted, 0, 8, 0, (List.replicate 8 7), h0, h1, h2, h3, h4, h5, h6⟩),
   (by
    have H : ((fun (s : State) (off : Nat) (size : Nat) (data : List Byte) => decide (s.hostServes (0x100000 + off) = true) &&
        (decide (apertureSized off size = true) && (decide (data.length = size) && (decide (s.isSealed = true) &&
        (true))))) (device) (0) (8) (List.replicate 8 7)) = true := by decide +kernel
    obtain ⟨h0, H⟩ := and_of H
    obtain ⟨h1, H⟩ := and_of H
    obtain ⟨h2, H⟩ := and_of H
    obtain ⟨h3, H⟩ := and_of H
    exact ⟨device, 0, 8, (List.replicate 8 7), h0, h1, h2, h3⟩)⟩

/-- A read of the lower half of `RING_SQ_BASE` 255 has left the upper one. -/
def latched : State := { device with regs := { device.regs with latch := [(rRingSqBase 255, 7)] } }

/-- States that meet the hypotheses of `Obligations.RegistersFollowTheirAccess`, one for each clause. -/
theorem witness_RegistersFollowTheirAccess :
    (∃ (s : State) (off : Nat) (v : BitVec 64) (r : RegRow), s.hostServes off = true ∧
      off % 4 = 0 ∧
      (off < 0x9000 ∨ 0xA000 ≤ off) ∧
      off < 0x30000 ∧
      regRowAt off = some r ∧
      r.size = 4 ∧
      off ∉ [rSetupSeal, rDeviceReset, rCueSwitchReq, rFabMember, rCoppiceReq, rSelftestReq, rSecCmd, rPwrCtrl] ∧
      portOfCtrl off = none ∧
      (s.isSealed && r.violates (s.reg off) v.toNat) = false ∧
      r.merged s.isSealed (s.reg off) v.toNat < 2 ^ 64) ∧
    (∃ (r : RegRow) (f : FieldSpec), (r.fields.Pairwise (fun a b => a.lo + a.w ≤ b.lo ∨ b.lo + b.w ≤ a.lo)) ∧
      f ∈ r.fields) ∧
    (∃ (s : State) (off : Nat), s.hostServes off = true ∧
      off % 4 ≠ 0) ∧
    (∃ (s : State) (off : Nat), s.hostServes off = true ∧
      off % 4 = 0 ∧
      isWide off = true) ∧
    (∃ (s : State) (off : Nat), s.hostServes off = true ∧
      ∃ h, off % 4 = 0 ∧
      isWide off = false ∧
      regBase off ≠ off ∧
      cellFind (regBase off) s.regs.latch = some h) ∧
    (∃ (s : State) (off : Nat), s.hostServes off = true ∧
      off % 4 = 0 ∧
      isWide off = false ∧
      (regBase off = off ∨ cellFind (regBase off) s.regs.latch = none)) :=
  ⟨(by
    have H : ((fun (s : State) (off : Nat) (v : BitVec 64) (r : RegRow) => decide (s.hostServes off = true) &&
        (decide (off % 4 = 0) && (decide (off < 0x9000 ∨ 0xA000 ≤ off) && (decide (off < 0x30000) &&
        (decide (regRowAt off = some r) && (decide (r.size = 4) && (decide (off ∉ [rSetupSeal, rDeviceReset, rCueSwitchReq,
        rFabMember, rCoppiceReq, rSelftestReq, rSecCmd, rPwrCtrl]) && (decide (portOfCtrl off = none) && (decide ((s.isSealed &&
        r.violates (s.reg off) v.toNat) = false) && (decide (r.merged s.isSealed (s.reg off) v.toNat < 2 ^ 64) &&
        (true))))))))))) (booted) (rCueCtrl) (0x120C8) ((regRowAt rCueCtrl).get (by decide +kernel))) = true := by decide +kernel
    obtain ⟨h0, H⟩ := and_of H
    obtain ⟨h1, H⟩ := and_of H
    obtain ⟨h2, H⟩ := and_of H
    obtain ⟨h3, H⟩ := and_of H
    obtain ⟨h4, H⟩ := and_of H
    obtain ⟨h5, H⟩ := and_of H
    obtain ⟨h6, H⟩ := and_of H
    obtain ⟨h7, H⟩ := and_of H
    obtain ⟨h8, H⟩ := and_of H
    obtain ⟨h9, H⟩ := and_of H
    exact ⟨booted, rCueCtrl, 0x120C8, ((regRowAt rCueCtrl).get (by decide +kernel)), h0, h1, h2, h3, h4, h5, h6, h7, h8, h9⟩),
   (by
    have H : ((fun (r : RegRow) (f : FieldSpec) => decide (r.fields.Pairwise (fun a b => a.lo + a.w ≤ b.lo ∨
        b.lo + b.w ≤ a.lo)) && (decide (f ∈ r.fields) && (true))) ((regRowAt rCueCtrl).get (by decide +kernel)) (⟨0, 15,
        .rwl⟩)) = true := by decide +kernel
    obtain ⟨h0, H⟩ := and_of H
    obtain ⟨h1, H⟩ := and_of H
    exact ⟨((regRowAt rCueCtrl).get (by decide +kernel)), (⟨0, 15, .rwl⟩), h0, h1⟩),
   (by
    have H : ((fun (s : State) (off : Nat) => decide (s.hostServes off = true) && (decide (off % 4 ≠ 0) &&
        (true))) (device) (0x8001)) = true := by decide +kernel
    obtain ⟨h0, H⟩ := and_of H
    obtain ⟨h1, H⟩ := and_of H
    exact ⟨device, 0x8001, h0, h1⟩),
   (by
    have H : ((fun (s : State) (off : Nat) => decide (s.hostServes off = true) && (decide (off % 4 = 0) &&
        (decide (isWide off = true) && (true)))) (device) (rRingSqBase 255)) = true := by decide +kernel
    obtain ⟨h0, H⟩ := and_of H
    obtain ⟨h1, H⟩ := and_of H
    obtain ⟨h2, H⟩ := and_of H
    exact ⟨device, (rRingSqBase 255), h0, h1, h2⟩),
   (by
    have H : ((fun (s : State) (off : Nat) => decide (s.hostServes off = true) && (decide (off % 4 = 0) &&
        (decide (isWide off = false) && (decide (regBase off ≠ off) && (onSome (cellFind (regBase off) s.regs.latch) fun h =>
        true))))) (latched) (rRingSqBase 255 + 4)) = true := by decide +kernel
    obtain ⟨h0, H⟩ := and_of H
    obtain ⟨h1, H⟩ := and_of H
    obtain ⟨h2, H⟩ := and_of H
    obtain ⟨h3, H⟩ := and_of H
    obtain ⟨h, h4, H⟩ := of_some H
    exact ⟨latched, (rRingSqBase 255 + 4), h0, _, h1, h2, h3, h4⟩),
   (by
    have H : ((fun (s : State) (off : Nat) => decide (s.hostServes off = true) && (decide (off % 4 = 0) &&
        (decide (isWide off = false) && (decide (regBase off = off ∨ cellFind (regBase off) s.regs.latch = none) &&
        (true))))) (device) (rRingCtrl 255)) = true := by decide +kernel
    obtain ⟨h0, H⟩ := and_of H
    obtain ⟨h1, H⟩ := and_of H
    obtain ⟨h2, H⟩ := and_of H
    obtain ⟨h3, H⟩ := and_of H
    exact ⟨device, (rRingCtrl 255), h0, h1, h2, h3⟩)⟩

/-- States that meet the hypotheses of `Obligations.SealGatesTheDevice`, one for each clause. -/
theorem witness_SealGatesTheDevice :
    (∃ (s : State), s.isSealed = false ∧
      ∃ (off : Nat) (r : RegRow) (f : FieldSpec), s.hostServes off = true ∧
      regRowAt off = some r ∧
      f ∈ r.fields ∧
      f.acc = .rwl) ∧
    (∃ (s : State), s.isSealed = false) ∧
    (∃ (s : State), s.isSealed = false) ∧
    (∃ (s : State), s.isSealed = false ∧
      ∃ (key : BitVec 32), key ≠ 0x5EA15EA1) ∧
    (∃ (s : State), s.isSealed = false ∧
      s.hostServes rSetupSeal = true ∧
      s.rel.smUp = false) ∧
    (∃ (s : State), s.isSealed = false ∧
      ∃ (s1 : State), s.hostServes rSetupSeal = true ∧
      s.rel.smUp = true ∧
      s.boot.sealBlocked = false ∧
      s.fld lcStatusState ≠ 4 ∧
      s1 = s.raiseFirmwareCounter ∧
      ∃ (c n : Nat), s1.sealCheck = some (c, n) ∧
      c < 16 ∧
      n < 256) ∧
    (∃ (s : State), s.isSealed = false ∧
      ∃ (s1 : State), s.hostServes rSetupSeal = true ∧
      s.rel.smUp = true ∧
      s.boot.sealBlocked = false ∧
      s.fld lcStatusState ≠ 4 ∧
      s1 = s.raiseFirmwareCounter ∧
      s1.sealCheck = none ∧
      (∀ n, n < 256 → s.ringEnabled n = true → s.ringDevice n = false)) :=
  ⟨(by
    have H : ((fun (s : State) (off : Nat) (r : RegRow) (f : FieldSpec) => decide (s.isSealed = false) &&
        (decide (s.hostServes off = true) && (decide (regRowAt off = some r) && (decide (f ∈ r.fields) &&
        (decide (f.acc = .rwl) && (true)))))) (booted) (rRingCtrl 255) ((regRowAt (rRingCtrl 255)).get (by decide +kernel)) (⟨0,
        1, .rwl⟩)) = true := by decide +kernel
    obtain ⟨h0, H⟩ := and_of H
    obtain ⟨h1, H⟩ := and_of H
    obtain ⟨h2, H⟩ := and_of H
    obtain ⟨h3, H⟩ := and_of H
    obtain ⟨h4, H⟩ := and_of H
    exact ⟨booted, h0, (rRingCtrl 255), ((regRowAt (rRingCtrl 255)).get (by decide +kernel)), (⟨0, 1, .rwl⟩), h1, h2, h3, h4⟩),
   (by
    have H : ((fun (s : State) => decide (s.isSealed = false) && (true)) (booted)) = true := by decide +kernel
    obtain ⟨h0, H⟩ := and_of H
    exact ⟨booted, h0⟩),
   (by
    have H : ((fun (s : State) => decide (s.isSealed = false) && (true)) (booted)) = true := by decide +kernel
    obtain ⟨h0, H⟩ := and_of H
    exact ⟨booted, h0⟩),
   (by
    have H : ((fun (s : State) (key : BitVec 32) => decide (s.isSealed = false) && (decide (key ≠ 0x5EA15EA1) &&
        (true))) (booted) (0)) = true := by decide +kernel
    obtain ⟨h0, H⟩ := and_of H
    obtain ⟨h1, H⟩ := and_of H
    exact ⟨booted, h0, 0, h1⟩),
   (by
    have H : ((fun (s : State) => decide (s.isSealed = false) && (decide (s.hostServes rSetupSeal = true) &&
        (decide (s.rel.smUp = false) && (true)))) ({ booted with rel := { booted.rel with smUp := false } })) = true :=
        by decide +kernel
    obtain ⟨h0, H⟩ := and_of H
    obtain ⟨h1, H⟩ := and_of H
    obtain ⟨h2, H⟩ := and_of H
    exact ⟨({ booted with rel := { booted.rel with smUp := false } }), h0, h1, h2⟩),
   (by
    have H : ((fun (s : State) (c : Nat) (n : Nat) => decide (s.isSealed = false) &&
        (decide (s.hostServes rSetupSeal = true) && (decide (s.rel.smUp = true) && (decide (s.boot.sealBlocked = false) &&
        (decide (s.fld lcStatusState ≠ 4) && ((fun (s1 : State) => decide (s1.sealCheck = some (c, n)) && (decide (c < 16) &&
        (decide (n < 256) && (true)))) (s.raiseFirmwareCounter))))))) (sets [(ringCtrlEn 255, 1)] booted) (1) (255)) = true :=
        by decide +kernel
    obtain ⟨h0, H⟩ := and_of H
    obtain ⟨h1, H⟩ := and_of H
    obtain ⟨h2, H⟩ := and_of H
    obtain ⟨h3, H⟩ := and_of H
    obtain ⟨h4, H⟩ := and_of H
    obtain ⟨h6, H⟩ := and_of H
    obtain ⟨h7, H⟩ := and_of H
    obtain ⟨h8, H⟩ := and_of H
    exact ⟨(sets [(ringCtrlEn 255, 1)] booted), h0, _, h1, h2, h3, h4, rfl, 1, 255, h6, h7, h8⟩),
   (by
    have H : ((fun (s : State) => decide (s.isSealed = false) && (decide (s.hostServes rSetupSeal = true) &&
        (decide (s.rel.smUp = true) && (decide (s.boot.sealBlocked = false) && (decide (s.fld lcStatusState ≠ 4) &&
        ((fun (s1 : State) => decide (s1.sealCheck = none) && (decide (((List.range (256)).all fun n =>
        decide (s.ringEnabled n = true → s.ringDevice n = false)) = true) && (true))) (s.raiseFirmwareCounter))))))) (sets
        [(ctxCtrlEn 0, 1), (ringCtrlEn 255, 1), (ringCtrlSqLog2 255, 4), (ringCtrlCqLog2 255, 9), (ringCtrlCtrlAllowed 255,
        1)] booted)) = true := by decide +kernel
    obtain ⟨h0, H⟩ := and_of H
    obtain ⟨h1, H⟩ := and_of H
    obtain ⟨h2, H⟩ := and_of H
    obtain ⟨h3, H⟩ := and_of H
    obtain ⟨h4, H⟩ := and_of H
    obtain ⟨h6, H⟩ := and_of H
    obtain ⟨h7, H⟩ := and_of H
    exact ⟨(sets [(ctxCtrlEn 0, 1), (ringCtrlEn 255, 1), (ringCtrlSqLog2 255, 4), (ringCtrlCqLog2 255, 9),
        (ringCtrlCtrlAllowed 255, 1)] booted), h0, _, h1, h2, h3, h4, rfl, h6, (below_of h7)⟩)⟩

/-- The port is released and down. -/
def portDown : State := { device with host := { device.host with up := false, lost := true } }

/-- States that meet the hypotheses of `Obligations.HostLinkGoesDownAndUp`, one for each clause. -/
theorem witness_HostLinkGoesDownAndUp :
    (∃ (s : State), s.host.up = false) ∧
    (∃ (s : State), s.host.up = true) ∧
    (∃ (s : State) (width rate : Nat), s.host.up = false ∧
      s.host.released = true ∧
      s.boot.perstN = true ∧
      linkTrains width rate = false) ∧
    (∃ (s : State) (width rate : Nat), s.host.up = false ∧
      s.host.released = true ∧
      s.boot.perstN = true ∧
      linkTrains width rate = true) :=
  ⟨(by
    have H : ((fun (s : State) => decide (s.host.up = false) && (true)) (portDown)) = true := by decide +kernel
    obtain ⟨h0, H⟩ := and_of H
    exact ⟨portDown, h0⟩),
   (by
    have H : ((fun (s : State) => decide (s.host.up = true) && (true)) (device)) = true := by decide +kernel
    obtain ⟨h0, H⟩ := and_of H
    exact ⟨device, h0⟩),
   (by
    have H : ((fun (s : State) (width : Nat) (rate : Nat) => decide (s.host.up = false) && (decide (s.host.released = true) &&
        (decide (s.boot.perstN = true) && (decide (linkTrains width rate = false) && (true))))) (portDown) (2) (32)) = true :=
        by decide +kernel
    obtain ⟨h0, H⟩ := and_of H
    obtain ⟨h1, H⟩ := and_of H
    obtain ⟨h2, H⟩ := and_of H
    obtain ⟨h3, H⟩ := and_of H
    exact ⟨portDown, 2, 32, h0, h1, h2, h3⟩),
   (by
    have H : ((fun (s : State) (width : Nat) (rate : Nat) => decide (s.host.up = false) && (decide (s.host.released = true) &&
        (decide (s.boot.perstN = true) && (decide (linkTrains width rate = true) && (true))))) (portDown) (4) (8)) = true :=
        by decide +kernel
    obtain ⟨h0, H⟩ := and_of H
    obtain ⟨h1, H⟩ := and_of H
    obtain ⟨h2, H⟩ := and_of H
    obtain ⟨h3, H⟩ := and_of H
    exact ⟨portDown, 4, 8, h0, h1, h2, h3⟩)⟩

/-- States that meet the hypotheses of `Obligations.BoundaryOpensNextSlot`, one for each clause. -/
theorem witness_BoundaryOpensNextSlot :
    (∃ (s : State), s.inReset = false) :=
  (by
    have H : ((fun (s : State) => decide (s.inReset = false) && (true)) (device)) = true := by decide +kernel
    obtain ⟨h0, H⟩ := and_of H
    exact ⟨device, h0⟩)

/-- `device` with port 11 up, 10 µs after a local edge. -/
def hearing (lock misses : Nat) : State :=
  let s := sets [(cueStatusLock, lock), (cueStatusMisses, misses), (fabPortCtrlEn 11, 1), (fabPortStatusState 11, 2)] device
  { s with cue := { s.cue with edgeNs := 10000 } }

/-- The message of cue `cue`, from member 7, of rank 0. -/
def cueMsg (cue : Nat) : CueMsg :=
  { cue := cue, timeNs := 9000, period := 1000, blocking := false, origin := 7, rank := 0, residenceNs := 0,
    annBlk := Announce.none, annChorus := Announce.none, annRoute := Announce.none }

/-- States that meet the hypotheses of `Obligations.CueLockFollowsMessages`, one for each clause. -/
theorem witness_CueLockFollowsMessages :
    (∃ (s u : State) (port now : Nat) (m : CueMsg), u = s.tick now ∧
      u.inReset = false ∧
      u.portUp port = true ∧
      m.origin ≠ s.member ∧
      u.seenFlood (u.cuePacket m) = false ∧
      200 ≤ m.period ∧
      m.period ≤ 20000 ∧
      m.blocking = s.blockingMode ∧
      m.cue < 2 ^ 64 ∧
      (∀ x ∈ s.cue.heard, s.cueNo ≤ x.2 + 1 → m.rank ≤ x.1) ∧
      -65 ≤ (s.cue.edgeNs : Int) - u.derivedEdge port m ∧
      (s.cue.edgeNs : Int) - u.derivedEdge port m ≤ 65 ∧
      (s.fld cueStatusLock = 0 ∨ (s.fld cueStatusLock = 3 ∧ s.cue.routeSinceDetach = true)) ∧
      3 ≤ s.cue.lockCount) ∧
    (∃ (s u : State) (port now : Nat) (m : CueMsg), u = s.tick now ∧
      u.inReset = false ∧
      u.portUp port = true ∧
      m.origin ≠ s.member ∧
      u.seenFlood (u.cuePacket m) = false ∧
      200 ≤ m.period ∧
      m.period ≤ 20000 ∧
      m.blocking = s.blockingMode ∧
      m.cue < 2 ^ 64 ∧
      (∀ x ∈ s.cue.heard, s.cueNo ≤ x.2 + 1 → m.rank ≤ x.1) ∧
      -65 ≤ (s.cue.edgeNs : Int) - u.derivedEdge port m ∧
      (s.cue.edgeNs : Int) - u.derivedEdge port m ≤ 65 ∧
      (s.fld cueStatusLock = 1 ∨ s.fld cueStatusLock = 2 ∨ (s.fld cueStatusLock = 4 ∧ m.rank < s.ownRank)) ∧
      m.cue = s.cueNo ∧
      s.cue.edgeNs ≤ u.now ∧
      u.now ≤ s.cue.edgeNs + 500 * s.period) ∧
    (∃ (s w : State) (now : Nat), w = s.tick now ∧
      w.inReset = false ∧
      s.cue.gotValid = false ∧
      s.cue.edgeNs + 500 * s.period < w.now ∧
      s.fld cueStatusLock = 1) ∧
    (∃ (s w : State) (now : Nat), w = s.tick now ∧
      w.inReset = false ∧
      s.cue.gotValid = false ∧
      s.cue.edgeNs + 500 * s.period < w.now ∧
      s.fld cueStatusLock = 2 ∧
      s.fld cueStatusMisses < 3) ∧
    (∃ (s w : State) (now : Nat), w = s.tick now ∧
      w.inReset = false ∧
      s.cue.gotValid = false ∧
      s.cue.edgeNs + 500 * s.period < w.now ∧
      s.fld cueStatusLock = 2 ∧
      s.fld cueStatusMisses = 3) ∧
    (∃ (s w : State) (now : Nat), w = s.tick now ∧
      w.inReset = false ∧
      s.cue.gotValid = false ∧
      s.cue.edgeNs + 500 * s.period < w.now ∧
      s.fld cueStatusLock = 0) ∧
    (∃ (s w : State) (now : Nat), w = s.tick now ∧
      w.inReset = false ∧
      s.cue.gotValid = false ∧
      ∃ (x : Int), (x < -65 ∨ 65 < x) ∧
      s.fld cueStatusLock = 1) :=
  ⟨(by
    have H : ((fun (s : State) (port : Nat) (now : Nat) (m : CueMsg) => (fun (u : State) => decide (u.inReset = false) &&
        (decide (u.portUp port = true) && (decide (m.origin ≠ s.member) && (decide (u.seenFlood (u.cuePacket m) = false) &&
        (decide (200 ≤ m.period) && (decide (m.period ≤ 20000) && (decide (m.blocking = s.blockingMode) &&
        (decide (m.cue < 2 ^ 64) && (decide ((∀ x ∈ s.cue.heard, s.cueNo ≤ x.2 + 1 → m.rank ≤ x.1)) &&
        (decide (-65 ≤ (s.cue.edgeNs : Int) - u.derivedEdge port m) && (decide ((s.cue.edgeNs : Int) - u.derivedEdge port m ≤ 65)
        && (decide (s.fld cueStatusLock = 0 ∨ (s.fld cueStatusLock = 3 ∧ s.cue.routeSinceDetach = true)) &&
        (decide (3 ≤ s.cue.lockCount) && (true)))))))))))))) (s.tick now))
        ({ hearing 0 0 with cue := { (hearing 0 0).cue with lockCount := 3 } }) (11) (10065) (cueMsg 99)) = true :=
        by decide +kernel
    obtain ⟨h1, H⟩ := and_of H
    obtain ⟨h2, H⟩ := and_of H
    obtain ⟨h3, H⟩ := and_of H
    obtain ⟨h4, H⟩ := and_of H
    obtain ⟨h5, H⟩ := and_of H
    obtain ⟨h6, H⟩ := and_of H
    obtain ⟨h7, H⟩ := and_of H
    obtain ⟨h8, H⟩ := and_of H
    obtain ⟨h9, H⟩ := and_of H
    obtain ⟨h10, H⟩ := and_of H
    obtain ⟨h11, H⟩ := and_of H
    obtain ⟨h12, H⟩ := and_of H
    obtain ⟨h13, H⟩ := and_of H
    exact ⟨({ hearing 0 0 with cue := { (hearing 0 0).cue with lockCount := 3 } }), _, 11, 10065, (cueMsg 99), rfl, h1, h2,
        h3, h4, h5, h6, h7, h8, h9, h10, h11, h12, h13⟩),
   (by
    have H : ((fun (s : State) (port : Nat) (now : Nat) (m : CueMsg) => (fun (u : State) => decide (u.inReset = false) &&
        (decide (u.portUp port = true) && (decide (m.origin ≠ s.member) && (decide (u.seenFlood (u.cuePacket m) = false) &&
        (decide (200 ≤ m.period) && (decide (m.period ≤ 20000) && (decide (m.blocking = s.blockingMode) &&
        (decide (m.cue < 2 ^ 64) && (decide ((∀ x ∈ s.cue.heard, s.cueNo ≤ x.2 + 1 → m.rank ≤ x.1)) &&
        (decide (-65 ≤ (s.cue.edgeNs : Int) - u.derivedEdge port m) && (decide ((s.cue.edgeNs : Int) - u.derivedEdge port m ≤ 65)
        && (decide (s.fld cueStatusLock = 1 ∨ s.fld cueStatusLock = 2 ∨ (s.fld cueStatusLock = 4 ∧ m.rank < s.ownRank)) &&
        (decide (m.cue = s.cueNo) && (decide (s.cue.edgeNs ≤ u.now) && (decide (u.now ≤ s.cue.edgeNs + 500 * s.period) &&
        (true)))))))))))))))) (s.tick now)) (hearing 2 3) (11) (10000) (cueMsg 0)) = true := by decide +kernel
    obtain ⟨h1, H⟩ := and_of H
    obtain ⟨h2, H⟩ := and_of H
    obtain ⟨h3, H⟩ := and_of H
    obtain ⟨h4, H⟩ := and_of H
    obtain ⟨h5, H⟩ := and_of H
    obtain ⟨h6, H⟩ := and_of H
    obtain ⟨h7, H⟩ := and_of H
    obtain ⟨h8, H⟩ := and_of H
    obtain ⟨h9, H⟩ := and_of H
    obtain ⟨h10, H⟩ := and_of H
    obtain ⟨h11, H⟩ := and_of H
    obtain ⟨h12, H⟩ := and_of H
    obtain ⟨h13, H⟩ := and_of H
    obtain ⟨h14, H⟩ := and_of H
    obtain ⟨h15, H⟩ := and_of H
    exact ⟨(hearing 2 3), _, 11, 10000, (cueMsg 0), rfl, h1, h2, h3, h4, h5, h6, h7, h8, h9, h10, h11, h12, h13, h14, h15⟩),
   (by
    have H : ((fun (s : State) (now : Nat) => (fun (w : State) => decide (w.inReset = false) &&
        (decide (s.cue.gotValid = false) && (decide (s.cue.edgeNs + 500 * s.period < w.now) &&
        (decide (s.fld cueStatusLock = 1) && (true))))) (s.tick now)) (hearing 1 0) (510001)) = true := by decide +kernel
    obtain ⟨h1, H⟩ := and_of H
    obtain ⟨h2, H⟩ := and_of H
    obtain ⟨h3, H⟩ := and_of H
    obtain ⟨h4, H⟩ := and_of H
    exact ⟨(hearing 1 0), _, 510001, rfl, h1, h2, h3, h4⟩),
   (by
    have H : ((fun (s : State) (now : Nat) => (fun (w : State) => decide (w.inReset = false) &&
        (decide (s.cue.gotValid = false) && (decide (s.cue.edgeNs + 500 * s.period < w.now) &&
        (decide (s.fld cueStatusLock = 2) && (decide (s.fld cueStatusMisses < 3) &&
        (true)))))) (s.tick now)) (hearing 2 2) (510001)) = true := by decide +kernel
    obtain ⟨h1, H⟩ := and_of H
    obtain ⟨h2, H⟩ := and_of H
    obtain ⟨h3, H⟩ := and_of H
    obtain ⟨h4, H⟩ := and_of H
    obtain ⟨h5, H⟩ := and_of H
    exact ⟨(hearing 2 2), _, 510001, rfl, h1, h2, h3, h4, h5⟩),
   (by
    have H : ((fun (s : State) (now : Nat) => (fun (w : State) => decide (w.inReset = false) &&
        (decide (s.cue.gotValid = false) && (decide (s.cue.edgeNs + 500 * s.period < w.now) &&
        (decide (s.fld cueStatusLock = 2) && (decide (s.fld cueStatusMisses = 3) &&
        (true)))))) (s.tick now)) (hearing 2 3) (510001)) = true := by decide +kernel
    obtain ⟨h1, H⟩ := and_of H
    obtain ⟨h2, H⟩ := and_of H
    obtain ⟨h3, H⟩ := and_of H
    obtain ⟨h4, H⟩ := and_of H
    obtain ⟨h5, H⟩ := and_of H
    exact ⟨(hearing 2 3), _, 510001, rfl, h1, h2, h3, h4, h5⟩),
   (by
    have H : ((fun (s : State) (now : Nat) => (fun (w : State) => decide (w.inReset = false) &&
        (decide (s.cue.gotValid = false) && (decide (s.cue.edgeNs + 500 * s.period < w.now) &&
        (decide (s.fld cueStatusLock = 0) && (true))))) (s.tick now)) (hearing 0 0) (510001)) = true := by decide +kernel
    obtain ⟨h1, H⟩ := and_of H
    obtain ⟨h2, H⟩ := and_of H
    obtain ⟨h3, H⟩ := and_of H
    obtain ⟨h4, H⟩ := and_of H
    exact ⟨(hearing 0 0), _, 510001, rfl, h1, h2, h3, h4⟩),
   (by
    have H : ((fun (s : State) (now : Nat) (x : Int) => (fun (w : State) => decide (w.inReset = false) &&
        (decide (s.cue.gotValid = false) && (decide (x < -65 ∨ 65 < x) && (decide (s.fld cueStatusLock = 1) &&
        (true))))) (s.tick now)) (hearing 1 0) (510001) (66)) = true := by decide +kernel
    obtain ⟨h1, H⟩ := and_of H
    obtain ⟨h2, H⟩ := and_of H
    obtain ⟨h3, H⟩ := and_of H
    obtain ⟨h4, H⟩ := and_of H
    exact ⟨(hearing 1 0), _, 510001, rfl, h1, h2, 66, h3, h4⟩)⟩

/-- An emitter of cue 0. -/
def emitting : State := sets [(cueCtrlRole, 1), (cueStatusLock, 4)] device

/-- States that meet the hypotheses of `Obligations.StandbySwitchesAndTests`, one for each clause. -/
theorem witness_StandbySwitchesAndTests :
    (∃ (s : State) (now : Nat), s.fld cueCtrlRole = 2 ∧
      s.mayEmit = true ∧
      s.cue.formerMaster = false ∧
      s.fld cueStatusLock ≠ 4 ∧
      s.ownRank ≤ s.cue.quiet ∧
      s.cue.edgeNs + 500 * s.period ≤ (s.tick now).now ∧
      s.member < 2 ^ 12) ∧
    (∃ (s : State) (kind gen lead : Nat) (v : BitVec 32), s.hostServes rCueSwitchReq = true ∧
      kind = v.toNat % 4 ∧
      gen = field v.toNat 8 16 ∧
      lead = field v.toNat 2 6 ∧
      (s.fld cueStatusLock ≠ 4 ∨ (bit v.toNat 31 = true ∧ kind = 0))) ∧
    (∃ (s : State) (kind gen lead : Nat) (v : BitVec 32), s.hostServes rCueSwitchReq = true ∧
      kind = v.toNat % 4 ∧
      gen = field v.toNat 8 16 ∧
      lead = field v.toNat 2 6 ∧
      s.fld cueStatusLock = 4 ∧
      1 ≤ kind ∧
      bit v.toNat 31 = true ∧
      s.switchPending kind = false ∧
      2 ≤ lead) ∧
    (∃ (s : State) (kind gen lead : Nat) (v : BitVec 32), s.hostServes rCueSwitchReq = true ∧
      kind = v.toNat % 4 ∧
      gen = field v.toNat 8 16 ∧
      lead = field v.toNat 2 6 ∧
      s.fld cueStatusLock = 4 ∧
      1 ≤ kind ∧
      bit v.toNat 31 = true ∧
      lead < 2) ∧
    (∃ (s : State) (part : Nat), part < 8 ∧
      s.hostServes (rPartOp part) = true) ∧
    (∃ (s w : State) (tile now : Nat), w = s.tick now ∧
      w.testsRun = true ∧
      w.testable tile = true ∧
      (w.rel.testOut = some tile ∨ (w.sched.intermission = true ∧ tile ∈ w.dueTests))) :=
  ⟨(by
    have H : ((fun (s : State) (now : Nat) => decide (s.fld cueCtrlRole = 2) && (decide (s.mayEmit = true) &&
        (decide (s.cue.formerMaster = false) && (decide (s.fld cueStatusLock ≠ 4) && (decide (s.ownRank ≤ s.cue.quiet) &&
        (decide (s.cue.edgeNs + 500 * s.period ≤ (s.tick now).now) && (decide (s.member < 2 ^ 12) &&
        (true)))))))) ({ sets [(cueCtrlRole, 2), (cueCtrlRank, 1)] (hearing 1 0) with cue := { (hearing 1 0).cue with quiet := 1 } }) (510000)) = true := by decide +kernel
    obtain ⟨h0, H⟩ := and_of H
    obtain ⟨h1, H⟩ := and_of H
    obtain ⟨h2, H⟩ := and_of H
    obtain ⟨h3, H⟩ := and_of H
    obtain ⟨h4, H⟩ := and_of H
    obtain ⟨h5, H⟩ := and_of H
    obtain ⟨h6, H⟩ := and_of H
    exact ⟨({ sets [(cueCtrlRole, 2), (cueCtrlRank, 1)] (hearing 1 0) with cue := { (hearing 1 0).cue with quiet := 1 } }),
        510000, h0, h1, h2, h3, h4, h5, h6⟩),
   (by
    have H : ((fun (s : State) (v : BitVec 32) => decide (s.hostServes rCueSwitchReq = true) && ((fun (kind : Nat) =>
        (fun (gen : Nat) => (fun (lead : Nat) => decide (s.fld cueStatusLock ≠ 4 ∨ (bit v.toNat 31 = true ∧ kind = 0)) &&
        (true)) (field v.toNat 2 6)) (field v.toNat 8 16)) (v.toNat % 4))) (device) (0x80000509)) = true := by decide +kernel
    obtain ⟨h0, H⟩ := and_of H
    obtain ⟨h4, H⟩ := and_of H
    exact ⟨device, _, _, _, 0x80000509, h0, rfl, rfl, rfl, h4⟩),
   (by
    have H : ((fun (s : State) (v : BitVec 32) => decide (s.hostServes rCueSwitchReq = true) && ((fun (kind : Nat) =>
        (fun (gen : Nat) => (fun (lead : Nat) => decide (s.fld cueStatusLock = 4) && (decide (1 ≤ kind) &&
        (decide (bit v.toNat 31 = true) && (decide (s.switchPending kind = false) && (decide (2 ≤ lead) &&
        (true)))))) (field v.toNat 2 6)) (field v.toNat 8 16)) (v.toNat % 4))) (emitting) (0x80000509)) = true :=
        by decide +kernel
    obtain ⟨h0, H⟩ := and_of H
    obtain ⟨h4, H⟩ := and_of H
    obtain ⟨h5, H⟩ := and_of H
    obtain ⟨h6, H⟩ := and_of H
    obtain ⟨h7, H⟩ := and_of H
    obtain ⟨h8, H⟩ := and_of H
    exact ⟨emitting, _, _, _, 0x80000509, h0, rfl, rfl, rfl, h4, h5, h6, h7, h8⟩),
   (by
    have H : ((fun (s : State) (v : BitVec 32) => decide (s.hostServes rCueSwitchReq = true) && ((fun (kind : Nat) =>
        (fun (gen : Nat) => (fun (lead : Nat) => decide (s.fld cueStatusLock = 4) && (decide (1 ≤ kind) &&
        (decide (bit v.toNat 31 = true) && (decide (lead < 2) && (true))))) (field v.toNat 2 6)) (field v.toNat 8 16)) (v.toNat %
        4))) (emitting) (0x80000507)) = true := by decide +kernel
    obtain ⟨h0, H⟩ := and_of H
    obtain ⟨h4, H⟩ := and_of H
    obtain ⟨h5, H⟩ := and_of H
    obtain ⟨h6, H⟩ := and_of H
    obtain ⟨h7, H⟩ := and_of H
    exact ⟨emitting, _, _, _, 0x80000507, h0, rfl, rfl, rfl, h4, h5, h6, h7⟩),
   (by
    have H : ((fun (s : State) (part : Nat) => decide (part < 8) && (decide (s.hostServes (rPartOp part) = true) &&
        (true))) (booted) (7)) = true := by decide +kernel
    obtain ⟨h0, H⟩ := and_of H
    obtain ⟨h1, H⟩ := and_of H
    exact ⟨booted, 7, h0, h1⟩),
   (by
    have H : ((fun (s : State) (tile : Nat) (now : Nat) => (fun (w : State) => decide (w.testsRun = true) &&
        (decide (w.testable tile = true) && (decide (w.rel.testOut = some tile ∨ (w.sched.intermission = true ∧
        tile ∈ w.dueTests)) && (true)))) (s.tick now)) ({ device with rel := { device.rel with testOut := some 143 } }) (143) (5))
        = true := by decide +kernel
    obtain ⟨h1, H⟩ := and_of H
    obtain ⟨h2, H⟩ := and_of H
    obtain ⟨h3, H⟩ := and_of H
    exact ⟨({ device with rel := { device.rel with testOut := some 143 } }), _, 143, 5, rfl, h1, h2, h3⟩)⟩

/-- A product of 1 × 1 FP32 operands on logical tile 143, under a shape entry where `mode` asks for one. -/
def mmDesc (op mode : Nat) : List Byte :=
  desc 1 op 1 ([(32, 1, 143), (34, 1, mode), (36, 2, 1), (38, 2, 1), (40, 2, 1)] ++ opAt 48 0 1 1 0 ++ opAt 64 128 1 1 0 ++
    opAt 80 256 1 1 0)

/-- The device with both operands 1.0. -/
def mmState (op : Nat) : State :=
  runs { aRun (mmDesc op 0) with tiles := [143] }
    ((device.sramWrite (sramTile 143) (leBytes 4 0x3F800000)).sramWrite (sramTile 143 + 64) (leBytes 4 0x3F800000))

/-- States that meet the hypotheses of `Obligations.MatrixItemsEnd`, one for each clause. -/
theorem witness_MatrixItemsEnd :
    (∃ (s s0 s1 s2 u : State) (run item op tile v : Nat) (r : Run) (e : ItemEnv) (p : MmPay) (lf : Option LaneFault),
        s.itemReady 1 op run item = some r ∧
      s0 = s.beginItem run item ∧
      e = r.env s item ∧
      p = mmPay r.desc.bytes ∧
      tile = itemTile r.desc.bytes item ∧
      u.CanEnd run item r ∧
      (mmCheck r.desc.bytes op).Gives e s0 () s0 ∧
      (mmPlanned p op tile item).Gives e s0 () s0 ∧
      (runTime p.shapeEn tile p.shape (if op = 2 then p.k else p.m)).Gives e s0 v s1 ∧
      (laneCheck tile lf).Gives e s1 () s2 ∧
      (if op = 2 then osBands p tile item v else wsBands p op tile item v).Gives e s2 () u) ∧
    (∃ (s s0 s1 u : State) (run item tile v : Nat) (r : Run) (e : ItemEnv) (p : SplitPay) (rp ry : List (Nat × Nat)),
        s.itemReady 1 3 run item = some r ∧
      s0 = s.beginItem run item ∧
      e = r.env s item ∧
      p = splitPay r.desc.bytes ∧
      tile = itemTile r.desc.bytes item ∧
      u.CanEnd run item r ∧
      (splitCheck r.desc.bytes).Gives e s0 () s0 ∧
      (splitRanges p tile item).Gives e s0 rp s0 ∧
      (planned p.y tile item p.m p.n).Gives e s0 ry s0 ∧
      rangesMeet ry rp = false ∧
      (runTime (bit p.mode 3) tile p.shape p.m).Gives e s0 v s1 ∧
      (splitRowsOf p tile item v 0).Gives e s1 () u) ∧
    (∃ (s s0 s1 s2 s3 s4 u : State) (run item base a f : Nat) (r : Run) (e : ItemEnv) (p : PairRec) (b : List Byte) (codes :
        List (List Nat)), s.itemReady 1 4 run item = some r ∧
      s0 = s.beginItem run item ∧
      e = r.env s item ∧
      u.CanEnd run item r ∧
      tileRangeOk r.desc.bytes = true ∧
      zeroAt (payloadOf r.desc.bytes) 2 14 = true ∧
      zeroAt (payloadOf r.desc.bytes) 24 72 = true ∧
      base = leAt r.desc.bytes 48 8 ∧
      base % 32 = 0 ∧
      a = base + 32 * item ∧
      s0.ownMem base 32 = true ∧
      s0.ownMem a 32 = true ∧
      (load a 32).Gives e s0 b s1 ∧
      p = pairRec a b ∧
      f = p.fmtByte % 16 ∧
      f ≤ 4 ∧
      p.fmtByte / 32 = 0 ∧
      (p.state = 1 ∨ p.state = 2) ∧
      p.rows ≠ 0 ∧
      p.cols ≠ 0 ∧
      (checkRead p.fwd (p.rows * copyPitch f p.cols)).Gives e s1 () s1 ∧
      (checkWrite p.bwd (p.cols * copyPitch f p.rows)).Gives e s1 () s1 ∧
      (setPairState p 2).Gives e s1 () s2 ∧
      (((List.range p.rows).mapM fun i => pairRow p.fwd f p.cols i).Gives e s2 codes s3) ∧
      (writeBwd p f codes p.cols).Gives e s3 () s4 ∧
      (commitPair p).Gives e s4 () u) :=
  ⟨(by
    have H : ((fun (s : State) (run : Nat) (item : Nat) (op : Nat) (r : Run) (lf : Option LaneFault) =>
        decide (s.itemReady 1 op run item = some r) && ((fun (s0 : State) => (fun (e : ItemEnv) => (fun (p : MmPay) =>
        (fun (tile : Nat) => givesLit () (ItemM.on (mmCheck r.desc.bytes op) e s0) s0 &&
        (givesLit () (ItemM.on (mmPlanned p op tile item) e s0) s0 && (onOk (ItemM.on (runTime p.shapeEn tile p.shape (if op = 2
        then p.k else p.m)) e s0) fun (v : Nat) (s1 : State) => onOkUnit (ItemM.on (laneCheck tile lf) e s1) fun (s2 : State) =>
        onOkUnit (ItemM.on (if op = 2 then osBands p tile item v else wsBands p op tile item v) e s2) fun (u : State) =>
        decide (canEnd u run item r = true) && (true)))) (itemTile r.desc.bytes item)) (mmPay r.desc.bytes)) (r.env s item))
        (s.beginItem run item))) (mmState 0) (1) (0) (0) ({ aRun (mmDesc 0 0) with tiles := [143] }) (none)) = true :=
        by decide +kernel
    obtain ⟨h0, H⟩ := and_of H
    obtain ⟨h6, H⟩ := and_lit H
    obtain ⟨h7, H⟩ := and_lit H
    obtain ⟨v, s1, h8, H⟩ := of_ok H
    obtain ⟨s2, h9, H⟩ := of_okUnit H
    obtain ⟨u, h10, H⟩ := of_okUnit H
    obtain ⟨h5, H⟩ := and_of H
    exact ⟨(mmState 0), _, _, _, _, 1, 0, 0, _, _, ({ aRun (mmDesc 0 0) with tiles := [143] }), _, _, none, h0, rfl, rfl, rfl,
        rfl, (canEnd_of h5), h6, h7, h8, h9, h10⟩),
   (by
    have H : ((fun (s : State) (run : Nat) (item : Nat) (r : Run) => decide (s.itemReady 1 3 run item = some r) &&
        ((fun (s0 : State) => (fun (e : ItemEnv) => (fun (p : SplitPay) => (fun (tile : Nat) =>
        givesLit () (ItemM.on (splitCheck r.desc.bytes) e s0) s0 && (onOkSame (ItemM.on (splitRanges p tile item) e s0) s0
        fun (rp : List (Nat × Nat)) => onOkSame (ItemM.on (planned p.y tile item p.m p.n) e s0) s0 fun (ry : List (Nat × Nat)) =>
        decide (rangesMeet ry rp = false) && (onOk (ItemM.on (runTime (bit p.mode 3) tile p.shape p.m) e s0)
        fun (v : Nat) (s1 : State) => onOkUnit (ItemM.on (splitRowsOf p tile item v 0) e s1) fun (u : State) =>
        decide (canEnd u run item r = true) && (true)))) (itemTile r.desc.bytes item)) (splitPay r.desc.bytes)) (r.env s item))
        (s.beginItem run item))) (runs (onTile (desc 1 3 1 ([(35, 1, 1), (36, 2, 1), (38, 2, 1), (40, 4,
        1)] ++ opAt 48 0 2 1 0 ++ opAt 80 256 1 1 0))) device) (1) (0) (onTile (desc 1 3 1 ([(35, 1, 1), (36, 2, 1), (38, 2, 1),
        (40, 4, 1)] ++ opAt 48 0 2 1 0 ++ opAt 80 256 1 1 0)))) = true := by decide +kernel
    obtain ⟨h0, H⟩ := and_of H
    obtain ⟨h6, H⟩ := and_lit H
    obtain ⟨rp, h7, H⟩ := of_okSame H
    obtain ⟨ry, h8, H⟩ := of_okSame H
    obtain ⟨h9, H⟩ := and_of H
    obtain ⟨v, s1, h10, H⟩ := of_ok H
    obtain ⟨u, h11, H⟩ := of_okUnit H
    obtain ⟨h5, H⟩ := and_of H
    exact ⟨(runs (onTile (desc 1 3 1 ([(35, 1, 1), (36, 2, 1), (38, 2, 1), (40, 4,
        1)] ++ opAt 48 0 2 1 0 ++ opAt 80 256 1 1 0))) device), _, _, _, 1, 0, _, _, (onTile (desc 1 3 1 ([(35, 1, 1), (36, 2, 1),
        (38, 2, 1), (40, 4, 1)] ++ opAt 48 0 2 1 0 ++ opAt 80 256 1 1 0))), _, _, _, _, h0, rfl, rfl, rfl, rfl, (canEnd_of h5),
        h6, h7, h8, h9, h10, h11⟩),
   (by
    have H : ((fun (s : State) (run : Nat) (item : Nat) (r : Run) => decide (s.itemReady 1 4 run item = some r) &&
        ((fun (s0 : State) => (fun (e : ItemEnv) => decide (tileRangeOk r.desc.bytes = true) &&
        (decide (zeroAt (payloadOf r.desc.bytes) 2 14 = true) && (decide (zeroAt (payloadOf r.desc.bytes) 24 72 = true) &&
        ((fun (base : Nat) => decide (base % 32 = 0) && ((fun (a : Nat) => decide (s0.ownMem base 32 = true) &&
        (decide (s0.ownMem a 32 = true) && (onOk (ItemM.on (load a 32) e s0) fun (b : List Byte) (s1 : State) =>
        (fun (p : PairRec) => (fun (f : Nat) => decide (f ≤ 4) && (decide (p.fmtByte / 32 = 0) && (decide (p.state = 1 ∨
        p.state = 2) && (decide (p.rows ≠ 0) && (decide (p.cols ≠ 0) && (givesLit () (ItemM.on (checkRead p.fwd (p.rows *
        copyPitch f p.cols)) e s1) s1 && (givesLit () (ItemM.on (checkWrite p.bwd (p.cols * copyPitch f p.rows)) e s1) s1 &&
        (onOkUnit (ItemM.on (setPairState p 2) e s1) fun (s2 : State) => onOk (ItemM.on ((List.range p.rows).mapM fun i =>
        pairRow p.fwd f p.cols i) e s2) fun (codes : List (List Nat)) (s3 : State) =>
        onOkUnit (ItemM.on (writeBwd p f codes p.cols) e s3) fun (s4 : State) => onOkUnit (ItemM.on (commitPair p) e s4)
        fun (u : State) => decide (canEnd u run item r = true) && (true))))))))) (p.fmtByte % 16)) (pairRec a b)))) (base + 32 *
        item))) (leAt r.desc.bytes 48 8))))) (r.env s item)) (s.beginItem run item))) (runs (onTile (desc 1 4 1 [(48, 8,
        0x1000)])) (place 0x1000 (blob 32 [(0, 8, 0x2000), (8, 8, 0x3000), (16, 2, 2), (18, 2, 1), (20, 1, 1), (21, 1,
        2)]) (place 0x2000 (leBytes 2 0x3C00) device))) (1) (0) (onTile (desc 1 4 1 [(48, 8, 0x1000)]))) = true :=
        by decide +kernel
    obtain ⟨h0, H⟩ := and_of H
    obtain ⟨h4, H⟩ := and_of H
    obtain ⟨h5, H⟩ := and_of H
    obtain ⟨h6, H⟩ := and_of H
    obtain ⟨h8, H⟩ := and_of H
    obtain ⟨h10, H⟩ := and_of H
    obtain ⟨h11, H⟩ := and_of H
    obtain ⟨b, s1, h12, H⟩ := of_ok H
    obtain ⟨h15, H⟩ := and_of H
    obtain ⟨h16, H⟩ := and_of H
    obtain ⟨h17, H⟩ := and_of H
    obtain ⟨h18, H⟩ := and_of H
    obtain ⟨h19, H⟩ := and_of H
    obtain ⟨h20, H⟩ := and_lit H
    obtain ⟨h21, H⟩ := and_lit H
    obtain ⟨s2, h22, H⟩ := of_okUnit H
    obtain ⟨codes, s3, h23, H⟩ := of_ok H
    obtain ⟨s4, h24, H⟩ := of_okUnit H
    obtain ⟨u, h25, H⟩ := of_okUnit H
    obtain ⟨h3, H⟩ := and_of H
    exact ⟨(runs (onTile (desc 1 4 1 [(48, 8, 0x1000)])) (place 0x1000 (blob 32 [(0, 8, 0x2000), (8, 8, 0x3000), (16, 2, 2),
        (18, 2, 1), (20, 1, 1), (21, 1, 2)]) (place 0x2000 (leBytes 2 0x3C00) device))), _, _, _, _, _, _, 1, 0, _, _, _,
        (onTile (desc 1 4 1 [(48, 8, 0x1000)])), _, _, _, _, h0, rfl, rfl, (canEnd_of h3), h4, h5, h6, rfl, h8, rfl, h10, h11,
        h12, rfl, rfl, h15, h16, h17, h18, h19, h20, h21, h22, h23, h24, h25⟩)⟩

/-- One query of one head over one page of one token, on logical tile 0, under a shape entry of 1. -/
def attnDesc : List Byte :=
  desc 2 0 1 ([(34, 1, 3), (40, 8, 0x1000)] ++ opAt 48 0 256 2 2 ++ opAt 64 0x10000 256 2 2 ++
    [(84, 4, 0x80000), (88, 8, 0x2000), (96, 4, 0x3F800000), (100, 2, 1), (102, 2, 1), (104, 4, 0x20000)])

/-- Its page table, sightline and shape entry placed; the block sees `n` ranges of the table. -/
def attnState (n : Nat) : State :=
  runs (onTile attnDesc)
    ((place 0x1000 (blob 64 [(0, 4, 1), (4, 1, 9), (5, 1, 2), (6, 2, 64), (8, 1, 1), (12, 4, 1)] ++
        leBytes 8 0x24000 ++ leBytes 8 0x34000)
      (place 0x20000 (leBytes 2 0xFF80) (place 0x2000 (blob 64 [(0, 4, 1), (4, 4,
          1)] ++ leBytes 8 (n * 2 ^ 32) ++ leBytes 8 (2 ^ 24)) device))).sramWrite
        (sramTile 0 + 0x10000) (leBytes 4 1) |>.sramWrite (sramTile 0) (leBytes 2 0x3F80))

/-- States that meet the hypotheses of `Obligations.AttentionEnds`, one for each clause. -/
theorem witness_AttentionEnds :
    (∃ (s s0 s1 s2 s3 s4 s5 s6 s7 s8 u : State) (run item tile v : Nat) (r : Run) (e : ItemEnv) (p : AttnPay) (lf : Option
        LaneFault) (pt : PageTable) (sight : List (Nat × Nat)) (pages : List Nat) (qs : List (List (List FVal))) (sts : List (List
        AttnAcc)), s.itemReady 2 0 run item = some r ∧
      s0 = s.beginItem run item ∧
      e = r.env s item ∧
      p = attnPay r.desc.bytes ∧
      tile = itemTile r.desc.bytes item ∧
      u.CanEnd run item r ∧
      (attnCheck r.desc.bytes).Gives e s0 () s0 ∧
      (attnBias r.desc.bytes).Gives e s0 () s0 ∧
      (runTime p.shapeEn tile p.shape 256).Gives e s0 v s1 ∧
      (loadTable p.pt).Gives e s1 pt s2 ∧
      p.head item < pt.heads ∧
      (attnPlanned p tile item (p.nk * p.g * pt.dim)).Gives e s2 () s2 ∧
      (sightPages p.sight (p.qb item)).Gives e s2 sight s3 ∧
      pages = visited (ceilDiv pt.length pt.tokens) sight ∧
      (laneCheck tile lf).Gives e s3 () s4 ∧
      (attnQueries p tile item pt.dim v).Gives e s4 qs s5 ∧
      (p.biasEn = true ∧ pages ≠ [] → (sramTable (sramBias (tile / 18) s5.bias.front) s5.bias.image.length).Gives e s5 () s6) ∧
      (¬(p.biasEn = true ∧ pages ≠ []) → s6 = s5) ∧
      (attnPages p pt { scale := ofF32 p.scale, qFmt := p.q.fmt, kvFmt := pt.fmt, dim := pt.dim } item qs pages
          (List.replicate v (List.replicate p.g (AttnAcc.init pt.dim)))).Gives e s6 sts s7 ∧
      (pages = [] → s8 = s7) ∧
      (pages ≠ [] → (fillScratch tile p.scratch).Gives e s7 () s8) ∧
      (attnWrite p tile item pt.dim 0 sts).Gives e s8 () u) :=
  (by
    have H : ((fun (s : State) (run : Nat) (item : Nat) (r : Run) (lf : Option LaneFault) =>
        decide (s.itemReady 2 0 run item = some r) && ((fun (s0 : State) => (fun (e : ItemEnv) => (fun (p : AttnPay) =>
        (fun (tile : Nat) => givesLit () (ItemM.on (attnCheck r.desc.bytes) e s0) s0 &&
        (givesLit () (ItemM.on (attnBias r.desc.bytes) e s0) s0 && (onOk (ItemM.on (runTime p.shapeEn tile p.shape 256) e s0)
        fun (v : Nat) (s1 : State) => onOk (ItemM.on (loadTable p.pt) e s1) fun (pt : PageTable) (s2 : State) =>
        decide (p.head item < pt.heads) && (givesLit () (ItemM.on (attnPlanned p tile item (p.nk * p.g * pt.dim)) e s2) s2 &&
        (onOk (ItemM.on (sightPages p.sight (p.qb item)) e s2) fun (sight : List (Nat × Nat)) (s3 : State) =>
        (fun (pages : List Nat) => onOkUnit (ItemM.on (laneCheck tile lf) e s3) fun (s4 : State) =>
        onOk (ItemM.on (attnQueries p tile item pt.dim v) e s4) fun (qs : List (List (List FVal))) (s5 : State) =>
        decide (¬ (p.biasEn = true ∧ pages ≠ [])) && ((fun (s6 : State) => onOk (ItemM.on (attnPages p pt
        { scale := ofF32 p.scale, qFmt := p.q.fmt, kvFmt := pt.fmt, dim := pt.dim } item qs pages (List.replicate v
        (List.replicate p.g (AttnAcc.init pt.dim)))) e s6) fun (sts : List (List AttnAcc)) (s7 : State) => (fun (s8 : State) =>
        decide (pages = []) && (onOkUnit (ItemM.on (attnWrite p tile item pt.dim 0 sts) e s8) fun (u : State) =>
        decide (canEnd u run item r = true) && (true))) (s7)) (s5))) (visited (ceilDiv pt.length pt.tokens) sight)))))) (itemTile
        r.desc.bytes item)) (attnPay r.desc.bytes)) (r.env s item)) (s.beginItem run item))) (attnState 0) (1) (0) (onTile
        attnDesc) (none)) = true := by decide +kernel
    obtain ⟨h0, H⟩ := and_of H
    obtain ⟨h6, H⟩ := and_lit H
    obtain ⟨h7, H⟩ := and_lit H
    obtain ⟨v, s1, h8, H⟩ := of_ok H
    obtain ⟨pt, s2, h9, H⟩ := of_ok H
    obtain ⟨h10, H⟩ := and_of H
    obtain ⟨h11, H⟩ := and_lit H
    obtain ⟨sight, s3, h12, H⟩ := of_ok H
    obtain ⟨s4, h14, H⟩ := of_okUnit H
    obtain ⟨qs, s5, h15, H⟩ := of_ok H
    obtain ⟨h16, H⟩ := and_of H
    obtain ⟨sts, s7, h18, H⟩ := of_ok H
    obtain ⟨h20, H⟩ := and_of H
    obtain ⟨u, h21, H⟩ := of_okUnit H
    obtain ⟨h5, H⟩ := and_of H
    exact ⟨(attnState 0), _, _, _, _, _, _, _, _, _, _, 1, 0, _, _, (onTile attnDesc), _, _, none, _, _, _, _, _, h0, rfl,
        rfl, rfl, rfl, (canEnd_of h5), h6, h7, h8, h9, h10, h11, h12, rfl, h14, h15, (fun h => absurd h h16), (fun _ => rfl), h18,
        (fun _ => rfl), (fun h => absurd h20 h), h21⟩)

end Sys2Proof.Tests
end

