-- ==== Sys2Proof/Tests/Witness04.lean ====
section
/-! SUPPORT. States that meet the hypotheses of the statements. -/

set_option Elab.async false
namespace Sys2Proof.Tests
open Sys2Proof.Machine

/-- A vector program of two instructions at 0x1000, with its streams at 0x2000: it stores 1.0 to stream `k` of 1 × 1. -/
def vpDesc (mode n pairAddr : Nat) : List Byte :=
  desc 3 0 1 [(34, 1, mode), (35, 1, 2), (36, 2, n), (38, 2, n), (40, 4, 0x2000), (44, 4, 0x4000), (72, 8, pairAddr)]

def vpState (k : Nat) (d table : List Byte) (s : State) : State :=
  runs (onTile d) ((s.sramWrite (sramTile 0 + 0x1000) (leBytes 8 (0x3F800000 * 2 ^ 32 + 3) ++ leBytes 8 (2 + k * 2 ^
      24))).sramWrite
    (sramTile 0 + 0x2000) table)

/-- A pair record at 0x1000 of one FP32 element, with its copies at 0x2000 and 0x3000. -/
def pairRec1 : List Byte := blob 32 [(0, 8, 0x2000), (8, 8, 0x3000), (16, 2, 1), (18, 2, 1)]

/-- A row operator on one FP32 element, to format 3 in `QUANT`. -/
def rowDesc : List Byte := desc 3 4 1 ([(36, 2, 1), (38, 2, 1)] ++ opAt 48 0 1 1 0 ++ opAt 80 256 1 1 3)

/-- A merge of one source of one head of 64 elements: accumulators at 0, statistics at 0x800 and 0x1000. -/
def mergeDesc : List Byte :=
  desc 3 3 1 ([(36, 2, 1), (38, 2, 1), (40, 2, 64), (64, 4, 0x1000), (72, 4, 0x2000)] ++ opAt 48 0 1 4 0 ++ opAt 80 0x3000 1 4 0)

/-- States that meet the hypotheses of `Obligations.VectorItemsEnd`, one for each clause. -/
theorem witness_VectorItemsEnd :
    (∃ (s s0 s1 s2 s3 u : State) (run item tile : Nat) (r : Run) (e : ItemEnv) (p : VpPay) (c : VpCtx),
        s.itemReady 3 0 run item = some r ∧
      s0 = s.beginItem run item ∧
      e = r.env s item ∧
      p = vpPay r.desc.bytes ∧
      tile = itemTile r.desc.bytes item ∧
      u.CanEnd run item r ∧
      boundGen.Gives e s0 r.fnGen s0 ∧
      (vpPayCheck r.desc.bytes).Gives e s0 () s0 ∧
      (vpRead p tile).Gives e s0 c s1 ∧
      (vpCheck c tile r.fnGen (hdrItems r.desc.bytes + 1) (s1.flag (ctxArithCompat r.ctx))).Gives e s1 () s1 ∧
      (c.prec = false → s2 = s1) ∧
      (c.prec = true → (modifyItem fun x => { x with noted := cellPut x.noted nkPrec (some [1]) }).Gives e s1 () s2) ∧
      (vPlanned c tile item).Gives e s2 () s2 ∧
      (fnReadable c tile r.fnGen).Gives e s2 () s3 ∧
      ∃ (v : Nat) (s4 : State), p.pair = false ∧
      (runTime p.shapeEn tile p.shape p.rows).Gives e s3 v s4 ∧
      (vRows c tile item r.fnGen v 0).Gives e s4 () u) ∧
    (∃ (s s0 s1 s2 s3 u : State) (run item tile : Nat) (r : Run) (e : ItemEnv) (p : VpPay) (c : VpCtx),
        s.itemReady 3 0 run item = some r ∧
      s0 = s.beginItem run item ∧
      e = r.env s item ∧
      p = vpPay r.desc.bytes ∧
      tile = itemTile r.desc.bytes item ∧
      u.CanEnd run item r ∧
      boundGen.Gives e s0 r.fnGen s0 ∧
      (vpPayCheck r.desc.bytes).Gives e s0 () s0 ∧
      (vpRead p tile).Gives e s0 c s1 ∧
      (vpCheck c tile r.fnGen (hdrItems r.desc.bytes + 1) (s1.flag (ctxArithCompat r.ctx))).Gives e s1 () s1 ∧
      (c.prec = false → s2 = s1) ∧
      (c.prec = true → (modifyItem fun x => { x with noted := cellPut x.noted nkPrec (some [1]) }).Gives e s1 () s2) ∧
      (vPlanned c tile item).Gives e s2 () s2 ∧
      (fnReadable c tile r.fnGen).Gives e s2 () s3 ∧
      ∃ (s4 : State) (b : Nat) (sq : List (List (Rounding × FVal))), p.pair = true ∧
      b = ceilDiv c.pair.cols 128 ∧
      (pairSquare c tile item r.fnGen (item / b) (item % b)).Gives e s3 sq s4 ∧
      (storeSquare c.pair (item / b) (item % b) sq).Gives e s4 () u) ∧
    (∃ (s s0 s1 s2 u : State) (run item op tile v : Nat) (r : Run) (e : ItemEnv) (p : RowPay) (g : List FVal),
        s.itemReady 3 op run item = some r ∧
      s0 = s.beginItem run item ∧
      e = r.env s item ∧
      p = rowPay r.desc.bytes ∧
      tile = itemTile r.desc.bytes item ∧
      u.CanEnd run item r ∧
      (rowCheck r.desc.bytes).Gives e s0 () s0 ∧
      (rowPlanned p tile item).Gives e s0 () s0 ∧
      (runTime p.shapeEn tile p.shape p.m).Gives e s0 v s1 ∧
      (p.gammaEn = true → (readRow p.g tile item 0 p.n 0).Gives e s1 g s2) ∧
      (p.gammaEn = false → g = List.replicate p.n (FVal.ofNat 1) ∧ s2 = s1) ∧
      (rowsOf p tile item g v 0).Gives e s2 () u) ∧
    (∃ (s s0 s1 u : State) (run item tile v : Nat) (r : Run) (e : ItemEnv) (p : MergePay), s.itemReady 3 3 run item = some r ∧
      s0 = s.beginItem run item ∧
      e = r.env s item ∧
      p = mergePay r.desc.bytes ∧
      tile = itemTile r.desc.bytes item ∧
      u.CanEnd run item r ∧
      (mergeCheck r.desc.bytes).Gives e s0 () s0 ∧
      (mergePlanned p tile item).Gives e s0 () s0 ∧
      (runTime p.shapeEn tile p.shape p.m).Gives e s0 v s1 ∧
      (mergeRows p tile item v 0).Gives e s1 () u) :=
  ⟨(by
    have H : ((fun (s : State) (run : Nat) (item : Nat) (r : Run) => decide (s.itemReady 3 0 run item = some r) &&
        ((fun (s0 : State) => (fun (e : ItemEnv) => (fun (p : VpPay) => (fun (tile : Nat) =>
        givesLit r.fnGen (ItemM.on boundGen e s0) s0 && (givesLit () (ItemM.on (vpPayCheck r.desc.bytes) e s0) s0 &&
        (onOk (ItemM.on (vpRead p tile) e s0) fun (c : VpCtx) (s1 : State) => givesLit () (ItemM.on (vpCheck c tile r.fnGen
        (hdrItems r.desc.bytes + 1) (s1.flag (ctxArithCompat r.ctx))) e s1) s1 && ((fun (s2 : State) =>
        decide (¬ (c.prec = true)) && (givesLit () (ItemM.on (vPlanned c tile item) e s2) s2 &&
        (onOkUnit (ItemM.on (fnReadable c tile r.fnGen) e s2) fun (s3 : State) => decide (p.pair = false) &&
        (onOk (ItemM.on (runTime p.shapeEn tile p.shape p.rows) e s3) fun (v : Nat) (s4 : State) =>
        onOkUnit (ItemM.on (vRows c tile item r.fnGen v 0) e s4) fun (u : State) => decide (canEnd u run item r = true) &&
        (true))))) (s1))))) (itemTile r.desc.bytes item)) (vpPay r.desc.bytes)) (r.env s item)) (s.beginItem run item))) (vpState
        0 (vpDesc 0 1 0) (blob 128 (opAt 0 0 1 1 0)) device) (1) (0) (onTile (vpDesc 0 1 0))) = true := by decide +kernel
    obtain ⟨h0, H⟩ := and_of H
    obtain ⟨h6, H⟩ := and_lit H
    obtain ⟨h7, H⟩ := and_lit H
    obtain ⟨c, s1, h8, H⟩ := of_ok H
    obtain ⟨h9, H⟩ := and_lit H
    obtain ⟨h11, H⟩ := and_of H
    obtain ⟨h12, H⟩ := and_lit H
    obtain ⟨s3, h13, H⟩ := of_okUnit H
    obtain ⟨h14, H⟩ := and_of H
    obtain ⟨v, s4, h15, H⟩ := of_ok H
    obtain ⟨u, h16, H⟩ := of_okUnit H
    obtain ⟨h5, H⟩ := and_of H
    exact ⟨(vpState 0 (vpDesc 0 1 0) (blob 128 (opAt 0 0 1 1 0)) device), _, _, _, _, _, 1, 0, _, (onTile (vpDesc 0 1 0)), _,
        _, _, h0, rfl, rfl, rfl, rfl, (canEnd_of h5), h6, h7, h8, h9, (fun _ => rfl), (fun h => absurd h h11), h12, h13, _, _,
        h14, h15, h16⟩),
   (by
    have H : ((fun (s : State) (run : Nat) (item : Nat) (r : Run) => decide (s.itemReady 3 0 run item = some r) &&
        ((fun (s0 : State) => (fun (e : ItemEnv) => (fun (p : VpPay) => (fun (tile : Nat) =>
        givesLit r.fnGen (ItemM.on boundGen e s0) s0 && (givesLit () (ItemM.on (vpPayCheck r.desc.bytes) e s0) s0 &&
        (onOk (ItemM.on (vpRead p tile) e s0) fun (c : VpCtx) (s1 : State) => givesLit () (ItemM.on (vpCheck c tile r.fnGen
        (hdrItems r.desc.bytes + 1) (s1.flag (ctxArithCompat r.ctx))) e s1) s1 && ((fun (s2 : State) =>
        decide (¬ (c.prec = true)) && (givesLit () (ItemM.on (vPlanned c tile item) e s2) s2 &&
        (onOkUnit (ItemM.on (fnReadable c tile r.fnGen) e s2) fun (s3 : State) => decide (p.pair = true) && ((fun (b : Nat) =>
        onOk (ItemM.on (pairSquare c tile item r.fnGen (item / b) (item % b)) e s3)
        fun (sq : List (List (Rounding × FVal))) (s4 : State) => onOkUnit (ItemM.on (storeSquare c.pair (item / b) (item % b) sq)
        e s4) fun (u : State) => decide (canEnd u run item r = true) && (true)) (ceilDiv c.pair.cols 128))))) (s1))))) (itemTile
        r.desc.bytes item)) (vpPay r.desc.bytes)) (r.env s item)) (s.beginItem run item))) (vpState 7 (vpDesc 1 128 0x1000) (blob
        128 []) (place 0x1000 pairRec1 device)) (1) (0) (onTile (vpDesc 1 128 0x1000))) = true := by decide +kernel
    obtain ⟨h0, H⟩ := and_of H
    obtain ⟨h6, H⟩ := and_lit H
    obtain ⟨h7, H⟩ := and_lit H
    obtain ⟨c, s1, h8, H⟩ := of_ok H
    obtain ⟨h9, H⟩ := and_lit H
    obtain ⟨h11, H⟩ := and_of H
    obtain ⟨h12, H⟩ := and_lit H
    obtain ⟨s3, h13, H⟩ := of_okUnit H
    obtain ⟨h14, H⟩ := and_of H
    obtain ⟨sq, s4, h16, H⟩ := of_ok H
    obtain ⟨u, h17, H⟩ := of_okUnit H
    obtain ⟨h5, H⟩ := and_of H
    exact ⟨(vpState 7 (vpDesc 1 128 0x1000) (blob 128 []) (place 0x1000 pairRec1 device)), _, _, _, _, _, 1, 0, _,
        (onTile (vpDesc 1 128 0x1000)), _, _, _, h0, rfl, rfl, rfl, rfl, (canEnd_of h5), h6, h7, h8, h9, (fun _ => rfl), (fun h =>
        absurd h h11), h12, h13, _, _, _, h14, rfl, h16, h17⟩),
   (by
    have H : ((fun (s : State) (run : Nat) (item : Nat) (op : Nat) (r : Run) => decide (s.itemReady 3 op run item = some r) &&
        ((fun (s0 : State) => (fun (e : ItemEnv) => (fun (p : RowPay) => (fun (tile : Nat) =>
        givesLit () (ItemM.on (rowCheck r.desc.bytes) e s0) s0 && (givesLit () (ItemM.on (rowPlanned p tile item) e s0) s0 &&
        (onOk (ItemM.on (runTime p.shapeEn tile p.shape p.m) e s0) fun (v : Nat) (s1 : State) => decide (¬ (p.gammaEn = true)) &&
        ((fun (s2 : State) => (fun (g : List FVal) => decide (g = List.replicate p.n (FVal.ofNat 1) ∧ s2 = s1) &&
        (onOkUnit (ItemM.on (rowsOf p tile item g v 0) e s2) fun (u : State) => decide (canEnd u run item r = true) &&
        (true))) (List.replicate p.n (FVal.ofNat 1))) (s1))))) (itemTile r.desc.bytes item)) (rowPay r.desc.bytes)) (r.env s
        item)) (s.beginItem run item))) (runs (onTile rowDesc) (device.sramWrite (sramTile 0) (leBytes 4 0x3F800000))) (1) (0) (4)
        (onTile rowDesc)) = true := by decide +kernel
    obtain ⟨h0, H⟩ := and_of H
    obtain ⟨h6, H⟩ := and_lit H
    obtain ⟨h7, H⟩ := and_lit H
    obtain ⟨v, s1, h8, H⟩ := of_ok H
    obtain ⟨h9, H⟩ := and_of H
    obtain ⟨h10, H⟩ := and_of H
    obtain ⟨u, h11, H⟩ := of_okUnit H
    obtain ⟨h5, H⟩ := and_of H
    exact ⟨(runs (onTile rowDesc) (device.sramWrite (sramTile 0) (leBytes 4 0x3F800000))), _, _, _, _, 1, 0, 4, _, _,
        (onTile rowDesc), _, _, _, h0, rfl, rfl, rfl, rfl, (canEnd_of h5), h6, h7, h8, (fun h => absurd h h9), (fun _ => h10),
        h11⟩),
   (by
    have H : ((fun (s : State) (run : Nat) (item : Nat) (r : Run) => decide (s.itemReady 3 3 run item = some r) &&
        ((fun (s0 : State) => (fun (e : ItemEnv) => (fun (p : MergePay) => (fun (tile : Nat) =>
        givesLit () (ItemM.on (mergeCheck r.desc.bytes) e s0) s0 && (givesLit () (ItemM.on (mergePlanned p tile item) e s0) s0 &&
        (onOk (ItemM.on (runTime p.shapeEn tile p.shape p.m) e s0) fun (v : Nat) (s1 : State) =>
        onOkUnit (ItemM.on (mergeRows p tile item v 0) e s1) fun (u : State) => decide (canEnd u run item r = true) &&
        (true)))) (itemTile r.desc.bytes item)) (mergePay r.desc.bytes)) (r.env s item)) (s.beginItem run item))) (runs (onTile
        mergeDesc) device) (1) (0) (onTile mergeDesc)) = true := by decide +kernel
    obtain ⟨h0, H⟩ := and_of H
    obtain ⟨h6, H⟩ := and_lit H
    obtain ⟨h7, H⟩ := and_lit H
    obtain ⟨v, s1, h8, H⟩ := of_ok H
    obtain ⟨u, h9, H⟩ := of_okUnit H
    obtain ⟨h5, H⟩ := and_of H
    exact ⟨(runs (onTile mergeDesc) device), _, _, _, 1, 0, _, _, (onTile mergeDesc), _, _, h0, rfl, rfl, rfl, rfl,
        (canEnd_of h5), h6, h7, h8, h9⟩)⟩

/-- A 1 × 1 × 1 window over one planar FP32 element of one channel; the kernel of `CONV` is at 64, the output at 128. -/
def convDesc (op : Nat) : List Byte :=
  desc 4 op 1 ([(35, 1, 10), (36, 2, 1), (38, 2, 1), (40, 2, 1), (42, 2, 1), (44, 2, 1), (46, 1, 1), (47, 1, 1), (48, 1, 1)] ++
    opAt 64 0 1 1 0 ++ (if op = 0 then opAt 80 128 1 1 0 else []) ++ opAt 96 256 1 1 0)

def convState (op : Nat) : State :=
  runs (onTile (convDesc op))
    ((device.sramWrite (sramTile 0) (leBytes 4 0x3F800000)).sramWrite (sramTile 0 + 64) (leBytes 4 0x3F800000))

/-- One box: sources at 0 and 0x800, result at 0x1000. -/
def boxDesc (op keep : Nat) : List Byte :=
  desc 4 op 1 [(36, 2, 1), (38, 2, keep), (48, 4, 0x1000), (52, 4, 0x2000)]

/-- States that meet the hypotheses of `Obligations.ConvolutionItemsEnd`, one for each clause. -/
theorem witness_ConvolutionItemsEnd :
    (∃ (s s0 s1 u : State) (run item tile : Nat) (r : Run) (e : ItemEnv) (p : ConvPay) (dt : ConvDim), s0 = s.beginItem run item ∧
      e = r.env s item ∧
      p = convPay r.desc.bytes ∧
      tile = itemTile r.desc.bytes item ∧
      u.CanEnd run item r ∧
      (convCheck r.desc.bytes).Gives e s0 () s0 ∧
      (convPlanned p tile item).Gives e s0 () s0 ∧
      (convFrames p tile).Gives e s0 dt s1 ∧
      ∃ (lf : Option LaneFault) (s2 s3 s4 s5 : State) (xs kernel old : List (List FVal)), s.itemReady 4 0 run item = some r ∧
      ((tensorRows p.xT dt.n fun k => readRow p.x tile item k p.xT.len 0).Gives e s1 xs s2) ∧
      (readRows p.k tile item p.kLen 0 p.cout).Gives e s2 kernel s3 ∧
      (p.acc = true → (tensorRows p.yT dt.out fun k => readRow p.y tile item k p.yT.len 0).Gives e s3 old s4) ∧
      (p.acc = false → old = [] ∧ s4 = s3) ∧
      (laneCheck tile lf).Gives e s4 () s5 ∧
      (p.wino = false → (writeTensor p tile item dt.out (p.outAt ((directOut p dt xs old kernel).map Prod.fst))).Gives e
          (s5.countSkips ((directOut p dt xs old kernel).foldl (fun a x => a + x.2) 0)) () u) ∧
      (p.wino = true → (writeTensor p tile item dt.out (p.winoAt dt.out ((winoTiles p dt xs kernel).map Prod.fst)
          old)).Gives e (s5.countSkips ((winoTiles p dt xs kernel).foldl (fun a x => a + x.2) 0)) () u)) ∧
    (∃ (s s0 s1 u : State) (run item tile : Nat) (r : Run) (e : ItemEnv) (p : ConvPay) (dt : ConvDim), s0 = s.beginItem run item ∧
      e = r.env s item ∧
      p = convPay r.desc.bytes ∧
      tile = itemTile r.desc.bytes item ∧
      u.CanEnd run item r ∧
      (convCheck r.desc.bytes).Gives e s0 () s0 ∧
      (convPlanned p tile item).Gives e s0 () s0 ∧
      (convFrames p tile).Gives e s0 dt s1 ∧
      ∃ (w : Nat) (s2 s3 : State) (xs : List (List Nat)), s.itemReady 4 1 run item = some r ∧
      w = elemBits p.x.fmt ∧
      ((tensorRows p.xT dt.n fun k => do return unpackRow w p.xT.len (← locLoad tile p.x.base (p.x.row item k * 64 *
          p.x.pitch) (rowBytes p.x.fmt p.xT.len))).Gives e s1 xs s2) ∧
      (rowsClear p.y tile item p.yLen (List.range (p.positions dt).length)).Gives e s2 () s3 ∧
      (((p.positions dt).zipIdx.forM fun (o, n) => locStore tile p.y.base (p.y.row item n * 64 * p.y.pitch) (packBits w
          (p.patch dt 0 (tensorAt p.xT dt.n 0 xs) o))).Gives e s3 () u)) ∧
    (∃ (s s0 s1 u : State) (run item tile : Nat) (r : Run) (e : ItemEnv) (p : ConvPay) (dt : ConvDim), s0 = s.beginItem run item ∧
      e = r.env s item ∧
      p = convPay r.desc.bytes ∧
      tile = itemTile r.desc.bytes item ∧
      u.CanEnd run item r ∧
      (convCheck r.desc.bytes).Gives e s0 () s0 ∧
      (convPlanned p tile item).Gives e s0 () s0 ∧
      (convFrames p tile).Gives e s0 dt s1 ∧
      ∃ (s2 s3 : State) (xs : List (List FVal)), s.itemReady 4 2 run item = some r ∧
      ((tensorRows p.xT dt.n fun k => readRow p.x tile item k p.xT.len 0).Gives e s1 xs s2) ∧
      ((rowsClear p.y tile item p.yLen ((p.lines dt.out).map fun (cb, t, y) => p.yT.row cb t y)).Gives e s2 () s3) ∧
      ((writeTensor p tile item dt.out fun c f y x => poolValue p (p.tapList.filterMap fun j => (p.tapAt dt (f, y, x) j).map
          fun (a, b, d) => tensorAt p.xT dt.n FVal.zero xs c a b d)).Gives e s3 () u)) ∧
    (∃ (s s0 s1 s2 s3 u : State) (run item tile v : Nat) (r : Run) (e : ItemEnv) (p : BoxPay), s0 = s.beginItem run item ∧
      e = r.env s item ∧
      p = boxPay r.desc.bytes ∧
      tile = itemTile r.desc.bytes item ∧
      (runTime p.shapeEn tile p.shape p.n).Gives e s0 v s1 ∧
      u.CanEnd run item r ∧
      ∃ (ds as : List FVal), s.itemReady 4 3 run item = some r ∧
      (boxCheck r.desc.bytes false).Gives e s0 () s0 ∧
      (loadF32s tile p.srcA (item * p.n * 16) (4 * v)).Gives e s1 ds s2 ∧
      (loadF32s tile p.srcB (item * p.n * 16) (4 * v)).Gives e s2 as s3 ∧
      ((locStore tile p.dst (item * p.n * 16) (((List.range v).flatMap fun c =>
          decodeBox p ((ds.drop (4 * c)).take 4) ((as.drop (4 * c)).take 4)).flatMap fun x =>
          leBytes 4 (toF32 x))).Gives e s3 () u)) ∧
    (∃ (s s0 s1 s2 s3 u : State) (run item tile v : Nat) (r : Run) (e : ItemEnv) (p : BoxPay), s0 = s.beginItem run item ∧
      e = r.env s item ∧
      p = boxPay r.desc.bytes ∧
      tile = itemTile r.desc.bytes item ∧
      (runTime p.shapeEn tile p.shape p.n).Gives e s0 v s1 ∧
      u.CanEnd run item r ∧
      ∃ (bs sc : List FVal) (cand kept : List Nat), s.itemReady 4 4 run item = some r ∧
      (boxCheck r.desc.bytes true).Gives e s0 () s0 ∧
      (loadF32s tile p.srcA (item * p.n * 16) (4 * v)).Gives e s1 bs s2 ∧
      (loadF32s tile p.srcB (item * p.n * 4) v).Gives e s2 sc s3 ∧
      (cand = (List.range v).filter (fun c => (ofF32 p.p1).le (sc.getD c .nan))) ∧
      (kept = nmsKeep (ofF32 p.p0) p.keepMax (fun c => (bs.drop (4 * c)).take 4) (sortBy (fun a b => (sc.getD b .nan).lt (sc.getD a .nan) || (!(sc.getD a .nan).lt (sc.getD b .nan) && decide (a < b))) cand) []) ∧
      (locStore tile p.dst (item * 64 * ceilDiv (4 + 2 * p.keepMax) 64) (leBytes 4 kept.length ++ (kept.flatMap (leBytes 2))
          ++ (List.replicate (p.keepMax - kept.length) [0xFF, 0xFF]).flatten)).Gives e s3 () u) :=
  ⟨(by
    have H : ((fun (s : State) (run : Nat) (item : Nat) (r : Run) (lf : Option LaneFault) (old : List (List FVal)) =>
        (fun (s0 : State) => (fun (e : ItemEnv) => (fun (p : ConvPay) => (fun (tile : Nat) =>
        givesLit () (ItemM.on (convCheck r.desc.bytes) e s0) s0 && (givesLit () (ItemM.on (convPlanned p tile item) e s0) s0 &&
        (onOk (ItemM.on (convFrames p tile) e s0) fun (dt : ConvDim) (s1 : State) => decide (s.itemReady 4 0 run item = some r) &&
        (onOk (ItemM.on (tensorRows p.xT dt.n fun k => readRow p.x tile item k p.xT.len 0) e s1)
        fun (xs : List (List FVal)) (s2 : State) => onOk (ItemM.on (readRows p.k tile item p.kLen 0 p.cout) e s2)
        fun (kernel : List (List FVal)) (s3 : State) => decide (¬ (p.acc = true)) && (decide (¬ (p.wino = true)) &&
        ((fun (s4 : State) => decide (old = [] ∧ s4 = s3) && (onOkUnit (ItemM.on (laneCheck tile lf) e s4) fun (s5 : State) =>
        onOkUnit (ItemM.on (writeTensor p tile item dt.out (p.outAt ((directOut p dt xs old kernel).map Prod.fst))) e
        (s5.countSkips ((directOut p dt xs old kernel).foldl (fun a x => a + x.2) 0))) fun (u : State) =>
        decide (canEnd u run item r = true) && (true))) (s3))))))) (itemTile r.desc.bytes item)) (convPay r.desc.bytes)) (r.env s
        item)) (s.beginItem run item)) (convState 0) (1) (0) (onTile (convDesc 0)) (none) ([])) = true := by decide +kernel
    obtain ⟨h5, H⟩ := and_lit H
    obtain ⟨h6, H⟩ := and_lit H
    obtain ⟨dt, s1, h7, H⟩ := of_ok H
    obtain ⟨h8, H⟩ := and_of H
    obtain ⟨xs, s2, h9, H⟩ := of_ok H
    obtain ⟨kernel, s3, h10, H⟩ := of_ok H
    obtain ⟨h11, H⟩ := and_of H
    obtain ⟨h15, H⟩ := and_of H
    obtain ⟨h12, H⟩ := and_of H
    obtain ⟨s5, h13, H⟩ := of_okUnit H
    obtain ⟨u, h14, H⟩ := of_okUnit H
    obtain ⟨h4, H⟩ := and_of H
    exact ⟨(convState 0), _, _, _, 1, 0, _, (onTile (convDesc 0)), _, _, _, rfl, rfl, rfl, rfl, (canEnd_of h4), h5, h6, h7,
        none, _, _, _, _, _, _, [], h8, h9, h10, (fun h => absurd h h11), (fun _ => h12), h13, (fun _ => h14), (fun h =>
        absurd h h15)⟩),
   (by
    have H : ((fun (s : State) (run : Nat) (item : Nat) (r : Run) => (fun (s0 : State) => (fun (e : ItemEnv) =>
        (fun (p : ConvPay) => (fun (tile : Nat) => givesLit () (ItemM.on (convCheck r.desc.bytes) e s0) s0 &&
        (givesLit () (ItemM.on (convPlanned p tile item) e s0) s0 && (onOk (ItemM.on (convFrames p tile) e s0)
        fun (dt : ConvDim) (s1 : State) => decide (s.itemReady 4 1 run item = some r) && ((fun (w : Nat) =>
        onOk (ItemM.on (tensorRows p.xT dt.n fun k => do return unpackRow w p.xT.len (← locLoad tile p.x.base (p.x.row item k * 64
        * p.x.pitch) (rowBytes p.x.fmt p.xT.len))) e s1) fun (xs : List (List Nat)) (s2 : State) =>
        onOkUnit (ItemM.on (rowsClear p.y tile item p.yLen (List.range (p.positions dt).length)) e s2) fun (s3 : State) =>
        onOkUnit (ItemM.on ((p.positions dt).zipIdx.forM fun (o, n) => locStore tile p.y.base (p.y.row item n * 64 * p.y.pitch)
        (packBits w (p.patch dt 0 (tensorAt p.xT dt.n 0 xs) o))) e s3) fun (u : State) => decide (canEnd u run item r = true) &&
        (true)) (elemBits p.x.fmt))))) (itemTile r.desc.bytes item)) (convPay r.desc.bytes)) (r.env s item)) (s.beginItem run
        item)) (convState 1) (1) (0) (onTile (convDesc 1))) = true := by decide +kernel
    obtain ⟨h5, H⟩ := and_lit H
    obtain ⟨h6, H⟩ := and_lit H
    obtain ⟨dt, s1, h7, H⟩ := of_ok H
    obtain ⟨h8, H⟩ := and_of H
    obtain ⟨xs, s2, h10, H⟩ := of_ok H
    obtain ⟨s3, h11, H⟩ := of_okUnit H
    obtain ⟨u, h12, H⟩ := of_okUnit H
    obtain ⟨h4, H⟩ := and_of H
    exact ⟨(convState 1), _, _, _, 1, 0, _, (onTile (convDesc 1)), _, _, _, rfl, rfl, rfl, rfl, (canEnd_of h4), h5, h6, h7, _,
        _, _, _, h8, rfl, h10, h11, h12⟩),
   (by
    have H : ((fun (s : State) (run : Nat) (item : Nat) (r : Run) => (fun (s0 : State) => (fun (e : ItemEnv) =>
        (fun (p : ConvPay) => (fun (tile : Nat) => givesLit () (ItemM.on (convCheck r.desc.bytes) e s0) s0 &&
        (givesLit () (ItemM.on (convPlanned p tile item) e s0) s0 && (onOk (ItemM.on (convFrames p tile) e s0)
        fun (dt : ConvDim) (s1 : State) => decide (s.itemReady 4 2 run item = some r) && (onOk (ItemM.on (tensorRows p.xT dt.n
        fun k => readRow p.x tile item k p.xT.len 0) e s1) fun (xs : List (List FVal)) (s2 : State) =>
        onOkUnit (ItemM.on (rowsClear p.y tile item p.yLen ((p.lines dt.out).map fun (cb, t, y) => p.yT.row cb t y)) e s2)
        fun (s3 : State) => onOkUnit (ItemM.on (writeTensor p tile item dt.out fun c f y x => poolValue p (p.tapList.filterMap
        fun j => (p.tapAt dt (f, y, x) j).map fun (a, b, d) => tensorAt p.xT dt.n FVal.zero xs c a b d)) e s3) fun (u : State) =>
        decide (canEnd u run item r = true) && (true))))) (itemTile r.desc.bytes item)) (convPay r.desc.bytes)) (r.env s item))
        (s.beginItem run item)) (convState 2) (1) (0) (onTile (convDesc 2))) = true := by decide +kernel
    obtain ⟨h5, H⟩ := and_lit H
    obtain ⟨h6, H⟩ := and_lit H
    obtain ⟨dt, s1, h7, H⟩ := of_ok H
    obtain ⟨h8, H⟩ := and_of H
    obtain ⟨xs, s2, h9, H⟩ := of_ok H
    obtain ⟨s3, h10, H⟩ := of_okUnit H
    obtain ⟨u, h11, H⟩ := of_okUnit H
    obtain ⟨h4, H⟩ := and_of H
    exact ⟨(convState 2), _, _, _, 1, 0, _, (onTile (convDesc 2)), _, _, _, rfl, rfl, rfl, rfl, (canEnd_of h4), h5, h6, h7, _,
        _, _, h8, h9, h10, h11⟩),
   (by
    have H : ((fun (s : State) (run : Nat) (item : Nat) (r : Run) => (fun (s0 : State) => (fun (e : ItemEnv) =>
        (fun (p : BoxPay) => (fun (tile : Nat) => onOk (ItemM.on (runTime p.shapeEn tile p.shape p.n) e s0)
        fun (v : Nat) (s1 : State) => decide (s.itemReady 4 3 run item = some r) &&
        (givesLit () (ItemM.on (boxCheck r.desc.bytes false) e s0) s0 && (onOk (ItemM.on (loadF32s tile p.srcA (item * p.n * 16)
        (4 * v)) e s1) fun (ds : List FVal) (s2 : State) => onOk (ItemM.on (loadF32s tile p.srcB (item * p.n * 16) (4 * v)) e s2)
        fun (as : List FVal) (s3 : State) => onOkUnit (ItemM.on (locStore tile p.dst (item * p.n * 16) (((List.range v).flatMap
        fun c => decodeBox p ((ds.drop (4 * c)).take 4) ((as.drop (4 * c)).take 4)).flatMap fun x => leBytes 4 (toF32 x))) e s3)
        fun (u : State) => decide (canEnd u run item r = true) && (true)))) (itemTile r.desc.bytes item)) (boxPay r.desc.bytes))
        (r.env s item)) (s.beginItem run item)) (runs (onTile (boxDesc 3 0)) device) (1) (0) (onTile (boxDesc 3 0))) = true :=
        by decide +kernel
    obtain ⟨v, s1, h4, H⟩ := of_ok H
    obtain ⟨h6, H⟩ := and_of H
    obtain ⟨h7, H⟩ := and_lit H
    obtain ⟨ds, s2, h8, H⟩ := of_ok H
    obtain ⟨as, s3, h9, H⟩ := of_ok H
    obtain ⟨u, h10, H⟩ := of_okUnit H
    obtain ⟨h5, H⟩ := and_of H
    exact ⟨(runs (onTile (boxDesc 3 0)) device), _, _, _, _, _, 1, 0, _, _, (onTile (boxDesc 3 0)), _, _, rfl, rfl, rfl, rfl,
        h4, (canEnd_of h5), _, _, h6, h7, h8, h9, h10⟩),
   (by
    have H : ((fun (s : State) (run : Nat) (item : Nat) (r : Run) => (fun (s0 : State) => (fun (e : ItemEnv) => (fun (p : BoxPay) => (fun (tile : Nat) => onOk (ItemM.on (runTime p.shapeEn tile p.shape p.n) e s0) fun (v : Nat) (s1 : State) => decide (s.itemReady 4 4 run item = some r) && (givesLit () (ItemM.on (boxCheck r.desc.bytes true) e s0) s0 && (onOk (ItemM.on (loadF32s tile p.srcA (item * p.n * 16) (4 * v)) e s1) fun (bs : List FVal) (s2 : State) => onOk (ItemM.on (loadF32s tile p.srcB (item * p.n * 4) v) e s2) fun (sc : List FVal) (s3 : State) => (fun (cand : List Nat) => (fun (kept : List Nat) => onOkUnit (ItemM.on (locStore tile p.dst (item * 64 * ceilDiv (4 + 2 * p.keepMax) 64) (leBytes 4 kept.length ++ (kept.flatMap (leBytes 2)) ++ (List.replicate (p.keepMax - kept.length) [0xFF, 0xFF]).flatten)) e s3) fun (u : State) => decide (canEnd u run item r = true) && (true)) (nmsKeep (ofF32 p.p0) p.keepMax (fun c => (bs.drop (4 * c)).take 4) (sortBy (fun a b => (sc.getD b .nan).lt (sc.getD a .nan) || (!(sc.getD a .nan).lt (sc.getD b .nan) && decide (a < b))) cand) [])) ((List.range v).filter (fun c => (ofF32 p.p1).le (sc.getD c .nan)))))) (itemTile r.desc.bytes item)) (boxPay r.desc.bytes)) (r.env s item)) (s.beginItem run item)) (runs (onTile (boxDesc 4 1)) device) (1) (0) (onTile (boxDesc 4 1))) = true := by decide +kernel
    obtain ⟨v, s1, h4, H⟩ := of_ok H
    obtain ⟨h6, H⟩ := and_of H
    obtain ⟨h7, H⟩ := and_lit H
    obtain ⟨bs, s2, h8, H⟩ := of_ok H
    obtain ⟨sc, s3, h9, H⟩ := of_ok H
    obtain ⟨u, h12, H⟩ := of_okUnit H
    obtain ⟨h5, H⟩ := and_of H
    exact ⟨(runs (onTile (boxDesc 4 1)) device), _, _, _, _, _, 1, 0, _, _, (onTile (boxDesc 4 1)), _, _, rfl, rfl, rfl, rfl,
        h4, (canEnd_of h5), _, _, _, _, h6, h7, h8, h9, rfl, rfl, h12⟩)⟩

end Sys2Proof.Tests
end

