-- ==== Sys2Proof/Tests/Slice0.lean ====
section
/-! SUPPORT. Small checks of the model against the spec: what cannot be a command is refused, and the spec's worked examples,
tables and single rules. -/

set_option Elab.async false
namespace Sys2Proof.Tests
open Sys2Proof.Machine

/- ## What cannot be a command: one ill-formed term for each check -/

theorem test_refuses_window_access : (Instr.hostWindowRead 60 8).wellFormed = false := by decide
theorem test_refuses_link_width : (Instr.hostLinkUp true 2 32).wellFormed = false := by decide
theorem test_refuses_register_width : (Instr.registerWrite .host 0x10440 3 0).wellFormed = false := by decide
theorem test_refuses_register_alignment : (Instr.registerHalfRead 0x10442).wellFormed = false := by decide
theorem test_refuses_aperture : (Instr.apertureRead 0x100000 64).wellFormed = false := by decide
theorem test_refuses_ring : (Instr.irqDelayExpiry 256 0).wellFormed = false := by decide
theorem test_refuses_descriptor_length : (Instr.descriptorFetch 0 (some [0]) 0).wellFormed = false := by decide
theorem test_refuses_poll_ring : (Instr.doorbellPoll [(256, none)]).wellFormed = false := by decide
theorem test_refuses_items :
    ([.controlNop 1 256, .mmWs 1 256 none, .kvAppend 1 256, .vprog 1 256, .convolve 1 256 none, .tileMove 1 256, .flTrim 1 256,
      .decAu 1 256, .permMap 1 256, .fabCopy 1 256 0, .rsHalf 1 256 0] : List Instr).all (fun c => !c.wellFormed) = true := by
  decide
theorem test_refuses_cue_message : (Instr.cueMessage 12 ⟨0, 0, 0, false, 0, 0, 0, ⟨false, 0, 0⟩, ⟨false, 0, 0⟩, ⟨false, 0, 0⟩⟩ 0).wellFormed = false := by decide
theorem test_refuses_partition : (Instr.partOpCeiling 8 0).wellFormed = false := by decide
theorem test_refuses_tile : (Instr.selftestStart 144 0).wellFormed = false := by decide
theorem test_refuses_stack_readings : (Instr.stackTempRead [none] 0).wellFormed = false := by decide
theorem test_refuses_lane : (Instr.laneRemap 0 64 0).wellFormed = false := by decide
theorem test_refuses_feed : (Instr.clipAssign 4).wellFormed = false := by decide
theorem test_refuses_flit : (Instr.flitReceive 0 ⟨4, false, 0, true, none, none, [], []⟩ 0).wellFormed = false := by decide
theorem test_refuses_packet : (Instr.readData { aPkt ptReadData 0 2 [1] with length := 2 }).wellFormed = false := by decide
theorem test_refuses_spdm : (Instr.getVersion ⟨.doe, none, 256, 0, 0, []⟩).wellFormed = false := by decide
theorem test_accepts_register_write : (Instr.registerWrite .host 0x10440 4 1).wellFormed = true := by decide

/- ## Numbers (chapter 4) -/

/-- E4M3 saturates at 448, code 0x7E (Table 4.2). -/
theorem test_e4m3_saturates : e4m3.encode .rne (.ofNat 1000) = 0x7E := by decide +kernel
/-- Table 4.2: the largest E5M2 number is 57,344, code 0x7B. -/
theorem test_e5m2_largest : e5m2.decode 0x7B = .num false 7 13 := by decide +kernel
/-- A tie in BF16 goes to even: 1 + 2⁻⁸ rounds to 1 (R108). -/
theorem test_bf16_tie : bf16.encode .rne (.num false 257 (-8)) = 0x3F80 := by decide +kernel
/-- After Table 4.10: 5.5 lies above the midpoint of 4 and 6, so it is stored as E2M1 code 7. -/
theorem test_e2m1_code : e2m1.encode .rne (.num false 11 (-1)) = 7 := by decide +kernel
/-- The same example: a largest magnitude of 2.75 gives scale byte 0x7E. -/
theorem test_scale_byte : scaleCode (amaxLog [.num false 11 (-2), .ofNat 1]) 2 = 0x7E := by decide +kernel
/-- R112: an all-zero block takes scale byte 0. -/
theorem test_scale_of_zeros : scaleCode (amaxLog [.zero, .zero]) 2 = 0 := by decide
/-- CRC-32 of "123456789", its published check value. -/
theorem test_crc32 : crc32 [0x31, 0x32, 0x33, 0x34, 0x35, 0x36, 0x37, 0x38, 0x39] = 0xCBF43926 := by decide +kernel
/-- FP32 subnormals are kept (R107): half the smallest normal number. -/
theorem test_fp32_subnormal : toF32 (fmul (ofF32 0x00800000) (ofF32 0x3F000000)) = 0x00400000 := by decide +kernel

/-- The line of Table 4.10: five outliers, 0.25 scales elsewhere. -/
def exampleLine : List (Rounding × FVal) :=
  (List.range 224).map fun i => (.rne,
    if i = 5 then .ofNat 40 else if i = 37 then .num true 96 0 else if i = 100 then .ofNat 12 else if i = 150 then .ofNat 20
    else if i = 200 then .num false 19 (-1) else if i / 32 = 0 then .num false 11 (-2) else .ofNat 1)

/-- Work on line 4,117 with an overflow region at 0x1000 whose USED is 12. -/
def lineMade : Except Stop (List Byte) × State :=
  (writeLine (.ofNat 8) 0x1000 4117 exampleLine).on ((aRun (desc 3 4 1 [])).env device 0)
    (runs (aRun (desc 3 4 1 [])) (place 0x1000 (blob 8 [(0, 4, 100), (4, 4, 12)]) device))

/-- Table 4.10: header, entries and group index of the example line. -/
theorem test_line_entries :
    (match lineMade.1 with
      | .ok bs => bs.length == 128 && leAt bs 0 2 == 0x7E0D && leAt bs 120 8 == 0x000C3A96CC253A05
      | .error _ => false) = true := by decide +kernel
/-- Table 4.10: LINE, N and the entries of group 12, and USED 13. -/
theorem test_line_group :
    (lineMade.2.devRead (0x1000 + 64 + 32 * 12) 10, lineMade.2.word 0x1004) =
      ([0x15, 0x10, 0, 0, 2, 0, 0x64, 0x34, 0xC8, 0x32], 13) := by decide +kernel

/- ## Addresses, descriptors and records (chapters 1 and 2) -/

/-- The worked example of chapter 1: byte 0x1000 of package D9 on member 1,234. -/
theorem test_global_address :
    addrMember 0x009A489000001000 = 1234 ∧ addrTier 0x009A489000001000 = 1 ∧
      addrOff 0x009A489000001000 = 9 * 2 ^ 36 + 0x1000 := by decide
/-- Table 1.8: an HBM stack holds 48 GiB, so the byte after it is not populated. -/
theorem test_hbm_end : State.reset.populated 0 (48 * GiB - 1) 1 = true ∧ State.reset.populated 0 (48 * GiB) 1 = false := by
  decide +kernel

/-- Ring 17 of the worked example of chapter 2, set by its register as chapter 19 reads it. -/
def ring17 : State :=
  { (sets [(ringCtrlEn 17, 1), (ringCtrlContext 17, 5), (ringCtrlSqLog2 17, 8), (ringCtrlCqLog2 17, 10)] device) with
    rings := [(17, { Ring.init with cqProd := 1023, cqCons := 900 })] }
/-- Chapter 19's example: the register lies at 0x10440 and reads 0x0001_4815. -/
theorem test_ring17_ctrl : ring17.readReg 0x10440 4 = 0x00014815 := by decide +kernel
/-- Chapter 19's example: `CTX5_ARITH` lies at 0x2028C and reads 0. -/
theorem test_ctx5_arith : rCtxArith 5 = 0x2028C ∧ ring17.readReg 0x2028C 4 = 0 := by decide +kernel
/-- Chapter 2's example: the stamp is 0x0102_0703. -/
theorem test_stamp :
    State.reset.stamp { aRun (desc 2 1 1 []) with fnGen := 3, biasGen := 7, chorusGen := 2 } false = 0x01020703 := by decide +kernel
/-- Chapter 2's example: the record at index 1,023 has phase 1, the summary at 1,024 phase 0. -/
theorem test_phase : phaseAt 1023 10 = 1 ∧ phaseAt 1024 10 = 0 := by decide
/-- Chapter 2's example: FENCE_OUT 0x0001_8009 names fence 9, enabled, with increment 1. -/
theorem test_item_record :
    ring17.recordBytes 17 1023 ⟨0, 40, 2, stNoPage, 5, 0x01020703, 0, 0⟩ =
      leBytes 8 (17 + 0x01 * 2 ^ 8 + 40 * 2 ^ 16 + 2 * 2 ^ 32 + 0x13 * 2 ^ 48 + 5 * 2 ^ 56) ++
        leBytes 8 (0x01020703 * 2 ^ 32) ++ leBytes 16 0 := by decide +kernel
/-- Table 2.8: the comparison of a fence wraps at 2^16, and holds for half the range. -/
theorem test_fence_wraps : fenceMet 5 0xFFF0 = true ∧ fenceMet 0x8000 0 = false := by decide

/-- `FENCE_RESET` of fence 9 to 5 on a poisoned fence. -/
theorem test_fence_reset :
    leNat (match exec (.fenceReset 1 0) (runs (aRun (desc 0 2 1 [(32, 2, 9), (34, 2, 5)]))
        (place 0x80024 [7, 0, 1, 0] (sets [(ctxFenceBaseBase 0, 0x80000)] device))) with
      | .next t => t.devRead 0x80024 4
      | _ => []) = 5 := by decide +kernel
/-- R60: a payload byte that must be 0 is 1, so `NOP` ends BAD_DESCRIPTOR. -/
theorem test_nop_reserved :
    (match exec (.controlNop 1 0) (runs (aRun (desc 0 0 1 [(127, 1, 1)])) device) with
      | .next t => t.phaseOf 1 0
      | _ => none) = some (.ended stBad 0) := by decide +kernel
/-- R60: an unmanaged ring may not start a context. -/
theorem test_context_start_refused :
    (match exec (.contextStart 1 0) (runs (aRun (desc 0 6 1 [(32, 1, 1)])) (sets [(ringCtrlCtrlAllowed 0, 0)] device)) with
      | .next t => (t.phaseOf 1 0)
      | _ => none) = some (.ended stNotAuth 0) := by decide +kernel
/-- R41: a host write of an RWL register after the seal is ignored, counts as a violation and raises one event. -/
theorem test_rwl_after_seal :
    (match exec (.registerWrite .host 0x10440 4 1) device with
      | .next t => (t.readReg 0x10440 4, t.fld sealViolationCountCount)
      | _ => (9, 9)) = (0, 1) := by decide +kernel
/-- R40: a wrong key does not seal. -/
theorem test_wrong_key :
    (match exec (.setupSeal 1) booted with
      | .next t => t.isSealed
      | _ => true) = false := by decide +kernel

/- ## Cues, budgets and tables (chapter 3) -/

/-- R86: the tile budget of a 1 ms slot with all tiles at 1.75 GHz is 252,000,000 cycles. -/
theorem test_tile_budget : ({ device with cue := { device.cue with periodUs := 1000 } } : State).tileBudget = 252000000 := by
  decide +kernel
/-- The table after R99: the primary of 320,000,000 cycles takes three slots, the fallback of 150,000,000 one. -/
theorem test_predictions :
    slotsFor 320000000 60800000 100800000 = some 3 ∧ slotsFor 150000000 60800000 100800000 = some 1 := by decide
/-- R87: a cost of 0 counts as 256 cycles. -/
theorem test_cost_zero : effCost (desc 5 2 1 []) = 256 := by decide +kernel
/-- Table 3.17: bins of the wait histogram. -/
theorem test_wait_bins : [15, 16, 31, 32, 524287, 524288].map waitBin = [15, 16, 16, 17, 30, 31] := by decide
/-- The blocking entry of the worked example: context 3, ring 40, share 60, positions 8 to 15 on members 256 to 511. -/
theorem test_blocking_entry :
    blkCtx 0x83C0A033C81FF100 = 3 ∧ blkRing 0x83C0A033C81FF100 = some 40 ∧ blkShare 0x83C0A033C81FF100 = 60 ∧
      blkCovers 0x83C0A033C81FF100 300 0 = false ∧ blkCovers 0x83C0A033C81FF100 300 8 = true := by decide
/-- Table 3.8: `FAB_COPY` is charged to the moves, a collective to its own group, `NOP` to none. -/
theorem test_groups :
    [desc 0xA 0 1 [], desc 0xB 0 1 [], desc 0 0 1 [], desc 7 0 1 [], desc 4 0 1 []].map groupOf =
      [some 1, some 6, none, some 3, some 0] := by decide +kernel

/- ## Tiles and arrays (chapters 5 to 8) -/

/-- The forward run of the worked example of chapter 5: `MM_WS`, ARRAY 0b10, M 768, N 256, K 1,152, E4M3. -/
theorem test_mm_ws_cycles :
    mmCycles (mmPay (desc 1 0 1 [(34, 1, 2), (36, 2, 768), (38, 2, 256), (40, 2, 1152), (56, 1, 3), (72, 1, 3), (88, 1, 1)])) 0
      768 = 14088 := by decide +kernel
/-- Its weight gradient: `MM_OS`, ARRAY 0b01, ACC, M 256, N 1,152, K 768, E5M2 by E4M3. -/
theorem test_mm_os_cycles :
    mmCycles (mmPay (desc 1 2 1 [(34, 1, 5), (36, 2, 256), (38, 2, 1152), (40, 2, 768), (56, 1, 4), (72, 1, 3)])) 2 768 =
      16520 := by decide +kernel
/-- The decoder block of the worked example of chapter 8. -/
def exampleConv (mode : Nat) : ConvPay :=
  convPay (desc 4 0 1 [(34, 1, mode), (36, 2, 128), (38, 2, 256), (40, 2, 4), (42, 2, 32), (44, 2, 32), (46, 1, 3), (47, 1, 3),
    (48, 1, 3), (49, 1, 2), (51, 1, 1), (52, 1, 1), (53, 1, 1), (54, 1, 1), (72, 1, 1), (88, 1, 1), (104, 1, 1)])
/-- R233 in that example: T_OUT is 4, H_OUT and W_OUT are 32. -/
theorem test_conv_extents :
    ((exampleConv 0).dt.out, (exampleConv 0).dy.out, (exampleConv 0).dx.out) = (4, 32, 32) := by decide +kernel
/-- Table 8.7: 222,240 cycles direct, 56,608 by Winograd. -/
theorem test_conv_cycles : convCycles (exampleConv 0) 4 = 222240 ∧ convCycles (exampleConv 16) 4 = 56608 := by decide +kernel
/-- Chapter 6: an E4M3 page of HEAD_DIM 128 holds 512 tokens, an MXFP8 page 256. -/
theorem test_page_tokens : kvLogTokens 3 128 = 9 ∧ kvLogTokens 5 128 = 8 := by decide +kernel
/-- Chapter 6's example: with FREE 136 and RESERVED 30 a join of 100 frames is admitted, RESERVED becomes 130, and the record
tells cue 5,001. -/
theorem test_join_admitted :
    (let s := (place 0x5000 (blob 64 [(4, 4, 136), (8, 4, 30)]) (sets [(ctxKvpagesLimit 0, 1000)] device)).setReg rCueNumber 5001
     let x := s.decideJoin 0x5000 (blob 64 [(0, 1, 1), (24, 4, 100)])
     (x.1.word 0x5008, leAt x.2 0 1, leAt x.2 12 4)) = (130, 2, 5001) := by decide +kernel
/-- The same example without the returned frames: FREE 40 refuses it with REASON 0x13. -/
theorem test_join_refused :
    (let s := place 0x5000 (blob 64 [(4, 4, 40), (8, 4, 30)]) (sets [(ctxKvpagesLimit 0, 1000)] device)
     let x := s.decideJoin 0x5000 (blob 64 [(0, 1, 1), (24, 4, 100)])
     (x.1.word 0x5008, leAt x.2 0 2)) = (30, 0x1303) := by decide +kernel
/-- The row of the worked example of R222, with 4 copies of −1.5 × 2^100: 9 / 4 is the same 2.25. -/
theorem test_rms_row :
    (let x := rmsRow (ofF32 0x358637BD) (List.replicate 4 (.num true 3 99)) (List.replicate 4 (.ofNat 1))
     (x.1.cmp (.num false 3 99), bf16.encode .rne (x.2.getD 3 .nan))) = (0, 0xBF80) := by decide +kernel
/-- R223: a statistic whose maximum is −∞ contributes nothing. -/
theorem test_stat_empty : weighted (statWeight (.inf true) (.ofNat 3)) (.ofNat 7) = .zero := by decide

/- ## Memory and flash (chapters 9 and 10) -/

/-- Table 9.2: one symbol error is corrected, a marked lane with another in error is uncorrectable. -/
theorem test_hbm_codes :
    hbmVerdict [] [⟨0, 3, 1, false⟩] = .corrected ∧ hbmVerdict [2] [⟨0, 3, 9, true⟩] = .uncorrectable := by decide
/-- R258: SECDED corrects one bit and detects two. -/
theorem test_secded : [0, 1, 2].map wordVerdict = [.clean, .corrected, .uncorrectable] := by decide
/-- R23, R266: a stack at 100.0 °C trips and its partition goes into a coppice. -/
theorem test_stack_trips :
    (match exec (.stackTempRead [some 400, some 0, some 0, some 0, some 0, some 0, some 0, some 0] 5) device with
      | .next t => (t.flag (stackTempTrip 0), t.inCoppice 0, t.inCoppice 1)
      | _ => (false, false, true)) = (true, true, false) := by decide +kernel
/-- Table 9.6: operating points by temperature, with hysteresis on the way down. -/
theorem test_thermal_points :
    [thermalPoint 0 359, thermalPoint 0 360, thermalPoint 1 356, thermalPoint 0 368, thermalPoint 0 376] = [0, 1, 1, 2, 3] := by
  decide
/-- The bank of the worked example of chapter 10. -/
def exampleBank : State :=
  sets [(holdupCapCapUf, 100000), (holdupVminVminMv, 9000), (holdupStatusVMv, 12000), (holdupStatusStale, 0),
    (holdupParamPHoldW, 180), (holdupParamTProgUs, 1600)] State.reset
/-- R296's example: E_avail is 3,150,000 µJ; depths of 4 and 32 need 1,224,000 and 9,288,000 µJ. -/
theorem test_holdup_energy :
    (exampleBank.eAvail, exampleBank.eNeed 4, exampleBank.eNeed 32) = (3150000, 1224000, 9288000) := by decide +kernel
/-- R286: a tile never programmed reads zeros. -/
theorem test_flash_reads_zero : (cellRead (0 : Byte) flashed.flash.cells 65536 4) = [0, 0, 0, 0] := by decide +kernel
/-- R285: a tile lies in its context's window by FIRST and SLOTS; the third slot of two is outside. -/
theorem test_flash_window : (flashed.flashTile 0 1, flashed.flashTile 0 2) = (some 6, none) := by decide +kernel
/-- R306, Table 10.7: sizes of the prompt book's regions, 256 KiB for the repair map. -/
theorem test_book_sizes : [pbSize 1, pbSize 3] = [8 * MiB, 256 * KiB] := by decide
/-- R274: a grant of two granules against a quota of one ends QUOTA with the use, 0, in DETAIL; a quota of two lets it through. -/
theorem test_grants :
    [1, 2].map (fun q =>
      match exec (.grantGranules 1 0) (runs (aRun (desc 5 0 1 [(32, 8, 0x1000)]))
          (place 0x1000 (blob 8 [(0, 8, 4 * 2 ^ 2 + 2 * 2 ^ 24)]) (sets [(ctxQuotaHbmGranules 0, q)] device))) with
      | .next t => (t.phaseOf 1 0, t.fld (ctxUseHbmGranules 0))
      | _ => (none, 9)) = [(some (.ended stQuota 0), 0), (some (.ended stOk 2), 2)] := by decide +kernel

/- ## Codec and ingest (chapters 11 and 12) -/

/-- Table 12.9: a picture of 1920 × 1088 and 500,000 bits takes 3,657,728 cycles. -/
theorem test_decode_cycles : decodeCycles [(1920 * 1088, 500000)] = 3657728 := by decide +kernel
/-- Chapter 11's example: BUF_BYTES of a 10-bit 4:2:0 picture of 1920 × 1080 is 6,397,440. -/
theorem test_buf_bytes : bufNeed 1920 1080 1 10 = 6397440 := by decide +kernel
/-- R307: 8,192 × 4,352 is the largest size; 8,193 columns are too many. -/
theorem test_picture_sizes : sizeOk 8192 4352 = true ∧ sizeOk 8208 16 = false ∧ sizeOk 8 16 = false := by decide
/-- R317: the frame slot of Table 12.9, 777,600 bytes. -/
theorem test_frame_slot :
    (decPost ((desc 7 0 1 [(34, 1, 0), (88, 2, 480), (90, 2, 270), (78, 2, 15)]).drop 32)).slot = 777600 := by decide +kernel
/-- R338: for 3,000,000 clips the domain is 2^22, so h is 11; for one clip it is 2. -/
theorem test_perm_domain : permHalf 3000000 = 11 ∧ permHalf 1 = 1 := by decide +kernel
/-- R338: the order of three clips is a permutation of them. -/
theorem test_perm_covers : (([0, 1, 2].map fun p => (sigma 7 1 3 p).1).contains 0 && allDistinct ([0, 1, 2].map fun p => (sigma 7 1 3 p).1)) = true := by
  decide +kernel
/-- Table 12.4: `FEED_STOP` of a feed that has never started. -/
theorem test_feed_stop_idle :
    (match exec (.feedStop 1 0) (runs (aRun (desc 9 1 1 [(32, 1, 4)])) device) with
      | .next t => t.phaseOf 1 0
      | _ => none) = some (.ended stBad 0) := by decide +kernel

/- ## Fabric and collectives (chapters 13 and 14) -/

/-- R367's example: the entry for member 1,234 by port 5, with port 9 as its alternative, obeys Table 13.7. -/
theorem test_route_entry :
    routeEntryOk 77 1234 0x800000000012F095 = true ∧ routeEntryOk 77 1234 0x800000000012F09D = false := by decide
/-- Table 13.5: channels of a prompter message, a bulk write, an acknowledgement and a read. -/
theorem test_channels : [ptStop, ptBulkWrite, ptWriteAck, ptRead].map (fun t => packetVc (aPkt t 0 0 [])) = [0, 3, 2, 1] := by
  decide
/-- R375: a 4-byte fetch-add in a fence table stays within 16 bits and leaves poison. -/
theorem test_fence_atomic :
    (sets [(ctxFenceBaseBase 0, 0x80000)] device).atomicNew 0x80000 0 1 0 0x1FFFF = 0x10000 := by decide +kernel
/-- R375: a compare-swap that does not compare changes nothing. -/
theorem test_compare_swap : device.atomicNew 0x1000 3 9 5 6 = 6 ∧ device.atomicNew 0x1000 3 9 6 6 = 9 := by decide +kernel
/-- R361: 4,096 + 64 bytes at a line go in two bulk packets; 8 bytes in one. -/
theorem test_packets : packetRanges 0 4160 = [(0, 4096), (4096, 64)] ∧ packetRanges 8 8 = [(8, 8)] := by decide +kernel
/-- R376: a packet born 501 µs ago dies, one born 499 µs ago does not. -/
theorem test_packet_age :
    (({ routed with now := 501000 } : State).aged (aPkt ptRead 0 0 []), ({ routed with now := 499000 } : State).aged (aPkt ptRead 0 0 [])) =
      (true, false) := by decide +kernel
/-- Table 13.5: a type that it does not name is dropped and counted. -/
theorem test_reserved_type :
    (match exec (.reservedPacketType (aPkt 6 0 0 [])) routed with
      | .next t => t.fld fabNorouteDropsCount
      | _ => 9) = 1 := by decide +kernel
/-- R365: EN set on a port that is off starts training. -/
theorem test_port_enable :
    (match exec (.portEnable 3 1) booted with
      | .next t => (t.portState 3)
      | _ => 9) = 1 := by decide +kernel
/-- R83: a switch request on a member that does not emit is ignored. -/
theorem test_switch_ignored :
    (match exec (.cueSwitchReq 0x80000301) device with
      | .next t => (t.readReg rCueSwitchReq 4, t.flag cueStatusSwitchReject)
      | _ => (9, true)) = (0, false) := by decide +kernel
/-- R398: DETAIL of a collective is its SEQ, the member that failed it, and flags. -/
theorem test_coll_detail : collDetail 8812 1029 0 = 8812 + 1029 * 2 ^ 32 := by decide

/- ## Reliability, security and power (chapters 15 to 17) -/

/-- The worked example of chapter 15: logical tile 37 is bound to physical tile 39, and the hedge of P2 is physical tile 56. -/
theorem test_binding : State.reset.physical 37 = 39 ∧ hedgeUnit 2 = ⟨1, 56, 0⟩ := by decide +kernel
/-- R439: a store of a partition in a coppice reads zeros after it. -/
theorem test_coppice_clears :
    ((device.sramWrite (sramTile 37) [5]).sramZeroPart 2).sramRead (sramTile 37) 1 = [0] := by decide +kernel
/-- R446: a request to test tile 143 queues it. -/
theorem test_selftest_request :
    (match exec (.selftestReq (BitVec.ofNat 32 (2 ^ 31 + 143))) device with
      | .next t => t.rel.testQueue
      | _ => []) = [143] := by decide +kernel
/-- R431: a scan that finds an upset of a hardened register restores it. -/
theorem test_scan_restores :
    (match exec (.registerScan [⟨rMgmtContext, 9, false⟩] false 5)
        ({ device with regs := { device.regs with imageHeld := true } } : State) with
      | .next t => t.fld mgmtContextContext
      | _ => 99) = 0 := by decide +kernel
/-- R484: the key starts a warm reset with cause 3, which ends the seal; another value does nothing. -/
theorem test_reset_key :
    ([0xD1E50FF0, 1] : List (BitVec 32)).map (fun k =>
      match exec (.deviceReset .host k) { device with boot := { device.boot with cold := false } } with
      | .next t => (t.boot.cause, t.isSealed)
      | _ => (9, true)) = [(3, false), (1, true)] := by decide +kernel
/-- R477: a pulse of less than 10 µs on `RST_N` does nothing. -/
theorem test_short_pulse :
    (match exec (.rstNAssert 9999) device with
      | .next t => decide (t = device)
      | _ => false) = true := by decide +kernel
/-- R502: a reading above the limit trips the part and drives `THERM_TRIP_N`. -/
theorem test_junction_trip :
    (match exec (.junctionTempRead [100, 421]) device with
      | .next t => (t.boot.tripped, t.outs.headD (.pin "" true))
      | _ => (false, .pin "" true)) = (true, .pin "THERM_TRIP_N" false) := by decide +kernel
/-- R470: Dark from Full makes the device busy; a request by curtain is refused with code 1. -/
theorem test_dark_request :
    (match exec .pwrTargetDark device with
      | .next t => t.flag pwrStatusBusy
      | _ => false) = true ∧
    (match exec .pwrTargetDark (device.setFlag healthStatusCurtain true) with
      | .next t => t.fld pwrStatusRefusal
      | _ => 9) = 1 := by decide +kernel
/-- R468: in Deployed a device without IDE answers only the security block, `ID_PART` and `ID_SERIAL`. -/
theorem test_deployed_without_ide :
    (let s := sets [(lcStatusState, 2)] device
     (s.hostServes rIdPart, s.hostServes (rRingCtrl 0), s.hostServes rSecCmd)) = (true, false, true) := by decide +kernel
/-- R464: an expired debug level is gone. -/
theorem test_debug_expires :
    (match exec (.debugExpiry 1000000000) { sets [(lcStatusDebug, 1)] device with sec := { device.sec with debugUntil := some 1 } } with
      | .next t => t.fld lcStatusDebug
      | _ => 9) = 0 := by decide +kernel
/-- Table 16.9: `GET_VERSION` answers SPDM 1.2. -/
theorem test_spdm_version :
    (device.spVersion ⟨.mctp, none, 0x10, 0, 0, []⟩).2 = (0x04, [0, 1, 0x00, 0x12]) := by decide +kernel
/-- R453: a token whose result is not 0 changes nothing but the answer. -/
theorem test_token_without_nonce :
    (match exec (.enterService (.mctp (blob 352 [(0, 2, 1), (2, 1, 0x11), (3, 1, 2)])) 5) (sets [(lcStatusState, 2)] device) with
      | .next t => (t.lifecycle, t.sec.transition.isSome)
      | _ => (9, true)) = (2, false) := by decide +kernel
/-- R485: after the seal the setup aperture ignores writes. -/
theorem test_aperture_sealed :
    (match exec (.apertureWrite 0 4 [1, 2, 3, 4]) device with
      | .next t => t.mem.dev
      | _ => [(0, 1)]) = [] := by decide +kernel

/- ## The queue -/

/-- The command in front is taken and run on the rest of the queue. -/
theorem test_step_takes_front :
    (match step { device with pending := [.pwrFail, .hostLinkDown] } with
      | .next t => (t.pending, t.flash.failing)
      | _ => ([], false)) = ([.hostLinkDown], true) := by decide +kernel
/-- On an empty queue the block idles (log entry 17). -/
theorem test_step_idles : step State.reset = .next State.reset := rfl

/- ## Items that compute -/

/-- R146: 2.0 × 3.0 on tile 143 writes 6.0 at location 128. -/
theorem test_mm_ws_product :
    (match exec (.mmWs 1 0 none) (((mmState 0).sramWrite (sramTile 143) (leBytes 4 0x40000000)).sramWrite (sramTile 143 + 64)
        (leBytes 4 0x40400000)) with
      | .next t => t.sramRead (sramTile 143 + 128) 4
      | _ => []) = leBytes 4 0x40C00000 := by decide +kernel
/-- Table 4.2: 1.0 in E4M3 is 0x38. -/
theorem test_quant_code :
    (match exec (.quant 1 0) (runs (onTile rowDesc) (device.sramWrite (sramTile 0) (leBytes 4 0x3F800000))) with
      | .next t => t.sramRead (sramTile 0 + 128) 1
      | _ => []) = [0x38] := by decide +kernel
/-- R232: a 1 × 1 × 1 kernel of 1.0 on 1.0 gives 1.0. -/
theorem test_conv_product :
    (match exec (.convolve 1 0 none) (convState 0) with
      | .next t => t.sramRead (sramTile 0 + 128) 4
      | _ => []) = leBytes 4 0x3F800000 := by decide +kernel
/-- R204: a program of one constant and one store writes it to its stream. -/
theorem test_vprog_store :
    (match exec (.vprog 1 0) (vpState 0 (vpDesc 0 1 0) (blob 128 (opAt 0 0 1 1 0)) device) with
      | .next t => t.sramRead (sramTile 0) 4
      | _ => []) = leBytes 4 0x3F800000 := by decide +kernel
/-- R118: a 2-bit destination is refused with REASON 0x02. -/
theorem test_two_bit_refused :
    (match exec (.quant 1 0) (runs (onTile (desc 3 4 1 ([(36, 2, 1), (38, 2, 1)] ++ opAt 48 0 1 1 0 ++ opAt 80 256 1 1 12))) device) with
      | .next t => t.phaseOf 1 0
      | _ => none) = some (.ended stBad (2 * 2 ^ 48)) := by decide +kernel

/- ## Rings from doorbell to record -/

/-- R46: the producer index of the doorbell line is taken. -/
theorem test_doorbell :
    (match exec (.doorbellWake 0 none) (rung 3 0 0) with
      | .next t => (t.ring 0).prod
      | _ => 0) = 3 := by decide +kernel
/-- R48: a producer index more than the ring's size ahead is ignored. -/
theorem test_doorbell_too_far :
    (match exec (.doorbellWake 0 none) (rung 65 0 0) with
      | .next t => ((t.ring 0).prod, (t.ring 0).ignored)
      | _ => (9, 9)) = (0, 1) := by decide +kernel
/-- R45: a descriptor is fetched from its slot, and its header passes. -/
theorem test_fetch :
    (match exec (.descriptorFetch 0 none 5) ((device.setRing 0 { Ring.init with prod := 1 }).setFld (ringTimeoutDefaultTimeoutUs 0) 10) with
      | .next t => ((t.ring 0).cons, (t.ring 0).fifo.map fun f => f.verdict)
      | _ => (9, [])) = (1, [none]) := by decide +kernel
/-- R55: a CLASS that is not defined ends every item BAD_DESCRIPTOR. -/
theorem test_fetch_bad_class :
    (match exec (.descriptorFetch 255 (some (desc 0xC 0 1 [])) 5) (devHost.setRing 255 { Ring.init with prod := 1 }) with
      | .next t => (t.ring 255).fifo.map fun f => f.verdict
      | _ => []) = [some (stBad, 0)] := by decide +kernel
/-- R72: a boundary opens the next slot. -/
theorem test_boundary :
    (match exec (.cueBoundary 5) (device.setReg rCueNumber 41) with
      | .next t => t.cueNo
      | _ => 0) = 42 := by decide +kernel
/-- R61: an item that runs past its timeout ends TIMEOUT, one that does not goes on. -/
theorem test_timeout :
    [9999000, 10000000].map (fun now =>
      match exec (.descriptorTimeout 1 now) (runs { aRun (desc 0 0 1 [(8, 4, 10000)]) with items := [{ anItem 0 with phase := .running }] } device) with
      | .next t => t.phaseOf 1 0
      | _ => none) = [some .running, some (.ended stTimeout 0)] := by decide +kernel
/-- R38: the link goes down: unstarted items of a host ring end CANCELLED. -/
theorem test_link_down :
    (match exec .hostLinkDown (runs { aRun (desc 0 0 1 []) with desc := { fetched (desc 0 0 1 []) with ring := 255 } } devHost) with
      | .next t => t.phaseOf 1 0
      | _ => none) = some (.ended stCancelled 0) := by decide +kernel
/-- R36: a window read beyond `CXLMEM_SIZE` is all-ones with poison, and is counted. -/
theorem test_window_unmapped :
    (match exec (.hostWindowRead 0 4) (device.setFlag (cxlmemSegValid 0) false) with
      | .next t => t.fld cxlmemUnmappedCountCount
      | _ => 9) = 1 := by decide +kernel

end Sys2Proof.Tests
end

