-- ==== Sys2Proof/Tests/Witness01.lean ====
section
/-! SUPPORT. States that meet the hypotheses of the statements. -/

set_option Elab.async false
namespace Sys2Proof.Tests
open Sys2Proof.Machine

/-- States that meet the hypotheses of `Obligations.StepRunsFront`, one for each clause. -/
theorem witness_StepRunsFront :
    (∃ (s : State), s.pending = []) :=
  (by
    have H : ((fun (s : State) => decide (s.pending = []) && (true)) (State.reset)) = true := by decide +kernel
    obtain ⟨h0, H⟩ := and_of H
    exact ⟨State.reset, h0⟩)

/-- States that meet the hypotheses of `Obligations.StepKeepsCanonical`, one for each clause. -/
theorem witness_StepKeepsCanonical :
    (∃ (s t : State), s.Canonical ∧
      step s = .next t) :=
  (by
    exact ⟨({ device with pending := [.cueBoundary 7] }), _, (by unfold State.Canonical; decide +kernel), rfl⟩)

/-- States that meet the hypotheses of `Obligations.ExecAnswersAndKeepsQueue`, one for each clause. -/
theorem witness_ExecAnswersAndKeepsQueue :
    (∃ (s : State), s.Canonical) :=
  (by
    exact ⟨device, (by unfold State.Canonical; decide +kernel)⟩)

/-- States that meet the hypotheses of `Obligations.RecordsNeverGoBack`, one for each clause. -/
theorem witness_RecordsNeverGoBack :
    (∃ (c : Instr) (s t : State), s.Canonical ∧
      exec c s = .next t) ∧
    (∃ (c : Instr) (s t : State), s.Canonical ∧
      exec c s = .next t) :=
  ⟨(by
    exact ⟨(.cueBoundary 7), device, _, (by unfold State.Canonical; decide +kernel), rfl⟩),
   (by
    exact ⟨(.cueBoundary 7), device, _, (by unfold State.Canonical; decide +kernel), rfl⟩)⟩

/-- States that meet the hypotheses of `Obligations.ControlItemsEnd`, one for each clause. -/
theorem witness_ControlItemsEnd :
    (∃ (s : State) (run item : Nat) (r : Run), s.itemReady 0 0 run item = some r ∧
      leAt r.desc.bytes 32 96 = 0 ∧
      s.waitsAck run item = false) ∧
    (∃ (s : State) (run item c a : Nat) (r : Run), s.itemReady 0 5 run item = some r ∧
      c = leAt r.desc.bytes 32 1 ∧
      a = leAt r.desc.bytes 40 8 ∧
      c < 64 ∧
      leAt r.desc.bytes 33 7 = 0 ∧
      leAt r.desc.bytes 48 80 = 0 ∧
      s.waitsAck run item = false ∧
      s.WritableHere a 256) ∧
    (∃ (s : State) (run item c : Nat) (r : Run), s.itemReady 0 6 run item = some r ∧
      c = leAt r.desc.bytes 32 1 ∧
      c < 64 ∧
      leAt r.desc.bytes 33 95 = 0 ∧
      s.waitsAck run item = false ∧
      s.managed r.desc.ring = true ∧
      s.flag (ctxCtrlEn c) = true ∧
      s.flag (ctxFabricTearing c) = false) :=
  ⟨(by
    have H : ((fun (s : State) (run : Nat) (item : Nat) (r : Run) => decide (s.itemReady 0 0 run item = some r) &&
        (decide (leAt r.desc.bytes 32 96 = 0) && (decide (s.waitsAck run item = false) &&
        (true)))) (runs (aRun (desc 0 0 1 [])) device) (1) (0) (aRun (desc 0 0 1 []))) = true := by decide +kernel
    obtain ⟨h0, H⟩ := and_of H
    obtain ⟨h1, H⟩ := and_of H
    obtain ⟨h2, H⟩ := and_of H
    exact ⟨(runs (aRun (desc 0 0 1 [])) device), 1, 0, (aRun (desc 0 0 1 [])), h0, h1, h2⟩),
   (by
    have H : ((fun (s : State) (run : Nat) (item : Nat) (c : Nat) (a : Nat) (r : Run) =>
        decide (s.itemReady 0 5 run item = some r) && (decide (c = leAt r.desc.bytes 32 1) &&
        (decide (a = leAt r.desc.bytes 40 8) && (decide (c < 64) && (decide (leAt r.desc.bytes 33 7 = 0) &&
        (decide (leAt r.desc.bytes 48 80 = 0) && (decide (s.waitsAck run item = false) && (decide (writableB s a 256 = true) &&
        (true))))))))) (runs (aRun (desc 0 5 1 [(32, 1, 63), (40, 8, 0x40)])) device) (1) (0) (63) (0x40) (aRun (desc 0 5 1 [(32,
        1, 63), (40, 8, 0x40)]))) = true := by decide +kernel
    obtain ⟨h0, H⟩ := and_of H
    obtain ⟨h1, H⟩ := and_of H
    obtain ⟨h2, H⟩ := and_of H
    obtain ⟨h3, H⟩ := and_of H
    obtain ⟨h4, H⟩ := and_of H
    obtain ⟨h5, H⟩ := and_of H
    obtain ⟨h6, H⟩ := and_of H
    obtain ⟨h7, H⟩ := and_of H
    exact ⟨(runs (aRun (desc 0 5 1 [(32, 1, 63), (40, 8, 0x40)])) device), 1, 0, 63, 0x40, (aRun (desc 0 5 1 [(32, 1, 63),
        (40, 8, 0x40)])), h0, h1, h2, h3, h4, h5, h6, (writable_of h7)⟩),
   (by
    have H : ((fun (s : State) (run : Nat) (item : Nat) (c : Nat) (r : Run) => decide (s.itemReady 0 6 run item = some r) &&
        (decide (c = leAt r.desc.bytes 32 1) && (decide (c < 64) && (decide (leAt r.desc.bytes 33 95 = 0) &&
        (decide (s.waitsAck run item = false) && (decide (s.managed r.desc.ring = true) &&
        (decide (s.flag (ctxCtrlEn c) = true) && (decide (s.flag (ctxFabricTearing c) = false) &&
        (true))))))))) (runs (aRun (desc 0 6 1 [(32, 1, 0)])) device) (1) (0) (0) (aRun (desc 0 6 1 [(32, 1, 0)]))) = true :=
        by decide +kernel
    obtain ⟨h0, H⟩ := and_of H
    obtain ⟨h1, H⟩ := and_of H
    obtain ⟨h2, H⟩ := and_of H
    obtain ⟨h3, H⟩ := and_of H
    obtain ⟨h4, H⟩ := and_of H
    obtain ⟨h5, H⟩ := and_of H
    obtain ⟨h6, H⟩ := and_of H
    obtain ⟨h7, H⟩ := and_of H
    exact ⟨(runs (aRun (desc 0 6 1 [(32, 1, 0)])) device), 1, 0, 0, (aRun (desc 0 6 1 [(32, 1, 0)])), h0, h1, h2, h3, h4, h5,
        h6, h7⟩)⟩

/-- States that meet the hypotheses of `Obligations.FencesAndHostCopiesEnd`, one for each clause. -/
theorem witness_FencesAndHostCopiesEnd :
    (∃ (s : State) (run item i v : Nat) (r : Run), i = leAt r.desc.bytes 32 2 ∧
      v = leAt r.desc.bytes 34 2 ∧
      i < 4096 ∧
      leAt r.desc.bytes 36 92 = 0 ∧
      s.waitsAck run item = false ∧
      s.devShut (s.fenceKey r.ctx i) = false ∧
      s.devPartBad (s.fenceKey r.ctx i) 4 = false ∧
      s.itemReady 0 1 run item = some r) ∧
    (∃ (s : State) (run item i v : Nat) (r : Run), i = leAt r.desc.bytes 32 2 ∧
      v = leAt r.desc.bytes 34 2 ∧
      i < 4096 ∧
      leAt r.desc.bytes 36 92 = 0 ∧
      s.waitsAck run item = false ∧
      s.devShut (s.fenceKey r.ctx i) = false ∧
      s.devPartBad (s.fenceKey r.ctx i) 4 = false ∧
      s.itemReady 0 2 run item = some r) ∧
    (∃ (s s1 : State) (run item a : Nat) (r : Run) (ent bs : List Byte), s.itemReady 0 3 run item = some r ∧
      leAt r.desc.bytes 40 88 = 0 ∧
      a = leAt r.desc.bytes 32 8 + 32 * item ∧
      s.ReadableHere a 32 ∧
      ent = s.devRead (addrKey a) 32 ∧
      s1 = (s.beginItem run item).afterRead (r.env s item) a 32 ∧
      s1.host.up = true ∧
      s1.host.released = true ∧
      (s1.ideRequired = false ∨ s1.ideUp = true) ∧
      leAt ent 16 4 % 64 = 0 ∧
      leAt ent 16 4 ≤ 2 ^ 30 ∧
      leAt ent 21 11 = 0 ∧
      bs.length = leAt ent 16 4 ∧
      leAt ent 20 1 = 0 ∧
      s1.WritableHere (leAt ent 8 8) bs.length ∧
      s1.CanEnd run item r) ∧
    (∃ (s s1 : State) (run item a : Nat) (r : Run) (ent bs : List Byte), s.itemReady 0 3 run item = some r ∧
      leAt r.desc.bytes 40 88 = 0 ∧
      a = leAt r.desc.bytes 32 8 + 32 * item ∧
      s.ReadableHere a 32 ∧
      ent = s.devRead (addrKey a) 32 ∧
      s1 = (s.beginItem run item).afterRead (r.env s item) a 32 ∧
      s1.host.up = true ∧
      s1.host.released = true ∧
      (s1.ideRequired = false ∨ s1.ideUp = true) ∧
      leAt ent 16 4 % 64 = 0 ∧
      leAt ent 16 4 ≤ 2 ^ 30 ∧
      leAt ent 21 11 = 0 ∧
      bs.length = leAt ent 16 4 ∧
      leAt ent 20 1 = 1 ∧
      s1.ReadableHere (leAt ent 8 8) bs.length ∧
      bs = s1.devRead (addrKey (leAt ent 8 8)) bs.length ∧
      (s1.afterRead (r.env s item) (leAt ent 8 8) bs.length).CanEnd run item r) :=
  ⟨(by
    have H : ((fun (s : State) (run : Nat) (item : Nat) (r : Run) => (fun (i : Nat) => (fun (v : Nat) => decide (i < 4096) &&
        (decide (leAt r.desc.bytes 36 92 = 0) && (decide (s.waitsAck run item = false) &&
        (decide (s.devShut (s.fenceKey r.ctx i) = false) && (decide (s.devPartBad (s.fenceKey r.ctx i) 4 = false) &&
        (decide (s.itemReady 0 1 run item = some r) && (true))))))) (leAt r.desc.bytes 34 2)) (leAt r.desc.bytes 32 2)) (runs
        (aRun (desc 0 1 1 [(32, 2, 4095), (34, 2, 7)])) (sets [(ctxFenceBaseBase 0,
        0x8000)] device)) (1) (0) (aRun (desc 0 1 1 [(32, 2, 4095), (34, 2, 7)]))) = true := by decide +kernel
    obtain ⟨h2, H⟩ := and_of H
    obtain ⟨h3, H⟩ := and_of H
    obtain ⟨h4, H⟩ := and_of H
    obtain ⟨h5, H⟩ := and_of H
    obtain ⟨h6, H⟩ := and_of H
    obtain ⟨h7, H⟩ := and_of H
    exact ⟨(runs (aRun (desc 0 1 1 [(32, 2, 4095), (34, 2, 7)])) (sets [(ctxFenceBaseBase 0, 0x8000)] device)), 1, 0, _, _,
        (aRun (desc 0 1 1 [(32, 2, 4095), (34, 2, 7)])), rfl, rfl, h2, h3, h4, h5, h6, h7⟩),
   (by
    have H : ((fun (s : State) (run : Nat) (item : Nat) (r : Run) => (fun (i : Nat) => (fun (v : Nat) => decide (i < 4096) &&
        (decide (leAt r.desc.bytes 36 92 = 0) && (decide (s.waitsAck run item = false) &&
        (decide (s.devShut (s.fenceKey r.ctx i) = false) && (decide (s.devPartBad (s.fenceKey r.ctx i) 4 = false) &&
        (decide (s.itemReady 0 2 run item = some r) && (true))))))) (leAt r.desc.bytes 34 2)) (leAt r.desc.bytes 32 2)) (runs
        (aRun (desc 0 2 1 [(32, 2, 0), (34, 2, 65535)])) (sets [(ctxFenceBaseBase 0,
        0x8000)] device)) (1) (0) (aRun (desc 0 2 1 [(32, 2, 0), (34, 2, 65535)]))) = true := by decide +kernel
    obtain ⟨h2, H⟩ := and_of H
    obtain ⟨h3, H⟩ := and_of H
    obtain ⟨h4, H⟩ := and_of H
    obtain ⟨h5, H⟩ := and_of H
    obtain ⟨h6, H⟩ := and_of H
    obtain ⟨h7, H⟩ := and_of H
    exact ⟨(runs (aRun (desc 0 2 1 [(32, 2, 0), (34, 2, 65535)])) (sets [(ctxFenceBaseBase 0, 0x8000)] device)), 1, 0, _, _,
        (aRun (desc 0 2 1 [(32, 2, 0), (34, 2, 65535)])), rfl, rfl, h2, h3, h4, h5, h6, h7⟩),
   (by
    have H : ((fun (s : State) (run : Nat) (item : Nat) (r : Run) (bs : List Byte) =>
        decide (s.itemReady 0 3 run item = some r) && (decide (leAt r.desc.bytes 40 88 = 0) && ((fun (a : Nat) =>
        decide (readableB s a 32 = true) && ((fun (ent : List Byte) => (fun (s1 : State) => decide (s1.host.up = true) &&
        (decide (s1.host.released = true) && (decide ((s1.ideRequired = false ∨ s1.ideUp = true)) &&
        (decide (leAt ent 16 4 % 64 = 0) && (decide (leAt ent 16 4 ≤ 2 ^ 30) && (decide (leAt ent 21 11 = 0) &&
        (decide (bs.length = leAt ent 16 4) && (decide (leAt ent 20 1 = 0) && (decide (writableB s1 (leAt ent 8 8) bs.length =
        true) && (decide (canEnd s1 run item r = true) && (true))))))))))) ((s.beginItem run item).afterRead (r.env s item) a 32))
        (s.devRead (addrKey a) 32))) (leAt r.desc.bytes 32 8 + 32 * item)))) (runs (aRun (desc 0 3 1 [(32, 8,
        0x1000)])) (place 0x1000 (blob 32 [(0, 8, 0x7000), (8, 8, 0x2000), (16, 4, 64)]) device)) (1) (0) (aRun (desc 0 3 1 [(32,
        8, 0x1000)])) (List.replicate 64 1)) = true := by decide +kernel
    obtain ⟨h0, H⟩ := and_of H
    obtain ⟨h1, H⟩ := and_of H
    obtain ⟨h3, H⟩ := and_of H
    obtain ⟨h6, H⟩ := and_of H
    obtain ⟨h7, H⟩ := and_of H
    obtain ⟨h8, H⟩ := and_of H
    obtain ⟨h9, H⟩ := and_of H
    obtain ⟨h10, H⟩ := and_of H
    obtain ⟨h11, H⟩ := and_of H
    obtain ⟨h12, H⟩ := and_of H
    obtain ⟨h13, H⟩ := and_of H
    obtain ⟨h14, H⟩ := and_of H
    obtain ⟨h15, H⟩ := and_of H
    exact ⟨(runs (aRun (desc 0 3 1 [(32, 8, 0x1000)])) (place 0x1000 (blob 32 [(0, 8, 0x7000), (8, 8, 0x2000), (16, 4,
        64)]) device)), _, 1, 0, _, (aRun (desc 0 3 1 [(32, 8, 0x1000)])), _, (List.replicate 64 1), h0, h1, rfl,
        (readable_of h3), rfl, rfl, h6, h7, h8, h9, h10, h11, h12, h13, (writable_of h14), (canEnd_of h15)⟩),
   (by
    have H : ((fun (s : State) (run : Nat) (item : Nat) (r : Run) (bs : List Byte) =>
        decide (s.itemReady 0 3 run item = some r) && (decide (leAt r.desc.bytes 40 88 = 0) && ((fun (a : Nat) =>
        decide (readableB s a 32 = true) && ((fun (ent : List Byte) => (fun (s1 : State) => decide (s1.host.up = true) &&
        (decide (s1.host.released = true) && (decide ((s1.ideRequired = false ∨ s1.ideUp = true)) &&
        (decide (leAt ent 16 4 % 64 = 0) && (decide (leAt ent 16 4 ≤ 2 ^ 30) && (decide (leAt ent 21 11 = 0) &&
        (decide (bs.length = leAt ent 16 4) && (decide (leAt ent 20 1 = 1) && (decide (readableB s1 (leAt ent 8 8) bs.length =
        true) && (decide (bs = s1.devRead (addrKey (leAt ent 8 8)) bs.length) && (decide (canEnd (s1.afterRead (r.env s item)
        (leAt ent 8 8) bs.length) run item r = true) && (true)))))))))))) ((s.beginItem run item).afterRead (r.env s item) a 32))
        (s.devRead (addrKey a) 32))) (leAt r.desc.bytes 32 8 + 32 * item)))) (runs (aRun (desc 0 3 1 [(32, 8,
        0x1000)])) (place 0x1000 (blob 32 [(0, 8, 0x7000), (8, 8, 0x2000), (16, 4, 64), (20, 1,
        1)]) device)) (1) (0) (aRun (desc 0 3 1 [(32, 8, 0x1000)])) (List.replicate 64 0)) = true := by decide +kernel
    obtain ⟨h0, H⟩ := and_of H
    obtain ⟨h1, H⟩ := and_of H
    obtain ⟨h3, H⟩ := and_of H
    obtain ⟨h6, H⟩ := and_of H
    obtain ⟨h7, H⟩ := and_of H
    obtain ⟨h8, H⟩ := and_of H
    obtain ⟨h9, H⟩ := and_of H
    obtain ⟨h10, H⟩ := and_of H
    obtain ⟨h11, H⟩ := and_of H
    obtain ⟨h12, H⟩ := and_of H
    obtain ⟨h13, H⟩ := and_of H
    obtain ⟨h14, H⟩ := and_of H
    obtain ⟨h15, H⟩ := and_of H
    obtain ⟨h16, H⟩ := and_of H
    exact ⟨(runs (aRun (desc 0 3 1 [(32, 8, 0x1000)])) (place 0x1000 (blob 32 [(0, 8, 0x7000), (8, 8, 0x2000), (16, 4, 64),
        (20, 1, 1)]) device)), _, 1, 0, _, (aRun (desc 0 3 1 [(32, 8, 0x1000)])), _, (List.replicate 64 0), h0, h1, rfl,
        (readable_of h3), rfl, rfl, h6, h7, h8, h9, h10, h11, h12, h13, (readable_of h14), h15, (canEnd_of h16)⟩)⟩

/-- States that meet the hypotheses of `Obligations.BiasChangesWhenAccessesComplete`, one for each clause. -/
theorem witness_BiasChangesWhenAccessesComplete :
    (∃ (s : State) (run item off n dev : Nat) (r : Run), s.itemReady 0 4 run item = some r ∧
      off = leAt r.desc.bytes 32 8 ∧
      n = leAt r.desc.bytes 40 4 ∧
      dev = leAt r.desc.bytes 44 1 ∧
      leAt r.desc.bytes 45 83 = 0 ∧
      s.host.cxl = true ∧
      dev < 2 ∧
      off % 2 ^ 21 = 0 ∧
      n ≠ 0 ∧
      off + n * 2 ^ 21 ≤ s.fld cxlmemSizeSize * 2 ^ 32) ∧
    (∃ (s : State) (run item : Nat) (c : BiasChange) (r : Run), (s.host.biasChanges.find? (fun c => c.run == run &&
        c.item == item) = some c) ∧
      s.findRun run = some r ∧
      hdrClass r.desc.bytes = 0 ∧
      s.itemOpen run item = true ∧
      s.waitsAck run item = false) :=
  ⟨(by
    have H : ((fun (s : State) (run : Nat) (item : Nat) (r : Run) => decide (s.itemReady 0 4 run item = some r) &&
        ((fun (off : Nat) => (fun (n : Nat) => (fun (dev : Nat) => decide (leAt r.desc.bytes 45 83 = 0) &&
        (decide (s.host.cxl = true) && (decide (dev < 2) && (decide (off % 2 ^ 21 = 0) && (decide (n ≠ 0) &&
        (decide (off + n * 2 ^ 21 ≤ s.fld cxlmemSizeSize * 2 ^ 32) && (true))))))) (leAt r.desc.bytes 44 1)) (leAt r.desc.bytes 40
        4)) (leAt r.desc.bytes 32 8))) (runs (aRun (desc 0 4 1 [(40, 4, 2048), (44, 1, 1)])) (sets [(cxlmemSizeSize,
        1)] device)) (1) (0) (aRun (desc 0 4 1 [(40, 4, 2048), (44, 1, 1)]))) = true := by decide +kernel
    obtain ⟨h0, H⟩ := and_of H
    obtain ⟨h4, H⟩ := and_of H
    obtain ⟨h5, H⟩ := and_of H
    obtain ⟨h6, H⟩ := and_of H
    obtain ⟨h7, H⟩ := and_of H
    obtain ⟨h8, H⟩ := and_of H
    obtain ⟨h9, H⟩ := and_of H
    exact ⟨(runs (aRun (desc 0 4 1 [(40, 4, 2048), (44, 1, 1)])) (sets [(cxlmemSizeSize, 1)] device)), 1, 0, _, _, _,
        (aRun (desc 0 4 1 [(40, 4, 2048), (44, 1, 1)])), h0, rfl, rfl, rfl, h4, h5, h6, h7, h8, h9⟩),
   (by
    have H : ((fun (s : State) (run : Nat) (item : Nat) (r : Run) => onSome (s.host.biasChanges.find? (fun c =>
        c.run == run && c.item == item)) fun (c : BiasChange) => decide (s.findRun run = some r) &&
        (decide (hdrClass r.desc.bytes = 0) && (decide (s.itemOpen run item = true) && (decide (s.waitsAck run item = false) &&
        (true))))) (runs (aRun (desc 0 4 1 [(40, 4, 1), (44, 1, 1)]))
        { device with host := { device.host with biasChanges := [⟨1, 0, 0, 1, true⟩] } }) (1) (0) (aRun (desc 0 4 1 [(40, 4, 1),
        (44, 1, 1)]))) = true := by decide +kernel
    obtain ⟨c, h0, H⟩ := of_some H
    obtain ⟨h1, H⟩ := and_of H
    obtain ⟨h2, H⟩ := and_of H
    obtain ⟨h3, H⟩ := and_of H
    obtain ⟨h4, H⟩ := and_of H
    exact ⟨(runs (aRun (desc 0 4 1 [(40, 4, 1), (44, 1, 1)]))
        { device with host := { device.host with biasChanges := [⟨1, 0, 0, 1, true⟩] } }), 1, 0, _, (aRun (desc 0 4 1 [(40, 4, 1),
        (44, 1, 1)])), h0, h1, h2, h3, h4⟩)⟩

/-- States that meet the hypotheses of `Obligations.DoorbellTakesIndices`, one for each clause. -/
theorem witness_DoorbellTakesIndices :
    (∃ (s w : State) (n : Nat) (l : DoorbellLine), w = s.wakeDimmed ∧
      s.ringLive n = true ∧
      s.isFallbackRing n = false ∧
      s.powerState < 2 ∧
      (w.ring n).prodOk (w.sqSize n) l.prod = true ∧
      (w.ring n).consOk (w.cqSize n) l.cons = true ∧
      l.cancel = (w.ring n).cancel ∧
      s.ringDevice n = true ∧
      s.readLine n = some l) ∧
    (∃ (s w : State) (n : Nat) (l : DoorbellLine), w = s.wakeDimmed ∧
      s.ringLive n = true ∧
      s.isFallbackRing n = false ∧
      s.powerState < 2 ∧
      (w.ring n).prodOk (w.sqSize n) l.prod = true ∧
      (w.ring n).consOk (w.cqSize n) l.cons = true ∧
      l.cancel = (w.ring n).cancel ∧
      s.ringDevice n = false ∧
      s.host.cxl = false ∧
      s.host.up = true) ∧
    (∃ (s w : State) (n : Nat) (l : DoorbellLine), w = s.wakeDimmed ∧
      s.ringLive n = true ∧
      s.isFallbackRing n = false ∧
      s.powerState < 2 ∧
      s.ringDevice n = true ∧
      s.readLine n = some l ∧
      (w.ring n).prodOk (w.sqSize n) l.prod = false ∧
      (w.ring n).consOk (w.cqSize n) l.cons = true ∧
      l.prod ∉ (w.ring n).badProd ∧
      l.cancel = (w.ring n).cancel) :=
  ⟨(by
    have H : ((fun (s : State) (n : Nat) (l : DoorbellLine) => (fun (w : State) => decide (s.ringLive n = true) &&
        (decide (s.isFallbackRing n = false) && (decide (s.powerState < 2) && (decide ((w.ring n).prodOk (w.sqSize n) l.prod =
        true) && (decide ((w.ring n).consOk (w.cqSize n) l.cons = true) && (decide (l.cancel = (w.ring n).cancel) &&
        (decide (s.ringDevice n = true) && (decide (s.readLine n = some l) && (true))))))))) (s.wakeDimmed)) (rung 64 0 0) (0)
        (⟨64, 0, 0⟩)) = true := by decide +kernel
    obtain ⟨h1, H⟩ := and_of H
    obtain ⟨h2, H⟩ := and_of H
    obtain ⟨h3, H⟩ := and_of H
    obtain ⟨h4, H⟩ := and_of H
    obtain ⟨h5, H⟩ := and_of H
    obtain ⟨h6, H⟩ := and_of H
    obtain ⟨h7, H⟩ := and_of H
    obtain ⟨h8, H⟩ := and_of H
    exact ⟨(rung 64 0 0), _, 0, (⟨64, 0, 0⟩), rfl, h1, h2, h3, h4, h5, h6, h7, h8⟩),
   (by
    have H : ((fun (s : State) (n : Nat) (l : DoorbellLine) => (fun (w : State) => decide (s.ringLive n = true) &&
        (decide (s.isFallbackRing n = false) && (decide (s.powerState < 2) && (decide ((w.ring n).prodOk (w.sqSize n) l.prod =
        true) && (decide ((w.ring n).consOk (w.cqSize n) l.cons = true) && (decide (l.cancel = (w.ring n).cancel) &&
        (decide (s.ringDevice n = false) && (decide (s.host.cxl = false) && (decide (s.host.up = true) &&
        (true)))))))))) (s.wakeDimmed)) ({ devHost with host := { devHost.host with cxl := false } }) (255) (⟨64, 0,
        0⟩)) = true := by decide +kernel
    obtain ⟨h1, H⟩ := and_of H
    obtain ⟨h2, H⟩ := and_of H
    obtain ⟨h3, H⟩ := and_of H
    obtain ⟨h4, H⟩ := and_of H
    obtain ⟨h5, H⟩ := and_of H
    obtain ⟨h6, H⟩ := and_of H
    obtain ⟨h7, H⟩ := and_of H
    obtain ⟨h8, H⟩ := and_of H
    obtain ⟨h9, H⟩ := and_of H
    exact ⟨({ devHost with host := { devHost.host with cxl := false } }), _, 255, (⟨64, 0, 0⟩), rfl, h1, h2, h3, h4, h5, h6,
        h7, h8, h9⟩),
   (by
    have H : ((fun (s : State) (n : Nat) (l : DoorbellLine) => (fun (w : State) => decide (s.ringLive n = true) &&
        (decide (s.isFallbackRing n = false) && (decide (s.powerState < 2) && (decide (s.ringDevice n = true) &&
        (decide (s.readLine n = some l) && (decide ((w.ring n).prodOk (w.sqSize n) l.prod = false) &&
        (decide ((w.ring n).consOk (w.cqSize n) l.cons = true) && (decide (l.prod ∉ (w.ring n).badProd) &&
        (decide (l.cancel = (w.ring n).cancel) && (true)))))))))) (s.wakeDimmed)) (rung 65 0 0) (0) (⟨65, 0, 0⟩)) = true :=
        by decide +kernel
    obtain ⟨h1, H⟩ := and_of H
    obtain ⟨h2, H⟩ := and_of H
    obtain ⟨h3, H⟩ := and_of H
    obtain ⟨h4, H⟩ := and_of H
    obtain ⟨h5, H⟩ := and_of H
    obtain ⟨h6, H⟩ := and_of H
    obtain ⟨h7, H⟩ := and_of H
    obtain ⟨h8, H⟩ := and_of H
    obtain ⟨h9, H⟩ := and_of H
    exact ⟨(rung 65 0 0), _, 0, (⟨65, 0, 0⟩), rfl, h1, h2, h3, h4, h5, h6, h7, h8, h9⟩)⟩

/-- States that meet the hypotheses of `Obligations.FetchTakesNextSlot`, one for each clause. -/
theorem witness_FetchTakesNextSlot :
    (∃ (s w : State) (n now : Nat), w = s.tick now ∧
      w.mayFetch n = true ∧
      w.ringDevice n = true ∧
      (w.ring n).cons ≠ (w.ring n).prod ∧
      w.devShut (addrKey (w.reg (rRingSqBase n)) + 128 * ((w.ring n).cons.toNat % w.sqSize n)) = false ∧
      w.devBad (addrKey (w.reg (rRingSqBase n)) + 128 * ((w.ring n).cons.toNat % w.sqSize n)) 128 = false) :=
  (by
    have H : ((fun (s : State) (n : Nat) (now : Nat) => (fun (w : State) => decide (w.mayFetch n = true) &&
        (decide (w.ringDevice n = true) && (decide ((w.ring n).cons ≠ (w.ring n).prod) &&
        (decide (w.devShut (addrKey (w.reg (rRingSqBase n)) + 128 * ((w.ring n).cons.toNat % w.sqSize n)) = false) &&
        (decide (w.devBad (addrKey (w.reg (rRingSqBase n)) + 128 * ((w.ring n).cons.toNat % w.sqSize n)) 128 = false) &&
        (true)))))) (s.tick now)) (device.setRing 0 { Ring.init with prod := 1 }) (0) (5)) = true := by decide +kernel
    obtain ⟨h1, H⟩ := and_of H
    obtain ⟨h2, H⟩ := and_of H
    obtain ⟨h3, H⟩ := and_of H
    obtain ⟨h4, H⟩ := and_of H
    obtain ⟨h5, H⟩ := and_of H
    exact ⟨(device.setRing 0 { Ring.init with prod := 1 }), _, 0, 5, rfl, h1, h2, h3, h4, h5⟩)

/-- States that meet the hypotheses of `Obligations.DispatchBeginsRun`, one for each clause. -/
theorem witness_DispatchBeginsRun :
    (∃ (s w : State) (n now : Nat) (f : Fetched) (rest : List Fetched), w = ((s.tick now).wakeDimmed).dispatchRuns.noteHead n ∧
      (w.ring n).fifo = f :: rest ∧
      (w.ringRuns n).length < 32 ∧
      w.choiceOf f ≠ .fallback ∧
      ∃ x, w.ready n = some (f, x) ∧
      (∀ a, x = some a → w.turn n f a.1 = true) ∧
      (∀ r ∈ w.runs, r.id ≠ w.sched.nextRun)) ∧
    (∃ (s w : State) (n now : Nat) (f : Fetched) (rest : List Fetched), w = ((s.tick now).wakeDimmed).dispatchRuns.noteHead n ∧
      (w.ring n).fifo = f :: rest ∧
      (w.ringRuns n).length < 32 ∧
      w.choiceOf f ≠ .fallback ∧
      ∃ st dt, f.verdict = some (st, dt) ∧
      w.roomFor n f.todo.length = true) :=
  ⟨(by
    have H : ((fun (s : State) (n : Nat) (now : Nat) (f : Fetched) (rest : List Fetched) x => (fun (w : State) =>
        decide ((w.ring n).fifo = f :: rest) && (decide ((w.ringRuns n).length < 32) && (decide (w.choiceOf f ≠ .fallback) &&
        (decide (w.ready n = some (f, x)) && (decide ((∀ r ∈ w.runs, r.id ≠ w.sched.nextRun)) &&
        (true)))))) (((s.tick now).wakeDimmed).dispatchRuns.noteHead n)) (device.setRing 0
        { Ring.init with prod := 1, cons := 1, fifo := [fetched (desc 0 0 1 [])] }) (0) (5)
        ({ fetched (desc 0 0 1 []) with headCue := some 0 }) ([]) (none)) = true := by decide +kernel
    obtain ⟨h1, H⟩ := and_of H
    obtain ⟨h2, H⟩ := and_of H
    obtain ⟨h3, H⟩ := and_of H
    obtain ⟨h4, H⟩ := and_of H
    obtain ⟨h6, H⟩ := and_of H
    exact ⟨(device.setRing 0 { Ring.init with prod := 1, cons := 1, fifo := [fetched (desc 0 0 1 [])] }), _, 0, 5, ({ fetched (desc 0 0 1 []) with headCue := some 0 }), [], rfl, h1, h2, h3, none, h4, (by intro a h; exact nomatch h), h6⟩),
   (by
    have H : ((fun (s : State) (n : Nat) (now : Nat) (f : Fetched) (rest : List Fetched) st dt => (fun (w : State) =>
        decide ((w.ring n).fifo = f :: rest) && (decide ((w.ringRuns n).length < 32) && (decide (w.choiceOf f ≠ .fallback) &&
        (decide (f.verdict = some (st, dt)) && (decide (w.roomFor n f.todo.length = true) &&
        (true)))))) (((s.tick now).wakeDimmed).dispatchRuns.noteHead n)) (device.setRing 0
        { Ring.init with prod := 1, cons := 1, fifo := [{ fetched (desc 0 0 1 []) with verdict := some (0x11, 0) }] }) (0) (5)
        ({ fetched (desc 0 0 1 []) with headCue := some 0, verdict := some (0x11, 0) }) ([]) (0x11) (0)) = true :=
        by decide +kernel
    obtain ⟨h1, H⟩ := and_of H
    obtain ⟨h2, H⟩ := and_of H
    obtain ⟨h3, H⟩ := and_of H
    obtain ⟨h4, H⟩ := and_of H
    obtain ⟨h5, H⟩ := and_of H
    exact ⟨(device.setRing 0
        { Ring.init with prod := 1, cons := 1, fifo := [{ fetched (desc 0 0 1 []) with verdict := some (0x11, 0) }] }), _, 0, 5,
        ({ fetched (desc 0 0 1 []) with headCue := some 0, verdict := some (0x11, 0) }), [], rfl, h1, h2, h3, 0x11, 0, h4, h5⟩)⟩

/-- A step of ring 1, predicted to miss, that waits for a matrix descriptor's charge; run 1 has taken it from the pool. -/
def missing : State :=
  ((runs { onTile (desc 1 0 2 []) with group := some 0, pooled := true }
    (sets [(ringCtrlContext 1, 1), (ctxSchedDeadlineCues 1, 1), (ctxSchedSharePct 1, 50)]
      { device with sched := { Sched.init with pastMid := true } })).setRing 1
    { Ring.init with
      fifo := [{ fetched (desc 1 0 1 [(4, 1, 1), (12, 4, 5)]) with ring := 1 }]
      steps := [{ first := 0, last := some 0, finished := [], arrived := 0, choice := .program, missPredicted := true,
                  worst := 0, programLeft := 0, late := false }] })

/-- A NOP that waits for fence 0 to reach 1, at the head of ring 0 since slot 0. -/
def waiter : Fetched := { fetched (desc 0 0 1 [(16, 4, 0x18000)]) with headCue := some 0 }

/-- States that meet the hypotheses of `Obligations.RunsCutShort`, one for each clause. -/
theorem witness_RunsCutShort :
    (∃ (s : State) (n c : Nat) (f : Fetched) (rest : List Fetched), (s.ring n).fifo = f :: rest ∧
      f.verdict = none ∧
      s.fenceState f = .unmet ∧
      f.headCue = some c ∧
      c + s.fld (ringTimeoutFenceWaitCues n) ≤ s.cueNo) ∧
    (∃ (s w : State) (run now : Nat) (r : Run), w = s.tick now ∧
      w.findRun run = some r) ∧
    (∃ (s w : State) (run now g : Nat) (r : Run), w = s.tick now ∧
      w.findRun run = some r ∧
      r.group = some g ∧
      w.blockingMode = false ∧
      w.sched.pastMid = true ∧
      w.preemptible r = true ∧
      w.lacks g = true ∧
      (∀ q ∈ w.runs, q.group = some g → w.preemptible q = true → q.id ≤ r.id)) :=
  ⟨(by
    have H : ((fun (s : State) (n : Nat) (c : Nat) (f : Fetched) (rest : List Fetched) =>
        decide ((s.ring n).fifo = f :: rest) && (decide (f.verdict = none) && (decide (s.fenceState f = .unmet) &&
        (decide (f.headCue = some c) && (decide (c + s.fld (ringTimeoutFenceWaitCues n) ≤ s.cueNo) &&
        (true)))))) ((sets [(ctxFenceBaseBase 0, 0x8000)] (device.setReg rCueNumber 256)).setRing 0
        { Ring.init with prod := 1, cons := 1, fifo := [waiter] }) (0) (0) (waiter) ([])) = true := by decide +kernel
    obtain ⟨h0, H⟩ := and_of H
    obtain ⟨h1, H⟩ := and_of H
    obtain ⟨h2, H⟩ := and_of H
    obtain ⟨h3, H⟩ := and_of H
    obtain ⟨h4, H⟩ := and_of H
    exact ⟨((sets [(ctxFenceBaseBase 0, 0x8000)] (device.setReg rCueNumber 256)).setRing 0
        { Ring.init with prod := 1, cons := 1, fifo := [waiter] }), 0, 0, waiter, [], h0, h1, h2, h3, h4⟩),
   (by
    have H : ((fun (s : State) (run : Nat) (now : Nat) => (fun (w : State) => onSome (w.findRun run) fun (r : Run) =>
        true) (s.tick now)) (runs (aRun (desc 0 0 1 [])) device) (1) (5)) = true := by decide +kernel
    obtain ⟨r, h1, H⟩ := of_some H
    exact ⟨(runs (aRun (desc 0 0 1 [])) device), _, 1, 5, _, rfl, h1⟩),
   (by
    have H : ((fun (s : State) (run : Nat) (now : Nat) (g : Nat) => (fun (w : State) => onSome (w.findRun run)
        fun (r : Run) => decide (r.group = some g) && (decide (w.blockingMode = false) && (decide (w.sched.pastMid = true) &&
        (decide (w.preemptible r = true) && (decide (w.lacks g = true) && (decide ((∀ q ∈ w.runs, q.group = some g →
        w.preemptible q = true → q.id ≤ r.id)) && (true))))))) (s.tick now)) (missing) (1) (5) (0)) = true := by decide +kernel
    obtain ⟨r, h1, H⟩ := of_some H
    obtain ⟨h2, H⟩ := and_of H
    obtain ⟨h3, H⟩ := and_of H
    obtain ⟨h4, H⟩ := and_of H
    obtain ⟨h5, H⟩ := and_of H
    obtain ⟨h6, H⟩ := and_of H
    obtain ⟨h7, H⟩ := and_of H
    exact ⟨missing, _, 1, 5, 0, _, rfl, h1, h2, h3, h4, h5, h6, h7⟩)⟩

/-- A run whose one item has ended. -/
def endedRun : Run := { aRun (desc 0 0 1 []) with items := [{ anItem 0 with phase := .ended 0 0 }] }

/-- States that meet the hypotheses of `Obligations.RecordsAndInterrupts`, one for each clause. -/
theorem witness_RecordsAndInterrupts :
    (∃ (s w : State) (run now : Nat) (r : Run), w = s.tick now ∧
      w.findRun run = some r ∧
      r.items.all Item.hasEnded = true) ∧
    (∃ (s w u : State) (n now t0 : Nat), w = s.tick now ∧
      w.signals n = true ∧
      w.fld (ringIrqDelayUs n) ≠ 0 ∧
      (w.ring n).firstRec = some t0 ∧
      t0 + 1000 * w.fld (ringIrqDelayUs n) ≤ w.now ∧
      u = (if w.ringDevice n then (if w.devShut (addrKey (w.reg (rRingStatusAddr n))) then w else w.devWrite (addrKey (w.reg
          (rRingStatusAddr n))) (w.ring n).statusLine) else w.emit (.hostWrite (w.reg (rRingStatusAddr n)) (w.ring
          n).statusLine))) :=
  ⟨(by
    have H : ((fun (s : State) (run : Nat) (now : Nat) => (fun (w : State) => onSome (w.findRun run) fun (r : Run) =>
        decide (r.items.all Item.hasEnded = true) && (true)) (s.tick now)) ((runs endedRun device).setRing 0
        { Ring.init with prod := 1, cons := 1, held := 2 }) (1) (5)) = true := by decide +kernel
    obtain ⟨r, h1, H⟩ := of_some H
    obtain ⟨h2, H⟩ := and_of H
    exact ⟨((runs endedRun device).setRing 0 { Ring.init with prod := 1, cons := 1, held := 2 }), _, 1, 5, _, rfl, h1, h2⟩),
   (by
    have H : ((fun (s : State) (n : Nat) (now : Nat) => (fun (w : State) => decide (w.signals n = true) &&
        (decide (w.fld (ringIrqDelayUs n) ≠ 0) && (onSome ((w.ring n).firstRec) fun (t0 : Nat) =>
        decide (t0 + 1000 * w.fld (ringIrqDelayUs n) ≤ w.now) && ((fun (u : State) =>
        true) ((if w.ringDevice n then (if w.devShut (addrKey (w.reg (rRingStatusAddr n))) then w else w.devWrite (addrKey (w.reg
        (rRingStatusAddr n))) (w.ring n).statusLine) else w.emit (.hostWrite (w.reg (rRingStatusAddr n)) (w.ring
        n).statusLine))))))) (s.tick now)) ((sets [(ringIrqDelayUs 0, 1)] device).setRing 0
        { Ring.init with firstRec := some 0, sinceIrq := 1 }) (0) (1000)) = true := by decide +kernel
    obtain ⟨h1, H⟩ := and_of H
    obtain ⟨h2, H⟩ := and_of H
    obtain ⟨t0, h3, H⟩ := of_some H
    obtain ⟨h4, H⟩ := and_of H
    exact ⟨((sets [(ringIrqDelayUs 0, 1)] device).setRing 0 { Ring.init with firstRec := some 0, sinceIrq := 1 }), _, _, 0,
        1000, _, rfl, h1, h2, h3, h4, rfl⟩)⟩

/-- The one step of ring 0: a NOP of index 0. -/
def aStep (c : StepChoice) : StepMon :=
  { first := 0, last := some 0, finished := [], arrived := 0, choice := c, missPredicted := false, worst := 0,
    programLeft := 0, late := false }

/-- Ring 0 of a deadline context whose step, of one NOP that waits for fence 0, is to be decided on. -/
def deciding (deadline : Nat) : State :=
  (sets [(ctxFallbackEn 0, 1), (ctxSchedDeadlineCues 0, deadline), (ctxSchedSharePct 0, 50), (ctxFallbackRing 0,
      9)] device).setRing 0
    { Ring.init with prod := 1, cons := 1, fifo := [waiter], steps := [aStep .undecided] }

/-- The same one cue later, with a deadline that has passed. -/
def tooLate : State := (deciding 1).setReg rCueNumber 256

/-- The same with a fallback ring in device memory. -/
def withFallback : State :=
  (sets [(ringCtrlEn 9, 1), (ringCtrlLoc 9, 1), (ringCtrlSqLog2 9, 6), (ringCtrlCqLog2 9, 6)] (deciding 2)).setRing 9 Ring.init

def degraded (full : Nat) : State :=
  device.setRing 0 { Ring.init with prod := 1, cons := 1, held := full, fifo := [waiter], steps := [aStep .fallback] }

/-- States that meet the hypotheses of `Obligations.DeadlineMonitorDecides`, one for each clause. -/
theorem witness_DeadlineMonitorDecides :
    (∃ (s : State), (s.blockingMode = true ∨ s.sched.pastMid = true)) ∧
    (∃ (s : State), s.blockingMode = false ∧
      s.sched.pastMid = false) ∧
    (∃ (s s1 : State) (n now : Nat) (f : Fetched) (rest : List Fetched) (m : StepMon) (p : Option Nat),
        s1 = (s.tick now).noteHead n ∧
      (s1.ring n).fifo = f :: rest ∧
      s1.monitored n = true ∧
      s1.ringLive n = true ∧
      f.owner = none ∧
      (s1.ring n).stepOf f.index = some m ∧
      m.choice = .undecided ∧
      (m.last.isSome = true ∨ m.arrived + s1.fld (ringTimeoutFenceWaitCues n) ≤ s1.cueNo) ∧
      p = s1.predict n (s1.ringCtx n) m (s1.ownWaiting n m) ∧
      s1.fallbackRing (s1.ringCtx n) = none ∧
      s1.late p (s1.deadline n m) = false ∧
      s1.predecessorMissed n m = false) ∧
    (∃ (s s1 : State) (n now : Nat) (f : Fetched) (rest : List Fetched) (m : StepMon) (p : Option Nat),
        s1 = (s.tick now).noteHead n ∧
      (s1.ring n).fifo = f :: rest ∧
      s1.monitored n = true ∧
      s1.ringLive n = true ∧
      f.owner = none ∧
      (s1.ring n).stepOf f.index = some m ∧
      m.choice = .undecided ∧
      (m.last.isSome = true ∨ m.arrived + s1.fld (ringTimeoutFenceWaitCues n) ≤ s1.cueNo) ∧
      p = s1.predict n (s1.ringCtx n) m (s1.ownWaiting n m) ∧
      s1.fallbackRing (s1.ringCtx n) = none ∧
      (s1.late p (s1.deadline n m) = true ∨ s1.predecessorMissed n m = true)) ∧
    (∃ (s s1 : State) (n now : Nat) (f : Fetched) (rest : List Fetched) (m : StepMon) (p : Option Nat),
        s1 = (s.tick now).noteHead n ∧
      (s1.ring n).fifo = f :: rest ∧
      s1.monitored n = true ∧
      s1.ringLive n = true ∧
      f.owner = none ∧
      (s1.ring n).stepOf f.index = some m ∧
      m.choice = .undecided ∧
      (m.last.isSome = true ∨ m.arrived + s1.fld (ringTimeoutFenceWaitCues n) ≤ s1.cueNo) ∧
      p = s1.predict n (s1.ringCtx n) m (s1.ownWaiting n m) ∧
      ∃ k u prog, s1.fallbackRing (s1.ringCtx n) = some k ∧
      s1.readProgram n k = (u, prog)) ∧
    (∃ (s w : State) (n now : Nat) (m : StepMon), w = s.tick now ∧
      ((w.ring n).steps.find? (fun m => m.choice == .fallback && m.programLeft == 0) = some m) ∧
      (∀ f rest, (w.ring n).fifo = f :: rest → m.holds f.index = false ∨ f.owner.isSome = true ∨
          w.roomFor n f.todo.length = false)) ∧
    (∃ (s w : State) (n now : Nat) (m : StepMon), w = s.tick now ∧
      ((w.ring n).steps.find? (fun m => m.choice == .fallback && m.programLeft == 0) = some m) ∧
      ∃ f rest, (w.ring n).fifo = f :: rest ∧
      m.holds f.index = true ∧
      f.owner = none ∧
      w.roomFor n f.todo.length = true ∧
      (∀ g l, ((w.degradeHead n m f).ring n).fifo = g :: l → m.holds g.index = false ∨ g.owner.isSome = true ∨
          (w.degradeHead n m f).roomFor n g.todo.length = false)) :=
  ⟨(by
    have H : ((fun (s : State) => decide (s.blockingMode = true ∨ s.sched.pastMid = true) &&
        (true)) ({ device with sched := { Sched.init with pastMid := true } })) = true := by decide +kernel
    obtain ⟨h0, H⟩ := and_of H
    exact ⟨({ device with sched := { Sched.init with pastMid := true } }), h0⟩),
   (by
    have H : ((fun (s : State) => decide (s.blockingMode = false) && (decide (s.sched.pastMid = false) &&
        (true))) (device)) = true := by decide +kernel
    obtain ⟨h0, H⟩ := and_of H
    obtain ⟨h1, H⟩ := and_of H
    exact ⟨device, h0, h1⟩),
   (by
    have H : ((fun (s : State) (n : Nat) (now : Nat) (f : Fetched) (rest : List Fetched) (m : StepMon) => (fun (s1 : State) =>
        decide ((s1.ring n).fifo = f :: rest) && (decide (s1.monitored n = true) && (decide (s1.ringLive n = true) &&
        (decide (f.owner = none) && (decide ((s1.ring n).stepOf f.index = some m) && (decide (m.choice = .undecided) &&
        (decide ((m.last.isSome = true ∨ m.arrived + s1.fld (ringTimeoutFenceWaitCues n) ≤ s1.cueNo)) && ((fun (p : Option Nat) =>
        decide (s1.fallbackRing (s1.ringCtx n) = none) && (decide (s1.late p (s1.deadline n m) = false) &&
        (decide (s1.predecessorMissed n m = false) && (true)))) (s1.predict n (s1.ringCtx n) m (s1.ownWaiting n m))))))))))
        ((s.tick now).noteHead n)) (deciding 2) (0) (0) (waiter) ([]) (aStep .undecided)) = true := by decide +kernel
    obtain ⟨h1, H⟩ := and_of H
    obtain ⟨h2, H⟩ := and_of H
    obtain ⟨h3, H⟩ := and_of H
    obtain ⟨h4, H⟩ := and_of H
    obtain ⟨h5, H⟩ := and_of H
    obtain ⟨h6, H⟩ := and_of H
    obtain ⟨h7, H⟩ := and_of H
    obtain ⟨h9, H⟩ := and_of H
    obtain ⟨h10, H⟩ := and_of H
    obtain ⟨h11, H⟩ := and_of H
    exact ⟨(deciding 2), _, 0, 0, waiter, [], (aStep .undecided), _, rfl, h1, h2, h3, h4, h5, h6, h7, rfl, h9, h10, h11⟩),
   (by
    have H : ((fun (s : State) (n : Nat) (now : Nat) (f : Fetched) (rest : List Fetched) (m : StepMon) => (fun (s1 : State) =>
        decide ((s1.ring n).fifo = f :: rest) && (decide (s1.monitored n = true) && (decide (s1.ringLive n = true) &&
        (decide (f.owner = none) && (decide ((s1.ring n).stepOf f.index = some m) && (decide (m.choice = .undecided) &&
        (decide ((m.last.isSome = true ∨ m.arrived + s1.fld (ringTimeoutFenceWaitCues n) ≤ s1.cueNo)) && ((fun (p : Option Nat) =>
        decide (s1.fallbackRing (s1.ringCtx n) = none) && (decide (s1.late p (s1.deadline n m) = true ∨
        s1.predecessorMissed n m = true) && (true))) (s1.predict n (s1.ringCtx n) m (s1.ownWaiting n m)))))))))) ((s.tick
        now).noteHead n)) (tooLate) (0) (0) (waiter) ([]) (aStep .undecided)) = true := by decide +kernel
    obtain ⟨h1, H⟩ := and_of H
    obtain ⟨h2, H⟩ := and_of H
    obtain ⟨h3, H⟩ := and_of H
    obtain ⟨h4, H⟩ := and_of H
    obtain ⟨h5, H⟩ := and_of H
    obtain ⟨h6, H⟩ := and_of H
    obtain ⟨h7, H⟩ := and_of H
    obtain ⟨h9, H⟩ := and_of H
    obtain ⟨h10, H⟩ := and_of H
    exact ⟨tooLate, _, 0, 0, waiter, [], (aStep .undecided), _, rfl, h1, h2, h3, h4, h5, h6, h7, rfl, h9, h10⟩),
   (by
    have H : ((fun (s : State) (n : Nat) (now : Nat) (f : Fetched) (rest : List Fetched) (m : StepMon) k =>
        (fun (s1 : State) => decide ((s1.ring n).fifo = f :: rest) && (decide (s1.monitored n = true) &&
        (decide (s1.ringLive n = true) && (decide (f.owner = none) && (decide ((s1.ring n).stepOf f.index = some m) &&
        (decide (m.choice = .undecided) && (decide ((m.last.isSome = true ∨ m.arrived + s1.fld (ringTimeoutFenceWaitCues n) ≤
        s1.cueNo)) && ((fun (p : Option Nat) => decide (s1.fallbackRing (s1.ringCtx n) = some k) && (onThe (s1.readProgram n k)
        fun x => (fun u prog => true) x.1 x.2)) (s1.predict n (s1.ringCtx n) m (s1.ownWaiting n m)))))))))) ((s.tick now).noteHead
        n)) (withFallback) (0) (0) (waiter) ([]) (aStep .undecided) (9)) = true := by decide +kernel
    obtain ⟨h1, H⟩ := and_of H
    obtain ⟨h2, H⟩ := and_of H
    obtain ⟨h3, H⟩ := and_of H
    obtain ⟨h4, H⟩ := and_of H
    obtain ⟨h5, H⟩ := and_of H
    obtain ⟨h6, H⟩ := and_of H
    obtain ⟨h7, H⟩ := and_of H
    obtain ⟨h9, H⟩ := and_of H
    obtain ⟨⟨u, prog⟩, h10, H⟩ := of_the H
    exact ⟨withFallback, _, 0, 0, waiter, [], (aStep .undecided), _, rfl, h1, h2, h3, h4, h5, h6, h7, rfl, 9, _, _, h9, h10⟩),
   (by
    have H : ((fun (s : State) (n : Nat) (now : Nat) (m : StepMon) => (fun (w : State) =>
        decide ((w.ring n).steps.find? (fun m => m.choice == .fallback && m.programLeft == 0) = some m) &&
        (true)) (s.tick now)) (degraded 64) (0) (0) (aStep .fallback)) = true := by decide +kernel
    obtain ⟨h1, H⟩ := and_of H
    exact ⟨(degraded 64), _, 0, 0, (aStep .fallback), rfl, h1, (fun f rest h => Or.inr (Or.inr (by obtain ⟨rfl, rfl⟩ := List.cons.inj h.symm; decide +kernel)))⟩),
   (by
    have H : ((fun (s : State) (n : Nat) (now : Nat) (m : StepMon) f rest => (fun (w : State) =>
        decide ((w.ring n).steps.find? (fun m => m.choice == .fallback && m.programLeft == 0) = some m) &&
        (decide ((w.ring n).fifo = f :: rest) && (decide (m.holds f.index = true) && (decide (f.owner = none) &&
        (decide (w.roomFor n f.todo.length = true) && (true)))))) (s.tick now)) (degraded 0) (0) (0) (aStep .fallback) (waiter)
        ([])) = true := by decide +kernel
    obtain ⟨h1, H⟩ := and_of H
    obtain ⟨h2, H⟩ := and_of H
    obtain ⟨h3, H⟩ := and_of H
    obtain ⟨h4, H⟩ := and_of H
    obtain ⟨h5, H⟩ := and_of H
    exact ⟨(degraded 0), _, 0, 0, (aStep .fallback), rfl, h1, waiter, [], h2, h3, h4, h5, (no_head (by decide +kernel))⟩)⟩

end Sys2Proof.Tests
end

