-- ==== Sys2Proof/Tests/Witness03.lean ====
section
/-! SUPPORT. States that meet the hypotheses of the statements. -/

set_option Elab.async false
namespace Sys2Proof.Tests
open Sys2Proof.Machine

/-- A page table of one head, 64 FP8 elements and one page at 0x1000, with its sequence's record at 0x3000; its two entries
name the frames of pool 0 at 0x20000 and 0x30000 where `used`. The pool holds frames 2 to 5, of which frame 4 is the
first free one. -/
def pooled (length st resv : Nat) (used : Bool) (s : State) : State :=
  let e := fun n => if used then n * 65536 + 2 ^ 14 else 0
  place 0x5000 (blob 96 [(0, 4, 4), (4, 4, 2), (16, 4, 2), (28, 4, 2), (32, 8, 0), (64, 8, frWord 1 0 1), (72, 8, frWord 1 0 1),
      (80, 8, 2 ^ 32 * 3), (88, 8, 2 ^ 32 * noFrame)])
    (place 0x3000 (blob 64 [(0, 1, st), (4, 4, resv)])
      (place 0x1000 (blob 64 [(0, 4, length), (4, 1, 10), (5, 1, 3), (6, 2, 64), (8, 1, 1), (12, 4, 1), (16, 8, 0x3000)] ++
          leBytes 8 (e 2) ++ leBytes 8 (e 3))
        (sets [(ctxKvpagesLimit 0, 4)] (s.setReg rKvpool0Base 0x5000))))

def appendDesc : List Byte := desc 2 1 1 ([(36, 2, 1), (40, 8, 0x1000)] ++ opAt 56 0 1 1 3 ++ opAt 72 128 1 1 3)
def joinDesc (op : Nat) : List Byte := desc 2 op 1 [(40, 8, 0x3000), (56, 4, 1)]
def leaveDesc : List Byte := desc 2 3 1 [(40, 8, 0x1000)]
def shareDesc : List Byte := desc 2 5 1 [(36, 4, 1), (40, 8, 0x1000), (48, 8, 0x8000)]

/-- States that meet the hypotheses of `Obligations.SequenceItemsEnd`, one for each clause. -/
theorem witness_SequenceItemsEnd :
    (∃ (s s0 s1 s2 s3 s4 s5 s6 s7 s8 u : State) (run item : Nat) (r : Run) (e : ItemEnv) (z : List Byte),
        s0 = s.beginItem run item ∧
      e = r.env s item ∧
      z = payloadOf r.desc.bytes ∧
      u.CanEnd run item r ∧
      ∃ (tile v took : Nat) (p : PageTable) (sq : List Byte) (ks vs : OpRef) (ents : List ((Nat × Nat × Nat) × Nat)) (kr vr
          : List (List Byte × List Byte)), s.itemReady 2 1 run item = some r ∧
      tile = itemTile r.desc.bytes item ∧
      (kvAppendCheck r.desc.bytes).Gives e s0 () s0 ∧
      ks = opRef ((z.drop 24).take 16) ∧
      vs = opRef ((z.drop 40).take 16) ∧
      (runTime (leAt z 2 1 == 2) tile (leAt z 56 4) (leAt z 4 2)).Gives e s0 v s1 ∧
      (stepTable (leAt z 8 8 + item * leAt z 16 8)).Gives e s1 p s2 ∧
      p.length + v ≤ p.pages * p.tokens ∧
      ks.fmtByte = p.fmtByte ∧
      vs.fmtByte = p.fmtByte ∧
      ks.ok (p.heads * p.dim) = true ∧
      vs.ok (p.heads * p.dim) = true ∧
      (stepSeq p.seqRec).Gives e s2 sq s3 ∧
      seqState sq = 2 ∧
      (stepEntries p (entryPlaces p (p.length / p.tokens) ((p.length + v - 1) / p.tokens + 1 - p.length / p.tokens))).Gives
          e s3 ents s4 ∧
      ((ents.forM fun x => entryOk p x.1.2.2 x.2).Gives e s4 () s4) ∧
      (sourceRows ks tile item (p.heads * p.dim) v).Gives e s4 kr s5 ∧
      (sourceRows vs tile item (p.heads * p.dim) v).Gives e s5 vr s6 ∧
      (appendPages p sq v ents kr vr).Gives e s6 took s7 ∧
      waitWrites.Gives e s7 () s8 ∧
      (inStepDo (store p.addr (leBytes 4 (p.length + v)))).Gives e s8 () u) ∧
    (∃ (s s0 s1 s2 s3 s4 s5 u : State) (run item : Nat) (r : Run) (e : ItemEnv) (z : List Byte), s0 = s.beginItem run item ∧
      e = r.env s item ∧
      z = payloadOf r.desc.bytes ∧
      u.CanEnd run item r ∧
      ∃ (a frames c : Nat) (b : List Byte) (p : PoolAt), s.itemReady 2 2 run item = some r ∧
      seqOperand.Gives e s0 (a, b, frames) s1 ∧
      (seqState b = 0 ∨ seqState b = 3 ∨ seqState b = 4) ∧
      (poolOf (seqMember b) (seqTier b)).Gives e s1 (some p) s2 ∧
      (inStepDo (store a (leBytes 2 1 ++ (b.drop 2).take 14 ++ leBytes 8 0 ++ leBytes 4 frames))).Gives e s2 () s3 ∧
      waitWrites.Gives e s3 () s4 ∧
      (p.own = true → (inStepNat (modify (fun s => s.acceptJoin p.tier a) >>= fun _ => do return (← get).cueNo)).Gives e s4 c u) ∧
      (p.own = false → (p.link a swapTries).Gives e s4 () s5 ∧ (freshNat (mkAddr p.member (3 * 2 ^ 43 + rCueNumber))
          4).Gives e s5 c u)) ∧
    (∃ (s s0 s1 s2 s3 s4 s5 s6 s7 u : State) (run item : Nat) (r : Run) (e : ItemEnv) (z : List Byte), s0 = s.beginItem run item ∧
      e = r.env s item ∧
      z = payloadOf r.desc.bytes ∧
      u.CanEnd run item r ∧
      ∃ (n : Nat) (p : PageTable) (b : List Byte) (ents : List ((Nat × Nat × Nat) × Nat)), s.itemReady 2 3 run item = some r ∧
      (seqLeaveCheck r.desc.bytes).Gives e s0 () s0 ∧
      (stepTable (leAt z 8 8 + item * leAt z 16 8)).Gives e s0 p s1 ∧
      (stepSeq p.seqRec).Gives e s1 b s2 ∧
      (stepEntries p (entryPlaces p 0 p.pages)).Gives e s2 ents s3 ∧
      (∀ x ∈ ents, enValid x.2 = true → enBad x.2 = false ∧ (checkWrite (enFrame x.2) 65536).Gives e s3 () s3) ∧
      (releaseEntries p ents).Gives e s3 () s4 ∧
      (inStepDo (store p.addr (leBytes 4 0))).Gives e s4 () s5 ∧
      ((changeResv p.seqRec (fun r => if r = 0 then none else some 0) swapTries).Gives e s5 n s6) ∧
      (returnReserve b n).Gives e s6 () s7 ∧
      ((inStepDo (store p.seqRec (leBytes 2 4) >>= fun _ => do store (p.seqRec + 12) (leBytes 4 (((← get).cueNo + 1) % 2 ^
          32)))).Gives e s7 () u)) ∧
    (∃ (s s0 s1 s2 s3 u : State) (run item : Nat) (r : Run) (e : ItemEnv) (z : List Byte), s0 = s.beginItem run item ∧
      e = r.env s item ∧
      z = payloadOf r.desc.bytes ∧
      u.CanEnd run item r ∧
      ∃ (a frames n : Nat) (b : List Byte) (p : PoolAt), s.itemReady 2 4 run item = some r ∧
      seqOperand.Gives e s0 (a, b, frames) s1 ∧
      seqState b = 2 ∧
      (poolOf (seqMember b) (seqTier b)).Gives e s1 (some p) s2 ∧
      (p.own = true → (inStepNat (p.reserveOwn (seqOwner b) frames)).Gives e s2 0 s3) ∧
      (p.own = false → (p.commit (seqOwner b) frames swapTries).Gives e s2 none s3) ∧
      ((changeResv a (fun r => some (r + frames)) swapTries).Gives e s3 n u)) ∧
    (∃ (s s0 s1 s2 s3 s4 s5 u : State) (run item : Nat) (r : Run) (e : ItemEnv) (z : List Byte), s0 = s.beginItem run item ∧
      e = r.env s item ∧
      z = payloadOf r.desc.bytes ∧
      u.CanEnd run item r ∧
      ∃ (p d : PageTable) (l : List ShareEntry), s.itemReady 2 5 run item = some r ∧
      (pageShareCheck r.desc.bytes).Gives e s0 () s0 ∧
      (stepTable (leAt z 8 8 + item * leAt z 24 8)).Gives e s0 p s1 ∧
      (stepTable (leAt z 16 8 + item * leAt z 24 8)).Gives e s1 d s2 ∧
      p.logT = d.logT ∧
      p.fmtByte = d.fmtByte ∧
      p.dim = d.dim ∧
      p.heads = d.heads ∧
      leAt z 4 4 ≤ p.length ∧
      d.length = 0 ∧
      ceilDiv (leAt z 4 4) p.tokens ≤ d.pages ∧
      (shareEntries p d (ceilDiv (leAt z 4 4) p.tokens)).Gives e s2 l s3 ∧
      (shareCounts l).Gives e s3 () s4 ∧
      (shareAll l).Gives e s4 () s5 ∧
      (inStepDo (store d.addr (leBytes 4 (leAt z 4 4)))).Gives e s5 () u) :=
  ⟨(by
    have H : ((fun (s : State) (run : Nat) (item : Nat) (r : Run) => (fun (s0 : State) => (fun (e : ItemEnv) =>
        (fun (z : List Byte) => decide (s.itemReady 2 1 run item = some r) && ((fun (tile : Nat) =>
        givesLit () (ItemM.on (kvAppendCheck r.desc.bytes) e s0) s0 && ((fun (ks : OpRef) => (fun (vs : OpRef) =>
        onOk (ItemM.on (runTime (leAt z 2 1 == 2) tile (leAt z 56 4) (leAt z 4 2)) e s0) fun (v : Nat) (s1 : State) =>
        onOk (ItemM.on (stepTable (leAt z 8 8 + item * leAt z 16 8)) e s1) fun (p : PageTable) (s2 : State) =>
        decide (p.length + v ≤ p.pages * p.tokens) && (decide (ks.fmtByte = p.fmtByte) && (decide (vs.fmtByte = p.fmtByte) &&
        (decide (ks.ok (p.heads * p.dim) = true) && (decide (vs.ok (p.heads * p.dim) = true) &&
        (onOk (ItemM.on (stepSeq p.seqRec) e s2) fun (sq : List Byte) (s3 : State) => decide (seqState sq = 2) &&
        (onOk (ItemM.on (stepEntries p (entryPlaces p (p.length / p.tokens) ((p.length + v - 1) / p.tokens + 1 - p.length /
        p.tokens))) e s3) fun (ents : List ((Nat × Nat × Nat) × Nat)) (s4 : State) => givesLit () (ItemM.on (ents.forM fun x =>
        entryOk p x.1.2.2 x.2) e s4) s4 && (onOk (ItemM.on (sourceRows ks tile item (p.heads * p.dim) v) e s4)
        fun (kr : List (List Byte × List Byte)) (s5 : State) => onOk (ItemM.on (sourceRows vs tile item (p.heads * p.dim) v) e s5)
        fun (vr : List (List Byte × List Byte)) (s6 : State) => onOk (ItemM.on (appendPages p sq v ents kr vr) e s6)
        fun (took : Nat) (s7 : State) => onOkUnit (ItemM.on waitWrites e s7) fun (s8 : State) =>
        onOkUnit (ItemM.on (inStepDo (store p.addr (leBytes 4 (p.length + v)))) e s8) fun (u : State) =>
        decide (canEnd u run item r = true) && (true))))))))) (opRef ((z.drop 40).take 16))) (opRef ((z.drop 24).take 16))))
        (itemTile r.desc.bytes item))) (payloadOf r.desc.bytes)) (r.env s item)) (s.beginItem run item)) (runs (onTile appendDesc)
        (pooled 0 2 0 false device)) (1) (0) (onTile appendDesc)) = true := by decide +kernel
    obtain ⟨h4, H⟩ := and_of H
    obtain ⟨h6, H⟩ := and_lit H
    obtain ⟨v, s1, h9, H⟩ := of_ok H
    obtain ⟨p, s2, h10, H⟩ := of_ok H
    obtain ⟨h11, H⟩ := and_of H
    obtain ⟨h12, H⟩ := and_of H
    obtain ⟨h13, H⟩ := and_of H
    obtain ⟨h14, H⟩ := and_of H
    obtain ⟨h15, H⟩ := and_of H
    obtain ⟨sq, s3, h16, H⟩ := of_ok H
    obtain ⟨h17, H⟩ := and_of H
    obtain ⟨ents, s4, h18, H⟩ := of_ok H
    obtain ⟨h19, H⟩ := and_lit H
    obtain ⟨kr, s5, h20, H⟩ := of_ok H
    obtain ⟨vr, s6, h21, H⟩ := of_ok H
    obtain ⟨took, s7, h22, H⟩ := of_ok H
    obtain ⟨s8, h23, H⟩ := of_okUnit H
    obtain ⟨u, h24, H⟩ := of_okUnit H
    obtain ⟨h3, H⟩ := and_of H
    exact ⟨(runs (onTile appendDesc) (pooled 0 2 0 false device)), _, _, _, _, _, _, _, _, _, _, 1, 0, (onTile appendDesc), _,
        _, rfl, rfl, rfl, (canEnd_of h3), _, _, _, _, _, _, _, _, _, _, h4, rfl, h6, rfl, rfl, h9, h10, h11, h12, h13, h14, h15,
        h16, h17, h18, h19, h20, h21, h22, h23, h24⟩),
   (by
    have H : ((fun (s : State) (s5 : State) (run : Nat) (item : Nat) (r : Run) => (fun (s0 : State) => (fun (e : ItemEnv) =>
        (fun (z : List Byte) => decide (s.itemReady 2 2 run item = some r) && (onOk (ItemM.on seqOperand e s0)
        fun x (s1 : State) => (fun (a : Nat) (b : List Byte) (frames : Nat) => decide (seqState b = 0 ∨ seqState b = 3 ∨
        seqState b = 4) && (onOkSomeT (ItemM.on (poolOf (seqMember b) (seqTier b)) e s1) fun (p : PoolAt) (s2 : State) =>
        onOkUnit (ItemM.on (inStepDo (store a (leBytes 2 1 ++ (b.drop 2).take 14 ++ leBytes 8 0 ++ leBytes 4 frames))) e s2)
        fun (s3 : State) => onOkUnit (ItemM.on waitWrites e s3) fun (s4 : State) => onOk (ItemM.on (inStepNat (modify (fun s =>
        s.acceptJoin p.tier a) >>= fun _ => do return (← get).cueNo)) e s4) fun (c : Nat) (u : State) =>
        decide (¬ (p.own = false)) && (decide (canEnd u run item r = true) && (true)))) x.1 x.2.1 x.2.2)) (payloadOf
        r.desc.bytes)) (r.env s item)) (s.beginItem run item)) (runs (onTile (joinDesc 2)) (pooled 0 4 0 false device)) (device)
        (1) (0) (onTile (joinDesc 2))) = true := by decide +kernel
    obtain ⟨h4, H⟩ := and_of H
    obtain ⟨⟨a, b, frames⟩, s1, h5, H⟩ := of_ok H
    obtain ⟨h6, H⟩ := and_of H
    obtain ⟨p, s2, h7, H⟩ := of_okSomeT H
    obtain ⟨s3, h8, H⟩ := of_okUnit H
    obtain ⟨s4, h9, H⟩ := of_okUnit H
    obtain ⟨c, u, h10, H⟩ := of_ok H
    obtain ⟨h11, H⟩ := and_of H
    obtain ⟨h3, H⟩ := and_of H
    exact ⟨(runs (onTile (joinDesc 2)) (pooled 0 4 0 false device)), _, _, _, _, _, device, _, 1, 0, (onTile (joinDesc 2)), _,
        _, rfl, rfl, rfl, (canEnd_of h3), _, _, _, _, _, h4, h5, h6, h7, h8, h9, (fun _ => h10), (fun h => absurd h h11)⟩),
   (by
    have H : ((fun (s : State) (run : Nat) (item : Nat) (r : Run) => (fun (s0 : State) => (fun (e : ItemEnv) => (fun (z : List Byte) => decide (s.itemReady 2 3 run item = some r) && (givesLit () (ItemM.on (seqLeaveCheck r.desc.bytes) e s0) s0 && (onOk (ItemM.on (stepTable (leAt z 8 8 + item * leAt z 16 8)) e s0) fun (p : PageTable) (s1 : State) => onOk (ItemM.on (stepSeq p.seqRec) e s1) fun (b : List Byte) (s2 : State) => onOk (ItemM.on (stepEntries p (entryPlaces p 0 p.pages)) e s2) fun (ents : List ((Nat × Nat × Nat) × Nat)) (s3 : State) => (ents).all (fun x => decide (¬(enValid x.2 = true)) || (decide (enBad x.2 = false) && givesLit () (ItemM.on (checkWrite (enFrame x.2) 65536) e s3) s3)) && (onOkUnit (ItemM.on (releaseEntries p ents) e s3) fun (s4 : State) => onOkUnit (ItemM.on (inStepDo (store p.addr (leBytes 4 0))) e s4) fun (s5 : State) => onOk (ItemM.on (changeResv p.seqRec (fun r => if r = 0 then none else some 0) swapTries) e s5) fun (n : Nat) (s6 : State) => onOkUnit (ItemM.on (returnReserve b n) e s6) fun (s7 : State) => onOkUnit (ItemM.on (inStepDo (store p.seqRec (leBytes 2 4) >>= fun _ => do store (p.seqRec + 12) (leBytes 4 (((← get).cueNo + 1) % 2 ^ 32)))) e s7) fun (u : State) => decide (canEnd u run item r = true) && (true))))) (payloadOf r.desc.bytes)) (r.env s item)) (s.beginItem run item)) (runs (onTile leaveDesc) (pooled 1 2 1 true device)) (1) (0) (onTile leaveDesc)) = true := by decide +kernel
    obtain ⟨h4, H⟩ := and_of H
    obtain ⟨h5, H⟩ := and_lit H
    obtain ⟨p, s1, h6, H⟩ := of_ok H
    obtain ⟨b, s2, h7, H⟩ := of_ok H
    obtain ⟨ents, s3, h8, H⟩ := of_ok H
    obtain ⟨h9, H⟩ := all_imp_gives H
    obtain ⟨s4, h10, H⟩ := of_okUnit H
    obtain ⟨s5, h11, H⟩ := of_okUnit H
    obtain ⟨n, s6, h12, H⟩ := of_ok H
    obtain ⟨s7, h13, H⟩ := of_okUnit H
    obtain ⟨u, h14, H⟩ := of_okUnit H
    obtain ⟨h3, H⟩ := and_of H
    exact ⟨(runs (onTile leaveDesc) (pooled 1 2 1 true device)), _, _, _, _, _, _, _, _, _, 1, 0, (onTile leaveDesc), _, _,
        rfl, rfl, rfl, (canEnd_of h3), _, _, _, _, h4, h5, h6, h7, h8, h9, h10, h11, h12, h13, h14⟩),
   (by
    have H : ((fun (s : State) (run : Nat) (item : Nat) (r : Run) => (fun (s0 : State) => (fun (e : ItemEnv) =>
        (fun (z : List Byte) => decide (s.itemReady 2 4 run item = some r) && (onOk (ItemM.on seqOperand e s0)
        fun x (s1 : State) => (fun (a : Nat) (b : List Byte) (frames : Nat) => decide (seqState b = 2) &&
        (onOkSomeT (ItemM.on (poolOf (seqMember b) (seqTier b)) e s1) fun (p : PoolAt) (s2 : State) =>
        onOkLit 0 (ItemM.on (inStepNat (p.reserveOwn (seqOwner b) frames)) e s2) fun (s3 : State) => decide (¬ (p.own = false)) &&
        (onOk (ItemM.on (changeResv a (fun r => some (r + frames)) swapTries) e s3) fun (n : Nat) (u : State) =>
        decide (canEnd u run item r = true) && (true)))) x.1 x.2.1 x.2.2)) (payloadOf r.desc.bytes)) (r.env s item)) (s.beginItem
        run item)) (runs (onTile (joinDesc 4)) (pooled 0 2 0 false device)) (1) (0) (onTile (joinDesc 4))) = true :=
        by decide +kernel
    obtain ⟨h4, H⟩ := and_of H
    obtain ⟨⟨a, b, frames⟩, s1, h5, H⟩ := of_ok H
    obtain ⟨h6, H⟩ := and_of H
    obtain ⟨p, s2, h7, H⟩ := of_okSomeT H
    obtain ⟨s3, h8, H⟩ := of_okLit H
    obtain ⟨h9, H⟩ := and_of H
    obtain ⟨n, u, h10, H⟩ := of_ok H
    obtain ⟨h3, H⟩ := and_of H
    exact ⟨(runs (onTile (joinDesc 4)) (pooled 0 2 0 false device)), _, _, _, _, _, 1, 0, (onTile (joinDesc 4)), _, _, rfl,
        rfl, rfl, (canEnd_of h3), _, _, _, _, _, h4, h5, h6, h7, (fun _ => h8), (fun h => absurd h h9), h10⟩),
   (by
    have H : ((fun (s : State) (run : Nat) (item : Nat) (r : Run) => (fun (s0 : State) => (fun (e : ItemEnv) =>
        (fun (z : List Byte) => decide (s.itemReady 2 5 run item = some r) && (givesLit () (ItemM.on (pageShareCheck r.desc.bytes)
        e s0) s0 && (onOk (ItemM.on (stepTable (leAt z 8 8 + item * leAt z 24 8)) e s0) fun (p : PageTable) (s1 : State) =>
        onOk (ItemM.on (stepTable (leAt z 16 8 + item * leAt z 24 8)) e s1) fun (d : PageTable) (s2 : State) =>
        decide (p.logT = d.logT) && (decide (p.fmtByte = d.fmtByte) && (decide (p.dim = d.dim) && (decide (p.heads = d.heads) &&
        (decide (leAt z 4 4 ≤ p.length) && (decide (d.length = 0) && (decide (ceilDiv (leAt z 4 4) p.tokens ≤ d.pages) &&
        (onOk (ItemM.on (shareEntries p d (ceilDiv (leAt z 4 4) p.tokens)) e s2) fun (l : List ShareEntry) (s3 : State) =>
        onOkUnit (ItemM.on (shareCounts l) e s3) fun (s4 : State) => onOkUnit (ItemM.on (shareAll l) e s4) fun (s5 : State) =>
        onOkUnit (ItemM.on (inStepDo (store d.addr (leBytes 4 (leAt z 4 4)))) e s5) fun (u : State) =>
        decide (canEnd u run item r = true) && (true))))))))))) (payloadOf r.desc.bytes)) (r.env s item)) (s.beginItem run item))
        (runs (onTile shareDesc) (place 0x8000 (blob 80 [(4, 1, 10), (5, 1, 3), (6, 2, 64), (8, 1, 1), (12, 4, 1), (16, 8,
        0x3000)]) (pooled 1 2 0 true device))) (1) (0) (onTile shareDesc)) = true := by decide +kernel
    obtain ⟨h4, H⟩ := and_of H
    obtain ⟨h5, H⟩ := and_lit H
    obtain ⟨p, s1, h6, H⟩ := of_ok H
    obtain ⟨d, s2, h7, H⟩ := of_ok H
    obtain ⟨h8, H⟩ := and_of H
    obtain ⟨h9, H⟩ := and_of H
    obtain ⟨h10, H⟩ := and_of H
    obtain ⟨h11, H⟩ := and_of H
    obtain ⟨h12, H⟩ := and_of H
    obtain ⟨h13, H⟩ := and_of H
    obtain ⟨h14, H⟩ := and_of H
    obtain ⟨l, s3, h15, H⟩ := of_ok H
    obtain ⟨s4, h16, H⟩ := of_okUnit H
    obtain ⟨s5, h17, H⟩ := of_okUnit H
    obtain ⟨u, h18, H⟩ := of_okUnit H
    obtain ⟨h3, H⟩ := and_of H
    exact ⟨(runs (onTile shareDesc) (place 0x8000 (blob 80 [(4, 1, 10), (5, 1, 3), (6, 2, 64), (8, 1, 1), (12, 4, 1), (16, 8,
        0x3000)]) (pooled 1 2 0 true device))), _, _, _, _, _, _, _, 1, 0, (onTile shareDesc), _, _, rfl, rfl, rfl,
        (canEnd_of h3), _, _, _, h4, h5, h6, h7, h8, h9, h10, h11, h12, h13, h14, h15, h16, h17, h18⟩)⟩

/-- BIAS_LOAD of generation 5 from 0x10000, two cues ahead. -/
def biasDesc : List Byte := desc 2 6 1 [(40, 8, 0x10000), (48, 1, 5), (49, 1, 2)]

/-- The first 68 bytes of its image of one head. Four bytes of ones bring the CRC register to 0, where zeros leave it. -/
def biasHead : List Byte := blob 68 [(0, 1, 1), (4, 4, 0xFFFFFFFF), (64, 4, 0xFFFFFFFF)]

def biasState : State := runs (aRun biasDesc) (place 0x10000 biasHead device)

/-- FN_LOAD of generation 9 from 0x10000. -/
def fnDesc : List Byte := desc 3 6 1 [(32, 8, 0x10000), (40, 1, 9)]

/-- The header of its image of 1,088 bytes, with no function. -/
def fnHead : List Byte := blob 64 [(0, 4, 1088), (4, 4, 0xEFB5AF2E)]

/-- Only partition 0 serves: a coppice holds each other one. -/
def fnState : State := runs (aRun fnDesc) (place 0x10000 fnHead (sets [(⟨rHealthStatus, 5, 7⟩, 0x7F)] device))

/-- Both buffers of tile 0 hold generations that must stay: 1 in force, 2 bound to a run. -/
def fnFull : State :=
  { sets [(fnStatusGen, 1)] fnState with
    fn := { fnState.fn with
      buffers := [(0, 1), (1, 2)], current := 1, nextImage := 3
      images := [(1, { gen := 1, run := 0, source := 0, bytes := [] }), (2, { gen := 2, run := 0, source := 0, bytes := [] })] }
    runs := [aRun fnDesc, { onTile (desc 1 0 1 []) with id := 2, fnGen := 2 }] }

/-- Bytes beyond the last listed one read as what an unlisted address holds. -/
theorem cellRead_beyond {α : Type} (d : α) (l : List (Nat × α)) (a k n : Nat) (h : ∀ c ∈ l, c.1 < a + k) :
    cellRead d l a (k + n) = cellRead d l a k ++ List.replicate n d := by
  rw [cellRead_eq, cellRead_eq, List.range_add, List.map_append, List.map_map]
  congr 1
  rw [List.eq_replicate_iff]
  refine ⟨by rw [List.length_map, List.length_range], fun b hb => ?_⟩
  obtain ⟨i, -, rfl⟩ := List.mem_map.mp hb
  have hf : cellFind (a + (k + i)) l = none := by
    clear hb
    induction l with
    | nil => rfl
    | cons c t ih =>
      have hc := h c (List.mem_cons_self ..)
      have := ih fun x hx => h x (List.mem_cons_of_mem _ hx)
      unfold cellFind
      rw [if_neg (by omega)]
      exact this
  show cellGet d l (a + (k + i)) = d
  unfold cellGet
  rw [hf]

/-- Work on a number, made before it goes on. -/
def force {α : Type} (c : Nat) (f : Nat → α) : α :=
  match c with
  | 0 => f 0
  | k + 1 => f (k + 1)

theorem force_eq {α : Type} (c : Nat) (f : Nat → α) : force c f = f c := by cases c <;> rfl

/-- The CRC register after `n` zero bytes. -/
def zeroCrc : Nat → Nat → Nat
  | 0, c => c
  | n + 1, c => force (crc32Shift 8 c) (zeroCrc n)

theorem zeroCrc_eq (n c : Nat) :
    (List.replicate n (0 : Byte)).foldl (fun c b => crc32Shift 8 (Nat.xor c b.toNat)) c = zeroCrc n c := by
  induction n generalizing c with
  | zero => rfl
  | succ n ih =>
    rw [List.replicate_succ, List.foldl_cons, ih, zeroCrc, force_eq]
    congr 2
    exact Nat.xor_zero c

theorem crc_of (l : List Byte) (c : Nat) (h : l.foldl (fun c b => crc32Shift 8 (Nat.xor c b.toNat)) 0xFFFFFFFF = c) :
    crc32 l = Nat.xor c 0xFFFFFFFF := by
  unfold crc32
  rw [h]

theorem imageOk_of (img : List Byte) {c : Nat} (h : crc32 (img.drop 64) = c)
    (k : (decide (1088 ≤ leAt img 0 4) && decide (leAt img 0 4 ≤ 65536) && decide (leAt img 0 4 % 16 = 0) &&
      decide (img.length = leAt img 0 4) && decide (leAt img 4 4 = c) && decide (leAt img 8 56 = 0) &&
      (List.range 32).all fun f => fnDirOk img (leAt img 0 4) f) = true) : fnImageOk img = true := by
  unfold fnImageOk
  rw [h]
  exact k

theorem zeroCrc_zero (n : Nat) : zeroCrc n 0 = 0 := by
  induction n with
  | zero => rfl
  | succ n ih => rw [zeroCrc, force_eq]; exact ih

/-- The image as BIAS_LOAD reads it. -/
theorem bias_load (e : ItemEnv) : (load 0x10000 8256).Gives e (biasState.beginItem 1 0)
    (biasHead ++ List.replicate 8188 0) (biasState.beginItem 1 0) := by
  have h : (biasState.beginItem 1 0).devRead (addrKey 0x10000) (68 + 8188) = biasHead ++ List.replicate 8188 0 := by
    unfold State.devRead
    rw [cellRead_beyond _ _ _ _ _ (by decide +kernel)]
    exact congrArg (· ++ _) (by decide +kernel)
  show (load 0x10000 8256).on e _ = _
  rw [load_on (by unfold State.ReadableHere; decide +kernel), h]
  rfl

theorem bias_crc : leAt (biasHead ++ List.replicate 8188 0) 4 4 = crc32 ((biasHead ++ List.replicate 8188 0).drop 64) := by
  have h : (biasHead ++ List.replicate 8188 0).drop 64 = [255, 255, 255, 255] ++ List.replicate 8188 0 := by
    rw [List.drop_append_of_le_length (by decide +kernel)]
    exact congrArg (· ++ _) (by decide +kernel)
  rw [h, crc_of _ 0 (by rw [List.foldl_append, zeroCrc_eq]; exact (congrArg _ (by decide +kernel)).trans (zeroCrc_zero 8188))]
  decide +kernel

theorem fn_load (e : ItemEnv) (s : State) (h1 : s.ReadableHere 0x10000 1088) (h3 : clean s = true)
    (h2 : s.mem.dev = fnState.mem.dev) :
    (load 0x10000 1088).Gives e s (fnHead ++ List.replicate 1024 0) s := by
  have h : s.devRead (addrKey 0x10000) (64 + 1024) = fnHead ++ List.replicate 1024 0 := by
    unfold State.devRead
    rw [h2, cellRead_beyond _ _ _ _ _ (by decide +kernel)]
    exact congrArg (· ++ _) (by decide +kernel)
  show (load 0x10000 1088).on e _ = _
  rw [load_on h1, h, clean_afterRead h3]

theorem fn_ok : fnImageOk (fnHead ++ List.replicate 1024 0) = true := by
  have h : crc32 ((fnHead ++ List.replicate 1024 0).drop 64) = 0xEFB5AF2E := by
    rw [List.drop_left' (by decide +kernel)]
    exact crc_of _ (Nat.xor 0xEFB5AF2E 0xFFFFFFFF) ((zeroCrc_eq _ _).trans (by decide +kernel))
  exact imageOk_of _ h (by decide +kernel)

/-- States that meet the hypotheses of `Obligations.BiasAndFunctionTablesLoad`, one for each clause. -/
theorem witness_BiasAndFunctionTablesLoad :
    (∃ (s s0 s1 s2 v u : State) (run item src gen lead heads target : Nat) (r : Run) (e : ItemEnv) (z h img : List Byte),
        s.itemReady 2 6 run item = some r ∧
      s0 = s.beginItem run item ∧
      e = r.env s item ∧
      z = payloadOf r.desc.bytes ∧
      src = leAt z 8 8 ∧
      gen = leAt z 16 1 ∧
      lead = leAt z 17 1 ∧
      (biasLoadCheck r.desc.bytes).Gives e s0 () s0 ∧
      s0.biasBusy e.run = false ∧
      (load src 64).Gives e s0 h s1 ∧
      heads = leAt h 0 1 ∧
      1 ≤ heads ∧
      heads ≤ 48 ∧
      (load src (64 + 8192 * heads)).Gives e s1 img s2 ∧
      leAt img 4 4 = crc32 (img.drop 64) ∧
      gen ≠ s2.fld biasStatusGen ∧
      target = (if s2.cueNo < r.cue + lead then r.cue + lead else s2.cueNo + 1) ∧
      (v = (List.range 8).foldl (fun (t : State) q => t.sramFresh (sramBias q (1 - s2.bias.front)) 0x80000)
          ({ s2 with bias := { s2.bias with standby := some (gen, target, heads, img) } } : State)) ∧
      u = (v.setFld biasStatusPendingGen gen).setFlag biasStatusPending true ∧
      u.CanEnd run item r ∧
      ∃ c, target ≤ c) ∧
    (∃ (s s0 s1 s2 v u : State) (run item src gen lead heads target : Nat) (r : Run) (e : ItemEnv) (z h img : List Byte),
        s.itemReady 2 6 run item = some r ∧
      s0 = s.beginItem run item ∧
      e = r.env s item ∧
      z = payloadOf r.desc.bytes ∧
      src = leAt z 8 8 ∧
      gen = leAt z 16 1 ∧
      lead = leAt z 17 1 ∧
      (biasLoadCheck r.desc.bytes).Gives e s0 () s0 ∧
      s0.biasBusy e.run = false ∧
      (load src 64).Gives e s0 h s1 ∧
      heads = leAt h 0 1 ∧
      1 ≤ heads ∧
      heads ≤ 48 ∧
      (load src (64 + 8192 * heads)).Gives e s1 img s2 ∧
      leAt img 4 4 = crc32 (img.drop 64) ∧
      gen ≠ s2.fld biasStatusGen ∧
      target = (if s2.cueNo < r.cue + lead then r.cue + lead else s2.cueNo + 1) ∧
      (v = (List.range 8).foldl (fun (t : State) q => t.sramFresh (sramBias q (1 - s2.bias.front)) 0x80000)
          ({ s2 with bias := { s2.bias with standby := some (gen, target, heads, img) } } : State)) ∧
      u = (v.setFld biasStatusPendingGen gen).setFlag biasStatusPending true ∧
      u.CanEnd run item r ∧
      ∃ c, c < target) ∧
    (∃ (s s0 s1 s2 w x : State) (run item src gen len id : Nat) (r : Run) (e : ItemEnv) (img : List Byte) (left : List Nat),
        s.itemReady 3 6 run item = some r ∧
      s0 = s.beginItem run item ∧
      e = r.env s item ∧
      s0.fnLoadingBy e.run e.item = none ∧
      (fnLoadCheck r.desc.bytes).Gives e s0 () s0 ∧
      src = leAt r.desc.bytes 32 8 ∧
      gen = leAt r.desc.bytes 40 1 ∧
      s0.fnBusy e.run = false ∧
      (loadNat src 4).Gives e s0 len s1 ∧
      1088 ≤ len ∧
      len ≤ 65536 ∧
      len % 16 = 0 ∧
      (load src len).Gives e s1 img s2 ∧
      fnImageOk img = true ∧
      (∀ b ∈ s2.servingTiles, s2.fnGenOf (s2.fnHeld b 0) ≠ gen ∧ s2.fnGenOf (s2.fnHeld b 1) ≠ gen) ∧
      id = s2.fn.nextImage ∧
      (w, left) = ({ s2 with fn := { s2.fn with images := cellPut s2.fn.images id (some { gen := gen, run := e.run, source := src, bytes := img }), nextImage := id + 1 } } : State).fnWriteTiles id s2.servingTiles ∧
      x = (w.setFld fnStatusLoadGen gen).setFlag fnStatusLoading true ∧
      left = [] ∧
      x.fnLoadEnd.CanEnd run item r) ∧
    (∃ (s s0 s1 s2 w x : State) (run item src gen len id : Nat) (r : Run) (e : ItemEnv) (img : List Byte) (left : List Nat),
        s.itemReady 3 6 run item = some r ∧
      s0 = s.beginItem run item ∧
      e = r.env s item ∧
      s0.fnLoadingBy e.run e.item = none ∧
      (fnLoadCheck r.desc.bytes).Gives e s0 () s0 ∧
      src = leAt r.desc.bytes 32 8 ∧
      gen = leAt r.desc.bytes 40 1 ∧
      s0.fnBusy e.run = false ∧
      (loadNat src 4).Gives e s0 len s1 ∧
      1088 ≤ len ∧
      len ≤ 65536 ∧
      len % 16 = 0 ∧
      (load src len).Gives e s1 img s2 ∧
      fnImageOk img = true ∧
      (∀ b ∈ s2.servingTiles, s2.fnGenOf (s2.fnHeld b 0) ≠ gen ∧ s2.fnGenOf (s2.fnHeld b 1) ≠ gen) ∧
      id = s2.fn.nextImage ∧
      (w, left) = ({ s2 with fn := { s2.fn with images := cellPut s2.fn.images id (some { gen := gen, run := e.run, source := src, bytes := img }), nextImage := id + 1 } } : State).fnWriteTiles id s2.servingTiles ∧
      x = (w.setFld fnStatusLoadGen gen).setFlag fnStatusLoading true ∧
      left ≠ []) ∧
    (∃ (s : State) (tile b run item id : Nat) (left : List Nat), s.fn.loading = some (run, item, id, left) ∧
      tile ∈ left ∧
      s.fnFree tile = some b ∧
      dropVal tile left ≠ []) ∧
    (∃ (s : State) (tile b run item id : Nat) (left : List Nat), s.fn.loading = some (run, item, id, left) ∧
      tile ∈ left ∧
      s.fnFree tile = some b ∧
      dropVal tile left = [] ∧
      s.waitsAck run item = false ∧
      s.itemOpen run item = true ∧
      (∀ q, s.findRun run = some q → hdrClass q.desc.bytes = 3)) :=
  ⟨(by
    have H : ((fun (s : State) (run : Nat) (item : Nat) (src : Nat) (heads : Nat) (r : Run) (h : List Byte) (img : List Byte)
        c => decide (s.itemReady 2 6 run item = some r) && ((fun (s0 : State) => (fun (e : ItemEnv) => (fun (z : List Byte) =>
        decide (src = leAt z 8 8) && ((fun (gen : Nat) => (fun (lead : Nat) => givesLit () (ItemM.on (biasLoadCheck r.desc.bytes)
        e s0) s0 && (decide (s0.biasBusy e.run = false) && (decide (heads = leAt h 0 1) && (decide (1 ≤ heads) &&
        (decide (heads ≤ 48) && ((fun (s1 : State) => (fun (s2 : State) => givesLit h (ItemM.on (load src 64) e s0) s1 &&
        (decide (gen ≠ s2.fld biasStatusGen) && ((fun (target : Nat) => (fun (v : State) => (fun (u : State) =>
        decide (canEnd u run item r = true) && (decide (target ≤ c) && (true))) ((v.setFld biasStatusPendingGen gen).setFlag
        biasStatusPending true)) ((List.range 8).foldl (fun (t : State) q => t.sramFresh (sramBias q (1 - s2.bias.front)) 0x80000)
        ({ s2 with bias := { s2.bias with standby := some (gen, target, heads, img) } } : State))) ((if s2.cueNo < r.cue + lead
        then r.cue + lead else s2.cueNo + 1))))) (s0)) (s0))))))) (leAt z 17 1)) (leAt z 16 1))) (payloadOf r.desc.bytes)) (r.env
        s item)) (s.beginItem run item))) (biasState) (1) (0) (0x10000) (1) (aRun biasDesc) (biasHead.take 64) (biasHead ++
        List.replicate 8188 0) (2)) = true := by decide +kernel
    obtain ⟨h0, H⟩ := and_of H
    obtain ⟨h4, H⟩ := and_of H
    obtain ⟨h7, H⟩ := and_lit H
    obtain ⟨h8, H⟩ := and_of H
    obtain ⟨h10, H⟩ := and_of H
    obtain ⟨h11, H⟩ := and_of H
    obtain ⟨h12, H⟩ := and_of H
    obtain ⟨h9, H⟩ := and_lit H
    obtain ⟨h15, H⟩ := and_of H
    obtain ⟨h19, H⟩ := and_of H
    obtain ⟨h20, H⟩ := and_of H
    exact ⟨biasState, _, _, _, _, _, 1, 0, 0x10000, _, _, 1, _, (aRun biasDesc), _, _, (biasHead.take 64),
        (biasHead ++ List.replicate 8188 0), h0, rfl, rfl, rfl, h4, rfl, rfl, h7, h8, h9, h10, h11, h12, (bias_load _), bias_crc,
        h15, rfl, rfl, rfl, (canEnd_of h19), 2, h20⟩),
   (by
    have H : ((fun (s : State) (run : Nat) (item : Nat) (src : Nat) (heads : Nat) (r : Run) (h : List Byte) (img : List Byte)
        c => decide (s.itemReady 2 6 run item = some r) && ((fun (s0 : State) => (fun (e : ItemEnv) => (fun (z : List Byte) =>
        decide (src = leAt z 8 8) && ((fun (gen : Nat) => (fun (lead : Nat) => givesLit () (ItemM.on (biasLoadCheck r.desc.bytes)
        e s0) s0 && (decide (s0.biasBusy e.run = false) && (decide (heads = leAt h 0 1) && (decide (1 ≤ heads) &&
        (decide (heads ≤ 48) && ((fun (s1 : State) => (fun (s2 : State) => givesLit h (ItemM.on (load src 64) e s0) s1 &&
        (decide (gen ≠ s2.fld biasStatusGen) && ((fun (target : Nat) => (fun (v : State) => (fun (u : State) =>
        decide (canEnd u run item r = true) && (decide (c < target) && (true))) ((v.setFld biasStatusPendingGen gen).setFlag
        biasStatusPending true)) ((List.range 8).foldl (fun (t : State) q => t.sramFresh (sramBias q (1 - s2.bias.front)) 0x80000)
        ({ s2 with bias := { s2.bias with standby := some (gen, target, heads, img) } } : State))) ((if s2.cueNo < r.cue + lead
        then r.cue + lead else s2.cueNo + 1))))) (s0)) (s0))))))) (leAt z 17 1)) (leAt z 16 1))) (payloadOf r.desc.bytes)) (r.env
        s item)) (s.beginItem run item))) (biasState) (1) (0) (0x10000) (1) (aRun biasDesc) (biasHead.take 64) (biasHead ++
        List.replicate 8188 0) (1)) = true := by decide +kernel
    obtain ⟨h0, H⟩ := and_of H
    obtain ⟨h4, H⟩ := and_of H
    obtain ⟨h7, H⟩ := and_lit H
    obtain ⟨h8, H⟩ := and_of H
    obtain ⟨h10, H⟩ := and_of H
    obtain ⟨h11, H⟩ := and_of H
    obtain ⟨h12, H⟩ := and_of H
    obtain ⟨h9, H⟩ := and_lit H
    obtain ⟨h15, H⟩ := and_of H
    obtain ⟨h19, H⟩ := and_of H
    obtain ⟨h20, H⟩ := and_of H
    exact ⟨biasState, _, _, _, _, _, 1, 0, 0x10000, _, _, 1, _, (aRun biasDesc), _, _, (biasHead.take 64),
        (biasHead ++ List.replicate 8188 0), h0, rfl, rfl, rfl, h4, rfl, rfl, h7, h8, h9, h10, h11, h12, (bias_load _), bias_crc,
        h15, rfl, rfl, rfl, (canEnd_of h19), 1, h20⟩),
   (by
    have H : ((fun (s : State) (run : Nat) (item : Nat) (src : Nat) (len : Nat) (r : Run) (img : List Byte) =>
        decide (s.itemReady 3 6 run item = some r) && ((fun (s0 : State) => (fun (e : ItemEnv) =>
        decide (s0.fnLoadingBy e.run e.item = none) && (givesLit () (ItemM.on (fnLoadCheck r.desc.bytes) e s0) s0 &&
        (decide (src = leAt r.desc.bytes 32 8) && ((fun (gen : Nat) => decide (s0.fnBusy e.run = false) && (decide (1088 ≤ len) &&
        (decide (len ≤ 65536) && (decide (len % 16 = 0) && ((fun (s1 : State) => (fun (s2 : State) =>
        givesLit len (ItemM.on (loadNat src 4) e s0) s1 && (decide ((∀ b ∈ s2.servingTiles, s2.fnGenOf (s2.fnHeld b 0) ≠ gen ∧
        s2.fnGenOf (s2.fnHeld b 1) ≠ gen)) && ((fun (id : Nat) => (fun (w : State) (left : List Nat) => (fun (x : State) =>
        decide (left = []) && (decide (canEnd x.fnLoadEnd run item r = true) && (true))) ((w.setFld fnStatusLoadGen gen).setFlag
        fnStatusLoading true))
        (({ s2 with fn := { s2.fn with images := cellPut s2.fn.images id (some { gen := gen, run := e.run, source := src, bytes := img }), nextImage := id + 1 } } : State).fnWriteTiles id s2.servingTiles).1 (({ s2 with fn := { s2.fn with images := cellPut s2.fn.images id (some { gen := gen, run := e.run, source := src, bytes := img }), nextImage := id + 1 } } : State).fnWriteTiles id s2.servingTiles).2) (s2.fn.nextImage)))) (s0)) (s0)))))) (leAt r.desc.bytes 40 1))))) (r.env s item)) (s.beginItem run item))) (fnState) (1) (0) (0x10000) (1088) (aRun fnDesc) (fnHead ++ List.replicate 1024 0)) = true := by decide +kernel
    obtain ⟨h0, H⟩ := and_of H
    obtain ⟨h3, H⟩ := and_of H
    obtain ⟨h4, H⟩ := and_lit H
    obtain ⟨h5, H⟩ := and_of H
    obtain ⟨h7, H⟩ := and_of H
    obtain ⟨h9, H⟩ := and_of H
    obtain ⟨h10, H⟩ := and_of H
    obtain ⟨h11, H⟩ := and_of H
    obtain ⟨h8, H⟩ := and_lit H
    obtain ⟨h14, H⟩ := and_of H
    obtain ⟨h18, H⟩ := and_of H
    obtain ⟨h19, H⟩ := and_of H
    exact ⟨fnState, _, _, _, _, _, 1, 0, 0x10000, _, 1088, _, (aRun fnDesc), _, (fnHead ++ List.replicate 1024 0), _, h0, rfl, rfl, h3, h4, h5, rfl, h7, h8, h9, h10, h11, (fn_load _ _ (by unfold State.ReadableHere; decide +kernel) (by decide +kernel) (by decide +kernel)), fn_ok, h14, rfl, (pair_eta _), rfl, h18, (canEnd_of h19)⟩),
   (by
    have H : ((fun (s : State) (run : Nat) (item : Nat) (src : Nat) (len : Nat) (r : Run) (img : List Byte) =>
        decide (s.itemReady 3 6 run item = some r) && ((fun (s0 : State) => (fun (e : ItemEnv) =>
        decide (s0.fnLoadingBy e.run e.item = none) && (givesLit () (ItemM.on (fnLoadCheck r.desc.bytes) e s0) s0 &&
        (decide (src = leAt r.desc.bytes 32 8) && ((fun (gen : Nat) => decide (s0.fnBusy e.run = false) && (decide (1088 ≤ len) &&
        (decide (len ≤ 65536) && (decide (len % 16 = 0) && ((fun (s1 : State) => (fun (s2 : State) =>
        givesLit len (ItemM.on (loadNat src 4) e s0) s1 && (decide ((∀ b ∈ s2.servingTiles, s2.fnGenOf (s2.fnHeld b 0) ≠ gen ∧
        s2.fnGenOf (s2.fnHeld b 1) ≠ gen)) && ((fun (id : Nat) => (fun (w : State) (left : List Nat) => (fun (x : State) =>
        decide (left ≠ []) && (true)) ((w.setFld fnStatusLoadGen gen).setFlag fnStatusLoading true))
        (({ s2 with fn := { s2.fn with images := cellPut s2.fn.images id (some { gen := gen, run := e.run, source := src, bytes := img }), nextImage := id + 1 } } : State).fnWriteTiles id s2.servingTiles).1 (({ s2 with fn := { s2.fn with images := cellPut s2.fn.images id (some { gen := gen, run := e.run, source := src, bytes := img }), nextImage := id + 1 } } : State).fnWriteTiles id s2.servingTiles).2) (s2.fn.nextImage)))) (s0)) (s0)))))) (leAt r.desc.bytes 40 1))))) (r.env s item)) (s.beginItem run item))) (fnFull) (1) (0) (0x10000) (1088) (aRun fnDesc) (fnHead ++ List.replicate 1024 0)) = true := by decide +kernel
    obtain ⟨h0, H⟩ := and_of H
    obtain ⟨h3, H⟩ := and_of H
    obtain ⟨h4, H⟩ := and_lit H
    obtain ⟨h5, H⟩ := and_of H
    obtain ⟨h7, H⟩ := and_of H
    obtain ⟨h9, H⟩ := and_of H
    obtain ⟨h10, H⟩ := and_of H
    obtain ⟨h11, H⟩ := and_of H
    obtain ⟨h8, H⟩ := and_lit H
    obtain ⟨h14, H⟩ := and_of H
    obtain ⟨h18, H⟩ := and_of H
    exact ⟨fnFull, _, _, _, _, _, 1, 0, 0x10000, _, 1088, _, (aRun fnDesc), _, (fnHead ++ List.replicate 1024 0), _, h0, rfl, rfl, h3, h4, h5, rfl, h7, h8, h9, h10, h11, (fn_load _ _ (by unfold State.ReadableHere; decide +kernel) (by decide +kernel) (by decide +kernel)), fn_ok, h14, rfl, (pair_eta _), rfl, h18⟩),
   (by
    have H : ((fun (s : State) (tile : Nat) (b : Nat) (run : Nat) (item : Nat) (id : Nat) (left : List Nat) =>
        decide (s.fn.loading = some (run, item, id, left)) && (decide (tile ∈ left) && (decide (s.fnFree tile = some b) &&
        (decide (dropVal tile left ≠ []) && (true)))))
        ({ device with fn := { device.fn with loading := some (1, 0, 9, [0, 143]) } }) (143) (1) (1) (0) (9) ([0, 143])) = true :=
        by decide +kernel
    obtain ⟨h0, H⟩ := and_of H
    obtain ⟨h1, H⟩ := and_of H
    obtain ⟨h2, H⟩ := and_of H
    obtain ⟨h3, H⟩ := and_of H
    exact ⟨({ device with fn := { device.fn with loading := some (1, 0, 9, [0, 143]) } }), 143, 1, 1, 0, 9, ([0, 143]), h0,
        h1, h2, h3⟩),
   (by
    have H : ((fun (s : State) (tile : Nat) (b : Nat) (run : Nat) (item : Nat) (id : Nat) (left : List Nat) =>
        decide (s.fn.loading = some (run, item, id, left)) && (decide (tile ∈ left) && (decide (s.fnFree tile = some b) &&
        (decide (dropVal tile left = []) && (decide (s.waitsAck run item = false) && (decide (s.itemOpen run item = true) &&
        (decide ((s.findRun run).all (fun q => decide (hdrClass q.desc.bytes = 3)) = true) &&
        (true)))))))) ({ runs (aRun fnDesc) device with fn := { device.fn with loading := some (1, 0, 9, [143]) } }) (143) (1) (1)
        (0) (9) ([143])) = true := by decide +kernel
    obtain ⟨h0, H⟩ := and_of H
    obtain ⟨h1, H⟩ := and_of H
    obtain ⟨h2, H⟩ := and_of H
    obtain ⟨h3, H⟩ := and_of H
    obtain ⟨h4, H⟩ := and_of H
    obtain ⟨h5, H⟩ := and_of H
    obtain ⟨h6, H⟩ := and_of H
    exact ⟨({ runs (aRun fnDesc) device with fn := { device.fn with loading := some (1, 0, 9, [143]) } }), 143, 1, 1, 0, 9,
        [143], h0, h1, h2, h3, h4, h5, (forall_some h6)⟩)⟩

end Sys2Proof.Tests
end

