-- ==== Sys2Proof/Tests/Witness05.lean ====
section
/-! SUPPORT. States that meet the hypotheses of the statements. -/

set_option Elab.async false
namespace Sys2Proof.Tests
open Sys2Proof.Machine

/-- A run of one item of class 5 in `device`, which holds one granule entry for granule 5 of HBM at 0x1000. -/
def tierState (d : List Byte) (s : State) : State := runs (aRun d) (place 0x1000 (leBytes 8 (2 ^ 24 + 5 * 4)) s)

def grantDesc (op z : Nat) : List Byte := desc 5 op 1 [(32, 8, 0x1000), (40, 1, z)]
def quotaDesc : List Byte := desc 5 4 1 [(32, 1, 63), (40, 8, 0x1000)]

/-- A move of 64 KiB from 0 to an address, or to a wing of partition 0. -/
def moveDesc (kind dst : Nat) : List Byte := desc 5 2 1 [(36, 1, 1), (56, 8, dst), (64, 1, kind)]
def fillDesc : List Byte := desc 5 3 1 [(36, 1, 1), (56, 4, 1), (64, 1, 1)]
def wingKey : Nat := (locKey 0 1 0 65536).getD 0

/-- States that meet the hypotheses of `Obligations.TierItemsEnd`, one for each clause. -/
theorem witness_TierItemsEnd :
    (∃ (s s0 s1 s2 u : State) (run item : Nat) (r : Run) (e : ItemEnv) (g : Granules), s0 = s.beginItem run item ∧
      e = r.env s item ∧
      (ownerWords g).Gives e s1 () s2 ∧
      u.CanEnd run item r ∧
      ∃ (zero : Bool), s.itemReady 5 0 run item = some r ∧
      (granuleItem true).Gives e s0 g s1 ∧
      leAt r.desc.bytes 40 1 = (if zero then 1 else 0) ∧
      s2.granules g.tier g.first g.count = [] ∧
      s2.fld (useFld g.tier r.ctx) + g.count ≤ s2.fld (quotaFld g.tier r.ctx) ∧
      (zero = true → s2.devShut (g.tier * 2 ^ 43 + g.first * 2 ^ 21) = false) ∧
      u = (if zero then ((s2.setOwners g (1 + r.ctx)).bump (useFld g.tier r.ctx) g.count).devZero (g.tier * 2 ^ 43 + g.first
          * 2 ^ 21) (g.count * 2 ^ 21) else (s2.setOwners g (1 + r.ctx)).bump (useFld g.tier r.ctx) g.count)) ∧
    (∃ (s s0 s1 s2 u : State) (run item : Nat) (r : Run) (e : ItemEnv) (g : Granules), s0 = s.beginItem run item ∧
      e = r.env s item ∧
      (ownerWords g).Gives e s1 () s2 ∧
      u.CanEnd run item r ∧
      s.itemReady 5 1 run item = some r ∧
      (granuleItem false).Gives e s0 g s1 ∧
      (s2.granules g.tier g.first g.count).length = g.count ∧
      (∀ x ∈ s2.granules g.tier g.first g.count, x.2 = 1 + r.ctx) ∧
      u = (s2.setOwners g 0).setFld (useFld g.tier r.ctx) (s2.fld (useFld g.tier r.ctx) - g.count)) ∧
    (∃ (s : State) (run item c a : Nat) (r : Run), s.itemReady 5 4 run item = some r ∧
      s.waitsAck run item = false ∧
      c = leAt r.desc.bytes 32 1 ∧
      c < 64 ∧
      (c = r.ctx ∨ s.managed r.desc.ring = true) ∧
      leAt r.desc.bytes 33 7 = 0 ∧
      leAt r.desc.bytes 48 80 = 0 ∧
      a = leAt r.desc.bytes 40 8 ∧
      a % 64 = 0 ∧
      hdrItems r.desc.bytes = 0 ∧
      s.WritableHere a 64) ∧
    (∃ (s s0 : State) (run item len : Nat) (r : Run) (e : ItemEnv) (z : List Byte), s0 = s.beginItem run item ∧
      e = r.env s item ∧
      z = payloadOf r.desc.bytes ∧
      len = leAt z 4 1 * 65536 ∧
      ∃ (u : State) (bs : List Byte) (src dst : Place) (st : Nat), s.itemReady 5 2 run item = some r ∧
      (moveCheck false).Gives e s0 () s0 ∧
      (endAddr ((z.drop 8).take 16) item (leAt z 40 8)).any regTier = false ∧
      (endAddr ((z.drop 24).take 16) item (leAt z 48 8)).any regTier = false ∧
      endPlace ((z.drop 8).take 16) item (leAt z 40 8) len = some src ∧
      endPlace ((z.drop 24).take 16) item (leAt z 48 8) len = some dst ∧
      s0.placesMeet len src dst = false ∧
      (placesCheck src dst len).Gives e s0 () s0 ∧
      itemStage.Gives e s0 st s0 ∧
      st ≠ 3 ∧
      ∃ k s1, dst = .sram k ∧
      u.CanEnd run item r ∧
      (readPlace src len).Gives e s0 (bs, false) s1 ∧
      (sramStore k bs).Gives e s1 () u) ∧
    (∃ (s s0 : State) (run item len : Nat) (r : Run) (e : ItemEnv) (z : List Byte), s0 = s.beginItem run item ∧
      e = r.env s item ∧
      z = payloadOf r.desc.bytes ∧
      len = leAt z 4 1 * 65536 ∧
      ∃ (u : State) (bs : List Byte) (src dst : Place) (st : Nat), s.itemReady 5 2 run item = some r ∧
      (moveCheck false).Gives e s0 () s0 ∧
      (endAddr ((z.drop 8).take 16) item (leAt z 40 8)).any regTier = false ∧
      (endAddr ((z.drop 24).take 16) item (leAt z 48 8)).any regTier = false ∧
      endPlace ((z.drop 8).take 16) item (leAt z 40 8) len = some src ∧
      endPlace ((z.drop 24).take 16) item (leAt z 48 8) len = some dst ∧
      s0.placesMeet len src dst = false ∧
      (placesCheck src dst len).Gives e s0 () s0 ∧
      itemStage.Gives e s0 st s0 ∧
      st ≠ 3 ∧
      ∃ a s1, dst = .flash a ∧
      s0.isOwn (addrMember a) = false ∧
      (readPlace src len).Gives e s0 (bs, false) s1 ∧
      (storeAt a bs).Gives e s1 () u ∧
      u.itemOpen run item = true ∧
      u.waitsAck run item = true) ∧
    (∃ (s s0 : State) (run item len : Nat) (r : Run) (e : ItemEnv) (z : List Byte), s0 = s.beginItem run item ∧
      e = r.env s item ∧
      z = payloadOf r.desc.bytes ∧
      len = leAt z 4 1 * 65536 ∧
      ∃ (u : State) (bs : List Byte) (src dst : Place) (st : Nat), s.itemReady 5 2 run item = some r ∧
      (moveCheck false).Gives e s0 () s0 ∧
      (endAddr ((z.drop 8).take 16) item (leAt z 40 8)).any regTier = false ∧
      (endAddr ((z.drop 24).take 16) item (leAt z 48 8)).any regTier = false ∧
      endPlace ((z.drop 8).take 16) item (leAt z 40 8) len = some src ∧
      endPlace ((z.drop 24).take 16) item (leAt z 48 8) len = some dst ∧
      s0.placesMeet len src dst = false ∧
      (placesCheck src dst len).Gives e s0 () s0 ∧
      itemStage.Gives e s0 st s0 ∧
      st ≠ 3 ∧
      ∃ a s1, dst = .mem a ∧
      u.CanEnd run item r ∧
      (readPlace src len).Gives e s0 (bs, false) s1 ∧
      (storeAt a bs).Gives e s1 () u) ∧
    (∃ (s s0 : State) (run item len : Nat) (r : Run) (e : ItemEnv) (z : List Byte), s0 = s.beginItem run item ∧
      e = r.env s item ∧
      z = payloadOf r.desc.bytes ∧
      len = leAt z 4 1 * 65536 ∧
      ∃ (bs : List Byte) (src dst : Place) (st : Nat), s.itemReady 5 2 run item = some r ∧
      (moveCheck false).Gives e s0 () s0 ∧
      (endAddr ((z.drop 8).take 16) item (leAt z 40 8)).any regTier = false ∧
      (endAddr ((z.drop 24).take 16) item (leAt z 48 8)).any regTier = false ∧
      endPlace ((z.drop 8).take 16) item (leAt z 40 8) len = some src ∧
      endPlace ((z.drop 24).take 16) item (leAt z 48 8) len = some dst ∧
      s0.placesMeet len src dst = false ∧
      (placesCheck src dst len).Gives e s0 () s0 ∧
      itemStage.Gives e s0 st s0 ∧
      st ≠ 3 ∧
      ∃ a tiles s1 s2, dst = .flash a ∧
      s0.isOwn (addrMember a) = true ∧
      s0.flashRange r.ctx (addrOff a) len = some tiles ∧
      (st = 0 → s0.flashQuota r.ctx tiles = true) ∧
      (joinBatch tiles).Gives e s0 () s1 ∧
      (readPlace src len).Gives e s1 (bs, false) s2) ∧
    (∃ (s s0 : State) (run item len : Nat) (r : Run) (e : ItemEnv) (z : List Byte), s0 = s.beginItem run item ∧
      e = r.env s item ∧
      z = payloadOf r.desc.bytes ∧
      len = leAt z 4 1 * 65536 ∧
      ∃ (u : State) (bs : List Byte) (dst : Place), s.itemReady 5 3 run item = some r ∧
      u.CanEnd run item r ∧
      (moveCheck true).Gives e s0 () s0 ∧
      (endAddr ((z.drop 24).take 16) item (leAt z 48 8)).any regTier = false ∧
      endPlace ((z.drop 24).take 16) item (leAt z 48 8) len = some dst ∧
      bs = (List.replicate (len / 4) (leBytes 4 (leAt z 56 4))).flatMap id ∧
      ((∃ k, dst = .sram k ∧ (sramStore k bs).Gives e s0 () u) ∨ (∃ a, dst = .mem a ∧
          (placeCheck dst len).Gives e s0 () s0 ∧ (placeRoute dst).Gives e s0 () s0 ∧ (storeAt a bs).Gives e s0 () u))) :=
  ⟨(by
    have H : ((fun (s : State) (run : Nat) (item : Nat) (r : Run) (zero : Bool) => (fun (s0 : State) => (fun (e : ItemEnv) =>
        decide (s.itemReady 5 0 run item = some r) && (onOk (ItemM.on (granuleItem true) e s0) fun (g : Granules) (s1 : State) =>
        decide (leAt r.desc.bytes 40 1 = (if zero then 1 else 0)) && (onOkUnit (ItemM.on (ownerWords g) e s1) fun (s2 : State) =>
        decide (s2.granules g.tier g.first g.count = []) && (decide (s2.fld (useFld g.tier r.ctx) + g.count ≤ s2.fld (quotaFld
        g.tier r.ctx)) && (decide ((zero = true → s2.devShut (g.tier * 2 ^ 43 + g.first * 2 ^ 21) = false)) &&
        ((fun (u : State) => decide (canEnd u run item r = true) && (true)) ((if zero then ((s2.setOwners g (1 + r.ctx)).bump
        (useFld g.tier r.ctx) g.count).devZero (g.tier * 2 ^ 43 + g.first * 2 ^ 21) (g.count * 2 ^ 21) else (s2.setOwners g (1 +
        r.ctx)).bump (useFld g.tier r.ctx) g.count)))))))) (r.env s item)) (s.beginItem run item)) (tierState (grantDesc 0 1)
        (sets [(ctxQuotaHbmGranules 0, 1)] device)) (1) (0) (aRun (grantDesc 0 1)) (true)) = true := by decide +kernel
    obtain ⟨h4, H⟩ := and_of H
    obtain ⟨g, s1, h5, H⟩ := of_ok H
    obtain ⟨h6, H⟩ := and_of H
    obtain ⟨s2, h2, H⟩ := of_okUnit H
    obtain ⟨h7, H⟩ := and_of H
    obtain ⟨h8, H⟩ := and_of H
    obtain ⟨h9, H⟩ := and_of H
    obtain ⟨h3, H⟩ := and_of H
    exact ⟨(tierState (grantDesc 0 1) (sets [(ctxQuotaHbmGranules 0, 1)] device)), _, _, _, _, 1, 0, (aRun (grantDesc 0 1)),
        _, _, rfl, rfl, h2, (canEnd_of h3), true, h4, h5, h6, h7, h8, h9, rfl⟩),
   (by
    have H : ((fun (s : State) (run : Nat) (item : Nat) (r : Run) => (fun (s0 : State) => (fun (e : ItemEnv) =>
        decide (s.itemReady 5 1 run item = some r) && (onOk (ItemM.on (granuleItem false) e s0) fun (g : Granules) (s1 : State) =>
        onOkUnit (ItemM.on (ownerWords g) e s1) fun (s2 : State) => decide ((s2.granules g.tier g.first g.count).length = g.count)
        && (decide ((∀ x ∈ s2.granules g.tier g.first g.count, x.2 = 1 + r.ctx)) && ((fun (u : State) =>
        decide (canEnd u run item r = true) && (true)) ((s2.setOwners g 0).setFld (useFld g.tier r.ctx) (s2.fld (useFld g.tier
        r.ctx) - g.count)))))) (r.env s item)) (s.beginItem run item)) (tierState (grantDesc 1 0)
        { sets [(ctxUseHbmGranules 0, 1)] device with mem := { device.mem with owners := [(5, 1)] } }) (1) (0) (aRun (grantDesc 1
        0))) = true := by decide +kernel
    obtain ⟨h4, H⟩ := and_of H
    obtain ⟨g, s1, h5, H⟩ := of_ok H
    obtain ⟨s2, h2, H⟩ := of_okUnit H
    obtain ⟨h6, H⟩ := and_of H
    obtain ⟨h7, H⟩ := and_of H
    obtain ⟨h3, H⟩ := and_of H
    exact ⟨(tierState (grantDesc 1 0)
        { sets [(ctxUseHbmGranules 0, 1)] device with mem := { device.mem with owners := [(5, 1)] } }), _, _, _, _, 1, 0,
        (aRun (grantDesc 1 0)), _, _, rfl, rfl, h2, (canEnd_of h3), h4, h5, h6, h7, rfl⟩),
   (by
    have H : ((fun (s : State) (run : Nat) (item : Nat) (r : Run) => decide (s.itemReady 5 4 run item = some r) &&
        (decide (s.waitsAck run item = false) && ((fun (c : Nat) => decide (c < 64) && (decide (c = r.ctx ∨
        s.managed r.desc.ring = true) && (decide (leAt r.desc.bytes 33 7 = 0) && (decide (leAt r.desc.bytes 48 80 = 0) &&
        ((fun (a : Nat) => decide (a % 64 = 0) && (decide (hdrItems r.desc.bytes = 0) && (decide (writableB s a 64 = true) &&
        (true)))) (leAt r.desc.bytes 40 8)))))) (leAt r.desc.bytes 32 1)))) (tierState quotaDesc device) (1) (0) (aRun quotaDesc))
        = true := by decide +kernel
    obtain ⟨h0, H⟩ := and_of H
    obtain ⟨h1, H⟩ := and_of H
    obtain ⟨h3, H⟩ := and_of H
    obtain ⟨h4, H⟩ := and_of H
    obtain ⟨h5, H⟩ := and_of H
    obtain ⟨h6, H⟩ := and_of H
    obtain ⟨h8, H⟩ := and_of H
    obtain ⟨h9, H⟩ := and_of H
    obtain ⟨h10, H⟩ := and_of H
    exact ⟨(tierState quotaDesc device), 1, 0, _, _, (aRun quotaDesc), h0, h1, rfl, h3, h4, h5, h6, rfl, h8, h9,
        (writable_of h10)⟩),
   (by
    have H : ((fun (s : State) (run : Nat) (item : Nat) (len : Nat) (r : Run) (bs : List Byte) (src : Place) (dst : Place) k
        => (fun (s0 : State) => (fun (e : ItemEnv) => (fun (z : List Byte) => decide (len = leAt z 4 1 * 65536) &&
        (decide (s.itemReady 5 2 run item = some r) && (givesLit () (ItemM.on (moveCheck false) e s0) s0 &&
        (decide ((endAddr ((z.drop 8).take 16) item (leAt z 40 8)).any regTier = false) &&
        (decide ((endAddr ((z.drop 24).take 16) item (leAt z 48 8)).any regTier = false) &&
        (decide (endPlace ((z.drop 8).take 16) item (leAt z 40 8) len = some src) &&
        (decide (endPlace ((z.drop 24).take 16) item (leAt z 48 8) len = some dst) &&
        (decide (s0.placesMeet len src dst = false) && (givesLit () (ItemM.on (placesCheck src dst len) e s0) s0 &&
        (onOkSame (ItemM.on itemStage e s0) s0 fun (st : Nat) => decide (st ≠ 3) && (decide (dst = .sram k) &&
        ((fun (u : State) => (fun s1 => decide (canEnd u run item r = true) && (true)) (s0)) (s0.sramWrite k bs)))))))))))))
        (payloadOf r.desc.bytes)) (r.env s item)) (s.beginItem run item)) (runs (aRun (moveDesc 1 1)) device) (1) (0) (65536)
        (aRun (moveDesc 1 1)) (zeros) (.mem 0) (.sram wingKey) (wingKey)) = true := by decide +kernel
    obtain ⟨h3, H⟩ := and_of H
    obtain ⟨h4, H⟩ := and_of H
    obtain ⟨h5, H⟩ := and_lit H
    obtain ⟨h6, H⟩ := and_of H
    obtain ⟨h7, H⟩ := and_of H
    obtain ⟨h8, H⟩ := and_of H
    obtain ⟨h9, H⟩ := and_of H
    obtain ⟨h10, H⟩ := and_of H
    obtain ⟨h11, H⟩ := and_lit H
    obtain ⟨st, h12, H⟩ := of_okSame H
    obtain ⟨h13, H⟩ := and_of H
    obtain ⟨h14, H⟩ := and_of H
    obtain ⟨h15, H⟩ := and_of H
    exact ⟨(runs (aRun (moveDesc 1 1)) device), _, 1, 0, 65536, (aRun (moveDesc 1 1)), _, _, rfl, rfl, rfl, h3, _, zeros,
        (.mem 0), (.sram wingKey), _, h4, h5, h6, h7, h8, h9, h10, h11, h12, h13, wingKey, _, h14, (canEnd_of h15),
        (readPlace_zero (by decide +kernel) (by decide +kernel) (by decide +kernel) (by decide +kernel)),
        (sramStore_gives (by decide +kernel) (by decide +kernel))⟩),
   (by
    have H : ((fun (s : State) (run : Nat) (item : Nat) (len : Nat) (r : Run) (bs : List Byte) (src : Place) (dst : Place) a
        => (fun (s0 : State) => (fun (e : ItemEnv) => (fun (z : List Byte) => decide (len = leAt z 4 1 * 65536) &&
        (decide (s.itemReady 5 2 run item = some r) && (givesLit () (ItemM.on (moveCheck false) e s0) s0 &&
        (decide ((endAddr ((z.drop 8).take 16) item (leAt z 40 8)).any regTier = false) &&
        (decide ((endAddr ((z.drop 24).take 16) item (leAt z 48 8)).any regTier = false) &&
        (decide (endPlace ((z.drop 8).take 16) item (leAt z 40 8) len = some src) &&
        (decide (endPlace ((z.drop 24).take 16) item (leAt z 48 8) len = some dst) &&
        (decide (s0.placesMeet len src dst = false) && (givesLit () (ItemM.on (placesCheck src dst len) e s0) s0 &&
        (onOkSame (ItemM.on itemStage e s0) s0 fun (st : Nat) => decide (st ≠ 3) && (decide (dst = .flash a) &&
        (decide (s0.isOwn (addrMember a) = false) && ((fun s1 => (fun (u : State) => decide (u.itemOpen run item = true) &&
        (decide (u.waitsAck run item = true) && (true))) ((ItemM.on ((packetRanges a 65536).forM (fun (x, m) =>
        sendWrite x ((bs.drop (x - a)).take m) (isBulk a 65536)) >>= fun _ => patchArrived a bs) e s1).2)) (s0))))))))))))))
        (payloadOf r.desc.bytes)) (r.env s item)) (s.beginItem run item)) (runs (aRun (moveDesc 0 (mkAddr 7 (2 * 2 ^ 43))))
        routed) (1) (0) (65536) (aRun (moveDesc 0 (mkAddr 7 (2 * 2 ^ 43)))) (zeros) (.mem 0) (.flash (mkAddr 7 (2 * 2 ^ 43)))
        (mkAddr 7 (2 * 2 ^ 43))) = true := by decide +kernel
    obtain ⟨h3, H⟩ := and_of H
    obtain ⟨h4, H⟩ := and_of H
    obtain ⟨h5, H⟩ := and_lit H
    obtain ⟨h6, H⟩ := and_of H
    obtain ⟨h7, H⟩ := and_of H
    obtain ⟨h8, H⟩ := and_of H
    obtain ⟨h9, H⟩ := and_of H
    obtain ⟨h10, H⟩ := and_of H
    obtain ⟨h11, H⟩ := and_lit H
    obtain ⟨st, h12, H⟩ := of_okSame H
    obtain ⟨h13, H⟩ := and_of H
    obtain ⟨h14, H⟩ := and_of H
    obtain ⟨h15, H⟩ := and_of H
    obtain ⟨h18, H⟩ := and_of H
    obtain ⟨h19, H⟩ := and_of H
    exact ⟨(runs (aRun (moveDesc 0 (mkAddr 7 (2 * 2 ^ 43)))) routed), _, 1, 0, 65536,
        (aRun (moveDesc 0 (mkAddr 7 (2 * 2 ^ 43)))), _, _, rfl, rfl, rfl, h3, _, zeros, (.mem 0),
        (.flash (mkAddr 7 (2 * 2 ^ 43))), _, h4, h5, h6, h7, h8, h9, h10, h11, h12, h13, (mkAddr 7 (2 * 2 ^ 43)), _, h14, h15,
        (readPlace_zero (by decide +kernel) (by decide +kernel) (by decide +kernel) (by decide +kernel)),
        (storeAt_remote (by decide +kernel) zeros_not_empty zeros_length (gives_of (by decide +kernel))), h18, h19⟩),
   (by
    have H : ((fun (s : State) (run : Nat) (item : Nat) (len : Nat) (r : Run) (bs : List Byte) (src : Place) (dst : Place) a
        => (fun (s0 : State) => (fun (e : ItemEnv) => (fun (z : List Byte) => decide (len = leAt z 4 1 * 65536) &&
        (decide (s.itemReady 5 2 run item = some r) && (givesLit () (ItemM.on (moveCheck false) e s0) s0 &&
        (decide ((endAddr ((z.drop 8).take 16) item (leAt z 40 8)).any regTier = false) &&
        (decide ((endAddr ((z.drop 24).take 16) item (leAt z 48 8)).any regTier = false) &&
        (decide (endPlace ((z.drop 8).take 16) item (leAt z 40 8) len = some src) &&
        (decide (endPlace ((z.drop 24).take 16) item (leAt z 48 8) len = some dst) &&
        (decide (s0.placesMeet len src dst = false) && (givesLit () (ItemM.on (placesCheck src dst len) e s0) s0 &&
        (onOkSame (ItemM.on itemStage e s0) s0 fun (st : Nat) => decide (st ≠ 3) && (decide (dst = .mem a) && ((fun (u : State) =>
        (fun s1 => decide (canEnd u run item r = true) && (true)) (s0)) (s0.devWrite (addrKey a) bs))))))))))))) (payloadOf
        r.desc.bytes)) (r.env s item)) (s.beginItem run item)) (runs (aRun (moveDesc 0 0x20000)) device) (1) (0) (65536) (aRun
        (moveDesc 0 0x20000)) (zeros) (.mem 0) (.mem 0x20000) (0x20000)) = true := by decide +kernel
    obtain ⟨h3, H⟩ := and_of H
    obtain ⟨h4, H⟩ := and_of H
    obtain ⟨h5, H⟩ := and_lit H
    obtain ⟨h6, H⟩ := and_of H
    obtain ⟨h7, H⟩ := and_of H
    obtain ⟨h8, H⟩ := and_of H
    obtain ⟨h9, H⟩ := and_of H
    obtain ⟨h10, H⟩ := and_of H
    obtain ⟨h11, H⟩ := and_lit H
    obtain ⟨st, h12, H⟩ := of_okSame H
    obtain ⟨h13, H⟩ := and_of H
    obtain ⟨h14, H⟩ := and_of H
    obtain ⟨h15, H⟩ := and_of H
    exact ⟨(runs (aRun (moveDesc 0 0x20000)) device), _, 1, 0, 65536, (aRun (moveDesc 0 0x20000)), _, _, rfl, rfl, rfl, h3, _,
        zeros, (.mem 0), (.mem 0x20000), _, h4, h5, h6, h7, h8, h9, h10, h11, h12, h13, 0x20000, _, h14, (canEnd_of h15),
        (readPlace_zero (by decide +kernel) (by decide +kernel) (by decide +kernel) (by decide +kernel)),
        (storeAt_own (by decide +kernel) zeros_not_empty (by decide +kernel) (by decide +kernel))⟩),
   (by
    have H : ((fun (s : State) (run : Nat) (item : Nat) (len : Nat) (r : Run) (bs : List Byte) (src : Place) (dst : Place) a
        tiles => (fun (s0 : State) => (fun (e : ItemEnv) => (fun (z : List Byte) => decide (len = leAt z 4 1 * 65536) &&
        (decide (s.itemReady 5 2 run item = some r) && (givesLit () (ItemM.on (moveCheck false) e s0) s0 &&
        (decide ((endAddr ((z.drop 8).take 16) item (leAt z 40 8)).any regTier = false) &&
        (decide ((endAddr ((z.drop 24).take 16) item (leAt z 48 8)).any regTier = false) &&
        (decide (endPlace ((z.drop 8).take 16) item (leAt z 40 8) len = some src) &&
        (decide (endPlace ((z.drop 24).take 16) item (leAt z 48 8) len = some dst) &&
        (decide (s0.placesMeet len src dst = false) && (givesLit () (ItemM.on (placesCheck src dst len) e s0) s0 &&
        (onOkSame (ItemM.on itemStage e s0) s0 fun (st : Nat) => decide (st ≠ 3) && (decide (dst = .flash a) &&
        (decide (s0.isOwn (addrMember a) = true) && (decide (s0.flashRange r.ctx (addrOff a) len = some tiles) &&
        (decide ((st = 0 → s0.flashQuota r.ctx tiles = true)) && ((fun s1 => (fun s2 =>
        true) (s1)) ((ItemM.on (joinBatch tiles) e s0).2)))))))))))))))) (payloadOf r.desc.bytes)) (r.env s item)) (s.beginItem
        run item)) (runs (aRun (moveDesc 0 (2 * 2 ^ 43 + 65536))) flashed) (1) (0) (65536) (aRun (moveDesc 0 (2 * 2 ^ 43 +
        65536))) (zeros) (.mem 0) (.flash (2 * 2 ^ 43 + 65536)) (2 * 2 ^ 43 + 65536) ([6])) = true := by decide +kernel
    obtain ⟨h3, H⟩ := and_of H
    obtain ⟨h4, H⟩ := and_of H
    obtain ⟨h5, H⟩ := and_lit H
    obtain ⟨h6, H⟩ := and_of H
    obtain ⟨h7, H⟩ := and_of H
    obtain ⟨h8, H⟩ := and_of H
    obtain ⟨h9, H⟩ := and_of H
    obtain ⟨h10, H⟩ := and_of H
    obtain ⟨h11, H⟩ := and_lit H
    obtain ⟨st, h12, H⟩ := of_okSame H
    obtain ⟨h13, H⟩ := and_of H
    obtain ⟨h14, H⟩ := and_of H
    obtain ⟨h15, H⟩ := and_of H
    obtain ⟨h16, H⟩ := and_of H
    obtain ⟨h17, H⟩ := and_of H
    exact ⟨(runs (aRun (moveDesc 0 (2 * 2 ^ 43 + 65536))) flashed), _, 1, 0, 65536, (aRun (moveDesc 0 (2 * 2 ^ 43 + 65536))),
        _, _, rfl, rfl, rfl, h3, zeros, (.mem 0), (.flash (2 * 2 ^ 43 + 65536)), _, h4, h5, h6, h7, h8, h9, h10, h11, h12, h13,
        (2 * 2 ^ 43 + 65536), [6], _, _, h14, h15, h16, h17, (gives_of (by decide +kernel)),
        (readPlace_zero (by decide +kernel) (by decide +kernel) (by decide +kernel) (by decide +kernel))⟩),
   (by
    have H : ((fun (s : State) (run : Nat) (item : Nat) (len : Nat) (r : Run) (dst : Place) => (fun (s0 : State) =>
        (fun (e : ItemEnv) => (fun (z : List Byte) => decide (len = leAt z 4 1 * 65536) &&
        (decide (s.itemReady 5 3 run item = some r) && (givesLit () (ItemM.on (moveCheck true) e s0) s0 &&
        (decide ((endAddr ((z.drop 24).take 16) item (leAt z 48 8)).any regTier = false) &&
        (decide (endPlace ((z.drop 24).take 16) item (leAt z 48 8) len = some dst) && ((fun (bs : List Byte) =>
        (fun (u : State) => decide (canEnd u run item r = true) && (true)) (s0.sramWrite wingKey bs)) ((List.replicate (len / 4)
        (leBytes 4 (leAt z 56 4))).flatMap id))))))) (payloadOf r.desc.bytes)) (r.env s item)) (s.beginItem run item)) (runs (aRun
        fillDesc) device) (1) (0) (65536) (aRun fillDesc) (.sram wingKey)) = true := by decide +kernel
    obtain ⟨h3, H⟩ := and_of H
    obtain ⟨h4, H⟩ := and_of H
    obtain ⟨h6, H⟩ := and_lit H
    obtain ⟨h7, H⟩ := and_of H
    obtain ⟨h8, H⟩ := and_of H
    obtain ⟨h5, H⟩ := and_of H
    exact ⟨(runs (aRun fillDesc) device), _, 1, 0, 65536, (aRun fillDesc), _, _, rfl, rfl, rfl, h3, _, _, (.sram wingKey), h4,
        (canEnd_of h5), h6, h7, h8, rfl, (Or.inl ⟨_, rfl, sramStore_gives (by decide +kernel) (by decide +kernel)⟩)⟩)⟩

def trimDesc : List Byte := desc 6 0 1 [(32, 8, 0x1000)]
def healthDesc (op : Nat) : List Byte := desc 6 op 1 [(32, 8, 0x2000)]
def bookDesc (op id a len : Nat) : List Byte := desc 6 op 1 [(32, 1, id), (40, 8, a), (48, 4, len)]

/-- A run of a class 6 item that waits for its map commit. -/
def committing (ps : List Program) (ts : List (Nat × Nat × Nat × Nat)) : State :=
  let s := runs (aRun trimDesc) flashed
  { s with flash := { s.flash with programs := ps, trims := ts } }

/-- A configuration image of the operator, with no payload and zeros for its hash, its key and its signature. -/
def configImage : List Byte := blob 320 [(0, 2, 1), (2, 1, 2), (3, 1, 2)]

def bookState : State :=
  let s := runs (aRun (bookDesc 3 2 0x1000 320)) (place 0x1000 configImage (sets [(lcStatusState, 2)] device))
  { s with book := { s.book with ownerKey := List.replicate 96 0 } }

theorem configImage_ok (h1 : Config.sha384 [] = List.replicate 48 0) (h2 : ∀ k d g, Config.ecdsaOk k d g = true) :
    (bookState.beginItem 1 0).imageResult configImage 2 = 0 := by
  have h : (configImage.drop 320).take (leAt configImage 8 4) = [] := by decide +kernel
  simp only [State.imageResult, h, h1, h2]
  decide +kernel

/-- States that meet the hypotheses of `Obligations.FlashAndPromptBookItemsEnd`, one for each clause. -/
theorem witness_FlashAndPromptBookItemsEnd :
    (∃ (s s0 s1 s2 : State) (run item list ent a n st : Nat) (r : Run) (e : ItemEnv), s.itemReady 6 0 run item = some r ∧
      s0 = s.beginItem run item ∧
      e = r.env s item ∧
      leAt r.desc.bytes 40 88 = 0 ∧
      itemStage.Gives e s0 st s0 ∧
      st ≠ 3 ∧
      list = leAt r.desc.bytes 32 8 ∧
      list % 8 = 0 ∧
      (once 0 do return [← loadNat (list + 8 * item) 8]).Gives e s0 [ent] s1 ∧
      trimRange s1 r.ctx ent = some (a, n) ∧
      (joinBatch []).Gives e s1 () s2) ∧
    (∃ (s w : State) (run item : Nat) (ps : List Program) (ts : List (Nat × Nat × Nat × Nat)),
        (ps = s.flash.programs.filter (fun p => p.run == run && p.item == item)) ∧
      (ts = s.flash.trims.filter (fun x => x.1 == run && x.2.1 == item)) ∧
      (w = { s with flash := { s.flash with programs := (s.flash.programs.filter fun p => !(p.run == run && p.item == item)), trims := s.flash.trims.filter fun x => !(x.1 == run && x.2.1 == item) } }) ∧
      (∀ p ∈ ps, p.block ≠ none ∧ p.data ≠ none) ∧
      (∀ x ∈ s.flash.inbound, remoteRun x.id ≠ run) ∧
      s.itemOpen run item = true ∧
      s.waitsAck run item = false ∧
      (∀ q, s.findRun run = some q → hdrClass q.desc.bytes = 5 ∨ hdrClass q.desc.bytes = 6) ∧
      ps ≠ [] ∧
      ts = []) ∧
    (∃ (s w : State) (run item : Nat) (ps : List Program) (ts : List (Nat × Nat × Nat × Nat)),
        (ps = s.flash.programs.filter (fun p => p.run == run && p.item == item)) ∧
      (ts = s.flash.trims.filter (fun x => x.1 == run && x.2.1 == item)) ∧
      (w = { s with flash := { s.flash with programs := (s.flash.programs.filter fun p => !(p.run == run && p.item == item)), trims := s.flash.trims.filter fun x => !(x.1 == run && x.2.1 == item) } }) ∧
      (∀ p ∈ ps, p.block ≠ none ∧ p.data ≠ none) ∧
      (∀ x ∈ s.flash.inbound, remoteRun x.id ≠ run) ∧
      s.itemOpen run item = true ∧
      s.waitsAck run item = false ∧
      (∀ q, s.findRun run = some q → hdrClass q.desc.bytes = 5 ∨ hdrClass q.desc.bytes = 6) ∧
      ∃ (a n : Nat), ps = [] ∧
      ts = [(run, item, a, n)]) ∧
    (∃ (s : State) (run item a : Nat) (r : Run), s.itemReady 6 1 run item = some r ∧
      s.waitsAck run item = false ∧
      a = leAt r.desc.bytes 32 8 ∧
      leAt r.desc.bytes 40 88 = 0 ∧
      a % 64 = 0 ∧
      hdrItems r.desc.bytes = 0 ∧
      s.WritableHere a 64) ∧
    (∃ (s s0 u : State) (run item id a len : Nat) (r : Run) (e : ItemEnv), s0 = s.beginItem run item ∧
      e = r.env s item ∧
      pbOperand.Gives e s0 (id, a, len) s0 ∧
      bookFree.Gives e s0 () s0 ∧
      u.CanEnd run item r ∧
      s.itemReady 6 2 run item = some r ∧
      id ∈ [2, 3, 4, 5, 6] ∧
      pbSize id ≤ len ∧
      (store a (s0.pbBytes id)).Gives e s0 () u) ∧
    ((Config.sha384 [] = List.replicate 48 0) → (∀ k d g, Config.ecdsaOk k d g = true) →
        ∃ (s s0 u : State) (run item id a len : Nat) (r : Run) (e : ItemEnv), s0 = s.beginItem run item ∧
      e = r.env s item ∧
      pbOperand.Gives e s0 (id, a, len) s0 ∧
      bookFree.Gives e s0 () s0 ∧
      u.CanEnd run item r ∧
      ∃ (s1 : State) (img : List Byte), s.itemReady 6 3 run item = some r ∧
      id = 2 ∧
      len ≤ 262144 ∧
      (load a len).Gives e s0 img s1 ∧
      s1.imageResult img 2 = 0 ∧
      u = (s1.pbUpdate 2 img).raiseCounter 1 (leAt img 4 4)) :=
  ⟨(by
    have H : ((fun (s : State) (run : Nat) (item : Nat) (ent : Nat) (a : Nat) (n : Nat) (r : Run) =>
        decide (s.itemReady 6 0 run item = some r) && ((fun (s0 : State) => (fun (e : ItemEnv) =>
        decide (leAt r.desc.bytes 40 88 = 0) && (onOkSame (ItemM.on itemStage e s0) s0 fun (st : Nat) => decide (st ≠ 3) &&
        ((fun (list : Nat) => decide (list % 8 = 0) && (onOkLit [ent] (ItemM.on (once 0 do return [← loadNat (list + 8 * item) 8])
        e s0) fun (s1 : State) => decide (trimRange s1 r.ctx ent = some (a, n)) && (onOkUnit (ItemM.on (joinBatch []) e s1)
        fun (s2 : State) => true))) (leAt r.desc.bytes 32 8)))) (r.env s item)) (s.beginItem run item))) (runs (aRun trimDesc)
        (place 0x1000 (leBytes 8 (1 + 2 ^ 27)) flashed)) (1) (0) (134217729) (6) (1) (aRun trimDesc)) = true := by decide +kernel
    obtain ⟨h0, H⟩ := and_of H
    obtain ⟨h3, H⟩ := and_of H
    obtain ⟨st, h4, H⟩ := of_okSame H
    obtain ⟨h5, H⟩ := and_of H
    obtain ⟨h7, H⟩ := and_of H
    obtain ⟨s1, h8, H⟩ := of_okLit H
    obtain ⟨h9, H⟩ := and_of H
    obtain ⟨s2, h10, H⟩ := of_okUnit H
    exact ⟨(runs (aRun trimDesc) (place 0x1000 (leBytes 8 (1 + 2 ^ 27)) flashed)), _, _, _, 1, 0, _, 134217729, 6, 1, _,
        (aRun trimDesc), _, h0, rfl, rfl, h3, h4, h5, rfl, h7, h8, h9, h10⟩),
   (by
    have H : ((fun (run : Nat) (item : Nat) => (fun (s : State) => (fun (ps : List Program) =>
        (fun (ts : List (Nat × Nat × Nat × Nat)) => (fun (w : State) => decide ((∀ p ∈ ps, p.block ≠ none ∧ p.data ≠ none)) &&
        (decide ((∀ x ∈ s.flash.inbound, remoteRun x.id ≠ run)) && (decide (s.itemOpen run item = true) &&
        (decide (s.waitsAck run item = false) && (decide ((s.findRun run).all (fun q => decide (hdrClass q.desc.bytes = 5 ∨
        hdrClass q.desc.bytes = 6)) = true) && (decide (ps ≠ []) && (decide (ts = []) &&
        (true)))))))) ({ s with flash := { s.flash with programs := (s.flash.programs.filter fun p => !(p.run == run && p.item == item)), trims := s.flash.trims.filter fun x => !(x.1 == run && x.2.1 == item) } })) (s.flash.trims.filter (fun x => x.1 == run && x.2.1 == item))) (s.flash.programs.filter (fun p => p.run == run && p.item == item))) (committing [{ run := 1, item := 0, ctx := 0, tile := 5, passed := true, block := some 0, data := some [7] }] [])) (1) (0)) = true := by decide +kernel
    obtain ⟨h3, H⟩ := and_of H
    obtain ⟨h4, H⟩ := and_of H
    obtain ⟨h5, H⟩ := and_of H
    obtain ⟨h6, H⟩ := and_of H
    obtain ⟨h7, H⟩ := and_of H
    obtain ⟨h8, H⟩ := and_of H
    obtain ⟨h9, H⟩ := and_of H
    exact ⟨_, _, 1, 0, _, _, rfl, rfl, rfl, h3, h4, h5, h6, (forall_some h7), h8, h9⟩),
   (by
    have H : ((fun (s : State) (run : Nat) (item : Nat) (a : Nat) (n : Nat) => (fun (ps : List Program) =>
        (fun (ts : List (Nat × Nat × Nat × Nat)) => (fun (w : State) => decide ((∀ p ∈ ps, p.block ≠ none ∧ p.data ≠ none)) &&
        (decide ((∀ x ∈ s.flash.inbound, remoteRun x.id ≠ run)) && (decide (s.itemOpen run item = true) &&
        (decide (s.waitsAck run item = false) && (decide ((s.findRun run).all (fun q => decide (hdrClass q.desc.bytes = 5 ∨
        hdrClass q.desc.bytes = 6)) = true) && (decide (ps = []) && (decide (ts = [(run, item, a, n)]) &&
        (true)))))))) ({ s with flash := { s.flash with programs := (s.flash.programs.filter fun p => !(p.run == run && p.item == item)), trims := s.flash.trims.filter fun x => !(x.1 == run && x.2.1 == item) } })) (s.flash.trims.filter (fun x => x.1 == run && x.2.1 == item))) (s.flash.programs.filter (fun p => p.run == run && p.item == item))) (committing [] [(1, 0, 5, 1)]) (1) (0) (5) (1)) = true := by decide +kernel
    obtain ⟨h3, H⟩ := and_of H
    obtain ⟨h4, H⟩ := and_of H
    obtain ⟨h5, H⟩ := and_of H
    obtain ⟨h6, H⟩ := and_of H
    obtain ⟨h7, H⟩ := and_of H
    obtain ⟨h8, H⟩ := and_of H
    obtain ⟨h9, H⟩ := and_of H
    exact ⟨(committing [] [(1, 0, 5, 1)]), _, 1, 0, _, _, rfl, rfl, rfl, h3, h4, h5, h6, (forall_some h7), 5, 1, h8, h9⟩),
   (by
    have H : ((fun (s : State) (run : Nat) (item : Nat) (r : Run) => decide (s.itemReady 6 1 run item = some r) &&
        (decide (s.waitsAck run item = false) && ((fun (a : Nat) => decide (leAt r.desc.bytes 40 88 = 0) &&
        (decide (a % 64 = 0) && (decide (hdrItems r.desc.bytes = 0) && (decide (writableB s a 64 = true) &&
        (true))))) (leAt r.desc.bytes 32 8)))) (runs (aRun (healthDesc 1)) flashed) (1) (0) (aRun (healthDesc 1))) = true :=
        by decide +kernel
    obtain ⟨h0, H⟩ := and_of H
    obtain ⟨h1, H⟩ := and_of H
    obtain ⟨h3, H⟩ := and_of H
    obtain ⟨h4, H⟩ := and_of H
    obtain ⟨h5, H⟩ := and_of H
    obtain ⟨h6, H⟩ := and_of H
    exact ⟨(runs (aRun (healthDesc 1)) flashed), 1, 0, _, (aRun (healthDesc 1)), h0, h1, rfl, h3, h4, h5, (writable_of h6)⟩),
   (by
    have H : ((fun (s : State) (run : Nat) (item : Nat) (r : Run) => (fun (s0 : State) => (fun (e : ItemEnv) =>
        onOkSame (ItemM.on pbOperand e s0) s0 fun x => (fun (id : Nat) (a : Nat) (len : Nat) =>
        givesLit () (ItemM.on bookFree e s0) s0 && (decide (s.itemReady 6 2 run item = some r) && (decide (id ∈ [2, 3, 4, 5,
        6]) && (decide (pbSize id ≤ len) && (onOkUnit (ItemM.on (store a (s0.pbBytes id)) e s0) fun (u : State) =>
        decide (canEnd u run item r = true) && (true)))))) x.1 x.2.1 x.2.2) (r.env s item)) (s.beginItem run item))
        ({ runs (aRun (bookDesc 2 5 0x2000 262144)) device with book := { device.book with certificate := [1, 2, 3] } }) (1) (0)
        (aRun (bookDesc 2 5 0x2000 262144))) = true := by decide +kernel
    obtain ⟨⟨id, a, len⟩, h2, H⟩ := of_okSame H
    obtain ⟨h3, H⟩ := and_lit H
    obtain ⟨h5, H⟩ := and_of H
    obtain ⟨h6, H⟩ := and_of H
    obtain ⟨h7, H⟩ := and_of H
    obtain ⟨u, h8, H⟩ := of_okUnit H
    obtain ⟨h4, H⟩ := and_of H
    exact ⟨({ runs (aRun (bookDesc 2 5 0x2000 262144)) device with book := { device.book with certificate := [1, 2, 3] } }),
        _, _, 1, 0, _, _, _, (aRun (bookDesc 2 5 0x2000 262144)), _, rfl, rfl, h2, h3, (canEnd_of h4), h5, h6, h7, h8⟩),
   (by
    intro hsha hsig
    have H : ((fun (s : State) (run : Nat) (item : Nat) (r : Run) (img : List Byte) => (fun (s0 : State) =>
        (fun (e : ItemEnv) => onOkSame (ItemM.on pbOperand e s0) s0 fun x => (fun (id : Nat) (a : Nat) (len : Nat) =>
        givesLit () (ItemM.on bookFree e s0) s0 && (decide (s.itemReady 6 3 run item = some r) && (decide (id = 2) &&
        (decide (len ≤ 262144) && ((fun (s1 : State) => givesLit img (ItemM.on (load a len) e s0) s1 && ((fun (u : State) =>
        decide (canEnd u run item r = true) && (true)) ((s1.pbUpdate 2 img).raiseCounter 1 (leAt img 4 4)))) (s0)))))) x.1 x.2.1
        x.2.2) (r.env s item)) (s.beginItem run item)) (bookState) (1) (0) (aRun (bookDesc 3 2 0x1000 320)) (configImage)) = true
        := by decide +kernel
    obtain ⟨⟨id, a, len⟩, h2, H⟩ := of_okSame H
    obtain ⟨h3, H⟩ := and_lit H
    obtain ⟨h5, H⟩ := and_of H
    obtain ⟨h6, H⟩ := and_of H
    obtain ⟨h7, H⟩ := and_of H
    obtain ⟨h8, H⟩ := and_lit H
    obtain ⟨h4, H⟩ := and_of H
    exact ⟨bookState, _, _, 1, 0, _, _, _, (aRun (bookDesc 3 2 0x1000 320)), _, rfl, rfl, h2, h3, (canEnd_of h4), _,
        configImage, h5, h6, h7, h8, (configImage_ok hsha hsig), rfl⟩)⟩

/-- Block 0 waits to be erased, and bears one erase more. -/
def worn : State :=
  { flashed with flash := { flashed.flash with queued := [0], geom := { flashed.flash.geom with endurance := 2 } } }

/-- States that meet the hypotheses of `Obligations.MemoriesKeptUp`, one for each clause. -/
theorem witness_MemoriesKeptUp :
    (∃ (readings : List (Option Int)) (n : Nat) (v : Int), n < 8 ∧
      readings[n]? = some (some v) ∧
      (∀ w, some w ∈ readings → w < 400)) ∧
    (∃ (s : State) (stack pc lane : Nat), laneKey stack pc lane ∈ s.mem.marked ∧
      s.stackShut stack = false ∧
      s.rel.smUp = true ∧
      s.spareUsed stack pc = false) ∧
    (∃ (s : State) (tier line key : Nat) (w : Bool), tier < 2 ∧
      s.populated tier (line * 64) 64 = true ∧
      key = tier * 2 ^ 43 + line * 64 ∧
      s.scrubHeld key = false ∧
      s.mem.marked = [] ∧
      s.devBad key 64 = false ∧
      ∃ (j : Nat), tier = 1 ∧
      j < 8 ∧
      w = false ∧
      s.fld memerrLogBaseBase = 0 ∧
      s.fld faultLogBaseBase = 0) ∧
    (∃ (s t : State) (word now : Nat), 8 * word < sramControl ∧
      s.sramBad (8 * word) 8 = false ∧
      t = { (s.tick now).draw with mem := { s.mem with stuckSram := cellPut s.mem.stuckSram (8 * word) none } }) ∧
    (∃ (s : State) (b : Nat), s.flag flashStatusReady = true ∧
      s.rel.smUp = true ∧
      s.powerState ≠ 3 ∧
      s.batchPasses 0 = true ∧
      b ∈ s.flash.queued ∧
      s.blockTiles b = [] ∧
      s.blockErases b + 1 < s.flash.geom.endurance) :=
  ⟨(by
    have H : ((fun (readings : List (Option Int)) (n : Nat) (v : Int) => decide (n < 8) &&
        (decide (readings[n]? = some (some v)) && (true))) ([none, none, none, none, none, none, none,
        some 399]) (7) (399)) = true := by decide +kernel
    obtain ⟨h0, H⟩ := and_of H
    obtain ⟨h1, H⟩ := and_of H
    exact ⟨([none, none, none, none, none, none, none, some 399]), 7, 399, h0, h1, (by simp)⟩),
   (by
    have H : ((fun (s : State) (stack : Nat) (pc : Nat) (lane : Nat) => decide (laneKey stack pc lane ∈ s.mem.marked) &&
        (decide (s.stackShut stack = false) && (decide (s.rel.smUp = true) && (decide (s.spareUsed stack pc = false) &&
        (true))))) ({ device with mem := { device.mem with marked := [laneKey 7 63 4] } }) (7) (63) (4)) = true :=
        by decide +kernel
    obtain ⟨h0, H⟩ := and_of H
    obtain ⟨h1, H⟩ := and_of H
    obtain ⟨h2, H⟩ := and_of H
    obtain ⟨h3, H⟩ := and_of H
    exact ⟨({ device with mem := { device.mem with marked := [laneKey 7 63 4] } }), 7, 63, 4, h0, h1, h2, h3⟩),
   (by
    have H : ((fun (s : State) (tier : Nat) (line : Nat) (w : Bool) (j : Nat) => decide (tier < 2) &&
        (decide (s.populated tier (line * 64) 64 = true) && ((fun (key : Nat) => decide (s.scrubHeld key = false) &&
        (decide (s.mem.marked = []) && (decide (s.devBad key 64 = false) && (decide (tier = 1) && (decide (j < 8) &&
        (decide (w = false) && (decide (s.fld memerrLogBaseBase = 0) && (decide (s.fld faultLogBaseBase = 0) &&
        (true))))))))) (tier * 2 ^ 43 + line * 64)))) (sets [(⟨rLpddrCfg, 0, 1⟩, 1)] device) (1) (0) (false) (7)) = true :=
        by decide +kernel
    obtain ⟨h0, H⟩ := and_of H
    obtain ⟨h1, H⟩ := and_of H
    obtain ⟨h3, H⟩ := and_of H
    obtain ⟨h4, H⟩ := and_of H
    obtain ⟨h5, H⟩ := and_of H
    obtain ⟨h6, H⟩ := and_of H
    obtain ⟨h7, H⟩ := and_of H
    obtain ⟨h8, H⟩ := and_of H
    obtain ⟨h9, H⟩ := and_of H
    obtain ⟨h10, H⟩ := and_of H
    exact ⟨(sets [(⟨rLpddrCfg, 0, 1⟩, 1)] device), 1, 0, _, false, h0, h1, rfl, h3, h4, h5, 7, h6, h7, h8, h9, h10⟩),
   (by
    have H : ((fun (s : State) (word : Nat) (now : Nat) => decide (8 * word < sramControl) &&
        (decide (s.sramBad (8 * word) 8 = false) && ((fun (t : State) => true)
        ({ (s.tick now).draw with mem := { s.mem with stuckSram := cellPut s.mem.stuckSram (8 * word) none } })))) (device) (0)
        (5)) = true := by decide +kernel
    obtain ⟨h0, H⟩ := and_of H
    obtain ⟨h1, H⟩ := and_of H
    exact ⟨device, _, 0, 5, h0, h1, rfl⟩),
   (by
    have H : ((fun (s : State) (b : Nat) => decide (s.flag flashStatusReady = true) && (decide (s.rel.smUp = true) &&
        (decide (s.powerState ≠ 3) && (decide (s.batchPasses 0 = true) && (decide (b ∈ s.flash.queued) &&
        (decide (s.blockTiles b = []) && (decide (s.blockErases b + 1 < s.flash.geom.endurance) &&
        (true)))))))) (worn) (0)) = true := by decide +kernel
    obtain ⟨h0, H⟩ := and_of H
    obtain ⟨h1, H⟩ := and_of H
    obtain ⟨h2, H⟩ := and_of H
    obtain ⟨h3, H⟩ := and_of H
    obtain ⟨h4, H⟩ := and_of H
    obtain ⟨h5, H⟩ := and_of H
    obtain ⟨h6, H⟩ := and_of H
    exact ⟨worn, 0, h0, h1, h2, h3, h4, h5, h6⟩)⟩

end Sys2Proof.Tests
end

