-- ==== Sys2Proof/Tests/Witness06.lean ====
section
/-! SUPPORT. States that meet the hypotheses of the statements. -/

set_option Elab.async false
namespace Sys2Proof.Tests
open Sys2Proof.Machine

/-- An access unit of one byte at 0x800000, which starts the stream at 0x100000. -/
def decDesc : List Byte :=
  desc 7 0 1 [(32, 1, 0xFF), (36, 1, 1), (37, 1, 1), (40, 8, 0x100000), (48, 8, 0x700000), (56, 8, 0x200000), (64, 8, 0x300000),
    (76, 2, 1), (78, 2, 1), (88, 2, 1), (90, 2, 1)]

def decState : State :=
  runs (aRun decDesc) (place 0x700000 (blob 16 [(0, 8, 0x800000), (8, 4, 1), (12, 1, 1)]) device)

def encDesc : List Byte :=
  desc 8 0 1 [(32, 1, 0xFF), (40, 8, 0x100000), (48, 8, 0x200000), (56, 8, 0x300000), (68, 2, 1), (72, 8, 0x400000), (80, 1, 16),
    (81, 1, 4), (84, 8, 0x500000), (92, 8, 0x600000)]

/-- A configuration of 16 × 16 pictures. -/
def encCfg : List Byte :=
  blob 64 [(0, 2, 16), (2, 2, 16), (4, 1, 8), (12, 4, 1), (16, 4, 1), (32, 4, 1), (36, 1, 1)]

/-- The item that codes a picture, once it has taken its stream. -/
def encRun : Run := { aRun encDesc with items := [{ anItem 0 with stage := 1 }] }

def encState (l : List EncJob) : State :=
  let s := place 0x100000 (blob 4 [(0, 1, 2), (1, 1, 1)]) device
  { s with media := { s.media with streams := [(0x100000, { StreamState.empty with cfg := encCfg })], encodes := l } }

/-- The picture that `ENC_PICTURE` begins there, with slices waiting. -/
def encBegun (l : List EncSlice) : EncJob :=
  { encJob (encRun.env (encState []) 0) (payloadOf encDesc) (streamHdr []) { StreamState.empty with cfg := encCfg } with pending := l }

/-- A picture with `START`: its configuration stands in the block, and its pool holds one buffer. -/
def startDesc : List Byte := encDesc.set 34 2
def startRun : Run := { aRun startDesc with items := [{ anItem 0 with stage := 1 }] }
def startState : State :=
  runs startRun (place 0x100040 encCfg (place 0x200000 (blob 1088 [(0, 2, 1), (4, 4, 2 ^ 20)]) device))

theorem enc_start (h : ∀ c cfg, Config.levelOk c cfg = true) :
    onOk ((encOpen (payloadOf startDesc)).on (startRun.env startState 0) (startState.beginItem 1 0)) (fun _ _ =>
        true) = true := by
  simp only [encOpen, cfgOk, h]
  decide +kernel

def aSlice (flags : Nat) : EncSlice := { index := 0, flags := flags, q := 0, bytes := [1, 2, 3] }

theorem decodeUnit_idle (h : ∀ c t s b, Config.parseAu c t s b = ⟨[], [], [], [], 0, []⟩) (codec stride : Nat) (c : PostProc)
    (pool : Pool) (st : StreamState) (marks : List (Nat × Nat)) (last : Bool) (au : List Byte) :
    decodeUnit codec c stride pool st marks last au = .ok { st with token := [] }
      (let a : DecAcc := { bufs := st.bufs, marks := marks, stored := [], used := [], outs := [], damaged := 0 }
       if last then flushed a else a) [] := by
  unfold decodeUnit
  rw [h]
  cases last <;> rfl

/-- The access unit as its item reads it, and its output where the standard finds no picture in it. -/
def decRead : Except Stop (List Byte × StreamHdr × List Byte) × State :=
  (decUnit (payloadOf decDesc)).on ((aRun decDesc).env decState 0) (decState.beginItem 1 0)

def decHdr : StreamHdr := ⟨0, 0, 0, 0, 0x80000000, 0, 0, 0⟩
def decEntry : List Byte := blob 16 [(0, 8, 0x800000), (8, 4, 1), (12, 1, 1)]

theorem dec_out (h : ∀ c t s b, Config.parseAu c t s b = ⟨[], [], [], [], 0, []⟩) :
    onOk ((decOutput (payloadOf decDesc) decEntry decHdr [0]).on ((aRun decDesc).env decState 0) decRead.2)
      (fun d u => decide (d.status < 16) && (decide (u.devShut (addrKey (leAt (payloadOf decDesc) 8 8) + 4) = false) &&
        (decide (u.devPartBad (addrKey (leAt (payloadOf decDesc) 8 8) + 4) 4 = false) && (decide (u.media.encodes = []) &&
        (canEnd u 1 0 (aRun decDesc) && onSome (u.itemOf 1 0) fun x => decide (x.stage ≠ 0)))))) = true := by
  simp only [decOutput, decodeUnit_idle h]
  decide +kernel

/-- States that meet the hypotheses of `Obligations.CodecItemsEnd`, one for each clause. -/
theorem witness_CodecItemsEnd :
    ((∀ c t s b, Config.parseAu c t s b = ⟨[], [], [], [], 0, []⟩) → ∃ (s s0 s1 u : State) (run item : Nat) (r : Run) (e :
        ItemEnv) (z ent au : List Byte) (h : StreamHdr) (d : Done) (x : Item), s.itemReady 7 0 run item = some r ∧
      s0 = s.beginItem run item ∧
      e = r.env s item ∧
      z = payloadOf r.desc.bytes ∧
      decCheck.Gives e s0 () s0 ∧
      (decUnit z).Gives e s0 (ent, h, au) s1 ∧
      (decOutput z ent h au).Gives e s1 d u ∧
      d.status < 16 ∧
      u.CanEnd run item r ∧
      u.itemOf run item = some x ∧
      x.stage ≠ 0 ∧
      u.devShut (addrKey (leAt z 8 8) + 4) = false ∧
      u.devPartBad (addrKey (leAt z 8 8) + 4) 4 = false ∧
      (∀ j ∈ u.media.encodes, ¬(j.run = run ∧ j.item = item))) ∧
    ((∀ c cfg, Config.levelOk c cfg = true) → ∃ (s s0 s1 : State) (run item : Nat) (r : Run) (e : ItemEnv) (z : List Byte) (h
        : StreamHdr) (st : StreamState), s.itemReady 8 0 run item = some r ∧
      s0 = s.beginItem run item ∧
      e = r.env s item ∧
      z = payloadOf r.desc.bytes ∧
      encCheck.Gives e s0 () s0 ∧
      theJob.Gives e s0 none s0 ∧
      (encOpen z).Gives e s0 (h, st) s1) ∧
    (∃ (s s0 s1 s2 : State) (run item y q : Nat) (r : Run) (e : ItemEnv) (z cfg fence bytes : List Byte) (job : EncJob) (rows
        : List (List (List FVal))), s.itemReady 8 0 run item = some r ∧
      s0 = s.beginItem run item ∧
      e = r.env s item ∧
      z = payloadOf r.desc.bytes ∧
      (∃ j ∈ s.media.encodes, j.run = run ∧ j.item = item) ∧
      theJob.Gives e s0 (some job) s0 ∧
      cfg = job.state.cfg ∧
      y = job.rows.length ∧
      y < blockRowCount cfg ∧
      (bit (leAt z 68 4) 15 = false → s1 = s0) ∧
      (bit (leAt z 68 4) 15 = true → (readDev (s0.fenceKey r.ctx (leAt z 68 4 % 4096)) 4).Gives e s0 fence s1 ∧
          (bit (leNat fence) 16 = false ∨ flProceed r.desc.bytes = true) ∧ fenceMet (leNat fence % 2 ^ 17) ((leAt z 68 4 / 65536 +
          item * blockRowCount cfg + y + 1) % 2 ^ 16) = true) ∧
      (((List.range (min 64 (cfgH cfg - 64 * y))).mapM fun k => (List.range 3).mapM fun c =>
          (loadKeep (inputRow z item (cfgH cfg) c (64 * y + k)) (rowBytes (leAt z 3 1 % 16) (cfgW cfg)) >>= fun bs =>
          pure (rowValues (leAt z 3 1 % 16) (cfgW cfg) bs []))).Gives e s1 rows s2) ∧
      q = rowQ cfg job y (rowBits job.rows) ∧
      bytes = Config.encodeRow (encRules (leAt z 1 1) cfg job.intra q) cfg job.state.bufs (blockRowSamples cfg (bit (leAt z
          2 1) 2) rows) (job.rows.map Prod.snd)) ∧
    (∃ (s s0 s1 : State) (run item : Nat) (r : Run) (e : ItemEnv) (z : List Byte) (job : EncJob) (sl : EncSlice) (rest : List
        EncSlice) (h : StreamHdr), s.itemReady 8 0 run item = some r ∧
      s0 = s.beginItem run item ∧
      e = r.env s item ∧
      z = payloadOf r.desc.bytes ∧
      (∃ j ∈ s.media.encodes, j.run = run ∧ j.item = item) ∧
      theJob.Gives e s0 (some job) s0 ∧
      job.pending = sl :: rest ∧
      (sliceOut z job sl rest).Gives e s0 h s1 ∧
      bit sl.flags 0 = false) ∧
    (∃ (s s0 s1 : State) (run item : Nat) (r : Run) (e : ItemEnv) (z : List Byte) (job : EncJob) (sl : EncSlice) (rest : List
        EncSlice) (h : StreamHdr), s.itemReady 8 0 run item = some r ∧
      s0 = s.beginItem run item ∧
      e = r.env s item ∧
      z = payloadOf r.desc.bytes ∧
      (∃ j ∈ s.media.encodes, j.run = run ∧ j.item = item) ∧
      theJob.Gives e s0 (some job) s0 ∧
      job.pending = sl :: rest ∧
      (sliceOut z job sl rest).Gives e s0 h s1 ∧
      ∃ (u : State) (d : Done) (x : Item), bit sl.flags 0 = true ∧
      (pictureCommit z job h).Gives e s1 d u ∧
      u.CanEnd run item r ∧
      u.itemOf run item = some x ∧
      x.stage ≠ 0 ∧
      d.status < 16 ∧
      u.devShut (addrKey (leAt z 8 8) + 4) = false ∧
      u.devPartBad (addrKey (leAt z 8 8) + 4) 4 = false) :=
  ⟨(by
    intro hau
    obtain ⟨d, u, h1, h⟩ := of_ok (dec_out hau)
    obtain ⟨h2, h⟩ := and_of h
    obtain ⟨h6, h⟩ := and_of h
    obtain ⟨h7, h⟩ := and_of h
    obtain ⟨h8, h⟩ := and_of h
    rw [Bool.and_eq_true] at h
    obtain ⟨x, h4, h5⟩ := of_some h.2
    refine ⟨decState, _, decRead.2, u, 1, 0, aRun decDesc, _, _, decEntry, [0], decHdr, d, x, by decide +kernel, rfl, rfl, rfl,
      (and_lit (b := true) (by decide +kernel)).1, (and_lit (b := true) (by decide +kernel)).1, h1, h2, canEnd_of h.1, h4,
      of_decide_eq_true h5, h6, h7, by rw [h8]; exact fun j hj => absurd hj List.not_mem_nil⟩),
   (by
    intro hl
    obtain ⟨⟨h, st⟩, s1, h1, -⟩ := of_ok (enc_start hl)
    exact ⟨startState, _, s1, 1, 0, startRun, _, _, h, st, by decide +kernel, rfl, rfl, rfl,
      (and_lit (b := true) (by decide +kernel)).1, (and_lit (b := true) (by decide +kernel)).1, h1⟩),
   (by
    have H : ((fun (s : State) (s1 : State) (run : Nat) (item : Nat) (r : Run) (fence : List Byte) (job : EncJob) =>
        decide (s.itemReady 8 0 run item = some r) && ((fun (s0 : State) => (fun (e : ItemEnv) => (fun (z : List Byte) =>
        decide ((∃ j ∈ s.media.encodes, j.run = run ∧ j.item = item)) && (givesLit (some job) (ItemM.on theJob e s0) s0 &&
        ((fun (cfg : List Byte) => (fun (y : Nat) => decide (y < blockRowCount cfg) && (decide (s1 = s0) &&
        (decide (¬ (bit (leAt z 68 4) 15 = true)) && (onOk (ItemM.on ((List.range (min 64 (cfgH cfg - 64 * y))).mapM fun k =>
        (List.range 3).mapM fun c => (loadKeep (inputRow z item (cfgH cfg) c (64 * y + k)) (rowBytes (leAt z 3 1 % 16) (cfgW cfg))
        >>= fun bs => pure (rowValues (leAt z 3 1 % 16) (cfgW cfg) bs []))) e s1)
        fun (rows : List (List (List FVal))) (s2 : State) => (fun (q : Nat) => (fun (bytes : List Byte) =>
        true) (Config.encodeRow (encRules (leAt z 1 1) cfg job.intra q) cfg job.state.bufs (blockRowSamples cfg (bit (leAt z 2 1)
        2) rows) (job.rows.map Prod.snd))) (rowQ cfg job y (rowBits job.rows)))))) (job.rows.length)) (job.state.cfg))))
        (payloadOf r.desc.bytes)) (r.env s item)) (s.beginItem run item))) (runs encRun (encState [encBegun []])) ((runs encRun
        (encState [encBegun []])).beginItem 1 0) (1) (0) (encRun) ([]) (encBegun [])) = true := by decide +kernel
    obtain ⟨h0, H⟩ := and_of H
    obtain ⟨h4, H⟩ := and_of H
    obtain ⟨h5, H⟩ := and_lit H
    obtain ⟨h8, H⟩ := and_of H
    obtain ⟨h9, H⟩ := and_of H
    obtain ⟨h10, H⟩ := and_of H
    obtain ⟨rows, s2, h11, H⟩ := of_ok H
    exact ⟨(runs encRun (encState [encBegun []])), _, ((runs encRun (encState [encBegun []])).beginItem 1 0), _, 1, 0, _, _,
        encRun, _, _, _, [], _, (encBegun []), _, h0, rfl, rfl, rfl, h4, h5, rfl, rfl, h8, (fun _ => h9), (fun h => absurd h h10),
        h11, rfl, rfl⟩),
   (by
    have H : ((fun (s : State) (run : Nat) (item : Nat) (r : Run) (job : EncJob) (sl : EncSlice) (rest : List EncSlice) =>
        decide (s.itemReady 8 0 run item = some r) && ((fun (s0 : State) => (fun (e : ItemEnv) => (fun (z : List Byte) =>
        decide ((∃ j ∈ s.media.encodes, j.run = run ∧ j.item = item)) && (givesLit (some job) (ItemM.on theJob e s0) s0 &&
        (decide (job.pending = sl :: rest) && (onOk (ItemM.on (sliceOut z job sl rest) e s0) fun (h : StreamHdr) (s1 : State) =>
        decide (bit sl.flags 0 = false) && (true))))) (payloadOf r.desc.bytes)) (r.env s item)) (s.beginItem run item))) (runs
        encRun (encState [encBegun [aSlice 0, aSlice 1]])) (1) (0) (encRun) (encBegun [aSlice 0,
        aSlice 1]) (aSlice 0) ([aSlice 1])) = true := by decide +kernel
    obtain ⟨h0, H⟩ := and_of H
    obtain ⟨h4, H⟩ := and_of H
    obtain ⟨h5, H⟩ := and_lit H
    obtain ⟨h6, H⟩ := and_of H
    obtain ⟨h, s1, h7, H⟩ := of_ok H
    obtain ⟨h8, H⟩ := and_of H
    exact ⟨(runs encRun (encState [encBegun [aSlice 0, aSlice 1]])), _, _, 1, 0, encRun, _, _, (encBegun [aSlice 0,
        aSlice 1]), (aSlice 0), ([aSlice 1]), _, h0, rfl, rfl, rfl, h4, h5, h6, h7, h8⟩),
   (by
    have H : ((fun (s : State) (run : Nat) (item : Nat) (r : Run) (job : EncJob) (sl : EncSlice) (rest : List EncSlice) =>
        decide (s.itemReady 8 0 run item = some r) && ((fun (s0 : State) => (fun (e : ItemEnv) => (fun (z : List Byte) =>
        decide ((∃ j ∈ s.media.encodes, j.run = run ∧ j.item = item)) && (givesLit (some job) (ItemM.on theJob e s0) s0 &&
        (decide (job.pending = sl :: rest) && (onOk (ItemM.on (sliceOut z job sl rest) e s0) fun (h : StreamHdr) (s1 : State) =>
        decide (bit sl.flags 0 = true) && (onOk (ItemM.on (pictureCommit z job h) e s1) fun (d : Done) (u : State) =>
        decide (canEnd u run item r = true) && (onSome (u.itemOf run item) fun (x : Item) => decide (x.stage ≠ 0) &&
        (decide (d.status < 16) && (decide (u.devShut (addrKey (leAt z 8 8) + 4) = false) &&
        (decide (u.devPartBad (addrKey (leAt z 8 8) + 4) 4 = false) && (true)))))))))) (payloadOf r.desc.bytes)) (r.env s item))
        (s.beginItem run item))) (runs encRun (encState [encBegun [aSlice 1]])) (1) (0) (encRun) (encBegun [aSlice 1]) (aSlice 1)
        ([])) = true := by decide +kernel
    obtain ⟨h0, H⟩ := and_of H
    obtain ⟨h4, H⟩ := and_of H
    obtain ⟨h5, H⟩ := and_lit H
    obtain ⟨h6, H⟩ := and_of H
    obtain ⟨h, s1, h7, H⟩ := of_ok H
    obtain ⟨h8, H⟩ := and_of H
    obtain ⟨d, u, h9, H⟩ := of_ok H
    obtain ⟨h10, H⟩ := and_of H
    obtain ⟨x, h11, H⟩ := of_some H
    obtain ⟨h12, H⟩ := and_of H
    obtain ⟨h13, H⟩ := and_of H
    obtain ⟨h14, H⟩ := and_of H
    obtain ⟨h15, H⟩ := and_of H
    exact ⟨(runs encRun (encState [encBegun [aSlice 1]])), _, _, 1, 0, encRun, _, _, (encBegun [aSlice 1]), (aSlice 1), [], _,
        h0, rfl, rfl, rfl, h4, h5, h6, h7, _, _, _, h8, h9, (canEnd_of h10), h11, h12, h13, h14, h15⟩)⟩

end Sys2Proof.Tests
end

