-- ==== Sys2Proof/Tests/Witness07.lean ====
section
/-! SUPPORT. States that meet the hypotheses of the statements. -/

set_option Elab.async false
namespace Sys2Proof.Tests
open Sys2Proof.Machine

/-- A feed block of one clip of one frame, with its catalogue in the first slot of context 0's flash window. -/
def feedBlock : List Byte :=
  blob 128 [(8, 8, 1), (24, 2, 1), (32, 2, 1), (34, 2, 1), (36, 2, 1), (38, 2, 1), (48, 8, 2 * 2 ^ 43), (56, 8, 0x100000),
    (64, 4, 2), (68, 4, 1), (72, 8, 0x400000), (80, 4, 64), (84, 1, 1), (85, 1, 1), (88, 8, 0x300000), (96, 4, 16384), (100,
        4, 192)]

/-- `flashed` with a fence table for context 0. -/
def fenced : State := sets [(ctxFenceBaseBase 0, 0x80000)] flashed

/-- The feed in a state, with clips, on decode engine 31. -/
def aFeed (st : Nat) (clips : List Clip) : Feed :=
  { Feed.idle with state := st, run := 1, engines := [31], block := feedBlock, clips := clips, given := clips.length,
                   cached := [(31, 0)] }

def feedDesc (op : Nat) (l : List (Nat × Nat × Nat)) : List Byte := desc 9 op 1 l
def feedStart : List Byte := feedDesc 0 [(32, 1, 3), (36, 4, 2 ^ 31), (40, 8, 0x1000)]

/-- A state with feed 3 and holders of engines. -/
def feedState (f : Feed) (claims : List (Nat × Nat)) (d : List Byte) : State :=
  let s := runs (aRun d) (place 0x1000 feedBlock fenced)
  { s with media := { s.media with feeds := [(3, f)], claims := claims } }

def permDesc : List Byte := feedDesc 3 [(40, 8, 2 ^ 40), (56, 8, 0x2000), (64, 8, 2 ^ 40 - 1), (72, 4, 1)]

/-- States that meet the hypotheses of `Obligations.FeedItemsEnd`, one for each clause. -/
theorem witness_FeedItemsEnd :
    (∃ (s s0 s1 : State) (run item n a : Nat) (r : Run) (e : ItemEnv) (engines : List Nat) (b : List Byte),
        s.itemReady 9 0 run item = some r ∧
      s0 = s.beginItem run item ∧
      e = r.env s item ∧
      leAt r.desc.bytes 33 3 = 0 ∧
      leAt r.desc.bytes 48 80 = 0 ∧
      n = leAt r.desc.bytes 32 1 ∧
      n < 4 ∧
      hdrItems r.desc.bytes = 0 ∧
      engines = maskEngines (leAt r.desc.bytes 36 4) ∧
      itemStage.Gives e s0 0 s0 ∧
      a = leAt r.desc.bytes 40 8 ∧
      a % 64 = 0 ∧
      s.ownMem a 128 = true ∧
      (load a 128).Gives e s0 b s1 ∧
      (s.feed n).state = 0 ∧
      engines ≠ [] ∧
      s.feedOk b r.ctx engines.length = true ∧
      (∀ x ∈ s.media.feeds, x.1 ≠ n → ∀ v ∈ x.2.engines, v ∉ engines)) ∧
    (∃ (s w u : State) (n : Nat) (f : Feed) (c : FeedCfg) (src : ErrSource), f = s.feed n ∧
      f.state = 1 ∧
      w = s.claimFor n f.engines ∧
      c = feedCfg f.block ∧
      src = { source := 4, ctx := f.ctx, ring := 0, desc := 0, item := f.item, requester := s.member } ∧
      (u = (f.engines.zipIdx.foldl (fun (u : State) (_, i) => u.initRegion (c.work + i * c.region) c.bufs c.bufBytes)
          ((w.putFence f.ctx c.fenceDone 0 src).putFence f.ctx c.fenceRet 0 src)).setFeed n { f with state := 2 }) ∧
      w.feedHolds n f.engines = false) ∧
    (∃ (s w u : State) (n : Nat) (f : Feed) (c : FeedCfg) (src : ErrSource), f = s.feed n ∧
      f.state = 1 ∧
      w = s.claimFor n f.engines ∧
      c = feedCfg f.block ∧
      src = { source := 4, ctx := f.ctx, ring := 0, desc := 0, item := f.item, requester := s.member } ∧
      (u = (f.engines.zipIdx.foldl (fun (u : State) (_, i) => u.initRegion (c.work + i * c.region) c.bufs c.bufBytes)
          ((w.putFence f.ctx c.fenceDone 0 src).putFence f.ctx c.fenceRet 0 src)).setFeed n { f with state := 2 }) ∧
      w.feedHolds n f.engines = true ∧
      s.itemOpen f.run f.item = true ∧
      s.waitsAck f.run f.item = false ∧
      (∀ q, s.findRun f.run = some q → hdrClass q.desc.bytes = 9)) ∧
    (∃ (s s0 : State) (run item n : Nat) (r : Run), s.itemReady 9 1 run item = some r ∧
      s0 = s.beginItem run item ∧
      leAt r.desc.bytes 33 95 = 0 ∧
      n = leAt r.desc.bytes 32 1 ∧
      n < 4 ∧
      hdrItems r.desc.bytes = 0 ∧
      s.waitsAck run item = false ∧
      2 ≤ (s.feed n).state) ∧
    (∃ (s s0 : State) (run item n : Nat) (r : Run), s.itemReady 9 1 run item = some r ∧
      s0 = s.beginItem run item ∧
      leAt r.desc.bytes 33 95 = 0 ∧
      n = leAt r.desc.bytes 32 1 ∧
      n < 4 ∧
      hdrItems r.desc.bytes = 0 ∧
      s.waitsAck run item = false ∧
      (s.feed n).state = 0 ∧
      (s.feed n).gone = true) ∧
    (∃ (s : State) (run item seed n epoch dest first count : Nat) (r : Run) (l : List (Nat × Nat)),
        s.itemReady 9 3 run item = some r ∧
      s.waitsAck run item = false ∧
      leAt r.desc.bytes 52 4 = 0 ∧
      leAt r.desc.bytes 76 52 = 0 ∧
      seed = leAt r.desc.bytes 32 8 ∧
      n = leAt r.desc.bytes 40 8 ∧
      epoch = leAt r.desc.bytes 48 4 ∧
      dest = leAt r.desc.bytes 56 8 ∧
      first = leAt r.desc.bytes 64 8 ∧
      count = leAt r.desc.bytes 72 4 ∧
      1 ≤ n ∧
      n ≤ 2 ^ 40 ∧
      1 ≤ count ∧
      count ≤ 65536 ∧
      first + item * count + count ≤ n ∧
      s.WritableHere (dest + 8 * (item * count)) (8 * count) ∧
      (l = (List.range count).map (fun j => sigma seed epoch n (first + item * count + j)))) ∧
    (∃ (s : State) (run item n a : Nat) (r : Run), s.itemReady 9 2 run item = some r ∧
      s.waitsAck run item = false ∧
      leAt r.desc.bytes 33 7 = 0 ∧
      leAt r.desc.bytes 48 80 = 0 ∧
      n = leAt r.desc.bytes 32 1 ∧
      n < 4 ∧
      hdrItems r.desc.bytes = 0 ∧
      a = leAt r.desc.bytes 40 8 ∧
      a % 64 = 0 ∧
      s.WritableHere a 64) :=
  ⟨(by
    have H : ((fun (s : State) (run : Nat) (item : Nat) (r : Run) => decide (s.itemReady 9 0 run item = some r) &&
        ((fun (s0 : State) => (fun (e : ItemEnv) => decide (leAt r.desc.bytes 33 3 = 0) &&
        (decide (leAt r.desc.bytes 48 80 = 0) && ((fun (n : Nat) => decide (n < 4) && (decide (hdrItems r.desc.bytes = 0) &&
        ((fun (engines : List Nat) => givesLit 0 (ItemM.on itemStage e s0) s0 && ((fun (a : Nat) => decide (a % 64 = 0) &&
        (decide (s.ownMem a 128 = true) && (onOk (ItemM.on (load a 128) e s0) fun (b : List Byte) (s1 : State) =>
        decide ((s.feed n).state = 0) && (decide (engines ≠ []) && (decide (s.feedOk b r.ctx engines.length = true) &&
        (decide ((∀ x ∈ s.media.feeds, x.1 ≠ n → ∀ v ∈ x.2.engines, v ∉ engines)) &&
        (true))))))) (leAt r.desc.bytes 40 8))) (maskEngines (leAt r.desc.bytes 36 4))))) (leAt r.desc.bytes 32 1)))) (r.env s
        item)) (s.beginItem run item))) (runs (aRun feedStart) (place 0x1000 feedBlock fenced)) (1) (0) (aRun feedStart)) = true
        := by decide +kernel
    obtain ⟨h0, H⟩ := and_of H
    obtain ⟨h3, H⟩ := and_of H
    obtain ⟨h4, H⟩ := and_of H
    obtain ⟨h6, H⟩ := and_of H
    obtain ⟨h7, H⟩ := and_of H
    obtain ⟨h9, H⟩ := and_lit H
    obtain ⟨h11, H⟩ := and_of H
    obtain ⟨h12, H⟩ := and_of H
    obtain ⟨b, s1, h13, H⟩ := of_ok H
    obtain ⟨h14, H⟩ := and_of H
    obtain ⟨h15, H⟩ := and_of H
    obtain ⟨h16, H⟩ := and_of H
    obtain ⟨h17, H⟩ := and_of H
    exact ⟨(runs (aRun feedStart) (place 0x1000 feedBlock fenced)), _, _, 1, 0, _, _, (aRun feedStart), _, _, _, h0, rfl, rfl,
        h3, h4, rfl, h6, h7, rfl, h9, rfl, h11, h12, h13, h14, h15, h16, h17⟩),
   (by
    have H : ((fun (s : State) (n : Nat) => (fun (f : Feed) => decide (f.state = 1) && ((fun (w : State) =>
        (fun (c : FeedCfg) => (fun (src : ErrSource) => (fun (u : State) => decide (w.feedHolds n f.engines = false) &&
        (true)) ((f.engines.zipIdx.foldl (fun (u : State) (_, i) => u.initRegion (c.work + i * c.region) c.bufs c.bufBytes)
        ((w.putFence f.ctx c.fenceDone 0 src).putFence f.ctx c.fenceRet 0 src)).setFeed n { f with state := 2 }))
        ({ source := 4, ctx := f.ctx, ring := 0, desc := 0, item := f.item, requester := s.member })) (feedCfg f.block))
        (s.claimFor n f.engines))) (s.feed n)) (feedState (aFeed 1 []) [(31, 5)] feedStart) (3)) = true := by decide +kernel
    obtain ⟨h1, H⟩ := and_of H
    obtain ⟨h6, H⟩ := and_of H
    exact ⟨(feedState (aFeed 1 []) [(31, 5)] feedStart), _, _, 3, _, _, _, rfl, h1, rfl, rfl, rfl, rfl, h6⟩),
   (by
    have H : ((fun (s : State) (n : Nat) => (fun (f : Feed) => decide (f.state = 1) && ((fun (w : State) =>
        (fun (c : FeedCfg) => (fun (src : ErrSource) => (fun (u : State) => decide (w.feedHolds n f.engines = true) &&
        (decide (s.itemOpen f.run f.item = true) && (decide (s.waitsAck f.run f.item = false) &&
        (decide ((s.findRun f.run).all (fun q => decide (hdrClass q.desc.bytes = 9)) = true) &&
        (true))))) ((f.engines.zipIdx.foldl (fun (u : State) (_, i) => u.initRegion (c.work + i * c.region) c.bufs c.bufBytes)
        ((w.putFence f.ctx c.fenceDone 0 src).putFence f.ctx c.fenceRet 0 src)).setFeed n { f with state := 2 }))
        ({ source := 4, ctx := f.ctx, ring := 0, desc := 0, item := f.item, requester := s.member })) (feedCfg f.block))
        (s.claimFor n f.engines))) (s.feed n)) (feedState (aFeed 1 []) [] feedStart) (3)) = true := by decide +kernel
    obtain ⟨h1, H⟩ := and_of H
    obtain ⟨h6, H⟩ := and_of H
    obtain ⟨h7, H⟩ := and_of H
    obtain ⟨h8, H⟩ := and_of H
    obtain ⟨h9, H⟩ := and_of H
    exact ⟨(feedState (aFeed 1 []) [] feedStart), _, _, 3, _, _, _, rfl, h1, rfl, rfl, rfl, rfl, h6, h7, h8, (forall_some h9)⟩),
   (by
    have H : ((fun (s : State) (run : Nat) (item : Nat) (r : Run) => decide (s.itemReady 9 1 run item = some r) &&
        ((fun (s0 : State) => decide (leAt r.desc.bytes 33 95 = 0) && ((fun (n : Nat) => decide (n < 4) &&
        (decide (hdrItems r.desc.bytes = 0) && (decide (s.waitsAck run item = false) && (decide (2 ≤ (s.feed n).state) &&
        (true))))) (leAt r.desc.bytes 32 1))) (s.beginItem run item))) (feedState (aFeed 2 []) [(31,
        2 ^ 32 + 3)] (feedDesc 1 [(32, 1, 3)])) (1) (0) (aRun (feedDesc 1 [(32, 1, 3)]))) = true := by decide +kernel
    obtain ⟨h0, H⟩ := and_of H
    obtain ⟨h2, H⟩ := and_of H
    obtain ⟨h4, H⟩ := and_of H
    obtain ⟨h5, H⟩ := and_of H
    obtain ⟨h6, H⟩ := and_of H
    obtain ⟨h7, H⟩ := and_of H
    exact ⟨(feedState (aFeed 2 []) [(31, 2 ^ 32 + 3)] (feedDesc 1 [(32, 1, 3)])), _, 1, 0, _, (aRun (feedDesc 1 [(32, 1,
        3)])), h0, rfl, h2, rfl, h4, h5, h6, h7⟩),
   (by
    have H : ((fun (s : State) (run : Nat) (item : Nat) (r : Run) => decide (s.itemReady 9 1 run item = some r) &&
        ((fun (s0 : State) => decide (leAt r.desc.bytes 33 95 = 0) && ((fun (n : Nat) => decide (n < 4) &&
        (decide (hdrItems r.desc.bytes = 0) && (decide (s.waitsAck run item = false) && (decide ((s.feed n).state = 0) &&
        (decide ((s.feed n).gone = true) && (true)))))) (leAt r.desc.bytes 32 1))) (s.beginItem run item))) (feedState
        { Feed.idle with gone := true } [] (feedDesc 1 [(32, 1, 3)])) (1) (0) (aRun (feedDesc 1 [(32, 1, 3)]))) = true :=
        by decide +kernel
    obtain ⟨h0, H⟩ := and_of H
    obtain ⟨h2, H⟩ := and_of H
    obtain ⟨h4, H⟩ := and_of H
    obtain ⟨h5, H⟩ := and_of H
    obtain ⟨h6, H⟩ := and_of H
    obtain ⟨h7, H⟩ := and_of H
    obtain ⟨h8, H⟩ := and_of H
    exact ⟨(feedState { Feed.idle with gone := true } [] (feedDesc 1 [(32, 1, 3)])), _, 1, 0, _, (aRun (feedDesc 1 [(32, 1,
        3)])), h0, rfl, h2, rfl, h4, h5, h6, h7, h8⟩),
   (by
    have H : ((fun (s : State) (run : Nat) (item : Nat) (r : Run) => decide (s.itemReady 9 3 run item = some r) &&
        (decide (s.waitsAck run item = false) && (decide (leAt r.desc.bytes 52 4 = 0) && (decide (leAt r.desc.bytes 76 52 = 0) &&
        ((fun (seed : Nat) => (fun (n : Nat) => (fun (epoch : Nat) => (fun (dest : Nat) => (fun (first : Nat) =>
        (fun (count : Nat) => decide (1 ≤ n) && (decide (n ≤ 2 ^ 40) && (decide (1 ≤ count) && (decide (count ≤ 65536) &&
        (decide (first + item * count + count ≤ n) && (decide (writableB s (dest + 8 * (item * count)) (8 * count) = true) &&
        ((fun (l : List (Nat × Nat)) => true) ((List.range count).map (fun j => sigma seed epoch n (first + item * count +
        j)))))))))) (leAt r.desc.bytes 72 4)) (leAt r.desc.bytes 64 8)) (leAt r.desc.bytes 56 8)) (leAt r.desc.bytes 48 4)) (leAt
        r.desc.bytes 40 8)) (leAt r.desc.bytes 32 8)))))) (runs (aRun permDesc) device) (1) (0) (aRun permDesc)) = true :=
        by decide +kernel
    obtain ⟨h0, H⟩ := and_of H
    obtain ⟨h1, H⟩ := and_of H
    obtain ⟨h2, H⟩ := and_of H
    obtain ⟨h3, H⟩ := and_of H
    obtain ⟨h10, H⟩ := and_of H
    obtain ⟨h11, H⟩ := and_of H
    obtain ⟨h12, H⟩ := and_of H
    obtain ⟨h13, H⟩ := and_of H
    obtain ⟨h14, H⟩ := and_of H
    obtain ⟨h15, H⟩ := and_of H
    exact ⟨(runs (aRun permDesc) device), 1, 0, _, _, _, _, _, _, (aRun permDesc), _, h0, h1, h2, h3, rfl, rfl, rfl, rfl, rfl,
        rfl, h10, h11, h12, h13, h14, (writable_of h15), rfl⟩),
   (by
    have H : ((fun (s : State) (run : Nat) (item : Nat) (r : Run) => decide (s.itemReady 9 2 run item = some r) &&
        (decide (s.waitsAck run item = false) && (decide (leAt r.desc.bytes 33 7 = 0) && (decide (leAt r.desc.bytes 48 80 = 0) &&
        ((fun (n : Nat) => decide (n < 4) && (decide (hdrItems r.desc.bytes = 0) && ((fun (a : Nat) => decide (a % 64 = 0) &&
        (decide (writableB s a 64 = true) && (true))) (leAt r.desc.bytes 40 8)))) (leAt r.desc.bytes 32 1)))))) (runs (aRun
        (feedDesc 2 [(32, 1, 3), (40, 8, 0x2000)])) device) (1) (0) (aRun (feedDesc 2 [(32, 1, 3), (40, 8, 0x2000)]))) = true :=
        by decide +kernel
    obtain ⟨h0, H⟩ := and_of H
    obtain ⟨h1, H⟩ := and_of H
    obtain ⟨h2, H⟩ := and_of H
    obtain ⟨h3, H⟩ := and_of H
    obtain ⟨h5, H⟩ := and_of H
    obtain ⟨h6, H⟩ := and_of H
    obtain ⟨h8, H⟩ := and_of H
    obtain ⟨h9, H⟩ := and_of H
    exact ⟨(runs (aRun (feedDesc 2 [(32, 1, 3), (40, 8, 0x2000)])) device), 1, 0, _, _, (aRun (feedDesc 2 [(32, 1, 3), (40, 8,
        0x2000)])), h0, h1, h2, h3, rfl, h5, h6, rfl, h8, (writable_of h9)⟩)⟩

/-- The feed's first clip, on its one engine. -/
def aClip (status : Option Nat) : Clip :=
  { batch := 0, slot := 0, engine := 31, region := 0, status := status, frames := 0, damaged := 0, arrived := [] }

/-- The feed running, with the engine's copy of the catalogue. -/
def clipState (clips : List Clip) (ent : List Byte) : State := place (0x400000 + 266240) ent (feedState (aFeed 2 clips) []
    feedStart)

/-- The entry of a clip of one tile, the first of member 0's window. -/
def clipEnt : List Byte := blob 32 [(8, 4, 1), (13, 1, 1)]

theorem clipEntry_cached {ent : List Byte} {s : State} {n : Nat} {f : Feed} {k : Clip}
    (h : cellFind k.engine f.cached = some (32 * f.index k / 65536)) (hc : clean s = true)
    (he : s.devRead (addrKey (f.base k) + 266240 + 32 * f.index k % 65536) 32 = ent) : s.clipEntry n f k = (s, .bytes ent) := by
  simp only [State.clipEntry, h, if_true, clean_readMem hc, he]

theorem clipTiles_own {s : State} {n a len : Nat} {f : Feed} {k : Clip} {tiles : List Nat} (h : s.isOwn (addrMember a) = true)
    (ht : s.flashRange f.ctx (addrOff a) len = some tiles) (hb : tiles.all (fun t => (s.tileBad t).isEmpty) = true)
    (hf : (!s.flag flashStatusReady || s.flash.failing) = false) :
    s.clipTiles n f k a len = (tiles.foldl State.flashCount s, .bytes (s.flashBytes tiles)) := by
  simp only [State.clipTiles, h, ht, hb, hf, if_true]
  rfl

/-- States that meet the hypotheses of `Obligations.ClipsAssignedAndDelivered`, one for each clause. -/
theorem witness_ClipsAssignedAndDelivered :
    (∃ (s : State) (n : Nat) (v : Nat) (f : Feed) (f' : Feed) (c : FeedCfg) (k : Clip), f = s.feed n ∧
      c = feedCfg f.block ∧
      f.state = 2 ∧
      s.batchFree f (f.given / c.batch) = true ∧
      (f.engines.find? (fun x => s.feedEngineIdle f x) = some v) ∧
      k = { batch := f.given / c.batch, slot := f.given % c.batch, engine := v, region := f.freeRegion, status := none, frames := 0, damaged := 0, arrived := [] } ∧
      f' = { f with given := f.given + 1, clips := f.clips ++ [k] }) ∧
    (∃ (s w : State) (n clip : Nat) (f : Feed) (k : Clip) (ent : List Byte), f = s.feed n ∧
      f.state = 2 ∧
      (f.clips.find? (fun k => k.batch * (feedCfg f.block).batch + k.slot == clip && k.status.isNone) = some k) ∧
      s.devBad (addrKey (f.base k)) 266240 = false ∧
      s.clipEntry n f k = (w, .bytes ent) ∧
      entryStatus ent (feedCfg f.block).maxTiles ≠ 0) ∧
    (∃ (s w : State) (n clip : Nat) (f : Feed) (k : Clip) (ent : List Byte), f = s.feed n ∧
      f.state = 2 ∧
      (f.clips.find? (fun k => k.batch * (feedCfg f.block).batch + k.slot == clip && k.status.isNone) = some k) ∧
      s.devBad (addrKey (f.base k)) 266240 = false ∧
      s.clipEntry n f k = (w, .bytes ent) ∧
      ∃ (x : State) (b : List Byte), entryStatus ent (feedCfg f.block).maxTiles = 0 ∧
      w.clipTiles n f k (mkAddr (leAt ent 4 2) (2 * 2 ^ 43 + 65536 * leAt ent 0 4)) (65536 * leAt ent 8 4) = (x, .bytes b)) ∧
    (∃ (s : State) (n good : Nat) (f : Feed) (c : FeedCfg) (l : List Clip), f = s.feed n ∧
      c = feedCfg f.block ∧
      2 ≤ f.state ∧
      s.devShut (addrKey c.hand + f.delivered % c.slots * c.handStride) = false ∧
      (l = (List.range c.batch).filterMap (fun j => f.clips.find? fun k => k.batch == f.delivered && k.slot == j &&
          k.status.isSome)) ∧
      l.length = c.batch ∧
      (good = (l.filter fun k => decide (k.status.getD 0 < 0x10)).length)) :=
  ⟨(by
    have H : ((fun (s : State) (n : Nat) => (fun (f : Feed) => (fun (c : FeedCfg) => decide (f.state = 2) &&
        (decide (s.batchFree f (f.given / c.batch) = true) && (onSome (f.engines.find? (fun x => s.feedEngineIdle f x))
        fun (v : Nat) => (fun (k : Clip) => (fun (f' : Feed) => true) ({ f with given := f.given + 1, clips := f.clips ++ [k] }))
        ({ batch := f.given / c.batch, slot := f.given % c.batch, engine := v, region := f.freeRegion, status := none, frames := 0, damaged := 0, arrived := [] })))) (feedCfg f.block)) (s.feed n)) (feedState (aFeed 2 []) [] feedStart) (3)) = true := by decide +kernel
    obtain ⟨h2, H⟩ := and_of H
    obtain ⟨h3, H⟩ := and_of H
    obtain ⟨v, h4, H⟩ := of_some H
    exact ⟨(feedState (aFeed 2 []) [] feedStart), 3, _, _, _, _, _, rfl, rfl, h2, h3, h4, rfl, rfl⟩),
   (by
    have H : ((fun (s : State) (w : State) (n : Nat) (clip : Nat) (f : Feed) (k : Clip) (ent : List Byte) =>
        decide (f = s.feed n) && (decide (f.state = 2) && (decide (f.clips.find? (fun k =>
        k.batch * (feedCfg f.block).batch + k.slot == clip && k.status.isNone) = some k) &&
        (decide (s.devBad (addrKey (f.base k)) 266240 = false) && (decide (entryStatus ent (feedCfg f.block).maxTiles ≠ 0) &&
        (true)))))) (clipState [aClip none] []) (clipState [aClip none] []) (3) (0) (aFeed 2 [aClip none]) (aClip none)
        (List.replicate 32 0)) = true := by decide +kernel
    obtain ⟨h0, H⟩ := and_of H
    obtain ⟨h1, H⟩ := and_of H
    obtain ⟨h2, H⟩ := and_of H
    obtain ⟨h3, H⟩ := and_of H
    obtain ⟨h5, H⟩ := and_of H
    exact ⟨(clipState [aClip none] []), (clipState [aClip none] []), 3, 0, (aFeed 2 [aClip none]), (aClip none),
        (List.replicate 32 0), h0, h1, h2, h3, (clipEntry_cached (by decide +kernel) (by decide +kernel) (by decide +kernel)),
        h5⟩),
   (by
    have H : ((fun (s : State) (w : State) (n : Nat) (clip : Nat) (f : Feed) (k : Clip) (ent : List Byte) (x : State) (b :
        List Byte) => decide (f = s.feed n) && (decide (f.state = 2) && (decide (f.clips.find? (fun k =>
        k.batch * (feedCfg f.block).batch + k.slot == clip && k.status.isNone) = some k) &&
        (decide (s.devBad (addrKey (f.base k)) 266240 = false) && (decide (entryStatus ent (feedCfg f.block).maxTiles = 0) &&
        (true)))))) (clipState [aClip none] clipEnt) (clipState [aClip none] clipEnt) (3) (0) (aFeed 2 [aClip none]) (aClip none)
        (clipEnt) ([5].foldl State.flashCount (clipState [aClip none] clipEnt)) ((clipState [aClip none] clipEnt).flashBytes [5]))
        = true := by decide +kernel
    obtain ⟨h0, H⟩ := and_of H
    obtain ⟨h1, H⟩ := and_of H
    obtain ⟨h2, H⟩ := and_of H
    obtain ⟨h3, H⟩ := and_of H
    obtain ⟨h5, H⟩ := and_of H
    exact ⟨(clipState [aClip none] clipEnt), (clipState [aClip none] clipEnt), 3, 0, (aFeed 2 [aClip none]), (aClip none),
        clipEnt, h0, h1, h2, h3, (clipEntry_cached (by decide +kernel) (by decide +kernel) (by decide +kernel)),
        ([5].foldl State.flashCount (clipState [aClip none] clipEnt)), ((clipState [aClip none] clipEnt).flashBytes [5]), h5,
        (clipTiles_own (by decide +kernel) (by decide +kernel) (by decide +kernel) (by decide +kernel))⟩),
   (by
    have H : ((fun (s : State) (n : Nat) => (fun (f : Feed) => (fun (c : FeedCfg) => decide (2 ≤ f.state) &&
        (decide (s.devShut (addrKey c.hand + f.delivered % c.slots * c.handStride) = false) && ((fun (l : List Clip) =>
        decide (l.length = c.batch) && ((fun (good : Nat) => true) ((l.filter fun k =>
        decide (k.status.getD 0 < 0x10)).length))) ((List.range c.batch).filterMap (fun j => f.clips.find? fun k =>
        k.batch == f.delivered && k.slot == j && k.status.isSome))))) (feedCfg f.block)) (s.feed n)) (feedState (aFeed 2 [aClip
        (some 0)]) [] feedStart) (3)) = true := by decide +kernel
    obtain ⟨h2, H⟩ := and_of H
    obtain ⟨h3, H⟩ := and_of H
    obtain ⟨h5, H⟩ := and_of H
    exact ⟨(feedState (aFeed 2 [aClip (some 0)]) [] feedStart), 3, _, _, _, _, rfl, rfl, h2, h3, rfl, h5, rfl⟩)⟩

end Sys2Proof.Tests
end

