-- ==== Sys2Proof/Tests/Witness08.lean ====
section
/-! SUPPORT. States that meet the hypotheses of the statements. -/

set_option Elab.async false
namespace Sys2Proof.Tests
open Sys2Proof.Machine

/-- A fabric item on the list at 0x1000, which holds one entry. -/
def fabDesc (op : Nat) (l : List (Nat × Nat × Nat)) : List Byte := desc 0xA op 1 ((32, 8, 0x1000) :: l)
def fabState (d ent : List Byte) : State := runs (aRun d) (place 0x1000 ent routed)
def copyEntry (dst : Nat) : List Byte := blob 32 [(0, 8, 0x2000), (8, 8, dst), (16, 4, 64)]

/-- `FAB_PUT` of one byte. -/
def putDesc (dst : Nat) : List Byte := desc 0xA 2 1 [(32, 8, dst), (40, 1, 1), (48, 1, 7)]

/-- States that meet the hypotheses of `Obligations.FabricTransfersEnd`, one for each clause. -/
theorem witness_FabricTransfersEnd :
    (∃ (s w s0 : State) (run item now : Nat) (r : Run) (e : ItemEnv) (d : List Byte), w = s.tick now ∧
      s0 = w.beginItem run item ∧
      e = r.env w item ∧
      d = r.desc.bytes ∧
      w.fabTurn run item = true ∧
      w.detached = false ∧
      ∃ (b : List Byte) (src dst len st : Nat) (s1 s2 : State), w.itemReady 0xA 0 run item = some r ∧
      leAt d 40 88 = 0 ∧
      leAt d 32 8 % 32 = 0 ∧
      fabEntry.Gives e s0 b s1 ∧
      src = leAt b 0 8 ∧
      dst = leAt b 8 8 ∧
      len = leAt b 16 4 ∧
      regTier src = false ∧
      regTier dst = false ∧
      64 ≤ len ∧
      len ≤ 2 ^ 30 ∧
      len % 64 = 0 ∧
      zeroAt b 20 12 = true ∧
      s1.placesMeet len (globPlace src) (globPlace dst) = false ∧
      itemStage.Gives e s1 st s1 ∧
      st ≠ 3 ∧
      s2 = s1.afterRead (r.env w item) src len ∧
      src % 64 = 0 ∧
      dst % 64 = 0 ∧
      s1.ReadableHere src len ∧
      s1.WritableHere dst len ∧
      s2.WritableHere dst len ∧
      s2.CanEnd run item r) ∧
    (∃ (s w s0 : State) (run item now : Nat) (r : Run) (e : ItemEnv) (d : List Byte), w = s.tick now ∧
      s0 = w.beginItem run item ∧
      e = r.env w item ∧
      d = r.desc.bytes ∧
      w.fabTurn run item = true ∧
      w.detached = false ∧
      ∃ (b : List Byte) (src dst len st : Nat) (s1 s2 : State), w.itemReady 0xA 0 run item = some r ∧
      leAt d 40 88 = 0 ∧
      leAt d 32 8 % 32 = 0 ∧
      fabEntry.Gives e s0 b s1 ∧
      src = leAt b 0 8 ∧
      dst = leAt b 8 8 ∧
      len = leAt b 16 4 ∧
      regTier src = false ∧
      regTier dst = false ∧
      64 ≤ len ∧
      len ≤ 2 ^ 30 ∧
      len % 64 = 0 ∧
      zeroAt b 20 12 = true ∧
      s1.placesMeet len (globPlace src) (globPlace dst) = false ∧
      itemStage.Gives e s1 st s1 ∧
      st ≠ 3 ∧
      s2 = s1.afterRead (r.env w item) src len ∧
      ∃ c u, (placesCheck (globPlace src) (globPlace dst) len).Gives e s1 () s1 ∧
      (copyRange (globPlace src) (globPlace dst) len).Gives e s1 c u ∧
      c.status < 16 ∧
      u.CanEnd run item r) ∧
    (∃ (s w s0 : State) (run item now : Nat) (r : Run) (e : ItemEnv) (d : List Byte), w = s.tick now ∧
      s0 = w.beginItem run item ∧
      e = r.env w item ∧
      d = r.desc.bytes ∧
      w.fabTurn run item = true ∧
      w.detached = false ∧
      ∃ (b : List Byte) (src dst len st : Nat) (s1 s2 : State), w.itemReady 0xA 0 run item = some r ∧
      leAt d 40 88 = 0 ∧
      leAt d 32 8 % 32 = 0 ∧
      fabEntry.Gives e s0 b s1 ∧
      src = leAt b 0 8 ∧
      dst = leAt b 8 8 ∧
      len = leAt b 16 4 ∧
      regTier src = false ∧
      regTier dst = false ∧
      64 ≤ len ∧
      len ≤ 2 ^ 30 ∧
      len % 64 = 0 ∧
      zeroAt b 20 12 = true ∧
      s1.placesMeet len (globPlace src) (globPlace dst) = false ∧
      itemStage.Gives e s1 st s1 ∧
      st ≠ 3 ∧
      s2 = s1.afterRead (r.env w item) src len ∧
      ∃ c u, (placesCheck (globPlace src) (globPlace dst) len).Gives e s1 () s1 ∧
      (copyRange (globPlace src) (globPlace dst) len).Gives e s1 c u ∧
      c.status < 16 ∧
      u.itemOpen run item = true ∧
      u.waitsAck run item = true) ∧
    (∃ (s w s0 : State) (run item now : Nat) (r : Run) (e : ItemEnv) (d : List Byte), w = s.tick now ∧
      s0 = w.beginItem run item ∧
      e = r.env w item ∧
      d = r.desc.bytes ∧
      w.fabTurn run item = true ∧
      w.detached = false ∧
      ∃ (b : List Byte) (op a n res st : Nat) (s1 : State), w.itemReady 0xA 1 run item = some r ∧
      leAt d 41 87 = 0 ∧
      op = leAt d 40 1 ∧
      op < 4 ∧
      itemStage.Gives e s0 st s0 ∧
      st ≠ 1 ∧
      fabEntry.Gives e s0 b s1 ∧
      a = leAt b 0 8 ∧
      n = atomicSize op ∧
      res = leAt d 32 8 + 32 * item + 24 ∧
      regTier a = false ∧
      a % n = 0 ∧
      addrBad a n = false ∧
      (checkWrite res 8).Gives e s1 () s1 ∧
      ∃ u, s1.isOwn (addrMember a) = true ∧
      s1.populated (addrTier a) (addrOff a) n = true ∧
      s1.devShut (addrKey a) = false ∧
      s1.devBad (addrKey a) n = false ∧
      (storeAt res (leBytes 8 (s1.atomic r.ctx (addrKey a) op (leAt b 8 8) (leAt b 16 8)).2)).Gives e (s1.atomic r.ctx
          (addrKey a) op (leAt b 8 8) (leAt b 16 8)).1 () u ∧
      u.CanEnd run item r) ∧
    (∃ (s w s0 : State) (run item now : Nat) (r : Run) (e : ItemEnv) (d : List Byte), w = s.tick now ∧
      s0 = w.beginItem run item ∧
      e = r.env w item ∧
      d = r.desc.bytes ∧
      w.fabTurn run item = true ∧
      w.detached = false ∧
      ∃ (b : List Byte) (op a n res st : Nat) (s1 : State), w.itemReady 0xA 1 run item = some r ∧
      leAt d 41 87 = 0 ∧
      op = leAt d 40 1 ∧
      op < 4 ∧
      itemStage.Gives e s0 st s0 ∧
      st ≠ 1 ∧
      fabEntry.Gives e s0 b s1 ∧
      a = leAt b 0 8 ∧
      n = atomicSize op ∧
      res = leAt d 32 8 + 32 * item + 24 ∧
      regTier a = false ∧
      a % n = 0 ∧
      addrBad a n = false ∧
      (checkWrite res 8).Gives e s1 () s1 ∧
      ∃ (x : State), s1.isOwn (addrMember a) = false ∧
      (remoteOk (addrMember a) 1 true).Gives e s1 () s1 ∧
      s1.sendRequest (s1.request ptAtomic r.ctx a 24 (leBytes 8 op ++ leBytes 8 (leAt b 8 8) ++ leBytes 8 (leAt b 16 8)))
          false (.atomic r.id item res) none = some x) ∧
    (∃ (s w s0 : State) (run item now : Nat) (r : Run) (e : ItemEnv) (d : List Byte), w = s.tick now ∧
      s0 = w.beginItem run item ∧
      e = r.env w item ∧
      d = r.desc.bytes ∧
      w.fabTurn run item = true ∧
      w.detached = false ∧
      ∃ (a n : Nat) (s1 u : State), w.itemReady 0xA 2 run item = some r ∧
      leAt d 41 7 = 0 ∧
      leAt d 112 16 = 0 ∧
      hdrItems d = 0 ∧
      a = leAt d 32 8 ∧
      n = leAt d 40 1 ∧
      1 ≤ n ∧
      n ≤ 64 ∧
      (store a (((payloadOf d).drop 16).take n)).Gives e s0 () s1 ∧
      u = (if s1.isOwn (addrMember a) && s1.inFenceTable (addrKey a) then s1.wakeDimmed else s1) ∧
      u.CanEnd run item r) ∧
    (∃ (s w s0 : State) (run item now : Nat) (r : Run) (e : ItemEnv) (d : List Byte), w = s.tick now ∧
      s0 = w.beginItem run item ∧
      e = r.env w item ∧
      d = r.desc.bytes ∧
      w.fabTurn run item = true ∧
      w.detached = false ∧
      ∃ (a n : Nat) (s1 u : State), w.itemReady 0xA 2 run item = some r ∧
      leAt d 41 7 = 0 ∧
      leAt d 112 16 = 0 ∧
      hdrItems d = 0 ∧
      a = leAt d 32 8 ∧
      n = leAt d 40 1 ∧
      1 ≤ n ∧
      n ≤ 64 ∧
      (store a (((payloadOf d).drop 16).take n)).Gives e s0 () s1 ∧
      u = (if s1.isOwn (addrMember a) && s1.inFenceTable (addrKey a) then s1.wakeDimmed else s1) ∧
      u.itemOpen run item = true ∧
      u.waitsAck run item = true) :=
  ⟨(by
    have H : ((fun (s : State) (run : Nat) (item : Nat) (now : Nat) (r : Run) => (fun (w : State) => (fun (s0 : State) =>
        (fun (e : ItemEnv) => (fun (d : List Byte) => decide (w.fabTurn run item = true) && (decide (w.detached = false) &&
        (decide (w.itemReady 0xA 0 run item = some r) && (decide (leAt d 40 88 = 0) && (decide (leAt d 32 8 % 32 = 0) &&
        (onOk (ItemM.on fabEntry e s0) fun (b : List Byte) (s1 : State) => (fun (src : Nat) => (fun (dst : Nat) =>
        (fun (len : Nat) => decide (regTier src = false) && (decide (regTier dst = false) && (decide (64 ≤ len) &&
        (decide (len ≤ 2 ^ 30) && (decide (len % 64 = 0) && (decide (zeroAt b 20 12 = true) &&
        (decide (s1.placesMeet len (globPlace src) (globPlace dst) = false) && (onOkSame (ItemM.on itemStage e s1) s1
        fun (st : Nat) => decide (st ≠ 3) && ((fun (s2 : State) => decide (src % 64 = 0) && (decide (dst % 64 = 0) &&
        (decide (readableB s1 src len = true) && (decide (writableB s1 dst len = true) && (decide (writableB s2 dst len = true) &&
        (decide (canEnd s2 run item r = true) && (true))))))) (s1.afterRead (r.env w item) src len)))))))))) (leAt b 16 4)) (leAt
        b 8 8)) (leAt b 0 8))))))) (r.desc.bytes)) (r.env w item)) (w.beginItem run item)) (s.tick now)) (fabState (fabDesc 0 [])
        (copyEntry 0x3000)) (1) (0) (0) (aRun (fabDesc 0 []))) = true := by decide +kernel
    obtain ⟨h4, H⟩ := and_of H
    obtain ⟨h5, H⟩ := and_of H
    obtain ⟨h6, H⟩ := and_of H
    obtain ⟨h7, H⟩ := and_of H
    obtain ⟨h8, H⟩ := and_of H
    obtain ⟨b, s1, h9, H⟩ := of_ok H
    obtain ⟨h13, H⟩ := and_of H
    obtain ⟨h14, H⟩ := and_of H
    obtain ⟨h15, H⟩ := and_of H
    obtain ⟨h16, H⟩ := and_of H
    obtain ⟨h17, H⟩ := and_of H
    obtain ⟨h18, H⟩ := and_of H
    obtain ⟨h19, H⟩ := and_of H
    obtain ⟨st, h20, H⟩ := of_okSame H
    obtain ⟨h21, H⟩ := and_of H
    obtain ⟨h23, H⟩ := and_of H
    obtain ⟨h24, H⟩ := and_of H
    obtain ⟨h25, H⟩ := and_of H
    obtain ⟨h26, H⟩ := and_of H
    obtain ⟨h27, H⟩ := and_of H
    obtain ⟨h28, H⟩ := and_of H
    exact ⟨(fabState (fabDesc 0 []) (copyEntry 0x3000)), _, _, 1, 0, 0, (aRun (fabDesc 0 [])), _, _, rfl, rfl, rfl, rfl, h4,
        h5, _, _, _, _, _, _, _, h6, h7, h8, h9, rfl, rfl, rfl, h13, h14, h15, h16, h17, h18, h19, h20, h21, rfl, h23, h24,
        (readable_of h25), (writable_of h26), (writable_of h27), (canEnd_of h28)⟩),
   (by
    have H : ((fun (s : State) (run : Nat) (item : Nat) (now : Nat) (r : Run) => (fun (w : State) => (fun (s0 : State) =>
        (fun (e : ItemEnv) => (fun (d : List Byte) => decide (w.fabTurn run item = true) && (decide (w.detached = false) &&
        (decide (w.itemReady 0xA 0 run item = some r) && (decide (leAt d 40 88 = 0) && (decide (leAt d 32 8 % 32 = 0) &&
        (onOk (ItemM.on fabEntry e s0) fun (b : List Byte) (s1 : State) => (fun (src : Nat) => (fun (dst : Nat) =>
        (fun (len : Nat) => decide (regTier src = false) && (decide (regTier dst = false) && (decide (64 ≤ len) &&
        (decide (len ≤ 2 ^ 30) && (decide (len % 64 = 0) && (decide (zeroAt b 20 12 = true) &&
        (decide (s1.placesMeet len (globPlace src) (globPlace dst) = false) && (onOkSame (ItemM.on itemStage e s1) s1
        fun (st : Nat) => decide (st ≠ 3) && ((fun (s2 : State) => givesLit () (ItemM.on (placesCheck (globPlace src) (globPlace
        dst) len) e s1) s1 && (onOk (ItemM.on (copyRange (globPlace src) (globPlace dst) len) e s1) fun c u =>
        decide (c.status < 16) && (decide (canEnd u run item r = true) && (true)))) (s1.afterRead (r.env w item) src len))))))))))
        (leAt b 16 4)) (leAt b 8 8)) (leAt b 0 8))))))) (r.desc.bytes)) (r.env w item)) (w.beginItem run item)) (s.tick now))
        (fabState (fabDesc 0 []) (copyEntry 0x3000)) (1) (0) (0) (aRun (fabDesc 0 []))) = true := by decide +kernel
    obtain ⟨h4, H⟩ := and_of H
    obtain ⟨h5, H⟩ := and_of H
    obtain ⟨h6, H⟩ := and_of H
    obtain ⟨h7, H⟩ := and_of H
    obtain ⟨h8, H⟩ := and_of H
    obtain ⟨b, s1, h9, H⟩ := of_ok H
    obtain ⟨h13, H⟩ := and_of H
    obtain ⟨h14, H⟩ := and_of H
    obtain ⟨h15, H⟩ := and_of H
    obtain ⟨h16, H⟩ := and_of H
    obtain ⟨h17, H⟩ := and_of H
    obtain ⟨h18, H⟩ := and_of H
    obtain ⟨h19, H⟩ := and_of H
    obtain ⟨st, h20, H⟩ := of_okSame H
    obtain ⟨h21, H⟩ := and_of H
    obtain ⟨h23, H⟩ := and_lit H
    obtain ⟨c, u, h24, H⟩ := of_ok H
    obtain ⟨h25, H⟩ := and_of H
    obtain ⟨h26, H⟩ := and_of H
    exact ⟨(fabState (fabDesc 0 []) (copyEntry 0x3000)), _, _, 1, 0, 0, (aRun (fabDesc 0 [])), _, _, rfl, rfl, rfl, rfl, h4,
        h5, _, _, _, _, _, _, _, h6, h7, h8, h9, rfl, rfl, rfl, h13, h14, h15, h16, h17, h18, h19, h20, h21, rfl, _, _, h23, h24,
        h25, (canEnd_of h26)⟩),
   (by
    have H : ((fun (s : State) (run : Nat) (item : Nat) (now : Nat) (r : Run) => (fun (w : State) => (fun (s0 : State) =>
        (fun (e : ItemEnv) => (fun (d : List Byte) => decide (w.fabTurn run item = true) && (decide (w.detached = false) &&
        (decide (w.itemReady 0xA 0 run item = some r) && (decide (leAt d 40 88 = 0) && (decide (leAt d 32 8 % 32 = 0) &&
        (onOk (ItemM.on fabEntry e s0) fun (b : List Byte) (s1 : State) => (fun (src : Nat) => (fun (dst : Nat) =>
        (fun (len : Nat) => decide (regTier src = false) && (decide (regTier dst = false) && (decide (64 ≤ len) &&
        (decide (len ≤ 2 ^ 30) && (decide (len % 64 = 0) && (decide (zeroAt b 20 12 = true) &&
        (decide (s1.placesMeet len (globPlace src) (globPlace dst) = false) && (onOkSame (ItemM.on itemStage e s1) s1
        fun (st : Nat) => decide (st ≠ 3) && ((fun (s2 : State) => givesLit () (ItemM.on (placesCheck (globPlace src) (globPlace
        dst) len) e s1) s1 && (onOk (ItemM.on (copyRange (globPlace src) (globPlace dst) len) e s1) fun c u =>
        decide (c.status < 16) && (decide (u.itemOpen run item = true) && (decide (u.waitsAck run item = true) &&
        (true))))) (s1.afterRead (r.env w item) src len)))))))))) (leAt b 16 4)) (leAt b 8 8)) (leAt b 0 8))))))) (r.desc.bytes))
        (r.env w item)) (w.beginItem run item)) (s.tick now)) (fabState (fabDesc 0 []) (copyEntry (mkAddr 7 0x3000))) (1) (0) (0)
        (aRun (fabDesc 0 []))) = true := by decide +kernel
    obtain ⟨h4, H⟩ := and_of H
    obtain ⟨h5, H⟩ := and_of H
    obtain ⟨h6, H⟩ := and_of H
    obtain ⟨h7, H⟩ := and_of H
    obtain ⟨h8, H⟩ := and_of H
    obtain ⟨b, s1, h9, H⟩ := of_ok H
    obtain ⟨h13, H⟩ := and_of H
    obtain ⟨h14, H⟩ := and_of H
    obtain ⟨h15, H⟩ := and_of H
    obtain ⟨h16, H⟩ := and_of H
    obtain ⟨h17, H⟩ := and_of H
    obtain ⟨h18, H⟩ := and_of H
    obtain ⟨h19, H⟩ := and_of H
    obtain ⟨st, h20, H⟩ := of_okSame H
    obtain ⟨h21, H⟩ := and_of H
    obtain ⟨h23, H⟩ := and_lit H
    obtain ⟨c, u, h24, H⟩ := of_ok H
    obtain ⟨h25, H⟩ := and_of H
    obtain ⟨h26, H⟩ := and_of H
    obtain ⟨h27, H⟩ := and_of H
    exact ⟨(fabState (fabDesc 0 []) (copyEntry (mkAddr 7 0x3000))), _, _, 1, 0, 0, (aRun (fabDesc 0 [])), _, _, rfl, rfl, rfl,
        rfl, h4, h5, _, _, _, _, _, _, _, h6, h7, h8, h9, rfl, rfl, rfl, h13, h14, h15, h16, h17, h18, h19, h20, h21, rfl, _, _,
        h23, h24, h25, h26, h27⟩),
   (by
    have H : ((fun (s : State) (run : Nat) (item : Nat) (now : Nat) (r : Run) => (fun (w : State) => (fun (s0 : State) =>
        (fun (e : ItemEnv) => (fun (d : List Byte) => decide (w.fabTurn run item = true) && (decide (w.detached = false) &&
        (decide (w.itemReady 0xA 1 run item = some r) && (decide (leAt d 41 87 = 0) && ((fun (op : Nat) => decide (op < 4) &&
        (onOkSame (ItemM.on itemStage e s0) s0 fun (st : Nat) => decide (st ≠ 1) && (onOk (ItemM.on fabEntry e s0)
        fun (b : List Byte) (s1 : State) => (fun (a : Nat) => (fun (n : Nat) => (fun (res : Nat) => decide (regTier a = false) &&
        (decide (a % n = 0) && (decide (addrBad a n = false) && (givesLit () (ItemM.on (checkWrite res 8) e s1) s1 &&
        (decide (s1.isOwn (addrMember a) = true) && (decide (s1.populated (addrTier a) (addrOff a) n = true) &&
        (decide (s1.devShut (addrKey a) = false) && (decide (s1.devBad (addrKey a) n = false) &&
        (onOkUnit (ItemM.on (storeAt res (leBytes 8 (s1.atomic r.ctx (addrKey a) op (leAt b 8 8) (leAt b 16 8)).2)) e (s1.atomic
        r.ctx (addrKey a) op (leAt b 8 8) (leAt b 16 8)).1) fun u => decide (canEnd u run item r = true) &&
        (true)))))))))) (leAt d 32 8 + 32 * item + 24)) (atomicSize op)) (leAt b 0 8)))) (leAt d 40 1)))))) (r.desc.bytes)) (r.env
        w item)) (w.beginItem run item)) (s.tick now)) (fabState (fabDesc 1 [(40, 1, 3)]) (blob 32 [(0, 8, 0x2000), (8, 8, 1),
        (16, 8, 2)])) (1) (0) (0) (aRun (fabDesc 1 [(40, 1, 3)]))) = true := by decide +kernel
    obtain ⟨h4, H⟩ := and_of H
    obtain ⟨h5, H⟩ := and_of H
    obtain ⟨h6, H⟩ := and_of H
    obtain ⟨h7, H⟩ := and_of H
    obtain ⟨h9, H⟩ := and_of H
    obtain ⟨st, h10, H⟩ := of_okSame H
    obtain ⟨h11, H⟩ := and_of H
    obtain ⟨b, s1, h12, H⟩ := of_ok H
    obtain ⟨h16, H⟩ := and_of H
    obtain ⟨h17, H⟩ := and_of H
    obtain ⟨h18, H⟩ := and_of H
    obtain ⟨h19, H⟩ := and_lit H
    obtain ⟨h20, H⟩ := and_of H
    obtain ⟨h21, H⟩ := and_of H
    obtain ⟨h22, H⟩ := and_of H
    obtain ⟨h23, H⟩ := and_of H
    obtain ⟨u, h24, H⟩ := of_okUnit H
    obtain ⟨h25, H⟩ := and_of H
    exact ⟨(fabState (fabDesc 1 [(40, 1, 3)]) (blob 32 [(0, 8, 0x2000), (8, 8, 1), (16, 8, 2)])), _, _, 1, 0, 0,
        (aRun (fabDesc 1 [(40, 1, 3)])), _, _, rfl, rfl, rfl, rfl, h4, h5, _, _, _, _, _, _, _, h6, h7, rfl, h9, h10, h11, h12,
        rfl, rfl, rfl, h16, h17, h18, h19, _, h20, h21, h22, h23, h24, (canEnd_of h25)⟩),
   (by
    have H : ((fun (s : State) (run : Nat) (item : Nat) (now : Nat) (r : Run) => (fun (w : State) => (fun (s0 : State) =>
        (fun (e : ItemEnv) => (fun (d : List Byte) => decide (w.fabTurn run item = true) && (decide (w.detached = false) &&
        (decide (w.itemReady 0xA 1 run item = some r) && (decide (leAt d 41 87 = 0) && ((fun (op : Nat) => decide (op < 4) &&
        (onOkSame (ItemM.on itemStage e s0) s0 fun (st : Nat) => decide (st ≠ 1) && (onOk (ItemM.on fabEntry e s0)
        fun (b : List Byte) (s1 : State) => (fun (a : Nat) => (fun (n : Nat) => (fun (res : Nat) => decide (regTier a = false) &&
        (decide (a % n = 0) && (decide (addrBad a n = false) && (givesLit () (ItemM.on (checkWrite res 8) e s1) s1 &&
        (decide (s1.isOwn (addrMember a) = false) && (givesLit () (ItemM.on (remoteOk (addrMember a) 1 true) e s1) s1 &&
        (onSome (s1.sendRequest (s1.request ptAtomic r.ctx a 24 (leBytes 8 op ++ leBytes 8 (leAt b 8 8) ++ leBytes 8 (leAt b 16
        8))) false (.atomic r.id item res) none) fun (x : State) => true))))))) (leAt d 32 8 + 32 * item + 24)) (atomicSize op))
        (leAt b 0 8)))) (leAt d 40 1)))))) (r.desc.bytes)) (r.env w item)) (w.beginItem run item)) (s.tick now)) (fabState
        (fabDesc 1 [(40, 1, 3)]) (blob 32 [(0, 8, mkAddr 7 0x2000), (8, 8, 1), (16, 8, 2)])) (1) (0) (0) (aRun (fabDesc 1 [(40, 1,
        3)]))) = true := by decide +kernel
    obtain ⟨h4, H⟩ := and_of H
    obtain ⟨h5, H⟩ := and_of H
    obtain ⟨h6, H⟩ := and_of H
    obtain ⟨h7, H⟩ := and_of H
    obtain ⟨h9, H⟩ := and_of H
    obtain ⟨st, h10, H⟩ := of_okSame H
    obtain ⟨h11, H⟩ := and_of H
    obtain ⟨b, s1, h12, H⟩ := of_ok H
    obtain ⟨h16, H⟩ := and_of H
    obtain ⟨h17, H⟩ := and_of H
    obtain ⟨h18, H⟩ := and_of H
    obtain ⟨h19, H⟩ := and_lit H
    obtain ⟨h20, H⟩ := and_of H
    obtain ⟨h21, H⟩ := and_lit H
    obtain ⟨x, h22, H⟩ := of_some H
    exact ⟨(fabState (fabDesc 1 [(40, 1, 3)]) (blob 32 [(0, 8, mkAddr 7 0x2000), (8, 8, 1), (16, 8, 2)])), _, _, 1, 0, 0,
        (aRun (fabDesc 1 [(40, 1, 3)])), _, _, rfl, rfl, rfl, rfl, h4, h5, _, _, _, _, _, _, _, h6, h7, rfl, h9, h10, h11, h12,
        rfl, rfl, rfl, h16, h17, h18, h19, _, h20, h21, h22⟩),
   (by
    have H : ((fun (s : State) (run : Nat) (item : Nat) (now : Nat) (r : Run) => (fun (w : State) => (fun (s0 : State) =>
        (fun (e : ItemEnv) => (fun (d : List Byte) => decide (w.fabTurn run item = true) && (decide (w.detached = false) &&
        (decide (w.itemReady 0xA 2 run item = some r) && (decide (leAt d 41 7 = 0) && (decide (leAt d 112 16 = 0) &&
        (decide (hdrItems d = 0) && ((fun (a : Nat) => (fun (n : Nat) => decide (1 ≤ n) && (decide (n ≤ 64) &&
        (onOkUnit (ItemM.on (store a (((payloadOf d).drop 16).take n)) e s0) fun (s1 : State) => (fun (u : State) =>
        decide (canEnd u run item r = true) && (true)) ((if s1.isOwn (addrMember a) &&
        s1.inFenceTable (addrKey a) then s1.wakeDimmed else s1))))) (leAt d 40 1)) (leAt d 32 8)))))))) (r.desc.bytes)) (r.env w
        item)) (w.beginItem run item)) (s.tick now)) (runs (aRun (putDesc 0x2000)) routed) (1) (0) (0) (aRun (putDesc 0x2000))) =
        true := by decide +kernel
    obtain ⟨h4, H⟩ := and_of H
    obtain ⟨h5, H⟩ := and_of H
    obtain ⟨h6, H⟩ := and_of H
    obtain ⟨h7, H⟩ := and_of H
    obtain ⟨h8, H⟩ := and_of H
    obtain ⟨h9, H⟩ := and_of H
    obtain ⟨h12, H⟩ := and_of H
    obtain ⟨h13, H⟩ := and_of H
    obtain ⟨s1, h14, H⟩ := of_okUnit H
    obtain ⟨h16, H⟩ := and_of H
    exact ⟨(runs (aRun (putDesc 0x2000)) routed), _, _, 1, 0, 0, (aRun (putDesc 0x2000)), _, _, rfl, rfl, rfl, rfl, h4, h5, _,
        _, _, _, h6, h7, h8, h9, rfl, rfl, h12, h13, h14, rfl, (canEnd_of h16)⟩),
   (by
    have H : ((fun (s : State) (run : Nat) (item : Nat) (now : Nat) (r : Run) => (fun (w : State) => (fun (s0 : State) =>
        (fun (e : ItemEnv) => (fun (d : List Byte) => decide (w.fabTurn run item = true) && (decide (w.detached = false) &&
        (decide (w.itemReady 0xA 2 run item = some r) && (decide (leAt d 41 7 = 0) && (decide (leAt d 112 16 = 0) &&
        (decide (hdrItems d = 0) && ((fun (a : Nat) => (fun (n : Nat) => decide (1 ≤ n) && (decide (n ≤ 64) &&
        (onOkUnit (ItemM.on (store a (((payloadOf d).drop 16).take n)) e s0) fun (s1 : State) => (fun (u : State) =>
        decide (u.itemOpen run item = true) && (decide (u.waitsAck run item = true) && (true))) ((if s1.isOwn (addrMember a) &&
        s1.inFenceTable (addrKey a) then s1.wakeDimmed else s1))))) (leAt d 40 1)) (leAt d 32 8)))))))) (r.desc.bytes)) (r.env w
        item)) (w.beginItem run item)) (s.tick now)) (runs (aRun (putDesc (mkAddr 7 0x2000))) routed) (1) (0) (0) (aRun (putDesc
        (mkAddr 7 0x2000)))) = true := by decide +kernel
    obtain ⟨h4, H⟩ := and_of H
    obtain ⟨h5, H⟩ := and_of H
    obtain ⟨h6, H⟩ := and_of H
    obtain ⟨h7, H⟩ := and_of H
    obtain ⟨h8, H⟩ := and_of H
    obtain ⟨h9, H⟩ := and_of H
    obtain ⟨h12, H⟩ := and_of H
    obtain ⟨h13, H⟩ := and_of H
    obtain ⟨s1, h14, H⟩ := of_okUnit H
    obtain ⟨h16, H⟩ := and_of H
    obtain ⟨h17, H⟩ := and_of H
    exact ⟨(runs (aRun (putDesc (mkAddr 7 0x2000))) routed), _, _, 1, 0, 0, (aRun (putDesc (mkAddr 7 0x2000))), _, _, rfl,
        rfl, rfl, rfl, h4, h5, _, _, _, _, h6, h7, h8, h9, rfl, rfl, h12, h13, h14, rfl, h16, h17⟩)⟩

def fenceDesc (mode m : Nat) : List Byte := desc 0xA 3 1 [(32, 1, mode), (40, 2, m)]
/-- No more messages may be sent in this cue. -/
def manySent (s : State) : State := { s with fab := { s.fab with sent := 256 } }

def stopDesc : List Byte := desc 0xA 4 1 [(36, 4, 64)]
def patchDesc : List Byte := desc 0xA 5 1 [(32, 2, 1), (34, 1, 8)]

/-- States that meet the hypotheses of `Obligations.FabricOrderingItems`, one for each clause. -/
theorem witness_FabricOrderingItems :
    (∃ (s w s0 : State) (run item now : Nat) (r : Run) (e : ItemEnv) (d : List Byte), w = s.tick now ∧
      s0 = w.beginItem run item ∧
      e = r.env w item ∧
      d = r.desc.bytes ∧
      w.fabTurn run item = true ∧
      w.detached = false ∧
      w.waitsAck run item = false ∧
      ∃ (m st : Nat) (tags : List Nat), w.itemReady 0xA 3 run item = some r ∧
      itemStage.Gives e s0 st s0 ∧
      st ≠ 1 ∧
      leAt d 33 7 = 0 ∧
      leAt d 42 2 = 0 ∧
      leAt d 46 82 = 0 ∧
      leAt d 32 1 = 0 ∧
      m = leAt d 40 2 ∧
      m < 4096 ∧
      leAt d 44 2 < 1024 ∧
      (w.isOwn m = true ∨ (remoteOk m 1 false).Gives e s0 () s0) ∧
      (tags = w.openTags r.ctx (fun q => q.writes && (q.dst == m || w.lookupMember q.dst == w.lookupMember m))) ∧
      tags = []) ∧
    (∃ (s w s0 : State) (run item now : Nat) (r : Run) (e : ItemEnv) (d : List Byte), w = s.tick now ∧
      s0 = w.beginItem run item ∧
      e = r.env w item ∧
      d = r.desc.bytes ∧
      w.fabTurn run item = true ∧
      w.detached = false ∧
      w.waitsAck run item = false ∧
      ∃ (m st : Nat) (tags : List Nat), w.itemReady 0xA 3 run item = some r ∧
      itemStage.Gives e s0 st s0 ∧
      st ≠ 1 ∧
      leAt d 33 7 = 0 ∧
      leAt d 42 2 = 0 ∧
      leAt d 46 82 = 0 ∧
      leAt d 32 1 = 0 ∧
      m = leAt d 40 2 ∧
      m < 4096 ∧
      leAt d 44 2 < 1024 ∧
      (w.isOwn m = true ∨ (remoteOk m 1 false).Gives e s0 () s0) ∧
      (tags = w.openTags r.ctx (fun q => q.writes && (q.dst == m || w.lookupMember q.dst == w.lookupMember m))) ∧
      tags ≠ []) ∧
    (∃ (s w s0 : State) (run item now : Nat) (r : Run) (e : ItemEnv) (d : List Byte), w = s.tick now ∧
      s0 = w.beginItem run item ∧
      e = r.env w item ∧
      d = r.desc.bytes ∧
      w.fabTurn run item = true ∧
      w.detached = false ∧
      w.waitsAck run item = false ∧
      ∃ (st : Nat) (tags others : List Nat) (x : State), w.itemReady 0xA 3 run item = some r ∧
      itemStage.Gives e s0 st s0 ∧
      st ≠ 1 ∧
      leAt d 33 7 = 0 ∧
      leAt d 42 2 = 0 ∧
      leAt d 46 82 = 0 ∧
      leAt d 32 1 = 1 ∧
      leAt d 40 2 < 4096 ∧
      leAt d 44 2 < 1024 ∧
      (w.chorusAt r.chorusGen).valid (leAt d 44 2) = true ∧
      (others = (((w.chorusAt r.chorusGen).rankSlots (leAt d 44 2)).map slotMember).filter (fun m => !w.isOwn m)) ∧
      others ≠ [] ∧
      (∀ m ∈ others, (remoteOk m 0 true).Gives e s0 () s0) ∧
      (tags = w.openTags r.ctx (fun q => q.writes && others.any fun m => m == q.dst || w.lookupMember m == w.lookupMember q.dst)) ∧
      x = { s0 with fab := { s0.fab with nextDrain := (s0.fab.nextDrain + 1) % 2 ^ 32, fences := s0.fab.fences ++ [{ run := r.id, item := item, drain := s0.fab.nextDrain, waits := tags, members := others }] } }) ∧
    (∃ (s w s0 : State) (run item now : Nat) (r : Run) (e : ItemEnv) (d : List Byte), w = s.tick now ∧
      s0 = w.beginItem run item ∧
      e = r.env w item ∧
      d = r.desc.bytes ∧
      w.fabTurn run item = true ∧
      w.detached = false ∧
      w.waitsAck run item = false ∧
      ∃ (c n resume : Nat) (body : List Byte) (x : State), w.itemReady 0xA 4 run item = some r ∧
      itemStage.Gives e s0 0 s0 ∧
      hdrItems d = 0 ∧
      c = leAt d 32 1 ∧
      (c = r.ctx ∨ w.managed r.desc.ring = true) ∧
      leAt d 33 3 = 0 ∧
      leAt d 40 88 = 0 ∧
      n = leAt d 36 4 ∧
      c < 64 ∧
      1 ≤ n ∧
      n ≤ 64 ∧
      resume = (w.cueNo + n) % 2 ^ 32 ∧
      body = leBytes 1 c ++ leBytes 3 0 ++ leBytes 4 resume ∧
      (x = ((s0.originate (s0.prompter ptStop 0 true body)).takeStop c resume).onItem r.id item (fun y =>
          { y with stage := resume + 1 })) ∧
      x.stillWaiting ptStop body = true) ∧
    (∃ (s w s0 : State) (run item now : Nat) (r : Run) (e : ItemEnv) (d : List Byte), w = s.tick now ∧
      s0 = w.beginItem run item ∧
      e = r.env w item ∧
      d = r.desc.bytes ∧
      w.fabTurn run item = true ∧
      w.detached = false ∧
      w.waitsAck run item = false ∧
      ∃ (c n resume : Nat) (body : List Byte) (x : State), w.itemReady 0xA 4 run item = some r ∧
      itemStage.Gives e s0 0 s0 ∧
      hdrItems d = 0 ∧
      c = leAt d 32 1 ∧
      (c = r.ctx ∨ w.managed r.desc.ring = true) ∧
      leAt d 33 3 = 0 ∧
      leAt d 40 88 = 0 ∧
      n = leAt d 36 4 ∧
      c < 64 ∧
      1 ≤ n ∧
      n ≤ 64 ∧
      resume = (w.cueNo + n) % 2 ^ 32 ∧
      body = leBytes 1 c ++ leBytes 3 0 ++ leBytes 4 resume ∧
      (x = ((s0.originate (s0.prompter ptStop 0 true body)).takeStop c resume).onItem r.id item (fun y =>
          { y with stage := resume + 1 })) ∧
      x.stillWaiting ptStop body = false) ∧
    (∃ (s w s0 : State) (run item now : Nat) (r : Run) (e : ItemEnv) (d : List Byte), w = s.tick now ∧
      s0 = w.beginItem run item ∧
      e = r.env w item ∧
      d = r.desc.bytes ∧
      w.fabTurn run item = true ∧
      w.detached = false ∧
      w.waitsAck run item = false ∧
      ∃ (gen n st : Nat), w.itemReady 0xA 5 run item = some r ∧
      w.managed r.desc.ring = true ∧
      hdrItems d = 0 ∧
      itemStage.Gives e s0 st s0 ∧
      st ≠ 1 ∧
      gen = leAt d 32 2 ∧
      n = leAt d 34 1 ∧
      gen ≠ 0 ∧
      1 ≤ n ∧
      n ≤ 8 ∧
      leAt d 35 1 = 0 ∧
      leAt d (36 + 4 * n) (92 - 4 * n) = 0 ∧
      (∀ k, k < 2 * n → leAt (payloadOf d) (4 + 2 * k) 2 < 4096)) :=
  ⟨(by
    have H : ((fun (s : State) (run : Nat) (item : Nat) (now : Nat) (r : Run) => (fun (w : State) => (fun (s0 : State) => (fun (e : ItemEnv) => (fun (d : List Byte) => decide (w.fabTurn run item = true) && (decide (w.detached = false) && (decide (w.waitsAck run item = false) && (decide (w.itemReady 0xA 3 run item = some r) && (onOkSame (ItemM.on itemStage e s0) s0 fun (st : Nat) => decide (st ≠ 1) && (decide (leAt d 33 7 = 0) && (decide (leAt d 42 2 = 0) && (decide (leAt d 46 82 = 0) && (decide (leAt d 32 1 = 0) && ((fun (m : Nat) => decide (m < 4096) && (decide (leAt d 44 2 < 1024) && ((fun (tags : List Nat) => decide (tags = []) && (true)) (w.openTags r.ctx (fun q => q.writes && (q.dst == m || w.lookupMember q.dst == w.lookupMember m)))))) (leAt d 40 2))))))))))) (r.desc.bytes)) (r.env w item)) (w.beginItem run item)) (s.tick now)) (runs (aRun (fenceDesc 0 0)) routed) (1) (0) (0) (aRun (fenceDesc 0 0))) = true := by decide +kernel
    obtain ⟨h4, H⟩ := and_of H
    obtain ⟨h5, H⟩ := and_of H
    obtain ⟨h6, H⟩ := and_of H
    obtain ⟨h7, H⟩ := and_of H
    obtain ⟨st, h8, H⟩ := of_okSame H
    obtain ⟨h9, H⟩ := and_of H
    obtain ⟨h10, H⟩ := and_of H
    obtain ⟨h11, H⟩ := and_of H
    obtain ⟨h12, H⟩ := and_of H
    obtain ⟨h13, H⟩ := and_of H
    obtain ⟨h15, H⟩ := and_of H
    obtain ⟨h16, H⟩ := and_of H
    obtain ⟨h19, H⟩ := and_of H
    exact ⟨(runs (aRun (fenceDesc 0 0)) routed), _, _, 1, 0, 0, (aRun (fenceDesc 0 0)), _, _, rfl, rfl, rfl, rfl, h4, h5, h6,
        _, _, _, h7, h8, h9, h10, h11, h12, h13, rfl, h15, h16, (Or.inl (by decide +kernel)), rfl, h19⟩),
   (by
    have H : ((fun (s : State) (run : Nat) (item : Nat) (now : Nat) (r : Run) => (fun (w : State) => (fun (s0 : State) => (fun (e : ItemEnv) => (fun (d : List Byte) => decide (w.fabTurn run item = true) && (decide (w.detached = false) && (decide (w.waitsAck run item = false) && (decide (w.itemReady 0xA 3 run item = some r) && (onOkSame (ItemM.on itemStage e s0) s0 fun (st : Nat) => decide (st ≠ 1) && (decide (leAt d 33 7 = 0) && (decide (leAt d 42 2 = 0) && (decide (leAt d 46 82 = 0) && (decide (leAt d 32 1 = 0) && ((fun (m : Nat) => decide (m < 4096) && (decide (leAt d 44 2 < 1024) && ((fun (tags : List Nat) => decide (tags ≠ []) && (true)) (w.openTags r.ctx (fun q => q.writes && (q.dst == m || w.lookupMember q.dst == w.lookupMember m)))))) (leAt d 40 2))))))))))) (r.desc.bytes)) (r.env w item)) (w.beginItem run item)) (s.tick now)) (runs (aRun (fenceDesc 0 7)) (writing routed)) (1) (0) (0) (aRun (fenceDesc 0 7))) = true := by decide +kernel
    obtain ⟨h4, H⟩ := and_of H
    obtain ⟨h5, H⟩ := and_of H
    obtain ⟨h6, H⟩ := and_of H
    obtain ⟨h7, H⟩ := and_of H
    obtain ⟨st, h8, H⟩ := of_okSame H
    obtain ⟨h9, H⟩ := and_of H
    obtain ⟨h10, H⟩ := and_of H
    obtain ⟨h11, H⟩ := and_of H
    obtain ⟨h12, H⟩ := and_of H
    obtain ⟨h13, H⟩ := and_of H
    obtain ⟨h15, H⟩ := and_of H
    obtain ⟨h16, H⟩ := and_of H
    obtain ⟨h19, H⟩ := and_of H
    exact ⟨(runs (aRun (fenceDesc 0 7)) (writing routed)), _, _, 1, 0, 0, (aRun (fenceDesc 0 7)), _, _, rfl, rfl, rfl, rfl,
        h4, h5, h6, _, _, _, h7, h8, h9, h10, h11, h12, h13, rfl, h15, h16, (Or.inr (and_lit (b := true) (by decide +kernel)).1),
        rfl, h19⟩),
   (by
    have H : ((fun (s : State) (run : Nat) (item : Nat) (now : Nat) (r : Run) => (fun (w : State) => (fun (s0 : State) => (fun (e : ItemEnv) => (fun (d : List Byte) => decide (w.fabTurn run item = true) && (decide (w.detached = false) && (decide (w.waitsAck run item = false) && (decide (w.itemReady 0xA 3 run item = some r) && (onOkSame (ItemM.on itemStage e s0) s0 fun (st : Nat) => decide (st ≠ 1) && (decide (leAt d 33 7 = 0) && (decide (leAt d 42 2 = 0) && (decide (leAt d 46 82 = 0) && (decide (leAt d 32 1 = 1) && (decide (leAt d 40 2 < 4096) && (decide (leAt d 44 2 < 1024) && (decide ((w.chorusAt r.chorusGen).valid (leAt d 44 2) = true) && ((fun (others : List Nat) => decide (others ≠ []) && ((others).all (fun m => givesLit () (ItemM.on (remoteOk m 0 true) e s0) s0) && ((fun (tags : List Nat) => (fun (x : State) => true) ({ s0 with fab := { s0.fab with nextDrain := (s0.fab.nextDrain + 1) % 2 ^ 32, fences := s0.fab.fences ++ [{ run := r.id, item := item, drain := s0.fab.nextDrain, waits := tags, members := others }] } })) (w.openTags r.ctx (fun q => q.writes && others.any fun m => m == q.dst || w.lookupMember m == w.lookupMember q.dst))))) ((((w.chorusAt r.chorusGen).rankSlots (leAt d 44 2)).map slotMember).filter (fun m => !w.isOwn m))))))))))))))) (r.desc.bytes)) (r.env w item)) (w.beginItem run item)) (s.tick now)) (runs (aRun (fenceDesc 1 0)) (writing (chorused 2))) (1) (0) (0) (aRun (fenceDesc 1 0))) = true := by decide +kernel
    obtain ⟨h4, H⟩ := and_of H
    obtain ⟨h5, H⟩ := and_of H
    obtain ⟨h6, H⟩ := and_of H
    obtain ⟨h7, H⟩ := and_of H
    obtain ⟨st, h8, H⟩ := of_okSame H
    obtain ⟨h9, H⟩ := and_of H
    obtain ⟨h10, H⟩ := and_of H
    obtain ⟨h11, H⟩ := and_of H
    obtain ⟨h12, H⟩ := and_of H
    obtain ⟨h13, H⟩ := and_of H
    obtain ⟨h14, H⟩ := and_of H
    obtain ⟨h15, H⟩ := and_of H
    obtain ⟨h16, H⟩ := and_of H
    obtain ⟨h18, H⟩ := and_of H
    obtain ⟨h19, H⟩ := all_gives H
    exact ⟨(runs (aRun (fenceDesc 1 0)) (writing (chorused 2))), _, _, 1, 0, 0, (aRun (fenceDesc 1 0)), _, _, rfl, rfl, rfl,
        rfl, h4, h5, h6, _, _, _, _, h7, h8, h9, h10, h11, h12, h13, h14, h15, h16, rfl, h18, h19, rfl, rfl⟩),
   (by
    have H : ((fun (s : State) (run : Nat) (item : Nat) (now : Nat) (r : Run) => (fun (w : State) => (fun (s0 : State) =>
        (fun (e : ItemEnv) => (fun (d : List Byte) => decide (w.fabTurn run item = true) && (decide (w.detached = false) &&
        (decide (w.waitsAck run item = false) && (decide (w.itemReady 0xA 4 run item = some r) &&
        (givesLit 0 (ItemM.on itemStage e s0) s0 && (decide (hdrItems d = 0) && ((fun (c : Nat) => decide (c = r.ctx ∨
        w.managed r.desc.ring = true) && (decide (leAt d 33 3 = 0) && (decide (leAt d 40 88 = 0) && ((fun (n : Nat) =>
        decide (c < 64) && (decide (1 ≤ n) && (decide (n ≤ 64) && ((fun (resume : Nat) => (fun (body : List Byte) =>
        (fun (x : State) => decide (x.stillWaiting ptStop body = true) && (true)) (((s0.originate (s0.prompter ptStop 0 true
        body)).takeStop c resume).onItem r.id item (fun y => { y with stage := resume + 1 }))) (leBytes 1 c ++ leBytes 3 0 ++
        leBytes 4 resume)) ((w.cueNo + n) % 2 ^ 32))))) (leAt d 36 4))))) (leAt d 32 1)))))))) (r.desc.bytes)) (r.env w item))
        (w.beginItem run item)) (s.tick now)) (manySent (runs (aRun stopDesc) routed)) (1) (0) (0) (aRun stopDesc)) = true :=
        by decide +kernel
    obtain ⟨h4, H⟩ := and_of H
    obtain ⟨h5, H⟩ := and_of H
    obtain ⟨h6, H⟩ := and_of H
    obtain ⟨h7, H⟩ := and_of H
    obtain ⟨h8, H⟩ := and_lit H
    obtain ⟨h9, H⟩ := and_of H
    obtain ⟨h11, H⟩ := and_of H
    obtain ⟨h12, H⟩ := and_of H
    obtain ⟨h13, H⟩ := and_of H
    obtain ⟨h15, H⟩ := and_of H
    obtain ⟨h16, H⟩ := and_of H
    obtain ⟨h17, H⟩ := and_of H
    obtain ⟨h21, H⟩ := and_of H
    exact ⟨(manySent (runs (aRun stopDesc) routed)), _, _, 1, 0, 0, (aRun stopDesc), _, _, rfl, rfl, rfl, rfl, h4, h5, h6, _,
        _, _, _, _, h7, h8, h9, rfl, h11, h12, h13, rfl, h15, h16, h17, rfl, rfl, rfl, h21⟩),
   (by
    have H : ((fun (s : State) (run : Nat) (item : Nat) (now : Nat) (r : Run) => (fun (w : State) => (fun (s0 : State) =>
        (fun (e : ItemEnv) => (fun (d : List Byte) => decide (w.fabTurn run item = true) && (decide (w.detached = false) &&
        (decide (w.waitsAck run item = false) && (decide (w.itemReady 0xA 4 run item = some r) &&
        (givesLit 0 (ItemM.on itemStage e s0) s0 && (decide (hdrItems d = 0) && ((fun (c : Nat) => decide (c = r.ctx ∨
        w.managed r.desc.ring = true) && (decide (leAt d 33 3 = 0) && (decide (leAt d 40 88 = 0) && ((fun (n : Nat) =>
        decide (c < 64) && (decide (1 ≤ n) && (decide (n ≤ 64) && ((fun (resume : Nat) => (fun (body : List Byte) =>
        (fun (x : State) => decide (x.stillWaiting ptStop body = false) && (true)) (((s0.originate (s0.prompter ptStop 0 true
        body)).takeStop c resume).onItem r.id item (fun y => { y with stage := resume + 1 }))) (leBytes 1 c ++ leBytes 3 0 ++
        leBytes 4 resume)) ((w.cueNo + n) % 2 ^ 32))))) (leAt d 36 4))))) (leAt d 32 1)))))))) (r.desc.bytes)) (r.env w item))
        (w.beginItem run item)) (s.tick now)) (runs (aRun stopDesc) routed) (1) (0) (0) (aRun stopDesc)) = true :=
        by decide +kernel
    obtain ⟨h4, H⟩ := and_of H
    obtain ⟨h5, H⟩ := and_of H
    obtain ⟨h6, H⟩ := and_of H
    obtain ⟨h7, H⟩ := and_of H
    obtain ⟨h8, H⟩ := and_lit H
    obtain ⟨h9, H⟩ := and_of H
    obtain ⟨h11, H⟩ := and_of H
    obtain ⟨h12, H⟩ := and_of H
    obtain ⟨h13, H⟩ := and_of H
    obtain ⟨h15, H⟩ := and_of H
    obtain ⟨h16, H⟩ := and_of H
    obtain ⟨h17, H⟩ := and_of H
    obtain ⟨h21, H⟩ := and_of H
    exact ⟨(runs (aRun stopDesc) routed), _, _, 1, 0, 0, (aRun stopDesc), _, _, rfl, rfl, rfl, rfl, h4, h5, h6, _, _, _, _, _,
        h7, h8, h9, rfl, h11, h12, h13, rfl, h15, h16, h17, rfl, rfl, rfl, h21⟩),
   (by
    have H : ((fun (s : State) (run : Nat) (item : Nat) (now : Nat) (r : Run) => (fun (w : State) => (fun (s0 : State) =>
        (fun (e : ItemEnv) => (fun (d : List Byte) => decide (w.fabTurn run item = true) && (decide (w.detached = false) &&
        (decide (w.waitsAck run item = false) && (decide (w.itemReady 0xA 5 run item = some r) &&
        (decide (w.managed r.desc.ring = true) && (decide (hdrItems d = 0) && (onOkSame (ItemM.on itemStage e s0) s0
        fun (st : Nat) => decide (st ≠ 1) && ((fun (gen : Nat) => (fun (n : Nat) => decide (gen ≠ 0) && (decide (1 ≤ n) &&
        (decide (n ≤ 8) && (decide (leAt d 35 1 = 0) && (decide (leAt d (36 + 4 * n) (92 - 4 * n) = 0) &&
        (decide (((List.range (2 * n)).all fun k => decide (leAt (payloadOf d) (4 + 2 * k) 2 < 4096)) = true) &&
        (true))))))) (leAt d 34 1)) (leAt d 32 2))))))))) (r.desc.bytes)) (r.env w item)) (w.beginItem run item)) (s.tick now))
        (runs (aRun patchDesc) routed) (1) (0) (0) (aRun patchDesc)) = true := by decide +kernel
    obtain ⟨h4, H⟩ := and_of H
    obtain ⟨h5, H⟩ := and_of H
    obtain ⟨h6, H⟩ := and_of H
    obtain ⟨h7, H⟩ := and_of H
    obtain ⟨h8, H⟩ := and_of H
    obtain ⟨h9, H⟩ := and_of H
    obtain ⟨st, h10, H⟩ := of_okSame H
    obtain ⟨h11, H⟩ := and_of H
    obtain ⟨h14, H⟩ := and_of H
    obtain ⟨h15, H⟩ := and_of H
    obtain ⟨h16, H⟩ := and_of H
    obtain ⟨h17, H⟩ := and_of H
    obtain ⟨h18, H⟩ := and_of H
    obtain ⟨h19, H⟩ := and_of H
    exact ⟨(runs (aRun patchDesc) routed), _, _, 1, 0, 0, (aRun patchDesc), _, _, rfl, rfl, rfl, rfl, h4, h5, h6, _, _, _, h7,
        h8, h9, h10, h11, rfl, rfl, h14, h15, h16, h17, h18, (below_of h19)⟩)⟩

def teardownDesc : List Byte := desc 0 7 1 [(32, 1, 63)]

/-- A teardown of context 63 that waits for no other member. -/
def tearing : State :=
  { runs (aRun teardownDesc) device with fab := { device.fab with
      teardowns := [{ ctx := 63, item := some (1, 0), origin := none, drain := 0, gen := 1, members := [], cue := 0, waits := [],
                      freed := false }] } }

/-- States that meet the hypotheses of `Obligations.ContextsTornDown`, one for each clause. -/
theorem witness_ContextsTornDown :
    (∃ (s w s0 : State) (run item now c st : Nat) (r : Run) (e : ItemEnv), w = s.tick now ∧
      s0 = w.beginItem run item ∧
      e = r.env w item ∧
      w.itemReady 0 7 run item = some r ∧
      w.managed r.desc.ring = true ∧
      leAt r.desc.bytes 33 95 = 0 ∧
      c = leAt r.desc.bytes 32 1 ∧
      c < 64 ∧
      itemStage.Gives e s0 st s0 ∧
      st ≠ 1 ∧
      w.flag (ctxFabricTearing c) = false ∧
      c ∉ w.fab.advanced) ∧
    (∃ (s w x y u : State) (now c run item n first : Nat) (d : Teardown), w = s.tick now ∧
      (w.fab.teardowns.find? (fun x => x.ctx == c && x.item.isSome) = some d) ∧
      d.item = some (run, item) ∧
      (d.members = [] ∨ d.cue + 4 ≤ s.cueNo) ∧
      w.drained d.waits = true ∧
      n = d.members.length ∧
      first = d.members.foldl min (d.members.headD 0) ∧
      (x = { w with fab := { w.fab with teardowns := w.fab.teardowns.filter fun y => decide (y ≠ d) } }) ∧
      y = ((x.freeGranules c).writeReport c d.members).setFlag (ctxFabricTearing c) false ∧
      u = (if n = 0 then y else y.event) ∧
      s.itemOpen run item = true ∧
      s.waitsAck run item = false ∧
      (∀ q, s.findRun run = some q → hdrClass q.desc.bytes = 0)) :=
  ⟨(by
    have H : ((fun (s : State) (run : Nat) (item : Nat) (now : Nat) (r : Run) => (fun (w : State) => (fun (s0 : State) =>
        (fun (e : ItemEnv) => decide (w.itemReady 0 7 run item = some r) && (decide (w.managed r.desc.ring = true) &&
        (decide (leAt r.desc.bytes 33 95 = 0) && ((fun (c : Nat) => decide (c < 64) && (onOkSame (ItemM.on itemStage e s0) s0
        fun (st : Nat) => decide (st ≠ 1) && (decide (w.flag (ctxFabricTearing c) = false) && (decide (c ∉ w.fab.advanced) &&
        (true))))) (leAt r.desc.bytes 32 1))))) (r.env w item)) (w.beginItem run item)) (s.tick now)) (runs (aRun teardownDesc)
        (chorused 2)) (1) (0) (0) (aRun teardownDesc)) = true := by decide +kernel
    obtain ⟨h3, H⟩ := and_of H
    obtain ⟨h4, H⟩ := and_of H
    obtain ⟨h5, H⟩ := and_of H
    obtain ⟨h7, H⟩ := and_of H
    obtain ⟨st, h8, H⟩ := of_okSame H
    obtain ⟨h9, H⟩ := and_of H
    obtain ⟨h10, H⟩ := and_of H
    obtain ⟨h11, H⟩ := and_of H
    exact ⟨(runs (aRun teardownDesc) (chorused 2)), _, _, 1, 0, 0, _, _, (aRun teardownDesc), _, rfl, rfl, rfl, h3, h4, h5,
        rfl, h7, h8, h9, h10, h11⟩),
   (by
    have H : ((fun (s : State) (now : Nat) (c : Nat) (run : Nat) (item : Nat) => (fun (w : State) =>
        onSome (w.fab.teardowns.find? (fun x => x.ctx == c && x.item.isSome)) fun (d : Teardown) => decide (d.item = some (run,
        item)) && (decide (d.members = [] ∨ d.cue + 4 ≤ s.cueNo) && (decide (w.drained d.waits = true) && ((fun (n : Nat) =>
        (fun (first : Nat) => (fun (x : State) => (fun (y : State) => (fun (u : State) => decide (s.itemOpen run item = true) &&
        (decide (s.waitsAck run item = false) && (decide ((s.findRun run).all (fun q =>
        decide (hdrClass q.desc.bytes = 0)) = true) && (true)))) ((if n = 0 then y else y.event))) (((x.freeGranules
        c).writeReport c d.members).setFlag (ctxFabricTearing c) false))
        ({ w with fab := { w.fab with teardowns := w.fab.teardowns.filter fun y => decide (y ≠ d) } })) (d.members.foldl min
        (d.members.headD 0))) (d.members.length))))) (s.tick now)) (tearing) (0) (63) (1) (0)) = true := by decide +kernel
    obtain ⟨d, h1, H⟩ := of_some H
    obtain ⟨h2, H⟩ := and_of H
    obtain ⟨h3, H⟩ := and_of H
    obtain ⟨h4, H⟩ := and_of H
    obtain ⟨h10, H⟩ := and_of H
    obtain ⟨h11, H⟩ := and_of H
    obtain ⟨h12, H⟩ := and_of H
    exact ⟨tearing, _, _, _, _, 0, 63, 1, 0, _, _, _, rfl, h1, h2, h3, h4, rfl, rfl, rfl, rfl, rfl, h10, h11, (forall_some h12)⟩)⟩

/-- A collective item of chorus entry 0 on the list at 0x1000, with formats `f` and thinning `thin`. -/
def collDesc (op f thin : Nat) : List Byte := desc 0xB op 1 [(34, 1, f), (35, 1, f), (38, 1, 1), (39, 1, thin), (40, 8, 0x1000)]
def collState (op f thin size n aux : Nat) : State :=
  runs (aRun (collDesc op f thin))
    (place 0x1000 (blob 32 (if op = 3 then [] else [(0, 8, 0x1000000), (8, 8, 0x2000000), (16, 8, aux), (24, 4,
        n)])) (chorused size))

/-- A half of that item, with what has arrived. -/
def aHalf (op n : Nat) (got : List (Nat × List Byte)) : Half :=
  { run := 1, item := 0, ctx := 0, entry := 0, seq := 0, gen := 0, op := op, count := n, fmt := 0, rank := 0, dst := 0x2000000, aux := 0, got := got, startCue := 0,
    waited := 1 }

def halved (h : Half) (s : State) : State := { s with coll := { s.coll with halves := [h] } }

/-- States that meet the hypotheses of `Obligations.CollectiveHalvesEnd`, one for each clause. -/
theorem witness_CollectiveHalvesEnd :
    (∃ (s w s0 : State) (run item now op ranks : Nat) (c : Instr) (r : Run) (e : ItemEnv) (i : ChorusImage) (p : CollPay),
        ((op = 0 ∧ c = .rsHalf run item now) ∨ (op = 1 ∧ c = .agHalf run item now) ∨ (op = 2 ∧ c = .bcastHalf run item now) ∨
        (op = 3 ∧ c = .barrierHalf run item now) ∨ (op = 4 ∧ c = .gradReduce run item now)) ∧
      w = s.tick now ∧
      w.itemReady 0xB op run item = some r ∧
      s0 = w.beginItem run item ∧
      e = r.env w item ∧
      w.detached = false ∧
      i = w.chorusAt r.chorusGen ∧
      p = collPay r.desc.bytes ∧
      ranks = (i.rankSlots p.entry).length ∧
      ∃ (h : Half) (u : State) (dt cy : Nat), w.halfOf run item = some h ∧
      h.whole ranks p.root = true ∧
      (finishHalf h ranks p).Gives e s0 ⟨stOk, dt, cy⟩ u ∧
      u.CanEnd run item r) ∧
    (∃ (s w s0 : State) (run item now op ranks : Nat) (c : Instr) (r : Run) (e : ItemEnv) (i : ChorusImage) (p : CollPay),
        ((op = 0 ∧ c = .rsHalf run item now) ∨ (op = 1 ∧ c = .agHalf run item now) ∨ (op = 2 ∧ c = .bcastHalf run item now) ∨
        (op = 3 ∧ c = .barrierHalf run item now) ∨ (op = 4 ∧ c = .gradReduce run item now)) ∧
      w = s.tick now ∧
      w.itemReady 0xB op run item = some r ∧
      s0 = w.beginItem run item ∧
      e = r.env w item ∧
      w.detached = false ∧
      i = w.chorusAt r.chorusGen ∧
      p = collPay r.desc.bytes ∧
      ranks = (i.rankSlots p.entry).length ∧
      ∃ (me : Nat) (b : List Byte) (x : CollItem) (h0 : Half) (s1 s2 : State), s0.halfOf e.run e.item = none ∧
      (collCheck r.desc.bytes op).Gives e s0 () s0 ∧
      (collBound r.desc.bytes op r.chorusGen).Gives e s0 () s0 ∧
      s0.rankOf i p.entry s0.member = some me ∧
      (load (p.list + 32 * item) 32).Gives e s0 b s1 ∧
      x = collItem b ∧
      (noteCount x.seq).Gives e s1 () s2 ∧
      s0.collItemOk x op ranks me p = true ∧
      h0 = s0.newHalf e p x r.chorusGen op me ∧
      x.count = 0 ∧
      op ≠ 3 ∧
      (s2.noteHalf h0 stEmpty).CanEnd run item r) ∧
    (∃ (s w s0 : State) (run item now op ranks : Nat) (c : Instr) (r : Run) (e : ItemEnv) (i : ChorusImage) (p : CollPay),
        ((op = 0 ∧ c = .rsHalf run item now) ∨ (op = 1 ∧ c = .agHalf run item now) ∨ (op = 2 ∧ c = .bcastHalf run item now) ∨
        (op = 3 ∧ c = .barrierHalf run item now) ∨ (op = 4 ∧ c = .gradReduce run item now)) ∧
      w = s.tick now ∧
      w.itemReady 0xB op run item = some r ∧
      s0 = w.beginItem run item ∧
      e = r.env w item ∧
      w.detached = false ∧
      i = w.chorusAt r.chorusGen ∧
      p = collPay r.desc.bytes ∧
      ranks = (i.rankSlots p.entry).length ∧
      ∃ (me : Nat) (b : List Byte) (x : CollItem) (h0 : Half) (s1 s2 : State), s0.halfOf e.run e.item = none ∧
      (collCheck r.desc.bytes op).Gives e s0 () s0 ∧
      (collBound r.desc.bytes op r.chorusGen).Gives e s0 () s0 ∧
      s0.rankOf i p.entry s0.member = some me ∧
      (load (p.list + 32 * item) 32).Gives e s0 b s1 ∧
      x = collItem b ∧
      (noteCount x.seq).Gives e s1 () s2 ∧
      s0.collItemOk x op ranks me p = true ∧
      h0 = s0.newHalf e p x r.chorusGen op me ∧
      (x.count ≠ 0 ∨ op = 3) ∧
      ∃ (bs : List Byte) (s3 : State), (ownBytes op me ranks x p).Gives e s2 bs s3 ∧
      p.reducing op = false ∧
      (s3.noteHalf h0 stOk).CanEnd run item r) ∧
    (∃ (s w s0 : State) (run item now op ranks : Nat) (c : Instr) (r : Run) (e : ItemEnv) (i : ChorusImage) (p : CollPay),
        ((op = 0 ∧ c = .rsHalf run item now) ∨ (op = 1 ∧ c = .agHalf run item now) ∨ (op = 2 ∧ c = .bcastHalf run item now) ∨
        (op = 3 ∧ c = .barrierHalf run item now) ∨ (op = 4 ∧ c = .gradReduce run item now)) ∧
      w = s.tick now ∧
      w.itemReady 0xB op run item = some r ∧
      s0 = w.beginItem run item ∧
      e = r.env w item ∧
      w.detached = false ∧
      i = w.chorusAt r.chorusGen ∧
      p = collPay r.desc.bytes ∧
      ranks = (i.rankSlots p.entry).length ∧
      ∃ (me : Nat) (b : List Byte) (x : CollItem) (h0 : Half) (s1 s2 : State), s0.halfOf e.run e.item = none ∧
      (collCheck r.desc.bytes op).Gives e s0 () s0 ∧
      (collBound r.desc.bytes op r.chorusGen).Gives e s0 () s0 ∧
      s0.rankOf i p.entry s0.member = some me ∧
      (load (p.list + 32 * item) 32).Gives e s0 b s1 ∧
      x = collItem b ∧
      (noteCount x.seq).Gives e s1 () s2 ∧
      s0.collItemOk x op ranks me p = true ∧
      h0 = s0.newHalf e p x r.chorusGen op me ∧
      (x.count ≠ 0 ∨ op = 3) ∧
      ∃ (bs : List Byte) (s3 : State), (ownBytes op me ranks x p).Gives e s2 bs s3 ∧
      ∃ (h : Half) (s4 : State), p.reducing op = true ∧
      (startHalf h0 (i.rankSlots p.entry) p.root bs).Gives e s3 h s4 ∧
      h.whole ranks p.root = false) ∧
    (∃ (s w s0 : State) (run item now op ranks : Nat) (c : Instr) (r : Run) (e : ItemEnv) (i : ChorusImage) (p : CollPay),
        ((op = 0 ∧ c = .rsHalf run item now) ∨ (op = 1 ∧ c = .agHalf run item now) ∨ (op = 2 ∧ c = .bcastHalf run item now) ∨
        (op = 3 ∧ c = .barrierHalf run item now) ∨ (op = 4 ∧ c = .gradReduce run item now)) ∧
      w = s.tick now ∧
      w.itemReady 0xB op run item = some r ∧
      s0 = w.beginItem run item ∧
      e = r.env w item ∧
      w.detached = false ∧
      i = w.chorusAt r.chorusGen ∧
      p = collPay r.desc.bytes ∧
      ranks = (i.rankSlots p.entry).length ∧
      ∃ (me : Nat) (b : List Byte) (x : CollItem) (h0 : Half) (s1 s2 : State), s0.halfOf e.run e.item = none ∧
      (collCheck r.desc.bytes op).Gives e s0 () s0 ∧
      (collBound r.desc.bytes op r.chorusGen).Gives e s0 () s0 ∧
      s0.rankOf i p.entry s0.member = some me ∧
      (load (p.list + 32 * item) 32).Gives e s0 b s1 ∧
      x = collItem b ∧
      (noteCount x.seq).Gives e s1 () s2 ∧
      s0.collItemOk x op ranks me p = true ∧
      h0 = s0.newHalf e p x r.chorusGen op me ∧
      (x.count ≠ 0 ∨ op = 3) ∧
      ∃ (bs : List Byte) (s3 : State), (ownBytes op me ranks x p).Gives e s2 bs s3 ∧
      ∃ (h : Half) (s4 : State), p.reducing op = true ∧
      (startHalf h0 (i.rankSlots p.entry) p.root bs).Gives e s3 h s4 ∧
      ∃ (u : State) (dt cy : Nat), h.whole ranks p.root = true ∧
      (finishHalf h ranks p).Gives e s4 ⟨stOk, dt, cy⟩ u ∧
      u.CanEnd run item r) :=
  ⟨(by
    have H : ((fun (s : State) (run : Nat) (item : Nat) (now : Nat) (op : Nat) (c : Instr) (r : Run) (dt : Nat) (cy : Nat) =>
        decide ((op = 0 ∧ c = .rsHalf run item now) ∨ (op = 1 ∧ c = .agHalf run item now) ∨ (op = 2 ∧
        c = .bcastHalf run item now) ∨ (op = 3 ∧ c = .barrierHalf run item now) ∨ (op = 4 ∧ c = .gradReduce run item now)) &&
        ((fun (w : State) => decide (w.itemReady 0xB op run item = some r) && ((fun (s0 : State) => (fun (e : ItemEnv) =>
        decide (w.detached = false) && ((fun (i : ChorusImage) => (fun (p : CollPay) => (fun (ranks : Nat) =>
        onSome (w.halfOf run item) fun (h : Half) => decide (h.whole ranks p.root = true) && (onOkLit ⟨stOk, dt,
        cy⟩ (ItemM.on (finishHalf h ranks p) e s0) fun (u : State) => decide (canEnd u run item r = true) &&
        (true))) ((i.rankSlots p.entry).length)) (collPay r.desc.bytes)) (w.chorusAt r.chorusGen))) (r.env w item)) (w.beginItem
        run item))) (s.tick now))) (halved (aHalf 1 128 [(1, List.replicate 64 7)]) (collState 1 0 0 2 128 0)) (1) (0) (0) (1)
        (.agHalf 1 0 0) (aRun (collDesc 1 0 0)) (collDetail 0 0 0) (66)) = true := by decide +kernel
    obtain ⟨h0, H⟩ := and_of H
    obtain ⟨h2, H⟩ := and_of H
    obtain ⟨h5, H⟩ := and_of H
    obtain ⟨h, h9, H⟩ := of_some H
    obtain ⟨h10, H⟩ := and_of H
    obtain ⟨u, h11, H⟩ := of_okLit H
    obtain ⟨h12, H⟩ := and_of H
    exact ⟨(halved (aHalf 1 128 [(1, List.replicate 64 7)]) (collState 1 0 0 2 128 0)), _, _, 1, 0, 0, 1, _, (.agHalf 1 0 0),
        (aRun (collDesc 1 0 0)), _, _, _, h0, rfl, h2, rfl, rfl, h5, rfl, rfl, rfl, _, _, (collDetail 0 0 0), 66, h9, h10, h11,
        (canEnd_of h12)⟩),
   (by
    have H : ((fun (s : State) (run : Nat) (item : Nat) (now : Nat) (op : Nat) (c : Instr) (r : Run) => decide ((op = 0 ∧
        c = .rsHalf run item now) ∨ (op = 1 ∧ c = .agHalf run item now) ∨ (op = 2 ∧ c = .bcastHalf run item now) ∨ (op = 3 ∧
        c = .barrierHalf run item now) ∨ (op = 4 ∧ c = .gradReduce run item now)) && ((fun (w : State) =>
        decide (w.itemReady 0xB op run item = some r) && ((fun (s0 : State) => (fun (e : ItemEnv) =>
        decide (w.detached = false) && ((fun (i : ChorusImage) => (fun (p : CollPay) => (fun (ranks : Nat) =>
        decide (s0.halfOf e.run e.item = none) && (givesLit () (ItemM.on (collCheck r.desc.bytes op) e s0) s0 &&
        (givesLit () (ItemM.on (collBound r.desc.bytes op r.chorusGen) e s0) s0 && (onSome (s0.rankOf i p.entry s0.member)
        fun (me : Nat) => onOk (ItemM.on (load (p.list + 32 * item) 32) e s0) fun (b : List Byte) (s1 : State) =>
        (fun (x : CollItem) => onOkUnit (ItemM.on (noteCount x.seq) e s1) fun (s2 : State) =>
        decide (s0.collItemOk x op ranks me p = true) && ((fun (h0 : Half) => decide (x.count = 0) && (decide (op ≠ 3) &&
        (decide (canEnd (s2.noteHalf h0 stEmpty) run item r = true) && (true)))) (s0.newHalf e p x r.chorusGen op me))) (collItem
        b))))) ((i.rankSlots p.entry).length)) (collPay r.desc.bytes)) (w.chorusAt r.chorusGen))) (r.env w item)) (w.beginItem run
        item))) (s.tick now))) (collState 0 0 0 2 0 0) (1) (0) (0) (0) (.rsHalf 1 0 0) (aRun (collDesc 0 0 0))) = true :=
        by decide +kernel
    obtain ⟨h0, H⟩ := and_of H
    obtain ⟨h2, H⟩ := and_of H
    obtain ⟨h5, H⟩ := and_of H
    obtain ⟨h9, H⟩ := and_of H
    obtain ⟨h10, H⟩ := and_lit H
    obtain ⟨h11, H⟩ := and_lit H
    obtain ⟨me, h12, H⟩ := of_some H
    obtain ⟨b, s1, h13, H⟩ := of_ok H
    obtain ⟨s2, h15, H⟩ := of_okUnit H
    obtain ⟨h16, H⟩ := and_of H
    obtain ⟨h18, H⟩ := and_of H
    obtain ⟨h19, H⟩ := and_of H
    obtain ⟨h20, H⟩ := and_of H
    exact ⟨(collState 0 0 0 2 0 0), _, _, 1, 0, 0, 0, _, (.rsHalf 1 0 0), (aRun (collDesc 0 0 0)), _, _, _, h0, rfl, h2, rfl,
        rfl, h5, rfl, rfl, rfl, _, _, _, _, _, _, h9, h10, h11, h12, h13, rfl, h15, h16, rfl, h18, h19, (canEnd_of h20)⟩),
   (by
    have H : ((fun (s : State) (run : Nat) (item : Nat) (now : Nat) (op : Nat) (c : Instr) (r : Run) => decide ((op = 0 ∧
        c = .rsHalf run item now) ∨ (op = 1 ∧ c = .agHalf run item now) ∨ (op = 2 ∧ c = .bcastHalf run item now) ∨ (op = 3 ∧
        c = .barrierHalf run item now) ∨ (op = 4 ∧ c = .gradReduce run item now)) && ((fun (w : State) =>
        decide (w.itemReady 0xB op run item = some r) && ((fun (s0 : State) => (fun (e : ItemEnv) =>
        decide (w.detached = false) && ((fun (i : ChorusImage) => (fun (p : CollPay) => (fun (ranks : Nat) =>
        decide (s0.halfOf e.run e.item = none) && (givesLit () (ItemM.on (collCheck r.desc.bytes op) e s0) s0 &&
        (givesLit () (ItemM.on (collBound r.desc.bytes op r.chorusGen) e s0) s0 && (onSome (s0.rankOf i p.entry s0.member)
        fun (me : Nat) => onOk (ItemM.on (load (p.list + 32 * item) 32) e s0) fun (b : List Byte) (s1 : State) =>
        (fun (x : CollItem) => onOkUnit (ItemM.on (noteCount x.seq) e s1) fun (s2 : State) =>
        decide (s0.collItemOk x op ranks me p = true) && ((fun (h0 : Half) => decide (x.count ≠ 0 ∨ op = 3) &&
        (onOk (ItemM.on (ownBytes op me ranks x p) e s2) fun (bs : List Byte) (s3 : State) => decide (p.reducing op = false) &&
        (decide (canEnd (s3.noteHalf h0 stOk) run item r = true) && (true)))) (s0.newHalf e p x r.chorusGen op me))) (collItem
        b))))) ((i.rankSlots p.entry).length)) (collPay r.desc.bytes)) (w.chorusAt r.chorusGen))) (r.env w item)) (w.beginItem run
        item))) (s.tick now))) (collState 4 0 1 2 (2 ^ 20) 0x3000000) (1) (0) (0) (4) (.gradReduce 1 0 0) (aRun (collDesc 4 0 1)))
        = true := by decide +kernel
    obtain ⟨h0, H⟩ := and_of H
    obtain ⟨h2, H⟩ := and_of H
    obtain ⟨h5, H⟩ := and_of H
    obtain ⟨h9, H⟩ := and_of H
    obtain ⟨h10, H⟩ := and_lit H
    obtain ⟨h11, H⟩ := and_lit H
    obtain ⟨me, h12, H⟩ := of_some H
    obtain ⟨b, s1, h13, H⟩ := of_ok H
    obtain ⟨s2, h15, H⟩ := of_okUnit H
    obtain ⟨h16, H⟩ := and_of H
    obtain ⟨h18, H⟩ := and_of H
    obtain ⟨bs, s3, h19, H⟩ := of_ok H
    obtain ⟨h20, H⟩ := and_of H
    obtain ⟨h21, H⟩ := and_of H
    exact ⟨(collState 4 0 1 2 (2 ^ 20) 0x3000000), _, _, 1, 0, 0, 4, _, (.gradReduce 1 0 0), (aRun (collDesc 4 0 1)), _, _, _,
        h0, rfl, h2, rfl, rfl, h5, rfl, rfl, rfl, _, _, _, _, _, _, h9, h10, h11, h12, h13, rfl, h15, h16, rfl, h18, _, _, h19,
        h20, (canEnd_of h21)⟩),
   (by
    have H : ((fun (s : State) (run : Nat) (item : Nat) (now : Nat) (op : Nat) (c : Instr) (r : Run) => decide ((op = 0 ∧
        c = .rsHalf run item now) ∨ (op = 1 ∧ c = .agHalf run item now) ∨ (op = 2 ∧ c = .bcastHalf run item now) ∨ (op = 3 ∧
        c = .barrierHalf run item now) ∨ (op = 4 ∧ c = .gradReduce run item now)) && ((fun (w : State) =>
        decide (w.itemReady 0xB op run item = some r) && ((fun (s0 : State) => (fun (e : ItemEnv) =>
        decide (w.detached = false) && ((fun (i : ChorusImage) => (fun (p : CollPay) => (fun (ranks : Nat) =>
        decide (s0.halfOf e.run e.item = none) && (givesLit () (ItemM.on (collCheck r.desc.bytes op) e s0) s0 &&
        (givesLit () (ItemM.on (collBound r.desc.bytes op r.chorusGen) e s0) s0 && (onSome (s0.rankOf i p.entry s0.member)
        fun (me : Nat) => onOk (ItemM.on (load (p.list + 32 * item) 32) e s0) fun (b : List Byte) (s1 : State) =>
        (fun (x : CollItem) => onOkUnit (ItemM.on (noteCount x.seq) e s1) fun (s2 : State) =>
        decide (s0.collItemOk x op ranks me p = true) && ((fun (h0 : Half) => decide (x.count ≠ 0 ∨ op = 3) &&
        (onOk (ItemM.on (ownBytes op me ranks x p) e s2) fun (bs : List Byte) (s3 : State) => decide (p.reducing op = true) &&
        (onOk (ItemM.on (startHalf h0 (i.rankSlots p.entry) p.root bs) e s3) fun (h : Half) (s4 : State) =>
        decide (h.whole ranks p.root = false) && (true)))) (s0.newHalf e p x r.chorusGen op me))) (collItem b))))) ((i.rankSlots
        p.entry).length)) (collPay r.desc.bytes)) (w.chorusAt r.chorusGen))) (r.env w item)) (w.beginItem run item))) (s.tick
        now))) (collState 3 0 0 2 0 0) (1) (0) (0) (3) (.barrierHalf 1 0 0) (aRun (collDesc 3 0 0))) = true := by decide +kernel
    obtain ⟨h0, H⟩ := and_of H
    obtain ⟨h2, H⟩ := and_of H
    obtain ⟨h5, H⟩ := and_of H
    obtain ⟨h9, H⟩ := and_of H
    obtain ⟨h10, H⟩ := and_lit H
    obtain ⟨h11, H⟩ := and_lit H
    obtain ⟨me, h12, H⟩ := of_some H
    obtain ⟨b, s1, h13, H⟩ := of_ok H
    obtain ⟨s2, h15, H⟩ := of_okUnit H
    obtain ⟨h16, H⟩ := and_of H
    obtain ⟨h18, H⟩ := and_of H
    obtain ⟨bs, s3, h19, H⟩ := of_ok H
    obtain ⟨h20, H⟩ := and_of H
    obtain ⟨h, s4, h21, H⟩ := of_ok H
    obtain ⟨h22, H⟩ := and_of H
    exact ⟨(collState 3 0 0 2 0 0), _, _, 1, 0, 0, 3, _, (.barrierHalf 1 0 0), (aRun (collDesc 3 0 0)), _, _, _, h0, rfl, h2,
        rfl, rfl, h5, rfl, rfl, rfl, _, _, _, _, _, _, h9, h10, h11, h12, h13, rfl, h15, h16, rfl, h18, _, _, h19, _, _, h20, h21,
        h22⟩),
   (by
    have H : ((fun (s : State) (run : Nat) (item : Nat) (now : Nat) (op : Nat) (c : Instr) (r : Run) (dt : Nat) (cy : Nat) =>
        decide ((op = 0 ∧ c = .rsHalf run item now) ∨ (op = 1 ∧ c = .agHalf run item now) ∨ (op = 2 ∧
        c = .bcastHalf run item now) ∨ (op = 3 ∧ c = .barrierHalf run item now) ∨ (op = 4 ∧ c = .gradReduce run item now)) &&
        ((fun (w : State) => decide (w.itemReady 0xB op run item = some r) && ((fun (s0 : State) => (fun (e : ItemEnv) =>
        decide (w.detached = false) && ((fun (i : ChorusImage) => (fun (p : CollPay) => (fun (ranks : Nat) =>
        decide (s0.halfOf e.run e.item = none) && (givesLit () (ItemM.on (collCheck r.desc.bytes op) e s0) s0 &&
        (givesLit () (ItemM.on (collBound r.desc.bytes op r.chorusGen) e s0) s0 && (onSome (s0.rankOf i p.entry s0.member)
        fun (me : Nat) => onOk (ItemM.on (load (p.list + 32 * item) 32) e s0) fun (b : List Byte) (s1 : State) =>
        (fun (x : CollItem) => onOkUnit (ItemM.on (noteCount x.seq) e s1) fun (s2 : State) =>
        decide (s0.collItemOk x op ranks me p = true) && ((fun (h0 : Half) => decide (x.count ≠ 0 ∨ op = 3) &&
        (onOk (ItemM.on (ownBytes op me ranks x p) e s2) fun (bs : List Byte) (s3 : State) => decide (p.reducing op = true) &&
        (onOk (ItemM.on (startHalf h0 (i.rankSlots p.entry) p.root bs) e s3) fun (h : Half) (s4 : State) =>
        decide (h.whole ranks p.root = true) && (onOkLit ⟨stOk, dt, cy⟩ (ItemM.on (finishHalf h ranks p) e s4) fun (u : State) =>
        decide (canEnd u run item r = true) && (true))))) (s0.newHalf e p x r.chorusGen op me))) (collItem b))))) ((i.rankSlots
        p.entry).length)) (collPay r.desc.bytes)) (w.chorusAt r.chorusGen))) (r.env w item)) (w.beginItem run item))) (s.tick
        now))) (collState 0 0 0 1 1 0) (1) (0) (0) (0) (.rsHalf 1 0 0) (aRun (collDesc 0 0 0)) (collDetail 0 0 0) (64)) = true :=
        by decide +kernel
    obtain ⟨h0, H⟩ := and_of H
    obtain ⟨h2, H⟩ := and_of H
    obtain ⟨h5, H⟩ := and_of H
    obtain ⟨h9, H⟩ := and_of H
    obtain ⟨h10, H⟩ := and_lit H
    obtain ⟨h11, H⟩ := and_lit H
    obtain ⟨me, h12, H⟩ := of_some H
    obtain ⟨b, s1, h13, H⟩ := of_ok H
    obtain ⟨s2, h15, H⟩ := of_okUnit H
    obtain ⟨h16, H⟩ := and_of H
    obtain ⟨h18, H⟩ := and_of H
    obtain ⟨bs, s3, h19, H⟩ := of_ok H
    obtain ⟨h20, H⟩ := and_of H
    obtain ⟨h, s4, h21, H⟩ := of_ok H
    obtain ⟨h22, H⟩ := and_of H
    obtain ⟨u, h23, H⟩ := of_okLit H
    obtain ⟨h24, H⟩ := and_of H
    exact ⟨(collState 0 0 0 1 1 0), _, _, 1, 0, 0, 0, _, (.rsHalf 1 0 0), (aRun (collDesc 0 0 0)), _, _, _, h0, rfl, h2, rfl,
        rfl, h5, rfl, rfl, rfl, _, _, _, _, _, _, h9, h10, h11, h12, h13, rfl, h15, h16, rfl, h18, _, _, h19, _, _, h20, h21, _,
        (collDetail 0 0 0), 64, h22, h23, (canEnd_of h24)⟩)⟩

/-- A manifest of member `origin` with one extent of 64 bytes, as it stands before its mirror, or complete. -/
def manifestBytes (origin st crc : Nat) : List Byte :=
  blob 96 [(0, 4, 1), (4, 2, origin), (6, 1, st), (24, 4, crc), (64, 8, 0x4000), (72, 8, 0x8000), (80, 8, 0xC000), (88, 4, 64)]

def mirrorDesc : List Byte := desc 0xB 5 1 [(40, 8, 0x1000), (48, 8, 0x2000)]
def restoreDesc : List Byte := desc 0xB 6 1 [(34, 2, 7), (48, 8, 0x1000)]
def atStage (n : Nat) (d : List Byte) : Run := { aRun d with items := [{ anItem 0 with stage := n }] }
def mirrorState (n : Nat) : State := runs (atStage n mirrorDesc) (place 0x1000 (manifestBytes 0 0 0) (chorused 2))

/-- Member 0 stands in for member 7, whose manifest it holds as its buddy. -/
def restoring : State :=
  let s := runs (aRun restoreDesc) (place 0x1000 (manifestBytes 7 1 0xB0671624) (chorused 2))
  { s with fab := { s.fab with route := { s.fab.route with aliases := [(7, 0)] } } }

/-- States that meet the hypotheses of `Obligations.MirrorsWrittenAndRestored`, one for each clause. -/
theorem witness_MirrorsWrittenAndRestored :
    (∃ (s w s0 s1 s2 u : State) (run item now entry man hdr v buddy slot stage : Nat) (r : Run) (e : ItemEnv) (i :
        ChorusImage) (m : Manifest) (h ext : List Byte), w = s.tick now ∧
      w.itemReady 0xB 5 run item = some r ∧
      s0 = w.beginItem run item ∧
      e = r.env w item ∧
      mirrorEntry.Gives e s0 (entry, i) s0 ∧
      leAt r.desc.bytes 34 6 = 0 ∧
      man = leAt r.desc.bytes 40 8 ∧
      buddyHdr.Gives e s0 hdr s0 ∧
      ((i.rankSlots entry).find? (fun v => s0.slotHeld s0.member v) = some v) ∧
      slotWatched v = true ∧
      w.collRange man 64 = true ∧
      buddy = slotBuddy v ∧
      (load man 64).Gives e s0 h s1 ∧
      m = manifest h ∧
      manifestOk h = true ∧
      m.state = 0 ∧
      m.origin = w.member ∧
      w.collRange man (64 + 32 * m.extents) = true ∧
      (load (man + 64) (32 * m.extents)).Gives e s1 ext s2 ∧
      (∀ k, k < m.extents → extentOk w.collRange ext k = true) ∧
      slot = onBuddy buddy hdr + 65536 * (m.seq % 2) ∧
      itemStage.Gives e s2 stage s2 ∧
      w.waitsAck run item = false ∧
      stage = 0 ∧
      (store (slot + 6) (leBytes 1 0)).Gives e s2 () u) ∧
    (∃ (s w s0 s1 s2 u : State) (run item now entry man hdr v buddy slot stage : Nat) (r : Run) (e : ItemEnv) (i :
        ChorusImage) (m : Manifest) (h ext : List Byte), w = s.tick now ∧
      w.itemReady 0xB 5 run item = some r ∧
      s0 = w.beginItem run item ∧
      e = r.env w item ∧
      mirrorEntry.Gives e s0 (entry, i) s0 ∧
      leAt r.desc.bytes 34 6 = 0 ∧
      man = leAt r.desc.bytes 40 8 ∧
      buddyHdr.Gives e s0 hdr s0 ∧
      ((i.rankSlots entry).find? (fun v => s0.slotHeld s0.member v) = some v) ∧
      slotWatched v = true ∧
      w.collRange man 64 = true ∧
      buddy = slotBuddy v ∧
      (load man 64).Gives e s0 h s1 ∧
      m = manifest h ∧
      manifestOk h = true ∧
      m.state = 0 ∧
      m.origin = w.member ∧
      w.collRange man (64 + 32 * m.extents) = true ∧
      (load (man + 64) (32 * m.extents)).Gives e s1 ext s2 ∧
      (∀ k, k < m.extents → extentOk w.collRange ext k = true) ∧
      slot = onBuddy buddy hdr + 65536 * (m.seq % 2) ∧
      itemStage.Gives e s2 stage s2 ∧
      w.waitsAck run item = false ∧
      stage = 1 ∧
      (mirrorCopy buddy m.seq ext m.extents).Gives e s2 () u) ∧
    (∃ (s w s0 s1 s2 u : State) (run item now entry man hdr v buddy slot stage : Nat) (r : Run) (e : ItemEnv) (i :
        ChorusImage) (m : Manifest) (h ext : List Byte), w = s.tick now ∧
      w.itemReady 0xB 5 run item = some r ∧
      s0 = w.beginItem run item ∧
      e = r.env w item ∧
      mirrorEntry.Gives e s0 (entry, i) s0 ∧
      leAt r.desc.bytes 34 6 = 0 ∧
      man = leAt r.desc.bytes 40 8 ∧
      buddyHdr.Gives e s0 hdr s0 ∧
      ((i.rankSlots entry).find? (fun v => s0.slotHeld s0.member v) = some v) ∧
      slotWatched v = true ∧
      w.collRange man 64 = true ∧
      buddy = slotBuddy v ∧
      (load man 64).Gives e s0 h s1 ∧
      m = manifest h ∧
      manifestOk h = true ∧
      m.state = 0 ∧
      m.origin = w.member ∧
      w.collRange man (64 + 32 * m.extents) = true ∧
      (load (man + 64) (32 * m.extents)).Gives e s1 ext s2 ∧
      (∀ k, k < m.extents → extentOk w.collRange ext k = true) ∧
      slot = onBuddy buddy hdr + 65536 * (m.seq % 2) ∧
      itemStage.Gives e s2 stage s2 ∧
      w.waitsAck run item = false ∧
      stage = 2 ∧
      (store (slot + 64) ext).Gives e s2 () u) ∧
    (∃ (s w s0 s1 s2 u : State) (run item now entry man hdr v buddy slot stage : Nat) (r : Run) (e : ItemEnv) (i :
        ChorusImage) (m : Manifest) (h ext : List Byte), w = s.tick now ∧
      w.itemReady 0xB 5 run item = some r ∧
      s0 = w.beginItem run item ∧
      e = r.env w item ∧
      mirrorEntry.Gives e s0 (entry, i) s0 ∧
      leAt r.desc.bytes 34 6 = 0 ∧
      man = leAt r.desc.bytes 40 8 ∧
      buddyHdr.Gives e s0 hdr s0 ∧
      ((i.rankSlots entry).find? (fun v => s0.slotHeld s0.member v) = some v) ∧
      slotWatched v = true ∧
      w.collRange man 64 = true ∧
      buddy = slotBuddy v ∧
      (load man 64).Gives e s0 h s1 ∧
      m = manifest h ∧
      manifestOk h = true ∧
      m.state = 0 ∧
      m.origin = w.member ∧
      w.collRange man (64 + 32 * m.extents) = true ∧
      (load (man + 64) (32 * m.extents)).Gives e s1 ext s2 ∧
      (∀ k, k < m.extents → extentOk w.collRange ext k = true) ∧
      slot = onBuddy buddy hdr + 65536 * (m.seq % 2) ∧
      itemStage.Gives e s2 stage s2 ∧
      w.waitsAck run item = false ∧
      stage = 3 ∧
      (store slot (mirrorHeader m w.cueNo ext)).Gives e s2 () u ∧
      u.itemOpen run item = true) ∧
    (∃ (s w s0 s1 s2 s3 u : State) (run item now entry lost hdr v : Nat) (r : Run) (e : ItemEnv) (i : ChorusImage) (m :
        Manifest) (ext : List Byte) (a b : Option (Manifest × List Byte)) (parts : List (Extent × List Byte)), w = s.tick now ∧
      w.itemReady 0xB 6 run item = some r ∧
      s0 = w.beginItem run item ∧
      e = r.env w item ∧
      mirrorEntry.Gives e s0 (entry, i) s0 ∧
      leAt r.desc.bytes 36 12 = 0 ∧
      lost = leAt r.desc.bytes 34 2 ∧
      lost < 4096 ∧
      buddyHdr.Gives e s0 hdr s0 ∧
      ((i.rankSlots entry).find? (fun v => slotMember v == lost) = some v) ∧
      slotWatched v = true ∧
      w.mayRestore lost entry = true ∧
      (readSlot (onBuddy (slotBuddy v) hdr) lost).Gives e s0 a s1 ∧
      (readSlot (onBuddy (slotBuddy v) hdr + 65536) lost).Gives e s1 b s2 ∧
      bestSlot a b = some (m, ext) ∧
      (bankParts (slotBuddy v) m ext).Gives e s2 parts s3 ∧
      (∀ q ∈ parts, w.collRange (onBuddy w.member q.1.addr) q.1.len = true) ∧
      (storeParts w.member parts).Gives e s3 () u ∧
      u.CanEnd run item r) :=
  ⟨(by
    have H : ((fun (s : State) (run : Nat) (item : Nat) (now : Nat) (stage : Nat) (r : Run) => (fun (w : State) =>
        decide (w.itemReady 0xB 5 run item = some r) && ((fun (s0 : State) => (fun (e : ItemEnv) =>
        onOkSame (ItemM.on mirrorEntry e s0) s0 fun x => (fun (entry : Nat) (i : ChorusImage) =>
        decide (leAt r.desc.bytes 34 6 = 0) && ((fun (man : Nat) => onOkSame (ItemM.on buddyHdr e s0) s0 fun (hdr : Nat) =>
        onSome ((i.rankSlots entry).find? (fun v => s0.slotHeld s0.member v)) fun (v : Nat) => decide (slotWatched v = true) &&
        (decide (w.collRange man 64 = true) && ((fun (buddy : Nat) => onOk (ItemM.on (load man 64) e s0)
        fun (h : List Byte) (s1 : State) => (fun (m : Manifest) => decide (manifestOk h = true) && (decide (m.state = 0) &&
        (decide (m.origin = w.member) && (decide (w.collRange man (64 + 32 * m.extents) = true) &&
        (onOk (ItemM.on (load (man + 64) (32 * m.extents)) e s1) fun (ext : List Byte) (s2 : State) =>
        decide (((List.range (m.extents)).all fun k => decide (extentOk w.collRange ext k = true)) = true) &&
        ((fun (slot : Nat) => givesLit stage (ItemM.on itemStage e s2) s2 && (decide (w.waitsAck run item = false) &&
        (decide (stage = 0) && (onOkUnit (ItemM.on (store (slot + 6) (leBytes 1 0)) e s2) fun (u : State) =>
        true)))) (onBuddy buddy hdr + 65536 * (m.seq % 2)))))))) (manifest h)) (slotBuddy v)))) (leAt r.desc.bytes 40 8))) x.1
        x.2) (r.env w item)) (w.beginItem run item))) (s.tick now)) (mirrorState 0) (1) (0) (0) (0) (atStage 0 mirrorDesc)) = true
        := by decide +kernel
    obtain ⟨h1, H⟩ := and_of H
    obtain ⟨⟨entry, i⟩, h4, H⟩ := of_okSame H
    obtain ⟨h5, H⟩ := and_of H
    obtain ⟨hdr, h7, H⟩ := of_okSame H
    obtain ⟨v, h8, H⟩ := of_some H
    obtain ⟨h9, H⟩ := and_of H
    obtain ⟨h10, H⟩ := and_of H
    obtain ⟨h, s1, h12, H⟩ := of_ok H
    obtain ⟨h14, H⟩ := and_of H
    obtain ⟨h15, H⟩ := and_of H
    obtain ⟨h16, H⟩ := and_of H
    obtain ⟨h17, H⟩ := and_of H
    obtain ⟨ext, s2, h18, H⟩ := of_ok H
    obtain ⟨h19, H⟩ := and_of H
    obtain ⟨h21, H⟩ := and_lit H
    obtain ⟨h22, H⟩ := and_of H
    obtain ⟨h23, H⟩ := and_of H
    obtain ⟨u, h24, H⟩ := of_okUnit H
    exact ⟨(mirrorState 0), _, _, _, _, _, 1, 0, 0, _, _, _, _, _, _, 0, (atStage 0 mirrorDesc), _, _, _, _, _, rfl, h1, rfl,
        rfl, h4, h5, rfl, h7, h8, h9, h10, rfl, h12, rfl, h14, h15, h16, h17, h18, (below_of h19), rfl, h21, h22, h23, h24⟩),
   (by
    have H : ((fun (s : State) (run : Nat) (item : Nat) (now : Nat) (stage : Nat) (r : Run) => (fun (w : State) =>
        decide (w.itemReady 0xB 5 run item = some r) && ((fun (s0 : State) => (fun (e : ItemEnv) =>
        onOkSame (ItemM.on mirrorEntry e s0) s0 fun x => (fun (entry : Nat) (i : ChorusImage) =>
        decide (leAt r.desc.bytes 34 6 = 0) && ((fun (man : Nat) => onOkSame (ItemM.on buddyHdr e s0) s0 fun (hdr : Nat) =>
        onSome ((i.rankSlots entry).find? (fun v => s0.slotHeld s0.member v)) fun (v : Nat) => decide (slotWatched v = true) &&
        (decide (w.collRange man 64 = true) && ((fun (buddy : Nat) => onOk (ItemM.on (load man 64) e s0)
        fun (h : List Byte) (s1 : State) => (fun (m : Manifest) => decide (manifestOk h = true) && (decide (m.state = 0) &&
        (decide (m.origin = w.member) && (decide (w.collRange man (64 + 32 * m.extents) = true) &&
        (onOk (ItemM.on (load (man + 64) (32 * m.extents)) e s1) fun (ext : List Byte) (s2 : State) =>
        decide (((List.range (m.extents)).all fun k => decide (extentOk w.collRange ext k = true)) = true) &&
        ((fun (slot : Nat) => givesLit stage (ItemM.on itemStage e s2) s2 && (decide (w.waitsAck run item = false) &&
        (decide (stage = 1) && (onOkUnit (ItemM.on (mirrorCopy buddy m.seq ext m.extents) e s2) fun (u : State) =>
        true)))) (onBuddy buddy hdr + 65536 * (m.seq % 2)))))))) (manifest h)) (slotBuddy v)))) (leAt r.desc.bytes 40 8))) x.1
        x.2) (r.env w item)) (w.beginItem run item))) (s.tick now)) (mirrorState 1) (1) (0) (0) (1) (atStage 1 mirrorDesc)) = true
        := by decide +kernel
    obtain ⟨h1, H⟩ := and_of H
    obtain ⟨⟨entry, i⟩, h4, H⟩ := of_okSame H
    obtain ⟨h5, H⟩ := and_of H
    obtain ⟨hdr, h7, H⟩ := of_okSame H
    obtain ⟨v, h8, H⟩ := of_some H
    obtain ⟨h9, H⟩ := and_of H
    obtain ⟨h10, H⟩ := and_of H
    obtain ⟨h, s1, h12, H⟩ := of_ok H
    obtain ⟨h14, H⟩ := and_of H
    obtain ⟨h15, H⟩ := and_of H
    obtain ⟨h16, H⟩ := and_of H
    obtain ⟨h17, H⟩ := and_of H
    obtain ⟨ext, s2, h18, H⟩ := of_ok H
    obtain ⟨h19, H⟩ := and_of H
    obtain ⟨h21, H⟩ := and_lit H
    obtain ⟨h22, H⟩ := and_of H
    obtain ⟨h23, H⟩ := and_of H
    obtain ⟨u, h24, H⟩ := of_okUnit H
    exact ⟨(mirrorState 1), _, _, _, _, _, 1, 0, 0, _, _, _, _, _, _, 1, (atStage 1 mirrorDesc), _, _, _, _, _, rfl, h1, rfl,
        rfl, h4, h5, rfl, h7, h8, h9, h10, rfl, h12, rfl, h14, h15, h16, h17, h18, (below_of h19), rfl, h21, h22, h23, h24⟩),
   (by
    have H : ((fun (s : State) (run : Nat) (item : Nat) (now : Nat) (stage : Nat) (r : Run) => (fun (w : State) =>
        decide (w.itemReady 0xB 5 run item = some r) && ((fun (s0 : State) => (fun (e : ItemEnv) =>
        onOkSame (ItemM.on mirrorEntry e s0) s0 fun x => (fun (entry : Nat) (i : ChorusImage) =>
        decide (leAt r.desc.bytes 34 6 = 0) && ((fun (man : Nat) => onOkSame (ItemM.on buddyHdr e s0) s0 fun (hdr : Nat) =>
        onSome ((i.rankSlots entry).find? (fun v => s0.slotHeld s0.member v)) fun (v : Nat) => decide (slotWatched v = true) &&
        (decide (w.collRange man 64 = true) && ((fun (buddy : Nat) => onOk (ItemM.on (load man 64) e s0)
        fun (h : List Byte) (s1 : State) => (fun (m : Manifest) => decide (manifestOk h = true) && (decide (m.state = 0) &&
        (decide (m.origin = w.member) && (decide (w.collRange man (64 + 32 * m.extents) = true) &&
        (onOk (ItemM.on (load (man + 64) (32 * m.extents)) e s1) fun (ext : List Byte) (s2 : State) =>
        decide (((List.range (m.extents)).all fun k => decide (extentOk w.collRange ext k = true)) = true) &&
        ((fun (slot : Nat) => givesLit stage (ItemM.on itemStage e s2) s2 && (decide (w.waitsAck run item = false) &&
        (decide (stage = 2) && (onOkUnit (ItemM.on (store (slot + 64) ext) e s2) fun (u : State) =>
        true)))) (onBuddy buddy hdr + 65536 * (m.seq % 2)))))))) (manifest h)) (slotBuddy v)))) (leAt r.desc.bytes 40 8))) x.1
        x.2) (r.env w item)) (w.beginItem run item))) (s.tick now)) (mirrorState 2) (1) (0) (0) (2) (atStage 2 mirrorDesc)) = true
        := by decide +kernel
    obtain ⟨h1, H⟩ := and_of H
    obtain ⟨⟨entry, i⟩, h4, H⟩ := of_okSame H
    obtain ⟨h5, H⟩ := and_of H
    obtain ⟨hdr, h7, H⟩ := of_okSame H
    obtain ⟨v, h8, H⟩ := of_some H
    obtain ⟨h9, H⟩ := and_of H
    obtain ⟨h10, H⟩ := and_of H
    obtain ⟨h, s1, h12, H⟩ := of_ok H
    obtain ⟨h14, H⟩ := and_of H
    obtain ⟨h15, H⟩ := and_of H
    obtain ⟨h16, H⟩ := and_of H
    obtain ⟨h17, H⟩ := and_of H
    obtain ⟨ext, s2, h18, H⟩ := of_ok H
    obtain ⟨h19, H⟩ := and_of H
    obtain ⟨h21, H⟩ := and_lit H
    obtain ⟨h22, H⟩ := and_of H
    obtain ⟨h23, H⟩ := and_of H
    obtain ⟨u, h24, H⟩ := of_okUnit H
    exact ⟨(mirrorState 2), _, _, _, _, _, 1, 0, 0, _, _, _, _, _, _, 2, (atStage 2 mirrorDesc), _, _, _, _, _, rfl, h1, rfl,
        rfl, h4, h5, rfl, h7, h8, h9, h10, rfl, h12, rfl, h14, h15, h16, h17, h18, (below_of h19), rfl, h21, h22, h23, h24⟩),
   (by
    have H : ((fun (s : State) (run : Nat) (item : Nat) (now : Nat) (stage : Nat) (r : Run) => (fun (w : State) =>
        decide (w.itemReady 0xB 5 run item = some r) && ((fun (s0 : State) => (fun (e : ItemEnv) =>
        onOkSame (ItemM.on mirrorEntry e s0) s0 fun x => (fun (entry : Nat) (i : ChorusImage) =>
        decide (leAt r.desc.bytes 34 6 = 0) && ((fun (man : Nat) => onOkSame (ItemM.on buddyHdr e s0) s0 fun (hdr : Nat) =>
        onSome ((i.rankSlots entry).find? (fun v => s0.slotHeld s0.member v)) fun (v : Nat) => decide (slotWatched v = true) &&
        (decide (w.collRange man 64 = true) && ((fun (buddy : Nat) => onOk (ItemM.on (load man 64) e s0)
        fun (h : List Byte) (s1 : State) => (fun (m : Manifest) => decide (manifestOk h = true) && (decide (m.state = 0) &&
        (decide (m.origin = w.member) && (decide (w.collRange man (64 + 32 * m.extents) = true) &&
        (onOk (ItemM.on (load (man + 64) (32 * m.extents)) e s1) fun (ext : List Byte) (s2 : State) =>
        decide (((List.range (m.extents)).all fun k => decide (extentOk w.collRange ext k = true)) = true) &&
        ((fun (slot : Nat) => givesLit stage (ItemM.on itemStage e s2) s2 && (decide (w.waitsAck run item = false) &&
        (decide (stage = 3) && (onOkUnit (ItemM.on (store slot (mirrorHeader m w.cueNo ext)) e s2) fun (u : State) =>
        decide (u.itemOpen run item = true) && (true))))) (onBuddy buddy hdr + 65536 * (m.seq % 2)))))))) (manifest h)) (slotBuddy
        v)))) (leAt r.desc.bytes 40 8))) x.1 x.2) (r.env w item)) (w.beginItem run item))) (s.tick now)) (mirrorState 3) (1) (0)
        (0) (3) (atStage 3 mirrorDesc)) = true := by decide +kernel
    obtain ⟨h1, H⟩ := and_of H
    obtain ⟨⟨entry, i⟩, h4, H⟩ := of_okSame H
    obtain ⟨h5, H⟩ := and_of H
    obtain ⟨hdr, h7, H⟩ := of_okSame H
    obtain ⟨v, h8, H⟩ := of_some H
    obtain ⟨h9, H⟩ := and_of H
    obtain ⟨h10, H⟩ := and_of H
    obtain ⟨h, s1, h12, H⟩ := of_ok H
    obtain ⟨h14, H⟩ := and_of H
    obtain ⟨h15, H⟩ := and_of H
    obtain ⟨h16, H⟩ := and_of H
    obtain ⟨h17, H⟩ := and_of H
    obtain ⟨ext, s2, h18, H⟩ := of_ok H
    obtain ⟨h19, H⟩ := and_of H
    obtain ⟨h21, H⟩ := and_lit H
    obtain ⟨h22, H⟩ := and_of H
    obtain ⟨h23, H⟩ := and_of H
    obtain ⟨u, h24, H⟩ := of_okUnit H
    obtain ⟨h25, H⟩ := and_of H
    exact ⟨(mirrorState 3), _, _, _, _, _, 1, 0, 0, _, _, _, _, _, _, 3, (atStage 3 mirrorDesc), _, _, _, _, _, rfl, h1, rfl,
        rfl, h4, h5, rfl, h7, h8, h9, h10, rfl, h12, rfl, h14, h15, h16, h17, h18, (below_of h19), rfl, h21, h22, h23, h24, h25⟩),
   (by
    have H : ((fun (s : State) (run : Nat) (item : Nat) (now : Nat) (r : Run) => (fun (w : State) =>
        decide (w.itemReady 0xB 6 run item = some r) && ((fun (s0 : State) => (fun (e : ItemEnv) =>
        onOkSame (ItemM.on mirrorEntry e s0) s0 fun x => (fun (entry : Nat) (i : ChorusImage) =>
        decide (leAt r.desc.bytes 36 12 = 0) && ((fun (lost : Nat) => decide (lost < 4096) &&
        (onOkSame (ItemM.on buddyHdr e s0) s0 fun (hdr : Nat) => onSome ((i.rankSlots entry).find? (fun v =>
        slotMember v == lost)) fun (v : Nat) => decide (slotWatched v = true) && (decide (w.mayRestore lost entry = true) &&
        (onOk (ItemM.on (readSlot (onBuddy (slotBuddy v) hdr) lost) e s0) fun (a : Option (Manifest × List Byte)) (s1 : State) =>
        onOk (ItemM.on (readSlot (onBuddy (slotBuddy v) hdr + 65536) lost) e s1) fun (b : Option (Manifest × List Byte)) (s2 :
        State) => onSome (bestSlot a b) fun x => (fun (m : Manifest) (ext : List Byte) =>
        onOk (ItemM.on (bankParts (slotBuddy v) m ext) e s2) fun (parts : List (Extent × List Byte)) (s3 : State) =>
        decide ((∀ q ∈ parts, w.collRange (onBuddy w.member q.1.addr) q.1.len = true)) &&
        (onOkUnit (ItemM.on (storeParts w.member parts) e s3) fun (u : State) => decide (canEnd u run item r = true) &&
        (true))) x.1 x.2)))) (leAt r.desc.bytes 34 2))) x.1 x.2) (r.env w item)) (w.beginItem run item))) (s.tick now))
        (restoring) (1) (0) (0) (aRun restoreDesc)) = true := by decide +kernel
    obtain ⟨h1, H⟩ := and_of H
    obtain ⟨⟨entry, i⟩, h4, H⟩ := of_okSame H
    obtain ⟨h5, H⟩ := and_of H
    obtain ⟨h7, H⟩ := and_of H
    obtain ⟨hdr, h8, H⟩ := of_okSame H
    obtain ⟨v, h9, H⟩ := of_some H
    obtain ⟨h10, H⟩ := and_of H
    obtain ⟨h11, H⟩ := and_of H
    obtain ⟨a, s1, h12, H⟩ := of_ok H
    obtain ⟨b, s2, h13, H⟩ := of_ok H
    obtain ⟨⟨m, ext⟩, h14, H⟩ := of_some H
    obtain ⟨parts, s3, h15, H⟩ := of_ok H
    obtain ⟨h16, H⟩ := and_of H
    obtain ⟨u, h17, H⟩ := of_okUnit H
    obtain ⟨h18, H⟩ := and_of H
    exact ⟨restoring, _, _, _, _, _, _, 1, 0, 0, _, _, _, _, (aRun restoreDesc), _, _, _, _, _, _, _, rfl, h1, rfl, rfl, h4,
        h5, rfl, h7, h8, h9, h10, h11, h12, h13, h14, h15, h16, h17, (canEnd_of h18)⟩)⟩

/-- A packet of rank 1 for the half of context 0, entry 0 with sequence number `q`. -/
def aPacket (q : Nat) : CollPacket :=
  { src := 7, rank := 1, context := 0, entry := 0, seq := q, gen := 0, op := 1, count := 128, fmt := 0, tag := 3, fabGen := 0,
    data := List.replicate 64 7 }

/-- Member 7 is lost, and this member is the first candidate for it. -/
def awaited : State :=
  { chorused 2 with coll := { (chorused 2).coll with takeovers := [{ lost := 7, entry := 0, cue := 0, acted := false }] } }

/-- The half of `AG_HALF` under way, its sequence number noted. -/
def noted : State :=
  halved (aHalf 1 128 [(0, [])])
    (runs { aRun (collDesc 1 0 0) with items := [{ anItem 0 with noted := [(nkCount, [0])] }] } (collState 1 0 0 2 128 0))

def endedAt (q st : Nat) (s : State) : State := { s with coll := { s.coll with ended := [(0, q, st)] } }

/-- States that meet the hypotheses of `Obligations.PacketsMeetTheirHalves`, one for each clause. -/
theorem witness_PacketsMeetTheirHalves :
    (∃ (s u : State) (k : CollPacket) (q : Packet), s.ctxGen k.context = k.fabGen ∧
      k.fabGen < 256 ∧
      s.powerState ≠ 3 ∧
      s.flag (ctxCtrlEn k.context) = true ∧
      u = s.dropHeld ∧
      q = collRequest k u.member ∧
      (∀ y, u.lastEnded k.context k.entry = some y → seqAbove k.seq y.1 = true ∧ k.seq ≠ y.1) ∧
      (u.coll.halves.find? (fun h => meetsHalf k h) = none) ∧
      u.earlyBytes + k.data.length ≤ 64 * MiB) ∧
    (∃ (s u : State) (k : CollPacket) (q : Packet), s.ctxGen k.context = k.fabGen ∧
      k.fabGen < 256 ∧
      s.powerState ≠ 3 ∧
      s.flag (ctxCtrlEn k.context) = true ∧
      u = s.dropHeld ∧
      q = collRequest k u.member ∧
      (∀ y, u.lastEnded k.context k.entry = some y → seqAbove k.seq y.1 = true ∧ k.seq ≠ y.1) ∧
      ∃ (h : Half), (u.coll.halves.find? (fun h => meetsHalf k h) = some h) ∧
      h.skew k = 0) ∧
    (∃ (s : State) (k : CollPacket) (q st : Nat), s.ctxGen k.context = k.fabGen ∧
      k.fabGen < 256 ∧
      s.powerState ≠ 3 ∧
      s.flag (ctxCtrlEn k.context) = true ∧
      s.dropHeld.lastEnded k.context k.entry = some (q, st) ∧
      seqAbove k.seq q = false ∧
      ¬(k.seq = q ∧ 0x10 ≤ st)) ∧
    (∃ (s : State) (run item k : Nat) (h : Half) (r : Run) (y : Item) (slots : List Nat), s.halfOf run item = some h ∧
      s.findRun run = some r ∧
      slots = (s.chorusAt h.gen).rankSlots h.entry ∧
      ((if h.op = 2 then [(collPay r.desc.bytes).root] else List.range slots.length).find? (fun k => !(h.got.any fun g =>
          g.1 == k)) = some k) ∧
      (collPay r.desc.bytes).wait ≤ h.waited ∧
      hdrClass r.desc.bytes = 0xB ∧
      s.itemOpen run item = true ∧
      s.itemOf run item = some y ∧
      y.note nkCount = [h.seq]) ∧
    (∃ (s w : State) (lost entry now k : Nat) (x : Takeover), w = s.tick now ∧
      (w.coll.takeovers.find? (fun t => t.lost == lost && t.entry == entry) = some x) ∧
      ((w.candidates entry).findIdx? (fun u => u == w.member) = some k) ∧
      x.acted = false ∧
      w.muted = false ∧
      x.cue + 3 * k ≤ w.cueNo ∧
      (∀ a ∈ w.fab.route.aliases, a.1 ≠ lost) ∧
      (∀ a ∈ w.announcedPairs, a.1 ≠ lost)) :=
  ⟨(by
    have H : ((fun (s : State) (k : CollPacket) => decide (s.ctxGen k.context = k.fabGen) && (decide (k.fabGen < 256) &&
        (decide (s.powerState ≠ 3) && (decide (s.flag (ctxCtrlEn k.context) = true) && ((fun (u : State) => (fun (q : Packet) =>
        decide ((u.lastEnded k.context k.entry).all (fun y => decide (seqAbove k.seq y.1 = true ∧ k.seq ≠ y.1)) = true) &&
        (decide (u.coll.halves.find? (fun h => meetsHalf k h) = none) && (decide (u.earlyBytes + k.data.length ≤ 64 * MiB) &&
        (true)))) (collRequest k u.member)) (s.dropHeld)))))) (endedAt (2 ^ 32 - 1) 0 (chorused 2)) (aPacket 0)) = true :=
        by decide +kernel
    obtain ⟨h0, H⟩ := and_of H
    obtain ⟨h1, H⟩ := and_of H
    obtain ⟨h2, H⟩ := and_of H
    obtain ⟨h3, H⟩ := and_of H
    obtain ⟨h6, H⟩ := and_of H
    obtain ⟨h7, H⟩ := and_of H
    obtain ⟨h8, H⟩ := and_of H
    exact ⟨(endedAt (2 ^ 32 - 1) 0 (chorused 2)), _, (aPacket 0), _, h0, h1, h2, h3, rfl, rfl, (forall_some h6), h7, h8⟩),
   (by
    have H : ((fun (s : State) (k : CollPacket) => decide (s.ctxGen k.context = k.fabGen) && (decide (k.fabGen < 256) &&
        (decide (s.powerState ≠ 3) && (decide (s.flag (ctxCtrlEn k.context) = true) && ((fun (u : State) => (fun (q : Packet) =>
        decide ((u.lastEnded k.context k.entry).all (fun y => decide (seqAbove k.seq y.1 = true ∧ k.seq ≠ y.1)) = true) &&
        (onSome (u.coll.halves.find? (fun h => meetsHalf k h)) fun (h : Half) => decide (h.skew k = 0) &&
        (true))) (collRequest k u.member)) (s.dropHeld)))))) (endedAt (2 ^ 32 - 1) 0 (halved (aHalf 1 128 []) (collState 1 0 0 2
        128 0))) (aPacket 0)) = true := by decide +kernel
    obtain ⟨h0, H⟩ := and_of H
    obtain ⟨h1, H⟩ := and_of H
    obtain ⟨h2, H⟩ := and_of H
    obtain ⟨h3, H⟩ := and_of H
    obtain ⟨h6, H⟩ := and_of H
    obtain ⟨h, h7, H⟩ := of_some H
    obtain ⟨h8, H⟩ := and_of H
    exact ⟨(endedAt (2 ^ 32 - 1) 0 (halved (aHalf 1 128 []) (collState 1 0 0 2 128 0))), _, (aPacket 0), _, h0, h1, h2, h3,
        rfl, rfl, (forall_some h6), _, h7, h8⟩),
   (by
    have H : ((fun (s : State) (k : CollPacket) => decide (s.ctxGen k.context = k.fabGen) && (decide (k.fabGen < 256) &&
        (decide (s.powerState ≠ 3) && (decide (s.flag (ctxCtrlEn k.context) = true) &&
        (onSome (s.dropHeld.lastEnded k.context k.entry) fun x => (fun (q : Nat) (st : Nat) =>
        decide (seqAbove k.seq q = false) && (decide (¬(k.seq = q ∧ 0x10 ≤ st)) &&
        (true))) x.1 x.2))))) (endedAt 0 0 (chorused 2)) (aPacket 0)) = true := by decide +kernel
    obtain ⟨h0, H⟩ := and_of H
    obtain ⟨h1, H⟩ := and_of H
    obtain ⟨h2, H⟩ := and_of H
    obtain ⟨h3, H⟩ := and_of H
    obtain ⟨⟨q, st⟩, h4, H⟩ := of_some H
    obtain ⟨h5, H⟩ := and_of H
    obtain ⟨h6, H⟩ := and_of H
    exact ⟨(endedAt 0 0 (chorused 2)), (aPacket 0), _, _, h0, h1, h2, h3, h4, h5, h6⟩),
   (by
    have H : ((fun (s : State) (run : Nat) (item : Nat) => onSome (s.halfOf run item) fun (h : Half) => onSome (s.findRun run)
        fun (r : Run) => (fun (slots : List Nat) => onSome ((if h.op = 2 then [(collPay r.desc.bytes).root] else List.range
        slots.length).find? (fun k => !(h.got.any fun g => g.1 == k))) fun (k : Nat) =>
        decide ((collPay r.desc.bytes).wait ≤ h.waited) && (decide (hdrClass r.desc.bytes = 0xB) &&
        (decide (s.itemOpen run item = true) && (onSome (s.itemOf run item) fun (y : Item) => decide (y.note nkCount = [h.seq]) &&
        (true))))) ((s.chorusAt h.gen).rankSlots h.entry)) (noted) (1) (0)) = true := by decide +kernel
    obtain ⟨h, h0, H⟩ := of_some H
    obtain ⟨r, h1, H⟩ := of_some H
    obtain ⟨k, h3, H⟩ := of_some H
    obtain ⟨h4, H⟩ := and_of H
    obtain ⟨h5, H⟩ := and_of H
    obtain ⟨h6, H⟩ := and_of H
    obtain ⟨y, h7, H⟩ := of_some H
    obtain ⟨h8, H⟩ := and_of H
    exact ⟨noted, 1, 0, _, _, _, _, _, h0, h1, rfl, h3, h4, h5, h6, h7, h8⟩),
   (by
    have H : ((fun (s : State) (lost : Nat) (entry : Nat) (now : Nat) => (fun (w : State) =>
        onSome (w.coll.takeovers.find? (fun t => t.lost == lost && t.entry == entry)) fun (x : Takeover) =>
        onSome ((w.candidates entry).findIdx? (fun u => u == w.member)) fun (k : Nat) => decide (x.acted = false) &&
        (decide (w.muted = false) && (decide (x.cue + 3 * k ≤ w.cueNo) && (decide ((∀ a ∈ w.fab.route.aliases, a.1 ≠ lost)) &&
        (decide ((∀ a ∈ w.announcedPairs, a.1 ≠ lost)) && (true)))))) (s.tick now)) (awaited) (7) (0) (0)) = true :=
        by decide +kernel
    obtain ⟨x, h1, H⟩ := of_some H
    obtain ⟨k, h2, H⟩ := of_some H
    obtain ⟨h3, H⟩ := and_of H
    obtain ⟨h4, H⟩ := and_of H
    obtain ⟨h5, H⟩ := and_of H
    obtain ⟨h6, H⟩ := and_of H
    obtain ⟨h7, H⟩ := and_of H
    exact ⟨awaited, _, 7, 0, 0, _, _, rfl, h1, h2, h3, h4, h5, h6, h7⟩)⟩

end Sys2Proof.Tests
end

