-- ==== Sys2Proof/Tests/Witness09.lean ====
section
/-! SUPPORT. States that meet the hypotheses of the statements. -/

set_option Elab.async false
namespace Sys2Proof.Tests
open Sys2Proof.Machine

/-- A switch as a port's peer. -/
def aSwitch : PeerInfo := { isSwitch := true, member := 0, port := 3, lanes := 4, delayNs := 9 }

/-- `routed` with port 11 as given. -/
def ported (p : Port) : State := { routed with fab := { routed.fab with ports := [(11, p)] } }

/-- States that meet the hypotheses of `Obligations.PortsTrainAndGoDown`, one for each clause. -/
theorem witness_PortsTrainAndGoDown :
    (∃ (s : State) (n : Nat) (v : BitVec 32), n < 12 ∧
      s.hostServes (rFabPortCtrl n) = true ∧
      s.isSealed = false ∧
      s.flag (fabPortCtrlEn n) = false ∧
      bit v.toNat 0 = true) ∧
    (∃ (s w : State) (n now : Nat) (p : PeerInfo), n < 12 ∧
      w = s.tick now ∧
      (w.portState n = 0 ∨ w.portState n = 1) ∧
      (p.isSwitch = true ∨ p.member ≠ w.member) ∧
      p.member < 4096 ∧
      p.port < 16 ∧
      (4 ≤ p.lanes ∨ (2 ≤ p.lanes ∧ w.flag (fabPortCtrlDegradeEn n) = true))) ∧
    (∃ (s w : State) (n now : Nat), w = s.tick now ∧
      w.linkUp2 n = true ∧
      (8 ≤ (w.port n).failedReplays ∨ (w.port n).lastGood + 2000 ≤ w.now)) ∧
    (∃ (s w : State) (n now : Nat), n < 12 ∧
      w = s.tick now ∧
      w.portUp n = true ∧
      ((w.port n).lastGood + 20000 ≤ w.now ∨ 3 ≤ (recentRetrains (w.port n).retrains w.now).length)) :=
  ⟨(by
    have H : ((fun (s : State) (n : Nat) (v : BitVec 32) => decide (n < 12) &&
        (decide (s.hostServes (rFabPortCtrl n) = true) && (decide (s.isSealed = false) &&
        (decide (s.flag (fabPortCtrlEn n) = false) && (decide (bit v.toNat 0 = true) && (true)))))) (booted) (0) (1)) = true :=
        by decide +kernel
    obtain ⟨h0, H⟩ := and_of H
    obtain ⟨h1, H⟩ := and_of H
    obtain ⟨h2, H⟩ := and_of H
    obtain ⟨h3, H⟩ := and_of H
    obtain ⟨h4, H⟩ := and_of H
    exact ⟨booted, 0, 1, h0, h1, h2, h3, h4⟩),
   (by
    have H : ((fun (s : State) (n : Nat) (now : Nat) (p : PeerInfo) => decide (n < 12) && ((fun (w : State) =>
        decide (w.portState n = 0 ∨ w.portState n = 1) && (decide (p.isSwitch = true ∨ p.member ≠ w.member) &&
        (decide (p.member < 4096) && (decide (p.port < 16) && (decide (4 ≤ p.lanes ∨ (2 ≤ p.lanes ∧
        w.flag (fabPortCtrlDegradeEn n) = true)) && (true)))))) (s.tick now))) (sets [(fabPortCtrlEn 0, 1), (fabPortStatusState 0,
        1)] device) (0) (5) (aSwitch)) = true := by decide +kernel
    obtain ⟨h0, H⟩ := and_of H
    obtain ⟨h2, H⟩ := and_of H
    obtain ⟨h3, H⟩ := and_of H
    obtain ⟨h4, H⟩ := and_of H
    obtain ⟨h5, H⟩ := and_of H
    obtain ⟨h6, H⟩ := and_of H
    exact ⟨(sets [(fabPortCtrlEn 0, 1), (fabPortStatusState 0, 1)] device), _, 0, 5, aSwitch, h0, rfl, h2, h3, h4, h5, h6⟩),
   (by
    have H : ((fun (s : State) (n : Nat) (now : Nat) => (fun (w : State) => decide (w.linkUp2 n = true) &&
        (decide (8 ≤ (w.port n).failedReplays ∨ (w.port n).lastGood + 2000 ≤ w.now) &&
        (true))) (s.tick now)) (routed) (11) (2000)) = true := by decide +kernel
    obtain ⟨h1, H⟩ := and_of H
    obtain ⟨h2, H⟩ := and_of H
    exact ⟨routed, _, 11, 2000, rfl, h1, h2⟩),
   (by
    have H : ((fun (s : State) (n : Nat) (now : Nat) => decide (n < 12) && ((fun (w : State) => decide (w.portUp n = true) &&
        (decide ((w.port n).lastGood + 20000 ≤ w.now ∨ 3 ≤ (recentRetrains (w.port n).retrains w.now).length) &&
        (true))) (s.tick now))) (routed) (11) (20000)) = true := by decide +kernel
    obtain ⟨h0, H⟩ := and_of H
    obtain ⟨h2, H⟩ := and_of H
    obtain ⟨h3, H⟩ := and_of H
    exact ⟨routed, _, 11, 20000, h0, rfl, h2, h3⟩)⟩

/-- A flit. -/
def aFlit (ctrl crcOk : Bool) (ack : Option Nat) : FlitIn :=
  { vc := 0, ctrl := ctrl, seq := 0, crcOk := crcOk, ack := ack, nak := none, credits := [], content := [] }

/-- `routed` with a register of port 11 set. -/
def port11 (st : Nat) (p : Port) : State := sets [(fabPortStatusState 11, st), (fabPortCtrlDegradeEn 11, 1)] (ported p)

/-- States that meet the hypotheses of `Obligations.LinksCarryFlits`, one for each clause. -/
theorem witness_LinksCarryFlits :
    (∃ (s w : State) (n now : Nat) (f : FlitIn), w = s.tick now ∧
      w.linkUp2 n = true ∧
      f.crcOk = false) ∧
    (∃ (s w : State) (n now : Nat) (f : FlitIn), w = s.tick now ∧
      w.linkUp2 n = true ∧
      f.crcOk = true ∧
      f.ctrl = false ∧
      f.seq = (w.port n).rxSeq) ∧
    (∃ (s w : State) (n now : Nat) (f : FlitIn), w = s.tick now ∧
      w.linkUp2 n = true ∧
      ∃ a, f.crcOk = true ∧
      f.ctrl = true ∧
      f.ack = some a ∧
      f.nak = none ∧
      (w.port n).queue = []) ∧
    (∃ (s : State) (n : Nat), s.linkUp2 n = true ∧
      (s.port n).unacked ≠ 0) ∧
    (∃ (s w : State) (n lane now : Nat), w = s.tick now ∧
      w.portState n = 2 ∧
      lane < 4 ∧
      lane ∉ (w.port n).badLanes ∧
      (w.port n).paused = false ∧
      w.flag (fabPortCtrlDegradeEn n) = true) ∧
    (∃ (s : State) (n : Nat), n < 12 ∧
      (s.port n).paused = true) ∧
    (∃ (s : State) (n : Nat) (v : BitVec 32), n < 12 ∧
      s.hostServes (rFabPortCtrl n) = true ∧
      s.portState n = 3 ∧
      bit v.toNat 0 = s.flag (fabPortCtrlEn n) ∧
      bit v.toNat 1 = s.flag (fabPortCtrlDegradeEn n) ∧
      bit v.toNat 2 = true) ∧
    (∃ (s : State) (n : Nat), (s.port n).rewiden = true ∧
      s.portState n = 3 ∧
      (s.blockingMode = false ∨ s.hasIntermission = false ∨ s.sched.intermission = true)) ∧
    (∃ (s w : State) (n now : Nat), w = s.tick now ∧
      w.linkUp2 n = true) ∧
    (∃ (s w : State) (n now sendAt : Nat) (p : Packet), w = (s.tick now).tick sendAt ∧
      p.type = ptEcho ∧
      w.linkUp2 n = true) ∧
    (∃ (s w : State) (n now : Nat) (p : Packet), w = s.tick now ∧
      p.type = ptEchoReply ∧
      w.linkUp2 n = true) ∧
    (∃ (p : Packet), typeKnown p.type = false) ∧
    (∃ (s w : State) (p : Packet) (now : Nat), w = s.tick now ∧
      w.aged p = true) :=
  ⟨(by
    have H : ((fun (s : State) (n : Nat) (now : Nat) (f : FlitIn) => (fun (w : State) => decide (w.linkUp2 n = true) &&
        (decide (f.crcOk = false) && (true))) (s.tick now)) (routed) (11) (5) (aFlit false false none)) = true :=
        by decide +kernel
    obtain ⟨h1, H⟩ := and_of H
    obtain ⟨h2, H⟩ := and_of H
    exact ⟨routed, _, 11, 5, (aFlit false false none), rfl, h1, h2⟩),
   (by
    have H : ((fun (s : State) (n : Nat) (now : Nat) (f : FlitIn) => (fun (w : State) => decide (w.linkUp2 n = true) &&
        (decide (f.crcOk = true) && (decide (f.ctrl = false) && (decide (f.seq = (w.port n).rxSeq) &&
        (true))))) (s.tick now)) (routed) (11) (5) (aFlit false true none)) = true := by decide +kernel
    obtain ⟨h1, H⟩ := and_of H
    obtain ⟨h2, H⟩ := and_of H
    obtain ⟨h3, H⟩ := and_of H
    obtain ⟨h4, H⟩ := and_of H
    exact ⟨routed, _, 11, 5, (aFlit false true none), rfl, h1, h2, h3, h4⟩),
   (by
    have H : ((fun (s : State) (n : Nat) (now : Nat) (f : FlitIn) a => (fun (w : State) => decide (w.linkUp2 n = true) &&
        (decide (f.crcOk = true) && (decide (f.ctrl = true) && (decide (f.ack = some a) && (decide (f.nak = none) &&
        (decide ((w.port n).queue = []) && (true))))))) (s.tick now)) (routed) (11) (5) (aFlit true true (some 4)) (4)) = true :=
        by decide +kernel
    obtain ⟨h1, H⟩ := and_of H
    obtain ⟨h2, H⟩ := and_of H
    obtain ⟨h3, H⟩ := and_of H
    obtain ⟨h4, H⟩ := and_of H
    obtain ⟨h5, H⟩ := and_of H
    obtain ⟨h6, H⟩ := and_of H
    exact ⟨routed, _, 11, 5, (aFlit true true (some 4)), rfl, h1, 4, h2, h3, h4, h5, h6⟩),
   (by
    have H : ((fun (s : State) (n : Nat) => decide (s.linkUp2 n = true) && (decide ((s.port n).unacked ≠ 0) &&
        (true))) (ported { Port.init with unacked := 3 }) (11)) = true := by decide +kernel
    obtain ⟨h0, H⟩ := and_of H
    obtain ⟨h1, H⟩ := and_of H
    exact ⟨(ported { Port.init with unacked := 3 }), 11, h0, h1⟩),
   (by
    have H : ((fun (s : State) (n : Nat) (lane : Nat) (now : Nat) => (fun (w : State) => decide (w.portState n = 2) &&
        (decide (lane < 4) && (decide (lane ∉ (w.port n).badLanes) && (decide ((w.port n).paused = false) &&
        (decide (w.flag (fabPortCtrlDegradeEn n) = true) && (true)))))) (s.tick now)) (port11 2 Port.init) (11) (1) (5)) = true :=
        by decide +kernel
    obtain ⟨h1, H⟩ := and_of H
    obtain ⟨h2, H⟩ := and_of H
    obtain ⟨h3, H⟩ := and_of H
    obtain ⟨h4, H⟩ := and_of H
    obtain ⟨h5, H⟩ := and_of H
    exact ⟨(port11 2 Port.init), _, 11, 1, 5, rfl, h1, h2, h3, h4, h5⟩),
   (by
    have H : ((fun (s : State) (n : Nat) => decide (n < 12) && (decide ((s.port n).paused = true) &&
        (true))) (port11 2 { Port.init with paused := true }) (11)) = true := by decide +kernel
    obtain ⟨h0, H⟩ := and_of H
    obtain ⟨h1, H⟩ := and_of H
    exact ⟨(port11 2 { Port.init with paused := true }), 11, h0, h1⟩),
   (by
    have H : ((fun (s : State) (n : Nat) (v : BitVec 32) => decide (n < 12) &&
        (decide (s.hostServes (rFabPortCtrl n) = true) && (decide (s.portState n = 3) &&
        (decide (bit v.toNat 0 = s.flag (fabPortCtrlEn n)) && (decide (bit v.toNat 1 = s.flag (fabPortCtrlDegradeEn n)) &&
        (decide (bit v.toNat 2 = true) && (true))))))) (linked (sets [(fabPortStatusState 11,
        3)] State.reset)) (11) (6)) = true := by decide +kernel
    obtain ⟨h0, H⟩ := and_of H
    obtain ⟨h1, H⟩ := and_of H
    obtain ⟨h2, H⟩ := and_of H
    obtain ⟨h3, H⟩ := and_of H
    obtain ⟨h4, H⟩ := and_of H
    obtain ⟨h5, H⟩ := and_of H
    exact ⟨(linked (sets [(fabPortStatusState 11, 3)] State.reset)), 11, 6, h0, h1, h2, h3, h4, h5⟩),
   (by
    have H : ((fun (s : State) (n : Nat) => decide ((s.port n).rewiden = true) && (decide (s.portState n = 3) &&
        (decide (s.blockingMode = false ∨ s.hasIntermission = false ∨ s.sched.intermission = true) &&
        (true)))) (port11 3 { Port.init with rewiden := true }) (11)) = true := by decide +kernel
    obtain ⟨h0, H⟩ := and_of H
    obtain ⟨h1, H⟩ := and_of H
    obtain ⟨h2, H⟩ := and_of H
    exact ⟨(port11 3 { Port.init with rewiden := true }), 11, h0, h1, h2⟩),
   (by
    have H : ((fun (s : State) (n : Nat) (now : Nat) => (fun (w : State) => decide (w.linkUp2 n = true) &&
        (true)) (s.tick now)) (routed) (11) (5)) = true := by decide +kernel
    obtain ⟨h1, H⟩ := and_of H
    exact ⟨routed, _, 11, 5, rfl, h1⟩),
   (by
    have H : ((fun (s : State) (n : Nat) (now : Nat) (sendAt : Nat) (p : Packet) => (fun (w : State) =>
        decide (p.type = ptEcho) && (decide (w.linkUp2 n = true) && (true))) ((s.tick now).tick sendAt)) (routed) (11) (5) (7)
        (aPkt ptEcho 0 0 [])) = true := by decide +kernel
    obtain ⟨h1, H⟩ := and_of H
    obtain ⟨h2, H⟩ := and_of H
    exact ⟨routed, _, 11, 5, 7, (aPkt ptEcho 0 0 []), rfl, h1, h2⟩),
   (by
    have H : ((fun (s : State) (n : Nat) (now : Nat) (p : Packet) => (fun (w : State) => decide (p.type = ptEchoReply) &&
        (decide (w.linkUp2 n = true) && (true))) (s.tick now)) (routed) (11) (5) (aPkt ptEchoReply 0 0 [])) = true :=
        by decide +kernel
    obtain ⟨h1, H⟩ := and_of H
    obtain ⟨h2, H⟩ := and_of H
    exact ⟨routed, _, 11, 5, (aPkt ptEchoReply 0 0 []), rfl, h1, h2⟩),
   (by
    have H : ((fun (p : Packet) => decide (typeKnown p.type = false) && (true)) (aPkt 0x7F 0 0 [])) = true := by decide +kernel
    obtain ⟨h0, H⟩ := and_of H
    exact ⟨(aPkt 0x7F 0 0 []), h0⟩),
   (by
    have H : ((fun (s : State) (p : Packet) (now : Nat) => (fun (w : State) => decide (w.aged p = true) &&
        (true)) (s.tick now)) (routed) (aPkt ptRead 0 0 []) (1000000)) = true := by decide +kernel
    obtain ⟨h1, H⟩ := and_of H
    exact ⟨routed, _, (aPkt ptRead 0 0 []), 1000000, rfl, h1⟩)⟩

/-- States that meet the hypotheses of `Obligations.RequestsPerformedAndAnswered`, one for each clause. -/
theorem witness_RequestsPerformedAndAnswered :
    (∃ (s w : State) (p : Packet) (now k n : Nat), w = s.tick now ∧
      w.aged p = false ∧
      w.isOwn p.dst = true ∧
      w.genBehind (p.context % 64) p.gen = 0 ∧
      (w.choosePort (w.adaptiveCtx (p.context % 64)) 2 p.src).isSome = true ∧
      w.powerState ≠ 3 ∧
      w.flag (ctxCtrlEn (p.context % 64)) = true ∧
      w.addressed p = true ∧
      addrTier p.addr < 2 ∧
      k = addrKey p.addr ∧
      w.populated (addrTier p.addr) (addrOff p.addr) n = true ∧
      w.hostShut k = false ∧
      p.length = n ∧
      p.epoch = none ∧
      w.devBad k n = false ∧
      p.type = ptRead ∧
      1 ≤ n ∧
      n ≤ 256) ∧
    (∃ (s w : State) (p : Packet) (now k n : Nat), w = s.tick now ∧
      w.aged p = false ∧
      w.isOwn p.dst = true ∧
      w.genBehind (p.context % 64) p.gen = 0 ∧
      (w.choosePort (w.adaptiveCtx (p.context % 64)) 2 p.src).isSome = true ∧
      w.powerState ≠ 3 ∧
      w.flag (ctxCtrlEn (p.context % 64)) = true ∧
      w.addressed p = true ∧
      addrTier p.addr < 2 ∧
      k = addrKey p.addr ∧
      w.populated (addrTier p.addr) (addrOff p.addr) n = true ∧
      w.hostShut k = false ∧
      p.length = n ∧
      p.epoch = none ∧
      w.devBad k n = false ∧
      p.type = ptBulkRead ∧
      64 ≤ n ∧
      n ≤ 4096 ∧
      n % 64 = 0) ∧
    (∃ (s w : State) (p : Packet) (now k n : Nat), w = s.tick now ∧
      w.aged p = false ∧
      w.isOwn p.dst = true ∧
      w.genBehind (p.context % 64) p.gen = 0 ∧
      (w.choosePort (w.adaptiveCtx (p.context % 64)) 2 p.src).isSome = true ∧
      w.powerState ≠ 3 ∧
      w.flag (ctxCtrlEn (p.context % 64)) = true ∧
      w.addressed p = true ∧
      addrTier p.addr < 2 ∧
      k = addrKey p.addr ∧
      w.populated (addrTier p.addr) (addrOff p.addr) n = true ∧
      w.hostShut k = false ∧
      ∃ t, t = (if w.inFenceTable k then (w.devWrite k p.data).wakeDimmed else w.devWrite k p.data) ∧
      p.data.length = n ∧
      w.devPartBad k n = false ∧
      p.type = ptWrite ∧
      1 ≤ n ∧
      n ≤ 256) ∧
    (∃ (s w : State) (p : Packet) (now k n : Nat), w = s.tick now ∧
      w.aged p = false ∧
      w.isOwn p.dst = true ∧
      w.genBehind (p.context % 64) p.gen = 0 ∧
      (w.choosePort (w.adaptiveCtx (p.context % 64)) 2 p.src).isSome = true ∧
      w.powerState ≠ 3 ∧
      w.flag (ctxCtrlEn (p.context % 64)) = true ∧
      w.addressed p = true ∧
      addrTier p.addr < 2 ∧
      k = addrKey p.addr ∧
      w.populated (addrTier p.addr) (addrOff p.addr) n = true ∧
      w.hostShut k = false ∧
      ∃ t, t = (if w.inFenceTable k then (w.devWrite k p.data).wakeDimmed else w.devWrite k p.data) ∧
      p.data.length = n ∧
      w.devPartBad k n = false ∧
      p.type = ptBulkWrite ∧
      64 ≤ n ∧
      n ≤ 4096 ∧
      n % 64 = 0) ∧
    (∃ (s w : State) (p : Packet) (now k n : Nat), w = s.tick now ∧
      w.aged p = false ∧
      w.isOwn p.dst = true ∧
      w.genBehind (p.context % 64) p.gen = 0 ∧
      (w.choosePort (w.adaptiveCtx (p.context % 64)) 2 p.src).isSome = true ∧
      w.powerState ≠ 3 ∧
      w.flag (ctxCtrlEn (p.context % 64)) = true ∧
      w.addressed p = true ∧
      addrTier p.addr < 2 ∧
      k = addrKey p.addr ∧
      w.populated (addrTier p.addr) (addrOff p.addr) n = true ∧
      w.hostShut k = false ∧
      ∃ op t, op = leAt p.data 0 8 ∧
      op < 4 ∧
      n = atomicSize op ∧
      p.data.length = 24 ∧
      p.addr % n = 0 ∧
      w.devBad k n = false ∧
      p.type = ptAtomic ∧
      t = w.atomic (p.context % 64) k op (leAt p.data 8 8) (leAt p.data 16 8)) :=
  ⟨(by
    have H : ((fun (s : State) (p : Packet) (now : Nat) (n : Nat) => (fun (w : State) => decide (w.aged p = false) &&
        (decide (w.isOwn p.dst = true) && (decide (w.genBehind (p.context % 64) p.gen = 0) &&
        (decide ((w.choosePort (w.adaptiveCtx (p.context % 64)) 2 p.src).isSome = true) && (decide (w.powerState ≠ 3) &&
        (decide (w.flag (ctxCtrlEn (p.context % 64)) = true) && (decide (w.addressed p = true) && (decide (addrTier p.addr < 2) &&
        ((fun (k : Nat) => decide (w.populated (addrTier p.addr) (addrOff p.addr) n = true) && (decide (w.hostShut k = false) &&
        (decide (p.length = n) && (decide (p.epoch = none) && (decide (w.devBad k n = false) && (decide (p.type = ptRead) &&
        (decide (1 ≤ n) && (decide (n ≤ 256) && (true))))))))) (addrKey p.addr)))))))))) (s.tick now)) (routed) (aPkt ptRead
        0x2000 8 []) (5) (8)) = true := by decide +kernel
    obtain ⟨h1, H⟩ := and_of H
    obtain ⟨h2, H⟩ := and_of H
    obtain ⟨h3, H⟩ := and_of H
    obtain ⟨h4, H⟩ := and_of H
    obtain ⟨h5, H⟩ := and_of H
    obtain ⟨h6, H⟩ := and_of H
    obtain ⟨h7, H⟩ := and_of H
    obtain ⟨h8, H⟩ := and_of H
    obtain ⟨h10, H⟩ := and_of H
    obtain ⟨h11, H⟩ := and_of H
    obtain ⟨h12, H⟩ := and_of H
    obtain ⟨h13, H⟩ := and_of H
    obtain ⟨h14, H⟩ := and_of H
    obtain ⟨h15, H⟩ := and_of H
    obtain ⟨h16, H⟩ := and_of H
    obtain ⟨h17, H⟩ := and_of H
    exact ⟨routed, _, (aPkt ptRead 0x2000 8 []), 5, _, 8, rfl, h1, h2, h3, h4, h5, h6, h7, h8, rfl, h10, h11, h12, h13, h14,
        h15, h16, h17⟩),
   (by
    have H : ((fun (s : State) (p : Packet) (now : Nat) (n : Nat) => (fun (w : State) => decide (w.aged p = false) &&
        (decide (w.isOwn p.dst = true) && (decide (w.genBehind (p.context % 64) p.gen = 0) &&
        (decide ((w.choosePort (w.adaptiveCtx (p.context % 64)) 2 p.src).isSome = true) && (decide (w.powerState ≠ 3) &&
        (decide (w.flag (ctxCtrlEn (p.context % 64)) = true) && (decide (w.addressed p = true) && (decide (addrTier p.addr < 2) &&
        ((fun (k : Nat) => decide (w.populated (addrTier p.addr) (addrOff p.addr) n = true) && (decide (w.hostShut k = false) &&
        (decide (p.length = n) && (decide (p.epoch = none) && (decide (w.devBad k n = false) && (decide (p.type = ptBulkRead) &&
        (decide (64 ≤ n) && (decide (n ≤ 4096) && (decide (n % 64 = 0) && (true)))))))))) (addrKey p.addr)))))))))) (s.tick now))
        (routed) (aPkt ptBulkRead 0x2000 64 []) (5) (64)) = true := by decide +kernel
    obtain ⟨h1, H⟩ := and_of H
    obtain ⟨h2, H⟩ := and_of H
    obtain ⟨h3, H⟩ := and_of H
    obtain ⟨h4, H⟩ := and_of H
    obtain ⟨h5, H⟩ := and_of H
    obtain ⟨h6, H⟩ := and_of H
    obtain ⟨h7, H⟩ := and_of H
    obtain ⟨h8, H⟩ := and_of H
    obtain ⟨h10, H⟩ := and_of H
    obtain ⟨h11, H⟩ := and_of H
    obtain ⟨h12, H⟩ := and_of H
    obtain ⟨h13, H⟩ := and_of H
    obtain ⟨h14, H⟩ := and_of H
    obtain ⟨h15, H⟩ := and_of H
    obtain ⟨h16, H⟩ := and_of H
    obtain ⟨h17, H⟩ := and_of H
    obtain ⟨h18, H⟩ := and_of H
    exact ⟨routed, _, (aPkt ptBulkRead 0x2000 64 []), 5, _, 64, rfl, h1, h2, h3, h4, h5, h6, h7, h8, rfl, h10, h11, h12, h13,
        h14, h15, h16, h17, h18⟩),
   (by
    have H : ((fun (s : State) (p : Packet) (now : Nat) (n : Nat) => (fun (w : State) => decide (w.aged p = false) &&
        (decide (w.isOwn p.dst = true) && (decide (w.genBehind (p.context % 64) p.gen = 0) &&
        (decide ((w.choosePort (w.adaptiveCtx (p.context % 64)) 2 p.src).isSome = true) && (decide (w.powerState ≠ 3) &&
        (decide (w.flag (ctxCtrlEn (p.context % 64)) = true) && (decide (w.addressed p = true) && (decide (addrTier p.addr < 2) &&
        ((fun (k : Nat) => decide (w.populated (addrTier p.addr) (addrOff p.addr) n = true) && (decide (w.hostShut k = false) &&
        ((fun t => decide (p.data.length = n) && (decide (w.devPartBad k n = false) && (decide (p.type = ptWrite) &&
        (decide (1 ≤ n) && (decide (n ≤ 256) && (true)))))) ((if w.inFenceTable k then (w.devWrite k p.data).wakeDimmed else
        w.devWrite k p.data))))) (addrKey p.addr)))))))))) (s.tick now)) (routed) (aPkt ptWrite 0x2000 2 [1,
        2]) (5) (2)) = true := by decide +kernel
    obtain ⟨h1, H⟩ := and_of H
    obtain ⟨h2, H⟩ := and_of H
    obtain ⟨h3, H⟩ := and_of H
    obtain ⟨h4, H⟩ := and_of H
    obtain ⟨h5, H⟩ := and_of H
    obtain ⟨h6, H⟩ := and_of H
    obtain ⟨h7, H⟩ := and_of H
    obtain ⟨h8, H⟩ := and_of H
    obtain ⟨h10, H⟩ := and_of H
    obtain ⟨h11, H⟩ := and_of H
    obtain ⟨h13, H⟩ := and_of H
    obtain ⟨h14, H⟩ := and_of H
    obtain ⟨h15, H⟩ := and_of H
    obtain ⟨h16, H⟩ := and_of H
    obtain ⟨h17, H⟩ := and_of H
    exact ⟨routed, _, (aPkt ptWrite 0x2000 2 [1, 2]), 5, _, 2, rfl, h1, h2, h3, h4, h5, h6, h7, h8, rfl, h10, h11, _, rfl,
        h13, h14, h15, h16, h17⟩),
   (by
    have H : ((fun (s : State) (p : Packet) (now : Nat) (n : Nat) => (fun (w : State) => decide (w.aged p = false) &&
        (decide (w.isOwn p.dst = true) && (decide (w.genBehind (p.context % 64) p.gen = 0) &&
        (decide ((w.choosePort (w.adaptiveCtx (p.context % 64)) 2 p.src).isSome = true) && (decide (w.powerState ≠ 3) &&
        (decide (w.flag (ctxCtrlEn (p.context % 64)) = true) && (decide (w.addressed p = true) && (decide (addrTier p.addr < 2) &&
        ((fun (k : Nat) => decide (w.populated (addrTier p.addr) (addrOff p.addr) n = true) && (decide (w.hostShut k = false) &&
        ((fun t => decide (p.data.length = n) && (decide (w.devPartBad k n = false) && (decide (p.type = ptBulkWrite) &&
        (decide (64 ≤ n) && (decide (n ≤ 4096) && (decide (n % 64 = 0) && (true))))))) ((if w.inFenceTable k then (w.devWrite k
        p.data).wakeDimmed else w.devWrite k p.data))))) (addrKey p.addr)))))))))) (s.tick now)) (routed) (aPkt ptBulkWrite 0x2000
        64 (List.replicate 64 1)) (5) (64)) = true := by decide +kernel
    obtain ⟨h1, H⟩ := and_of H
    obtain ⟨h2, H⟩ := and_of H
    obtain ⟨h3, H⟩ := and_of H
    obtain ⟨h4, H⟩ := and_of H
    obtain ⟨h5, H⟩ := and_of H
    obtain ⟨h6, H⟩ := and_of H
    obtain ⟨h7, H⟩ := and_of H
    obtain ⟨h8, H⟩ := and_of H
    obtain ⟨h10, H⟩ := and_of H
    obtain ⟨h11, H⟩ := and_of H
    obtain ⟨h13, H⟩ := and_of H
    obtain ⟨h14, H⟩ := and_of H
    obtain ⟨h15, H⟩ := and_of H
    obtain ⟨h16, H⟩ := and_of H
    obtain ⟨h17, H⟩ := and_of H
    obtain ⟨h18, H⟩ := and_of H
    exact ⟨routed, _, (aPkt ptBulkWrite 0x2000 64 (List.replicate 64 1)), 5, _, 64, rfl, h1, h2, h3, h4, h5, h6, h7, h8, rfl,
        h10, h11, _, rfl, h13, h14, h15, h16, h17, h18⟩),
   (by
    have H : ((fun (s : State) (p : Packet) (now : Nat) (n : Nat) => (fun (w : State) => decide (w.aged p = false) &&
        (decide (w.isOwn p.dst = true) && (decide (w.genBehind (p.context % 64) p.gen = 0) &&
        (decide ((w.choosePort (w.adaptiveCtx (p.context % 64)) 2 p.src).isSome = true) && (decide (w.powerState ≠ 3) &&
        (decide (w.flag (ctxCtrlEn (p.context % 64)) = true) && (decide (w.addressed p = true) && (decide (addrTier p.addr < 2) &&
        ((fun (k : Nat) => decide (w.populated (addrTier p.addr) (addrOff p.addr) n = true) && (decide (w.hostShut k = false) &&
        ((fun op => decide (op < 4) && (decide (n = atomicSize op) && (decide (p.data.length = 24) && (decide (p.addr % n = 0) &&
        (decide (w.devBad k n = false) && (decide (p.type = ptAtomic) && ((fun t =>
        true) (w.atomic (p.context % 64) k op (leAt p.data 8 8) (leAt p.data 16 8))))))))) (leAt p.data 0 8)))) (addrKey
        p.addr)))))))))) (s.tick now)) (routed) (aPkt ptAtomic 0x2000 8 (blob 24 [(0, 8, 1), (8, 8, 5)])) (5) (8)) = true :=
        by decide +kernel
    obtain ⟨h1, H⟩ := and_of H
    obtain ⟨h2, H⟩ := and_of H
    obtain ⟨h3, H⟩ := and_of H
    obtain ⟨h4, H⟩ := and_of H
    obtain ⟨h5, H⟩ := and_of H
    obtain ⟨h6, H⟩ := and_of H
    obtain ⟨h7, H⟩ := and_of H
    obtain ⟨h8, H⟩ := and_of H
    obtain ⟨h10, H⟩ := and_of H
    obtain ⟨h11, H⟩ := and_of H
    obtain ⟨h13, H⟩ := and_of H
    obtain ⟨h14, H⟩ := and_of H
    obtain ⟨h15, H⟩ := and_of H
    obtain ⟨h16, H⟩ := and_of H
    obtain ⟨h17, H⟩ := and_of H
    obtain ⟨h18, H⟩ := and_of H
    exact ⟨routed, _, (aPkt ptAtomic 0x2000 8 (blob 24 [(0, 8, 1), (8, 8, 5)])), 5, _, 8, rfl, h1, h2, h3, h4, h5, h6, h7, h8,
        rfl, h10, h11, _, _, rfl, h13, h14, h15, h16, h17, h18, rfl⟩)⟩

/-- `routed` with one item running, and one request of it outstanding. -/
def asking (u : ReqUse) (ph : ItemPhase) (d : List Byte) : State :=
  { runs { aRun d with items := [{ anItem 0 with phase := ph }] } routed with
    fab := { routed.fab with requests := [{ aWrite 7 with use := u }] } }

/-- States that meet the hypotheses of `Obligations.ResponsesEndRequests`, one for each clause. -/
theorem witness_ResponsesEndRequests :
    (∃ (s t : State) (p : Packet) (q : Request) (run item : Nat) (x : Item) (r : Run), s.asked p.tag = some q ∧
      t = s.endRequest p.tag ∧
      t.findRun run = some r ∧
      r.item item = some x ∧
      hdrClass r.desc.bytes ∉ [7, 8] ∧
      q.use = .read run item ∧
      p.type = ptReadData) ∧
    (∃ (s t : State) (p : Packet) (q : Request) (run item : Nat) (x : Item) (r : Run), s.asked p.tag = some q ∧
      t = s.endRequest p.tag ∧
      t.findRun run = some r ∧
      r.item item = some x ∧
      hdrClass r.desc.bytes ∉ [7, 8] ∧
      ∃ st dt, q.use = .write run item ∧
      p.type = ptWriteAck ∧
      x.phase = .acking st dt ∧
      t.waitsAck run item = false) ∧
    (∃ (s t : State) (p : Packet) (q : Request) (run item : Nat) (x : Item) (r : Run), s.asked p.tag = some q ∧
      t = s.endRequest p.tag ∧
      t.findRun run = some r ∧
      r.item item = some x ∧
      hdrClass r.desc.bytes ∉ [7, 8] ∧
      ∃ st dt, q.use = .write run item ∧
      p.type = ptWriteAck ∧
      x.phase = .acking st dt ∧
      t.waitsAck run item = true) ∧
    (∃ (s t : State) (p : Packet) (q : Request) (run item : Nat) (x : Item) (r : Run), s.asked p.tag = some q ∧
      t = s.endRequest p.tag ∧
      t.findRun run = some r ∧
      r.item item = some x ∧
      hdrClass r.desc.bytes ∉ [7, 8] ∧
      ∃ a, q.use = .atomic run item a ∧
      p.type = ptAtomicResult ∧
      x.hasEnded = false ∧
      t.isOwn (addrMember a) = true ∧
      t.devShut (addrKey a) = false ∧
      t.devPartBad (addrKey a) 8 = false ∧
      t.waitsAck run item = false) ∧
    (∃ (s w t : State) (tag now run item : Nat) (q : Request) (x : Item) (r : Run), w = s.tick now ∧
      w.asked tag = some q ∧
      t = w.endRequest q.tag ∧
      t.findRun run = some r ∧
      r.item item = some x ∧
      hdrClass r.desc.bytes ∉ [7, 8, 0xB] ∧
      x.hasEnded = false ∧
      q.entry = none ∧
      ∃ (p : Packet) (st : Nat), p.type = ptError ∧
      p.tag = tag ∧
      st = peerStatus p.status ∧
      (q.use = .write run item ∨ (q.use = .read run item ∧ st ≠ stUncorrectable))) ∧
    (∃ (s w t : State) (tag now run item : Nat) (q : Request) (x : Item) (r : Run), w = s.tick now ∧
      w.asked tag = some q ∧
      t = w.endRequest q.tag ∧
      t.findRun run = some r ∧
      r.item item = some x ∧
      hdrClass r.desc.bytes ∉ [7, 8, 0xB] ∧
      x.hasEnded = false ∧
      q.entry = none ∧
      (q.use = .write run item ∨ q.use = .read run item) ∧
      1000 * w.fld fabRespTimeoutUs * 1750 ≤ q.used ∧
      q.dst ∉ w.coll.lost) :=
  ⟨(by
    have H : ((fun (s : State) (p : Packet) (run : Nat) (item : Nat) => onSome (s.asked p.tag) fun (q : Request) =>
        (fun (t : State) => onSome (t.findRun run) fun (r : Run) => onSome (r.item item) fun (x : Item) =>
        decide (hdrClass r.desc.bytes ∉ [7, 8]) && (decide (q.use = .read run item) && (decide (p.type = ptReadData) &&
        (true)))) (s.endRequest p.tag)) (asking (.read 1 0) .running fabItem) (aPkt ptReadData 0 0 [1]) (1) (0)) = true :=
        by decide +kernel
    obtain ⟨q, h0, H⟩ := of_some H
    obtain ⟨r, h2, H⟩ := of_some H
    obtain ⟨x, h3, H⟩ := of_some H
    obtain ⟨h4, H⟩ := and_of H
    obtain ⟨h5, H⟩ := and_of H
    obtain ⟨h6, H⟩ := and_of H
    exact ⟨(asking (.read 1 0) .running fabItem), _, (aPkt ptReadData 0 0 [1]), _, 1, 0, _, _, h0, rfl, h2, h3, h4, h5, h6⟩),
   (by
    have H : ((fun (s : State) (p : Packet) (run : Nat) (item : Nat) st dt => onSome (s.asked p.tag) fun (q : Request) =>
        (fun (t : State) => onSome (t.findRun run) fun (r : Run) => onSome (r.item item) fun (x : Item) =>
        decide (hdrClass r.desc.bytes ∉ [7, 8]) && (decide (q.use = .write run item) && (decide (p.type = ptWriteAck) &&
        (decide (x.phase = .acking st dt) && (decide (t.waitsAck run item = false) &&
        (true)))))) (s.endRequest p.tag)) (asking (.write 1 0) (.acking stOk 0) fabItem) (aPkt ptWriteAck 0 0 []) (1) (0) (stOk)
        (0)) = true := by decide +kernel
    obtain ⟨q, h0, H⟩ := of_some H
    obtain ⟨r, h2, H⟩ := of_some H
    obtain ⟨x, h3, H⟩ := of_some H
    obtain ⟨h4, H⟩ := and_of H
    obtain ⟨h5, H⟩ := and_of H
    obtain ⟨h6, H⟩ := and_of H
    obtain ⟨h7, H⟩ := and_of H
    obtain ⟨h8, H⟩ := and_of H
    exact ⟨(asking (.write 1 0) (.acking stOk 0) fabItem), _, (aPkt ptWriteAck 0 0 []), _, 1, 0, _, _, h0, rfl, h2, h3, h4,
        stOk, 0, h5, h6, h7, h8⟩),
   (by
    have H : ((fun (s : State) (p : Packet) (run : Nat) (item : Nat) st dt => onSome (s.asked p.tag) fun (q : Request) =>
        (fun (t : State) => onSome (t.findRun run) fun (r : Run) => onSome (r.item item) fun (x : Item) =>
        decide (hdrClass r.desc.bytes ∉ [7, 8]) && (decide (q.use = .write run item) && (decide (p.type = ptWriteAck) &&
        (decide (x.phase = .acking st dt) && (decide (t.waitsAck run item = true) && (true)))))) (s.endRequest p.tag)) ((fun u =>
        ({ u with fab := { u.fab with requests := u.fab.requests ++ [{ aWrite 7 with tag := 10, use := .write 1 0 }] } } : State))
        (asking (.write 1 0) (.acking stOk 0) fabItem)) (aPkt ptWriteAck 0 0 []) (1) (0) (stOk) (0)) = true := by decide +kernel
    obtain ⟨q, h0, H⟩ := of_some H
    obtain ⟨r, h2, H⟩ := of_some H
    obtain ⟨x, h3, H⟩ := of_some H
    obtain ⟨h4, H⟩ := and_of H
    obtain ⟨h5, H⟩ := and_of H
    obtain ⟨h6, H⟩ := and_of H
    obtain ⟨h7, H⟩ := and_of H
    obtain ⟨h8, H⟩ := and_of H
    exact ⟨((fun u => ({ u with fab := { u.fab with requests := u.fab.requests ++ [{ aWrite 7 with tag := 10, use := .write 1 0 }] } } : State)) (asking (.write 1 0) (.acking stOk 0) fabItem)), _, (aPkt ptWriteAck 0 0 []), _, 1, 0, _, _, h0, rfl, h2, h3, h4, stOk, 0, h5, h6, h7, h8⟩),
   (by
    have H : ((fun (s : State) (p : Packet) (run : Nat) (item : Nat) a => onSome (s.asked p.tag) fun (q : Request) =>
        (fun (t : State) => onSome (t.findRun run) fun (r : Run) => onSome (r.item item) fun (x : Item) =>
        decide (hdrClass r.desc.bytes ∉ [7, 8]) && (decide (q.use = .atomic run item a) && (decide (p.type = ptAtomicResult) &&
        (decide (x.hasEnded = false) && (decide (t.isOwn (addrMember a) = true) && (decide (t.devShut (addrKey a) = false) &&
        (decide (t.devPartBad (addrKey a) 8 = false) && (decide (t.waitsAck run item = false) &&
        (true))))))))) (s.endRequest p.tag)) (asking (.atomic 1 0 0x2000) .running fabItem) (aPkt ptAtomicResult 0 0 (blob 8 [(0,
        8, 5)])) (1) (0) (0x2000)) = true := by decide +kernel
    obtain ⟨q, h0, H⟩ := of_some H
    obtain ⟨r, h2, H⟩ := of_some H
    obtain ⟨x, h3, H⟩ := of_some H
    obtain ⟨h4, H⟩ := and_of H
    obtain ⟨h5, H⟩ := and_of H
    obtain ⟨h6, H⟩ := and_of H
    obtain ⟨h7, H⟩ := and_of H
    obtain ⟨h8, H⟩ := and_of H
    obtain ⟨h9, H⟩ := and_of H
    obtain ⟨h10, H⟩ := and_of H
    obtain ⟨h11, H⟩ := and_of H
    exact ⟨(asking (.atomic 1 0 0x2000) .running fabItem), _, (aPkt ptAtomicResult 0 0 (blob 8 [(0, 8, 5)])), _, 1, 0, _, _,
        h0, rfl, h2, h3, h4, 0x2000, h5, h6, h7, h8, h9, h10, h11⟩),
   (by
    have H : ((fun (s : State) (tag : Nat) (now : Nat) (run : Nat) (item : Nat) (p : Packet) => (fun (w : State) =>
        onSome (w.asked tag) fun (q : Request) => (fun (t : State) => onSome (t.findRun run) fun (r : Run) => onSome (r.item item)
        fun (x : Item) => decide (hdrClass r.desc.bytes ∉ [7, 8, 0xB]) && (decide (x.hasEnded = false) &&
        (decide (q.entry = none) && (decide (p.type = ptError) && (decide (p.tag = tag) && ((fun (st : Nat) =>
        decide (q.use = .write run item ∨ (q.use = .read run item ∧ st ≠ stUncorrectable)) &&
        (true)) (peerStatus p.status))))))) (w.endRequest q.tag)) (s.tick now)) (asking (.read 1 0) .running fabItem) (9) (5) (1)
        (0) (aPkt ptError 0 0 [])) = true := by decide +kernel
    obtain ⟨q, h1, H⟩ := of_some H
    obtain ⟨r, h3, H⟩ := of_some H
    obtain ⟨x, h4, H⟩ := of_some H
    obtain ⟨h5, H⟩ := and_of H
    obtain ⟨h6, H⟩ := and_of H
    obtain ⟨h7, H⟩ := and_of H
    obtain ⟨h8, H⟩ := and_of H
    obtain ⟨h9, H⟩ := and_of H
    obtain ⟨h11, H⟩ := and_of H
    exact ⟨(asking (.read 1 0) .running fabItem), _, _, 9, 5, 1, 0, _, _, _, rfl, h1, rfl, h3, h4, h5, h6, h7,
        (aPkt ptError 0 0 []), _, h8, h9, rfl, h11⟩),
   (by
    have H : ((fun (s : State) (tag : Nat) (now : Nat) (run : Nat) (item : Nat) => (fun (w : State) => onSome (w.asked tag)
        fun (q : Request) => (fun (t : State) => onSome (t.findRun run) fun (r : Run) => onSome (r.item item) fun (x : Item) =>
        decide (hdrClass r.desc.bytes ∉ [7, 8, 0xB]) && (decide (x.hasEnded = false) && (decide (q.entry = none) &&
        (decide (q.use = .write run item ∨ q.use = .read run item) && (decide (1000 * w.fld fabRespTimeoutUs * 1750 ≤ q.used) &&
        (decide (q.dst ∉ w.coll.lost) && (true))))))) (w.endRequest q.tag)) (s.tick now)) (asking (.write 1 0) .running fabItem)
        (9) (10 ^ 9) (1) (0)) = true := by decide +kernel
    obtain ⟨q, h1, H⟩ := of_some H
    obtain ⟨r, h3, H⟩ := of_some H
    obtain ⟨x, h4, H⟩ := of_some H
    obtain ⟨h5, H⟩ := and_of H
    obtain ⟨h6, H⟩ := and_of H
    obtain ⟨h7, H⟩ := and_of H
    obtain ⟨h8, H⟩ := and_of H
    obtain ⟨h9, H⟩ := and_of H
    obtain ⟨h10, H⟩ := and_of H
    exact ⟨(asking (.write 1 0) .running fabItem), _, _, 9, (10 ^ 9), 1, 0, _, _, _, rfl, h1, rfl, h3, h4, h5, h6, h7, h8, h9,
        h10⟩)⟩

/-- States that meet the hypotheses of `Obligations.PrompterMessagesTaken`, one for each clause. -/
theorem witness_PrompterMessagesTaken :
    (∃ (s w : State) (now lost : Nat) (p : Packet), w = s.tick now ∧
      p.src ≠ w.member ∧
      w.seenFlood p = false ∧
      lost ∉ s.coll.lost ∧
      s.coll.lost.length + 1 < 4096 ∧
      w.muted = false ∧
      ∃ e l, p.type = ptDetached ∧
      lost = p.src ∧
      (w.noteFlood p).guardedWith lost = e :: l ∧
      (∃ g ∈ e :: l, (w.noteFlood p).watches g lost = true)) ∧
    (∃ (s w : State) (now lost : Nat) (p : Packet), w = s.tick now ∧
      p.src ≠ w.member ∧
      w.seenFlood p = false ∧
      lost ∉ s.coll.lost ∧
      s.coll.lost.length + 1 < 4096 ∧
      w.muted = false ∧
      p.type = ptMemberLost ∧
      lost = leAt p.data 0 2 % 4096) ∧
    (∃ (s : State) (c resume : Nat) (p : Packet), p.type = ptStop ∧
      p.src ≠ s.member ∧
      s.seenFlood p = false ∧
      c = leAt p.data 0 1 % 64 ∧
      resume = leAt p.data 4 4) ∧
    (∃ (c : Nat) (p : Packet), p.type = ptDrain ∧
      c = leAt p.data 0 1 % 64) ∧
    (∃ (s : State) (src drain : Nat) (d : DrainIn), (s.fab.drains.find? (fun d => d.src == src && d.drain == drain &&
        d.waits.isEmpty) = some d)) ∧
    (∃ (s : State) (p : Packet) (f : FenceWait) (r : Run), p.type = ptDrainReturn ∧
      s.fab.fences = [f] ∧
      f.drain = leAt p.data 4 4 ∧
      f.waits = [] ∧
      s.dropMember p.src f.members = [] ∧
      s.fab.teardowns = [] ∧
      s.CanEnd f.run f.item r ∧
      s.findRun f.run = some r ∧
      hdrClass r.desc.bytes = 0xA) :=
  ⟨(by
    have H : ((fun (s : State) (now : Nat) (lost : Nat) (p : Packet) e l => (fun (w : State) => decide (p.src ≠ w.member) &&
        (decide (w.seenFlood p = false) && (decide (lost ∉ s.coll.lost) && (decide (s.coll.lost.length + 1 < 4096) &&
        (decide (w.muted = false) && (decide (p.type = ptDetached) && (decide (lost = p.src) &&
        (decide ((w.noteFlood p).guardedWith lost = e :: l) && (decide ((∃ g ∈ e :: l, (w.noteFlood p).watches g lost = true)) &&
        (true)))))))))) (s.tick now)) (chorused 2) (5) (7) (aPkt ptDetached 0 0 []) (0) ([])) = true := by decide +kernel
    obtain ⟨h1, H⟩ := and_of H
    obtain ⟨h2, H⟩ := and_of H
    obtain ⟨h3, H⟩ := and_of H
    obtain ⟨h4, H⟩ := and_of H
    obtain ⟨h5, H⟩ := and_of H
    obtain ⟨h6, H⟩ := and_of H
    obtain ⟨h7, H⟩ := and_of H
    obtain ⟨h8, H⟩ := and_of H
    obtain ⟨h9, H⟩ := and_of H
    exact ⟨(chorused 2), _, 5, 7, (aPkt ptDetached 0 0 []), rfl, h1, h2, h3, h4, h5, 0, [], h6, h7, h8, h9⟩),
   (by
    have H : ((fun (s : State) (now : Nat) (lost : Nat) (p : Packet) => (fun (w : State) => decide (p.src ≠ w.member) &&
        (decide (w.seenFlood p = false) && (decide (lost ∉ s.coll.lost) && (decide (s.coll.lost.length + 1 < 4096) &&
        (decide (w.muted = false) && (decide (p.type = ptMemberLost) && (decide (lost = leAt p.data 0 2 % 4096) &&
        (true)))))))) (s.tick now)) (chorused 2) (5) (7) (aPkt ptMemberLost 0 0 [7, 0])) = true := by decide +kernel
    obtain ⟨h1, H⟩ := and_of H
    obtain ⟨h2, H⟩ := and_of H
    obtain ⟨h3, H⟩ := and_of H
    obtain ⟨h4, H⟩ := and_of H
    obtain ⟨h5, H⟩ := and_of H
    obtain ⟨h6, H⟩ := and_of H
    obtain ⟨h7, H⟩ := and_of H
    exact ⟨(chorused 2), _, 5, 7, (aPkt ptMemberLost 0 0 [7, 0]), rfl, h1, h2, h3, h4, h5, h6, h7⟩),
   (by
    have H : ((fun (s : State) (c : Nat) (resume : Nat) (p : Packet) => decide (p.type = ptStop) &&
        (decide (p.src ≠ s.member) && (decide (s.seenFlood p = false) && (decide (c = leAt p.data 0 1 % 64) &&
        (decide (resume = leAt p.data 4 4) && (true)))))) (routed) (0) (3) (aPkt ptStop 0 0 (blob 8 [(4, 4, 3)]))) = true :=
        by decide +kernel
    obtain ⟨h0, H⟩ := and_of H
    obtain ⟨h1, H⟩ := and_of H
    obtain ⟨h2, H⟩ := and_of H
    obtain ⟨h3, H⟩ := and_of H
    obtain ⟨h4, H⟩ := and_of H
    exact ⟨routed, 0, 3, (aPkt ptStop 0 0 (blob 8 [(4, 4, 3)])), h0, h1, h2, h3, h4⟩),
   (by
    have H : ((fun (c : Nat) (p : Packet) => decide (p.type = ptDrain) && (decide (c = leAt p.data 0 1 % 64) &&
        (true))) (0) (aPkt ptDrain 0 0 (blob 8 [(4, 4, 3)]))) = true := by decide +kernel
    obtain ⟨h0, H⟩ := and_of H
    obtain ⟨h1, H⟩ := and_of H
    exact ⟨0, (aPkt ptDrain 0 0 (blob 8 [(4, 4, 3)])), h0, h1⟩),
   (by
    have H : ((fun (src : Nat) (drain : Nat) => (fun (s : State) => onSome (s.fab.drains.find? (fun d => d.src == src &&
        d.drain == drain && d.waits.isEmpty)) fun (d : DrainIn) => true)
        ({ routed with fab := { routed.fab with drains := [{ src := 7, drain := 3, ctx := 0, gen := 0, waits := [] }] } })) (7)
        (3)) = true := by decide +kernel
    obtain ⟨d, h0, H⟩ := of_some H
    exact ⟨_, 7, 3, _, h0⟩),
   (by
    have H : ((fun (s : State) (p : Packet) (f : FenceWait) (r : Run) => decide (p.type = ptDrainReturn) &&
        (decide (s.fab.fences = [f]) && (decide (f.drain = leAt p.data 4 4) && (decide (f.waits = []) &&
        (decide (s.dropMember p.src f.members = []) && (decide (s.fab.teardowns = []) &&
        (decide (canEnd s f.run f.item r = true) && (decide (s.findRun f.run = some r) && (decide (hdrClass r.desc.bytes = 0xA) &&
        (true)))))))))) ({ runs { aRun fabItem with items := [{ anItem 0 with phase := .running }] } routed with fab := { routed.fab with fences := [{ run := 1, item := 0, drain := 3, waits := [], members := [7] }] } }) (aPkt ptDrainReturn 0 0 (blob 8 [(4, 4, 3)])) ({ run := 1, item := 0, drain := 3, waits := [], members := [7] }) ({ aRun fabItem with items := [{ anItem 0 with phase := .running }] })) = true := by decide +kernel
    obtain ⟨h0, H⟩ := and_of H
    obtain ⟨h1, H⟩ := and_of H
    obtain ⟨h2, H⟩ := and_of H
    obtain ⟨h3, H⟩ := and_of H
    obtain ⟨h4, H⟩ := and_of H
    obtain ⟨h5, H⟩ := and_of H
    obtain ⟨h6, H⟩ := and_of H
    obtain ⟨h7, H⟩ := and_of H
    obtain ⟨h8, H⟩ := and_of H
    exact ⟨({ runs { aRun fabItem with items := [{ anItem 0 with phase := .running }] } routed with fab := { routed.fab with fences := [{ run := 1, item := 0, drain := 3, waits := [], members := [7] }] } }), (aPkt ptDrainReturn 0 0 (blob 8 [(4, 4, 3)])), ({ run := 1, item := 0, drain := 3, waits := [], members := [7] }), ({ aRun fabItem with items := [{ anItem 0 with phase := .running }] }), h0, h1, h2, h3, h4, h5, (canEnd_of h6), h7, h8⟩)⟩

/-- States that meet the hypotheses of `Obligations.TeardownsAndPatchesTaken`, one for each clause. -/
theorem witness_TeardownsAndPatchesTaken :
    (∃ (s w : State) (now c g drain : Nat) (p : Packet), w = s.tick now ∧
      p.type = ptTeardown ∧
      c = leAt p.data 0 1 % 64 ∧
      g = leAt p.data 1 1 ∧
      drain = leAt p.data 4 4 ∧
      128 < w.genBehind c g ∧
      c ∉ s.fab.advanced ∧
      (∀ x ∈ s.fab.teardowns, x.ctx ≠ c)) ∧
    (∃ (s w : State) (now c m : Nat) (x : Teardown), w = s.tick now ∧
      (w.fab.teardowns.find? (fun x => x.ctx == c && x.item.isNone) = some x) ∧
      w.drained x.waits = true ∧
      w.acceptedDone c = true ∧
      x.origin = some m ∧
      x.freed = false) ∧
    (∃ (s : State) (gen n k : Nat) (p : Packet) (al : List (Nat × Nat)), p.type = ptRoutePatch ∧
      n = leAt p.data 2 1 ∧
      1 ≤ n ∧
      n ≤ 8 ∧
      gen = leAt p.data 0 2 ∧
      p.src ≠ s.member ∧
      s.seenFlood p = false ∧
      al = (patchPairsOf p.data n).foldl addAlias s.fab.route.aliases ∧
      al.length ≤ 16 ∧
      s.routeKey s.standbyRoute = some k ∧
      s.devShut k = false) :=
  ⟨(by
    have H : ((fun (s : State) (now : Nat) (c : Nat) (g : Nat) (drain : Nat) (p : Packet) => (fun (w : State) =>
        decide (p.type = ptTeardown) && (decide (c = leAt p.data 0 1 % 64) && (decide (g = leAt p.data 1 1) &&
        (decide (drain = leAt p.data 4 4) && (decide (128 < w.genBehind c g) && (decide (c ∉ s.fab.advanced) &&
        (decide ((∀ x ∈ s.fab.teardowns, x.ctx ≠ c)) && (true)))))))) (s.tick now)) (writing (runs (aRun fabItem) routed)) (5) (0)
        (1) (3) (aPkt ptTeardown 0 0 (blob 8 [(1, 1, 1), (4, 4, 3)]))) = true := by decide +kernel
    obtain ⟨h1, H⟩ := and_of H
    obtain ⟨h2, H⟩ := and_of H
    obtain ⟨h3, H⟩ := and_of H
    obtain ⟨h4, H⟩ := and_of H
    obtain ⟨h5, H⟩ := and_of H
    obtain ⟨h6, H⟩ := and_of H
    obtain ⟨h7, H⟩ := and_of H
    exact ⟨(writing (runs (aRun fabItem) routed)), _, 5, 0, 1, 3, (aPkt ptTeardown 0 0 (blob 8 [(1, 1, 1), (4, 4, 3)])), rfl,
        h1, h2, h3, h4, h5, h6, h7⟩),
   (by
    have H : ((fun (s : State) (now : Nat) (c : Nat) (m : Nat) => (fun (w : State) => onSome (w.fab.teardowns.find? (fun x =>
        x.ctx == c && x.item.isNone)) fun (x : Teardown) => decide (w.drained x.waits = true) &&
        (decide (w.acceptedDone c = true) && (decide (x.origin = some m) && (decide (x.freed = false) &&
        (true))))) (s.tick now))
        ({ routed with fab := { routed.fab with teardowns := [{ ctx := 0, item := none, origin := some 7, drain := 3, gen := 1, members := [], cue := 0, waits := [], freed := false }] } }) (5) (0) (7)) = true := by decide +kernel
    obtain ⟨x, h1, H⟩ := of_some H
    obtain ⟨h2, H⟩ := and_of H
    obtain ⟨h3, H⟩ := and_of H
    obtain ⟨h4, H⟩ := and_of H
    obtain ⟨h5, H⟩ := and_of H
    exact ⟨({ routed with fab := { routed.fab with teardowns := [{ ctx := 0, item := none, origin := some 7, drain := 3, gen := 1, members := [], cue := 0, waits := [], freed := false }] } }), _, 5, 0, 7, _, rfl, h1, h2, h3, h4, h5⟩),
   (by
    have H : ((fun (s : State) (gen : Nat) (n : Nat) (p : Packet) => decide (p.type = ptRoutePatch) &&
        (decide (n = leAt p.data 2 1) && (decide (1 ≤ n) && (decide (n ≤ 8) && (decide (gen = leAt p.data 0 2) &&
        (decide (p.src ≠ s.member) && (decide (s.seenFlood p = false) && ((fun (al : List (Nat × Nat)) =>
        decide (al.length ≤ 16) && (onSome (s.routeKey s.standbyRoute) fun (k : Nat) => decide (s.devShut k = false) &&
        (true))) ((patchPairsOf p.data n).foldl addAlias s.fab.route.aliases))))))))) (sets [(routeTableBaseBase,
        0x10000)] routed) (5) (1) (aPkt ptRoutePatch 0 0 (blob 8 [(0, 2, 5), (2, 1, 1), (4, 2, 9), (6, 2, 7)]))) = true :=
        by decide +kernel
    obtain ⟨h0, H⟩ := and_of H
    obtain ⟨h1, H⟩ := and_of H
    obtain ⟨h2, H⟩ := and_of H
    obtain ⟨h3, H⟩ := and_of H
    obtain ⟨h4, H⟩ := and_of H
    obtain ⟨h5, H⟩ := and_of H
    obtain ⟨h6, H⟩ := and_of H
    obtain ⟨h8, H⟩ := and_of H
    obtain ⟨k, h9, H⟩ := of_some H
    obtain ⟨h10, H⟩ := and_of H
    exact ⟨(sets [(routeTableBaseBase, 0x10000)] routed), 5, 1, _, (aPkt ptRoutePatch 0 0 (blob 8 [(0, 2, 5), (2, 1, 1), (4,
        2, 9), (6, 2, 7)])), _, h0, h1, h2, h3, h4, h5, h6, rfl, h8, h9, h10⟩)⟩

/-- A device that holds its configuration image. -/
def imaged : State := { device with regs := { device.regs with imageHeld := true } }

/-- An upset of a register that a scan meets. -/
def anUpset (off : Nat) (bad : Bool) : RegUpset := { off := off, value := 1, parityBad := bad }

/-- The stage manager is down, and the coppice of partition 2 waits for it. -/
def smDown : State := { device with rel := { device.rel with smUp := false, smWaiting := [.coppice 2 1] } }

/-- States that meet the hypotheses of `Obligations.StageManagerAndScan`, one for each clause. -/
theorem witness_StageManagerAndScan :
    (∃ (s w : State) (now n : Nat), w = s.tick now ∧
      s.rel.smUp = true ∧
      n = w.recentRestarts.length + 1 ∧
      n < 3) ∧
    (∃ (s w : State) (now n : Nat), w = s.tick now ∧
      s.rel.smUp = true ∧
      n = w.recentRestarts.length + 1 ∧
      3 ≤ n ∧
      s.flag healthStatusCurtain = false ∧
      s.powerState < 2) ∧
    (∃ (s : State), s.rel.smUp = false ∧
      s.inReset = false ∧
      (∀ c, SmTask.reset c ∉ s.rel.smWaiting)) ∧
    (∃ (s w : State) (now v : Nat) (u : RegUpset) (id : UnitId), w = s.tick now ∧
      s.rel.smUp = true ∧
      s.regs.imageHeld = true ∧
      s.fld lcStatusDebug ≠ 2 ∧
      isHardened u.off = true ∧
      id = ⟨8, u.off / 4 % 65536, 0⟩ ∧
      v = (match cellFind u.off s.regs.image with | some b => b.toNat | none => regReset u.off) ∧
      u.off < internalReg ∧
      u.parityBad = true) ∧
    (∃ (s w : State) (now v : Nat) (u : RegUpset) (id : UnitId), w = s.tick now ∧
      s.rel.smUp = true ∧
      s.regs.imageHeld = true ∧
      s.fld lcStatusDebug ≠ 2 ∧
      isHardened u.off = true ∧
      id = ⟨8, u.off / 4 % 65536, 0⟩ ∧
      v = (match cellFind u.off s.regs.image with | some b => b.toNat | none => regReset u.off) ∧
      u.off < internalReg ∧
      u.parityBad = false) ∧
    (∃ (s w : State) (now v : Nat) (u : RegUpset) (id : UnitId), w = s.tick now ∧
      s.rel.smUp = true ∧
      s.regs.imageHeld = true ∧
      s.fld lcStatusDebug ≠ 2 ∧
      isHardened u.off = true ∧
      id = ⟨8, u.off / 4 % 65536, 0⟩ ∧
      v = (match cellFind u.off s.regs.image with | some b => b.toNat | none => regReset u.off) ∧
      ∃ p, u.off = internalReg + p ∧
      p < 8 ∧
      u.parityBad = false) ∧
    (∃ (s w : State) (now : Nat), w = s.tick now ∧
      s.rel.smUp = true ∧
      s.regs.imageHeld = true ∧
      s.fld lcStatusDebug ≠ 2) :=
  ⟨(by
    have H : ((fun (s : State) (now : Nat) => (fun (w : State) => decide (s.rel.smUp = true) && ((fun (n : Nat) =>
        decide (n < 3) && (true)) (w.recentRestarts.length + 1))) (s.tick now)) (device) (5)) = true := by decide +kernel
    obtain ⟨h1, H⟩ := and_of H
    obtain ⟨h3, H⟩ := and_of H
    exact ⟨device, _, 5, _, rfl, h1, rfl, h3⟩),
   (by
    have H : ((fun (s : State) (now : Nat) => (fun (w : State) => decide (s.rel.smUp = true) && ((fun (n : Nat) =>
        decide (3 ≤ n) && (decide (s.flag healthStatusCurtain = false) && (decide (s.powerState < 2) &&
        (true)))) (w.recentRestarts.length + 1))) (s.tick now)) ({ device with rel := { device.rel with smRestarts := [0, 0] } })
        (5)) = true := by decide +kernel
    obtain ⟨h1, H⟩ := and_of H
    obtain ⟨h3, H⟩ := and_of H
    obtain ⟨h4, H⟩ := and_of H
    obtain ⟨h5, H⟩ := and_of H
    exact ⟨({ device with rel := { device.rel with smRestarts := [0, 0] } }), _, 5, _, rfl, h1, rfl, h3, h4, h5⟩),
   (by
    have H : ((fun (s : State) => decide (s.rel.smUp = false) && (decide (s.inReset = false) && (true))) (smDown)) = true :=
        by decide +kernel
    obtain ⟨h0, H⟩ := and_of H
    obtain ⟨h1, H⟩ := and_of H
    exact ⟨smDown, h0, h1, (fun _ h => nomatch List.mem_singleton.mp h)⟩),
   (by
    have H : ((fun (s : State) (now : Nat) (u : RegUpset) => (fun (w : State) => decide (s.rel.smUp = true) && (decide (s.regs.imageHeld = true) && (decide (s.fld lcStatusDebug ≠ 2) && (decide (isHardened u.off = true) && ((fun (id : UnitId) => (fun (v : Nat) => decide (u.off < internalReg) && (decide (u.parityBad = true) && (true))) ((match cellFind u.off s.regs.image with | some b => b.toNat | none => regReset u.off))) (⟨8, u.off / 4 % 65536, 0⟩)))))) (s.tick now)) (imaged) (5) (anUpset rRouteTableBase true)) = true := by decide +kernel
    obtain ⟨h1, H⟩ := and_of H
    obtain ⟨h2, H⟩ := and_of H
    obtain ⟨h3, H⟩ := and_of H
    obtain ⟨h4, H⟩ := and_of H
    obtain ⟨h7, H⟩ := and_of H
    obtain ⟨h8, H⟩ := and_of H
    exact ⟨imaged, _, 5, _, (anUpset rRouteTableBase true), _, rfl, h1, h2, h3, h4, rfl, rfl, h7, h8⟩),
   (by
    have H : ((fun (s : State) (now : Nat) (u : RegUpset) => (fun (w : State) => decide (s.rel.smUp = true) && (decide (s.regs.imageHeld = true) && (decide (s.fld lcStatusDebug ≠ 2) && (decide (isHardened u.off = true) && ((fun (id : UnitId) => (fun (v : Nat) => decide (u.off < internalReg) && (decide (u.parityBad = false) && (true))) ((match cellFind u.off s.regs.image with | some b => b.toNat | none => regReset u.off))) (⟨8, u.off / 4 % 65536, 0⟩)))))) (s.tick now)) (imaged) (5) (anUpset rRouteTableBase false)) = true := by decide +kernel
    obtain ⟨h1, H⟩ := and_of H
    obtain ⟨h2, H⟩ := and_of H
    obtain ⟨h3, H⟩ := and_of H
    obtain ⟨h4, H⟩ := and_of H
    obtain ⟨h7, H⟩ := and_of H
    obtain ⟨h8, H⟩ := and_of H
    exact ⟨imaged, _, 5, _, (anUpset rRouteTableBase false), _, rfl, h1, h2, h3, h4, rfl, rfl, h7, h8⟩),
   (by
    have H : ((fun (s : State) (now : Nat) (u : RegUpset) p => (fun (w : State) => decide (s.rel.smUp = true) && (decide (s.regs.imageHeld = true) && (decide (s.fld lcStatusDebug ≠ 2) && (decide (isHardened u.off = true) && ((fun (id : UnitId) => (fun (v : Nat) => decide (u.off = internalReg + p) && (decide (p < 8) && (decide (u.parityBad = false) && (true)))) ((match cellFind u.off s.regs.image with | some b => b.toNat | none => regReset u.off))) (⟨8, u.off / 4 % 65536, 0⟩)))))) (s.tick now)) (imaged) (5) (anUpset (internalReg + 7) false) (7)) = true := by decide +kernel
    obtain ⟨h1, H⟩ := and_of H
    obtain ⟨h2, H⟩ := and_of H
    obtain ⟨h3, H⟩ := and_of H
    obtain ⟨h4, H⟩ := and_of H
    obtain ⟨h7, H⟩ := and_of H
    obtain ⟨h8, H⟩ := and_of H
    obtain ⟨h9, H⟩ := and_of H
    exact ⟨imaged, _, 5, _, (anUpset (internalReg + 7) false), _, rfl, h1, h2, h3, h4, rfl, rfl, 7, h7, h8, h9⟩),
   (by
    have H : ((fun (s : State) (now : Nat) => (fun (w : State) => decide (s.rel.smUp = true) &&
        (decide (s.regs.imageHeld = true) && (decide (s.fld lcStatusDebug ≠ 2) && (true)))) (s.tick now)) (imaged) (5)) = true :=
        by decide +kernel
    obtain ⟨h1, H⟩ := and_of H
    obtain ⟨h2, H⟩ := and_of H
    obtain ⟨h3, H⟩ := and_of H
    exact ⟨imaged, _, 5, rfl, h1, h2, h3⟩)⟩

def resettingIngest : State := { device with rel := { device.rel with resetting := [(.ingest, 0)] } }

/-- Stack 7 has tripped. -/
def tripped : State := sets [(stackTempTrip 7, 1)] device

/-- States that meet the hypotheses of `Obligations.EnginesAndCoppicesRecover`, one for each clause. -/
theorem witness_EnginesAndCoppicesRecover :
    (∃ (s w : State) (now p n : Nat) (v : BitVec 32) (c : Instr), w = s.tick now ∧
      p < 8 ∧
      s.rel.smUp = true ∧
      s.inCoppice p = false ∧
      ((n < 144 ∧ p = n / 18 ∧ c = .engineRecoveryTimeout (.tile n) now) ∨ (s.hostServes rCoppiceReq = true ∧
          s.isSealed = true ∧ v.toNat = 2 ^ p ∧ c = .coppiceReq v now))) ∧
    (∃ (s : State) (p : Nat) (c : Coppice), p < 8 ∧
      (s.rel.coppices.find? (fun c => c.part == p) = some c) ∧
      c.noReturn = false ∧
      s.flag (stackTempTrip p) = false ∧
      (s.flag healthStatusCurtain = true ∨ ∃ q, q < 8 ∧ q ≠ p ∧ s.partServes q = true)) ∧
    (∃ (s : State) (p : Nat), s.flag (stackTempTrip p) = true) ∧
    (∃ (s : State) (n : Nat), n ∈ s.rel.fills ∧
      n < 8) ∧
    (∃ (s w : State) (now : Nat) (e : Engine), w = s.tick now ∧
      s.rel.smUp = true ∧
      (∀ x ∈ s.rel.resetting, x.1 ≠ e) ∧
      (∀ n, e ≠ .tile n ∧ e ≠ .move n)) ∧
    (∃ (s w : State) (now t0 : Nat) (e : Engine), w = s.tick now ∧
      (e, t0) ∈ s.rel.resetting ∧
      t0 + 200000 ≤ w.now ∧
      s.flag healthStatusCurtain = false ∧
      s.powerState < 2) ∧
    (∃ (s : State), s.rel.draining = true ∧
      (∀ r ∈ s.runs, ∀ x ∈ r.items, x.isRunning = false)) :=
  ⟨(by
    have H : ((fun (s : State) (now : Nat) (p : Nat) (n : Nat) (v : BitVec 32) (c : Instr) => (fun (w : State) =>
        decide (p < 8) && (decide (s.rel.smUp = true) && (decide (s.inCoppice p = false) && (decide ((n < 144 ∧ p = n / 18 ∧
        c = .engineRecoveryTimeout (.tile n) now) ∨ (s.hostServes rCoppiceReq = true ∧ s.isSealed = true ∧ v.toNat = 2 ^ p ∧
        c = .coppiceReq v now)) && (true))))) (s.tick now)) (runs (onTile fabItem) device) (5) (7) (0) (128) (.coppiceReq 128 5))
        = true := by decide +kernel
    obtain ⟨h1, H⟩ := and_of H
    obtain ⟨h2, H⟩ := and_of H
    obtain ⟨h3, H⟩ := and_of H
    obtain ⟨h4, H⟩ := and_of H
    exact ⟨(runs (onTile fabItem) device), _, 5, 7, 0, 128, (.coppiceReq 128 5), rfl, h1, h2, h3, h4⟩),
   (by
    have H : ((fun (s : State) (p : Nat) => decide (p < 8) && (onSome (s.rel.coppices.find? (fun c => c.part == p))
        fun (c : Coppice) => decide (c.noReturn = false) && (decide (s.flag (stackTempTrip p) = false) &&
        (true)))) (coppiced) (7)) = true := by decide +kernel
    obtain ⟨h0, H⟩ := and_of H
    obtain ⟨c, h1, H⟩ := of_some H
    obtain ⟨h2, H⟩ := and_of H
    obtain ⟨h3, H⟩ := and_of H
    exact ⟨coppiced, 7, _, h0, h1, h2, h3, (Or.inr ⟨0, by decide, by decide, by decide +kernel⟩)⟩),
   (by
    have H : ((fun (s : State) (p : Nat) => decide (s.flag (stackTempTrip p) = true) && (true)) (tripped) (7)) = true :=
        by decide +kernel
    obtain ⟨h0, H⟩ := and_of H
    exact ⟨tripped, 7, h0⟩),
   (by
    have H : ((fun (s : State) (n : Nat) => decide (n ∈ s.rel.fills) && (decide (n < 8) &&
        (true))) ({ device with rel := { device.rel with fills := [7] } }) (7)) = true := by decide +kernel
    obtain ⟨h0, H⟩ := and_of H
    obtain ⟨h1, H⟩ := and_of H
    exact ⟨({ device with rel := { device.rel with fills := [7] } }), 7, h0, h1⟩),
   (by
    have H : ((fun (s : State) (now : Nat) (e : Engine) => (fun (w : State) => decide (s.rel.smUp = true) &&
        (decide ((∀ x ∈ s.rel.resetting, x.1 ≠ e)) && (true))) (s.tick now)) (device) (5) (.ingest)) = true := by decide +kernel
    obtain ⟨h1, H⟩ := and_of H
    obtain ⟨h2, H⟩ := and_of H
    exact ⟨device, _, 5, .ingest, rfl, h1, h2, (fun _ => ⟨(fun h => nomatch h), (fun h => nomatch h)⟩)⟩),
   (by
    have H : ((fun (s : State) (now : Nat) (t0 : Nat) (e : Engine) => (fun (w : State) => decide ((e,
        t0) ∈ s.rel.resetting) && (decide (t0 + 200000 ≤ w.now) && (decide (s.flag healthStatusCurtain = false) &&
        (decide (s.powerState < 2) && (true))))) (s.tick now)) (runs (aRun fabItem) resettingIngest) (200000) (0) (.ingest)) =
        true := by decide +kernel
    obtain ⟨h1, H⟩ := and_of H
    obtain ⟨h2, H⟩ := and_of H
    obtain ⟨h3, H⟩ := and_of H
    obtain ⟨h4, H⟩ := and_of H
    exact ⟨(runs (aRun fabItem) resettingIngest), _, 200000, 0, .ingest, rfl, h1, h2, h3, h4⟩),
   (by
    have H : ((fun (s : State) => decide (s.rel.draining = true) && (decide ((∀ r ∈ s.runs, ∀ x ∈ r.items,
        x.isRunning = false)) && (true))) (runs { aRun fabItem with items := [{ anItem 0 with phase := .ended stOk 0 }] }
        { device with rel := { device.rel with draining := true } })) = true := by decide +kernel
    obtain ⟨h0, H⟩ := and_of H
    obtain ⟨h1, H⟩ := and_of H
    exact ⟨(runs { aRun fabItem with items := [{ anItem 0 with phase := .ended stOk 0 }] }
        { device with rel := { device.rel with draining := true } }), h0, h1⟩)⟩

/-- Logical tile 143 is under test, and was asked for. -/
def testing : State := { device with rel := { device.rel with testing := [143], testQueue := [143], testOut := some 143 } }

/-- States that meet the hypotheses of `Obligations.TestsAndUpkeepRecorded`, one for each clause. -/
theorem witness_TestsAndUpkeepRecorded :
    (∃ (s : State) (v : BitVec 32), s.hostServes rSelftestReq = true ∧
      s.isSealed = true ∧
      bit v.toNat 31 = true ∧
      v.toNat % 256 < 144) ∧
    (∃ (s w x : State) (n now : Nat) (pass : Bool) (u : UnitId), w = s.tick now ∧
      n < 144 ∧
      n ∈ s.rel.testing ∧
      u = s.testedUnit n ∧
      u.unit ∉ s.rel.retests ∧
      x = { w with rel := { w.rel with testing := dropVal n w.rel.testing, testOut := if w.rel.testOut = some n then none else w.rel.testOut, retests := dropVal u.unit w.rel.retests, testQueue := dropVal n w.rel.testQueue, lastTest := cellPut w.rel.lastTest n (some w.rel.poweredS) } } ∧
      pass = false) ∧
    (∃ (s w x : State) (n now : Nat) (pass : Bool) (u : UnitId), w = s.tick now ∧
      n < 144 ∧
      n ∈ s.rel.testing ∧
      u = s.testedUnit n ∧
      u.unit ∉ s.rel.retests ∧
      x = { w with rel := { w.rel with testing := dropVal n w.rel.testing, testOut := if w.rel.testOut = some n then none else w.rel.testOut, retests := dropVal u.unit w.rel.retests, testQueue := dropVal n w.rel.testQueue, lastTest := cellPut w.rel.lastTest n (some w.rel.poweredS) } } ∧
      pass = true ∧
      n ∈ s.rel.testQueue) ∧
    (∃ (s : State), s.rel.smUp = true) ∧
    (∃ (s : State) (r : CalResource), s.calibratable r = true ∧
      (∀ x ∈ s.mem.calibrated, x.1 = r → x.2 ≠ s.now / 100000000)) :=
  ⟨(by
    have H : ((fun (s : State) (v : BitVec 32) => decide (s.hostServes rSelftestReq = true) && (decide (s.isSealed = true) &&
        (decide (bit v.toNat 31 = true) && (decide (v.toNat % 256 < 144) && (true))))) (device) (BitVec.ofNat 32 (2 ^ 31 + 143)))
        = true := by decide +kernel
    obtain ⟨h0, H⟩ := and_of H
    obtain ⟨h1, H⟩ := and_of H
    obtain ⟨h2, H⟩ := and_of H
    obtain ⟨h3, H⟩ := and_of H
    exact ⟨device, (BitVec.ofNat 32 (2 ^ 31 + 143)), h0, h1, h2, h3⟩),
   (by
    have H : ((fun (s : State) (n : Nat) (now : Nat) (pass : Bool) => (fun (w : State) => decide (n < 144) &&
        (decide (n ∈ s.rel.testing) && ((fun (u : UnitId) => decide (u.unit ∉ s.rel.retests) && ((fun (x : State) =>
        decide (pass = false) && (true))
        ({ w with rel := { w.rel with testing := dropVal n w.rel.testing, testOut := if w.rel.testOut = some n then none else w.rel.testOut, retests := dropVal u.unit w.rel.retests, testQueue := dropVal n w.rel.testQueue, lastTest := cellPut w.rel.lastTest n (some w.rel.poweredS) } }))) (s.testedUnit n)))) (s.tick now)) (testing) (143) (5) (false)) = true := by decide +kernel
    obtain ⟨h1, H⟩ := and_of H
    obtain ⟨h2, H⟩ := and_of H
    obtain ⟨h4, H⟩ := and_of H
    obtain ⟨h6, H⟩ := and_of H
    exact ⟨testing, _, _, 143, 5, false, _, rfl, h1, h2, rfl, h4, rfl, h6⟩),
   (by
    have H : ((fun (s : State) (n : Nat) (now : Nat) (pass : Bool) => (fun (w : State) => decide (n < 144) &&
        (decide (n ∈ s.rel.testing) && ((fun (u : UnitId) => decide (u.unit ∉ s.rel.retests) && ((fun (x : State) =>
        decide (pass = true) && (decide (n ∈ s.rel.testQueue) && (true)))
        ({ w with rel := { w.rel with testing := dropVal n w.rel.testing, testOut := if w.rel.testOut = some n then none else w.rel.testOut, retests := dropVal u.unit w.rel.retests, testQueue := dropVal n w.rel.testQueue, lastTest := cellPut w.rel.lastTest n (some w.rel.poweredS) } }))) (s.testedUnit n)))) (s.tick now)) (testing) (143) (5) (true)) = true := by decide +kernel
    obtain ⟨h1, H⟩ := and_of H
    obtain ⟨h2, H⟩ := and_of H
    obtain ⟨h4, H⟩ := and_of H
    obtain ⟨h6, H⟩ := and_of H
    obtain ⟨h7, H⟩ := and_of H
    exact ⟨testing, _, _, 143, 5, true, _, rfl, h1, h2, rfl, h4, rfl, h6, h7⟩),
   (by
    have H : ((fun (s : State) => decide (s.rel.smUp = true) && (true)) (device)) = true := by decide +kernel
    obtain ⟨h0, H⟩ := and_of H
    exact ⟨device, h0⟩),
   (by
    have H : ((fun (s : State) (r : CalResource) => decide (s.calibratable r = true) && (decide ((∀ x ∈ s.mem.calibrated,
        x.1 = r → x.2 ≠ s.now / 100000000)) && (true))) (routed) (.port 11)) = true := by decide +kernel
    obtain ⟨h0, H⟩ := and_of H
    obtain ⟨h1, H⟩ := and_of H
    exact ⟨routed, (.port 11), h0, h1⟩)⟩

end Sys2Proof.Tests
end

