-- ==== Sys2Proof/Tests/Witness10.lean ====
section
/-! SUPPORT. States that meet the hypotheses of the statements. -/

set_option Elab.async false
namespace Sys2Proof.Tests
open Sys2Proof.Machine

/-- A command by the side channel, of zero bytes but for the fields named. -/
def mctpOf (n : Nat) (fs : List (Nat × Nat × Nat)) : SecPath := .mctp (blob n fs)

/-- `device` with a debug level in force until a time. -/
def debugging (level t0 : Nat) : State :=
  { sets [(lcStatusDebug, level)] device with sec := { device.sec with debugUntil := some t0 } }

/-- States that meet the hypotheses of `Obligations.SecurityCommandsAnswered`, one for each clause. -/
theorem witness_SecurityCommandsAnswered :
    (∃ (s w : State) (now : Nat) (path : SecPath), w = s.tick now ∧
      w.inReset = false ∧
      isJtag path = false) ∧
    (∃ (s w : State) (now t0 : Nat) (n : List Byte), w = s.tick now ∧
      s.sec.nonce = some (n, t0)) ∧
    (∃ (s : State) (path : SecPath), s.inReset = false ∧
      isJtag path = false) ∧
    (∃ (s w : State) (now t0 : Nat), w = s.tick now ∧
      s.sec.debugUntil = some t0 ∧
      t0 ≤ w.rel.poweredS) ∧
    (∃ (s : State) (a : Nat) (data : List Byte), s.inReset = false ∧
      s.fld lcStatusDebug = 2 ∧
      s.isOwn (addrMember a) = true ∧
      a / 2 ^ 57 = 0 ∧
      addrTier a < 2 ∧
      s.populated (addrTier a) (addrOff a) data.length = true ∧
      s.hostShut (addrKey a) = false ∧
      s.devPartBad (addrKey a) data.length = false) ∧
    (∃ (s : State) (cmd next : Nat) (key : List Byte), s.sec.transition = some (cmd, next, key) ∧
      (∀ r ∈ s.runs, ∀ x ∈ r.items, x.isRunning = false) ∧
      s.flash.failing = false ∧
      s.rel.smUp = true) ∧
    ((∀ b, Config.sha384 b = List.replicate 48 0) → (Config.rootHash = List.replicate 48 0) → (∀ a b c,
        Config.ecdsaOk a b c = true) → ∃ (s : State) (path : SecPath) (a n : Nat), s.inReset = false ∧
      isJtag path = false ∧
      s.rel.smUp = true ∧
      s.flash.failing = false ∧
      a = leAt (s.secInput path 12) 0 8 ∧
      n = leAt (s.secInput path 12) 8 4 ∧
      s.ownMem a n = true ∧
      n ≤ 8388608 ∧
      s.hostShut (addrKey a) = false ∧
      s.devBad (addrKey a) n = false ∧
      s.imageResult (s.devRead (addrKey a) n) 1 = 0) :=
  ⟨(by
    have H : ((fun (s : State) (now : Nat) (path : SecPath) => (fun (w : State) => decide (w.inReset = false) &&
        (decide (isJtag path = false) && (true))) (s.tick now)) (device) (5) (mctpOf 0 [])) = true := by decide +kernel
    obtain ⟨h1, H⟩ := and_of H
    obtain ⟨h2, H⟩ := and_of H
    exact ⟨device, _, 5, (mctpOf 0 []), rfl, h1, h2⟩),
   (by
    have H : ((fun (s : State) (now : Nat) => (fun (w : State) => onSome (s.sec.nonce) fun x =>
        (fun (n : List Byte) (t0 : Nat) => true) x.1 x.2) (s.tick now))
        ({ device with sec := { device.sec with nonce := some ([1], 0) } }) (5)) = true := by decide +kernel
    obtain ⟨⟨n, t0⟩, h1, H⟩ := of_some H
    exact ⟨({ device with sec := { device.sec with nonce := some ([1], 0) } }), _, 5, _, _, rfl, h1⟩),
   (by
    have H : ((fun (s : State) (path : SecPath) => decide (s.inReset = false) && (decide (isJtag path = false) &&
        (true))) (debugging 2 0) (mctpOf 0 [])) = true := by decide +kernel
    obtain ⟨h0, H⟩ := and_of H
    obtain ⟨h1, H⟩ := and_of H
    exact ⟨(debugging 2 0), (mctpOf 0 []), h0, h1⟩),
   (by
    have H : ((fun (s : State) (now : Nat) => (fun (w : State) => onSome (s.sec.debugUntil) fun (t0 : Nat) =>
        decide (t0 ≤ w.rel.poweredS) && (true)) (s.tick now)) (debugging 1 0) (5)) = true := by decide +kernel
    obtain ⟨t0, h1, H⟩ := of_some H
    obtain ⟨h2, H⟩ := and_of H
    exact ⟨(debugging 1 0), _, 5, _, rfl, h1, h2⟩),
   (by
    have H : ((fun (s : State) (a : Nat) (data : List Byte) => decide (s.inReset = false) &&
        (decide (s.fld lcStatusDebug = 2) && (decide (s.isOwn (addrMember a) = true) && (decide (a / 2 ^ 57 = 0) &&
        (decide (addrTier a < 2) && (decide (s.populated (addrTier a) (addrOff a) data.length = true) &&
        (decide (s.hostShut (addrKey a) = false) && (decide (s.devPartBad (addrKey a) data.length = false) &&
        (true))))))))) (debugging 2 0) (0x1000) ([1, 2])) = true := by decide +kernel
    obtain ⟨h0, H⟩ := and_of H
    obtain ⟨h1, H⟩ := and_of H
    obtain ⟨h2, H⟩ := and_of H
    obtain ⟨h3, H⟩ := and_of H
    obtain ⟨h4, H⟩ := and_of H
    obtain ⟨h5, H⟩ := and_of H
    obtain ⟨h6, H⟩ := and_of H
    obtain ⟨h7, H⟩ := and_of H
    exact ⟨(debugging 2 0), 0x1000, ([1, 2]), h0, h1, h2, h3, h4, h5, h6, h7⟩),
   (by
    have H : ((fun (s : State) (cmd : Nat) (next : Nat) (key : List Byte) => decide (s.sec.transition = some (cmd, next,
        key)) && (decide ((∀ r ∈ s.runs, ∀ x ∈ r.items, x.isRunning = false)) && (decide (s.flash.failing = false) &&
        (decide (s.rel.smUp = true) && (true))))) ({ device with sec := { device.sec with transition := some (0x15, 3, []) } })
        (0x15) (3) ([])) = true := by decide +kernel
    obtain ⟨h0, H⟩ := and_of H
    obtain ⟨h1, H⟩ := and_of H
    obtain ⟨h2, H⟩ := and_of H
    obtain ⟨h3, H⟩ := and_of H
    exact ⟨({ device with sec := { device.sec with transition := some (0x15, 3, []) } }), 0x15, 3, [], h0, h1, h2, h3⟩),
   (by
    intro hsha hroot hok
    have H : ((fun (s : State) (path : SecPath) => decide (s.inReset = false) && (decide (isJtag path = false) &&
        (decide (s.rel.smUp = true) && (decide (s.flash.failing = false) && ((fun (a : Nat) => (fun (n : Nat) =>
        decide (s.ownMem a n = true) && (decide (n ≤ 8388608) && (decide (s.hostShut (addrKey a) = false) &&
        (decide (s.devBad (addrKey a) n = false) && (true))))) (leAt (s.secInput path 12) 8 4)) (leAt (s.secInput path 12) 0
        8)))))) (place 0x1000 (blob 320 [(0, 2, 1), (2, 1, 1), (3, 1, 1)]) device) (mctpOf 12 [(0, 8, 0x1000), (8, 4,
        320)])) = true := by decide +kernel
    obtain ⟨h0, H⟩ := and_of H
    obtain ⟨h1, H⟩ := and_of H
    obtain ⟨h2, H⟩ := and_of H
    obtain ⟨h3, H⟩ := and_of H
    obtain ⟨h6, H⟩ := and_of H
    obtain ⟨h7, H⟩ := and_of H
    obtain ⟨h8, H⟩ := and_of H
    obtain ⟨h9, H⟩ := and_of H
    exact ⟨(place 0x1000 (blob 320 [(0, 2, 1), (2, 1, 1), (3, 1, 1)]) device), (mctpOf 12 [(0, 8, 0x1000), (8, 4, 320)]), _, _, h0, h1, h2, h3, rfl, rfl, h6, h7, h8, h9, (by unfold State.imageResult State.signerKey; simp only [hsha, hroot, hok]; decide +kernel)⟩)⟩

/-- An owner token of a command, for a part with serial number 0 whose owner key is zero. -/
def ownerToken (cmd : Nat) : SecPath := mctpOf 352 [(0, 2, 1), (2, 1, cmd), (3, 1, 2)]

/-- `device`, Deployed, with an owner key and a live nonce. -/
def owned : State :=
  let s := sets [(lcStatusState, 2)] device
  { s with sec := { s.sec with nonce := some (List.replicate 32 0, 0) }, book := { s.book with ownerKey := List.replicate 96 0 } }

/-- States that meet the hypotheses of `Obligations.TokensAppliedOrRefused`, one for each clause. -/
theorem witness_TokensAppliedOrRefused :
    (∃ (s w : State) (now cmd : Nat) (path : SecPath) (c : Instr) (k : List Byte), (cmd, c) ∈ [(0x01,
        Instr.debugTrace path now), (0x02, .debugInvasive path now), (0x10, .enrollOwner path now), (0x11,
        .enterService path now), (0x12, .returnToken path now), (0x13, .ownerRelease path now), (0x14, .retireToken path now),
        (0x15, .clearCurtain path now)] ∧
      w = s.tick now ∧
      w.inReset = false ∧
      k = w.secInput path 352 ∧
      w.tokenResult k cmd ≠ 0 ∧
      ¬(w.lifecycle = 0 ∧ cmd ≤ 2)) ∧
    (∃ (s w : State) (now cmd : Nat) (path : SecPath) (c : Instr) (k : List Byte), (cmd, c) ∈ [(0x01,
        Instr.debugTrace path now), (0x02, .debugInvasive path now), (0x10, .enrollOwner path now), (0x11,
        .enterService path now), (0x12, .returnToken path now), (0x13, .ownerRelease path now), (0x14, .retireToken path now),
        (0x15, .clearCurtain path now)] ∧
      w = s.tick now ∧
      w.inReset = false ∧
      k = w.secInput path 352 ∧
      (w.tokenResult k cmd = 0 ∨ w.lifecycle = 0) ∧
      cmd ≤ 2 ∧
      w.fld lcStatusDebug < cmd) ∧
    ((∀ a b c, Config.ecdsaOk a b c = true) → ∃ (s w : State) (now cmd : Nat) (path : SecPath) (c : Instr) (k : List Byte),
        (cmd, c) ∈ [(0x01, Instr.debugTrace path now), (0x02, .debugInvasive path now), (0x10, .enrollOwner path now), (0x11,
        .enterService path now), (0x12, .returnToken path now), (0x13, .ownerRelease path now), (0x14, .retireToken path now),
        (0x15, .clearCurtain path now)] ∧
      w = s.tick now ∧
      w.inReset = false ∧
      k = w.secInput path 352 ∧
      ∃ next key, w.tokenResult k cmd = 0 ∧
      2 < cmd ∧
      w.transitionOf cmd (tokSigner k) (tokNewKey k) = some (next, key)) :=
  ⟨(by
    have H : ((fun (s : State) (now : Nat) (cmd : Nat) (path : SecPath) (c : Instr) => decide ((cmd, c) ∈ [(0x01,
        Instr.debugTrace path now), (0x02, .debugInvasive path now), (0x10, .enrollOwner path now), (0x11,
        .enterService path now), (0x12, .returnToken path now), (0x13, .ownerRelease path now), (0x14, .retireToken path now),
        (0x15, .clearCurtain path now)]) && ((fun (w : State) => decide (w.inReset = false) && ((fun (k : List Byte) =>
        decide (w.tokenResult k cmd ≠ 0) && (decide (¬(w.lifecycle = 0 ∧ cmd ≤ 2)) &&
        (true))) (w.secInput path 352))) (s.tick now))) (owned) (5) (0x10) (mctpOf 0 []) (.enrollOwner (mctpOf 0 []) 5)) = true :=
        by decide +kernel
    obtain ⟨h0, H⟩ := and_of H
    obtain ⟨h2, H⟩ := and_of H
    obtain ⟨h4, H⟩ := and_of H
    obtain ⟨h5, H⟩ := and_of H
    exact ⟨owned, _, 5, 0x10, (mctpOf 0 []), (.enrollOwner (mctpOf 0 []) 5), _, h0, rfl, h2, rfl, h4, h5⟩),
   (by
    have H : ((fun (s : State) (now : Nat) (cmd : Nat) (path : SecPath) (c : Instr) => decide ((cmd, c) ∈ [(0x01,
        Instr.debugTrace path now), (0x02, .debugInvasive path now), (0x10, .enrollOwner path now), (0x11,
        .enterService path now), (0x12, .returnToken path now), (0x13, .ownerRelease path now), (0x14, .retireToken path now),
        (0x15, .clearCurtain path now)]) && ((fun (w : State) => decide (w.inReset = false) && ((fun (k : List Byte) =>
        decide (w.tokenResult k cmd = 0 ∨ w.lifecycle = 0) && (decide (cmd ≤ 2) && (decide (w.fld lcStatusDebug < cmd) &&
        (true)))) (w.secInput path 352))) (s.tick now))) (sets [(lcStatusState, 0)] device) (5) (2) (mctpOf 0 []) (.debugInvasive
        (mctpOf 0 []) 5)) = true := by decide +kernel
    obtain ⟨h0, H⟩ := and_of H
    obtain ⟨h2, H⟩ := and_of H
    obtain ⟨h4, H⟩ := and_of H
    obtain ⟨h5, H⟩ := and_of H
    obtain ⟨h6, H⟩ := and_of H
    exact ⟨(sets [(lcStatusState, 0)] device), _, 5, 2, (mctpOf 0 []), (.debugInvasive (mctpOf 0 []) 5), _, h0, rfl, h2, rfl,
        h4, h5, h6⟩),
   (by
    intro hok
    have H : ((fun (s : State) (now : Nat) (cmd : Nat) (path : SecPath) (c : Instr) => decide ((cmd, c) ∈ [(0x01,
        Instr.debugTrace path now), (0x02, .debugInvasive path now), (0x10, .enrollOwner path now), (0x11,
        .enterService path now), (0x12, .returnToken path now), (0x13, .ownerRelease path now), (0x14, .retireToken path now),
        (0x15, .clearCurtain path now)]) && ((fun (w : State) => decide (w.inReset = false) && ((fun (k : List Byte) =>
        decide (2 < cmd) && (onSome (w.transitionOf cmd (tokSigner k) (tokNewKey k)) fun x => (fun next key =>
        true) x.1 x.2)) (w.secInput path 352))) (s.tick now))) (owned) (5) (0x11) (ownerToken 0x11) (.enterService (ownerToken
        0x11) 5)) = true := by decide +kernel
    obtain ⟨h0, H⟩ := and_of H
    obtain ⟨h2, H⟩ := and_of H
    obtain ⟨h5, H⟩ := and_of H
    obtain ⟨⟨next, key⟩, h6, H⟩ := of_some H
    exact ⟨owned, _, 5, 0x11, (ownerToken 0x11), (.enterService (ownerToken 0x11) 5), _, h0, rfl, h2, rfl, _, _, (by unfold State.tokenResult; simp only [hok]; decide +kernel), h5, h6⟩)⟩

/-- A request outside or inside a session. -/
def spdm (t : SpdmTransport) (session : Option Nat) (p1 p2 : Nat) (body : List Byte) : SpdmReq :=
  { transport := t, session := session, version := 0x12, param1 := p1, param2 := p2, body := body }

/-- `device`, Deployed, with version, capabilities and algorithms agreed on both transports. -/
def agreed : State :=
  let s := sets [(lcStatusState, 2)] device
  { s with sec := { s.sec with versionDone := [.doe, .mctp], capsDone := [(.doe, 64), (.mctp, 0)], algoDone := [.doe, .mctp] } }

/-- States that meet the hypotheses of `Obligations.AttestationAnswered`, one for each clause. -/
theorem witness_AttestationAnswered :
    (∃ (s : State) (r : SpdmReq), s.spReaches r.transport = true ∧
      ∃ (u : State) (a : Nat × List Byte), (u.spLimit r.transport = 0 ∨ a.2.length + 4 ≤ u.spLimit r.transport)) ∧
    (∃ (s : State) (r : SpdmReq), s.spReaches r.transport = true ∧
      r.version = 0x12 ∧
      r.transport ∈ s.sec.versionDone) ∧
    (∃ (s : State) (r : SpdmReq), s.spReaches r.transport = true ∧
      r.version = 0x12 ∧
      (∃ x ∈ s.sec.capsDone, x.1 = r.transport)) ∧
    (∃ (s : State) (r : SpdmReq), s.spReaches r.transport = true ∧
      r.version = 0x12 ∧
      s.spReady r.transport = true ∧
      s.lifecycle ≠ 0 ∧
      r.param1 % 16 = 0 ∧
      ∃ o n, o = leAt r.body 0 2 ∧
      n = min (leAt r.body 2 2) (s.certChain.length - o) ∧
      o ≤ s.certChain.length) ∧
    (∃ (s : State) (r : SpdmReq), s.spReaches r.transport = true ∧
      r.version = 0x12 ∧
      ∃ m, s.spReady r.transport = true ∧
      (s.lifecycle ≠ 0 ∨ bit r.param1 0 = false) ∧
      (r.param2 ≤ 7 ∨ r.param2 = 0xFF) ∧
      m = s.measurementRecord r.param2) :=
  ⟨(by
    have H : ((fun (s : State) (r : SpdmReq) (u : State) (a : Nat × List Byte) => decide (s.spReaches r.transport = true) &&
        (decide (u.spLimit r.transport = 0 ∨ a.2.length + 4 ≤ u.spLimit r.transport) &&
        (true))) (agreed) (spdm .mctp none 0 0 []) (agreed) ((1, [2]))) = true := by decide +kernel
    obtain ⟨h0, H⟩ := and_of H
    obtain ⟨h1, H⟩ := and_of H
    exact ⟨agreed, (spdm .mctp none 0 0 []), h0, agreed, ((1, [2])), h1⟩),
   (by
    have H : ((fun (s : State) (r : SpdmReq) => decide (s.spReaches r.transport = true) && (decide (r.version = 0x12) &&
        (decide (r.transport ∈ s.sec.versionDone) && (true)))) (agreed) (spdm .doe none 0 0 [])) = true := by decide +kernel
    obtain ⟨h0, H⟩ := and_of H
    obtain ⟨h1, H⟩ := and_of H
    obtain ⟨h2, H⟩ := and_of H
    exact ⟨agreed, (spdm .doe none 0 0 []), h0, h1, h2⟩),
   (by
    have H : ((fun (s : State) (r : SpdmReq) => decide (s.spReaches r.transport = true) && (decide (r.version = 0x12) &&
        (decide ((∃ x ∈ s.sec.capsDone, x.1 = r.transport)) && (true)))) (agreed) (spdm .mctp none 0 0 [])) = true :=
        by decide +kernel
    obtain ⟨h0, H⟩ := and_of H
    obtain ⟨h1, H⟩ := and_of H
    obtain ⟨h2, H⟩ := and_of H
    exact ⟨agreed, (spdm .mctp none 0 0 []), h0, h1, h2⟩),
   (by
    have H : ((fun (s : State) (r : SpdmReq) => decide (s.spReaches r.transport = true) && (decide (r.version = 0x12) &&
        (decide (s.spReady r.transport = true) && (decide (s.lifecycle ≠ 0) && (decide (r.param1 % 16 = 0) && ((fun o => (fun n =>
        decide (o ≤ s.certChain.length) && (true)) (min (leAt r.body 2 2) (s.certChain.length - o))) (leAt r.body 0 2)))))))
        (agreed) (spdm .mctp none 0 0 [0, 0, 1, 0])) = true := by decide +kernel
    obtain ⟨h0, H⟩ := and_of H
    obtain ⟨h1, H⟩ := and_of H
    obtain ⟨h2, H⟩ := and_of H
    obtain ⟨h3, H⟩ := and_of H
    obtain ⟨h4, H⟩ := and_of H
    obtain ⟨h7, H⟩ := and_of H
    exact ⟨agreed, (spdm .mctp none 0 0 [0, 0, 1, 0]), h0, h1, h2, h3, h4, _, _, rfl, rfl, h7⟩),
   (by
    have H : ((fun (s : State) (r : SpdmReq) => decide (s.spReaches r.transport = true) && (decide (r.version = 0x12) &&
        (decide (s.spReady r.transport = true) && (decide (s.lifecycle ≠ 0 ∨ bit r.param1 0 = false) && (decide (r.param2 ≤ 7 ∨
        r.param2 = 0xFF) && ((fun m => true) (s.measurementRecord r.param2))))))) (agreed) (spdm .mctp none 0 7 [])) = true :=
        by decide +kernel
    obtain ⟨h0, H⟩ := and_of H
    obtain ⟨h1, H⟩ := and_of H
    obtain ⟨h2, H⟩ := and_of H
    obtain ⟨h3, H⟩ := and_of H
    obtain ⟨h4, H⟩ := and_of H
    exact ⟨agreed, (spdm .mctp none 0 7 []), h0, h1, _, h2, h3, h4, rfl⟩)⟩

/-- `agreed` with session 0 through DOE. -/
def inSession (est : Bool) : State :=
  { agreed with sec := { agreed.sec with
      sessions := [{ id := 0, transport := .doe, established := est, key := 0, ide := [] }] } }

/-- States that meet the hypotheses of `Obligations.SessionsKept`, one for each clause. -/
theorem witness_SessionsKept :
    (∃ (s : State) (r : SpdmReq), s.spReaches r.transport = true ∧
      r.version = 0x12 ∧
      s.spReady r.transport = true ∧
      s.lifecycle ≠ 0 ∧
      s.sec.sessions.length < 4 ∧
      r.param2 = 0) ∧
    (∃ (s : State) (r : SpdmReq), s.spReaches r.transport = true ∧
      r.version = 0x12 ∧
      ∃ x, s.session r = some x ∧
      x.established = false) ∧
    (∃ (s : State) (r : SpdmReq), s.spReaches r.transport = true ∧
      r.version = 0x12 ∧
      ∃ x, s.session r = some x ∧
      x.established = true ∧
      (r.param1 = 1 ∨ r.param1 = 2)) ∧
    (∃ (s : State) (r : SpdmReq), s.spReaches r.transport = true ∧
      r.version = 0x12 ∧
      ∃ x, s.session r = some x ∧
      x.established = true ∧
      r.param1 = 3) ∧
    (∃ (s : State) (r : SpdmReq), s.spReaches r.transport = true ∧
      r.version = 0x12 ∧
      ∃ x, s.session r = some x ∧
      x.established = true ∧
      ∃ stream, r.transport = .doe ∧
      s.host.up = true ∧
      stream ∈ s.linkStreams) ∧
    (∃ (s : State) (r : SpdmReq), s.spReaches r.transport = true ∧
      r.version = 0x12 ∧
      ∃ part, s.sec.chunkOut ≠ [] ∧
      (s.spLimit r.transport = 0 ∨ 16 < s.spLimit r.transport) ∧
      part = (if s.spLimit r.transport = 0 then s.sec.chunkOut else s.sec.chunkOut.take (s.spLimit r.transport - 16))) ∧
    (∃ (s : State) (r : SpdmReq), s.spReaches r.transport = true ∧
      r.version = 0x12 ∧
      ∃ (all ack : List Byte), ack = leBytes 1 0 ++ leBytes 1 r.param2 ++ leBytes 2 (leAt r.body 0 2) ∧
      all = (if leAt r.body 0 2 = 0 then (r.body.drop 12).take (leAt r.body 4 4) else s.sec.chunkIn ++ (r.body.drop 8).take
          (leAt r.body 4 4)) ∧
      bit r.param1 0 = false) ∧
    (∃ (s : State) (r : SpdmReq), s.spReaches r.transport = true ∧
      r.version = 0x12 ∧
      ∃ (all ack : List Byte), ack = leBytes 1 0 ++ leBytes 1 r.param2 ++ leBytes 2 (leAt r.body 0 2) ∧
      all = (if leAt r.body 0 2 = 0 then (r.body.drop 12).take (leAt r.body 4 4) else s.sec.chunkIn ++ (r.body.drop 8).take
          (leAt r.body 4 4)) ∧
      ∃ x, bit r.param1 0 = true ∧
      x = ({ s with sec := { s.sec with chunkIn := [] } } : State).spdmDo (leAt all 1 1)
          { r with version := leAt all 0 1, param1 := leAt all 2 1, param2 := leAt all 3 1, body := all.drop 4 }) ∧
    (∃ (s : State) (stream : IdeStream), stream ∈ s.host.ide ∧
      s.host.up = true) :=
  ⟨(by
    have H : ((fun (s : State) (r : SpdmReq) => decide (s.spReaches r.transport = true) && (decide (r.version = 0x12) &&
        (decide (s.spReady r.transport = true) && (decide (s.lifecycle ≠ 0) && (decide (s.sec.sessions.length < 4) &&
        (decide (r.param2 = 0) && (true))))))) (agreed) (spdm .doe none 0 0 [])) = true := by decide +kernel
    obtain ⟨h0, H⟩ := and_of H
    obtain ⟨h1, H⟩ := and_of H
    obtain ⟨h2, H⟩ := and_of H
    obtain ⟨h3, H⟩ := and_of H
    obtain ⟨h4, H⟩ := and_of H
    obtain ⟨h5, H⟩ := and_of H
    exact ⟨agreed, (spdm .doe none 0 0 []), h0, h1, h2, h3, h4, h5⟩),
   (by
    have H : ((fun (s : State) (r : SpdmReq) => decide (s.spReaches r.transport = true) && (decide (r.version = 0x12) &&
        (onSome (s.session r) fun x => decide (x.established = false) && (true)))) (inSession false) (spdm .doe (some 0) 0 0 []))
        = true := by decide +kernel
    obtain ⟨h0, H⟩ := and_of H
    obtain ⟨h1, H⟩ := and_of H
    obtain ⟨x, h2, H⟩ := of_some H
    obtain ⟨h3, H⟩ := and_of H
    exact ⟨(inSession false), (spdm .doe (some 0) 0 0 []), h0, h1, _, h2, h3⟩),
   (by
    have H : ((fun (s : State) (r : SpdmReq) => decide (s.spReaches r.transport = true) && (decide (r.version = 0x12) &&
        (onSome (s.session r) fun x => decide (x.established = true) && (decide (r.param1 = 1 ∨ r.param1 = 2) &&
        (true))))) (inSession true) (spdm .doe (some 0) 1 0 [])) = true := by decide +kernel
    obtain ⟨h0, H⟩ := and_of H
    obtain ⟨h1, H⟩ := and_of H
    obtain ⟨x, h2, H⟩ := of_some H
    obtain ⟨h3, H⟩ := and_of H
    obtain ⟨h4, H⟩ := and_of H
    exact ⟨(inSession true), (spdm .doe (some 0) 1 0 []), h0, h1, _, h2, h3, h4⟩),
   (by
    have H : ((fun (s : State) (r : SpdmReq) => decide (s.spReaches r.transport = true) && (decide (r.version = 0x12) &&
        (onSome (s.session r) fun x => decide (x.established = true) && (decide (r.param1 = 3) &&
        (true))))) (inSession true) (spdm .doe (some 0) 3 0 [])) = true := by decide +kernel
    obtain ⟨h0, H⟩ := and_of H
    obtain ⟨h1, H⟩ := and_of H
    obtain ⟨x, h2, H⟩ := of_some H
    obtain ⟨h3, H⟩ := and_of H
    obtain ⟨h4, H⟩ := and_of H
    exact ⟨(inSession true), (spdm .doe (some 0) 3 0 []), h0, h1, _, h2, h3, h4⟩),
   (by
    have H : ((fun (s : State) (r : SpdmReq) stream => decide (s.spReaches r.transport = true) &&
        (decide (r.version = 0x12) && (onSome (s.session r) fun x => decide (x.established = true) &&
        (decide (r.transport = .doe) && (decide (s.host.up = true) && (decide (stream ∈ s.linkStreams) &&
        (true))))))) (inSession true) (spdm .doe (some 0) 0 0 []) (.io)) = true := by decide +kernel
    obtain ⟨h0, H⟩ := and_of H
    obtain ⟨h1, H⟩ := and_of H
    obtain ⟨x, h2, H⟩ := of_some H
    obtain ⟨h3, H⟩ := and_of H
    obtain ⟨h4, H⟩ := and_of H
    obtain ⟨h5, H⟩ := and_of H
    obtain ⟨h6, H⟩ := and_of H
    exact ⟨(inSession true), (spdm .doe (some 0) 0 0 []), h0, h1, _, h2, h3, .io, h4, h5, h6⟩),
   (by
    have H : ((fun (s : State) (r : SpdmReq) => decide (s.spReaches r.transport = true) && (decide (r.version = 0x12) &&
        (decide (s.sec.chunkOut ≠ []) && (decide (s.spLimit r.transport = 0 ∨ 16 < s.spLimit r.transport) && ((fun part =>
        true) ((if s.spLimit r.transport = 0 then s.sec.chunkOut else s.sec.chunkOut.take (s.spLimit r.transport - 16))))))))
        ({ agreed with sec := { agreed.sec with chunkOut := List.replicate 60 1 } }) (spdm .doe none 0 0 [])) = true :=
        by decide +kernel
    obtain ⟨h0, H⟩ := and_of H
    obtain ⟨h1, H⟩ := and_of H
    obtain ⟨h2, H⟩ := and_of H
    obtain ⟨h3, H⟩ := and_of H
    exact ⟨({ agreed with sec := { agreed.sec with chunkOut := List.replicate 60 1 } }), (spdm .doe none 0 0 []), h0, h1, _,
        h2, h3, rfl⟩),
   (by
    have H : ((fun (s : State) (r : SpdmReq) => decide (s.spReaches r.transport = true) && (decide (r.version = 0x12) &&
        ((fun (ack : List Byte) => (fun (all : List Byte) => decide (bit r.param1 0 = false) &&
        (true)) ((if leAt r.body 0 2 = 0 then (r.body.drop 12).take (leAt r.body 4 4) else s.sec.chunkIn ++ (r.body.drop 8).take
        (leAt r.body 4 4)))) (leBytes 1 0 ++ leBytes 1 r.param2 ++ leBytes 2 (leAt r.body 0 2))))) (agreed) (spdm .doe none 0 0
        (List.replicate 20 0))) = true := by decide +kernel
    obtain ⟨h0, H⟩ := and_of H
    obtain ⟨h1, H⟩ := and_of H
    obtain ⟨h4, H⟩ := and_of H
    exact ⟨agreed, (spdm .doe none 0 0 (List.replicate 20 0)), h0, h1, _, _, rfl, rfl, h4⟩),
   (by
    have H : ((fun (s : State) (r : SpdmReq) => decide (s.spReaches r.transport = true) && (decide (r.version = 0x12) &&
        ((fun (ack : List Byte) => (fun (all : List Byte) => decide (bit r.param1 0 = true) && ((fun x =>
        true) (({ s with sec := { s.sec with chunkIn := [] } } : State).spdmDo (leAt all 1 1)
        { r with version := leAt all 0 1, param1 := leAt all 2 1, param2 := leAt all 3 1, body := all.drop 4 }))) ((if leAt r.body
        0 2 = 0 then (r.body.drop 12).take (leAt r.body 4 4) else s.sec.chunkIn ++ (r.body.drop 8).take (leAt r.body 4 4))))
        (leBytes 1 0 ++ leBytes 1 r.param2 ++ leBytes 2 (leAt r.body 0 2))))) (agreed) (spdm .doe none 1 0 (List.replicate 20 0)))
        = true := by decide +kernel
    obtain ⟨h0, H⟩ := and_of H
    obtain ⟨h1, H⟩ := and_of H
    obtain ⟨h4, H⟩ := and_of H
    exact ⟨agreed, (spdm .doe none 1 0 (List.replicate 20 0)), h0, h1, _, _, rfl, rfl, _, h4, rfl⟩),
   (by
    have H : ((fun (s : State) (stream : IdeStream) => decide (stream ∈ s.host.ide) && (decide (s.host.up = true) &&
        (true))) ({ agreed with host := { agreed.host with ide := [.link] } }) (.link)) = true := by decide +kernel
    obtain ⟨h0, H⟩ := and_of H
    obtain ⟨h1, H⟩ := and_of H
    exact ⟨({ agreed with host := { agreed.host with ide := [.link] } }), .link, h0, h1⟩)⟩

/-- `device` in a power state, with a transition running or none. -/
def powered (st : Nat) (target : Option Nat) : State :=
  let s := sets [(pwrStatusState, st), (pwrStatusBusy, if target.isSome then 1 else 0)] device
  { s with power := { s.power with target := target } }
/-- The function tables in force come from an image on another member. -/
def tabled : State :=
  let s := powered 3 (some 0)
  { s with fn := { s.fn with current := 1, images := [(1, { gen := 1, run := 1, source := mkAddr 7 0x1000, bytes := [1] })] } }

/-- States that meet the hypotheses of `Obligations.PowerStatesChange`, one for each clause. -/
theorem witness_PowerStatesChange :
    (∃ (s : State) (t : Nat) (c : Instr), ((t = 0 ∧ c = .pwrTargetFull) ∨ (t = 2 ∧ c = .pwrTargetDark) ∨ (t = 3 ∧
        c = .pwrTargetGhostLight)) ∧
      s.inReset = false ∧
      s.power.ghostLatched = false ∧
      s.flag pwrStatusBusy = true) ∧
    (∃ (s : State) (t : Nat) (c : Instr), ((t = 0 ∧ c = .pwrTargetFull) ∨ (t = 2 ∧ c = .pwrTargetDark) ∨ (t = 3 ∧
        c = .pwrTargetGhostLight)) ∧
      s.inReset = false ∧
      s.power.ghostLatched = false ∧
      s.flag pwrStatusBusy = false ∧
      t = 0 ∧
      s.powerState = 1) ∧
    (∃ (s : State) (t : Nat) (c : Instr), ((t = 0 ∧ c = .pwrTargetFull) ∨ (t = 2 ∧ c = .pwrTargetDark) ∨ (t = 3 ∧
        c = .pwrTargetGhostLight)) ∧
      s.inReset = false ∧
      s.power.ghostLatched = false ∧
      s.flag pwrStatusBusy = false ∧
      t = 0 ∧
      2 ≤ s.powerState) ∧
    (∃ (s : State) (t : Nat) (c : Instr), ((t = 0 ∧ c = .pwrTargetFull) ∨ (t = 2 ∧ c = .pwrTargetDark) ∨ (t = 3 ∧
        c = .pwrTargetGhostLight)) ∧
      s.inReset = false ∧
      s.power.ghostLatched = false ∧
      s.flag pwrStatusBusy = false ∧
      s.powerState < t ∧
      s.darkRefusal = 0) ∧
    (∃ (s : State) (t : Nat) (c : Instr), ((t = 0 ∧ c = .pwrTargetFull) ∨ (t = 2 ∧ c = .pwrTargetDark) ∨ (t = 3 ∧
        c = .pwrTargetGhostLight)) ∧
      s.inReset = false ∧
      s.power.ghostLatched = false ∧
      s.flag pwrStatusBusy = false ∧
      s.powerState < t ∧
      s.darkRefusal ≠ 0) ∧
    (∃ (s : State), s.runs = [] ∧
      s.power.heldRequest = none ∧
      s.power.target = some 2 ∧
      s.powerState < 2) ∧
    (∃ (s : State), s.runs = [] ∧
      s.power.heldRequest = none ∧
      s.power.target = some 3 ∧
      2 ≤ s.powerState ∧
      s.flash.programs = []) ∧
    (∃ (s : State) (now : Nat), s.runs = [] ∧
      s.power.heldRequest = none ∧
      s.power.target = some 0 ∧
      s.powerState = 3 ∧
      ∃ u, (s.tick now).restoreTables = (u, false)) ∧
    (∃ (s : State), s.runs = [] ∧
      s.power.heldRequest = none ∧
      s.power.target = some 0 ∧
      s.powerState ≠ 3 ∧
      s.power.curtainDue = none ∧
      (∀ x ∈ s.rings, x.2.heldLine = none)) ∧
    (∃ (s w : State) (now : Nat), w = s.tick now ∧
      s.power.draining = true ∧
      s.runs ≠ [] ∧
      s.power.ghostLatched = false ∧
      s.power.heldRequest = none ∧
      s.power.since + 100000000 ≤ w.now) ∧
    (∃ (s w : State) (now : Nat), w = s.tick now ∧
      s.flag pwrCtrlDimAuto = true ∧
      s.powerState = 0 ∧
      s.flag pwrStatusBusy = false ∧
      s.idle = true ∧
      s.inReset = false ∧
      s.power.busyUntil + 1000 * s.fld pwrCtrlDimIdleUs ≤ w.now) :=
  ⟨(by
    have H : ((fun (s : State) (t : Nat) (c : Instr) => decide ((t = 0 ∧ c = .pwrTargetFull) ∨ (t = 2 ∧ c = .pwrTargetDark) ∨
        (t = 3 ∧ c = .pwrTargetGhostLight)) && (decide (s.inReset = false) && (decide (s.power.ghostLatched = false) &&
        (decide (s.flag pwrStatusBusy = true) && (true))))) (powered 0 (some 2)) (3) (.pwrTargetGhostLight)) = true :=
        by decide +kernel
    obtain ⟨h0, H⟩ := and_of H
    obtain ⟨h1, H⟩ := and_of H
    obtain ⟨h2, H⟩ := and_of H
    obtain ⟨h3, H⟩ := and_of H
    exact ⟨(powered 0 (some 2)), 3, .pwrTargetGhostLight, h0, h1, h2, h3⟩),
   (by
    have H : ((fun (s : State) (t : Nat) (c : Instr) => decide ((t = 0 ∧ c = .pwrTargetFull) ∨ (t = 2 ∧ c = .pwrTargetDark) ∨
        (t = 3 ∧ c = .pwrTargetGhostLight)) && (decide (s.inReset = false) && (decide (s.power.ghostLatched = false) &&
        (decide (s.flag pwrStatusBusy = false) && (decide (t = 0) && (decide (s.powerState = 1) &&
        (true))))))) (powered 1 none) (0) (.pwrTargetFull)) = true := by decide +kernel
    obtain ⟨h0, H⟩ := and_of H
    obtain ⟨h1, H⟩ := and_of H
    obtain ⟨h2, H⟩ := and_of H
    obtain ⟨h3, H⟩ := and_of H
    obtain ⟨h4, H⟩ := and_of H
    obtain ⟨h5, H⟩ := and_of H
    exact ⟨(powered 1 none), 0, .pwrTargetFull, h0, h1, h2, h3, h4, h5⟩),
   (by
    have H : ((fun (s : State) (t : Nat) (c : Instr) => decide ((t = 0 ∧ c = .pwrTargetFull) ∨ (t = 2 ∧ c = .pwrTargetDark) ∨
        (t = 3 ∧ c = .pwrTargetGhostLight)) && (decide (s.inReset = false) && (decide (s.power.ghostLatched = false) &&
        (decide (s.flag pwrStatusBusy = false) && (decide (t = 0) && (decide (2 ≤ s.powerState) &&
        (true))))))) (powered 3 none) (0) (.pwrTargetFull)) = true := by decide +kernel
    obtain ⟨h0, H⟩ := and_of H
    obtain ⟨h1, H⟩ := and_of H
    obtain ⟨h2, H⟩ := and_of H
    obtain ⟨h3, H⟩ := and_of H
    obtain ⟨h4, H⟩ := and_of H
    obtain ⟨h5, H⟩ := and_of H
    exact ⟨(powered 3 none), 0, .pwrTargetFull, h0, h1, h2, h3, h4, h5⟩),
   (by
    have H : ((fun (s : State) (t : Nat) (c : Instr) => decide ((t = 0 ∧ c = .pwrTargetFull) ∨ (t = 2 ∧ c = .pwrTargetDark) ∨
        (t = 3 ∧ c = .pwrTargetGhostLight)) && (decide (s.inReset = false) && (decide (s.power.ghostLatched = false) &&
        (decide (s.flag pwrStatusBusy = false) && (decide (s.powerState < t) && (decide (s.darkRefusal = 0) &&
        (true))))))) (powered 0 none) (2) (.pwrTargetDark)) = true := by decide +kernel
    obtain ⟨h0, H⟩ := and_of H
    obtain ⟨h1, H⟩ := and_of H
    obtain ⟨h2, H⟩ := and_of H
    obtain ⟨h3, H⟩ := and_of H
    obtain ⟨h4, H⟩ := and_of H
    obtain ⟨h5, H⟩ := and_of H
    exact ⟨(powered 0 none), 2, .pwrTargetDark, h0, h1, h2, h3, h4, h5⟩),
   (by
    have H : ((fun (s : State) (t : Nat) (c : Instr) => decide ((t = 0 ∧ c = .pwrTargetFull) ∨ (t = 2 ∧ c = .pwrTargetDark) ∨
        (t = 3 ∧ c = .pwrTargetGhostLight)) && (decide (s.inReset = false) && (decide (s.power.ghostLatched = false) &&
        (decide (s.flag pwrStatusBusy = false) && (decide (s.powerState < t) && (decide (s.darkRefusal ≠ 0) &&
        (true))))))) (coppiced) (2) (.pwrTargetDark)) = true := by decide +kernel
    obtain ⟨h0, H⟩ := and_of H
    obtain ⟨h1, H⟩ := and_of H
    obtain ⟨h2, H⟩ := and_of H
    obtain ⟨h3, H⟩ := and_of H
    obtain ⟨h4, H⟩ := and_of H
    obtain ⟨h5, H⟩ := and_of H
    exact ⟨coppiced, 2, .pwrTargetDark, h0, h1, h2, h3, h4, h5⟩),
   (by
    have H : ((fun (s : State) => decide (s.runs = []) && (decide (s.power.heldRequest = none) &&
        (decide (s.power.target = some 2) && (decide (s.powerState < 2) && (true))))) (powered 1 (some 2))) = true :=
        by decide +kernel
    obtain ⟨h0, H⟩ := and_of H
    obtain ⟨h1, H⟩ := and_of H
    obtain ⟨h2, H⟩ := and_of H
    obtain ⟨h3, H⟩ := and_of H
    exact ⟨(powered 1 (some 2)), h0, h1, h2, h3⟩),
   (by
    have H : ((fun (s : State) => decide (s.runs = []) && (decide (s.power.heldRequest = none) &&
        (decide (s.power.target = some 3) && (decide (2 ≤ s.powerState) && (decide (s.flash.programs = []) &&
        (true)))))) (powered 2 (some 3))) = true := by decide +kernel
    obtain ⟨h0, H⟩ := and_of H
    obtain ⟨h1, H⟩ := and_of H
    obtain ⟨h2, H⟩ := and_of H
    obtain ⟨h3, H⟩ := and_of H
    obtain ⟨h4, H⟩ := and_of H
    exact ⟨(powered 2 (some 3)), h0, h1, h2, h3, h4⟩),
   (by
    have H : ((fun (s : State) (now : Nat) u => decide (s.runs = []) && (decide (s.power.heldRequest = none) &&
        (decide (s.power.target = some 0) && (decide (s.powerState = 3) && (true))))) (tabled) (5) ((tabled.tick
        5).restoreTables.1)) = true := by decide +kernel
    obtain ⟨h0, H⟩ := and_of H
    obtain ⟨h1, H⟩ := and_of H
    obtain ⟨h2, H⟩ := and_of H
    obtain ⟨h3, H⟩ := and_of H
    exact ⟨tabled, 5, h0, h1, h2, h3, ((tabled.tick 5).restoreTables.1), (Prod.ext rfl (by decide +kernel))⟩),
   (by
    have H : ((fun (s : State) => decide (s.runs = []) && (decide (s.power.heldRequest = none) &&
        (decide (s.power.target = some 0) && (decide (s.powerState ≠ 3) && (decide (s.power.curtainDue = none) &&
        (decide ((∀ x ∈ s.rings, x.2.heldLine = none)) && (true))))))) (powered 2 (some 0))) = true := by decide +kernel
    obtain ⟨h0, H⟩ := and_of H
    obtain ⟨h1, H⟩ := and_of H
    obtain ⟨h2, H⟩ := and_of H
    obtain ⟨h3, H⟩ := and_of H
    obtain ⟨h4, H⟩ := and_of H
    obtain ⟨h5, H⟩ := and_of H
    exact ⟨(powered 2 (some 0)), h0, h1, h2, h3, h4, h5⟩),
   (by
    have H : ((fun (s : State) (now : Nat) => (fun (w : State) => decide (s.power.draining = true) && (decide (s.runs ≠ []) && (decide (s.power.ghostLatched = false) && (decide (s.power.heldRequest = none) && (decide (s.power.since + 100000000 ≤ w.now) && (true)))))) (s.tick now)) (runs (aRun fabItem) (let p := powered 0 (some 2); { p with power := { p.power with draining := true } })) (10 ^ 8)) = true := by decide +kernel
    obtain ⟨h1, H⟩ := and_of H
    obtain ⟨h2, H⟩ := and_of H
    obtain ⟨h3, H⟩ := and_of H
    obtain ⟨h4, H⟩ := and_of H
    obtain ⟨h5, H⟩ := and_of H
    exact ⟨(runs (aRun fabItem) (let p := powered 0 (some 2); { p with power := { p.power with draining := true } })), _, (10 ^ 8), rfl, h1, h2, h3, h4, h5⟩),
   (by
    have H : ((fun (s : State) (now : Nat) => (fun (w : State) => decide (s.flag pwrCtrlDimAuto = true) &&
        (decide (s.powerState = 0) && (decide (s.flag pwrStatusBusy = false) && (decide (s.idle = true) &&
        (decide (s.inReset = false) && (decide (s.power.busyUntil + 1000 * s.fld pwrCtrlDimIdleUs ≤ w.now) &&
        (true))))))) (s.tick now)) (sets [(pwrCtrlDimAuto, 1)] device) (10 ^ 10)) = true := by decide +kernel
    obtain ⟨h1, H⟩ := and_of H
    obtain ⟨h2, H⟩ := and_of H
    obtain ⟨h3, H⟩ := and_of H
    obtain ⟨h4, H⟩ := and_of H
    obtain ⟨h5, H⟩ := and_of H
    obtain ⟨h6, H⟩ := and_of H
    exact ⟨(sets [(pwrCtrlDimAuto, 1)] device), _, (10 ^ 10), rfl, h1, h2, h3, h4, h5, h6⟩)⟩

/-- `device` with the power failing, or not. -/
def failing (q : Bool) : State := { device with flash := { device.flash with failing := q, senseSeq := some 255 } }

/-- States that meet the hypotheses of `Obligations.PowerFailureQuiesces`, one for each clause. -/
theorem witness_PowerFailureQuiesces :
    (∃ (s : State), s.inReset = false) ∧
    (∃ (s : State), s.flash.failing = true ∧
      s.flash.programs = [] ∧
      s.flash.trims = [] ∧
      s.flag flashStatusQuiesced = false) ∧
    (∃ (s : State), s.flash.failing = true) ∧
    (∃ (s w : State) (bits : BitVec 32) (stop : Bool) (now : Nat), w = s.tick now ∧
      w.inReset = false ∧
      stop = true ∧
      field bits.toNat 24 8 = crc8 (leBytes 3 (bits.toNat % 2 ^ 24)) ∧
      (∀ q, s.flash.senseSeq = some q → field bits.toNat 16 8 = (q + 1) % 256)) ∧
    (∃ (s w : State) (bits : BitVec 32) (stop : Bool) (now : Nat), w = s.tick now ∧
      w.inReset = false ∧
      (stop = false ∨ field bits.toNat 24 8 ≠ crc8 (leBytes 3 (bits.toNat % 2 ^ 24)))) ∧
    (∃ (s w : State) (now : Nat), w = s.tick now ∧
      (∀ t0, s.flash.senseAt = some t0 → t0 + 100000 < w.now)) :=
  ⟨(by
    have H : ((fun (s : State) => decide (s.inReset = false) && (true)) (runs (aRun fabItem) device)) = true := by decide +kernel
    obtain ⟨h0, H⟩ := and_of H
    exact ⟨(runs (aRun fabItem) device), h0⟩),
   (by
    have H : ((fun (s : State) => decide (s.flash.failing = true) && (decide (s.flash.programs = []) &&
        (decide (s.flash.trims = []) && (decide (s.flag flashStatusQuiesced = false) && (true))))) (failing true)) = true :=
        by decide +kernel
    obtain ⟨h0, H⟩ := and_of H
    obtain ⟨h1, H⟩ := and_of H
    obtain ⟨h2, H⟩ := and_of H
    obtain ⟨h3, H⟩ := and_of H
    exact ⟨(failing true), h0, h1, h2, h3⟩),
   (by
    have H : ((fun (s : State) => decide (s.flash.failing = true) && (true)) (failing true)) = true := by decide +kernel
    obtain ⟨h0, H⟩ := and_of H
    exact ⟨(failing true), h0⟩),
   (by
    have H : ((fun (s : State) (bits : BitVec 32) (stop : Bool) (now : Nat) => (fun (w : State) =>
        decide (w.inReset = false) && (decide (stop = true) && (decide (field bits.toNat 24 8 = crc8 (leBytes 3 (bits.toNat % 2 ^
        24))) && (decide ((s.flash.senseSeq).all (fun q => decide (field bits.toNat 16 8 = (q + 1) % 256)) = true) &&
        (true))))) (s.tick now)) (failing false) (BitVec.ofNat 32 (12000 + 2 ^ 24 * crc8 (leBytes 3 12000))) (true) (5)) = true :=
        by decide +kernel
    obtain ⟨h1, H⟩ := and_of H
    obtain ⟨h2, H⟩ := and_of H
    obtain ⟨h3, H⟩ := and_of H
    obtain ⟨h4, H⟩ := and_of H
    exact ⟨(failing false), _, (BitVec.ofNat 32 (12000 + 2 ^ 24 * crc8 (leBytes 3 12000))), true, 5, rfl, h1, h2, h3,
        (forall_some h4)⟩),
   (by
    have H : ((fun (s : State) (bits : BitVec 32) (stop : Bool) (now : Nat) => (fun (w : State) =>
        decide (w.inReset = false) && (decide (stop = false ∨ field bits.toNat 24 8 ≠ crc8 (leBytes 3 (bits.toNat % 2 ^ 24))) &&
        (true))) (s.tick now)) (failing false) (BitVec.ofNat 32 (12000 + 2 ^ 24 * crc8 (leBytes 3 12000))) (false) (5)) = true :=
        by decide +kernel
    obtain ⟨h1, H⟩ := and_of H
    obtain ⟨h2, H⟩ := and_of H
    exact ⟨(failing false), _, (BitVec.ofNat 32 (12000 + 2 ^ 24 * crc8 (leBytes 3 12000))), false, 5, rfl, h1, h2⟩),
   (by
    have H : ((fun (s : State) (now : Nat) => (fun (w : State) => decide ((s.flash.senseAt).all (fun t0 =>
        decide (t0 + 100000 < w.now)) = true) && (true)) (s.tick now))
        ({ device with flash := { device.flash with senseAt := some 5 } }) (100006)) = true := by decide +kernel
    obtain ⟨h1, H⟩ := and_of H
    exact ⟨({ device with flash := { device.flash with senseAt := some 5 } }), _, 100006, rfl, (forall_some h1)⟩)⟩

/-- States that meet the hypotheses of `Obligations.ResetsKeepWhatTheyKeep`, one for each clause. -/
theorem witness_ResetsKeepWhatTheyKeep :
    (∃ (s : State) (lowNs : Nat), s.boot.tripped = false ∧
      lowNs < 10000) ∧
    (∃ (s : State) (lowNs : Nat), s.boot.tripped = false ∧
      10000 ≤ lowNs) ∧
    (∃ (s : State) (path : ResetPath) (n : Nat), s.inReset = false ∧
      (path = .host → s.hostServes rDeviceReset = true) ∧
      n = (if path = .host then 3 else 4) ∧
      s.rel.smUp = false) ∧
    (∃ (s : State) (path : ResetPath) (n : Nat), s.inReset = false ∧
      (path = .host → s.hostServes rDeviceReset = true) ∧
      n = (if path = .host then 3 else 4) ∧
      s.rel.smUp = true) ∧
    (∃ (s : State), s.boot.tripped = false) ∧
    (∃ (s : State) (ir : TapTest), s.boot.tapHold = some ir) ∧
    (∃ (s : State) (l : List Int), s.inReset = false ∧
      (hottest l).1 ≤ s.junctionMax) ∧
    (∃ (s : State) (l : List Int), s.inReset = false ∧
      s.junctionTrip < (hottest l).1) :=
  ⟨(by
    have H : ((fun (s : State) (lowNs : Nat) => decide (s.boot.tripped = false) && (decide (lowNs < 10000) &&
        (true))) (device) (9999)) = true := by decide +kernel
    obtain ⟨h0, H⟩ := and_of H
    obtain ⟨h1, H⟩ := and_of H
    exact ⟨device, 9999, h0, h1⟩),
   (by
    have H : ((fun (s : State) (lowNs : Nat) => decide (s.boot.tripped = false) && (decide (10000 ≤ lowNs) &&
        (true))) (device) (10000)) = true := by decide +kernel
    obtain ⟨h0, H⟩ := and_of H
    obtain ⟨h1, H⟩ := and_of H
    exact ⟨device, 10000, h0, h1⟩),
   (by
    have H : ((fun (s : State) (path : ResetPath) (n : Nat) => decide (s.inReset = false) && (decide ((path = .host →
        s.hostServes rDeviceReset = true)) && (decide (n = (if path = .host then 3 else 4)) && (decide (s.rel.smUp = false) &&
        (true))))) ({ device with rel := { device.rel with smUp := false } }) (.host) (3)) = true := by decide +kernel
    obtain ⟨h0, H⟩ := and_of H
    obtain ⟨h1, H⟩ := and_of H
    obtain ⟨h2, H⟩ := and_of H
    obtain ⟨h3, H⟩ := and_of H
    exact ⟨({ device with rel := { device.rel with smUp := false } }), .host, 3, h0, h1, h2, h3⟩),
   (by
    have H : ((fun (s : State) (path : ResetPath) (n : Nat) => decide (s.inReset = false) && (decide ((path = .host →
        s.hostServes rDeviceReset = true)) && (decide (n = (if path = .host then 3 else 4)) && (decide (s.rel.smUp = true) &&
        (true))))) (device) (.host) (3)) = true := by decide +kernel
    obtain ⟨h0, H⟩ := and_of H
    obtain ⟨h1, H⟩ := and_of H
    obtain ⟨h2, H⟩ := and_of H
    obtain ⟨h3, H⟩ := and_of H
    exact ⟨device, .host, 3, h0, h1, h2, h3⟩),
   (by
    have H : ((fun (s : State) => decide (s.boot.tripped = false) && (true)) (device)) = true := by decide +kernel
    obtain ⟨h0, H⟩ := and_of H
    exact ⟨device, h0⟩),
   (by
    have H : ((fun (s : State) => onSome (s.boot.tapHold) fun (ir : TapTest) =>
        true) ({ State.reset with boot := { State.reset.boot with tapHold := some .extest } })) = true := by decide +kernel
    obtain ⟨ir, h0, H⟩ := of_some H
    exact ⟨({ State.reset with boot := { State.reset.boot with tapHold := some .extest } }), _, h0⟩),
   (by
    have H : ((fun (s : State) (l : List Int) => decide (s.inReset = false) && (decide ((hottest l).1 ≤ s.junctionMax) &&
        (true))) (device) ([380, -40])) = true := by decide +kernel
    obtain ⟨h0, H⟩ := and_of H
    obtain ⟨h1, H⟩ := and_of H
    exact ⟨device, ([380, -40]), h0, h1⟩),
   (by
    have H : ((fun (s : State) (l : List Int) => decide (s.inReset = false) && (decide (s.junctionTrip < (hottest l).1) &&
        (true))) (device) ([380, 421])) = true := by decide +kernel
    obtain ⟨h0, H⟩ := and_of H
    obtain ⟨h1, H⟩ := and_of H
    exact ⟨device, ([380, 421]), h0, h1⟩)⟩

/-- What a good start finds, but for the firmware copies. -/
def findings (a b : Bool) : BootFindings :=
  { lpddrFailed := [], hbmFailed := [], flashFound := [], factoryBad := [], fwPassA := a, fwPassB := b, tagFails := [],
    norRefused := 0, configOk := true, repairOk := true, rootOk := true, lifecycleOk := true }

/-- A device that is ready, with its host port not released. -/
def readied : State :=
  let s := sets [(bootStatusPhase, 4), (flashLogicalTilesTiles, 16)] State.reset
  { s with boot := { s.boot with ready := true } }

/-- States that meet the hypotheses of `Obligations.BringUpReadiesTheDevice`, one for each clause. -/
theorem witness_BringUpReadiesTheDevice :
    (∃ (s w : State) (f : BootFindings) (now : Nat), w = s.tick now ∧
      s.fld bootStatusPhase = 0 ∧
      s.boot.tapHold = none ∧
      s.fld bootStatusError = 0 ∧
      s.boot.tripped = false ∧
      w.bootCopy f = none) ∧
    (∃ (s w : State) (f : BootFindings) (now : Nat), w = s.tick now ∧
      s.fld bootStatusPhase = 0 ∧
      s.boot.tapHold = none ∧
      s.fld bootStatusError = 0 ∧
      s.boot.tripped = false ∧
      ∃ c, w.bootCopy f = some c ∧
      f.lifecycleOk = true ∧
      f.configOk = true ∧
      f.repairOk = true ∧
      f.hbmFailed = [] ∧
      s.book.lifecycle < 8) ∧
    (∃ (s w : State) (now : Nat), w = s.tick now ∧
      s.boot.ready = true ∧
      s.host.released = false ∧
      s.boot.perstN = true ∧
      s.boot.curtainAtRelease = false) ∧
    (∃ (s : State), s.boot.ready = true ∧
      s.fld flashLogicalTilesTiles ≠ 0 ∧
      s.flag flashStatusReady = false ∧
      s.flash.early = [] ∧
      s.flash.inbound = []) :=
  ⟨(by
    have H : ((fun (s : State) (f : BootFindings) (now : Nat) => (fun (w : State) => decide (s.fld bootStatusPhase = 0) &&
        (decide (s.boot.tapHold = none) && (decide (s.fld bootStatusError = 0) && (decide (s.boot.tripped = false) &&
        (decide (w.bootCopy f = none) && (true)))))) (s.tick now)) (State.reset) (findings false false) (5)) = true :=
        by decide +kernel
    obtain ⟨h1, H⟩ := and_of H
    obtain ⟨h2, H⟩ := and_of H
    obtain ⟨h3, H⟩ := and_of H
    obtain ⟨h4, H⟩ := and_of H
    obtain ⟨h5, H⟩ := and_of H
    exact ⟨State.reset, _, (findings false false), 5, rfl, h1, h2, h3, h4, h5⟩),
   (by
    have H : ((fun (s : State) (f : BootFindings) (now : Nat) => (fun (w : State) => decide (s.fld bootStatusPhase = 0) &&
        (decide (s.boot.tapHold = none) && (decide (s.fld bootStatusError = 0) && (decide (s.boot.tripped = false) &&
        (onSome (w.bootCopy f) fun c => decide (f.lifecycleOk = true) && (decide (f.configOk = true) &&
        (decide (f.repairOk = true) && (decide (f.hbmFailed = []) && (decide (s.book.lifecycle < 8) &&
        (true)))))))))) (s.tick now)) (State.reset) (findings false true) (5)) = true := by decide +kernel
    obtain ⟨h1, H⟩ := and_of H
    obtain ⟨h2, H⟩ := and_of H
    obtain ⟨h3, H⟩ := and_of H
    obtain ⟨h4, H⟩ := and_of H
    obtain ⟨c, h5, H⟩ := of_some H
    obtain ⟨h6, H⟩ := and_of H
    obtain ⟨h7, H⟩ := and_of H
    obtain ⟨h8, H⟩ := and_of H
    obtain ⟨h9, H⟩ := and_of H
    obtain ⟨h10, H⟩ := and_of H
    exact ⟨State.reset, _, (findings false true), 5, rfl, h1, h2, h3, h4, _, h5, h6, h7, h8, h9, h10⟩),
   (by
    have H : ((fun (s : State) (now : Nat) => (fun (w : State) => decide (s.boot.ready = true) &&
        (decide (s.host.released = false) && (decide (s.boot.perstN = true) && (decide (s.boot.curtainAtRelease = false) &&
        (true))))) (s.tick now)) (readied) (5)) = true := by decide +kernel
    obtain ⟨h1, H⟩ := and_of H
    obtain ⟨h2, H⟩ := and_of H
    obtain ⟨h3, H⟩ := and_of H
    obtain ⟨h4, H⟩ := and_of H
    exact ⟨readied, _, 5, rfl, h1, h2, h3, h4⟩),
   (by
    have H : ((fun (s : State) => decide (s.boot.ready = true) && (decide (s.fld flashLogicalTilesTiles ≠ 0) &&
        (decide (s.flag flashStatusReady = false) && (decide (s.flash.early = []) && (decide (s.flash.inbound = []) &&
        (true)))))) (readied)) = true := by decide +kernel
    obtain ⟨h0, H⟩ := and_of H
    obtain ⟨h1, H⟩ := and_of H
    obtain ⟨h2, H⟩ := and_of H
    obtain ⟨h3, H⟩ := and_of H
    obtain ⟨h4, H⟩ := and_of H
    exact ⟨readied, h0, h1, h2, h3, h4⟩)⟩

/-- States that meet the hypotheses of `Obligations.DescriptorsCheckedFirst`, one for each clause. -/
theorem witness_DescriptorsCheckedFirst :
    (∃ (s w : State) (n now k : Nat) (given : Option (List Byte)) (d : List Byte), w = s.tick now ∧
      s.mayFetch n = true ∧
      (s.ring n).cons ≠ (s.ring n).prod ∧
      k = addrKey (s.reg (rRingSqBase n)) + 128 * ((s.ring n).cons.toNat % s.sqSize n) ∧
      ((s.ringDevice n = true ∧ s.devShut k = false ∧ s.devBad k 128 = false ∧ d = s.devRead k 128) ∨
          (s.ringDevice n = false ∧ given = some d ∧ d.length = 128))) ∧
    (∃ (s s1 : State) (n now st dt : Nat) (f : Fetched) (rest : List Fetched),
        s1 = ((s.tick now).wakeDimmed).dispatchRuns.noteHead n ∧
      (s1.ring n).fifo = f :: rest ∧
      (s1.ringRuns n).length < 32 ∧
      s1.choiceOf f ≠ .fallback ∧
      f.verdict = some (st, dt) ∧
      s1.roomFor n f.todo.length = true) :=
  ⟨(by
    have H : ((fun (s : State) (n : Nat) (now : Nat) (given : Option (List Byte)) (d : List Byte) => (fun (w : State) =>
        decide (s.mayFetch n = true) && (decide ((s.ring n).cons ≠ (s.ring n).prod) && ((fun (k : Nat) =>
        decide ((s.ringDevice n = true ∧ s.devShut k = false ∧ s.devBad k 128 = false ∧ d = s.devRead k 128) ∨
        (s.ringDevice n = false ∧ given = some d ∧ d.length = 128)) && (true)) (addrKey (s.reg (rRingSqBase n)) + 128 * ((s.ring
        n).cons.toNat % s.sqSize n))))) (s.tick now)) (device.setRing 0 { Ring.init with prod := 1 }) (0) (5) (none)
        (List.replicate 128 0)) = true := by decide +kernel
    obtain ⟨h1, H⟩ := and_of H
    obtain ⟨h2, H⟩ := and_of H
    obtain ⟨h4, H⟩ := and_of H
    exact ⟨(device.setRing 0 { Ring.init with prod := 1 }), _, 0, 5, _, none, (List.replicate 128 0), rfl, h1, h2, rfl, h4⟩),
   (by
    have H : ((fun (s : State) (n : Nat) (now : Nat) (st : Nat) (dt : Nat) (f : Fetched) (rest : List Fetched) =>
        (fun (s1 : State) => decide ((s1.ring n).fifo = f :: rest) && (decide ((s1.ringRuns n).length < 32) &&
        (decide (s1.choiceOf f ≠ .fallback) && (decide (f.verdict = some (st, dt)) &&
        (decide (s1.roomFor n f.todo.length = true) && (true)))))) (((s.tick now).wakeDimmed).dispatchRuns.noteHead n))
        (device.setRing 0 { Ring.init with prod := 1, cons := 1, fifo := [{ fetched (desc 0 0 1 []) with verdict := some (0x11, 0) }] }) (0) (5) (0x11) (0) ({ fetched (desc 0 0 1 []) with verdict := some (0x11, 0), headCue := some 0 }) ([])) = true := by decide +kernel
    obtain ⟨h1, H⟩ := and_of H
    obtain ⟨h2, H⟩ := and_of H
    obtain ⟨h3, H⟩ := and_of H
    obtain ⟨h4, H⟩ := and_of H
    obtain ⟨h5, H⟩ := and_of H
    exact ⟨(device.setRing 0
        { Ring.init with prod := 1, cons := 1, fifo := [{ fetched (desc 0 0 1 []) with verdict := some (0x11, 0) }] }), _, 0, 5,
        0x11, 0, ({ fetched (desc 0 0 1 []) with verdict := some (0x11, 0), headCue := some 0 }), [], rfl, h1, h2, h3, h4, h5⟩)⟩

/-- States that meet the hypotheses of `Obligations.CancelMarksCancelEarlierWork`, one for each clause. -/
theorem witness_CancelMarksCancelEarlierWork :
    (∃ (s u : State) (n : Nat) (l : DoorbellLine) (low : Word → Prop), s.ringLive n = true ∧
      s.isFallbackRing n = false ∧
      s.powerState = 0 ∧
      s.ringDevice n = true ∧
      s.readLine n = some l ∧
      (s.ring n).prodOk (s.sqSize n) l.prod = true ∧
      (s.ring n).consOk (s.cqSize n) l.cons = true ∧
      u = s.setRing n { s.ring n with prod := l.prod, cqCons := l.cons } ∧
      (∀ i, low i ↔ 1 ≤ (l.cancel - i).toNat ∧ (l.cancel - i).toNat ≤ 2 ^ 31) ∧
      l.cancel ≠ (s.ring n).cancel ∧
      (s.ring n).marked = true ∧
      1 ≤ ((s.ring n).cancel - l.cancel).toNat ∧
      ((s.ring n).cancel - l.cancel).toNat ≤ 2 ^ 31) ∧
    (∃ (s u : State) (n : Nat) (l : DoorbellLine) (low : Word → Prop), s.ringLive n = true ∧
      s.isFallbackRing n = false ∧
      s.powerState = 0 ∧
      s.ringDevice n = true ∧
      s.readLine n = some l ∧
      (s.ring n).prodOk (s.sqSize n) l.prod = true ∧
      (s.ring n).consOk (s.cqSize n) l.cons = true ∧
      u = s.setRing n { s.ring n with prod := l.prod, cqCons := l.cons } ∧
      (∀ i, low i ↔ 1 ≤ (l.cancel - i).toNat ∧ (l.cancel - i).toNat ≤ 2 ^ 31) ∧
      l.cancel ≠ (s.ring n).cancel ∧
      ((s.ring n).marked = false ∨ 2 ^ 31 < ((s.ring n).cancel - l.cancel).toNat)) ∧
    (∃ (s w : State) (n now : Nat) (d : List Byte), w = s.tick now ∧
      s.mayFetch n = true ∧
      s.ringDevice n = false ∧
      (s.ring n).cons ≠ (s.ring n).prod ∧
      d.length = 128 ∧
      (w.fetchVerdict n d).1 = none ∧
      (s.ring n).marked = true ∧
      1 ≤ ((s.ring n).cancel - (s.ring n).cons).toNat ∧
      ((s.ring n).cancel - (s.ring n).cons).toNat ≤ 2 ^ 31) :=
  ⟨(by
    have H : ((fun (s : State) (n : Nat) (l : DoorbellLine) (low : Word → Prop) => decide (s.ringLive n = true) &&
        (decide (s.isFallbackRing n = false) && (decide (s.powerState = 0) && (decide (s.ringDevice n = true) &&
        (decide (s.readLine n = some l) && (decide ((s.ring n).prodOk (s.sqSize n) l.prod = true) &&
        (decide ((s.ring n).consOk (s.cqSize n) l.cons = true) && ((fun (u : State) => decide (l.cancel ≠ (s.ring n).cancel) &&
        (decide ((s.ring n).marked = true) && (decide (1 ≤ ((s.ring n).cancel - l.cancel).toNat) &&
        (decide (((s.ring n).cancel - l.cancel).toNat ≤ 2 ^ 31) && (true))))) (s.setRing n
        { s.ring n with prod := l.prod, cqCons := l.cons }))))))))) ((rung 0 0 5).setRing 0
        { Ring.init with marked := true, cancel := 9 }) (0) (⟨0, 0, 5⟩) (fun i => 1 ≤ ((5 : Word) - i).toNat ∧
        ((5 : Word) - i).toNat ≤ 2 ^ 31)) = true := by decide +kernel
    obtain ⟨h0, H⟩ := and_of H
    obtain ⟨h1, H⟩ := and_of H
    obtain ⟨h2, H⟩ := and_of H
    obtain ⟨h3, H⟩ := and_of H
    obtain ⟨h4, H⟩ := and_of H
    obtain ⟨h5, H⟩ := and_of H
    obtain ⟨h6, H⟩ := and_of H
    obtain ⟨h9, H⟩ := and_of H
    obtain ⟨h10, H⟩ := and_of H
    obtain ⟨h11, H⟩ := and_of H
    obtain ⟨h12, H⟩ := and_of H
    exact ⟨((rung 0 0 5).setRing 0 { Ring.init with marked := true, cancel := 9 }), _, 0, (⟨0, 0, 5⟩), (fun i =>
        1 ≤ ((5 : Word) - i).toNat ∧ ((5 : Word) - i).toNat ≤ 2 ^ 31), h0, h1, h2, h3, h4, h5, h6, rfl, (fun _ => Iff.rfl), h9,
        h10, h11, h12⟩),
   (by
    have H : ((fun (s : State) (n : Nat) (l : DoorbellLine) (low : Word → Prop) => decide (s.ringLive n = true) &&
        (decide (s.isFallbackRing n = false) && (decide (s.powerState = 0) && (decide (s.ringDevice n = true) &&
        (decide (s.readLine n = some l) && (decide ((s.ring n).prodOk (s.sqSize n) l.prod = true) &&
        (decide ((s.ring n).consOk (s.cqSize n) l.cons = true) && ((fun (u : State) => decide (l.cancel ≠ (s.ring n).cancel) &&
        (decide ((s.ring n).marked = false ∨ 2 ^ 31 < ((s.ring n).cancel - l.cancel).toNat) &&
        (true))) (s.setRing n { s.ring n with prod := l.prod, cqCons := l.cons }))))))))) ((rung 0 0 5).setRing 0
        { Ring.init with marked := true, cancel := 4 }) (0) (⟨0, 0, 5⟩) (fun i => 1 ≤ ((5 : Word) - i).toNat ∧
        ((5 : Word) - i).toNat ≤ 2 ^ 31)) = true := by decide +kernel
    obtain ⟨h0, H⟩ := and_of H
    obtain ⟨h1, H⟩ := and_of H
    obtain ⟨h2, H⟩ := and_of H
    obtain ⟨h3, H⟩ := and_of H
    obtain ⟨h4, H⟩ := and_of H
    obtain ⟨h5, H⟩ := and_of H
    obtain ⟨h6, H⟩ := and_of H
    obtain ⟨h9, H⟩ := and_of H
    obtain ⟨h10, H⟩ := and_of H
    exact ⟨((rung 0 0 5).setRing 0 { Ring.init with marked := true, cancel := 4 }), _, 0, (⟨0, 0, 5⟩), (fun i =>
        1 ≤ ((5 : Word) - i).toNat ∧ ((5 : Word) - i).toNat ≤ 2 ^ 31), h0, h1, h2, h3, h4, h5, h6, rfl, (fun _ => Iff.rfl), h9,
        h10⟩),
   (by
    have H : ((fun (s : State) (n : Nat) (now : Nat) (d : List Byte) => (fun (w : State) => decide (s.mayFetch n = true) &&
        (decide (s.ringDevice n = false) && (decide ((s.ring n).cons ≠ (s.ring n).prod) && (decide (d.length = 128) &&
        (decide ((w.fetchVerdict n d).1 = none) && (decide ((s.ring n).marked = true) &&
        (decide (1 ≤ ((s.ring n).cancel - (s.ring n).cons).toNat) && (decide (((s.ring n).cancel - (s.ring n).cons).toNat ≤ 2 ^
        31) && (true))))))))) (s.tick now)) (devHost.setRing 255 { Ring.init with prod := 1, marked := true, cancel := 5 }) (255)
        (5) (desc 0 0 1 [])) = true := by decide +kernel
    obtain ⟨h1, H⟩ := and_of H
    obtain ⟨h2, H⟩ := and_of H
    obtain ⟨h3, H⟩ := and_of H
    obtain ⟨h4, H⟩ := and_of H
    obtain ⟨h5, H⟩ := and_of H
    obtain ⟨h6, H⟩ := and_of H
    obtain ⟨h7, H⟩ := and_of H
    obtain ⟨h8, H⟩ := and_of H
    exact ⟨(devHost.setRing 255 { Ring.init with prod := 1, marked := true, cancel := 5 }), _, 255, 5, (desc 0 0 1 []), rfl,
        h1, h2, h3, h4, h5, h6, h7, h8⟩)⟩

/-- States that meet the hypotheses of `Obligations.ResetLeavesItsValues`, one for each clause. -/
theorem witness_ResetLeavesItsValues :
    (∃ n, n < 256) ∧
    (∃ n, n < 64) ∧
    (∃ (s : State) (c : Instr), ((∃ lowNs, 10000 ≤ lowNs ∧ s.boot.tripped = false ∧ c = .rstNAssert lowNs) ∨
        (s.inReset = false ∧ s.rel.smUp = true ∧ c = .deviceReset .mctp 0xD1E50FF0) ∨ (s.boot.tripped = false ∧ ∃ ir,
        c = .tapTestMode ir) ∨ c = .powerRemoval)) :=
  ⟨(by
    have H : ((fun n => decide (n < 256) && (true)) (255)) = true := by decide +kernel
    obtain ⟨h0, H⟩ := and_of H
    exact ⟨255, h0⟩),
   (by
    have H : ((fun n => decide (n < 64) && (true)) (63)) = true := by decide +kernel
    obtain ⟨h0, H⟩ := and_of H
    exact ⟨63, h0⟩),
   (by
    exact ⟨device, .powerRemoval, (Or.inr (Or.inr (Or.inr rfl)))⟩)⟩

/-- States that meet the hypotheses of `Obligations.DeviceMemoryReadsBack`, one for each clause. -/
theorem witness_DeviceMemoryReadsBack :
    (∃ (key : Nat) (bs : List Byte), ∃ k, (k < key ∨ key + bs.length ≤ k)) :=
  (by
    have H : ((fun (key : Nat) (bs : List Byte) k => decide (k < key ∨ key + bs.length ≤ k) && (true)) (5) ([1,
        2]) (7)) = true := by decide +kernel
    obtain ⟨h0, H⟩ := and_of H
    exact ⟨5, ([1, 2]), 7, h0⟩)

end Sys2Proof.Tests
end

