-- ==== Sys2Proof/Proofs/RingReads.lean ====
section
/-! SUPPORT. Rings as they are read after each operation on them: one ring set, every ring mapped, time passed, the head noted
(R46, R47, R58, R106). -/
namespace Sys2Proof.Machine

theorem ring_setRing (s : State) (n : Nat) (r : Ring) : (s.setRing n r).ring n = r := by
  show (match cellFind n (cellPut s.rings n (if r = Ring.init then none else some r)) with
    | some r => r
    | none => Ring.init) = r
  rw [cellFind_put_same]
  split
  · next h => split at h <;> simp_all
  · next h => split at h <;> simp_all

theorem ring_onRing (s : State) (n : Nat) (f : Ring → Ring) : (s.onRing n f).ring n = f (s.ring n) := ring_setRing s n _

theorem ring_congr {s t : State} (h : t.rings = s.rings) (n : Nat) : t.ring n = s.ring n := by
  unfold State.ring
  rw [h]

theorem cellFind_mapSnd {α β : Type} (g : α → β) (k : Nat) (l : List (Nat × α)) :
    cellFind k (l.map fun x => (x.1, g x.2)) = (cellFind k l).map g := by
  induction l with
  | nil => rfl
  | cons x l ih =>
    simp only [List.map_cons, cellFind]
    split
    · rfl
    · exact ih

/-- Every listed ring changed by `g`, which leaves a ring as reset has it alone. -/
theorem ring_mapRings {s t : State} {g : Ring → Ring} (h : t.rings = s.rings.map fun x => (x.1, g x.2))
    (hg : g Ring.init = Ring.init) (n : Nat) : t.ring n = g (s.ring n) := by
  unfold State.ring
  rw [h, cellFind_mapSnd]
  cases cellFind n s.rings with
  | none => exact hg.symm
  | some r => rfl

/-! ### Time -/

theorem headWaits_eq (s : State) (d : Nat) (r : Ring) : ∃ l, s.headWaits d r = { r with fifo := l } := by
  unfold State.headWaits
  split
  · split
    · exact ⟨_, rfl⟩
    · exact ⟨r.fifo, rfl⟩
  · exact ⟨r.fifo, rfl⟩

/-- Time changes nothing of a ring but the wait that is noted at its head. -/
theorem ring_tick (s : State) (now n : Nat) : ∃ l, (s.tick now).ring n = { s.ring n with fifo := l } := by
  by_cases h : now ≤ s.now
  · exact ⟨(s.ring n).fifo, by unfold State.tick; rw [if_pos h]⟩
  · obtain ⟨l, hl⟩ := headWaits_eq s (now - s.now) (s.ring n)
    refine ⟨l, ?_⟩
    rw [← hl]
    refine ring_mapRings (g := s.headWaits (now - s.now)) ?_ rfl n
    unfold State.tick
    rw [if_neg h]

theorem tick_rel (s : State) (now : Nat) : (s.tick now).rel.draining = s.rel.draining ∧
    (s.tick now).rel.fills = s.rel.fills := by
  unfold State.tick
  split <;> exact ⟨rfl, rfl⟩

theorem tick_power (s : State) (now : Nat) : (s.tick now).power.draining = s.power.draining ∧
    (s.tick now).power.ghostLatched = s.power.ghostLatched := by
  unfold State.tick
  split <;> exact ⟨rfl, rfl⟩

theorem reg_congr {s t : State} (h : t.regs = s.regs) : t.reg = s.reg := by
  funext off
  unfold State.reg
  rw [h]

theorem fld_congr {s t : State} (h : t.regs = s.regs) : t.fld = s.fld := by
  funext f
  unfold State.fld
  rw [reg_congr h]

theorem flag_congr {s t : State} (h : t.regs = s.regs) : t.flag = s.flag := by
  funext f
  unfold State.flag
  rw [fld_congr h]

theorem isFallbackRing_congr {s t : State} (h : t.regs = s.regs) (n : Nat) : t.isFallbackRing n = s.isFallbackRing n := by
  unfold State.isFallbackRing State.fallbackRing State.ringEnabled State.ringDevice State.ringCtx State.sqSize
  rw [fld_congr h, flag_congr h]

theorem ringLive_tick (s : State) (now n : Nat) : (s.tick now).ringLive n = s.ringLive n := by
  obtain ⟨l, hl⟩ := ring_tick s now n
  simp only [State.ringLive, State.isSealed, State.ringEnabled, State.tick_fld, State.tick_flag, State.tick_boot, hl]

theorem admissionShut_tick (s : State) (now : Nat) : (s.tick now).admissionShut = s.admissionShut := by
  unfold State.admissionShut State.powerState
  rw [(tick_rel s now).1, (tick_power s now).1, (tick_power s now).2, State.tick_fld, State.tick_flash, State.tick_sec,
    State.tick_boot]

theorem mayFetch_tick (s : State) (now n : Nat) : (s.tick now).mayFetch n = s.mayFetch n := by
  unfold State.mayFetch State.ideUp State.ideRequired State.ringDevice
  rw [ringLive_tick, admissionShut_tick, isFallbackRing_congr (State.tick_regs s now), State.tick_host, State.tick_fld,
    State.tick_flag]

theorem devShut_tick (s : State) (now k : Nat) : (s.tick now).devShut k = s.devShut k := by
  simp only [State.devShut, State.stackShut, State.inCoppice, State.tick_fld, (tick_rel s now).2]

/-! ### The head -/

/-- `g` is `f`, but for the cue in which it reached the head of its ring. -/
structure SameWork (f g : Fetched) : Prop where
  bytes : g.bytes = f.bytes
  verdict : g.verdict = f.verdict
  todo : g.todo = f.todo

/-- Noting the head of a ring changes no waiting descriptor but the first, and of that one only its arrival. -/
theorem noteHead_fifo (s : State) (n : Nat) :
    ((s.noteHead n).ring n).fifo = (s.ring n).fifo ∨
      ∃ f l, (s.ring n).fifo = f :: l ∧ ((s.noteHead n).ring n).fifo = { f with headCue := some s.cueNo } :: l := by
  unfold State.noteHead
  rw [ring_onRing]
  cases h : (s.ring n).fifo with
  | nil => exact .inl h
  | cons f l =>
    by_cases hc : f.headCue.isNone
    · exact .inr ⟨f, l, rfl, by simp only [hc, if_true]; split <;> rfl⟩
    · exact .inl (by simp only [hc, if_false, Bool.false_eq_true]; split <;> exact h)

/-- The last descriptor of a ring is still its last once the head is noted. -/
theorem noteHead_getLast {s : State} {n : Nat} {f : Fetched} (h : (s.ring n).fifo.getLast? = some f) :
    ∃ g, ((s.noteHead n).ring n).fifo.getLast? = some g ∧ SameWork f g := by
  rcases noteHead_fifo s n with e | ⟨x, l, hx, e⟩
  · exact ⟨f, e ▸ h, rfl, rfl, rfl⟩
  · rw [hx] at h
    rw [e]
    cases l with
    | nil =>
      obtain rfl : x = f := by simpa using h
      exact ⟨_, rfl, rfl, rfl, rfl⟩
    | cons y l => exact ⟨f, h, rfl, rfl, rfl⟩

end Sys2Proof.Machine
end

