-- ==== Sys2Proof/Proofs/ReadFrame.lean ====
section
/-! SUPPORT. What a read of device memory meets (corrected errors, marked lanes, suspect and confirmed units, curtain) leaves the
setup registers of rings and contexts alone: it changes only registers below them (R256 to R265, R421, R442, Table 19.1). -/
namespace Sys2Proof.Machine

/-- `t` reads as `s` does in every register of the ring and context blocks, which begin at 0x10000. -/
def SameSetup (s t : State) : Prop := ∀ off, 0x10000 ≤ off → t.reg off = s.reg off

theorem SameSetup.refl (s : State) : SameSetup s s := fun _ _ => rfl

theorem SameSetup.trans {s t u : State} (a : SameSetup s t) (b : SameSetup t u) : SameSetup s u :=
  fun off h => (b off h).trans (a off h)

theorem SameSetup.ringCtx {s t : State} (h : SameSetup s t) (n : Nat) : t.ringCtx n = s.ringCtx n := by
  unfold State.ringCtx State.fld
  rw [h _ (by simp [ringCtrlContext, rRingCtrl])]

/-- A step that leaves the register file as it is, but perhaps for the pending interrupts. -/
theorem sameSetup_of {s t u : State} (a : SameSetup s t) (h : ∀ off, u.reg off = t.reg off := by exact fun _ => rfl) :
    SameSetup s u := fun off ho => (h off).trans (a off ho)

/-- The same from the state itself. -/
theorem sameSetup_of_regs {s t : State} (h : ∀ off, t.reg off = s.reg off := by exact fun _ => rfl) : SameSetup s t :=
  sameSetup_of (SameSetup.refl s) h

theorem sameSetup_ite {c : Prop} [Decidable c] {s t u : State} (h : SameSetup s t) (k : SameSetup s u) :
    SameSetup s (if c then t else u) := by
  split <;> assumption

theorem setFld_sameSetup {s t : State} (a : SameSetup s t) (f : Fld) (v : Nat) (h : f.off < 0x10000) :
    SameSetup s (t.setFld f v) := fun off ho => (reg_setReg_other _ _ _ _ (by omega)).trans (a off ho)

theorem sameSetup_foldl {α : Type} {g : State → α → State} (hg : ∀ t x, SameSetup t (g t x)) (l : List α) (s : State) :
    SameSetup s (l.foldl g s) := by
  induction l generalizing s with
  | nil => exact SameSetup.refl s
  | cons x l ih => exact (hg s x).trans (ih _)

theorem cuts_sameSetup {s t : State} (h : Cuts s t) : SameSetup s t := fun off ho =>
  h.reg off (by unfold cutRegs rFnStatus rMemerrLogProd rMemerrLogLost; omega)

/-! ### Logs and records -/

theorem event_sameSetup (s : State) : SameSetup s s.event := cuts_sameSetup (event_cuts s)

theorem memErr_sameSetup (s : State) (type : Nat) (src : ErrSource) (pl : ErrPlace) (n : Nat) :
    SameSetup s (s.memErr type src pl n) := cuts_sameSetup (memErr_cuts s type src pl n)

theorem logPost_sameSetup (s : State) (l : LogRegs) (e : List Byte) (hp : l.prod.off < 0x10000) (hl : l.lost.off < 0x10000) :
    SameSetup s (s.logPost l e) := by
  unfold State.logPost
  split
  · exact SameSetup.refl s
  · split
    · exact setFld_sameSetup sameSetup_of_regs _ _ hp
    · exact setFld_sameSetup (SameSetup.refl s) _ _ hl

theorem histPost_sameSetup (s : State) (h : HistInfo) : SameSetup s (s.histPost h) := by
  have post := logPost_sameSetup s faultLog (s.histBytes h) (by decide) (by decide)
  unfold State.histPost
  split
  · exact post.trans (event_sameSetup _)
  · exact post

theorem record_sameSetup (s : State) (h : HistInfo) : SameSetup s (s.record h) :=
  (sameSetup_of_regs).trans (histPost_sameSetup _ _)

/-! ### Curtain -/

theorem cancelUnstarted_sameSetup (s : State) : SameSetup s s.cancelUnstarted :=
  sameSetup_of (cuts_sameSetup (cutItems_cuts s _ _ _ _))

theorem stopFeeds_sameSetup (s : State) (p : Feed → Bool) : SameSetup s (s.stopFeeds p) := by
  unfold State.stopFeeds
  dsimp only
  refine SameSetup.trans ?_ (sameSetup_foldl (fun t x => ?_) _ _)
  · exact sameSetup_of_regs
  · exact cuts_sameSetup (endEarly_cuts t _ _ _ _)

theorem sendOn_sameSetup (s : State) (n : Nat) (p : Packet) : SameSetup s (s.sendOn n p) := by
  unfold State.sendOn State.sendVia
  dsimp only
  split <;> exact sameSetup_of_regs

theorem promptNow_sameSetup (s : State) (p : Packet) : SameSetup s (s.promptNow p) := by
  unfold State.promptNow
  split
  · exact sameSetup_foldl (fun t n => sendOn_sameSetup t n p) _ _
  · split
    · exact sendOn_sameSetup _ _ _
    · exact SameSetup.refl s

theorem sendDetached_sameSetup (s : State) : SameSetup s s.sendDetached := by
  unfold State.sendDetached State.originate
  split
  · exact (sameSetup_of_regs).trans (promptNow_sameSetup _ _)
  · exact sameSetup_of_regs

theorem stopEmitting_sameSetup (s : State) : SameSetup s s.stopEmitting := by
  unfold State.stopEmitting
  split
  · exact sameSetup_of (setFld_sameSetup (SameSetup.refl s) cueStatusLock 0 (by decide))
  · exact SameSetup.refl s

theorem enterCurtain_sameSetup (s : State) (cause : Nat) : SameSetup s (s.enterCurtain cause) := by
  unfold State.enterCurtain
  split
  · exact SameSetup.refl s
  · split
    · dsimp only
      split
      · exact sameSetup_of_regs
      · exact setFld_sameSetup sameSetup_of_regs pwrStatusBusy _ (by decide)
    · have status : SameSetup s ((s.setFlag healthStatusCurtain true).setFld healthStatusCurtainCause cause) :=
        setFld_sameSetup (setFld_sameSetup (SameSetup.refl s) healthStatusCurtain _ (by decide)) healthStatusCurtainCause _
          (by decide)
      exact (((((sameSetup_of status).trans (cancelUnstarted_sameSetup _)).trans (stopFeeds_sameSetup _ _)).trans
        (sendDetached_sameSetup _)).trans (stopEmitting_sameSetup _)).trans (record_sameSetup _ _)

/-! ### Suspect and confirmed units -/

theorem planCoppice_sameSetup (s : State) (p : Nat) : SameSetup s (s.planCoppice p) := by
  unfold State.planCoppice
  split
  · exact SameSetup.refl s
  · exact (setFld_sameSetup sameSetup_of_regs _ _ (by show rHealthStatus < _; decide)).trans (event_sameSetup _)

theorem setHedge_sameSetup {s t : State} (a : SameSetup s t) (p v : Nat) : SameSetup s (t.setFld (hedgeFld p) v) :=
  setFld_sameSetup a _ _ (by show rHedgeStatus < _; decide)

theorem confirmed_sameSetup (s : State) (u : UnitId) : SameSetup s (s.confirmed u) := by
  unfold State.confirmed
  split
  · exact setHedge_sameSetup (SameSetup.refl s) _ _
  · split
    · exact enterCurtain_sameSetup _ _
    · split
      · exact enterCurtain_sameSetup _ _
      · dsimp only
        split
        · exact (sameSetup_of_regs).trans (planCoppice_sameSetup _ _)
        · exact sameSetup_of_regs

theorem confirm_sameSetup (s : State) (u : UnitId) (detector link : Nat) (data : List Byte) :
    SameSetup s (s.confirm u detector link data) :=
  ((sameSetup_of_regs).trans (record_sameSetup _ _)).trans (confirmed_sameSetup _ _)

theorem suspect_sameSetup (s : State) (u : UnitId) (detector : Nat) (data : List Byte) :
    SameSetup s (s.suspect u detector data) := by
  unfold State.suspect
  dsimp only
  split
  · split
    · exact confirm_sameSetup _ _ _ _ _
    · exact sameSetup_of (record_sameSetup s _)
  · have noted : ∀ t : State, SameSetup s t → ∀ c : Bool,
        SameSetup s (if c then t.setFld (hedgeFld (u.unit / 19)) 1 else t) :=
      fun t a c => sameSetup_ite (setHedge_sameSetup a _ _) a
    refine noted _ (sameSetup_ite ?_ ?_) _ <;> exact sameSetup_of (record_sameSetup s _)

/-! ### Reads through the codes -/

theorem countCorrected_sameSetup (s : State) (u : UnitId) (n : Nat) : SameSetup s (s.countCorrected u n) := by
  unfold State.countCorrected
  dsimp only
  split
  · exact (sameSetup_of_regs).trans (suspect_sameSetup _ _ _ _)
  · exact sameSetup_of_regs

theorem memCorrected_sameSetup (s : State) (type : Nat) (src : ErrSource) (pl : ErrPlace) (u : UnitId) :
    SameSetup s (s.memCorrected type src pl u) := by
  unfold State.memCorrected
  dsimp only
  split
  · exact sameSetup_of_regs
  · exact ((sameSetup_of_regs).trans (memErr_sameSetup _ _ _ _ _)).trans (countCorrected_sameSetup _ _ _)

theorem noSpare_sameSetup (s : State) (src : ErrSource) (stack pc lane line : Nat) :
    SameSetup s (s.noSpare src stack pc lane line) := by
  unfold State.noSpare
  dsimp only
  split
  · exact memErr_sameSetup _ _ _ _ _
  · exact (memErr_sameSetup _ _ _ _ _).trans (confirm_sameSetup _ _ _ _ _)

theorem laneFail_sameSetup (s : State) (src : ErrSource) (stack pc lane line : Nat) :
    SameSetup s (s.laneFail src stack pc lane line) := by
  unfold State.laneFail
  dsimp only
  split
  · split
    · exact (sameSetup_of_regs).trans (noSpare_sameSetup _ _ _ _ _ _)
    · exact (sameSetup_of_regs).trans (memErr_sameSetup _ _ _ _ _)
  · exact sameSetup_of_regs

theorem meetWord_sameSetup (s : State) (src : ErrSource) (line : Nat) (errs : List CellError) (j : Nat) :
    SameSetup s (s.meetWord src line errs j) := by
  unfold State.meetWord
  dsimp only
  have corrected := fun k p u => sameSetup_ite (c := s.lineVerdict line errs j = .corrected)
    (memCorrected_sameSetup s k src p u) (SameSetup.refl s)
  split
  · exact (corrected _ _ _).trans (sameSetup_foldl (fun t x => laneFail_sameSetup t _ _ _ _ _) _ _)
  · exact corrected _ _ _

/-- A read of device memory leaves the registers of rings and contexts alone, whatever errors it meets. -/
theorem meetCells_sameSetup (s : State) (src : ErrSource) (key len : Nat) : SameSetup s (s.meetCells src key len) := by
  unfold State.meetCells
  refine sameSetup_foldl (fun t x => sameSetup_foldl (fun u j => ?_) _ _) _ _
  split
  · exact SameSetup.refl u
  · exact meetWord_sameSetup u src _ _ _

/-- A read that meets no cell that shows errors changes nothing. -/
theorem meetCells_of_apart {s : State} {key len : Nat} (src : ErrSource)
    (h : ∀ x ∈ s.mem.stuck, x.1 + 64 ≤ key ∨ key + len ≤ x.1) : s.meetCells src key len = s := by
  have none_met : (s.mem.stuck.filter fun x => decide (x.1 < key + len) && decide (key < x.1 + 64)) = [] := by
    refine List.filter_eq_nil_iff.2 fun x hx => ?_
    have := h x hx
    simp
    omega
  unfold State.meetCells
  rw [none_met]
  rfl

end Sys2Proof.Machine
end

