-- ==== Sys2Proof/Proofs/Fetching.lean ====
section
/-! SUPPORT. What a fetch does, said once: where the descriptor's bytes come from, what the checks decide on it, and how it is
taken into its ring (R46, R55, R62). -/
namespace Sys2Proof.Machine

/-! ### The checks at the fetch -/

theorem fetchVerdict_of_ctx {s : State} {n : Nat} {d : List Byte} (h : hdrCtx d ≠ s.ringCtx n) :
    s.fetchVerdict n d = (some (verdictOn d (stNotAuth, 0)), true) := if_pos h

theorem fetchVerdict_of_reserved {s : State} {n : Nat} {d : List Byte} (hc : hdrCtx d = s.ringCtx n) (hr : hdrReserved d = true) :
    s.fetchVerdict n d = (some (verdictOn d (stBad, 0)), true) := by
  unfold State.fetchVerdict
  rw [if_neg (not_not.2 hc : ¬ leAt d 4 1 % 64 ≠ _), if_pos hr]

/-! ### Into the ring -/

/-- A fetched descriptor as its ring takes it: cut, where it lies below a cancel mark in force (R62). -/
def State.taken (s : State) (n : Nat) (f : Fetched) : Fetched :=
  if (s.ring n).marked && belowMark (s.ring n).cancel f.index && f.owner.isNone then f.cut stCancelled else f

theorem cut_of_none {f : Fetched} {st : Nat} (h : f.verdict = none) :
    f.cut st = { f with verdict := some (verdictOn f.bytes (st, 0)) } := by
  unfold Fetched.cut
  rw [h]

theorem cut_of_some {f : Fetched} {st : Nat} {v : Nat × Nat} (h : f.verdict = some v) : f.cut st = f := by
  unfold Fetched.cut
  rw [h]

/-- A cut changes nothing of a descriptor but its verdict. -/
theorem cut_eq (f : Fetched) (st : Nat) : ∃ v, f.cut st = { f with verdict := v } ∧ v.isSome = true := by
  cases h : f.verdict with
  | none => exact ⟨_, cut_of_none h, rfl⟩
  | some v => exact ⟨some v, by rw [cut_of_some h, ← h], rfl⟩

theorem taken_of_verdict {s : State} {n : Nat} {f : Fetched} {v : Nat × Nat} (h : f.verdict = some v) : s.taken n f = f := by
  unfold State.taken
  rw [cut_of_some h, ite_self]

theorem taken_bytes (s : State) (n : Nat) (f : Fetched) : (s.taken n f).bytes = f.bytes ∧ (s.taken n f).todo = f.todo := by
  unfold State.taken
  obtain ⟨v, hv, -⟩ := cut_eq f stCancelled
  split
  · rw [hv]; exact ⟨rfl, rfl⟩
  · exact ⟨rfl, rfl⟩

theorem trace_rings (s : State) (b : List Byte) : (s.trace b).rings = s.rings := by
  unfold State.trace
  dsimp only
  split <;> rfl

theorem trace_of_off {s : State} (h : s.flag traceCtrlEn = false) (b : List Byte) : s.trace b = s := by
  unfold State.trace
  simp only [h, Bool.and_false, Bool.false_and, Bool.false_eq_true, if_false]

/-- The ring with a fetched descriptor behind the others. -/
def State.queued (s : State) (n : Nat) (f : Fetched) : State := s.onRing n fun r => { r with fifo := r.fifo ++ [s.taken n f] }

theorem pushFetched_eq (s : State) (n : Nat) (f : Fetched) : ∃ b k,
    s.pushFetched n f = ({ (s.queued n f).trace b with sched := k } : State).noteHead n := ⟨_, _, rfl⟩

/-- A descriptor taken into its ring is the last that waits there. -/
theorem pushFetched_getLast (s : State) (n : Nat) (f : Fetched) :
    ∃ g, ((s.pushFetched n f).ring n).fifo.getLast? = some g ∧ SameWork (s.taken n f) g := by
  obtain ⟨b, k, hk⟩ := pushFetched_eq s n f
  have ring : ({ (s.queued n f).trace b with sched := k } : State).ring n =
      { s.ring n with fifo := (s.ring n).fifo ++ [s.taken n f] } :=
    (ring_congr (s := s.queued n f) (trace_rings _ b) n).trans (ring_onRing _ _ _)
  rw [hk]
  refine noteHead_getLast ?_
  rw [ring]
  exact List.getLast?_concat

theorem pushFetched_mem {s : State} (h : s.flag traceCtrlEn = false) (n : Nat) (f : Fetched) :
    (s.pushFetched n f).mem = s.mem := by
  obtain ⟨b, k, hk⟩ := pushFetched_eq s n f
  rw [hk]
  show ((s.queued n f).trace b).mem = s.mem
  rw [trace_of_off (s := s.queued n f) h]
  rfl

/-! ### A fetch as a whole -/

/-- The ring's consumer index moved on. -/
def State.advanced (u : State) (n : Nat) : State := u.onRing n fun q => { q with cons := q.cons + 1 }

/-- What a fetch of `d` leaves, where `u` is the state after the bytes were read: the consumer index moves on, and the descriptor
is taken into the ring. -/
def State.afterFetch (u : State) (n : Nat) (i : Word) (d : List Byte) : State :=
  (u.advanced n).pushFetched n (u.newFetched n i d none)

/-- A fetch of bytes that host memory gives. -/
theorem fetch_host {s : State} {n : Nat} {d : List Byte} (hm : s.mayFetch n = true) (hp : (s.ring n).cons ≠ (s.ring n).prod)
    (hd : s.ringDevice n = false) (hl : d.length = 128) : s.fetch n (some d) = s.afterFetch n (s.ring n).cons d := by
  unfold State.fetch
  simp only [hm, hp, hd, hl, Bool.not_true, decide_false, Bool.or_false, Bool.false_eq_true, if_false, if_true]
  rfl

/-- A fetch of bytes that stand in device memory and can be read: what the read meets comes before the checks. -/
theorem fetch_device {s : State} {n k : Nat} (host : Option (List Byte)) (hm : s.mayFetch n = true)
    (hp : (s.ring n).cons ≠ (s.ring n).prod) (hd : s.ringDevice n = true)
    (hk : k = addrKey (s.reg (rRingSqBase n)) + 128 * ((s.ring n).cons.toNat % s.sqSize n))
    (hs : s.devShut k = false) (hb : s.devBad k 128 = false) :
    ∃ src, s.fetch n host = (s.meetCells src k 128).afterFetch n (s.ring n).cons (s.devRead k 128) := by
  refine ⟨{ source := 0, ctx := s.ringCtx n, ring := n, desc := (s.ring n).cons.toNat % s.sqSize n, item := 0,
            requester := s.member }, ?_⟩
  unfold State.fetch State.fetchDevice State.readMem
  simp only [hm, hp, hd, ← hk, hs, hb, Bool.not_true, decide_false, Bool.or_false, Bool.false_eq_true, if_false, if_true]
  rfl

/-- The last descriptor of the ring after a fetch: its bytes, its items, and what the checks or a cancel mark decide on it. -/
theorem afterFetch_getLast (u : State) (n : Nat) (i : Word) (d : List Byte) :
    ∃ f, ((u.afterFetch n i d).ring n).fifo.getLast? = some f ∧ f.bytes = d ∧ f.todo = List.range (hdrItems d + 1) ∧
      f.verdict = ((u.advanced n).taken n (u.newFetched n i d none)).verdict := by
  obtain ⟨f, hf, same⟩ := pushFetched_getLast (u.advanced n) n (u.newFetched n i d none)
  obtain ⟨hb, ht⟩ := taken_bytes (u.advanced n) n (u.newFetched n i d none)
  exact ⟨f, hf, same.bytes.trans hb, same.todo.trans ht, same.verdict⟩

/-- A descriptor that fails a check keeps that verdict, whatever cancel mark is in force. -/
theorem afterFetch_judged {u : State} {n : Nat} {i : Word} {d : List Byte} {f : Fetched} {v : Nat × Nat} {b : Bool}
    (hv : u.fetchVerdict n d = (some v, b))
    (hf : f.verdict = ((u.advanced n).taken n (u.newFetched n i d none)).verdict) :
    f.verdict = some v := by
  have hn : (u.newFetched n i d none).verdict = some v := congrArg Prod.fst hv
  rw [hf, taken_of_verdict hn, hn]

/-- A descriptor that passes the checks below a cancel mark in force is judged CANCELLED. -/
theorem afterFetch_cancelled {u : State} {n : Nat} {i : Word} {d : List Byte} {f : Fetched}
    (hv : (u.fetchVerdict n d).1 = none) (hm : (u.ring n).marked = true) (hb : belowMark (u.ring n).cancel i = true)
    (hf : f.verdict = ((u.advanced n).taken n (u.newFetched n i d none)).verdict) :
    f.verdict = some (verdictOn d (stCancelled, 0)) := by
  have hn : (u.newFetched n i d none).verdict = none := hv
  rw [hf]
  unfold State.taken State.advanced
  rw [ring_onRing, if_pos (by simp only [hm, Bool.true_and]; exact Bool.and_eq_true_iff.2 ⟨hb, rfl⟩), cut_of_none hn]
  rfl

end Sys2Proof.Machine
end

