-- ==== Sys2Proof/Proofs/DescriptorChecks.lean ====
section
/-! SUPPORT. Descriptors judged at the fetch and as their runs begin (R55). -/
namespace Sys2Proof.Machine

/-- A fetch on ring `n` reads `d`: from the slot at key `k` of device memory, where it can be read, or from the host. -/
structure State.FetchReads (s : State) (n k : Nat) (given : Option (List Byte)) (d : List Byte) : Prop where
  may : s.mayFetch n = true
  waiting : (s.ring n).cons ≠ (s.ring n).prod
  slot : k = addrKey (s.reg (rRingSqBase n)) + 128 * ((s.ring n).cons.toNat % s.sqSize n)
  source : (s.ringDevice n = true ∧ s.devShut k = false ∧ s.devBad k 128 = false ∧ d = s.devRead k 128) ∨
    (s.ringDevice n = false ∧ given = some d ∧ d.length = 128)

/-- The bytes read are taken in, with the ring's context as it was before the read. Where the read meets no cell that shows
errors it changes nothing. -/
theorem fetch_takes {s : State} {n k : Nat} {given : Option (List Byte)} {d : List Byte} (h : s.FetchReads n k given d) :
    ∃ u, s.fetch n given = u.afterFetch n (s.ring n).cons d ∧ u.ringCtx n = s.ringCtx n ∧
      ((∀ x ∈ s.mem.stuck, x.1 + 64 ≤ k ∨ k + 128 ≤ x.1) → u = s) := by
  obtain ⟨hm, hp, hk, hd⟩ := h
  rcases hd with ⟨hdev, hshut, hbad, rfl⟩ | ⟨hhost, rfl, hlen⟩
  · obtain ⟨src, hf⟩ := fetch_device given hm hp hdev hk hshut hbad
    exact ⟨_, hf, (meetCells_sameSetup s src k 128).ringCtx n, meetCells_of_apart src⟩
  · exact ⟨s, fetch_host hm hp hhost hlen, rfl, fun _ => rfl⟩

/-- What a fetch reads does not change as time passes. -/
theorem fetchReads_tick {s : State} {n k : Nat} {given : Option (List Byte)} {d : List Byte} (now : Nat)
    (h : s.FetchReads n k given d) : (s.tick now).FetchReads n k given d := by
  obtain ⟨l, hring⟩ := ring_tick s now n
  have codes : (s.tick now).devBad k 128 = s.devBad k 128 ∧ (s.tick now).devRead k 128 = s.devRead k 128 := by
    unfold State.tick
    split <;> exact ⟨rfl, rfl⟩
  constructor
  · rw [mayFetch_tick]
    exact h.may
  · rw [hring]
    exact h.waiting
  · simp only [hring, State.tick_reg, State.sqSize, State.tick_fld]
    exact h.slot
  · simp only [State.ringDevice, State.tick_flag, devShut_tick, codes]
    exact h.source

/-- The whole fetch of a readable descriptor, as the checks of R55 judge it. -/
theorem fetch_judges {s : State} {n k : Nat} {given : Option (List Byte)} {d : List Byte} (h : s.FetchReads n k given d) :
    ∃ f, ((s.fetch n given).ring n).fifo.getLast? = some f ∧ f.bytes = d ∧ f.todo = List.range (leAt d 5 1 + 1) ∧
      (hdrCtx d ≠ s.ringCtx n → f.verdict.map Prod.fst = some 0x60) ∧
      (hdrCtx d = s.ringCtx n → hdrReserved d = true → f.verdict.map Prod.fst = some 0x11) ∧
      (s.flag traceCtrlEn = false → (∀ x ∈ s.mem.stuck, x.1 + 64 ≤ k ∨ k + 128 ≤ x.1) →
        (s.fetch n given).mem = s.mem) := by
  obtain ⟨u, hf, hctx, hsame⟩ := fetch_takes h
  obtain ⟨f, hlast, hbytes, htodo, hverdict⟩ := afterFetch_getLast u n (s.ring n).cons d
  rw [hf]
  refine ⟨f, hlast, hbytes, htodo, fun hc => ?_, fun hc hr => ?_, fun ht hx => ?_⟩
  · rw [afterFetch_judged (fetchVerdict_of_ctx (hctx.symm ▸ hc)) hverdict]
    rfl
  · rw [afterFetch_judged (fetchVerdict_of_reserved (hctx.symm ▸ hc) hr) hverdict]
    rfl
  · rw [hsame hx]
    exact pushFetched_mem (s := s.advanced n) ht _ _

/-! ### The run of a judged head -/

theorem dispatch_judged {s s1 : State} {n : Nat} {f : Fetched} {rest : List Fetched} {v : Nat × Nat}
    (h1 : s1 = s.dispatchRuns.noteHead n) (hq : (s1.ring n).fifo = f :: rest) (hn : (s1.ringRuns n).length < 32)
    (hc : s1.choiceOf f ≠ .fallback) (hv : f.verdict = some v) (hr : s1.roomFor n f.todo.length = true) :
    s.dispatch n = s1.startRun n (s1.newRun f none 0) := by
  unfold State.dispatch
  simp only [← h1, hq]
  rw [if_neg (by simp; exact ⟨hn, hc⟩), if_pos (by rw [hv]; rfl)]
  exact if_pos hr

theorem startRun_runs (s : State) (n : Nat) (r : Run) : (s.startRun n r).runs = s.runs ++ [r] := rfl

theorem startRun_mem (s : State) (n : Nat) (r : Run) : (s.startRun n r).mem = s.mem := rfl

theorem newRun_indices (s : State) (f : Fetched) (g : Option Nat) (c : Nat) :
    (s.newRun f g c).items.map (fun x => x.index) = f.todo := by
  show (f.todo.map _).map _ = f.todo
  rw [List.map_map]
  exact List.map_id _

/-- Every item of the run of a judged descriptor has ended, as the verdict says. -/
theorem newRun_ended {s : State} {f : Fetched} {st dt : Nat} (hv : f.verdict = some (st, dt)) (g : Option Nat) (c : Nat) :
    ∀ x ∈ (s.newRun f g c).items, x.phase = .ended st dt := by
  intro x hx
  obtain ⟨i, -, rfl⟩ := List.mem_map.1 hx
  simp only [hv]

/-- Settles O58: the bytes of the slot reach the checks with the ring's context as it was, and the run of a judged head is begun
with all of its items ended. -/
theorem descriptorsCheckedFirst : Obligations.DescriptorsCheckedFirst := by
  unfold Obligations.DescriptorsCheckedFirst
  constructor
  · rintro s w n now k given d rfl hm hp hk hd
    have judged := fetch_judges (fetchReads_tick now ⟨hm, hp, hk, hd⟩)
    simp only [State.ringCtx, State.tick_fld, State.tick_flag, State.tick_mem] at judged
    obtain ⟨f, hlast, hrest⟩ := judged
    exact ⟨_, f, rfl, hlast, hrest⟩
  · rintro s s1 n now st dt f rest h1 hq hn hc hv hr
    exact ⟨_, s1.newRun f none 0, congrArg Host.Outcome.next (dispatch_judged h1 hq hn hc hv hr), startRun_runs _ _ _, rfl,
      newRun_indices _ _ _ _, newRun_ended hv _ _, startRun_mem _ _ _⟩

end Sys2Proof.Machine
end

