-- ==== Sys2Proof/Proofs/CancelMarks.lean ====
section
/-! SUPPORT. What a new cancel mark does to the runs and the waiting descriptors of its ring (R62). -/
namespace Sys2Proof.Machine

theorem belowMark_iff (m i : Word) : belowMark m i = true ↔ 1 ≤ (m - i).toNat ∧ (m - i).toNat ≤ 2 ^ 31 := by
  simp [belowMark]

/-! ### Items that a cut leaves alone -/

/-- A fold none of whose steps changes an item leaves it as it is. -/
theorem itemOf_foldl {α : Type} {f : State → α → State} {run i : Nat} {l : List α}
    (h : ∀ a ∈ l, ∀ t : State, (f t a).itemOf run i = t.itemOf run i) (s : State) :
    (l.foldl f s).itemOf run i = s.itemOf run i := by
  induction l generalizing s with
  | nil => rfl
  | cons a l ih => exact (ih (fun b hb => h b (List.mem_cons_of_mem _ hb)) _).trans (h a List.mem_cons_self s)

/-- An item that `cutItems` picks in no run of its number stays as it is. -/
theorem itemOf_cutItems_of_spared {s : State} {p : Run → Bool} {q : Item → Bool} {st dt run i : Nat}
    (h : ∀ r ∈ s.runs, r.id = run → ∀ x ∈ r.items, x.index = i → s.cuts q st x = false) :
    (s.cutItems p q st dt).itemOf run i = s.itemOf run i := by
  refine itemOf_foldl (fun r hr t => ?_) s
  split
  · refine itemOf_foldl (fun x hx u => ?_) t
    split
    · next hc =>
      refine itemOf_endEarly_other u r.id x.index st dt run i ?_
      by_contra hn
      obtain ⟨hid, hix⟩ := not_or.1 hn
      rw [h r hr (not_not.1 hid).symm x hx (not_not.1 hix).symm] at hc
      cases hc
    · rfl
  · rfl

/-- A started item whose end, if it has one, gives way to nothing now is not cut as an unstarted one. -/
theorem cuts_unstarted_of_started {s : State} {st : Nat} {x : Item} (hp : x.phase ≠ .unstarted)
    (hy : x.yields s.now st = false) : s.cuts Item.isUnstarted st x = false := by
  have : x.isUnstarted = false := by simpa [Item.isUnstarted] using hp
  simp [State.cuts, this, hy]

/-! ### The waiting descriptors -/

theorem ring_cutFetched (s : State) (p : Fetched → Bool) (st n : Nat) : (s.cutFetched p st).ring n =
    { s.ring n with fifo := (s.ring n).fifo.map fun f => if p f then f.cut st else f } :=
  ring_mapRings (g := fun r => { r with fifo := r.fifo.map fun f => if p f then f.cut st else f }) rfl rfl n

/-! ### The mark -/

/-- A mark taken: the ring has it in force, and what lies below it is cut. -/
def State.marked (s : State) (n : Nat) (m : Word) : State :=
  ((s.setRing n { s.ring n with cancel := m, marked := true }).cutItems
    (fun x => x.desc.ring == n && belowMark m x.desc.index) Item.isUnstarted stCancelled 0).cutFetched
    (fun f => f.ring == n && belowMark m f.index) stCancelled

theorem takeMark_lower {s : State} {n : Nat} {m : Word} (hm : (s.ring n).marked = true)
    (hb : belowMark (s.ring n).cancel m = true) : s.takeMark n m = s := by
  unfold State.takeMark
  exact if_pos (by simp [hm, hb])

theorem takeMark_new {s : State} {n : Nat} {m : Word} (hm : m ≠ (s.ring n).cancel)
    (hb : (s.ring n).marked = false ∨ belowMark (s.ring n).cancel m = false) : s.takeMark n m = s.marked n m := by
  unfold State.takeMark
  refine if_neg ?_
  rcases hb with hb | hb <;> simp [hm, hb]

/-- The ring after a mark: its waiting descriptors below the mark are cut. -/
theorem ring_marked (s : State) (n : Nat) (m : Word) : (s.marked n m).ring n = { s.ring n with
    cancel := m, marked := true
    fifo := (s.ring n).fifo.map fun f => if f.ring == n && belowMark m f.index then f.cut stCancelled else f } := by
  unfold State.marked
  rw [ring_cutFetched, ring_congr (cutItems_cuts _ _ _ _ _).rings, ring_setRing]

theorem marked_cancels {s : State} {n run i : Nat} {m : Word} {r : Run} {x : Item} (hr : s.findRun run = some r)
    (hn : r.desc.ring = n) (hb : belowMark m r.desc.index = true) (hx : s.itemOf run i = some x) (hp : x.phase = .unstarted) :
    ∃ dt, (s.marked n m).phaseOf run i = some (.ended stCancelled dt) :=
  cutItems_ends (s.setRing n { s.ring n with cancel := m, marked := true }) _ _ _ _ _ _ hr (by simp [hn, hb]) hx
    (by simp [Item.isUnstarted, hp]) (by simp [Item.hasEnded, hp])

theorem marked_spares {s : State} {n run i : Nat} {m : Word}
    (h : ∀ q ∈ s.runs, q.id = run → ∀ y ∈ q.items, y.index = i →
      y.phase ≠ .unstarted ∧ y.yields s.now stCancelled = false) :
    (s.marked n m).itemOf run i = s.itemOf run i :=
  itemOf_cutItems_of_spared (s := s.setRing n { s.ring n with cancel := m, marked := true }) fun q hq hid y hy hi =>
    cuts_unstarted_of_started (h q hq hid y hy hi).1 (h q hq hid y hy hi).2

/-- What waits below the mark has a verdict. -/
theorem marked_fifo_judged {s : State} {n : Nat} {m : Word} {f : Fetched} (hf : f ∈ ((s.marked n m).ring n).fifo)
    (hn : f.ring = n) (hb : belowMark m f.index = true) : f.verdict.isSome = true := by
  rw [ring_marked] at hf
  obtain ⟨g, -, rfl⟩ := List.mem_map.1 hf
  obtain ⟨v, hv, hs⟩ := cut_eq g stCancelled
  by_cases hc : (g.ring == n && belowMark m g.index) = true
  · rw [if_pos hc, hv]
    exact hs
  · rw [if_neg hc] at hn hb
    exact absurd (by simp [hn, hb]) hc

/-- What waited below the mark without a verdict is judged CANCELLED. -/
theorem marked_fifo_cancelled {s : State} {n : Nat} {m : Word} {f : Fetched} (hf : f ∈ (s.ring n).fifo) (hn : f.ring = n)
    (hb : belowMark m f.index = true) (hv : f.verdict = none) :
    { f with verdict := some (verdictOn f.bytes (stCancelled, 0)) } ∈ ((s.marked n m).ring n).fifo := by
  rw [ring_marked, ← cut_of_none hv]
  exact List.mem_map.2 ⟨f, hf, if_pos (by simp [hn, hb])⟩

/-! ### The doorbell line -/

/-- A readable line of a live device-resident ring whose two indices pass, in Full: both are taken, and then its mark. -/
theorem doorbellWake_of_ok {s u : State} {n : Nat} {l : DoorbellLine} (given : Option DoorbellLine) (hlive : s.ringLive n = true)
    (hfb : s.isFallbackRing n = false) (hp : s.powerState = 0) (hd : s.ringDevice n = true) (hl : s.readLine n = some l)
    (hprod : (s.ring n).prodOk (s.sqSize n) l.prod = true) (hcons : (s.ring n).consOk (s.cqSize n) l.cons = true)
    (hu : u = s.setRing n { s.ring n with prod := l.prod, cqCons := l.cons }) :
    exec (.doorbellWake n given) s = .next (u.takeMark n l.cancel) := by
  have taken : s.takeLine n l = u.takeMark n l.cancel := by
    have hk : ({ s.ring n with prod := l.prod } : Ring).consOk (s.cqSize n) l.cons = true := hcons
    unfold State.takeLine Ring.takeProd
    simp only [hprod, hcons, if_true]
    unfold Ring.takeCons
    rw [if_pos hk, hu]
    rfl
  have full : s.wakeDimmed = s := by
    unfold State.wakeDimmed
    rw [hp]
    rfl
  show Host.Outcome.next (s.doorbell n given) = _
  unfold State.doorbell State.wakeRing
  simp only [hd, hl, hlive, hfb, hp, full, taken, if_true]
  rfl

/-! ### Fetches below a mark -/

/-- A host-resident ring's descriptor that passes the checks, fetched below the mark in force, is taken in with a verdict. -/
theorem fetch_below_mark {s : State} {n : Nat} {d : List Byte} (hm : s.mayFetch n = true) (hd : s.ringDevice n = false)
    (hp : (s.ring n).cons ≠ (s.ring n).prod) (hlen : d.length = 128) (hv : (s.fetchVerdict n d).1 = none)
    (hmarked : (s.ring n).marked = true) (hb : belowMark (s.ring n).cancel (s.ring n).cons = true) :
    ∃ f, ((s.fetch n (some d)).ring n).fifo.getLast? = some f ∧ f.bytes = d ∧
      f.verdict = some (verdictOn d (stCancelled, 0)) := by
  obtain ⟨f, hlast, hbytes, -, hverdict⟩ := afterFetch_getLast s n (s.ring n).cons d
  rw [fetch_host hm hp hd hlen]
  exact ⟨f, hlast, hbytes, afterFetch_cancelled hv hmarked hb hverdict⟩

/-- Settles O59: a new mark is `State.marked`, and a later fetch below it is cut as it is taken into its ring. -/
theorem cancelMarksCancelEarlierWork : Obligations.CancelMarksCancelEarlierWork := by
  unfold Obligations.CancelMarksCancelEarlierWork
  constructor
  · rintro s u n l given low hlive hfb hp hd hl hprod hcons hu hlow hne
    have wake := doorbellWake_of_ok given hlive hfb hp hd hl hprod hcons hu
    have hring : u.ring n = { s.ring n with prod := l.prod, cqCons := l.cons } := by rw [hu, ring_setRing]
    have hruns : u.runs = s.runs := by rw [hu]; rfl
    have hnow : u.now = s.now := by rw [hu]; rfl
    have below : ∀ i, low i → belowMark l.cancel i = true := fun i h => (belowMark_iff _ _).2 ((hlow i).1 h)
    constructor
    · intro hm h1 h2
      rw [wake, takeMark_lower (by rw [hring]; exact hm) (by rw [hring]; exact (belowMark_iff _ _).2 ⟨h1, h2⟩)]
    · intro hm
      have new : u.takeMark n l.cancel = u.marked n l.cancel := by
        refine takeMark_new (by rw [hring]; exact hne) ?_
        rw [hring]
        refine hm.imp_right fun h => ?_
        rw [Bool.eq_false_iff, Ne, belowMark_iff]
        exact fun hb => absurd hb.2 (Nat.not_le.2 h)
      rw [wake, new]
      refine ⟨_, rfl, ?_, ?_, ?_, ?_, ?_, ?_⟩
      · rw [ring_marked]
      · rw [ring_marked]
      · intro run r i x hr hn hi hx hph
        refine marked_cancels ?_ hn (below _ hi) ((itemOf_congr hruns run i).trans hx) hph
        unfold State.findRun at hr ⊢
        rwa [hruns]
      · intro run i h
        rw [marked_spares (by rw [hruns, hnow]; exact h), itemOf_congr hruns]
      · exact fun f hf hn hi => marked_fifo_judged hf hn (below _ hi)
      · exact fun f hf hn hi hv => marked_fifo_cancelled (by rw [hring]; exact hf) hn (below _ hi) hv
  · rintro s w n now d rfl hm hd hp hlen hv hmarked h1 h2
    obtain ⟨l, hring⟩ := ring_tick s now n
    obtain ⟨f, hf⟩ := fetch_below_mark (s := s.tick now) ((mayFetch_tick s now n).trans hm)
      ((State.tick_flag s now _).trans hd) (by rw [hring]; exact hp) hlen hv (by rw [hring]; exact hmarked)
      (by rw [hring]; exact (belowMark_iff _ _).2 ⟨h1, h2⟩)
    exact ⟨_, f, rfl, hf⟩

end Sys2Proof.Machine
end

