-- ==== Sys2Proof/Proofs/SealImage.lean ====
section
/-! SUPPORT. A seal over a configuration image that is already held: the enabled contexts that `State.sealed` makes runnable are
those of the image it takes, not those that the register file reads as before (R40, R432). -/
namespace Sys2Proof.Machine

/-- A device out of reset with its host port up, not sealed. Contexts 0 and 1 are enabled; ring 0 is enabled, host-resident, of
context 0 and managed, so that every seal check passes. The register file holds a configuration image with every register at its
reset value, and `CTX_CTRL` of context 1 fails its parity: it reads as the image has it, disabled. -/
def staleImage : State :=
  let linked : State := { State.reset with host := { State.reset.host with released := true, up := true } }
  let setUp := [(ctxCtrlEn 0, 1), (ctxCtrlEn 1, 1), (ringCtrlEn 0, 1), (ringCtrlSqLog2 0, 4), (ringCtrlCqLog2 0, 9),
    (ringCtrlCtrlAllowed 0, 1)].foldl (fun (t : State) x => t.setFld x.1 x.2) linked
  { setUp with regs := { setUp.regs with imageHeld := true, parityBad := [rCtxCtrl 1] } }

/-- It meets what the seal's last clause asks of a state. -/
theorem staleImage_sealable : staleImage.isSealed = false ∧ staleImage.hostServes rSetupSeal = true ∧
    staleImage.rel.smUp = true ∧ staleImage.boot.sealBlocked = false ∧ staleImage.fld lcStatusState ≠ 4 ∧
    staleImage.raiseFirmwareCounter.sealCheck = none ∧
    ∀ n, n < 256 → staleImage.ringEnabled n = true → staleImage.ringDevice n = false := by decide +kernel

theorem staleImage_enabledCtxs : staleImage.enabledCtxs = [0] := by decide +kernel

/-- The seal takes its image from the registers themselves, where context 1 is enabled. -/
theorem staleImage_sealed_runnable : staleImage.raiseFirmwareCounter.sealed.sched.runnable = [0, 1] := by decide +kernel

/-- Refutes O18: its last clause has the contexts that are enabled before the seal runnable after it, of every unsealed state. In
`staleImage`, which already holds an image and where the register of an enabled context fails its parity, the seal's own image
enables a context that the old one had disabled. A reset drops the image and no command lists a parity failure, so no run of the
model comes to such a state; but the statement does not ask that of its states. -/
theorem not_sealGatesTheDevice : ¬ Obligations.SealGatesTheDevice := by
  unfold Obligations.SealGatesTheDevice
  intro h
  obtain ⟨unsealed, serves, smUp, unblocked, notRetired, checksPass, hostResident⟩ := staleImage_sealable
  obtain ⟨-, -, -, -, -, sealing⟩ := h staleImage unsealed
  obtain ⟨-, sealsWith⟩ := sealing _ serves smUp unblocked notRetired rfl
  obtain ⟨-, details⟩ := sealsWith checksPass
  obtain ⟨-, -, -, runnable, -⟩ := details hostResident
  rw [staleImage_sealed_runnable, staleImage_enabledCtxs] at runnable
  cases runnable

end Sys2Proof.Machine
end

