-- ==== Sys2Proof/Proofs/Steps.lean ====
section
/-! SUPPORT. What holds of every command: it answers, it keeps the memories canonical and the queue, and no counter and no
history number goes back (R305, R430). -/
namespace Sys2Proof.Machine

/-- Every command keeps soundness: each by the lemma about its own meaning. -/
theorem exec_sound {q : Base} (c : Instr) {s : State} (h : Sound q s) : OutSound q (exec c s) := by
  cases c with
  | hostWindowRead off len => exact execHostWindowRead_sound off len h
  | hostWindowWrite off data => exact execHostWindowWrite_sound off data h
  | hostLinkDown => exact execHostLinkDown_sound h
  | hostLinkUp cxl width rate => exact execHostLinkUp_sound cxl width rate h
  | perstNAssert low => exact execPerstNAssert_sound low h
  | setupSeal key => exact execSetupSeal_sound key h
  | registerWrite origin off size value => exact execRegisterWrite_sound origin off size value h
  | registerHalfRead off => exact execRegisterHalfRead_sound off h
  | doorbellWake ring line => exact execDoorbellWake_sound ring line h
  | doorbellPoll lines => exact execDoorbellPoll_sound lines h
  | descriptorFetch ring host now => exact execDescriptorFetch_sound ring host now h
  | descriptorDispatch ring now => exact execDescriptorDispatch_sound ring now h
  | fenceWaitTimeout ring => exact execFenceWaitTimeout_sound ring h
  | descriptorTimeout run now => exact execDescriptorTimeout_sound run now h
  | preempt run now => exact execPreempt_sound run now h
  | runComplete run hostFails now => exact execRunComplete_sound run hostFails now h
  | irqDelayExpiry ring now => exact execIrqDelayExpiry_sound ring now h
  | controlNop run item => exact execControlNop_sound run item h
  | fenceSignal run item => exact execFenceSignal_sound run item h
  | fenceReset run item => exact execFenceReset_sound run item h
  | hostCopy run item host => exact execHostCopy_sound run item host h
  | biasSet run item => exact execBiasSet_sound run item h
  | biasChangeEffect run item => exact execBiasChangeEffect_sound run item h
  | accountRead run item => exact execAccountRead_sound run item h
  | contextStart run item => exact execContextStart_sound run item h
  | contextTeardown run item now => exact execContextTeardown_sound run item now h
  | cueBoundary now => exact execCueBoundary_sound now h
  | cueMessage port msg now => exact execCueMessage_sound port msg now h
  | cueMiss offset now => exact execCueMiss_sound offset now h
  | standbyEmit now => exact execStandbyEmit_sound now h
  | cueSwitchReq value => exact execCueSwitchReq_sound value h
  | slotMidpoint => exact execSlotMidpoint_sound h
  | deadlineDecision ring now => exact execDeadlineDecision_sound ring now h
  | fallbackStepComplete ring now => exact execFallbackStepComplete_sound ring now h
  | partOpCeiling part value => exact execPartOpCeiling_sound part value h
  | mmWs run item laneFault => exact execMmWs_sound run item laneFault h
  | mmWsT run item laneFault => exact execMmWsT_sound run item laneFault h
  | mmOs run item laneFault => exact execMmOs_sound run item laneFault h
  | splitSum run item => exact execSplitSum_sound run item h
  | pairRefresh run item => exact execPairRefresh_sound run item h
  | attn run item laneFault => exact execAttn_sound run item laneFault h
  | kvAppend run item => exact execKvAppend_sound run item h
  | seqJoin run item => exact execSeqJoin_sound run item h
  | seqLeave run item => exact execSeqLeave_sound run item h
  | seqReserve run item => exact execSeqReserve_sound run item h
  | pageShare run item => exact execPageShare_sound run item h
  | biasLoad run item => exact execBiasLoad_sound run item h
  | vprog run item => exact execVprog_sound run item h
  | rmsnorm run item => exact execRmsnorm_sound run item h
  | softmaxRow run item => exact execSoftmaxRow_sound run item h
  | attnMerge run item => exact execAttnMerge_sound run item h
  | quant run item => exact execQuant_sound run item h
  | dequant run item => exact execDequant_sound run item h
  | fnLoad run item => exact execFnLoad_sound run item h
  | fnLoadResume tile => exact execFnLoadResume_sound tile h
  | convolve run item laneFault => exact execConvolve_sound run item laneFault h
  | convPatch run item => exact execConvPatch_sound run item h
  | poolWindows run item => exact execPoolWindows_sound run item h
  | boxDecode run item => exact execBoxDecode_sound run item h
  | boxNms run item => exact execBoxNms_sound run item h
  | grantGranules run item => exact execGrantGranules_sound run item h
  | releaseGranules run item => exact execReleaseGranules_sound run item h
  | tileMove run item => exact execTileMove_sound run item h
  | tileFill run item => exact execTileFill_sound run item h
  | quotaRead run item => exact execQuotaRead_sound run item h
  | stackTempRead readings now => exact execStackTempRead_sound readings now h
  | laneRemap stack pc lane => exact execLaneRemap_sound stack pc lane h
  | scrubPatrol tier line found now => exact execScrubPatrol_sound tier line found now h
  | sramSweep word found now => exact execSramSweep_sound word found now h
  | flTrim run item => exact execFlTrim_sound run item h
  | flHealth run item => exact execFlHealth_sound run item h
  | pbRead run item => exact execPbRead_sound run item h
  | pbWrite run item => exact execPbWrite_sound run item h
  | flashMapCommit run item => exact execFlashMapCommit_sound run item h
  | flashMaintenance work => exact execFlashMaintenance_sound work h
  | holdupFrame bits stop now => exact execHoldupFrame_sound bits stop now h
  | holdupStale now => exact execHoldupStale_sound now h
  | pwrFail => exact execPwrFail_sound h
  | flashQuiesced now => exact execFlashQuiesced_sound now h
  | pwrFailClear => exact execPwrFailClear_sound h
  | decAu run item => exact execDecAu_sound run item h
  | encPicture run item => exact execEncPicture_sound run item h
  | encBlockRow run item => exact execEncBlockRow_sound run item h
  | sliceEmit run item => exact execSliceEmit_sound run item h
  | feedStart run item => exact execFeedStart_sound run item h
  | feedStop run item => exact execFeedStop_sound run item h
  | feedStatus run item => exact execFeedStatus_sound run item h
  | permMap run item => exact execPermMap_sound run item h
  | feedEnginesHeld feed => exact execFeedEnginesHeld_sound feed h
  | clipAssign feed => exact execClipAssign_sound feed h
  | clipDone feed clip => exact execClipDone_sound feed clip h
  | batchDeliver feed => exact execBatchDeliver_sound feed h
  | portEnable port value => exact execPortEnable_sound port value h
  | flitReceive port flit now => exact execFlitReceive_sound port flit now h
  | ackTimer port => exact execAckTimer_sound port h
  | portRetrain port now => exact execPortRetrain_sound port now h
  | portTrained port peer now => exact execPortTrained_sound port peer now h
  | portDown port now => exact execPortDown_sound port now h
  | laneDegrade port lane now => exact execLaneDegrade_sound port lane now h
  | degradeComplete port => exact execDegradeComplete_sound port h
  | rewidenRequest port value => exact execRewidenRequest_sound port value h
  | rewidenRetrain port allPass => exact execRewidenRetrain_sound port allPass h
  | echoTimer port now => exact execEchoTimer_sound port now h
  | echoRequest port pkt now sendAt => exact execEchoRequest_sound port pkt now sendAt h
  | echoReply port pkt now => exact execEchoReply_sound port pkt now h
  | readRequest pkt now => exact execReadRequest_sound pkt now h
  | writeRequest pkt now => exact execWriteRequest_sound pkt now h
  | atomicRequest pkt now => exact execAtomicRequest_sound pkt now h
  | bulkReadRequest pkt now => exact execBulkReadRequest_sound pkt now h
  | bulkWriteRequest pkt now => exact execBulkWriteRequest_sound pkt now h
  | readData pkt => exact execReadData_sound pkt h
  | writeAck pkt => exact execWriteAck_sound pkt h
  | atomicResult pkt => exact execAtomicResult_sound pkt h
  | errorResponse pkt now => exact execErrorResponse_sound pkt now h
  | detachedNotice port pkt now => exact execDetachedNotice_sound port pkt now h
  | memberLostMessage port pkt now => exact execMemberLostMessage_sound port pkt now h
  | stopMessage port pkt => exact execStopMessage_sound port pkt h
  | drainMessage pkt => exact execDrainMessage_sound pkt h
  | drainReturn pkt => exact execDrainReturn_sound pkt h
  | teardownMessage pkt now => exact execTeardownMessage_sound pkt now h
  | routePatchMessage port pkt => exact execRoutePatchMessage_sound port pkt h
  | packetAged pkt now => exact execPacketAged_sound pkt now h
  | responseTimeout tag now => exact execResponseTimeout_sound tag now h
  | fabCopy run item now => exact execFabCopy_sound run item now h
  | fabAtomic run item now => exact execFabAtomic_sound run item now h
  | fabPut run item now => exact execFabPut_sound run item now h
  | fabFence run item now => exact execFabFence_sound run item now h
  | fabStop run item now => exact execFabStop_sound run item now h
  | routePatch run item now => exact execRoutePatch_sound run item now h
  | fenceDrainDone src drain => exact execFenceDrainDone_sound src drain h
  | teardownDrainDone context now => exact execTeardownDrainDone_sound context now h
  | teardownReusePoint context now => exact execTeardownReusePoint_sound context now h
  | rsHalf run item now => exact execRsHalf_sound run item now h
  | agHalf run item now => exact execAgHalf_sound run item now h
  | bcastHalf run item now => exact execBcastHalf_sound run item now h
  | barrierHalf run item now => exact execBarrierHalf_sound run item now h
  | gradReduce run item now => exact execGradReduce_sound run item now h
  | mirrorState run item now => exact execMirrorState_sound run item now h
  | restoreMirror run item now => exact execRestoreMirror_sound run item now h
  | collectivePacket pkt => exact execCollectivePacket_sound pkt h
  | halfWaitTimeout run item => exact execHalfWaitTimeout_sound run item h
  | understudyTakeover lost entry now => exact execUnderstudyTakeover_sound lost entry now h
  | watchdogExpiry now => exact execWatchdogExpiry_sound now h
  | stageManagerRestarted now => exact execStageManagerRestarted_sound now h
  | engineRecoveryTimeout engine now => exact execEngineRecoveryTimeout_sound engine now h
  | engineResetDone engine => exact execEngineResetDone_sound engine h
  | engineResetTimeout engine now => exact execEngineResetTimeout_sound engine now h
  | coppiceComplete part now => exact execCoppiceComplete_sound part now h
  | stackFillDone stack => exact execStackFillDone_sound stack h
  | curtainDrained => exact execCurtainDrained_sound h
  | coppiceReq value now => exact execCoppiceReq_sound value now h
  | registerScan upsets tagOk now => exact execRegisterScan_sound upsets tagOk now h
  | selftestReq value => exact execSelftestReq_sound value h
  | selftestStart tile now => exact execSelftestStart_sound tile now h
  | selftestDone tile pass now => exact execSelftestDone_sound tile pass now h
  | poweredTimeSave now => exact execPoweredTimeSave_sound now h
  | hourlySummary now => exact execHourlySummary_sound now h
  | calibrationStall resource => exact execCalibrationStall_sound resource h
  | getChallenge path now => exact execGetChallenge_sound path now h
  | debugLock path => exact execDebugLock_sound path h
  | fwUpdate path => exact execFwUpdate_sound path h
  | debugTrace path now => exact execDebugTrace_sound path now h
  | debugInvasive path now => exact execDebugInvasive_sound path now h
  | enrollOwner path now => exact execEnrollOwner_sound path now h
  | enterService path now => exact execEnterService_sound path now h
  | returnToken path now => exact execReturnToken_sound path now h
  | ownerRelease path now => exact execOwnerRelease_sound path now h
  | retireToken path now => exact execRetireToken_sound path now h
  | clearCurtain path now => exact execClearCurtain_sound path now h
  | lifecycleReset now => exact execLifecycleReset_sound now h
  | nonceExpiry now => exact execNonceExpiry_sound now h
  | debugExpiry now => exact execDebugExpiry_sound now h
  | tapTestMode ir => exact execTapTestMode_sound ir h
  | tapTestExit now => exact execTapTestExit_sound now h
  | tapReset => exact execTapReset_sound h
  | getVersion spdm => exact execGetVersion_sound spdm h
  | getCapabilities spdm => exact execGetCapabilities_sound spdm h
  | negotiateAlgorithms spdm => exact execNegotiateAlgorithms_sound spdm h
  | getDigests spdm => exact execGetDigests_sound spdm h
  | getCertificate spdm => exact execGetCertificate_sound spdm h
  | spdmChallenge spdm => exact execSpdmChallenge_sound spdm h
  | getMeasurements spdm => exact execGetMeasurements_sound spdm h
  | keyExchange spdm => exact execKeyExchange_sound spdm h
  | finishSession spdm => exact execFinishSession_sound spdm h
  | heartbeatRequest spdm => exact execHeartbeatRequest_sound spdm h
  | keyUpdate spdm => exact execKeyUpdate_sound spdm h
  | endSession spdm => exact execEndSession_sound spdm h
  | chunkSend spdm => exact execChunkSend_sound spdm h
  | chunkGet spdm => exact execChunkGet_sound spdm h
  | vendorDefinedRequest spdm stream => exact execVendorDefinedRequest_sound spdm stream h
  | ideIntegrityFailure stream => exact execIdeIntegrityFailure_sound stream h
  | pwrTargetFull => exact execPwrTargetFull_sound h
  | pwrTargetDark => exact execPwrTargetDark_sound h
  | pwrTargetGhostLight => exact execPwrTargetGhostLight_sound h
  | dimIdleExpiry now => exact execDimIdleExpiry_sound now h
  | powerTransitionDone now => exact execPowerTransitionDone_sound now h
  | darkEntryTimeout now => exact execDarkEntryTimeout_sound now h
  | junctionTempRead readings => exact execJunctionTempRead_sound readings h
  | rstNAssert lowNs => exact execRstNAssert_sound lowNs h
  | bringUp found now => exact execBringUp_sound found now h
  | hostPortRelease now => exact execHostPortRelease_sound now h
  | flashReady journalOk => exact execFlashReady_sound journalOk h
  | deviceReset path key => exact execDeviceReset_sound path key h
  | apertureRead off size => exact execApertureRead_sound off size h
  | apertureWrite off size data => exact execApertureWrite_sound off size data h
  | powerRemoval => exact execPowerRemoval_sound h
  | reservedPacketType pkt => exact execReservedPacketType_sound pkt h
  | debugPortWrite addr data => exact execDebugPortWrite_sound addr data h

theorem exec_answers (c : Instr) (s : State) : ∃ t, exec c s = .next t := by
  cases c <;> exact ⟨_, rfl⟩

/-- What the next state of a command owes to the canonical state before it. -/
theorem exec_keeps {c : Instr} {s t : State} (h : s.Canonical) (e : exec c s = .next t) :
    Sound ⟨s.pending, s.counter, s.book.historySeq⟩ t := (exec_sound c (sound_self h)).next t e

/-- Settles O1, by the two branches of a step. -/
theorem stepRunsFront : Obligations.StepRunsFront := by
  unfold Obligations.StepRunsFront
  refine ⟨fun s c rest => rfl, fun s h => ?_⟩
  unfold step
  rw [h]

/-- Settles O2: a step is a command on the same memories, and every command keeps soundness. -/
theorem stepKeepsCanonical : Obligations.StepKeepsCanonical := by
  unfold Obligations.StepKeepsCanonical
  intro s t h e
  unfold step at e
  split at e
  · cases e
    exact h
  · next c rest _ => exact (exec_keeps (s := { s with pending := rest }) h e).canon

/-- Settles O4. -/
theorem execAnswersAndKeepsQueue : Obligations.ExecAnswersAndKeepsQueue := by
  unfold Obligations.ExecAnswersAndKeepsQueue
  intro c s h
  obtain ⟨t, e⟩ := exec_answers c s
  exact ⟨t, e, (exec_keeps h e).queue⟩

/-- Settles O5. -/
theorem recordsNeverGoBack : Obligations.RecordsNeverGoBack := by
  unfold Obligations.RecordsNeverGoBack
  exact ⟨fun _ _ _ n h e => (exec_keeps h e).counters n, fun _ _ _ h e => (exec_keeps h e).seq⟩

/-- Settles O6, by the laws of sparse storage. -/
theorem deviceMemoryReadsBack : Obligations.DeviceMemoryReadsBack := by
  unfold Obligations.DeviceMemoryReadsBack
  intro s key bs
  refine ⟨cellRead_write _ _ _ _, fun k hk => cellRead_write_apart _ _ _ _ _ _ ?_⟩
  omega

end Sys2Proof.Machine
end

