-- ==== Sys2Proof/Proofs/ControlItems.lean ====
section
/-! SUPPORT. The opcodes of the control class, each by what its work answers where nothing stands in its way (R37, R59, R60,
R105). -/
namespace Sys2Proof.Machine

variable {e : ItemEnv} {s : State} {run item : Nat} {r : Run}

theorem on_payTail_bind {β : Type} {n : Nat} (k : Unit → ItemM β) (h : leAt e.desc (32 + n) (96 - n) = 0) :
    ItemM.on (payTail n >>= k) e s = (k ()).on e s := on_payZero_bind k h

theorem readyItem_gives {cls op : Nat} {w : ItemM Done} {d : Done} {u : State} (hr : s.itemReady cls op run item = some r)
    (hw : w.on (r.env s item) (s.beginItem run item) = (.ok d, u)) (hq : u.waitsAck run item = false)
    (hu : u.runs = (s.beginItem run item).runs) (hc : cls < 7 := by decide) (hs : d.status < 16 := by decide) :
    ItemEnds u (s.runItem cls op w run item) run item d.status d.detail d.cycles :=
  runItem_ends hr (by omega) (by omega) hw hs hq hu

/-! ### NOP, ACCOUNT_READ and CONTEXT_START -/

theorem nopWork_on (h : leAt e.desc 32 96 = 0) : nopWork.on e s = (.ok (done), s) := by
  unfold nopWork
  rw [on_payTail_bind _ h]
  rfl

theorem accountBytes_length (a : Account) (cue : Nat) : (a.bytes cue).length = 256 := by
  have hist : ∀ l : List Nat, (l.flatMap fun i => leBytes 4 (cellGet 0 a.hist i)).length = 4 * l.length := by
    intro l
    induction l with
    | nil => rfl
    | cons x l ih => rw [List.flatMap_cons, List.length_append, leBytes_length, ih, List.length_cons]; omega
  simp [Account.bytes, hist]

theorem accountReadWork_on (h7 : leAt e.desc 33 7 = 0) (h80 : leAt e.desc 48 80 = 0) (hc : leAt e.desc 32 1 < 64)
    (hw : s.WritableHere (leAt e.desc 40 8) 256) :
    accountReadWork.on e s =
      (.ok (done), s.devWrite (addrKey (leAt e.desc 40 8)) ((s.account (leAt e.desc 32 1)).bytes s.cueNo)) := by
  have len := accountBytes_length (s.account (leAt e.desc 32 1)) s.cueNo
  unfold accountReadWork
  rw [on_payZero_bind _ h7, on_payTail_bind _ h80, on_pay_bind, on_require_bind _ (decide_eq_true hc), on_get_bind, on_pay_bind,
    store_on_bind _ (by rw [len]; exact hw) (by intro h; rw [h] at len; cases len)]
  rfl

theorem contextStartWork_on (hm : s.managed e.ring = true) (h95 : leAt e.desc 33 95 = 0) (hc : leAt e.desc 32 1 < 64)
    (hen : s.flag (ctxCtrlEn (leAt e.desc 32 1)) = true) (ht : s.flag (ctxFabricTearing (leAt e.desc 32 1)) = false) :
    contextStartWork.on e s = (.ok (done), s.startContext (leAt e.desc 32 1)) := by
  have managed : requireManaged.on e s = (.ok (), s) := by
    unfold requireManaged
    rw [on_get_bind, on_read_bind, on_require, if_pos hm]
  unfold contextStartWork
  rw [on_bind_ok managed, on_payTail_bind _ h95, on_pay_bind, on_require_bind _ (decide_eq_true hc), on_get_bind,
    on_require_bind _ (by rw [hen, ht]; rfl), on_set_bind]
  rfl

theorem mem_addVal {α : Type} [DecidableEq α] (x : α) (l : List α) : x ∈ addVal x l := by
  unfold addVal
  split
  · assumption
  · exact List.mem_append_right _ (List.mem_singleton_self x)

theorem not_mem_dropVal {α : Type} [DecidableEq α] (x : α) (l : List α) : x ∉ dropVal x l := by
  simp [dropVal]

theorem account_startContext (s : State) (c : Nat) : (s.startContext c).account c = Account.init := by
  show (match cellFind c (cellPut s.accounts c none) with
    | some a => a
    | none => Account.init) = Account.init
  rw [cellFind_put_same]

theorem account_congr {s t : State} (h : t.accounts = s.accounts) (c : Nat) : t.account c = s.account c := by
  unfold State.account
  rw [h]

/-- Settles O7. -/
theorem controlItemsEnd : Obligations.ControlItemsEnd := by
  unfold Obligations.ControlItemsEnd
  refine ⟨?_, ?_, ?_⟩
  · intro s run item r hr hz hq
    exact ⟨_, rfl, readyItem_gives hr (nopWork_on hz) hq rfl⟩
  · rintro s run item c a r hr rfl rfl hc h7 h80 hq hw
    exact ⟨_, rfl, readyItem_gives hr (accountReadWork_on h7 h80 hc hw) hq rfl⟩
  · rintro s run item c r hr rfl hc h95 hq hm hen ht
    have ends := readyItem_gives hr
      (contextStartWork_on (e := r.env s item) (s := s.beginItem run item) hm h95 hc hen ht) hq rfl
    refine ⟨_, rfl, ends, ?_, ?_, ?_⟩
    · rw [show (s.runItem 0 6 contextStartWork run item).sched = _ from ends.sched]
      exact mem_addVal _ _
    · rw [show (s.runItem 0 6 contextStartWork run item).sched = _ from ends.sched]
      exact not_mem_dropVal _ _
    · exact (account_congr ends.accounts _).trans (account_startContext _ _)

/-! ### BIAS_SET and BIAS_CHANGE_EFFECT -/

/-- The regions of a change have its bias, the others keep theirs (R37). -/
theorem mem_setBias (l : List Nat) (c : BiasChange) (g : Nat) : g ∈ setBias l c ↔
    if c.first ≤ g ∧ g < c.first + c.count then c.device = true else g ∈ l := by
  have region : g ∈ (List.range c.count).map (fun i => c.first + i) ↔ c.first ≤ g ∧ g < c.first + c.count := by
    simp only [List.mem_map, List.mem_range]
    exact ⟨by rintro ⟨i, hi, rfl⟩; omega, fun h => ⟨g - c.first, by omega, by omega⟩⟩
  have rest : g ∈ l.filter (fun r => !(decide (c.first ≤ r) && decide (r < c.first + c.count))) ↔
      g ∈ l ∧ ¬(c.first ≤ g ∧ g < c.first + c.count) := by
    rw [List.mem_filter, Bool.not_eq_true', Bool.and_eq_false_iff, decide_eq_false_iff_not, decide_eq_false_iff_not]
    tauto
  unfold setBias
  dsimp only
  by_cases hd : c.device = true
  · rw [if_pos hd, List.mem_append, rest, region]
    split <;> simp_all
  · rw [if_neg hd, rest]
    split <;> simp_all

theorem biasSetWork_on {off n dev : Nat} (ho : off = leAt e.desc 32 8) (hn : n = leAt e.desc 40 4)
    (hd : dev = leAt e.desc 44 1) (hz : leAt e.desc 45 83 = 0) (hcxl : s.host.cxl = true) (hdev : dev < 2)
    (halign : off % 2 ^ 21 = 0) (hn0 : n ≠ 0) (hin : off + n * 2 ^ 21 ≤ s.fld cxlmemSizeSize * 2 ^ 32) :
    biasSetWork.on e s = (.error .hold, { s with host := { s.host with
      biasChanges := s.host.biasChanges.filter (fun c => !(c.run == e.run && c.item == e.item)) ++
        [{ run := e.run, item := e.item, first := off / 2 ^ 21, count := n, device := decide (dev = 1) }] } }) := by
  subst ho hn hd
  unfold biasSetWork
  rw [on_get_bind, on_require_bind _ hcxl, on_payTail_bind _ hz, on_pay_bind, on_pay_bind, on_read_bind, on_get_bind,
    on_pay_bind, on_require_bind _ (by simp only [Nat.reduceAdd, decide_eq_true hdev, decide_eq_true halign, decide_eq_true hn0,
      decide_eq_true hin, Bool.and_self]), on_pay_bind, on_set_bind]
  rfl

theorem runItem_holds {cls op : Nat} {w : ItemM Done} {u : State} (hr : s.itemReady cls op run item = some r)
    (hw : w.on (r.env s item) (s.beginItem run item) = (.error .hold, u)) : s.runItem cls op w run item = u := by
  unfold State.runItem
  rw [hr]
  dsimp only
  rw [hw]
  rfl

/-- Ended from outside its work, an item of no codec class ends as one whose work ends. -/
theorem endsNow {st dt cy : Nat} (hr : s.findRun run = some r) (hc : hdrClass r.desc.bytes ≠ 7 ∧ hdrClass r.desc.bytes ≠ 8)
    (ho : s.itemOpen run item = true) (hq : s.waitsAck run item = false) (hs : st < 16) :
    ItemEnds s ((s.noteCycles run item cy).closeItem run item st dt) run item st dt cy := by
  refine closeItem_ends hs hq ho fun r' hr' => ?_
  rw [hr] at hr'
  cases hr'
  exact hc

/-- The change made: it waits no more, and its regions have its bias. -/
def State.withBias (s : State) (run item : Nat) (c : BiasChange) : State :=
  { s with host := { s.host with
    biasChanges := s.host.biasChanges.filter fun d => !(d.run == run && d.item == item)
    deviceBias := setBias s.host.deviceBias c } }

theorem biasEffect_of_find {c : BiasChange}
    (h : s.host.biasChanges.find? (fun c => c.run == run && c.item == item) = some c) :
    s.biasEffect run item = ((s.withBias run item c).noteCycles run item 0).closeItem run item stOk 0 := by
  unfold State.biasEffect
  rw [h]
  rfl

/-- Settles O9. -/
theorem biasChangesWhenAccessesComplete : Obligations.BiasChangesWhenAccessesComplete := by
  unfold Obligations.BiasChangesWhenAccessesComplete
  constructor
  · intro s run item off n dev r hr ho hn hd hz hcxl hdev halign hn0 hin
    have work := biasSetWork_on (e := r.env s item) (s := s.beginItem run item) ho hn hd hz hcxl hdev halign hn0 hin
    have hid : r.id = run := findRun_id (itemReady_spec hr).1
    refine congrArg Host.Outcome.next ((runItem_holds hr work).trans ?_)
    simp only [Run.env_run, Run.env_item, hid, State.beginItem_host]
  · intro s run item c r hc hr hcls ho hq
    refine ⟨_, s.withBias run item c, congrArg Host.Outcome.next (biasEffect_of_find hc), ?_, rfl, fun g hg => ?_,
      fun g hg => ?_⟩
    · exact endsNow (s := s.withBias run item c) hr (by omega) ho hq (by decide)
    · exact (mem_setBias _ _ g).trans (by rw [if_pos hg])
    · exact (mem_setBias _ _ g).trans (by rw [if_neg hg])

end Sys2Proof.Machine
end

