-- ==== Sys2Proof/Proofs/EmptyCopy.lean ====
section
/-! SUPPORT. A HOST_COPY of no bytes: it stores nothing, so what a store closes stays open. -/
namespace Sys2Proof.Machine

/-- `HOST_COPY` of one item, whose list stands at 0x1000. -/
def copyDesc : List Byte := leBytes 1 3 ++ leBytes 31 0 ++ leBytes 8 0x1000 ++ leBytes 88 0

/-- Run 1 of that descriptor, its item unstarted. -/
def copyRun : Run :=
  { id := 1
    desc := { index := 0, ring := 0, bytes := copyDesc, verdict := none, noFence := false, todo := [0], continuation := false,
              fallback := false, owner := none, since := 0, worst := 0, alsoFence := 0, order := 0, headCue := none,
              fenceWait := 0 }
    items := [{ index := 0, phase := .unstarted, cycles := 0, arrived := [], stage := 0 }]
    fnGen := 0, biasGen := 0, chorusGen := 0, cue := 0, startNs := 0, group := none, pooled := false, charge := 0,
    spilled := false, tiles := [], engines := [], ctxGen := 0 }

/-- The host port is up. The list entry copies no bytes from the host to address 0x2010, in a line whose uncorrectable read is
still open (Table 15.2). -/
def emptyCopy : State :=
  { State.reset with
    host := { State.reset.host with released := true, up := true }
    runs := [copyRun]
    mem := { State.reset.mem with dev := [(0x1008, 0x10), (0x1009, 0x20)] }
    rel := { State.reset.rel with openReads := [(⟨1, 0, 0⟩, 0x2000)] } }

/-- It meets what the clause of HOST_COPY asks of a state, and reads its entry without meeting any error. -/
theorem emptyCopy_copies : emptyCopy.itemReady 0 3 1 0 = some copyRun ∧
    emptyCopy.ReadableHere 0x1000 32 ∧ emptyCopy.WritableHere 0x2010 0 ∧ emptyCopy.ideRequired = false ∧
    (emptyCopy.beginItem 1 0).afterRead (copyRun.env emptyCopy 0) 0x1000 32 = emptyCopy.beginItem 1 0 := by
  unfold State.ReadableHere State.WritableHere
  decide +kernel

theorem emptyCopy_entry : leAt (emptyCopy.devRead 0x1000 32) 16 4 = 0 ∧ leAt (emptyCopy.devRead 0x1000 32) 20 1 = 0 ∧
    leAt (emptyCopy.devRead 0x1000 32) 21 11 = 0 ∧ leAt (emptyCopy.devRead 0x1000 32) 8 8 = 0x2010 := by
  decide +kernel

/-- The item may end. -/
theorem emptyCopy_canEnd : (emptyCopy.beginItem 1 0).CanEnd 1 0 copyRun where
  isOpen := by decide +kernel
  quiet := by decide +kernel
  same := by
    intro q h
    obtain rfl : q = { copyRun with items := [{ index := 0, phase := .running, cycles := 0, arrived := [], stage := 0 }] } :=
      Option.some.inj (h.symm.trans (by decide +kernel))
    rfl

/-- The open read stays open over the command, where a store of no bytes at 0x2010 would close it. -/
theorem emptyCopy_openReads :
    (emptyCopy.runItem 0 3 (hostCopyWork (some [])) 1 0).rel.openReads ≠
      ((emptyCopy.beginItem 1 0).devWrite (addrKey 0x2010) []).rel.openReads := by
  decide +kernel

/-- Refutes O8: its clause of HOST_COPY lets the length be 0, where the command stores nothing, while `devWrite` of no bytes
still closes the open read of the line that its address lies in. -/
theorem not_fencesAndHostCopiesEnd : ¬ Obligations.FencesAndHostCopiesEnd := by
  unfold Obligations.FencesAndHostCopiesEnd
  rintro ⟨-, copies⟩
  obtain ⟨ready, readable, writable, ide, same⟩ := emptyCopy_copies
  obtain ⟨len, dir, zero, addr⟩ := emptyCopy_entry
  have entry := copies emptyCopy (emptyCopy.beginItem 1 0) 1 0 0x1000 copyRun (emptyCopy.devRead 0x1000 32) [] ready
    (by decide +kernel) (by decide +kernel) readable rfl same.symm rfl rfl (.inl ide) (by rw [len]) (by rw [len]; decide) zero
    (by rw [len]; rfl)
  rw [addr] at entry
  obtain ⟨t, ht, ends⟩ := entry.1 dir writable emptyCopy_canEnd
  obtain rfl : emptyCopy.runItem 0 3 (hostCopyWork (some [])) 1 0 = t := Host.Outcome.next.inj ht
  exact emptyCopy_openReads (congrArg Rel.openReads ends.rel)

end Sys2Proof.Machine
end

