-- ==== Sys2Proof/Proofs/RunShells.lean ====
section
/-! SUPPORT. What ending items early leaves of the runs: all of them, each with its items' indices (R61, R62, R434). -/
namespace Sys2Proof.Machine

/-- An item but for what its work and its end change. -/
def Item.blank (x : Item) : Item := { index := x.index, phase := .unstarted, cycles := 0, arrived := [], stage := 0 }

/-- A run but for the progress of its items. -/
def Run.shell (r : Run) : Run := { r with items := r.items.map Item.blank }

def State.shells (s : State) : List Run := s.runs.map Run.shell

variable {s t : State} {run item k : Nat}

theorem shells_congr (h : t.runs = s.runs) : t.shells = s.shells := congrArg (List.map Run.shell) h

theorem shells_onItem (s : State) (run item : Nat) {f : Item → Item} (hf : ∀ x, (f x).index = x.index) :
    (s.onItem run item f).shells = s.shells := by
  have items : ∀ l : List Item, (l.map fun x => if x.index = item then f x else x).map Item.blank = l.map Item.blank := by
    intro l
    rw [List.map_map]
    refine List.map_congr_left fun x _ => ?_
    show Item.blank (if x.index = item then f x else x) = x.blank
    split
    · unfold Item.blank
      rw [hf]
    · rfl
  show (s.runs.map _).map Run.shell = s.runs.map Run.shell
  rw [List.map_map]
  refine List.map_congr_left fun r _ => ?_
  show Run.shell (if r.id = run then _ else r) = r.shell
  split
  · unfold Run.shell
    rw [items]
  · rfl

/-- An item's end changes the runs as its phase changes, and not otherwise. -/
theorem endItem_runs (s : State) (run item st dt : Nat) :
    (s.endItem run item st dt).runs = (s.onItem run item fun x => x.finish s.now st dt).runs := by
  unfold State.endItem
  split
  · rfl
  · show List.map _ _ = List.map _ s.runs
    rw [release_runs]

theorem shells_endItem (s : State) (run item st dt : Nat) : (s.endItem run item st dt).shells = s.shells :=
  (shells_congr (endItem_runs s run item st dt)).trans (shells_onItem s run item fun x => finish_index x _ st dt)

theorem shells_noteCycles (s : State) (run item b : Nat) : (s.noteCycles run item b).shells = s.shells :=
  shells_onItem s run item (f := fun x => { x with cycles := s.cyclesOf b }) fun _ => rfl

theorem shells_endEarly (s : State) (run item st dt : Nat) : (s.endEarly run item st dt).shells = s.shells := by
  unfold State.endEarly
  refine (shells_endItem _ _ _ _ _).trans ?_
  split
  · exact shells_noteCycles s run item 0
  · rfl

theorem shells_foldl {α : Type} {f : State → α → State} (hf : ∀ s a, (f s a).shells = s.shells) (l : List α) (s : State) :
    (l.foldl f s).shells = s.shells := by
  induction l generalizing s with
  | nil => rfl
  | cons a l ih => exact (ih _).trans (hf s a)

theorem shells_cutItems (s : State) (p : Run → Bool) (q : Item → Bool) (st dt : Nat) :
    (s.cutItems p q st dt).shells = s.shells := by
  refine shells_foldl (fun t r => ?_) _ _
  split
  · refine shells_foldl (fun u x => ?_) _ _
    split
    · exact shells_endEarly _ _ _ _ _
    · rfl
  · rfl

/-! ### What shells tell -/

theorem ids_of_shells (h : t.shells = s.shells) : t.runs.map Run.id = s.runs.map Run.id := by
  have ids : ∀ u : State, u.shells.map Run.id = u.runs.map Run.id := fun u => by
    unfold State.shells
    rw [List.map_map]
    rfl
  rw [← ids t, ← ids s, h]

theorem shell_findRun (s : State) (k : Nat) : (s.findRun k).map Run.shell = s.shells.find? fun r => r.id == k := by
  unfold State.shells State.findRun
  rw [List.find?_map]
  rfl

/-- A run is still there, with all of it but its items' progress. -/
theorem findRun_of_shells (h : t.shells = s.shells) (k : Nat) :
    (t.findRun k).map Run.shell = (s.findRun k).map Run.shell := by
  rw [shell_findRun, shell_findRun, h]

/-! ### Another run -/

theorem findRun_onItem_other (s : State) (run item : Nat) (f : Item → Item) (h : k ≠ run) :
    (s.onItem run item f).findRun k = s.findRun k := by
  unfold State.onItem
  refine (findRun_onRun s run k (fun q => { q with items := q.items.map fun x => if x.index = item then f x else x })
    fun _ => rfl).trans ?_
  cases hr : s.findRun k with
  | none => rfl
  | some r => simp [findRun_id hr, h]

theorem findRun_congr (h : t.runs = s.runs) (k : Nat) : t.findRun k = s.findRun k := by
  unfold State.findRun
  rw [h]

theorem findRun_endItem_other (s : State) (run item st dt : Nat) (h : k ≠ run) :
    (s.endItem run item st dt).findRun k = s.findRun k :=
  (findRun_congr (endItem_runs s run item st dt) k).trans (findRun_onItem_other s run item _ h)

theorem findRun_endEarly_other (s : State) (run item st dt : Nat) (h : k ≠ run) :
    (s.endEarly run item st dt).findRun k = s.findRun k := by
  unfold State.endEarly
  refine (findRun_endItem_other _ _ _ _ _ h).trans ?_
  split
  · exact findRun_onItem_other s run item (fun x => { x with cycles := s.cyclesOf 0 }) h
  · rfl

/-- A cut of other runs leaves a run as it is. -/
theorem findRun_cutItems_other {s : State} {p : Run → Bool} (q : Item → Bool) (st dt : Nat) (h : ∀ r ∈ s.runs, p r = true → r.id ≠ k) :
    (s.cutItems p q st dt).findRun k = s.findRun k := by
  have fold : ∀ {α : Type} {f : State → α → State} {l : List α},
      (∀ a ∈ l, ∀ t : State, (f t a).findRun k = t.findRun k) → ∀ t : State, (l.foldl f t).findRun k = t.findRun k := by
    intro α f l hl
    induction l with
    | nil => exact fun _ => rfl
    | cons a l ih =>
      exact fun t => (ih (fun b hb => hl b (List.mem_cons_of_mem _ hb)) _).trans (hl a List.mem_cons_self t)
  refine fold (fun r hr t => ?_) s
  split
  · next hp =>
    refine fold (fun x _ u => ?_) t
    split
    · exact findRun_endEarly_other u _ _ _ _ (h r hr hp).symm
    · rfl
  · rfl

end Sys2Proof.Machine
end

