-- ==== Sys2Proof/Proofs/Upkeep.lean ====
section
/-! SUPPORT. What the upkeep of the device (events, records, suspect and confirmed units, curtain) leaves of the queues: the rings
but for verdicts on what waits, the runs but for the progress of their items, the scheduler's state (R256 to R265, R421, R442). -/
namespace Sys2Proof.Machine

/-- A waiting descriptor but for its verdict. -/
def Fetched.unjudged (f : Fetched) : Fetched := { f with verdict := none }

/-- A feed that waits for no engines goes on waiting for none, and keeps its count of clips given (Table 12.8). -/
def FeedKept (n : Nat) (s t : State) : Prop := (∀ x ∈ s.media.feeds, x.1 = n → x.2.state ≠ 1) →
  (∀ x ∈ t.media.feeds, x.1 = n → x.2.state ≠ 1) ∧ (t.feed n).given = (s.feed n).given

theorem FeedKept.trans {n : Nat} {s t u : State} (a : FeedKept n s t) (b : FeedKept n t u) : FeedKept n s u := fun h =>
  have ⟨ha, ga⟩ := a h
  have ⟨hb, gb⟩ := b ha
  ⟨hb, gb.trans ga⟩

theorem feedKept_of {s t : State} (h : t.media.feeds = s.media.feeds) (n : Nat) : FeedKept n s t := fun hs =>
  ⟨by rw [h]; exact hs, by unfold State.feed; rw [h]⟩

/-- Feeds taken off the list, none of which is `n`. -/
theorem feedKept_filter {s t : State} {n : Nat} {p : Nat → Bool} (h : t.media.feeds = s.media.feeds.filter fun x => p x.1)
    (hp : (∀ x ∈ s.media.feeds, x.1 = n → x.2.state ≠ 1) → p n = true) : FeedKept n s t := fun hs => by
  refine ⟨fun x hx => hs x (List.mem_of_mem_filter (h ▸ hx)), ?_⟩
  unfold State.feed
  rw [h, cellFind_filter p n (hp hs)]

/-- Feeds changed each by itself, with what they have given. -/
theorem feedKept_map {s t : State} (n : Nat) {g : Feed → Feed} (h : t.media.feeds = s.media.feeds.map fun x => (x.1, g x.2))
    (hg : ∀ f, (g f).given = f.given) (h1 : ∀ f, f.state ≠ 1 → (g f).state ≠ 1) : FeedKept n s t := fun hs => by
  constructor
  · intro x hx hn
    rw [h] at hx
    obtain ⟨y, hy, rfl⟩ := List.mem_map.1 hx
    exact h1 _ (hs y hy hn)
  · unfold State.feed
    rw [h, cellFind_mapSnd]
    cases cellFind n s.media.feeds with
    | none => rfl
    | some f => exact hg f

/-- `t` has the queues of `s`, but for verdicts and the progress of items. -/
structure Upkeep (s t : State) : Prop where
  shells : t.shells = s.shells
  ring : ∀ n, t.ring n = { s.ring n with fifo := (t.ring n).fifo }
  waiting : ∀ n, (t.ring n).fifo.map Fetched.unjudged = (s.ring n).fifo.map Fetched.unjudged
  sched : t.sched = s.sched
  accounts : t.accounts = s.accounts
  boot : t.boot = s.boot
  pending : t.pending = s.pending
  now : t.now = s.now
  feeds : ∀ n, FeedKept n s t

variable {s t u : State}

theorem Upkeep.trans (a : Upkeep s t) (b : Upkeep t u) : Upkeep s u where
  shells := b.shells.trans a.shells
  ring n := by rw [b.ring n, a.ring n]
  waiting n := (b.waiting n).trans (a.waiting n)
  sched := b.sched.trans a.sched
  accounts := b.accounts.trans a.accounts
  boot := b.boot.trans a.boot
  pending := b.pending.trans a.pending
  now := b.now.trans a.now
  feeds n := (a.feeds n).trans (b.feeds n)

/-- A step that changes none of these parts. -/
theorem upkeep_of (hr : t.rings = s.rings := by exact rfl) (hu : t.runs = s.runs := by exact rfl)
    (h1 : t.sched = s.sched := by exact rfl) (h2 : t.accounts = s.accounts := by exact rfl)
    (h3 : t.boot = s.boot := by exact rfl) (h4 : t.pending = s.pending := by exact rfl)
    (h5 : t.now = s.now := by exact rfl) (h6 : t.media.feeds = s.media.feeds := by exact rfl) : Upkeep s t where
  shells := shells_congr hu
  ring n := by rw [ring_congr hr]
  waiting n := by rw [ring_congr hr]
  sched := h1
  accounts := h2
  boot := h3
  pending := h4
  now := h5
  feeds := feedKept_of h6

theorem Upkeep.refl (s : State) : Upkeep s s := upkeep_of

/-- Another such step after the first. -/
theorem Upkeep.step (a : Upkeep s t) (hr : u.rings = t.rings := by exact rfl) (hu : u.runs = t.runs := by exact rfl)
    (h1 : u.sched = t.sched := by exact rfl) (h2 : u.accounts = t.accounts := by exact rfl)
    (h3 : u.boot = t.boot := by exact rfl) (h4 : u.pending = t.pending := by exact rfl)
    (h5 : u.now = t.now := by exact rfl) (h6 : u.media.feeds = t.media.feeds := by exact rfl) : Upkeep s u :=
  a.trans (upkeep_of hr hu h1 h2 h3 h4 h5 h6)

theorem upkeep_ite {c : Prop} [Decidable c] (h : Upkeep s t) (k : Upkeep s u) : Upkeep s (if c then t else u) := by
  split <;> assumption

theorem upkeep_foldl {α : Type} {g : State → α → State} (hg : ∀ t x, Upkeep t (g t x)) (l : List α) (s : State) :
    Upkeep s (l.foldl g s) := by
  induction l generalizing s with
  | nil => exact Upkeep.refl s
  | cons x l ih => exact (hg s x).trans (ih _)

theorem upkeep_of_cuts (h : Cuts s t) (hs : t.shells = s.shells) (hf : ∀ n, FeedKept n s t) : Upkeep s t where
  shells := hs
  ring n := by rw [ring_congr h.rings]
  waiting n := by rw [ring_congr h.rings]
  sched := h.sched
  accounts := h.accounts
  boot := h.boot
  pending := h.pending
  now := h.now
  feeds := hf

/-! ### Logs and records -/

theorem raise_upkeep (s : State) (v : Nat) : Upkeep s (s.raise v) := by
  unfold State.raise
  exact upkeep_ite upkeep_of upkeep_of

theorem event_upkeep (s : State) : Upkeep s s.event := raise_upkeep s 256

theorem logPost_upkeep (s : State) (l : LogRegs) (e : List Byte) : Upkeep s (s.logPost l e) := by
  unfold State.logPost
  exact upkeep_ite upkeep_of (upkeep_ite upkeep_of upkeep_of)

theorem memErr_upkeep (s : State) (type : Nat) (src : ErrSource) (pl : ErrPlace) (n : Nat) : Upkeep s (s.memErr type src pl n) := by
  have post := logPost_upkeep s memerrLog (memErrEntry type src pl s.cueNo n)
  unfold State.memErr
  exact upkeep_ite (post.trans (event_upkeep _)) post

theorem histPost_upkeep (s : State) (h : HistInfo) : Upkeep s (s.histPost h) := by
  have post := logPost_upkeep s faultLog (s.histBytes h)
  unfold State.histPost
  exact upkeep_ite (post.trans (event_upkeep _)) post

theorem record_upkeep (s : State) (h : HistInfo) : Upkeep s (s.record h) := Upkeep.trans upkeep_of (histPost_upkeep _ _)

/-! ### Work cut short -/

theorem putPart_feeds (s : State) (src : ErrSource) (k : Nat) (bs : List Byte) (n : Nat) : FeedKept n s (s.putPart src k bs) := by
  unfold State.putPart
  split
  · exact (memErr_upkeep _ _ _ _ _).feeds n
  · exact feedKept_of rfl n

theorem releaseCodec_feeds (s : State) (run item st n : Nat) : FeedKept n s (s.releaseCodec run item st) := by
  unfold State.releaseCodec
  split
  · exact feedKept_of rfl n
  · split
    · split
      · exact feedKept_of rfl n
      · split
        · exact feedKept_of rfl n
        · have emptied : ∀ (v : State) (l : List EncJob), FeedKept n s v →
              FeedKept n s ({ v with media := { v.media with encodes := l } } : State) := fun v l h => h.trans (feedKept_of rfl n)
          refine FeedKept.trans (emptied _ _ ?_) (putPart_feeds _ _ _ _ n)
          split
          · split
            · exact (putPart_feeds _ _ _ _ n).trans (putPart_feeds _ _ _ _ n)
            · exact feedKept_of rfl n
          · exact feedKept_of rfl n
    · exact feedKept_of rfl n

theorem releaseFeed_feeds (s : State) (run item st n : Nat) : FeedKept n s (s.releaseFeed run item st) := by
  unfold State.releaseFeed
  split
  · exact feedKept_of rfl n
  · dsimp only
    split
    · exact feedKept_of rfl n
    · refine feedKept_filter (p := fun k => !((s.media.feeds.filter fun (_, f) => f.state == 1 && f.run == run &&
        f.item == item).map Prod.fst).contains k) rfl fun hs => ?_
      rw [Bool.not_eq_true', ← Bool.not_eq_true]
      intro h
      obtain ⟨x, hx, hn⟩ := List.mem_map.1 (List.contains_iff_mem.1 h)
      obtain ⟨hm, hc⟩ := List.mem_filter.1 hx
      simp only [Bool.and_eq_true, beq_iff_eq] at hc
      exact hs x hm hn hc.1.1

theorem endItem_feeds (s : State) (run item st dt n : Nat) : FeedKept n s (s.endItem run item st dt) := by
  unfold State.endItem
  split
  · exact feedKept_of rfl n
  · have left : ∀ t : State, FeedKept n t (t.leaveItem run item st) := fun t =>
      feedKept_of (congrArg Media.feeds (leaveItem_leaves t run item st).media) n
    exact (((releaseCodec_feeds _ _ _ _ n).trans (releaseFeed_feeds _ _ _ _ n)).trans (left _)).trans (feedKept_of rfl n)

theorem endEarly_feeds (s : State) (run item st dt n : Nat) : FeedKept n s (s.endEarly run item st dt) := by
  unfold State.endEarly
  refine FeedKept.trans ?_ (endItem_feeds _ _ _ _ _ n)
  split <;> exact feedKept_of rfl n

theorem endEarly_upkeep (s : State) (run item st dt : Nat) : Upkeep s (s.endEarly run item st dt) :=
  upkeep_of_cuts (endEarly_cuts _ _ _ _ _) (shells_endEarly _ _ _ _ _) (endEarly_feeds _ _ _ _ _)

theorem cutItems_upkeep (s : State) (p : Run → Bool) (q : Item → Bool) (st dt : Nat) : Upkeep s (s.cutItems p q st dt) :=
  upkeep_foldl (fun t _ => upkeep_ite (upkeep_foldl (fun u _ => upkeep_ite (endEarly_upkeep _ _ _ _ _) (Upkeep.refl u)) _ _)
    (Upkeep.refl t)) _ _

theorem cut_unjudged (f : Fetched) (st : Nat) : (f.cut st).unjudged = f.unjudged := by
  obtain ⟨v, hv, -⟩ := cut_eq f st
  rw [hv]
  rfl

theorem cutFetched_upkeep (s : State) (p : Fetched → Bool) (st : Nat) : Upkeep s (s.cutFetched p st) where
  shells := rfl
  ring n := by rw [ring_cutFetched]
  waiting n := by
    rw [ring_cutFetched, List.map_map]
    refine List.map_congr_left fun f _ => ?_
    show Fetched.unjudged (if p f then f.cut st else f) = f.unjudged
    split
    · exact cut_unjudged f st
    · rfl
  sched := rfl
  accounts := rfl
  boot := rfl
  pending := rfl
  now := rfl
  feeds := feedKept_of rfl

theorem cancelUnstarted_upkeep (s : State) : Upkeep s s.cancelUnstarted :=
  (cutItems_upkeep s _ _ _ _).trans (cutFetched_upkeep _ _ _)

theorem stopFeeds_upkeep (s : State) (p : Feed → Bool) : Upkeep s (s.stopFeeds p) := by
  have stopped : ∀ cl : List (Nat × Nat), Upkeep s { s with media := { s.media with
      feeds := s.media.feeds.map fun (n, f) => if p f then (n, { f with state := 0, engines := [], clips := [] }) else (n, f)
      claims := cl } } := fun cl =>
    { upkeep_of (s := s) (t := s) with
      feeds := fun n => feedKept_map n (g := fun f => if p f then { f with state := 0, engines := [], clips := [] } else f)
        (List.map_congr_left fun x _ => by dsimp only; split <;> rfl) (fun f => by split <;> rfl)
        (fun f hf => by split; exacts [Nat.zero_ne_one, hf]) }
  unfold State.stopFeeds
  exact (stopped _).trans (upkeep_foldl (fun t x => endEarly_upkeep t _ _ _ _) _ _)

/-! ### Messages -/

theorem sendVia_upkeep (s : State) (n vc : Nat) (p : Packet) : Upkeep s (s.sendVia n vc p) := by
  unfold State.sendVia
  dsimp only
  exact upkeep_ite upkeep_of upkeep_of

theorem promptNow_upkeep (s : State) (p : Packet) : Upkeep s (s.promptNow p) := by
  unfold State.promptNow
  split
  · exact upkeep_foldl (fun t n => sendVia_upkeep t n _ p) _ _
  · split
    · exact sendVia_upkeep _ _ _ _
    · exact Upkeep.refl s

theorem originate_upkeep (s : State) (p : Packet) : Upkeep s (s.originate p) := by
  unfold State.originate
  exact upkeep_ite (Upkeep.trans upkeep_of (promptNow_upkeep _ _)) upkeep_of

theorem stopEmitting_upkeep (s : State) : Upkeep s s.stopEmitting := by
  unfold State.stopEmitting
  exact upkeep_ite upkeep_of (Upkeep.refl s)

/-! ### Curtain -/

theorem enterCurtain_upkeep (s : State) (cause : Nat) : Upkeep s (s.enterCurtain cause) := by
  unfold State.enterCurtain
  refine upkeep_ite (Upkeep.refl s) (upkeep_ite ?_ ?_)
  · dsimp only
    exact upkeep_ite upkeep_of upkeep_of
  · dsimp only
    exact ((((Upkeep.trans upkeep_of (cancelUnstarted_upkeep _)).trans (stopFeeds_upkeep _ _)).trans (originate_upkeep _ _)).trans
      (stopEmitting_upkeep _)).trans (record_upkeep _ _)

/-! ### Suspect and confirmed units -/

theorem planCoppice_upkeep (s : State) (p : Nat) : Upkeep s (s.planCoppice p) := by
  unfold State.planCoppice
  exact upkeep_ite (Upkeep.refl s) (Upkeep.trans upkeep_of (event_upkeep _))

theorem confirmed_upkeep (s : State) (u : UnitId) : Upkeep s (s.confirmed u) := by
  unfold State.confirmed
  refine upkeep_ite upkeep_of (upkeep_ite (enterCurtain_upkeep _ _) (upkeep_ite (enterCurtain_upkeep _ _) ?_))
  dsimp only
  split
  · exact Upkeep.trans upkeep_of (planCoppice_upkeep _ _)
  · exact upkeep_of

theorem confirm_upkeep (s : State) (u : UnitId) (detector link : Nat) (data : List Byte) :
    Upkeep s (s.confirm u detector link data) := (Upkeep.trans upkeep_of (record_upkeep _ _)).trans (confirmed_upkeep _ _)

theorem suspect_upkeep (s : State) (u : UnitId) (detector : Nat) (data : List Byte) : Upkeep s (s.suspect u detector data) := by
  unfold State.suspect
  dsimp only
  split
  · exact upkeep_ite (confirm_upkeep _ _ _ _ _) (record_upkeep s _).step
  · have noted (t : State) (h : Upkeep s t) (c : Prop) [Decidable c] (r : Rel) : Upkeep s (if c then { t with rel := r } else t) :=
      upkeep_ite h.step h
    have flagged (t : State) (h : Upkeep s t) (c : Prop) [Decidable c] (n : Fld) (v : Nat) : Upkeep s (if c then t.setFld n v else t) :=
      upkeep_ite h.step h
    exact flagged _ (noted _ (record_upkeep s _).step _ _) _ _ _

/-! ### Reads through the codes -/

theorem countCorrected_upkeep (s : State) (u : UnitId) (n : Nat) : Upkeep s (s.countCorrected u n) := by
  unfold State.countCorrected
  dsimp only
  exact upkeep_ite (Upkeep.trans upkeep_of (suspect_upkeep _ _ _ _)) upkeep_of

theorem memCorrected_upkeep (s : State) (type : Nat) (src : ErrSource) (pl : ErrPlace) (u : UnitId) :
    Upkeep s (s.memCorrected type src pl u) := by
  unfold State.memCorrected
  dsimp only
  exact upkeep_ite upkeep_of ((Upkeep.trans upkeep_of (memErr_upkeep _ _ _ _ _)).trans (countCorrected_upkeep _ _ _))

theorem noSpare_upkeep (s : State) (src : ErrSource) (stack pc lane line : Nat) : Upkeep s (s.noSpare src stack pc lane line) := by
  unfold State.noSpare
  dsimp only
  exact upkeep_ite (memErr_upkeep _ _ _ _ _) ((memErr_upkeep _ _ _ _ _).trans (confirm_upkeep _ _ _ _ _))

theorem laneFail_upkeep (s : State) (src : ErrSource) (stack pc lane line : Nat) : Upkeep s (s.laneFail src stack pc lane line) := by
  unfold State.laneFail
  dsimp only
  exact upkeep_ite (upkeep_ite (Upkeep.trans upkeep_of (noSpare_upkeep _ _ _ _ _ _)) (Upkeep.trans upkeep_of (memErr_upkeep _ _ _ _ _)))
    upkeep_of

theorem meetWord_upkeep (s : State) (src : ErrSource) (line : Nat) (errs : List CellError) (j : Nat) :
    Upkeep s (s.meetWord src line errs j) := by
  have corrected := fun k p u => upkeep_ite (c := s.lineVerdict line errs j = .corrected) (memCorrected_upkeep s k src p u)
    (Upkeep.refl s)
  unfold State.meetWord
  dsimp only
  split
  · exact (corrected _ _ _).trans (upkeep_foldl (fun t x => laneFail_upkeep t _ _ _ _ _) _ _)
  · exact corrected _ _ _

theorem meetCells_upkeep (s : State) (src : ErrSource) (key len : Nat) : Upkeep s (s.meetCells src key len) := by
  unfold State.meetCells
  exact upkeep_foldl (fun t x => upkeep_foldl (fun u j => upkeep_ite (Upkeep.refl u) (meetWord_upkeep u src _ _ _)) _ _) _ _

end Sys2Proof.Machine
end

