-- ==== Sys2Proof/Proofs/Doorbells.lean ====
section
/-! SUPPORT. A doorbell line whose cancel mark has not moved: its indices taken, or a failing producer index noted (R48). -/
namespace Sys2Proof.Machine

/-- A mark that has not moved does nothing. -/
theorem takeMark_same {s : State} {n : Nat} {m : Word} (h : m = (s.ring n).cancel) : s.takeMark n m = s := by
  unfold State.takeMark
  exact if_pos (by simp [h])

theorem ringEvent_cancel (s : State) (n kind : Nat) : ((s.ringEvent n kind).ring n).cancel = (s.ring n).cancel := by
  unfold State.ringEvent
  split
  · rfl
  · rw [(event_upkeep _).ring, ring_onRing]

/-- A live ring's line is acted on once a Dimmed device is awake. -/
theorem wakeRing_some {s : State} {n : Nat} {l : DoorbellLine} (live : s.ringLive n = true) (fb : s.isFallbackRing n = false)
    (hp : s.powerState < 2) : s.wakeRing n (some l) = s.wakeDimmed.takeLine n l := by
  unfold State.wakeRing
  rw [if_neg (by simp [live, fb]), if_neg (by omega)]

theorem doorbell_device {s : State} {n : Nat} {l : DoorbellLine} (given : Option DoorbellLine) (hd : s.ringDevice n = true)
    (hl : s.readLine n = some l) : s.doorbell n given = s.wakeRing n (some l) := by
  unfold State.doorbell
  rw [if_pos hd, hl]

theorem poll_one {s : State} {n : Nat} {l : DoorbellLine} (hd : s.ringDevice n = false) (hc : s.host.cxl = false)
    (hu : s.host.up = true) : s.poll [(n, some l)] = s.wakeRing n (some l) := by
  simp [State.poll, hd, hc, hu]

/-- Both indices pass: they are taken. -/
theorem takeLine_ok {w : State} {n : Nat} {l : DoorbellLine} (hp : (w.ring n).prodOk (w.sqSize n) l.prod = true)
    (hk : (w.ring n).consOk (w.cqSize n) l.cons = true) (hm : l.cancel = (w.ring n).cancel) :
    w.takeLine n l = w.setRing n { w.ring n with prod := l.prod, cqCons := l.cons } := by
  have taken : ((w.ring n).takeProd (w.sqSize n) l.prod).takeCons (w.cqSize n) l.cons =
      { w.ring n with prod := l.prod, cqCons := l.cons } := by
    unfold Ring.takeProd Ring.takeCons
    rw [if_pos hp]
    exact if_pos hk
  unfold State.takeLine
  simp only [taken, hp, hk, Bool.not_true, Bool.or_self, Bool.false_eq_true, if_false]
  exact takeMark_same (by rw [ring_setRing]; exact hm)

/-- A producer index that fails its check for the first time is noted, and the completion consumer index taken. -/
theorem takeLine_badProd {w : State} {n : Nat} {l : DoorbellLine} (hp : (w.ring n).prodOk (w.sqSize n) l.prod = false)
    (hk : (w.ring n).consOk (w.cqSize n) l.cons = true) (hb : l.prod ∉ (w.ring n).badProd) (hm : l.cancel = (w.ring n).cancel) :
    w.takeLine n l = (w.setRing n { w.ring n with
      badProd := (w.ring n).badProd ++ [l.prod], ignored := satAdd 32 (w.ring n).ignored 1, cqCons := l.cons }).ringEvent n 0 := by
  have taken : ((w.ring n).takeProd (w.sqSize n) l.prod).takeCons (w.cqSize n) l.cons = { w.ring n with
      badProd := (w.ring n).badProd ++ [l.prod], ignored := satAdd 32 (w.ring n).ignored 1, cqCons := l.cons } := by
    have noted : (w.ring n).takeProd (w.sqSize n) l.prod = { w.ring n with
        badProd := (w.ring n).badProd ++ [l.prod], ignored := satAdd 32 (w.ring n).ignored 1 } := by
      unfold Ring.takeProd
      rw [if_neg (by simp [hp]), if_neg (by simpa using hb)]
    rw [noted]
    exact if_pos hk
  unfold State.takeLine
  simp only [taken, hp, Bool.not_false, Bool.true_or, if_true]
  exact takeMark_same (by rw [ringEvent_cancel, ring_setRing]; exact hm)

/-- Settles O10: a line of either kind comes to `State.takeLine`, which takes each index or notes it. -/
theorem doorbellTakesIndices : Obligations.DoorbellTakesIndices := by
  unfold Obligations.DoorbellTakesIndices
  constructor
  · rintro s w n l rfl live fb hp prod cons cancel
    have line : s.wakeRing n (some l) = _ := (wakeRing_some live fb hp).trans (takeLine_ok prod cons cancel)
    constructor
    · intro given hd hl
      exact congrArg Host.Outcome.next ((doorbell_device given hd hl).trans line)
    · intro hd hc hu
      exact congrArg Host.Outcome.next ((poll_one hd hc hu).trans line)
  · rintro s w n l given rfl live fb hp hd hl prod cons bad cancel
    exact congrArg Host.Outcome.next ((doorbell_device given hd hl).trans
      ((wakeRing_some live fb hp).trans (takeLine_badProd prod cons bad cancel)))

end Sys2Proof.Machine
end

