-- ==== Sys2Proof/Proofs/SlotFetches.lean ====
section
/-! SUPPORT. What a fetch leaves of its ring and of the runs: one more descriptor waits, and nothing else that waited changed but
its verdict (R46). -/
namespace Sys2Proof.Machine

variable {s t : State}

/-- Noting the head changes no more of its ring than the arrival at its head and its steps. -/
theorem noteHead_ring (s : State) (n : Nat) :
    (s.noteHead n).ring n = { s.ring n with fifo := ((s.noteHead n).ring n).fifo, steps := ((s.noteHead n).ring n).steps } := by
  unfold State.noteHead
  rw [ring_onRing]
  cases h : (s.ring n).fifo with
  | nil => simp
  | cons f l =>
    by_cases hc : f.headCue.isNone
    · simp only [hc, if_true]
      split <;> rfl
    · simp only [hc, if_false, Bool.false_eq_true]
      split <;> rfl

/-- Whatever part of a descriptor its arrival at the head leaves alone waits as before. -/
theorem noteHead_map {α : Type} {g : Fetched → α} (hg : ∀ f c, g { f with headCue := c } = g f) (s : State) (n : Nat) :
    ((s.noteHead n).ring n).fifo.map g = (s.ring n).fifo.map g := by
  rcases noteHead_fifo s n with e | ⟨f, l, hf, e⟩
  · rw [e]
  · rw [e, hf, List.map_cons, List.map_cons, hg]

theorem Upkeep.bytes (h : Upkeep s t) (n : Nat) :
    (t.ring n).fifo.map (fun f => f.bytes) = (s.ring n).fifo.map (fun f => f.bytes) := by
  have := congrArg (List.map fun f => f.bytes) (h.waiting n)
  rw [List.map_map, List.map_map] at this
  exact this

theorem trace_runs (s : State) (b : List Byte) : (s.trace b).runs = s.runs := by
  unfold State.trace
  dsimp only
  split <;> rfl

theorem trace_pending (s : State) (b : List Byte) : (s.trace b).pending = s.pending := by
  unfold State.trace
  dsimp only
  split <;> rfl

/-- The ring with one more descriptor behind the others, before its head is noted. -/
theorem queuedTraced_ring (s : State) (n : Nat) (f : Fetched) (b : List Byte) (k : Sched) :
    ({ (s.queued n f).trace b with sched := k } : State).ring n = { s.ring n with fifo := (s.ring n).fifo ++ [s.taken n f] } :=
  (ring_congr (s := s.queued n f) (trace_rings _ b) n).trans (ring_onRing _ _ _)

theorem pushFetched_cons (s : State) (n : Nat) (f : Fetched) : ((s.pushFetched n f).ring n).cons = (s.ring n).cons := by
  obtain ⟨b, k, hk⟩ := pushFetched_eq s n f
  rw [hk, noteHead_ring, queuedTraced_ring]

theorem pushFetched_bytes (s : State) (n : Nat) (f : Fetched) :
    ((s.pushFetched n f).ring n).fifo.map (fun f => f.bytes) = (s.ring n).fifo.map (fun f => f.bytes) ++ [f.bytes] := by
  obtain ⟨b, k, hk⟩ := pushFetched_eq s n f
  rw [hk, noteHead_map fun _ _ => rfl, queuedTraced_ring, List.map_append, List.map_singleton, (taken_bytes s n f).1]

theorem pushFetched_runs (s : State) (n : Nat) (f : Fetched) :
    (s.pushFetched n f).runs = s.runs ∧ (s.pushFetched n f).pending = s.pending := by
  obtain ⟨b, k, hk⟩ := pushFetched_eq s n f
  rw [hk]
  exact ⟨trace_runs (s.queued n f) b, trace_pending (s.queued n f) b⟩

/-- Settles O11: what the read of the slot meets is upkeep, and the descriptor then goes behind the others. -/
theorem fetchTakesNextSlot : Obligations.FetchTakesNextSlot := by
  unfold Obligations.FetchTakesNextSlot
  rintro s w n now given rfl may dev waiting shut bad
  obtain ⟨src, hf⟩ := fetch_device given may waiting dev rfl shut bad
  have met := meetCells_upkeep (s.tick now) src
    (addrKey ((s.tick now).reg (rRingSqBase n)) + 128 * (((s.tick now).ring n).cons.toNat % (s.tick now).sqSize n)) 128
  refine ⟨_, congrArg Host.Outcome.next hf, ?_, ?_, ?_, ?_⟩
  · unfold State.afterFetch
    rw [pushFetched_cons]
    unfold State.advanced
    rw [ring_onRing, met.ring]
  · unfold State.afterFetch
    rw [pushFetched_bytes]
    unfold State.advanced
    rw [ring_onRing]
    exact congrArg (· ++ _) (met.bytes n)
  · unfold State.afterFetch
    rw [(pushFetched_runs _ _ _).1]
    exact ids_of_shells met.shells
  · unfold State.afterFetch
    rw [(pushFetched_runs _ _ _).2]
    exact met.pending.trans (State.tick_pending s now)

end Sys2Proof.Machine
end

