-- ==== Sys2Proof/Proofs/Dispatching.lean ====
section
/-! SUPPORT. What the dispatch of waiting runs leaves alone: the rings but for verdicts, the scheduler, and of every run its
descriptor and items; a run that still waits is as it was (R45, R138). -/
namespace Sys2Proof.Machine

/-! ### Work of one run's items -/

/-- `t` is `s` after work of run `id`: upkeep, and every other run is as it was. -/
structure Beside (id : Nat) (s t : State) : Prop where
  upkeep : Upkeep s t
  others : ∀ k, k ≠ id → t.findRun k = s.findRun k

variable {id k n : Nat} {s t u : State} {α β : Type}

theorem Beside.refl (s : State) : Beside id s s := ⟨.refl s, fun _ _ => rfl⟩

theorem Beside.trans (a : Beside id s t) (b : Beside id t u) : Beside id s u :=
  ⟨a.upkeep.trans b.upkeep, fun k h => (b.others k h).trans (a.others k h)⟩

theorem beside_foldl {g : State → α → State} (hg : ∀ t x, Beside id t (g t x)) (l : List α) (s : State) :
    Beside id s (l.foldl g s) := by
  induction l generalizing s with
  | nil => exact .refl s
  | cons x l ih => exact (hg s x).trans (ih _)

/-- Upkeep that leaves the runs as they are. -/
theorem beside_of_runs (h : Upkeep s t) (hr : t.runs = s.runs) : Beside id s t := ⟨h, fun k _ => findRun_congr hr k⟩

/-- The piece of work, done for an item of run `id`, keeps to that run, however it ends. -/
def ItemM.Within (id : Nat) (m : ItemM α) : Prop := ∀ (e : ItemEnv) (s : State), e.run = id → Beside id s (m.on e s).2

theorem within_bind {m : ItemM α} {g : α → ItemM β} (h : m.Within id) (hg : ∀ a, (g a).Within id) : (m >>= g).Within id := by
  intro e s he
  have first := h e s he
  cases hm : m.on e s with
  | mk r t =>
    rw [hm] at first
    cases r with
    | error x =>
      have : ((m >>= g).on e s).2 = t := by rw [on_bind_error hm]
      rw [this]
      exact first
    | ok a =>
      rw [on_bind_ok hm]
      exact first.trans (hg a e t he)

theorem within_pure (a : α) : (pure a : ItemM α).Within id := fun _ s _ => .refl s
theorem within_stop (st dt : Nat) : (stopWith st dt : ItemM α).Within id := fun _ s _ => .refl s
theorem within_get : (get : ItemM State).Within id := fun _ s _ => .refl s
theorem within_read : (read : ItemM ItemEnv).Within id := fun _ s _ => .refl s

theorem within_require (c : Bool) (st dt : Nat) : (require c st dt).Within id := by
  unfold require
  split
  · exact within_pure _
  · exact within_stop _ _

theorem within_forM {l : List α} {g : α → ItemM PUnit} (h : ∀ a, (g a).Within id) : (l.forM g).Within id := by
  induction l with
  | nil => exact within_pure _
  | cons a l ih => exact within_bind (h a) fun _ => ih

/-! ### Stores -/

theorem remoteOk_within (m vc : Nat) (atomic : Bool) : (remoteOk m vc atomic).Within id :=
  within_bind within_get fun _ => within_bind within_read fun _ => within_require _ _ _

theorem checkWrite_within (a len : Nat) : (checkWrite a len).Within id := by
  refine within_bind within_get fun s => within_bind (within_require _ _ _) fun _ => within_bind (within_require _ _ _) fun _ => ?_
  split
  · exact within_require _ _ _
  · exact remoteOk_within _ _ _

theorem memErr_runs (s : State) (type : Nat) (src : ErrSource) (pl : ErrPlace) (n : Nat) :
    (s.memErr type src pl n).runs = s.runs := by
  unfold State.memErr State.event State.raise State.logPost
  dsimp only
  split_ifs <;> rfl

theorem writeDev_within (key : Nat) (bs : List Byte) : (writeDev key bs).Within id := by
  intro e s _
  by_cases hs : s.devShut key = true
  · have : ((writeDev key bs).on e s).2 = s := by
      unfold writeDev
      rw [on_get_bind, on_read_bind, hs]
      rfl
    rw [this]
    exact .refl s
  · simp only [Bool.not_eq_true] at hs
    by_cases hb : s.devPartBad key bs.length = true
    · have : ((writeDev key bs).on e s).2 = s.partRefused (e.source s 4) key bs.length := by
        unfold writeDev
        rw [on_get_bind, on_read_bind, on_require_bind _ (by rw [hs]; rfl), if_pos hb]
        rfl
      rw [this]
      exact beside_of_runs (memErr_upkeep _ _ _ _ _) (memErr_runs _ _ _ _ _)
    · simp only [Bool.not_eq_true] at hb
      have : ((writeDev key bs).on e s).2 = s.devWrite key bs := by
        unfold writeDev
        rw [on_get_bind, on_read_bind, on_require_bind _ (by rw [hs]; rfl), if_neg (by rw [hb]; decide)]
        rfl
      rw [this]
      exact beside_of_runs upkeep_of rfl

theorem sendRequest_beside {p : Packet} {a : Bool} {use : ReqUse} {en : Option Nat} (h : s.sendRequest p a use en = some t) :
    Beside id s t := by
  unfold State.sendRequest at h
  split at h
  · cases h
  · obtain rfl := Option.some.inj h
    have sent : ∀ m q, (s.sendOn m q).runs = s.runs := fun m q => by
      unfold State.sendOn State.sendVia
      dsimp only
      split <;> rfl
    exact beside_of_runs ((sendVia_upkeep s _ _ _).step) (sent _ _)

theorem sendWrite_within (a : Nat) (bs : List Byte) (bulk : Bool) : (sendWrite a bs bulk).Within id := by
  intro e s _
  unfold sendWrite
  rw [on_get_bind, on_read_bind]
  dsimp only
  split
  · next h => exact sendRequest_beside h
  · exact .refl s

theorem onItem_beside (item : Nat) {f : Item → Item} (hf : ∀ x, (f x).index = x.index) : Beside id s (s.onItem id item f) where
  upkeep := { shells := shells_onItem s id item hf, ring := fun _ => rfl, waiting := fun _ => rfl, sched := rfl, accounts := rfl,
              boot := rfl, pending := rfl, now := rfl, feeds := feedKept_of rfl }
  others _ h := findRun_onItem_other s id item f h

theorem patchArrived_within (a : Nat) (bs : List Byte) : (patchArrived a bs).Within id := by
  rintro e s rfl
  exact onItem_beside e.item fun _ => rfl

theorem storeAt_within (a : Nat) (bs : List Byte) : (storeAt a bs).Within id := by
  refine within_bind within_get fun s => ?_
  dsimp only
  split_ifs
  · exact within_pure _
  · exact writeDev_within _ _
  · exact within_bind (within_forM fun x => sendWrite_within _ _ _) fun _ => patchArrived_within _ _

theorem store_within (a : Nat) (bs : List Byte) : (store a bs).Within id :=
  within_bind (checkWrite_within _ _) fun _ => storeAt_within _ _

/-! ### The beginning of a run -/

theorem pairBegin_beside (s : State) (r : Run) : Beside r.id s (s.pairBegin r) := by
  unfold State.pairBegin
  split
  · exact store_within _ _ _ s rfl
  · exact .refl s

theorem beginRun_beside (s : State) (r : Run) : Beside r.id s (s.beginRun r) := by
  unfold State.beginRun
  split
  · exact ⟨cutItems_upkeep _ _ _ _ _, fun k hk => findRun_cutItems_other _ _ _ fun q _ hq => by
      have : q.id = r.id := by simpa using hq
      rw [this]
      exact hk.symm⟩
  · exact pairBegin_beside s r

theorem healParity_beside (s : State) : Beside id s s.healParity := by
  unfold State.healParity
  split_ifs
  · exact .refl s
  · refine beside_foldl (fun t off => ?_) _ s
    exact beside_of_runs upkeep_of rfl
  · refine beside_of_runs (event_upkeep s) ?_
    unfold State.event State.raise
    split <;> rfl

/-! ### A run dispatched to its engines -/

/-- `t` is `s` with waiting runs dispatched: the rings are as they were but for verdicts, no run comes or goes, and one that still
waits has not changed. -/
structure Dispatching (s t : State) : Prop where
  bytes : ∀ n, (t.ring n).fifo.map (fun f => f.bytes) = (s.ring n).fifo.map (fun f => f.bytes)
  sched : t.sched = s.sched
  run : ∀ k r, s.findRun k = some r → ∃ q, t.findRun k = some q ∧ q.desc = r.desc ∧
    q.items.map (fun x => x.index) = r.items.map (fun x => x.index) ∧ (q.waiting = true → q = r)

theorem Dispatching.refl (s : State) : Dispatching s s := ⟨fun _ => rfl, rfl, fun _ r h => ⟨r, h, rfl, rfl, fun _ => rfl⟩⟩

theorem Dispatching.trans (a : Dispatching s t) (b : Dispatching t u) : Dispatching s u where
  bytes n := (b.bytes n).trans (a.bytes n)
  sched := b.sched.trans a.sched
  run k r hr := by
    obtain ⟨q, hq, hd, hi, hw⟩ := a.run k r hr
    obtain ⟨p, hp, hd', hi', hw'⟩ := b.run k q hq
    refine ⟨p, hp, hd'.trans hd, hi'.trans hi, fun h => ?_⟩
    obtain rfl := hw' h
    exact hw h

theorem dispatching_foldl {g : State → α → State} (hg : ∀ t x, Dispatching t (g t x)) (l : List α) (s : State) :
    Dispatching s (l.foldl g s) := by
  induction l generalizing s with
  | nil => exact .refl s
  | cons x l ih => exact (hg s x).trans (ih _)

theorem shell_indices (r : Run) : r.shell.items.map (fun x => x.index) = r.items.map (fun x => x.index) := by
  show (r.items.map Item.blank).map _ = _
  rw [List.map_map]
  rfl

theorem findRun_put (s : State) (j k : Nat) {p : Run} (hp : p.id = k) :
    (s.onRun k fun _ => p).findRun j = (s.findRun j).map fun r => if r.id = k then p else r := by
  have same : (fun r : Run => if r.id = k then p else r) = fun r => if r.id = k then { p with id := r.id } else r := by
    funext r
    split
    · next h => rw [h, ← hp]
    · rfl
  have put : (s.onRun k fun _ => p) = s.onRun k fun r => { p with id := r.id } := by
    unfold State.onRun
    rw [same]
  rw [put, findRun_onRun s k j (fun r => { p with id := r.id }) fun _ => rfl, same]

/-- A run put in the place of one of the same number, no longer waiting. -/
theorem dispatching_put {q p : Run} (hq : s.findRun k = some q) (hid : p.id = k) (hd : p.desc = q.desc) (hi : p.items = q.items)
    (hw : p.waiting = false) (hr : t.rings = s.rings) (hs : t.sched = s.sched) (hu : t.runs = (s.onRun k fun _ => p).runs)
    (hb : Beside k t u) : Dispatching s u where
  bytes n := (hb.upkeep.bytes n).trans (by rw [ring_congr hr])
  sched := hb.upkeep.sched.trans hs
  run j r hj := by
    have found : t.findRun j = (s.findRun j).map fun r => if r.id = k then p else r :=
      (findRun_congr hu j).trans (findRun_put s j k hid)
    by_cases h : j = k
    · subst h
      obtain rfl : q = r := Option.some.inj (hq.symm.trans hj)
      rw [hq, Option.map_some, if_pos (findRun_id hq)] at found
      have shell := findRun_of_shells hb.upkeep.shells j
      rw [found, Option.map_some, Option.map_eq_some_iff] at shell
      obtain ⟨v, hv, same⟩ := shell
      have part : ∀ {γ : Type} (g : Run → γ), g v.shell = g p.shell := fun g => congrArg g same
      refine ⟨v, hv, (part Run.desc).trans hd, ?_, fun w => ?_⟩
      · rw [← shell_indices v, same, shell_indices, hi]
      · exact absurd (w.symm.trans ((part Run.waiting).trans hw)) (by decide)
    · refine ⟨r, ?_, rfl, rfl, fun _ => rfl⟩
      rw [hb.others j h, found, hj, Option.map_some, if_neg (by rw [findRun_id hj]; exact h)]

theorem dispatchRun_dispatching {r : Run} (h : s.findRun r.id = some r) : Dispatching s (s.dispatchRun r) := by
  have claimed : ∀ (v : State) (e : Option Nat), (v.claimCodec r.id e).rings = v.rings ∧ (v.claimCodec r.id e).sched = v.sched ∧
      (v.claimCodec r.id e).runs = v.runs := by
    intro v e
    unfold State.claimCodec
    split
    · split <;> exact ⟨rfl, rfl, rfl⟩
    · exact ⟨rfl, rfl, rfl⟩
  generalize he : s.codecFor r.desc = e
  generalize hp : s.dispatched r e = p
  have own : p.id = r.id ∧ p.desc = r.desc ∧ p.items = r.items ∧ p.waiting = false := by
    rw [← hp]
    exact ⟨rfl, rfl, rfl, rfl⟩
  have begun : s.dispatchRun r =
      (((s.accountDispatch r.desc).onRun r.id fun _ => p).claimCodec r.id e).healParity.beginRun p := by
    rw [← hp, ← he]
    rfl
  obtain ⟨hid, hd, hi, hw⟩ := own
  obtain ⟨rings, sched, runs⟩ := claimed ((s.accountDispatch r.desc).onRun r.id fun _ => p) e
  have work := beginRun_beside (((s.accountDispatch r.desc).onRun r.id fun _ => p).claimCodec r.id e).healParity p
  rw [hid] at work
  rw [begun]
  exact dispatching_put h hid hd hi hw rings sched runs ((healParity_beside _).trans work)

theorem dispatchRuns_dispatching (s : State) : Dispatching s s.dispatchRuns := by
  refine dispatching_foldl (fun t r => ?_) _ s
  split
  · next q hq =>
    split
    · exact dispatchRun_dispatching (by rw [findRun_id hq]; exact hq)
    · exact .refl t
  · exact .refl t

/-! ### A head admitted -/

/-- The head's run is begun: the others stay, and what waited behind it waits. -/
theorem startRun_bytes {f : Fetched} {rest : List Fetched} (h : (s.ring n).fifo = f :: rest) (r : Run) :
    ((s.startRun n r).ring n).fifo.map (fun f => f.bytes) = rest.map (fun f => f.bytes) := by
  unfold State.startRun
  rw [noteHead_map fun _ _ => rfl]
  have : ((s.onRing n fun q => { q with fifo := q.fifo.drop 1, held := q.held + 1 + r.items.length }).ring n).fifo = rest := by
    rw [ring_onRing, h]
    rfl
  exact congrArg (List.map fun f => f.bytes) this

theorem startRun_found {r : Run} (h : ∀ q ∈ s.runs, q.id ≠ r.id) : (s.startRun n r).findRun r.id = some r := by
  unfold State.findRun
  rw [startRun_runs, List.find?_append, List.find?_eq_none.2 (fun q hq => by simpa using h q hq)]
  simp

theorem newRun_unstarted {f : Fetched} (hv : f.verdict = none) (g : Option Nat) (c : Nat) :
    ∀ x ∈ (s.newRun f g c).items, x.phase = .unstarted := by
  intro x hx
  obtain ⟨i, -, rfl⟩ := List.mem_map.1 hx
  simp only [hv]

/-- The charge of a head changes the rings and the runs in nothing, and the scheduler in no run's number. -/
theorem spendFor_keeps (s : State) (n c : Nat) (x : Option (Nat × Nat)) : (s.spendFor n c x).rings = s.rings ∧
    (s.spendFor n c x).runs = s.runs ∧ (s.spendFor n c x).sched.nextRun = s.sched.nextRun := by
  have spent : ∀ g k, (s.spend c n g k).rings = s.rings ∧ (s.spend c n g k).runs = s.runs ∧
      (s.spend c n g k).sched.nextRun = s.sched.nextRun := by
    intro g k
    unfold State.spend
    split <;> exact ⟨rfl, rfl, rfl⟩
  unfold State.spendFor
  split
  · split
    · exact ⟨(spent _ _).1, (spent _ _).2.1, (spent _ _).2.2⟩
    · exact spent _ _
  · exact ⟨rfl, rfl, rfl⟩

theorem startAdmitted_begins {f : Fetched} {rest : List Fetched} (x : Option (Nat × Nat)) (hq : (s.ring n).fifo = f :: rest)
    (hv : f.verdict = none) (new : ∀ r ∈ s.runs, r.id ≠ s.sched.nextRun) :
    (∃ r ∈ (s.startAdmitted n f x).runs, r.id = s.sched.nextRun ∧ r.desc = f ∧ r.items.map (fun x => x.index) = f.todo ∧
      (r.waiting = true → ∀ y ∈ r.items, y.phase = .unstarted)) ∧
    (s.startAdmitted n f x).sched.nextRun = s.sched.nextRun + 1 ∧
    ((s.startAdmitted n f x).ring n).fifo.map (fun f => f.bytes) = rest.map (fun f => f.bytes) := by
  obtain ⟨rings, runs, next⟩ := spendFor_keeps s n (hdrCtx f.bytes) x
  generalize ht : s.spendFor n (hdrCtx f.bytes) x = t at rings runs next
  generalize hr : ({ t.newRun f (x.map Prod.fst) ((x.map Prod.snd).getD 0) with waiting := true } : Run) = r
  have admitted : s.startAdmitted n f x = (t.startRun n r).dispatchRuns := by
    unfold State.startAdmitted
    rw [ht]
    exact congrArg (fun r => (t.startRun n r).dispatchRuns) hr
  have hid : r.id = s.sched.nextRun := by rw [← hr, ← next]; rfl
  have found : (t.startRun n r).findRun r.id = some r := startRun_found (by rw [runs, hid]; exact new)
  obtain ⟨bytes, sched, run⟩ := dispatchRuns_dispatching (t.startRun n r)
  obtain ⟨q, hq', hd, hi, hw⟩ := run _ _ found
  rw [admitted]
  refine ⟨⟨q, List.mem_of_find?_eq_some hq', (findRun_id hq').trans hid, ?_, ?_, fun w => ?_⟩, ?_, ?_⟩
  · rw [hd, ← hr]
    rfl
  · rw [hi, ← hr]
    exact newRun_indices t f (x.map Prod.fst) ((x.map Prod.snd).getD 0)
  · rw [hw w, ← hr]
    exact newRun_unstarted (s := t) hv (x.map Prod.fst) ((x.map Prod.snd).getD 0)
  · rw [sched, ← next]
    rfl
  · rw [bytes, startRun_bytes (by rw [ring_congr rings]; exact hq)]

/-- A ready head has no verdict, breaks no limit, and its fence-in is met. -/
theorem ready_spec {f g : Fetched} {rest : List Fetched} {x : Option (Nat × Nat)} (hq : (s.ring n).fifo = f :: rest)
    (h : s.ready n = some (g, x)) : f.verdict = none ∧ s.headBreaks f = none ∧ s.fenceState f = .met := by
  unfold State.ready at h
  rw [hq] at h
  dsimp only at h
  split at h
  · cases h
  · next hc =>
    simp only [Bool.or_eq_true, not_or, Bool.not_eq_true, Option.isSome_eq_false_iff, Option.isNone_iff_eq_none] at hc
    obtain ⟨⟨⟨⟨verdict, -⟩, -⟩, fence⟩, limits⟩ := hc
    exact ⟨verdict, limits, by simpa using fence⟩

theorem dispatch_ready {w : State} {f : Fetched} {rest : List Fetched} {x : Option (Nat × Nat)}
    (h1 : w = s.dispatchRuns.noteHead n) (hq : (w.ring n).fifo = f :: rest) (hn : (w.ringRuns n).length < 32)
    (hc : w.choiceOf f ≠ .fallback) (hr : w.ready n = some (f, x)) (ht : ∀ a, x = some a → w.turn n f a.1 = true) :
    s.dispatch n = w.startAdmitted n f x := by
  obtain ⟨verdict, limits, fence⟩ := ready_spec hq hr
  unfold State.dispatch
  simp only [← h1, hq]
  rw [if_neg (by simp; exact ⟨hn, hc⟩), if_neg (by simp [verdict])]
  simp only [limits, fence, hr]
  cases x with
  | none => rfl
  | some a => exact if_pos (ht a rfl)

/-- Settles O12: an admitted head's run waits until `dispatchRuns` has its turn, and a judged head's run is all ended. -/
theorem dispatchBeginsRun : Obligations.DispatchBeginsRun := by
  unfold Obligations.DispatchBeginsRun
  rintro s w n now f rest hw hq hn hc
  constructor
  · intro x hr ht new
    obtain ⟨verdict, -, -⟩ := ready_spec hq hr
    exact ⟨_, congrArg Host.Outcome.next (dispatch_ready hw hq hn hc hr ht), startAdmitted_begins x hq verdict new⟩
  · intro st dt hv room
    refine ⟨_, congrArg Host.Outcome.next (dispatch_judged hw hq hn hc hv room), ⟨w.newRun f none 0, ?_, rfl, rfl, ?_, ?_⟩, ?_⟩
    · rw [startRun_runs]
      exact List.mem_append_right _ (List.mem_singleton_self _)
    · exact newRun_indices w f none 0
    · exact newRun_ended hv none 0
    · exact startRun_bytes hq _

end Sys2Proof.Machine
end

