-- ==== Sys2Proof/Proofs/CutShort.lean ====
section
/-! SUPPORT. Runs cut short: by the time-out of a fence-in, by their own time-out, and by pre-emption (R58, R61, R63, R64, R102). -/
namespace Sys2Proof.Machine

variable {s t : State} {run item i k : Nat} {st : Nat} {x : Item}

/-- An early end of an item that has ended changes its status at most. -/
theorem itemOf_endEarly_ended (hx : s.itemOf run item = some x) (ended : x.hasEnded = true) (dt : Nat) :
    (s.endEarly run item st dt).itemOf run item = some (x.finish s.now st (s.detailFor run item st dt)) := by
  have idle : ¬(((s.findRun run).bind fun q => q.item item).any fun y => y.phase == .running) = true := by
    intro h
    unfold State.itemOf at hx
    rw [hx] at h
    unfold Item.hasEnded at ended
    simp at h
    rw [h] at ended
    cases ended
  unfold State.endEarly
  rw [itemOf_endItem, if_pos ⟨rfl, rfl⟩]
  simp only [idle, Bool.false_eq_true, if_false, hx, Option.map_some]

theorem hasEnded_of_yields {now : Nat} (h : x.yields now st = true) : x.hasEnded = true := by
  unfold Item.yields at h
  unfold Item.hasEnded
  split at h
  · next hp _ => rw [hp]
  · cases h

/-- An early end takes an item that is open, or whose end coincides with it and gives way. -/
theorem endEarly_ends (hx : s.itemOf run item = some x) (h : x.hasEnded = false ∨ x.yields s.now st = true) (dt : Nat) :
    ∃ d, (s.endEarly run item st dt).phaseOf run item = some (.ended st d) := by
  rcases h with open_ | yields
  · exact ⟨_, phaseOf_endEarly s run item st dt hx open_⟩
  · refine ⟨s.detailFor run item st dt, ?_⟩
    unfold State.phaseOf
    rw [itemOf_endEarly_ended hx (hasEnded_of_yields yields)]
    unfold Item.finish
    rw [if_pos (hasEnded_of_yields yields), if_pos yields]
    rfl

/-- An item that has ended, and whose end does not give way, is not changed by an early end. -/
theorem endEarly_spares (hx : s.itemOf run item = some x) (ended : x.hasEnded = true) (hy : x.yields s.now st = false)
    (r j dt : Nat) : (s.endEarly r j st dt).itemOf run item = some x := by
  by_cases h : run = r ∧ item = j
  · obtain ⟨rfl, rfl⟩ := h
    rw [itemOf_endEarly_ended hx ended]
    unfold Item.finish
    rw [if_pos ended, hy]
    rfl
  · rw [itemOf_endEarly_other s r j st dt run item (by omega), hx]

/-- In a fold of cuts an item that one of its steps ends has ended at the end. -/
theorem foldl_cuts_ends {α : Type} {f : State → α → State} (hf : ∀ t a, CutTo t (f t a) run item st)
    (hn : ∀ t a, (f t a).now = t.now) (l : List α) (s : State) (hx : s.itemOf run item = some x) (a : α) (ha : a ∈ l)
    (hd : ∀ t : State, t.itemOf run item = some x → t.now = s.now → ∃ dt, (f t a).phaseOf run item = some (.ended st dt)) :
    ∃ dt, (l.foldl f s).phaseOf run item = some (.ended st dt) := by
  have stays : ∀ (l : List α) (t : State), (∃ dt, t.phaseOf run item = some (.ended st dt)) →
      ∃ dt, (l.foldl f t).phaseOf run item = some (.ended st dt) := by
    rintro l t ⟨dt, h⟩
    rcases cutTo_foldl hf l t with done | same
    · exact done
    · exact ⟨dt, by unfold State.phaseOf at h ⊢; rw [same]; exact h⟩
  induction l generalizing s with
  | nil => cases ha
  | cons b l ih =>
    rcases hf s b with done | same
    · exact stays l _ done
    · rcases List.mem_cons.1 ha with rfl | hl
      · exact stays l _ (hd s hx rfl)
      · exact ih _ (same.trans hx) hl fun t ht hnow => hd t ht (hnow.trans (hn s b))

/-! ### The time-out of a run -/

/-- One item's turn in the time-out of its run. -/
def timeoutStep (limit : Nat) (r : Run) (run : Nat) (t : State) (x : Item) : State :=
  if r.used < limit + x.partners then t else t.endEarly run x.index stTimeout

theorem runTimeout_eq {r : Run} (h : s.findRun run = some r) :
    s.runTimeout run = r.items.foldl (timeoutStep (s.timeLimit r) r run) s := by
  unfold State.runTimeout
  rw [h]
  rfl

theorem timeoutStep_cuts (limit : Nat) (r : Run) (run : Nat) (t : State) (x : Item) : Cuts t (timeoutStep limit r run t x) := by
  unfold timeoutStep
  split
  · exact Cuts.refl t
  · exact endEarly_cuts _ _ _ _ _

theorem timeoutStep_cutTo (limit : Nat) (r : Run) (t : State) (x : Item) :
    CutTo t (timeoutStep limit r run t x) run i stTimeout := by
  unfold timeoutStep
  split
  · exact .inr rfl
  · exact endEarly_cutTo _ _ _ _ _ _ _

theorem itemOf_mem {r : Run} (hr : s.findRun run = some r) (hx : s.itemOf run i = some x) : x ∈ r.items ∧ x.index = i := by
  unfold State.itemOf at hx
  rw [hr] at hx
  exact ⟨List.mem_of_find?_eq_some hx, item_index hx⟩

/-- An item whose time has run out, open or ended in the same cycle with a status that gives way, ends TIMEOUT. -/
theorem runTimeout_ends {r : Run} (hr : s.findRun run = some r) (hx : s.itemOf run i = some x)
    (h : x.hasEnded = false ∨ x.yields s.now stTimeout = true) (late : s.timeLimit r + x.partners ≤ r.used) :
    ∃ dt, (s.runTimeout run).phaseOf run i = some (.ended stTimeout dt) := by
  obtain ⟨hm, hi⟩ := itemOf_mem hr hx
  rw [runTimeout_eq hr]
  refine foldl_cuts_ends (timeoutStep_cutTo _ r) (fun t y => (timeoutStep_cuts _ r run t y).now) r.items s hx x hm ?_
  intro t ht hnow
  unfold timeoutStep
  rw [if_neg (by omega), hi]
  exact endEarly_ends ht (hnow.symm ▸ h) _

/-- Items of one index whose time has not run out are left alone. -/
theorem runTimeout_spares {r : Run} (hr : s.findRun run = some r)
    (h : ∀ y ∈ r.items, y.index = i → r.used < s.timeLimit r + y.partners) :
    (s.runTimeout run).itemOf run i = s.itemOf run i := by
  rw [runTimeout_eq hr]
  refine itemOf_foldl (fun y hy t => ?_) s
  unfold timeoutStep
  by_cases hi : y.index = i
  · rw [if_pos (h y hy hi)]
  · split
    · rfl
    · exact itemOf_endEarly_other t run y.index stTimeout 0 run i (.inr fun e => hi e.symm)

/-- So is an item that ended before. -/
theorem runTimeout_keeps_ended {r : Run} (hr : s.findRun run = some r) (hx : s.itemOf run i = some x)
    (ended : x.hasEnded = true) (hy : x.yields s.now stTimeout = false) : (s.runTimeout run).itemOf run i = some x := by
  have fold : ∀ (l : List Item) (t : State), t.itemOf run i = some x → t.now = s.now →
      (l.foldl (timeoutStep (s.timeLimit r) r run) t).itemOf run i = some x := by
    intro l
    induction l with
    | nil => exact fun _ h _ => h
    | cons y l ih =>
      intro t ht hn
      refine ih _ ?_ ((timeoutStep_cuts _ r run t y).now.trans hn)
      unfold timeoutStep
      split
      · exact ht
      · exact endEarly_spares ht ended (hn.symm ▸ hy) _ _ _
  rw [runTimeout_eq hr]
  exact fold _ s hx rfl

theorem runTimeout_others {r : Run} (hr : s.findRun run = some r) (hk : k ≠ run) (i : Nat) :
    (s.runTimeout run).itemOf k i = s.itemOf k i := by
  rw [runTimeout_eq hr]
  refine itemOf_foldl (fun y _ t => ?_) s
  unfold timeoutStep
  split
  · rfl
  · exact itemOf_endEarly_other t run y.index stTimeout 0 k i (.inl hk)

theorem runTimeout_pending {r : Run} (hr : s.findRun run = some r) : (s.runTimeout run).pending = s.pending := by
  rw [runTimeout_eq hr]
  exact (cuts_foldl (timeoutStep_cuts _ r run) r.items s).pending

/-! ### A fence-in that stays unmet -/

theorem fenceLate_eq {n c : Nat} {f : Fetched} {rest : List Fetched} (hq : (s.ring n).fifo = f :: rest) (hv : f.verdict = none)
    (hf : s.fenceState f = .unmet) (hc : f.headCue = some c) (late : c + s.fld (ringTimeoutFenceWaitCues n) ≤ s.cueNo) :
    s.fenceLate n =
      s.setRing n { s.ring n with fifo := { f with verdict := some (verdictOn f.bytes (stTimeout, 0)) } :: rest } := by
  unfold State.fenceLate
  rw [hq]
  dsimp only
  rw [if_pos (by simp [hv, hf, hc, late])]
  unfold State.judgeHead State.onRing
  simp only [hq]

/-! ### Pre-emption -/

theorem preempt_eq {g : Nat} {r : Run} (hr : s.findRun run = some r) (hg : r.group = some g) (hb : s.blockingMode = false)
    (mid : s.sched.pastMid = true) (hp : s.preemptible r = true) (lacks : s.lacks g = true)
    (newest : ∀ q ∈ s.runs, q.group = some g → s.preemptible q = true → q.id ≤ r.id) :
    s.preempt run = ({ s with sched := { s.sched with
      freed := modifyAt (fun x => x + r.unstartedCharge) g s.sched.freed } } : State).cutItems
        (fun q => q.id == run) Item.isUnstarted stPreempted 0 := by
  have none_newer : (s.runs.any fun q => q.group == some g && s.preemptible q && decide (r.id < q.id)) = false := by
    rw [List.any_eq_false]
    intro q hq
    simp only [Bool.and_eq_true, beq_iff_eq, decide_eq_true_eq, not_and, not_lt]
    exact fun h => newest q hq h.1 h.2
  unfold State.preempt
  rw [hr]
  dsimp only
  rw [hg]
  dsimp only
  rw [if_neg (by simp [hb, mid, hp, lacks, none_newer])]
  rfl

/-- Settles O13: each of the three is a cut of items, or of the head. -/
theorem runsCutShort : Obligations.RunsCutShort := by
  unfold Obligations.RunsCutShort
  refine ⟨?_, ?_, ?_⟩
  · intro s n c f rest hq hv hf hc late
    exact congrArg Host.Outcome.next (fenceLate_eq hq hv hf hc late)
  · rintro s w run now r rfl hr
    refine ⟨_, rfl, fun i x hx open_ late => runTimeout_ends hr hx (.inl open_) late,
      fun i x hx yields late => runTimeout_ends hr hx (.inr yields) late, fun i h => runTimeout_spares hr h,
      fun i x hx ended hy => runTimeout_keeps_ended hr hx ended hy, fun k i hk => runTimeout_others hr hk i,
      (runTimeout_pending hr).trans (State.tick_pending s now)⟩
  · rintro s w run now g r rfl hr hg hb mid hp lacks newest
    refine ⟨_, congrArg Host.Outcome.next (preempt_eq hr hg hb mid hp lacks newest), ?_, ?_, ?_⟩
    · intro i x hx hu
      exact cutItems_ends _ _ _ _ _ run i hr (by simp [findRun_id hr]) hx (by simp [Item.isUnstarted, hu])
        (by simp [Item.hasEnded, hu])
    · intro i h
      refine itemOf_cutItems_of_spared fun q hq hid y hy hi => ?_
      obtain ⟨started, final⟩ := h q hq hid y hy hi
      exact cuts_unstarted_of_started started final
    · exact (cutItems_cuts _ _ _ _ _).sched

end Sys2Proof.Machine
end

