-- ==== Sys2Proof/Proofs/Monitor.lean ====
section
/-! SUPPORT. The deadline monitor: the midpoint's pooling, its decision on a step, and the end of a step by its fallback (R92 to
R95). -/
namespace Sys2Proof.Machine

variable {s : State} {n : Nat}

/-! ### The midpoint -/

theorem foldl_add_eq_sum {α : Type} (g : α → Nat) (l : List α) (k : Nat) :
    l.foldl (fun n a => n + g a) k = k + (l.map g).sum := by
  induction l generalizing k with
  | nil => rfl
  | cons a l ih => rw [List.foldl_cons, ih, List.map_cons, List.sum_cons, Nat.add_assoc]

theorem midpoint_shut (h : s.blockingMode = true ∨ s.sched.pastMid = true) : s.midpoint = s := by
  unfold State.midpoint
  exact if_pos (by simpa using h)

theorem midpoint_open (hb : s.blockingMode = false) (hm : s.sched.pastMid = false) : s.midpoint =
    { s with sched := { s.sched with
        pastMid := true
        pool := s.sched.pool.zipIdx.map fun (x, g) => x + (s.sched.allowances.map fun a => grp a.left g).sum
        allowances := s.sched.allowances.map fun a => { a with left := a.left.map fun _ => 0 } } } := by
  unfold State.midpoint
  rw [if_neg (by simp [hb, hm])]
  simp only [foldl_add_eq_sum, Nat.zero_add]

/-! ### The decision -/

/-- The step at the head of a monitored ring, fetched or waited for, is decided. -/
theorem deadlineDecision_decides {s1 : State} {f : Fetched} {rest : List Fetched} {m : StepMon} (h1 : s1 = s.noteHead n)
    (hq : (s1.ring n).fifo = f :: rest) (hm : s1.monitored n = true) (hl : s1.ringLive n = true) (ho : f.owner = none)
    (hs : (s1.ring n).stepOf f.index = some m) (hu : m.choice = .undecided)
    (due : m.last.isSome = true ∨ m.arrived + s1.fld (ringTimeoutFenceWaitCues n) ≤ s1.cueNo) :
    s.deadlineDecision n = s1.decideStep n m := by
  unfold State.deadlineDecision
  dsimp only
  rw [← h1, hq]
  dsimp only
  rw [if_neg (by simp [hm, hl, ho]), hs]
  exact if_pos ⟨hu, due⟩

theorem decideStep_alone {m : StepMon} (h : s.fallbackRing (s.ringCtx n) = none) : s.decideStep n m =
    if s.late (s.predict n (s.ringCtx n) m (s.ownWaiting n m)) (s.deadline n m) || s.predecessorMissed n m
      then (s.takeProgram n m).event else s.takeProgram n m := by
  unfold State.decideStep
  dsimp only
  rw [h]

theorem decideStep_fallback {m : StepMon} {k : Nat} {u : State} {prog : List Fetched}
    (h : s.fallbackRing (s.ringCtx n) = some k) (hp : s.readProgram n k = (u, prog)) : s.decideStep n m =
    if (s.late (s.predict n (s.ringCtx n) m (s.ownWaiting n m)) (s.deadline n m) &&
        earlier (s.predict n (s.ringCtx n) m prog) (s.predict n (s.ringCtx n) m (s.ownWaiting n m))) || s.predecessorMissed n m
      then u.takeFallback n k m prog else u.takeProgram n m := by
  unfold State.decideStep
  dsimp only
  rw [h]
  dsimp only
  rw [hp]

/-! ### The end of a degraded step -/

/-- One head's turn as a degraded step completes. -/
def fallbackStep (n : Nat) (m : StepMon) (t : State) : State :=
  match (t.ring n).fifo with
  | [] => t
  | f :: _ => if m.holds f.index && f.owner.isNone && t.roomFor n f.todo.length then t.degradeHead n m f else t

theorem fallbackDone_eq {m : StepMon}
    (h : (s.ring n).steps.find? (fun m => m.choice == .fallback && m.programLeft == 0) = some m) :
    s.fallbackDone n = (List.range (s.ring n).fifo.length).foldl (fun t _ => fallbackStep n m t) s := by
  unfold State.fallbackDone
  rw [h]
  rfl

theorem foldl_fixed {α β : Type} {g : β → β} {b : β} (h : g b = b) (l : List α) : l.foldl (fun t _ => g t) b = b := by
  induction l with
  | nil => rfl
  | cons a l ih => rw [List.foldl_cons, h, ih]

/-- A head that is not the step's own, or finds no room, stays. -/
theorem fallbackStep_stays {m : StepMon} (h : ∀ f rest, (s.ring n).fifo = f :: rest →
    m.holds f.index = false ∨ f.owner.isSome = true ∨ s.roomFor n f.todo.length = false) : fallbackStep n m s = s := by
  unfold fallbackStep
  split
  · rfl
  · next f rest hq =>
    refine if_neg fun hc => ?_
    simp only [Bool.and_eq_true, Option.isNone_iff_eq_none] at hc
    obtain ⟨⟨holds, owner⟩, room⟩ := hc
    rcases h f rest hq with k | k | k
    · rw [holds] at k; cases k
    · rw [owner] at k; cases k
    · rw [room] at k; cases k

theorem fallbackStep_takes {m : StepMon} {f : Fetched} {rest : List Fetched} (hq : (s.ring n).fifo = f :: rest)
    (hm : m.holds f.index = true) (ho : f.owner = none) (hr : s.roomFor n f.todo.length = true) :
    fallbackStep n m s = s.degradeHead n m f := by
  unfold fallbackStep
  rw [hq]
  exact if_pos (by simp [hm, ho, hr])

/-- Settles O15: the pool takes the sum of what is left, the decision follows the prediction, and heads complete until one
stays. -/
theorem deadlineMonitorDecides : Obligations.DeadlineMonitorDecides := by
  unfold Obligations.DeadlineMonitorDecides
  refine ⟨fun s => ⟨fun h => congrArg Host.Outcome.next (midpoint_shut h),
    fun hb hm => congrArg Host.Outcome.next (midpoint_open hb hm)⟩, ?_, ?_⟩
  · rintro s s1 n now f rest m p h1 hq hm hl ho hs hu due rfl
    have decided : exec (.deadlineDecision n now) s = .next (s1.decideStep n m) :=
      congrArg Host.Outcome.next (deadlineDecision_decides h1 hq hm hl ho hs hu due)
    refine ⟨fun hf hlate hpred => ?_, fun hf h => ?_, fun k u prog hf hp => ?_⟩
    · rw [decided, decideStep_alone hf, if_neg (by simp [hlate, hpred])]
    · rw [decided, decideStep_alone hf, if_pos (by simpa using h)]
    · rw [decided, decideStep_fallback hf hp]
  · rintro s w n now m rfl hm
    have steps : exec (.fallbackStepComplete n now) s = .next _ := congrArg Host.Outcome.next (fallbackDone_eq hm)
    refine ⟨fun h => ?_, fun f rest hq hh ho hr h => ?_⟩
    · rw [steps, foldl_fixed (fallbackStep_stays h)]
    · rw [steps, hq, List.length_cons, List.range_succ_eq_map, List.foldl_cons, fallbackStep_takes hq hh ho hr,
        foldl_fixed (fallbackStep_stays h)]

end Sys2Proof.Machine
end

