-- ==== Sys2Proof/Proofs/HostWindows.lean ====
section
/-! SUPPORT. The host's accesses to device memory, through the CXL.mem window and the setup aperture (R35 to R37, R485). -/
namespace Sys2Proof.Machine

variable {s t u v : State} {off len k : Nat} {data : List Byte}

/-! ### Host accesses by key -/

theorem hostReadDev_good (h : s.devBad k len = false) :
    s.hostReadDev k len = (s.meetCells s.hostSource k len).emit (.hostRead (s.devRead k len) false) := by
  unfold State.hostReadDev State.readMem
  simp only [h, Bool.false_eq_true, if_false]
  rfl

theorem hostReadDev_bad (h : s.devBad k len = true) :
    (s.hostReadDev k len).outs.head? = some (.hostRead (s.devRead k len) true) := by
  unfold State.hostReadDev State.readMem
  simp only [h, if_true]
  rfl

theorem hostWriteDev_good (h : s.devPartBad k data.length = false) : s.hostWriteDev k data = s.devWrite k data := by
  unfold State.hostWriteDev
  exact if_neg (by simp [h])

/-! ### The window -/

theorem windowServes_host (h : s.windowServes = true) : s.host.cxl = true ∧ s.host.released = true ∧ s.host.up = true := by
  unfold State.windowServes at h
  simp only [Bool.and_eq_true] at h
  exact ⟨h.1.1.1.1, h.1.1.1.2, h.1.1.2⟩

theorem windowRead_served (h : s.windowServes = true) : s.windowRead off len =
    match s.windowKey off len with
    | none => (s.bump cxlmemUnmappedCountCount).emit (allOnes len)
    | some k => if s.hostShut k then s.emit (allOnes len) else (s.touchBias off).hostReadDev k len := by
  obtain ⟨hc, hr, hu⟩ := windowServes_host h
  unfold State.windowRead
  rw [if_neg (by simp [hc, hr, hu]), if_neg (by simp [h])] <;> rfl

theorem windowRead_mapped (h : s.windowServes = true) (hk : s.windowKey off len = some k) (ho : s.hostShut k = false) :
    s.windowRead off len = (s.touchBias off).hostReadDev k len := by
  rw [windowRead_served h, hk]
  exact if_neg (by simp [ho])

theorem windowWrite_mapped (h : s.windowServes = true) (hk : s.windowKey off data.length = some k) (ho : s.hostShut k = false) :
    s.windowWrite off data = (s.touchBias off).hostWriteDev k data := by
  unfold State.windowWrite
  rw [if_neg (by simp [h]), hk]
  exact if_neg (by simp [ho])

/-! ### What an access changes of the window itself -/

/-- `t` reads as `s` does in every register but the count of regions returned to host bias, and its host port is the same but for
the regions in device bias. -/
structure SameWindow (s t : State) : Prop where
  reg : ∀ off, off ≠ rBiasAutoflipCount → t.reg off = s.reg off
  host : t.host = { s.host with deviceBias := t.host.deviceBias }
  boot : t.boot = s.boot
  fills : t.rel.fills = s.rel.fills

theorem SameWindow.fld (h : SameWindow s t) {f : Fld} (hf : f.off ≠ rBiasAutoflipCount) : t.fld f = s.fld f := by
  unfold State.fld
  rw [h.reg _ hf]

theorem SameWindow.serves (h : SameWindow s t) : t.windowServes = s.windowServes := by
  unfold State.windowServes State.ideUp State.ideRequired
  rw [h.fld (f := lcStatusState) (by decide), h.host, h.boot]

theorem SameWindow.populated (h : SameWindow s t) (tier o n : Nat) : t.populated tier o n = s.populated tier o n := by
  unfold State.populated State.lpddrUsable
  simp only [h.fld (f := ⟨rLpddrCfg, _, _⟩) (show rLpddrCfg ≠ rBiasAutoflipCount by decide)]

theorem SameWindow.key (h : SameWindow s t) (off len : Nat) : t.windowKey off len = s.windowKey off len := by
  have seg : ∀ n a b, t.fld ⟨rCxlmemSeg n, a, b⟩ = s.fld ⟨rCxlmemSeg n, a, b⟩ := fun n a b =>
    h.fld (f := ⟨rCxlmemSeg n, a, b⟩) (by unfold rCxlmemSeg rBiasAutoflipCount; dsimp only; omega)
  unfold State.windowKey State.flag cxlmemSegValid cxlmemSegTier cxlmemSegOffset
  simp only [seg, h.populated, h.fld (f := cxlmemSizeSize) (by decide)]

theorem SameWindow.shut (h : SameWindow s t) (k : Nat) : t.hostShut k = s.hostShut k := by
  unfold State.hostShut State.powerState State.devShut State.stackShut State.inCoppice
  rw [h.fld (f := pwrStatusState) (by decide), h.fld (f := ⟨rHealthStatus, _, _⟩) (show rHealthStatus ≠ _ by decide), h.fills]

theorem touchBias_sameWindow (s : State) (off : Nat) : SameWindow s (s.touchBias off) := by
  unfold State.touchBias
  split
  · exact ⟨fun o ho => reg_setReg_other _ _ _ _ ho, rfl, rfl, rfl⟩
  · exact ⟨fun _ _ => rfl, rfl, rfl, rfl⟩

theorem devWrite_sameWindow (h : SameWindow s t) : SameWindow s (t.devWrite k data) := ⟨h.reg, h.host, h.boot, h.fills⟩

/-- A region is returned to host bias once. -/
theorem touchBias_again (h : t.host.deviceBias = (s.touchBias off).host.deviceBias) : t.touchBias off = t := by
  have gone : ¬ t.host.deviceBias.contains (off / 2 ^ 21) = true := by
    rw [h]
    unfold State.touchBias
    split
    · simp [dropVal, State.bump_host]
    · assumption
  unfold State.touchBias
  exact if_neg gone

/-- What the window has stored it returns. -/
theorem windowRead_after_write (hs : s.windowServes = true) (hk : s.windowKey off len = some k) (ho : s.hostShut k = false)
    (hl : data.length = len) (hu : u = s.touchBias off) (hv : v = u.devWrite k data) (hb : v.devBad k len = false) :
    v.windowRead off len = (v.meetCells v.hostSource k len).emit (.hostRead data false) := by
  have same : SameWindow s v := by
    rw [hv, hu]
    exact devWrite_sameWindow (touchBias_sameWindow s off)
  have stored : v.devRead k len = data := by
    rw [hv, ← hl]
    exact cellRead_write _ _ _ _
  rw [windowRead_mapped (same.serves.trans hs) ((same.key off len).trans hk) ((same.shut k).trans ho),
    touchBias_again (by rw [hv, hu]; rfl), hostReadDev_good hb, stored]

/-! ### The aperture -/

theorem apertureLoad_mapped (hh : s.hostServes (0x100000 + off) = true) (hz : apertureSized off len = true)
    (hs : s.isSealed = false) (hk : s.apertureKey off len = some k) (ho : s.hostShut k = false) :
    s.apertureLoad off len = s.hostReadDev k len := by
  unfold State.apertureLoad
  rw [if_neg (by simp [hh]), if_neg (by simp [hz]), if_neg (by simp [hs]), hk]
  exact if_neg (by simp [ho])

theorem apertureStore_mapped (hh : s.hostServes (0x100000 + off) = true) (hz : apertureSized off data.length = true)
    (hs : s.isSealed = false) (hk : s.apertureKey off data.length = some k) (ho : s.hostShut k = false) :
    s.apertureStore off data = s.hostWriteDev k data := by
  unfold State.apertureStore
  rw [if_neg (by simp [hh, hz, hs]), hk]
  exact if_neg (by simp [ho])

theorem apertureLoad_sealed (hh : s.hostServes (0x100000 + off) = true) (hz : apertureSized off len = true)
    (hs : s.isSealed = true) : s.apertureLoad off len = s.emit (.hostRead (List.replicate len 0) false) := by
  unfold State.apertureLoad
  rw [if_neg (by simp [hh]), if_neg (by simp [hz]), if_pos hs]

theorem apertureStore_sealed (hs : s.isSealed = true) : s.apertureStore off data = s := by
  unfold State.apertureStore
  exact if_pos (by simp [hs])

theorem exec_apertureWrite (h : data.length = len) : exec (.apertureWrite off len data) s = .next (s.apertureStore off data) := by
  show Host.Outcome.next (s.apertureStore off (data.take len)) = _
  rw [← h, List.take_length]

/-- Settles O16: each access comes to `State.hostReadDev` or `State.hostWriteDev` at the key that the offset maps to. -/
theorem hostWindowsServeMemory : Obligations.HostWindowsServeMemory := by
  unfold Obligations.HostWindowsServeMemory
  refine ⟨?_, ?_, ?_⟩
  · intro s u v off len k data hs hk ho hl hu hv
    have read : exec (.hostWindowRead off len) s = .next (u.hostReadDev k len) := by
      rw [hu]
      exact congrArg Host.Outcome.next (windowRead_mapped hs hk ho)
    refine ⟨fun hb => ?_, fun hb => ⟨_, read, hostReadDev_bad hb⟩, fun hp => ⟨?_, fun hb => ?_⟩⟩
    · rw [read, hostReadDev_good hb]
    · rw [hv, ← hostWriteDev_good (hl.symm ▸ hp), hu]
      exact congrArg Host.Outcome.next (windowWrite_mapped hs (hl.symm ▸ hk) ho)
    · exact congrArg Host.Outcome.next (windowRead_after_write hs hk ho hl hu hv hb)
  · intro s off len data hs hk hl
    refine ⟨congrArg Host.Outcome.next ?_, congrArg Host.Outcome.next ?_⟩
    · rw [windowRead_served hs, hk]
      rfl
    · unfold State.windowWrite
      rw [if_neg (by simp [hs]), hl, hk]
  · intro s off size k data hh hz hl
    refine ⟨fun hs hk ho => ⟨fun hb => congrArg Host.Outcome.next ?_, fun hp => ?_⟩,
      fun hs => ⟨congrArg Host.Outcome.next (apertureLoad_sealed hh hz hs), ?_⟩⟩
    · rw [apertureLoad_mapped hh hz hs hk ho, hostReadDev_good hb]
    · subst hl
      rw [exec_apertureWrite rfl, apertureStore_mapped hh hz hs hk ho, hostWriteDev_good hp]
    · rw [exec_apertureWrite hl, apertureStore_sealed hs]

end Sys2Proof.Machine
end

