-- ==== Sys2Proof/Proofs/RegisterAccess.lean ====
section
/-! SUPPORT. What a write of a register leaves in its fields, and half reads of a 64-bit register (R12, R41, R511). -/
namespace Sys2Proof.Machine

variable {s : State} {off : Nat}

/-! ### Fields by their access codes -/

/-- A write of `v` reaches the field. -/
def FieldSpec.takes (f : FieldSpec) (isSealed : Bool) : Bool := f.acc == .rw || (f.acc == .rwl && !isSealed)

/-- One field's turn in a merge. -/
def mergeStep (isSealed : Bool) (v acc : Nat) (f : FieldSpec) : Nat :=
  if f.takes isSealed then setField acc f.lo f.w (field v f.lo f.w) else acc

theorem merged_eq (r : RegRow) (isSealed : Bool) (old v : Nat) :
    r.merged isSealed old v = r.fields.foldl (mergeStep isSealed v) old := rfl

/-- Two fields share no bit. -/
def FieldSpec.Apart (f g : FieldSpec) : Prop := f.lo + f.w ≤ g.lo ∨ g.lo + g.w ≤ f.lo

theorem field_mergeStep_apart {f g : FieldSpec} (h : g.Apart f) (isSealed : Bool) (v acc : Nat) :
    field (mergeStep isSealed v acc g) f.lo f.w = field acc f.lo f.w := by
  unfold mergeStep
  split
  · rcases h with h | h
    · exact field_setField_above _ _ _ _ _ _ h
    · exact field_setField_below _ _ _ _ _ _ h
  · rfl

theorem field_mergeStep (f : FieldSpec) (isSealed : Bool) (v acc : Nat) :
    field (mergeStep isSealed v acc f) f.lo f.w = if f.takes isSealed then field v f.lo f.w else field acc f.lo f.w := by
  unfold mergeStep
  split
  · rw [field_setField]
    exact Nat.mod_mod _ _
  · rfl

theorem field_merge_apart {f : FieldSpec} {l : List FieldSpec} (h : ∀ g ∈ l, g.Apart f) (isSealed : Bool) (v acc : Nat) :
    field (l.foldl (mergeStep isSealed v) acc) f.lo f.w = field acc f.lo f.w := by
  induction l generalizing acc with
  | nil => rfl
  | cons g l ih =>
    rw [List.foldl_cons, ih fun k hk => h k (List.mem_cons_of_mem _ hk), field_mergeStep_apart (h g List.mem_cons_self)]

theorem field_merge {f : FieldSpec} {l : List FieldSpec} (hl : l.Pairwise FieldSpec.Apart) (hf : f ∈ l) (isSealed : Bool)
    (v acc : Nat) : field (l.foldl (mergeStep isSealed v) acc) f.lo f.w =
      if f.takes isSealed then field v f.lo f.w else field acc f.lo f.w := by
  induction l generalizing acc with
  | nil => cases hf
  | cons g l ih =>
    obtain ⟨hg, hl⟩ := List.pairwise_cons.1 hl
    rw [List.foldl_cons]
    rcases List.mem_cons.1 hf with rfl | hf
    · rw [field_merge_apart (fun k hk => (hg k hk).symm), field_mergeStep]
    · rw [ih hl hf, field_mergeStep_apart (hg f hf)]

/-! ### A write of a plain register -/

theorem registerWrite_plain {v : Nat} {r : RegRow} (hs : s.hostServes off = true) (ha : off % 4 = 0)
    (hb : off < 0x9000 ∨ 0xA000 ≤ off) (hc : off < 0x30000) (hr : regRowAt off = some r) (hz : r.size = 4)
    (hp : off ∉ [rSetupSeal, rDeviceReset, rCueSwitchReq, rFabMember, rCoppiceReq, rSelftestReq, rSecCmd, rPwrCtrl])
    (ho : portOfCtrl off = none) : s.registerWrite .host off 4 v = (s.writeWhole r off v).dropLower off := by
  simp only [List.mem_cons, List.not_mem_nil, or_false, not_or] at hp
  obtain ⟨h1, h2, h3, h4, h5, h6, h7, h8⟩ := hp
  have word : s.writeWord off v = s.writeOne off 4 v := by
    unfold State.writeWord
    rw [hr]
    dsimp only
    rw [if_neg h1, if_neg h2, if_neg h3, if_neg h4, if_neg h5, if_neg h6, if_neg h7, if_neg h8, ho]
  have one : s.writeOne off 4 v = (s.writeWhole r off v).dropLower off := by
    unfold State.writeOne State.resolveWrite
    simp [ha, hr, hz]
  rw [← one, ← word]
  unfold State.registerWrite State.writeBlock
  dsimp only
  rw [if_pos hs, if_neg (by simp [ha]), if_neg (by simp; omega), if_neg (by simp; omega)]
  rfl

/-- A write that violates nothing leaves the merged value in its register, and no other register changes. -/
theorem writeWhole_reg {r : RegRow} {v : Nat} (hv : (s.isSealed && r.violates (s.reg off) v) = false)
    (hm : r.merged s.isSealed (s.reg off) v < 2 ^ 64) :
    (s.writeWhole r off v).reg off = r.merged s.isSealed (s.reg off) v ∧
      ∀ o, o ≠ off → (s.writeWhole r off v).reg o = s.reg o := by
  unfold State.writeWhole
  dsimp only
  simp only [hv, Bool.false_eq_true, if_false]
  split
  · next h => exact ⟨h.symm, fun _ _ => rfl⟩
  · exact ⟨reg_setReg _ _ _ hm, fun o h => reg_setReg_other _ _ _ _ h⟩

theorem writeWhole_keeps {r : RegRow} {v : Nat} (hv : (s.isSealed && r.violates (s.reg off) v) = false) :
    (s.writeWhole r off v).mem = s.mem ∧ (s.writeWhole r off v).rings = s.rings ∧ (s.writeWhole r off v).runs = s.runs ∧
      (s.writeWhole r off v).outs = s.outs := by
  unfold State.writeWhole
  dsimp only
  simp only [hv, Bool.false_eq_true, if_false]
  split <;> exact ⟨rfl, rfl, rfl, rfl⟩

/-! ### Half reads -/

/-- The upper half of a register latched, or the latch emptied. -/
def State.latched (s : State) (off : Nat) (h : Option (BitVec 32)) : State :=
  { s with regs := { s.regs with latch := cellPut s.regs.latch off h } }

theorem halfRead_served (hs : s.hostServes off = true) (ha : off % 4 = 0) : s.halfRead off =
    if isWide off then
      (s.latched off (some (BitVec.ofNat 32 (s.readReg off 8 / 2 ^ 32)))).emit (.hostRead (leBytes 4 (s.readReg off 4)) false)
    else
      match cellFind (regBase off) s.regs.latch with
      | some h =>
        if regBase off ≠ off then
          (s.latched (regBase off) none).emit (.hostRead (leBytes 4 h.toNat) false)
        else s.emit (.hostRead (s.hostLoad off 4) false)
      | none => s.emit (.hostRead (s.hostLoad off 4) false) := by
  unfold State.halfRead
  rw [if_neg (by simp [hs]), if_neg (by simp [ha])]
  rfl

/-- Settles O17: a plain register's write is a merge by access codes, and a half read latches the upper half or takes it. -/
theorem registersFollowTheirAccess : Obligations.RegistersFollowTheirAccess := by
  unfold Obligations.RegistersFollowTheirAccess
  refine ⟨?_, ?_, ?_⟩
  · intro s off v r hs ha hb hc hr hz hp ho hv hm
    obtain ⟨own, others⟩ := writeWhole_reg hv hm
    obtain ⟨mem, rings, runs, outs⟩ := writeWhole_keeps hv
    exact ⟨_, congrArg Host.Outcome.next (registerWrite_plain hs ha hb hc hr hz hp ho), own, others, mem, rings, runs, outs⟩
  · intro r f old v isSealed apart hf
    have takes : f.takes isSealed = true ↔ f.acc = .rw ∨ (f.acc = .rwl ∧ isSealed = false) := by simp [FieldSpec.takes]
    simp only [merged_eq, field_merge apart hf, takes]
  · intro s off hs
    refine ⟨fun ha => ?_, fun ha hw => ?_, fun h ha hw hne hl => ?_, fun ha hw hl => ?_⟩
    · show Host.Outcome.next (s.halfRead off) = _
      unfold State.halfRead
      rw [if_neg (by simp [hs]), if_pos ha]
    · exact ⟨_, congrArg Host.Outcome.next ((halfRead_served hs ha).trans (if_pos hw)), rfl, rfl, cellFind_put_same _ _ _⟩
    · refine ⟨(s.latched (regBase off) none).emit (.hostRead (leBytes 4 h.toNat) false),
        congrArg Host.Outcome.next ((halfRead_served hs ha).trans ?_), rfl, rfl, cellFind_put_same _ (regBase off) _⟩
      rw [if_neg (by simp [hw]), hl]
      exact if_pos hne
    · refine congrArg Host.Outcome.next ((halfRead_served hs ha).trans ?_)
      rw [if_neg (by simp [hw])]
      rcases hl with hl | hl
      · rw [hl]
        split
        · exact if_neg (by simp)
        · rfl
      · rw [hl]

end Sys2Proof.Machine
end

