-- ==== Sys2Proof/Proofs/HostLink.lean ====
section
/-! SUPPORT. The host link: what its loss halts and cancels, and the status lines of its return (R33, R38, R477). -/
namespace Sys2Proof.Machine

variable {s t : State} {n : Nat}

theorem ring_setRing_other (s : State) (n m : Nat) (r : Ring) (h : m ≠ n) : (s.setRing n r).ring m = s.ring m := by
  unfold State.ring State.setRing
  simp only [cellFind_put_other _ _ _ _ h]

theorem ring_onRing_other (s : State) (n m : Nat) (f : Ring → Ring) (h : m ≠ n) : (s.onRing n f).ring m = s.ring m :=
  ring_setRing_other s n m _ h

/-! ### Rings halted by the loss of the host -/

/-- A ring halted, where nothing halted it before. -/
def Ring.halted (r : Ring) : Ring := if r.state = 0 then { r with state := 1 } else r

theorem Ring.halted_again (r : Ring) : r.halted.halted = r.halted := by
  unfold Ring.halted
  by_cases h : r.state = 0 <;> simp [h]

theorem ring_haltAll (l : List Nat) (s : State) (n : Nat) :
    (l.foldl (fun u n => u.onRing n Ring.halted) s).ring n = if n ∈ l then (s.ring n).halted else s.ring n := by
  induction l generalizing s with
  | nil => rfl
  | cons m l ih =>
    rw [List.foldl_cons, ih]
    by_cases h : n = m
    · subst h
      rw [ring_onRing]
      simp [Ring.halted_again]
    · rw [ring_onRing_other _ _ _ _ h]
      simp [h]

theorem haltHostRings_ring (s : State) (n : Nat) :
    (s.haltHostRings).ring n = if n ∈ s.hostRings then (s.ring n).halted else s.ring n := ring_haltAll s.hostRings s n

theorem haltHostRings_eq (s : State) : ∃ l, s.haltHostRings = { s with rings := l } := by
  unfold State.haltHostRings
  generalize s.hostRings = l
  induction l generalizing s with
  | nil => exact ⟨s.rings, rfl⟩
  | cons m l ih =>
    obtain ⟨k, hk⟩ := ih (s.onRing m fun r => if r.state = 0 then { r with state := 1 } else r)
    exact ⟨k, by rw [List.foldl_cons, hk]; rfl⟩

theorem mem_hostRings : n ∈ s.hostRings ↔ n < 256 ∧ s.ringEnabled n = true ∧ s.ringDevice n = false := by
  simp [State.hostRings]

/-! ### Down -/

/-- The host port and its IDE streams down. -/
def State.portDown (s : State) : State :=
  ({ s with host := { s.host with up := false, lost := true, ide := [] } } : State).setFlag lcStatusIdeUp false

theorem portDown_ringCtrl (s : State) (n lo w : Nat) : s.portDown.fld ⟨rRingCtrl n, lo, w⟩ = s.fld ⟨rRingCtrl n, lo, w⟩ := by
  unfold State.fld State.portDown State.setFlag State.setFld
  rw [reg_setReg_other _ _ _ _ (show rRingCtrl n ≠ lcStatusIdeUp.off by unfold rRingCtrl lcStatusIdeUp rLcStatus; dsimp only; omega)]
  rfl

theorem portDown_ringDevice (s : State) (n : Nat) : s.portDown.ringDevice n = s.ringDevice n :=
  congrArg (· == 1) (portDown_ringCtrl s n _ _)

theorem portDown_ringEnabled (s : State) (n : Nat) : s.portDown.ringEnabled n = s.ringEnabled n :=
  congrArg (fun x => decide (n < 256) && x == 1) (portDown_ringCtrl s n _ _)

/-- The loss of the host: the rings halted, and the unstarted items of their runs cut. -/
def State.hostCut (s : State) : State :=
  s.portDown.haltHostRings.cutItems (fun r => !s.portDown.haltHostRings.ringDevice r.desc.ring) Item.isUnstarted stCancelled 0

theorem linkDown_eq (h : s.host.up = true) :
    s.linkDown = s.hostCut.cutFetched (fun f => !s.hostCut.ringDevice f.ring) stCancelled := by
  unfold State.linkDown
  exact if_neg (by simp [h])

theorem hostCut_cuts (s : State) : ∃ l, Cuts { s.portDown with rings := l } s.hostCut ∧ s.portDown.haltHostRings =
    { s.portDown with rings := l } := by
  obtain ⟨l, hl⟩ := haltHostRings_eq s.portDown
  exact ⟨l, hl ▸ cutItems_cuts _ _ _ _ _, hl⟩

theorem linkDown_ring (h : s.host.up = true) (n : Nat) :
    (s.linkDown.ring n).state = if n ∈ s.hostRings then (s.ring n).halted.state else (s.ring n).state := by
  obtain ⟨l, cuts, hl⟩ := hostCut_cuts s
  have same : n ∈ s.portDown.hostRings ↔ n ∈ s.hostRings := by
    rw [mem_hostRings, mem_hostRings, portDown_ringDevice, portDown_ringEnabled]
  rw [linkDown_eq h, ring_cutFetched, ring_congr cuts.rings, ← hl, haltHostRings_ring]
  simp only [same]
  split <;> rfl

theorem linkDown_cancels (h : s.host.up = true) {run i : Nat} {r : Run} {x : Item} (hr : s.findRun run = some r)
    (hd : s.ringDevice r.desc.ring = false) (hx : s.itemOf run i = some x) (hp : x.phase = .unstarted) :
    ∃ dt, s.linkDown.phaseOf run i = some (.ended stCancelled dt) := by
  obtain ⟨l, hl⟩ := haltHostRings_eq s.portDown
  have runs : s.portDown.haltHostRings.runs = s.runs := by rw [hl]; rfl
  have device : s.portDown.haltHostRings.ringDevice r.desc.ring = false := by
    rw [hl]
    exact (portDown_ringDevice s _).trans hd
  rw [linkDown_eq h]
  exact cutItems_ends s.portDown.haltHostRings _ _ _ _ run i ((findRun_congr runs run).trans hr) (by simp [device])
    ((itemOf_congr runs run i).trans hx) (by simp [Item.isUnstarted, hp]) (by simp [Item.hasEnded, hp])

theorem linkDown_host (h : s.host.up = true) :
    s.linkDown.host = { s.host with up := false, lost := true, ide := [], biasChanges := s.linkDown.host.biasChanges } ∧
      s.linkDown.flag lcStatusIdeUp = false := by
  obtain ⟨l, cuts, -⟩ := hostCut_cuts s
  rw [linkDown_eq h]
  refine ⟨cuts.host, ?_⟩
  have status : s.hostCut.flag lcStatusIdeUp = s.portDown.flag lcStatusIdeUp := by
    unfold State.flag State.fld
    rw [cuts.reg _ (by unfold cutRegs; decide)]
    rfl
  exact status.trans <| flag_setFlag ({ s with host := { s.host with up := false, lost := true, ide := [] } } : State) lcStatusIdeUp false
    (by decide) (by decide)

/-! ### Up -/

/-- Status lines of host-resident rings go out one after the other, and nothing else changes. -/
theorem putStatus_foldl (l : List Nat) (s : State) (h : ∀ n ∈ l, s.ringDevice n = false) :
    l.foldl (fun u n => u.putStatus n) s = { s with outs :=
      (l.map fun n => Output.hostWrite (s.reg (rRingStatusAddr n)) (s.ring n).statusLine).reverse ++ s.outs } := by
  induction l generalizing s with
  | nil => rfl
  | cons n l ih =>
    have out : s.putStatus n = s.emit (.hostWrite (s.reg (rRingStatusAddr n)) (s.ring n).statusLine) := by
      unfold State.putStatus
      dsimp only
      rw [if_neg (by simp [h n List.mem_cons_self])]
    rw [List.foldl_cons, out]
    refine (ih (s.emit _) fun k hk => h k (List.mem_cons_of_mem _ hk)).trans ?_
    simp only [List.map_cons, List.reverse_cons, List.append_assoc, List.singleton_append]
    rfl

/-- The port up with what training gave. -/
def State.portUpAs (s : State) (cxl : Bool) (width rate : Nat) : State :=
  { s with host := { s.host with up := true, cxl := cxl, width := width, rate := rate } }

theorem linkUp_trained {cxl : Bool} {width rate : Nat} (hu : s.host.up = false) (hr : s.host.released = true)
    (hp : s.boot.perstN = true) (ht : linkTrains width rate = true) : s.linkUp cxl width rate =
      { s.portUpAs cxl width rate with outs := ((s.hostRings.filter fun n => (s.ring n).state == 1).map fun n =>
        Output.hostWrite (s.reg (rRingStatusAddr n)) (s.ring n).statusLine).reverse ++ s.outs } := by
  unfold State.linkUp
  rw [if_neg (by simp [hu, hr, hp, ht])]
  exact putStatus_foldl _ (s.portUpAs cxl width rate) fun n hn => (mem_hostRings.1 (List.mem_of_mem_filter hn)).2.2

theorem linkUp_untrained {cxl : Bool} {width rate : Nat} (ht : linkTrains width rate = false) :
    s.linkUp cxl width rate = s := by
  unfold State.linkUp
  exact if_pos (by simp [ht])

/-- Settles O19: going down is a halt and a cut, coming up one status line for each halted ring. -/
theorem hostLinkGoesDownAndUp : Obligations.HostLinkGoesDownAndUp := by
  unfold Obligations.HostLinkGoesDownAndUp
  refine ⟨fun s h => ?_, fun s h => ?_, fun s => rfl, fun s => rfl, fun s cxl width rate hu hr hp => ⟨fun ht => ?_, fun ht => ?_⟩⟩
  · exact congrArg Host.Outcome.next (if_pos (by simp [h]))
  · obtain ⟨host, ide⟩ := linkDown_host h
    refine ⟨s.linkDown, rfl, host, ide, fun n hn he hd hz => ?_, fun n hn => ?_,
      fun run i r x hr hd hx hp => linkDown_cancels h hr hd hx hp⟩
    · rw [linkDown_ring h, if_pos (mem_hostRings.2 ⟨hn, he, hd⟩)]
      unfold Ring.halted
      rw [if_pos hz]
    · rw [linkDown_ring h, if_neg]
      rw [mem_hostRings]
      rintro ⟨-, he, hd⟩
      rcases hn with hn | hn
      · rw [he] at hn; cases hn
      · rw [hd] at hn; cases hn
  · exact congrArg Host.Outcome.next (linkUp_untrained ht)
  · exact ⟨_, congrArg Host.Outcome.next (linkUp_trained hu hr hp ht), rfl, rfl, rfl, rfl, rfl⟩

end Sys2Proof.Machine
end

