-- ==== Sys2Proof/Proofs/CueLock.lean ====
section
/-! SUPPORT. The slot that a boundary opens, and what messages and misses make of the cue lock (R72 to R81, Table 3.3). -/
namespace Sys2Proof.Machine

variable {s t u : State}

/-! ### The slot that opens -/

theorem onRings_eq {α : Type} (l : List α) (k : α → Nat) (g : Ring → Ring) (s : State) :
    ∃ r, l.foldl (fun (u : State) x => u.onRing (k x) g) s = { s with rings := r } := by
  induction l generalizing s with
  | nil => exact ⟨s.rings, rfl⟩
  | cons x l ih =>
    obtain ⟨r, hr⟩ := ih (s.onRing (k x) g)
    exact ⟨r, by rw [List.foldl_cons, hr]; rfl⟩

/-- The local edge, before the rings forget their events. -/
def State.edge (s : State) : State :=
  let t := s.setReg rCueNumber ((s.cueNo + 1) % 2 ^ 64)
  { t with
    cue := { t.cue with edgeNs := t.now, gotValid := false, quiet := t.cue.quiet + 1 }
    mem := { t.mem with loggedNow := [] }
    sched := { t.sched with stops := t.sched.stops.filter fun x => t.stopHeld x.1 } }

theorem newSlot_eq (s : State) : ∃ r, s.newSlot = { s.edge with rings := r } := onRings_eq _ _ _ s.edge

theorem edge_cueNo (s : State) : s.edge.cueNo = (s.cueNo + 1) % 2 ^ 64 := reg_setReg _ _ _ (Nat.mod_lt _ (by decide))

theorem tick_inReset (s : State) (now : Nat) : (s.tick now).inReset = s.inReset := by
  unfold State.inReset
  rw [State.tick_fld, State.tick_boot]

/-- Settles O20: the edge is the first thing that a boundary makes, and its rows are named one by one. -/
theorem boundaryOpensNextSlot : Obligations.BoundaryOpensNextSlot := by
  unfold Obligations.BoundaryOpensNextSlot
  intro s now hr
  obtain ⟨r, hs⟩ := newSlot_eq (s.tick now)
  refine ⟨_, rfl, ?_, ?_, ?_, ?_, ?_, ?_⟩
  · rw [hs]
    refine (edge_cueNo (s.tick now)).trans ?_
    unfold State.cueNo
    rw [State.tick_reg]
  · rw [hs]; rfl
  · rw [hs]; rfl
  · rw [hs]
    show (s.tick now).mem.dev = s.mem.dev
    rw [State.tick_mem]
  · rw [hs]; rfl
  · refine congrArg Host.Outcome.next ?_
    unfold State.boundary
    exact if_neg (by rw [tick_inReset, hr]; decide)

/-! ### What following leaves of the cue's registers -/

/-- `t` has the cue state of `s`, and reads as `s` does in every register but those that an item's end may change. -/
structure SameCue (s t : State) : Prop where
  reg : ∀ off, ¬cutRegs off → t.reg off = s.reg off
  cue : t.cue = s.cue

theorem SameCue.refl (s : State) : SameCue s s := ⟨fun _ _ => rfl, rfl⟩

theorem SameCue.trans (a : SameCue s t) (b : SameCue t u) : SameCue s u :=
  ⟨fun off h => (b.reg off h).trans (a.reg off h), b.cue.trans a.cue⟩

theorem SameCue.of_cuts (h : Cuts s t) : SameCue s t := ⟨h.reg, h.cue⟩

theorem closeItem_sameCue (s : State) (run item st dt : Nat) : SameCue s (s.closeItem run item st dt) := by
  unfold State.closeItem
  split
  · exact ⟨fun _ _ => rfl, rfl⟩
  · exact .of_cuts (endItem_cuts s run item st dt)

theorem patchesAnnounced_sameCue (s : State) (a : Announce) : SameCue s (s.patchesAnnounced a) := by
  unfold State.patchesAnnounced
  split
  · generalize s.fab.patches.filter _ = l
    induction l generalizing s with
    | nil => exact .refl s
    | cons x l ih =>
      refine SameCue.trans ?_ (ih _)
      exact SameCue.trans (t := s.noteCycles x.1 x.2.1 64) ⟨fun _ _ => rfl, rfl⟩ (closeItem_sameCue _ _ _ _ _)
  · exact .refl s

theorem SameCue.fld (h : SameCue s t) {f : Fld} (hf : ¬cutRegs f.off) : t.fld f = s.fld f := by
  unfold State.fld
  rw [h.reg _ hf]

/-! ### A valid message -/

/-- What a valid message taken in leaves as it was, and the period that it brings. -/
structure Learned (m : CueMsg) (s t : State) : Prop where
  lock : t.fld cueStatusLock = s.fld cueStatusLock
  number : t.cueNo = s.cueNo
  mode : t.blockingMode = s.blockingMode
  count : t.cue.lockCount = s.cue.lockCount
  routes : t.cue.routeSinceDetach = s.cue.routeSinceDetach
  period : t.cue.periodUs = m.period

theorem setAnnounced_learned {m : CueMsg} (h : Learned m s t) (kind : Nat) (a : Announce) : Learned m s (t.setAnnounced kind a) := by
  have kept : ∀ (f : Fld) (b : Bool) (c : Cue), f.off ≠ rCueStatus → f.off ≠ rCueNumber → f.off ≠ rCueCtrl →
      c.lockCount = t.cue.lockCount → c.routeSinceDetach = t.cue.routeSinceDetach → c.periodUs = t.cue.periodUs →
      Learned m s (({ t with cue := c } : State).setFlag f b) := by
    intro f b c h1 h2 h3 e1 e2 e3
    have other : ∀ off, off ≠ f.off → (({ t with cue := c } : State).setFlag f b).reg off = t.reg off :=
      fun off ho => reg_setReg_other _ _ _ _ ho
    refine ⟨.trans ?_ h.lock, (other rCueNumber h2.symm).trans h.number, .trans ?_ h.mode, e1.trans h.count, e2.trans h.routes,
      e3.trans h.period⟩
    · exact congrArg (fun n => field n cueStatusLock.lo cueStatusLock.w) (other rCueStatus h1.symm)
    · exact congrArg (fun n => field n cueCtrlMode.lo cueCtrlMode.w == 1) (other rCueCtrl h3.symm)
  unfold State.setAnnounced
  split
  · exact ⟨h.lock, h.number, h.mode, h.count, h.routes, h.period⟩
  · split
    · exact kept _ _ _ (by decide) (by decide) (by decide) rfl rfl rfl
    · exact kept _ _ _ (by decide) (by decide) (by decide) rfl rfl rfl

theorem patchesAnnounced_learned {m : CueMsg} (h : Learned m s t) (a : Announce) : Learned m s (t.patchesAnnounced a) := by
  have same := patchesAnnounced_sameCue t a
  have number : ¬cutRegs rCueNumber := by unfold cutRegs; decide
  refine ⟨(same.fld (by unfold cutRegs; decide)).trans h.lock, (same.reg _ number).trans h.number, .trans ?_ h.mode,
    (congrArg Cue.lockCount same.cue).trans h.count, (congrArg Cue.routeSinceDetach same.cue).trans h.routes,
    (congrArg Cue.periodUs same.cue).trans h.period⟩
  unfold State.blockingMode State.flag
  rw [same.fld (by unfold cutRegs; decide)]

theorem learnCue_learned (s : State) (port : Nat) {m : CueMsg} (x : Int) (hm : m.blocking = s.blockingMode) :
    Learned m s (s.learnCue port m x) := by
  have told : ∀ c : Cue, c.lockCount = s.cue.lockCount → c.routeSinceDetach = s.cue.routeSinceDetach → c.periodUs = m.period →
      Learned m s { (s.setFld cueStatusEmitter m.origin).setFld cueStatusOffsetNs (offsetCode x) with cue := c } := by
    intro c h1 h2 h3
    have other : ∀ off, off ≠ rCueStatus →
        ((s.setFld cueStatusEmitter m.origin).setFld cueStatusOffsetNs (offsetCode x)).reg off = s.reg off :=
      fun off ho => (reg_setReg_other _ _ _ _ ho).trans (reg_setReg_other _ _ _ _ ho)
    refine ⟨?_, other _ (by decide), ?_, h1, h2, h3⟩
    · exact (fld_setFld_other _ cueStatusOffsetNs cueStatusLock _ (by decide) (by decide)).trans
        (fld_setFld_other _ cueStatusEmitter cueStatusLock _ (by decide) (by decide))
    · unfold State.blockingMode State.flag State.fld
      exact congrArg (fun n => field n _ _ == 1) (other rCueCtrl (by decide))
  unfold State.learnCue
  dsimp only
  rw [if_pos (show m.blocking = s.blockingMode from hm)]
  refine patchesAnnounced_learned (setAnnounced_learned (setAnnounced_learned (setAnnounced_learned
    (told _ ?_ ?_ ?_) _ _) _ _) _ _) _ <;> rfl

/-- A message whose offset lies within the limits is followed, once it has been learnt from. -/
theorem takeCue_follows {port : Nat} {m : CueMsg} (hr : s.inReset = false) (hp : s.portUp port = true) (ho : m.origin ≠ s.member)
    (hs : s.seenFlood (s.cuePacket m) = false) (h1 : 200 ≤ m.period) (h2 : m.period ≤ 20000) (hm : m.blocking = s.blockingMode)
    (heard : ∀ x ∈ s.cue.heard, s.cueNo ≤ x.2 + 1 → m.rank ≤ x.1)
    (lo : -65 ≤ (s.cue.edgeNs : Int) - s.derivedEdge port m) (hi : (s.cue.edgeNs : Int) - s.derivedEdge port m ≤ 65)
    (rank : s.fld cueStatusLock = 4 → m.rank < s.ownRank)
    (slot : s.fld cueStatusLock = 1 ∨ s.fld cueStatusLock = 2 ∨ s.fld cueStatusLock = 4 →
      m.cue = s.cueNo ∧ s.cue.edgeNs ≤ s.now ∧ s.now ≤ s.cue.edgeNs + 500 * s.period) :
    ∃ v d, s.takeCue port m = v.followCue m true d ∧ Learned m s v := by
  have lowest : ((s.noteFlood (s.cuePacket m)).hearRank m.rank).cue.heard.any (fun x => decide (x.1 < m.rank)) = false := by
    rw [List.any_eq_false]
    intro x hx
    rcases List.mem_cons.1 hx with rfl | hx
    · simp
    · obtain ⟨hx, hc⟩ := List.mem_filter.1 hx
      have := heard x hx (of_decide_eq_true hc)
      simpa using this
  obtain ⟨k1, k2, k3, k4, k5, k6⟩ := learnCue_learned ((s.noteFlood (s.cuePacket m)).hearRank m.rank) port
    ((s.cue.edgeNs : Int) - s.derivedEdge port m) hm
  refine ⟨_, s.derivedEdge port m, ?_, ⟨k1, k2, k3, k4, k5, k6⟩⟩
  unfold State.takeCue
  rw [if_neg (by simp [hr, hp, ho, hs])]
  dsimp only
  rw [if_neg (by omega), if_neg ?first, if_neg ?second, decide_eq_true lo, decide_eq_true hi]
  · rfl
  case first =>
    rw [lowest]
    rintro (h | ⟨h4, h⟩)
    · cases h
    · exact absurd (rank h4) (by omega)
  case second =>
    rintro ⟨hl, h⟩
    obtain ⟨a, b, c⟩ := slot hl
    omega

theorem lockOn_locked (s : State) : s.lockOn.fld cueStatusLock = 1 ∧ s.lockOn.fld cueStatusMisses = 0 ∧
    s.lockOn.cueNo = s.cueNo ∧ s.lockOn.cue.periodUs = s.cue.periodUs ∧ s.lockOn.cue.gotValid = true := by
  refine ⟨?_, ?_, ?_, rfl, rfl⟩
  · exact (fld_setFld_other _ cueStatusMisses cueStatusLock _ (by decide) (by decide)).trans
      (fld_setFld _ cueStatusLock _ (by decide) (by decide))
  · exact fld_setFld _ cueStatusMisses _ (by decide) (by decide)
  · exact (reg_setReg_other _ _ _ _ (by decide)).trans (reg_setReg_other _ _ _ _ (by decide))

/-- An Unlocked member, or a Detached one that has had news of routes, locks with a count of 3. -/
theorem followCue_locks {m : CueMsg} {d : Int} (h : s.fld cueStatusLock = 0 ∨ (s.fld cueStatusLock = 3 ∧ s.cue.routeSinceDetach = true))
    (hc : 3 ≤ s.cue.lockCount) (hm : m.blocking = s.blockingMode) : s.followCue m true d = (s.adoptCue m).lockOn := by
  unfold State.followCue
  rcases h with h | ⟨h, hd⟩
  · rw [h]
    exact if_pos (by simp [hc, hm])
  · rw [h]
    exact if_pos (by simp [hc, hd])

/-- A Locked or Holdover member stays or becomes Locked, and an emitter a follower. -/
theorem followCue_keeps {m : CueMsg} {d : Int} (h : s.fld cueStatusLock = 1 ∨ s.fld cueStatusLock = 2 ∨ s.fld cueStatusLock = 4) :
    ∃ t : State, s.followCue m true d = t.lockOn ∧ t.cueNo = s.cueNo := by
  unfold State.followCue
  rcases h with h | h | h <;> rw [h]
  · exact ⟨s, rfl, rfl⟩
  · exact ⟨s, rfl, rfl⟩
  · exact ⟨_, rfl, rfl⟩

/-! ### A cue without a valid message -/

/-- One item's turn as the member detaches. -/
def detachItem (r : Run) (t : State) (x : Item) : State :=
  if (hdrClass r.desc.bytes == 0xA || hdrClass r.desc.bytes == 0xB) || t.waitsAck r.id x.index then
    t.endEarly r.id x.index stMemberLost
  else t

/-- The member Detached, before its items end. -/
def State.detaching (s : State) : State :=
  let t := s.setFld cueStatusLock 3
  ({ t with cue := { t.cue with lockCount := 0, routeSinceDetach := false, routeNews := false } } : State).sendDetached

theorem detach_eq (s : State) :
    s.detach = s.detaching.runs.foldl (fun u r => r.items.foldl (detachItem r) u) s.detaching := rfl

theorem detachItem_cuts (r : Run) (t : State) (x : Item) : Cuts t (detachItem r t x) := by
  unfold detachItem
  split
  · exact endEarly_cuts _ _ _ _ _
  · exact Cuts.refl t

theorem detachItem_cutTo {run i : Nat} (r : Run) (t : State) (x : Item) : CutTo t (detachItem r t x) run i stMemberLost := by
  unfold detachItem
  split
  · exact endEarly_cutTo _ _ _ _ _ _ _
  · exact .inr rfl

/-- What a prompter message sent leaves alone. -/
theorem originate_keeps (s : State) (p : Packet) : (s.originate p).runs = s.runs ∧ (s.originate p).cue = s.cue ∧
    (s.originate p).regs = s.regs := by
  have one : ∀ (t : State) (n : Nat), (t.sendOn n p).runs = t.runs ∧ (t.sendOn n p).cue = t.cue ∧ (t.sendOn n p).regs = t.regs := by
    intro t n
    unfold State.sendOn State.sendVia
    dsimp only
    split <;> exact ⟨rfl, rfl, rfl⟩
  have all : ∀ (l : List Nat) (t : State), (l.foldl (fun t n => t.sendOn n p) t).runs = t.runs ∧
      (l.foldl (fun t n => t.sendOn n p) t).cue = t.cue ∧ (l.foldl (fun t n => t.sendOn n p) t).regs = t.regs := by
    intro l
    induction l with
    | nil => exact fun _ => ⟨rfl, rfl, rfl⟩
    | cons n l ih =>
      intro t
      obtain ⟨h1, h2, h3⟩ := ih (t.sendOn n p)
      obtain ⟨k1, k2, k3⟩ := one t n
      exact ⟨h1.trans k1, h2.trans k2, h3.trans k3⟩
  unfold State.originate State.promptNow
  split
  · split
    · exact all _ _
    · split
      · exact one _ _
      · exact ⟨rfl, rfl, rfl⟩
  · exact ⟨rfl, rfl, rfl⟩

theorem detach_cuts (s : State) : Cuts s.detaching s.detach := by
  rw [detach_eq]
  exact cuts_foldl (fun t r => cuts_foldl (detachItem_cuts r) r.items t) _ _

/-- The items of the fabric and collective classes end MEMBER_LOST as the member detaches. -/
theorem detach_loses {run i : Nat} {r : Run} {x : Item} (hr : s.findRun run = some r)
    (hc : hdrClass r.desc.bytes = 0xA ∨ hdrClass r.desc.bytes = 0xB) (hx : s.itemOf run i = some x) (he : x.hasEnded = false) :
    ∃ dt, s.detach.phaseOf run i = some (.ended stMemberLost dt) := by
  have runs : s.detaching.runs = s.runs := (originate_keeps _ _).1
  obtain ⟨hm, hi⟩ := itemOf_mem hr hx
  rw [detach_eq, runs]
  refine foldl_cuts_ends (fun t q => cutTo_foldl (detachItem_cutTo q) q.items t)
    (fun t q => (cuts_foldl (detachItem_cuts q) q.items t).now) s.runs _ ((itemOf_congr runs run i).trans hx) r
    (List.mem_of_find?_eq_some hr) fun t ht _ => ?_
  refine foldl_cuts_ends (detachItem_cutTo r) (fun t q => (detachItem_cuts r t q).now) r.items t ht x hm fun u hu _ => ?_
  unfold detachItem
  rw [if_pos (by rcases hc with h | h <;> simp [h]), findRun_id hr, hi]
  exact endEarly_ends hu (.inl he) _

theorem detach_lock (s : State) : s.detach.fld cueStatusLock = 3 ∧ s.detach.cue.lockCount = 0 := by
  have same : SameCue s.detaching s.detach := .of_cuts (detach_cuts s)
  obtain ⟨-, cue, regs⟩ := originate_keeps
    ({ s.setFld cueStatusLock 3 with
        cue := { (s.setFld cueStatusLock 3).cue with lockCount := 0, routeSinceDetach := false, routeNews := false } } : State)
    (({ s.setFld cueStatusLock 3 with
        cue := { (s.setFld cueStatusLock 3).cue with lockCount := 0, routeSinceDetach := false, routeNews := false } } :
      State).prompter ptDetached 0 true (leBytes 8 ({ s.setFld cueStatusLock 3 with
        cue := { (s.setFld cueStatusLock 3).cue with lockCount := 0, routeSinceDetach := false, routeNews := false } } :
      State).cueNo))
  constructor
  · rw [same.fld (by unfold cutRegs; decide)]
    exact (congrFun (fld_congr regs) cueStatusLock).trans (fld_setFld s cueStatusLock 3 (by decide) (by decide))
  · rw [same.cue]
    exact congrArg Cue.lockCount cue

/-! ### Misses -/

theorem cueMiss_none (hr : s.inReset = false) (hl : s.fld cueStatusLock ≠ 4) (hg : s.cue.gotValid = false)
    (late : s.cue.edgeNs + 500 * s.period < s.now) : s.cueMiss none = s.missCue none := by
  unfold State.cueMiss
  dsimp only
  rw [if_neg (by simp [hr, hl, hg]), if_pos late]

theorem cueMiss_some {x : Int} (hr : s.inReset = false) (hl : s.fld cueStatusLock = 1) (hg : s.cue.gotValid = false)
    (hx : x < -65 ∨ 65 < x) : s.cueMiss (some x) = (s.setFld cueStatusOffsetNs (offsetCode x)).missCue (some x) := by
  unfold State.cueMiss
  dsimp only
  rw [if_neg (by simp [hr, hl, hg]), if_pos ⟨.inl hl, hx⟩]

/-- A Locked member's miss: Holdover, with one miss. -/
theorem missCue_locked {x : Option Int} (h : s.fld cueStatusLock = 1) : (s.missCue x).fld cueStatusLock = 2 ∧
    (s.missCue x).fld cueStatusMisses = 1 ∧ (s.missCue x).runs = s.runs ∧ (s.missCue x).mem = s.mem ∧
    (s.missCue x).cue.edgeNs = match x with
      | some x => ((s.cue.edgeNs : Int) - x).toNat
      | none => s.cue.edgeNs := by
  have regs : ∀ t : State, ((t.setFld cueStatusLock 2).setFld cueStatusMisses 1).fld cueStatusLock = 2 ∧
      ((t.setFld cueStatusLock 2).setFld cueStatusMisses 1).fld cueStatusMisses = 1 := fun t =>
    ⟨(fld_setFld_other _ cueStatusMisses cueStatusLock _ (by decide) (by decide)).trans
      (fld_setFld t cueStatusLock 2 (by decide) (by decide)), fld_setFld _ cueStatusMisses 1 (by decide) (by decide)⟩
  unfold State.missCue
  rw [h]
  dsimp only
  cases x with
  | none => exact ⟨(regs _).1, (regs _).2, rfl, rfl, rfl⟩
  | some x => exact ⟨(regs _).1, (regs _).2, rfl, rfl, rfl⟩

/-- A Holdover member's miss, counted. -/
theorem missCue_holdover (h : s.fld cueStatusLock = 2) (hm : s.fld cueStatusMisses < 3) : (s.missCue none).fld cueStatusLock = 2 ∧
    (s.missCue none).fld cueStatusMisses = s.fld cueStatusMisses + 1 ∧ (s.missCue none).runs = s.runs ∧
    (s.missCue none).mem = s.mem := by
  unfold State.missCue
  rw [h]
  dsimp only
  rw [if_pos hm]
  have count : satAdd 2 (s.fld cueStatusMisses) 1 = s.fld cueStatusMisses + 1 := by unfold satAdd; omega
  refine ⟨.trans (fld_setFld_other _ cueStatusMisses cueStatusLock _ (by decide) (by decide)) h, ?_, rfl, rfl⟩
  exact (fld_setFld _ cueStatusMisses _ (by decide) (by show satAdd 2 (s.fld cueStatusMisses) 1 < 2 ^ 2; omega)).trans count

theorem missCue_detaches (h : s.fld cueStatusLock = 2) (hm : s.fld cueStatusMisses = 3) :
    s.missCue none = ({ s with cue := { s.cue with gotValid := true } } : State).detach := by
  unfold State.missCue
  rw [h]
  exact if_neg (by omega)

theorem missCue_unlocked (h : s.fld cueStatusLock = 0) :
    s.missCue none = { s with cue := { s.cue with gotValid := true, lockCount := 0 } } := by
  unfold State.missCue
  rw [h]
  rfl

/-- What time leaves of the cue. -/
theorem tick_cueState (s : State) (now : Nat) : (s.tick now).cueNo = s.cueNo ∧ (s.tick now).period = s.period ∧
    (s.tick now).member = s.member ∧ (s.tick now).blockingMode = s.blockingMode ∧ (s.tick now).ownRank = s.ownRank := by
  simp only [State.cueNo, State.period, State.member, State.blockingMode, State.ownRank, State.tick_reg, State.tick_fld,
    State.tick_flag, State.tick_cue, and_self]

/-- Settles O21: a valid message within the limits is followed after `Learned`, and a miss is `State.missCue`. -/
theorem cueLockFollowsMessages : Obligations.CueLockFollowsMessages := by
  unfold Obligations.CueLockFollowsMessages
  constructor
  · rintro s u port now m rfl hr hp ho hs h1 h2 hm hcue heard lo hi
    obtain ⟨number, period, member, mode, rank⟩ := tick_cueState s now
    have follows := fun r k => takeCue_follows (s := s.tick now) (m := m) hr hp (by rw [member]; exact ho) hs h1 h2
      (by rw [mode]; exact hm) (by rw [State.tick_cue, number]; exact heard) (by rw [State.tick_cue]; exact lo)
      (by rw [State.tick_cue]; exact hi) r k
    simp only [State.tick_fld, State.tick_cue, number, period, rank] at follows
    constructor
    · intro hl hc
      obtain ⟨v, d, taken, learned⟩ := follows (by intro h; omega) (by intro h; omega)
      have lock : v.fld cueStatusLock = s.fld cueStatusLock := learned.lock.trans (State.tick_fld s now _)
      have locks := followCue_locks (s := v) (m := m) (d := d) (by rw [lock, learned.routes, State.tick_cue]; exact hl)
        (by rw [learned.count, State.tick_cue]; exact hc) (by rw [learned.mode, mode]; exact hm)
      obtain ⟨a1, a2, a3, a4, a5⟩ := lockOn_locked (v.adoptCue m)
      refine ⟨_, congrArg Host.Outcome.next (taken.trans locks), a1, a2, a3.trans ?_, a4.trans learned.period, a5⟩
      exact reg_setReg _ _ _ hcue
    · intro hl hn he hw
      obtain ⟨v, d, taken, learned⟩ := follows (by intro h; rcases hl with h' | h' | h' <;> omega) (fun _ => ⟨hn, he, hw⟩)
      have lock : v.fld cueStatusLock = s.fld cueStatusLock := learned.lock.trans (State.tick_fld s now _)
      obtain ⟨t, keeps, same⟩ := followCue_keeps (s := v) (m := m) (d := d)
        (by rw [lock]; exact hl.imp_right (Or.imp_right And.left))
      obtain ⟨a1, a2, a3, -, a5⟩ := lockOn_locked t
      exact ⟨_, congrArg Host.Outcome.next (taken.trans keeps), a1, a2, a3.trans (same.trans (learned.number.trans number)), a5⟩
  · rintro s w now rfl hr hg
    obtain ⟨number, period, member, mode, rank⟩ := tick_cueState s now
    have fld := State.tick_fld s now
    have mem := State.tick_mem s now
    have valid : (s.tick now).cue.gotValid = false := by rw [State.tick_cue]; exact hg
    refine ⟨fun late => ?_, fun x hx hl => ?_⟩
    · have miss : s.fld cueStatusLock ≠ 4 → exec (.cueMiss none now) s = .next ((s.tick now).missCue none) := fun hl =>
        congrArg Host.Outcome.next (cueMiss_none hr (by rw [fld]; exact hl) valid (by rw [State.tick_cue, period]; exact late))
      refine ⟨fun hl => ?_, fun hl hm => ?_, fun hl hm => ?_, fun hl => ?_⟩
      · obtain ⟨b1, b2, b3, b4, -⟩ := missCue_locked (s := s.tick now) (x := none) (by rw [fld]; exact hl)
        exact ⟨_, miss (by omega), b1, b2, b3, b4.trans mem⟩
      · obtain ⟨b1, b2, b3, b4⟩ := missCue_holdover (s := s.tick now) (by rw [fld]; exact hl) (by rw [fld]; exact hm)
        exact ⟨_, miss (by omega), b1, b2.trans (by rw [fld]), b3, b4.trans mem⟩
      · refine ⟨_, (miss (by omega)).trans (congrArg Host.Outcome.next
          (missCue_detaches (by rw [fld]; exact hl) (by rw [fld]; exact hm))), (detach_lock _).1, (detach_lock _).2, ?_⟩
        exact fun run i r x hf hc hx he =>
          detach_loses (s := { s.tick now with cue := { (s.tick now).cue with gotValid := true } }) hf hc hx he
      · refine ⟨_, (miss (by omega)).trans (congrArg Host.Outcome.next (missCue_unlocked (by rw [fld]; exact hl))), ?_, rfl, rfl,
          mem⟩
        exact (fld cueStatusLock).trans hl
    · have taken := cueMiss_some (s := s.tick now) (x := x) hr (by rw [fld]; exact hl) valid hx
      obtain ⟨b1, b2, b3, b4, b5⟩ := missCue_locked (s := (s.tick now).setFld cueStatusOffsetNs (offsetCode x)) (x := some x)
        ((fld_setFld_other _ cueStatusOffsetNs cueStatusLock _ (by decide) (by decide)).trans ((fld _).trans hl))
      refine ⟨_, congrArg Host.Outcome.next taken, b1, b2, b5.trans ?_, b3, b4.trans mem⟩
      show ((((s.tick now).cue.edgeNs : Nat) : Int) - x).toNat = _
      rw [State.tick_cue]

end Sys2Proof.Machine
end

