-- ==== Sys2Proof/Proofs/Switches.lean ====
section
/-! SUPPORT. A standby's take-over, switch requests, ceilings, and the start of a self-test (R80, R83, R103, R444). -/
namespace Sys2Proof.Machine

variable {s t : State}

/-! ### A standby takes over -/

theorem tick_mayEmit (s : State) (now : Nat) : (s.tick now).mayEmit = s.mayEmit := by
  have route : (s.tick now).fab.route = s.fab.route := by
    unfold State.tick
    split <;> rfl
  unfold State.mayEmit State.isSealed State.cueMismatch State.blockingMode
  simp only [State.tick_fld, State.tick_flag, State.tick_flash, State.tick_sec, (tick_power s now).2, route]

theorem standby_emits (hr : s.fld cueCtrlRole = 2) (he : s.mayEmit = true) (hf : s.cue.formerMaster = false)
    (hl : s.fld cueStatusLock ≠ 4) (hq : s.ownRank ≤ s.cue.quiet) (ht : s.cue.edgeNs + 500 * s.period ≤ s.now) :
    s.standby = s.beginEmitting := by
  unfold State.standby
  exact if_pos ⟨hr, he, by simp [hf], hl, hq, ht⟩

theorem beginEmitting_emits (hm : s.member < 2 ^ 12) : s.beginEmitting.fld cueStatusLock = 4 ∧
    s.beginEmitting.fld cueStatusMisses = 0 ∧ s.beginEmitting.fld cueStatusEmitter = s.member ∧
    s.beginEmitting.cueNo = s.cueNo ∧ s.beginEmitting.mem = s.mem ∧ s.beginEmitting.runs = s.runs := by
  have lock := fld_setFld s cueStatusLock 4 (by decide) (by decide)
  have misses := fld_setFld (s.setFld cueStatusLock 4) cueStatusMisses 0 (by decide) (by decide)
  refine ⟨?_, ?_, fld_setFld _ cueStatusEmitter _ (by decide) hm, ?_, rfl, rfl⟩
  · exact (fld_setFld_other _ cueStatusEmitter cueStatusLock _ (by decide) (by decide)).trans
      ((fld_setFld_other _ cueStatusMisses cueStatusLock _ (by decide) (by decide)).trans lock)
  · exact (fld_setFld_other _ cueStatusEmitter cueStatusMisses _ (by decide) (by decide)).trans misses
  · exact (reg_setReg_other _ _ _ _ (by decide)).trans
      ((reg_setReg_other _ _ _ _ (by decide)).trans (reg_setReg_other _ _ _ _ (by decide)))

/-! ### Switch requests -/

/-- The row of `CUE_SWITCH_REQ`. -/
def switchRow : RegRow :=
  { base := 0x2010, stride := 1, count := 1, size := 4, fields := [⟨0, 2, .rw⟩, ⟨2, 6, .rw⟩, ⟨8, 16, .rw⟩, ⟨31, 1, .wo⟩] }

theorem cueSwitchReq_eq {v : BitVec 32} (h : s.hostServes rCueSwitchReq = true) : exec (.cueSwitchReq v) s =
    .next (if s.fld cueStatusLock ≠ 4 || (bit v.toNat 31 && decide (v.toNat % 4 = 0)) then s
      else if bit v.toNat 31 then (s.writeWhole switchRow rCueSwitchReq v.toNat).switchRequest (v.toNat % 4) (field v.toNat 8 16)
        (field v.toNat 2 6)
      else s.writeWhole switchRow rCueSwitchReq v.toNat) := by
  have row : regRowAt rCueSwitchReq = some switchRow := by decide +kernel
  refine congrArg Host.Outcome.next ?_
  unfold State.registerWrite State.writeBlock State.writeWord
  dsimp only
  rw [if_pos h, if_neg (by decide), if_neg (by decide), if_neg (by decide), if_neg (by decide), if_neg (by decide), row]
  dsimp only
  rw [if_neg (by decide), if_neg (by decide), if_pos rfl]

/-- The request register as written: nothing else changes. -/
theorem writeSwitch_keeps (s : State) (v : Nat) : (∀ off, off ≠ rCueSwitchReq →
      (s.writeWhole switchRow rCueSwitchReq v).reg off = s.reg off) ∧ (s.writeWhole switchRow rCueSwitchReq v).cue = s.cue ∧
    (s.writeWhole switchRow rCueSwitchReq v).mem = s.mem := by
  have none_locked : switchRow.violates (s.reg rCueSwitchReq) v = false := rfl
  unfold State.writeWhole
  simp only [none_locked, Bool.and_false, Bool.false_eq_true, if_false]
  split
  · exact ⟨fun _ _ => rfl, rfl, rfl⟩
  · exact ⟨fun off h => reg_setReg_other _ _ _ _ h, rfl, rfl⟩

theorem announced_congr (h : t.cue = s.cue) (kind : Nat) : t.announced kind = s.announced kind := by
  unfold State.announced
  rw [h]

theorem switchPending_congr (h : t.cue = s.cue) (hn : t.cueNo = s.cueNo) (kind : Nat) :
    t.switchPending kind = s.switchPending kind := by
  unfold State.switchPending State.cuesTo
  rw [announced_congr h, hn]

theorem setAnnounced_announced {kind : Nat} (hk : 1 ≤ kind) (h4 : kind < 4) (a : Announce) :
    (s.setAnnounced kind a).announced kind = a ∧ (s.setAnnounced kind a).cueNo = s.cueNo ∧ (s.setAnnounced kind a).mem = s.mem := by
  obtain rfl | rfl | rfl : kind = 1 ∨ kind = 2 ∨ kind = 3 := by omega
  · exact ⟨rfl, rfl, rfl⟩
  · exact ⟨rfl, reg_setReg_other _ _ _ _ (by decide), rfl⟩
  · exact ⟨rfl, reg_setReg_other _ _ _ _ (by decide), rfl⟩

/-- A request with LEAD from 2 to 63 on an emitter, with no switch of its kind pending, is announced. -/
theorem switchRequest_announces {kind gen lead : Nat} (hl : s.fld cueStatusLock = 4) (hk : 1 ≤ kind) (h4 : kind < 4)
    (hp : s.switchPending kind = false) (lo : 2 ≤ lead) (hi : lead ≤ 63) :
    (s.switchRequest kind gen lead).announced kind =
      { valid := true, gen := if kind = 2 then gen % 256 else gen, target := (s.cueNo + lead) % 2 ^ 32 } ∧
    (s.switchRequest kind gen lead).flag cueStatusSwitchReject = false ∧ (s.switchRequest kind gen lead).cueNo = s.cueNo ∧
    (s.switchRequest kind gen lead).mem = s.mem := by
  unfold State.switchRequest
  rw [if_neg (by omega), if_neg (by rw [hp]; simp; omega)]
  obtain ⟨own, number, mem⟩ := setAnnounced_announced (s := s) hk h4
    { valid := true, gen := if kind = 2 then gen % 256 else gen, target := (s.cueNo + lead) % 2 ^ 32 }
  exact ⟨own, flag_setFlag _ _ _ (by decide) (by decide), (reg_setReg_other _ _ _ _ (by decide)).trans number, mem⟩

/-- A LEAD below 2 is rejected. -/
theorem switchRequest_rejects {kind gen lead : Nat} (hl : s.fld cueStatusLock = 4) (hk : 1 ≤ kind) (lo : lead < 2) :
    s.switchRequest kind gen lead = s.setFlag cueStatusSwitchReject true := by
  unfold State.switchRequest
  rw [if_neg (by omega), if_pos (.inl lo)]

/-! ### Ceilings -/

/-- The row of `PART_OP`. -/
def partOpRow : RegRow :=
  { base := 0x2040, stride := 4, count := 8, size := 4, fields := [⟨0, 2, .rw⟩, ⟨2, 2, .ro⟩, ⟨4, 1, .ro⟩] }

theorem partOp_plain : ∀ part < 8, regRowAt (rPartOp part) = some partOpRow ∧ portOfCtrl (rPartOp part) = none ∧
    rPartOp part ∉ [rSetupSeal, rDeviceReset, rCueSwitchReq, rFabMember, rCoppiceReq, rSelftestReq, rSecCmd, rPwrCtrl] := by
  decide +kernel

theorem partOpCeiling_sets (s : State) (part v : Nat) :
    (s.writeWhole partOpRow (rPartOp part) v).fld (partOpCeiling part) = v % 4 ∧
      (s.writeWhole partOpRow (rPartOp part) v).fld (partOpEffective part) = s.fld (partOpEffective part) := by
  have none_locked : (s.isSealed && partOpRow.violates (s.reg (rPartOp part)) v) = false := Bool.and_false _
  have merged : partOpRow.merged s.isSealed (s.reg (rPartOp part)) v = setField (s.reg (rPartOp part)) 0 2 (field v 0 2) := rfl
  have reg := (writeWhole_reg none_locked (by rw [merged]; exact setField_lt (reg_lt s _) (by decide))).1
  rw [merged] at reg
  constructor
  · show field ((s.writeWhole partOpRow (rPartOp part) v).reg (rPartOp part)) 0 2 = v % 4
    rw [reg, field_setField]
    simp [field]
  · show field ((s.writeWhole partOpRow (rPartOp part) v).reg (rPartOp part)) 2 2 = _
    rw [reg]
    exact field_setField_above _ _ _ _ _ _ (by decide)

/-- Settles O22: each clause is one operation of the cue unit, on registers of disjoint fields. -/
theorem standbySwitchesAndTests : Obligations.StandbySwitchesAndTests := by
  unfold Obligations.StandbySwitchesAndTests
  refine ⟨?_, ?_, ?_, ?_⟩
  · intro s now hr he hf hl hq ht hm
    obtain ⟨number, period, member, -, rank⟩ := tick_cueState s now
    obtain ⟨b1, b2, b3, b4, b5, b6⟩ := beginEmitting_emits (s := s.tick now) (by rw [member]; exact hm)
    refine ⟨_, congrArg Host.Outcome.next (standby_emits ?_ ?_ ?_ ?_ ?_ ?_), b1, b2, b3.trans member, b4.trans number,
      b5.trans (State.tick_mem s now), b6⟩
    · rw [State.tick_fld]; exact hr
    · rw [tick_mayEmit]; exact he
    · rw [State.tick_cue]; exact hf
    · rw [State.tick_fld]; exact hl
    · rw [rank, State.tick_cue]; exact hq
    · rw [State.tick_cue, period]; exact ht
  · rintro s kind gen lead v hs rfl rfl rfl
    obtain ⟨reg, cue, mem⟩ := writeSwitch_keeps s v.toNat
    have lock : (s.writeWhole switchRow rCueSwitchReq v.toNat).fld cueStatusLock = s.fld cueStatusLock :=
      congrArg (fun n => field n _ _) (reg rCueStatus (by decide))
    have number : (s.writeWhole switchRow rCueSwitchReq v.toNat).cueNo = s.cueNo := reg rCueNumber (by decide)
    have short : field v.toNat 2 6 ≤ 63 := Nat.le_of_lt_succ (Nat.mod_lt _ (by decide))
    refine ⟨fun h => ?_, fun hl hk go hp lo => ?_, fun hl hk go lo => ?_⟩
    · rw [cueSwitchReq_eq hs, if_pos (by rcases h with h | h <;> simp [h])]
    · obtain ⟨a1, a2, a3, a4⟩ := switchRequest_announces (gen := field v.toNat 8 16) (lock.trans hl) hk (Nat.mod_lt _ (by decide))
        ((switchPending_congr cue number _).trans hp) lo short
      refine ⟨_, (cueSwitchReq_eq hs).trans ?_, a1.trans (by rw [number]), a2, a3.trans number, a4.trans mem⟩
      rw [if_neg (by simp [hl]; omega), if_pos go]
    · refine ⟨_, (cueSwitchReq_eq hs).trans ?_, flag_setFlag _ _ _ (by decide) (by decide), announced_congr cue _,
        (reg_setReg_other _ _ _ _ (by decide)).trans number, mem⟩
      rw [if_neg (by simp [hl]; omega), if_pos go, switchRequest_rejects (lock.trans hl) hk lo]
  · intro s part v hp hs
    obtain ⟨row, port, plain⟩ := partOp_plain part hp
    have none_locked : (s.isSealed && partOpRow.violates (s.reg (rPartOp part)) v.toNat) = false := Bool.and_false _
    obtain ⟨own, effective⟩ := partOpCeiling_sets s part v.toNat
    obtain ⟨mem, -, runs, -⟩ := writeWhole_keeps none_locked
    refine ⟨_, congrArg Host.Outcome.next ((if_pos hp).trans (registerWrite_plain hs ?_ ?_ ?_ row rfl plain port)), own, effective,
      mem, runs⟩
    · unfold rPartOp; omega
    · unfold rPartOp; omega
    · unfold rPartOp; omega
  · rintro s w tile now rfl hr ht h
    refine congrArg Host.Outcome.next (if_pos ?_)
    rw [hr, ht]
    rcases h with h | ⟨h, k⟩
    · simp [h]
    · rw [h, List.contains_iff_mem.2 k]
      rfl

end Sys2Proof.Machine
end

