-- ==== Sys2Proof/Proofs/MatrixItems.lean ====
section
/-! SUPPORT. Items of the matrix class, each by the pieces of its work in turn (R147 to R166). -/
namespace Sys2Proof.Machine

variable {α β : Type} {e : ItemEnv} {s t u : State} {run item : Nat} {r : Run}

/-! ### Pieces that works share -/

theorem gives_pay {o n : Nat} {k : Nat → ItemM β} {b : β} (h : (k (leAt e.desc (32 + o) n)).Gives e s b u) :
    (pay o n >>= k).Gives e s b u := h

/-- A piece done where `c` holds: what follows goes on from the state it leaves, or from the state as it is. -/
theorem gives_optional {c : Prop} [Decidable c] {m : ItemM PUnit} {k : PUnit → ItemM β} {b : β} (hm : c → m.Gives e s ⟨⟩ t)
    (hs : ¬c → t = s) (h : (k ⟨⟩).Gives e t b u) : (if c then m >>= k else k ⟨⟩).Gives e s b u := by
  split
  · next hc => exact gives_bind (hm hc) h
  · next hc => rw [← hs hc]; exact h

/-- The same of a piece that looks at the state first. -/
theorem gives_optional_get {c : Prop} [Decidable c] {m : State → ItemM PUnit} {k : PUnit → ItemM β} {b : β}
    (hm : c → (m s).Gives e s ⟨⟩ t) (hs : ¬c → t = s) (h : (k ⟨⟩).Gives e t b u) :
    (if c then get >>= fun s => m s >>= k else k ⟨⟩).Gives e s b u := by
  split
  · next hc => exact gives_get (gives_bind (hm hc) h)
  · next hc => rw [← hs hc]; exact h

/-- A check that holds. -/
theorem gives_check {c : Bool} {st dt : Nat} (hc : c = true) : (require c st dt).Gives e s () s := by
  unfold require ItemM.Gives
  rw [if_pos hc]
  rfl

theorem itemReady_id {cls op : Nat} (h : s.itemReady cls op run item = some r) : r.id = run := findRun_id (itemReady_spec h).1

/-! ### Items that report rows -/

theorem doneRows_gives {prec : Bool} {v c : Nat} {x : Item} (hx : s.itemOf e.run e.item = some x) : (doneRows prec v c).Gives e s
    (done (if x.prec.denied = 0 then stOk else stDegraded) (if prec then x.prec.detail else v) c) s := by
  have there : theItem.on e s = (.ok (some x), s) := congrArg (fun y => (Except.ok y, s)) hx
  unfold doneRows ItemM.Gives
  rw [on_bind_ok there]
  rfl

/-- Work that ends in a report of its rows ends its item so. -/
theorem rowsEnd_of_gives {cls op v c : Nat} {prec : Bool} {w : ItemM Done} (hr : s.itemReady cls op run item = some r)
    (hu : u.CanEnd run item r)
    (hw : ∀ x, u.itemOf (r.env s item).run item = some x → w.Gives (r.env s item) (s.beginItem run item)
      (done (if x.prec.denied = 0 then stOk else stDegraded) (if prec then x.prec.detail else v) c) u)
    (h7 : cls < 7 := by decide) : RowsEnd u (s.runItem cls op w run item) run item prec v c := by
  obtain ⟨x, hx, -⟩ := itemOpen_iff.1 hu.isOpen
  refine ⟨x, hx, runItem_gives hr (by omega) (by omega) (hw x (by rw [Run.env_run, itemReady_id hr]; exact hx)) ?_ hu⟩
  show (if x.prec.denied = 0 then stOk else stDegraded) < 16
  split <;> decide

/-! ### The matrix products -/

section Products
variable {s0 s1 s2 : State} {op v : Nat} {p : MmPay} {lf : Option LaneFault}

theorem mmWsWork_gives {x : Item} (hp : p = mmPay e.desc) (hc : (mmCheck e.desc op).Gives e s0 () s0)
    (hl : (mmPlanned p op (itemTile e.desc e.item) e.item).Gives e s0 () s0)
    (hv : (runTime p.shapeEn (itemTile e.desc e.item) p.shape p.m).Gives e s0 v s1)
    (hf : (laneCheck (itemTile e.desc e.item) lf).Gives e s1 () s2)
    (hb : (wsBands p op (itemTile e.desc e.item) e.item v).Gives e s2 () u) (hx : u.itemOf e.run e.item = some x) :
    (mmWsWork op lf).Gives e s0 (done (if x.prec.denied = 0 then stOk else stDegraded)
      (if precFmt p.y.fmt then x.prec.detail else v) (mmCycles p op v)) u := by
  subst hp
  unfold mmWsWork
  exact gives_read (gives_bind hc (gives_bind hl (gives_bind hv (gives_bind hf (gives_bind hb (doneRows_gives hx))))))

theorem mmOsWork_gives {x : Item} (hp : p = mmPay e.desc) (hc : (mmCheck e.desc 2).Gives e s0 () s0)
    (hl : (mmPlanned p 2 (itemTile e.desc e.item) e.item).Gives e s0 () s0)
    (hv : (runTime p.shapeEn (itemTile e.desc e.item) p.shape p.k).Gives e s0 v s1)
    (hf : (laneCheck (itemTile e.desc e.item) lf).Gives e s1 () s2)
    (hb : (osBands p (itemTile e.desc e.item) e.item v).Gives e s2 () u) (hx : u.itemOf e.run e.item = some x) :
    (mmOsWork lf).Gives e s0 (done (if x.prec.denied = 0 then stOk else stDegraded)
      (if precFmt p.y.fmt then x.prec.detail else v) (mmCycles p 2 v)) u := by
  subst hp
  unfold mmOsWork
  exact gives_read (gives_bind hc (gives_bind hl (gives_bind hv (gives_bind hf (gives_bind hb (doneRows_gives hx))))))

end Products

/-- Settles O23: each work is its pieces in order, and ends as the last one leaves the state. -/
theorem matrixItemsEnd : Obligations.MatrixItemsEnd := by
  unfold Obligations.MatrixItemsEnd
  refine ⟨?_, ?_, ?_⟩
  · rintro s s0 s1 s2 u run item op tile v r e p lf hr rfl rfl rfl rfl hu hc hl hv hf hb
    by_cases h2 : op = 2
    · subst h2
      refine ⟨_, rowsEnd_of_gives hr hu fun x hx => mmOsWork_gives rfl hc hl hv hf hb hx, ?_, ?_, fun _ => rfl⟩ <;>
        exact fun h => absurd h (by decide)
    · rw [if_neg h2] at hv hb
      refine ⟨s.runItem 1 op (mmWsWork op lf) run item,
        rowsEnd_of_gives hr hu fun x hx => mmWsWork_gives rfl hc hl hv hf hb hx, ?_, ?_, fun h => absurd h h2⟩
      · rintro rfl; rfl
      · rintro rfl; rfl
  · rintro s s0 s1 u run item tile v r e p rp ry hr rfl rfl rfl rfl hu hc hp hy hm hv hs
    refine ⟨_, rfl, rowsEnd_of_gives hr hu fun x hx => ?_⟩
    unfold splitSumWork
    exact gives_read (gives_bind hc (gives_bind hp (gives_bind hy (gives_require (by rw [hm]; rfl) (gives_bind hv
      (gives_bind hs (doneRows_gives hx)))))))
  · rintro s s0 s1 s2 s3 s4 u run item base a f r e p b codes hr rfl rfl hu ht hz1 hz2 rfl hb rfl ho1 ho2 hl rfl rfl hf1 hf2 hst
      hrows hcols hfwd hbwd hs2 hmap hw hcommit
    refine ⟨_, rfl, runItem_gives (d := done stOk 0 192) hr (by decide) (by decide) ?_ (by decide) hu⟩
    unfold pairRefreshWork
    have tiles : (tileRangeOk r.desc.bytes && zeroAt (payloadOf r.desc.bytes) 2 14 && zeroAt (payloadOf r.desc.bytes) 24 72) = true := by
      rw [ht, hz1, hz2]
      rfl
    have owned : (decide (leAt r.desc.bytes 48 8 % 32 = 0) && (s.beginItem run item).ownMem (leAt r.desc.bytes 48 8) 32) = true :=
      Bool.and_eq_true_iff.2 ⟨decide_eq_true hb, ho1⟩
    refine gives_read (gives_bind (gives_check tiles) (gives_pay (gives_get (gives_require owned (gives_get (gives_require ho2 ?_))))))
    refine gives_bind hl ?_
    refine gives_require (Bool.and_eq_true_iff.2 ⟨decide_eq_true hf1, decide_eq_true hf2⟩) ?_
    refine gives_require (by simpa using hst) ?_
    refine gives_require (Bool.and_eq_true_iff.2 ⟨decide_eq_true hrows, decide_eq_true hcols⟩) ?_
    exact gives_bind hfwd (gives_bind hbwd (gives_bind hs2 (gives_bind hmap (gives_bind hw (gives_bind hcommit (gives_pure _))))))

end Sys2Proof.Machine
end

