-- ==== Sys2Proof/Proofs/AttentionItems.lean ====
section
/-! SUPPORT. Items of the attention class, each by the pieces of its work in turn (R171 to R200). -/
namespace Sys2Proof.Machine

/-- Settles O24: the work of `ATTN` is its pieces in order. -/
theorem attentionEnds : Obligations.AttentionEnds := by
  unfold Obligations.AttentionEnds
  rintro s s0 s1 s2 s3 s4 s5 s6 s7 s8 u run item tile v r e p lf pt sight pages qs sts hr rfl rfl rfl rfl hu hc hb hv ht hh hl hg
    rfl hf hq hbias hnobias hp hnopages hpages hw
  refine ⟨_, rfl, runItem_gives (d := done stOk 0 (256 + _)) hr (by decide) (by decide) ?_ (show stOk < 16 by decide) hu⟩
  unfold attnWork
  refine gives_read (gives_bind hc (gives_bind hb (gives_bind hv (gives_bind ht ?_))))
  refine gives_require (decide_eq_true hh) (gives_bind hl (gives_bind hg (gives_bind hf (gives_bind hq ?_))))
  refine gives_optional_get (t := s6) (fun hc => hbias (by simpa using hc)) (fun hc => hnobias (by simpa using hc)) ?_
  refine gives_bind hp ?_
  refine gives_optional (t := s8) (fun hc => hpages (by simpa using hc)) (fun hc => hnopages (by simpa using hc)) ?_
  exact gives_bind hw (gives_pure _)

end Sys2Proof.Machine
end

