-- ==== Sys2Proof/Proofs/SequenceItems.lean ====
section
/-! SUPPORT. Items that keep page tables and sequences, each by the pieces of its work in turn (R182 to R188). -/
namespace Sys2Proof.Machine

variable {α β : Type} {e : ItemEnv} {s t u : State} {run item : Nat} {r : Run}

/-- A check made of every member of a list, which leaves the state as it is. -/
theorem gives_forM {f : α → ItemM PUnit} {l : List α} (h : ∀ x ∈ l, (f x).Gives e s ⟨⟩ s) : (l.forM f).Gives e s ⟨⟩ s := by
  induction l with
  | nil => exact gives_pure _
  | cons x l ih =>
    show (f x >>= fun _ => l.forM f).Gives e s ⟨⟩ s
    exact gives_bind (h x (by simp)) (ih fun y hy => h y (by simp [hy]))

/-- An item whose work ends OK with a DETAIL. -/
theorem okEnd_of_gives {cls op detail c : Nat} {w : ItemM Done} (hr : s.itemReady cls op run item = some r)
    (hu : u.CanEnd run item r) (hw : w.Gives (r.env s item) (s.beginItem run item) (done stOk detail c) u)
    (h7 : cls < 7 := by decide) : ItemEnds u (s.runItem cls op w run item) run item stOk detail c :=
  runItem_gives hr (by omega) (by omega) hw (show stOk < 16 by decide) hu

section Pieces
variable {s0 s1 s2 s3 s4 s5 s6 s7 s8 : State}

theorem kvAppendWork_gives {tile v took : Nat} {p : PageTable} {sq z : List Byte} {ks vs : OpRef}
    {ents : List ((Nat × Nat × Nat) × Nat)} {kr vr : List (List Byte × List Byte)} (hz : z = payloadOf e.desc)
    (ht : tile = itemTile e.desc e.item) (hc : (kvAppendCheck e.desc).Gives e s0 () s0)
    (hks : ks = opRef ((z.drop 24).take 16)) (hvs : vs = opRef ((z.drop 40).take 16))
    (hv : (runTime (leAt z 2 1 == 2) tile (leAt z 56 4) (leAt z 4 2)).Gives e s0 v s1)
    (hp : (stepTable (leAt z 8 8 + e.item * leAt z 16 8)).Gives e s1 p s2) (hplan : p.length + v ≤ p.pages * p.tokens)
    (hops : ∀ o ∈ [ks, vs], o.fmtByte = p.fmtByte ∧ o.ok (p.heads * p.dim) = true)
    (hsq : (stepSeq p.seqRec).Gives e s2 sq s3) (hst : seqState sq = 2)
    (hents : (stepEntries p (entryPlaces p (p.length / p.tokens)
        ((p.length + v - 1) / p.tokens + 1 - p.length / p.tokens))).Gives e s3 ents s4)
    (hok : (ents.forM fun x => entryOk p x.1.2.2 x.2).Gives e s4 () s4)
    (hkr : (sourceRows ks tile e.item (p.heads * p.dim) v).Gives e s4 kr s5)
    (hvr : (sourceRows vs tile e.item (p.heads * p.dim) v).Gives e s5 vr s6)
    (happ : (appendPages p sq v ents kr vr).Gives e s6 took s7) (hw : waitWrites.Gives e s7 () s8)
    (hlen : (inStepDo (store p.addr (leBytes 4 (p.length + v)))).Gives e s8 () u) :
    kvAppendWork.Gives e s0 (done stOk (2 ^ 32 * took)) u := by
  subst hz ht hks hvs
  have operands : ([opRef (((payloadOf e.desc).drop 24).take 16), opRef (((payloadOf e.desc).drop 40).take 16)].all
      fun o => o.fmtByte == p.fmtByte && o.ok (p.heads * p.dim)) = true :=
    List.all_eq_true.2 fun o ho => Bool.and_eq_true_iff.2 ⟨beq_iff_eq.2 (hops o ho).1, (hops o ho).2⟩
  unfold kvAppendWork
  refine gives_read (gives_bind hc (gives_bind hv (gives_bind hp ?_)))
  refine gives_require (decide_eq_true hplan) (gives_require operands (gives_bind hsq ?_))
  refine gives_require (beq_iff_eq.2 hst) (gives_bind hents (gives_bind hok (gives_bind hkr (gives_bind hvr ?_))))
  exact gives_bind happ (gives_bind hw (gives_bind hlen (gives_pure _)))

theorem seqJoinWork_own_gives {a frames c : Nat} {b : List Byte} {p : PoolAt} (ha : seqOperand.Gives e s0 (a, b, frames) s1)
    (hb : seqState b = 0 ∨ seqState b = 3 ∨ seqState b = 4) (hp : (poolOf (seqMember b) (seqTier b)).Gives e s1 (some p) s2)
    (hs : (inStepDo (store a (leBytes 2 1 ++ (b.drop 2).take 14 ++ leBytes 8 0 ++ leBytes 4 frames))).Gives e s2 () s3)
    (hw : waitWrites.Gives e s3 () s4) (ho : p.own = true)
    (hj : (inStepNat (modify (fun s => s.acceptJoin p.tier a) >>= fun _ => do return (← get).cueNo)).Gives e s4 c u) :
    seqJoinWork.Gives e s0 (done stOk ((c + 1) % 2 ^ 32)) u := by
  unfold seqJoinWork
  refine gives_bind ha (gives_require (by simpa [or_assoc] using hb) (gives_bind hp (gives_bind hs (gives_bind hw ?_))))
  rw [if_pos ho]
  exact gives_bind hj (gives_pure _)

theorem seqJoinWork_other_gives {a frames c : Nat} {b : List Byte} {p : PoolAt} (ha : seqOperand.Gives e s0 (a, b, frames) s1)
    (hb : seqState b = 0 ∨ seqState b = 3 ∨ seqState b = 4) (hp : (poolOf (seqMember b) (seqTier b)).Gives e s1 (some p) s2)
    (hs : (inStepDo (store a (leBytes 2 1 ++ (b.drop 2).take 14 ++ leBytes 8 0 ++ leBytes 4 frames))).Gives e s2 () s3)
    (hw : waitWrites.Gives e s3 () s4) (ho : p.own = false) (hl : (p.link a swapTries).Gives e s4 () s5)
    (hn : (freshNat (mkAddr p.member (3 * 2 ^ 43 + rCueNumber)) 4).Gives e s5 c u) :
    seqJoinWork.Gives e s0 (done stOk ((c + 1) % 2 ^ 32)) u := by
  unfold seqJoinWork
  refine gives_bind ha (gives_require (by simpa [or_assoc] using hb) (gives_bind hp (gives_bind hs (gives_bind hw ?_))))
  rw [if_neg (by simp [ho])]
  exact gives_bind hl (gives_bind hn (gives_pure _))

/-- The entries of a table that is left: the valid ones have no reserved value, and their frames may be written. -/
theorem leftEntries_gives {ents : List ((Nat × Nat × Nat) × Nat)}
    (h : ∀ x ∈ ents, enValid x.2 = true → enBad x.2 = false ∧ (checkWrite (enFrame x.2) 65536).Gives e s () s) :
    (ents.forM fun (_, v) => do
      if enValid v then
        require (!enBad v) stBad
        checkWrite (enFrame v) 65536).Gives e s () s := by
  refine gives_forM fun x hx => ?_
  by_cases hv : enValid x.2 = true
  · obtain ⟨hbad, hcw⟩ := h x hx hv
    show (if enValid x.2 = true then _ else _ : ItemM Unit).Gives e s () s
    rw [if_pos hv]
    exact gives_require (by rw [hbad]; rfl) hcw
  · show (if enValid x.2 = true then _ else _ : ItemM Unit).Gives e s () s
    rw [if_neg hv]
    exact gives_pure _

theorem seqLeaveWork_gives {n : Nat} {p : PageTable} {b z : List Byte} {ents : List ((Nat × Nat × Nat) × Nat)}
    (hz : z = payloadOf e.desc) (hc : (seqLeaveCheck e.desc).Gives e s0 () s0)
    (hp : (stepTable (leAt z 8 8 + e.item * leAt z 16 8)).Gives e s0 p s1) (hb : (stepSeq p.seqRec).Gives e s1 b s2)
    (hents : (stepEntries p (entryPlaces p 0 p.pages)).Gives e s2 ents s3)
    (hok : ∀ x ∈ ents, enValid x.2 = true → enBad x.2 = false ∧ (checkWrite (enFrame x.2) 65536).Gives e s3 () s3)
    (hrel : (releaseEntries p ents).Gives e s3 () s4) (hlen : (inStepDo (store p.addr (leBytes 4 0))).Gives e s4 () s5)
    (hn : (changeResv p.seqRec (fun r => if r = 0 then none else some 0) swapTries).Gives e s5 n s6)
    (hret : (returnReserve b n).Gives e s6 () s7)
    (hend : (inStepDo (store p.seqRec (leBytes 2 4) >>= fun _ => do
        store (p.seqRec + 12) (leBytes 4 (((← get).cueNo + 1) % 2 ^ 32)))).Gives e s7 () u) :
    seqLeaveWork.Gives e s0 done u := by
  subst hz
  unfold seqLeaveWork
  refine gives_read (gives_bind hc (gives_bind hp (gives_bind hb (gives_bind hents (gives_bind (leftEntries_gives hok) ?_)))))
  exact gives_bind hrel (gives_bind hlen (gives_bind hn (gives_bind hret (gives_bind hend (gives_pure _)))))

theorem seqReserveWork_gives {a frames n : Nat} {b : List Byte} {p : PoolAt} (ha : seqOperand.Gives e s0 (a, b, frames) s1)
    (hb : seqState b = 2) (hp : (poolOf (seqMember b) (seqTier b)).Gives e s1 (some p) s2)
    (hown : p.own = true → (inStepNat (p.reserveOwn (seqOwner b) frames)).Gives e s2 0 s3)
    (hother : p.own = false → (p.commit (seqOwner b) frames swapTries).Gives e s2 none s3)
    (hn : (changeResv a (fun r => some (r + frames)) swapTries).Gives e s3 n u) : seqReserveWork.Gives e s0 done u := by
  unfold seqReserveWork
  refine gives_bind ha (gives_require (beq_iff_eq.2 hb) (gives_bind hp ?_))
  by_cases ho : p.own = true
  · dsimp only
    rw [if_pos ho]
    exact gives_bind (hown ho) (gives_require rfl (gives_bind hn (gives_pure _)))
  · dsimp only
    rw [if_neg ho]
    exact gives_bind (hother (by simpa using ho)) (gives_bind (gives_pure 0) (gives_require rfl (gives_bind hn (gives_pure _))))

theorem pageShareWork_gives {p d : PageTable} {l : List ShareEntry} {z : List Byte} (hz : z = payloadOf e.desc)
    (hc : (pageShareCheck e.desc).Gives e s0 () s0) (hp : (stepTable (leAt z 8 8 + e.item * leAt z 24 8)).Gives e s0 p s1)
    (hd : (stepTable (leAt z 16 8 + e.item * leAt z 24 8)).Gives e s1 d s2)
    (hshape : p.logT = d.logT ∧ p.fmtByte = d.fmtByte ∧ p.dim = d.dim ∧ p.heads = d.heads) (hlen : leAt z 4 4 ≤ p.length)
    (hempty : d.length = 0) (hpages : ceilDiv (leAt z 4 4) p.tokens ≤ d.pages)
    (hl : (shareEntries p d (ceilDiv (leAt z 4 4) p.tokens)).Gives e s2 l s3) (hcount : (shareCounts l).Gives e s3 () s4)
    (hall : (shareAll l).Gives e s4 () s5) (hst : (inStepDo (store d.addr (leBytes 4 (leAt z 4 4)))).Gives e s5 () u) :
    pageShareWork.Gives e s0 done u := by
  subst hz
  unfold pageShareWork
  refine gives_read (gives_bind hc (gives_bind hp (gives_bind hd ?_)))
  refine gives_require (by simp [hshape, hlen, hempty, hpages]) ?_
  exact gives_bind hl (gives_bind hcount (gives_bind hall (gives_bind hst (gives_pure _))))

end Pieces

/-- Settles O25: each work is its pieces in order. -/
theorem sequenceItemsEnd : Obligations.SequenceItemsEnd := by
  unfold Obligations.SequenceItemsEnd
  rintro s s0 s1 s2 s3 s4 s5 s6 s7 s8 u run item r e z rfl rfl hz hu
  refine ⟨?_, ?_, ?_, ?_, ?_⟩
  · rintro tile v took p sq ks vs ents kr vr hr ht hc hks hvs hv hp hplan hkf hvf hko hvo hsq hst hents hok hkr hvr happ hw hlen
    have operands : ∀ o ∈ [ks, vs], o.fmtByte = p.fmtByte ∧ o.ok (p.heads * p.dim) = true := by
      intro o ho
      rcases List.mem_pair.1 ho with rfl | rfl
      exacts [⟨hkf, hko⟩, ⟨hvf, hvo⟩]
    exact ⟨_, rfl, okEnd_of_gives hr hu
      (kvAppendWork_gives hz ht hc hks hvs hv hp hplan operands hsq hst hents hok hkr hvr happ hw hlen)⟩
  · rintro a frames c b p hr ha hb hp hs hw hown hother
    refine ⟨_, rfl, okEnd_of_gives hr hu ?_⟩
    by_cases ho : p.own = true
    · exact seqJoinWork_own_gives ha hb hp hs hw ho (hown ho)
    · obtain ⟨hl, hn⟩ := hother (by simpa using ho)
      exact seqJoinWork_other_gives ha hb hp hs hw (by simpa using ho) hl hn
  · rintro n p b ents hr hc hp hb hents hok hrel hlen hn hret hend
    exact ⟨_, rfl, okEnd_of_gives hr hu (seqLeaveWork_gives hz hc hp hb hents hok hrel hlen hn hret hend)⟩
  · rintro a frames n b p hr ha hb hp hown hother hn
    exact ⟨_, rfl, okEnd_of_gives hr hu (seqReserveWork_gives ha hb hp hown hother hn)⟩
  · rintro p d l hr hc hp hd h1 h2 h3 h4 hlen hempty hpages hl hcount hall hst
    exact ⟨_, rfl, okEnd_of_gives hr hu
      (pageShareWork_gives hz hc hp hd ⟨h1, h2, h3, h4⟩ hlen hempty hpages hl hcount hall hst)⟩

end Sys2Proof.Machine
end

