-- ==== Sys2Proof/Proofs/TableLoads.lean ====
section
/-! SUPPORT. Work that holds its item, and the loads of bias and function tables (R168, R198, R216). -/
namespace Sys2Proof.Machine

variable {α β : Type} {e : ItemEnv} {s t u : State} {run item : Nat} {r : Run}

/-! ### Work that holds its item -/

/-- A piece of an item's work waits, with what it has done so far. -/
def ItemM.Holds {α : Type} (m : ItemM α) (e : ItemEnv) (s t : State) : Prop := m.on e s = (.error .hold, t)

theorem holds_throw : (throw .hold : ItemM α).Holds e s s := (rfl)

theorem holds_bind {m : ItemM α} {k : α → ItemM β} {a : α} (h : m.Gives e s a t) (hk : (k a).Holds e t u) :
    (m >>= k).Holds e s u := by
  unfold ItemM.Gives ItemM.Holds at *
  rw [on_bind_ok h, hk]

/-- What would follow a piece that waits is not reached. -/
theorem holds_first {m : ItemM α} {k : α → ItemM β} (h : m.Holds e s t) : (m >>= k).Holds e s t := on_bind_error h

theorem holds_read {k : ItemEnv → ItemM β} (h : (k e).Holds e s u) : (read >>= k).Holds e s u := h
theorem holds_get {k : State → ItemM β} (h : (k s).Holds e s u) : (get >>= k).Holds e s u := h
theorem holds_set {k : PUnit → ItemM β} (h : (k ⟨⟩).Holds e t u) : (set t >>= k).Holds e s u := h
theorem holds_modify {f : State → State} {k : PUnit → ItemM β} (h : (k ⟨⟩).Holds e (f s) u) : (modify f >>= k).Holds e s u := h
theorem holds_pay {o n : Nat} {k : Nat → ItemM β} (h : (k (leAt e.desc (32 + o) n)).Holds e s u) : (pay o n >>= k).Holds e s u := h
theorem holds_require {c : Bool} {st dt : Nat} {k : PUnit → ItemM β} (hc : c = true) (h : (k ⟨⟩).Holds e s u) :
    (require c st dt >>= k).Holds e s u := holds_bind (gives_check hc) h

/-! ### BIAS_LOAD -/

/-- What setting fields and filling SRAM afresh leaves as it is: the bias tables. -/
theorem bias_sramFresh_foldl (f : Nat → Nat) (n : Nat) (l : List Nat) (s : State) :
    (l.foldl (fun (t : State) q => t.sramFresh (f q) n) s).bias = s.bias := by
  induction l generalizing s with
  | nil => rfl
  | cons q l ih => exact ih _

/-- A pending generation comes into force at the boundary of its cue. -/
theorem biasSwitch_due {gen target heads c : Nat} {img : List Byte} (h : u.bias.standby = some (gen, target, heads, img))
    (hc : target ≤ c) : (u.biasSwitch c).bias.image = img ∧ (u.biasSwitch c).bias.standby = none ∧
      (u.biasSwitch c).bias.front = 1 - u.bias.front ∧ (u.biasSwitch c).flag biasStatusPending = false := by
  unfold State.biasSwitch
  rw [h]
  dsimp only
  rw [if_pos hc]
  refine ⟨rfl, rfl, rfl, ?_⟩
  unfold State.flag
  rw [fld_setFld_other _ biasStatusHeads _ _ (by decide) (by decide)]
  exact flag_setFlag _ _ _ (by decide) (by decide)

/-- Before that cue it does not. -/
theorem biasSwitch_early {gen target heads c : Nat} {img : List Byte} (h : u.bias.standby = some (gen, target, heads, img))
    (hc : c < target) : u.biasSwitch c = u := by
  unfold State.biasSwitch
  rw [h]
  dsimp only
  rw [if_neg (by omega)]

section BiasLoad
variable {s0 s1 s2 v : State} {src gen lead heads target : Nat} {z h img : List Byte}

theorem biasLoadWork_gives (hz : z = payloadOf e.desc) (hsrc : src = leAt z 8 8) (hgen : gen = leAt z 16 1)
    (hlead : lead = leAt z 17 1) (hc : (biasLoadCheck e.desc).Gives e s0 () s0) (hbusy : s0.biasBusy e.run = false)
    (hh : (load src 64).Gives e s0 h s1) (hheads : heads = leAt h 0 1) (h1 : 1 ≤ heads) (h48 : heads ≤ 48)
    (hi : (load src (64 + 8192 * heads)).Gives e s1 img s2) (hcrc : leAt img 4 4 = crc32 (img.drop 64))
    (hnew : gen ≠ s2.fld biasStatusGen)
    (htarget : target = (if s2.cueNo < e.epoch + lead then e.epoch + lead else s2.cueNo + 1))
    (hv : v = (List.range 8).foldl (fun (t : State) q => t.sramFresh (sramBias q (1 - s2.bias.front)) 0x80000)
      ({ s2 with bias := { s2.bias with standby := some (gen, target, heads, img) } } : State)) :
    biasLoadWork.Gives e s0 (done stOk (target % 2 ^ 32)) ((v.setFld biasStatusPendingGen gen).setFlag biasStatusPending true) := by
  subst hz hsrc hgen hlead hheads htarget hv
  unfold biasLoadWork
  refine gives_read (gives_bind hc (gives_get ?_))
  rw [if_neg (by simp [hbusy])]
  refine gives_bind hh ?_
  refine gives_require (Bool.and_eq_true_iff.2 ⟨decide_eq_true h1, decide_eq_true h48⟩) ?_
  refine gives_bind hi (gives_get ?_)
  refine gives_require (Bool.and_eq_true_iff.2 ⟨beq_iff_eq.2 hcrc, bne_iff_ne.2 hnew⟩) ?_
  exact gives_set (gives_pure _)

end BiasLoad

/-! ### FN_LOAD -/

section FnLoad
variable {s0 s1 s2 w x : State} {src gen len id : Nat} {img : List Byte} {left : List Nat}

/-- The load up to the writing of the tiles, whatever then follows. -/
theorem fnLoadWork_on {res : Except Stop Done × State} (hno : s0.fnLoadingBy e.run e.item = none)
    (hc : (fnLoadCheck e.desc).Gives e s0 () s0)
    (hsrc : src = leAt e.desc 32 8) (hgen : gen = leAt e.desc 40 1) (hbusy : s0.fnBusy e.run = false)
    (hlen : (loadNat src 4).Gives e s0 len s1) (h1 : 1088 ≤ len) (h2 : len ≤ 65536) (h3 : len % 16 = 0)
    (hi : (load src len).Gives e s1 img s2) (hok : fnImageOk img = true)
    (hnew : ∀ b ∈ s2.servingTiles, s2.fnGenOf (s2.fnHeld b 0) ≠ gen ∧ s2.fnGenOf (s2.fnHeld b 1) ≠ gen)
    (hid : id = s2.fn.nextImage)
    (hw : (w, left) = ({ s2 with fn := { s2.fn with
      images := cellPut s2.fn.images id (some { gen := gen, run := e.run, source := src, bytes := img }),
      nextImage := id + 1 } } : State).fnWriteTiles id s2.servingTiles)
    (hx : x = (w.setFld fnStatusLoadGen gen).setFlag fnStatusLoading true)
    (hres : (if left.isEmpty = true then set x.fnLoadEnd >>= fun _ => pure done else
      set (({ x with fn := { x.fn with loading := some (e.run, e.item, id, left) } } : State).setFlag fnStatusWaiting true) >>=
        fun _ => throw .hold : ItemM Done).on e s2 = res) : fnLoadWork.on e s0 = res := by
  subst hsrc hgen hid hx
  have fresh : (fnImageOk img && !(s2.servingTiles.any fun t => s2.fnGenOf (s2.fnHeld t 0) == leAt e.desc 40 1 ||
      s2.fnGenOf (s2.fnHeld t 1) == leAt e.desc 40 1)) = true := by
    simpa [hok] using hnew
  have sized : (decide (1088 ≤ len) && decide (len ≤ 65536) && decide (len % 16 = 0)) = true := by simp [h1, h2, h3]
  unfold fnLoadWork
  rw [on_read_bind, on_get_bind, hno, if_neg (by decide), on_bind_ok hc, on_pay_bind, on_pay_bind, on_get_bind,
    if_neg (by simp [hbusy]), on_bind_ok hlen, on_require_bind _ sized, on_bind_ok hi, on_get_bind, on_require_bind _ fresh]
  dsimp only
  rw [← hw]
  exact hres

end FnLoad

/-- A tile that a load waits for is written once a buffer of it is free; with the last the load ends. -/
theorem fnResume_written {tile b id : Nat} {left : List Nat} (hl : s.fn.loading = some (run, item, id, left)) (ht : tile ∈ left)
    (hf : s.fnFree tile = some b) : s.fnResume tile = if (dropVal tile left).isEmpty = true then
      ((s.fnPut tile b id).fnLoadEnd.noteCycles run item 0).closeItem run item stOk 0
      else { s.fnPut tile b id with fn := { (s.fnPut tile b id).fn with loading := some (run, item, id, dropVal tile left) } } := by
  have there : left.contains tile = true := by simpa using ht
  unfold State.fnResume
  rw [hl, hf]
  dsimp only
  rw [there, if_pos rfl]

/-- Settles O26: each load is its pieces in order; one that must wait holds its item until the last tile is written. -/
theorem biasAndFunctionTablesLoad : Obligations.BiasAndFunctionTablesLoad := by
  unfold Obligations.BiasAndFunctionTablesLoad
  refine ⟨?_, ?_, ?_⟩
  · rintro s s0 s1 s2 v u run item src gen lead heads target r e z h img hr rfl rfl hz hsrc hgen hlead hc hbusy hh hheads h1 h48 hi
      hcrc hnew htarget hv rfl hu
    have pending : (State.setFlag (v.setFld biasStatusPendingGen gen) biasStatusPending true).bias.standby =
        some (gen, target, heads, img) := by
      show v.bias.standby = _
      rw [hv, bias_sramFresh_foldl]
    exact ⟨⟨_, rfl, okEnd_of_gives hr hu
      (biasLoadWork_gives hz hsrc hgen hlead hc hbusy hh hheads h1 h48 hi hcrc hnew htarget hv)⟩,
      fun c => ⟨biasSwitch_due pending, biasSwitch_early pending⟩⟩
  · rintro s s0 s1 s2 w x run item src gen len id r e img left hr rfl rfl hno hc hsrc hgen hbusy hlen h1 h2 h3 hi hok hnew hid hw hx
    have loads : ∀ {res}, _ → fnLoadWork.on (r.env s item) (s.beginItem run item) = res := fun {_} =>
      fnLoadWork_on hno hc hsrc hgen hbusy hlen h1 h2 h3 hi hok hnew hid hw hx
    constructor
    · rintro hleft hu
      refine ⟨_, rfl, okEnd_of_gives hr hu (loads ?_)⟩
      rw [hleft]
      rfl
    · intro hleft
      refine congrArg Host.Outcome.next (runItem_holds hr (loads ?_))
      rw [if_neg (by simpa using hleft)]
      rfl
  · rintro s tile b run item id left hl ht hf
    constructor
    · intro hleft
      refine congrArg Host.Outcome.next ((fnResume_written hl ht hf).trans ?_)
      rw [if_neg (by simpa using hleft)]
    · rintro hleft hack hopen hcls
      refine ⟨_, congrArg Host.Outcome.next (fnResume_written hl ht hf), ?_⟩
      rw [hleft]
      refine closeItem_ends (by decide) hack hopen fun q hq => ?_
      rw [hcls q hq]
      decide

end Sys2Proof.Machine
end

