-- ==== Sys2Proof/Proofs/VectorItems.lean ====
section
/-! SUPPORT. Items of the vector class, each by the pieces of its work in turn (R204 to R226). -/
namespace Sys2Proof.Machine

variable {e : ItemEnv} {s s0 s1 s2 s3 s4 u : State} {tile v : Nat} {x : Item}

/-- A piece chosen by `c`: either gives the value that what follows works on. -/
theorem gives_choice {α β : Type} {c : Prop} [Decidable c] {m n : ItemM α} {k : α → ItemM β} {a : α} {b : β} {t : State}
    (hm : c → m.Gives e s a t) (hn : ¬c → n.Gives e s a t) (hk : (k a).Gives e t b u) :
    (if c then m >>= k else n >>= k).Gives e s b u := by
  split
  · next h => exact gives_bind (hm h) hk
  · next h => exact gives_bind (hn h) hk

/-- How an item that reports rows says its end. -/
abbrev rowsDone (x : Item) (prec : Bool) (v cycles : Nat) : Done :=
  done (if x.prec.denied = 0 then stOk else stDegraded) (if prec then x.prec.detail else v) cycles

/-- What `VPROG` does before its rows, whatever then follows. -/
theorem vprogWork_gives {d : Done} {gen : Nat} {p : VpPay} {c : VpCtx} (hp : p = vpPay e.desc) (ht : tile = itemTile e.desc e.item)
    (hgen : boundGen.Gives e s0 gen s0) (hc : (vpPayCheck e.desc).Gives e s0 () s0) (hr : (vpRead p tile).Gives e s0 c s1)
    (hv : (vpCheck c tile gen e.count (s1.flag (ctxArithCompat e.ctx))).Gives e s1 () s1) (hno : c.prec = false → s2 = s1)
    (hyes : c.prec = true →
      (modifyItem fun x => { x with noted := cellPut x.noted nkPrec (some [1]) }).Gives e s1 () s2)
    (hpl : (vPlanned c tile e.item).Gives e s2 () s2) (hf : (fnReadable c tile gen).Gives e s2 () s3)
    (hpair : p.pair = true → (pairSquare c tile e.item gen (e.item / ceilDiv c.pair.cols 128)
          (e.item % ceilDiv c.pair.cols 128) >>= fun sq =>
        storeSquare c.pair (e.item / ceilDiv c.pair.cols 128) (e.item % ceilDiv c.pair.cols 128) sq >>= fun _ =>
        doneRows c.prec p.rows (vpCycles c 128)).Gives e s3 d u)
    (hrows : p.pair = false → (runTime p.shapeEn tile p.shape p.rows >>= fun v => vRows c tile e.item gen v 0 >>= fun _ =>
        doneRows c.prec v (vpCycles c v)).Gives e s3 d u) : vprogWork.Gives e s0 d u := by
  subst hp ht
  unfold vprogWork
  refine gives_read (gives_bind hgen (gives_bind hc (gives_bind hr (gives_get (gives_bind hv ?_)))))
  refine gives_optional (t := s2) hyes (fun h => hno (by simpa using h)) ?_
  refine gives_bind hpl (gives_bind hf ?_)
  by_cases h : (vpPay e.desc).pair = true
  · rw [if_pos h]
    exact hpair h
  · rw [if_neg h]
    exact hrows (by simpa using h)

theorem rowWork_gives {p : RowPay} {g : List FVal} (hp : p = rowPay e.desc) (ht : tile = itemTile e.desc e.item)
    (hc : (rowCheck e.desc).Gives e s0 () s0) (hpl : (rowPlanned p tile e.item).Gives e s0 () s0)
    (hv : (runTime p.shapeEn tile p.shape p.m).Gives e s0 v s1)
    (hg : p.gammaEn = true → (readRow p.g tile e.item 0 p.n 0).Gives e s1 g s2)
    (hno : p.gammaEn = false → g = List.replicate p.n (FVal.ofNat 1) ∧ s2 = s1)
    (hrows : (rowsOf p tile e.item g v 0).Gives e s2 () u) (hx : u.itemOf e.run e.item = some x) :
    rowWork.Gives e s0 (rowsDone x (precFmt p.y.fmt) v (rowCycles p v)) u := by
  subst hp ht
  unfold rowWork
  refine gives_read (gives_bind hc (gives_bind hpl (gives_bind hv ?_)))
  refine gives_choice (a := g) (t := s2) hg (fun h => ?_) (gives_bind hrows (doneRows_gives hx))
  obtain ⟨rfl, rfl⟩ := hno (by simpa using h)
  exact gives_pure _

/-- Settles O27: each work is its pieces in order. -/
theorem vectorItemsEnd : Obligations.VectorItemsEnd := by
  unfold Obligations.VectorItemsEnd
  refine ⟨?_, ?_, ?_⟩
  · rintro s s0 s1 s2 s3 u run item tile r e p c hr rfl rfl rfl rfl hu hgen hc hread hv hno hyes hpl hf
    constructor
    · rintro v s4 hpair hrt hrows
      exact ⟨_, rfl, rowsEnd_of_gives hr hu fun x hx => vprogWork_gives rfl rfl hgen hc hread hv hno hyes hpl hf
        (fun h => absurd (hpair.symm.trans h) (by decide)) fun _ => gives_bind hrt (gives_bind hrows (doneRows_gives hx))⟩
    · rintro s4 b sq hpair rfl hsq hst
      exact ⟨_, rfl, rowsEnd_of_gives hr hu fun x hx => vprogWork_gives rfl rfl hgen hc hread hv hno hyes hpl hf
        (fun _ => gives_bind hsq (gives_bind hst (doneRows_gives hx))) fun h => absurd (hpair.symm.trans h) (by decide)⟩
  · rintro s s0 s1 s2 u run item op tile v r e p g hr rfl rfl hp ht hu hc hpl hv hg hno hrows
    refine ⟨s.runItem 3 op rowWork run item,
      rowsEnd_of_gives hr hu fun x hx => rowWork_gives hp ht hc hpl hv hg hno hrows hx, ?_, ?_, ?_, ?_⟩
    all_goals rintro rfl; rfl
  · rintro s s0 s1 u run item tile v r e p hr rfl rfl rfl rfl hu hc hpl hv hrows
    refine ⟨_, rfl, runItem_gives (d := done stOk v _) hr (by decide) (by decide) ?_ (show stOk < 16 by decide) hu⟩
    unfold attnMergeWork
    exact gives_read (gives_bind hc (gives_bind hpl (gives_bind hv (gives_bind hrows (gives_pure _)))))

end Sys2Proof.Machine
end

