-- ==== Sys2Proof/Proofs/ConvolutionItems.lean ====
section
/-! SUPPORT. Items of the convolution class, each by the pieces of its work in turn (R234 to R247). -/
namespace Sys2Proof.Machine

variable {e : ItemEnv} {s s0 s1 s2 s3 s4 s5 u : State} {tile : Nat} {p : ConvPay} {dt : ConvDim}

theorem convWork_gives {lf : Option LaneFault} {xs kernel old : List (List FVal)} (hp : p = convPay e.desc)
    (ht : tile = itemTile e.desc e.item) (hc : (convCheck e.desc).Gives e s0 () s0)
    (hpl : (convPlanned p tile e.item).Gives e s0 () s0) (hd : (convFrames p tile).Gives e s0 dt s1)
    (hx : (tensorRows p.xT dt.n fun k => readRow p.x tile e.item k p.xT.len 0).Gives e s1 xs s2)
    (hk : (readRows p.k tile e.item p.kLen 0 p.cout).Gives e s2 kernel s3)
    (hacc : p.acc = true → (tensorRows p.yT dt.out fun k => readRow p.y tile e.item k p.yT.len 0).Gives e s3 old s4)
    (hno : p.acc = false → old = [] ∧ s4 = s3) (hl : (laneCheck tile lf).Gives e s4 () s5)
    (hdirect : p.wino = false → (writeTensor p tile e.item dt.out (p.outAt ((directOut p dt xs old kernel).map Prod.fst))).Gives e
      (s5.countSkips ((directOut p dt xs old kernel).foldl (fun a x => a + x.2) 0)) () u)
    (hwino : p.wino = true → (writeTensor p tile e.item dt.out
        (p.winoAt dt.out ((winoTiles p dt xs kernel).map Prod.fst) old)).Gives e
      (s5.countSkips ((winoTiles p dt xs kernel).foldl (fun a x => a + x.2) 0)) () u) :
    (convWork lf).Gives e s0 (done stOk 0 (convCycles p dt.out)) u := by
  subst hp ht
  unfold convWork
  refine gives_read (gives_bind hc (gives_bind hpl (gives_bind hd (gives_bind hx (gives_bind hk ?_)))))
  refine gives_choice (a := old) (t := s4) hacc (fun h => ?_) (gives_bind hl ?_)
  · obtain ⟨rfl, rfl⟩ := hno (by simpa using h)
    exact gives_pure _
  · by_cases h : (convPay e.desc).wino = true
    · rw [if_pos h]
      exact gives_modify (gives_bind (hwino h) (gives_pure _))
    · rw [if_neg h]
      exact gives_modify (gives_bind (hdirect (by simpa using h)) (gives_pure _))

/-- Settles O28: each work is its pieces in order. -/
theorem convolutionItemsEnd : Obligations.ConvolutionItemsEnd := by
  unfold Obligations.ConvolutionItemsEnd
  constructor
  · rintro s s0 s1 u run item tile r e p dt rfl rfl rfl rfl hu hc hpl hd
    refine ⟨?_, ?_, ?_⟩
    · rintro lf s2 s3 s4 s5 xs kernel old hr hx hk hacc hno hl hdirect hwino
      exact ⟨_, rfl, okEnd_of_gives hr hu (convWork_gives rfl rfl hc hpl hd hx hk hacc hno hl hdirect hwino)⟩
    · rintro w s2 s3 xs hr rfl hx hy hw
      refine ⟨_, rfl, okEnd_of_gives hr hu ?_⟩
      unfold convPatchWork
      exact gives_read (gives_bind hc (gives_bind hpl (gives_bind hd (gives_bind hx (gives_bind hy (gives_bind hw
        (gives_pure _)))))))
    · rintro s2 s3 xs hr hx hy hw
      refine ⟨_, rfl, okEnd_of_gives hr hu ?_⟩
      unfold poolWork
      exact gives_read (gives_bind hc (gives_bind hpl (gives_bind hd (gives_bind hx (gives_bind hy (gives_bind hw
        (gives_pure _)))))))
  · rintro s s0 s1 s2 s3 u run item tile v r e p rfl rfl rfl rfl hv hu
    constructor
    · rintro ds as hr hc hds has hst
      refine ⟨_, rfl, okEnd_of_gives hr hu ?_⟩
      unfold boxDecodeWork
      exact gives_read (gives_bind hc (gives_bind hv (gives_bind hds (gives_bind has (gives_bind hst (gives_pure _))))))
    · rintro bs sc cand kept hr hc hbs hsc rfl rfl hst
      refine ⟨_, rfl, okEnd_of_gives hr hu ?_⟩
      unfold boxNmsWork
      exact gives_read (gives_bind hc (gives_bind hv (gives_bind hbs (gives_bind hsc (gives_bind hst (gives_pure _))))))

end Sys2Proof.Machine
end

