-- ==== Sys2Proof/Proofs/TierItems.lean ====
section
/-! SUPPORT. Items of the tier class: granules, quotas, tile moves and fills (R270 to R279, R294). -/
namespace Sys2Proof.Machine

variable {e : ItemEnv} {s s0 s1 s2 u : State} {run item : Nat} {r : Run} {g : Granules}

/-! ### Granules and quotas -/

theorem requireManaged_gives (h : s.managed e.ring = true) : requireManaged.Gives e s () s :=
  gives_get (gives_read (gives_check h))

theorem payZero_gives {o n : Nat} (h : leAt e.desc (32 + o) n = 0) : (payZero o n).Gives e s () s :=
  gives_pay (gives_check (decide_eq_true h))

theorem payTail_gives {n : Nat} (h : leAt e.desc (32 + n) (96 - n) = 0) : (payTail n).Gives e s () s := payZero_gives h

theorem store_gives {a : Nat} {bs : List Byte} (h : s.WritableHere a bs.length) (hb : bs ≠ []) :
    (store a bs).Gives e s () (s.devWrite (addrKey a) bs) := store_on h hb

/-- The granules of a run after all were given one owner. -/
theorem owners_setOwners {o k : Nat} (ho : o ≠ 0) (hk : k < g.count) :
    cellGet 0 (s.setOwners g o).mem.owners (g.tier * 2 ^ 22 + g.first + k) = o := by
  show cellGet 0 (if o = 0 then _ else _) _ = o
  rw [if_neg ho, cellGet_write, List.length_replicate, if_pos (by omega), List.getD_eq_getElem _ _ (by simp; omega)]
  simp

/-- What a grant makes of the state. -/
def State.granted (s : State) (g : Granules) (c : Nat) : State := (s.setOwners g (1 + c)).bump (useFld g.tier c) g.count

theorem grantWork_gives {zero : Bool} (hg : (granuleItem true).Gives e s0 g s1) (hw : (ownerWords g).Gives e s1 () s2)
    (hz : leAt e.desc 40 1 = (if zero then 1 else 0)) (hfree : s2.granules g.tier g.first g.count = [])
    (hquota : s2.fld (useFld g.tier e.ctx) + g.count ≤ s2.fld (quotaFld g.tier e.ctx))
    (hopen : zero = true → s2.devShut (g.tier * 2 ^ 43 + g.first * 2 ^ 21) = false) :
    grantWork.Gives e s0 (done stOk ((s2.granted g e.ctx).fld (useFld g.tier e.ctx)) (64 + if zero then g.count * 32768 else 0))
      (if zero then (s2.granted g e.ctx).devZero (g.tier * 2 ^ 43 + g.first * 2 ^ 21) (g.count * 2 ^ 21) else s2.granted g e.ctx) := by
  unfold grantWork
  refine gives_bind hg (gives_bind hw (gives_get (gives_read (gives_pay ?_))))
  refine gives_require (by rw [hfree]; rfl) (gives_require (decide_eq_true hquota) ?_)
  have iff : leAt e.desc (32 + 8) 1 = 1 ↔ zero = true := by
    rw [show leAt e.desc (32 + 8) 1 = _ from hz]
    cases zero <;> decide
  simp only [iff]
  refine gives_optional (t := s2) (fun h => gives_check (by rw [hopen h]; rfl)) (fun _ => rfl) ?_
  exact gives_set (gives_pure _)

theorem releaseWork_gives (hg : (granuleItem false).Gives e s0 g s1) (hw : (ownerWords g).Gives e s1 () s2)
    (hall : (s2.granules g.tier g.first g.count).length = g.count)
    (hmine : ∀ x ∈ s2.granules g.tier g.first g.count, x.2 = 1 + e.ctx)
    (hu : u = (s2.setOwners g 0).setFld (useFld g.tier e.ctx) (s2.fld (useFld g.tier e.ctx) - g.count)) :
    releaseWork.Gives e s0 (done stOk (u.fld (useFld g.tier e.ctx)) 64) u := by
  subst hu
  unfold releaseWork
  refine gives_bind hg (gives_bind hw (gives_get (gives_read ?_)))
  refine gives_require (Bool.and_eq_true_iff.2 ⟨decide_eq_true hall, List.all_eq_true.2 fun x hx => beq_iff_eq.2 (hmine x hx)⟩) ?_
  exact gives_set (gives_get (gives_pure _))

/-- The 64-byte quota block of a context (R279). -/
def State.quotaBlock (s : State) (c : Nat) : List Byte :=
  leBytes 4 (s.fld (ctxQuotaHbmGranules c)) ++ leBytes 4 (s.fld (ctxUseHbmGranules c)) ++
    leBytes 4 (s.fld (ctxQuotaLpddrGranules c)) ++ leBytes 4 (s.fld (ctxUseLpddrGranules c)) ++
    leBytes 4 (s.fld (ctxQuotaFlashTiles c)) ++ leBytes 4 (s.fld (ctxUseFlashTiles c)) ++
    leBytes 4 (s.fld (ctxKvpagesLimit c)) ++ leBytes 4 (s.fld (ctxKvheldHeld c)) ++ leBytes 8 s.cueNo ++ leBytes 24 0

theorem quotaBlock_length (s : State) (c : Nat) : (s.quotaBlock c).length = 64 := by simp [State.quotaBlock, leBytes_length]

theorem quotaReadWork_gives {c a : Nat} (hc : c = leAt e.desc 32 1) (h64 : c < 64) (hm : c = e.ctx ∨ s.managed e.ring = true)
    (h7 : leAt e.desc 33 7 = 0) (h80 : leAt e.desc 48 80 = 0) (ha : a = leAt e.desc 40 8) (halign : a % 64 = 0)
    (hone : e.count = 1) (hw : s.WritableHere a 64) :
    quotaReadWork.Gives e s (done stOk 0 64) (s.devWrite (addrKey a) (s.quotaBlock c)) := by
  subst hc ha
  have len := quotaBlock_length s (leAt e.desc 32 1)
  unfold quotaReadWork
  refine gives_read (gives_pay ?_)
  refine gives_optional (t := s) (fun h => requireManaged_gives (hm.resolve_left h)) (fun _ => rfl) ?_
  refine gives_bind (payZero_gives h7) (gives_bind (payTail_gives h80) (gives_pay ?_))
  refine gives_require (by rw [decide_eq_true (show leAt e.desc 32 1 < 64 from h64),
    decide_eq_true (show leAt e.desc 40 8 % 64 = 0 from halign), decide_eq_true hone]; rfl) (gives_get ?_)
  exact gives_bind (store_gives (by rw [← len] at hw; exact hw) (by intro h; rw [State.quotaBlock, h] at len; cases len)) (gives_pure _)

/-! ### Moves and fills -/

section Copies
variable {src dst : Place} {len st : Nat} {bs : List Byte}

theorem copyRange_sram_gives {k : Nat} (hst : itemStage.Gives e s0 st s0) (h3 : st ≠ 3)
    (hr : (readPlace src len).Gives e s0 (bs, false) s1) (hw : (sramStore k bs).Gives e s1 () u) :
    (copyRange src (.sram k) len).Gives e s0 (done stOk (moveLines bs.length) (256 + bs.length / 64)) u := by
  unfold copyRange
  refine gives_read (gives_get (gives_bind hst ?_))
  rw [if_neg h3]
  exact gives_bind hr (gives_bind hw (gives_pure _))

theorem copyRange_mem_gives {a : Nat} (hst : itemStage.Gives e s0 st s0) (h3 : st ≠ 3)
    (hr : (readPlace src len).Gives e s0 (bs, false) s1) (hw : (storeAt a bs).Gives e s1 () u) :
    (copyRange src (.mem a) len).Gives e s0 (done stOk (moveLines bs.length) (256 + bs.length / 64)) u := by
  unfold copyRange
  refine gives_read (gives_get (gives_bind hst ?_))
  rw [if_neg h3]
  exact gives_bind hr (gives_bind hw (gives_pure _))

theorem copyRange_otherFlash_gives {a : Nat} (hst : itemStage.Gives e s0 st s0) (h3 : st ≠ 3)
    (ho : s0.isOwn (addrMember a) = false) (hr : (readPlace src len).Gives e s0 (bs, false) s1)
    (hw : (storeAt a bs).Gives e s1 () u) :
    (copyRange src (.flash a) len).Gives e s0 (done stOk (moveLines len) (256 + len / 64)) u := by
  unfold copyRange
  refine gives_read (gives_get (gives_bind hst ?_))
  rw [if_neg h3]
  dsimp only
  rw [if_neg (by simp [ho])]
  exact gives_bind hr (gives_bind hw (gives_pure _))

theorem copyRange_ownFlash_holds {a : Nat} {tiles : List Nat} (hst : itemStage.Gives e s0 st s0) (h3 : st ≠ 3)
    (ho : s0.isOwn (addrMember a) = true) (ht : s0.flashRange e.ctx (addrOff a) len = some tiles)
    (hq : st = 0 → s0.flashQuota e.ctx tiles = true) (hj : (joinBatch tiles).Gives e s0 () s1)
    (hr : (readPlace src len).Gives e s1 (bs, false) s2) :
    (copyRange src (.flash a) len).Holds e s0
      ((s2.giveData e.run e.item bs).onItem e.run e.item fun x => { x with stage := 3 }) := by
  have staged : ∀ t : State, (modifyItem fun x => { x with stage := 3 }).Gives e t ()
      (t.onItem e.run e.item fun x => { x with stage := 3 }) := fun _ => rfl
  have rest := holds_bind (k := fun _ => readPlace src len >>= fun x =>
    if x.2 = true then pure (done stUncorrectable 0 0) else modify (fun s => s.giveData e.run e.item x.1) >>= fun _ =>
      modifyItem (fun x => { x with stage := 3 }) >>= fun _ => throw .hold) hj
    (holds_bind hr (holds_modify (holds_bind (staged _) holds_throw)))
  unfold copyRange
  refine holds_read (holds_get (holds_bind hst ?_))
  rw [if_neg h3]
  dsimp only
  rw [if_pos ho, ht]
  dsimp only
  by_cases h0 : st = 0
  · rw [if_pos h0]
    exact holds_require (hq h0) rest
  · rw [if_neg h0]
    exact rest

/-- A move up to its copy, whatever that comes to. -/
theorem tileMoveWork_on {res : Except Stop Done × State} {z : List Byte} (hz : z = payloadOf e.desc) (hlen : len = leAt z 4 1 * 65536)
    (hc : (moveCheck false).Gives e s0 () s0) (hrs : (endAddr ((z.drop 8).take 16) e.item (leAt z 40 8)).any regTier = false)
    (hrd : (endAddr ((z.drop 24).take 16) e.item (leAt z 48 8)).any regTier = false)
    (hs : endPlace ((z.drop 8).take 16) e.item (leAt z 40 8) len = some src)
    (hd : endPlace ((z.drop 24).take 16) e.item (leAt z 48 8) len = some dst) (hm : s0.placesMeet len src dst = false)
    (hp : (placesCheck src dst len).Gives e s0 () s0) (hres : (copyRange src dst len).on e s0 = res) :
    tileMoveWork.on e s0 = res := by
  subst hz hlen
  unfold tileMoveWork
  rw [on_bind_ok hc, on_read_bind, on_require_bind _ (by rw [hrs, hrd]; rfl), hs, hd]
  dsimp only
  rw [on_get_bind, on_require_bind _ (by rw [hm]; rfl), on_bind_ok hp]
  exact hres

end Copies

/-- An item whose work ends well while acknowledgements of its writes are to come waits for them, with its status and DETAIL. -/
theorem acking_of_gives {cls op : Nat} {d : Done} {w : ItemM Done} (hr : s.itemReady cls op run item = some r)
    (hw : w.Gives (r.env s item) (s.beginItem run item) d u) (ho : u.itemOpen run item = true)
    (hack : u.waitsAck run item = true) (hs : d.status < 16) :
    (s.runItem cls op w run item).phaseOf run item = some (.acking d.status d.detail) ∧
      (s.runItem cls op w run item).mem = u.mem := by
  have ended : s.runItem cls op w run item = (u.noteCycles run item d.cycles).onItem run item
      (fun x => if x.hasEnded then x else { x with phase := .acking d.status d.detail }) := by
    unfold ItemM.Gives at hw
    unfold State.runItem
    rw [hr]
    dsimp only
    rw [hw]
    unfold settle
    dsimp only
    rw [Run.env_run, Run.env_item, itemReady_id hr]
    unfold State.closeItem
    exact if_pos (Bool.and_eq_true_iff.2 ⟨decide_eq_true hs, hack⟩)
  obtain ⟨x, hx, he⟩ := itemOpen_iff.1 ho
  rw [ended]
  refine ⟨?_, rfl⟩
  have noted : (u.noteCycles run item d.cycles).itemOf run item = some { x with cycles := u.cyclesOf d.cycles } := by
    refine (itemOf_onItem u run item run item (fun x => { x with cycles := u.cyclesOf d.cycles }) (fun _ => rfl)).trans ?_
    rw [hx, if_pos ⟨rfl, rfl⟩]
    rfl
  unfold State.phaseOf
  rw [itemOf_onItem _ run item run item _ (fun y => by split <;> rfl), noted, if_pos ⟨rfl, rfl⟩]
  show some (Item.phase (if ({ x with cycles := u.cyclesOf d.cycles } : Item).hasEnded = true then _ else _)) = _
  rw [if_neg (by show ¬ x.hasEnded = true; simp [he])]

/-- Settles O29: granules, quotas, moves and fills, each by the pieces of its work. -/
theorem tierItemsEnd : Obligations.TierItemsEnd := by
  unfold Obligations.TierItemsEnd
  refine ⟨⟨?_, ?_⟩, ?_⟩
  · rintro s s0 s1 s2 u run item r e g rfl rfl hw hu
    constructor
    · rintro zero hr hg hz hfree hquota hopen rfl
      have ends := okEnd_of_gives hr hu (grantWork_gives hg hw hz hfree hquota hopen)
      refine ⟨_, rfl, ends, fun k hk => ?_⟩
      rw [show (s.runItem 5 0 grantWork run item).mem = _ from ends.mem]
      cases zero <;> exact owners_setOwners (by omega) hk
    · rintro hr hg hall hmine hu'
      exact ⟨_, rfl, okEnd_of_gives hr hu (releaseWork_gives hg hw hall hmine hu')⟩
  · rintro s run item c a r hr hq hc h64 hm h7 h80 ha halign h0 hw
    refine ⟨_, rfl, readyItem_gives hr (quotaReadWork_gives (e := r.env s item) (s := s.beginItem run item) hc h64 hm h7 h80 ha halign
      (congrArg (· + 1) h0) hw) hq rfl⟩
  · rintro s s0 run item len r e z rfl rfl hz hlen
    constructor
    · rintro u bs src dst st hr hc hrs hrd hs hd hm hp hst h3
      have moves : ∀ {res}, _ → tileMoveWork.on (r.env s item) (s.beginItem run item) = res := fun {_} =>
        tileMoveWork_on hz hlen hc hrs hrd hs hd hm hp
      refine ⟨?_, ?_, ?_, ?_⟩
      · rintro k s1 rfl hu hread hw
        exact ⟨_, rfl, okEnd_of_gives hr hu (moves (copyRange_sram_gives hst h3 hread hw))⟩
      · rintro a s1 rfl ho hread hw hopen hack
        exact ⟨_, rfl, acking_of_gives hr (moves (copyRange_otherFlash_gives hst h3 ho hread hw)) hopen hack (show stOk < 16 by decide)⟩
      · rintro a s1 rfl hu hread hw
        exact ⟨_, rfl, okEnd_of_gives hr hu (moves (copyRange_mem_gives hst h3 hread hw))⟩
      · rintro a tiles s1 s2 rfl ho ht hq hj hread
        exact congrArg Host.Outcome.next
          (runItem_holds hr (moves (copyRange_ownFlash_holds hst h3 ho ht hq hj hread)))
    · rintro u bs dst hr hu hc hrd hd rfl hdst
      subst hz hlen
      refine ⟨_, rfl, okEnd_of_gives hr hu ?_⟩
      unfold tileFillWork
      refine gives_bind hc (gives_read (gives_require (by rw [Run.env_desc, Run.env_item, hrd]; rfl) ?_))
      rw [Run.env_desc, Run.env_item, hd]
      rcases hdst with ⟨k, rfl, hw⟩ | ⟨a, rfl, hpc, hpr, hw⟩
      · exact gives_bind hw (gives_pure _)
      · exact gives_bind hpc (gives_bind hpr (gives_bind hw (gives_pure _)))

end Sys2Proof.Machine
end

