-- ==== Sys2Proof/Proofs/FlashItems.lean ====
section
/-! SUPPORT. Items of the flash and prompt book class (R286 to R306). -/
namespace Sys2Proof.Machine

variable {e : ItemEnv} {s s0 s1 s2 t u : State} {run item : Nat} {r : Run}

/-! ### Trims -/

theorem flTrimWork_holds {list ent a n st : Nat} (hz : leAt e.desc 40 88 = 0) (hst : itemStage.Gives e s0 st s0) (h3 : st ≠ 3)
    (hl : list = leAt e.desc 32 8) (h8 : list % 8 = 0)
    (hent : (once 0 do return [← loadNat (list + 8 * e.item) 8]).Gives e s0 [ent] s1) (ht : trimRange s1 e.ctx ent = some (a, n))
    (hj : (joinBatch []).Gives e s1 () s2) :
    flTrimWork.Holds e s0 (({ s2 with flash := { s2.flash with
      trims := s2.flash.trims ++ [(e.run, e.item, a, n)] } } : State).onItem e.run e.item fun x => { x with stage := 3 }) := by
  subst hl
  unfold flTrimWork
  refine holds_bind (payTail_gives hz) (holds_read (holds_bind hst ?_))
  rw [if_neg h3]
  refine holds_pay (holds_require (decide_eq_true h8) (holds_bind hent (holds_get ?_)))
  rw [show ([ent].headD 0) = ent from rfl, ht]
  dsimp only
  exact holds_bind hj (holds_modify (holds_bind rfl holds_throw))

/-! ### Map commits -/

/-- What a change of the flash's own tables leaves as it is. -/
structure FlashOnly (s t : State) : Prop where
  runs : t.runs = s.runs
  fab : t.fab = s.fab
  inbound : t.flash.inbound = s.flash.inbound

theorem FlashOnly.refl (s : State) : FlashOnly s s := ⟨rfl, rfl, rfl⟩

theorem FlashOnly.foldl {α : Type} {f : State → α → State} (hf : ∀ s a, FlashOnly s (f s a)) (l : List α) (s : State) :
    FlashOnly s (l.foldl f s) := by
  induction l generalizing s with
  | nil => exact .refl s
  | cons a l ih =>
    have h1 := hf s a
    have h2 := ih (f s a)
    exact ⟨h2.runs.trans h1.runs, h2.fab.trans h1.fab, h2.inbound.trans h1.inbound⟩

theorem commitProgram_flashOnly (s : State) (p : Program) : FlashOnly s (s.commitProgram p) := by
  unfold State.commitProgram
  by_cases h : (s.tileOwner p.tile).isNone = true
  · rw [if_pos h]
    exact ⟨rfl, rfl, rfl⟩
  · rw [if_neg h]
    exact ⟨rfl, rfl, rfl⟩

theorem unmapTile_flashOnly (s : State) (n : Nat) : FlashOnly s (s.unmapTile n) := by
  unfold State.unmapTile
  split
  · exact .refl s
  · exact ⟨rfl, rfl, rfl⟩

theorem ackInbound_of_none (h : ∀ x ∈ s.flash.inbound, remoteRun x.id ≠ run) : s.ackInbound run = s := by
  have none : s.flash.inbound.filter (fun x => remoteRun x.id == run) = [] :=
    List.filter_eq_nil_iff.2 fun x hx => by simpa using h x hx
  have all : s.flash.inbound.filter (fun x => remoteRun x.id != run) = s.flash.inbound :=
    List.filter_eq_self.2 fun x hx => by simpa using h x hx
  unfold State.ackInbound
  rw [none, all]
  rfl

/-- An item of the flash classes, ended by a map commit that changed the flash's tables only. -/
theorem commitEnds {st dt cy : Nat} (h : FlashOnly s t) (ho : s.itemOpen run item = true) (hq : s.waitsAck run item = false)
    (hc : ∀ q, s.findRun run = some q → hdrClass q.desc.bytes = 5 ∨ hdrClass q.desc.bytes = 6) (hs : st < 16) :
    ItemEnds t ((t.noteCycles run item cy).closeItem run item st dt) run item st dt cy := by
  refine closeItem_ends hs ?_ ?_ fun q hq' => ?_
  · unfold State.waitsAck
    rw [h.fab]
    exact hq
  · obtain ⟨x, hx, he⟩ := itemOpen_iff.1 ho
    exact itemOpen_iff.2 ⟨x, by rw [itemOf_congr h.runs]; exact hx, he⟩
  · have := hc q (by unfold State.findRun at *; rw [← h.runs]; exact hq')
    omega

/-- What an item's commit takes from the flash's queues. -/
def State.uncommitted (s : State) (run item : Nat) : State :=
  { s with flash := { s.flash with
    programs := (s.flash.programs.filter fun p => !(p.run == run && p.item == item)),
    trims := s.flash.trims.filter fun x => !(x.1 == run && x.2.1 == item) } }

theorem mapCommit_programs {ps : List Program} (hps : ps = s.flash.programs.filter (fun p => p.run == run && p.item == item))
    (hts : s.flash.trims.filter (fun x => x.1 == run && x.2.1 == item) = []) (hall : ∀ p ∈ ps, p.block ≠ none ∧ p.data ≠ none)
    (hin : ∀ x ∈ s.flash.inbound, remoteRun x.id ≠ run) (hne : ps ≠ []) :
    s.mapCommit run item = ((ps.foldl State.commitProgram (s.uncommitted run item)).noteCycles run item
      (256 + 1024 * ps.length)).closeItem run item stOk (moveLines (65536 * ps.length)) := by
  have ready : (ps.any fun p => p.block.isNone || p.data.isNone) = false :=
    List.any_eq_false.2 fun p hp => by
      obtain ⟨h1, h2⟩ := hall p hp
      simp [h1, h2]
  have full : ps.isEmpty = false := by simpa using hne
  have quiet : (ps.foldl State.commitProgram (s.uncommitted run item)).ackInbound run =
      ps.foldl State.commitProgram (s.uncommitted run item) :=
    ackInbound_of_none (by rw [(FlashOnly.foldl commitProgram_flashOnly ps _).inbound]; exact hin)
  unfold State.mapCommit
  rw [← hps, show (s.flash.trims.filter fun (r, i, _, _) => r == run && i == item) = [] from hts]
  dsimp only
  rw [if_neg (by rw [full, ready]; decide), if_neg (by rw [full]; decide)]
  show (((ps.foldl State.commitProgram (s.uncommitted run item)).ackInbound run).noteCycles run item
    (256 + 1024 * ps.length)).closeItem run item stOk (moveLines (65536 * ps.length)) = _
  rw [quiet]

theorem mapCommit_trim {a n : Nat} (hps : s.flash.programs.filter (fun p => p.run == run && p.item == item) = [])
    (hts : s.flash.trims.filter (fun x => x.1 == run && x.2.1 == item) = [(run, item, a, n)])
    (hin : ∀ x ∈ s.flash.inbound, remoteRun x.id ≠ run) :
    s.mapCommit run item = (((List.range n).foldl (fun v k => v.unmapTile (a + k)) (s.uncommitted run item)).noteCycles run item
      (64 + n / 64)).closeItem run item stOk 0 := by
  have quiet : ((List.range n).foldl (fun (v : State) k => v.unmapTile (a + k)) (s.uncommitted run item)).ackInbound run =
      (List.range n).foldl (fun v k => v.unmapTile (a + k)) (s.uncommitted run item) :=
    ackInbound_of_none (by
      rw [(FlashOnly.foldl (fun (v : State) k => unmapTile_flashOnly v (a + k)) (List.range n) _).inbound]
      exact hin)
  unfold State.mapCommit
  rw [hps, show (s.flash.trims.filter fun (r, i, _, _) => r == run && i == item) = [(run, item, a, n)] from hts]
  dsimp only
  rw [if_neg (fun h => Bool.noConfusion h), if_pos List.isEmpty_nil]
  show ((((List.range n).foldl (fun (v : State) k => v.unmapTile (a + k)) (s.uncommitted run item)).ackInbound run).noteCycles run item
    (64 + (0 + n) / 64)).closeItem run item stOk 0 = _
  rw [quiet, Nat.zero_add]

/-! ### Health and the prompt book -/

theorem healthBlock_length (s : State) : s.healthBlock.length = 64 := by simp [State.healthBlock, leBytes_length]

theorem flHealthWork_gives {a : Nat} (ha : a = leAt e.desc 32 8) (hz : leAt e.desc 40 88 = 0) (halign : a % 64 = 0)
    (hone : e.count = 1) (hw : s.WritableHere a 64) :
    flHealthWork.Gives e s (done stOk 0 64) (s.devWrite (addrKey a) s.healthBlock) := by
  subst ha
  have len := healthBlock_length s
  unfold flHealthWork
  refine gives_bind (payTail_gives hz) (gives_pay (gives_read ?_))
  refine gives_require (Bool.and_eq_true_iff.2 ⟨decide_eq_true halign, decide_eq_true hone⟩) (gives_get ?_)
  exact gives_bind (store_gives (by rw [len]; exact hw) (by intro h; rw [h] at len; cases len)) (gives_pure _)

theorem counter_raiseCounter (s : State) (n v : Nat) : min v (2 ^ 32 - 1) ≤ (s.raiseCounter n v).counter n := by
  have raised : (s.raiseCounter n v).counter n = min (max (s.counter n) v) (2 ^ 32 - 1) := by
    show cellGet 0 (cellSet 0 s.book.counters n _) n = _
    unfold cellSet
    rw [cellGet_write, if_pos (by simp)]
    simp
  rw [raised]
  omega

/-- Settles O30: trims, map commits, and the reads and writes of the prompt book. -/
theorem flashAndPromptBookItemsEnd : Obligations.FlashAndPromptBookItemsEnd := by
  unfold Obligations.FlashAndPromptBookItemsEnd
  refine ⟨⟨?_, ?_⟩, ?_, ?_⟩
  · rintro s s0 s1 s2 run item list ent a n st r e hr rfl rfl hz hst h3 hl h8 hent ht hj
    exact congrArg Host.Outcome.next (runItem_holds hr (flTrimWork_holds hz hst h3 hl h8 hent ht hj))
  · rintro s w run item ps ts hps hts rfl hall hin ho hq hc
    constructor
    · rintro hne rfl
      exact ⟨_, congrArg Host.Outcome.next (mapCommit_programs hps hts.symm hall hin hne),
        commitEnds (s := s.uncommitted run item) (FlashOnly.foldl commitProgram_flashOnly _ _) ho hq hc (by decide)⟩
    · rintro a n rfl rfl
      exact ⟨_, congrArg Host.Outcome.next (mapCommit_trim hps.symm hts.symm hin),
        commitEnds (s := s.uncommitted run item) (FlashOnly.foldl (fun v k => unmapTile_flashOnly v (a + k)) _ _) ho hq hc (by decide)⟩
  · rintro s run item a r hr hq ha hz halign h0 hw
    exact ⟨_, rfl, readyItem_gives hr (flHealthWork_gives (e := r.env s item) (s := s.beginItem run item) ha hz halign
      (congrArg (· + 1) h0) hw) hq rfl⟩
  · rintro s s0 u run item id a len r e rfl rfl ho hfree hu
    constructor
    · rintro hr hid hlen hst
      refine ⟨_, rfl, okEnd_of_gives hr hu ?_⟩
      unfold pbReadWork
      refine gives_bind ho (gives_require ?_ (gives_bind hfree (gives_get (gives_bind hst (gives_pure _)))))
      exact Bool.and_eq_true_iff.2 ⟨by simpa using hid, decide_eq_true hlen⟩
    · rintro s1 img hr hid hlen himg hok hu'
      have ends : ItemEnds u _ run item stOk 0 64 := okEnd_of_gives hr hu (w := pbWriteWork) (by
        unfold pbWriteWork
        refine gives_bind ho (gives_require (Bool.and_eq_true_iff.2 ⟨decide_eq_true hid, decide_eq_true hlen⟩) (gives_bind hfree
          (gives_bind himg (gives_get (gives_require (decide_eq_true hok) (gives_modify ?_))))))
        rw [← hu']
        exact gives_pure _)
      refine ⟨_, rfl, ends, ?_⟩
      unfold State.counter
      rw [ends.book, hu']
      exact counter_raiseCounter _ 1 _

end Sys2Proof.Machine
end

