-- ==== Sys2Proof/Proofs/PatrolCurtain.lean ====
section
/-! SUPPORT. The patrol's read of a third bad row of one LPDDR package: the package is confirmed and the device enters curtain,
which cancels what waits on the rings (R260, R442, Table 15.2). -/
namespace Sys2Proof.Machine

/-- A descriptor that waits on a ring, without a verdict. -/
def waitingNop : Fetched :=
  { index := 0, ring := 0, bytes := [], verdict := none, noFence := false, todo := [0], continuation := false, fallback := false,
    owner := none, since := 0, worst := 0, alsoFence := 0, order := 0, headCue := none, fenceWait := 0 }

/-- Three rows of package 0 have had uncorrectable data within the last 24 h, and one descriptor waits on ring 0. -/
def threeRows : State :=
  { State.reset.setFld ⟨rLpddrCfg, 0, 1⟩ 1 with
    rings := [(0, { Ring.init with fifo := [waitingNop] })]
    rel := { State.reset.rel with recent := [(⟨7, 0, 0⟩, 0), (⟨7, 0, 1⟩, 0), (⟨7, 0, 2⟩, 0)] } }

/-- Two bits in error in word 0 of a line, with nothing written since the read. -/
def twoBits : EccFinding := ⟨[⟨0, 0, 2, false⟩], false, false, 0⟩

/-- The first line of LPDDR. -/
def badLine : Nat := 0x80000000000

theorem badLine_lpddr : ¬badLine < 2 ^ 43 := by unfold badLine; norm_num

/-- It meets what the clause of the patrol asks of a state. -/
theorem threeRows_patrolled : threeRows.populated 1 (0 * 64) 64 = true ∧ threeRows.scrubHeld badLine = false ∧
    threeRows.mem.marked = [] ∧ threeRows.devBad badLine 64 = false ∧ threeRows.fld memerrLogBaseBase = 0 ∧
    threeRows.fld faultLogBaseBase = 0 := by decide +kernel

/-! ### The patrol's read of the line -/

/-- Nothing is corrected, in the words of the line and of its check line. -/
theorem meetWord_twoBits (t : State) (src : ErrSource) {j : Nat} (hj : j < 16) : t.meetWord src badLine twoBits.errors j = t := by
  interval_cases j <;> rfl

theorem words_twoBits (t : State) {j : Nat} (hj : j < 8) : (if badLine < 2 ^ 43 then [j] else [j, j + 8]).foldl
    (fun (x : State) i => x.meetWord x.scrubSource badLine twoBits.errors i) t = t := by
  rw [if_neg badLine_lpddr, List.foldl_cons, List.foldl_cons, List.foldl_nil, meetWord_twoBits _ _ (by omega),
    meetWord_twoBits _ _ (by omega)]

theorem patrolBad_twoBits {j : Nat} (hj : j < 8) : threeRows.patrolBad badLine twoBits.errors j = if j = 0 then [badLine] else [] := by
  interval_cases j <;> decide +kernel

/-- The line's first word is uncorrectable from now on. -/
def withBadWord : State := { threeRows with mem := { threeRows.mem with badDev := addVal badLine threeRows.mem.badDev } }

theorem patrolWord_first : threeRows.patrolWord badLine twoBits threeRows 0 =
    withBadWord.badDevRead withBadWord.scrubSource badLine := by
  unfold State.patrolWord
  rw [patrolBad_twoBits (by decide), words_twoBits _ (by decide), if_pos rfl]
  dsimp only
  rw [if_neg (show ¬twoBits.written = true from Bool.false_ne_true), if_neg (fun h => Bool.noConfusion h), Nat.mul_zero,
    Nat.add_zero, List.foldl_cons, List.foldl_nil]
  rfl

theorem patrolWord_rest (t : State) {j : Nat} (hj : j < 8) (h0 : j ≠ 0) : threeRows.patrolWord badLine twoBits t j = t := by
  unfold State.patrolWord
  rw [patrolBad_twoBits hj, words_twoBits _ hj, if_neg h0]
  rfl

theorem patrolLine_twoBits : threeRows.patrolLine badLine twoBits = withBadWord.badDevRead withBadWord.scrubSource badLine := by
  have rest : ∀ l : List Nat, (∀ j ∈ l, j < 8 ∧ j ≠ 0) → ∀ t, l.foldl (threeRows.patrolWord badLine twoBits) t = t := by
    intro l
    induction l with
    | nil => exact fun _ _ => rfl
    | cons j l ih =>
      intro h t
      obtain ⟨hj, h0⟩ := h j (by simp)
      rw [List.foldl_cons, patrolWord_rest t hj h0]
      exact ih (fun i hi => h i (by simp [hi])) t
  unfold State.patrolLine
  rw [if_neg badLine_lpddr, show List.range 8 = 0 :: [1, 2, 3, 4, 5, 6, 7] from rfl, List.foldl_cons, rest _ (by decide),
    patrolWord_first]

/-! ### The package confirmed -/

theorem length_addVal_le {α : Type} [DecidableEq α] (x : α) (l : List α) : l.length ≤ (addVal x l).length := by
  unfold addVal
  split
  · exact le_rfl
  · simp

/-- Uncorrectable rows of a unit's package within the last 24 h. -/
def State.recentRows (s : State) (u : UnitId) : List Nat :=
  ((s.rel.recent.filter fun (_, t) => decide (s.rel.poweredS ≤ t + 86400)).filter fun (v, _) => v.kind == 7 && v.unit == u.unit).map
    fun (v, _) => v.sub

/-- The package's row noted among the recent events. -/
def State.rowNoted (s : State) (u : UnitId) : State :=
  let lately := s.rel.recent.filter fun (_, t) => decide (s.rel.poweredS ≤ t + 86400)
  { s with rel := { s.rel with recent := (⟨7, u.unit, u.sub⟩, s.rel.poweredS) :: lately } }

/-- With three rows before, any further one confirms a package that is not confirmed. -/
theorem badPackageRow_confirms {s : State} {u : UnitId} (h3 : 3 ≤ ((s.recentRows u).foldl (fun a x => addVal x a) []).length)
    (hc : (s.unitClass ⟨7, u.unit, 0⟩).confirmed = false) : s.badPackageRow u = (s.rowNoted u).confirm ⟨7, u.unit, 0⟩ 2 0 [] :=
  if_pos (Bool.and_eq_true_iff.2 ⟨decide_eq_true (h3.trans (length_addVal_le u.sub _)), (congrArg not hc).trans rfl⟩)

/-- The read of the word, logged, and open at its row. -/
def readOnce : State :=
  (withBadWord.memErr (devBadType badLine) withBadWord.scrubSource (withBadWord.devPlace badLine 0)).openRead (devUnitId badLine) badLine

theorem badDevRead_confirms : withBadWord.badDevRead withBadWord.scrubSource badLine =
    (readOnce.rowNoted (devUnitId badLine)).confirm ⟨7, (devUnitId badLine).unit, 0⟩ 2 0 [] := by
  have row : (devUnitId badLine).kind = 6 := by unfold devUnitId; rw [if_neg badLine_lpddr]
  unfold State.badDevRead
  rw [if_pos row]
  exact badPackageRow_confirms (by decide +kernel) (by decide +kernel)

/-- The device enters curtain, and the descriptor that waits is to end without running. -/
theorem confirm_cancels : (withBadWord.badDevRead withBadWord.scrubSource badLine).rings ≠ threeRows.rings := by
  rw [badDevRead_confirms]
  decide +kernel

theorem rings_noteStuck (s : State) (key : Nat) (f : EccFinding) : (s.draw.noteStuck key f).rings = s.rings := rfl

theorem patrol_twoBits : (threeRows.patrol 1 0 twoBits).rings = (withBadWord.badDevRead withBadWord.scrubSource badLine).rings := by
  obtain ⟨hpop, hheld, -⟩ := threeRows_patrolled
  rw [← patrolLine_twoBits]
  unfold State.patrol
  rw [show 1 * 2 ^ 43 + 0 * 64 = badLine by unfold badLine; norm_num]
  dsimp only
  rw [hpop, hheld, if_neg (fun h => Bool.noConfusion h)]
  rw [rings_noteStuck]
  unfold State.noteOnDie
  rw [if_pos (show (decide (twoBits.onDie = 0) || decide (2 ^ 43 ≤ badLine)) = true from rfl)]

/-- Refutes O31: a patrol read that makes a third row of an LPDDR package uncorrectable takes the device to curtain, and what
waits on the rings is cancelled. -/
theorem not_memoriesKeptUp : ¬ Obligations.MemoriesKeptUp := by
  unfold Obligations.MemoriesKeptUp
  rintro ⟨-, -, patrol, -⟩
  obtain ⟨hpop, hheld, hmarked, hbad, hlog, hfault⟩ := threeRows_patrolled
  obtain ⟨t, ht, -, -, -, rings⟩ := (patrol threeRows 1 0 0 badLine false (by decide) hpop (by unfold badLine; norm_num) hheld hmarked
    hbad).2 0 0 rfl (by decide) rfl hlog hfault
  obtain rfl : threeRows.patrol 1 0 twoBits = t := Host.Outcome.next.inj ht
  exact confirm_cancels (patrol_twoBits.symm.trans rings)

end Sys2Proof.Machine
end

