-- ==== Sys2Proof/Proofs/FeedItems.lean ====
section
/-! SUPPORT. The feeds of the ingest path: their start, their stop, their status, and the clip order (R338 to R351). -/
namespace Sys2Proof.Machine

variable {e : ItemEnv} {s s0 s1 t u : State} {run item n : Nat} {r : Run} {f : Feed}

/-! ### Feeds by their number -/

theorem feed_setFeed (s : State) (n : Nat) (f : Feed) : (s.setFeed n f).feed n = f := by
  show (match cellFind n (cellPut s.media.feeds n (if f = Feed.idle then none else some f)) with
    | some f => f
    | none => Feed.idle) = f
  rw [cellFind_put_same]
  by_cases h : f = Feed.idle
  · rw [if_pos h, h]
  · rw [if_neg h]

theorem feed_congr (h : t.media = s.media) (n : Nat) : t.feed n = s.feed n := by
  unfold State.feed
  rw [h]

theorem feedOperand_gives (h4 : leAt e.desc 32 1 < 4) (hone : e.count = 1) : feedOperand.Gives e s (leAt e.desc 32 1) s :=
  gives_pay (gives_read (gives_require (Bool.and_eq_true_iff.2 ⟨decide_eq_true h4, decide_eq_true hone⟩) (gives_pure _)))

/-! ### Stores that the hardware makes -/

/-- `t` differs from `s` in registers, memory, open reads and what has left the block, and in nothing else. -/
def Stores (s t : State) : Prop := t = { s with regs := t.regs, mem := t.mem, rel := t.rel, outs := t.outs }

theorem Stores.refl (s : State) : Stores s s := rfl

theorem Stores.trans (a : Stores s t) (b : Stores t u) : Stores s u := by
  unfold Stores at *
  rw [b, a]

theorem Stores.runs (h : Stores s t) : t.runs = s.runs := by
  unfold Stores at h
  rw [h]

theorem Stores.rings (h : Stores s t) : t.rings = s.rings := by
  unfold Stores at h
  rw [h]

theorem Stores.fab (h : Stores s t) : t.fab = s.fab := by
  unfold Stores at h
  rw [h]

theorem stores_ite {c : Prop} [Decidable c] (h : Stores s t) (k : Stores s u) : Stores s (if c then t else u) := by
  split <;> assumption

theorem stores_foldl {α : Type} {g : State → α → State} (hg : ∀ t x, Stores t (g t x)) (l : List α) (s : State) :
    Stores s (l.foldl g s) := by
  induction l generalizing s with
  | nil => exact .refl s
  | cons x l ih => exact (hg s x).trans (ih _)

theorem event_stores (s : State) : Stores s s.event := stores_ite rfl rfl

theorem memErr_stores (s : State) (type : Nat) (src : ErrSource) (pl : ErrPlace) (n : Nat) : Stores s (s.memErr type src pl n) := by
  have post : Stores s (s.logPost memerrLog (memErrEntry type src pl s.cueNo n)) := stores_ite rfl (stores_ite rfl rfl)
  exact stores_ite (post.trans (event_stores _)) post

theorem putFence_stores (s : State) (c i word : Nat) (src : ErrSource) : Stores s (s.putFence c i word src) :=
  stores_ite (memErr_stores _ _ _ _ _) (stores_ite rfl rfl)

theorem initRegion_stores (s : State) (base count bytes : Nat) : Stores s (s.initRegion base count bytes) := rfl

/-- An item whose work ends OK and leaves the runs as they were. -/
theorem okItem_ends {cls op detail c : Nat} {w : ItemM Done} (hr : s.itemReady cls op run item = some r)
    (hw : w.Gives (r.env s item) (s.beginItem run item) (done stOk detail c) u) (hq : u.waitsAck run item = false)
    (hu : u.runs = (s.beginItem run item).runs) (hc : cls ≠ 7 ∧ cls ≠ 8 := by decide) :
    ItemEnds u (s.runItem cls op w run item) run item stOk detail c :=
  runItem_ends hr hc.1 hc.2 hw (show stOk < 16 by decide) hq hu

/-! ### FEED_START -/

theorem feedStartWork_holds {a : Nat} {engines : List Nat} {b : List Byte} (h3 : leAt e.desc 33 3 = 0) (h80 : leAt e.desc 48 80 = 0)
    (hn : n = leAt e.desc 32 1) (h4 : n < 4) (hone : e.count = 1) (heng : engines = maskEngines (leAt e.desc 36 4))
    (hst : itemStage.Gives e s0 0 s0) (ha : a = leAt e.desc 40 8) (halign : a % 64 = 0) (hown : s0.ownMem a 128 = true)
    (hb : (load a 128).Gives e s0 b s1) (hidle : (s0.feed n).state = 0) (hne : engines ≠ [])
    (hok : s0.feedOk b e.ctx engines.length = true)
    (hfree : ∀ x ∈ s0.media.feeds, x.1 ≠ n → ∀ v ∈ x.2.engines, v ∉ engines) :
    feedStartWork.Holds e s0 (((s1.setFeed n { Feed.idle with
        state := 1, ctx := e.ctx, run := e.run, item := e.item, engines := engines, block := b }).claimFor n engines).onItem e.run
      e.item fun x => { x with stage := 1 }) := by
  subst hn heng ha
  have apart : (s0.media.feeds.any fun (m, f) => m != leAt e.desc 32 1 &&
      f.engines.any fun x => (maskEngines (leAt e.desc 36 4)).contains x) = false := by
    refine List.any_eq_false.2 fun x hx => ?_
    intro h
    obtain ⟨hm, hv⟩ := Bool.and_eq_true_iff.1 h
    obtain ⟨v, hv, hc⟩ := List.any_eq_true.1 hv
    exact hfree x hx (bne_iff_ne.1 hm) v hv (by simpa using hc)
  unfold feedStartWork
  refine holds_bind (payZero_gives h3) (holds_bind (payTail_gives h80) (holds_bind (feedOperand_gives h4 hone) ?_))
  refine holds_read (holds_pay (holds_bind hst ?_))
  rw [if_neg (by decide)]
  refine holds_pay (holds_get (holds_require (Bool.and_eq_true_iff.2 ⟨decide_eq_true halign, hown⟩) (holds_bind hb ?_)))
  refine holds_require ?_ (holds_modify (holds_bind rfl holds_throw))
  have engaged : (!(maskEngines (leAt e.desc 36 4)).isEmpty) = true := by simpa using hne
  rw [apart]
  simp only [decide_eq_true (show (s0.feed (leAt e.desc 32 1)).state = 0 from hidle), show leAt e.desc (32 + 4) 4 = leAt e.desc 36 4
    from rfl, engaged, hok, Bool.and_self, Bool.not_false]

/-! ### FEED_ENGINES_HELD -/

/-- The state that a feed's start leaves: its fences set, its regions made ready, and the feed running. -/
def State.feedBegun (w : State) (n : Nat) (f : Feed) (src : ErrSource) : State :=
  let c := feedCfg f.block
  (f.engines.zipIdx.foldl (fun (u : State) (_, i) => u.initRegion (c.work + i * c.region) c.bufs c.bufBytes)
    ((w.putFence f.ctx c.fenceDone 0 src).putFence f.ctx c.fenceRet 0 src)).setFeed n { f with state := 2 }

theorem feedBegun_stores (w : State) (n : Nat) (f : Feed) (src : ErrSource) :
    ∃ v, Stores w v ∧ w.feedBegun n f src = v.setFeed n { f with state := 2 } :=
  ⟨_, ((putFence_stores _ _ _ _ _).trans (putFence_stores _ _ _ _ _)).trans
    (stores_foldl (fun t (_ : Nat × Nat) => initRegion_stores t _ _ _) _ _), rfl⟩

theorem enginesHeld_waits (hf : f = s.feed n) (h1 : f.state = 1) (hh : (s.claimFor n f.engines).feedHolds n f.engines = false) :
    s.enginesHeld n = s.claimFor n f.engines := by
  subst hf
  unfold State.enginesHeld
  dsimp only
  rw [if_neg (by omega), if_pos (by rw [hh]; rfl)]

theorem enginesHeld_begins (hf : f = s.feed n) (h1 : f.state = 1) (hh : (s.claimFor n f.engines).feedHolds n f.engines = true) :
    s.enginesHeld n = (((s.claimFor n f.engines).feedBegun n f
      { source := 4, ctx := f.ctx, ring := 0, desc := 0, item := f.item, requester := s.member }).noteCycles f.run f.item
        256).closeItem f.run f.item stOk (feedCfg f.block).first := by
  subst hf
  unfold State.enginesHeld
  dsimp only
  rw [if_neg (by omega), if_neg (by rw [hh]; decide)]
  rfl

theorem feedBegun_ends {src : ErrSource} {w : State} (hruns : w.runs = s.runs) (hfab : w.fab = s.fab)
    (ho : s.itemOpen run item = true) (hq : s.waitsAck run item = false)
    (hc : ∀ q, s.findRun run = some q → hdrClass q.desc.bytes = 9) {st dt cy : Nat} (hs : st < 16) :
    ItemEnds (w.feedBegun n f src) (((w.feedBegun n f src).noteCycles run item cy).closeItem run item st dt) run item st dt cy := by
  obtain ⟨v, hv, eq⟩ := feedBegun_stores w n f src
  have runs : (w.feedBegun n f src).runs = s.runs := by
    rw [eq]
    exact hv.runs.trans hruns
  have fab : (w.feedBegun n f src).fab = s.fab := by
    rw [eq]
    exact hv.fab.trans hfab
  refine closeItem_ends hs ?_ ?_ fun q hq' => ?_
  · unfold State.waitsAck
    rw [fab]
    exact hq
  · obtain ⟨x, hx, he⟩ := itemOpen_iff.1 ho
    exact itemOpen_iff.2 ⟨x, by rw [itemOf_congr runs]; exact hx, he⟩
  · rw [hc q (by unfold State.findRun at *; rw [← runs]; exact hq')]
    decide

/-! ### FEED_STOP, FEED_STATUS and PERM_MAP -/

theorem feedStopWork_running (h95 : leAt e.desc 33 95 = 0) (hn : n = leAt e.desc 32 1) (h4 : n < 4) (hone : e.count = 1)
    (h2 : 2 ≤ (s.feed n).state) : feedStopWork.Gives e s (done stOk ((feedCfg (s.feed n).block).first + (s.feed n).delivered) 256)
      { s.setFeed n Feed.idle with media := { (s.setFeed n Feed.idle).media with
          claims := s.media.claims.filter fun x => x.2 != 2 ^ 32 + n } } := by
  subst hn
  have running : ¬(decide ((s.feed (leAt e.desc 32 1)).state = 0) && (s.feed (leAt e.desc 32 1)).gone) = true := by
    simp only [Bool.and_eq_true, decide_eq_true_eq]
    omega
  unfold feedStopWork
  refine gives_bind (payTail_gives h95) (gives_bind (feedOperand_gives h4 hone) (gives_get ?_))
  rw [if_neg running]
  exact gives_require (decide_eq_true h2) (gives_set (gives_pure _))

theorem feedStopWork_lost (h95 : leAt e.desc 33 95 = 0) (hn : n = leAt e.desc 32 1) (h4 : n < 4) (hone : e.count = 1)
    (h0 : (s.feed n).state = 0) (hg : (s.feed n).gone = true) :
    feedStopWork.Gives e s (done stOk 0xFFFFFFFFFFFFFFFF 256) (s.setFeed n { s.feed n with gone := false }) := by
  subst hn
  unfold feedStopWork
  refine gives_bind (payTail_gives h95) (gives_bind (feedOperand_gives h4 hone) (gives_get ?_))
  rw [if_pos (Bool.and_eq_true_iff.2 ⟨decide_eq_true h0, hg⟩)]
  exact gives_set (gives_pure _)

theorem feedStatus_length (s : State) (f : Feed) : (s.feedStatus f).length = 64 := by
  unfold State.feedStatus
  dsimp only
  split <;> simp [leBytes_length]

theorem feedStatusWork_gives {a : Nat} (h7 : leAt e.desc 33 7 = 0) (h80 : leAt e.desc 48 80 = 0) (hn : n = leAt e.desc 32 1)
    (h4 : n < 4) (hone : e.count = 1) (ha : a = leAt e.desc 40 8) (halign : a % 64 = 0) (hw : s.WritableHere a 64) :
    feedStatusWork.Gives e s (done stOk 0 64) (s.devWrite (addrKey a) (s.feedStatus (s.feed n))) := by
  subst hn ha
  have len := feedStatus_length s (s.feed (leAt e.desc 32 1))
  unfold feedStatusWork
  refine gives_bind (payZero_gives h7) (gives_bind (payTail_gives h80) (gives_bind (feedOperand_gives h4 hone) (gives_pay ?_)))
  refine gives_require (decide_eq_true halign) (gives_get (gives_bind (store_gives (by rw [len]; exact hw) ?_) (gives_pure _)))
  intro h
  rw [h] at len
  cases len

theorem flatMap_le8_length (l : List (Nat × Nat)) : (l.flatMap fun x => leBytes 8 x.1).length = 8 * l.length := by
  induction l with
  | nil => rfl
  | cons x l ih => rw [List.flatMap_cons, List.length_append, leBytes_length, ih, List.length_cons]; omega

theorem permMapWork_gives {seed epoch dest first count : Nat} {l : List (Nat × Nat)} (h4 : leAt e.desc 52 4 = 0)
    (h52 : leAt e.desc 76 52 = 0) (hseed : seed = leAt e.desc 32 8) (hn : n = leAt e.desc 40 8) (hepoch : epoch = leAt e.desc 48 4)
    (hdest : dest = leAt e.desc 56 8) (hfirst : first = leAt e.desc 64 8) (hcount : count = leAt e.desc 72 4) (h1 : 1 ≤ count)
    (h65536 : count ≤ 65536) (hin : first + e.item * count + count ≤ n)
    (hw : s.WritableHere (dest + 8 * (e.item * count)) (8 * count))
    (hl : l = (List.range count).map (fun j => sigma seed epoch n (first + e.item * count + j))) :
    permMapWork.Gives e s (done stOk 0 (64 + 10 * (l.foldl (fun a x => a + x.2) 0)))
      (s.devWrite (addrKey (dest + 8 * (e.item * count))) (l.flatMap fun x => leBytes 8 x.1)) := by
  subst hseed hn hepoch hdest hfirst hcount
  have len : l.length = leAt e.desc 72 4 := by rw [hl]; simp
  have bytes : (l.flatMap fun x => leBytes 8 x.1).length = 8 * leAt e.desc 72 4 := by rw [flatMap_le8_length, len]
  have stored := store_gives (e := e) (bs := l.flatMap fun x => leBytes 8 x.1) (by rw [bytes]; exact hw)
    (by intro h; rw [h] at bytes; simp only [List.length_nil] at bytes; omega)
  unfold permMapWork
  refine gives_bind (payZero_gives h4) (gives_bind (payTail_gives h52) (gives_pay (gives_pay (gives_pay (gives_pay (gives_pay
    (gives_pay ?_)))))))
  refine gives_require (Bool.and_eq_true_iff.2 ⟨decide_eq_true h1, decide_eq_true h65536⟩) (gives_read ?_)
  refine gives_require (decide_eq_true hin) ?_
  have place : leAt e.desc (32 + 32) 8 + e.item * leAt e.desc (32 + 40) 4 - leAt e.desc (32 + 32) 8 = e.item * leAt e.desc 72 4 :=
    Nat.add_sub_cancel_left _ _
  dsimp only
  rw [place]
  have rest := gives_bind (k := fun _ => pure (done stOk 0 (64 + 10 * (l.foldl (fun a x => a + x.2) 0)))) stored (gives_pure _)
  rw [hl] at rest ⊢
  exact rest

/-- Settles O33. -/
theorem feedItemsEnd : Obligations.FeedItemsEnd := by
  unfold Obligations.FeedItemsEnd
  refine ⟨⟨?_, ?_, ?_⟩, ?_, ?_⟩
  · rintro s s0 s1 run item n a r e engines b hr rfl rfl h3 h80 hn h4 h0 heng hst ha halign hown hb hidle hne hok hfree
    exact congrArg Host.Outcome.next (runItem_holds hr (feedStartWork_holds h3 h80 hn h4 (congrArg (· + 1) h0) heng hst ha halign
      hown hb hidle hne hok hfree))
  · rintro s w u n f c src hf h1 rfl rfl rfl rfl
    constructor
    · intro hh
      exact congrArg Host.Outcome.next (enginesHeld_waits hf h1 hh)
    · rintro hh ho hq hc
      have ends := feedBegun_ends (w := s.claimFor n f.engines) (n := n) (f := f)
        (src := { source := 4, ctx := f.ctx, ring := 0, desc := 0, item := f.item, requester := s.member }) (s := s) rfl rfl ho hq hc
        (st := stOk) (dt := (feedCfg f.block).first) (cy := 256) (by decide)
      refine ⟨_, congrArg Host.Outcome.next (enginesHeld_begins hf h1 hh), ends, ?_⟩
      obtain ⟨v, -, eq⟩ := feedBegun_stores (s.claimFor n f.engines) n f _
      rw [feed_congr ends.media, eq, feed_setFeed]
  · rintro s s0 run item n r hr rfl h95 hn h4 h0 hq
    constructor
    · intro h2
      exact ⟨_, rfl, okItem_ends hr (feedStopWork_running (e := r.env s item) (s := s.beginItem run item) h95 hn h4
        (congrArg (· + 1) h0) h2) hq rfl⟩
    · intro hst hg
      exact ⟨_, rfl, okItem_ends hr (feedStopWork_lost (e := r.env s item) (s := s.beginItem run item) h95 hn h4
        (congrArg (· + 1) h0) hst hg) hq rfl⟩
  · rintro s run item seed n epoch dest first count r l hr hq h4 h52 hseed hn hepoch hdest hfirst hcount h1 - hc1 hc2 hin hw hl
    exact ⟨_, rfl, okItem_ends hr (permMapWork_gives (e := r.env s item) (s := s.beginItem run item) h4 h52 hseed hn hepoch hdest
      hfirst hcount hc1 hc2 hin hw hl) hq rfl⟩
  · rintro s run item n a r hr hq h7 h80 hn h4 h0 ha halign hw
    exact ⟨_, rfl, okItem_ends hr (feedStatusWork_gives (e := r.env s item) (s := s.beginItem run item) h7 h80 hn h4
      (congrArg (· + 1) h0) ha halign hw) hq rfl⟩

end Sys2Proof.Machine
end

