-- ==== Sys2Proof/Proofs/FeedClips.lean ====
section
/-! SUPPORT. The clips of a running feed: assigned, ended, delivered (R344 to R346). -/
namespace Sys2Proof.Machine

variable {s t u : State} {n : Nat} {f : Feed} {k : Clip}

/-! ### Reads that no code can correct, and reads of tiles -/

theorem openRead_upkeep (s : State) (u : UnitId) (key : Nat) : Upkeep s (s.openRead u key) := by
  unfold State.openRead
  exact upkeep_ite (Upkeep.trans upkeep_of (suspect_upkeep _ _ _ _)) upkeep_of

theorem badPackageRow_upkeep (s : State) (u : UnitId) : Upkeep s (s.badPackageRow u) := by
  unfold State.badPackageRow
  dsimp only
  exact upkeep_ite (Upkeep.trans upkeep_of (confirm_upkeep _ _ _ _ _)) upkeep_of

theorem badDevRead_upkeep (s : State) (src : ErrSource) (key : Nat) : Upkeep s (s.badDevRead src key) := by
  have read := (memErr_upkeep s (devBadType key) src (s.devPlace key 0) 0).trans (openRead_upkeep _ (devUnitId key) key)
  unfold State.badDevRead
  dsimp only
  exact upkeep_ite (read.trans (badPackageRow_upkeep _ _)) read

theorem readMem_upkeep (s : State) (src : ErrSource) (key len : Nat) : Upkeep s (s.readMem src key len).1 := by
  unfold State.readMem
  dsimp only
  split
  · exact (meetCells_upkeep _ _ _ _).trans (badDevRead_upkeep _ _ _)
  · exact meetCells_upkeep _ _ _ _

theorem moveTiles_upkeep (tiles : List Nat) (h : s.moveTiles tiles = some t) : Upkeep s t := by
  unfold State.moveTiles at h
  have moved : ∀ (l : List Nat) (o : Option State), (∀ v, o = some v → Upkeep s v) →
      ∀ v, l.foldl (fun (o : Option State) x =>
        o.bind fun t => (t.takeBlock ((t.chooseLuns 1).headD 0)).map fun b =>
          (({ t with flash := { t.flash with
              places := cellPut t.flash.places x (some b)
              softWords := t.flash.softWords.filter fun w => w / 16 != x } } : State).fillUnit b).showFree) o = some v → Upkeep s v := by
    intro l
    induction l with
    | nil => exact fun o ho v hv => ho v hv
    | cons x l ih =>
      refine fun o ho v hv => ih _ (fun w hw => ?_) v hv
      obtain ⟨a, ha, hb⟩ := Option.bind_eq_some_iff.1 hw
      obtain ⟨b, -, rfl⟩ := Option.map_eq_some_iff.1 hb
      exact (ho a ha).step
  exact moved tiles (some s) (fun v hv => by cases hv; exact .refl s) t h

theorem relocate_upkeep (b : Nat) : Upkeep s ((s.relocate b).getD (s.deferWork (.relocate b))) := by
  cases h : s.relocate b with
  | none => exact upkeep_of
  | some v =>
    obtain ⟨a, ha, rfl⟩ := Option.map_eq_some_iff.1 h
    exact (moveTiles_upkeep _ ha).step

theorem wantBlock_upkeep (s : State) (b : Nat) (disturb : Bool) : Upkeep s (s.wantBlock b disturb) := by
  have maintained : ∀ v : State, Upkeep v (v.maintain (.relocate b)) := fun v => by
    unfold State.maintain
    exact upkeep_ite (.refl v) (upkeep_ite upkeep_of (upkeep_ite upkeep_of (relocate_upkeep b)))
  unfold State.wantBlock
  exact upkeep_ite (.refl s) (Upkeep.trans upkeep_of (maintained _))

theorem flashCount_upkeep (s : State) (x : Nat) : Upkeep s (s.flashCount x) := by
  unfold State.flashCount
  split
  · exact .refl s
  · dsimp only
    exact upkeep_ite (Upkeep.trans upkeep_of (wantBlock_upkeep _ _ _))
      (upkeep_ite (Upkeep.trans upkeep_of (wantBlock_upkeep _ _ _)) upkeep_of)

theorem askClip_upkeep (s : State) (n : Nat) (f : Feed) (k : Clip) (a len : Nat) : Upkeep s (s.askClip n f k a len) := by
  refine upkeep_foldl (fun t x => ?_) _ s
  dsimp only
  split
  · exact .refl t
  · split
    · next h => exact (sendRequest_beside (id := 0) h).upkeep
    · exact .refl t

theorem clipTiles_upkeep (s : State) (n : Nat) (f : Feed) (k : Clip) (a len : Nat) : Upkeep s (s.clipTiles n f k a len).1 := by
  unfold State.clipTiles
  split
  · split
    · exact .refl s
    · split
      · exact .refl s
      · exact upkeep_foldl flashCount_upkeep _ s
  · split
    · exact .refl s
    · split
      · exact .refl s
      · exact askClip_upkeep _ _ _ _ _ _

/-! ### What a feed has given -/

theorem cellFind_mem {α : Type} {k : Nat} {v : α} {l : List (Nat × α)} (h : cellFind k l = some v) : (k, v) ∈ l := by
  induction l with
  | nil => cases h
  | cons x l ih =>
    obtain ⟨j, w⟩ := x
    unfold cellFind at h
    split at h
    · next hj => simp_all
    · exact List.mem_cons_of_mem _ (ih h)

theorem feed_state (hs : ∀ x ∈ s.media.feeds, x.1 = n → x.2.state ≠ 1) : (s.feed n).state ≠ 1 := by
  unfold State.feed
  split
  · next h => exact hs _ (cellFind_mem h) rfl
  · exact Nat.zero_ne_one

/-- A feed put back with what it has given. -/
theorem feedKept_setFeed (hg : f.given = (s.feed n).given) (h1 : f.state = (s.feed n).state) : FeedKept n s (s.setFeed n f) := fun hs => by
  refine ⟨fun x hx hn => ?_, by rw [feed_setFeed, hg]⟩
  have listed : x ∈ cellPut s.media.feeds n (if f = Feed.idle then none else some f) := hx
  unfold cellPut at listed
  rcases List.mem_append.1 listed with hl | hr
  · rcases List.mem_append.1 hl with hl | hl
    · exact hs x (List.mem_of_mem_filter hl) hn
    · by_cases hi : f = Feed.idle
      · rw [if_pos hi] at hl
        cases hl
      · rw [if_neg hi] at hl
        obtain rfl : x = (n, f) := by simpa using hl
        exact h1 ▸ feed_state hs
  · exact hs x (List.mem_of_mem_filter hr) hn

theorem endClip_feedKept (s : State) (n : Nat) (k : Clip) (st fr dm : Nat) : FeedKept n s (s.endClip n k st fr dm) :=
  feedKept_setFeed rfl rfl

theorem writeFrames_feeds (s : State) (f : Feed) (k : Clip) (outs : List Picture) : Stores s (s.writeFrames f k outs) := by
  unfold State.writeFrames
  exact Stores.trans (t := s.devZero _ _) rfl
    (stores_foldl (fun t _ => stores_foldl (fun u _ => (rfl : Stores u (u.devWrite _ _))) _ _) _ _)

theorem failClip_feedKept (s : State) (n : Nat) (f : Feed) (k : Clip) (st : Nat) : FeedKept n s (s.failClip n f k st) := by
  unfold State.failClip
  refine FeedKept.trans ?_ (endClip_feedKept _ _ _ _ _ _)
  split
  · exact feedKept_of rfl n
  · exact feedKept_of (congrArg (fun x : State => x.media.feeds) (writeFrames_feeds _ _ _ _)) n

theorem clipEntry_feedKept (s : State) (n : Nat) (f : Feed) (k : Clip) : FeedKept n s (s.clipEntry n f k).1 := by
  unfold State.clipEntry
  dsimp only
  split
  · have read := (readMem_upkeep s (s.feedSource f) (addrKey (f.base k) + 266240 + 32 * f.index k % 65536) 32).feeds n
    split <;> next h => rw [h] at read; exact read
  · have tiles := (clipTiles_upkeep s n f k ((feedCfg f.block).cat + 65536 * (32 * f.index k / 65536)) 65536).feeds n
    split
    · next h =>
      rw [h] at tiles
      exact tiles.trans (FeedKept.trans (feedKept_of (t := State.devWrite _ _ _) rfl n) (feedKept_setFeed rfl rfl))
    · exact tiles

/-- Fetching what a clip needs, short of its end, leaves what its feed has given. -/
theorem workClip_feedKept (s : State) (n : Nat) (f : Feed) (k : Clip) : FeedKept n s (s.workClip n f k false) := by
  have entry := clipEntry_feedKept s n f k
  unfold State.workClip
  split
  · exact ((badDevRead_upkeep _ _ _).feeds n).trans (failClip_feedKept _ _ _ _ _)
  · split
    · next h =>
      rw [h] at entry
      exact entry
    · next h =>
      rw [h] at entry
      exact entry
    · next t b h =>
      rw [h] at entry
      have tiles := (clipTiles_upkeep t n f k (mkAddr (leAt b 4 2) (2 * 2 ^ 43 + 65536 * leAt b 0 4)) (65536 * leAt b 8 4)).feeds n
      dsimp only
      split
      · exact entry
      · split <;> next h2 => rw [h2] at tiles; exact entry.trans tiles

/-! ### Clips assigned and ended -/

theorem assignClip_eq {v : Nat} (h2 : (s.feed n).state = 2)
    (hb : s.batchFree (s.feed n) ((s.feed n).given / (feedCfg (s.feed n).block).batch) = true)
    (hv : (s.feed n).engines.find? (fun x => s.feedEngineIdle (s.feed n) x) = some v)
    (hk : k = { batch := (s.feed n).given / (feedCfg (s.feed n).block).batch,
                slot := (s.feed n).given % (feedCfg (s.feed n).block).batch, engine := v, region := (s.feed n).freeRegion,
                status := none, frames := 0, damaged := 0, arrived := [] })
    (hf : f = { s.feed n with given := (s.feed n).given + 1, clips := (s.feed n).clips ++ [k] }) :
    s.assignClip n = (s.setFeed n f).workClip n f k false := by
  subst hf hk
  unfold State.assignClip
  dsimp only
  rw [if_neg (by rw [hb]; simp [h2]), hv]

/-- The clip's feed, once it is put back, waits for no engines. -/
theorem setFeed_running (h2 : f.state = 2) : ∀ x ∈ (s.setFeed n f).media.feeds, x.1 = n → x.2.state ≠ 1 := by
  intro x hx hn
  have listed : x ∈ cellPut s.media.feeds n (if f = Feed.idle then none else some f) := hx
  have busy : f ≠ Feed.idle := by rintro rfl; cases h2
  rw [if_neg busy] at listed
  unfold cellPut at listed
  simp only [List.mem_append, List.mem_filter, decide_eq_true_eq, Option.toList_some, List.map_cons, List.map_nil,
    List.mem_singleton] at listed
  rcases listed with (⟨-, h⟩ | rfl) | ⟨-, h⟩
  · omega
  · exact h2 ▸ (by decide)
  · omega

theorem doneClip_eq {clip : Nat} (h2 : (s.feed n).state = 2) (hk : (s.feed n).clips.find? (fun k =>
    k.batch * (feedCfg (s.feed n).block).batch + k.slot == clip && k.status.isNone) = some k) :
    s.doneClip n clip = s.workClip n (s.feed n) k true := by
  unfold State.doneClip
  dsimp only
  rw [if_neg (by omega), hk]

theorem workClip_bad {w : State} {ent : List Byte} (hb : s.devBad (addrKey (f.base k)) 266240 = false)
    (he : s.clipEntry n f k = (w, .bytes ent)) (h0 : entryStatus ent (feedCfg f.block).maxTiles ≠ 0) :
    s.workClip n f k true = w.failClip n f k (entryStatus ent (feedCfg f.block).maxTiles) := by
  unfold State.workClip
  rw [if_neg (by simp [hb]), he]
  dsimp only
  rw [if_pos h0, if_pos rfl]

theorem workClip_whole {w x : State} {ent b : List Byte} (hb : s.devBad (addrKey (f.base k)) 266240 = false)
    (he : s.clipEntry n f k = (w, .bytes ent)) (h0 : entryStatus ent (feedCfg f.block).maxTiles = 0)
    (ht : w.clipTiles n f k (mkAddr (leAt ent 4 2) (2 * 2 ^ 43 + 65536 * leAt ent 0 4)) (65536 * leAt ent 8 4) = (x, .bytes b)) :
    s.workClip n f k true = x.decodeClip n f k (leAt ent 12 1) (leAt ent 8 4) b := by
  unfold State.workClip
  rw [if_neg (by simp [hb]), he]
  dsimp only
  rw [if_neg (by simpa using h0), ht]
  dsimp only
  rw [if_pos rfl]

/-! ### Batches delivered -/

theorem devWrite_stores (s : State) (k : Nat) (bs : List Byte) : Stores s (s.devWrite k bs) := rfl

theorem devZero_stores (s : State) (k len : Nat) : Stores s (s.devZero k len) := rfl

theorem addFence_stores (s : State) (c i inc : Nat) (poison : Bool) (src : ErrSource) : Stores s (s.addFence c i inc poison src) :=
  putFence_stores _ _ _ _ _

/-- A batch all of whose clips have their status is delivered: its feed is put back with its counts. -/
theorem deliver_eq {good : Nat} {l : List Clip} (h2 : 2 ≤ (s.feed n).state)
    (hshut : s.devShut (addrKey (feedCfg (s.feed n).block).hand + (s.feed n).delivered % (feedCfg (s.feed n).block).slots *
      (feedCfg (s.feed n).block).handStride) = false)
    (hl : l = (List.range (feedCfg (s.feed n).block).batch).filterMap (fun j => (s.feed n).clips.find? fun k =>
      k.batch == (s.feed n).delivered && k.slot == j && k.status.isSome)) (hall : l.length = (feedCfg (s.feed n).block).batch)
    (hg : good = (l.filter fun k => decide (k.status.getD 0 < 0x10)).length) :
    ∃ v, Stores s v ∧ s.deliver n = v.setFeed n { s.feed n with
      delivered := (s.feed n).delivered + 1, good := (s.feed n).good + good,
      failed := (s.feed n).failed + ((feedCfg (s.feed n).block).batch - good),
      clips := (s.feed n).clips.filter fun k => k.batch != (s.feed n).delivered } := by
  subst hl hg
  unfold State.deliver
  dsimp only
  rw [if_neg (by rw [hshut, hall]; simp; omega)]
  exact ⟨_, (((devZero_stores _ _ _).trans (devWrite_stores _ _ _)).trans (devWrite_stores _ _ _)).trans
    (addFence_stores _ _ _ _ _ _), rfl⟩

/-- Settles O34. -/
theorem clipsAssignedAndDelivered : Obligations.ClipsAssignedAndDelivered := by
  unfold Obligations.ClipsAssignedAndDelivered
  refine ⟨?_, ?_, ?_⟩
  · rintro s n v f f' c k rfl rfl h2 hb hv hk hf
    refine ⟨_, congrArg Host.Outcome.next (assignClip_eq h2 hb hv hk hf), rfl, ?_⟩
    rw [(workClip_feedKept _ n f' k (setFeed_running (by rw [hf]; exact h2))).2, feed_setFeed, hf]
  · rintro s w n clip f k ent rfl h2 hk hb he
    exact ⟨fun h0 => congrArg Host.Outcome.next ((doneClip_eq h2 hk).trans (workClip_bad hb he h0)),
      fun x b h0 ht => congrArg Host.Outcome.next ((doneClip_eq h2 hk).trans (workClip_whole hb he h0 ht))⟩
  · rintro s n good f c l rfl rfl h2 hshut hl hall hg
    obtain ⟨v, hv, eq⟩ := deliver_eq h2 hshut hl hall hg
    exact ⟨_, congrArg Host.Outcome.next eq, feed_setFeed _ _ _, hv.runs, hv.rings⟩

end Sys2Proof.Machine
end

