-- ==== Sys2Proof/Proofs/FabricTransfers.lean ====
section
/-! SUPPORT. Copies, atomics and puts of the fabric engine (R373 to R375, R381). -/
namespace Sys2Proof.Machine

variable {e : ItemEnv} {s s0 s1 s2 u : State} {run item op : Nat} {w : ItemM Done}

/-- In the engine's turn an item of the class runs as any other. -/
theorem runFab_turn (h : s.fabTurn run item = true) : s.runFab op w run item = s.runItem 0xA op w run item := if_pos h

theorem notDetached_gives (h : s.detached = false) : notDetached.Gives e s () s := gives_get (gives_check (by rw [h]; rfl))

theorem oneItem_gives (h : e.count = 1) : oneItem.Gives e s () s := gives_read (gives_check (decide_eq_true h))

section Copy
variable {src dst len st : Nat} {b bs : List Byte} {c : Done}

/-- A range of this member's HBM or LPDDR passes the checks of R276. -/
theorem placeCheck_mem_gives {a : Nat} (ha : a % 64 = 0) (h0 : a / 2 ^ 57 = 0) (ht : addrTier a < 2)
    (hp : s.populated (addrTier a) (addrOff a) len = true) : (placeCheck (.mem a) len).Gives e s () s := by
  unfold placeCheck
  refine gives_get (gives_require ?_ ?_)
  · rw [addrBad_of h0 ht hp, decide_eq_true ha, decide_eq_true ht]
    rfl
  · split
    · exact gives_check hp
    · exact gives_pure _

/-- A range of this member needs no route. -/
theorem placeRoute_own_gives {a : Nat} (ho : s.isOwn (addrMember a) = true) : (placeRoute (.mem a)).Gives e s () s := by
  unfold placeRoute
  refine gives_get ?_
  rw [if_neg (by simp [ho])]
  exact gives_pure _

theorem placesCheck_here_gives (hsa : src % 64 = 0) (hda : dst % 64 = 0) (hs : s.ReadableHere src len)
    (hd : s.WritableHere dst len) : (placesCheck (.mem src) (.mem dst) len).Gives e s () s := by
  obtain ⟨hs0, hst, hso, hsp, -, -⟩ := hs
  obtain ⟨hd0, hdt, hdo, hdp, -, -⟩ := hd
  unfold placesCheck
  refine gives_bind (placeCheck_mem_gives hsa hs0 hst hsp) (gives_bind (placeCheck_mem_gives hda hd0 hdt hdp) ?_)
  exact gives_bind (placeRoute_own_gives hso) (placeRoute_own_gives hdo)

theorem readPlace_here_gives (hl : len ≠ 0) (h : s.ReadableHere src len) :
    (readPlace (.mem src) len).Gives e s (s.devRead (addrKey src) len, false) (s.afterRead e src len) := by
  obtain ⟨-, -, ho, -, hs, hb⟩ := h
  unfold readPlace
  refine gives_get (gives_read ?_)
  dsimp only
  rw [if_pos ho]
  refine gives_require (by rw [hs]; rfl) ?_
  unfold State.readMem State.afterRead
  rw [hb, if_neg hl]
  exact gives_set (gives_pure _)

theorem storeAt_gives {a : Nat} (h : s.WritableHere a bs.length) (hb : bs ≠ []) :
    (storeAt a bs).Gives e s () (s.devWrite (addrKey a) bs) := by
  obtain ⟨-, -, ho, -, hs, hp⟩ := h
  unfold storeAt writeDev
  refine gives_get ?_
  rw [if_neg (by simpa using hb)]
  dsimp only
  rw [if_pos ho]
  refine gives_get (gives_read (gives_require (by rw [hs]; rfl) ?_))
  rw [if_neg (by simp [hp])]
  rfl

/-- A copy between two places, up to the copying itself. -/
theorem fabCopyWork_gives (hd : s0.detached = false) (ht : leAt e.desc 40 88 = 0) (hl : leAt e.desc 32 8 % 32 = 0)
    (hb : fabEntry.Gives e s0 b s1) (hsrc : regTier (leAt b 0 8) = false) (hdst : regTier (leAt b 8 8) = false)
    (h64 : 64 ≤ leAt b 16 4) (hG : leAt b 16 4 ≤ 2 ^ 30) (hm : leAt b 16 4 % 64 = 0) (hz : zeroAt b 20 12 = true)
    (hmeet : s1.placesMeet (leAt b 16 4) (globPlace (leAt b 0 8)) (globPlace (leAt b 8 8)) = false)
    (hc : (placesCheck (globPlace (leAt b 0 8)) (globPlace (leAt b 8 8)) (leAt b 16 4)).Gives e s1 () s1)
    (hcopy : (copyRange (globPlace (leAt b 0 8)) (globPlace (leAt b 8 8)) (leAt b 16 4)).Gives e s1 c u) :
    fabCopyWork.Gives e s0 c u := by
  unfold fabCopyWork
  refine gives_bind (notDetached_gives hd) (gives_bind (payTail_gives ht) (gives_pay (gives_require (decide_eq_true hl) ?_)))
  refine gives_bind hb (gives_require (by rw [hdst]; rfl) (gives_get (gives_require ?_ (gives_bind hc hcopy))))
  rw [hsrc, hmeet, hz, decide_eq_true h64, decide_eq_true (show leAt b 16 4 ≤ GiB from hG), decide_eq_true hm]
  rfl

end Copy

section Atomic
variable {a n res st : Nat} {b : List Byte}

/-- The last part of an atomic's work: at this member it is performed, to another it is sent. -/
def atomicPart (op a n res : Nat) (b : List Byte) : ItemM Done := do
  let e ← read
  let s ← get
  if s.isOwn (addrMember a) then
    require (s.populated (addrTier a) (addrOff a) n) stBad
    require (!s.devShut (addrKey a)) stPartReset
    if s.devBad (addrKey a) n then
      set (s.partRefused (e.source s 4) (addrKey a) n)
      stopWith stUncorrectable
    set (s.atomic e.ctx (addrKey a) op (leAt b 8 8) (leAt b 16 8)).1
    storeAt res (leBytes 8 (s.atomic e.ctx (addrKey a) op (leAt b 8 8) (leAt b 16 8)).2)
    return done stOk 0 64
  else
    remoteOk (addrMember a) 1 true
    match s.sendRequest (s.request ptAtomic e.ctx a 24 (leBytes 8 op ++ leBytes 8 (leAt b 8 8) ++ leBytes 8 (leAt b 16 8)))
        false (.atomic e.run e.item res) none with
    | none => stopWith stMemberLost
    | some t =>
      set t
      modifyItem fun x => { x with stage := 1 }
      throw .hold

/-- An atomic whose checks pass comes to what its last part comes to. -/
theorem fabAtomicWork_on {out : Except Stop Done × State} (hd : s0.detached = false) (ht : leAt e.desc 41 87 = 0)
    (hop : leAt e.desc 40 1 < 4) (hst : itemStage.Gives e s0 st s0) (h1 : st ≠ 1) (hb : fabEntry.Gives e s0 b s1)
    (ha : a = leAt b 0 8) (hn : n = atomicSize (leAt e.desc 40 1)) (hres : res = leAt e.desc 32 8 + 32 * e.item + 24)
    (hreg : regTier a = false) (halign : a % n = 0) (hbad : addrBad a n = false) (hw : (checkWrite res 8).Gives e s1 () s1)
    (hout : (atomicPart (leAt e.desc 40 1) a n res b).on e s1 = out) : fabAtomicWork.on e s0 = out := by
  subst ha hn hres
  unfold fabAtomicWork
  rw [on_bind_ok (notDetached_gives hd), on_bind_ok (payTail_gives ht), on_pay_bind, on_require_bind _ (decide_eq_true hop),
    on_bind_ok hst, if_neg h1, on_bind_ok hb, on_read_bind, on_pay_bind]
  dsimp only
  rw [on_require_bind _ (by rw [hreg]; rfl), on_require_bind _ (by rw [hbad, decide_eq_true halign]; rfl), on_bind_ok hw,
    on_get_bind]
  exact hout

theorem atomicPart_own_gives (ho : s1.isOwn (addrMember a) = true) (hp : s1.populated (addrTier a) (addrOff a) n = true)
    (hs : s1.devShut (addrKey a) = false) (hb : s1.devBad (addrKey a) n = false)
    (hst : (storeAt res (leBytes 8 (s1.atomic e.ctx (addrKey a) op (leAt b 8 8) (leAt b 16 8)).2)).Gives e
      (s1.atomic e.ctx (addrKey a) op (leAt b 8 8) (leAt b 16 8)).1 () u) :
    (atomicPart op a n res b).Gives e s1 (done stOk 0 64) u := by
  unfold atomicPart
  refine gives_read (gives_get ?_)
  rw [if_pos ho]
  refine gives_require hp (gives_require (by rw [hs]; rfl) ?_)
  rw [if_neg (by simp [hb])]
  exact gives_set (gives_bind hst (gives_pure _))

theorem atomicPart_other_holds (ho : s1.isOwn (addrMember a) = false) (hr : (remoteOk (addrMember a) 1 true).Gives e s1 () s1)
    (hs : s1.sendRequest (s1.request ptAtomic e.ctx a 24 (leBytes 8 op ++ leBytes 8 (leAt b 8 8) ++ leBytes 8 (leAt b 16 8)))
      false (.atomic e.run e.item res) none = some u) :
    (atomicPart op a n res b).Holds e s1 (u.onItem e.run e.item fun y => { y with stage := 1 }) := by
  unfold atomicPart
  refine holds_read (holds_get ?_)
  rw [if_neg (by simp [ho])]
  refine holds_bind hr ?_
  rw [hs]
  exact holds_set rfl

end Atomic

theorem fabPutWork_gives {a n : Nat} (hd : s0.detached = false) (h1 : e.count = 1) (h41 : leAt e.desc 41 7 = 0)
    (h112 : leAt e.desc 112 16 = 0) (ha : a = leAt e.desc 32 8) (hn : n = leAt e.desc 40 1) (hpos : 1 ≤ n) (h64 : n ≤ 64)
    (hst : (store a (((payloadOf e.desc).drop 16).take n)).Gives e s0 () s1)
    (hu : u = (if s1.isOwn (addrMember a) && s1.inFenceTable (addrKey a) then s1.wakeDimmed else s1)) :
    fabPutWork.Gives e s0 (done stOk 0 64) u := by
  subst ha hn hu
  unfold fabPutWork
  refine gives_bind (notDetached_gives hd) (gives_bind (oneItem_gives h1) (gives_bind (payZero_gives h41) ?_))
  refine gives_bind (payZero_gives h112) (gives_pay (gives_pay (gives_require ?_ ?_)))
  · exact Bool.and_eq_true_iff.2 ⟨decide_eq_true hpos, decide_eq_true h64⟩
  · exact gives_read (gives_bind hst (gives_modify (gives_pure _)))

/-- Settles O35: each transfer is its checks and then its pieces. -/
theorem fabricTransfersEnd : Obligations.FabricTransfersEnd := by
  unfold Obligations.FabricTransfersEnd
  rintro s w s0 run item now r e d rfl rfl rfl rfl hturn hdet
  replace hdet : ((s.tick now).beginItem run item).detached = false := hdet
  refine ⟨?_, ?_, ?_⟩
  · rintro b src dst len st s1 s2 hr ht hl hb rfl rfl rfl hsrc hdst h64 hG hm hz hmeet hst h3 rfl
    have copies : ∀ {c : Done} {u : State}, _ → _ → fabCopyWork.Gives _ _ c u := fun {_ _} =>
      fabCopyWork_gives (e := r.env (s.tick now) item) hdet ht hl hb hsrc hdst h64 hG hm hz hmeet
    refine ⟨?_, ?_⟩
    · intro hsa hda hread hwrite hwrite' hu
      have hsp : globPlace (leAt b 0 8) = .mem (leAt b 0 8) := if_neg (by have := hread.2.1; omega)
      have hdp : globPlace (leAt b 8 8) = .mem (leAt b 8 8) := if_neg (by have := hwrite.2.1; omega)
      have len : (s1.devRead (addrKey (leAt b 0 8)) (leAt b 16 4)).length = leAt b 16 4 := cellRead_length _ _ _ _
      have copied := copyRange_mem_gives (e := r.env (s.tick now) item) hst h3
        (readPlace_here_gives (by omega) hread) (storeAt_gives (by rw [len]; exact hwrite') (by
          intro h
          rw [h] at len
          simp at len
          omega))
      rw [len] at copied
      have checked := placesCheck_here_gives (e := r.env (s.tick now) item) hsa hda hread hwrite
      rw [← hsp, ← hdp] at copied checked
      exact ⟨_, congrArg Host.Outcome.next (runFab_turn hturn), runItem_gives hr (by decide) (by decide)
        (copies checked copied) (show stOk < 16 by decide) ⟨hu.isOpen, hu.quiet, hu.same⟩⟩
    · rintro c u hc hcopy hc16
      refine ⟨fun hu => ?_, fun ho hack => ?_⟩
      · exact ⟨_, congrArg Host.Outcome.next (runFab_turn hturn),
          runItem_gives hr (by decide) (by decide) (copies hc hcopy) hc16 hu⟩
      · exact ⟨_, congrArg Host.Outcome.next (runFab_turn hturn), acking_of_gives hr (copies hc hcopy) ho hack hc16⟩
  · rintro b op a n res st s1 hr ht rfl hop hst h1 hb ha hn hres hreg halign hbad hw
    have works : ∀ {out}, _ → fabAtomicWork.on _ _ = out := fun {_} =>
      fabAtomicWork_on (e := r.env (s.tick now) item) hdet ht hop hst h1 hb ha hn hres hreg halign hbad hw
    refine ⟨?_, ?_⟩
    · rintro u ho hp hs hbd hsto hu
      exact ⟨_, congrArg Host.Outcome.next (runFab_turn hturn), runItem_gives hr (by decide) (by decide)
        (works (atomicPart_own_gives ho hp hs hbd hsto)) (show stOk < 16 by decide) hu⟩
    · rintro x ho hrem hsend
      exact congrArg Host.Outcome.next ((runFab_turn hturn).trans
        (runItem_holds hr (works (atomicPart_other_holds ho hrem hsend))))
  · rintro a n s1 u hr h41 h112 h0 ha hn hpos h64 hst hu'
    have put := fabPutWork_gives (e := r.env (s.tick now) item) hdet (congrArg (· + 1) h0) h41 h112 ha hn hpos h64 hst hu'
    refine ⟨fun hu => ?_, fun ho hack => ?_⟩
    · exact ⟨_, congrArg Host.Outcome.next (runFab_turn hturn),
        runItem_gives hr (by decide) (by decide) put (show stOk < 16 by decide) hu⟩
    · exact ⟨_, congrArg Host.Outcome.next (runFab_turn hturn), acking_of_gives hr put ho hack (show stOk < 16 by decide)⟩

end Sys2Proof.Machine
end

