-- ==== Sys2Proof/Proofs/FabricOrdering.lean ====
section
/-! SUPPORT. Messages sent, and the fabric items that wait for them: fences, stops and route patches (R360, R372, R376, R377). -/
namespace Sys2Proof.Machine

variable {e : ItemEnv} {s s0 t u : State} {run item : Nat} {r : Run}

/-! ### What sending a message changes -/

/-- `t` differs from `s` in its ports, in what it has sent and what waits to be sent, and in what has left the block. -/
def Sends (s t : State) : Prop :=
  t = { s with fab := { s.fab with ports := t.fab.ports, sent := t.fab.sent, waiting := t.fab.waiting }, outs := t.outs }

theorem Sends.refl (s : State) : Sends s s := rfl

theorem Sends.trans (a : Sends s t) (b : Sends t u) : Sends s u := by
  unfold Sends at *
  rw [b, a]

theorem sends_ite {c : Prop} [Decidable c] (h : Sends s t) (k : Sends s u) : Sends s (if c then t else u) := by
  split <;> assumption

theorem sends_foldl {α : Type} {g : State → α → State} (hg : ∀ t x, Sends t (g t x)) (l : List α) (s : State) :
    Sends s (l.foldl g s) := by
  induction l generalizing s with
  | nil => exact .refl s
  | cons x l ih => exact (hg s x).trans (ih _)

theorem Sends.runs (h : Sends s t) : t.runs = s.runs := by
  unfold Sends at h
  rw [h]

theorem Sends.regs (h : Sends s t) : t.regs = s.regs := by
  unfold Sends at h
  rw [h]

theorem Sends.sched (h : Sends s t) : t.sched = s.sched := by
  unfold Sends at h
  rw [h]

theorem Sends.requests (h : Sends s t) : t.fab.requests = s.fab.requests := by
  unfold Sends at h
  rw [h]

theorem sendVia_sends (s : State) (n vc : Nat) (p : Packet) : Sends s (s.sendVia n vc p) := by
  unfold State.sendVia
  exact sends_ite rfl rfl

theorem promptNow_sends (s : State) (p : Packet) : Sends s (s.promptNow p) := by
  unfold State.promptNow
  split
  · exact sends_foldl (fun t n => sendVia_sends t n _ p) _ _
  · split
    · exact sendVia_sends _ _ _ _
    · exact .refl s

theorem originate_sends (s : State) (p : Packet) : Sends s (s.originate p) := by
  unfold State.originate
  exact sends_ite (.trans (t := { s with fab := { s.fab with sent := s.fab.sent + 1 } }) rfl (promptNow_sends _ _)) rfl

/-- An item can still end where neither the runs nor the requests have changed since it began. -/
theorem canEnd_of_same (hr : s.itemReady cls op run item = some r) (hq : s.waitsAck run item = false)
    (hu : u.runs = (s.beginItem run item).runs) (hf : u.fab.requests = s.fab.requests) : u.CanEnd run item r := by
  obtain ⟨hrun, -, -, ho⟩ := itemReady_spec hr
  obtain ⟨x, hx, he⟩ := itemOpen_iff.1 (beginItem_open ho)
  refine ⟨itemOpen_iff.2 ⟨x, by rw [itemOf_congr hu]; exact hx, he⟩, ?_, fun q hq => ?_⟩
  · unfold State.waitsAck at *
    rw [hf]
    exact hq
  · refine beginItem_desc (item := item) hrun ?_
    unfold State.findRun at *
    rw [← hu]
    exact hq

/-- A note on an open item leaves it open. -/
theorem State.CanEnd.onItem {f : Item → Item} (h : u.CanEnd run item r) (hi : ∀ x, (f x).index = x.index)
    (he : ∀ x, (f x).hasEnded = x.hasEnded) : (u.onItem run item f).CanEnd run item r := by
  obtain ⟨x, hx, hx0⟩ := itemOpen_iff.1 h.isOpen
  refine ⟨itemOpen_iff.2 ⟨f x, ?_, (he x).trans hx0⟩, h.quiet, fun q hq => ?_⟩
  · rw [itemOf_onItem u run item run item f hi, hx, if_pos ⟨rfl, rfl⟩]
    rfl
  · have desc := desc_onItem u run item run f
    rw [hq] at desc
    obtain ⟨q', hq', hd⟩ := Option.map_eq_some_iff.1 desc.symm
    exact hd.symm.trans (h.same q' hq')

theorem beginItem_find (h : s.findRun run = some r) :
    ∃ q, (s.beginItem run item).findRun run = some q ∧ q.shell = r.shell := by
  have shells := findRun_of_shells (shells_onItem s run item (f := fun x => { x with phase := .running, cursor := 0 }) fun _ => rfl) run
  rw [h] at shells
  exact Option.map_eq_some_iff.1 shells

/-- A piece that is passed over, or leaves the state as it is. -/
theorem on_optional {β : Type} {c : Prop} [Decidable c] {m : ItemM PUnit} {k : PUnit → ItemM β} (hm : c → m.Gives e s ⟨⟩ s) :
    (if c then m >>= k else k ⟨⟩).on e s = (k ⟨⟩).on e s := by
  split
  · next h => exact on_bind_ok (hm h)
  · rfl

/-! ### FAB_FENCE -/

section Fence
variable {p : Nat → Bool} {members : List Nat}

/-- With no write to wait for and no answer to await a fence ends at once. -/
theorem fenceOn_gives (h : s.openTags e.ctx (fun q => q.writes && p q.dst) = []) :
    (fenceOn p []).Gives e s (done stOk 0 64) s := by
  unfold fenceOn
  refine gives_read (gives_get ?_)
  dsimp only
  rw [h]
  exact gives_pure _

/-- The fence of an item noted, with what it waits for. -/
def State.withFence (s : State) (run item : Nat) (waits members : List Nat) : State :=
  { s with fab := { s.fab with
    nextDrain := if members.isEmpty then s.fab.nextDrain else (s.fab.nextDrain + 1) % 2 ^ 32
    fences := s.fab.fences ++ [{ run := run, item := item, drain := s.fab.nextDrain, waits := waits, members := members }] } }

/-- Otherwise it is noted, a DRAIN goes to every member that is to answer, and the item waits. -/
theorem fenceOn_holds (h : s.openTags e.ctx (fun q => q.writes && p q.dst) ≠ [] ∨ members ≠ []) :
    (fenceOn p members).Holds e s
      ((members.foldl (fun (u : State) m => u.sendDrain m e.ctx s.fab.nextDrain)
        (s.withFence e.run e.item (s.openTags e.ctx fun q => q.writes && p q.dst) members)).onItem e.run e.item
          fun x => { x with stage := 1 }) := by
  unfold fenceOn
  refine holds_read (holds_get ?_)
  dsimp only
  rw [if_neg (by simpa [Classical.or_iff_not_imp_left] using h)]
  exact rfl

/-- The fence on one member, up to its waiting. -/
theorem fabFenceWork_one {m st : Nat} {out : Except Stop Done × State} (hd : s0.detached = false)
    (hst : itemStage.Gives e s0 st s0) (h1 : st ≠ 1) (h33 : leAt e.desc 33 7 = 0) (h42 : leAt e.desc 42 2 = 0)
    (h46 : leAt e.desc 46 82 = 0) (hmode : leAt e.desc 32 1 = 0) (hm : m = leAt e.desc 40 2) (h4096 : m < 4096)
    (hentry : leAt e.desc 44 2 < 1024) (hr : s0.isOwn m = true ∨ (remoteOk m 1 false).Gives e s0 () s0)
    (hout : (fenceOn (fun d => d == m || s0.lookupMember d == s0.lookupMember m) []).on e s0 = out) :
    fabFenceWork.on e s0 = out := by
  subst hm
  unfold fabFenceWork
  rw [on_bind_ok (notDetached_gives hd), on_bind_ok hst, if_neg h1, on_bind_ok (payZero_gives h33),
    on_bind_ok (payZero_gives h42), on_bind_ok (payTail_gives h46), on_pay_bind, on_pay_bind, on_pay_bind,
    on_require_bind _ (by rw [show leAt e.desc (32 + 0) 1 = 0 from hmode, decide_eq_true (show leAt e.desc 40 2 < 4096 from h4096),
      decide_eq_true (show leAt e.desc 44 2 < 1024 from hentry)]; rfl), on_get_bind, if_pos hmode]
  by_cases ho : s0.isOwn (leAt e.desc 40 2) = true
  · rw [if_neg (by simp [ho])]
    exact hout
  · rw [if_pos (by simpa using ho), on_bind_ok (hr.resolve_left ho)]
    exact hout

/-- The fence on a chorus entry, up to its waiting. -/
theorem fabFenceWork_chorus {i : ChorusImage} {st : Nat} {others : List Nat} {out : Except Stop Done × State}
    (hd : s0.detached = false)
    (hst : itemStage.Gives e s0 st s0) (h1 : st ≠ 1) (h33 : leAt e.desc 33 7 = 0) (h42 : leAt e.desc 42 2 = 0)
    (h46 : leAt e.desc 46 82 = 0) (hmode : leAt e.desc 32 1 = 1) (h4096 : leAt e.desc 40 2 < 4096)
    (hentry : leAt e.desc 44 2 < 1024) (hr : s0.findRun e.run = some r) (hi : i = s0.chorusAt r.chorusGen)
    (hv : i.valid (leAt e.desc 44 2) = true)
    (ho : others = ((i.rankSlots (leAt e.desc 44 2)).map slotMember).filter fun x => !s0.isOwn x)
    (hro : ∀ m ∈ others, (remoteOk m 0 true).Gives e s0 () s0)
    (hout : (fenceOn (fun d => others.any fun x => x == d || s0.lookupMember x == s0.lookupMember d) others).on e s0 = out) :
    fabFenceWork.on e s0 = out := by
  subst hi ho
  unfold fabFenceWork
  rw [on_bind_ok (notDetached_gives hd), on_bind_ok hst, if_neg h1, on_bind_ok (payZero_gives h33),
    on_bind_ok (payZero_gives h42), on_bind_ok (payTail_gives h46), on_pay_bind, on_pay_bind, on_pay_bind,
    on_require_bind _ (by rw [show leAt e.desc (32 + 0) 1 = 1 from hmode, decide_eq_true (show leAt e.desc 40 2 < 4096 from h4096),
      decide_eq_true (show leAt e.desc 44 2 < 1024 from hentry)]; rfl), on_get_bind,
    if_neg (by rw [show leAt e.desc (32 + 0) 1 = 1 from hmode]; decide), on_read_bind, hr]
  dsimp only
  rw [on_require_bind _ hv, on_bind_ok (gives_forM hro)]
  exact hout

end Fence

/-! ### FAB_STOP -/

section FabStop
variable {c n resume : Nat} {body : List Byte} {x : State}

/-- A STOP sent and taken here, and noted by its item. -/
theorem fabStopWork_on (hd : s0.detached = false) (hone : e.count = 1) (hst : itemStage.Gives e s0 0 s0)
    (hc : c = leAt e.desc 32 1) (hm : c = e.ctx ∨ s0.managed e.ring = true) (h33 : leAt e.desc 33 3 = 0)
    (h40 : leAt e.desc 40 88 = 0) (hn : n = leAt e.desc 36 4) (h64 : c < 64) (h1 : 1 ≤ n) (hn64 : n ≤ 64)
    (hres : resume = (s0.cueNo + n) % 2 ^ 32) (hbody : body = leBytes 1 c ++ leBytes 3 0 ++ leBytes 4 resume)
    (hx : x = ((s0.originate (s0.prompter ptStop 0 true body)).takeStop c resume).onItem e.run e.item
      (fun y => { y with stage := resume + 1 })) :
    fabStopWork.on e s0 = if x.stillWaiting ptStop body = true then (.error .hold, x) else (.ok (done stOk 0 64), x) := by
  subst hc hn hres hbody hx
  unfold fabStopWork
  rw [on_bind_ok (notDetached_gives hd), on_bind_ok (oneItem_gives hone), on_pay_bind, on_read_bind,
    on_optional fun h => requireManaged_gives (hm.resolve_left h), on_bind_ok (payZero_gives h33), on_bind_ok (payTail_gives h40),
    on_pay_bind, on_require_bind _ (by rw [decide_eq_true (show leAt e.desc (32 + 0) 1 < 64 from h64),
      decide_eq_true (show 1 ≤ leAt e.desc (32 + 4) 4 from h1), decide_eq_true (show leAt e.desc (32 + 4) 4 ≤ 64 from hn64)]; rfl),
    on_get_bind, on_bind_ok hst]
  dsimp only
  rw [if_pos rfl, if_pos rfl, on_set_bind]
  have staged : ∀ t : State, (modifyItem fun y => { y with stage := (s0.cueNo + leAt e.desc (32 + 4) 4) % 2 ^ 32 + 1 }).Gives e t ()
      (t.onItem e.run e.item fun y => { y with stage := (s0.cueNo + leAt e.desc (32 + 4) 4) % 2 ^ 32 + 1 }) := fun _ => rfl
  rw [on_bind_ok (staged _), on_get_bind]
  split
  · exact rfl
  · exact rfl

/-- A STOP for a cue that lies 1 to 64 ahead holds its context. -/
theorem takeStop_held (h1 : 1 ≤ n) (h64 : n ≤ 64) : (s.takeStop c ((s.cueNo + n) % 2 ^ 32)).stopHeld c = true := by
  have held : ({ s with sched := { s.sched with
      stops := s.sched.stops.filter (fun x => x.1 != c) ++ [(c, (s.cueNo + n) % 2 ^ 32)] } } : State).stopHeld c = true := by
    refine List.any_eq_true.2 ⟨(c, (s.cueNo + n) % 2 ^ 32), by simp, ?_⟩
    have ahead : s.cuesTo ((s.cueNo + n) % 2 ^ 32) = n := by
      unfold State.cuesTo
      omega
    show (c == c && decide (1 ≤ s.cuesTo ((s.cueNo + n) % 2 ^ 32)) && decide (s.cuesTo ((s.cueNo + n) % 2 ^ 32) < 2 ^ 31)) = true
    rw [ahead, beq_self_eq_true, decide_eq_true h1, decide_eq_true (show n < 2 ^ 31 by omega)]
    rfl
  unfold State.takeStop
  dsimp only
  rw [if_pos held]
  exact held

theorem takeStop_same (s : State) (c n : Nat) : (s.takeStop c n).runs = s.runs ∧ (s.takeStop c n).fab = s.fab := by
  unfold State.takeStop
  dsimp only
  split <;> exact ⟨rfl, rfl⟩

end FabStop

/-! ### ROUTE_PATCH -/

theorem routePatchWork_holds {gen n st : Nat} (hd : s0.detached = false) (hm : s0.managed e.ring = true) (hone : e.count = 1)
    (hst : itemStage.Gives e s0 st s0) (h1 : st ≠ 1) (hgen : gen = leAt e.desc 32 2) (hn : n = leAt e.desc 34 1) (h0 : gen ≠ 0)
    (hn1 : 1 ≤ n) (hn8 : n ≤ 8) (h35 : leAt e.desc 35 1 = 0) (htail : leAt e.desc (36 + 4 * n) (92 - 4 * n) = 0)
    (hall : ∀ k, k < 2 * n → leAt (payloadOf e.desc) (4 + 2 * k) 2 < 4096)
    (hu : u = s0.floodPatch gen (patchPairsOf (payloadOf e.desc) n)) :
    routePatchWork.Holds e s0 (({ u with fab := { u.fab with patches := u.fab.patches ++ [(e.run, e.item, gen)] } } :
      State).onItem e.run e.item fun x => { x with stage := 1 }) := by
  subst hgen hn hu
  unfold routePatchWork
  refine holds_bind (notDetached_gives hd) (holds_bind (requireManaged_gives hm) (holds_bind (oneItem_gives hone) ?_))
  refine holds_bind hst ?_
  rw [if_neg h1]
  refine holds_pay (holds_pay (holds_require ?_ (holds_bind (payZero_gives h35) (holds_bind (payTail_gives ?_) ?_))))
  · rw [decide_eq_true (show leAt e.desc (32 + 0) 2 ≠ 0 from h0), decide_eq_true (show 1 ≤ leAt e.desc (32 + 2) 1 from hn1),
      decide_eq_true (show leAt e.desc (32 + 2) 1 ≤ 8 from hn8)]
    rfl
  · dsimp only [Nat.reduceAdd]
    rw [← Nat.add_assoc, ← Nat.sub_sub]
    exact htail
  · refine holds_read (holds_require (List.all_eq_true.2 fun k hk => decide_eq_true (hall k (List.mem_range.1 hk))) ?_)
    exact holds_read (holds_modify (holds_modify rfl))

/-- Settles O36. -/
theorem fabricOrderingItems : Obligations.FabricOrderingItems := by
  unfold Obligations.FabricOrderingItems
  rintro s w s0 run item now r e d rfl rfl rfl rfl hturn hdet hq
  replace hdet : ((s.tick now).beginItem run item).detached = false := hdet
  refine ⟨?_, ?_, ?_, ?_⟩
  · rintro m st tags hr hst h1 h33 h42 h46 hmode hm h4096 hentry hro rfl
    have works : ∀ {out}, _ → fabFenceWork.on _ _ = out := fun {_} =>
      fabFenceWork_one (e := r.env (s.tick now) item) hdet hst h1 h33 h42 h46 hmode hm h4096 hentry hro
    refine ⟨fun hnone => ?_, fun hsome => ?_⟩
    · exact ⟨_, congrArg Host.Outcome.next (runFab_turn hturn), runItem_gives hr (by decide) (by decide)
        (works (fenceOn_gives (e := r.env (s.tick now) item) hnone)) (show stOk < 16 by decide) (canEnd_of_same hr hq rfl rfl)⟩
    · exact congrArg Host.Outcome.next ((runFab_turn hturn).trans
        (runItem_holds hr (works (fenceOn_holds (e := r.env (s.tick now) item) (.inl hsome)))))
  · rintro st tags others x hr hst h1 h33 h42 h46 hmode h4096 hentry hv ho hne hro rfl rfl
    obtain ⟨q, hrun, shell⟩ := beginItem_find (item := item) (itemReady_spec hr).1
    have gen : q.chorusGen = r.chorusGen := (congrArg Run.chorusGen shell :)
    have held := fabFenceWork_chorus (e := r.env (s.tick now) item) hdet hst h1 h33 h42 h46 hmode h4096 hentry
      (by rw [Run.env_run, itemReady_id hr]; exact hrun) rfl (by rw [gen]; exact hv) (by rw [gen]; exact ho) hro
      (fenceOn_holds (.inr hne))
    rw [State.withFence, if_neg (by simpa using hne)] at held
    exact congrArg Host.Outcome.next ((runFab_turn hturn).trans (runItem_holds hr held))
  · rintro c n resume body x hr hst h0 hc hm h33 h40 hn h64 hn1 hn64 hres hbody hx
    have work := fabStopWork_on (e := r.env (s.tick now) item) hdet (congrArg (· + 1) h0) hst hc hm h33 h40 hn h64 hn1 hn64 hres
      hbody hx
    have sent := originate_sends ((s.tick now).beginItem run item) (((s.tick now).beginItem run item).prompter ptStop 0 true body)
    obtain ⟨runs, fab⟩ := takeStop_same (((s.tick now).beginItem run item).originate
      (((s.tick now).beginItem run item).prompter ptStop 0 true body)) c resume
    refine ⟨?_, fun hwait => ?_, fun hleft => ?_⟩
    · rw [hx, hres]
      have cue : (((s.tick now).beginItem run item).originate (((s.tick now).beginItem run item).prompter ptStop 0 true body)).cueNo =
          (s.tick now).cueNo := by
        unfold State.cueNo
        exact congrFun (reg_congr sent.regs) _
      rw [← cue]
      exact takeStop_held hn1 hn64
    · rw [if_pos hwait] at work
      exact congrArg Host.Outcome.next ((runFab_turn hturn).trans (runItem_holds hr work))
    · rw [if_neg (by simp [hleft])] at work
      refine ⟨_, congrArg Host.Outcome.next (runFab_turn hturn), runItem_gives hr (by decide) (by decide) work
        (show stOk < 16 by decide) ?_⟩
      have can := canEnd_of_same hr hq (runs.trans sent.runs) ((congrArg Fabric.requests fab).trans sent.requests)
      rw [hx, itemReady_id hr]
      exact can.onItem (fun _ => rfl) fun _ => rfl
  · rintro gen n st hr hm h0 hst h1 hgen hn hne hn1 hn8 h35 htail hall
    have held := routePatchWork_holds (e := r.env (s.tick now) item) hdet hm (congrArg (· + 1) h0) hst h1 hgen hn hne hn1 hn8 h35 htail
      hall rfl
    exact congrArg Host.Outcome.next ((runFab_turn hturn).trans (runItem_holds hr held))

end Sys2Proof.Machine
end

