-- ==== Sys2Proof/Proofs/ContextTeardown.lean ====
section
/-! SUPPORT. CONTEXT_TEARDOWN, its local steps and its reuse point (R382 to R386). -/
namespace Sys2Proof.Machine

variable {e : ItemEnv} {s t u : State} {run item c g : Nat} {r : Run}

/-! ### Items as time passes -/

theorem runAfter_phase (s : State) (d i : Nat) (r : Run) :
    ((s.runAfter d r).item i).map Item.phase = (r.item i).map Item.phase := by
  unfold State.runAfter
  split
  · unfold Run.item
    dsimp only
    rw [List.find?_map, Option.map_map]
    have index : ((fun x : Item => x.index == i) ∘ fun x => if (s.coll.halves.any fun h => h.run == r.id && h.item == x.index) = true
        then { x with partners := x.partners + d * s.runMhz r } else x) = fun x => x.index == i := by
      funext x
      show (Item.index (if _ then _ else x) == i) = _
      split <;> rfl
    rw [index]
    refine congrFun (congrArg Option.map (funext fun x => ?_)) _
    show Item.phase (if _ then _ else x) = x.phase
    split <;> rfl
  · rfl

theorem runAfter_same (s : State) (d : Nat) (r : Run) : (s.runAfter d r).id = r.id ∧ (s.runAfter d r).desc = r.desc := by
  unfold State.runAfter
  split <;> exact ⟨rfl, rfl⟩

/-- The runs as time passes: each in its place, with more of its timeout used. -/
theorem tick_findRun (s : State) (now k : Nat) :
    (s.tick now).findRun k = if now ≤ s.now then s.findRun k else (s.findRun k).map (s.runAfter (now - s.now)) := by
  unfold State.tick
  split
  · rfl
  · unfold State.findRun
    dsimp only
    rw [List.find?_map]
    exact congrArg (Option.map _) (congrArg (fun p => List.find? p s.runs)
      (funext fun r => by show ((s.runAfter _ r).id == k) = _; rw [(runAfter_same s _ r).1]))

theorem phaseOf_tick (s : State) (now run item : Nat) : (s.tick now).phaseOf run item = s.phaseOf run item := by
  unfold State.phaseOf State.itemOf
  rw [tick_findRun]
  split
  · rfl
  · cases s.findRun run with
    | none => rfl
    | some r => exact runAfter_phase s _ item r

theorem desc_tick (s : State) (now k : Nat) : ((s.tick now).findRun k).map Run.desc = (s.findRun k).map Run.desc := by
  rw [tick_findRun]
  split
  · rfl
  · rw [Option.map_map]
    exact congrFun (congrArg Option.map (funext fun r => (runAfter_same s _ r).2)) _

theorem waitsAck_tick (s : State) (now run item : Nat) : (s.tick now).waitsAck run item = s.waitsAck run item := by
  unfold State.waitsAck State.tick
  split
  · rfl
  · exact List.any_map

theorem itemOpen_of_phase (h : t.phaseOf run item = s.phaseOf run item) : t.itemOpen run item = s.itemOpen run item := by
  have open_phase : ∀ u : State, u.itemOpen run item = (u.phaseOf run item).any fun p => match p with
      | .ended _ _ => false
      | _ => true := by
    intro u
    unfold State.itemOpen State.phaseOf State.itemOf
    rw [Option.any_map]
    refine congrArg (fun p => Option.any p _) (funext fun x => ?_)
    show (!x.hasEnded) = _
    unfold Item.hasEnded
    cases x.phase <;> rfl
  rw [open_phase, open_phase, h]

/-! ### The local steps -/

theorem cancelContext_cuts (s : State) (c : Nat) (but : Option (Nat × Nat)) : Cuts s (s.cancelContext c but) := by
  refine cuts_foldl (fun t r => ?_) _ _
  split
  · refine cuts_foldl (fun u x => ?_) _ _
    split
    · exact .refl _
    · exact endEarly_cuts _ _ _ _ _
  · exact .refl _

theorem ctxFabric_high (c : Nat) : 0x10000 ≤ (ctxFabricGen c).off := by
  show 0x10000 ≤ 0x20050 + 128 * c
  omega

section Steps
variable (s c g)
variable (but : Option (Nat × Nat))

theorem teardownSteps_sched : (s.teardownSteps c g but).sched =
    { s.sched with runnable := dropVal c s.sched.runnable, torn := addVal c s.sched.torn } :=
  ((stopFeeds_upkeep _ _).sched).trans (cancelContext_cuts _ c but).sched

/-- The steps change no register of the context but its generation. -/
theorem teardownSteps_flag (s : State) : (s.teardownSteps c g but).flag (ctxFabricTearing c) = s.flag (ctxFabricTearing c) := by
  have same := (cuts_sameSetup (cancelContext_cuts ({ s with
    sched := { s.sched with runnable := dropVal c s.sched.runnable, torn := addVal c s.sched.torn }
    fab := { s.fab with advanced := addVal c s.fab.advanced } } : State) c but)).trans (sameSetup_of_regs (t := State.cutFetched _
      (fun f => hdrCtx f.bytes == c) stCancelled)) |>.trans (stopFeeds_sameSetup _ fun f => f.ctx == c)
  unfold State.flag
  rw [show (s.teardownSteps c g but).fld _ = _ from
    fld_setFld_other _ (ctxFabricGen c) (ctxFabricTearing c) g (by show 16 + 8 ≤ 64; decide) (.inr (.inr (by show 16 + 8 ≤ 24; decide)))]
  exact congrArg (fun v => field v _ _ == 1) (same _ (ctxFabric_high c))

theorem teardownSteps_gen (h : g < 256) : (s.teardownSteps c g but).ctxGen c = g :=
  fld_setFld _ (ctxFabricGen c) g (by show 16 + 8 ≤ 64; decide) h

end Steps

/-! ### CONTEXT_TEARDOWN -/

/-- The TEARDOWN messages of an item sent to the members of its context. -/
def State.sendTeardown (s : State) (c g drain : Nat) (ms : List Nat) : State :=
  ms.foldl (fun (u : State) m => u.originate
    (u.prompter ptTeardown m false (leBytes 1 c ++ leBytes 1 g ++ leBytes 2 0 ++ leBytes 4 drain))) s

theorem sendTeardown_sends (s : State) (c g drain : Nat) (ms : List Nat) : Sends s (s.sendTeardown c g drain ms) :=
  sends_foldl (fun t _ => originate_sends t _) ms s

/-- A teardown begun by an item: the steps, the messages, and what it awaits. -/
def State.tornDown (s : State) (c gen run item : Nat) : State :=
  let t := (((s.setFlag (ctxFabricTearing c) true).teardownSteps c ((s.ctxGen c + 1) % 256) (some (run, item))).sendTeardown c
    ((s.ctxGen c + 1) % 256) s.fab.nextDrain (s.teardownMembers c gen))
  { t with fab := { t.fab with
    nextDrain := (s.fab.nextDrain + 1) % 2 ^ 32
    teardowns := t.fab.teardowns.filter (fun (x : Teardown) => x.ctx != c) ++
      [{ ctx := c, item := some (run, item), origin := none, drain := s.fab.nextDrain, gen := (s.ctxGen c + 1) % 256,
         members := s.teardownMembers c gen, cue := s.cueNo, waits := s.openTags c fun _ => true, freed := false }] } }

theorem contextTeardownWork_holds {st : Nat} (hm : s.managed e.ring = true) (h33 : leAt e.desc 33 95 = 0)
    (hc : c = leAt e.desc 32 1) (h64 : c < 64) (hst : itemStage.Gives e s st s) (h1 : st ≠ 1)
    (hflag : s.flag (ctxFabricTearing c) = false) (hadv : c ∉ s.fab.advanced) (hr : s.findRun e.run = some r) :
    contextTeardownWork.Holds e s ((s.tornDown c r.chorusGen e.run e.item).onItem e.run e.item fun x => { x with stage := 1 }) := by
  subst hc
  unfold contextTeardownWork
  refine holds_bind (requireManaged_gives hm) (holds_bind (payTail_gives h33) (holds_pay (holds_require (decide_eq_true h64) ?_)))
  refine holds_bind hst ?_
  rw [if_neg h1]
  refine holds_get (holds_read (holds_require (by rw [hflag]; rfl) ?_))
  rw [if_neg (by simpa using hadv), hr]
  exact rfl

theorem tornDown_flag (s : State) (c gen run item : Nat) : (s.tornDown c gen run item).flag (ctxFabricTearing c) = true := by
  have sent := (sendTeardown_sends ((s.setFlag (ctxFabricTearing c) true).teardownSteps c ((s.ctxGen c + 1) % 256) (some (run, item)))
    c ((s.ctxGen c + 1) % 256) s.fab.nextDrain (s.teardownMembers c gen)).regs
  refine (congrFun (flag_congr sent) _).trans ((teardownSteps_flag c _ _ _).trans ?_)
  exact flag_setFlag _ _ _ (by show 24 + 1 ≤ 64; decide) (by show 1 ≠ 0; decide)

theorem tornDown_gen (s : State) (c gen run item : Nat) : (s.tornDown c gen run item).ctxGen c = (s.ctxGen c + 1) % 256 := by
  have sent := (sendTeardown_sends ((s.setFlag (ctxFabricTearing c) true).teardownSteps c ((s.ctxGen c + 1) % 256) (some (run, item)))
    c ((s.ctxGen c + 1) % 256) s.fab.nextDrain (s.teardownMembers c gen)).regs
  exact (congrFun (fld_congr sent) _).trans (teardownSteps_gen _ _ _ _ (Nat.mod_lt _ (by decide)))

theorem tornDown_runnable (s : State) (c gen run item : Nat) : c ∉ (s.tornDown c gen run item).sched.runnable := by
  have sent := (sendTeardown_sends ((s.setFlag (ctxFabricTearing c) true).teardownSteps c ((s.ctxGen c + 1) % 256) (some (run, item)))
    c ((s.ctxGen c + 1) % 256) s.fab.nextDrain (s.teardownMembers c gen)).sched
  rw [show (s.tornDown c gen run item).sched = _ from sent.trans (teardownSteps_sched _ c _ _)]
  exact not_mem_dropVal c _

/-! ### The reuse point -/

/-- A teardown that awaits nothing any more. -/
def State.withoutTeardown (s : State) (d : Teardown) : State :=
  { s with fab := { s.fab with teardowns := s.fab.teardowns.filter fun y => decide (y ≠ d) } }

/-- What a reuse point makes of the state before its item ends. -/
def State.reused (s : State) (c : Nat) (d : Teardown) : State :=
  let y := (((s.withoutTeardown d).freeGranules c).writeReport c d.members).setFlag (ctxFabricTearing c) false
  if d.members.length = 0 then y else y.event

theorem reusePoint_of_find {d : Teardown} (hf : s.fab.teardowns.find? (fun x => x.ctx == c && x.item.isSome) = some d)
    (hi : d.item = some (run, item)) (hdue : d.members = [] ∨ d.cue + 4 ≤ s.cueNo) (hdr : s.drained d.waits = true) :
    s.reusePoint c = ((s.reused c d).noteCycles run item 0).closeItem run item stOk
      (d.members.length % 65536 + 2 ^ 16 * d.members.foldl min (d.members.headD 0) + 2 ^ 32 * (s.reused c d).framesOwned c) := by
  unfold State.reusePoint
  rw [hf]
  dsimp only
  rw [if_neg (by simpa [hdr, Classical.or_iff_not_imp_left] using hdue), hi]
  rfl

theorem writeReport_same (s : State) (c : Nat) (ms : List Nat) : (s.writeReport c ms).runs = s.runs ∧
    (s.writeReport c ms).fab = s.fab ∧ (s.writeReport c ms).mem.owners = s.mem.owners := by
  unfold State.writeReport
  dsimp only
  split <;> exact ⟨rfl, rfl, rfl⟩

theorem reused_same (s : State) (c : Nat) (d : Teardown) : (s.reused c d).runs = s.runs ∧
    (s.reused c d).fab.requests = s.fab.requests ∧ (s.reused c d).mem.owners = s.mem.owners.filter (fun g => g.2 != 1 + c) ∧
    (s.reused c d).flag (ctxFabricTearing c) = false := by
  obtain ⟨runs, fab, owners⟩ := writeReport_same ((s.withoutTeardown d).freeGranules c) c d.members
  have cleared := flag_setFlag (((s.withoutTeardown d).freeGranules c).writeReport c d.members)
    (ctxFabricTearing c) false (by show 24 + 1 ≤ 64; decide) (by show 1 ≠ 0; decide)
  have told : ∀ t : State, t.event.runs = t.runs ∧ t.event.fab = t.fab ∧ t.event.mem = t.mem ∧
      ∀ f, t.event.flag f = t.flag f := by
    intro t
    unfold State.event State.raise
    split <;> exact ⟨rfl, rfl, rfl, fun _ => rfl⟩
  unfold State.reused
  dsimp only
  split
  · exact ⟨runs, (congrArg Fabric.requests fab :), owners, cleared⟩
  · obtain ⟨runs', fab', mem', flag'⟩ := told (State.setFlag _ (ctxFabricTearing c) false)
    exact ⟨runs'.trans runs, (congrArg Fabric.requests (fab'.trans fab) :), (congrArg Mem.owners mem' :).trans owners,
      (flag' _).trans cleared⟩

/-- An item's end leaves the registers of the contexts alone. -/
theorem closeItem_sameSetup (s : State) (run item st dt cy : Nat) :
    SameSetup s ((s.noteCycles run item cy).closeItem run item st dt) := by
  unfold State.closeItem
  split
  · exact .refl s
  · exact SameSetup.trans (t := s.noteCycles run item cy) (.refl s) (cuts_sameSetup (endItem_cuts _ run item st dt))

/-- Settles O37. -/
theorem contextsTornDown : Obligations.ContextsTornDown := by
  unfold Obligations.ContextsTornDown
  constructor
  · rintro s w s0 run item now c st r e rfl rfl rfl hr hm h33 hc h64 hst h1 hflag hadv
    obtain ⟨q, hrun, shell⟩ := beginItem_find (item := item) (itemReady_spec hr).1
    have gen : q.chorusGen = r.chorusGen := (congrArg Run.chorusGen shell :)
    have held := contextTeardownWork_holds (e := r.env (s.tick now) item) (s := (s.tick now).beginItem run item) hm h33 hc h64 hst h1
      hflag hadv (by rw [Run.env_run, itemReady_id hr]; exact hrun)
    rw [gen] at held
    have regen : ((s.tick now).beginItem run item).ctxGen c = s.ctxGen c := State.tick_fld s now _
    refine ⟨_, congrArg Host.Outcome.next (runItem_holds hr held), tornDown_flag _ _ _ _ _, ?_, tornDown_runnable _ _ _ _ _, ?_⟩
    · rw [← regen]
      exact tornDown_gen _ _ _ _ _
    · refine ⟨_, List.mem_append_right _ (List.mem_singleton_self _), rfl, rfl, ?_, rfl, (State.tick_reg s now _)⟩
      rw [← regen]
  · rintro s w x y u now c run item n first d rfl hf hi hdue hdr rfl rfl rfl rfl rfl ho hq hcls
    obtain ⟨runs, requests, owners, cleared⟩ := reused_same (s.tick now) c d
    have due : d.members = [] ∨ d.cue + 4 ≤ (s.tick now).cueNo := by
      rw [show (s.tick now).cueNo = s.cueNo from State.tick_reg s now _]
      exact hdue
    have phase : ((s.tick now).reused c d).phaseOf run item = s.phaseOf run item :=
      (congrArg (Option.map Item.phase) (itemOf_congr runs run item)).trans (phaseOf_tick s now run item)
    have ends : ItemEnds ((s.tick now).reused c d) _ run item stOk _ 0 := closeItem_ends (base := 0)
      (detail := d.members.length % 65536 + 2 ^ 16 * d.members.foldl min (d.members.headD 0) +
        2 ^ 32 * ((s.tick now).reused c d).framesOwned c) (show stOk < 16 by decide)
      (by
        rw [← hq, ← waitsAck_tick s now]
        unfold State.waitsAck
        rw [requests])
      ((itemOpen_of_phase phase).trans ho) fun q hq' => by
        rw [findRun_congr runs] at hq'
        have desc := desc_tick s now run
        rw [hq'] at desc
        obtain ⟨q', hq', hd⟩ := Option.map_eq_some_iff.1 desc.symm
        have h0 := hcls q' hq'
        rw [hd] at h0
        omega
    refine ⟨_, congrArg Host.Outcome.next (reusePoint_of_find hf hi due hdr), ends, fun g hg => ?_, ?_⟩
    · rw [ends.mem, owners] at hg
      simpa using (List.mem_filter.1 hg).2
    · exact (congrArg (fun v => field v _ _ == 1) (closeItem_sameSetup _ _ _ _ _ _ _ (ctxFabric_high c))).trans cleared

end Sys2Proof.Machine
end

