-- ==== Sys2Proof/Proofs/CollectiveHalves.lean ====
section
/-! SUPPORT. The halves of collectives: their beginning, their waiting and their end (R397 to R406). -/
namespace Sys2Proof.Machine

variable {e : ItemEnv} {s s0 s1 s2 s3 s4 u : State} {r : Run} {h h0 : Half} {d : Done} {op me run item : Nat} {i : ChorusImage}
  {p : CollPay} {x : CollItem} {b bs : List Byte} {slots : List Nat}

/-- A half that ends well is not noted by what notes its end. -/
theorem notingHalf_gives {w : ItemM Done} (hw : w.Gives e s d u) : (notingHalf h w).Gives e s d u := by
  unfold notingHalf ItemM.Gives at *
  simp only [ItemM.on, ReaderT.run, tryCatch, tryCatchThe, MonadExceptOf.tryCatch, ExceptT.tryCatch, ExceptT.mk,
    StateT.bind, ExceptT.run, bind] at *
  rw [hw]
  rfl

/-- Nor is one that waits. -/
theorem notingHalf_holds {w : ItemM Done} (hw : w.Holds e s u) : (notingHalf h w).Holds e s u := by
  unfold notingHalf ItemM.Holds at *
  simp only [ItemM.on, ReaderT.run, tryCatch, tryCatchThe, MonadExceptOf.tryCatch, ExceptT.tryCatch, ExceptT.mk,
    StateT.bind, ExceptT.run, bind] at *
  rw [hw]
  rfl

/-- A half under way whose packets are all there is finished. -/
theorem halfWork_under_way (hd : s.detached = false) (hr : s.findRun e.run = some r) (hi : i = s.chorusAt r.chorusGen)
    (hp : p = collPay e.desc) (hh : s.halfOf e.run e.item = some h) (hw : h.whole (i.rankSlots p.entry).length p.root = true)
    (hf : (finishHalf h (i.rankSlots p.entry).length p).Gives e s d u) : (halfWork op).Gives e s d u := by
  subst hi hp
  unfold halfWork
  refine gives_bind (notDetached_gives hd) (gives_read (gives_get ?_))
  rw [hr, hh]
  dsimp only
  rw [if_pos hw]
  exact hf

/-- What an item of a half does once its entry is read (R399 to R401). -/
def beginHalf (ok : Bool) (op me : Nat) (slots : List Nat) (p : CollPay) (x : CollItem) (h0 : Half) : ItemM Done := do
  require ok stBad
  if x.count = 0 ∧ op ≠ 3 then
    modify fun s => s.noteHalf h0 stEmpty
    return done stEmpty (collDetail x.seq 0 0)
  let bs ← ownBytes op me slots.length x p
  if !p.reducing op then
    modify fun s => s.noteHalf h0 stOk
    return done stOk (collDetail x.seq 0 1) (64 + x.count / 16)
  let h ← startHalf h0 slots p.root bs
  if h.whole slots.length p.root then finishHalf h slots.length p else throw .hold

theorem halfWork_begins {out : Except Stop Done × State} (hd : s0.detached = false) (hr : s0.findRun e.run = some r)
    (hi : i = s0.chorusAt r.chorusGen) (hp : p = collPay e.desc) (hh : s0.halfOf e.run e.item = none)
    (hc : (collCheck e.desc op).Gives e s0 () s0) (hb : (collBound e.desc op r.chorusGen).Gives e s0 () s0)
    (hme : s0.rankOf i p.entry s0.member = some me) (hl : (load (p.list + 32 * e.item) 32).Gives e s0 b s1) (hx : x = collItem b)
    (hn : (noteCount x.seq).Gives e s1 () s2) (hh0 : h0 = s0.newHalf e p x r.chorusGen op me)
    (hok : s0.collItemOk x op (i.rankSlots p.entry).length me p = true)
    (hout : (notingHalf h0 (beginHalf true op me (i.rankSlots p.entry) p x h0)).on e s2 = out) : (halfWork op).on e s0 = out := by
  rw [← hok] at hout
  subst hi hp hx hh0
  unfold halfWork
  rw [on_bind_ok (notDetached_gives hd), on_read_bind, on_get_bind, hr, hh]
  dsimp only
  rw [on_bind_ok hc, on_bind_ok hb, on_bind_ok hl, hme]
  dsimp only [Option.getD_some]
  rw [on_bind_ok hn]
  exact hout

theorem beginHalf_empty (h0' : x.count = 0) (h3 : op ≠ 3) :
    (beginHalf true op me slots p x h0).Gives e s2 (done stEmpty (collDetail x.seq 0 0)) (s2.noteHalf h0 stEmpty) := by
  unfold beginHalf
  refine gives_require rfl ?_
  rw [if_pos ⟨h0', h3⟩]
  exact gives_modify (gives_pure _)

theorem beginHalf_on {out : Except Stop Done × State} (hne : x.count ≠ 0 ∨ op = 3)
    (hown : (ownBytes op me slots.length x p).Gives e s2 bs s3)
    (hout : (if p.reducing op then (do
        let h ← startHalf h0 slots p.root bs
        if h.whole slots.length p.root then finishHalf h slots.length p else throw .hold)
      else modify (fun s => s.noteHalf h0 stOk) >>= fun _ => pure (done stOk (collDetail x.seq 0 1) (64 + x.count / 16)) :
        ItemM Done).on e s3 = out) : (beginHalf true op me slots p x h0).on e s2 = out := by
  subst hout
  unfold beginHalf
  rw [on_require_bind _ rfl, if_neg (by tauto), on_bind_ok hown]
  cases p.reducing op <;> rfl

/-- Settles O38. -/
theorem collectiveHalvesEnd : Obligations.CollectiveHalvesEnd := by
  unfold Obligations.CollectiveHalvesEnd
  rintro s w s0 run item now op ranks c r e i p hc rfl hr rfl rfl hdet hi hp rfl
  have command : exec c s = .next ((s.tick now).runItem 0xB op (halfWork op) run item) := by
    rcases hc with ⟨rfl, rfl⟩ | ⟨rfl, rfl⟩ | ⟨rfl, rfl⟩ | ⟨rfl, rfl⟩ | ⟨rfl, rfl⟩ <;> rfl
  replace hdet : ((s.tick now).beginItem run item).detached = false := hdet
  obtain ⟨q, hq, shell⟩ := beginItem_find (item := item) (itemReady_spec hr).1
  have gen : r.chorusGen = q.chorusGen := (congrArg Run.chorusGen shell.symm :)
  have hrun : ((s.tick now).beginItem run item).findRun (r.env (s.tick now) item).run = some q := by
    rw [Run.env_run, itemReady_id hr]
    exact hq
  have ends : ∀ {d : Done} {u : State}, (halfWork op).Gives (r.env (s.tick now) item) ((s.tick now).beginItem run item) d u →
      d.status < 16 → u.CanEnd run item r → ∃ t, exec c s = .next t ∧ ItemEnds u t run item d.status d.detail d.cycles :=
    fun hg hs hu => ⟨_, command, runItem_gives hr (by decide) (by decide) hg hs hu⟩
  rw [gen] at hi
  constructor
  · rintro h u dt cy hh hw hf hu
    refine ends (halfWork_under_way hdet hrun hi hp ?_ hw hf) (show stOk < 16 by decide) hu
    rw [Run.env_run, itemReady_id hr]
    exact hh
  · rintro me b x h0 s1 s2 hh hck hb hme hl hx hn hok hh0
    rw [gen] at hb hh0
    have begins := fun {out} => halfWork_begins (out := out) (e := r.env (s.tick now) item) hdet hrun hi hp hh hck hb hme hl hx hn hh0 hok
    refine ⟨fun hz h3 hu => ?_, fun hne bs s3 hown => ⟨fun hred hu => ?_, fun h s4 hred hst => ⟨fun hw => ?_, ?_⟩⟩⟩
    · exact ends (begins (notingHalf_gives (beginHalf_empty hz h3))) (show stEmpty < 16 by decide) hu
    · refine ends (d := done stOk (collDetail x.seq 0 1) (64 + x.count / 16))
        (begins (notingHalf_gives (beginHalf_on hne hown ?_))) (show stOk < 16 by decide) hu
      rw [if_neg (by simp [hred])]
      exact gives_modify (gives_pure _)
    · refine command.trans (congrArg Host.Outcome.next (runItem_holds hr (begins (notingHalf_holds (beginHalf_on hne hown ?_)))))
      rw [if_pos hred, on_bind_ok hst, if_neg (by simp [hw])]
      exact holds_throw
    · rintro u dt cy hw hf hu
      refine ends (d := done stOk dt cy) (begins (notingHalf_gives (beginHalf_on hne hown ?_))) (show stOk < 16 by decide) hu
      rw [if_pos hred, on_bind_ok hst, if_pos hw]
      exact hf

end Sys2Proof.Machine
end

