-- ==== Sys2Proof/Proofs/Mirrors.lean ====
section
/-! SUPPORT. The steps of a mirror, and a restore from the newer complete slot (R415 to R417). -/
namespace Sys2Proof.Machine

variable {e : ItemEnv} {s s0 s1 s2 s3 u : State} {r : Run} {i : ChorusImage} {m : Manifest} {ext h : List Byte}
  {entry man hdr v : Nat}

/-- What a mirror does at its stage, once its slot is known. -/
def mirrorStep (stage buddy slot cue : Nat) (m : Manifest) (ext : List Byte) : ItemM Done := do
  if stage = 0 then
    store (slot + 6) (leBytes 1 0)
    modifyItem fun x => { x with stage := 1 }
    throw .hold
  else if stage = 1 then
    mirrorCopy buddy m.seq ext m.extents
    modifyItem fun x => { x with stage := 2 }
    throw .hold
  else if stage = 2 then
    store (slot + 64) ext
    modifyItem fun x => { x with stage := 3 }
    throw .hold
  else
    store slot (mirrorHeader m cue ext)
    return done stOk m.seq (256 + extentBytes ext m.extents / 64)

/-- A mirror whose manifest passes its checks comes to its stage. -/
theorem mirrorWork_on {buddy slot stage : Nat} {out : Except Stop Done × State} (hen : mirrorEntry.Gives e s0 (entry, i) s0)
    (h34 : leAt e.desc 34 6 = 0) (hman : man = leAt e.desc 40 8) (hh : buddyHdr.Gives e s0 hdr s0)
    (hv : (i.rankSlots entry).find? (fun v => s0.slotHeld s0.member v) = some v) (hwatch : slotWatched v = true)
    (hrange : s0.collRange man 64 = true) (hb : buddy = slotBuddy v) (hl : (load man 64).Gives e s0 h s1) (hm : m = manifest h)
    (hok : manifestOk h = true) (h0 : m.state = 0) (ho : m.origin = s0.member)
    (hrange' : s0.collRange man (64 + 32 * m.extents) = true) (hx : (load (man + 64) (32 * m.extents)).Gives e s1 ext s2)
    (hxs : ∀ k, k < m.extents → extentOk s0.collRange ext k = true) (hslot : slot = onBuddy buddy hdr + 65536 * (m.seq % 2))
    (hst : itemStage.Gives e s2 stage s2) (hq : s0.waitsAck e.run e.item = false)
    (hout : (mirrorStep stage buddy slot s0.cueNo m ext).on e s2 = out) : mirrorWork.on e s0 = out := by
  subst hman hb hm hslot
  unfold mirrorWork
  rw [on_bind_ok hen]
  dsimp only
  rw [on_bind_ok (payZero_gives h34), on_read_bind, on_get_bind, on_pay_bind, on_bind_ok hh, hv]
  dsimp only
  rw [on_require_bind _ (Bool.and_eq_true_iff.2 ⟨hwatch, hrange⟩), on_bind_ok hl,
    on_require_bind _ (by rw [hok, h0, ho, hrange']; simp), on_bind_ok hx,
    on_require_bind _ (List.all_eq_true.2 fun k hk => hxs k (List.mem_range.1 hk)), on_bind_ok hst, if_neg (by simp [hq])]
  exact hout

/-- A restore whose slot is there stores its extents. -/
theorem restoreWork_gives {lost : Nat} {a b : Option (Manifest × List Byte)} {parts : List (Extent × List Byte)}
    (hen : mirrorEntry.Gives e s0 (entry, i) s0) (h36 : leAt e.desc 36 12 = 0) (hlost : lost = leAt e.desc 34 2) (h4096 : lost < 4096)
    (hh : buddyHdr.Gives e s0 hdr s0) (hv : (i.rankSlots entry).find? (fun v => slotMember v == lost) = some v)
    (hwatch : slotWatched v = true) (hmay : s0.mayRestore lost entry = true)
    (ha : (readSlot (onBuddy (slotBuddy v) hdr) lost).Gives e s0 a s1)
    (hb : (readSlot (onBuddy (slotBuddy v) hdr + 65536) lost).Gives e s1 b s2) (hbest : bestSlot a b = some (m, ext))
    (hparts : (bankParts (slotBuddy v) m ext).Gives e s2 parts s3)
    (hall : ∀ q ∈ parts, s0.collRange (onBuddy s0.member q.1.addr) q.1.len = true)
    (hst : (storeParts s0.member parts).Gives e s3 () u) :
    restoreWork.Gives e s0 (done stOk m.seq (256 + extentBytes ext m.extents / 64)) u := by
  subst hlost
  unfold restoreWork
  refine gives_bind hen ?_
  dsimp only
  refine gives_bind (payZero_gives h36) (gives_get (gives_pay (gives_bind hh (gives_require (decide_eq_true h4096) ?_))))
  rw [hv]
  refine gives_require hwatch (gives_require hmay (gives_bind ha (gives_bind hb ?_)))
  rw [hbest]
  exact gives_bind hparts (gives_require (List.all_eq_true.2 hall) (gives_bind hst (gives_pure _)))

/-- Settles O39. -/
theorem mirrorsWrittenAndRestored : Obligations.MirrorsWrittenAndRestored := by
  unfold Obligations.MirrorsWrittenAndRestored
  constructor
  · rintro s w s0 s1 s2 u run item now entry man hdr v buddy slot stage r e i m h ext rfl hr rfl rfl hen h34 hman hh hv hwatch hrange hb
      hl hm hok h0 ho hrange' hx hxs hslot hst hq
    have works := fun {out} => mirrorWork_on (out := out) (e := r.env (s.tick now) item) hen h34 hman hh hv hwatch hrange hb hl hm hok h0
      ho hrange' hx hxs hslot hst (by rw [Run.env_run, itemReady_id hr]; exact hq)
    have staged : ∀ {w : ItemM PUnit} {n : Nat}, w.Gives (r.env (s.tick now) item) s2 () u →
        (w >>= fun _ => modifyItem (fun x => { x with stage := n }) >>= fun _ => throw .hold : ItemM Done).Holds
          (r.env (s.tick now) item) s2 (u.onItem r.id item fun x => { x with stage := n }) := fun hw => holds_bind hw rfl
    refine ⟨?_, ?_, ?_, ?_⟩
    · rintro rfl hst
      exact congrArg Host.Outcome.next (runItem_holds hr (works (staged hst)))
    · rintro rfl hst
      exact congrArg Host.Outcome.next (runItem_holds hr (works (staged hst)))
    · rintro rfl hst
      exact congrArg Host.Outcome.next (runItem_holds hr (works (staged hst)))
    · rintro rfl hst hopen
      have mirrored := works (out := (.ok (done stOk m.seq (256 + extentBytes ext m.extents / 64)), u))
        (show ItemM.Gives _ _ _ _ _ from gives_bind hst (gives_pure _))
      exact ⟨_, rfl, fun hack => acking_of_gives hr mirrored hopen hack (show stOk < 16 by decide),
        fun hu => runItem_gives hr (by decide) (by decide) mirrored (show stOk < 16 by decide) hu⟩
  · rintro s w s0 s1 s2 s3 u run item now entry lost hdr v r e i m ext a b parts rfl hr rfl rfl hen h36 hlost h4096 hh hv hwatch hmay ha
      hb hbest hparts hall hst hu
    exact ⟨_, rfl, runItem_gives hr (by decide) (by decide) (restoreWork_gives (e := r.env (s.tick now) item) hen h36 hlost h4096 hh hv
      hwatch hmay ha hb hbest hparts hall hst) (show stOk < 16 by decide) hu⟩

end Sys2Proof.Machine
end

