-- ==== Sys2Proof/Proofs/CollectivePackets.lean ====
section
/-! SUPPORT. Packets of collectives, the time-out of a half, and the takeover by an understudy (R400, R407, R409, R413). -/
namespace Sys2Proof.Machine

variable {s w : State} {run item : Nat} {k : CollPacket} {r : Run}

/-! ### Packets -/

/-- A packet of the context's own generation, of an enabled context, is matched to its half. -/
theorem takeColl_matches (hg : s.ctxGen k.context = k.fabGen) (_ : k.fabGen < 256) (hp : s.powerState ≠ 3)
    (hen : s.flag (ctxCtrlEn k.context) = true) : s.takeColl k = s.dropHeld.matchColl k := by
  have zero : s.genBehind k.context k.fabGen = 0 := by
    unfold State.genBehind
    omega
  unfold State.takeColl
  rw [zero]
  dsimp only
  rw [if_neg (by decide), if_neg (by simp), if_pos rfl, if_neg hp, if_neg (by simp [hen])]

/-- A packet above what has ended here is placed. -/
theorem matchColl_fresh (h : ∀ y, s.lastEnded k.context k.entry = some y → seqAbove k.seq y.1 = true ∧ k.seq ≠ y.1) :
    s.matchColl k = s.placeColl k (collRequest k s.member) := by
  unfold State.matchColl
  cases hl : s.lastEnded k.context k.entry with
  | none => rfl
  | some y =>
    obtain ⟨above, ne⟩ := h y hl
    dsimp only
    rw [if_neg (by simp [ne]), if_neg (by simp [above])]

/-- A packet at or below what has ended here is stale, unless it is answered with the status of that end. -/
theorem matchColl_stale {q st : Nat} (h : s.lastEnded k.context k.entry = some (q, st)) (hs : seqAbove k.seq q = false)
    (hne : ¬(k.seq = q ∧ 0x10 ≤ st)) : s.matchColl k = s.bump collStaleDropsCount := by
  unfold State.matchColl
  rw [h]
  dsimp only
  rw [if_neg hne, if_pos (by simp [hs])]

/-! ### Time-outs -/

theorem endItem_mem (hc : ∀ r, s.findRun run = some r → hdrClass r.desc.bytes ≠ 7 ∧ hdrClass r.desc.bytes ≠ 8) (st dt : Nat) :
    (s.endItem run item st dt).mem = s.mem := by
  unfold State.endItem
  split
  · rfl
  · rw [releaseCodec_of_class hc]
    refine (leaveItem_leaves (s.releaseFeed run item st) run item st).mem.trans ?_
    unfold State.releaseFeed
    dsimp only
    split
    · rfl
    · split <;> rfl

/-- An item of no codec class that is cut short writes nothing. -/
theorem endEarly_mem (hr : s.findRun run = some r) (hc : hdrClass r.desc.bytes ≠ 7 ∧ hdrClass r.desc.bytes ≠ 8) (st dt : Nat) :
    (s.endEarly run item st dt).mem = s.mem := by
  have cls : ∀ t : State, (t.findRun run).map Run.desc = (s.findRun run).map Run.desc →
      ∀ q, t.findRun run = some q → hdrClass q.desc.bytes ≠ 7 ∧ hdrClass q.desc.bytes ≠ 8 := by
    intro t ht q hq
    rw [hq, hr] at ht
    rw [Option.some.inj ht]
    exact hc
  unfold State.endEarly
  split
  · exact (endItem_mem (cls (s.noteCycles run item 0) (desc_onItem s run item run _)) _ _).trans rfl
  · exact endItem_mem (cls s rfl) _ _

/-- DETAIL of an item of a collective that has read its entry: what it is given, or its SEQ alone. -/
theorem detailFor_coll {y : Item} {st seq m : Nat} (hr : s.findRun run = some r) (hc : hdrClass r.desc.bytes = 0xB)
    (hy : s.itemOf run item = some y) (hn : y.note nkCount = [seq]) (hst : st ≠ stEmpty) :
    s.detailFor run item st (collDetail seq m 0) = collDetail seq m 0 := by
  unfold State.detailFor
  split
  · rfl
  · next h =>
    have zero : collDetail seq m 0 = 0 := by simpa [hst] using h
    have early : s.earlyDetail r y = collDetail seq 0 0 := by
      unfold State.earlyDetail reportsRows
      dsimp only
      rw [hc, hn]
      rfl
    unfold State.itemOf at hy
    rw [hr] at hy ⊢
    dsimp only
    rw [show r.item item = some y from hy, zero]
    refine early.trans ?_
    unfold collDetail at zero ⊢
    omega

/-- Settles O40. -/
theorem packetsMeetTheirHalves : Obligations.PacketsMeetTheirHalves := by
  unfold Obligations.PacketsMeetTheirHalves
  refine ⟨?_, ?_, ?_, ?_⟩
  · rintro s u k q hg h256 hp hen rfl rfl hfresh
    have placed : exec (.collectivePacket k) s = .next (s.dropHeld.placeColl k (collRequest k s.dropHeld.member)) :=
      congrArg Host.Outcome.next ((takeColl_matches hg h256 hp hen).trans (matchColl_fresh hfresh))
    refine ⟨fun hnone hroom => placed.trans (congrArg Host.Outcome.next ?_),
      fun h hsome hskew => placed.trans (congrArg Host.Outcome.next ?_)⟩
    · unfold State.placeColl
      rw [hnone]
      exact if_neg (by omega)
    · unfold State.placeColl
      rw [hsome]
      exact if_neg (by simp [hskew])
  · rintro s k q st hg h256 hp hen hl hs hne
    exact congrArg Host.Outcome.next ((takeColl_matches hg h256 hp hen).trans (matchColl_stale hl hs hne))
  · rintro s run item k h r y slots hh hr rfl hk hwait hc ho hy hn
    have command : exec (.halfWaitTimeout run item) s = .next (s.endEarly run item stTimeout
        (collDetail h.seq (slotMember (((s.chorusAt h.gen).rankSlots h.entry).getD k 0)) 0)) := by
      refine congrArg Host.Outcome.next ?_
      unfold State.halfWait
      rw [hh, hr]
      dsimp only
      rw [hk]
      exact if_pos hwait
    obtain ⟨x, hx, he⟩ := itemOpen_iff.1 ho
    refine ⟨_, command, ?_, endEarly_mem hr (by rw [hc]; decide) _ _, (endEarly_cuts _ _ _ _ _).rings⟩
    rw [phaseOf_endEarly s run item _ _ hx he, detailFor_coll hr hc hy hn (by decide)]
  · rintro s w lost entry now k x rfl hx hk hacted hmuted hdue hroute hann
    refine congrArg Host.Outcome.next ?_
    unfold State.takeover
    rw [hx, hk]
    dsimp only
    have none1 : ((s.tick now).fab.route.aliases.any fun a => a.1 == lost) = false := by simpa using hroute
    have none2 : ((s.tick now).announcedPairs.any fun a => a.1 == lost) = false := by simpa using hann
    rw [none1, none2, hacted, hmuted, if_neg (by simpa using hdue)]

end Sys2Proof.Machine
end

