-- ==== Sys2Proof/Proofs/PortTraining.lean ====
section
/-! SUPPORT. Ports: what a port holds, what traffic leaves of it, and how it trains, retrains and goes down (R355 to R359). -/
namespace Sys2Proof.Machine

variable {s t u w : State} {n k : Nat}

/-! ### One port changed -/

theorem port_setPort (s : State) (n : Nat) (p : Port) : (s.setPort n p).port n = p := by
  show (match cellFind n (cellPut s.fab.ports n (if p = Port.init then none else some p)) with
    | some p => p
    | none => Port.init) = p
  rw [cellFind_put_same]
  by_cases h : p = Port.init
  · rw [if_pos h, h]
  · rw [if_neg h]

theorem port_setPort_other (s : State) (p : Port) (h : k ≠ n) : (s.setPort n p).port k = s.port k := by
  unfold State.port State.setPort
  dsimp only
  rw [cellFind_put_other _ _ _ _ h]

theorem port_congr (h : t.fab.ports = s.fab.ports) (n : Nat) : t.port n = s.port n := by
  unfold State.port
  rw [h]

/-! ### What leaves a port alone -/

/-- A port and its status are as they were. -/
def PortKept (n : Nat) (s t : State) : Prop := t.port n = s.port n ∧ t.reg (rFabPortStatus n) = s.reg (rFabPortStatus n)

theorem PortKept.refl (n : Nat) (s : State) : PortKept n s s := ⟨rfl, rfl⟩

theorem PortKept.trans (a : PortKept n s t) (b : PortKept n t u) : PortKept n s u := ⟨b.1.trans a.1, b.2.trans a.2⟩

theorem portKept_foldl {α : Type} {g : State → α → State} (hg : ∀ t x, PortKept n t (g t x)) (l : List α) (s : State) :
    PortKept n s (l.foldl g s) := by
  induction l generalizing s with
  | nil => exact .refl n s
  | cons x l ih => exact (hg s x).trans (ih _)

theorem portKept_of_cuts (h : Cuts s t) : PortKept n s t :=
  ⟨port_congr (by rw [h.fab]) n, h.reg _ (by unfold cutRegs rFnStatus rMemerrLogProd rMemerrLogLost rFabPortStatus; omega)⟩

theorem portKept_setFld (s : State) (f : Fld) (v : Nat) (h : rFabPortStatus n ≠ f.off) : PortKept n s (s.setFld f v) :=
  ⟨rfl, reg_setReg_other _ _ _ _ h⟩

theorem chorusEvent_portKept (s : State) (x : ChorusEvent) (hn : n < 12) : PortKept n s (s.chorusEvent x) := by
  have post : ∀ e, PortKept n s (s.logPost chorusLog e) := by
    intro e
    unfold State.logPost
    split
    · exact .refl n s
    · split
      · refine PortKept.trans ?_ (portKept_setFld _ chorusLogProdProd _ (by unfold rFabPortStatus; show _ ≠ 0x601C; omega))
        exact ⟨rfl, rfl⟩
      · exact portKept_setFld s chorusLogLostLost _ (by unfold rFabPortStatus; show _ ≠ 0x6024; omega)
  unfold State.chorusEvent
  dsimp only
  split
  · exact (post _).trans (portKept_of_cuts (event_cuts _))
  · exact post _

/-! ### A member lost -/

theorem failHalves_cuts (s : State) (m : Nat) : Cuts s (s.failHalves m) := by
  refine cuts_foldl (fun t r => ?_) _ _
  dsimp only
  split
  · exact cuts_foldl (fun u x => endEarly_cuts _ _ _ _ _) _ _
  · exact .refl _

theorem loseMember_portKept (s : State) (a b c d e : Nat) (hn : n < 12) : PortKept n s (s.loseMember a b c d e) := by
  unfold State.loseMember
  split
  · exact .refl n s
  · dsimp only
    refine PortKept.trans ?_ (portKept_foldl (fun t x => chorusEvent_portKept t _ hn) _ _)
    refine PortKept.trans ?_ (PortKept.trans (t := State.failHalves _ a) (portKept_of_cuts (failHalves_cuts _ a)) ⟨rfl, rfl⟩)
    refine PortKept.trans ?_ (chorusEvent_portKept _ _ hn)
    exact PortKept.trans (t := { s with coll := _ }) ⟨rfl, rfl⟩
      (portKept_setFld _ chorusStatusLostCount _ (by unfold rFabPortStatus; show _ ≠ 0x6008; omega))

/-- A flood leaves a port that is not up alone. -/
theorem flood_portKept {p : Packet} (hp : p.status % 2 = 1) (hd : s.portUp n = false) : PortKept n s (s.originate p) := by
  have sent : ∀ (l : List Nat) (t : State), n ∉ l → PortKept n t (l.foldl (fun t k => t.sendOn k p) t) := by
    intro l
    induction l with
    | nil => exact fun t _ => .refl n t
    | cons k l ih =>
      intro t hk
      simp only [List.mem_cons, not_or] at hk
      refine PortKept.trans ?_ (ih _ hk.2)
      unfold State.sendOn State.sendVia
      dsimp only
      split
      · exact ⟨port_setPort_other _ _ hk.1, rfl⟩
      · exact ⟨port_setPort_other _ _ hk.1, rfl⟩
  unfold State.originate State.promptNow
  rw [if_pos hp]
  split
  · refine PortKept.trans (t := { s with fab := { s.fab with sent := s.fab.sent + 1 } }) ⟨rfl, rfl⟩ (sent _ _ fun hm => ?_)
    have up := (List.mem_filter.1 hm).2
    rw [show ({ s with fab := { s.fab with sent := s.fab.sent + 1 } } : State).portUp n = s.portUp n from rfl, hd] at up
    cases up
  · exact ⟨rfl, rfl⟩

theorem declareLost_portKept (s : State) (m cause : Nat) (needs : Nat → Bool) (hn : n < 12) (hd : s.portUp n = false) :
    PortKept n s (s.declareLost m cause needs) := by
  unfold State.declareLost
  split
  · split
    · exact .refl n s
    · exact (flood_portKept rfl hd).trans (loseMember_portKept _ _ _ _ _ _ hn)
  · exact .refl n s

/-! ### Traffic -/

/-- Traffic on port `n`: what it queues, sends and counts (R356, R359). -/
structure Flows (n : Nat) (s t : State) : Prop where
  rest : t = { s with regs := t.regs, fab := { s.fab with ports := t.fab.ports }, outs := t.outs }
  reg : ∀ o, o ≠ rFabPortErr n → t.reg o = s.reg o
  port : t.port n = { s.port n with
    replay := (t.port n).replay, txSeq := (t.port n).txSeq, credits := (t.port n).credits, queue := (t.port n).queue }

theorem Flows.refl (n : Nat) (s : State) : Flows n s s := ⟨rfl, fun _ _ => rfl, rfl⟩

theorem Flows.trans (a : Flows n s t) (b : Flows n t u) : Flows n s u where
  rest := by rw [b.rest, a.rest]
  reg o h := (b.reg o h).trans (a.reg o h)
  port := by rw [b.port, a.port]

theorem flows_foldl {α : Type} {g : State → α → State} (hg : ∀ t x, Flows n t (g t x)) (l : List α) (s : State) :
    Flows n s (l.foldl g s) := by
  induction l generalizing s with
  | nil => exact .refl n s
  | cons x l ih => exact (hg s x).trans (ih _)

theorem sendVia_flows (s : State) (n vc : Nat) (p : Packet) : Flows n s (s.sendVia n vc p) := by
  unfold State.sendVia
  dsimp only
  split
  · refine ⟨rfl, fun _ _ => rfl, ?_⟩
    rw [port_setPort]
  · refine ⟨rfl, fun _ _ => rfl, ?_⟩
    rw [show ∀ (t : State) (o : Output), (t.emit o).port n = t.port n from fun _ _ => rfl, port_setPort]

theorem flushQueue_flows (s : State) (n : Nat) : Flows n s (s.flushQueue n) := by
  have emptied : Flows n s (s.onPort n fun q => { q with queue := [] }) := by
    refine ⟨rfl, fun _ _ => rfl, ?_⟩
    unfold State.onPort
    rw [port_setPort]
  exact emptied.trans (flows_foldl (fun t (x : Nat × Packet) => sendVia_flows t n x.1 x.2) _ _)

/-- With nothing queued there is nothing to send. -/
theorem flushQueue_empty (h : (s.port n).queue = []) : s.flushQueue n = s.onPort n fun q => { q with queue := [] } := by
  unfold State.flushQueue
  rw [h]
  rfl

theorem replayAll_flows (s : State) (n : Nat) : Flows n s (s.replayAll n) := by
  unfold State.replayAll
  exact Flows.trans (flows_foldl (fun t (f : Nat × Nat × List Byte) => (⟨rfl, fun _ _ => rfl, rfl⟩ : Flows n t (t.emit _))) _ _)
    ⟨rfl, fun o h => reg_setReg_other _ _ _ _ h, rfl⟩

theorem Flows.status (h : Flows n s t) : t.reg (rFabPortStatus n) = s.reg (rFabPortStatus n) :=
  h.reg _ (by unfold rFabPortStatus rFabPortErr; omega)

/-! ### Training -/

/-- What training makes of a port's status. -/
def State.trainedStatus (s : State) (n : Nat) (p : PeerInfo) : State :=
  let t := (s.setFld (fabPortStatusState n) (if 4 ≤ p.lanes then 2 else 3)).setFlag (fabPortStatusPeerSwitch n) p.isSwitch
  ((t.setFld (fabPortStatusPeer n) (if p.isSwitch then 0 else p.member)).setFld (fabPortStatusPeerPort n) p.port).setFld
    (fabPortStatusDelayNs n) (min p.delayNs 4095)

/-- The five fields of a port's status, set one after another. -/
theorem statusFlds {a b c d e : Nat} (ha : a < 8) (hb : b < 2) (hc : c < 4096) (hd : d < 16) (he : e < 4096)
    (ht : t = ((((s.setFld (fabPortStatusState n) a).setFld (fabPortStatusPeerSwitch n) b).setFld (fabPortStatusPeer n) c).setFld
      (fabPortStatusPeerPort n) d).setFld (fabPortStatusDelayNs n) e) :
    t.fld (fabPortStatusState n) = a ∧ t.fld (fabPortStatusPeerSwitch n) = b ∧ t.fld (fabPortStatusPeer n) = c ∧
      t.fld (fabPortStatusPeerPort n) = d ∧ t.fld (fabPortStatusDelayNs n) = e := by
  subst ht
  refine ⟨?_, ?_, ?_, ?_, ?_⟩
  all_goals simp only [fabPortStatusState, fabPortStatusPeerSwitch, fabPortStatusPeer, fabPortStatusPeerPort, fabPortStatusDelayNs]
  · simp [fld_setFld_other]
    exact fld_setFld _ _ _ (by simp) ha
  · simp [fld_setFld_other]
    exact fld_setFld _ _ _ (by simp) hb
  · simp [fld_setFld_other]
    exact fld_setFld _ _ _ (by simp) hc
  · simp [fld_setFld_other]
    exact fld_setFld _ _ _ (by simp) hd
  · exact fld_setFld _ _ _ (by simp) he

theorem trainedStatus_flds {p : PeerInfo} (hm : p.member < 4096) (hp : p.port < 16) :
    (s.trainedStatus n p).fld (fabPortStatusState n) = (if 4 ≤ p.lanes then 2 else 3) ∧
    (s.trainedStatus n p).flag (fabPortStatusPeerSwitch n) = p.isSwitch ∧
    (s.trainedStatus n p).fld (fabPortStatusPeer n) = (if p.isSwitch then 0 else p.member) ∧
    (s.trainedStatus n p).fld (fabPortStatusPeerPort n) = p.port ∧
    (s.trainedStatus n p).fld (fabPortStatusDelayNs n) = min p.delayNs 4095 := by
  obtain ⟨h1, h2, h3, h4, h5⟩ := statusFlds (s := s) (n := n) (t := s.trainedStatus n p)
    (a := if 4 ≤ p.lanes then 2 else 3) (b := if p.isSwitch then 1 else 0) (c := if p.isSwitch then 0 else p.member) (d := p.port)
    (e := min p.delayNs 4095) (by split <;> decide) (by split <;> decide) (by split <;> omega) hp (by omega) rfl
  refine ⟨h1, ?_, h3, h4, h5⟩
  unfold State.flag
  rw [h2]
  cases p.isSwitch <;> rfl

/-- A port that trains, before traffic goes on. -/
def State.trained (s : State) (n : Nat) (p : PeerInfo) : State :=
  (s.setPort n { s.port n with trained := true, everUp := true, paused := false, failedReplays := 0, lastGood := s.now }).trainedStatus
    n p

/-- The same, with what it held sent. -/
def State.resumed (s : State) (n : Nat) (p : PeerInfo) : State :=
  let t := if 4 ≤ p.lanes then s.trained n p else (s.trained n p).bump (fabPortErrDegrades n)
  (if (s.port n).replay.isEmpty then t else t.replayAll n).flushQueue n

theorem bump_flows (s : State) (n : Nat) : Flows n s (s.bump (fabPortErrDegrades n)) :=
  ⟨rfl, fun _ h => reg_setReg_other _ _ _ _ h, rfl⟩

theorem resumed_flows (s : State) (n : Nat) (p : PeerInfo) : Flows n (s.trained n p) (s.resumed n p) := by
  have replayed : ∀ t : State, Flows n t (if (s.port n).replay.isEmpty then t else t.replayAll n) := by
    intro t
    split
    · exact .refl n t
    · exact replayAll_flows t n
  unfold State.resumed
  refine Flows.trans ?_ (flushQueue_flows _ n)
  refine Flows.trans ?_ (replayed _)
  split
  · exact .refl n _
  · exact bump_flows _ n

/-- A port that trains is up and goes on; a lost member that returns may be logged. -/
theorem trainPort_eq {p : PeerInfo} (hs : s.portState n = 0 ∨ s.portState n = 1)
    (hm : p.isSwitch = true ∨ p.member ≠ s.member)
    (hl : 4 ≤ p.lanes ∨ 2 ≤ p.lanes ∧ s.flag (fabPortCtrlDegradeEn n) = true) :
    s.trainPort n p = if p.isSwitch then s.resumed n p else (s.resumed n p).logReturn p.member := by
  have ready : ¬((!(s.portState n == 0 || s.portState n == 1)) = true) := by simpa using fun h => hs.resolve_left h
  have other : ¬((!p.isSwitch && decide (p.member = s.member)) = true) := by
    rcases hm with h | h <;> simp [h]
  have lanes : ¬((decide (p.lanes < 4) && !(s.flag (fabPortCtrlDegradeEn n) && decide (2 ≤ p.lanes))) = true) := by
    rcases hl with h | ⟨h, hd⟩
    · simp [h]
    · simp [h, hd]
  unfold State.trainPort State.resumed State.trained State.trainedStatus
  dsimp only
  rw [if_neg ready, if_neg other, if_neg lanes]
  simp only [decide_eq_true_eq]

theorem logReturn_portKept (s : State) (m : Nat) (hn : n < 12) : PortKept n s (s.logReturn m) := by
  unfold State.logReturn
  split
  · exact chorusEvent_portKept _ _ hn
  · exact .refl n s

theorem portKept_fld (h : PortKept n s t) (lo w : Nat) : t.fld ⟨rFabPortStatus n, lo, w⟩ = s.fld ⟨rFabPortStatus n, lo, w⟩ :=
  congrArg (fun v => field v lo w) h.2

theorem trainPort_spec {p : PeerInfo} (hn : n < 12) (hs : s.portState n = 0 ∨ s.portState n = 1)
    (hm : p.isSwitch = true ∨ p.member ≠ s.member)
    (hl : 4 ≤ p.lanes ∨ 2 ≤ p.lanes ∧ s.flag (fabPortCtrlDegradeEn n) = true) :
    (s.trainPort n p).reg (rFabPortStatus n) = (s.trained n p).reg (rFabPortStatus n) ∧
      ((s.trainPort n p).port n).trained = true ∧ ((s.trainPort n p).port n).everUp = true := by
  have flows := resumed_flows s n p
  have kept : PortKept n (s.resumed n p) (s.trainPort n p) := by
    rw [trainPort_eq hs hm hl]
    split
    · exact .refl n _
    · exact logReturn_portKept _ _ hn
  have base : (s.trained n p).port n = { s.port n with
      trained := true, everUp := true, paused := false, failedReplays := 0, lastGood := s.now } := port_setPort s n _
  refine ⟨kept.2.trans flows.status, ?_, ?_⟩
  · rw [kept.1, congrArg Port.trained flows.port, base]
  · rw [kept.1, congrArg Port.everUp flows.port, base]

/-! ### Down -/

/-- What a port that goes down leaves of itself. -/
theorem dropPort_spec (s : State) (hn : n < 12) : (s.dropPort n).portState n = 0 ∧
    (s.dropPort n).port n = { Port.init with everUp := (s.port n).everUp } := by
  have down : ∀ t : State, (((t.setFld (fabPortStatusState n) 0).bump (fabPortErrDowns n)).portState n = 0) := by
    intro t
    refine (fld_setFld_other _ (fabPortErrDowns n) _ _ (by simp [fabPortErrDowns]) (.inl ?_)).trans
      (fld_setFld t (fabPortStatusState n) 0 (by simp [fabPortStatusState]) (by simp [fabPortStatusState]))
    show 0x5104 + 16 * n ≠ 0x5108 + 16 * n
    omega
  unfold State.dropPort
  dsimp only
  split
  · exact ⟨down _, port_setPort _ _ _⟩
  · have kept := declareLost_portKept
      (((s.setPort n { Port.init with everUp := (s.port n).everUp }).setFld (fabPortStatusState n) 0).bump (fabPortErrDowns n))
      (s.fld (fabPortStatusPeer n)) 1 (fun e => (((s.setPort n { Port.init with everUp := (s.port n).everUp }).setFld
        (fabPortStatusState n) 0).bump (fabPortErrDowns n)).watches e (s.fld (fabPortStatusPeer n))) hn (by
      unfold State.portUp
      rw [down]
      rfl)
    exact ⟨(portKept_fld kept 0 3).trans (down _), kept.1.trans (port_setPort _ _ _)⟩

/-! ### The control register -/

/-- The row of a port's control register. -/
def portCtrlRow : RegRow :=
  { base := 0x5100, stride := 16, count := 12, size := 4, fields := [⟨0, 1, .rwl⟩, ⟨1, 1, .rwl⟩, ⟨2, 1, .wo⟩] }

theorem portCtrl_row (hn : n < 12) : regRowAt (rFabPortCtrl n) = some portCtrlRow := by
  interval_cases n <;> rfl

theorem writeReg_portCtrl (hn : n < 12) (v : Nat) :
    s.writeReg (rFabPortCtrl n) 4 v = (s.writeWhole portCtrlRow (rFabPortCtrl n) v).dropLower (rFabPortCtrl n) := by
  have aligned : rFabPortCtrl n % 4 = 0 := by
    unfold rFabPortCtrl
    omega
  unfold State.writeReg State.writeOne State.resolveWrite
  simp [aligned, portCtrl_row hn, portCtrlRow]

theorem portCtrl_merged_lt (isSealed : Bool) {old : Nat} (v : Nat) (h : old < 2 ^ 64) :
    portCtrlRow.merged isSealed old v < 2 ^ 64 := by
  cases isSealed
  · exact setField_lt (setField_lt h (by decide)) (by decide)
  · exact h

/-- A write that is no violation leaves its fields in the control register, and everything else alone. -/
theorem writeReg_portCtrl_spec {v : Nat} (hn : n < 12)
    (hv : (s.isSealed && portCtrlRow.violates (s.reg (rFabPortCtrl n)) v) = false) :
    (s.writeReg (rFabPortCtrl n) 4 v).reg (rFabPortCtrl n) = portCtrlRow.merged s.isSealed (s.reg (rFabPortCtrl n)) v ∧
    (∀ o, o ≠ rFabPortCtrl n → (s.writeReg (rFabPortCtrl n) 4 v).reg o = s.reg o) ∧
    (s.writeReg (rFabPortCtrl n) 4 v).fab = s.fab ∧ (s.writeReg (rFabPortCtrl n) 4 v).mem = s.mem := by
  obtain ⟨here, others⟩ := writeWhole_reg hv (portCtrl_merged_lt s.isSealed v (reg_lt s _))
  rw [writeReg_portCtrl hn]
  refine ⟨here, others, ?_, (writeWhole_keeps hv).1⟩
  show (s.writeWhole portCtrlRow (rFabPortCtrl n) v).fab = s.fab
  unfold State.writeWhole
  simp only [hv, Bool.false_eq_true, if_false]
  split <;> rfl

/-- EN after a write: as it is written before the seal, and kept after it (R41). -/
theorem portCtrl_en (isSealed : Bool) (old v : Nat) :
    field (portCtrlRow.merged isSealed old v) 0 1 = if isSealed then field old 0 1 else field v 0 1 := by
  rw [merged_eq, field_merge (f := ⟨0, 1, .rwl⟩) (by simp [FieldSpec.Apart, portCtrlRow]) (by simp [portCtrlRow])]
  cases isSealed <;> rfl

/-- A write that enables a port starts its training. -/
theorem portEnable_spec {v : Nat} (hn : n < 12) (hu : s.isSealed = false) (hoff : s.flag (fabPortCtrlEn n) = false)
    (hen : bit v 0 = true) : (s.writePortCtrl n v).flag (fabPortCtrlEn n) = true ∧ (s.writePortCtrl n v).portState n = 1 ∧
      (s.writePortCtrl n v).port n = Port.init ∧
      (∀ k, k < 12 → k ≠ n → (s.writePortCtrl n v).port k = s.port k ∧ (s.writePortCtrl n v).portState k = s.portState k) ∧
      (s.writePortCtrl n v).mem = s.mem := by
  obtain ⟨here, others, fab, mem⟩ := writeReg_portCtrl_spec (s := s) (v := v) hn (by rw [hu]; rfl)
  have on : (s.writeReg (rFabPortCtrl n) 4 v).flag (fabPortCtrlEn n) = true := by
    show (field ((s.writeReg (rFabPortCtrl n) 4 v).reg (rFabPortCtrl n)) 0 1 == 1) = true
    rw [here, portCtrl_en, hu]
    exact hen
  have training : ((s.writeReg (rFabPortCtrl n) 4 v).setPort n Port.init |>.setFld (fabPortStatusState n) 1).portState n = 1 :=
    fld_setFld _ (fabPortStatusState n) 1 (by simp [fabPortStatusState]) (by simp [fabPortStatusState])
  have eq : s.writePortCtrl n v = ((s.writeReg (rFabPortCtrl n) 4 v).setPort n Port.init).setFld (fabPortStatusState n) 1 := by
    unfold State.writePortCtrl
    simp only [on, hoff, Bool.not_false, Bool.and_self, if_true]
    rw [training]
    exact if_neg (by simp)
  rw [eq]
  refine ⟨?_, training, port_setPort _ _ _, fun k hk hne => ⟨?_, ?_⟩, mem⟩
  · unfold State.flag
    rw [fld_setFld_other _ _ (fabPortCtrlEn n) _ (by simp [fabPortStatusState])
      (.inl (by show rFabPortCtrl n ≠ rFabPortStatus n; unfold rFabPortCtrl rFabPortStatus; omega))]
    exact on
  · exact (port_setPort_other _ Port.init hne).trans (port_congr (congrArg Fabric.ports fab) k)
  · refine (fld_setFld_other _ (fabPortStatusState n) (fabPortStatusState k) _ (by simp [fabPortStatusState])
      (.inl (by show rFabPortStatus k ≠ rFabPortStatus n; unfold rFabPortStatus; omega))).trans ?_
    exact congrArg (fun x => field x 0 3) (others (rFabPortStatus k) (by unfold rFabPortStatus rFabPortCtrl; omega))

/-- Settles O41. -/
theorem portsTrainAndGoDown : Obligations.PortsTrainAndGoDown := by
  unfold Obligations.PortsTrainAndGoDown
  refine ⟨?_, ?_, ?_, ?_⟩
  · rintro s n v hn hs hu hoff hen
    exact ⟨_, congrArg Host.Outcome.next (if_pos (by simp [hn, hs])), portEnable_spec hn hu hoff hen⟩
  · rintro s w n now p hn rfl hst hm h4096 h16 hl
    obtain ⟨reg, trained, everUp⟩ := trainPort_spec hn hst hm hl
    obtain ⟨state, switch, peer, port, delay⟩ := trainedStatus_flds (n := n) (s := (s.tick now).setPort n
      { (s.tick now).port n with trained := true, everUp := true, paused := false, failedReplays := 0, lastGood := (s.tick now).now })
      h4096 h16
    have same : ∀ lo w, ((s.tick now).trainPort n p).fld ⟨rFabPortStatus n, lo, w⟩ =
        ((s.tick now).trained n p).fld ⟨rFabPortStatus n, lo, w⟩ := fun lo w => congrArg (fun v => field v lo w) reg
    exact ⟨_, rfl, (same 0 3).trans state, trained, everUp, (congrArg (· == 1) (same 3 1)).trans switch, (same 4 12).trans peer,
      (same 16 4).trans port, (same 20 12).trans delay⟩
  · rintro s w n now rfl hup hdue
    exact congrArg Host.Outcome.next (if_pos (by simpa [hup] using hdue))
  · rintro s w n now hn rfl hup hdue
    exact ⟨_, congrArg Host.Outcome.next (if_pos (by simpa [hup] using hdue)), dropPort_spec _ hn⟩

end Sys2Proof.Machine
end

