-- ==== Sys2Proof/Proofs/LinkFlits.lean ====
section
/-! SUPPORT. Flits and acknowledgements, lane events and rewidening, echoes, and packets that are dropped (R355 to R363, R388). -/
namespace Sys2Proof.Machine

variable {s t w : State} {n : Nat} {f : FlitIn}

/-! ### Flits -/

theorem port_onPort (s : State) (n : Nat) (g : Port → Port) : (s.onPort n g).port n = g (s.port n) := port_setPort _ _ _

/-- A flit with a bad CRC asks for a replay from the flit that is due. -/
theorem flitIn_bad (h : s.linkUp2 n = true) (hc : f.crcOk = false) : s.flitIn n f = s.sendAck n (some (s.port n).rxSeq) := by
  unfold State.flitIn
  rw [if_neg (by simp [h]), if_pos (by simp [hc])]

/-- The port once a good flit that is due has been counted (R356). -/
def Port.counted (q : Port) (now vc : Nat) : Port :=
  { q with lastGood := now, rxSeq := (q.rxSeq + 1) % 1024, unacked := q.unacked + 1, owed := modifyAt (fun c => c + 1) vc q.owed }

theorem flitIn_due (h : s.linkUp2 n = true) (hc : f.crcOk = true) (hd : f.ctrl = false) (hs : f.seq = (s.port n).rxSeq) :
    ∃ u : State, u.port n = (s.port n).counted s.now f.vc ∧ u.outs = s.outs ∧ u.regs = s.regs ∧ u.mem = s.mem ∧ u.runs = s.runs ∧
      s.flitIn n f = if 64 ≤ (s.port n).unacked + 1 then u.sendAck n none else u := by
  refine ⟨(s.onPort n fun q => { q with lastGood := s.now }).onPort n fun q => { q with
      rxSeq := (q.rxSeq + 1) % 1024, unacked := q.unacked + 1, owed := modifyAt (fun c => c + 1) f.vc q.owed },
    ?_, rfl, rfl, rfl, rfl, ?_⟩
  · rw [port_onPort, port_onPort]
    rfl
  · unfold State.flitIn
    rw [if_neg (by simp [h]), if_neg (by simp [hc])]
    dsimp only
    rw [if_neg (by simp [hd]), if_pos (by rw [port_onPort]; exact hs), port_onPort, port_onPort]

/-- Credits given back one by one; none where all counts are zero. -/
theorem creditsBack_zero {l : List Nat} (h : l.all (fun x => x == 0) = true) (c : List Nat) :
    (c.zipIdx.map fun (c, vc) => c + l.getD vc 0) = c := by
  have none (i : Nat) : l.getD i 0 = 0 := by
    rw [List.getD_eq_getElem?_getD]
    cases hi : l[i]? with
    | none => rfl
    | some x => simpa using List.all_eq_true.1 h x (List.mem_of_getElem? hi)
  simp only [none, Nat.add_zero]
  exact List.zipIdx_map_fst 0 c

/-- With nothing queued, credits that come back change the port's credits and nothing else. -/
theorem takeCredits_spec {l : List Nat} (hq : (s.port n).queue = []) :
    (s.takeCredits n l).port n = { s.port n with credits := (s.port n).credits.zipIdx.map fun (c, vc) => c + l.getD vc 0 } ∧
      (s.takeCredits n l).outs = s.outs ∧ (s.takeCredits n l).regs = s.regs := by
  unfold State.takeCredits
  split
  · next h => exact ⟨by rw [creditsBack_zero h], rfl, rfl⟩
  · dsimp only
    have given := port_onPort s n fun q => { q with credits := q.credits.zipIdx.map fun (c, vc) => c + l.getD vc 0 }
    split
    · exact ⟨given, rfl, rfl⟩
    · rw [flushQueue_empty (by rw [given]; exact hq)]
      refine ⟨?_, rfl, rfl⟩
      rw [port_onPort, given, hq]

/-- An acknowledgement frees the flits up to it and gives back credits. -/
theorem flitIn_ack {a : Nat} (h : s.linkUp2 n = true) (hc : f.crcOk = true) (hd : f.ctrl = true) (ha : f.ack = some a)
    (hn : f.nak = none) (hq : (s.port n).queue = []) :
    ((s.flitIn n f).port n).lastGood = s.now ∧
      ((s.flitIn n f).port n).replay = (s.port n).replay.filter (fun x => !seqLe x.1 a) ∧
      ((s.flitIn n f).port n).credits = ((s.port n).credits.zipIdx.map fun (c, vc) => c + f.credits.getD vc 0) ∧
      (s.flitIn n f).outs = s.outs ∧ (s.flitIn n f).regs = s.regs := by
  have eq : s.flitIn n f = (((s.onPort n fun q => { q with lastGood := s.now }).onPort n fun q =>
      let left := q.replay.filter fun (x : Nat × Nat × List Byte) => !seqLe x.1 a
      { q with replay := left, failedReplays := if left.length < q.replay.length then 0 else q.failedReplays }).takeCredits n
        f.credits) := by
    unfold State.flitIn State.takeCtrl
    rw [if_neg (by simp [h]), if_neg (by simp [hc])]
    dsimp only
    rw [if_pos hd, ha, hn]
  obtain ⟨port, outs, regs⟩ := takeCredits_spec (s := ((s.onPort n fun q => { q with lastGood := s.now }).onPort n fun q =>
      let left := q.replay.filter fun (x : Nat × Nat × List Byte) => !seqLe x.1 a
      { q with replay := left, failedReplays := if left.length < q.replay.length then 0 else q.failedReplays })) (n := n)
    (l := f.credits) (by rw [port_onPort, port_onPort]; exact hq)
  rw [eq, port, port_onPort, port_onPort]
  exact ⟨rfl, rfl, rfl, outs, regs⟩

/-! ### Lanes -/

/-- What is sent again stays in the port. -/
theorem replayAll_port (s : State) (n k : Nat) : (s.replayAll n).port k = s.port k := by
  have emitted : ∀ (l : List (Nat × Nat × List Byte)) (t : State),
      (l.foldl (fun (t : State) f => t.emit (.flit n f.2.1 f.1 f.2.2)) t).fab.ports = t.fab.ports := by
    intro l
    induction l with
    | nil => exact fun _ => rfl
    | cons x l ih => exact fun t => ih _
  exact port_congr (emitted _ s) k

/-- A port whose new flits had stopped is up on two lanes, and sends again. -/
theorem degraded_spec (h : (s.port n).paused = true) : (s.degraded n).portState n = 3 ∧ ((s.degraded n).port n).paused = false ∧
    ((s.port n).queue = [] → ((s.degraded n).port n).queue = []) ∧ (s.degraded n).mem = s.mem ∧ (s.degraded n).runs = s.runs := by
  have base : ∀ v, v = (s.onPort n fun q => { q with paused := false }).setFld (fabPortStatusState n) 3 →
      v.port n = { s.port n with paused := false } ∧ v.portState n = 3 ∧ v.mem = s.mem ∧ v.runs = s.runs := by
    rintro v rfl
    exact ⟨port_onPort s n fun q => { q with paused := false }, fld_setFld _ (fabPortStatusState n) 3 (by simp [fabPortStatusState]) (by simp [fabPortStatusState]),
      rfl, rfl⟩
  have replayed : ∀ v : State, Flows n v (if (v.port n).replay.isEmpty then v else v.replayAll n) := by
    intro v
    split
    · exact .refl n v
    · exact replayAll_flows v n
  have held : ∀ v : State, (State.port (if (v.port n).replay.isEmpty then v else v.replayAll n) n).queue = (v.port n).queue := by
    intro v
    split
    · rfl
    · rw [replayAll_port]
  generalize hv : (s.onPort n fun q => { q with paused := false }).setFld (fabPortStatusState n) 3 = v
  obtain ⟨port, state, mem, runs⟩ := base v hv.symm
  have eq : s.degraded n = (if (v.port n).replay.isEmpty then v else v.replayAll n).flushQueue n := by
    unfold State.degraded
    rw [if_neg (by simp [h])]
    dsimp only
    rw [hv]
  have flows := (replayed v).trans (flushQueue_flows _ n)
  rw [← eq] at flows
  refine ⟨(congrArg (fun x => field x 0 3) flows.status).trans state, ?_, fun hq => ?_, ?_, ?_⟩
  · rw [congrArg Port.paused flows.port, port]
  · rw [eq, flushQueue_empty (by rw [held, port]; exact hq), port_onPort]
  · exact (congrArg State.mem flows.rest).trans mem
  · exact (congrArg State.runs flows.rest).trans runs

/-- A rewidening asked for by a write that changes no field is noted. -/
theorem rewidenRequest_spec {v : Nat} (hn : n < 12) (hs : s.portState n = 3) (h0 : bit v 0 = s.flag (fabPortCtrlEn n))
    (h1 : bit v 1 = s.flag (fabPortCtrlDegradeEn n)) (h2 : bit v 2 = true) :
    (s.writePortCtrl n v).port n = { s.port n with rewiden := true } ∧ (s.writePortCtrl n v).portState n = 3 ∧
      (s.writePortCtrl n v).mem = s.mem := by
  have same : ∀ i, bit v i = s.flag ⟨rFabPortCtrl n, i, 1⟩ → field v i 1 = field (s.reg (rFabPortCtrl n)) i 1 := by
    intro i h
    unfold State.flag State.fld at h
    unfold bit at h
    have a : field v i 1 < 2 := Nat.mod_lt _ (by decide)
    have b : field (s.reg (rFabPortCtrl n)) i 1 < 2 := Nat.mod_lt _ (by decide)
    have c : field v i 1 = 1 ↔ field (s.reg (rFabPortCtrl n)) i 1 = 1 := by
      rw [← beq_iff_eq, h, beq_iff_eq]
    omega
  obtain ⟨here, others, fab, mem⟩ := writeReg_portCtrl_spec (s := s) (v := v) hn (by
    rw [show portCtrlRow.violates (s.reg (rFabPortCtrl n)) v = false by
      simp [RegRow.violates, portCtrlRow, RegRow.has, same 0 h0, same 1 h1], Bool.and_false])
  have en : (s.writeReg (rFabPortCtrl n) 4 v).flag (fabPortCtrlEn n) = s.flag (fabPortCtrlEn n) := by
    show (field ((s.writeReg (rFabPortCtrl n) 4 v).reg (rFabPortCtrl n)) 0 1 == 1) = _
    rw [here, portCtrl_en, same 0 h0]
    split <;> rfl
  have state : (s.writeReg (rFabPortCtrl n) 4 v).portState n = 3 := by
    rw [← hs]
    exact congrArg (fun x => field x 0 3) (others (rFabPortStatus n) (by unfold rFabPortStatus rFabPortCtrl; omega))
  have eq : s.writePortCtrl n v = (s.writeReg (rFabPortCtrl n) 4 v).onPort n fun q => { q with rewiden := true } := by
    unfold State.writePortCtrl
    simp only [en, Bool.and_not_self, Bool.not_and_self, Bool.false_eq_true, if_false]
    rw [state, h2]
    rfl
  rw [eq, port_onPort, port_congr (congrArg Fabric.ports fab)]
  exact ⟨rfl, state, mem⟩

/-- The retraining brings back four lanes if all pass. -/
theorem rewiden_spec (allPass : Bool) (hr : (s.port n).rewiden = true) (hs : s.portState n = 3)
    (hb : s.blockingMode = false ∨ s.hasIntermission = false ∨ s.sched.intermission = true) :
    (s.rewiden n allPass).portState n = (if allPass then 2 else 3) ∧
      (s.rewiden n allPass).port n = { s.port n with
        rewiden := false, badLanes := if allPass then [] else (s.port n).badLanes } ∧ (s.rewiden n allPass).mem = s.mem := by
  have now : ¬((!((s.port n).rewiden && s.portState n == 3) || s.blockingMode && s.hasIntermission && !s.sched.intermission) =
      true) := by
    rcases hb with h | h | h <;> simp [hr, hs, h]
  unfold State.rewiden
  dsimp only
  rw [if_neg now]
  cases allPass
  · exact ⟨hs, port_setPort _ _ _, rfl⟩
  · exact ⟨fld_setFld _ (fabPortStatusState n) 2 (by simp [fabPortStatusState]) (by simp [fabPortStatusState]),
      port_setPort _ _ _, rfl⟩

/-! ### Packets that die -/

/-- A port whose queue a packet has left. -/
def Port.without (p : Packet) (q : Port) : Port := { q with queue := q.queue.filter fun x => decide (x.2 ≠ p) }

theorem dropAged_spec {p : Packet} (h : s.aged p = true) :
    (s.dropAged p).fld fabAgedDropsCount = satAdd 32 (s.fld fabAgedDropsCount) 1 ∧
      (∀ n x, x ∈ ((s.dropAged p).port n).queue → x.2 ≠ p) ∧ (s.dropAged p).mem = s.mem ∧ (s.dropAged p).runs = s.runs := by
  unfold State.dropAged
  rw [if_pos h]
  refine ⟨fld_setFld _ fabAgedDropsCount _ (by decide) ?_, fun n x hx => ?_, rfl, rfl⟩
  · show min _ (2 ^ 32 - 1) < 2 ^ 32
    omega
  · have port : ∀ t : State, t.fab.ports = s.fab.ports.map (fun y => (y.1, y.2.without p)) →
        (t.port n).queue = (s.port n).queue.filter fun x => decide (x.2 ≠ p) := by
      intro t ht
      unfold State.port
      rw [ht, cellFind_mapSnd (Port.without p)]
      cases cellFind n s.fab.ports <;> rfl
    rw [port _ rfl] at hx
    simpa using (List.mem_filter.1 hx).2

/-- Settles O42. -/
theorem linksCarryFlits : Obligations.LinksCarryFlits := by
  unfold Obligations.LinksCarryFlits
  refine ⟨⟨?_, ?_⟩, ⟨?_, ?_, ?_, ?_⟩, ?_, ?_, ?_, ?_, ?_⟩
  · rintro s w n now f rfl hup
    refine ⟨fun hc => congrArg Host.Outcome.next (flitIn_bad hup hc), fun hc hd hseq => ?_, fun a hc hd ha hnak hq => ?_⟩
    · obtain ⟨u, port, outs, regs, mem, runs, eq⟩ := flitIn_due hup hc hd hseq
      refine ⟨_, rfl, ?_⟩
      rw [eq]
      by_cases h : ((s.tick now).port n).unacked + 1 < 64
      · rw [if_neg (by omega), if_pos h, if_pos h, port]
        exact ⟨rfl, rfl, rfl, outs.trans (State.tick_outs s now), regs.trans (State.tick_regs s now), mem.trans (State.tick_mem s now), runs⟩
      · rw [if_pos (by omega), if_neg h, if_neg h]
        have sent : (u.sendAck n none).port n = { u.port n with unacked := 0, owed := [0, 0, 0, 0] } := port_setPort _ _ _
        rw [sent, port]
        refine ⟨rfl, rfl, rfl, ?_, regs.trans (State.tick_regs s now), mem.trans (State.tick_mem s now), runs⟩
        show Output.ctrlFlit n (((u.port n).rxSeq + 1023) % 1024) none (u.port n).owed :: u.outs = _
        rw [port, outs, State.tick_outs]
        show Output.ctrlFlit n (((((s.tick now).port n).rxSeq + 1) % 1024 + 1023) % 1024) none _ :: _ = _
        rw [show (((((s.tick now).port n).rxSeq + 1) % 1024 + 1023) % 1024) = ((s.tick now).port n).rxSeq % 1024 by omega]
        rfl
    · obtain ⟨good, replay, credits, outs, regs⟩ := flitIn_ack hup hc hd ha hnak hq
      exact ⟨_, rfl, good, replay, credits, outs.trans (State.tick_outs s now), regs.trans (State.tick_regs s now)⟩
  · rintro s n hup hun
    exact congrArg Host.Outcome.next (if_pos (by simp [hup, hun]))
  · rintro s w n lane now rfl hst hl hbad hp hdeg
    refine congrArg Host.Outcome.next ?_
    have up : (s.tick now).linkUp2 n = true := by
      unfold State.linkUp2
      rw [hst]
      rfl
    unfold State.laneEvent
    dsimp only
    rw [if_neg (by simp [up, hbad, hl]), if_pos (by simp [hst, hp, hdeg])]
  · rintro s n hn hp
    exact ⟨_, rfl, degraded_spec hp⟩
  · rintro s n v hn hs hst h0 h1 h2
    exact ⟨_, congrArg Host.Outcome.next (if_pos (by simp [hn, hs])), rewidenRequest_spec hn hst h0 h1 h2⟩
  · rintro s n allPass hr hst hb
    exact ⟨_, rfl, rewiden_spec allPass hr hst hb⟩
  · rintro s w n now rfl hup
    exact congrArg Host.Outcome.next (if_pos hup)
  · rintro s w n now sendAt p rfl hp hup
    exact congrArg Host.Outcome.next (if_pos (by simp [hp, hup]))
  · rintro s w n now p rfl hp hup
    refine ⟨_, congrArg Host.Outcome.next (if_pos (by simp [hp, hup])), ?_, rfl, State.tick_mem s now, fun o ho => ?_⟩
    · exact fld_setFld _ (fabPortStatusDelayNs n) _ (by simp [fabPortStatusDelayNs]) (by simp [fabPortStatusDelayNs])
    · exact (reg_setReg_other _ _ _ _ ho).trans (State.tick_reg s now o)
  · rintro s p hp
    exact congrArg Host.Outcome.next (if_neg (by simp [hp]))
  · rintro s w p now rfl ha
    obtain ⟨count, queue, mem, runs⟩ := dropAged_spec ha
    rw [State.tick_fld] at count
    exact ⟨_, rfl, count, queue, mem.trans (State.tick_mem s now), runs⟩

end Sys2Proof.Machine
end

