-- ==== Sys2Proof/Proofs/RemoteRequests.lean ====
section
/-! SUPPORT. Requests of other members: accepted, performed and answered (R361, R375, R379, R382). -/
namespace Sys2Proof.Machine

variable {s : State} {p : Packet} {k n : Nat}

/-- A request of the context's own generation that can be answered, at a member whose state and whose context accept it. -/
structure Accepts (s : State) (p : Packet) : Prop where
  young : s.aged p = false
  here : s.isOwn p.dst = true
  current : s.genBehind (p.context % 64) p.gen = 0
  routed : (s.choosePort (s.adaptiveCtx (p.context % 64)) 2 p.src).isSome = true
  awake : s.powerState ≠ 3
  enabled : s.flag (ctxCtrlEn (p.context % 64)) = true
  addressed : s.addressed p = true

theorem onRequest_serves (h : Accepts s p) (serve : State → State) : s.onRequest p serve = serve s := by
  obtain ⟨young, here, current, routed, awake, enabled, addressed⟩ := h
  unfold State.onRequest
  dsimp only
  rw [if_neg (by simp [young]), if_neg (by simp [here]), if_neg (by omega), if_pos current,
    if_neg (by simp [Option.isNone_iff_eq_none, Option.isSome_iff_ne_none.1 routed]), if_neg awake, if_neg (by simp [enabled]),
    if_neg (by simp [addressed])]

theorem serveRead_answers (ht : addrTier p.addr < 2) (hk : k = addrKey p.addr) (hl : p.length = n) (he : p.epoch = none)
    (hp : s.populated (addrTier p.addr) (addrOff p.addr) n = true) (hs : s.hostShut k = false) (hb : s.devBad k n = false) :
    s.serveRead p = (s.meetCells (requestSource p) k n).respond p ptReadData 0 (s.devRead k n) := by
  subst hk hl
  unfold State.serveRead State.readMem
  dsimp only
  rw [if_neg (by omega), if_neg (by simp [hp]), he, if_neg (by simp), if_neg (by simp [hs]), hb]
  rfl

theorem serveWrite_answers (ht : addrTier p.addr < 2) (hk : k = addrKey p.addr) (hl : p.data.length = n)
    (hp : s.populated (addrTier p.addr) (addrOff p.addr) n = true) (hs : s.hostShut k = false) (hb : s.devPartBad k n = false) :
    s.serveWrite p = (if s.inFenceTable k then (s.devWrite k p.data).wakeDimmed else s.devWrite k p.data).respond p ptWriteAck 0 [] := by
  subst hk hl
  unfold State.serveWrite
  dsimp only
  rw [if_neg (by omega), if_neg (by simp [hp]), if_neg (by simp [hs]), if_neg (by simp [hb])]
  rfl

theorem serveAtomic_answers {op : Nat} (ht : addrTier p.addr < 2) (hk : k = addrKey p.addr) (hop : op = leAt p.data 0 8)
    (h4 : op < 4) (hn : n = atomicSize op) (hl : p.data.length = 24) (ha : p.addr % n = 0)
    (hp : s.populated (addrTier p.addr) (addrOff p.addr) n = true) (hs : s.hostShut k = false) (hb : s.devBad k n = false) :
    s.serveAtomic p = (s.atomic (p.context % 64) k op (leAt p.data 8 8) (leAt p.data 16 8)).1.respond p ptAtomicResult 0
      (leBytes 8 (s.atomic (p.context % 64) k op (leAt p.data 8 8) (leAt p.data 16 8)).2) := by
  subst hk hop hn
  unfold State.serveAtomic
  dsimp only
  rw [if_neg (by omega), if_neg (by simp [hp, hl, ha]; omega), if_neg (by simp [hs]), if_neg (by simp [hb])]

/-- Settles O43. -/
theorem requestsPerformedAndAnswered : Obligations.RequestsPerformedAndAnswered := by
  unfold Obligations.RequestsPerformedAndAnswered
  rintro s w p now k n rfl young here current routed awake enabled addressed ht hk hp hs
  have serves := onRequest_serves (s := s.tick now) ⟨young, here, current, routed, awake, enabled, addressed⟩
  refine ⟨fun hl he hb => ⟨fun hty h1 h256 => congrArg Host.Outcome.next ?_, fun hty h64 h4096 hm => congrArg Host.Outcome.next ?_⟩,
    fun t hts hl hb => ⟨fun hty h1 h256 => congrArg Host.Outcome.next ?_, fun hty h64 h4096 hm => congrArg Host.Outcome.next ?_⟩,
    fun op t hop h4 hn hl ha hb hty hts => congrArg Host.Outcome.next ?_⟩
  · rw [← serveRead_answers ht hk hl he hp hs hb]
    unfold State.readReq
    rw [if_neg (by simp [hty]), serves]
    exact if_pos ⟨by omega, by omega, by omega⟩
  · rw [← serveRead_answers ht hk hl he hp hs hb]
    unfold State.bulkReadReq
    rw [if_neg (by simp [hty]), serves, if_neg (by simp [hl, h64, h4096, hm])]
    exact if_neg (by omega)
  · rw [hts, ← serveWrite_answers ht hk hl hp hs hb]
    unfold State.writeReq
    rw [if_neg (by simp [hty]), serves]
    exact if_pos ⟨by omega, by omega, by omega⟩
  · rw [hts, ← serveWrite_answers ht hk hl hp hs hb]
    unfold State.bulkWriteReq
    rw [if_neg (by simp [hty]), serves, if_neg (by simp [hl, h64, h4096, hm])]
    exact if_neg (by omega)
  · rw [hts, ← serveAtomic_answers ht hk hop h4 hn hl ha hp hs hb]
    unfold State.atomicReq
    rw [if_neg (by simp [hty]), serves]

end Sys2Proof.Machine
end

