-- ==== Sys2Proof/Proofs/RemoteResponses.lean ====
section
/-! SUPPORT. Responses, errors and time-outs end the requests they answer (R374, R375, R378, R381). -/
namespace Sys2Proof.Machine

variable {s t : State} {p : Packet} {q : Request} {run item st dt : Nat} {x : Item} {r : Run}

theorem itemOf_of_run (hr : s.findRun run = some r) (hx : r.item item = some x) : s.itemOf run item = some x := by
  unfold State.itemOf
  rw [hr]
  exact hx

/-- An open item that ends. -/
theorem phaseOf_endItem (hx : s.itemOf run item = some x) (he : x.hasEnded = false) (st dt : Nat) :
    (s.endItem run item st dt).phaseOf run item = some (.ended st dt) := by
  unfold State.phaseOf
  rw [itemOf_endItem, if_pos ⟨rfl, rfl⟩, hx]
  simp [Item.finish, he]

/-- An item whose effect is made ends with its last acknowledgement. -/
theorem ackItem_ends (hr : s.findRun run = some r) (hx : r.item item = some x) (hp : x.phase = .acking st dt)
    (hq : s.waitsAck run item = false) : s.ackItem run item = s.endItem run item st dt := by
  unfold State.ackItem
  rw [hr, Option.bind_some, hx]
  dsimp only
  rw [hp]
  exact if_neg (by simp [hq])

theorem ackItem_waits (hr : s.findRun run = some r) (hx : r.item item = some x) (hp : x.phase = .acking st dt)
    (hq : s.waitsAck run item = true) : s.ackItem run item = s := by
  unfold State.ackItem
  rw [hr, Option.bind_some, hx]
  dsimp only
  rw [hp]
  exact if_pos hq

/-- The old value of an atomic stored on this member. -/
theorem putResult_own {a old : Nat} (hr : s.findRun run = some r) (ho : s.isOwn (addrMember a) = true)
    (hs : s.devShut (addrKey a) = false) (hb : s.devPartBad (addrKey a) 8 = false) :
    s.putResult run item a old = ((s.devWrite (addrKey a) (leBytes 8 old)).noteCycles run item 64).closeItem run item stOk 0 := by
  unfold State.putResult
  rw [hr]
  dsimp only
  rw [if_pos ho, if_neg (by simp [hs]), if_neg (by simp [hb])]

/-- A request of an item of no collective that fails ends its item with the status. -/
theorem failItem_ends {isRead : Bool} (hr : s.findRun run = some r) (hc : hdrClass r.desc.bytes ≠ 0xB)
    (hread : isRead = true → st ≠ stUncorrectable) : s.failItem q run item st isRead = s.endEarly run item st 0 := by
  unfold State.failItem
  rw [hr]
  dsimp only
  rw [if_neg (by
    intro h
    simp only [Bool.and_eq_true, beq_iff_eq] at h
    exact hread h.1.1.1 h.1.1.2), if_neg (by simp [hc])]

theorem failRequest_ends {silent : Bool} (ht : t = s.endRequest q.tag) (hr : t.findRun run = some r)
    (hc : hdrClass r.desc.bytes ≠ 0xB) (he : q.entry = none)
    (hu : q.use = .write run item ∨ q.use = .read run item ∧ st ≠ stUncorrectable) :
    s.failRequest q st silent = t.endEarly run item st 0 := by
  subst ht
  unfold State.failRequest
  rw [he]
  rcases hu with hu | ⟨hu, hst⟩
  · rw [hu]
    exact failItem_ends hr hc fun h => Bool.noConfusion h
  · rw [hu]
    exact failItem_ends hr hc fun _ => hst

theorem asked_tag {tag : Nat} (h : s.asked tag = some q) : q.tag = tag := by
  have := List.find?_some h
  simpa using this

/-- Settles O44. -/
theorem responsesEndRequests : Obligations.ResponsesEndRequests := by
  unfold Obligations.ResponsesEndRequests
  constructor
  · rintro s t p q run item x r ha rfl hr hx hc
    simp only [List.mem_cons, List.not_mem_nil, or_false, not_or] at hc
    have cls : ∀ r', (s.endRequest p.tag).findRun run = some r' → hdrClass r'.desc.bytes ≠ 7 ∧ hdrClass r'.desc.bytes ≠ 8 := by
      intro r' hr'
      rw [hr] at hr'
      cases hr'
      exact hc
    refine ⟨fun hu hp => ?_, fun st dt hu hp hph => ?_, fun a hu hp he ho hs hb hq => ?_⟩
    · refine congrArg Host.Outcome.next ((if_pos hp).trans ?_)
      unfold State.takeData
      rw [ha]
      dsimp only
      rw [hu]
    · have acked : exec (.writeAck p) s = .next ((s.endRequest p.tag).ackItem run item) := by
        refine congrArg Host.Outcome.next ((if_pos hp).trans ?_)
        unfold State.takeAck
        rw [ha]
        dsimp only
        rw [hu]
      refine ⟨fun hq => ⟨_, acked, ?_⟩, fun hq => acked.trans (congrArg _ (ackItem_waits hr hx hph hq))⟩
      rw [ackItem_ends hr hx hph hq]
      exact ⟨phaseOf_endItem (itemOf_of_run hr hx) (by unfold Item.hasEnded; rw [hph]) st dt, endItem_mem cls st dt,
        (endItem_cuts _ _ _ _ _).rings⟩
    · have opened : (s.endRequest p.tag).itemOpen run item = true := itemOpen_iff.2 ⟨x, itemOf_of_run hr hx, he⟩
      have stored : exec (.atomicResult p) s = .next ((s.endRequest p.tag).putResult run item a (leAt p.data 0 8)) := by
        refine congrArg Host.Outcome.next ((if_pos hp).trans ?_)
        unfold State.takeResult
        rw [ha]
        dsimp only
        rw [hu]
        exact if_pos opened
      have ends : ItemEnds ((s.endRequest p.tag).devWrite (addrKey a) (leBytes 8 (leAt p.data 0 8))) _ run item stOk 0 64 :=
        closeItem_ends (by decide) hq opened cls
      exact ⟨_, stored.trans (congrArg _ (putResult_own hr ho hs hb)), ends.phase, ends.mem⟩
  · rintro s w t tag now run item q x r rfl ha ht hr hx hc he hentry
    simp only [List.mem_cons, List.not_mem_nil, or_false, not_or] at hc
    obtain ⟨h7, h8, hB⟩ := hc
    have ended : ∀ st, (t.endEarly run item st 0).phaseOf run item = some (.ended st (t.detailFor run item st 0)) ∧
        (t.endEarly run item st 0).mem = t.mem ∧ (t.endEarly run item st 0).rings = t.rings := fun st =>
      ⟨phaseOf_endEarly t run item st 0 (itemOf_of_run hr hx) he, endEarly_mem hr ⟨h7, h8⟩ st 0, (endEarly_cuts _ _ _ _ _).rings⟩
    refine ⟨fun p st hp htag hst hu => ⟨_, ?_, ended st⟩, fun hu hdue hlost => ⟨_, ?_, ended stTimeout⟩⟩
    · refine congrArg Host.Outcome.next ((if_pos hp).trans ?_)
      unfold State.takeError
      rw [htag, ha, ← hst]
      exact failRequest_ends ht hr hB hentry hu
    · refine congrArg Host.Outcome.next ?_
      unfold State.timeOut
      rw [ha]
      dsimp only
      rw [if_neg (by omega), if_neg (by rw [List.contains_iff_mem]; exact hlost)]
      exact failRequest_ends ht hr hB hentry (hu.imp_right fun h => ⟨h, by decide⟩)

end Sys2Proof.Machine
end

