-- ==== Sys2Proof/Proofs/PrompterMessages.lean ====
section
/-! SUPPORT. Prompter messages taken: losses, stops, drains and their returns (R364, R376, R377, R411, R412). -/
namespace Sys2Proof.Machine

variable {s t u w : State} {p : Packet} {lost : Nat}

/-! ### Losses -/

/-- `t` is `s` after chorus events: only what they log and raise differs, and no register but those of the chorus log. -/
structure Logged (s t : State) : Prop where
  stores : Stores s t
  reg : ∀ o, o ≠ rChorusLogProd → o ≠ rChorusLogLost → t.reg o = s.reg o

theorem Logged.refl (s : State) : Logged s s := ⟨.refl s, fun _ _ _ => rfl⟩

theorem Logged.trans (a : Logged s t) (b : Logged t u) : Logged s u :=
  ⟨a.stores.trans b.stores, fun o h k => (b.reg o h k).trans (a.reg o h k)⟩

theorem chorusEvent_logged (s : State) (x : ChorusEvent) : Logged s (s.chorusEvent x) := by
  have post : ∀ e, Logged s (s.logPost chorusLog e) := by
    intro e
    unfold State.logPost
    split
    · exact .refl s
    · split
      · exact ⟨rfl, fun o h _ => reg_setReg_other _ _ _ _ h⟩
      · exact ⟨rfl, fun o _ h => reg_setReg_other _ _ _ _ h⟩
  have raised : ∀ t : State, Logged t t.event := by
    intro t
    refine ⟨event_stores t, fun o _ _ => ?_⟩
    unfold State.event State.raise
    split <;> rfl
  unfold State.chorusEvent
  dsimp only
  split
  · exact (post _).trans (raised _)
  · exact post _

theorem logged_foldl {α : Type} {g : State → α → State} (hg : ∀ t x, Logged t (g t x)) (l : List α) (s : State) :
    Logged s (l.foldl g s) := by
  induction l generalizing s with
  | nil => exact .refl s
  | cons x l ih => exact (hg s x).trans (ih _)

/-- What a loss leaves: the member in the lost set, which is counted, and its understudies awaited (R411, R412). -/
structure Loses (s t : State) (lost : Nat) : Prop where
  gone : t.coll.lost = s.coll.lost ++ [lost]
  count : t.fld chorusStatusLostCount = s.coll.lost.length + 1
  rings : t.rings = s.rings
  pending : t.pending = s.pending
  takeovers : ∀ x ∈ t.coll.takeovers, x ∈ s.coll.takeovers ∨ (x.lost = lost ∧ x.acted = false)

theorem noCandidate_logged (s : State) : ∃ l, (∀ x ∈ l, x ∈ s.coll.takeovers) ∧
    Logged { s with coll := { s.coll with takeovers := l } } s.noCandidate := by
  refine ⟨(s.coll.takeovers.partition fun t => (s.candidates t.entry).isEmpty &&
    !s.fab.route.aliases.any (fun a => a.1 == t.lost) && !s.announcedPairs.any fun a => a.1 == t.lost).2, ?_,
    logged_foldl (fun t x => chorusEvent_logged t _) _ _⟩
  intro x hx
  rw [List.partition_eq_filter_filter] at hx
  exact List.mem_of_mem_filter hx

theorem loseMember_loses {reporter cause entry cue : Nat} (hl : lost ∉ s.coll.lost) (hn : s.coll.lost.length + 1 < 4096) :
    Loses s (s.loseMember lost reporter cause entry cue) lost := by
  unfold State.loseMember
  rw [if_neg (by rw [List.contains_iff_mem]; exact hl)]
  dsimp only
  generalize hv : ({ s with coll := { s.coll with
    lost := s.coll.lost ++ [lost]
    takeovers := s.coll.takeovers ++ [{ lost := lost, entry := entry, cue := cue, acted := false }] } } : State).setFld
      chorusStatusLostCount (s.coll.lost ++ [lost]).length = v
  have count : v.fld chorusStatusLostCount = s.coll.lost.length + 1 := by
    rw [← hv, fld_setFld _ _ _ (by decide) (by show _ < 2 ^ 12; simpa using hn)]
    simp
  have logged := chorusEvent_logged v ⟨1, cause, lost, 0, reporter, entry⟩
  have failed := failHalves_cuts (v.chorusEvent ⟨1, cause, lost, 0, reporter, entry⟩) lost
  obtain ⟨l, sub, left⟩ := noCandidate_logged ((v.chorusEvent ⟨1, cause, lost, 0, reporter, entry⟩).failHalves lost)
  generalize v.chorusEvent ⟨1, cause, lost, 0, reporter, entry⟩ = a at *
  generalize a.failHalves lost = b at *
  generalize b.noCandidate = c at *
  have coll : c.coll = { b.coll with takeovers := l } := by
    rw [left.stores]
  have coll' : b.coll.lost = v.coll.lost ∧ b.coll.takeovers = v.coll.takeovers := by
    rw [failed.coll, logged.stores]
    exact ⟨rfl, rfl⟩
  refine ⟨?_, ?_, ?_, ?_, fun x hx => ?_⟩
  · rw [coll]
    exact coll'.1.trans (hv ▸ rfl)
  · refine (congrArg (fun x => field x 10 12) ?_).trans count
    show c.reg rChorusStatus = v.reg rChorusStatus
    rw [left.reg _ (by decide) (by decide), ← logged.reg _ (by decide) (by decide)]
    exact failed.reg _ (by unfold cutRegs; decide)
  · rw [left.stores]
    refine failed.rings.trans ?_
    rw [logged.stores, ← hv]
    rfl
  · rw [left.stores]
    refine failed.pending.trans ?_
    rw [logged.stores, ← hv]
    rfl
  · rw [coll] at hx
    have hx' := sub x hx
    rw [coll'.2, ← hv] at hx'
    rcases List.mem_append.1 hx' with h | h
    · exact .inl h
    · rw [List.mem_singleton.1 h]
      exact .inr ⟨rfl, rfl⟩

/-- A member of a guarded entry that needs it is declared lost, once. -/
theorem declareLost_loses {cause e : Nat} {needs : Nat → Bool} {l : List Nat} (hg : s.guardedWith lost = e :: l)
    (hneeds : ∃ g ∈ e :: l, needs g = true) (hl : lost ∉ s.coll.lost) (hm : s.muted = false)
    (hn : s.coll.lost.length + 1 < 4096) : Loses s (s.declareLost lost cause needs) lost := by
  obtain ⟨g, hgm, hgn⟩ := hneeds
  have sent := originate_sends s (s.prompter ptMemberLost 0 true (lostBody lost s.member cause e s.cueNo))
  have eq : s.declareLost lost cause needs =
      (s.originate (s.prompter ptMemberLost 0 true (lostBody lost s.member cause e s.cueNo))).loseMember lost s.member cause e
        s.cueNo := by
    unfold State.declareLost
    rw [hg]
    have some_needs : (e :: l).filter needs ≠ [] := fun h => List.ne_nil_of_mem (List.mem_filter.2 ⟨hgm, hgn⟩) h
    split
    · next h _ =>
      cases h
      exact if_neg (by simp [hl, hm])
    · next h =>
      cases hf : (e :: l).filter needs with
      | nil => exact absurd hf some_needs
      | cons a b => exact absurd hf (h e l a b rfl)
  have coll : ∀ t : State, Sends s t → t.coll = s.coll ∧ t.rings = s.rings ∧ t.pending = s.pending := by
    intro t h
    rw [h]
    exact ⟨rfl, rfl, rfl⟩
  obtain ⟨same, rings, pending⟩ := coll _ sent
  rw [eq]
  obtain ⟨gone, count, rings', pending', takeovers⟩ := loseMember_loses (s := s.originate (s.prompter ptMemberLost 0 true
    (lostBody lost s.member cause e s.cueNo))) (reporter := s.member) (cause := cause) (entry := e) (cue := s.cueNo)
    (by rw [same]; exact hl) (by rw [same]; exact hn)
  rw [same] at gone count takeovers
  exact ⟨gone, count, rings'.trans rings, pending'.trans pending, takeovers⟩

/-- A flood of another member that is new is acted on. -/
theorem onFlood_new {act : State → State} (hsrc : p.src ≠ s.member) (hseen : s.seenFlood p = false) :
    s.onFlood p act = act (s.noteFlood p) := if_neg (by simp [hsrc, hseen])

/-! ### Stops -/

/-- A STOP taken replaces its context's resume cue, and only that (R377). -/
theorem takeStop_spec (s : State) (c resume : Nat) :
    ((s.takeStop c resume).stopHeld c = true ↔ 1 ≤ s.cuesTo resume ∧ s.cuesTo resume < 2 ^ 31) ∧
      ∀ d, d ≠ c → (s.takeStop c resume).stopHeld d = s.stopHeld d := by
  have gone : (s.sched.stops.filter fun x => x.1 != c).any (fun x => x.1 == c && decide (1 ≤ s.cuesTo x.2) &&
      decide (s.cuesTo x.2 < 2 ^ 31)) = false := by
    refine List.any_eq_false.2 fun x hx => ?_
    have hne : (x.1 == c) = false := by simpa using (List.mem_filter.1 hx).2
    simp [hne]
  have rest : ∀ d, d ≠ c → (s.sched.stops.filter fun x => x.1 != c).any (fun x => x.1 == d && decide (1 ≤ s.cuesTo x.2) &&
      decide (s.cuesTo x.2 < 2 ^ 31)) = s.stopHeld d := by
    intro d hd
    show _ = s.sched.stops.any _
    rw [List.any_filter]
    refine congrArg (fun f => List.any s.sched.stops f) (funext fun x => ?_)
    by_cases hx : x.1 = d
    · simp [hx, hd]
    · simp [hx]
  have held : ∀ d, ({ s with sched := { s.sched with stops := s.sched.stops.filter (fun x => x.1 != c) ++ [(c, resume)] } } :
      State).stopHeld d = ((s.sched.stops.filter fun x => x.1 != c).any (fun x => x.1 == d && decide (1 ≤ s.cuesTo x.2) &&
        decide (s.cuesTo x.2 < 2 ^ 31)) || (c == d && decide (1 ≤ s.cuesTo resume) && decide (s.cuesTo resume < 2 ^ 31))) := by
    intro d
    show List.any (_ ++ _) _ = _
    rw [List.any_append]
    simp only [List.any_cons, List.any_nil, Bool.or_false]
    rfl
  unfold State.takeStop
  dsimp only
  split
  · next h =>
    refine ⟨iff_of_true h ?_, fun d hd => ?_⟩
    · rw [held, gone] at h
      simpa using h
    · rw [held, rest d hd, beq_eq_false_iff_ne.2 (Ne.symm hd), Bool.false_and, Bool.false_and, Bool.or_false]
  · next h =>
    refine ⟨iff_of_false ?_ ?_, fun d hd => rest d hd⟩
    · exact fun k => Bool.noConfusion (gone.symm.trans k)
    · rw [held, gone] at h
      simpa using h

/-! ### Drains -/

/-- An item that ends where its fence has gone ends as it would have with the fence still noted. -/
theorem itemEnds_of_fences {run item st dt cy : Nat} (h : ItemEnds u t run item st dt cy)
    (hu : u = { s with fab := { s.fab with fences := u.fab.fences } }) : ItemEnds s t run item st dt cy := by
  obtain ⟨h1, h2, h3, h4, h5, h6, h7, h8, h9, h10, h11, h12, h13, h14, h15, h16, h17, h18, h19, h20, h21, h22, h23⟩ := h
  generalize u.fab.fences = l at hu
  subst hu
  exact ⟨h1, h2, h3, h4, h5, h6, h7, h8, h9, h10, h11, h12, h13, h14, h15, h16, h17, h18, h19, h20, h21, h22, h23⟩

/-- The last answer that the one fence waits for ends its item (R376). -/
theorem drainReturned_ends {f : FenceWait} {r : Run} (hp : p.type = ptDrainReturn) (hf : s.fab.fences = [f])
    (hd : f.drain = leAt p.data 4 4) (hw : f.waits = []) (hm : s.dropMember p.src f.members = []) (ht : s.fab.teardowns = [])
    (hc : s.CanEnd f.run f.item r) (hr : s.findRun f.run = some r) (hB : hdrClass r.desc.bytes = 0xA) :
    ItemEnds s (s.drainReturned p) f.run f.item stOk 0 64 := by
  have eq : s.drainReturned p = ((({ s with fab := { s.fab with fences := [] } } : State).noteCycles f.run f.item 64).closeItem f.run
      f.item stOk 0) := by
    unfold State.drainReturned State.checkFences
    rw [if_neg (by simp [hp])]
    dsimp only
    rw [hf, ht, List.map_cons, List.map_nil, if_pos hd, hm, hw]
    simp only [List.filter_cons, List.filter_nil, List.isEmpty_nil, Bool.and_self, if_true, Bool.not_true, Bool.false_eq_true, if_false,
      List.foldl_cons, List.foldl_nil, List.map_nil]
  rw [eq]
  refine itemEnds_of_fences (u := { s with fab := { s.fab with fences := [] } })
    (closeItem_ends (by decide) hc.quiet hc.isOpen fun q hq => ?_) rfl
  rw [show ({ s with fab := { s.fab with fences := [] } } : State).findRun f.run = s.findRun f.run from rfl, hr] at hq
  cases hq
  rw [hB]
  decide

/-- Settles O45. -/
theorem prompterMessagesTaken : Obligations.PrompterMessagesTaken := by
  unfold Obligations.PrompterMessagesTaken
  refine ⟨?_, ?_, ?_, ?_, ?_⟩
  · rintro s w port now lost p rfl hsrc hseen hl hn hm
    have coll : (s.tick now).coll = s.coll := State.tick_coll s now
    refine ⟨fun e l hp hlost hg hw => ?_, fun hp hlost => ?_⟩
    · subst hlost
      obtain ⟨gone, count, rings, pending, -⟩ := declareLost_loses (s := (s.tick now).noteFlood p) (cause := 2) hg hw
        (by show p.src ∉ (s.tick now).coll.lost; rw [coll]; exact hl) hm
        (by show (s.tick now).coll.lost.length + 1 < 4096; rw [coll]; exact hn)
      rw [show ((s.tick now).noteFlood p).coll = s.coll from coll] at gone count
      refine ⟨_, congrArg Host.Outcome.next ?_, gone, count, rings, pending.trans (State.tick_pending s now)⟩
      unfold State.detachedMsg
      rw [if_neg (by simp [hp])]
      exact onFlood_new hsrc hseen
    · obtain ⟨gone, count, rings, -, takeovers⟩ := loseMember_loses (s := (s.tick now).noteFlood p) (lost := lost)
        (reporter := leAt p.data 2 2 % 4096) (cause := leAt p.data 4 1) (entry := leAt p.data 6 2 % 1024) (cue := leAt p.data 8 8)
        (by show lost ∉ (s.tick now).coll.lost; rw [coll]; exact hl)
        (by show (s.tick now).coll.lost.length + 1 < 4096; rw [coll]; exact hn)
      rw [show ((s.tick now).noteFlood p).coll = s.coll from coll] at gone count takeovers
      refine ⟨_, congrArg Host.Outcome.next ?_, gone, count, rings, takeovers⟩
      unfold State.memberLostMsg
      rw [if_neg (by simp [hp]), onFlood_new hsrc hseen, hlost]
  · rintro s port c resume p hp hsrc hseen rfl rfl
    obtain ⟨held, others⟩ := takeStop_spec (s.noteFlood p) (leAt p.data 0 1 % 64) (leAt p.data 4 4)
    have kept : ∀ (t : State) (c n : Nat), (t.takeStop c n).runs = t.runs ∧ (t.takeStop c n).mem = t.mem ∧
        (t.takeStop c n).regs = t.regs := by
      intro t c n
      unfold State.takeStop
      dsimp only
      split <;> exact ⟨rfl, rfl, rfl⟩
    refine ⟨_, congrArg Host.Outcome.next ?_, held, others, kept (s.noteFlood p) _ _⟩
    unfold State.stopMsg
    rw [if_neg (by simp [hp])]
    exact onFlood_new hsrc hseen
  · rintro s c p hp rfl
    exact congrArg Host.Outcome.next (if_neg (by simp [hp]))
  · rintro s src drain d hd
    refine congrArg Host.Outcome.next ?_
    unfold State.drainDone
    rw [hd]
  · rintro s p f r hp hf hd hw hm ht hc hr hB
    exact ⟨_, rfl, drainReturned_ends hp hf hd hw hm ht hc hr hB⟩

end Sys2Proof.Machine
end

