-- ==== Sys2Proof/Proofs/TeardownMessages.lean ====
section
/-! SUPPORT. Teardowns of another member's context, their drain, and route patches received (R372, R382 to R386). -/
namespace Sys2Proof.Machine

variable {s t u w : State} {p : Packet} {c g drain run i : Nat} {r : Run} {x : Item}

/-! ### The teardown of a context -/

/-- One item's turn in the cancelling of a context. -/
def cancelItem (but : Option (Nat × Nat)) (r : Run) (t : State) (x : Item) : State :=
  if but = some (r.id, x.index) then t else t.endEarly r.id x.index stCancelled 0

theorem cancelItem_cuts (but : Option (Nat × Nat)) (r : Run) (t : State) (x : Item) : Cuts t (cancelItem but r t x) := by
  unfold cancelItem
  split
  · exact .refl t
  · exact endEarly_cuts _ _ _ _ _

theorem cancelItem_cutTo (but : Option (Nat × Nat)) (r : Run) (t : State) (x : Item) :
    CutTo t (cancelItem but r t x) run i stCancelled := by
  unfold cancelItem
  split
  · exact .inr rfl
  · exact endEarly_cutTo _ _ _ _ _ _ _

/-- Every open item of a context that is cancelled whole ends CANCELLED. -/
theorem cancelContext_ends (hr : s.findRun run = some r) (hc : r.ctx = c) (hx : s.itemOf run i = some x) (he : x.hasEnded = false) :
    ∃ dt, (s.cancelContext c none).phaseOf run i = some (.ended stCancelled dt) := by
  obtain ⟨hm, hi⟩ := itemOf_mem hr hx
  have eq : s.cancelContext c none = s.runs.foldl (fun t q => if q.ctx = c then q.items.foldl (cancelItem none q) t else t) s := rfl
  rw [eq]
  refine foldl_cuts_ends (fun t q => ?_) (fun t q => ?_) s.runs s hx r (List.mem_of_find?_eq_some hr) fun t ht _ => ?_
  · split
    · exact cutTo_foldl (cancelItem_cutTo none q) q.items t
    · exact .inr rfl
  · split
    · exact (cuts_foldl (cancelItem_cuts none q) q.items t).now
    · rfl
  · rw [if_pos hc]
    refine foldl_cuts_ends (cancelItem_cutTo none r) (fun t q => (cancelItem_cuts none r t q).now) r.items t ht x hm fun v hv _ => ?_
    unfold cancelItem
    rw [if_neg (by simp), findRun_id hr, hi]
    exact endEarly_ends hv (.inl he) _

theorem stopFeeds_cutTo (s : State) (q : Feed → Bool) : CutTo s (s.stopFeeds q) run i stCancelled := by
  unfold State.stopFeeds
  exact cutTo_foldl (fun t y => endEarly_cutTo _ _ _ _ _ _ _) _ _

theorem stopFeeds_fab (s : State) (q : Feed → Bool) : (s.stopFeeds q).fab = { s.fab with
    requests := (s.stopFeeds q).fab.requests, fences := (s.stopFeeds q).fab.fences, patches := (s.stopFeeds q).fab.patches } := by
  unfold State.stopFeeds
  exact (cuts_foldl (fun t y => endEarly_cuts _ _ _ _ _) _ _).fab

theorem teardownSteps_advanced (s : State) (c g : Nat) (but : Option (Nat × Nat)) :
    (s.teardownSteps c g but).fab.advanced = addVal c s.fab.advanced := by
  refine (congrArg Fabric.advanced (stopFeeds_fab _ _)).trans ?_
  exact congrArg Fabric.advanced (cancelContext_cuts _ c but).fab

theorem teardownSteps_ends (hr : s.findRun run = some r) (hc : r.ctx = c) (hx : s.itemOf run i = some x) (he : x.hasEnded = false) :
    ∃ dt, (s.teardownSteps c g none).phaseOf run i = some (.ended stCancelled dt) := by
  have ends := cancelContext_ends (s := ({ s with
    sched := { s.sched with runnable := dropVal c s.sched.runnable, torn := addVal c s.sched.torn }
    fab := { s.fab with advanced := addVal c s.fab.advanced } } : State)) hr hc hx he
  rcases stopFeeds_cutTo (run := run) (i := i) ((({ s with
    sched := { s.sched with runnable := dropVal c s.sched.runnable, torn := addVal c s.sched.torn }
    fab := { s.fab with advanced := addVal c s.fab.advanced } } : State).cancelContext c none).cutFetched
      (fun f => hdrCtx f.bytes == c) stCancelled) (fun f => f.ctx == c) with done | same
  · exact done
  · obtain ⟨dt, h⟩ := ends
    exact ⟨dt, (congrArg (Option.map Item.phase) same).trans h⟩

theorem openTags_tick (s : State) (now c : Nat) (h : Request → Bool) (hh : ∀ d q, h (s.requestAfter d q) = h q) :
    (s.tick now).openTags c h = s.openTags c h := by
  unfold State.openTags State.tick
  split
  · rfl
  · dsimp only
    rw [List.filter_map, List.map_map]
    refine congrArg₂ List.map rfl (congrArg (fun f => List.filter f s.fab.requests) (funext fun q => ?_))
    exact congrArg (q.ctx == c && ·) (hh _ q)

/-- A TEARDOWN of a newer generation is begun. -/
theorem teardownMsg_begins (hp : p.type = ptTeardown) (hc : c = leAt p.data 0 1 % 64) (hg : g = leAt p.data 1 1)
    (hd : drain = leAt p.data 4 4) (hn : 128 < s.genBehind c g) (ha : c ∉ s.fab.advanced)
    (ht : ∀ x ∈ s.fab.teardowns, x.ctx ≠ c) : s.teardownMsg p = s.beginTeardown c g (some p.src) drain := by
  subst hc hg hd
  have none : (s.fab.teardowns.any fun x => x.ctx == leAt p.data 0 1 % 64 && x.item.isNone && x.gen == leAt p.data 1 1 &&
      x.origin.isNone) = false := by
    refine List.any_eq_false.2 fun x hx => ?_
    simp [ht x hx]
  unfold State.teardownMsg
  dsimp only
  rw [if_neg (by simp [hp]), if_neg (by simp [none]), if_neg (by omega), if_neg (by rw [List.contains_iff_mem]; exact ha)]

/-- A drained teardown frees the context's granules, and the member that asked is answered. -/
theorem teardownDrained_answers {m : Nat} {x : Teardown} (hx : s.fab.teardowns.find? (fun x => x.ctx == c && x.item.isNone) = some x)
    (hdr : s.drained x.waits = true) (hacc : s.acceptedDone c = true) (ho : x.origin = some m) (hf : x.freed = false) :
    s.teardownDrained c = ({ s.freeGranules c with fab := { s.fab with
      teardowns := s.fab.teardowns.filter fun y => y.ctx != c || y.item.isSome } } : State).originate
        ((s.freeGranules c).prompter ptDrainReturn m false (leBytes 1 c ++ leBytes 1 x.gen ++ leBytes 2 0 ++ leBytes 4 x.drain)) := by
  unfold State.teardownDrained
  rw [hx]
  dsimp only
  rw [if_neg (by simp [hdr, hacc]), if_neg (by simp [hf]), ho]
  rfl

/-! ### Route patches -/

theorem imageBytes_length (s : State) (gen : Nat) (im : RouteImage) : (s.imageBytes gen im).length = routeBytes := by
  have rows : ∀ (l : List Nat) (f : Nat → Nat), (l.flatMap fun m => leBytes 8 (f m)).length = 8 * l.length := by
    intro l f
    induction l with
    | nil => rfl
    | cons m l ih => rw [List.flatMap_cons, List.length_append, ih, leBytes_length, List.length_cons]; omega
  unfold State.imageBytes routeBytes
  dsimp only
  rw [List.length_append, List.length_append (bs := List.flatMap _ _), rows, List.length_range]
  simp only [List.length_append, leBytes_length, List.length_take, List.length_replicate]
  omega

theorem switchRequest_same (s : State) (kind gen lead : Nat) : (s.switchRequest kind gen lead).fab = s.fab ∧
    (s.switchRequest kind gen lead).runs = s.runs ∧ (s.switchRequest kind gen lead).mem = s.mem := by
  unfold State.switchRequest State.setAnnounced
  split
  · exact ⟨rfl, rfl, rfl⟩
  · split
    · exact ⟨rfl, rfl, rfl⟩
    · split
      · exact ⟨rfl, rfl, rfl⟩
      · split <;> exact ⟨rfl, rfl, rfl⟩

/-- A patch that fits puts the image in force, with its pairs, into the standby buffer. -/
theorem takePatch_spec {gen k : Nat} {pairs : List (Nat × Nat)} (hn : (pairs.foldl addAlias s.fab.route.aliases).length ≤ 16)
    (hk : s.routeKey s.standbyRoute = some k) (hs : s.devShut k = false) :
    (s.takePatch gen pairs).fab.patchGen = some gen ∧ (s.takePatch gen pairs).fab.patchPairs = pairs ∧
      (s.takePatch gen pairs).devRead k routeBytes =
        s.imageBytes gen { s.fab.route with aliases := pairs.foldl addAlias s.fab.route.aliases } ∧
      (s.takePatch gen pairs).fab.route = s.fab.route ∧ (s.takePatch gen pairs).runs = s.runs := by
  have eq : s.takePatch gen pairs = (({ s with fab := { s.fab with patchGen := some gen, patchPairs := pairs } } : State).devWrite k
      (s.imageBytes gen { s.fab.route with aliases := pairs.foldl addAlias s.fab.route.aliases })).switchRequest 3 gen 2 := by
    unfold State.takePatch
    dsimp only
    rw [if_neg (by omega), hk]
    dsimp only
    rw [if_neg (by simp [hs])]
  obtain ⟨fab, runs, mem⟩ := switchRequest_same (({ s with fab := { s.fab with patchGen := some gen, patchPairs := pairs } } :
    State).devWrite k (s.imageBytes gen { s.fab.route with aliases := pairs.foldl addAlias s.fab.route.aliases })) 3 gen 2
  rw [eq]
  refine ⟨(congrArg Fabric.patchGen fab :), (congrArg Fabric.patchPairs fab :), ?_, (congrArg Fabric.route fab :), runs⟩
  unfold State.devRead
  rw [mem, ← imageBytes_length s gen { s.fab.route with aliases := pairs.foldl addAlias s.fab.route.aliases }]
  exact cellRead_write _ _ _ _

/-- Settles O46. -/
theorem teardownsAndPatchesTaken : Obligations.TeardownsAndPatchesTaken := by
  unfold Obligations.TeardownsAndPatchesTaken
  refine ⟨?_, ?_, ?_⟩
  · rintro s w now c g drain p rfl hp hc hg hd hn ha ht
    have same : (s.tick now).fab.advanced = s.fab.advanced ∧ (s.tick now).fab.teardowns = s.fab.teardowns := by
      unfold State.tick
      split <;> exact ⟨rfl, rfl⟩
    have hg256 : g < 256 := hg ▸ leAt_lt _ _ _
    refine ⟨_, congrArg Host.Outcome.next (teardownMsg_begins hp hc hg hd hn (by rw [same.1]; exact ha) (by rw [same.2]; exact ht)),
      teardownSteps_gen _ _ _ _ hg256, ?_, ?_, ?_, ?_⟩
    · show c ∉ ((s.tick now).teardownSteps c g none).sched.runnable
      rw [teardownSteps_sched]
      exact not_mem_dropVal c _
    · show c ∈ ((s.tick now).teardownSteps c g none).fab.advanced
      rw [teardownSteps_advanced]
      exact mem_addVal c _
    · rintro run r i x hr hctx hx he
      obtain ⟨r', hr', hctx'⟩ : ∃ r', (s.tick now).findRun run = some r' ∧ r'.ctx = r.ctx := by
        rw [tick_findRun, hr]
        split
        · exact ⟨r, rfl, rfl⟩
        · exact ⟨_, rfl, by unfold State.runAfter; split <;> rfl⟩
      have ho : (s.tick now).itemOpen run i = true :=
        (itemOpen_of_phase (phaseOf_tick s now run i)).trans (itemOpen_iff.2 ⟨x, hx, he⟩)
      obtain ⟨x', hx', he'⟩ := itemOpen_iff.1 ho
      exact teardownSteps_ends (g := g) hr' (hctx'.trans hctx) hx' he'
    · refine ⟨_, List.mem_append_right _ (List.mem_singleton_self _), rfl, Nat.mod_eq_of_lt hg256, rfl, rfl, ?_⟩
      exact openTags_tick s now c _ fun _ _ => rfl
  · rintro s w now c m x rfl hx hdr hacc ho hfreed
    have eq := teardownDrained_answers hx hdr hacc ho hfreed
    have sent := originate_sends ({ (s.tick now).freeGranules c with fab := { (s.tick now).fab with
      teardowns := (s.tick now).fab.teardowns.filter fun y => y.ctx != c || y.item.isSome } } : State)
        (((s.tick now).freeGranules c).prompter ptDrainReturn m false
          (leBytes 1 c ++ leBytes 1 x.gen ++ leBytes 2 0 ++ leBytes 4 x.drain))
    have runs := sent.runs
    unfold Sends at sent
    refine ⟨_, congrArg Host.Outcome.next eq, fun o ho => ?_, fun y hy => ?_, runs, ?_, rfl⟩
    · rw [show (State.originate _ _).mem = _ from congrArg State.mem sent] at ho
      simpa using (List.mem_filter.1 ho).2
    · rw [show (State.originate _ _).fab.teardowns = _ from congrArg (fun t => t.fab.teardowns) sent] at hy
      simpa using (List.mem_filter.1 hy).2
    · exact (congrArg State.rings sent :)
  · rintro s port gen n k p al hp hn h1 h8 hgen hsrc hseen rfl hal hk hs
    refine ⟨_, congrArg Host.Outcome.next ?_, takePatch_spec (s := s.noteFlood p) (gen := gen) (pairs := patchPairsOf p.data n) hal hk hs⟩
    unfold State.routePatchMsg
    rw [if_neg (by rw [← hn]; simp [hp]; omega), onFlood_new hsrc hseen, hgen, hn]

end Sys2Proof.Machine
end

