-- ==== Sys2Proof/Proofs/ReturnImage.lean ====
section
/-! SUPPORT. What waited for the stage manager goes on in order: a coppice under way, then a seal, whose image holds no health
(R25, R432, R433). -/
namespace Sys2Proof.Machine

/-- A device that could be sealed, out of reset with its stage manager down. Partition 0 is in a coppice, `HEALTH_STATUS` fails
its parity while no image is held, and a coppice of partition 0 and a seal wait. -/
def sealWaits : State :=
  let s := (staleImage.setFld bootStatusPhase 5).setFld ⟨rHealthStatus, 4, 1⟩ 1
  { s with regs := { s.regs with imageHeld := false, parityBad := [rHealthStatus] }
           rel := { s.rel with smUp := false, smWaiting := [.coppice 0 1, .seal] } }

/-- It meets what the clause on the stage manager's return asks of a state. -/
theorem sealWaits_returns : sealWaits.rel.smUp = false ∧ sealWaits.inReset = false ∧
    (SmTask.coppice 0 1 ∈ sealWaits.rel.smWaiting) ∧ ∀ x ∈ sealWaits.rel.smWaiting, x = .coppice 0 1 ∨ x = .seal := by
  decide +kernel

/-- The seal takes an image, from which `HEALTH_STATUS` then reads as after reset. -/
theorem sealWaits_reads : ((sealWaits.tick 0).smBack).inCoppice 0 = false := by decide +kernel

/-- Refutes O47: its clause on the return of the stage manager has every partition whose coppice waited in one afterwards. In
`sealWaits` the coppice is under way, so nothing starts it again, and `HEALTH_STATUS` fails its parity; the seal that waits behind
it takes an image that holds no value of that register, which then reads as after reset. No command lists a parity failure, so no
run of the model comes to such a state; but the statement does not ask that of its states. -/
theorem not_stageManagerAndScan : ¬ Obligations.StageManagerAndScan := by
  unfold Obligations.StageManagerAndScan
  rintro ⟨⟨-, returns⟩, -⟩
  obtain ⟨down, running, waits, only⟩ := sealWaits_returns
  obtain ⟨t, ht, -, -, started⟩ := returns sealWaits 0 down running fun c hc => by
    rcases only _ hc with h | h <;> cases h
  obtain rfl : (sealWaits.tick 0).smBack = t := Host.Outcome.next.inj ht
  exact absurd (started 0 1 waits (by decide)) (by rw [sealWaits_reads]; decide)

end Sys2Proof.Machine
end

