-- ==== Sys2Proof/Proofs/CurtainEntry.lean ====
section
/-! SUPPORT. What history records and the entry to curtain change and leave (R430, R442). -/
namespace Sys2Proof.Machine

variable {s t u : State} {run i : Nat} {x : Item}

/-! ### Records -/

/-- `t` is `s` after history records: only what they store, log and raise differs, and no register but those of the fault log. -/
structure Posted (s t : State) : Prop where
  same : t = { s with regs := t.regs, mem := t.mem, rel := { s.rel with openReads := t.rel.openReads }, outs := t.outs
                      book := { s.book with history := t.book.history, historySeq := t.book.historySeq } }
  sram : t.mem.sram = s.mem.sram
  reg : ∀ o, o ≠ rFaultLogProd → o ≠ rFaultLogLost → t.reg o = s.reg o

theorem Posted.refl (s : State) : Posted s s := ⟨rfl, rfl, fun _ _ _ => rfl⟩

theorem Posted.trans (a : Posted s t) (b : Posted t u) : Posted s u :=
  ⟨by rw [b.same, a.same], b.sram.trans a.sram, fun o h k => (b.reg o h k).trans (a.reg o h k)⟩

theorem Posted.runs (h : Posted s t) : t.runs = s.runs := by rw [h.same]

theorem Posted.rings (h : Posted s t) : t.rings = s.rings := by rw [h.same]

theorem Posted.now (h : Posted s t) : t.now = s.now := by rw [h.same]

theorem event_posted (s : State) : Posted s s.event := by
  refine ⟨?_, ?_, fun o _ _ => ?_⟩ <;> (unfold State.event State.raise; split <;> rfl)

theorem logPost_posted (s : State) (e : List Byte) : Posted s (s.logPost faultLog e) := by
  unfold State.logPost
  split
  · exact .refl s
  · split
    · exact ⟨rfl, rfl, fun o h _ => reg_setReg_other _ _ _ _ h⟩
    · exact ⟨rfl, rfl, fun o _ h => reg_setReg_other _ _ _ _ h⟩

theorem histPost_posted (s : State) (h : HistInfo) : Posted s (s.histPost h) := by
  unfold State.histPost
  dsimp only
  split
  · exact (logPost_posted s _).trans (event_posted _)
  · exact logPost_posted s _

/-- The record in the prompt book's ring. -/
def State.noted (s : State) (h : HistInfo) : State :=
  { s with book := { s.book with
      history := cellPut s.book.history ((s.book.historySeq + 1) % 65536) (some (s.histBytes h))
      historySeq := s.book.historySeq + 1 } }

theorem record_posted (s : State) (h : HistInfo) : Posted s (s.record h) :=
  have noted : Posted s (s.noted h) := ⟨rfl, rfl, fun _ _ _ => rfl⟩
  noted.trans (histPost_posted (s.noted h) h)

/-- Posting leaves the sequence number of the history as it is. -/
theorem histPost_seq (s : State) (h : HistInfo) : (s.histPost h).book = s.book := by
  have posted : ∀ e, (s.logPost faultLog e).book = s.book := by
    intro e
    unfold State.logPost
    split
    · rfl
    · split <;> rfl
  unfold State.histPost
  dsimp only
  split
  · exact (show (State.event _).book = _ by unfold State.event State.raise; split <;> rfl).trans (posted _)
  · exact posted _

theorem record_seq (s : State) (h : HistInfo) : (s.record h).book.historySeq = s.book.historySeq + 1 :=
  congrArg PromptBook.historySeq (histPost_seq (s.noted h) h)

/-! ### Work halted -/

/-- What a halt of unstarted work may change: no register but those that an item's end may change, the fault log's and
`CUE_STATUS`, and no ended item whose status does not give way to CANCELLED. -/
structure Halts (s t : State) : Prop where
  reg : ∀ o, ¬cutRegs o → o ≠ rCueStatus → o ≠ rFaultLogProd → o ≠ rFaultLogLost → t.reg o = s.reg o
  rel : t.rel = { s.rel with openReads := t.rel.openReads }
  sram : t.mem.sram = s.mem.sram
  now : t.now = s.now
  ended : ∀ run i st dt, endRank st ≤ endRank stCancelled → s.phaseOf run i = some (.ended st dt) →
    t.phaseOf run i = some (.ended st dt)

theorem Halts.refl (s : State) : Halts s s := ⟨fun _ _ _ _ _ => rfl, rfl, rfl, rfl, fun _ _ _ _ _ h => h⟩

theorem Halts.trans (a : Halts s t) (b : Halts t u) : Halts s u where
  reg o h1 h2 h3 h4 := (b.reg o h1 h2 h3 h4).trans (a.reg o h1 h2 h3 h4)
  rel := by rw [b.rel, a.rel]
  sram := b.sram.trans a.sram
  now := b.now.trans a.now
  ended run i st dt h e := b.ended run i st dt h (a.ended run i st dt h e)

theorem halts_foldl {α : Type} {g : State → α → State} (hg : ∀ t x, Halts t (g t x)) (l : List α) (s : State) :
    Halts s (l.foldl g s) := by
  induction l generalizing s with
  | nil => exact .refl s
  | cons x l ih => exact (hg s x).trans (ih _)

theorem phaseOf_congr (h : t.runs = s.runs) (run i : Nat) : t.phaseOf run i = s.phaseOf run i := by
  unfold State.phaseOf
  rw [itemOf_congr h]

/-- A change that leaves the runs alone. -/
theorem halts_of (hr : t.runs = s.runs)
    (hg : ∀ o, ¬cutRegs o → o ≠ rCueStatus → o ≠ rFaultLogProd → o ≠ rFaultLogLost → t.reg o = s.reg o)
    (h1 : t.rel = { s.rel with openReads := t.rel.openReads }) (h2 : t.mem.sram = s.mem.sram) (h3 : t.now = s.now) : Halts s t :=
  ⟨hg, h1, h2, h3, fun _ _ _ _ _ h => (phaseOf_congr hr _ _).trans h⟩

theorem Posted.halts (h : Posted s t) : Halts s t :=
  halts_of h.runs (fun o _ _ h3 h4 => h.reg o h3 h4) (congrArg State.rel h.same) h.sram h.now

/-- An item that ended with a status that does not give way keeps it. -/
theorem phaseOf_endEarly_ended {st st' d dt r j : Nat} (h : s.phaseOf run i = some (.ended st d))
    (hst : endRank st' = 0 ∨ endRank st ≤ endRank st') : (s.endEarly r j st' dt).phaseOf run i = some (.ended st d) := by
  by_cases same : run = r ∧ i = j
  · obtain ⟨rfl, rfl⟩ := same
    unfold State.phaseOf at h
    cases hx : s.itemOf run i with
    | none => rw [hx] at h; cases h
    | some x =>
      rw [hx] at h
      have hp : x.phase = .ended st d := Option.some.inj h
      have he : x.hasEnded = true := by unfold Item.hasEnded; rw [hp]
      have stays : x.yields s.now st' = false := by
        unfold Item.yields
        rw [hp]
        split
        · next h1 _ =>
          cases h1
          rcases hst with h | h
          · simp [h]
          · simp [Nat.not_lt.2 h]
        · rfl
      unfold State.phaseOf
      rw [itemOf_endEarly_ended hx he]
      unfold Item.finish
      rw [if_pos he, stays, if_neg (by decide)]
      exact congrArg some hp
  · unfold State.phaseOf
    rw [itemOf_endEarly_other _ _ _ _ _ _ _ (by omega)]
    exact h

theorem endEarly_halts (s : State) (r j dt : Nat) : Halts s (s.endEarly r j stCancelled dt) :=
  have cuts := endEarly_cuts s r j stCancelled dt
  ⟨fun o h _ _ _ => cuts.reg o h, cuts.rel, cuts.sram, cuts.now, fun _ _ _ _ h e => phaseOf_endEarly_ended e (.inr h)⟩

theorem cancelUnstarted_halts (s : State) : Halts s s.cancelUnstarted := by
  refine Halts.trans (t := s.cutItems (fun _ => true) Item.isUnstarted stCancelled 0) ?_
    (halts_of rfl (fun _ _ _ _ _ => rfl) rfl rfl rfl)
  refine halts_foldl (fun t r => ?_) _ _
  split
  · refine halts_foldl (fun u x => ?_) _ _
    split
    · exact endEarly_halts _ _ _ _
    · exact .refl u
  · exact .refl t

theorem stopFeeds_halts (s : State) (p : Feed → Bool) : Halts s (s.stopFeeds p) := by
  have stopped : ∀ m : Media, Halts s { s with media := m } := fun _ => halts_of rfl (fun _ _ _ _ _ => rfl) rfl rfl rfl
  have ended : ∀ (l : List (Nat × Feed)) (t : State), Halts t (l.foldl (fun u x => u.endEarly x.2.run x.2.item stCancelled) t) :=
    halts_foldl fun t x => endEarly_halts t x.2.run x.2.item 0
  unfold State.stopFeeds
  exact (stopped _).trans (ended _ _)

theorem sends_halts (h : Sends s t) : Halts s t := by
  have runs := h.runs
  have regs := h.regs
  unfold Sends at h
  have rel : t.rel = s.rel := (congrArg State.rel h :)
  exact halts_of runs (fun o _ _ _ _ => congrFun (reg_congr regs) o) (by rw [rel]) (congrArg (fun t => t.mem.sram) h :)
    (congrArg State.now h :)

theorem stopEmitting_halts (s : State) : Halts s s.stopEmitting := by
  unfold State.stopEmitting
  split
  · exact halts_of rfl (fun o _ h _ _ => reg_setReg_other _ _ _ _ h) rfl rfl rfl
  · exact .refl s

theorem sendDetached_halts (s : State) : Halts s s.sendDetached := sends_halts (originate_sends _ _)

/-- Unstarted items end CANCELLED. -/
theorem cancelUnstarted_ends (hx : s.itemOf run i = some x) (hp : x.phase = .unstarted) :
    ∃ dt, s.cancelUnstarted.phaseOf run i = some (.ended stCancelled dt) := by
  obtain ⟨r, hr, -⟩ := Option.bind_eq_some_iff.1 hx
  exact cutItems_ends s (fun _ => true) Item.isUnstarted stCancelled 0 run i hr rfl hx
    (by unfold Item.isUnstarted; rw [hp]; rfl) (by unfold Item.hasEnded; rw [hp])

/-! ### Curtain -/

/-- The device as `HEALTH_STATUS` first shows curtain. -/
def State.curtainShown (s : State) (cause : Nat) : State :=
  let t := (s.setFlag healthStatusCurtain true).setFld healthStatusCurtainCause cause
  { t with rel := { t.rel with draining := true } }

/-- What curtain does in Full or Dimmed, once. -/
def State.curtained (s : State) (cause : Nat) : State :=
  (((s.curtainShown cause).cancelUnstarted.stopFeeds fun _ => true).sendDetached.stopEmitting).record
    (.plain 0x09 ⟨0x0C, 0, 0⟩ cause 0)

theorem enterCurtain_first {cause : Nat} (hf : s.flag healthStatusCurtain = false) (hp : s.powerState < 2) :
    s.enterCurtain cause = s.curtained cause := by
  unfold State.enterCurtain
  rw [if_neg (by simp [hf]), if_neg (by omega)]
  rfl

theorem curtained_halts (s : State) (cause : Nat) : Halts (s.curtainShown cause) (s.curtained cause) :=
  ((((cancelUnstarted_halts _).trans (stopFeeds_halts _ _)).trans (sendDetached_halts _)).trans (stopEmitting_halts _)).trans
    (record_posted _ _).halts

theorem not_cutRegs_health : ¬cutRegs rHealthStatus := by unfold cutRegs; decide

theorem Halts.health (h : Halts s t) : t.reg rHealthStatus = s.reg rHealthStatus :=
  h.reg _ not_cutRegs_health (by decide) (by decide) (by decide)

theorem Halts.healthFld (h : Halts s t) (lo w : Nat) : t.fld ⟨rHealthStatus, lo, w⟩ = s.fld ⟨rHealthStatus, lo, w⟩ := by
  unfold State.fld
  rw [h.health]

/-- The entry to curtain: shown with its cause, draining, every unstarted item CANCELLED (R442). -/
theorem curtained_shows {cause : Nat} (hc : cause < 8) : (s.curtained cause).flag healthStatusCurtain = true ∧
    (s.curtained cause).fld healthStatusCurtainCause = cause ∧ (s.curtained cause).rel.draining = true := by
  have halts := curtained_halts s cause
  refine ⟨?_, ?_, ?_⟩
  · unfold State.flag
    rw [show (s.curtained cause).fld healthStatusCurtain = _ from halts.healthFld 0 1]
    refine (congrArg (· == 1) (fld_setFld_other (s.setFlag healthStatusCurtain true) healthStatusCurtainCause healthStatusCurtain cause
      (by decide) (.inr (.inl (by decide))))).trans ?_
    exact flag_setFlag s healthStatusCurtain true (by decide) (by decide)
  · exact (halts.healthFld 1 3).trans (fld_setFld _ healthStatusCurtainCause _ (by decide) hc)
  · exact (congrArg Rel.draining halts.rel).trans rfl

theorem curtained_cancels {cause : Nat} (hx : s.itemOf run i = some x) (hp : x.phase = .unstarted) :
    ∃ dt, (s.curtained cause).phaseOf run i = some (.ended stCancelled dt) := by
  obtain ⟨dt, h⟩ := cancelUnstarted_ends (s := s.curtainShown cause) hx hp
  exact ⟨dt, ((((stopFeeds_halts _ _).trans (sendDetached_halts _)).trans (stopEmitting_halts _)).trans
    (record_posted _ _).halts).ended run i _ _ (Nat.le_refl _) h⟩

end Sys2Proof.Machine
end

