-- ==== Sys2Proof/Proofs/Coppices.lean ====
section
/-! SUPPORT. Coppices, engine resets and curtain: what starts them, what they end, and the return of a partition (R435 to R442). -/
namespace Sys2Proof.Machine

variable {s t u w : State} {run i p cause : Nat} {r : Run} {x : Item}

/-! ### What upkeep leaves -/

/-- `t` is `s` after upkeep: ended items whose status does not give way to CANCELLED keep it, engines under reset stay so, and no
byte of SRAM changes. -/
structure Upholds (s t : State) : Prop where
  ended : ∀ run i st dt, endRank st ≤ endRank stCancelled → s.phaseOf run i = some (.ended st dt) →
    t.phaseOf run i = some (.ended st dt)
  resetting : t.rel.resetting = s.rel.resetting
  sram : t.mem.sram = s.mem.sram

theorem Upholds.refl (s : State) : Upholds s s := ⟨fun _ _ _ _ _ h => h, rfl, rfl⟩

theorem Upholds.trans (a : Upholds s t) (b : Upholds t u) : Upholds s u where
  ended run i st dt h e := b.ended run i st dt h (a.ended run i st dt h e)
  resetting := b.resetting.trans a.resetting
  sram := b.sram.trans a.sram

theorem upholds_of (hr : t.runs = s.runs := by exact rfl) (h1 : t.rel.resetting = s.rel.resetting := by exact rfl)
    (h2 : t.mem.sram = s.mem.sram := by exact rfl) : Upholds s t :=
  ⟨fun _ _ _ _ _ h => (phaseOf_congr hr _ _).trans h, h1, h2⟩

theorem upholds_foldl {α : Type} {g : State → α → State} (hg : ∀ t x, Upholds t (g t x)) (l : List α) (s : State) :
    Upholds s (l.foldl g s) := by
  induction l generalizing s with
  | nil => exact .refl s
  | cons x l ih => exact (hg s x).trans (ih _)

theorem Halts.upholds (h : Halts s t) : Upholds s t := ⟨h.ended, (congrArg Rel.resetting h.rel :), h.sram⟩

theorem record_upholds (s : State) (h : HistInfo) : Upholds s (s.record h) := (record_posted s h).halts.upholds

theorem event_upholds (s : State) : Upholds s s.event := (event_posted s).halts.upholds

/-- The three ways to curtain: already in it, due when the device is back in Full, or entered (R442, R473). -/
theorem enterCurtain_cases (s : State) (cause : Nat) : s.enterCurtain cause = s ∨
    (∃ pw, s.enterCurtain cause = { s with power := pw }) ∨
    (∃ pw, s.enterCurtain cause = State.setFlag { s with power := pw } pwrStatusBusy true) ∨
    s.enterCurtain cause = s.curtained cause := by
  by_cases hf : s.flag healthStatusCurtain = true
  · exact .inl (by unfold State.enterCurtain; rw [if_pos hf])
  · by_cases hp : 2 ≤ s.powerState
    · unfold State.enterCurtain
      rw [if_neg hf, if_pos hp]
      dsimp only
      split
      · exact .inr (.inl ⟨_, rfl⟩)
      · exact .inr (.inr (.inl ⟨_, rfl⟩))
    · exact .inr (.inr (.inr (enterCurtain_first (by simpa using hf) (by omega))))

theorem enterCurtain_upholds (s : State) (cause : Nat) : Upholds s (s.enterCurtain cause) := by
  rcases enterCurtain_cases s cause with h | ⟨pw, h⟩ | ⟨pw, h⟩ | h <;> rw [h]
  · exact .refl s
  · exact upholds_of
  · exact upholds_of
  · exact Upholds.trans (t := s.curtainShown cause) upholds_of (curtained_halts s cause).upholds

/-- Curtain leaves the coppices that `HEALTH_STATUS` shows. -/
theorem enterCurtain_inCoppice (s : State) (cause : Nat) (hp : p < 8) : (s.enterCurtain cause).inCoppice p = s.inCoppice p := by
  have apart : ∀ (v : State) (f : Fld) (n : Nat), f.lo + f.w ≤ 4 → (v.setFld f n).inCoppice p = v.inCoppice p := by
    intro v f n h
    unfold State.inCoppice
    rw [fld_setFld_other v f ⟨rHealthStatus, 4 + p, 1⟩ n (by omega) (.inr (.inr (by show f.lo + f.w ≤ 4 + p; omega)))]
  rcases enterCurtain_cases s cause with h | ⟨pw, h⟩ | ⟨pw, h⟩ | h <;> rw [h]
  · rfl
  · exact apart { s with power := pw } pwrStatusBusy 1 (by decide)
  · have shown : (s.curtained cause).inCoppice p = (s.curtainShown cause).inCoppice p := by
      unfold State.inCoppice
      rw [(curtained_halts s cause).healthFld]
    rw [shown]
    exact (apart (s.setFlag healthStatusCurtain true) healthStatusCurtainCause cause (by decide)).trans
      (apart s healthStatusCurtain 1 (by decide))

theorem countEscalation_upholds (s : State) (who : Nat) : Upholds s (s.countEscalation who) := by
  unfold State.countEscalation
  dsimp only
  split
  · exact Upholds.trans upholds_of (enterCurtain_upholds _ 3)
  · exact upholds_of

theorem countEscalation_inCoppice (s : State) (who : Nat) (hp : p < 8) : (s.countEscalation who).inCoppice p = s.inCoppice p := by
  unfold State.countEscalation
  dsimp only
  split
  · exact (enterCurtain_inCoppice _ 3 hp).trans rfl
  · rfl

theorem record_inCoppice (s : State) (h : HistInfo) (p : Nat) : (s.record h).inCoppice p = s.inCoppice p := by
  unfold State.inCoppice
  rw [(record_posted s h).halts.healthFld]

/-! ### Suspect units and repairs -/

theorem planCoppice_upholds (s : State) (p : Nat) : Upholds s (s.planCoppice p) := by
  unfold State.planCoppice
  split
  · exact .refl s
  · exact Upholds.trans upholds_of (event_upholds _)

theorem confirm_upholds (s : State) (id : UnitId) (detector link : Nat) (data : List Byte) :
    Upholds s (s.confirm id detector link data) := by
  have confirmed : ∀ v : State, Upholds v (v.confirmed id) := by
    intro v
    unfold State.confirmed
    split
    · exact upholds_of
    · split
      · exact enterCurtain_upholds v 2
      · split
        · exact enterCurtain_upholds v 6
        · dsimp only
          split
          · exact Upholds.trans upholds_of (planCoppice_upholds _ _)
          · exact upholds_of
  exact (Upholds.trans upholds_of (record_upholds _ _)).trans (confirmed _)

theorem suspect_upholds (s : State) (id : UnitId) (detector : Nat) (data : List Byte) : Upholds s (s.suspect id detector data) := by
  unfold State.suspect
  dsimp only
  split
  · split
    · exact confirm_upholds _ _ _ _ _
    · exact (record_upholds s _).trans upholds_of
  · by_cases hk : id.kind = 1
    · simp only [if_pos hk]
      split <;> exact (record_upholds s _).trans upholds_of
    · simp only [if_neg hk]
      split <;> exact (record_upholds s _).trans upholds_of

theorem repairedWith_upholds (s : State) (id : UnitId) (how : Nat) (data : List Byte) : Upholds s (s.repairedWith id how data) :=
  (record_upholds s _).trans upholds_of

theorem repairTile_upholds (s : State) (id : UnitId) : Upholds s (s.repairTile id) := by
  unfold State.repairTile
  dsimp only
  split
  · exact upholds_of
  · split
    · exact Upholds.trans upholds_of (enterCurtain_upholds _ 1)
    · exact Upholds.trans upholds_of (repairedWith_upholds _ _ _ _)

theorem repairUnit_upholds (s : State) (id : UnitId) : Upholds s (s.repairUnit id) := by
  have gone : ∀ v : State, v.runs = s.runs → v.rel.resetting = s.rel.resetting → v.mem.sram = s.mem.sram → Upholds s (v.enterCurtain 2) :=
    fun v h1 h2 h3 => (upholds_of h1 h2 h3).trans (enterCurtain_upholds v 2)
  unfold State.repairUnit
  dsimp only
  split
  · exact repairTile_upholds _ _
  · split
    · split
      · exact repairedWith_upholds _ _ _ _
      · exact (Upholds.trans upholds_of (confirm_upholds _ _ _ _ _)).trans (repairTile_upholds _ _)
    · split
      · split
        · exact repairedWith_upholds _ _ _ _
        · exact gone _ rfl rfl rfl
      · split
        · split
          · exact repairedWith_upholds _ _ _ _
          · exact gone _ rfl rfl rfl
        · split
          · split
            · exact repairedWith_upholds _ _ _ _
            · exact gone _ rfl rfl rfl
          · exact upholds_of

theorem repairPart_upholds (s : State) (p : Nat) : Upholds s (s.repairPart p) := upholds_foldl repairUnit_upholds _ _

/-! ### A coppice starts -/

/-- The partition fenced. -/
def State.fenced (s : State) (p cause : Nat) : State :=
  let t := (s.setFld ⟨rHealthStatus, 4 + p, 1⟩ 1).setFld ⟨rHealthStatus, 12 + p, 1⟩ 0
  { t with
    rel := { t.rel with
      coppices := t.rel.coppices ++ [{ part := p, cause := cause, noReturn := false }]
      planned := t.rel.planned.filter fun x => x.part != p
      testing := t.rel.testing.filter fun x => x / 18 != p
      testOut := if t.rel.testOut.any (fun x => x / 18 == p) then none else t.rel.testOut }
    fn := { t.fn with loading := t.fn.loading.map fun (r, i, g, l) => (r, i, g, l.filter fun x => decide (x / 18 ≠ p)) } }

/-- The items of the partition cut: those on its tiles, of its feeds, and moves by its engines or with an end there, as it was
seen from `v`. -/
def State.partCut (s v : State) (p : Nat) : State :=
  let t := (s.cutItems (fun r => r.inPart p && !r.waiting) (fun _ => true) stPartReset 0).loseFeeds p
  t.runs.foldl (fun u r => u.cutItems (fun x => x.id == r.id) (fun i => r.movesOn p i.index || v.stagedIn r p i) stPartReset 0) t

theorem fenced_inCoppice (s : State) (cause : Nat) (hp : p < 8) : (s.fenced p cause).inCoppice p = true := by
  show ((s.setFld ⟨rHealthStatus, 4 + p, 1⟩ 1).setFld ⟨rHealthStatus, 12 + p, 1⟩ 0).inCoppice p = true
  unfold State.inCoppice
  rw [fld_setFld_other _ _ _ _ (by show 12 + p + 1 ≤ 64; omega) (.inr (.inl (by show 4 + p + 1 ≤ 12 + p; omega))),
    fld_setFld _ _ _ (by show 4 + p + 1 ≤ 64; omega) (by show 1 < 2 ^ 1; decide)]
  rfl

theorem loseFeeds_cuts (s : State) (p : Nat) : Cuts s (s.loseFeeds p) := by
  have lost : ∀ m : Media, Cuts s { s with media := m } := fun m =>
    cuts_of rfl (fun _ _ => rfl) rfl rfl rfl rfl rfl rfl ⟨rfl, rfl, rfl, rfl, rfl, rfl, rfl, rfl, rfl, ⟨[], rfl⟩, rfl, rfl⟩
  have ended : ∀ (l : List (Nat × Feed)) (t : State), Cuts t (l.foldl (fun u x => u.endEarly x.2.run x.2.item stPartReset 0) t) :=
    cuts_foldl fun t x => endEarly_cuts t x.2.run x.2.item stPartReset 0
  unfold State.loseFeeds
  exact (lost _).trans (ended _ _)

theorem loseFeeds_cutTo (s : State) (p : Nat) : CutTo s (s.loseFeeds p) run i stPartReset := by
  unfold State.loseFeeds
  exact cutTo_foldl (fun t y => endEarly_cutTo _ _ _ _ _ _ _) _ _

theorem partCut_cuts (s v : State) (p : Nat) : Cuts s (s.partCut v p) :=
  ((cutItems_cuts _ _ _ _ _).trans (loseFeeds_cuts _ _)).trans (cuts_foldl (fun _ _ => cutItems_cuts _ _ _ _ _) _ _)

/-- An open item on a tile of the partition ends PARTITION_RESET. -/
theorem partCut_ends (hr : s.findRun run = some r) (hp : r.inPart p = true) (hw : r.waiting = false)
    (hx : s.itemOf run i = some x) (he : x.hasEnded = false) :
    ∃ dt, (s.partCut u p).phaseOf run i = some (.ended stPartReset dt) := by
  obtain ⟨dt, h⟩ := cutItems_ends s (fun r => r.inPart p && !r.waiting) (fun _ => true) stPartReset 0 run i hr
    (by rw [hp, hw]; rfl) hx rfl he
  rcases (loseFeeds_cutTo (s.cutItems (fun r => r.inPart p && !r.waiting) (fun _ => true) stPartReset 0) p).trans
    (cutTo_foldl (fun _ _ => cutItems_cutTo _ _ _ _ _ run i) _ _) with done | same
  · exact done
  · exact ⟨dt, (congrArg (Option.map Item.phase) same).trans h⟩

/-- A coppice's record written. -/
def State.coppiceNoted (s : State) (p cause : Nat) : State :=
  ((s.fenced p cause).partCut s p).record
    (.plain 0x05 ⟨0x0B, p, 0⟩ cause (if cause = 5 then 7 else if cause = 2 then 5 else if cause = 1 then 4 else 0))

/-- A coppice that starts is noted, and may count toward escalation. -/
theorem startCoppice_cases (hc : s.inCoppice p = false) (hu : s.rel.smUp = true) :
    s.startCoppice p cause = s.coppiceNoted p cause ∨ s.startCoppice p cause = (s.coppiceNoted p cause).countEscalation p ∨
      ∃ l, s.startCoppice p cause = { (s.coppiceNoted p cause).countEscalation p with
        rel := { ((s.coppiceNoted p cause).countEscalation p).rel with coppices := l } } := by
  have eq : s.startCoppice p cause = if causeCounts cause then
      (if ((s.coppiceNoted p cause).countEscalation p).flag healthStatusCurtain && !(s.coppiceNoted p cause).flag healthStatusCurtain then
        { (s.coppiceNoted p cause).countEscalation p with rel := { ((s.coppiceNoted p cause).countEscalation p).rel with
          coppices := ((s.coppiceNoted p cause).countEscalation p).rel.coppices.map fun c =>
            if c.part = p then { c with noReturn := true } else c } }
      else (s.coppiceNoted p cause).countEscalation p)
      else s.coppiceNoted p cause := by
    unfold State.startCoppice
    rw [if_neg (by simp [hc]), if_neg (by simp [hu])]
    rfl
  rw [eq]
  split
  · split
    · exact .inr (.inr ⟨_, rfl⟩)
    · exact .inr (.inl rfl)
  · exact .inl rfl

theorem startCoppice_upholds (hc : s.inCoppice p = false) (hu : s.rel.smUp = true) :
    Upholds (s.coppiceNoted p cause) (s.startCoppice p cause) := by
  rcases startCoppice_cases hc hu with h | h | ⟨l, h⟩ <;> rw [h]
  · exact .refl _
  · exact countEscalation_upholds _ _
  · exact (countEscalation_upholds _ _).trans upholds_of

/-- A coppice that starts fences its partition, and the open items on its tiles end PARTITION_RESET. -/
theorem startCoppice_starts (hp : p < 8) (hc : s.inCoppice p = false) (hu : s.rel.smUp = true) (cause : Nat) :
    (s.startCoppice p cause).inCoppice p = true ∧
      ∀ run r i x, s.findRun run = some r → r.inPart p = true → r.waiting = false → s.itemOf run i = some x →
        x.hasEnded = false → ∃ dt, (s.startCoppice p cause).phaseOf run i = some (.ended stPartReset dt) := by
  constructor
  · have noted : (s.coppiceNoted p cause).inCoppice p = true := by
      refine (record_inCoppice _ _ p).trans ?_
      unfold State.inCoppice State.fld
      rw [(partCut_cuts _ _ p).reg _ not_cutRegs_health]
      exact fenced_inCoppice s cause hp
    rcases startCoppice_cases (cause := cause) hc hu with h | h | ⟨l, h⟩ <;> rw [h]
    · exact noted
    · exact (countEscalation_inCoppice _ p hp).trans noted
    · exact (countEscalation_inCoppice _ p hp).trans noted
  · intro run r i x hr hin hw hx he
    obtain ⟨dt, h⟩ := partCut_ends (s := s.fenced p cause) (u := s) hr hin hw hx he
    exact ⟨dt, ((record_upholds _ _).trans (startCoppice_upholds hc hu)).ended run i _ _ (by decide) h⟩

/-- `COPPICE_REQ` with one bit set. -/
theorem requestCoppices_one (hs : s.isSealed = true) (hp : p < 8) : s.requestCoppices (2 ^ p) = s.startCoppice p 7 := by
  unfold State.requestCoppices
  rw [if_pos hs]
  interval_cases p <;> rfl

/-! ### A coppice completes -/

/-- What comes after the function tables of a returning partition are restored. -/
def State.partBack (s : State) (up : Bool) (p : Nat) (c : Coppice) : State :=
  let t := s.sramZeroPart p
  let t := if up then t.repairPart p else t
  let t : State := { t with rel := { t.rel with coppices := t.rel.coppices.filter fun x => x.part != p } }
  let t := t.setFld ⟨rHealthStatus, 4 + p, 1⟩ 0
  if c.cause = 4 then
    ({ t with rel := { t.rel with fills := addVal p t.rel.fills } } : State).record (.plain 0x0D ⟨0x0B, p, 0⟩ 0 2)
  else t

theorem coppiceDone_back {c : Coppice} (hf : s.rel.coppices.find? (fun c => c.part == p) = some c) (hn : c.noReturn = false)
    (ht : s.flag (stackTempTrip p) = false)
    (hs : s.flag healthStatusCurtain = true ∨ ∃ q, q < 8 ∧ q ≠ p ∧ s.partServes q = true) :
    ∃ t, s.coppiceDone p = State.partBack t s.rel.smUp p c := by
  unfold State.coppiceDone
  rw [hf]
  dsimp only
  rw [if_neg (by simp [hn, ht])]
  by_cases hc : s.flag healthStatusCurtain = true
  · rw [if_pos hc]
    exact ⟨s, rfl⟩
  · rw [if_neg hc]
    obtain ⟨q, hq, hne, serves⟩ := hs.resolve_left hc
    unfold State.restoreFn
    cases find : (List.range 8).find? fun q => q != p && s.partServes q with
    | none => exact absurd (List.find?_eq_none.1 find q (List.mem_range.2 hq)) (by simp [hne, serves])
    | some q => exact ⟨_, rfl⟩

/-- A partition that is back serves, and its SRAM reads zero. -/
theorem partBack_serves (s : State) (up : Bool) (c : Coppice) (hp : p < 8) : (s.partBack up p c).inCoppice p = false ∧
    (∀ x ∈ (s.partBack up p c).rel.coppices, x.part ≠ p) ∧ ∀ k, sramPart k = p → (s.partBack up p c).sramRead k 1 = [0] := by
  have repaired : Upholds (s.sramZeroPart p) (if up then (s.sramZeroPart p).repairPart p else s.sramZeroPart p) := by
    split
    · exact repairPart_upholds _ _
    · exact .refl _
  unfold State.partBack
  dsimp only
  generalize (if up then (s.sramZeroPart p).repairPart p else s.sramZeroPart p) = t at repaired ⊢
  have reads : ∀ v : State, v.mem.sram = t.mem.sram → ∀ k, sramPart k = p → v.sramRead k 1 = [0] := by
    intro v hv k hk
    unfold State.sramRead
    rw [hv, repaired.sram, cellRead_eq]
    show [cellGet 0 (s.mem.sram.filter fun c => decide (sramPart c.1 ≠ p)) (k + 0)] = [0]
    unfold cellGet
    rw [Nat.add_zero, cellFind_filter_none (fun c => decide (sramPart c ≠ p)) k (by simpa using hk)]
  have clear : ∀ v : State, (v.setFld ⟨rHealthStatus, 4 + p, 1⟩ 0).inCoppice p = false := by
    intro v
    unfold State.inCoppice
    rw [fld_setFld _ _ _ (by show 4 + p + 1 ≤ 64; omega) (by show 0 < 2 ^ 1; decide)]
    rfl
  have gone : ∀ x ∈ t.rel.coppices.filter (fun x => x.part != p), x.part ≠ p := fun x hx => by
    simpa using (List.mem_filter.1 hx).2
  split
  · refine ⟨(record_inCoppice _ _ p).trans (clear _), ?_, fun k hk => ?_⟩
    · rw [show (State.record _ _).rel = _ from congrArg State.rel (record_posted _ _).same]
      exact gone
    · refine reads _ ((record_posted _ _).sram.trans ?_) k hk
      rfl
  · exact ⟨clear _, gone, reads _ rfl⟩

/-! ### Engine resets -/

theorem engineStuck_resets {e : Engine} (h : ∀ n, e ≠ .tile n ∧ e ≠ .move n) : s.engineStuck e = s.resetEngine e := by
  cases e with
  | tile n => exact absurd rfl (h n).1
  | move n => exact absurd rfl (h n).2
  | decode n => rfl
  | encode n => rfl
  | ingest => rfl
  | collective => rfl
  | fabric => rfl
  | flash => rfl

/-- An engine reset: it is under reset from now, and the open items of its runs end TIMEOUT. -/
theorem resetEngine_resets {e : Engine} (hu : s.rel.smUp = true) (hn : ∀ x ∈ s.rel.resetting, x.1 ≠ e) :
    (e, s.now) ∈ (s.resetEngine e).rel.resetting ∧
      ∀ run r i x, s.findRun run = some r → s.runsOn e r = true → s.itemOf run i = some x → x.hasEnded = false →
        ∃ dt, (s.resetEngine e).phaseOf run i = some (.ended stTimeout dt) := by
  have eq : ∃ id : UnitId, Upholds
      ({ s.cutItems (fun r => s.runsOn e r) (fun _ => true) stTimeout 0 with rel :=
        { (s.cutItems (fun r => s.runsOn e r) (fun _ => true) stTimeout 0).rel with
          resetting := (s.cutItems (fun r => s.runsOn e r) (fun _ => true) stTimeout 0).rel.resetting ++
            [(e, (s.cutItems (fun r => s.runsOn e r) (fun _ => true) stTimeout 0).now)] } } : State) (s.resetEngine e) := by
    refine ⟨⟨9, engineNumber e, 0⟩, ?_⟩
    unfold State.resetEngine
    rw [if_neg (by simpa using fun n hm => hn (e, n) hm rfl), if_neg (by simp [hu])]
    exact ((record_upholds _ _).trans (suspect_upholds _ _ _ _)).trans (countEscalation_upholds _ _)
  obtain ⟨-, upholds⟩ := eq
  constructor
  · rw [upholds.resetting]
    refine List.mem_append_right _ ?_
    rw [(cutItems_cuts _ _ _ _ _).now]
    exact List.mem_singleton_self _
  · intro run r i x hr hon hx he
    obtain ⟨dt, h⟩ := cutItems_ends s (fun r => s.runsOn e r) (fun _ => true) stTimeout 0 run i hr hon hx rfl he
    exact ⟨dt, upholds.ended run i _ _ (by decide) h⟩

/-! ### Curtain drained -/

/-- `t` is `s` with the rings of a list shown halted; the runs, the prompt book and the stage manager's state are as before. -/
structure Shows (s t : State) (l : List Nat) : Prop where
  runs : t.runs = s.runs
  book : t.book = s.book
  rel : t.rel = { s.rel with openReads := t.rel.openReads }
  shown : ∀ n ∈ l, (t.ring n).state = 2
  kept : ∀ n, (s.ring n).state = 2 → (t.ring n).state = 2

theorem writeStatus_shows (s : State) (n : Nat) : Shows (s.onRing n fun r => { r with state := 2 })
    ((s.onRing n fun r => { r with state := 2 }).writeStatus n) [n] := by
  have on : ((s.onRing n fun r => { r with state := 2 }).ring n).state = 2 := by rw [ring_onRing]
  have shown : ∀ m ∈ [n], ((s.onRing n fun r => { r with state := 2 }).ring m).state = 2 := by
    intro m hm
    rw [List.mem_singleton.1 hm]
    exact on
  unfold State.writeStatus
  split
  · unfold State.putStatus
    dsimp only
    split
    · split
      · exact ⟨rfl, rfl, rfl, shown, fun _ h => h⟩
      · exact ⟨rfl, rfl, rfl, shown, fun _ h => h⟩
    · exact ⟨rfl, rfl, rfl, shown, fun _ h => h⟩
  · exact ⟨rfl, rfl, rfl, shown, fun _ h => h⟩

theorem showRings (l : List Nat) (s : State) :
    Shows s (l.foldl (fun (u : State) n => (u.onRing n fun r => { r with state := 2 }).writeStatus n) s) l := by
  induction l generalizing s with
  | nil => exact ⟨rfl, rfl, rfl, fun _ h => absurd h List.not_mem_nil, fun _ h => h⟩
  | cons n l ih =>
    have first := writeStatus_shows s n
    have rest := ih ((s.onRing n fun r => { r with state := 2 }).writeStatus n)
    refine ⟨rest.runs.trans first.runs, rest.book.trans first.book, rest.rel.trans (by rw [first.rel]; rfl), fun m hm => ?_, fun m hm => ?_⟩
    · rcases List.mem_cons.1 hm with rfl | hm
      · exact rest.kept _ (first.shown _ (List.mem_singleton_self _))
      · exact rest.shown _ hm
    · refine rest.kept _ (first.kept _ ?_)
      by_cases same : m = n
      · rw [same, ring_onRing]
      · rw [ring_onRing_other _ _ _ _ same]
        exact hm

/-- Once every started item has ended the rings show curtain, and its cause is recorded or waits to be (R433, R442). -/
theorem curtainDrained_shows (hd : s.rel.draining = true) (hr : ∀ r ∈ s.runs, ∀ x ∈ r.items, x.isRunning = false) :
    s.curtainDrained.rel.draining = false ∧
      (s.rel.smUp = true → s.curtainDrained.book.curtain = s.fld healthStatusCurtainCause) ∧
      (s.rel.smUp = false → s.curtainDrained.rel.smWaiting = s.rel.smWaiting ++ [.curtain (s.fld healthStatusCurtainCause)]) ∧
      (∀ n, s.ringEnabled n = true → (s.curtainDrained.ring n).state = 2) ∧ s.curtainDrained.runs = s.runs := by
  have still : (s.runs.any fun r => r.items.any Item.isRunning) = false :=
    List.any_eq_false.2 fun r h => by rw [Bool.not_eq_true]; exact List.any_eq_false.2 fun x k => by simp [hr r h x k]
  unfold State.curtainDrained
  rw [if_neg (by simp [hd, still])]
  dsimp only
  have noted : ∀ v : State, (v.noteCurtain (s.fld healthStatusCurtainCause)).runs = v.runs ∧
      (v.noteCurtain (s.fld healthStatusCurtainCause)).rel.draining = v.rel.draining ∧
      (v.noteCurtain (s.fld healthStatusCurtainCause)).regs = v.regs ∧
      (v.rel.smUp = true → (v.noteCurtain (s.fld healthStatusCurtainCause)).book.curtain = s.fld healthStatusCurtainCause) ∧
      (v.rel.smUp = false → (v.noteCurtain (s.fld healthStatusCurtainCause)).rel.smWaiting =
        v.rel.smWaiting ++ [.curtain (s.fld healthStatusCurtainCause)]) := by
    intro v
    unfold State.noteCurtain
    split
    · next h => exact ⟨rfl, rfl, rfl, fun _ => rfl, fun k => absurd (h.symm.trans k) (by decide)⟩
    · next h => exact ⟨rfl, rfl, rfl, fun k => absurd k h, fun _ => rfl⟩
  obtain ⟨runs, draining, regs, book, waits⟩ := noted { s with rel := { s.rel with draining := false } }
  generalize State.noteCurtain _ _ = v at runs draining regs book waits ⊢
  have shows_ := showRings ((List.range 256).filter v.ringEnabled) v
  generalize List.foldl _ v _ = u at shows_ ⊢
  have raised := event_posted u
  have rel : u.event.rel = u.rel := by unfold State.event State.raise; split <;> rfl
  refine ⟨?_, fun h => ?_, fun h => ?_, fun n hn => ?_, raised.runs.trans (shows_.runs.trans runs)⟩
  · rw [rel, shows_.rel]
    exact draining
  · rw [show u.event.book = u.book by unfold State.event State.raise; split <;> rfl, shows_.book]
    exact book h
  · rw [rel, shows_.rel]
    exact waits h
  · rw [ring_congr raised.rings]
    have enabled : v.ringEnabled n = true := by
      unfold State.ringEnabled at hn ⊢
      rwa [show v.flag (ringCtrlEn n) = s.flag (ringCtrlEn n) from congrFun (flag_congr regs) _]
    refine shows_.shown n (List.mem_filter.2 ⟨List.mem_range.2 ?_, enabled⟩)
    unfold State.ringEnabled at hn
    simp only [Bool.and_eq_true, decide_eq_true_eq] at hn
    exact hn.1

/-! ### Memory cleared -/

theorem cellRead_clear_within (l : List (Nat × Byte)) {a n k : Nat} (h1 : a ≤ k) (h2 : k < a + n) :
    cellRead 0 (cellClear l a n) k 1 = [0] := by
  rw [cellRead_eq]
  simp [cellGet_clear, h1, h2]

theorem cellRead_clear_beyond (l : List (Nat × Byte)) {a n k : Nat} (h : k < a ∨ a + n ≤ k) :
    cellRead 0 (cellClear l a n) k 1 = cellRead 0 l k 1 := by
  rw [cellRead_eq, cellRead_eq]
  simp only [List.range_one, List.map_cons, List.map_nil, Nat.add_zero, cellGet_clear]
  rw [if_neg (by omega)]

/-! ### Time passes -/

theorem runAfter_placed (s : State) (d : Nat) (r : Run) :
    (s.runAfter d r).tiles = r.tiles ∧ (s.runAfter d r).waiting = r.waiting := by
  unfold State.runAfter
  split <;> exact ⟨rfl, rfl⟩

/-- A run and an open item of it, as they stand once time has passed. -/
theorem tick_open (now : Nat) (hr : s.findRun run = some r) (hx : s.itemOf run i = some x) (he : x.hasEnded = false) :
    ∃ r' x', (s.tick now).findRun run = some r' ∧ (s.tick now).itemOf run i = some x' ∧ x'.hasEnded = false ∧
      r'.id = r.id ∧ r'.desc = r.desc ∧ r'.tiles = r.tiles ∧ r'.waiting = r.waiting := by
  obtain ⟨x', hx', he'⟩ := itemOpen_iff.1 ((itemOpen_of_phase (phaseOf_tick s now run i)).trans (itemOpen_iff.2 ⟨x, hx, he⟩))
  by_cases past : now ≤ s.now
  · exact ⟨r, x', by rw [tick_findRun, if_pos past, hr], hx', he', rfl, rfl, rfl, rfl⟩
  · obtain ⟨id, desc⟩ := runAfter_same s (now - s.now) r
    obtain ⟨tiles, waiting⟩ := runAfter_placed s (now - s.now) r
    exact ⟨s.runAfter (now - s.now) r, x', by rw [tick_findRun, if_neg past, hr]; rfl, hx', he', id, desc, tiles, waiting⟩

theorem tick_runsOn (s : State) (now : Nat) (e : Engine) {r q : Run} (hid : q.id = r.id) (hd : q.desc = r.desc) :
    (s.tick now).runsOn e q = s.runsOn e r := by
  have holder : ∀ n, (s.tick now).engineHolder n = s.engineHolder n := by
    intro n
    unfold State.engineHolder
    rw [State.tick_media]
  unfold State.runsOn
  simp only [holder, hid, hd]

/-- Settles O48. -/
theorem enginesAndCoppicesRecover : Obligations.EnginesAndCoppicesRecover := by
  unfold Obligations.EnginesAndCoppicesRecover
  have relKept : ∀ (s : State) (now : Nat), (s.tick now).rel.smUp = s.rel.smUp ∧ (s.tick now).rel.coppices = s.rel.coppices ∧
      (s.tick now).rel.resetting = s.rel.resetting := by
    intro s now
    unfold State.tick
    split <;> exact ⟨rfl, rfl, rfl⟩
  refine ⟨⟨?_, ?_, ?_, ?_⟩, ?_, ?_, ?_, ?_⟩
  · rintro s w now p n v c rfl hp hu hc hcmd
    have eq : exec c s = .next ((s.tick now).startCoppice p 1) ∨ exec c s = .next ((s.tick now).startCoppice p 7) := by
      rcases hcmd with ⟨hn, rfl, rfl⟩ | ⟨hserve, hseal, hv, rfl⟩
      · refine .inl (congrArg Host.Outcome.next ?_)
        unfold State.engineStuck
        exact if_pos hn
      · refine .inr (congrArg Host.Outcome.next ?_)
        rw [if_pos hserve, hv]
        exact requestCoppices_one (by unfold State.isSealed; rw [State.tick_fld]; exact hseal) hp
    have hc' : (s.tick now).inCoppice p = false := by unfold State.inCoppice; rw [State.tick_fld]; exact hc
    have starts := fun cause => startCoppice_starts hp hc' ((relKept s now).1.trans hu) cause
    have ends : ∀ cause run r i x, s.findRun run = some r → r.inPart p = true → r.waiting = false → s.itemOf run i = some x →
        x.hasEnded = false → ∃ dt, ((s.tick now).startCoppice p cause).phaseOf run i = some (.ended stPartReset dt) := by
      intro cause run r i x hr hin hw hx he
      obtain ⟨r', x', hr', hx', he', -, -, tiles, waiting⟩ := tick_open now hr hx he
      exact (starts cause).2 run r' i x' hr' (by unfold Run.inPart; rw [tiles]; exact hin) (waiting.trans hw) hx' he'
    rcases eq with h | h
    · exact ⟨_, h, (starts 1).1, ends 1⟩
    · exact ⟨_, h, (starts 7).1, ends 7⟩
  · intro s now p c hp hf hn ht hs
    obtain ⟨v, eq⟩ := coppiceDone_back (s := s.tick now) (by rw [(relKept s now).2.1]; exact hf) hn
      (by rw [State.tick_flag]; exact ht) (by
        rw [State.tick_flag]
        refine hs.imp_right fun ⟨q, hq, hne, h⟩ => ⟨q, hq, hne, ?_⟩
        unfold State.partServes State.inCoppice at h ⊢
        simpa using h)
    obtain ⟨serves, gone, zero⟩ := partBack_serves v (s.tick now).rel.smUp c hp
    exact ⟨_, congrArg Host.Outcome.next eq, serves, gone, zero⟩
  · intro s now p ht
    refine congrArg Host.Outcome.next ?_
    unfold State.coppiceDone
    split
    · rfl
    · dsimp only
      rw [if_pos (by rw [State.tick_flag, ht, Bool.or_true])]
  · intro s n hn _
    have eq : s.fillDone n = ({ s with rel := { s.rel with fills := dropVal n s.rel.fills } } : State).devZero (n * 2 ^ 36) 0xC00000000 :=
      if_pos (List.contains_iff_mem.2 hn)
    refine ⟨_, congrArg Host.Outcome.next eq, not_mem_dropVal n _, fun a ha => ?_, fun k hk => ?_⟩
    · show cellRead 0 (cellClear s.mem.dev (n * 2 ^ 36) 0xC00000000) (n * 2 ^ 36 + a) 1 = [0]
      exact cellRead_clear_within _ (by omega) (by omega)
    · show cellRead 0 (cellClear s.mem.dev (n * 2 ^ 36) 0xC00000000) k 1 = cellRead 0 s.mem.dev k 1
      exact cellRead_clear_beyond _ (by omega)
  · rintro s w now e rfl hu hn hio
    obtain ⟨under, ends⟩ := resetEngine_resets (s := s.tick now) (e := e) ((relKept s now).1.trans hu)
      (by rw [(relKept s now).2.2]; exact hn)
    refine ⟨_, congrArg Host.Outcome.next (engineStuck_resets hio), under, fun run r i x hr hon hx he => ?_⟩
    obtain ⟨r', x', hr', hx', he', id, desc, -, -⟩ := tick_open now hr hx he
    exact ends run r' i x' hr' ((tick_runsOn s now e id desc).trans hon) hx' he'
  · exact fun _ _ => rfl
  · rintro s w now t0 e rfl hm ht hf hp
    have late : ((s.tick now).rel.resetting.any fun x => x.1 == e && decide (x.2 + 200000 ≤ (s.tick now).now)) = true :=
      List.any_eq_true.2 ⟨(e, t0), by rw [(relKept s now).2.2]; exact hm, by simp [ht]⟩
    have eq : (s.tick now).resetLate e = State.curtained { s.tick now with
        rel := { (s.tick now).rel with resetting := (s.tick now).rel.resetting.filter fun x => x.1 != e } } 5 := by
      unfold State.resetLate
      rw [if_pos late]
      exact enterCurtain_first ((State.tick_flag s now _).trans hf)
        (by show (s.tick now).fld pwrStatusState < 2; rw [State.tick_fld]; exact hp)
    obtain ⟨flag, fld, draining⟩ := curtained_shows (s := ({ s.tick now with
        rel := { (s.tick now).rel with resetting := (s.tick now).rel.resetting.filter fun x => x.1 != e } } : State))
      (cause := 5) (by decide)
    refine ⟨_, congrArg Host.Outcome.next eq, fun x hx => ?_, flag, fld, draining, fun run i x hx hph => ?_⟩
    · rw [(curtained_halts _ 5).upholds.resetting] at hx
      simpa using (List.mem_filter.1 hx).2
    · have kept : (s.tick now).phaseOf run i = some .unstarted := by
        rw [phaseOf_tick]
        unfold State.phaseOf
        rw [hx, ← hph]
        rfl
      obtain ⟨y, hy, hyp⟩ := Option.map_eq_some_iff.1 kept
      exact curtained_cancels hy hyp
  · exact fun s hd hr => ⟨_, rfl, curtainDrained_shows hd hr⟩

end Sys2Proof.Machine
end

