-- ==== Sys2Proof/Proofs/TestsAndSummaries.lean ====
section
/-! SUPPORT. Self-tests, powered time, hourly summaries and calibration (R430, R444, R446, R449). -/
namespace Sys2Proof.Machine

variable {s t : State}

/-- The test of logical tile `n` over: its tile is free, and its time is noted. -/
def State.testOver (s : State) (n : Nat) : State :=
  { s with rel := { s.rel with
    testing := dropVal n s.rel.testing
    testOut := if s.rel.testOut = some n then none else s.rel.testOut
    retests := dropVal (s.testedUnit n).unit s.rel.retests
    testQueue := dropVal n s.rel.testQueue
    lastTest := cellPut s.rel.lastTest n (some s.rel.poweredS) } }

/-- The end of a test of a tile under test that was no retest. -/
theorem testDone_first {n : Nat} (pass : Bool) (hn : n < 144) (hm : n ∈ s.rel.testing)
    (hr : (s.testedUnit n).unit ∉ s.rel.retests) :
    (pass = false → s.testDone n pass = (s.testOver n).suspect (s.testedUnit n) 3 []) ∧
      (pass = true → n ∈ s.rel.testQueue → s.testDone n pass = (s.testOver n).record (.plain 0x0B (s.testedUnit n) 0 3)) := by
  have first : s.rel.retests.contains (s.testedUnit n).unit = false := by
    rw [Bool.eq_false_iff, Ne, List.contains_iff_mem]
    exact hr
  have tile : decide (144 ≤ n) = false := decide_eq_false (by omega)
  unfold State.testDone
  dsimp only
  rw [first, tile, if_neg (by simp [hm])]
  constructor
  · rintro rfl
    rfl
  · rintro rfl hq
    rw [List.contains_iff_mem.2 hq]
    rfl

/-! ### Hourly summaries -/

theorem summarise_foldl (type : Nat) (l : List (Nat × Nat)) (s : State) :
    Posted s (l.foldl (fun (u : State) x => u.summarise type x) s) ∧
      (l.foldl (fun (u : State) x => u.summarise type x) s).book.historySeq = s.book.historySeq + l.length := by
  induction l generalizing s with
  | nil => exact ⟨.refl s, rfl⟩
  | cons x l ih =>
    obtain ⟨posted, seq⟩ := ih (s.summarise type x)
    refine ⟨(record_posted s _).trans posted, seq.trans ?_⟩
    rw [show (s.summarise type x).book.historySeq = _ from record_seq s _, List.length_cons]
    omega

theorem hourly_records (hu : s.rel.smUp = true) : s.hourly.rel.hourTransients = [] ∧ s.hourly.rel.hourTests = [] ∧
    s.hourly.book.historySeq = s.book.historySeq + s.rel.hourTransients.length + s.rel.hourTests.length ∧ s.hourly.runs = s.runs := by
  obtain ⟨posted1, seq1⟩ := summarise_foldl 1 s.rel.hourTransients s
  unfold State.hourly
  rw [if_neg (by simp [hu])]
  dsimp only
  generalize s.rel.hourTransients.foldl _ s = t at posted1 seq1 ⊢
  obtain ⟨posted2, seq2⟩ := summarise_foldl 0x0B s.rel.hourTests t
  refine ⟨rfl, rfl, ?_, posted2.runs.trans posted1.runs⟩
  rw [seq2, seq1]

/-- Settles O49. -/
theorem testsAndUpkeepRecorded : Obligations.TestsAndUpkeepRecorded := by
  unfold Obligations.TestsAndUpkeepRecorded
  have relKept : ∀ (s : State) (now : Nat), (s.tick now).rel = { s.rel with
      poweredS := (s.tick now).rel.poweredS, poweredNs := (s.tick now).rel.poweredNs } := by
    intro s now
    unfold State.tick
    split <;> rfl
  refine ⟨?_, ?_, ?_, ?_, ?_⟩
  · intro s v hs hseal hb hv
    refine congrArg Host.Outcome.next ?_
    rw [if_pos hs]
    unfold State.requestTest
    rw [if_pos (by simp [hseal, hb, hv])]
  · rintro s w x n now pass u rfl hn hm rfl hr rfl
    have tested : (s.tick now).testedUnit n = s.testedUnit n := by
      unfold State.testedUnit State.physical
      rw [relKept]
    obtain ⟨fails, passes⟩ := testDone_first (s := s.tick now) pass hn (by rw [relKept]; exact hm) (by rw [tested, relKept]; exact hr)
    unfold State.testOver at fails passes
    rw [tested] at fails passes
    refine ⟨fun hp => congrArg Host.Outcome.next (fails hp), fun hp hq => ?_⟩
    have recorded := passes hp (by rw [relKept]; exact hq)
    refine ⟨congrArg Host.Outcome.next recorded, _, congrArg Host.Outcome.next recorded, ?_, ?_⟩
    · rw [show (State.record _ _).rel = _ from congrArg State.rel (record_posted _ _).same]
      exact not_mem_dropVal n _
    · rw [record_seq]
      show (s.tick now).book.historySeq + 1 = s.book.historySeq + 1
      rw [State.tick_book]
  · intro s now hu
    refine congrArg Host.Outcome.next ?_
    unfold State.saveTime
    rw [if_pos (by rw [relKept]; exact hu), State.tick_book]
  · intro s now hu
    obtain ⟨transients, tests, seq, runs⟩ := hourly_records (s := s.tick now) (by rw [relKept]; exact hu)
    refine ⟨_, rfl, transients, tests, seq.trans ?_, runs⟩
    rw [State.tick_book, relKept]
  · intro s r hc hx
    refine congrArg Host.Outcome.next ?_
    unfold State.calibrate
    dsimp only
    rw [if_neg]
    simpa [hc] using fun h => hx (r, s.now / 100000000) h rfl rfl

end Sys2Proof.Machine
end

