-- ==== Sys2Proof/Proofs/SecurityCommands.lean ====
section
/-! SUPPORT. Challenges, debug levels, the lifecycle reset and firmware updates (R450 to R464). -/
namespace Sys2Proof.Machine

variable {s t : State}

/-! ### Results -/

/-- A command's result shown by its path: only the registers and what has left the block change. -/
theorem secResult_shows (s : State) (path : SecPath) (result : Nat) (out : List Byte) (hr : result < 256) :
    (s.secResult path result out).fld secStatusResult = result ∧
      (∀ o, o ≠ rSecStatus → (s.secResult path result out).reg o = s.reg o) ∧
      s.secResult path result out =
        { s with regs := (s.secResult path result out).regs, outs := (s.secResult path result out).outs } := by
  have shown : (s.setFld secStatusResult result).fld secStatusResult = result :=
    fld_setFld s secStatusResult result (by decide) hr
  have kept : ∀ o, o ≠ rSecStatus → (s.setFld secStatusResult result).reg o = s.reg o := fun o h => reg_setReg_other _ _ _ _ h
  cases path with
  | mailbox => exact ⟨shown, kept, rfl⟩
  | mctp b => exact ⟨shown, kept, rfl⟩
  | jtag b => exact ⟨shown, kept, rfl⟩

theorem debugNone_level (s : State) : s.debugNone.fld lcStatusDebug = 0 := fld_setFld _ lcStatusDebug 0 (by decide) (by decide)

theorem secResult_fld (s : State) (path : SecPath) (out : List Byte) {result : Nat} (hr : result < 256) {f : Fld}
    (hf : f.off ≠ rSecStatus) : (s.secResult path result out).fld f = s.fld f := by
  unfold State.fld
  rw [(secResult_shows s path result out hr).2.1 _ hf]

/-! ### The end of a lifecycle transition -/

theorem counter_of_raiseCounter (s : State) (n v m : Nat) :
    (s.raiseCounter n v).counter m = if m = n then min (max (s.counter n) v) (2 ^ 32 - 1) else s.counter m := by
  show cellGet 0 (cellWrite 0 s.book.counters n [_]) m = _
  rw [cellGet_write]
  by_cases h : m = n
  · subst h
    rw [if_pos ⟨Nat.le_refl m, by simp⟩, if_pos rfl, Nat.sub_self]
    rfl
  · rw [if_neg (by simp; omega), if_neg h]
    rfl

/-- The owner's records after a transition leave the monotonic counters but counter 2, and enrolment asks for a format. -/
theorem setOwner_sets (s : State) (cmd : Nat) (key : List Byte) : (∀ n, n ≠ 2 → (s.setOwner cmd key).counter n = s.counter n) ∧
    (cmd = 0x10 → (s.setOwner cmd key).book.ownerKey = key ∧ (s.setOwner cmd key).sec.reformatDue = true) := by
  have raised : ∀ (v : State) (k n : Nat), n ≠ 2 → (v.raiseCounter 2 k).counter n = v.counter n := fun v k n h => by
    rw [counter_of_raiseCounter, if_neg h]
  unfold State.setOwner
  dsimp only
  split
  · exact ⟨fun n h => raised { s with book := { s.book with ownerKey := key } } _ n h, fun _ => ⟨rfl, rfl⟩⟩
  · next enrol =>
    refine ⟨fun n h => ?_, fun h => absurd h enrol⟩
    split
    · split
      · exact raised { s with book := { s.book with ownerKey := key } } _ n h
      · rfl
    · split
      · exact raised { s with book := { s.book with ownerKey := key } } _ n h
      · rfl

/-- Items that do not run go on not running as time passes. -/
theorem tick_still (now : Nat) (h : ∀ r ∈ s.runs, ∀ x ∈ r.items, x.isRunning = false) :
    ∀ r ∈ (s.tick now).runs, ∀ x ∈ r.items, x.isRunning = false := by
  unfold State.tick
  split
  · exact h
  · intro r hr x hx
    obtain ⟨q, hq, rfl⟩ := List.mem_map.1 hr
    unfold State.runAfter at hx
    split at hx
    · obtain ⟨y, hy, rfl⟩ := List.mem_map.1 hx
      have still := h q hq y hy
      split <;> exact still
    · exact h q hq x hx

theorem any_running_false (h : ∀ r ∈ s.runs, ∀ x ∈ r.items, x.isRunning = false) :
    (s.runs.any fun r => r.items.any Item.isRunning) = false :=
  List.any_eq_false.2 fun r hr => by rw [Bool.not_eq_true]; exact List.any_eq_false.2 fun x hx => by simp [h r hr x hx]

/-- A device reset leaves the device in reset with no run and no ring. -/
theorem afterReset_inReset (s : State) (cause : Nat) : (s.afterReset cause).inReset = true := by
  have phase : (s.afterReset cause).fld bootStatusPhase = 0 := by
    have reg : (s.afterReset cause).reg rBootStatus = regReset rBootStatus := by
      show (match cellFind rBootStatus (s.regs.vals.filter fun c => c.1 == rIdPart || c.1 == rIdSerial) with
        | some v => v.toNat
        | none => regReset rBootStatus) = _
      rw [cellFind_filter_none (fun o => o == rIdPart || o == rIdSerial) rBootStatus (by decide)]
    unfold State.fld
    rw [show bootStatusPhase.off = rBootStatus from rfl, reg]
    decide
  unfold State.inReset
  rw [phase]
  rfl

/-- What the end of a lifecycle transition leaves (R454, R457, R458). -/
theorem lifecycleReset_resets {cmd next : Nat} {key : List Byte} (ht : s.sec.transition = some (cmd, next, key))
    (hr : ∀ r ∈ s.runs, ∀ x ∈ r.items, x.isRunning = false) (hf : s.flash.failing = false) (hu : s.rel.smUp = true) :
    s.lifecycleReset.book.lifecycle = next ∧ s.lifecycleReset.counter 3 = min (s.counter 3 + 1) (2 ^ 32 - 1) ∧
      s.lifecycleReset.inReset = true ∧ s.lifecycleReset.runs = [] ∧ s.lifecycleReset.rings = [] ∧
      (cmd ≠ 0x15 → s.lifecycleReset.sec.wipeDue = true) ∧ (cmd = 0x15 → s.lifecycleReset.book.curtain = 0) ∧
      (cmd = 0x10 → s.lifecycleReset.book.ownerKey = key ∧ s.lifecycleReset.sec.reformatDue = true) := by
  obtain ⟨counters, enrolled⟩ := setOwner_sets s cmd key
  unfold State.lifecycleReset
  rw [ht]
  dsimp only
  rw [any_running_false hr, hf, hu, if_neg (by decide)]
  generalize s.setOwner cmd key = v at counters enrolled ⊢
  refine ⟨rfl, ?_, afterReset_inReset _ _, rfl, rfl, fun h => ?_, fun h => if_pos h, enrolled⟩
  · refine (counter_of_raiseCounter v 3 (s.counter 3 + 1) 3).trans ?_
    rw [if_pos rfl, counters 3 (by decide)]
    omega
  · show ((v.raiseCounter 3 (s.counter 3 + 1)).sec.wipeDue || cmd != 0x15) = true
    simp [h]

/-! ### Firmware updates -/

/-- An accepted image is written into the copy that is not current (R455). -/
theorem fwUpdate_accepts {path : SecPath} {a n : Nat} (hb : s.inReset = false) (hj : isJtag path = false) (hu : s.rel.smUp = true)
    (hf : s.flash.failing = false) (ha : a = leAt (s.secInput path 12) 0 8) (hn : n = leAt (s.secInput path 12) 8 4)
    (hown : s.ownMem a n = true) (hlen : n ≤ 8388608) (hs : s.hostShut (addrKey a) = false) (hbad : s.devBad (addrKey a) n = false)
    (hi : s.imageResult (s.devRead (addrKey a) n) 1 = 0) :
    s.fwUpdate path = (s.pbUpdate 1 (s.devRead (addrKey a) n)).secResult path 0 [] := by
  subst ha hn
  unfold State.fwUpdate
  rw [if_neg (by simp [hb, hj]), if_neg (by simp [hu])]
  dsimp only
  rw [if_neg (by simp [hown, hs, hbad]; omega), if_neg (by simp [hi]), if_neg (by simp [hf])]

/-- Settles O50. -/
theorem securityCommandsAnswered : Obligations.SecurityCommandsAnswered := by
  unfold Obligations.SecurityCommandsAnswered
  refine ⟨⟨?_, ?_, ?_, ?_, ?_⟩, ?_, ?_⟩
  · rintro s w now path rfl hb hj
    refine congrArg Host.Outcome.next ?_
    unfold State.getChallenge
    rw [if_neg (by simp [hb, hj])]
    rfl
  · rintro s w now t0 n rfl hn
    refine congrArg Host.Outcome.next ?_
    unfold State.expireNonce
    rw [State.tick_sec, hn]
  · intro s path hb hj
    have eq : s.debugLock path = s.debugNone.secResult path 0 [] := if_neg (by simp [hb, hj])
    obtain ⟨result, -, same⟩ := secResult_shows s.debugNone path 0 [] (by decide)
    refine ⟨_, congrArg Host.Outcome.next eq, (secResult_fld _ _ _ (by decide) (by decide)).trans (debugNone_level s), ?_, result, ?_, ?_⟩
    · rw [same]
      rfl
    · rw [same]
      rfl
    · rw [same]
      rfl
  · rintro s w now t0 rfl hd hle
    have eq : (s.tick now).expireDebug = (s.tick now).debugNone := by
      unfold State.expireDebug
      rw [State.tick_sec, hd]
      exact if_pos hle
    refine ⟨_, congrArg Host.Outcome.next eq, debugNone_level _, rfl, ?_⟩
    exact State.tick_mem s now
  · intro s a data hb hl hown h57 ht hp hs hbad
    refine congrArg Host.Outcome.next ?_
    unfold State.debugWrite
    rw [if_neg (by simp [hb, hl, hown]; omega), if_neg (by omega), if_pos (by simp [ht, hp, hs]), if_neg (by simp [hbad])]
  · intro s now cmd next key ht hr hf hu
    have up : (s.tick now).rel.smUp = true := by
      unfold State.tick
      split <;> exact hu
    have resets := lifecycleReset_resets (s := s.tick now) (by rw [State.tick_sec]; exact ht) (tick_still now hr)
      (by rw [State.tick_flash]; exact hf) up
    rw [show (s.tick now).counter 3 = s.counter 3 by unfold State.counter; rw [State.tick_book]] at resets
    exact ⟨_, rfl, resets⟩
  · intro s path a n hb hj hu hf ha hn hown hlen hs hbad hi
    exact congrArg Host.Outcome.next (fwUpdate_accepts hb hj hu hf ha hn hown hlen hs hbad hi)

end Sys2Proof.Machine
end

