-- ==== Sys2Proof/Proofs/Tokens.lean ====
section
/-! SUPPORT. Tokens: how they are judged, the debug levels they grant, and the transitions they begin (R458, R461 to R463). -/
namespace Sys2Proof.Machine

variable {s t : State} {run i cmd : Nat} {x : Item} {k : List Byte} {path : SecPath}

/-! ### Work stopped before a transition or a power failure -/

/-- Unstarted items CANCELLED, feeds stopped, detached notices sent, and cue emission stopped (R442, R458, R473). -/
def State.stopWork (s : State) : State := ((s.cancelUnstarted).stopFeeds fun _ => true).sendDetached.stopEmitting

theorem stopWork_halts (s : State) : Halts s s.stopWork :=
  (((cancelUnstarted_halts _).trans (stopFeeds_halts _ _)).trans (sendDetached_halts _)).trans (stopEmitting_halts _)

theorem stopWork_cancels (hx : s.itemOf run i = some x) (hp : x.phase = .unstarted) :
    ∃ dt, s.stopWork.phaseOf run i = some (.ended stCancelled dt) := by
  obtain ⟨dt, h⟩ := cancelUnstarted_ends hx hp
  exact ⟨dt, (((stopFeeds_halts _ _).trans (sendDetached_halts _)).trans (stopEmitting_halts _)).ended run i _ _ (Nat.le_refl _) h⟩

/-- A member that has stopped emitting is no emitter. -/
theorem stopEmitting_lock (s : State) : s.stopEmitting.fld cueStatusLock ≠ 4 := by
  unfold State.stopEmitting
  split
  · show (s.setFld cueStatusLock 0).fld cueStatusLock ≠ 4
    rw [fld_setFld _ _ _ (by decide) (by decide)]
    decide
  · assumption

theorem stopFeeds_cuts (s : State) (p : Feed → Bool) : Cuts s (s.stopFeeds p) := by
  have stopped : ∀ m : Media, Cuts s { s with media := m } := fun m =>
    cuts_of rfl (fun _ _ => rfl) rfl rfl rfl rfl rfl rfl ⟨rfl, rfl, rfl, rfl, rfl, rfl, rfl, rfl, rfl, ⟨[], rfl⟩, rfl, rfl⟩
  have ended : ∀ (l : List (Nat × Feed)) (t : State), Cuts t (l.foldl (fun u x => u.endEarly x.2.run x.2.item stCancelled) t) :=
    cuts_foldl fun t x => endEarly_cuts t x.2.run x.2.item stCancelled 0
  unfold State.stopFeeds
  exact (stopped _).trans (ended _ _)

/-- The parts that stopped work leaves as they were. -/
theorem stopWork_keeps (s : State) : s.stopWork.sec = s.sec ∧ s.stopWork.power = s.power ∧ s.stopWork.boot = s.boot ∧
    s.stopWork.flash.failing = s.flash.failing ∧ s.stopWork.book = s.book := by
  have stopped : ∀ v : State, v.stopEmitting.sec = v.sec ∧ v.stopEmitting.power = v.power ∧ v.stopEmitting.boot = v.boot ∧
      v.stopEmitting.flash = v.flash ∧ v.stopEmitting.book = v.book := by
    intro v
    unfold State.stopEmitting
    split <;> exact ⟨rfl, rfl, rfl, rfl, rfl⟩
  have sent : ∀ v : State, v.sendDetached.sec = v.sec ∧ v.sendDetached.power = v.power ∧ v.sendDetached.boot = v.boot ∧
      v.sendDetached.flash = v.flash ∧ v.sendDetached.book = v.book := by
    intro v
    have h := originate_sends v (v.prompter ptDetached 0 true (leBytes 8 v.cueNo))
    unfold Sends at h
    exact ⟨(congrArg State.sec h :), (congrArg State.power h :), (congrArg State.boot h :), (congrArg State.flash h :),
      (congrArg State.book h :)⟩
  have cuts := (cutItems_cuts s (fun _ => true) Item.isUnstarted stCancelled 0)
  have feeds := stopFeeds_cuts s.cancelUnstarted fun _ => true
  obtain ⟨a1, a2, a3, a4, a5⟩ := stopped (((s.cancelUnstarted).stopFeeds fun _ => true).sendDetached)
  obtain ⟨b1, b2, b3, b4, b5⟩ := sent ((s.cancelUnstarted).stopFeeds fun _ => true)
  refine ⟨a1.trans (b1.trans (feeds.sec.trans cuts.sec)), a2.trans (b2.trans (feeds.power.trans cuts.power)),
    a3.trans (b3.trans (feeds.boot.trans cuts.boot)), ?_, a5.trans (b5.trans (feeds.book.trans cuts.book))⟩
  rw [State.stopWork, a4, b4, feeds.flash]
  exact (congrArg Flash.failing cuts.flash :)

/-! ### Judging a token -/

theorem submitToken_refused (hb : s.inReset = false) (hk : k = s.secInput path 352) (hr : s.tokenResult k cmd ≠ 0)
    (hn : ¬(s.lifecycle = 0 ∧ cmd ≤ 2)) : s.submitToken path cmd =
      ({ s with sec := { s.sec with nonce := none } } : State).secResult path (s.tokenResult k cmd) [] := by
  subst hk
  unfold State.submitToken
  rw [if_neg (by simp [hb])]
  dsimp only
  rw [if_neg hn, if_neg hr]

theorem submitToken_blank (hb : s.inReset = false) (hl : s.lifecycle = 0) (hc : cmd ≤ 2) : s.submitToken path cmd =
    (({ s with sec := { s.sec with nonce := none } } : State).grantDebug cmd 0 none).secResult path 0 [] := by
  unfold State.submitToken
  rw [if_neg (by simp [hb])]
  dsimp only
  rw [if_pos ⟨hl, hc⟩]

theorem submitToken_accepted (hb : s.inReset = false) (hk : k = s.secInput path 352) (hr : s.tokenResult k cmd = 0)
    (hn : ¬(s.lifecycle = 0 ∧ cmd ≤ 2)) : s.submitToken path cmd =
      (({ s with sec := { s.sec with nonce := none } } : State).applyToken k).secResult path 0 [] := by
  subst hk
  unfold State.submitToken
  rw [if_neg (by simp [hb])]
  dsimp only
  rw [if_neg hn, if_pos hr]

/-- An accepted token carries the command that it is submitted as. -/
theorem tokCommand_of_accepted (hr : s.tokenResult k cmd = 0) : tokCommand k = cmd := by
  unfold State.tokenResult at hr
  dsimp only at hr
  split at hr
  · cases hr
  · next h =>
    unfold tokenOk at h
    simp only [Bool.not_eq_true, Bool.not_eq_false', Bool.and_eq_true, beq_iff_eq] at h
    exact h.1.1.1.1.1.2

/-! ### Debug levels -/

/-- A level above the present one, granted. -/
theorem grantDebug_raises (hl : s.fld lcStatusDebug < cmd) (hc : cmd ≤ 2) (signer : Nat) (expiry : Option Nat) :
    (s.grantDebug cmd signer expiry).fld lcStatusDebug = cmd ∧ (s.grantDebug cmd signer expiry).sec.nonce = s.sec.nonce ∧
      (cmd = 2 → (s.grantDebug cmd signer expiry).sec.sessions = [] ∧ (s.grantDebug cmd signer expiry).host.ide = []) ∧
      (s.grantDebug cmd signer expiry).runs = s.runs ∧ (s.grantDebug cmd signer expiry).rings = s.rings := by
  have set : ∀ v : State, (v.setFld lcStatusDebug cmd).fld lcStatusDebug = cmd := fun v =>
    fld_setFld v lcStatusDebug cmd (by decide) (by show cmd < 2 ^ 2; omega)
  unfold State.grantDebug
  rw [if_neg (by omega)]
  dsimp only
  split
  · split
    · exact ⟨set _, rfl, fun _ => ⟨rfl, rfl⟩, rfl, rfl⟩
    · exact ⟨set _, rfl, fun _ => ⟨rfl, rfl⟩, rfl, rfl⟩
  · next h => exact ⟨set _, rfl, fun e => absurd e h, rfl, rfl⟩

/-- A debug level granted and its result shown. -/
theorem grantDebug_shows {v : State} (hv : ∃ a b, v = s.grantDebug cmd a b)
    (hl : s.fld lcStatusDebug < cmd) (hc : cmd ≤ 2) : (v.secResult path 0 []).fld lcStatusDebug = cmd ∧
      (v.secResult path 0 []).fld secStatusResult = 0 ∧ (v.secResult path 0 []).sec.nonce = s.sec.nonce ∧
      (cmd = 2 → (v.secResult path 0 []).sec.sessions = [] ∧ (v.secResult path 0 []).host.ide = []) ∧
      (v.secResult path 0 []).runs = s.runs ∧ (v.secResult path 0 []).rings = s.rings := by
  obtain ⟨a, b, rfl⟩ := hv
  obtain ⟨level, nonce, sessions, runs, rings⟩ := grantDebug_raises hl hc a b
  obtain ⟨result, -, same⟩ := secResult_shows (s.grantDebug cmd a b) path 0 [] (by decide)
  refine ⟨(secResult_fld _ _ _ (by decide) (by decide)).trans level, result, ?_, ?_, ?_, ?_⟩
  · rw [same]
    exact nonce
  · rw [same]
    exact sessions
  · rw [same]
    exact runs
  · rw [same]
    exact rings

/-- Settles O51. -/
theorem tokensAppliedOrRefused : Obligations.TokensAppliedOrRefused := by
  unfold Obligations.TokensAppliedOrRefused
  rintro s w now cmd path c k hm rfl hb hk
  have eq : exec c s = .next ((s.tick now).submitToken path cmd) := by
    simp only [List.mem_cons, List.not_mem_nil, or_false, Prod.mk.injEq] at hm
    rcases hm with ⟨rfl, rfl⟩ | ⟨rfl, rfl⟩ | ⟨rfl, rfl⟩ | ⟨rfl, rfl⟩ | ⟨rfl, rfl⟩ | ⟨rfl, rfl⟩ | ⟨rfl, rfl⟩ | ⟨rfl, rfl⟩ <;> rfl
  rw [eq]
  refine ⟨fun hr hn => congrArg Host.Outcome.next (submitToken_refused hb hk hr hn), fun hr hc hl => ?_, fun next key hr hc ht => ?_⟩
  · by_cases blank : (s.tick now).lifecycle = 0
    · rw [submitToken_blank hb blank hc]
      exact ⟨_, rfl, grantDebug_shows (s := ({ s.tick now with sec := { (s.tick now).sec with nonce := none } } : State)) ⟨0, none, rfl⟩ hl hc⟩
    · have accepted := hr.resolve_right blank
      rw [submitToken_accepted hb hk accepted fun h => blank h.1]
      have applied : ∃ a b, ({ s.tick now with sec := { (s.tick now).sec with nonce := none } } : State).applyToken k =
          ({ s.tick now with sec := { (s.tick now).sec with nonce := none } } : State).grantDebug cmd a b := by
        unfold State.applyToken
        rw [tokCommand_of_accepted accepted, if_pos hc]
        exact ⟨_, _, rfl⟩
      exact ⟨_, rfl, grantDebug_shows applied hl hc⟩
  · rw [submitToken_accepted hb hk hr (by omega)]
    have applied : ({ s.tick now with sec := { (s.tick now).sec with nonce := none } } : State).applyToken k =
        ({ s.tick now with sec := { (s.tick now).sec with nonce := none, transition := some (cmd, next, key) } } : State).stopWork := by
      unfold State.applyToken
      rw [tokCommand_of_accepted hr, if_neg (by omega),
        show ({ s.tick now with sec := { (s.tick now).sec with nonce := none } } : State).transitionOf cmd (tokSigner k) (tokNewKey k) =
          some (next, key) from ht]
      rfl
    rw [applied]
    obtain ⟨sec, -⟩ := stopWork_keeps ({ s.tick now with sec := { (s.tick now).sec with nonce := none, transition := some (cmd, next, key) } } : State)
    have cancels := fun run i x hx hp => stopWork_cancels (run := run) (i := i) (x := x)
      (s := ({ s.tick now with sec := { (s.tick now).sec with nonce := none, transition := some (cmd, next, key) } } : State)) hx hp
    have lock := stopEmitting_lock ((({ s.tick now with
      sec := { (s.tick now).sec with nonce := none, transition := some (cmd, next, key) } } : State).cancelUnstarted.stopFeeds
        fun _ => true).sendDetached)
    unfold State.stopWork at sec cancels ⊢
    generalize State.stopEmitting _ = v at sec cancels lock ⊢
    obtain ⟨result, -, same⟩ := secResult_shows v path 0 [] (by decide)
    refine ⟨_, rfl, ?_, ?_, result, ?_, fun run i x hx hp => ?_⟩
    · rw [same]
      exact congrArg Sec.transition sec
    · rw [same]
      exact congrArg Sec.nonce sec
    · rw [secResult_fld _ _ _ (by decide) (by decide)]
      exact lock
    · have kept : (s.tick now).phaseOf run i = some .unstarted := by
        rw [phaseOf_tick]
        unfold State.phaseOf
        rw [hx, ← hp]
        rfl
      obtain ⟨y, hy, hyp⟩ := Option.map_eq_some_iff.1 kept
      obtain ⟨dt, h⟩ := cancels run i y hy hyp
      refine ⟨dt, (phaseOf_congr ?_ run i).trans h⟩
      rw [same]

end Sys2Proof.Machine
end

