-- ==== Sys2Proof/Proofs/Attestation.lean ====
section
/-! SUPPORT. The SPDM responder: attestation, sessions, chunks and the IDE streams (R466 to R468). -/
namespace Sys2Proof.Machine

variable {s t : State} {r : SpdmReq} {x : Session}

/-! ### Requests handled -/

/-- A request on a transport that carries it is answered. -/
theorem spdm_answers {a : SpAnswer} {code : Nat} (hr : s.spReaches r.transport = true) (hd : s.spdmDo code r = (t, a)) :
    s.spdm code r = t.spSend r.transport a := by
  unfold State.spdm
  rw [if_neg (by simp [hr])]
  dsimp only
  rw [hd]

theorem spSend_outs {tr : SpdmTransport} {a : SpAnswer} (h : s.spLimit tr = 0 ∨ a.2.length + 4 ≤ s.spLimit tr) :
    (s.spSend tr a).outs = .spdm tr a.1 a.2 :: s.outs := by
  unfold State.spSend
  dsimp only
  rw [if_neg]
  · rfl
  · show ¬(s.spLimit tr ≠ 0 ∧ s.spLimit tr < a.2.length + 4)
    omega

theorem leAt_append_skip (a b : List Byte) (n : Nat) : leAt (a ++ b) a.length n = leAt b 0 n := by
  unfold leAt
  rw [List.drop_left, List.drop_zero]

theorem leAt_leBytes_append (k v : Nat) (b : List Byte) : leAt (leBytes k v ++ b) 0 k = v % 256 ^ k := by
  unfold leAt
  rw [List.drop_zero, List.take_left' (leBytes_length k v), leNat_leBytes]

/-- Settles O52. -/
theorem attestationAnswered : Obligations.AttestationAnswered := by
  unfold Obligations.AttestationAnswered
  intro s r hr
  refine ⟨fun u a h => spSend_outs h, congrArg Host.Outcome.next (spdm_answers hr rfl), fun hv => ⟨fun hd => ?_, fun hc => ?_, fun ha hl h1 => ?_, ?_⟩⟩
  · have done : s.spdmDo 0xE1 r = s.spCapabilities r := by
      unfold State.spdmDo
      rw [if_neg (by decide), if_neg (by simp [hv]), if_pos rfl]
    have answer : s.spCapabilities r = (
        { s with sec := { s.sec with
          capsDone := (r.transport, leAt r.body 8 4) :: s.sec.capsDone.filter fun x => x.1 != r.transport } },
        (0x61, leBytes 4 0 ++ leBytes 4 0x262D6 ++ s.spRest)) := by
      unfold State.spCapabilities
      rw [if_neg (by simp [hd])]
      rfl
    refine ⟨_, _, congrArg Host.Outcome.next (spdm_answers hr (done.trans answer)), rfl, ?_⟩
    rw [List.append_assoc]
    exact (leAt_append_skip (leBytes 4 0) _ 4).trans (leAt_leBytes_append 4 0x262D6 _)
  · refine congrArg Host.Outcome.next (spdm_answers hr ?_)
    unfold State.spdmDo
    rw [if_neg (by decide), if_neg (by simp [hv]), if_neg (by decide), if_pos rfl]
    unfold State.spAlgorithms
    rw [if_neg (by simpa using hc)]
  · refine ⟨congrArg Host.Outcome.next (spdm_answers hr ?_), fun o n ho hn hle => ?_, congrArg Host.Outcome.next (spdm_answers hr ?_)⟩
    · unfold State.spdmDo
      rw [if_neg (by decide), if_neg (by simp [hv]), if_neg (by decide), if_neg (by decide), if_pos rfl]
      unfold State.spDigests
      rw [if_neg (by simp [ha]), if_neg hl]
    · subst ho hn
      refine congrArg Host.Outcome.next (spdm_answers hr ?_)
      unfold State.spdmDo
      rw [if_neg (by decide), if_neg (by simp [hv]), if_neg (by decide), if_neg (by decide), if_neg (by decide), if_pos rfl]
      unfold State.spCertificate
      dsimp only
      rw [if_neg (by simp [ha]), if_neg (by simp [hl, h1]; omega)]
    · unfold State.spdmDo
      rw [if_neg (by decide), if_neg (by simp [hv]), if_neg (by decide), if_neg (by decide), if_neg (by decide), if_neg (by decide),
        if_pos rfl]
      unfold State.spChallenge
      rw [if_neg (by simp [ha]), if_neg hl, if_neg (by omega)]
  · rintro m ha hb h2 rfl
    refine congrArg Host.Outcome.next (spdm_answers hr ?_)
    unfold State.spdmDo
    rw [if_neg (by decide), if_neg (by simp [hv]), if_neg (by decide), if_neg (by decide), if_neg (by decide), if_neg (by decide),
      if_neg (by decide), if_pos rfl]
    unfold State.spMeasurements
    rw [if_neg (by simp [ha]), if_neg (by rcases hb with h | h <;> simp [h]), if_neg (by omega)]

/-! ### Sessions -/

/-- A request over an established session. -/
theorem inSession_established (hx : s.session r = some x) (he : x.established = true) (f : Session → State × SpAnswer) :
    s.inSession r f = f x := by
  unfold State.inSession
  rw [hx]
  exact if_pos he

theorem mem_addVal_iff {α : Type} [DecidableEq α] {x y : α} {l : List α} (h : y ≠ x) : y ∈ addVal x l ↔ y ∈ l := by
  unfold addVal
  split
  · exact Iff.rfl
  · simp [h]

/-- A stream that fails its integrity takes the link and every stream down. -/
theorem ideFailure_downs {stream : IdeStream} (hm : stream ∈ s.host.ide) (hu : s.host.up = true) :
    (s.ideFailure stream).host.up = false ∧ (s.ideFailure stream).host.ide = [] := by
  unfold State.ideFailure
  rw [if_pos (List.contains_iff_mem.2 hm)]
  obtain ⟨down, -⟩ := linkDown_host (s := ({ s with host := { s.host with ide := dropVal stream s.host.ide } } : State).showIde) hu
  rw [down]
  exact ⟨rfl, rfl⟩

/-! ### Chunks -/

theorem chunkSend_keeps {all : List Byte} (hr : s.spReaches r.transport = true) (hv : r.version = 0x12) (hb : bit r.param1 0 = false)
    (ha : all = (if leAt r.body 0 2 = 0 then (r.body.drop 12).take (leAt r.body 4 4)
      else s.sec.chunkIn ++ (r.body.drop 8).take (leAt r.body 4 4))) :
    s.chunkSend r = ({ s with sec := { s.sec with chunkIn := all } } : State).spSend r.transport
      (0x05, leBytes 1 0 ++ leBytes 1 r.param2 ++ leBytes 2 (leAt r.body 0 2)) := by
  subst ha
  unfold State.chunkSend
  rw [if_neg (by simp [hr])]
  dsimp only
  rw [if_neg (by simp [hv]), if_neg (by simp [hb])]
  by_cases h : leAt r.body 0 2 = 0 <;> simp [h]

theorem chunkSend_handles {all : List Byte} (hr : s.spReaches r.transport = true) (hv : r.version = 0x12) (hb : bit r.param1 0 = true)
    (ha : all = (if leAt r.body 0 2 = 0 then (r.body.drop 12).take (leAt r.body 4 4)
      else s.sec.chunkIn ++ (r.body.drop 8).take (leAt r.body 4 4))) {a : State × SpAnswer}
    (hx : a = ({ s with sec := { s.sec with chunkIn := [] } } : State).spdmDo (leAt all 1 1)
      { r with version := leAt all 0 1, param1 := leAt all 2 1, param2 := leAt all 3 1, body := all.drop 4 }) :
    s.chunkSend r = a.1.spSend r.transport
      (0x05, leBytes 1 0 ++ leBytes 1 r.param2 ++ leBytes 2 (leAt r.body 0 2) ++ leBytes 1 0x12 ++ leBytes 1 a.2.1 ++ a.2.2) := by
  subst ha hx
  unfold State.chunkSend
  rw [if_neg (by simp [hr])]
  dsimp only
  rw [if_neg (by simp [hv]), if_pos hb]
  by_cases h : leAt r.body 0 2 = 0 <;> simp [h]

/-- The part of a long answer that a CHUNK_GET takes, and what is left of it. -/
def State.chunkPart (s : State) (tr : SpdmTransport) : List Byte :=
  if s.spLimit tr - 16 = 0 then s.sec.chunkOut else s.sec.chunkOut.take (s.spLimit tr - 16)

def State.chunkRest (s : State) (tr : SpdmTransport) : List Byte :=
  if s.spLimit tr - 16 = 0 then [] else s.sec.chunkOut.drop (s.spLimit tr - 16)

theorem chunkGet_sends (hr : s.spReaches r.transport = true) (hv : r.version = 0x12) (hne : s.sec.chunkOut ≠ []) :
    s.chunkGet r = ({ s with sec := { s.sec with chunkOut := s.chunkRest r.transport } } : State).spSend r.transport
      (0x06, leBytes 1 (if (s.chunkRest r.transport).isEmpty then 1 else 0) ++ leBytes 1 r.param2 ++ leBytes 2 (leAt r.body 0 2) ++
        leBytes 2 0 ++ leBytes 4 (s.chunkPart r.transport).length ++ s.chunkPart r.transport) := by
  unfold State.chunkGet
  rw [if_neg (by simp [hr]), if_neg (by simp [hv]), if_neg (by simpa using hne)]
  rfl

/-- Settles O53. -/
theorem sessionsKept : Obligations.SessionsKept := by
  unfold Obligations.SessionsKept
  refine ⟨fun s r hr hv => ⟨?_, ?_, ?_, ?_, ?_⟩, fun s stream hm hu => ⟨_, rfl, ideFailure_downs hm hu⟩⟩
  · intro ha hl hn h2
    refine congrArg Host.Outcome.next (spdm_answers hr ?_)
    unfold State.spdmDo
    simp only [hv]
    show s.spKeyExchange r = _
    unfold State.spKeyExchange
    rw [if_neg (by simp [ha]), if_neg hl, if_neg (by omega), if_neg (by simp [h2])]
  · intro x hx he
    refine congrArg Host.Outcome.next (spdm_answers hr ?_)
    unfold State.spdmDo
    simp only [hv]
    show s.spFinish r = _
    unfold State.spFinish
    rw [hx]
    exact if_neg (by simp [he])
  · intro x hx he
    have held := fun f => inSession_established hx he f
    refine ⟨congrArg Host.Outcome.next (spdm_answers hr ?_), fun h1 => congrArg Host.Outcome.next (spdm_answers hr ?_),
      fun h1 => congrArg Host.Outcome.next (spdm_answers hr ?_), congrArg Host.Outcome.next (spdm_answers hr ?_), ?_⟩
    · unfold State.spdmDo
      simp only [hv]
      exact held _
    · unfold State.spdmDo
      simp only [hv]
      exact (held _).trans (if_pos h1)
    · unfold State.spdmDo
      simp only [hv]
      exact (held _).trans ((if_neg (by omega)).trans (if_pos h1))
    · unfold State.spdmDo
      simp only [hv]
      exact held _
    · intro stream ht hu hm
      have eq : s.vendorRequest r stream = State.spSend
          ((({ s with host := { s.host with ide := addVal stream s.host.ide } } : State).setSession
            { x with ide := addVal stream x.ide }).showIde) .doe (0x7E, s.spRest) := by
        unfold State.vendorRequest
        rw [if_neg (by simp [hr])]
        dsimp only
        rw [if_neg (by simp [hv])]
        unfold State.spIde
        rw [held, if_pos ⟨ht, hu, List.contains_iff_mem.2 hm⟩, ht]
      exact ⟨_, congrArg Host.Outcome.next eq, mem_addVal stream _, fun y hy => mem_addVal_iff hy⟩
  · rintro part hne hl rfl
    have whole : s.spLimit r.transport - 16 = 0 ↔ s.spLimit r.transport = 0 := by omega
    refine ⟨_, _, congrArg Host.Outcome.next (chunkGet_sends hr hv hne), ?_, ?_⟩
    · show _ ++ s.chunkRest r.transport = _
      unfold State.chunkRest
      simp only [whole]
      split
      · exact List.append_nil _
      · exact List.take_append_drop _ _
    · unfold State.chunkPart
      simp only [whole]
      exact List.drop_left' (by simp [leBytes_length])
  · rintro all ack rfl ha
    exact ⟨fun hb => congrArg Host.Outcome.next (chunkSend_keeps hr hv hb ha),
      fun x hb hx => congrArg Host.Outcome.next (chunkSend_handles hr hv hb ha hx)⟩

end Sys2Proof.Machine
end

