-- ==== Sys2Proof/Proofs/PowerStates.lean ====
section
/-! SUPPORT. Power requests, transitions and the automatic Dimmed state (R469 to R472). -/
namespace Sys2Proof.Machine

variable {s t : State}

/-! ### Fields of `PWR_STATUS` -/

/-- What one field of `PWR_STATUS` shows after another is set. -/
theorem pwrFld_setFld (s : State) (f g : Fld) (v : Nat) (h : f.lo + f.w ≤ 64 := by decide)
    (hfg : g.lo + g.w ≤ f.lo ∨ f.lo + f.w ≤ g.lo := by decide) : (s.setFld f v).fld g = s.fld g :=
  fld_setFld_other s f g v h (.inr hfg)

/-! ### Time passes -/

theorem tick_power_kept (s : State) (now : Nat) : (s.tick now).power = { s.power with busyUntil := (s.tick now).power.busyUntil } := by
  unfold State.tick
  split <;> rfl

theorem tick_runs_empty (s : State) (now : Nat) : (s.tick now).runs = [] ↔ s.runs = [] := by
  unfold State.tick
  split
  · rfl
  · exact List.map_eq_nil_iff

theorem headWaits_line (s : State) (d : Nat) (r : Ring) : (s.headWaits d r).heldLine = r.heldLine ∧
    (s.headWaits d r).fifo.isEmpty = r.fifo.isEmpty := by
  unfold State.headWaits
  split
  · next f rest h =>
    split
    · exact ⟨rfl, by rw [h]; rfl⟩
    · exact ⟨rfl, rfl⟩
  · exact ⟨rfl, rfl⟩

/-- An idle device goes on being idle as time passes, and its idle time goes on counting (R470). -/
theorem tick_idle (now : Nat) (h : s.idle = true) : (s.tick now).idle = true ∧ (s.tick now).power = s.power := by
  unfold State.tick
  split
  · exact ⟨h, rfl⟩
  · constructor
    · unfold State.idle at h ⊢
      simp only [Bool.and_eq_true, List.all_eq_true] at h ⊢
      obtain ⟨⟨runs, rings⟩, feeds⟩ := h
      refine ⟨⟨?_, fun x hx => ?_⟩, feeds⟩
      · rw [List.isEmpty_iff] at runs ⊢
        exact List.map_eq_nil_iff.2 runs
      · obtain ⟨y, hy, rfl⟩ := List.mem_map.1 hx
        exact (headWaits_line _ _ _).2.trans (rings y hy)
    · dsimp only

theorem tick_lines (now : Nat) (h : ∀ x ∈ s.rings, x.2.heldLine = none) : ∀ x ∈ (s.tick now).rings, x.2.heldLine = none := by
  unfold State.tick
  split
  · exact h
  · intro x hx
    obtain ⟨y, hy, rfl⟩ := List.mem_map.1 hx
    exact (headWaits_line _ _ _).1.trans (h y hy)

/-! ### Transitions -/

/-- The end of a transition with no request held. -/
theorem endPower_ends (h : s.power.heldRequest = none) : s.endPower.fld pwrStatusState = s.fld pwrStatusState ∧
    s.endPower.fld pwrStatusRefusal = s.fld pwrStatusRefusal ∧ s.endPower.flag pwrStatusBusy = false ∧
    s.endPower.power = { s.power with target := none, heldRequest := none, draining := false } ∧
    s.endPower = { s with regs := s.endPower.regs, power := s.endPower.power } := by
  have eq : s.endPower = State.setFlag { s with power := { s.power with target := none, heldRequest := none, draining := false } }
      pwrStatusBusy false := by
    unfold State.endPower
    rw [h]
  rw [eq]
  exact ⟨pwrFld_setFld _ pwrStatusBusy pwrStatusState 0, pwrFld_setFld _ pwrStatusBusy pwrStatusRefusal 0,
    flag_setFlag _ _ _ (by decide) (by decide), rfl, rfl⟩

/-- Dark: SRAM of every partition reads zero, and device memory stays (R472). -/
theorem enterDark_dark (s : State) : s.enterDark.fld pwrStatusState = 2 ∧
    (∀ k, sramPart k < 8 → s.enterDark.sramRead k 1 = [0]) ∧ s.enterDark.mem.dev = s.mem.dev ∧ s.enterDark.power = s.power ∧
    s.enterDark.runs = s.runs := by
  have zeroed : ∀ (l : List Nat) (v : State), (l.foldl (fun (u : State) p => u.sramZeroPart p) v).mem.sram =
      v.mem.sram.filter (fun c => decide (sramPart c.1 ∉ l)) ∧
      (l.foldl (fun (u : State) p => u.sramZeroPart p) v).mem.dev = v.mem.dev ∧
      (l.foldl (fun (u : State) p => u.sramZeroPart p) v).power = v.power ∧
      (l.foldl (fun (u : State) p => u.sramZeroPart p) v).regs = v.regs ∧
      (l.foldl (fun (u : State) p => u.sramZeroPart p) v).runs = v.runs := by
    intro l
    induction l with
    | nil => exact fun v => ⟨by simp, rfl, rfl, rfl, rfl⟩
    | cons p l ih =>
      intro v
      obtain ⟨sram, dev, power, regs, runs⟩ := ih (v.sramZeroPart p)
      refine ⟨?_, dev, power, regs, runs⟩
      rw [List.foldl_cons, sram]
      show (v.mem.sram.filter fun c => decide (sramPart c.1 ≠ p)).filter _ = _
      rw [List.filter_filter]
      exact List.filter_congr fun c _ => by simp [Bool.and_comm]
  obtain ⟨sram, dev, power, regs, runs⟩ := zeroed (List.range 8) (s.setFld pwrStatusState 2)
  unfold State.enterDark
  generalize (List.range 8).foldl (fun (u : State) p => u.sramZeroPart p) (s.setFld pwrStatusState 2) = u at sram dev power regs runs ⊢
  refine ⟨?_, fun k hk => ?_, dev, power, runs⟩
  · exact (congrFun (fld_congr regs) pwrStatusState).trans (fld_setFld s pwrStatusState 2 (by decide) (by decide))
  · show cellRead 0 u.mem.sram k 1 = [0]
    rw [sram, cellRead_eq]
    show [cellGet 0 _ (k + 0)] = [0]
    unfold cellGet
    rw [Nat.add_zero, cellFind_filter_none (fun c => decide (sramPart c ∉ List.range 8)) k (by simpa using hk)]

theorem enterGhost_ghost (s : State) : s.enterGhost.fld pwrStatusState = 3 ∧ s.enterGhost.fn.buffers = [] ∧
    s.enterGhost.bias.image = [] ∧ s.enterGhost.mem = s.mem ∧ s.enterGhost.power = s.power ∧ s.enterGhost.runs = s.runs :=
  ⟨fld_setFld s pwrStatusState 3 (by decide) (by decide), rfl, rfl, rfl, rfl, rfl⟩

/-- With no line held nothing is released. -/
theorem releaseLines_none (h : ∀ x ∈ s.rings, x.2.heldLine = none) : s.releaseLines = s := by
  have fold : ∀ (l : List (Nat × Ring)) (t : State), (∀ x ∈ l, x.2.heldLine = none) → l.foldl (fun (t : State) x =>
      match x.2.heldLine with
      | none => t
      | some l => (t.onRing x.1 fun r => { r with heldLine := none }).wakeRing x.1 (some l)) t = t := by
    intro l
    induction l with
    | nil => exact fun _ _ => rfl
    | cons x l ih =>
      intro t hl
      rw [List.foldl_cons]
      simp only [hl x (List.mem_cons_self ..)]
      exact ih t fun y hy => hl y (List.mem_cons_of_mem _ hy)
  exact fold s.rings s h

/-- Full again from Dark (R472). -/
theorem enterFull_full (h3 : s.powerState ≠ 3) (hc : s.power.curtainDue = none) (hh : s.power.heldRequest = none)
    (hl : ∀ x ∈ s.rings, x.2.heldLine = none) : s.enterFull = (s.setFld pwrStatusState 0).endPower := by
  unfold State.enterFull
  rw [if_neg h3]
  obtain ⟨-, -, -, -, same⟩ := endPower_ends (s := s.setFld pwrStatusState 0) hh
  have lines : (s.setFld pwrStatusState 0).endPower.releaseLines = (s.setFld pwrStatusState 0).endPower :=
    releaseLines_none (by rw [same]; exact hl)
  dsimp only
  rw [lines, hc, if_neg (by decide)]

/-! ### Requests -/

theorem requestPower_judged (n : Nat) (hb : s.inReset = false) (hg : s.power.ghostLatched = false) :
    s.requestPower n = if s.flag pwrStatusBusy then { s with power := { s.power with heldRequest := some n } } else s.judgePower n := by
  unfold State.requestPower
  rw [if_neg (by simp [hb, hg])]

/-- A way into Dark or Ghost light judged (R470, R471). -/
theorem judgePower_down {n : Nat} (hn : s.powerState < n) : s.judgePower n =
    if s.darkRefusal ≠ 0 then s.setFld pwrStatusRefusal s.darkRefusal else s.beginPower n := by
  unfold State.judgePower
  rw [if_neg (by omega), if_neg (by omega)]

/-- Settles O54. -/
theorem powerStatesChange : Obligations.PowerStatesChange := by
  unfold Obligations.PowerStatesChange
  refine ⟨?_, ?_, ?_, ?_⟩
  · intro s n c hc hb hg
    have eq : exec c s = .next (s.requestPower n) := by
      rcases hc with ⟨rfl, rfl⟩ | ⟨rfl, rfl⟩ | ⟨rfl, rfl⟩ <;> rfl
    rw [eq, requestPower_judged n hb hg]
    refine ⟨fun busy => congrArg Host.Outcome.next (if_pos busy), fun free => ?_⟩
    rw [if_neg (by simp [free])]
    refine ⟨fun h0 h1 => ?_, fun h0 h2 => ?_, fun hn hr => ?_, fun hn hr => ?_⟩
    · refine congrArg Host.Outcome.next ?_
      unfold State.judgePower State.wakeDimmed
      rw [if_pos h0, if_pos h1, if_pos h1]
    · refine congrArg Host.Outcome.next ?_
      unfold State.judgePower
      rw [if_pos h0, if_neg (by omega), if_neg (by omega)]
      rfl
    · rw [judgePower_down hn, if_neg (by omega)]
      unfold State.beginPower
      rw [decide_eq_true (show n ≠ 0 by omega), Bool.true_and]
    · rw [judgePower_down hn, if_pos hr]
  · intro s now hr hh
    have power := tick_power_kept s now
    have runs := (tick_runs_empty s now).2 hr
    have level : (s.tick now).powerState = s.powerState := State.tick_fld s now _
    have held : (s.tick now).power.heldRequest = none := by rw [power]; exact hh
    have done : ∀ n, s.power.target = some n → (s.tick now).powerDone = if n = 0 then (s.tick now).enterFull
        else if (s.tick now).powerState < 2 then (if n = 2 then (s.tick now).enterDark.endPower else (s.tick now).enterDark)
        else if !(s.tick now).flash.programs.isEmpty then s.tick now else (s.tick now).enterGhost.endPower := by
      intro n hn
      unfold State.powerDone
      rw [show (s.tick now).power.target = some n by rw [power]; exact hn]
      dsimp only
      rw [if_neg (show ¬(!(s.tick now).runs.isEmpty) = true by rw [runs]; decide)]
    refine ⟨fun ht h2 => ?_, fun ht h2 hp => ?_, fun ht h3 u hu => ?_, fun ht h3 hc hl => ?_⟩
    · obtain ⟨dark, zero, dev, kept, -⟩ := enterDark_dark (s.tick now)
      obtain ⟨state, -, busy, ended, same⟩ := endPower_ends (s := (s.tick now).enterDark) (by rw [kept]; exact held)
      refine ⟨_, congrArg Host.Outcome.next ((done 2 ht).trans ((if_neg (by decide)).trans ((if_pos (by omega)).trans (if_pos rfl)))),
        state.trans dark, busy, by rw [ended], fun k hk => ?_, ?_⟩
      · rw [same]
        exact zero k hk
      · rw [same]
        exact dev.trans (congrArg Mem.dev (State.tick_mem s now))
    · obtain ⟨ghost, buffers, image, mem, kept, -⟩ := enterGhost_ghost (s.tick now)
      obtain ⟨state, -, busy, -, same⟩ := endPower_ends (s := (s.tick now).enterGhost) (by rw [kept]; exact held)
      refine ⟨_, congrArg Host.Outcome.next ((done 3 ht).trans ((if_neg (by decide)).trans ((if_neg (by omega)).trans
        (if_neg (by rw [State.tick_flash, hp]; decide))))), state.trans ghost, busy, ?_, ?_, ?_⟩
      · rw [same]
        exact buffers
      · rw [same]
        exact image
      · rw [same]
        exact mem.trans (State.tick_mem s now)
    · refine congrArg Host.Outcome.next ((done 0 ht).trans ((if_pos rfl).trans ?_))
      unfold State.enterFull
      rw [if_pos (by omega), hu]
      rfl
    · have full := enterFull_full (s := s.tick now) (by omega) (by rw [power]; exact hc) held (tick_lines now hl)
      obtain ⟨state, -, busy, ended, same⟩ := endPower_ends (s := (s.tick now).setFld pwrStatusState 0) held
      refine ⟨_, congrArg Host.Outcome.next ((done 0 ht).trans ((if_pos rfl).trans full)),
        state.trans (fld_setFld _ pwrStatusState 0 (by decide) (by decide)), busy, by rw [ended], ?_⟩
      rw [same]
      exact State.tick_mem s now
  · rintro s w now rfl hd hr hg hh ht
    have power := tick_power_kept s now
    have eq : (s.tick now).darkLate = ((s.tick now).setFld pwrStatusRefusal 4).endPower := by
      unfold State.darkLate
      refine if_pos ?_
      have busy : (s.tick now).runs.isEmpty = false := by
        rw [Bool.eq_false_iff, Ne, List.isEmpty_iff, tick_runs_empty]
        exact hr
      rw [busy, power]
      simp only [hd, hg, Bool.true_and, Bool.not_false]
      exact decide_eq_true ht
    obtain ⟨state, refusal, busy, ended, same⟩ := endPower_ends (s := (s.tick now).setFld pwrStatusRefusal 4)
      (by show (s.tick now).power.heldRequest = none; rw [power]; exact hh)
    refine ⟨_, congrArg Host.Outcome.next eq, refusal.trans (fld_setFld _ pwrStatusRefusal 4 (by decide) (by decide)), ?_, busy,
      by rw [ended], by rw [ended], by rw [same]; rfl⟩
    exact state.trans ((pwrFld_setFld _ pwrStatusRefusal pwrStatusState 4).trans (State.tick_fld s now _))
  · rintro s w now rfl hauto h0 hb hi hn ht
    obtain ⟨idle, power⟩ := tick_idle now hi
    refine congrArg Host.Outcome.next ?_
    unfold State.dim
    refine if_pos ?_
    have zero : ((s.tick now).powerState == 0) = true := by
      unfold State.powerState at h0 ⊢
      rw [State.tick_fld, h0]
      rfl
    have running : (s.tick now).inReset = false := by
      unfold State.inReset at hn ⊢
      rwa [State.tick_fld, State.tick_boot]
    rw [idle, power, zero, running]
    simp only [State.tick_flag, State.tick_fld, hauto, hb, Bool.true_and, Bool.not_false]
    exact decide_eq_true ht

end Sys2Proof.Machine
end

