-- ==== Sys2Proof/Proofs/PowerFailure.lean ====
section
/-! SUPPORT. Power failure, the quiescing of the flash tier, and the hold-up sense input (R295, R298, R473, R499). -/
namespace Sys2Proof.Machine

variable {s t u : State} {run i : Nat} {r : Run} {x : Item}

/-! ### Feeds stopped -/

/-- No feed of `t` is new. -/
def FeedsWithin (s t : State) : Prop := ∀ x ∈ t.media.feeds, x ∈ s.media.feeds

theorem FeedsWithin.trans (a : FeedsWithin s t) (b : FeedsWithin t u) : FeedsWithin s u := fun x h => a x (b x h)

theorem feedsWithin_of (h : t.media.feeds = s.media.feeds) : FeedsWithin s t := fun _ k => h ▸ k

theorem feedsWithin_foldl {α : Type} {g : State → α → State} (hg : ∀ t x, FeedsWithin t (g t x)) (l : List α) (s : State) :
    FeedsWithin s (l.foldl g s) := by
  induction l generalizing s with
  | nil => exact feedsWithin_of rfl
  | cons x l ih => exact (hg s x).trans (ih _)

theorem putPart_feedsSame (s : State) (src : ErrSource) (k : Nat) (bs : List Byte) : (s.putPart src k bs).media = s.media := by
  unfold State.putPart
  split
  · have h := memErr_stores s
    unfold Stores at h
    exact (congrArg State.media (h _ _ _ _) :)
  · rfl

theorem releaseCodec_feedsWithin (s : State) (run item st : Nat) : FeedsWithin s (s.releaseCodec run item st) := by
  have aborted : ∀ (src : ErrSource) (j : EncJob), (s.encAbort src j).media = s.media := fun _ _ =>
    (putPart_feedsSame _ _ _ _).trans (putPart_feedsSame _ _ _ _)
  refine feedsWithin_of ?_
  unfold State.releaseCodec
  split
  · rfl
  · split
    · split
      · rfl
      · split
        · rfl
        · refine (congrArg Media.feeds (putPart_feedsSame _ _ _ _)).trans ?_
          split
          · split
            · exact (congrArg Media.feeds (aborted _ _) :)
            · rfl
          · rfl
    · rfl

theorem releaseFeed_feedsWithin (s : State) (run item st : Nat) : FeedsWithin s (s.releaseFeed run item st) := by
  unfold State.releaseFeed
  split
  · exact feedsWithin_of rfl
  · dsimp only
    split
    · exact feedsWithin_of rfl
    · exact fun x h => List.mem_of_mem_filter h

theorem endEarly_feedsWithin (s : State) (run item st dt : Nat) : FeedsWithin s (s.endEarly run item st dt) := by
  have ended : ∀ (v : State) (d : Nat), FeedsWithin v (v.endItem run item st d) := by
    intro v d
    unfold State.endItem
    split
    · exact feedsWithin_of rfl
    · exact ((releaseCodec_feedsWithin _ _ _ _).trans (releaseFeed_feedsWithin _ _ _ _)).trans
        (feedsWithin_of (congrArg Media.feeds (leaveItem_leaves _ _ _ _).media))
  unfold State.endEarly
  refine FeedsWithin.trans ?_ (ended _ _)
  split <;> exact feedsWithin_of rfl

/-- A stop of every feed leaves none that runs. -/
theorem stopFeeds_idle (s : State) : ∀ x ∈ (s.stopFeeds fun _ => true).media.feeds, x.2.state = 0 := by
  have ended : ∀ (l : List (Nat × Feed)) (t : State), FeedsWithin t (l.foldl (fun u x => u.endEarly x.2.run x.2.item stCancelled) t) :=
    feedsWithin_foldl fun t x => endEarly_feedsWithin t x.2.run x.2.item stCancelled 0
  unfold State.stopFeeds
  intro x hx
  obtain ⟨y, -, rfl⟩ := List.mem_map.1 (ended _ _ x hx)
  rfl

theorem stopWork_idle (s : State) (n : Nat) : (s.stopWork.feed n).state = 0 := by
  have stopped : ∀ v : State, v.stopEmitting.media = v.media := by
    intro v
    unfold State.stopEmitting
    split <;> rfl
  have sent : ∀ v : State, v.sendDetached.media = v.media := by
    intro v
    have h := originate_sends v (v.prompter ptDetached 0 true (leBytes 8 v.cueNo))
    unfold Sends at h
    exact (congrArg State.media h :)
  unfold State.feed State.stopWork
  rw [stopped, sent]
  split
  · next f h => exact stopFeeds_idle _ _ (cellFind_mem h)
  · rfl

/-! ### Batches deferred -/

/-- `t` is `s` with batches deferred: the runs' items, the registers that an item's end may change and the count of deferred
batches, and what waits to be sent may differ. -/
structure Defers (s t : State) : Prop where
  reg : ∀ o, ¬cutRegs o → o ≠ rHoldupDeferred → t.reg o = s.reg o
  route : t.fab.route = s.fab.route
  failing : t.flash.failing = s.flash.failing

theorem Defers.refl (s : State) : Defers s s := ⟨fun _ _ _ => rfl, rfl, rfl⟩

theorem Defers.trans (a : Defers s t) (b : Defers t u) : Defers s u :=
  ⟨fun o h k => (b.reg o h k).trans (a.reg o h k), b.route.trans a.route, b.failing.trans a.failing⟩

theorem defers_foldl {α : Type} {g : State → α → State} (hg : ∀ t x, Defers t (g t x)) (l : List α) (s : State) :
    Defers s (l.foldl g s) := by
  induction l generalizing s with
  | nil => exact .refl s
  | cons x l ih => exact (hg s x).trans (ih _)

theorem endEarly_defers (s : State) (run item st dt : Nat) : Defers s (s.endEarly run item st dt) :=
  have cuts := endEarly_cuts s run item st dt
  ⟨fun o h _ => cuts.reg o h, (congrArg Fabric.route cuts.fab :), (congrArg Flash.failing cuts.flash :)⟩

theorem countDeferred_defers (s : State) : Defers s s.countDeferred := ⟨fun _ _ h => reg_setReg_other _ _ _ _ h, rfl, rfl⟩

theorem deferBatch_defers (s : State) (run : Nat) (l : List Nat) : Defers s (s.deferBatch run l) :=
  (countDeferred_defers s).trans (defers_foldl (fun t i => endEarly_defers t run i stHoldup 0) l _)

theorem deferBatch_cutTo (s : State) (q : Nat) (l : List Nat) : CutTo s (s.deferBatch q l) run i stHoldup :=
  CutTo.trans (t := s.countDeferred) (.inr rfl) (cutTo_foldl (fun t j => endEarly_cutTo t q j stHoldup 0 run i) l _)

theorem deferBatch_now (s : State) (q : Nat) (l : List Nat) : (s.deferBatch q l).now = s.now :=
  (cuts_foldl (fun t j => endEarly_cuts t q j stHoldup 0) l s.countDeferred).now

theorem deferBatch_other {q : Nat} {l : List Nat} (h : q = run → i ∉ l) : (s.deferBatch q l).itemOf run i = s.itemOf run i := by
  have fold : ∀ (l : List Nat) (t : State), (q = run → i ∉ l) →
      (l.foldl (fun t j => t.endEarly q j stHoldup 0) t).itemOf run i = t.itemOf run i := by
    intro l
    induction l with
    | nil => exact fun _ _ => rfl
    | cons j l ih =>
      intro t hl
      refine (ih _ fun h => fun k => hl h (List.mem_cons_of_mem _ k)).trans (itemOf_endEarly_other _ _ _ _ _ _ _ ?_)
      by_cases same : q = run
      · exact .inr fun k => hl same (k ▸ List.mem_cons_self ..)
      · exact .inl fun k => same k.symm
  exact fold l s.countDeferred h

theorem programsFlash_defers (h : Defers s t) (r : Run) (i : Nat) : t.programsFlash r i = s.programsFlash r i := by
  have own : ∀ m, t.isOwn m = s.isOwn m := by
    intro m
    have member : t.member = s.member := by
      unfold State.member State.fld
      rw [h.reg _ (by unfold cutRegs; decide) (by decide)]
    unfold State.isOwn
    rw [member, h.route]
  unfold State.programsFlash
  dsimp only
  rw [own]

/-- The items of a run that a power failure defers, as they stood at it. -/
def State.deferred (s : State) (r : Run) : List Nat :=
  (r.items.filter fun x => !x.hasEnded && decide (x.stage < 2) && s.programsFlash r x.index).map fun x => x.index

/-- One run's turn in the deferring of batches, by what `v` says of its items. -/
def State.deferRun (v u : State) (r : Run) : State :=
  if r.waiting || (v.deferred r).isEmpty then u else u.deferBatch r.id (v.deferred r)

theorem deferRun_defers (v u : State) (r : Run) : Defers u (v.deferRun u r) := by
  unfold State.deferRun
  split
  · exact .refl u
  · exact deferBatch_defers _ _ _

/-- What programs flash does not change as batches are deferred, so each run's items may be judged at the start. -/
theorem deferRuns_eq (l : List Run) (v u : State) (h : Defers v u) : l.foldl (fun (u : State) r =>
    let l := (r.items.filter fun x => !x.hasEnded && decide (x.stage < 2) && u.programsFlash r x.index).map fun x => x.index
    if r.waiting || l.isEmpty then u else u.deferBatch r.id l) u = l.foldl v.deferRun u := by
  induction l generalizing u with
  | nil => rfl
  | cons r l ih =>
    have one : (let l := (r.items.filter fun x => !x.hasEnded && decide (x.stage < 2) && u.programsFlash r x.index).map fun x => x.index
        if r.waiting || l.isEmpty then u else u.deferBatch r.id l) = v.deferRun u r := by
      unfold State.deferRun State.deferred
      simp only [programsFlash_defers h]
    rw [List.foldl_cons, List.foldl_cons, one]
    exact ih _ (h.trans (deferRun_defers v u r))

/-- Tiles that other members program are refused once power fails. -/
theorem judgeInbound_failing (hf : s.flash.failing = true) (y : RemoteTile) :
    Defers s (s.judgeInbound y) ∧ (s.judgeInbound y).runs = s.runs := by
  have refused : ∀ (l : List Packet) (v : State), Sends v (l.foldl (fun t p => t.refuse p stHoldup) v) := fun l v =>
    sends_foldl (fun t p => by
      unfold State.refuse State.respond
      dsimp only
      split
      · exact sendVia_sends _ _ _ _
      · exact .refl t) l v
  unfold State.judgeInbound
  dsimp only
  split
  · exact ⟨.refl s, rfl⟩
  · have sent := refused y.packets (State.countDeferred { s with flash := { s.flash with
      inbound := s.flash.inbound.filter fun z => z.id != y.id } })
    have runs := sent.runs
    have regs := sent.regs
    unfold Sends at sent
    refine ⟨⟨fun o _ h => (congrFun (reg_congr regs) o).trans (reg_setReg_other _ _ _ _ h), ?_, ?_⟩, runs⟩
    · exact (congrArg (fun v => v.fab.route) sent :)
    · exact (congrArg (fun v => v.flash.failing) sent :)

theorem judgeAll_failing (l : List RemoteTile) (s : State) (hf : s.flash.failing = true) :
    Defers s (l.foldl (fun (u : State) x => u.judgeInbound x) s) ∧ (l.foldl (fun (u : State) x => u.judgeInbound x) s).runs = s.runs := by
  induction l generalizing s with
  | nil => exact ⟨.refl s, rfl⟩
  | cons y l ih =>
    obtain ⟨defers, runs⟩ := judgeInbound_failing hf y
    obtain ⟨defers', runs'⟩ := ih (s.judgeInbound y) (defers.failing.trans hf)
    exact ⟨defers.trans defers', runs'.trans runs⟩

/-- What a power failure's deferring does to the items of a run: those that program flash, and whose batch has not started, end
HOLDUP_LOW, and no other item changes. -/
theorem deferBatches_ends (hf : s.flash.failing = true) (hr : s.findRun run = some r) (h1 : ∀ q ∈ s.runs, q.id = run → q = r)
    (hx : r.item i = some x) : Defers s s.deferBatches ∧
      (s.programsFlash r i = false → s.deferBatches.itemOf run i = some x) ∧
      (x.hasEnded = false → x.stage < 2 → r.waiting = false → s.programsFlash r i = true →
        ∃ dt, s.deferBatches.phaseOf run i = some (.ended stHoldup dt)) := by
  have item : s.itemOf run i = some x := by
    unfold State.itemOf
    rw [hr]
    exact hx
  have index : x.index = i := item_index hx
  have eq := deferRuns_eq s.runs s s (.refl s)
  have defers := defers_foldl (deferRun_defers s) s.runs s
  have judged := fun l => judgeAll_failing l (s.runs.foldl s.deferRun s) (defers.failing.trans hf)
  unfold State.deferBatches
  dsimp only at eq ⊢
  rw [eq]
  obtain ⟨all, runs⟩ := judged (s.runs.foldl s.deferRun s).flash.inbound
  refine ⟨defers.trans all, fun hp => (itemOf_congr runs run i).trans ?_, fun he hs hw hp => ?_⟩
  · have spared : ∀ (l : List Run) (t : State), (∀ q ∈ l, q.id = run → q = r) → (l.foldl s.deferRun t).itemOf run i = t.itemOf run i := by
      intro l
      induction l with
      | nil => exact fun _ _ => rfl
      | cons q l ih =>
        intro t hl
        refine (ih _ fun y hy => hl y (List.mem_cons_of_mem _ hy)).trans ?_
        unfold State.deferRun
        split
        · rfl
        · refine deferBatch_other fun hid hi => ?_
          obtain ⟨y, hy, hyi⟩ := List.mem_map.1 hi
          rw [hl q (List.mem_cons_self ..) hid, List.mem_filter] at hy
          rw [hyi, hp] at hy
          simp at hy
    exact (spared s.runs s h1).trans item
  · have ends : ∃ dt, (s.runs.foldl s.deferRun s).phaseOf run i = some (.ended stHoldup dt) := by
      refine foldl_cuts_ends (fun t q => ?_) (fun t q => ?_) s.runs s item r (List.mem_of_find?_eq_some hr) fun t ht _ => ?_
      · unfold State.deferRun
        split
        · exact .inr rfl
        · exact deferBatch_cutTo _ _ _
      · unfold State.deferRun
        split
        · rfl
        · exact deferBatch_now _ _ _
      · have mem : i ∈ s.deferred r := List.mem_map.2 ⟨x, List.mem_filter.2 ⟨(itemOf_mem hr item).1, by simp [he, hs, index, hp]⟩, index⟩
        have turn : s.deferRun t r = t.deferBatch run (s.deferred r) := by
          unfold State.deferRun
          rw [if_neg (by simpa [hw] using List.ne_nil_of_mem mem), findRun_id hr]
        rw [turn]
        exact foldl_cuts_ends (fun v j => endEarly_cutTo v run j stHoldup 0 run i) (fun v j => (endEarly_cuts v run j stHoldup 0).now)
          (s.deferred r) t.countDeferred ht i mem fun v hv _ => endEarly_ends hv (.inl he) 0
    obtain ⟨dt, h⟩ := ends
    exact ⟨dt, (phaseOf_congr runs run i).trans h⟩

/-! ### Quiescing -/

theorem pwrSet_flash (s : State) (f g : Fld) (v : Nat) (h : g.off ≠ f.off) : (s.setFld f v).fld g = s.fld g := by
  unfold State.fld State.setFld
  rw [reg_setReg_other _ _ _ _ h]

/-- The tier quiesced (R298). -/
def State.quiescing (s : State) : State :=
  let t := s.setFlag flashStatusQuiesced true
  { t with power := { t.power with
      ghostLatched := true, target := some 3, heldRequest := none, draining := true, curtainDue := none } }

theorem quiescing_flag (s : State) : s.quiescing.flag flashStatusQuiesced = true :=
  flag_setFlag s flashStatusQuiesced true (by decide) (by decide)

theorem enterGhost_flash (s : State) (g : Fld) (h : g.off ≠ rPwrStatus) : s.enterGhost.fld g = s.fld g :=
  pwrSet_flash s pwrStatusState g 3 h

theorem enterDark_flash (s : State) (g : Fld) (h : g.off ≠ rPwrStatus) : s.enterDark.fld g = s.fld g := by
  have regs : ∀ (l : List Nat) (v : State), (l.foldl (fun (u : State) p => u.sramZeroPart p) v).regs = v.regs := by
    intro l
    induction l with
    | nil => exact fun _ => rfl
    | cons p l ih => exact fun v => ih (v.sramZeroPart p)
  have same := regs (List.range 8) (s.setFld pwrStatusState 2)
  unfold State.enterDark
  generalize (List.range 8).foldl (fun (u : State) p => u.sramZeroPart p) (s.setFld pwrStatusState 2) = u at same ⊢
  exact (congrFun (fld_congr same) g).trans (pwrSet_flash s pwrStatusState g 2 h)

/-- A quiesced device with nothing running enters Ghost light, for good (R298, R473). -/
theorem quiesced_spec (hf : s.flash.failing = true) (hp : s.flash.programs = []) (ht : s.flash.trims = [])
    (hq : s.flag flashStatusQuiesced = false) : s.quiesced.flag flashStatusQuiesced = true ∧ s.quiesced.power.ghostLatched = true ∧
      (s.runs = [] → s.quiesced.powerState = 3 ∧ s.quiesced.flag pwrStatusBusy = false ∧ s.quiesced.power.target = none) ∧
      (s.runs ≠ [] → s.quiesced.powerState = s.powerState ∧ s.quiesced.flag pwrStatusBusy = true ∧
        s.quiesced.power.target = some 3) := by
  have eq : s.quiesced = if s.runs.isEmpty then
      (if s.quiescing.powerState < 2 then s.quiescing.enterDark else s.quiescing).enterGhost.endPower
      else s.quiescing.setFlag pwrStatusBusy true := by
    unfold State.quiesced
    rw [if_neg (by simp [hf, hp, ht, hq])]
    rfl
  have latched := quiescing_flag s
  by_cases empty : s.runs = []
  · rw [eq, if_pos (List.isEmpty_iff.2 empty)]
    have down : ∃ v : State, (if s.quiescing.powerState < 2 then s.quiescing.enterDark else s.quiescing) = v ∧
        v.power = s.quiescing.power ∧ v.fld flashStatusQuiesced = s.quiescing.fld flashStatusQuiesced := by
      split
      · obtain ⟨-, -, -, power, -⟩ := enterDark_dark s.quiescing
        exact ⟨_, rfl, power, enterDark_flash _ _ (by decide)⟩
      · exact ⟨_, rfl, rfl, rfl⟩
    obtain ⟨v, hv, power, quiet⟩ := down
    rw [hv]
    obtain ⟨ghost, -, -, -, kept, -⟩ := enterGhost_ghost v
    have held : v.enterGhost.power.heldRequest = none := by rw [kept, power]; rfl
    obtain ⟨state, -, busy, ended, -⟩ := endPower_ends held
    have shown : v.enterGhost.endPower.fld flashStatusQuiesced = v.enterGhost.fld flashStatusQuiesced := by
      unfold State.endPower
      rw [held]
      exact pwrSet_flash _ pwrStatusBusy flashStatusQuiesced 0 (by decide)
    refine ⟨?_, ?_, fun _ => ⟨state.trans ghost, busy, by rw [ended]⟩, fun h => absurd empty h⟩
    · unfold State.flag at latched ⊢
      rw [shown, enterGhost_flash _ _ (by decide), quiet, latched]
    · rw [ended, kept, power]
      rfl
  · rw [eq, if_neg (by simpa using empty)]
    refine ⟨?_, rfl, fun h => absurd h empty, fun _ => ⟨?_, flag_setFlag _ _ _ (by decide) (by decide), rfl⟩⟩
    · unfold State.flag at latched ⊢
      rw [show (s.quiescing.setFlag pwrStatusBusy true).fld flashStatusQuiesced = _ from
        pwrSet_flash s.quiescing pwrStatusBusy flashStatusQuiesced 1 (by decide), latched]
    · exact (pwrFld_setFld s.quiescing pwrStatusBusy pwrStatusState 1).trans (pwrSet_flash s flashStatusQuiesced pwrStatusState 1 (by decide))

/-! ### The hold-up sense input -/

theorem holdupFrame_good {bits : Nat} (hb : s.inReset = false) (hg : s.frameGood bits true = true) :
    (s.holdupFrame bits true).fld holdupStatusVMv = bits % 65536 ∧ (s.holdupFrame bits true).flag holdupStatusStale = false ∧
      (s.holdupFrame bits true).flash.senseSeq = some (field bits 16 8) ∧ (s.holdupFrame bits true).flash.senseAt = some s.now := by
  unfold State.holdupFrame
  rw [if_neg (by simp [hb]), if_pos hg]
  refine ⟨?_, flag_setFlag _ _ _ (by decide) (by decide), rfl, rfl⟩
  refine (fld_setFld_other _ holdupStatusStale holdupStatusVMv 0 (by decide) (.inr (.inl (by decide)))).trans ?_
  rw [fld_setFld _ _ _ (by decide) (field_lt bits 0 16)]
  show bits / 1 % 65536 = bits % 65536
  rw [Nat.div_one]

theorem holdupFrame_bad {bits : Nat} {stop : Bool} (hb : s.inReset = false) (hg : s.frameGood bits stop = false) :
    (s.holdupFrame bits stop).flag holdupStatusStale = true ∧
      (s.holdupFrame bits stop).fld holdupStatusVMv = s.fld holdupStatusVMv ∧
      (s.holdupFrame bits stop).flash.senseAt = s.flash.senseAt := by
  unfold State.holdupFrame
  rw [if_neg (by simp [hb]), if_neg (by simp [hg])]
  exact ⟨flag_setFlag _ _ _ (by decide) (by decide),
    fld_setFld_other _ holdupStatusStale holdupStatusVMv 1 (by decide) (.inr (.inl (by decide))), rfl⟩

/-! ### Power failure -/

/-- The device as power fails, before any item is cut. -/
def State.failingNow (s : State) : State :=
  ({ s with flash := { s.flash with failing := true } } : State).setFlag flashStatusPwrFail true

theorem powerFail_eq (hb : s.inReset = false) : s.powerFail = s.failingNow.deferBatches.stopWork := by
  unfold State.powerFail
  rw [if_neg (by simp [hb])]
  rfl

theorem programsFlash_failingNow (s : State) (r : Run) (i : Nat) : s.failingNow.programsFlash r i = s.programsFlash r i := by
  have own : ∀ m, s.failingNow.isOwn m = s.isOwn m := by
    intro m
    have member : s.failingNow.member = s.member := pwrSet_flash { s with flash := { s.flash with failing := true } }
      flashStatusPwrFail fabMemberMember 1 (by decide)
    unfold State.isOwn
    rw [member]
    rfl
  unfold State.programsFlash
  dsimp only
  rw [own]

/-- What a power failure leaves of the registers and of this member's part in the chorus. -/
theorem powerFail_shows (hd : Defers s.failingNow s.failingNow.deferBatches) :
    s.failingNow.deferBatches.stopWork.flash.failing = true ∧
      s.failingNow.deferBatches.stopWork.flag flashStatusPwrFail = true ∧
      s.failingNow.deferBatches.stopWork.fld cueStatusLock ≠ 4 := by
  obtain ⟨-, -, -, failing, -⟩ := stopWork_keeps s.failingNow.deferBatches
  refine ⟨failing.trans hd.failing, ?_, stopEmitting_lock _⟩
  have shown : s.failingNow.flag flashStatusPwrFail = true := flag_setFlag _ _ _ (by decide) (by decide)
  unfold State.flag State.fld at shown ⊢
  rw [(stopWork_halts _).reg _ (by unfold cutRegs; decide) (by decide) (by decide) (by decide),
    hd.reg _ (by unfold cutRegs; decide) (by decide), shown]

/-- Settles O55. -/
theorem powerFailureQuiesces : Obligations.PowerFailureQuiesces := by
  unfold Obligations.PowerFailureQuiesces
  refine ⟨?_, ?_, ?_, ?_, ?_⟩
  · intro s hb
    have defers : Defers s.failingNow s.failingNow.deferBatches := by
      have runs := defers_foldl (deferRun_defers s.failingNow) s.failingNow.runs s.failingNow
      unfold State.deferBatches
      rw [deferRuns_eq _ s.failingNow _ (.refl _)]
      exact runs.trans (judgeAll_failing _ _ (runs.failing.trans rfl)).1
    obtain ⟨failing, flag, lock⟩ := powerFail_shows defers
    refine ⟨_, congrArg Host.Outcome.next (powerFail_eq hb), failing, flag, lock, stopWork_idle _, fun run r i x hr h1 hx => ?_⟩
    obtain ⟨-, spares, holds⟩ := deferBatches_ends (s := s.failingNow) rfl hr h1 hx
    rw [programsFlash_failingNow] at spares holds
    refine ⟨fun hp hn => stopWork_cancels (spares hn) hp, fun he hs hw hn => ?_⟩
    obtain ⟨dt, h⟩ := holds he hs hw hn
    exact ⟨dt, (stopWork_halts _).ended run i _ _ (by decide) h⟩
  · intro s now hf hp ht hq
    obtain ⟨flag, latched, quiet, busy⟩ := quiesced_spec (s := s.tick now) (by rw [State.tick_flash]; exact hf)
      (by rw [State.tick_flash]; exact hp) (by rw [State.tick_flash]; exact ht) ((State.tick_flag s now _).trans hq)
    refine ⟨_, rfl, flag, latched, fun h => quiet ((tick_runs_empty s now).2 h), fun h => ?_⟩
    obtain ⟨state, b, target⟩ := busy fun k => h ((tick_runs_empty s now).1 k)
    exact ⟨state.trans (State.tick_fld s now _), b, target⟩
  · intro s hf
    have eq : s.powerGood = (({ s with flash := { s.flash with failing := false } } : State).setFlag flashStatusPwrFail false).setFlag
        flashStatusQuiesced false := if_pos hf
    refine ⟨_, congrArg Host.Outcome.next eq, rfl, ?_, flag_setFlag _ _ _ (by decide) (by decide), rfl⟩
    unfold State.flag
    rw [show (State.setFlag _ flashStatusQuiesced false).fld flashStatusPwrFail = _ from
      fld_setFld_other _ flashStatusQuiesced flashStatusPwrFail 0 (by decide) (.inr (.inr (by decide)))]
    exact flag_setFlag _ _ _ (by decide) (by decide)
  · rintro s w bits stop now rfl hb
    refine ⟨fun hs hc hq => ?_, fun hbad => ?_⟩
    · subst hs
      have good : (s.tick now).frameGood bits.toNat true = true := by
        unfold State.frameGood
        rw [hc, beq_self_eq_true, State.tick_flash]
        cases h : s.flash.senseSeq with
        | none => rfl
        | some q => simpa using hq q h
      exact ⟨_, rfl, holdupFrame_good hb good⟩
    · have bad : (s.tick now).frameGood bits.toNat stop = false := by
        unfold State.frameGood
        rcases hbad with h | h
        · rw [h]
          rfl
        · rw [beq_eq_false_iff_ne.2 h, Bool.and_false, Bool.false_and]
      obtain ⟨stale, volts, at_⟩ := holdupFrame_bad hb bad
      exact ⟨_, rfl, stale, volts.trans (State.tick_fld s now _), at_.trans (by rw [State.tick_flash])⟩
  · rintro s w now rfl ht
    refine congrArg Host.Outcome.next ?_
    unfold State.holdupStale
    rw [State.tick_flash]
    split
    · rfl
    · next t0 h => exact if_pos (ht t0 h)

end Sys2Proof.Machine
end

