-- ==== Sys2Proof/Proofs/Resets.lean ====
section
/-! SUPPORT. What a device reset, a TAP hold, power removal and a thermal trip keep and end (R39, R465, R477 to R484, R502). -/
namespace Sys2Proof.Machine

variable {s t : State}

/-! ### Registers after a reset -/

/-- After a device reset every register but the unit's identification reads its reset value (R478). -/
theorem afterReset_reg (s : State) (cause : Nat) {off : Nat} (h1 : off ≠ rIdPart) (h2 : off ≠ rIdSerial) :
    (s.afterReset cause).reg off = regReset off := by
  show (match cellFind off (s.regs.vals.filter fun c => c.1 == rIdPart || c.1 == rIdSerial) with
    | some v => v.toNat
    | none => regReset off) = _
  rw [cellFind_filter_none (fun o => o == rIdPart || o == rIdSerial) off (by simp [h1, h2])]

theorem afterReset_phase (s : State) (cause : Nat) : (s.afterReset cause).fld bootStatusPhase = 0 := by
  unfold State.fld
  rw [afterReset_reg s cause (by decide) (by decide)]
  decide

theorem afterReset_unsealed (s : State) (cause : Nat) : (s.afterReset cause).isSealed = false := by
  unfold State.isSealed State.fld
  rw [afterReset_reg s cause (by decide) (by decide)]
  decide

theorem regReset_ringTimeout {n : Nat} (hn : n < 256) : regReset (rRingTimeout n) = 0x01002710 := by
  unfold regReset rRingTimeout
  repeat rw [if_neg (by omega)]
  rw [if_pos (by omega)]

theorem regReset_ringCtrl {n : Nat} (hn : n < 256) : regReset (rRingCtrl n) = 0 := by
  unfold regReset rRingCtrl
  repeat rw [if_neg (by omega)]

theorem regReset_ctxCtrl {n : Nat} (hn : n < 64) : regReset (rCtxCtrl n) = 0 := by
  unfold regReset rCtxCtrl
  repeat rw [if_neg (by omega)]

/-- Settles O3. -/
theorem resetLeavesItsValues : Obligations.ResetLeavesItsValues := by
  unfold Obligations.ResetLeavesItsValues
  refine ⟨⟨?_, rfl⟩, fun _ => rfl, by decide, fun n hn => ⟨regReset_ringTimeout hn, regReset_ringCtrl hn⟩,
    fun n hn => regReset_ctxCtrl hn, by decide, by decide, by decide, fun s c hc => ?_⟩
  · unfold State.Canonical Mem.wf
    decide
  · rcases hc with ⟨lowNs, hlow, ht, rfl⟩ | ⟨hb, hu, rfl⟩ | ⟨ht, ir, rfl⟩ | rfl
    · have eq : s.pulseReset lowNs = { s.afterReset 2 with boot := { (s.afterReset 2).boot with rstN := false } } := by
        unfold State.pulseReset
        rw [if_neg (by simp [ht]; omega)]
      exact ⟨_, congrArg Host.Outcome.next eq, rfl, fun off h1 h2 => afterReset_reg s 2 h1 h2⟩
    · have eq : s.keyReset .mctp resetKey = s.afterReset 4 := by
        unfold State.keyReset
        rw [if_neg (by simp [hb]), if_neg (by simp [hu])]
      exact ⟨_, congrArg Host.Outcome.next eq, rfl, fun off h1 h2 => afterReset_reg s 4 h1 h2⟩
    · have eq : s.tapTest ir = { s.afterReset 6 with boot := { (s.afterReset 6).boot with tapHold := some ir } } := by
        unfold State.tapTest
        rw [if_neg (by simp [ht])]
      exact ⟨_, congrArg Host.Outcome.next eq, rfl, fun off h1 h2 => afterReset_reg s 6 h1 h2⟩
    · exact ⟨_, rfl, rfl, fun off h1 h2 => afterReset_reg s 1 h1 h2⟩

/-! ### Junction sensors -/

/-- A junction within its maximum: its reading and its sensor are shown, and nothing else happens. -/
theorem readJunctions_cool {l : List Int} (hb : s.inReset = false) (hm : (hottest l).1 ≤ s.junctionMax) :
    s.readJunctions l = ((s.setFld junctionTempMax (min (hottest l).1.toNat 1023)).setFld junctionTempSource (hottest l).2).setFlag
      junctionTempOver false := by
  have cool : ¬s.junctionTrip < (hottest l).1 := by
    unfold State.junctionMax at hm
    unfold State.junctionTrip
    split at hm <;> split <;> omega
  have max : decide (s.junctionMax < (hottest l).1) = false := decide_eq_false (by omega)
  unfold State.readJunctions
  rw [if_neg (by simp [hb])]
  dsimp only
  rw [max, if_neg cool, Bool.false_and, if_neg (by decide)]

/-- Settles O56. -/
theorem resetsKeepWhatTheyKeep : Obligations.ResetsKeepWhatTheyKeep := by
  unfold Obligations.ResetsKeepWhatTheyKeep
  refine ⟨?_, ?_, ?_, ?_, ?_, ?_⟩
  · intro s lowNs ht
    refine ⟨fun h => ?_, fun h => ?_⟩
    · refine congrArg Host.Outcome.next ?_
      unfold State.pulseReset
      rw [if_pos (by simp [h])]
    · have eq : s.pulseReset lowNs = { s.afterReset 2 with boot := { (s.afterReset 2).boot with rstN := false } } := by
        unfold State.pulseReset
        rw [if_neg (by simp [ht]; omega)]
      exact ⟨_, congrArg Host.Outcome.next eq, rfl, afterReset_phase s 2, afterReset_unsealed s 2, rfl, rfl, rfl, rfl, rfl, rfl, rfl, rfl⟩
  · rintro s path n hb hserve rfl
    have eq : exec (.deviceReset path 0xD1E50FF0) s = .next (s.keyReset path resetKey) := by
      cases path with
      | host => exact congrArg Host.Outcome.next (if_pos (hserve rfl))
      | mctp => rfl
    rw [eq]
    unfold State.keyReset
    rw [if_neg (by simp [hb])]
    refine ⟨fun hu => ?_, fun hu => ?_⟩
    · rw [if_pos (by simp [hu])]
      cases path <;> rfl
    · rw [if_neg (by simp [hu])]
      refine ⟨_, rfl, afterReset_phase s _, afterReset_unsealed s _, rfl, ?_, rfl, rfl⟩
      cases path <;> rfl
  · intro s ir ht
    have eq : s.tapTest ir = { s.afterReset 6 with boot := { (s.afterReset 6).boot with tapHold := some ir } } := by
      unfold State.tapTest
      rw [if_neg (by simp [ht])]
    exact ⟨_, congrArg Host.Outcome.next eq, rfl, afterReset_phase s 6, rfl, rfl, rfl⟩
  · intro s now ir hh
    have leaves : ∀ v : State, v.boot.tapHold = some ir → v.tapLeave = { v with
        boot := { v.boot with tapHold := none, cause := if v.boot.cold then 1 else 6 }
        sec := { v.sec with wipeDue := v.sec.wipeDue || decide (v.book.lifecycle ≠ 0) } } := by
      intro v hv
      unfold State.tapLeave
      rw [hv]
    have exit := leaves (s.tick now) (by rw [State.tick_boot]; exact hh)
    refine ⟨_, _, congrArg Host.Outcome.next exit, congrArg Host.Outcome.next (leaves s hh), rfl, ?_, ?_, State.tick_mem s now, fun hl => ?_⟩
    · rw [State.tick_boot]
    · rw [State.tick_sec, State.tick_book]
    · show ((s.tick now).sec.wipeDue || decide ((s.tick now).book.lifecycle ≠ 0)) = true
      rw [State.tick_book, decide_eq_true hl, Bool.or_true]
  · exact fun s => ⟨_, rfl, rfl, rfl, rfl, rfl, rfl, rfl, rfl, rfl⟩
  · intro s l hb
    refine ⟨fun hm => ⟨_, congrArg Host.Outcome.next (readJunctions_cool hb hm), ?_, flag_setFlag _ _ _ (by decide) (by decide), rfl, rfl⟩,
      fun ht => ?_⟩
    · refine (fld_setFld_other _ junctionTempOver junctionTempMax 0 (by decide) (.inr (.inl (by decide)))).trans ?_
      rw [fld_setFld_other _ _ _ _ (by decide) (.inr (.inl (by decide)))]
      exact fld_setFld _ _ _ (by decide) (by show min (hottest l).1.toNat 1023 < 2 ^ 10; omega)
    · have eq : ∃ v : State, s.readJunctions l =
          ({ v.afterReset 1 with boot := { (v.afterReset 1).boot with tripped := true } } : State).emit (.pin "THERM_TRIP_N" false) := by
        unfold State.readJunctions
        rw [if_neg (by simp [hb])]
        dsimp only
        rw [if_pos ht]
        exact ⟨_, rfl⟩
      obtain ⟨v, eq⟩ := eq
      exact ⟨_, congrArg Host.Outcome.next eq, rfl, rfl, rfl⟩

end Sys2Proof.Machine
end

