-- ==== Sys2Proof/Proofs/BringUp.lean ====
section
/-! SUPPORT. Bring-up, the release of the host port, and the flash tier (R480, R482, R486, Tables 17.3 and 17.4). -/
namespace Sys2Proof.Machine

variable {s t u : State} {f : BootFindings}

/-! ### What the steps of a bring-up leave -/

/-- `t` is `s` after steps of a bring-up that leave the memories, the boot state and the two registers that report it. -/
structure Boots (s t : State) : Prop where
  dev : t.mem.dev = s.mem.dev
  sram : t.mem.sram = s.mem.sram
  boot : t.boot = s.boot
  wipe : t.sec.wipeDue = s.sec.wipeDue
  status : t.reg rBootStatus = s.reg rBootStatus
  lifecycle : t.reg rLcStatus = s.reg rLcStatus

theorem Boots.trans (a : Boots s t) (b : Boots t u) : Boots s u :=
  ⟨b.dev.trans a.dev, b.sram.trans a.sram, b.boot.trans a.boot, b.wipe.trans a.wipe, b.status.trans a.status,
    b.lifecycle.trans a.lifecycle⟩

/-- A step that leaves the registers as they are. -/
theorem boots_of (h1 : t.regs = s.regs := by exact rfl) (h2 : t.mem.dev = s.mem.dev := by exact rfl)
    (h3 : t.mem.sram = s.mem.sram := by exact rfl) (h4 : t.boot = s.boot := by exact rfl)
    (h5 : t.sec.wipeDue = s.sec.wipeDue := by exact rfl) : Boots s t :=
  ⟨h2, h3, h4, h5, congrFun (reg_congr h1) _, congrFun (reg_congr h1) _⟩

theorem Boots.refl (s : State) : Boots s s := boots_of

theorem boots_setReg (s : State) (off v : Nat) (h1 : off ≠ rBootStatus) (h2 : off ≠ rLcStatus) : Boots s (s.setReg off v) :=
  ⟨rfl, rfl, rfl, rfl, reg_setReg_other _ _ _ _ h1.symm, reg_setReg_other _ _ _ _ h2.symm⟩

theorem boots_setFld (s : State) (g : Fld) (v : Nat) (h1 : g.off ≠ rBootStatus := by decide) (h2 : g.off ≠ rLcStatus := by decide) :
    Boots s (s.setFld g v) := boots_setReg s g.off _ h1 h2

theorem boots_foldl {α : Type} {g : State → α → State} (hg : ∀ t x, Boots t (g t x)) (l : List α) (s : State) :
    Boots s (l.foldl g s) := by
  induction l generalizing s with
  | nil => exact .refl s
  | cons x l ih => exact (hg s x).trans (ih _)

theorem event_boots (s : State) : Boots s s.event := by
  refine ⟨?_, ?_, ?_, ?_, ?_, ?_⟩ <;> (unfold State.event State.raise; split <;> rfl)

/-- One copy of a region found to fail its tag. -/
def State.tagFailed (s : State) (x : Nat × Bool) : State :=
  s.setRegion (if x.2 then { s.pbRegion x.1 with badB := true } else { s.pbRegion x.1 with badA := true })

theorem checkTags_boots (s : State) (f : BootFindings) : Boots s (s.checkTags f) := by
  have failed : ∀ v : State, ∀ x, Boots v (v.tagFailed x) := fun _ _ => boots_of
  have counted : ∀ (v : State) (b : PromptBook), Boots v { v with book := b } := fun _ _ => boots_of
  exact (boots_foldl failed f.tagFails s).trans (counted _ _)

theorem identifyFlash_boots (s : State) (found : List Nat) : Boots s (s.identifyFlash found) := by
  unfold State.identifyFlash
  exact Boots.trans (((Boots.trans boots_of (boots_setFld _ flashCfgChMask _)).trans (boots_setFld _ flashCfgCePerCh _)).trans
    (boots_setFld _ flashCfgLunPerCe _)) (boots_foldl (fun t _ => event_boots t) _ _)

theorem loadConfig_boots (s : State) (f : BootFindings) : Boots s (s.loadConfig f) := by
  have fitted : ∀ (l : List Nat) (v : State), Boots v (l.foldl (fun (u : State) d => (u.setFld ⟨rLpddrCfg, d, 1⟩ 0).event) v) :=
    boots_foldl fun t d => (boots_setFld t ⟨rLpddrCfg, d, 1⟩ 0 (by show rLpddrCfg ≠ rBootStatus; decide)
      (by show rLpddrCfg ≠ rLcStatus; decide)).trans (event_boots _)
  have digested : ∀ (v : State) (c : Sec), c.wipeDue = v.sec.wipeDue → Boots v { v with sec := c } := fun _ _ h =>
    boots_of rfl rfl rfl rfl h
  unfold State.loadConfig
  dsimp only
  refine Boots.trans ?_ (identifyFlash_boots _ _)
  refine Boots.trans ?_ (digested _ _ rfl)
  refine Boots.trans ?_ (boots_setFld _ holdupParamTProgUs _)
  refine Boots.trans ?_ (boots_setFld _ holdupParamPHoldW _)
  refine Boots.trans ?_ (fitted _ _)
  exact (boots_setReg s rLpddrCfg _ (by decide) (by decide)).trans (boots_setFld _ cxlmemSizeSize _)

/-- From the configuration to the hedges shown (Table 17.3). -/
def State.configured (s : State) (f : BootFindings) : State :=
  let t := ((s.checkTags f).loadConfig f).applyRepairs
  let t := (List.range 8).foldl (fun (u : State) p => u.askVolts p 0) t
  let t : State := { t with rel := { t.rel with poweredS := t.book.savedS, poweredNs := t.now } }
  t.showHedges

theorem configured_boots (s : State) (f : BootFindings) : Boots s (s.configured f) := by
  have repaired : ∀ v : State, Boots v v.applyRepairs := fun _ => boots_of
  have asked : ∀ (l : List Nat) (v : State), Boots v (l.foldl (fun (u : State) p => u.askVolts p 0) v) :=
    boots_foldl fun _ _ => boots_of
  have timed : ∀ (v : State) (r : Rel), Boots v { v with rel := r } := fun _ _ => boots_of
  have hedges : ∀ v : State, Boots v v.showHedges := fun v =>
    boots_foldl (fun t p => boots_setFld t (hedgeFld p) _ (by show rHedgeStatus ≠ rBootStatus; decide)
      (by show rHedgeStatus ≠ rLcStatus; decide)) _ _
  exact ((((checkTags_boots s f).trans (loadConfig_boots _ f)).trans (repaired _)).trans (asked _ _)).trans
    ((timed _ _).trans (hedges _))

theorem formatDue_boots (s : State) (f : BootFindings) : Boots s (s.formatDue f) := by
  have formatted : Boots s (if s.book.root.isNone || s.sec.reformatDue then s.format f else s) := by
    split
    · exact boots_of
    · exact .refl s
  have asked : ∀ v : State, Boots v { v with sec := { v.sec with reformatDue := false } } := fun _ => boots_of
  unfold State.formatDue
  exact ((formatted.trans (asked _)).trans (boots_setFld _ flashCfgOpPctM7 _)).trans (boots_setFld _ flashStatusLowFree _)

theorem placeMap_boots (s : State) (f : BootFindings) : Boots s (s.placeMap f) := by
  have owned : ∀ (v : State) (l : List (Nat × Nat)), Boots v { v with mem := { v.mem with owners := l } } := fun _ _ => boots_of
  unfold State.placeMap
  dsimp only
  split
  · exact .refl s
  · split
    · exact .refl s
    · exact (((boots_setFld s flashLogicalTilesTiles _).trans (boots_setFld _ ftlMapBaseBase _)).trans
        (boots_setFld _ ftlMapSizeGranules _)).trans (owned _ _)

theorem planCoppice_boots (s : State) (p : Nat) : Boots s (s.planCoppice p) := by
  unfold State.planCoppice
  split
  · exact .refl s
  · exact (Boots.trans boots_of (boots_setFld _ ⟨rHealthStatus, 12 + p, 1⟩ 1 (by show rHealthStatus ≠ rBootStatus; decide)
      (by show rHealthStatus ≠ rLcStatus; decide))).trans (event_boots _)

/-- Curtain as the book records it, and coppices planned for repairs that are due. -/
def State.bringEnd (s : State) : State :=
  (s.resumeCurtain.rel.repairDue.filterMap UnitId.part).foldl (fun (u : State) p => u.planCoppice p) s.resumeCurtain

theorem bringEnd_boots (s : State) : Boots s s.bringEnd := by
  have curtain : Boots s s.resumeCurtain := by
    unfold State.resumeCurtain
    split
    · exact .refl s
    · exact (boots_setFld s healthStatusCurtain _).trans (boots_setFld _ healthStatusCurtainCause _)
  exact curtain.trans (boots_foldl planCoppice_boots _ _)

/-! ### Fields of the registers that report a bring-up -/

theorem fld_setFld_mod (s : State) (g : Fld) (v : Nat) (h : g.lo + g.w ≤ 64) : (s.setFld g v).fld g = v % 2 ^ g.w := by
  unfold State.fld State.setFld
  rw [reg_setReg _ _ _ (setField_lt (reg_lt s g.off) h), field_setField]

theorem Boots.fld_status (h : Boots s t) (lo w : Nat) : t.fld ⟨rBootStatus, lo, w⟩ = s.fld ⟨rBootStatus, lo, w⟩ := by
  unfold State.fld
  rw [h.status]

theorem Boots.fld_lifecycle (h : Boots s t) (lo w : Nat) : t.fld ⟨rLcStatus, lo, w⟩ = s.fld ⟨rLcStatus, lo, w⟩ := by
  unfold State.fld
  rw [h.lifecycle]

theorem showLifecycle_shows {lc : Nat} (hlc : lc < 8) : (s.showLifecycle lc).fld lcStatusState = lc := by
  unfold State.showLifecycle State.setFlag
  rw [fld_setFld_other _ _ _ _ (by decide) (.inr (.inl (by decide))), fld_setFld_other _ _ _ _ (by decide) (.inr (.inl (by decide))),
    fld_setFld_other _ _ _ _ (by decide) (.inr (.inl (by decide)))]
  exact fld_setFld _ _ _ (by decide) hlc

/-! ### The memories ready -/

/-- Wiped or not, a device whose memories are ready is in phase 4 (R479, R482). -/
theorem readyMemories_ready (s : State) (f : BootFindings) : (s.readyMemories f).fld bootStatusPhase = 4 ∧
    (s.readyMemories f).boot = { s.boot with ready := true, cold := false } ∧
    (s.readyMemories f).fld bootStatusCause = s.fld bootStatusCause ∧
    (s.readyMemories f).reg rLcStatus = s.reg rLcStatus ∧
    (s.boot.cold = true ∨ s.sec.wipeDue = true → (s.readyMemories f).mem.dev = [] ∧ (s.readyMemories f).mem.sram = [] ∧
      (s.readyMemories f).flag bootStatusWiped = true) ∧
    (s.boot.cold = false → s.sec.wipeDue = false → (s.readyMemories f).mem.dev = s.mem.dev) := by
  have phase : ∀ v : State, (v.setFld bootStatusPhase 4).fld bootStatusPhase = 4 := fun v => fld_setFld v _ _ (by decide) (by decide)
  have cause : ∀ v : State, (v.setFld bootStatusPhase 4).fld bootStatusCause = v.fld bootStatusCause := fun v =>
    fld_setFld_other v _ _ _ (by decide) (.inr (.inr (by decide)))
  have other : ∀ v : State, (v.setFld bootStatusPhase 4).reg rLcStatus = v.reg rLcStatus := fun v => reg_setReg_other _ _ _ _ (by decide)
  unfold State.readyMemories
  dsimp only
  by_cases due : (s.boot.cold || s.sec.wipeDue) = true
  · rw [if_pos due]
    refine ⟨phase _, rfl, (cause _).trans ?_, (other _).trans ?_, fun _ => ⟨rfl, rfl, ?_⟩, fun h1 h2 => ?_⟩
    · exact fld_setFld_other s.wipeMemory bootStatusWiped bootStatusCause 1 (by decide) (.inr (.inr (by decide)))
    · exact reg_setReg_other s.wipeMemory _ _ _ (by decide)
    · refine (congrArg (· == 1) (fld_setFld_other _ bootStatusPhase bootStatusWiped 4 (by decide) (.inr (.inr (by decide))))).trans ?_
      exact flag_setFlag s.wipeMemory _ _ (by decide) (by decide)
    · rw [h1, h2] at due
      cases due
  · rw [if_neg due]
    refine ⟨phase _, rfl, cause _, other _, fun h => ?_, fun _ _ => rfl⟩
    refine absurd ?_ due
    rcases h with h | h <;> simp [h]

/-! ### Bring-up from the firmware on -/

/-- The steps of a bring-up in their order. -/
theorem bringOn_steps (s : State) (hl : f.lifecycleOk = true) : ∃ e b c, s.bringOn f =
    State.bringEnd { (((((s.showLifecycle s.book.lifecycle).configured f).setFld bootStatusError e).formatDue f).placeMap f).readyMemories f with
      boot := { ((((((s.showLifecycle s.book.lifecycle).configured f).setFld bootStatusError e).formatDue f).placeMap f).readyMemories
        f).boot with sealBlocked := b, curtainAtRelease := c } } := by
  unfold State.bringOn
  rw [hl]
  exact ⟨_, _, _, rfl⟩

/-- What a bring-up with a good lifecycle record leaves. -/
theorem bringOn_ready (s : State) (hl : f.lifecycleOk = true) (hlc : s.book.lifecycle < 8) :
    (s.bringOn f).fld bootStatusPhase = 4 ∧ (s.bringOn f).boot.ready = true ∧ (s.bringOn f).boot.cold = false ∧
      (s.bringOn f).lifecycle = s.book.lifecycle ∧ (s.bringOn f).fld bootStatusCause = s.fld bootStatusCause ∧
      (s.boot.cold = true ∨ s.sec.wipeDue = true → (s.bringOn f).mem.dev = [] ∧ (s.bringOn f).mem.sram = [] ∧
        (s.bringOn f).flag bootStatusWiped = true) ∧
      (s.boot.cold = false → s.sec.wipeDue = false → (s.bringOn f).mem.dev = s.mem.dev) := by
  obtain ⟨e, b, c, steps⟩ := bringOn_steps (f := f) s hl
  rw [steps]
  have config := configured_boots (s.showLifecycle s.book.lifecycle) f
  generalize (s.showLifecycle s.book.lifecycle).configured f = v0 at config ⊢
  have tier := (formatDue_boots (v0.setFld bootStatusError e) f).trans (placeMap_boots _ f)
  generalize ((v0.setFld bootStatusError e).formatDue f).placeMap f = w at tier ⊢
  obtain ⟨phase, boot, cause, lifecycle, wiped, kept⟩ := readyMemories_ready w f
  generalize w.readyMemories f = v at phase boot cause lifecycle wiped kept ⊢
  have resumed := bringEnd_boots { v with boot := { v.boot with sealBlocked := b, curtainAtRelease := c } }
  have bootKept : w.boot = s.boot := tier.boot.trans config.boot
  have wipeKept : w.sec.wipeDue = s.sec.wipeDue := tier.wipe.trans config.wipe
  have devKept : w.mem.dev = s.mem.dev := tier.dev.trans config.dev
  have causeKept : w.fld bootStatusCause = s.fld bootStatusCause := by
    refine (tier.fld_status 16 8).trans ?_
    refine (fld_setFld_other _ bootStatusError bootStatusCause e (by decide) (.inr (.inr (by decide)))).trans ?_
    refine (config.fld_status 16 8).trans ?_
    unfold State.showLifecycle State.setFlag State.fld State.setFld
    rw [reg_setReg_other _ _ _ _ (by decide), reg_setReg_other _ _ _ _ (by decide), reg_setReg_other _ _ _ _ (by decide),
      reg_setReg_other _ _ _ _ (by decide)]
    rfl
  have lifecycleKept : w.fld lcStatusState = s.book.lifecycle := by
    refine (tier.fld_lifecycle 0 3).trans ?_
    have set : (v0.setFld bootStatusError e).reg rLcStatus = v0.reg rLcStatus := reg_setReg_other _ _ _ _ (by decide)
    unfold State.fld
    rw [set]
    exact (config.fld_lifecycle 0 3).trans (showLifecycle_shows hlc)
  refine ⟨(resumed.fld_status 0 3).trans phase, ?_, ?_, ?_, (resumed.fld_status 16 8).trans (cause.trans causeKept), fun h => ?_,
    fun h1 h2 => ?_⟩
  · rw [resumed.boot]
    exact (congrArg Boot.ready boot).trans rfl
  · rw [resumed.boot]
    exact (congrArg Boot.cold boot).trans rfl
  · refine (resumed.fld_lifecycle 0 3).trans ?_
    unfold State.fld at lifecycleKept ⊢
    rw [← lifecycleKept]
    exact congrArg (fun r => field r 0 3) lifecycle
  · obtain ⟨dev, sram, flag⟩ := wiped (by rw [bootKept, wipeKept]; exact h)
    exact ⟨resumed.dev.trans dev, resumed.sram.trans sram, (congrArg (· == 1) (resumed.fld_status 4 1)).trans flag⟩
  · exact resumed.dev.trans ((kept (by rw [bootKept]; exact h1) (by rw [wipeKept]; exact h2)).trans devKept)

/-- The state in which a bring-up that may begin looks for its firmware. -/
def State.bringing (s : State) : State :=
  let t := (s.setFlag bootStatusCold s.boot.cold).setFld bootStatusCause s.boot.cause
  { t with boot := { t.boot with rstN := true } }

theorem bringUp_begins (hp : s.fld bootStatusPhase = 0) (hh : s.boot.tapHold = none) (he : s.fld bootStatusError = 0)
    (ht : s.boot.tripped = false) : s.bringUp f = match s.bootCopy f with
      | none => { s.bringing.setFld bootStatusError 1 with boot := { s.bringing.boot with cold := false } }
      | some c => (s.bringing.runFirmware c).bringOn f := by
  have held : s.inReset = true := by
    unfold State.inReset
    rw [hp]
    rfl
  unfold State.bringUp
  rw [if_pos (by simp [held, hh, he, ht])]
  rfl

/-- Without a firmware copy that passes the device stays in reset, and the error shows (R455, Table 17.4). -/
theorem bringing_fails (hp : s.fld bootStatusPhase = 0) : (s.bringing.setFld bootStatusError 1).fld bootStatusError = 1 ∧
    (s.bringing.setFld bootStatusError 1).fld bootStatusPhase = 0 := by
  refine ⟨fld_setFld _ _ _ (by decide) (by decide), (fld_setFld_other s.bringing _ _ _ (by decide) (.inr (.inl (by decide)))).trans ?_⟩
  refine (fld_setFld_other (s.setFlag bootStatusCold s.boot.cold) bootStatusCause bootStatusPhase s.boot.cause (by decide)
    (.inr (.inl (by decide)))).trans ?_
  exact (fld_setFld_other s bootStatusCold bootStatusPhase _ (by decide) (.inr (.inl (by decide)))).trans hp

theorem runFirmware_cause (s : State) (c : Bool × Bool) : (s.bringing.runFirmware c).fld bootStatusCause = s.boot.cause % 256 := by
  refine (fld_setFld_other (s.bringing.setFlag bootStatusFwCopy c.1) bootStatusFwFallback bootStatusCause _ (by decide)
    (.inr (.inr (by decide)))).trans ?_
  refine (fld_setFld_other s.bringing bootStatusFwCopy bootStatusCause _ (by decide) (.inr (.inr (by decide)))).trans ?_
  exact fld_setFld_mod (s.setFlag bootStatusCold s.boot.cold) bootStatusCause s.boot.cause (by decide)

/-! ### The flash tier -/

theorem flashOpen_empty (he : s.flash.early = []) (hi : s.flash.inbound = []) : s.flashOpen = s := by
  have same : ({ s with flash := { s.flash with early := [] } } : State) = s := by rw [← he]
  unfold State.flashOpen
  rw [he, same]
  show s.flash.inbound.foldl _ s = s
  rw [hi]
  rfl

/-- Settles O57. -/
theorem bringUpReadiesTheDevice : Obligations.BringUpReadiesTheDevice := by
  unfold Obligations.BringUpReadiesTheDevice
  refine ⟨?_, ?_, ?_⟩
  · rintro s w f now rfl hp hh he ht
    have boot := State.tick_boot (s := s) now
    have begins := bringUp_begins (s := s.tick now) (f := f) ((State.tick_fld s now _).trans hp) (by rw [boot]; exact hh)
      ((State.tick_fld s now _).trans he) (by rw [boot]; exact ht)
    refine ⟨fun hn => ?_, fun c hc hl _ _ _ hlc => ?_⟩
    · rw [hn] at begins
      obtain ⟨error, phase⟩ := bringing_fails (s := s.tick now) ((State.tick_fld s now _).trans hp)
      exact ⟨_, congrArg Host.Outcome.next begins, error, phase, rfl, State.tick_mem s now⟩
    · rw [hc] at begins
      obtain ⟨phase, ready, cold, lifecycle, cause, wiped, kept⟩ := bringOn_ready ((s.tick now).bringing.runFirmware c) hl
        (by show (s.tick now).book.lifecycle < 8; rw [State.tick_book]; exact hlc)
      have cold0 : ((s.tick now).bringing.runFirmware c).boot.cold = s.boot.cold := by
        show (s.tick now).boot.cold = s.boot.cold
        rw [boot]
      have wipe0 : ((s.tick now).bringing.runFirmware c).sec.wipeDue = s.sec.wipeDue := by
        show (s.tick now).sec.wipeDue = s.sec.wipeDue
        rw [State.tick_sec]
      refine ⟨_, congrArg Host.Outcome.next begins, phase, ready, cold, lifecycle.trans ?_, cause.trans ?_, fun h => ?_, fun h1 h2 => ?_⟩
      · show (s.tick now).book.lifecycle = s.book.lifecycle
        rw [State.tick_book]
      · rw [runFirmware_cause, boot]
      · exact wiped (by rw [cold0, wipe0]; exact h)
      · refine (kept (cold0.trans h1) (wipe0.trans h2)).trans ?_
        show (s.tick now).mem.dev = s.mem.dev
        rw [State.tick_mem]
  · rintro s w now rfl hr hrel hp hc
    refine congrArg Host.Outcome.next ?_
    unfold State.releasePort
    rw [State.tick_boot, State.tick_host, if_neg (by simp [hr, hrel, hp])]
    dsimp only
    rw [if_neg]
    rw [hc]
    decide
  · intro s hr ht hn
    have up : ∀ ok, s.flashUp ok = if ok then (s.setFlag flashStatusReady true).flashOpen
        else (s.setFld flashLogicalTilesTiles 0).setFld bootStatusError
          (if s.fld bootStatusError = 0 then 5 else s.fld bootStatusError) := by
      intro ok
      unfold State.flashUp
      rw [if_neg (by simp [hr, ht, hn])]
    refine ⟨fun he hi => congrArg Host.Outcome.next ((up true).trans (flashOpen_empty he hi)), congrArg Host.Outcome.next (up true),
      _, congrArg Host.Outcome.next (up false), ?_, ?_⟩
    · refine (fld_setFld_other (s.setFld flashLogicalTilesTiles 0) bootStatusError flashLogicalTilesTiles _ (by decide)
        (.inl (by decide))).trans ?_
      exact fld_setFld _ _ _ (by decide) (by decide)
    · refine fld_setFld _ bootStatusError _ (by decide) ?_
      split
      · decide
      · exact field_lt _ 8 8

end Sys2Proof.Machine
end

