-- ==== Sys2Proof/Proofs/CodecItems.lean ====
section
/-! SUPPORT. Codec items end by releasing their stream block (R313, R318, R327 to R335). The release is a write of part of a unit
of protection, made after the item's cycles have drawn a free value; where more errors show than the code detects, whether that
unit is correct hangs on the free value (log entry 41), of which the model says nothing. So what O32 says of the release is shown
here under a condition on the free values. -/
namespace Sys2Proof.Machine

variable {e : ItemEnv} {s u : State} {run item : Nat} {r : Run} {d : Done} {x : Item}

/-- What a code makes of more errors than it is said to detect does not turn for the worse as a free value is drawn. -/
def Steady : Prop := ∀ n place, Config.eccDetects (n + 1) place % 2 = 0 → Config.eccDetects n place % 2 = 0

/-! ### Units of protection as a free value is drawn -/

theorem resolved_draw (h : Steady) {place : Nat} {v : EccVerdict} (hb : u.draw.resolved place v = .uncorrectable) :
    u.resolved place v = .uncorrectable := by
  unfold State.resolved at hb ⊢
  split
  · next hv =>
    rw [if_pos hv] at hb
    split at hb
    · next he => rw [if_pos (h _ _ he)]
    · cases hb
  · next hv => rwa [if_neg hv] at hb

theorem stuckUnits_draw (h : Steady) {k : Nat} (hk : k ∈ u.draw.stuckUnits) : k ∈ u.stuckUnits := by
  unfold State.stuckUnits at hk ⊢
  obtain ⟨⟨line, errs⟩, hl, hk⟩ := List.mem_flatMap.1 hk
  obtain ⟨j, hj, hk⟩ := List.mem_flatMap.1 hk
  obtain ⟨hj, hv⟩ := List.mem_filter.1 hj
  refine List.mem_flatMap.2 ⟨(line, errs), hl, List.mem_flatMap.2 ⟨j, List.mem_filter.2 ⟨hj, ?_⟩, hk⟩⟩
  exact beq_iff_eq.2 (resolved_draw h (beq_iff_eq.1 hv))

theorem devPartBad_draw (h : Steady) {key len : Nat} (hu : u.devPartBad key len = false) : u.draw.devPartBad key len = false := by
  unfold State.devPartBad at hu ⊢
  rw [List.any_eq_false] at hu ⊢
  intro k hk
  refine hu k ?_
  unfold State.badUnits at hk ⊢
  obtain ⟨hk, hr⟩ := List.mem_filter.1 hk
  refine List.mem_filter.2 ⟨?_, hr⟩
  rcases List.mem_append.1 hk with hk | hk
  · rcases List.mem_append.1 hk with hk | hk
    · exact List.mem_append_left _ (List.mem_append_left _ hk)
    · exact List.mem_append_left _ (List.mem_append_right _ (stuckUnits_draw h hk))
  · exact List.mem_append_right _ hk

/-! ### The end of a codec item -/

/-- A state in which an item codes no picture any more. -/
def State.dropEncode (s : State) (run item : Nat) : State :=
  { s with media := { s.media with encodes := s.media.encodes.filter fun j => !(j.run == run && j.item == item) } }

/-- A codec item that ends with a success and holds its stream releases it. -/
theorem releaseCodec_frees {st : Nat} (hr : u.findRun run = some r) (hc : hdrClass r.desc.bytes = 7 ∨ hdrClass r.desc.bytes = 8)
    (hx : u.itemOf run item = some x) (he : x.hasEnded = false) (hst : x.stage ≠ 0) (hs : st < 16) :
    u.releaseCodec run item st =
      (u.dropEncode run item).putPart (u.runSource r item) (addrKey (leAt r.desc.bytes 40 8) + 4) (leBytes 4 0) := by
  have hit : r.item item = some x := by
    unfold State.itemOf at hx
    rw [hr] at hx
    exact hx
  have codec : hdrClass r.desc.bytes = 7 || hdrClass r.desc.bytes = 8 := by simpa using hc
  unfold State.releaseCodec
  rw [hr]
  dsimp only
  rw [if_pos codec, hit]
  dsimp only
  rw [if_neg (by simp [he, hst])]
  cases u.media.encodes.find? fun j => j.run == run && j.item == item with
  | none => rfl
  | some j =>
    dsimp only
    rw [if_neg (show ¬16 ≤ st by omega)]
    rfl

theorem putPart_sound {src : ErrSource} {key : Nat} {bs : List Byte} (h : u.devPartBad key bs.length = false) :
    u.putPart src key bs = u.devWrite key bs := by
  unfold State.putPart
  exact if_neg (by rw [h]; decide)

/-- An item that ends with a success while nothing of it waits gives up what it holds, its stream block first. -/
theorem closeItem_open {st dt : Nat} (hs : st < 16) (hq : u.waitsAck run item = false) (ho : u.itemOpen run item = true) :
    u.closeItem run item st dt = (((u.releaseCodec run item st).leaveItem run item st).abandon run item).onItem run item
      fun x => x.finish u.now st dt := by
  unfold State.closeItem State.endItem
  rw [hq, ho, releaseFeed_of_ok hs]
  simp only [Bool.and_false, Bool.not_true, Bool.false_eq_true, if_false]

/-- How an item that can end stands as its cycles are noted. -/
theorem noteCycles_there (hr : u.CanEnd run item r) (hx : u.itemOf run item = some x) (cy : Nat) :
    ∃ q y, (u.noteCycles run item cy).findRun run = some q ∧ q.desc = r.desc ∧ (u.noteCycles run item cy).itemOf run item = some y ∧
      y.hasEnded = false ∧ y.stage = x.stage ∧ (u.noteCycles run item cy).itemOpen run item = true := by
  obtain ⟨ho, -, hsame⟩ := hr
  obtain ⟨x', hx', he⟩ := itemOpen_iff.1 ho
  obtain rfl : x' = x := Option.some.inj (hx'.symm.trans hx)
  have there : (u.noteCycles run item cy).itemOf run item = some { x' with cycles := u.cyclesOf cy } := by
    refine (itemOf_onItem u run item run item (fun x => { x with cycles := u.cyclesOf cy }) (fun _ => rfl)).trans ?_
    rw [if_pos ⟨rfl, rfl⟩, hx]
    rfl
  have descs : ((u.noteCycles run item cy).findRun run).map Run.desc = (u.findRun run).map Run.desc :=
    desc_onItem u run item run (fun x => { x with cycles := u.cyclesOf cy })
  cases hq : (u.noteCycles run item cy).findRun run with
  | none =>
    unfold State.itemOf at there
    rw [hq] at there
    cases there
  | some q =>
    refine ⟨q, _, rfl, ?_, there, he, rfl, itemOpen_iff.2 ⟨_, there, he⟩⟩
    rw [hq] at descs
    cases hf : u.findRun run with
    | none => rw [hf] at descs; cases descs
    | some p =>
      rw [hf] at descs
      exact (Option.some.inj descs).trans (hsame p hf)

/-- A codec item that holds its stream ends with a success: the block is free again, and nothing else is written. -/
theorem closeCodec {st dt cy : Nat} (hr : u.CanEnd run item r) (hc : hdrClass r.desc.bytes = 7 ∨ hdrClass r.desc.bytes = 8)
    (hx : u.itemOf run item = some x) (hst : x.stage ≠ 0) (hs : st < 16)
    (hb : u.draw.devPartBad (addrKey (leAt r.desc.bytes 40 8) + 4) 4 = false) :
    ∃ t, (u.noteCycles run item cy).closeItem run item st dt = t ∧ t.phaseOf run item = some (.ended st dt) ∧
      t.mem = (u.devWrite (addrKey (leAt r.desc.bytes 40 8) + 4) (leBytes 4 0)).mem ∧ t.rings = u.rings ∧ t.outs = u.outs ∧
      ∀ k i, k ≠ run ∨ i ≠ item → t.itemOf k i = u.itemOf k i := by
  obtain ⟨q, y, hq, hd, hy, he, hsy, ho⟩ := noteCycles_there hr hx cy
  have items : ∀ k i, (u.noteCycles run item cy).itemOf k i =
      if k = run ∧ i = item then (u.itemOf k i).map (fun x => { x with cycles := u.cyclesOf cy }) else u.itemOf k i :=
    fun k i => itemOf_onItem u run item k i (fun x => { x with cycles := u.cyclesOf cy }) (fun _ => rfl)
  have frees := releaseCodec_frees (st := st) hq (by rw [hd]; exact hc) hy he (by rw [hsy]; exact hst) hs
  rw [hd, putPart_sound hb] at frees
  refine ⟨_, rfl, ?_⟩
  rw [closeItem_open hs (show (u.noteCycles run item cy).waitsAck run item = false from hr.quiet) ho, frees]
  generalize hw : ((u.noteCycles run item cy).dropEncode run item).devWrite (addrKey (leAt r.desc.bytes 40 8) + 4) (leBytes 4 0) = w
  have leaves := leaveItem_leaves w run item st
  have runs : ((w.leaveItem run item st).abandon run item).runs = (u.noteCycles run item cy).runs := by
    refine leaves.runs.trans ?_
    rw [← hw]
    rfl
  refine ⟨?_, ?_, ?_, ?_, fun k i hne => ?_⟩
  · unfold State.phaseOf
    rw [itemOf_onItem _ _ _ _ _ _ (fun x => finish_index x _ _ _), if_pos ⟨rfl, rfl⟩, itemOf_congr runs, hy]
    show some (y.finish u.now st dt).phase = _
    unfold Item.finish
    rw [he]
    rfl
  · refine leaves.mem.trans ?_
    rw [← hw]
    rfl
  · refine leaves.rings.trans ?_
    rw [← hw]
    rfl
  · refine leaves.outs.trans ?_
    rw [← hw]
    rfl
  · have hno : ¬(k = run ∧ i = item) := by omega
    rw [itemOf_onItem _ _ _ _ _ _ (fun x => finish_index x _ _ _), if_neg hno, itemOf_congr runs, items, if_neg hno]

/-- Work of an item that ends with a report closes the item with it. -/
theorem codecRun {cls op : Nat} {w : ItemM Done} (hr : s.itemReady cls op run item = some r)
    (hw : w.Gives (r.env s item) (s.beginItem run item) d u) :
    s.runItem cls op w run item = (u.noteCycles run item d.cycles).closeItem run item d.status d.detail := by
  unfold ItemM.Gives at hw
  unfold State.runItem
  rw [hr]
  dsimp only
  rw [hw]
  unfold settle
  dsimp only [Run.env]
  rw [itemReady_id hr]

/-- Work of a codec item that ends with a success. -/
theorem codecEnds {cls op : Nat} {w : ItemM Done} (hr : s.itemReady cls op run item = some r) (hc : cls = 7 ∨ cls = 8)
    (hw : w.Gives (r.env s item) (s.beginItem run item) d u) (hu : u.CanEnd run item r) (hx : u.itemOf run item = some x)
    (hst : x.stage ≠ 0) (hs : d.status < 16) (hb : u.draw.devPartBad (addrKey (leAt (payloadOf r.desc.bytes) 8 8) + 4) 4 = false) :
    ∃ t, s.runItem cls op w run item = t ∧ t.phaseOf run item = some (.ended d.status d.detail) ∧
      t.mem = (u.devWrite (addrKey (leAt (payloadOf r.desc.bytes) 8 8) + 4) (leBytes 4 0)).mem ∧ t.rings = u.rings ∧
      t.outs = u.outs ∧ ∀ k i, k ≠ run ∨ i ≠ item → t.itemOf k i = u.itemOf k i := by
  obtain ⟨hf, hcl, -, -⟩ := itemReady_spec hr
  rw [show leAt (payloadOf r.desc.bytes) 8 8 = leAt r.desc.bytes 40 8 by
    unfold leAt payloadOf
    rw [List.drop_drop]] at hb ⊢
  rw [codecRun hr hw]
  exact closeCodec hu (by rwa [hcl]) hx hst hs hb

/-! ### The encode commands -/

theorem bit_mod (n : Nat) : bit (n % 2 ^ 17) 16 = bit n 16 := by
  unfold bit field
  congr 1
  omega

theorem onEncode_run {w : ItemM Done} (h : ∃ j ∈ s.media.encodes, j.run = run ∧ j.item = item) :
    s.onEncode run item w = s.runItem 8 0 w run item := by
  unfold State.onEncode
  refine if_pos ?_
  obtain ⟨j, hj, hrun, hitem⟩ := h
  exact List.any_eq_true.2 ⟨j, hj, by simp [hrun, hitem]⟩

/-- SLICE_EMIT writes the slice, and goes on to the commit after the last one. -/
theorem sliceEmitWork_on {job : EncJob} {sl : EncSlice} {rest : List EncSlice} {h : StreamHdr} {s1 : State}
    (hj : theJob.Gives e s (some job) s) (hp : job.pending = sl :: rest)
    (ho : (sliceOut (payloadOf e.desc) job sl rest).Gives e s h s1) : sliceEmitWork.on e s =
      (if !bit sl.flags 0 then throw .hold else pictureCommit (payloadOf e.desc) job h : ItemM Done).on e s1 := by
  unfold sliceEmitWork
  rw [on_bind_ok hj]
  dsimp only
  rw [hp]
  dsimp only
  rw [on_read_bind]
  refine (on_bind_ok (t := s1) ho).trans ?_
  split <;> rfl

/-- What O32 says holds under the condition: each item ends, or waits, as its work leaves the state. -/
theorem codecItemsEnd_of_steady (hs : Steady) : Obligations.CodecItemsEnd := by
  unfold Obligations.CodecItemsEnd
  refine ⟨?_, ?_, ?_, ?_⟩
  · rintro s s0 s1 u run item r e z ent au h d x hr rfl rfl rfl hck hun hout hd hu hx hst - hb -
    obtain ⟨t, ht, rest⟩ := codecEnds (w := decAuWork) hr (.inl rfl) (by
      unfold decAuWork
      exact gives_bind hck (gives_read (gives_bind hun hout))) hu hx hst hd (devPartBad_draw hs hb)
    exact ⟨t, congrArg Host.Outcome.next ht, rest⟩
  · rintro s s0 s1 run item r e z h st hr rfl rfl rfl hck hj ho
    refine congrArg Host.Outcome.next (runItem_holds hr ?_)
    show encPictureWork.Holds _ _ _
    unfold encPictureWork
    refine holds_bind hck (holds_read (holds_bind hj ?_))
    exact holds_bind ho (holds_modify holds_throw)
  · rintro s s0 s1 s2 run item y q r e z cfg fence bytes job rows hr rfl rfl rfl hj hjob rfl rfl hy hno hf hrows rfl rfl
    refine congrArg Host.Outcome.next ((onEncode_run hj).trans (runItem_holds hr ?_))
    show encBlockRowWork.Holds _ _ _
    unfold encBlockRowWork
    refine holds_bind hjob (holds_read ?_)
    dsimp only
    rw [if_neg (by omega)]
    split
    · next hbit =>
      obtain ⟨hread, hpo, hmet⟩ := hf hbit
      refine holds_get (holds_bind hread ?_)
      rw [if_neg, if_neg]
      · exact holds_bind hrows (holds_modify holds_throw)
      · show ¬(!fenceMet _ _) = true
        rw [Bool.not_eq_true', Bool.not_eq_false]
        exact hmet
      · show ¬(bit (leNat fence % 2 ^ 17) 16 && !flProceed r.desc.bytes) = true
        rw [bit_mod]
        rcases hpo with h | h <;> rw [h] <;> simp
    · next hbit =>
      have hs1 := hno (by simpa using hbit)
      subst hs1
      refine holds_bind hrows (holds_modify holds_throw)
  · rintro s s0 s1 run item r e z job sl rest h hr rfl rfl rfl hj hjob hp ho
    have work := sliceEmitWork_on hjob hp ho
    refine ⟨fun hb => congrArg Host.Outcome.next ((onEncode_run hj).trans (runItem_holds hr (work.trans ?_))),
      fun u d x hb hc hu hx hst hd _ hbad => ?_⟩
    · rw [if_pos (by rw [hb]; rfl)]
      rfl
    · rw [if_neg (by rw [hb]; decide)] at work
      obtain ⟨t, ht, hph, hm, hri, hou, -⟩ := codecEnds (w := sliceEmitWork) hr (.inr rfl) (work.trans hc) hu hx hst hd
        (devPartBad_draw hs hbad)
      exact ⟨t, congrArg Host.Outcome.next ((onEncode_run hj).trans ht), hph, hm, hri, hou⟩

end Sys2Proof.Machine
end

