-- ==== Sys2Proof/Proofs/CodecTurn.lean ====
section
/-! SUPPORT. An encode item whose stream block stands on a line with more errors than its code detects: where the free value has
them pass as the work ends and detects them one draw later, the block is not released. The condition of `codecItemsEnd_of_steady`
cannot be dropped. -/
namespace Sys2Proof.Machine
open Sys2Proof.Tests

variable {e : ItemEnv} {s u v : State} {n key len : Nat} {bs : List Byte}

/-- An encode item whose stream block stands on a line of HBM, at 9 MiB. -/
def turnDesc : List Byte :=
  desc 8 0 1 [(32, 1, 0xFF), (40, 8, 0x900000), (48, 8, 0x200000), (56, 8, 0x300000), (68, 2, 1), (72, 8, 0x400000), (80, 1, 16),
    (81, 1, 4), (84, 8, 0x500000), (92, 8, 0x600000)]

/-- Its run, with the stream taken. -/
def turnRun : Run := { aRun turnDesc with items := [{ anItem 0 with stage := 1 }] }

/-- The item with one slice to go. The first codeword of the line shows more errors than its code detects. -/
def turnState (n : Nat) : State :=
  let s := runs turnRun (place 0x900004 [1] (encState [encBegun [aSlice 1]]))
  { s with freeCtr := n, mem := { s.mem with stuck := [(0x900000, [⟨0, 0, 4, false⟩])] } }

/-- What the item's work keeps: the line alone shows errors, the block on it is taken, and the item can end. -/
structure Turning (n : Nat) (v : State) : Prop where
  stuck : v.mem.stuck = [(0x900000, [⟨0, 0, 4, false⟩])]
  sound : v.mem.badDev = []
  plain : v.mem.marked = []
  reach : v.stackShut 0 = false
  unlogged : v.fld memerrLog.base = 0
  taken : v.devRead 0x900004 4 ≠ leBytes 4 0
  drawn : v.freeCtr = n
  canEnd : v.CanEnd 1 0 turnRun
  held : ∃ x, v.itemOf 1 0 = some x ∧ x.stage ≠ 0

/-! ### The line, and memory beside it -/

theorem Turning.stuckUnits (h : Turning n v) {k : Nat} (hk : k ∈ v.stuckUnits) : ∃ j < 4, k = 0x900000 + 16 * j ∧
    v.lineVerdict 0x900000 [⟨0, 0, 4, false⟩] j = .uncorrectable := by
  unfold State.stuckUnits at hk
  rw [h.stuck, List.flatMap_singleton] at hk
  obtain ⟨j, hj, hk⟩ := List.mem_flatMap.1 hk
  obtain ⟨hj, hv⟩ := List.mem_filter.1 hj
  exact ⟨j, List.mem_range.1 hj, by simpa [unitsOf] using hk, beq_iff_eq.1 hv⟩

theorem Turning.badUnits (h : Turning n v) {k : Nat} : k ∈ v.badUnits key len ↔
    k ∈ v.stuckUnits ∧ k < key + len ∧ key < k + 16 := by
  have dead : v.deadUnits key len = [] := by simp [State.deadUnits, State.deadPcs, h.plain]
  unfold State.badUnits
  rw [h.sound, dead, List.nil_append, List.append_nil, List.mem_filter]
  refine and_congr_right fun hk => ?_
  obtain ⟨j, hj, rfl, -⟩ := h.stuckUnits hk
  have unit : devUnit (0x900000 + 16 * j) = 16 := if_pos (by omega)
  simp [unit]

/-- Away from the line nothing is uncorrectable. -/
theorem Turning.apart (h : Turning n v) (ha : key + len ≤ 0x900000) : v.badUnits key len = [] := by
  rw [List.eq_nil_iff_forall_not_mem]
  intro k hk
  obtain ⟨hs, hlt, -⟩ := h.badUnits.1 hk
  obtain ⟨j, -, rfl, -⟩ := h.stuckUnits hs
  omega

theorem Turning.unshut (h : Turning n v) (ha : key < 2 ^ 36) : v.devShut key = false := by
  unfold State.devShut
  rw [show key / 2 ^ 36 = 0 by omega, h.reach, Bool.and_false]

theorem Turning.load (h : Turning n v) (ha : key + len ≤ 0x900000) (h0 : 0 < len) : (readDev key len).Gives e v (v.devRead key len) v := by
  have span : readSpan key len = (key, len) := if_pos (by omega)
  have sound : v.devBad key len = false := by
    unfold State.devBad
    rw [span, h.apart ha]
    rfl
  have unmet : v.meetCells (e.source v 0) key len = v := by
    unfold State.meetCells
    rw [h.stuck, List.filter_cons_of_neg (by simp; omega)]
    rfl
  refine (readDev_on (h.unshut (by omega)) sound).trans ?_
  rw [unmet]

theorem Turning.store (h : Turning n v) (ha : key + bs.length ≤ 0x900000) :
    (writeDev key bs).Gives e v () (v.devWrite key bs) := by
  have sound : v.devPartBad key bs.length = false := by
    unfold State.devPartBad
    rw [h.apart ha]
    rfl
  unfold writeDev
  exact gives_get (gives_read (gives_require (by rw [h.unshut (by omega)]; rfl) (by
    rw [if_neg (by rw [sound]; decide)]
    rfl)))

theorem Turning.devWrite (h : Turning n v) (ha : key + bs.length ≤ 0x900000) : Turning n (v.devWrite key bs) where
  stuck := h.stuck
  sound := by
    show v.mem.badDev.filter _ = []
    rw [h.sound]
    rfl
  plain := h.plain
  reach := h.reach
  unlogged := h.unlogged
  taken := by
    show cellRead 0 (cellWrite 0 v.mem.dev key bs) _ _ ≠ _
    rw [cellRead_write_apart _ _ _ _ _ _ (by omega)]
    exact h.taken
  drawn := h.drawn
  canEnd := ⟨h.canEnd.isOpen, h.canEnd.quiet, h.canEnd.same⟩
  held := h.held

theorem Turning.onItem {f : Item → Item} (h : Turning n v) (hi : ∀ x, (f x).index = x.index)
    (he : ∀ x, (f x).hasEnded = x.hasEnded) (hs : ∀ x, (f x).stage = x.stage) : Turning n (v.onItem 1 0 f) where
  stuck := h.stuck
  sound := h.sound
  plain := h.plain
  reach := h.reach
  unlogged := h.unlogged
  taken := h.taken
  drawn := h.drawn
  canEnd := h.canEnd.onItem hi he
  held := by
    obtain ⟨x, hx, hst⟩ := h.held
    refine ⟨f x, ?_, (hs x).trans_ne hst⟩
    rw [itemOf_onItem _ _ _ _ _ _ hi, if_pos ⟨rfl, rfl⟩, hx]
    rfl

theorem turnState_turning (n : Nat) : Turning n ((turnState n).beginItem 1 0) where
  stuck := rfl
  sound := rfl
  plain := rfl
  reach := by
    show ((turnState 0).beginItem 1 0).stackShut 0 = false
    decide +kernel
  unlogged := by
    show ((turnState 0).beginItem 1 0).fld memerrLog.base = 0
    decide +kernel
  taken := by
    show ((turnState 0).beginItem 1 0).devRead 0x900004 4 ≠ _
    decide +kernel
  drawn := rfl
  canEnd := canEnd_of (show Tests.canEnd ((turnState 0).beginItem 1 0) 1 0 turnRun = true by decide +kernel)
  held := ⟨_, rfl, by decide +kernel⟩

/-! ### The work -/

/-- The picture under way. -/
def turnJob : EncJob := encBegun [aSlice 1]

/-- The item once it has read its consumer positions. -/
def turnRead (n : Nat) : State :=
  ((turnState n).beginItem 1 0).onItem 1 0 fun x =>
    { x with arrived := x.arrived.filter fun r => decide (r.1 < 0x600000) || decide (0x600000 + 16 ≤ r.1) }

theorem turnRead_turning (n : Nat) : Turning n (turnRead n) :=
  (turnState_turning n).onItem (fun _ => rfl) (fun _ => rfl) (fun _ => rfl)

theorem turnOwn (n : Nat) : ((turnState n).beginItem 1 0).isOwn (addrMember 0x600000) = true :=
  show ((turnState 0).beginItem 1 0).isOwn (addrMember 0x600000) = true by decide +kernel

theorem loadFresh_gives (n : Nat) : (loadFresh 0x600000 16).Gives (turnRun.env (turnState n) 0) ((turnState n).beginItem 1 0)
    (((turnState n).beginItem 1 0).devRead 0x600000 16) (turnRead n) := by
  have begun := turnState_turning n
  have check : (checkRead 0x600000 16).Gives (turnRun.env (turnState n) 0) ((turnState n).beginItem 1 0) () ((turnState n).beginItem 1 0) := by
    have own : ((turnState n).beginItem 1 0).isOwn (addrMember 0x600000) = true := turnOwn n
    unfold checkRead
    refine gives_get (gives_require (by decide) ?_)
    rw [if_neg (by decide), if_pos own, if_pos (by decide)]
    exact gives_check (show ((turnState 0).beginItem 1 0).populated (addrTier 0x600000) (addrOff 0x600000) 16 = true by decide +kernel)
  unfold loadFresh
  refine gives_bind (t := (turnState n).beginItem 1 0) ?_ (gives_modify (gives_pure _))
  unfold loadKeep
  refine gives_bind check (gives_read (gives_get ?_))
  rw [if_pos (turnOwn n)]
  unfold loadAt
  refine gives_get ?_
  rw [if_neg (by decide), if_pos (turnOwn n), if_neg (by decide)]
  exact begun.load (by decide) (by decide)

theorem Turning.media (h : Turning n v) (m : Media) : Turning n { v with media := m } where
  stuck := h.stuck
  sound := h.sound
  plain := h.plain
  reach := h.reach
  unlogged := h.unlogged
  taken := h.taken
  drawn := h.drawn
  canEnd := ⟨h.canEnd.isOpen, h.canEnd.quiet, h.canEnd.same⟩
  held := h.held

/-- The rings have room: nothing has been produced or consumed. -/
theorem turn_empty (n : Nat) : (streamHdr (((turnState n).beginItem 1 0).devRead 0x100000 64)).producer = 0 ∧
    (streamHdr (((turnState n).beginItem 1 0).devRead 0x100000 64)).slices = 0 ∧
    leAt (((turnState n).beginItem 1 0).devRead 0x600000 16) 0 8 = 0 ∧ leAt (((turnState n).beginItem 1 0).devRead 0x600000 16) 8 8 = 0 := by
  show (streamHdr (((turnState 0).beginItem 1 0).devRead 0x100000 64)).producer = 0 ∧
    (streamHdr (((turnState 0).beginItem 1 0).devRead 0x100000 64)).slices = 0 ∧
    leAt (((turnState 0).beginItem 1 0).devRead 0x600000 16) 0 8 = 0 ∧ leAt (((turnState 0).beginItem 1 0).devRead 0x600000 16) 8 8 = 0
  decide +kernel

/-- A piece of the work goes well from a state, and leaves what the work keeps. -/
def TurnsFrom {α : Type} (e : ItemEnv) (n : Nat) (m : ItemM α) (p : α → Prop) (v : State) : Prop :=
  ∃ a t, m.Gives e v a t ∧ p a ∧ Turning n t

/-- The same from every state of these. -/
def Turns {α : Type} (e : ItemEnv) (n : Nat) (m : ItemM α) (p : α → Prop) : Prop := ∀ v, Turning n v → TurnsFrom e n m p v

section Pieces
variable {α β : Type} {m : ItemM α} {k : α → ItemM β} {p : α → Prop} {q : β → Prop}

theorem Turns.bind (hm : Turns e n m p) (hk : ∀ a, p a → Turns e n (k a) q) : Turns e n (m >>= k) q := by
  intro v hv
  obtain ⟨a, t, hm, ha, ht⟩ := hm v hv
  obtain ⟨b, u, hb, hq, hu⟩ := hk a ha t ht
  exact ⟨b, u, gives_bind hm hb, hq, hu⟩

theorem turns_pure {b : β} (h : q b) : Turns e n (pure b : ItemM β) q := fun v hv => ⟨b, v, rfl, h, hv⟩
theorem turns_get {k : State → ItemM β} (h : ∀ s, Turns e n (k s) q) : Turns e n (get >>= k) q := fun v hv => h v v hv
theorem turns_writeDev (ha : key + bs.length ≤ 0x900000) : Turns e n (writeDev key bs) fun _ => True :=
  fun _ hv => ⟨(), _, hv.store ha, trivial, hv.devWrite ha⟩

theorem turns_ringStore {pos : Nat} (h : bs.length ≤ 2 ^ 16) : Turns e n (ringStore 0x400000 16 pos bs) fun _ => True := by
  unfold ringStore
  have := Nat.mod_lt pos (show 0 < 2 ^ 16 by decide)
  refine Turns.bind (turns_writeDev (by rw [List.length_take]; omega)) fun _ _ => ?_
  split
  · exact turns_writeDev (by rw [List.length_drop]; omega)
  · exact turns_pure trivial

end Pieces

theorem turnsFrom_bind {α β : Type} {m : ItemM α} {k : α → ItemM β} {q : β → Prop} {a : α} (hm : m.Gives e s a u)
    (hk : TurnsFrom e n (k a) q u) : TurnsFrom e n (m >>= k) q s := by
  obtain ⟨b, t, hb, hq, ht⟩ := hk
  exact ⟨b, t, gives_bind hm hb, hq, ht⟩

theorem turnsFrom_read {α : Type} {k : ItemEnv → ItemM α} {p : α → Prop} (h : TurnsFrom e n (k e) p s) :
    TurnsFrom e n (read >>= k) p s := h

/-- The slice is written and its positions moved. -/
theorem sliceOut_turns (n : Nat) : TurnsFrom (turnRun.env (turnState n) 0) n (sliceOut (payloadOf turnDesc) turnJob (aSlice 1) [])
    (fun _ => True) ((turnState n).beginItem 1 0) := by
  have stream := (turnState_turning n).load (e := turnRun.env (turnState n) 0) (key := 0x100000) (len := 64) (by decide) (by decide)
  have list : turnJob.list = 0x500000 := by decide +kernel
  have log : turnJob.listLog2 = 4 := by decide +kernel
  have block : turnJob.stream = 0x100000 := by decide +kernel
  have ring : addrKey (leAt (payloadOf turnDesc) 40 8) = 0x400000 := by decide +kernel
  have size : leAt (payloadOf turnDesc) 48 1 = 16 := by decide +kernel
  have cons : leAt (payloadOf turnDesc) 60 8 = 0x600000 := by decide +kernel
  have fence : leAt (payloadOf turnDesc) 72 4 = 0 := by decide +kernel
  obtain ⟨producer, slices, bytes, entries⟩ := turn_empty n
  unfold sliceOut
  simp only [list, log, block, ring, size, cons, fence]
  refine turnsFrom_read (turnsFrom_bind stream (turnsFrom_bind (loadFresh_gives n) ?_))
  generalize ((turnState n).beginItem 1 0).devRead 0x600000 16 = c at *
  generalize streamHdr (((turnState n).beginItem 1 0).devRead 0x100000 64) = h at *
  rw [if_neg (by rw [producer, slices, bytes, entries]; decide)]
  refine (?_ : Turns _ n _ _) (turnRead n) (turnRead_turning n)
  refine Turns.bind (turns_ringStore (by decide)) fun _ _ => turns_get fun v => ?_
  refine Turns.bind (turns_writeDev ?_) fun _ _ => Turns.bind (turns_writeDev ?_) fun _ _ => ?_
  · simp only [slices, sliceEntry, List.length_append, leBytes_length]
    decide
  · simp only [List.length_append, leBytes_length]
    decide
  · rw [if_neg (by decide)]
    exact fun v hv => ⟨h, _, gives_bind (a := ()) rfl (gives_pure _), trivial, hv.media _⟩

theorem turning_putPool {pool : Pool} (hp : pool.bufs.length ≤ 32) (hv : Turning n v) : Turning n (v.putPool 0x200000 pool [] [] []) := by
  unfold State.putPool
  rw [List.foldl_nil]
  have keeps : ∀ (l : List Nat), (∀ k ∈ l, k < 32) → ∀ w, Turning n w → Turning n (l.foldl (fun (t : State) k =>
      (t.devWrite (0x200000 + 64 + 32 * k + 8) (leBytes 1 0)).devWrite (0x200000 + 64 + 32 * k + 16) (leBytes 8 0)) w) := by
    intro l
    induction l with
    | nil => exact fun _ _ hw => hw
    | cons k l ih =>
      intro hl w hw
      have hk := hl k (by simp)
      exact ih (fun j hj => hl j (by simp [hj])) _ ((hw.devWrite (by rw [leBytes_length]; omega)).devWrite (by rw [leBytes_length]; omega))
  exact keeps _ (fun k hk => by have := List.mem_range.1 hk; omega) v hv

theorem turning_putStream (x : StreamState) (hv : Turning n v) : Turning (n + 262144) (v.putStream 0x100000 x) := by
  obtain ⟨stuck, sound, plain, reach, unlogged, taken, drawn, canEnd, held⟩ :=
    hv.devWrite (key := 0x100000 + 128) (bs := blockImage v.freeCtr) (by simp [blockImage])
  exact ⟨stuck, sound, plain, reach, unlogged, taken, congrArg (· + 262144) drawn,
    ⟨canEnd.isOpen, canEnd.quiet, canEnd.same⟩, held⟩

/-- The picture is committed: what it draws for the bytes of its stream block moves the free values on. -/
theorem pictureCommit_turns {h : StreamHdr} : ∀ v, Turning n v →
    TurnsFrom (turnRun.env s 0) (n + 262144) (pictureCommit (payloadOf turnDesc) turnJob h) (fun d => d.status < 16) v := by
  intro v hv
  have block : turnJob.stream = 0x100000 := by decide +kernel
  have pool : addrKey (leAt (payloadOf turnDesc) 16 8) = 0x200000 := by decide +kernel
  have start : (bit (leAt (payloadOf turnDesc) 2 1) 1 && (turnRun.env s 0).item == 0) = false := by
    have : bit (leAt (payloadOf turnDesc) 2 1) 1 = false := by decide +kernel
    rw [this]
    rfl
  have bufs : turnJob.state.bufs = [] := by decide +kernel
  unfold pictureCommit
  simp only [block, pool, bufs]
  refine turnsFrom_read (turnsFrom_bind (hv.load (by decide) (by decide)) ?_)
  have few : (poolOfBytes (v.devRead 0x200000 1088)).bufs.length ≤ 32 := by
    simp only [poolOfBytes, List.length_map, List.length_range]
    omega
  generalize poolOfBytes (v.devRead 0x200000 1088) = q at *
  refine turnsFrom_bind (u := (v.putPool 0x200000 q [] [] []).putStream 0x100000 turnJob.state) rfl ?_
  rw [if_neg (by rw [start]; decide)]
  refine (?_ : Turns _ (n + 262144) _ _) _ (turning_putStream _ (turning_putPool few hv))
  refine Turns.bind (turns_writeDev (by simp only [leBytes_length]; decide)) fun _ _ => turns_get fun w => ?_
  exact Turns.bind (turns_writeDev (by simp only [leBytes_length]; decide)) fun _ _ => turns_pure (by decide)

/-! ### The line as the free value turns -/

theorem Turning.lineVerdict (hv : Turning n v) : v.lineVerdict 0x900000 [⟨0, 0, 4, false⟩] 0 =
    if Config.eccDetects n 0x900000 % 2 = 0 then .uncorrectable else .clean := by
  have lanes : v.markedLanes (pcOf 0x900000) = [] := by
    unfold State.markedLanes
    rw [hv.plain]
    rfl
  have beyond : hbmVerdict [] [⟨0, 0, 4, false⟩] = .beyond := by decide
  unfold State.lineVerdict
  rw [if_pos (by decide), lanes, List.filter_cons_of_pos (by decide), List.filter_nil, beyond]
  unfold State.resolved
  rw [if_pos rfl, hv.drawn]

/-- The free value has the line's pattern pass for correct data. -/
theorem Turning.passes (hv : Turning n v) (hn : Config.eccDetects n 0x900000 % 2 ≠ 0) : v.devPartBad 0x900004 4 = false := by
  unfold State.devPartBad
  rw [List.any_eq_false]
  intro k hk
  obtain ⟨hs, hlt, -⟩ := hv.badUnits.1 hk
  obtain ⟨j, -, rfl, hb⟩ := hv.stuckUnits hs
  obtain rfl : j = 0 := by omega
  rw [hv.lineVerdict, if_neg hn] at hb
  cases hb

/-- The free value has it detected. -/
theorem Turning.fails (hv : Turning n v) (hn : Config.eccDetects n 0x900000 % 2 = 0) : v.devPartBad 0x900004 4 = true := by
  have stuck : 0x900000 ∈ v.stuckUnits := by
    unfold State.stuckUnits
    rw [hv.stuck, List.flatMap_singleton]
    refine List.mem_flatMap.2 ⟨0, List.mem_filter.2 ⟨by decide, ?_⟩, by decide⟩
    rw [hv.lineVerdict, if_pos hn]
    rfl
  exact List.any_eq_true.2 ⟨0x900000, hv.badUnits.2 ⟨stuck, by decide, by decide⟩, by decide⟩

theorem Turning.draw (hv : Turning n v) : Turning (n + 1) v.draw where
  stuck := hv.stuck
  sound := hv.sound
  plain := hv.plain
  reach := hv.reach
  unlogged := hv.unlogged
  taken := hv.taken
  drawn := congrArg (· + 1) hv.drawn
  canEnd := ⟨hv.canEnd.isOpen, hv.canEnd.quiet, hv.canEnd.same⟩
  held := hv.held

theorem event_mem (s : State) : s.event.mem = s.mem := by
  unfold State.event State.raise
  split <;> rfl

/-- A write refused over a line of HBM, with no log of memory errors, leaves memory as it is. -/
theorem putPart_refused {src : ErrSource} (hk : key < 2 ^ 43) (hl : s.fld memerrLog.base = 0) (h : s.devPartBad key bs.length = true) :
    (s.putPart src key bs).mem = s.mem := by
  unfold State.putPart State.partRefused State.memErr State.logPost
  rw [if_pos h, if_pos hl, show devBadType key = 2 from if_pos hk]
  exact event_mem s

/-- The stream block of an item that ends on such a line stays taken. -/
theorem Turning.closes {st dt cy : Nat} (hv : Turning n v) (hn : Config.eccDetects (n + 1) 0x900000 % 2 = 0) (hs : st < 16) :
    ((v.noteCycles 1 0 cy).closeItem 1 0 st dt).mem = v.mem := by
  obtain ⟨x, hx, hst⟩ := hv.held
  obtain ⟨q, y, hq, hd, hy, he, hsy, ho⟩ := noteCycles_there hv.canEnd hx cy
  have block : addrKey (leAt q.desc.bytes 40 8) + 4 = 0x900004 := by
    rw [hd]
    decide +kernel
  have codec : hdrClass q.desc.bytes = 8 := by
    rw [hd]
    decide +kernel
  rw [closeItem_open hs (show (v.noteCycles 1 0 cy).waitsAck 1 0 = false from hv.canEnd.quiet) ho,
    releaseCodec_frees hq (.inr codec) hy he (by rw [hsy]; exact hst) hs, block]
  refine (leaveItem_leaves _ 1 0 st).mem.trans ?_
  exact putPart_refused (by decide) hv.unlogged (hv.draw.fails hn)

/-- O32 fails where the free value takes the line's pattern for correct data as the work ends and detects it once the item's
cycles are drawn: the write that releases the stream block is refused over the codeword, and the block stays taken. -/
theorem not_codecItemsEnd_of_turn (h0 : Config.eccDetects (n + 262144) 0x900000 % 2 ≠ 0)
    (h1 : Config.eccDetects (n + 262144 + 1) 0x900000 % 2 = 0) : ¬ Obligations.CodecItemsEnd := by
  unfold Obligations.CodecItemsEnd
  rintro ⟨-, -, -, slices⟩
  obtain ⟨h, s1, writes, -, hs1⟩ := sliceOut_turns n
  obtain ⟨d, u, commits, hd, hu⟩ := pictureCommit_turns (s := turnState n) (h := h) s1 hs1
  obtain ⟨x, hx, hst⟩ := hu.held
  have ready : (turnState n).itemReady 8 0 1 0 = some turnRun := rfl
  have jobs : ∃ j ∈ (turnState n).media.encodes, j.run = 1 ∧ j.item = 0 := ⟨turnJob, List.mem_singleton.2 rfl, rfl, rfl⟩
  have job : theJob.Gives (turnRun.env (turnState n) 0) ((turnState n).beginItem 1 0) (some turnJob) ((turnState n).beginItem 1 0) := rfl
  have block : addrKey (leAt (payloadOf turnRun.desc.bytes) 8 8) + 4 = 0x900004 := by decide +kernel
  obtain ⟨-, ends⟩ := slices (turnState n) _ s1 1 0 turnRun _ _ turnJob (aSlice 1) [] h ready rfl rfl rfl jobs job rfl writes
  obtain ⟨t, ht, -, hm, -⟩ := ends u d x (by decide) commits hu.canEnd hx hst hd
    (by rw [block]; exact hu.unshut (by decide)) (by rw [block]; exact hu.passes h0)
  have work : sliceEmitWork.Gives (turnRun.env (turnState n) 0) ((turnState n).beginItem 1 0) d u := by
    rw [ItemM.Gives, sliceEmitWork_on job rfl writes, if_neg (by decide)]
    exact commits
  have shut : t = (u.noteCycles 1 0 d.cycles).closeItem 1 0 d.status d.detail :=
    (Host.Outcome.next.inj ((congrArg Host.Outcome.next ((onEncode_run jobs).trans (codecRun ready work))).symm.trans ht)).symm
  rw [shut, hu.closes h1 hd, block] at hm
  refine hu.taken ((congrArg (fun m : Mem => cellRead 0 m.dev 0x900004 4) hm).trans ?_)
  exact cellRead_write 0 u.mem.dev 0x900004 (leBytes 4 0)

end Sys2Proof.Machine
end
